-- ==== Sys2Proof/Word.lean ====
section
/-! DEFINITION. The words of the block: bytes, registers, and the sparse tables the state is made of. -/

namespace Sys2Proof

/-- One byte. -/
abbrev Byte := BitVec 8

/-- A run of bytes, lowest address first (spec/00 R12). -/
abbrev Bytes := List Byte

/-- A 64-bit register (spec/00 R13). -/
abbrev W64 := BitVec 64

/-- A sparse table: entries by rising key; an absent key holds the table's default. -/
abbrev Tab (α : Type) := List (Nat × α)

end Sys2Proof
end

