-- ==== Sys2Proof/Syntax.lean ====
section
/-! DEFINITION. The commands of the block: one constructor of `Instr` per row of spec/opcode_table.json, with the
operands the rules of the row name. What comes from outside (a sensor reading, a frame, a peer's answer, the agent of
a register access, the engine or context whose turn the row is) is an operand. -/

namespace Sys2Proof

/-- Who makes a control-space access (spec/14 R345, spec/15 R392, spec/17 R437). -/
inductive Agent where
  /-- Wheelhouse hart `h`, running in hypervisor mode or not. -/
  | hart (h : Nat) (hypervisor : Bool)
  /-- The management path: the management port and MGMT frames. -/
  | mgmt
  /-- The purser. -/
  | purser
  /-- Any other agent. -/
  | other
  deriving DecidableEq, Repr

/-- The kinds of engine of spec/15 Table 15-4. -/
inductive EngKind where
  | core | barge | gather | slice | ssu | router | grinder | slipManager
  deriving DecidableEq, Repr

/-- One engine: its kind and its index (spec/15 Table 15-4). -/
structure Eng where
  kind : EngKind
  index : Nat
  deriving DecidableEq, Repr

/-- What a rate monitor counted in a window, and its temperature (spec/02 R49). -/
structure RateReading where
  count : Nat
  tj : BitVec 8
  deriving DecidableEq, Repr

/-- The readings one 100 µs sample takes (spec/19 R490). -/
structure SensorReadings where
  vin10mV : BitVec 16
  iin10mA : BitVec 16
  pinW : BitVec 16
  inlet : BitVec 8
  outlet : BitVec 8
  hubTj : BitVec 8
  hbm : List (BitVec 8)
  deriving DecidableEq, Repr

/-- What a scrub or telemetry unit finds (spec/14 Table 14-4, spec/07 R182, R183, R187). -/
inductive Finding where
  | nothing
  /-- A single-bit error in the HBM word at an address, corrected by the controller. -/
  | hbmCorrected (addr : Nat)
  /-- An on-die correction that stack `s` reports. -/
  | hbmOnDie (stack : Nat)
  /-- An uncorrectable 32-byte HBM word. -/
  | hbmBad (addr : Nat)
  /-- A corrected 8-byte SRAM word of the store that holds the address. -/
  | sramCorrected (addr : Nat)
  /-- An uncorrectable 8-byte SRAM word of the store that holds the address. -/
  | sramBad (addr : Nat)
  deriving DecidableEq, Repr

/-- The trip conditions of spec/19 Table 19-5, in table order. -/
inductive TripCause where
  | junction | hbm | outlet | overVoltage | overCurrent | rail
  deriving DecidableEq, Repr

/-- The TYPE of a ferry frame (spec/16 Table 16-5). -/
inductive FType where
  | data | control | nack | sync | syncAck | hello
  deriving DecidableEq, Repr

/-- What the purser of a request asks the purser of a module: about what that module holds, or to have it done there
(spec/13; spec/16 R419: the content is the firmware's). -/
inductive PurserAsk where
  /-- Take a reference of a prefix segment if it is ready; its record, and of a ready one its page list and the passages it
  covers (spec/13 R321). -/
  | segTake (addr : Nat)
  /-- The record and the token list of a prefix segment (spec/13 R328). -/
  | segRead (addr : Nat)
  /-- DIM of a shard (spec/13 R316). -/
  | shardDim (desc : Nat)
  /-- The address and the number of the tokens of a passage, if the directory holds it (spec/13 R317, R321). -/
  | lookup (ctx directory slots id : Nat)
  /-- Allocate KV pages from a pool (spec/13 R326, R330). -/
  | kvTake (pool n pageBytes count : Nat)
  /-- Copy a page, given by its global address, to one here by MOVE (spec/13 R324). -/
  | copy (ctx src dst n : Nat)
  /-- Write K, V and the completed summaries of a layer for the positions whose pages (index, global address) lie here
  (spec/13 R327, R330). -/
  | kv (ctx : Nat) (model : Bytes) (layer first last : Nat) (pages : List (Nat × Nat))
  /-- Compute the attention of a layer for the queries of those positions, under the layer's selection record, `len` keys in
  all (spec/13 R327, R330). -/
  | attend (ctx : Nat) (model selection : Bytes) (layer len first last : Nat) (pages : List (Nat × Nat))
  deriving DecidableEq, Repr

/-- What pursers tell one another (spec/16 R419: the content is the firmware's, the effects are the rules'). -/
inductive PurserMsg where
  /-- Return a spare slot of a table (spec/11 R278, R279). -/
  | spareFree (table slot : Nat)
  /-- Reserve a spare slot of a table for a MIGRATE of the sender, or say when no request for the slot named is under way
  (spec/11 R278, Table 11-6). -/
  | spareAsk (engine ctx table : Nat) (slot : Option Nat)
  /-- The answer, with a status code: the spare slot and its address there; OK with none: requests still run. -/
  | spareIs (engine ctx table : Nat) (ask : Option Nat) (status : Nat) (slot : Option (Nat × Nat))
  /-- Migrate a row of a table, whose home is the receiver, to a module (spec/11 R280). -/
  | migrate (table index target : Nat)
  /-- That migration has ended. -/
  | migrated
  /-- A stage of the sender names a map here (spec/15 R384). -/
  | mapWant (ctx core map : Nat)
  /-- A map the receiver asked for has reported a status code. -/
  | mapReport (ctx core map status : Nat)
  /-- A context of the sender has installed a new map with the identifier of one that reported (spec/15 R384). -/
  | mapNew (ctx map : Nat)
  /-- A question about a request of the sender, under a number of its own. -/
  | ask (rid key : Nat) (q : PurserAsk)
  /-- The answer: a status code and what was asked for. -/
  | answer (rid key status : Nat) (data : List Bytes)
  /-- Score the centroids of a shard here and run a QUERY for entry `part` of a SEARCH, with the question tokens when RERANK
  follows (spec/13 R316). -/
  | search (rid part ctx desc nprobe k refine : Nat) (qvec filter : Bytes) (tokens : Option Bytes)
  /-- The status and the records of that entry; none when the receiver of the SEARCH keeps them for RERANK. -/
  | searched (rid part status metric : Nat) (recs : Bytes)
  /-- Re-rank the receiver's result of entry `part` with a cascade and its directory (spec/13 R318). -/
  | rerank (rid part ctx : Nat) (cascade : Bytes) (directory slots : Nat)
  /-- The list that a cascade yields. -/
  | reranked (rid part status : Nat) (recs : Bytes)
  /-- A request or child segment takes, or gives up, a reference of a prefix record (spec/13 R320, R329). -/
  | prefixRef (addr : Nat) (add : Bool)
  /-- Retire a prefix record for a command of the sender (spec/13 R329). -/
  | prefixRetire (cmd addr : Nat)
  /-- The status code of that command. -/
  | prefixRetired (cmd status : Nat)
  /-- Publish a prefix record: its START and its page list (spec/13 R328). -/
  | prefixPublish (addr start : Nat) (pages : Bytes)
  /-- KV pages of the receiver's pools, by local address, that the sender frees (spec/13 R329). -/
  | kvFree (addrs : List Nat)
  deriving DecidableEq, Repr

/-- A ferry frame: the header of spec/16 Table 16-5 and its payload, with the source MAC address it came from, and of a
PURSER frame what its payload says to the firmware. -/
structure FFrame where
  typ : FType := .data
  vc : Nat := 0
  resync : Bool := false
  last : Bool := false
  ctx : Nat := 0
  src : Nat := 0
  dst : Nat := 0
  seq : BitVec 24 := 0
  ack : Option (BitVec 24) := none
  gen : BitVec 16 := 0
  op : Nat := 0
  credit : Option (Nat × BitVec 32) := none
  tag : BitVec 32 := 0
  addr : Nat := 0
  offset : Nat := 0
  arg : Nat := 0
  payload : Bytes := []
  grants : Option (List Nat) := none
  mac : BitVec 48 := 0
  msg : Option PurserMsg := none
  deriving DecidableEq, Repr

/-- A management host: IPv6 address, UDP port, source MAC address (spec/17 R433). -/
structure ImgHost where
  addr : BitVec 128
  port : Nat
  mac : BitVec 48
  deriving DecidableEq, Repr

/-- A datagram on the management port: its sender, its hop limit, its destination address and port, its bytes. -/
structure Datagram where
  host : ImgHost
  hops : Nat
  dst : BitVec 128
  port : Nat
  bytes : Bytes
  deriving DecidableEq, Repr

/-- Where an image protocol message came from: the management port, or port 15, where the steward relays it or sends
from its bundle cache. -/
inductive ImgVia where
  | port (h : ImgHost)
  | ferry (cached : Bool)
  deriving DecidableEq, Repr

/-- What decides whether a trip may be left (spec/19 R479): junction, HBM and outlet in °C, input in 10 mV. -/
structure TripLevels where
  junction : Nat
  hbm : Nat
  outlet : Nat
  vin : Nat
  deriving DecidableEq, Repr

/-- The functions of spec/15 Table 15-8 whose disabling finishes by a row of its own; a slip queue's ends with its write. -/
inductive DisableFn where
  | mailbox (m : Nat)
  | context (c : Nat)
  /-- The shard in a writer slot of a slice. -/
  | shard (slice slot : Nat)
  | table (t : Nat)
  | tokenizer (slot : Nat)
  deriving DecidableEq, Repr

/-- The commands. Numbers of engines, cores and so on count over the module. -/
inductive Instr where
  /-- REGISTER_WRITE (R14): a write of `value` at `addr` by `agent`. -/
  | registerWrite (agent : Agent) (addr : Nat) (value : W64)
  /-- BAD_ACCESS (R13): the address, and whether the access is a write. -/
  | badAccess (addr : Nat) (isWrite : Bool)
  /-- MGMT_LINK_DOWN (R35). -/
  | mgmtLinkDown
  /-- VOLTAGE_CONTROL_STEP (R43): `pIn` is the input power sampled, in watts. -/
  | voltageControlStep (pIn : Nat)
  /-- RATE_WINDOW_END (R49): what each rate monitor counted, in monitor order. -/
  | rateWindowEnd (readings : List RateReading)
  /-- PWR_RATE_MIN_READ (R52): the register of deck `d` is read. -/
  | pwrRateMinRead (d : Nat)
  /-- SENSOR_SAMPLE (R490): the readings. -/
  | sensorSample (r : SensorReadings)
  /-- ENGINE_COMMAND_OFFER (R120): the 64 command bytes. -/
  | engineCommandOffer (e : Eng) (cmd : Bytes)
  /-- TAMP (R91). -/
  | tamp (core ctx : Nat)
  /-- TAMP_START (R92). -/
  | tampStart (core ctx : Nat)
  /-- TAMP_LOAD_DONE (R91). -/
  | tampLoadDone (core : Nat)
  /-- PASS (R95). -/
  | pass (core ctx : Nat)
  /-- PASS_START (R95). -/
  | passStart (core ctx : Nat)
  /-- PASS_LAST_ROW_ENTERED (R89). -/
  | passLastRowEntered (core : Nat)
  /-- BANK_FREE_HANDSHAKE (R89). -/
  | bankFreeHandshake (core array bank : Nat)
  /-- PASS_COMPLETE (R107). -/
  | passComplete (core : Nat)
  /-- EPI (R99): `wrote` rows of the PASSes that own entries, from the oldest on, have their results written by the beat in
  which it would start (R87). -/
  | epi (core ctx wrote : Nat)
  /-- EPI_COMPLETE (R107). -/
  | epiComplete (core : Nat)
  /-- MAP_INSTALL (R115). -/
  | mapInstall (core ctx : Nat)
  /-- MAP_CLOSE (R115). -/
  | mapClose (core ctx : Nat)
  /-- CTX_HALT_CLEAR (R101). -/
  | ctxHaltClear (e : Eng) (ctx : Nat)
  /-- ROUTE (R131). -/
  | route (router ctx : Nat)
  /-- DISPATCH (R138). -/
  | dispatch (router ctx : Nat)
  /-- DISPATCH_NOTIFY (R139): an expert of a context's DISPATCH whose rows are all written. -/
  | dispatchNotify (router ctx expert : Nat)
  /-- COMBINE (R141). -/
  | combine (router ctx : Nat)
  /-- MOVE (R172). -/
  | move (barge ctx : Nat)
  /-- PIN (R178). -/
  | pin (barge ctx : Nat)
  /-- UNPIN (R179). -/
  | unpin (barge ctx : Nat)
  /-- SCHEDULE (R168). -/
  | schedule (barge ctx : Nat)
  /-- ADVANCE (R168). -/
  | advance (barge ctx : Nat)
  /-- FETCH_SLICE (R169). -/
  | fetchSlice (barge ctx : Nat)
  /-- RESIDENCY_EPOCH_TICK (R165): the deck whose PERIOD_US has passed. -/
  | residencyEpochTick (deck : Nat)
  /-- BACKGROUND_UNIT (R363): whether 72,000 beats have passed without one, and what the unit finds. -/
  | backgroundUnit (e : Eng) (forced : Bool) (f : Finding)
  /-- COLLECTIVE (R423). -/
  | collective (barge ctx : Nat)
  /-- COLL_READY_REPEAT (R423). -/
  | collReadyRepeat (barge ctx : Nat)
  /-- COLLECTIVE_TIMEOUT (R424). -/
  | collectiveTimeout (barge ctx : Nat)
  /-- PUSH (R203). -/
  | push (ctx : Nat)
  /-- GRANT (R200). -/
  | grant (ctx : Nat)
  /-- TAKE (R198). -/
  | take (ctx : Nat)
  /-- DROP_REST (R198). -/
  | dropRest (ctx : Nat)
  /-- MARK (R198). -/
  | mark (ctx : Nat)
  /-- REWIND (R198). -/
  | rewind (ctx : Nat)
  /-- RELEASE (R199). -/
  | release (ctx : Nat)
  /-- SLIP_RESERVE (R191): `len` words for the command at the head of a context's queue on a producing engine. -/
  | slipReserve (queue : Nat) (e : Eng) (ctx len : Nat)
  /-- SLIP_COMMIT (R194, R196): the producer has written these words at the position, and commits them. -/
  | slipCommit (queue pos : Nat) (words : Bytes)
  /-- SLIP_REWIND (R195). -/
  | slipRewind (queue pos : Nat)
  /-- SLP_QUEUE_ENABLE (R206). -/
  | slpQueueEnable (queue : Nat) (value : W64)
  /-- SLP_QUEUE_DISABLE (R206). -/
  | slpQueueDisable (queue : Nat) (value : W64)
  /-- QUERY (R214). -/
  | query (k ctx : Nat)
  /-- QUERY_ADMIT (R215): slice, and the context whose command waits. -/
  | queryAdmit (k ctx : Nat)
  /-- PCL_HEAD_UNIT (R217): slice, query context, stream. -/
  | pclHeadUnit (k q stream : Nat)
  /-- PCL_BLOCK_UNIT (R217): slice, query context, stream. -/
  | pclBlockUnit (k q stream : Nat)
  /-- PCL_REFINE_UNIT (R219): slice, query context. -/
  | pclRefineUnit (k q : Nat)
  /-- QUERY_RESULT_WRITE (R223): slice, query context. -/
  | queryResultWrite (k q : Nat)
  /-- PCL_ATTACH (R240). -/
  | pclAttach (k ctx : Nat)
  /-- PCL_DETACH (R241). -/
  | pclDetach (k ctx : Nat)
  /-- COMPACT (R235). -/
  | compact (k ctx : Nat)
  /-- UPDATE_PACKET_APPLY (R229): slice, writer slot. -/
  | updatePacketApply (k slot : Nat)
  /-- COMPACTION_PIECE (R235): slice, writer slot. -/
  | compactionPiece (k slot : Nat)
  /-- COMPACTION_RETIRE (R235): slice, writer slot. -/
  | compactionRetire (k slot : Nat)
  /-- TOPK (R253). -/
  | topk (unit ctx : Nat)
  /-- SORT (R253). -/
  | sort (unit ctx : Nat)
  /-- MERGE (R254). -/
  | merge (unit ctx : Nat)
  /-- UNIQUE_COUNT (R253). -/
  | uniqueCount (unit ctx : Nat)
  /-- FILTER_COMPACT (R253). -/
  | filterCompact (unit ctx : Nat)
  /-- GATHER (R269). -/
  | gather (e ctx : Nat)
  /-- APPLY (R271). -/
  | apply (e ctx : Nat)
  /-- PREFETCH (R274). -/
  | prefetch (e ctx : Nat)
  /-- GTH_ATTACH (R267). -/
  | gthAttach (e ctx : Nat)
  /-- GTH_DETACH (R267). -/
  | gthDetach (e ctx : Nat)
  /-- MIGRATE (R278): it starts, or where it waits for requests at the target, asks whether they have ended. -/
  | migrate (e ctx : Nat)
  /-- ROW_REQUEST_SERVE (R277): engine, and the number of the row request it has received. -/
  | rowRequestServe (e rid : Nat)
  /-- ROW_UPDATE_APPLY (R273): engine, and the number of the row update it has received. -/
  | rowUpdateApply (e rid : Nat)
  /-- LOAD_EPOCH_STEP (R275). -/
  | loadEpochStep
  /-- HOT_ROW_BALANCE (R280): the loads of the table's shards, and the hot rows of the busiest: index, hits, whether migrated. -/
  | hotRowBalance (t : Nat) (loads : List Nat) (hot : List (Nat × Nat × Bool))
  /-- TOKENIZE (R298): the context's command starts, or the next unit runs of the one with this number (R299). -/
  | tokenize (ctx : Nat) (run : Option Nat)
  /-- LOAD (R290). -/
  | load (ctx : Nat)
  /-- UNLOAD (R291). -/
  | unload (ctx : Nat)
  /-- EMBED (R314): request, and the buffer the purser gives the stage. -/
  | embed (rid buf : Nat)
  /-- SEARCH (R316): request, the buffers the purser gives the shards, and the sort/select unit that merges. -/
  | search (rid : Nat) (bufs : List Nat) (u : Nat)
  /-- RERANK (R318): request, the buffers the purser gives, and the sort/select unit that merges. -/
  | rerank (rid : Nat) (bufs : List Nat) (u : Nat)
  /-- PACK (R321): request, buffer, and what the peers answer about segments and passages. -/
  | pack (rid buf : Nat)
  /-- PREFILL (R326): request, the KV pages each module grants, and the peer's answer about a prefix segment. -/
  | prefill (rid buf : Nat)
  /-- PREFILL_LAYER (R327): request, and the peer's answer about a prefix segment. -/
  | prefillLayer (rid buf : Nat)
  /-- DECODE (R330). -/
  | decode (rid : Nat)
  /-- POUR (R334). -/
  | pour (rid : Nat)
  /-- CANCEL (R340): the number of the command in hand. -/
  | cancel (id : Nat)
  /-- PREFIX_RETIRE (R329): the number of the command in hand. -/
  | prefixRetire (id : Nat)
  /-- STAGE_START (R313): request, stage opcode. -/
  | stageStart (rid op : Nat)
  /-- STAGE_COMPLETE (R384): request, stage opcode. -/
  | stageComplete (rid op : Nat)
  /-- DECODE_STEP (R330): model slot, whether the step only samples or also runs forward, and the pages granted. -/
  | decodeStep (model : Nat) (forward : Bool) (buf : Nat)
  /-- SEQUENCER_TOKEN (R339). -/
  | sequencerToken (rid : Nat)
  /-- SEQUENCER_CANCEL (R339). -/
  | sequencerCancel (rid : Nat)
  /-- SEQUENCER_ERROR (R339). -/
  | sequencerError (rid : Nat)
  /-- RING_RECORD_WRITE (R336). -/
  | ringRecordWrite (rid : Nat)
  /-- BUDGET_REFILL (R342). -/
  | budgetRefill
  /-- BUDGET_PERIOD_WRITE (R342). -/
  | budgetPeriodWrite (agent : Agent) (v : W64)
  /-- CONTEXT_ENABLE (R347). -/
  | contextEnable (agent : Agent) (c : Nat) (v : W64)
  /-- CONTEXT_DISABLE (R348). -/
  | contextDisable (agent : Agent) (c : Nat) (v : W64)
  /-- QUERY_CTX_WRITE (R349): partition, value. -/
  | queryCtxWrite (agent : Agent) (p : Nat) (v : W64)
  /-- BUCKET_ENABLE (R360): partition, bucket, value. -/
  | bucketEnable (agent : Agent) (p k : Nat) (v : W64)
  /-- BUCKET_PIECE_ADMIT (R360): partition, bucket, and the bytes of a piece that arrives; none: the first that waits. -/
  | bucketPieceAdmit (p k : Nat) (piece : Option Nat)
  /-- MAILBOX_OPEN (R371). -/
  | mailboxOpen (agent : Agent) (m revMin revMax : Nat)
  /-- MAILBOX_OPEN_RESOLVE (R371). -/
  | mailboxOpenResolve (m : Nat)
  /-- MAILBOX_CLOSE (R391). -/
  | mailboxClose (agent : Agent) (m : Nat)
  /-- MB_DOORBELL (R368). -/
  | mbDoorbell (agent : Agent) (m : Nat) (v : W64)
  /-- MB_CPL_TAIL_WRITE (R369). -/
  | mbCplTailWrite (agent : Agent) (m : Nat) (v : W64)
  /-- DESCRIPTOR_TAKE (R372). -/
  | descriptorTake (m : Nat)
  /-- COMPLETION_WRITE (R369). -/
  | completionWrite (m : Nat)
  /-- PROGRESS_WRITE (R378): mailbox, and the number of the command in hand. -/
  | progressWrite (m id : Nat)
  /-- NOP (R379): the number of the command in hand. -/
  | nop (id : Nat)
  /-- RESET_WARM (R457): the number of the command in hand. -/
  | resetWarm (id : Nat)
  /-- RESET_PARTITION (R456): the number of the command in hand. -/
  | resetPartition (id : Nat)
  /-- RESET_ENGINE (R455): the number of the command in hand. -/
  | resetEngine (id : Nat)
  /-- MOOR (R480): the number of the command in hand. -/
  | moor (id : Nat)
  /-- ATTEST (R449): the number of the command in hand. -/
  | attest (id : Nat)
  /-- ENQUEUE (R380): the number of the command in hand. -/
  | enqueue (id : Nat)
  /-- ENQUEUE_OFFER (R380): the number of the command in hand. -/
  | enqueueOffer (id : Nat)
  /-- DISABLE_FINISH (R390). -/
  | disableFinish (f : DisableFn)
  /-- PORT_ENABLE (R394). -/
  | portEnable (agent : Agent) (p : Nat) (v : W64)
  /-- PORT_DISABLE (R394). -/
  | portDisable (agent : Agent) (p : Nat) (v : W64)
  /-- PORT_LINK_UP (R406). -/
  | portLinkUp (p : Nat)
  /-- PORT_LINK_DOWN (R410). -/
  | portLinkDown (p : Nat)
  /-- OPTICAL_CALIBRATION (R363): whether the calibration opens or closes. -/
  | opticalCalibration (p : Nat) (opens : Bool)
  /-- CLIENT_RING_WRITE (R395): receive or transmit ring. -/
  | clientRingWrite (agent : Agent) (p : Nat) (rx : Bool) (v : W64)
  /-- CLIENT_RX_TAIL_WRITE (R395). -/
  | clientRxTailWrite (agent : Agent) (p : Nat) (v : W64)
  /-- CLIENT_TX_TAIL_WRITE (R395). -/
  | clientTxTailWrite (agent : Agent) (p : Nat) (v : W64)
  /-- CLIENT_FRAME_RECEIVE (R396): the frame with its FCS. -/
  | clientFrameReceive (p : Nat) (bytes : Bytes)
  /-- CLIENT_FRAME_TRANSMIT (R397). -/
  | clientFrameTransmit (p : Nat)
  /-- HELLO_SEND (R400). -/
  | helloSend
  /-- BERTH_SET (R400). -/
  | berthSet (agent : Agent) (v : W64)
  /-- FERRY_HELLO_RECEIVE (R400). -/
  | ferryHelloReceive (p : Nat) (f : FFrame)
  /-- FERRY_SYNC_RECEIVE (R406). -/
  | ferrySyncReceive (p : Nat) (f : FFrame)
  /-- FERRY_SYNC_ACK_RECEIVE (R406). -/
  | ferrySyncAckReceive (p : Nat) (f : FFrame)
  /-- SYNC_RESEND (R406): port, module. -/
  | syncResend (p x : Nat)
  /-- FERRY_CONTROL_RECEIVE (R408). -/
  | ferryControlReceive (p : Nat) (f : FFrame)
  /-- FERRY_NACK_RECEIVE (R409). -/
  | ferryNackReceive (p : Nat) (f : FFrame)
  /-- ACK_TIMER (R408): port, module. -/
  | ackTimer (p x : Nat)
  /-- RETRANSMIT_TIMEOUT (R409): port, module. -/
  | retransmitTimeout (p x : Nat)
  /-- FERRY_FRAME_SEND (R415): port, module, virtual channel. -/
  | ferryFrameSend (p x vc : Nat)
  /-- FERRY_WRITE (R418). -/
  | ferryWrite (p : Nat) (f : FFrame)
  /-- FERRY_WRITE_ACK (R180). -/
  | ferryWriteAck (p : Nat) (f : FFrame)
  /-- FERRY_READ_REQ (R418). -/
  | ferryReadReq (p : Nat) (f : FFrame)
  /-- FERRY_READ_RESP (R180). -/
  | ferryReadResp (p : Nat) (f : FFrame)
  /-- FERRY_PUSH (R419). -/
  | ferryPush (p : Nat) (f : FFrame)
  /-- FERRY_PUSH_DONE (R419). -/
  | ferryPushDone (p : Nat) (f : FFrame)
  /-- SLIP_CREDIT (R420). -/
  | slipCredit (p : Nat) (f : FFrame)
  /-- COLL (R423). -/
  | coll (p : Nat) (f : FFrame)
  /-- COLL_READY (R423). -/
  | collReady (p : Nat) (f : FFrame)
  /-- FERRY_STATUS (R403). -/
  | ferryStatus (p : Nat) (f : FFrame)
  /-- FERRY_ROW (R417). -/
  | ferryRow (p : Nat) (f : FFrame)
  /-- FERRY_PURSER (R417): `buf` is a buffer of the purser. -/
  | ferryPurser (p : Nat) (f : FFrame) (buf : Nat)
  /-- FERRY_MGMT (R436): `cached` says the steward sends from its bundle cache; `bad` that a staging read met an uncorrectable word. -/
  | ferryMgmt (p : Nat) (f : FFrame) (cached : Bool) (bad : Option Nat)
  /-- PPS_EDGE (R426). -/
  | ppsEdge
  /-- BOOT_START (R430): the slot straps. -/
  | bootStart (straps : BitVec 6)
  /-- SOLICIT (R430). -/
  | solicit
  /-- OFFER (R435). -/
  | offer (d : Datagram)
  /-- BLOCK (R435): `bad` says that a staging read met an uncorrectable word. -/
  | block (d : Datagram) (bad : Option Nat)
  /-- IMAGE_STATE_SEND (R435). -/
  | imageStateSend
  /-- SESSION_ABANDON (R435). -/
  | sessionAbandon
  /-- IMAGE_DONE_SEND (R435). -/
  | imageDoneSend
  /-- IMAGE_MESSAGE_RELAY (R436): a host's datagram; none: the oldest message kept from a member. -/
  | imageMessageRelay (d : Option Datagram)
  /-- MGMT_REQ (R437). -/
  | mgmtReq (d : Datagram)
  /-- SVN_FLOOR_RAISE (R443). -/
  | svnFloorRaise (agent : Agent) (v : W64)
  /-- OWNER_HASH_PROGRAM (R444). -/
  | ownerHashProgram (agent : Agent) (v : W64)
  /-- MEASUREMENT_EXTEND (R446). -/
  | measurementExtend (agent : Agent) (v : W64)
  /-- EVT_TAIL_WRITE (R465). -/
  | evtTailWrite (agent : Agent) (v : W64)
  /-- EVT_DROPS_READ (R467). -/
  | evtDropsRead
  /-- POWER_ON (R475). -/
  | powerOn
  /-- POWER_DOWN (R471). -/
  | powerDown
  /-- MODULE_RESET (R476): the readings when RESET_N rises. -/
  | moduleReset (l : TripLevels)
  /-- TRIP (R479). -/
  | trip (c : TripCause)
  /-- MOOR_REQ_CHANGE (R480): the filtered level of MOOR_REQ. -/
  | moorReqChange (low : Bool)
  /-- MOOR_WAKE_WRITE (R480). -/
  | moorWakeWrite (agent : Agent) (v : W64)
  /-- MOOR_ENTRY (R481). -/
  | moorEntry
  /-- MOOR_DRAINED (R481). -/
  | moorDrained
  /-- MOOR_WAIT_EXPIRY (R482). -/
  | moorWaitExpiry
  /-- WAKE (R483). -/
  | wake
  /-- SMBUS_READ (R488): the command code. -/
  | smbusRead (cmd : Nat)
  /-- FERRY_FRAME_DISCARD (R412): the bytes that arrive, with their FCS. -/
  | ferryFrameDiscard (p : Nat) (bytes : Bytes)
  /-- MGMT_LINK_UP (R35). -/
  | mgmtLinkUp
  /-- MGMT_CAGE_CHANGE (R35): whether the cage holds a module now. -/
  | mgmtCageChange (present : Bool)
  /-- PATH_TABLE_WRITE (R406). -/
  | pathTableWrite (agent : Agent) (x : Nat) (v : W64)
  /-- WHEELHOUSE_STORE (R432): the bytes the hart stores. -/
  | wheelhouseStore (hart addr : Nat) (bytes : Bytes)
  deriving DecidableEq, Repr

end Sys2Proof
end

