-- ==== Sys2Proof/WellFormed.lean ====
section
/-! DEFINITION. Well-formed commands: every number in the range the spec gives what it counts. -/

namespace Sys2Proof

/-- The module has 32 wheelhouse harts (spec/01 R25). -/
def agentOk : Agent → Bool
  | .hart h _ => h < 32
  | _ => true

/-- How many engines of a kind the module has (spec/15 Table 15-4). -/
def engCount : EngKind → Nat
  | .core => 128 | .barge => 32 | .gather => 16 | .slice => 16 | .ssu => 16 | .router => 16 | .grinder => 1
  | .slipManager => 1

/-- An engine of the module. -/
def engOk (e : Eng) : Bool := e.index < engCount e.kind

/-- The fields of a frame's header fit their widths (spec/16 Table 16-5). -/
def frameOk (f : FFrame) : Bool := f.src < 4096 && f.dst < 4096 && f.ctx < 128 && f.vc < 8

/-- A datagram's hop limit is one byte. -/
def datagramOk (d : Datagram) : Bool := d.hops < 256 && d.port < 65536 && d.host.port < 65536

/-- A function that a disabling row can name (spec/15 Table 15-8). -/
def disableOk : DisableFn → Bool
  | .mailbox m => m < 64
  | .context c => c < 128
  | .shard k w => k < 16 && w < 4
  | .table t => t < 64
  | .tokenizer w => w < 8

/-- A piece of a regulated transfer (spec/14 R359). -/
def pieceOk (n : Nat) : Bool := 1 ≤ n && n ≤ 4096

/-- A 48-bit address (spec/00 R11). -/
def inSpace (a : Nat) : Bool := a < 2 ^ 48

/-- Control space (spec/00 Table 0-4). -/
def inControl (a : Nat) : Bool := 0xF00000000000 ≤ a && a < 0xF00050000000

/-- A command is well-formed. -/
def Instr.wf : Instr → Bool
  | .registerWrite agent addr _ => agentOk agent && addr % 8 = 0 && inControl addr
  | .badAccess addr _ => inSpace addr
  | .mgmtLinkDown => true
  | .voltageControlStep _ => true
  | .rateWindowEnd readings => readings.length = 16
  | .pwrRateMinRead d => d < 4
  | .sensorSample r => r.hbm.length = 16
  | .engineCommandOffer e cmd => engOk e && cmd.length = 64
  | .tamp core ctx => core < 128 && ctx < 128
  | .tampStart core ctx => core < 128 && ctx < 128
  | .tampLoadDone core => core < 128
  | .pass core ctx => core < 128 && ctx < 128
  | .passStart core ctx => core < 128 && ctx < 128
  | .passLastRowEntered core => core < 128
  | .bankFreeHandshake core array bank => core < 128 && array < 4 && bank < 2
  | .passComplete core => core < 128
  | .epi core ctx _ => core < 128 && ctx < 128
  | .epiComplete core => core < 128
  | .mapInstall core ctx => core < 128 && ctx < 128
  | .mapClose core ctx => core < 128 && ctx < 128
  | .ctxHaltClear e ctx => engOk e && ctx < 128
  | .route router ctx => router < 16 && ctx < 128
  | .dispatch router ctx => router < 16 && ctx < 128
  | .dispatchNotify router ctx _ => router < 16 && ctx < 128
  | .combine router ctx => router < 16 && ctx < 128
  | .move barge ctx => barge < 32 && ctx < 128
  | .pin barge ctx => barge < 32 && ctx < 128
  | .unpin barge ctx => barge < 32 && ctx < 128
  | .schedule barge ctx => barge < 32 && ctx < 128
  | .advance barge ctx => barge < 32 && ctx < 128
  | .fetchSlice barge ctx => barge < 32 && ctx < 128
  | .residencyEpochTick deck => deck < 4
  | .backgroundUnit e _ _ => engOk e
  | .collective barge ctx => barge < 32 && ctx < 128
  | .collReadyRepeat barge ctx => barge < 32 && ctx < 128
  | .collectiveTimeout barge ctx => barge < 32 && ctx < 128
  | .push ctx => ctx < 128
  | .grant ctx => ctx < 128
  | .take ctx => ctx < 128
  | .dropRest ctx => ctx < 128
  | .mark ctx => ctx < 128
  | .rewind ctx => ctx < 128
  | .release ctx => ctx < 128
  | .slipReserve queue e ctx _ => queue < 65536 && engOk e && ctx < 128
  | .slipCommit queue _ ws => queue < 65536 && ws.length % 32 = 0
  | .slipRewind queue _ => queue < 65536
  | .slpQueueEnable queue _ => queue < 65536
  | .slpQueueDisable queue _ => queue < 65536
  | .query k ctx => k < 16 && ctx < 128
  | .queryAdmit k ctx => k < 16 && ctx < 128
  | .pclHeadUnit k q stream => k < 16 && q < 1024 && stream < 4
  | .pclBlockUnit k q stream => k < 16 && q < 1024 && stream < 4
  | .pclRefineUnit k q => k < 16 && q < 1024
  | .queryResultWrite k q => k < 16 && q < 1024
  | .pclAttach k ctx => k < 16 && ctx < 128
  | .pclDetach k ctx => k < 16 && ctx < 128
  | .compact k ctx => k < 16 && ctx < 128
  | .updatePacketApply k slot => k < 16 && slot < 4
  | .compactionPiece k slot => k < 16 && slot < 4
  | .compactionRetire k slot => k < 16 && slot < 4
  | .topk unit ctx => unit < 16 && ctx < 128
  | .sort unit ctx => unit < 16 && ctx < 128
  | .merge unit ctx => unit < 16 && ctx < 128
  | .uniqueCount unit ctx => unit < 16 && ctx < 128
  | .filterCompact unit ctx => unit < 16 && ctx < 128
  | .gather e ctx => e < 16 && ctx < 128
  | .apply e ctx => e < 16 && ctx < 128
  | .prefetch e ctx => e < 16 && ctx < 128
  | .gthAttach e ctx => e < 16 && ctx < 128
  | .gthDetach e ctx => e < 16 && ctx < 128
  | .migrate e ctx => e < 16 && ctx < 128
  | .rowRequestServe e _ => e < 16
  | .rowUpdateApply e _ => e < 16
  | .loadEpochStep => true
  | .hotRowBalance t _ _ => t < 64
  | .tokenize ctx _ => ctx < 128
  | .load ctx => ctx < 128
  | .unload ctx => ctx < 128
  | .embed _ _ => true
  | .search _ _ u => u < 16
  | .rerank _ _ u => u < 16
  | .pack _ _ => true
  | .prefill _ _ => true
  | .prefillLayer _ _ => true
  | .decode _ => true
  | .pour _ => true
  | .cancel _ => true
  | .prefixRetire _ => true
  | .stageStart _ _ => true
  | .stageComplete _ _ => true
  | .decodeStep _ _ _ => true
  | .sequencerToken _ => true
  | .sequencerCancel _ => true
  | .sequencerError _ => true
  | .ringRecordWrite _ => true
  | .budgetRefill => true
  | .budgetPeriodWrite agent _ => agentOk agent
  | .contextEnable agent c _ => agentOk agent && c < 128
  | .contextDisable agent c _ => agentOk agent && c < 128
  | .queryCtxWrite agent p _ => agentOk agent && p < 16
  | .bucketEnable agent p k _ => agentOk agent && p < 16 && k < 9
  | .bucketPieceAdmit p k piece => p < 16 && k < 9 && piece.all pieceOk
  | .mailboxOpen agent m _ _ => agentOk agent && m < 64
  | .mailboxOpenResolve m => m < 64
  | .mailboxClose agent m => agentOk agent && m < 64
  | .mbDoorbell agent m _ => agentOk agent && m < 64
  | .mbCplTailWrite agent m _ => agentOk agent && m < 64
  | .descriptorTake m => m < 64
  | .completionWrite m => m < 64
  | .progressWrite m _ => m < 64
  | .nop _ => true
  | .resetWarm _ => true
  | .resetPartition _ => true
  | .resetEngine _ => true
  | .moor _ => true
  | .attest _ => true
  | .enqueue _ => true
  | .enqueueOffer _ => true
  | .disableFinish f => disableOk f
  | .portEnable agent p _ => agentOk agent && p < 16
  | .portDisable agent p _ => agentOk agent && p < 16
  | .portLinkUp p => p < 16
  | .portLinkDown p => p < 16
  | .opticalCalibration p _ => p < 16
  | .clientRingWrite agent p _ _ => agentOk agent && p < 16
  | .clientRxTailWrite agent p _ => agentOk agent && p < 16
  | .clientTxTailWrite agent p _ => agentOk agent && p < 16
  | .clientFrameReceive p _ => p < 16
  | .clientFrameTransmit p => p < 16
  | .helloSend => true
  | .berthSet agent _ => agentOk agent
  | .ferryHelloReceive p f => p < 16 && frameOk f
  | .ferrySyncReceive p f => p < 16 && frameOk f
  | .ferrySyncAckReceive p f => p < 16 && frameOk f
  | .syncResend p x => p < 16 && x < 4096
  | .ferryControlReceive p f => p < 16 && frameOk f
  | .ferryNackReceive p f => p < 16 && frameOk f
  | .ackTimer p x => p < 16 && x < 4096
  | .retransmitTimeout p x => p < 16 && x < 4096
  | .ferryFrameSend p x vc => p < 16 && x < 4096 && vc < 8
  | .ferryWrite p f => p < 16 && frameOk f
  | .ferryWriteAck p f => p < 16 && frameOk f
  | .ferryReadReq p f => p < 16 && frameOk f
  | .ferryReadResp p f => p < 16 && frameOk f
  | .ferryPush p f => p < 16 && frameOk f
  | .ferryPushDone p f => p < 16 && frameOk f
  | .slipCredit p f => p < 16 && frameOk f
  | .coll p f => p < 16 && frameOk f
  | .collReady p f => p < 16 && frameOk f
  | .ferryStatus p f => p < 16 && frameOk f
  | .ferryRow p f => p < 16 && frameOk f
  | .ferryPurser p f _ => p < 16 && frameOk f
  | .ferryMgmt p f _ _ => p < 16 && frameOk f
  | .ppsEdge => true
  | .bootStart _ => true
  | .solicit => true
  | .offer d => datagramOk d
  | .block d _ => datagramOk d
  | .imageStateSend => true
  | .sessionAbandon => true
  | .imageDoneSend => true
  | .imageMessageRelay d => d.all datagramOk
  | .mgmtReq d => datagramOk d
  | .svnFloorRaise agent _ => agentOk agent
  | .ownerHashProgram agent _ => agentOk agent
  | .measurementExtend agent _ => agentOk agent
  | .evtTailWrite agent _ => agentOk agent
  | .evtDropsRead => true
  | .powerOn => true
  | .powerDown => true
  | .moduleReset _ => true
  | .trip _ => true
  | .moorReqChange _ => true
  | .moorWakeWrite agent _ => agentOk agent
  | .moorEntry => true
  | .moorDrained => true
  | .moorWaitExpiry => true
  | .wake => true
  | .smbusRead _ => true
  | .ferryFrameDiscard p _ => p < 16
  | .mgmtLinkUp => true
  | .mgmtCageChange _ => true
  | .pathTableWrite agent x _ => agentOk agent && x < 4096
  | .wheelhouseStore hart addr _ => hart < 32 && inSpace addr

end Sys2Proof
end

