-- ==== Sys2Proof/Config.lean ====
section
/-! DEFINITION. What one module has fixed in it, and the values the spec leaves open. Every constant here is opaque:
no proof can learn its value. -/

namespace Sys2Proof.Config

/-- A value the spec leaves open, number `n` of the run; the state counts them (log 3). -/
opaque free : Nat → Nat

/-- The bytes in which the purser firmware spells a message (spec/16 R417, Table 16-7: defined by the firmware). -/
opaque purserBytes : PurserMsg → List Byte

/-- The MAC address assigned to the management port at manufacture, but for the two bits that R35 fixes. -/
opaque macFuses : BitVec 48

/-- HUB_MGMT_MAC: an individual, globally administered address, so bits 40 and 41 are 0 (spec/01 R35). -/
def mgmtMac : BitVec 48 := macFuses &&& 0xFCFFFFFFFFFF

/-- The on-die random source (spec/13 R332, R333): its value at a draw, from what SEEDs have been mixed into it. -/
opaque random : Nat → Nat → Nat

/-- A SEED is mixed into the random source (spec/13 R333). -/
opaque mixSeed : Nat → Nat → Nat

/-- The fused serial number (spec/17 R443, R447; spec/19 R488). -/
opaque serial : BitVec 128

/-- The fused vendor root key hash (spec/17 R442). -/
opaque rootHash : BitVec 512

/-- The fused certificate area of 4096 bytes (spec/17 R451). -/
opaque certificate : Nat → Byte

/-- The digest of the boot ROM that measurement slot 0 receives (spec/17 R445). -/
opaque romDigest : BitVec 512

/-- The signature the identity key makes over a report (spec/17 R450); the key is not readable. -/
opaque identitySign : List Byte → List Byte → Nat → Byte

/-- Which of harts 1 to 31 are out of reset at a time while hart 0 runs: the spec names no event that starts them
(spec/01 R35). -/
opaque otherHarts : W64 → Nat → BitVec 32

/-- What an accumulator entry holds while the spec calls it undefined: generation and entry number (spec/18 Table 18-2). -/
opaque accUndefined : Nat → Nat → BitVec 32

/-- The element codes of an MX block whose scale is NaN, by place in the block: the spec gives only the scale
(spec/03 R62). -/
opaque nanBlockCode : Nat → Nat

/-- The vector unit's exp, log, tanh, sigmoid, reciprocal, rsqrt: bounded, not given exactly (spec/03 R79). -/
opaque vecExp : BitVec 32 → BitVec 32
/-- See `vecExp`. -/
opaque vecLog : BitVec 32 → BitVec 32
/-- See `vecExp`. -/
opaque vecTanh : BitVec 32 → BitVec 32
/-- See `vecExp`. -/
opaque vecSigmoid : BitVec 32 → BitVec 32
/-- See `vecExp`. -/
opaque vecRecip : BitVec 32 → BitVec 32
/-- See `vecExp`. -/
opaque vecRsqrt : BitVec 32 → BitVec 32

/-- GELU in its erf form, GELU in its tanh form and SiLU, bounded only (spec/03 R79). -/
opaque vecGeluErf : BitVec 32 → BitVec 32
/-- See `vecGeluErf`. -/
opaque vecGeluTanh : BitVec 32 → BitVec 32
/-- See `vecGeluErf`. -/
opaque vecSilu : BitVec 32 → BitVec 32

/-- The query heads that share a KV head of a model, by its record, which does not give them (spec/06 R148, spec/13 R325). -/
opaque queryGroup : List Byte → Nat

/-- Softmax of a row at a column, bounded only (spec/03 R79). -/
opaque rowSoftmax : List (BitVec 32) → Nat → BitVec 32
/-- RMS norm of a row with its weights at a column. -/
opaque rowRms : List (BitVec 32) → List (BitVec 32) → Nat → BitVec 32
/-- Layer norm of a row with its weights and biases at a column. -/
opaque rowLayer : List (BitVec 32) → List (BitVec 32) → List (BitVec 32) → Nat → BitVec 32

end Sys2Proof.Config
end

