-- ==== Sys2Proof/Machine/State.lean ====
section
/-! DEFINITION. The state of the module: every register, queue, buffer and mode the spec gives it, as plain data.
Default field values are the values after reset; INVENTORY.md lists each with its rule. -/

namespace Sys2Proof.Machine

/-- Why the block stops with a fault. -/
inductive Fault where
  /-- REGISTER_WRITE names an address outside every block of spec/00 Table 0-4: no such register exists. Safe: the run
  stops where the spec describes nothing. -/
  | noSuchAddress
  deriving DecidableEq, Repr

/-- Why a command has no meaning here. -/
inductive Refusal where
  /-- A row of the table that has no meaning yet. Safe. -/
  | notModelled (mnemonic : String)
  deriving DecidableEq, Repr

/-- The status codes of spec/15 Table 15-7. -/
inductive Status where
  | ok | short | tieAtK | lateCancel | cancelled | disabled | abortedDisabled | mapOverflow | mapHazard
  | lengthExceeded | eccUncorrectable | linkLost | authFail | versionMismatch | internal
  deriving DecidableEq, Repr

/-- The event codes of spec/18 Table 18-7. -/
inductive EvtCode where
  | badAccess | protWrite | ringRefused | cmdFault | mapOverflow | enableFailed | eccUe | dataLost | rateLow | pinned
  | ppsBehind | pathLost | berthRefused | datagramDiscard | updateRejected | stepAbandoned | passageMissing | badToken
  | bootCheck | reset
  deriving DecidableEq, Repr

/-- One entry of the event log (spec/18 Table 18-6). -/
structure EvtEntry where
  seq : W64 := 0
  time : W64 := 0
  code : Option EvtCode := none
  scrub : Bool := false
  source : BitVec 16 := 0
  ctx : Option (BitVec 7) := none
  status : Status := .ok
  mapId : BitVec 16 := 0
  cmdSeq : BitVec 16 := 0
  detail : Bytes := []
  deriving DecidableEq, Repr

/-- The event log and the EVT block (spec/18 R462-R467); `buf` is the occupancy of the input buffer. -/
structure EvtSt where
  head : W64 := 0
  tail : W64 := 0
  drops : BitVec 32 := 0
  alertMask : BitVec 8 := 0x28
  alert : BitVec 8 := 0
  irqEn : Bool := false
  irqHart : BitVec 5 := 0
  log : Tab EvtEntry := []
  buf : Nat := 0
  deriving DecidableEq, Repr

/-- Where an interrupt to a hart comes from. -/
inductive IrqSource where
  | mailbox (m : Nat) | port (p : Nat) | eventLog | wake
  deriving DecidableEq, Repr

/-- Hub registers (spec/01 R35). `retained` are the harts to bring back from retention (spec/19 Table 19-6). -/
structure HubSt where
  time : W64 := 0
  lost : Bool := false
  cage : Bool := false
  fecLock : Bool := false
  link : Bool := false
  harts : BitVec 32 := 0
  retained : BitVec 32 := 0
  deriving DecidableEq, Repr

/-- One rate monitor (spec/02 Table 2-4). -/
structure Monitor where
  seq : BitVec 16 := 0
  tj : BitVec 8 := 0
  rate : BitVec 20 := 0
  deriving DecidableEq, Repr

/-- PWR_VSET_d (spec/02 Table 2-5). -/
structure VSet where
  limit : BitVec 8 := 0xFF
  mv : BitVec 10 := 0
  deriving DecidableEq, Repr

/-- PWR_DECK_CTL_d (spec/02 Table 2-7). -/
structure DeckCtl where
  vmax : BitVec 10 := 0x2BC
  tjCap : BitVec 8 := 0x69
  deriving DecidableEq, Repr

/-- STATE of PWR_MOOR_STATUS (spec/19 Table 19-13). -/
inductive MoorState where
  | running | entering | moored | waking
  deriving DecidableEq, Repr

/-- The power state behind SMBus STATE (spec/19 Tables 19-4, 19-10). -/
inductive PowerState where
  | off | moduleReset | on | tripped
  deriving DecidableEq, Repr

/-- The PWR block, the sensors, Moored and the pins (spec/02 R52, spec/19 R475-R490). -/
structure PwrSt where
  pcap : BitVec 12 := 0xC80
  rateLow : BitVec 4 := 0
  pinned : BitVec 4 := 0
  monitors : Tab Monitor := []
  rateMin : Tab (BitVec 20) := []
  vset : Tab VSet := []
  deckCtl : Tab DeckCtl := []
  beats : Tab W64 := []
  saved : Tab (BitVec 10) := []
  input : W64 := 0
  coolant : W64 := 0
  hbmTemp : Tab (BitVec 8) := []
  wakeHart : BitVec 5 := 0
  wakeIrqEn : Bool := false
  moorWait : BitVec 14 := 0x64
  moor : MoorState := .running
  latch : Bool := false
  refused : Bool := false
  moorReqLow : Bool := false
  entryByCommand : Option Nat := none
  power : PowerState := .moduleReset
  tripCauses : BitVec 6 := 0
  tripAlert : Bool := false
  thermTrip : Bool := false
  deriving DecidableEq, Repr

/-- A fault record (spec/04 Table 4-9). -/
structure FaultRec where
  valid : Bool := false
  opcode : BitVec 8 := 0
  ctx : BitVec 7 := 0
  resource : BitVec 8 := 0
  status : Status := .ok
  cmdSeq : BitVec 16 := 0
  deriving DecidableEq, Repr

/-- The facts a MAP_OVERFLOW event carries (spec/18 Table 18-7). -/
structure Overflow where
  resource : Nat := 0
  claimed : Nat := 0
  required : Nat := 0
  mapId : Nat := 0
  deriving DecidableEq, Repr

/-- A command on an engine queue: its 64 bytes, its sequence number, the ENQUEUE and list index that offered it, the
status a disable gave it (spec/15 R387, R388), whether its check at the head of the queue is done, the units it has run
while it stays there (spec/14 Table 14-2), and, of a DISPATCH, the slip queues disabled since it was accepted. -/
structure QCmd where
  bytes : Bytes := []
  seq : BitVec 16 := 0
  origin : Option (Nat × Nat) := none
  verdict : Option Status := none
  checked : Bool := false
  units : Nat := 0
  closed : List Nat := []
  deriving DecidableEq, Repr

/-- One context on one engine: HALT, the commands not yet started, and the next CMD_SEQ. -/
structure CtxQ where
  halt : Bool := false
  queue : List QCmd := []
  nextSeq : BitVec 16 := 0
  deriving DecidableEq, Repr

/-- Where a round robin stands (spec/14 R354). -/
structure RrPos where
  pass : Nat := 0
  ctx : Nat := 0
  deriving DecidableEq, Repr

/-- What every engine has: a fault record, its contexts' queues, and the round robins of its units. -/
structure EngineSt where
  fault : FaultRec := {}
  ctxs : Tab CtxQ := []
  rr : Tab RrPos := []
  deriving DecidableEq, Repr

/-- A memory window (spec/14 R351, Table 14-6). -/
structure Window where
  rd : Bool := false
  wr : Bool := false
  base : BitVec 48 := 0
  limit : BitVec 48 := 0
  deriving DecidableEq, Repr

/-- A regulator bucket (spec/14 R360, Table 14-7): tokens in thousandths of a byte, and the pieces that wait. -/
structure Bucket where
  enable : Bool := false
  burst : BitVec 31 := 0x1000
  rate : BitVec 32 := 1
  tokens : Int := 0
  stall : W64 := 0
  waiting : List Nat := []
  deriving DecidableEq, Repr

/-- One partition (spec/14 Table 14-6). -/
structure Partition where
  queryCtx : BitVec 11 := 0
  windows : Tab Window := []
  buckets : Tab Bucket := []
  deriving DecidableEq, Repr

/-- PRT_CTX_c_* (spec/14 Tables 14-8 to 14-10). -/
structure CtxCfg where
  enable : Bool := false
  err : BitVec 4 := 0
  disabling : Bool := false
  weight : BitVec 5 := 1
  cores : BitVec 128 := 0
  pin : BitVec 13 := 0
  queue : BitVec 11 := 0
  accSize : BitVec 7 := 0
  accBase : BitVec 7 := 0
  cpin : BitVec 14 := 0
  clusters : BitVec 16 := 0
  deriving DecidableEq, Repr

/-- The PRT block. -/
structure PrtSt where
  parts : Tab Partition := []
  ctxs : Tab CtxCfg := []
  deriving DecidableEq, Repr

/-- A granule that is RESIDENT (spec/07 R159): its store (36 × deck + store), and its pins as (context, barge) pairs. An
absent granule is HOME. -/
structure Gran where
  store : Nat := 0
  dirty : Bool := false
  age : BitVec 8 := 0
  pins : List (Nat × Nat) := []
  deriving DecidableEq, Repr

/-- One entry of a prefetch schedule (spec/07 Table 7-3). -/
structure SchedEntry where
  addr : Nat := 0
  count : Nat := 0
  layer : Nat := 0
  store : Nat := 0
  deriving DecidableEq, Repr

/-- An installed schedule (spec/07 R168). -/
structure Schedule where
  layers : Nat := 0
  wrap : Bool := false
  entries : List SchedEntry := []
  lookahead : Nat := 0
  layer : Nat := 0
  deriving DecidableEq, Repr

/-- A run of granules that a schedule fetch still has to bring in (spec/07 R169). -/
structure FetchRun where
  ctx : Nat := 0
  addr : Nat := 0
  count : Nat := 0
  store : Nat := 0
  deriving DecidableEq, Repr

/-- One deck's BRG and HBM counters (spec/07 Tables 7-6, 7-9). -/
structure DeckMem where
  periodUs : BitVec 32 := 0
  epoch : W64 := 0
  fetched : W64 := 0
  evicted : W64 := 0
  writeback : W64 := 0
  sramCe : BitVec 32 := 0
  sramUe : BitVec 32 := 0
  deriving DecidableEq, Repr

/-- One stack's error registers (spec/07 Tables 7-9, 7-10). -/
structure StackErr where
  ce : BitVec 32 := 0
  ue : BitVec 32 := 0
  ueValid : Bool := false
  ueAddr : BitVec 48 := 0
  ondie : BitVec 32 := 0
  deriving DecidableEq, Repr

/-- Memory tiers: the bytes of the unified range (an absent address reads 0, log 4), residency, uncorrectable words (as
address / 32 in HBM and address / 8 in SRAM), schedules and fetches per barge, and the
pinned granules of a moored module. -/
structure MemSt where
  bytes : List Host.Cell := []
  badHbm : List Nat := []
  badSram : List Nat := []
  gran : Tab Gran := []
  parked : Tab Gran := []
  decks : Tab DeckMem := []
  stackErrs : Tab StackErr := []
  schedules : Tab Schedule := []
  fetches : Tab (List FetchRun) := []
  deriving DecidableEq, Repr

/-- STATE of MB_m_STATE (spec/15 Table 15-13). -/
inductive MbState where
  | closed | opening | opened | closing
  deriving DecidableEq, Repr

/-- A completion record that waits to be written (spec/15 Table 15-2); `taken` unless it is of a descriptor that was never
taken (spec/15 R372, R391). -/
structure CplRec where
  seq : BitVec 16 := 0
  status : Status := .ok
  opcode : BitVec 8 := 0
  tag : W64 := 0
  detail : W64 := 0
  taken : Bool := true
  deriving DecidableEq, Repr

/-- One mailbox (spec/15 R366-R372, Tables 15-10 to 15-14); the rings as 64-bit words by index. -/
structure Mailbox where
  owner : BitVec 2 := 0
  irqHart : BitVec 5 := 0
  irqEn : Bool := false
  parts : BitVec 16 := 0
  state : MbState := .closed
  rev : BitVec 8 := 0
  result : Status := .ok
  revMin : BitVec 8 := 0
  revMax : BitVec 8 := 0
  outstanding : Nat := 0
  nextSeq : BitVec 16 := 0
  doorbell : W64 := 0
  reqHead : W64 := 0
  cplHead : W64 := 0
  cplTail : W64 := 0
  err : BitVec 5 := 0
  req : Tab W64 := []
  cpl : Tab W64 := []
  held : List CplRec := []
  deriving DecidableEq, Repr

/-- What the purser keeps of an ENQUEUE in progress (spec/15 R380, R381). -/
structure Enqueue where
  eng : Eng := ⟨.core, 0⟩
  count : Nat := 0
  cmds : Nat := 0
  next : Nat := 0
  offered : Nat := 0
  accepted : Nat := 0
  ended : Nat := 0
  firstFail : Option (Nat × Status) := none
  haltFail : Option (Nat × Status) := none
  stopped : Bool := false
  deriving DecidableEq, Repr

/-- How far a purser-run command is. -/
inductive PPhase where
  /-- Taken, not started: under FENCE, or a stage held for its predecessor. -/
  | held
  | running
  deriving DecidableEq, Repr

/-- A QUERY that the purser runs for a SEARCH, here or for a peer (spec/13 R316), and the command once its probes are
chosen. -/
structure ShardQuery where
  ctx : Nat := 0
  desc : Nat := 0
  nprobe : Nat := 0
  k : Nat := 0
  refine : Nat := 0
  filter : Bool := false
  tokens : Option Bytes := none
  cmd : Bytes := []
  deriving DecidableEq, Repr

/-- The attention of one layer for a chunk's queries (spec/06 R146-R150, spec/13 R327): the queries' free values start at
`base`; `phase` counts the runs of engine commands it has behind it. -/
structure Attend where
  ctx : Nat := 0
  model : Bytes := []
  sel : Bytes := []
  layer : Nat := 0
  len : Nat := 0
  first : Nat := 0
  last : Nat := 0
  pages : List (Nat × Nat) := []
  base : Nat := 0
  phase : Nat := 0
  deriving DecidableEq, Repr

/-- What the purser does with engine commands that no mailbox asked for. -/
inductive PurserWork where
  | none
  /-- A QUERY of a SEARCH. -/
  | query (q : ShardQuery)
  /-- The copy of a page. -/
  | copy
  /-- The attention of a layer. -/
  | attend (a : Attend)
  /-- The choice of a token. -/
  | sample
  deriving DecidableEq, Repr

/-- A command taken from a mailbox and not yet completed (spec/15 R372, R376). For a stage, `jobs` are the engine commands
it has offered and `done` how they completed. Of what the purser does without a mailbox, `work` says what it is, `guest` for
whom (module, Request ID, entry or key), `mover` which module balances the table of a MIGRATE, `offer` the engine commands to
run one after the other, each offered until its queue takes it (spec/14 R350), and `buf` its working space. `stepped`: it stands at the end of a step (spec/15 R376, R378).
`peer` is the module whose purser it waits for. -/
structure PCmd where
  mb : Nat := 0
  seq : BitVec 16 := 0
  opcode : BitVec 8 := 0
  flags : BitVec 8 := 0
  tag : W64 := 0
  desc : Bytes := []
  taken : W64 := 0
  lastProgress : W64 := 0
  steps : Nat := 0
  stepped : Bool := false
  phase : PPhase := .held
  verdict : Option Status := none
  enq : Option Enqueue := none
  jobs : List Nat := []
  done : Tab Status := []
  guest : Option (Nat × Nat × Nat) := none
  mover : Option Nat := none
  offer : List (Eng × Bytes) := []
  work : PurserWork := .none
  buf : Nat := 0
  peer : Option Nat := none
  deriving DecidableEq, Repr

/-- The states of a weight bank (spec/04 Table 4-1). -/
inductive BankState where
  | free | loading | ready | active | draining
  deriving DecidableEq, Repr

/-- A weight bank (spec/04 R89, R90, R92). `settled`: the last results of its last PASS are written. -/
structure Bank where
  state : BankState := .free
  ctx : Nat := 0
  tag : Nat := 0
  wfmt : Nat := 0
  used : Bool := false
  settled : Bool := true
  img : Bytes := []
  deriving DecidableEq, Repr

/-- An installed map (spec/05 Tables 5-2, 5-4). -/
structure MapRec where
  id : Nat := 0
  arrays : Nat := 15
  accUnits : Nat := 0
  banks : Nat := 2
  queue : Nat := 0
  pinGranules : Nat := 0
  credits : List (Nat × Nat) := []
  total : Nat := 0
  done : Nat := 0
  progress : Nat := 0
  fail : Option (Status × Nat) := none
  deriving DecidableEq, Repr

/-- A TAMP that is loading: its array and bank. -/
structure LoadOp where
  ctx : Nat := 0
  array : Nat := 0
  bank : Nat := 0
  cmd : QCmd := {}
  deriving DecidableEq, Repr

/-- A PASS that has started: the (array, bank) pairs it uses, the activation images it streams, and how many of its rows the
output stage has written and released (spec/04 R87, R97). -/
structure PassOp where
  ctx : Nat := 0
  banks : List (Nat × Nat) := []
  acts : List Bytes := []
  imgs : List Bytes := []
  written : Nat := 0
  cmd : QCmd := {}
  deriving DecidableEq, Repr

/-- An EPI that has started. -/
structure EpiOp where
  ctx : Nat := 0
  cmd : QCmd := {}
  deriving DecidableEq, Repr

/-- One core (spec/04). Accumulator entries are keyed array × 65536 + entry, and `ints` lists those that hold an INT32 sum
(spec/03 R74); `undef` lists the ranges (first, end, generation) whose entries hold undefined values until written. -/
structure CoreSt where
  banks : Tab Bank := []
  acc : Tab (BitVec 32) := []
  ints : Tab Bool := []
  undef : List (Nat × Nat × Nat) := []
  maps : Tab MapRec := []
  load : Option LoadOp := none
  stream : Option PassOp := none
  draining : List PassOp := []
  vec : Option EpiOp := none
  passes : W64 := 0
  deriving DecidableEq, Repr

/-- A map's report to the purser (spec/05 R125, spec/15 R384): OK for a completion, else the failing status. -/
structure MapReport where
  module : Nat := 0
  ctx : Nat := 0
  core : Nat := 0
  mapId : Nat := 0
  status : Status := .ok
  deriving DecidableEq, Repr

/-- A credit grant: the words a producer may hold on a queue, and the words it holds (spec/08 R200). -/
structure Grant where
  granted : BitVec 32 := 0
  held : BitVec 32 := 0
  deriving DecidableEq, Repr

/-- How far a reservation is (spec/08 R195, R196): open, committed with W words, a hole, or visible as packet k. -/
inductive ResvState where
  | opened | committed (words : Nat) | hole | visible (packet words : Nat)
  deriving DecidableEq, Repr

/-- A reservation whose space is not released (spec/08 R191): its producer, the engine whose command produces it where that
is another than the manager, and for a remote packet the operation tag and the words written so far. -/
structure Resv where
  pos : Nat := 0
  len : Nat := 0
  module : Nat := 0
  ctx : Nat := 0
  state : ResvState := .opened
  eng : Option Eng := none
  port : Nat := 0
  tag : Option (BitVec 32) := none
  got : Nat := 0
  deriving DecidableEq, Repr

/-- One slip queue (spec/08 Tables 8-6, 8-7); `items` are its unreleased reservations in order. -/
structure SlipQ where
  enable : Bool := false
  consumer : BitVec 7 := 0
  log2 : BitVec 5 := 0
  base : BitVec 48 := 0
  resv : W64 := 0
  resolved : W64 := 0
  commit : BitVec 51 := 0
  readPkt : BitVec 51 := 0
  readOff : BitVec 12 := 0
  markValid : Bool := false
  markPkt : BitVec 51 := 0
  markOff : BitVec 12 := 0
  free : W64 := 0
  items : List Resv := []
  deriving DecidableEq, Repr

/-- The slip-queue manager (spec/08). Grants of local queues, and the accounts this module keeps for its producers on
peers' queues, are keyed (queue × 4096 + module) × 128 + context; `unsent` and `deaf` are the peers toward which pushes
stop, and from which they are discarded, until resynchronization (spec/16 R420). -/
structure SlipSt where
  queues : Tab SlipQ := []
  grants : Tab Grant := []
  accounts : Tab Grant := []
  sel : W64 := 0
  packets : W64 := 0
  rewound : W64 := 0
  unsent : List Nat := []
  deaf : List Nat := []
  deriving DecidableEq, Repr

/-- A client or ferry port (spec/16 Tables 16-9, 16-12); `wait` are the frames, with their destination and bytes, that wait for
the end of a calibration (spec/14 R363). -/
structure PortSt where
  enable : Bool := false
  mode : BitVec 2 := 0
  promisc : Bool := false
  irqEn : Bool := false
  irqHart : BitVec 5 := 0
  maxFrame : BitVec 14 := 0x2400
  mac : BitVec 48 := 0
  cal : Bool := false
  lost : Bool := false
  link : Bool := false
  wait : List (BitVec 48 × FFrame × Bytes) := []
  vcShare : W64 := 0x1010101010101010
  rxLog2 : BitVec 5 := 0
  rxBase : BitVec 48 := 0
  rxTail : W64 := 0
  rxHead : W64 := 0
  txLog2 : BitVec 5 := 0
  txBase : BitVec 48 := 0
  txTail : W64 := 0
  txHead : W64 := 0
  txFrames : W64 := 0
  rxFrames : W64 := 0
  resent : W64 := 0
  dropped : W64 := 0
  deriving DecidableEq, Repr

/-- A path table entry (spec/16 Table 16-11). -/
structure PathEntry where
  valid : Bool := false
  pcp : BitVec 3 := 0
  vid : BitVec 12 := 0
  tagged : Bool := false
  ports : BitVec 16 := 0
  mac : BitVec 48 := 0
  deriving DecidableEq, Repr

/-- STATE of FRY_p_PATH_x (spec/16 Table 16-13). -/
inductive PathState where
  | idle | syncing | up | lost
  deriving DecidableEq, Repr

/-- What a path counts for one virtual channel (spec/16 R414, R415): as sender the cells acknowledged, the latest CREDIT
and the grant held; as receiver the cells freed, the grant given, and the largest given since the path came up. -/
structure VcCount where
  acked : BitVec 32 := 0
  credit : BitVec 32 := 0
  grant : Nat := 0
  freed : BitVec 32 := 0
  given : Nat := 0
  most : Nat := 0
  deriving DecidableEq, Repr

/-- One path (spec/16 R406-R415): `sendq` are frames not yet sent, `unacked` those sent and not acknowledged, oldest
first. -/
structure PathSt where
  state : PathState := .idle
  gen : BitVec 16 := 0
  nextSeq : BitVec 24 := 0
  exp : BitVec 24 := 0
  proposal : Option (BitVec 16) := none
  sendq : List FFrame := []
  unacked : List FFrame := []
  resends : Nat := 0
  unsentAcks : Nat := 0
  nacked : Option (BitVec 24 × W64) := none
  lastVc : Nat := 0
  vcs : Tab VcCount := []
  deriving DecidableEq, Repr

/-- What waits for the end of a ferry operation this module started. -/
inductive Waiter where
  /-- A MOVE of a barge; `dst` is where a read's bytes go. -/
  | move (barge ctx : Nat) (cmd : QCmd) (dst : Nat)
  /-- A PUSH on a peer's queue. -/
  | push (ctx : Nat) (cmd : QCmd) (queue words : Nat)
  /-- One row piece of a context's DISPATCH for an expert. -/
  | dispatch (router ctx expert : Nat)
  /-- An expert notification of a context's DISPATCH pushed on a peer's queue. -/
  | notify (router ctx queue : Nat)
  /-- The copy step of a MIGRATE. -/
  | migrate (engine ctx : Nat)
  /-- A row request or update of entry `u` of a gather engine's command. -/
  | row (engine ctx u : Nat)
  /-- A chunk of an all-to-all toward the member of a rank. -/
  | chunk (barge ctx id rank : Nat)
  deriving DecidableEq, Repr

/-- A ferry operation in flight, by its tag: the path it uses and what waits. -/
structure FerryOp where
  port : Nat := 0
  module : Nat := 0
  total : Nat := 0
  waiter : Waiter := .dispatch 0 0 0
  deriving DecidableEq, Repr

/-- The FRY block and the ferry engines (spec/16). Paths and learned addresses are keyed port × 4096 + module; `writes` are
the WRITEs of peers being served, by path and tag. -/
structure FrySt where
  berthValid : Bool := false
  berth : BitVec 6 := 0
  slot : BitVec 6 := 0
  ethertype : BitVec 16 := 0x88B5
  groupMac : BitVec 48 := 0x035256420000
  retryMax : BitVec 4 := 8
  rtoUs : BitVec 20 := 0x32
  ppsArm : Bool := false
  ppsBehind : Bool := false
  ppsSeen : Bool := false
  ppsNext : W64 := 0
  ppsLatch : W64 := 0
  ports : Tab PortSt := [(15, { enable := true })]
  entries : Tab PathEntry := []
  paths : Tab PathSt := []
  learned : Tab (BitVec 48) := []
  turn : Tab Nat := []
  nextTag : BitVec 32 := 0
  ops : Tab FerryOp := []
  writes : List (Nat × BitVec 32) := []
  deriving DecidableEq, Repr

/-- A COLLECTIVE in progress (spec/16 R422-R424): `cur` is the chunk to send next, in the format it travels in; `recv`
and `sent` are the steps received and sent so far, with the bytes of the step under way; `allowed` is the highest step
the successor allows; `got` counts the bytes of each step that stand in the staging area; of an all-to-all `sent` counts
the chunks sent, `acks` are the ranks of the WRITEs not yet acknowledged and `chunks` those whose chunk has not come; `used` are
the paths it uses (port, module). -/
structure CollOp where
  cmd : QCmd := {}
  kind : Nat := 0
  efmt : Nat := 0
  rank : Nat := 0
  members : List (Nat × Nat) := []
  src : Nat := 0
  dst : Nat := 0
  chunk : Nat := 0
  id : Nat := 0
  cur : Bytes := []
  next : Bytes := []
  recv : Nat := 0
  recvOff : Nat := 0
  sent : Nat := 0
  sentOff : Nat := 0
  allowed : Option Nat := none
  got : Tab Nat := []
  begun : Bool := false
  acks : List Nat := []
  chunks : List Nat := []
  used : List (Nat × Nat) := []
  verdict : Option Status := none
  deriving DecidableEq, Repr

/-- The barges: the context whose remote MOVE is in flight on a barge, and collectives keyed barge × 128 + context. -/
structure BargeSt where
  busy : Tab Nat := []
  colls : Tab CollOp := []
  deriving DecidableEq, Repr

/-- One expert of a DISPATCH: its owner, its queue, its rows, the row writes not yet acknowledged, and whether its
notification is pushed (spec/06 R138, R139). -/
structure DispExpert where
  expert : Nat := 0
  module : Nat := 0
  queue : Nat := 0
  rows : Nat := 0
  left : Nat := 0
  pushed : Bool := false
  deriving DecidableEq, Repr

/-- A DISPATCH that has started: its experts, its remote notifications in flight, and how it failed. -/
structure DispOp where
  cmd : QCmd := {}
  experts : List DispExpert := []
  pushes : Nat := 0
  verdict : Option (Status × Overflow) := none
  deriving DecidableEq, Repr

/-- One expert router (spec/06 Table 6-8); its DISPATCH commands in progress by context: one runs, others wait for credit
(spec/08 R192). -/
structure RouterSt where
  ops : Tab DispOp := []
  routed : W64 := 0
  dropped : W64 := 0
  subst : W64 := 0
  deriving DecidableEq, Repr

/-- A selection record (spec/10 Table 10-1); `src` is its input order, and for a percolator record `at_` and `scale` are
the place of its INT4 part and its SCALE. -/
structure SelRec where
  key : Nat := 0
  pay : Nat := 0
  pos : Nat := 0
  aux : Nat := 0
  src : Nat := 0
  at_ : Nat := 0
  scale : Nat := 0
  deriving DecidableEq, Repr

/-- One sort/select unit (spec/10 Table 10-8). -/
structure SsuSt where
  commands : W64 := 0
  elements : W64 := 0
  short : W64 := 0
  ties : W64 := 0
  deriving DecidableEq, Repr

/-- The part of a shard descriptor that software sets (spec/09 Table 9-2). -/
structure Shard where
  addr : Nat := 0
  code : Nat := 0
  metric : Nat := 0
  dim : Nat := 0
  csz : Nat := 0
  lists : Nat := 0
  heads : Nat := 0
  updq : Nat := 0
  journal : Nat := 0
  deriving DecidableEq, Repr

/-- What the checks of a QUERY at the head of its queue read: the probes and the filter's (group, mask, value) terms. -/
structure PclHead where
  probes : List Nat := []
  terms : List (Nat × Nat × Nat) := []
  deriving DecidableEq, Repr

/-- A stream of a query: the list it scans, the next block, and the ordinal of its first slot (spec/09 R216, R222). -/
structure PclStream where
  list : Nat := 0
  block : Nat := 0
  ord : Nat := 0
  deriving DecidableEq, Repr

/-- A query in hand (spec/09 R215-R223): `order` orders admissions and flips; `held` are the records it holds, best
first, `cut` the ties cut; while screening, the records are screen keys, and `todo` the survivors left to refine. -/
structure Query where
  ctx : Nat := 0
  cmd : QCmd := {}
  order : Nat := 0
  shard : Shard := {}
  epoch : Nat := 0
  vec : List (BitVec 32) := []
  terms : List (Nat × Nat × Nat) := []
  probes : List Nat := []
  streams : Tab PclStream := []
  screening : Bool := false
  held : List SelRec := []
  cut : Nat := 0
  todo : List SelRec := []
  lists : Nat := 0
  seen : Nat := 0
  verdict : Option Status := none
  deriving DecidableEq, Repr

/-- A compaction step that is copying (spec/09 R235): its list, floor, old tail, the next block to copy, and the blocks of
the old and the new chain so far. -/
structure CmpStep where
  list : Nat := 0
  floor : Nat := 0
  tail : Nat := 0
  next : Nat := 0
  old : List Nat := []
  new : List Nat := []
  deriving DecidableEq, Repr

/-- A writer slot of a slice (spec/09 R239, Table 9-13): whether a packet ran last, the step in progress, while a chain retires
the moment before which the queries it waits for were admitted, the ATTACH that waits for that (spec/09 R240), and the DETACH
commands that wait. -/
structure WriterSlot where
  shard : Shard := {}
  ctx : Nat := 0
  attached : Bool := true
  packetLast : Bool := false
  step : Option CmpStep := none
  flip : Option Nat := none
  stopped : Bool := false
  attach : Option QCmd := none
  detach : List (Nat × QCmd) := []
  deriving DecidableEq, Repr

/-- One percolator slice (spec/09 Table 9-13). -/
structure SliceSt where
  heads : Tab PclHead := []
  queries : Tab Query := []
  slots : Tab WriterSlot := []
  ended : W64 := 0
  blocks : W64 := 0
  rejected : W64 := 0
  flips : W64 := 0
  deriving DecidableEq, Repr

/-- The percolator; `order` numbers admissions and flips (spec/09 R235). -/
structure PclSt where
  slices : Tab SliceSt := []
  order : Nat := 0
  deriving DecidableEq, Repr

/-- A table descriptor's software fields (spec/11 Table 11-1). -/
structure TableDesc where
  addr : Nat := 0
  rfmt : Nat := 0
  opt : Nat := 0
  hot : Bool := false
  migrate : Bool := false
  thresh : Nat := 0
  dim : Nat := 0
  moveMax : Nat := 0
  rows : Nat := 0
  shards : Nat := 0
  shard : Nat := 0
  stride : Nat := 0
  base : Nat := 0
  map : Nat := 0
  redirect : Nat := 0
  redirSlots : Nat := 0
  spareSlots : Nat := 0
  spare : Nat := 0
  deriving DecidableEq, Repr

/-- A registered table (spec/11 R267): the context that attached it, and the DETACH commands (engine, context, command)
that wait while it is being disabled. -/
structure GthTable where
  desc : TableDesc := {}
  ctx : Nat := 0
  attached : Bool := true
  detach : List (Nat × Nat × QCmd) := []
  deriving DecidableEq, Repr

/-- Who asked for a row: entry `u` of a command of an engine's context here, or a peer with its tag. -/
inductive RowFrom where
  | engine (e ctx u : Nat) | peer (module : Nat) (tag : BitVec 32)
  deriving DecidableEq, Repr

/-- The gradient, optimizer record and STEP of an update (spec/11 R273). -/
structure RowUpdate where
  grad : List (BitVec 32) := []
  opt : Bytes := []
  step : Nat := 0
  deriving DecidableEq, Repr

/-- A request or update that has reached its owner engine; `spare` names the spare slot of a forwarded one, `via` the
path a frame brought it by; `held`: its row is being moved. -/
structure RowReq where
  engine : Nat := 0
  table : Nat := 0
  index : Nat := 0
  ctx : Nat := 0
  source : RowFrom := .engine 0 0 0
  update : Option RowUpdate := none
  spare : Option Nat := none
  via : Option Nat := none
  held : Bool := false
  deriving DecidableEq, Repr

/-- A prefetched row (spec/11 R274). -/
structure PfRow where
  ctx : Nat := 0
  table : Nat := 0
  index : Nat := 0
  bytes : Bytes := []
  deriving DecidableEq, Repr

/-- An entry of a hot list (spec/11 R276). -/
structure HotEntry where
  table : Nat := 0
  index : Nat := 0
  hits : BitVec 32 := 0
  deriving DecidableEq, Repr

/-- What a gather engine's command is doing. -/
inductive GthKind where
  | gather | apply | prefetch | moveOut | moveBack
  deriving DecidableEq, Repr

/-- How far a MIGRATE is: its target is asked for a spare slot, or whether one is free of requests; its entry says MOVING_BACK
and requests sent earlier still run at the target; the row is copied (spec/11 R278). -/
inductive MovePhase where
  | ask | hold | copy
  deriving DecidableEq, Repr

/-- A gather engine's command in progress: the entries (number, index) still to request, the requests outstanding, the
inverse map, the gradients; for a MIGRATE how far it is, its redirect entry's address, previous bytes, target and spare
slot. -/
structure GthOp where
  kind : GthKind := .gather
  cmd : QCmd := {}
  table : Nat := 0
  todo : List (Nat × Nat) := []
  out : Nat := 0
  inv : List Nat := []
  grads : Tab (List (BitVec 32)) := []
  opt : Bytes := []
  verdict : Option Status := none
  entry : Nat := 0
  prev : Bytes := []
  target : Nat := 0
  slot : Nat := 0
  phase : MovePhase := .copy
  deriving DecidableEq, Repr

/-- One gather engine (spec/11 Table 11-8); its commands in progress by context. -/
structure GthEng where
  ops : Tab GthOp := []
  pf : List PfRow := []
  hot : List HotEntry := []
  latched : List HotEntry := []
  rows : W64 := 0
  pfdrop : W64 := 0
  deriving DecidableEq, Repr

/-- The gather engines. `reqs` are the requests at their owners, by rising number; `partials` the ROW payloads received so
far by (path, tag); `moves` the migrations (home, table, index, target module) the purser here still has to order, and
`moving` the module that carries out the one it ordered (spec/11 R280). -/
structure GthSt where
  tables : Tab GthTable := []
  loads : Tab W64 := []
  loadLast : Tab W64 := []
  epochMs : BitVec 16 := 0
  epoch : W64 := 0
  migrated : W64 := 0
  engs : Tab GthEng := []
  reqs : Tab RowReq := []
  nextReq : Nat := 0
  partials : List (Nat × BitVec 32 × Bytes) := []
  moves : List (Nat × Nat × Nat × Nat) := []
  moving : Option Nat := none
  deriving DecidableEq, Repr

/-- A loaded tokenizer: what LOAD copies into the table store (spec/12 R290). Merges are (left, right, rank, result),
special tokens their bytes and token, ranges (first, last, class). -/
structure Tokenizer where
  desc : Nat := 0
  bytes : Nat := 0
  merges : List (Nat × Nat × Nat × Nat) := []
  byteMap : List Nat := []
  specials : List (Bytes × Nat) := []
  ranges : List (Nat × Nat × Nat) := []
  rules : List Nat := []
  defaultClass : Nat := 0
  invalidClass : Nat := 0
  deriving DecidableEq, Repr

/-- One pre-token or special token: its tokens, the text bytes it consumes, and what the summary counts (spec/12 Table 12-8). -/
structure TokItem where
  tokens : List Nat := []
  bytes : Nat := 0
  cut : Bool := false
  special : Bool := false
  invalid : Nat := 0
  deriving DecidableEq, Repr

/-- What tokenizing has given so far (spec/12 R298). -/
structure TokResult where
  tokens : Nat := 0
  bytes : Nat := 0
  cuts : Nat := 0
  specials : Nat := 0
  invalid : Nat := 0
  deriving DecidableEq, Repr

/-- A TOKENIZE that has started (spec/12 R297-R299): the items left, the pieces of the first that are done, and the status a
disable stops it with. -/
structure TokOp where
  ctx : Nat := 0
  cmd : QCmd := {}
  left : List TokItem := []
  piece : Nat := 0
  res : TokResult := {}
  stop : Option Status := none
  deriving DecidableEq, Repr

/-- A tokenizer slot that is loaded: while it is being unloaded, the UNLOAD commands that wait, by context. -/
structure TokSlot where
  tok : Tokenizer := {}
  unloading : Bool := false
  unload : List (Nat × QCmd) := []
  deriving DecidableEq, Repr

/-- The grinder (spec/12 Table 12-9), and the TOKENIZE commands its eight engines run, by rising number. -/
structure GrdSt where
  slots : Tab TokSlot := []
  ops : Tab TokOp := []
  nextOp : Nat := 0
  bytes : W64 := 0
  tokens : W64 := 0
  cuts : W64 := 0
  deriving DecidableEq, Repr

/-- How far a stage command is (spec/13 R313): held, running, its own work done with a status, completed. -/
inductive StagePhase where
  | held | running | worked (st : Status) | ended (st : Status)
  deriving DecidableEq, Repr

/-- A stage command of a request (spec/13 R312): its purser command, its fields, the maps it names as (module, context,
core, map), its place in its work, and the status a CANCEL or a disable stops it with. -/
structure Stage where
  cmd : Nat := 0
  param : Nat := 0
  maps : Nat := 0
  phase : StagePhase := .held
  list : List (Nat × Nat × Nat × Nat) := []
  step : Nat := 0
  sub : Nat := 0
  stop : Option Status := none
  lost : Bool := false
  deriving DecidableEq, Repr

/-- What SEARCH and RERANK keep of one shard entry (spec/13 R316, R318): whether its module has been told, the status of its
QUERY or cascade, and the records of its result. -/
structure SearchPart where
  module : Nat := 0
  desc : Nat := 0
  metric : Nat := 0
  sent : Bool := false
  data : Bytes := []
  status : Option Status := none
  deriving DecidableEq, Repr

/-- A ring record that waits to be written (spec/13 R335), with the CANCEL that completes after it. -/
structure RingRec where
  token : Nat := 0
  bytes : Bytes := []
  reason : Nat := 0
  status : Status := .ok
  stop : Nat := 0
  cancel : Option Nat := none
  deriving DecidableEq, Repr

/-- What reaches a sequencer (spec/13 R339): a token, a CANCEL, an error or disable. -/
inductive SeqEvent where
  | token (t : Nat) | cancel (cmd : Nat) | error (st : Status)
  deriving DecidableEq, Repr

/-- An open pour ring (spec/13 R334-R336, spec/12 R304-R308): sequences given and written, the TAIL last read, where the
next spill run starts, the runs as (sequence, offset, length), the stop record, and the bytes the matcher and the
assembler hold. -/
structure RingSt where
  seq : Nat := 0
  head : Nat := 0
  tail : Nat := 0
  place : Nat := 0
  runs : List (Nat × Nat × Nat) := []
  wait : List RingRec := []
  stops : Bytes := []
  pend : Bytes := []
  held : Bytes := []
  deriving DecidableEq, Repr

/-- What a purser was answered (spec/16 R417). -/
structure Answer where
  status : Status := .ok
  data : List Bytes := []
  deriving DecidableEq, Repr

/-- A segment of a prefix chain as PACK took it (spec/13 R321). -/
structure Segment where
  addr : Nat := 0
  ready : Bool := false
  parent : Nat := 0
  tokens : Nat := 0
  start : Nat := 0
  pages : Bytes := []
  covered : List Nat := []
  deriving DecidableEq, Repr

/-- How far PACK is (spec/13 R321): the next segment to take, those taken (the leaf first), the records of the merge not yet
packed, the tokens written to PROMPT, and the passage under way (address and tokens). -/
structure PackSt where
  next : Nat := 0
  segs : List Segment := []
  todo : List Nat := []
  out : Nat := 0
  found : Option (Nat × Nat) := none
  deriving DecidableEq, Repr

/-- How far a request's part of a decode step is (spec/13 R330): its step, the member of the group asked for a page
and how many had none, its page, and the layer. -/
structure ForwardSt where
  sub : Nat := 0
  member : Nat := 0
  tried : Nat := 0
  page : Nat := 0
  layer : Nat := 0
  deriving DecidableEq, Repr

/-- A request in progress (spec/13 R311, R496): its record as last read, its stages by opcode, the prefix records and KV
pages it holds as global addresses (new pages with their index), the segment it publishes with its record, and for decoding
its model record, the number of its current logits among the free values, and its admission and wait (spec/13 R341); `asks`
are the questions to the pursers of modules and `answers` what came back, by key; `sampler` is the purser command that
chooses its token. -/
structure Request where
  addr : Nat := 0
  ctx : Nat := 0
  slot : Nat := 0
  cls : Nat := 0
  record : Bytes := []
  stages : Tab Stage := []
  state : Nat := 0
  qcount : Nat := 0
  cached : Nat := 0
  context : Nat := 0
  generated : Nat := 0
  chain : List Nat := []
  parts : List SearchPart := []
  asks : Tab Nat := []
  answers : Tab Answer := []
  pack : PackSt := {}
  segment : Option (Nat × Bytes) := none
  fwd : ForwardSt := {}
  sampler : Option Nat := none
  pages : List (Nat × Nat) := []
  ring : Option RingSt := none
  events : List SeqEvent := []
  terminal : Bool := false
  model : Nat := 0
  logits : Nat := 0
  admitted : Nat := 0
  waited : Nat := 0
  deriving DecidableEq, Repr

/-- A model record in use (spec/13 R341): the deficits by class, the round-robin pointer, and the requests of the step
under way. -/
structure ModelSt where
  deficit : Tab Nat := []
  pointer : Nat := 0
  visited : Bool := false
  chosen : List Nat := []
  vocab : Nat := 0
  deriving DecidableEq, Repr

/-- One customer class (spec/13 Table 13-10). -/
structure ClassSt where
  weight : BitVec 16 := 1
  refill : BitVec 48 := 0
  budget : BitVec 48 := 0
  tokens : BitVec 48 := 0
  deriving DecidableEq, Repr

/-- The POR block (spec/12 Table 12-12). -/
structure PorSt where
  tokens : W64 := 0
  stops : W64 := 0
  replaced : W64 := 0
  badToken : W64 := 0
  deriving DecidableEq, Repr

/-- The purser: its firmware's build number, the commands it runs by rising command number, map reports kept and wanted by
peers (module, context, core, map), the requests, the models in use, KV pages of this module's pools in use (local
addresses), and the serving registers (spec/13 Table 13-10). -/
structure PurSt where
  fw : BitVec 32 := 0
  nextId : Nat := 0
  turn : Nat := 0
  cmds : Tab PCmd := []
  reports : List MapReport := []
  wants : List (Nat × Nat × Nat × Nat) := []
  told : List (Nat × Nat × Nat) := []
  found : List ((Nat × Nat × Nat) × Bytes) := []
  attention : List (List (BitVec 32)) := []
  reqs : Tab Request := []
  models : Tab ModelSt := []
  kv : List Nat := []
  admissions : Nat := 0
  entropy : Nat := 0
  cost : BitVec 16 := 0x1000
  period : BitVec 32 := 0x3E8
  budgetEn : BitVec 16 := 0
  lastRefill : Nat := 0
  classes : Tab ClassSt := []
  deriving DecidableEq, Repr

/-- How far boot is (spec/17 Table 17-1): before it starts, asking for a bundle, a session open, its check decided, waiting
to ask again, handed over to the purser firmware. -/
inductive BootPhase where
  | waiting | soliciting | open_ | decided | restart | running
  deriving DecidableEq, Repr

/-- A download session (spec/17 R435): its source, the blocks received, the staging area, when a block last came, and the
outcome of the check with the digest for DONE. -/
structure Session where
  id : BitVec 32 := 0
  via : ImgVia := .ferry false
  size : Nat := 0
  got : List Nat := []
  staging : List Host.Cell := []
  last : W64 := 0
  verdict : Status := .ok
  digest : Bytes := []
  dones : Nat := 0
  deriving DecidableEq, Repr

/-- The security block and the image protocol (spec/17). Of a steward: `hosts` are the hosts that last sent for a member,
`relay` the members' messages to carry on, `served` the sessions it serves from its cache. `resps` are the last responses
(session, number, response). -/
structure SecSt where
  ownerSet : Bool := false
  ownerHash : Tab W64 := []
  svnFloor : BitVec 32 := 0
  raises : Nat := 0
  meas : Tab Bytes := []
  extData : Tab W64 := []
  extSlot : BitVec 3 := 0
  extends_ : W64 := 0
  checked : Status := .ok
  source : BitVec 2 := 0
  svn : BitVec 32 := 0
  ownerVerified : Bool := false
  autoserve : Bool := false
  phase : BootPhase := .waiting
  session : Session := {}
  hosts : Tab ImgHost := []
  relay : List (Nat × Bytes) := []
  served : Tab (BitVec 32) := []
  resps : List (BitVec 32 × BitVec 32 × Bytes) := []
  deriving DecidableEq, Repr

/-- What leaves the block (model's own field; newest first). -/
inductive Out where
  /-- An interrupt to a wheelhouse hart. -/
  | irq (hart : Nat) (src : IrqSource)
  /-- A ferry frame sent on a port to a MAC address: its header and payload, and all its bytes on the wire. -/
  | ferry (port : Nat) (mac : BitVec 48) (frame : FFrame) (wire : Bytes)
  /-- A client frame sent on a port, with its FCS. -/
  | client (port : Nat) (bytes : Bytes)
  /-- An image protocol message on the management port (spec/17 R433). -/
  | image (src dst : ImgHost) (bytes : Bytes)
  /-- A wheelhouse hart starts at an address. -/
  | hart (hart entry : Nat)
  /-- A store access-fault exception in a wheelhouse hart. -/
  | storeFault (hart addr : Nat)
  /-- The answer to an SMBus read. -/
  | smbus (bytes : Bytes)
  /-- The value a register read returns. -/
  | value (addr : Nat) (v : W64)
  deriving DecidableEq, Repr

/-- The whole module. -/
structure State where
  hub : HubSt := {}
  pwr : PwrSt := {}
  evt : EvtSt := {}
  prt : PrtSt := {}
  engs : Tab EngineSt := []
  mem : MemSt := {}
  cores : Tab CoreSt := []
  slip : SlipSt := {}
  fry : FrySt := {}
  barges : BargeSt := {}
  routers : Tab RouterSt := []
  ssus : Tab SsuSt := []
  pcl : PclSt := {}
  gth : GthSt := {}
  grd : GrdSt := {}
  por : PorSt := {}
  mbs : Tab Mailbox := []
  pur : PurSt := {}
  sec : SecSt := {}
  pending : List Instr := []
  outs : List Out := []
  freeCtr : Nat := 0
  deriving DecidableEq, Repr

/-- The module right after a power-on reset, before boot (spec/00 R16). -/
def State.reset : State := {}

end Sys2Proof.Machine
end

