-- ==== Sys2Proof/Machine/Ops.lean ====
section
/-! DEFINITION. The shared operations: sparse tables, byte order, memory, table lookups of the state. -/

namespace Sys2Proof.Machine

/-! ### Sparse tables -/

/-- The value at key `k`, `d` where the table lists none. -/
def tabGet {α : Type} (d : α) : Tab α → Nat → α
  | [], _ => d
  | (j, v) :: t, k => if j = k then v else tabGet d t k

/-- The value at key `k`, if listed. -/
def tabFind {α : Type} : Tab α → Nat → Option α
  | [], _ => none
  | (j, v) :: t, k => if j = k then some v else tabFind t k

/-- The table with `v` at key `k`, keys kept rising. -/
def tabPut {α : Type} : Tab α → Nat → α → Tab α
  | [], k, v => [(k, v)]
  | (j, w) :: t, k, v =>
    if k < j then (k, v) :: (j, w) :: t
    else if k = j then (k, v) :: t
    else (j, w) :: tabPut t k v

/-- The table without key `k`. -/
def tabDel {α : Type} : Tab α → Nat → Tab α
  | [], _ => []
  | (j, w) :: t, k => if j = k then tabDel t k else (j, w) :: tabDel t k

/-- The table with `v` at `k`, a default value listed nowhere. -/
def tabSet {α : Type} [DecidableEq α] (d : α) (t : Tab α) (k : Nat) (v : α) : Tab α :=
  if v = d then tabDel t k else tabPut t k v

/-- The table with the value at `k` changed by `f`. -/
def tabMod {α : Type} (d : α) (t : Tab α) (k : Nat) (f : α → α) : Tab α :=
  tabPut t k (f (tabGet d t k))

/-- Every listed value changed. -/
def tabMap {α : Type} (f : Nat → α → α) (t : Tab α) : Tab α := t.map fun p => (p.1, f p.1 p.2)

/-! ### Bytes and numbers (spec/00 R11, R12: little-endian) -/

/-- The number that bytes spell, least significant first. -/
def leNat : Bytes → Nat
  | [] => 0
  | b :: bs => b.toNat + 256 * leNat bs

/-- The `n` bytes of a number, least significant first. -/
def toLe : Nat → Nat → Bytes
  | 0, _ => []
  | n + 1, v => BitVec.ofNat 8 v :: toLe n (v / 256)

/-- The field of `n` bytes at offset `off`. -/
def fld (b : Bytes) (off n : Nat) : Nat := leNat ((b.drop off).take n)

/-- Bits `hi` to `lo` of a number. -/
def bits (v hi lo : Nat) : Nat := v / 2 ^ lo % 2 ^ (hi + 1 - lo)

/-- Bit `i` of a number. -/
def bit (v i : Nat) : Bool := v / 2 ^ i % 2 = 1

/-- 1 for true. -/
def b2n (b : Bool) : Nat := if b then 1 else 0

/-- Whether the `n` bytes at `off` are all zero. -/
def zeroAt (b : Bytes) (off n : Nat) : Bool := fld b off n = 0

/-- ceil(a / b). -/
def ceilDiv (a b : Nat) : Nat := (a + b - 1) / b

/-- A value clamped to a range (spec/02 R54). -/
def clamp (lo hi v : Nat) : Nat := max lo (min hi v)

/-- A 32-bit count that stops at its largest value (spec/18 R468). -/
def satAdd32 (a : BitVec 32) (n : Nat) : BitVec 32 := BitVec.ofNat 32 (min 0xFFFFFFFF (a.toNat + n))

/-- Insert into a rising list of numbers without repeats. -/
def insertNat (k : Nat) : List Nat → List Nat
  | [] => [k]
  | j :: t => if k < j then k :: j :: t else if k = j then j :: t else j :: insertNat k t

/-- Replace element `i` of a list. -/
def setAt {α : Type} : List α → Nat → α → List α
  | [], _, _ => []
  | _ :: t, 0, v => v :: t
  | x :: t, i + 1, v => x :: setAt t i v

/-- Insert before the first element that `le` does not put before it. -/
def insertBy {α : Type} (le : α → α → Bool) (x : α) : List α → List α
  | [] => [x]
  | y :: t => if le x y then x :: y :: t else y :: insertBy le x t

/-- Sort a list, equal elements in their order. -/
def sortBy {α : Type} (le : α → α → Bool) (l : List α) : List α := l.foldr (insertBy le) []

/-! ### Memory: bytes by address, 0 where nothing is listed (log 4) -/

/-- One byte of the unified range. -/
def memGet (m : List Host.Cell) (a : Nat) : Byte := tabGet 0 m a

/-- One byte written; the canonical form lists no zero byte. -/
def memSet (m : List Host.Cell) (a : Nat) (b : Byte) : List Host.Cell := tabSet 0 m a b

/-- `n` bytes from an address. -/
def memRead (m : List Host.Cell) (a : Nat) : Nat → Bytes
  | 0 => []
  | n + 1 => memGet m a :: memRead m (a + 1) n

/-- Bytes written from an address on. -/
def memWrite (m : List Host.Cell) (a : Nat) : Bytes → List Host.Cell
  | [] => m
  | b :: bs => memWrite (memSet m a b) (a + 1) bs

/-- Keys above `lo`, strictly rising, no zero byte listed. -/
def memSorted : Nat → List Host.Cell → Bool
  | _, [] => true
  | lo, (a, b) :: t => decide (lo ≤ a) && decide (b ≠ 0) && memSorted (a + 1) t

/-- The canonical form of memory. -/
def Memory.wf (m : List Host.Cell) : Bool := memSorted 0 m

/-! ### Places in the state -/

/-- The number of an engine kind (spec/15 Table 15-4). -/
def kindCode : EngKind → Nat
  | .core => 0 | .barge => 1 | .gather => 2 | .slice => 3 | .ssu => 4 | .router => 5 | .grinder => 6
  | .slipManager => 7

/-- How many engines of a kind there are (spec/15 Table 15-4). -/
def kindCount : EngKind → Nat
  | .core => 128 | .barge => 32 | .gather => 16 | .slice => 16 | .ssu => 16 | .router => 16 | .grinder => 1
  | .slipManager => 1

/-- The engine selector of an engine: KIND in [15:12], INDEX in [11:0]. -/
def engKey (e : Eng) : Nat := kindCode e.kind * 4096 + e.index

/-- The engine a selector names; none where it is reserved. -/
def engOfSelector (v : Nat) : Option Eng :=
  let i := v % 4096
  let k : Option EngKind := match v / 4096 with
    | 0 => some .core | 1 => some .barge | 2 => some .gather | 3 => some .slice | 4 => some .ssu | 5 => some .router
    | 6 => some .grinder | 7 => some .slipManager | _ => none
  match k with
  | some k => if i < kindCount k then some ⟨k, i⟩ else none
  | none => none

/-- The partition of a context (spec/00 R19). -/
def ctxPart (c : Nat) : Nat := c / 8

/-- Whether an engine stands on the hub die (spec/07 R160). -/
def isHubEngine (e : Eng) : Bool := e.kind = .grinder || e.kind = .slipManager

/-- The deck that holds an engine (0 for a hub engine). -/
def engDeck (e : Eng) : Nat :=
  match e.kind with
  | .core => e.index / 32
  | .barge => e.index / 8
  | .gather => e.index / 4
  | .slice | .ssu | .router => e.index / 4
  | .grinder | .slipManager => 0

/-- An engine's state. -/
def getEng (s : State) (e : Eng) : EngineSt := tabGet {} s.engs (engKey e)

/-- Change an engine's state. -/
def modEng (s : State) (e : Eng) (f : EngineSt → EngineSt) : State :=
  { s with engs := tabMod {} s.engs (engKey e) f }

/-- A context's queue on an engine. -/
def getQ (s : State) (e : Eng) (c : Nat) : CtxQ := tabGet {} (getEng s e).ctxs c

/-- Change a context's queue on an engine. -/
def modQ (s : State) (e : Eng) (c : Nat) (f : CtxQ → CtxQ) : State :=
  modEng s e fun x => { x with ctxs := tabMod {} x.ctxs c f }

/-- A context's PRT_CTX_c registers. -/
def getCtx (s : State) (c : Nat) : CtxCfg := tabGet {} s.prt.ctxs c

/-- Change a context's PRT_CTX_c registers. -/
def modCtx (s : State) (c : Nat) (f : CtxCfg → CtxCfg) : State :=
  { s with prt := { s.prt with ctxs := tabMod {} s.prt.ctxs c f } }

/-- A partition. -/
def getPart (s : State) (p : Nat) : Partition := tabGet {} s.prt.parts p

/-- Change a partition. -/
def modPart (s : State) (p : Nat) (f : Partition → Partition) : State :=
  { s with prt := { s.prt with parts := tabMod {} s.prt.parts p f } }

/-- A mailbox at reset: mailbox 63 belongs to the management path (spec/15 Table 15-11). -/
def mbReset (m : Nat) : Mailbox := if m = 63 then { owner := 1, parts := 0xFFFF } else {}

/-- A mailbox. -/
def getMb (s : State) (m : Nat) : Mailbox := tabGet (mbReset m) s.mbs m

/-- Change a mailbox. -/
def modMb (s : State) (m : Nat) (f : Mailbox → Mailbox) : State :=
  { s with mbs := tabPut s.mbs m (f (getMb s m)) }

/-- A purser command in progress. -/
def getCmd (s : State) (id : Nat) : Option PCmd := tabFind s.pur.cmds id

/-- Replace a purser command. -/
def putCmd (s : State) (id : Nat) (c : PCmd) : State :=
  { s with pur := { s.pur with cmds := tabPut s.pur.cmds id c } }

/-- The key of a grant entry (spec/08 R200). -/
def grantKey (q module ctx : Nat) : Nat := (q * 4096 + module) * 128 + ctx

/-- A grant entry. -/
def getGrant (s : State) (q module ctx : Nat) : Grant := tabGet {} s.slip.grants (grantKey q module ctx)

/-- This module's ID (spec/00 R19). -/
def ownModule (s : State) : Nat := s.fry.berth.toNat * 64 + s.fry.slot.toNat

/-- The next value the spec leaves open (log 3). -/
def takeFree (s : State) : Nat × State := (Config.free s.freeCtr, { s with freeCtr := s.freeCtr + 1 })

/-- Something leaves the block. -/
def emit (s : State) (o : Out) : State := { s with outs := o :: s.outs }

end Sys2Proof.Machine
end

