-- ==== Sys2Proof/Machine/Flags.lean ====
section
/-! DEFINITION. Status codes, the event log, fault records and HALT (spec/15 R385, spec/18 R461-R466, spec/04 R101). -/

namespace Sys2Proof.Machine

/-- The value of a status code (spec/15 Table 15-7). -/
def Status.code : Status → Nat
  | .ok => 0x00 | .short => 0x01 | .tieAtK => 0x02 | .lateCancel => 0x03 | .cancelled => 0x10 | .disabled => 0x11
  | .abortedDisabled => 0x12 | .mapOverflow => 0x20 | .mapHazard => 0x21 | .lengthExceeded => 0x22
  | .eccUncorrectable => 0x30 | .linkLost => 0x31 | .authFail => 0x40 | .versionMismatch => 0x41 | .internal => 0xFF

/-- The status a code names. -/
def Status.ofCode (v : Nat) : Option Status :=
  [Status.ok, .short, .tieAtK, .lateCancel, .cancelled, .disabled, .abortedDisabled, .mapOverflow, .mapHazard,
    .lengthExceeded, .eccUncorrectable, .linkLost, .authFail, .versionMismatch, .internal].find? fun x => x.code = v

/-- The statuses that let the next stage start (spec/15 R385). -/
def Status.good : Status → Bool
  | .ok | .short | .tieAtK => true
  | _ => false

/-- The statuses that may halt an engine context (spec/15 R385). -/
def Status.halts : Status → Bool
  | .mapOverflow | .mapHazard | .internal => true
  | _ => false

/-- The value of an event code (spec/18 Table 18-7). -/
def EvtCode.code : EvtCode → Nat
  | .badAccess => 0x01 | .protWrite => 0x02 | .ringRefused => 0x03 | .cmdFault => 0x10 | .mapOverflow => 0x11
  | .enableFailed => 0x12 | .eccUe => 0x20 | .dataLost => 0x21 | .rateLow => 0x30 | .pinned => 0x31
  | .ppsBehind => 0x32 | .pathLost => 0x40 | .berthRefused => 0x41 | .datagramDiscard => 0x42
  | .updateRejected => 0x50 | .stepAbandoned => 0x51 | .passageMissing => 0x52 | .badToken => 0x53
  | .bootCheck => 0x60 | .reset => 0x70

/-- The class of an event (spec/18 Table 18-7). -/
def EvtCode.cls : EvtCode → Nat
  | .badAccess | .ringRefused => 2
  | .protWrite | .datagramDiscard | .bootCheck => 6
  | .cmdFault | .mapOverflow | .enableFailed | .updateRejected | .stepAbandoned | .passageMissing | .badToken => 1
  | .eccUe | .dataLost => 3
  | .rateLow | .pinned | .ppsBehind => 5
  | .pathLost | .berthRefused => 4
  | .reset => 0

/-- An event's SOURCE from its KIND and INDEX (spec/18 Table 18-6). -/
def srcOf (kind index : Nat) : BitVec 16 := BitVec.ofNat 16 (kind * 4096 + index)

/-- The SOURCE of an engine's event. -/
def engSrc (e : Eng) : BitVec 16 := BitVec.ofNat 16 (engKey e)

/-- SOURCE KIND 15: none. -/
def srcNone : BitVec 16 := srcOf 15 0

/-- A count as a register holds it. -/
def w64 (n : Nat) : W64 := BitVec.ofNat 64 n

/-- Enter one event (spec/18 R462, R463, R465, R466): dropped and counted when the input buffer is full; else written
as entry HEAD, overwriting the oldest entry of a full log, with the alert bit of its class and the interrupt. -/
def logEntry (s : State) (e : EvtEntry) : State :=
  let v := s.evt
  if v.buf ≥ 256 then { s with evt := { v with drops := satAdd32 v.drops 1 } }
  else
    let full := v.head.toNat - v.tail.toNat ≥ 65536
    let cls := match e.code with | some c => c.cls | none => 0
    let s := { s with evt := { v with
      log := tabPut v.log (v.head.toNat % 65536) { e with seq := v.head, time := s.hub.time }
      head := v.head + 1
      tail := if full then v.tail + 1 else v.tail
      drops := if full then satAdd32 v.drops 1 else v.drops
      alert := v.alert ||| BitVec.ofNat 8 (2 ^ cls)
      buf := v.buf + 1 } }
    if v.irqEn then emit s (.irq v.irqHart.toNat .eventLog) else s

/-- Raise an event with its SOURCE and DETAIL. -/
def raise (s : State) (code : EvtCode) (src : BitVec 16) (detail : Bytes) : State :=
  logEntry s { code := some code, source := src, detail := detail }

/-- Whether ALERT_N is asserted (spec/18 R466, spec/19 R479). -/
def alertAsserted (s : State) : Bool := (s.evt.alert &&& s.evt.alertMask) ≠ 0 || s.pwr.tripAlert

/-- A register write that the agent may not make (spec/18 Table 18-7, PROT_WRITE). -/
def protWrite (s : State) (addr : Nat) (v : W64) : State :=
  raise s .protWrite srcNone (toLe 8 addr ++ toLe 8 v.toNat)

/-- A ring or mailbox write that is ignored (spec/18 Table 18-7, RING_REFUSED). -/
def ringRefused (s : State) (src : BitVec 16) (addr : Nat) (v : W64) : State :=
  raise s .ringRefused src (toLe 8 addr ++ toLe 8 v.toNat)

/-- The context a command's byte 1 names. -/
def cmdCtx (b : Bytes) : Nat := bits (fld b 1 1) 6 0

/-- A command's opcode. -/
def cmdOp (b : Bytes) : Nat := fld b 0 1

/-- A command fails with a status that halts: the fault record is written if none stands, the event is logged, and the
context halts (spec/04 R101). -/
def faultHalt (s : State) (e : Eng) (c : Nat) (q : QCmd) (st : Status) (o : Overflow) : State :=
  let s := modEng s e fun x => if x.fault.valid then x else { x with fault :=
    { valid := true, opcode := BitVec.ofNat 8 (cmdOp q.bytes), ctx := BitVec.ofNat 7 c,
      resource := BitVec.ofNat 8 o.resource, status := st, cmdSeq := q.seq } }
  let s := logEntry s
    (if st = .mapOverflow then
      { code := some .mapOverflow, source := engSrc e, ctx := some (BitVec.ofNat 7 c), status := st,
        mapId := BitVec.ofNat 16 o.mapId, cmdSeq := q.seq,
        detail := toLe 1 o.resource ++ toLe 1 (cmdOp q.bytes) ++ toLe 6 0 ++ toLe 8 o.claimed ++ toLe 8 o.required }
    else
      { code := some .cmdFault, source := engSrc e, ctx := some (BitVec.ofNat 7 c), status := st,
        cmdSeq := q.seq, detail := toLe 1 (cmdOp q.bytes) })
  modQ s e c fun x => { x with halt := true }

end Sys2Proof.Machine
end

