-- ==== Sys2Proof/Machine/Access.lean ====
section
/-! DEFINITION. How engines reach the unified range: memory windows (spec/14 R351), the wheelhouse region and the bundle
cache (spec/07 R157, spec/17 R432), uncorrectable words (spec/07 R182, R183, R492), regulators (spec/14 R359, R360), and
the residency of granules (spec/07 R159-R166, R184). -/

namespace Sys2Proof.Machine

/-- Work that may stop with a status; what it did before it stops stays done. -/
abbrev Act := ExceptT Status (StateM State)

/-- Run work: its status and the state it leaves. -/
def runAct (a : Act Unit) (s : State) : Status × State :=
  match (a.run s : Except Status Unit × State) with
  | (.ok _, t) => (.ok, t)
  | (.error e, t) => (e, t)

/-- Run work that ends with a status of its own. -/
def runActSt (a : Act Status) (s : State) : Status × State :=
  match (a.run s : Except Status Status × State) with
  | (.ok st, t) => (st, t)
  | (.error e, t) => (e, t)

/-- Run work whose failure has another value of its own. -/
def runActVal {α : Type} (a : Act α) (s : State) : Except Status α × State := a.run s

/-- Apply a function to the state. -/
def actMod (f : State → State) : Act Unit := modify f

/-- Stop with a status. -/
def stopIf (b : Bool) (st : Status) : Act Unit := if b then throw st else pure ()

/-- The end of the unified range (spec/01 Table 1-5). -/
def unifiedEnd : Nat := 0xC000000000
/-- The wheelhouse region starts here (spec/01 Table 1-5). -/
def wheelBase : Nat := 0xB000000000
/-- The bundle cache starts here (spec/17 R431). -/
def cacheBase : Nat := 0xBFE0000000
/-- The deck region that holds an address (spec/07 R155). -/
def deckOf (a : Nat) : Nat := a / 0x3000000000
/-- The stack, 4 × deck + stack, that is the home of an address (spec/07 R156). -/
def stackOf (a : Nat) : Nat := deckOf a * 4 + (a % 0x3000000000 / 4096) % 4

/-- Who makes an access: the SOURCE of its events, the context whose windows apply, the context whose partition is
charged (spec/14 R359), the deck of a deck engine, and whether it may reach the wheelhouse region (spec/07 R157). -/
structure Who where
  src : BitVec 16 := srcNone
  ctx : Option Nat := none
  pay : Option Nat := none
  deck : Option Nat := none
  wheel : Bool := true
  deriving DecidableEq, Repr

/-- An engine working for a context. -/
def whoOf (e : Eng) (c : Nat) : Who :=
  { src := engSrc e, ctx := some c, pay := some c, deck := if isHubEngine e then none else some (engDeck e),
    wheel := isHubEngine e }

/-- The purser, for a context or for none. -/
def whoPurser (c : Option Nat) : Who := { src := srcOf 8 0, ctx := c, pay := c }

/-! ### Windows (spec/14 R351) -/

/-- How far windows that permit the access cover from `a` on. -/
def coverTo (ws : List Window) (wr : Bool) : Nat → Nat → Nat
  | 0, a => a
  | f + 1, a =>
    match ws.find? (fun w => (if wr then w.wr else w.rd) && w.base.toNat ≤ a && a < w.limit.toNat) with
    | some w => coverTo ws wr f w.limit.toNat
    | none => a

/-- Whether every byte lies in some window of the partition that permits the access. -/
def windowsPermit (s : State) (p a n : Nat) (wr : Bool) : Bool :=
  let ws := (List.range 4).map fun w => tabGet {} (getPart s p).windows w
  n = 0 || a + n ≤ coverTo ws wr 5 a

/-- Whether an access may be made at all: range, wheelhouse region, bundle cache, windows. -/
def mayAccess (s : State) (w : Who) (a n : Nat) (wr : Bool) : Bool :=
  n = 0 ||
  (a + n ≤ unifiedEnd && (w.wheel || a + n ≤ wheelBase) && !(wr && a + n > cacheBase) &&
    (match w.ctx with | some c => windowsPermit s (ctxPart c) a n wr | none => true))

/-! ### Regulators (spec/14 R359, R360) -/

/-- A bucket admits a piece of `n` bytes. -/
def Bucket.pay (b : Bucket) (n : Nat) : Bucket := { b with tokens := b.tokens - 1000 * n }

/-- A piece at an enabled bucket: one that arrives, behind those that wait, or the first of these. -/
def Bucket.letIn (b : Bucket) (piece : Option Nat) : Bucket :=
  match piece, b.waiting with
  | some n, [] => if 0 ≤ b.tokens then b.pay n else { b with waiting := [n] }
  | some n, w => { b with waiting := w ++ [n] }
  | none, [] => b
  | none, n :: w => if 0 ≤ b.tokens then { b.pay n with waiting := w } else b

/-- A piece is charged to bucket `k` of a partition: an enabled bucket admits it or makes it wait. -/
def chargePiece (s : State) (p k n : Nat) : State :=
  let b := tabGet {} (getPart s p).buckets k
  if b.enable && n ≠ 0 then modPart s p fun x => { x with buckets := tabPut x.buckets k (b.letIn (some n)) } else s

/-- A transfer is charged in pieces of at most 4096 bytes. -/
def charge (s : State) (p k : Nat) : Nat → Nat → State
  | 0, _ => s
  | f + 1, n => if n ≤ 4096 then chargePiece s p k n else charge (chargePiece s p k 4096) p k f (n - 4096)

/-- Payload bytes on ferry links for a context (spec/14 Table 14-3). -/
def chargeFerry (s : State) (c n : Nat) : State := charge s (ctxPart c) 8 (n / 4096 + 1) n

/-! ### Uncorrectable words -/

/-- Whether the granule of an address is in a store. -/
def isResident (s : State) (a : Nat) : Bool := (tabFind s.mem.gran (a / 4096)).isSome

/-- Change a deck's counters. -/
def modDeck (s : State) (d : Nat) (f : DeckMem → DeckMem) : State :=
  { s with mem := { s.mem with decks := tabMod {} s.mem.decks d f } }

/-- Change a stack's error registers. -/
def modStack (s : State) (k : Nat) (f : StackErr → StackErr) : State :=
  { s with mem := { s.mem with stackErrs := tabMod {} s.mem.stackErrs k f } }

/-- The SOURCE of an HBM controller's event (spec/18 Table 18-6). -/
def hbmSrc (a : Nat) : BitVec 16 := srcOf 14 (stackOf a)

/-- An uncorrectable HBM word is found: counted, its address recorded if none stands, an event logged (spec/07 R182). -/
def noteHbmBad (s : State) (a : Nat) (scrub : Bool) : State :=
  let wa := a / 32 * 32
  let s := modStack s (stackOf a) fun x =>
    { x with ue := satAdd32 x.ue 1, ueValid := true, ueAddr := if x.ueValid then x.ueAddr else BitVec.ofNat 48 wa }
  logEntry s { code := some .eccUe, scrub := scrub, source := hbmSrc a, status := .eccUncorrectable,
               detail := toLe 8 wa ++ [0] }

/-- The deck of the store that holds the granule of an address. -/
def residentDeck (s : State) (a : Nat) : Nat :=
  match tabFind s.mem.gran (a / 4096) with
  | some g => g.store / 36
  | none => 0

/-- An uncorrectable SRAM word is found (spec/07 R183). -/
def noteSramBad (s : State) (src : BitVec 16) (a : Nat) (scrub : Bool) : State :=
  let s := modDeck s (residentDeck s a) fun x => { x with sramUe := satAdd32 x.sramUe 1 }
  logEntry s { code := some .eccUe, scrub := scrub, source := src, status := .eccUncorrectable,
               detail := toLe 8 (a / 8 * 8) ++ [1] }

/-- The first uncorrectable word a piece within one granule touches. -/
def badWordIn (s : State) (a n : Nat) : Option Nat :=
  if isResident s a then (s.mem.badSram.find? fun w => a < w * 8 + 8 && w * 8 < a + n).map (· * 8)
  else (s.mem.badHbm.find? fun w => a < w * 32 + 32 && w * 32 < a + n).map (· * 32)

/-- An access cut at granule boundaries. -/
def cuts : Nat → Nat → Nat → List (Nat × Nat)
  | 0, _, _ => []
  | f + 1, a, n =>
    if n = 0 then [] else
    let m := min n (4096 - a % 4096)
    (a, m) :: cuts f (a + m) (n - m)

/-- The pieces of an access. -/
def pieces (a n : Nat) : List (Nat × Nat) := cuts (n / 4096 + 2) a n

/-- Report the uncorrectable word at an address (spec/07 R182, R183). -/
def noteBad (s : State) (w : Who) (a : Nat) : State :=
  if isResident s a then noteSramBad s w.src a false else noteHbmBad s a false

/-- Charge one piece of an access to the HBM bucket of its deck when its granule is HOME (spec/14 Table 14-3). -/
def chargeHbm (s : State) (w : Who) (a n : Nat) : State :=
  match w.pay with
  | some c => if isResident s a then s else chargePiece s (ctxPart c) (deckOf a) n
  | none => s

/-- Read a piece within one granule. -/
def rdPiece (w : Who) (a n : Nat) : Act Bytes := do
  let s ← get
  match badWordIn s a n with
  | some b => set (noteBad s w b); throw .eccUncorrectable
  | none => set (chargeHbm s w a n); pure (memRead s.mem.bytes a n)

/-- Read bytes: INTERNAL where the access may not be made, ECC_UNCORRECTABLE at an uncorrectable word. -/
def rd (w : Who) (a n : Nat) : Act Bytes := do
  let s ← get
  stopIf (!mayAccess s w a n false) .internal
  (pieces a n).foldlM (fun acc p => do let b ← rdPiece w p.1 p.2; pure (acc ++ b)) []

/-- Whether an access of `n` bytes at `a` covers the ECC word `k` of size `z` whole. -/
def covers (z a n k : Nat) : Bool := a ≤ k * z && k * z + z ≤ a + n

/-- Write a piece within one granule (spec/07 R492): words covered whole are restored; an uncorrectable word covered in
part keeps everything. The flag says such a word was met. -/
def wrPiece (s : State) (w : Who) (a : Nat) (b : Bytes) : State × Bool :=
  let res := isResident s a
  let z := if res then 8 else 32
  let bad := if res then s.mem.badSram else s.mem.badHbm
  let blocked := bad.filter fun k => a < k * z + z && k * z < a + b.length && !covers z a b.length k
  let bad' := bad.filter fun k => !covers z a b.length k
  let bytes := if blocked = [] then memWrite s.mem.bytes a b
    else ((List.range b.length).zip b).foldl
      (fun m p => if blocked.contains ((a + p.1) / z) then m else memSet m (a + p.1) p.2) s.mem.bytes
  let gran := if res then tabMod {} s.mem.gran (a / 4096) (fun g => { g with dirty := true }) else s.mem.gran
  let s := { s with mem := { s.mem with
    bytes := bytes, gran := gran
    badSram := if res then bad' else s.mem.badSram
    badHbm := if res then s.mem.badHbm else bad' } }
  (blocked.foldl (fun s k => noteBad s w (k * z)) (chargeHbm s w a b.length), blocked ≠ [])

/-- Write bytes: INTERNAL, with nothing written, where the access may not be made; ECC_UNCORRECTABLE after the write
when it met an uncorrectable word it covers only in part. -/
def wr (w : Who) (a : Nat) (b : Bytes) : Act Unit := do
  let s ← get
  stopIf (!mayAccess s w a b.length true) .internal
  let r := (pieces a b.length).foldl
    (fun (acc : State × Bool) p =>
      let x := wrPiece acc.1 w p.1 ((b.drop (p.1 - a)).take p.2)
      (x.1, acc.2 || x.2)) (s, false)
  set r.1
  stopIf r.2 .eccUncorrectable

/-- Bytes whose values the spec leaves open, written as an access of `w`. -/
def wrFree (w : Who) (a n : Nat) : Act Unit := do
  let s ← get
  set { s with freeCtr := s.freeCtr + n }
  wr w a ((List.range n).map fun i => BitVec.ofNat 8 (Config.free (s.freeCtr + i)))

/-- Whether some region, given as (address, size), lies wholly or partly in the wheelhouse region (spec/07 R157). -/
def namesWheel (l : List (Nat × Nat)) : Bool :=
  l.any fun r => r.2 ≠ 0 && decide (wheelBase < r.1 + r.2) && decide (r.1 < unifiedEnd)

/-- A little-endian number of `n` bytes read from memory. -/
def rdNat (w : Who) (a n : Nat) : Act Nat := do return leNat (← rd w a n)

/-- A number written as `n` bytes. -/
def wrNat (w : Who) (a n v : Nat) : Act Unit := wr w a (toLe n v)

/-! ### Stores and residency (spec/07 R159-R166) -/

/-- Granules a store holds: 4096 in a core store, 8192 in a cluster store. -/
def storeSize (st : Nat) : Nat := if st % 36 < 32 then 4096 else 8192

/-- A context's pinned share in a store (spec/14 Tables 14-9, 14-10). -/
def shareIn (x : CtxCfg) (st : Nat) : Nat :=
  if st % 36 < 32 then if x.cores.getLsbD (st / 36 * 32 + st % 36) then x.pin.toNat else 0
  else if x.clusters.getLsbD (st / 36 * 4 + (st % 36 - 32)) then x.cpin.toNat else 0

/-- Whether a context still holds its shares: enabled, or its disable not finished. -/
def CtxCfg.holds (x : CtxCfg) : Bool := x.enable || x.disabling

/-- RESERVE of a store: the sum of the pinned shares (spec/07 R161). -/
def reserveOf (s : State) (st : Nat) : Nat :=
  ((s.prt.ctxs.filter fun p => p.2.holds).map fun p => shareIn p.2 st).sum

/-- PINNED of a store: granules pinned, each counted once. -/
def pinnedIn (s : State) (st : Nat) : Nat :=
  (s.mem.gran.filter fun p => p.2.store = st && p.2.pins ≠ []).length

/-- POOL_USED of a store. -/
def poolUsed (s : State) (st : Nat) : Nat :=
  (s.mem.gran.filter fun p => p.2.store = st && p.2.pins = []).length

/-- Granules a context pins in a store. -/
def ctxPinned (s : State) (c st : Nat) : Nat :=
  (s.mem.gran.filter fun p => p.2.store = st && p.2.pins.any (·.1 = c)).length

/-- Room the pool of a store has in all. -/
def poolRoom (s : State) (st : Nat) : Nat := storeSize st - reserveOf s st

/-- The pool granule to evict: the largest age, then the lowest address (spec/07 R166). -/
def victim (s : State) (st : Nat) : Option Nat :=
  (s.mem.gran.foldl (fun (best : Option (Nat × Nat)) p =>
    if p.2.store = st && p.2.pins = [] then
      match best with
      | some (_, age) => if age < p.2.age.toNat then some (p.1, p.2.age.toNat) else best
      | none => some (p.1, p.2.age.toNat)
    else best) none).map (·.1)

/-- A dirty granule is written back to HBM: its uncorrectable SRAM words keep their bits with fresh check bits, and one
event marks the data as lost (spec/07 R184). -/
def writeBack (s : State) (g : Nat) : State :=
  let lost := s.mem.badSram.any fun k => k / 512 = g
  let d := residentDeck s (g * 4096)
  let s := if lost then raise (modDeck s d fun x => { x with sramUe := satAdd32 x.sramUe 1 })
    .dataLost (srcOf 1 (d * 8)) (toLe 8 (g * 4096)) else s
  let s := modDeck s d fun x => { x with writeback := x.writeback + 1 }
  { s with mem := { s.mem with badSram := s.mem.badSram.filter (fun k => k / 512 ≠ g)
                               badHbm := s.mem.badHbm.filter (fun k => k / 128 ≠ g) } }

/-- A granule leaves its store: written back if dirty, and HOME. -/
def sendHome (s : State) (g : Nat) : State :=
  let s := match tabFind s.mem.gran g with
    | some x => if x.dirty then writeBack s g else s
    | none => s
  { s with mem := { s.mem with gran := tabDel s.mem.gran g, badSram := s.mem.badSram.filter (fun k => k / 512 ≠ g) } }

/-- Evict one granule, for a context (spec/07 R166); a write-back is charged to the deck's migration bucket. -/
def evictOne (s : State) (c st g : Nat) : State :=
  let dirty := match tabFind s.mem.gran g with | some x => x.dirty | none => false
  let s := sendHome s g
  let s := modDeck s (st / 36) fun x => { x with evicted := x.evicted + 1 }
  if dirty then chargePiece s (ctxPart c) (4 + st / 36) 4096 else s

/-- Make room for `need` granules in a store's pool (spec/07 R166); the flag says there is room. -/
def makeRoom (c st need : Nat) : Nat → State → State × Bool
  | 0, s => (s, decide (poolUsed s st + need ≤ poolRoom s st))
  | f + 1, s =>
    if poolUsed s st + need ≤ poolRoom s st then (s, true) else
    match victim s st with
    | some g => makeRoom c st need f (evictOne s c st g)
    | none => (s, false)

/-- The first uncorrectable HBM word of a granule. -/
def badInHome (s : State) (g : Nat) : Option Nat := (s.mem.badHbm.find? fun k => k / 128 = g).map (· * 32)

/-- The first uncorrectable SRAM word of a granule. -/
def badInStore (s : State) (g : Nat) : Option Nat := (s.mem.badSram.find? fun k => k / 512 = g).map (· * 8)

/-- Record a granule in a store. -/
def setGran (s : State) (g : Nat) (x : Gran) : State :=
  { s with mem := { s.mem with gran := tabPut s.mem.gran g x } }

/-- Count a granule brought into a store and charge its migration (spec/07 Table 7-6, spec/14 Table 14-3). -/
def countFetched (s : State) (c st : Nat) : State :=
  chargePiece (modDeck s (st / 36) fun x => { x with fetched := x.fetched + 1 }) (ctxPart c) (4 + st / 36) 4096

end Sys2Proof.Machine
end

