-- ==== Sys2Proof/Machine/Wire.lean ====
section
/-! DEFINITION. Frames on the wire (spec/16 R393, R411, R412, Tables 16-1 and 16-5): the Ethernet header in IEEE 802.3 byte
order, the 48-byte ferry header in little-endian order, the FCS, and the frames that a ferry port does not take. -/

namespace Sys2Proof.Machine

/-- Bytes of a number, most significant first. -/
def toBe (n v : Nat) : Bytes := (toLe n v).reverse

/-- The number that bytes spell, most significant first. -/
def beNat (b : Bytes) : Nat := leNat b.reverse

/-- The field of `n` bytes at offset `off`, most significant first. -/
def beFld (b : Bytes) (off n : Nat) : Nat := beNat ((b.drop off).take n)

/-! ### The frame check sequence -/

/-- One bit of the IEEE 802.3 CRC. -/
def crcBit (c : Nat) : Nat := if c % 2 = 1 then c / 2 ^^^ 0xEDB88320 else c / 2

/-- One byte of it. -/
def crcByte (c : Nat) (b : Byte) : Nat := (List.range 8).foldl (fun c _ => crcBit c) (c ^^^ b.toNat)

/-- The four FCS bytes of a frame (spec/16 Table 16-1: IEEE 802.3). -/
def fcs (b : Bytes) : Bytes := toLe 4 (b.foldl crcByte 0xFFFFFFFF ^^^ 0xFFFFFFFF)

/-- The frame before its FCS, where the FCS is right. -/
def checkFcs (b : Bytes) : Option Bytes :=
  let n := b.length - 4
  if 4 ≤ b.length && b.drop n == fcs (b.take n) then some (b.take n) else none

/-- A PAUSE or priority flow control frame: EtherType 0x8808, opcode 0x0001 or 0x0101 (spec/16 Table 16-1). -/
def isPause (b : Bytes) : Bool := beFld b 12 2 = 0x8808 && (beFld b 14 2 = 1 || beFld b 14 2 = 0x0101)

/-! ### The ferry header (spec/16 Table 16-5) -/

/-- The code of a TYPE. -/
def ftypeCode : FType → Nat
  | .data => 0 | .control => 1 | .nack => 2 | .sync => 3 | .syncAck => 4 | .hello => 5

/-- The TYPE of a code; none where it is reserved. -/
def ftypeOf : Nat → Option FType
  | 0 => some .data | 1 => some .control | 2 => some .nack | 3 => some .sync | 4 => some .syncAck | 5 => some .hello
  | _ => none

/-- Offsets 32 to 47 of the header: the grants, or the operation's ADDR, OFFSET and ARG. -/
def headerTail (f : FFrame) : Bytes :=
  match f.grants with
  | some g => ((List.range 8).map fun v => toLe 2 (g.getD v 0)).flatten
  | none => toLe 8 f.addr ++ toLe 4 f.offset ++ toLe 4 f.arg

/-- The 48 bytes of a ferry header. -/
def ferryHeader (f : FFrame) : Bytes :=
  toLe 1 1 ++ toLe 1 (ftypeCode f.typ) ++
  toLe 1 (f.vc % 8 + 8 * b2n f.grants.isSome + 16 * b2n f.resync + 32 * b2n f.last) ++ toLe 1 (f.ctx % 128) ++
  toLe 2 (f.src % 4096) ++ toLe 2 (f.dst % 4096) ++ toLe 4 f.seq.toNat ++
  toLe 4 (match f.ack with | some a => 2 ^ 31 + a.toNat | none => 0) ++ toLe 2 f.gen.toNat ++ toLe 1 f.op ++
  toLe 1 (match f.credit with | some (v, _) => 128 + v % 8 | none => 0) ++
  toLe 4 (match f.credit with | some (_, c) => c.toNat | none => 0) ++
  toLe 2 f.payload.length ++ toLe 2 0 ++ toLe 4 f.tag.toNat ++ headerTail f

/-- The 802.1Q tag of a path: PCP in [15:13], VID in [11:0] (spec/16 Tables 16-1 and 16-11). -/
def tagBytes (e : PathEntry) : Bytes :=
  if e.tagged then toBe 2 0x8100 ++ toBe 2 (e.pcp.toNat * 8192 + e.vid.toNat) else []

/-- A ferry frame on the wire: addresses, the path's tag, FRY_ETHERTYPE, header, payload, FCS (spec/16 R411). A HELLO is on
no path and carries no tag. -/
def ferryWire (s : State) (x : Nat) (mac : BitVec 48) (f : FFrame) : Bytes :=
  let tag := if f.typ = .hello then [] else tagBytes (tabGet {} s.fry.entries x)
  let b := toBe 6 mac.toNat ++ toBe 6 f.mac.toNat ++ tag ++ toBe 2 s.fry.ethertype.toNat ++ ferryHeader f ++ f.payload
  b ++ fcs b

/-- The operations of spec/16 Table 16-7. -/
def listedOp (op : Nat) : Bool := 1 ≤ op && op ≤ 0x0D

/-- The reserved fields of a header are zero (spec/16 Table 16-5). -/
def headerOk (h : Bytes) : Bool :=
  bits (fld h 2 1) 7 6 = 0 && !bit (fld h 3 1) 7 &&
  bits (fld h 4 2) 15 12 = 0 && bits (fld h 6 2) 15 12 = 0 && bits (fld h 8 4) 31 24 = 0 &&
  bits (fld h 12 4) 30 24 = 0 && bits (fld h 19 1) 6 3 = 0 && zeroAt h 26 2

/-- The frame that bytes on the wire spell to a ferry port; none where the port discards them (spec/16 R412, Table 16-1): a
bad FCS, a length outside 66 to 8,262, PAUSE, another EtherType or VERSION, a reserved field, TYPE or OP, or another
module's frame. A tag is accepted. -/
def ferryParse (s : State) (bytes : Bytes) : Option FFrame :=
  match checkFcs bytes with
  | none => none
  | some b =>
    let t := if beFld b 12 2 = 0x8100 then 4 else 0
    let h := (b.drop (14 + t)).take 48
    let n := fld h 24 2
    if bytes.length < 66 || 8262 < bytes.length || isPause b || beFld b (12 + t) 2 ≠ s.fry.ethertype.toNat ||
        fld h 0 1 ≠ 1 || !headerOk h || 8192 < n || (b.drop (62 + t)).length < n then none
    else match ftypeOf (fld h 1 1) with
      | none => none
      | some typ =>
        let grants := bit (fld h 2 1) 3 && typ ≠ .data
        if (typ = .data && !listedOp (fld h 18 1)) || (typ ≠ .hello && fld h 6 2 ≠ ownModule s) then none
        else some {
          typ := typ, vc := bits (fld h 2 1) 2 0, resync := bit (fld h 2 1) 4, last := bit (fld h 2 1) 5,
          ctx := fld h 3 1, src := fld h 4 2, dst := fld h 6 2, seq := BitVec.ofNat 24 (fld h 8 4),
          ack := if bit (fld h 12 4) 31 then some (BitVec.ofNat 24 (fld h 12 4)) else none,
          gen := BitVec.ofNat 16 (fld h 16 2), op := fld h 18 1,
          credit := if bit (fld h 19 1) 7 then some (bits (fld h 19 1) 2 0, BitVec.ofNat 32 (fld h 20 4)) else none,
          tag := BitVec.ofNat 32 (fld h 28 4),
          addr := if grants then 0 else fld h 32 8, offset := if grants then 0 else fld h 40 4,
          arg := if grants then 0 else fld h 44 4, payload := (b.drop (62 + t)).take n,
          grants := if grants then some ((List.range 8).map fun v => fld h (32 + 2 * v) 2) else none,
          mac := BitVec.ofNat 48 (beFld b 6 6) }

end Sys2Proof.Machine
end

