-- ==== Sys2Proof/Machine/Ferry.lean ====
section
/-! DEFINITION. Paths between modules (spec/16 R404-R415): path state, generations, sequence numbers, acknowledgement,
credits and grants, and the sending of frames. What an operation does with a frame stands with its engine. -/

namespace Sys2Proof.Machine

/-- A port at reset: port 15 is enabled (spec/16 R394). -/
def portReset (p : Nat) : PortSt := if p = 15 then { enable := true } else {}

/-- A port. -/
def getPort (s : State) (p : Nat) : PortSt := tabGet (portReset p) s.fry.ports p

/-- Change the ferry block. -/
def modFry (s : State) (f : FrySt → FrySt) : State := { s with fry := f s.fry }

/-- Change a port. -/
def modPort (s : State) (p : Nat) (f : PortSt → PortSt) : State :=
  modFry s fun x => { x with ports := tabPut x.ports p (f (getPort s p)) }

/-- The key of a path. -/
def pathKey (p x : Nat) : Nat := p * 4096 + x

/-- The path of port `p` to module `x`. -/
def getPath (s : State) (p x : Nat) : PathSt := tabGet {} s.fry.paths (pathKey p x)

/-- Change a path. -/
def modPath (s : State) (p x : Nat) (f : PathSt → PathSt) : State :=
  modFry s fun y => { y with paths := tabMod {} y.paths (pathKey p x) f }

/-- The path table entry of module `x`. -/
def getEntry (s : State) (x : Nat) : PathEntry := tabGet {} s.fry.entries x

/-- A ferry port in service with its link up. -/
def ferryLive (s : State) (p : Nat) : Bool := (getPort s p).enable && (getPort s p).mode = 0 && (getPort s p).link

/-- Whether a ferry port carries frames now: none during a calibration (spec/14 R363). -/
def portCarries (s : State) (p : Nat) : Bool := ferryLive s p && !(getPort s p).cal

/-- The MAC address frames to module `x` on port `p` go to (spec/16 R405). -/
def destMac (s : State) (p x : Nat) : BitVec 48 :=
  match tabFind s.fry.learned (pathKey p x) with
  | some m => m
  | none => (getEntry s x).mac

/-- Cells a DATA frame occupies (spec/16 R414). -/
def frameCells (f : FFrame) : Nat := ceilDiv (48 + f.payload.length) 256

/-- What a path counts for a channel. -/
def getVc (x : PathSt) (v : Nat) : VcCount := tabGet {} x.vcs v

/-- Change a channel's counts. -/
def modVc (x : PathSt) (v : Nat) (f : VcCount → VcCount) : PathSt := { x with vcs := tabMod {} x.vcs v f }

/-- A frame goes out on a port. -/
def sendWire (s : State) (p : Nat) (w : BitVec 48 × FFrame × Bytes) : State :=
  emit (modPort s p fun y => { y with txFrames := y.txFrames + 1 }) (.ferry p w.1 w.2.1 w.2.2)

/-- Put a frame on the wire, or where the port is being calibrated have it wait: source, destination, generation, acknowledgement and credit filled in (spec/16 R408,
Table 16-5); the acknowledgement it carries leaves none unsent. A HELLO is on no path. -/
def transmit (s : State) (p x : Nat) (f : FFrame) : State :=
  let q := getPath s p x
  let f := { f with
    src := ownModule s, dst := if f.typ = .hello then 0 else x
    gen := if f.typ = .sync || f.typ = .syncAck then f.gen else q.gen
    ack := if f.typ = .hello then none else some q.exp
    credit := if q.state = .up then some (q.lastVc, (getVc q q.lastVc).freed) else none
    mac := (getPort s p).mac }
  let mac := if f.typ = .hello then s.fry.groupMac else destMac s p x
  let w := ferryWire s x mac f
  let s := modPath s p x fun y => { y with unsentAcks := 0 }
  if (getPort s p).cal then modPort s p fun y => { y with wait := y.wait ++ [(mac, f, w)] }
  else sendWire s p (mac, f, w)

/-- The SOURCE of a ferry port's events. -/
def portSrc (p : Nat) : BitVec 16 := srcOf 9 p

/-- Whether some path to module `x` is up on port `p` (spec/16 R404). -/
def pathUp (s : State) (p x : Nat) : Bool := (getPath s p x).state = .up

/-- The modules a port has a path to that is syncing or up. -/
def livePaths (s : State) (p : Nat) : List Nat :=
  (s.fry.paths.filter fun k => k.1 / 4096 = p && (k.2.state = .syncing || k.2.state = .up)).map (·.1 % 4096)

/-- The cells of a port's receive buffer that a channel has (spec/16 R414). -/
def shareCells (s : State) (p v : Nat) : Nat := bits (getPort s p).vcShare.toNat (8 * v + 7) (8 * v) * 64

/-- A port's grant to each of its live paths on a channel (spec/16 R414). -/
def grantShare (s : State) (p v : Nat) : Nat :=
  let n := (livePaths s p).length
  if n = 0 then 0 else shareCells s p v / n

/-- The eight grants a port gives a live path. -/
def grantList (s : State) (p : Nat) : List Nat := (List.range 8).map (grantShare s p)

/-- Record the grants given to a path. -/
def giveGrants (s : State) (p x : Nat) (g : List Nat) : State :=
  modPath s p x fun y => g.zipIdx.foldl (fun y gv => modVc y gv.2 fun c =>
    { c with given := gv.1, most := max c.most gv.1 }) y

/-- Recompute a port's grants and announce them to its up paths, lowered grants before raised ones. The cells of every frame
received are free again by then, so nothing a lowered path still holds keeps another from being raised (spec/16 R414, log 20). -/
def announceGrants (s : State) (p : Nat) : State :=
  let g := grantList s p
  let old := fun x => (List.range 8).map fun v => (getVc (getPath s p x) v).given
  let ups := (livePaths s p).filter fun x => pathUp s p x && old x ≠ g
  let falls := fun x => ((old x).zip g).any fun ab => ab.2 < ab.1
  (ups.filter falls ++ ups.filter fun x => !falls x).foldl (fun s x =>
    let s := giveGrants s p x g
    transmit s p x { typ := .control, grants := some g }) s

/-- Send a SYNC with the path's open proposal (spec/16 R406). -/
def sendSync (s : State) (p x : Nat) : State :=
  match (getPath s p x).proposal with
  | some g =>
    let gr := grantList s p
    let s := giveGrants s p x gr
    transmit s p x { typ := .sync, gen := g, grants := some gr }
  | none => s

/-- A path becomes syncing and proposes the next generation; the grants it lowers are announced before its own (spec/16 R406,
R414). -/
def startSync (s : State) (p x : Nat) : State :=
  let s := modPath s p x fun y => { state := .syncing, gen := y.gen, proposal := some (y.gen + 1) }
  sendSync (announceGrants s p) p x

/-- Apply the grants a frame carries. -/
def applyGrants (s : State) (p x : Nat) (f : FFrame) : State :=
  match f.grants with
  | some g => modPath s p x fun y => g.zipIdx.foldl (fun y gv => modVc y gv.2 fun c => { c with grant := gv.1 }) y
  | none => s

/-- Frames acknowledged by ACK `a`: those sent before it. -/
def ackedBy (a : BitVec 24) (f : FFrame) : Bool :=
  let d := (a - f.seq).toNat
  0 < d && d < 2 ^ 23

/-- Apply the acknowledgement and credit a frame carries (spec/16 R408, R415). -/
def applyAck (s : State) (p x : Nat) (f : FFrame) : State :=
  modPath s p x fun y =>
    let y := match f.ack with
      | some a =>
        let done := y.unacked.filter (ackedBy a)
        let y := { y with unacked := y.unacked.filter (fun g => !ackedBy a g)
                          resends := if done = [] then y.resends else 0 }
        done.foldl (fun y g => modVc y g.vc fun c => { c with acked := c.acked + BitVec.ofNat 32 (frameCells g) }) y
      | none => y
    match f.credit with
    | some (v, c) => modVc y v fun z => { z with credit := c }
    | none => y

/-- A frame received on a path counts, and its acknowledgement, credit and grants apply (spec/16 R408). -/
def takeControl (s : State) (p x : Nat) (f : FFrame) : State :=
  applyGrants (applyAck s p x f) p x f

/-- Count a frame discarded on a port. -/
def dropFrame (s : State) (p : Nat) : State := modPort s p fun y => { y with dropped := y.dropped + 1 }

/-- Whether a frame belongs to the path's current generation on a live port (spec/16 R406, R412). -/
def frameCurrent (s : State) (p : Nat) (f : FFrame) : Bool :=
  ferryLive s p && pathUp s p f.src && f.gen = (getPath s p f.src).gen && f.dst = ownModule s

/-- The channel an operation travels on (spec/16 Table 16-6). -/
def opVc (op : Nat) : Nat :=
  match op with
  | 0x0C | 0x07 | 0x09 => 0
  | 0x03 => 1
  | 0x02 | 0x04 | 0x06 | 0x0A => 2
  | 0x01 | 0x05 => 3
  | 0x08 => 4
  | 0x0D => 7
  | _ => 6

/-- A DATA frame waits to be sent on a path. -/
def queueFrame (s : State) (p x : Nat) (f : FFrame) : State :=
  modPath s p x fun y => { y with sendq := y.sendq ++ [f] }

/-- A reply on the path a frame came by. -/
def replyTo (s : State) (p : Nat) (f : FFrame) (op arg : Nat) : State :=
  queueFrame s p f.src { op := op, vc := opVc op, ctx := f.ctx, tag := f.tag, arg := arg }

/-- Refuse an operation with a STATUS frame (spec/16 R403). -/
def refuseOp (s : State) (p : Nat) (f : FFrame) (st : Status) : State := replyTo s p f 0x0A st.code

/-- Whether a frame finds free cells: every cell of the channel is free when a frame arrives, those of a share that was lowered
since its grant among them (spec/16 R407, R414, log 20). -/
def cellsFree (s : State) (p : Nat) (f : FFrame) : Bool :=
  frameCells f ≤ max (shareCells s p f.vc) (getVc (getPath s p f.src) f.vc).most

/-- Accept the frame expected: it counts, its cells are free again, and the sixteenth that is not acknowledged is acknowledged
at once (spec/16 R407, R408, R414). -/
def acceptFrame (s : State) (p : Nat) (f : FFrame) : State :=
  let s := modPath s p f.src fun y =>
    let y : PathSt := { y with exp := y.exp + 1, unsentAcks := y.unsentAcks + 1, lastVc := f.vc }
    modVc y f.vc fun c => { c with freed := c.freed + BitVec.ofNat 32 (frameCells f) }
  let s := modPort s p fun y => { y with rxFrames := y.rxFrames + 1 }
  if 16 ≤ (getPath s p f.src).unsentAcks then transmit s p f.src { typ := .control } else s

/-- Receive a DATA frame (spec/16 R407): the flag says it is accepted. A frame to another module is discarded and counted
(R412), one of another generation is discarded (R406), and one that finds no free cell is as if lost. -/
def acceptData (s : State) (p : Nat) (f : FFrame) : State × Bool :=
  if !portCarries s p then (s, false)
  else if f.dst ≠ ownModule s then (dropFrame s p, false)
  else if !frameCurrent s p f then (s, false)
  else if !cellsFree s p f then (dropFrame s p, false)
  else
    let x := f.src
    let s := takeControl s p x f
    let q := getPath s p x
    let d := (f.seq - q.exp).toNat
    if d = 0 then (acceptFrame s p f, true)
    else
      let s := dropFrame s p
      if d < 2 ^ 23 then
        let fresh := match q.nacked with
          | some (e, t) => e ≠ q.exp || s.hub.time.toNat - t.toNat ≥ s.fry.rtoUs.toNat * 1000
          | none => true
        if fresh then
          let s := modPath s p x fun y => { y with nacked := some (q.exp, s.hub.time) }
          (transmit s p x { typ := .nack }, false)
        else (s, false)
      else (transmit s p x { typ := .control }, false)

/-- Choose the port of the next operation toward module `x`: the paths that are up, in round robin (spec/16 R404). -/
def choosePort (s : State) (x : Nat) : Option (Nat × State) :=
  let e := getEntry s x
  let last := tabGet 15 s.fry.turn x
  let cand := (List.range 16).map fun i => (last + 1 + i) % 16
  match cand.find? fun p => e.valid && e.ports.getLsbD p && ferryLive s p && pathUp s p x with
  | some p => some (p, modFry s fun y => { y with turn := tabPut y.turn x p })
  | none => none

/-- Start an operation: it gets its tag, unique among those in flight (spec/16 Table 16-5). -/
def startOp (s : State) (p x total : Nat) (w : Waiter) : BitVec 32 × State :=
  let t := s.fry.nextTag
  (t, modFry s fun y => { y with nextTag := y.nextTag + 1,
                                 ops := tabPut y.ops t.toNat { port := p, module := x, total := total, waiter := w } })

/-- Bytes cut into payloads of at most 8,192, with their offsets. -/
def payloads : Nat → Nat → Bytes → List (Nat × Bytes)
  | 0, _, _ => []
  | f + 1, o, b => if b = [] then [] else (o, b.take 8192) :: payloads f (o + 8192) (b.drop 8192)

/-- The frames of a WRITE (spec/16 Table 16-7). -/
def queueWrite (s : State) (p x vc ctx : Nat) (tag : BitVec 32) (addr : Nat) (b : Bytes) : State :=
  (payloads (b.length / 8192 + 1) 0 b).foldl (fun s ob =>
    queueFrame s p x { op := 1, vc := vc, ctx := ctx, tag := tag, addr := addr, offset := ob.1, arg := b.length,
                       payload := ob.2 }) s

/-- What a purser tells the purser of another module: a PURSER frame on a path that is up; without one it is not sent
(spec/16 R404, R417, log 94). -/
def purserSend (s : State) (m : Nat) (msg : PurserMsg) : State :=
  match choosePort s m with
  | some (p, s) => queueFrame s p m { op := 0x0C, vc := 0, payload := (Config.purserBytes msg).take 8192, msg := some msg }
  | none => s

/-- Bytes the retransmit buffer of a port holds (spec/16 R409). -/
def retransmitBytes (s : State) (p : Nat) : Nat :=
  ((s.fry.paths.filter fun k => k.1 / 4096 = p).map fun k =>
    (k.2.unacked.map fun f => 48 + f.payload.length).sum).sum

/-- Cells of a path's unacknowledged frames on a channel. -/
def unackedCells (q : PathSt) (v : Nat) : Nat := ((q.unacked.filter fun f => f.vc = v).map frameCells).sum

/-- FERRY_FRAME_SEND: the first waiting frame of a channel goes out when credit and retransmit room allow
(spec/16 R409, R415). -/
def sendData (s : State) (p x v : Nat) : State :=
  let q := getPath s p x
  match q.sendq.find? fun f => f.vc = v with
  | none => s
  | some f =>
    let c := getVc q v
    let inUse := unackedCells q v + (c.acked - c.credit).toNat + frameCells f
    if !(ferryLive s p && q.state = .up) || (getPort s p).cal || c.grant < inUse ||
        2097152 < retransmitBytes s p + 48 + f.payload.length || 2 ^ 23 ≤ q.unacked.length + 1 then s
    else
      let f := { f with seq := q.nextSeq }
      let s := modPath s p x fun y => { y with sendq := y.sendq.erase { f with seq := 0 }, nextSeq := y.nextSeq + 1,
                                               unacked := y.unacked ++ [f] }
      transmit s p x f

/-- Resend frames of a path (spec/16 R409). -/
def resend (s : State) (p x : Nat) (fs : List FFrame) : State :=
  fs.foldl (fun s f => modPort (transmit s p x f) p fun y => { y with resent := y.resent + 1 }) s

end Sys2Proof.Machine
end

