-- ==== Sys2Proof/Machine/Engine.lean ====
section
/-! DEFINITION. Engine queues: the offer of a command (spec/15 R380, spec/14 R346, R350, spec/05 R120), the round robin
(spec/14 R354), completion with its fault and report (spec/04 R101, spec/15 R381), and progress records (spec/05 R124). -/

namespace Sys2Proof.Machine

/-! ### The round robin (spec/14 R354) -/

/-- How far a turn lies ahead of the scan's position, among the 16 × 128 turns of a round. -/
def turnDistance (pos : RrPos) (pass ctx : Nat) : Nat :=
  (pass * 128 + ctx + 2048 - (pos.pass * 128 + pos.ctx) % 2048) % 2048

/-- The nearest turn of a context: its passes are those below its WEIGHT. -/
def nearestTurn (pos : RrPos) (ctx : Nat) : Nat → Option Nat
  | 0 => none
  | w + 1 =>
    let d := turnDistance pos w ctx
    match nearestTurn pos ctx w with
    | some d' => some (min d d')
    | none => some d

/-- The next turn among the ready contexts: its distance and context. -/
def nextTurn (s : State) (pos : RrPos) (ready : List Nat) : Option (Nat × Nat) :=
  ready.foldl (fun best c =>
    match nearestTurn pos c (getCtx s c).weight.toNat, best with
    | some d, some (d', c') => if d < d' then some (d, c) else some (d', c')
    | some d, none => some (d, c)
    | none, b => b) none

/-- The position after a turn at distance `d`. -/
def afterTurn (pos : RrPos) (d : Nat) : RrPos :=
  let i := (pos.pass * 128 + pos.ctx + d + 1) % 2048
  { pass := i / 128, ctx := i % 128 }

/-- Take the turn of context `c` on unit `u` of an engine, if the turn is its. -/
def takeTurn (s : State) (e : Eng) (u c : Nat) (ready : List Nat) : Option State :=
  let pos := tabGet {} (getEng s e).rr u
  match nextTurn s pos ready with
  | some (d, c') =>
    if c' = c then some (modEng s e fun x => { x with rr := tabPut x.rr u (afterTurn pos d) }) else none
  | none => none

/-- The contexts with something on an engine. -/
def engContexts (s : State) (e : Eng) : List Nat := (getEng s e).ctxs.map (·.1)

/-- The command at the head of a context's queue, unless the context is halted. -/
def headCmd (s : State) (e : Eng) (c : Nat) : Option QCmd :=
  let x := getQ s e c
  if x.halt then none else x.queue.head?

/-- Take the command at the head of a context's queue off. -/
def popQ (s : State) (e : Eng) (c : Nat) : State := modQ s e c fun x => { x with queue := x.queue.tail }

/-- Change the command at the head of a queue. -/
def modHead (s : State) (e : Eng) (c : Nat) (f : QCmd → QCmd) : State :=
  modQ s e c fun x => { x with queue := match x.queue with | q :: t => f q :: t | [] => [] }

/-- Mark the command at the head of a queue as checked. -/
def markHead (s : State) (e : Eng) (c : Nat) : State := modHead s e c fun q => { q with checked := true }

/-- One more unit of the command at the head of a queue has run, and it stays there. -/
def countUnit (s : State) (e : Eng) (c : Nat) : State := modHead s e c fun q => { q with units := q.units + 1 }

/-! ### Purser commands end (spec/15 R369, R375) -/

/-- A purser command completes: its record waits in its mailbox for the completion ring. -/
def endCmd (s : State) (id : Nat) (st : Status) (detail : W64) : State :=
  match getCmd s id with
  | none => s
  | some c =>
    let s := { s with pur := { s.pur with cmds := tabDel s.pur.cmds id } }
    modMb s c.mb fun m => { m with held := m.held ++
      [{ seq := c.seq, status := st, opcode := c.opcode, tag := c.tag, detail := detail }] }

/-- Commands of an ENQUEUE that stay queued behind a halt. -/
def queuedBehind (s : State) (e : Eng) (id : Nat) : Nat :=
  (((getEng s e).ctxs.filter fun p => p.2.halt).map fun p =>
    (p.2.queue.filter fun q => match q.origin with | some (i, _) => i = id | none => false).length).sum

/-- DETAIL of an ENQUEUE's completion (spec/15 R381). -/
def enqDetail (idx : Option Nat) (offered : Nat) : W64 := w64 (idx.getD 0xFFFFFFFF * 2 ^ 32 + offered % 2 ^ 32)

/-- End an ENQUEUE whose offered commands have all completed, or stay queued behind a halt of one of them
(spec/15 R381). -/
def settleEnqueue (s : State) (id : Nat) : State :=
  match getCmd s id with
  | none => s
  | some c =>
    match c.enq with
    | none => s
    | some q =>
      match q.haltFail with
      | some (i, st) =>
        if q.accepted - q.ended = queuedBehind s q.eng id then endCmd s id st (enqDetail (some i) q.offered) else s
      | none =>
        if (q.stopped || q.next = q.count) && q.ended = q.accepted then
          match q.firstFail with
          | some (i, st) => endCmd s id st (enqDetail (some i) q.offered)
          | none => endCmd s id .ok (enqDetail none q.offered)
        else s

/-- The earlier, in list order, of the failures of an ENQUEUE. -/
def earlierFail (a : Option (Nat × Status)) (i : Nat) (st : Status) : Option (Nat × Status) :=
  match a with
  | some (j, t) => if i < j then some (i, st) else some (j, t)
  | none => some (i, st)

/-- A MIGRATE ordered by the module that balances its table has ended: that module may order the next (spec/11 R280). -/
def moverDone (s : State) (id m : Nat) : State :=
  let s := { s with pur := { s.pur with cmds := tabDel s.pur.cmds id } }
  if m = ownModule s then { s with gth := { s.gth with moving := none } } else purserSend s m .migrated

/-- Whether the purser still needs what it runs for itself: a choice of a token only while its request is there. -/
def PCmd.wanted (s : State) (id : Nat) (c : PCmd) : Bool :=
  c.work ≠ .sample || s.pur.reqs.any fun r => r.2.sampler = some id

/-- An engine command that a stage, or the purser for itself, has offered has completed. -/
def stageReport (s : State) (id i : Nat) (c : PCmd) (st : Status) : State :=
  match c.mover with
  | some m => moverDone s id m
  | none =>
    if c.work = .none then putCmd s id { c with done := tabPut c.done i st }
    else if c.wanted s id then putCmd s id { c with jobs := [], done := tabPut c.done i st }
    else { s with pur := { s.pur with cmds := tabDel s.pur.cmds id } }

/-- A command offered by an ENQUEUE or a stage has completed. -/
def reportCmd (s : State) (origin : Option (Nat × Nat)) (st : Status) : State :=
  match origin with
  | none => s
  | some (id, i) =>
    match getCmd s id with
    | none => s
    | some c =>
      match c.enq with
      | none => stageReport s id i c st
      | some q =>
        let q := { q with
          ended := q.ended + 1
          firstFail := if st.good then q.firstFail else earlierFail q.firstFail i st
          haltFail := if st.halts && q.haltFail = none then some (i, st) else q.haltFail }
        settleEnqueue (putCmd s id { c with enq := some q }) id

/-! ### Cores' maps (spec/05) -/

/-- A core. -/
def getCore (s : State) (k : Nat) : CoreSt := tabGet {} s.cores k

/-- Change a core. -/
def modCore (s : State) (k : Nat) (f : CoreSt → CoreSt) : State := { s with cores := tabMod {} s.cores k f }

/-- A core as an engine. -/
def coreEng (k : Nat) : Eng := ⟨.core, k⟩

/-- The map in force: the installed one, each claim cut to the share, or the default map (spec/05 R118, R120). -/
def mapInForce (s : State) (k c : Nat) : MapRec :=
  let x := getCtx s c
  match tabFind (getCore s k).maps c with
  | some m => { m with accUnits := min m.accUnits x.accSize.toNat, queue := min m.queue x.queue.toNat,
                       pinGranules := min m.pinGranules x.pin.toNat }
  | none => { accUnits := x.accSize.toNat, queue := x.queue.toNat, pinGranules := x.pin.toNat }

/-- The 32 bytes of a progress record (spec/05 Table 5-4). -/
def progressBytes (s : State) (k c : Nat) (m : MapRec) (closed : Bool) : Bytes :=
  toLe 2 m.id ++ toLe 1 c ++ toLe 1 k ++ toLe 4 m.done ++ toLe 4 m.total ++
  toLe 2 (match m.fail with | some (st, _) => st.code | none => 0) ++
  toLe 1 (match m.fail with | some (_, r) => r | none => 0) ++
  toLe 1 (b2n (m.done = m.total) + 2 * b2n closed) ++ toLe 8 s.hub.time.toNat ++ toLe 8 0

/-- Write a map's progress record, where it has one (spec/05 R124). -/
def writeProgress (s : State) (k c : Nat) (m : MapRec) (closed : Bool) : Status × State :=
  if m.progress = 0 then (.ok, s)
  else runAct (wr (whoOf (coreEng k) c) m.progress (progressBytes s k c m closed)) s

/-- A map reports to the purser, which passes the report on to the modules that wait for it (spec/05 R125, spec/15
R384). -/
def reportMap (s : State) (k c : Nat) (id : Nat) (st : Status) : State :=
  if id = 0 then s else
  let mine := fun (w : Nat × Nat × Nat × Nat) => w.2 = (c, k, id)
  let asked := s.pur.wants.filter mine
  let s := asked.foldl (fun s w => purserSend s w.1 (.mapReport c k id st.code)) s
  { s with pur := { s.pur with
      told := s.pur.told ++ asked.map fun w => (w.1, c, id)
      reports := s.pur.reports ++ [{ module := ownModule s, ctx := c, core := k, mapId := id, status := st }]
      wants := s.pur.wants.filter fun w => !mine w } }

/-- Reports of a map of a module's context are dropped. -/
def dropReports (s : State) (m c id : Nat) : State :=
  { s with pur := { s.pur with reports := s.pur.reports.filter fun r => !(r.module = m && r.ctx = c && r.mapId = id) } }

/-- A context installs a new map: the reports of its map of that identifier are dropped here, and on the modules they were
passed to (spec/15 R384; log 17). -/
def mapIsNew (s : State) (c id : Nat) : State :=
  if id = 0 then s else
  let mine := fun (w : Nat × Nat × Nat) => w.2 = (c, id)
  let s := ((s.pur.told.filter mine).map (·.1)).eraseDups.foldl (fun s m => purserSend s m (.mapNew c id)) s
  dropReports { s with pur := { s.pur with told := s.pur.told.filter fun w => !mine w } } (ownModule s) c id

/-- A command of an installed map has failed: the first failure is kept for the records to come; one of MAP_OVERFLOW,
MAP_HAZARD and INTERNAL also writes a record and is told to the purser (spec/05 R124, spec/15 R384). -/
def mapFails (s : State) (k c : Nat) (st : Status) (resource : Nat) : State :=
  match tabFind (getCore s k).maps c with
  | none => s
  | some m =>
    let m := { m with fail := match m.fail with | some f => some f | none => some (st, resource) }
    let s := modCore s k fun x => { x with maps := tabPut x.maps c m }
    if st.halts then reportMap (writeProgress s k c m false).2 k c m.id st else s

/-! ### Completion -/

/-- A command of an engine completes with a status: faults and HALT by spec/04 R101, the report by spec/15 R381. -/
def completeCmd (s : State) (e : Eng) (c : Nat) (q : QCmd) (st : Status) (o : Overflow := {}) : State :=
  let s := if st.halts then faultHalt s e c q st o else s
  let s := if !st.good && e.kind = .core then mapFails s e.index c st (if st = .mapOverflow then o.resource else 0) else s
  reportCmd s q.origin st

/-- The command at the head of a queue completes without running. -/
def completeHead (s : State) (e : Eng) (c : Nat) (q : QCmd) (st : Status) (o : Overflow := {}) : State :=
  completeCmd (popQ s e c) e c q st o

/-- A write of 1 to HALT: the context resumes at the command after the failing one. -/
def clearHalt (s : State) (e : Eng) (c : Nat) : State := modQ s e c fun x => { x with halt := false }

/-- A row about the command at the head of a context's queue: a disabled command stops there (spec/15 R388), an opcode
the engine does not list completes with INTERNAL, and the row's own command is handed on. -/
def headRow (s : State) (e : Eng) (c : Nat) (listed : List Nat) (op : Nat) (f : QCmd → State) : State :=
  match headCmd s e c with
  | none => s
  | some q =>
    match q.verdict with
    | some v => completeHead s e c q v
    | none =>
      if !listed.contains (cmdOp q.bytes) then completeHead s e c q .internal
      else if cmdOp q.bytes = op then f q else s

/-! ### Offers -/

/-- Whether a context may queue commands on an engine (spec/14 R346). -/
def mayReach (s : State) (e : Eng) (c : Nat) : Bool :=
  let x := getCtx s c
  match e.kind with
  | .core => x.cores.getLsbD e.index
  | .slice | .ssu | .router => x.clusters.getLsbD e.index
  | .barge | .gather => (x.clusters.toNat / 16 ^ engDeck e) % 16 ≠ 0
  | .grinder | .slipManager => true

/-- What an offer comes to. -/
inductive OfferResult where
  /-- Accepted: queued, or completed at once with the status. -/
  | queued | ended (st : Status)
  /-- Refused at its offer. -/
  | refused
  /-- It waits for a slot. -/
  | waits
  deriving DecidableEq, Repr

/-- The opcodes of the slip-queue manager (spec/08 Table 8-4). -/
def slipOps : List Nat := [0x60, 0x61, 0x68, 0x69, 0x6A, 0x6B, 0x6C]

/-- The verdict a command has from its offer on: a TOKENIZE whose slot is not loaded, or unloading (spec/12 R291); a
manager command whose queue's ENABLE is 0 (spec/08 R203). -/
def offerVerdict (s : State) (e : Eng) (b : Bytes) : Option Status :=
  if e.kind = .grinder && cmdOp b = 0xE0 then
    match tabFind s.grd.slots (fld b 3 1 % 8) with
    | some x => if x.unloading then some .disabled else none
    | none => some .disabled
  else if e.kind = .slipManager && slipOps.contains (cmdOp b) && !(tabGet {} s.slip.queues (fld b 4 2)).enable &&
      (cmdOp b ≠ 0x60 || fld b 20 2 = ownModule s) then
    some .disabled
  else none

/-- Offer a command to an engine's queue (spec/14 R344, R346, R350; spec/05 R120; log 12). -/
def offerCmd (s : State) (e : Eng) (b : Bytes) (origin : Option (Nat × Nat)) : State × OfferResult :=
  let c := cmdCtx b
  let x := getQ s e c
  if !(getCtx s c).enable then (s, .ended .disabled)
  else if !mayReach s e c then
    (logEntry s { code := some .cmdFault, source := engSrc e, ctx := some (BitVec.ofNat 7 c), status := .internal,
                  detail := toLe 1 (cmdOp b) }, .refused)
  else
    let q : QCmd := { bytes := b, seq := x.nextSeq, origin := origin, verdict := offerVerdict s e b }
    let room := if e.kind = .core then (mapInForce s e.index c).queue else 64
    if x.queue.length < room then
      (modQ s e c fun y => { y with queue := y.queue ++ [q], nextSeq := y.nextSeq + 1 }, .queued)
    else if e.kind = .core then
      let s := modQ s e c fun y => { y with nextSeq := y.nextSeq + 1 }
      (completeCmd s e c { q with origin := none } .mapOverflow
        { resource := 3, claimed := room, required := x.queue.length + 1, mapId := (mapInForce s e.index c).id },
        .ended .mapOverflow)
    else (s, .waits)

/-- Offer the next command of those that the purser runs without a mailbox, one after the other; it is kept until its queue
takes it (spec/14 R350). -/
def offerKept (s : State) (id : Nat) : State :=
  match getCmd s id with
  | none => s
  | some c =>
    match c.jobs, c.offer with
    | [], (e, b) :: rest =>
      match offerCmd (putCmd s id { c with jobs := [0], offer := rest }) e b (some (id, 0)) with
      | (_, .waits) => s
      | (t, .queued) => t
      | (t, .ended st) => reportCmd t (some (id, 0)) st
      | (t, .refused) => reportCmd t (some (id, 0)) .internal
    | _, _ => s

/-- A command of the purser's own, without a mailbox; its number is `s.pur.nextId`. -/
def ownCmd (s : State) (c : PCmd) : State :=
  let id := s.pur.nextId
  putCmd { s with pur := { s.pur with nextId := id + 1 } } id
    { c with mb := 64, phase := .running, taken := s.hub.time, lastProgress := s.hub.time }

/-- The purser runs engine commands that no mailbox asked for. -/
def purserRuns (s : State) (c : PCmd) : State := offerKept (ownCmd s c) s.pur.nextId

/-- An engine of a kind that a context may use; which one the spec leaves to the firmware (log 95). -/
def pickEng (s : State) (k : EngKind) (c : Nat) : Eng × State :=
  let l := (List.range (kindCount k)).filter fun i => mayReach s ⟨k, i⟩ c
  let f := takeFree s
  (⟨k, l.getD (f.1 % l.length) 0⟩, f.2)

/-! ### Disabling (spec/15 R387, R388) -/

/-- Commands accepted before a disable point and not started will stop with ABORTED_DISABLED. -/
def markQueued (s : State) (test : Eng → Nat → QCmd → Bool) : State :=
  let mark (e : Eng) (c : Nat) (q : QCmd) : QCmd :=
    if test e c q && q.verdict = none then { q with verdict := some .abortedDisabled } else q
  { s with engs := tabMap (fun k x => match engOfSelector k with
      | none => x
      | some e => { x with ctxs := tabMap (fun c y => { y with queue := y.queue.map (mark e c) }) x.ctxs }) s.engs }

/-- Whether some command not started meets a test. -/
def anyQueued (s : State) (p : Eng → Nat → QCmd → Bool) : Bool :=
  s.engs.any fun kx => match engOfSelector kx.1 with
    | none => false
    | some e => kx.2.ctxs.any fun cy => cy.2.queue.any fun q => p e cy.1 q

/-! ### Rows -/

/-- ENGINE_COMMAND_OFFER (spec/05 R120): 64 command bytes at an engine's queue. -/
def execEngineCommandOffer (e : Eng) (cmd : Bytes) (s : State) : Host.Outcome State Fault Refusal :=
  .next (offerCmd s e cmd none).1

end Sys2Proof.Machine
end

