-- ==== Sys2Proof/Machine/Num.lean ====
section
/-! DEFINITION. Number formats (spec/03): exact values, element formats, rounding, FP32 arithmetic, block scaling, format
bytes and tile images. -/

namespace Sys2Proof.Machine

/-- An exact value: NaN, an infinity, or (−1)^neg × m × 2^e. -/
inductive Val where
  | nan
  | inf (neg : Bool)
  | fin (neg : Bool) (m : Nat) (e : Int)
  deriving DecidableEq, Repr

/-! ### Formats of floats (spec/03 Table 3-1) -/

/-- A float format: exponent and mantissa bits, bias, what its top exponent means, and its largest finite code. -/
structure FFmt where
  eb : Nat
  mb : Nat
  bias : Nat
  infs : Bool
  nans : Bool
  deriving DecidableEq, Repr

/-- FP32. -/
def fFp32 : FFmt := ⟨8, 23, 127, true, true⟩
/-- BF16. -/
def fBf16 : FFmt := ⟨8, 7, 127, true, true⟩
/-- FP16. -/
def fFp16 : FFmt := ⟨5, 10, 15, true, true⟩
/-- MXFP8 E4M3. -/
def fE4M3 : FFmt := ⟨4, 3, 7, false, true⟩
/-- MXFP8 E5M2. -/
def fE5M2 : FFmt := ⟨5, 2, 15, true, true⟩
/-- MXFP6 E3M2. -/
def fE3M2 : FFmt := ⟨3, 2, 3, false, false⟩
/-- MXFP6 E2M3. -/
def fE2M3 : FFmt := ⟨2, 3, 1, false, false⟩
/-- MXFP4 E2M1. -/
def fE2M1 : FFmt := ⟨2, 1, 1, false, false⟩

/-- The largest finite code of a format, sign clear. -/
def FFmt.maxCode (f : FFmt) : Nat :=
  if f.infs then (2 ^ f.eb - 1) * 2 ^ f.mb - 1
  else if f.nans then 2 ^ (f.eb + f.mb) - 2
  else 2 ^ (f.eb + f.mb) - 1

/-- The value of a code (spec/03 R57). -/
def FFmt.dec (f : FFmt) (raw : Nat) : Val :=
  let s := bit raw (f.eb + f.mb)
  let c := raw % 2 ^ (f.eb + f.mb)
  let m := c % 2 ^ f.mb
  let x := c / 2 ^ f.mb
  if c > f.maxCode then (if f.infs && m = 0 then .inf s else .nan)
  else if x = 0 then .fin s m (1 - (f.bias : Int) - f.mb)
  else .fin s (m + 2 ^ f.mb) ((x : Int) - f.bias - f.mb)

/-- The canonical NaN of a format (spec/03 R58). -/
def FFmt.nanCode (f : FFmt) : Nat :=
  if f.infs && f.mb ≠ 2 then (2 ^ f.eb - 1) * 2 ^ f.mb + 2 ^ (f.mb - 1) else 2 ^ (f.eb + f.mb) - 1

/-- m × 2^e at exponent u, rounded to nearest, ties to even. -/
def rneShift (m : Nat) (e u : Int) : Nat :=
  if u ≤ e then m * 2 ^ (e - u).toNat
  else
    let k := (u - e).toNat
    let q := m / 2 ^ k
    let r := m % 2 ^ k
    let h := 2 ^ k
    if 2 * r > h || (2 * r = h && q % 2 = 1) then q + 1 else q

/-- The code of m × 2^e rounded to nearest even, unbounded above. -/
def FFmt.code (f : FFmt) (m : Nat) (e : Int) : Nat :=
  if m = 0 then 0 else
  let emin : Int := 1 - (f.bias : Int) - f.mb
  let l : Int := (Nat.log2 m : Int) + 1
  let u := max (e + l - (f.mb + 1)) emin
  let q := rneShift m e u
  if q < 2 ^ f.mb then q else (u - emin + 1).toNat * 2 ^ f.mb + (q - 2 ^ f.mb)

/-- Encode a value: beyond the largest finite value it becomes infinity (spec/03 R76), or saturates where `sat` says so
or the format has no infinity. -/
def FFmt.enc (f : FFmt) (sat : Bool) : Val → Nat
  | .nan => f.nanCode
  | .inf s => b2n s * 2 ^ (f.eb + f.mb) + (if f.infs && !sat then f.maxCode + 1 else f.maxCode)
  | .fin s m e =>
    let c := f.code m e
    b2n s * 2 ^ (f.eb + f.mb) +
      (if c ≤ f.maxCode then c else if f.infs && !sat then f.maxCode + 1 else f.maxCode)

/-- The value of an FP32 word. -/
def f32Dec (x : BitVec 32) : Val := fFp32.dec x.toNat

/-- A value rounded once to FP32. -/
def f32Enc (v : Val) : BitVec 32 := BitVec.ofNat 32 (fFp32.enc false v)

/-- The canonical FP32 NaN. -/
def f32Nan : BitVec 32 := 0x7FC00000

/-! ### Exact arithmetic -/

/-- The exponent both summands are brought to. -/
def alignTo (m : Nat) (e u : Int) : Nat := m * 2 ^ (e - u).toNat

/-- A signed magnitude as an integer. -/
def signedOf (s : Bool) (m : Nat) : Int := if s then -(m : Int) else (m : Int)

/-- Exact sum; opposite infinities give NaN; a zero sum is +0 unless both are −0 (spec/03 R75). -/
def Val.add : Val → Val → Val
  | .nan, _ => .nan
  | _, .nan => .nan
  | .inf a, .inf b => if a = b then .inf a else .nan
  | .inf a, .fin .. => .inf a
  | .fin .., .inf b => .inf b
  | .fin a m e, .fin b n k =>
    let u := min e k
    let t := signedOf a (alignTo m e u) + signedOf b (alignTo n k u)
    if t = 0 then .fin (a && b) 0 u else .fin (decide (t < 0)) t.natAbs u

/-- Exact product; infinity times zero is NaN (spec/03 R75). -/
def Val.mul : Val → Val → Val
  | .nan, _ => .nan
  | _, .nan => .nan
  | .inf a, .inf b => .inf (a != b)
  | .inf a, .fin b n _ => if n = 0 then .nan else .inf (a != b)
  | .fin a m _, .inf b => if m = 0 then .nan else .inf (a != b)
  | .fin a m e, .fin b n k => .fin (a != b) (m * n) (e + k)

/-- The negated value. -/
def Val.neg : Val → Val
  | .nan => .nan
  | .inf a => .inf (!a)
  | .fin a m e => .fin (!a) m e

/-- The absolute value. -/
def Val.abs : Val → Val
  | .nan => .nan
  | .inf _ => .inf false
  | .fin _ m e => .fin false m e

/-- Times a power of two. -/
def Val.scale (k : Int) : Val → Val
  | .fin a m e => .fin a m (e + k)
  | v => v

/-- The exact zero. -/
def Val.zero : Val := .fin false 0 0

/-- An integer. -/
def Val.ofInt (i : Int) : Val := .fin (decide (i < 0)) i.natAbs 0

/-- Whether the value is NaN. -/
def Val.isNan : Val → Bool
  | .nan => true
  | _ => false

/-- Whether the value is infinite or NaN. -/
def Val.notFinite : Val → Bool
  | .fin .. => false
  | _ => true

/-- Zero of either sign. -/
def Val.isZero : Val → Bool
  | .fin _ m _ => m = 0
  | _ => false

/-- Strictly less, of two values that are no NaN; −0 equals +0. -/
def Val.lt : Val → Val → Bool
  | .nan, _ => false
  | _, .nan => false
  | .inf a, .inf b => a && !b
  | .inf a, .fin .. => a
  | .fin .., .inf b => !b
  | .fin a m e, .fin b n k =>
    let u := min e k
    decide (signedOf a (alignTo m e u) < signedOf b (alignTo n k u))

/-- The exact sum of a list; an exact zero is +0, of −0 products too (DESIGN CHOICE, log 90). -/
def Val.sum (l : List Val) : Val := l.foldl Val.add Val.zero

/-- FP32 add (spec/03 Table 3-6, correctly rounded). -/
def f32Add (a b : BitVec 32) : BitVec 32 := f32Enc ((f32Dec a).add (f32Dec b))
/-- FP32 subtract. -/
def f32Sub (a b : BitVec 32) : BitVec 32 := f32Enc ((f32Dec a).add (f32Dec b).neg)
/-- FP32 multiply. -/
def f32Mul (a b : BitVec 32) : BitVec 32 := f32Enc ((f32Dec a).mul (f32Dec b))
/-- FP32 fused multiply-add a × b + c. -/
def f32Fma (a b c : BitVec 32) : BitVec 32 := f32Enc (((f32Dec a).mul (f32Dec b)).add (f32Dec c))
/-- FP32 less than; false with a NaN. -/
def f32Lt (a b : BitVec 32) : Bool := (f32Dec a).lt (f32Dec b)
/-- FP32 maximum: the other operand when exactly one is NaN (spec/03 R79). -/
def f32Max (a b : BitVec 32) : BitVec 32 :=
  if (f32Dec a).isNan then (if (f32Dec b).isNan then f32Nan else b)
  else if (f32Dec b).isNan then a else if f32Lt a b then b else a
/-- FP32 minimum: the other operand when exactly one is NaN (spec/03 R79). -/
def f32Min (a b : BitVec 32) : BitVec 32 :=
  if (f32Dec a).isNan then (if (f32Dec b).isNan then f32Nan else b)
  else if (f32Dec b).isNan then a else if f32Lt b a then b else a
/-- FP32 of a natural number. -/
def f32OfNat (n : Nat) : BitVec 32 := f32Enc (.fin false n 0)
/-- The correctly rounded FP32 quotient of two finite numbers, b nonzero; 27 guard bits decide the rounding. -/
def f32DivExact (a b : Val) : BitVec 32 :=
  match a, b with
  | .fin s m e, .fin t n k =>
    if n = 0 then f32Nan else
    let sh : Nat := Nat.log2 n + 64
    let q := m * 2 ^ sh / n
    let r := m * 2 ^ sh % n
    f32Enc (.fin (s != t) (q * 2 + (if r = 0 then 0 else 1)) (e - k - sh - 1))
  | _, _ => f32Nan

/-! ### Format bytes and elements (spec/03 R63, R64) -/

/-- ELEM of a format byte. -/
def fmtElem (f : Nat) : Nat := bits f 4 0
/-- SPARSITY of a format byte. -/
def fmtSparse (f : Nat) : Nat := bits f 6 5

/-- A format byte a matrix operand may carry (spec/03 R64). -/
def fmtOk (f : Nat) : Bool :=
  let e := fmtElem f
  let s := fmtSparse f
  !bit f 7 && (match s with
    | 0 => 1 ≤ e && e ≤ 0x0B
    | 1 => 1 ≤ e && e ≤ 0x0A
    | 2 => e = 7
    | _ => false)

/-- Whether an element code is an MX format. -/
def isMx (e : Nat) : Bool := 3 ≤ e && e ≤ 8
/-- Whether an element code accumulates in INT32 (spec/03 R74). -/
def isInt (e : Nat) : Bool := e = 9 || e = 10
/-- Bits of an element; a BIN1 element of an array is a byte (spec/03 R80). -/
def elemBits (e : Nat) : Nat :=
  match e with
  | 0 => 32 | 1 => 16 | 2 => 16 | 3 => 8 | 4 => 8 | 5 => 6 | 6 => 6 | 7 => 4 | 8 => 8 | 9 => 8 | 10 => 4 | 11 => 8
  | _ => 32

/-- The two's-complement value of `w` bits. -/
def sint (w v : Nat) : Int := if v ≥ 2 ^ (w - 1) then (v : Int) - 2 ^ w else v

/-- The value of an element code, without any block scale. -/
def elemVal (e raw : Nat) : Val :=
  match e with
  | 0 => fFp32.dec raw | 1 => fBf16.dec raw | 2 => fFp16.dec raw | 3 => fE4M3.dec raw | 4 => fE5M2.dec raw
  | 5 => fE3M2.dec raw | 6 => fE2M3.dec raw | 7 => fE2M1.dec raw
  | 8 => (Val.ofInt (sint 8 raw)).scale (-6)
  | 9 => Val.ofInt (sint 8 raw) | 10 => Val.ofInt (sint 4 raw)
  | 11 => Val.ofInt raw
  | _ => Val.ofInt (sint 32 raw)

/-- The value of an E8M0 scale byte (spec/03 R60). -/
def scaleVal (b : Nat) : Val := if b = 255 then .nan else .fin false 1 ((b : Int) - 127)

/-- An integer nearest to a value, ties to even, saturating symmetrically at `mx` (spec/03 R76). -/
def toIntSat (mx : Nat) : Val → Int
  | .nan => 0
  | .inf s => if s then -(mx : Int) else mx
  | .fin s m e => signedOf s (min (rneShift m e 0) mx)

/-- The low `w` bits of an integer. -/
def intBits (w : Nat) (i : Int) : Nat := (i % (2 : Int) ^ w).toNat

/-- A value converted to a format that is not MX (spec/03 R76). -/
def elemEnc (e : Nat) (v : Val) : Nat :=
  match e with
  | 0 => fFp32.enc false v | 1 => fBf16.enc false v | 2 => fFp16.enc false v
  | 9 => intBits 8 (toIntSat 127 v) | 10 => intBits 4 (toIntSat 7 v)
  | _ => intBits 32 (toIntSat 0x7FFFFFFF v)

/-- emax of an MX element format (spec/03 R62). -/
def mxEmax (e : Nat) : Int := match e with | 3 => 8 | 4 => 15 | 5 => 4 | 6 => 2 | 7 => 2 | _ => 0

/-- One element of an MX block once its scale is chosen: symmetric saturation, but E5M2 rounds to infinity beyond its largest
finite value (spec/03 R62, R76; log 13). -/
def mxElem (e : Nat) (q : Val) : Nat :=
  match e with
  | 3 => fE4M3.enc true q | 4 => fE5M2.enc false q | 5 => fE3M2.enc true q | 6 => fE2M3.enc true q
  | 7 => fE2M1.enc true q
  | _ => intBits 8 (toIntSat 127 (q.scale 6))

/-- The larger of two magnitudes. -/
def Val.maxAbs (a b : Val) : Val := if a.abs.lt b.abs then b.abs else a.abs

/-- floor(log2) of a finite nonzero value. -/
def Val.floorLog2 : Val → Int
  | .fin _ m e => e + Nat.log2 m
  | _ => 0

/-- The code of element `i` of a block whose scale is NaN: of a NaN input the format's NaN where it has one (spec/03 R58,
R76), else the spec gives none (log 13). -/
def nanBlockElem (e : Nat) (v : Val) (i : Nat) : Nat :=
  if v.isNan && (e = 3 || e = 4) then 0x7F else Config.nanBlockCode i

/-- Quantize a block (spec/03 R62): the scale byte and the element codes. -/
def mxQuant (e : Nat) (vs : List Val) : Nat × List Nat :=
  if vs.any Val.notFinite then (0xFF, vs.zipIdx.map fun v => nanBlockElem e v.1 v.2)
  else
    let a := vs.foldl Val.maxAbs Val.zero
    if !Val.zero.lt a then (0, vs.map fun _ => 0)
    else
      let x := min (max (a.floorLog2 - mxEmax e) (-127)) 127
      ((x + 127).toNat, vs.map fun v => mxElem e (v.scale (-x)))

/-! ### Packing (spec/03 R68) -/

/-- The `w`-bit value at position `j` of a region given as a little-endian number. -/
def packGet (region w j : Nat) : Nat := region / 2 ^ (j * w) % 2 ^ w

/-- The bytes of a packed region of `w`-bit values. -/
def packBytes (w : Nat) (vs : List Nat) : Bytes :=
  toLe (ceilDiv (vs.length * w) 8) (vs.foldr (fun v acc => acc * 2 ^ w + v % 2 ^ w) 0)

/-- Round up to a multiple of 64. -/
def up64 (n : Nat) : Nat := ceilDiv n 64 * 64

/-! ### Tiles (spec/03 R65-R70) -/

/-- Tile width n of a weight format (spec/03 Table 3-4). -/
def tileN (f : Nat) : Nat :=
  let e := fmtElem f
  match fmtSparse f with
  | 0 => if e = 7 then 128 else if e = 1 || e = 2 then 32 else 64
  | 1 => if e = 3 || e = 4 then 128 else if e = 7 then 256 else if e = 1 || e = 2 then 32 else 64
  | _ => 512

/-- Values a column stores in a tile. -/
def colStored (f : Nat) : Nat := match fmtSparse f with | 0 => 64 | 1 => 32 | _ => 16

/-- Blocks a column has in an MX tile (spec/03 R61). -/
def colBlocks (f : Nat) : Nat := if isMx (fmtElem f) then (if fmtSparse f = 0 then 2 else 1) else 0

/-- Size of the element region. -/
def elemRegion (f : Nat) : Nat := tileN f * colStored f * elemBits (fmtElem f) / 8
/-- Size of the index region. -/
def indexRegion (f : Nat) : Nat := if fmtSparse f = 0 then 0 else tileN f * colStored f / 4
/-- Size of a weight tile image (spec/03 Table 3-5). -/
def tileSize (f : Nat) : Nat := elemRegion f + indexRegion f + tileN f * colBlocks f

/-- Activation formats a weight format accepts (spec/03 Table 3-4). -/
def actOk (w a : Nat) : Bool :=
  let e := fmtElem w
  let x := fmtElem a
  a < 32 && (
    if 3 ≤ e && e ≤ 7 then decide (3 ≤ x && x ≤ 7)
    else if e = 1 || e = 2 then decide (x = e)
    else if e = 8 then decide (x = 8)
    else if e = 9 || e = 10 then decide (x = 9 || x = 10)
    else decide (x = 11))

/-- Formats a difference operation takes (spec/03 Table 3-7). -/
def diffElem (e : Nat) : Bool := e = 1 || e = 3 || e = 4 || e = 8 || e = 9 || e = 10

/-- Size of the element region of an activation tile image. -/
def actElems (f : Nat) : Nat := up64 (64 * 64 * elemBits (fmtElem f) / 8)
/-- Size of an activation tile image (spec/03 R70). -/
def actSize (f : Nat) : Nat := actElems f + (if isMx (fmtElem f) then 128 else 0)

/-- A weight tile image read apart once: its regions as numbers. -/
structure TileView where
  fmt : Nat := 0
  elems : Nat := 0
  index : Nat := 0
  scales : Bytes := []
  deriving DecidableEq, Repr

/-- The regions of an image. -/
def tileView (f : Nat) (img : Bytes) : TileView :=
  { fmt := f, elems := leNat (img.take (elemRegion f)),
    index := leNat ((img.drop (elemRegion f)).take (indexRegion f)),
    scales := img.drop (elemRegion f + indexRegion f) }

/-- The position along k of stored value `i` of column `n` (spec/03 R71, R72). -/
def storedPos (t : TileView) (n i : Nat) : Nat :=
  match fmtSparse t.fmt with
  | 0 => i
  | 1 => i / 2 * 4 + packGet t.index 2 (n * 32 + i)
  | _ => i * 4 + packGet t.index 2 (n * 16 + i)

/-- The code of stored value `i` of column `n`. -/
def storedRaw (t : TileView) (n i : Nat) : Nat :=
  packGet t.elems (elemBits (fmtElem t.fmt)) (n * colStored t.fmt + i)

/-- The scale of the block that position `pos` of column `n` lies in; 1 without block scales. -/
def weightScale (t : TileView) (n pos : Nat) : Val :=
  match colBlocks t.fmt with
  | 0 => Val.ofInt 1
  | 1 => scaleVal ((t.scales.getD n 0).toNat)
  | _ => scaleVal ((t.scales.getD (n * 2 + pos / 32) 0).toNat)

/-- One activation row: its raw elements and its two scales. -/
structure ActRow where
  fmt : Nat := 0
  elems : Nat := 0
  scale0 : Nat := 0
  scale1 : Nat := 0
  deriving DecidableEq, Repr

/-- Row `r` of an activation tile image (spec/03 R70). -/
def actRow (f : Nat) (img : Bytes) (r : Nat) : ActRow :=
  let w := elemBits (fmtElem f)
  { fmt := f, elems := leNat ((img.drop (r * 8 * w)).take (8 * w)),
    scale0 := (img.getD (actElems f + 2 * r) 0).toNat, scale1 := (img.getD (actElems f + 2 * r + 1) 0).toNat }

/-- The code of element k of a row. -/
def actRaw (x : ActRow) (k : Nat) : Nat := packGet x.elems (elemBits (fmtElem x.fmt)) k

/-- The scale of segment `g` of a row. -/
def actScale (x : ActRow) (g : Nat) : Val :=
  if isMx (fmtElem x.fmt) then scaleVal (if g = 0 then x.scale0 else x.scale1) else Val.ofInt 1

/-- The number of ones of a byte. -/
def popcount8 (v : Nat) : Nat := ((List.range 8).filter fun i => bit v i).length

/-- What one stored value contributes to its segment (spec/03 R73, R80, R81). -/
def segTerm (op : Nat) (t : TileView) (x : ActRow) (n i : Nat) : Val :=
  let pos := storedPos t n i
  let w := elemVal (fmtElem t.fmt) (storedRaw t n i)
  let a := elemVal (fmtElem x.fmt) (actRaw x pos)
  match op with
  | 0 => a.mul w
  | 1 => let d := (a.mul (actScale x (pos / 32))).add (w.mul (weightScale t n pos)).neg; d.mul d
  | 2 => ((a.mul (actScale x (pos / 32))).add (w.mul (weightScale t n pos)).neg).abs
  | _ => Val.ofInt (popcount8 (actRaw x pos ^^^ storedRaw t n i))

/-- The exact value of segment `g` of column `n`, scales applied (spec/03 R73, R81). -/
def segValue (op : Nat) (t : TileView) (x : ActRow) (n g : Nat) : Val :=
  let is := (List.range (colStored t.fmt)).filter fun i => storedPos t n i / 32 = g
  let v := Val.sum (is.map (segTerm op t x n))
  if op = 0 then (v.mul (actScale x g)).mul (weightScale t n (32 * g)) else v

/-- An INT32 sum that stops at its bounds (spec/03 R74). -/
def satI32 (i : Int) : BitVec 32 :=
  BitVec.ofInt 32 (max (-2147483648) (min 2147483647 i))

/-- The integer of an exact value that is one. -/
def Val.toInt : Val → Int
  | .fin s m e => signedOf s (m * 2 ^ e.toNat)
  | _ => 0

/-- A segment added to an entry, or replacing it (spec/03 R73, R74). -/
def accAdd (int : Bool) (replace : Bool) (entry : BitVec 32) (seg : Val) : BitVec 32 :=
  if int then satI32 ((if replace then 0 else entry.toInt) + seg.toInt)
  else if replace then f32Enc seg else f32Add entry (f32Enc seg)

/-- The entry of column `n` after both segments of a pass. -/
def passEntry (op : Nat) (start : Bool) (t : TileView) (x : ActRow) (n : Nat) (entry : BitVec 32) : BitVec 32 :=
  let int := isInt (fmtElem t.fmt) || op = 3
  accAdd int false (accAdd int start entry (segValue op t x n 0)) (segValue op t x n 1)

/-- Whether `a` is a better value than `b` in an arg-best reduction (spec/03 R82). -/
def argBetter (int largest : Bool) (a b : BitVec 32) : Bool :=
  if int then (if largest then decide (b.toInt < a.toInt) else decide (a.toInt < b.toInt))
  else
    let x := f32Dec a
    let y := f32Dec b
    if x.isNan then false else if y.isNan then true else if largest then y.lt x else x.lt y

/-- The best of a row's values and its column; ties go to the lowest column (spec/03 R82). -/
def argBest (int largest : Bool) : List (BitVec 32) → Nat → BitVec 32 × Nat → BitVec 32 × Nat
  | [], _, b => b
  | v :: vs, i, b => argBest int largest vs (i + 1) (if argBetter int largest v b.1 then (v, i) else b)

end Sys2Proof.Machine
end

