-- ==== Sys2Proof/Machine/Vector.lean ====
section
/-! DEFINITION. The vector unit's primitives (spec/03 R79, Table 3-6). The spec bounds their errors and does not give their
results: each is a free value of its operands where that lies within the bound, and the correctly rounded result where it
does not (log 8). The exact results are evaluated with 320 fraction bits. -/

namespace Sys2Proof.Machine

/-! ### Real functions in fixed point -/

/-- Fraction bits. -/
def fixBits : Nat := 320

/-- One. -/
def fixOne : Int := 2 ^ fixBits

/-- A finite value in fixed point. -/
def toFix : Val → Int
  | .fin s m e => signedOf s (m * 2 ^ (e + fixBits).toNat / 2 ^ (-(e + fixBits)).toNat)
  | _ => 0

/-- The value of a fixed-point number. -/
def ofFix (i : Int) : Val := .fin (decide (i < 0)) i.natAbs (-(fixBits : Int))

/-- Product. -/
def fixMul (a b : Int) : Int := a * b / fixOne

/-- Quotient. -/
def fixDiv (a b : Int) : Int := a * fixOne / b

/-- Square root of a number that is not negative. -/
def fixSqrt (a : Int) : Int := Nat.sqrt (a.toNat * 2 ^ fixBits)

/-- e^x: its series at x / 1024, squared ten times; 0 below −250. -/
def fixExp (x : Int) : Int :=
  if x < -250 * fixOne then 0 else
  let y := x / 1024
  let t := (List.range 40).foldr (fun k acc => fixOne + fixMul y acc / ((k : Int) + 1)) fixOne
  (List.range 10).foldl (fun a _ => fixMul a a) t

/-- 2 × the series z + z³/3 + z⁵/5 + …: the logarithm of (1 + z) / (1 − z). -/
def fixAtanh (z : Int) : Int :=
  let q := fixMul z z
  2 * fixMul z ((List.range 120).foldr (fun k acc => fixOne / (2 * (k : Int) + 1) + fixMul q acc) 0)

/-- Natural logarithm of m × 2^e. -/
def fixLog (m : Nat) (e : Int) : Int :=
  let l := Nat.log2 m
  let y := toFix (.fin false m (-(l : Int)))
  fixAtanh (fixDiv (y - fixOne) (y + fixOne)) + (e + l) * fixAtanh (fixOne / 3)

/-- The arc tangent of 1 / n. -/
def fixArctanInv (n : Nat) : Int :=
  ((List.range 240).map fun k => (if k % 2 = 0 then 1 else -1) * (fixOne / ((2 * k + 1) * n ^ (2 * k + 1) : Nat))).sum

/-- π, by Machin's formula. -/
def fixPi : Int := 16 * fixArctanInv 5 - 4 * fixArctanInv 239

/-- The logistic sigmoid. -/
def fixSigmoid (x : Int) : Int :=
  if x < -250 * fixOne then 0 else if 250 * fixOne < x then fixOne
  else fixDiv fixOne (fixOne + fixExp (-x))

/-- The standard normal distribution function Φ at |x| ≤ 16: 1/2 + φ(x)(x + x³/3 + x⁵/(3 × 5) + …). -/
def fixPhi (x : Int) : Int :=
  let q := fixMul x x
  let ser := fixMul x ((List.range 500).foldr (fun k acc => fixOne + fixMul q acc / (2 * (k : Int) + 3)) fixOne)
  fixOne / 2 + fixMul (fixDiv (fixExp (-q / 2)) (fixSqrt (2 * fixPi))) ser

/-! ### Bounds (spec/03 R79) -/

/-- `k` units in the last place of an exact result. -/
def Val.ulps (k : Nat) (v : Val) : Val := .fin false k (max v.floorLog2 (-126) - 23)

/-- A free value where it is finite and no further from the exact result than `d`, else the correctly rounded result. -/
def heldWithin (d v : Val) (x : BitVec 32) : BitVec 32 :=
  if (f32Dec x).notFinite || d.lt ((f32Dec x).add v.neg).abs then f32Enc v else x

/-- A free value held within `k` ULP of the exact result. -/
def held (k : Nat) (v : Val) (x : BitVec 32) : BitVec 32 := heldWithin (v.ulps k) v x

/-- A free value held within GELU's bound: 4 ULP, or 2^−40 where the result is below 2^−20. -/
def heldGelu (v : Val) (x : BitVec 32) : BitVec 32 :=
  heldWithin (if v.abs.lt (.fin false 1 (-20)) then .fin false 1 (-40) else v.ulps 4) v x

/-! ### Primitives of one value (spec/03 Table 3-6) -/

/-- FP32 zero of a sign. -/
def f32Zero (neg : Bool) : BitVec 32 := if neg then 0x80000000 else 0
/-- FP32 infinity of a sign. -/
def f32Inf (neg : Bool) : BitVec 32 := if neg then 0xFF800000 else 0x7F800000

/-- Reciprocal, off its domain as Table 3-6 gives. -/
def vRecip (x : BitVec 32) : BitVec 32 :=
  match f32Dec x with
  | .nan => f32Nan
  | .inf s => f32Zero s
  | .fin s m _ => if m = 0 then f32Inf s else held 1 (ofFix (fixDiv fixOne (toFix (f32Dec x)))) (Config.vecRecip x)

/-- Reciprocal square root. -/
def vRsqrt (x : BitVec 32) : BitVec 32 :=
  match f32Dec x with
  | .nan => f32Nan
  | .inf s => if s then f32Nan else 0
  | .fin s m _ => if m = 0 then f32Inf s else if s then f32Nan
    else held 1 (ofFix (fixSqrt (fixDiv fixOne (toFix (f32Dec x))))) (Config.vecRsqrt x)

/-- exp; the FP32 words next to −103.97 and 88.72 lie just outside its domain. -/
def vExp (x : BitVec 32) : BitVec 32 :=
  match f32Dec x with
  | .nan => f32Nan
  | _ => if !f32Lt 0xC2CFF0A4 x then 0 else if !f32Lt x 0x42B170A4 then f32Inf false
    else held 2 (ofFix (fixExp (toFix (f32Dec x)))) (Config.vecExp x)

/-- Natural logarithm; of +infinity the table gives no value. -/
def vLog (x : BitVec 32) : BitVec 32 :=
  match f32Dec x with
  | .nan => f32Nan
  | .inf s => if s then f32Nan else Config.vecLog x
  | .fin s m e => if m = 0 then f32Inf true else if s then f32Nan else held 2 (ofFix (fixLog m e)) (Config.vecLog x)

/-- Hyperbolic tangent. -/
def vTanh (x : BitVec 32) : BitVec 32 :=
  match f32Dec x with
  | .nan => f32Nan
  | .inf s => if s then 0xBF800000 else 0x3F800000
  | v => held 2 (ofFix (2 * fixSigmoid (2 * toFix v) - fixOne)) (Config.vecTanh x)

/-- Logistic sigmoid. -/
def vSigmoid (x : BitVec 32) : BitVec 32 :=
  match f32Dec x with
  | .nan => f32Nan
  | .inf s => if s then 0 else 0x3F800000
  | v => held 2 (ofFix (fixSigmoid (toFix v))) (Config.vecSigmoid x)

/-- A function of one value with the ends of SiLU and GELU: +infinity stays, −infinity gives −0. -/
def vGate (f : BitVec 32 → BitVec 32) (x : BitVec 32) : BitVec 32 :=
  match f32Dec x with
  | .nan => f32Nan
  | .inf s => if s then 0x80000000 else 0x7F800000
  | _ => f x

/-- SiLU. -/
def vSilu (x : BitVec 32) : BitVec 32 :=
  let v := toFix (f32Dec x)
  vGate (fun x => held 3 (ofFix (fixMul v (fixSigmoid v))) (Config.vecSilu x)) x

/-- x × Φ(x) as a GELU gives it, where `phi` is Φ or its approximation: beyond 16 it is x, and below −16 it is 0. -/
def geluExact (phi : Int → Int) (x : Int) : Val :=
  ofFix (if 16 * fixOne < x then x else if x < -16 * fixOne then 0 else fixMul x (phi x))

/-- GELU in its erf form. -/
def vGeluErf : BitVec 32 → BitVec 32 :=
  vGate fun x => heldGelu (geluExact fixPhi (toFix (f32Dec x))) (Config.vecGeluErf x)

/-- GELU in its tanh form: Φ(x) is taken as (1 + tanh(√(2/π)(x + 0.044715 x³))) / 2. -/
def vGeluTanh : BitVec 32 → BitVec 32 :=
  vGate fun x => heldGelu (geluExact (fun x => fixSigmoid (2 * fixMul (fixSqrt (fixDiv (2 * fixOne) fixPi))
    (x + fixMul (fixMul (fixMul x x) x) (44715 * fixOne / 1000000)))) (toFix (f32Dec x))) (Config.vecGeluTanh x)

/-- ReLU; of −0 it is +0 (DESIGN CHOICE, log 90). -/
def vRelu (x : BitVec 32) : BitVec 32 :=
  match f32Dec x with
  | .nan => f32Nan
  | .inf s => if s then 0 else x
  | .fin s _ _ => if s then 0 else x

/-! ### Rows (spec/03 Table 3-6) -/

/-- The largest of the values. -/
def Val.maxOf (l : List Val) : Val := l.foldl (fun a b => if a.lt b then b else a) (.inf true)

/-- Softmax of column `i`: exponentials of the distances from the row's maximum, over their sum. -/
def softmaxExact (row : List Val) (i : Nat) : Val :=
  let mx := Val.maxOf row
  let ex := fun v : Val => match v with
    | .fin .. => fixExp (toFix (v.add mx.neg))
    | _ => 0
  ofFix (fixDiv (ex (row.getD i .nan)) ((row.map ex).sum))

/-- Softmax over a row: a row of only −infinity gives NaN; of a row with +infinity the table gives no value. -/
def vSoftmax (row : List (BitVec 32)) (i : Nat) : BitVec 32 :=
  let vs := row.map f32Dec
  if vs.all (· == .inf true) then f32Nan
  else if vs.any fun v => v == .inf false || v == .nan then Config.rowSoftmax row i
  else held 4 (softmaxExact vs i) (Config.rowSoftmax row i)

/-- RMS norm of column `i`: the row over the root of its mean square, times the weight; scaled first, which changes
nothing. -/
def rmsExact (row : List Val) (w : Val) (i : Nat) : Val :=
  let k := (row.foldl Val.maxAbs Val.zero).floorLog2
  let xs := row.map fun v => toFix (v.scale (-k))
  let ms := (xs.map fun x => fixMul x x).sum / (row.length : Int)
  ofFix (fixMul (fixDiv (xs.getD i 0) (fixSqrt ms)) (toFix w))

/-- RMS norm: a zero row gives NaN; of a row whose mean square is not finite the table gives no value. -/
def vRms (row weight : List (BitVec 32)) (i : Nat) : BitVec 32 :=
  let vs := row.map f32Dec
  let w := f32Dec (weight.getD i 0)
  if vs.all Val.isZero then f32Nan
  else if vs.any Val.notFinite || w.notFinite then Config.rowRms row weight i
  else held 4 (rmsExact vs w i) (Config.rowRms row weight i)

/-- Layer norm of column `i`, with epsilon 2^−20 (spec/04 Table 4-6). -/
def layerExact (row : List Val) (w b : Val) (i : Nat) : Val :=
  let xs := row.map toFix
  let mean := xs.sum / (row.length : Int)
  let var := (xs.map fun x => fixMul (x - mean) (x - mean)).sum / (row.length : Int)
  let sd := fixSqrt (var + fixOne / 2 ^ 20)
  ofFix (fixMul (fixDiv (xs.getD i 0 - mean) sd) (toFix w) + toFix b)

/-- Layer norm; of a row whose variance is not finite the table gives no value. -/
def vLayer (row weight bias : List (BitVec 32)) (i : Nat) : BitVec 32 :=
  let vs := row.map f32Dec
  let w := f32Dec (weight.getD i 0)
  let b := f32Dec (bias.getD i 0)
  if vs.any Val.notFinite || w.notFinite || b.notFinite then Config.rowLayer row weight bias i
  else held 6 (layerExact vs w b i) (Config.rowLayer row weight bias i)

end Sys2Proof.Machine
end

