-- ==== Sys2Proof/Machine/Cores.lean ====
section
/-! DEFINITION. Cores: TAMP, PASS and EPI with their banks, hazards and accumulator entries (spec/04), and the map
descriptor with its checks and progress (spec/05). -/

namespace Sys2Proof.Machine

/-! ### Fields and checks of the commands (spec/04 Tables 4-3 to 4-5) -/

/-- The opcodes a core lists. -/
def coreOps : List Nat := [1, 2, 3, 4]

/-- The FENCE bit. -/
def cmdFence (b : Bytes) : Bool := bit (fld b 1 1) 7

/-- The arrays a mask names, rising. -/
def maskArrays (m : Nat) : List Nat := (List.range 4).filter fun a => bit m a

/-- The arrays a core command names. -/
def cmdArrays (b : Bytes) : List Nat :=
  if cmdOp b = 1 then [bits (fld b 2 1) 1 0] else maskArrays (fld b 2 1)

/-- A TAMP is well formed (spec/04 R102, spec/03 R64). -/
def tampOk (b : Bytes) : Bool :=
  bits (fld b 2 1) 7 2 = 0 && bits (fld b 3 1) 7 4 = 0 && zeroAt b 5 3 && zeroAt b 20 44 &&
  fld b 8 8 % 64 = 0 && fmtOk (fld b 4 1) && fld b 16 4 = tileSize (fld b 4 1)

/-- The operation of a PASS. -/
def passOper (b : Bytes) : Nat := bits (fld b 3 1) 3 0
/-- The arg-best reduction of a PASS. -/
def passBest (b : Bytes) : Nat := bits (fld b 3 1) 5 4
/-- The tag a PASS names for an array. -/
def passTag (b : Bytes) (a : Nat) : Nat := bits (fld b 4 2) (4 * a + 3) (4 * a)

/-- The formats of a PASS fit its operation (spec/03 R65, R83). -/
def passFmtOk (b : Bytes) : Bool :=
  let w := fld b 6 1
  let a := fld b 7 1
  fmtOk w && fmtOk a && actOk w a &&
  (match passOper b with
   | 0 => fmtElem w ≠ 11 && (passBest b = 0 || fmtSparse w = 0)
   | 1 | 2 => fmtSparse w = 0 && diffElem (fmtElem w) && diffElem (fmtElem a)
   | 3 => fmtElem w = 11
   | _ => false)

/-- A PASS is well formed (spec/04 R102). -/
def passOk (b : Bytes) : Bool :=
  bits (fld b 2 1) 7 4 = 0 && fld b 2 1 ≠ 0 && !bit (fld b 3 1) 7 && passBest b ≠ 3 && passFmtOk b &&
  fld b 8 8 % 64 = 0 && fld b 20 4 % 64 = 0 && 1 ≤ fld b 16 2 && fld b 16 2 ≤ 65536 / tileN (fld b 6 1) &&
  zeroAt b 24 40

/-- An output format an EPI may write: dense, no BIN1 (spec/04 Table 4-5, log 9). -/
def outFmtOk (f : Nat) : Bool := f < 32 && fmtElem f ≤ 12 && fmtElem f ≠ 11

/-- The step codes of an EPI. -/
def epiSteps (b : Bytes) : List Nat := (List.range (bits (fld b 3 1) 2 0)).map fun i => fld b (40 + 4 * i) 1

/-- A step of Table 4-6 other than 'no step'. -/
def stepListed (x : Nat) : Bool := [1, 2, 3, 0x10, 0x11, 0x12, 0x13, 0x14, 0x15, 0x30, 0x31, 0x32].contains x

/-- Whether an EPI reads only the arg-best pairs. -/
def epiPairs (b : Bytes) : Bool := bit (fld b 5 1) 7

/-- Entries per row per array of an EPI. -/
def epiWidth (b : Bytes) : Nat := 2 ^ bits (fld b 5 1) 3 0

/-- An EPI is well formed (spec/04 R102, R103). -/
def epiOk (b : Bytes) : Bool :=
  bits (fld b 2 1) 7 4 = 0 && fld b 3 1 ≤ 4 && outFmtOk (fld b 4 1) &&
  5 ≤ bits (fld b 5 1) 3 0 && bits (fld b 5 1) 3 0 ≤ 9 && bits (fld b 5 1) 6 4 = 0 &&
  zeroAt b 10 6 && fld b 16 8 % 64 = 0 && fld b 24 4 % 64 = 0 && zeroAt b 28 4 && fld b 56 8 % 64 = 0 &&
  zeroAt b 41 3 && zeroAt b 45 3 && zeroAt b 49 3 && zeroAt b 53 3 &&
  (epiSteps b).all stepListed && ((List.range 4).drop (fld b 3 1)).all (fun i => fld b (40 + 4 * i) 1 = 0) &&
  ((epiSteps b).filter (fun x => 0x30 ≤ x)).length ≤ 1 &&
  (!epiPairs b || (fld b 3 1 = 0 && fld b 4 1 = 0))

/-- The rows of accumulator entries a PASS or EPI names on each of its arrays, first entry and end (spec/05 R119). -/
def accRange (x : CtxCfg) (b : Bytes) : Nat × Nat :=
  let w := if cmdOp b = 2 then tileN (fld b 6 1) else epiWidth b
  let rows := if cmdOp b = 2 then fld b 16 2 else fld b 6 2
  let row := if cmdOp b = 2 then fld b 18 2 else fld b 8 2
  (x.accBase.toNat * 1024 + row * w, x.accBase.toNat * 1024 + (row + rows) * w)

/-- The entries an EPI reads on each of its arrays: with PAIRS the first two of each row (spec/04 R103). -/
def epiReads (x : CtxCfg) (b : Bytes) : List (Nat × Nat) :=
  let r := accRange x b
  if epiPairs b then (List.range (fld b 6 2)).map fun i => (r.1 + i * epiWidth b, r.1 + i * epiWidth b + 2) else [r]

/-- The end of the entries a PASS or EPI uses; the start of the context's share for a command that uses none. -/
def accEnd (x : CtxCfg) (b : Bytes) : Nat :=
  let r := accRange x b
  if r.1 < r.2 then r.2 else x.accBase.toNat * 1024

/-- The entries a PASS still owns on each of its arrays: those of the rows not yet written (spec/04 R97). -/
def passOwns (x : CtxCfg) (p : PassOp) : Nat × Nat :=
  let r := accRange x p.cmd.bytes
  (r.1 + p.written * tileN (fld p.cmd.bytes 6 1), r.2)

/-- Whether entries that an EPI of a context reads lie in a range of entries on a common array. -/
def epiMeets (s : State) (c : Nat) (b : Bytes) (arrays : List Nat) (r : Nat × Nat) : Bool :=
  (cmdArrays b).any (fun a => arrays.contains a) &&
  (epiReads (getCtx s c) b).any fun x => x.1 < r.2 && r.1 < x.2 && x.1 < x.2

/-- The PASSes of a core that own entries, oldest first. -/
def owningPasses (x : CoreSt) : List PassOp := x.draining ++ x.stream.toList

/-- FENCE is satisfied: every earlier PASS and EPI of the context on the arrays named has released its entries
(spec/04 R100). -/
def fenceClear (x : CoreSt) (c : Nat) (b : Bytes) : Bool :=
  let clash := fun (d : Nat) (b' : Bytes) => d = c && (cmdArrays b).any fun a => (cmdArrays b').contains a
  !(owningPasses x).any (fun p => clash p.ctx p.cmd.bytes) && !x.vec.toList.any (fun p => clash p.ctx p.cmd.bytes)

/-- The accumulator and tile-count claims (spec/05 Table 5-3 codes 1 and 6). -/
def accClaim (s : State) (k c : Nat) (b : Bytes) : Option Overflow :=
  let m := mapInForce s k c
  let x := getCtx s c
  let last := accEnd x b
  if (cmdArrays b).any (fun a => !bit m.arrays a) then
    some { resource := 1, claimed := m.arrays, required := fld b 2 1, mapId := m.id }
  else if last > (x.accBase.toNat + m.accUnits) * 1024 then
    some { resource := 1, claimed := m.accUnits * 1024, required := last - x.accBase.toNat * 1024, mapId := m.id }
  else if cmdOp b = 3 && m.id ≠ 0 && m.done = m.total then
    some { resource := 6, claimed := m.total, required := m.done + 1, mapId := m.id }
  else none

/-! ### Banks -/

/-- A bank of a core. -/
def getBank (x : CoreSt) (a b : Nat) : Bank := tabGet {} x.banks (a * 2 + b)

/-- Change a bank. -/
def modBank (x : CoreSt) (a b : Nat) (f : Bank → Bank) : CoreSt := { x with banks := tabMod {} x.banks (a * 2 + b) f }

/-- The weight-bank claim (spec/05 Table 5-3 code 2). -/
def bankClaim (s : State) (k c a : Nat) : Option Overflow :=
  let m := mapInForce s k c
  let held := (List.range 2).filter fun b => (getBank (getCore s k) a b).state ≠ .free && (getBank (getCore s k) a b).ctx = c
  if !bit m.arrays a then some { resource := 2, claimed := m.arrays, required := 2 ^ a, mapId := m.id }
  else if m.banks = 1 && held ≠ [] then some { resource := 2, claimed := 1, required := 2, mapId := m.id }
  else none

/-- The bank a TAMP may load now (spec/04 R92-R94): the context holds no READY bank of the array, no other bank in use
carries the tag, and the bank is FREE to this context. The lowest-numbered such bank is taken (log 10). -/
def bankFor (x : CoreSt) (c a tag : Nat) : Option Nat :=
  let bk := getBank x a
  if (List.range 2).any (fun b => (bk b).state = .ready && (bk b).ctx = c) then none
  else if (List.range 2).any (fun b => (bk b).state ≠ .free && (bk b).tag = tag) then none
  else (List.range 2).find? fun b => (bk b).state = .free && (!(bk b).used || (bk b).ctx = c || (bk b).settled)

/-- The bank that holds a context's tile with a tag, READY or (if allowed) LOADING. -/
def bankWith (x : CoreSt) (c a tag : Nat) (loading : Bool) : Option Nat :=
  (List.range 2).find? fun b =>
    let k := getBank x a b
    k.ctx = c && k.tag = tag && (k.state = .ready || (loading && k.state = .loading))

/-! ### TAMP -/

/-- TAMP at the head of its context's queue (spec/04 R91, R94, R102; spec/05 R120): checked once, after any FENCE
wait. -/
def tampCheck (s : State) (k c : Nat) : State :=
  headRow s (coreEng k) c coreOps 1 fun q =>
    let b := q.bytes
    let x := getCore s k
    let a := bits (fld b 2 1) 1 0
    let tag := fld b 3 1
    if q.checked then s
    else if !tampOk b then completeHead s (coreEng k) c q .internal
    else if cmdFence b && !fenceClear x c b then s
    else match bankClaim s k c a with
      | some o => completeHead s (coreEng k) c q .mapOverflow o
      | none =>
        if (List.range 2).any (fun i => (getBank x a i).state ≠ .free && (getBank x a i).ctx = c && (getBank x a i).tag = tag)
        then completeHead s (coreEng k) c q .mapHazard
        else markHead s (coreEng k) c

/-- The checked command a context has at the head of its queue, with an opcode. -/
def checkedHead (s : State) (e : Eng) (c op : Nat) : Option QCmd :=
  match headCmd s e c with
  | some q => if q.checked && q.verdict = none && cmdOp q.bytes = op then some q else none
  | none => none

/-- The contexts whose waiting TAMP has a bank available. -/
def tampReady (s : State) (k : Nat) : List Nat :=
  (engContexts s (coreEng k)).filter fun c => match checkedHead s (coreEng k) c 1 with
    | some q => (bankFor (getCore s k) c (bits (fld q.bytes 2 1) 1 0) (fld q.bytes 3 1)).isSome
    | none => false

/-- TAMP_START: the load path is free, it is the context's turn, and a bank is available; the image is read
(spec/04 R91, R92). -/
def tampBegin (s : State) (k c : Nat) : State :=
  match (getCore s k).load, checkedHead s (coreEng k) c 1 with
  | none, some q =>
    match takeTurn s (coreEng k) 1 c (tampReady s k) with
    | none => s
    | some s =>
      let a := bits (fld q.bytes 2 1) 1 0
      match bankFor (getCore s k) c a (fld q.bytes 3 1) with
      | none => s
      | some bk =>
        match runActVal (rd (whoOf (coreEng k) c) (fld q.bytes 8 8) (fld q.bytes 16 4)) s with
        | (.error st, s) => completeHead s (coreEng k) c q st
        | (.ok img, s) =>
          modCore (popQ s (coreEng k) c) k fun x =>
            { modBank x a bk (fun _ => { state := .loading, ctx := c, tag := fld q.bytes 3 1, wfmt := fld q.bytes 4 1,
                                         used := true, settled := true, img := img }) with
              load := some { ctx := c, array := a, bank := bk, cmd := q } }
  | _, _ => s

/-- TAMP_LOAD_DONE: the bank is READY and the TAMP completes (spec/04 R91, R107). -/
def tampEnd (s : State) (k : Nat) : State :=
  match (getCore s k).load with
  | none => s
  | some l =>
    let s := modCore s k fun x => { modBank x l.array l.bank (fun y => { y with state := .ready }) with load := none }
    completeCmd s (coreEng k) l.ctx l.cmd .ok

/-! ### PASS -/

/-- PASS at the head of its context's queue (spec/04 R86, R95, R99; spec/05 R120). -/
def passCheck (s : State) (k c : Nat) : State :=
  headRow s (coreEng k) c coreOps 2 fun q =>
    let b := q.bytes
    let x := getCore s k
    let found := fun a => bankWith x c a (passTag b a) true
    if q.checked then s
    else if !passOk b then completeHead s (coreEng k) c q .internal
    else if cmdFence b && !fenceClear x c b then s
    else match accClaim s k c b with
      | some o => completeHead s (coreEng k) c q .mapOverflow o
      | none =>
        if (cmdArrays b).any (fun a => (found a).isNone) then completeHead s (coreEng k) c q .mapHazard
        else if (cmdArrays b).any (fun a => match found a with
            | some i => (getBank x a i).wfmt ≠ fld b 6 1
            | none => false) then completeHead s (coreEng k) c q .internal
        else if !cmdFence b && x.vec.toList.any (fun p =>
            epiMeets s p.ctx p.cmd.bytes (cmdArrays b) (accRange (getCtx s c) b)) then
          completeHead s (coreEng k) c q .mapHazard
        else markHead s (coreEng k) c

/-- The READY banks of a PASS, if every array of its mask has one (spec/04 R95). -/
def passBanks (x : CoreSt) (c : Nat) (b : Bytes) : Option (List (Nat × Nat)) :=
  (cmdArrays b).mapM fun a => (bankWith x c a (passTag b a) false).map fun i => (a, i)

/-- The contexts whose waiting PASS has its banks READY. -/
def passReady (s : State) (k : Nat) : List Nat :=
  (engContexts s (coreEng k)).filter fun c => match checkedHead s (coreEng k) c 2 with
    | some q => (passBanks (getCore s k) c q.bytes).isSome
    | none => false

/-- The activation images of a PASS (spec/04 R102). -/
def passImages (e : Eng) (c : Nat) (b : Bytes) : Act (List Bytes) :=
  (List.range (ceilDiv (fld b 16 2) 64)).mapM fun i =>
    rd (whoOf e c) (fld b 8 8 + i * fld b 20 4) (actSize (fld b 7 1))

/-- PASS_START: the stream is free, it is the context's turn and its banks are READY, so they become ACTIVE
(spec/04 R85, R95). -/
def passBegin (s : State) (k c : Nat) : State :=
  match (getCore s k).stream, checkedHead s (coreEng k) c 2 with
  | none, some q =>
    match takeTurn s (coreEng k) 0 c (passReady s k) with
    | none => s
    | some s =>
      match passBanks (getCore s k) c q.bytes with
      | none => s
      | some bks =>
        match runActVal (passImages (coreEng k) c q.bytes) s with
        | (.error st, s) => completeHead s (coreEng k) c q st
        | (.ok acts, s) =>
          modCore (popQ s (coreEng k) c) k fun x =>
            let imgs := bks.map fun p => (getBank x p.1 p.2).img
            let x := bks.foldl (fun x p => modBank x p.1 p.2 fun y => { y with state := .active, settled := false }) x
            { x with stream := some { ctx := c, banks := bks, acts := acts, imgs := imgs, cmd := q } }
  | _, _ => s

/-- What an accumulator entry holds. -/
def accGet (x : CoreSt) (a i : Nat) : BitVec 32 :=
  match tabFind x.acc (a * 65536 + i) with
  | some v => v
  | none => match x.undef.find? fun r => r.1 ≤ i && i < r.2.1 with
    | some r => Config.accUndefined r.2.2 (a * 65536 + i)
    | none => 0

/-- Replace the two first entries of a row by its best value and column (spec/03 R82). -/
def withBest (b : Bytes) (row : List (BitVec 32)) : List (BitVec 32) :=
  match passBest b, row with
  | 0, r => r
  | m, v :: _ :: rest =>
    let int := isInt (fmtElem (fld b 6 1)) || passOper b = 3
    let best := argBest int (m = 1) row.tail 1 (v, 0)
    best.1 :: BitVec.ofNat 32 best.2 :: rest
  | _, r => r

/-- The new entries of row `r` of a PASS on array `a` (spec/03 R73, R82). -/
def passRow (x : CoreSt) (cfg : CtxCfg) (p : PassOp) (a : Nat) (t : TileView) (r : Nat) : List (Nat × BitVec 32) :=
  let b := p.cmd.bytes
  let w := tileN (fld b 6 1)
  let base := (accRange cfg b).1 + r * w
  let ar := actRow (fld b 7 1) (p.acts.getD (r / 64) []) (r % 64)
  let row := (List.range w).map fun n =>
    passEntry (passOper b) (bit (fld b 3 1) 6) t ar n (accGet x a (base + n))
  (withBest b row).zipIdx.map fun v => (a * 65536 + base + v.2, v.1)

/-- What a PASS writes in the rows from its next one up to row `n`. -/
def passWrites (x : CoreSt) (cfg : CtxCfg) (p : PassOp) (n : Nat) : List (Nat × BitVec 32) :=
  ((p.banks.zip p.imgs).map fun bi =>
    let t := tileView (fld p.cmd.bytes 6 1) bi.2
    ((List.range (n - p.written)).map fun r => passRow x cfg p bi.1.1 t (p.written + r)).flatten).flatten

/-- The rows of a PASS. -/
def PassOp.rows (p : PassOp) : Nat := fld p.cmd.bytes 16 2

/-- Whether a PASS sums in INT32 (spec/03 R74, R80). -/
def PassOp.int (p : PassOp) : Bool := isInt (fmtElem (fld p.cmd.bytes 6 1)) || passOper p.cmd.bytes = 3

/-- The output stage writes a PASS's rows up to row `n`, and releases their entries (spec/04 R87, R97). -/
def writeRowsTo (s : State) (x : CoreSt) (p : PassOp) (n : Nat) : CoreSt × PassOp :=
  let n := min n p.rows
  let ws := passWrites x (getCtx s p.ctx) p n
  ({ x with acc := ws.foldl (fun t w => tabPut t w.1 w.2) x.acc
            ints := ws.foldl (fun t w => tabSet false t w.1 p.int) x.ints },
   { p with written := max p.written n })

/-- The output stage has written `n` rows of PASSes, taken in order. -/
def writeTo (s : State) : List PassOp → Nat → CoreSt → CoreSt × List PassOp
  | [], _, x => (x, [])
  | p :: ps, n, x =>
    let r := writeRowsTo s x p n
    let t := writeTo s ps (n - p.rows) r.1
    (t.1, r.2 :: t.2)

/-- Rows of PASSes in all. -/
def rowsOf (l : List PassOp) : Nat := (l.map PassOp.rows).sum

/-- Among the PASSes that own entries, the output stage has written the first `n` rows (spec/04 R87). -/
def outputTo (s : State) (k n : Nat) : State :=
  modCore s k fun x =>
    let r := writeTo s (owningPasses x) n x
    { r.1 with draining := r.2.take x.draining.length, stream := (r.2.drop x.draining.length).head? }

/-- PASS_LAST_ROW_ENTERED: rows that entered 132 beats ago are written, the banks drain and the stream is free
(spec/04 R87, R89). -/
def passLastRow (s : State) (k : Nat) : State :=
  match (getCore s k).stream with
  | none => s
  | some _ => modCore (outputTo s k (rowsOf (owningPasses (getCore s k)) - 132)) k fun x =>
    match x.stream with
    | none => x
    | some p =>
      let x := p.banks.foldl (fun x q => modBank x q.1 q.2 fun y => { y with state := .draining }) x
      { x with stream := none, draining := x.draining ++ [p] }

/-- Rows of the PASSes that drain, up to the one that uses a bank. -/
def rowsThrough (bank : Nat × Nat) : List PassOp → Nat
  | [] => 0
  | p :: ps => p.rows + if p.banks.contains bank then 0 else rowsThrough bank ps

/-- BANK_FREE_HANDSHAKE of one bank, 128 beats after the last row of its PASS entered: all but its last four rows are written
(spec/04 R87, R89). -/
def bankFree (s : State) (k a b : Nat) : State :=
  if (getBank (getCore s k) a b).state = .draining then
    modCore (outputTo s k (rowsThrough (a, b) (getCore s k).draining - 4)) k fun x =>
      modBank x a b fun y => { y with state := .free, img := [] }
  else s

/-- The rows that can be written by now when a command says `n` are: of a PASS that still streams, none of the last 132. -/
def rowsWritten (x : CoreSt) (n : Nat) : Nat :=
  min n (rowsOf (owningPasses x) - if x.stream.isSome then 132 else 0)

/-- The banks of a PASS that has ended are free to every context (spec/04 R92). -/
def settleBanks (x : CoreSt) (p : PassOp) : CoreSt :=
  p.banks.foldl (fun x q => modBank x q.1 q.2 fun y => if y.state = .free then { y with settled := true } else y) x

/-- PASS_COMPLETE: the oldest PASS whose banks have left DRAINING writes its last results, releases its entries and
completes (spec/04 R97, R107). -/
def passEnd (s : State) (k : Nat) : State :=
  match (getCore s k).draining with
  | [] => s
  | p :: rest =>
    if p.banks.any (fun q => (getBank (getCore s k) q.1 q.2).state = .draining) then s
    else
      let s := modCore s k fun x =>
        { settleBanks (writeRowsTo s x p p.rows).1 p with draining := rest, passes := x.passes + 1 }
      completeCmd s (coreEng k) p.ctx p.cmd .ok

/-! ### EPI -/

/-- The contexts whose EPI could start. -/
def epiReady (s : State) (k : Nat) : List Nat :=
  (engContexts s (coreEng k)).filter fun c => match headCmd s (coreEng k) c with
    | some q => q.verdict = none && cmdOp q.bytes = 3 && (!cmdFence q.bytes || fenceClear (getCore s k) c q.bytes)
    | none => false

/-- A checked EPI starts when the vector unit is free and the turn is its, or meets entries that a PASS owns
(spec/04 R97, R99). -/
def epiStart (s : State) (k c : Nat) (q : QCmd) : State :=
  let x := getCore s k
  let b := q.bytes
  if x.vec.isSome then s else
  match takeTurn s (coreEng k) 2 c (epiReady s k) with
  | none => s
  | some s =>
    if !cmdFence b && (owningPasses x).any (fun p =>
        epiMeets s c b (cmdArrays p.cmd.bytes) (passOwns (getCtx s p.ctx) p)) then
      completeHead s (coreEng k) c q .mapHazard
    else modCore (popQ s (coreEng k) c) k fun y => { y with vec := some { ctx := c, cmd := q } }

/-- EPI at the head of its context's queue: after any FENCE wait it is checked once, then it waits for the vector unit and its
turn (spec/04 R99, R100, R103; spec/05 R120). `wrote` is how far the output stage is in that beat. -/
def epiBegin (s : State) (k c wrote : Nat) : State :=
  let s := outputTo s k (rowsWritten (getCore s k) wrote)
  headRow s (coreEng k) c coreOps 3 fun q =>
    let b := q.bytes
    if q.checked then epiStart s k c q
    else if cmdFence b && !fenceClear (getCore s k) c b then s
    else if !epiOk b then completeHead s (coreEng k) c q .internal
    else match accClaim s k c b with
      | some o => completeHead s (coreEng k) c q .mapOverflow o
      | none => epiStart (markHead s (coreEng k) c) k c { q with checked := true }

/-- An FP32 word from memory. -/
def rdF32 (w : Who) (a : Nat) : Act (BitVec 32) := do return BitVec.ofNat 32 (← rdNat w a 4)

/-- The `n` words of one per-column vector of an EPI: scale 0, bias 1, norm weight 2, norm bias 3 (log 11). -/
def epiVector (w : Who) (b : Bytes) (n k : Nat) : Act (List (BitVec 32)) :=
  (List.range n).mapM fun i => rdF32 w (fld b 32 8 + (k * n + i) * 4)

/-- Where row `r`, column `c` of a set of activation tile images lies: the image's address, and row and column in it.
Images follow one another row group by row group (spec/06 R127). -/
def imageAt (base stride cols r c : Nat) : Nat := base + (r / 64 * ceilDiv cols 64 + c / 64) * stride

/-- One element of an activation tile image in memory, converted to FP32 (spec/03 R70, R78); a value that FP32 does not hold,
an MX element beyond its range or a long INT32, is rounded as R76 rounds (log 89). -/
def rdElem (w : Who) (img f r c : Nat) : Act (BitVec 32) := do
  let bw := elemBits (fmtElem f)
  let bitpos := (r * 64 + c) * bw
  let raw ← rdNat w (img + bitpos / 8) (ceilDiv (bitpos % 8 + bw) 8)
  let v := elemVal (fmtElem f) (raw / 2 ^ (bitpos % 8) % 2 ^ bw)
  if isMx (fmtElem f) then
    let sc ← rdNat w (img + actElems f + 2 * r + c / 32) 1
    return f32Enc (v.mul (scaleVal sc))
  else return f32Enc v

/-- The row steps, and NaN on a NaN input: of the row, or of the weight or bias of the column (spec/03 R79). -/
def rowStep (code : Nat) (row weight bias : List (BitVec 32)) (i : Nat) : BitVec 32 :=
  let nan := fun x => (f32Dec x).isNan
  if row.any nan || (code ≠ 0x30 && nan (weight.getD i 0)) || (code = 0x32 && nan (bias.getD i 0)) then f32Nan
  else match code with
    | 0x30 => vSoftmax row i
    | 0x31 => vRms row weight i
    | _ => vLayer row weight bias i

/-- One step of an EPI on a row (spec/04 Table 4-6). -/
def epiStep (vecs : List (List (BitVec 32))) (resid : List (BitVec 32)) (code : Nat) (row : List (BitVec 32)) :
    List (BitVec 32) :=
  let col := fun k i => (vecs.getD k []).getD i 0
  row.zipIdx.map fun vi =>
    let v := vi.1
    let i := vi.2
    match code with
    | 0x01 => f32Mul v (col 0 i)
    | 0x02 => f32Add v (col 1 i)
    | 0x03 => f32Add v (resid.getD i 0)
    | 0x10 => vRelu v
    | 0x11 => vGeluErf v
    | 0x12 => vGeluTanh v
    | 0x13 => vSilu v
    | 0x14 => vSigmoid v
    | 0x15 => vTanh v
    | _ => rowStep code row (vecs.getD 2 []) (vecs.getD 3 []) i

/-- Write up to 64 columns of one row of an activation tile image (spec/03 R62, R70, R76). -/
def wrImageRow (w : Who) (img f r : Nat) (vals : List Val) : Act Unit := do
  let e := fmtElem f
  let bw := elemBits e
  if isMx e then
    let q0 := mxQuant e (vals.take 32)
    let q1 := mxQuant e (vals.drop 32)
    wr w (img + r * 8 * bw) (packBytes bw (q0.2 ++ if vals.length > 32 then q1.2 else []))
    wr w (img + actElems f + 2 * r) (toLe 1 q0.1 ++ if vals.length > 32 then toLe 1 q1.1 else [])
  else wr w (img + r * 8 * bw) (packBytes bw (vals.map (elemEnc e)))

/-- Write one row of `cols` values as activation tile images. -/
def wrRow (w : Who) (base stride f r : Nat) (row : List (BitVec 32)) : Act Unit :=
  (List.range (ceilDiv row.length 64)).forM fun t =>
    wrImageRow w (imageAt base stride row.length r (64 * t)) f (r % 64) (((row.drop (64 * t)).take 64).map f32Dec)

/-- The entries row `r` of an EPI reads, columns in array order (spec/04 R103). -/
def epiRow (x : CoreSt) (cfg : CtxCfg) (b : Bytes) (r : Nat) : List (BitVec 32) :=
  let w := epiWidth b
  let base := (accRange cfg b).1 + r * w
  ((cmdArrays b).map fun a => (List.range (if epiPairs b then 2 else w)).map fun i => accGet x a (base + i)).flatten

/-- The same entries as FP32: an INT32 sum is converted (spec/03 R78, log 89). -/
def epiRowF32 (x : CoreSt) (cfg : CtxCfg) (b : Bytes) (r : Nat) : List (BitVec 32) :=
  let w := epiWidth b
  let base := (accRange cfg b).1 + r * w
  ((cmdArrays b).map fun a => (List.range w).map fun i =>
    let v := accGet x a (base + i)
    if tabGet false x.ints (a * 65536 + (base + i)) then f32Enc (elemVal 12 v.toNat) else v).flatten

/-- The per-column vectors that the steps of an EPI read, in the order of `epiVector`. -/
def epiNeeds (b : Bytes) : List Bool :=
  let x := epiSteps b
  [x.contains 1, x.contains 2, x.contains 0x31 || x.contains 0x32, x.contains 0x32]

/-- The regions an EPI names (spec/07 R157). -/
def epiRegions (b : Bytes) : List (Nat × Nat) :=
  let rows := fld b 6 2
  let width := epiWidth b * (cmdArrays b).length
  let tiles := ceilDiv rows 64 * ceilDiv width 64 * fld b 24 4
  if epiPairs b then [(fld b 16 8, rows * 8 * (cmdArrays b).length)] else
  (fld b 16 8, tiles) :: (fld b 56 8, if (epiSteps b).contains 3 then tiles else 0) ::
    (epiNeeds b).zipIdx.map fun p => (fld b 32 8 + p.2 * width * 4, if p.1 then width * 4 else 0)

/-- Everything an EPI writes; between its steps a row stays FP32, and it is rounded to the output format once, at the end
(DESIGN CHOICE, log 90). -/
def epiWork (k c : Nat) (b : Bytes) : Act Unit := do
  let s ← get
  let w := whoOf (coreEng k) c
  let x := getCore s k
  let cfg := getCtx s c
  let rows := fld b 6 2
  stopIf (namesWheel (epiRegions b)) .internal
  if epiPairs b then
    (List.range rows).forM fun r =>
      let row := epiRow x cfg b r
      wr w (fld b 16 8 + r * row.length * 4) (row.map fun v => toLe 4 v.toNat).flatten
  else
    let n := epiWidth b * (cmdArrays b).length
    let steps := epiSteps b
    let vecs ← (epiNeeds b).zipIdx.mapM fun p => if p.1 then epiVector w b n p.2 else pure []
    let f := fld b 4 1
    (List.range rows).forM fun r => do
      let resid ← if steps.contains 3 then
          (List.range n).mapM fun i => rdElem w (imageAt (fld b 56 8) (fld b 24 4) n r i) f (r % 64) (i % 64)
        else pure []
      let row := steps.foldl (fun row code => epiStep vecs resid code row) (epiRowF32 x cfg b r)
      wrRow w (fld b 16 8) (fld b 24 4) f r row

/-- One more output tile of the installed map is done (spec/05 R124, R125). -/
def tileDone (s : State) (k c : Nat) : State :=
  match tabFind (getCore s k).maps c with
  | none => s
  | some m =>
    let m := { m with done := m.done + 1 }
    let s := modCore s k fun x => { x with maps := tabPut x.maps c m }
    let s := (writeProgress s k c m false).2
    if m.done = m.total then reportMap s k c m.id .ok else s

/-- EPI_COMPLETE (spec/04 R103, R107). -/
def epiEnd (s : State) (k : Nat) : State :=
  match (getCore s k).vec with
  | none => s
  | some p =>
    let r := runAct (epiWork k p.ctx p.cmd.bytes) s
    let s := modCore r.2 k fun x => { x with vec := none }
    let s := if r.1 = .ok then tileDone s k p.ctx else s
    completeCmd s (coreEng k) p.ctx p.cmd r.1

/-! ### MAP (spec/05 R114-R118) -/

/-- Whether a command of the context is running on the core. -/
def coreBusy (x : CoreSt) (c : Nat) : Bool :=
  x.load.toList.any (·.ctx = c) || x.stream.toList.any (·.ctx = c) || x.draining.any (·.ctx = c) ||
  x.vec.toList.any (·.ctx = c)

/-- A MAP is well formed (spec/05 R114). -/
def mapCmdOk (b : Bytes) : Bool :=
  fld b 2 1 ≤ 1 && zeroAt b 3 5 && fld b 8 8 % 64 = 0 && (fld b 2 1 = 0 || fld b 8 8 = 0) && fld b 16 8 % 32 = 0 &&
  zeroAt b 24 40

/-- Close the context's map: a final record with CLOSED set, then the default map (spec/05 R115). -/
def closeMap (s : State) (k c : Nat) : State :=
  match tabFind (getCore s k).maps c with
  | none => s
  | some m =>
    let s := (writeProgress s k c m true).2
    modCore s k fun x => { x with maps := tabDel x.maps c }

/-- The credit entries of a descriptor. -/
def descCredits (d : Bytes) : List (Nat × Nat) :=
  (List.range (fld d 36 1)).map fun e => (fld d (64 + 8 * e) 2, fld d (68 + 8 * e) 4)

/-- A descriptor keeps the rules of Table 5-2 and R111. -/
def descOk (d : Bytes) (c : Nat) : Bool :=
  let n := tileN (fld d 4 1)
  let tm := fld d 24 2
  let cr := descCredits d
  fld d 0 1 = 1 && fld d 1 1 = c && 1 ≤ fld d 2 2 && fmtOk (fld d 4 1) && fmtOk (fld d 5 1) && fld d 5 1 < 32 &&
  outFmtOk (fld d 6 1) && fld d 7 1 ≠ 0 && fld d 7 1 < 16 && 1 ≤ fld d 8 4 && 1 ≤ fld d 12 4 &&
  1 ≤ fld d 16 2 && fld d 16 2 ≤ 128 && 1 ≤ fld d 18 2 && fld d 18 2 ≤ 128 && fld d 16 2 * fld d 18 2 ≤ 128 &&
  fld d 20 2 < fld d 16 2 && fld d 22 2 < fld d 18 2 && tm % 64 = 0 && 64 ≤ tm && tm ≤ min 1024 (65536 / n) &&
  zeroAt d 26 2 && 1 ≤ fld d 28 1 && fld d 28 1 ≤ 64 && 1 ≤ fld d 29 1 && fld d 29 1 ≤ 2 &&
  1 ≤ fld d 30 2 && fld d 30 2 ≤ 1024 && fld d 32 4 ≤ 4096 && fld d 36 1 ≤ 8 && zeroAt d 37 27 &&
  (List.range 8).all (fun e => if e < fld d 36 1 then zeroAt d (66 + 8 * e) 2 && 1 ≤ fld d (68 + 8 * e) 4
    else zeroAt d (64 + 8 * e) 8) &&
  (cr.map (·.1)).Nodup

/-- TILES_TOTAL (spec/05 R112). -/
def tilesTotal (d : Bytes) : Nat :=
  let tn := (maskArrays (fld d 7 1)).length * tileN (fld d 4 1)
  let m := fld d 8 4
  let n := fld d 12 4
  let mc := ceilDiv (ceilDiv m (fld d 16 2)) 64 * 64
  let nc := ceilDiv (ceilDiv n (fld d 18 2)) tn * tn
  let row0 := fld d 20 2 * mc
  let col0 := fld d 22 2 * nc
  let rows := min m (row0 + mc) - row0
  let cols := min n (col0 + nc) - col0
  ceilDiv rows (fld d 24 2) * ceilDiv cols tn

/-- The first claim of a descriptor beyond the context's share (spec/05 R117). -/
def descClaim (s : State) (d : Bytes) (c : Nat) : Option Overflow :=
  let x := getCtx s c
  let id := fld d 2 2
  if fld d 28 1 > x.accSize.toNat then some { resource := 1, claimed := fld d 28 1, required := x.accSize.toNat, mapId := id }
  else if fld d 30 2 > x.queue.toNat then some { resource := 3, claimed := fld d 30 2, required := x.queue.toNat, mapId := id }
  else if fld d 32 4 > x.pin.toNat then some { resource := 4, claimed := fld d 32 4, required := x.pin.toNat, mapId := id }
  else match (descCredits d).find? fun e => e.2 > (getGrant s e.1 (ownModule s) c).granted.toNat with
    | some e => some { resource := 5, claimed := e.2, required := (getGrant s e.1 (ownModule s) c).granted.toNat, mapId := id }
    | none => none

/-- The map a descriptor describes. -/
def mapOfDesc (d : Bytes) (progress : Nat) : MapRec :=
  { id := fld d 2 2, arrays := fld d 7 1, accUnits := fld d 28 1, banks := fld d 29 1, queue := fld d 30 2,
    pinGranules := fld d 32 4, credits := descCredits d, total := tilesTotal d, progress := progress }

/-- MAP_INSTALL (spec/05 R115-R117). -/
def mapInstall (s : State) (k c : Nat) : State :=
  headRow s (coreEng k) c coreOps 4 fun q =>
    let b := q.bytes
    let e := coreEng k
    if coreBusy (getCore s k) c then s
    else if !mapCmdOk b then completeHead s e c q .internal
    else if fld b 2 1 = 1 then s
    else
      let s := closeMap s k c
      match runActVal (rd (whoOf e c) (fld b 8 8) 128) s with
      | (.error st, s) => completeHead s e c q st
      | (.ok d, s) =>
        if !descOk d c then completeHead s e c q .internal
        else match descClaim s d c with
          | some o => completeHead s e c q .mapOverflow o
          | none =>
            let m := mapOfDesc d (fld b 16 8)
            match writeProgress s k c m false with
            | (.ok, s) =>
              let s := modCore s k fun x => { x with maps := tabPut x.maps c m }
              let s := mapIsNew s c m.id
              let s := if m.total = 0 then reportMap s k c m.id .ok else s
              completeHead s e c q .ok
            | (st, s) => completeHead s e c q st

/-- MAP_CLOSE (spec/05 R115). -/
def mapClose (s : State) (k c : Nat) : State :=
  headRow s (coreEng k) c coreOps 4 fun q =>
    if coreBusy (getCore s k) c then s
    else if !mapCmdOk q.bytes then completeHead s (coreEng k) c q .internal
    else if fld q.bytes 2 1 = 0 then s
    else completeHead (closeMap s k c) (coreEng k) c q .ok

/-! ### Clearing -/

/-- The entries of a context's share, on every array of a core, hold undefined values from now on
(spec/18 Tables 18-2, R456). -/
def accLost (x : CoreSt) (lo hi gen : Nat) : CoreSt :=
  { x with acc := x.acc.filter (fun p => !(lo ≤ p.1 % 65536 && p.1 % 65536 < hi)), undef := (lo, hi, gen) :: x.undef
           ints := x.ints.filter fun p => !(lo ≤ p.1 % 65536 && p.1 % 65536 < hi) }

/-- Every bank a context holds goes to FREE. -/
def freeBanks (x : CoreSt) (c : Nat) : CoreSt :=
  { x with banks := tabMap (fun _ b => if b.ctx = c && b.state ≠ .free then
      { b with state := .free, settled := true, img := [] } else b) x.banks }

/-- The rows of the cores. -/
def execTamp (core ctx : Nat) (s : State) : Host.Outcome State Fault Refusal := .next (tampCheck s core ctx)
/-- TAMP_START. -/
def execTampStart (core ctx : Nat) (s : State) : Host.Outcome State Fault Refusal := .next (tampBegin s core ctx)
/-- TAMP_LOAD_DONE. -/
def execTampLoadDone (core : Nat) (s : State) : Host.Outcome State Fault Refusal := .next (tampEnd s core)
/-- PASS. -/
def execPass (core ctx : Nat) (s : State) : Host.Outcome State Fault Refusal := .next (passCheck s core ctx)
/-- PASS_START. -/
def execPassStart (core ctx : Nat) (s : State) : Host.Outcome State Fault Refusal := .next (passBegin s core ctx)
/-- PASS_LAST_ROW_ENTERED. -/
def execPassLastRowEntered (core : Nat) (s : State) : Host.Outcome State Fault Refusal := .next (passLastRow s core)
/-- BANK_FREE_HANDSHAKE. -/
def execBankFreeHandshake (core array bank : Nat) (s : State) : Host.Outcome State Fault Refusal :=
  .next (bankFree s core array bank)
/-- PASS_COMPLETE. -/
def execPassComplete (core : Nat) (s : State) : Host.Outcome State Fault Refusal := .next (passEnd s core)
/-- EPI. -/
def execEpi (core ctx wrote : Nat) (s : State) : Host.Outcome State Fault Refusal := .next (epiBegin s core ctx wrote)
/-- EPI_COMPLETE. -/
def execEpiComplete (core : Nat) (s : State) : Host.Outcome State Fault Refusal := .next (epiEnd s core)
/-- MAP_INSTALL. -/
def execMapInstall (core ctx : Nat) (s : State) : Host.Outcome State Fault Refusal := .next (mapInstall s core ctx)
/-- MAP_CLOSE. -/
def execMapClose (core ctx : Nat) (s : State) : Host.Outcome State Fault Refusal := .next (mapClose s core ctx)
/-- CTX_HALT_CLEAR: a write of 1 to HALT of an engine's context (spec/04 R101). -/
def execCtxHaltClear (e : Eng) (ctx : Nat) (s : State) : Host.Outcome State Fault Refusal := .next (clearHalt s e ctx)

end Sys2Proof.Machine
end

