-- ==== Sys2Proof/Machine/Barge.lean ====
section
/-! DEFINITION. The barges: MOVE, PIN, UNPIN, SCHEDULE, ADVANCE and fetches (spec/07), background units (spec/14 R363), and
COLLECTIVE (spec/16 R422-R424). -/

namespace Sys2Proof.Machine

/-- A barge as an engine. -/
def bargeEng (b : Nat) : Eng := ⟨.barge, b⟩

/-- The opcodes a barge lists. -/
def bargeOps : List Nat := [0x40, 0x41, 0x42, 0x43, 0x44, 0x45]

/-- The key of a context's schedule or collective on a barge. -/
def bargeKey (b c : Nat) : Nat := b * 128 + c

/-- A context's fetches on a barge. -/
def fetchesOf (s : State) (b c : Nat) : List FetchRun := tabGet [] s.mem.fetches (bargeKey b c)

/-- Whether a fetch slice of the context may run: not while the context is halted (spec/07 R169, R171, spec/04 R101). -/
def fetchReady (s : State) (b c : Nat) : Bool := fetchesOf s b c ≠ [] && !(getQ s (bargeEng b) c).halt

/-- N. -/
def CollOp.n (x : CollOp) : Nat := x.members.length

/-- Whether the kind reduces, so that its first N − 1 steps carry sums. -/
def CollOp.reduces (x : CollOp) : Bool := x.kind = 0 || x.kind = 2

/-- Steps in all; an all-to-all has none. -/
def CollOp.steps (x : CollOp) : Nat := if x.kind = 0 then 2 * (x.n - 1) else if x.kind = 3 then 0 else x.n - 1

/-- Steps of the reduce-scatter part. -/
def CollOp.sumSteps (x : CollOp) : Nat := if x.reduces then x.n - 1 else 0

/-- Bytes a chunk travels as in a step: BF16 sums travel in FP32. -/
def CollOp.travel (x : CollOp) (step : Nat) : Nat := if step < x.sumSteps && x.efmt = 1 then 2 * x.chunk else x.chunk

/-- The result is written: every step sent and received, or every chunk sent and delivered. -/
def CollOp.done (x : CollOp) : Bool :=
  if x.kind = 3 then x.sent = x.n && x.acks = [] && x.chunks = [] else x.recv = x.steps && x.sent = x.steps

/-- The next unit may send: part of the step under way, which the successor allows, or part of an all-to-all chunk. -/
def CollOp.maySend (x : CollOp) : Bool :=
  if x.kind = 3 then x.sent < x.n
  else x.sent < x.steps && x.sent ≤ x.recv && (match x.allowed with | some a => x.sent ≤ a | none => false)

/-- The next unit may consume part of a received step. -/
def CollOp.mayConsume (x : CollOp) : Bool :=
  x.recv < x.steps && x.recv < x.sent && x.travel x.recv ≤ tabGet 0 x.got x.recv

/-- A unit of the collective is ready; otherwise it waits for a piece, a COLL_READY or an acknowledgement. -/
def CollOp.ready (x : CollOp) : Bool := x.verdict.isSome || x.done || x.maySend || x.mayConsume

/-- Whether the context has something to run on the barge: a fetch slice, a collective's unit, or, in queue order after any
collective, a command. -/
def bargeReady (s : State) (b : Nat) : List Nat :=
  (List.range 128).filter fun c => fetchReady s b c ||
    match tabFind s.barges.colls (bargeKey b c) with
    | some x => x.ready
    | none => (headCmd s (bargeEng b) c).isSome

/-- A row about the head of a context's queue on a barge: the barge runs one command at a time, by the round robin, and a
context's commands in order (spec/07 R171). -/
def bargeHead (s : State) (b c op : Nat) (f : State → QCmd → State) : State :=
  if (tabFind s.barges.busy b).isSome || (tabFind s.barges.colls (bargeKey b c)).isSome then s else
  headRow s (bargeEng b) c bargeOps op fun q =>
    match takeTurn s (bargeEng b) 0 c (bargeReady s b) with
    | some s => f s q
    | none => s

/-- Finish the head command with a status. -/
def bargeDone (s : State) (b c : Nat) (q : QCmd) (st : Status) : State := completeHead s (bargeEng b) c q st

/-! ### MOVE (spec/07 R172-R176, R180) -/

/-- FLAGS and LAYOUT of a MOVE. -/
def mvSrcGlobal (b : Bytes) : Bool := bit (fld b 2 1) 0
/-- DST_GLOBAL. -/
def mvDstGlobal (b : Bytes) : Bool := bit (fld b 2 1) 1
/-- TRANSPOSE. -/
def mvTranspose (b : Bytes) : Bool := bit (fld b 2 1) 2
/-- Source layout. -/
def mvSrcLayout (b : Bytes) : Nat := bits (fld b 3 1) 1 0
/-- Destination layout. -/
def mvDstLayout (b : Bytes) : Nat := bits (fld b 3 1) 5 4

/-- A format a layout takes: a row buffer is dense and may be FP32 or INT32; a panel is a matrix operand; neither is BIN1
(spec/07 R173, spec/03 R64, log 23). -/
def mvFmtOk (layout f : Nat) : Bool :=
  fmtElem f ≠ 11 && (if layout = 1 then f < 32 && fmtElem f ≤ 12 else fmtOk f)

/-- The shape a layout takes. -/
def mvShapeOk (layout f rows cols : Nat) : Bool :=
  rows % 64 = 0 && cols % 64 = 0 && (layout ≠ 2 || cols % tileN f = 0)

/-- A MOVE is well formed (spec/07 Table 7-4, R172, R173). -/
def moveOk (b : Bytes) : Bool :=
  let rows := fld b 24 4
  let cols := fld b 28 4
  let n := fld b 32 4
  let g := mvSrcGlobal b || mvDstGlobal b
  fld b 2 1 < 8 && bits (fld b 3 1) 3 2 = 0 && bits (fld b 3 1) 7 6 = 0 && zeroAt b 6 2 && zeroAt b 36 28 &&
  fld b 8 8 % 64 = 0 && fld b 16 8 % 64 = 0 && mvSrcLayout b ≠ 3 && mvDstLayout b ≠ 3 &&
  !(mvSrcGlobal b && mvDstGlobal b) &&
  (if mvSrcLayout b = 0 || mvDstLayout b = 0 then
     mvSrcLayout b = 0 && mvDstLayout b = 0 && !mvTranspose b && zeroAt b 4 2 && rows = 0 && cols = 0 &&
     n % 64 = 0 && n ≤ (if g then 0x100000 else 0x800000)
   else
     !g && n = 0 && mvFmtOk (mvSrcLayout b) (fld b 4 1) && mvFmtOk (mvDstLayout b) (fld b 5 1) &&
     mvShapeOk (mvSrcLayout b) (fld b 4 1) rows cols &&
     (if mvTranspose b then mvShapeOk (mvDstLayout b) (fld b 5 1) cols rows
      else mvShapeOk (mvDstLayout b) (fld b 5 1) rows cols) &&
     rows * cols ≤ (if fmtSparse (fld b 5 1) = 0 then 4194304 else 2097152))

/-- Bytes of a matrix in a layout. -/
def matBytes (layout f rows cols : Nat) : Nat :=
  if layout = 1 then rows / 64 * (cols / 64) * up64 (actSize f) else rows / 64 * (cols / tileN f) * tileSize f

/-- Element (i, j) of a row buffer (spec/06 R127), in FP32. -/
def bufVal (f cols : Nat) (m : Bytes) (i j : Nat) : BitVec 32 :=
  let x := actRow f (m.drop ((i / 64 * (cols / 64) + j / 64) * up64 (actSize f))) (i % 64)
  f32Enc ((elemVal (fmtElem f) (actRaw x (j % 64))).mul (actScale x (j % 64 / 32)))

/-- The weight tile of a panel that holds element (i, j). -/
def panelTile (f rows : Nat) (m : Bytes) (i j : Nat) : TileView :=
  let n := tileN f
  tileView f ((m.drop ((j / n * (rows / 64) + i / 64) * tileSize f)).take (tileSize f))

/-- The stored values of a panel whose index names element (i, j). -/
def panelStored (f rows : Nat) (m : Bytes) (i j : Nat) : List Nat :=
  (List.range (colStored f)).filter fun k => storedPos (panelTile f rows m i j) (j % tileN f) k = i % 64

/-- Element (i, j) of a weight panel, in FP32: the sum of the stored values whose index names it (spec/07 R174). -/
def panelVal (f rows : Nat) (m : Bytes) (i j : Nat) : BitVec 32 :=
  let t := panelTile f rows m i j
  let n := tileN f
  match (panelStored f rows m i j).map fun k =>
    (elemVal (fmtElem f) (storedRaw t (j % n) k)).mul (weightScale t (j % n) (i % 64)) with
  | [] => 0
  | v :: vs => f32Enc (vs.foldl Val.add v)

/-- Element (i, j) of a matrix in a layout. -/
def matVal (layout f rows cols : Nat) (m : Bytes) (i j : Nat) : BitVec 32 :=
  if layout = 1 then bufVal f cols m i j else panelVal f rows m i j

/-- The code of element (i, j) of a matrix; a sum of several stored values has none. -/
def matRaw (layout f rows cols : Nat) (m : Bytes) (i j : Nat) : Option Nat :=
  if layout = 1 then
    some (actRaw (actRow f (m.drop ((i / 64 * (cols / 64) + j / 64) * up64 (actSize f))) (i % 64)) (j % 64))
  else match panelStored f rows m i j with
    | [] => some 0
    | [k] => some (storedRaw (panelTile f rows m i j) (j % tileN f) k)
    | _ => none

/-- An element on its way: its FP32 value, or the code that is copied unchanged. -/
structure Elem where
  val : Val := .zero
  raw : Option Nat := none
  deriving DecidableEq, Repr

/-- The code of an element in a format that is not MX. -/
def Elem.code (f : Nat) (x : Elem) : Nat := x.raw.getD (elemEnc (fmtElem f) x.val)

/-- Pad to a multiple of 64 bytes. -/
def pad64 (b : Bytes) : Bytes := b ++ List.replicate (up64 b.length - b.length) 0

/-- One activation tile image of a row buffer. -/
def encodeImage (f : Nat) (at_ : Nat → Nat → Elem) : Bytes :=
  let e := fmtElem f
  if isMx e then
    let qs := (List.range 64).map fun r => (List.range 2).map fun h =>
      mxQuant e ((List.range 32).map fun c => (at_ r (32 * h + c)).val)
    pad64 (packBytes (elemBits e) ((qs.map fun q => (q.map (·.2)).flatten).flatten)) ++
      ((qs.map fun q => (q.map fun x => BitVec.ofNat 8 x.1)).flatten)
  else pad64 (packBytes (elemBits e) ((List.range 64).map fun r => (List.range 64).map fun c => (at_ r c).code f).flatten)

/-- Which positions of a group of four a sparse column keeps: the largest magnitudes, NaN the largest, ties to the lower
position (spec/07 R175). -/
def keepOf (k : Nat) (g : List Elem) : List Nat :=
  let bigger := fun (a b : Nat × Elem) =>
    if a.2.val.isNan then !b.2.val.isNan || a.1 < b.1
    else if b.2.val.isNan then false
    else if b.2.val.abs.lt a.2.val.abs then true
    else if a.2.val.abs.lt b.2.val.abs then false else a.1 < b.1
  let xs := g.zipIdx.map fun p => (p.2, p.1)
  (xs.filter fun a => (xs.filter fun b => b.1 ≠ a.1 && bigger b a).length < k).map (·.1)

/-- The stored values of one column and their positions within their groups. -/
def storedOf (f : Nat) (col : List Elem) : List (Elem × Nat) :=
  match fmtSparse f with
  | 0 => col.map fun x => (x, 0)
  | s => ((List.range 16).map fun g =>
      let grp := (col.drop (4 * g)).take 4
      (keepOf (if s = 1 then 2 else 1) grp).map fun i => (grp.getD i {}, i)).flatten

/-- One weight tile image (spec/03 R67, spec/07 R175). -/
def encodeTile (f : Nat) (at_ : Nat → Nat → Elem) : Bytes :=
  let e := fmtElem f
  let cols := (List.range (tileN f)).map fun n => storedOf f ((List.range 64).map fun k => at_ k n)
  let blocks := fun (c : List (Elem × Nat)) =>
    if fmtSparse f = 0 then [c.take 32, c.drop 32] else [c]
  let qs := cols.map fun c => (blocks c).map fun b => mxQuant e (b.map fun x => x.1.val)
  let codes := if isMx e then (qs.map fun q => (q.map (·.2)).flatten).flatten
    else (cols.map fun c => c.map fun x => x.1.code f).flatten
  let index := if fmtSparse f = 0 then [] else packBytes 2 ((cols.map fun c => c.map (·.2)).flatten)
  let scales := if isMx e then (qs.map fun q => q.map fun x => BitVec.ofNat 8 x.1).flatten else []
  packBytes (elemBits e) codes ++ index ++ scales

/-- A matrix written in a layout. -/
def encodeMat (layout f rows cols : Nat) (at_ : Nat → Nat → Elem) : Bytes :=
  if layout = 1 then
    ((List.range (rows / 64)).map fun g => ((List.range (cols / 64)).map fun t =>
      encodeImage f fun r c => at_ (64 * g + r) (64 * t + c)).flatten).flatten
  else
    ((List.range (cols / tileN f)).map fun nt => ((List.range (rows / 64)).map fun ks =>
      encodeTile f fun k n => at_ (64 * ks + k) (tileN f * nt + n)).flatten).flatten

/-- The destination bytes of a format MOVE (spec/07 R172-R175). -/
def moveBytes (b : Bytes) (src : Bytes) : Bytes :=
  let rows := fld b 24 4
  let cols := fld b 28 4
  let sf := fld b 4 1
  let df := fld b 5 1
  let same := sf = df && !isMx (fmtElem sf)
  if same && fmtSparse sf ≠ 0 && !mvTranspose b then src
  else
    let el := fun i j =>
      ({ val := f32Dec (matVal (mvSrcLayout b) sf rows cols src i j),
         raw := if same then matRaw (mvSrcLayout b) sf rows cols src i j else none } : Elem)
    if mvTranspose b then encodeMat (mvDstLayout b) df cols rows fun i j => el j i
    else encodeMat (mvDstLayout b) df rows cols el

/-- A barge working for a context; a linear MOVE may reach the wheelhouse region (spec/07 R157). -/
def whoBarge (b c : Nat) (linear : Bool) : Who := { whoOf (bargeEng b) c with wheel := linear }

/-- A local MOVE: linear moves go piece by piece; what was written before a stop stays (spec/07 R176). -/
def moveLocal (b c : Nat) (cmd : Bytes) (src dst : Nat) : Act Unit := do
  let w := whoBarge b c (mvSrcLayout cmd = 0)
  if mvSrcLayout cmd = 0 then
    (List.range (fld cmd 32 4 / 64)).forM fun i => do
      let x ← rd w (src + 64 * i) 64
      wr w (dst + 64 * i) x
  else
    let rows := fld cmd 24 4
    let cols := fld cmd 28 4
    let n := matBytes (mvSrcLayout cmd) (fld cmd 4 1) rows cols
    let y := if mvTranspose cmd then matBytes (mvDstLayout cmd) (fld cmd 5 1) cols rows
      else matBytes (mvDstLayout cmd) (fld cmd 5 1) rows cols
    stopIf (namesWheel [(src, n), (dst, y)]) .internal
    let x ← rd w src n
    wr w dst (moveBytes cmd x)

/-- The module and local address of a global address (spec/16 Table 16-4). -/
def globalModule (a : Nat) : Nat := bits a 59 48
/-- LOCAL of a global address. -/
def globalLocal (a : Nat) : Nat := bits a 47 0

/-- A MOVE to or from a peer starts its ferry operation (spec/07 R180, spec/16 R404). -/
def moveRemote (s : State) (b c : Nat) (q : QCmd) (out : Bool) : State :=
  let cmd := q.bytes
  let g := if out then fld cmd 16 8 else fld cmd 8 8
  let n := fld cmd 32 4
  let m := globalModule g
  if n = 0 then bargeDone s b c q .ok else
  match choosePort s m with
  | none => bargeDone s b c q .linkLost
  | some (p, s) =>
    let w := whoBarge b c true
    if out then
      match runActVal (rd w (fld cmd 8 8) n) s with
      | (.error st, s) => bargeDone s b c q st
      | (.ok x, s) =>
        let s := chargeFerry s c n
        let r := startOp (popQ s (bargeEng b) c) p m n (.move b c q 0)
        let s := queueWrite r.2 p m 3 c r.1 (globalLocal g) x
        { s with barges := { s.barges with busy := tabPut s.barges.busy b c } }
    else if !mayAccess s w (fld cmd 16 8) n true then bargeDone s b c q .internal
    else
      let s := chargeFerry s c n
      let r := startOp (popQ s (bargeEng b) c) p m n (.move b c q (fld cmd 16 8))
      let s := queueFrame r.2 p m { op := 3, vc := 1, ctx := c, tag := r.1, addr := globalLocal g, arg := n }
      { s with barges := { s.barges with busy := tabPut s.barges.busy b c } }

/-- MOVE at the head of its context's queue. -/
def moveHead (s : State) (b c : Nat) : State :=
  bargeHead s b c 0x40 fun s q =>
    let cmd := q.bytes
    let own := ownModule s
    let bad := fun a => bits a 63 60 ≠ 0
    if !moveOk cmd then bargeDone s b c q .internal
    else if (mvSrcGlobal cmd && bad (fld cmd 8 8)) || (mvDstGlobal cmd && bad (fld cmd 16 8)) then
      bargeDone s b c q .internal
    else if mvSrcGlobal cmd && globalModule (fld cmd 8 8) ≠ own then moveRemote s b c q false
    else if mvDstGlobal cmd && globalModule (fld cmd 16 8) ≠ own then moveRemote s b c q true
    else
      let src := if mvSrcGlobal cmd then globalLocal (fld cmd 8 8) else fld cmd 8 8
      let dst := if mvDstGlobal cmd then globalLocal (fld cmd 16 8) else fld cmd 16 8
      let r := runAct (moveLocal b c cmd src dst) s
      bargeDone r.2 b c q r.1

/-! ### PIN and UNPIN (spec/07 R177-R179) -/

/-- The store a TARGET byte names, if it lies on the deck (spec/07 Table 7-3). -/
def targetStore (d t : Nat) : Option Nat :=
  let st := if t < 128 then t / 32 * 36 + t % 32 else (t - 128) / 4 * 36 + 32 + (t - 128) % 4
  if st / 36 = d && (t < 128 || t < 144) then some st else none

/-- The core whose core store this is. -/
def storeCore (st : Nat) : Option Nat := if st % 36 < 32 then some (st / 36 * 32 + st % 36) else none

/-- PIN and UNPIN are well formed, and name granules that may be pinned (spec/07 R157, R177). -/
def pinOk (b : Bytes) (d : Nat) : Bool :=
  zeroAt b 3 5 && zeroAt b 20 44 && fld b 8 8 % 4096 = 0 && 1 ≤ fld b 16 4 && fld b 16 4 ≤ 8192 &&
  (targetStore d (fld b 2 1)).isSome && fld b 8 8 + fld b 16 4 * 4096 ≤ wheelBase

/-- The granules a PIN or UNPIN names. -/
def pinGrans (b : Bytes) : List Nat := (List.range (fld b 16 4)).map fun i => fld b 8 8 / 4096 + i

/-- Bring a granule into a store: it stays where it was at an uncorrectable word (spec/07 R184). The flag says it
moved. -/
def bringIn (s : State) (src : BitVec 16) (c st g : Nat) (keep : Gran → Gran) : State × Bool :=
  match tabFind s.mem.gran g with
  | none =>
    match badInHome s g with
    | some a => (noteHbmBad s a false, false)
    | none => (countFetched (setGran s g (keep { store := st })) c st, true)
  | some x =>
    match badInStore s g with
    | some a => (noteSramBad s src a false, false)
    | none => (countFetched (setGran s g (keep { x with store := st })) c st, true)

/-- Pin one granule for a context in a store. -/
def pinOne (b c st : Nat) (acc : State × Bool) (g : Nat) : State × Bool :=
  let pin := fun (x : Gran) => if x.pins.contains (c, b) then x else { x with pins := x.pins ++ [(c, b)] }
  let s := acc.1
  match tabFind s.mem.gran g with
  | some x =>
    if x.store = st then (setGran s g (pin x), acc.2)
    else let r := bringIn s (engSrc (bargeEng b)) c st g pin; (r.1, acc.2 && r.2)
  | none => let r := bringIn s (engSrc (bargeEng b)) c st g pin; (r.1, acc.2 && r.2)

/-- The pinned-store claim a PIN would pass (spec/07 R178, spec/05 Table 5-3 code 4). -/
def pinClaim (s : State) (c st : Nat) (gs : List Nat) : Option Overflow :=
  let fresh := gs.filter fun g => match tabFind s.mem.gran g with
    | some x => !(x.store = st && x.pins.any (·.1 = c))
    | none => true
  let n := ctxPinned s c st + fresh.length
  let share := shareIn (getCtx s c) st
  let m := match storeCore st with | some k => mapInForce s k c | none => { pinGranules := share }
  if n > min share m.pinGranules then
    some { resource := 4, claimed := min share m.pinGranules, required := n, mapId := m.id }
  else none

/-- PIN at the head of its context's queue. -/
def pinHead (s : State) (b c : Nat) : State :=
  bargeHead s b c 0x41 fun s q =>
    let cmd := q.bytes
    let d := b / 8
    match targetStore d (fld cmd 2 1) with
    | none => bargeDone s b c q .internal
    | some st =>
      let gs := pinGrans cmd
      if !pinOk cmd d || !windowsPermit s (ctxPart c) (fld cmd 8 8) (fld cmd 16 4 * 4096) false then
        bargeDone s b c q .internal
      else if gs.any (fun g => match tabFind s.mem.gran g with
          | some x => x.store ≠ st && x.pins ≠ [] | none => false) then bargeDone s b c q .internal
      else match pinClaim s c st gs with
        | some o => completeHead s (bargeEng b) c q .mapOverflow o
        | none =>
          let r := gs.foldl (pinOne b c st) (s, true)
          let s := (makeRoom c st 0 (poolUsed r.1 st) r.1).1
          bargeDone s b c q (if r.2 then .ok else .eccUncorrectable)

/-- Remove pins that a test names from a granule; with none left it joins the pool at age 255 (spec/07 R179). -/
def unpinGran (test : Nat × Nat → Bool) (x : Gran) : Gran :=
  let left := x.pins.filter fun p => !test p
  if x.pins ≠ [] && left = [] then { x with pins := [], age := 255 } else { x with pins := left }

/-- Remove a context's pins everywhere, or those made through one barge, and make room in the stores (spec/07 R179). -/
def unpinAll (s : State) (test : Nat × Nat → Bool) (c : Nat) : State :=
  let stores := ((s.mem.gran.filter fun p => p.2.pins.any test).map fun p => p.2.store).eraseDups
  let s := { s with mem := { s.mem with gran := tabMap (fun _ x => unpinGran test x) s.mem.gran } }
  stores.foldl (fun s st => (makeRoom c st 0 (poolUsed s st) s).1) s

/-- UNPIN at the head of its context's queue. -/
def unpinHead (s : State) (b c : Nat) : State :=
  bargeHead s b c 0x42 fun s q =>
    let cmd := q.bytes
    match targetStore (b / 8) (fld cmd 2 1) with
    | none => bargeDone s b c q .internal
    | some st =>
      if !pinOk cmd (b / 8) then bargeDone s b c q .internal
      else
        let s := (pinGrans cmd).foldl (fun s g => match tabFind s.mem.gran g with
          | some x => if x.store = st then setGran s g (unpinGran (fun p => p.1 = c) x) else s
          | none => s) s
        bargeDone (makeRoom c st 0 (poolUsed s st) s).1 b c q .ok

/-! ### Schedules (spec/07 R164-R170) -/

/-- One entry of a schedule in memory, if it is legal. -/
def entryOf (d l : Nat) (e : Bytes) : Option SchedEntry :=
  let a := fld e 0 8
  let n := fld e 8 4
  match targetStore d (fld e 14 1) with
  | some st =>
    if a % 4096 = 0 && 1 ≤ n && n ≤ 65536 && fld e 12 2 < l && zeroAt e 15 1 && a + n * 4096 ≤ wheelBase then
      some { addr := a, count := n, layer := fld e 12 2, store := st }
    else none
  | none => none

/-- Layers never fall from one entry to the next (spec/07 R167). -/
def layersRise : List SchedEntry → Bool
  | a :: b :: t => a.layer ≤ b.layer && layersRise (b :: t)
  | _ => true

/-- Read and check a schedule (spec/07 R167). -/
def readSchedule (w : Who) (d a look layer : Nat) : Act Schedule := do
  let h ← rd w a 64
  let l := fld h 2 2
  let n := fld h 4 4
  stopIf (!(fld h 0 1 = 1 && fld h 1 1 < 2 && 1 ≤ l && 1 ≤ n && n ≤ 65536 && zeroAt h 8 56 && layer < l)) .internal
  let e ← rd w (a + 64) (16 * n)
  match (List.range n).mapM (fun i => entryOf d l ((e.drop (16 * i)).take 16)) with
  | none => throw .internal
  | some es =>
    stopIf (!layersRise es) .internal
    return { layers := l, wrap := fld h 1 1 = 1, entries := es, lookahead := look, layer := layer }

/-- Whether layer `x` is one of the `n` layers from `first` on, modulo L under WRAP (spec/07 R168). -/
def layerIn (sc : Schedule) (first n x : Nat) : Bool :=
  (List.range n).any fun i => if sc.wrap then (first + i) % sc.layers = x else first + i = x

/-- Queue the fetches of the entries of some layers, in entry order. -/
def queueFetches (s : State) (b c : Nat) (sc : Schedule) (first n : Nat) : State :=
  let runs := (sc.entries.filter fun e => layerIn sc first n e.layer).map fun e =>
    ({ ctx := c, addr := e.addr, count := e.count, store := e.store } : FetchRun)
  { s with mem := { s.mem with fetches := tabSet [] s.mem.fetches (bargeKey b c) (fetchesOf s b c ++ runs) } }

/-- Remove a context's schedule and its fetches. -/
def dropSchedule (s : State) (b c : Nat) : State :=
  { s with mem := { s.mem with schedules := tabDel s.mem.schedules (bargeKey b c)
                               fetches := tabDel s.mem.fetches (bargeKey b c) } }

/-- Install a schedule and fetch the layers within its lookahead. -/
def installSchedule (s : State) (b c : Nat) (sc : Schedule) : State :=
  let s := dropSchedule s b c
  let s := { s with mem := { s.mem with schedules := tabPut s.mem.schedules (bargeKey b c) sc } }
  queueFetches s b c sc sc.layer (sc.lookahead + 1)

/-- SCHEDULE at the head of its context's queue. -/
def scheduleHead (s : State) (b c : Nat) : State :=
  bargeHead s b c 0x43 fun s q =>
    let cmd := q.bytes
    let a := fld cmd 8 8
    if !(zeroAt cmd 2 1 && zeroAt cmd 6 2 && zeroAt cmd 16 48 && a % 64 = 0 && 1 ≤ fld cmd 3 1 && fld cmd 3 1 ≤ 64) then
      bargeDone s b c q .internal
    else if a = 0 then bargeDone (dropSchedule s b c) b c q .ok
    else match runActVal (readSchedule (whoOf (bargeEng b) c) (b / 8) a (fld cmd 3 1) (fld cmd 4 2)) s with
      | (.error st, s) => bargeDone s b c q st
      | (.ok sc, s) => bargeDone (installSchedule s b c sc) b c q .ok

/-- One step of a store's residency epoch: every pool granule ages by one, up to 255 (spec/07 R164). -/
def stepEpoch (s : State) (st : Nat) : State :=
  { s with mem := { s.mem with gran := tabMap (fun _ x =>
      if x.store = st && x.pins = [] && x.age ≠ 255 then { x with age := x.age + 1 } else x) s.mem.gran } }

/-- ADVANCE to layer `l` (spec/07 R165, R168). -/
def advanceTo (s : State) (b c l : Nat) (sc : Schedule) : State :=
  let s := (sc.entries.map (·.store)).eraseDups.foldl stepEpoch s
  let next := if sc.wrap then (sc.layer + 1) % sc.layers else sc.layer + 1
  let sc' := { sc with layer := l }
  let s := { s with mem := { s.mem with schedules := tabPut s.mem.schedules (bargeKey b c) sc' } }
  if l = next then queueFetches s b c sc' (l + sc.lookahead) 1 else queueFetches s b c sc' (l + 1) sc.lookahead

/-- ADVANCE at the head of its context's queue. -/
def advanceHead (s : State) (b c : Nat) : State :=
  bargeHead s b c 0x44 fun s q =>
    let cmd := q.bytes
    match tabFind s.mem.schedules (bargeKey b c) with
    | some sc =>
      if zeroAt cmd 2 2 && zeroAt cmd 6 58 && fld cmd 4 2 < sc.layers then
        bargeDone (advanceTo s b c (fld cmd 4 2) sc) b c q .ok
      else bargeDone s b c q .internal
    | none => bargeDone s b c q .internal

/-- Fetch one granule (spec/07 R169, R170). -/
def fetchGran (src : BitVec 16) (c st : Nat) (s : State) (g : Nat) : State :=
  match tabFind s.mem.gran g with
  | some x => if x.store = st && x.pins = [] then setGran s g { x with age := 0 } else s
  | none =>
    let r := makeRoom c st 1 (poolUsed s st) s
    if r.2 then (bringIn r.1 src c st g id).1 else r.1

/-- FETCH_SLICE: one slice of at most 256 granules of the context's first fetch (spec/07 R169). A slice outside the
partition's windows fails as a command of the schedule's context (spec/14 R351, log 24). -/
def fetchSlice (s : State) (b c : Nat) : State :=
  match fetchesOf s b c with
  | [] => s
  | r :: rest =>
    if s.pwr.moor ≠ .running || (tabFind s.barges.busy b).isSome || !fetchReady s b c then s else
    match takeTurn s (bargeEng b) 0 c (bargeReady s b) with
    | none => s
    | some s =>
      let n := min 256 r.count
      let left := if n < r.count then { r with addr := r.addr + n * 4096, count := r.count - n } :: rest else rest
      let s := { s with mem := { s.mem with fetches := tabSet [] s.mem.fetches (bargeKey b c) left } }
      if windowsPermit s (ctxPart c) r.addr (n * 4096) false then
        ((List.range n).map fun i => r.addr / 4096 + i).foldl (fetchGran (engSrc (bargeEng b)) c r.store) s
      else faultHalt s (bargeEng b) c { bytes := [0x43] } .internal {}

/-- RESIDENCY_EPOCH_TICK of a deck (spec/07 R165). -/
def epochTick (s : State) (d : Nat) : State :=
  if (tabGet {} s.mem.decks d).periodUs = 0 || s.pwr.moor ≠ .running then s else
  modDeck ((List.range 36).foldl (fun s k => stepEpoch s (d * 36 + k)) s) d fun x => { x with epoch := x.epoch + 1 }

/-! ### COLLECTIVE (spec/16 R422-R424) -/

/-- A collective in progress. -/
def getColl (s : State) (b c : Nat) : Option CollOp := tabFind s.barges.colls (bargeKey b c)

/-- Record a collective. -/
def putColl (s : State) (b c : Nat) (x : CollOp) : State :=
  { s with barges := { s.barges with colls := tabPut s.barges.colls (bargeKey b c) x } }

/-- The collective with an identifier that a test accepts: its barge, context and state. -/
def collFor (s : State) (id : Nat) (test : CollOp → Bool) : Option (Nat × Nat × CollOp) :=
  (s.barges.colls.find? fun k => k.2.id = id && test k.2).map fun k => (k.1 / 128, k.1 % 128, k.2)

/-- A COLLECTIVE is well formed (spec/16 Table 16-8). -/
def collOk (b : Bytes) : Bool :=
  let kind := fld b 2 1
  let e := fld b 3 1
  kind ≤ 3 && (if kind = 0 || kind = 2 then e = 0 || e = 1 || e = 12 else e = 0) && 2 ≤ fld b 4 2 && fld b 4 2 ≤ 4096 &&
  fld b 6 2 < fld b 4 2 && fld b 8 8 % 64 = 0 && fld b 32 4 % 64 = 0 && 64 ≤ fld b 32 4 && fld b 32 4 ≤ 0x800000 &&
  1 ≤ fld b 36 4 && fld b 36 4 ≤ 1000000 && fld b 40 8 ≠ 0 && zeroAt b 48 16

/-- The chunk a step sends. -/
def CollOp.sendChunk (x : CollOp) (step : Nat) : Nat :=
  if step < x.sumSteps then (x.rank + 2 * x.n - step - 1) % x.n else (x.rank + 2 * x.n - (step - x.sumSteps)) % x.n
/-- The chunk a step receives. -/
def CollOp.recvChunk (x : CollOp) (step : Nat) : Nat := (x.sendChunk step + x.n - 1) % x.n
/-- The module of a rank. -/
def CollOp.moduleOf (x : CollOp) (r : Nat) : Nat := (x.members.getD (r % x.n) (0, 0)).1
/-- The successor's rank. -/
def CollOp.succ (x : CollOp) : Nat := (x.rank + 1) % x.n
/-- The predecessor's rank. -/
def CollOp.pred (x : CollOp) : Nat := (x.rank + x.n - 1) % x.n
/-- A member's staging area or all-to-all DST. -/
def CollOp.remote (x : CollOp) (r : Nat) : Nat := (x.members.getD r (0, 0)).2
/-- Bytes of SRC. -/
def CollOp.srcBytes (x : CollOp) : Nat := if x.kind = 1 then x.chunk else x.n * x.chunk
/-- Bytes of DST. -/
def CollOp.dstBytes (x : CollOp) : Nat := if x.kind = 2 then x.chunk else x.n * x.chunk
/-- Bytes one step takes in the staging area. -/
def CollOp.stageStep (x : CollOp) : Nat := if x.efmt = 1 then 2 * x.chunk else x.chunk
/-- Where the pieces of a step stand in the staging area. -/
def CollOp.stage (x : CollOp) (step : Nat) : Nat := x.remote x.rank + step % 2 * x.stageStep

/-- Bytes of BF16 as FP32 words. -/
def widen : Bytes → Bytes
  | a :: b :: t => 0 :: 0 :: a :: b :: widen t
  | _ => []

/-- FP32 words rounded to BF16 (spec/03 R76). -/
def narrow : Bytes → Bytes
  | a :: b :: c :: d :: t => toLe 2 (fBf16.enc false (fFp32.dec (leNat [a, b, c, d]))) ++ narrow t
  | _ => []

/-- The element-wise sum of a received chunk and this member's own (spec/16 R423, spec/03 R74). -/
def addWords (efmt : Nat) : Bytes → Bytes → Bytes
  | a :: b :: c :: d :: t, a' :: b' :: c' :: d' :: t' =>
    let x := BitVec.ofNat 32 (leNat [a, b, c, d])
    let y := BitVec.ofNat 32 (leNat [a', b', c', d'])
    toLe 4 (if efmt = 12 then satI32 (x.toInt + y.toInt) else f32Add x y).toNat ++ addWords efmt t t'
  | _, _ => []

/-- A barge's own accesses for a collective. -/
def whoColl (b c : Nat) : Who := whoOf (bargeEng b) c

/-- Read `n` bytes at `off` of chunk `j` of SRC, in the format a step's bytes travel in. -/
def srcPart (b c : Nat) (x : CollOp) (j off n : Nat) : Act Bytes := do
  let a := x.src + (if x.kind = 1 then 0 else j) * x.chunk
  if x.efmt = 1 then
    let v ← rd (whoColl b c) (a + off / 2) (n / 2)
    return widen v
  else rd (whoColl b c) (a + off) n

/-- Undefined bytes from an address on. -/
def freeBytes (s : State) (a n : Nat) : State :=
  let v : Bytes := (List.range n).map fun i => BitVec.ofNat 8 (Config.free (s.freeCtr + i))
  { s with freeCtr := s.freeCtr + n, mem := { s.mem with bytes := memWrite s.mem.bytes a v } }

/-- A collective ends; without OK its DST holds undefined contents (spec/16 R424). -/
def endColl (s : State) (b c : Nat) (x : CollOp) (st : Status) : State :=
  let s := { s with barges := { s.barges with colls := tabDel s.barges.colls (bargeKey b c) } }
  let s := if (st = .linkLost || st = .abortedDisabled) && mayAccess s (whoColl b c) x.dst x.dstBytes true then
      freeBytes s x.dst x.dstBytes
    else s
  completeCmd s (bargeEng b) c x.cmd st

/-- Remember a path a collective uses. -/
def CollOp.use (x : CollOp) (p m : Nat) : CollOp :=
  if x.used.contains (p, m) then x else { x with used := x.used ++ [(p, m)] }

/-! ### Frames between the members -/

/-- A COLL piece, which came by a port or from another member on this module, goes to the staging area of its step
(spec/16 R423). -/
def collPiece (s : State) (port : Option Nat) (rank : Option Nat) (f : FFrame) : State :=
  match collFor s f.addr fun x => x.moduleOf x.pred = f.src && rank.all (· = x.rank) with
  | none => s
  | some (b, c, x) =>
    let x := match port with | some p => x.use p f.src | none => x
    if x.kind = 3 || f.arg ≥ x.steps || f.arg < x.recv then s else
    match runAct (wr (whoColl b c) (x.stage f.arg + f.offset) f.payload) s with
    | (.ok, s) => putColl s b c { x with begun := true,
                                         got := tabPut x.got f.arg (tabGet 0 x.got f.arg + f.payload.length) }
    | (st, s) => endColl s b c x st

/-- A rank of the list whose module is `m` is taken off. -/
def CollOp.delivered (x : CollOp) (m : Nat) : CollOp :=
  match x.chunks.find? fun r => x.moduleOf r = m with
  | some r => { x with chunks := x.chunks.erase r }
  | none => x

/-- A COLL_READY: a step allowed by the successor, or an all-to-all chunk delivered (spec/16 R423). -/
def collReadyFrame (s : State) (rank : Option Nat) (f : FFrame) : State :=
  let mine := fun (x : CollOp) => rank.all (· = x.rank) &&
    if f.arg = 0xFFFF then x.kind = 3 && x.chunks.any fun r => x.moduleOf r = f.src
    else x.kind ≠ 3 && x.moduleOf x.succ = f.src
  match collFor s f.addr mine with
  | none => s
  | some (b, c, x) =>
    if f.arg = 0xFFFF then putColl s b c (x.delivered f.src)
    else putColl s b c { x with allowed := some (max (x.allowed.getD 0) f.arg) }

/-- The port of the collective's operations toward a module: one for all of them (spec/16 R404). -/
def collPort (s : State) (x : CollOp) (m : Nat) : Option (Nat × State) :=
  match x.used.find? fun u => u.2 = m with
  | some u => if pathUp s u.1 m then some (u.1, s) else none
  | none => choosePort s m

/-- Send a COLL or COLL_READY frame to the member of a rank; one on this module is served locally (spec/16 R404); `none`
without a path. -/
def sendMember (s : State) (x : CollOp) (r : Nat) (f : FFrame) : Option (State × CollOp) :=
  let m := x.moduleOf r
  if m = ownModule s then
    let f := { f with src := m }
    some (if f.op = 8 then collPiece s none (some r) f else collReadyFrame s (some r) f, x)
  else match collPort s x m with
    | some (p, s) => some (queueFrame s p m f, x.use p m)
    | none => none

/-- A COLL_READY frame. -/
def readyFrame (c : Nat) (x : CollOp) (arg : Nat) : FFrame := { op := 9, vc := 0, ctx := c, addr := x.id, arg := arg }

/-- Allow the predecessor a step. -/
def allowStep (s : State) (b c : Nat) (x : CollOp) (step : Nat) : State :=
  match sendMember s x x.pred (readyFrame c x step) with
  | some (s, x) => putColl s b c x
  | none => endColl s b c x .linkLost

/-- An all-to-all chunk stands in a member's DST. -/
def tellDelivered (s : State) (b c : Nat) (x : CollOp) (r : Nat) : State :=
  match sendMember s x r (readyFrame c x 0xFFFF) with
  | some (s, x) => putColl s b c x
  | none => endColl s b c x .linkLost

/-! ### Starting, and the units (spec/16 R424) -/

/-- The first work of a collective: its member table is read, and its first COLL_READY goes out. -/
def startColl (s : State) (b c : Nat) (q : QCmd) : State :=
  let cmd := q.bytes
  if !collOk cmd then bargeDone s b c q .internal else
  match runActVal (rd (whoColl b c) (fld cmd 8 8) (16 * fld cmd 4 2)) s with
  | (.error st, s) => bargeDone s b c q st
  | (.ok t, s) =>
    let ms := (List.range (fld cmd 4 2)).map fun i => (bits (fld t (16 * i) 2) 11 0, fld t (16 * i + 8) 8)
    let x : CollOp := { cmd := q, kind := fld cmd 2 1, efmt := fld cmd 3 1, rank := fld cmd 6 2, members := ms,
                        src := fld cmd 16 8, dst := fld cmd 24 8, chunk := fld cmd 32 4, id := fld cmd 40 8 }
    if namesWheel [(x.src, x.srcBytes), (x.dst, x.dstBytes),
        (x.remote x.rank, if x.kind = 3 then 0 else 2 * x.stageStep)] then bargeDone s b c q .internal
    else
      let s := popQ s (bargeEng b) c
      if x.kind = 3 then putColl s b c { x with chunks := (List.range x.n).filter (· ≠ x.rank) }
      else allowStep (putColl s b c x) b c x 1

/-- What a step sends from `off` on: of the first step a part of SRC, which an all-gather also copies to its own place in DST;
of a later one a part of what the step before left. -/
def stepPart (b c : Nat) (x : CollOp) (n : Nat) : Act Bytes := do
  if x.sent = 0 then
    let v ← srcPart b c x (x.sendChunk 0) x.sentOff n
    if x.kind = 1 then wr (whoColl b c) (x.dst + x.rank * x.chunk + x.sentOff) v
    return v
  else return (x.cur.drop x.sentOff).take n

/-- Send up to 4 MiB of the step under way. -/
def collSend (s : State) (b c : Nat) (x : CollOp) : State :=
  let n := min 0x400000 (x.travel x.sent - x.sentOff)
  match runActVal (stepPart b c x n) s with
  | (.error st, s) => endColl s b c x st
  | (.ok v, s) =>
    let off := x.sentOff + n
    let y := if off ≥ x.travel x.sent then { x with sent := x.sent + 1, sentOff := 0, cur := [] }
      else { x with sentOff := off }
    let r := (payloads (n / 8192 + 1) x.sentOff v).foldl (fun r ob => r.bind fun (a : State × CollOp) =>
      sendMember a.1 a.2 x.succ
        { op := 8, vc := 4, ctx := c, addr := x.id, offset := ob.1, arg := x.sent, payload := ob.2 })
      (some (chargeFerry (putColl s b c y) c n, y))
    match r with
    | some (s, y) => putColl s b c y
    | none => endColl s b c x .linkLost

/-- The WRITE operations of a part of a chunk, of at most 1 MiB each (spec/16 Table 16-7). -/
def writeParts (b c : Nat) (x : CollOp) (p j a : Nat) (s : State) (v : Bytes) : State :=
  (List.range (ceilDiv v.length 0x100000)).foldl (fun s i =>
    let w := (v.drop (i * 0x100000)).take 0x100000
    let r := startOp s p (x.moduleOf j) w.length (.chunk b c x.id j)
    queueWrite r.2 p (x.moduleOf j) 3 c r.1 (a + i * 0x100000) w) s

/-- Send up to 4 MiB of an all-to-all chunk by WRITE; a chunk for a member on this module is copied (spec/16 R404, R423). -/
def collChunk (s : State) (b c : Nat) (x : CollOp) : State :=
  let j := x.sent
  let n := min 0x400000 (x.chunk - x.sentOff)
  let ends := x.sentOff + n ≥ x.chunk
  let y := if ends then { x with sent := j + 1, sentOff := 0 } else { x with sentOff := x.sentOff + n }
  let a := (if j = x.rank then x.dst else x.remote j) + x.rank * x.chunk + x.sentOff
  match runActVal (rd (whoColl b c) (x.src + j * x.chunk + x.sentOff) n) s with
  | (.error st, s) => endColl s b c x st
  | (.ok v, s) =>
    if x.moduleOf j = ownModule s then
      match runAct (wr (whoColl b c) a v) s with
      | (.ok, s) => if ends && j ≠ x.rank then tellDelivered (putColl s b c y) b c y j else putColl s b c y
      | (st, s) => endColl s b c x st
    else match collPort s x (x.moduleOf j) with
      | none => endColl s b c x .linkLost
      | some (p, s) =>
        let y := { y.use p (x.moduleOf j) with acks := y.acks ++ List.replicate (ceilDiv n 0x100000) j }
        writeParts b c x p j a (chargeFerry (putColl s b c y) c n) v

/-- Consume up to 4 MiB of a received step: add it to this member's chunk, or store it in DST; the last step of the sums leaves
the finished chunk in DST (spec/16 R423). What the step leaves is what the next step sends. -/
def collConsume (b c : Nat) (x : CollOp) : Act CollOp := do
  let w := whoColl b c
  let step := x.recv
  let n := min 0x400000 (x.travel step - x.recvOff)
  let v ← rd w (x.stage step + x.recvOff) n
  let half := fun k => if x.efmt = 1 then k / 2 else k
  let out ← if step < x.sumSteps then do
      let own ← srcPart b c x (x.recvChunk step) x.recvOff n
      let sum := addWords x.efmt v own
      if step + 1 = x.sumSteps then
        let fin := if x.efmt = 1 then narrow sum else sum
        wr w (x.dst + (if x.kind = 2 then 0 else x.rank * x.chunk) + half x.recvOff) fin
        pure fin
      else pure sum
    else do
      wr w (x.dst + x.recvChunk step * x.chunk + x.recvOff) v
      pure v
  let next := x.next ++ out
  if x.recvOff + n < x.travel step then return { x with recvOff := x.recvOff + n, next := next }
  else return { x with recv := step + 1, recvOff := 0, next := [], cur := next }

/-- One unit of a running collective: the collective ends, or a part of a step or chunk is sent, or one is consumed. -/
def collUnit (s : State) (b c : Nat) (x : CollOp) : State :=
  match x.verdict with
  | some v => endColl s b c x v
  | none =>
    if x.done then endColl s b c x .ok
    else if x.maySend then (if x.kind = 3 then collChunk s b c x else collSend s b c x)
    else match runActVal (collConsume b c x) s with
      | (.error st, s) => endColl s b c x st
      | (.ok y, s) =>
        if y.recv ≠ x.recv && x.recv + 2 < x.steps then allowStep s b c y (x.recv + 2) else putColl s b c y

/-- COLLECTIVE: the head command starts, or a unit of the running one runs in its turn. -/
def collRow (s : State) (b c : Nat) : State :=
  match getColl s b c with
  | some x =>
    if (tabFind s.barges.busy b).isSome || !x.ready then s else
    match takeTurn s (bargeEng b) 0 c (bargeReady s b) with
    | some s => collUnit s b c x
    | none => s
  | none => bargeHead s b c 0x45 fun s q => startColl s b c q

/-- COLL_READY_REPEAT: until the first piece arrives (spec/16 R423). -/
def collRepeat (s : State) (b c : Nat) : State :=
  match getColl s b c with
  | some x => if x.kind ≠ 3 && !x.begun then allowStep s b c x 1 else s
  | none => s

/-- COLLECTIVE_TIMEOUT: the member has waited longer than TIMEOUT_US (spec/16 R424). -/
def collTimeout (s : State) (b c : Nat) : State :=
  match getColl s b c with
  | some x => if x.ready then s else endColl s b c x .linkLost
  | none => s

/-- A WRITE of an all-to-all chunk has ended; the chunk's last one tells its member. -/
def chunkEnded (s : State) (b c id j : Nat) (st : Status) : State :=
  match getColl s b c with
  | none => s
  | some x =>
    if x.id ≠ id then s else
    if st ≠ .ok then endColl s b c x st else
    let x := { x with acks := x.acks.erase j }
    if x.acks.contains j || x.sent ≤ j then putColl s b c x else tellDelivered s b c x j

/-- Collectives that use a lost path end with LINK_LOST (spec/16 R424). -/
def collPathLost (s : State) (p m : Nat) : State :=
  (s.barges.colls.filter fun k => k.2.used.contains (p, m)).foldl (fun s k =>
    endColl s (k.1 / 128) (k.1 % 128) k.2 .linkLost) s

/-! ### The rows -/

/-- MOVE. -/
def execMove (barge ctx : Nat) (s : State) : Host.Outcome State Fault Refusal := .next (moveHead s barge ctx)
/-- PIN. -/
def execPin (barge ctx : Nat) (s : State) : Host.Outcome State Fault Refusal := .next (pinHead s barge ctx)
/-- UNPIN. -/
def execUnpin (barge ctx : Nat) (s : State) : Host.Outcome State Fault Refusal := .next (unpinHead s barge ctx)
/-- SCHEDULE. -/
def execSchedule (barge ctx : Nat) (s : State) : Host.Outcome State Fault Refusal := .next (scheduleHead s barge ctx)
/-- ADVANCE. -/
def execAdvance (barge ctx : Nat) (s : State) : Host.Outcome State Fault Refusal := .next (advanceHead s barge ctx)
/-- FETCH_SLICE. -/
def execFetchSlice (barge ctx : Nat) (s : State) : Host.Outcome State Fault Refusal := .next (fetchSlice s barge ctx)
/-- RESIDENCY_EPOCH_TICK. -/
def execResidencyEpochTick (deck : Nat) (s : State) : Host.Outcome State Fault Refusal := .next (epochTick s deck)
/-- COLLECTIVE. -/
def execCollective (barge ctx : Nat) (s : State) : Host.Outcome State Fault Refusal := .next (collRow s barge ctx)
/-- COLL_READY_REPEAT. -/
def execCollReadyRepeat (barge ctx : Nat) (s : State) : Host.Outcome State Fault Refusal := .next (collRepeat s barge ctx)
/-- COLLECTIVE_TIMEOUT. -/
def execCollectiveTimeout (barge ctx : Nat) (s : State) : Host.Outcome State Fault Refusal :=
  .next (collTimeout s barge ctx)

end Sys2Proof.Machine
end

