-- ==== Sys2Proof/Machine/Slip.lean ====
section
/-! DEFINITION. The slip-queue manager (spec/08): reservations, commits, rewinds, consumer commands, credits, and the
manager's commands; remote pushes as spec/16 R419, R420 give. -/

namespace Sys2Proof.Machine

/-- The manager as an engine. -/
def slipEng : Eng := ⟨.slipManager, 0⟩

/-- A slip queue. -/
def getSq (s : State) (q : Nat) : SlipQ := tabGet {} s.slip.queues q

/-- Change the manager's state. -/
def modSlip (s : State) (f : SlipSt → SlipSt) : State := { s with slip := f s.slip }

/-- Change a slip queue. -/
def modSq (s : State) (q : Nat) (f : SlipQ → SlipQ) : State :=
  modSlip s fun x => { x with queues := tabMod {} x.queues q f }

/-- SIZE in words (spec/08 R188). -/
def SlipQ.size (x : SlipQ) : Nat := 2 ^ x.log2.toNat

/-- Where word position `p` lies (spec/08 R188). -/
def wordAddr (x : SlipQ) (p : Nat) : Nat := x.base.toNat + p % x.size * 32

/-- Where the frame of packet `k` lies (spec/08 R188). -/
def frameAddr (x : SlipQ) (k : Nat) : Nat := x.base.toNat + x.size * 32 + k % x.size * 16

/-- The manager's own accesses to a ring for a producer's context are not checked again (spec/14 R352); they are charged to
its partition (spec/14 R359). -/
def whoManager (c : Nat) : Who := { src := engSrc slipEng, pay := some c }

/-- Change a grant entry; an entry with neither grant nor words held does not exist (spec/08 R200). -/
def modGrant (s : State) (q m c : Nat) (f : Grant → Grant) : State :=
  modSlip s fun x => { x with grants := tabSet {} x.grants (grantKey q m c) (f (getGrant s q m c)) }

/-- A local producer's account on a peer's queue (spec/08 R201). -/
def getAccount (s : State) (q m c : Nat) : Grant := tabGet {} s.slip.accounts (grantKey q m c)

/-- Change an account. -/
def modAccount (s : State) (q m c : Nat) (f : Grant → Grant) : State :=
  modSlip s fun x => { x with accounts := tabSet {} x.accounts (grantKey q m c) (f (getAccount s q m c)) }

/-- Words of a grant not in use. -/
def Grant.available (g : Grant) : Nat := g.granted.toNat - g.held.toNat

/-- Credit words held or given back. -/
def Grant.hold (g : Grant) (n : Nat) : Grant := { g with held := g.held + BitVec.ofNat 32 n }
/-- See `Grant.hold`. -/
def Grant.giveBack (g : Grant) (n : Nat) : Grant := { g with held := BitVec.ofNat 32 (g.held.toNat - n) }

/-- The credit claims the context's installed maps make on a queue: the least of them and the MAP_ID of the first map that
makes it (spec/05 R120, R122, log 21). -/
def creditClaim (s : State) (c q : Nat) : Option (Nat × Nat) :=
  let claims := (s.cores.map fun k => (tabFind k.2.maps c).toList).flatten.map fun m =>
    (match m.credits.find? fun e => e.1 = q with | some e => e.2 | none => 0, m.id)
  claims.foldl (fun best x => match best with
    | some y => if x.1 < y.1 then some x else some y
    | none => some x) none

/-- What a reservation of `n` words meets: an overflow of credit (spec/05 Table 5-3 code 5, spec/08 R192), a wait, or
room. -/
inductive CreditCheck where
  | overflow (o : Overflow) | waits | room
  deriving DecidableEq, Repr

/-- Check the credit of a reservation: the maps' claims once, when its command reaches the head of its queue (spec/05 R120),
the grant whenever it is tried. -/
def checkCredit (s : State) (g : Grant) (c q n : Nat) (checked : Bool := false) : CreditCheck :=
  let claim := if checked then none else creditClaim s c q
  let exceeds := fun claimed required => CreditCheck.overflow
    { resource := 5, claimed := claimed, required := required, mapId := (claim.map (·.2)).getD 0 }
  if claim.any fun w => w.1 < g.held.toNat + n then exceeds ((claim.map (·.1)).getD 0) (g.held.toNat + n)
  else if n > g.granted.toNat then exceeds g.granted.toNat n
  else if g.available < n then .waits else .room

/-- Tell a peer of an entry's GRANTED and returned words (spec/16 R419, Table 16-7). -/
def sendCredit (s : State) (m q c words : Nat) : State :=
  if m = ownModule s then s else
  match choosePort s m with
  | some (p, s) =>
    let g := (getGrant s q m c).granted.toNat
    queueFrame s p m { op := 7, vc := 0, addr := c * 65536 + q, offset := g, arg := words }
  | none => s

/-- Reserve words (spec/08 R191). -/
def reserve (s : State) (q m c n : Nat) (eng : Option Eng) (port : Nat) (tag : Option (BitVec 32)) : State :=
  let s := modSq s q fun x => { x with
    resv := x.resv + w64 n
    items := x.items ++ [{ pos := x.resv.toNat, len := n, module := m, ctx := c, eng := eng, port := port, tag := tag }] }
  modGrant s q m c fun g => g.hold n

/-- The 16 bytes of a frame (spec/08 Table 8-1). -/
def frameBytes (s : State) (r : Resv) (w : Nat) : Bytes :=
  toLe 8 r.pos ++ toLe 2 w ++ toLe 1 r.ctx ++ toLe 1 (b2n (r.module ≠ ownModule s)) ++ toLe 2 r.module ++ toLe 2 0

/-- Packets become visible in reservation order (spec/08 R196). -/
def advanceQ (q : Nat) : List Resv → State → State
  | [], s => s
  | r :: rest, s =>
    if r.pos < (getSq s q).resolved.toNat then advanceQ q rest s
    else match r.state with
      | .opened => s
      | .hole | .visible .. =>
        advanceQ q rest (modSq s q fun x => { x with resolved := w64 (r.pos + r.len) })
      | .committed w =>
        let k := (getSq s q).commit.toNat
        let s := (runAct (wr (whoManager r.ctx) (frameAddr (getSq s q) k) (frameBytes s r w)) s).2
        let s := modSq s q fun x => { x with
          commit := x.commit + 1, resolved := w64 (r.pos + r.len)
          items := x.items.map fun y => if y.pos = r.pos then { y with state := .visible k w } else y }
        advanceQ q rest (modSlip s fun x => { x with packets := x.packets + 1 })

/-- Let what is resolved become visible. -/
def advanceAll (s : State) (q : Nat) : State := advanceQ q (getSq s q).items s

/-- The open reservation at a position. -/
def openAt (s : State) (q pos : Nat) : Option Resv :=
  (getSq s q).items.find? fun r => r.pos = pos && r.state = .opened

/-- Commit `w` words of an open reservation (spec/08 R194). -/
def commitAt (s : State) (q pos w : Nat) : State :=
  advanceAll (modSq s q fun x => { x with
    items := x.items.map fun y => if y.pos = pos && y.state = .opened then { y with state := .committed w } else y }) q

/-- Rewind an open reservation: the newest gives its space and credit back at once; another becomes a hole
(spec/08 R195). -/
def rewindAt (s : State) (q pos : Nat) : State :=
  match openAt s q pos with
  | none => s
  | some r =>
    let s := modSlip s fun x => { x with rewound := x.rewound + 1 }
    if r.pos + r.len = (getSq s q).resv.toNat then
      let s := modSq s q fun x => { x with resv := w64 r.pos, items := x.items.filter fun y => y.pos ≠ pos }
      let s := modGrant s q r.module r.ctx fun g => g.giveBack r.len
      sendCredit s r.module q r.ctx r.len
    else
      advanceAll (modSq s q fun x => { x with
        items := x.items.map fun y => if y.pos = pos then { y with state := .hole } else y }) q

/-! ### Consuming (spec/08 R198, R199) -/

/-- The words of a visible packet, and its POS. -/
def packetOf (x : SlipQ) (k : Nat) : Option (Nat × Nat) :=
  (x.items.find? fun r => match r.state with | .visible j _ => j = k | _ => false).bind fun r =>
    match r.state with | .visible _ w => some (r.pos, w) | _ => none

/-- TAKE n: `none` where the precondition fails. -/
def takeWords (x : SlipQ) (n : Nat) : Option SlipQ :=
  if x.readPkt.toNat < x.commit.toNat then
    match packetOf x x.readPkt.toNat with
    | some (_, w) =>
      let o := x.readOff.toNat + n
      if o > w then none
      else if o = w then some { x with readPkt := x.readPkt + 1, readOff := 0 }
      else some { x with readOff := BitVec.ofNat 12 o }
    | none => none
  else none

/-- DROP_REST. -/
def dropRest (x : SlipQ) : Option SlipQ :=
  if x.readPkt.toNat < x.commit.toNat then some { x with readPkt := x.readPkt + 1, readOff := 0 } else none

/-- MARK. -/
def setMark (x : SlipQ) : SlipQ := { x with markValid := true, markPkt := x.readPkt, markOff := x.readOff }

/-- REWIND. -/
def rewindRead (x : SlipQ) : Option SlipQ :=
  if x.markValid then some { x with readPkt := x.markPkt, readOff := x.markOff } else none

/-- The position RELEASE frees up to (spec/08 R199). -/
def releaseLimit (x : SlipQ) : Nat :=
  let l := if x.markValid && x.markPkt.toNat < x.readPkt.toNat then x.markPkt.toNat else x.readPkt.toNat
  if l < x.commit.toNat then (match packetOf x l with | some (pos, _) => pos | none => x.free.toNat)
  else x.resolved.toNat

/-- Return one released reservation's credit; a peer's producer is told, but for a hole (spec/16 R419). -/
def returnCredit (q : Nat) (s : State) (r : Resv) : State :=
  let s := modGrant s q r.module r.ctx fun g => g.giveBack r.len
  if r.state = .hole then s else sendCredit s r.module q r.ctx r.len

/-- RELEASE (spec/08 R199). -/
def releaseQ (s : State) (q : Nat) (clear : Bool) : State :=
  let s := if clear then modSq s q fun x => { x with markValid := false, markPkt := 0, markOff := 0 } else s
  let x := getSq s q
  let f := max x.free.toNat (releaseLimit x)
  let gone := x.items.filter fun r => r.pos + r.len ≤ f
  let s := modSq s q fun x => { x with free := w64 f, items := x.items.filter fun r => f < r.pos + r.len }
  gone.foldl (returnCredit q) s

/-! ### Credits (spec/08 R193, R200) -/

/-- The grant entries of a queue. -/
def entriesOf (s : State) (q : Nat) : List (Nat × Grant) := s.slip.grants.filter fun e => e.1 / (4096 * 128) = q

/-- What an entry counts in the sum of R193. -/
def Grant.counts (g : Grant) : Nat := max g.granted.toNat g.held.toNat

/-- The sum of R193 over a queue's entries, one entry left out. -/
def grantSum (s : State) (q except : Nat) : Nat :=
  (((entriesOf s q).filter fun e => e.1 ≠ except).map fun e => e.2.counts).sum

/-- GRANT: `none` where it would exceed SIZE or the number of entries (spec/08 R200). -/
def grantCredit (s : State) (q m c n : Nat) : Option State :=
  let k := grantKey q m c
  let g : Grant := { getGrant s q m c with granted := BitVec.ofNat 32 n }
  if grantSum s q k + g.counts > (getSq s q).size then none
  else if (tabFind s.slip.grants k).isNone && n ≠ 0 && s.slip.grants.length ≥ 262144 then none
  else some (sendCredit (modGrant s q m c fun _ => g) m q c 0)

/-! ### Commands (spec/08 Table 8-4) -/

/-- The fields of a manager command are in range (spec/08 R202). -/
def slipCmdOk (b : Bytes) : Bool :=
  let op := cmdOp b
  let n := fld b 16 4
  (if op = 0x6C then fld b 2 1 ≤ 1 else zeroAt b 2 1) && zeroAt b 3 1 && zeroAt b 6 2 && zeroAt b 23 41 &&
  (if op = 0x60 then fld b 8 8 % 32 = 0 else zeroAt b 8 8) &&
  (if op = 0x60 || op = 0x68 then 1 ≤ n && n ≤ 4096 else if op = 0x61 then n ≤ 16777216 else n = 0) &&
  (if op = 0x60 || op = 0x61 then fld b 20 2 < 4096 else zeroAt b 20 2) &&
  (if op = 0x61 then fld b 22 1 < 128 else zeroAt b 22 1)

/-- QID of a manager command. -/
def slipQid (b : Bytes) : Nat := fld b 4 2

/-- Whether the queue of a PUSH is on this module. -/
def pushHere (s : State) (b : Bytes) : Bool := fld b 20 2 = ownModule s

/-- Whether pushes toward a module end with LINK_LOST: no path is up, or accounts are not resynchronized (spec/16 R404,
R420). -/
def pushLost (s : State) (m : Nat) : Bool := s.slip.unsent.contains m || (choosePort s m).isNone

/-- The credit that a PUSH draws on: of its queue here, or of its account for a peer's. -/
def pushGrant (s : State) (c : Nat) (b : Bytes) : Grant :=
  if pushHere s b then getGrant s (slipQid b) (fld b 20 2) c else getAccount s (slipQid b) (fld b 20 2) c

/-- Whether a PUSH waits for credit (spec/08 R192). -/
def pushWaits (s : State) (c : Nat) (q : QCmd) : Bool :=
  let b := q.bytes
  (pushHere s b || !pushLost s (fld b 20 2)) &&
    checkCredit s (pushGrant s c b) c (slipQid b) (fld b 16 4) q.checked = .waits

/-- The contexts ready on the manager: those whose command at the head does not wait for credit. -/
def slipReady (s : State) : List Nat :=
  (engContexts s slipEng).filter fun c => match headCmd s slipEng c with
    | some q => !(cmdOp q.bytes = 0x60 && pushWaits s c q)
    | none => false

/-- A consumer command or GRANT at the head of its context's queue. -/
def slipHead (s : State) (c op : Nat) (f : State → QCmd → Option State) : State :=
  headRow s slipEng c slipOps op fun q =>
    if !slipCmdOk q.bytes then completeHead s slipEng c q .internal
    else if !(getSq s (slipQid q.bytes)).enable then completeHead s slipEng c q .disabled
    else if (getSq s (slipQid q.bytes)).consumer.toNat ≠ c then completeHead s slipEng c q .internal
    else match takeTurn s slipEng 0 c (slipReady s) with
      | none => s
      | some s => match f s q with
        | some s => completeHead s slipEng c q .ok
        | none => completeHead s slipEng c q .internal

/-- A consumer command that changes only its queue. -/
def slipConsume (s : State) (c op : Nat) (f : Bytes → SlipQ → Option SlipQ) : State :=
  slipHead s c op fun s q => (f q.bytes (getSq s (slipQid q.bytes))).map fun x => modSq s (slipQid q.bytes) fun _ => x

/-- A local PUSH: the words are copied to their positions and committed as one packet (spec/08 R203). -/
def pushWords (s : State) (c : Nat) (b : Bytes) : Status × State :=
  let q := slipQid b
  let n := fld b 16 4
  let pos := (getSq s q).resv.toNat
  let s := reserve s q (ownModule s) c n none 0 none
  let copy : Act Unit := (List.range n).forM fun i => do
    let w ← rd (whoOf slipEng c) (fld b 8 8 + 32 * i) 32
    wr (whoManager c) (wordAddr (getSq s q) (pos + i)) w
  match runAct copy s with
  | (.ok, s) => (.ok, commitAt s q pos n)
  | (st, s) => (st, rewindAt s q pos)

/-- A PUSH on a peer's queue: the words are read and go out as PUSH frames (spec/16 R419). -/
def pushRemote (s : State) (c : Nat) (q : QCmd) (p m : Nat) : Option Status × State :=
  let b := q.bytes
  let n := fld b 16 4
  match runActVal (rd (whoOf slipEng c) (fld b 8 8) (32 * n)) s with
  | (.error st, s) => (some st, s)
  | (.ok words, s) =>
    let s := modAccount s (slipQid b) m c fun g => g.hold n
    let r := startOp s p m n (.push c q (slipQid b) n)
    (none, (payloads (n / 256 + 1) 0 words).foldl (fun s ob =>
      queueFrame s p m { op := 5, vc := 3, ctx := c, tag := r.1, addr := slipQid b, offset := ob.1 / 32, arg := n,
                         payload := ob.2 }) (chargeFerry r.2 c (32 * n)))

/-- PUSH at the head of its context's queue (spec/08 R192, R203, spec/16 R420). -/
def pushHead (s : State) (c : Nat) : State :=
  headRow s slipEng c slipOps 0x60 fun q =>
    let b := q.bytes
    let m := fld b 20 2
    let n := fld b 16 4
    let here := pushHere s b
    if !slipCmdOk b then completeHead s slipEng c q .internal
    else if here && !(getSq s (slipQid b)).enable then completeHead s slipEng c q .disabled
    else if !here && pushLost s m then completeHead s slipEng c q .linkLost
    else
      match checkCredit s (pushGrant s c b) c (slipQid b) n q.checked with
      | .overflow o => completeHead s slipEng c q .mapOverflow o
      | .waits => markHead s slipEng c
      | .room =>
        match takeTurn s slipEng 0 c (slipReady s) with
        | none => markHead s slipEng c
        | some s =>
          if here then
            let r := pushWords s c b
            completeHead r.2 slipEng c q r.1
          else match choosePort s m with
            | none => completeHead s slipEng c q .linkLost
            | some (p, s) =>
              match pushRemote s c q p m with
              | (some st, s) => completeHead s slipEng c q st
              | (none, s) => popQ s slipEng c

/-! ### Other producers (spec/08 R191-R195) -/

/-- A producer's command, at the head of its context's queue on its engine, completes with an error (spec/08 R192,
R195). -/
def producerFails (s : State) (e : Eng) (c : Nat) (st : Status) (o : Overflow := {}) : State :=
  match headCmd s e c with
  | some q => completeHead s e c q st o
  | none => s

/-- A producer that is no PUSH reserves for the command at the head of its context's queue (spec/08 R191, R192). -/
def producerReserve (s : State) (q : Nat) (e : Eng) (c n : Nat) : State :=
  if !(getSq s q).enable || n = 0 || 4096 < n then s else
  match checkCredit s (getGrant s q (ownModule s) c) c q n with
  | .overflow o => producerFails s e c .mapOverflow o
  | .waits => s
  | .room => reserve s q (ownModule s) c n (some e) 0 none

/-- Words written at their positions. -/
def writeWords (s : State) (w : Who) (q pos : Nat) (b : Bytes) : Status × State :=
  runAct ((List.range (b.length / 32)).forM fun i =>
    wr w (wordAddr (getSq s q) (pos + i)) ((b.drop (32 * i)).take 32)) s

/-- A producer writes the words of an open reservation of its own, as its engine's accesses, and commits as many; an error
rewinds the packet and ends its command (spec/08 R194, R195, spec/14 R352). -/
def producerCommit (s : State) (q pos : Nat) (words : Bytes) : State :=
  match openAt s q pos with
  | none => s
  | some r =>
    match r.eng with
    | none => s
    | some e =>
      let n := words.length / 32
      if n = 0 || r.len < n then s else
      match writeWords s (whoOf e r.ctx) q pos words with
      | (.ok, s) => commitAt s q pos n
      | (st, s) => producerFails (rewindAt s q pos) e r.ctx st

/-! ### DISPATCH commands in progress (spec/06 R138, R139) -/

/-- A router as an engine. -/
def routerEng (k : Nat) : Eng := ⟨.router, k⟩

/-- A router. -/
def getRouter (s : State) (k : Nat) : RouterSt := tabGet {} s.routers k

/-- Change a router. -/
def modRouter (s : State) (k : Nat) (f : RouterSt → RouterSt) : State := { s with routers := tabMod {} s.routers k f }

/-- A DISPATCH ends when every notification is pushed, or, once it has failed, when nothing of it is in flight
(spec/06 R139). -/
def settleDispatch (s : State) (k c : Nat) : State :=
  match tabFind (getRouter s k).ops c with
  | none => s
  | some o =>
    let idle := o.pushes = 0 && o.experts.all fun x => x.left = 0
    let s' := modRouter s k fun r => { r with ops := tabDel r.ops c }
    match o.verdict with
    | some (st, v) => if idle then completeCmd s' (routerEng k) c o.cmd st v else s
    | none => if idle && o.experts.all (·.pushed) then completeCmd s' (routerEng k) c o.cmd .ok else s

/-- Change a DISPATCH in progress. -/
def setDisp (s : State) (k c : Nat) (f : DispOp → DispOp) : State :=
  match tabFind (getRouter s k).ops c with
  | none => s
  | some o => modRouter s k fun r => { r with ops := tabPut r.ops c (f o) }

/-- Change a DISPATCH in progress, and end it if it is done. -/
def modDisp (s : State) (k c : Nat) (f : DispOp → DispOp) : State := settleDispatch (setDisp s k c f) k c

/-- A DISPATCH in progress fails. -/
def failDisp (s : State) (k c : Nat) (st : Status) (v : Overflow) : State :=
  modDisp s k c fun o => { o with verdict := some (o.verdict.getD (st, v)) }

/-- A queue is disabled while a router's commands wait. -/
def noteClosed (q key : Nat) (x : EngineSt) : EngineSt :=
  if (engOfSelector key).any (·.kind == .router) then
    let f (y : CtxQ) : CtxQ := { y with queue := y.queue.map fun d => { d with closed := q :: d.closed } }
    { x with ctxs := tabMap (fun _ y => f y) x.ctxs }
  else x

/-- A disabled queue stops the DISPATCH commands that name it: those in progress with ABORTED_DISABLED, and those still
queued when they start (spec/15 R387, R388). -/
def stopDispatches (s : State) (q : Nat) : State :=
  let own := ownModule s
  let s := { s with engs := tabMap (noteClosed q) s.engs }
  let hit := (s.routers.map fun kr => (kr.2.ops.filter fun co =>
    co.2.experts.any fun x => x.module = own && x.queue = q).map fun co => (kr.1, co.1)).flatten
  hit.foldl (fun s kc => failDisp s kc.1 kc.2 .abortedDisabled {}) s

/-! ### Enabling and disabling (spec/08 R206, spec/14 R352) -/

/-- The ring lies in windows of the consumer's partition for reading, and in such for writing (spec/14 R352, log 22). -/
def ringPermitted (s : State) (x : SlipQ) : Bool :=
  let p := ctxPart x.consumer.toNat
  let a := x.base.toNat
  let n := x.size * 48
  windowsPermit s p a n false && windowsPermit s p a n true && a + n ≤ cacheBase

/-- ENABLE goes from 0 to 1, or fails its window check. -/
def enableQueue (s : State) (q : Nat) : State :=
  if ringPermitted s (getSq s q) then
    let s := modSq s q fun x => { x with enable := true, resv := 0, resolved := 0, commit := 0, readPkt := 0, readOff := 0,
                                         free := 0, markValid := false, markPkt := 0, markOff := 0, items := [] }
    modSlip s fun y => { y with grants := (y.grants.map fun e =>
      if e.1 / (4096 * 128) = q then (e.1, { e.2 with held := 0 }) else e).filter fun e => e.2 ≠ {} }
  else raise s .enableFailed (engSrc slipEng) (toLe 2 q ++ [0])

/-- An open packet of a disabled queue is rewound; a peer's PUSH ends with ABORTED_DISABLED (spec/08 R206). -/
def abortOpen (q : Nat) (s : State) (r : Resv) : State :=
  if r.state = .opened then
    let s := rewindAt s q r.pos
    match r.tag with
    | some t => queueFrame s r.port r.module { op := 6, vc := 2, ctx := r.ctx, tag := t, arg := Status.abortedDisabled.code }
    | none => s
  else s

/-- ENABLE is cleared: open packets are rewound, newest first, every unreleased word is freed and its credit returns; the
commands in flight that name the queue stop (spec/08 R206, spec/15 R387). -/
def disableQueue (s : State) (q : Nat) : State :=
  let x := getSq s q
  -- nothing becomes visible while the queue closes
  let s := modSq s q fun x => { x with items := x.items.map fun r =>
    match r.state with | .committed _ => { r with state := .hole } | _ => r }
  let s := x.items.reverse.foldl (abortOpen q) s
  let left := (getSq s q).items
  let s := left.foldl (fun s r => returnCredit q s
    (if (x.items.find? fun y => y.pos = r.pos).any (fun y => match y.state with | .committed _ => true | _ => false)
     then { r with state := .committed r.len } else r)) s
  let s := modSq s q fun x => { x with enable := false, items := [], free := x.resv, resolved := x.resv }
  let s := stopDispatches s q
  markQueued s fun e _ c => e = slipEng && slipQid c.bytes = q && slipOps.contains (cmdOp c.bytes) &&
    !(cmdOp c.bytes = 0x60 && fld c.bytes 20 2 ≠ ownModule s)

/-- The least LOG2_SIZE whose ring holds the grants that persist (spec/08 R193). -/
def leastLog2 (s : State) (q : Nat) : Nat :=
  let sum := ((entriesOf s q).map fun e => e.2.granted.toNat).sum
  ((List.range 25).find? fun k => sum ≤ 2 ^ k).getD 24

/-- A write to SLP_q_CFG (spec/08 R206); LOG2_SIZE stays large enough for the grants that persist (R193, log 88). -/
def writeSlpCfg (s : State) (q : Nat) (v : W64) : State :=
  let on := v.getLsbD 63
  let x := getSq s q
  let set := fun (x : SlipQ) => { x with
    consumer := BitVec.ofNat 7 (bits v.toNat 46 40),
    log2 := BitVec.ofNat 5 (clamp (max 6 (leastLog2 s q)) 24 (bits v.toNat 36 32)) }
  if x.enable && on then s
  else if x.enable then modSq (disableQueue s q) q set
  else if on then enableQueue (modSq s q set) q
  else modSq s q set

/-! ### Frames of remote pushes (spec/16 R419, R420) -/

/-- The reservation a PUSH frame's operation made. -/
def remoteResv (s : State) (q m : Nat) (tag : BitVec 32) : Option Resv :=
  (getSq s q).items.find? fun r => r.module = m && r.tag = some tag && r.state = .opened

/-- Who serves a peer's operation: the partition of the frame's context (spec/16 R403). -/
def whoServed (p : Nat) (f : FFrame) : Who := { src := portSrc p, ctx := some f.ctx, pay := some f.ctx, wheel := false }

/-- Whether the partition of a PUSH frame may write the positions its packet would take (spec/16 R403). -/
def pushPermitted (s : State) (w : Who) (q n : Nat) : Bool :=
  (List.range n).all fun i => mayAccess s w (wordAddr (getSq s q) ((getSq s q).resv.toNat + i)) 32 true

/-- A PUSH frame arrives: the first reserves; each writes its words; the last commits and PUSH_DONE goes back
(spec/16 R403, R419). -/
def pushFrame (s : State) (p : Nat) (f : FFrame) : State :=
  let q := f.addr % 65536
  let w := whoServed p f
  if s.slip.deaf.contains f.src then s else
  let s := if f.offset = 0 then
      if (getSq s q).enable && 1 ≤ f.arg && f.arg ≤ 4096 && f.arg ≤ (getGrant s q f.src f.ctx).available &&
          pushPermitted s w q f.arg then
        reserve s q f.src f.ctx f.arg none p (some f.tag)
      else refuseOp s p f (if (getSq s q).enable then .internal else .disabled)
    else s
  match remoteResv s q f.src f.tag with
  | none => s
  | some r =>
    match writeWords s w q (r.pos + f.offset) f.payload with
    | (.ok, s) =>
      let n := f.offset + f.payload.length / 32
      if n ≥ r.len then replyTo (commitAt s q r.pos r.len) p f 6 0
      else modSq s q fun x => { x with items := x.items.map fun y => if y.pos = r.pos then { y with got := n } else y }
    | (st, s) => replyTo (rewindAt s q r.pos) p f 6 st.code

/-- SLIP_CREDIT: an account takes a grant, returned words or a resync; DONE lets pushes toward the peer run again
(spec/16 R419, R420). -/
def creditFrame (s : State) (f : FFrame) : State :=
  if f.last then modSlip s fun x => { x with unsent := x.unsent.filter (· ≠ f.src) }
  else
    modAccount s (f.addr % 65536) f.src (bits f.addr 22 16) fun g =>
      if f.resync then { granted := BitVec.ofNat 32 f.offset, held := BitVec.ofNat 32 f.arg }
      else { (g.giveBack f.arg) with granted := BitVec.ofNat 32 f.offset }

/-- A path between two modules is lost: uncommitted packets from the peer are rewound, and pushes stop both ways until
resynchronization (spec/16 R420). -/
def slipPathLost (s : State) (m : Nat) : State :=
  let s := s.slip.queues.foldl (fun s qx =>
    (qx.2.items.reverse.filter fun r => r.module = m && m ≠ ownModule s && r.state = .opened).foldl
      (fun s r => rewindAt s qx.1 r.pos) s) s
  modSlip s fun x => { x with unsent := insertNat m x.unsent, deaf := insertNat m x.deaf }

/-- A path between two modules is up: unless another stayed up, every grant entry of the peer's producers is sent, then DONE
(spec/16 R420). -/
def slipResync (s : State) (p m : Nat) : State :=
  if !s.slip.deaf.contains m && (List.range 16).any (fun i => i ≠ p && ferryLive s i && pathUp s i m) then s else
  let own := s.slip.grants.filter fun e => e.1 / 128 % 4096 = m
  let s := own.foldl (fun s e =>
    let a := e.1 % 128 * 65536 + e.1 / (4096 * 128)
    queueFrame s p m { op := 7, resync := true, addr := a, offset := e.2.granted.toNat, arg := e.2.held.toNat }) s
  let s := queueFrame s p m { op := 7, vc := 0, last := true }
  modSlip s fun x => { x with deaf := x.deaf.filter (· ≠ m) }

/-! ### The rows -/

/-- PUSH. -/
def execPush (ctx : Nat) (s : State) : Host.Outcome State Fault Refusal := .next (pushHead s ctx)
/-- GRANT. -/
def execGrant (ctx : Nat) (s : State) : Host.Outcome State Fault Refusal :=
  .next (slipHead s ctx 0x61 fun s q => grantCredit s (slipQid q.bytes) (fld q.bytes 20 2) (fld q.bytes 22 1) (fld q.bytes 16 4))
/-- TAKE. -/
def execTake (ctx : Nat) (s : State) : Host.Outcome State Fault Refusal :=
  .next (slipConsume s ctx 0x68 fun b x => takeWords x (fld b 16 4))
/-- DROP_REST. -/
def execDropRest (ctx : Nat) (s : State) : Host.Outcome State Fault Refusal :=
  .next (slipConsume s ctx 0x69 fun _ x => dropRest x)
/-- MARK. -/
def execMark (ctx : Nat) (s : State) : Host.Outcome State Fault Refusal :=
  .next (slipConsume s ctx 0x6A fun _ x => some (setMark x))
/-- REWIND. -/
def execRewind (ctx : Nat) (s : State) : Host.Outcome State Fault Refusal :=
  .next (slipConsume s ctx 0x6B fun _ x => rewindRead x)
/-- RELEASE. -/
def execRelease (ctx : Nat) (s : State) : Host.Outcome State Fault Refusal :=
  .next (slipHead s ctx 0x6C fun s q => some (releaseQ s (slipQid q.bytes) (bit (fld q.bytes 2 1) 0)))
/-- SLIP_RESERVE: a producer of this module that is no PUSH reserves `len` words. -/
def execSlipReserve (queue : Nat) (e : Eng) (ctx len : Nat) (s : State) : Host.Outcome State Fault Refusal :=
  .next (producerReserve s queue e ctx len)
/-- SLIP_COMMIT. -/
def execSlipCommit (queue pos : Nat) (words : Bytes) (s : State) : Host.Outcome State Fault Refusal :=
  .next (producerCommit s queue pos words)
/-- SLIP_REWIND. -/
def execSlipRewind (queue pos : Nat) (s : State) : Host.Outcome State Fault Refusal := .next (rewindAt s queue pos)
/-- SLP_QUEUE_ENABLE: a write of SLP_q_CFG that sets ENABLE. -/
def execSlpQueueEnable (queue : Nat) (value : W64) (s : State) : Host.Outcome State Fault Refusal :=
  .next (if value.getLsbD 63 then writeSlpCfg s queue value else s)
/-- SLP_QUEUE_DISABLE: a write of SLP_q_CFG that clears ENABLE. -/
def execSlpQueueDisable (queue : Nat) (value : W64) (s : State) : Host.Outcome State Fault Refusal :=
  .next (if value.getLsbD 63 then s else writeSlpCfg s queue value)

end Sys2Proof.Machine
end

