-- ==== Sys2Proof/Machine/Router.lean ====
section
/-! DEFINITION. The expert routers (spec/06 R126-R144): ROUTE, DISPATCH with its notifications, COMBINE. -/

namespace Sys2Proof.Machine

/-- The opcodes of a router (spec/06 R126). -/
def routerOps : List Nat := [0x20, 0x21, 0x22]

/-- ISZ of a row buffer: one activation tile image, rounded up to 64 (spec/06 R127). -/
def isz (f : Nat) : Nat := up64 (actSize f)

/-- A format a row buffer takes: dense (spec/06 Tables 6-5 and 6-7). -/
def rowFmtOk (f : Nat) : Bool := f < 32 && fmtElem f ≤ 12

/-- A format a row buffer takes that is converted: BIN1 is an operand of the Hamming operation alone (spec/03 R64). -/
def rowConvOk (f : Nat) : Bool := rowFmtOk f && fmtElem f ≠ 11

/-- A layer record (spec/06 Table 6-1). -/
structure Layer where
  next : Bool := false
  norm : Nat := 0
  renorm : Bool := false
  experts : Nat := 0
  topK : Nat := 0
  limit : Nat := 0
  capacity : Nat := 0
  map : Nat := 0
  deriving DecidableEq, Repr

/-- A layer record's 64 bytes, if every field is in range. -/
def layerOf (b : Bytes) : Option Layer :=
  let pol := fld b 1 1
  let e := fld b 2 2
  let k := fld b 4 1
  let nx := bit pol 0
  let lim := fld b 6 2
  let cap := fld b 8 4
  if fld b 0 1 = 1 && bits pol 2 1 ≠ 3 && bits pol 7 4 = 0 && 1 ≤ e && e ≤ 1024 && 1 ≤ k && k ≤ 16 && k ≤ e &&
     zeroAt b 5 1 && (!nx || (1 ≤ lim && lim ≤ 1024)) && 1 ≤ cap && cap ≤ 65535 && zeroAt b 12 4 &&
     fld b 16 8 % 64 = 0 && zeroAt b 24 40 then
    some { next := nx, norm := bits pol 2 1, renorm := bit pol 3, experts := e, topK := k, limit := lim,
           capacity := cap, map := fld b 16 8 }
  else none

/-- Read a layer record. -/
def rdLayer (w : Who) (a : Nat) : Act Layer := do
  let b ← rd w a 64
  match layerOf b with
  | some l => return l
  | none => throw .internal

/-- The credit a notification draws on: of its queue here, or of the context's account for a peer's. -/
def notifyGrant (s : State) (c : Nat) (x : DispExpert) : Grant :=
  if x.module = ownModule s then getGrant s x.queue x.module c else getAccount s x.queue x.module c

/-- Whether all that a DISPATCH in progress does is wait for credit: this delays its own context alone (spec/08 R192). -/
def dispWaits (s : State) (c : Nat) (o : DispOp) : Bool :=
  o.verdict.isNone && o.pushes = 0 && o.experts.all fun x => x.left = 0 &&
    (x.pushed || checkCredit s (notifyGrant s c x) c x.queue 1 = .waits)

/-- Whether a router can start a command of a context: nothing of the context is in progress, and no other command runs. -/
def routerFree (s : State) (k c : Nat) : Bool :=
  (getRouter s k).ops.all fun co => co.1 ≠ c && dispWaits s co.1 co.2

/-- The contexts with a command ready on a router. -/
def routerReady (s : State) (k : Nat) : List Nat :=
  (engContexts s (routerEng k)).filter fun c =>
    (headCmd s (routerEng k) c).isSome && (tabFind (getRouter s k).ops c).isNone

/-- A row about the head of a context's queue on a router: it runs one command at a time (spec/06 R126). -/
def routerHead (s : State) (k c op : Nat) (ok : Bytes → Bool) (f : State → QCmd → State) : State :=
  if !routerFree s k c then s else
  headRow s (routerEng k) c routerOps op fun q =>
    match takeTurn s (routerEng k) 0 c (routerReady s k) with
    | none => s
    | some s => if ok q.bytes then f s q else completeHead s (routerEng k) c q .internal

/-! ### ROUTE (spec/06 R129-R135) -/

/-- The order of logits: largest first, the lower expert first among equals, NaN last (spec/06 R129). -/
def logitLe (a b : BitVec 32 × Nat) : Bool :=
  let na := (f32Dec a.1).isNan
  let nb := (f32Dec b.1).isNan
  if na || nb then (nb && !na) || (na && nb && a.2 ≤ b.2)
  else f32Lt b.1 a.1 || (!f32Lt a.1 b.1 && a.2 ≤ b.2)

/-- The experts of a token in rank order. -/
def rankExperts (logits : List (BitVec 32)) : List Nat := (sortBy logitLe logits.zipIdx).map (·.2)

/-- The gate weight of rank `r` (spec/06 R130). -/
def gateWeight (l : Layer) (logits : List (BitVec 32)) (order : List Nat) (r : Nat) : BitVec 32 :=
  let e := order.getD r 0
  match l.norm with
  | 0 => rowStep 0x30 ((order.take l.topK).map fun i => logits.getD i 0) [] [] r
  | 1 => rowStep 0x30 logits [] [] e
  | _ => vSigmoid (logits.getD e 0)

/-- What the claims of a ROUTE come to: counts, the list entries (expert, place, rank, token), and the slots of the
token under way (expert, place, weight), none where dropped. -/
structure Claims where
  counts : List Nat := []
  dropped : Nat := 0
  subst : Nat := 0
  entries : List (Nat × Nat × Nat × Nat) := []
  next : Nat := 0
  slots : List (Option (Nat × Nat) × BitVec 32) := []
  deriving DecidableEq, Repr

/-- Assign rank `r` of token `t` to expert `e`. -/
def assignSlot (x : Claims) (t r e : Nat) (w : BitVec 32) : Claims :=
  let n := x.counts.getD e 0
  { x with counts := setAt x.counts e (n + 1), entries := x.entries ++ [(e, n, r, t)],
           slots := x.slots ++ [(some (e, n), w)] }

/-- Try further ranks for a slot under next choice. -/
def tryNext (l : Layer) (order : List Nat) (t r : Nat) (w : BitVec 32) : Nat → Claims → Claims
  | 0, x => { x with dropped := x.dropped + 1, slots := x.slots ++ [(none, w)] }
  | f + 1, x =>
    if x.next < min l.experts (l.topK + l.limit) then
      let e := order.getD x.next 0
      let x := { x with next := x.next + 1 }
      if x.counts.getD e 0 < l.capacity then { assignSlot x t r e w with subst := x.subst + 1 }
      else tryNext l order t r w f x
    else { x with dropped := x.dropped + 1, slots := x.slots ++ [(none, w)] }

/-- One rank's claim (spec/06 R131). -/
def claimRank (l : Layer) (logits : List (BitVec 32)) (order : List Nat) (t : Nat) (x : Claims) (r : Nat) : Claims :=
  let e := order.getD r 0
  let w := gateWeight l logits order r
  if x.counts.getD e 0 < l.capacity then assignSlot x t r e w
  else if l.next then tryNext l order t r w l.experts x
  else { x with dropped := x.dropped + 1, slots := x.slots ++ [(none, w)] }

/-- The claims of one token, its slots renormalized where the layer says so. -/
def claimToken (l : Layer) (logits : List (BitVec 32)) (t : Nat) (x : Claims) : Claims :=
  let order := rankExperts logits
  let x := (List.range l.topK).foldl (claimRank l logits order t) { x with next := l.topK, slots := [] }
  let sum := x.slots.foldl (fun a v => if v.1.isSome then f32Add a v.2 else a) 0
  if l.renorm && f32Lt 0 sum then
    { x with slots := x.slots.map fun v =>
        if v.1.isSome then (v.1, f32DivExact (f32Dec v.2) (f32Dec sum)) else v }
  else x

/-- The 128 bytes of a combine record (spec/06 Table 6-3). -/
def combineBytes (slots : List (Option (Nat × Nat) × BitVec 32)) : Bytes :=
  ((List.range 16).map fun r =>
    match slots[r]? with
    | some (some (e, n), w) => toLe 2 e ++ toLe 2 n ++ toLe 4 w.toNat
    | some (none, w) => toLe 2 0xFFFF ++ toLe 2 0 ++ toLe 4 w.toNat
    | none => toLe 2 0xFFFF ++ toLe 2 0 ++ toLe 4 0).flatten

/-- A ROUTE is well formed (spec/06 Table 6-2). -/
def routeOk (b : Bytes) : Bool :=
  fld b 2 1 ≤ 1 && zeroAt b 3 5 && zeroAt b 56 8 && fld b 8 8 % 64 = 0 && 1 ≤ fld b 28 4 && fld b 28 4 ≤ 65536 &&
  fld b 32 8 % 64 = 0 && fld b 40 8 % 64 = 0 && fld b 48 8 % 64 = 0

/-- Everything a ROUTE reads, claims and writes; the counts come last. -/
def routeWork (k c : Nat) (b : Bytes) : Act Unit := do
  let w := whoOf (routerEng k) c
  let l ← rdLayer w (fld b 8 8)
  let counts := fld b 32 8
  stopIf (namesWheel [(counts, 4 * l.experts + 8), (fld b 40 8, l.experts * l.capacity * 8),
    (fld b 48 8, (fld b 24 4 + fld b 28 4) * 128)]) .internal
  let ws ← if bit (fld b 2 1) 0 then rd w counts (4 * l.experts + 8) else pure []
  let x0 : Claims := { counts := (List.range l.experts).map fun e => fld ws (4 * e) 4 }
  let cols := up64 l.experts
  let x ← (List.range (fld b 28 4)).foldlM (fun (x : Claims) i => do
    let t := fld b 24 4 + i
    let logits ← (List.range l.experts).mapM fun e =>
      rdElem w (imageAt (fld b 16 8) (isz 0) cols t e) 0 (t % 64) (e % 64)
    let x := claimToken l logits t x
    wr w (fld b 48 8 + t * 128) (combineBytes x.slots)
    return x) x0
  x.entries.forM fun e =>
    wr w (fld b 40 8 + (e.1 * l.capacity + e.2.1) * 8) (toLe 8 (e.2.2.1 * 2 ^ 32 + e.2.2.2 % 2 ^ 32))
  wr w counts ((x.counts.map (toLe 4)).flatten ++ toLe 4 (fld ws (4 * l.experts) 4 + x.dropped) ++
    toLe 4 (fld ws (4 * l.experts + 4) 4 + x.subst))
  actMod fun s => modRouter s k fun r => { r with
    routed := r.routed + w64 (fld b 28 4), dropped := r.dropped + w64 x.dropped, subst := r.subst + w64 x.subst }

/-- ROUTE at the head of its context's queue. -/
def routeHead (s : State) (k c : Nat) : State :=
  routerHead s k c 0x20 routeOk fun s q =>
    let r := runAct (routeWork k c q.bytes) s
    completeHead r.2 (routerEng k) c q r.1

/-! ### DISPATCH (spec/06 R137-R139) -/

/-- A DISPATCH is well formed (spec/06 Table 6-5). -/
def dispatchOk (b : Bytes) : Bool :=
  zeroAt b 3 1 && zeroAt b 46 2 && zeroAt b 56 8 && rowFmtOk (fld b 2 1) && 1 ≤ fld b 6 2 && fld b 6 2 ≤ 1024 &&
  fld b 8 8 % 64 = 0 && fld b 16 8 % 64 = 0 && fld b 24 8 % 64 = 0 && fld b 44 2 ≤ 4095 &&
  64 ≤ fld b 40 4 && fld b 40 4 ≤ 65536 && fld b 40 4 % 64 = 0

/-- The pieces of one row of a row buffer: its elements in each image, and in an MX format its two scales. -/
def rowPieces (base f cols r : Nat) : List (Nat × Nat) :=
  let bw := elemBits (fmtElem f)
  ((List.range (cols / 64)).map fun t =>
    let img := imageAt base (isz f) cols r (64 * t)
    (img + r % 64 * 8 * bw, 8 * bw) :: (if isMx (fmtElem f) then [(img + actElems f + 2 * (r % 64), 2)] else [])).flatten

/-- Copy one piece of a row to an expert's owner; the number of ferry operations it starts. -/
def dispatchPiece (k c e m src dst n : Nat) : Act Nat := do
  let v ← rd (whoOf (routerEng k) c) src n
  let s ← get
  if m = ownModule s then wr (whoOf (routerEng k) c) dst v; return 0
  else match choosePort s m with
    | none => throw .linkLost
    | some (p, s) =>
      let r := startOp (chargeFerry s c n) p m n (.dispatch k c e)
      set (queueWrite r.2 p m 5 c r.1 dst v)
      return 1

/-- What a DISPATCH does for one expert: its map entry, the tokens of its list, and where their rows go. -/
structure DispPlan where
  expert : Nat := 0
  module : Nat := 0
  queue : Nat := 0
  region : Nat := 0
  tokens : List Nat := []
  deriving DecidableEq, Repr

/-- The row pieces a plan copies: where each is read, where it is written, and its size (spec/06 R138). -/
def DispPlan.copies (x : DispPlan) (b : Bytes) : List (Nat × Nat × Nat) :=
  let f := fld b 2 1
  let cols := fld b 40 4
  (x.tokens.zipIdx.map fun tj =>
    ((rowPieces (fld b 32 8) f cols tj.1).zip (rowPieces x.region f cols tj.2)).map fun pq =>
      (pq.1.1, pq.2.1, pq.1.2)).flatten

/-- Read the map entry, the count and the list of expert `e`; INTERNAL for a malformed entry (spec/06 R126, R137). -/
def planExpert (w : Who) (b : Bytes) (l : Layer) (e : Nat) : Act DispPlan := do
  let m ← rd w (l.map + 16 * e) 16
  stopIf (fld m 0 2 ≥ 4096 || !zeroAt m 4 4 || fld m 8 8 % 64 ≠ 0) .internal
  let n ← rdNat w (fld b 24 8 + 4 * e) 4
  let tokens ← (List.range n).mapM fun j => rdNat w (fld b 16 8 + (e * l.capacity + j) * 8) 4
  return { expert := e, module := fld m 0 2, queue := fld m 2 2, tokens := tokens
           region := fld m 8 8 + fld b 44 2 * ceilDiv l.capacity 64 * (fld b 40 4 / 64) * isz (fld b 2 1) }

/-- What a DISPATCH reads and checks before it acts: its layer, its experts, the wheelhouse region (spec/07 R157) and the
local queues it names (spec/15 R387, R388). -/
def dispatchPlan (k c : Nat) (q : QCmd) : Act (List DispPlan) := do
  let b := q.bytes
  let w := whoOf (routerEng k) c
  let l ← rdLayer w (fld b 8 8)
  stopIf (fld b 4 2 + fld b 6 2 > l.experts) .internal
  let plans ← (List.range (fld b 6 2)).mapM fun i => planExpert w b l (fld b 4 2 + i)
  let s ← get
  let here := plans.filter fun x => x.module = ownModule s
  stopIf (namesWheel ((plans.map fun x => (x.copies b).map fun y => (y.1, y.2.2)).flatten ++
    (here.map fun x => (x.copies b).map fun y => y.2).flatten)) .internal
  stopIf (here.any fun x => q.closed.contains x.queue) .abortedDisabled
  stopIf (here.any fun x => !(getSq s x.queue).enable) .disabled
  return plans

/-- Copy the rows of one expert (spec/06 R138). -/
def dispatchExpert (k c : Nat) (b : Bytes) (x : DispPlan) : Act Unit :=
  (x.copies b).forM fun y => do
    let started ← dispatchPiece k c x.expert x.module y.1 y.2.1 y.2.2
    actMod fun s => setDisp s k c fun o => { o with
      experts := o.experts.map fun z => if z.expert = x.expert then { z with left := z.left + started } else z }

/-- DISPATCH at the head of its context's queue starts: what it reads and checks first stops it before it acts. -/
def dispatchHead (s : State) (k c : Nat) : State :=
  routerHead s k c 0x21 dispatchOk fun s q =>
    match runActVal (dispatchPlan k c q) s with
    | (.error st, s) => completeHead s (routerEng k) c q st
    | (.ok plans, s) =>
      let op : DispOp := { cmd := q, experts := plans.map fun x =>
        { expert := x.expert, module := x.module, queue := x.queue, rows := x.tokens.length } }
      let s := modRouter (popQ s (routerEng k) c) k fun r => { r with ops := tabPut r.ops c op }
      let r := runAct (plans.forM (dispatchExpert k c q.bytes)) s
      if r.1 = .ok then settleDispatch r.2 k c else failDisp r.2 k c r.1 {}

/-- A row piece of a DISPATCH has ended (spec/06 R139). -/
def dispatchEnded (s : State) (k c e : Nat) (st : Status) : State :=
  let s := setDisp s k c fun o => { o with
    experts := o.experts.map fun x => if x.expert = e then { x with left := x.left - 1 } else x }
  if st = .ok then settleDispatch s k c else failDisp s k c st {}

/-- A notification pushed on a peer's queue has ended. -/
def notifyEnded (s : State) (k c : Nat) (st : Status) : State :=
  let s := setDisp s k c fun o => { o with pushes := o.pushes - 1 }
  if st = .ok then settleDispatch s k c else failDisp s k c st {}

/-- The 32 bytes of a notification (spec/06 Table 6-6). -/
def notifyWord (s : State) (b : Bytes) (x : DispExpert) : Bytes :=
  toLe 2 x.expert ++ toLe 2 (fld b 44 2) ++ toLe 4 x.rows ++ toLe 2 (ownModule s) ++ toLe 6 0 ++
  toLe 8 (fld b 48 8) ++ toLe 8 0

/-- Mark an expert's notification as pushed. -/
def markPushed (s : State) (k c e remote : Nat) : State :=
  modDisp s k c fun o => { o with
    pushes := o.pushes + remote
    experts := o.experts.map fun x => if x.expert = e then { x with pushed := true } else x }

/-- One packet of one word that a router puts on a local queue: reserve, write as the router's access, commit
(spec/08 R191, spec/14 R352). -/
def pushWord (s : State) (k q c : Nat) (word : Bytes) : Status × State :=
  let pos := (getSq s q).resv.toNat
  match writeWords (reserve s q (ownModule s) c 1 (some (routerEng k)) 0 none) (whoOf (routerEng k) c) q pos word with
  | (.ok, s) => (.ok, commitAt s q pos 1)
  | (st, s) => (st, rewindAt s q pos)

/-- DISPATCH_NOTIFY: the notification of an expert whose rows are all acknowledged (spec/06 R139). -/
def dispatchNotify (s : State) (k c e : Nat) : State :=
  match tabFind (getRouter s k).ops c with
  | none => s
  | some o =>
    match o.experts.find? fun x => x.expert = e && x.left = 0 && !x.pushed with
    | none => s
    | some x =>
      if o.verdict.isSome then s else
      let here := x.module = ownModule s
      if !here && pushLost s x.module then failDisp s k c .linkLost {} else
      match checkCredit s (notifyGrant s c x) c x.queue 1 with
      | .overflow v => failDisp s k c .mapOverflow v
      | .waits => s
      | .room =>
        let word := notifyWord s o.cmd.bytes x
        if here then
          let r := pushWord s k x.queue c word
          if r.1 = .ok then markPushed r.2 k c e 0 else failDisp r.2 k c r.1 {}
        else match choosePort s x.module with
          | none => failDisp s k c .linkLost {}
          | some (p, s) =>
            let s := modAccount s x.queue x.module c fun g => g.hold 1
            let r := startOp (chargeFerry s c 32) p x.module 1 (.notify k c x.queue)
            let s := queueFrame r.2 p x.module { op := 5, vc := 3, ctx := c, tag := r.1, addr := x.queue, offset := 0,
                                                 arg := 1, payload := word }
            markPushed s k c e 1

/-! ### COMBINE (spec/06 R141, R142) -/

/-- A COMBINE is well formed (spec/06 Table 6-7). -/
def combineOk (b : Bytes) : Bool :=
  zeroAt b 4 4 && zeroAt b 60 4 && rowConvOk (fld b 2 1) && rowConvOk (fld b 3 1) && fld b 8 8 % 64 = 0 &&
  fld b 16 8 % 64 = 0 && 1 ≤ fld b 52 4 && fld b 52 4 ≤ 65536 && 64 ≤ fld b 56 4 && fld b 56 4 ≤ 65536 &&
  fld b 56 4 % 64 = 0

/-- One row of a row buffer as FP32. -/
def rdRow (w : Who) (base f cols r : Nat) : Act (List (BitVec 32)) :=
  (List.range cols).mapM fun i => rdElem w (imageAt base (isz f) cols r i) f (r % 64) (i % 64)

/-- One token of a COMBINE. -/
def combineToken (w : Who) (b : Bytes) (l : Layer) (t : Nat) : Act Unit := do
  let cols := fld b 56 4
  let rec' ← rd w (fld b 16 8 + t * 128) 128
  let start ← if fld b 32 8 = 0 then pure (List.replicate cols (0 : BitVec 32)) else rdRow w (fld b 32 8) (fld b 3 1) cols t
  let out ← (List.range 16).foldlM (fun (out : List (BitVec 32)) r => do
    let e := fld rec' (8 * r) 2
    if e = 0xFFFF then return out else
    let region := fld b 24 8 + e * ceilDiv l.capacity 64 * (cols / 64) * isz (fld b 2 1)
    let res ← rdRow w region (fld b 2 1) cols (fld rec' (8 * r + 2) 2)
    let wt := BitVec.ofNat 32 (fld rec' (8 * r + 4) 4)
    return (out.zip res).map fun p => f32Add p.1 (f32Mul wt p.2)) start
  wrRow w (fld b 40 8) (isz (fld b 3 1)) (fld b 3 1) t out

/-- Everything a COMBINE does. -/
def combineWork (k c : Nat) (b : Bytes) : Act Unit := do
  let w := whoOf (routerEng k) c
  let l ← rdLayer w (fld b 8 8)
  stopIf (namesWheel [(fld b 40 8,
    ceilDiv (fld b 48 4 + fld b 52 4) 64 * (fld b 56 4 / 64) * isz (fld b 3 1))]) .internal
  (List.range (fld b 52 4)).forM fun i => combineToken w b l (fld b 48 4 + i)

/-- COMBINE at the head of its context's queue. -/
def combineHead (s : State) (k c : Nat) : State :=
  routerHead s k c 0x22 combineOk fun s q =>
    let r := runAct (combineWork k c q.bytes) s
    completeHead r.2 (routerEng k) c q r.1

/-! ### The rows -/

/-- ROUTE. -/
def execRoute (router ctx : Nat) (s : State) : Host.Outcome State Fault Refusal := .next (routeHead s router ctx)
/-- DISPATCH. -/
def execDispatch (router ctx : Nat) (s : State) : Host.Outcome State Fault Refusal := .next (dispatchHead s router ctx)
/-- DISPATCH_NOTIFY. -/
def execDispatchNotify (router ctx expert : Nat) (s : State) : Host.Outcome State Fault Refusal :=
  .next (dispatchNotify s router ctx expert)
/-- COMBINE. -/
def execCombine (router ctx : Nat) (s : State) : Host.Outcome State Fault Refusal := .next (combineHead s router ctx)

end Sys2Proof.Machine
end

