-- ==== Sys2Proof/Machine/Ssu.lean ====
section
/-! DEFINITION. The sort/select units (spec/10): the order of records, selection with ties and fill, and the five
commands. -/

namespace Sys2Proof.Machine

/-! ### Keys and the order (spec/10 R247, R248) -/

/-- Width in bytes of a key of a type. -/
def keyBytes (kt : Nat) : Nat := if kt < 3 then 4 else 8

/-- An integer key. -/
def intKey (kt k : Nat) : Int :=
  match kt with
  | 1 => sint 32 (k % 2 ^ 32)
  | 2 => (k % 2 ^ 32 : Nat)
  | 3 => sint 64 (k % 2 ^ 64)
  | _ => (k % 2 ^ 64 : Nat)

/-- An FP32 key's value. -/
def fpKey (k : Nat) : Val := f32Dec (BitVec.ofNat 32 k)

/-- Whether a key is a NaN. -/
def keyNan (kt k : Nat) : Bool := kt = 0 && (fpKey k).isNan

/-- Whether one key is below another, NaN below and above nothing. -/
def keyLt (kt a b : Nat) : Bool := if kt = 0 then (fpKey a).lt (fpKey b) else decide (intKey kt a < intKey kt b)

/-- equal_key. -/
def keyEq (kt a b : Nat) : Bool :=
  if keyNan kt a || keyNan kt b then keyNan kt a && keyNan kt b else !keyLt kt a b && !keyLt kt b a

/-- Whether key `a` orders before key `b`. -/
def keyBefore (kt : Nat) (largest : Bool) (a b : Nat) : Bool :=
  if keyNan kt a || keyNan kt b then keyNan kt b && !keyNan kt a
  else if largest then keyLt kt b a else keyLt kt a b

/-- before(a, b). -/
def recBefore (kt : Nat) (largest : Bool) (a b : SelRec) : Bool :=
  if !keyEq kt a.key b.key then keyBefore kt largest a.key b.key
  else if a.pos ≠ b.pos then a.pos < b.pos else a.src < b.src

/-- Records in order. -/
def sortRecs (kt : Nat) (largest : Bool) (l : List SelRec) : List SelRec :=
  sortBy (fun a b => !recBefore kt largest b a) l

/-- The payload that marks a record invalid (spec/10 R246). -/
def allOnes : Nat := 2 ^ 64 - 1

/-- Whether a record is valid. -/
def SelRec.valid (r : SelRec) : Bool := r.pay ≠ allOnes

/-- The worst key of a type and direction (spec/10 Table 10-2). -/
def worstKey (kt : Nat) (largest : Bool) : Nat :=
  match kt, largest with
  | 0, true => 0xFF800000 | 0, false => 0x7F800000
  | 1, true => 0x80000000 | 1, false => 0x7FFFFFFF
  | 2, true => 0 | 2, false => 0xFFFFFFFF
  | 3, true => 2 ^ 63 | 3, false => 2 ^ 63 - 1
  | _, true => 0 | _, false => allOnes

/-- The fill record (spec/10 R255). -/
def fillRec (kt : Nat) (largest : Bool) : SelRec := { key := worstKey kt largest, pay := allOnes, pos := allOnes }

/-- The 32 bytes of a record; a 32-bit key's upper half is zero (spec/10 Table 10-1). -/
def recBytes (kt : Nat) (r : SelRec) : Bytes :=
  toLe 8 (r.key % 256 ^ keyBytes kt) ++ toLe 8 r.pay ++ toLe 8 r.pos ++ toLe 8 r.aux

/-- One record per payload, the best, and the number removed (spec/10 R254). -/
def dedupRecs (kt : Nat) (largest : Bool) (l : List SelRec) : List SelRec × Nat :=
  let kept := l.filter fun r => !l.any fun x => x.pay = r.pay && recBefore kt largest x r
  (kept, l.length - kept.length)

/-- What a selection gives. -/
structure Selected where
  out : List SelRec := []
  count : Nat := 0
  ties : Nat := 0
  dups : Nat := 0
  status : Status := .ok
  deriving DecidableEq, Repr

/-- TOPK over valid records (spec/10 R253-R255). -/
def selectTop (kt : Nat) (largest dedup : Bool) (k : Nat) (l : List SelRec) : Selected :=
  let d := if dedup then dedupRecs kt largest l else (l, 0)
  let sorted := sortRecs kt largest d.1
  let n := sorted.length
  if n < k then
    { out := sorted ++ List.replicate (k - n) (fillRec kt largest), count := n, dups := d.2, status := .short }
  else
    let last := (sorted.getD (k - 1) {}).key
    let ties := ((sorted.drop k).filter fun r => keyEq kt r.key last).length
    { out := sorted.take k, count := k, ties := ties, dups := d.2, status := if ties = 0 then .ok else .tieAtK }

/-! ### Commands (spec/10 R250-R260) -/

/-- A unit as an engine. -/
def ssuEng (k : Nat) : Eng := ⟨.ssu, k⟩

/-- The opcodes of a unit. -/
def ssuOps : List Nat := [0xA0, 0xA1, 0xA2, 0xA3, 0xA4]

/-- Change a unit's counters. -/
def modSsu (s : State) (k : Nat) (f : SsuSt → SsuSt) : State := { s with ssus := tabMod {} s.ssus k f }

/-- KEYTYPE. -/
def ssuType (b : Bytes) : Nat := bits (fld b 2 1) 2 0
/-- LARGEST. -/
def ssuLargest (b : Bytes) : Bool := bit (fld b 2 1) 4
/-- DEDUP. -/
def ssuDedup (b : Bytes) : Bool := bit (fld b 2 1) 5
/-- GENPOS. -/
def ssuGenpos (b : Bytes) : Bool := bit (fld b 2 1) 6
/-- CONTINUE. -/
def ssuContinue (b : Bytes) : Bool := bit (fld b 2 1) 7
/-- PACKED. -/
def ssuPacked (b : Bytes) : Bool := bit (fld b 3 1) 0
/-- PRED. -/
def ssuPred (b : Bytes) : Nat := bits (fld b 3 1) 3 1
/-- K. -/
def ssuK (b : Bytes) : Nat := fld b 8 4
/-- COUNT. -/
def ssuCount (b : Bytes) : Nat := fld b 12 4

/-- Whether a command is TOPK or MERGE. -/
def ssuSelects (b : Bytes) : Bool := cmdOp b = 0xA0 || cmdOp b = 0xA2

/-- Bytes of working space (spec/10 Table 10-5). -/
def ssuScratch (b : Bytes) : Nat :=
  if ssuSelects b then 64 * ssuK b else if cmdOp b = 0xA4 then 0 else 32 * ssuCount b

/-- The regions a command names. -/
def ssuRegions (b : Bytes) : List (Nat × Nat) :=
  [(fld b 16 8, if cmdOp b = 0xA2 then 16 * fld b 4 2
      else ssuCount b * (if ssuPacked b then keyBytes (ssuType b) else 32)),
   (fld b 24 8, 32 * if ssuSelects b then ssuK b else ssuCount b), (fld b 32 8, 32),
   (fld b 56 8, ssuScratch b), (fld b 40 8, if cmdOp b = 0xA3 && fld b 40 8 ≠ 0 then 4 * ssuCount b else 0)]

/-- A command is well formed (spec/10 R250, Table 10-3). -/
def ssuOk (b : Bytes) : Bool :=
  let op := cmdOp b
  let merge := op = 0xA2
  let sel := ssuSelects b
  !bit (fld b 2 1) 3 && bits (fld b 3 1) 7 4 = 0 && zeroAt b 6 2 && zeroAt b 51 1 && ssuType b ≤ 4 &&
  !(ssuPacked b && merge) && (sel || (!ssuDedup b && !ssuContinue b)) &&
  (if op = 0xA4 then ssuPred b ≤ 5 else ssuPred b = 0) &&
  (if merge then 1 ≤ fld b 4 2 && fld b 4 2 ≤ 4096 && ssuCount b = 0 else fld b 4 2 = 1) &&
  (if sel then 1 ≤ ssuK b && ssuK b ≤ 65536 else ssuK b = 0) &&
  (if op = 0xA3 then fld b 40 8 % 64 = 0 else op = 0xA4 || fld b 40 8 = 0) &&
  fld b 16 8 % (if ssuPacked b || merge then 64 else 32) = 0 && fld b 24 8 % 32 = 0 && fld b 32 8 % 32 = 0 &&
  fld b 56 8 % 64 = 0 && (op ≠ 0xA4 || fld b 56 8 = 0) &&
  (!ssuGenpos b || fld b 48 3 + fld b 4 2 - 1 ≤ 2 ^ 24 - 1) && !namesWheel (ssuRegions b)

/-- A generated position (spec/10 R249). -/
def genPos (src elem : Nat) : Nat := src % 2 ^ 24 * 2 ^ 40 + elem % 2 ^ 40

/-- The record at index `i` of an array of records. -/
def recAt (m : Bytes) (i : Nat) : SelRec :=
  { key := fld m (32 * i) 8, pay := fld m (32 * i + 8) 8, pos := fld m (32 * i + 16) 8, aux := fld m (32 * i + 24) 8 }

/-- Records of one list, with generated positions where asked for. -/
def listRecs (b : Bytes) (j src0 : Nat) (m : Bytes) : List SelRec :=
  (List.range (m.length / 32)).map fun i =>
    let r := { recAt m i with src := src0 + i }
    if ssuGenpos b then { r with pos := genPos (fld b 48 3 + j) (fld b 52 4 + i) } else r

/-- The lists a command reads: addresses and counts. -/
def ssuLists (w : Who) (b : Bytes) : Act (List (Nat × Nat)) :=
  if cmdOp b = 0xA2 then
    (List.range (fld b 4 2)).mapM fun j => do
      let e ← rd w (fld b 16 8 + 16 * j) 16
      stopIf (!zeroAt e 12 4 || fld e 0 8 % 32 ≠ 0 || namesWheel [(fld e 0 8, 32 * fld e 8 4)]) .internal
      return (fld e 0 8, fld e 8 4)
  else pure [(fld b 16 8, ssuCount b)]

/-- The input records, in input order (spec/10 R249, R251). -/
def ssuInputs (w : Who) (b : Bytes) (lists : List (Nat × Nat)) (src0 : Nat) : Act (List SelRec) :=
  if ssuPacked b then do
    let n := keyBytes (ssuType b)
    let m ← rd w (fld b 16 8) (n * ssuCount b)
    return (List.range (ssuCount b)).map fun i =>
      { key := fld m (n * i) n, pay := fld b 52 4 + i, pos := genPos (fld b 48 3) (fld b 52 4 + i), src := src0 + i }
  else
    lists.zipIdx.foldlM (fun (acc : List SelRec) l => do
      let m ← rd w l.1.1 (32 * l.1.2)
      return acc ++ listRecs b l.2 (src0 + acc.length) m) []

/-- PRED of FILTER_COMPACT (spec/10 R253). -/
def predPasses (kt thresh pred k : Nat) : Bool :=
  if pred = 5 then !keyNan kt k
  else if pred = 4 then keyEq kt k thresh
  else if keyNan kt k || keyNan kt thresh then false
  else match pred with
    | 0 => !keyLt kt k thresh
    | 1 => keyLt kt thresh k
    | 2 => !keyLt kt thresh k
    | _ => keyLt kt k thresh

/-- The groups of UNIQUE_COUNT in key order (spec/10 R253). -/
def uniqueRecs (kt : Nat) (largest : Bool) (l : List SelRec) : List SelRec :=
  let firsts := l.filter fun r => !l.any fun x => x.src < r.src && keyEq kt x.key r.key
  let groups := firsts.map fun r =>
    let same := l.filter fun x => keyEq kt x.key r.key
    { r with pay := same.length, pos := same.foldl (fun m x => min m x.pos) r.pos, aux := r.src }
  sortBy (fun a b => !keyBefore kt largest b.key a.key) groups

/-- The inverse map of UNIQUE_COUNT. -/
def inverseMap (kt : Nat) (groups input : List SelRec) : Bytes :=
  (input.map fun r => toLe 4 (if r.valid then groups.findIdx fun g => keyEq kt g.key r.key else 0xFFFFFFFF)).flatten

/-- The 32 bytes of a summary (spec/10 Table 10-5). -/
def ssuSummary (s : State) (st : Status) (r : Selected) (invalid : Nat) : Bytes :=
  toLe 4 st.code ++ toLe 4 r.count ++ toLe 4 r.ties ++ toLe 4 r.dups ++ toLe 4 invalid ++ toLe 4 0 ++
  toLe 8 s.hub.time.toNat

/-- Write a summary. -/
def wrSummary (w : Who) (b : Bytes) (st : Status) (r : Selected) (invalid : Nat) : Act Status := do
  let s ← get
  wr w (fld b 32 8) (ssuSummary s st r invalid)
  return st

/-- The work of a command up to its outputs: the output records, the inverse map, the summary's numbers, the invalid
records; none where the row is too long (spec/10 R252). -/
def ssuCompute (w : Who) (k : Nat) (b : Bytes) : Act (Option (Selected × Bytes × Nat)) := do
  let kt := ssuType b
  let largest := ssuLargest b
  let lists ← ssuLists w b
  let cont := ssuContinue b
  let n := (lists.map (·.2)).sum
  if ssuCount b > 16777216 || fld b 52 4 + ssuCount b > 16777216 || n > 16777216 then return none
  let prior ← if cont then rd w (fld b 24 8) (32 * ssuK b) else pure []
  let prev ← if cont then rd w (fld b 32 8) 32 else pure []
  let taken := ((List.range (prior.length / 32)).map fun i => { recAt prior i with src := i }).filter SelRec.valid
  if n + taken.length > 16777216 then return none
  let s ← get
  stopIf (!mayAccess s w (fld b 56 8) (ssuScratch b) true || !mayAccess s w (fld b 56 8) (ssuScratch b) false) .internal
  let input ← ssuInputs w b lists (prior.length / 32)
  actMod fun s => modSsu s k fun x => { x with elements := x.elements + w64 input.length }
  let valid := input.filter SelRec.valid
  let invalid := input.length - valid.length
  match cmdOp b with
  | 0xA0 | 0xA2 =>
    let r := selectTop kt largest (ssuDedup b) (ssuK b) (taken ++ valid)
    let again := cont && fld prev 0 2 = Status.tieAtK.code && r.count = ssuK b &&
      keyEq kt (recAt prior (ssuK b - 1)).key (r.out.getD (ssuK b - 1) {}).key
    let r := if again then { r with ties := r.ties + fld prev 8 4, status := .tieAtK } else r
    return some (r, [], invalid)
  | 0xA1 => return some ({ out := sortRecs kt largest valid, count := valid.length }, [], invalid)
  | 0xA3 =>
    let g := uniqueRecs kt largest valid
    return some ({ out := g, count := g.length }, if fld b 40 8 = 0 then [] else inverseMap kt g input, invalid)
  | _ =>
    let kept := valid.filter fun r => predPasses kt (fld b 40 8) (ssuPred b) r.key
    return some ({ out := kept, count := kept.length }, [], invalid)

/-- The outputs of a command: working space, inverse map, records, then the summary (spec/10 R257, R258, R260). -/
def ssuCommit (w : Who) (b : Bytes) (r : Selected) (inv : Bytes) (invalid : Nat) : Act Status := do
  wrFree w (fld b 56 8) (ssuScratch b)
  wr w (fld b 40 8) inv
  wr w (fld b 24 8) (r.out.map (recBytes (ssuType b))).flatten
  wrSummary w b r.status r invalid

/-- A whole command: its status, after its summary (spec/10 R252, R257, R260). -/
def ssuWork (k c : Nat) (b : Bytes) : Act Status := do
  let w := whoOf (ssuEng k) c
  let s ← get
  let bad : Act Status := wrSummary w b .eccUncorrectable {} 0
  match runActVal (ssuCompute w k b) s with
  | (.error .eccUncorrectable, s) => set s; bad
  | (.error st, s) => set s; throw st
  | (.ok none, s) => set s; wrSummary w b .lengthExceeded {} 0
  | (.ok (some (r, inv, invalid)), s) =>
    match runActSt (ssuCommit w b r inv invalid) s with
    | (.eccUncorrectable, s) => set s; bad
    | (st, s) => set s; return st

/-- The number of bits a number takes. -/
def bitsOf (n : Nat) : Nat := (List.range 65).find? (fun b => n < 2 ^ b) |>.getD 65

/-- The beats that bound a command over `n` elements, with every record passing the screen (spec/10 Table 10-6). -/
def ssuBeats (b : Bytes) (n : Nat) : Nat :=
  let bytes := n * if ssuPacked b then keyBytes (ssuType b) else 32
  let sort := 24 + ceilDiv bytes 128 + ceilDiv n 16 * max 1 (bitsOf (n - 1))
  match cmdOp b with
  | 0xA0 | 0xA2 => 24 + max (ceilDiv bytes 128) (ceilDiv n 32) + ceilDiv (n * bitsOf (2 * ssuK b - 1)) 16
  | 0xA1 => sort
  | 0xA3 => sort + ceilDiv n 16
  | _ => 24 + max (ceilDiv bytes 128) (ceilDiv n 32)

/-- The units a command runs in, each of at most 1,024 beats (spec/10 R259): as many as its bound needs, and one where its
row is too long (log 47). -/
def ssuUnits (s : State) (k c : Nat) (b : Bytes) : Nat :=
  let n := match (runActVal (ssuLists (whoOf (ssuEng k) c) b) s).1 with
    | .ok l => (l.map (·.2)).sum
    | .error _ => 0
  if n ≤ 16777216 then ceilDiv (ssuBeats b n) 1024 else 1

/-- A command that had started and stops at the end of a unit writes its summary (spec/10 R260). -/
def ssuSummarize (s : State) (k c : Nat) (q : QCmd) (st : Status) : State :=
  if q.units = 0 then s else (runActSt (wrSummary (whoOf (ssuEng k) c) q.bytes st {} 0) s).2

/-- A command that a disable has stopped. -/
def ssuStop (s : State) (k c : Nat) (q : QCmd) (st : Status) : State :=
  completeHead (ssuSummarize s k c q st) (ssuEng k) c q st

/-- The contexts with a command ready on a unit. -/
def ssuReady (s : State) (k : Nat) : List Nat :=
  (engContexts s (ssuEng k)).filter fun c => (headCmd s (ssuEng k) c).isSome

/-- A unit of the command at the head of its context's queue: the last one does what the command does. -/
def ssuTurn (s : State) (k c op : Nat) : State :=
  let e := ssuEng k
  headRow s e c ssuOps op fun q =>
    match takeTurn s e 0 c (ssuReady s k) with
    | none => s
    | some s =>
      if !ssuOk q.bytes then completeHead s e c q .internal else
      if q.units + 1 < ssuUnits s k c q.bytes then countUnit s e c else
      let r := runActSt (ssuWork k c q.bytes) s
      let t := modSsu r.2 k fun x => { x with
        short := x.short + w64 (b2n (r.1 = .short)), ties := x.ties + w64 (b2n (r.1 = .tieAtK)) }
      completeHead t e c q r.1

/-- A row about the command at the head of a context's queue on a unit; every completion is counted (spec/10 Table 10-8). -/
def ssuHead (s : State) (k c op : Nat) : State :=
  let e := ssuEng k
  let t := match headCmd s e c with
    | none => s
    | some q => match q.verdict with
      | some v => ssuStop s k c q v
      | none => ssuTurn s k c op
  if (getQ t e c).queue.length < (getQ s e c).queue.length then modSsu t k fun x => { x with commands := x.commands + 1 }
  else t

/-! ### The rows -/

/-- TOPK. -/
def execTopk (unit ctx : Nat) (s : State) : Host.Outcome State Fault Refusal := .next (ssuHead s unit ctx 0xA0)
/-- SORT. -/
def execSort (unit ctx : Nat) (s : State) : Host.Outcome State Fault Refusal := .next (ssuHead s unit ctx 0xA1)
/-- MERGE. -/
def execMerge (unit ctx : Nat) (s : State) : Host.Outcome State Fault Refusal := .next (ssuHead s unit ctx 0xA2)
/-- UNIQUE_COUNT. -/
def execUniqueCount (unit ctx : Nat) (s : State) : Host.Outcome State Fault Refusal := .next (ssuHead s unit ctx 0xA3)
/-- FILTER_COMPACT. -/
def execFilterCompact (unit ctx : Nat) (s : State) : Host.Outcome State Fault Refusal := .next (ssuHead s unit ctx 0xA4)

end Sys2Proof.Machine
end

