-- ==== Sys2Proof/Machine/Gather.lean ====
section
/-! DEFINITION. The gather engines (spec/11): tables, row requests and updates, prefetch, migration, load epochs. -/

namespace Sys2Proof.Machine

/-- A gather engine as an engine. -/
def gatherEng (e : Nat) : Eng := ⟨.gather, e⟩

/-- The opcodes of a gather engine. -/
def gatherOps : List Nat := [0xC0, 0xC1, 0xC2, 0xC3, 0xC4, 0xC5]

/-- A gather engine's state. -/
def getGe (s : State) (e : Nat) : GthEng := tabGet {} s.gth.engs e

/-- Change the gather block. -/
def modGth (s : State) (f : GthSt → GthSt) : State := { s with gth := f s.gth }

/-- Change a gather engine. -/
def modGe (s : State) (e : Nat) (f : GthEng → GthEng) : State :=
  modGth s fun x => { x with engs := tabMod {} x.engs e f }

/-- A registered table. -/
def getTable (s : State) (t : Nat) : Option GthTable := tabFind s.gth.tables t

/-- A gather engine working for a context. -/
def whoGather (e c : Nat) : Who := whoOf (gatherEng e) c

/-! ### Descriptors and slots (spec/11 R262-R265) -/

/-- A descriptor's 128 bytes. -/
def tableOf (addr : Nat) (d : Bytes) : TableDesc :=
  { addr := addr, rfmt := fld d 1 1, opt := bits (fld d 2 1) 1 0, hot := bit (fld d 2 1) 2, migrate := bit (fld d 2 1) 3,
    thresh := fld d 3 1, dim := fld d 4 2, moveMax := fld d 6 2, rows := fld d 8 8, shards := fld d 16 2,
    shard := fld d 18 2, stride := fld d 20 4, base := fld d 24 8, map := fld d 32 8, redirect := fld d 40 8,
    redirSlots := fld d 48 4, spareSlots := fld d 52 4, spare := fld d 56 8 }

/-- RB: the bytes of a row. -/
def TableDesc.rb (x : TableDesc) : Nat :=
  up64 (x.dim * elemBits (fmtElem x.rfmt) / 8 + if isMx (fmtElem x.rfmt) then x.dim / 32 else 0)

/-- The least STRIDE (spec/11 Table 11-2). -/
def TableDesc.least (x : TableDesc) : Nat :=
  if x.opt = 0 then (if x.hot then x.rb + 64 else x.rb)
  else if x.opt = 3 then x.rb + 64 + 8 * x.dim else x.rb + 64

/-- A descriptor is within Table 11-1 and R264. -/
def tableOk (d : Bytes) : Bool :=
  let x := tableOf 0 d
  fld d 0 1 = 1 && (if x.opt = 0 then [0, 1, 2, 3, 8, 9].contains x.rfmt else x.rfmt ≤ 1) && bits (fld d 2 1) 7 4 = 0 &&
  (!x.migrate || x.hot) && 1 ≤ x.thresh && x.dim % 64 = 0 && 64 ≤ x.dim && x.moveMax ≤ 4096 && 1 ≤ x.rows &&
  x.rows ≤ 2 ^ 63 && 1 ≤ x.shards && x.shards ≤ 4096 && x.shard < x.shards && x.stride % 64 = 0 && x.rb ≤ 16384 &&
  x.least ≤ x.stride && x.base % 64 = 0 && x.redirect % 64 = 0 &&
  ((List.range 15).map fun i => 2 ^ (i + 6)).contains x.redirSlots && x.spareSlots ≤ 16777216 && x.spare % 64 = 0 &&
  zeroAt d 76 52

/-- The slot of an index in its shard, and its owner engine (spec/11 R263). -/
def TableDesc.slot (x : TableDesc) (i : Nat) : Nat := i / x.shards
/-- The owner engine of an index at home. -/
def TableDesc.owner (x : TableDesc) (i : Nat) : Nat := x.slot i % 16

/-- Take a spare slot of this shard; none where none is free (spec/11 R262, R263). -/
def takeSpare (w : Who) (x : TableDesc) : Act (Option Nat) := do
  let n ← rdNat w (x.addr + 64) 4
  if n = 0xFFFFFFFF then return none
  let next ← rdNat w (x.spare + n * x.stride) 4
  wrNat w (x.addr + 64) 4 next
  wrNat w (x.addr + 68) 4 ((← rdNat w (x.addr + 68) 4) - 1)
  return some n

/-- Return a spare slot to this shard. -/
def giveSpare (w : Who) (x : TableDesc) (n : Nat) : Act Unit := do
  wrNat w (x.spare + n * x.stride) 4 (← rdNat w (x.addr + 64) 4)
  wrNat w (x.addr + 64) 4 n
  wrNat w (x.addr + 68) 4 ((← rdNat w (x.addr + 68) 4) + 1)

/-- Return a spare slot to the module that has it. -/
def freeSpareAt (w : Who) (x : TableDesc) (t m n : Nat) : Act Unit := do
  let s ← get
  if m = ownModule s then giveSpare w x n else set (purserSend s m (.spareFree t n))

/-! ### The redirect table (spec/11 R277) -/

/-- A redirect entry. -/
structure Redirect where
  at_ : Nat := 0
  state : Nat := 0
  target : Nat := 0
  slot : Nat := 0
  raw : Bytes := []
  deriving DecidableEq, Repr

/-- Probe for an index: its entry, or else the place where it would be inserted. -/
def probeRedirect (w : Who) (x : TableDesc) (i : Nat) : Nat → Nat → Option Nat → Act (Option Redirect × Option Nat)
  | 0, _, free => pure (none, free)
  | f + 1, p, free => do
    let a := x.redirect + 16 * (p % x.redirSlots)
    let e ← rd w a 16
    let st := bits (fld e 8 2) 15 12
    if st = 0 then return (none, some (free.getD a))
    if st ≠ 4 && fld e 0 8 = i then
      return (some { at_ := a, state := st, target := fld e 8 2 % 4096, slot := fld e 12 4, raw := e }, none)
    probeRedirect w x i f (p + 1) (if st = 4 then some (free.getD a) else free)

/-- The redirect entry of an index. -/
def findRedirect (w : Who) (x : TableDesc) (i : Nat) : Act (Option Redirect × Option Nat) :=
  probeRedirect w x i x.redirSlots (x.slot i % x.redirSlots) none

/-- Write a redirect entry with one write. -/
def wrRedirect (w : Who) (a i st target slot : Nat) : Act Unit :=
  wr w a (toLe 8 i ++ toLe 2 (st * 4096 + target) ++ toLe 2 0 ++ toLe 4 slot)

/-- Change REDIRECTED. -/
def countMoved (w : Who) (x : TableDesc) (up : Bool) : Act Unit := do
  let n ← rdNat w (x.addr + 72) 4
  wrNat w (x.addr + 72) 4 (if up then n + 1 else n - 1)

/-- Recover migrations in progress (spec/11 R279). -/
def recoverMoves (w : Who) (x : TableDesc) (t : Nat) : Act Unit :=
  (List.range x.redirSlots).forM fun p => do
    let a := x.redirect + 16 * p
    let e ← rd w a 16
    let st := bits (fld e 8 2) 15 12
    if st = 2 then
      wrRedirect w a (fld e 0 8) 0 0 0
      freeSpareAt w x t (fld e 8 2 % 4096) (fld e 12 4)
    else if st = 3 then
      wrRedirect w a (fld e 0 8) 1 (fld e 8 2 % 4096) (fld e 12 4)
      countMoved w x true

/-! ### Commands (spec/11 R266-R268, Table 11-4) -/

/-- EXPAND. -/
def gExpand (b : Bytes) : Bool := cmdOp b ≠ 0xC5 && bit (fld b 3 1) 0
/-- The table a command names. -/
def gTable (b : Bytes) : Nat := fld b 2 1

/-- The fields of a gather engine command are in range. -/
def gatherOk (b : Bytes) : Bool :=
  let op := cmdOp b
  let moves := op = 0xC0 || op = 0xC1
  let uses := moves || op = 0xC2
  gTable b < 64 && zeroAt b 5 3 &&
  fld b 3 1 ≤ (if op = 0xC0 then 3 else if op = 0xC1 || op = 0xC5 then 1 else 0) &&
  (if op = 0xC0 then rowConvOk (fld b 4 1) else if op = 0xC1 then fld b 4 1 ≤ 1 else fld b 4 1 = 0) &&
  (if uses then fld b 8 8 % 32 = 0 && 1 ≤ fld b 16 4 && fld b 16 4 ≤ 65536
   else fld b 16 4 = 0 && (if op = 0xC3 then fld b 8 8 % 64 = 0 else op = 0xC5 || fld b 8 8 = 0)) &&
  (if gExpand b then 1 ≤ fld b 20 4 && fld b 20 4 ≤ 16777216 else fld b 20 4 = 0 && fld b 24 8 = 0) &&
  (moves || fld b 32 8 = 0) && (if op = 0xC1 then fld b 40 8 % 32 = 0 else fld b 40 8 = 0) &&
  (if op = 0xC1 then 1 ≤ fld b 48 8 && fld b 48 8 < 2 ^ 48
   else if op = 0xC5 then fld b 48 8 < 4096 else fld b 48 8 = 0) &&
  (if op = 0xC1 && gExpand b then fld b 56 8 % 64 = 0 else fld b 56 8 = 0)

/-- The indices of UNIQ, checked (spec/11 R268): the number and index of each entry that is no padding. -/
def uniqIndices (w : Who) (b : Bytes) (rows : Nat) : Act (List (Nat × Nat)) := do
  let m ← rd w (fld b 8 8) (32 * fld b 16 4)
  let keys := (List.range (fld b 16 4)).map fun u => fld m (32 * u) 8
  let real := keys.takeWhile fun k => k ≠ allOnes
  stopIf ((keys.drop real.length).any fun k => k ≠ allOnes) .internal
  stopIf ((real.any fun k => k ≥ rows) || (real.zip real.tail).any fun p => p.2 ≤ p.1) .internal
  return real.zipIdx.map fun p => (p.2, p.1)

/-- The inverse map, checked. -/
def inverseOf (w : Who) (b : Bytes) : Act (List Nat) := do
  if !gExpand b then return []
  let m ← rd w (fld b 24 8) (4 * fld b 20 4)
  let inv := (List.range (fld b 20 4)).map fun j => fld m (4 * j) 4
  stopIf (inv.any fun v => v ≥ fld b 16 4 && v ≠ 0xFFFFFFFF) .internal
  return inv

/-! ### Rows in row buffers -/

/-- A row's bytes as FP32 values (spec/11 R264, R269). -/
def rowVals (rfmt dim : Nat) (row : Bytes) : List (BitVec 32) :=
  let e := fmtElem rfmt
  let bw := elemBits e
  let n := leNat row
  (List.range dim).map fun i =>
    let v := elemVal e (packGet n bw i)
    f32Enc (if isMx e then v.mul (scaleVal (fld row (dim * bw / 8 + i / 32) 1)) else v)

/-- Write a row of a table to row `r` of a row buffer, bits unchanged where the formats agree (spec/11 R269). -/
def wrTableRow (w : Who) (base xfmt r : Nat) (x : TableDesc) (row : Bytes) : Act Unit :=
  if xfmt = x.rfmt then
    let bw := elemBits (fmtElem xfmt)
    (List.range (x.dim / 64)).forM fun t => do
      let img := imageAt base (isz xfmt) x.dim r (64 * t)
      wr w (img + r % 64 * 8 * bw) ((row.drop (t * 8 * bw)).take (8 * bw))
      if isMx (fmtElem xfmt) then
        wr w (img + actElems xfmt + 2 * (r % 64)) ((row.drop (x.dim * bw / 8 + 2 * t)).take 2)
  else wrRow w base (isz xfmt) xfmt r (rowVals x.rfmt x.dim row)

/-- A row of +0. -/
def wrZeroRow (w : Who) (base xfmt r dim : Nat) : Act Unit :=
  wrRow w base (isz xfmt) xfmt r (List.replicate dim 0)

/-! ### Sending requests (spec/11 R263, R269, R271, R281) -/

/-- The home module of an index. -/
def homeModule (w : Who) (x : TableDesc) (i : Nat) : Act Nat := do
  return (← rdNat w (x.map + 2 * (i % x.shards)) 2) % 4096

/-- A request reaches an owner engine of this module. -/
def addReq (s : State) (r : RowReq) : State :=
  modGth s fun x => { x with reqs := tabPut x.reqs x.nextReq r, nextReq := x.nextReq + 1 }

/-- ROW frames toward a module (spec/16 Table 16-7). -/
def queueRow (s : State) (p m ctx : Nat) (tag : BitVec 32) (index requester arg : Nat) (b : Bytes) : State :=
  let fs := if b = [] then [(0, [])] else payloads (b.length / 8192 + 1) 0 b
  fs.zipIdx.foldl (fun s ob =>
    queueFrame s p m { op := 0x0B, vc := if bits arg 9 8 % 2 = 1 then 2 else 6, ctx := ctx, tag := tag, addr := index,
                       offset := requester, arg := arg, payload := ob.1.2, last := ob.2 + 1 = fs.length }) s

/-- The payload of an update. -/
def updateBytes (u : RowUpdate) : Bytes := (u.grad.map fun g => toLe 4 g.toNat).flatten ++ u.opt ++ toLe 8 u.step

/-- Send the request of one entry to the home of its index. -/
def sendEntry (e c : Nat) (op : GthOp) (x : TableDesc) (ui : Nat × Nat) : Act Unit := do
  let m ← homeModule (whoGather e c) x ui.2
  let s ← get
  let upd : Option RowUpdate := if op.kind = .apply then
      some { grad := tabGet [] op.grads ui.1, opt := op.opt, step := fld op.cmd.bytes 48 8 } else none
  if m = ownModule s then
    set (addReq s { engine := x.owner ui.2, table := op.table, index := ui.2, ctx := c,
                    source := .engine e c ui.1, update := upd })
  else match choosePort s m with
    | none => throw .linkLost
    | some (p, s) =>
      let r := startOp s p m 0 (.row e c ui.1)
      let body := match upd with | some u => updateBytes u | none => []
      set (queueRow (chargeFerry r.2 c body.length) p m c r.1 ui.2 (ownModule s)
        (op.table + if upd.isSome then 512 else 0) body)

/-- Change a command in progress. -/
def modOp (s : State) (e c : Nat) (f : GthOp → GthOp) : State :=
  modGe s e fun x => { x with ops := match tabFind x.ops c with | some o => tabPut x.ops c (f o) | none => x.ops }

/-- Requests an engine has outstanding. -/
def outstandingOn (s : State) (e : Nat) : Nat := ((getGe s e).ops.map fun p => p.2.out).sum

/-- Whether a context's command has a request to send, and its engine a place for it (spec/11 R281). -/
def canSend (s : State) (e c : Nat) : Bool :=
  decide (outstandingOn s e < 64) && match tabFind (getGe s e).ops c with
    | some o => o.todo ≠ [] && (getTable s o.table).isSome
    | none => false

/-- A MIGRATE is waiting for another one of its row to end (log 26). -/
def moveWaits (s : State) (e : Nat) (q : QCmd) : Bool :=
  cmdOp q.bytes = 0xC5 && !bit (fld q.bytes 3 1) 0 && (getGe s e).ops.any fun p =>
    (p.2.kind = .moveOut || p.2.kind = .moveBack) && p.2.table = gTable q.bytes && fld p.2.cmd.bytes 8 8 = fld q.bytes 8 8

/-- Whether a context's command can start: ATTACH and DETACH do not wait for the one in progress. -/
def canStart (s : State) (e c : Nat) : Bool :=
  match headCmd s (gatherEng e) c with
  | none => false
  | some q => q.verdict.isNone && gatherOps.contains (cmdOp q.bytes) && !moveWaits s e q &&
      ([0xC3, 0xC4].contains (cmdOp q.bytes) || (tabFind (getGe s e).ops c).isNone)

/-- Whether no earlier request for the same row waits at the engine (spec/11 R270, R272). -/
def rowFirst (s : State) (rid : Nat) (r : RowReq) : Bool :=
  !s.gth.reqs.any fun p => p.1 < rid && p.2.engine = r.engine && p.2.table = r.table && p.2.index = r.index

/-- Whether an engine can serve a request for a context. -/
def canServe (s : State) (e c : Nat) : Bool :=
  s.gth.reqs.any fun p => p.2.engine = e && p.2.ctx = c && !p.2.held && rowFirst s p.1 p.2

/-- The contexts with a unit ready on an engine: a command to start, a request to send, or one to serve (spec/11 R281). -/
def gatherReady (s : State) (e : Nat) : List Nat :=
  (engContexts s (gatherEng e) ++ (getGe s e).ops.map (·.1) ++ s.gth.reqs.map (·.2.ctx)).filter fun c =>
    canStart s e c || canSend s e c || canServe s e c

/-- Send the next request of a context's command; one that cannot be sent has failed. -/
def sendNext (s : State) (e c : Nat) : State :=
  match tabFind (getGe s e).ops c with
  | none => s
  | some op =>
    match op.todo, getTable s op.table with
    | ui :: rest, some t =>
      let s := modOp s e c fun o => { o with todo := rest, out := o.out + 1 }
      match runAct (sendEntry e c op t.desc ui) s with
      | (.ok, s) => s
      | (st, s) => modOp s e c fun o => { o with out := o.out - 1, verdict := some (o.verdict.getD st) }
    | _, _ => s

/-- While the next turn is of a context with a request to send, it is sent: one request is a unit (spec/11 R281, log 47). -/
def pump (e : Nat) : Nat → State → State
  | 0, s => s
  | f + 1, s =>
    let pos := tabGet {} (getEng s (gatherEng e)).rr 0
    match nextTurn s pos (gatherReady s e) with
    | some (d, c) =>
      if canSend s e c then
        pump e f (sendNext (modEng s (gatherEng e) fun x => { x with rr := tabPut x.rr 0 (afterTurn pos d) }) e c)
      else s
    | none => s

/-- A command ends when nothing of it is left. -/
def settleGather (s : State) (e c : Nat) : State :=
  match tabFind (getGe s e).ops c with
  | none => s
  | some op =>
    if op.todo = [] && op.out = 0 then
      completeCmd (modGe s e fun x => { x with ops := tabDel x.ops c }) (gatherEng e) c op.cmd (op.verdict.getD .ok)
    else s

/-- An engine sends what it can, and what is finished completes. -/
def pumpAll (s : State) (e : Nat) : State :=
  let s := pump e (((getGe s e).ops.map fun p => p.2.todo.length).sum + 1) s
  ((getGe s e).ops.map (·.1)).foldl (fun s c => settleGather s e c) s

/-- Write the rows of BUF that entry `u` gives (spec/11 R269). -/
def gatherRows (e c : Nat) (op : GthOp) (x : TableDesc) (u : Nat) (row : Bytes) : Act Unit :=
  let b := op.cmd.bytes
  let put := fun r => wrTableRow (whoGather e c) (fld b 32 8) (fld b 4 1) r x row
  if gExpand b then (op.inv.zipIdx.filter fun p => p.1 = u).forM fun p => put p.2 else put u

/-- The answer to entry `u` of a command has come (spec/11 R269, R271, R274, R282). -/
def rowDone (s : State) (e c u index : Nat) (st : Status) (row : Bytes) : State :=
  match tabFind (getGe s e).ops c with
  | none => s
  | some op =>
    let s := modOp s e c fun o => { o with out := o.out - 1 }
    let s :=
      if st ≠ .ok then modOp s e c fun o => { o with verdict := some (o.verdict.getD st) }
      else match op.kind, getTable s op.table with
        | .gather, some t =>
          let r := runAct (gatherRows e c op t.desc u row) s
          if r.1 = .ok then r.2 else modOp r.2 e c fun o => { o with verdict := some (o.verdict.getD r.1) }
        | .prefetch, some t =>
          if t.attached then
            modGe s e fun x => { x with pf := x.pf ++ [{ ctx := c, table := op.table, index := index, bytes := row }] }
          else s
        | _, _ => s
    pumpAll s e

/-! ### GATHER, APPLY, PREFETCH -/

/-- A row about the head of a context's queue on a gather engine, with the table it names. -/
def gatherHead (s : State) (e c op : Nat) (f : State → QCmd → GthTable → State) : State :=
  if (tabFind (getGe s e).ops c).isSome then s else
  headRow s (gatherEng e) c gatherOps op fun q =>
    if !canStart s e c then s else
    match takeTurn s (gatherEng e) 0 c (gatherReady s e) with
    | none => s
    | some s =>
      if !gatherOk q.bytes then completeHead s (gatherEng e) c q .internal else
      match getTable s (gTable q.bytes) with
      | none => completeHead s (gatherEng e) c q .internal
      | some t => if t.attached then f s q t else completeHead s (gatherEng e) c q .disabled

/-- Start a command that sends requests: what it reads and writes before the first, or how it ends. -/
def startGather (s : State) (e c : Nat) (q : QCmd) (work : Act GthOp) : State :=
  match runActVal work s with
  | (.error st, s) => completeHead s (gatherEng e) c q st
  | (.ok op, s) =>
    let s := popQ s (gatherEng e) c
    pumpAll (modGe s e fun x => { x with ops := tabPut x.ops c op }) e

/-- Take prefetched rows for the entries of a GATHER: those it found are written, the rest are left. -/
def usePrefetch (e c : Nat) (op : GthOp) (x : TableDesc) (todo : List (Nat × Nat)) : Act (List (Nat × Nat)) :=
  todo.foldlM (fun (left : List (Nat × Nat)) ui => do
    let s ← get
    let mine := fun (r : PfRow) => r.ctx = c && r.table = op.table && r.index = ui.2
    match (getGe s e).pf.find? mine with
    | none => return left ++ [ui]
    | some r =>
      set (modGe s e fun y => { y with pf := y.pf.filter fun r => !mine r })
      gatherRows e c op x ui.1 r.bytes
      return left) []

/-- GATHER. -/
def gatherCmd (s : State) (e c : Nat) : State :=
  gatherHead s e c 0xC0 fun s q t => startGather s e c q do
    let b := q.bytes
    let w := whoGather e c
    let rows := if gExpand b then fld b 20 4 else fld b 16 4
    stopIf (namesWheel [(fld b 8 8, 32 * fld b 16 4), (fld b 24 8, 4 * fld b 20 4),
      (fld b 32 8, ceilDiv rows 64 * (t.desc.dim / 64) * isz (fld b 4 1))]) .internal
    let todo ← uniqIndices w b t.desc.rows
    let inv ← inverseOf w b
    let op : GthOp := { kind := .gather, cmd := q, table := gTable b, inv := inv }
    let blank := fun u => todo.all fun p => p.1 ≠ u
    (List.range rows).forM fun j => do
      if blank (if gExpand b then inv.getD j 0 else j) then wrZeroRow w (fld b 32 8) (fld b 4 1) j t.desc.dim
    let todo ← if bit (fld b 3 1) 1 then usePrefetch e c op t.desc todo else pure todo
    return { op with todo := todo }

/-- The gradient of every entry (spec/11 R271). -/
def gradients (w : Who) (b : Bytes) (dim : Nat) (inv : List Nat) : Act (Tab (List (BitVec 32))) := do
  let f := fld b 4 1
  if gExpand b then
    let zero : Tab (List (BitVec 32)) := (List.range (fld b 16 4)).map fun u => (u, List.replicate dim 0)
    let sums ← inv.zipIdx.foldlM (fun (t : Tab (List (BitVec 32))) v => do
      if v.1 = 0xFFFFFFFF then return t
      let row ← rdRow w (fld b 32 8) f dim v.2
      return tabMod [] t v.1 fun old => (old.zip row).map fun p => f32Add p.1 p.2) zero
    wr w (fld b 56 8) ((sums.map fun u => (u.2.map fun g => toLe 4 g.toNat).flatten).flatten)
    return sums
  else (List.range (fld b 16 4)).mapM fun u => do return (u, ← rdRow w (fld b 32 8) f dim u)

/-- APPLY. -/
def applyCmd (s : State) (e c : Nat) : State :=
  gatherHead s e c 0xC1 fun s q t => startGather s e c q do
    let b := q.bytes
    let w := whoGather e c
    let rows := if gExpand b then fld b 20 4 else fld b 16 4
    stopIf (t.desc.opt = 0 || namesWheel [(fld b 8 8, 32 * fld b 16 4), (fld b 24 8, 4 * fld b 20 4),
      (fld b 32 8, ceilDiv rows 64 * (t.desc.dim / 64) * isz (fld b 4 1)), (fld b 40 8, 32),
      (fld b 56 8, if gExpand b then fld b 16 4 * t.desc.dim * 4 else 0)]) .internal
    let opt ← rd w (fld b 40 8) 32
    stopIf (!zeroAt opt 16 16) .internal
    let todo ← uniqIndices w b t.desc.rows
    let inv ← inverseOf w b
    let grads ← gradients w b t.desc.dim inv
    return { kind := .apply, cmd := q, table := gTable b, todo := todo, inv := inv, grads := grads, opt := opt }

/-- Bytes of the prefetch buffer in use. -/
def pfUsed (s : State) (e : Nat) : Nat := ((getGe s e).pf.map fun r => r.bytes.length).sum

/-- PREFETCH: every row that fits is requested; the others are counted (spec/11 R274). -/
def prefetchCmd (s : State) (e c : Nat) : State :=
  gatherHead s e c 0xC2 fun s q t => startGather s e c q do
    let b := q.bytes
    stopIf (namesWheel [(fld b 8 8, 32 * fld b 16 4)]) .internal
    let todo ← uniqIndices (whoGather e c) b t.desc.rows
    actMod fun s => modGe s e fun x => { x with pf := x.pf.filter fun r => r.ctx ≠ c }
    let s ← get
    let pending := ((getGe s e).ops.map fun p => if p.2.kind = .prefetch then
      (p.2.out + p.2.todo.length) * ((getTable s p.2.table).map fun y => y.desc.rb).getD 0 else 0).sum
    let fit := (1048576 - pfUsed s e - pending) / t.desc.rb
    actMod fun s => modGe s e fun x => { x with pfdrop := x.pfdrop + w64 (todo.length - fit) }
    return { kind := .prefetch, cmd := q, table := gTable b, todo := todo.take fit }

/-! ### ATTACH and DETACH (spec/11 R267, R279) -/

/-- GTH_ATTACH. -/
def gthAttach (s : State) (e c : Nat) : State :=
  headRow s (gatherEng e) c gatherOps 0xC3 fun q =>
    match takeTurn s (gatherEng e) 0 c (gatherReady s e) with
    | none => s
    | some s =>
      let b := q.bytes
      let w := whoGather e c
      let work : Act TableDesc := do
        stopIf (!gatherOk b || (getTable s (gTable b)).isSome || namesWheel [(fld b 8 8, 128)]) .internal
        let d ← rd w (fld b 8 8) 128
        stopIf (!tableOk d) .internal
        let x := tableOf (fld b 8 8) d
        recoverMoves w x (gTable b)
        return x
      match runActVal work s with
      | (.error st, s) => completeHead s (gatherEng e) c q st
      | (.ok x, s) => completeHead (modGth s fun y => { y with
          tables := tabPut y.tables (gTable b) { desc := x, ctx := c } }) (gatherEng e) c q .ok

/-- Whether a queued command uses a table. -/
def namesTable (t : Nat) (e : Eng) (_c : Nat) (q : QCmd) : Bool :=
  e.kind = .gather && [0xC0, 0xC1, 0xC2, 0xC5].contains (cmdOp q.bytes) && gTable q.bytes = t

/-- Commands in progress that meet a test stop at the end of a row's request (spec/11 R267). -/
def abortGather (s : State) (test : Nat → GthOp → Bool) : State :=
  let stop (c : Nat) (o : GthOp) : GthOp :=
    if test c o && o.todo ≠ [] then { o with todo := [], verdict := some (o.verdict.getD .abortedDisabled) } else o
  let s := modGth s fun x => { x with engs := tabMap (fun _ (g : GthEng) => { g with ops := tabMap stop g.ops }) x.engs }
  (List.range 16).foldl pumpAll s

/-- GTH_DETACH: the disable point. -/
def gthDetach (s : State) (e c : Nat) : State :=
  headRow s (gatherEng e) c gatherOps 0xC4 fun q =>
    match takeTurn s (gatherEng e) 0 c (gatherReady s e) with
    | none => s
    | some s =>
      let t := gTable q.bytes
      match (if gatherOk q.bytes then getTable s t else none) with
      | none => completeHead s (gatherEng e) c q .internal
      | some x =>
        let s := popQ s (gatherEng e) c
        let s := modGth s fun y => { y with
          tables := tabPut y.tables t { x with attached := false, detach := x.detach ++ [(e, c, q)] }
          engs := tabMap (fun _ (g : GthEng) => { g with pf := g.pf.filter fun r => r.table ≠ t }) y.engs }
        markQueued (abortGather s fun _ o => o.table = t) (namesTable t)

/-- The disable of a table finishes. -/
def tableFinish (s : State) (t : Nat) : State :=
  match getTable s t with
  | none => s
  | some x =>
    if x.attached || (s.gth.engs.any fun g => g.2.ops.any fun o => o.2.table = t) ||
        anyQueued s (fun e c q => namesTable t e c q && q.verdict.isSome) then s
    else
      let s := modGth s fun y => { y with tables := tabDel y.tables t }
      x.detach.foldl (fun s p => completeCmd s (gatherEng p.1) p.2.1 p.2.2 .ok) s

/-! ### The owner (spec/11 R270, R272, R273, R275, R276) -/

/-- Count a row served: its bytes, and the engine's requests. -/
def countServed (s : State) (e t rb : Nat) : State :=
  let s := modGth s fun x => { x with loads := tabMod 0 x.loads t fun v => v + w64 rb }
  modGe s e fun x => { x with rows := x.rows + 1 }

/-- The entry that a hot list gives up first. -/
def coldest (l : List HotEntry) : Option HotEntry :=
  l.foldl (fun best h => match best with
    | none => some h
    | some b => if h.hits.toNat < b.hits.toNat || (h.hits = b.hits && (b.table < h.table ||
        (b.table = h.table && b.index < h.index))) then some h else best) none

/-- Update a hot list (spec/11 R276). -/
def noteHot (l : List HotEntry) (h : HotEntry) : List HotEntry :=
  let same := fun (x : HotEntry) => x.table = h.table && x.index = h.index
  if l.any same then l.map fun x => if same x then h else x
  else if l.length < 16 then l ++ [h]
  else match coldest l with
    | some x => if x.hits.toNat < h.hits.toNat then l.map fun y => if y = x then h else y else l
    | none => l

/-- Count a hit in a row's state block and in the engine's hot list. -/
def countHit (w : Who) (e t i slot : Nat) (x : TableDesc) : Act Unit := do
  if x.hot then
    let a := slot + x.rb
    let s ← get
    let epoch := s.gth.epoch.toNat % 2 ^ 32
    let old ← rd w (a + 16) 8
    let hits := if fld old 4 4 = epoch then min (fld old 0 4 + 1) 0xFFFFFFFF else 1
    wr w (a + 16) (toLe 4 hits ++ toLe 4 epoch)
    actMod fun s => modGe s e fun g => { g with hot := noteHot g.hot { table := t, index := i, hits := BitVec.ofNat 32 hits } }

/-- FP32 one. -/
def f32One : BitVec 32 := 0x3F800000

/-- The weights after SGD. -/
def sgdRow (lr : BitVec 32) (w g : List (BitVec 32)) : List (BitVec 32) :=
  (w.zip g).map fun p => f32Sub p.1 (f32Mul lr p.2)

/-- The accumulator and weights after row-wise Adagrad. -/
def adagradRow (lr eps acc : BitVec 32) (dim : Nat) (w g : List (BitVec 32)) : BitVec 32 × List (BitVec 32) :=
  let sum := g.foldl (fun a x => f32Add a (f32Mul x x)) 0
  let acc := f32Add acc (f32Mul sum (f32DivExact (f32Dec f32One) (f32Dec (f32OfNat dim))))
  let r := vRsqrt (f32Add acc eps)
  (acc, (w.zip g).map fun p => f32Sub p.1 (f32Mul (f32Mul lr p.2) r))

/-- One element of Adam: weight, m, v. -/
def adamElem (lr eps b1 b2 c1 c2 w g m v : BitVec 32) : BitVec 32 × BitVec 32 × BitVec 32 :=
  let m := f32Add (f32Mul b1 m) (f32Mul (f32Sub f32One b1) g)
  let v := f32Add (f32Mul b2 v) (f32Mul (f32Mul (f32Sub f32One b2) g) g)
  let vh := f32Mul v c2
  let root := if f32Lt 0 vh then f32Mul vh (vRsqrt vh) else 0
  (f32Sub w (f32Mul (f32Mul lr (f32Mul m c1)) (vRecip (f32Add root eps))), m, v)

/-- Adam's bias correction for a decay rate. -/
def adamCorrection (count : Nat) (beta : BitVec 32) : BitVec 32 :=
  vRecip (f32Sub f32One (vExp (f32Mul (f32OfNat count) (vLog beta))))

/-- FP32 words of bytes. -/
def wordsOf (b : Bytes) (n : Nat) : List (BitVec 32) := (List.range n).map fun i => BitVec.ofNat 32 (fld b (4 * i) 4)
/-- Bytes of FP32 words. -/
def bytesOf (l : List (BitVec 32)) : Bytes := (l.map fun x => toLe 4 x.toNat).flatten

/-- Apply one update to the row at a slot: the row, M and V, then the state block (spec/11 R265, R273). -/
def updateRow (w : Who) (x : TableDesc) (slot : Nat) (u : RowUpdate) : Act Unit := do
  let row ← rd w slot x.rb
  let st ← rd w (slot + x.rb) 64
  let wt := rowVals x.rfmt x.dim row
  let f := fun i => BitVec.ofNat 32 (fld u.opt (4 * i) 4)
  let n := min (fld st 8 4 + 1) 0xFFFFFFFF
  let ada := adagradRow (f 0) (f 1) (BitVec.ofNat 32 (fld st 12 4)) x.dim wt u.grad
  let ms ← if x.opt = 3 then rd w (slot + x.rb + 64) (8 * x.dim) else pure []
  let c1 := adamCorrection n (f 2)
  let c2 := adamCorrection n (f 3)
  let adam : List (BitVec 32 × BitVec 32 × BitVec 32) := (List.range x.dim).map fun i => adamElem (f 0) (f 1) (f 2) (f 3) c1 c2 (wt.getD i 0) (u.grad.getD i 0)
    (BitVec.ofNat 32 (fld ms (4 * i) 4)) (BitVec.ofNat 32 (fld ms (4 * x.dim + 4 * i) 4))
  let new : List (BitVec 32) :=
    if x.opt = 1 then sgdRow (f 0) wt u.grad else if x.opt = 2 then ada.2 else adam.map Prod.fst
  let e := fmtElem x.rfmt
  wr w slot (packBytes (elemBits e) (new.map fun v => elemEnc e (f32Dec v)))
  if x.opt = 3 then
    wr w (slot + x.rb + 64) (bytesOf (adam.map (·.2.1)) ++ bytesOf (adam.map (·.2.2)))
  wr w (slot + x.rb) (toLe 8 u.step ++ toLe 4 (if x.opt = 3 then n else fld st 8 4) ++
    toLe 4 (if x.opt = 2 then ada.1.toNat else fld st 12 4))

/-- The port of an answer: the path the request came by where it leads to the requester (spec/16 R404). -/
def answerPort (s : State) (r : RowReq) (m : Nat) : Option (Nat × State) :=
  match r.via with
  | some k => if k % 4096 = m then some (k / 4096, s) else choosePort s m
  | none => choosePort s m

/-- Answer a request. -/
def answerRow (s : State) (r : RowReq) (st : Status) (row : Bytes) : State :=
  match r.source with
  | .engine e c u => rowDone s e c u r.index st row
  | .peer m tag =>
    match answerPort s r m with
    | none => s
    | some (p, s) =>
      if st = .ok then
        queueRow (chargeFerry s r.ctx row.length) p m r.ctx tag r.index (ownModule s)
          (r.table + if r.update.isSome then 768 else 256) row
      else queueFrame s p m { op := 0x0A, vc := 2, ctx := r.ctx, tag := tag, arg := st.code }

/-- Forward a request to the module a row has moved to (spec/11 R277; where the frame carries the spare slot: log 26). -/
def forwardRow (s : State) (r : RowReq) (m slot : Nat) : State :=
  if m = ownModule s then addReq s { r with engine := slot % 16, spare := some slot }
  else
    let body := (match r.update with | some u => updateBytes u | none => []) ++ toLe 4 slot
    match choosePort s m with
    | none => answerRow s r .linkLost []
    | some (p, s) =>
      let s := chargeFerry s r.ctx body.length
      let arg := r.table + (if r.update.isSome then 512 else 0)
      match r.source with
      | .peer q tag => queueRow s p m r.ctx tag r.index q arg body
      | .engine e c u =>
        let o := startOp s p m 0 (.row e c u)
        queueRow o.2 p m r.ctx o.1 r.index (ownModule s) arg body

/-- What serving a request comes to. -/
inductive Served where
  | held | forward (module slot : Nat) | done (row : Bytes)
  deriving DecidableEq, Repr

/-- Serve the row at a slot. -/
def serveSlot (w : Who) (r : RowReq) (x : TableDesc) (slot : Nat) : Act Served := do
  let out ← match r.update with
    | none => rd w slot x.rb
    | some u => do
      stopIf (x.opt = 0) .internal
      updateRow w x slot u
      pure []
  countHit w r.engine r.table r.index slot x
  actMod fun s => countServed s r.engine r.table x.rb
  return .done out

/-- Serve one request, after its redirect lookup (spec/11 R277). -/
def serveWork (r : RowReq) (x : TableDesc) : Act Served := do
  let w := whoGather r.engine r.ctx
  match r.spare with
  | some n =>
    stopIf (x.spareSlots ≤ n) .internal
    serveSlot w r x (x.spare + n * x.stride)
  | none =>
    stopIf (x.rows ≤ r.index || r.index % x.shards ≠ x.shard) .internal
    let p ← findRedirect w x r.index
    match p.1 with
    | none => serveSlot w r x (x.base + x.slot r.index * x.stride)
    | some d => if d.state = 1 then return .forward d.target d.slot else return .held

/-- Serve request `rid` now: its answer, its way on to another module, or the wait for the end of a migration. -/
def serveNow (s : State) (rid : Nat) (r : RowReq) : State :=
  let gone := fun s => modGth s fun x => { x with reqs := tabDel x.reqs rid }
  match getTable s r.table with
  | none => answerRow (gone s) r .disabled []
  | some t =>
    match runActVal (serveWork r t.desc) s with
    | (.error st, s) => answerRow (gone s) r st []
    | (.ok .held, s) => modGth s fun x => { x with reqs := tabPut x.reqs rid { r with held := true } }
    | (.ok (.forward m n), s) => forwardRow (gone s) r m n
    | (.ok (.done row), s) => answerRow (gone s) r .ok row

/-- An owner engine serves request `rid`, of the kind asked for, at its context's turn. -/
def serveRow (s : State) (e rid : Nat) (update : Bool) : State :=
  match tabFind s.gth.reqs rid with
  | none => s
  | some r =>
    if r.engine ≠ e || r.update.isSome ≠ update || r.held || !rowFirst s rid r then s else
    match takeTurn s (gatherEng e) 0 r.ctx (gatherReady s e) with
    | none => s
    | some s => pumpAll (serveNow s rid r) e

/-- Requests for a row whose migration has ended are served again. -/
def releaseRow (s : State) (t i : Nat) : State :=
  modGth s fun x => { x with reqs := tabMap (fun _ r => if r.table = t && r.index = i then { r with held := false } else r) x.reqs }

/-! ### Frames (spec/16 Table 16-7) -/

/-- A ROW frame arrives: once its payload is whole, a request or update reaches its owner, or an answer its command. -/
def rowFrame (s : State) (p : Nat) (f : FFrame) : State :=
  let k := pathKey p f.src
  let mine := fun (x : Nat × BitVec 32 × Bytes) => x.1 = k && x.2.1 = f.tag
  let sofar := match s.gth.partials.find? mine with | some x => x.2.2 | none => []
  let body := sofar ++ f.payload
  let rest := s.gth.partials.filter fun x => !mine x
  if !f.last then modGth s fun x => { x with partials := rest ++ [(k, f.tag, body)] } else
  let s := modGth s fun x => { x with partials := rest }
  let kind := bits f.arg 9 8
  let t := bits f.arg 5 0
  if kind = 1 || kind = 3 then
    match tabFind s.fry.ops f.tag.toNat with
    | some o => match o.waiter with
      | .row e c u => rowDone (modFry s fun x => { x with ops := tabDel x.ops f.tag.toNat }) e c u f.addr .ok body
      | _ => s
    | none => s
  else
    let m := f.offset % 4096
    -- a request of this module that its home sends back is served locally (spec/16 R404)
    let own := if m = ownModule s then tabFind s.fry.ops f.tag.toNat else none
    let source := match own with
      | some o => (match o.waiter with | .row e c u => RowFrom.engine e c u | _ => .peer m f.tag)
      | none => .peer m f.tag
    let s := if source = .peer m f.tag then s else modFry s fun x => { x with ops := tabDel x.ops f.tag.toNat }
    let r : RowReq := { table := t, index := f.addr, ctx := f.ctx, source := source, via := some k }
    match getTable s t with
    | none => answerRow s { r with update := if kind = 2 then some {} else none } .disabled []
    | some x =>
      let n := if kind = 2 then 4 * x.desc.dim + 40 else 0
      let u : RowUpdate := ⟨wordsOf body x.desc.dim, (body.drop (4 * x.desc.dim)).take 32,
        fld body (4 * x.desc.dim + 32) 8⟩
      let upd := if kind = 2 then some u else none
      let spare := if body.length = n + 4 then some (fld body n 4) else none
      let eng := match spare with | some k => k % 16 | none => x.desc.owner f.addr
      addReq s { r with engine := eng, update := upd, spare := spare }

/-! ### MIGRATE (spec/11 R278, R280) -/

/-- The 64 bytes of a MIGRATE the purser issues. -/
def migrateBytes (c t index target : Nat) : Bytes :=
  toLe 1 0xC5 ++ toLe 1 c ++ toLe 1 t ++ toLe 5 0 ++ toLe 8 index ++ toLe 32 0 ++ toLe 8 target ++ toLe 8 0

/-- The purser issues a MIGRATE for the module that balances the table (its context: log 26). -/
def issueMove (s : State) (by_ t i m : Nat) (x : GthTable) : State :=
  purserRuns s { opcode := 0xC5, mover := some by_, offer := [(gatherEng (x.desc.owner i), migrateBytes x.ctx t i m)] }

/-- Order one migration: here, or of the module `h` whose row it is. -/
def orderMove (s : State) (h t i m : Nat) : State :=
  if h = ownModule s then
    match getTable s t with
    | none => s
    | some x => issueMove (modGth s fun g => { g with moving := some h }) h t i m x
  else if (choosePort s h).isNone then s
  else purserSend (modGth s fun g => { g with moving := some h }) h (.migrate t i m)

/-- Order migrations until one is under way (spec/11 R280). -/
def orderMoves : List (Nat × Nat × Nat × Nat) → State → State
  | [], s => modGth s fun x => { x with moves := [] }
  | (h, t, i, m) :: rest, s =>
    if s.gth.moving.isSome then modGth s fun x => { x with moves := (h, t, i, m) :: rest }
    else orderMoves rest (orderMove s h t i m)

/-- The purser orders the next of its migrations when none is under way. -/
def offerMove (s : State) : State := orderMoves s.gth.moves s

/-- A migration ordered by module `b` (spec/11 R280). -/
def moveOrdered (s : State) (b t i m : Nat) : State :=
  match getTable s t with
  | none => purserSend s b .migrated
  | some x => issueMove s b t i m x

/-- The migration that module `h` carried out has ended. -/
def moveEnded (s : State) (h : Nat) : State :=
  if s.gth.moving = some h then offerMove (modGth s fun x => { x with moving := none }) else s

/-- A MIGRATE ends: the requests for its row go on, and the next migration is ordered. -/
def endMigrate (s : State) (e c : Nat) (op : GthOp) (st : Status) : State :=
  let s := releaseRow (modGe s e fun x => { x with ops := tabDel x.ops c }) op.table (fld op.cmd.bytes 8 8)
  offerMove (pumpAll (completeCmd s (gatherEng e) c op.cmd st) e)

/-- Undo a MIGRATE that failed before its last write. -/
def undoMove (e c : Nat) (op : GthOp) (x : TableDesc) : Act Unit := do
  if op.prev = [] then return
  let w := whoGather e c
  if op.kind = .moveOut then freeSpareAt w x op.table op.target op.slot else countMoved w x true
  wr w op.entry op.prev

/-- The last writes of a MIGRATE whose copy has come; `row` is what a move back reads. -/
def finishMove (e c : Nat) (op : GthOp) (x : TableDesc) (row : Bytes) : Act Unit := do
  let w := whoGather e c
  let i := fld op.cmd.bytes 8 8
  if op.kind = .moveOut then
    countMoved w x true
    wrRedirect w op.entry i 1 op.target op.slot
  else
    wr w (x.base + x.slot i * x.stride) row
    freeSpareAt w x op.table op.target op.slot
    wrRedirect w op.entry i 4 0 0
  actMod fun s => modGth s fun g => { g with migrated := g.migrated + 1 }

/-- The copy of a MIGRATE has ended. -/
def migrateEnded (s : State) (e c : Nat) (st : Status) (row : Bytes) : State :=
  match tabFind (getGe s e).ops c with
  | none => s
  | some op =>
    match getTable s op.table with
    | none => endMigrate s e c op st
    | some t =>
      if st ≠ .ok then endMigrate (runAct (undoMove e c op t.desc) s).2 e c op st else
      match runAct (finishMove e c op t.desc row) s with
      | (.ok, s) => endMigrate s e c op .ok
      | (st, s) => endMigrate (runAct (undoMove e c op t.desc) s).2 e c op st

/-- The copy of a MIGRATE to or from the spare slot, at address `remote` of the target, starts. -/
def migrateCopy (s : State) (e c : Nat) (op : GthOp) (x : TableDesc) (remote : Nat) : State :=
  let s := modOp s e c fun _ => { op with phase := .copy }
  let w := whoGather e c
  let i := fld op.cmd.bytes 8 8
  let home := x.base + x.slot i * x.stride
  let m := op.target
  if m = ownModule s then
    match runActVal (rd w (if op.kind = .moveOut then home else remote) x.stride) s with
    | (.error st, s) => migrateEnded s e c st []
    | (.ok row, s) =>
      if op.kind = .moveOut then
        let r := runAct (wr w remote row) s
        migrateEnded r.2 e c r.1 []
      else migrateEnded s e c .ok row
  else match choosePort s m with
    | none => migrateEnded s e c .linkLost []
    | some (p, s) =>
      let s := chargeFerry s c x.stride
      if op.kind = .moveOut then
        match runActVal (rd w home x.stride) s with
        | (.error st, s) => migrateEnded s e c st []
        | (.ok row, s) =>
          let r := startOp s p m x.stride (.migrate e c)
          queueWrite r.2 p m 3 c r.1 remote row
      else
        let r := startOp s p m x.stride (.migrate e c)
        queueFrame r.2 p m { op := 3, vc := 1, ctx := c, tag := r.1, addr := remote, arg := x.stride }

/-- MIGRATE's checks. A move back says MOVING_BACK from here on; a move out has still to reserve its spare slot. -/
def migrateBegin (e c : Nat) (q : QCmd) (x : TableDesc) : Act GthOp := do
  let w := whoGather e c
  let b := q.bytes
  let i := fld b 8 8
  let home := bit (fld b 3 1) 0
  stopIf (x.rows ≤ i || i % x.shards ≠ x.shard || x.owner i ≠ e) .internal
  let p ← findRedirect w x i
  match p.1 with
  | some d =>
    stopIf (d.state ≠ 1 || !home) .internal
    let s ← get
    stopIf (d.target ≠ ownModule s && (choosePort s d.target).isNone) .linkLost
    countMoved w x false
    wrRedirect w d.at_ i 3 d.target d.slot
    return { kind := .moveBack, cmd := q, table := gTable b, entry := d.at_, prev := d.raw, target := d.target,
             slot := d.slot, out := 1, phase := .hold }
  | none =>
    stopIf home .internal
    return { kind := .moveOut, cmd := q, table := gTable b, target := fld b 48 8, out := 1, phase := .ask }

/-- A move out writes its entry: MOVING_OUT, the target and spare slot `n` (spec/11 Table 11-6 step 2). -/
def moveOutEntry (e c : Nat) (op : GthOp) (x : TableDesc) (n : Nat) : Act GthOp := do
  let w := whoGather e c
  let i := fld op.cmd.bytes 8 8
  let p ← findRedirect w x i
  match p.2 with
  | none => throw .internal
  | some place =>
    let prev ← rd w place 16
    wrRedirect w place i 2 op.target n
    return { op with entry := place, prev := prev, slot := n }

/-- A spare slot is reserved for a move out. -/
def moveOutGo (s : State) (e c : Nat) (op : GthOp) (x : TableDesc) (n remote : Nat) : State :=
  match runActVal (moveOutEntry e c op x n) s with
  | (.error st, s) => endMigrate (runAct (freeSpareAt (whoGather e c) x op.table op.target n) s).2 e c op st
  | (.ok op, s) => migrateCopy s e c op x remote

/-- Whether a request with a spare slot of this module waits to be served. -/
def spareBusy (s : State) (t n : Nat) : Bool := s.gth.reqs.any fun r => r.2.table = t && r.2.spare = some n

/-- Whether a forwarded request for a row has not reached module `m` whole. -/
def forwardsLeft (s : State) (m t i : Nat) : Bool :=
  s.fry.paths.any fun k => k.1 % 4096 = m && (k.2.sendq ++ k.2.unacked).any fun f =>
    f.op = 0x0B && f.addr = i && f.arg % 64 = t && bits f.arg 9 8 % 2 = 0

/-- A MIGRATE asks its target: for a spare slot, or whether requests for the slot named have ended. -/
def askSpare (s : State) (e c : Nat) (op : GthOp) (slot : Option Nat) : State :=
  if (choosePort s op.target).isNone then migrateEnded s e c .linkLost []
  else purserSend (modOp s e c fun o => { o with phase := .ask }) op.target (.spareAsk e c op.table slot)

/-- A move out reserves its spare slot. -/
def moveOutAsk (s : State) (e c : Nat) (op : GthOp) (x : TableDesc) : State :=
  if op.target ≠ ownModule s then askSpare s e c op none else
  match runActVal (takeSpare (whoGather e c) x) s with
  | (.ok (some n), s) => moveOutGo s e c op x n (x.spare + n * x.stride)
  | (.ok none, s) => endMigrate s e c op .internal
  | (.error st, s) => endMigrate s e c op st

/-- A move back that waits goes on once no earlier request for its row is left. -/
def moveBackGo (s : State) (e c : Nat) (op : GthOp) (x : TableDesc) : State :=
  if op.target = ownModule s then
    if spareBusy s op.table op.slot then s else migrateCopy s e c op x (x.spare + op.slot * x.stride)
  else if forwardsLeft s op.target op.table (fld op.cmd.bytes 8 8) then s
  else askSpare s e c op (some op.slot)

/-- The purser of module `m` asks for a spare slot of a table here, or about one. -/
def spareAsked (s : State) (m e c t : Nat) (ask : Option Nat) : State :=
  let answer := fun s (st : Status) a => purserSend s m (.spareIs e c t ask st.code a)
  match getTable s t, ask with
  | none, _ => answer s .internal none
  | some x, some n => answer s .ok (if spareBusy s t n then none else some (n, x.desc.spare + n * x.desc.stride))
  | some x, none =>
    match runActVal (takeSpare (whoPurser (some c)) x.desc) s with
    | (.ok (some n), s) => answer s .ok (some (n, x.desc.spare + n * x.desc.stride))
    | (.ok none, s) => answer s .internal none
    | (.error st, s) => answer s st none

/-- The target's answer: a slot reserved for a MIGRATE that is no longer there is returned. -/
def spareAnswered (s : State) (m e c t : Nat) (ask : Option Nat) (st : Status) (slot : Option (Nat × Nat)) : State :=
  let stale := match ask, slot with
    | none, some n => purserSend s m (.spareFree t n.1)
    | _, _ => s
  match tabFind (getGe s e).ops c, getTable s t with
  | some op, some x =>
    if op.table ≠ t || op.target ≠ m || op.phase ≠ .ask || (ask ≠ if op.kind = .moveOut then none else some op.slot) then stale
    else if st ≠ .ok then migrateEnded s e c st []
    else match slot with
      | none => modOp s e c fun o => { o with phase := .hold }
      | some (n, a) => if op.kind = .moveOut then moveOutGo s e c op x.desc n a else migrateCopy s e c op x.desc a
  | _, _ => stale

/-- MIGRATE at the head of its queue. -/
def migrateStart (s : State) (e c : Nat) : State :=
  gatherHead s e c 0xC5 fun s q t =>
    match runActVal (migrateBegin e c q t.desc) s with
    | (.error st, s) => completeHead s (gatherEng e) c q st
    | (.ok op, s) =>
      let s := modGe (popQ s (gatherEng e) c) e fun x => { x with ops := tabPut x.ops c op }
      if op.kind = .moveOut then moveOutAsk s e c op t.desc else moveBackGo s e c op t.desc

/-- MIGRATE: it starts, or goes on where it waits. -/
def migrateCmd (s : State) (e c : Nat) : State :=
  match tabFind (getGe s e).ops c with
  | none => migrateStart s e c
  | some op =>
    match getTable s op.table with
    | some t => if op.phase = .hold then moveBackGo s e c op t.desc else s
    | none => s

/-- A path to module `x` is lost: MIGRATEs that wait for its answer end, and what it was to move is no longer waited for. -/
def gatherPathLost (s : State) (x : Nat) : State :=
  let asks := s.gth.engs.flatMap fun g => (g.2.ops.filter fun o => o.2.phase = .ask && o.2.target = x).map fun o => (g.1, o.1)
  moveEnded (asks.foldl (fun s k => migrateEnded s k.1 k.2 .linkLost []) s) x

/-! ### Load epochs and balance (spec/11 R275, R280) -/

/-- LOAD_EPOCH_STEP. -/
def loadEpochStep (s : State) : State :=
  if s.gth.epochMs = 0 then s else
  modGth s fun x => { x with
    loadLast := x.loads, loads := [], epoch := x.epoch + 1
    engs := tabMap (fun _ (g : GthEng) => { g with latched := g.hot, hot := [] }) x.engs }

/-- The shard whose load is best by `better`, the lowest shard on ties. -/
def pickShard (better : Nat → Nat → Bool) (loads : List Nat) : Nat :=
  (loads.zipIdx.foldl (fun (b : Option (Nat × Nat)) p => match b with
    | none => some p
    | some q => if better p.1 q.1 then some p else some q) none |>.getD (0, 0)).2

/-- The rows to migrate: hot entries (index, hits, whether its redirect entry is empty), most hits first, lower index on
ties, within the budget (spec/11 R280). -/
def chooseMoves (x : TableDesc) (h : Nat) : List (Nat × Nat × Bool) → Nat → Int → List Nat
  | [], _, _ => []
  | (i, hits, empty) :: rest, moved, budget =>
    if moved = x.moveMax || budget ≤ 0 then []
    else if i % x.shards = h && empty then i :: chooseMoves x h rest (moved + 1) (budget - hits * x.rb)
    else chooseMoves x h rest moved budget

/-- The latched hot entries of this module for a table, with whether each row's entry is empty. -/
def ownHot (w : Who) (t : Nat) (x : TableDesc) : Act (List (Nat × Nat × Bool)) := do
  let s ← get
  ((s.gth.engs.flatMap fun g => g.2.latched).filter fun h => h.table = t).mapM fun h => do
    return (h.index, h.hits.toNat, (← findRedirect w x h.index).1.isNone)

/-- The migrations that HOT_ROW_BALANCE finds: `loads` are the shards' LOAD_LAST and `hot` the hot entries of the busiest
shard's module. -/
def balanceMoves (t : Nat) (x : GthTable) (loads : List Nat) (hot : List (Nat × Nat × Bool)) :
    Act (List (Nat × Nat × Nat × Nat)) := do
  let d := x.desc
  let w := whoPurser (some x.ctx)
  let mean := loads.sum / d.shards
  let h := pickShard (fun a b => b < a) loads
  let c := pickShard (fun a b => a < b) loads
  let lh := loads.getD h 0
  if lh * 100 ≤ mean * (100 + d.thresh) then return []
  let found ← if h = 0 then ownHot w t d else pure hot
  let entries := sortBy (fun (a b : Nat × Nat × Bool) => b.2.1 < a.2.1 || (a.2.1 = b.2.1 && a.1 ≤ b.1)) found
  let from_ := (← rdNat w (d.map + 2 * h) 2) % 4096
  let to_ := (← rdNat w (d.map + 2 * c) 2) % 4096
  return (chooseMoves d h entries 0 ((lh : Int) - mean)).map fun i => (from_, t, i, to_)

/-- HOT_ROW_BALANCE: `loads` and the hot entries as the shards' pursers answer; this module's own stand in its state. -/
def hotRowBalance (s : State) (t : Nat) (loads : List Nat) (hot : List (Nat × Nat × Bool)) : State :=
  match getTable s t with
  | none => s
  | some x =>
    let d := x.desc
    if !d.migrate || d.shard ≠ 0 || !x.attached then s else
    let loads := setAt (loads.take d.shards ++ List.replicate (d.shards - loads.length) 0) 0
      (tabGet 0 s.gth.loadLast t).toNat
    match runActVal (balanceMoves t x loads hot) s with
    | (.ok l, s) => offerMove (modGth s fun g => { g with moves := g.moves ++ l })
    | (.error _, s) => s

/-! ### The rows -/

/-- GATHER. -/
def execGather (e ctx : Nat) (s : State) : Host.Outcome State Fault Refusal := .next (pumpAll (gatherCmd s e ctx) e)
/-- APPLY. -/
def execApply (e ctx : Nat) (s : State) : Host.Outcome State Fault Refusal := .next (pumpAll (applyCmd s e ctx) e)
/-- PREFETCH. -/
def execPrefetch (e ctx : Nat) (s : State) : Host.Outcome State Fault Refusal := .next (pumpAll (prefetchCmd s e ctx) e)
/-- GTH_ATTACH. -/
def execGthAttach (e ctx : Nat) (s : State) : Host.Outcome State Fault Refusal := .next (pumpAll (gthAttach s e ctx) e)
/-- GTH_DETACH. -/
def execGthDetach (e ctx : Nat) (s : State) : Host.Outcome State Fault Refusal := .next (pumpAll (gthDetach s e ctx) e)
/-- MIGRATE: when a migration the purser issued ends, it issues the next. -/
def execMigrate (e ctx : Nat) (s : State) : Host.Outcome State Fault Refusal := .next (offerMove (migrateCmd s e ctx))
/-- ROW_REQUEST_SERVE. -/
def execRowRequestServe (e rid : Nat) (s : State) : Host.Outcome State Fault Refusal := .next (serveRow s e rid false)
/-- ROW_UPDATE_APPLY. -/
def execRowUpdateApply (e rid : Nat) (s : State) : Host.Outcome State Fault Refusal := .next (serveRow s e rid true)
/-- LOAD_EPOCH_STEP. -/
def execLoadEpochStep (s : State) : Host.Outcome State Fault Refusal := .next (loadEpochStep s)
/-- HOT_ROW_BALANCE. -/
def execHotRowBalance (t : Nat) (loads : List Nat) (hot : List (Nat × Nat × Bool)) (s : State) :
    Host.Outcome State Fault Refusal := .next (hotRowBalance s t loads hot)

end Sys2Proof.Machine
end

