-- ==== Sys2Proof/Machine/Pcl.lean ====
section
/-! DEFINITION. The percolator slices: shards, queries in units, and results (spec/09 R207-R226, R232-R234, R243). -/

namespace Sys2Proof.Machine

/-- A slice as an engine. -/
def sliceEng (k : Nat) : Eng := ⟨.slice, k⟩

/-- The opcodes of a slice. -/
def sliceOps : List Nat := [0x80, 0x81, 0x82, 0x83]

/-- A slice. -/
def getSlice (s : State) (k : Nat) : SliceSt := tabGet {} s.pcl.slices k

/-- Change a slice. -/
def modSlice (s : State) (k : Nat) (f : SliceSt → SliceSt) : State :=
  { s with pcl := { s.pcl with slices := tabMod {} s.pcl.slices k f } }

/-- The next number in the order of admissions and flips. -/
def stampPcl (s : State) : Nat × State := (s.pcl.order, { s with pcl := { s.pcl with order := s.pcl.order + 1 } })

/-! ### Shards (spec/09 R207-R212) -/

/-- Code bytes of an entry (spec/09 Table 9-1). -/
def codeBytes (code dim : Nat) : Nat :=
  match code with
  | 1 => dim + dim / 32
  | 2 => dim / 2
  | 3 => dim / 8
  | _ => dim / 8 + dim / 2

/-- Slots per block. -/
def Shard.epb (x : Shard) : Nat := 4032 / (32 + x.csz)
/-- Address of a slot's metadata. -/
def Shard.metaAt (_x : Shard) (block i : Nat) : Nat := block + 64 + 32 * i
/-- Address of a slot's code. -/
def Shard.codeAt (x : Shard) (block i : Nat) : Nat := block + 64 + 32 * x.epb + x.csz * i

/-- The part of a descriptor's 192 bytes that software sets. -/
def shardOf (addr : Nat) (d : Bytes) : Shard :=
  { addr := addr, code := bits (fld d 1 1) 3 0, metric := bits (fld d 2 1) 1 0, dim := fld d 4 2, csz := fld d 6 2,
    lists := fld d 8 4, heads := fld d 24 8, updq := fld d 44 2, journal := fld d 48 8 }

/-- The writer slot, of any slice, that holds a descriptor: slice, slot and its contents. -/
def slotOf (s : State) (desc : Nat) : Option (Nat × Nat × WriterSlot) :=
  (s.pcl.slices.flatMap fun kx => kx.2.slots.map fun wx => (kx.1, wx.1, wx.2)).find? fun t => t.2.2.shard.addr = desc

/-- Whether a shard is attached. -/
def isAttached (s : State) (desc : Nat) : Bool :=
  match slotOf s desc with
  | some t => t.2.2.attached
  | none => false

/-- The queries active on a shard, on any slice (spec/09 R232, R235). -/
def activeOn (s : State) (desc : Nat) : List Query :=
  (s.pcl.slices.flatMap fun kx => kx.2.queries.map (·.2)).filter fun q => q.shard.addr = desc

/-- A list's head entry (spec/09 Table 9-3). -/
structure HeadEntry where
  head : Nat := 0
  tail : Nat := 0
  slots : Nat := 0
  blocks : Nat := 0
  flips : Nat := 0
  deriving DecidableEq, Repr

/-- Read a head entry. -/
def rdHead (w : Who) (x : Shard) (l : Nat) : Act HeadEntry := do
  let b ← rd w (x.heads + 32 * l) 32
  return { head := fld b 0 8, tail := fld b 8 8, slots := fld b 16 4, blocks := fld b 20 4, flips := fld b 24 4 }

/-- Write a head entry with one write. -/
def wrHead (w : Who) (x : Shard) (l : Nat) (h : HeadEntry) : Act Unit :=
  wr w (x.heads + 32 * l) (toLe 8 h.head ++ toLe 8 h.tail ++ toLe 4 h.slots ++ toLe 4 h.blocks ++ toLe 4 h.flips ++ toLe 4 0)

/-- A block header (spec/09 Table 9-4). -/
structure BlockHdr where
  next : Nat := 0
  count : Nat := 0
  tombs : Nat := 0
  list : Nat := 0
  minEpoch : Nat := 0
  maxEpoch : Nat := 0
  deriving DecidableEq, Repr

/-- Read a block header. -/
def rdHdr (w : Who) (a : Nat) : Act BlockHdr := do
  let b ← rd w a 64
  return { next := fld b 0 8, count := fld b 8 2, tombs := fld b 10 2, list := fld b 12 4,
           minEpoch := fld b 16 8 % 2 ^ 48, maxEpoch := fld b 24 8 % 2 ^ 48 }

/-- Write a block header with one write. -/
def wrHdr (w : Who) (a : Nat) (h : BlockHdr) : Act Unit :=
  wr w a (toLe 8 h.next ++ toLe 2 h.count ++ toLe 2 h.tombs ++ toLe 4 h.list ++ toLe 8 h.minEpoch ++ toLe 8 h.maxEpoch ++
    toLe 32 0)

/-- A slot's metadata (spec/09 Table 9-5). -/
structure SlotMeta where
  id : Nat := 0
  attr : Nat := 0
  ins : Nat := 0
  tomb : Bool := false
  del : Nat := 0
  scale : Nat := 0
  deriving DecidableEq, Repr

/-- The metadata in 32 bytes. -/
def metaOf (b : Bytes) : SlotMeta :=
  { id := fld b 0 8, attr := fld b 8 8, ins := fld b 16 6, tomb := bit (fld b 22 2) 0, del := fld b 24 6,
    scale := fld b 30 2 }

/-- Read a slot's metadata. -/
def rdMeta (w : Who) (a : Nat) : Act SlotMeta := do return metaOf (← rd w a 32)

/-- Write a slot's metadata with one write. -/
def wrMeta (w : Who) (a : Nat) (m : SlotMeta) : Act Unit :=
  wr w a (toLe 8 m.id ++ toLe 8 m.attr ++ toLe 6 m.ins ++ toLe 2 (b2n m.tomb) ++ toLe 6 m.del ++ toLe 2 m.scale)

/-- sees(q, slot) for a slot below the COUNT read (spec/09 R233). -/
def sees (q : Nat) (m : SlotMeta) : Bool := m.ins ≠ 0 && m.ins ≤ q && !(m.tomb && m.del ≤ q)

/-! ### Keys (spec/09 R215, R218, R220) -/

/-- The converted query: MXINT8 values in blocks of 32 along DIM. -/
def queryVals : Nat → List (BitVec 32) → List Val
  | 0, _ => []
  | f + 1, v =>
    if v = [] then [] else
    let q := mxQuant 8 ((v.take 32).map f32Dec)
    (q.2.map fun c => (elemVal 8 c).mul (scaleVal q.1)) ++ queryVals f (v.drop 32)

/-- The query's sketch: bit i is 1 exactly when element i is greater than +0. -/
def querySketch (v : List (BitVec 32)) : List Bool := v.map fun x => f32Lt 0 x

/-- Bits in which a sketch and code bytes differ. -/
def hamming (sketch : List Bool) (code : Bytes) : Nat :=
  let n := leNat code
  (sketch.zipIdx.filter fun p => p.1 ≠ bit n p.2).length

/-- The exact values of an MXINT8 or INT4 code (spec/09 Table 9-1). -/
def entryVals (code dim : Nat) (b : Bytes) (scale : Nat) : List Val :=
  let sc := elemVal 1 scale
  let n := leNat b
  (List.range dim).map fun i =>
    if code = 1 then ((elemVal 8 (fld b i 1)).mul (scaleVal (fld b (dim + i / 32) 1))).mul sc
    else (elemVal 10 (packGet n 4 i)).mul sc

/-- The key of an entry for inner product or L2: exact, rounded once. -/
def entryKey (metric : Nat) (q v : List Val) : Nat :=
  let terms := (q.zip v).map fun p =>
    if metric = 0 then p.1.mul p.2 else let d := p.1.add p.2.neg; d.mul d
  (f32Enc (Val.sum terms)).toNat

/-- Whether a slot passes the filter. -/
def passesFilter (terms : List (Nat × Nat × Nat)) (attr : Nat) : Bool :=
  terms = [] || (terms.any fun t => terms.all fun u => u.1 ≠ t.1 || attr &&& u.2.1 = u.2.2)

/-! ### QUERY (spec/09 R214, R215, R220) -/

/-- EXHAUSTIVE. -/
def qExhaustive (b : Bytes) : Bool := bit (fld b 2 1) 0
/-- PIN_EPOCH. -/
def qPinned (b : Bytes) : Bool := bit (fld b 2 1) 1
/-- K. -/
def qK (b : Bytes) : Nat := fld b 4 2
/-- REFINE. -/
def qRefine (b : Bytes) : Nat := fld b 8 2
/-- Bytes of SCRATCH. -/
def qScratch (b : Bytes) : Nat := 64 * if qExhaustive b then qK b else max (qK b) (qRefine b)

/-- A QUERY is well formed by itself (spec/09 Table 9-6). -/
def queryOk (b : Bytes) : Bool :=
  fld b 2 1 < 4 && zeroAt b 3 1 && 1 ≤ qK b && qK b ≤ 4096 && (qPinned b || fld b 10 6 = 0) &&
  (qExhaustive b || (1 ≤ fld b 6 2 && fld b 6 2 ≤ 4096 && fld b 32 8 % 64 = 0)) &&
  fld b 16 8 % 64 = 0 && fld b 24 8 % 64 = 0 && fld b 40 8 % 64 = 0 && fld b 48 8 % 64 = 0 && fld b 56 8 % 64 = 0

/-- The terms of a filter record (spec/09 Table 9-7). -/
def filterTerms (f : Bytes) : Option (List (Nat × Nat × Nat)) :=
  let n := fld f 0 1
  let terms := (List.range n).map fun t => (fld f (8 + t) 1, fld f (16 + 16 * t) 8, fld f (24 + 16 * t) 8)
  if n ≤ 8 && zeroAt f 1 7 && terms.all (fun t => t.1 ≤ 7 && t.2.2 &&& t.2.1 = t.2.2) then some terms else none

/-- The checks of a QUERY at the head of its queue, and what they read. -/
def queryCheck (w : Who) (b : Bytes) : Act PclHead := do
  stopIf (!queryOk b || namesWheel [(fld b 16 8, 192)]) .internal
  let d ← rd w (fld b 16 8) 192
  let x := shardOf (fld b 16 8) d
  let ex := qExhaustive b
  stopIf (!ex && (if x.code = 4 then qRefine b < qK b || 16384 < qRefine b else qRefine b ≠ 0)) .internal
  let n := if ex then 0 else fld b 6 2
  stopIf (namesWheel [(fld b 24 8, 4 * x.dim), (fld b 32 8, 4 * n), (fld b 40 8, if fld b 40 8 = 0 then 0 else 144),
    (fld b 48 8, qScratch b), (fld b 56 8, 32 + 32 * qK b)]) .internal
  let probes ← rd w (fld b 32 8) (4 * n)
  let lists := (List.range n).map fun i => fld probes (4 * i) 4
  stopIf (lists.any fun l => l ≥ x.lists) .internal
  if fld b 40 8 = 0 then return { probes := lists }
  let f ← rd w (fld b 40 8) 144
  match filterTerms f with
  | some t => return { probes := lists, terms := t }
  | none => throw .internal

/-- The 32 bytes before the records of a result region (spec/09 Table 9-8). -/
def resultHead (st : Status) (count ties lists epoch seen : Nat) : Bytes :=
  toLe 4 st.code ++ toLe 4 count ++ toLe 4 ties ++ toLe 4 lists ++ toLe 8 epoch ++ toLe 8 seen

/-- A query ends with a status that its summary carries with COUNT 0 (spec/09 R241, R243); a summary that may not be
written makes it INTERNAL. -/
def endSummary (s : State) (k c : Nat) (q : QCmd) (st : Status) (lists epoch seen : Nat) : State :=
  let r := runAct (wr (whoOf (sliceEng k) c) (fld q.bytes 56 8) (resultHead st 0 0 lists epoch seen)) s
  completeCmd r.2 (sliceEng k) c q (if r.1 = .internal then .internal else st)

/-- QUERY: the checks at the head of the queue. -/
def queryHead (s : State) (k c : Nat) : State :=
  headRow s (sliceEng k) c sliceOps 0x80 fun q =>
    if q.checked then s else
    match runActVal (queryCheck (whoOf (sliceEng k) c) q.bytes) s with
    | (.ok h, s) => modSlice (markHead s (sliceEng k) c) k fun x => { x with heads := tabPut x.heads c h }
    | (.error .eccUncorrectable, s) => endSummary (popQ s (sliceEng k) c) k c q .eccUncorrectable 0 0 0
    | (.error st, s) => completeHead s (sliceEng k) c q st

/-- The QUERY that waits at the head of a context's queue for a query context. -/
def waitingQuery (s : State) (k c : Nat) : Option QCmd :=
  (headCmd s (sliceEng k) c).filter fun q => q.checked && cmdOp q.bytes = 0x80 && q.verdict.isNone

/-- Whether a query context is free within the partition's share (spec/09 R215, spec/14 R349). -/
def queryRoom (s : State) (k c : Nat) : Bool :=
  let qs := (getSlice s k).queries
  qs.length < 1024 &&
    (qs.filter fun q => ctxPart q.2.ctx = ctxPart c).length < (getPart s (ctxPart c)).queryCtx.toNat

/-- What admission reads and checks (spec/09 R215, R232). -/
def admitWork (w : Who) (c : Nat) (q : QCmd) (h : PclHead) : Act Query := do
  let b := q.bytes
  let d ← rd w (fld b 16 8) 192
  let x := shardOf (fld b 16 8) d
  let s ← get
  stopIf (!isAttached s x.addr) .disabled
  let now := fld d 64 6
  let e := if qPinned b then fld b 10 6 else now
  stopIf (qPinned b && (now < e || e < fld d 136 6 || (fld d 96 1 ≠ 0 && e < fld d 112 6))) .internal
  stopIf (!mayAccess s w (fld b 48 8) (qScratch b) true || !mayAccess s w (fld b 48 8) (qScratch b) false) .internal
  let v ← rd w (fld b 24 8) (4 * x.dim)
  wrFree w (fld b 48 8) (qScratch b)
  return { ctx := c, cmd := q, shard := x, epoch := e, terms := h.terms, screening := x.code = 4,
           vec := (List.range x.dim).map fun i => BitVec.ofNat 32 (fld v (4 * i) 4)
           probes := if qExhaustive b then List.range x.lists else h.probes.eraseDups }

/-- The contexts with a query to admit on a slice (spec/09 R215). -/
def admitReady (s : State) (k : Nat) : List Nat :=
  (engContexts s (sliceEng k)).filter fun c => (waitingQuery s k c).isSome && queryRoom s k c

/-- QUERY_ADMIT. -/
def queryAdmit (s : State) (k c : Nat) : State :=
  let e := sliceEng k
  match waitingQuery s k c with
  | none => s
  | some q =>
    match takeTurn s e 0 c (admitReady s k) with
    | none => s
    | some s =>
      let h := tabGet {} (getSlice s k).heads c
      let s := modSlice (popQ s e c) k fun x => { x with heads := tabDel x.heads c }
      match runActVal (admitWork (whoOf e c) c q h) s with
      | (.ok x, s) =>
        let o := stampPcl s
        modSlice o.2 k fun y => { y with queries := tabPut y.queries o.1 { x with order := o.1 } }
      | (.error .eccUncorrectable, s) => endSummary s k c q .eccUncorrectable 0 0 0
      | (.error st, s) => completeCmd s e c q st

/-! ### Units (spec/09 R216-R222) -/

/-- The key type and direction of the records a query holds. -/
def queryOrder (x : Query) : Nat × Bool :=
  if x.screening || x.shard.metric = 2 then (2, false) else (0, x.shard.metric = 0)

/-- The cluster's sort/select unit runs a TOPK for a query (spec/10 R259). -/
def countTrim (s : State) (k n : Nat) (st : Status) : State :=
  modSsu s k fun u => { u with commands := u.commands + 1, elements := u.elements + w64 n,
                               short := u.short + w64 (b2n (st = .short)), ties := u.ties + w64 (b2n (st = .tieAtK)) }

/-- The status of a trim that cuts `ties` ties. -/
def trimStatus (ties : Nat) : Status := if ties = 0 then .ok else .tieAtK

/-- Hold a record: what orders after the K-th held is dropped; a full SCRATCH is trimmed; ties cut are counted
(spec/09 R221). The numbers are those of a trim, if one ran. -/
def holdRec (x : Query) (cap : Nat) (r : SelRec) : Query × Option (Nat × Nat) :=
  let o := queryOrder x
  let same := fun (kth : SelRec) (l : List SelRec) => (l.filter fun y => keyEq o.1 y.key kth.key).length
  match x.held[cap - 1]? with
  | none => ({ x with held := insertBy (fun a b => !recBefore o.1 o.2 b a) r x.held }, none)
  | some kth =>
    if recBefore o.1 o.2 kth r then ({ x with cut := x.cut + same kth [r] }, none)
    else
      let held := insertBy (fun a b => !recBefore o.1 o.2 b a) r x.held
      let new := held.getD (cap - 1) {}
      let cut := if keyEq o.1 kth.key new.key then x.cut else 0
      if held.length < 2 * cap then ({ x with held := held, cut := cut }, none)
      else
        let n := same new (held.drop cap)
        ({ x with held := held.take cap, cut := cut + n }, some (held.length, n))

/-- Replace a query. -/
def putQuery (s : State) (k q : Nat) (x : Query) : State :=
  modSlice s k fun y => { y with queries := tabPut y.queries q x }

/-- Whether a query has scanned every list. -/
def Query.scanned (x : Query) : Bool := x.streams = [] && x.probes = []

/-- When the scan ends, the survivors of the screen wait for refinement (spec/09 R219, R225). -/
def afterScan (s : State) (k q : Nat) (x : Query) : State :=
  if x.scanned && x.screening && x.verdict.isNone then
    let s := if qExhaustive x.cmd.bytes then s else countTrim s k x.held.length
      (selectTop 2 false false (qRefine x.cmd.bytes) x.held).status
    putQuery s k q { x with screening := false, held := [], cut := 0
                            todo := x.todo ++ x.held.take (qRefine x.cmd.bytes) }
  else putQuery s k q x

/-- A unit's failure: INTERNAL completes the query at once; another status waits for its summary. -/
def queryFails (s : State) (k q : Nat) (x : Query) (st : Status) : State :=
  if st = .internal then
    completeCmd (modSlice s k fun y => { y with queries := tabDel y.queries q, ended := y.ended + 1 })
      (sliceEng k) x.ctx x.cmd .internal
  else putQuery s k q { x with verdict := some st }

/-- A device field of a descriptor as it stands in memory. -/
def dSeen (s : State) (x : Shard) (off n : Nat) : Nat := leNat (memRead s.mem.bytes (x.addr + off) n)

/-- Whether the update queue holds a packet for the writer. -/
def packetReady (s : State) (x : WriterSlot) : Bool :=
  let q := getSq s x.shard.updq
  q.enable && q.readPkt.toNat < q.commit.toNat

/-- Whether a compaction piece is ready. -/
def pieceReady (s : State) (x : WriterSlot) : Bool :=
  x.flip.isNone && dSeen s x.shard 100 4 < dSeen s x.shard 104 4

/-- Whether the writer of a slot runs. -/
def writerRuns (s : State) (x : WriterSlot) : Bool := x.attached && !x.stopped && (getCtx s x.ctx).enable

/-- Whether a retired chain may go back: every query it waits for has ended. -/
def retireReady (s : State) (x : WriterSlot) : Bool :=
  (writerRuns s x || x.attach.isSome) && !x.stopped &&
    x.flip.any fun o => (activeOn s x.shard.addr).all fun q => o ≤ q.order

/-- Whether a writer has a unit ready. -/
def writerReady (s : State) (x : WriterSlot) : Bool :=
  (writerRuns s x && (packetReady s x || pieceReady s x)) || retireReady s x

/-- Whether a query has a unit ready (spec/09 R217). -/
def Query.unitReady (x : Query) : Bool :=
  x.verdict.isNone && (x.streams ≠ [] || x.probes ≠ [] || (!x.screening && x.todo ≠ []))

/-- The contexts with a unit or command ready on a slice, but for admissions (spec/09 R217, spec/14 R354). -/
def sliceReady (s : State) (k : Nat) : List Nat :=
  (List.range 128).filter fun c =>
    (getSlice s k).queries.any (fun q => q.2.ctx = c && q.2.unitReady) ||
    (getSlice s k).slots.any (fun w => w.2.ctx = c && writerReady s w.2) ||
    (headCmd s (sliceEng k) c).any fun q => q.verdict.isNone && cmdOp q.bytes ≠ 0x80

/-- A unit of a query runs in its context's turn (spec/09 R217). -/
def queryUnit (s : State) (k q : Nat) (ready : Query → Bool) (f : State → Query → State) : State :=
  match tabFind (getSlice s k).queries q with
  | none => s
  | some x =>
    if x.verdict.isSome || !ready x then s else
    match takeTurn s (sliceEng k) 0 x.ctx (sliceReady s k) with
    | some s => f s x
    | none => s

/-- PCL_HEAD_UNIT: a free stream takes the next list and reads its head entry (spec/09 R216). -/
def pclHeadUnit (s : State) (k q stream : Nat) : State :=
  queryUnit s k q (fun x => stream < 4 && x.probes ≠ [] && (tabFind x.streams stream).isNone) fun s x =>
    let l := x.probes.headD 0
    let x := { x with probes := x.probes.tail, lists := x.lists + 1 }
    match runActVal (rdHead (whoOf (sliceEng k) x.ctx) x.shard l) s with
    | (.ok h, s) => afterScan s k q
        (if h.head = 0 then x else { x with streams := tabPut x.streams stream { list := l, block := h.head } })
    | (.error st, s) => queryFails s k q x st

/-- One slot of a block (spec/09 R218-R222, R233). -/
def examineSlot (w : Who) (k : Nat) (t : PclStream) (x : Query) (i : Nat) : Act Query := do
  let m ← rdMeta w (x.shard.metaAt t.block i)
  if !sees x.epoch m || !passesFilter x.terms m.attr then return x
  let a := x.shard.codeAt t.block i
  let dim := x.shard.dim
  let s ← get
  let x := { x with seen := x.seen + 1 }
  let pos := ownModule s * 2 ^ 52 + t.list % 2 ^ 20 * 2 ^ 32 + (t.ord + i) % 2 ^ 32
  let r : SelRec := { pay := m.id, pos := pos, aux := m.attr, at_ := a + dim / 8, scale := m.scale }
  let key ← if x.screening || x.shard.metric = 2 then do
      let b ← rd w a (dim / 8)
      pure (hamming (querySketch x.vec) b)
    else do
      let b ← rd w a (codeBytes x.shard.code dim)
      pure (entryKey x.shard.metric (queryVals dim x.vec) (entryVals x.shard.code dim b m.scale))
  let r := { r with key := key }
  if !r.valid then return x
  if x.screening && qExhaustive x.cmd.bytes then return { x with todo := x.todo ++ [r] }
  let h := holdRec x (if x.screening then qRefine x.cmd.bytes else qK x.cmd.bytes) r
  actMod fun s => match h.2 with | some (n, ties) => countTrim s k n (trimStatus ties) | none => s
  return h.1

/-- The work of a block unit. -/
def blockWork (w : Who) (k stream : Nat) (t : PclStream) (x : Query) : Act Query := do
  let h ← rdHdr w t.block
  let n := min h.count x.shard.epb
  let x ← if h.minEpoch = 0 || x.epoch < h.minEpoch then pure x
    else (List.range n).foldlM (examineSlot w k t) x
  return { x with streams := if h.next = 0 then tabDel x.streams stream
                             else tabPut x.streams stream { t with block := h.next, ord := t.ord + n } }

/-- PCL_BLOCK_UNIT. -/
def pclBlockUnit (s : State) (k q stream : Nat) : State :=
  queryUnit s k q (fun x => (tabFind x.streams stream).isSome) fun s x =>
    let s := modSlice s k fun y => { y with blocks := y.blocks + 1 }
    match runActVal (blockWork (whoOf (sliceEng k) x.ctx) k stream (tabGet {} x.streams stream) x) s with
    | (.ok x, s) => afterScan s k q x
    | (.error st, s) => queryFails s k q x st

/-- PCL_REFINE_UNIT (spec/09 R219). -/
def pclRefineUnit (s : State) (k q : Nat) : State :=
  queryUnit s k q (fun x => x.scanned && !x.screening && x.todo ≠ []) fun s x =>
    let r := x.todo.headD {}
    let x := { x with todo := x.todo.tail }
    match runActVal (rd (whoOf (sliceEng k) x.ctx) r.at_ (x.shard.dim / 2)) s with
    | (.ok b, s) =>
      let key := entryKey x.shard.metric (queryVals x.shard.dim x.vec) (entryVals 2 x.shard.dim b r.scale)
      let h := holdRec x (qK x.cmd.bytes) { r with key := key }
      let s := match h.2 with | some (n, ties) => countTrim s k n (trimStatus ties) | none => s
      putQuery s k q h.1
    | (.error st, s) => queryFails s k q x st

/-! ### Results (spec/09 R221, R223) -/

/-- The selection a finished query makes: its ties include those cut on the way. -/
def finalSelect (x : Query) : Selected :=
  let o := queryOrder x
  let r := selectTop o.1 o.2 false (qK x.cmd.bytes) x.held
  if r.status = .short then r
  else { r with ties := r.ties + x.cut, status := if r.ties + x.cut = 0 then .ok else .tieAtK }

/-- The writes of a finished query. -/
def resultWork (w : Who) (x : Query) (r : Selected) : Act Unit := do
  let a := fld x.cmd.bytes 56 8
  wrFree w (fld x.cmd.bytes 48 8) (qScratch x.cmd.bytes)
  wr w (a + 32) (r.out.map (recBytes (queryOrder x).1)).flatten
  wr w a (resultHead r.status r.count r.ties x.lists x.epoch x.seen)

/-- QUERY_RESULT_WRITE: a query that has ended writes its result region and completes. -/
def queryResult (s : State) (k q : Nat) : State :=
  match tabFind (getSlice s k).queries q with
  | none => s
  | some x =>
    let gone := fun s => modSlice s k fun y => { y with queries := tabDel y.queries q, ended := y.ended + 1 }
    match x.verdict with
    | some st => endSummary (gone s) k x.ctx x.cmd st x.lists x.epoch x.seen
    | none =>
      if x.scanned && !x.screening && x.todo = [] then
        let r := finalSelect x
        let s := countTrim (gone s) k x.held.length r.status
        match runAct (resultWork (whoOf (sliceEng k) x.ctx) x r) s with
        | (.ok, s) => completeCmd s (sliceEng k) x.ctx x.cmd r.status
        | (.internal, s) => completeCmd s (sliceEng k) x.ctx x.cmd .internal
        | (st, s) => endSummary s k x.ctx x.cmd st x.lists x.epoch x.seen
      else s

/-! ### The rows -/

/-- QUERY. -/
def execQuery (k ctx : Nat) (s : State) : Host.Outcome State Fault Refusal := .next (queryHead s k ctx)
/-- QUERY_ADMIT. -/
def execQueryAdmit (k ctx : Nat) (s : State) : Host.Outcome State Fault Refusal := .next (queryAdmit s k ctx)
/-- PCL_HEAD_UNIT. -/
def execPclHeadUnit (k q stream : Nat) (s : State) : Host.Outcome State Fault Refusal := .next (pclHeadUnit s k q stream)
/-- PCL_BLOCK_UNIT. -/
def execPclBlockUnit (k q stream : Nat) (s : State) : Host.Outcome State Fault Refusal :=
  .next (pclBlockUnit s k q stream)
/-- PCL_REFINE_UNIT. -/
def execPclRefineUnit (k q : Nat) (s : State) : Host.Outcome State Fault Refusal := .next (pclRefineUnit s k q)
/-- QUERY_RESULT_WRITE. -/
def execQueryResultWrite (k q : Nat) (s : State) : Host.Outcome State Fault Refusal := .next (queryResult s k q)

end Sys2Proof.Machine
end

