-- ==== Sys2Proof/Machine/PclWriter.lean ====
section
/-! DEFINITION. The shard writer of a percolator slice: ATTACH, DETACH, COMPACT, update packets and compaction
(spec/09 R227-R231, R235-R242, R495). -/

namespace Sys2Proof.Machine

/-- A writer slot of a slice. -/
def getSlot (s : State) (k w : Nat) : Option WriterSlot := tabFind (getSlice s k).slots w

/-- Replace a writer slot. -/
def putSlot (s : State) (k w : Nat) (x : WriterSlot) : State :=
  modSlice s k fun y => { y with slots := tabPut y.slots w x }

/-- The writer's accesses (spec/09 R495). -/
def whoWriter (k c : Nat) : Who := whoOf (sliceEng k) c

/-! ### The descriptor and the chains (spec/09 R210, R237) -/

/-- A device field of a descriptor. -/
def dGet (w : Who) (x : Shard) (off n : Nat) : Act Nat := rdNat w (x.addr + off) n
/-- Write a device field of a descriptor. -/
def dPut (w : Who) (x : Shard) (off n v : Nat) : Act Unit := wrNat w (x.addr + off) n v

/-- The writer may write a range; what it is about to do to the free chain and the step record must not stop halfway, so it asks
first (spec/09 R237). -/
def mayWrite (w : Who) (a n : Nat) : Act Unit := do
  let s ← get
  stopIf (!mayAccess s w a n true) .internal

/-- The descriptor can be read and written: no later access to it stops. -/
def descReady (w : Who) (x : Shard) : Act Unit := do
  let _ ← rd w x.addr 192
  mayWrite w x.addr 192

/-- Record the chain a step holds. -/
def dChain (w : Who) (x : Shard) (first last n : Nat) : Act Unit := do
  dPut w x 108 4 n
  dPut w x 120 8 first
  dPut w x 128 8 last

/-- Return one block to the free chain. -/
def giveBlock (w : Who) (x : Shard) (a : Nat) : Act Unit := do
  wrHdr w a { next := ← dGet w x 72 8, list := 0xFFFFFFFF }
  dPut w x 72 8 a
  dPut w x 80 4 ((← dGet w x 80 4) + 1)

/-- The blocks of a chain from `a`, at most `n`. -/
def walkChain (w : Who) : Nat → Nat → Act (List Nat)
  | 0, _ => pure []
  | n + 1, a => if a = 0 then pure [] else do
    let h ← rdHdr w a
    return a :: (← walkChain w n h.next)

/-- The chain the step record holds. -/
def heldChain (w : Who) (x : Shard) : Act (List Nat) := do
  walkChain w (← dGet w x 108 4) (← dGet w x 120 8)

/-- Return the blocks of a chain to the free chain: all of them, or none. -/
def giveChain (w : Who) (x : Shard) (chain : List Nat) : Act Unit := do
  descReady w x
  chain.forM fun a => mayWrite w a 64
  chain.forM (giveBlock w x)

/-- Take a block of the free chain for list `l`; MAP_OVERFLOW stands for an empty chain. -/
def takeBlock (w : Who) (x : Shard) (l : Nat) : Act Nat := do
  let a ← dGet w x 72 8
  stopIf (a = 0) .mapOverflow
  let h ← rdHdr w a
  mayWrite w a 4096
  dPut w x 72 8 h.next
  dPut w x 80 4 ((← dGet w x 80 4) - 1)
  wrHdr w a { list := l }
  return a

/-- Undo the batch in progress from the journal (spec/09 R240). -/
def undoBatch (w : Who) (x : Shard) : Act Unit := do
  let p ← dGet w x 88 8
  let e := p % 2 ^ 48
  if e ≠ 0 then
    (List.range (bits p 62 48)).forM fun j => do
      let v ← rdNat w (x.journal + 8 * j) 8
      let a := v % 2 ^ 48
      let m ← rdMeta w a
      if bit v 63 then
        if m.del = e && m.tomb then
          wrMeta w a { m with tomb := false, del := 0 }
          let h ← rdHdr w (a / 4096 * 4096)
          wrHdr w (a / 4096 * 4096) { h with tombs := h.tombs - 1 }
      else wrMeta w a { m with ins := 0 }
    dPut w x 88 8 0

/-! ### ATTACH (spec/09 R239, R240) -/

/-- A descriptor's fields are all within Table 9-2, and its structures lie where they may (spec/09 R239). -/
def descOk9 (addr : Nat) (d : Bytes) : Bool :=
  let x := shardOf addr d
  let cfmt := fld d 3 1
  let largest := if x.code = 1 then 3840 else 4096
  let panel := ceilDiv x.lists (tileN cfmt) * (x.dim / 64) * up64 (tileSize cfmt)
  fld d 0 1 = 1 && bits (fld d 1 1) 7 4 = 0 && 1 ≤ x.code && x.code ≤ 4 && x.metric ≤ 2 &&
  bits (fld d 2 1) 3 2 ≤ 1 && bits (fld d 2 1) 7 4 = 0 && (x.metric = 2) == (x.code = 3) &&
  (cfmt = 3 || cfmt = 8 || cfmt = 1) && x.dim % 64 = 0 && 64 ≤ x.dim && x.dim ≤ largest &&
  x.csz = ceilDiv (codeBytes x.code x.dim) 32 * 32 && 1 ≤ x.lists && x.lists ≤ 1048576 &&
  bits (fld d 12 1) 7 4 = 0 && zeroAt d 13 3 && fld d 16 8 % 64 = 0 && x.heads % 64 = 0 &&
  fld d 32 8 % 4096 = 0 && 1 ≤ fld d 40 4 && zeroAt d 46 2 && x.journal % 64 = 0 && zeroAt d 56 8 &&
  zeroAt d 70 2 && !bit (fld d 88 8) 63 && fld d 96 1 ≤ 2 && zeroAt d 97 3 && zeroAt d 118 2 && zeroAt d 142 2 &&
  zeroAt d 152 40 &&
  [(addr, 192), (fld d 16 8, panel), (x.heads, 32 * x.lists), (fld d 32 8, 4096 * fld d 40 4), (x.journal, 131072)].all
    fun r => decide (r.1 + r.2 ≤ wheelBase)

/-- The shared layout of ATTACH, DETACH and COMPACT (spec/09 Table 9-12). -/
def shardCmdOk (b : Bytes) : Bool :=
  zeroAt b 2 6 && zeroAt b 24 40 && fld b 8 8 % 64 = 0 && !namesWheel [(fld b 8 8, 192)] &&
  (if cmdOp b = 0x83 then 1 ≤ fld b 20 4 else zeroAt b 16 8)

/-- Recovery: a batch in progress is undone, a chain that was being copied goes back; 2 says a retiring chain waits. -/
def recoverShard (w : Who) (x : Shard) : Act Nat := do
  undoBatch w x
  let st ← dGet w x 96 1
  if st = 1 then
    giveChain w x (← heldChain w x)
    dChain w x 0 0 0
    dPut w x 96 1 0
  pure st

/-- ATTACH's checks and recovery. -/
def attachWork (k c : Nat) (b : Bytes) : Act (Nat × WriterSlot) := do
  let w := whoWriter k c
  stopIf (!shardCmdOk b) .internal
  let a := fld b 8 8
  let d ← rd w a 192
  let x := shardOf a d
  let s ← get
  stopIf (bits (fld d 12 1) 3 0 ≠ k || !descOk9 a d || (getSq s x.updq).consumer.toNat ≠ c || (slotOf s a).isSome)
    .internal
  match (List.range 4).find? fun i => (getSlot s k i).isNone with
  | none => throw .internal
  | some i =>
    descReady w x
    let st ← recoverShard w x
    let s ← get
    let o := stampPcl s
    if st = 2 then set o.2
    return (i, { shard := x, ctx := c, attached := st ≠ 2, flip := if st = 2 then some o.1 else none })

/-- A row about an ATTACH, DETACH or COMPACT at the head of its queue. -/
def shardHead (s : State) (k c op : Nat) (f : State → QCmd → State) : State :=
  headRow s (sliceEng k) c sliceOps op fun q =>
    match takeTurn s (sliceEng k) 0 c (sliceReady s k) with
    | some s => f s q
    | none => s

/-- ATTACH is done: the shard is attached, its update queue stands at its mark, and the command completes (spec/09 R240). -/
def attachDone (s : State) (k i : Nat) (x : WriterSlot) (q : QCmd) : State :=
  let s := putSlot s k i { x with attached := true, attach := none, flip := none }
  let s := modSq s x.shard.updq fun y => (rewindRead y).getD (setMark y)
  completeCmd s (sliceEng k) x.ctx q .ok

/-- PCL_ATTACH: recovery; a chain that was retiring makes it wait for the queries active now (spec/09 R240). -/
def pclAttach (s : State) (k c : Nat) : State :=
  shardHead s k c 0x81 fun s q =>
    match runActVal (attachWork k c q.bytes) s with
    | (.error st, s) => completeHead s (sliceEng k) c q st
    | (.ok (i, x), s) =>
      let s := popQ s (sliceEng k) c
      if x.attached then attachDone s k i x q else putSlot s k i { x with attach := some q }

/-- ATTACH commands that wait and meet a test end, and their shards are not attached. -/
def endAttaches (s : State) (k : Nat) (test : WriterSlot → Bool) (st : Status) : State :=
  let gone := (getSlice s k).slots.filter fun p => p.2.attach.isSome && test p.2
  let s := modSlice s k fun y => { y with slots := y.slots.filter fun p => !(p.2.attach.isSome && test p.2) }
  gone.foldl (fun s p => match p.2.attach with
    | some q => completeCmd s (sliceEng k) p.2.ctx q st
    | none => s) s

/-! ### DETACH (spec/09 R241, spec/15 R387-R390) -/

/-- The writer slot of this slice that a DETACH or COMPACT names, or how the command ends (spec/09 R239). -/
def namedSlot (k c : Nat) (b : Bytes) : Act (Nat × WriterSlot) := do
  stopIf (!shardCmdOk b) .internal
  let d ← rd (whoWriter k c) (fld b 8 8) 192
  stopIf (bits (fld d 12 1) 3 0 ≠ k) .internal
  let s ← get
  match slotOf s (fld b 8 8) with
  | some (k', i, x) =>
    stopIf (k' ≠ k || x.attach.isSome) .disabled
    stopIf (x.attached && x.ctx ≠ c) .internal
    return (i, x)
  | none => throw .disabled

/-- Work a query still has to do. -/
def Query.working (x : Query) : Bool := !(x.scanned && !x.screening && x.todo = []) && x.verdict.isNone

/-- Running queries that meet a test stop at their next step boundary (spec/15 R388). -/
def abortQueries (s : State) (test : Query → Bool) : State :=
  let mark (_ : Nat) (x : Query) : Query :=
    if test x && x.working then { x with verdict := some .abortedDisabled } else x
  let slices := tabMap (fun _ (y : SliceSt) => { y with queries := tabMap mark y.queries }) s.pcl.slices
  { s with pcl := { s.pcl with slices := slices } }

/-- Whether a queued command is a QUERY of a shard. -/
def namesShard (desc : Nat) (e : Eng) (_c : Nat) (q : QCmd) : Bool :=
  e.kind = .slice && cmdOp q.bytes = 0x80 && fld q.bytes 16 8 = desc

/-- PCL_DETACH: the disable point; the command completes when every query of the shard has ended. -/
def pclDetach (s : State) (k c : Nat) : State :=
  shardHead s k c 0x82 fun s q =>
    match runActVal (namedSlot k c q.bytes) s with
    | (.error st, s) => completeHead s (sliceEng k) c q st
    | (.ok (i, x), s) =>
      let s := putSlot (popQ s (sliceEng k) c) k i { x with attached := false, detach := x.detach ++ [(c, q)] }
      markQueued (abortQueries s fun y => y.shard.addr = x.shard.addr) (namesShard x.shard.addr)

/-- The disable of a shard finishes: nothing in flight uses it; the slot is free and the DETACH completes
(spec/15 R390). -/
def detachFinish (s : State) (k i : Nat) : State :=
  match getSlot s k i with
  | none => s
  | some x =>
    let a := x.shard.addr
    if x.attached || x.attach.isSome || activeOn s a ≠ [] ||
        anyQueued s (fun e c q => namesShard a e c q && q.verdict.isSome) then s
    else
      let s := modSlice s k fun y => { y with slots := tabDel y.slots i }
      x.detach.foldl (fun s p => completeCmd s (sliceEng k) p.1 p.2 .ok) s

/-! ### COMPACT (spec/09 R235, R238) -/

/-- Whether a run is in progress. -/
def runActive (s : State) (x : WriterSlot) : Bool :=
  dSeen s x.shard 100 4 < dSeen s x.shard 104 4 || dSeen s x.shard 96 1 ≠ 0 || x.step.isSome

/-- COMPACT: the run is recorded. -/
def compactWork (k c : Nat) (b : Bytes) : Act Unit := do
  let p ← namedSlot k c b
  stopIf (!p.2.attached) .disabled
  let s ← get
  stopIf (fld b 16 4 + fld b 20 4 > p.2.shard.lists || runActive s p.2) .internal
  dPut (whoWriter k c) p.2.shard 100 4 (fld b 16 4)
  dPut (whoWriter k c) p.2.shard 104 4 (fld b 16 4 + fld b 20 4)

/-- COMPACT at the head of its queue. -/
def compactHead (s : State) (k c : Nat) : State :=
  shardHead s k c 0x83 fun s q =>
    let r := runAct (compactWork k c q.bytes) s
    completeHead r.2 (sliceEng k) c q r.1

/-! ### Update packets (spec/09 R227-R231, R236) -/

/-- A slot a packet touches: its block, its index, its metadata before the stamp, and an insert's code. -/
structure Touch where
  block : Nat := 0
  slot : Nat := 0
  info : SlotMeta := {}
  code : Bytes := []
  deriving DecidableEq, Repr

/-- The plan of a packet: what it changes, found before anything is written. -/
structure Plan where
  insert : Bool := true
  touched : List Touch := []
  hdrs : Tab BlockHdr := []
  heads : Tab HeadEntry := []
  new : List Nat := []
  free : Nat := 0
  avail : Nat := 0
  deriving DecidableEq, Repr

/-- A header the plan has changed, or the one in memory. -/
def planHdr (w : Who) (x : Plan) (a : Nat) : Act BlockHdr :=
  match tabFind x.hdrs a with
  | some h => pure h
  | none => rdHdr w a

/-- A head entry the plan has changed, or the one in memory. -/
def planHead (w : Who) (sh : Shard) (x : Plan) (l : Nat) : Act HeadEntry :=
  match tabFind x.heads l with
  | some h => pure h
  | none => rdHead w sh l

/-- The tail block with room for an insert, a new block linked where the tail is full; MAP_OVERFLOW stands for a packet
the free blocks do not suffice for. -/
def planTail (w : Who) (sh : Shard) (x : Plan) (l : Nat) (h : HeadEntry) : Act (Plan × HeadEntry) := do
  let t ← if h.tail = 0 then pure { count := sh.epb } else planHdr w x h.tail
  if t.count < sh.epb then return (x, h)
  stopIf (x.free = 0 || x.avail = x.new.length) .mapOverflow
  let nb := x.free
  let f ← rdHdr w nb
  let hdrs := if h.tail = 0 then x.hdrs else tabPut x.hdrs h.tail { t with next := nb }
  return ({ x with hdrs := tabPut hdrs nb { list := l }, new := x.new ++ [nb], free := f.next },
          { h with head := if h.tail = 0 then nb else h.head, tail := nb, blocks := h.blocks + 1 })

/-- Plan one insert record: its record word and its code. -/
def planInsert (w : Who) (sh : Shard) (x : Plan) (rc : Bytes × Bytes) : Act Plan := do
  let l := fld rc.1 0 4
  let h ← planHead w sh x l
  let (x, h) ← planTail w sh x l h
  let t ← planHdr w x h.tail
  return { x with
    touched := x.touched ++ [{ block := h.tail, slot := t.count, code := rc.2,
                               info := { id := fld rc.1 8 8, attr := fld rc.1 16 8, scale := fld rc.1 4 2 } }]
    hdrs := tabPut x.hdrs h.tail { t with count := t.count + 1 }
    heads := tabPut x.heads l { h with slots := h.slots + 1 } }

/-- The live slots with an ID in one block. -/
def liveIn (w : Who) (sh : Shard) (id a : Nat) (h : BlockHdr) : Act (List Touch) :=
  (List.range (min h.count sh.epb)).foldlM (fun (acc : List Touch) i => do
    let m ← rdMeta w (sh.metaAt a i)
    return if m.id = id && m.ins ≠ 0 && !m.tomb then acc ++ [{ block := a, slot := i, info := m }] else acc) []

/-- Plan one delete record: every live slot of its list with its ID, and during its list's step those of the chain the step
record holds, the copies made so far or the old chain (spec/09 R231, R236). -/
def planDelete (w : Who) (sh : Shard) (x : Plan) (rec' : Bytes) : Act Plan := do
  let l := fld rec' 0 4
  let h ← rdHead w sh l
  let chain ← walkChain w (2 ^ 32) h.head
  let during := (← dGet w sh 96 1) ≠ 0 && (← dGet w sh 100 4) = l
  let held ← if during then heldChain w sh else pure []
  (chain ++ held).foldlM (fun (x : Plan) a => do
    let hd ← planHdr w x a
    let found ← liveIn w sh (fld rec' 8 8) a hd
    let fresh := found.filter fun t => !x.touched.any fun u => u.block = t.block && u.slot = t.slot
    return if fresh = [] then x else { x with touched := x.touched ++ fresh, hdrs := tabPut x.hdrs a hd }) x

/-- Whether a record word is well formed. -/
def recordOk (sh : Shard) (ins : Bool) (r : Bytes) : Bool :=
  fld r 0 4 < sh.lists && zeroAt r 6 2 && zeroAt r 24 8 && (ins || (zeroAt r 4 2 && zeroAt r 16 8))

/-- Check a whole packet and find the slots it touches, all of which the writer may write; any error rejects it (spec/09 R228,
R243, R495, spec/18 R468). -/
def planPacket (w : Who) (sh : Shard) (words : List Bytes) : Act Plan := do
  let h := words.headD []
  let n := fld h 4 4
  let ins := fld h 0 1 = 1
  let per := if ins then 1 + sh.csz / 32 else 1
  stopIf (!((fld h 0 1 = 1 || fld h 0 1 = 2) && zeroAt h 1 3 && zeroAt h 8 24 && 1 ≤ n && n ≤ 4095 &&
    words.length = 1 + n * per)) .internal
  let recs := (List.range n).map fun r =>
    (words.getD (1 + r * per) [], (((words.drop (2 + r * per)).take (per - 1)).flatten))
  stopIf (!recs.all fun r => recordOk sh ins r.1) .internal
  stopIf ((← dGet w sh 64 6) ≥ 2 ^ 48 - 1) .internal
  let x0 : Plan := { insert := ins, free := ← dGet w sh 72 8, avail := ← dGet w sh 80 4 }
  let x ← if ins then recs.foldlM (planInsert w sh) x0
    else recs.foldlM (fun x r => planDelete w sh x r.1) x0
  stopIf (x.touched.length > 16384 || (ins && (← dGet w sh 84 4) + n ≥ 2 ^ 32)) .internal
  descReady w sh
  x.hdrs.forM fun h => mayWrite w h.1 4096
  x.heads.forM fun h => mayWrite w (sh.heads + 32 * h.1) 32
  return x

/-- Journal, batch mark, and the inserts unstamped (spec/09 R229). -/
def writeBatch (w : Who) (sh : Shard) (x : Plan) (e : Nat) : Act Unit := do
  x.touched.zipIdx.forM fun t =>
    wrNat w (sh.journal + 8 * t.2) 8 (sh.metaAt t.1.block t.1.slot + (if x.insert then 0 else 2 ^ 63))
  dPut w sh 88 8 (x.touched.length * 2 ^ 48 + e)
  if x.insert then
    x.new.forM fun a => wrHdr w a (tabGet {} x.hdrs a)
    x.touched.forM fun t => do
      wrMeta w (sh.metaAt t.block t.slot) t.info
      wr w (sh.codeAt t.block t.slot) t.code
    x.hdrs.forM fun h => wrHdr w h.1 h.2
    x.heads.forM fun h => wrHead w sh h.1 h.2
    dPut w sh 72 8 x.free
    dPut w sh 80 4 (x.avail - x.new.length)
    dPut w sh 84 4 ((← dGet w sh 84 4) + x.touched.length)

/-- Stamps, block epochs and tombs, the publish, and the end of the batch (spec/09 R229). -/
def publishBatch (w : Who) (sh : Shard) (x : Plan) (e : Nat) : Act Unit := do
  x.touched.forM fun t => wrMeta w (sh.metaAt t.block t.slot)
    (if x.insert then { t.info with ins := e } else { t.info with tomb := true, del := e })
  x.hdrs.forM fun ah => do
    let n := (x.touched.filter fun t => t.block = ah.1).length
    let h := ah.2
    let lowest := if h.minEpoch = 0 then e else min h.minEpoch e
    let stamped : BlockHdr := if x.insert then { h with minEpoch := lowest, maxEpoch := max h.maxEpoch e }
      else { h with tombs := h.tombs + n }
    if n ≠ 0 then wrHdr w ah.1 stamped
  dPut w sh 64 8 e
  dPut w sh 88 8 0
  dPut w sh 144 8 ((← dGet w sh 144 8) + 1)

/-- A packet is released, and the mark moves to the next (spec/09 R230). -/
def releasePacket (s : State) (q : Nat) : State :=
  releaseQ (modSq s q fun x => setMark ((dropRest x).getD x)) q false

/-- A packet is rejected whole (spec/09 R228). -/
def rejectPacket (s : State) (k : Nat) (x : WriterSlot) (n : Nat) : State :=
  let s := logEntry s { code := some .updateRejected, source := engSrc (sliceEng k), ctx := some (BitVec.ofNat 7 x.ctx),
                        detail := toLe 8 x.shard.addr ++ toLe 8 n }
  releasePacket (modSlice s k fun y => { y with rejected := y.rejected + 1 }) x.shard.updq

/-- The words of packet `k`, which its frame names, read from the queue's ring (spec/09 R495, spec/08 Table 8-1). -/
def packetWords (w : Who) (x : SlipQ) (k : Nat) : Act (List Bytes) := do
  let f ← rd w (frameAddr x k) 16
  (List.range (fld f 8 2)).mapM fun i => rd w (wordAddr x (fld f 0 8 + i)) 32

/-- The whole application of a packet: whether it is published. -/
def applyPacket (w : Who) (sh : Shard) (q : SlipQ) (k : Nat) (s : State) : Bool × State :=
  match runActVal (do planPacket w sh (← packetWords w q k)) s with
  | (.error _, s) => (false, s)
  | (.ok x, s) =>
    match runAct (do
        let e := (← dGet w sh 64 6) + 1
        writeBatch w sh x e
        publishBatch w sh x e) s with
    | (.ok, s) => (true, s)
    | (_, s) => (false, (runAct (undoBatch w sh) s).2)

/-- UPDATE_PACKET_APPLY. -/
def updatePacketApply (s : State) (k i : Nat) : State :=
  match getSlot s k i with
  | none => s
  | some x =>
    if !writerRuns s x || !packetReady s x || (x.packetLast && pieceReady s x) then s else
    match takeTurn s (sliceEng k) 0 x.ctx (sliceReady s k) with
    | none => s
    | some s =>
      let q := getSq s x.shard.updq
      let n := q.readPkt.toNat
      let s := modSq (putSlot s k i { x with packetLast := true }) x.shard.updq setMark
      let r := applyPacket (whoWriter k x.ctx) x.shard q n s
      if r.1 then releasePacket r.2 x.shard.updq else rejectPacket r.2 k x n

/-! ### Compaction (spec/09 R235-R238) -/

/-- The step of the list ends, and the run goes on with the next. -/
def nextList (w : Who) (x : Shard) : Act Unit := do
  dPut w x 96 1 0
  dPut w x 112 8 0
  dChain w x 0 0 0
  dPut w x 100 4 ((← dGet w x 100 4) + 1)

/-- Where the next copied slot goes: the last block of the new chain, or a block taken for it. -/
def copyTarget (w : Who) (x : Shard) (t : CmpStep) : Act (CmpStep × Nat × BlockHdr) := do
  let last := t.new.getLastD 0
  let h ← if last = 0 then pure { count := x.epb } else rdHdr w last
  if h.count < x.epb then
    mayWrite w last 4096
    return (t, last, h)
  if last ≠ 0 then mayWrite w last 64
  let nb ← takeBlock w x t.list
  if last ≠ 0 then wrHdr w last { h with next := nb }
  let t := { t with new := t.new ++ [nb] }
  dChain w x (t.new.headD 0) nb t.new.length
  return (t, nb, { list := t.list })

/-- Copy one slot to the new chain unless the step removes it. -/
def copySlot (w : Who) (x : Shard) (a : Nat) (t : CmpStep) (i : Nat) : Act CmpStep := do
  let m ← rdMeta w (x.metaAt a i)
  if m.ins = 0 || (m.tomb && m.del ≤ t.floor) then return t
  let code ← rd w (x.codeAt a i) x.csz
  let (t, b, h) ← copyTarget w x t
  wrMeta w (x.metaAt b h.count) m
  wr w (x.codeAt b h.count) code
  wrHdr w b { h with count := h.count + 1, tombs := h.tombs + b2n m.tomb
                     minEpoch := if h.minEpoch = 0 then m.ins else min h.minEpoch m.ins
                     maxEpoch := max h.maxEpoch m.ins }
  return t

/-- Copy up to `n` blocks of the old chain; the step under way is kept in its slot as it grows. -/
def copyBlocks (w : Who) (k i : Nat) (x : Shard) : Nat → CmpStep → Act CmpStep
  | 0, t => pure t
  | n + 1, t => if t.next = t.tail || t.next = 0 then pure t else do
    let h ← rdHdr w t.next
    let t ← (List.range (min h.count x.epb)).foldlM (fun t j => do
      let t ← copySlot w x t.next t j
      actMod fun s => match getSlot s k i with
        | some y => putSlot s k i { y with step := some t }
        | none => s
      return t) t
    copyBlocks w k i x n { t with old := t.old ++ [t.next], next := h.next }

/-- The flip (spec/09 R235). -/
def flipStep (w : Who) (x : Shard) (t : CmpStep) : Act Unit := do
  let h ← rdHead w x t.list
  let shared ← walkChain w (2 ^ 32) t.tail
  let counts ← (t.new ++ shared).mapM fun a => do return (← rdHdr w a).count
  mayWrite w (x.heads + 32 * t.list) 32
  let last := t.new.getLastD 0
  if last ≠ 0 then wrHdr w last { (← rdHdr w last) with next := t.tail }
  wrHead w x t.list { head := t.new.headD t.tail, tail := h.tail, slots := counts.sum
                      blocks := counts.length, flips := h.flips + 1 }
  dPut w x 84 4 ((← dGet w x 84 4) + counts.sum - h.slots)
  dPut w x 136 8 (max (← dGet w x 136 6) t.floor)
  dPut w x 96 1 2
  dChain w x (t.old.headD 0) (t.old.getLastD 0) t.old.length

/-- A step is abandoned: the new chain goes back, the list stays old (spec/09 R238, R495). Where the descriptor itself cannot be
written, the record keeps the chain and the writer stops (log 25). -/
def abandonStep (s : State) (k i : Nat) (x : WriterSlot) (st : Status) : State :=
  let w := whoWriter k x.ctx
  let l := dSeen s x.shard 100 4
  let new := match (getSlot s k i).bind (·.step) with | some t => t.new | none => []
  let s := match runAct (do giveChain w x.shard new; nextList w x.shard) s with
    | (.ok, s) => putSlot s k i { x with step := none, packetLast := false }
    | (_, s) => putSlot s k i { x with stopped := true }
  logEntry s { code := some .stepAbandoned, source := engSrc (sliceEng k), ctx := some (BitVec.ofNat 7 x.ctx), status := st,
               detail := toLe 8 x.shard.addr ++ toLe 4 l ++ toLe 2 st.code }

/-- The lowest of the shard's epoch and the epochs of its active queries. -/
def stepFloor (s : State) (desc epoch : Nat) : Nat := (activeOn s desc).foldl (fun m q => min m q.epoch) epoch

/-- Start a step where none is under way; none where the list has nothing to copy (spec/09 R235). -/
def startStep (w : Who) (x : Shard) (step : Option CmpStep) : Act (Option CmpStep) := do
  match step with
  | some t => return some t
  | none =>
    let l ← dGet w x 100 4
    let h ← rdHead w x l
    if h.head = h.tail then nextList w x; return none
    let e ← dGet w x 64 6
    let s ← get
    let floor := stepFloor s x.addr e
    dPut w x 96 1 1
    dPut w x 112 8 floor
    dChain w x 0 0 0
    return some { list := l, floor := floor, tail := h.tail, next := h.head }

/-- The work of a piece: the step it leaves, and whether it flipped. -/
def pieceWork (k i : Nat) (x : WriterSlot) : Act (Option CmpStep × Bool) := do
  let w := whoWriter k x.ctx
  descReady w x.shard
  match ← startStep w x.shard x.step with
  | none => return (none, false)
  | some t =>
    let t ← copyBlocks w k i x.shard 8 t
    if t.next = t.tail || t.next = 0 then flipStep w x.shard t; return (none, true)
    else return (some t, false)

/-- COMPACTION_PIECE. -/
def compactionPiece (s : State) (k i : Nat) : State :=
  match getSlot s k i with
  | none => s
  | some x =>
    if !writerRuns s x || !pieceReady s x || (!x.packetLast && packetReady s x) then s else
    match takeTurn s (sliceEng k) 0 x.ctx (sliceReady s k) with
    | none => s
    | some s =>
      match runActVal (pieceWork k i x) s with
      | (.error st, s) => abandonStep s k i x st
      | (.ok (step, flipped), s) =>
        if flipped then
          let o := stampPcl s
          let s := putSlot o.2 k i { x with step := none, packetLast := false, flip := some o.1 }
          modSlice s k fun y => { y with flips := y.flips + 1 }
        else putSlot s k i { x with step := step, packetLast := false }

/-- COMPACTION_RETIRE: the old chain goes back once every query admitted before the flip has ended, and an ATTACH that waited for
it is done. An access that fails here stops the writer, or ends that ATTACH (log 25). -/
def compactionRetire (s : State) (k i : Nat) : State :=
  match getSlot s k i with
  | none => s
  | some x =>
    if !retireReady s x then s else
    match takeTurn s (sliceEng k) 0 x.ctx (sliceReady s k) with
    | none => s
    | some s =>
      let w := whoWriter k x.ctx
      let r := runAct (do giveChain w x.shard (← heldChain w x.shard); nextList w x.shard) s
      match x.attach with
      | some q =>
        if r.1 = .ok then attachDone r.2 k i x q
        else completeCmd (modSlice r.2 k fun y => { y with slots := tabDel y.slots i }) (sliceEng k) x.ctx q r.1
      | none => putSlot r.2 k i (if r.1 = .ok then { x with flip := none } else { x with stopped := true })

/-! ### Resets (spec/09 R242, spec/18 Table 18-2) -/

/-- Detach the shards of slots that meet a test: their waiting DETACH commands are lost with their context's queue. -/
def dropShards (s : State) (k : Nat) (test : WriterSlot → Bool) : State :=
  modSlice s k fun y => { y with slots := y.slots.filter fun p => !test p.2 }

/-! ### The rows -/

/-- PCL_ATTACH. -/
def execPclAttach (k ctx : Nat) (s : State) : Host.Outcome State Fault Refusal := .next (pclAttach s k ctx)
/-- PCL_DETACH. -/
def execPclDetach (k ctx : Nat) (s : State) : Host.Outcome State Fault Refusal := .next (pclDetach s k ctx)
/-- COMPACT. -/
def execCompact (k ctx : Nat) (s : State) : Host.Outcome State Fault Refusal := .next (compactHead s k ctx)
/-- UPDATE_PACKET_APPLY. -/
def execUpdatePacketApply (k slot : Nat) (s : State) : Host.Outcome State Fault Refusal :=
  .next (updatePacketApply s k slot)
/-- COMPACTION_PIECE. -/
def execCompactionPiece (k slot : Nat) (s : State) : Host.Outcome State Fault Refusal := .next (compactionPiece s k slot)
/-- COMPACTION_RETIRE. -/
def execCompactionRetire (k slot : Nat) (s : State) : Host.Outcome State Fault Refusal := .next (compactionRetire s k slot)

end Sys2Proof.Machine
end

