-- ==== Sys2Proof/Machine/Mailbox.lean ====
section
/-! DEFINITION. Mailboxes (spec/15 R366-R382, R392): open, doorbell, completion ring, progress, NOP and ENQUEUE. -/

namespace Sys2Proof.Machine

/-- The PUR block starts here (spec/00 Table 0-4). -/
def purBase : Nat := 0xF00001000000

/-- The address of register `off` of mailbox `m` (spec/15 Table 15-10). -/
def mbAddr (m off : Nat) : Nat := purBase + 0x1000 + m * 0x40 + off

/-- The SOURCE of the purser's events. -/
def purSrc : BitVec 16 := srcOf 8 0

/-- The SOURCE of a mailbox's events (spec/18 Table 18-6). -/
def mbSrc (m : Nat) : BitVec 16 := srcOf 13 m

/-- Whether an agent reaches the registers and rings of a mailbox (spec/15 R392, spec/17 R437): with OWNER 1 only the
management path, else not the management path. -/
def mbReach (s : State) (a : Agent) (m : Nat) : Bool :=
  if (getMb s m).owner = 1 then a = .mgmt else a ≠ .mgmt

/-- The purser firmware runs. -/
def pursing (s : State) : Bool := s.sec.phase = .running

/-- The purser takes descriptors and starts work: its firmware runs and no mooring is under way (spec/19 R481). -/
def purWorks (s : State) : Bool := pursing s && s.pwr.moor = .running

/-- Whether the value of MB_m_DOORBELL, REQ_HEAD and so on is refused: the bit set, the event logged. -/
def mbRefuse (s : State) (m bitNo off : Nat) (v : W64) : State :=
  ringRefused (modMb s m fun x => { x with err := x.err ||| BitVec.ofNat 5 (2 ^ bitNo) }) (mbSrc m) (mbAddr m off) v

/-- The value a write of MB_m_CTL carries (spec/15 Table 15-12). -/
def mbCtlValue (action revMin revMax : Nat) : W64 := w64 (action * 2 ^ 62 + revMax % 256 * 256 + revMin % 256)

/-- MB_m_CTL with ACTION open (spec/15 R371). -/
def mailboxOpen (s : State) (a : Agent) (m revMin revMax : Nat) : State :=
  if !mbReach s a m || 64 ≤ m then s
  else if (getMb s m).state = .closed then
    modMb s m fun x => { x with state := .opening, revMin := BitVec.ofNat 8 revMin, revMax := BitVec.ofNat 8 revMax }
  else mbRefuse s m 3 0x08 (mbCtlValue 1 revMin revMax)

/-- The REVISIONS of PUR_CAPS (spec/15 R371): bit 4. -/
def revisions : Nat := 0x10

/-- The highest offered revision that is supported. -/
def chooseRev (lo : Nat) : Nat → Option Nat
  | 0 => if lo = 0 && bit revisions 0 then some 0 else none
  | n + 1 => if n + 1 < lo then none else if bit revisions (n + 1) then some (n + 1) else chooseRev lo n

/-- The purser settles an open (spec/15 R371). -/
def openResolve (s : State) (m : Nat) : State :=
  let x := getMb s m
  if x.state ≠ .opening || !purWorks s then s else
  match chooseRev x.revMin.toNat x.revMax.toNat with
  | some r => modMb s m fun x => { x with
      state := .opened, rev := BitVec.ofNat 8 r, result := .ok, nextSeq := 0, outstanding := 0, err := 0,
      doorbell := 0, reqHead := 0, cplHead := 0, cplTail := 0 }
  | none =>
    ringRefused (modMb s m fun x => { x with state := .closed, result := .versionMismatch }) (mbSrc m) (mbAddr m 0x08)
      (mbCtlValue 1 x.revMin.toNat x.revMax.toNat)

/-- MB_m_DOORBELL (spec/15 R368). -/
def doorbellWrite (s : State) (a : Agent) (m : Nat) (v : W64) : State :=
  if !mbReach s a m || 64 ≤ m then s else
  let x := getMb s m
  if x.state = .opened && x.doorbell.toNat ≤ v.toNat && v.toNat ≤ x.reqHead.toNat + 256 then
    modMb s m fun x => { x with doorbell := v }
  else mbRefuse s m 0 0x18 v

/-- MB_m_CPL_TAIL (spec/15 R369). -/
def cplTailWrite (s : State) (a : Agent) (m : Nat) (v : W64) : State :=
  if !mbReach s a m || 64 ≤ m then s else
  let x := getMb s m
  if x.cplTail.toNat ≤ v.toNat && v.toNat ≤ x.cplHead.toNat then modMb s m fun x => { x with cplTail := v }
  else mbRefuse s m 4 0x30 v

/-! ### Completion records (spec/15 R369, R370, R375) -/

/-- The four 64-bit words of a completion record (spec/15 Table 15-2). -/
def cplWords (s : State) (r : CplRec) (progress : Bool) : List W64 :=
  [w64 (r.seq.toNat + (if progress then 0 else r.status.code) * 2 ^ 16 + r.opcode.toNat * 2 ^ 32 + b2n progress * 2 ^ 40),
    r.tag, r.detail, s.hub.time]

/-- Write a record into the completion ring, raise CPL_HEAD and the interrupt. -/
def writeCpl (s : State) (m : Nat) (r : CplRec) (progress : Bool) : State :=
  let x := getMb s m
  let at0 := x.cplHead.toNat % 512 * 4
  let ring := ((cplWords s r progress).zipIdx).foldl (fun t p => tabSet 0 t (at0 + p.2) p.1) x.cpl
  let s := modMb s m fun x => { x with cpl := ring, cplHead := x.cplHead + 1 }
  if x.irqEn then emit s (.irq x.irqHart.toNat (.mailbox m)) else s

/-- Slots of the completion ring in use. -/
def cplUsed (x : Mailbox) : Nat := x.cplHead.toNat - x.cplTail.toNat

/-- Write the first held completion of a mailbox, if there is room. -/
def completionWrite (s : State) (m : Nat) : State :=
  let x := getMb s m
  match x.held with
  | [] => s
  | r :: rest =>
    if x.state = .closed then s
    else if cplUsed x < 512 then
      writeCpl (modMb s m fun x => { x with held := rest, outstanding := if r.taken then x.outstanding - 1 else x.outstanding }) m r false
    else modMb s m fun x => { x with err := x.err ||| 2 }

/-- A command ends with a DETAIL that the spec does not give (log 27). -/
def endPlain (s : State) (id : Nat) (st : Status) : State :=
  let f := takeFree s
  endCmd f.2 id st (w64 f.1)

/-- The steps a command has done and its steps in all, 0 when not known (spec/15 R375, R376). -/
def progressOf (c : PCmd) : W64 :=
  match c.enq with
  | some q => w64 (ceilDiv q.next 256 % 2 ^ 32 * 2 ^ 32 + ceilDiv q.count 256 % 2 ^ 32)
  | none => w64 (c.steps % 2 ^ 32 * 2 ^ 32)

/-- A purser-run command comes to the end of a step, and its mailbox has had its turn (spec/15 R376). -/
def noteStep (s : State) (id : Nat) : State :=
  match getCmd s id with
  | none => s
  | some c => putCmd { s with pur := { s.pur with turn := (c.mb + 1) % 64 } } id { c with stepped := true }

/-- One more step of a purser-run command is done. -/
def countStep (s : State) (id : Nat) : State :=
  match getCmd s id with
  | none => s
  | some c => noteStep (putCmd s id { c with steps := c.steps + 1 }) id

/-- A progress record at a step boundary, which is then past (spec/15 R378). -/
def progressWrite (s : State) (m id : Nat) : State :=
  match getCmd s id with
  | none => s
  | some c =>
    let x := getMb s m
    if c.mb ≠ m || !c.stepped then s else
    let s := putCmd s id { c with stepped := false }
    if bit c.flags.toNat 1 && c.phase = .running && x.state ≠ .closed &&
        c.lastProgress.toNat + 1000000 ≤ s.hub.time.toNat && cplUsed x + 256 ≤ 512 then
      let s := putCmd s id { c with stepped := false, lastProgress := s.hub.time }
      writeCpl s m { seq := c.seq, opcode := c.opcode, tag := c.tag, detail := progressOf c } true
    else s

/-- Whether every earlier command of the mailbox has completed, or the command carries no FENCE (spec/15 R374). -/
def unfenced (s : State) (id : Nat) (c : PCmd) : Bool :=
  !bit c.flags.toNat 0 || s.pur.cmds.all fun p => !(decide (p.1 < id) && p.2.mb = c.mb)

/-- A row that starts command `id` with an opcode. -/
def startRow (s : State) (id op : Nat) (f : PCmd → State) : State :=
  match getCmd s id with
  | none => s
  | some c => if c.opcode.toNat = op && c.phase = .held && c.guest.isNone && purWorks s && unfenced s id c then f c else s

/-- NOP. -/
def nopCmd (s : State) (id : Nat) : State := startRow s id 0x01 fun _ => endPlain s id .ok

/-! ### ENQUEUE (spec/15 R380-R382) -/

/-- ENQUEUE starts. -/
def enqueueCmd (s : State) (id : Nat) : State :=
  startRow s id 0x30 fun c =>
    match engOfSelector (fld c.desc 16 2) with
    | some e =>
      let n := fld c.desc 20 4
      if 1 ≤ n && n ≤ 65536 && fld c.desc 24 8 % 64 = 0 && fld c.desc 24 8 + 64 * n ≤ unifiedEnd then
        putCmd s id { c with phase := .running, enq := some { eng := e, count := n, cmds := fld c.desc 24 8 } }
      else endCmd s id .internal (enqDetail none 0)
    | none => endCmd s id .internal (enqDetail none 0)

/-- Whether an earlier ENQUEUE of the mailbox for the same engine still has commands to offer (spec/15 R382). -/
def enqueueBehind (s : State) (id : Nat) (c : PCmd) : Bool :=
  s.pur.cmds.any fun p => decide (p.1 < id) && p.2.mb = c.mb && p.2.opcode = 0x30 &&
    fld p.2.desc 16 2 = fld c.desc 16 2 &&
    (match p.2.enq with | some q => !q.stopped && q.haltFail.isNone && decide (q.next < q.count) | none => true)

/-- A command of the list that cannot be offered, or is refused: the ENQUEUE stops (spec/15 R380). -/
def enqueueStop (s : State) (id : Nat) (c : PCmd) (q : Enqueue) (st : Status) : State :=
  settleEnqueue (putCmd s id { c with enq := some { q with
    next := q.next + 1, offered := q.offered + 1, stopped := true, firstFail := earlierFail q.firstFail q.next st } }) id

/-- Count an offer before it is made, so that its report finds it counted. -/
def enqueueCount (s : State) (id : Nat) (f : Enqueue → Enqueue) : State :=
  match getCmd s id with
  | some c => match c.enq with | some q => putCmd s id { c with enq := some (f q) } | none => s
  | none => s

/-- The next command of an ENQUEUE is offered. -/
def enqueueOffer (s : State) (id : Nat) : State :=
  match getCmd s id with
  | none => s
  | some c =>
    match c.enq with
    | none => s
    | some q =>
      if q.stopped || q.haltFail.isSome || q.next = q.count || !purWorks s || enqueueBehind s id c then s else
      match runActVal (rd (whoPurser none) (q.cmds + 64 * q.next) 64) s with
      | (.error st, s) => enqueueStop s id c q (if st = .eccUncorrectable then st else .internal)
      | (.ok b, s) =>
        if !(getMb s c.mb).parts.getLsbD (ctxPart (cmdCtx b)) then enqueueStop s id c q .internal else
        match offerCmd s q.eng b (some (id, q.next)) with
        | (s, .waits) => s
        | (s, .refused) => enqueueStop s id c q .internal
        | (s, .queued) =>
          noteStep (enqueueCount s id fun q =>
            { q with next := q.next + 1, offered := q.offered + 1, accepted := q.accepted + 1 }) id
        | (s, .ended st) =>
          let s := enqueueCount s id fun q => { q with
            next := q.next + 1, offered := q.offered + 1, accepted := q.accepted + 1 }
          reportCmd (noteStep s id) (some (id, q.next)) st

/-! ### Rows -/

/-- MAILBOX_OPEN (spec/15 R371). -/
def execMailboxOpen (agent : Agent) (m revMin revMax : Nat) (s : State) : Host.Outcome State Fault Refusal :=
  .next (mailboxOpen s agent m revMin revMax)
/-- MAILBOX_OPEN_RESOLVE (spec/15 R371). -/
def execMailboxOpenResolve (m : Nat) (s : State) : Host.Outcome State Fault Refusal := .next (openResolve s m)
/-- MB_DOORBELL (spec/15 R368). -/
def execMbDoorbell (agent : Agent) (m : Nat) (v : W64) (s : State) : Host.Outcome State Fault Refusal :=
  .next (doorbellWrite s agent m v)
/-- MB_CPL_TAIL_WRITE (spec/15 R369). -/
def execMbCplTailWrite (agent : Agent) (m : Nat) (v : W64) (s : State) : Host.Outcome State Fault Refusal :=
  .next (cplTailWrite s agent m v)
/-- COMPLETION_WRITE (spec/15 R369, R370). -/
def execCompletionWrite (m : Nat) (s : State) : Host.Outcome State Fault Refusal := .next (completionWrite s m)
/-- PROGRESS_WRITE (spec/15 R378). -/
def execProgressWrite (m id : Nat) (s : State) : Host.Outcome State Fault Refusal := .next (progressWrite s m id)
/-- NOP (spec/15 R379). -/
def execNop (id : Nat) (s : State) : Host.Outcome State Fault Refusal := .next (nopCmd s id)
/-- ENQUEUE (spec/15 R380). -/
def execEnqueue (id : Nat) (s : State) : Host.Outcome State Fault Refusal := .next (enqueueCmd s id)
end Sys2Proof.Machine
end

