-- ==== Sys2Proof/Machine/Grinder.lean ====
section
/-! DEFINITION. The grinder (spec/12 R285-R301): UTF-8, tokenizer tables, byte-level BPE, and its three commands. -/

namespace Sys2Proof.Machine

/-! ### UTF-8 (RFC 3629, spec/12 R293, R308) -/

/-- What stands at the head of a byte stream. -/
inductive Utf8 where
  /-- A valid sequence of `n` bytes and its code point. -/
  | valid (n cp : Nat)
  /-- All the bytes there are, a proper prefix of a valid sequence. -/
  | partly
  /-- A maximal invalid subpart of `n` bytes. -/
  | bad (n : Nat)
  deriving DecidableEq, Repr

/-- Continuation bytes: from `i` already good, up to `need` in all. -/
def utf8Rest (need : Nat) : Nat → Nat → Nat → Nat → Bytes → Utf8
  | i, cp, _, _, [] => if i = need then .valid need cp else .partly
  | i, cp, lo, hi, b :: bs =>
    if i = need then .valid need cp
    else if lo ≤ b.toNat && b.toNat ≤ hi then utf8Rest need (i + 1) (cp * 64 + b.toNat % 64) 0x80 0xBF bs
    else .bad i

/-- The head of a byte stream that is not empty. -/
def utf8Head : Bytes → Utf8
  | [] => .partly
  | b :: bs =>
    let v := b.toNat
    let lo := if v = 0xE0 then 0xA0 else if v = 0xF0 then 0x90 else 0x80
    let hi := if v = 0xED then 0x9F else if v = 0xF4 then 0x8F else 0xBF
    if v < 0x80 then .valid 1 v
    else if 0xC2 ≤ v && v ≤ 0xDF then utf8Rest 2 1 (v - 0xC0) lo hi bs
    else if 0xE0 ≤ v && v ≤ 0xEF then utf8Rest 3 1 (v - 0xE0) lo hi bs
    else if 0xF0 ≤ v && v ≤ 0xF4 then utf8Rest 4 1 (v - 0xF0) lo hi bs
    else .bad 1

/-! ### Tokenizing (spec/12 R292-R295) -/

/-- A unit of a segment: its bytes, its class, whether it is of INVALID_CLASS. -/
structure TokUnit where
  bytes : Bytes := []
  cls : Nat := 0
  invalid : Bool := false
  deriving DecidableEq, Repr

/-- The class of a code point. -/
def cpClass (t : Tokenizer) (cp : Nat) : Nat :=
  match t.ranges.find? fun r => r.1 ≤ cp && cp ≤ r.2.1 with
  | some r => r.2.2
  | none => t.defaultClass

/-- A segment's units. -/
def unitsOf (t : Tokenizer) : Nat → Bytes → List TokUnit
  | 0, _ => []
  | f + 1, b =>
    if b = [] then [] else
    match utf8Head b with
    | .valid n cp => { bytes := b.take n, cls := cpClass t cp } :: unitsOf t f (b.drop n)
    | _ => { bytes := b.take 1, cls := t.invalidClass, invalid := true } :: unitsOf t f (b.drop 1)

/-- RUN of a class. -/
def clsRun (t : Tokenizer) (c : Nat) : Bool := bit (t.rules.getD c 0) 0
/-- LEAD of a class. -/
def clsLead (t : Tokenizer) (c : Nat) : Bool := bit (t.rules.getD c 0) 1
/-- TAKES_LEAD of a class. -/
def clsTakes (t : Tokenizer) (c : Nat) : Bool := bit (t.rules.getD c 0) 2

/-- lead_here at the head of the units. -/
def leadHere (t : Tokenizer) : List TokUnit → Bool
  | u :: v :: _ => clsLead t u.cls && clsTakes t v.cls
  | _ => false

/-- The units that a run of class `c` takes, and the rest. -/
def takeRun (t : Tokenizer) (c : Nat) : List TokUnit → List TokUnit × List TokUnit
  | [] => ([], [])
  | u :: us =>
    if u.cls = c && !leadHere t (u :: us) then
      let r := takeRun t c us
      (u :: r.1, r.2)
    else ([], u :: us)

/-- The pre-tokens of a segment's units. -/
def preTokens (t : Tokenizer) : Nat → List TokUnit → List (List TokUnit)
  | 0, _ => []
  | f + 1, us =>
    match us with
    | [] => []
    | u :: rest =>
      let lead := leadHere t (u :: rest)
      let first := if lead then [u] else []
      match (if lead then rest else u :: rest) with
      | [] => [first]
      | v :: more =>
        let r := if clsRun t v.cls then takeRun t v.cls more else ([], more)
        (first ++ v :: r.1) :: preTokens t f r.2

/-- The merge of a pair: rank and result (spec/12 R286). -/
def mergeOf (t : Tokenizer) (l r : Nat) : Option (Nat × Nat) :=
  (t.merges.find? fun m => m.1 = l && m.2.1 = r).map fun m => (m.2.2.1, m.2.2.2)

/-- The best merge of a list of symbols: its rank, result and place. -/
def bestMerge (t : Tokenizer) : List Nat → Nat → Option (Nat × Nat × Nat)
  | a :: b :: rest, j =>
    let later := bestMerge t (b :: rest) (j + 1)
    match mergeOf t a b, later with
    | some m, some l => if m.1 ≤ l.1 then some (m.1, m.2, j) else some l
    | some m, none => some (m.1, m.2, j)
    | none, l => l
  | _, _ => none

/-- The merging of a piece (spec/12 R295). -/
def bpe (t : Tokenizer) : Nat → List Nat → List Nat
  | 0, syms => syms
  | f + 1, syms =>
    match bestMerge t syms 0 with
    | none => syms
    | some (_, r, j) => bpe t f (syms.take j ++ r :: syms.drop (j + 2))

/-- A piece's tokens. -/
def pieceTokens (t : Tokenizer) (b : Bytes) : List Nat := bpe t b.length (b.map fun x => t.byteMap.getD x.toNat 0)

/-- A long pre-token cut into pieces of 4,096 bytes, each merged alone (spec/12 R294). -/
def cutTokens (t : Tokenizer) : Nat → Bytes → List Nat
  | 0, _ => []
  | f + 1, b => if b = [] then [] else pieceTokens t (b.take 4096) ++ cutTokens t f (b.drop 4096)

/-- The items of a segment. -/
def segmentItems (t : Tokenizer) (seg : Bytes) : List TokItem :=
  let us := unitsOf t seg.length seg
  (preTokens t us.length us).map fun p =>
    let b := p.flatMap (·.bytes)
    { tokens := cutTokens t (b.length / 4096 + 1) b, bytes := b.length, cut := 4096 < b.length,
      invalid := (p.filter (·.invalid)).length }

/-- The special token at the head of the text: the longest match, the lower entry among equals. -/
def specialAt (t : Tokenizer) (text : Bytes) : Option (Bytes × Nat) :=
  t.specials.foldl (fun best e =>
    if e.1.isPrefixOf text then
      match best with
      | some b => if b.1.length < e.1.length then some e else best
      | none => some e
    else best) none

/-- The items of a text; `seg` holds the bytes of the segment so far, reversed (spec/12 R292). -/
def textItems (t : Tokenizer) (noSpecial : Bool) : Nat → Bytes → Bytes → List TokItem
  | 0, _, seg => segmentItems t seg.reverse
  | f + 1, text, seg =>
    match text with
    | [] => segmentItems t seg.reverse
    | b :: bs =>
      match (if noSpecial then none else specialAt t (b :: bs)) with
      | some e => segmentItems t seg.reverse ++
          { tokens := [e.2], bytes := e.1.length, special := true } :: textItems t noSpecial f ((b :: bs).drop e.1.length) []
      | none => textItems t noSpecial f bs (b :: seg)

/-- The units of an item: one special token, or its pieces of at most 4,096 bytes (spec/12 R294, R299). -/
def TokItem.pieces (i : TokItem) : Nat := if i.special then 1 else max 1 (ceilDiv i.bytes 4096)

/-- A result with one more item. -/
def TokResult.add (r : TokResult) (i : TokItem) : TokResult :=
  { tokens := r.tokens + i.tokens.length, bytes := r.bytes + i.bytes, cuts := r.cuts + b2n i.cut,
    specials := r.specials + b2n i.special, invalid := r.invalid + i.invalid }

/-! ### Commands (spec/12 R290, R291, R296-R298) -/

/-- The grinder as an engine. -/
def grinderEng : Eng := ⟨.grinder, 0⟩

/-- The opcodes of the grinder. -/
def grinderOps : List Nat := [0xE0, 0xE1, 0xE2]

/-- Change the grinder. -/
def modGrd (s : State) (f : GrdSt → GrdSt) : State := { s with grd := f s.grd }

/-- SLOT of a command. -/
def grdSlot (b : Bytes) : Nat := fld b 3 1

/-- Bytes of the table store in use. -/
def storeUsed (s : State) : Nat := (s.grd.slots.map fun x => x.2.tok.bytes).sum

/-- A grinder command is well formed (spec/12 Table 12-7). -/
def grinderOk (b : Bytes) : Bool :=
  let op := cmdOp b
  grdSlot b < 8 && zeroAt b 28 4 && zeroAt b 48 16 &&
  (if op = 0xE0 then
     fld b 2 1 ≤ 1 && fld b 16 8 % 64 = 0 && 1 ≤ fld b 24 4 && fld b 24 4 ≤ 16777216 && fld b 32 8 % 32 = 0 && zeroAt b 40 8
   else fld b 2 1 = 0 && zeroAt b 4 24 && zeroAt b 32 8 && (if op = 0xE1 then fld b 40 8 % 64 = 0 else zeroAt b 40 8))

/-- Whether a command of a context runs, or an UNLOAD of it is in progress. -/
def grinderRuns (s : State) (c : Nat) : Bool :=
  s.grd.ops.any (fun o => o.2.ctx = c) || s.grd.slots.any fun x => x.2.unload.any fun u => u.1 = c

/-- Whether a command may start: an engine is free, and with FENCE every earlier command of the context has completed
(spec/12 R297). -/
def grinderMayStart (s : State) (c : Nat) (q : QCmd) : Bool :=
  decide (s.grd.ops.length < 8) && !(bit (fld q.bytes 1 1) 7 && grinderRuns s c)

/-- The contexts with a command to start, or a unit of one to run. -/
def grinderReady (s : State) : List Nat :=
  (engContexts s grinderEng ++ s.grd.ops.map (·.2.ctx)).filter fun c =>
    s.grd.ops.any (fun o => o.2.ctx = c) || (headCmd s grinderEng c).any (grinderMayStart s c)

/-- A row about the head of a context's queue on the grinder. -/
def grinderHead (s : State) (c op : Nat) (f : State → QCmd → State) : State :=
  headRow s grinderEng c grinderOps op fun q =>
    if !grinderMayStart s c q then s else
    match takeTurn s grinderEng 0 c (grinderReady s) with
    | none => s
    | some s => if grinderOk q.bytes then f s q else completeHead s grinderEng c q .internal

/-- The 32 bytes of a TOKENIZE summary (spec/12 Table 12-8). -/
def tokSummary (s : State) (st : Status) (r : TokResult) : Bytes :=
  toLe 4 st.code ++ toLe 4 r.tokens ++ toLe 4 r.bytes ++ toLe 4 r.cuts ++ toLe 4 r.specials ++
  toLe 4 r.invalid ++ toLe 8 s.hub.time.toNat

/-- Write a TOKENIZE summary; words beyond TOKENS hold no defined value. -/
def wrTokSummary (w : Who) (b : Bytes) (st : Status) (r : TokResult) : Act Status := do
  let s ← get
  let a := fld b 16 8 + 4 * r.tokens
  let n := 4 * (fld b 24 4 - r.tokens)
  if mayAccess s w a n true then actMod fun s => (runAct (wrFree w a n) s).2
  let s ← get
  wr w (fld b 32 8) (tokSummary s st r)
  return st

/-- What a TOKENIZE reads before its first unit: the items of its text; or the status it ends with at once (spec/12 R298). -/
def tokenizeBegin (c : Nat) (b : Bytes) (t : Tokenizer) : Act (Status ⊕ List TokItem) := do
  let w := whoOf grinderEng c
  if fld b 4 4 > 16777216 then return .inl (← wrTokSummary w b .lengthExceeded {})
  let s ← get
  match runActVal (rd w (fld b 8 8) (fld b 4 4)) s with
  | (.error .eccUncorrectable, s) => set s; return .inl (← wrTokSummary w b .eccUncorrectable {})
  | (.error st, s) => set s; throw st
  | (.ok text, s) => set s; return .inr (textItems t (bit (fld b 2 1) 0) (text.length + 1) text [])

/-- A started TOKENIZE completes: its summary, then its status. -/
def tokenizeEnd (s : State) (id : Nat) (o : TokOp) (st : Status) (r : TokResult) : State :=
  let x := runActSt (wrTokSummary (whoOf grinderEng o.ctx) o.cmd.bytes st r) (modGrd s fun y => { y with ops := tabDel y.ops id })
  completeCmd x.2 grinderEng o.ctx o.cmd x.1

/-- TOKENIZE at the head of its queue starts on a free engine. -/
def tokenizeHead (s : State) (c : Nat) : State :=
  grinderHead s c 0xE0 fun s q =>
    match tabFind s.grd.slots (grdSlot q.bytes) with
    | none => completeHead s grinderEng c q .disabled
    | some x =>
      match runActVal (tokenizeBegin c q.bytes x.tok) s with
      | (.error st, s) => completeHead s grinderEng c q st
      | (.ok (.inl st), s) => completeHead s grinderEng c q st
      | (.ok (.inr items), s) =>
        modGrd (popQ s grinderEng c) fun y => { y with
          ops := tabPut y.ops y.nextOp { ctx := c, cmd := q, left := items }, nextOp := y.nextOp + 1 }

/-- An item's last piece is done: its tokens are written where they all fit, else the command ends. -/
def tokenizeItem (s : State) (id : Nat) (o : TokOp) (i : TokItem) (rest : List TokItem) : State :=
  let b := o.cmd.bytes
  if fld b 24 4 < o.res.tokens + i.tokens.length then tokenizeEnd s id o .lengthExceeded o.res else
  match runAct (wr (whoOf grinderEng o.ctx) (fld b 16 8 + 4 * o.res.tokens) (i.tokens.map (toLe 4)).flatten) s with
  | (.ok, s) =>
    modGrd s fun x => { x with
      bytes := x.bytes + w64 i.bytes, tokens := x.tokens + w64 i.tokens.length, cuts := x.cuts + w64 (b2n i.cut)
      ops := tabPut x.ops id { o with left := rest, piece := 0, res := o.res.add i } }
  | (.eccUncorrectable, s) => tokenizeEnd s id o .eccUncorrectable {}
  | (st, s) => completeCmd (modGrd s fun y => { y with ops := tabDel y.ops id }) grinderEng o.ctx o.cmd st

/-- The next unit of a started TOKENIZE in its context's turn (spec/12 R299); at its end, or where a disable stops it, the
summary. -/
def tokenizeUnit (s : State) (c id : Nat) : State :=
  match tabFind s.grd.ops id with
  | none => s
  | some o =>
    if o.ctx ≠ c then s else
    match o.stop, o.left with
    | some st, _ => tokenizeEnd s id o st o.res
    | none, [] => tokenizeEnd s id o .ok o.res
    | none, i :: rest =>
      match takeTurn s grinderEng 0 c (grinderReady s) with
      | none => s
      | some s =>
        if o.piece + 1 < i.pieces then modGrd s fun x => { x with ops := tabPut x.ops id { o with piece := o.piece + 1 } }
        else tokenizeItem s id o i rest

/-- Started TOKENIZEs that meet a test stop at their next unit boundary (spec/12 R291, spec/15 R388). -/
def stopTokenize (s : State) (test : TokOp → Bool) : State :=
  modGrd s fun x => { x with ops := tabMap (fun _ o =>
    if test o && o.stop.isNone && o.left ≠ [] then { o with stop := some .abortedDisabled } else o) x.ops }

/-- A tokenizer descriptor is within Table 12-1, its tables aligned and in the unified range (spec/12 R285). -/
def tokDescOk (d : Bytes) : Bool :=
  let slots := fld d 12 4
  let sizes := [(16, 16 * slots), (24, 1024), (32, 80 * fld d 40 2), (48, 8 * fld d 42 2), (56, 16),
    (64, 8 * fld d 4 4), (72, fld d 80 8)]
  fld d 0 1 = 1 && zeroAt d 1 3 && 256 ≤ fld d 4 4 && fld d 4 4 ≤ 1048576 && fld d 8 4 ≤ 524288 &&
  ((List.range 11).map fun i => 2 ^ (i + 10)).contains slots && 2 * fld d 8 4 ≤ slots && fld d 40 2 ≤ 4096 &&
  1 ≤ fld d 42 2 && fld d 42 2 ≤ 4096 && fld d 44 1 < 16 && fld d 45 1 < 16 && zeroAt d 46 2 &&
  1 ≤ fld d 80 8 && fld d 80 8 ≤ 2 ^ 32 && zeroAt d 88 40 &&
  sizes.all fun p => fld d p.1 8 % 64 = 0 && fld d p.1 8 + p.2 ≤ unifiedEnd

/-- F: the space of a tokenizer in the table store. -/
def tokSpace (d : Bytes) : Nat := ceilDiv (fld d 12 4 * 16 + fld d 40 2 * 80 + fld d 42 2 * 8 + 1040) 65536 * 65536

/-- The merge table's nonempty entries by place. -/
def mergeEntries (slots : Nat) (m : Bytes) : Tab (Nat × Nat × Nat × Nat) :=
  (List.range slots).filterMap fun i =>
    if fld m (16 * i + 8) 4 = 0xFFFFFFFF then none
    else some (i, fld m (16 * i) 4, fld m (16 * i + 4) 4, fld m (16 * i + 8) 4, fld m (16 * i + 12) 4)

/-- Where the lookup of a pair starts (spec/12 R286). -/
def mergeStart (slots l r : Nat) : Nat := (l * 0x9E3779B1 + r * 0x85EBCA77) % 2 ^ 32 / (2 ^ 32 / slots)

/-- Whether a lookup that starts at `i` comes to place `p` over nonempty entries. -/
def reaches (t : Tab (Nat × Nat × Nat × Nat)) (slots p : Nat) : Nat → Nat → Bool
  | 0, _ => false
  | f + 1, i => if i = p then true else (tabFind t i).isSome && reaches t slots p f ((i + 1) % slots)

/-- The merge table is as R290 asks. -/
def mergesOk (slots merges vocab : Nat) (t : Tab (Nat × Nat × Nat × Nat)) : Bool :=
  t.length = merges &&
  t.all fun e =>
    let (l, r, k, v) := e.2
    k < merges && l < vocab && r < vocab && v < vocab && reaches t slots e.1 slots (mergeStart slots l r) &&
    !t.any fun x => x.1 ≠ e.1 && (x.2.2.2.1 = k || (x.2.1 = l && x.2.2.1 = r))

/-- The class ranges of a descriptor, if in order (spec/12 R289). -/
def rangesOk : Nat → List (Nat × Nat × Nat) → Bool
  | _, [] => true
  | lo, (a, b, _) :: t => decide (lo ≤ a) && decide (a ≤ b) && decide (b ≤ 0x10FFFF) && rangesOk (b + 1) t

/-- Read and check a tokenizer's tables (spec/12 R290). -/
def loadTables (w : Who) (a : Nat) (d : Bytes) : Act Tokenizer := do
  let slots := fld d 12 4
  let vocab := fld d 4 4
  let m ← rd w (fld d 16 8) (16 * slots)
  let bm ← rd w (fld d 24 8) 1024
  let sp ← rd w (fld d 32 8) (80 * fld d 40 2)
  let rg ← rd w (fld d 48 8) (8 * fld d 42 2)
  let ru ← rd w (fld d 56 8) 16
  let t := mergeEntries slots m
  let byteMap := (List.range 256).map fun i => fld bm (4 * i) 4
  let specials := (List.range (fld d 40 2)).map fun j => (sp.drop (80 * j)).take 80
  let ranges := (List.range (fld d 42 2)).map fun j =>
    let v := fld rg (8 * j) 8
    (bits v 20 0, bits v 41 21, bits v 45 42)
  stopIf (!mergesOk slots (fld d 8 4) vocab t || byteMap.any (fun v => vocab ≤ v) || !rangesOk 0 ranges ||
    (List.range (fld d 42 2)).any (fun j => bits (fld rg (8 * j) 8) 63 46 ≠ 0) || ru.any (fun v => 8 ≤ v.toNat) ||
    specials.any fun e => !(1 ≤ fld e 0 1 && fld e 0 1 ≤ 64 && zeroAt e 1 3 && fld e 4 4 < vocab &&
      (((e.drop 8).take 64).drop (fld e 0 1)).all (· = 0) && zeroAt e 72 8)) .internal
  return { desc := a, bytes := tokSpace d, merges := t.map (·.2), byteMap := byteMap, ranges := ranges
           specials := specials.map fun e => ((e.drop 8).take (fld e 0 1), fld e 4 4)
           rules := ru.map (·.toNat), defaultClass := fld d 44 1, invalidClass := fld d 45 1 }

/-- LOAD at the head of its queue. -/
def loadHead (s : State) (c : Nat) : State :=
  grinderHead s c 0xE1 fun s q =>
    let b := q.bytes
    let w := whoOf grinderEng c
    let work : Act Tokenizer := do
      let d ← rd w (fld b 40 8) 128
      stopIf (!tokDescOk d || (tabFind s.grd.slots (grdSlot b)).isSome || 25165824 < storeUsed s + tokSpace d) .internal
      loadTables w (fld b 40 8) d
    match runActVal work s with
    | (.error st, s) => completeHead s grinderEng c q st
    | (.ok t, s) =>
      completeHead (modGrd s fun x => { x with slots := tabPut x.slots (grdSlot b) { tok := t } }) grinderEng c q .ok

/-- Whether a queued command is a TOKENIZE of a slot. -/
def namesSlot (slot : Nat) (e : Eng) (_c : Nat) (q : QCmd) : Bool :=
  e.kind = .grinder && cmdOp q.bytes = 0xE0 && grdSlot q.bytes = slot

/-- UNLOAD at the head of its queue: the disable point (spec/12 R291). The requests that use the slot end with their
own engines (spec/15 R389). -/
def unloadHead (s : State) (c : Nat) (ends : Nat → State → State) : State :=
  grinderHead s c 0xE2 fun s q =>
    let slot := grdSlot q.bytes
    match tabFind s.grd.slots slot with
    | none => completeHead s grinderEng c q .disabled
    | some x =>
      let s := popQ s grinderEng c
      let z : TokSlot := { x with unloading := true, unload := x.unload ++ [(c, q)] }
      let s := modGrd s fun y => { y with slots := tabPut y.slots slot z }
      if x.unloading then s else
      ends slot (markQueued (stopTokenize s fun o => grdSlot o.cmd.bytes = slot) (namesSlot slot))

/-- Whether a TOKENIZE that was queued before an UNLOAD's disable point still has to stop; one behind a FENCE of the
UNLOAD's own context is not waited for. -/
def slotQueued (s : State) (slot : Nat) (x : TokSlot) : Bool :=
  (getEng s grinderEng).ctxs.any fun cy =>
    let reach := if x.unload.any fun u => u.1 = cy.1 then
        cy.2.queue.takeWhile fun q => !bit (fld q.bytes 1 1) 7 else cy.2.queue
    reach.any fun q => namesSlot slot grinderEng cy.1 q && q.verdict = some .abortedDisabled

/-- The UNLOAD of a slot finishes, once no command uses the slot. -/
def slotFinish (s : State) (slot : Nat) (busy : Bool) : State :=
  match tabFind s.grd.slots slot with
  | none => s
  | some x =>
    if !x.unloading || busy || slotQueued s slot x || s.grd.ops.any (fun o => grdSlot o.2.cmd.bytes = slot) then s
    else
      let s := modGrd s fun y => { y with slots := tabDel y.slots slot }
      x.unload.foldl (fun s u => completeCmd s grinderEng u.1 u.2 .ok) s

/-! ### The rows -/

/-- TOKENIZE. -/
def execTokenize (ctx : Nat) (run : Option Nat) (s : State) : Host.Outcome State Fault Refusal :=
  .next (match run with | some id => tokenizeUnit s ctx id | none => tokenizeHead s ctx)
/-- LOAD. -/
def execLoad (ctx : Nat) (s : State) : Host.Outcome State Fault Refusal := .next (loadHead s ctx)

end Sys2Proof.Machine
end

