-- ==== Sys2Proof/Machine/Pour.lean ====
section
/-! DEFINITION. The pour's stop matcher and UTF-8 assembler (spec/12 R302-R308). -/

namespace Sys2Proof.Machine

/-- The stop with the longest match at the end of `pend`, the lowest index among equal lengths: its index and length. -/
def stopFound (stops : List Bytes) (pend : Bytes) : Option (Nat × Nat) :=
  stops.zipIdx.foldl (fun best s =>
    if s.1.isSuffixOf pend then
      match best with
      | some b => if b.2 < s.1.length then some (s.2, s.1.length) else best
      | none => some (s.2, s.1.length)
    else best) none

/-- The length of the longest suffix of `pend`, at most `n`, that is a proper prefix of some stop string. -/
def holdback (stops : List Bytes) (pend : Bytes) : Nat → Nat
  | 0 => 0
  | n + 1 =>
    let suf := pend.drop (pend.length - (n + 1))
    if n + 1 ≤ pend.length && stops.any (fun s => suf.length < s.length && suf.isPrefixOf s) then n + 1
    else holdback stops pend n

/-- What the stop matcher does with a token's bytes: released bytes, bytes held, and the stop index and offset of a
completed stop string (spec/12 R305). -/
structure Matched where
  released : Bytes := []
  pend : Bytes := []
  stop : Option (Nat × Nat) := none
  deriving DecidableEq, Repr

/-- The stop matcher on bytes from place `i` of the token. -/
def matchStops (stops : List Bytes) (keep : Bool) : Bytes → Nat → Bytes → Matched
  | pend, _, [] =>
    let h := holdback stops pend 63
    { released := pend.take (pend.length - h), pend := pend.drop (pend.length - h) }
  | pend, i, b :: bs =>
    let p := pend ++ [b]
    match stopFound stops p with
    | some (s, n) => { released := if keep then p else p.take (p.length - n), stop := some (s, i) }
    | none => matchStops stops keep p (i + 1) bs

/-- The bytes of U+FFFD. -/
def fffd : Bytes := [0xEF, 0xBF, 0xBD]

/-- What the assembler passes on: bytes, what it holds, and its substitutions (spec/12 R308). -/
structure Assembled where
  out : Bytes := []
  held : Bytes := []
  replaced : Nat := 0
  deriving DecidableEq, Repr

/-- The UTF-8 assembler on a stream; at the terminal record a held incomplete sequence becomes one U+FFFD. -/
def assemble (final : Bool) : Nat → Bytes → Assembled
  | 0, _ => {}
  | f + 1, b =>
    if b = [] then {} else
    match utf8Head b with
    | .valid n _ =>
      let r := assemble final f (b.drop n)
      { r with out := b.take n ++ r.out }
    | .bad n =>
      let r := assemble final f (b.drop n)
      { r with out := fffd ++ r.out, replaced := r.replaced + 1 }
    | .partly => if final then { out := fffd, replaced := 1 } else { held := b }

/-- A stop record is in range (spec/12 R304, Table 12-10). -/
def stopRecordOk (b : Bytes) : Bool :=
  let n := fld b 0 1
  n ≤ 16 && fld b 1 1 < 4 && zeroAt b 2 14 &&
  (List.range 16).all fun s =>
    let len := fld b (16 + s) 1
    (if s < n then 1 ≤ len && len ≤ 64 else len = 0) && zeroAt b (32 + 64 * s + len) (64 - len)

/-- The stop strings of a record. -/
def stopStrings (b : Bytes) : List Bytes :=
  (List.range (fld b 0 1)).map fun s => (b.drop (32 + 64 * s)).take (fld b (16 + s) 1)

end Sys2Proof.Machine
end

