-- ==== Sys2Proof/Machine/Requests.lean ====
section
/-! DEFINITION. Requests and their stage commands (spec/13 R311-R313, R340, R496; spec/15 R383, R384): the request record,
taking a stage command, starting and completing it, prefix references and KV pages, CANCEL and PREFIX_RETIRE. -/

namespace Sys2Proof.Machine

/-- A request in progress. -/
def getReq (s : State) (rid : Nat) : Option Request := tabFind s.pur.reqs rid

/-- Record a request. -/
def putReq (s : State) (rid : Nat) (r : Request) : State :=
  { s with pur := { s.pur with reqs := tabPut s.pur.reqs rid r } }

/-- Change a request, if it is in progress. -/
def modReq (s : State) (rid : Nat) (f : Request → Request) : State :=
  match getReq s rid with
  | some r => putReq s rid (f r)
  | none => s

/-- Change a stage of a request. -/
def Request.modStage (r : Request) (op : Nat) (f : Stage → Stage) : Request :=
  { r with stages := tabMod {} r.stages op f }

/-- FLAGS of a request record. -/
def recFlags (b : Bytes) : Nat := fld b 1 1

/-- The stages of a request in order (spec/01 R31). -/
def stageOrder (flags : Nat) : List Nat :=
  (if bit flags 0 then [0x10, 0x11] else []) ++ (if bit flags 0 && bit flags 1 then [0x12] else []) ++
  [0x13, 0x14, 0x15, 0x16]

/-- The stage before one: DECODE and POUR both follow PREFILL. -/
def stageBefore (flags op : Nat) : Option Nat :=
  if op = 0x16 then some 0x14
  else ((stageOrder flags).zip ((stageOrder flags).drop 1)).findSome? fun p => if p.2 = op then some p.1 else none

/-- The first stage of a request (spec/13 R496). -/
def firstStage (flags : Nat) : Nat := if bit flags 0 then 0x10 else 0x13

/-- A request record keeps the ranges of Table 13-1. -/
def requestOk (b : Bytes) : Bool :=
  let t := f32Dec (BitVec.ofNat 32 (fld b 128 4))
  let p := f32Dec (BitVec.ofNat 32 (fld b 132 4))
  let within (off n lo hi : Nat) : Bool := lo ≤ fld b off n && fld b off n ≤ hi
  fld b 0 1 = 1 && recFlags b ≠ 2 && recFlags b < 4 && !bit (fld b 2 1) 7 && fld b 3 1 < 8 && fld b 4 2 < 4096 &&
  zeroAt b 6 2 && zeroAt b 105 3 && zeroAt b 140 4 && zeroAt b 188 68 &&
  within 32 4 1 16777216 && within 36 4 1 1048576 && within 48 4 1 1048576 && within 104 1 12 20 &&
  within 108 4 16384 16777216 && within 120 4 1 16777216 && within 136 4 0 65536 && fld b 136 4 ≤ 65536 &&
  (t.isZero || (!t.notFinite && Val.zero.lt t)) &&
  !p.isNan && Val.zero.lt p && !(Val.ofInt 1).lt p &&
  [16, 40, 56, 64, 72, 80, 112].all (fun off => fld b off 8 % 64 = 0) && fld b 108 4 % 64 = 0 &&
  fld b 96 8 % 4096 = 0 && fld b 168 8 % 32 = 0 && fld b 176 8 % 32 = 0

/-- Write a device field of a request record. -/
def recPut (s : State) (r : Request) (off n v : Nat) : State :=
  (runAct (wrNat (whoPurser (some r.ctx)) (r.addr + off) n v) s).2

/-! ### KV pages and prefix references (spec/13 R320, R326, R329) -/

/-- The local part of a global address (spec/16 Table 16-4). -/
def localPart (g : Nat) : Nat := g % 2 ^ 48

/-- A global address. -/
def globalAddr (module a : Nat) : Nat := module * 2 ^ 48 + a

/-- KV pages go back to their pools. -/
def freePages (s : State) (gs : List Nat) : State :=
  gs.foldl (fun s g =>
    if globalModule g = ownModule s then { s with pur := { s.pur with kv := s.pur.kv.erase (localPart g) } }
    else purserSend s (globalModule g) (.kvFree [localPart g])) s

/-- The pages a segment covers: the first, and how many (spec/13 R320). -/
def segPages (start tokens : Nat) : Nat × Nat := (start / 256, ceilDiv (start + tokens) 256 - start / 256)

/-- PAGE of each valid entry of a page list. -/
def listPages (b : Bytes) : List Nat :=
  (List.range (b.length / 16)).filterMap fun i => if bit (fld b (16 * i + 10) 2) 0 then some (fld b (16 * i) 8) else none

/-- The pages that a segment's page list names. -/
def segmentPages (s : State) (d : Bytes) : List Nat :=
  match (runActVal (rd (whoPurser none) (fld d 32 8) (16 * (segPages (fld d 20 4) (fld d 16 4)).2)) s).1 with
  | .ok b => listPages b
  | .error _ => []

/-- Give up a reference of a prefix record: a retiring segment without references is freed (spec/13 R329). -/
def dropRef : Nat → Nat → State → State
  | 0, _, s => s
  | f + 1, g, s =>
    let a := localPart g
    if globalModule g ≠ ownModule s then purserSend s (globalModule g) (.prefixRef a false) else
    match runActVal (rd (whoPurser none) a 64) s with
    | (.error _, s) => s
    | (.ok d, s) =>
      let refs := fld d 44 4
      if refs = 0 then s else
      let s := (runAct (wrNat (whoPurser none) (a + 44) 4 (refs - 1)) s).2
      if refs = 1 && fld d 56 1 = 2 then
        let s := freePages s (segmentPages s d)
        if fld d 8 8 = 0 then s else dropRef f (fld d 8 8) s
      else s

/-- How long a chain of prefix records is followed. -/
def chainFuel : Nat := 1048576

/-- Take a reference of a local prefix record. -/
def addRef (s : State) (a : Nat) : State :=
  match runActVal (rdNat (whoPurser none) (a + 44) 4) s with
  | (.ok n, s) => (runAct (wrNat (whoPurser none) (a + 44) 4 (n + 1)) s).2
  | (.error _, s) => s

/-- A prefix record keeps the ranges of Table 13-5. -/
def prefixOk (d : Bytes) : Bool :=
  fld d 0 8 ≠ 0 && fld d 8 8 % 64 = 0 && bits (fld d 8 8) 63 60 = 0 && 1 ≤ fld d 16 4 && fld d 16 4 ≤ 1048576 &&
  (fld d 8 8 ≠ 0 || fld d 20 4 = 0) && (fld d 40 4 ≠ 0 || fld d 48 8 = 0) && fld d 56 1 < 3 && zeroAt d 57 7

/-- A local prefix record is retired (spec/13 R312, R329). -/
def retireWork (a : Nat) : Act Unit := do
  let d ← rd (whoPurser none) a 64
  stopIf (!prefixOk d) .internal
  wrNat (whoPurser none) (a + 56) 1 2
  if fld d 56 1 ≠ 2 && fld d 44 4 = 0 then
    actMod fun s =>
      let s := if fld d 56 1 = 1 then freePages s (segmentPages s d) else s
      if fld d 8 8 = 0 then s else dropRef chainFuel (fld d 8 8) s

/-! ### The end of a request -/

/-- Whether a report answers an entry of a map list. -/
def reportFor (e : Nat × Nat × Nat × Nat) (x : MapReport) : Bool :=
  x.module = e.1 && x.ctx = e.2.1 && x.core = e.2.2.1 && x.mapId = e.2.2.2

/-- The reports of a stage's maps are claimed (spec/15 R384). -/
def claimReports (s : State) (g : Stage) : State :=
  { s with pur := { s.pur with reports := s.pur.reports.filter fun x => !g.list.any fun e => reportFor e x } }

/-- Whether a stage command has completed. -/
def Stage.over (g : Stage) : Bool := match g.phase with | .ended _ => true | _ => false

/-- Whether a stage has started and its own work is not done. -/
def Stage.runs (g : Stage) : Bool := match g.phase with | .running => true | _ => false

/-- Whether a stage has started and not completed. -/
def Stage.live (g : Stage) : Bool := match g.phase with | .running => true | .worked _ => true | _ => false

/-- The number of the question for a KV page in a decode step. -/
def pageAsk : Nat := 65600

/-- The number of the question for the KV pages of a PREFILL to member `i` of the group. -/
def chunkAsk (i : Nat) : Nat := 65536 + i

/-- Whether a question is for KV pages. -/
def asksPages (key : Nat) : Bool := 65536 ≤ key && key ≤ pageAsk

/-- The pages that an answer about KV pages names. -/
def Answer.pages (a : Answer) : List Nat := a.data.map leNat

/-- Pages that were granted to a request and that it does not hold yet. -/
def grantedPages (r : Request) : List Nat := (r.answers.filter fun a => asksPages a.1).flatMap fun a => a.2.pages

/-- What came back for question `key` of a request; pages granted to a request that has ended go back. -/
def takeAnswer (s : State) (m rid key : Nat) (a : Answer) : State :=
  match getReq s rid with
  | some r =>
    if tabFind r.asks key = some m then
      putReq s rid { r with asks := tabDel r.asks key, answers := tabPut r.answers key a }
    else s
  | none => if asksPages key then freePages s a.pages else s

/-- A request ends: every stage command taken and not completed completes with the status, STATUS and STATE are written,
and its references and pages are given up (spec/13 R313, R338). -/
def finishReq (s : State) (rid : Nat) (st : Status) : State :=
  match getReq s rid with
  | none => s
  | some r =>
    let s := r.stages.foldl (fun s p => if p.2.over then s else endPlain (claimReports s p.2) p.2.cmd st) s
    let s := r.events.foldl (fun s e => match e with | .cancel id => endPlain s id .lateCancel | _ => s) s
    let s := recPut s r 186 2 st.code
    let s := recPut s r 184 2 5
    let s := r.chain.foldl (fun s g => dropRef chainFuel g s) s
    let s := freePages s (r.pages.map (·.2) ++ grantedPages r)
    { s with pur := { s.pur with
      reqs := tabDel s.pur.reqs rid
      models := tabMap (fun _ m => { m with chosen := m.chosen.filter (· ≠ rid) }) s.pur.models } }

/-- Something reaches the sequencer of a request. -/
def pushEvent (s : State) (rid : Nat) (e : SeqEvent) : State := modReq s rid fun r => { r with events := r.events ++ [e] }

/-- An error or a disable reaches a request: through its sequencer with an open ring, else it ends (spec/13 R339). -/
def requestError (s : State) (rid : Nat) (st : Status) : State :=
  match getReq s rid with
  | none => s
  | some r => if r.ring.isSome then pushEvent s rid (.error st) else finishReq s rid st

/-- A stage's own work is done. -/
def stageWorked (s : State) (rid op : Nat) (st : Status) : State :=
  modReq s rid fun r => r.modStage op fun g => { g with phase := .worked st }

/-- A request whose PREFILL completes is admitted to decoding: its wait starts (spec/13 R341). -/
def admitRequest (s : State) (r : Request) : State × Request :=
  ({ s with pur := { s.pur with admissions := s.pur.admissions + 1 } },
    { r with admitted := s.pur.admissions, waited := s.hub.time.toNat })

/-- A stage completes with a status (spec/13 R313). -/
def stageEnds (s : State) (rid op : Nat) (st : Status) : State :=
  match getReq s rid with
  | none => s
  | some r =>
    if !st.good then finishReq s rid st else
    let (s, r) := if op = 0x14 then admitRequest s r else (s, r)
    let g := tabGet {} r.stages op
    let s := endPlain (claimReports s g) g.cmd st
    let r := r.modStage op fun g => { g with phase := .ended st }
    let s := putReq s rid r
    if (op = 0x15 || op = 0x16) && (tabGet {} r.stages 0x15).over && (tabGet {} r.stages 0x16).over then finishReq s rid st
    else s

/-- The status with which a listed map makes its stage fail: a failure reported, or no path up to the module of a map that
has not reported (spec/15 R384, spec/16 R410). -/
def mapFailure (s : State) (g : Stage) : Option Status :=
  match g.list.findSome? fun e => (s.pur.reports.find? fun x => reportFor e x && x.status.halts).map (·.status) with
  | some st => some st
  | none => if g.lost then some .linkLost else
    g.list.findSome? fun e =>
      if s.pur.reports.any (reportFor e) || e.1 = ownModule s || (choosePort s e.1).isSome then none else some .linkLost

/-- Whether every listed map has reported. -/
def mapsIn (s : State) (g : Stage) : Bool := g.list.all fun e => s.pur.reports.any (reportFor e)

/-- Whether a stage belongs to an open ring: it then ends through the sequencer. -/
def Request.poured (r : Request) (op : Nat) : Bool := r.ring.isSome && (op = 0x15 || op = 0x16)

/-- A listed map makes a running stage fail: with an open ring the request's sequencer writes the terminal record first
(spec/13 R338, R339, spec/15 R384). -/
def mapStops (s : State) (rid op : Nat) (r : Request) (st : Status) : State :=
  if r.poured op then (if r.terminal || r.events.contains (.error st) then s else pushEvent s rid (.error st))
  else stageEnds s rid op st

/-- STAGE_COMPLETE (spec/15 R384): own work done and every map reported; a map's failure or a stop comes first. -/
def stageComplete (s : State) (rid op : Nat) : State :=
  match getReq s rid with
  | none => s
  | some r =>
    let g := tabGet {} r.stages op
    match g.phase with
    | .running =>
      match mapFailure s g with
      | none => s
      | some st => mapStops s rid op r st
    | .worked st =>
      if !st.good then stageEnds s rid op st else
      match mapFailure s g with
      | some st => stageEnds s rid op st
      | none =>
        match g.stop with
        | some .cancelled => stageEnds s rid op .cancelled
        | some st' => stageEnds s rid op (if mapsIn s g then st else st')
        | none => if mapsIn s g then stageEnds s rid op st else s
    | _ => s

/-! ### Taking a stage command (spec/13 R496) -/

/-- Whether a context and a tokenizer slot are in service. -/
def inService (s : State) (ctx slot : Nat) : Bool :=
  (getCtx s ctx).enable &&
  (match tabFind s.grd.slots slot with | some x => !x.unloading | none => false)

/-- A stage command taken by the purser as command `id`. -/
def takeStage (s : State) (id : Nat) (c : PCmd) : State :=
  let b := c.desc
  let op := c.opcode.toNat
  let addr := fld b 16 8
  let rid := fld b 40 8
  if addr = 0 || addr % 64 ≠ 0 then endPlain s id .internal else
  match runActVal (rd (whoPurser none) addr 256) s with
  | (.error st, s) => endPlain s id st
  | (.ok d, s) =>
    let g : Stage := { cmd := id, param := fld b 24 8, maps := fld b 32 8 }
    let flags := recFlags d
    match getReq s rid with
    | none =>
      let ctx := bits (fld d 2 1) 6 0
      if !(getMb s c.mb).parts.getLsbD (ctxPart ctx) then endPlain s id .internal
      else if op ≠ firstStage flags then
        match Status.ofCode (fld d 186 2) with
        | some st => endPlain s id (if fld d 8 8 = rid && fld d 184 2 = 5 && st ≠ .ok then st else .internal)
        | none => endPlain s id .internal
      else if !inService s ctx (fld d 3 1 % 8) then endPlain s id .disabled
      else
        let r : Request := { addr := addr, ctx := ctx, slot := fld d 3 1 % 8, cls := bits (fld d 4 2) 11 0, record := d,
                             stages := [(op, g)] }
        recPut (recPut (putReq s rid r) r 186 2 0) r 184 2 0
    | some r =>
      if op = firstStage flags || addr ≠ r.addr || !(stageOrder flags).contains op || (tabFind r.stages op).isSome ||
          !(getMb s c.mb).parts.getLsbD (ctxPart r.ctx) then endPlain s id .internal
      else if !inService s r.ctx r.slot then
        let s := endPlain s id .disabled
        if r.stages.any fun p => !p.2.over then s else finishReq s rid .disabled
      else putReq s rid { r with stages := tabPut r.stages op g }

/-! ### The records a stage names -/

/-- The search record's 64 bytes are as Table 13-4 asks. -/
def searchOk (b : Bytes) : Bool :=
  let slots := fld b 40 4
  let within (off : Nat) : Bool := 1 ≤ fld b off 2 && fld b off 2 ≤ 4096
  fld b 0 1 = 1 && zeroAt b 1 1 && zeroAt b 48 16 && [2, 4, 6, 44].all within && fld b 32 8 % 64 = 0 &&
  (fld b 46 2 = 0 || fld b 6 2 ≤ fld b 46 2 && fld b 46 2 ≤ 16384) &&
  (slots = 0 || ((List.range 32).map (2 ^ ·)).contains slots && 1024 ≤ slots)

/-- DIR_SLOTS of a search record. -/
def dirSlots (b : Bytes) : Nat := if fld b 40 4 = 0 then 2 ^ 32 else fld b 40 4

/-- The shard entries of a search record: module and descriptor (spec/13 R493). -/
def rdShards (w : Who) (b : Bytes) : Act (List (Nat × Nat)) := do
  let t ← rd w (fld b 8 8) (16 * fld b 2 2)
  (List.range (fld b 2 2)).mapM fun i => do
    let e := (t.drop (16 * i)).take 16
    stopIf (fld e 0 2 ≥ 4096 || !zeroAt e 2 6 || fld e 8 8 % 64 ≠ 0) .internal
    return (fld e 0 2, fld e 8 8)

/-- A cascade record is in range (spec/06 R152, Table 6-11). -/
def cascadeOk (b : Bytes) : Bool :=
  let n := fld b 1 1
  let ex := (List.range n).map fun x => fld b (16 + 8 * x) 1
  fld b 0 1 = 1 && n ≤ 16 && 1 ≤ fld b 2 1 && fld b 2 1 ≤ 64 && zeroAt b 3 1 && zeroAt b 8 8 &&
  1 ≤ fld b 6 2 && fld b 6 2 ≤ fld b 4 2 && fld b 4 2 ≤ 4096 &&
  (List.range n).all (fun x => zeroAt b (17 + 8 * x) 3) && ex.all (fun e => 1 ≤ e && e < fld b 2 1) && (ex.zip (ex.drop 1)).all fun p => p.1 < p.2

/-- A model record and what it names (spec/13 R325, R494). -/
structure Model where
  kvfmt : Nat := 3
  layers : Nat := 1
  heads : Nat := 1
  dim : Nat := 64
  vocab : Nat := 256
  batch : Nat := 1
  pageBytes : Nat := 0
  group : List (Nat × Nat × Nat) := []
  select : List Bytes := []
  publish : Nat := 0
  record : Bytes := []
  deriving DecidableEq, Repr

/-- Bytes of one K part, and of one summary (spec/13 R323). -/
def kvPart (fmt dim : Nat) : Nat := 4 * (dim / 64) * isz fmt
/-- See `kvPart`. -/
def kvSummary (dim : Nat) : Nat := up64 (dim + dim / 32)

/-- PAGE_BYTES of R323. -/
def pageSize (layers heads fmt dim : Nat) : Nat := layers * heads * (2 * kvPart fmt dim + 4 * kvSummary dim)

/-- An attention selection record is in range (spec/06 R146). -/
def selectOk (b : Bytes) : Bool :=
  fld b 0 1 < 3 && zeroAt b 1 1 && 1 ≤ fld b 2 2 && fld b 2 2 ≤ 64 && 1 ≤ fld b 4 2 && fld b 4 2 ≤ 1024 && zeroAt b 6 2 &&
  fld b 8 4 ≤ 1048576 && zeroAt b 12 4

/-- Read a model record; INTERNAL where it breaks a rule of R312. -/
def rdModel (w : Who) (a tokenizer : Nat) : Act Model := do
  let b ← rd w a 128
  let fmt := fld b 1 1
  let dim := fld b 6 2
  let layers := fld b 2 2
  let n := fld b 12 2
  stopIf (fld b 0 1 ≠ 1 || (fmt ≠ 3 && fmt ≠ 1) || layers < 1 || 1024 < layers || fld b 4 2 < 1 || 256 < fld b 4 2 ||
    dim < 64 || 512 < dim || dim % 64 ≠ 0 || n < 1 || 64 < n || !zeroAt b 48 80 ||
    fld b 16 8 ≠ pageSize layers (fld b 4 2) fmt dim) .internal
  let vocab ← rdNat w (tokenizer + 4) 4
  stopIf (fld b 8 4 ≠ vocab) .internal
  let t ← rd w (fld b 24 8) (32 * n)
  let group := (List.range n).map fun i => (fld t (32 * i) 2, fld t (32 * i + 8) 8, fld t (32 * i + 16) 4)
  stopIf ((List.range n).any fun i => fld t (32 * i) 2 ≥ 4096 || !zeroAt t (32 * i + 2) 6 || !zeroAt t (32 * i + 20) 12) .internal
  let x ← rd w (fld b 32 8) (16 * layers)
  let select := (List.range layers).map fun i => (x.drop (16 * i)).take 16
  stopIf (!select.all selectOk) .internal
  return { kvfmt := fmt, layers := layers, heads := fld b 4 2, dim := dim, vocab := vocab, pageBytes := fld b 16 8,
           batch := if fld b 14 2 = 0 then 65536 else fld b 14 2, group := group, select := select,
           publish := fld b 40 8, record := b }

/-- The map list of a stage (spec/15 R383). -/
def rdMaps (w : Who) (a : Nat) : Act (List (Nat × Nat × Nat × Nat)) := do
  if a = 0 then return []
  stopIf (a % 64 ≠ 0) .internal
  let h ← rd w a 8
  let n := fld h 0 2
  stopIf (!zeroAt h 2 6 || n < 1 || 4096 < n) .internal
  let t ← rd w (a + 8) (8 * n)
  (List.range n).mapM fun i => do
    let e := fld t (8 * i) 8
    stopIf (bits e 47 44 ≠ 0 || bits e 31 15 ≠ 0 || bit e 7) .internal
    return (bits e 43 32, bits e 14 8, bits e 6 0, bits e 63 48)

/-- The checks of R312 when a stage would start: its map list. -/
def stageCheck (rid : Nat) (r : Request) (op : Nat) (g : Stage) : Act (List (Nat × Nat × Nat × Nat)) := do
  let w := whoPurser (some r.ctx)
  let needs := op = 0x11 || op = 0x12 || op = 0x14 || op = 0x15 || (op = 0x13 && bit (recFlags r.record) 0)
  stopIf (!requestOk r.record || fld r.record 8 8 ≠ rid || (op = 0x16 && g.maps ≠ 0) || decide (g.param ≠ 0) ≠ needs ||
    g.param % 64 ≠ 0) .internal
  if needs then
    if op = 0x14 || op = 0x15 then
      let _ ← rdModel w g.param (fld r.record 16 8)
    else
      let b ← rd w g.param 64
      stopIf (!searchOk b) .internal
      if op ≠ 0x13 then
        let _ ← rdShards w b
      if op = 0x12 then
        let x ← rd w (fld b 24 8) 144
        stopIf (fld b 24 8 % 64 ≠ 0 || !cascadeOk x) .internal
  rdMaps w g.maps

/-! ### Budgets (spec/13 R342) -/

/-- A customer class. -/
def getClass (s : State) (c : Nat) : ClassSt := tabGet {} s.pur.classes c

/-- Change a customer class. -/
def modClass (s : State) (c : Nat) (f : ClassSt → ClassSt) : State :=
  { s with pur := { s.pur with classes := tabMod {} s.pur.classes c f } }

/-- Whether a request is under budget mode. -/
def underBudget (s : State) (r : Request) : Bool := s.pur.budgetEn.getLsbD (ctxPart r.ctx)

/-- Whether a request is held by its class's budget. -/
def heldByBudget (s : State) (r : Request) : Bool := underBudget s r && (getClass s r.cls).budget = 0

/-- Take tokens from a class's budget, which stops at 0. -/
def takeBudget (s : State) (r : Request) (n : Nat) : State :=
  if underBudget s r then modClass s r.cls fun x => { x with budget := BitVec.ofNat 48 (x.budget.toNat - n) } else s

/-! ### Starting a stage (spec/13 R313) -/

/-- Whether a stage may start now: its predecessor has completed well, its FENCE is met, its budget is above 0. -/
def stageReady (s : State) (r : Request) (op : Nat) (g : Stage) : Bool :=
  g.phase = .held &&
  (match getCmd s g.cmd with | some c => unfenced s g.cmd c | none => false) &&
  (match stageBefore (recFlags r.record) op with
    | some p => (match (tabGet {} r.stages p).phase with | .ended st => st.good | _ => false)
    | none => true) &&
  !(op = 0x14 && heldByBudget s r)

/-- One stage passes its checks and is running. -/
def beginStage (s : State) (rid op : Nat) : Status × State :=
  match getReq s rid with
  | none => (.ok, s)
  | some r =>
    let g := tabGet {} r.stages op
    match runActVal (do
        let d ← rd (whoPurser (some r.ctx)) r.addr 256
        let m ← stageCheck rid { r with record := d } op g
        return (d, m)) s with
    | (.error st, s) => (st, s)
    | (.ok (d, m), s) =>
      let s := m.foldl (fun s e => if e.1 = ownModule s then s
        else purserSend s e.1 (.mapWant e.2.1 e.2.2.1 e.2.2.2)) s
      let state := if op ≤ 0x12 then max r.state 1 else if op = 0x15 then 4 else r.state
      let r := { r with record := d, state := state }.modStage op fun g => { g with phase := .running, list := m }
      let s := putReq s rid r
      let s := match getCmd s g.cmd with | some c => putCmd s g.cmd { c with phase := .running } | none => s
      (.ok, if op = 0x14 then takeBudget s r (r.context - r.cached) else recPut s r 184 2 state)

/-- STAGE_START: one stage starts, DECODE and POUR together; a stopped or malformed one ends its request. -/
def stageStart (s : State) (rid op : Nat) : State :=
  match getReq s rid with
  | none => s
  | some r =>
    match tabFind r.stages op with
    | none => s
    | some g =>
      if !purWorks s || !stageReady s r op g then s else
      match g.stop with
      | some st => finishReq s rid st
      | none =>
        if op = 0x15 || op = 0x16 then
          let other := if op = 0x15 then 0x16 else 0x15
          match tabFind r.stages other with
          | none => s
          | some h =>
            if !stageReady s r other h then s else
            match beginStage s rid 0x16 with
            | (.ok, s) =>
              match beginStage s rid 0x15 with
              | (.ok, s) => s
              | (st, s) => finishReq s rid st
            | (st, s) => finishReq s rid st
        else
          match beginStage s rid op with
          | (.ok, s) => s
          | (st, s) => finishReq s rid st

/-- A row about a running stage, one step of its command (spec/15 R376): a stop ends the request there (spec/13 R340, spec/15
R388), a map's failure too. -/
def stageRow (s : State) (rid op : Nat) (f : State → Request → Stage → State) : State :=
  match getReq s rid with
  | none => s
  | some r =>
    let g := tabGet {} r.stages op
    if g.phase ≠ .running || !purWorks s then s else
    match g.stop with
    | some st => finishReq s rid st
    | none =>
      match mapFailure s g with
      | some st => mapStops s rid op r st
      | none => noteStep (f s r g) g.cmd

/-! ### CANCEL and PREFIX_RETIRE (spec/13 R329, R340) -/

/-- CANCEL (spec/13 R312, R340): a request record of another REQUEST_ID makes it fail. -/
def cancelCmd (s : State) (id : Nat) : State :=
  startRow s id 0x17 fun c =>
    let rid := fld c.desc 40 8
    let addr := fld c.desc 16 8
    if fld c.desc 24 8 ≠ 0 || fld c.desc 32 8 ≠ 0 || addr = 0 || addr % 64 ≠ 0 then endPlain s id .internal else
    match runActVal (rdNat (whoPurser none) (addr + 8) 8) s with
    | (.error st, s) => endPlain s id st
    | (.ok n, s) =>
    if n ≠ rid then endPlain s id .internal else
    match getReq s rid with
    | none => endPlain s id .lateCancel
    | some r =>
      if !(getMb s c.mb).parts.getLsbD (ctxPart r.ctx) then endPlain s id .internal
      else if r.ring.isSome then pushEvent (putCmd s id { c with phase := .running }) rid (.cancel id)
      else
        let s := endPlain s id .ok
        if r.stages.any fun p => p.2.live then
          putReq s rid { r with stages := tabMap (fun _ g => { g with stop := some .cancelled }) r.stages }
        else finishReq s rid .cancelled

/-- PREFIX_RETIRE. -/
def prefixRetireCmd (s : State) (id : Nat) : State :=
  startRow s id 0x18 fun c =>
    let g := fld c.desc 24 8
    if fld c.desc 16 8 ≠ 0 || fld c.desc 32 8 ≠ 0 || g = 0 || g % 64 ≠ 0 || bits g 63 60 ≠ 0 then endPlain s id .internal
    else if globalModule g = ownModule s then
      let r := runAct (retireWork (localPart g)) s
      endPlain r.2 id r.1
    else if (choosePort s (globalModule g)).isNone then endPlain s id .linkLost
    else putCmd (purserSend s (globalModule g) (.prefixRetire id (localPart g))) id
      { c with phase := .running, peer := some (globalModule g) }

/-! ### Disabling (spec/15 R387-R389) -/

/-- Whether a request uses a context, a slot, or the mailbox of its POUR. -/
def pourMailbox (s : State) (r : Request) : Option Nat :=
  match tabFind r.stages 0x16 with
  | some g => (getCmd s g.cmd).map (·.mb)
  | none => none

/-- A function of a request is disabled: with an open ring a terminal record follows; else the running stage stops at
its next boundary, and held stages alone end at once. `hit` tells which stage commands use the function. -/
def disableReq (s : State) (rid : Nat) (whole : Request → Bool) (hit : PCmd → Bool) : State :=
  match getReq s rid with
  | none => s
  | some r =>
    let uses (g : Stage) : Bool := !g.over && (whole r || match getCmd s g.cmd with | some c => hit c | none => false)
    if r.ring.isSome then
      (if r.stages.any fun p => uses p.2 then pushEvent s rid (.error .abortedDisabled) else s)
    else
      if !(r.stages.any fun p => uses p.2) then s
      else if r.stages.any fun p => p.2.live then
        putReq s rid { r with stages := tabMap (fun _ g => if uses g then { g with stop := some .abortedDisabled } else g) r.stages }
      else finishReq s rid .abortedDisabled

/-- Every request meets the disabling of a function. -/
def disableReqs (s : State) (whole : Request → Bool) (hit : PCmd → Bool) : State :=
  s.pur.reqs.foldl (fun s p => disableReq s p.1 whole hit) s

/-- Whether some stage command in flight uses a context, or some request a slot. -/
def requestsUse (s : State) (whole : Request → Bool) : Bool :=
  s.pur.reqs.any fun p => whole p.2 && p.2.stages.any fun q => !q.2.over

/-! ### Rows -/

/-- STAGE_START (spec/13 R313). -/
def execStageStart (rid op : Nat) (s : State) : Host.Outcome State Fault Refusal := .next (stageStart s rid op)
/-- STAGE_COMPLETE (spec/15 R384). -/
def execStageComplete (rid op : Nat) (s : State) : Host.Outcome State Fault Refusal := .next (stageComplete s rid op)
/-- CANCEL (spec/13 R340). -/
def execCancel (id : Nat) (s : State) : Host.Outcome State Fault Refusal := .next (cancelCmd s id)
/-- PREFIX_RETIRE (spec/13 R329). -/
def execPrefixRetire (id : Nat) (s : State) : Host.Outcome State Fault Refusal := .next (prefixRetireCmd s id)

end Sys2Proof.Machine
end

