-- ==== Sys2Proof/Machine/Peers.lean ====
section
/-! DEFINITION. What the purser of a module does for the purser of a request, here or on another module (spec/13 R316-R318,
R321, R323-R328; spec/06 R145-R154; spec/16 R417): QUERYs and cascades of shards, segments, passages, KV pages, and the KV
and attention of a layer. What a model computes is not the spec's: KV rows, query vectors and scores are free values
(log 28). Which engine of a kind runs a command, and where working space lies, is the firmware's (log 95). -/

namespace Sys2Proof.Machine

/-! ### Sort/select and barge commands of the purser -/

/-- A TOPK (0xA0) or SORT (0xA1) of packed FP32 keys, largest or smallest first, `k` 0 for SORT (spec/10 Table 10-3). -/
def packedBytes (ctx : Nat) (largest : Bool) (k count src dst summary elem scratch : Nat) : Bytes :=
  [if k = 0 then 0xA1 else 0xA0, BitVec.ofNat 8 ctx, BitVec.ofNat 8 (16 * b2n largest), 1] ++ toLe 2 1 ++ toLe 2 0 ++ toLe 4 k ++
  toLe 4 count ++ toLe 8 src ++ toLe 8 dst ++ toLe 8 summary ++ toLe 8 0 ++ toLe 4 0 ++ toLe 4 elem ++ toLe 8 scratch

/-- A choice of `k` of `n` packed keys in a working space at `a`: where its records, its summary and its scratch lie, and its
end. -/
def choiceDst (a n : Nat) : Nat := a + up64 (4 * n)
/-- See `choiceDst`. -/
def choiceSum (a n k : Nat) : Nat := choiceDst a n + 32 * (if k = 0 then n else k)
/-- See `choiceDst`. -/
def choiceScratch (a n k : Nat) : Nat := up64 (choiceSum a n k + 32)
/-- See `choiceDst`. -/
def choiceEnd (a n k : Nat) : Nat := choiceScratch a n k + (if k = 0 then up64 (32 * n) else 64 * k)

/-- The TOPK or SORT of that choice, elements from number `elem` on. -/
def choiceBytes (ctx : Nat) (largest : Bool) (a n k elem : Nat) : Bytes :=
  packedBytes ctx largest k n a (choiceDst a n) (choiceSum a n k) elem (choiceScratch a n k)

/-- The valid records of that choice. -/
def choiceRecs (w : Who) (a n k : Nat) : Act (List SelRec) := do
  let m := if k = 0 then n else k
  let c ← rdNat w (choiceSum a n k + 4) 4
  let b ← rd w (choiceDst a n) (32 * min m c)
  return ((List.range (min m c)).map (recAt b)).filter SelRec.valid

/-- A linear MOVE (spec/07 Table 7-4), its source on another module when `far`. -/
def linearBytes (ctx : Nat) (far : Bool) (src dst n : Nat) : Bytes :=
  [0x40, BitVec.ofNat 8 ctx, BitVec.ofNat 8 (b2n far), 0] ++ toLe 4 0 ++ toLe 8 src ++ toLe 8 dst ++ toLe 8 0 ++ toLe 4 n ++ toLe 28 0

/-- The MOVEs, of at most 1 MiB each, that bring `n` bytes from a global address to a local one (spec/07 R172, R180). -/
def bringBytes (s : State) (ctx : Nat) : Nat → Nat → Nat → Nat → List Bytes
  | 0, _, _, _ => []
  | f + 1, src, dst, n =>
    if n = 0 then [] else
    let m := min n 1048576
    let far := globalModule src ≠ ownModule s
    linearBytes ctx far (if far then src else localPart src) dst m :: bringBytes s ctx f (src + m) (dst + m) (n - m)

/-- MOVEs on a barge that the context may use. -/
def bring (s : State) (ctx src dst n : Nat) : List (Eng × Bytes) × State :=
  let e := pickEng s .barge ctx
  ((bringBytes s ctx (n / 1048576 + 1) src dst n).map fun b => (e.1, b), e.2)

/-! ### The probes and the QUERY of a shard (spec/09 R213, spec/13 R316) -/

/-- A query vector converted to a centroid format, as activation rows of 64. -/
def centroidRows (cfmt : Nat) (v : List Val) : Nat → List ActRow
  | 0 => []
  | n + 1 =>
    let x := v.take 64
    let bw := elemBits (fmtElem cfmt)
    let row : ActRow :=
      if isMx (fmtElem cfmt) then
        let a := mxQuant (fmtElem cfmt) (x.take 32)
        let b := mxQuant (fmtElem cfmt) (x.drop 32)
        { fmt := cfmt, elems := leNat (packBytes bw (a.2 ++ b.2)), scale0 := a.1, scale1 := b.1 }
      else { fmt := cfmt, elems := leNat (packBytes bw (x.map (elemEnc (fmtElem cfmt)))) }
    row :: centroidRows cfmt (v.drop 64) n

/-- The score of one centroid: its column of the panel against the query. -/
def centroidScore (w : Who) (panel cfmt op : Nat) (rows : List ActRow) (c : Nat) : Act (BitVec 32) := do
  let n := tileN cfmt
  (rows.zipIdx).foldlM (fun acc x => do
    let img ← rd w (panel + (c / n * rows.length + x.2) * tileSize cfmt) (tileSize cfmt)
    return passEntry op (x.2 = 0) (tileView cfmt img) x.1 (c % n) acc) 0

/-- The scores of all centroids of a shard as packed keys, and whether the largest are the best. -/
def centroidKeys (w : Who) (desc qvec : Nat) : Act (Bytes × Bool) := do
  let d ← rd w desc 64
  let dim := fld d 4 2
  let cfmt := fld d 3 1
  let l2 := bits (fld d 2 1) 3 2 = 1
  let q ← rd w qvec (4 * dim)
  let rows := centroidRows cfmt ((List.range dim).map fun i => f32Dec (BitVec.ofNat 32 (fld q (4 * i) 4))) (dim / 64)
  let keys ← (List.range (fld d 8 4)).mapM fun c => centroidScore w (fld d 16 8) cfmt (b2n l2) rows c
  return ((keys.map fun k => toLe 4 k.toNat).flatten, !l2)

/-- Where a QUERY's filter, probes, scratch, result and keys lie in its working space, behind its vector. -/
def ShardQuery.filterAt (buf : Nat) : Nat := buf + 16384
/-- See `ShardQuery.filterAt`. -/
def ShardQuery.probesAt (buf : Nat) : Nat := buf + 16640
/-- See `ShardQuery.filterAt`. -/
def ShardQuery.scratchAt (q : ShardQuery) (buf : Nat) : Nat := ShardQuery.probesAt buf + up64 (4 * q.nprobe)
/-- See `ShardQuery.filterAt`. -/
def ShardQuery.resultAt (q : ShardQuery) (buf : Nat) : Nat := q.scratchAt buf + 64 * max q.k q.refine
/-- See `ShardQuery.filterAt`. -/
def ShardQuery.keysAt (q : ShardQuery) (buf : Nat) : Nat := up64 (q.resultAt buf + 32 + 32 * q.k)

/-- The QUERY with `n` probes (spec/09 Table 9-6). -/
def queryBytes (q : ShardQuery) (buf n : Nat) : Bytes :=
  [0x80, BitVec.ofNat 8 q.ctx, 0, 0] ++ toLe 2 q.k ++ toLe 2 n ++ toLe 2 q.refine ++ toLe 6 0 ++ toLe 8 q.desc ++ toLe 8 buf ++
  toLe 8 (ShardQuery.probesAt buf) ++ toLe 8 (if q.filter then ShardQuery.filterAt buf else 0) ++ toLe 8 (q.scratchAt buf) ++
  toLe 8 (q.resultAt buf)

/-- The slice with the most free query contexts among those the context may use, the lowest on ties (spec/13 R316, log 57). -/
def freestSlice (s : State) (ctx : Nat) : Nat :=
  let free (k : Nat) : Nat := 1024 - (getSlice s k).queries.length
  ((List.range 16).foldl (fun best k =>
    if mayReach s (sliceEng k) ctx then
      match best with
      | some b => if free b < free k then some k else best
      | none => some k
    else best) none).getD 0

/-- The probes are written and the QUERY goes to its slice. -/
def queryReady (q : ShardQuery) (buf : Nat) (probes : List Nat) : Act (ShardQuery × List (Eng × Bytes)) := do
  wr (whoPurser (some q.ctx)) (ShardQuery.probesAt buf) (probes.map (toLe 4)).flatten
  let s ← get
  let b := queryBytes q buf probes.length
  return ({ q with cmd := b }, [(sliceEng (freestSlice s q.ctx), b)])

/-- A QUERY of a SEARCH starts: the vector and the filter are placed, the centroids scored, and their TOPK made; of a shard
not attached the slice itself refuses the QUERY. -/
def queryBegin (q : ShardQuery) (buf : Nat) (qvec filter : Bytes) : Act (ShardQuery × List (Eng × Bytes)) := do
  let w := whoPurser (some q.ctx)
  wr w buf qvec
  wr w (ShardQuery.filterAt buf) filter
  let s ← get
  if !isAttached s q.desc then queryReady q buf (List.replicate q.nprobe 0) else do
  let k ← centroidKeys w q.desc buf
  wr w (q.keysAt buf) k.1
  let s ← get
  let e := pickEng s .ssu q.ctx
  set e.2
  return (q, [(e.1, choiceBytes q.ctx k.2 (q.keysAt buf) (k.1.length / 4) q.nprobe 0)])

/-- The TOPK of the centroids has given the probes. -/
def queryProbes (q : ShardQuery) (buf : Nat) : Act (ShardQuery × List (Eng × Bytes)) := do
  let w := whoPurser (some q.ctx)
  let d ← rd w q.desc 64
  let r ← choiceRecs w (q.keysAt buf) (fld d 8 4) q.nprobe
  queryReady q buf (r.map (·.pay))

/-- The METRIC and the records of a QUERY that has completed. -/
def shardResult (q : ShardQuery) (buf : Nat) : Act (Nat × Bytes) := do
  let w := whoPurser (some q.ctx)
  let m ← rdNat w (q.desc + 2) 1
  let b ← rd w (q.resultAt buf + 32) (32 * q.k)
  return (m % 4, b)

/-- A part of a SEARCH or RERANK is answered. -/
def partAnswer (s : State) (rid i : Nat) (f : SearchPart → SearchPart) : State :=
  modReq s rid fun r => { r with parts := (r.parts.zipIdx).map fun p => if p.2 = i then f p.1 else p.1 }

/-- The answer to entry `i` of a SEARCH of module `m`. -/
def tellSearched (s : State) (m rid i : Nat) (st : Status) (metric : Nat) (recs : Bytes) : State :=
  if m = ownModule s then partAnswer s rid i fun x => { x with status := some st, metric := metric, data := recs }
  else purserSend s m (.searched rid i st.code metric recs)

/-- The answer to entry `i` of a RERANK of module `m`. -/
def tellReranked (s : State) (m rid i : Nat) (st : Status) (recs : Bytes) : State :=
  if m = ownModule s then partAnswer s rid i fun x => { x with status := some st, data := recs }
  else purserSend s m (.reranked rid i st.code recs)

/-- The results this module keeps for a RERANK (spec/01 R33). -/
def keepFound (s : State) (g : Nat × Nat × Nat) (b : Bytes) : State :=
  { s with pur := { s.pur with found := (g, b) :: s.pur.found.filter fun x => x.1 ≠ g } }

/-- A QUERY of a SEARCH has completed: with RERANK to follow its records stay here. -/
def querySettled (s : State) (g : Nat × Nat × Nat) (q : ShardQuery) (buf : Nat) (st : Status) : State :=
  if !st.good then tellSearched s g.1 g.2.1 g.2.2 st 0 [] else
  match runActVal (shardResult q buf) s with
  | (.error e, s) => tellSearched s g.1 g.2.1 g.2.2 e 0 []
  | (.ok (metric, b), s) =>
    if q.tokens.isSome then tellSearched (keepFound s g b) g.1 g.2.1 g.2.2 st metric []
    else tellSearched s g.1 g.2.1 g.2.2 st metric b

/-! ### Directories and the cascade (spec/13 R317, R318; spec/06 R152-R154) -/

/-- Look a passage up in a directory: its tokens' address and number (spec/13 R317). -/
def dirFind (w : Who) (base slots x : Nat) : Nat → Nat → Act (Option (Nat × Nat))
  | 0, _ => pure none
  | f + 1, i => do
    let e ← rd w (base + 32 * i) 32
    if fld e 0 8 = x then return some (fld e 8 8, fld e 16 4)
    else if fld e 0 8 = allOnes then return none
    else dirFind w base slots x f ((i + 1) % slots)

/-- The lookup from the place the hash gives. -/
def dirLookup (w : Who) (base slots x : Nat) : Act (Option (Nat × Nat)) :=
  dirFind w base slots x slots (x * 0x9E3779B97F4A7C15 % 2 ^ 64 / (2 ^ 64 / slots))

/-- The event of a passage that a directory does not hold. -/
def passageMissing (s : State) (rid ctx x : Nat) : State :=
  logEntry s { code := some .passageMissing, source := purSrc, ctx := some (BitVec.ofNat 7 ctx), detail := toLe 8 x ++ toLe 8 rid }

/-- Every record gets the score of one layer: the model's, a value the spec does not give (log 28). -/
def scoreRecs (s : State) (l : List SelRec) : List SelRec × State :=
  l.foldl (fun acc r =>
    let f := takeFree acc.2
    (acc.1 ++ [{ r with key := f.1 % 2 ^ 32 }], f.2)) ([], s)

/-- Records in position order. -/
def byPosition (l : List SelRec) : List SelRec := sortBy (fun a b => a.pos < b.pos || (a.pos = b.pos && a.src ≤ b.src)) l

/-- The candidates that pass an exit. -/
def exitKeep (thresh : BitVec 32) (keepMin : Nat) (alive : List SelRec) : List SelRec :=
  let keep := alive.filter fun r =>
    !(fpKey r.key).isNan && !(f32Dec thresh).isNan && !(fpKey r.key).lt (f32Dec thresh)
  if keep.length < keepMin then byPosition ((sortRecs 0 true alive).take keepMin) else keep

/-- The layers of a cascade, from `l` on. -/
def cascadeLayers (c : Bytes) : Nat → Nat → List SelRec → State → List SelRec × State
  | 0, _, alive, s => (alive, s)
  | n + 1, l, alive, s =>
    let r := scoreRecs s alive
    let alive := match (List.range (fld c 1 1)).find? fun x => fld c (16 + 8 * x) 1 = l with
      | some x => exitKeep (BitVec.ofNat 32 (fld c (20 + 8 * x) 4)) (fld c 4 2) r.1
      | none => r.1
    cascadeLayers c n (l + 1) alive r.2

/-- The list a cascade delivers (spec/06 R154). -/
def cascade (c : Bytes) (cands : List SelRec) (s : State) : List SelRec × State :=
  let r := cascadeLayers c (fld c 2 1) 1 (byPosition cands) s
  ((sortRecs 0 true r.1).take (fld c 6 2), r.2)

/-- The candidates of a result, each with its tokens read; one the directory does not hold is removed (spec/13 R318). -/
def rerankList (rid ctx : Nat) (recs c : Bytes) (directory slots : Nat) : Act Bytes := do
  let w := whoPurser (some ctx)
  let all := ((List.range (recs.length / 32)).map fun i => { recAt recs i with src := i }).filter SelRec.valid
  let cands ← all.foldlM (fun (acc : List SelRec) r => do
    match ← dirLookup w directory slots r.pay with
    | some (a, n) =>
      let _ ← rd w a (4 * n)
      return acc ++ [r]
    | none =>
      actMod fun s => passageMissing s rid ctx r.pay
      return acc) []
  let s ← get
  let r := cascade c cands s
  set r.2
  return (r.1.map (recBytes 0)).flatten

/-- RERANK of a result that this module keeps (spec/01 R33, spec/13 R318). -/
def serveRerank (s : State) (m rid part ctx : Nat) (c : Bytes) (directory slots : Nat) : State :=
  let g := (m, rid, part)
  match s.pur.found.find? fun x => x.1 = g with
  | none => tellReranked s m rid part .internal []
  | some x =>
    let s := { s with pur := { s.pur with found := s.pur.found.filter fun y => y.1 ≠ g } }
    match runActVal (rerankList rid ctx x.2 c directory slots) s with
    | (.ok l, s) => tellReranked s m rid part .ok l
    | (.error st, s) => tellReranked s m rid part st []

/-! ### Prefix segments (spec/13 R320, R321, R328) -/

/-- A reference of a ready segment is taken in one operation; its record, page list and passages. -/
def segTakeWork (a : Nat) : Act (List Bytes) := do
  let w := whoPurser none
  let d ← rd w a 64
  if fld d 56 1 ≠ 1 then return [d]
  wrNat w (a + 44) 4 (fld d 44 4 + 1)
  let pages ← rd w (fld d 32 8) (16 * (segPages (fld d 20 4) (fld d 16 4)).2)
  let c ← rd w (fld d 48 8) (8 * fld d 40 4)
  return [d, pages, c]

/-- The record and the token list of a segment. -/
def segReadWork (a : Nat) : Act (List Bytes) := do
  let d ← rd (whoPurser none) a 64
  let t ← rd (whoPurser none) (fld d 24 8) (4 * fld d 16 4)
  return [d, t]

/-- A segment of this module becomes ready, with its START and page list (spec/13 R328). -/
def publishHere (a start : Nat) (entries : Bytes) : Act Unit := do
  let w := whoPurser none
  let d ← rd w a 64
  wrNat w (a + 20) 4 start
  wr w (fld d 32 8) entries
  wrNat w (a + 44) 4 1
  wrNat w (a + 56) 1 1

/-- A request, or a segment, takes a reference of a segment. -/
def takeRef (s : State) (g : Nat) : State :=
  if globalModule g = ownModule s then addRef s (localPart g)
  else purserSend s (globalModule g) (.prefixRef (localPart g) true)

/-- A passage's address and number of tokens, as an answer. -/
def lookupWork (ctx directory slots x : Nat) : Act (List Bytes) := do
  match ← dirLookup (whoPurser (some ctx)) directory slots x with
  | some (a, n) => return [toLe 8 a, toLe 4 n]
  | none => return []

/-! ### KV pages (spec/13 R323, R325, R326; spec/06 R145) -/

/-- The region of a layer and KV head in a page. -/
def kvHead (m : Model) (page l h : Nat) : Nat := page + (l * m.heads + h) * (2 * kvPart m.kvfmt m.dim + 4 * kvSummary m.dim)

/-- The K and V rows of one position are written. -/
def kvRow (w : Who) (m : Model) (page l h row : Nat) : Act Unit :=
  [kvHead m page l h, kvHead m page l h + kvPart m.kvfmt m.dim].forM fun base =>
    (rowPieces base m.kvfmt m.dim row).forM fun p => wrFree w p.1 p.2

/-- The summary of 64 keys: their FP32 sum in ascending position, divided by 64, as MXFP8 E4M3 (spec/06 R145). -/
def summaryOf (dim : Nat) (keys : List (List (BitVec 32))) : Bytes :=
  let sum := keys.foldl (fun acc k => (acc.zip k).map fun p => f32Add p.1 p.2) (List.replicate dim 0)
  let mean := sum.map fun x => (f32Dec x).scale (-6)
  let blocks := (List.range (dim / 32)).map fun i => mxQuant 3 ((mean.drop (32 * i)).take 32)
  (blocks.map fun b => packBytes 8 b.2).flatten ++ blocks.map fun b => BitVec.ofNat 8 b.1

/-- Element `i` of row `r` of 64 rows of a row buffer, converted to FP32 (spec/03 R70, R78, log 89). -/
def blockElem (b : Bytes) (f r i : Nat) : BitVec 32 :=
  let bw := elemBits (fmtElem f)
  let img := i / 64 * isz f
  let bitpos := (r * 64 + i % 64) * bw
  let v := elemVal (fmtElem f) (fld b (img + bitpos / 8) (ceilDiv (bitpos % 8 + bw) 8) / 2 ^ (bitpos % 8) % 2 ^ bw)
  if isMx (fmtElem f) then f32Enc (v.mul (scaleVal (fld b (img + actElems f + 2 * r + i % 64 / 32) 1))) else f32Enc v

/-- A row of 64 rows of a row buffer. -/
def blockRow (b : Bytes) (f dim r : Nat) : List (BitVec 32) := (List.range dim).map (blockElem b f r)

/-- The bytes of one part, K or V, of a block: 64 rows. -/
def blockSize (m : Model) : Nat := kvPart m.kvfmt m.dim / 4

/-- Where K of block `b` (within its page) of a layer and head lies; V lies a K part further. -/
def blockAt (m : Model) (page l h b : Nat) : Nat := kvHead m page l h + b % 4 * blockSize m
/-- Where its summary lies. -/
def summaryAt (m : Model) (page l h b : Nat) : Nat := kvHead m page l h + 2 * kvPart m.kvfmt m.dim + b % 4 * kvSummary m.dim

/-- Summary `j` of a page is written from its stored keys. -/
def kvSummarize (w : Who) (m : Model) (page l h j : Nat) : Act Unit := do
  let k ← rd w (blockAt m page l h j) (blockSize m)
  wr w (summaryAt m page l h j) (summaryOf m.dim ((List.range 64).map (blockRow k m.kvfmt m.dim)))

/-- The local address of page `p` among pages (index, global address), where it lies here. -/
def pageHere (s : State) (pages : List (Nat × Nat)) (p : Nat) : Option Nat :=
  match pages.find? fun x => x.1 = p with
  | some x => if globalModule x.2 = ownModule s then some (localPart x.2) else none
  | none => none

/-- One layer's K, V and completed summaries for the positions whose pages lie here. -/
def kvLayer (w : Who) (m : Model) (l first last : Nat) (pages : List (Nat × Nat)) : Act Unit :=
  (List.range (last + 1 - first)).forM fun i => do
    let pos := first + i
    let s ← get
    match pageHere s pages (pos / 256) with
    | none => pure ()
    | some a =>
      (List.range m.heads).forM fun h => do
        kvRow w m a l h (pos % 256)
        if pos % 64 = 63 then kvSummarize w m a l h (pos % 256 / 64)

/-- Free pages of a local pool, by address. -/
def freeInPool (s : State) (pool n pb : Nat) : List Nat :=
  ((List.range n).map fun i => pool + i * pb).filter fun a => !s.pur.kv.contains a

/-- Take pages from a local pool; which free page is taken the spec leaves open (log 30). -/
def takePages (pool n pb : Nat) : Nat → State → Option (List Nat × State)
  | 0, s => some ([], s)
  | k + 1, s =>
    let l := freeInPool s pool n pb
    if l = [] then none else
    let f := takeFree s
    let a := l.getD (f.1 % l.length) 0
    match takePages pool n pb k { f.2 with pur := { f.2.pur with kv := a :: f.2.pur.kv } } with
    | some (as, s) => some (a :: as, s)
    | none => none

/-- Pages of a local pool, by their global addresses (spec/13 R326). -/
def kvTakeWork (pool n pb k : Nat) : Act (List Bytes) := do
  let s ← get
  match takePages pool n pb k s with
  | none => throw .mapOverflow
  | some (as, s) =>
    set s
    return as.map fun a => toLe 8 (globalAddr (ownModule s) a)

/-- What a model record says of its KV pages. -/
def modelOf (b : Bytes) : Model :=
  { kvfmt := fld b 1 1, layers := fld b 2 2, heads := fld b 4 2, dim := fld b 6 2, record := b }

/-! ### Attention (spec/06 R146-R150) -/

/-- Whether a step attends densely (spec/06 R147). -/
def attendsDense (sel : Bytes) (len : Nat) : Bool := fld sel 0 1 = 1 || (fld sel 0 1 = 0 && len < fld sel 8 4)

/-- The blocks always attended by a query block in KV block `q`: the first and the local ones (spec/06 R148). -/
def nearBlocks (sel : Bytes) (q : Nat) : List Nat := (List.range (q + 1)).filter fun b => b = 0 || q + 1 ≤ b + fld sel 2 2

/-- The candidates of that query block. -/
def candBlocks (sel : Bytes) (q : Nat) : List Nat := (List.range (q + 1)).filter fun b => 1 ≤ b && b + fld sel 2 2 ≤ q

/-- Whether the candidates must be scored: more than TOP_B, and not dense. -/
def scoresBlocks (sel : Bytes) (len q : Nat) : Bool :=
  !attendsDense sel len && decide (fld sel 4 2 < (candBlocks sel q).length)

/-- The attended set, given the choice among the candidates where they are scored (spec/06 R147, R148). -/
def attended (sel : Bytes) (len q : Nat) (chosen : List Nat) : List Nat :=
  if attendsDense sel len then List.range (q + 1)
  else nearBlocks sel q ++ if scoresBlocks sel len q then chosen else candBlocks sel q

/-- The mean of a query block's vectors: their FP32 sum in ascending position over their number (spec/06 R149). -/
def meanQuery (dim : Nat) (vs : List (List (BitVec 32))) : List (BitVec 32) :=
  let sum := vs.foldl (fun acc v => (acc.zip v).map fun p => f32Add p.1 p.2) (List.replicate dim 0)
  sum.map fun x => if (f32Dec x).notFinite then x else f32DivExact (f32Dec x) (Val.ofInt vs.length)

/-- The mean query as MXFP8 E4M3, one weight column of 64 elements for each k step (spec/06 R149). -/
def querySum (dim : Nat) (mean : List (BitVec 32)) : List TileView :=
  (List.range (dim / 64)).map fun t =>
    let x := (mean.drop (64 * t)).take 64
    let a := mxQuant 3 ((x.take 32).map f32Dec)
    let b := mxQuant 3 ((x.drop 32).map f32Dec)
    { fmt := 3, elems := leNat (packBytes 8 (a.2 ++ b.2)), scales := [BitVec.ofNat 8 a.1, BitVec.ofNat 8 b.1] }

/-- A summary as activation rows of 64 elements. -/
def summaryRows (dim : Nat) (b : Bytes) : List ActRow :=
  (List.range (dim / 64)).map fun t =>
    { fmt := 3, elems := fld b (64 * t) 64, scale0 := fld b (dim + 2 * t) 1, scale1 := fld b (dim + 2 * t + 1) 1 }

/-- The inner product of qsum with a summary, accumulated by R73 (spec/06 R149). -/
def blockScore (dim : Nat) (qs : List TileView) (summary : Bytes) : BitVec 32 :=
  ((qs.zip (summaryRows dim summary)).zipIdx).foldl (fun acc x => passEntry 0 (x.2 = 0) x.1.1 x.1.2 0 acc) 0

/-- The query heads that share a KV head; the model record does not give their number (log 28). -/
def headGroup (m : Model) : Nat := max 1 (Config.queryGroup m.record)

/-- The query heads of a model. -/
def queryHeads (m : Model) : Nat := m.heads * headGroup m

/-- The vector of query head `j` at a position. -/
def Attend.query (a : Attend) (m : Model) (pos j : Nat) : List (BitVec 32) :=
  (List.range m.dim).map fun i =>
    BitVec.ofNat 32 (Config.free (a.base + ((pos - a.first) * queryHeads m + j) * m.dim + i))

/-- The positions of the chunk that lie here. -/
def Attend.positions (a : Attend) (s : State) : List Nat :=
  ((List.range (a.last + 1 - a.first)).map (a.first + ·)).filter fun pos => (pageHere s a.pages (pos / 256)).isSome

/-- The query blocks of the chunk. -/
def Attend.blocks (a : Attend) (s : State) : List Nat := ((a.positions s).map (· / 64)).eraseDups

/-- The query positions of a query block. -/
def Attend.inBlock (a : Attend) (s : State) (q : Nat) : List Nat := (a.positions s).filter fun pos => pos / 64 = q

/-- The choices to be made: each scored query block with each query head. -/
def Attend.choices (a : Attend) (s : State) (m : Model) : List (Nat × Nat) :=
  ((a.blocks s).filter (scoresBlocks a.sel a.len)).flatMap fun q => (List.range (queryHeads m)).map fun j => (q, j)

/-- The page of a block, as a global address. -/
def Attend.pageOf (a : Attend) (b : Nat) : Option Nat := (a.pages.find? fun x => x.1 = b / 4).map (·.2)

/-- The working space: the summaries, the choices, then the K and V parts that are brought here. -/
def Attend.sumBuf (a : Attend) (m : Model) (buf h b : Nat) : Nat := buf + (h * (a.last / 64 + 1) + b) * kvSummary m.dim
/-- See `Attend.sumBuf`. -/
def Attend.choiceBuf (a : Attend) (m : Model) (buf i : Nat) : Nat :=
  let base := a.sumBuf m buf m.heads 0
  base + i * (choiceEnd 0 (a.last / 64 + 1) (fld a.sel 4 2))
/-- See `Attend.sumBuf`. -/
def Attend.kvBuf (a : Attend) (s : State) (m : Model) (buf h b : Nat) : Nat :=
  a.choiceBuf m buf (a.choices s m).length + (h * (a.last / 64 + 1) + b) * (2 * blockSize m)

/-- Where a part of a block is read: here, or in the working space it was brought to. -/
def Attend.at_ (a : Attend) (s : State) (b here there : Nat) : Option Nat :=
  match a.pageOf b with
  | some g => some (if globalModule g = ownModule s then here else there)
  | none => none

/-- MOVEs of parts of blocks of other modules: global source, local place, size (spec/13 R327). -/
def Attend.fetch (a : Attend) (s : State) (l : List (Nat × Nat × Nat)) : List (Eng × Bytes) × State :=
  l.foldl (fun acc x => let r := bring acc.2 a.ctx x.1 x.2.1 x.2.2; (acc.1 ++ r.1, r.2)) ([], s)

/-- The parts of a list of (head, block) that lie on other modules. -/
def Attend.remote (a : Attend) (s : State) (l : List (Nat × Nat)) (f : Nat → Nat → Nat → List (Nat × Nat × Nat)) :
    List (Nat × Nat × Nat) :=
  l.flatMap fun x => match a.pageOf x.2 with
    | some g => if globalModule g = ownModule s then [] else f g x.1 x.2
    | none => []

/-- First the summaries of the candidates that other modules hold are brought here. -/
def Attend.wantSummaries (a : Attend) (s : State) (m : Model) (buf : Nat) : List (Nat × Nat × Nat) :=
  let scored := (((a.blocks s).filter (scoresBlocks a.sel a.len)).flatMap (candBlocks a.sel)).eraseDups
  a.remote s ((List.range m.heads).flatMap fun h => scored.map fun b => (h, b)) fun g h b =>
    [(summaryAt m g a.layer h b, a.sumBuf m buf h b, kvSummary m.dim)]

/-- The scores of one choice are written as packed keys; its TOPK, with the block number as element index. -/
def Attend.score (a : Attend) (w : Who) (m : Model) (buf i q j : Nat) : Act Bytes := do
  let s ← get
  let h := j / headGroup m
  let cand := candBlocks a.sel q
  let qs := querySum m.dim (meanQuery m.dim ((a.inBlock s q).map fun pos => a.query m pos j))
  let keys ← cand.mapM fun b => do
    match a.at_ s b (match pageHere s a.pages (b / 4) with | some p => summaryAt m p a.layer h b | none => 0) (a.sumBuf m buf h b) with
    | some x => return blockScore m.dim qs (← rd w x (kvSummary m.dim))
    | none => return f32Nan
  let at_ := a.choiceBuf m buf i
  wr w at_ (keys.map fun k => toLe 4 k.toNat).flatten
  return choiceBytes a.ctx true at_ cand.length (fld a.sel 4 2) (cand.headD 1)

/-- Then the choices run on a sort/select unit. -/
def Attend.choose (a : Attend) (w : Who) (m : Model) (buf : Nat) : Act (List (Eng × Bytes)) := do
  let s ← get
  let cs ← ((a.choices s m).zipIdx).mapM fun x => a.score w m buf x.2 x.1.1 x.1.2
  let s ← get
  let e := pickEng s .ssu a.ctx
  set e.2
  return cs.map fun b => (e.1, b)

/-- The blocks that a query block attends with a query head. -/
def Attend.attends (a : Attend) (w : Who) (m : Model) (buf q j : Nat) : Act (List Nat) := do
  let s ← get
  if !scoresBlocks a.sel a.len q then return attended a.sel a.len q []
  let i := ((a.choices s m).findIdx? (· = (q, j))).getD 0
  let r ← choiceRecs w (a.choiceBuf m buf i) (candBlocks a.sel q).length (fld a.sel 4 2)
  return attended a.sel a.len q (r.map (·.pay))

/-- Then K and V of the attended blocks that other modules hold are brought here. -/
def Attend.wantBlocks (a : Attend) (w : Who) (m : Model) (buf : Nat) : Act (List (Nat × Nat × Nat)) := do
  let s ← get
  let all ← ((a.blocks s).flatMap fun q => (List.range (queryHeads m)).map fun j => (q, j)).mapM fun x => do
    return (← a.attends w m buf x.1 x.2).map fun b => (x.2 / headGroup m, b)
  let s ← get
  return a.remote s all.flatten.eraseDups fun g h b =>
    let d := a.kvBuf s m buf h b
    let n := blockSize m
    [(blockAt m g a.layer h b, d, n), (blockAt m g a.layer h b + kvPart m.kvfmt m.dim, d + n, n)]

/-- The attention of one query over the keys and values of the attended positions: their softmax by the inner products, and
the weighted sum of the values (spec/06 R150). -/
def attendQuery (dim : Nat) (query : List (BitVec 32)) (kv : List (List (BitVec 32) × List (BitVec 32))) : List (BitVec 32) :=
  let dot (k : List (BitVec 32)) : BitVec 32 := (query.zip k).foldl (fun acc p => f32Fma p.1 p.2 acc) 0
  let scores := kv.map fun x => dot x.1
  (kv.zipIdx).foldl (fun acc x => (acc.zip x.1.2).map fun p => f32Fma (vSoftmax scores x.2) p.2 p.1) (List.replicate dim 0)

/-- K and V of one block, with its positions. -/
def Attend.rdBlock (a : Attend) (w : Who) (m : Model) (buf h b : Nat) : Act (List (Nat × List (BitVec 32) × List (BitVec 32))) := do
  let s ← get
  let n := blockSize m
  let here := match pageHere s a.pages (b / 4) with | some p => blockAt m p a.layer h b | none => 0
  match a.at_ s b here (a.kvBuf s m buf h b), a.at_ s b (here + kvPart m.kvfmt m.dim) (a.kvBuf s m buf h b + n) with
  | some x, some y =>
    let k ← rd w x n
    let v ← rd w y n
    return (List.range 64).map fun r => (64 * b + r, blockRow k m.kvfmt m.dim r, blockRow v m.kvfmt m.dim r)
  | _, _ => return []

/-- Last, every query attends the keys at positions up to its own. -/
def Attend.compute (a : Attend) (w : Who) (m : Model) (buf : Nat) : Act (List (List (BitVec 32))) := do
  let s ← get
  let out ← ((a.blocks s).flatMap fun q => (List.range (queryHeads m)).map fun j => (q, j)).mapM fun x => do
    let bs ← a.attends w m buf x.1 x.2
    let kv ← bs.mapM fun b => a.rdBlock w m buf (x.2 / headGroup m) b
    return (a.inBlock s x.1).map fun pos =>
      attendQuery m.dim (a.query m pos x.2) ((kv.flatten.filter fun y => y.1 ≤ pos).map (·.2))
  return out.flatten

/-- The next run of engine commands of an attention; none, with its results kept, when all is done. -/
def Attend.next (a : Attend) (buf : Nat) : Act (Option (Attend × List (Eng × Bytes))) := do
  let w := whoPurser (some a.ctx)
  let m := modelOf a.model
  let s ← get
  match a.phase with
  | 0 =>
    let r := a.fetch s (a.wantSummaries s m buf)
    set r.2
    return some ({ a with phase := 1 }, r.1)
  | 1 => return some ({ a with phase := 2 }, ← a.choose w m buf)
  | 2 =>
    let l ← a.wantBlocks w m buf
    let s ← get
    let r := a.fetch s l
    set r.2
    return some ({ a with phase := 3 }, r.1)
  | _ =>
    let out ← a.compute w m buf
    actMod fun s => { s with pur := { s.pur with attention := out } }
    return none

/-! ### Questions and answers -/

/-- An answer goes to the purser that asked. -/
def answerAsk (s : State) (m rid key : Nat) (a : Answer) : State :=
  if m = ownModule s then takeAnswer s m rid key a else purserSend s m (.answer rid key a.status.code a.data)

/-- A command of the purser's own is over, and whoever asked for it is told. -/
def settleOwn (s : State) (id : Nat) (c : PCmd) (st : Status) : State :=
  let s := { s with pur := { s.pur with cmds := tabDel s.pur.cmds id } }
  match c.guest, c.work with
  | some g, .query q => querySettled s g q c.buf st
  | some g, _ => answerAsk s g.1 g.2.1 g.2.2 { status := st }
  | none, _ => s

/-- A command of the purser's own goes on as far as no engine command is in flight: the next one is offered, or what follows
the last is done. -/
def ownStep : Nat → State → Nat → State
  | 0, s, _ => s
  | f + 1, s, id =>
    match getCmd s id with
    | none => s
    | some c =>
      if c.jobs ≠ [] || c.work = .none then s else
      let st := (tabFind c.done 0).getD .ok
      if !st.good && c.work ≠ .sample then settleOwn s id c st
      else if c.offer ≠ [] then offerKept s id
      else match c.work with
        | .query q =>
          if q.cmd ≠ [] then settleOwn s id c st else
          match runActVal (queryProbes q c.buf) s with
          | (.ok (q, l), s) => ownStep f (putCmd s id { c with work := .query q, offer := l }) id
          | (.error e, s) => settleOwn s id c e
        | .attend a =>
          match runActVal (a.next c.buf) s with
          | (.ok (some (a, l)), s) => ownStep f (putCmd s id { c with work := .attend a, offer := l }) id
          | (.ok none, s) => settleOwn s id c .ok
          | (.error e, s) => settleOwn s id c e
        | .copy => settleOwn s id c .ok
        | _ => s

/-- A command of the purser's own starts. -/
def startOwn (s : State) (c : PCmd) : State := ownStep 8 (ownCmd s c) s.pur.nextId

/-- The QUERY of entry `part` of a SEARCH of module `m` (spec/13 R316), its working space at `buf`. -/
def serveSearch (s : State) (m rid part : Nat) (q : ShardQuery) (qvec filter : Bytes) (buf : Nat) : State :=
  match runActVal (queryBegin q buf qvec filter) s with
  | (.error st, s) => tellSearched s m rid part st 0 []
  | (.ok (q, l), s) => startOwn s { guest := some (m, rid, part), work := .query q, offer := l, buf := buf }

/-- What can be answered at once. -/
def askWork (q : PurserAsk) : Act (List Bytes) :=
  match q with
  | .segTake a => segTakeWork a
  | .segRead a => segReadWork a
  | .shardDim d => do return [toLe 2 (← rdNat (whoPurser none) (d + 4) 2)]
  | .lookup c d n x => lookupWork c d n x
  | .kvTake pool n pb k => kvTakeWork pool n pb k
  | .kv c model l first last pages => do
    kvLayer (whoPurser (some c)) (modelOf model) l first last pages
    return []
  | .copy .. => return []
  | .attend .. => return []

/-- A question of module `m` about its request; `buf` is the working space the firmware gives it. -/
def serveAsk (s : State) (m rid key : Nat) (q : PurserAsk) (buf : Nat) : State :=
  match q with
  | .copy c src dst n =>
    let r := bring s c src (localPart dst) n
    startOwn r.2 { guest := some (m, rid, key), work := .copy, offer := r.1, buf := buf }
  | .attend c model sel l len first last pages =>
    let md := modelOf model
    let a : Attend := { ctx := c, model := model, sel := sel, layer := l, len := len, first := first, last := last,
                        pages := pages, base := s.freeCtr }
    startOwn { s with freeCtr := s.freeCtr + (last + 1 - first) * queryHeads md * md.dim }
      { guest := some (m, rid, key), work := .attend a, buf := buf }
  | q =>
    match runActVal (askWork q) s with
    | (.ok d, s) => answerAsk s m rid key { data := d }
    | (.error st, s) => answerAsk s m rid key { status := st }

/-- A request's purser asks the purser of module `m`, once: LINK_LOST without a path to it (spec/16 R404). -/
def ask (s : State) (rid key m : Nat) (q : PurserAsk) (buf : Nat) : State :=
  match getReq s rid with
  | none => s
  | some r =>
    if (tabFind r.asks key).isSome || (tabFind r.answers key).isSome then s else
    let t := putReq s rid { r with asks := tabPut r.asks key m }
    if m = ownModule s then serveAsk t m rid key q buf
    else if (choosePort s m).isSome then purserSend t m (.ask rid key q)
    else takeAnswer t m rid key { status := .linkLost }

/-- What came back for question `key` of a request. -/
def answered (s : State) (rid key : Nat) : Option Answer := (getReq s rid).bind fun r => tabFind r.answers key

/-- A request's answers are used up. -/
def clearAnswers (s : State) (rid : Nat) : State := modReq s rid fun r => { r with answers := [] }

/-- Where the answers of some questions stand: not all in; all in, the first bad status among them; or all good. -/
def allAnswered (s : State) (rid : Nat) (keys : List Nat) : Option Status :=
  if keys.all fun k => (answered s rid k).isSome then
    some (((keys.filterMap (answered s rid)).map (·.status)).find? (fun st => !st.good) |>.getD .ok)
  else none

/-! ### Rows -/

/-- ENQUEUE_OFFER (spec/15 R380): the next command of an ENQUEUE is offered; of a command of the purser's own, the next of
those it runs (log 95). -/
def enqueueStep (s : State) (id : Nat) : State :=
  match getCmd s id with
  | none => s
  | some c => if c.enq.isSome then enqueueOffer s id else if c.mover.isSome then offerKept s id else ownStep 8 s id

/-- ENQUEUE_OFFER (spec/15 R380). -/
def execEnqueueOffer (id : Nat) (s : State) : Host.Outcome State Fault Refusal := .next (enqueueStep s id)

end Sys2Proof.Machine
end

