-- ==== Sys2Proof/Machine/Stages.lean ====
section
/-! DEFINITION. The stages from the question to the packed prompt (spec/13 R314-R321): EMBED, SEARCH, RERANK, PACK. The
addresses of the buffers the purser gives its engine commands, and the unit that merges, are the firmware's: operands. -/

namespace Sys2Proof.Machine

/-- A stage offers engine command `i`, once (spec/13 R311). -/
def stageIssue (s : State) (id i : Nat) (e : Eng) (b : Bytes) : State :=
  match getCmd s id with
  | none => s
  | some c =>
    if c.jobs.contains i then s else
    let s' := putCmd s id { c with jobs := i :: c.jobs }
    match offerCmd s' e b (some (id, i)) with
    | (_, .waits) => s
    | (t, .queued) => t
    | (t, .ended st) => reportCmd t (some (id, i)) st
    | (t, .refused) => reportCmd t (some (id, i)) .internal

/-- How engine command `i` of a stage completed, if it has. -/
def jobStatus (s : State) (id i : Nat) : Option Status := (getCmd s id).bind fun c => tabFind c.done i

/-! ### EMBED (spec/13 R314) -/

/-- The TOKENIZE of the question. -/
def tokenizeBytes (r : Request) (summary : Nat) : Bytes :=
  [0xE0, BitVec.ofNat 8 r.ctx, 0, BitVec.ofNat 8 r.slot] ++ toLe 4 (fld r.record 32 4) ++ toLe 8 (fld r.record 24 8) ++
  toLe 8 (fld r.record 40 8) ++ toLe 4 (fld r.record 48 4) ++ toLe 4 0 ++ toLe 8 summary ++ toLe 24 0

/-- A stage tokenizes the question, its summary at `buf`; then `next` goes on with QCOUNT written. -/
def tokenizeStage (s : State) (rid op buf : Nat) (r : Request) (g : Stage) (next : State → Request → State) : State :=
  match jobStatus s g.cmd 0 with
  | none =>
    let s' := stageIssue s g.cmd 0 ⟨.grinder, 0⟩ (tokenizeBytes r buf)
    if ((getCmd s' g.cmd).map (·.jobs)) = ((getCmd s g.cmd).map (·.jobs)) then s'
    else modReq s' rid fun r => r.modStage op fun g => { g with step := buf + 2 }
  | some .ok =>
    match runActVal (rdNat (whoPurser none) (g.step - 2 + 4) 4) s with
    | (.ok n, s) =>
      let r := { r with qcount := n }
      next (recPut (putReq s rid r) r 52 4 n) r
    | (.error st, s) => stageWorked s rid op st
  | some st => stageWorked s rid op st

/-- EMBED. -/
def embedStage (s : State) (rid buf : Nat) : State :=
  stageRow s rid 0x10 fun s r g => tokenizeStage s rid 0x10 buf r g fun s _ => stageWorked s rid 0x10 .ok

/-! ### SEARCH (spec/13 R316, R319) -/

/-- The QUERY of a shard entry as its module runs it. -/
def shardQuery (r : Request) (b : Bytes) (desc : Nat) (tokens : Option Bytes) : ShardQuery :=
  { ctx := r.ctx, desc := desc, nprobe := fld b 4 2, k := fld b 6 2, refine := fld b 46 2, filter := fld b 16 8 ≠ 0,
    tokens := tokens }

/-- What SEARCH carries to a module: the query vector of the shard's DIM, the filter record, and for RERANK the question
tokens. -/
def searchCarries (r : Request) (b : Bytes) (dim : Nat) : Act (Bytes × Bytes × Option Bytes) := do
  let w := whoPurser (some r.ctx)
  let v ← rd w (fld r.record 56 8) (4 * dim)
  let f ← if fld b 16 8 = 0 then pure [] else rd w (fld b 16 8) 192
  let t ← if bit (recFlags r.record) 1 then do
      let t ← rd w (fld r.record 40 8) (4 * r.qcount)
      pure (some t)
    else pure none
  return (v, f, t)

/-- Entry `i` is told to its module once the shard's DIM is known; a failure is that entry's, and the others go on. -/
def searchTell (rid : Nat) (b : Bytes) (bufs : List Nat) (s : State) (i : Nat) : State :=
  match getReq s rid, answered s rid i with
  | some r, some a =>
    let x := r.parts.getD i {}
    if x.sent || x.status.isSome then s else
    let s := partAnswer s rid i fun x => { x with sent := true }
    let fail (s : State) (st : Status) : State := partAnswer s rid i fun x => { x with status := some st }
    if !a.status.good then fail s a.status else
    match runActVal (searchCarries r b (leNat (a.data.headD []))) s with
    | (.error st, s) => fail s st
    | (.ok (v, f, t), s) =>
      if x.module = ownModule s then serveSearch s x.module rid i (shardQuery r b x.desc t) v f (bufs.getD i 0)
      else if (choosePort s x.module).isNone then fail s .linkLost
      else purserSend s x.module (.search rid i r.ctx x.desc (fld b 4 2) (fld b 6 2) (fld b 46 2) v f t)
  | _, _ => s

/-- The first status of the parts that is not good. -/
def partsFail (ps : List SearchPart) : Option Status :=
  (ps.filterMap (·.status)).find? fun st => !st.good

/-- The engine-command number of a stage's MERGE. -/
def mergeJob : Nat := 65536

/-- The MERGE of a stage (spec/13 R319): lists in SHARDS order, DEDUP set, GENPOS clear. The lists are written to the
buffers; the table and the working space follow. -/
def mergeBytes (r : Request) (mergeK kt : Nat) (largest : Bool) (bufs : List Nat) : Act Bytes := do
  let w := whoPurser (some r.ctx)
  let lists ← (r.parts.zipIdx).mapM fun p => do
    let a := bufs.getD p.2 0
    wr w a p.1.data
    return (a, p.1.data.length / 32)
  let n := r.parts.length
  wr w (bufs.getD n 0) (lists.map fun l => toLe 8 l.1 ++ toLe 4 l.2 ++ toLe 4 0).flatten
  return [0xA2, BitVec.ofNat 8 r.ctx, BitVec.ofNat 8 (kt + 16 * b2n largest + 32), 0] ++ toLe 2 n ++ toLe 2 0 ++ toLe 4 mergeK ++
    toLe 4 0 ++ toLe 8 (bufs.getD n 0) ++ toLe 8 (fld r.record 168 8) ++ toLe 8 (fld r.record 176 8) ++ toLe 16 0 ++
    toLe 8 (bufs.getD (n + 1) 0)

/-- A stage merges on unit `u` and completes with the merge's status. -/
def mergeStage (s : State) (rid op u : Nat) (r : Request) (g : Stage) (mergeK kt : Nat) (largest : Bool) (bufs : List Nat) :
    State :=
  match jobStatus s g.cmd mergeJob with
  | some st => stageWorked s rid op st
  | none =>
    match runActVal (mergeBytes r mergeK kt largest bufs) s with
    | (.ok b, s) => stageIssue s g.cmd mergeJob (ssuEng u) b
    | (.error st, s) => stageWorked s rid op st

/-- The key type and direction of the merge of QUERY results (spec/13 R319). -/
def metricKey (metric : Nat) : Nat × Bool := if metric = 0 then (0, true) else if metric = 1 then (0, false) else (2, false)

/-- SEARCH starts: every module of SHARDS is asked for its shard's DIM. -/
def searchBegin (s : State) (rid : Nat) (shards : List (Nat × Nat)) : State :=
  let s := modReq s rid fun r => { r with answers := [], parts := shards.map fun x => { module := x.1, desc := x.2 } }
  (shards.zipIdx).foldl (fun s x => ask s rid x.2 x.1.1 (.shardDim x.1.2) 0) s

/-- SEARCH goes on: entries are told, and once all have completed the stage fails, completes, or merges. -/
def searchGoOn (s : State) (rid : Nat) (b : Bytes) (bufs : List Nat) (u : Nat) (g : Stage) : State :=
  let n := ((getReq s rid).map fun r => r.parts.length).getD 0
  let s := (List.range n).foldl (searchTell rid b bufs) s
  match getReq s rid with
  | none => s
  | some r =>
    if r.parts.any fun p => p.status.isNone then s else
    match partsFail r.parts with
    | some st => stageWorked s rid 0x11 st
    | none =>
      if bit (recFlags r.record) 1 then stageWorked s rid 0x11 .ok else
      let key := metricKey ((r.parts.head?.map (·.metric)).getD 0)
      mergeStage s rid 0x11 u r g (fld b 44 2) key.1 key.2 bufs

/-- SEARCH. -/
def searchStage (s : State) (rid : Nat) (bufs : List Nat) (u : Nat) : State :=
  stageRow s rid 0x11 fun s r g =>
    let w := whoPurser (some r.ctx)
    match runActVal (rd w g.param 64) s with
    | (.error st, s) => stageWorked s rid 0x11 st
    | (.ok b, s) =>
      if g.step ≠ 0 then searchGoOn s rid b bufs u g else
      match runActVal (rdShards w b) s with
      | (.error st, s) => stageWorked s rid 0x11 st
      | (.ok l, s) =>
        searchGoOn (searchBegin (modReq s rid fun r => r.modStage 0x11 fun g => { g with step := 1 }) rid l) rid b bufs u g

/-! ### RERANK (spec/13 R318) -/

/-- The cascade of every part, on the module that ran its QUERY (spec/01 R33). -/
def rerankBegin (s : State) (rid : Nat) (r : Request) (b c : Bytes) : State :=
  let s := modReq s rid fun r => { r with parts := r.parts.map fun p => { p with data := [], status := none } }
  (r.parts.zipIdx).foldl (fun s p =>
    let m := p.1.module
    if m = ownModule s then serveRerank s m rid p.2 r.ctx c (fld b 32 8) (dirSlots b)
    else if (choosePort s m).isNone then partAnswer s rid p.2 fun x => { x with status := some .linkLost }
    else purserSend s m (.rerank rid p.2 r.ctx c (fld b 32 8) (dirSlots b))) s

/-- RERANK. -/
def rerankStage (s : State) (rid : Nat) (bufs : List Nat) (u : Nat) : State :=
  stageRow s rid 0x12 fun s r g =>
    let w := whoPurser (some r.ctx)
    match runActVal (rd w g.param 64) s with
    | (.error st, s) => stageWorked s rid 0x12 st
    | (.ok b, s) =>
      if g.step = 0 then
        match runActVal (rd w (fld b 24 8) 144) s with
        | (.error st, s) => stageWorked s rid 0x12 st
        | (.ok c, s) => rerankBegin (modReq s rid fun r => r.modStage 0x12 fun g => { g with step := 1 }) rid r b c
      else if r.parts.any fun p => p.status.isNone then s
      else
        match partsFail r.parts with
        | some st => stageWorked s rid 0x12 st
        | none => mergeStage s rid 0x12 u r g (fld b 44 2) 0 true bufs

/-! ### PACK (spec/13 R320, R321) -/

/-- A segment from what its module's purser answered. -/
def segmentOf (g : Nat) (a : Answer) : Segment :=
  let d := a.data.headD []
  let c := a.data.getD 2 []
  { addr := g, ready := fld d 56 1 = 1, parent := fld d 8 8, tokens := fld d 16 4, start := fld d 20 4, pages := a.data.getD 1 [],
    covered := (List.range (c.length / 8)).map fun i => fld c (8 * i) 8 }

/-- Change how far PACK is. -/
def modPack (s : State) (rid : Nat) (f : PackSt → PackSt) : State := modReq s rid fun r => { r with pack := f r.pack }

/-- The segments of the chain that PACK uses, the root first: the ready ones above the first that is not. -/
def usedSegments (segs : List Segment) : List Segment := segs.reverse.takeWhile (·.ready)

/-- The chain is known: what lies below the first segment that is not ready is released, and CACHED is written. -/
def chainTaken (s : State) (rid : Nat) : State :=
  match getReq s rid with
  | none => s
  | some r =>
    let used := usedSegments r.pack.segs
    let rest := (r.pack.segs.reverse.drop used.length).filter (·.ready)
    let s := rest.foldl (fun s x => dropRef chainFuel x.addr s) s
    let cached := (used.map (·.tokens)).sum
    let r := { r with chain := used.map (·.addr), cached := cached, pack := { r.pack with segs := used } }
    recPut (putReq s rid (r.modStage 0x13 fun g => { g with sub := 2 })) r 92 4 cached

/-- Step 1 of PACK, segment by segment up to the root; each is asked of the purser of its module. -/
def takeChain : Nat → State → Nat → State
  | 0, s, _ => s
  | f + 1, s, rid =>
    match getReq s rid with
    | none => s
    | some r =>
      let g := r.pack.next
      if g = 0 then chainTaken s rid else
      let key := r.pack.segs.length + 8192
      let s := ask s rid key (globalModule g) (.segTake (localPart g)) 0
      match answered s rid key with
      | none => s
      | some a =>
        if !a.status.good then stageWorked s rid 0x13 a.status else
        let x := segmentOf g a
        takeChain f (modReq s rid fun r => { r with
          answers := tabDel r.answers key
          chain := if x.ready then r.chain ++ [g] else r.chain
          pack := { r.pack with next := x.parent, segs := r.pack.segs ++ [x] } }) rid

/-- The room left for passages. -/
def packRoom (r : Request) : Nat := fld r.record 36 4 - r.cached - r.qcount - r.pack.out

/-- The engine-command number of the MOVE of a passage, by the records then left. -/
def passageJob (r : Request) : Nat := 65536 + r.pack.todo.length

/-- The aligned bytes around a passage's tokens: their start and size (spec/07 Table 7-4). -/
def passageSpan (x : Nat × Nat) : Nat × Nat := (x.1 / 64 * 64, up64 (x.1 % 64 + 4 * x.2))

/-- The tokens of the passage under way have been read by MOVE to `buf`: they go to PROMPT, and the next record follows. -/
def passageIn (s : State) (rid buf : Nat) (r : Request) (x : Nat × Nat) : State :=
  let w := whoPurser (some r.ctx)
  let x := runAct (do
    let t ← rd w (buf + x.1 % 64) (4 * x.2)
    wr w (fld r.record 80 8 + 4 * r.pack.out) t
    actMod fun s => modPack s rid fun p => { p with todo := p.todo.tail, out := p.out + x.2, found := none }) s
  if x.1 = .ok then x.2 else stageWorked x.2 rid 0x13 x.1

/-- The next passage of the merge (spec/13 R321): looked up in the directory of its module, and its tokens read by MOVE.
`covered` are the passages of the chain, `i` the index of the record. -/
def packPassage (s : State) (rid buf : Nat) (r : Request) (g : Stage) (b : Bytes) (covered : List Nat) (x : SelRec) : State × Bool :=
  let next (s : State) : State := modPack s rid fun p => { p with todo := p.todo.tail }
  if !x.valid || covered.contains x.pay then (next s, true) else
  let m := x.pos / 2 ^ 52
  match r.pack.found with
  | some y =>
    match jobStatus s g.cmd (passageJob r) with
    | some st => if st.good then (passageIn s rid buf r y, true) else (stageWorked s rid 0x13 st, false)
    | none =>
      let e := pickEng s .barge r.ctx
      let p := passageSpan y
      let far := m ≠ ownModule s
      (stageIssue e.2 g.cmd (passageJob r) e.1
        (linearBytes r.ctx far (if far then globalAddr m p.1 else p.1) buf p.2), false)
  | none =>
    let key := 16384 + r.pack.todo.length
    let s := ask s rid key m (.lookup r.ctx (fld b 32 8) (dirSlots b) x.pay) 0
    match answered s rid key with
    | none => (s, false)
    | some a =>
      if !a.status.good then (stageWorked s rid 0x13 a.status, false) else
      let s := modReq s rid fun r => { r with answers := tabDel r.answers key }
      match a.data with
      | [at_, n] =>
        if packRoom r < leNat n then (modPack s rid fun p => { p with todo := [] }, true)
        else (modPack s rid fun p => { p with found := some (leNat at_, leNat n) }, true)
      | _ => (next (passageMissing s rid r.ctx x.pay), true)

/-- Step 4 of PACK, as far as no engine command or answer is awaited; the flag says that it is done. -/
def packPassages (rid buf : Nat) (b m : Bytes) : Nat → State → State × Bool
  | 0, s => (s, false)
  | f + 1, s =>
    match getReq s rid with
    | none => (s, false)
    | some r =>
      match r.pack.todo with
      | [] => (s, true)
      | i :: _ =>
        let p := packPassage s rid buf r (tabGet {} r.stages 0x13) b (r.pack.segs.map (·.covered)).flatten (recAt m i)
        if p.2 then packPassages rid buf b m f p.1 else (p.1, false)

/-- The page table entries that the chain gives, later segments over earlier ones. -/
def chainEntries (segs : List Segment) : Tab Bytes :=
  segs.foldl (fun t x =>
    let p := segPages x.start x.tokens
    ((List.range p.2).filter (p.1 + · < 4096)).foldl (fun t i => tabPut t (p.1 + i) ((x.pages.drop (16 * i)).take 16)) t) []

/-- The question tokens behind the passages, and step 5 of PACK. -/
def packEnd (rid : Nat) (r : Request) : Act Unit := do
  let w := whoPurser (some r.ctx)
  let q ← rd w (fld r.record 40 8) (4 * r.qcount)
  wr w (fld r.record 80 8 + 4 * r.pack.out) q
  let t := chainEntries r.pack.segs
  (List.range 4096).forM fun p =>
    match tabFind t p with
    | some e => wr w (fld r.record 72 8 + 16 * p) e
    | none => wr w (fld r.record 72 8 + 16 * p + 10) (toLe 2 0)
  let context := r.cached + r.pack.out + r.qcount
  actMod fun s =>
    let r := { r with context := context, state := 2 }
    recPut (recPut (putReq s rid r) r 88 4 context) r 184 2 2

/-- The last steps of PACK. -/
def packFinish (s : State) (rid : Nat) : State :=
  match getReq s rid with
  | none => s
  | some r => let x := runAct (packEnd rid r) s; stageWorked x.2 rid 0x13 x.1

/-- Steps 3 and 4 of PACK. -/
def packTokens (s : State) (rid buf : Nat) (g : Stage) : State :=
  match getReq s rid with
  | none => s
  | some r =>
    if fld r.record 36 4 < r.cached + r.qcount then stageWorked s rid 0x13 .lengthExceeded
    else if !bit (recFlags r.record) 0 then packFinish s rid
    else
      let w := whoPurser (some r.ctx)
      match runActVal (do
          let b ← rd w g.param 64
          let m ← rd w (fld r.record 168 8) (32 * fld b 44 2)
          return (b, m)) s with
      | (.error st, s) => stageWorked s rid 0x13 st
      | (.ok (b, m), s) =>
        let s := if g.sub = 3 then s else
          modReq s rid fun r => { (r.modStage 0x13 fun g => { g with sub := 3 }) with
            pack := { r.pack with todo := List.range (fld b 44 2), out := 0, found := none } }
        let p := packPassages rid buf b m (3 * fld b 44 2 + 1) s
        if p.2 then packFinish p.1 rid else p.1

/-- PACK, in the order of R321. -/
def packStage (s : State) (rid buf : Nat) : State :=
  stageRow s rid 0x13 fun s r g =>
    let s := if g.sub ≠ 0 then s else
      modReq s rid fun r => { (r.modStage 0x13 fun g => { g with sub := 1 }) with
        answers := [], pack := { next := fld r.record 64 8 } }
    let s := if 2 ≤ g.sub then s else takeChain chainFuel s rid
    match getReq s rid with
    | none => s
    | some r' =>
      let g := tabGet {} r'.stages 0x13
      if !g.runs || g.sub < 2 then s
      else if bit (recFlags r.record) 0 then packTokens s rid buf g
      else tokenizeStage s rid 0x13 buf r' g fun s _ => packTokens s rid buf g

/-! ### Rows -/

/-- EMBED (spec/13 R314). -/
def execEmbed (rid buf : Nat) (s : State) : Host.Outcome State Fault Refusal := .next (embedStage s rid buf)
/-- SEARCH (spec/13 R316). -/
def execSearch (rid : Nat) (bufs : List Nat) (u : Nat) (s : State) : Host.Outcome State Fault Refusal :=
  .next (searchStage s rid bufs u)
/-- RERANK (spec/13 R318). -/
def execRerank (rid : Nat) (bufs : List Nat) (u : Nat) (s : State) : Host.Outcome State Fault Refusal :=
  .next (rerankStage s rid bufs u)
/-- PACK (spec/13 R321). -/
def execPack (rid buf : Nat) (s : State) : Host.Outcome State Fault Refusal := .next (packStage s rid buf)

end Sys2Proof.Machine
end

