-- ==== Sys2Proof/Machine/Serving.lean ====
section
/-! DEFINITION. PREFILL and DECODE (spec/13 R322-R333, R341, R342): KV pages, page tables, publishing, the layers, the decode
step with its deficit round robin, and sampling. Where the engine commands of a stage have their working space is the
firmware's: an operand. -/

namespace Sys2Proof.Machine

/-! ### Page tables (spec/13 R322) -/

/-- PAGE of an entry of a request's page table; none where VALID is clear. The flag is SHARED. -/
def pageEntry (w : Who) (r : Request) (p : Nat) : Act (Option (Nat × Bool)) := do
  let e ← rd w (fld r.record 72 8 + 16 * p) 16
  return if bit (fld e 10 2) 0 then some (fld e 0 8, bit (fld e 10 2) 1) else none

/-- Write an entry of a request's page table (spec/13 Table 13-6). -/
def wrPageEntry (w : Who) (r : Request) (p g fill : Nat) (shared : Bool) : Act Unit :=
  wr w (fld r.record 72 8 + 16 * p) (toLe 8 g ++ toLe 2 fill ++ toLe 2 (1 + 2 * b2n shared) ++ toLe 4 0)

/-- The pages of a request up to position `last`: the new ones, and those its page table gives. -/
def allPages (w : Who) (r : Request) (last : Nat) : Act (List (Nat × Nat)) := do
  let l ← (List.range (last / 256 + 1)).mapM fun p => do
    match tabFind r.pages p with
    | some g => return [(p, g)]
    | none =>
      match ← pageEntry w r p with
      | some e => return [(p, e.1)]
      | none => return []
  return l.flatten

/-! ### PREFILL (spec/13 R326-R328) -/

/-- The numbers of a PREFILL's questions: about the segment to publish, and for the copy of the first page. -/
def segmentAsk : Nat := 0
/-- See `segmentAsk`. -/
def copyAsk : Nat := 1

/-- The pages of chunk `i` (spec/13 R326). -/
def chunkPages (m : Model) (n i : Nat) : Nat := n / m.group.length + if i < n % m.group.length then 1 else 0

/-- The pages a PREFILL needs: the first, and how many. -/
def newPages (r : Request) : Nat × Nat := (r.cached / 256, ceilDiv r.context 256 - r.cached / 256)

/-- The members of the group with a chunk. -/
def chunkMembers (m : Model) (n : Nat) : List Nat := (List.range m.group.length).filter fun i => chunkPages m n i ≠ 0

/-- Change where a PREFILL stands. -/
def prefillSub (s : State) (rid sub : Nat) : State := modReq s rid fun r => r.modStage 0x14 fun g => { g with sub := sub }

/-- The checks of R328 on the segment to publish, as its module's purser gave it: its global address and record. -/
def publishCheck (r : Request) (m : Model) (a : Answer) : Act (Nat × Bytes) := do
  let d := a.data.headD []
  let n := fld d 16 4
  stopIf (fld d 56 1 ≠ 0 || fld d 8 8 ≠ fld r.record 64 8 || r.context - r.cached < n) .internal
  let p ← rd (whoPurser (some r.ctx)) (fld r.record 80 8) (4 * n)
  stopIf (a.data.getD 1 [] ≠ p) .internal
  return (m.publish, d)

/-- PREFILL asks about the segment to publish. -/
def prefillAsks (s : State) (rid buf : Nat) (m : Model) : State :=
  let s := prefillSub s rid 1
  if m.publish = 0 then s
  else ask s rid segmentAsk (globalModule m.publish) (.segRead (localPart m.publish)) buf

/-- With the segment good, every member is asked for the pages of its chunk. -/
def prefillChunks (s : State) (rid buf : Nat) (r : Request) (m : Model) : State :=
  let ask' (s : State) : State :=
    (chunkMembers m (newPages r).2).foldl (fun s i =>
      let g := m.group.getD i (0, 0, 0)
      ask s rid (chunkAsk i) g.1 (.kvTake g.2.1 g.2.2 m.pageBytes (chunkPages m (newPages r).2 i)) buf) (prefillSub s rid 2)
  if m.publish = 0 then ask' s else
  match answered s rid segmentAsk with
  | none => s
  | some a =>
    if !a.status.good then stageWorked s rid 0x14 a.status else
    match runActVal (publishCheck r m a) s with
    | (.error st, s) => stageWorked s rid 0x14 st
    | (.ok x, s) => ask' (modReq s rid fun r => { r with segment := some x })

/-- A PREFILL has its pages: the layers follow. -/
def prefillReady (s : State) (rid : Nat) : State :=
  modReq s rid fun r => r.modStage 0x14 fun g => { g with step := 1, sub := 0 }

/-- Every member has answered: the pages are the request's, and the first takes the copy of a partly filled page (spec/13
R324); where a pool lacks pages, all are freed. -/
def prefillGranted (s : State) (rid buf : Nat) (r : Request) (m : Model) : State :=
  let keys := (chunkMembers m (newPages r).2).map chunkAsk
  match allAnswered s rid keys with
  | none => s
  | some st =>
    if !st.good then
      let s := freePages s (((getReq s rid).map grantedPages).getD [])
      stageWorked (clearAnswers s rid) rid 0x14 st
    else
      let as := (keys.filterMap (answered s rid)).flatMap Answer.pages
      let pages := as.zipIdx.map fun a => ((newPages r).1 + a.2, a.1)
      let s := modReq (clearAnswers s rid) rid fun r => { r with pages := pages }
      if r.cached % 256 = 0 then prefillReady s rid else
      match runActVal (pageEntry (whoPurser (some r.ctx)) r (newPages r).1) s, as with
      | (.error st, s), _ => stageWorked s rid 0x14 st
      | (.ok (some (src, _)), s), dst :: _ =>
        ask (prefillSub s rid 3) rid copyAsk (globalModule dst) (.copy r.ctx src dst m.pageBytes) buf
      | (.ok _, s), _ => prefillReady s rid

/-- PREFILL, as far as no answer is awaited. -/
def prefillWork (rid buf : Nat) : Nat → State → State
  | 0, s => s
  | f + 1, s =>
    match getReq s rid with
    | none => s
    | some r =>
      let g := tabGet {} r.stages 0x14
      if !g.runs || g.step ≠ 0 then s else
      match runActVal (rdModel (whoPurser (some r.ctx)) g.param (fld r.record 16 8)) s with
      | (.error st, s) => stageWorked s rid 0x14 st
      | (.ok m, s) =>
        match g.sub with
        | 0 => prefillWork rid buf f (prefillAsks s rid buf m)
        | 1 => prefillWork rid buf f (prefillChunks s rid buf r m)
        | 2 => prefillWork rid buf f (prefillGranted s rid buf r m)
        | _ =>
          match answered s rid copyAsk with
          | none => s
          | some a => if a.status.good then prefillReady (clearAnswers s rid) rid else stageWorked s rid 0x14 a.status

/-- PREFILL. -/
def prefillStage (s : State) (rid buf : Nat) : State :=
  stageRow s rid 0x14 fun s _ g =>
    if g.step ≠ 0 then s else prefillWork rid buf 4 (if g.sub = 0 then clearAnswers s rid else s)

/-- The page table after the last layer (spec/13 R327), SHARED up to position `shared`. -/
def wrPrefillTable (r : Request) (shared : Nat) : Act Unit :=
  r.pages.forM fun p =>
    wrPageEntry (whoPurser (some r.ctx)) r p.1 p.2 (min 256 (r.context - 256 * p.1)) (256 * p.1 < shared)

/-- The segment is published (spec/13 R328): its record is changed by the purser of its module. -/
def publish (rid : Nat) (r : Request) (g : Nat) (d : Bytes) : Act Unit := do
  let s ← get
  let x := segPages r.cached (fld d 16 4)
  let entries ← rd (whoPurser (some r.ctx)) (fld r.record 72 8 + 16 * x.1) (16 * x.2)
  if globalModule g = ownModule s then publishHere (localPart g) r.cached entries
  else set (purserSend s (globalModule g) (.prefixPublish (localPart g) r.cached entries))
  actMod fun s =>
    let s := if fld d 8 8 = 0 then s else takeRef s (fld d 8 8)
    modReq s rid fun r => { r with chain := r.chain ++ [g], pages := r.pages.filter fun p => p.1 < x.1 || x.1 + x.2 ≤ p.1 }

/-- The last layer is done: table, publication, and the logits of the last position. -/
def prefillEnd (rid : Nat) (r : Request) (m : Model) : Act Unit := do
  wrPrefillTable r (match r.segment with | some x => r.cached + fld x.2 16 4 | none => 0)
  match r.segment with
  | some x => publish rid r x.1 x.2
  | none => pure ()
  actMod fun s =>
    let s := modReq { s with freeCtr := s.freeCtr + m.vocab } rid fun r => { r with state := 3, logits := s.freeCtr }
    match getReq s rid with
    | some r => recPut s r 184 2 3
    | none => s

/-- The modules that hold some pages. -/
def pageModules (pages : List (Nat × Nat)) : List Nat := (pages.map fun p => globalModule p.2).eraseDups

/-- The numbers of a layer's questions: to write K and V, and to attend. -/
def kvAsk (i : Nat) : Nat := 256 + i
/-- See `kvAsk`. -/
def attendAsk (i : Nat) : Nat := 512 + i

/-- Every module with new pages is asked to write K, V and summaries of a layer of its chunk. -/
def layerKv (s : State) (rid buf : Nat) (r : Request) (m : Model) (l first last : Nat) (pages : List (Nat × Nat)) : State :=
  (pageModules pages).zipIdx.foldl (fun s x => ask s rid (kvAsk x.2) x.1 (.kv r.ctx m.record l first last pages) buf) s

/-- Then every such module is asked for the attention of its chunk's queries. -/
def layerAttend (s : State) (rid buf : Nat) (r : Request) (m : Model) (l len first last : Nat) (mods : List Nat)
    (pages : List (Nat × Nat)) : State :=
  mods.zipIdx.foldl (fun s x =>
    ask s rid (attendAsk x.2) x.1 (.attend r.ctx m.record (m.select.getD l []) l len first last pages) buf) s

/-- The barrier of a layer (spec/13 R327): where its questions `keys` stand. -/
def layerBarrier (s : State) (rid : Nat) (keys : List Nat) (bad : State → Status → State) (next : State → State) : State :=
  match allAnswered s rid keys with
  | none => s
  | some st => if st.good then next (clearAnswers s rid) else bad s st

/-- A PREFILL's layer is done: the next one follows, or the end. -/
def layerDone (s : State) (rid : Nat) (m : Model) : State :=
  match getReq s rid with
  | none => s
  | some r =>
    let g := tabGet {} r.stages 0x14
    if g.step < m.layers then
      countStep (modReq s rid fun r => r.modStage 0x14 fun g => { g with step := g.step + 1, sub := 0 }) g.cmd
    else
      let x := runAct (prefillEnd rid r m) s
      stageWorked (countStep x.2 g.cmd) rid 0x14 x.1

/-- A layer of a PREFILL, as far as no answer is awaited: K and V of every chunk, then the attention of every chunk. -/
def layerWork (s : State) (rid buf : Nat) (r : Request) (g : Stage) (m : Model) : State :=
  let l := g.step - 1
  let bad := fun s st => stageWorked s rid 0x14 st
  let mods := pageModules r.pages
  let last := r.context - 1
  let attends (s : State) : State :=
    layerBarrier s rid (mods.zipIdx.map fun x => attendAsk x.2) bad fun s => layerDone s rid m
  let writes (s : State) : State :=
    layerBarrier s rid (mods.zipIdx.map fun x => kvAsk x.2) bad fun s =>
      match runActVal (allPages (whoPurser (some r.ctx)) r last) s with
      | (.error st, s) => bad s st
      | (.ok pages, s) =>
        attends (layerAttend (prefillSub s rid 2) rid buf r m l r.context r.cached last mods pages)
  match g.sub with
  | 0 => writes (layerKv (prefillSub s rid 1) rid buf r m l r.cached last r.pages)
  | 1 => writes s
  | _ => attends s

/-- PREFILL_LAYER. -/
def prefillLayer (s : State) (rid buf : Nat) : State :=
  stageRow s rid 0x14 fun s r g =>
    if g.step = 0 then s else
    match runActVal (rdModel (whoPurser (some r.ctx)) g.param (fld r.record 16 8)) s with
    | (.error st, s) => stageWorked s rid 0x14 st
    | (.ok m, s) => layerWork s rid buf r g m

/-! ### DECODE (spec/13 R330-R333) -/

/-- DECODE admits its request to decoding, once POUR has opened the ring; SEED is mixed into the random source (spec/13
R333). -/
def decodeStage (s : State) (rid : Nat) : State :=
  stageRow s rid 0x15 fun s r g =>
    if g.step ≠ 0 || r.ring.isNone then s else
    let s := { s with pur := { s.pur with
      entropy := Config.mixSeed s.pur.entropy (fld r.record 144 8), models := tabMod {} s.pur.models g.param id } }
    putReq s rid ({ r with model := g.param }.modStage 0x15 fun g => { g with step := 1 })

/-- N, the record slots of a ring (spec/13 R334). -/
def ringSlots (r : Request) : Nat := 2 ^ fld r.record 104 1 / 32

/-- Where a spill run of `n` bytes would be placed, if the area has room beside the runs at or above TAIL. -/
def spillPlace (r : Request) (x : RingSt) (n : Nat) : Option Nat :=
  let size := fld r.record 108 4
  let a := if x.place + n ≤ size then x.place else 0
  if n ≤ size && x.runs.all fun q => q.1 < x.tail || a + n ≤ q.2.1 || q.2.1 + q.2.2 ≤ a then some a else none

/-- Whether the ring has room for its next record with `n` spill bytes (spec/13 R336). -/
def ringFits (r : Request) (x : RingSt) (n : Nat) : Bool := x.head < x.tail + ringSlots r && (spillPlace r x n).isSome

/-- TAIL as memory holds it. -/
def rereadTail (s : State) (r : Request) (x : RingSt) : RingSt :=
  let t := leNat (memRead s.mem.bytes (fld r.record 96 8 + 2 ^ fld r.record 104 1 + 8) 8)
  { x with tail := t, runs := x.runs.filter fun q => t ≤ q.1 }

/-- The ring of a request with TAIL reread if the room last seen is used up. -/
def ringNow (s : State) (r : Request) (x : RingSt) (n : Nat) : RingSt := if ringFits r x n then x else rereadTail s r x

/-- Whether a request is eligible for a decode step (spec/13 R341). -/
def eligible (s : State) (model : Nat) (r : Request) : Bool :=
  r.model = model && r.state = 4 && (tabGet {} r.stages 0x15).step = 1 && !r.terminal && !heldByBudget s r &&
  (match r.ring with | some x => ringFits r (ringNow s r x 16384) 16384 | none => false)

/-- Whether one request has waited longer than another, the earlier admitted on ties. -/
def waitedLonger (a b : Nat × Request) : Bool :=
  a.2.waited < b.2.waited || (a.2.waited = b.2.waited && a.2.admitted ≤ b.2.admitted)

/-- The deficit round robin of R341: the requests chosen, and where it stands. `elig` are the eligible requests not yet
chosen, `some'` the classes that had an eligible request. -/
def drr (s : State) (some' : List Nat) : Nat → Nat → List (Nat × Request) → List Nat → ModelSt → List Nat × ModelSt
  | 0, _, _, out, m => (out, m)
  | f + 1, slots, elig, out, m =>
    if slots = 0 || elig = [] then (out, m) else
    let c := m.pointer
    let next : ModelSt := { m with pointer := (c + 1) % 4096, visited := false }
    if !some'.contains c then drr s some' f slots elig out { next with deficit := tabSet 0 next.deficit c 0 }
    else
      match (sortBy waitedLonger (elig.filter fun r => r.2.cls = c)).head? with
      | none => drr s some' f slots elig out next
      | some x =>
        let weight := (getClass s c).weight.toNat
        let cost := s.pur.cost.toNat
        let d := tabGet 0 m.deficit c
        let d := if m.visited then d else min (d + weight) (weight + cost)
        if cost ≤ d then
          drr s some' f (slots - 1) (elig.filter fun r => r.1 ≠ x.1) (out ++ [x.1])
            { m with visited := true, deficit := tabSet 0 m.deficit c (d - cost) }
        else drr s some' f slots elig out { next with deficit := tabSet 0 next.deficit c d }

/-- More rounds than the round robin can need: at most 65,536 slots, 4,096 classes and 65,535 rounds for one slot. -/
def drrFuel : Nat := 2 ^ 50

/-- The running sums of probabilities, added exactly (log 31). -/
def runSums : Val → List (SelRec × Val) → List (SelRec × Val)
  | _, [] => []
  | acc, (r, p) :: t => (r, acc.add p) :: runSums (acc.add p) t

/-- The token sampled from the candidates the unit chose, best first (spec/13 R332); `u` is the random value in steps of
2^-24. -/
def sampleToken (temperature topP : BitVec 32) (c : List SelRec) (u : Nat) : Nat :=
  let best := (c.head?.map (·.pay)).getD 0
  if (f32Dec temperature).isZero then best else
  let xs := c.map fun r => f32DivExact (fpKey r.key) (f32Dec temperature)
  let ps := (List.range c.length).map fun i => f32Dec (vSoftmax xs i)
  if c.any (fun r => (fpKey r.key).isNan) || c.all (fun r => r.key = 0xFF800000) || ps.any Val.isNan then best else
  let sums := runSums Val.zero (c.zip ps)
  let before := sums.takeWhile fun x => x.2.lt (f32Dec topP)
  let kept := sums.take (max 1 (before.length + 1))
  let x := ((kept.getLast?.map (·.2)).getD Val.zero).mul (.fin false (u % 2 ^ 24) (-24))
  ((kept.find? fun y => x.lt y.2).map (·.1.pay)).getD best

/-- The candidates the sort/select unit chooses for a request: the best, the best TOP_K, or with 0 all in order. -/
def sampleK (r : Request) : Nat := if (f32Dec (BitVec.ofNat 32 (fld r.record 128 4))).isZero then 1 else fld r.record 136 4

/-- The choice among a request's logits starts on a sort/select unit, the logits as packed keys at `at_` (spec/13 R332). -/
def sampleBegin (s : State) (vocab rid at_ : Nat) : State :=
  match getReq s rid with
  | none => s
  | some r =>
    let keys := (List.range vocab).flatMap fun i => toLe 4 (Config.free (r.logits + i) % 2 ^ 32)
    match runAct (wr (whoPurser (some r.ctx)) at_ keys) s with
    | (.ok, s) =>
      let e := pickEng s .ssu r.ctx
      let s := putReq e.2 rid { r with sampler := some e.2.pur.nextId }
      startOwn s { work := .sample, buf := at_, offer := [(e.1, choiceBytes r.ctx true at_ vocab (sampleK r) 0)] }
    | (st, s) => requestError s rid st

/-- The choice has been made: the token is handed to the request's sequencer. -/
def sampleEnd (s : State) (vocab rid id : Nat) (r : Request) (c : PCmd) (st : Status) : State :=
  let s := modReq { s with pur := { s.pur with cmds := tabDel s.pur.cmds id } } rid fun r => { r with sampler := none }
  if !st.good then requestError s rid st else
  match runActVal (choiceRecs (whoPurser (some r.ctx)) c.buf vocab (sampleK r)) s with
  | (.error e, s) => requestError s rid e
  | (.ok l, s) =>
    let f := takeFree s
    let t := sampleToken (BitVec.ofNat 32 (fld r.record 128 4)) (BitVec.ofNat 32 (fld r.record 132 4)) l
      (Config.random s.pur.entropy f.1)
    pushEvent f.2 rid (.token t)

/-- A request whose choice is under way: its command is offered, or what it chose taken. -/
def sampleGoOn (s : State) (vocab rid : Nat) : State :=
  match getReq s rid with
  | none => s
  | some r =>
    match r.sampler with
    | none => s
    | some id =>
      match getCmd s id with
      | none => modReq s rid fun r => { r with sampler := none }
      | some c =>
        if c.jobs ≠ [] then s
        else match tabFind c.done 0 with
          | some st => sampleEnd s vocab rid id r c st
          | none => offerKept s id

/-- The bytes of working space that a choice among `vocab` logits takes. -/
def sampleSpace (vocab : Nat) : Nat := choiceEnd 0 vocab 0 + choiceEnd 0 vocab 65536

/-- The first half of a decode step: choose a batch, sample, hand over (spec/13 R330, R341). -/
def stepBegin (s : State) (model : Nat) (m : ModelSt) (buf : Nat) : State :=
  let elig := s.pur.reqs.filter fun p => eligible s model p.2
  match elig.head? with
  | none => s
  | some p =>
    match runActVal (rdModel (whoPurser (some p.2.ctx)) model (fld p.2.record 16 8)) s with
    | (.error st, s) => elig.foldl (fun s p => requestError s p.1 st) s
    | (.ok rec', s) =>
      let x := drr s (elig.map (·.2.cls)) drrFuel rec'.batch elig [] m
      let s := { s with pur := { s.pur with models := tabPut s.pur.models model { x.2 with chosen := x.1, vocab := rec'.vocab } } }
      x.1.zipIdx.foldl (fun s r =>
        sampleBegin (modReq s r.1 fun r => { r with fwd := {} }) rec'.vocab r.1 (buf + r.2 * sampleSpace rec'.vocab)) s

/-- The numbers of a request's questions in a decode step, but for its page: the copy of a shared page, K and V, attention. -/
def stepCopyAsk : Nat := 1
/-- See `stepCopyAsk`. -/
def stepKvAsk : Nat := 2
/-- See `stepCopyAsk`. -/
def stepAttendAsk : Nat := 3

/-- Change how far a request's part of a decode step is. -/
def modFwd (s : State) (rid : Nat) (f : ForwardSt → ForwardSt) : State := modReq s rid fun r => { r with fwd := f r.fwd }

/-- A request's part of a decode step is over. -/
def fwdOver : Nat := 6

/-- A request's forward pass fails: the error reaches its sequencer. -/
def fwdFails (s : State) (rid : Nat) (st : Status) : State := requestError (modFwd s rid fun x => { x with sub := fwdOver }) rid st

/-- The page of position CONTEXT: the table's own, or first a new page (spec/13 R324, R330). -/
def fwdPage (s : State) (rid : Nat) (r : Request) (m : Model) : State :=
  let w := whoPurser (some r.ctx)
  let p := r.context / 256
  match runActVal (do
      let e ← pageEntry w r p
      let last ← if p = 0 then pure none else pageEntry w r (p - 1)
      return (e, last)) s with
  | (.error st, s) => fwdFails s rid st
  | (.ok (some (g, false), _), s) => modFwd s rid fun _ => { sub := 4, page := g }
  | (.ok (e, last), s) =>
    let near := match e with | some x => some x | none => last
    let i := match near with
      | some x => (m.group.findIdx? fun g => g.1 = globalModule x.1).getD 0
      | none => 0
    modFwd s rid fun _ => { sub := 1, member := i }

/-- The page table points at the new page of position CONTEXT. -/
def fwdEntry (s : State) (rid : Nat) (r : Request) : State :=
  let x := runAct (wrPageEntry (whoPurser (some r.ctx)) r (r.context / 256) r.fwd.page (r.context % 256) false) s
  if x.1 = .ok then modFwd x.2 rid fun y => { y with sub := 4 } else fwdFails x.2 rid x.1

/-- The page a pool granted is the request's; a shared page is copied to it first. -/
def fwdGranted (s : State) (rid buf : Nat) (r : Request) (m : Model) (g : Nat) : State :=
  let p := r.context / 256
  let s := modReq (clearAnswers s rid) rid fun r => { r with pages := r.pages ++ [(p, g)], fwd := { r.fwd with sub := 3, page := g } }
  match runActVal (pageEntry (whoPurser (some r.ctx)) r p) s with
  | (.error st, s) => fwdFails s rid st
  | (.ok (some (src, _)), s) =>
    ask (modFwd s rid fun x => { x with sub := 2 }) rid stepCopyAsk (globalModule g) (.copy r.ctx src g m.pageBytes) buf
  | (.ok none, s) => s

/-- A page is asked for: from the module of the last page, then from the next of the group (spec/13 R330). -/
def fwdAsk (s : State) (rid buf : Nat) (r : Request) (m : Model) : State :=
  let i := r.fwd.member % m.group.length
  let g := m.group.getD i (0, 0, 0)
  let s := ask s rid pageAsk g.1 (.kvTake g.2.1 g.2.2 m.pageBytes 1) buf
  match answered s rid pageAsk with
  | none => s
  | some a =>
    if a.status.good then fwdGranted s rid buf r m (a.pages.headD 0)
    else if a.status ≠ .mapOverflow then fwdFails (clearAnswers s rid) rid a.status
    else if r.fwd.tried + 1 < m.group.length then
      modFwd (clearAnswers s rid) rid fun x => { x with member := x.member + 1, tried := x.tried + 1 }
    else fwdFails (clearAnswers s rid) rid .mapOverflow

/-- The forward pass is done: FILL, CONTEXT and the logits of the new position. -/
def fwdDone (s : State) (rid : Nat) (r : Request) (m : Model) : State :=
  let w := whoPurser (some r.ctx)
  let pos := r.context
  let x := runAct (do
    wr w (fld r.record 72 8 + 16 * (pos / 256) + 8) (toLe 2 (pos % 256 + 1))
    actMod fun s =>
      let t := modReq { s with freeCtr := s.freeCtr + m.vocab } rid fun r =>
        { r with context := pos + 1, logits := s.freeCtr, fwd := { r.fwd with sub := fwdOver } }
      recPut t r 88 4 (pos + 1)) s
  if x.1 = .ok then x.2 else fwdFails x.2 rid x.1

/-- One layer of the forward pass, on the module of the page: K and V, then attention (spec/13 R330). -/
def fwdLayer (s : State) (rid buf : Nat) (r : Request) (m : Model) : State :=
  let g := globalModule r.fwd.page
  let pos := r.context
  let l := r.fwd.layer
  let bad := fun s st => fwdFails (clearAnswers s rid) rid st
  let attends (s : State) : State :=
    layerBarrier s rid [stepAttendAsk] bad fun s => modFwd s rid fun x => { x with sub := 4, layer := x.layer + 1 }
  let writes (s : State) : State :=
    layerBarrier s rid [stepKvAsk] bad fun s =>
      match runActVal (allPages (whoPurser (some r.ctx)) r pos) s with
      | (.error st, s) => bad s st
      | (.ok pages, s) =>
        attends (ask (modFwd s rid fun x => { x with sub := 5 }) rid stepAttendAsk g
          (.attend r.ctx m.record (m.select.getD l []) l (pos + 1) pos pos pages) buf)
  if r.fwd.sub = 4 then writes (ask s rid stepKvAsk g (.kv r.ctx m.record l pos pos [(pos / 256, r.fwd.page)]) buf)
  else attends s

/-- One step of a request's forward pass. -/
def fwdStep (s : State) (rid buf : Nat) (r : Request) (m : Model) : State :=
  match r.fwd.sub with
  | 0 => if r.terminal then modFwd s rid fun x => { x with sub := fwdOver } else fwdPage (clearAnswers s rid) rid r m
  | 1 => fwdAsk s rid buf r m
  | 2 =>
    match answered s rid stepCopyAsk with
    | none => s
    | some a =>
      if a.status.good then modFwd (clearAnswers s rid) rid fun x => { x with sub := 3 } else fwdFails (clearAnswers s rid) rid a.status
  | 3 => fwdEntry s rid r
  | 4 => if r.fwd.layer = m.layers then fwdDone s rid r m else fwdLayer s rid buf r m
  | 5 => fwdLayer s rid buf r m
  | _ => s

/-- One request of a step goes on with its forward pass (spec/13 R330 step 3), skipped when its sequencer has written the
terminal record. -/
def forwardRequest (buf : Nat) (s : State) (rid : Nat) : State :=
  match getReq s rid with
  | none => s
  | some r =>
    if r.fwd.sub = fwdOver then s else
    match runActVal (rdModel (whoPurser (some r.ctx)) r.model (fld r.record 16 8)) s with
    | (.error st, s) => fwdFails s rid st
    | (.ok m, s) => fwdStep s rid buf r m

/-- The end of a step for one of its requests: its wait starts, and its DECODE stands at a step boundary. -/
def stepOver (s : State) (rid : Nat) : State :=
  match getReq s rid with
  | none => s
  | some r =>
    countStep (putReq s rid { r with waited := s.hub.time.toNat }) (tabGet {} r.stages 0x15).cmd

/-- The second half of a decode step, once every sequencer has its token: every request goes on with its forward pass, and
when all are done the step ends. -/
def stepForward (s : State) (model : Nat) (m : ModelSt) (buf : Nat) : State :=
  let waits := m.chosen.any fun rid => match getReq s rid with
    | some r => r.sampler.isSome || r.events.any fun e => match e with | .token _ => true | _ => false
    | none => false
  if m.chosen = [] || waits then s else
  let s := m.chosen.foldl (forwardRequest buf) s
  let done := m.chosen.all fun rid => match getReq s rid with | some r => r.fwd.sub = fwdOver | none => true
  if !done then s else
  let s := m.chosen.foldl stepOver s
  { s with pur := { s.pur with models := tabMod {} s.pur.models model fun m => { m with chosen := [] } } }

/-- DECODE_STEP: its first half, or with `forward` its second, as far as no answer and no engine command is awaited. -/
def decodeStep (s : State) (model : Nat) (forward : Bool) (buf : Nat) : State :=
  match tabFind s.pur.models model with
  | none => s
  | some m =>
    if !purWorks s then s
    else if forward then stepForward s model m buf
    else if m.chosen = [] then stepBegin s model m buf
    else m.chosen.foldl (fun s rid => sampleGoOn s m.vocab rid) s

/-! ### Budgets (spec/13 R342) -/

/-- Every class's budget is set to its REFILL. -/
def refillAll (s : State) (at' : Nat) : State :=
  { s with pur := { s.pur with lastRefill := at', classes := tabMap (fun _ x => { x with budget := x.refill }) s.pur.classes } }

/-- A budget period in ns. -/
def periodNs (s : State) : Nat := s.pur.period.toNat * 1000000

/-- BUDGET_REFILL, once a period has passed since the last refill. -/
def budgetRefill (s : State) : State :=
  if s.pur.lastRefill + periodNs s ≤ s.hub.time.toNat then refillAll s (s.pur.lastRefill + periodNs s) else s

/-- BUDGET_PERIOD_WRITE: the next refill comes one new period after the last, or at once. -/
def budgetPeriodWrite (s : State) (a : Agent) (v : W64) : State :=
  if a = .mgmt then s else
  let s := { s with pur := { s.pur with period := BitVec.ofNat 32 (clamp 1 86400000 (bits v.toNat 31 0)) } }
  if s.pur.lastRefill + periodNs s ≤ s.hub.time.toNat then refillAll s s.hub.time.toNat else s

/-! ### Rows -/

/-- PREFILL (spec/13 R326). -/
def execPrefill (rid buf : Nat) (s : State) : Host.Outcome State Fault Refusal := .next (prefillStage s rid buf)
/-- PREFILL_LAYER (spec/13 R327). -/
def execPrefillLayer (rid buf : Nat) (s : State) : Host.Outcome State Fault Refusal := .next (prefillLayer s rid buf)
/-- DECODE (spec/13 R330). -/
def execDecode (rid : Nat) (s : State) : Host.Outcome State Fault Refusal := .next (decodeStage s rid)
/-- DECODE_STEP (spec/13 R330, R341). -/
def execDecodeStep (model : Nat) (forward : Bool) (buf : Nat) (s : State) : Host.Outcome State Fault Refusal :=
  .next (decodeStep s model forward buf)
/-- BUDGET_REFILL (spec/13 R342). -/
def execBudgetRefill (s : State) : Host.Outcome State Fault Refusal := .next (budgetRefill s)
/-- BUDGET_PERIOD_WRITE (spec/13 R342). -/
def execBudgetPeriodWrite (agent : Agent) (v : W64) (s : State) : Host.Outcome State Fault Refusal :=
  .next (budgetPeriodWrite s agent v)

end Sys2Proof.Machine
end

