-- ==== Sys2Proof/Machine/Sequencer.lean ====
section
/-! DEFINITION. Pour rings and sequencers (spec/12 R302-R308, spec/13 R334-R339). -/

namespace Sys2Proof.Machine

/-! ### POUR opens the ring (spec/12 R304, spec/13 R334, spec/14 R352) -/

/-- The checks of POUR, and HEAD and TAIL written as 0. -/
def pourWork (r : Request) : Act Bytes := do
  let w := whoPurser (some r.ctx)
  let stops ← rd w (fld r.record 112 8) 1056
  stopIf (!stopRecordOk stops) .internal
  let base := fld r.record 96 8
  let n := 2 ^ fld r.record 104 1 + 64 + fld r.record 108 4
  let s ← get
  stopIf (unifiedEnd < base + n || !windowsPermit s (ctxPart r.ctx) base n true || !windowsPermit s (ctxPart r.ctx) base n false)
    .internal
  wr (whoPurser none) (base + 2 ^ fld r.record 104 1) (toLe 8 0)
  wr (whoPurser none) (base + 2 ^ fld r.record 104 1 + 8) (toLe 8 0)
  return stops

/-- POUR. DESIGN CHOICE: it opens a ring however many are open, since spec/01 R25 says nothing of a POUR that finds 65,536
open (log 93). -/
def pourStage (s : State) (rid : Nat) : State :=
  stageRow s rid 0x16 fun s r _ =>
    if r.ring.isSome then s else
    match runActVal (pourWork r) s with
    | (.ok stops, s) => putReq s rid { r with ring := some { stops := stops } }
    | (.error st, s) => stageWorked s rid 0x16 st

/-! ### A token's bytes (spec/12 R303) -/

/-- The bytes of a token; none for a bad token. -/
def tokenBytes (r : Request) (t : Nat) : Act (Option Bytes) := do
  let w := whoPurser (some r.ctx)
  let d ← rd w (fld r.record 16 8) 128
  if fld d 4 4 ≤ t then return none
  let e ← rd w (fld d 64 8 + 8 * t) 8
  if fld d 80 8 < fld e 0 4 + fld e 4 2 then return none
  if bit (fld e 6 2) 1 then return some []
  return some (← rd w (fld d 72 8 + fld e 0 4) (fld e 4 2))

/-! ### The sequencer (spec/13 R338, R339) -/

/-- The event at the head of a sequencer, taken off. -/
def popEvent (s : State) (rid : Nat) : State := modReq s rid fun r => { r with events := r.events.tail }

/-- A record is committed to the ring's order. -/
def commitRec (s : State) (rid : Nat) (r : Request) (x : RingSt) (q : RingRec) : State :=
  putReq s rid { r with ring := some { x with seq := x.seq + 1, wait := x.wait ++ [q] }, terminal := r.terminal || q.reason ≠ 0 }

/-- A terminal record without a token: what the matcher and the assembler hold is discarded. -/
def commitEnd (s : State) (rid : Nat) (r : Request) (x : RingSt) (reason : Nat) (st : Status) (cancel : Option Nat) : State :=
  commitRec s rid r { x with pend := [], held := [] }
    { token := 0xFFFFFFFF, reason := reason, status := st, cancel := cancel }

/-- SEQUENCER_ERROR's effect: REASON 6 with the status, unless a terminal record is written. -/
def sequenceError (s : State) (rid : Nat) (st : Status) : State :=
  match getReq s rid with
  | none => s
  | some r =>
    match r.ring with
    | none => finishReq s rid st
    | some x => if r.terminal then s else commitEnd s rid r x 6 st none

/-- What the pour makes of a token's bytes: the bytes released, the ring after, the stop that completed, and the
substitutions. `ends` tells whether the token ends the ring for another reason. -/
def pourBytes (x : RingSt) (b : Bytes) (ends : Bool) : Bytes × RingSt × Option (Nat × Nat) × Nat :=
  let m := matchStops (stopStrings x.stops) (bit (fld x.stops 1 1) 0) x.pend 0 b
  let final := ends || m.stop.isSome
  let released := m.released ++ if ends && m.stop.isNone then m.pend else []
  let pend := if final then [] else m.pend
  if bit (fld x.stops 1 1) 1 then (released, { x with pend := pend }, m.stop, 0)
  else
    let a := assemble final ((x.held ++ released).length + 1) (x.held ++ released)
    (a.out, { x with pend := pend, held := a.held }, m.stop, a.replaced)

/-- The REASON of a token's record, 0 for none, by the precedence of R338. -/
def tokenReason (r : Request) (t : Nat) (stop : Bool) (generated : Nat) : Nat :=
  if stop then 1
  else if t ≠ 0xFFFFFFFF && ((List.range 4).any fun i => fld r.record (152 + 4 * i) 4 = t) then 2
  else if fld r.record 120 4 ≤ generated then 3
  else if r.context = 1048576 then 4
  else 0

/-- A token is counted, poured and committed. -/
def sequenceToken (s : State) (rid : Nat) (r : Request) (x : RingSt) (t : Nat) : State :=
  match runActVal (tokenBytes r t) s with
  | (.error st, s) => sequenceError s rid st
  | (.ok b?, s) =>
    let n := r.generated + 1
    let s := match b? with
      | some _ => s
      | none =>
        logEntry { s with por := { s.por with badToken := s.por.badToken + 1 } }
          { code := some .badToken, source := srcOf 12 0, ctx := some (BitVec.ofNat 7 r.ctx), detail := toLe 8 rid ++ toLe 4 t }
    let y := pourBytes x (b?.getD []) (tokenReason r t false n ≠ 0)
    let stop := y.2.2.1
    let reason := tokenReason r t stop.isSome n
    let s := { s with por := { s.por with
      tokens := s.por.tokens + 1
      stops := if stop.isSome then s.por.stops + 1 else s.por.stops
      replaced := s.por.replaced + w64 y.2.2.2 } }
    let s := takeBudget (modClass s r.cls fun c => { c with tokens := c.tokens + 1 }) r 1
    let r := { r with generated := n }
    recPut (commitRec s rid r y.2.1
      { token := t, bytes := y.1, reason := reason,
        stop := match stop with | some p => p.1 * 4096 + p.2 | none => 0 }) r 124 4 n

/-- SEQUENCER_TOKEN. -/
def sequencerToken (s : State) (rid : Nat) : State :=
  match getReq s rid with
  | none => s
  | some r =>
    match r.events.head?, r.ring with
    | some (.token t), some x =>
      let s := popEvent s rid
      if r.terminal then s else sequenceToken s rid { r with events := r.events.tail } x t
    | _, _ => s

/-- SEQUENCER_CANCEL. -/
def sequencerCancel (s : State) (rid : Nat) : State :=
  match getReq s rid with
  | none => s
  | some r =>
    match r.events.head?, r.ring with
    | some (.cancel id), some x =>
      let s := popEvent s rid
      if r.terminal then endPlain s id .lateCancel
      else commitEnd s rid { r with events := r.events.tail } x 5 .cancelled (some id)
    | _, _ => s

/-- SEQUENCER_ERROR. -/
def sequencerError (s : State) (rid : Nat) : State :=
  match getReq s rid with
  | none => s
  | some r =>
    match r.events.head? with
    | some (.error st) => sequenceError (popEvent s rid) rid st
    | _ => s

/-! ### Ring records (spec/13 R335, R336) -/

/-- The 32 bytes of a ring record (spec/13 Table 13-8); `spill` is where its bytes lie in the spill area. -/
def ringBytes (seq : Nat) (q : RingRec) (spill : Option Nat) : Bytes :=
  toLe 4 seq ++ toLe 4 q.token ++ toLe 2 q.bytes.length ++ toLe 1 (b2n (q.reason ≠ 0) + 2 * b2n spill.isSome) ++
  toLe 1 q.reason ++ toLe 2 q.status.code ++ toLe 2 q.stop ++
  match spill with
  | some a => toLe 8 a ++ toLe 8 0
  | none => q.bytes ++ toLe (16 - q.bytes.length) 0

/-- Write one record: its spill bytes, the record, then HEAD. -/
def writeRecord (s : State) (r : Request) (x : RingSt) (q : RingRec) : State × RingSt :=
  let base := fld r.record 96 8
  let area := base + 2 ^ fld r.record 104 1 + 64
  let n := if q.bytes.length ≤ 16 then 0 else q.bytes.length
  let a := (spillPlace r x n).getD 0
  let spill := if n = 0 then none else some (area + a)
  let s := if n = 0 then s else (runAct (wr (whoPurser none) (area + a) q.bytes) s).2
  let s := (runAct (wr (whoPurser none) (base + 32 * (x.head % ringSlots r)) (ringBytes x.head q spill)) s).2
  let s := (runAct (wrNat (whoPurser none) (base + 2 ^ fld r.record 104 1) 8 (x.head + 1)) s).2
  (s, { x with head := x.head + 1, wait := x.wait.tail, place := if n = 0 then x.place else a + n,
               runs := if n = 0 then x.runs else x.runs ++ [(x.head, a, n)] })

/-- The terminal record is committed: DECODE and POUR have done their work, and a CANCEL completes (spec/13 R338). -/
def ringEnded (s : State) (rid : Nat) (q : RingRec) : State :=
  let s := match q.cancel with | some id => endPlain s id .ok | none => s
  stageWorked (stageWorked s rid 0x16 q.status) rid 0x15 q.status

/-- RING_RECORD_WRITE: the next record, once the ring has room. -/
def ringRecordWrite (s : State) (rid : Nat) : State :=
  match getReq s rid with
  | none => s
  | some r =>
    match r.ring with
    | none => s
    | some x =>
      match x.wait with
      | [] => s
      | q :: _ =>
        let n := if q.bytes.length ≤ 16 then 0 else q.bytes.length
        let x := ringNow s r x n
        if !ringFits r x n then putReq s rid { r with ring := some x } else
        let y := writeRecord s r x q
        let s := putReq y.1 rid { r with ring := some y.2 }
        if q.reason ≠ 0 then ringEnded s rid q else s

/-! ### Rows -/

/-- POUR (spec/13 R334). -/
def execPour (rid : Nat) (s : State) : Host.Outcome State Fault Refusal := .next (pourStage s rid)
/-- SEQUENCER_TOKEN (spec/13 R339). -/
def execSequencerToken (rid : Nat) (s : State) : Host.Outcome State Fault Refusal := .next (sequencerToken s rid)
/-- SEQUENCER_CANCEL (spec/13 R339). -/
def execSequencerCancel (rid : Nat) (s : State) : Host.Outcome State Fault Refusal := .next (sequencerCancel s rid)
/-- SEQUENCER_ERROR (spec/13 R339). -/
def execSequencerError (rid : Nat) (s : State) : Host.Outcome State Fault Refusal := .next (sequencerError s rid)
/-- RING_RECORD_WRITE (spec/13 R336). -/
def execRingRecordWrite (rid : Nat) (s : State) : Host.Outcome State Fault Refusal := .next (ringRecordWrite s rid)

end Sys2Proof.Machine
end

