-- ==== Sys2Proof/Machine/Clear.lean ====
section
/-! DEFINITION. Stopping an engine's work and clearing a context (spec/18 R454-R456, Table 18-2; spec/14 R348; spec/15
R388): what the resets and the disabling of a context share. -/

namespace Sys2Proof.Machine

/-- Every engine. -/
def allEngines : List Eng :=
  [EngKind.core, .barge, .gather, .slice, .ssu, .router, .grinder, .slipManager].flatMap fun k =>
    (List.range (kindCount k)).map fun i => ⟨k, i⟩

/-- Complete commands of a context, one after the other. -/
def completeAll (s : State) (e : Eng) (st : Status) (l : List (Nat × QCmd)) : State :=
  l.foldl (fun s p => completeCmd s e p.1 p.2 st) s

/-- A sort/select unit counts the commands it completes, and one that had started writes its summary (spec/10 R260,
Table 10-8). -/
def stopSsu (s : State) (e : Eng) (st : Status) (l : List (Nat × QCmd)) : State :=
  if e.kind ≠ .ssu then s else
  let s := l.foldl (fun s p => ssuSummarize s e.index p.1 p.2 st) s
  modSsu s e.index fun x => { x with commands := x.commands + w64 l.length }

/-- The commands of some contexts that wait on an engine stop. -/
def stopQueued (s : State) (e : Eng) (test : Nat → Bool) (st : Status) : State :=
  let l := ((getEng s e).ctxs.filter fun p => test p.1).flatMap fun p => p.2.queue.map fun q => (p.1, q)
  let s := modEng s e fun x => { x with ctxs := tabMap (fun c y => if test c then { y with queue := [] } else y) x.ctxs }
  completeAll (stopSsu s e st l) e st l

/-- Ferry operations whose waiter meets a test are forgotten: what comes back for them is discarded. -/
def dropOps (s : State) (test : Waiter → Bool) : State :=
  { s with fry := { s.fry with ops := s.fry.ops.filter fun p => !test p.2.waiter } }

/-- A MIGRATE that a reset stops leaves its entry as ATTACH would (spec/18 Table 18-2, spec/11 R279). -/
def undoMigrate (s : State) (e c : Nat) (op : GthOp) : State :=
  match getTable s op.table with
  | some t =>
    if op.kind = .moveOut || op.kind = .moveBack then
      releaseRow (runAct (undoMove e c op t.desc) s).2 op.table (fld op.cmd.bytes 8 8)
    else s
  | none => s

/-- The commands of some contexts that run on an engine stop at once. -/
def stopRunning (s : State) (e : Eng) (test : Nat → Bool) (st : Status) : State :=
  let i := e.index
  match e.kind with
  | .core =>
    let x := getCore s i
    let l := (x.load.toList.map fun p => (p.ctx, p.cmd)) ++ ((x.stream.toList ++ x.draining).map fun p => (p.ctx, p.cmd)) ++
      x.vec.toList.map fun p => (p.ctx, p.cmd)
    let gone := (owningPasses x).filter fun p => test p.ctx
    let s := modCore s i fun x => { gone.foldl settleBanks x with
      load := x.load.filter fun p => !test p.ctx, stream := x.stream.filter fun p => !test p.ctx
      draining := x.draining.filter fun p => !test p.ctx, vec := x.vec.filter fun p => !test p.ctx }
    completeAll s e st (l.filter fun p => test p.1)
  | .barge =>
    let moves := s.fry.ops.filterMap fun p => match p.2.waiter with
      | .move b c q _ => if b = i && test c then some (c, q) else none
      | _ => none
    let s := dropOps s fun w => match w with | .move b c _ _ => b = i && test c | .chunk b c _ _ => b = i && test c | _ => false
    let s := if moves = [] then s else { s with barges := { s.barges with busy := tabDel s.barges.busy i } }
    let s := completeAll s e st moves
    (s.barges.colls.filter fun p => p.1 / 128 = i && test (p.1 % 128)).foldl (fun s p => endColl s i (p.1 % 128) p.2 st) s
  | .gather =>
    let ops := (getGe s i).ops.filter fun p => test p.1
    let waits := (s.gth.tables.flatMap fun t => t.2.detach).filter fun w => w.1 = i && test w.2.1
    let s := dropOps s fun w => match w with
      | .migrate e c => e = i && test c | .row e c _ => e = i && test c | _ => false
    let s := { s with gth := { s.gth with reqs := s.gth.reqs.filter fun r => match r.2.source with
      | .engine e c _ => !(e = i && test c) | .peer _ _ => true } }
    let s := ops.foldl (fun s p => undoMigrate s i p.1 p.2) s
    let s := modGe s i fun x => { x with ops := x.ops.filter fun p => !test p.1 }
    let s := modGth s fun x => { x with tables := tabMap (fun _ t => { t with
      detach := t.detach.filter fun w => !(w.1 = i && test w.2.1) }) x.tables }
    completeAll s e st (ops.map (fun p => (p.1, p.2.cmd)) ++ waits.map fun w => w.2)
  | .slice =>
    let qs := (getSlice s i).queries.filter fun p => test p.2.ctx
    let waits := ((getSlice s i).slots.flatMap fun p => p.2.detach).filter fun p => test p.1
    let s := endAttaches s i (fun w => test w.ctx) st
    let s := modSlice s i fun x => { x with
      ended := x.ended + w64 qs.length
      queries := x.queries.filter fun p => !test p.2.ctx
      slots := tabMap (fun _ w => { w with detach := w.detach.filter fun p => !test p.1 }) x.slots }
    completeAll s e st (qs.map (fun p => (p.2.ctx, p.2.cmd)) ++ waits)
  | .router =>
    let l := (getRouter s i).ops.filter fun p => test p.1
    let s := dropOps s fun w => match w with
      | .dispatch r c _ => r = i && test c | .notify r c _ => r = i && test c | _ => false
    let s := modRouter s i fun x => { x with ops := x.ops.filter fun p => !test p.1 }
    completeAll s e st (l.map fun p => (p.1, p.2.cmd))
  | .grinder =>
    let waits := (s.grd.slots.flatMap fun p => p.2.unload).filter fun p => test p.1
    let s := (s.grd.ops.filter fun o => test o.2.ctx).foldl (fun s o => tokenizeEnd s o.1 o.2 st o.2.res) s
    let s := modGrd s fun x => { x with
      slots := tabMap (fun _ y => { y with unload := y.unload.filter fun p => !test p.1 }) x.slots }
    completeAll s e st waits
  | .slipManager =>
    let l := s.fry.ops.filterMap fun p => match p.2.waiter with
      | .push c q _ _ => if test c then some (c, q) else none
      | _ => none
    completeAll (dropOps s fun w => match w with | .push c _ _ _ => test c | _ => false) e st l
  | .ssu => s

/-- Whether a context has a command waiting or running on some engine. -/
def ctxBusy (s : State) (c : Nat) : Bool :=
  anyQueued s (fun _ d _ => d = c) || s.cores.any (fun p => coreBusy p.2 c) || s.barges.busy.any (fun p => p.2 = c) ||
  s.barges.colls.any (fun p => p.1 % 128 = c) || s.gth.engs.any (fun p => (tabFind p.2.ops c).isSome) ||
  s.gth.tables.any (fun p => p.2.detach.any fun w => w.2.1 = c) ||
  s.pcl.slices.any (fun p => p.2.queries.any (fun q => q.2.ctx = c) ||
    p.2.slots.any fun w => (w.2.attach.isSome && w.2.ctx = c) || w.2.detach.any fun d => d.1 = c) ||
  s.routers.any (fun p => (tabFind p.2.ops c).isSome) || grinderRuns s c ||
  s.fry.ops.any fun p => match p.2.waiter with | .push d _ _ _ => d = c | _ => false

/-- Marked commands behind a HALT complete at once (spec/15 R388; log 34). -/
def flushHalted (s : State) : State :=
  s.engs.foldl (fun s kx => match engOfSelector kx.1 with
    | none => s
    | some e => kx.2.ctxs.foldl (fun s cy =>
      if cy.2.halt then
        let l := cy.2.queue.filter fun q => q.verdict.isSome
        let s := modQ s e cy.1 fun y => { y with queue := y.queue.filter fun q => q.verdict.isNone }
        let s := stopSsu s e .abortedDisabled (l.map fun q => (cy.1, q))
        l.foldl (fun s q => completeCmd s e cy.1 q (q.verdict.getD .abortedDisabled)) s
      else s) s) s

/-- A context on one core is cleared (spec/05 R118, spec/18 R456). -/
def clearOnCore (s : State) (k c : Nat) : State :=
  let x := getCtx s c
  let lo := x.accBase.toNat * 1024
  let y := freeBanks { getCore s k with maps := tabDel (getCore s k).maps c } c
  let y := if x.cores.getLsbD k && x.accSize ≠ 0 then accLost y lo (lo + x.accSize.toNat * 1024) s.freeCtr else y
  if y = getCore s k then s else { s with cores := tabPut s.cores k y, freeCtr := s.freeCtr + 1 }

/-- A context is cleared on every engine: maps, banks, accumulator share, HALT, pins, schedules, and the shards it
attached (spec/14 R348, spec/18 R456, spec/09 R242). -/
def clearContext (s : State) (c : Nat) : State :=
  let s := (List.range 128).foldl (fun s k => clearOnCore s k c) s
  let s := { s with engs := tabMap (fun _ x => { x with ctxs := tabMap (fun d y =>
      if d = c then { y with halt := false, queue := [] } else y) x.ctxs }) s.engs }
  let s := unpinAll s (fun p => p.1 = c) c
  let s := (List.range 32).foldl (fun s b => dropSchedule s b c) s
  (List.range 16).foldl (fun s k => dropShards s k fun w => w.ctx = c) s

/-- Fault records naming some contexts, and those contexts' HALT, queue and command count on every engine, return to reset
(spec/18 R454, R456). -/
def clearFaults (s : State) (test : Nat → Bool) : State :=
  { s with engs := tabMap (fun _ x => { x with
      fault := if x.fault.valid && test x.fault.ctx.toNat then {} else x.fault
      ctxs := x.ctxs.filter fun c => !test c.1 }) s.engs }

/-- The slip queues that some contexts consume are disabled (spec/18 R456, spec/08 R206). -/
def disableConsumed (s : State) (test : Nat → Bool) : State :=
  (s.slip.queues.filter fun q => q.2.enable && test q.2.consumer.toNat).foldl (fun s q => disableQueue s q.1) s

/-- Contexts are cleared on every engine, as a reset of their partition clears them (spec/14 R348, spec/18 R456). -/
def clearContexts (s : State) (l : List Nat) : State :=
  let test := fun c => l.contains c
  clearFaults (disableConsumed (l.foldl clearContext s) test) test

/-! ### Background units (spec/14 R363, spec/07 R182, R183) -/

/-- Whether an engine is within a unit. -/
def inUnit (s : State) (e : Eng) : Bool :=
  match e.kind with
  | .core => let x := getCore s e.index; x.load.isSome || x.stream.isSome || x.vec.isSome
  | .barge => (tabFind s.barges.busy e.index).isSome
  | _ => false

/-- Whether an engine has a foreground unit ready (spec/14 R354, Table 14-2). -/
def foreground (s : State) (e : Eng) : Bool :=
  let i := e.index
  match e.kind with
  | .core => tampReady s i ≠ [] || passReady s i ≠ [] || epiReady s i ≠ []
  | .barge => bargeReady s i ≠ []
  | .gather => gatherReady s i ≠ []
  | .slice => sliceReady s i ≠ [] || admitReady s i ≠ []
  | .ssu => ssuReady s i ≠ []
  | .router => routerReady s i ≠ []
  | .grinder => grinderReady s ≠ []
  | .slipManager => slipReady s ≠ []

/-- A scrub or telemetry unit runs at a unit boundary: when no foreground unit is ready, or `forced` by the 72,000 beats of
spec/14 R363. -/
def background (s : State) (e : Eng) (forced : Bool) (f : Finding) : State :=
  if s.pwr.moor ≠ .running || inUnit s e || (foreground s e && !forced) then s else
  match f with
  | .nothing => s
  | .hbmCorrected a => if a < unifiedEnd then modStack s (stackOf a) fun x => { x with ce := satAdd32 x.ce 1 } else s
  | .hbmOnDie k => if k < 16 then modStack s k fun x => { x with ondie := satAdd32 x.ondie 1 } else s
  | .hbmBad a =>
    if a < unifiedEnd then
      noteHbmBad { s with mem := { s.mem with badHbm := insertNat (a / 32) s.mem.badHbm } } a true
    else s
  | .sramCorrected a =>
    if isResident s a then modDeck s (residentDeck s a) fun x => { x with sramCe := satAdd32 x.sramCe 1 } else s
  | .sramBad a =>
    if isResident s a then
      noteSramBad { s with mem := { s.mem with badSram := insertNat (a / 8) s.mem.badSram } } (engSrc e) a true
    else s

/-! ### Rows -/

/-- BACKGROUND_UNIT (spec/14 R363). -/
def execBackgroundUnit (e : Eng) (forced : Bool) (f : Finding) (s : State) : Host.Outcome State Fault Refusal :=
  .next (background s e forced f)

end Sys2Proof.Machine
end

