-- ==== Sys2Proof/Machine/Partition.lean ====
section
/-! DEFINITION. Partitions, contexts and regulators (spec/14), and the disabling of functions (spec/15 R386-R391). -/

namespace Sys2Proof.Machine

/-- The PRT block starts here (spec/00 Table 0-4). -/
def prtBase : Nat := 0xF00002000000

/-- Whether an agent may write the PRT block (spec/14 R345). -/
def prtMayWrite : Agent → Bool
  | .purser => true
  | .hart _ hv => hv
  | _ => false

/-- A write of the PRT block: refused and logged for another agent (spec/14 R345). -/
def prtWrite (s : State) (a : Agent) (off : Nat) (v : W64) (f : State → State) : State :=
  if prtMayWrite a then f s else protWrite s (prtBase + off) v

/-! ### Contexts (spec/14 R346-R348) -/

/-- Bit `i` of a context's CORES or CLUSTERS. -/
def onCore (x : CtxCfg) (k : Nat) : Bool := x.cores.getLsbD k

/-- Whether two contexts share a core. -/
def shareCore (x y : CtxCfg) : Bool := (x.cores &&& y.cores) ≠ 0

/-- Every other enabled context (spec/14 R347; log 33). -/
def otherHolders (s : State) (c : Nat) : List (Nat × CtxCfg) := s.prt.ctxs.filter fun p => p.1 ≠ c && p.2.enable

/-- Whether two accumulator ranges overlap. -/
def accOverlap (x y : CtxCfg) : Bool :=
  x.accBase.toNat < y.accBase.toNat + y.accSize.toNat && y.accBase.toNat < x.accBase.toNat + x.accSize.toNat &&
  x.accSize ≠ 0 && y.accSize ≠ 0

/-- Whether a share of some core sums above a bound. -/
def coreOver (others : List (Nat × CtxCfg)) (x : CtxCfg) (share : CtxCfg → Nat) (bound : Nat) : Bool :=
  (List.range 128).any fun k =>
    onCore x k && bound < share x + ((others.filter fun p => onCore p.2 k).map fun p => share p.2).sum

/-- The first check of Table 14-1 that fails, 0 for none. -/
def enableErr (s : State) (c : Nat) : Nat :=
  let x := getCtx s c
  let others := otherHolders s c
  let near := others.filter fun p => shareCore x p.2
  if x.disabling then 6
  else if near.any fun p => p.1 % 8 = c % 8 then 1
  else if 64 < x.accBase.toNat + x.accSize.toNat || near.any fun p => accOverlap x p.2 then 2
  else if coreOver others x (fun y => y.queue.toNat) 1024 then 3
  else if coreOver others x (fun y => y.pin.toNat) 4096 then 4
  else if (List.range 16).any fun k => x.clusters.getLsbD k &&
      8192 < x.cpin.toNat + ((others.filter fun p => p.2.clusters.getLsbD k).map fun p => p.2.cpin.toNat).sum then 5
  else 0

/-- ENABLE is set: the checks, then the context takes part, or ERR and an event (spec/14 R347). -/
def enableCtx (s : State) (c : Nat) : State :=
  let e := enableErr s c
  if e = 0 then modCtx s c fun x => { x with enable := true, err := 0 }
  else logEntry (modCtx s c fun x => { x with err := BitVec.ofNat 4 e })
    { code := some .enableFailed, source := purSrc, ctx := some (BitVec.ofNat 7 c), detail := toLe 2 c ++ toLe 1 e }

/-- Collectives of a context stop at their next unit. -/
def abortColls (s : State) (c : Nat) : State :=
  { s with barges := { s.barges with colls := tabMap (fun k x =>
    if k % 128 = c then { x with verdict := some (x.verdict.getD .abortedDisabled) } else x) s.barges.colls } }

/-- ENABLE is cleared: the disable point of a context (spec/14 R348, spec/15 R387-R389). -/
def disableCtx (s : State) (c : Nat) : State :=
  let s := modCtx s c fun x => { x with enable := false, disabling := true }
  let s := markQueued s fun _ d _ => d = c
  let s := stopTokenize (abortGather (abortColls (abortQueries s fun q => q.ctx = c) c) fun d _ => d = c) fun o => o.ctx = c
  let s := (List.range 16).foldl (fun s k => endAttaches s k (fun w => w.ctx = c) .abortedDisabled) s
  flushHalted (disableReqs s (fun r => r.ctx = c) fun _ => false)

/-- A write of PRT_CTX_c_CFG (spec/14 Table 14-8). -/
def ctxCfgWrite (s : State) (c : Nat) (v : W64) : State :=
  let s := modCtx s c fun x => { x with weight := BitVec.ofNat 5 (clamp 1 16 (bits v.toNat 52 48)) }
  match v.getLsbD 63, (getCtx s c).enable with
  | true, false => enableCtx s c
  | false, true => disableCtx s c
  | _, _ => s

/-- The address of PRT_CTX_c_CFG in its block. -/
def ctxCfgOff (c : Nat) : Nat := 0x4000 + c * 0x40

/-- CONTEXT_ENABLE: a write with ENABLE set. -/
def contextEnable (s : State) (a : Agent) (c : Nat) (v : W64) : State :=
  let v := v ||| 0x8000000000000000
  prtWrite s a (ctxCfgOff c) v fun s => if c < 128 then ctxCfgWrite s c v else s

/-- CONTEXT_DISABLE: a write with ENABLE clear. -/
def contextDisable (s : State) (a : Agent) (c : Nat) (v : W64) : State :=
  let v := v &&& 0x7FFFFFFFFFFFFFFF
  prtWrite s a (ctxCfgOff c) v fun s => if c < 128 then ctxCfgWrite s c v else s

/-! ### Shares of partitions (spec/14 R349, R353, R359, R360) -/

/-- A write of QUERY_CTX, clamped to keep the sum at 1,024. -/
def queryCtxSet (s : State) (p : Nat) (v : W64) : State :=
  let others := (((List.range 16).filter (· ≠ p)).map fun i => (getPart s i).queryCtx.toNat).sum
  modPart s p fun x => { x with queryCtx := BitVec.ofNat 11 (min (bits v.toNat 10 0) (1024 - others)) }

/-- QUERY_CTX_WRITE. -/
def queryCtxWrite (s : State) (a : Agent) (p : Nat) (v : W64) : State :=
  prtWrite s a (0x1000 + p * 0x200) v fun s => if p < 16 then queryCtxSet s p v else s

/-- A write of PRT_p_REG_k (spec/14 Table 14-7, R360). -/
def bucketSet (s : State) (p k : Nat) (v : W64) : State :=
  let on := v.getLsbD 63
  let burst := max 4096 (bits v.toNat 62 32)
  modPart s p fun x =>
    let b := tabGet {} x.buckets k
    let full : Int := 1000 * burst
    { x with buckets := tabPut x.buckets k { b with
        enable := on, burst := BitVec.ofNat 31 burst, rate := BitVec.ofNat 32 (max 1 (bits v.toNat 31 0))
        tokens := if on && !b.enable then full else min b.tokens full
        waiting := if on then b.waiting else [] } }

/-- BUCKET_ENABLE: a write with ENABLE set. -/
def bucketEnable (s : State) (a : Agent) (p k : Nat) (v : W64) : State :=
  let v := v ||| 0x8000000000000000
  prtWrite s a (0x1080 + p * 0x200 + k * 8) v fun s => if p < 16 && k < 9 then bucketSet s p k v else s

/-- BUCKET_PIECE_ADMIT: a disabled bucket admits every piece at once and counts nothing (log 45). -/
def pieceAdmit (s : State) (p k : Nat) (piece : Option Nat) : State :=
  let b := tabGet {} (getPart s p).buckets k
  if b.enable then modPart s p fun x => { x with buckets := tabPut x.buckets k (b.letIn piece) } else s

/-- The waiting pieces that the tokens admit, in order: each needs them at 0 or above when its turn comes. -/
def drain : Int → List Nat → Int × List Nat
  | t, [] => (t, [])
  | t, n :: w => if 0 ≤ t then drain (t - 1000 * n) w else (t, n :: w)

/-- One nanosecond of a bucket (spec/14 R360): the tokens rise, the pieces they suffice for stop waiting, and STALL counts
the nanosecond in which a piece waited. -/
def Bucket.tick (b : Bucket) : Bucket :=
  if b.enable then
    let d := drain (min (1000 * (b.burst.toNat : Int)) (b.tokens + b.rate.toNat)) b.waiting
    { b with tokens := d.1, waiting := d.2, stall := if b.waiting = [] then b.stall else b.stall + 1 }
  else b

/-- One nanosecond passes: the counter, the buckets, and the event log's input buffer (spec/01 R35, spec/14 R360,
spec/18 R462; log 35). -/
def tick (s : State) : State :=
  { s with
    hub := { s.hub with time := s.hub.time + 1 }
    evt := { s.evt with buf := s.evt.buf - 1 }
    prt := { s.prt with parts := tabMap (fun _ p => { p with buckets := tabMap (fun _ b => b.tick) p.buckets }) s.prt.parts } }

/-! ### Closing a mailbox (spec/15 R391) -/

/-- Descriptor `i` of a mailbox (spec/15 R366). -/
def descriptorAt (x : Mailbox) (i : Nat) : Bytes :=
  ((List.range 8).map fun j => toLe 8 (tabGet 0 x.req (i % 256 * 8 + j)).toNat).flatten

/-- A descriptor that completes when its mailbox closes before it is taken (spec/15 R381, R391; log 59). -/
def refuseDescriptor (s : State) (m i : Nat) : State :=
  let d := descriptorAt (getMb s m) i
  let f := takeFree s
  let detail := if fld d 0 1 = 0x30 then enqDetail none 0 else w64 f.1
  modMb f.2 m fun x => { x with
    held := x.held ++ [{ seq := BitVec.ofNat 16 (fld d 2 2), status := .disabled, opcode := BitVec.ofNat 8 (fld d 0 1),
                         tag := w64 (fld d 8 8), detail := detail, taken := false }] }

/-- A command of a closing mailbox that belongs to no request stops (spec/15 R388, R391). -/
def stopCmd (s : State) (id : Nat) (c : PCmd) : State :=
  match c.enq with
  | some q => endCmd s id .abortedDisabled (enqDetail (q.firstFail.map (·.1)) q.offered)
  | none =>
    if 0x10 ≤ c.opcode.toNat && c.opcode.toNat ≤ 0x16 then s
    else if c.opcode = 0x30 then endCmd s id .abortedDisabled (enqDetail none 0)
    else if c.phase = .held then endPlain s id .abortedDisabled
    else if s.pwr.entryByCommand = some id then
      endPlain { s with pwr := { s.pwr with entryByCommand := none } } id .abortedDisabled
    else s

/-- MB_m_CTL with ACTION close. -/
def mailboxClose (s : State) (a : Agent) (m : Nat) : State :=
  if !mbReach s a m || 64 ≤ m then s else
  let x := getMb s m
  if x.state ≠ .opened then mbRefuse s m 3 0x08 (mbCtlValue 2 0 0) else
  let s := modMb s m fun x => { x with state := .closing }
  let n := x.doorbell.toNat - x.reqHead.toNat
  let s := (List.range n).foldl (fun s i => refuseDescriptor s m (x.reqHead.toNat + i)) s
  let s := (s.pur.cmds.filter fun p => p.2.mb = m && p.2.guest.isNone).foldl (fun s p => stopCmd s p.1 p.2) s
  disableReqs s (fun r => pourMailbox s r = some m) fun c => c.mb = m

/-! ### Disables finish (spec/15 R390) -/

/-- UNLOAD: the disable point of a tokenizer slot (spec/12 R291, spec/15 R389). -/
def unload (s : State) (c : Nat) : State :=
  unloadHead s c fun slot s => flushHalted (disableReqs s (fun r => r.slot = slot) fun _ => false)

/-- A context's disable finishes: it is cleared on every engine and its shares are released. -/
def contextFinish (s : State) (c : Nat) : State :=
  if !(getCtx s c).disabling || ctxBusy s c || requestsUse s (fun r => r.ctx = c) then s
  else modCtx (clearContexts s [c]) c fun x => { x with disabling := false }

/-- A closing mailbox is closed once no command of it is in flight and its records are written. -/
def mailboxFinish (s : State) (m : Nat) : State :=
  if (getMb s m).state = .closing && (getMb s m).held = [] && !s.pur.cmds.any (fun p => p.2.mb = m && p.2.guest.isNone) then
    modMb s m fun x => { x with state := .closed }
  else s

/-- DISABLE_FINISH. -/
def disableFinish (s : State) (f : DisableFn) : State :=
  let s := flushHalted s
  match f with
  | .mailbox m => mailboxFinish s m
  | .context c => contextFinish s c
  | .shard k i => detachFinish s k i
  | .table t => tableFinish s t
  | .tokenizer slot => slotFinish s slot (requestsUse s fun r => r.slot = slot)

/-! ### Taking descriptors (spec/15 R372, R374, R379) -/

/-- The opcodes of Table 15-5. -/
def opListed (op : Nat) : Bool := [1, 3, 4, 5, 0x30].contains op || (0x10 ≤ op && op ≤ 0x18)

/-- The reserved fields of a descriptor's header and body are zero (spec/15 R374). -/
def descriptorOk (d : Bytes) : Bool :=
  let op := fld d 0 1
  opListed op && fld d 1 1 < 4 && zeroAt d 4 4 &&
  (if op = 1 || op = 4 then zeroAt d 16 48
   else if op = 3 then zeroAt d 17 1 && zeroAt d 20 44
   else if op = 5 then fld d 24 1 < 2 && zeroAt d 25 7
   else if op = 0x30 then zeroAt d 18 2 && zeroAt d 32 32
   else zeroAt d 48 16)

/-- The command a descriptor makes. -/
def cmdOf (s : State) (m : Nat) (d : Bytes) : PCmd :=
  { mb := m, seq := BitVec.ofNat 16 (fld d 2 2), opcode := BitVec.ofNat 8 (fld d 0 1), flags := BitVec.ofNat 8 (fld d 1 1),
    tag := w64 (fld d 8 8), desc := d, taken := s.hub.time, lastProgress := s.hub.time }

/-- Whether a mailbox has a descriptor that the purser may take. -/
def Mailbox.ready (x : Mailbox) : Bool :=
  x.state = .opened && decide (x.reqHead.toNat < x.doorbell.toNat) && decide (x.outstanding < 4096)

/-- The mailbox whose turn it is to have a descriptor taken: the first ready one from the round robin's place on (spec/15
R376; log 58). -/
def turnMailbox (s : State) : Option Nat :=
  ((List.range 64).map fun i => (s.pur.turn + i) % 64).find? fun m => (getMb s m).ready

/-- DESCRIPTOR_TAKE: the next posted descriptor of the open mailbox whose turn it is. -/
def descriptorTake (s : State) (m : Nat) : State :=
  if !purWorks s || turnMailbox s ≠ some m then s else
  let s := { s with pur := { s.pur with turn := (m + 1) % 64 } }
  let x := getMb s m
  let d := descriptorAt x x.reqHead.toNat
  let id := s.pur.nextId
  let c := cmdOf s m d
  let s := modMb s m fun x => { x with reqHead := x.reqHead + 1, outstanding := x.outstanding + 1 }
  let s := putCmd { s with pur := { s.pur with nextId := id + 1 } } id c
  if c.seq ≠ x.nextSeq then
    let f := takeFree (modMb s m fun x => { x with err := x.err ||| 4 })
    endCmd f.2 id .internal (w64 (f.1 * 65536 + x.nextSeq.toNat))
  else
    let s := modMb s m fun x => { x with nextSeq := x.nextSeq + 1 }
    if !descriptorOk d then
      (if c.opcode = 0x30 then endCmd s id .internal (enqDetail none 0) else endPlain s id .internal)
    else if 0x10 ≤ fld d 0 1 && fld d 0 1 ≤ 0x16 then takeStage s id c
    else s

/-! ### Rows -/

/-- CONTEXT_ENABLE (spec/14 R347). -/
def execContextEnable (agent : Agent) (c : Nat) (v : W64) (s : State) : Host.Outcome State Fault Refusal :=
  .next (contextEnable s agent c v)
/-- CONTEXT_DISABLE (spec/14 R348). -/
def execContextDisable (agent : Agent) (c : Nat) (v : W64) (s : State) : Host.Outcome State Fault Refusal :=
  .next (contextDisable s agent c v)
/-- QUERY_CTX_WRITE (spec/14 R349). -/
def execQueryCtxWrite (agent : Agent) (p : Nat) (v : W64) (s : State) : Host.Outcome State Fault Refusal :=
  .next (queryCtxWrite s agent p v)
/-- BUCKET_ENABLE (spec/14 R360). -/
def execBucketEnable (agent : Agent) (p k : Nat) (v : W64) (s : State) : Host.Outcome State Fault Refusal :=
  .next (bucketEnable s agent p k v)
/-- BUCKET_PIECE_ADMIT (spec/14 R360). -/
def execBucketPieceAdmit (p k : Nat) (piece : Option Nat) (s : State) : Host.Outcome State Fault Refusal :=
  .next (pieceAdmit s p k piece)
/-- MAILBOX_CLOSE (spec/15 R391). -/
def execMailboxClose (agent : Agent) (m : Nat) (s : State) : Host.Outcome State Fault Refusal := .next (mailboxClose s agent m)
/-- UNLOAD (spec/12 R291). -/
def execUnload (ctx : Nat) (s : State) : Host.Outcome State Fault Refusal := .next (unload s ctx)
/-- DISABLE_FINISH (spec/15 R390). -/
def execDisableFinish (f : DisableFn) (s : State) : Host.Outcome State Fault Refusal := .next (disableFinish s f)
/-- DESCRIPTOR_TAKE (spec/15 R372). -/
def execDescriptorTake (m : Nat) (s : State) : Host.Outcome State Fault Refusal := .next (descriptorTake s m)

end Sys2Proof.Machine
end

