-- ==== Sys2Proof/Machine/FerryOps.lean ====
section
/-! DEFINITION. Optical ports, client mode, path state and the frames of ferry operations (spec/16). The rows of a received
frame carry its port and the frame. -/

namespace Sys2Proof.Machine

/-- The FRY block starts here (spec/00 Table 0-4). -/
def fryBase : Nat := 0xF00005000000

/-- A register write that spec/17 R437 does not permit the management path is not made for it; any other agent's takes
effect. -/
def byAgent (s : State) (a : Agent) (f : State → State) : State := if a = .mgmt then s else f s

/-! ### The end of an operation -/

/-- An operation that a ferry frame or a lost path ends: what waits for it goes on. `back` says its packet was never
reserved, so that the words of a push return to the account (spec/16 R403, R420). -/
def endWaiter (s : State) (o : FerryOp) (st : Status) (back : Bool) : State :=
  match o.waiter with
  | .move b c q _ =>
    completeCmd { s with barges := { s.barges with busy := tabDel s.barges.busy b } } (bargeEng b) c q st
  | .push c q queue words =>
    let s := if back then modAccount s queue o.module c fun g => g.giveBack words else s
    completeCmd s slipEng c q st
  | .dispatch r c e => dispatchEnded s r c e st
  | .notify r c queue =>
    notifyEnded (if back then modAccount s queue o.module c fun g => g.giveBack 1 else s) r c st
  | .migrate e c => migrateEnded s e c st []
  | .row e c u => rowDone s e c u 0 st []
  | .chunk b c id r => chunkEnded s b c id r st

/-- An operation is over. -/
def dropOp (s : State) (t : Nat) : State := modFry s fun x => { x with ops := tabDel x.ops t }

/-- End the operation of a tag. -/
def endOp (s : State) (t : Nat) (st : Status) (back : Bool) : State :=
  match tabFind s.fry.ops t with
  | some o => endWaiter (dropOp s t) o st back
  | none => s

/-- The operation in flight that a frame answers: on its path, but for a row, which the module it has moved to answers
directly (spec/11 R277). -/
def opOf (s : State) (p : Nat) (f : FFrame) : Option FerryOp :=
  match tabFind s.fry.ops f.tag.toNat with
  | some o =>
    let direct := match o.waiter with | .row .. => true | _ => false
    if direct || (o.port = p && o.module = f.src) then some o else none
  | none => none

/-! ### Paths come and go (spec/16 R406, R410, R420) -/

/-- Whether the path table leads to module `x` by port `p`; before joining, a module has no paths but the steward's (spec/16
R401). -/
def entryNames (s : State) (p x : Nat) : Bool :=
  s.fry.berthValid && (getEntry s x).valid && (getEntry s x).ports.getLsbD p

/-- The PATH_LOST event. -/
def pathEvent (s : State) (p x : Nat) : State :=
  raise s .pathLost (portSrc p) (toLe 2 x ++ toLe 1 p ++ toLe 1 0 ++ toLe 2 (getPath s p x).gen.toNat)

/-- A requester other than the lost path's ends learns that its forwarded request is lost (spec/11 R282). -/
def rowLost (s : State) (x ctx m : Nat) (tag : BitVec 32) : State :=
  if m = x || m = ownModule s then s else
  match choosePort s m with
  | some (p, s) => queueFrame s p m { op := 0x0A, vc := 2, ctx := ctx, tag := tag, arg := Status.linkLost.code }
  | none => s

/-- What a target drops of a lost path's operations; requests forwarded on it, or by it, for other modules end there. -/
def dropServed (s : State) (p x : Nat) (frames : List FFrame) : State :=
  let k := pathKey p x
  let s := modFry s fun y => { y with writes := y.writes.filter fun w => w.1 ≠ k }
  let lost := s.gth.reqs.filter fun r => r.2.via = some k
  let s := modGth s fun y => { y with partials := y.partials.filter (fun w => w.1 ≠ k)
                                      reqs := y.reqs.filter fun r => r.2.via ≠ some k }
  let s := lost.foldl (fun s r => match r.2.source with
    | .peer m tag => rowLost s x r.2.ctx m tag
    | .engine e c u => rowDone s e c u r.2.index .linkLost []) s
  (frames.filter fun f => f.op = 0x0B && f.last && bits f.arg 9 8 % 2 = 0).foldl
    (fun s f => rowLost s x f.ctx (f.offset % 4096) f.tag) s

/-- The stages that name a map of a module which has not reported learn that its path is lost (spec/15 R384). -/
def loseMaps (s : State) (x : Nat) : State :=
  if (choosePort s x).isSome then s else
  let waits (e : Nat × Nat × Nat × Nat) : Bool := e.1 = x && !s.pur.reports.any (reportFor e)
  { s with pur := { s.pur with reqs := tabMap (fun _ r => { r with stages := tabMap (fun _ g =>
    if g.live && g.list.any waits then { g with lost := true } else g) r.stages }) s.pur.reqs } }

/-- What stages wait for from a module with no path up ends with LINK_LOST (spec/13 R316). -/
def loseAnswers (s : State) (x : Nat) : State :=
  if (choosePort s x).isSome then s else
  let s := (s.pur.cmds.filter fun c => c.2.peer = some x).foldl (fun s c => endPlain s c.1 .linkLost) s
  let lose (r : Request) : Request :=
    let dead := r.asks.filter fun a => a.2 = x
    { r with
      asks := r.asks.filter fun a => a.2 ≠ x
      answers := dead.foldl (fun t a => tabPut t a.1 { status := .linkLost }) r.answers
      parts := r.parts.map fun p => if p.module = x && p.sent && p.status.isNone then { p with status := some .linkLost } else p }
  { s with pur := { s.pur with reqs := tabMap (fun _ r => lose r) s.pur.reqs } }

/-- A path is lost: the event, then every operation on it ends with LINK_LOST, as does every PUSH between the modules; then
the path syncs again if its link is up. -/
def pathLost (s : State) (p x : Nat) : State :=
  let s := pathEvent s p x
  let frames := (getPath s p x).unacked ++ (getPath s p x).sendq
  let s := modPath s p x fun y => { state := .lost, gen := y.gen }
  let dead := s.fry.ops.filter fun o => o.2.module = x && (o.2.port = p || (match o.2.waiter with
    | .push .. => true | .notify .. => true | _ => false))
  let s := dropServed s p x frames
  let s := dead.foldl (fun s o => endOp s o.1 .linkLost true) s
  let s := gatherPathLost (loseMaps (loseAnswers (collPathLost (slipPathLost s x) p x) x) x) x
  if ferryLive s p && entryNames s p x then startSync s p x else announceGrants s p

/-- A path goes up with a generation: its counts start at zero and the peer's grants apply. -/
def pathGoesUp (s : State) (p x : Nat) (f : FFrame) : State :=
  let given := (List.range 8).map fun v => (v, ({ given := (getVc (getPath s p x) v).given } : VcCount))
  let s := modPath s p x fun _ => { state := .up, gen := f.gen, vcs := given }
  applyGrants s p x f

/-- Paths of a port that valid entries name become syncing. -/
def syncPort (s : State) (p : Nat) : State :=
  if !ferryLive s p then s else
  (s.fry.entries.filter fun e => entryNames s p e.1 && e.1 ≠ ownModule s).foldl (fun s e =>
    match (getPath s p e.1).state with
    | .idle | .lost => startSync s p e.1
    | _ => s) s

/-- Every port's paths that may sync begin. -/
def syncPorts (s : State) : State := (List.range 16).foldl syncPort s

/-- Every syncing or up path of a port is lost, and its learned addresses are cleared (spec/16 R405, R410). -/
def losePort (s : State) (p : Nat) : State :=
  let s := modFry s fun x => { x with learned := x.learned.filter fun l => l.1 / 4096 ≠ p }
  let s := modPort s p fun x => { x with wait := [] }
  (livePaths s p).foldl (fun s x => pathLost s p x) s

/-! ### Ports (spec/16 R394, R406, R410, spec/14 R363) -/

/-- A write of FRY_p_CFG. -/
def portCfgWrite (s : State) (p : Nat) (v : W64) : State :=
  let x := getPort s p
  let n := v.toNat
  let on := v.getLsbD 63
  if x.enable && bits n 62 61 ≠ x.mode.toNat then s else
  let s := modPort s p fun x => { x with
    enable := on, mode := BitVec.ofNat 2 (bits n 62 61), promisc := bit n 60, irqEn := bit n 59
    irqHart := BitVec.ofNat 5 (bits n 58 54), maxFrame := BitVec.ofNat 14 (clamp 1518 9216 (bits n 13 0)) }
  if x.enable && !on && x.mode = 0 then losePort s p
  else if !x.enable && on then syncPort s p
  else s

/-- The address of a register of port `p`. -/
def portReg (p off : Nat) : Nat := fryBase + 0x100 + p * 0x100 + off

/-- PORT_ENABLE. -/
def portEnable (s : State) (a : Agent) (p : Nat) (v : W64) : State :=
  let v := v ||| 0x8000000000000000
  byAgent s a fun s => if p < 16 then portCfgWrite s p v else s

/-- PORT_DISABLE. -/
def portDisable (s : State) (a : Agent) (p : Nat) (v : W64) : State :=
  let v := v &&& 0x7FFFFFFFFFFFFFFF
  byAgent s a fun s => if p < 16 then portCfgWrite s p v else s

/-- PORT_LINK_UP. -/
def portLinkUp (s : State) (p : Nat) : State :=
  if (getPort s p).enable && !(getPort s p).link && p < 16 then syncPort (modPort s p fun x => { x with link := true }) p
  else s

/-- PORT_LINK_DOWN. -/
def portLinkDown (s : State) (p : Nat) : State :=
  if (getPort s p).link then losePort (modPort s p fun x => { x with link := false, lost := true }) p else s

/-- OPTICAL_CALIBRATION: the window opens or closes; in it the port carries no frames, and those that wait go out when it
closes. -/
def opticalCalibration (s : State) (p : Nat) (opens : Bool) : State :=
  if opens then modPort s p fun x => { x with cal := true } else
  (getPort s p).wait.foldl (fun s w => sendWire s p w) (modPort s p fun x => { x with cal := false, wait := [] })

/-! ### Client mode (spec/16 R395-R398) -/

/-- The device reaches client rings and buffers with no window check. -/
def whoClient (p : Nat) : Who := { src := portSrc p }

/-- A write of a client ring register: LOG2 and base, and both counts zero (LOG2 outside 6 to 16: log 36). -/
def clientRingWrite (s : State) (a : Agent) (p : Nat) (rx : Bool) (v : W64) : State :=
  let l := BitVec.ofNat 5 (clamp 6 16 (bits v.toNat 52 48))
  let b := BitVec.ofNat 48 (bits v.toNat 47 12 * 4096)
  byAgent s a fun s =>
    modPort s p fun x =>
      if rx then { x with rxLog2 := l, rxBase := b, rxTail := 0, rxHead := 0 }
      else { x with txLog2 := l, txBase := b, txTail := 0, txHead := 0 }

/-- A TAIL write: descriptors are posted, or the write is ignored and logged. -/
def clientTailWrite (s : State) (a : Agent) (p : Nat) (rx : Bool) (v : W64) : State :=
  let x := getPort s p
  let tail := if rx then x.rxTail else x.txTail
  let top := if rx then x.rxHead.toNat + 2 ^ x.rxLog2.toNat else x.txHead.toNat + 2 ^ x.txLog2.toNat
  let addr := portReg p (if rx then 0x28 else 0x40)
  byAgent s a fun s =>
    if v.toNat < tail.toNat || top < v.toNat then ringRefused s (portSrc p) addr v
    else modPort s p fun x => if rx then { x with rxTail := v } else { x with txTail := v }

/-- A client port in service with its link up. -/
def clientLive (s : State) (p : Nat) : Bool := (getPort s p).enable && (getPort s p).mode = 1 && (getPort s p).link

/-- The port interrupts on ring progress. -/
def portIrq (s : State) (p : Nat) : State :=
  let x := getPort s p
  if x.irqEn then emit s (.irq x.irqHart.toNat (.port p)) else s

/-- The MAC address whose six octets stand first. -/
def macOf (b : Bytes) : BitVec 48 := (b.take 6).foldl (fun m o => m <<< 8 ||| o.zeroExtend 48) 0

/-- Whether a client port takes frames to an address. -/
def takesMac (x : PortSt) (m : BitVec 48) : Bool := x.promisc || m = x.mac || m.getLsbD 40

/-- CLIENT_FRAME_RECEIVE: the frame's bytes with its FCS (spec/16 R396, R398, Table 16-1). -/
def clientReceive (s : State) (p : Nat) (frame : Bytes) : State :=
  let x := getPort s p
  if !clientLive s p || x.cal then s else
  match checkFcs frame with
  | none => dropFrame s p
  | some b =>
  if x.maxFrame.toNat < frame.length || frame.length < 64 || isPause b then dropFrame s p
  else if !takesMac x (macOf b) then s
  else if x.rxHead = x.rxTail then dropFrame s p
  else
    let d := x.rxBase.toNat + x.rxHead.toNat % 2 ^ x.rxLog2.toNat * 32
    let w := whoClient p
    let got : Act Bool := do
      let r ← rd w d 32
      if fld r 8 2 < b.length then return false
      let s ← get
      wr w (fld r 0 8) b
      wr w (d + 8) (toLe 2 b.length ++ toLe 2 (fld r 10 2 / 2 * 2 + 1))
      wrNat w (d + 16) 8 s.hub.time.toNat
      return true
    match runActVal got s with
    | (.ok true, s) =>
      portIrq (modPort s p fun x => { x with rxHead := x.rxHead + 1, rxFrames := x.rxFrames + 1 }) p
    | (_, s) => dropFrame s p

/-- CLIENT_FRAME_TRANSMIT: the next posted descriptor is sent, or completed with ERR. -/
def clientTransmit (s : State) (p : Nat) : State :=
  let x := getPort s p
  if !clientLive s p || x.cal || x.txTail.toNat ≤ x.txHead.toNat then s else
  let d := x.txBase.toNat + x.txHead.toNat % 2 ^ x.txLog2.toNat * 32
  let w := whoClient p
  let send : Act (Option Bytes) := do
    let r ← rd w d 32
    let n := fld r 8 2
    let bad := n < 60 || x.maxFrame.toNat < n + 4
    let b ← if bad then pure none else some <$> rd w (fld r 0 8) n
    let s ← get
    wr w (d + 10) (toLe 2 (fld r 10 2 / 4 * 4 + 1 + 2 * b2n bad))
    wrNat w (d + 16) 8 s.hub.time.toNat
    return b
  let up := fun s => portIrq (modPort s p fun x => { x with txHead := x.txHead + 1 }) p
  match runActVal send s with
  | (.ok (some b), s) => up (emit (modPort s p fun x => { x with txFrames := x.txFrames + 1 }) (.client p (b ++ fcs b)))
  | (.ok none, s) => up s
  | (.error _, s) => up s

/-! ### Joining a berth and bringing paths up (spec/16 R399-R401, R405, R406) -/

/-- Whether this module is its berth's steward. -/
def isSteward (s : State) : Bool := s.fry.slot = 0

/-- The module ID of this berth's steward. -/
def stewardOf (s : State) : Nat := s.fry.berth.toNat * 64

/-- HELLO_SEND: a module whose path to the steward is not up. -/
def helloSend (s : State) : State :=
  if isSteward s || !ferryLive s 15 || (s.fry.berthValid && pathUp s 15 (stewardOf s)) then s
  else transmit s 15 (stewardOf s) { typ := .hello }

/-- BERTH_SET: a write of FRY_ID; once set, the berth holds (spec/16 R401, Table 16-10). -/
def berthSet (s : State) (a : Agent) (v : W64) : State :=
  if a = .mgmt && isSteward s && !s.fry.berthValid then
    syncPorts (modFry s fun x => { x with berth := BitVec.ofNat 6 (bits v.toNat 11 6), berthValid := true })
  else s

/-- A frame of a path is accepted on its port. -/
def countRx (s : State) (p : Nat) : State := modPort s p fun y => { y with rxFrames := y.rxFrames + 1 }

/-- A source address is learned (spec/16 R405). -/
def learn (s : State) (p x : Nat) (mac : BitVec 48) : State :=
  modFry s fun y => { y with learned := tabPut y.learned (pathKey p x) mac }

/-- The BERTH_REFUSED event. -/
def berthRefused (s : State) (p : Nat) (f : FFrame) : State :=
  raise s .berthRefused (portSrc p) (toLe 2 f.src ++ toLe 1 p)

/-- FERRY_HELLO_RECEIVE: the sender's address is learned (spec/16 R405), and the steward takes a member in, or refuses slot 0. -/
def helloReceive (s : State) (p : Nat) (f : FFrame) : State :=
  let joins := isSteward s && s.fry.berthValid
  let x := if joins then stewardOf s + f.src % 64 else f.src
  if f.typ ≠ .hello || !portCarries s p then s
  else if f.src % 64 = 0 then berthRefused (countRx s p) p f
  else
    let s := learn (countRx s p) p x f.mac
    if !joins then s else
    let s := modFry s fun y => { y with entries := tabMod {} y.entries x fun e =>
      { e with valid := true, ports := BitVec.ofNat 16 (2 ^ p), mac := f.mac } }
    match (getPath s p x).state with
    | .up => pathLost s p x
    | .syncing => sendSync s p x
    | _ => startSync s p x

/-- A SYNC is handled by R406: an older proposal is ignored, another one adopted. -/
def takeSync (s : State) (p : Nat) (f : FFrame) : State :=
  let x := f.src
  let s := if pathUp s p x then pathLost s p x else s
  let later := match (getPath s p x).proposal with
    | some g => 1 ≤ (g - f.gen).toNat && (g - f.gen).toNat ≤ 32767
    | none => false
  if later then s else
  let s := pathGoesUp s p x f
  let g := grantList s p
  let s := transmit (giveGrants s p x g) p x { typ := .syncAck, gen := f.gen, grants := some g }
  announceGrants (slipResync s p x) p

/-- A module that has not joined takes its berth from its steward's SYNC (spec/16 Table 16-3 step 3). -/
def joinBerth (s : State) (f : FFrame) : State :=
  modFry s fun y => { y with
    berth := BitVec.ofNat 6 (f.src / 64), berthValid := true
    entries := tabMod {} y.entries f.src fun e => { e with valid := true, ports := 0x8000, mac := f.mac } }

/-- FERRY_SYNC_RECEIVE. -/
def syncReceive (s : State) (p : Nat) (f : FFrame) : State :=
  if f.typ ≠ .sync || !portCarries s p then s
  else if !s.fry.berthValid then
    -- only the steward's SYNC on port 15 counts
    if p ≠ 15 || f.src % 64 ≠ 0 || f.dst % 64 ≠ s.fry.slot.toNat || isSteward s then dropFrame s p
    else if f.dst / 64 ≠ f.src / 64 then berthRefused (countRx s p) p f
    else syncPorts (takeSync (learn (joinBerth (countRx s p) f) p f.src f.mac) p f)
  else if f.dst ≠ ownModule s then dropFrame s p
  else if f.src / 64 ≠ s.fry.berth.toNat && !(getEntry s f.src).valid then berthRefused (countRx s p) p f
  else takeSync (learn (countRx s p) p f.src f.mac) p f

/-- FERRY_SYNC_ACK_RECEIVE: the path goes up on the answer to its own proposal. -/
def syncAckReceive (s : State) (p : Nat) (f : FFrame) : State :=
  if f.typ ≠ .syncAck || !portCarries s p then s
  else if f.dst ≠ ownModule s then dropFrame s p
  else
    let s := learn (countRx s p) p f.src f.mac
    let q := getPath s p f.src
    if q.state = .syncing && q.proposal = some f.gen then
      announceGrants (slipResync (pathGoesUp s p f.src f) p f.src) p
    else s

/-- SYNC_RESEND. -/
def syncResend (s : State) (p x : Nat) : State :=
  if ferryLive s p && (getPath s p x).state = .syncing then sendSync s p x else s

/-! ### Acknowledgement (spec/16 R408-R410) -/

/-- A frame that is not DATA, of the path's generation. -/
def controlFrame (s : State) (p : Nat) (f : FFrame) (t : FType) (g : State → State) : State :=
  if f.typ ≠ t || !portCarries s p then s
  else if f.dst ≠ ownModule s then dropFrame s p
  else if frameCurrent s p f then g (takeControl (countRx s p) p f.src f) else s

/-- The unacknowledged frames are sent again, or the path is lost. -/
def resendAll (s : State) (p x : Nat) : State :=
  let q := getPath s p x
  if q.unacked = [] then s
  else if s.fry.retryMax.toNat ≤ q.resends then pathLost s p x
  else resend (modPath s p x fun y => { y with resends := y.resends + 1 }) p x q.unacked

/-- ACK_TIMER. -/
def ackTimer (s : State) (p x : Nat) : State :=
  let q := getPath s p x
  if ferryLive s p && q.state = .up && q.unsentAcks ≠ 0 then transmit s p x { typ := .control } else s

/-- RETRANSMIT_TIMEOUT. -/
def retransmitTimeout (s : State) (p x : Nat) : State :=
  if ferryLive s p && pathUp s p x then resendAll s p x else s

/-! ### Operations at their target (spec/16 R403, R418) -/

/-- A row about a received DATA frame of an operation. -/
def dataRow (s : State) (p : Nat) (f : FFrame) (op : Nat) (g : State → State) : State :=
  if f.typ ≠ .data || f.op ≠ op then s else
  match acceptData s p f with
  | (s, true) => g s
  | (s, false) => s

/-- A WRITE frame at its target. -/
def writeFrame (s : State) (p : Nat) (f : FFrame) : State :=
  let w := whoServed p f
  let k := (pathKey p f.src, f.tag)
  let gone := fun s => modFry s fun y => { y with writes := y.writes.filter (· ≠ k) }
  if f.offset = 0 && !mayAccess s w f.addr f.arg true then refuseOp s p f .internal
  else if f.offset ≠ 0 && !s.fry.writes.contains k then s
  else
    let s := if f.offset = 0 then modFry s fun y => { y with writes := k :: y.writes } else s
    match runAct (wr w (f.addr + f.offset) f.payload) s with
    | (.ok, s) =>
      if f.arg ≤ f.offset + f.payload.length then replyTo (gone s) p f 2 f.arg else s
    | (st, s) => refuseOp (gone s) p f st

/-- READ_RESP frames of the chunks of a range, until one cannot be read. -/
def serveChunks (p : Nat) (f : FFrame) : Nat → Nat → State → State
  | 0, _, s => s
  | n + 1, off, s =>
    if f.arg ≤ off then s else
    match runActVal (rd (whoServed p f) (f.addr + off) (min 8192 (f.arg - off))) s with
    | (.ok b, s) =>
      serveChunks p f n (off + 8192) (queueFrame (chargeFerry s f.ctx b.length) p f.src
        { op := 4, vc := opVc 4, ctx := f.ctx, tag := f.tag, offset := off, arg := f.arg, payload := b })
    | (.error st, s) => refuseOp s p f st

/-- A READ_REQ at its target. -/
def readReq (s : State) (p : Nat) (f : FFrame) : State :=
  if mayAccess s (whoServed p f) f.addr f.arg false then serveChunks p f (f.arg / 8192 + 1) 0 s
  else refuseOp s p f .internal

/-! ### Answers at the requester (spec/07 R180, spec/16 R418-R420) -/

/-- A WRITE_ACK ends a write. -/
def writeAck (s : State) (p : Nat) (f : FFrame) : State :=
  match opOf s p f with
  | some _ => endOp s f.tag.toNat .ok false
  | none => s

/-- The bytes of a MIGRATE's read are gathered until they are whole. -/
def migrateBytesIn (s : State) (p : Nat) (f : FFrame) (e c : Nat) : State :=
  let k := pathKey p f.src
  let mine := fun (x : Nat × BitVec 32 × Bytes) => x.1 = k && x.2.1 = f.tag
  let body := (match s.gth.partials.find? mine with | some x => x.2.2 | none => []) ++ f.payload
  let s := modGth s fun x => { x with partials := x.partials.filter fun x => !mine x }
  if f.arg ≤ f.offset + f.payload.length then migrateEnded (dropOp s f.tag.toNat) e c .ok body
  else modGth s fun x => { x with partials := x.partials ++ [(k, f.tag, body)] }

/-- A READ_RESP: its bytes go to the destination of the read, which ends with the last. -/
def readResp (s : State) (p : Nat) (f : FFrame) : State :=
  match opOf s p f with
  | none => s
  | some o =>
    match o.waiter with
    | .move b c _ dst =>
      match runAct (wr (whoBarge b c true) (dst + f.offset) f.payload) s with
      | (.ok, s) => if f.arg ≤ f.offset + f.payload.length then endOp s f.tag.toNat .ok false else s
      | (st, s) => endOp s f.tag.toNat st false
    | .migrate e c => migrateBytesIn s p f e c
    | _ => s

/-- PUSH_DONE ends a push. -/
def pushDone (s : State) (p : Nat) (f : FFrame) : State :=
  match opOf s p f with
  | some _ => endOp s f.tag.toNat ((Status.ofCode f.arg).getD .internal) false
  | none => s

/-- STATUS refuses an operation. -/
def statusFrame (s : State) (p : Nat) (f : FFrame) : State :=
  match opOf s p f with
  | some _ => endOp s f.tag.toNat ((Status.ofCode f.arg).getD .internal) true
  | none => s

/-! ### Messages between pursers (spec/16 R417, spec/15 R384, spec/13, spec/11 R278-R280) -/

/-- A message from the purser of module `m`; `buf` is the working space the firmware gives it. -/
def purserMessage (s : State) (m : Nat) (msg : PurserMsg) (buf : Nat) : State :=
  match msg with
  | .mapWant ctx core map =>
    match s.pur.reports.find? fun x => x.module = ownModule s && x.ctx = ctx && x.core = core && x.mapId = map with
    | some x => purserSend s m (.mapReport ctx core map x.status.code)
    | none => { s with pur := { s.pur with wants := s.pur.wants ++ [(m, ctx, core, map)] } }
  | .mapReport ctx core map st =>
    let r : MapReport := { module := m, ctx := ctx, core := core, mapId := map, status := (Status.ofCode st).getD .internal }
    { s with pur := { s.pur with reports := s.pur.reports ++ [r] } }
  | .mapNew c id => dropReports s m c id
  | .ask rid key q => serveAsk s m rid key q buf
  | .answer rid key st data => takeAnswer s m rid key { status := (Status.ofCode st).getD .internal, data := data }
  | .search rid part ctx desc nprobe k refine qvec filter tokens =>
    serveSearch s m rid part { ctx := ctx, desc := desc, nprobe := nprobe, k := k, refine := refine, filter := filter ≠ []
                               tokens := tokens } qvec filter buf
  | .searched rid part st metric recs =>
    partAnswer s rid part fun x => { x with status := some ((Status.ofCode st).getD .internal), metric := metric, data := recs }
  | .rerank rid part ctx c directory slots => serveRerank s m rid part ctx c directory slots
  | .reranked rid part st recs =>
    partAnswer s rid part fun x => { x with status := some ((Status.ofCode st).getD .internal), data := recs }
  | .prefixRef a true => addRef s a
  | .prefixRef a false => dropRef chainFuel (ownModule s * 2 ^ 48 + a) s
  | .prefixRetire id a =>
    let r := runAct (retireWork a) s
    purserSend r.2 m (.prefixRetired id r.1.code)
  | .prefixRetired id st =>
    match getCmd s id with
    | some c => if c.peer = some m then endPlain s id ((Status.ofCode st).getD .internal) else s
    | none => s
  | .prefixPublish a start pages => (runAct (publishHere a start pages) s).2
  | .kvFree l => { s with pur := { s.pur with kv := s.pur.kv.filter fun a => !l.contains a } }
  | .spareAsk e c t ask => spareAsked s m e c t ask
  | .spareIs e c t ask st slot => spareAnswered s m e c t ask ((Status.ofCode st).getD .internal) slot
  | .spareFree t n =>
    match getTable s t with
    | some x => (runAct (giveSpare (whoPurser (some x.ctx)) x.desc n) s).2
    | none => s
  | .migrate t i target => moveOrdered s m t i target
  | .migrated => moveEnded s m

/-! ### Time and the path table (spec/16 R426, Table 16-11) -/

/-- PPS_EDGE. -/
def ppsEdge (s : State) : State :=
  let now := s.hub.time
  let s := modFry s fun x => { x with ppsLatch := now, ppsSeen := true, ppsArm := false, ppsBehind :=
    x.ppsBehind || (x.ppsArm && decide (x.ppsNext.toNat < now.toNat)) }
  s

/-- The edge's effect where ARM was set. -/
def ppsRow (s : State) : State :=
  let now := s.hub.time
  let x := s.fry
  let t := ppsEdge s
  if !x.ppsArm then t
  else if now.toNat ≤ x.ppsNext.toNat then { t with hub := { t.hub with time := x.ppsNext } }
  else raise t .ppsBehind srcNone (toLe 8 now.toNat ++ toLe 8 x.ppsNext.toNat)

/-- A write of FRY_PATH_x_CFG. -/
def pathTableWrite (s : State) (a : Agent) (x : Nat) (v : W64) : State :=
  let n := v.toNat
  byAgent s a fun s =>
    if 4096 ≤ x then s else
    let s := modFry s fun y => { y with entries := tabMod {} y.entries x fun e =>
      { e with valid := bit n 63, pcp := BitVec.ofNat 3 (bits n 62 60), vid := BitVec.ofNat 12 (bits n 59 48)
               tagged := bit n 47, ports := BitVec.ofNat 16 (bits n 15 0) } }
    (List.range 16).foldl (fun s p =>
      if ferryLive s p && entryNames s p x && x ≠ ownModule s then
        match (getPath s p x).state with
        | .idle | .lost => startSync s p x
        | _ => s
      else s) s

/-! ### Rows -/

/-- PORT_ENABLE (spec/16 R394). -/
def execPortEnable (agent : Agent) (p : Nat) (v : W64) (s : State) : Host.Outcome State Fault Refusal :=
  .next (portEnable s agent p v)
/-- PORT_DISABLE (spec/16 R394). -/
def execPortDisable (agent : Agent) (p : Nat) (v : W64) (s : State) : Host.Outcome State Fault Refusal :=
  .next (portDisable s agent p v)
/-- PORT_LINK_UP (spec/16 R406). -/
def execPortLinkUp (p : Nat) (s : State) : Host.Outcome State Fault Refusal := .next (portLinkUp s p)
/-- PORT_LINK_DOWN (spec/16 R410). -/
def execPortLinkDown (p : Nat) (s : State) : Host.Outcome State Fault Refusal := .next (portLinkDown s p)
/-- OPTICAL_CALIBRATION (spec/14 R363). -/
def execOpticalCalibration (p : Nat) (opens : Bool) (s : State) : Host.Outcome State Fault Refusal :=
  .next (opticalCalibration s p opens)
/-- CLIENT_RING_WRITE (spec/16 R395). -/
def execClientRingWrite (agent : Agent) (p : Nat) (rx : Bool) (v : W64) (s : State) : Host.Outcome State Fault Refusal :=
  .next (clientRingWrite s agent p rx v)
/-- CLIENT_RX_TAIL_WRITE (spec/16 R395). -/
def execClientRxTailWrite (agent : Agent) (p : Nat) (v : W64) (s : State) : Host.Outcome State Fault Refusal :=
  .next (clientTailWrite s agent p true v)
/-- CLIENT_TX_TAIL_WRITE (spec/16 R395). -/
def execClientTxTailWrite (agent : Agent) (p : Nat) (v : W64) (s : State) : Host.Outcome State Fault Refusal :=
  .next (clientTailWrite s agent p false v)
/-- CLIENT_FRAME_RECEIVE (spec/16 R396). -/
def execClientFrameReceive (p : Nat) (bytes : Bytes) (s : State) : Host.Outcome State Fault Refusal :=
  .next (clientReceive s p bytes)
/-- CLIENT_FRAME_TRANSMIT (spec/16 R397). -/
def execClientFrameTransmit (p : Nat) (s : State) : Host.Outcome State Fault Refusal := .next (clientTransmit s p)
/-- HELLO_SEND (spec/16 R400). -/
def execHelloSend (s : State) : Host.Outcome State Fault Refusal := .next (helloSend s)
/-- BERTH_SET (spec/16 R400). -/
def execBerthSet (agent : Agent) (v : W64) (s : State) : Host.Outcome State Fault Refusal := .next (berthSet s agent v)
/-- FERRY_HELLO_RECEIVE (spec/16 R400). -/
def execFerryHelloReceive (p : Nat) (f : FFrame) (s : State) : Host.Outcome State Fault Refusal := .next (helloReceive s p f)
/-- FERRY_SYNC_RECEIVE (spec/16 R406). -/
def execFerrySyncReceive (p : Nat) (f : FFrame) (s : State) : Host.Outcome State Fault Refusal := .next (syncReceive s p f)
/-- FERRY_SYNC_ACK_RECEIVE (spec/16 R406). -/
def execFerrySyncAckReceive (p : Nat) (f : FFrame) (s : State) : Host.Outcome State Fault Refusal :=
  .next (syncAckReceive s p f)
/-- SYNC_RESEND (spec/16 R406). -/
def execSyncResend (p x : Nat) (s : State) : Host.Outcome State Fault Refusal := .next (syncResend s p x)
/-- FERRY_CONTROL_RECEIVE (spec/16 R408). -/
def execFerryControlReceive (p : Nat) (f : FFrame) (s : State) : Host.Outcome State Fault Refusal :=
  .next (controlFrame s p f .control fun s => s)
/-- FERRY_NACK_RECEIVE (spec/16 R409). -/
def execFerryNackReceive (p : Nat) (f : FFrame) (s : State) : Host.Outcome State Fault Refusal :=
  .next (controlFrame s p f .nack fun s => resendAll s p f.src)
/-- ACK_TIMER (spec/16 R408). -/
def execAckTimer (p x : Nat) (s : State) : Host.Outcome State Fault Refusal := .next (ackTimer s p x)
/-- RETRANSMIT_TIMEOUT (spec/16 R409). -/
def execRetransmitTimeout (p x : Nat) (s : State) : Host.Outcome State Fault Refusal := .next (retransmitTimeout s p x)
/-- FERRY_FRAME_SEND (spec/16 R415). -/
def execFerryFrameSend (p x vc : Nat) (s : State) : Host.Outcome State Fault Refusal := .next (sendData s p x vc)
/-- FERRY_WRITE (spec/16 R418). -/
def execFerryWrite (p : Nat) (f : FFrame) (s : State) : Host.Outcome State Fault Refusal :=
  .next (dataRow s p f 1 fun s => writeFrame s p f)
/-- FERRY_WRITE_ACK (spec/07 R180). -/
def execFerryWriteAck (p : Nat) (f : FFrame) (s : State) : Host.Outcome State Fault Refusal :=
  .next (dataRow s p f 2 fun s => writeAck s p f)
/-- FERRY_READ_REQ (spec/16 R418). -/
def execFerryReadReq (p : Nat) (f : FFrame) (s : State) : Host.Outcome State Fault Refusal :=
  .next (dataRow s p f 3 fun s => readReq s p f)
/-- FERRY_READ_RESP (spec/07 R180). -/
def execFerryReadResp (p : Nat) (f : FFrame) (s : State) : Host.Outcome State Fault Refusal :=
  .next (dataRow s p f 4 fun s => readResp s p f)
/-- FERRY_PUSH (spec/16 R419). -/
def execFerryPush (p : Nat) (f : FFrame) (s : State) : Host.Outcome State Fault Refusal :=
  .next (dataRow s p f 5 fun s => pushFrame s p f)
/-- FERRY_PUSH_DONE (spec/16 R419). -/
def execFerryPushDone (p : Nat) (f : FFrame) (s : State) : Host.Outcome State Fault Refusal :=
  .next (dataRow s p f 6 fun s => pushDone s p f)
/-- SLIP_CREDIT (spec/16 R419, R420). -/
def execSlipCredit (p : Nat) (f : FFrame) (s : State) : Host.Outcome State Fault Refusal :=
  .next (dataRow s p f 7 fun s => creditFrame s f)
/-- COLL (spec/16 R423). -/
def execColl (p : Nat) (f : FFrame) (s : State) : Host.Outcome State Fault Refusal :=
  .next (dataRow s p f 8 fun s => collPiece s (some p) none f)
/-- COLL_READY (spec/16 R423). -/
def execCollReady (p : Nat) (f : FFrame) (s : State) : Host.Outcome State Fault Refusal :=
  .next (dataRow s p f 9 fun s => collReadyFrame s none f)
/-- FERRY_STATUS (spec/16 R403). -/
def execFerryStatus (p : Nat) (f : FFrame) (s : State) : Host.Outcome State Fault Refusal :=
  .next (dataRow s p f 0x0A fun s => statusFrame s p f)
/-- FERRY_ROW (spec/16 R417). -/
def execFerryRow (p : Nat) (f : FFrame) (s : State) : Host.Outcome State Fault Refusal :=
  .next (dataRow s p f 0x0B fun s => rowFrame s p f)
/-- FERRY_PURSER (spec/16 R417): a frame whose payload says nothing to this firmware changes nothing more. -/
def execFerryPurser (p : Nat) (f : FFrame) (buf : Nat) (s : State) : Host.Outcome State Fault Refusal :=
  .next (dataRow s p f 0x0C fun s => match f.msg with
    | some msg => if pursing s then purserMessage s f.src msg buf else s
    | none => s)
/-- PPS_EDGE (spec/16 R426). -/
def execPpsEdge (s : State) : Host.Outcome State Fault Refusal := .next (ppsRow s)
/-- FERRY_FRAME_DISCARD (spec/16 R412). -/
def execFerryFrameDiscard (p : Nat) (bytes : Bytes) (s : State) : Host.Outcome State Fault Refusal :=
  .next (if portCarries s p && (ferryParse s bytes).isNone then dropFrame s p else s)
/-- PATH_TABLE_WRITE (spec/16 R406). -/
def execPathTableWrite (agent : Agent) (x : Nat) (v : W64) (s : State) : Host.Outcome State Fault Refusal :=
  .next (pathTableWrite s agent x v)

end Sys2Proof.Machine
end

