-- ==== Sys2Proof/Machine/Boot.lean ====
section
/-! DEFINITION. Boot, the image protocol's download session, the bundle's checks, measurements and attestation (spec/17). -/

namespace Sys2Proof.Machine

/-- The SEC block starts here (spec/00 Table 0-4). -/
def secBase : Nat := 0xF00004000000

/-- The SOURCE of the security block's events. -/
def secSrc : BitVec 16 := srcOf 10 0

/-- Change the security block. -/
def modSec (s : State) (f : SecSt → SecSt) : State := { s with sec := f s.sec }

/-! ### Measurements (spec/17 R445) -/

/-- 64 zero bytes. -/
def zeros64 : Bytes := List.replicate 64 0

/-- A measurement slot. -/
def measure (s : State) (k : Nat) : Bytes := tabGet zeros64 s.sec.meas k

/-- A slot is extended with a digest. -/
def extend (s : State) (k : Nat) (d : Bytes) : State :=
  modSec s fun x => { x with meas := tabPut x.meas k (sha512 (measure s k ++ d)) }

/-! ### Messages (spec/17 Tables 17-2, 17-3) -/

/-- TYPE, TARGET, SESSION, SEQ and STATUS of a message. -/
def imgType (b : Bytes) : Nat := fld b 1 1
/-- See `imgType`. -/
def imgTarget (b : Bytes) : Nat := fld b 2 2
/-- See `imgType`. -/
def imgSession (b : Bytes) : BitVec 32 := BitVec.ofNat 32 (fld b 4 4)
/-- See `imgType`. -/
def imgSeq (b : Bytes) : Nat := fld b 8 4

/-- A message that is not discarded without reply (spec/17 R434). -/
def imgOk (b : Bytes) : Bool :=
  16 ≤ b.length && fld b 0 1 = 1 && [1, 2, 3, 4, 5, 0x10, 0x11].contains (imgType b) && fld b 12 2 + 16 = b.length

/-- A message's bytes. -/
def imgBytes (typ target session seq status : Nat) (payload : Bytes) : Bytes :=
  [1] ++ toLe 1 typ ++ toLe 2 target ++ toLe 4 session ++ toLe 4 seq ++ toLe 2 payload.length ++ toLe 2 status ++ payload

/-- Whether a message concerns this module. -/
def imgMine (s : State) (b : Bytes) : Bool := imgTarget b = 0xFFFF || imgTarget b = ownModule s

/-- A message in an MGMT frame to a module (spec/17 R436). -/
def sendMgmt (s : State) (x : Nat) (b : Bytes) : State :=
  match choosePort s x with
  | some (p, s) => queueFrame s p x { op := 0x0D, vc := 7, payload := b }
  | none => s

/-- The module's own end of the image protocol: its link-local address with the modified EUI-64 of HUB_MGMT_MAC, and UDP
port 5171 (spec/17 R433). -/
def mgmtSelf : ImgHost :=
  let m := Config.mgmtMac.toNat
  { addr := BitVec.ofNat 128 (0xFE80 * 2 ^ 112 + (bits m 47 24 ^^^ 0x020000) * 2 ^ 40 + 0xFFFE * 2 ^ 24 + bits m 23 0)
    port := 5171, mac := Config.mgmtMac }

/-- Every node on the management port's link, ff02::1, at port 5170 (spec/17 R433). -/
def allNodes : ImgHost := { addr := BitVec.ofNat 128 (0xFF02 * 2 ^ 112 + 1), port := 5170, mac := 0x333300000001 }

/-- A message out of the management port. -/
def sendImage (s : State) (h : ImgHost) (b : Bytes) : State := emit s (.image mgmtSelf h b)

/-- A message to the source of a session. -/
def imgReply (s : State) (via : ImgVia) (b : Bytes) : State :=
  match via with
  | .port h => sendImage s h b
  | .ferry _ => sendMgmt s (stewardOf s) b

/-- Whether a datagram reaches the image protocol: to the module's address and port, in a frame of at most 9,216 bytes, 66 of
them the Ethernet, IPv6 and UDP headers and the FCS (spec/17 R433; log 92). -/
def reachesPort (d : Datagram) : Bool := d.dst = mgmtSelf.addr && d.port = 5171 && decide (d.bytes.length + 66 ≤ 9216)

/-- The datagram check of R433: link-local source and hop limit 255, else an event. -/
def datagram (s : State) (d : Datagram) (f : State → State) : State :=
  if !s.hub.link || !reachesPort d then s
  else if bits d.host.addr.toNat 127 118 ≠ 0x3FA || d.hops ≠ 255 then
    raise s .datagramDiscard secSrc (toBe 16 d.host.addr.toNat)
  else if imgOk d.bytes then f s else s

/-! ### Boot starts (spec/17 Table 17-1 steps 1 and 2) -/

/-- BOOT_START: `straps` are the slot straps latched at this reset (spec/16 R399). DESIGN CHOICE: LIMIT is 0x00 until the
first control step (spec/02 Table 2-5 gives what held the last step, and there is none; log 91). -/
def bootStart (s : State) (straps : BitVec 6) : State :=
  if s.pwr.power ≠ .moduleReset then s else
  let s := modFry s fun x => { x with slot := straps }
  let s := { s with pwr := { s.pwr with
    power := .on
    vset := (List.range 4).foldl (fun t d =>
      tabPut t d { limit := 0, mv := BitVec.ofNat 10 (min 700 (tabGet {} s.pwr.deckCtl d).vmax.toNat) }) s.pwr.vset } }
  extend (modSec s fun x => { x with phase := .soliciting, meas := [] }) 0 (toBe 64 Config.romDigest.toNat)

/-- The payload of SOLICIT. -/
def solicitPayload (s : State) : Bytes :=
  toLe 16 Config.serial.toNat ++ toLe 2 (ownModule s) ++ toLe 2 (b2n s.sec.ownerSet) ++ toLe 4 s.sec.svnFloor.toNat ++
  toLe 4 536870912 ++ toLe 4 0

/-- SOLICIT: one on every source that is up; a member that has not joined its berth asks on port 15 only (spec/17 R430,
R436). -/
def solicit (s : State) : State :=
  if s.sec.phase ≠ .soliciting && s.sec.phase ≠ .restart then s else
  let s := modSec s fun x => { x with phase := .soliciting }
  let b := imgBytes 1 (ownModule s) 0 0 0 (solicitPayload s)
  let s := if s.hub.link && (isSteward s || s.fry.berthValid) then sendImage s allNodes b else s
  if !isSteward s && s.fry.berthValid && pathUp s 15 (stewardOf s) then sendMgmt s (stewardOf s) b else s

/-! ### The bundle (spec/17 R439-R442) -/

/-- Bytes of a mebibyte. -/
def mib : Nat := 1048576

/-- An image entry of the header. -/
def imageEntry (h : Bytes) (e : Nat) : Bytes := (h.drop (32 + 32 * e)).take 32

/-- The image entry of a type. -/
def imageOf (h : Bytes) (t : Nat) : Option Bytes := ((List.range 3).map (imageEntry h)).find? fun x => fld x 0 1 = t

/-- An image entry is in range (spec/17 Table 17-6). -/
def entryOk (size : Nat) (x : Bytes) : Bool :=
  let t := fld x 0 1
  let off := fld x 4 4
  let n := fld x 8 4
  let load := fld x 16 8
  zeroAt x 1 3 && zeroAt x 12 4 && off % mib = 0 && mib ≤ off && 1 ≤ n && n + off ≤ size &&
  (if t = 1 then n ≤ 4 * mib else if t = 2 then n ≤ 64 * mib else true) &&
  (if t = 3 then
    wheelBase ≤ load && load < cacheBase && load % 4096 = 0 && load ≤ fld x 24 8 && fld x 24 8 < load + n
   else load = 0 && fld x 24 8 = 0)

/-- Whether two images share a byte. -/
def imagesMeet (x y : Bytes) : Bool := fld x 4 4 < fld y 4 4 + fld y 8 4 && fld y 4 4 < fld x 4 4 + fld x 8 4

/-- The header and the signature block are in range (spec/17 Tables 17-5 to 17-7). -/
def bundleForm (size : Nat) (h sig : Bytes) : Bool :=
  let e := (List.range 3).map (imageEntry h)
  let x := fun i => e.getD i []
  fld h 2 2 < 2 && fld h 4 4 = size && fld h 16 2 + 1 = ceilDiv size mib && 1 ≤ fld h 16 2 && fld h 16 2 ≤ 511 &&
  fld h 18 2 = 3 && zeroAt h 20 12 && zeroAt h 128 128 && e.all (entryOk size) &&
  (imageOf h 1).isSome && (imageOf h 2).isSome && (imageOf h 3).isSome &&
  !imagesMeet (x 0) (x 1) && !imagesMeet (x 0) (x 2) && !imagesMeet (x 1) (x 2) &&
  zeroAt sig 2 2 && zeroAt sig 534 42 && (bit (fld h 2 2) 0 || zeroAt sig 269 265)

/-- A field of bytes. -/
def part (b : Bytes) (off n : Nat) : Bytes := (b.drop off).take n

/-- The fused owner key hash. -/
def ownerHashBytes (s : State) : Bytes := (List.range 8).flatMap fun i => toLe 8 (tabGet 0 s.sec.ownerHash i).toNat

/-- The checks of R442 up to the SVN: the status of the first failure, and whether the signed part was hashed by then. -/
def headCheck (s : State) (size : Nat) (meta_ : Bytes) : Option (Status × Bool) :=
  let h := meta_.take 256
  let n := 256 + 64 * fld h 16 2
  let signed := meta_.take n
  let sig := part meta_ n 576
  let owner := bit (fld h 2 2) 0
  if fld h 0 2 ≠ 1 || fld sig 0 2 ≠ 1 then some (.versionMismatch, false)
  else if !bundleForm size h sig then some (.internal, false)
  else if sha512 (part sig 4 133) ≠ toBe 64 Config.rootHash.toNat then some (.authFail, false)
  else if !ecdsaOk (part sig 4 133) (part sig 137 66) (part sig 203 66) signed then some (.authFail, true)
  else if s.sec.ownerSet && !(owner && sha512 (part sig 269 133) = ownerHashBytes s &&
      ecdsaOk (part sig 269 133) (part sig 402 66) (part sig 468 66) signed) then some (.authFail, true)
  else if fld h 8 4 < s.sec.svnFloor.toNat then some (.authFail, true)
  else none

/-- The blocks from `lo` up to `hi` have all arrived. -/
def blocksIn (x : Session) (lo hi : Nat) : Bool := (List.range (hi - lo)).all fun i => x.got.contains (lo + i)

/-- The bytes of the metadata region after the signature block, in order: whether one is nonzero, or not yet there. -/
def tailCheck (x : Session) : Nat → Nat → Option Bool
  | 0, _ => some true
  | n + 1, a =>
    if mib ≤ a then some true
    else if !x.got.contains (a / 4096) then none
    else if memGet x.staging a ≠ 0 then some false
    else tailCheck x n (a + 1)

/-- The segments from `i` on, in order: whether all match, one differs, or one is not yet there. -/
def segCheck (x : Session) (h : Bytes) : Nat → Nat → Option Bool
  | 0, _ => some true
  | n + 1, i =>
    let lo := (i + 1) * mib
    let hi := min ((i + 2) * mib) x.size
    if !blocksIn x (lo / 4096) (hi / 4096) then none
    else if sha512 (memRead x.staging lo (hi - lo)) ≠ part h (256 + 64 * i) 64 then some false
    else segCheck x h n (i + 1)

/-- How far the check of R442 is: not decided, or its status and whether the signed part was hashed. -/
def verdict (s : State) (x : Session) : Option (Status × Bool) :=
  if !x.got.contains 0 then none else
  let segs := leNat (memRead x.staging 16 2)
  let last := min ((831 + 64 * segs) / 4096) (x.size / 4096 - 1)
  if !blocksIn x 0 (last + 1) then none else
  let m := memRead x.staging 0 (832 + 64 * segs)
  match headCheck s x.size m with
  | some r => some r
  | none =>
    match tailCheck x mib (832 + 64 * segs) with
    | none => none
    | some false => some (.internal, true)
    | some true =>
      match segCheck x m segs 0 with
      | none => none
      | some false => some (.authFail, true)
      | some true => some (.ok, true)

/-- The check is decided: SEC_BOOT_STATUS takes the status, a failure is logged, a pass measures the bundle (spec/17 R442,
R445). -/
def decide_ (s : State) (st : Status) (hashed : Bool) : State :=
  let x := s.sec.session
  let h := memRead x.staging 0 256
  let digest := sha512 (memRead x.staging 0 (256 + 64 * fld h 16 2))
  let s := modSec s fun y => { y with
    checked := st, phase := .decided
    session := { x with verdict := st, digest := if hashed then digest else zeros64 } }
  if st = .ok then
    let s := extend s 1 digest
    [1, 2, 3].foldl (fun s t => match imageOf h t with
      | some e => extend s (t + 1) (sha512 (memRead x.staging (fld e 4 4) (fld e 8 4)))
      | none => s) s
  else raise s .bootCheck secSrc (toLe 2 st.code ++ toLe 6 0 ++ toLe 4 (fld h 8 4))

/-! ### The session (spec/17 R435) -/

/-- An OFFER that the ROM takes opens the session. -/
def takeOffer (s : State) (via : ImgVia) (b : Bytes) : State :=
  let n := fld b 16 4
  if s.sec.phase = .soliciting && imgType b = 2 && imgMine s b && imgSession b ≠ 0 && b.length = 24 && n % 4096 = 0 &&
      1052672 ≤ n && n ≤ 536870912 then
    modSec s fun x => { x with phase := .open_, session := { id := imgSession b, via := via, size := n, last := s.hub.time } }
  else s

/-- Whether the signed part has been hashed when the check meets the byte `a` of the bundle: the region up to the signature
block is there, its checks passed, and the byte lies behind them (spec/17 R442). -/
def hashedBefore (s : State) (x : Session) (a : Nat) : Bool :=
  let n := 832 + 64 * leNat (memRead x.staging 16 2)
  blocksIn x 0 (ceilDiv n 4096) && decide (n ≤ a) && (headCheck s x.size (memRead x.staging 0 n)).isNone

/-- A BLOCK of the session is stored, and the check goes as far as it can; `bad` is the byte of the bundle where its reads of
the staging area meet an uncorrectable word. -/
def bundleBlock (s : State) (b : Bytes) (bad : Option Nat) : State :=
  let x := s.sec.session
  if s.sec.phase = .open_ && imgType b = 3 && imgMine s b && imgSession b = x.id && b.length = 4112 &&
      imgSeq b < x.size / 4096 && !x.got.contains (imgSeq b) then
    let x := { x with got := insertNat (imgSeq b) x.got, last := s.hub.time
                      staging := memWrite x.staging (imgSeq b * 4096) (b.drop 16) }
    let s := modSec s fun y => { y with session := x }
    match bad with
    | some a => decide_ s .eccUncorrectable (hashedBefore s x a)
    | none =>
      match verdict s x with
      | some (st, hashed) => decide_ s st hashed
      | none => s
  else s

/-- The lowest block not received. -/
def nextBlock (x : Session) : Nat := ((List.range (x.size / 4096)).find? fun i => !x.got.contains i).getD (x.size / 4096)

/-- The payload of STATE. -/
def statePayload (x : Session) : Bytes :=
  let n := nextBlock x
  let got := fun i => b2n (x.got.contains (n + i))
  toLe 4 n ++ toLe 4 x.got.length ++ toLe 8 0 ++
  (List.range 128).map fun i => BitVec.ofNat 8 (((List.range 8).map fun j => got (8 * i + j) * 2 ^ j).sum)

/-- IMAGE_STATE_SEND. -/
def stateSend (s : State) : State :=
  let x := s.sec.session
  if s.sec.phase = .open_ then imgReply s x.via (imgBytes 4 (ownModule s) x.id.toNat 0 0 (statePayload x)) else s

/-- SESSION_ABANDON: no BLOCK came for 1 s. -/
def sessionAbandon (s : State) : State :=
  if s.sec.phase = .open_ then modSec s fun x => { x with phase := .soliciting, session := {} } else s

/-- The source of the running bundle, as SEC_BOOT_STATUS names it. -/
def sourceCode : ImgVia → BitVec 2
  | .port _ => 1
  | .ferry false => 2
  | .ferry true => 3

/-- Copy the wheelhouse loader of the bundle in the cache to LOAD, but for what would reach the cache, which only step 6
writes (spec/17 R432); the entry address (Table 17-1 step 7). -/
def loadLoader : Act Nat := do
  let w := whoPurser none
  let h ← rd w cacheBase 256
  match imageOf h 3 with
  | some e =>
    let b ← rd w (cacheBase + fld e 4 4) (fld e 8 4)
    wr w (fld e 16 8) (b.take (cacheBase - fld e 16 8))
    return fld e 24 8
  | none => return 0

/-- Hart 0 starts. The spec names no event that takes another hart out of reset: HUB_HARTS answers for those with free
values (log 93). -/
def startHart (s : State) (entry : Nat) : State :=
  emit { s with hub := { s.hub with harts := 1, retained := 0 } } (.hart 0 entry)

/-- Step 7 of Table 17-1: hart 0 starts at the loader's entry, unless a word of the loader is uncorrectable (spec/07 R182; log
93). -/
def startLoader (s : State) : Status × State :=
  match runActVal loadLoader s with
  | (.ok a, s) => (.ok, startHart s a)
  | (.error st, s) => (st, s)

/-- Steps 6 and 7 of Table 17-1: the bundle goes to its cache, every store is clear, the firmware and hart 0 run. -/
def handOver (s : State) : State :=
  let x := s.sec.session
  let h := memRead x.staging 0 256
  let cache := memWrite [] cacheBase (memRead x.staging 0 x.size)
  let s := { s with
    mem := { s.mem with
      bytes := cache, gran := [], parked := [], badSram := []
      badHbm := s.mem.badHbm.filter fun k => !covers 32 cacheBase x.size k }
    pur := { s.pur with fw := BitVec.ofNat 32 (fld h 12 4) }
    sec := { s.sec with
      phase := .running, session := {}, source := sourceCode x.via, svn := BitVec.ofNat 32 (fld h 8 4)
      ownerVerified := s.sec.ownerSet } }
  (startLoader s).2

/-- IMAGE_DONE_SEND: DONE goes out; the third one ends the session. -/
def doneSend (s : State) : State :=
  let x := s.sec.session
  if s.sec.phase ≠ .decided then s else
  let s := imgReply s x.via (imgBytes 5 (ownModule s) x.id.toNat 0 x.verdict.code x.digest)
  let s := modSec s fun y => { y with session := { x with dones := x.dones + 1 } }
  if x.dones < 2 then s
  else if x.verdict = .ok then handOver s
  else modSec s fun y => { y with phase := .restart, session := {} }

/-! ### Fuses and measurements under software (spec/17 R443, R444, R446) -/

/-- SVN_FLOOR_RAISE: a write of SEC_SVN_CTL. -/
def svnRaise (s : State) (a : Agent) (v : W64) : State :=
  let n := BitVec.ofNat 32 (bits v.toNat 31 0)
  if a = .mgmt && s.sec.svnFloor.toNat < n.toNat && n.toNat ≤ s.sec.svn.toNat && s.sec.phase = .running && s.sec.raises < 64 then
    modSec s fun x => { x with svnFloor := n, raises := x.raises + 1 }
  else protWrite s (secBase + 0x18) v

/-- OWNER_HASH_PROGRAM: a write of SEC_OWNER_CTL. -/
def ownerProgram (s : State) (a : Agent) (v : W64) : State :=
  if a ≠ .mgmt || s.sec.ownerSet then protWrite s (secBase + 0xC0) v
  else if v.getLsbD 0 then modSec s fun x => { x with ownerSet := true }
  else s

/-- Who may write the extend registers. -/
def mayExtend : Agent → Bool
  | .mgmt => true
  | .hart _ hv => hv
  | _ => false

/-- The digest in SEC_EXT_DATA. -/
def extDigest (s : State) : Bytes := (List.range 8).flatMap fun i => toLe 8 (tabGet 0 s.sec.extData i).toNat

/-- MEASUREMENT_EXTEND: a write of SEC_EXT_CTL; the extend is done at once, so GO reads 0 (log 38). -/
def extCtlWrite (s : State) (a : Agent) (v : W64) : State :=
  let k := bits v.toNat 2 0
  if !mayExtend a then protWrite s (secBase + 0x340) v else
  let s := modSec s fun x => { x with extSlot := BitVec.ofNat 3 k }
  if !v.getLsbD 63 then s
  else if 5 ≤ k then modSec (extend s k (extDigest s)) fun x => { x with extends_ := x.extends_ + 1 }
  else protWrite s (secBase + 0x340) v

/-! ### ATTEST (spec/17 R449, R450) -/

/-- The bytes of a report that the identity key signs. -/
def reportBody (s : State) (nonce : Bytes) : Bytes :=
  [1] ++ toLe 1 (b2n s.sec.ownerSet + 2 * b2n s.sec.ownerVerified) ++ toLe 2 (ownModule s) ++ toLe 4 s.sec.svn.toNat ++
  toLe 4 s.sec.svnFloor.toNat ++ toLe 4 s.pur.fw.toNat ++ toLe 16 Config.serial.toNat ++ nonce ++
  toLe 8 s.hub.time.toNat ++ toLe 8 s.sec.extends_.toNat ++ toBe 64 Config.rootHash.toNat ++
  (if s.sec.ownerSet then ownerHashBytes s else zeros64) ++ toLe 48 0 ++ (List.range 8).flatMap (measure s)

/-- The report: the body, ALG and the signature, whose value only the identity key gives (log 39). -/
def reportBytes (s : State) (nonce : Bytes) : Bytes :=
  let b := reportBody s nonce
  b ++ toLe 2 1 ++ toLe 2 0 ++ (List.range 132).map (Config.identitySign b (toLe 8 s.freeCtr)) ++ toLe 120 0

/-- The certificate area. -/
def certBytes : Bytes := (List.range 4096).map Config.certificate

/-- ATTEST. -/
def attest (s : State) (id : Nat) : State :=
  startRow s id 0x05 fun c =>
    let dst := fld c.desc 16 8
    let all := bit (fld c.desc 24 1) 0
    let n := if all then 5120 else 1024
    if (getMb s c.mb).parts ≠ 0xFFFF || dst % 64 ≠ 0 || dst < wheelBase || unifiedEnd < dst + n then endCmd s id .internal 0 else
    let b := reportBytes s (part c.desc 32 32) ++ if all then certBytes else []
    match runAct (wr (whoPurser none) dst b) { s with freeCtr := s.freeCtr + 1 } with
    | (.ok, s) => endCmd s id .ok (w64 n)
    | (st, s) => endCmd s id st 0

/-! ### Rows -/

/-- BOOT_START (spec/17 R430). -/
def execBootStart (straps : BitVec 6) (s : State) : Host.Outcome State Fault Refusal := .next (bootStart s straps)
/-- SOLICIT (spec/17 R430). -/
def execSolicit (s : State) : Host.Outcome State Fault Refusal := .next (solicit s)
/-- OFFER (spec/17 R435). -/
def execOffer (d : Datagram) (s : State) : Host.Outcome State Fault Refusal :=
  .next (datagram s d fun s => takeOffer s (.port d.host) d.bytes)
/-- BLOCK (spec/17 R435). -/
def execBlock (d : Datagram) (bad : Option Nat) (s : State) : Host.Outcome State Fault Refusal :=
  .next (datagram s d fun s => bundleBlock s d.bytes bad)
/-- IMAGE_STATE_SEND (spec/17 R435). -/
def execImageStateSend (s : State) : Host.Outcome State Fault Refusal := .next (stateSend s)
/-- SESSION_ABANDON (spec/17 R435). -/
def execSessionAbandon (s : State) : Host.Outcome State Fault Refusal := .next (sessionAbandon s)
/-- IMAGE_DONE_SEND (spec/17 R435). -/
def execImageDoneSend (s : State) : Host.Outcome State Fault Refusal := .next (doneSend s)
/-- SVN_FLOOR_RAISE (spec/17 R443). -/
def execSvnFloorRaise (agent : Agent) (v : W64) (s : State) : Host.Outcome State Fault Refusal := .next (svnRaise s agent v)
/-- OWNER_HASH_PROGRAM (spec/17 R444). -/
def execOwnerHashProgram (agent : Agent) (v : W64) (s : State) : Host.Outcome State Fault Refusal :=
  .next (ownerProgram s agent v)
/-- MEASUREMENT_EXTEND (spec/17 R446). -/
def execMeasurementExtend (agent : Agent) (v : W64) (s : State) : Host.Outcome State Fault Refusal :=
  .next (extCtlWrite s agent v)
/-- ATTEST (spec/17 R449). -/
def execAttest (id : Nat) (s : State) : Host.Outcome State Fault Refusal := .next (attest s id)

end Sys2Proof.Machine
end

