-- ==== Sys2Proof/Machine/Resets.lean ====
section
/-! DEFINITION. Resets (spec/18 R452-R460) and the event log's registers (R465, R467). A reset runs whole in its row, so
none is in progress when another starts (log 42). -/

namespace Sys2Proof.Machine

/-! ### Engine reset (spec/18 R455, Table 18-2) -/

/-- A context's HALT, queue and command count on an engine return to reset. -/
def freshCtx : CtxQ := {}

/-- What Table 18-2 clears of a core. -/
def resetCore (s : State) (k : Nat) : State :=
  { s with cores := tabPut s.cores k (accLost {} 0 65536 s.freeCtr), freeCtr := s.freeCtr + 1 }

/-- The pins and schedules made through a barge. -/
def resetBarge (s : State) (b : Nat) : State :=
  let s := unpinAll s (fun p => p.2 = b) 0
  (List.range 128).foldl (fun s c => dropSchedule s b c) s

/-- Besides stopping its work, what an engine reset clears. -/
def clearEngine (s : State) (e : Eng) : State :=
  let i := e.index
  match e.kind with
  | .core => resetCore s i
  | .barge => resetBarge s i
  | .gather => modGe s i fun x => { x with pf := [], hot := [], rows := 0 }
  | .slice => { s with pcl := { s.pcl with slices := tabDel s.pcl.slices i } }
  | .ssu => { s with ssus := tabDel s.ssus i }
  | .router => { s with routers := tabDel s.routers i }
  | .grinder => s
  | .slipManager =>
    (s.slip.queues.filter fun q => q.2.enable).foldl (fun s q => disableQueue s q.1) s

/-- An engine reset: its work stops at once with ABORTED_DISABLED, then it is cleared for every context. -/
def resetEngine (s : State) (e : Eng) : State :=
  let all := fun _ => true
  let s := stopRunning (stopQueued s e all .abortedDisabled) e all .abortedDisabled
  let s := clearEngine s e
  modEng s e fun x => { x with fault := {}, ctxs := [] }

/-! ### Partition reset (spec/18 R456) -/

/-- Every engine's work for a partition stops at once. -/
def stopPartition (s : State) (p : Nat) : State :=
  let test := fun c => decide (ctxPart c = p)
  allEngines.foldl (fun s e => stopRunning (stopQueued s e test .abortedDisabled) e test .abortedDisabled) s

/-- Enabled buckets are refilled to BURST. -/
def refillBuckets (s : State) (p : Nat) : State :=
  modPart s p fun x => { x with buckets := tabMap (fun _ b =>
    if b.enable then { b with tokens := 1000 * b.burst.toNat, waiting := [] } else b) x.buckets }

/-- A partition reset. -/
def resetPartition (s : State) (p : Nat) : State :=
  let s := stopPartition s p
  let s := (s.pur.reqs.filter fun r => ctxPart r.2.ctx = p).foldl (fun s r => requestError s r.1 .abortedDisabled) s
  refillBuckets (clearContexts s ((List.range 8).map fun i => 8 * p + i)) p

/-! ### Warm reset (spec/18 R457, Tables 18-3, 18-4) -/

/-- Every dirty granule is written back and every store is clear (step 4). -/
def clearStores (s : State) : State := s.mem.gran.foldl (fun s g => sendHome s g.1) s

/-- Engines and the purser lose their work without records, and what they hold returns to reset (steps 2 and 5). -/
def dropWork (s : State) : State :=
  { s with
    engs := [], cores := [], barges := {}, routers := [], ssus := [], pcl := {}
    slip := { packets := s.slip.packets, rewound := s.slip.rewound }
    gth := { epochMs := s.gth.epochMs, epoch := s.gth.epoch }
    grd := { s.grd with slots := [], ops := [] }
    pur := { fw := s.pur.fw, nextId := s.pur.nextId, lastRefill := s.hub.time.toNat }
    fry := { s.fry with ops := [], writes := [] }
    mem := { s.mem with schedules := [], fetches := [] } }

/-- A partition's registers at reset, its stall counts kept. -/
def warmPart (x : Partition) : Partition := { buckets := tabMap (fun _ b => { stall := b.stall }) x.buckets }

/-- A port's registers after a warm reset. -/
def warmPort (x : PortSt) : PortSt :=
  { x with cal := false, lost := false, rxLog2 := 0, rxBase := 0, rxTail := 0, rxHead := 0, txLog2 := 0, txBase := 0,
           txTail := 0, txHead := 0 }

/-- Registers take the values of Table 18-4 (step 5). The deck voltages stand: no deck is powered down (log 43). -/
def warmRegisters (s : State) : State :=
  { s with
    prt := { parts := tabMap (fun _ x => warmPart x) s.prt.parts }
    pwr := { s.pwr with
      rateLow := 0, pinned := 0, monitors := [], rateMin := [], input := 0, coolant := 0, hbmTemp := []
      wakeHart := 0, wakeIrqEn := false, moorWait := 0x64, latch := false, refused := false, entryByCommand := none }
    hub := { s.hub with lost := false, cage := false, fecLock := false, link := false }
    mem := { s.mem with decks := tabMap (fun _ d =>
      { periodUs := d.periodUs, epoch := d.epoch, sramCe := d.sramCe, sramUe := d.sramUe }) s.mem.decks }
    fry := { s.fry with
      ports := tabMap (fun _ x => warmPort x) s.fry.ports, learned := [], ppsArm := false, ppsBehind := false
      ppsSeen := false, ppsNext := 0, ppsLatch := 0 }
    sec := { s.sec with
      meas := s.sec.meas.filter (fun m => m.1 < 5), extData := [], extSlot := 0, extends_ := 0
      hosts := [], relay := [], served := [], resps := [] } }

/-- The mailboxes at reset, MB_63_CFG kept, and the issuing one reopened empty (step 7). -/
def reopen (s : State) (m : Nat) (seq : BitVec 16) : State :=
  let y := getMb s 63
  let x := getMb s m
  let cfg63 : Mailbox := { owner := y.owner, irqHart := y.irqHart, irqEn := y.irqEn, parts := y.parts }
  let again : Mailbox := { owner := x.owner, irqHart := x.irqHart, irqEn := x.irqEn, parts := x.parts, state := .opened,
                           rev := x.rev, revMin := x.revMin, revMax := x.revMax, nextSeq := seq + 1 }
  { s with mbs := tabPut [(63, cfg63)] m again }

/-- The paths that are syncing or up on some port. -/
def allPaths (s : State) : List (Nat × Nat) :=
  (s.fry.paths.filter fun k => k.2.state = .syncing || k.2.state = .up).map fun k => (k.1 / 4096, k.1 % 4096)

/-- The RESET event. -/
def resetEvent (s : State) (kind target : Nat) : State :=
  raise s .reset purSrc (toLe 1 kind ++ toLe 1 0 ++ toLe 2 target)

/-- A warm reset that command `c` starts. -/
def resetWarm (s : State) (c : PCmd) : State :=
  let s := dropWork (resetEvent s 1 0)
  let s := (allPaths s).foldl (fun s k => pathLost s k.1 k.2) s
  let s := warmRegisters (clearStores s)
  let r := startLoader s
  let s := reopen r.2 c.mb c.seq
  let f := takeFree s
  writeCpl f.2 c.mb { seq := c.seq, status := r.1, opcode := c.opcode, tag := c.tag, detail := w64 f.1 } false

/-! ### The RESET command (spec/15 R379, Table 15-6) -/

/-- KIND of a RESET. -/
def resetKind (c : PCmd) : Nat := fld c.desc 16 1
/-- TARGET of a RESET. -/
def resetTarget (c : PCmd) : Nat := fld c.desc 18 2

/-- A RESET of a kind that no reset has completes with INTERNAL. -/
def resetRow (s : State) (id kind : Nat) (f : PCmd → State) : State :=
  startRow s id 0x03 fun c =>
    if resetKind c < 1 || 3 < resetKind c then endPlain s id .internal
    else if resetKind c = kind then f c else s

/-- RESET_WARM. -/
def resetWarmCmd (s : State) (id : Nat) : State :=
  resetRow s id 1 fun c =>
    if (getMb s c.mb).parts ≠ 0xFFFF || resetTarget c ≠ 0 then endPlain s id .internal else resetWarm s c

/-- RESET_PARTITION. -/
def resetPartitionCmd (s : State) (id : Nat) : State :=
  resetRow s id 2 fun c =>
    let p := resetTarget c
    if 16 ≤ p || !(getMb s c.mb).parts.getLsbD p then endPlain s id .internal
    else endPlain (resetPartition (resetEvent s 2 p) p) id .ok

/-- RESET_ENGINE. -/
def resetEngineCmd (s : State) (id : Nat) : State :=
  resetRow s id 3 fun c =>
    match engOfSelector (resetTarget c) with
    | some e => endPlain (resetEngine (resetEvent s 3 (resetTarget c)) e) id .ok
    | none => endPlain s id .internal

/-! ### Module reset (spec/18 R452, R459, spec/19 Table 19-4) -/

/-- The module at its reset values: the fuses and what the model itself keeps stand. -/
def freshModule (s : State) : State :=
  { State.reset with
    pwr := { moorReqLow := s.pwr.moorReqLow, tripCauses := s.pwr.tripCauses }
    fry := { State.reset.fry with slot := s.fry.slot }
    sec := { ownerSet := s.sec.ownerSet, ownerHash := if s.sec.ownerSet then s.sec.ownerHash else [],
             svnFloor := s.sec.svnFloor, raises := s.sec.raises }
    pending := s.pending, outs := s.outs, freeCtr := s.freeCtr }

/-! ### The event log's registers (spec/18 R465, R467) -/

/-- The EVT block starts here (spec/00 Table 0-4). -/
def evtBase : Nat := 0xF00009000000

/-- EVT_TAIL_WRITE. -/
def evtTailWrite (s : State) (a : Agent) (v : W64) : State :=
  byAgent s a fun s =>
    if v.toNat ≤ s.evt.head.toNat then
      { s with evt := { s.evt with tail := BitVec.ofNat 64 (max v.toNat s.evt.tail.toNat) } }
    else s

/-- EVT_DROPS_READ: the count is answered and cleared. -/
def evtDropsRead (s : State) : State :=
  let v := s.evt.drops
  emit { s with evt := { s.evt with drops := 0 } } (.value (evtBase + 0x18) (v.zeroExtend 64))

/-! ### Rows -/

/-- RESET_WARM (spec/18 R457). -/
def execResetWarm (id : Nat) (s : State) : Host.Outcome State Fault Refusal := .next (resetWarmCmd s id)
/-- RESET_PARTITION (spec/18 R456). -/
def execResetPartition (id : Nat) (s : State) : Host.Outcome State Fault Refusal := .next (resetPartitionCmd s id)
/-- RESET_ENGINE (spec/18 R455). -/
def execResetEngine (id : Nat) (s : State) : Host.Outcome State Fault Refusal := .next (resetEngineCmd s id)
/-- EVT_TAIL_WRITE (spec/18 R465). -/
def execEvtTailWrite (agent : Agent) (v : W64) (s : State) : Host.Outcome State Fault Refusal :=
  .next (evtTailWrite s agent v)
/-- EVT_DROPS_READ (spec/18 R467). -/
def execEvtDropsRead (s : State) : Host.Outcome State Fault Refusal := .next (evtDropsRead s)

end Sys2Proof.Machine
end

