-- ==== Sys2Proof/Machine/Power.lean ====
section
/-! DEFINITION. Rate monitors and voltage control (spec/02), power, trips, Moored, the sideband and the sensors (spec/19),
and the management port's link (spec/01 Table 1-12). -/

namespace Sys2Proof.Machine

/-- The PWR block starts here (spec/00 Table 0-4). -/
def pwrBase : Nat := 0xF00003000000

/-- The SOURCE of the power block's events. -/
def pwrSrc : BitVec 16 := srcOf 11 0

/-- Change the power block. -/
def modPwr (s : State) (f : PwrSt → PwrSt) : State := { s with pwr := f s.pwr }

/-- The decks are powered: after boot began, and not from mooring to the end of wake. -/
def decksOn (s : State) : Bool := s.pwr.power = .on && (s.pwr.moor = .running || s.pwr.moor = .entering)

/-! ### Rate monitors (spec/02 R49-R51) -/

/-- Monitor `m` of deck `d`. -/
def getMonitor (s : State) (d m : Nat) : Monitor := tabGet {} s.pwr.monitors (4 * d + m)

/-- RATE of a window: 16 times the beats counted. -/
def windowRate (count : Nat) : BitVec 20 := BitVec.ofNat 20 (16 * count)

/-- The lowest RATE of a deck (spec/02 R50). -/
def deckRate (s : State) (d : Nat) : Nat :=
  min (min (getMonitor s d 0).rate.toNat (getMonitor s d 1).rate.toNat)
    (min (getMonitor s d 2).rate.toNat (getMonitor s d 3).rate.toNat)

/-- The floor of 1,200 beats/µs in 12.8 form. -/
def rateFloor : Nat := 1200 * 256

/-- A deck's window ends: its lowest rate is kept, its beats are counted, and a rate below the floor is reported. DESIGN
CHOICE: PWR_BEATS_d advances at window ends only, by monitor 0's count (log 91). -/
def deckWindow (counts : List RateReading) (s : State) (d : Nat) : State :=
  let r := deckRate s d
  let s := modPwr s fun x => { x with
    rateMin := tabPut x.rateMin d (BitVec.ofNat 20 (min r (tabGet 0xFFFFF x.rateMin d).toNat))
    beats := tabMod 0 x.beats d fun n => n + w64 ((counts.getD (4 * d) ⟨0, 0⟩).count) }
  if r < rateFloor then
    raise (modPwr s fun x => { x with rateLow := x.rateLow ||| BitVec.ofNat 4 (2 ^ d) }) .rateLow pwrSrc
      (toLe 1 d ++ toLe 3 0 ++ toLe 4 r)
  else s

/-- RATE_WINDOW_END: the 16 monitors' readings, monitor `m` of deck `d` at 4d + m. -/
def rateWindow (s : State) (readings : List RateReading) : State :=
  if !decksOn s then s else
  let s := modPwr s fun x => { x with monitors := (List.range 16).foldl (fun t i =>
    let r := readings.getD i ⟨0, 0⟩
    tabMod {} t i fun y => { seq := y.seq + 1, tj := r.tj, rate := windowRate r.count }) x.monitors }
  (List.range 4).foldl (deckWindow readings) s

/-- PWR_RATE_MIN_READ: the lowest rate is answered, and the register returns to its reset value. -/
def rateMinRead (s : State) (d : Nat) : State :=
  emit (modPwr s fun x => { x with rateMin := tabDel x.rateMin d })
    (.value (pwrBase + 0x200 + d * 8) ((tabGet 0xFFFFF s.pwr.rateMin d).zeroExtend 64))

/-! ### Voltage control (spec/02 R42-R45) -/

/-- The highest junction reading of a deck. -/
def deckTj (s : State) (d : Nat) : Nat :=
  max (max (getMonitor s d 0).tj.toNat (getMonitor s d 1).tj.toNat)
    (max (getMonitor s d 2).tj.toNat (getMonitor s d 3).tj.toNat)

/-- The new setpoint of a deck, by the rule of R43. -/
def newSetpoint (v tj tjCap pIn pcap vmax : Nat) : Nat :=
  let w := if tjCap < tj || pcap < pIn then v - 10
    else if tj + 3 < tjCap && pIn + 50 < pcap then v + 5 else v
  max (min w vmax) 620

/-- What held the step: LIMIT of Table 2-5. DESIGN CHOICE where two codes fit: a step that ends at 620 mV above the deck's cap
gives 0x04, not 0x02, and a deck that holds at VMAX_MV gives 0x01, not 0x00 (log 91). -/
def limitCode (v tj tjCap pIn pcap vmax : Nat) : BitVec 8 :=
  if tjCap < tj then (if v = 620 then 4 else 2)
  else if pcap < pIn then 3
  else if v = vmax then 1 else 0

/-- One deck's control step. -/
def deckStep (pIn : Nat) (s : State) (d : Nat) : State :=
  let c := tabGet {} s.pwr.deckCtl d
  let tj := deckTj s d
  let v := newSetpoint (tabGet {} s.pwr.vset d).mv.toNat tj c.tjCap.toNat pIn s.pwr.pcap.toNat c.vmax.toNat
  let l := limitCode v tj c.tjCap.toNat pIn s.pwr.pcap.toNat c.vmax.toNat
  let s := modPwr s fun x => { x with vset := tabPut x.vset d { limit := l, mv := BitVec.ofNat 10 v } }
  if v = 620 && c.tjCap.toNat < tj then
    raise (modPwr s fun x => { x with pinned := x.pinned ||| BitVec.ofNat 4 (2 ^ d) }) .pinned pwrSrc (toLe 1 d ++ toLe 1 tj)
  else s

/-- VOLTAGE_CONTROL_STEP, with the module input power in watts. -/
def voltageStep (s : State) (pIn : Nat) : State :=
  if decksOn s then (List.range 4).foldl (deckStep pIn) s else s

/-! ### Sensors (spec/19 R490) -/

/-- SENSOR_SAMPLE. -/
def sensorSample (s : State) (r : SensorReadings) : State :=
  if s.pwr.power = .off then s else
  modPwr s fun x => { x with
    input := w64 (r.vin10mV.toNat * 2 ^ 48 + r.iin10mA.toNat * 2 ^ 32 + r.pinW.toNat)
    coolant := w64 (r.hubTj.toNat * 2 ^ 24 + r.outlet.toNat * 2 ^ 8 + r.inlet.toNat)
    hbmTemp := r.hbm.zipIdx.map fun p => (p.2, p.1) }

/-! ### Power up and down, module reset, trips (spec/19 R475, R476, R479) -/

/-- POWER_ON: the rails are good and the module holds in module reset until BOOT_START. -/
def powerOn (s : State) : State :=
  if s.pwr.power = .off then
    let t := freshModule s
    { t with pwr := { t.pwr with power := .moduleReset, tripCauses := 0 } }
  else s

/-- POWER_DOWN: every rail is off. -/
def powerDown (s : State) : State :=
  let t := freshModule s
  { t with
    pwr := { t.pwr with power := .off, tripCauses := 0 } }

/-- The clear levels of R479. -/
def clearLevels (l : TripLevels) : Bool :=
  l.junction < 95 && l.hbm < 85 && l.outlet < 60 && 4800 ≤ l.vin && l.vin ≤ 5700

/-- MODULE_RESET: from every state but off; from a trip only below the clear levels. -/
def moduleReset (s : State) (l : TripLevels) : State :=
  match s.pwr.power with
  | .off => s
  | .tripped => if clearLevels l then freshModule s else s
  | _ => freshModule s

/-- A trip cause's bit (spec/19 Table 19-5). -/
def tripBit : TripCause → Nat
  | .junction => 0 | .hbm => 1 | .outlet => 2 | .overVoltage => 3 | .overCurrent => 4 | .rail => 5

/-- Whether a trip asserts THERMTRIP_N. -/
def tripThermal : TripCause → Bool
  | .junction | .hbm | .outlet => true
  | _ => false

/-- TRIP: every rail but standby is off; the trip latches. -/
def trip (s : State) (c : TripCause) : State :=
  match s.pwr.power with
  | .off | .tripped => s
  | _ =>
    let t := freshModule s
    { t with
      pwr := { t.pwr with
        power := .tripped, tripCauses := BitVec.ofNat 6 (2 ^ tripBit c), tripAlert := true, thermTrip := tripThermal c
        input := s.pwr.input, coolant := s.pwr.coolant } }

/-! ### Moored (spec/19 R480-R484) -/

/-- Whether the target state is Moored. -/
def moorTarget (s : State) : Bool := (s.pwr.moorReqLow && !s.pwr.refused) || s.pwr.latch

/-- MOOR_REQ_CHANGE: the filtered level; high ends a refusal (log 44). -/
def moorReqChange (s : State) (low : Bool) : State :=
  modPwr s fun x => { x with moorReqLow := low, refused := x.refused && low }

/-- MOOR: the command latch is set. -/
def moorCmd (s : State) (id : Nat) : State :=
  startRow s id 0x04 fun c =>
    if (getMb s c.mb).parts ≠ 0xFFFF then endPlain s id .internal
    else if s.pwr.entryByCommand.isSome then s
    else
      modPwr (putCmd s id { c with phase := .running }) fun x => { x with latch := true, entryByCommand := some id }

/-- A write of PWR_MOOR_CTL (spec/19 Table 19-12). -/
def moorCtlSet (s : State) (v : W64) : State :=
  let n := v.toNat
  modPwr s fun x => { x with
    latch := x.latch && !v.getLsbD 63, wakeHart := BitVec.ofNat 5 (bits n 44 40), wakeIrqEn := bit n 39
    moorWait := BitVec.ofNat 14 (clamp 1 10000 (bits n 13 0)) }

/-- MOOR_WAKE_WRITE: a write of PWR_MOOR_CTL with WAKE. -/
def moorWakeWrite (s : State) (a : Agent) (v : W64) : State :=
  let v := v ||| 0x8000000000000000
  if prtMayWrite a then moorCtlSet s v else protWrite s (pwrBase + 0x320) v

/-- MOOR_ENTRY. -/
def moorEntry (s : State) : State :=
  if s.pwr.moor = .running && pursing s && (moorTarget s || s.pwr.entryByCommand.isSome) then
    modPwr s fun x => { x with moor := .entering }
  else s

/-- Whether a command waits or runs on some engine; those of halted contexts count. -/
def enginesBusy (s : State) : Bool := (List.range 128).any (ctxBusy s) || !s.fry.ops.isEmpty

/-- The MOOR that caused the entry completes. -/
def moorEnds (s : State) (st : Status) : State :=
  match s.pwr.entryByCommand with
  | some id => endPlain (modPwr s fun x => { x with entryByCommand := none }) id st
  | none => s

/-- Every granule goes HOME, the pinned ones on record (spec/19 Table 19-6 step 5). -/
def parkStores (s : State) : State :=
  let pinned := s.mem.gran.filter fun g => g.2.pins ≠ []
  let s := clearStores s
  { s with mem := { s.mem with
    parked := pinned.foldl (fun t g => tabPut t g.1 { g.2 with dirty := false }) s.mem.parked } }

/-- The decks are gated off at the setpoints of this moment. -/
def gateDecks (s : State) : State :=
  modPwr s fun x => { x with
    saved := (List.range 4).foldl (fun t d => tabPut t d (tabGet {} x.vset d).mv) x.saved, vset := [], moor := .moored }

/-- MOOR_DRAINED. -/
def moorDrained (s : State) : State :=
  if s.pwr.moor ≠ .entering || enginesBusy s then s else
  let s := moorEnds s .ok
  let s := { s with hub := { s.hub with retained := s.hub.harts, harts := 0 } }
  let s := parkStores s
  gateDecks ((List.range 16).foldl portLinkDown s)

/-- MOOR_WAIT_EXPIRY: entry is refused when an engine queue has not emptied. -/
def moorExpiry (s : State) : State :=
  if s.pwr.moor ≠ .entering || !enginesBusy s then s else
  let s := modPwr s fun x => { x with moor := .running }
  if s.pwr.entryByCommand.isSome then moorEnds (modPwr s fun x => { x with latch := false }) .internal
  else modPwr s fun x => { x with refused := true }

/-- A pinned granule comes back; one with an uncorrectable word stays HOME (spec/07 R184). -/
def fetchBack (s : State) (g : Nat × Gran) : State :=
  match badInHome s g.1 with
  | some a => noteHbmBad s a false
  | none =>
    let s := modDeck s (g.2.store / 36) fun x => { x with fetched := x.fetched + 1 }
    { s with mem := { s.mem with gran := tabPut s.mem.gran g.1 g.2, parked := tabDel s.mem.parked g.1 } }

/-- After wake every accumulator entry holds an undefined value. -/
def accsLost (s : State) : State :=
  (List.range 128).foldl (fun s k =>
    { s with cores := tabMod {} s.cores k fun x => accLost x 0 65536 s.freeCtr, freeCtr := s.freeCtr + 1 }) s

/-- WAKE. DESIGN CHOICE: LIMIT is 0x00 until the first control step after it (log 91). -/
def wake (s : State) : State :=
  if s.pwr.moor ≠ .moored || moorTarget s then s else
  let s := modPwr s fun x => { x with
    vset := (List.range 4).foldl (fun t d => tabPut t d { limit := 0, mv := tabGet 0 x.saved d }) x.vset, moor := .running }
  let s := accsLost (s.mem.parked.foldl fetchBack s)
  let s := { s with hub := { s.hub with harts := s.hub.retained, retained := 0 } }
  if s.pwr.wakeIrqEn then emit s (.irq s.pwr.wakeHart.toNat .wake) else s

/-! ### SMBus (spec/19 R488) -/

/-- STATE of Table 19-10. -/
def smbusState (s : State) : Nat :=
  match s.pwr.power with
  | .off => 0
  | .moduleReset => 1
  | .tripped => 4
  | .on => if s.pwr.moor = .moored then 3 else 2

/-- The bytes an SMBus read answers. -/
def smbusBytes (s : State) (cmd : Nat) : Bytes :=
  let p := s.pwr.input.toNat
  let c := s.pwr.coolant.toNat
  match cmd with
  | 1 => toLe 2 (bits p 63 48)
  | 2 => toLe 2 (bits p 47 32)
  | 3 => toLe 2 (bits p 15 0)
  | 4 => toLe 1 (bits c 7 0)
  | 5 => toLe 1 (bits c 15 8)
  | 6 => toLe 1 (if decksOn s then max (max (deckTj s 0) (deckTj s 1)) (max (deckTj s 2) (deckTj s 3)) else 0)
  | 7 => toLe 1 (if s.pwr.power = .on then (s.pwr.hbmTemp.map fun t => t.2.toNat).foldl max 0 else 0)
  | 8 => toLe 1 (smbusState s)
  | 9 => toLe 1 s.pwr.tripCauses.toNat
  | 10 => toLe 1 s.fry.slot.toNat
  | 16 => toLe 16 Config.serial.toNat
  | _ => [0xFF]

/-- SMBUS_READ. -/
def smbusRead (s : State) (cmd : Nat) : State :=
  if s.pwr.power = .off then s else emit s (.smbus (smbusBytes s cmd))

/-! ### The management port's link (spec/01 R35, spec/19 R489) -/

/-- MGMT_LINK_UP. -/
def mgmtLinkUp (s : State) : State :=
  match s.pwr.power with
  | .off | .tripped => s
  | _ => { s with hub := { s.hub with fecLock := true, link := true } }

/-- MGMT_LINK_DOWN. -/
def mgmtLinkDown (s : State) : State :=
  if s.hub.link then { s with hub := { s.hub with fecLock := false, link := false, lost := true } } else s

/-- MGMT_CAGE_CHANGE. -/
def cageChange (s : State) (present : Bool) : State := { s with hub := { s.hub with cage := present } }

/-! ### Stores of the wheelhouse (spec/17 R432) -/

/-- WHEELHOUSE_STORE: one that reaches the bundle cache writes nothing and faults in the hart. -/
def wheelStore (s : State) (hart addr : Nat) (b : Bytes) : State :=
  if pursing s && addr < unifiedEnd && cacheBase < addr + b.length then emit s (.storeFault hart addr)
  else (runAct (wr {} addr b) s).2

/-! ### Rows -/

/-- VOLTAGE_CONTROL_STEP (spec/02 R43). -/
def execVoltageControlStep (pIn : Nat) (s : State) : Host.Outcome State Fault Refusal := .next (voltageStep s pIn)
/-- RATE_WINDOW_END (spec/02 R49). -/
def execRateWindowEnd (readings : List RateReading) (s : State) : Host.Outcome State Fault Refusal :=
  .next (rateWindow s readings)
/-- PWR_RATE_MIN_READ (spec/02 R52). -/
def execPwrRateMinRead (d : Nat) (s : State) : Host.Outcome State Fault Refusal := .next (rateMinRead s d)
/-- SENSOR_SAMPLE (spec/19 R490). -/
def execSensorSample (r : SensorReadings) (s : State) : Host.Outcome State Fault Refusal := .next (sensorSample s r)
/-- POWER_ON (spec/19 R475). -/
def execPowerOn (s : State) : Host.Outcome State Fault Refusal := .next (powerOn s)
/-- POWER_DOWN (spec/19 R471). -/
def execPowerDown (s : State) : Host.Outcome State Fault Refusal := .next (powerDown s)
/-- MODULE_RESET (spec/19 R476). -/
def execModuleReset (l : TripLevels) (s : State) : Host.Outcome State Fault Refusal := .next (moduleReset s l)
/-- TRIP (spec/19 R479). -/
def execTrip (c : TripCause) (s : State) : Host.Outcome State Fault Refusal := .next (trip s c)
/-- MOOR (spec/19 R480). -/
def execMoor (id : Nat) (s : State) : Host.Outcome State Fault Refusal := .next (moorCmd s id)
/-- MOOR_REQ_CHANGE (spec/19 R480). -/
def execMoorReqChange (low : Bool) (s : State) : Host.Outcome State Fault Refusal := .next (moorReqChange s low)
/-- MOOR_WAKE_WRITE (spec/19 R480). -/
def execMoorWakeWrite (agent : Agent) (v : W64) (s : State) : Host.Outcome State Fault Refusal :=
  .next (moorWakeWrite s agent v)
/-- MOOR_ENTRY (spec/19 R481). -/
def execMoorEntry (s : State) : Host.Outcome State Fault Refusal := .next (moorEntry s)
/-- MOOR_DRAINED (spec/19 R481). -/
def execMoorDrained (s : State) : Host.Outcome State Fault Refusal := .next (moorDrained s)
/-- MOOR_WAIT_EXPIRY (spec/19 R482). -/
def execMoorWaitExpiry (s : State) : Host.Outcome State Fault Refusal := .next (moorExpiry s)
/-- WAKE (spec/19 R483). -/
def execWake (s : State) : Host.Outcome State Fault Refusal := .next (wake s)
/-- SMBUS_READ (spec/19 R488). -/
def execSmbusRead (cmd : Nat) (s : State) : Host.Outcome State Fault Refusal := .next (smbusRead s cmd)
/-- MGMT_LINK_UP (spec/01 R35). -/
def execMgmtLinkUp (s : State) : Host.Outcome State Fault Refusal := .next (mgmtLinkUp s)
/-- MGMT_LINK_DOWN (spec/01 R35). -/
def execMgmtLinkDown (s : State) : Host.Outcome State Fault Refusal := .next (mgmtLinkDown s)
/-- MGMT_CAGE_CHANGE (spec/01 R35). -/
def execMgmtCageChange (present : Bool) (s : State) : Host.Outcome State Fault Refusal := .next (cageChange s present)
/-- WHEELHOUSE_STORE (spec/17 R432). -/
def execWheelhouseStore (hart addr : Nat) (bytes : Bytes) (s : State) : Host.Outcome State Fault Refusal :=
  .next (wheelStore s hart addr bytes)

end Sys2Proof.Machine
end

