-- ==== Sys2Proof/Machine/Control.lean ====
section
/-! DEFINITION. Control space (spec/00 R13-R17): every register's value, and what a write of it does. Offsets that no table
lists are reserved: they read zero and writes to them do nothing. -/

namespace Sys2Proof.Machine

/-! ### Blocks (spec/00 Table 0-4) -/

/-- A block of control space; a core, a cluster's unit or a deck's block by its number on the module. -/
inductive Block where
  | hub | pur | prt | pwr | sec | fry | slp | grd | por | evt
  | core (k : Nat) | cluster (k : Nat) | brg (d : Nat) | gth (d : Nat) | hbm (d : Nat)
  deriving DecidableEq, Repr

/-- The block an address lies in, and the offset in it. DESIGN CHOICE: the spans of a deck's blocks (CORE and CLU 1 MiB
each, BRG, GTH and HBM 16 MiB each) are the model's; spec/00 R17 states a span for the hub blocks only (log 96). -/
def blockOf (addr : Nat) : Option (Block × Nat) :=
  if addr < 0xF00000000000 || 0xF00050000000 ≤ addr then none else
  let a := addr - 0xF00000000000
  if a < 0x0A000000 then
    let o := a % 0x1000000
    match a / 0x1000000 with
    | 0 => some (.hub, o) | 1 => some (.pur, o) | 2 => some (.prt, o) | 3 => some (.pwr, o) | 4 => some (.sec, o)
    | 5 => some (.fry, o) | 6 => some (.slp, o) | 7 => some (.grd, o) | 8 => some (.por, o) | _ => some (.evt, o)
  else if a < 0x10000000 then none
  else
    let d := a / 0x10000000 - 1
    let o := a % 0x10000000
    if o < 0x2000000 then some (.core (d * 32 + o / 0x100000), o % 0x100000)
    else if 0x4000000 ≤ o && o < 0x4400000 then some (.cluster (d * 4 + (o - 0x4000000) / 0x100000), o % 0x100000)
    else if 0x8000000 ≤ o && o < 0x9000000 then some (.brg d, o - 0x8000000)
    else if 0x9000000 ≤ o && o < 0xA000000 then some (.gth d, o - 0x9000000)
    else if 0xA000000 ≤ o && o < 0xB000000 then some (.hbm d, o - 0xA000000)
    else none

/-- The place of an offset in an array of `n` registers that begins at `base`. -/
def regIndex (off base stride n : Nat) : Option Nat :=
  if base ≤ off && (off - base) % stride = 0 && (off - base) / stride < n then some ((off - base) / stride) else none

/-- A row of a register table: base, stride, count, and what stands at each place. -/
structure RegRow (α : Type) where
  base : Nat
  stride : Nat
  count : Nat
  at_ : Nat → α

/-- A register of its own. -/
def reg {α : Type} (off : Nat) (v : α) : RegRow α := ⟨off, 8, 1, fun _ => v⟩

/-- What a register table holds at an offset. -/
def regFind {α : Type} (rows : List (RegRow α)) (off : Nat) : Option α :=
  rows.findSome? fun r => (regIndex off r.base r.stride r.count).map r.at_

/-! ### Words shared by blocks -/

/-- A fault record (spec/04 Table 4-9). -/
def faultWord (x : FaultRec) : Nat :=
  if x.valid then
    2 ^ 63 + x.opcode.toNat * 2 ^ 48 + x.ctx.toNat * 2 ^ 40 + x.resource.toNat * 2 ^ 32 + x.status.code * 2 ^ 16 +
    x.cmdSeq.toNat
  else 0

/-- HALT and QDEPTH of a context on an engine (spec/06 Table 6-9). -/
def ctxWord (s : State) (e : Eng) (c : Nat) : Nat :=
  let q := getQ s e c
  b2n q.halt * 2 ^ 63 + q.queue.length * 2 ^ 32

/-- A write of a fault register. -/
def faultWrite (s : State) (e : Eng) (v : W64) : State :=
  if v.getLsbD 63 then modEng s e fun x => { x with fault := {} } else s

/-- A write of a context register. -/
def haltWrite (s : State) (e : Eng) (c : Nat) (v : W64) : State := if v.getLsbD 63 then clearHalt s e c else s

/-- Word `i` of bytes. -/
def wordAt (b : Bytes) (i : Nat) : Nat := fld b (8 * i) 8

/-! ### Reading hub blocks -/

/-- HUB (spec/01 Tables 1-11, 1-12). Whether harts 1 to 31 are out of reset while hart 0 runs is free: the spec names no event
that starts them (log 93). -/
def readHub (s : State) : List (RegRow Nat) :=
  [reg 0 0x0960000100000000, reg 8 0x0000200400800010, reg 0x10 s.hub.time.toNat, reg 0x18 Config.mgmtMac.toNat,
   reg 0x20 (b2n s.hub.lost * 8 + b2n s.hub.cage * 4 + b2n s.hub.fecLock * 2 + b2n s.hub.link),
   reg 0x28 (s.hub.harts ||| if s.hub.harts.getLsbD 0 then Config.otherHarts s.hub.time s.freeCtr &&& 0xFFFFFFFE else 0).toNat]

/-- MB_m_CFG (spec/15 Table 15-11). -/
def mbCfgWord (x : Mailbox) : Nat :=
  x.owner.toNat * 2 ^ 61 + x.irqHart.toNat * 2 ^ 40 + b2n x.irqEn * 2 ^ 32 + x.parts.toNat

/-- The code of a mailbox's STATE. -/
def mbStateCode : MbState → Nat
  | .closed => 0 | .opening => 1 | .opened => 2 | .closing => 3

/-- MB_m_STATE (spec/15 Table 15-13). -/
def mbStateWord (x : Mailbox) : Nat :=
  mbStateCode x.state * 2 ^ 62 + x.rev.toNat * 2 ^ 48 + x.result.code * 2 ^ 32 + x.outstanding % 8192 * 2 ^ 16 + x.nextSeq.toNat

/-- PUR_CLASS_c_HELD: requests decoding, and requests held by the budget. -/
def heldWord (s : State) (c : Nat) : Nat :=
  let mine := s.pur.reqs.filter fun r => r.2.cls = c
  (mine.filter fun r => (tabGet {} r.2.stages 0x15).runs).length * 2 ^ 32 +
  (mine.filter fun r => heldByBudget s r.2).length

/-- PUR (spec/15 Table 15-10, R366; spec/13 Table 13-10). -/
def readPur (s : State) : List (RegRow Nat) :=
  let mb := fun off f => (⟨0x1000 + off, 0x40, 64, fun m => f (getMb s m)⟩ : RegRow Nat)
  [reg 0 0x0200010000400010, reg 8 s.pur.fw.toNat,
   mb 0 mbCfgWord, mb 0x10 mbStateWord, mb 0x20 (·.reqHead.toNat), mb 0x28 (·.cplHead.toNat), mb 0x30 (·.cplTail.toNat),
   mb 0x38 (·.err.toNat),
   reg 0xF0000 s.pur.cost.toNat, reg 0xF0008 s.pur.period.toNat, reg 0xF0010 s.pur.budgetEn.toNat,
   ⟨0x100000, 0x20, 4096, fun c => (getClass s c).weight.toNat * 2 ^ 48 + (getClass s c).refill.toNat⟩,
   ⟨0x100008, 0x20, 4096, fun c => (getClass s c).budget.toNat⟩,
   ⟨0x100010, 0x20, 4096, fun c => (getClass s c).tokens.toNat⟩,
   ⟨0x100018, 0x20, 4096, heldWord s⟩,
   ⟨0x800000, 8, 64 * 0x1000, fun i =>
     let x := getMb s (i / 0x1000)
     let j := i % 0x1000
     (if j < 0x800 then tabGet 0 x.req j else tabGet 0 x.cpl (j - 0x800)).toNat⟩]

/-- PRT_CTX_c_CFG (spec/14 Table 14-8). -/
def ctxCfgWord (x : CtxCfg) : Nat :=
  b2n x.enable * 2 ^ 63 + x.err.toNat * 2 ^ 59 + b2n x.disabling * 2 ^ 58 + x.weight.toNat * 2 ^ 48

/-- Tokens in whole bytes, rounded down, in two's complement. -/
def tokenWord (b : Bucket) : Nat := (b.tokens / 1000 % 2 ^ 64).toNat

/-- PRT (spec/14 Tables 14-6 to 14-10). -/
def readPrt (s : State) : List (RegRow Nat) :=
  let part := fun (i n : Nat) => getPart s (i / n)
  let win := fun i => tabGet {} (getPart s (i / 4)).windows (i % 4)
  let bucket := fun i => tabGet {} (getPart s (i / 9)).buckets (i % 9)
  let perPart := fun (off n : Nat) (f : Nat → Nat) =>
    (List.range 16).map fun p => (⟨0x1000 + p * 0x200 + off, 8, n, fun i => f (p * n + i)⟩ : RegRow Nat)
  let window := fun (off : Nat) (f : Nat → Nat) =>
    (List.range 16).map fun p => (⟨0x1000 + p * 0x200 + off, 0x10, 4, fun i => f (p * 4 + i)⟩ : RegRow Nat)
  let ctx := fun off f => (⟨0x4000 + off, 0x40, 128, fun c => f (getCtx s c)⟩ : RegRow Nat)
  [reg 0 0x0000004000080010, reg 8 (((List.range 16).map fun p => (getPart s p).queryCtx.toNat).sum)] ++
  perPart 0 1 (fun i => (part i 1).queryCtx.toNat) ++
  window 0x10 (fun i => b2n (win i).rd * 2 ^ 63 + b2n (win i).wr * 2 ^ 62 + (win i).base.toNat) ++
  window 0x18 (fun i => (win i).limit.toNat) ++
  perPart 0x80 9 (fun i => b2n (bucket i).enable * 2 ^ 63 + (bucket i).burst.toNat * 2 ^ 32 + (bucket i).rate.toNat) ++
  perPart 0x100 9 (fun i => tokenWord (bucket i)) ++ perPart 0x180 9 (fun i => (bucket i).stall.toNat) ++
  [ctx 0 ctxCfgWord, ctx 8 (fun x => x.cores.toNat % 2 ^ 64), ctx 0x10 (fun x => x.cores.toNat / 2 ^ 64),
   ctx 0x18 (fun x => x.pin.toNat * 2 ^ 32 + x.queue.toNat * 2 ^ 16 + x.accSize.toNat * 2 ^ 8 + x.accBase.toNat),
   ctx 0x20 (fun x => x.cpin.toNat * 2 ^ 32 + x.clusters.toNat)]

/-- The code of the Moored STATE. -/
def moorCode : MoorState → Nat
  | .running => 0 | .entering => 1 | .moored => 2 | .waking => 3

/-- PWR (spec/02 Table 2-3, spec/19 Table 19-11). -/
def readPwr (s : State) : List (RegRow Nat) :=
  let temp := fun k => leNat ((List.range 8).map fun j => tabGet 0 s.pwr.hbmTemp (8 * k + j))
  [reg 0 0x00060E000004B000, reg 8 s.pwr.pcap.toNat, reg 0x10 (s.pwr.rateLow.toNat * 16 + s.pwr.pinned.toNat),
   ⟨0x100, 8, 16, fun i =>
     let m := tabGet {} s.pwr.monitors i
     m.seq.toNat * 2 ^ 48 + m.tj.toNat * 2 ^ 32 + m.rate.toNat⟩,
   ⟨0x200, 8, 4, fun d => (tabGet 0xFFFFF s.pwr.rateMin d).toNat⟩,
   ⟨0x220, 8, 4, fun d => (tabGet {} s.pwr.vset d).limit.toNat * 2 ^ 24 + (tabGet {} s.pwr.vset d).mv.toNat⟩,
   ⟨0x240, 8, 4, fun d => (tabGet {} s.pwr.deckCtl d).vmax.toNat * 2 ^ 32 + (tabGet {} s.pwr.deckCtl d).tjCap.toNat * 2 ^ 16⟩,
   ⟨0x260, 8, 4, fun d => (tabGet 0 s.pwr.beats d).toNat⟩,
   reg 0x300 s.pwr.input.toNat, reg 0x308 s.pwr.coolant.toNat, ⟨0x310, 8, 2, temp⟩,
   reg 0x320 (s.pwr.wakeHart.toNat * 2 ^ 40 + b2n s.pwr.wakeIrqEn * 2 ^ 39 + s.pwr.moorWait.toNat),
   reg 0x328 (moorCode s.pwr.moor * 2 ^ 62 + b2n s.pwr.latch * 2 ^ 61 + b2n s.pwr.refused * 2 ^ 60)]

/-- SEC (spec/17 Tables 17-11, 17-12). -/
def readSec (s : State) : List (RegRow Nat) :=
  [reg 0 0x0000000102000008,
   reg 8 (s.sec.checked.code * 2 ^ 48 + s.sec.source.toNat * 2 ^ 32 + s.sec.svn.toNat),
   reg 0x10 (b2n s.sec.ownerSet * 2 ^ 63 + s.sec.raises * 2 ^ 32 + s.sec.svnFloor.toNat),
   reg 0x20 (b2n s.sec.autoserve),
   ⟨0x28, 8, 2, wordAt (toLe 16 Config.serial.toNat)⟩, ⟨0x40, 8, 8, wordAt (toBe 64 Config.rootHash.toNat)⟩,
   ⟨0x80, 8, 8, fun i => (tabGet 0 s.sec.ownerHash i).toNat⟩,
   ⟨0x100, 8, 64, fun i => wordAt (measure s (i / 8)) (i % 8)⟩,
   ⟨0x300, 8, 8, fun i => (tabGet 0 s.sec.extData i).toNat⟩, reg 0x340 s.sec.extSlot.toNat,
   ⟨0x1000, 8, 512, fun i => leNat ((List.range 8).map fun j => Config.certificate (8 * i + j))⟩]

/-- The code of a path's STATE. -/
def pathCode : PathState → Nat
  | .idle => 0 | .syncing => 1 | .up => 2 | .lost => 3

/-- FRY_p_CFG (spec/16 Table 16-12). -/
def portCfgWord (x : PortSt) : Nat :=
  b2n x.enable * 2 ^ 63 + x.mode.toNat * 2 ^ 61 + b2n x.promisc * 2 ^ 60 + b2n x.irqEn * 2 ^ 59 + x.irqHart.toNat * 2 ^ 54 +
  x.maxFrame.toNat

/-- FRY (spec/16 Tables 16-9 to 16-13). -/
def readFry (s : State) : List (RegRow Nat) :=
  let port := fun off f => (⟨0x100 + off, 0x100, 16, fun p => f (getPort s p)⟩ : RegRow Nat)
  [reg 0 0x0000200000080010,
   reg 8 (b2n (isSteward s) * 2 ^ 63 + b2n s.fry.berthValid * 2 ^ 62 + ownModule s),
   reg 0x10 s.fry.ethertype.toNat, reg 0x18 s.fry.groupMac.toNat, reg 0x20 (s.fry.retryMax.toNat * 2 ^ 24 + s.fry.rtoUs.toNat),
   reg 0x28 (b2n s.fry.ppsArm * 2 ^ 63 + b2n s.fry.ppsBehind * 2 ^ 62 + b2n s.fry.ppsSeen * 2 ^ 61),
   reg 0x30 s.fry.ppsNext.toNat, reg 0x38 s.fry.ppsLatch.toNat,
   port 0 portCfgWord, port 8 (·.mac.toNat), port 0x10 (fun x => b2n x.cal * 4 + b2n x.lost * 2 + b2n x.link),
   port 0x18 (·.vcShare.toNat), port 0x20 (fun x => x.rxLog2.toNat * 2 ^ 48 + x.rxBase.toNat), port 0x28 (·.rxTail.toNat),
   port 0x30 (·.rxHead.toNat), port 0x38 (fun x => x.txLog2.toNat * 2 ^ 48 + x.txBase.toNat), port 0x40 (·.txTail.toNat),
   port 0x48 (·.txHead.toNat), port 0x50 (·.txFrames.toNat), port 0x58 (·.rxFrames.toNat), port 0x60 (·.resent.toNat),
   port 0x68 (·.dropped.toNat),
   ⟨0x10000, 0x10, 4096, fun x =>
     let e := getEntry s x
     b2n e.valid * 2 ^ 63 + e.pcp.toNat * 2 ^ 60 + e.vid.toNat * 2 ^ 48 + b2n e.tagged * 2 ^ 47 + e.ports.toNat⟩,
   ⟨0x10008, 0x10, 4096, fun x => (getEntry s x).mac.toNat⟩,
   ⟨0x100000, 8, 65536, fun i =>
     let q := tabGet {} s.fry.paths i
     pathCode q.state * 2 ^ 62 + q.gen.toNat * 2 ^ 32 + q.nextSeq.toNat⟩,
   ⟨0x200000, 8, 65536, fun i => match tabFind s.fry.learned i with
     | some m => 2 ^ 63 + m.toNat
     | none => 0⟩]

/-- The grant entry that SLP_GRANT_SEL selects. -/
def selGrant (s : State) : Grant :=
  let v := s.slip.sel.toNat
  getGrant s (bits v 63 48) (bits v 43 32) (bits v 6 0)

/-- SLP (spec/08 Tables 8-6, 8-7). -/
def readSlp (s : State) : List (RegRow Nat) :=
  let q := fun off f => (⟨0x100000 + off, 0x40, 65536, fun i => f (getSq s i)⟩ : RegRow Nat)
  [reg 0 0x0000100000010000, reg 8 (faultWord (getEng s slipEng).fault), reg 0x10 s.slip.sel.toNat,
   reg 0x18 ((selGrant s).granted.toNat * 2 ^ 32 + (selGrant s).held.toNat), reg 0x20 s.slip.packets.toNat,
   reg 0x28 s.slip.rewound.toNat, ⟨0x400, 8, 128, ctxWord s slipEng⟩,
   q 0 (fun x => b2n x.enable * 2 ^ 63 + x.consumer.toNat * 2 ^ 40 + x.log2.toNat * 2 ^ 32), q 8 (·.base.toNat),
   q 0x10 (·.resv.toNat), q 0x18 (·.resolved.toNat), q 0x20 (·.commit.toNat),
   q 0x28 (fun x => x.readPkt.toNat * 2 ^ 12 + x.readOff.toNat),
   q 0x30 (fun x => b2n x.markValid * 2 ^ 63 + x.markPkt.toNat * 2 ^ 12 + x.markOff.toNat), q 0x38 (·.free.toNat)]

/-- GRD (spec/12 Table 12-9). -/
def readGrd (s : State) : List (RegRow Nat) :=
  [reg 0 0x0008000008100000, reg 8 (faultWord (getEng s grinderEng).fault), reg 0x10 s.grd.bytes.toNat,
   reg 0x18 s.grd.tokens.toNat, reg 0x20 s.grd.cuts.toNat, reg 0x28 ((s.grd.slots.map fun x => x.2.tok.bytes).sum),
   ⟨0x100, 8, 8, fun i => match tabFind s.grd.slots i with
     | some x => 2 ^ 63 + b2n x.unloading * 2 ^ 62 + x.tok.desc
     | none => 0⟩,
   ⟨0x400, 8, 128, ctxWord s grinderEng⟩]

/-- POR (spec/12 Table 12-12). -/
def readPor (s : State) : List (RegRow Nat) :=
  [reg 0 0x0000401000010000, reg 8 s.por.tokens.toNat, reg 0x10 s.por.stops.toNat, reg 0x18 s.por.replaced.toNat,
   reg 0x20 s.por.badToken.toNat]

/-- The 64 bytes of an event entry (spec/18 Table 18-6). -/
def evtBytes (e : EvtEntry) : Bytes :=
  toLe 8 e.seq.toNat ++ toLe 8 e.time.toNat ++ toLe 2 (match e.code with | some c => c.code | none => 0) ++
  toLe 1 (match e.code with | some c => c.cls | none => 0) ++ toLe 1 (b2n e.scrub) ++ toLe 2 e.source.toNat ++
  toLe 1 (match e.ctx with | some c => 128 + c.toNat | none => 0) ++ toLe 1 0 ++ toLe 2 e.status.code ++
  toLe 2 e.mapId.toNat ++ toLe 4 e.cmdSeq.toNat ++ (e.detail ++ toLe 32 0).take 32

/-- EVT (spec/18 Table 18-8, R462). -/
def readEvt (s : State) : List (RegRow Nat) :=
  [reg 0 0x0000004000010000, reg 8 s.evt.head.toNat, reg 0x10 s.evt.tail.toNat, reg 0x18 s.evt.drops.toNat,
   reg 0x20 s.evt.alertMask.toNat, reg 0x28 s.evt.alert.toNat, reg 0x30 (b2n s.evt.irqEn * 2 ^ 32 + s.evt.irqHart.toNat),
   ⟨0x800000, 8, 65536 * 8, fun i => wordAt (evtBytes (tabGet {} s.evt.log (i / 8))) (i % 8)⟩]

/-! ### Reading deck blocks -/

/-- The code of a bank's STATE. -/
def bankCode : BankState → Nat
  | .free => 0 | .loading => 1 | .ready => 2 | .active => 3 | .draining => 4

/-- Half of CORE_BANK_a (spec/04 Table 4-10). -/
def bankWord (b : Bank) : Nat := b.wfmt * 2 ^ 24 + b.tag * 2 ^ 16 + b.ctx * 2 ^ 8 + bankCode b.state

/-- The context resident in slot `i` of a core. -/
def residentIn (s : State) (k i : Nat) : Option Nat :=
  (s.prt.ctxs.find? fun p => p.1 % 8 = i && p.2.holds && p.2.cores.getLsbD k).map (·.1)

/-- CORE (spec/04 Table 4-8). -/
def readCore (s : State) (k : Nat) : List (RegRow Nat) :=
  let x := getCore s k
  [reg 0 k, reg 8 (faultWord (getEng s (coreEng k)).fault), reg 0x10 x.passes.toNat,
   ⟨0x20, 8, 4, fun a => bankWord (getBank x a 0) + bankWord (getBank x a 1) * 2 ^ 32⟩,
   ⟨0x40, 8, 8, fun i => match residentIn s k i with
     | some c => ctxWord s (coreEng k) c + (getCtx s c).accSize.toNat * 2 ^ 8 + (getCtx s c).accBase.toNat
     | none => 0⟩]

/-- PCL, SSU and RTR of a cluster (spec/09 Table 9-13, spec/10 Table 10-8, spec/06 Table 6-8). -/
def readCluster (s : State) (k : Nat) : List (RegRow Nat) :=
  let p := getSlice s k
  let u := tabGet {} s.ssus k
  let r := getRouter s k
  [reg 0x40000 (faultWord (getEng s (sliceEng k)).fault), reg 0x40008 p.queries.length, reg 0x40010 p.ended.toNat,
   reg 0x40018 p.blocks.toNat, reg 0x40020 p.rejected.toNat, reg 0x40028 p.flips.toNat,
   ⟨0x40100, 8, 4, fun w => match getSlot s k w with
     | some x => 2 ^ 63 + x.ctx * 2 ^ 56 + x.shard.addr
     | none => 0⟩,
   ⟨0x40400, 8, 128, ctxWord s (sliceEng k)⟩,
   reg 0x80000 (faultWord (getEng s (ssuEng k)).fault), reg 0x80008 u.commands.toNat, reg 0x80010 u.elements.toNat,
   reg 0x80018 u.short.toNat, reg 0x80020 u.ties.toNat, ⟨0x80400, 8, 128, ctxWord s (ssuEng k)⟩,
   reg 0xC0000 (faultWord (getEng s (routerEng k)).fault), reg 0xC0008 r.routed.toNat, reg 0xC0010 r.dropped.toNat,
   reg 0xC0018 r.subst.toNat, ⟨0xC0400, 8, 128, ctxWord s (routerEng k)⟩]

/-- BRG_b_CTX_c (spec/07 Table 7-8). -/
def bargeCtxWord (s : State) (b c : Nat) : Nat :=
  ctxWord s (bargeEng b) c +
  match tabFind s.mem.schedules (bargeKey b c) with
  | some x => 2 ^ 31 + x.layer
  | none => 0

/-- BRG (spec/07 Tables 7-6, 7-7). -/
def readBrg (s : State) (d : Nat) : List (RegRow Nat) :=
  let x := tabGet {} s.mem.decks d
  [reg 0 x.periodUs.toNat, reg 8 x.epoch.toNat, reg 0x10 x.fetched.toNat, reg 0x18 x.evicted.toNat,
   reg 0x20 x.writeback.toNat, reg 0x28 x.sramCe.toNat, reg 0x30 x.sramUe.toNat,
   ⟨0x100, 8, 36, fun i =>
     let st := d * 36 + i
     pinnedIn s st * 2 ^ 32 + reserveOf s st * 2 ^ 16 + poolUsed s st⟩,
   ⟨0x1000, 0x1000, 8, fun b => faultWord (getEng s (bargeEng (8 * d + b))).fault⟩] ++
  (List.range 8).map fun b => (⟨0x1400 + b * 0x1000, 8, 128, bargeCtxWord s (8 * d + b)⟩ : RegRow Nat)

/-- A latched hot entry of an engine. -/
def hotAt (s : State) (e j : Nat) : Option HotEntry := ((getGe s e).latched)[j]?

/-- The module-wide registers of GTH, in deck 0's block (spec/11 R283). -/
def readGthModule (s : State) : List (RegRow Nat) :=
  [reg 0 s.gth.epochMs.toNat, reg 8 s.gth.epoch.toNat, reg 0x10 s.gth.migrated.toNat,
   ⟨0x100, 8, 64, fun t => match getTable s t with
     | some x => 2 ^ 63 + x.desc.addr
     | none => 0⟩,
   ⟨0x300, 8, 64, fun t => (tabGet 0 s.gth.loads t).toNat⟩, ⟨0x500, 8, 64, fun t => (tabGet 0 s.gth.loadLast t).toNat⟩]

/-- GTH (spec/11 Tables 11-8, 11-9). -/
def readGth (s : State) (d : Nat) : List (RegRow Nat) :=
  (if d = 0 then readGthModule s else []) ++
  [⟨0x1000, 0x1000, 4, fun e => faultWord (getEng s (gatherEng (4 * d + e))).fault⟩,
   ⟨0x1008, 0x1000, 4, fun e => (getGe s (4 * d + e)).rows.toNat⟩,
   ⟨0x1010, 0x1000, 4, fun e => (getGe s (4 * d + e)).pfdrop.toNat⟩] ++
  ((List.range 4).map fun e => (⟨0x1100 + e * 0x1000, 0x10, 16, fun j => match hotAt s (4 * d + e) j with
    | some h => h.index
    | none => 0⟩ : RegRow Nat)) ++
  ((List.range 4).map fun e => (⟨0x1108 + e * 0x1000, 0x10, 16, fun j => match hotAt s (4 * d + e) j with
    | some h => 2 ^ 63 + h.table * 2 ^ 48 + h.hits.toNat
    | none => 0⟩ : RegRow Nat)) ++
  (List.range 4).map fun e => (⟨0x1400 + e * 0x1000, 8, 128, ctxWord s (gatherEng (4 * d + e))⟩ : RegRow Nat)

/-- HBM (spec/07 Tables 7-9, 7-10). -/
def readHbm (s : State) (d : Nat) : List (RegRow Nat) :=
  let st := fun i => tabGet {} s.mem.stackErrs (4 * d + i)
  [⟨0, 0x40, 4, fun i => (st i).ce.toNat⟩, ⟨8, 0x40, 4, fun i => (st i).ue.toNat⟩,
   ⟨0x10, 0x40, 4, fun i => b2n (st i).ueValid * 2 ^ 63 + (st i).ueAddr.toNat⟩, ⟨0x18, 0x40, 4, fun i => (st i).ondie.toNat⟩]

/-- The registers of a block. -/
def readBlock (s : State) : Block → List (RegRow Nat)
  | .hub => readHub s | .pur => readPur s | .prt => readPrt s | .pwr => readPwr s | .sec => readSec s | .fry => readFry s
  | .slp => readSlp s | .grd => readGrd s | .por => readPor s | .evt => readEvt s | .core k => readCore s k
  | .cluster k => readCluster s k | .brg d => readBrg s d | .gth d => readGth s d | .hbm d => readHbm s d

/-- The value of a register; reserved offsets read zero. -/
def regValue (s : State) (addr : Nat) : W64 :=
  match blockOf addr with
  | some (b, o) => w64 ((regFind (readBlock s b) o).getD 0)
  | none => 0

/-- Whether an address lies in the registers or rings of a mailbox whose OWNER is 1 (spec/15 R392). -/
def pathOwned (s : State) (addr : Nat) : Bool :=
  match blockOf addr with
  | some (.pur, o) =>
    if 0x1000 ≤ o && o < 0x2000 then (getMb s ((o - 0x1000) / 0x40)).owner = 1
    else 0x800000 ≤ o && o < 0xA00000 && (getMb s ((o - 0x800000) / 0x8000)).owner = 1
  | _ => false

/-- What an agent reads of a register: nothing but zero of a mailbox that only the management path reaches (spec/15 R392;
log 87). -/
def readAs (s : State) (a : Agent) (addr : Nat) : W64 := if a ≠ .mgmt && pathOwned s addr then 0 else regValue s addr

/-- What a read changes: the RC registers (spec/00 Table 0-3). -/
def afterRead (s : State) (addr : Nat) : State :=
  if addr = evtBase + 0x18 then { s with evt := { s.evt with drops := 0 } }
  else match regIndex addr (pwrBase + 0x200) 8 4 with
    | some d => modPwr s fun x => { x with rateMin := tabDel x.rateMin d }
    | none => s

/-! ### Writing hub blocks -/

/-- A table of what writes do. -/
abbrev WriteRows := List (RegRow State)

/-- HUB. -/
def writeHub (s : State) (v : W64) : WriteRows :=
  [reg 0x20 (if v.getLsbD 3 then { s with hub := { s.hub with lost := false } } else s)]

/-- MB_m_CFG (spec/15 R392, Table 15-11): harts in hypervisor mode and the management path, while STATE is closed. -/
def mbCfgWrite (s : State) (a : Agent) (m : Nat) (v : W64) : State :=
  let n := v.toNat
  if !mayExtend a then protWrite s (mbAddr m 0) v
  else if (a ≠ .mgmt && (getMb s m).owner = 1) || (getMb s m).state ≠ .closed then s
  else modMb s m fun x => { x with
    owner := BitVec.ofNat 2 (bits n 62 61), irqHart := BitVec.ofNat 5 (bits n 44 40), irqEn := bit n 32
    parts := BitVec.ofNat 16 (bits n 15 0) }

/-- MB_m_CTL. -/
def mbCtlWrite (s : State) (a : Agent) (m : Nat) (v : W64) : State :=
  match bits v.toNat 63 62 with
  | 1 => mailboxOpen s a m (bits v.toNat 7 0) (bits v.toNat 15 8)
  | 2 => mailboxClose s a m
  | _ => s

/-- MB_m_ERR. -/
def mbErrWrite (s : State) (a : Agent) (m : Nat) (v : W64) : State :=
  if mbReach s a m then modMb s m fun x => { x with err := x.err &&& ~~~(BitVec.ofNat 5 v.toNat) } else s

/-- A word of a mailbox's rings. -/
def ringWrite (s : State) (a : Agent) (i : Nat) (v : W64) : State :=
  let m := i / 0x1000
  let j := i % 0x1000
  if !mbReach s a m then s
  else modMb s m fun x =>
    if j < 0x800 then { x with req := tabSet 0 x.req j v } else { x with cpl := tabSet 0 x.cpl (j - 0x800) v }

/-- PUR. -/
def writePur (s : State) (a : Agent) (v : W64) : WriteRows :=
  let n := v.toNat
  let mb := fun off f => (⟨0x1000 + off, 0x40, 64, f⟩ : RegRow State)
  let pur := fun f => byAgent s a fun s => { s with pur := f s.pur }
  let cls := fun off (f : ClassSt → ClassSt) =>
    (⟨0x100000 + off, 0x20, 4096, fun c => byAgent s a fun s => modClass s c f⟩ : RegRow State)
  [mb 0 fun m => mbCfgWrite s a m v, mb 8 fun m => mbCtlWrite s a m v, mb 0x18 fun m => doorbellWrite s a m v,
   mb 0x30 fun m => cplTailWrite s a m v, mb 0x38 fun m => mbErrWrite s a m v,
   reg 0xF0000 (pur fun x => { x with cost := BitVec.ofNat 16 (max 1 (bits n 15 0)) }),
   reg 0xF0008 (budgetPeriodWrite s a v),
   reg 0xF0010 (pur fun x => { x with budgetEn := BitVec.ofNat 16 (bits n 15 0) }),
   cls 0 fun x => { x with weight := BitVec.ofNat 16 (max 1 (bits n 63 48)), refill := BitVec.ofNat 48 (bits n 47 0) },
   cls 8 fun x => { x with budget := BitVec.ofNat 48 (bits n 47 0) },
   ⟨0x800000, 8, 64 * 0x1000, fun i => ringWrite s a i v⟩]

/-- A window register is ignored while a context of its partition is enabled or being disabled (spec/14 R353). -/
def windowWrite (s : State) (p w : Nat) (f : Window → Window) : State :=
  if (List.range 8).any fun i => (getCtx s (8 * p + i)).holds then s
  else modPart s p fun x => { x with windows := tabMod {} x.windows w f }

/-- A share register is ignored while its context is enabled or being disabled (spec/14 R348). -/
def shareWrite (s : State) (c : Nat) (f : CtxCfg → CtxCfg) : State :=
  if (getCtx s c).holds then s else modCtx s c f

/-- PRT. -/
def writePrt (s : State) (v : W64) : WriteRows :=
  let n := v.toNat
  let base := BitVec.ofNat 48 (bits n 47 12 * 4096)
  let ctx := fun off (f : CtxCfg → CtxCfg) => (⟨0x4000 + off, 0x40, 128, fun c => shareWrite s c f⟩ : RegRow State)
  [⟨0x1000, 0x200, 16, fun p => queryCtxSet s p v⟩] ++
  ((List.range 16).map fun p => (⟨0x1010 + p * 0x200, 0x10, 4, fun w =>
    windowWrite s p w fun x => { x with rd := bit n 63, wr := bit n 62, base := base }⟩ : RegRow State)) ++
  ((List.range 16).map fun p => (⟨0x1018 + p * 0x200, 0x10, 4, fun w =>
    windowWrite s p w fun x => { x with limit := base }⟩ : RegRow State)) ++
  ((List.range 16).map fun p => (⟨0x1080 + p * 0x200, 8, 9, fun k => bucketSet s p k v⟩ : RegRow State)) ++
  [⟨0x4000, 0x40, 128, fun c => ctxCfgWrite s c v⟩,
   ctx 8 fun x => { x with cores := x.cores / 2 ^ 64 * 2 ^ 64 + v.zeroExtend 128 },
   ctx 0x10 fun x => { x with cores := x.cores % 2 ^ 64 + v.zeroExtend 128 * 2 ^ 64 },
   ctx 0x18 fun x => { x with
     pin := BitVec.ofNat 13 (min 4096 (bits n 44 32)), queue := BitVec.ofNat 11 (min 1024 (bits n 26 16))
     accSize := BitVec.ofNat 7 (min 64 (bits n 14 8)), accBase := BitVec.ofNat 7 (min 63 (bits n 6 0)) },
   ctx 0x20 fun x => { x with
     cpin := BitVec.ofNat 14 (min 8192 (bits n 45 32)), clusters := BitVec.ofNat 16 (bits n 15 0) }]

/-- PWR (spec/02 R54, spec/19 R490). -/
def writePwr (s : State) (a : Agent) (v : W64) : WriteRows :=
  let n := v.toNat
  let pwr := fun f => byAgent s a fun s => modPwr s f
  [reg 8 (pwr fun x => { x with pcap := BitVec.ofNat 12 (clamp 1600 3200 (bits n 11 0)) }),
   reg 0x10 (pwr fun x => { x with rateLow := x.rateLow &&& ~~~(BitVec.ofNat 4 (bits n 7 4))
                                   pinned := x.pinned &&& ~~~(BitVec.ofNat 4 (bits n 3 0)) }),
   ⟨0x240, 8, 4, fun d => pwr fun x =>
     let c := { vmax := BitVec.ofNat 10 (clamp 620 780 (bits n 41 32)), tjCap := BitVec.ofNat 8 (clamp 85 105 (bits n 23 16)) }
     { x with deckCtl := tabPut x.deckCtl d c }⟩,
   reg 0x320 (if prtMayWrite a then moorCtlSet s v else protWrite s (pwrBase + 0x320) v),
   reg 0x328 (pwr fun x => { x with refused := x.refused && !bit n 60 })]

/-- SEC (spec/17 R443, R444, R446, Table 17-11). -/
def writeSec (s : State) (a : Agent) (v : W64) : WriteRows :=
  [reg 0x18 (svnRaise s a v), reg 0x20 (byAgent s a fun s => modSec s fun x => { x with autoserve := v.getLsbD 0 }),
   ⟨0x80, 8, 8, fun i =>
     if a = .mgmt && !s.sec.ownerSet then modSec s fun x => { x with ownerHash := tabSet 0 x.ownerHash i v }
     else protWrite s (secBase + 0x80 + 8 * i) v⟩,
   reg 0xC0 (ownerProgram s a v),
   ⟨0x300, 8, 8, fun i =>
     if mayExtend a then modSec s fun x => { x with extData := tabSet 0 x.extData i v }
     else protWrite s (secBase + 0x300 + 8 * i) v⟩,
   reg 0x340 (extCtlWrite s a v)]

/-- The sum of the bytes of FRY_p_VCSHARE. -/
def shareSum (v : W64) : Nat := ((List.range 8).map fun i => bits v.toNat (8 * i + 7) (8 * i)).sum

/-- FRY_PPS_CTL. -/
def ppsCtlWrite (s : State) (v : W64) : State :=
  modFry s fun x => { x with ppsArm := x.ppsArm || v.getLsbD 63, ppsBehind := x.ppsBehind && !v.getLsbD 62
                             ppsSeen := x.ppsSeen && !v.getLsbD 61 }

/-- FRY (spec/16 Table 16-9). -/
def writeFry (s : State) (a : Agent) (v : W64) : WriteRows :=
  let n := v.toNat
  let fry := fun f => byAgent s a fun s => modFry s f
  let port := fun off (f : PortSt → PortSt) =>
    (⟨0x100 + off, 0x100, 16, fun p => byAgent s a fun s => modPort s p f⟩ : RegRow State)
  let ring := fun off (f : Nat → State) => (⟨0x100 + off, 0x100, 16, f⟩ : RegRow State)
  [reg 8 (berthSet s a v), reg 0x10 (fry fun x => { x with ethertype := BitVec.ofNat 16 (bits n 15 0) }),
   reg 0x18 (fry fun x => { x with groupMac := BitVec.ofNat 48 (bits n 47 0) }),
   reg 0x20 (fry fun x => { x with retryMax := BitVec.ofNat 4 (clamp 1 15 (bits n 27 24))
                                   rtoUs := BitVec.ofNat 20 (clamp 5 1000 (bits n 19 0)) }),
   reg 0x28 (byAgent s a fun s => ppsCtlWrite s v), reg 0x30 (fry fun x => { x with ppsNext := v }),
   ring 0 fun p => byAgent s a fun s => portCfgWrite s p v,
   port 8 fun x => { x with mac := BitVec.ofNat 48 (bits n 47 0) },
   port 0x10 fun x => { x with lost := x.lost && !bit n 1 },
   port 0x18 fun x => if shareSum v ≤ 128 then { x with vcShare := v } else x,
   ring 0x20 fun p => clientRingWrite s a p true v, ring 0x28 fun p => clientTailWrite s a p true v,
   ring 0x38 fun p => clientRingWrite s a p false v, ring 0x40 fun p => clientTailWrite s a p false v,
   ⟨0x10000, 0x10, 4096, fun x => pathTableWrite s a x v⟩,
   ⟨0x10008, 0x10, 4096, fun x => fry fun y => { y with entries := tabMod {} y.entries x fun e =>
     { e with mac := BitVec.ofNat 48 (bits n 47 0) } }⟩]

/-- SLP (spec/08 Table 8-6, R206). -/
def writeSlp (s : State) (a : Agent) (v : W64) : WriteRows :=
  let n := v.toNat
  let sel := w64 (bits n 63 48 * 2 ^ 48 + bits n 43 32 * 2 ^ 32 + bits n 6 0)
  [reg 8 (byAgent s a fun s => faultWrite s slipEng v), reg 0x10 (byAgent s a fun s => modSlip s fun x => { x with sel := sel }),
   ⟨0x400, 8, 128, fun c => byAgent s a fun s => haltWrite s slipEng c v⟩,
   ⟨0x100000, 0x40, 65536, fun q => byAgent s a fun s => writeSlpCfg s q v⟩,
   ⟨0x100008, 0x40, 65536, fun q => byAgent s a fun s => if (getSq s q).enable then s
     else modSq s q fun x => { x with base := BitVec.ofNat 48 (bits n 47 6 * 64) }⟩]

/-- GRD. -/
def writeGrd (s : State) (a : Agent) (v : W64) : WriteRows :=
  [reg 8 (byAgent s a fun s => faultWrite s grinderEng v),
   ⟨0x400, 8, 128, fun c => byAgent s a fun s => haltWrite s grinderEng c v⟩]

/-- EVT (spec/18 R465, R466, Table 18-8). -/
def writeEvt (s : State) (a : Agent) (v : W64) : WriteRows :=
  let n := v.toNat
  let evt := fun f => byAgent s a fun s => { s with evt := f s.evt }
  [reg 0x10 (evtTailWrite s a v),
   reg 0x20 (evt fun (x : EvtSt) => { x with alertMask := BitVec.ofNat 8 (bits n 7 0) ||| 0x20 }),
   reg 0x28 (evt fun x => { x with alert := x.alert &&& ~~~(BitVec.ofNat 8 (bits n 7 0)) }),
   reg 0x30 (evt fun x => { x with irqEn := bit n 32, irqHart := BitVec.ofNat 5 (bits n 4 0) })]

/-! ### Writing deck blocks -/

/-- FAULT and CTX of an engine. -/
def writeEngine (s : State) (a : Agent) (e : Eng) (fault ctx : Nat) (v : W64) : WriteRows :=
  [reg fault (byAgent s a fun s => faultWrite s e v), ⟨ctx, 8, 128, fun c => byAgent s a fun s => haltWrite s e c v⟩]

/-- CORE. -/
def writeCore (s : State) (a : Agent) (k : Nat) (v : W64) : WriteRows :=
  [reg 8 (byAgent s a fun s => faultWrite s (coreEng k) v),
   ⟨0x40, 8, 8, fun i => byAgent s a fun s => match residentIn s k i with
     | some c => haltWrite s (coreEng k) c v
     | none => s⟩]

/-- PCL, SSU and RTR. -/
def writeCluster (s : State) (a : Agent) (k : Nat) (v : W64) : WriteRows :=
  writeEngine s a (sliceEng k) 0x40000 0x40400 v ++ writeEngine s a (ssuEng k) 0x80000 0x80400 v ++
  writeEngine s a (routerEng k) 0xC0000 0xC0400 v

/-- BRG. -/
def writeBrg (s : State) (a : Agent) (d : Nat) (v : W64) : WriteRows :=
  reg 0 (byAgent s a fun s => modDeck s d fun x => { x with periodUs := BitVec.ofNat 32 (min 1000000 (bits v.toNat 31 0)) }) ::
  (List.range 8).flatMap fun b => writeEngine s a (bargeEng (8 * d + b)) (0x1000 + b * 0x1000) (0x1400 + b * 0x1000) v

/-- GTH. -/
def writeGth (s : State) (a : Agent) (d : Nat) (v : W64) : WriteRows :=
  (if d = 0 then [reg 0 (byAgent s a fun s => modGth s fun x =>
    { x with epochMs := BitVec.ofNat 16 (min 60000 (bits v.toNat 15 0)) })] else []) ++
  (List.range 4).flatMap fun e => writeEngine s a (gatherEng (4 * d + e)) (0x1000 + e * 0x1000) (0x1400 + e * 0x1000) v

/-- HBM. -/
def writeHbm (s : State) (a : Agent) (d : Nat) (v : W64) : WriteRows :=
  [⟨0x10, 0x40, 4, fun i => byAgent s a fun s => if v.getLsbD 63 then
      modStack s (4 * d + i) fun x => { x with ueValid := false, ueAddr := 0 } else s⟩]

/-- What writes to the registers of a block do. -/
def writeBlock (s : State) (a : Agent) (v : W64) : Block → WriteRows
  | .hub => [reg 0x20 (byAgent s a fun s => (regFind (writeHub s v) 0x20).getD s)]
  | .pur => writePur s a v | .prt => writePrt s v | .pwr => writePwr s a v | .sec => writeSec s a v
  | .fry => writeFry s a v | .slp => writeSlp s a v | .grd => writeGrd s a v | .por => [] | .evt => writeEvt s a v
  | .core k => writeCore s a k v | .cluster k => writeCluster s a k v | .brg d => writeBrg s a d v
  | .gth d => writeGth s a d v | .hbm d => writeHbm s a d v

/-- An aligned 64-bit write of control space; none outside every block. The PRT block has a writer rule of its own
(spec/14 R345). -/
def regWrite (s : State) (a : Agent) (addr : Nat) (v : W64) : Option State :=
  match blockOf addr with
  | none => none
  | some (b, o) =>
    if b = .prt && !prtMayWrite a then some (protWrite s addr v)
    else some ((regFind (writeBlock s a v b) o).getD s)

/-- REGISTER_WRITE (spec/00 R14). -/
def execRegisterWrite (agent : Agent) (addr : Nat) (value : W64) (s : State) : Host.Outcome State Fault Refusal :=
  match regWrite s agent addr value with
  | some s => .next s
  | none => .fault .noSuchAddress
/-- An access that R13 does not allow: an event, and zero in every byte it reads. -/
def badAccess (s : State) (addr : Nat) (isWrite : Bool) : State :=
  let s := raise s .badAccess srcNone (toLe 8 addr ++ toLe 1 (b2n isWrite))
  if isWrite then s else emit s (.value addr 0)

/-- BAD_ACCESS (spec/00 R13). -/
def execBadAccess (addr : Nat) (isWrite : Bool) (s : State) : Host.Outcome State Fault Refusal :=
  .next (badAccess s addr isWrite)

end Sys2Proof.Machine
end

