-- ==== Sys2Proof/Machine/Mgmt.lean ====
section
/-! DEFINITION. The management path: MGMT_REQ, and the berth steward's relay of image protocol messages (spec/17 R436,
R437). -/

namespace Sys2Proof.Machine

/-! ### MGMT_REQ (spec/17 R437) -/

/-- A register of the PUR block that a MGMT_REQ may write: MB_m_CFG, and the registers and rings of a mailbox whose OWNER
is 1. -/
def mgmtMayWritePur (s : State) (o : Nat) : Bool :=
  if 0x1000 ≤ o && o < 0x2000 then (o - 0x1000) % 0x40 = 0 || (getMb s ((o - 0x1000) / 0x40)).owner = 1
  else 0x800000 ≤ o && o < 0xA00000 && (getMb s ((o - 0x800000) / 0x8000)).owner = 1

/-- The registers a MGMT_REQ may write. -/
def mgmtMayWrite (s : State) (addr : Nat) : Bool :=
  match blockOf addr with
  | some (.pur, o) => mgmtMayWritePur s o
  | some (.fry, o) => o = 8 && isSteward s
  | some (.sec, o) => o = 0x18 || (0x80 ≤ o && o ≤ 0xC0) || (0x300 ≤ o && o ≤ 0x340)
  | _ => false

/-- What a MGMT_REQ does: the status and the DATA of its answer, and the state. -/
def mgmtAccess (s : State) (op addr : Nat) (data : W64) : Status × W64 × State :=
  match op with
  | 0 =>
    if addr % 8 ≠ 0 then (.ok, 0, raise s .badAccess srcNone (toLe 8 addr ++ toLe 1 0))
    else if blockOf addr = none then (.internal, 0, s)
    else (.ok, readAs s .mgmt addr, afterRead s addr)
  | 1 =>
    if addr % 8 ≠ 0 then (.internal, data, raise s .badAccess srcNone (toLe 8 addr ++ toLe 1 1))
    else if mgmtMayWrite s addr then (.ok, data, (regWrite s .mgmt addr data).getD s)
    else if (blockOf addr).map (·.1) = some .prt then (.internal, data, protWrite s addr data)
    else (.internal, data, s)
  | _ => (.internal, data, s)

/-- A response is kept as the last of its session, among the 16 sessions seen most recently. -/
def keepResponse (s : State) (session seq : BitVec 32) (b : Bytes) : State :=
  modSec s fun x => { x with resps := ((session, seq, b) :: x.resps.filter (·.1 ≠ session)).take 16 }

/-- MGMT_REQ from a source. -/
def mgmtReq (s : State) (via : ImgVia) (b : Bytes) : State :=
  let n := imgSession b
  let q := BitVec.ofNat 32 (imgSeq b)
  if !pursing s || imgType b ≠ 0x10 || !imgMine s b || n = 0 || b.length ≠ 40 then s else
  match s.sec.resps.find? fun r => r.1 = n && r.2.1 = q with
  | some r => imgReply (keepResponse s n q r.2.2) via r.2.2
  | none =>
    let r := mgmtAccess s (fld b 16 1) (fld b 24 8) (w64 (fld b 32 8))
    let reply := imgBytes 0x11 (ownModule s) n.toNat q.toNat r.1.code (part b 16 16 ++ toLe 8 r.2.1.toNat)
    imgReply (keepResponse r.2.2 n q reply) via reply

/-! ### MGMT frames and the steward's relay (spec/17 R436) -/

/-- FERRY_MGMT: a member takes the message as its steward's, which the host sent or the steward's cache; a steward keeps it
to forward or answer. -/
def mgmtFrame (s : State) (f : FFrame) (cached : Bool) (bad : Option Nat) : State :=
  if !imgOk f.payload then s
  else if isSteward s then modSec s fun x => { x with relay := x.relay ++ [(f.src, f.payload)] }
  else
    let via := ImgVia.ferry cached
    match imgType f.payload with
    | 2 => takeOffer s via f.payload
    | 3 => bundleBlock s f.payload bad
    | 0x10 => mgmtReq s via f.payload
    | _ => s

/-- The bundle in the steward's cache: BUNDLE_BYTES. -/
def cacheSize : Act Nat := rdNat (whoPurser none) (cacheBase + 4) 4

/-- The steward offers its cached bundle; SESSION is its choice, nonzero (log 3). -/
def serveOffer (s : State) (x : Nat) : State :=
  match runActVal cacheSize s with
  | (.error _, s) => s
  | (.ok size, s) =>
    let (n, s) := takeFree s
    let id := BitVec.ofNat 32 (n % (2 ^ 32 - 1) + 1)
    sendMgmt (modSec s fun y => { y with served := tabPut y.served x id }) x
      (imgBytes 2 x id.toNat 0 0 (toLe 4 size ++ toLe 4 0))

/-- The blocks of a bundle of `size` bytes that a STATE shows missing. -/
def missingBlocks (size : Nat) (b : Bytes) : List Nat :=
  let first := fld b 16 4
  ((List.range 1024).filter fun i => !bit (fld b (32 + i / 8) 1) (i % 8) && first + i < size / 4096).map (first + ·)

/-- A BLOCK from the cache; none where a word of it is uncorrectable. -/
def serveBlock (x : Nat) (id : BitVec 32) (s : State) (i : Nat) : State :=
  match runActVal (rd (whoPurser none) (cacheBase + i * 4096) 4096) s with
  | (.ok b, s) => sendMgmt s x (imgBytes 3 x id.toNat i 0 b)
  | (.error _, s) => s

/-- The blocks that a member's STATE shows missing go out. -/
def serveMissing (s : State) (x : Nat) (id : BitVec 32) (b : Bytes) : State :=
  match runActVal cacheSize s with
  | (.ok size, s) => (missingBlocks size b).foldl (serveBlock x id) s
  | (.error _, s) => s

/-- A message with another TARGET. -/
def retarget (b : Bytes) (x : Nat) : Bytes := b.take 2 ++ toLe 2 x ++ b.drop 4

/-- A member's message: the steward answers it itself, or forwards it to the member's host, or to ff02::1. -/
def relayMember (s : State) (x : Nat) (b : Bytes) : State :=
  let id := imgSession b
  let mine := id ≠ 0 && tabGet 0 s.sec.served x = id
  if imgType b = 1 && s.sec.autoserve then serveOffer s x
  else if mine && imgType b = 4 then serveMissing s x id b
  else if mine && imgType b = 5 then s
  else if s.hub.link then sendImage s ((tabFind s.sec.hosts x).getD allNodes) (retarget b x)
  else s

/-- A host's message for another module of the steward's berth. -/
def relayHost (s : State) (d : Datagram) : State :=
  let x := imgTarget d.bytes
  if x = ownModule s || x / 64 ≠ s.fry.berth.toNat then s
  else sendMgmt (modSec s fun y => { y with hosts := tabPut y.hosts x d.host }) x d.bytes

/-- IMAGE_MESSAGE_RELAY: a host's datagram, or the oldest member's message. -/
def relay (s : State) (d : Option Datagram) : State :=
  if !isSteward s || !pursing s then s else
  match d with
  | some d => datagram s d fun s => relayHost s d
  | none =>
    match s.sec.relay with
    | [] => s
    | (x, b) :: rest => relayMember (modSec s fun y => { y with relay := rest }) x b

/-! ### Rows -/

/-- FERRY_MGMT (spec/17 R436): `cached` says that a bundle message is the steward's own, of its cache. -/
def execFerryMgmt (p : Nat) (f : FFrame) (cached : Bool) (bad : Option Nat) (s : State) : Host.Outcome State Fault Refusal :=
  .next (dataRow s p f 0x0D fun s => mgmtFrame s f cached bad)
/-- IMAGE_MESSAGE_RELAY (spec/17 R436). -/
def execImageMessageRelay (d : Option Datagram) (s : State) : Host.Outcome State Fault Refusal := .next (relay s d)
/-- MGMT_REQ (spec/17 R437). -/
def execMgmtReq (d : Datagram) (s : State) : Host.Outcome State Fault Refusal :=
  .next (datagram s d fun s => mgmtReq s (.port d.host) d.bytes)

end Sys2Proof.Machine
end

