-- ==== Sys2Proof/Machine/Dispatch.lean ====
section
/-! DEFINITION. The meaning of every command: one arm per row of spec/opcode_table.json. -/

namespace Sys2Proof.Machine

def exec (i : Instr) (s : State) : Host.Outcome State Fault Refusal :=
  match i with
  | .registerWrite agent addr value => Sys2Proof.Machine.execRegisterWrite agent addr value s
  | .badAccess addr isWrite => Sys2Proof.Machine.execBadAccess addr isWrite s
  | .mgmtLinkDown => Sys2Proof.Machine.execMgmtLinkDown s
  | .voltageControlStep pIn => Sys2Proof.Machine.execVoltageControlStep pIn s
  | .rateWindowEnd readings => Sys2Proof.Machine.execRateWindowEnd readings s
  | .pwrRateMinRead d => Sys2Proof.Machine.execPwrRateMinRead d s
  | .sensorSample r => Sys2Proof.Machine.execSensorSample r s
  | .engineCommandOffer e cmd => Sys2Proof.Machine.execEngineCommandOffer e cmd s
  | .tamp core ctx => Sys2Proof.Machine.execTamp core ctx s
  | .tampStart core ctx => Sys2Proof.Machine.execTampStart core ctx s
  | .tampLoadDone core => Sys2Proof.Machine.execTampLoadDone core s
  | .pass core ctx => Sys2Proof.Machine.execPass core ctx s
  | .passStart core ctx => Sys2Proof.Machine.execPassStart core ctx s
  | .passLastRowEntered core => Sys2Proof.Machine.execPassLastRowEntered core s
  | .bankFreeHandshake core array bank => Sys2Proof.Machine.execBankFreeHandshake core array bank s
  | .passComplete core => Sys2Proof.Machine.execPassComplete core s
  | .epi core ctx wrote => Sys2Proof.Machine.execEpi core ctx wrote s
  | .epiComplete core => Sys2Proof.Machine.execEpiComplete core s
  | .mapInstall core ctx => Sys2Proof.Machine.execMapInstall core ctx s
  | .mapClose core ctx => Sys2Proof.Machine.execMapClose core ctx s
  | .ctxHaltClear e ctx => Sys2Proof.Machine.execCtxHaltClear e ctx s
  | .route router ctx => Sys2Proof.Machine.execRoute router ctx s
  | .dispatch router ctx => Sys2Proof.Machine.execDispatch router ctx s
  | .dispatchNotify router ctx expert => Sys2Proof.Machine.execDispatchNotify router ctx expert s
  | .combine router ctx => Sys2Proof.Machine.execCombine router ctx s
  | .move barge ctx => Sys2Proof.Machine.execMove barge ctx s
  | .pin barge ctx => Sys2Proof.Machine.execPin barge ctx s
  | .unpin barge ctx => Sys2Proof.Machine.execUnpin barge ctx s
  | .schedule barge ctx => Sys2Proof.Machine.execSchedule barge ctx s
  | .advance barge ctx => Sys2Proof.Machine.execAdvance barge ctx s
  | .fetchSlice barge ctx => Sys2Proof.Machine.execFetchSlice barge ctx s
  | .residencyEpochTick deck => Sys2Proof.Machine.execResidencyEpochTick deck s
  | .backgroundUnit e forced f => Sys2Proof.Machine.execBackgroundUnit e forced f s
  | .collective barge ctx => Sys2Proof.Machine.execCollective barge ctx s
  | .collReadyRepeat barge ctx => Sys2Proof.Machine.execCollReadyRepeat barge ctx s
  | .collectiveTimeout barge ctx => Sys2Proof.Machine.execCollectiveTimeout barge ctx s
  | .push ctx => Sys2Proof.Machine.execPush ctx s
  | .grant ctx => Sys2Proof.Machine.execGrant ctx s
  | .take ctx => Sys2Proof.Machine.execTake ctx s
  | .dropRest ctx => Sys2Proof.Machine.execDropRest ctx s
  | .mark ctx => Sys2Proof.Machine.execMark ctx s
  | .rewind ctx => Sys2Proof.Machine.execRewind ctx s
  | .release ctx => Sys2Proof.Machine.execRelease ctx s
  | .slipReserve queue e ctx len => Sys2Proof.Machine.execSlipReserve queue e ctx len s
  | .slipCommit queue pos words => Sys2Proof.Machine.execSlipCommit queue pos words s
  | .slipRewind queue pos => Sys2Proof.Machine.execSlipRewind queue pos s
  | .slpQueueEnable queue value => Sys2Proof.Machine.execSlpQueueEnable queue value s
  | .slpQueueDisable queue value => Sys2Proof.Machine.execSlpQueueDisable queue value s
  | .query k ctx => Sys2Proof.Machine.execQuery k ctx s
  | .queryAdmit k ctx => Sys2Proof.Machine.execQueryAdmit k ctx s
  | .pclHeadUnit k q stream => Sys2Proof.Machine.execPclHeadUnit k q stream s
  | .pclBlockUnit k q stream => Sys2Proof.Machine.execPclBlockUnit k q stream s
  | .pclRefineUnit k q => Sys2Proof.Machine.execPclRefineUnit k q s
  | .queryResultWrite k q => Sys2Proof.Machine.execQueryResultWrite k q s
  | .pclAttach k ctx => Sys2Proof.Machine.execPclAttach k ctx s
  | .pclDetach k ctx => Sys2Proof.Machine.execPclDetach k ctx s
  | .compact k ctx => Sys2Proof.Machine.execCompact k ctx s
  | .updatePacketApply k slot => Sys2Proof.Machine.execUpdatePacketApply k slot s
  | .compactionPiece k slot => Sys2Proof.Machine.execCompactionPiece k slot s
  | .compactionRetire k slot => Sys2Proof.Machine.execCompactionRetire k slot s
  | .topk unit ctx => Sys2Proof.Machine.execTopk unit ctx s
  | .sort unit ctx => Sys2Proof.Machine.execSort unit ctx s
  | .merge unit ctx => Sys2Proof.Machine.execMerge unit ctx s
  | .uniqueCount unit ctx => Sys2Proof.Machine.execUniqueCount unit ctx s
  | .filterCompact unit ctx => Sys2Proof.Machine.execFilterCompact unit ctx s
  | .gather e ctx => Sys2Proof.Machine.execGather e ctx s
  | .apply e ctx => Sys2Proof.Machine.execApply e ctx s
  | .prefetch e ctx => Sys2Proof.Machine.execPrefetch e ctx s
  | .gthAttach e ctx => Sys2Proof.Machine.execGthAttach e ctx s
  | .gthDetach e ctx => Sys2Proof.Machine.execGthDetach e ctx s
  | .migrate e ctx => Sys2Proof.Machine.execMigrate e ctx s
  | .rowRequestServe e rid => Sys2Proof.Machine.execRowRequestServe e rid s
  | .rowUpdateApply e rid => Sys2Proof.Machine.execRowUpdateApply e rid s
  | .loadEpochStep => Sys2Proof.Machine.execLoadEpochStep s
  | .hotRowBalance t loads hot => Sys2Proof.Machine.execHotRowBalance t loads hot s
  | .tokenize ctx run => Sys2Proof.Machine.execTokenize ctx run s
  | .load ctx => Sys2Proof.Machine.execLoad ctx s
  | .unload ctx => Sys2Proof.Machine.execUnload ctx s
  | .embed rid buf => Sys2Proof.Machine.execEmbed rid buf s
  | .search rid bufs u => Sys2Proof.Machine.execSearch rid bufs u s
  | .rerank rid bufs u => Sys2Proof.Machine.execRerank rid bufs u s
  | .pack rid buf => Sys2Proof.Machine.execPack rid buf s
  | .prefill rid buf => Sys2Proof.Machine.execPrefill rid buf s
  | .prefillLayer rid buf => Sys2Proof.Machine.execPrefillLayer rid buf s
  | .decode rid => Sys2Proof.Machine.execDecode rid s
  | .pour rid => Sys2Proof.Machine.execPour rid s
  | .cancel id => Sys2Proof.Machine.execCancel id s
  | .prefixRetire id => Sys2Proof.Machine.execPrefixRetire id s
  | .stageStart rid op => Sys2Proof.Machine.execStageStart rid op s
  | .stageComplete rid op => Sys2Proof.Machine.execStageComplete rid op s
  | .decodeStep model forward buf => Sys2Proof.Machine.execDecodeStep model forward buf s
  | .sequencerToken rid => Sys2Proof.Machine.execSequencerToken rid s
  | .sequencerCancel rid => Sys2Proof.Machine.execSequencerCancel rid s
  | .sequencerError rid => Sys2Proof.Machine.execSequencerError rid s
  | .ringRecordWrite rid => Sys2Proof.Machine.execRingRecordWrite rid s
  | .budgetRefill => Sys2Proof.Machine.execBudgetRefill s
  | .budgetPeriodWrite agent v => Sys2Proof.Machine.execBudgetPeriodWrite agent v s
  | .contextEnable agent c v => Sys2Proof.Machine.execContextEnable agent c v s
  | .contextDisable agent c v => Sys2Proof.Machine.execContextDisable agent c v s
  | .queryCtxWrite agent p v => Sys2Proof.Machine.execQueryCtxWrite agent p v s
  | .bucketEnable agent p k v => Sys2Proof.Machine.execBucketEnable agent p k v s
  | .bucketPieceAdmit p k piece => Sys2Proof.Machine.execBucketPieceAdmit p k piece s
  | .mailboxOpen agent m revMin revMax => Sys2Proof.Machine.execMailboxOpen agent m revMin revMax s
  | .mailboxOpenResolve m => Sys2Proof.Machine.execMailboxOpenResolve m s
  | .mailboxClose agent m => Sys2Proof.Machine.execMailboxClose agent m s
  | .mbDoorbell agent m v => Sys2Proof.Machine.execMbDoorbell agent m v s
  | .mbCplTailWrite agent m v => Sys2Proof.Machine.execMbCplTailWrite agent m v s
  | .descriptorTake m => Sys2Proof.Machine.execDescriptorTake m s
  | .completionWrite m => Sys2Proof.Machine.execCompletionWrite m s
  | .progressWrite m id => Sys2Proof.Machine.execProgressWrite m id s
  | .nop id => Sys2Proof.Machine.execNop id s
  | .resetWarm id => Sys2Proof.Machine.execResetWarm id s
  | .resetPartition id => Sys2Proof.Machine.execResetPartition id s
  | .resetEngine id => Sys2Proof.Machine.execResetEngine id s
  | .moor id => Sys2Proof.Machine.execMoor id s
  | .attest id => Sys2Proof.Machine.execAttest id s
  | .enqueue id => Sys2Proof.Machine.execEnqueue id s
  | .enqueueOffer id => Sys2Proof.Machine.execEnqueueOffer id s
  | .disableFinish f => Sys2Proof.Machine.execDisableFinish f s
  | .portEnable agent p v => Sys2Proof.Machine.execPortEnable agent p v s
  | .portDisable agent p v => Sys2Proof.Machine.execPortDisable agent p v s
  | .portLinkUp p => Sys2Proof.Machine.execPortLinkUp p s
  | .portLinkDown p => Sys2Proof.Machine.execPortLinkDown p s
  | .opticalCalibration p opens => Sys2Proof.Machine.execOpticalCalibration p opens s
  | .clientRingWrite agent p rx v => Sys2Proof.Machine.execClientRingWrite agent p rx v s
  | .clientRxTailWrite agent p v => Sys2Proof.Machine.execClientRxTailWrite agent p v s
  | .clientTxTailWrite agent p v => Sys2Proof.Machine.execClientTxTailWrite agent p v s
  | .clientFrameReceive p bytes => Sys2Proof.Machine.execClientFrameReceive p bytes s
  | .clientFrameTransmit p => Sys2Proof.Machine.execClientFrameTransmit p s
  | .helloSend => Sys2Proof.Machine.execHelloSend s
  | .berthSet agent v => Sys2Proof.Machine.execBerthSet agent v s
  | .ferryHelloReceive p f => Sys2Proof.Machine.execFerryHelloReceive p f s
  | .ferrySyncReceive p f => Sys2Proof.Machine.execFerrySyncReceive p f s
  | .ferrySyncAckReceive p f => Sys2Proof.Machine.execFerrySyncAckReceive p f s
  | .syncResend p x => Sys2Proof.Machine.execSyncResend p x s
  | .ferryControlReceive p f => Sys2Proof.Machine.execFerryControlReceive p f s
  | .ferryNackReceive p f => Sys2Proof.Machine.execFerryNackReceive p f s
  | .ackTimer p x => Sys2Proof.Machine.execAckTimer p x s
  | .retransmitTimeout p x => Sys2Proof.Machine.execRetransmitTimeout p x s
  | .ferryFrameSend p x vc => Sys2Proof.Machine.execFerryFrameSend p x vc s
  | .ferryWrite p f => Sys2Proof.Machine.execFerryWrite p f s
  | .ferryWriteAck p f => Sys2Proof.Machine.execFerryWriteAck p f s
  | .ferryReadReq p f => Sys2Proof.Machine.execFerryReadReq p f s
  | .ferryReadResp p f => Sys2Proof.Machine.execFerryReadResp p f s
  | .ferryPush p f => Sys2Proof.Machine.execFerryPush p f s
  | .ferryPushDone p f => Sys2Proof.Machine.execFerryPushDone p f s
  | .slipCredit p f => Sys2Proof.Machine.execSlipCredit p f s
  | .coll p f => Sys2Proof.Machine.execColl p f s
  | .collReady p f => Sys2Proof.Machine.execCollReady p f s
  | .ferryStatus p f => Sys2Proof.Machine.execFerryStatus p f s
  | .ferryRow p f => Sys2Proof.Machine.execFerryRow p f s
  | .ferryPurser p f buf => Sys2Proof.Machine.execFerryPurser p f buf s
  | .ferryMgmt p f cached bad => Sys2Proof.Machine.execFerryMgmt p f cached bad s
  | .ppsEdge => Sys2Proof.Machine.execPpsEdge s
  | .bootStart straps => Sys2Proof.Machine.execBootStart straps s
  | .solicit => Sys2Proof.Machine.execSolicit s
  | .offer d => Sys2Proof.Machine.execOffer d s
  | .block d bad => Sys2Proof.Machine.execBlock d bad s
  | .imageStateSend => Sys2Proof.Machine.execImageStateSend s
  | .sessionAbandon => Sys2Proof.Machine.execSessionAbandon s
  | .imageDoneSend => Sys2Proof.Machine.execImageDoneSend s
  | .imageMessageRelay d => Sys2Proof.Machine.execImageMessageRelay d s
  | .mgmtReq d => Sys2Proof.Machine.execMgmtReq d s
  | .svnFloorRaise agent v => Sys2Proof.Machine.execSvnFloorRaise agent v s
  | .ownerHashProgram agent v => Sys2Proof.Machine.execOwnerHashProgram agent v s
  | .measurementExtend agent v => Sys2Proof.Machine.execMeasurementExtend agent v s
  | .evtTailWrite agent v => Sys2Proof.Machine.execEvtTailWrite agent v s
  | .evtDropsRead => Sys2Proof.Machine.execEvtDropsRead s
  | .powerOn => Sys2Proof.Machine.execPowerOn s
  | .powerDown => Sys2Proof.Machine.execPowerDown s
  | .moduleReset l => Sys2Proof.Machine.execModuleReset l s
  | .trip c => Sys2Proof.Machine.execTrip c s
  | .moorReqChange low => Sys2Proof.Machine.execMoorReqChange low s
  | .moorWakeWrite agent v => Sys2Proof.Machine.execMoorWakeWrite agent v s
  | .moorEntry => Sys2Proof.Machine.execMoorEntry s
  | .moorDrained => Sys2Proof.Machine.execMoorDrained s
  | .moorWaitExpiry => Sys2Proof.Machine.execMoorWaitExpiry s
  | .wake => Sys2Proof.Machine.execWake s
  | .smbusRead cmd => Sys2Proof.Machine.execSmbusRead cmd s
  | .ferryFrameDiscard p bytes => Sys2Proof.Machine.execFerryFrameDiscard p bytes s
  | .mgmtLinkUp => Sys2Proof.Machine.execMgmtLinkUp s
  | .mgmtCageChange present => Sys2Proof.Machine.execMgmtCageChange present s
  | .pathTableWrite agent x v => Sys2Proof.Machine.execPathTableWrite agent x v s
  | .wheelhouseStore hart addr bytes => Sys2Proof.Machine.execWheelhouseStore hart addr bytes s

end Sys2Proof.Machine
end

