-- ==== Sys2Proof/Safety.lean ====
section
/-! DEFINITION. What counts as a safe run, and which parts of the state a command may change, in the terms that
statements use. -/

namespace Sys2Proof.Machine

/-- A step goes on: it answers a next state. -/
def StepsTo (s t : State) : Prop := step s = .next t

/-- What a run from `s` reaches in some number of steps. -/
inductive Reaches (s : State) : State → Prop where
  | refl : Reaches s s
  | step {t u : State} : Reaches s t → StepsTo t u → Reaches s u

/-- A command answers a next state, of which `P` holds. -/
def Does (i : Instr) (s : State) (P : State → Prop) : Prop := ∃ t, exec i s = .next t ∧ P t

/-- The parts of the state, one for each field of State. -/
inductive Part where
  | hub | pwr | evt | prt | engs | mem | cores | slip | fry | barges | routers | ssus | pcl | gth | grd | por | mbs | pur | sec | pending | outs | freeCtr
  deriving DecidableEq, Repr

/-- Two states agree in a part. -/
def Part.Same (s t : State) : Part → Prop
  | .hub => t.hub = s.hub
  | .pwr => t.pwr = s.pwr
  | .evt => t.evt = s.evt
  | .prt => t.prt = s.prt
  | .engs => t.engs = s.engs
  | .mem => t.mem = s.mem
  | .cores => t.cores = s.cores
  | .slip => t.slip = s.slip
  | .fry => t.fry = s.fry
  | .barges => t.barges = s.barges
  | .routers => t.routers = s.routers
  | .ssus => t.ssus = s.ssus
  | .pcl => t.pcl = s.pcl
  | .gth => t.gth = s.gth
  | .grd => t.grd = s.grd
  | .por => t.por = s.por
  | .mbs => t.mbs = s.mbs
  | .pur => t.pur = s.pur
  | .sec => t.sec = s.sec
  | .pending => t.pending = s.pending
  | .outs => t.outs = s.outs
  | .freeCtr => t.freeCtr = s.freeCtr

/-- The parts of the state that a command may change: what its rules name, the registers and queues through which an
engine command ends (spec/15 R381, spec/04 R101), the regulators that count its accesses (spec/14 R360), and the counter
of the values the spec leaves open (log 3). -/
def touches : Instr → List Part
  | .registerWrite .. | .resetWarm .. | .ferryMgmt .. | .mgmtReq .. =>
    [.hub, .pwr, .evt, .prt, .engs, .mem, .cores, .slip, .fry, .barges, .routers, .ssus, .pcl, .gth, .grd, .mbs,
     .pur, .sec, .outs, .freeCtr]
  | .badAccess .. | .evtDropsRead .. =>
    [.evt, .outs]
  | .mgmtLinkDown .. | .mgmtLinkUp .. | .mgmtCageChange .. =>
    [.hub]
  | .voltageControlStep .. | .rateWindowEnd .. | .moorWakeWrite .. =>
    [.pwr, .evt, .outs]
  | .pwrRateMinRead .. =>
    [.pwr, .outs]
  | .sensorSample .. | .moorReqChange .. | .moorEntry .. =>
    [.pwr]
  | .engineCommandOffer .. | .tamp .. | .tampStart .. | .tampLoadDone .. | .pass .. | .passStart .. | .passComplete ..
  | .epi .. | .epiComplete .. | .mapInstall .. | .mapClose .. | .combine .. | .pin .. | .unpin .. | .schedule ..
  | .advance .. | .compact .. | .gather .. | .apply .. | .prefetch .. | .gthAttach .. | .gthDetach .. | .migrate ..
  | .rowRequestServe .. | .rowUpdateApply .. | .hotRowBalance .. | .ferryRow .. =>
    [.evt, .prt, .engs, .mem, .cores, .fry, .gth, .mbs, .pur, .outs]
  | .passLastRowEntered .. | .bankFreeHandshake .. =>
    [.cores]
  | .ctxHaltClear .. =>
    [.engs]
  | .route .. | .dispatch .. =>
    [.evt, .prt, .engs, .mem, .cores, .fry, .routers, .gth, .mbs, .pur, .outs]
  | .dispatchNotify .. | .slpQueueEnable .. | .slpQueueDisable .. =>
    [.evt, .prt, .engs, .mem, .cores, .slip, .fry, .routers, .gth, .mbs, .pur, .outs]
  | .move .. =>
    [.evt, .prt, .engs, .mem, .cores, .fry, .barges, .gth, .mbs, .pur, .outs]
  | .fetchSlice .. =>
    [.evt, .prt, .engs, .mem, .outs]
  | .residencyEpochTick .. =>
    [.mem]
  | .backgroundUnit .. =>
    [.evt, .mem, .outs]
  | .collective .. | .collReadyRepeat .. | .collectiveTimeout .. | .coll .. =>
    [.evt, .prt, .engs, .mem, .cores, .fry, .barges, .gth, .mbs, .pur, .outs, .freeCtr]
  | .push .. | .grant .. | .take .. | .dropRest .. | .mark .. | .rewind .. | .release .. | .slipReserve .. 
  | .slipCommit .. =>
    [.evt, .prt, .engs, .mem, .cores, .slip, .fry, .gth, .mbs, .pur, .outs]
  | .slipRewind .. | .ferryPush .. =>
    [.evt, .prt, .mem, .slip, .fry, .outs]
  | .query .. | .pclDetach .. =>
    [.evt, .prt, .engs, .mem, .cores, .fry, .pcl, .gth, .mbs, .pur, .outs]
  | .queryAdmit .. =>
    [.evt, .prt, .engs, .mem, .cores, .fry, .pcl, .gth, .mbs, .pur, .outs, .freeCtr]
  | .pclHeadUnit .. | .pclBlockUnit .. | .pclRefineUnit .. =>
    [.evt, .prt, .engs, .mem, .cores, .fry, .ssus, .pcl, .gth, .mbs, .pur, .outs]
  | .queryResultWrite .. =>
    [.evt, .prt, .engs, .mem, .cores, .fry, .ssus, .pcl, .gth, .mbs, .pur, .outs, .freeCtr]
  | .pclAttach .. | .compactionRetire .. =>
    [.evt, .prt, .engs, .mem, .cores, .slip, .fry, .pcl, .gth, .mbs, .pur, .outs]
  | .updatePacketApply .. =>
    [.evt, .prt, .engs, .mem, .slip, .fry, .pcl, .outs]
  | .compactionPiece .. =>
    [.evt, .prt, .engs, .mem, .pcl, .outs]
  | .topk .. | .sort .. | .merge .. | .uniqueCount .. | .filterCompact .. =>
    [.evt, .prt, .engs, .mem, .cores, .fry, .ssus, .gth, .mbs, .pur, .outs, .freeCtr]
  | .loadEpochStep .. =>
    [.gth]
  | .tokenize .. =>
    [.evt, .prt, .engs, .mem, .cores, .fry, .gth, .grd, .mbs, .pur, .outs, .freeCtr]
  | .load .. =>
    [.evt, .prt, .engs, .mem, .cores, .fry, .gth, .grd, .mbs, .pur, .outs]
  | .unload .. =>
    [.evt, .prt, .engs, .mem, .cores, .fry, .ssus, .gth, .grd, .mbs, .pur, .outs, .freeCtr]
  | .embed .. | .search .. | .rerank .. | .pack .. | .prefill .. | .prefillLayer .. | .decodeStep .. | .enqueueOffer ..
  | .ferryPurser .. =>
    [.evt, .prt, .engs, .mem, .cores, .fry, .gth, .mbs, .pur, .outs, .freeCtr]
  | .decode .. | .pour .. | .cancel .. | .prefixRetire .. | .stageStart .. | .stageComplete .. | .sequencerError ..
  | .descriptorTake .. =>
    [.evt, .prt, .mem, .fry, .mbs, .pur, .outs, .freeCtr]
  | .sequencerToken .. =>
    [.evt, .prt, .mem, .fry, .por, .mbs, .pur, .outs, .freeCtr]
  | .sequencerCancel .. | .nop .. =>
    [.mbs, .pur, .freeCtr]
  | .ringRecordWrite .. | .attest .. =>
    [.evt, .prt, .mem, .mbs, .pur, .outs, .freeCtr]
  | .budgetRefill .. | .budgetPeriodWrite .. =>
    [.pur]
  | .contextEnable .. | .contextDisable .. =>
    [.evt, .prt, .engs, .mem, .cores, .fry, .barges, .ssus, .pcl, .gth, .grd, .mbs, .pur, .outs, .freeCtr]
  | .queryCtxWrite .. | .bucketEnable .. =>
    [.evt, .prt, .outs]
  | .bucketPieceAdmit .. =>
    [.prt]
  | .mailboxOpen .. | .mailboxOpenResolve .. | .mbDoorbell .. | .mbCplTailWrite .. =>
    [.evt, .mbs, .outs]
  | .mailboxClose .. =>
    [.pwr, .evt, .prt, .mem, .fry, .mbs, .pur, .outs, .freeCtr]
  | .completionWrite .. =>
    [.mbs, .outs]
  | .progressWrite .. =>
    [.mbs, .pur, .outs]
  | .resetPartition .. | .resetEngine .. =>
    [.evt, .prt, .engs, .mem, .cores, .slip, .fry, .barges, .routers, .ssus, .pcl, .gth, .grd, .mbs, .pur, .outs,
     .freeCtr]
  | .moor .. | .moorWaitExpiry .. =>
    [.pwr, .mbs, .pur, .freeCtr]
  | .enqueue .. =>
    [.mbs, .pur]
  | .disableFinish .. =>
    [.evt, .prt, .engs, .mem, .cores, .slip, .fry, .routers, .ssus, .pcl, .gth, .grd, .mbs, .pur, .outs, .freeCtr]
  | .portEnable .. | .portDisable .. | .portLinkDown .. | .ferryHelloReceive .. | .ferrySyncReceive .. 
  | .ferryNackReceive .. | .retransmitTimeout .. | .ferryWriteAck .. | .ferryReadResp .. | .ferryPushDone .. 
  | .ferryStatus .. =>
    [.evt, .prt, .engs, .mem, .cores, .slip, .fry, .barges, .routers, .gth, .mbs, .pur, .outs, .freeCtr]
  | .portLinkUp .. | .opticalCalibration .. | .helloSend .. | .berthSet .. | .syncResend .. | .ackTimer .. 
  | .ferryFrameSend .. | .imageStateSend .. | .pathTableWrite .. =>
    [.fry, .outs]
  | .clientRingWrite .. | .ferryControlReceive .. | .ferryFrameDiscard .. =>
    [.fry]
  | .clientRxTailWrite .. | .clientTxTailWrite .. =>
    [.evt, .fry, .outs]
  | .clientFrameReceive .. | .clientFrameTransmit .. | .ferryWrite .. | .ferryReadReq .. =>
    [.evt, .prt, .mem, .fry, .outs]
  | .ferrySyncAckReceive .. | .slipCredit .. =>
    [.slip, .fry, .outs]
  | .collReady .. =>
    [.fry, .barges, .outs]
  | .ppsEdge .. =>
    [.hub, .evt, .fry, .outs]
  | .bootStart .. =>
    [.pwr, .fry, .sec]
  | .solicit .. =>
    [.fry, .sec, .outs]
  | .offer .. | .block .. | .svnFloorRaise .. | .ownerHashProgram .. | .measurementExtend .. =>
    [.evt, .sec, .outs]
  | .sessionAbandon .. =>
    [.sec]
  | .imageDoneSend .. =>
    [.hub, .evt, .prt, .mem, .fry, .pur, .sec, .outs]
  | .imageMessageRelay .. =>
    [.evt, .prt, .mem, .fry, .sec, .outs, .freeCtr]
  | .evtTailWrite .. =>
    [.evt]
  | .powerOn .. | .powerDown .. | .moduleReset .. | .trip .. =>
    [.hub, .pwr, .evt, .prt, .engs, .mem, .cores, .slip, .fry, .barges, .routers, .ssus, .pcl, .gth, .grd, .por,
     .mbs, .pur, .sec]
  | .moorDrained .. =>
    [.hub, .pwr, .evt, .prt, .engs, .mem, .cores, .slip, .fry, .barges, .routers, .gth, .mbs, .pur, .outs,
     .freeCtr]
  | .wake .. =>
    [.hub, .pwr, .evt, .mem, .cores, .outs, .freeCtr]
  | .smbusRead .. =>
    [.outs]
  | .wheelhouseStore .. =>
    [.evt, .prt, .mem, .outs]

end Sys2Proof.Machine
end

