-- ==== Sys2Proof/Certificates/Slice0/Obligations.lean ====
section
/-! DEFINITION. The statements for the provers, with the predicates they speak in. Each speaks of every state: what a command
does is said as `Does i s P`, the command answers a next state of which P holds. -/

open Sys2Proof Sys2Proof.Machine

namespace Sys2Proof.Claim

/-- Memory holds no uncorrectable word. -/
def clean (s : State) : Prop := s.mem.badHbm = [] ∧ s.mem.badSram = []

/-- The windows of its partition let an agent read and write every address below the wheelhouse region (spec/14 R351). -/
def openTo (s : State) (w : Who) : Prop :=
  ∀ (a n : Nat) (write : Bool), a + n ≤ wheelBase → mayAccess s w a n write = true

end Sys2Proof.Claim

open Sys2Proof.Claim

/-! ### The block -/

/-- One step takes the command at the front of the queue and does exactly what the command does, with the queue's rest;
nothing but a command of the table is ever in the queue. -/
def Obligations.StepRunsTheFrontCommand : Prop :=
  ∀ (c : Instr) (rest : List Instr) (s : State), s.pending = c :: rest → step s = exec c { s with pending := rest }

/-- On an empty queue a step is one nanosecond (the model's choice, log 35): the timestamp counter counts one, each
enabled bucket gains its rate up to its burst, admits the waiting pieces its tokens suffice for, and counts a stalled
nanosecond in which a piece waited; one event leaves the input buffer, and nothing else changes. -/
def Obligations.IdleStepIsOneNanosecond : Prop :=
  ∀ s : State, s.pending = [] → ∃ t, step s = .next t ∧ t.hub.time = s.hub.time + 1 ∧ t.evt.buf = s.evt.buf - 1 ∧
    (∀ p k, tabGet {} (getPart t p).buckets k =
      let b := tabGet {} (getPart s p).buckets k
      let d := drain (min (1000 * (b.burst.toNat : Int)) (b.tokens + b.rate.toNat)) b.waiting
      if b.enable then { b with
        tokens := d.1, waiting := d.2, stall := if b.waiting = [] then b.stall else b.stall + 1 } else b) ∧
    (∀ (x : Int) (w : List Nat), ∃ n, (drain x w).2 = w.drop n ∧ (drain x w).1 = x - 1000 * ((w.take n).sum : Int) ∧
      ((drain x w).2 ≠ [] → (drain x w).1 < 0)) ∧
    (∀ p, (getPart t p).queryCtx = (getPart s p).queryCtx ∧ (getPart t p).windows = (getPart s p).windows) ∧
    t.prt.ctxs = s.prt.ctxs ∧
    t = { s with hub := { s.hub with time := t.hub.time }, evt := { s.evt with buf := t.evt.buf }, prt := t.prt }

/-- What a command may change: every part of the state that `touches` does not list for it is as before. -/
def Obligations.CommandsKeepOtherParts : Prop :=
  ∀ (i : Instr) (s t : State), exec i s = .next t → ∀ p : Part, p ∉ touches i → p.Same s t

/-- A command stops the block in one case only: a register write at an address outside every block of Table 0-4; it is
never refused. -/
def Obligations.OnlyAnUnmappedWriteStops : Prop :=
  ∀ (i : Instr) (s : State), (∃ t, exec i s = .next t) ∨
    (∃ a addr v, i = .registerWrite a addr v ∧ blockOf addr = none ∧ exec i s = .fault .noSuchAddress)

/-- The bytes of memory that are kept are those other than zero, each once and in rising order; every step keeps that
form, from every state that has it. -/
def Obligations.StepsKeepMemoryCanonical : Prop :=
  ∀ s t : State, Memory.wf s.mem.bytes = true → step s = .next t → Memory.wf t.mem.bytes = true

namespace Sys2Proof.Claim

/-- What protects the module from a rolled-back bundle: the fused floor was raised 64 times at most; firmware that runs
is not below the floor; a bundle accepted but not yet handed over is not below the floor. -/
def rollbackSafe (s : State) : Prop :=
  s.sec.raises ≤ 64 ∧
  (s.sec.phase = .running → s.sec.svnFloor.toNat ≤ s.sec.svn.toNat) ∧
  (s.sec.phase = .decided → s.sec.session.verdict = .ok →
    s.sec.svnFloor.toNat ≤ fld (memRead s.sec.session.staging 0 256) 8 4)

end Sys2Proof.Claim

/-- Every step of every command keeps the module safe from rollback: no sequence of commands makes firmware below the
fused floor run (spec/17 R440, R443). -/
def Obligations.NoStepRollsBack : Prop := ∀ s t : State, rollbackSafe s → step s = .next t → rollbackSafe t

/-- The fuses only move forward in a step: the owner key hash, once set, stays set and keeps its value, and the SVN floor
never falls. -/
def Obligations.FusesOnlyMoveForward : Prop :=
  ∀ s t : State, step s = .next t →
    s.sec.svnFloor.toNat ≤ t.sec.svnFloor.toNat ∧ s.sec.raises ≤ t.sec.raises ∧
    (s.sec.ownerSet = true → t.sec.ownerSet = true ∧ t.sec.ownerHash = s.sec.ownerHash)

/-- Reset: memory is in its canonical form, the module is safe from rollback, no command waits, nothing has left the
block, and no engine has a command. -/
def Obligations.ResetMeetsTheInvariants : Prop :=
  Memory.wf State.reset.mem.bytes = true ∧ rollbackSafe State.reset ∧ State.reset.pending = [] ∧ State.reset.outs = [] ∧
  ∀ e c, (getQ State.reset e c).queue = [] ∧ (getQ State.reset e c).halt = false

/-- The reset values that the register tables state, as software reads them: HUB_PART, HUB_CAPS, HUB_TIME, HUB_HARTS,
PUR_CAPS, MB_0_CFG, MB_63_CFG, MB_0_STATE, PRT_CAPS, PRT_0_REG_0, PRT_CTX_0_CFG, PWR_CAPS, PWR_PCAP, PWR_RATE_MIN_0,
PWR_VSET_0, PWR_DECK_CTL_0, PWR_MOOR_CTL, SEC_CAPS, FRY_CAPS, FRY_ETHERTYPE, FRY_GROUP_MAC, FRY_RETRY, FRY_0_VCSHARE,
SLP_CAPS, GRD_CAPS, POR_CAPS, EVT_CAPS, EVT_ALERT_MASK. -/
def Obligations.ResetRegisterValues : Prop :=
  ∀ p ∈ [(0xF00000000000, 0x0960000100000000), (0xF00000000008, 0x0000200400800010), (0xF00000000010, 0),
    (0xF00000000028, 0), (0xF00001000000, 0x0200010000400010), (0xF00001001000, 0), (0xF00001001FC0, 0x200000000000FFFF),
    (0xF00001001010, 0), (0xF00002000000, 0x0000004000080010), (0xF00002001080, 0x0000100000000001),
    (0xF00002004000, 0x0001000000000000), (0xF00003000000, 0x00060E000004B000), (0xF00003000008, 0xC80),
    (0xF00003000200, 0xFFFFF), (0xF00003000220, 0xFF000000), (0xF00003000240, 0x000002BC00690000), (0xF00003000320, 0x64),
    (0xF00004000000, 0x0000000102000008), (0xF00005000000, 0x0000200000080010), (0xF00005000010, 0x88B5),
    (0xF00005000018, 0x035256420000), (0xF00005000020, 0x08000032), (0xF00005000118, 0x1010101010101010),
    (0xF00006000000, 0x0000100000010000), (0xF00007000000, 0x0008000008100000), (0xF00008000000, 0x0000401000010000),
    (0xF00009000000, 0x0000004000010000), (0xF00009000020, 0x28)],
    (regValue State.reset p.1).toNat = p.2

/-! ### Events and registers -/

namespace Sys2Proof.Claim

/-- A BAD_ACCESS event is entered as the next entry of the log, with its class's alert bit and the interrupt (spec/00 R13,
spec/18 R462, R463, R466); with the input buffer full it is only counted. A read answers zero. -/
def badAccessIsLogged : Prop :=
  ∀ (addr : Nat) (isWrite : Bool) (s : State), Does (.badAccess addr isWrite) s fun t =>
    (s.evt.buf < 256 →
      t.evt.head = s.evt.head + 1 ∧ t.evt.alert = s.evt.alert ||| 4 ∧
      tabGet {} t.evt.log (s.evt.head.toNat % 65536) =
        { seq := s.evt.head, time := s.hub.time, code := some .badAccess, source := 0xF000,
          detail := toLe 8 addr ++ [if isWrite then 1 else 0] } ∧
      (∀ n, n ≠ s.evt.head.toNat % 65536 → tabGet {} t.evt.log n = tabGet {} s.evt.log n) ∧
      t.outs = (if isWrite then [] else [Out.value addr 0]) ++
        (if s.evt.irqEn then [Out.irq s.evt.irqHart.toNat .eventLog] else []) ++ s.outs) ∧
    (256 ≤ s.evt.buf → t = { s with
      evt := { s.evt with drops := if s.evt.drops = 0xFFFFFFFF then s.evt.drops else s.evt.drops + 1 }
      outs := (if isWrite then [] else [Out.value addr 0]) ++ s.outs }) ∧
    t = { s with outs := t.outs, evt := { s.evt with
      head := t.evt.head, tail := t.evt.tail, drops := t.evt.drops, alert := t.evt.alert, log := t.evt.log,
      buf := t.evt.buf } }

end Sys2Proof.Claim

/-- R465: an entry written with HEAD − TAIL at 65,536 overwrites the oldest, TAIL rises by one and EVT_DROPS counts it; a
write of v to EVT_TAIL sets TAIL to max(v, TAIL) when v is at most HEAD and is ignored otherwise. -/
def Obligations.EventTailFollowsR465 : Prop :=
  (∀ (s : State) (e : EvtEntry), s.evt.buf < 256 →
    let t := logEntry s e
    tabGet {} t.evt.log (s.evt.head.toNat % 65536) = { e with seq := s.evt.head, time := s.hub.time } ∧
    (s.evt.head.toNat - s.evt.tail.toNat = 65536 → t.evt.tail = s.evt.tail + 1 ∧
      t.evt.drops = if s.evt.drops = 0xFFFFFFFF then s.evt.drops else s.evt.drops + 1) ∧
    (s.evt.head.toNat - s.evt.tail.toNat < 65536 → t.evt.tail = s.evt.tail ∧ t.evt.drops = s.evt.drops)) ∧
  ∀ (a : Agent) (v : W64) (s : State), a ≠ .mgmt → exec (.evtTailWrite a v) s = .next
    (if v ≤ s.evt.head then { s with evt := { s.evt with tail := if s.evt.tail ≤ v then v else s.evt.tail } } else s)

namespace Sys2Proof.Claim

/-- The two registers that a read clears: EVT_DROPS and PWR_RATE_MIN_d answer their value and return to their reset value;
nothing else changes (spec/00 Table 0-3, spec/18 R467, spec/02 R52). -/
def readsThatClear : Prop :=
  (∀ s : State, Does .evtDropsRead s fun t =>
    t.outs = .value 0xF00009000018 (regValue s 0xF00009000018) :: s.outs ∧ regValue t 0xF00009000018 = 0 ∧
    t = { s with evt := { s.evt with drops := t.evt.drops }, outs := t.outs }) ∧
  ∀ (d : Nat) (s : State), d < 4 → Does (.pwrRateMinRead d) s fun t =>
    t.outs = .value (0xF00003000200 + 8 * d) (regValue s (0xF00003000200 + 8 * d)) :: s.outs ∧
    regValue t (0xF00003000200 + 8 * d) = 0xFFFFF ∧
    (∀ k, k ≠ d → tabGet 0xFFFFF t.pwr.rateMin k = tabGet 0xFFFFF s.pwr.rateMin k) ∧
    t = { s with pwr := { s.pwr with rateMin := t.pwr.rateMin }, outs := t.outs }

end Sys2Proof.Claim

/-- Events and the registers that a read clears: `badAccessIsLogged`; `readsThatClear`. -/
def Obligations.EventLogAndClearingReads : Prop := badAccessIsLogged ∧ readsThatClear

/-- R54: VMAX_MV, TJ_CAP and PCAP_W store the nearest bound of their range, and read back what they store; a write of
PCAP_W or of a deck's control leaves all else as it was. -/
def Obligations.PowerLimitsClampR54 : Prop :=
  ∀ (a : Agent) (v : W64) (s : State), a ≠ .mgmt →
    (Does (.registerWrite a 0xF00003000008 v) s fun t =>
      (regValue t 0xF00003000008).toNat = max 1600 (min 3200 (v.toNat % 4096)) ∧
      t = { s with pwr := { s.pwr with pcap := t.pwr.pcap } }) ∧
    ∀ d, d < 4 → Does (.registerWrite a (0xF00003000240 + 8 * d) v) s fun t =>
      (regValue t (0xF00003000240 + 8 * d)).toNat =
        max 620 (min 780 (v.toNat / 2 ^ 32 % 1024)) * 2 ^ 32 + max 85 (min 105 (v.toNat / 2 ^ 16 % 256)) * 2 ^ 16 ∧
      (∀ k, k ≠ d → tabGet {} t.pwr.deckCtl k = tabGet {} s.pwr.deckCtl k) ∧
      t = { s with pwr := { s.pwr with deckCtl := t.pwr.deckCtl } }

/-- Who writes the PRT block: harts in hypervisor mode and the purser; a write by any other agent changes no register and is
logged as PROT_WRITE with its address and value (spec/14 R345). -/
def Obligations.PrtWritesNeedHypervisor : Prop :=
  ∀ (a : Agent) (off : Nat) (v : W64) (s : State), off < 0x1000000 → a ≠ .purser → (∀ h, a ≠ .hart h true) →
    s.evt.buf < 256 → Does (.registerWrite a (0xF00002000000 + off) v) s fun t =>
      t.evt.head = s.evt.head + 1 ∧
      tabGet {} t.evt.log (s.evt.head.toNat % 65536) =
        { seq := s.evt.head, time := s.hub.time, code := some .protWrite, source := 0xF000,
          detail := toLe 8 (0xF00002000000 + off) ++ toLe 8 v.toNat } ∧
      t = { s with evt := t.evt, outs := t.outs }

/-! ### Voltage, rates, sensors -/

namespace Sys2Proof.Claim

/-- A control step (spec/02 R43, R45): each powered deck's setpoint falls 10 mV on heat or power, rises 5 mV with margin on
both, stays between 620 mV and VMAX_MV; a deck left at 620 mV above its TJ_CAP gets its PINNED bit and an event. -/
def voltageControlStepMovesSetpoints : Prop :=
  ∀ (pIn : Nat) (s : State), decksOn s = true → s.evt.buf ≤ 252 → Does (.voltageControlStep pIn) s fun t =>
    (∀ d, d < 4 →
      let c := tabGet {} s.pwr.deckCtl d
      let tj := ((List.range 4).map fun m => (tabGet {} s.pwr.monitors (4 * d + m)).tj.toNat).foldl max 0
      let v := (tabGet {} s.pwr.vset d).mv.toNat
      let cap := s.pwr.pcap.toNat
      let w := if c.tjCap.toNat < tj ∨ cap < pIn then v - 10
        else if tj + 3 < c.tjCap.toNat ∧ pIn + 50 < cap then v + 5 else v
      (tabGet {} t.pwr.vset d).mv.toNat = max 620 (min w c.vmax.toNat) ∧
      t.pwr.pinned.getLsbD d = (s.pwr.pinned.getLsbD d ||
        decide ((tabGet {} t.pwr.vset d).mv.toNat = 620 ∧ c.tjCap.toNat < tj))) ∧
    t.evt.head.toNat = (s.evt.head.toNat + ((List.range 4).filter fun d =>
      (tabGet {} t.pwr.vset d).mv.toNat = 620 ∧ (tabGet {} s.pwr.deckCtl d).tjCap.toNat <
        ((List.range 4).map fun m => (tabGet {} s.pwr.monitors (4 * d + m)).tj.toNat).foldl max 0).length) % 2 ^ 64 ∧
    t = { s with pwr := { s.pwr with vset := t.pwr.vset, pinned := t.pwr.pinned }, evt := t.evt, outs := t.outs }

/-- A rate window ends (spec/02 R49-R51, Tables 2-3, 2-4): each monitor's SEQ counts, TJ and RATE are taken, RATE being 16
times the count; PWR_RATE_MIN_d keeps the lowest rate of deck d, PWR_BEATS_d counts monitor 0, and a deck below 1,200
beats per µs gets its RATE_LOW bit. -/
def rateWindowUpdatesMonitors : Prop :=
  ∀ (r : List RateReading) (s : State), decksOn s = true → Does (.rateWindowEnd r) s fun t =>
    (∀ i, i < 16 → tabGet {} t.pwr.monitors i =
      { seq := (tabGet {} s.pwr.monitors i).seq + 1, tj := (r.getD i ⟨0, 0⟩).tj,
        rate := BitVec.ofNat 20 (16 * (r.getD i ⟨0, 0⟩).count) }) ∧
    (∀ d, d < 4 →
      let rate := fun m => (tabGet {} t.pwr.monitors (4 * d + m)).rate.toNat
      let low := min (min (rate 0) (rate 1)) (min (rate 2) (rate 3))
      (tabGet 0xFFFFF t.pwr.rateMin d).toNat = min low (tabGet 0xFFFFF s.pwr.rateMin d).toNat ∧
      tabGet 0 t.pwr.beats d = tabGet 0 s.pwr.beats d + BitVec.ofNat 64 (r.getD (4 * d) ⟨0, 0⟩).count ∧
      t.pwr.rateLow.getLsbD d = (s.pwr.rateLow.getLsbD d || decide (low < 1200 * 256))) ∧
    t = { s with evt := t.evt, outs := t.outs, pwr := { s.pwr with
      monitors := t.pwr.monitors, rateMin := t.pwr.rateMin, beats := t.pwr.beats, rateLow := t.pwr.rateLow } }

end Sys2Proof.Claim

/-- What the rate windows measure and what the control steps make of it: `rateWindowUpdatesMonitors`; `voltageControlStepMovesSetpoints`. -/
def Obligations.MonitorsAndSetpoints : Prop := rateWindowUpdatesMonitors ∧ voltageControlStepMovesSetpoints

namespace Sys2Proof.Claim

/-- A sensor sample stands in PWR_INPUT, PWR_COOLANT and the HBM temperatures, and SMBus reads answer from it; STATE is 2
while running, and an unlisted command answers 0xFF (spec/19 R488, R490, Tables 19-10, 19-11). -/
def sensorsAndSmbus : Prop :=
  (∀ (r : SensorReadings) (s : State), s.pwr.power ≠ .off → Does (.sensorSample r) s fun t =>
    t.pwr.input.toNat = r.vin10mV.toNat * 2 ^ 48 + r.iin10mA.toNat * 2 ^ 32 + r.pinW.toNat ∧
    t.pwr.coolant.toNat = r.hubTj.toNat * 2 ^ 24 + r.outlet.toNat * 2 ^ 8 + r.inlet.toNat ∧
    (∀ k, k < r.hbm.length → tabGet 0 t.pwr.hbmTemp k = r.hbm.getD k 0) ∧
    t = { s with pwr := { s.pwr with input := t.pwr.input, coolant := t.pwr.coolant, hbmTemp := t.pwr.hbmTemp } } ∧
    (exec (.smbusRead 1) t = .next { t with outs := .smbus (toLe 2 r.vin10mV.toNat) :: s.outs }) ∧
    (exec (.smbusRead 2) t = .next { t with outs := .smbus (toLe 2 r.iin10mA.toNat) :: s.outs }) ∧
    (exec (.smbusRead 3) t = .next { t with outs := .smbus (toLe 2 r.pinW.toNat) :: s.outs }) ∧
    (exec (.smbusRead 4) t = .next { t with outs := .smbus [r.inlet] :: s.outs }) ∧
    (exec (.smbusRead 5) t = .next { t with outs := .smbus [r.outlet] :: s.outs })) ∧
  ∀ s : State, (s.pwr.power = .on → s.pwr.moor = .running →
      exec (.smbusRead 8) s = .next { s with outs := .smbus [2] :: s.outs }) ∧
    (s.pwr.power ≠ .off → exec (.smbusRead 9) s = .next { s with outs := .smbus [s.pwr.tripCauses.zeroExtend 8] :: s.outs } ∧
      exec (.smbusRead 10) s = .next { s with outs := .smbus [s.fry.slot.zeroExtend 8] :: s.outs } ∧
      exec (.smbusRead 16) s = .next { s with outs := .smbus (toLe 16 Config.serial.toNat) :: s.outs } ∧
      ∀ c, c ∉ [1, 2, 3, 4, 5, 6, 7, 8, 9, 10, 16] → exec (.smbusRead c) s = .next { s with outs := .smbus [0xFF] :: s.outs })

/-- The management port's link and cage show in HUB_MGMT_STATUS, and LOST is set when the link goes down (spec/01 Table
1-12); a write of 1 to LOST clears it. -/
def managementLinkStatus : Prop :=
  ∀ s : State,
    (s.pwr.power ≠ .off → s.pwr.power ≠ .tripped → Does .mgmtLinkUp s fun t =>
      t = { s with hub := { s.hub with fecLock := true, link := true } } ∧ (regValue t 0xF00000000020).getLsbD 0 = true) ∧
    (s.hub.link = true → Does .mgmtLinkDown s fun t =>
      t = { s with hub := { s.hub with fecLock := false, link := false, lost := true } } ∧
      (regValue t 0xF00000000020).getLsbD 0 = false ∧ (regValue t 0xF00000000020).getLsbD 3 = true) ∧
    (∀ b, exec (.mgmtCageChange b) s = .next { s with hub := { s.hub with cage := b } }) ∧
    ∀ a v, a ≠ .mgmt → exec (.registerWrite a 0xF00000000020 v) s = .next
      (if v.getLsbD 3 then { s with hub := { s.hub with lost := false } } else s)

end Sys2Proof.Claim

/-- What the module shows of its sensors and of its management port: `sensorsAndSmbus`; `managementLinkStatus`. -/
def Obligations.SensorsAndManagementPort : Prop := sensorsAndSmbus ∧ managementLinkStatus

/-! ### Power, trips, Moored -/

namespace Sys2Proof.Claim

/-- What no reset and no loss of power takes from the module: the fuses. -/
def sameFuses (s t : State) : Prop :=
  t.sec.ownerSet = s.sec.ownerSet ∧ (s.sec.ownerSet = true → t.sec.ownerHash = s.sec.ownerHash) ∧
  t.sec.svnFloor = s.sec.svnFloor ∧ t.sec.raises = s.sec.raises

/-- The parts that a module reset, a trip and a power-down return to their reset values whole. -/
def resetParts : List Part :=
  [.evt, .prt, .engs, .mem, .cores, .slip, .barges, .routers, .ssus, .pcl, .gth, .grd, .por, .mbs, .pur]

/-- Power-on, module reset, power-down and a trip (spec/19 R475, R476, R479, Table 19-4; spec/18 R452): every engine,
memory, queue and mailbox is at its reset value; the fuses, the slot and what left the block stay; boot has not started.
A trip latches its cause, the alert and THERMTRIP_N, and only a reset below the clear levels leaves it. -/
def powerTransitions : Prop :=
  ∀ s : State,
    (s.pwr.power = .off → Does .powerOn s fun t => t.pwr.power = .moduleReset ∧ t.sec.phase = .waiting ∧
      sameFuses s t ∧ t.fry.slot = s.fry.slot ∧ t.outs = s.outs ∧ ∀ p ∈ resetParts, p.Same State.reset t) ∧
    (Does .powerDown s fun t => t.pwr.power = .off ∧ t.sec.phase = .waiting ∧ t.hub.link = false ∧
      sameFuses s t ∧ t.outs = s.outs ∧ ∀ p ∈ resetParts, p.Same State.reset t) ∧
    (∀ l, s.pwr.power = .moduleReset ∨ s.pwr.power = .on → Does (.moduleReset l) s fun t =>
      t.pwr.power = .moduleReset ∧ t.pwr.moor = .running ∧ t.sec.phase = .waiting ∧ t.hub.time = 0 ∧ sameFuses s t ∧
      t.outs = s.outs ∧ ∀ p ∈ resetParts, p.Same State.reset t) ∧
    (∀ l, s.pwr.power = .tripped → Does (.moduleReset l) s fun t =>
      (l.junction < 95 → l.hbm < 85 → l.outlet < 60 → 4800 ≤ l.vin → l.vin ≤ 5700 →
        t.pwr.power = .moduleReset ∧ t.pwr.tripAlert = false ∧ t.pwr.thermTrip = false ∧
        t.pwr.tripCauses = s.pwr.tripCauses ∧ sameFuses s t) ∧
      (95 ≤ l.junction ∨ 85 ≤ l.hbm ∨ 60 ≤ l.outlet ∨ l.vin < 4800 ∨ 5700 < l.vin → t = s)) ∧
    ∀ c, s.pwr.power = .moduleReset ∨ s.pwr.power = .on → Does (.trip c) s fun t =>
      t.pwr.power = .tripped ∧ t.pwr.tripAlert = true ∧ alertAsserted t = true ∧
      t.pwr.thermTrip = decide (c = .junction ∨ c = .hbm ∨ c = .outlet) ∧
      (∀ i, i < 6 → t.pwr.tripCauses.getLsbD i =
        decide (i = match c with | .junction => 0 | .hbm => 1 | .outlet => 2 | .overVoltage => 3 | .overCurrent => 4 | .rail => 5)) ∧
      t.hub.link = false ∧ sameFuses s t ∧ ∀ p ∈ resetParts, p.Same State.reset t

/-- How a mooring starts and is refused (spec/19 R480-R482): MOOR from a mailbox of every partition sets the latch; the
target is Moored while MOOR_REQ is low and REFUSED is 0 or the latch is set; an entry whose engine queues have not emptied
in time is refused, which completes the MOOR with INTERNAL and clears the latch, or sets REFUSED; a write of WAKE clears the
latch. -/
def mooringRequests : Prop :=
  ∀ s : State,
    (∀ id c, getCmd s id = some c → c.opcode = 0x04 → c.phase = .held → c.guest = none → purWorks s = true →
      unfenced s id c = true → (getMb s c.mb).parts = 0xFFFF → s.pwr.entryByCommand = none → Does (.moor id) s fun t =>
        t.pwr = { s.pwr with latch := true, entryByCommand := some id } ∧
        t = { s with pwr := t.pwr, pur := t.pur } ∧ getCmd t id = some { c with phase := .running }) ∧
    (∀ low, exec (.moorReqChange low) s = .next { s with pwr := { s.pwr with
      moorReqLow := low, refused := s.pwr.refused && low } }) ∧
    (s.pwr.moor = .running → pursing s = true → (s.pwr.moorReqLow = true ∧ s.pwr.refused = false) ∨ s.pwr.latch = true →
      exec .moorEntry s = .next { s with pwr := { s.pwr with moor := .entering } }) ∧
    (s.pwr.moor = .entering → enginesBusy s = true → s.pwr.entryByCommand = none →
      exec .moorWaitExpiry s = .next { s with pwr := { s.pwr with moor := .running, refused := true } }) ∧
    (∀ id c, s.pwr.moor = .entering → enginesBusy s = true → s.pwr.entryByCommand = some id → getCmd s id = some c →
      Does .moorWaitExpiry s fun t =>
      t.pwr = { s.pwr with moor := .running, latch := false, entryByCommand := none } ∧
      (∃ r, (getMb t c.mb).held = (getMb s c.mb).held ++ [r] ∧ r.seq = c.seq ∧ r.status = .internal ∧ r.opcode = c.opcode ∧
        r.tag = c.tag) ∧ getCmd t id = none) ∧
    ∀ a v, a = .purser ∨ (∃ h, a = .hart h true) → Does (.moorWakeWrite a v) s fun t =>
      t.pwr.latch = false ∧ t.pwr.moorWait.toNat = max 1 (min 10000 (v.toNat % 16384)) ∧
      t = { s with pwr := { s.pwr with latch := false, wakeHart := t.pwr.wakeHart, wakeIrqEn := t.pwr.wakeIrqEn,
                                       moorWait := t.pwr.moorWait } }

/-- The module enters Moored when every engine is idle (spec/19 Table 19-6, R481, R484): its harts are in retention, the
MOOR completes with OK, its setpoints are kept, STATE reads moored, every port's link is down and every
granule is HOME. Said here where no path is left to lose; PortsCarryPaths says what losing one does. -/
def mooredEntry : Prop :=
  ∀ s : State, s.pwr.moor = .entering → enginesBusy s = false →
    (∀ x ∈ s.fry.paths, x.2.state ≠ .up ∧ x.2.state ≠ .syncing) → Does .moorDrained s fun t =>
    t.pwr.moor = .moored ∧ t.pwr.entryByCommand = none ∧ t.hub.harts = 0 ∧ t.hub.retained = s.hub.harts ∧
    (∀ d, d < 4 → tabGet 0 t.pwr.saved d = (tabGet {} s.pwr.vset d).mv) ∧
    (∀ p, p < 16 → (getPort t p).link = false) ∧ t.mem.gran = [] ∧
    (∀ id c, s.pwr.entryByCommand = some id → getCmd s id = some c →
      ∃ r, r ∈ (getMb t c.mb).held ∧ r.seq = c.seq ∧ r.status = .ok ∧ r.tag = c.tag)

/-- Wake (spec/19 R483, R484, Table 19-7): the decks return at the setpoints kept, STATE reads running, the harts leave
retention, the hart that WAKE_HART names is interrupted when WAKE_IRQ_EN is set; of the special registers only these
change, and the engine queues, schedules and firmware are kept. -/
def wakeRestores : Prop :=
  ∀ s : State, s.pwr.moor = .moored → ((s.pwr.moorReqLow = true ∧ s.pwr.refused = false) ∨ s.pwr.latch = true → False) →
    Does .wake s fun t =>
      t.pwr.moor = .running ∧ t.hub.harts = s.hub.retained ∧ t.hub.retained = 0 ∧
      (∀ d, d < 4 → (tabGet {} t.pwr.vset d).mv = tabGet 0 s.pwr.saved d) ∧
      (s.pwr.wakeIrqEn = true → (Out.irq s.pwr.wakeHart.toNat .wake) ∈ t.outs) ∧
      (s.mem.badHbm = [] → (∀ g ∈ s.mem.parked, tabFind t.mem.gran g.1 ≠ none) ∧ t.mem.bytes = s.mem.bytes) ∧
      t = { s with
        pwr := { s.pwr with moor := .running, vset := t.pwr.vset }, hub := { s.hub with harts := t.hub.harts, retained := 0 }
        mem := t.mem, cores := t.cores, evt := t.evt, outs := t.outs, freeCtr := t.freeCtr }

end Sys2Proof.Claim

/-- Mooring, from the request to the return: `mooringRequests`; `mooredEntry`; `wakeRestores`. -/
def Obligations.MooringCycle : Prop := mooringRequests ∧ mooredEntry ∧ wakeRestores

/-! ### Boot and trust -/

namespace Sys2Proof.Claim

/-- A datagram that the management port accepts: its link up, sent to the module's own address and port, link-local source,
hop limit 255, a well-formed message (spec/17 R433, R434). -/
def accepted (s : State) (d : Datagram) : Prop :=
  s.hub.link = true ∧ reachesPort d = true ∧ d.host.addr.toNat / 2 ^ 118 = 0x3FA ∧ d.hops = 255 ∧ imgOk d.bytes = true

/-- Boot starts out of module reset (spec/17 Table 17-1 steps 1 and 2, R445; spec/16 R399): the straps are latched, each
deck starts at min(700, VMAX_MV) mV, and measurement slot 0 is 64 zero bytes extended with the boot ROM's digest. -/
def bootStarts : Prop :=
  ∀ (straps : BitVec 6) (s : State), s.pwr.power = .moduleReset → Does (.bootStart straps) s fun t =>
    t.pwr.power = .on ∧ t.fry.slot = straps ∧ t.sec.phase = .soliciting ∧
    (∀ d, d < 4 → (tabGet {} t.pwr.vset d).mv.toNat = min 700 (tabGet {} s.pwr.deckCtl d).vmax.toNat) ∧
    measure t 0 = sha512 (List.replicate 64 0 ++ toBe 64 Config.romDigest.toNat) ∧
    (∀ k, k ≠ 0 → measure t k = List.replicate 64 0) ∧
    t = { s with fry := { s.fry with slot := straps }, pwr := { s.pwr with power := .on, vset := t.pwr.vset },
                 sec := { s.sec with phase := .soliciting, meas := t.sec.meas } }

end Sys2Proof.Claim

/-- Power and the start of boot: `powerTransitions`; `bootStarts`. -/
def Obligations.PowerAndBootStart : Prop := powerTransitions ∧ bootStarts

/-- The download session (spec/17 R433-R435, Tables 17-2, 17-3): SOLICIT goes to the management host of a steward; the
first acceptable OFFER opens the session and a later one is ignored; a BLOCK of the session is stored at SEQ × 4,096, one
already received is ignored; STATE shows the lowest block missing; a silent session is abandoned. -/
def Obligations.DownloadSession : Prop :=
  (∀ s : State, s.sec.phase = .soliciting → s.fry.slot = 0 → s.hub.link = true → Does .solicit s fun t =>
    ∃ b, t = { s with outs := .image mgmtSelf allNodes b :: s.outs } ∧ imgType b = 1 ∧ imgSession b = 0 ∧ imgOk b = true ∧
      fld b 34 2 = (if s.sec.ownerSet then 1 else 0) ∧ fld b 36 4 = s.sec.svnFloor.toNat ∧ fld b 40 4 = 536870912) ∧
  (∀ (d : Datagram) (s : State), accepted s d → imgType d.bytes = 2 → s.sec.phase = .soliciting →
    (imgTarget d.bytes = 0xFFFF ∨ imgTarget d.bytes = ownModule s) → imgSession d.bytes ≠ 0 → d.bytes.length = 24 →
    fld d.bytes 16 4 % 4096 = 0 → 1052672 ≤ fld d.bytes 16 4 → fld d.bytes 16 4 ≤ 536870912 → Does (.offer d) s fun t =>
      t = { s with sec := { s.sec with phase := .open_, session := { id := imgSession d.bytes, via := .port d.host,
                                                                     size := fld d.bytes 16 4, last := s.hub.time } } } ∧
      ∀ e : Datagram, accepted t e → exec (.offer e) t = .next t) ∧
  (∀ (d : Datagram) (s : State), accepted s d → imgType d.bytes = 3 → s.sec.phase = .open_ → imgMine s d.bytes = true →
    imgSession d.bytes = s.sec.session.id → d.bytes.length = 4112 → imgSeq d.bytes < s.sec.session.size / 4096 →
    (imgSeq d.bytes ∈ s.sec.session.got → exec (.block d none) s = .next s) ∧
    (imgSeq d.bytes ∉ s.sec.session.got → Does (.block d none) s fun t =>
      (∀ k, k ∈ t.sec.session.got ↔ k = imgSeq d.bytes ∨ k ∈ s.sec.session.got) ∧
      (∀ a, memGet t.sec.session.staging a =
        if imgSeq d.bytes * 4096 ≤ a ∧ a < imgSeq d.bytes * 4096 + 4096 then d.bytes.getD (16 + (a - imgSeq d.bytes * 4096)) 0
        else memGet s.sec.session.staging a) ∧
      t.sec.session.last = s.hub.time)) ∧
  (∀ (h : ImgHost) (s : State), s.sec.phase = .open_ → s.sec.session.via = .port h → Does .imageStateSend s fun t =>
    ∃ b n, t = { s with outs := .image mgmtSelf h b :: s.outs } ∧ imgType b = 4 ∧ imgOk b = true ∧
      imgSession b = s.sec.session.id ∧ fld b 16 4 = n % 2 ^ 32 ∧ (∀ k, k < n → k ∈ s.sec.session.got) ∧
      (n < s.sec.session.size / 4096 → n ∉ s.sec.session.got)) ∧
  ∀ s : State, s.sec.phase = .open_ → exec .sessionAbandon s =
    .next { s with sec := { s.sec with phase := .soliciting, session := {} } }

namespace Sys2Proof.Claim

/-- DONE (spec/17 R435, Table 17-1 steps 5 to 7): each goes to the session's host with the status and digest of the check;
after the third, a bundle that passed stands in the bundle cache, PUR_FW shows its BUILD, and, where the loader lies in
the bundle as the check has found it, hart 0 starts; one that failed runs nothing, and the module asks again. -/
def doneHandsOver : Prop :=
  ∀ (h : ImgHost) (s : State), s.sec.phase = .decided → s.sec.session.via = .port h → Does .imageDoneSend s fun t =>
    (∃ rest b, t.outs = rest ++ .image mgmtSelf h b :: s.outs ∧ imgType b = 5 ∧ fld b 14 2 = s.sec.session.verdict.code ∧
      imgSession b = s.sec.session.id ∧ b.drop 16 = s.sec.session.digest) ∧
    (s.sec.session.dones < 2 → t = { s with outs := t.outs, sec := { s.sec with session :=
      { s.sec.session with dones := s.sec.session.dones + 1 } } }) ∧
    (2 ≤ s.sec.session.dones → s.sec.session.verdict ≠ .ok → t.hub = s.hub ∧ t.mem = s.mem ∧ t.pur = s.pur ∧
      t.sec = { s.sec with phase := .restart, session := {} }) ∧
    (2 ≤ s.sec.session.dones → s.sec.session.verdict = .ok → t.sec.phase = .running ∧
      t.pur.fw = BitVec.ofNat 32 (fld (memRead s.sec.session.staging 0 256) 12 4) ∧
      t.sec.svn = BitVec.ofNat 32 (fld (memRead s.sec.session.staging 0 256) 8 4) ∧ t.sec.source = 1 ∧
      t.sec.ownerVerified = s.sec.ownerSet ∧ t.mem.gran = [] ∧
      (clean s → 256 ≤ s.sec.session.size → (∀ e, imageOf (memRead s.sec.session.staging 0 256) 3 = some e →
        fld e 4 4 + fld e 8 4 ≤ s.sec.session.size) → s.sec.session.size ≤ 536870912 →
        t.hub.harts = 1 ∧ ∃ entry, .hart 0 entry ∈ t.outs))

/-- The check of R442 fails closed: a signed part below the fused SVN floor, one of another form or size, a vendor key whose
hash is not the fused one, or a missing owner signature or another owner key where OWNER_SET is 1, ends the check with a
status that is not OK. -/
def badBundlesFail : Prop :=
  ∀ (s : State) (size : Nat) (m : Bytes),
    (fld m 8 4 < s.sec.svnFloor.toNat ∨ fld m 0 2 ≠ 1 ∨ fld m 4 4 ≠ size ∨
      sha512 ((m.drop (256 + 64 * fld m 16 2 + 4)).take 133) ≠ toBe 64 Config.rootHash.toNat ∨
      (s.sec.ownerSet = true ∧ (fld m 2 2 % 2 ≠ 1 ∨
        sha512 ((m.drop (256 + 64 * fld m 16 2 + 269)).take 133) ≠ ownerHashBytes s))) →
    ∃ st hashed, headCheck s size m = some (st, hashed) ∧ st ≠ .ok

end Sys2Proof.Claim

/-- The end of a download: only a bundle that passed its check runs: `doneHandsOver`; `badBundlesFail`. -/
def Obligations.CheckedBundlesRun : Prop := doneHandsOver ∧ badBundlesFail

/-- The fuses (spec/17 R443, R444): a write of v to SEC_SVN_CTL through the management path raises the floor to v when v is
above the floor and at most the running bundle's SVN, 64 times at most; any other write leaves every fuse as it was and is
logged. PROGRAM sets OWNER_SET, through the management path only and for good. -/
def Obligations.FusesAreWrittenOnce : Prop :=
  (∀ (v : W64) (s : State), s.sec.phase = .running → s.sec.svnFloor.toNat < v.toNat % 2 ^ 32 →
    v.toNat % 2 ^ 32 ≤ s.sec.svn.toNat → s.sec.raises < 64 → exec (.svnFloorRaise .mgmt v) s = .next { s with sec := { s.sec with
      svnFloor := BitVec.ofNat 32 v.toNat, raises := s.sec.raises + 1 } }) ∧
  (∀ (a : Agent) (v : W64) (s : State),
    a ≠ .mgmt ∨ v.toNat % 2 ^ 32 ≤ s.sec.svnFloor.toNat ∨ s.sec.svn.toNat < v.toNat % 2 ^ 32 ∨ 64 ≤ s.sec.raises →
    Does (.svnFloorRaise a v) s fun t => t = { s with evt := t.evt, outs := t.outs } ∧
      (s.evt.buf < 256 → t.evt.head = s.evt.head + 1 ∧
        tabGet {} t.evt.log (s.evt.head.toNat % 65536) =
          { seq := s.evt.head, time := s.hub.time, code := some .protWrite, source := 0xF000,
            detail := toLe 8 0xF00004000018 ++ toLe 8 v.toNat })) ∧
  (∀ (v : W64) (s : State), s.sec.ownerSet = false → exec (.ownerHashProgram .mgmt v) s =
    .next (if v.getLsbD 0 then { s with sec := { s.sec with ownerSet := true } } else s)) ∧
  ∀ (a : Agent) (v : W64) (s : State), a ≠ .mgmt ∨ s.sec.ownerSet = true → Does (.ownerHashProgram a v) s fun t =>
    t = { s with evt := t.evt, outs := t.outs } ∧ (s.evt.buf < 256 → t.evt.head = s.evt.head + 1)

namespace Sys2Proof.Claim

/-- Measurements (spec/17 R445, R446, Table 17-12): GO extends slot 5, 6 or 7 with the digest in SEC_EXT_DATA; a GO with
another slot, and a write by any agent but the management path and hypervisor harts, extends nothing and is logged. -/
def measurementExtendRule : Prop :=
  ∀ (a : Agent) (v : W64) (s : State),
    (a = .mgmt ∨ (∃ h, a = .hart h true) → v.getLsbD 63 = true → 5 ≤ v.toNat % 8 → Does (.measurementExtend a v) s fun t =>
      measure t (v.toNat % 8) = sha512 (measure s (v.toNat % 8) ++ extDigest s) ∧
      (∀ k, k ≠ v.toNat % 8 → measure t k = measure s k) ∧ t.sec.extends_ = s.sec.extends_ + 1 ∧
      t = { s with sec := { s.sec with meas := t.sec.meas, extSlot := t.sec.extSlot, extends_ := t.sec.extends_ } }) ∧
    ((a ≠ .mgmt ∧ ∀ h, a ≠ .hart h true) ∨ (v.getLsbD 63 = true ∧ v.toNat % 8 < 5) → Does (.measurementExtend a v) s fun t =>
      t.sec.meas = s.sec.meas ∧ t.sec.extends_ = s.sec.extends_ ∧ (s.evt.buf < 256 → t.evt.head = s.evt.head + 1))

/-- ATTEST (spec/17 R449, R450, Table 17-10): from a mailbox of every partition, with DST in the wheelhouse region below the
bundle cache, it writes the report and completes with OK and the bytes written; the report holds the SVN, the floor, the
nonce, the time and the eight measurement slots. -/
def attestWritesReport : Prop :=
  ∀ (id : Nat) (c : PCmd) (s : State), getCmd s id = some c → c.opcode = 0x05 → c.phase = .held → c.guest = none →
    purWorks s = true → unfenced s id c = true → (getMb s c.mb).parts = 0xFFFF → c.desc.length = 64 →
    fld c.desc 16 8 % 64 = 0 → wheelBase ≤ fld c.desc 16 8 → fld c.desc 16 8 + 1024 ≤ cacheBase → fld c.desc 24 1 = 0 →
    s.mem.badHbm = [] → s.mem.badSram = [] → (∀ k, (measure s k).length = 64) →
    Does (.attest id) s fun t =>
      let r := memRead t.mem.bytes (fld c.desc 16 8) 1024
      r.length = 1024 ∧ fld r 4 4 = s.sec.svn.toNat ∧ fld r 8 4 = s.sec.svnFloor.toNat ∧
      (r.drop 32).take 32 = (c.desc.drop 32).take 32 ∧ fld r 64 8 = s.hub.time.toNat ∧
      (∀ k, k < 8 → (r.drop (256 + 64 * k)).take 64 = measure s k) ∧
      (getMb t c.mb).held = (getMb s c.mb).held ++ [{ seq := c.seq, status := .ok, opcode := c.opcode, tag := c.tag,
                                                      detail := 1024 }] ∧
      (∀ a, a < fld c.desc 16 8 ∨ fld c.desc 16 8 + 1024 ≤ a → memGet t.mem.bytes a = memGet s.mem.bytes a)

end Sys2Proof.Claim

/-- Measurements and the report over them: `measurementExtendRule`; `attestWritesReport`. -/
def Obligations.MeasuredAndAttested : Prop := measurementExtendRule ∧ attestWritesReport

/-! ### The management path -/

namespace Sys2Proof.Claim

/-- MGMT_REQ (spec/17 R437): while the firmware runs, a request of a session reads a register or writes one that it may, and
the answer carries the status and the data; a request outside the list is not made and answered INTERNAL; a repeated
request is answered again and not executed; the steward passes a host's message for a member on. -/
def managementRequests : Prop :=
  ∀ (d : Datagram) (s : State), accepted s d → imgType d.bytes = 0x10 → pursing s = true → imgMine s d.bytes = true →
    imgSession d.bytes ≠ 0 → d.bytes.length = 40 →
    (∀ r ∈ s.sec.resps, ¬ (r.1 = imgSession d.bytes ∧ r.2.1 = BitVec.ofNat 32 (imgSeq d.bytes))) →
    (fld d.bytes 16 1 = 0 → fld d.bytes 24 8 % 8 = 0 → blockOf (fld d.bytes 24 8) ≠ none → Does (.mgmtReq d) s fun t =>
      ∃ b, t.outs = .image mgmtSelf d.host b :: s.outs ∧ imgType b = 0x11 ∧ fld b 14 2 = 0 ∧ imgSession b = imgSession d.bytes ∧
        imgSeq b = imgSeq d.bytes ∧ fld b 32 8 = (regValue s (fld d.bytes 24 8)).toNat ∧
        exec (.mgmtReq d) t = .next { t with outs := .image mgmtSelf d.host b :: t.outs }) ∧
    (fld d.bytes 16 1 = 1 → fld d.bytes 24 8 % 8 = 0 → mgmtMayWrite s (fld d.bytes 24 8) = true → Does (.mgmtReq d) s fun t =>
      ∃ u b, exec (.registerWrite .mgmt (fld d.bytes 24 8) (BitVec.ofNat 64 (fld d.bytes 32 8))) s = .next u ∧
        fld b 14 2 = 0 ∧ t = { u with outs := .image mgmtSelf d.host b :: u.outs, sec := { u.sec with resps := t.sec.resps } }) ∧
    (fld d.bytes 16 1 ≤ 1 → fld d.bytes 24 8 % 8 ≠ 0 → s.evt.buf < 256 → Does (.mgmtReq d) s fun t =>
      (tabGet {} t.evt.log (s.evt.head.toNat % 65536)).code = some .badAccess ∧ t.evt.head = s.evt.head + 1 ∧
      (∃ b outs, t.outs = .image mgmtSelf d.host b :: outs ∧ fld b 14 2 = (if fld d.bytes 16 1 = 0 then 0 else 0xFF) ∧
        (fld d.bytes 16 1 = 0 → fld b 32 8 = 0)) ∧ t = { s with evt := t.evt, outs := t.outs, sec := t.sec }) ∧
    (fld d.bytes 16 1 = 1 → fld d.bytes 24 8 % 8 = 0 → mgmtMayWrite s (fld d.bytes 24 8) = false → (blockOf (fld d.bytes 24 8)).map (·.1) ≠ some .prt →
      Does (.mgmtReq d) s fun t => ∃ b, t = { s with outs := .image mgmtSelf d.host b :: s.outs, sec := t.sec } ∧
        fld b 14 2 = 0xFF ∧ t.sec = { s.sec with resps := t.sec.resps })

/-- A DATA frame of operation `op` that its path accepts: the port live and not being calibrated, the path up, generation,
destination and sequence number right, with free cells (spec/16 R407, R412, spec/14 R363). -/
def arrives (s : State) (p : Nat) (f : FFrame) (op : Nat) : Prop :=
  f.typ = .data ∧ f.op = op ∧ portCarries s p = true ∧ pathUp s p f.src = true ∧ f.gen = (getPath s p f.src).gen ∧
  f.dst = ownModule s ∧ f.seq = (getPath s p f.src).exp ∧ cellsFree s p f = true

/-- The state once a path has accepted a DATA frame, before its operation acts. -/
def received (s : State) (p : Nat) (f : FFrame) : State := (acceptData s p f).1

/-- The steward's relay (spec/17 R436): a host's message for a member goes to it as an MGMT frame and its host is kept; a
member's message, kept when its MGMT frame arrives, goes with TARGET set to the member to the host that last sent for it, or
to ff02::1. -/
def stewardRelays : Prop :=
  (∀ (d : Datagram) (s : State), isSteward s = true → pursing s = true → accepted s d → imgTarget d.bytes ≠ ownModule s →
    imgTarget d.bytes / 64 = s.fry.berth.toNat → Does (.imageMessageRelay (some d)) s fun t =>
      tabFind t.sec.hosts (imgTarget d.bytes) = some d.host ∧
      ∀ p u, choosePort s (imgTarget d.bytes) = some (p, u) →
        (getPath t p (imgTarget d.bytes)).sendq =
          (getPath s p (imgTarget d.bytes)).sendq ++ [{ op := 0x0D, vc := 7, payload := d.bytes }]) ∧
  (∀ (x : Nat) (b : Bytes) (rest : List (Nat × Bytes)) (s : State), isSteward s = true → pursing s = true →
    s.sec.relay = (x, b) :: rest → s.sec.autoserve = false → tabGet 0 s.sec.served x = 0 → s.hub.link = true →
    exec (.imageMessageRelay none) s = .next { s with
      outs := .image mgmtSelf ((tabFind s.sec.hosts x).getD allNodes) (b.take 2 ++ toLe 2 x ++ b.drop 4) :: s.outs,
      sec := { s.sec with relay := rest } }) ∧
  ∀ (p : Nat) (f : FFrame) (cached : Bool) (bad : Option Nat) (s : State), arrives s p f 0x0D → isSteward s = true → imgOk f.payload = true →
    Does (.ferryMgmt p f cached bad) s fun t =>
      t.sec = { s.sec with relay := s.sec.relay ++ [(f.src, f.payload)] } ∧ t = { received s p f with sec := t.sec }

end Sys2Proof.Claim

/-- The management path and its relay: `managementRequests`; `stewardRelays`. -/
def Obligations.ManagementPath : Prop := managementRequests ∧ stewardRelays

/-! ### Contexts, partitions, regulators -/

namespace Sys2Proof.Claim

/-- Agents that may write the PRT block (spec/14 R345). -/
def prtWriter (a : Agent) : Prop := a = .purser ∨ ∃ h, a = .hart h true

/-- Enabling a context (spec/14 R347, Table 14-1): with every check passed it takes part and ERR is 0; while its disable is
not finished ENABLE stays 0, ERR is 6 and an event is logged; ACC_BASE + ACC_SIZE above 64 gives ERR 2, a resident slot
taken on a shared core ERR 1. No other context and no share changes. -/
def contextEnableChecks : Prop :=
  ∀ (a : Agent) (c : Nat) (v : W64) (s : State), prtWriter a → c < 128 → (getCtx s c).enable = false →
    Does (.contextEnable a c v) s fun t =>
      (enableErr s c = 0 → (getCtx t c).enable = true ∧ (getCtx t c).err = 0 ∧ t.evt = s.evt) ∧
      ((getCtx s c).disabling = true → (getCtx t c).enable = false ∧ (getCtx t c).err = 6 ∧
        (s.evt.buf < 256 → t.evt.head = s.evt.head + 1)) ∧
      ((getCtx s c).disabling = false → (∃ d x, (d, x) ∈ s.prt.ctxs ∧ d ≠ c ∧ d % 8 = c % 8 ∧ x.enable = true ∧
        ∃ k, k < 128 ∧ (getCtx s c).cores.getLsbD k = true ∧ x.cores.getLsbD k = true) →
        (getCtx t c).enable = false ∧ (getCtx t c).err = 1) ∧
      (getCtx t c).weight.toNat = max 1 (min 16 (v.toNat / 2 ^ 48 % 32)) ∧
      (getCtx t c).cores = (getCtx s c).cores ∧ (getCtx t c).pin = (getCtx s c).pin ∧ (getCtx t c).queue = (getCtx s c).queue ∧
      (∀ d, d ≠ c → getCtx t d = getCtx s d) ∧ t.prt.parts = s.prt.parts ∧
      t = { s with prt := t.prt, evt := t.evt, outs := t.outs }

/-- Clearing ENABLE is the disable point of a context (spec/14 R348, spec/15 R387, R388): ENABLE reads 0 and DISABLING 1;
every command it has waiting on an engine is marked to stop; the queues and registers of other contexts are as before; a
later offer of it completes with DISABLED. Said here where no request, no gather command and no HALT is in hand. -/
def contextDisablePoint : Prop :=
  ∀ (a : Agent) (c : Nat) (v : W64) (s : State), prtWriter a → c < 128 → (getCtx s c).enable = true → s.pur.reqs = [] →
    s.gth.engs = [] → (∀ e d, (getQ s e d).halt = false) → s.engs.Pairwise (fun x y => x.1 < y.1) →
    (∀ x ∈ s.engs, x.2.ctxs.Pairwise fun y z => y.1 < z.1) → Does (.contextDisable a c v) s fun t =>
      (getCtx t c).enable = false ∧ (getCtx t c).disabling = true ∧ (∀ d, d ≠ c → getCtx t d = getCtx s d) ∧
      (∀ e d, d ≠ c → getQ t e d = getQ s e d) ∧
      (∀ e, engOfSelector (engKey e) = some e → (getQ t e c).queue.map (·.bytes) = (getQ s e c).queue.map (·.bytes) ∧
        ∀ q ∈ (getQ t e c).queue, q.verdict ≠ none) ∧
      (∀ (e : Eng) (cmd : Bytes), cmdCtx cmd = c → offerCmd t e cmd none = (t, .ended .disabled)) ∧
      t.prt.parts = s.prt.parts

/-- A disable finishes (spec/15 R390, spec/14 R348, spec/18 R456): once no command of the context is in flight, its maps,
banks, HALT bits and pins are cleared everywhere and its shares are released; a closing mailbox with nothing in flight is
closed. While a command is in flight nothing is released. -/
def disablesFinish : Prop :=
  (∀ (c : Nat) (s : State), (getCtx s c).disabling = true → s.engs = [] → ctxBusy s c = false → s.pur.reqs = [] →
    Does (.disableFinish (.context c)) s fun t =>
      (getCtx t c).disabling = false ∧ (getCtx t c).holds = (getCtx s c).enable ∧
      (∀ k, k < 128 → tabFind (getCore t k).maps c = none) ∧
      (∀ g ∈ t.mem.gran, ∀ p ∈ g.2.pins, p.1 ≠ c) ∧ (∀ d, d ≠ c → getCtx t d = getCtx s d)) ∧
  (∀ (c : Nat) (s : State), s.engs = [] → ctxBusy s c = true → exec (.disableFinish (.context c)) s = .next s) ∧
  ∀ (m : Nat) (s : State), (getMb s m).state = .closing → (getMb s m).held = [] → s.engs = [] →
    (∀ p ∈ s.pur.cmds, p.2.mb ≠ m) → Does (.disableFinish (.mailbox m)) s fun t =>
      getMb t m = { getMb s m with state := .closed } ∧ (∀ n, n ≠ m → getMb t n = getMb s n) ∧
      t = { s with mbs := t.mbs }

end Sys2Proof.Claim

/-- A context from its enabling to the end of its disable: `contextEnableChecks`; `contextDisablePoint`; `disablesFinish`. -/
def Obligations.ContextsComeAndGo : Prop := contextEnableChecks ∧ contextDisablePoint ∧ disablesFinish

namespace Sys2Proof.Claim

/-- QUERY_CTX (spec/14 R349): a write stores the value written, or the largest that keeps the sum over all partitions at
1,024; nothing else changes. -/
def queryContextsSumTo1024 : Prop :=
  ∀ (a : Agent) (p : Nat) (v : W64) (s : State), prtWriter a → p < 16 →
    let others := (((List.range 16).filter (· ≠ p)).map fun i => (getPart s i).queryCtx.toNat).sum
    Does (.queryCtxWrite a p v) s fun t =>
      (getPart t p).queryCtx.toNat = min (v.toNat % 2048) (1024 - others) ∧
      (∀ i, i ≠ p → getPart t i = getPart s i) ∧ (getPart t p).windows = (getPart s p).windows ∧
      (getPart t p).buckets = (getPart s p).buckets ∧ t = { s with prt := { s.prt with parts := t.prt.parts } }

/-- Regulators (spec/14 R360): setting ENABLE fills the bucket to BURST; a piece is admitted while the tokens are not below
0 and nothing waits before it, and takes 1,000 tokens a byte; else it waits, first in, first out; a disabled bucket
admits every piece at once. Nothing else of the state changes. -/
def regulatorBuckets : Prop :=
  (∀ (a : Agent) (p k : Nat) (v : W64) (s : State), prtWriter a → p < 16 → k < 9 →
    (tabGet {} (getPart s p).buckets k).enable = false → Does (.bucketEnable a p k v) s fun t =>
      let b := tabGet {} (getPart t p).buckets k
      b.enable = true ∧ b.burst.toNat = max 4096 (v.toNat / 2 ^ 32 % 2 ^ 31) ∧ b.rate.toNat = max 1 (v.toNat % 2 ^ 32) ∧
      b.tokens = 1000 * (b.burst.toNat : Int) ∧
      (∀ j, j ≠ k → tabGet {} (getPart t p).buckets j = tabGet {} (getPart s p).buckets j) ∧
      (∀ q, q ≠ p → getPart t q = getPart s q) ∧ t = { s with prt := { s.prt with parts := t.prt.parts } }) ∧
  ∀ (p k : Nat) (s : State),
    let b := tabGet {} (getPart s p).buckets k
    ∀ piece : Option Nat, Does (.bucketPieceAdmit p k piece) s fun t =>
      (b.enable = false → t = s) ∧
      (b.enable = true →
        tabGet {} (getPart t p).buckets k =
          (match piece, b.waiting with
          | none, [] => b
          | none, n :: rest => if b.tokens < 0 then b else { b with tokens := b.tokens - 1000 * n, waiting := rest }
          | some n, [] => if b.tokens < 0 then { b with waiting := [n] } else { b with tokens := b.tokens - 1000 * n }
          | some n, w => { b with waiting := w ++ [n] }) ∧
        (∀ j, j ≠ k → tabGet {} (getPart t p).buckets j = tabGet {} (getPart s p).buckets j) ∧
        (∀ q, q ≠ p → getPart t q = getPart s q) ∧ t = { s with prt := { s.prt with parts := t.prt.parts } })

end Sys2Proof.Claim

/-- What a partition may hold and how fast it may go: `queryContextsSumTo1024`; `regulatorBuckets`. -/
def Obligations.PartitionLimits : Prop := queryContextsSumTo1024 ∧ regulatorBuckets

/-! ### Mailboxes -/

namespace Sys2Proof.Claim

/-- A mailbox opens (spec/15 R371): a closed one becomes opening with the revisions offered; the purser then chooses
revision 4, the only one it has, when it is offered, with every count zero, and otherwise reports VERSION_MISMATCH and
closes it; an open in any other state is refused with BAD_CTL and an event. -/
def mailboxesOpen : Prop :=
  ∀ (a : Agent) (m lo hi : Nat) (s : State), m < 64 → mbReach s a m = true →
    ((getMb s m).state = .closed → Does (.mailboxOpen a m lo hi) s fun t =>
      getMb t m = { getMb s m with state := .opening, revMin := BitVec.ofNat 8 lo, revMax := BitVec.ofNat 8 hi } ∧
      (∀ n, n ≠ m → getMb t n = getMb s n) ∧ t = { s with mbs := t.mbs }) ∧
    ((getMb s m).state ≠ .closed → Does (.mailboxOpen a m lo hi) s fun t =>
      getMb t m = { getMb s m with err := (getMb s m).err ||| 8 } ∧ (s.evt.buf < 256 → t.evt.head = s.evt.head + 1) ∧
      (∀ n, n ≠ m → getMb t n = getMb s n) ∧ t = { s with mbs := t.mbs, evt := t.evt, outs := t.outs }) ∧
    ((getMb s m).state = .opening → purWorks s = true →
      let x := getMb s m
      (x.revMin.toNat ≤ 4 → 4 ≤ x.revMax.toNat → Does (.mailboxOpenResolve m) s fun t =>
        getMb t m = { x with state := .opened, rev := 4, result := .ok, nextSeq := 0, outstanding := 0, err := 0,
                             doorbell := 0, reqHead := 0, cplHead := 0, cplTail := 0 } ∧
        (∀ n, n ≠ m → getMb t n = getMb s n) ∧ t = { s with mbs := t.mbs }) ∧
      (4 < x.revMin.toNat ∨ x.revMax.toNat < 4 → Does (.mailboxOpenResolve m) s fun t =>
        getMb t m = { x with state := .closed, result := .versionMismatch } ∧
        (s.evt.buf < 256 → t.evt.head = s.evt.head + 1) ∧ t = { s with mbs := t.mbs, evt := t.evt, outs := t.outs }))

/-- Doorbells and the completion tail (spec/15 R368, R369): a value in range is stored; one that goes back, or past what the
ring holds, is ignored, sets BAD_DOORBELL or BAD_TAIL and logs an event. -/
def ringPointersStayInRange : Prop :=
  ∀ (a : Agent) (m : Nat) (v : W64) (s : State), m < 64 → mbReach s a m = true → s.evt.buf < 256 →
    let x := getMb s m
    (x.state = .opened → x.doorbell ≤ v → v.toNat ≤ x.reqHead.toNat + 256 → Does (.mbDoorbell a m v) s fun t =>
      getMb t m = { x with doorbell := v } ∧ t = { s with mbs := t.mbs }) ∧
    (x.state ≠ .opened ∨ v < x.doorbell ∨ x.reqHead.toNat + 256 < v.toNat → Does (.mbDoorbell a m v) s fun t =>
      getMb t m = { x with err := x.err ||| 1 } ∧ t.evt.head = s.evt.head + 1 ∧
      t = { s with mbs := t.mbs, evt := t.evt, outs := t.outs }) ∧
    (x.cplTail ≤ v → v ≤ x.cplHead → Does (.mbCplTailWrite a m v) s fun t =>
      getMb t m = { x with cplTail := v } ∧ t = { s with mbs := t.mbs }) ∧
    (v < x.cplTail ∨ x.cplHead < v → Does (.mbCplTailWrite a m v) s fun t =>
      getMb t m = { x with err := x.err ||| 16 } ∧ t.evt.head = s.evt.head + 1 ∧
      t = { s with mbs := t.mbs, evt := t.evt, outs := t.outs })

/-- Taking a descriptor (spec/15 R372, R374, R376): only of the mailbox whose turn it is, one that is open, has a descriptor
posted and fewer than 4,096 commands outstanding. With the expected SEQ and zero reserved fields a command that is no stage
waits with the next command number, and NEXT_SEQ counts on; with another SEQ it completes with INTERNAL and BAD_SEQ is set
while NEXT_SEQ stands. REQ_HEAD and OUTSTANDING count both, and the turn passes on. -/
def descriptorsAreTaken : Prop :=
  (∀ (m : Nat) (s : State), turnMailbox s ≠ some m → exec (.descriptorTake m) s = .next s) ∧
  (∀ (m : Nat) (s : State), turnMailbox s = some m → m < 64 ∧ (getMb s m).state = .opened ∧
    (getMb s m).reqHead.toNat < (getMb s m).doorbell.toNat ∧ (getMb s m).outstanding < 4096) ∧
  ∀ (m : Nat) (s : State), turnMailbox s = some m → purWorks s = true →
    let x := getMb s m
    let d := descriptorAt x x.reqHead.toNat
    (fld d 2 2 = x.nextSeq.toNat → descriptorOk d = true → (fld d 0 1 < 0x10 ∨ 0x16 < fld d 0 1) →
      Does (.descriptorTake m) s fun t =>
        getMb t m = { x with reqHead := x.reqHead + 1, outstanding := x.outstanding + 1, nextSeq := x.nextSeq + 1 } ∧
        (∃ c, getCmd t s.pur.nextId = some c ∧ c.mb = m ∧ c.seq = x.nextSeq ∧ c.opcode.toNat = fld d 0 1 ∧ c.desc = d ∧
          c.phase = .held ∧ c.tag.toNat = fld d 8 8) ∧
        (∀ i, i ≠ s.pur.nextId → getCmd t i = getCmd s i) ∧ t.pur.nextId = s.pur.nextId + 1 ∧
        t.pur.turn = (m + 1) % 64 ∧ t.engs = s.engs ∧ t.mem = s.mem) ∧
    (fld d 2 2 ≠ x.nextSeq.toNat → Does (.descriptorTake m) s fun t =>
      (getMb t m).nextSeq = x.nextSeq ∧ (getMb t m).err = x.err ||| 4 ∧ (getMb t m).reqHead = x.reqHead + 1 ∧
      ∃ r, (getMb t m).held = x.held ++ [r] ∧ r.status = .internal ∧ r.seq.toNat = fld d 2 2 ∧
        r.detail.toNat % 65536 = x.nextSeq.toNat)

/-- Completion and progress records (spec/15 R369, R370, R378): with room in the ring the first record that waits is written
at CPL_HEAD, which rises by one, OUTSTANDING falls when the descriptor had been taken, and the hart is interrupted when
IRQ_EN is set; without room the record waits and CPL_FULL is set. A progress record is written only at a step boundary,
with PROGRESS set, after 1 ms, with 256 slots free, and never counts. -/
def completionRecords : Prop :=
  (∀ (m : Nat) (s : State) (r : CplRec) (rest : List CplRec), (getMb s m).held = r :: rest → (getMb s m).state ≠ .closed →
    (getMb s m).cplHead.toNat - (getMb s m).cplTail.toNat < 512 → Does (.completionWrite m) s fun t =>
      let x := getMb s m
      let at0 := x.cplHead.toNat % 512 * 4
      (getMb t m).held = rest ∧ (getMb t m).cplHead = x.cplHead + 1 ∧
      (getMb t m).outstanding = (if r.taken then x.outstanding - 1 else x.outstanding) ∧
      tabGet 0 (getMb t m).cpl (at0 + 1) = r.tag ∧ tabGet 0 (getMb t m).cpl (at0 + 2) = r.detail ∧
      tabGet 0 (getMb t m).cpl (at0 + 3) = s.hub.time ∧
      (tabGet 0 (getMb t m).cpl at0).toNat = r.seq.toNat + r.status.code * 2 ^ 16 + r.opcode.toNat * 2 ^ 32 ∧
      (getMb t m).nextSeq = x.nextSeq ∧ (getMb t m).reqHead = x.reqHead ∧
      t.outs = (if x.irqEn then [Out.irq x.irqHart.toNat (.mailbox m)] else []) ++ s.outs ∧
      (∀ n, n ≠ m → getMb t n = getMb s n) ∧ t = { s with mbs := t.mbs, outs := t.outs }) ∧
  (∀ (m : Nat) (s : State) (r : CplRec) (rest : List CplRec), (getMb s m).held = r :: rest → (getMb s m).state ≠ .closed →
    512 ≤ (getMb s m).cplHead.toNat - (getMb s m).cplTail.toNat → Does (.completionWrite m) s fun t =>
      getMb t m = { getMb s m with err := (getMb s m).err ||| 2 } ∧ t = { s with mbs := t.mbs }) ∧
  (∀ (m id : Nat) (c : PCmd) (s : State), getCmd s id = some c → c.stepped = false → exec (.progressWrite m id) s = .next s) ∧
  ∀ (m id : Nat) (c : PCmd) (s : State), getCmd s id = some c → c.mb = m → c.stepped = true → c.flags.getLsbD 1 = true →
    c.phase = .running →
    (getMb s m).state ≠ .closed → c.lastProgress.toNat + 1000000 ≤ s.hub.time.toNat →
    (getMb s m).cplHead.toNat - (getMb s m).cplTail.toNat ≤ 256 → Does (.progressWrite m id) s fun t =>
      (getMb t m).cplHead = (getMb s m).cplHead + 1 ∧ (getMb t m).outstanding = (getMb s m).outstanding ∧
      (tabGet 0 (getMb t m).cpl ((getMb s m).cplHead.toNat % 512 * 4)).getLsbD 40 = true ∧
      getCmd t id = some { c with stepped := false, lastProgress := s.hub.time } ∧ t = { s with mbs := t.mbs, pur := t.pur, outs := t.outs }

end Sys2Proof.Claim

/-- A descriptor from its taking to its completion record: `descriptorsAreTaken`; `completionRecords`. -/
def Obligations.DescriptorsAndCompletions : Prop := descriptorsAreTaken ∧ completionRecords

namespace Sys2Proof.Claim

/-- Closing a mailbox (spec/15 R391): it is closing, the descriptors posted and not taken complete with DISABLED, and the
commands it has taken and not started stop with ABORTED_DISABLED; other mailboxes are as before. -/
def mailboxesClose : Prop :=
  ∀ (a : Agent) (m : Nat) (s : State), m < 64 → mbReach s a m = true → (getMb s m).state = .opened → s.pur.reqs = [] →
    (∀ p ∈ s.pur.cmds, p.2.mb = m → p.2.guest = none ∧ p.2.phase = .held ∧ p.2.enq = none ∧
      (p.2.opcode.toNat < 0x10 ∨ 0x16 < p.2.opcode.toNat)) →
    s.pur.cmds.Pairwise (fun x y => x.1 < y.1) → Does (.mailboxClose a m) s fun t =>
      (getMb t m).state = .closing ∧
      (getMb t m).held.length = (getMb s m).held.length + ((getMb s m).doorbell.toNat - (getMb s m).reqHead.toNat) +
        (s.pur.cmds.filter fun p => p.2.mb = m).length ∧
      (∀ r ∈ (getMb t m).held, r ∈ (getMb s m).held ∨ r.status = .disabled ∨ r.status = .abortedDisabled) ∧
      (∀ p ∈ t.pur.cmds, p.2.mb ≠ m) ∧ ∀ n, n ≠ m → getMb t n = getMb s n

end Sys2Proof.Claim

/-- A mailbox from its opening to its closing, and its ring pointers: `mailboxesOpen`; `ringPointersStayInRange`; `mailboxesClose`. -/
def Obligations.MailboxesOpenAndClose : Prop := mailboxesOpen ∧ ringPointersStayInRange ∧ mailboxesClose

/-! ### Commands of the purser -/

namespace Sys2Proof.Claim

/-- A command that the purser may start: taken and held, of an opcode, the firmware running and not mooring, its FENCE met
(spec/15 R374, R376). -/
def mayStart (s : State) (id : Nat) (c : PCmd) (op : Nat) : Prop :=
  getCmd s id = some c ∧ c.opcode.toNat = op ∧ c.phase = .held ∧ c.guest = none ∧ c.enq = none ∧ purWorks s = true ∧ unfenced s id c = true

/-- A command of the purser has completed with a status: it is no longer in hand, and its record waits in its mailbox. -/
def completes (s t : State) (id : Nat) (c : PCmd) (st : Status) : Prop :=
  getCmd t id = none ∧ ∃ d, (getMb t c.mb).held = (getMb s c.mb).held ++
    [{ seq := c.seq, status := st, opcode := c.opcode, tag := c.tag, detail := d }]

/-- NOP completes with OK at once, and nothing else changes but the counter of open values (spec/15 R379, log 27). -/
def nopCompletes : Prop :=
  ∀ (id : Nat) (c : PCmd) (s : State), mayStart s id c 0x01 → Does (.nop id) s fun t =>
    completes s t id c .ok ∧ (∀ i, i ≠ id → getCmd t i = getCmd s i) ∧ (∀ m, m ≠ c.mb → getMb t m = getMb s m) ∧
    t = { s with mbs := t.mbs, pur := { s.pur with cmds := t.pur.cmds }, freeCtr := s.freeCtr + 1 }

/-- ENQUEUE (spec/15 R380, R381): with a listed engine, COUNT from 1 to 65,536 and an aligned list it runs; each command of a
partition of PARTS is then offered in order and, accepted, stands last in its context's queue with the context's next
CMD_SEQ; one of another partition stops the list, and with nothing else to wait for the ENQUEUE completes with INTERNAL
and DETAIL naming its index and the offers. -/
def enqueueOffersInOrder : Prop :=
  (∀ (id : Nat) (c : PCmd) (e : Eng) (s : State), mayStart s id c 0x30 → engOfSelector (fld c.desc 16 2) = some e →
    1 ≤ fld c.desc 20 4 → fld c.desc 20 4 ≤ 65536 → fld c.desc 24 8 % 64 = 0 →
    fld c.desc 24 8 + 64 * fld c.desc 20 4 ≤ 0xC000000000 → Does (.enqueue id) s fun t =>
      getCmd t id = some { c with phase := .running, enq := some { eng := e, count := fld c.desc 20 4, cmds := fld c.desc 24 8 } } ∧
      t = { s with pur := { s.pur with cmds := t.pur.cmds } }) ∧
  ∀ (id : Nat) (c : PCmd) (q : Enqueue) (s : State), getCmd s id = some c → c.enq = some q → q.stopped = false →
    q.haltFail = none → q.next < q.count → purWorks s = true → enqueueBehind s id c = false →
    s.mem.badHbm = [] → s.mem.badSram = [] → q.cmds % 64 = 0 → q.cmds + 64 * q.count ≤ 0xC000000000 →
    let b := memRead s.mem.bytes (q.cmds + 64 * q.next) 64
    let k := cmdCtx b
    ((getMb s c.mb).parts.getLsbD (k / 8) = true → (getCtx s k).enable = true → mayReach s q.eng k = true →
      q.eng.kind ≠ .core → (getQ s q.eng k).queue.length < 64 → Does (.enqueueOffer id) s fun t =>
        (∃ o, getQ t q.eng k = 
          { getQ s q.eng k with
            nextSeq := (getQ s q.eng k).nextSeq + 1, queue := (getQ s q.eng k).queue ++ [o] } ∧
          o.bytes = b ∧ o.seq = (getQ s q.eng k).nextSeq ∧ o.origin = some (id, q.next)) ∧
        getCmd t id = some { c with stepped := true, enq := some { q with
          next := q.next + 1, offered := q.offered + 1, accepted := q.accepted + 1 } } ∧
        (∀ e d, ¬ (engKey e = engKey q.eng ∧ d = k) → getQ t e d = getQ s e d) ∧
        t = { s with engs := t.engs, pur := { s.pur with cmds := t.pur.cmds, turn := (c.mb + 1) % 64 } }) ∧
    ((getMb s c.mb).parts.getLsbD (k / 8) = false → q.ended = q.accepted → q.firstFail = none →
      Does (.enqueueOffer id) s fun t => getCmd t id = none ∧
        (getMb t c.mb).held = (getMb s c.mb).held ++ [
          { seq := c.seq, status := .internal, opcode := c.opcode, tag := c.tag,
            detail := BitVec.ofNat 64 (q.next * 2 ^ 32 + (q.offered + 1) % 2 ^ 32) }] ∧ t.engs = s.engs)

end Sys2Proof.Claim

/-- NOP and ENQUEUE: `nopCompletes`; `enqueueOffersInOrder`. -/
def Obligations.PurserCommandsRun : Prop := nopCompletes ∧ enqueueOffersInOrder

/-! ### Resets -/

namespace Sys2Proof.Claim

/-- A warm reset (spec/18 R457, Tables 18-3, 18-4): the engines, the purser's work, every context, the maps and the
memory's residency return to reset; the time, the event log, the fuses, the running bundle and its measurements, HBM's
contents below the loader's place, and the issuing mailbox's configuration are kept; hart 0 starts; the completion, with OK
where no word of the loader is uncorrectable, stands in the issuing mailbox's ring. -/
def warmReset : Prop :=
  ∀ (id : Nat) (c : PCmd) (s : State), mayStart s id c 0x03 → fld c.desc 16 1 = 1 → fld c.desc 18 2 = 0 →
    (getMb s c.mb).parts = 0xFFFF → s.fry.paths = [] → s.mem.gran = [] → Does (.resetWarm id) s fun t =>
      t.engs = [] ∧ t.cores = [] ∧ t.routers = [] ∧ t.ssus = [] ∧ t.pur.cmds = [] ∧ t.pur.reqs = [] ∧ t.prt.ctxs = [] ∧
      t.mem.gran = [] ∧ t.hub.time = s.hub.time ∧ sameFuses s t ∧ t.sec.svn = s.sec.svn ∧
      (clean s → (∀ e, imageOf (memRead s.mem.bytes cacheBase 256) 3 = some e → fld e 4 4 + fld e 8 4 ≤ 536870912) →
        t.hub.harts = 1 ∧ (tabGet 0 (getMb t c.mb).cpl 0).toNat = c.seq.toNat + c.opcode.toNat * 2 ^ 32) ∧
      t.sec.phase = .running ∧ t.pur.fw = s.pur.fw ∧ (∀ k, k < 5 → measure t k = measure s k) ∧
      (∀ k, 5 ≤ k → measure t k = List.replicate 64 0) ∧
      (getMb t c.mb).state = .opened ∧ (getMb t c.mb).parts = (getMb s c.mb).parts ∧ (getMb t c.mb).nextSeq = c.seq + 1 ∧
      (getMb t c.mb).cplHead = 1 ∧ tabGet 0 (getMb t c.mb).cpl 1 = c.tag ∧
      (s.evt.buf < 256 → t.evt.head = s.evt.head + 1 ∧ (tabGet {} t.evt.log (s.evt.head.toNat % 65536)).code = some .reset)

/-- No engine has work: nothing waits, runs or is attached. -/
def quiet (s : State) : Prop :=
  s.engs = [] ∧ s.cores = [] ∧ s.fry.ops = [] ∧ s.barges = {} ∧ s.routers = [] ∧ s.pcl.slices = [] ∧ s.gth.engs = [] ∧
  s.gth.reqs = [] ∧ s.grd.slots = [] ∧ s.slip.queues = [] ∧ s.pur.reqs = []

/-- A partition reset and an engine reset (spec/18 R454-R456, Table 18-2). After the engine reset no context has a command,
a HALT or a count on the engine, and its fault record is clear; after the partition reset no context of the partition has
one on any engine, nor a map on any core, no fault record names one, and the partition's enabled buckets are full. The
RESET completes with OK; said here of its record where no engine has work. A partition outside PARTS, a reserved engine
and a reserved KIND give INTERNAL without acting. -/
def partitionAndEngineReset : Prop :=
  (∀ (id : Nat) (c : PCmd) (s : State), mayStart s id c 0x03 → fld c.desc 16 1 = 2 → fld c.desc 18 2 < 16 →
    (getMb s c.mb).parts.getLsbD (fld c.desc 18 2) = true → Does (.resetPartition id) s fun t =>
      let p := fld c.desc 18 2
      getCmd t id = none ∧ (∀ e d, d / 8 = p → getQ t e d = {}) ∧
      (∀ e, (getEng t e).fault.valid = true → (getEng t e).fault.ctx.toNat / 8 ≠ p) ∧
      (∀ d k, d / 8 = p → k < 128 → tabFind (getCore t k).maps d = none) ∧
      (∀ k, (tabGet {} (getPart t p).buckets k).enable = true →
        (tabGet {} (getPart t p).buckets k).tokens = 1000 * ((tabGet {} (getPart t p).buckets k).burst.toNat : Int)) ∧
      (quiet s → completes s t id c .ok)) ∧
  (∀ (id : Nat) (c : PCmd) (e : Eng) (s : State), mayStart s id c 0x03 → fld c.desc 16 1 = 3 →
    engOfSelector (fld c.desc 18 2) = some e → Does (.resetEngine id) s fun t =>
      getCmd t id = none ∧ (getEng t e).fault.valid = false ∧ (∀ d, getQ t e d = {}) ∧ (quiet s → completes s t id c .ok)) ∧
  ∀ (id : Nat) (c : PCmd) (s : State), mayStart s id c 0x03 →
    ((fld c.desc 16 1 = 0 ∨ 3 < fld c.desc 16 1) → ∀ i ∈ [Instr.resetWarm id, .resetPartition id, .resetEngine id],
      Does i s fun t => completes s t id c .internal ∧ t.engs = s.engs ∧ t.prt = s.prt) ∧
    (fld c.desc 16 1 = 2 → 16 ≤ fld c.desc 18 2 ∨ (getMb s c.mb).parts.getLsbD (fld c.desc 18 2) = false →
      Does (.resetPartition id) s fun t => completes s t id c .internal ∧ t.engs = s.engs ∧ t.prt = s.prt) ∧
    (fld c.desc 16 1 = 3 → engOfSelector (fld c.desc 18 2) = none →
      Does (.resetEngine id) s fun t => completes s t id c .internal ∧ t.engs = s.engs ∧ t.prt = s.prt)

end Sys2Proof.Claim

/-- The resets by command: `warmReset`; `partitionAndEngineReset`. -/
def Obligations.ResetsClearTheirReach : Prop := warmReset ∧ partitionAndEngineReset

/-! ### Engine queues -/

namespace Sys2Proof.Claim

/-- The command at the head of a context's queue on an engine, free to run: the context is not halted and no disable has
stopped the command. -/
def atHead (s : State) (e : Eng) (c op : Nat) (q : QCmd) : Prop :=
  headCmd s e c = some q ∧ q.verdict = none ∧ cmdOp q.bytes = op

/-- It is the context's turn on unit `u` of an engine, among the contexts that are ready (spec/14 R354). -/
def hasTurn (s : State) (e : Eng) (u c : Nat) (ready : List Nat) : Prop :=
  ∃ d, nextTurn s (tabGet {} (getEng s e).rr u) ready = some (d, c)

/-- The report of a command ends no MIGRATE that the purser runs for itself (spec/11 R280). -/
def plainReport (s : State) (q : QCmd) : Prop := ∀ id i p, q.origin = some (id, i) → getCmd s id = some p → p.mover = none

/-- Every queue but that of context `c` on engine `e` is as before. -/
def otherQueues (s t : State) (e : Eng) (c : Nat) : Prop :=
  ∀ f d, ¬ (engKey f = engKey e ∧ d = c) → getQ t f d = getQ s f d

/-- The head command of a context has left its queue, and nothing else of any queue has changed. -/
def headGone (s t : State) (e : Eng) (c : Nat) : Prop :=
  getQ t e c = { getQ s e c with queue := (getQ s e c).queue.tail } ∧ otherQueues s t e c

/-- The head command has failed: its context halts, and the engine's fault record keeps the first fault (spec/04 R101). -/
def headFails (s t : State) (e : Eng) (c : Nat) (q : QCmd) (st : Status) : Prop :=
  getQ t e c = { getQ s e c with queue := (getQ s e c).queue.tail, halt := true } ∧ otherQueues s t e c ∧
  ((getEng s e).fault.valid = true → (getEng t e).fault = (getEng s e).fault) ∧
  ((getEng s e).fault.valid = false → (getEng t e).fault.valid = true ∧ (getEng t e).fault.status = st ∧
    (getEng t e).fault.opcode = BitVec.ofNat 8 (cmdOp q.bytes) ∧ (getEng t e).fault.ctx = BitVec.ofNat 7 c ∧
    (getEng t e).fault.cmdSeq = q.seq)

/-- The rows about the head of a context's queue on an engine. -/
def headRows (e : Eng) (c n : Nat) : List Instr :=
  let k := e.index
  match e.kind with
  | .core => [.tamp k c, .pass k c, .epi k c n, .mapInstall k c, .mapClose k c]
  | .barge => [.move k c, .pin k c, .unpin k c, .schedule k c, .advance k c, .collective k c]
  | .gather => [.gather k c, .apply k c, .prefetch k c, .gthAttach k c, .gthDetach k c, .migrate k c]
  | .slice => [.query k c, .pclAttach k c, .pclDetach k c, .compact k c]
  | .ssu => [.topk k c, .sort k c, .merge k c, .uniqueCount k c, .filterCompact k c]
  | .router => [.route k c, .dispatch k c, .combine k c]
  | .grinder => [.tokenize c none, .load c, .unload c]
  | .slipManager => [.push c, .grant c, .take c, .dropRest c, .mark c, .rewind c, .release c]

/-- The opcodes an engine lists. -/
def listedOps : EngKind → List Nat
  | .core => [0x01, 0x02, 0x03, 0x04] | .router => [0x20, 0x21, 0x22] | .barge => [0x40, 0x41, 0x42, 0x43, 0x44, 0x45]
  | .slipManager => [0x60, 0x61, 0x68, 0x69, 0x6A, 0x6B, 0x6C] | .slice => [0x80, 0x81, 0x82, 0x83]
  | .ssu => [0xA0, 0xA1, 0xA2, 0xA3, 0xA4] | .gather => [0xC0, 0xC1, 0xC2, 0xC3, 0xC4, 0xC5] | .grinder => [0xE0, 0xE1, 0xE2]

/-- Nothing of the context, nor of a unit it shares, is under way on the engine, and no unit of the command at the head of
its queue has run. -/
def engineFree (s : State) (e : Eng) (c : Nat) : Prop :=
  match e.kind with
  | .barge => tabFind s.barges.busy e.index = none ∧ tabFind s.barges.colls (bargeKey e.index c) = none
  | .router => routerFree s e.index c = true
  | .gather => (getGe s e.index).ops = [] ∧ s.gth.moves = []
  | .ssu => ∀ q, headCmd s e c = some q → q.units = 0
  | _ => True

end Sys2Proof.Claim

/-- The offer of a command (spec/05 R120, spec/14 R346, R350): a disabled context's is not queued; one the context may not
reach is refused with an event; one with room stands last in the context's queue; a core's without room fails with
MAP_OVERFLOW, another engine's waits. A write of 1 to HALT resumes the context and nothing else. -/
def Obligations.EngineQueues : Prop :=
  (∀ (e : Eng) (cmd : Bytes) (s : State),
    let k := cmdCtx cmd
    let x := getQ s e k
    let room := if e.kind = .core then (mapInForce s e.index k).queue else 64
    ((getCtx s k).enable = false → exec (.engineCommandOffer e cmd) s = .next s) ∧
    ((getCtx s k).enable = true → mayReach s e k = false → Does (.engineCommandOffer e cmd) s fun t =>
      t = { s with evt := t.evt, outs := t.outs } ∧ (s.evt.buf < 256 → t.evt.head = s.evt.head + 1)) ∧
    ((getCtx s k).enable = true → mayReach s e k = true →
      (x.queue.length < room → Does (.engineCommandOffer e cmd) s fun t =>
        (∃ o, getQ t e k = { x with queue := x.queue ++ [o], nextSeq := x.nextSeq + 1 } ∧ o.bytes = cmd ∧
          o.seq = x.nextSeq ∧ o.origin = none) ∧ otherQueues s t e k ∧ t = { s with engs := t.engs }) ∧
      (room ≤ x.queue.length → e.kind = .core → Does (.engineCommandOffer e cmd) s fun t =>
        getQ t e k = { x with halt := true, nextSeq := x.nextSeq + 1 } ∧ otherQueues s t e k ∧
        ((getEng s e).fault.valid = false → (getEng t e).fault =
          { valid := true, opcode := BitVec.ofNat 8 (cmdOp cmd), ctx := BitVec.ofNat 7 k, resource := 3,
            status := .mapOverflow, cmdSeq := x.nextSeq })) ∧
      (room ≤ x.queue.length → e.kind ≠ .core → exec (.engineCommandOffer e cmd) s = .next s))) ∧
  ∀ (e : Eng) (c : Nat) (s : State), Does (.ctxHaltClear e c) s fun t =>
    getQ t e c = { getQ s e c with halt := false } ∧ otherQueues s t e c ∧ (getEng t e).fault = (getEng s e).fault ∧
    t = { s with engs := t.engs }

/-- How a command at the head of a context's queue ends without running, on every engine (spec/15 R388, spec/04 R101): one
that a disable has stopped leaves the queue; one whose opcode the engine does not list completes with INTERNAL, halts
its context, stands in the fault record if none does, and is logged as CMD_FAULT. Its ENQUEUE counts it, keeps the
first failure in list order, and completes with that status and index when it is the last (spec/15 R381). -/
def Obligations.HeadCommandsEnd : Prop :=
  ∀ (e : Eng) (c n : Nat) (q : QCmd) (s : State), engOfSelector (engKey e) = some e → c < 128 →
    headCmd s e c = some q → engineFree s e c → ∀ i ∈ headRows e c n,
    (∀ v, q.verdict = some v → v.halts = false → Does i s fun t =>
      headGone s t e c ∧ (getEng t e).fault = (getEng s e).fault ∧ t.mem.bytes = s.mem.bytes ∧
      ∀ id n p x, q.origin = some (id, n) → getCmd s id = some p → p.enq = some x → x.haltFail = none →
        (x.ended + 1 < x.accepted → getCmd t id = some { p with enq := some { x with
          ended := x.ended + 1
          firstFail := if v.good then x.firstFail else match x.firstFail with
            | some (j, st) => if n < j then some (n, v) else some (j, st)
            | none => some (n, v) } }) ∧
        (x.ended + 1 = x.accepted → x.next = x.count → x.firstFail = none → v.good = false →
          getCmd t id = none ∧ (getMb t p.mb).held = (getMb s p.mb).held ++
            [{ seq := p.seq, status := v, opcode := p.opcode, tag := p.tag,
               detail := BitVec.ofNat 64 (n * 2 ^ 32 + x.offered % 2 ^ 32) }])) ∧
    (q.verdict = none → cmdOp q.bytes ∉ listedOps e.kind → Does i s fun t =>
      headFails s t e c q .internal ∧
      (e.kind ≠ .core → q.origin = none → t.mem = s.mem ∧ (s.evt.buf < 256 →
        t.evt.head = s.evt.head + 1 ∧
        (tabGet {} t.evt.log (s.evt.head.toNat % 65536)).code = some .cmdFault ∧
        (tabGet {} t.evt.log (s.evt.head.toNat % 65536)).status = .internal ∧
        (tabGet {} t.evt.log (s.evt.head.toNat % 65536)).ctx = some (BitVec.ofNat 7 c))))

/-! ### Cores -/

/-- TAMP (spec/04 R91, R92, R94, R107): at the head of its queue it is checked, and a tag its context already has in a bank
of the array is a hazard; with the load path and a bank free it takes the bank, LOADING with the tile image that stands
in memory; when the image is in, the bank is READY. No other bank of the core changes. -/
def Obligations.TilesLoad : Prop :=
  (∀ (k c : Nat) (q : QCmd) (s : State), k < 128 → c < 128 → atHead s (coreEng k) c 1 q → q.checked = false →
    tampOk q.bytes = true → (cmdFence q.bytes = true → fenceClear (getCore s k) c q.bytes = true) →
    let a := bits (fld q.bytes 2 1) 1 0
    bankClaim s k c a = none →
    ((∀ b, b < 2 → ¬ ((getBank (getCore s k) a b).state ≠ .free ∧ (getBank (getCore s k) a b).ctx = c ∧
        (getBank (getCore s k) a b).tag = fld q.bytes 3 1)) → Does (.tamp k c) s fun t =>
      (getQ t (coreEng k) c).queue = { q with checked := true } :: (getQ s (coreEng k) c).queue.tail ∧
      otherQueues s t (coreEng k) c ∧ t = { s with engs := t.engs }) ∧
    (∀ b, b < 2 → (getBank (getCore s k) a b).state ≠ .free → (getBank (getCore s k) a b).ctx = c →
        (getBank (getCore s k) a b).tag = fld q.bytes 3 1 → Does (.tamp k c) s fun t =>
      headFails s t (coreEng k) c q .mapHazard ∧ ∀ a' b', getBank (getCore t k) a' b' = getBank (getCore s k) a' b')) ∧
  (∀ (k c : Nat) (q : QCmd) (bk : Nat) (s : State), k < 128 → c < 128 → atHead s (coreEng k) c 1 q → q.checked = true →
    let a := bits (fld q.bytes 2 1) 1 0
    (getCore s k).load = none → hasTurn s (coreEng k) 1 c (tampReady s k) → bankFor (getCore s k) c a (fld q.bytes 3 1) = some bk →
    clean s → mayAccess s (whoOf (coreEng k) c) (fld q.bytes 8 8) (fld q.bytes 16 4) false = true → Does (.tampStart k c) s fun t =>
      headGone s t (coreEng k) c ∧
      getBank (getCore t k) a bk = { state := .loading, ctx := c, tag := fld q.bytes 3 1, wfmt := fld q.bytes 4 1, used := true,
                                     settled := true, img := memRead s.mem.bytes (fld q.bytes 8 8) (fld q.bytes 16 4) } ∧
      (∀ a' b', a' * 2 + b' ≠ a * 2 + bk → getBank (getCore t k) a' b' = getBank (getCore s k) a' b') ∧
      (getCore t k).load = some { ctx := c, array := a, bank := bk, cmd := q } ∧
      (∀ j, j ≠ k → getCore t j = getCore s j) ∧ t.mem = s.mem) ∧
  ∀ (k : Nat) (l : LoadOp) (s : State), (getCore s k).load = some l → Does (.tampLoadDone k) s fun t =>
    getBank (getCore t k) l.array l.bank = { getBank (getCore s k) l.array l.bank with state := .ready } ∧
    (∀ a' b', a' * 2 + b' ≠ l.array * 2 + l.bank → getBank (getCore t k) a' b' = getBank (getCore s k) a' b') ∧
    (getCore t k).load = none ∧ (getCore t k).acc = (getCore s k).acc ∧ (∀ j, j ≠ k → getCore t j = getCore s j) ∧
    t.engs = s.engs ∧ t.mem.bytes = s.mem.bytes

namespace Sys2Proof.Claim

/-- Accumulator entries that no PASS of a core owns are as before (spec/04 R97). -/
def ownedOnly (s t : State) (k : Nat) : Prop :=
  ∀ a i, i < 65536 →
    (∀ p ∈ owningPasses (getCore s k), (passOwns (getCtx s p.ctx) p).2 ≤ 65536 ∧
      ((∀ x ∈ p.banks, x.1 ≠ a) ∨ i < (passOwns (getCtx s p.ctx) p).1 ∨ (passOwns (getCtx s p.ctx) p).2 ≤ i)) →
    tabFind (getCore t k).acc (a * 65536 + i) = tabFind (getCore s k).acc (a * 65536 + i)

/-- The results of the rows of a PASS from `lo` up to `hi` stand in the accumulator: each is its sum over the old entry
(spec/03 R73, spec/04 R87). Said here of a PASS that seeks no best value. -/
def resultsStand (s t : State) (k : Nat) (p : PassOp) (lo hi : Nat) : Prop :=
  let b := p.cmd.bytes
  let base := (accRange (getCtx s p.ctx) b).1
  cmdOp b = 2 → (p.banks.map (·.1)).Nodup → p.imgs.length = p.banks.length → passBest b = 0 →
    (accRange (getCtx s p.ctx) b).2 ≤ 65536 →
    ∀ j r n, j < p.banks.length → lo ≤ r → r < hi → r < p.rows → n < tileN (fld b 6 1) →
      let a := (p.banks.getD j (0, 0)).1
      let i := base + r * tileN (fld b 6 1) + n
      tabFind (getCore t k).acc (a * 65536 + i) =
        some (passEntry (passOper b) (bit (fld b 3 1) 6) (tileView (fld b 6 1) (p.imgs.getD j []))
          (actRow (fld b 7 1) (p.acts.getD (r / 64) []) (r % 64)) n (accGet (getCore s k) a i)) ∧
      tabGet false (getCore t k).ints (a * 65536 + i) = p.int

/-- The same PASSes, of which more rows may have been written. -/
def samePasses (l m : List PassOp) : Prop := l.map (fun p => { p with written := 0 }) = m.map fun p => { p with written := 0 }

end Sys2Proof.Claim

/-- PASS (spec/04 R85, R87, R89, R95, R97, R107): checked at the head of its queue; it starts when the stream is free and its
banks are READY, which makes them ACTIVE; after its last row they drain and the stream is free, and the rows that entered
132 beats before are written; a drained bank is FREE; the oldest PASS whose banks have left DRAINING writes its last rows
and completes. -/
def Obligations.PassesRun : Prop :=
  (∀ (k c : Nat) (q : QCmd) (s : State), k < 128 → c < 128 → atHead s (coreEng k) c 2 q → q.checked = false →
    passOk q.bytes = true → (cmdFence q.bytes = true → fenceClear (getCore s k) c q.bytes = true) →
    accClaim s k c q.bytes = none →
    ((∀ a ∈ cmdArrays q.bytes, ∃ b, bankWith (getCore s k) c a (passTag q.bytes a) true = some b ∧
        (getBank (getCore s k) a b).wfmt = fld q.bytes 6 1) → (getCore s k).vec = none → Does (.pass k c) s fun t =>
      (getQ t (coreEng k) c).queue = { q with checked := true } :: (getQ s (coreEng k) c).queue.tail ∧
      otherQueues s t (coreEng k) c ∧ t = { s with engs := t.engs }) ∧
    (∀ a ∈ cmdArrays q.bytes, bankWith (getCore s k) c a (passTag q.bytes a) true = none → Does (.pass k c) s fun t =>
      headFails s t (coreEng k) c q .mapHazard ∧ (getCore t k).acc = (getCore s k).acc)) ∧
  (∀ (k c : Nat) (q : QCmd) (bks : List (Nat × Nat)) (s : State), k < 128 → c < 128 → atHead s (coreEng k) c 2 q →
    q.checked = true → (getCore s k).stream = none → hasTurn s (coreEng k) 0 c (passReady s k) →
    passBanks (getCore s k) c q.bytes = some bks → clean s →
    (∀ i, i < ceilDiv (fld q.bytes 16 2) 64 →
      mayAccess s (whoOf (coreEng k) c) (fld q.bytes 8 8 + i * fld q.bytes 20 4) (actSize (fld q.bytes 7 1)) false = true) →
    Does (.passStart k c) s fun t =>
      headGone s t (coreEng k) c ∧
      (∃ p, (getCore t k).stream = some p ∧ p.ctx = c ∧ p.cmd = q ∧ p.banks = bks ∧ p.written = 0 ∧
        p.imgs = bks.map (fun x => (getBank (getCore s k) x.1 x.2).img) ∧
        p.acts = (List.range (ceilDiv (fld q.bytes 16 2) 64)).map fun i =>
          memRead s.mem.bytes (fld q.bytes 8 8 + i * fld q.bytes 20 4) (actSize (fld q.bytes 7 1))) ∧
      (∀ x ∈ bks, (getBank (getCore t k) x.1 x.2).state = .active) ∧
      (∀ a b, (∀ x ∈ bks, a * 2 + b ≠ x.1 * 2 + x.2) → getBank (getCore t k) a b = getBank (getCore s k) a b) ∧
      (getCore t k).acc = (getCore s k).acc ∧ t.mem = s.mem) ∧
  (∀ (k : Nat) (p : PassOp) (s : State), (getCore s k).stream = some p → Does (.passLastRowEntered k) s fun t =>
    (getCore t k).stream = none ∧ samePasses (getCore t k).draining ((getCore s k).draining ++ [p]) ∧
    (∀ x ∈ p.banks, (getBank (getCore t k) x.1 x.2).state = .draining) ∧
    (∀ a b, (∀ x ∈ p.banks, a * 2 + b ≠ x.1 * 2 + x.2) → getBank (getCore t k) a b = getBank (getCore s k) a b) ∧
    ownedOnly s t k ∧ ((getCore s k).draining = [] → resultsStand s t k p p.written (p.rows - 132)) ∧
    (rowsOf (owningPasses (getCore s k)) ≤ 132 → (getCore t k).acc = (getCore s k).acc) ∧ t = { s with cores := t.cores }) ∧
  (∀ (k a b : Nat) (s : State), (getBank (getCore s k) a b).state = .draining → Does (.bankFreeHandshake k a b) s fun t =>
    getBank (getCore t k) a b = { getBank (getCore s k) a b with state := .free, img := [] } ∧
    (∀ a' b', a' * 2 + b' ≠ a * 2 + b → getBank (getCore t k) a' b' = getBank (getCore s k) a' b') ∧
    samePasses (getCore t k).draining (getCore s k).draining ∧ ownedOnly s t k ∧
    (∀ p, (getCore s k).draining = [p] → p.banks.contains (a, b) = true → resultsStand s t k p p.written (p.rows - 4)) ∧
    t = { s with cores := t.cores }) ∧
  ∀ (k : Nat) (p : PassOp) (rest : List PassOp) (s : State), (getCore s k).draining = p :: rest →
    (∀ x ∈ p.banks, (getBank (getCore s k) x.1 x.2).state ≠ .draining) → Does (.passComplete k) s fun t =>
      (getCore t k).draining = rest ∧ (getCore t k).passes = (getCore s k).passes + 1 ∧ ownedOnly s t k ∧
      resultsStand s t k p p.written p.rows ∧ t.engs = s.engs ∧ t.mem.bytes = s.mem.bytes

namespace Sys2Proof.Claim

/-- EPI (spec/04 R97, R99, R100, R103, R107; spec/05 R120): checked once, it starts on the free vector unit, unless a PASS
still owns entries it would read, which is a hazard; rows of a PASS already written are no longer owned. When it ends,
only its destination and its map's progress record have been written; with PAIRS the destination holds the first two
entries of every row of its arrays. -/
def epilogueRuns : Prop :=
  (∀ (k c n : Nat) (q : QCmd) (s : State), k < 128 → c < 128 → atHead s (coreEng k) c 3 q → epiOk q.bytes = true →
    (q.checked = true ∨ accClaim s k c q.bytes = none) → (getCore s k).vec = none →
    hasTurn s (coreEng k) 2 c (epiReady s k) → (cmdFence q.bytes = true → fenceClear (getCore s k) c q.bytes = true) →
    let x := getCore (outputTo s k (rowsWritten (getCore s k) n)) k
    ((∀ p ∈ owningPasses x, epiMeets s c q.bytes (cmdArrays p.cmd.bytes) (passOwns (getCtx s p.ctx) p) = false) →
      Does (.epi k c n) s fun t =>
        headGone s t (coreEng k) c ∧ getCore t k = { x with vec := some { ctx := c, cmd := { q with checked := true } } } ∧
        (n = 0 → getCore t k = { getCore s k with vec := some { ctx := c, cmd := { q with checked := true } } }) ∧
        ownedOnly s t k ∧ (∀ j, j ≠ k → getCore t j = getCore s j) ∧ t.mem = s.mem) ∧
    (cmdFence q.bytes = false → ∀ p ∈ owningPasses x,
      epiMeets s c q.bytes (cmdArrays p.cmd.bytes) (passOwns (getCtx s p.ctx) p) = true → Does (.epi k c n) s fun t =>
        headFails s t (coreEng k) c q .mapHazard ∧ (getCore t k).vec = none)) ∧
  ∀ (k : Nat) (p : EpiOp) (s : State), (getCore s k).vec = some p → Does (.epiComplete k) s fun t =>
    let b := p.cmd.bytes
    let size := if epiPairs b then fld b 6 2 * 8 * (cmdArrays b).length
      else ceilDiv (fld b 6 2) 64 * ceilDiv (epiWidth b * (cmdArrays b).length) 64 * fld b 24 4 + actSize (fld b 4 1)
    (getCore t k).vec = none ∧ (getCore t k).acc = (getCore s k).acc ∧ (getCore t k).banks = (getCore s k).banks ∧
    (epiOk b = true → tabFind (getCore s k).maps p.ctx = none → ∀ x, x < fld b 16 8 ∨ fld b 16 8 + size ≤ x →
      memGet t.mem.bytes x = memGet s.mem.bytes x) ∧
    (epiOk b = true → clean s → openTo s (whoOf (coreEng k) p.ctx) →
      (∀ r ∈ epiRegions b, r.2 ≠ 0 → r.1 + r.2 + actSize (fld b 4 1) ≤ wheelBase) →
      t.engs = s.engs ∧ (∀ d, d ≠ p.ctx → tabFind (getCore t k).maps d = tabFind (getCore s k).maps d) ∧
      (∀ m, tabFind (getCore s k).maps p.ctx = some m →
        tabFind (getCore t k).maps p.ctx = some { m with done := m.done + 1 }) ∧
      (tabFind (getCore s k).maps p.ctx = none → epiPairs b = true → ∀ r j i, r < fld b 6 2 → j < (cmdArrays b).length →
        i < 2 → leNat (memRead t.mem.bytes (fld b 16 8 + ((r * (cmdArrays b).length + j) * 2 + i) * 4) 4) =
          (accGet (getCore s k) ((cmdArrays b).getD j 0)
            ((accRange (getCtx s p.ctx) b).1 + r * epiWidth b + i)).toNat))

/-- Maps (spec/05 R112, R115-R117, R120): MAP installs a descriptor that keeps the rules and claims no more than the
context's share, with no tile done; a claim beyond the share fails with MAP_OVERFLOW and leaves the default map; a close
leaves the default map. Only the issuing context's map changes. -/
def mapsInstall : Prop :=
  (∀ (k c : Nat) (q : QCmd) (s : State), k < 128 → c < 128 → atHead s (coreEng k) c 4 q → coreBusy (getCore s k) c = false →
    mapCmdOk q.bytes = true → fld q.bytes 2 1 = 0 → tabFind (getCore s k).maps c = none → clean s →
    mayAccess s (whoOf (coreEng k) c) (fld q.bytes 8 8) 128 false = true →
    let d := memRead s.mem.bytes (fld q.bytes 8 8) 128
    descOk d c = true →
    (descClaim s d c = none → (fld q.bytes 16 8 ≠ 0 → mayAccess s (whoOf (coreEng k) c) (fld q.bytes 16 8) 32 true = true) →
      Does (.mapInstall k c) s fun t =>
        headGone s t (coreEng k) c ∧ (∀ j d, ¬ (j = k ∧ d = c) → tabFind (getCore t j).maps d = tabFind (getCore s j).maps d) ∧
        tabFind (getCore t k).maps c = some
          { id := fld d 2 2, arrays := fld d 7 1, accUnits := fld d 28 1, banks := fld d 29 1, queue := fld d 30 2,
            pinGranules := fld d 32 4, credits := descCredits d, total := tilesTotal d, done := 0,
            progress := fld q.bytes 16 8 } ∧
        ∀ a, fld q.bytes 16 8 = 0 ∨ a < fld q.bytes 16 8 ∨ fld q.bytes 16 8 + 32 ≤ a → memGet t.mem.bytes a = memGet s.mem.bytes a) ∧
    (∀ o, descClaim s d c = some o → Does (.mapInstall k c) s fun t =>
      headFails s t (coreEng k) c q .mapOverflow ∧ (∀ j d, tabFind (getCore t j).maps d = tabFind (getCore s j).maps d) ∧
      t.mem.bytes = s.mem.bytes)) ∧
  ∀ (k c : Nat) (q : QCmd) (s : State), k < 128 → c < 128 → atHead s (coreEng k) c 4 q → coreBusy (getCore s k) c = false →
    mapCmdOk q.bytes = true → fld q.bytes 2 1 = 1 → Does (.mapClose k c) s fun t =>
      headGone s t (coreEng k) c ∧ tabFind (getCore t k).maps c = none ∧
      (∀ j d, ¬ (j = k ∧ d = c) → tabFind (getCore t j).maps d = tabFind (getCore s j).maps d) ∧
      (getCore t k).banks = (getCore s k).banks ∧
      ((∀ m, tabFind (getCore s k).maps c = some m → m.progress = 0) → t.mem.bytes = s.mem.bytes)

end Sys2Proof.Claim

/-- EPI and MAP: `epilogueRuns`; `mapsInstall`. -/
def Obligations.EpiloguesAndMaps : Prop := epilogueRuns ∧ mapsInstall

/-! ### Slip queues -/

namespace Sys2Proof.Claim

/-- A consumer's command on a queue that may run: at the head, well formed, the queue enabled and its consumer the context
(spec/08 R202, R203). -/
def consumes (s : State) (c op : Nat) (q : QCmd) : Prop :=
  atHead s slipEng c op q ∧ slipCmdOk q.bytes = true ∧ (getSq s (slipQid q.bytes)).enable = true ∧
  (getSq s (slipQid q.bytes)).consumer.toNat = c ∧ hasTurn s slipEng 0 c (slipReady s)

/-- A consumer command has completed, changing only its queue, to `y`. -/
def sqBecomes (s t : State) (c : Nat) (q : QCmd) (y : SlipQ) : Prop :=
  headGone s t slipEng c ∧ getSq t (slipQid q.bytes) = y ∧
  (∀ j, j ≠ slipQid q.bytes → getSq t j = getSq s j) ∧ t.slip = { s.slip with queues := t.slip.queues } ∧
  t.mem.bytes = s.mem.bytes

/-- The consumer's commands (spec/08 R198): TAKE moves the read point by n words and to the next packet at the end of one;
DROP_REST goes to the next packet; MARK remembers the read point and REWIND returns to it; where the precondition fails
the command fails with INTERNAL and the queues stand. -/
def consumersRead : Prop :=
  ∀ (c : Nat) (q : QCmd) (s : State), c < 128 →
    let x := getSq s (slipQid q.bytes)
    (∀ pos w, consumes s c 0x68 q → x.readPkt < x.commit → packetOf x x.readPkt.toNat = some (pos, w) →
      (x.readOff.toNat + fld q.bytes 16 4 < w → Does (.take c) s fun t =>
        sqBecomes s t c q { x with readOff := BitVec.ofNat 12 (x.readOff.toNat + fld q.bytes 16 4) }) ∧
      (x.readOff.toNat + fld q.bytes 16 4 = w → Does (.take c) s fun t =>
        sqBecomes s t c q { x with readPkt := x.readPkt + 1, readOff := 0 }) ∧
      (w < x.readOff.toNat + fld q.bytes 16 4 → Does (.take c) s fun t =>
        headFails s t slipEng c q .internal ∧ t.slip = s.slip)) ∧
    (consumes s c 0x69 q → x.readPkt < x.commit → Does (.dropRest c) s fun t =>
      sqBecomes s t c q { x with readPkt := x.readPkt + 1, readOff := 0 }) ∧
    (consumes s c 0x6A q → Does (.mark c) s fun t =>
      sqBecomes s t c q { x with markValid := true, markPkt := x.readPkt, markOff := x.readOff }) ∧
    (consumes s c 0x6B q → x.markValid = true → Does (.rewind c) s fun t =>
      sqBecomes s t c q { x with readPkt := x.markPkt, readOff := x.markOff }) ∧
    ((consumes s c 0x6B q ∧ x.markValid = false → Does (.rewind c) s fun t =>
        headFails s t slipEng c q .internal ∧ t.slip = s.slip) ∧
     (consumes s c 0x69 q ∧ x.commit ≤ x.readPkt → Does (.dropRest c) s fun t =>
        headFails s t slipEng c q .internal ∧ t.slip = s.slip) ∧
     (consumes s c 0x68 q ∧ x.commit ≤ x.readPkt → Does (.take c) s fun t =>
        headFails s t slipEng c q .internal ∧ t.slip = s.slip))

/-- RELEASE and GRANT (spec/08 R193, R199, R200): RELEASE frees what lies before the read point, or before the mark where
that is earlier, and gives its credit back to its producers; GRANT sets the words a producer may hold, within SIZE over
all producers, and tells a producer of another module; past SIZE it fails with INTERNAL. -/
def creditMoves : Prop :=
  (∀ (c : Nat) (q : QCmd) (s : State), c < 128 → consumes s c 0x6C q →
    let i := slipQid q.bytes
    let y := getSq s i
    let x := if bit (fld q.bytes 2 1) 0 then { y with markValid := false, markPkt := 0, markOff := 0 } else y
    let f := max x.free.toNat (releaseLimit x)
    (∀ r ∈ x.items, r.module < 4096 ∧ r.ctx < 128) → Does (.release c) s fun t =>
      headGone s t slipEng c ∧
      getSq t i = { x with free := BitVec.ofNat 64 f, items := x.items.filter fun r => f < r.pos + r.len } ∧
      (∀ j, j ≠ i → getSq t j = getSq s j) ∧
      (∀ m d, m < 4096 → d < 128 →
        (getGrant t i m d).granted = (getGrant s i m d).granted ∧
        (getGrant t i m d).held.toNat = (getGrant s i m d).held.toNat -
          ((x.items.filter fun r => r.pos + r.len ≤ f ∧ r.module = m ∧ r.ctx = d).map (·.len)).sum) ∧
      t.mem.bytes = s.mem.bytes) ∧
  ∀ (c : Nat) (q : QCmd) (s : State), c < 128 → consumes s c 0x61 q →
    let i := slipQid q.bytes
    let m := fld q.bytes 20 2
    let d := fld q.bytes 22 1
    let n := fld q.bytes 16 4
    let sum := grantSum s i (grantKey i m d) + max n (getGrant s i m d).held.toNat
    (sum ≤ (getSq s i).size → s.slip.grants.length < 262144 → Does (.grant c) s fun t =>
      headGone s t slipEng c ∧ getGrant t i m d = { getGrant s i m d with granted := BitVec.ofNat 32 n } ∧
      (∀ j m' d', m' < 4096 → d' < 128 → ¬ (j = i ∧ m' = m ∧ d' = d) → getGrant t j m' d' = getGrant s j m' d') ∧
      (∀ j, getSq t j = getSq s j) ∧
      (∀ p u, m ≠ ownModule s → choosePort s m = some (p, u) → (getPath t p m).sendq = (getPath s p m).sendq ++
        [{ op := 0x07, vc := 0, addr := d * 65536 + i, offset := n, arg := 0 }])) ∧
    ((getSq s i).size < sum → Does (.grant c) s fun t => headFails s t slipEng c q .internal ∧ t.slip = s.slip)

end Sys2Proof.Claim

/-- Reading a queue, and the credit of its producers: `consumersRead`; `creditMoves`. -/
def Obligations.ConsumersAndCredit : Prop := consumersRead ∧ creditMoves

/-- PUSH on a queue of this module (spec/08 R188, R191, R192, R196, R203): it waits at the head of its queue while the
producer's grant has too few words left; with room, its words stand at the next positions of the ring, the packet's frame in the packet's place, the
packet is visible, and the producer holds the words. No other byte of memory changes. -/
def Obligations.PushStoresItsPacket : Prop :=
  ∀ (c : Nat) (q : QCmd) (s : State), c < 128 → atHead s slipEng c 0x60 q → slipCmdOk q.bytes = true →
    fld q.bytes 20 2 = ownModule s →
    let i := slipQid q.bytes
    let x := getSq s i
    let n := fld q.bytes 16 4
    let src := fld q.bytes 8 8
    let pos := x.resv.toNat
    x.enable = true →
    (checkCredit s (getGrant s i (ownModule s) c) c i n q.checked = .waits → Does (.push c) s fun t =>
      getQ t slipEng c = { getQ s slipEng c with queue := { q with checked := true } :: (getQ s slipEng c).queue.tail } ∧
      otherQueues s t slipEng c ∧ t = { s with engs := t.engs }) ∧
    (checkCredit s (getGrant s i (ownModule s) c) c i n q.checked = .room → hasTurn s slipEng 0 c (slipReady s) → clean s →
      (∀ j, j < n → mayAccess s (whoOf slipEng c) (src + 32 * j) 32 false = true) → n ≤ x.size →
      x.base.toNat + x.size * 48 ≤ cacheBase → (src + 32 * n ≤ x.base.toNat ∨ x.base.toNat + x.size * 48 ≤ src) →
      pos + n < 2 ^ 64 → x.resolved = x.resv → (∀ r ∈ x.items, r.pos < pos) → Does (.push c) s fun t =>
        headGone s t slipEng c ∧ (getSq t i).resv = x.resv + BitVec.ofNat 64 n ∧ (getSq t i).commit = x.commit + 1 ∧
        (getSq t i).resolved = (getSq t i).resv ∧
        (∃ r ∈ (getSq t i).items, r.pos = pos ∧ r.len = n ∧ r.state = .visible x.commit.toNat n) ∧
        getGrant t i (ownModule s) c =
          { getGrant s i (ownModule s) c with held := (getGrant s i (ownModule s) c).held + BitVec.ofNat 32 n } ∧
        (∀ j, j < n → memRead t.mem.bytes (wordAddr x (pos + j)) 32 = memRead s.mem.bytes (src + 32 * j) 32) ∧
        memRead t.mem.bytes (frameAddr x x.commit.toNat) 16 =
          toLe 8 pos ++ toLe 2 n ++ toLe 1 c ++ [0] ++ toLe 2 (ownModule s) ++ toLe 2 0 ∧
        (∀ a, (∀ j, j < n → a < wordAddr x (pos + j) ∨ wordAddr x (pos + j) + 32 ≤ a) →
          a < frameAddr x x.commit.toNat ∨ frameAddr x x.commit.toNat + 16 ≤ a → memGet t.mem.bytes a = memGet s.mem.bytes a) ∧
        ∀ j, j ≠ i → getSq t j = getSq s j)

namespace Sys2Proof.Claim

/-- A producer of the module that reserves, commits and rewinds (spec/08 R191, R192, R194-R196): a reservation takes the next
positions and credit, or waits for credit, or fails its engine's command where it exceeds a bound; a commit writes its
words at the positions, and the packet becomes visible at once where everything before it is resolved, and not before;
the newest open one, rewound, gives its positions and credit back, another leaves a hole. -/
def producersReserve : Prop :=
  (∀ (i c n : Nat) (e : Eng) (s : State), c < 128 → (getSq s i).enable = true → 1 ≤ n → n ≤ 4096 →
    let x := getSq s i
    let g := getGrant s i (ownModule s) c
    (checkCredit s g c i n = .room → Does (.slipReserve i e c n) s fun t =>
      getSq t i = { x with resv := x.resv + BitVec.ofNat 64 n
                           items := x.items ++ [{ pos := x.resv.toNat, len := n, module := ownModule s, ctx := c,
                                                  eng := some e }] } ∧
      getGrant t i (ownModule s) c = { g with held := g.held + BitVec.ofNat 32 n } ∧
      (∀ j, j ≠ i → getSq t j = getSq s j) ∧ t = { s with slip := t.slip }) ∧
    (checkCredit s g c i n = .waits → exec (.slipReserve i e c n) s = .next s) ∧
    (∀ o q, checkCredit s g c i n = .overflow o → headCmd s e c = some q → Does (.slipReserve i e c n) s fun t =>
      headFails s t e c q .mapOverflow ∧ t.slip = s.slip)) ∧
  (∀ (i w : Nat) (e : Eng) (words : Bytes) (pre post : List Resv) (r : Resv) (s : State),
    let x := getSq s i
    x.items = pre ++ r :: post → r.state = .opened → r.eng = some e → words.length = 32 * w → 1 ≤ w → w ≤ r.len →
    w ≤ x.size → r.pos + r.len < 2 ^ 64 → clean s →
    (∀ j, j < w → mayAccess s (whoOf e r.ctx) (wordAddr x (r.pos + j)) 32 true = true) →
    (∀ y ∈ post, r.pos + r.len ≤ y.pos ∧ y.state = .opened) → (∀ y ∈ pre, y.pos < r.pos) →
    ((∀ y ∈ pre, y.pos < x.resolved.toNat) → x.resolved.toNat ≤ r.pos → x.base.toNat + x.size * 48 ≤ cacheBase →
      Does (.slipCommit i r.pos words) s fun t =>
        getSq t i = { x with commit := x.commit + 1, resolved := BitVec.ofNat 64 (r.pos + r.len)
                             items := pre ++ { r with state := .visible x.commit.toNat w } :: post } ∧
        (∀ j, j < w → memRead t.mem.bytes (wordAddr x (r.pos + j)) 32 = (words.drop (32 * j)).take 32) ∧
        memRead t.mem.bytes (frameAddr x x.commit.toNat) 16 = frameBytes s r w ∧
        (∀ a, (∀ j, j < w → a < wordAddr x (r.pos + j) ∨ wordAddr x (r.pos + j) + 32 ≤ a) →
          a < frameAddr x x.commit.toNat ∨ frameAddr x x.commit.toNat + 16 ≤ a →
          memGet t.mem.bytes a = memGet s.mem.bytes a) ∧ ∀ j, j ≠ i → getSq t j = getSq s j) ∧
    (∀ y rest, pre = y :: rest → y.state = .opened → x.resolved.toNat ≤ y.pos → Does (.slipCommit i r.pos words) s fun t =>
      getSq t i = { x with items := pre ++ { r with state := .committed w } :: post } ∧
      (∀ j, j < w → memRead t.mem.bytes (wordAddr x (r.pos + j)) 32 = (words.drop (32 * j)).take 32) ∧
      t = { s with slip := t.slip, mem := t.mem, prt := t.prt })) ∧
  ∀ (i : Nat) (pre post : List Resv) (r : Resv) (s : State),
    let x := getSq s i
    x.items = pre ++ r :: post → r.state = .opened → (∀ y ∈ pre ++ post, y.pos ≠ r.pos) →
    (r.pos + r.len = x.resv.toNat → Does (.slipRewind i r.pos) s fun t =>
      getSq t i = { x with resv := BitVec.ofNat 64 r.pos, items := pre ++ post } ∧
      (getGrant t i r.module r.ctx).held.toNat = (getGrant s i r.module r.ctx).held.toNat - r.len ∧
      t.slip.rewound = s.slip.rewound + 1 ∧ t.mem = s.mem) ∧
    (∀ y rest, r.pos + r.len ≠ x.resv.toNat → pre = y :: rest → y.state = .opened → x.resolved.toNat ≤ y.pos →
      Does (.slipRewind i r.pos) s fun t =>
        getSq t i = { x with items := pre ++ { r with state := .hole } :: post } ∧ t.slip.rewound = s.slip.rewound + 1 ∧
        t = { s with slip := t.slip })

/-- Enabling and disabling a queue (spec/08 R193, R206, spec/14 R352): a queue whose ring the consumer's windows permit
starts empty with every position at 0 and keeps its grants, its size at least their sum; one whose ring they do not
stays disabled, with an event; disabling frees every word, the manager's commands that wait for the queue stop, and so
does a DISPATCH in progress that names it (spec/15 R387, R388). -/
def queuesOpenAndClose : Prop :=
  ∀ (i : Nat) (v : W64) (s : State),
    let x := getSq s i
    let y : SlipQ := { x with consumer := BitVec.ofNat 7 (v.toNat / 2 ^ 40), log2 := BitVec.ofNat 5 (max (max 6 (leastLog2 s i)) (min 24 (v.toNat / 2 ^ 32 % 32))) }
    (v.getLsbD 63 = true → x.enable = false → ringPermitted s y = true → Does (.slpQueueEnable i v) s fun t =>
      getSq t i = { base := x.base, consumer := y.consumer, log2 := y.log2, enable := true } ∧
      (s.slip.grants.Pairwise (fun a b => a.1 < b.1) → ∀ m c, m < 4096 → c < 128 → getGrant t i m c = { granted := (getGrant s i m c).granted, held := 0 }) ∧
      (∀ j, j ≠ i → getSq t j = getSq s j) ∧ t = { s with slip := t.slip }) ∧
    (v.getLsbD 63 = true → x.enable = false → ringPermitted s y = false → Does (.slpQueueEnable i v) s fun t =>
      getSq t i = y ∧ (s.evt.buf < 256 → t.evt.head = s.evt.head + 1 ∧
        (tabGet {} t.evt.log (s.evt.head.toNat % 65536)).code = some .enableFailed) ∧
      t = { s with slip := t.slip, evt := t.evt, outs := t.outs }) ∧
    (v.getLsbD 63 = true → x.enable = true → exec (.slpQueueEnable i v) s = .next s) ∧
    (v.getLsbD 63 = false → x.enable = true → Does (.slpQueueDisable i v) s fun t =>
      (getSq t i).enable = false ∧ (getSq t i).items = [] ∧ (getSq t i).free = (getSq t i).resv ∧
      (getSq t i).resolved = (getSq t i).resv ∧ (getSq t i).consumer = y.consumer ∧ (getSq t i).log2 = y.log2 ∧
      (∀ j, j ≠ i → getSq t j = getSq s j) ∧
      ∀ c, ∀ q ∈ (getQ t slipEng c).queue, slipQid q.bytes = i →
        cmdOp q.bytes ∈ [0x61, 0x68, 0x69, 0x6A, 0x6B, 0x6C] → q.verdict ≠ none) ∧
    (v.getLsbD 63 = false → x.enable = true → s.routers.Pairwise (fun a b => a.1 < b.1) →
      (∀ r ∈ s.routers, r.2.ops.Pairwise fun a b => a.1 < b.1) → Does (.slpQueueDisable i v) s fun t =>
        ∀ k c o, tabFind (getRouter t k).ops c = some o → o.verdict = none →
          ∀ z ∈ o.experts, z.module = ownModule s → z.queue ≠ i)

end Sys2Proof.Claim

/-- Writing a queue, and its enabling and disabling: `producersReserve`; `queuesOpenAndClose`. -/
def Obligations.ProducersAndQueues : Prop := producersReserve ∧ queuesOpenAndClose

/-! ### Expert routers -/

/-- The claims of a ROUTE (spec/06 R131-R134): no expert ever takes more tokens than its capacity; a token gets as many
slots as the layer has ranks; every slot is either given to an expert or counted as dropped; and every place given in an
expert's list is one below its count. -/
def Obligations.RouteClaimsKeepCapacity : Prop :=
  ∀ (l : Layer) (logits : List (BitVec 32)) (t : Nat) (x : Claims), x.counts.length = l.experts →
    (∀ e, x.counts.getD e 0 ≤ l.capacity) →
    let y := claimToken l logits t x
    y.counts.length = l.experts ∧ (∀ e, y.counts.getD e 0 ≤ l.capacity ∧ x.counts.getD e 0 ≤ y.counts.getD e 0) ∧
    y.slots.length = l.topK ∧
    y.dropped = x.dropped + (y.slots.filter fun v => v.1.isNone).length ∧
    (l.next = false → y.subst = x.subst) ∧ ∃ new, y.entries = x.entries ++ new ∧
      new.length = (y.slots.filter fun v => v.1.isSome).length ∧
      ∀ n ∈ new, n.2.2.2 = t ∧ x.counts.getD n.1 0 ≤ n.2.1 ∧ (n.1 < l.experts → n.2.1 < y.counts.getD n.1 0)

namespace Sys2Proof.Claim

/-- The head command of a context on a router that may run now. -/
def routerRuns (s : State) (k c op : Nat) (q : QCmd) : Prop :=
  k < 16 ∧ c < 128 ∧ routerFree s k c = true ∧ atHead s (routerEng k) c op q ∧
  hasTurn s (routerEng k) 0 c (routerReady s k) ∧ clean s ∧ openTo s (whoOf (routerEng k) c)

/-- The layer record that a router command names, which its context may read. -/
def layerIs (s : State) (b : Bytes) (l : Layer) : Prop :=
  layerOf (memRead s.mem.bytes (fld b 8 8) 64) = some l ∧ fld b 8 8 + 64 ≤ wheelBase

/-- A ROUTE (spec/06 R129-R135) leaves its queue and counts its tokens; it writes its counts, its lists and its combine
records, and nothing else. -/
def routesRun : Prop :=
  ∀ (k c : Nat) (q : QCmd) (l : Layer) (s : State), routerRuns s k c 0x20 q → routeOk q.bytes = true → layerIs s q.bytes l →
    let b := q.bytes
    let last := fld b 24 4 + fld b 28 4
    fld b 16 8 + ceilDiv last 64 * ceilDiv (up64 l.experts) 64 * isz 0 ≤ wheelBase →
    fld b 32 8 + 4 * l.experts + 8 ≤ wheelBase → fld b 40 8 + l.experts * l.capacity * 8 ≤ wheelBase →
    fld b 48 8 + last * 128 ≤ wheelBase → Does (.route k c) s fun t =>
      headGone s t (routerEng k) c ∧ (getRouter t k).ops = (getRouter s k).ops ∧
      (getRouter t k).routed = (getRouter s k).routed + BitVec.ofNat 64 (fld b 28 4) ∧
      (∀ j, j ≠ k → getRouter t j = getRouter s j) ∧
      ∀ a, a < fld b 32 8 ∨ fld b 32 8 + 4 * l.experts + 8 ≤ a →
        a < fld b 40 8 ∨ fld b 40 8 + l.experts * l.capacity * 8 ≤ a →
        a < fld b 48 8 + fld b 24 4 * 128 ∨ fld b 48 8 + last * 128 ≤ a → memGet t.mem.bytes a = memGet s.mem.bytes a

/-- A COMBINE (spec/06 R141, R142) leaves its queue and writes its destination, and nothing else. -/
def combinesRun : Prop :=
  ∀ (k c : Nat) (q : QCmd) (l : Layer) (s : State), routerRuns s k c 0x22 q → combineOk q.bytes = true →
    layerIs s q.bytes l →
    let b := q.bytes
    let last := fld b 48 4 + fld b 52 4
    let out := ceilDiv last 64 * (fld b 56 4 / 64) * isz (fld b 3 1)
    fld b 16 8 + last * 128 ≤ wheelBase → fld b 32 8 + out ≤ wheelBase → fld b 40 8 + out ≤ wheelBase →
    fld b 24 8 + (65536 * ceilDiv l.capacity 64 + 1024) * (fld b 56 4 / 64) * isz (fld b 2 1) ≤ wheelBase →
    Does (.combine k c) s fun t =>
      headGone s t (routerEng k) c ∧ t.routers = s.routers ∧
      ∀ a, a < fld b 40 8 ∨ fld b 40 8 + out ≤ a → memGet t.mem.bytes a = memGet s.mem.bytes a

/-- The map entry, the count and the list of an expert as they stand in memory (spec/06 R137, R138). -/
def planOf (s : State) (b : Bytes) (l : Layer) (e : Nat) : DispPlan :=
  let m := memRead s.mem.bytes (l.map + 16 * e) 16
  { expert := e, module := fld m 0 2, queue := fld m 2 2
    region := fld m 8 8 + fld b 44 2 * ceilDiv l.capacity 64 * (fld b 40 4 / 64) * isz (fld b 2 1)
    tokens := (List.range (leNat (memRead s.mem.bytes (fld b 24 8 + 4 * e) 4))).map fun j =>
      leNat (memRead s.mem.bytes (fld b 16 8 + (e * l.capacity + j) * 8) 4) }

/-- The entry of an expert on this module is well formed and all it names lies in reach (spec/06 R126, R137, R138). -/
def planStands (s : State) (b : Bytes) (l : Layer) (e : Nat) : Prop :=
  let m := memRead s.mem.bytes (l.map + 16 * e) 16
  let x := planOf s b l e
  x.module = ownModule s ∧ ownModule s < 4096 ∧ zeroAt m 4 4 = true ∧ fld m 8 8 % 64 = 0 ∧ (getSq s x.queue).enable = true ∧
  l.map + 16 * e + 16 ≤ wheelBase ∧ fld b 24 8 + 4 * e + 4 ≤ wheelBase ∧
  (x.tokens ≠ [] → fld b 16 8 + (e * l.capacity + x.tokens.length) * 8 ≤ wheelBase) ∧
  ∀ y ∈ x.copies b, y.1 + y.2.2 ≤ wheelBase ∧ y.2.1 + y.2.2 ≤ wheelBase

/-- A DISPATCH to experts of this module (spec/06 R137-R139): it copies the rows of each expert's list to the expert's
region, writes nothing else, and stays on the router until every expert is notified. -/
def dispatchesRun : Prop :=
  ∀ (k c : Nat) (q : QCmd) (l : Layer) (s : State), routerRuns s k c 0x21 q → dispatchOk q.bytes = true →
    layerIs s q.bytes l → q.closed = [] → fld q.bytes 4 2 + fld q.bytes 6 2 ≤ l.experts →
    let plans := (List.range (fld q.bytes 6 2)).map fun i => planOf s q.bytes l (fld q.bytes 4 2 + i)
    (∀ i, i < fld q.bytes 6 2 → planStands s q.bytes l (fld q.bytes 4 2 + i)) → Does (.dispatch k c) s fun t =>
      headGone s t (routerEng k) c ∧
      tabFind (getRouter t k).ops c = some { cmd := q, experts := plans.map fun x =>
        { expert := x.expert, module := x.module, queue := x.queue, rows := x.tokens.length } } ∧
      (∀ d, d ≠ c → tabFind (getRouter t k).ops d = tabFind (getRouter s k).ops d) ∧
      (getRouter t k).routed = (getRouter s k).routed ∧ (∀ j, j ≠ k → getRouter t j = getRouter s j) ∧
      let copies := (plans.map fun x => x.copies q.bytes).flatten
      (∀ a, (∀ y ∈ copies, a < y.2.1 ∨ y.2.1 + y.2.2 ≤ a) → memGet t.mem.bytes a = memGet s.mem.bytes a) ∧
      (copies.Pairwise (fun y z => y.2.1 + y.2.2 ≤ z.2.1 ∨ z.2.1 + z.2.2 ≤ y.2.1) →
        (∀ y ∈ copies, ∀ z ∈ copies, y.2.1 + y.2.2 ≤ z.1 ∨ z.1 + z.2.2 ≤ y.2.1) →
        ∀ y ∈ copies, memRead t.mem.bytes y.2.1 y.2.2 = memRead s.mem.bytes y.1 y.2.2)

/-- Notifications (spec/06 R139, spec/08 R192): an expert whose rows are written is notified by a packet of one word, on its
queue here or by a PUSH frame to its module; the last one ends the DISPATCH; without credit it waits. -/
def notificationsLeave : Prop :=
  ∀ (k c : Nat) (o : DispOp) (x : DispExpert) (s : State), c < 128 → tabFind (getRouter s k).ops c = some o →
    o.verdict = none → x ∈ o.experts → (o.experts.map (·.expert)).Nodup → x.left = 0 → x.pushed = false →
    let check := checkCredit s (notifyGrant s c x) c x.queue 1
    let y := getSq s x.queue
    let noted := o.experts.map fun z => if z.expert = x.expert then { z with pushed := true } else z
    (x.module = ownModule s →
      (check = .waits → exec (.dispatchNotify k c x.expert) s = .next s) ∧
      (check = .room → clean s → y.base.toNat + y.size * 48 ≤ cacheBase →
        mayAccess s (whoOf (routerEng k) c) (wordAddr y y.resv.toNat) 32 true = true →
        (∀ r ∈ y.items, r.pos < y.resv.toNat) → y.resolved = y.resv → y.resv.toNat + 1 < 2 ^ 64 →
        Does (.dispatchNotify k c x.expert) s fun t =>
          (getSq t x.queue).commit = y.commit + 1 ∧
          memRead t.mem.bytes (wordAddr y y.resv.toNat) 32 = notifyWord s o.cmd.bytes x ∧
          ((∃ z ∈ o.experts, z.expert ≠ x.expert ∧ z.pushed = false) →
            tabFind (getRouter t k).ops c = some { o with experts := noted }) ∧
          ((∀ z ∈ o.experts, z.expert ≠ x.expert → z.pushed = true ∧ z.left = 0) → o.pushes = 0 →
            tabFind (getRouter t k).ops c = none))) ∧
    ∀ p u, x.module ≠ ownModule s → choosePort s x.module = some (p, u) → s.slip.unsent.contains x.module = false →
      check = .room → Does (.dispatchNotify k c x.expert) s fun t =>
        tabFind (getRouter t k).ops c = some { o with experts := noted, pushes := o.pushes + 1 } ∧
        (getPath t p x.module).sendq = (getPath s p x.module).sendq ++
          [{ op := 5, vc := 3, ctx := c, tag := s.fry.nextTag, addr := x.queue, arg := 1,
             payload := notifyWord s o.cmd.bytes x }] ∧ t.mem = s.mem ∧ t.engs = s.engs

end Sys2Proof.Claim

/-- A router runs one command at a time (spec/06 R126): `routesRun`; `combinesRun`; `dispatchesRun`; `notificationsLeave`. -/
def Obligations.RoutersRun : Prop := routesRun ∧ combinesRun ∧ dispatchesRun ∧ notificationsLeave

/-! ### Barges -/

namespace Sys2Proof.Claim

/-- The head command of a context on a barge that may run now. -/
def bargeRuns (s : State) (b c op : Nat) (q : QCmd) : Prop :=
  b < 32 ∧ c < 128 ∧ atHead s (bargeEng b) c op q ∧ engineFree s (bargeEng b) c ∧ hasTurn s (bargeEng b) 0 c (bargeReady s b)

end Sys2Proof.Claim

/-- MOVE (spec/07 R172, R176, R180, spec/16 R404): a linear MOVE within the module copies its bytes where source and
destination do not overlap, and a format MOVE stores the converted matrix; no other byte changes. One to or from a
module to which no path is up ends with LINK_LOST and nothing moved. -/
def Obligations.MovesCopy : Prop :=
  ∀ (b c : Nat) (q : QCmd) (s : State), bargeRuns s b c 0x40 q → moveOk q.bytes = true →
    let cmd := q.bytes
    let src := fld cmd 8 8
    let dst := fld cmd 16 8
    let n := fld cmd 32 4
    (mvSrcGlobal cmd = false → mvDstGlobal cmd = false → mvSrcLayout cmd = 0 → clean s →
      (src + n ≤ dst ∨ dst + n ≤ src) →
      (∀ i, i < n / 64 → mayAccess s (whoBarge b c true) (src + 64 * i) 64 false = true ∧
        mayAccess s (whoBarge b c true) (dst + 64 * i) 64 true = true) → Does (.move b c) s fun t =>
        headGone s t (bargeEng b) c ∧ memRead t.mem.bytes dst n = memRead s.mem.bytes src n ∧
        ∀ a, a < dst ∨ dst + n ≤ a → memGet t.mem.bytes a = memGet s.mem.bytes a) ∧
    (mvSrcLayout cmd ≠ 0 → clean s →
      let sn := matBytes (mvSrcLayout cmd) (fld cmd 4 1) (fld cmd 24 4) (fld cmd 28 4)
      let out := moveBytes cmd (memRead s.mem.bytes src sn)
      let dn := if mvTranspose cmd then matBytes (mvDstLayout cmd) (fld cmd 5 1) (fld cmd 28 4) (fld cmd 24 4)
        else matBytes (mvDstLayout cmd) (fld cmd 5 1) (fld cmd 24 4) (fld cmd 28 4)
      dst + dn ≤ wheelBase → mayAccess s (whoBarge b c false) src sn false = true → mayAccess s (whoBarge b c false) dst out.length true = true →
      Does (.move b c) s fun t => headGone s t (bargeEng b) c ∧ memRead t.mem.bytes dst out.length = out ∧
        ∀ a, a < dst ∨ dst + out.length ≤ a → memGet t.mem.bytes a = memGet s.mem.bytes a) ∧
    ((mvSrcGlobal cmd = true ∧ src < 2 ^ 60 ∧ globalModule src ≠ ownModule s ∧ choosePort s (globalModule src) = none) ∨
      (mvDstGlobal cmd = true ∧ dst < 2 ^ 60 ∧ globalModule dst ≠ ownModule s ∧ choosePort s (globalModule dst) = none) →
      n ≠ 0 → plainReport s q → Does (.move b c) s fun t =>
        headGone s t (bargeEng b) c ∧ t.fry = s.fry ∧ t.mem.bytes = s.mem.bytes) ∧
    ∀ p u, mvSrcGlobal cmd = true → src < 2 ^ 60 → globalModule src ≠ ownModule s →
      choosePort s (globalModule src) = some (p, u) → n ≠ 0 → mayAccess s (whoBarge b c true) dst n true = true →
      Does (.move b c) s fun t =>
        headGone s t (bargeEng b) c ∧ tabFind t.barges.busy b = some c ∧
        (getPath t p (globalModule src)).sendq = (getPath s p (globalModule src)).sendq ++
          [{ op := 0x03, vc := 1, ctx := c, tag := s.fry.nextTag, addr := globalLocal src, arg := n }] ∧
        tabFind t.fry.ops s.fry.nextTag.toNat = some
          { port := p, module := globalModule src, total := n, waiter := .move b c q dst } ∧
        t.fry.nextTag = s.fry.nextTag + 1 ∧ t.mem = s.mem

/-- PIN and UNPIN (spec/07 R161, R177-R179): a PIN within the context's share leaves every granule it names in its store,
pinned by the context; one beyond it fails with MAP_OVERFLOW; an UNPIN leaves none of its granules pinned by the context
in that store. The bytes of memory do not change, and no granule of another context loses a pin. -/
def Obligations.PinsHold : Prop :=
  ∀ (b c : Nat) (q : QCmd) (st : Nat) (s : State), targetStore (b / 8) (fld q.bytes 2 1) = some st →
    pinOk q.bytes (b / 8) = true → s.mem.gran.Pairwise (fun x y => x.1 < y.1) →
    (bargeRuns s b c 0x41 q → windowsPermit s (ctxPart c) (fld q.bytes 8 8) (fld q.bytes 16 4 * 4096) false = true →
      (∀ g ∈ pinGrans q.bytes, ∀ x, tabFind s.mem.gran g = some x → x.store = st ∨ x.pins = []) →
      (pinClaim s c st (pinGrans q.bytes) = none → clean s → Does (.pin b c) s fun t =>
        headGone s t (bargeEng b) c ∧
        (∀ g ∈ pinGrans q.bytes, ∃ x, tabFind t.mem.gran g = some x ∧ x.store = st ∧ (c, b) ∈ x.pins) ∧
        (∀ g x, tabFind s.mem.gran g = some x → ∀ p ∈ x.pins, ∃ y, tabFind t.mem.gran g = some y ∧ p ∈ y.pins) ∧
        t.mem.bytes = s.mem.bytes) ∧
      (∀ o, pinClaim s c st (pinGrans q.bytes) = some o → Does (.pin b c) s fun t =>
        headFails s t (bargeEng b) c q .mapOverflow ∧ t.mem = s.mem)) ∧
    (bargeRuns s b c 0x42 q → Does (.unpin b c) s fun t =>
      headGone s t (bargeEng b) c ∧
      (∀ g ∈ pinGrans q.bytes, ∀ x, tabFind t.mem.gran g = some x → x.store = st → ∀ p ∈ x.pins, p.1 ≠ c) ∧
      (∀ g x, tabFind s.mem.gran g = some x → ∀ p ∈ x.pins, p.1 ≠ c → ∃ y, tabFind t.mem.gran g = some y ∧ p ∈ y.pins) ∧
      t.mem.bytes = s.mem.bytes)

namespace Sys2Proof.Claim

/-- Schedules and residency (spec/07 R165, R167-R170, R177): SCHEDULE installs a schedule that keeps the rules, and with
address 0 removes it and its fetches; with LOOKAHEAD outside 1 to 64 it fails with INTERNAL; ADVANCE moves it to the layer named, and beyond its layers fails with INTERNAL; a fetch slice takes at most 256
granules of the first fetch; an epoch tick counts and ages the unpinned granules of its deck by one, up to 255. The
bytes of memory do not change. -/
def schedulesAndEpochs : Prop :=
  (∀ (b c : Nat) (q : QCmd) (s : State), bargeRuns s b c 0x43 q →
    zeroAt q.bytes 2 1 = true → zeroAt q.bytes 6 2 = true → zeroAt q.bytes 16 48 = true → fld q.bytes 8 8 % 64 = 0 →
    let a := fld q.bytes 8 8
    let look := fld q.bytes 3 1
    (look = 0 ∨ 64 < look → Does (.schedule b c) s fun t => headFails s t (bargeEng b) c q .internal ∧ t.mem = s.mem) ∧
    (1 ≤ look → look ≤ 64 → a = 0 → Does (.schedule b c) s fun t => headGone s t (bargeEng b) c ∧
      tabFind t.mem.schedules (bargeKey b c) = none ∧ fetchesOf t b c = [] ∧ t.mem.bytes = s.mem.bytes) ∧
    let h := memRead s.mem.bytes a 64
    let n := fld h 4 4
    let e := memRead s.mem.bytes (a + 64) (16 * n)
    ∀ es, 1 ≤ look → look ≤ 64 → a ≠ 0 → clean s →
      mayAccess s (whoOf (bargeEng b) c) a 64 false = true → mayAccess s (whoOf (bargeEng b) c) (a + 64) (16 * n) false = true →
      fld h 0 1 = 1 → fld h 1 1 < 2 → fld q.bytes 4 2 < fld h 2 2 → 1 ≤ n → n ≤ 65536 → zeroAt h 8 56 = true →
      (List.range n).mapM (fun i => entryOf (b / 8) (fld h 2 2) ((e.drop (16 * i)).take 16)) = some es → layersRise es = true →
      let sc : Schedule := { layers := fld h 2 2, wrap := decide (fld h 1 1 = 1), entries := es, lookahead := look,
                             layer := fld q.bytes 4 2 }
      Does (.schedule b c) s fun t => headGone s t (bargeEng b) c ∧
        tabFind t.mem.schedules (bargeKey b c) = some sc ∧
        fetchesOf t b c = (es.filter fun e => layerIn sc sc.layer (look + 1) e.layer).map (fun e =>
          { ctx := c, addr := e.addr, count := e.count, store := e.store }) ∧ t.mem.bytes = s.mem.bytes) ∧
  (∀ (b c : Nat) (q : QCmd) (sc : Schedule) (s : State), bargeRuns s b c 0x44 q →
    tabFind s.mem.schedules (bargeKey b c) = some sc → zeroAt q.bytes 2 2 = true → zeroAt q.bytes 6 58 = true →
    (fld q.bytes 4 2 < sc.layers → Does (.advance b c) s fun t => headGone s t (bargeEng b) c ∧
      tabFind t.mem.schedules (bargeKey b c) = some { sc with layer := fld q.bytes 4 2 } ∧
      (∃ more, fetchesOf t b c = fetchesOf s b c ++ more) ∧ t.mem.bytes = s.mem.bytes) ∧
    (sc.layers ≤ fld q.bytes 4 2 → Does (.advance b c) s fun t => headFails s t (bargeEng b) c q .internal ∧ t.mem = s.mem)) ∧
  (∀ (b c : Nat) (r : FetchRun) (rest : List FetchRun) (s : State), b < 32 → c < 128 → fetchesOf s b c = r :: rest →
    s.pwr.moor = .running → tabFind s.barges.busy b = none → (getQ s (bargeEng b) c).halt = false →
    hasTurn s (bargeEng b) 0 c (bargeReady s b) → Does (.fetchSlice b c) s fun t =>
      fetchesOf t b c = (if r.count ≤ 256 then rest
        else { r with addr := r.addr + 256 * 4096, count := r.count - 256 } :: rest) ∧
      t.mem.bytes = s.mem.bytes ∧
      (windowsPermit s (ctxPart c) r.addr (min 256 r.count * 4096) false = false →
        (getQ t (bargeEng b) c).halt = true ∧ t.mem.gran = s.mem.gran)) ∧
  ∀ (d : Nat) (s : State), (tabGet {} s.mem.decks d).periodUs ≠ 0 → s.pwr.moor = .running → Does (.residencyEpochTick d) s fun t =>
    (tabGet {} t.mem.decks d).epoch = (tabGet {} s.mem.decks d).epoch + 1 ∧
    (∀ g, tabFind t.mem.gran g = (tabFind s.mem.gran g).map fun x =>
      if x.store / 36 = d ∧ x.pins = [] ∧ x.age ≠ 255 then { x with age := x.age + 1 } else x) ∧
    (∀ j, j ≠ d → tabGet {} t.mem.decks j = tabGet {} s.mem.decks j) ∧
    t = { s with mem := { s.mem with decks := t.mem.decks, gran := t.mem.gran } }

/-- What background units count (spec/07 R182, R183, R187): a corrected word counts in its stack or deck; an uncorrectable
HBM word is known from then on, counts, stands in the stack's address register if none does, and is logged. The bytes of
memory do not change. A unit runs on an engine that stands between units, and, unless forced, with none of its own to run
(spec/14 R363). -/
def backgroundUnitsCount : Prop :=
  ∀ (e : Eng) (forced : Bool) (a k : Nat) (s : State), s.pwr.moor = .running → inUnit s e = false →
    (foreground s e = true → forced = false → ∀ f, exec (.backgroundUnit e forced f) s = .next s) ∧
    (foreground s e = false ∨ forced = true →
    (a < unifiedEnd → Does (.backgroundUnit e forced (.hbmCorrected a)) s fun t =>
      (tabGet {} t.mem.stackErrs (stackOf a)).ce.toNat = min 0xFFFFFFFF ((tabGet {} s.mem.stackErrs (stackOf a)).ce.toNat + 1) ∧
      t = { s with mem := { s.mem with stackErrs := t.mem.stackErrs } }) ∧
    (k < 16 → Does (.backgroundUnit e forced (.hbmOnDie k)) s fun t =>
      (tabGet {} t.mem.stackErrs k).ondie.toNat = min 0xFFFFFFFF ((tabGet {} s.mem.stackErrs k).ondie.toNat + 1) ∧
      t = { s with mem := { s.mem with stackErrs := t.mem.stackErrs } }) ∧
    (a < unifiedEnd → Does (.backgroundUnit e forced (.hbmBad a)) s fun t =>
      let x := tabGet {} s.mem.stackErrs (stackOf a)
      (∀ j, j ∈ t.mem.badHbm ↔ j = a / 32 ∨ j ∈ s.mem.badHbm) ∧
      tabGet {} t.mem.stackErrs (stackOf a) = { x with
        ue := BitVec.ofNat 32 (min 0xFFFFFFFF (x.ue.toNat + 1)), ueValid := true
        ueAddr := if x.ueValid then x.ueAddr else BitVec.ofNat 48 (a / 32 * 32) } ∧
      (s.evt.buf < 256 → t.evt.head = s.evt.head + 1 ∧ (tabGet {} t.evt.log (s.evt.head.toNat % 65536)).code = some .eccUe ∧
        (tabGet {} t.evt.log (s.evt.head.toNat % 65536)).scrub = true) ∧
      t = { s with mem := { s.mem with badHbm := t.mem.badHbm, stackErrs := t.mem.stackErrs }, evt := t.evt, outs := t.outs }) ∧
    (∀ g, tabFind s.mem.gran (a / 4096) = some g →
      (Does (.backgroundUnit e forced (.sramCorrected a)) s fun t =>
        (tabGet {} t.mem.decks (g.store / 36)).sramCe.toNat =
          min 0xFFFFFFFF ((tabGet {} s.mem.decks (g.store / 36)).sramCe.toNat + 1) ∧
        t = { s with mem := { s.mem with decks := t.mem.decks } }) ∧
      Does (.backgroundUnit e forced (.sramBad a)) s fun t =>
        (∀ j, j ∈ t.mem.badSram ↔ j = a / 8 ∨ j ∈ s.mem.badSram) ∧
        (tabGet {} t.mem.decks (g.store / 36)).sramUe.toNat =
          min 0xFFFFFFFF ((tabGet {} s.mem.decks (g.store / 36)).sramUe.toNat + 1) ∧
        (s.evt.buf < 256 → t.evt.head = s.evt.head + 1) ∧
        t = { s with mem := { s.mem with badSram := t.mem.badSram, decks := t.mem.decks }, evt := t.evt, outs := t.outs }) ∧
    exec (.backgroundUnit e forced .nothing) s = .next s)

end Sys2Proof.Claim

/-- Schedules, epochs and the background units: `schedulesAndEpochs`; `backgroundUnitsCount`. -/
def Obligations.SchedulesAndBackground : Prop := schedulesAndEpochs ∧ backgroundUnitsCount

/-! ### Collectives -/

namespace Sys2Proof.Claim

/-- A COLLECTIVE starts (spec/16 R422, R423): one that is no all-to-all allows its predecessor step 1; an all-to-all waits
for the chunks of all other members. -/
def collectivesStart : Prop :=
  ∀ (b c : Nat) (q : QCmd) (s : State), bargeRuns s b c 0x45 q → collOk q.bytes = true → clean s →
    let cmd := q.bytes
    let n := fld cmd 4 2
    let rank := fld cmd 6 2
    let chunk := fld cmd 32 4
    let table := memRead s.mem.bytes (fld cmd 8 8) (16 * n)
    let pred := bits (fld table (16 * ((rank + n - 1) % n)) 2) 11 0
    let step := if fld cmd 3 1 = 1 then 2 * chunk else chunk
    mayAccess s (whoColl b c) (fld cmd 8 8) (16 * n) false = true →
    fld cmd 16 8 + (if fld cmd 2 1 = 1 then chunk else n * chunk) ≤ wheelBase →
    fld cmd 24 8 + (if fld cmd 2 1 = 2 then chunk else n * chunk) ≤ wheelBase →
    (fld cmd 2 1 = 3 ∨ fld table (16 * rank + 8) 8 + 2 * step ≤ wheelBase) →
    let begun := fun (x : CollOp) => x.cmd = q ∧ x.id = fld cmd 40 8 ∧ x.kind = fld cmd 2 1 ∧ x.efmt = fld cmd 3 1 ∧
      x.rank = rank ∧ x.n = n ∧ x.src = fld cmd 16 8 ∧ x.dst = fld cmd 24 8 ∧ x.chunk = chunk ∧ x.recv = 0 ∧ x.sent = 0
    (∀ p u, fld cmd 2 1 ≠ 3 → pred ≠ ownModule s → choosePort s pred = some (p, u) → Does (.collective b c) s fun t =>
      headGone s t (bargeEng b) c ∧ (∃ x, getColl t b c = some x ∧ begun x ∧ x.used = [(p, pred)]) ∧
      (getPath t p pred).sendq = (getPath s p pred).sendq ++ [{ op := 0x09, vc := 0, ctx := c, addr := fld cmd 40 8, arg := 1 }] ∧
      t.mem = s.mem) ∧
    (fld cmd 2 1 = 3 → Does (.collective b c) s fun t =>
      headGone s t (bargeEng b) c ∧
      (∃ x, getColl t b c = some x ∧ begun x ∧ x.chunks = (List.range n).filter (· ≠ rank)) ∧ t.fry = s.fry ∧ t.mem = s.mem)

/-- A unit of a running COLLECTIVE may run: the barge and the turn are its, and no error has ended it. -/
def collRuns (s : State) (b c : Nat) (x : CollOp) : Prop :=
  b < 32 ∧ c < 128 ∧ getColl s b c = some x ∧ tabFind s.barges.busy b = none ∧ x.verdict = none ∧ x.ready = true ∧
  hasTurn s (bargeEng b) 0 c (bargeReady s b)

/-- The units of a COLLECTIVE (spec/16 R423, R424). A step that its successor allows is sent, here in one piece; a step
received is added to the member's own chunk of SRC, or stored in DST, and what it leaves is what the next step sends; with
every step sent and received, or every chunk delivered, the command completes. -/
def collectivesRun : Prop :=
  ∀ (b c : Nat) (x : CollOp) (s : State), collRuns s b c x →
    (x.done = true → plainReport s x.cmd → Does (.collective b c) s fun t =>
      getColl t b c = none ∧ (∀ j, j ≠ bargeKey b c → tabFind t.barges.colls j = tabFind s.barges.colls j) ∧
      t.mem.bytes = s.mem.bytes ∧ t.fry = s.fry) ∧
    (∀ p u, x.done = false → x.kind ≠ 3 → x.maySend = true → x.sent ≠ 0 →
      let m := x.moduleOf x.succ
      let v := x.cur.drop x.sentOff
      m ≠ ownModule s → collPort s x m = some (p, u) → v ≠ [] → v.length ≤ 8192 →
      x.sentOff + v.length = x.travel x.sent → Does (.collective b c) s fun t =>
        getColl t b c = some ({ x with sent := x.sent + 1, sentOff := 0, cur := [] }.use p m) ∧
        (getPath t p m).sendq = (getPath s p m).sendq ++
          [{ op := 0x08, vc := 4, ctx := c, addr := x.id, offset := x.sentOff, arg := x.sent, payload := v }] ∧
        t.mem = s.mem) ∧
    (x.done = false → x.maySend = false → x.mayConsume = true → x.steps ≤ x.recv + 2 → x.recvOff = 0 → x.next = [] →
      x.travel x.recv ≤ 0x400000 → clean s → openTo s (whoColl b c) →
      x.stage x.recv + x.travel x.recv ≤ wheelBase →
      let v := memRead s.mem.bytes (x.stage x.recv) (x.travel x.recv)
      (x.sumSteps ≤ x.recv → x.dst + x.recvChunk x.recv * x.chunk + v.length ≤ wheelBase → Does (.collective b c) s fun t =>
        getColl t b c = some { x with recv := x.recv + 1, cur := v } ∧
        memRead t.mem.bytes (x.dst + x.recvChunk x.recv * x.chunk) v.length = v ∧
        ∀ a, a < x.dst + x.recvChunk x.recv * x.chunk ∨ x.dst + x.recvChunk x.recv * x.chunk + v.length ≤ a →
          memGet t.mem.bytes a = memGet s.mem.bytes a) ∧
      (x.recv + 1 < x.sumSteps → x.kind ≠ 1 → x.efmt ≠ 1 → x.src + (x.recvChunk x.recv + 1) * x.chunk ≤ wheelBase →
        Does (.collective b c) s fun t =>
          getColl t b c = some { x with
            recv := x.recv + 1
            cur := addWords x.efmt v (memRead s.mem.bytes (x.src + x.recvChunk x.recv * x.chunk) x.chunk) } ∧
          t.mem = s.mem))

/-- Until its first piece has come a COLLECTIVE may tell its predecessor again that it is ready; past its time, where it
still waits, it ends, with undefined contents in DST (spec/16 R423, R424). -/
def collectivesWait : Prop :=
  ∀ (b c : Nat) (x : CollOp) (s : State), b < 32 → c < 128 → getColl s b c = some x →
    (∀ p u, x.kind ≠ 3 → x.begun = false → x.moduleOf x.pred ≠ ownModule s → collPort s x (x.moduleOf x.pred) = some (p, u) →
      Does (.collReadyRepeat b c) s fun t =>
        (getPath t p (x.moduleOf x.pred)).sendq = (getPath s p (x.moduleOf x.pred)).sendq ++
          [{ op := 0x09, vc := 0, ctx := c, addr := x.id, arg := 1 }] ∧
        getColl t b c = some (x.use p (x.moduleOf x.pred)) ∧ t.mem = s.mem) ∧
    (x.ready = false → Does (.collectiveTimeout b c) s fun t =>
      getColl t b c = none ∧ (∀ j, j ≠ bargeKey b c → tabFind t.barges.colls j = tabFind s.barges.colls j) ∧
      ∀ a, a < x.dst ∨ x.dst + (if x.kind = 2 then x.chunk else x.n * x.chunk) ≤ a → memGet t.mem.bytes a = memGet s.mem.bytes a) ∧
    (x.ready = true → exec (.collectiveTimeout b c) s = .next s)

/-- The one COLLECTIVE with an identifier. -/
def onlyColl (s : State) (b c : Nat) (x : CollOp) (id : Nat) : Prop :=
  b < 32 ∧ c < 128 ∧ getColl s b c = some x ∧ x.id = id ∧ (bargeKey b c, x) ∈ s.barges.colls ∧
  ∀ k ∈ s.barges.colls, k.2.id = id → k = (bargeKey b c, x)

/-- Frames of a COLLECTIVE (spec/16 R423): a piece of its predecessor counts for its step and stands in the staging area; a
COLL_READY of its successor raises the step allowed; one for an all-to-all says that a chunk is delivered. -/
def collectiveFrames : Prop :=
  ∀ (p : Nat) (f : FFrame) (b c : Nat) (x : CollOp) (s : State), onlyColl s b c x f.addr →
    (arrives s p f 0x08 → f.src = x.moduleOf x.pred → x.kind ≠ 3 → f.arg < x.steps → x.recv ≤ f.arg → clean s →
      mayAccess s (whoColl b c) (x.stage f.arg + f.offset) f.payload.length true = true → Does (.coll p f) s fun t =>
        getColl t b c = some { x.use p f.src with
          begun := true, got := tabPut x.got f.arg (tabGet 0 x.got f.arg + f.payload.length) } ∧
        memRead t.mem.bytes (x.stage f.arg + f.offset) f.payload.length = f.payload ∧
        ∀ a, a < x.stage f.arg + f.offset ∨ x.stage f.arg + f.offset + f.payload.length ≤ a →
          memGet t.mem.bytes a = memGet s.mem.bytes a) ∧
    (arrives s p f 0x09 → f.arg ≠ 0xFFFF → x.kind ≠ 3 → f.src = x.moduleOf x.succ → Does (.collReady p f) s fun t =>
      getColl t b c = some { x with allowed := some (max (x.allowed.getD 0) f.arg) } ∧
      (∀ j, j ≠ bargeKey b c → tabFind t.barges.colls j = tabFind s.barges.colls j) ∧ t.mem = s.mem) ∧
    (arrives s p f 0x09 → f.arg = 0xFFFF → x.kind = 3 → (∃ r ∈ x.chunks, x.moduleOf r = f.src) → Does (.collReady p f) s fun t =>
      (∃ r ∈ x.chunks, x.moduleOf r = f.src ∧ getColl t b c = some { x with chunks := x.chunks.erase r }) ∧ t.mem = s.mem)

end Sys2Proof.Claim

/-- COLLECTIVE: `collectivesStart`; `collectivesRun`; `collectivesWait`; `collectiveFrames`. -/
def Obligations.CollectivesRun : Prop := collectivesStart ∧ collectivesRun ∧ collectivesWait ∧ collectiveFrames

/-! ### The percolator -/

namespace Sys2Proof.Claim

/-- A query of a slice may run a unit: it has met no error, and its context has the turn among those with a unit or a command
ready (spec/09 R217). -/
def queryRuns (s : State) (k q : Nat) (x : Query) : Prop :=
  k < 16 ∧ tabFind (getSlice s k).queries q = some x ∧ x.verdict = none ∧ hasTurn s (sliceEng k) 0 x.ctx (sliceReady s k)

/-- The lists a QUERY names to probe. -/
def probeList (s : State) (b : Bytes) : List Nat :=
  let n := if qExhaustive b then 0 else fld b 6 2
  (List.range n).map fun i => fld (memRead s.mem.bytes (fld b 32 8) (4 * n)) (4 * i) 4

/-- Everything a QUERY names on a shard of `dim` dimensions lies below the wheelhouse region. -/
def queryFits (b : Bytes) (dim : Nat) : Prop :=
  fld b 16 8 + 192 ≤ wheelBase ∧ fld b 24 8 + 4 * dim ≤ wheelBase ∧
  (qExhaustive b = true ∨ fld b 32 8 + 4 * fld b 6 2 ≤ wheelBase) ∧
  fld b 40 8 + 144 ≤ wheelBase ∧ fld b 48 8 + qScratch b ≤ wheelBase ∧ fld b 56 8 + 32 + 32 * qK b ≤ wheelBase

/-- How a QUERY comes in (spec/09 R214, R215, R232): one that is well formed, with probes of the shard's lists and a filter
that keeps the rules, waits, checked; one that is not fails with INTERNAL. In its context's turn and within its partition's
share it is admitted, at the shard's epoch or the one it pins, and of memory only its SCRATCH changes. -/
def queriesComeIn : Prop :=
  (∀ (k c : Nat) (q : QCmd) (terms : List (Nat × Nat × Nat)) (s : State), k < 16 → c < 128 →
    atHead s (sliceEng k) c 0x80 q → q.checked = false →
    let b := q.bytes
    let x := shardOf (fld b 16 8) (memRead s.mem.bytes (fld b 16 8) 192)
    (queryOk b = true → clean s → openTo s (whoOf (sliceEng k) c) → queryFits b x.dim →
      (qExhaustive b = true ∨ if x.code = 4 then qK b ≤ qRefine b ∧ qRefine b ≤ 16384 else qRefine b = 0) →
      (∀ l ∈ probeList s b, l < x.lists) →
      (if fld b 40 8 = 0 then terms = [] else filterTerms (memRead s.mem.bytes (fld b 40 8) 144) = some terms) →
      Does (.query k c) s fun t =>
        (getQ t (sliceEng k) c).queue = { q with checked := true } :: (getQ s (sliceEng k) c).queue.tail ∧
        otherQueues s t (sliceEng k) c ∧
        tabFind (getSlice t k).heads c = some { probes := probeList s b, terms := terms } ∧
        (getSlice t k).queries = (getSlice s k).queries ∧ t.mem = s.mem) ∧
    (queryOk b = false → Does (.query k c) s fun t => headFails s t (sliceEng k) c q .internal)) ∧
  (∀ (k c : Nat) (q : QCmd) (s : State), k < 16 → c < 128 → waitingQuery s k c = some q →
    hasTurn s (sliceEng k) 0 c (admitReady s k) → clean s → openTo s (whoOf (sliceEng k) c) →
    let b := q.bytes
    let d := memRead s.mem.bytes (fld b 16 8) 192
    let x := shardOf (fld b 16 8) d
    let h := tabGet {} (getSlice s k).heads c
    let e := if qPinned b then fld b 10 6 else fld d 64 6
    isAttached s (fld b 16 8) = true → queryFits b x.dim →
    (qPinned b = true → e ≤ fld d 64 6 ∧ fld d 136 6 ≤ e ∧ (fld d 96 1 = 0 ∨ fld d 112 6 ≤ e)) →
    Does (.queryAdmit k c) s fun t =>
      headGone s t (sliceEng k) c ∧ t.pcl.order = s.pcl.order + 1 ∧ tabFind (getSlice t k).heads c = none ∧
      tabFind (getSlice t k).queries s.pcl.order = some
        { ctx := c, cmd := q, order := s.pcl.order, shard := x, epoch := e, terms := h.terms, screening := decide (x.code = 4)
          vec := (List.range x.dim).map fun i =>
            BitVec.ofNat 32 (fld (memRead s.mem.bytes (fld b 24 8) (4 * x.dim)) (4 * i) 4)
          probes := if qExhaustive b then List.range x.lists else h.probes.eraseDups } ∧
      ∀ a, a < fld b 48 8 ∨ fld b 48 8 + qScratch b ≤ a → memGet t.mem.bytes a = memGet s.mem.bytes a) ∧
  ∀ (k c : Nat) (s : State), queryRoom s k c = false → exec (.queryAdmit k c) s = .next s

/-- The units of a query (spec/09 R216-R219, R222, R233). A head unit takes the next list into a stream that is free; a
block unit passes over its block and on to the next, seeing the slots that are visible at its epoch and pass its filter; a
refine unit takes the next survivor and gives it its exact key. No byte of memory changes. -/
def queryUnitsRun : Prop :=
  (∀ (k q stream l : Nat) (rest : List Nat) (x : Query) (s : State), queryRuns s k q x → stream < 4 →
    tabFind x.streams stream = none → x.probes = l :: rest → clean s →
    mayAccess s (whoOf (sliceEng k) x.ctx) (x.shard.heads + 32 * l) 32 false = true → (x.screening = false ∨ rest ≠ []) →
    let head := fld (memRead s.mem.bytes (x.shard.heads + 32 * l) 32) 0 8
    Does (.pclHeadUnit k q stream) s fun t =>
      tabFind (getSlice t k).queries q = some { x with
        probes := rest, lists := x.lists + 1
        streams := if head = 0 then x.streams else tabPut x.streams stream { list := l, block := head } } ∧
      (∀ j, j ≠ q → tabFind (getSlice t k).queries j = tabFind (getSlice s k).queries j) ∧ t.mem = s.mem) ∧
  (∀ (k q stream : Nat) (b : PclStream) (x : Query) (s : State), queryRuns s k q x → tabFind x.streams stream = some b →
    clean s → openTo s (whoOf (sliceEng k) x.ctx) →
    b.block + 64 + (32 + x.shard.csz) * x.shard.epb + 2 * x.shard.dim ≤ wheelBase →
    let h := memRead s.mem.bytes b.block 64
    let n := min (fld h 8 2) x.shard.epb
    let low := fld h 16 8 % 2 ^ 48
    let sights := (List.range n).filter fun i =>
      let m := metaOf (memRead s.mem.bytes (x.shard.metaAt b.block i) 32)
      sees x.epoch m && passesFilter x.terms m.attr
    let streams := if fld h 0 8 = 0 then tabDel x.streams stream
      else tabPut x.streams stream { list := b.list, block := fld h 0 8, ord := b.ord + n }
    Does (.pclBlockUnit k q stream) s fun t =>
      (getSlice t k).blocks = (getSlice s k).blocks + 1 ∧ t.mem = s.mem ∧
      (∃ y, tabFind (getSlice t k).queries q = some y ∧ y.streams = streams ∧ y.probes = x.probes ∧ y.epoch = x.epoch ∧
        y.seen = x.seen + if low = 0 ∨ x.epoch < low then 0 else sights.length) ∧
      (low = 0 ∨ x.epoch < low → x.screening = false ∨ x.probes ≠ [] →
        tabFind (getSlice t k).queries q = some { x with streams := streams })) ∧
  ∀ (k q : Nat) (r : SelRec) (rest : List SelRec) (x : Query) (s : State), queryRuns s k q x → x.scanned = true →
    x.screening = false → x.todo = r :: rest → clean s →
    mayAccess s (whoOf (sliceEng k) x.ctx) r.at_ (x.shard.dim / 2) false = true → x.held.length < qK x.cmd.bytes →
    Does (.pclRefineUnit k q) s fun t =>
      (∃ y, tabFind (getSlice t k).queries q = some y ∧ y.todo = rest ∧ y.held.length = x.held.length + 1 ∧ y.cut = x.cut ∧
        ∃ z ∈ y.held, z.pay = r.pay ∧ z.key = entryKey x.shard.metric (queryVals x.shard.dim x.vec)
          (entryVals 2 x.shard.dim (memRead s.mem.bytes r.at_ (x.shard.dim / 2)) r.scale)) ∧ t.mem = s.mem

/-- How a query ends (spec/09 R221, R223, R241, R243): finished, it writes its result region and leaves the slice; stopped by
a status that its summary carries, it writes that status, with COUNT 0. Only SCRATCH and the result region are written. -/
def queriesEnd : Prop :=
  ∀ (k q : Nat) (x : Query) (s : State), k < 16 → tabFind (getSlice s k).queries q = some x → clean s →
    let w := whoOf (sliceEng k) x.ctx
    let a := fld x.cmd.bytes 56 8
    (x.verdict = none → x.scanned = true → x.screening = false → x.todo = [] →
      let out := ((finalSelect x).out.map (recBytes (queryOrder x).1)).flatten
      mayAccess s w (fld x.cmd.bytes 48 8) (qScratch x.cmd.bytes) true = true →
      mayAccess s w (a + 32) out.length true = true → mayAccess s w a 32 true = true → Does (.queryResultWrite k q) s fun t =>
        tabFind (getSlice t k).queries q = none ∧ (getSlice t k).ended = (getSlice s k).ended + 1 ∧
        (∀ j, j ≠ q → tabFind (getSlice t k).queries j = tabFind (getSlice s k).queries j) ∧
        memRead t.mem.bytes a 32 = toLe 4 (finalSelect x).status.code ++ toLe 4 (finalSelect x).count ++
          toLe 4 (finalSelect x).ties ++ toLe 4 x.lists ++ toLe 8 x.epoch ++ toLe 8 x.seen ∧
        memRead t.mem.bytes (a + 32) out.length = out ∧ t.engs = s.engs ∧
        ∀ b, (b < fld x.cmd.bytes 48 8 ∨ fld x.cmd.bytes 48 8 + qScratch x.cmd.bytes ≤ b) →
          (b < a ∨ a + 32 + out.length ≤ b) → memGet t.mem.bytes b = memGet s.mem.bytes b) ∧
    ∀ st, x.verdict = some st → st.halts = false → mayAccess s w a 32 true = true → Does (.queryResultWrite k q) s fun t =>
      tabFind (getSlice t k).queries q = none ∧ (getSlice t k).ended = (getSlice s k).ended + 1 ∧
      memRead t.mem.bytes a 32 = toLe 4 st.code ++ toLe 4 0 ++ toLe 4 0 ++ toLe 4 x.lists ++ toLe 8 x.epoch ++ toLe 8 x.seen ∧
      t.engs = s.engs ∧ ∀ b, b < a ∨ a + 32 ≤ b → memGet t.mem.bytes b = memGet s.mem.bytes b

end Sys2Proof.Claim

/-- A query, from its queue to its result (`query`, `queryAdmit`, `pclHeadUnit`, `pclBlockUnit`, `pclRefineUnit`,
`queryResultWrite`): `queriesComeIn`; `queryUnitsRun`; `queriesEnd`. -/
def Obligations.QueriesRun : Prop := queriesComeIn ∧ queryUnitsRun ∧ queriesEnd

namespace Sys2Proof.Claim

/-- A command about a shard stands at the head of its context's queue with the turn, well formed, on a slice; `d` is the
descriptor it names. -/
def shardCmd (s : State) (k c op : Nat) (q : QCmd) (d : Bytes) : Prop :=
  k < 16 ∧ c < 128 ∧ atHead s (sliceEng k) c op q ∧ hasTurn s (sliceEng k) 0 c (sliceReady s k) ∧ shardCmdOk q.bytes = true ∧
  d = memRead s.mem.bytes (fld q.bytes 8 8) 192 ∧ bits (fld d 12 1) 3 0 = k ∧ fld q.bytes 8 8 + 192 ≤ wheelBase ∧
  clean s ∧ openTo s (whoWriter k c)

/-- ATTACH, DETACH and COMPACT (spec/09 R235, R239-R241). An ATTACH whose checks pass gives the shard the lowest free slot,
and with no step to recover is done, the update queue at its mark; one that finds a chain retiring waits for the queries
active then. A shard that holds a slot is attached no second time. A DETACH is the disable point: the slot is no longer
attached and its queries stop; a COMPACT records the run in the descriptor and writes nothing else. -/
def shardsAttach : Prop :=
  (∀ (k c i : Nat) (q : QCmd) (d : Bytes) (s : State), shardCmd s k c 0x81 q d →
    let a := fld q.bytes 8 8
    let x := shardOf a d
    let y := getSq s x.updq
    descOk9 a d = true → y.consumer.toNat = c → slotOf s a = none →
    (List.range 4).find? (fun i => (getSlot s k i).isNone) = some i → fld d 88 8 % 2 ^ 48 = 0 →
    (fld d 96 1 = 0 → Does (.pclAttach k c) s fun t =>
      headGone s t (sliceEng k) c ∧ getSlot t k i = some { shard := x, ctx := c } ∧
      (getSq t x.updq).markValid = true ∧ (getSq t x.updq).readPkt = (if y.markValid then y.markPkt else y.readPkt) ∧
      (∀ j, j ≠ i → getSlot t k j = getSlot s k j) ∧ (getSlice t k).queries = (getSlice s k).queries ∧ t.mem = s.mem) ∧
    (fld d 96 1 = 2 → Does (.pclAttach k c) s fun t =>
      headGone s t (sliceEng k) c ∧ t.pcl.order = s.pcl.order + 1 ∧
      getSlot t k i = some { shard := x, ctx := c, attached := false, flip := some s.pcl.order, attach := some q } ∧
      (∀ j, j ≠ i → getSlot t k j = getSlot s k j) ∧ t.slip = s.slip ∧ t.pur = s.pur ∧ t.mem = s.mem)) ∧
  (∀ (k c : Nat) (q : QCmd) (s : State), k < 16 → c < 128 → hasTurn s (sliceEng k) 0 c (sliceReady s k) →
    atHead s (sliceEng k) c 0x81 q → (slotOf s (fld q.bytes 8 8)).isSome = true → clean s →
    mayAccess s (whoOf (sliceEng k) c) (fld q.bytes 8 8) 192 false = true → Does (.pclAttach k c) s fun t =>
      headFails s t (sliceEng k) c q .internal ∧ t.pcl = s.pcl ∧ t.mem = s.mem) ∧
  (∀ (k c i : Nat) (q : QCmd) (d : Bytes) (x : WriterSlot) (s : State), shardCmd s k c 0x82 q d →
    slotOf s (fld q.bytes 8 8) = some (k, i, x) → x.attach = none → (x.attached = true → x.ctx = c) →
    Does (.pclDetach k c) s fun t =>
      (getQ t (sliceEng k) c).queue.map (·.bytes) = (getQ s (sliceEng k) c).queue.tail.map (·.bytes) ∧
      getSlot t k i = some { x with attached := false, detach := x.detach ++ [(c, q)] } ∧
      (∀ j y, tabFind (getSlice s k).queries j = some y → y.shard.addr = x.shard.addr → y.working = true →
        tabFind (getSlice t k).queries j = some { y with verdict := some .abortedDisabled }) ∧ t.mem = s.mem) ∧
  ∀ (k c i : Nat) (q : QCmd) (d : Bytes) (x : WriterSlot) (s : State), shardCmd s k c 0x83 q d →
    slotOf s (fld q.bytes 8 8) = some (k, i, x) → x.attach = none → x.attached = true → x.ctx = c →
    fld q.bytes 16 4 + fld q.bytes 20 4 ≤ x.shard.lists → runActive s x = false → Does (.compact k c) s fun t =>
      headGone s t (sliceEng k) c ∧ leNat (memRead t.mem.bytes (x.shard.addr + 100) 4) = fld q.bytes 16 4 ∧
      leNat (memRead t.mem.bytes (x.shard.addr + 104) 4) = (fld q.bytes 16 4 + fld q.bytes 20 4) % 2 ^ 32 ∧
      ∀ a, a < x.shard.addr + 100 ∨ x.shard.addr + 108 ≤ a → memGet t.mem.bytes a = memGet s.mem.bytes a

/-- The next packet of a writer may be applied: the writer runs, a packet waits, it is the packets' turn, and the context
has the slice's. -/
def packetRuns (s : State) (k i : Nat) (x : WriterSlot) : Prop :=
  k < 16 ∧ getSlot s k i = some x ∧ writerRuns s x = true ∧ packetReady s x = true ∧
  (x.packetLast = false ∨ pieceReady s x = false) ∧ hasTurn s (sliceEng k) 0 x.ctx (sliceReady s k)

/-- Update packets (spec/09 R227-R231, R243, R495). Whatever the packet holds, it is read once and released, with the mark
after it. One whose frame names no word is rejected: counted, logged, with nothing written. A well-formed delete of an
ID in an empty list publishes the next epoch and changes nothing else; an insert into a tail block with room publishes its slot
at the next epoch, and writes the slot, its block's header, its list's head entry, one journal word and the descriptor. -/
def packetsApply : Prop :=
  ∀ (k i : Nat) (x : WriterSlot) (s : State), packetRuns s k i x →
    let sh := x.shard
    let y := getSq s sh.updq
    let f := memRead s.mem.bytes (frameAddr y y.readPkt.toNat) 16
    let word := fun n => memRead s.mem.bytes (wordAddr y (fld f 0 8 + n)) 32
    let d := memRead s.mem.bytes sh.addr 192
    let l := fld (word 1) 0 4
    let he := memRead s.mem.bytes (sh.heads + 32 * l) 32
    let tail := fld he 8 8
    let n := fld (memRead s.mem.bytes tail 64) 8 2
    (Does (.updatePacketApply k i) s fun t =>
      (getSq t sh.updq).readPkt = y.readPkt + 1 ∧ (getSq t sh.updq).readOff = 0 ∧ (getSq t sh.updq).markValid = true ∧
      ((getSlice t k).rejected = (getSlice s k).rejected ∨ (getSlice t k).rejected = (getSlice s k).rejected + 1) ∧
      (getSlice t k).queries = (getSlice s k).queries) ∧
    (clean s → mayAccess s (whoWriter k x.ctx) (frameAddr y y.readPkt.toNat) 16 false = true → fld f 8 2 = 0 →
      Does (.updatePacketApply k i) s fun t => (getSlice t k).rejected = (getSlice s k).rejected + 1 ∧ t.mem = s.mem ∧
        (s.evt.buf < 256 → (tabGet {} t.evt.log (s.evt.head.toNat % 65536)).code = some .updateRejected)) ∧
    (clean s → openTo s (whoWriter k x.ctx) → y.base.toNat + 48 * y.size ≤ wheelBase → 0 < y.size →
      sh.addr + 192 ≤ wheelBase → sh.heads + 32 * l + 32 ≤ wheelBase → fld d 64 6 + 1 < 2 ^ 48 →
      zeroAt (word 0) 1 3 = true → fld (word 0) 4 4 = 1 → zeroAt (word 0) 8 24 = true →
      (fld (word 0) 0 1 = 2 → fld f 8 2 = 2 → recordOk sh false (word 1) = true → fld he 0 8 = 0 → fld d 96 1 = 0 →
        Does (.updatePacketApply k i) s fun t => (getSlice t k).rejected = (getSlice s k).rejected ∧
          leNat (memRead t.mem.bytes (sh.addr + 64) 8) = fld d 64 6 + 1 ∧
          leNat (memRead t.mem.bytes (sh.addr + 88) 8) = 0 ∧
          leNat (memRead t.mem.bytes (sh.addr + 144) 8) = (fld d 144 8 + 1) % 2 ^ 64 ∧
          ∀ a, (a < sh.addr + 64 ∨ sh.addr + 72 ≤ a) → (a < sh.addr + 88 ∨ sh.addr + 96 ≤ a) →
            (a < sh.addr + 144 ∨ sh.addr + 152 ≤ a) → memGet t.mem.bytes a = memGet s.mem.bytes a) ∧
      (fld (word 0) 0 1 = 1 → fld f 8 2 = 2 + sh.csz / 32 → recordOk sh true (word 1) = true → tail ≠ 0 → n < sh.epb →
        fld d 84 4 + 1 < 2 ^ 32 → tail + 4096 ≤ wheelBase → sh.journal + 8 ≤ wheelBase →
        ([(sh.addr, 192), (sh.heads + 32 * l, 32), (tail, 4096), (sh.journal, 8)].Pairwise
          fun u v => u.1 + u.2 ≤ v.1 ∨ v.1 + v.2 ≤ u.1) →
        Does (.updatePacketApply k i) s fun t => (getSlice t k).rejected = (getSlice s k).rejected ∧
          leNat (memRead t.mem.bytes (sh.addr + 64) 8) = fld d 64 6 + 1 ∧
          metaOf (memRead t.mem.bytes (sh.metaAt tail n) 32) =
            { id := fld (word 1) 8 8, attr := fld (word 1) 16 8, ins := fld d 64 6 + 1, scale := fld (word 1) 4 2 } ∧
          memRead t.mem.bytes (sh.codeAt tail n) (32 * (sh.csz / 32)) =
            ((List.range (sh.csz / 32)).map fun j => word (2 + j)).flatten ∧
          fld (memRead t.mem.bytes tail 64) 8 2 = n + 1 ∧
          ∀ a, (a < sh.addr + 64 ∨ sh.addr + 152 ≤ a) → (a < sh.heads + 32 * l ∨ sh.heads + 32 * l + 32 ≤ a) →
            (a < tail ∨ tail + 4096 ≤ a) → (a < sh.journal ∨ sh.journal + 8 ≤ a) →
            memGet t.mem.bytes a = memGet s.mem.bytes a))

/-- Compaction (spec/09 R235-R238, R240). A piece passes over a list with nothing to copy; where the copy has reached the old
tail it flips: one write of the head entry moves the list to its new chain, and the old one retires. The old chain goes back
only when no query admitted before the flip is left; an ATTACH that waited for it is then done. -/
def listsCompact : Prop :=
  (∀ (k i : Nat) (x : WriterSlot) (s : State), k < 16 → getSlot s k i = some x → writerRuns s x = true →
    pieceReady s x = true → (x.packetLast = true ∨ packetReady s x = false) →
    hasTurn s (sliceEng k) 0 x.ctx (sliceReady s k) → clean s → openTo s (whoWriter k x.ctx) →
    let sh := x.shard
    let d := memRead s.mem.bytes sh.addr 192
    sh.addr + 192 ≤ wheelBase →
    (let at_ := sh.heads + 32 * fld d 100 4
     let he := memRead s.mem.bytes at_ 32
     x.step = none → at_ + 32 ≤ wheelBase → fld he 0 8 = fld he 8 8 → Does (.compactionPiece k i) s fun t =>
      getSlot t k i = some { x with packetLast := false } ∧ (getSlice t k).flips = (getSlice s k).flips ∧
      leNat (memRead t.mem.bytes (sh.addr + 96) 1) = 0 ∧
      leNat (memRead t.mem.bytes (sh.addr + 100) 4) = (fld d 100 4 + 1) % 2 ^ 32 ∧
      ∀ a, a < sh.addr + 96 ∨ sh.addr + 136 ≤ a → memGet t.mem.bytes a = memGet s.mem.bytes a) ∧
    ∀ z, let at_ := sh.heads + 32 * z.list
     x.step = some z → z.next = z.tail → z.tail ≠ 0 → z.new = [] → z.tail + 64 ≤ wheelBase → at_ + 32 ≤ wheelBase →
     (at_ + 32 ≤ sh.addr ∨ sh.addr + 192 ≤ at_) → z.tail < 2 ^ 64 → fld (memRead s.mem.bytes z.tail 64) 0 8 = 0 →
     Does (.compactionPiece k i) s fun t =>
      getSlot t k i = some { x with step := none, packetLast := false, flip := some s.pcl.order } ∧
      t.pcl.order = s.pcl.order + 1 ∧ (getSlice t k).flips = (getSlice s k).flips + 1 ∧
      fld (memRead t.mem.bytes at_ 32) 0 8 = z.tail ∧ leNat (memRead t.mem.bytes (sh.addr + 96) 1) = 2 ∧
      ∀ a, (a < sh.addr + 84 ∨ sh.addr + 144 ≤ a) → (a < at_ ∨ at_ + 32 ≤ a) →
        memGet t.mem.bytes a = memGet s.mem.bytes a) ∧
  ∀ (k i o : Nat) (x : WriterSlot) (s : State), k < 16 → getSlot s k i = some x → x.flip = some o →
    ((∃ y ∈ activeOn s x.shard.addr, y.order < o) → exec (.compactionRetire k i) s = .next s) ∧
    ((∀ y ∈ activeOn s x.shard.addr, o ≤ y.order) → x.stopped = false → (writerRuns s x = true ∨ x.attach.isSome = true) →
      hasTurn s (sliceEng k) 0 x.ctx (sliceReady s k) → clean s → openTo s (whoWriter k x.ctx) →
      x.shard.addr + 192 ≤ wheelBase → leNat (memRead s.mem.bytes (x.shard.addr + 108) 4) = 0 →
      Does (.compactionRetire k i) s fun t =>
        getSlot t k i = some { x with attached := x.attached || x.attach.isSome, attach := none, flip := none } ∧
        (x.attach.isSome = true → (getSq t x.shard.updq).markValid = true) ∧
        memGet t.mem.bytes (x.shard.addr + 96) = 0 ∧
        ∀ a, a < x.shard.addr + 96 ∨ x.shard.addr + 136 ≤ a → memGet t.mem.bytes a = memGet s.mem.bytes a)

end Sys2Proof.Claim

/-- The writer of a shard (`pclAttach`, `pclDetach`, `compact`, `updatePacketApply`, `compactionPiece`, `compactionRetire`):
`shardsAttach`; `packetsApply`; `listsCompact`. -/
def Obligations.ShardWriters : Prop := shardsAttach ∧ packetsApply ∧ listsCompact

/-! ### Sort and select -/

namespace Sys2Proof.Claim

/-- The row of a sort/select unit that an opcode names. -/
def ssuRow (k c : Nat) : Nat → Instr
  | 0xA0 => .topk k c | 0xA1 => .sort k c | 0xA2 => .merge k c | 0xA3 => .uniqueCount k c | _ => .filterCompact k c

/-- A selection (spec/10 R247, R253-R255): the sorted order holds every record once, none directly after one it orders
before; a TOPK gives K records, of which COUNT come from the input; with no fewer than K it is OK exactly when no tie was
cut at the K-th. -/
def selectionsKeepTheirRecords : Prop :=
  (∀ (kt : Nat) (largest : Bool) (l : List SelRec),
    (sortRecs kt largest l).Perm l ∧
    ∀ i, i + 1 < (sortRecs kt largest l).length →
      recBefore kt largest ((sortRecs kt largest l).getD (i + 1) {}) ((sortRecs kt largest l).getD i {}) = false) ∧
  ∀ (kt : Nat) (largest dedup : Bool) (k : Nat) (l : List SelRec),
    let r := selectTop kt largest dedup k l
    r.out.length = k ∧ r.count ≤ k ∧ r.count ≤ l.length ∧ (∀ x ∈ r.out.take r.count, x ∈ l) ∧
    (∀ x ∈ r.out.drop r.count, x = fillRec kt largest) ∧
    (r.status = .short ↔ r.count < k) ∧ (r.status = .tieAtK ↔ r.count = k ∧ r.ties ≠ 0) ∧
    (dedup = false → k ≤ l.length → r.count = k)

/-- The input lists of a command, as (address, count): those of a MERGE's list table, which keeps its rules, or the one the
command names. -/
def ssuTable (s : State) (b : Bytes) (lists : List (Nat × Nat)) : Prop :=
  let e := fun j => memRead s.mem.bytes (fld b 16 8 + 16 * j) 16
  if cmdOp b = 0xA2 then
    lists = (List.range (fld b 4 2)).map (fun j => (fld (e j) 0 8, fld (e j) 8 4)) ∧
    ∀ j, j < fld b 4 2 → zeroAt (e j) 12 4 = true ∧ fld (e j) 0 8 % 32 = 0 ∧ fld (e j) 0 8 + 32 * fld (e j) 8 4 ≤ wheelBase
  else lists = [(fld b 16 8, ssuCount b)]

/-- The records of the input lists, in input order. -/
def ssuRecords (s : State) (b : Bytes) (lists : List (Nat × Nat)) : List SelRec :=
  if ssuPacked b then
    let m := memRead s.mem.bytes (fld b 16 8) (keyBytes (ssuType b) * ssuCount b)
    (List.range (ssuCount b)).map fun i =>
      { key := fld m (keyBytes (ssuType b) * i) (keyBytes (ssuType b)), pay := fld b 52 4 + i,
        pos := genPos (fld b 48 3) (fld b 52 4 + i), src := i }
  else lists.zipIdx.foldl (fun acc l => acc ++ listRecs b l.2 acc.length (memRead s.mem.bytes l.1.1 (32 * l.1.2))) []

/-- What each command selects from valid records. -/
def ssuSelection (b : Bytes) (valid : List SelRec) : Selected :=
  let all := fun (l : List SelRec) => ({ out := l, count := l.length } : Selected)
  match cmdOp b with
  | 0xA0 | 0xA2 => selectTop (ssuType b) (ssuLargest b) (ssuDedup b) (ssuK b) valid
  | 0xA1 => all (sortRecs (ssuType b) (ssuLargest b) valid)
  | 0xA3 => all (uniqueRecs (ssuType b) (ssuLargest b) valid)
  | _ => all (valid.filter fun r => predPasses (ssuType b) (fld b 40 8) (ssuPred b) r.key)

/-- A command of a sort/select unit may run a unit of its work: at the head of its queue with the turn, well formed, its
regions within reach. -/
def ssuRuns (s : State) (k c op : Nat) (q : QCmd) (lists : List (Nat × Nat)) : Prop :=
  k < 16 ∧ c < 128 ∧ op ∈ [0xA0, 0xA1, 0xA2, 0xA3, 0xA4] ∧ atHead s (ssuEng k) c op q ∧ ssuOk q.bytes = true ∧
  hasTurn s (ssuEng k) 0 c (ssuReady s k) ∧ clean s ∧ openTo s (whoOf (ssuEng k) c) ∧
  (∀ r ∈ ssuRegions q.bytes, r.2 = 0 ∨ r.1 + r.2 ≤ wheelBase) ∧ ssuTable s q.bytes lists

/-- The commands of a sort/select unit (spec/10 R250-R260): TOPK, SORT, MERGE, UNIQUE_COUNT, FILTER_COMPACT (`topk`,
`sort`, `merge`, `uniqueCount`, `filterCompact`) run in units of at most 1,024 beats, between which the queues are chosen
from anew, and only the last one writes; a row that is too long ends with LENGTH_EXCEEDED and no record written;
otherwise the output holds the records selected, and the summary their count. Each counts when it completes; only its
output, its summary, its working space and its inverse map change. -/
def selectUnitsRun : Prop :=
  ∀ (k c op : Nat) (q : QCmd) (lists : List (Nat × Nat)) (s : State), ssuRuns s k c op q lists →
    let b := q.bytes
    let n := (lists.map (·.2)).sum
    let units := if n ≤ 16777216 then ceilDiv (ssuBeats b n) 1024 else 1
    let u := fun (x : State) => tabGet {} x.ssus k
    let long := 16777216 < ssuCount b ∨ 16777216 < fld b 52 4 + ssuCount b ∨ 16777216 < n
    (q.units + 1 < units → Does (ssuRow k c op) s fun t =>
      (getQ t (ssuEng k) c).queue = { q with units := q.units + 1 } :: (getQ s (ssuEng k) c).queue.tail ∧
      otherQueues s t (ssuEng k) c ∧ t = { s with engs := t.engs }) ∧
    (units ≤ q.units + 1 → Does (ssuRow k c op) s fun t =>
      headGone s t (ssuEng k) c ∧ (u t).commands = (u s).commands + 1 ∧
      (∀ j, j ≠ k → tabGet {} t.ssus j = tabGet {} s.ssus j) ∧
      ∀ a, (∀ r ∈ (ssuRegions b).tail, a < r.1 ∨ r.1 + r.2 ≤ a) → memGet t.mem.bytes a = memGet s.mem.bytes a) ∧
    (units ≤ q.units + 1 → long → Does (ssuRow k c op) s fun t =>
      headGone s t (ssuEng k) c ∧ (u t).elements = (u s).elements ∧
      memRead t.mem.bytes (fld b 32 8) 32 = ssuSummary s .lengthExceeded {} 0 ∧
      ∀ a, a < fld b 32 8 ∨ fld b 32 8 + 32 ≤ a → memGet t.mem.bytes a = memGet s.mem.bytes a) ∧
    (units ≤ q.units + 1 → ¬ long → ssuContinue b = false →
      let input := ssuRecords s b lists
      let valid := input.filter SelRec.valid
      let r := ssuSelection b valid
      let inv := if op = 0xA3 ∧ fld b 40 8 ≠ 0 then inverseMap (ssuType b) r.out input else []
      (fld b 32 8 + 32 ≤ fld b 24 8 ∨ fld b 24 8 + 32 * r.out.length ≤ fld b 32 8) → Does (ssuRow k c op) s fun t =>
        memRead t.mem.bytes (fld b 24 8) (32 * r.out.length) = (r.out.map (recBytes (ssuType b))).flatten ∧
        memRead t.mem.bytes (fld b 32 8) 32 = ssuSummary s r.status r (input.length - valid.length) ∧
        ((fld b 40 8 + inv.length ≤ fld b 24 8 ∨ fld b 24 8 + 32 * r.out.length ≤ fld b 40 8) →
          (fld b 40 8 + inv.length ≤ fld b 32 8 ∨ fld b 32 8 + 32 ≤ fld b 40 8) →
          memRead t.mem.bytes (fld b 40 8) inv.length = inv) ∧
        (u t).elements = (u s).elements + BitVec.ofNat 64 input.length ∧
        (u t).short = (u s).short + (if r.status = .short then 1 else 0) ∧
        (u t).ties = (u s).ties + (if r.status = .tieAtK then 1 else 0))

end Sys2Proof.Claim

/-- The sort and select units: `selectionsKeepTheirRecords`; `selectUnitsRun`. -/
def Obligations.SelectUnitsSelect : Prop := selectionsKeepTheirRecords ∧ selectUnitsRun

/-! ### Gather engines -/

namespace Sys2Proof.Claim

/-- The head command of a context on a gather engine may run, well formed: it has the turn, and no command of the engine is
in progress. -/
def gatherTurn (s : State) (e c op : Nat) (q : QCmd) : Prop :=
  e < 16 ∧ c < 128 ∧ atHead s (gatherEng e) c op q ∧ hasTurn s (gatherEng e) 0 c (gatherReady s e) ∧ (getGe s e).ops = [] ∧
  gatherOk q.bytes = true

/-- The redirect entries of a table say that no row of it is being moved. -/
def rowsAtRest (s : State) (x : TableDesc) : Prop :=
  ∀ n, n < x.redirSlots → x.redirect + 16 * n + 16 ≤ wheelBase ∧
    bits (fld (memRead s.mem.bytes (x.redirect + 16 * n) 16) 8 2) 15 12 ≠ 2 ∧
    bits (fld (memRead s.mem.bytes (x.redirect + 16 * n) 16) 8 2) 15 12 ≠ 3

/-- The first entry of the redirect table that a probe for an index looks at. -/
def firstProbe (x : TableDesc) (i : Nat) : Nat := x.redirect + 16 * (x.slot i % x.redirSlots)

/-- A message of the purser, as a frame. -/
def purserFrame (m : PurserMsg) : FFrame := { op := 0x0C, vc := 0, payload := (Config.purserBytes m).take 8192, msg := some m }

/-- ATTACH and DETACH of a table (spec/11 R267, R279): attached under a number that is free, else INTERNAL; a detach makes it
end its users, and drops the rows prefetched for it. -/
def tablesAttach : Prop :=
  ∀ (e c : Nat) (q : QCmd) (s : State),
    (gatherTurn s e c 0xC3 q → clean s → openTo s (whoGather e c) → fld q.bytes 8 8 + 128 ≤ wheelBase →
      let d := memRead s.mem.bytes (fld q.bytes 8 8) 128
      let x := tableOf (fld q.bytes 8 8) d
      (getTable s (gTable q.bytes) = none → tableOk d = true → rowsAtRest s x → Does (.gthAttach e c) s fun t =>
        headGone s t (gatherEng e) c ∧ getTable t (gTable q.bytes) = some { desc := x, ctx := c } ∧
        (∀ j, j ≠ gTable q.bytes → getTable t j = getTable s j) ∧ t.mem = s.mem) ∧
      ((getTable s (gTable q.bytes)).isSome = true ∨ tableOk d = false → Does (.gthAttach e c) s fun t =>
        headFails s t (gatherEng e) c q .internal ∧ (∀ j, getTable t j = getTable s j) ∧ t.mem = s.mem)) ∧
    ∀ x, gatherTurn s e c 0xC4 q → getTable s (gTable q.bytes) = some x → (∀ g ∈ s.gth.engs, g.2.ops = []) →
      Does (.gthDetach e c) s fun t =>
        (getQ t (gatherEng e) c).queue.map (·.bytes) = (getQ s (gatherEng e) c).queue.tail.map (·.bytes) ∧
        getTable t (gTable q.bytes) = some { x with attached := false, detach := x.detach ++ [(e, c, q)] } ∧
        (∀ g r, r ∈ (getGe t g).pf → r.table ≠ gTable q.bytes) ∧ t.mem = s.mem

/-- The rows of the command that a GATHER, APPLY or PREFETCH reads or writes, and what an APPLY reads, lie within reach; its
inverse map, where it has one, names entries of it. -/
def rowsFit (s : State) (e c : Nat) (b : Bytes) (x : TableDesc) : Prop :=
  let n := fld b 16 4
  let rows := if gExpand b then fld b 20 4 else n
  clean s ∧ openTo s (whoGather e c) ∧ fld b 8 8 + 32 * n ≤ wheelBase ∧ x.dim % 64 = 0 ∧
  (cmdOp b = 0xC2 ∨ fld b 32 8 + ceilDiv rows 64 * (x.dim / 64) * isz (fld b 4 1) ≤ wheelBase) ∧
  (cmdOp b ≠ 0xC1 ∨ (x.opt ≠ 0 ∧ fld b 40 8 + 32 ≤ wheelBase ∧
    zeroAt (memRead s.mem.bytes (fld b 40 8) 32) 16 16 = true)) ∧
  (gExpand b = true → fld b 24 8 + 4 * fld b 20 4 ≤ wheelBase ∧ fld b 56 8 + n * x.dim * 4 ≤ wheelBase ∧
    ∀ j, j < fld b 20 4 → fld (memRead s.mem.bytes (fld b 24 8) (4 * fld b 20 4)) (4 * j) 4 < n ∨
      fld (memRead s.mem.bytes (fld b 24 8) (4 * fld b 20 4)) (4 * j) 4 = 0xFFFFFFFF)

/-- GATHER, APPLY and PREFETCH (`gather`, `apply`, `prefetch`; spec/11 R267-R271, R274): on a table that is detached the
command completes with DISABLED, on none with INTERNAL. With padding alone it completes: a PREFETCH requests no row and
leaves the context no prefetched row of before, a GATHER writes zero rows only, an APPLY changes no row. With one entry it
leaves its queue and sends that entry's request to the row's home, to the owner engine of this module or to another module. -/
def rowCommandsRun : Prop :=
  ∀ (i : Instr) (e c op : Nat) (q : QCmd) (s : State), (i, op) ∈ [(Instr.gather e c, 0xC0), (.apply e c, 0xC1), (.prefetch e c, 0xC2)] →
    gatherTurn s e c op q →
    let b := q.bytes
    let n := fld b 16 4
    let rows := if gExpand b then fld b 20 4 else n
    let key := fun u => fld (memRead s.mem.bytes (fld b 8 8) (32 * n)) (32 * u) 8
    (getTable s (gTable b) = none → Does i s fun t =>
      headFails s t (gatherEng e) c q .internal ∧ t.gth.engs = s.gth.engs ∧ t.gth.reqs = s.gth.reqs ∧ t.mem = s.mem) ∧
    ∀ x, getTable s (gTable b) = some x →
      (x.attached = false → Does i s fun t =>
        headGone s t (gatherEng e) c ∧ t.gth.engs = s.gth.engs ∧ t.gth.reqs = s.gth.reqs ∧ t.mem = s.mem) ∧
      (x.attached = true → rowsFit s e c b x.desc →
        ((∀ u, u < n → key u = allOnes) → Does i s fun t =>
          headGone s t (gatherEng e) c ∧ (getGe t e).ops = [] ∧ t.gth.reqs = s.gth.reqs ∧
          (op = 0xC2 → (∀ r ∈ (getGe t e).pf, r.ctx ≠ c) ∧ t.mem = s.mem) ∧
          (op = 0xC1 → ∀ a, gExpand b = false ∨ a < fld b 56 8 ∨ fld b 56 8 + n * x.desc.dim * 4 ≤ a →
            memGet t.mem.bytes a = memGet s.mem.bytes a) ∧
          (op = 0xC0 → ∀ a, a < fld b 32 8 ∨ fld b 32 8 + ceilDiv rows 64 * (x.desc.dim / 64) * isz (fld b 4 1) ≤ a →
            memGet t.mem.bytes a = memGet s.mem.bytes a)) ∧
        (n = 1 → key 0 < x.desc.rows → x.desc.rows ≤ 2 ^ 63 → gExpand b = false → bit (fld b 3 1) 1 = false → (getGe s e).pf = [] →
          0 < x.desc.rb → x.desc.rb ≤ 1048576 → (∀ d, d ≠ c → canStart s e d = false ∧ canServe s e d = false) →
          let at_ := x.desc.map + 2 * (key 0 % x.desc.shards)
          let m := fld (memRead s.mem.bytes at_ 2) 0 2 % 4096
          let kind := if op = 0xC0 then GthKind.gather else if op = 0xC1 then .apply else .prefetch
          at_ + 2 ≤ wheelBase →
          (m = ownModule s → Does i s fun t =>
            headGone s t (gatherEng e) c ∧ t.gth.nextReq = s.gth.nextReq + 1 ∧ t.mem = s.mem ∧
            (∃ o, tabFind (getGe t e).ops c = some o ∧ o.kind = kind ∧ o.cmd = q ∧ o.todo = [] ∧ o.out = 1) ∧
            ∃ r, tabFind t.gth.reqs s.gth.nextReq = some r ∧ r.engine = x.desc.owner (key 0) ∧ r.table = gTable b ∧
              r.index = key 0 ∧ r.ctx = c ∧ r.source = .engine e c 0 ∧ r.update.isSome = decide (op = 0xC1)) ∧
          ∀ p u, m ≠ ownModule s → choosePort s m = some (p, u) → Does i s fun t =>
            headGone s t (gatherEng e) c ∧ t.gth.reqs = s.gth.reqs ∧ t.mem = s.mem ∧
            (∃ o, tabFind (getGe t e).ops c = some o ∧ o.kind = kind ∧ o.cmd = q ∧ o.todo = [] ∧ o.out = 1) ∧
            tabFind t.fry.ops s.fry.nextTag.toNat = some { port := p, module := m, total := 0, waiter := .row e c 0 } ∧
            ∃ fs, (getPath t p m).sendq = (getPath s p m).sendq ++ fs ∧ fs ≠ [] ∧
              (∀ f ∈ fs, f.op = 0x0B ∧ f.vc = 6 ∧ f.ctx = c ∧ f.tag = s.fry.nextTag ∧ f.addr = key 0 ∧ f.offset = ownModule s ∧
                f.arg = gTable b + if op = 0xC1 then 512 else 0) ∧
              (op ≠ 0xC1 → fs.map (·.payload) = [[]])))

end Sys2Proof.Claim

/-- The commands of a gather engine but MIGRATE: `tablesAttach`; `rowCommandsRun`. -/
def Obligations.GatherCommands : Prop := tablesAttach ∧ rowCommandsRun

namespace Sys2Proof.Claim

/-- A request may be served: it is the first for its row on its engine, nothing holds it, and its context has the turn. -/
def servable (s : State) (e rid : Nat) (r : RowReq) : Prop :=
  e < 16 ∧ r.ctx < 128 ∧ tabFind s.gth.reqs rid = some r ∧ r.engine = e ∧ r.held = false ∧ rowFirst s rid r = true ∧
  hasTurn s (gatherEng e) 0 r.ctx (gatherReady s e)

/-- Where the row of a request lies: in the spare slot it names, or, where the first redirect entry looked at is empty, in its
own slot. -/
def rowAt (s : State) (x : TableDesc) (r : RowReq) (at_ : Nat) : Prop :=
  (∃ n, r.spare = some n ∧ n < x.spareSlots ∧ at_ = x.spare + n * x.stride) ∨
  (r.spare = none ∧ r.index < x.rows ∧ r.index % x.shards = x.shard ∧ 0 < x.redirSlots ∧
    firstProbe x r.index + 16 ≤ wheelBase ∧
    bits (fld (memRead s.mem.bytes (firstProbe x r.index) 16) 8 2) 15 12 = 0 ∧
    at_ = x.base + x.slot r.index * x.stride)

/-- Rows at their owner (`rowRequestServe`, `rowUpdateApply`; spec/11 R265, R269, R270, R272, R273, R275, R276): a request for
a table that is not attached is answered DISABLED; a row is read, counted and answered, to a module in ROW frames, to a
GATHER here in its row buffer; an update writes the row's slot alone, SGD subtracting the rate times the gradient. -/
def rowsAreServed : Prop :=
  ∀ (e rid : Nat) (r : RowReq) (s : State), servable s e rid r →
    let i := if r.update.isSome then Instr.rowUpdateApply e rid else .rowRequestServe e rid
    (getTable s r.table = none → (getGe s e).ops = [] → ∀ m tag p u, r.source = .peer m tag → answerPort s r m = some (p, u) → Does i s fun t =>
      tabFind t.gth.reqs rid = none ∧ t.mem = s.mem ∧ (getPath t p m).sendq = (getPath s p m).sendq ++
        [{ op := 0x0A, vc := 2, ctx := r.ctx, tag := tag, arg := 0x11 }]) ∧
    ∀ x at_, getTable s r.table = some x → rowAt s x.desc r at_ → clean s → openTo s (whoGather e r.ctx) →
      at_ + x.desc.rb + 64 + 8 * x.desc.dim ≤ wheelBase →
      let row := memRead s.mem.bytes at_ x.desc.rb
      ((getGe s e).ops = [] → (r.update.isSome = true → x.desc.opt ≠ 0) →
        (∀ f d u, r.source = .engine f d u → tabFind (getGe s f).ops d = none) → Does i s fun t =>
        tabFind t.gth.reqs rid = none ∧ (getGe t e).rows = (getGe s e).rows + 1 ∧
        tabGet 0 t.gth.loads r.table = tabGet 0 s.gth.loads r.table + BitVec.ofNat 64 x.desc.rb ∧
        (r.update = none → x.desc.hot = false → t.mem = s.mem) ∧
        (r.update = none → ∀ a, a < at_ + x.desc.rb + 16 ∨ at_ + x.desc.rb + 24 ≤ a →
          memGet t.mem.bytes a = memGet s.mem.bytes a) ∧
        (r.update = none → ∀ m tag p u, r.source = .peer m tag → answerPort s r m = some (p, u) → 0 < x.desc.rb →
          x.desc.rb ≤ 8192 → (getPath t p m).sendq = (getPath s p m).sendq ++
            [{ op := 0x0B, vc := if bits (r.table + 256) 9 8 % 2 = 1 then 2 else 6, ctx := r.ctx, tag := tag, addr := r.index,
               offset := ownModule s, arg := r.table + 256, last := true, payload := row }]) ∧
        ∀ y, r.update = some y → x.desc.rfmt ≤ 1 → y.grad.length = x.desc.dim →
          leNat (memRead t.mem.bytes (at_ + x.desc.rb) 8) = y.step % 2 ^ 64 ∧
          (x.desc.opt = 1 → let z := elemBits (fmtElem x.desc.rfmt)
            memRead t.mem.bytes at_ (ceilDiv (x.desc.dim * z) 8) = packBytes z
              ((sgdRow (BitVec.ofNat 32 (fld y.opt 0 4)) (rowVals x.desc.rfmt x.desc.dim row) y.grad).map
                fun v => elemEnc (fmtElem x.desc.rfmt) (f32Dec v))) ∧
          ∀ a, a < at_ ∨ at_ + x.desc.rb + 64 + 8 * x.desc.dim ≤ a → memGet t.mem.bytes a = memGet s.mem.bytes a) ∧
      ∀ f d u o, r.source = .engine f d u → r.update = none → f < 16 →
        (getGe s f).ops = [(d, o)] → (f = e ∨ (getGe s e).ops = []) →
        o.kind = .gather → o.table = r.table → o.todo = [] → o.out = 1 → o.verdict = none → gExpand o.cmd.bytes = false →
        x.desc.hot = false → fld o.cmd.bytes 4 1 = x.desc.rfmt → isMx (fmtElem x.desc.rfmt) = false → x.desc.dim % 64 = 0 →
        openTo s (whoGather f d) →
        let buf := fld o.cmd.bytes 32 8
        let z := 8 * elemBits (fmtElem x.desc.rfmt)
        buf + (u / 64 + 1) * (x.desc.dim / 64) * isz x.desc.rfmt ≤ wheelBase → Does i s fun t =>
          (getGe t f).ops = [] ∧ tabFind t.gth.reqs rid = none ∧
          (∀ k, k < x.desc.dim / 64 → memRead t.mem.bytes (imageAt buf (isz x.desc.rfmt) x.desc.dim u (64 * k) + u % 64 * z) z =
            (row.drop (k * z)).take z) ∧
          ∀ a, a < buf ∨ buf + (u / 64 + 1) * (x.desc.dim / 64) * isz x.desc.rfmt ≤ a →
            memGet t.mem.bytes a = memGet s.mem.bytes a

/-- MIGRATE may run on a row of this shard and engine, whose redirect entry is the first one looked at. -/
def migrates (s : State) (e c : Nat) (q : QCmd) (x : TableDesc) (entry : Bytes) : Prop :=
  let i := fld q.bytes 8 8
  gatherTurn s e c 0xC5 q ∧ (∃ g, getTable s (gTable q.bytes) = some g ∧ g.desc = x ∧ g.attached = true) ∧ clean s ∧
  openTo s (whoGather e c) ∧ i < x.rows ∧ i % x.shards = x.shard ∧ x.owner i = e ∧ 0 < x.redirSlots ∧
  firstProbe x i + 16 ≤ wheelBase ∧ entry = memRead s.mem.bytes (firstProbe x i) 16 ∧ x.addr + 128 ≤ wheelBase ∧ s.gth.moves = []

/-- MIGRATE (`migrate`; spec/11 R277, R278): within the module the row moves at once, to a spare slot or home, and its redirect
entry says so; a row that another module has is asked for there, its entry saying MOVING_BACK; a move home with no row
moved, or out with one moved already, fails with INTERNAL. -/
def rowsMigrate : Prop :=
  ∀ (e c : Nat) (q : QCmd) (x : TableDesc) (entry : Bytes) (s : State), migrates s e c q x entry →
    let i := fld q.bytes 8 8
    let home := x.base + x.slot i * x.stride
    let at_ := firstProbe x i
    let st := bits (fld entry 8 2) 15 12
    let target := fld entry 8 2 % 4096
    let n := fld entry 12 4
    let out := fld (memRead s.mem.bytes (x.addr + 64) 4) 0 4
    let apart := fun slot => [(home, x.stride), (x.spare + slot * x.stride, x.stride), (x.addr, 128), (at_, 16)].Pairwise
      (fun (u v : Nat × Nat) => u.1 + u.2 ≤ v.1 ∨ v.1 + v.2 ≤ u.1) ∧ home + x.stride ≤ wheelBase ∧
        x.spare + slot * x.stride + x.stride ≤ wheelBase ∧ 4 ≤ x.stride
    (bit (fld q.bytes 3 1) 0 = true → st = 1 → fld entry 0 8 = i →
      (target = ownModule s → spareBusy s (gTable q.bytes) n = false → apart n → Does (.migrate e c) s fun t =>
        headGone s t (gatherEng e) c ∧ (getGe t e).ops = [] ∧ t.gth.migrated = s.gth.migrated + 1 ∧
        memRead t.mem.bytes home x.stride = memRead s.mem.bytes (x.spare + n * x.stride) x.stride ∧
        fld (memRead t.mem.bytes at_ 16) 8 2 = 4 * 4096 ∧
        leNat (memRead t.mem.bytes (x.addr + 64) 4) = n) ∧
      ∀ p u, target ≠ ownModule s → choosePort s target = some (p, u) → forwardsLeft s target (gTable q.bytes) i = false →
        Does (.migrate e c) s fun t =>
          headGone s t (gatherEng e) c ∧ t.gth.migrated = s.gth.migrated ∧
          tabFind (getGe t e).ops c = some { kind := .moveBack, cmd := q, table := gTable q.bytes, entry := at_, prev := entry,
                                             target := target, slot := n, out := 1, phase := .ask } ∧
          fld (memRead t.mem.bytes at_ 16) 8 2 = 3 * 4096 + target ∧
          (getPath t p target).sendq = (getPath s p target).sendq ++
            [purserFrame (.spareAsk e c (gTable q.bytes) (some n))]) ∧
    (bit (fld q.bytes 3 1) 0 = false → st = 0 → fld q.bytes 48 8 = ownModule s → out ≠ 0xFFFFFFFF → apart out →
      Does (.migrate e c) s fun t =>
        headGone s t (gatherEng e) c ∧ (getGe t e).ops = [] ∧ t.gth.migrated = s.gth.migrated + 1 ∧
        memRead t.mem.bytes (x.spare + out * x.stride) x.stride = memRead s.mem.bytes home x.stride ∧
        fld (memRead t.mem.bytes at_ 16) 0 8 = i ∧ fld (memRead t.mem.bytes at_ 16) 8 2 = 4096 + ownModule s ∧
        fld (memRead t.mem.bytes at_ 16) 12 4 = out ∧
        leNat (memRead t.mem.bytes (x.addr + 64) 4) = fld (memRead s.mem.bytes (x.spare + out * x.stride) 4) 0 4) ∧
    ((bit (fld q.bytes 3 1) 0 = true ∧ st = 0) ∨ (bit (fld q.bytes 3 1) 0 = false ∧ st = 1 ∧ fld entry 0 8 = i) →
      Does (.migrate e c) s fun t => headFails s t (gatherEng e) c q .internal ∧ t.mem = s.mem)

/-- Load epochs and balance (`loadEpochStep`, `hotRowBalance`; spec/11 R275, R280). A load epoch hands on the counts and hot
lists. Balancing does nothing while the busiest shard is within the threshold over the mean; else it orders moves of that
shard's hot rows to the idlest, no more than MOVE_MAX, of which one is under way at a time. -/
def loadsBalance : Prop :=
  (∀ s : State, s.gth.epochMs ≠ 0 → Does .loadEpochStep s fun t =>
    t.gth.loadLast = s.gth.loads ∧ t.gth.loads = [] ∧ t.gth.epoch = s.gth.epoch + 1 ∧
    (∀ e, (getGe t e).latched = (getGe s e).hot ∧ (getGe t e).hot = [] ∧ (getGe t e).ops = (getGe s e).ops) ∧
    t = { s with gth := t.gth }) ∧
  ∀ (n h k p : Nat) (u : State) (loads : List Nat) (hot : List (Nat × Nat × Bool)) (x : GthTable) (s : State),
    getTable s n = some x → x.desc.migrate = true → x.desc.shard = 0 → x.attached = true → loads.length = x.desc.shards →
    0 < x.desc.shards → s.gth.moves = [] →
    let l := setAt loads 0 (tabGet 0 s.gth.loadLast n).toNat
    let mean := l.sum / x.desc.shards
    h < l.length → (∀ j, j < l.length → l.getD j 0 ≤ l.getD h 0) → (∀ j, j < h → l.getD j 0 < l.getD h 0) →
    k < l.length → (∀ j, j < l.length → l.getD k 0 ≤ l.getD j 0) → (∀ j, j < k → l.getD k 0 < l.getD j 0) →
    (l.getD h 0 * 100 ≤ mean * (100 + x.desc.thresh) → exec (.hotRowBalance n loads hot) s = .next s) ∧
    (mean * (100 + x.desc.thresh) < l.getD h 0 * 100 → h ≠ 0 → clean s → openTo s (whoPurser (some x.ctx)) →
      x.desc.map + 2 * x.desc.shards ≤ wheelBase → s.gth.moving = none →
      let from_ := fld (memRead s.mem.bytes (x.desc.map + 2 * h) 2) 0 2 % 4096
      let to_ := fld (memRead s.mem.bytes (x.desc.map + 2 * k) 2) 0 2 % 4096
      from_ ≠ ownModule s → choosePort s from_ = some (p, u) → Does (.hotRowBalance n loads hot) s fun t =>
        ∃ rows : List Nat, rows.length ≤ x.desc.moveMax ∧ (∀ i ∈ rows, i % x.desc.shards = h ∧ ∃ hits, (i, hits, true) ∈ hot) ∧
          (∀ i more, rows = i :: more → t.gth.moving = some from_ ∧ t.gth.moves = more.map (fun j => (from_, n, j, to_)) ∧
            (getPath t p from_).sendq = (getPath s p from_).sendq ++ [purserFrame (.migrate n i to_)]) ∧
          (rows = [] → t.gth = s.gth ∧ t.fry = s.fry) ∧ t.mem = s.mem)

end Sys2Proof.Claim

/-- Rows at their owner, and where they go: `rowsAreServed`; `rowsMigrate`; `loadsBalance`. -/
def Obligations.RowsAreServed : Prop := rowsAreServed ∧ rowsMigrate ∧ loadsBalance

/-! ### The grinder -/

namespace Sys2Proof.Claim

/-- The head command of a context may start on the grinder: an engine is free, its FENCE is met, the turn is its. -/
def grinderTurn (s : State) (c op : Nat) (q : QCmd) : Prop :=
  c < 128 ∧ atHead s grinderEng c op q ∧ grinderMayStart s c q = true ∧ hasTurn s grinderEng 0 c (grinderReady s) ∧
  grinderOk q.bytes = true

/-- The tables that a tokenizer descriptor names keep every rule, and `t` is what they hold (spec/12 R286-R290). -/
def tablesHold (s : State) (a : Nat) (d : Bytes) (t : Tokenizer) : Prop :=
  let slots := fld d 12 4
  let vocab := fld d 4 4
  let entries := mergeEntries slots (memRead s.mem.bytes (fld d 16 8) (16 * slots))
  let bm := memRead s.mem.bytes (fld d 24 8) 1024
  let sp := fun j => memRead s.mem.bytes (fld d 32 8 + 80 * j) 80
  let rg := fun j => fld (memRead s.mem.bytes (fld d 48 8) (8 * fld d 42 2)) (8 * j) 8
  let ru := memRead s.mem.bytes (fld d 56 8) 16
  let ranges := (List.range (fld d 42 2)).map fun j => (bits (rg j) 20 0, bits (rg j) 41 21, bits (rg j) 45 42)
  mergesOk slots (fld d 8 4) vocab entries = true ∧ (∀ i, i < 256 → fld bm (4 * i) 4 < vocab) ∧ rangesOk 0 ranges = true ∧
  (∀ j, j < fld d 42 2 → bits (rg j) 63 46 = 0) ∧ (∀ v ∈ ru, v.toNat < 8) ∧
  (∀ j, j < fld d 40 2 → 1 ≤ fld (sp j) 0 1 ∧ fld (sp j) 0 1 ≤ 64 ∧ zeroAt (sp j) 1 3 = true ∧ fld (sp j) 4 4 < vocab ∧
    (∀ v ∈ (((sp j).drop 8).take 64).drop (fld (sp j) 0 1), v = 0) ∧ zeroAt (sp j) 72 8 = true) ∧
  t = { desc := a, bytes := tokSpace d, merges := entries.map (·.2)
        byteMap := (List.range 256).map fun i => fld bm (4 * i) 4, ranges := ranges
        specials := (List.range (fld d 40 2)).map fun j => (((sp j).drop 8).take (fld (sp j) 0 1), fld (sp j) 4 4)
        rules := ru.map (·.toNat), defaultClass := fld d 44 1, invalidClass := fld d 45 1 }

/-- LOAD and UNLOAD (`load`, `unload`; spec/12 R290, R291). A LOAD of a free slot whose tables pass every check fills it, and
one of a slot that is loaded fails with INTERNAL; an UNLOAD is the disable point of its slot, said here where no request
is in hand: TOKENIZE commands of it are refused from their offer on, those queued stop, and those that run stop at the end
of a unit. -/
def slotsLoad : Prop :=
  (∀ (c : Nat) (q : QCmd) (t0 : Tokenizer) (s : State), grinderTurn s c 0xE1 q → clean s → openTo s (whoOf grinderEng c) →
    let a := fld q.bytes 40 8
    let d := memRead s.mem.bytes a 128
    let slot := grdSlot q.bytes
    a + 128 ≤ wheelBase →
    (tokDescOk d = true → tabFind s.grd.slots slot = none → storeUsed s + tokSpace d ≤ 25165824 → tablesHold s a d t0 →
      (∀ p ∈ [(16, 16 * fld d 12 4), (24, 1024), (32, 80 * fld d 40 2), (48, 8 * fld d 42 2), (56, 16)],
        fld d p.1 8 + p.2 ≤ wheelBase) → Does (.load c) s fun t =>
        headGone s t grinderEng c ∧ tabFind t.grd.slots slot = some { tok := t0 } ∧
        (∀ j, j ≠ slot → tabFind t.grd.slots j = tabFind s.grd.slots j) ∧ t.grd.ops = s.grd.ops ∧ t.mem = s.mem) ∧
    ((tabFind s.grd.slots slot).isSome = true ∨ tokDescOk d = false → Does (.load c) s fun t =>
      headFails s t grinderEng c q .internal ∧ t.grd = s.grd ∧ t.mem = s.mem)) ∧
  ∀ (c : Nat) (q : QCmd) (x : TokSlot) (s : State), grinderTurn s c 0xE2 q → tabFind s.grd.slots (grdSlot q.bytes) = some x →
    x.unloading = false → s.pur.reqs = [] → (s.engs.map (·.1)).Nodup → ((getEng s grinderEng).ctxs.map (·.1)).Nodup →
    Does (.unload c) s fun t =>
      let slot := grdSlot q.bytes
      tabFind t.grd.slots slot = some { x with unloading := true, unload := x.unload ++ [(c, q)] } ∧
      (getQ t grinderEng c).queue.map (·.bytes) = (getQ s grinderEng c).queue.tail.map (·.bytes) ∧
      (∀ d, ∀ p ∈ (getQ t grinderEng d).queue, cmdOp p.bytes = 0xE0 → grdSlot p.bytes = slot → p.verdict ≠ none) ∧
      (∀ id o, tabFind s.grd.ops id = some o → grdSlot o.cmd.bytes = slot → o.stop = none → o.left ≠ [] →
        tabFind t.grd.ops id = some { o with stop := some .abortedDisabled }) ∧
      offerVerdict t grinderEng (toLe 1 0xE0 ++ toLe 2 0 ++ toLe 1 slot) = some .disabled

/-- A TOKENIZE starts (`tokenize`; spec/12 R292, R297, R298): of a slot that is not loaded it completes with DISABLED; of
more than 16 MiB of text it ends with LENGTH_EXCEEDED in its summary; else it takes an engine, with the items of its text,
which take up every byte of it, and nothing is written yet. -/
def tokenizeStarts : Prop :=
  (∀ (c : Nat) (q : QCmd) (s : State), grinderTurn s c 0xE0 q →
    let b := q.bytes
    (tabFind s.grd.slots (grdSlot b) = none → Does (.tokenize c none) s fun t =>
      headGone s t grinderEng c ∧ t.grd = s.grd ∧ t.mem = s.mem) ∧
    ∀ x, tabFind s.grd.slots (grdSlot b) = some x → clean s → openTo s (whoOf grinderEng c) →
      (fld b 4 4 ≤ 16777216 → fld b 8 8 + fld b 4 4 ≤ wheelBase → Does (.tokenize c none) s fun t =>
        let text := memRead s.mem.bytes (fld b 8 8) (fld b 4 4)
        headGone s t grinderEng c ∧ t.grd.nextOp = s.grd.nextOp + 1 ∧ t.mem = s.mem ∧
        tabFind t.grd.ops s.grd.nextOp = some
          { ctx := c, cmd := q, left := textItems x.tok (bit (fld b 2 1) 0) (text.length + 1) text [] }) ∧
      (16777216 < fld b 4 4 → fld b 16 8 + 4 * fld b 24 4 ≤ wheelBase → fld b 32 8 + 32 ≤ wheelBase →
        Does (.tokenize c none) s fun t =>
          headGone s t grinderEng c ∧ t.grd = s.grd ∧
          memRead t.mem.bytes (fld b 32 8) 32 = tokSummary s .lengthExceeded {} ∧
          ∀ a, (a < fld b 16 8 ∨ fld b 16 8 + 4 * fld b 24 4 ≤ a) → (a < fld b 32 8 ∨ fld b 32 8 + 32 ≤ a) →
            memGet t.mem.bytes a = memGet s.mem.bytes a)) ∧
  ∀ (t : Tokenizer) (noSpecial : Bool) (text : Bytes), (∀ e ∈ t.specials, e.1 ≠ []) →
    ((textItems t noSpecial (text.length + 1) text []).map (·.bytes)).sum = text.length

/-- The units of a TOKENIZE (`tokenize` of one that runs; spec/12 R294, R296, R298, R299): a long item takes a unit for each of
its pieces; the last piece of an item writes its tokens after those before, where they all fit, and counts them; with no
item left, or where a disable has stopped it, it writes its summary and completes, and no word before the tokens' end
changes. -/
def tokenizeRuns : Prop :=
  ∀ (c id : Nat) (o : TokOp) (s : State), tabFind s.grd.ops id = some o → o.ctx = c → clean s →
    openTo s (whoOf grinderEng c) → fld o.cmd.bytes 16 8 + 4 * fld o.cmd.bytes 24 4 ≤ wheelBase →
    fld o.cmd.bytes 32 8 + 32 ≤ wheelBase → o.res.tokens ≤ fld o.cmd.bytes 24 4 →
    let b := o.cmd.bytes
    let dst := fld b 16 8 + 4 * o.res.tokens
    let ends := fun (st : Status) => Does (.tokenize c (some id)) s fun t =>
      tabFind t.grd.ops id = none ∧ (∀ j, j ≠ id → tabFind t.grd.ops j = tabFind s.grd.ops j) ∧ t.engs = s.engs ∧
      t.grd.slots = s.grd.slots ∧ memRead t.mem.bytes (fld b 32 8) 32 = tokSummary s st o.res ∧
      ∀ a, (a < dst ∨ fld b 16 8 + 4 * fld b 24 4 ≤ a) → (a < fld b 32 8 ∨ fld b 32 8 + 32 ≤ a) →
        memGet t.mem.bytes a = memGet s.mem.bytes a
    (∀ st, o.stop = some st → st.halts = false → ends st) ∧ (o.stop = none → o.left = [] → ends .ok) ∧
    ∀ i rest, o.stop = none → o.left = i :: rest → hasTurn s grinderEng 0 c (grinderReady s) →
      (o.piece + 1 < i.pieces → Does (.tokenize c (some id)) s fun t =>
        tabFind t.grd.ops id = some { o with piece := o.piece + 1 } ∧
        (∀ j, j ≠ id → tabFind t.grd.ops j = tabFind s.grd.ops j) ∧
        t = { s with grd := { s.grd with ops := t.grd.ops }, engs := t.engs }) ∧
      (i.pieces ≤ o.piece + 1 → o.res.tokens + i.tokens.length ≤ fld b 24 4 → Does (.tokenize c (some id)) s fun t =>
        tabFind t.grd.ops id = some { o with left := rest, piece := 0, res := o.res.add i } ∧
        (∀ j, j ≠ id → tabFind t.grd.ops j = tabFind s.grd.ops j) ∧ t.grd.slots = s.grd.slots ∧
        t.grd.bytes = s.grd.bytes + BitVec.ofNat 64 i.bytes ∧
        t.grd.tokens = s.grd.tokens + BitVec.ofNat 64 i.tokens.length ∧
        t.grd.cuts = s.grd.cuts + (if i.cut then 1 else 0) ∧
        memRead t.mem.bytes dst (4 * i.tokens.length) = (i.tokens.map (toLe 4)).flatten ∧
        ∀ a, a < dst ∨ dst + 4 * i.tokens.length ≤ a → memGet t.mem.bytes a = memGet s.mem.bytes a) ∧
      (i.pieces ≤ o.piece + 1 → fld b 24 4 < o.res.tokens + i.tokens.length → Does (.tokenize c (some id)) s fun t =>
        tabFind t.grd.ops id = none ∧ memRead t.mem.bytes (fld b 32 8) 32 = tokSummary s .lengthExceeded o.res ∧
        ∀ a, (a < dst ∨ fld b 16 8 + 4 * fld b 24 4 ≤ a) → (a < fld b 32 8 ∨ fld b 32 8 + 32 ≤ a) →
          memGet t.mem.bytes a = memGet s.mem.bytes a)

end Sys2Proof.Claim

/-- The grinder: `slotsLoad`; `tokenizeStarts`; `tokenizeRuns`. -/
def Obligations.GrinderRuns : Prop := slotsLoad ∧ tokenizeStarts ∧ tokenizeRuns

/-! ### Requests -/

namespace Sys2Proof.Claim

/-- A stage of a request runs, and nothing stops it. -/
def stageOn (s : State) (rid op : Nat) (r : Request) : Prop :=
  getReq s rid = some r ∧ (tabGet {} r.stages op).phase = .running ∧ (tabGet {} r.stages op).stop = none ∧
  mapFailure s (tabGet {} r.stages op) = none ∧ purWorks s = true

/-- Every other request is as before. -/
def otherReqs (s t : State) (rid : Nat) : Prop := ∀ i, i ≠ rid → getReq t i = getReq s i

/-- The own work of a stage is done, with a status; the request's other stages are as before. -/
def stageDone (s t : State) (rid op : Nat) (st : Status) : Prop :=
  otherReqs s t rid ∧ ∃ r r', getReq s rid = some r ∧ getReq t rid = some r' ∧
    (tabGet {} r'.stages op).phase = .worked st ∧ ∀ o, o ≠ op → tabFind r'.stages o = tabFind r.stages o

/-- The memory of a region is out of another's way. -/
def apart (x : Nat × Nat) (a n : Nat) : Prop := x.1 + x.2 ≤ a ∨ a + n ≤ x.1

/-- The regions a model record at `a` takes up with its tables: the record, its tokenizer's size, the pools of its group and the
selection records of its layers. -/
def modelRegions (s : State) (a tok : Nat) : List (Nat × Nat) :=
  let b := memRead s.mem.bytes a 128
  [(a, 128), (tok + 4, 4), (fld b 24 8, 32 * fld b 12 2), (fld b 32 8, 16 * fld b 2 2)]

/-- The model record at `a` keeps every rule, and `m` is what it says (spec/13 R312, R325, R494). -/
def modelRead (s : State) (a tok : Nat) (m : Model) : Prop :=
  let b := memRead s.mem.bytes a 128
  let n := fld b 12 2
  let t := memRead s.mem.bytes (fld b 24 8) (32 * n)
  let x := fun i => memRead s.mem.bytes (fld b 32 8 + 16 * i) 16
  (∀ g ∈ modelRegions s a tok, g.1 + g.2 ≤ wheelBase) ∧ fld b 0 1 = 1 ∧ (fld b 1 1 = 3 ∨ fld b 1 1 = 1) ∧
  (1 ≤ fld b 2 2 ∧ fld b 2 2 ≤ 1024) ∧ (1 ≤ fld b 4 2 ∧ fld b 4 2 ≤ 256) ∧
  (64 ≤ fld b 6 2 ∧ fld b 6 2 ≤ 512 ∧ fld b 6 2 % 64 = 0) ∧ (1 ≤ n ∧ n ≤ 64) ∧ zeroAt b 48 80 = true ∧
  fld b 16 8 = pageSize (fld b 2 2) (fld b 4 2) (fld b 1 1) (fld b 6 2) ∧ fld b 8 4 = leNat (memRead s.mem.bytes (tok + 4) 4) ∧
  (∀ i, i < n → fld t (32 * i) 2 < 4096 ∧ zeroAt t (32 * i + 2) 6 = true ∧ zeroAt t (32 * i + 20) 12 = true) ∧
  (∀ i, i < fld b 2 2 → selectOk (x i) = true) ∧
  m = { kvfmt := fld b 1 1, layers := fld b 2 2, heads := fld b 4 2, dim := fld b 6 2, vocab := fld b 8 4, pageBytes := fld b 16 8
        batch := if fld b 14 2 = 0 then 65536 else fld b 14 2
        group := (List.range n).map fun i => (fld t (32 * i) 2, fld t (32 * i + 8) 8, fld t (32 * i + 16) 4)
        select := (List.range (fld b 2 2)).map x, publish := fld b 40 8, record := b }

/-- The map list at `a` keeps every rule of spec/15 R383, and `l` is what it names; 0 names no list. -/
def mapsRead (s : State) (a : Nat) (l : List (Nat × Nat × Nat × Nat)) : Prop :=
  let h := memRead s.mem.bytes a 8
  let e := fun i => leNat (memRead s.mem.bytes (a + 8 + 8 * i) 8)
  (a = 0 ∧ l = []) ∨
  (a ≠ 0 ∧ a % 64 = 0 ∧ zeroAt h 2 6 = true ∧ 1 ≤ fld h 0 2 ∧ fld h 0 2 ≤ 4096 ∧ a + 8 + 8 * fld h 0 2 ≤ wheelBase ∧
    (∀ i, i < fld h 0 2 → bits (e i) 47 44 = 0 ∧ bits (e i) 31 15 = 0 ∧ bit (e i) 7 = false) ∧
    l = (List.range (fld h 0 2)).map fun i => (bits (e i) 43 32, bits (e i) 14 8, bits (e i) 6 0, bits (e i) 63 48))

/-- The shard entries of a search record keep every rule of spec/13 R493, and `l` is the module and descriptor of each. -/
def shardsRead (s : State) (b : Bytes) (l : List (Nat × Nat)) : Prop :=
  let e := fun i => memRead s.mem.bytes (fld b 8 8 + 16 * i) 16
  fld b 8 8 + 16 * fld b 2 2 ≤ wheelBase ∧
  (∀ i, i < fld b 2 2 → fld (e i) 0 2 < 4096 ∧ zeroAt (e i) 2 6 = true ∧ fld (e i) 8 8 % 64 = 0) ∧
  l = (List.range (fld b 2 2)).map fun i => (fld (e i) 0 2, fld (e i) 8 8)

/-- What a stage that would start reads passes every check of spec/13 R312: the request record `d`, what PARAM names, and the
maps `l`. -/
def stageFits (s : State) (rid op : Nat) (r : Request) (d : Bytes) (l : List (Nat × Nat × Nat × Nat)) : Prop :=
  let g := tabGet {} r.stages op
  let b := memRead s.mem.bytes g.param 64
  d = memRead s.mem.bytes r.addr 256 ∧ r.addr + 256 ≤ wheelBase ∧ requestOk d = true ∧ fld d 8 8 = rid ∧
  mapsRead s g.maps l ∧ g.param % 64 = 0 ∧ (op = 0x16 → g.maps = 0) ∧
  (op = 0x10 ∨ op = 0x16 ∨ op = 0x13 ∧ bit (recFlags d) 0 = false → g.param = 0) ∧
  (op = 0x11 ∨ op = 0x12 ∨ op = 0x13 ∧ bit (recFlags d) 0 = true →
    g.param ≠ 0 ∧ g.param + 64 ≤ wheelBase ∧ searchOk b = true) ∧
  (op = 0x11 ∨ op = 0x12 → ∃ x, shardsRead s b x) ∧
  (op = 0x12 → fld b 24 8 % 64 = 0 ∧ fld b 24 8 + 144 ≤ wheelBase ∧
    cascadeOk (memRead s.mem.bytes (fld b 24 8) 144) = true) ∧
  (op = 0x14 ∨ op = 0x15 → g.param ≠ 0 ∧ ∃ m, modelRead s g.param (fld d 16 8) m)

/-- A stage is held, its turn has come, and nothing has stopped it. -/
def stageWaits (s : State) (r : Request) (op : Nat) : Prop :=
  (tabFind r.stages op).isSome = true ∧ stageReady s r op (tabGet {} r.stages op) = true ∧ (tabGet {} r.stages op).stop = none

/-- The command of a stage runs, and else is as before. -/
def stageCmdRuns (s t : State) (r : Request) (op : Nat) : Prop :=
  ∀ c, getCmd s (tabGet {} r.stages op).cmd = some c → getCmd t (tabGet {} r.stages op).cmd = some { c with phase := .running }

/-- STAGE_START (`stageStart`; spec/13 R313, R342). A stage whose turn has come and whose checks pass runs, with its record and
maps as read; PREFILL takes its new positions from its class's budget, the others write STATE, and no other byte changes.
DECODE and POUR start together. One whose record is not as Table 13-1 asks, or another request's, ends its request with
INTERNAL. -/
def stagesStart : Prop :=
  (∀ (rid op : Nat) (r : Request) (s : State), getReq s rid = some r → 0x10 ≤ op → op < 0x15 → stageWaits s r op →
    purWorks s = true → clean s → openTo s (whoPurser (some r.ctx)) →
    (∀ d l, stageFits s rid op r d l → Does (.stageStart rid op) s fun t =>
      let state := if op ≤ 0x12 then max r.state 1 else r.state
      otherReqs s t rid ∧ stageCmdRuns s t r op ∧
      (∃ r', getReq t rid = some r' ∧ r'.record = d ∧ r'.state = state ∧
        tabFind r'.stages op = some { tabGet {} r.stages op with phase := .running, list := l } ∧
        ∀ o, o ≠ op → tabFind r'.stages o = tabFind r.stages o) ∧
      (op = 0x14 → t.mem = s.mem ∧ (underBudget s r = true → (getClass t r.cls).budget.toNat =
        (getClass s r.cls).budget.toNat - (r.context - r.cached))) ∧
      (op ≠ 0x14 → leNat (memRead t.mem.bytes (r.addr + 184) 2) = state % 65536 ∧ t.pur.classes = s.pur.classes) ∧
      ∀ a, a < r.addr + 184 ∨ r.addr + 186 ≤ a → memGet t.mem.bytes a = memGet s.mem.bytes a) ∧
    (r.addr + 256 ≤ wheelBase → r.chain = [] → requestOk (memRead s.mem.bytes r.addr 256) = false ∨
        leNat (memRead s.mem.bytes (r.addr + 8) 8) ≠ rid → Does (.stageStart rid op) s fun t =>
      otherReqs s t rid ∧ getReq t rid = none ∧ getCmd t (tabGet {} r.stages op).cmd = none ∧
      leNat (memRead t.mem.bytes (r.addr + 184) 2) = 5 ∧
      leNat (memRead t.mem.bytes (r.addr + 186) 2) = Status.internal.code ∧
      ∀ a, a < r.addr + 184 ∨ r.addr + 188 ≤ a → memGet t.mem.bytes a = memGet s.mem.bytes a)) ∧
  ∀ (rid : Nat) (r : Request) (d : Bytes) (l : List (Nat × Nat × Nat × Nat)) (s : State), getReq s rid = some r →
    purWorks s = true → clean s → openTo s (whoPurser (some r.ctx)) → stageWaits s r 0x15 → stageWaits s r 0x16 →
    (tabGet {} r.stages 0x15).cmd ≠ (tabGet {} r.stages 0x16).cmd →
    stageFits s rid 0x16 r d [] → stageFits s rid 0x15 r d l → apart ((tabGet {} r.stages 0x15).maps, 8 + 8 * l.length) r.addr 256 →
    (∀ g ∈ modelRegions s (tabGet {} r.stages 0x15).param (fld d 16 8), apart g r.addr 256) →
    ∀ op, op = 0x15 ∨ op = 0x16 → Does (.stageStart rid op) s fun t =>
      otherReqs s t rid ∧ stageCmdRuns s t r 0x15 ∧ stageCmdRuns s t r 0x16 ∧
      (∃ r', getReq t rid = some r' ∧ (tabGet {} r'.stages 0x15).phase = .running ∧
        (tabGet {} r'.stages 0x16).phase = .running ∧ r'.state = 4) ∧
      leNat (memRead t.mem.bytes (r.addr + 184) 2) = 4 ∧
      ∀ a, a < r.addr + 184 ∨ r.addr + 186 ≤ a → memGet t.mem.bytes a = memGet s.mem.bytes a

/-- STAGE_COMPLETE (`stageComplete`; spec/13 R313, R338, R341, spec/15 R384). A stage whose own work is done well and whose maps
have all reported completes, and a PREFILL is then admitted to decoding; while a map has not reported nothing happens; one
that failed ends its request. A map's failure ends the request of a stage that runs, through its sequencer where its ring
is open. -/
def stagesComplete : Prop :=
  ∀ (rid op : Nat) (r : Request) (c : PCmd) (s : State), getReq s rid = some r →
    let g := tabGet {} r.stages op
    getCmd s g.cmd = some c →
    (∀ st, g.phase = .worked st →
      (st.good = true → mapFailure s g = none → mapsIn s g = true → g.stop = none → op < 0x15 →
        Does (.stageComplete rid op) s fun t =>
          otherReqs s t rid ∧ completes s t g.cmd c st ∧ t.mem = s.mem ∧
          ∃ r', getReq t rid = some r' ∧ (tabGet {} r'.stages op).phase = .ended st ∧
            (op = 0x14 → r'.admitted = s.pur.admissions ∧ r'.waited = s.hub.time.toNat ∧ t.pur.admissions = s.pur.admissions + 1) ∧
            ∀ o, o ≠ op → tabFind r'.stages o = tabFind r.stages o) ∧
      (st.good = true → mapFailure s g = none → mapsIn s g = false → g.stop = none →
        exec (.stageComplete rid op) s = .next s) ∧
      (st.good = false → Does (.stageComplete rid op) s fun t => otherReqs s t rid ∧ getReq t rid = none ∧
        getCmd t g.cmd = none)) ∧
    ∀ st, g.phase = .running → mapFailure s g = some st →
      (r.ring = none → Does (.stageComplete rid op) s fun t => otherReqs s t rid ∧ getReq t rid = none ∧ getCmd t g.cmd = none) ∧
      (r.ring.isSome = true → op = 0x15 ∨ op = 0x16 → r.terminal = false → .error st ∉ r.events →
        Does (.stageComplete rid op) s fun t => otherReqs s t rid ∧
          getReq t rid = some { r with events := r.events ++ [.error st] } ∧ t = { s with pur := t.pur })

/-- CANCEL (`cancel`; spec/13 R312, R340): of a request no longer in progress it completes with LATE_CANCEL; a record that names
another request makes it fail with INTERNAL; with an open ring it goes to the request's sequencer; else it completes with
OK, and the request stops at the end of the step under way, or ends at once where no stage runs. -/
def cancelsStop : Prop :=
  ∀ (id : Nat) (c : PCmd) (s : State), mayStart s id c 0x17 → fld c.desc 24 8 = 0 → fld c.desc 32 8 = 0 → clean s →
    let rid := fld c.desc 40 8
    let addr := fld c.desc 16 8
    let named := leNat (memRead s.mem.bytes (addr + 8) 8)
    addr ≠ 0 → addr % 64 = 0 → addr + 256 ≤ wheelBase →
    (named ≠ rid → Does (.cancel id) s fun t => completes s t id c .internal ∧ t.mem = s.mem ∧ t.pur.reqs = s.pur.reqs) ∧
    (named = rid → getReq s rid = none → Does (.cancel id) s fun t => completes s t id c .lateCancel ∧ t.mem = s.mem ∧
      t.pur.reqs = s.pur.reqs) ∧
    ∀ r, named = rid → getReq s rid = some r → (getMb s c.mb).parts.getLsbD (ctxPart r.ctx) = true →
      (r.ring = none → (∃ p ∈ r.stages, p.2.live = true) → Does (.cancel id) s fun t =>
        completes s t id c .ok ∧ otherReqs s t rid ∧ t.mem = s.mem ∧
        ∃ r', getReq t rid = some r' ∧ (∀ p ∈ r'.stages, p.2.stop = some .cancelled) ∧
          r'.stages.map (fun p => (p.1, p.2.cmd, p.2.phase)) = r.stages.map (fun p => (p.1, p.2.cmd, p.2.phase))) ∧
      (r.ring = none → (∀ p ∈ r.stages, p.2.live = false) → Does (.cancel id) s fun t =>
        getCmd t id = none ∧ otherReqs s t rid ∧ getReq t rid = none) ∧
      (r.ring.isSome = true → Does (.cancel id) s fun t =>
        getReq t rid = some { r with events := r.events ++ [.cancel id] } ∧ otherReqs s t rid ∧
        getCmd t id = some { c with phase := .running } ∧ t = { s with pur := t.pur })

end Sys2Proof.Claim

/-- Stages begin, end and are cancelled: `stagesStart`; `stagesComplete`; `cancelsStop`. -/
def Obligations.StagesRunInTurn : Prop := stagesStart ∧ stagesComplete ∧ cancelsStop

namespace Sys2Proof.Claim

/-- A queue takes a command of a stage: the context is enabled and reaches the engine, and its queue has a slot. -/
def offerable (s : State) (e : Eng) (c : Nat) : Prop :=
  c < 128 ∧ (getCtx s c).enable = true ∧ mayReach s e c = true ∧ (getQ s e c).queue.length < 64

/-- A stage has offered engine command `i` with bytes `b`, once: it stands last in its context's queue, and the stage waits for it. -/
def stageOffers (s t : State) (e : Eng) (r : Request) (id i : Nat) (c : PCmd) (b : Bytes) : Prop :=
  (∃ q, getQ t e r.ctx =
      { getQ s e r.ctx with queue := (getQ s e r.ctx).queue ++ [q], nextSeq := (getQ s e r.ctx).nextSeq + 1 } ∧
    q.bytes = b ∧ q.origin = some (id, i)) ∧
  otherQueues s t e r.ctx ∧ getCmd t id = some { c with jobs := i :: c.jobs, stepped := true }

/-- Some path to module `m` has a message of the purser last among those it waits to send, or did so when it was queued. -/
def purserTells (t : State) (m : Nat) (x : PurserMsg) : Prop := ∃ p, purserFrame x ∈ (getPath t p m).sendq

/-- A stage whose parts have all completed well merges their lists with one MERGE on a sort/select unit, and ends with its
status (spec/13 R318, R319). -/
def mergesLists (row : Instr) (rid op u : Nat) (bufs : List Nat) (r : Request) (kt : Nat) (largest : Bool) (s : State) : Prop :=
  let g := tabGet {} r.stages op
  let b := memRead s.mem.bytes g.param 64
  let n := r.parts.length
  let len := fun i => (r.parts.getD i {}).data.length
  ∀ c, getCmd s g.cmd = some c →
    (∀ st, tabFind c.done mergeJob = some st → Does row s fun t => stageDone s t rid op st ∧ t.mem = s.mem) ∧
    (tabFind c.done mergeJob = none → c.jobs.contains mergeJob = false → offerable s (ssuEng u) r.ctx →
      (∀ i, i < n → bufs.getD i 0 + len i ≤ wheelBase) → bufs.getD n 0 + 16 * n ≤ wheelBase → Does row s fun t =>
        stageOffers s t (ssuEng u) r g.cmd mergeJob c
          ([0xA2, BitVec.ofNat 8 r.ctx, BitVec.ofNat 8 (kt + 16 * b2n largest + 32), 0] ++ toLe 2 n ++ toLe 2 0 ++
            toLe 4 (fld b 44 2) ++ toLe 4 0 ++ toLe 8 (bufs.getD n 0) ++ toLe 8 (fld r.record 168 8) ++
            toLe 8 (fld r.record 176 8) ++ toLe 16 0 ++ toLe 8 (bufs.getD (n + 1) 0)) ∧
        otherReqs s t rid ∧
        memRead t.mem.bytes (bufs.getD n 0) (16 * n) =
          ((List.range n).map fun i => toLe 8 (bufs.getD i 0) ++ toLe 4 (len i / 32) ++ toLe 4 0).flatten ∧
        ∀ a, (∀ i, i < n → a < bufs.getD i 0 ∨ bufs.getD i 0 + len i ≤ a) →
          a < bufs.getD n 0 ∨ bufs.getD n 0 + 16 * n ≤ a → memGet t.mem.bytes a = memGet s.mem.bytes a)

/-- EMBED (`embed`; spec/13 R314): it issues one TOKENIZE of the question, writes QCOUNT from its summary, and fails with its
status. -/
def embedRuns : Prop :=
  ∀ (rid buf : Nat) (r : Request) (c : PCmd) (s : State), stageOn s rid 0x10 r →
    let g := tabGet {} r.stages 0x10
    getCmd s g.cmd = some c →
    (tabFind c.done 0 = none → c.jobs.contains 0 = false → offerable s ⟨.grinder, 0⟩ r.ctx → Does (.embed rid buf) s fun t =>
        stageOffers s t ⟨.grinder, 0⟩ r g.cmd 0 c (tokenizeBytes r buf) ∧ otherReqs s t rid ∧
        (∃ r', getReq t rid = some r' ∧ (tabGet {} r'.stages 0x10).step = buf + 2) ∧ t = { s with engs := t.engs, pur := t.pur }) ∧
    (∀ b, tabFind c.done 0 = some .ok → g.step = b + 2 → clean s → openTo s (whoPurser (some r.ctx)) → b + 8 ≤ wheelBase →
      r.addr + 56 ≤ wheelBase → Does (.embed rid buf) s fun t =>
        stageDone s t rid 0x10 .ok ∧ (∀ r', getReq t rid = some r' → r'.qcount = leNat (memRead s.mem.bytes (b + 4) 4)) ∧
        memRead t.mem.bytes (r.addr + 52) 4 = memRead s.mem.bytes (b + 4) 4 ∧
        ∀ a, a < r.addr + 52 ∨ r.addr + 56 ≤ a → memGet t.mem.bytes a = memGet s.mem.bytes a) ∧
    (∀ st, tabFind c.done 0 = some st → st ≠ .ok → Does (.embed rid buf) s fun t =>
      stageDone s t rid 0x10 st ∧ t.mem = s.mem)

/-- SEARCH (`search`; spec/13 R316, R319): the module of each entry is asked for its shard's DIM (log 94) and then told, once,
to run the entry's QUERY with the query vector, the filter record and, for RERANK, the question's tokens; an entry whose
module no path reaches fails with LINK_LOST. When every entry has completed, the stage ends with the first failure, or with
OK where RERANK merges, or it merges. -/
def searchRuns : Prop :=
  ∀ (rid u : Nat) (bufs : List Nat) (r : Request) (s : State), stageOn s rid 0x11 r → clean s →
    openTo s (whoPurser (some r.ctx)) →
    let g := tabGet {} r.stages 0x11
    let b := memRead s.mem.bytes g.param 64
    g.param + 64 ≤ wheelBase →
    (∀ l, g.step = 0 → shardsRead s b l → 1 ≤ fld b 2 2 → r.asks = [] → (∀ x ∈ l, x.1 ≠ ownModule s) →
      ((∀ x ∈ l, (choosePort s x.1).isSome = true) → Does (.search rid bufs u) s fun t =>
        (∀ i x, l[i]? = some x → purserTells t x.1 (.ask rid i (.shardDim x.2))) ∧ otherReqs s t rid ∧ t.mem = s.mem ∧
        ∃ r', getReq t rid = some r' ∧ (tabGet {} r'.stages 0x11).step = 1 ∧
          (tabGet {} r'.stages 0x11).phase = .running ∧
          r'.parts = l.map (fun x => { module := x.1, desc := x.2 }) ∧
          r'.asks = l.zipIdx.map fun x => (x.2, x.1.1)) ∧
      ((∀ x ∈ l, choosePort s x.1 = none) → Does (.search rid bufs u) s fun t =>
        stageDone s t rid 0x11 .linkLost ∧ t.mem = s.mem ∧ t.fry = s.fry)) ∧
    (g.step ≠ 0 → (∃ p ∈ r.parts, p.status = none) →
      (∀ p ∈ r.parts, p.module ≠ ownModule s ∧ (choosePort s p.module).isSome = true) →
      (∀ i a, tabFind r.answers i = some a → a.status.good = true ∧
        fld r.record 56 8 + 4 * leNat (a.data.headD []) ≤ wheelBase) →
      fld b 16 8 + 192 ≤ wheelBase → fld r.record 40 8 + 4 * r.qcount ≤ wheelBase → Does (.search rid bufs u) s fun t =>
        (∀ i p a, r.parts[i]? = some p → tabFind r.answers i = some a → p.sent = false → p.status = none →
          purserTells t p.module (.search rid i r.ctx p.desc (fld b 4 2) (fld b 6 2) (fld b 46 2)
            (memRead s.mem.bytes (fld r.record 56 8) (4 * leNat (a.data.headD [])))
            (if fld b 16 8 = 0 then [] else memRead s.mem.bytes (fld b 16 8) 192)
            (if bit (recFlags r.record) 1 = true then some (memRead s.mem.bytes (fld r.record 40 8) (4 * r.qcount)) else none))) ∧
        otherReqs s t rid ∧ t.mem = s.mem ∧
        ∃ r', getReq t rid = some r' ∧ r'.stages = r.stages ∧
          r'.parts = r.parts.zipIdx.map fun x =>
            { x.1 with sent := x.1.sent || ((tabFind r.answers x.2).isSome && x.1.status.isNone) }) ∧
    (g.step ≠ 0 → (∀ p ∈ r.parts, p.status ≠ none) →
      (∀ st, partsFail r.parts = some st → Does (.search rid bufs u) s fun t => stageDone s t rid 0x11 st ∧ t.mem = s.mem) ∧
      (partsFail r.parts = none → bit (recFlags r.record) 1 = true → Does (.search rid bufs u) s fun t =>
        stageDone s t rid 0x11 .ok ∧ t.mem = s.mem) ∧
      (partsFail r.parts = none → bit (recFlags r.record) 1 = false →
        let key := metricKey ((r.parts.head?.map (·.metric)).getD 0)
        mergesLists (.search rid bufs u) rid 0x11 u bufs r key.1 key.2 s))

/-- RERANK (`rerank`; spec/01 R33, spec/13 R318, R319): each entry's module is told, once, to re-rank the results it keeps with
the cascade and its directory; when every entry has completed, the stage ends with the first failure or merges. -/
def rerankRuns : Prop :=
  ∀ (rid u : Nat) (bufs : List Nat) (r : Request) (s : State), stageOn s rid 0x12 r → clean s →
    openTo s (whoPurser (some r.ctx)) →
    let g := tabGet {} r.stages 0x12
    let b := memRead s.mem.bytes g.param 64
    g.param + 64 ≤ wheelBase →
    (g.step = 0 → fld b 24 8 + 144 ≤ wheelBase →
      (∀ p ∈ r.parts, p.module ≠ ownModule s ∧ (choosePort s p.module).isSome = true) → Does (.rerank rid bufs u) s fun t =>
        (∀ i p, r.parts[i]? = some p → purserTells t p.module
          (.rerank rid i r.ctx (memRead s.mem.bytes (fld b 24 8) 144) (fld b 32 8) (dirSlots b))) ∧
        otherReqs s t rid ∧ t.mem = s.mem ∧
        ∃ r', getReq t rid = some r' ∧ (tabGet {} r'.stages 0x12).step = 1 ∧
          r'.parts = r.parts.map fun p => { p with data := [], status := none }) ∧
    (g.step ≠ 0 → (∀ p ∈ r.parts, p.status ≠ none) →
      (∀ st, partsFail r.parts = some st → Does (.rerank rid bufs u) s fun t => stageDone s t rid 0x12 st ∧ t.mem = s.mem) ∧
      (partsFail r.parts = none → mergesLists (.rerank rid bufs u) rid 0x12 u bufs r 0 true s))

end Sys2Proof.Claim

/-- From the question to the lists: `embedRuns`; `searchRuns`; `rerankRuns`. -/
def Obligations.SearchStagesRun : Prop := embedRuns ∧ searchRuns ∧ rerankRuns

namespace Sys2Proof.Claim

/-- PACK finishes (spec/13 R321): behind the `out` tokens of passages PROMPT gets the question's `n` tokens, each page table entry
what the chain gives or VALID clear, CONTEXT the tokens in all, and STATE is 2; no byte outside PROMPT, the page table, and
the record changes. -/
def packDone (s t : State) (rid : Nat) (r : Request) (n : Nat) : Prop :=
  let prompt := fld r.record 80 8 + 4 * r.pack.out
  let table := fld r.record 72 8
  let d := memRead t.mem.bytes r.addr 256
  let context := r.cached + r.pack.out + n
  stageDone s t rid 0x13 .ok ∧
  (∀ r', getReq t rid = some r' → r'.qcount = n ∧ r'.context = context ∧ r'.state = 2) ∧
  memRead t.mem.bytes prompt (4 * n) = memRead s.mem.bytes (fld r.record 40 8) (4 * n) ∧
  (∀ p, p < 4096 →
    (∀ e, tabFind (chainEntries r.pack.segs) p = some e → memRead t.mem.bytes (table + 16 * p) 16 = e) ∧
    (tabFind (chainEntries r.pack.segs) p = none → leNat (memRead t.mem.bytes (table + 16 * p + 10) 2) = 0)) ∧
  fld d 88 4 = context ∧ fld d 184 2 = 2 ∧
  ∀ a, a < prompt ∨ prompt + 4 * n ≤ a → a < table ∨ table + 65536 ≤ a → a < r.addr ∨ r.addr + 256 ≤ a →
    memGet t.mem.bytes a = memGet s.mem.bytes a

/-- The buffers of a request lie below the wheelhouse region and out of one another's way, `n` question tokens fit BUDGET, and
the chain's page lists are whole. -/
def packFits (r : Request) (n : Nat) : Prop :=
  let q := fld r.record 40 8
  let prompt := fld r.record 80 8 + 4 * r.pack.out
  let table := fld r.record 72 8
  r.cached + n ≤ fld r.record 36 4 ∧ r.cached + r.pack.out + n < 2 ^ 32 ∧ q + 4 * n ≤ wheelBase ∧ prompt + 4 * n ≤ wheelBase ∧
  table + 65536 ≤ wheelBase ∧ r.addr + 256 ≤ wheelBase ∧ apart (q, 4 * n) r.addr 256 ∧ apart (prompt, 4 * n) table 65536 ∧
  apart (prompt, 4 * n) r.addr 256 ∧ apart (table, 65536) r.addr 256 ∧
  ∀ p e, tabFind (chainEntries r.pack.segs) p = some e → e.length = 16

/-- PACK without retrieval (`pack`; spec/13 R314, R321): of a request without a prefix it writes CACHED as 0 and tokenizes the
question; when that TOKENIZE has ended well, what fits BUDGET is packed, and more ends the stage with LENGTH_EXCEEDED. -/
def questionPacks : Prop :=
  ∀ (rid buf : Nat) (r : Request) (c : PCmd) (s : State), stageOn s rid 0x13 r → bit (recFlags r.record) 0 = false →
    clean s → openTo s (whoPurser (some r.ctx)) → r.addr + 256 ≤ wheelBase →
    let g := tabGet {} r.stages 0x13
    getCmd s g.cmd = some c →
    (g.sub = 0 → fld r.record 64 8 = 0 → tabFind c.done 0 = none → c.jobs.contains 0 = false →
      offerable s ⟨.grinder, 0⟩ r.ctx → Does (.pack rid buf) s fun t =>
        stageOffers s t ⟨.grinder, 0⟩ r g.cmd 0 c (tokenizeBytes r buf) ∧ otherReqs s t rid ∧
        (∃ r', getReq t rid = some r' ∧ r'.cached = 0 ∧ r'.chain = [] ∧ r'.pack = {} ∧
          tabGet {} r'.stages 0x13 = { g with sub := 2, step := buf + 2 }) ∧
        leNat (memRead t.mem.bytes (r.addr + 92) 4) = 0 ∧
        ∀ a, a < r.addr + 92 ∨ r.addr + 96 ≤ a → memGet t.mem.bytes a = memGet s.mem.bytes a) ∧
    ∀ b, g.sub = 2 → g.step = b + 2 → b + 8 ≤ wheelBase → tabFind c.done 0 = some .ok →
      let n := leNat (memRead s.mem.bytes (b + 4) 4)
      (fld r.record 36 4 < r.cached + n → Does (.pack rid buf) s fun t => stageDone s t rid 0x13 .lengthExceeded) ∧
      (packFits r n → Does (.pack rid buf) s fun t => packDone s t rid r n)

/-- PACK with retrieval (`pack`; spec/13 R321): the next passage of the merge is looked up in the directory of its module; its
tokens, once found, are read by a MOVE; with none left, the question follows the passages. -/
def passagesPack : Prop :=
  ∀ (rid buf : Nat) (r : Request) (c : PCmd) (s : State), stageOn s rid 0x13 r → bit (recFlags r.record) 0 = true →
    clean s → openTo s (whoPurser (some r.ctx)) → getCmd s (tabGet {} r.stages 0x13).cmd = some c →
    let g := tabGet {} r.stages 0x13
    let b := memRead s.mem.bytes g.param 64
    let x := fun i => recAt (memRead s.mem.bytes (fld r.record 168 8) (32 * fld b 44 2)) i
    g.param + 64 ≤ wheelBase → fld r.record 168 8 + 32 * fld b 44 2 ≤ wheelBase → g.sub = 3 →
    r.cached + r.qcount ≤ fld r.record 36 4 →
    (∀ i rest, r.pack.todo = i :: rest → (x i).valid = true →
      (x i).pay ∉ (r.pack.segs.map (·.covered)).flatten →
      let m := (x i).pos / 2 ^ 52
      let key := 16384 + r.pack.todo.length
      (r.pack.found = none → tabFind r.asks key = none → tabFind r.answers key = none → m ≠ ownModule s →
        (choosePort s m).isSome = true → Does (.pack rid buf) s fun t =>
          purserTells t m (.ask rid key (.lookup r.ctx (fld b 32 8) (dirSlots b) (x i).pay)) ∧
          otherReqs s t rid ∧ t.mem = s.mem ∧ getReq t rid = some { r with asks := tabPut r.asks key m }) ∧
      (∀ y, r.pack.found = some y → tabFind c.done (passageJob r) = none → c.jobs.contains (passageJob r) = false →
        (∃ k, k < 32 ∧ mayReach s ⟨.barge, k⟩ r.ctx = true) →
        (∀ k, k < 32 → mayReach s ⟨.barge, k⟩ r.ctx = true → offerable s ⟨.barge, k⟩ r.ctx) → Does (.pack rid buf) s fun t =>
          let p := passageSpan y
          (∃ k, k < 32 ∧ stageOffers s t ⟨.barge, k⟩ r g.cmd (passageJob r) c
            (linearBytes r.ctx (decide (m ≠ ownModule s)) (if m ≠ ownModule s then globalAddr m p.1 else p.1) buf p.2)) ∧
          t.mem = s.mem ∧ t.pur.reqs = s.pur.reqs)) ∧
    (r.pack.todo = [] → packFits r r.qcount → Does (.pack rid buf) s fun t => packDone s t rid r r.qcount)

/-- PREFIX_RETIRE (`prefixRetire`; spec/13 R312, R329): a segment of this module that is still referenced, or not ready, is
marked as retiring and the command completes; a record that breaks Table 13-5 makes it fail; a peer's segment is retired by
its purser, or not at all without a path. -/
def prefixesRetire : Prop :=
  ∀ (id : Nat) (c : PCmd) (s : State), mayStart s id c 0x18 → fld c.desc 16 8 = 0 → fld c.desc 32 8 = 0 → clean s →
    let g := fld c.desc 24 8
    let a := localPart g
    let d := memRead s.mem.bytes a 64
    g ≠ 0 → g % 64 = 0 → bits g 63 60 = 0 →
    (globalModule g = ownModule s → a + 64 ≤ wheelBase → prefixOk d = true →
      fld d 44 4 ≠ 0 ∨ fld d 56 1 = 2 ∨ fld d 56 1 = 0 ∧ fld d 8 8 = 0 → Does (.prefixRetire id) s fun t =>
        completes s t id c .ok ∧ memGet t.mem.bytes (a + 56) = 2 ∧
        (∀ x, x ≠ a + 56 → memGet t.mem.bytes x = memGet s.mem.bytes x) ∧ t.pur.reqs = s.pur.reqs ∧ t.pur.kv = s.pur.kv) ∧
    (globalModule g = ownModule s → a + 64 ≤ wheelBase → prefixOk d = false → Does (.prefixRetire id) s fun t =>
      completes s t id c .internal ∧ t.mem = s.mem ∧ t.pur.kv = s.pur.kv) ∧
    (globalModule g ≠ ownModule s → (choosePort s (globalModule g)).isSome = true → Does (.prefixRetire id) s fun t =>
      purserTells t (globalModule g) (.prefixRetire id a) ∧ t.mem = s.mem ∧
      getCmd t id = some { c with phase := .running, peer := some (globalModule g) }) ∧
    (globalModule g ≠ ownModule s → choosePort s (globalModule g) = none → Does (.prefixRetire id) s fun t =>
      completes s t id c .linkLost ∧ t.fry = s.fry ∧ t.mem = s.mem)

end Sys2Proof.Claim

/-- From the lists to the prompt, and the end of a prefix: `questionPacks`; `passagesPack`; `prefixesRetire`. -/
def Obligations.PackAndPrefixes : Prop := questionPacks ∧ passagesPack ∧ prefixesRetire

namespace Sys2Proof.Claim

/-- A PREFILL's command stands at one step more (spec/15 R375, R376). -/
def stepCounts (s t : State) (id : Nat) : Prop :=
  ∀ c, getCmd s id = some c → getCmd t id = some { c with steps := c.steps + 1, stepped := true }

/-- PREFILL runs, and its model record is `m`. -/
def prefillOn (s : State) (rid : Nat) (r : Request) (m : Model) : Prop :=
  stageOn s rid 0x14 r ∧ clean s ∧ openTo s (whoPurser (some r.ctx)) ∧
  modelRead s (tabGet {} r.stages 0x14).param (fld r.record 16 8) m

/-- PREFILL takes the pages of the new positions (`prefill`; spec/13 R325, R326). With every page in one local pool and nothing
to publish, as many pages as the new positions need, each free before and each once; a pool that lacks them ends the stage
with MAP_OVERFLOW, and none is taken. Of pools on other modules their pursers are asked for the chunks' pages; a pool that
lacks them gives back what the others gave. Memory is as before. -/
def pagesTaken : Prop :=
  ∀ (rid buf : Nat) (r : Request) (m : Model) (s : State), prefillOn s rid r m →
    let g := tabGet {} r.stages 0x14
    let first := r.cached / 256
    let n := ceilDiv r.context 256 - first
    g.step = 0 →
    (∀ pool count, g.sub = 0 → r.asks = [] → m.publish = 0 → m.group = [(ownModule s, pool, count)] → r.cached % 256 = 0 →
      pool + count * m.pageBytes ≤ 2 ^ 48 →
      let free := freeInPool s pool count m.pageBytes
      (n ≤ free.length → Does (.prefill rid buf) s fun t =>
        otherReqs s t rid ∧ t.mem = s.mem ∧ ∃ r', getReq t rid = some r' ∧ (tabGet {} r'.stages 0x14).step = 1 ∧
        r'.pages.map (·.1) = (List.range n).map (first + ·) ∧ (r'.pages.map (·.2)).Nodup ∧
        ∀ p ∈ r'.pages, globalModule p.2 = ownModule s ∧ localPart p.2 ∈ free ∧ localPart p.2 ∈ t.pur.kv) ∧
      (free.length < n → Does (.prefill rid buf) s fun t =>
        stageDone s t rid 0x14 .mapOverflow ∧ t.mem = s.mem ∧ t.pur.kv = s.pur.kv)) ∧
    (g.sub = 0 → r.asks = [] → m.publish = 0 → n ≠ 0 →
      (∀ x ∈ m.group, x.1 ≠ ownModule s ∧ (choosePort s x.1).isSome = true) → Does (.prefill rid buf) s fun t =>
        (∀ i x, m.group[i]? = some x → chunkPages m n i ≠ 0 →
          purserTells t x.1 (.ask rid (chunkAsk i) (.kvTake x.2.1 x.2.2 m.pageBytes (chunkPages m n i)))) ∧
        otherReqs s t rid ∧ t.mem = s.mem ∧ ∃ r', getReq t rid = some r' ∧ tabGet {} r'.stages 0x14 = { g with sub := 2 }) ∧
    (g.sub = 0 → r.asks = [] → m.publish ≠ 0 → globalModule m.publish ≠ ownModule s →
      (choosePort s (globalModule m.publish)).isSome = true → Does (.prefill rid buf) s fun t =>
        purserTells t (globalModule m.publish) (.ask rid segmentAsk (.segRead (localPart m.publish))) ∧
        otherReqs s t rid ∧ t.mem = s.mem ∧ ∃ r', getReq t rid = some r' ∧ tabGet {} r'.stages 0x14 = { g with sub := 1 }) ∧
    (g.sub = 2 → r.cached % 256 = 0 → (∀ i ∈ chunkMembers m n, ∃ a, tabFind r.answers (chunkAsk i) = some a) →
      let given := (chunkMembers m n).flatMap fun i => ((tabFind r.answers (chunkAsk i)).getD {}).pages
      ((∀ i ∈ chunkMembers m n, ∀ a, tabFind r.answers (chunkAsk i) = some a → a.status.good = true) →
        Does (.prefill rid buf) s fun t => otherReqs s t rid ∧ t.mem = s.mem ∧ ∃ r', getReq t rid = some r' ∧
          r'.pages = given.zipIdx.map (fun a => (first + a.2, a.1)) ∧ (tabGet {} r'.stages 0x14).step = 1) ∧
      (∀ st, allAnswered s rid ((chunkMembers m n).map chunkAsk) = some st → st.good = false →
        Does (.prefill rid buf) s fun t => stageDone s t rid 0x14 st ∧ t.mem = s.mem ∧
          (∀ x ∈ given, globalModule x ≠ ownModule s → (choosePort s (globalModule x)).isSome = true →
            purserTells t (globalModule x) (.kvFree [localPart x])))) ∧
    (g.sub = 3 → (tabFind r.answers copyAsk = none → Does (.prefill rid buf) s fun t => t.mem = s.mem ∧ t.pur.reqs = s.pur.reqs) ∧
      ∀ a, tabFind r.answers copyAsk = some a → (a.status.good = true → Does (.prefill rid buf) s fun t =>
        otherReqs s t rid ∧ t.mem = s.mem ∧ ∃ r', getReq t rid = some r' ∧ (tabGet {} r'.stages 0x14).step = 1 ∧
          r'.pages = r.pages) ∧
        (a.status.good = false → Does (.prefill rid buf) s fun t => stageDone s t rid 0x14 a.status ∧ t.mem = s.mem))

/-- The pages of a request up to position `last`: the new ones, and those its page table names. -/
def pagesTo (s : State) (r : Request) (last : Nat) : List (Nat × Nat) :=
  (List.range (last / 256 + 1)).flatMap fun p =>
    let e := memRead s.mem.bytes (fld r.record 72 8 + 16 * p) 16
    match tabFind r.pages p with
    | some g => [(p, g)]
    | none => if bit (fld e 10 2) 0 then [(p, fld e 0 8)] else []

/-- The layers of PREFILL (`prefillLayer`; spec/13 R327). Every module with new pages is asked to write K and V, then, when all
have, to attend; when all have, the next layer follows, and after the last the page table names the new pages, the stage's
own work is done and the request waits for decoding. A module that fails ends the stage with its status. Before the last
layer ends, nothing below the working space `buf` changes but pages of the request. -/
def layersRun : Prop :=
  ∀ (rid buf : Nat) (r : Request) (m : Model) (s : State), prefillOn s rid r m →
    let g := tabGet {} r.stages 0x14
    let l := g.step - 1
    let last := r.context - 1
    let mods := pageModules r.pages
    let table := fld r.record 72 8
    let far := ∀ x ∈ mods, x ≠ ownModule s ∧ (choosePort s x).isSome = true
    1 ≤ g.step → g.step ≤ m.layers → table + 65536 ≤ wheelBase → r.context ≤ 1048576 →
    (g.sub = 0 → mods ≠ [] → far → (∀ i, tabFind r.asks (kvAsk i) = none ∧ tabFind r.answers (kvAsk i) = none) →
      Does (.prefillLayer rid buf) s fun t =>
        (∀ i x, mods[i]? = some x → purserTells t x (.ask rid (kvAsk i) (.kv r.ctx m.record l r.cached last r.pages))) ∧
        otherReqs s t rid ∧ t.mem = s.mem ∧ ∃ r', getReq t rid = some r' ∧ tabGet {} r'.stages 0x14 = { g with sub := 1 }) ∧
    (g.sub = 1 → mods ≠ [] → far → (∀ i, i < mods.length → ∃ a, tabFind r.answers (kvAsk i) = some a ∧ a.status.good = true) →
      (∀ i, tabFind r.asks (attendAsk i) = none) → Does (.prefillLayer rid buf) s fun t =>
        (∀ i x, mods[i]? = some x → purserTells t x (.ask rid (attendAsk i)
          (.attend r.ctx m.record (m.select.getD l []) l r.context r.cached last (pagesTo s r last)))) ∧
        otherReqs s t rid ∧ t.mem = s.mem ∧ ∃ r', getReq t rid = some r' ∧ tabGet {} r'.stages 0x14 = { g with sub := 2 }) ∧
    (g.sub = 2 → (∀ i, i < mods.length → ∃ a, tabFind r.answers (attendAsk i) = some a ∧ a.status.good = true) →
      (g.step < m.layers → Does (.prefillLayer rid buf) s fun t =>
        otherReqs s t rid ∧ t.mem = s.mem ∧ stepCounts s t g.cmd ∧
        ∃ r', getReq t rid = some r' ∧ tabGet {} r'.stages 0x14 = { g with step := g.step + 1, sub := 0 }) ∧
      (g.step = m.layers → r.segment = none → r.addr + 256 ≤ wheelBase → apart (table, 65536) r.addr 256 →
        (∀ p ∈ r.pages, p.1 < 4096) → (r.pages.map (·.1)).Nodup → Does (.prefillLayer rid buf) s fun t =>
          stageDone s t rid 0x14 .ok ∧ stepCounts s t g.cmd ∧ (∀ r', getReq t rid = some r' → r'.state = 3) ∧
          (∀ p ∈ r.pages, memRead t.mem.bytes (table + 16 * p.1) 16 =
            toLe 8 p.2 ++ toLe 2 (min 256 (r.context - 256 * p.1)) ++ toLe 2 1 ++ toLe 4 0) ∧
          leNat (memRead t.mem.bytes (r.addr + 184) 2) = 3 ∧
          ∀ a, (∀ p ∈ r.pages, a < table + 16 * p.1 ∨ table + 16 * p.1 + 16 ≤ a) → a < r.addr + 184 ∨ r.addr + 186 ≤ a →
            memGet t.mem.bytes a = memGet s.mem.bytes a)) ∧
    (∀ st, (g.sub = 1 ∧ allAnswered s rid ((List.range mods.length).map kvAsk) = some st ∨
        g.sub = 2 ∧ allAnswered s rid ((List.range mods.length).map attendAsk) = some st) → st.good = false →
      Does (.prefillLayer rid buf) s fun t => stageDone s t rid 0x14 st ∧ t.mem = s.mem) ∧
    (g.step < m.layers → Does (.prefillLayer rid buf) s fun t => otherReqs s t rid ∧
      ∀ a, a < buf → (∀ p ∈ r.pages, globalModule p.2 = ownModule s →
        a < localPart p.2 ∨ localPart p.2 + m.pageBytes ≤ a) → memGet t.mem.bytes a = memGet s.mem.bytes a)

end Sys2Proof.Claim

/-- PREFILL and its layers: `pagesTaken`; `layersRun`. -/
def Obligations.PrefillTakesPages : Prop := pagesTaken ∧ layersRun

namespace Sys2Proof.Claim

/-- POUR opens the ring, and DECODE then admits the request (`pour`, `decode`; spec/12 R304, spec/13 R333, R334, R341). With a good
stop record POUR writes HEAD and TAIL as 0 and nothing else; a bad one ends the stage with INTERNAL. DECODE mixes SEED into
the random source. -/
def decodingStarts : Prop :=
  (∀ (rid : Nat) (r : Request) (s : State), stageOn s rid 0x16 r → r.ring = none → clean s → openTo s (whoPurser (some r.ctx)) →
    let base := fld r.record 96 8
    let h := base + 2 ^ fld r.record 104 1
    let stops := memRead s.mem.bytes (fld r.record 112 8) 1056
    fld r.record 112 8 + 1056 ≤ wheelBase → h + 64 + fld r.record 108 4 ≤ wheelBase →
    (stopRecordOk stops = true → Does (.pour rid) s fun t =>
      getReq t rid = some { r with ring := some { stops := stops } } ∧ otherReqs s t rid ∧
      (∀ a, h ≤ a → a < h + 16 → memGet t.mem.bytes a = 0) ∧
      ∀ a, a < h ∨ h + 16 ≤ a → memGet t.mem.bytes a = memGet s.mem.bytes a) ∧
    (stopRecordOk stops = false → Does (.pour rid) s fun t => stageDone s t rid 0x16 .internal ∧ t.mem = s.mem)) ∧
  ∀ (rid : Nat) (r : Request) (s : State), stageOn s rid 0x15 r → (tabGet {} r.stages 0x15).step = 0 →
    (r.ring.isSome = true → Does (.decode rid) s fun t =>
      otherReqs s t rid ∧ (∃ r', getReq t rid = some r' ∧ r'.model = (tabGet {} r.stages 0x15).param ∧
        (tabGet {} r'.stages 0x15).step = 1) ∧
      t.pur.entropy = Config.mixSeed s.pur.entropy (fld r.record 144 8) ∧ t = { s with pur := t.pur }) ∧
    (r.ring = none → Does (.decode rid) s fun t => t.pur.reqs = s.pur.reqs ∧ t = { s with pur := t.pur })

/-- The first half of a decode step (`decodeStep` with the flag clear; spec/13 R330, R332, R341). It chooses at most a batch of
requests, each eligible and each once, and starts a choice among its logits for each on a sort/select unit, in the working
space from `buf` on; when a request's choice is made, the token it gives goes to the request's sequencer. -/
def tokensAreChosen : Prop :=
  (∀ (model buf : Nat) (m : ModelSt) (p : Nat × Request) (y : Model) (s : State),
    tabFind s.pur.models model = some m → m.chosen = [] → purWorks s = true → clean s →
    s.pur.reqs.Pairwise (fun a b => a.1 < b.1) → (s.pur.reqs.filter fun p => eligible s model p.2).head? = some p →
    modelRead s model (fld p.2.record 16 8) y → buf + y.batch * sampleSpace y.vocab ≤ wheelBase →
    (∀ q ∈ s.pur.reqs, eligible s model q.2 = true → openTo s (whoPurser (some q.2.ctx))) →
    Does (.decodeStep model false buf) s fun t =>
      ∃ m', tabFind t.pur.models model = some m' ∧ m'.vocab = y.vocab ∧ m'.chosen.Nodup ∧ m'.chosen.length ≤ y.batch ∧
        (∀ i rid, m'.chosen[i]? = some rid → ∃ r id c, getReq s rid = some r ∧ eligible s model r = true ∧
          getReq t rid = some { r with fwd := {}, sampler := some id } ∧ getCmd t id = some c ∧ c.work = .sample ∧
          c.buf = buf + i * sampleSpace y.vocab ∧
          memRead t.mem.bytes c.buf (4 * y.vocab) =
            (List.range y.vocab).flatMap fun j => toLe 4 (Config.free (r.logits + j) % 2 ^ 32)) ∧
        (∀ rid, rid ∉ m'.chosen → getReq t rid = getReq s rid) ∧
        ∀ a, a < buf → memGet t.mem.bytes a = memGet s.mem.bytes a) ∧
  ∀ (model buf rid id : Nat) (m : ModelSt) (r : Request) (c : PCmd) (s : State),
    tabFind s.pur.models model = some m → m.chosen = [rid] → purWorks s = true → clean s → getReq s rid = some r →
    r.sampler = some id → getCmd s id = some c → c.jobs = [] → tabFind c.done 0 = some .ok →
    openTo s (whoPurser (some r.ctx)) →
    let k := sampleK r
    let top := if k = 0 then m.vocab else k
    let n := min top (leNat (memRead s.mem.bytes (choiceSum c.buf m.vocab k + 4) 4))
    let recs := ((List.range n).map (recAt (memRead s.mem.bytes (choiceDst c.buf m.vocab) (32 * n)))).filter SelRec.valid
    choiceEnd c.buf m.vocab k ≤ wheelBase → Does (.decodeStep model false buf) s fun t =>
      getReq t rid = some { r with
        sampler := none
        events := r.events ++ [.token (sampleToken (BitVec.ofNat 32 (fld r.record 128 4)) (BitVec.ofNat 32 (fld r.record 132 4))
          recs (Config.random s.pur.entropy (Config.free s.freeCtr)))] } ∧
      otherReqs s t rid ∧ getCmd t id = none ∧ t.mem = s.mem

/-- The second half of a decode step (`decodeStep` with the flag set; spec/13 R324, R330), for a step of one request whose
sequencer has its token. A request with a terminal record is passed over; the page of position CONTEXT is its own or asked
for; each layer's K, V and attention run on the module of that page; last FILL and CONTEXT count on, and the step ends. -/
def tokensGoForward : Prop :=
  ∀ (model buf rid : Nat) (m : ModelSt) (r : Request) (y : Model) (s : State),
    tabFind s.pur.models model = some m → m.chosen = [rid] → purWorks s = true → clean s → getReq s rid = some r →
    r.sampler = none → (∀ e ∈ r.events, ∀ tok, e ≠ .token tok) → openTo s (whoPurser (some r.ctx)) →
    modelRead s r.model (fld r.record 16 8) y →
    let table := fld r.record 72 8
    let p := r.context / 256
    let e := memRead s.mem.bytes (table + 16 * p) 16
    let page := r.fwd.page
    let l := r.fwd.layer
    let stepEnds := fun t : State => (∃ m', tabFind t.pur.models model = some m' ∧ m'.chosen = []) ∧ otherReqs s t rid ∧
      stepCounts s t (tabGet {} r.stages 0x15).cmd
    table + 65536 ≤ wheelBase → r.context < 1048576 →
    (r.fwd.sub = 0 → r.terminal = true → Does (.decodeStep model true buf) s fun t =>
      stepEnds t ∧ t.mem = s.mem ∧ ∃ r', getReq t rid = some r' ∧ r'.waited = s.hub.time.toNat ∧ r'.context = r.context) ∧
    (r.fwd.sub = 0 → r.terminal = false → bit (fld e 10 2) 0 = true → bit (fld e 10 2) 1 = false →
      Does (.decodeStep model true buf) s fun t => otherReqs s t rid ∧ t.mem = s.mem ∧ t.pur.models = s.pur.models ∧
        getReq t rid = some { r with answers := [], fwd := { sub := 4, page := fld e 0 8 } }) ∧
    (r.fwd.sub = 1 → tabFind r.asks pageAsk = none → tabFind r.answers pageAsk = none →
      let x := y.group.getD (r.fwd.member % y.group.length) (0, 0, 0)
      x.1 ≠ ownModule s → (choosePort s x.1).isSome = true → Does (.decodeStep model true buf) s fun t =>
        purserTells t x.1 (.ask rid pageAsk (.kvTake x.2.1 x.2.2 y.pageBytes 1)) ∧ otherReqs s t rid ∧ t.mem = s.mem ∧
        getReq t rid = some { r with asks := tabPut r.asks pageAsk x.1 }) ∧
    (r.fwd.sub = 4 → l < y.layers → tabFind r.asks stepKvAsk = none → tabFind r.answers stepKvAsk = none →
      globalModule page ≠ ownModule s → (choosePort s (globalModule page)).isSome = true →
      Does (.decodeStep model true buf) s fun t =>
        purserTells t (globalModule page) (.ask rid stepKvAsk (.kv r.ctx y.record l r.context r.context [(p, page)])) ∧
        otherReqs s t rid ∧ t.mem = s.mem ∧ getReq t rid = some { r with asks := tabPut r.asks stepKvAsk (globalModule page) }) ∧
    (r.fwd.sub = 4 → l < y.layers → (∃ a, tabFind r.answers stepKvAsk = some a ∧ a.status.good = true) →
      tabFind r.asks stepKvAsk = none → tabFind r.asks stepAttendAsk = none → globalModule page ≠ ownModule s →
      (choosePort s (globalModule page)).isSome = true → Does (.decodeStep model true buf) s fun t =>
        purserTells t (globalModule page) (.ask rid stepAttendAsk
          (.attend r.ctx y.record (y.select.getD l []) l (r.context + 1) r.context r.context (pagesTo s r r.context))) ∧
        otherReqs s t rid ∧ t.mem = s.mem ∧ getReq t rid = some { r with
          answers := [], asks := tabPut r.asks stepAttendAsk (globalModule page), fwd := { r.fwd with sub := 5 } }) ∧
    (r.fwd.sub = 5 → (∃ a, tabFind r.answers stepAttendAsk = some a ∧ a.status.good = true) →
      Does (.decodeStep model true buf) s fun t => otherReqs s t rid ∧ t.mem = s.mem ∧
        getReq t rid = some { r with answers := [], fwd := { r.fwd with sub := 4, layer := l + 1 } }) ∧
    (r.fwd.sub = 4 → l = y.layers → r.addr + 256 ≤ wheelBase → apart (table, 65536) r.addr 256 →
      Does (.decodeStep model true buf) s fun t =>
        stepEnds t ∧ (∃ r', getReq t rid = some r' ∧ r'.context = r.context + 1 ∧ r'.waited = s.hub.time.toNat ∧
          r'.events = r.events) ∧
        leNat (memRead t.mem.bytes (table + 16 * p + 8) 2) = r.context % 256 + 1 ∧
        leNat (memRead t.mem.bytes (r.addr + 88) 4) = r.context + 1 ∧
        ∀ a, a < table + 16 * p + 8 ∨ table + 16 * p + 10 ≤ a → a < r.addr + 88 ∨ r.addr + 92 ≤ a →
          memGet t.mem.bytes a = memGet s.mem.bytes a)

/-- Budgets (`budgetRefill`, `budgetPeriodWrite`; spec/13 R342): once a period has passed every class's budget is set to its
REFILL, and the next period follows the last; a new period counts from the last refill, or refills at once. -/
def budgetsRefill : Prop :=
  (∀ s : State, Does .budgetRefill s fun t =>
    (s.pur.lastRefill + s.pur.period.toNat * 1000000 ≤ s.hub.time.toNat → (∀ c x, tabFind s.pur.classes c = some x →
      tabFind t.pur.classes c = some { x with budget := x.refill }) ∧
      t.pur.lastRefill = s.pur.lastRefill + s.pur.period.toNat * 1000000) ∧
    (s.hub.time.toNat < s.pur.lastRefill + s.pur.period.toNat * 1000000 → t = s) ∧
    t = { s with pur := { s.pur with classes := t.pur.classes, lastRefill := t.pur.lastRefill } }) ∧
  ∀ (a : Agent) (v : W64) (s : State), Does (.budgetPeriodWrite a v) s fun t =>
    (a = .mgmt → t = s) ∧
    (a ≠ .mgmt → t.pur.period.toNat = max 1 (min 86400000 (v.toNat % 2 ^ 32)) ∧
      (s.pur.lastRefill + t.pur.period.toNat * 1000000 ≤ s.hub.time.toNat → t.pur.lastRefill = s.hub.time.toNat ∧
        ∀ c x, tabFind s.pur.classes c = some x → tabFind t.pur.classes c = some { x with budget := x.refill }) ∧
      (s.hub.time.toNat < s.pur.lastRefill + t.pur.period.toNat * 1000000 → t.pur.classes = s.pur.classes ∧
        t.pur.lastRefill = s.pur.lastRefill)) ∧
    t = { s with pur := { s.pur with period := t.pur.period, classes := t.pur.classes, lastRefill := t.pur.lastRefill } }

end Sys2Proof.Claim

/-- Decoding: `decodingStarts`; `tokensAreChosen`; `tokensGoForward`; `budgetsRefill`. -/
def Obligations.DecodeSteps : Prop := decodingStarts ∧ tokensAreChosen ∧ tokensGoForward ∧ budgetsRefill

namespace Sys2Proof.Claim

/-- The bytes that the tokenizer of a request gives a token; none for a bad token (spec/12 R303). -/
def tokenSpells (s : State) (r : Request) (tok : Nat) : Option Bytes :=
  let d := memRead s.mem.bytes (fld r.record 16 8) 128
  let e := memRead s.mem.bytes (fld d 64 8 + 8 * tok) 8
  if fld d 4 4 ≤ tok ∨ fld d 80 8 < fld e 0 4 + fld e 4 2 then none
  else if bit (fld e 6 2) 1 then some []
  else some (memRead s.mem.bytes (fld d 72 8 + fld e 0 4) (fld e 4 2))

/-- What a sequencer reads of a token lies below the wheelhouse region. -/
def tokenInReach (s : State) (r : Request) (tok : Nat) : Prop :=
  let d := memRead s.mem.bytes (fld r.record 16 8) 128
  let e := memRead s.mem.bytes (fld d 64 8 + 8 * tok) 8
  fld r.record 16 8 + 128 ≤ wheelBase ∧ fld d 64 8 + 8 * tok + 8 ≤ wheelBase ∧
  fld d 72 8 + fld e 0 4 + fld e 4 2 ≤ wheelBase

/-- What reaches a sequencer (`sequencerToken`, `sequencerCancel`, `sequencerError`; spec/12 R302-R308, spec/13 R338, R339). A
token is discarded once the terminal record is committed; else it counts, GENERATED is written, and it is committed next
with its bytes and the first reason that holds; a CANCEL commits a record of REASON 5 and an error one of REASON 6, unless
they come late. -/
def sequencersOrder : Prop :=
  ∀ (rid : Nat) (r : Request) (x : RingSt) (rest : List SeqEvent) (s : State), getReq s rid = some r → r.ring = some x →
    (∀ tok, r.events = .token tok :: rest →
      (r.terminal = true → Does (.sequencerToken rid) s fun t =>
        getReq t rid = some { r with events := rest } ∧ otherReqs s t rid ∧ t = { s with pur := { s.pur with reqs := t.pur.reqs } }) ∧
      (r.terminal = false → clean s → openTo s (whoPurser (some r.ctx)) → tokenInReach s r tok → r.addr + 256 ≤ wheelBase →
        Does (.sequencerToken rid) s fun t =>
        let b? := tokenSpells s r tok
        otherReqs s t rid ∧ t.por.tokens = s.por.tokens + 1 ∧
        t.por.badToken = (if b? = none then s.por.badToken + 1 else s.por.badToken) ∧
        (getClass t r.cls).tokens = (getClass s r.cls).tokens + 1 ∧
        (underBudget s r = true → (getClass t r.cls).budget.toNat = (getClass s r.cls).budget.toNat - 1) ∧
        leNat (memRead t.mem.bytes (r.addr + 124) 4) = (r.generated + 1) % 2 ^ 32 ∧
        (∀ a, a < r.addr + 124 ∨ r.addr + 128 ≤ a → memGet t.mem.bytes a = memGet s.mem.bytes a) ∧
        ∃ r' x' q, getReq t rid = some r' ∧ r'.ring = some x' ∧ r'.events = rest ∧ r'.generated = r.generated + 1 ∧
          x'.seq = x.seq + 1 ∧ x'.wait = x.wait ++ [q] ∧ q.token = tok ∧ x'.head = x.head ∧
          (q.reason ≠ 0 ↔ r'.terminal = true) ∧
          (stopStrings x.stops = [] → q.reason = tokenReason r tok false (r.generated + 1) ∧
            (bit (fld x.stops 1 1) 1 = true → q.bytes = x.pend ++ b?.getD [])))) ∧
    (∀ id c, r.events = .cancel id :: rest → getCmd s id = some c →
      (r.terminal = true → Does (.sequencerCancel rid) s fun t =>
        completes s t id c .lateCancel ∧ getReq t rid = some { r with events := rest } ∧ otherReqs s t rid) ∧
      (r.terminal = false → Does (.sequencerCancel rid) s fun t =>
        otherReqs s t rid ∧ getReq t rid = some
          { r with
            events := rest, terminal := true
            ring := some { x with seq := x.seq + 1, pend := [], held := [], wait := x.wait ++
              [{ token := 0xFFFFFFFF, reason := 5, status := .cancelled, cancel := some id }] } } ∧
        t = { s with pur := { s.pur with reqs := t.pur.reqs } })) ∧
    (∀ st, r.events = .error st :: rest → Does (.sequencerError rid) s fun t =>
      otherReqs s t rid ∧ t = { s with pur := { s.pur with reqs := t.pur.reqs } } ∧
      (r.terminal = true → getReq t rid = some { r with events := rest }) ∧
      (r.terminal = false → getReq t rid = some
        { r with
          events := rest, terminal := true
          ring := some { x with seq := x.seq + 1, pend := [], held := [], wait := x.wait ++
            [{ token := 0xFFFFFFFF, reason := 6, status := st }] } }))

/-- Ring records (`ringRecordWrite`; spec/13 R335, R336, R338). Without room, TAIL reread, the record waits; else its bytes
beyond 16 go to the spill area, the record to its slot, and HEAD counts it; the terminal record ends DECODE and POUR, and
the CANCEL that brought it completes. -/
def ringsFill : Prop :=
  ∀ (rid : Nat) (r : Request) (x : RingSt) (q : RingRec) (ws : List RingRec) (s : State), getReq s rid = some r →
    r.ring = some x → x.wait = q :: ws → 5 ≤ fld r.record 104 1 →
    let k := fld r.record 104 1
    let base := fld r.record 96 8
    let area := base + 2 ^ k + 64
    let n := if q.bytes.length ≤ 16 then 0 else q.bytes.length
    let a := (spillPlace r x n).getD 0
    let slot := base + 32 * (x.head % (2 ^ k / 32))
    (x.tail + 2 ^ k / 32 ≤ x.head →
      leNat (memRead s.mem.bytes (base + 2 ^ k + 8) 8) + 2 ^ k / 32 ≤ x.head → Does (.ringRecordWrite rid) s fun t =>
        t.mem = s.mem ∧ otherReqs s t rid ∧ ∃ r' x', getReq t rid = some r' ∧ r'.ring = some x' ∧ x'.head = x.head ∧
          x'.wait = x.wait) ∧
    (ringFits r x n = true → clean s → area + fld r.record 108 4 ≤ wheelBase → x.head + 1 < 2 ^ 64 →
      Does (.ringRecordWrite rid) s fun t =>
        otherReqs s t rid ∧
        memRead t.mem.bytes slot 32 = ringBytes x.head q (if n = 0 then none else some (area + a)) ∧
        (n ≠ 0 → memRead t.mem.bytes (area + a) n = q.bytes) ∧ leNat (memRead t.mem.bytes (base + 2 ^ k) 8) = x.head + 1 ∧
        (∀ i, i < slot ∨ slot + 32 ≤ i → i < base + 2 ^ k ∨ base + 2 ^ k + 8 ≤ i → i < area + a ∨ area + a + n ≤ i →
          memGet t.mem.bytes i = memGet s.mem.bytes i) ∧
        (∀ id c, q.reason ≠ 0 → q.cancel = some id → getCmd s id = some c → completes s t id c .ok) ∧
        ∃ r', getReq t rid = some r' ∧ r'.ring = some { x with
            head := x.head + 1, wait := ws, place := if n = 0 then x.place else a + n
            runs := if n = 0 then x.runs else x.runs ++ [(x.head, a, n)] } ∧
          (q.reason ≠ 0 → (tabGet {} r'.stages 0x15).phase = .worked q.status ∧ (tabGet {} r'.stages 0x16).phase = .worked q.status) ∧
          (q.reason = 0 → r'.stages = r.stages))

end Sys2Proof.Claim

/-- The sequencer and its ring: `sequencersOrder`; `ringsFill`. -/
def Obligations.SequencersPour : Prop := sequencersOrder ∧ ringsFill

/-! ### Ports and paths -/

namespace Sys2Proof.Claim

/-- Every syncing or up path of a port is gone, and the port's learned addresses with them. -/
def pathsLost (t : State) (p : Nat) : Prop :=
  ∀ x, x < 4096 → (getPath t p x).state ≠ .up ∧ (getPath t p x).state ≠ .syncing ∧ tabFind t.fry.learned (pathKey p x) = none

/-- Every path of a port that the path table names and that was idle or lost proposes its next generation; its SYNC goes out, or
waits for the end of a calibration. -/
def pathsSync (s t : State) (p x : Nat) : Prop :=
  entryNames s p x = true → x ≠ ownModule s → ((getPath s p x).state = .idle ∨ (getPath s p x).state = .lost) →
    (getPath t p x).state = .syncing ∧ (getPath t p x).proposal = some ((getPath s p x).gen + 1) ∧
    ∃ mac f w, (Out.ferry p mac f w ∈ t.outs ∨ (mac, f, w) ∈ (getPort t p).wait) ∧ f.typ = .sync ∧ f.dst = x ∧
      f.gen = (getPath s p x).gen + 1

end Sys2Proof.Claim

/-- Ports (spec/16 R394, R406, R410, R412, spec/14 R363): a write of a port's configuration takes effect, but for one that
changes MODE while ENABLE is 1; a ferry port that comes up syncs the paths the table names; one that is disabled, or
whose link goes down, loses every path and every learned address; a calibration holds the frames that leave until it
closes; a path table entry written starts its paths; bytes that spell no frame of Table 16-5 are counted as dropped
(`portEnable`, `portDisable`, `portLinkUp`, `portLinkDown`, `opticalCalibration`, `ferryFrameDiscard`, `pathTableWrite`). -/
def Obligations.PortsCarryPaths : Prop :=
  (∀ (a : Agent) (p : Nat) (v : W64) (s : State), a ≠ .mgmt → p < 16 →
    ((getPort s p).enable = true → v.toNat / 2 ^ 61 % 4 ≠ (getPort s p).mode.toNat →
      exec (.portEnable a p v) s = .next s ∧ exec (.portDisable a p v) s = .next s) ∧
    ((getPort s p).enable = false → Does (.portEnable a p v) s fun t =>
      (getPort t p).enable = true ∧ (getPort t p).mode.toNat = v.toNat / 2 ^ 61 % 4 ∧
      (getPort t p).maxFrame.toNat = max 1518 (min 9216 (v.toNat % 2 ^ 14)) ∧
      ((getPort s p).link = true → v.toNat / 2 ^ 61 % 4 = 0 → ∀ x, pathsSync s t p x) ∧
      (∀ q, q ≠ p → getPort t q = getPort s q) ∧ t.mem = s.mem) ∧
    ((getPort s p).enable = true → (getPort s p).mode = 0 → v.toNat / 2 ^ 61 % 4 = 0 → Does (.portDisable a p v) s fun t =>
      (getPort t p).enable = false ∧ (getPort t p).link = (getPort s p).link ∧ pathsLost t p)) ∧
  (∀ (p : Nat) (s : State), p < 16 →
    ((getPort s p).enable = true → (getPort s p).link = false → Does (.portLinkUp p) s fun t =>
      (getPort t p).link = true ∧ ((getPort s p).mode = 0 → ∀ x, pathsSync s t p x) ∧
      (∀ q, q ≠ p → getPort t q = getPort s q) ∧ t = { s with fry := t.fry, outs := t.outs }) ∧
    ((getPort s p).link = true → Does (.portLinkDown p) s fun t =>
      (getPort t p).link = false ∧ (getPort t p).lost = true ∧ (getPort t p).enable = (getPort s p).enable ∧ pathsLost t p) ∧
    (Does (.opticalCalibration p true) s fun t => getPort t p = { getPort s p with cal := true } ∧
      (∀ q, q ≠ p → getPort t q = getPort s q) ∧ t = { s with fry := { s.fry with ports := t.fry.ports } }) ∧
    (Does (.opticalCalibration p false) s fun t =>
      let w := (getPort s p).wait
      getPort t p = { getPort s p with
        cal := false, wait := [], txFrames := (getPort s p).txFrames + BitVec.ofNat 64 w.length } ∧
      t.outs = (w.map fun x => Out.ferry p x.1 x.2.1 x.2.2).reverse ++ s.outs ∧
      (∀ q, q ≠ p → getPort t q = getPort s q) ∧ t = { s with fry := { s.fry with ports := t.fry.ports }, outs := t.outs }) ∧
    (∀ bytes, portCarries s p = true →
      (ferryParse s bytes = none → Does (.ferryFrameDiscard p bytes) s fun t =>
        getPort t p = { getPort s p with dropped := (getPort s p).dropped + 1 } ∧
        (∀ q, q ≠ p → getPort t q = getPort s q) ∧ t = { s with fry := { s.fry with ports := t.fry.ports } }) ∧
      ((ferryParse s bytes).isSome = true → exec (.ferryFrameDiscard p bytes) s = .next s))) ∧
  (∀ (a : Agent) (x : Nat) (v : W64) (s : State), a ≠ .mgmt → x < 4096 → Does (.pathTableWrite a x v) s fun t =>
    getEntry t x =
      { getEntry s x with
        valid := v.getLsbD 63, pcp := v.extractLsb' 60 3, vid := v.extractLsb' 48 12, tagged := v.getLsbD 47,
        ports := v.extractLsb' 0 16 } ∧
    (∀ y, y ≠ x → getEntry t y = getEntry s y) ∧
    (∀ p, p < 16 → ferryLive s p = true → s.fry.berthValid = true → v.getLsbD 63 = true → v.getLsbD p = true →
      x ≠ ownModule s → ((getPath s p x).state = .idle ∨ (getPath s p x).state = .lost) →
      (getPath t p x).state = .syncing ∧ (getPath t p x).proposal = some ((getPath s p x).gen + 1)) ∧
    t = { s with fry := t.fry, outs := t.outs })

/-- R426: an edge of PPS_IN latches the counter and sets SEEN; with ARM set the counter takes FRY_PPS_NEXT when that is at least
the latched value, and otherwise stands, sets BEHIND and logs an event; ARM clears; nothing else of the ferry block
changes, and the counter never steps backward. -/
def Obligations.PpsEdgeFollowsR426 : Prop :=
  ∀ s : State, Does .ppsEdge s fun t =>
    t.fry.ppsLatch = s.hub.time ∧ t.fry.ppsSeen = true ∧ t.fry.ppsArm = false ∧
    (s.fry.ppsArm = false → t.hub = s.hub ∧ t.fry.ppsBehind = s.fry.ppsBehind ∧ t.evt = s.evt) ∧
    (s.fry.ppsArm = true → s.hub.time ≤ s.fry.ppsNext → t.hub = { s.hub with time := s.fry.ppsNext } ∧
      t.fry.ppsBehind = s.fry.ppsBehind ∧ t.evt = s.evt) ∧
    (s.fry.ppsArm = true → s.fry.ppsNext < s.hub.time → t.hub = s.hub ∧ t.fry.ppsBehind = true ∧
      (s.evt.buf < 256 → t.evt.head = s.evt.head + 1)) ∧
    t.fry = { s.fry with ppsLatch := s.hub.time, ppsSeen := true, ppsArm := false, ppsBehind := t.fry.ppsBehind }

/-- Client ports and the wheelhouse (spec/16 R395-R397, spec/17 R431, R432): a ring write zeroes both counts; a TAIL in range
is stored, another is ignored with an event; a good frame for the port goes without its FCS to the posted buffer, then its
descriptor, then RXHEAD counts; a bad or unexpected one is dropped and counted; a posted frame is sent with its FCS, its
descriptor marked DONE and TXHEAD counts; a store of the wheelhouse writes its bytes, but into the bundle cache it writes none and faults. -/
def Obligations.ClientRings : Prop :=
  (∀ (a : Agent) (p : Nat) (rx : Bool) (v : W64) (s : State), a ≠ .mgmt → Does (.clientRingWrite a p rx v) s fun t =>
    let l := BitVec.ofNat 5 (max 6 (min 16 (v.toNat / 2 ^ 48 % 32)))
    let b := BitVec.ofNat 48 (v.toNat / 4096 % 2 ^ 36 * 4096)
    getPort t p = (if rx then { getPort s p with rxLog2 := l, rxBase := b, rxTail := 0, rxHead := 0 }
      else { getPort s p with txLog2 := l, txBase := b, txTail := 0, txHead := 0 }) ∧
    (∀ q, q ≠ p → getPort t q = getPort s q) ∧ t = { s with fry := { s.fry with ports := t.fry.ports } }) ∧
  (∀ (a : Agent) (p : Nat) (v : W64) (s : State), a ≠ .mgmt →
    let x := getPort s p
    (x.rxTail ≤ v → v.toNat ≤ x.rxHead.toNat + 2 ^ x.rxLog2.toNat → Does (.clientRxTailWrite a p v) s fun t =>
      getPort t p = { x with rxTail := v } ∧ t = { s with fry := { s.fry with ports := t.fry.ports } }) ∧
    (v < x.rxTail ∨ x.rxHead.toNat + 2 ^ x.rxLog2.toNat < v.toNat → Does (.clientRxTailWrite a p v) s fun t =>
      t = { s with evt := t.evt, outs := t.outs } ∧ (s.evt.buf < 256 → t.evt.head = s.evt.head + 1)) ∧
    (x.txTail ≤ v → v.toNat ≤ x.txHead.toNat + 2 ^ x.txLog2.toNat → Does (.clientTxTailWrite a p v) s fun t =>
      getPort t p = { x with txTail := v } ∧ t = { s with fry := { s.fry with ports := t.fry.ports } }) ∧
    (v < x.txTail ∨ x.txHead.toNat + 2 ^ x.txLog2.toNat < v.toNat → Does (.clientTxTailWrite a p v) s fun t =>
      t = { s with evt := t.evt, outs := t.outs } ∧ (s.evt.buf < 256 → t.evt.head = s.evt.head + 1))) ∧
  (∀ (p : Nat) (frame : Bytes) (s : State), clientLive s p = true → (getPort s p).cal = false →
    let x := getPort s p
    let drops := Does (.clientFrameReceive p frame) s fun t =>
      getPort t p = { x with dropped := x.dropped + 1 } ∧ t = { s with fry := { s.fry with ports := t.fry.ports } }
    (checkFcs frame = none → drops) ∧ ∀ b, checkFcs frame = some b →
    let d := x.rxBase.toNat + x.rxHead.toNat % 2 ^ x.rxLog2.toNat * 32
    let buf := fld (memRead s.mem.bytes d 32) 0 8
    let good := frame.length ≤ x.maxFrame.toNat ∧ 64 ≤ frame.length ∧ isPause b = false
    (x.maxFrame.toNat < frame.length ∨ frame.length < 64 ∨ isPause b = true → drops) ∧
    (good → takesMac x (macOf b) = false → exec (.clientFrameReceive p frame) s = .next s) ∧
    (good → takesMac x (macOf b) = true → x.rxHead = x.rxTail → drops) ∧
    (good → takesMac x (macOf b) = true → x.rxHead ≠ x.rxTail → clean s → d + 32 ≤ cacheBase →
      b.length ≤ fld (memRead s.mem.bytes d 32) 8 2 → buf + b.length ≤ cacheBase →
      (buf + b.length ≤ d ∨ d + 32 ≤ buf) → Does (.clientFrameReceive p frame) s fun t =>
        memRead t.mem.bytes buf b.length = b ∧ fld (memRead t.mem.bytes d 32) 8 2 = b.length ∧
        bit (fld (memRead t.mem.bytes d 32) 10 2) 0 = true ∧ fld (memRead t.mem.bytes d 32) 16 8 = s.hub.time.toNat ∧
        (∀ a, (a < buf ∨ buf + b.length ≤ a) → (a < d + 8 ∨ d + 24 ≤ a) → memGet t.mem.bytes a = memGet s.mem.bytes a) ∧
        getPort t p = { x with rxHead := x.rxHead + 1, rxFrames := x.rxFrames + 1 } ∧
        t.outs = (if x.irqEn then [Out.irq x.irqHart.toNat (.port p)] else []) ++ s.outs)) ∧
  (∀ (p : Nat) (s : State), clientLive s p = true → (getPort s p).cal = false →
    let x := getPort s p
    let d := x.txBase.toNat + x.txHead.toNat % 2 ^ x.txLog2.toNat * 32
    let n := fld (memRead s.mem.bytes d 32) 8 2
    let buf := fld (memRead s.mem.bytes d 32) 0 8
    x.txHead < x.txTail → clean s → d + 32 ≤ cacheBase → (60 ≤ n → n + 4 ≤ x.maxFrame.toNat → buf + n ≤ cacheBase) → Does (.clientFrameTransmit p) s fun t =>
      let sent := decide (60 ≤ n ∧ n + 4 ≤ x.maxFrame.toNat)
      getPort t p =
        { x with
          txHead := x.txHead + 1
          txFrames := if sent then x.txFrames + 1 else x.txFrames } ∧
      t.outs = (if x.irqEn then [Out.irq x.irqHart.toNat (.port p)] else []) ++
        (if sent then [Out.client p (memRead s.mem.bytes buf n ++ fcs (memRead s.mem.bytes buf n))] else []) ++ s.outs ∧
      fld (memRead t.mem.bytes d 32) 10 2 = fld (memRead s.mem.bytes d 32) 10 2 / 4 * 4 + (if sent then 1 else 3) ∧
      fld (memRead t.mem.bytes d 32) 16 8 = s.hub.time.toNat ∧
      ∀ a, (a < d + 10 ∨ d + 24 ≤ a) → memGet t.mem.bytes a = memGet s.mem.bytes a) ∧
  ∀ (h addr : Nat) (b : Bytes) (s : State), clean s →
    (addr + b.length ≤ cacheBase → Does (.wheelhouseStore h addr b) s fun t =>
      memRead t.mem.bytes addr b.length = b ∧ (∀ a, a < addr ∨ addr + b.length ≤ a → memGet t.mem.bytes a = memGet s.mem.bytes a) ∧
      t.outs = s.outs ∧ t = { s with mem := t.mem }) ∧
    (cacheBase < addr + b.length → addr < 0xC000000000 → pursing s = true →
      exec (.wheelhouseStore h addr b) s = .next { s with outs := .storeFault h addr :: s.outs })

/-- Joining and path state (spec/16 R400, R401, R405, R406): HELLO goes out while the path to the steward is not up; the
management host sets the steward's berth once; the steward answers a HELLO of a member with an entry and a SYNC, and
refuses slot 0; a SYNC is adopted unless the own proposal is later, a SYNC_ACK must answer it; both bring the path up with
counts at zero and learn the source's address; a syncing path sends its SYNC again. -/
def Obligations.PathsComeUp : Prop :=
  (∀ s : State, isSteward s = false → ferryLive s 15 = true → (s.fry.berthValid = false ∨ pathUp s 15 (stewardOf s) = false) →
    Does .helloSend s fun t => (∃ f w, f.typ = .hello ∧ f.src = ownModule s ∧
        ((getPort s 15).cal = false → t.outs = .ferry 15 s.fry.groupMac f w :: s.outs) ∧
        ((getPort s 15).cal = true → (getPort t 15).wait = (getPort s 15).wait ++ [(s.fry.groupMac, f, w)])) ∧
      t = { s with fry := t.fry, outs := t.outs }) ∧
  (∀ (a : Agent) (v : W64) (s : State),
    (a = .mgmt → isSteward s = true → s.fry.berthValid = false → Does (.berthSet a v) s fun t =>
      t.fry.berthValid = true ∧ t.fry.berth.toNat = v.toNat / 64 % 64 ∧ t = { s with fry := t.fry, outs := t.outs }) ∧
    (a ≠ .mgmt ∨ isSteward s = false ∨ s.fry.berthValid = true → exec (.berthSet a v) s = .next s)) ∧
  (∀ (p : Nat) (f : FFrame) (s : State), f.typ = .hello → portCarries s p = true →
    (f.src % 64 = 0 → Does (.ferryHelloReceive p f) s fun t =>
      t.fry.entries = s.fry.entries ∧ t.fry.paths = s.fry.paths ∧ (s.evt.buf < 256 → t.evt.head = s.evt.head + 1)) ∧
    (f.src % 64 ≠ 0 → isSteward s = true → s.fry.berthValid = true →
      let x := stewardOf s + f.src % 64
      ((getPath s p x).state = .idle ∨ (getPath s p x).state = .lost) → Does (.ferryHelloReceive p f) s fun t =>
        getEntry t x = { getEntry s x with valid := true, ports := BitVec.ofNat 16 (2 ^ p), mac := f.mac } ∧
        (∀ y, y ≠ x → getEntry t y = getEntry s y) ∧ tabFind t.fry.learned (pathKey p x) = some f.mac ∧
        (getPath t p x).state = .syncing ∧ (getPath t p x).proposal = some ((getPath s p x).gen + 1) ∧
        ∃ g w, Out.ferry p f.mac g w ∈ t.outs ∧ g.typ = .sync ∧ g.gen = (getPath s p x).gen + 1) ∧
    (f.src % 64 ≠ 0 → isSteward s = false ∨ s.fry.berthValid = false → Does (.ferryHelloReceive p f) s fun t =>
      tabFind t.fry.learned (pathKey p f.src) = some f.mac ∧ t.fry.entries = s.fry.entries ∧ t.fry.paths = s.fry.paths ∧
      t = { s with fry := t.fry })) ∧
  (∀ (p : Nat) (f : FFrame) (s : State), f.typ = .sync → portCarries s p = true →
    (s.fry.berthValid = true → f.dst = ownModule s → f.src / 64 = s.fry.berth.toNat ∨ (getEntry s f.src).valid = true →
      (getPath s p f.src).state ≠ .up →
      let g := (getPath s p f.src).proposal
      ((∀ h, g = some h → (h - f.gen).toNat = 0 ∨ 32767 < (h - f.gen).toNat) → Does (.ferrySyncReceive p f) s fun t =>
        (getPath t p f.src).state = .up ∧ (getPath t p f.src).gen = f.gen ∧ (getPath t p f.src).exp = 0 ∧
        (getPath t p f.src).nextSeq = 0 ∧ (getPath t p f.src).unacked = [] ∧
        tabFind t.fry.learned (pathKey p f.src) = some f.mac ∧
        (∃ h w, Out.ferry p f.mac h w ∈ t.outs ∧ h.typ = .syncAck ∧ h.gen = f.gen) ∧
        (∀ l, f.grants = some l → ∀ v, v < l.length → (getVc (getPath t p f.src) v).grant = l.getD v 0) ∧ t.mem = s.mem) ∧
      (∀ h, g = some h → 1 ≤ (h - f.gen).toNat → (h - f.gen).toNat ≤ 32767 → Does (.ferrySyncReceive p f) s fun t =>
        (getPath t p f.src) = (getPath s p f.src) ∧ t.outs = s.outs ∧ t = { s with fry := t.fry })) ∧
    (s.fry.berthValid = true → f.dst = ownModule s → f.src / 64 ≠ s.fry.berth.toNat → (getEntry s f.src).valid = false →
      Does (.ferrySyncReceive p f) s fun t => t.fry.paths = s.fry.paths ∧ t.fry.learned = s.fry.learned ∧
        (s.evt.buf < 256 → t.evt.head = s.evt.head + 1)) ∧
    (s.fry.berthValid = false → isSteward s = false → p = 15 → f.src % 64 = 0 → f.src < 4096 → f.dst / 64 = f.src / 64 →
      f.dst % 64 = s.fry.slot.toNat → (getPath s p f.src).state = .idle → (getPath s p f.src).proposal = none →
      Does (.ferrySyncReceive p f) s fun t => t.fry.berthValid = true ∧ t.fry.berth.toNat = f.src / 64 ∧
        (getPath t p f.src).state = .up ∧ (getEntry t f.src).valid = true ∧ (getEntry t f.src).mac = f.mac)) ∧
  (∀ (p : Nat) (f : FFrame) (s : State), f.typ = .syncAck → portCarries s p = true → f.dst = ownModule s →
    (getPath s p f.src).state = .syncing → Does (.ferrySyncAckReceive p f) s fun t =>
      tabFind t.fry.learned (pathKey p f.src) = some f.mac ∧
      ((getPath s p f.src).proposal = some f.gen → (getPath t p f.src).state = .up ∧ (getPath t p f.src).gen = f.gen ∧
        (getPath t p f.src).exp = 0 ∧ (getPath t p f.src).nextSeq = 0) ∧
      ((getPath s p f.src).proposal ≠ some f.gen → getPath t p f.src = getPath s p f.src ∧ t.outs = s.outs) ∧
      t = { s with fry := t.fry, slip := t.slip, outs := t.outs }) ∧
  ∀ (p x : Nat) (g : BitVec 16) (s : State), portCarries s p = true → (getPath s p x).state = .syncing →
    (getPath s p x).proposal = some g → Does (.syncResend p x) s fun t =>
      (∃ mac f w, t.outs = .ferry p mac f w :: s.outs ∧ f.typ = .sync ∧ f.gen = g ∧ f.dst = x) ∧
      (getPath t p x).proposal = some g ∧ t = { s with fry := t.fry, outs := t.outs }

namespace Sys2Proof.Claim

/-- The rows about a DATA frame of an operation. -/
def dataRows (p : Nat) (f : FFrame) (buf : Nat) (cached : Bool) (bad : Option Nat) : List (Nat × Instr) :=
  [(1, .ferryWrite p f), (2, .ferryWriteAck p f), (3, .ferryReadReq p f), (4, .ferryReadResp p f), (5, .ferryPush p f),
   (6, .ferryPushDone p f), (7, .slipCredit p f), (8, .coll p f), (9, .collReady p f), (10, .ferryStatus p f), (11, .ferryRow p f),
   (12, .ferryPurser p f buf), (13, .ferryMgmt p f cached bad)]

end Sys2Proof.Claim

/-- Reliable delivery (spec/16 R407-R409, R412, R415): the expected frame is accepted and counted, and the sixteenth that is
not acknowledged draws an acknowledgement at once; one after it is dropped and draws a NACK, an old one an
acknowledgement; one that finds no free cell is as if lost; a frame to another module is dropped, one of another generation ignored;
ACK frees what it covers; the first waiting frame of a channel goes out with the next SEQ when credit and room allow; on a
NACK or a timeout the unacknowledged frames go out again in order, until RETRY_MAX resends lose the path. -/
def Obligations.PathsDeliverInOrder : Prop :=
  (∀ (p op buf : Nat) (cached : Bool) (bad : Option Nat) (f : FFrame) (i : Instr) (s : State),
    (op, i) ∈ dataRows p f buf cached bad → f.typ = .data → f.op = op → portCarries s p = true →
    let q := getPath s p f.src
    let drops := Does i s fun t => getPort t p = { getPort s p with dropped := (getPort s p).dropped + 1 } ∧
      t = { s with fry := { s.fry with ports := t.fry.ports } }
    (f.dst ≠ ownModule s → drops) ∧
    (f.dst = ownModule s → (q.state ≠ .up ∨ f.gen ≠ q.gen) → exec i s = .next s) ∧
    (f.dst = ownModule s → q.state = .up → f.gen = q.gen → cellsFree s p f = false → drops) ∧
    (f.dst = ownModule s → q.state = .up → f.gen = q.gen → cellsFree s p f = true → f.seq ≠ q.exp → Does i s fun t =>
      (getPath t p f.src).exp = q.exp ∧ (getPort t p).dropped = (getPort s p).dropped + 1 ∧
      (getPort t p).rxFrames = (getPort s p).rxFrames ∧
      ((f.seq - q.exp).toNat < 2 ^ 23 → q.nacked = none →
        ∃ mac h w, t.outs = .ferry p mac h w :: s.outs ∧ h.typ = .nack ∧ h.ack = some q.exp ∧ h.dst = f.src) ∧
      (2 ^ 23 ≤ (f.seq - q.exp).toNat →
        ∃ mac h w, t.outs = .ferry p mac h w :: s.outs ∧ h.typ = .control ∧ h.ack = some q.exp ∧ h.dst = f.src) ∧
      t = { s with fry := t.fry, outs := t.outs })) ∧
  (∀ (p : Nat) (f : FFrame) (s : State), arrives s p f 0x0A → opOf (received s p f) p f = none →
    let q := getPath s p f.src
    Does (.ferryStatus p f) s fun t =>
      (getPath t p f.src).exp = q.exp + 1 ∧ (getPort t p).rxFrames = (getPort s p).rxFrames + 1 ∧
      (getPort t p).dropped = (getPort s p).dropped ∧ (getPath t p f.src).state = .up ∧
      (getVc (getPath t p f.src) f.vc).freed = (getVc q f.vc).freed + BitVec.ofNat 32 (frameCells f) ∧
      (q.unsentAcks < 15 → (getPath t p f.src).unsentAcks = q.unsentAcks + 1 ∧ t.outs = s.outs) ∧
      (15 ≤ q.unsentAcks → (getPath t p f.src).unsentAcks = 0 ∧
        ∃ mac h w, t.outs = .ferry p mac h w :: s.outs ∧ h.typ = .control ∧ h.ack = some (q.exp + 1) ∧ h.dst = f.src) ∧
      t = { s with fry := t.fry, outs := t.outs }) ∧
  (∀ (p : Nat) (f : FFrame) (s : State), portCarries s p = true → f.dst = ownModule s → pathUp s p f.src = true →
    f.gen = (getPath s p f.src).gen →
    let q := getPath s p f.src
    let left := match f.ack with | some a => q.unacked.filter (fun g => !ackedBy a g) | none => q.unacked
    (f.typ = .control → Does (.ferryControlReceive p f) s fun t =>
      (getPath t p f.src).unacked = left ∧ (getPort t p).rxFrames = (getPort s p).rxFrames + 1 ∧
      (∀ v c, f.credit = some (v, c) → (getVc (getPath t p f.src) v).credit = c) ∧ t = { s with fry := t.fry }) ∧
    (f.typ = .nack → left = [] → Does (.ferryNackReceive p f) s fun t => (getPath t p f.src).unacked = [] ∧ t.outs = s.outs) ∧
    (f.typ = .nack → left ≠ [] → (∀ a, f.ack = some a → ∀ g ∈ q.unacked, ackedBy a g = false) →
      q.resends < s.fry.retryMax.toNat → Does (.ferryNackReceive p f) s fun t =>
        (getPath t p f.src).unacked = left ∧ (getPath t p f.src).resends = q.resends + 1 ∧
        (getPort t p).resent = (getPort s p).resent + BitVec.ofNat 64 left.length ∧
        t.outs.length = s.outs.length + left.length ∧ t = { s with fry := t.fry, outs := t.outs })) ∧
  (∀ (p x : Nat) (s : State), portCarries s p = true → pathUp s p x = true →
    let q := getPath s p x
    (q.unsentAcks ≠ 0 → Does (.ackTimer p x) s fun t =>
      (∃ mac f w, t.outs = .ferry p mac f w :: s.outs ∧ f.typ = .control ∧ f.ack = some q.exp ∧ f.dst = x) ∧
      (getPath t p x).unsentAcks = 0 ∧ t = { s with fry := t.fry, outs := t.outs }) ∧
    (q.unacked ≠ [] → q.resends < s.fry.retryMax.toNat → Does (.retransmitTimeout p x) s fun t =>
      (getPath t p x).unacked = q.unacked ∧ (getPath t p x).resends = q.resends + 1 ∧
      t.outs.length = s.outs.length + q.unacked.length ∧
      (∀ g ∈ q.unacked, ∃ mac f w, Out.ferry p mac f w ∈ t.outs ∧ f.seq = g.seq ∧ f.payload = g.payload ∧ f.op = g.op)) ∧
    (q.unacked ≠ [] → s.fry.retryMax.toNat ≤ q.resends → Does (.retransmitTimeout p x) s fun t =>
      (getPath t p x).unacked = [] ∧ (getPath t p x).state ≠ .up)) ∧
  ∀ (p x v : Nat) (f : FFrame) (s : State), ferryLive s p = true → pathUp s p x = true → (getPort s p).cal = false →
    let q := getPath s p x
    (q.sendq.find? fun f => f.vc = v) = some f → f.typ = .data → f.seq = 0 → q.unacked.length + 1 < 2 ^ 23 →
    let use := unackedCells q v + ((getVc q v).acked - (getVc q v).credit).toNat + frameCells f
    (use ≤ (getVc q v).grant → retransmitBytes s p + 48 + f.payload.length ≤ 2097152 → Does (.ferryFrameSend p x v) s fun t =>
      (∃ mac h w, t.outs = .ferry p mac h w :: s.outs ∧ h.seq = q.nextSeq ∧ h.payload = f.payload ∧ h.op = f.op ∧ h.tag = f.tag ∧
        h.dst = x ∧ h.gen = q.gen ∧ h.ack = some q.exp) ∧
      (getPath t p x).nextSeq = q.nextSeq + 1 ∧ (getPath t p x).sendq = q.sendq.erase f ∧
      (getPath t p x).unacked = q.unacked ++ [{ f with seq := q.nextSeq }] ∧ (getPort t p).txFrames = (getPort s p).txFrames + 1 ∧
      t = { s with fry := t.fry, outs := t.outs }) ∧
    ((getVc q v).grant < use → exec (.ferryFrameSend p x v) s = .next s)

namespace Sys2Proof.Claim

/-- A frame waits behind those of its path, and nothing else of any path has changed. -/
def queues (u t : State) (p x : Nat) (fs : List FFrame) : Prop :=
  getPath t p x = { getPath u p x with sendq := (getPath u p x).sendq ++ fs } ∧ ∀ q y, pathKey q y ≠ pathKey p x → getPath t q y = getPath u q y

end Sys2Proof.Claim

/-- Remote operations (spec/16 R403, R418-R420, spec/07 R180): a range that fails the target's check draws STATUS with INTERNAL
and writes nothing; a WRITE's payload goes to its place and the last one draws WRITE_ACK; a READ_REQ draws its READ_RESPs
in offset order; a PUSH that fits is written, committed and answered; the answer ends what waits for it at the requester;
SLIP_CREDIT sets an account; a message of another module's purser acts once this module's firmware runs. -/
def Obligations.RemoteOperations : Prop :=
  (∀ (p : Nat) (f : FFrame) (s : State), arrives s p f 1 → clean s →
    let u := received s p f
    let k := (pathKey p f.src, f.tag)
    let w := whoServed p f
    (f.offset = 0 → mayAccess s w f.addr f.arg true = false → Does (.ferryWrite p f) s fun t =>
      queues u t p f.src [{ op := 0x0A, vc := 2, ctx := f.ctx, tag := f.tag, arg := Status.internal.code }] ∧ t.mem = s.mem) ∧
    (f.offset ≠ 0 → s.fry.writes.contains k = false → exec (.ferryWrite p f) s = .next u) ∧
    ((f.offset = 0 ∧ mayAccess s w f.addr f.arg true = true) ∨ (f.offset ≠ 0 ∧ s.fry.writes.contains k = true) →
      mayAccess s w (f.addr + f.offset) f.payload.length true = true → Does (.ferryWrite p f) s fun t =>
        memRead t.mem.bytes (f.addr + f.offset) f.payload.length = f.payload ∧
        (∀ a, a < f.addr + f.offset ∨ f.addr + f.offset + f.payload.length ≤ a → memGet t.mem.bytes a = memGet s.mem.bytes a) ∧
        (f.arg ≤ f.offset + f.payload.length →
          queues u t p f.src [{ op := 2, vc := 2, ctx := f.ctx, tag := f.tag, arg := f.arg }] ∧ t.fry.writes.contains k = false) ∧
        (f.offset + f.payload.length < f.arg → queues u t p f.src [] ∧ t.fry.writes.contains k = true))) ∧
  (∀ (p : Nat) (f : FFrame) (s : State), arrives s p f 3 → clean s →
    let u := received s p f
    (mayAccess s (whoServed p f) f.addr f.arg false = false → Does (.ferryReadReq p f) s fun t =>
      queues u t p f.src [{ op := 0x0A, vc := 2, ctx := f.ctx, tag := f.tag, arg := Status.internal.code }] ∧ t.mem = s.mem) ∧
    (mayAccess s (whoServed p f) f.addr f.arg false = true →
      (∀ i, 8192 * i < f.arg → mayAccess s (whoServed p f) (f.addr + 8192 * i) (min 8192 (f.arg - 8192 * i)) false = true) →
      Does (.ferryReadReq p f) s fun t =>
        queues u t p f.src ((List.range ((f.arg + 8191) / 8192)).map fun i =>
          { op := 4, vc := 2, ctx := f.ctx, tag := f.tag, offset := 8192 * i, arg := f.arg,
            payload := memRead s.mem.bytes (f.addr + 8192 * i) (min 8192 (f.arg - 8192 * i)) }) ∧ t.mem = s.mem)) ∧
  (∀ (p b c d : Nat) (q : QCmd) (f : FFrame) (o : FerryOp) (s : State), q.origin = none → o.waiter = .move b c q d →
    (arrives s p f 2 → opOf (received s p f) p f = some o → Does (.ferryWriteAck p f) s fun t =>
      tabFind t.fry.ops f.tag.toNat = none ∧ tabFind t.barges.busy b = none ∧ t.engs = s.engs ∧ t.mem = s.mem) ∧
    (arrives s p f 4 → opOf (received s p f) p f = some o → clean s →
      mayAccess s (whoBarge b c true) (d + f.offset) f.payload.length true = true → Does (.ferryReadResp p f) s fun t =>
        memRead t.mem.bytes (d + f.offset) f.payload.length = f.payload ∧
        (∀ a, a < d + f.offset ∨ d + f.offset + f.payload.length ≤ a → memGet t.mem.bytes a = memGet s.mem.bytes a) ∧
        t.engs = s.engs ∧
        (f.arg ≤ f.offset + f.payload.length → tabFind t.fry.ops f.tag.toNat = none ∧ tabFind t.barges.busy b = none) ∧
        (f.offset + f.payload.length < f.arg → t.fry.ops = s.fry.ops ∧ t.barges = s.barges))) ∧
  (∀ (p c i n : Nat) (q : QCmd) (f : FFrame) (o : FerryOp) (s : State), q.origin = none → o.waiter = .push c q i n →
    (arrives s p f 6 → opOf (received s p f) p f = some o → f.arg = 0 → Does (.ferryPushDone p f) s fun t =>
      tabFind t.fry.ops f.tag.toNat = none ∧ t.engs = s.engs ∧ t.slip = s.slip ∧ t.mem = s.mem) ∧
    (arrives s p f 0x0A → opOf (received s p f) p f = some o → f.arg = Status.internal.code → Does (.ferryStatus p f) s fun t =>
      tabFind t.fry.ops f.tag.toNat = none ∧ (getQ t slipEng c).halt = true ∧
      getAccount t i o.module c =
        { getAccount s i o.module c with held := BitVec.ofNat 32 ((getAccount s i o.module c).held.toNat - n) } ∧
      otherQueues s t slipEng c ∧ t.mem = s.mem)) ∧
  (∀ (p : Nat) (f : FFrame) (s : State), arrives s p f 5 → clean s → f.offset = 0 →
    let u := received s p f
    let i := f.addr % 65536
    let x := getSq s i
    let pos := x.resv.toNat
    (s.slip.deaf.contains f.src = true → exec (.ferryPush p f) s = .next u) ∧
    (s.slip.deaf.contains f.src = false → x.enable = false → remoteResv s i f.src f.tag = none → Does (.ferryPush p f) s fun t =>
      queues u t p f.src [{ op := 0x0A, vc := 2, ctx := f.ctx, tag := f.tag, arg := Status.disabled.code }] ∧
      t.mem = s.mem ∧ t.slip = s.slip) ∧
    (s.slip.deaf.contains f.src = false → x.enable = true → remoteResv s i f.src f.tag = none →
      (f.arg = 0 ∨ 4096 < f.arg ∨ (getGrant s i f.src f.ctx).available < f.arg) → Does (.ferryPush p f) s fun t =>
        queues u t p f.src [{ op := 0x0A, vc := 2, ctx := f.ctx, tag := f.tag, arg := Status.internal.code }] ∧
        t.mem = s.mem ∧ t.slip = s.slip) ∧
    (s.slip.deaf.contains f.src = false → x.enable = true → 1 ≤ f.arg → f.arg ≤ 4096 →
      f.arg ≤ (getGrant s i f.src f.ctx).available → f.payload.length = 32 * f.arg → f.arg ≤ x.size →
      openTo s (whoServed p f) → x.base.toNat + x.size * 48 ≤ wheelBase → pos + f.arg < 2 ^ 64 → x.resolved = x.resv → (∀ r ∈ x.items, r.pos < pos) →
      remoteResv s i f.src f.tag = none → Does (.ferryPush p f) s fun t =>
        (getSq t i).resv = x.resv + BitVec.ofNat 64 f.arg ∧ (getSq t i).commit = x.commit + 1 ∧
        (∀ j, j < f.arg → memRead t.mem.bytes (wordAddr x (pos + j)) 32 = (f.payload.drop (32 * j)).take 32) ∧
        (getPath t p f.src).sendq = (getPath u p f.src).sendq ++ [{ op := 6, vc := 2, ctx := f.ctx, tag := f.tag }] ∧
        ∀ a, (∀ j, j < f.arg → a < wordAddr x (pos + j) ∨ wordAddr x (pos + j) + 32 ≤ a) →
          a < frameAddr x x.commit.toNat ∨ frameAddr x x.commit.toNat + 16 ≤ a → memGet t.mem.bytes a = memGet s.mem.bytes a)) ∧
  (∀ (p : Nat) (f : FFrame) (s : State), arrives s p f 7 → Does (.slipCredit p f) s fun t =>
    let i := f.addr % 65536
    let c := f.addr / 65536 % 128
    t.mem = s.mem ∧ t.engs = s.engs ∧ t.slip.queues = s.slip.queues ∧
    (f.last = true → (f.src ∉ t.slip.unsent) ∧ t.slip.accounts = s.slip.accounts) ∧
    (f.last = false → t.slip.unsent = s.slip.unsent ∧ getAccount t i f.src c =
      (if f.resync then { granted := BitVec.ofNat 32 f.offset, held := BitVec.ofNat 32 f.arg }
       else { granted := BitVec.ofNat 32 f.offset, held := BitVec.ofNat 32 ((getAccount s i f.src c).held.toNat - f.arg) }))) ∧
  (∀ (p : Nat) (f : FFrame) (s : State), arrives s p f 0x0B → f.last = true → f.arg / 256 % 4 = 0 →
    getTable s (f.arg % 64) = none → s.gth.partials = [] → f.src < 4096 →
    let m := f.offset % 4096
    let answer := fun (t : State) q => (getPath t q m).sendq = (getPath (received s p f) q m).sendq ++
      [{ op := 0x0A, vc := 2, ctx := f.ctx, tag := f.tag, arg := Status.disabled.code }]
    m ≠ ownModule s → Does (.ferryRow p f) s fun t =>
      t.gth = s.gth ∧ t.mem = s.mem ∧ t.engs = s.engs ∧ (m = f.src → answer t p) ∧
      (m ≠ f.src → ∀ q v, choosePort (received s p f) m = some (q, v) → answer t q)) ∧
  (∀ (p : Nat) (f : FFrame) (x : GthTable) (s : State), arrives s p f 0x0B → f.last = true → f.arg / 256 % 4 = 0 →
    getTable s (f.arg % 64) = some x → s.gth.partials = [] → f.payload = [] → f.offset % 4096 ≠ ownModule s → Does (.ferryRow p f) s fun t =>
      t.gth = 
        { s.gth with
          nextReq := s.gth.nextReq + 1
          reqs := tabPut s.gth.reqs s.gth.nextReq
            { engine := x.desc.owner f.addr, table := f.arg % 64, index := f.addr, ctx := f.ctx,
              source := .peer (f.offset % 4096) f.tag, via := some (pathKey p f.src) } } ∧
      t.mem = s.mem ∧ t.engs = s.engs) ∧
  ∀ (p buf : Nat) (f : FFrame) (s : State), arrives s p f 0x0C →
    let u := received s p f
    (pursing s = false ∨ f.msg = none → exec (.ferryPurser p f buf) s = .next u) ∧
    (pursing s = true → ∀ c k m st, f.msg = some (.mapReport c k m st) → Does (.ferryPurser p f buf) s fun t =>
      t.pur = { s.pur with
        reports := s.pur.reports ++
          [{ module := f.src, ctx := c, core := k, mapId := m, status := (Status.ofCode st).getD .internal }] } ∧ t.mem = s.mem) ∧
    (pursing s = true → ∀ rid key st d r, f.msg = some (.answer rid key st d) → getReq s rid = some r →
      tabFind r.asks key = some f.src → Does (.ferryPurser p f buf) s fun t =>
        getReq t rid = some { r with
          asks := tabDel r.asks key, answers := tabPut r.answers key { status := (Status.ofCode st).getD .internal, data := d } } ∧
        otherReqs s t rid ∧ t.mem = s.mem) ∧
    (pursing s = true → ∀ rid i st metric recs r, f.msg = some (.searched rid i st metric recs) → getReq s rid = some r →
      Does (.ferryPurser p f buf) s fun t => otherReqs s t rid ∧ t.mem = s.mem ∧
        getReq t rid = some { r with parts := r.parts.zipIdx.map fun x =>
          if x.2 = i then { x.1 with status := some ((Status.ofCode st).getD .internal), metric := metric, data := recs } else x.1 }) ∧
    (pursing s = true → ∀ a, f.msg = some (.prefixRef a true) → clean s → a + 48 ≤ wheelBase →
      Does (.ferryPurser p f buf) s fun t =>
        fld (memRead t.mem.bytes (a + 44) 4) 0 4 = (fld (memRead s.mem.bytes (a + 44) 4) 0 4 + 1) % 2 ^ 32 ∧
        (∀ b, b < a + 44 ∨ a + 48 ≤ b → memGet t.mem.bytes b = memGet s.mem.bytes b) ∧ t.pur = s.pur)
end

