-- ==== Sys2Proof/Laws/Memory.lean ====
section
/-! SUPPORT. Memory: a read after a write, and the canonical form that every write keeps. -/

namespace Sys2Proof.Laws

open Sys2Proof.Machine

/-! ### Sparse tables -/

theorem tabGet_tabPut {α : Type} (d : α) (t : Tab α) (k j : Nat) (v : α) :
    tabGet d (tabPut t k v) j = if k = j then v else tabGet d t j := by
  induction t with
  | nil => simp [tabPut, tabGet]
  | cons x t ih =>
    obtain ⟨i, w⟩ := x
    unfold tabPut
    split
    · simp [tabGet]
    · split
      · subst k; simp [tabGet]; split <;> simp_all
      · simp only [tabGet, ih]
        split
        · subst i; simp_all
        · rfl

@[simp] theorem tabGet_tabPut_self {α : Type} (d : α) (t : Tab α) (k : Nat) (v : α) : tabGet d (tabPut t k v) k = v := by
  simp [tabGet_tabPut]

theorem tabGet_tabPut_ne {α : Type} (d : α) (t : Tab α) {k j : Nat} (v : α) (h : k ≠ j) :
    tabGet d (tabPut t k v) j = tabGet d t j := by
  simp [tabGet_tabPut, h]

theorem tabFind_tabPut {α : Type} (t : Tab α) (k j : Nat) (v : α) :
    tabFind (tabPut t k v) j = if k = j then some v else tabFind t j := by
  induction t with
  | nil => simp [tabPut, tabFind]
  | cons x t ih =>
    obtain ⟨i, w⟩ := x
    unfold tabPut
    split
    · simp [tabFind]
    · split
      · subst k; simp [tabFind]; split <;> simp_all
      · simp only [tabFind, ih]
        split
        · subst i; simp_all
        · rfl

@[simp] theorem tabFind_tabPut_self {α : Type} (t : Tab α) (k : Nat) (v : α) : tabFind (tabPut t k v) k = some v := by
  simp [tabFind_tabPut]

theorem tabGet_tabMod {α : Type} (d : α) (t : Tab α) (k j : Nat) (f : α → α) :
    tabGet d (tabMod d t k f) j = if k = j then f (tabGet d t k) else tabGet d t j := tabGet_tabPut d t k j _

@[simp] theorem tabGet_tabMod_self {α : Type} (d : α) (t : Tab α) (k : Nat) (f : α → α) :
    tabGet d (tabMod d t k f) k = f (tabGet d t k) := by simp [tabGet_tabMod]

theorem tabGet_tabDel {α : Type} (d : α) (t : Tab α) (k j : Nat) :
    tabGet d (tabDel t k) j = if k = j then d else tabGet d t j := by
  induction t with
  | nil => simp [tabDel, tabGet]
  | cons x t ih =>
    obtain ⟨i, w⟩ := x
    simp only [tabDel, tabGet]
    by_cases h : i = k
    · rw [if_pos h, ih]; grind
    · rw [if_neg h]; simp only [tabGet, ih]; grind

theorem tabFind_tabDel {α : Type} (t : Tab α) (k j : Nat) :
    tabFind (tabDel t k) j = if k = j then none else tabFind t j := by
  induction t with
  | nil => simp [tabDel, tabFind]
  | cons x t ih =>
    obtain ⟨i, w⟩ := x
    simp only [tabDel, tabFind]
    by_cases h : i = k
    · rw [if_pos h, ih]; grind
    · rw [if_neg h]; simp only [tabFind, ih]; grind

theorem tabGet_tabSet {α : Type} [DecidableEq α] (d : α) (t : Tab α) (k j : Nat) (v : α) :
    tabGet d (tabSet d t k v) j = if k = j then v else tabGet d t j := by
  unfold tabSet
  split
  · subst v; exact tabGet_tabDel d t k j
  · exact tabGet_tabPut d t k j v

theorem tabGet_tabMap {α : Type} (d : α) (f : Nat → α → α) (t : Tab α) (k : Nat) (h : f k d = d) :
    tabGet d (tabMap f t) k = f k (tabGet d t k) := by
  induction t with
  | nil => exact h.symm
  | cons x t ih =>
    obtain ⟨i, w⟩ := x
    simp only [tabMap, List.map_cons, tabGet]
    split
    · subst i; rfl
    · exact ih

theorem tabFind_tabMap {α : Type} (f : Nat → α → α) (t : Tab α) (k : Nat) :
    tabFind (tabMap f t) k = (tabFind t k).map (f k) := by
  induction t with
  | nil => rfl
  | cons x t ih =>
    obtain ⟨i, w⟩ := x
    simp only [tabMap, List.map_cons, tabFind]
    split
    · subst i; rfl
    · exact ih

theorem tabGet_of_find {α : Type} (d : α) (t : Tab α) (k : Nat) : tabGet d t k = (tabFind t k).getD d := by
  induction t with
  | nil => rfl
  | cons x t ih => obtain ⟨i, w⟩ := x; simp only [tabGet, tabFind]; split <;> simp_all

/-! ### The canonical form -/

theorem memSorted_mono {lo lo' : Nat} (h : lo' ≤ lo) (m : List Host.Cell) (hm : memSorted lo m = true) :
    memSorted lo' m = true := by
  cases m with
  | nil => rfl
  | cons x t =>
    simp only [memSorted, Bool.and_eq_true, decide_eq_true_eq] at hm ⊢
    exact ⟨⟨h.trans hm.1.1, hm.1.2⟩, hm.2⟩

theorem memSorted_tabPut {b : Byte} (hb : b ≠ 0) (m : List Host.Cell) (lo a : Nat) (ha : lo ≤ a)
    (hm : memSorted lo m = true) : memSorted lo (tabPut m a b) = true := by
  induction m generalizing lo with
  | nil => simp only [tabPut, memSorted, ha, decide_true, Bool.true_and, Bool.and_true, decide_eq_true_eq]; exact hb
  | cons x t ih =>
    obtain ⟨i, w⟩ := x
    simp only [memSorted, Bool.and_eq_true, decide_eq_true_eq] at hm
    unfold tabPut
    split
    · simp only [memSorted, Bool.and_eq_true, decide_eq_true_eq]
      exact ⟨⟨ha, hb⟩, ⟨by omega, hm.1.2⟩, hm.2⟩
    · split
      · subst a
        simp only [memSorted, Bool.and_eq_true, decide_eq_true_eq]
        exact ⟨⟨ha, hb⟩, hm.2⟩
      · simp only [memSorted, Bool.and_eq_true, decide_eq_true_eq]
        exact ⟨hm.1, ih (i + 1) (by omega) hm.2⟩

theorem memSorted_tabDel (m : List Host.Cell) (lo a : Nat) (hm : memSorted lo m = true) :
    memSorted lo (tabDel m a) = true := by
  induction m generalizing lo with
  | nil => rfl
  | cons x t ih =>
    obtain ⟨i, w⟩ := x
    simp only [memSorted, Bool.and_eq_true, decide_eq_true_eq] at hm
    unfold tabDel
    split
    · exact memSorted_mono (by omega) _ (ih (i + 1) hm.2)
    · simp only [memSorted, Bool.and_eq_true, decide_eq_true_eq]
      exact ⟨hm.1, ih (i + 1) hm.2⟩

theorem memSet_wf (m : List Host.Cell) (a : Nat) (b : Byte) (h : Memory.wf m = true) :
    Memory.wf (memSet m a b) = true := by
  unfold memSet tabSet Memory.wf
  split
  · exact memSorted_tabDel m 0 a h
  · exact memSorted_tabPut ‹_› m 0 a (Nat.zero_le a) h

theorem memWrite_wf (m : List Host.Cell) (a : Nat) (b : Bytes) (h : Memory.wf m = true) :
    Memory.wf (memWrite m a b) = true := by
  induction b generalizing m a with
  | nil => exact h
  | cons x b ih => exact ih _ _ (memSet_wf m a x h)

theorem reset_memory_wf : Memory.wf State.reset.mem.bytes = true := rfl

/-- A read after a write of one byte. -/
theorem memGet_memSet (m : List Host.Cell) (a j : Nat) (b : Byte) :
    memGet (memSet m a b) j = if a = j then b else memGet m j := tabGet_tabSet 0 m a j b

/-- A read after a write of several bytes. -/
theorem memGet_memWrite (m : List Host.Cell) (a j : Nat) (b : Bytes) :
    memGet (memWrite m a b) j = if a ≤ j ∧ j < a + b.length then b.getD (j - a) 0 else memGet m j := by
  induction b generalizing m a with
  | nil => simp only [memWrite, List.length_nil]; rw [if_neg (by omega)]
  | cons x b ih =>
    simp only [memWrite, List.length_cons]
    rw [ih, memGet_memSet]
    by_cases h1 : a = j
    · subst h1
      rw [if_neg (by omega), if_pos rfl, if_pos (by omega)]
      simp
    · rw [if_neg h1]
      by_cases h2 : a + 1 ≤ j ∧ j < a + 1 + b.length
      · rw [if_pos h2, if_pos (by omega)]
        obtain ⟨k, rfl⟩ : ∃ k, j = a + 1 + k := ⟨j - (a + 1), by omega⟩
        rw [show a + 1 + k - a = k + 1 by omega, show a + 1 + k - (a + 1) = k by omega]
        simp
      · rw [if_neg h2, if_neg (by omega)]

@[simp] theorem memRead_length (m : List Host.Cell) (a n : Nat) : (memRead m a n).length = n := by
  induction n generalizing a with
  | zero => rfl
  | succ n ih => simp [memRead, ih]

/-- One byte of those read. -/
theorem memRead_getElem (m : List Host.Cell) (a n i : Nat) (h : i < (memRead m a n).length) :
    (memRead m a n)[i] = memGet m (a + i) := by
  induction n generalizing a i with
  | zero => exact absurd h (Nat.not_lt_zero _)
  | succ n ih =>
    cases i with
    | zero => rfl
    | succ i =>
      simp only [memRead, List.getElem_cons_succ]
      rw [ih, Nat.add_right_comm, Nat.add_assoc]

/-- Reading back what was written. -/
theorem memRead_memWrite (m : List Host.Cell) (a : Nat) (b : Bytes) : memRead (memWrite m a b) a b.length = b := by
  refine List.ext_getElem (by rw [memRead_length]) fun i h1 h2 => ?_
  rw [memRead_getElem, memGet_memWrite, if_pos (by omega), Nat.add_sub_cancel_left, List.getD_eq_getElem _ _ h2]

/-- Reading outside what was written. -/
theorem memRead_memWrite_apart (m : List Host.Cell) (a x n : Nat) (b : Bytes) (h : x + n ≤ a ∨ a + b.length ≤ x) :
    memRead (memWrite m a b) x n = memRead m x n := by
  refine List.ext_getElem (by rw [memRead_length, memRead_length]) fun i h1 h2 => ?_
  rw [memRead_length] at h1
  rw [memRead_getElem, memRead_getElem, memGet_memWrite, if_neg (by omega)]

end Sys2Proof.Laws
end

