-- ==== Sys2Proof/Laws/Access.lean ====
section
/-! SUPPORT. Reads of the unified range: what a read gives and what it leaves alone where memory holds no uncorrectable
word. -/

namespace Sys2Proof.Laws

open Sys2Proof.Machine

/-- Memory read in two parts. -/
theorem memRead_add (m : List Host.Cell) (a i j : Nat) : memRead m a (i + j) = memRead m a i ++ memRead m (a + i) j := by
  induction i generalizing a with
  | zero => simp [memRead]
  | succ i ih =>
    have h : i + 1 + j = (i + j) + 1 := by omega
    rw [h, memRead, memRead, ih, List.cons_append]
    congr 3; omega

/-- Bytes from inside a read. -/
theorem memRead_drop_take (m : List Host.Cell) (a n o k : Nat) (h : o + k ≤ n) :
    ((memRead m a n).drop o).take k = memRead m (a + o) k := by
  obtain ⟨r, rfl⟩ : ∃ r, n = o + (k + r) := ⟨n - o - k, by omega⟩
  rw [memRead_add, List.drop_left' (memRead_length _ _ _), memRead_add, List.take_left' (memRead_length _ _ _)]

/-- A field of bytes read from memory. -/
theorem fld_memRead (m : List Host.Cell) (a n o k : Nat) (h : o + k ≤ n) :
    fld (memRead m a n) o k = leNat (memRead m (a + o) k) := by
  rw [fld, memRead_drop_take m a n o k h]

/-- The regulator's charge of a piece changes nothing but the buckets. -/
theorem chargeHbm_prt (s : State) (w : Who) (a n : Nat) : ∃ p, chargeHbm s w a n = { s with prt := p } := by
  unfold chargeHbm chargePiece
  split
  · split
    · exact ⟨_, rfl⟩
    · dsimp only
      split
      · exact ⟨_, rfl⟩
      · exact ⟨_, rfl⟩
  · exact ⟨_, rfl⟩

/-- A piece read where no word is uncorrectable. -/
theorem rdPiece_clean (s : State) (w : Who) (a n : Nat) (h : s.mem.badHbm = []) (h' : s.mem.badSram = []) :
    ∃ p, runActVal (rdPiece w a n) s = (.ok (memRead s.mem.bytes a n), { s with prt := p }) := by
  obtain ⟨p, hp⟩ := chargeHbm_prt s w a n
  refine ⟨p, ?_⟩
  have hb : badWordIn s a n = none := by simp [badWordIn, h, h']
  rw [← hp]
  show (rdPiece w a n).run s = _
  simp only [rdPiece, bind, ExceptT.bind, ExceptT.mk, ExceptT.run, get, getThe, MonadStateOf.get, liftM, monadLift, MonadLift.monadLift,
    ExceptT.lift, StateT.get, StateT.bind, StateT.map, Functor.map, pure, ExceptT.bindCont, hb, set, MonadStateOf.set, StateT.set, ExceptT.pure, StateT.pure]

end Sys2Proof.Laws
end

