-- ==== Sys2Proof/Laws/State.lean ====
section
/-! SUPPORT. What each update of the state leaves alone, and what a lookup gives after an update. -/

namespace Sys2Proof.Laws

open Sys2Proof.Machine

/-! ### Fields that an update does not touch -/

@[simp] theorem modEng_hub (s : State) (e : Eng) (f : EngineSt → EngineSt) : (modEng s e f).hub = s.hub := rfl
@[simp] theorem modEng_pwr (s : State) (e : Eng) (f : EngineSt → EngineSt) : (modEng s e f).pwr = s.pwr := rfl
@[simp] theorem modEng_evt (s : State) (e : Eng) (f : EngineSt → EngineSt) : (modEng s e f).evt = s.evt := rfl
@[simp] theorem modEng_prt (s : State) (e : Eng) (f : EngineSt → EngineSt) : (modEng s e f).prt = s.prt := rfl
@[simp] theorem modEng_mem (s : State) (e : Eng) (f : EngineSt → EngineSt) : (modEng s e f).mem = s.mem := rfl
@[simp] theorem modEng_cores (s : State) (e : Eng) (f : EngineSt → EngineSt) : (modEng s e f).cores = s.cores := rfl
@[simp] theorem modEng_slip (s : State) (e : Eng) (f : EngineSt → EngineSt) : (modEng s e f).slip = s.slip := rfl
@[simp] theorem modEng_fry (s : State) (e : Eng) (f : EngineSt → EngineSt) : (modEng s e f).fry = s.fry := rfl
@[simp] theorem modEng_barges (s : State) (e : Eng) (f : EngineSt → EngineSt) : (modEng s e f).barges = s.barges := rfl
@[simp] theorem modEng_routers (s : State) (e : Eng) (f : EngineSt → EngineSt) : (modEng s e f).routers = s.routers := rfl
@[simp] theorem modEng_ssus (s : State) (e : Eng) (f : EngineSt → EngineSt) : (modEng s e f).ssus = s.ssus := rfl
@[simp] theorem modEng_pcl (s : State) (e : Eng) (f : EngineSt → EngineSt) : (modEng s e f).pcl = s.pcl := rfl
@[simp] theorem modEng_gth (s : State) (e : Eng) (f : EngineSt → EngineSt) : (modEng s e f).gth = s.gth := rfl
@[simp] theorem modEng_grd (s : State) (e : Eng) (f : EngineSt → EngineSt) : (modEng s e f).grd = s.grd := rfl
@[simp] theorem modEng_por (s : State) (e : Eng) (f : EngineSt → EngineSt) : (modEng s e f).por = s.por := rfl
@[simp] theorem modEng_mbs (s : State) (e : Eng) (f : EngineSt → EngineSt) : (modEng s e f).mbs = s.mbs := rfl
@[simp] theorem modEng_pur (s : State) (e : Eng) (f : EngineSt → EngineSt) : (modEng s e f).pur = s.pur := rfl
@[simp] theorem modEng_sec (s : State) (e : Eng) (f : EngineSt → EngineSt) : (modEng s e f).sec = s.sec := rfl
@[simp] theorem modEng_pending (s : State) (e : Eng) (f : EngineSt → EngineSt) : (modEng s e f).pending = s.pending := rfl
@[simp] theorem modEng_outs (s : State) (e : Eng) (f : EngineSt → EngineSt) : (modEng s e f).outs = s.outs := rfl
@[simp] theorem modEng_freeCtr (s : State) (e : Eng) (f : EngineSt → EngineSt) : (modEng s e f).freeCtr = s.freeCtr := rfl

@[simp] theorem modQ_hub (s : State) (e : Eng) (c : Nat) (f : CtxQ → CtxQ) : (modQ s e c f).hub = s.hub := rfl
@[simp] theorem modQ_pwr (s : State) (e : Eng) (c : Nat) (f : CtxQ → CtxQ) : (modQ s e c f).pwr = s.pwr := rfl
@[simp] theorem modQ_evt (s : State) (e : Eng) (c : Nat) (f : CtxQ → CtxQ) : (modQ s e c f).evt = s.evt := rfl
@[simp] theorem modQ_prt (s : State) (e : Eng) (c : Nat) (f : CtxQ → CtxQ) : (modQ s e c f).prt = s.prt := rfl
@[simp] theorem modQ_mem (s : State) (e : Eng) (c : Nat) (f : CtxQ → CtxQ) : (modQ s e c f).mem = s.mem := rfl
@[simp] theorem modQ_cores (s : State) (e : Eng) (c : Nat) (f : CtxQ → CtxQ) : (modQ s e c f).cores = s.cores := rfl
@[simp] theorem modQ_slip (s : State) (e : Eng) (c : Nat) (f : CtxQ → CtxQ) : (modQ s e c f).slip = s.slip := rfl
@[simp] theorem modQ_fry (s : State) (e : Eng) (c : Nat) (f : CtxQ → CtxQ) : (modQ s e c f).fry = s.fry := rfl
@[simp] theorem modQ_barges (s : State) (e : Eng) (c : Nat) (f : CtxQ → CtxQ) : (modQ s e c f).barges = s.barges := rfl
@[simp] theorem modQ_routers (s : State) (e : Eng) (c : Nat) (f : CtxQ → CtxQ) : (modQ s e c f).routers = s.routers := rfl
@[simp] theorem modQ_ssus (s : State) (e : Eng) (c : Nat) (f : CtxQ → CtxQ) : (modQ s e c f).ssus = s.ssus := rfl
@[simp] theorem modQ_pcl (s : State) (e : Eng) (c : Nat) (f : CtxQ → CtxQ) : (modQ s e c f).pcl = s.pcl := rfl
@[simp] theorem modQ_gth (s : State) (e : Eng) (c : Nat) (f : CtxQ → CtxQ) : (modQ s e c f).gth = s.gth := rfl
@[simp] theorem modQ_grd (s : State) (e : Eng) (c : Nat) (f : CtxQ → CtxQ) : (modQ s e c f).grd = s.grd := rfl
@[simp] theorem modQ_por (s : State) (e : Eng) (c : Nat) (f : CtxQ → CtxQ) : (modQ s e c f).por = s.por := rfl
@[simp] theorem modQ_mbs (s : State) (e : Eng) (c : Nat) (f : CtxQ → CtxQ) : (modQ s e c f).mbs = s.mbs := rfl
@[simp] theorem modQ_pur (s : State) (e : Eng) (c : Nat) (f : CtxQ → CtxQ) : (modQ s e c f).pur = s.pur := rfl
@[simp] theorem modQ_sec (s : State) (e : Eng) (c : Nat) (f : CtxQ → CtxQ) : (modQ s e c f).sec = s.sec := rfl
@[simp] theorem modQ_pending (s : State) (e : Eng) (c : Nat) (f : CtxQ → CtxQ) : (modQ s e c f).pending = s.pending := rfl
@[simp] theorem modQ_outs (s : State) (e : Eng) (c : Nat) (f : CtxQ → CtxQ) : (modQ s e c f).outs = s.outs := rfl
@[simp] theorem modQ_freeCtr (s : State) (e : Eng) (c : Nat) (f : CtxQ → CtxQ) : (modQ s e c f).freeCtr = s.freeCtr := rfl

@[simp] theorem popQ_hub (s : State) (e : Eng) (c : Nat) : (popQ s e c).hub = s.hub := rfl
@[simp] theorem popQ_pwr (s : State) (e : Eng) (c : Nat) : (popQ s e c).pwr = s.pwr := rfl
@[simp] theorem popQ_evt (s : State) (e : Eng) (c : Nat) : (popQ s e c).evt = s.evt := rfl
@[simp] theorem popQ_prt (s : State) (e : Eng) (c : Nat) : (popQ s e c).prt = s.prt := rfl
@[simp] theorem popQ_mem (s : State) (e : Eng) (c : Nat) : (popQ s e c).mem = s.mem := rfl
@[simp] theorem popQ_cores (s : State) (e : Eng) (c : Nat) : (popQ s e c).cores = s.cores := rfl
@[simp] theorem popQ_slip (s : State) (e : Eng) (c : Nat) : (popQ s e c).slip = s.slip := rfl
@[simp] theorem popQ_fry (s : State) (e : Eng) (c : Nat) : (popQ s e c).fry = s.fry := rfl
@[simp] theorem popQ_barges (s : State) (e : Eng) (c : Nat) : (popQ s e c).barges = s.barges := rfl
@[simp] theorem popQ_routers (s : State) (e : Eng) (c : Nat) : (popQ s e c).routers = s.routers := rfl
@[simp] theorem popQ_ssus (s : State) (e : Eng) (c : Nat) : (popQ s e c).ssus = s.ssus := rfl
@[simp] theorem popQ_pcl (s : State) (e : Eng) (c : Nat) : (popQ s e c).pcl = s.pcl := rfl
@[simp] theorem popQ_gth (s : State) (e : Eng) (c : Nat) : (popQ s e c).gth = s.gth := rfl
@[simp] theorem popQ_grd (s : State) (e : Eng) (c : Nat) : (popQ s e c).grd = s.grd := rfl
@[simp] theorem popQ_por (s : State) (e : Eng) (c : Nat) : (popQ s e c).por = s.por := rfl
@[simp] theorem popQ_mbs (s : State) (e : Eng) (c : Nat) : (popQ s e c).mbs = s.mbs := rfl
@[simp] theorem popQ_pur (s : State) (e : Eng) (c : Nat) : (popQ s e c).pur = s.pur := rfl
@[simp] theorem popQ_sec (s : State) (e : Eng) (c : Nat) : (popQ s e c).sec = s.sec := rfl
@[simp] theorem popQ_pending (s : State) (e : Eng) (c : Nat) : (popQ s e c).pending = s.pending := rfl
@[simp] theorem popQ_outs (s : State) (e : Eng) (c : Nat) : (popQ s e c).outs = s.outs := rfl
@[simp] theorem popQ_freeCtr (s : State) (e : Eng) (c : Nat) : (popQ s e c).freeCtr = s.freeCtr := rfl

@[simp] theorem modCtx_hub (s : State) (c : Nat) (f : CtxCfg → CtxCfg) : (modCtx s c f).hub = s.hub := rfl
@[simp] theorem modCtx_pwr (s : State) (c : Nat) (f : CtxCfg → CtxCfg) : (modCtx s c f).pwr = s.pwr := rfl
@[simp] theorem modCtx_evt (s : State) (c : Nat) (f : CtxCfg → CtxCfg) : (modCtx s c f).evt = s.evt := rfl
@[simp] theorem modCtx_engs (s : State) (c : Nat) (f : CtxCfg → CtxCfg) : (modCtx s c f).engs = s.engs := rfl
@[simp] theorem modCtx_mem (s : State) (c : Nat) (f : CtxCfg → CtxCfg) : (modCtx s c f).mem = s.mem := rfl
@[simp] theorem modCtx_cores (s : State) (c : Nat) (f : CtxCfg → CtxCfg) : (modCtx s c f).cores = s.cores := rfl
@[simp] theorem modCtx_slip (s : State) (c : Nat) (f : CtxCfg → CtxCfg) : (modCtx s c f).slip = s.slip := rfl
@[simp] theorem modCtx_fry (s : State) (c : Nat) (f : CtxCfg → CtxCfg) : (modCtx s c f).fry = s.fry := rfl
@[simp] theorem modCtx_barges (s : State) (c : Nat) (f : CtxCfg → CtxCfg) : (modCtx s c f).barges = s.barges := rfl
@[simp] theorem modCtx_routers (s : State) (c : Nat) (f : CtxCfg → CtxCfg) : (modCtx s c f).routers = s.routers := rfl
@[simp] theorem modCtx_ssus (s : State) (c : Nat) (f : CtxCfg → CtxCfg) : (modCtx s c f).ssus = s.ssus := rfl
@[simp] theorem modCtx_pcl (s : State) (c : Nat) (f : CtxCfg → CtxCfg) : (modCtx s c f).pcl = s.pcl := rfl
@[simp] theorem modCtx_gth (s : State) (c : Nat) (f : CtxCfg → CtxCfg) : (modCtx s c f).gth = s.gth := rfl
@[simp] theorem modCtx_grd (s : State) (c : Nat) (f : CtxCfg → CtxCfg) : (modCtx s c f).grd = s.grd := rfl
@[simp] theorem modCtx_por (s : State) (c : Nat) (f : CtxCfg → CtxCfg) : (modCtx s c f).por = s.por := rfl
@[simp] theorem modCtx_mbs (s : State) (c : Nat) (f : CtxCfg → CtxCfg) : (modCtx s c f).mbs = s.mbs := rfl
@[simp] theorem modCtx_pur (s : State) (c : Nat) (f : CtxCfg → CtxCfg) : (modCtx s c f).pur = s.pur := rfl
@[simp] theorem modCtx_sec (s : State) (c : Nat) (f : CtxCfg → CtxCfg) : (modCtx s c f).sec = s.sec := rfl
@[simp] theorem modCtx_pending (s : State) (c : Nat) (f : CtxCfg → CtxCfg) : (modCtx s c f).pending = s.pending := rfl
@[simp] theorem modCtx_outs (s : State) (c : Nat) (f : CtxCfg → CtxCfg) : (modCtx s c f).outs = s.outs := rfl
@[simp] theorem modCtx_freeCtr (s : State) (c : Nat) (f : CtxCfg → CtxCfg) : (modCtx s c f).freeCtr = s.freeCtr := rfl

@[simp] theorem modPart_hub (s : State) (p : Nat) (f : Partition → Partition) : (modPart s p f).hub = s.hub := rfl
@[simp] theorem modPart_pwr (s : State) (p : Nat) (f : Partition → Partition) : (modPart s p f).pwr = s.pwr := rfl
@[simp] theorem modPart_evt (s : State) (p : Nat) (f : Partition → Partition) : (modPart s p f).evt = s.evt := rfl
@[simp] theorem modPart_engs (s : State) (p : Nat) (f : Partition → Partition) : (modPart s p f).engs = s.engs := rfl
@[simp] theorem modPart_mem (s : State) (p : Nat) (f : Partition → Partition) : (modPart s p f).mem = s.mem := rfl
@[simp] theorem modPart_cores (s : State) (p : Nat) (f : Partition → Partition) : (modPart s p f).cores = s.cores := rfl
@[simp] theorem modPart_slip (s : State) (p : Nat) (f : Partition → Partition) : (modPart s p f).slip = s.slip := rfl
@[simp] theorem modPart_fry (s : State) (p : Nat) (f : Partition → Partition) : (modPart s p f).fry = s.fry := rfl
@[simp] theorem modPart_barges (s : State) (p : Nat) (f : Partition → Partition) : (modPart s p f).barges = s.barges := rfl
@[simp] theorem modPart_routers (s : State) (p : Nat) (f : Partition → Partition) : (modPart s p f).routers = s.routers := rfl
@[simp] theorem modPart_ssus (s : State) (p : Nat) (f : Partition → Partition) : (modPart s p f).ssus = s.ssus := rfl
@[simp] theorem modPart_pcl (s : State) (p : Nat) (f : Partition → Partition) : (modPart s p f).pcl = s.pcl := rfl
@[simp] theorem modPart_gth (s : State) (p : Nat) (f : Partition → Partition) : (modPart s p f).gth = s.gth := rfl
@[simp] theorem modPart_grd (s : State) (p : Nat) (f : Partition → Partition) : (modPart s p f).grd = s.grd := rfl
@[simp] theorem modPart_por (s : State) (p : Nat) (f : Partition → Partition) : (modPart s p f).por = s.por := rfl
@[simp] theorem modPart_mbs (s : State) (p : Nat) (f : Partition → Partition) : (modPart s p f).mbs = s.mbs := rfl
@[simp] theorem modPart_pur (s : State) (p : Nat) (f : Partition → Partition) : (modPart s p f).pur = s.pur := rfl
@[simp] theorem modPart_sec (s : State) (p : Nat) (f : Partition → Partition) : (modPart s p f).sec = s.sec := rfl
@[simp] theorem modPart_pending (s : State) (p : Nat) (f : Partition → Partition) : (modPart s p f).pending = s.pending := rfl
@[simp] theorem modPart_outs (s : State) (p : Nat) (f : Partition → Partition) : (modPart s p f).outs = s.outs := rfl
@[simp] theorem modPart_freeCtr (s : State) (p : Nat) (f : Partition → Partition) : (modPart s p f).freeCtr = s.freeCtr := rfl

@[simp] theorem modMb_hub (s : State) (m : Nat) (f : Mailbox → Mailbox) : (modMb s m f).hub = s.hub := rfl
@[simp] theorem modMb_pwr (s : State) (m : Nat) (f : Mailbox → Mailbox) : (modMb s m f).pwr = s.pwr := rfl
@[simp] theorem modMb_evt (s : State) (m : Nat) (f : Mailbox → Mailbox) : (modMb s m f).evt = s.evt := rfl
@[simp] theorem modMb_prt (s : State) (m : Nat) (f : Mailbox → Mailbox) : (modMb s m f).prt = s.prt := rfl
@[simp] theorem modMb_engs (s : State) (m : Nat) (f : Mailbox → Mailbox) : (modMb s m f).engs = s.engs := rfl
@[simp] theorem modMb_mem (s : State) (m : Nat) (f : Mailbox → Mailbox) : (modMb s m f).mem = s.mem := rfl
@[simp] theorem modMb_cores (s : State) (m : Nat) (f : Mailbox → Mailbox) : (modMb s m f).cores = s.cores := rfl
@[simp] theorem modMb_slip (s : State) (m : Nat) (f : Mailbox → Mailbox) : (modMb s m f).slip = s.slip := rfl
@[simp] theorem modMb_fry (s : State) (m : Nat) (f : Mailbox → Mailbox) : (modMb s m f).fry = s.fry := rfl
@[simp] theorem modMb_barges (s : State) (m : Nat) (f : Mailbox → Mailbox) : (modMb s m f).barges = s.barges := rfl
@[simp] theorem modMb_routers (s : State) (m : Nat) (f : Mailbox → Mailbox) : (modMb s m f).routers = s.routers := rfl
@[simp] theorem modMb_ssus (s : State) (m : Nat) (f : Mailbox → Mailbox) : (modMb s m f).ssus = s.ssus := rfl
@[simp] theorem modMb_pcl (s : State) (m : Nat) (f : Mailbox → Mailbox) : (modMb s m f).pcl = s.pcl := rfl
@[simp] theorem modMb_gth (s : State) (m : Nat) (f : Mailbox → Mailbox) : (modMb s m f).gth = s.gth := rfl
@[simp] theorem modMb_grd (s : State) (m : Nat) (f : Mailbox → Mailbox) : (modMb s m f).grd = s.grd := rfl
@[simp] theorem modMb_por (s : State) (m : Nat) (f : Mailbox → Mailbox) : (modMb s m f).por = s.por := rfl
@[simp] theorem modMb_pur (s : State) (m : Nat) (f : Mailbox → Mailbox) : (modMb s m f).pur = s.pur := rfl
@[simp] theorem modMb_sec (s : State) (m : Nat) (f : Mailbox → Mailbox) : (modMb s m f).sec = s.sec := rfl
@[simp] theorem modMb_pending (s : State) (m : Nat) (f : Mailbox → Mailbox) : (modMb s m f).pending = s.pending := rfl
@[simp] theorem modMb_outs (s : State) (m : Nat) (f : Mailbox → Mailbox) : (modMb s m f).outs = s.outs := rfl
@[simp] theorem modMb_freeCtr (s : State) (m : Nat) (f : Mailbox → Mailbox) : (modMb s m f).freeCtr = s.freeCtr := rfl

@[simp] theorem putCmd_hub (s : State) (id : Nat) (c : PCmd) : (putCmd s id c).hub = s.hub := rfl
@[simp] theorem putCmd_pwr (s : State) (id : Nat) (c : PCmd) : (putCmd s id c).pwr = s.pwr := rfl
@[simp] theorem putCmd_evt (s : State) (id : Nat) (c : PCmd) : (putCmd s id c).evt = s.evt := rfl
@[simp] theorem putCmd_prt (s : State) (id : Nat) (c : PCmd) : (putCmd s id c).prt = s.prt := rfl
@[simp] theorem putCmd_engs (s : State) (id : Nat) (c : PCmd) : (putCmd s id c).engs = s.engs := rfl
@[simp] theorem putCmd_mem (s : State) (id : Nat) (c : PCmd) : (putCmd s id c).mem = s.mem := rfl
@[simp] theorem putCmd_cores (s : State) (id : Nat) (c : PCmd) : (putCmd s id c).cores = s.cores := rfl
@[simp] theorem putCmd_slip (s : State) (id : Nat) (c : PCmd) : (putCmd s id c).slip = s.slip := rfl
@[simp] theorem putCmd_fry (s : State) (id : Nat) (c : PCmd) : (putCmd s id c).fry = s.fry := rfl
@[simp] theorem putCmd_barges (s : State) (id : Nat) (c : PCmd) : (putCmd s id c).barges = s.barges := rfl
@[simp] theorem putCmd_routers (s : State) (id : Nat) (c : PCmd) : (putCmd s id c).routers = s.routers := rfl
@[simp] theorem putCmd_ssus (s : State) (id : Nat) (c : PCmd) : (putCmd s id c).ssus = s.ssus := rfl
@[simp] theorem putCmd_pcl (s : State) (id : Nat) (c : PCmd) : (putCmd s id c).pcl = s.pcl := rfl
@[simp] theorem putCmd_gth (s : State) (id : Nat) (c : PCmd) : (putCmd s id c).gth = s.gth := rfl
@[simp] theorem putCmd_grd (s : State) (id : Nat) (c : PCmd) : (putCmd s id c).grd = s.grd := rfl
@[simp] theorem putCmd_por (s : State) (id : Nat) (c : PCmd) : (putCmd s id c).por = s.por := rfl
@[simp] theorem putCmd_mbs (s : State) (id : Nat) (c : PCmd) : (putCmd s id c).mbs = s.mbs := rfl
@[simp] theorem putCmd_sec (s : State) (id : Nat) (c : PCmd) : (putCmd s id c).sec = s.sec := rfl
@[simp] theorem putCmd_pending (s : State) (id : Nat) (c : PCmd) : (putCmd s id c).pending = s.pending := rfl
@[simp] theorem putCmd_outs (s : State) (id : Nat) (c : PCmd) : (putCmd s id c).outs = s.outs := rfl
@[simp] theorem putCmd_freeCtr (s : State) (id : Nat) (c : PCmd) : (putCmd s id c).freeCtr = s.freeCtr := rfl

@[simp] theorem emit_hub (s : State) (o : Out) : (emit s o).hub = s.hub := rfl
@[simp] theorem emit_pwr (s : State) (o : Out) : (emit s o).pwr = s.pwr := rfl
@[simp] theorem emit_evt (s : State) (o : Out) : (emit s o).evt = s.evt := rfl
@[simp] theorem emit_prt (s : State) (o : Out) : (emit s o).prt = s.prt := rfl
@[simp] theorem emit_engs (s : State) (o : Out) : (emit s o).engs = s.engs := rfl
@[simp] theorem emit_mem (s : State) (o : Out) : (emit s o).mem = s.mem := rfl
@[simp] theorem emit_cores (s : State) (o : Out) : (emit s o).cores = s.cores := rfl
@[simp] theorem emit_slip (s : State) (o : Out) : (emit s o).slip = s.slip := rfl
@[simp] theorem emit_fry (s : State) (o : Out) : (emit s o).fry = s.fry := rfl
@[simp] theorem emit_barges (s : State) (o : Out) : (emit s o).barges = s.barges := rfl
@[simp] theorem emit_routers (s : State) (o : Out) : (emit s o).routers = s.routers := rfl
@[simp] theorem emit_ssus (s : State) (o : Out) : (emit s o).ssus = s.ssus := rfl
@[simp] theorem emit_pcl (s : State) (o : Out) : (emit s o).pcl = s.pcl := rfl
@[simp] theorem emit_gth (s : State) (o : Out) : (emit s o).gth = s.gth := rfl
@[simp] theorem emit_grd (s : State) (o : Out) : (emit s o).grd = s.grd := rfl
@[simp] theorem emit_por (s : State) (o : Out) : (emit s o).por = s.por := rfl
@[simp] theorem emit_mbs (s : State) (o : Out) : (emit s o).mbs = s.mbs := rfl
@[simp] theorem emit_pur (s : State) (o : Out) : (emit s o).pur = s.pur := rfl
@[simp] theorem emit_sec (s : State) (o : Out) : (emit s o).sec = s.sec := rfl
@[simp] theorem emit_pending (s : State) (o : Out) : (emit s o).pending = s.pending := rfl
@[simp] theorem emit_freeCtr (s : State) (o : Out) : (emit s o).freeCtr = s.freeCtr := rfl

@[simp] theorem modDeck_hub (s : State) (d : Nat) (f : DeckMem → DeckMem) : (modDeck s d f).hub = s.hub := rfl
@[simp] theorem modDeck_pwr (s : State) (d : Nat) (f : DeckMem → DeckMem) : (modDeck s d f).pwr = s.pwr := rfl
@[simp] theorem modDeck_evt (s : State) (d : Nat) (f : DeckMem → DeckMem) : (modDeck s d f).evt = s.evt := rfl
@[simp] theorem modDeck_prt (s : State) (d : Nat) (f : DeckMem → DeckMem) : (modDeck s d f).prt = s.prt := rfl
@[simp] theorem modDeck_engs (s : State) (d : Nat) (f : DeckMem → DeckMem) : (modDeck s d f).engs = s.engs := rfl
@[simp] theorem modDeck_cores (s : State) (d : Nat) (f : DeckMem → DeckMem) : (modDeck s d f).cores = s.cores := rfl
@[simp] theorem modDeck_slip (s : State) (d : Nat) (f : DeckMem → DeckMem) : (modDeck s d f).slip = s.slip := rfl
@[simp] theorem modDeck_fry (s : State) (d : Nat) (f : DeckMem → DeckMem) : (modDeck s d f).fry = s.fry := rfl
@[simp] theorem modDeck_barges (s : State) (d : Nat) (f : DeckMem → DeckMem) : (modDeck s d f).barges = s.barges := rfl
@[simp] theorem modDeck_routers (s : State) (d : Nat) (f : DeckMem → DeckMem) : (modDeck s d f).routers = s.routers := rfl
@[simp] theorem modDeck_ssus (s : State) (d : Nat) (f : DeckMem → DeckMem) : (modDeck s d f).ssus = s.ssus := rfl
@[simp] theorem modDeck_pcl (s : State) (d : Nat) (f : DeckMem → DeckMem) : (modDeck s d f).pcl = s.pcl := rfl
@[simp] theorem modDeck_gth (s : State) (d : Nat) (f : DeckMem → DeckMem) : (modDeck s d f).gth = s.gth := rfl
@[simp] theorem modDeck_grd (s : State) (d : Nat) (f : DeckMem → DeckMem) : (modDeck s d f).grd = s.grd := rfl
@[simp] theorem modDeck_por (s : State) (d : Nat) (f : DeckMem → DeckMem) : (modDeck s d f).por = s.por := rfl
@[simp] theorem modDeck_mbs (s : State) (d : Nat) (f : DeckMem → DeckMem) : (modDeck s d f).mbs = s.mbs := rfl
@[simp] theorem modDeck_pur (s : State) (d : Nat) (f : DeckMem → DeckMem) : (modDeck s d f).pur = s.pur := rfl
@[simp] theorem modDeck_sec (s : State) (d : Nat) (f : DeckMem → DeckMem) : (modDeck s d f).sec = s.sec := rfl
@[simp] theorem modDeck_pending (s : State) (d : Nat) (f : DeckMem → DeckMem) : (modDeck s d f).pending = s.pending := rfl
@[simp] theorem modDeck_outs (s : State) (d : Nat) (f : DeckMem → DeckMem) : (modDeck s d f).outs = s.outs := rfl
@[simp] theorem modDeck_freeCtr (s : State) (d : Nat) (f : DeckMem → DeckMem) : (modDeck s d f).freeCtr = s.freeCtr := rfl

@[simp] theorem modStack_hub (s : State) (k : Nat) (f : StackErr → StackErr) : (modStack s k f).hub = s.hub := rfl
@[simp] theorem modStack_pwr (s : State) (k : Nat) (f : StackErr → StackErr) : (modStack s k f).pwr = s.pwr := rfl
@[simp] theorem modStack_evt (s : State) (k : Nat) (f : StackErr → StackErr) : (modStack s k f).evt = s.evt := rfl
@[simp] theorem modStack_prt (s : State) (k : Nat) (f : StackErr → StackErr) : (modStack s k f).prt = s.prt := rfl
@[simp] theorem modStack_engs (s : State) (k : Nat) (f : StackErr → StackErr) : (modStack s k f).engs = s.engs := rfl
@[simp] theorem modStack_cores (s : State) (k : Nat) (f : StackErr → StackErr) : (modStack s k f).cores = s.cores := rfl
@[simp] theorem modStack_slip (s : State) (k : Nat) (f : StackErr → StackErr) : (modStack s k f).slip = s.slip := rfl
@[simp] theorem modStack_fry (s : State) (k : Nat) (f : StackErr → StackErr) : (modStack s k f).fry = s.fry := rfl
@[simp] theorem modStack_barges (s : State) (k : Nat) (f : StackErr → StackErr) : (modStack s k f).barges = s.barges := rfl
@[simp] theorem modStack_routers (s : State) (k : Nat) (f : StackErr → StackErr) : (modStack s k f).routers = s.routers := rfl
@[simp] theorem modStack_ssus (s : State) (k : Nat) (f : StackErr → StackErr) : (modStack s k f).ssus = s.ssus := rfl
@[simp] theorem modStack_pcl (s : State) (k : Nat) (f : StackErr → StackErr) : (modStack s k f).pcl = s.pcl := rfl
@[simp] theorem modStack_gth (s : State) (k : Nat) (f : StackErr → StackErr) : (modStack s k f).gth = s.gth := rfl
@[simp] theorem modStack_grd (s : State) (k : Nat) (f : StackErr → StackErr) : (modStack s k f).grd = s.grd := rfl
@[simp] theorem modStack_por (s : State) (k : Nat) (f : StackErr → StackErr) : (modStack s k f).por = s.por := rfl
@[simp] theorem modStack_mbs (s : State) (k : Nat) (f : StackErr → StackErr) : (modStack s k f).mbs = s.mbs := rfl
@[simp] theorem modStack_pur (s : State) (k : Nat) (f : StackErr → StackErr) : (modStack s k f).pur = s.pur := rfl
@[simp] theorem modStack_sec (s : State) (k : Nat) (f : StackErr → StackErr) : (modStack s k f).sec = s.sec := rfl
@[simp] theorem modStack_pending (s : State) (k : Nat) (f : StackErr → StackErr) : (modStack s k f).pending = s.pending := rfl
@[simp] theorem modStack_outs (s : State) (k : Nat) (f : StackErr → StackErr) : (modStack s k f).outs = s.outs := rfl
@[simp] theorem modStack_freeCtr (s : State) (k : Nat) (f : StackErr → StackErr) : (modStack s k f).freeCtr = s.freeCtr := rfl

@[simp] theorem setGran_hub (s : State) (g : Nat) (x : Gran) : (setGran s g x).hub = s.hub := rfl
@[simp] theorem setGran_pwr (s : State) (g : Nat) (x : Gran) : (setGran s g x).pwr = s.pwr := rfl
@[simp] theorem setGran_evt (s : State) (g : Nat) (x : Gran) : (setGran s g x).evt = s.evt := rfl
@[simp] theorem setGran_prt (s : State) (g : Nat) (x : Gran) : (setGran s g x).prt = s.prt := rfl
@[simp] theorem setGran_engs (s : State) (g : Nat) (x : Gran) : (setGran s g x).engs = s.engs := rfl
@[simp] theorem setGran_cores (s : State) (g : Nat) (x : Gran) : (setGran s g x).cores = s.cores := rfl
@[simp] theorem setGran_slip (s : State) (g : Nat) (x : Gran) : (setGran s g x).slip = s.slip := rfl
@[simp] theorem setGran_fry (s : State) (g : Nat) (x : Gran) : (setGran s g x).fry = s.fry := rfl
@[simp] theorem setGran_barges (s : State) (g : Nat) (x : Gran) : (setGran s g x).barges = s.barges := rfl
@[simp] theorem setGran_routers (s : State) (g : Nat) (x : Gran) : (setGran s g x).routers = s.routers := rfl
@[simp] theorem setGran_ssus (s : State) (g : Nat) (x : Gran) : (setGran s g x).ssus = s.ssus := rfl
@[simp] theorem setGran_pcl (s : State) (g : Nat) (x : Gran) : (setGran s g x).pcl = s.pcl := rfl
@[simp] theorem setGran_gth (s : State) (g : Nat) (x : Gran) : (setGran s g x).gth = s.gth := rfl
@[simp] theorem setGran_grd (s : State) (g : Nat) (x : Gran) : (setGran s g x).grd = s.grd := rfl
@[simp] theorem setGran_por (s : State) (g : Nat) (x : Gran) : (setGran s g x).por = s.por := rfl
@[simp] theorem setGran_mbs (s : State) (g : Nat) (x : Gran) : (setGran s g x).mbs = s.mbs := rfl
@[simp] theorem setGran_pur (s : State) (g : Nat) (x : Gran) : (setGran s g x).pur = s.pur := rfl
@[simp] theorem setGran_sec (s : State) (g : Nat) (x : Gran) : (setGran s g x).sec = s.sec := rfl
@[simp] theorem setGran_pending (s : State) (g : Nat) (x : Gran) : (setGran s g x).pending = s.pending := rfl
@[simp] theorem setGran_outs (s : State) (g : Nat) (x : Gran) : (setGran s g x).outs = s.outs := rfl
@[simp] theorem setGran_freeCtr (s : State) (g : Nat) (x : Gran) : (setGran s g x).freeCtr = s.freeCtr := rfl

@[simp] theorem modCore_hub (s : State) (k : Nat) (f : CoreSt → CoreSt) : (modCore s k f).hub = s.hub := rfl
@[simp] theorem modCore_pwr (s : State) (k : Nat) (f : CoreSt → CoreSt) : (modCore s k f).pwr = s.pwr := rfl
@[simp] theorem modCore_evt (s : State) (k : Nat) (f : CoreSt → CoreSt) : (modCore s k f).evt = s.evt := rfl
@[simp] theorem modCore_prt (s : State) (k : Nat) (f : CoreSt → CoreSt) : (modCore s k f).prt = s.prt := rfl
@[simp] theorem modCore_engs (s : State) (k : Nat) (f : CoreSt → CoreSt) : (modCore s k f).engs = s.engs := rfl
@[simp] theorem modCore_mem (s : State) (k : Nat) (f : CoreSt → CoreSt) : (modCore s k f).mem = s.mem := rfl
@[simp] theorem modCore_slip (s : State) (k : Nat) (f : CoreSt → CoreSt) : (modCore s k f).slip = s.slip := rfl
@[simp] theorem modCore_fry (s : State) (k : Nat) (f : CoreSt → CoreSt) : (modCore s k f).fry = s.fry := rfl
@[simp] theorem modCore_barges (s : State) (k : Nat) (f : CoreSt → CoreSt) : (modCore s k f).barges = s.barges := rfl
@[simp] theorem modCore_routers (s : State) (k : Nat) (f : CoreSt → CoreSt) : (modCore s k f).routers = s.routers := rfl
@[simp] theorem modCore_ssus (s : State) (k : Nat) (f : CoreSt → CoreSt) : (modCore s k f).ssus = s.ssus := rfl
@[simp] theorem modCore_pcl (s : State) (k : Nat) (f : CoreSt → CoreSt) : (modCore s k f).pcl = s.pcl := rfl
@[simp] theorem modCore_gth (s : State) (k : Nat) (f : CoreSt → CoreSt) : (modCore s k f).gth = s.gth := rfl
@[simp] theorem modCore_grd (s : State) (k : Nat) (f : CoreSt → CoreSt) : (modCore s k f).grd = s.grd := rfl
@[simp] theorem modCore_por (s : State) (k : Nat) (f : CoreSt → CoreSt) : (modCore s k f).por = s.por := rfl
@[simp] theorem modCore_mbs (s : State) (k : Nat) (f : CoreSt → CoreSt) : (modCore s k f).mbs = s.mbs := rfl
@[simp] theorem modCore_pur (s : State) (k : Nat) (f : CoreSt → CoreSt) : (modCore s k f).pur = s.pur := rfl
@[simp] theorem modCore_sec (s : State) (k : Nat) (f : CoreSt → CoreSt) : (modCore s k f).sec = s.sec := rfl
@[simp] theorem modCore_pending (s : State) (k : Nat) (f : CoreSt → CoreSt) : (modCore s k f).pending = s.pending := rfl
@[simp] theorem modCore_outs (s : State) (k : Nat) (f : CoreSt → CoreSt) : (modCore s k f).outs = s.outs := rfl
@[simp] theorem modCore_freeCtr (s : State) (k : Nat) (f : CoreSt → CoreSt) : (modCore s k f).freeCtr = s.freeCtr := rfl

@[simp] theorem modFry_hub (s : State) (f : FrySt → FrySt) : (modFry s f).hub = s.hub := rfl
@[simp] theorem modFry_pwr (s : State) (f : FrySt → FrySt) : (modFry s f).pwr = s.pwr := rfl
@[simp] theorem modFry_evt (s : State) (f : FrySt → FrySt) : (modFry s f).evt = s.evt := rfl
@[simp] theorem modFry_prt (s : State) (f : FrySt → FrySt) : (modFry s f).prt = s.prt := rfl
@[simp] theorem modFry_engs (s : State) (f : FrySt → FrySt) : (modFry s f).engs = s.engs := rfl
@[simp] theorem modFry_mem (s : State) (f : FrySt → FrySt) : (modFry s f).mem = s.mem := rfl
@[simp] theorem modFry_cores (s : State) (f : FrySt → FrySt) : (modFry s f).cores = s.cores := rfl
@[simp] theorem modFry_slip (s : State) (f : FrySt → FrySt) : (modFry s f).slip = s.slip := rfl
@[simp] theorem modFry_barges (s : State) (f : FrySt → FrySt) : (modFry s f).barges = s.barges := rfl
@[simp] theorem modFry_routers (s : State) (f : FrySt → FrySt) : (modFry s f).routers = s.routers := rfl
@[simp] theorem modFry_ssus (s : State) (f : FrySt → FrySt) : (modFry s f).ssus = s.ssus := rfl
@[simp] theorem modFry_pcl (s : State) (f : FrySt → FrySt) : (modFry s f).pcl = s.pcl := rfl
@[simp] theorem modFry_gth (s : State) (f : FrySt → FrySt) : (modFry s f).gth = s.gth := rfl
@[simp] theorem modFry_grd (s : State) (f : FrySt → FrySt) : (modFry s f).grd = s.grd := rfl
@[simp] theorem modFry_por (s : State) (f : FrySt → FrySt) : (modFry s f).por = s.por := rfl
@[simp] theorem modFry_mbs (s : State) (f : FrySt → FrySt) : (modFry s f).mbs = s.mbs := rfl
@[simp] theorem modFry_pur (s : State) (f : FrySt → FrySt) : (modFry s f).pur = s.pur := rfl
@[simp] theorem modFry_sec (s : State) (f : FrySt → FrySt) : (modFry s f).sec = s.sec := rfl
@[simp] theorem modFry_pending (s : State) (f : FrySt → FrySt) : (modFry s f).pending = s.pending := rfl
@[simp] theorem modFry_outs (s : State) (f : FrySt → FrySt) : (modFry s f).outs = s.outs := rfl
@[simp] theorem modFry_freeCtr (s : State) (f : FrySt → FrySt) : (modFry s f).freeCtr = s.freeCtr := rfl

@[simp] theorem modPort_hub (s : State) (p : Nat) (f : PortSt → PortSt) : (modPort s p f).hub = s.hub := rfl
@[simp] theorem modPort_pwr (s : State) (p : Nat) (f : PortSt → PortSt) : (modPort s p f).pwr = s.pwr := rfl
@[simp] theorem modPort_evt (s : State) (p : Nat) (f : PortSt → PortSt) : (modPort s p f).evt = s.evt := rfl
@[simp] theorem modPort_prt (s : State) (p : Nat) (f : PortSt → PortSt) : (modPort s p f).prt = s.prt := rfl
@[simp] theorem modPort_engs (s : State) (p : Nat) (f : PortSt → PortSt) : (modPort s p f).engs = s.engs := rfl
@[simp] theorem modPort_mem (s : State) (p : Nat) (f : PortSt → PortSt) : (modPort s p f).mem = s.mem := rfl
@[simp] theorem modPort_cores (s : State) (p : Nat) (f : PortSt → PortSt) : (modPort s p f).cores = s.cores := rfl
@[simp] theorem modPort_slip (s : State) (p : Nat) (f : PortSt → PortSt) : (modPort s p f).slip = s.slip := rfl
@[simp] theorem modPort_barges (s : State) (p : Nat) (f : PortSt → PortSt) : (modPort s p f).barges = s.barges := rfl
@[simp] theorem modPort_routers (s : State) (p : Nat) (f : PortSt → PortSt) : (modPort s p f).routers = s.routers := rfl
@[simp] theorem modPort_ssus (s : State) (p : Nat) (f : PortSt → PortSt) : (modPort s p f).ssus = s.ssus := rfl
@[simp] theorem modPort_pcl (s : State) (p : Nat) (f : PortSt → PortSt) : (modPort s p f).pcl = s.pcl := rfl
@[simp] theorem modPort_gth (s : State) (p : Nat) (f : PortSt → PortSt) : (modPort s p f).gth = s.gth := rfl
@[simp] theorem modPort_grd (s : State) (p : Nat) (f : PortSt → PortSt) : (modPort s p f).grd = s.grd := rfl
@[simp] theorem modPort_por (s : State) (p : Nat) (f : PortSt → PortSt) : (modPort s p f).por = s.por := rfl
@[simp] theorem modPort_mbs (s : State) (p : Nat) (f : PortSt → PortSt) : (modPort s p f).mbs = s.mbs := rfl
@[simp] theorem modPort_pur (s : State) (p : Nat) (f : PortSt → PortSt) : (modPort s p f).pur = s.pur := rfl
@[simp] theorem modPort_sec (s : State) (p : Nat) (f : PortSt → PortSt) : (modPort s p f).sec = s.sec := rfl
@[simp] theorem modPort_pending (s : State) (p : Nat) (f : PortSt → PortSt) : (modPort s p f).pending = s.pending := rfl
@[simp] theorem modPort_outs (s : State) (p : Nat) (f : PortSt → PortSt) : (modPort s p f).outs = s.outs := rfl
@[simp] theorem modPort_freeCtr (s : State) (p : Nat) (f : PortSt → PortSt) : (modPort s p f).freeCtr = s.freeCtr := rfl

@[simp] theorem modPath_hub (s : State) (p : Nat) (x : Nat) (f : PathSt → PathSt) : (modPath s p x f).hub = s.hub := rfl
@[simp] theorem modPath_pwr (s : State) (p : Nat) (x : Nat) (f : PathSt → PathSt) : (modPath s p x f).pwr = s.pwr := rfl
@[simp] theorem modPath_evt (s : State) (p : Nat) (x : Nat) (f : PathSt → PathSt) : (modPath s p x f).evt = s.evt := rfl
@[simp] theorem modPath_prt (s : State) (p : Nat) (x : Nat) (f : PathSt → PathSt) : (modPath s p x f).prt = s.prt := rfl
@[simp] theorem modPath_engs (s : State) (p : Nat) (x : Nat) (f : PathSt → PathSt) : (modPath s p x f).engs = s.engs := rfl
@[simp] theorem modPath_mem (s : State) (p : Nat) (x : Nat) (f : PathSt → PathSt) : (modPath s p x f).mem = s.mem := rfl
@[simp] theorem modPath_cores (s : State) (p : Nat) (x : Nat) (f : PathSt → PathSt) : (modPath s p x f).cores = s.cores := rfl
@[simp] theorem modPath_slip (s : State) (p : Nat) (x : Nat) (f : PathSt → PathSt) : (modPath s p x f).slip = s.slip := rfl
@[simp] theorem modPath_barges (s : State) (p : Nat) (x : Nat) (f : PathSt → PathSt) : (modPath s p x f).barges = s.barges := rfl
@[simp] theorem modPath_routers (s : State) (p : Nat) (x : Nat) (f : PathSt → PathSt) : (modPath s p x f).routers = s.routers := rfl
@[simp] theorem modPath_ssus (s : State) (p : Nat) (x : Nat) (f : PathSt → PathSt) : (modPath s p x f).ssus = s.ssus := rfl
@[simp] theorem modPath_pcl (s : State) (p : Nat) (x : Nat) (f : PathSt → PathSt) : (modPath s p x f).pcl = s.pcl := rfl
@[simp] theorem modPath_gth (s : State) (p : Nat) (x : Nat) (f : PathSt → PathSt) : (modPath s p x f).gth = s.gth := rfl
@[simp] theorem modPath_grd (s : State) (p : Nat) (x : Nat) (f : PathSt → PathSt) : (modPath s p x f).grd = s.grd := rfl
@[simp] theorem modPath_por (s : State) (p : Nat) (x : Nat) (f : PathSt → PathSt) : (modPath s p x f).por = s.por := rfl
@[simp] theorem modPath_mbs (s : State) (p : Nat) (x : Nat) (f : PathSt → PathSt) : (modPath s p x f).mbs = s.mbs := rfl
@[simp] theorem modPath_pur (s : State) (p : Nat) (x : Nat) (f : PathSt → PathSt) : (modPath s p x f).pur = s.pur := rfl
@[simp] theorem modPath_sec (s : State) (p : Nat) (x : Nat) (f : PathSt → PathSt) : (modPath s p x f).sec = s.sec := rfl
@[simp] theorem modPath_pending (s : State) (p : Nat) (x : Nat) (f : PathSt → PathSt) : (modPath s p x f).pending = s.pending := rfl
@[simp] theorem modPath_outs (s : State) (p : Nat) (x : Nat) (f : PathSt → PathSt) : (modPath s p x f).outs = s.outs := rfl
@[simp] theorem modPath_freeCtr (s : State) (p : Nat) (x : Nat) (f : PathSt → PathSt) : (modPath s p x f).freeCtr = s.freeCtr := rfl

@[simp] theorem modSlip_hub (s : State) (f : SlipSt → SlipSt) : (modSlip s f).hub = s.hub := rfl
@[simp] theorem modSlip_pwr (s : State) (f : SlipSt → SlipSt) : (modSlip s f).pwr = s.pwr := rfl
@[simp] theorem modSlip_evt (s : State) (f : SlipSt → SlipSt) : (modSlip s f).evt = s.evt := rfl
@[simp] theorem modSlip_prt (s : State) (f : SlipSt → SlipSt) : (modSlip s f).prt = s.prt := rfl
@[simp] theorem modSlip_engs (s : State) (f : SlipSt → SlipSt) : (modSlip s f).engs = s.engs := rfl
@[simp] theorem modSlip_mem (s : State) (f : SlipSt → SlipSt) : (modSlip s f).mem = s.mem := rfl
@[simp] theorem modSlip_cores (s : State) (f : SlipSt → SlipSt) : (modSlip s f).cores = s.cores := rfl
@[simp] theorem modSlip_fry (s : State) (f : SlipSt → SlipSt) : (modSlip s f).fry = s.fry := rfl
@[simp] theorem modSlip_barges (s : State) (f : SlipSt → SlipSt) : (modSlip s f).barges = s.barges := rfl
@[simp] theorem modSlip_routers (s : State) (f : SlipSt → SlipSt) : (modSlip s f).routers = s.routers := rfl
@[simp] theorem modSlip_ssus (s : State) (f : SlipSt → SlipSt) : (modSlip s f).ssus = s.ssus := rfl
@[simp] theorem modSlip_pcl (s : State) (f : SlipSt → SlipSt) : (modSlip s f).pcl = s.pcl := rfl
@[simp] theorem modSlip_gth (s : State) (f : SlipSt → SlipSt) : (modSlip s f).gth = s.gth := rfl
@[simp] theorem modSlip_grd (s : State) (f : SlipSt → SlipSt) : (modSlip s f).grd = s.grd := rfl
@[simp] theorem modSlip_por (s : State) (f : SlipSt → SlipSt) : (modSlip s f).por = s.por := rfl
@[simp] theorem modSlip_mbs (s : State) (f : SlipSt → SlipSt) : (modSlip s f).mbs = s.mbs := rfl
@[simp] theorem modSlip_pur (s : State) (f : SlipSt → SlipSt) : (modSlip s f).pur = s.pur := rfl
@[simp] theorem modSlip_sec (s : State) (f : SlipSt → SlipSt) : (modSlip s f).sec = s.sec := rfl
@[simp] theorem modSlip_pending (s : State) (f : SlipSt → SlipSt) : (modSlip s f).pending = s.pending := rfl
@[simp] theorem modSlip_outs (s : State) (f : SlipSt → SlipSt) : (modSlip s f).outs = s.outs := rfl
@[simp] theorem modSlip_freeCtr (s : State) (f : SlipSt → SlipSt) : (modSlip s f).freeCtr = s.freeCtr := rfl

@[simp] theorem modSq_hub (s : State) (q : Nat) (f : SlipQ → SlipQ) : (modSq s q f).hub = s.hub := rfl
@[simp] theorem modSq_pwr (s : State) (q : Nat) (f : SlipQ → SlipQ) : (modSq s q f).pwr = s.pwr := rfl
@[simp] theorem modSq_evt (s : State) (q : Nat) (f : SlipQ → SlipQ) : (modSq s q f).evt = s.evt := rfl
@[simp] theorem modSq_prt (s : State) (q : Nat) (f : SlipQ → SlipQ) : (modSq s q f).prt = s.prt := rfl
@[simp] theorem modSq_engs (s : State) (q : Nat) (f : SlipQ → SlipQ) : (modSq s q f).engs = s.engs := rfl
@[simp] theorem modSq_mem (s : State) (q : Nat) (f : SlipQ → SlipQ) : (modSq s q f).mem = s.mem := rfl
@[simp] theorem modSq_cores (s : State) (q : Nat) (f : SlipQ → SlipQ) : (modSq s q f).cores = s.cores := rfl
@[simp] theorem modSq_fry (s : State) (q : Nat) (f : SlipQ → SlipQ) : (modSq s q f).fry = s.fry := rfl
@[simp] theorem modSq_barges (s : State) (q : Nat) (f : SlipQ → SlipQ) : (modSq s q f).barges = s.barges := rfl
@[simp] theorem modSq_routers (s : State) (q : Nat) (f : SlipQ → SlipQ) : (modSq s q f).routers = s.routers := rfl
@[simp] theorem modSq_ssus (s : State) (q : Nat) (f : SlipQ → SlipQ) : (modSq s q f).ssus = s.ssus := rfl
@[simp] theorem modSq_pcl (s : State) (q : Nat) (f : SlipQ → SlipQ) : (modSq s q f).pcl = s.pcl := rfl
@[simp] theorem modSq_gth (s : State) (q : Nat) (f : SlipQ → SlipQ) : (modSq s q f).gth = s.gth := rfl
@[simp] theorem modSq_grd (s : State) (q : Nat) (f : SlipQ → SlipQ) : (modSq s q f).grd = s.grd := rfl
@[simp] theorem modSq_por (s : State) (q : Nat) (f : SlipQ → SlipQ) : (modSq s q f).por = s.por := rfl
@[simp] theorem modSq_mbs (s : State) (q : Nat) (f : SlipQ → SlipQ) : (modSq s q f).mbs = s.mbs := rfl
@[simp] theorem modSq_pur (s : State) (q : Nat) (f : SlipQ → SlipQ) : (modSq s q f).pur = s.pur := rfl
@[simp] theorem modSq_sec (s : State) (q : Nat) (f : SlipQ → SlipQ) : (modSq s q f).sec = s.sec := rfl
@[simp] theorem modSq_pending (s : State) (q : Nat) (f : SlipQ → SlipQ) : (modSq s q f).pending = s.pending := rfl
@[simp] theorem modSq_outs (s : State) (q : Nat) (f : SlipQ → SlipQ) : (modSq s q f).outs = s.outs := rfl
@[simp] theorem modSq_freeCtr (s : State) (q : Nat) (f : SlipQ → SlipQ) : (modSq s q f).freeCtr = s.freeCtr := rfl

@[simp] theorem modGrant_hub (s : State) (q : Nat) (m : Nat) (c : Nat) (f : Grant → Grant) : (modGrant s q m c f).hub = s.hub := rfl
@[simp] theorem modGrant_pwr (s : State) (q : Nat) (m : Nat) (c : Nat) (f : Grant → Grant) : (modGrant s q m c f).pwr = s.pwr := rfl
@[simp] theorem modGrant_evt (s : State) (q : Nat) (m : Nat) (c : Nat) (f : Grant → Grant) : (modGrant s q m c f).evt = s.evt := rfl
@[simp] theorem modGrant_prt (s : State) (q : Nat) (m : Nat) (c : Nat) (f : Grant → Grant) : (modGrant s q m c f).prt = s.prt := rfl
@[simp] theorem modGrant_engs (s : State) (q : Nat) (m : Nat) (c : Nat) (f : Grant → Grant) : (modGrant s q m c f).engs = s.engs := rfl
@[simp] theorem modGrant_mem (s : State) (q : Nat) (m : Nat) (c : Nat) (f : Grant → Grant) : (modGrant s q m c f).mem = s.mem := rfl
@[simp] theorem modGrant_cores (s : State) (q : Nat) (m : Nat) (c : Nat) (f : Grant → Grant) : (modGrant s q m c f).cores = s.cores := rfl
@[simp] theorem modGrant_fry (s : State) (q : Nat) (m : Nat) (c : Nat) (f : Grant → Grant) : (modGrant s q m c f).fry = s.fry := rfl
@[simp] theorem modGrant_barges (s : State) (q : Nat) (m : Nat) (c : Nat) (f : Grant → Grant) : (modGrant s q m c f).barges = s.barges := rfl
@[simp] theorem modGrant_routers (s : State) (q : Nat) (m : Nat) (c : Nat) (f : Grant → Grant) : (modGrant s q m c f).routers = s.routers := rfl
@[simp] theorem modGrant_ssus (s : State) (q : Nat) (m : Nat) (c : Nat) (f : Grant → Grant) : (modGrant s q m c f).ssus = s.ssus := rfl
@[simp] theorem modGrant_pcl (s : State) (q : Nat) (m : Nat) (c : Nat) (f : Grant → Grant) : (modGrant s q m c f).pcl = s.pcl := rfl
@[simp] theorem modGrant_gth (s : State) (q : Nat) (m : Nat) (c : Nat) (f : Grant → Grant) : (modGrant s q m c f).gth = s.gth := rfl
@[simp] theorem modGrant_grd (s : State) (q : Nat) (m : Nat) (c : Nat) (f : Grant → Grant) : (modGrant s q m c f).grd = s.grd := rfl
@[simp] theorem modGrant_por (s : State) (q : Nat) (m : Nat) (c : Nat) (f : Grant → Grant) : (modGrant s q m c f).por = s.por := rfl
@[simp] theorem modGrant_mbs (s : State) (q : Nat) (m : Nat) (c : Nat) (f : Grant → Grant) : (modGrant s q m c f).mbs = s.mbs := rfl
@[simp] theorem modGrant_pur (s : State) (q : Nat) (m : Nat) (c : Nat) (f : Grant → Grant) : (modGrant s q m c f).pur = s.pur := rfl
@[simp] theorem modGrant_sec (s : State) (q : Nat) (m : Nat) (c : Nat) (f : Grant → Grant) : (modGrant s q m c f).sec = s.sec := rfl
@[simp] theorem modGrant_pending (s : State) (q : Nat) (m : Nat) (c : Nat) (f : Grant → Grant) : (modGrant s q m c f).pending = s.pending := rfl
@[simp] theorem modGrant_outs (s : State) (q : Nat) (m : Nat) (c : Nat) (f : Grant → Grant) : (modGrant s q m c f).outs = s.outs := rfl
@[simp] theorem modGrant_freeCtr (s : State) (q : Nat) (m : Nat) (c : Nat) (f : Grant → Grant) : (modGrant s q m c f).freeCtr = s.freeCtr := rfl

@[simp] theorem modRouter_hub (s : State) (k : Nat) (f : RouterSt → RouterSt) : (modRouter s k f).hub = s.hub := rfl
@[simp] theorem modRouter_pwr (s : State) (k : Nat) (f : RouterSt → RouterSt) : (modRouter s k f).pwr = s.pwr := rfl
@[simp] theorem modRouter_evt (s : State) (k : Nat) (f : RouterSt → RouterSt) : (modRouter s k f).evt = s.evt := rfl
@[simp] theorem modRouter_prt (s : State) (k : Nat) (f : RouterSt → RouterSt) : (modRouter s k f).prt = s.prt := rfl
@[simp] theorem modRouter_engs (s : State) (k : Nat) (f : RouterSt → RouterSt) : (modRouter s k f).engs = s.engs := rfl
@[simp] theorem modRouter_mem (s : State) (k : Nat) (f : RouterSt → RouterSt) : (modRouter s k f).mem = s.mem := rfl
@[simp] theorem modRouter_cores (s : State) (k : Nat) (f : RouterSt → RouterSt) : (modRouter s k f).cores = s.cores := rfl
@[simp] theorem modRouter_slip (s : State) (k : Nat) (f : RouterSt → RouterSt) : (modRouter s k f).slip = s.slip := rfl
@[simp] theorem modRouter_fry (s : State) (k : Nat) (f : RouterSt → RouterSt) : (modRouter s k f).fry = s.fry := rfl
@[simp] theorem modRouter_barges (s : State) (k : Nat) (f : RouterSt → RouterSt) : (modRouter s k f).barges = s.barges := rfl
@[simp] theorem modRouter_ssus (s : State) (k : Nat) (f : RouterSt → RouterSt) : (modRouter s k f).ssus = s.ssus := rfl
@[simp] theorem modRouter_pcl (s : State) (k : Nat) (f : RouterSt → RouterSt) : (modRouter s k f).pcl = s.pcl := rfl
@[simp] theorem modRouter_gth (s : State) (k : Nat) (f : RouterSt → RouterSt) : (modRouter s k f).gth = s.gth := rfl
@[simp] theorem modRouter_grd (s : State) (k : Nat) (f : RouterSt → RouterSt) : (modRouter s k f).grd = s.grd := rfl
@[simp] theorem modRouter_por (s : State) (k : Nat) (f : RouterSt → RouterSt) : (modRouter s k f).por = s.por := rfl
@[simp] theorem modRouter_mbs (s : State) (k : Nat) (f : RouterSt → RouterSt) : (modRouter s k f).mbs = s.mbs := rfl
@[simp] theorem modRouter_pur (s : State) (k : Nat) (f : RouterSt → RouterSt) : (modRouter s k f).pur = s.pur := rfl
@[simp] theorem modRouter_sec (s : State) (k : Nat) (f : RouterSt → RouterSt) : (modRouter s k f).sec = s.sec := rfl
@[simp] theorem modRouter_pending (s : State) (k : Nat) (f : RouterSt → RouterSt) : (modRouter s k f).pending = s.pending := rfl
@[simp] theorem modRouter_outs (s : State) (k : Nat) (f : RouterSt → RouterSt) : (modRouter s k f).outs = s.outs := rfl
@[simp] theorem modRouter_freeCtr (s : State) (k : Nat) (f : RouterSt → RouterSt) : (modRouter s k f).freeCtr = s.freeCtr := rfl

@[simp] theorem modSsu_hub (s : State) (k : Nat) (f : SsuSt → SsuSt) : (modSsu s k f).hub = s.hub := rfl
@[simp] theorem modSsu_pwr (s : State) (k : Nat) (f : SsuSt → SsuSt) : (modSsu s k f).pwr = s.pwr := rfl
@[simp] theorem modSsu_evt (s : State) (k : Nat) (f : SsuSt → SsuSt) : (modSsu s k f).evt = s.evt := rfl
@[simp] theorem modSsu_prt (s : State) (k : Nat) (f : SsuSt → SsuSt) : (modSsu s k f).prt = s.prt := rfl
@[simp] theorem modSsu_engs (s : State) (k : Nat) (f : SsuSt → SsuSt) : (modSsu s k f).engs = s.engs := rfl
@[simp] theorem modSsu_mem (s : State) (k : Nat) (f : SsuSt → SsuSt) : (modSsu s k f).mem = s.mem := rfl
@[simp] theorem modSsu_cores (s : State) (k : Nat) (f : SsuSt → SsuSt) : (modSsu s k f).cores = s.cores := rfl
@[simp] theorem modSsu_slip (s : State) (k : Nat) (f : SsuSt → SsuSt) : (modSsu s k f).slip = s.slip := rfl
@[simp] theorem modSsu_fry (s : State) (k : Nat) (f : SsuSt → SsuSt) : (modSsu s k f).fry = s.fry := rfl
@[simp] theorem modSsu_barges (s : State) (k : Nat) (f : SsuSt → SsuSt) : (modSsu s k f).barges = s.barges := rfl
@[simp] theorem modSsu_routers (s : State) (k : Nat) (f : SsuSt → SsuSt) : (modSsu s k f).routers = s.routers := rfl
@[simp] theorem modSsu_pcl (s : State) (k : Nat) (f : SsuSt → SsuSt) : (modSsu s k f).pcl = s.pcl := rfl
@[simp] theorem modSsu_gth (s : State) (k : Nat) (f : SsuSt → SsuSt) : (modSsu s k f).gth = s.gth := rfl
@[simp] theorem modSsu_grd (s : State) (k : Nat) (f : SsuSt → SsuSt) : (modSsu s k f).grd = s.grd := rfl
@[simp] theorem modSsu_por (s : State) (k : Nat) (f : SsuSt → SsuSt) : (modSsu s k f).por = s.por := rfl
@[simp] theorem modSsu_mbs (s : State) (k : Nat) (f : SsuSt → SsuSt) : (modSsu s k f).mbs = s.mbs := rfl
@[simp] theorem modSsu_pur (s : State) (k : Nat) (f : SsuSt → SsuSt) : (modSsu s k f).pur = s.pur := rfl
@[simp] theorem modSsu_sec (s : State) (k : Nat) (f : SsuSt → SsuSt) : (modSsu s k f).sec = s.sec := rfl
@[simp] theorem modSsu_pending (s : State) (k : Nat) (f : SsuSt → SsuSt) : (modSsu s k f).pending = s.pending := rfl
@[simp] theorem modSsu_outs (s : State) (k : Nat) (f : SsuSt → SsuSt) : (modSsu s k f).outs = s.outs := rfl
@[simp] theorem modSsu_freeCtr (s : State) (k : Nat) (f : SsuSt → SsuSt) : (modSsu s k f).freeCtr = s.freeCtr := rfl

@[simp] theorem modSlice_hub (s : State) (k : Nat) (f : SliceSt → SliceSt) : (modSlice s k f).hub = s.hub := rfl
@[simp] theorem modSlice_pwr (s : State) (k : Nat) (f : SliceSt → SliceSt) : (modSlice s k f).pwr = s.pwr := rfl
@[simp] theorem modSlice_evt (s : State) (k : Nat) (f : SliceSt → SliceSt) : (modSlice s k f).evt = s.evt := rfl
@[simp] theorem modSlice_prt (s : State) (k : Nat) (f : SliceSt → SliceSt) : (modSlice s k f).prt = s.prt := rfl
@[simp] theorem modSlice_engs (s : State) (k : Nat) (f : SliceSt → SliceSt) : (modSlice s k f).engs = s.engs := rfl
@[simp] theorem modSlice_mem (s : State) (k : Nat) (f : SliceSt → SliceSt) : (modSlice s k f).mem = s.mem := rfl
@[simp] theorem modSlice_cores (s : State) (k : Nat) (f : SliceSt → SliceSt) : (modSlice s k f).cores = s.cores := rfl
@[simp] theorem modSlice_slip (s : State) (k : Nat) (f : SliceSt → SliceSt) : (modSlice s k f).slip = s.slip := rfl
@[simp] theorem modSlice_fry (s : State) (k : Nat) (f : SliceSt → SliceSt) : (modSlice s k f).fry = s.fry := rfl
@[simp] theorem modSlice_barges (s : State) (k : Nat) (f : SliceSt → SliceSt) : (modSlice s k f).barges = s.barges := rfl
@[simp] theorem modSlice_routers (s : State) (k : Nat) (f : SliceSt → SliceSt) : (modSlice s k f).routers = s.routers := rfl
@[simp] theorem modSlice_ssus (s : State) (k : Nat) (f : SliceSt → SliceSt) : (modSlice s k f).ssus = s.ssus := rfl
@[simp] theorem modSlice_gth (s : State) (k : Nat) (f : SliceSt → SliceSt) : (modSlice s k f).gth = s.gth := rfl
@[simp] theorem modSlice_grd (s : State) (k : Nat) (f : SliceSt → SliceSt) : (modSlice s k f).grd = s.grd := rfl
@[simp] theorem modSlice_por (s : State) (k : Nat) (f : SliceSt → SliceSt) : (modSlice s k f).por = s.por := rfl
@[simp] theorem modSlice_mbs (s : State) (k : Nat) (f : SliceSt → SliceSt) : (modSlice s k f).mbs = s.mbs := rfl
@[simp] theorem modSlice_pur (s : State) (k : Nat) (f : SliceSt → SliceSt) : (modSlice s k f).pur = s.pur := rfl
@[simp] theorem modSlice_sec (s : State) (k : Nat) (f : SliceSt → SliceSt) : (modSlice s k f).sec = s.sec := rfl
@[simp] theorem modSlice_pending (s : State) (k : Nat) (f : SliceSt → SliceSt) : (modSlice s k f).pending = s.pending := rfl
@[simp] theorem modSlice_outs (s : State) (k : Nat) (f : SliceSt → SliceSt) : (modSlice s k f).outs = s.outs := rfl
@[simp] theorem modSlice_freeCtr (s : State) (k : Nat) (f : SliceSt → SliceSt) : (modSlice s k f).freeCtr = s.freeCtr := rfl

@[simp] theorem putQuery_hub (s : State) (k : Nat) (q : Nat) (x : Query) : (putQuery s k q x).hub = s.hub := rfl
@[simp] theorem putQuery_pwr (s : State) (k : Nat) (q : Nat) (x : Query) : (putQuery s k q x).pwr = s.pwr := rfl
@[simp] theorem putQuery_evt (s : State) (k : Nat) (q : Nat) (x : Query) : (putQuery s k q x).evt = s.evt := rfl
@[simp] theorem putQuery_prt (s : State) (k : Nat) (q : Nat) (x : Query) : (putQuery s k q x).prt = s.prt := rfl
@[simp] theorem putQuery_engs (s : State) (k : Nat) (q : Nat) (x : Query) : (putQuery s k q x).engs = s.engs := rfl
@[simp] theorem putQuery_mem (s : State) (k : Nat) (q : Nat) (x : Query) : (putQuery s k q x).mem = s.mem := rfl
@[simp] theorem putQuery_cores (s : State) (k : Nat) (q : Nat) (x : Query) : (putQuery s k q x).cores = s.cores := rfl
@[simp] theorem putQuery_slip (s : State) (k : Nat) (q : Nat) (x : Query) : (putQuery s k q x).slip = s.slip := rfl
@[simp] theorem putQuery_fry (s : State) (k : Nat) (q : Nat) (x : Query) : (putQuery s k q x).fry = s.fry := rfl
@[simp] theorem putQuery_barges (s : State) (k : Nat) (q : Nat) (x : Query) : (putQuery s k q x).barges = s.barges := rfl
@[simp] theorem putQuery_routers (s : State) (k : Nat) (q : Nat) (x : Query) : (putQuery s k q x).routers = s.routers := rfl
@[simp] theorem putQuery_ssus (s : State) (k : Nat) (q : Nat) (x : Query) : (putQuery s k q x).ssus = s.ssus := rfl
@[simp] theorem putQuery_gth (s : State) (k : Nat) (q : Nat) (x : Query) : (putQuery s k q x).gth = s.gth := rfl
@[simp] theorem putQuery_grd (s : State) (k : Nat) (q : Nat) (x : Query) : (putQuery s k q x).grd = s.grd := rfl
@[simp] theorem putQuery_por (s : State) (k : Nat) (q : Nat) (x : Query) : (putQuery s k q x).por = s.por := rfl
@[simp] theorem putQuery_mbs (s : State) (k : Nat) (q : Nat) (x : Query) : (putQuery s k q x).mbs = s.mbs := rfl
@[simp] theorem putQuery_pur (s : State) (k : Nat) (q : Nat) (x : Query) : (putQuery s k q x).pur = s.pur := rfl
@[simp] theorem putQuery_sec (s : State) (k : Nat) (q : Nat) (x : Query) : (putQuery s k q x).sec = s.sec := rfl
@[simp] theorem putQuery_pending (s : State) (k : Nat) (q : Nat) (x : Query) : (putQuery s k q x).pending = s.pending := rfl
@[simp] theorem putQuery_outs (s : State) (k : Nat) (q : Nat) (x : Query) : (putQuery s k q x).outs = s.outs := rfl
@[simp] theorem putQuery_freeCtr (s : State) (k : Nat) (q : Nat) (x : Query) : (putQuery s k q x).freeCtr = s.freeCtr := rfl

@[simp] theorem modGrd_hub (s : State) (f : GrdSt → GrdSt) : (modGrd s f).hub = s.hub := rfl
@[simp] theorem modGrd_pwr (s : State) (f : GrdSt → GrdSt) : (modGrd s f).pwr = s.pwr := rfl
@[simp] theorem modGrd_evt (s : State) (f : GrdSt → GrdSt) : (modGrd s f).evt = s.evt := rfl
@[simp] theorem modGrd_prt (s : State) (f : GrdSt → GrdSt) : (modGrd s f).prt = s.prt := rfl
@[simp] theorem modGrd_engs (s : State) (f : GrdSt → GrdSt) : (modGrd s f).engs = s.engs := rfl
@[simp] theorem modGrd_mem (s : State) (f : GrdSt → GrdSt) : (modGrd s f).mem = s.mem := rfl
@[simp] theorem modGrd_cores (s : State) (f : GrdSt → GrdSt) : (modGrd s f).cores = s.cores := rfl
@[simp] theorem modGrd_slip (s : State) (f : GrdSt → GrdSt) : (modGrd s f).slip = s.slip := rfl
@[simp] theorem modGrd_fry (s : State) (f : GrdSt → GrdSt) : (modGrd s f).fry = s.fry := rfl
@[simp] theorem modGrd_barges (s : State) (f : GrdSt → GrdSt) : (modGrd s f).barges = s.barges := rfl
@[simp] theorem modGrd_routers (s : State) (f : GrdSt → GrdSt) : (modGrd s f).routers = s.routers := rfl
@[simp] theorem modGrd_ssus (s : State) (f : GrdSt → GrdSt) : (modGrd s f).ssus = s.ssus := rfl
@[simp] theorem modGrd_pcl (s : State) (f : GrdSt → GrdSt) : (modGrd s f).pcl = s.pcl := rfl
@[simp] theorem modGrd_gth (s : State) (f : GrdSt → GrdSt) : (modGrd s f).gth = s.gth := rfl
@[simp] theorem modGrd_por (s : State) (f : GrdSt → GrdSt) : (modGrd s f).por = s.por := rfl
@[simp] theorem modGrd_mbs (s : State) (f : GrdSt → GrdSt) : (modGrd s f).mbs = s.mbs := rfl
@[simp] theorem modGrd_pur (s : State) (f : GrdSt → GrdSt) : (modGrd s f).pur = s.pur := rfl
@[simp] theorem modGrd_sec (s : State) (f : GrdSt → GrdSt) : (modGrd s f).sec = s.sec := rfl
@[simp] theorem modGrd_pending (s : State) (f : GrdSt → GrdSt) : (modGrd s f).pending = s.pending := rfl
@[simp] theorem modGrd_outs (s : State) (f : GrdSt → GrdSt) : (modGrd s f).outs = s.outs := rfl
@[simp] theorem modGrd_freeCtr (s : State) (f : GrdSt → GrdSt) : (modGrd s f).freeCtr = s.freeCtr := rfl

@[simp] theorem putReq_hub (s : State) (rid : Nat) (r : Request) : (putReq s rid r).hub = s.hub := rfl
@[simp] theorem putReq_pwr (s : State) (rid : Nat) (r : Request) : (putReq s rid r).pwr = s.pwr := rfl
@[simp] theorem putReq_evt (s : State) (rid : Nat) (r : Request) : (putReq s rid r).evt = s.evt := rfl
@[simp] theorem putReq_prt (s : State) (rid : Nat) (r : Request) : (putReq s rid r).prt = s.prt := rfl
@[simp] theorem putReq_engs (s : State) (rid : Nat) (r : Request) : (putReq s rid r).engs = s.engs := rfl
@[simp] theorem putReq_mem (s : State) (rid : Nat) (r : Request) : (putReq s rid r).mem = s.mem := rfl
@[simp] theorem putReq_cores (s : State) (rid : Nat) (r : Request) : (putReq s rid r).cores = s.cores := rfl
@[simp] theorem putReq_slip (s : State) (rid : Nat) (r : Request) : (putReq s rid r).slip = s.slip := rfl
@[simp] theorem putReq_fry (s : State) (rid : Nat) (r : Request) : (putReq s rid r).fry = s.fry := rfl
@[simp] theorem putReq_barges (s : State) (rid : Nat) (r : Request) : (putReq s rid r).barges = s.barges := rfl
@[simp] theorem putReq_routers (s : State) (rid : Nat) (r : Request) : (putReq s rid r).routers = s.routers := rfl
@[simp] theorem putReq_ssus (s : State) (rid : Nat) (r : Request) : (putReq s rid r).ssus = s.ssus := rfl
@[simp] theorem putReq_pcl (s : State) (rid : Nat) (r : Request) : (putReq s rid r).pcl = s.pcl := rfl
@[simp] theorem putReq_gth (s : State) (rid : Nat) (r : Request) : (putReq s rid r).gth = s.gth := rfl
@[simp] theorem putReq_grd (s : State) (rid : Nat) (r : Request) : (putReq s rid r).grd = s.grd := rfl
@[simp] theorem putReq_por (s : State) (rid : Nat) (r : Request) : (putReq s rid r).por = s.por := rfl
@[simp] theorem putReq_mbs (s : State) (rid : Nat) (r : Request) : (putReq s rid r).mbs = s.mbs := rfl
@[simp] theorem putReq_sec (s : State) (rid : Nat) (r : Request) : (putReq s rid r).sec = s.sec := rfl
@[simp] theorem putReq_pending (s : State) (rid : Nat) (r : Request) : (putReq s rid r).pending = s.pending := rfl
@[simp] theorem putReq_outs (s : State) (rid : Nat) (r : Request) : (putReq s rid r).outs = s.outs := rfl
@[simp] theorem putReq_freeCtr (s : State) (rid : Nat) (r : Request) : (putReq s rid r).freeCtr = s.freeCtr := rfl

@[simp] theorem modClass_hub (s : State) (c : Nat) (f : ClassSt → ClassSt) : (modClass s c f).hub = s.hub := rfl
@[simp] theorem modClass_pwr (s : State) (c : Nat) (f : ClassSt → ClassSt) : (modClass s c f).pwr = s.pwr := rfl
@[simp] theorem modClass_evt (s : State) (c : Nat) (f : ClassSt → ClassSt) : (modClass s c f).evt = s.evt := rfl
@[simp] theorem modClass_prt (s : State) (c : Nat) (f : ClassSt → ClassSt) : (modClass s c f).prt = s.prt := rfl
@[simp] theorem modClass_engs (s : State) (c : Nat) (f : ClassSt → ClassSt) : (modClass s c f).engs = s.engs := rfl
@[simp] theorem modClass_mem (s : State) (c : Nat) (f : ClassSt → ClassSt) : (modClass s c f).mem = s.mem := rfl
@[simp] theorem modClass_cores (s : State) (c : Nat) (f : ClassSt → ClassSt) : (modClass s c f).cores = s.cores := rfl
@[simp] theorem modClass_slip (s : State) (c : Nat) (f : ClassSt → ClassSt) : (modClass s c f).slip = s.slip := rfl
@[simp] theorem modClass_fry (s : State) (c : Nat) (f : ClassSt → ClassSt) : (modClass s c f).fry = s.fry := rfl
@[simp] theorem modClass_barges (s : State) (c : Nat) (f : ClassSt → ClassSt) : (modClass s c f).barges = s.barges := rfl
@[simp] theorem modClass_routers (s : State) (c : Nat) (f : ClassSt → ClassSt) : (modClass s c f).routers = s.routers := rfl
@[simp] theorem modClass_ssus (s : State) (c : Nat) (f : ClassSt → ClassSt) : (modClass s c f).ssus = s.ssus := rfl
@[simp] theorem modClass_pcl (s : State) (c : Nat) (f : ClassSt → ClassSt) : (modClass s c f).pcl = s.pcl := rfl
@[simp] theorem modClass_gth (s : State) (c : Nat) (f : ClassSt → ClassSt) : (modClass s c f).gth = s.gth := rfl
@[simp] theorem modClass_grd (s : State) (c : Nat) (f : ClassSt → ClassSt) : (modClass s c f).grd = s.grd := rfl
@[simp] theorem modClass_por (s : State) (c : Nat) (f : ClassSt → ClassSt) : (modClass s c f).por = s.por := rfl
@[simp] theorem modClass_mbs (s : State) (c : Nat) (f : ClassSt → ClassSt) : (modClass s c f).mbs = s.mbs := rfl
@[simp] theorem modClass_sec (s : State) (c : Nat) (f : ClassSt → ClassSt) : (modClass s c f).sec = s.sec := rfl
@[simp] theorem modClass_pending (s : State) (c : Nat) (f : ClassSt → ClassSt) : (modClass s c f).pending = s.pending := rfl
@[simp] theorem modClass_outs (s : State) (c : Nat) (f : ClassSt → ClassSt) : (modClass s c f).outs = s.outs := rfl
@[simp] theorem modClass_freeCtr (s : State) (c : Nat) (f : ClassSt → ClassSt) : (modClass s c f).freeCtr = s.freeCtr := rfl

@[simp] theorem modGth_hub (s : State) (f : GthSt → GthSt) : (modGth s f).hub = s.hub := rfl
@[simp] theorem modGth_pwr (s : State) (f : GthSt → GthSt) : (modGth s f).pwr = s.pwr := rfl
@[simp] theorem modGth_evt (s : State) (f : GthSt → GthSt) : (modGth s f).evt = s.evt := rfl
@[simp] theorem modGth_prt (s : State) (f : GthSt → GthSt) : (modGth s f).prt = s.prt := rfl
@[simp] theorem modGth_engs (s : State) (f : GthSt → GthSt) : (modGth s f).engs = s.engs := rfl
@[simp] theorem modGth_mem (s : State) (f : GthSt → GthSt) : (modGth s f).mem = s.mem := rfl
@[simp] theorem modGth_cores (s : State) (f : GthSt → GthSt) : (modGth s f).cores = s.cores := rfl
@[simp] theorem modGth_slip (s : State) (f : GthSt → GthSt) : (modGth s f).slip = s.slip := rfl
@[simp] theorem modGth_fry (s : State) (f : GthSt → GthSt) : (modGth s f).fry = s.fry := rfl
@[simp] theorem modGth_barges (s : State) (f : GthSt → GthSt) : (modGth s f).barges = s.barges := rfl
@[simp] theorem modGth_routers (s : State) (f : GthSt → GthSt) : (modGth s f).routers = s.routers := rfl
@[simp] theorem modGth_ssus (s : State) (f : GthSt → GthSt) : (modGth s f).ssus = s.ssus := rfl
@[simp] theorem modGth_pcl (s : State) (f : GthSt → GthSt) : (modGth s f).pcl = s.pcl := rfl
@[simp] theorem modGth_grd (s : State) (f : GthSt → GthSt) : (modGth s f).grd = s.grd := rfl
@[simp] theorem modGth_por (s : State) (f : GthSt → GthSt) : (modGth s f).por = s.por := rfl
@[simp] theorem modGth_mbs (s : State) (f : GthSt → GthSt) : (modGth s f).mbs = s.mbs := rfl
@[simp] theorem modGth_pur (s : State) (f : GthSt → GthSt) : (modGth s f).pur = s.pur := rfl
@[simp] theorem modGth_sec (s : State) (f : GthSt → GthSt) : (modGth s f).sec = s.sec := rfl
@[simp] theorem modGth_pending (s : State) (f : GthSt → GthSt) : (modGth s f).pending = s.pending := rfl
@[simp] theorem modGth_outs (s : State) (f : GthSt → GthSt) : (modGth s f).outs = s.outs := rfl
@[simp] theorem modGth_freeCtr (s : State) (f : GthSt → GthSt) : (modGth s f).freeCtr = s.freeCtr := rfl

@[simp] theorem modSec_hub (s : State) (f : SecSt → SecSt) : (modSec s f).hub = s.hub := rfl
@[simp] theorem modSec_pwr (s : State) (f : SecSt → SecSt) : (modSec s f).pwr = s.pwr := rfl
@[simp] theorem modSec_evt (s : State) (f : SecSt → SecSt) : (modSec s f).evt = s.evt := rfl
@[simp] theorem modSec_prt (s : State) (f : SecSt → SecSt) : (modSec s f).prt = s.prt := rfl
@[simp] theorem modSec_engs (s : State) (f : SecSt → SecSt) : (modSec s f).engs = s.engs := rfl
@[simp] theorem modSec_mem (s : State) (f : SecSt → SecSt) : (modSec s f).mem = s.mem := rfl
@[simp] theorem modSec_cores (s : State) (f : SecSt → SecSt) : (modSec s f).cores = s.cores := rfl
@[simp] theorem modSec_slip (s : State) (f : SecSt → SecSt) : (modSec s f).slip = s.slip := rfl
@[simp] theorem modSec_fry (s : State) (f : SecSt → SecSt) : (modSec s f).fry = s.fry := rfl
@[simp] theorem modSec_barges (s : State) (f : SecSt → SecSt) : (modSec s f).barges = s.barges := rfl
@[simp] theorem modSec_routers (s : State) (f : SecSt → SecSt) : (modSec s f).routers = s.routers := rfl
@[simp] theorem modSec_ssus (s : State) (f : SecSt → SecSt) : (modSec s f).ssus = s.ssus := rfl
@[simp] theorem modSec_pcl (s : State) (f : SecSt → SecSt) : (modSec s f).pcl = s.pcl := rfl
@[simp] theorem modSec_gth (s : State) (f : SecSt → SecSt) : (modSec s f).gth = s.gth := rfl
@[simp] theorem modSec_grd (s : State) (f : SecSt → SecSt) : (modSec s f).grd = s.grd := rfl
@[simp] theorem modSec_por (s : State) (f : SecSt → SecSt) : (modSec s f).por = s.por := rfl
@[simp] theorem modSec_mbs (s : State) (f : SecSt → SecSt) : (modSec s f).mbs = s.mbs := rfl
@[simp] theorem modSec_pur (s : State) (f : SecSt → SecSt) : (modSec s f).pur = s.pur := rfl
@[simp] theorem modSec_pending (s : State) (f : SecSt → SecSt) : (modSec s f).pending = s.pending := rfl
@[simp] theorem modSec_outs (s : State) (f : SecSt → SecSt) : (modSec s f).outs = s.outs := rfl
@[simp] theorem modSec_freeCtr (s : State) (f : SecSt → SecSt) : (modSec s f).freeCtr = s.freeCtr := rfl

@[simp] theorem modPwr_hub (s : State) (f : PwrSt → PwrSt) : (modPwr s f).hub = s.hub := rfl
@[simp] theorem modPwr_evt (s : State) (f : PwrSt → PwrSt) : (modPwr s f).evt = s.evt := rfl
@[simp] theorem modPwr_prt (s : State) (f : PwrSt → PwrSt) : (modPwr s f).prt = s.prt := rfl
@[simp] theorem modPwr_engs (s : State) (f : PwrSt → PwrSt) : (modPwr s f).engs = s.engs := rfl
@[simp] theorem modPwr_mem (s : State) (f : PwrSt → PwrSt) : (modPwr s f).mem = s.mem := rfl
@[simp] theorem modPwr_cores (s : State) (f : PwrSt → PwrSt) : (modPwr s f).cores = s.cores := rfl
@[simp] theorem modPwr_slip (s : State) (f : PwrSt → PwrSt) : (modPwr s f).slip = s.slip := rfl
@[simp] theorem modPwr_fry (s : State) (f : PwrSt → PwrSt) : (modPwr s f).fry = s.fry := rfl
@[simp] theorem modPwr_barges (s : State) (f : PwrSt → PwrSt) : (modPwr s f).barges = s.barges := rfl
@[simp] theorem modPwr_routers (s : State) (f : PwrSt → PwrSt) : (modPwr s f).routers = s.routers := rfl
@[simp] theorem modPwr_ssus (s : State) (f : PwrSt → PwrSt) : (modPwr s f).ssus = s.ssus := rfl
@[simp] theorem modPwr_pcl (s : State) (f : PwrSt → PwrSt) : (modPwr s f).pcl = s.pcl := rfl
@[simp] theorem modPwr_gth (s : State) (f : PwrSt → PwrSt) : (modPwr s f).gth = s.gth := rfl
@[simp] theorem modPwr_grd (s : State) (f : PwrSt → PwrSt) : (modPwr s f).grd = s.grd := rfl
@[simp] theorem modPwr_por (s : State) (f : PwrSt → PwrSt) : (modPwr s f).por = s.por := rfl
@[simp] theorem modPwr_mbs (s : State) (f : PwrSt → PwrSt) : (modPwr s f).mbs = s.mbs := rfl
@[simp] theorem modPwr_pur (s : State) (f : PwrSt → PwrSt) : (modPwr s f).pur = s.pur := rfl
@[simp] theorem modPwr_sec (s : State) (f : PwrSt → PwrSt) : (modPwr s f).sec = s.sec := rfl
@[simp] theorem modPwr_pending (s : State) (f : PwrSt → PwrSt) : (modPwr s f).pending = s.pending := rfl
@[simp] theorem modPwr_outs (s : State) (f : PwrSt → PwrSt) : (modPwr s f).outs = s.outs := rfl
@[simp] theorem modPwr_freeCtr (s : State) (f : PwrSt → PwrSt) : (modPwr s f).freeCtr = s.freeCtr := rfl

@[simp] theorem putColl_hub (s : State) (b : Nat) (c : Nat) (x : CollOp) : (putColl s b c x).hub = s.hub := rfl
@[simp] theorem putColl_pwr (s : State) (b : Nat) (c : Nat) (x : CollOp) : (putColl s b c x).pwr = s.pwr := rfl
@[simp] theorem putColl_evt (s : State) (b : Nat) (c : Nat) (x : CollOp) : (putColl s b c x).evt = s.evt := rfl
@[simp] theorem putColl_prt (s : State) (b : Nat) (c : Nat) (x : CollOp) : (putColl s b c x).prt = s.prt := rfl
@[simp] theorem putColl_engs (s : State) (b : Nat) (c : Nat) (x : CollOp) : (putColl s b c x).engs = s.engs := rfl
@[simp] theorem putColl_mem (s : State) (b : Nat) (c : Nat) (x : CollOp) : (putColl s b c x).mem = s.mem := rfl
@[simp] theorem putColl_cores (s : State) (b : Nat) (c : Nat) (x : CollOp) : (putColl s b c x).cores = s.cores := rfl
@[simp] theorem putColl_slip (s : State) (b : Nat) (c : Nat) (x : CollOp) : (putColl s b c x).slip = s.slip := rfl
@[simp] theorem putColl_fry (s : State) (b : Nat) (c : Nat) (x : CollOp) : (putColl s b c x).fry = s.fry := rfl
@[simp] theorem putColl_routers (s : State) (b : Nat) (c : Nat) (x : CollOp) : (putColl s b c x).routers = s.routers := rfl
@[simp] theorem putColl_ssus (s : State) (b : Nat) (c : Nat) (x : CollOp) : (putColl s b c x).ssus = s.ssus := rfl
@[simp] theorem putColl_pcl (s : State) (b : Nat) (c : Nat) (x : CollOp) : (putColl s b c x).pcl = s.pcl := rfl
@[simp] theorem putColl_gth (s : State) (b : Nat) (c : Nat) (x : CollOp) : (putColl s b c x).gth = s.gth := rfl
@[simp] theorem putColl_grd (s : State) (b : Nat) (c : Nat) (x : CollOp) : (putColl s b c x).grd = s.grd := rfl
@[simp] theorem putColl_por (s : State) (b : Nat) (c : Nat) (x : CollOp) : (putColl s b c x).por = s.por := rfl
@[simp] theorem putColl_mbs (s : State) (b : Nat) (c : Nat) (x : CollOp) : (putColl s b c x).mbs = s.mbs := rfl
@[simp] theorem putColl_pur (s : State) (b : Nat) (c : Nat) (x : CollOp) : (putColl s b c x).pur = s.pur := rfl
@[simp] theorem putColl_sec (s : State) (b : Nat) (c : Nat) (x : CollOp) : (putColl s b c x).sec = s.sec := rfl
@[simp] theorem putColl_pending (s : State) (b : Nat) (c : Nat) (x : CollOp) : (putColl s b c x).pending = s.pending := rfl
@[simp] theorem putColl_outs (s : State) (b : Nat) (c : Nat) (x : CollOp) : (putColl s b c x).outs = s.outs := rfl
@[simp] theorem putColl_freeCtr (s : State) (b : Nat) (c : Nat) (x : CollOp) : (putColl s b c x).freeCtr = s.freeCtr := rfl

/-! ### Lookups after updates -/

@[simp] theorem getEng_modEng (s : State) (e : Eng) (f : EngineSt → EngineSt) : getEng (modEng s e f) e = f (getEng s e) :=
  tabGet_tabMod_self _ _ _ _

theorem getEng_modEng_ne (s : State) {e e' : Eng} (f : EngineSt → EngineSt) (h : engKey e ≠ engKey e') :
    getEng (modEng s e f) e' = getEng s e' := tabGet_tabPut_ne _ _ _ h

@[simp] theorem getQ_modQ (s : State) (e : Eng) (c : Nat) (f : CtxQ → CtxQ) : getQ (modQ s e c f) e c = f (getQ s e c) := by
  simp [getQ, modQ]

theorem getQ_modQ_ctx (s : State) (e : Eng) {c c' : Nat} (f : CtxQ → CtxQ) (h : c ≠ c') :
    getQ (modQ s e c f) e c' = getQ s e c' := by
  simp [getQ, modQ, tabGet_tabMod, h]

theorem getQ_modQ_eng (s : State) {e e' : Eng} (c c' : Nat) (f : CtxQ → CtxQ) (h : engKey e ≠ engKey e') :
    getQ (modQ s e c f) e' c' = getQ s e' c' := by
  simp [getQ, modQ, getEng_modEng_ne s _ h]

@[simp] theorem getEng_modQ_fault (s : State) (e : Eng) (c : Nat) (f : CtxQ → CtxQ) :
    (getEng (modQ s e c f) e).fault = (getEng s e).fault := by simp [modQ]

@[simp] theorem getCtx_modCtx (s : State) (c : Nat) (f : CtxCfg → CtxCfg) : getCtx (modCtx s c f) c = f (getCtx s c) :=
  tabGet_tabMod_self _ _ _ _

theorem getCtx_modCtx_ne (s : State) {c c' : Nat} (f : CtxCfg → CtxCfg) (h : c ≠ c') :
    getCtx (modCtx s c f) c' = getCtx s c' := tabGet_tabPut_ne _ _ _ h

@[simp] theorem getPart_modPart (s : State) (p : Nat) (f : Partition → Partition) :
    getPart (modPart s p f) p = f (getPart s p) := tabGet_tabMod_self _ _ _ _

theorem getPart_modPart_ne (s : State) {p p' : Nat} (f : Partition → Partition) (h : p ≠ p') :
    getPart (modPart s p f) p' = getPart s p' := tabGet_tabPut_ne _ _ _ h

@[simp] theorem getMb_modMb (s : State) (m : Nat) (f : Mailbox → Mailbox) : getMb (modMb s m f) m = f (getMb s m) :=
  tabGet_tabPut_self _ _ _ _

theorem getMb_modMb_ne (s : State) {m m' : Nat} (f : Mailbox → Mailbox) (h : m ≠ m') :
    getMb (modMb s m f) m' = getMb s m' := tabGet_tabPut_ne _ _ _ h

@[simp] theorem getCmd_putCmd (s : State) (id : Nat) (c : PCmd) : getCmd (putCmd s id c) id = some c :=
  tabFind_tabPut_self _ _ _

@[simp] theorem getCore_modCore (s : State) (k : Nat) (f : CoreSt → CoreSt) : getCore (modCore s k f) k = f (getCore s k) :=
  tabGet_tabMod_self _ _ _ _

theorem getCore_modCore_ne (s : State) {k k' : Nat} (f : CoreSt → CoreSt) (h : k ≠ k') :
    getCore (modCore s k f) k' = getCore s k' := tabGet_tabPut_ne _ _ _ h

@[simp] theorem getBank_modBank (x : CoreSt) (a b : Nat) (f : Bank → Bank) :
    getBank (modBank x a b f) a b = f (getBank x a b) := tabGet_tabMod_self _ _ _ _

theorem getBank_modBank_ne (x : CoreSt) {a b a' b' : Nat} (f : Bank → Bank) (h : a * 2 + b ≠ a' * 2 + b') :
    getBank (modBank x a b f) a' b' = getBank x a' b' := tabGet_tabPut_ne _ _ _ h

@[simp] theorem getSq_modSq (s : State) (q : Nat) (f : SlipQ → SlipQ) : getSq (modSq s q f) q = f (getSq s q) :=
  tabGet_tabMod_self _ _ _ _

theorem getSq_modSq_ne (s : State) {q q' : Nat} (f : SlipQ → SlipQ) (h : q ≠ q') : getSq (modSq s q f) q' = getSq s q' :=
  tabGet_tabPut_ne _ _ _ h

@[simp] theorem getPort_modPort (s : State) (p : Nat) (f : PortSt → PortSt) : getPort (modPort s p f) p = f (getPort s p) :=
  tabGet_tabPut_self _ _ _ _

theorem getPort_modPort_ne (s : State) {p p' : Nat} (f : PortSt → PortSt) (h : p ≠ p') :
    getPort (modPort s p f) p' = getPort s p' := tabGet_tabPut_ne _ _ _ h

@[simp] theorem getReq_putReq (s : State) (rid : Nat) (r : Request) : getReq (putReq s rid r) rid = some r :=
  tabFind_tabPut_self _ _ _

end Sys2Proof.Laws
end

