-- ==== Sys2Proof/Laws/Events.lean ====
section
/-! SUPPORT. What entering an event does (spec/18 R462-R466), and what a register write comes to. -/

namespace Sys2Proof.Laws

open Sys2Proof.Machine

/-- Only the event log and what leaves the block change. -/
theorem logEntry_shape (s : State) (e : EvtEntry) : ∃ v o, logEntry s e = { s with evt := v, outs := o } := by
  simp only [logEntry]
  by_cases h : s.evt.buf ≥ 256
  · rw [if_pos h]; exact ⟨_, _, rfl⟩
  · rw [if_neg h]
    by_cases h' : s.evt.irqEn = true
    · rw [if_pos h']; exact ⟨_, _, rfl⟩
    · rw [if_neg h']; exact ⟨_, _, rfl⟩

/-- An event that finds the input buffer full is only counted. -/
theorem logEntry_full {s : State} (e : EvtEntry) (h : 256 ≤ s.evt.buf) :
    logEntry s e = { s with evt := { s.evt with drops := satAdd32 s.evt.drops 1 } } := by
  unfold logEntry
  rw [if_pos h]

/-- What stands in the event block after an event is entered. -/
theorem logEntry_evt {s : State} (e : EvtEntry) (h : s.evt.buf < 256) :
    (logEntry s e).evt = { s.evt with
      log := tabPut s.evt.log (s.evt.head.toNat % 65536) { e with seq := s.evt.head, time := s.hub.time }
      head := s.evt.head + 1
      tail := if s.evt.head.toNat - s.evt.tail.toNat ≥ 65536 then s.evt.tail + 1 else s.evt.tail
      drops := if s.evt.head.toNat - s.evt.tail.toNat ≥ 65536 then satAdd32 s.evt.drops 1 else s.evt.drops
      alert := s.evt.alert ||| BitVec.ofNat 8 (2 ^ (match e.code with | some c => c.cls | none => 0))
      buf := s.evt.buf + 1 } := by
  unfold logEntry
  rw [if_neg (by omega)]
  dsimp only
  split <;> rfl

theorem logEntry_outs {s : State} (e : EvtEntry) (h : s.evt.buf < 256) :
    (logEntry s e).outs = if s.evt.irqEn then .irq s.evt.irqHart.toNat .eventLog :: s.outs else s.outs := by
  unfold logEntry
  rw [if_neg (by omega)]
  dsimp only
  split <;> rfl

theorem logEntry_head {s : State} (e : EvtEntry) (h : s.evt.buf < 256) : (logEntry s e).evt.head = s.evt.head + 1 := by
  rw [logEntry_evt e h]

theorem logEntry_buf_le (s : State) (e : EvtEntry) : (logEntry s e).evt.buf ≤ s.evt.buf + 1 := by
  by_cases h : s.evt.buf < 256
  · rw [logEntry_evt e h]
  · rw [logEntry_full e (by omega)]; exact Nat.le_succ _

theorem logEntry_entry {s : State} (e : EvtEntry) (h : s.evt.buf < 256) :
    tabGet {} (logEntry s e).evt.log (s.evt.head.toNat % 65536) = { e with seq := s.evt.head, time := s.hub.time } := by
  rw [logEntry_evt e h]; exact tabGet_tabPut_self _ _ _ _

/-- A count of one more, that stops at its largest value (spec/18 R468). -/
theorem satAdd32_one (a : BitVec 32) : satAdd32 a 1 = if a = 0xFFFFFFFF then a else a + 1 := by
  unfold satAdd32
  split
  · subst a; rfl
  · rename_i h
    have h1 := a.isLt
    have h2 : a.toNat ≠ 0xFFFFFFFF := fun e => h (BitVec.eq_of_toNat_eq e)
    apply BitVec.eq_of_toNat_eq
    simp; omega

/-- A write of a register is what its block's table says of its offset. -/
theorem exec_registerWrite (a : Agent) (addr : Nat) (v : W64) (s : State) :
    exec (.registerWrite a addr v) s = execRegisterWrite a addr v s := rfl

/-- The hub blocks of Table 0-4 are 0x100_0000 bytes apart. -/
theorem blockOf_hub_block {k o : Nat} (hk : k < 10) (ho : o < 0x1000000) :
    (blockOf (0xF00000000000 + k * 0x1000000 + o)).map (·.2) = some o := by
  unfold blockOf
  rw [if_neg (by simp; omega)]
  dsimp only
  rw [if_pos (by omega), show (0xF00000000000 + k * 0x1000000 + o - 0xF00000000000) / 0x1000000 = k by omega,
    show (0xF00000000000 + k * 0x1000000 + o - 0xF00000000000) % 0x1000000 = o by omega]
  split <;> rfl

end Sys2Proof.Laws
end

