-- ==== Sys2Proof/Laws/Frame.lean ====
section
/-! SUPPORT. Frames: which parts of the state a function may change. A mask has one bit per field of State, in the order
of its declaration; `Fr m s t` says that t differs from s in parts of the mask only, and that memory keeps its canonical
form. -/

namespace Sys2Proof.Laws

open Sys2Proof.Machine

/-- Outside the mask the two states agree; memory keeps its canonical form. -/
structure Fr (m : Nat) (s t : State) : Prop where
  hub : m.testBit 0 = true ∨ t.hub = s.hub
  pwr : m.testBit 1 = true ∨ t.pwr = s.pwr
  evt : m.testBit 2 = true ∨ t.evt = s.evt
  prt : m.testBit 3 = true ∨ t.prt = s.prt
  engs : m.testBit 4 = true ∨ t.engs = s.engs
  mem : m.testBit 5 = true ∨ t.mem = s.mem
  cores : m.testBit 6 = true ∨ t.cores = s.cores
  slip : m.testBit 7 = true ∨ t.slip = s.slip
  fry : m.testBit 8 = true ∨ t.fry = s.fry
  barges : m.testBit 9 = true ∨ t.barges = s.barges
  routers : m.testBit 10 = true ∨ t.routers = s.routers
  ssus : m.testBit 11 = true ∨ t.ssus = s.ssus
  pcl : m.testBit 12 = true ∨ t.pcl = s.pcl
  gth : m.testBit 13 = true ∨ t.gth = s.gth
  grd : m.testBit 14 = true ∨ t.grd = s.grd
  por : m.testBit 15 = true ∨ t.por = s.por
  mbs : m.testBit 16 = true ∨ t.mbs = s.mbs
  pur : m.testBit 17 = true ∨ t.pur = s.pur
  sec : m.testBit 18 = true ∨ t.sec = s.sec
  pending : m.testBit 19 = true ∨ t.pending = s.pending
  outs : m.testBit 20 = true ∨ t.outs = s.outs
  freeCtr : m.testBit 21 = true ∨ t.freeCtr = s.freeCtr
  wf : Memory.wf s.mem.bytes = true → Memory.wf t.mem.bytes = true

theorem Fr.refl (m : Nat) (s : State) : Fr m s s := ⟨.inr rfl, .inr rfl, .inr rfl, .inr rfl, .inr rfl, .inr rfl, .inr rfl, .inr rfl, .inr rfl, .inr rfl, .inr rfl, .inr rfl, .inr rfl, .inr rfl, .inr rfl, .inr rfl, .inr rfl, .inr rfl, .inr rfl, .inr rfl, .inr rfl, .inr rfl, id⟩

theorem testBit_of_lor {k m i : Nat} (h : k ||| m = m) (hk : k.testBit i = true) : m.testBit i = true := by
  rw [← h, Nat.testBit_or, hk, Bool.true_or]

theorem or_trans {α : Type} {k m : Bool} {a b c : α} (hk : k = true → m = true) (h : k = true ∨ c = b)
    (h' : m = true ∨ b = a) : m = true ∨ c = a :=
  h.elim (fun x => .inl (hk x)) fun x => h'.imp id fun y => x.trans y

/-- A function that keeps to a smaller mask comes after work that keeps to the mask. -/
theorem Fr.step {k m : Nat} {s t u : State} (h' : Fr k t u) (hk : k ||| m = m) (h : Fr m s t) : Fr m s u where
  hub := or_trans (testBit_of_lor hk) h'.hub h.hub
  pwr := or_trans (testBit_of_lor hk) h'.pwr h.pwr
  evt := or_trans (testBit_of_lor hk) h'.evt h.evt
  prt := or_trans (testBit_of_lor hk) h'.prt h.prt
  engs := or_trans (testBit_of_lor hk) h'.engs h.engs
  mem := or_trans (testBit_of_lor hk) h'.mem h.mem
  cores := or_trans (testBit_of_lor hk) h'.cores h.cores
  slip := or_trans (testBit_of_lor hk) h'.slip h.slip
  fry := or_trans (testBit_of_lor hk) h'.fry h.fry
  barges := or_trans (testBit_of_lor hk) h'.barges h.barges
  routers := or_trans (testBit_of_lor hk) h'.routers h.routers
  ssus := or_trans (testBit_of_lor hk) h'.ssus h.ssus
  pcl := or_trans (testBit_of_lor hk) h'.pcl h.pcl
  gth := or_trans (testBit_of_lor hk) h'.gth h.gth
  grd := or_trans (testBit_of_lor hk) h'.grd h.grd
  por := or_trans (testBit_of_lor hk) h'.por h.por
  mbs := or_trans (testBit_of_lor hk) h'.mbs h.mbs
  pur := or_trans (testBit_of_lor hk) h'.pur h.pur
  sec := or_trans (testBit_of_lor hk) h'.sec h.sec
  pending := or_trans (testBit_of_lor hk) h'.pending h.pending
  outs := or_trans (testBit_of_lor hk) h'.outs h.outs
  freeCtr := or_trans (testBit_of_lor hk) h'.freeCtr h.freeCtr
  wf := fun x => h'.wf (h.wf x)

theorem Fr.ite {m : Nat} {s a b : State} {c : Prop} [Decidable c] (ha : c → Fr m s a) (hb : ¬c → Fr m s b) :
    Fr m s (if c then a else b) := by
  by_cases h : c
  · rw [if_pos h]; exact ha h
  · rw [if_neg h]; exact hb h

theorem Fr.foldl {α : Type} {m : Nat} {s : State} {f : State → α → State} (hf : ∀ t x, Fr m s t → Fr m s (f t x))
    (l : List α) {t : State} (h : Fr m s t) : Fr m s (l.foldl f t) := by
  induction l generalizing t with
  | nil => exact h
  | cons x l ih => exact ih (hf t x h)

theorem Fr.setHub {m : Nat} {s t : State} {x0 : HubSt} (hm : 1 ||| m = m)
    (h : Fr m s t) : Fr m s { t with hub := x0 } :=
  ⟨.inl (testBit_of_lor hm rfl), h.pwr, h.evt, h.prt, h.engs, h.mem, h.cores, h.slip, h.fry, h.barges, h.routers, h.ssus, h.pcl, h.gth, h.grd, h.por, h.mbs, h.pur, h.sec, h.pending, h.outs, h.freeCtr, h.wf⟩

theorem Fr.setPwr {m : Nat} {s t : State} {x0 : PwrSt} (hm : 2 ||| m = m)
    (h : Fr m s t) : Fr m s { t with pwr := x0 } :=
  ⟨h.hub, .inl (testBit_of_lor hm rfl), h.evt, h.prt, h.engs, h.mem, h.cores, h.slip, h.fry, h.barges, h.routers, h.ssus, h.pcl, h.gth, h.grd, h.por, h.mbs, h.pur, h.sec, h.pending, h.outs, h.freeCtr, h.wf⟩

theorem Fr.setEvt {m : Nat} {s t : State} {x0 : EvtSt} (hm : 4 ||| m = m)
    (h : Fr m s t) : Fr m s { t with evt := x0 } :=
  ⟨h.hub, h.pwr, .inl (testBit_of_lor hm rfl), h.prt, h.engs, h.mem, h.cores, h.slip, h.fry, h.barges, h.routers, h.ssus, h.pcl, h.gth, h.grd, h.por, h.mbs, h.pur, h.sec, h.pending, h.outs, h.freeCtr, h.wf⟩

theorem Fr.setPrt {m : Nat} {s t : State} {x0 : PrtSt} (hm : 8 ||| m = m)
    (h : Fr m s t) : Fr m s { t with prt := x0 } :=
  ⟨h.hub, h.pwr, h.evt, .inl (testBit_of_lor hm rfl), h.engs, h.mem, h.cores, h.slip, h.fry, h.barges, h.routers, h.ssus, h.pcl, h.gth, h.grd, h.por, h.mbs, h.pur, h.sec, h.pending, h.outs, h.freeCtr, h.wf⟩

theorem Fr.setEngs {m : Nat} {s t : State} {x0 : (Tab EngineSt)} (hm : 16 ||| m = m)
    (h : Fr m s t) : Fr m s { t with engs := x0 } :=
  ⟨h.hub, h.pwr, h.evt, h.prt, .inl (testBit_of_lor hm rfl), h.mem, h.cores, h.slip, h.fry, h.barges, h.routers, h.ssus, h.pcl, h.gth, h.grd, h.por, h.mbs, h.pur, h.sec, h.pending, h.outs, h.freeCtr, h.wf⟩

theorem Fr.setMem {m : Nat} {s t : State} {x0 : MemSt} (hm : 32 ||| m = m) (hw : Memory.wf t.mem.bytes = true → Memory.wf x0.bytes = true)
    (h : Fr m s t) : Fr m s { t with mem := x0 } :=
  ⟨h.hub, h.pwr, h.evt, h.prt, h.engs, .inl (testBit_of_lor hm rfl), h.cores, h.slip, h.fry, h.barges, h.routers, h.ssus, h.pcl, h.gth, h.grd, h.por, h.mbs, h.pur, h.sec, h.pending, h.outs, h.freeCtr, fun x => hw (h.wf x)⟩

theorem Fr.setCores {m : Nat} {s t : State} {x0 : (Tab CoreSt)} (hm : 64 ||| m = m)
    (h : Fr m s t) : Fr m s { t with cores := x0 } :=
  ⟨h.hub, h.pwr, h.evt, h.prt, h.engs, h.mem, .inl (testBit_of_lor hm rfl), h.slip, h.fry, h.barges, h.routers, h.ssus, h.pcl, h.gth, h.grd, h.por, h.mbs, h.pur, h.sec, h.pending, h.outs, h.freeCtr, h.wf⟩

theorem Fr.setSlip {m : Nat} {s t : State} {x0 : SlipSt} (hm : 128 ||| m = m)
    (h : Fr m s t) : Fr m s { t with slip := x0 } :=
  ⟨h.hub, h.pwr, h.evt, h.prt, h.engs, h.mem, h.cores, .inl (testBit_of_lor hm rfl), h.fry, h.barges, h.routers, h.ssus, h.pcl, h.gth, h.grd, h.por, h.mbs, h.pur, h.sec, h.pending, h.outs, h.freeCtr, h.wf⟩

theorem Fr.setFry {m : Nat} {s t : State} {x0 : FrySt} (hm : 256 ||| m = m)
    (h : Fr m s t) : Fr m s { t with fry := x0 } :=
  ⟨h.hub, h.pwr, h.evt, h.prt, h.engs, h.mem, h.cores, h.slip, .inl (testBit_of_lor hm rfl), h.barges, h.routers, h.ssus, h.pcl, h.gth, h.grd, h.por, h.mbs, h.pur, h.sec, h.pending, h.outs, h.freeCtr, h.wf⟩

theorem Fr.setBarges {m : Nat} {s t : State} {x0 : BargeSt} (hm : 512 ||| m = m)
    (h : Fr m s t) : Fr m s { t with barges := x0 } :=
  ⟨h.hub, h.pwr, h.evt, h.prt, h.engs, h.mem, h.cores, h.slip, h.fry, .inl (testBit_of_lor hm rfl), h.routers, h.ssus, h.pcl, h.gth, h.grd, h.por, h.mbs, h.pur, h.sec, h.pending, h.outs, h.freeCtr, h.wf⟩

theorem Fr.setRouters {m : Nat} {s t : State} {x0 : (Tab RouterSt)} (hm : 1024 ||| m = m)
    (h : Fr m s t) : Fr m s { t with routers := x0 } :=
  ⟨h.hub, h.pwr, h.evt, h.prt, h.engs, h.mem, h.cores, h.slip, h.fry, h.barges, .inl (testBit_of_lor hm rfl), h.ssus, h.pcl, h.gth, h.grd, h.por, h.mbs, h.pur, h.sec, h.pending, h.outs, h.freeCtr, h.wf⟩

theorem Fr.setSsus {m : Nat} {s t : State} {x0 : (Tab SsuSt)} (hm : 2048 ||| m = m)
    (h : Fr m s t) : Fr m s { t with ssus := x0 } :=
  ⟨h.hub, h.pwr, h.evt, h.prt, h.engs, h.mem, h.cores, h.slip, h.fry, h.barges, h.routers, .inl (testBit_of_lor hm rfl), h.pcl, h.gth, h.grd, h.por, h.mbs, h.pur, h.sec, h.pending, h.outs, h.freeCtr, h.wf⟩

theorem Fr.setPcl {m : Nat} {s t : State} {x0 : PclSt} (hm : 4096 ||| m = m)
    (h : Fr m s t) : Fr m s { t with pcl := x0 } :=
  ⟨h.hub, h.pwr, h.evt, h.prt, h.engs, h.mem, h.cores, h.slip, h.fry, h.barges, h.routers, h.ssus, .inl (testBit_of_lor hm rfl), h.gth, h.grd, h.por, h.mbs, h.pur, h.sec, h.pending, h.outs, h.freeCtr, h.wf⟩

theorem Fr.setGth {m : Nat} {s t : State} {x0 : GthSt} (hm : 8192 ||| m = m)
    (h : Fr m s t) : Fr m s { t with gth := x0 } :=
  ⟨h.hub, h.pwr, h.evt, h.prt, h.engs, h.mem, h.cores, h.slip, h.fry, h.barges, h.routers, h.ssus, h.pcl, .inl (testBit_of_lor hm rfl), h.grd, h.por, h.mbs, h.pur, h.sec, h.pending, h.outs, h.freeCtr, h.wf⟩

theorem Fr.setGrd {m : Nat} {s t : State} {x0 : GrdSt} (hm : 16384 ||| m = m)
    (h : Fr m s t) : Fr m s { t with grd := x0 } :=
  ⟨h.hub, h.pwr, h.evt, h.prt, h.engs, h.mem, h.cores, h.slip, h.fry, h.barges, h.routers, h.ssus, h.pcl, h.gth, .inl (testBit_of_lor hm rfl), h.por, h.mbs, h.pur, h.sec, h.pending, h.outs, h.freeCtr, h.wf⟩

theorem Fr.setPor {m : Nat} {s t : State} {x0 : PorSt} (hm : 32768 ||| m = m)
    (h : Fr m s t) : Fr m s { t with por := x0 } :=
  ⟨h.hub, h.pwr, h.evt, h.prt, h.engs, h.mem, h.cores, h.slip, h.fry, h.barges, h.routers, h.ssus, h.pcl, h.gth, h.grd, .inl (testBit_of_lor hm rfl), h.mbs, h.pur, h.sec, h.pending, h.outs, h.freeCtr, h.wf⟩

theorem Fr.setMbs {m : Nat} {s t : State} {x0 : (Tab Mailbox)} (hm : 65536 ||| m = m)
    (h : Fr m s t) : Fr m s { t with mbs := x0 } :=
  ⟨h.hub, h.pwr, h.evt, h.prt, h.engs, h.mem, h.cores, h.slip, h.fry, h.barges, h.routers, h.ssus, h.pcl, h.gth, h.grd, h.por, .inl (testBit_of_lor hm rfl), h.pur, h.sec, h.pending, h.outs, h.freeCtr, h.wf⟩

theorem Fr.setPur {m : Nat} {s t : State} {x0 : PurSt} (hm : 131072 ||| m = m)
    (h : Fr m s t) : Fr m s { t with pur := x0 } :=
  ⟨h.hub, h.pwr, h.evt, h.prt, h.engs, h.mem, h.cores, h.slip, h.fry, h.barges, h.routers, h.ssus, h.pcl, h.gth, h.grd, h.por, h.mbs, .inl (testBit_of_lor hm rfl), h.sec, h.pending, h.outs, h.freeCtr, h.wf⟩

theorem Fr.setSec {m : Nat} {s t : State} {x0 : SecSt} (hm : 262144 ||| m = m)
    (h : Fr m s t) : Fr m s { t with sec := x0 } :=
  ⟨h.hub, h.pwr, h.evt, h.prt, h.engs, h.mem, h.cores, h.slip, h.fry, h.barges, h.routers, h.ssus, h.pcl, h.gth, h.grd, h.por, h.mbs, h.pur, .inl (testBit_of_lor hm rfl), h.pending, h.outs, h.freeCtr, h.wf⟩

theorem Fr.setPending {m : Nat} {s t : State} {x0 : (List Instr)} (hm : 524288 ||| m = m)
    (h : Fr m s t) : Fr m s { t with pending := x0 } :=
  ⟨h.hub, h.pwr, h.evt, h.prt, h.engs, h.mem, h.cores, h.slip, h.fry, h.barges, h.routers, h.ssus, h.pcl, h.gth, h.grd, h.por, h.mbs, h.pur, h.sec, .inl (testBit_of_lor hm rfl), h.outs, h.freeCtr, h.wf⟩

theorem Fr.setOuts {m : Nat} {s t : State} {x0 : (List Out)} (hm : 1048576 ||| m = m)
    (h : Fr m s t) : Fr m s { t with outs := x0 } :=
  ⟨h.hub, h.pwr, h.evt, h.prt, h.engs, h.mem, h.cores, h.slip, h.fry, h.barges, h.routers, h.ssus, h.pcl, h.gth, h.grd, h.por, h.mbs, h.pur, h.sec, h.pending, .inl (testBit_of_lor hm rfl), h.freeCtr, h.wf⟩

theorem Fr.setFreeCtr {m : Nat} {s t : State} {x0 : Nat} (hm : 2097152 ||| m = m)
    (h : Fr m s t) : Fr m s { t with freeCtr := x0 } :=
  ⟨h.hub, h.pwr, h.evt, h.prt, h.engs, h.mem, h.cores, h.slip, h.fry, h.barges, h.routers, h.ssus, h.pcl, h.gth, h.grd, h.por, h.mbs, h.pur, h.sec, h.pending, h.outs, .inl (testBit_of_lor hm rfl), h.wf⟩

theorem Fr.setMemFreeCtr {m : Nat} {s t : State} {x0 : MemSt} {x1 : Nat} (hm : 2097184 ||| m = m) (hw : Memory.wf t.mem.bytes = true → Memory.wf x0.bytes = true)
    (h : Fr m s t) : Fr m s { t with mem := x0, freeCtr := x1 } :=
  ⟨h.hub, h.pwr, h.evt, h.prt, h.engs, .inl (testBit_of_lor hm rfl), h.cores, h.slip, h.fry, h.barges, h.routers, h.ssus, h.pcl, h.gth, h.grd, h.por, h.mbs, h.pur, h.sec, h.pending, h.outs, .inl (testBit_of_lor hm rfl), fun x => hw (h.wf x)⟩

theorem Fr.setCoresFreeCtr {m : Nat} {s t : State} {x0 : (Tab CoreSt)} {x1 : Nat} (hm : 2097216 ||| m = m)
    (h : Fr m s t) : Fr m s { t with cores := x0, freeCtr := x1 } :=
  ⟨h.hub, h.pwr, h.evt, h.prt, h.engs, h.mem, .inl (testBit_of_lor hm rfl), h.slip, h.fry, h.barges, h.routers, h.ssus, h.pcl, h.gth, h.grd, h.por, h.mbs, h.pur, h.sec, h.pending, h.outs, .inl (testBit_of_lor hm rfl), h.wf⟩

theorem Fr.setHubEvtPrt {m : Nat} {s t : State} {x0 : HubSt} {x1 : EvtSt} {x2 : PrtSt} (hm : 13 ||| m = m)
    (h : Fr m s t) : Fr m s { t with hub := x0, evt := x1, prt := x2 } :=
  ⟨.inl (testBit_of_lor hm rfl), h.pwr, .inl (testBit_of_lor hm rfl), .inl (testBit_of_lor hm rfl), h.engs, h.mem, h.cores, h.slip, h.fry, h.barges, h.routers, h.ssus, h.pcl, h.gth, h.grd, h.por, h.mbs, h.pur, h.sec, h.pending, h.outs, h.freeCtr, h.wf⟩

theorem Fr.setMemPurSec {m : Nat} {s t : State} {x0 : MemSt} {x1 : PurSt} {x2 : SecSt} (hm : 393248 ||| m = m) (hw : Memory.wf t.mem.bytes = true → Memory.wf x0.bytes = true)
    (h : Fr m s t) : Fr m s { t with mem := x0, pur := x1, sec := x2 } :=
  ⟨h.hub, h.pwr, h.evt, h.prt, h.engs, .inl (testBit_of_lor hm rfl), h.cores, h.slip, h.fry, h.barges, h.routers, h.ssus, h.pcl, h.gth, h.grd, h.por, h.mbs, .inl (testBit_of_lor hm rfl), .inl (testBit_of_lor hm rfl), h.pending, h.outs, h.freeCtr, fun x => hw (h.wf x)⟩

theorem Fr.setHubPwrPrtMemFrySec {m : Nat} {s t : State} {x0 : HubSt} {x1 : PwrSt} {x2 : PrtSt} {x3 : MemSt} {x4 : FrySt} {x5 : SecSt} (hm : 262443 ||| m = m) (hw : Memory.wf t.mem.bytes = true → Memory.wf x3.bytes = true)
    (h : Fr m s t) : Fr m s { t with hub := x0, pwr := x1, prt := x2, mem := x3, fry := x4, sec := x5 } :=
  ⟨.inl (testBit_of_lor hm rfl), .inl (testBit_of_lor hm rfl), h.evt, .inl (testBit_of_lor hm rfl), h.engs, .inl (testBit_of_lor hm rfl), h.cores, h.slip, .inl (testBit_of_lor hm rfl), h.barges, h.routers, h.ssus, h.pcl, h.gth, h.grd, h.por, h.mbs, h.pur, .inl (testBit_of_lor hm rfl), h.pending, h.outs, h.freeCtr, fun x => hw (h.wf x)⟩

theorem Fr.setPwrFrySecPendingOutsFreeCtr {m : Nat} {s t : State} {x0 : PwrSt} {x1 : FrySt} {x2 : SecSt} {x3 : (List Instr)} {x4 : (List Out)} {x5 : Nat} (hm : 3932418 ||| m = m)
    (h : Fr m s t) : Fr m s { t with pwr := x0, fry := x1, sec := x2, pending := x3, outs := x4, freeCtr := x5 } :=
  ⟨h.hub, .inl (testBit_of_lor hm rfl), h.evt, h.prt, h.engs, h.mem, h.cores, h.slip, .inl (testBit_of_lor hm rfl), h.barges, h.routers, h.ssus, h.pcl, h.gth, h.grd, h.por, h.mbs, h.pur, .inl (testBit_of_lor hm rfl), .inl (testBit_of_lor hm rfl), .inl (testBit_of_lor hm rfl), .inl (testBit_of_lor hm rfl), h.wf⟩

theorem Fr.setEngsMemCoresSlipFryBargesRoutersSsusPclGthGrdPur {m : Nat} {s t : State} {x0 : (Tab EngineSt)} {x1 : MemSt} {x2 : (Tab CoreSt)} {x3 : SlipSt} {x4 : FrySt} {x5 : BargeSt} {x6 : (Tab RouterSt)} {x7 : (Tab SsuSt)} {x8 : PclSt} {x9 : GthSt} {x10 : GrdSt} {x11 : PurSt} (hm : 163824 ||| m = m) (hw : Memory.wf t.mem.bytes = true → Memory.wf x1.bytes = true)
    (h : Fr m s t) : Fr m s { t with engs := x0, mem := x1, cores := x2, slip := x3, fry := x4, barges := x5, routers := x6, ssus := x7, pcl := x8, gth := x9, grd := x10, pur := x11 } :=
  ⟨h.hub, h.pwr, h.evt, h.prt, .inl (testBit_of_lor hm rfl), .inl (testBit_of_lor hm rfl), .inl (testBit_of_lor hm rfl), .inl (testBit_of_lor hm rfl), .inl (testBit_of_lor hm rfl), .inl (testBit_of_lor hm rfl), .inl (testBit_of_lor hm rfl), .inl (testBit_of_lor hm rfl), .inl (testBit_of_lor hm rfl), .inl (testBit_of_lor hm rfl), .inl (testBit_of_lor hm rfl), h.por, h.mbs, .inl (testBit_of_lor hm rfl), h.sec, h.pending, h.outs, h.freeCtr, fun x => hw (h.wf x)⟩

theorem Fr.foldl_fst {α β : Type} {m : Nat} {s : State} {f : State × β → α → State × β}
    (hf : ∀ p x, Fr m s p.1 → Fr m s (f p x).1) (l : List α) {p : State × β} (h : Fr m s p.1) :
    Fr m s (l.foldl f p).1 := by
  induction l generalizing p with
  | nil => exact h
  | cons x l ih => exact ih (hf p x h)

theorem Fr.foldl_snd {α β : Type} {m : Nat} {s : State} {f : β × State → α → β × State}
    (hf : ∀ p x, Fr m s p.2 → Fr m s (f p x).2) (l : List α) {p : β × State} (h : Fr m s p.2) :
    Fr m s (l.foldl f p).2 := by
  induction l generalizing p with
  | nil => exact h
  | cons x l ih => exact ih (hf p x h)

/-! Work that may stop with a status -/

/-- Work that keeps to a mask. -/
structure AFr {α : Type} (m : Nat) (s : State) (a : Act α) : Prop where
  of (t : State) : Fr m s t → Fr m s (runActVal a t).2

theorem AFr.pure {α : Type} {m : Nat} {s : State} (x : α) : AFr m s (Pure.pure x) := ⟨fun _ h => h⟩

theorem AFr.throw {α : Type} {m : Nat} {s : State} (e : Status) : AFr m s (throw e : Act α) := ⟨fun _ h => h⟩

theorem AFr.bind {α β : Type} {m : Nat} {s : State} {a : Act α} {k : α → Act β} (ha : AFr m s a)
    (hk : ∀ x, AFr m s (k x)) : AFr m s (a >>= k) := by
  refine ⟨fun t h => ?_⟩
  have h1 := ha.of t h
  simp only [runActVal, ExceptT.run, Bind.bind, ExceptT.bind, ExceptT.mk, StateT.bind, ExceptT.bindCont] at h1 ⊢
  rcases hr : a t with ⟨r, u⟩
  rw [hr] at h1
  cases r with
  | ok x => exact (hk x).of u h1
  | error e => exact h1

theorem AFr.get_bind {β : Type} {m : Nat} {s : State} {k : State → Act β} (hk : ∀ t, Fr m s t → AFr m s (k t)) :
    AFr m s (get >>= k) := ⟨fun t h => (hk t h).of t h⟩

theorem AFr.get {m : Nat} {s : State} : AFr m s (get : Act State) := ⟨fun _ h => h⟩

theorem AFr.set {m : Nat} {s t : State} (h : Fr m s t) : AFr m s (set t : Act PUnit) := ⟨fun _ _ => h⟩

theorem AFr.modify {m : Nat} {s : State} {f : State → State} (hf : ∀ t, Fr m s t → Fr m s (f t)) :
    AFr m s (modify f : Act PUnit) := ⟨fun t h => hf t h⟩

theorem AFr.actMod {m : Nat} {s : State} {f : State → State} (hf : ∀ t, Fr m s t → Fr m s (f t)) :
    AFr m s (actMod f) := ⟨fun t h => hf t h⟩

theorem AFr.ite {α : Type} {m : Nat} {s : State} {c : Prop} [Decidable c] {a b : Act α} (ha : c → AFr m s a)
    (hb : ¬c → AFr m s b) : AFr m s (if c then a else b) := by
  by_cases h : c
  · rw [if_pos h]; exact ha h
  · rw [if_neg h]; exact hb h

theorem AFr.stopIf {m : Nat} {s : State} (b : Bool) (e : Status) : AFr m s (stopIf b e) := by
  cases b <;> exact ⟨fun _ h => h⟩

theorem AFr.map {α β : Type} {m : Nat} {s : State} {a : Act α} (f : α → β) (ha : AFr m s a) : AFr m s (f <$> a) := by
  refine ⟨fun t h => ?_⟩
  have h1 := ha.of t h
  simp only [runActVal, ExceptT.run, Functor.map, ExceptT.map, ExceptT.mk, StateT.bind, Bind.bind] at h1 ⊢
  rcases hr : a t with ⟨r, u⟩
  rw [hr] at h1
  cases r <;> exact h1

theorem AFr.foldlM {α β : Type} {m : Nat} {s : State} {f : β → α → Act β} (hf : ∀ b x, AFr m s (f b x)) (l : List α)
    (b : β) : AFr m s (l.foldlM f b) := by
  induction l generalizing b with
  | nil => exact AFr.pure b
  | cons x l ih => exact AFr.bind (hf b x) fun c => ih c

theorem AFr.mapM {α β : Type} {m : Nat} {s : State} {f : α → Act β} (hf : ∀ x, AFr m s (f x)) (l : List α) :
    AFr m s (l.mapM f) := by
  induction l with
  | nil => rw [List.mapM_nil]; exact AFr.pure []
  | cons x l ih =>
    rw [List.mapM_cons]
    exact AFr.bind (hf x) fun y => AFr.bind ih fun ys => AFr.pure (y :: ys)

theorem AFr.forM {α : Type} {m : Nat} {s : State} {f : α → Act PUnit} (hf : ∀ x, AFr m s (f x)) (l : List α) :
    AFr m s (l.forM f) := by
  induction l with
  | nil => exact AFr.pure PUnit.unit
  | cons x l ih => exact AFr.bind (hf x) fun _ => ih

/-- Running work keeps to its mask. -/
theorem AFr.val {α : Type} {m : Nat} {s t : State} {a : Act α} (ha : AFr m s a) (h : Fr m s t) :
    Fr m s (runActVal a t).2 := ha.of t h

theorem AFr.run {m : Nat} {s t : State} {a : Act Unit} (ha : AFr m s a) (h : Fr m s t) : Fr m s (runAct a t).2 := by
  have h1 := ha.of t h
  unfold runAct
  unfold runActVal at h1
  split <;> simp_all

theorem AFr.runSt {m : Nat} {s t : State} {a : Act Status} (ha : AFr m s a) (h : Fr m s t) :
    Fr m s (runActSt a t).2 := by
  have h1 := ha.of t h
  unfold runActSt
  unfold runActVal at h1
  split <;> simp_all

theorem AFr.run_eq {m : Nat} {s t u : State} {a : Act Unit} {x : Status} (e : runAct a t = (x, u)) (ha : AFr m s a)
    (h : Fr m s t) : Fr m s u := by
  have h1 := AFr.run ha h
  rw [e] at h1
  exact h1

theorem AFr.runSt_eq {m : Nat} {s t u : State} {a : Act Status} {x : Status} (e : runActSt a t = (x, u))
    (ha : AFr m s a) (h : Fr m s t) : Fr m s u := by
  have h1 := AFr.runSt ha h
  rw [e] at h1
  exact h1

theorem AFr.val_eq {α : Type} {m : Nat} {s t u : State} {a : Act α} {x : Except Status α}
    (e : runActVal a t = (x, u)) (ha : AFr m s a) (h : Fr m s t) : Fr m s u := by
  have h1 := AFr.val ha h
  rw [e] at h1
  exact h1

theorem sub_trans {a b c : Nat} (h : a ||| b = b) (h' : b ||| c = c) : a ||| c = c := by
  rw [← h', ← Nat.or_assoc, h]

/-- Work that keeps to a smaller mask wherever it starts. -/
theorem AFr.step {α : Type} {k m : Nat} {s : State} {a : Act α} (h : ∀ t, AFr k t a) (hk : k ||| m = m) : AFr m s a :=
  ⟨fun t ht => Fr.step ((h t).of t (Fr.refl k t)) hk ht⟩

end Sys2Proof.Laws
end

