-- ==== Sys2Proof/Laws/FramesBase.lean ====
section
/-! SUPPORT. Frames of the shared operations, engine queues, ports and cores: the parts of the state that each function may change. -/

namespace Sys2Proof.Laws

open Sys2Proof.Machine

set_option Elab.async false

/-! ### Ops -/

theorem modEng_fr {s : State} {e : Eng} {f : EngineSt → EngineSt} {mk : Nat} {s00 : State} (hmk : 16 ||| mk = mk) (hst : Fr mk s00 s) : Fr mk s00 (modEng s e f) := by
  refine Fr.step (k := 16) ?_ hmk hst
  clear hmk hst
  unfold modEng
  try dsimp only
  repeat' first | with_reducible exact Fr.refl _ _ | ((with_reducible apply Fr.setEngs); (focus decide))

theorem modQ_fr {s : State} {e : Eng} {c : Nat} {f : CtxQ → CtxQ} {mk : Nat} {s00 : State} (hmk : 16 ||| mk = mk) (hst : Fr mk s00 s) : Fr mk s00 (modQ s e c f) := by
  refine Fr.step (k := 16) ?_ hmk hst
  clear hmk hst
  unfold modQ
  try dsimp only
  repeat' first | with_reducible exact Fr.refl _ _ | ((with_reducible apply modEng_fr); (focus decide))

theorem modCtx_fr {s : State} {c : Nat} {f : CtxCfg → CtxCfg} {mk : Nat} {s00 : State} (hmk : 8 ||| mk = mk) (hst : Fr mk s00 s) : Fr mk s00 (modCtx s c f) := by
  refine Fr.step (k := 8) ?_ hmk hst
  clear hmk hst
  unfold modCtx
  try dsimp only
  repeat' first | with_reducible exact Fr.refl _ _ | ((with_reducible apply Fr.setPrt); (focus decide))

theorem modPart_fr {s : State} {p : Nat} {f : Partition → Partition} {mk : Nat} {s00 : State} (hmk : 8 ||| mk = mk) (hst : Fr mk s00 s) : Fr mk s00 (modPart s p f) := by
  refine Fr.step (k := 8) ?_ hmk hst
  clear hmk hst
  unfold modPart
  try dsimp only
  repeat' first | with_reducible exact Fr.refl _ _ | ((with_reducible apply Fr.setPrt); (focus decide))

theorem modMb_fr {s : State} {m : Nat} {f : Mailbox → Mailbox} {mk : Nat} {s00 : State} (hmk : 65536 ||| mk = mk) (hst : Fr mk s00 s) : Fr mk s00 (modMb s m f) := by
  refine Fr.step (k := 65536) ?_ hmk hst
  clear hmk hst
  unfold modMb
  try dsimp only
  repeat' first | with_reducible exact Fr.refl _ _ | ((with_reducible apply Fr.setMbs); (focus decide))

theorem putCmd_fr {s : State} {id : Nat} {c : PCmd} {mk : Nat} {s00 : State} (hmk : 131072 ||| mk = mk) (hst : Fr mk s00 s) : Fr mk s00 (putCmd s id c) := by
  refine Fr.step (k := 131072) ?_ hmk hst
  clear hmk hst
  unfold putCmd
  try dsimp only
  repeat' first | with_reducible exact Fr.refl _ _ | ((with_reducible apply Fr.setPur); (focus decide))

theorem takeFree_fr {s : State} {mk : Nat} {s00 : State} (hmk : 2097152 ||| mk = mk) (hst : Fr mk s00 s) : Fr mk s00 (takeFree s).2 := by
  refine Fr.step (k := 2097152) ?_ hmk hst
  clear hmk hst
  unfold takeFree
  try dsimp only
  repeat' first | with_reducible exact Fr.refl _ _ | ((with_reducible apply Fr.setFreeCtr); (focus decide))

theorem takeFree_eq {s : State} {y0 : Nat} {t00 : State} {mk : Nat} {s00 : State} (heq0 : takeFree s = (y0, t00)) (hmk : 2097152 ||| mk = mk)
    (hst : Fr mk s00 s) : Fr mk s00 t00 := by
  have h1 := @takeFree_fr s mk s00 hmk hst
  rw [heq0] at h1
  exact h1

theorem emit_fr {s : State} {o : Out} {mk : Nat} {s00 : State} (hmk : 1048576 ||| mk = mk) (hst : Fr mk s00 s) : Fr mk s00 (emit s o) := by
  refine Fr.step (k := 1048576) ?_ hmk hst
  clear hmk hst
  unfold emit
  try dsimp only
  repeat' first | with_reducible exact Fr.refl _ _ | ((with_reducible apply Fr.setOuts); (focus decide))

/-! ### Flags -/

theorem logEntry_fr {s : State} {e : EvtEntry} {mk : Nat} {s00 : State} (hmk : 1048580 ||| mk = mk) (hst : Fr mk s00 s) : Fr mk s00 (logEntry s e) := by
  refine Fr.step (k := 1048580) ?_ hmk hst
  clear hmk hst
  unfold logEntry
  try dsimp only
  repeat' first | with_reducible exact Fr.refl _ _ | intro _ | ((with_reducible apply emit_fr); (focus decide)) | (with_reducible apply Fr.ite) | ((with_reducible apply Fr.setEvt); (focus decide))

theorem raise_fr {s : State} {code : EvtCode} {src : BitVec 16} {detail : Bytes} {mk : Nat} {s00 : State} (hmk : 1048580 ||| mk = mk) (hst : Fr mk s00 s) : Fr mk s00 (raise s code src detail) := by
  refine Fr.step (k := 1048580) ?_ hmk hst
  clear hmk hst
  unfold raise
  try dsimp only
  repeat' first | with_reducible assumption | with_reducible exact Fr.refl _ _ | intro _ | ((with_reducible apply logEntry_fr); (focus decide))

theorem protWrite_fr {s : State} {addr : Nat} {v : W64} {mk : Nat} {s00 : State} (hmk : 1048580 ||| mk = mk) (hst : Fr mk s00 s) : Fr mk s00 (protWrite s addr v) := by
  refine Fr.step (k := 1048580) ?_ hmk hst
  clear hmk hst
  unfold protWrite
  try dsimp only
  repeat' first | with_reducible exact Fr.refl _ _ | ((with_reducible apply raise_fr); (focus decide))

theorem ringRefused_fr {s : State} {src : BitVec 16} {addr : Nat} {v : W64} {mk : Nat} {s00 : State} (hmk : 1048580 ||| mk = mk) (hst : Fr mk s00 s) : Fr mk s00 (ringRefused s src addr v) := by
  refine Fr.step (k := 1048580) ?_ hmk hst
  clear hmk hst
  unfold ringRefused
  try dsimp only
  repeat' first | with_reducible exact Fr.refl _ _ | ((with_reducible apply raise_fr); (focus decide))

theorem faultHalt_fr {s : State} {e : Eng} {c : Nat} {q : QCmd} {st : Status} {o : Overflow} {mk : Nat} {s00 : State} (hmk : 1048596 ||| mk = mk) (hst : Fr mk s00 s) : Fr mk s00 (faultHalt s e c q st o) := by
  refine Fr.step (k := 1048596) ?_ hmk hst
  clear hmk hst
  unfold faultHalt
  try dsimp only
  repeat' first | with_reducible exact Fr.refl _ _ | intro _ | ((with_reducible apply modEng_fr); (focus decide)) | ((with_reducible apply logEntry_fr); (focus decide)) | ((with_reducible apply modQ_fr); (focus decide))

/-! ### Access -/

theorem chargePiece_fr {s : State} {p : Nat} {k : Nat} {n : Nat} {mk : Nat} {s00 : State} (hmk : 8 ||| mk = mk) (hst : Fr mk s00 s) : Fr mk s00 (chargePiece s p k n) := by
  refine Fr.step (k := 8) ?_ hmk hst
  clear hmk hst
  unfold chargePiece
  try dsimp only
  repeat' first | with_reducible exact Fr.refl _ _ | intro _ | ((with_reducible apply modPart_fr); (focus decide)) | (with_reducible apply Fr.ite)

theorem charge_fr {s : State} {p k f n : Nat} {m : Nat} {s0 : State} (hm : 8 ||| m = m) (h : Fr m s0 s) :
    Fr m s0 (charge s p k f n) := by
  induction f generalizing s n with
  | zero => exact h
  | succ f ih =>
    unfold charge
    split
    · exact chargePiece_fr hm h
    · exact ih (chargePiece_fr hm h)

theorem chargeFerry_fr {s : State} {c : Nat} {n : Nat} {mk : Nat} {s00 : State} (hmk : 8 ||| mk = mk) (hst : Fr mk s00 s) : Fr mk s00 (chargeFerry s c n) := by
  refine Fr.step (k := 8) ?_ hmk hst
  clear hmk hst
  unfold chargeFerry
  try dsimp only
  repeat' first | with_reducible exact Fr.refl _ _ | ((with_reducible apply charge_fr); (focus decide))

theorem modDeck_fr {s : State} {d : Nat} {f : DeckMem → DeckMem} {mk : Nat} {s00 : State} (hmk : 32 ||| mk = mk) (hst : Fr mk s00 s) : Fr mk s00 (modDeck s d f) := by
  refine Fr.step (k := 32) ?_ hmk hst
  clear hmk hst
  unfold modDeck
  try dsimp only
  repeat' first | with_reducible exact Fr.refl _ _ | ((with_reducible apply Fr.setMem); (focus decide); (focus exact fun h => h))

theorem modStack_fr {s : State} {k : Nat} {f : StackErr → StackErr} {mk : Nat} {s00 : State} (hmk : 32 ||| mk = mk) (hst : Fr mk s00 s) : Fr mk s00 (modStack s k f) := by
  refine Fr.step (k := 32) ?_ hmk hst
  clear hmk hst
  unfold modStack
  try dsimp only
  repeat' first | with_reducible exact Fr.refl _ _ | ((with_reducible apply Fr.setMem); (focus decide); (focus exact fun h => h))

theorem noteHbmBad_fr {s : State} {a : Nat} {scrub : Bool} {mk : Nat} {s00 : State} (hmk : 1048612 ||| mk = mk) (hst : Fr mk s00 s) : Fr mk s00 (noteHbmBad s a scrub) := by
  refine Fr.step (k := 1048612) ?_ hmk hst
  clear hmk hst
  unfold noteHbmBad
  try dsimp only
  repeat' first | with_reducible exact Fr.refl _ _ | ((with_reducible apply modStack_fr); (focus decide)) | ((with_reducible apply logEntry_fr); (focus decide))

theorem noteSramBad_fr {s : State} {src : BitVec 16} {a : Nat} {scrub : Bool} {mk : Nat} {s00 : State} (hmk : 1048612 ||| mk = mk) (hst : Fr mk s00 s) : Fr mk s00 (noteSramBad s src a scrub) := by
  refine Fr.step (k := 1048612) ?_ hmk hst
  clear hmk hst
  unfold noteSramBad
  try dsimp only
  repeat' first | with_reducible exact Fr.refl _ _ | ((with_reducible apply modDeck_fr); (focus decide)) | ((with_reducible apply logEntry_fr); (focus decide))

theorem noteBad_fr {s : State} {w : Who} {a : Nat} {mk : Nat} {s00 : State} (hmk : 1048612 ||| mk = mk) (hst : Fr mk s00 s) : Fr mk s00 (noteBad s w a) := by
  refine Fr.step (k := 1048612) ?_ hmk hst
  clear hmk hst
  unfold noteBad
  try dsimp only
  repeat' first | with_reducible exact Fr.refl _ _ | intro _ | ((with_reducible apply noteSramBad_fr); (focus decide)) | ((with_reducible apply noteHbmBad_fr); (focus decide)) | (with_reducible apply Fr.ite)

theorem chargeHbm_fr {s : State} {w : Who} {a : Nat} {n : Nat} {mk : Nat} {s00 : State} (hmk : 8 ||| mk = mk) (hst : Fr mk s00 s) : Fr mk s00 (chargeHbm s w a n) := by
  refine Fr.step (k := 8) ?_ hmk hst
  clear hmk hst
  unfold chargeHbm
  try dsimp only
  repeat' first | with_reducible exact Fr.refl _ _ | ((with_reducible apply chargePiece_fr); (focus decide)) | split

theorem rdPiece_fr {w : Who} {a : Nat} {n : Nat} {mk : Nat} {s00 : State} (hmk : 1048620 ||| mk = mk) : AFr mk s00 (rdPiece w a n) := by
  refine AFr.step (k := 1048620) (fun s00 => ?_) hmk
  clear hmk
  unfold rdPiece
  try dsimp only
  repeat' first | with_reducible assumption | with_reducible exact AFr.pure _ | with_reducible exact AFr.throw _ | intro _ | ((with_reducible apply noteBad_fr); (focus decide)) | ((with_reducible apply chargeHbm_fr); (focus decide)) | (with_reducible apply AFr.get_bind) | (with_reducible apply AFr.bind) | (with_reducible apply AFr.set) | split

theorem rd_fr {w : Who} {a : Nat} {n : Nat} {mk : Nat} {s00 : State} (hmk : 1048620 ||| mk = mk) : AFr mk s00 (rd w a n) := by
  refine AFr.step (k := 1048620) (fun s00 => ?_) hmk
  clear hmk
  unfold rd
  try dsimp only
  repeat' first | with_reducible exact AFr.pure _ | with_reducible exact AFr.stopIf _ _ | with_reducible exact AFr.get | intro _ | ((with_reducible apply rdPiece_fr); (focus decide)) | (with_reducible apply AFr.bind) | (with_reducible apply AFr.foldlM)

theorem foldl_wf {α : Type} {f : List Host.Cell → α → List Host.Cell}
    (hf : ∀ y q, Memory.wf y = true → Memory.wf (f y q) = true) (l : List α) (x : List Host.Cell)
    (h : Memory.wf x = true) : Memory.wf (l.foldl f x) = true := by
  induction l generalizing x with
  | nil => exact h
  | cons q l ih => exact ih _ (hf x q h)

theorem wrPiece_fr {s : State} {w : Who} {a : Nat} {b : Bytes} {m : Nat} {s0 : State} (hm : 1048620 ||| m = m)
    (h : Fr m s0 s) : Fr m s0 (wrPiece s w a b).1 := by
  refine Fr.step (k := 1048620) ?_ hm h
  clear hm h
  unfold wrPiece
  dsimp only
  refine Fr.foldl (fun t k ht => noteBad_fr (by decide) ht) _ (chargeHbm_fr (by decide) ?_)
  refine Fr.setMem (by decide) (fun hw => ?_) (Fr.refl _ _)
  dsimp only
  generalize (if isResident s a = true then (8 : Nat) else 32) = z
  generalize (if isResident s a = true then s.mem.badSram else s.mem.badHbm) = bad
  split
  · exact memWrite_wf _ _ _ hw
  · refine foldl_wf (fun y q hy => ?_) _ _ hw
    split
    · exact hy
    · exact memSet_wf _ _ _ hy

theorem wr_fr {w : Who} {a : Nat} {b : Bytes} {m : Nat} {s0 : State} (hm : 1048620 ||| m = m) : AFr m s0 (wr w a b) := by
  refine AFr.step (k := 1048620) (fun s0 => ?_) hm
  clear hm
  unfold wr
  refine AFr.get_bind fun t ht => AFr.bind (AFr.stopIf _ _) fun _ => AFr.bind (AFr.set ?_) fun _ => AFr.stopIf _ _
  refine Fr.foldl_fst (fun p x hp => ?_) _ ht
  exact wrPiece_fr (by decide) hp

theorem wrFree_fr {w : Who} {a : Nat} {n : Nat} {mk : Nat} {s00 : State} (hmk : 3145772 ||| mk = mk) : AFr mk s00 (wrFree w a n) := by
  refine AFr.step (k := 3145772) (fun s00 => ?_) hmk
  clear hmk
  unfold wrFree
  try dsimp only
  repeat' first | with_reducible assumption | intro _ | ((with_reducible apply wr_fr); (focus decide)) | (with_reducible apply AFr.get_bind) | (with_reducible apply AFr.bind) | (with_reducible apply AFr.set) | ((with_reducible apply Fr.setFreeCtr); (focus decide))

theorem rdNat_fr {w : Who} {a : Nat} {n : Nat} {mk : Nat} {s00 : State} (hmk : 1048620 ||| mk = mk) : AFr mk s00 (rdNat w a n) := by
  refine AFr.step (k := 1048620) (fun s00 => ?_) hmk
  clear hmk
  unfold rdNat
  try dsimp only
  repeat' first | with_reducible exact AFr.pure _ | intro _ | ((with_reducible apply rd_fr); (focus decide)) | (with_reducible apply AFr.bind)

theorem wrNat_fr {w : Who} {a : Nat} {n : Nat} {v : Nat} {mk : Nat} {s00 : State} (hmk : 1048620 ||| mk = mk) : AFr mk s00 (wrNat w a n v) := by
  refine AFr.step (k := 1048620) (fun s00 => ?_) hmk
  clear hmk
  unfold wrNat
  try dsimp only
  repeat' first | ((with_reducible apply wr_fr); (focus decide))

theorem writeBack_fr {s : State} {g : Nat} {mk : Nat} {s00 : State} (hmk : 1048612 ||| mk = mk) (hst : Fr mk s00 s) : Fr mk s00 (writeBack s g) := by
  refine Fr.step (k := 1048612) ?_ hmk hst
  clear hmk hst
  unfold writeBack
  try dsimp only
  repeat' first | with_reducible exact Fr.refl _ _ | intro _ | ((with_reducible apply raise_fr); (focus decide)) | ((with_reducible apply modDeck_fr); (focus decide)) | (with_reducible apply Fr.ite) | ((with_reducible apply Fr.setMem); (focus decide); (focus exact fun h => h))

theorem sendHome_fr {s : State} {g : Nat} {mk : Nat} {s00 : State} (hmk : 1048612 ||| mk = mk) (hst : Fr mk s00 s) : Fr mk s00 (sendHome s g) := by
  refine Fr.step (k := 1048612) ?_ hmk hst
  clear hmk hst
  unfold sendHome
  try dsimp only
  repeat' first | with_reducible assumption | with_reducible exact Fr.refl _ _ | intro _ | ((with_reducible apply writeBack_fr); (focus decide)) | split | ((with_reducible apply Fr.setMem); (focus decide); (focus exact fun h => h))

theorem evictOne_fr {s : State} {c : Nat} {st : Nat} {g : Nat} {mk : Nat} {s00 : State} (hmk : 1048620 ||| mk = mk) (hst : Fr mk s00 s) : Fr mk s00 (evictOne s c st g) := by
  refine Fr.step (k := 1048620) ?_ hmk hst
  clear hmk hst
  unfold evictOne
  try dsimp only
  repeat' first | with_reducible exact Fr.refl _ _ | intro _ | ((with_reducible apply sendHome_fr); (focus decide)) | ((with_reducible apply modDeck_fr); (focus decide)) | ((with_reducible apply chargePiece_fr); (focus decide)) | (with_reducible apply Fr.ite)

theorem makeRoom_fr {c st need f : Nat} {s : State} {m : Nat} {s0 : State} (hm : 1048620 ||| m = m) (h : Fr m s0 s) :
    Fr m s0 (makeRoom c st need f s).1 := by
  induction f generalizing s with
  | zero => exact h
  | succ f ih =>
    unfold makeRoom
    split
    · exact h
    · split
      · exact ih (evictOne_fr hm h)
      · exact h

theorem makeRoom_eq {c st need f : Nat} {s t : State} {y : Bool} {m : Nat} {s0 : State}
    (e : makeRoom c st need f s = (t, y)) (hm : 1048620 ||| m = m) (h : Fr m s0 s) : Fr m s0 t := by
  have h1 := @makeRoom_fr c st need f s m s0 hm h
  rw [e] at h1
  exact h1

theorem setGran_fr {s : State} {g : Nat} {x : Gran} {mk : Nat} {s00 : State} (hmk : 32 ||| mk = mk) (hst : Fr mk s00 s) : Fr mk s00 (setGran s g x) := by
  refine Fr.step (k := 32) ?_ hmk hst
  clear hmk hst
  unfold setGran
  try dsimp only
  repeat' first | with_reducible exact Fr.refl _ _ | ((with_reducible apply Fr.setMem); (focus decide); (focus exact fun h => h))

theorem countFetched_fr {s : State} {c : Nat} {st : Nat} {mk : Nat} {s00 : State} (hmk : 40 ||| mk = mk) (hst : Fr mk s00 s) : Fr mk s00 (countFetched s c st) := by
  refine Fr.step (k := 40) ?_ hmk hst
  clear hmk hst
  unfold countFetched
  try dsimp only
  repeat' first | with_reducible exact Fr.refl _ _ | ((with_reducible apply chargePiece_fr); (focus decide)) | ((with_reducible apply modDeck_fr); (focus decide))

/-! ### Ferry -/

theorem modFry_fr {s : State} {f : FrySt → FrySt} {mk : Nat} {s00 : State} (hmk : 256 ||| mk = mk) (hst : Fr mk s00 s) : Fr mk s00 (modFry s f) := by
  refine Fr.step (k := 256) ?_ hmk hst
  clear hmk hst
  unfold modFry
  try dsimp only
  repeat' first | with_reducible exact Fr.refl _ _ | ((with_reducible apply Fr.setFry); (focus decide))

theorem modPort_fr {s : State} {p : Nat} {f : PortSt → PortSt} {mk : Nat} {s00 : State} (hmk : 256 ||| mk = mk) (hst : Fr mk s00 s) : Fr mk s00 (modPort s p f) := by
  refine Fr.step (k := 256) ?_ hmk hst
  clear hmk hst
  unfold modPort
  try dsimp only
  repeat' first | with_reducible exact Fr.refl _ _ | ((with_reducible apply modFry_fr); (focus decide))

theorem modPath_fr {s : State} {p : Nat} {x : Nat} {f : PathSt → PathSt} {mk : Nat} {s00 : State} (hmk : 256 ||| mk = mk) (hst : Fr mk s00 s) : Fr mk s00 (modPath s p x f) := by
  refine Fr.step (k := 256) ?_ hmk hst
  clear hmk hst
  unfold modPath
  try dsimp only
  repeat' first | with_reducible exact Fr.refl _ _ | ((with_reducible apply modFry_fr); (focus decide))

theorem sendWire_fr {s : State} {p : Nat} {w : BitVec 48 × FFrame × Bytes} {mk : Nat} {s00 : State} (hmk : 1048832 ||| mk = mk) (hst : Fr mk s00 s) : Fr mk s00 (sendWire s p w) := by
  refine Fr.step (k := 1048832) ?_ hmk hst
  clear hmk hst
  unfold sendWire
  try dsimp only
  repeat' first | with_reducible exact Fr.refl _ _ | ((with_reducible apply emit_fr); (focus decide)) | ((with_reducible apply modPort_fr); (focus decide))

theorem transmit_fr {s : State} {p : Nat} {x : Nat} {f : FFrame} {mk : Nat} {s00 : State} (hmk : 1048832 ||| mk = mk) (hst : Fr mk s00 s) : Fr mk s00 (transmit s p x f) := by
  refine Fr.step (k := 1048832) ?_ hmk hst
  clear hmk hst
  unfold transmit
  try dsimp only
  repeat' first | with_reducible exact Fr.refl _ _ | intro _ | ((with_reducible apply modPath_fr); (focus decide)) | ((with_reducible apply modPort_fr); (focus decide)) | ((with_reducible apply sendWire_fr); (focus decide)) | (with_reducible apply Fr.ite)

theorem giveGrants_fr {s : State} {p : Nat} {x : Nat} {g : List Nat} {mk : Nat} {s00 : State} (hmk : 256 ||| mk = mk) (hst : Fr mk s00 s) : Fr mk s00 (giveGrants s p x g) := by
  refine Fr.step (k := 256) ?_ hmk hst
  clear hmk hst
  unfold giveGrants
  try dsimp only
  repeat' first | with_reducible exact Fr.refl _ _ | ((with_reducible apply modPath_fr); (focus decide))

theorem announceGrants_fr {s : State} {p : Nat} {mk : Nat} {s00 : State} (hmk : 1048832 ||| mk = mk) (hst : Fr mk s00 s) : Fr mk s00 (announceGrants s p) := by
  refine Fr.step (k := 1048832) ?_ hmk hst
  clear hmk hst
  unfold announceGrants
  try dsimp only
  repeat' first | with_reducible assumption | with_reducible exact Fr.refl _ _ | intro _ | ((with_reducible apply giveGrants_fr); (focus decide)) | ((with_reducible apply transmit_fr); (focus decide)) | (with_reducible apply Fr.foldl)

theorem sendSync_fr {s : State} {p : Nat} {x : Nat} {mk : Nat} {s00 : State} (hmk : 1048832 ||| mk = mk) (hst : Fr mk s00 s) : Fr mk s00 (sendSync s p x) := by
  refine Fr.step (k := 1048832) ?_ hmk hst
  clear hmk hst
  unfold sendSync
  try dsimp only
  repeat' first | with_reducible exact Fr.refl _ _ | ((with_reducible apply giveGrants_fr); (focus decide)) | ((with_reducible apply transmit_fr); (focus decide)) | split

theorem startSync_fr {s : State} {p : Nat} {x : Nat} {mk : Nat} {s00 : State} (hmk : 1048832 ||| mk = mk) (hst : Fr mk s00 s) : Fr mk s00 (startSync s p x) := by
  refine Fr.step (k := 1048832) ?_ hmk hst
  clear hmk hst
  unfold startSync
  try dsimp only
  repeat' first | with_reducible exact Fr.refl _ _ | ((with_reducible apply modPath_fr); (focus decide)) | ((with_reducible apply sendSync_fr); (focus decide)) | ((with_reducible apply announceGrants_fr); (focus decide))

theorem applyGrants_fr {s : State} {p : Nat} {x : Nat} {f : FFrame} {mk : Nat} {s00 : State} (hmk : 256 ||| mk = mk) (hst : Fr mk s00 s) : Fr mk s00 (applyGrants s p x f) := by
  refine Fr.step (k := 256) ?_ hmk hst
  clear hmk hst
  unfold applyGrants
  try dsimp only
  repeat' first | with_reducible exact Fr.refl _ _ | ((with_reducible apply modPath_fr); (focus decide)) | split

theorem applyAck_fr {s : State} {p : Nat} {x : Nat} {f : FFrame} {mk : Nat} {s00 : State} (hmk : 256 ||| mk = mk) (hst : Fr mk s00 s) : Fr mk s00 (applyAck s p x f) := by
  refine Fr.step (k := 256) ?_ hmk hst
  clear hmk hst
  unfold applyAck
  try dsimp only
  repeat' first | with_reducible exact Fr.refl _ _ | ((with_reducible apply modPath_fr); (focus decide))

theorem takeControl_fr {s : State} {p : Nat} {x : Nat} {f : FFrame} {mk : Nat} {s00 : State} (hmk : 256 ||| mk = mk) (hst : Fr mk s00 s) : Fr mk s00 (takeControl s p x f) := by
  refine Fr.step (k := 256) ?_ hmk hst
  clear hmk hst
  unfold takeControl
  try dsimp only
  repeat' first | with_reducible exact Fr.refl _ _ | ((with_reducible apply applyGrants_fr); (focus decide)) | ((with_reducible apply applyAck_fr); (focus decide))

theorem dropFrame_fr {s : State} {p : Nat} {mk : Nat} {s00 : State} (hmk : 256 ||| mk = mk) (hst : Fr mk s00 s) : Fr mk s00 (dropFrame s p) := by
  refine Fr.step (k := 256) ?_ hmk hst
  clear hmk hst
  unfold dropFrame
  try dsimp only
  repeat' first | with_reducible exact Fr.refl _ _ | ((with_reducible apply modPort_fr); (focus decide))

theorem queueFrame_fr {s : State} {p : Nat} {x : Nat} {f : FFrame} {mk : Nat} {s00 : State} (hmk : 256 ||| mk = mk) (hst : Fr mk s00 s) : Fr mk s00 (queueFrame s p x f) := by
  refine Fr.step (k := 256) ?_ hmk hst
  clear hmk hst
  unfold queueFrame
  try dsimp only
  repeat' first | with_reducible exact Fr.refl _ _ | ((with_reducible apply modPath_fr); (focus decide))

theorem replyTo_fr {s : State} {p : Nat} {f : FFrame} {op : Nat} {arg : Nat} {mk : Nat} {s00 : State} (hmk : 256 ||| mk = mk) (hst : Fr mk s00 s) : Fr mk s00 (replyTo s p f op arg) := by
  refine Fr.step (k := 256) ?_ hmk hst
  clear hmk hst
  unfold replyTo
  try dsimp only
  repeat' first | with_reducible exact Fr.refl _ _ | ((with_reducible apply queueFrame_fr); (focus decide))

theorem refuseOp_fr {s : State} {p : Nat} {f : FFrame} {st : Status} {mk : Nat} {s00 : State} (hmk : 256 ||| mk = mk) (hst : Fr mk s00 s) : Fr mk s00 (refuseOp s p f st) := by
  refine Fr.step (k := 256) ?_ hmk hst
  clear hmk hst
  unfold refuseOp
  try dsimp only
  repeat' first | with_reducible exact Fr.refl _ _ | ((with_reducible apply replyTo_fr); (focus decide))

theorem acceptFrame_fr {s : State} {p : Nat} {f : FFrame} {mk : Nat} {s00 : State} (hmk : 1048832 ||| mk = mk) (hst : Fr mk s00 s) : Fr mk s00 (acceptFrame s p f) := by
  refine Fr.step (k := 1048832) ?_ hmk hst
  clear hmk hst
  unfold acceptFrame
  try dsimp only
  repeat' first | with_reducible exact Fr.refl _ _ | intro _ | ((with_reducible apply modPath_fr); (focus decide)) | ((with_reducible apply modPort_fr); (focus decide)) | ((with_reducible apply transmit_fr); (focus decide)) | (with_reducible apply Fr.ite)

theorem acceptData_fr {s : State} {p : Nat} {f : FFrame} {mk : Nat} {s00 : State} (hmk : 1048832 ||| mk = mk) (hst : Fr mk s00 s) : Fr mk s00 (acceptData s p f).1 := by
  refine Fr.step (k := 1048832) ?_ hmk hst
  clear hmk hst
  unfold acceptData
  try dsimp only
  repeat' first | with_reducible exact Fr.refl _ _ | ((with_reducible apply dropFrame_fr); (focus decide)) | ((with_reducible apply takeControl_fr); (focus decide)) | ((with_reducible apply acceptFrame_fr); (focus decide)) | ((with_reducible apply modPath_fr); (focus decide)) | ((with_reducible apply transmit_fr); (focus decide)) | split

theorem acceptData_eq {s : State} {p : Nat} {f : FFrame} {y0 : Bool} {t00 : State} {mk : Nat} {s00 : State} (heq0 : acceptData s p f = (t00, y0)) (hmk : 1048832 ||| mk = mk)
    (hst : Fr mk s00 s) : Fr mk s00 t00 := by
  have h1 := @acceptData_fr s p f mk s00 hmk hst
  rw [heq0] at h1
  exact h1

theorem choosePort_fr {s : State} {x : Nat} {y0 : Nat} {t00 : State} {mk : Nat} {s00 : State} (heq0 : choosePort s x = some (y0, t00)) (hmk : 256 ||| mk = mk)
    (hst : Fr mk s00 s) : Fr mk s00 t00 := by
  refine Fr.step (k := 256) ?_ hmk hst
  clear hmk hst
  unfold choosePort at heq0
  try dsimp only at heq0
  repeat' split at heq0
  all_goals cases heq0
  repeat' first | with_reducible exact Fr.refl _ _ | ((with_reducible apply modFry_fr); (focus decide))

theorem startOp_fr {s : State} {p : Nat} {x : Nat} {total : Nat} {w : Waiter} {mk : Nat} {s00 : State} (hmk : 256 ||| mk = mk) (hst : Fr mk s00 s) : Fr mk s00 (startOp s p x total w).2 := by
  refine Fr.step (k := 256) ?_ hmk hst
  clear hmk hst
  unfold startOp
  try dsimp only
  repeat' first | with_reducible exact Fr.refl _ _ | ((with_reducible apply modFry_fr); (focus decide))

theorem startOp_eq {s : State} {p : Nat} {x : Nat} {total : Nat} {w : Waiter} {y0 : BitVec 32} {t00 : State} {mk : Nat} {s00 : State} (heq0 : startOp s p x total w = (y0, t00)) (hmk : 256 ||| mk = mk)
    (hst : Fr mk s00 s) : Fr mk s00 t00 := by
  have h1 := @startOp_fr s p x total w mk s00 hmk hst
  rw [heq0] at h1
  exact h1

theorem queueWrite_fr {s : State} {p : Nat} {x : Nat} {vc : Nat} {ctx : Nat} {tag : BitVec 32} {addr : Nat} {b : Bytes} {mk : Nat} {s00 : State} (hmk : 256 ||| mk = mk) (hst : Fr mk s00 s) : Fr mk s00 (queueWrite s p x vc ctx tag addr b) := by
  refine Fr.step (k := 256) ?_ hmk hst
  clear hmk hst
  unfold queueWrite
  try dsimp only
  repeat' first | with_reducible assumption | with_reducible exact Fr.refl _ _ | intro _ | ((with_reducible apply queueFrame_fr); (focus decide)) | (with_reducible apply Fr.foldl)

theorem purserSend_fr {s : State} {m : Nat} {msg : PurserMsg} {mk : Nat} {s00 : State} (hmk : 256 ||| mk = mk) (hst : Fr mk s00 s) : Fr mk s00 (purserSend s m msg) := by
  refine Fr.step (k := 256) ?_ hmk hst
  clear hmk hst
  unfold purserSend
  try dsimp only
  repeat' first | with_reducible exact Fr.refl _ _ | ((with_reducible apply choosePort_fr); assumption; (focus decide)) | ((with_reducible apply queueFrame_fr); (focus decide)) | split

theorem sendData_fr {s : State} {p : Nat} {x : Nat} {v : Nat} {mk : Nat} {s00 : State} (hmk : 1048832 ||| mk = mk) (hst : Fr mk s00 s) : Fr mk s00 (sendData s p x v) := by
  refine Fr.step (k := 1048832) ?_ hmk hst
  clear hmk hst
  unfold sendData
  try dsimp only
  repeat' first | with_reducible exact Fr.refl _ _ | ((with_reducible apply modPath_fr); (focus decide)) | ((with_reducible apply transmit_fr); (focus decide)) | split

theorem resend_fr {s : State} {p : Nat} {x : Nat} {fs : List FFrame} {mk : Nat} {s00 : State} (hmk : 1048832 ||| mk = mk) (hst : Fr mk s00 s) : Fr mk s00 (resend s p x fs) := by
  refine Fr.step (k := 1048832) ?_ hmk hst
  clear hmk hst
  unfold resend
  try dsimp only
  repeat' first | with_reducible assumption | with_reducible exact Fr.refl _ _ | intro _ | ((with_reducible apply modPort_fr); (focus decide)) | ((with_reducible apply transmit_fr); (focus decide)) | (with_reducible apply Fr.foldl)

/-! ### Engine -/

theorem takeTurn_fr {s : State} {e : Eng} {u : Nat} {c : Nat} {ready : List Nat} {t00 : State} {mk : Nat} {s00 : State} (heq0 : takeTurn s e u c ready = some t00) (hmk : 16 ||| mk = mk)
    (hst : Fr mk s00 s) : Fr mk s00 t00 := by
  refine Fr.step (k := 16) ?_ hmk hst
  clear hmk hst
  unfold takeTurn at heq0
  try dsimp only at heq0
  repeat' split at heq0
  all_goals cases heq0
  repeat' first | with_reducible exact Fr.refl _ _ | ((with_reducible apply modEng_fr); (focus decide))

theorem popQ_fr {s : State} {e : Eng} {c : Nat} {mk : Nat} {s00 : State} (hmk : 16 ||| mk = mk) (hst : Fr mk s00 s) : Fr mk s00 (popQ s e c) := by
  refine Fr.step (k := 16) ?_ hmk hst
  clear hmk hst
  unfold popQ
  try dsimp only
  repeat' first | with_reducible exact Fr.refl _ _ | ((with_reducible apply modQ_fr); (focus decide))

theorem modHead_fr {s : State} {e : Eng} {c : Nat} {f : QCmd → QCmd} {mk : Nat} {s00 : State} (hmk : 16 ||| mk = mk) (hst : Fr mk s00 s) : Fr mk s00 (modHead s e c f) := by
  refine Fr.step (k := 16) ?_ hmk hst
  clear hmk hst
  unfold modHead
  try dsimp only
  repeat' first | with_reducible exact Fr.refl _ _ | ((with_reducible apply modQ_fr); (focus decide))

theorem markHead_fr {s : State} {e : Eng} {c : Nat} {mk : Nat} {s00 : State} (hmk : 16 ||| mk = mk) (hst : Fr mk s00 s) : Fr mk s00 (markHead s e c) := by
  refine Fr.step (k := 16) ?_ hmk hst
  clear hmk hst
  unfold markHead
  try dsimp only
  repeat' first | with_reducible exact Fr.refl _ _ | ((with_reducible apply modHead_fr); (focus decide))

theorem countUnit_fr {s : State} {e : Eng} {c : Nat} {mk : Nat} {s00 : State} (hmk : 16 ||| mk = mk) (hst : Fr mk s00 s) : Fr mk s00 (countUnit s e c) := by
  refine Fr.step (k := 16) ?_ hmk hst
  clear hmk hst
  unfold countUnit
  try dsimp only
  repeat' first | with_reducible exact Fr.refl _ _ | ((with_reducible apply modHead_fr); (focus decide))

theorem endCmd_fr {s : State} {id : Nat} {st : Status} {detail : W64} {mk : Nat} {s00 : State} (hmk : 196608 ||| mk = mk) (hst : Fr mk s00 s) : Fr mk s00 (endCmd s id st detail) := by
  refine Fr.step (k := 196608) ?_ hmk hst
  clear hmk hst
  unfold endCmd
  try dsimp only
  repeat' first | with_reducible exact Fr.refl _ _ | ((with_reducible apply modMb_fr); (focus decide)) | split | ((with_reducible apply Fr.setPur); (focus decide))

theorem settleEnqueue_fr {s : State} {id : Nat} {mk : Nat} {s00 : State} (hmk : 196608 ||| mk = mk) (hst : Fr mk s00 s) : Fr mk s00 (settleEnqueue s id) := by
  refine Fr.step (k := 196608) ?_ hmk hst
  clear hmk hst
  unfold settleEnqueue
  try dsimp only
  repeat' first | with_reducible exact Fr.refl _ _ | ((with_reducible apply endCmd_fr); (focus decide)) | split

theorem moverDone_fr {s : State} {id m : Nat} {mk : Nat} {s00 : State} (hmk : 139520 ||| mk = mk) (hst : Fr mk s00 s) :
    Fr mk s00 (moverDone s id m) := by
  have h1 : Fr mk s00 { s with pur := { s.pur with cmds := tabDel s.pur.cmds id } } :=
    Fr.setPur (sub_trans (by decide) hmk) hst
  exact Fr.ite (fun _ => Fr.setGth (sub_trans (by decide) hmk) h1) fun _ =>
    purserSend_fr (sub_trans (by decide) hmk) h1

theorem stageReport_fr {s : State} {id : Nat} {i : Nat} {c : PCmd} {st : Status} {mk : Nat} {s00 : State} (hmk : 139520 ||| mk = mk) (hst : Fr mk s00 s) : Fr mk s00 (stageReport s id i c st) := by
  refine Fr.step (k := 139520) ?_ hmk hst
  clear hmk hst
  unfold stageReport
  try dsimp only
  repeat' first | with_reducible exact Fr.refl _ _ | ((with_reducible apply moverDone_fr); (focus decide)) | ((with_reducible apply putCmd_fr); (focus decide)) | split | ((with_reducible apply Fr.setPur); (focus decide))

theorem reportCmd_fr {s : State} {origin : Option (Nat × Nat)} {st : Status} {mk : Nat} {s00 : State} (hmk : 205056 ||| mk = mk) (hst : Fr mk s00 s) : Fr mk s00 (reportCmd s origin st) := by
  refine Fr.step (k := 205056) ?_ hmk hst
  clear hmk hst
  unfold reportCmd
  try dsimp only
  repeat' first | with_reducible exact Fr.refl _ _ | ((with_reducible apply stageReport_fr); (focus decide)) | ((with_reducible apply settleEnqueue_fr); (focus decide)) | ((with_reducible apply putCmd_fr); (focus decide)) | split

theorem modCore_fr {s : State} {k : Nat} {f : CoreSt → CoreSt} {mk : Nat} {s00 : State} (hmk : 64 ||| mk = mk) (hst : Fr mk s00 s) : Fr mk s00 (modCore s k f) := by
  refine Fr.step (k := 64) ?_ hmk hst
  clear hmk hst
  unfold modCore
  try dsimp only
  repeat' first | with_reducible exact Fr.refl _ _ | ((with_reducible apply Fr.setCores); (focus decide))

theorem writeProgress_fr {s : State} {k : Nat} {c : Nat} {m : MapRec} {closed : Bool} {mk : Nat} {s00 : State} (hmk : 1048620 ||| mk = mk) (hst : Fr mk s00 s) : Fr mk s00 (writeProgress s k c m closed).2 := by
  refine Fr.step (k := 1048620) ?_ hmk hst
  clear hmk hst
  unfold writeProgress
  try dsimp only
  repeat' first | with_reducible exact Fr.refl _ _ | ((with_reducible apply wr_fr); (focus decide)) | (with_reducible apply AFr.run) | split

theorem writeProgress_eq {s : State} {k : Nat} {c : Nat} {m : MapRec} {closed : Bool} {y0 : Status} {t00 : State} {mk : Nat} {s00 : State} (heq0 : writeProgress s k c m closed = (y0, t00)) (hmk : 1048620 ||| mk = mk)
    (hst : Fr mk s00 s) : Fr mk s00 t00 := by
  have h1 := @writeProgress_fr s k c m closed mk s00 hmk hst
  rw [heq0] at h1
  exact h1

theorem reportMap_fr {s : State} {k : Nat} {c : Nat} {id : Nat} {st : Status} {mk : Nat} {s00 : State} (hmk : 131328 ||| mk = mk) (hst : Fr mk s00 s) : Fr mk s00 (reportMap s k c id st) := by
  refine Fr.step (k := 131328) ?_ hmk hst
  clear hmk hst
  unfold reportMap
  try dsimp only
  repeat' first | with_reducible assumption | with_reducible exact Fr.refl _ _ | intro _ | ((with_reducible apply purserSend_fr); (focus decide)) | (with_reducible apply Fr.ite) | (with_reducible apply Fr.foldl) | ((with_reducible apply Fr.setPur); (focus decide))

theorem dropReports_fr {s : State} {m : Nat} {c : Nat} {id : Nat} {mk : Nat} {s00 : State} (hmk : 131072 ||| mk = mk) (hst : Fr mk s00 s) : Fr mk s00 (dropReports s m c id) := by
  refine Fr.step (k := 131072) ?_ hmk hst
  clear hmk hst
  unfold dropReports
  try dsimp only
  repeat' first | with_reducible exact Fr.refl _ _ | ((with_reducible apply Fr.setPur); (focus decide))

theorem mapIsNew_fr {s : State} {c : Nat} {id : Nat} {mk : Nat} {s00 : State} (hmk : 131328 ||| mk = mk) (hst : Fr mk s00 s) : Fr mk s00 (mapIsNew s c id) := by
  refine Fr.step (k := 131328) ?_ hmk hst
  clear hmk hst
  unfold mapIsNew
  try dsimp only
  repeat' first | with_reducible assumption | with_reducible exact Fr.refl _ _ | intro _ | ((with_reducible apply purserSend_fr); (focus decide)) | ((with_reducible apply dropReports_fr); (focus decide)) | (with_reducible apply Fr.ite) | (with_reducible apply Fr.foldl) | ((with_reducible apply Fr.setPur); (focus decide))

theorem mapFails_fr {s : State} {k : Nat} {c : Nat} {st : Status} {resource : Nat} {mk : Nat} {s00 : State} (hmk : 1180012 ||| mk = mk) (hst : Fr mk s00 s) : Fr mk s00 (mapFails s k c st resource) := by
  refine Fr.step (k := 1180012) ?_ hmk hst
  clear hmk hst
  unfold mapFails
  try dsimp only
  repeat' first | with_reducible assumption | with_reducible exact Fr.refl _ _ | intro _ | ((with_reducible apply modCore_fr); (focus decide)) | ((with_reducible apply reportMap_fr); (focus decide)) | ((with_reducible apply writeProgress_fr); (focus decide)) | split

theorem completeCmd_fr {s : State} {e : Eng} {c : Nat} {q : QCmd} {st : Status} {o : Overflow} {mk : Nat} {s00 : State} (hmk : 1253756 ||| mk = mk) (hst : Fr mk s00 s) : Fr mk s00 (completeCmd s e c q st o) := by
  refine Fr.step (k := 1253756) ?_ hmk hst
  clear hmk hst
  unfold completeCmd
  try dsimp only
  repeat' first | with_reducible exact Fr.refl _ _ | intro _ | ((with_reducible apply faultHalt_fr); (focus decide)) | ((with_reducible apply mapFails_fr); (focus decide)) | ((with_reducible apply reportCmd_fr); (focus decide)) | (with_reducible apply Fr.ite)

theorem completeHead_fr {s : State} {e : Eng} {c : Nat} {q : QCmd} {st : Status} {o : Overflow} {mk : Nat} {s00 : State} (hmk : 1253756 ||| mk = mk) (hst : Fr mk s00 s) : Fr mk s00 (completeHead s e c q st o) := by
  refine Fr.step (k := 1253756) ?_ hmk hst
  clear hmk hst
  unfold completeHead
  try dsimp only
  repeat' first | with_reducible exact Fr.refl _ _ | ((with_reducible apply completeCmd_fr); (focus decide)) | ((with_reducible apply popQ_fr); (focus decide))

theorem clearHalt_fr {s : State} {e : Eng} {c : Nat} {mk : Nat} {s00 : State} (hmk : 16 ||| mk = mk) (hst : Fr mk s00 s) : Fr mk s00 (clearHalt s e c) := by
  refine Fr.step (k := 16) ?_ hmk hst
  clear hmk hst
  unfold clearHalt
  try dsimp only
  repeat' first | with_reducible exact Fr.refl _ _ | ((with_reducible apply modQ_fr); (focus decide))

-- HO
theorem headRow_fr {s : State} {e : Eng} {c : Nat} {listed : List Nat} {op : Nat} {f : QCmd → State} {mk : Nat} {s00 : State} (hmk : 1253756 ||| mk = mk) (hf : ∀ x0, Fr mk s00 (f x0)) (hst : Fr mk s00 s) : Fr mk s00 (headRow s e c listed op f) := by
  unfold headRow
  try dsimp only
  repeat' first | with_reducible assumption | ((with_reducible apply completeHead_fr); (focus first | decide | exact sub_trans (by decide) hmk)) | (with_reducible apply hf) | split

theorem offerCmd_fr {s : State} {e : Eng} {b : Bytes} {origin : Option (Nat × Nat)} {mk : Nat} {s00 : State} (hmk : 1253756 ||| mk = mk) (hst : Fr mk s00 s) : Fr mk s00 (offerCmd s e b origin).1 := by
  refine Fr.step (k := 1253756) ?_ hmk hst
  clear hmk hst
  unfold offerCmd
  try dsimp only
  repeat' first | with_reducible exact Fr.refl _ _ | ((with_reducible apply logEntry_fr); (focus decide)) | ((with_reducible apply modQ_fr); (focus decide)) | ((with_reducible apply completeCmd_fr); (focus decide)) | split

theorem offerCmd_eq {s : State} {e : Eng} {b : Bytes} {origin : Option (Nat × Nat)} {y0 : OfferResult} {t00 : State} {mk : Nat} {s00 : State} (heq0 : offerCmd s e b origin = (t00, y0)) (hmk : 1253756 ||| mk = mk)
    (hst : Fr mk s00 s) : Fr mk s00 t00 := by
  have h1 := @offerCmd_fr s e b origin mk s00 hmk hst
  rw [heq0] at h1
  exact h1

theorem offerKept_fr {s : State} {id : Nat} {mk : Nat} {s00 : State} (hmk : 1253756 ||| mk = mk) (hst : Fr mk s00 s) : Fr mk s00 (offerKept s id) := by
  refine Fr.step (k := 1253756) ?_ hmk hst
  clear hmk hst
  unfold offerKept
  try dsimp only
  repeat' first | with_reducible exact Fr.refl _ _ | ((with_reducible apply offerCmd_eq); assumption; (focus decide)) | ((with_reducible apply putCmd_fr); (focus decide)) | ((with_reducible apply reportCmd_fr); (focus decide)) | split

theorem ownCmd_fr {s : State} {c : PCmd} {mk : Nat} {s00 : State} (hmk : 131072 ||| mk = mk) (hst : Fr mk s00 s) : Fr mk s00 (ownCmd s c) := by
  refine Fr.step (k := 131072) ?_ hmk hst
  clear hmk hst
  unfold ownCmd
  try dsimp only
  repeat' first | with_reducible exact Fr.refl _ _ | ((with_reducible apply putCmd_fr); (focus decide)) | ((with_reducible apply Fr.setPur); (focus decide))

theorem purserRuns_fr {s : State} {c : PCmd} {mk : Nat} {s00 : State} (hmk : 1253756 ||| mk = mk) (hst : Fr mk s00 s) : Fr mk s00 (purserRuns s c) := by
  refine Fr.step (k := 1253756) ?_ hmk hst
  clear hmk hst
  unfold purserRuns
  try dsimp only
  repeat' first | with_reducible exact Fr.refl _ _ | ((with_reducible apply offerKept_fr); (focus decide)) | ((with_reducible apply ownCmd_fr); (focus decide))

theorem pickEng_fr {s : State} {k : EngKind} {c : Nat} {mk : Nat} {s00 : State} (hmk : 2097152 ||| mk = mk) (hst : Fr mk s00 s) : Fr mk s00 (pickEng s k c).2 := by
  refine Fr.step (k := 2097152) ?_ hmk hst
  clear hmk hst
  unfold pickEng
  try dsimp only
  repeat' first | with_reducible exact Fr.refl _ _ | ((with_reducible apply takeFree_fr); (focus decide))

theorem pickEng_eq {s : State} {k : EngKind} {c : Nat} {y0 : Eng} {t00 : State} {mk : Nat} {s00 : State} (heq0 : pickEng s k c = (y0, t00)) (hmk : 2097152 ||| mk = mk)
    (hst : Fr mk s00 s) : Fr mk s00 t00 := by
  have h1 := @pickEng_fr s k c mk s00 hmk hst
  rw [heq0] at h1
  exact h1

theorem markQueued_fr {s : State} {test : Eng → Nat → QCmd → Bool} {mk : Nat} {s00 : State} (hmk : 16 ||| mk = mk) (hst : Fr mk s00 s) : Fr mk s00 (markQueued s test) := by
  refine Fr.step (k := 16) ?_ hmk hst
  clear hmk hst
  unfold markQueued
  try dsimp only
  repeat' first | with_reducible exact Fr.refl _ _ | ((with_reducible apply Fr.setEngs); (focus decide))

theorem execEngineCommandOffer_fr {e : Eng} {cmd : Bytes} {s : State} {t00 : State} (heq0 : execEngineCommandOffer e cmd s = .next t00) : Fr 1253756 s t00 := by
  cases heq0
  repeat' first | with_reducible exact Fr.refl _ _ | ((with_reducible apply offerCmd_fr); (focus decide))

/-! ### Cores -/

theorem tampCheck_fr {s : State} {k : Nat} {c : Nat} {mk : Nat} {s00 : State} (hmk : 1253756 ||| mk = mk) (hst : Fr mk s00 s) : Fr mk s00 (tampCheck s k c) := by
  refine Fr.step (k := 1253756) ?_ hmk hst
  clear hmk hst
  unfold tampCheck
  try dsimp only
  repeat' first | with_reducible exact Fr.refl _ _ | intro _ | ((with_reducible apply headRow_fr); (focus decide)) | ((with_reducible apply completeHead_fr); (focus decide)) | ((with_reducible apply markHead_fr); (focus decide)) | split

theorem tampBegin_fr {s : State} {k : Nat} {c : Nat} {mk : Nat} {s00 : State} (hmk : 1253756 ||| mk = mk) (hst : Fr mk s00 s) : Fr mk s00 (tampBegin s k c) := by
  refine Fr.step (k := 1253756) ?_ hmk hst
  clear hmk hst
  unfold tampBegin
  try dsimp only
  repeat' first | with_reducible exact Fr.refl _ _ | ((with_reducible apply takeTurn_fr); assumption; (focus decide)) | ((with_reducible apply rd_fr); (focus decide)) | ((with_reducible apply completeHead_fr); (focus decide)) | ((with_reducible apply modCore_fr); (focus decide)) | ((with_reducible apply popQ_fr); (focus decide)) | ((with_reducible apply AFr.val_eq); assumption) | split

theorem tampEnd_fr {s : State} {k : Nat} {mk : Nat} {s00 : State} (hmk : 1253756 ||| mk = mk) (hst : Fr mk s00 s) : Fr mk s00 (tampEnd s k) := by
  refine Fr.step (k := 1253756) ?_ hmk hst
  clear hmk hst
  unfold tampEnd
  try dsimp only
  repeat' first | with_reducible exact Fr.refl _ _ | ((with_reducible apply modCore_fr); (focus decide)) | ((with_reducible apply completeCmd_fr); (focus decide)) | split

theorem passCheck_fr {s : State} {k : Nat} {c : Nat} {mk : Nat} {s00 : State} (hmk : 1253756 ||| mk = mk) (hst : Fr mk s00 s) : Fr mk s00 (passCheck s k c) := by
  refine Fr.step (k := 1253756) ?_ hmk hst
  clear hmk hst
  unfold passCheck
  try dsimp only
  repeat' first | with_reducible exact Fr.refl _ _ | intro _ | ((with_reducible apply headRow_fr); (focus decide)) | ((with_reducible apply completeHead_fr); (focus decide)) | ((with_reducible apply markHead_fr); (focus decide)) | split

theorem passImages_fr {e : Eng} {c : Nat} {b : Bytes} {mk : Nat} {s00 : State} (hmk : 1048620 ||| mk = mk) : AFr mk s00 (passImages e c b) := by
  refine AFr.step (k := 1048620) (fun s00 => ?_) hmk
  clear hmk
  unfold passImages
  try dsimp only
  repeat' first | intro _ | ((with_reducible apply rd_fr); (focus decide)) | (with_reducible apply AFr.mapM)

theorem passBegin_fr {s : State} {k : Nat} {c : Nat} {mk : Nat} {s00 : State} (hmk : 1253756 ||| mk = mk) (hst : Fr mk s00 s) : Fr mk s00 (passBegin s k c) := by
  refine Fr.step (k := 1253756) ?_ hmk hst
  clear hmk hst
  unfold passBegin
  try dsimp only
  repeat' first | with_reducible exact Fr.refl _ _ | ((with_reducible apply takeTurn_fr); assumption; (focus decide)) | ((with_reducible apply passImages_fr); (focus decide)) | ((with_reducible apply completeHead_fr); (focus decide)) | ((with_reducible apply modCore_fr); (focus decide)) | ((with_reducible apply popQ_fr); (focus decide)) | ((with_reducible apply AFr.val_eq); assumption) | split

theorem outputTo_fr {s : State} {k : Nat} {n : Nat} {mk : Nat} {s00 : State} (hmk : 64 ||| mk = mk) (hst : Fr mk s00 s) : Fr mk s00 (outputTo s k n) := by
  refine Fr.step (k := 64) ?_ hmk hst
  clear hmk hst
  unfold outputTo
  try dsimp only
  repeat' first | with_reducible exact Fr.refl _ _ | ((with_reducible apply modCore_fr); (focus decide))

theorem passLastRow_fr {s : State} {k : Nat} {mk : Nat} {s00 : State} (hmk : 64 ||| mk = mk) (hst : Fr mk s00 s) : Fr mk s00 (passLastRow s k) := by
  refine Fr.step (k := 64) ?_ hmk hst
  clear hmk hst
  unfold passLastRow
  try dsimp only
  repeat' first | with_reducible exact Fr.refl _ _ | ((with_reducible apply modCore_fr); (focus decide)) | ((with_reducible apply outputTo_fr); (focus decide)) | split

theorem bankFree_fr {s : State} {k : Nat} {a : Nat} {b : Nat} {mk : Nat} {s00 : State} (hmk : 64 ||| mk = mk) (hst : Fr mk s00 s) : Fr mk s00 (bankFree s k a b) := by
  refine Fr.step (k := 64) ?_ hmk hst
  clear hmk hst
  unfold bankFree
  try dsimp only
  repeat' first | with_reducible exact Fr.refl _ _ | intro _ | ((with_reducible apply modCore_fr); (focus decide)) | ((with_reducible apply outputTo_fr); (focus decide)) | (with_reducible apply Fr.ite)

theorem passEnd_fr {s : State} {k : Nat} {mk : Nat} {s00 : State} (hmk : 1253756 ||| mk = mk) (hst : Fr mk s00 s) : Fr mk s00 (passEnd s k) := by
  refine Fr.step (k := 1253756) ?_ hmk hst
  clear hmk hst
  unfold passEnd
  try dsimp only
  repeat' first | with_reducible exact Fr.refl _ _ | ((with_reducible apply modCore_fr); (focus decide)) | ((with_reducible apply completeCmd_fr); (focus decide)) | split

theorem epiStart_fr {s : State} {k : Nat} {c : Nat} {q : QCmd} {mk : Nat} {s00 : State} (hmk : 1253756 ||| mk = mk) (hst : Fr mk s00 s) : Fr mk s00 (epiStart s k c q) := by
  refine Fr.step (k := 1253756) ?_ hmk hst
  clear hmk hst
  unfold epiStart
  try dsimp only
  repeat' first | with_reducible exact Fr.refl _ _ | ((with_reducible apply takeTurn_fr); assumption; (focus decide)) | ((with_reducible apply completeHead_fr); (focus decide)) | ((with_reducible apply modCore_fr); (focus decide)) | ((with_reducible apply popQ_fr); (focus decide)) | split

theorem epiBegin_fr {s : State} {k : Nat} {c : Nat} {wrote : Nat} {mk : Nat} {s00 : State} (hmk : 1253756 ||| mk = mk) (hst : Fr mk s00 s) : Fr mk s00 (epiBegin s k c wrote) := by
  refine Fr.step (k := 1253756) ?_ hmk hst
  clear hmk hst
  unfold epiBegin
  try dsimp only
  repeat' first | with_reducible exact Fr.refl _ _ | intro _ | ((with_reducible apply outputTo_fr); (focus decide)) | ((with_reducible apply headRow_fr); (focus decide)) | ((with_reducible apply epiStart_fr); (focus decide)) | ((with_reducible apply completeHead_fr); (focus decide)) | ((with_reducible apply markHead_fr); (focus decide)) | split

theorem rdF32_fr {w : Who} {a : Nat} {mk : Nat} {s00 : State} (hmk : 1048620 ||| mk = mk) : AFr mk s00 (rdF32 w a) := by
  refine AFr.step (k := 1048620) (fun s00 => ?_) hmk
  clear hmk
  unfold rdF32
  try dsimp only
  repeat' first | with_reducible exact AFr.pure _ | intro _ | ((with_reducible apply rdNat_fr); (focus decide)) | (with_reducible apply AFr.bind)

theorem epiVector_fr {w : Who} {b : Bytes} {n : Nat} {k : Nat} {mk : Nat} {s00 : State} (hmk : 1048620 ||| mk = mk) : AFr mk s00 (epiVector w b n k) := by
  refine AFr.step (k := 1048620) (fun s00 => ?_) hmk
  clear hmk
  unfold epiVector
  try dsimp only
  repeat' first | intro _ | ((with_reducible apply rdF32_fr); (focus decide)) | (with_reducible apply AFr.mapM)

theorem rdElem_fr {w : Who} {img : Nat} {f : Nat} {r : Nat} {c : Nat} {mk : Nat} {s00 : State} (hmk : 1048620 ||| mk = mk) : AFr mk s00 (rdElem w img f r c) := by
  refine AFr.step (k := 1048620) (fun s00 => ?_) hmk
  clear hmk
  unfold rdElem
  try dsimp only
  repeat' first | with_reducible exact AFr.pure _ | intro _ | ((with_reducible apply rdNat_fr); (focus decide)) | (with_reducible apply AFr.bind) | (with_reducible apply AFr.ite)

theorem wrImageRow_fr {w : Who} {img : Nat} {f : Nat} {r : Nat} {vals : List Val} {mk : Nat} {s00 : State} (hmk : 1048620 ||| mk = mk) : AFr mk s00 (wrImageRow w img f r vals) := by
  refine AFr.step (k := 1048620) (fun s00 => ?_) hmk
  clear hmk
  unfold wrImageRow
  try dsimp only
  repeat' first | intro _ | ((with_reducible apply wr_fr); (focus decide)) | (with_reducible apply AFr.bind) | (with_reducible apply AFr.ite)

theorem wrRow_fr {w : Who} {base : Nat} {stride : Nat} {f : Nat} {r : Nat} {row : List (BitVec 32)} {mk : Nat} {s00 : State} (hmk : 1048620 ||| mk = mk) : AFr mk s00 (wrRow w base stride f r row) := by
  refine AFr.step (k := 1048620) (fun s00 => ?_) hmk
  clear hmk
  unfold wrRow
  try dsimp only
  repeat' first | intro _ | ((with_reducible apply wrImageRow_fr); (focus decide)) | (with_reducible apply AFr.forM)

theorem epiWork_fr {k : Nat} {c : Nat} {b : Bytes} {mk : Nat} {s00 : State} (hmk : 1048620 ||| mk = mk) : AFr mk s00 (epiWork k c b) := by
  refine AFr.step (k := 1048620) (fun s00 => ?_) hmk
  clear hmk
  unfold epiWork
  try dsimp only
  repeat' first | with_reducible exact AFr.pure _ | with_reducible exact AFr.stopIf _ _ | with_reducible exact AFr.get | intro _ | ((with_reducible apply wr_fr); (focus decide)) | ((with_reducible apply epiVector_fr); (focus decide)) | ((with_reducible apply rdElem_fr); (focus decide)) | ((with_reducible apply wrRow_fr); (focus decide)) | (with_reducible apply AFr.bind) | (with_reducible apply AFr.ite) | (with_reducible apply AFr.mapM) | (with_reducible apply AFr.forM)

theorem tileDone_fr {s : State} {k : Nat} {c : Nat} {mk : Nat} {s00 : State} (hmk : 1180012 ||| mk = mk) (hst : Fr mk s00 s) : Fr mk s00 (tileDone s k c) := by
  refine Fr.step (k := 1180012) ?_ hmk hst
  clear hmk hst
  unfold tileDone
  try dsimp only
  repeat' first | with_reducible exact Fr.refl _ _ | ((with_reducible apply modCore_fr); (focus decide)) | ((with_reducible apply writeProgress_fr); (focus decide)) | ((with_reducible apply reportMap_fr); (focus decide)) | split

theorem epiEnd_fr {s : State} {k : Nat} {mk : Nat} {s00 : State} (hmk : 1253756 ||| mk = mk) (hst : Fr mk s00 s) : Fr mk s00 (epiEnd s k) := by
  refine Fr.step (k := 1253756) ?_ hmk hst
  clear hmk hst
  unfold epiEnd
  try dsimp only
  repeat' first | with_reducible exact Fr.refl _ _ | ((with_reducible apply epiWork_fr); (focus decide)) | ((with_reducible apply modCore_fr); (focus decide)) | ((with_reducible apply tileDone_fr); (focus decide)) | ((with_reducible apply completeCmd_fr); (focus decide)) | (with_reducible apply AFr.run) | split

theorem closeMap_fr {s : State} {k : Nat} {c : Nat} {mk : Nat} {s00 : State} (hmk : 1048684 ||| mk = mk) (hst : Fr mk s00 s) : Fr mk s00 (closeMap s k c) := by
  refine Fr.step (k := 1048684) ?_ hmk hst
  clear hmk hst
  unfold closeMap
  try dsimp only
  repeat' first | with_reducible exact Fr.refl _ _ | ((with_reducible apply writeProgress_fr); (focus decide)) | ((with_reducible apply modCore_fr); (focus decide)) | split

theorem mapInstall_fr {s : State} {k : Nat} {c : Nat} {mk : Nat} {s00 : State} (hmk : 1253756 ||| mk = mk) (hst : Fr mk s00 s) : Fr mk s00 (mapInstall s k c) := by
  refine Fr.step (k := 1253756) ?_ hmk hst
  clear hmk hst
  unfold mapInstall
  try dsimp only
  repeat' first | with_reducible exact Fr.refl _ _ | intro _ | ((with_reducible apply headRow_fr); (focus decide)) | ((with_reducible apply completeHead_fr); (focus decide)) | ((with_reducible apply closeMap_fr); (focus decide)) | ((with_reducible apply rd_fr); (focus decide)) | ((with_reducible apply writeProgress_eq); assumption; (focus decide)) | ((with_reducible apply modCore_fr); (focus decide)) | ((with_reducible apply mapIsNew_fr); (focus decide)) | ((with_reducible apply reportMap_fr); (focus decide)) | ((with_reducible apply AFr.val_eq); assumption) | split

theorem mapClose_fr {s : State} {k : Nat} {c : Nat} {mk : Nat} {s00 : State} (hmk : 1253756 ||| mk = mk) (hst : Fr mk s00 s) : Fr mk s00 (mapClose s k c) := by
  refine Fr.step (k := 1253756) ?_ hmk hst
  clear hmk hst
  unfold mapClose
  try dsimp only
  repeat' first | with_reducible exact Fr.refl _ _ | intro _ | ((with_reducible apply headRow_fr); (focus decide)) | ((with_reducible apply completeHead_fr); (focus decide)) | ((with_reducible apply closeMap_fr); (focus decide)) | (with_reducible apply Fr.ite)

theorem execTamp_fr {core : Nat} {ctx : Nat} {s : State} {t00 : State} (heq0 : execTamp core ctx s = .next t00) : Fr 1253756 s t00 := by
  cases heq0
  repeat' first | with_reducible exact Fr.refl _ _ | ((with_reducible apply tampCheck_fr); (focus decide))

theorem execTampStart_fr {core : Nat} {ctx : Nat} {s : State} {t00 : State} (heq0 : execTampStart core ctx s = .next t00) : Fr 1253756 s t00 := by
  cases heq0
  repeat' first | with_reducible exact Fr.refl _ _ | ((with_reducible apply tampBegin_fr); (focus decide))

theorem execTampLoadDone_fr {core : Nat} {s : State} {t00 : State} (heq0 : execTampLoadDone core s = .next t00) : Fr 1253756 s t00 := by
  cases heq0
  repeat' first | with_reducible exact Fr.refl _ _ | ((with_reducible apply tampEnd_fr); (focus decide))

theorem execPass_fr {core : Nat} {ctx : Nat} {s : State} {t00 : State} (heq0 : execPass core ctx s = .next t00) : Fr 1253756 s t00 := by
  cases heq0
  repeat' first | with_reducible exact Fr.refl _ _ | ((with_reducible apply passCheck_fr); (focus decide))

theorem execPassStart_fr {core : Nat} {ctx : Nat} {s : State} {t00 : State} (heq0 : execPassStart core ctx s = .next t00) : Fr 1253756 s t00 := by
  cases heq0
  repeat' first | with_reducible exact Fr.refl _ _ | ((with_reducible apply passBegin_fr); (focus decide))

theorem execPassLastRowEntered_fr {core : Nat} {s : State} {t00 : State} (heq0 : execPassLastRowEntered core s = .next t00) : Fr 64 s t00 := by
  cases heq0
  repeat' first | with_reducible exact Fr.refl _ _ | ((with_reducible apply passLastRow_fr); (focus decide))

theorem execBankFreeHandshake_fr {core : Nat} {array : Nat} {bank : Nat} {s : State} {t00 : State} (heq0 : execBankFreeHandshake core array bank s = .next t00) : Fr 64 s t00 := by
  cases heq0
  repeat' first | with_reducible exact Fr.refl _ _ | ((with_reducible apply bankFree_fr); (focus decide))

theorem execPassComplete_fr {core : Nat} {s : State} {t00 : State} (heq0 : execPassComplete core s = .next t00) : Fr 1253756 s t00 := by
  cases heq0
  repeat' first | with_reducible exact Fr.refl _ _ | ((with_reducible apply passEnd_fr); (focus decide))

theorem execEpi_fr {core : Nat} {ctx : Nat} {wrote : Nat} {s : State} {t00 : State} (heq0 : execEpi core ctx wrote s = .next t00) : Fr 1253756 s t00 := by
  cases heq0
  repeat' first | with_reducible exact Fr.refl _ _ | ((with_reducible apply epiBegin_fr); (focus decide))

theorem execEpiComplete_fr {core : Nat} {s : State} {t00 : State} (heq0 : execEpiComplete core s = .next t00) : Fr 1253756 s t00 := by
  cases heq0
  repeat' first | with_reducible exact Fr.refl _ _ | ((with_reducible apply epiEnd_fr); (focus decide))

theorem execMapInstall_fr {core : Nat} {ctx : Nat} {s : State} {t00 : State} (heq0 : execMapInstall core ctx s = .next t00) : Fr 1253756 s t00 := by
  cases heq0
  repeat' first | with_reducible exact Fr.refl _ _ | ((with_reducible apply mapInstall_fr); (focus decide))

theorem execMapClose_fr {core : Nat} {ctx : Nat} {s : State} {t00 : State} (heq0 : execMapClose core ctx s = .next t00) : Fr 1253756 s t00 := by
  cases heq0
  repeat' first | with_reducible exact Fr.refl _ _ | ((with_reducible apply mapClose_fr); (focus decide))

theorem execCtxHaltClear_fr {e : Eng} {ctx : Nat} {s : State} {t00 : State} (heq0 : execCtxHaltClear e ctx s = .next t00) : Fr 16 s t00 := by
  cases heq0
  repeat' first | with_reducible exact Fr.refl _ _ | ((with_reducible apply clearHalt_fr); (focus decide))

end Sys2Proof.Laws
end

