-- ==== Sys2Proof/Laws/FramesEngines.lean ====
section
/-! SUPPORT. Frames of barges, mailboxes, slip queues, routers, selection, the percolator, the grinder: the parts of the state that each function may change. -/

namespace Sys2Proof.Laws

open Sys2Proof.Machine

set_option Elab.async false

/-! ### Barge -/

-- HO
theorem bargeHead_fr {s : State} {b : Nat} {c : Nat} {op : Nat} {f : State → QCmd → State} {mk : Nat} {s00 : State} (hmk : 1253756 ||| mk = mk) (hf : ∀ t x1, Fr mk s00 t → Fr mk s00 (f t x1)) (hst : Fr mk s00 s) : Fr mk s00 (bargeHead s b c op f) := by
  unfold bargeHead
  try dsimp only
  repeat' first | with_reducible assumption | intro _ | ((with_reducible apply headRow_fr); (focus first | decide | exact sub_trans (by decide) hmk)) | ((with_reducible apply takeTurn_fr); assumption; (focus first | decide | exact sub_trans (by decide) hmk)) | (with_reducible apply hf) | split

theorem bargeDone_fr {s : State} {b : Nat} {c : Nat} {q : QCmd} {st : Status} {mk : Nat} {s00 : State} (hmk : 1253756 ||| mk = mk) (hst : Fr mk s00 s) : Fr mk s00 (bargeDone s b c q st) := by
  refine Fr.step (k := 1253756) ?_ hmk hst
  clear hmk hst
  unfold bargeDone
  try dsimp only
  repeat' first | with_reducible exact Fr.refl _ _ | ((with_reducible apply completeHead_fr); (focus decide))

theorem moveLocal_fr {b : Nat} {c : Nat} {cmd : Bytes} {src : Nat} {dst : Nat} {mk : Nat} {s00 : State} (hmk : 1048620 ||| mk = mk) : AFr mk s00 (moveLocal b c cmd src dst) := by
  refine AFr.step (k := 1048620) (fun s00 => ?_) hmk
  clear hmk
  unfold moveLocal
  try dsimp only
  repeat' first | with_reducible exact AFr.stopIf _ _ | intro _ | ((with_reducible apply rd_fr); (focus decide)) | ((with_reducible apply wr_fr); (focus decide)) | (with_reducible apply AFr.bind) | (with_reducible apply AFr.ite) | (with_reducible apply AFr.forM)

theorem moveRemote_fr {s : State} {b : Nat} {c : Nat} {q : QCmd} {out : Bool} {mk : Nat} {s00 : State} (hmk : 1254268 ||| mk = mk) (hst : Fr mk s00 s) : Fr mk s00 (moveRemote s b c q out) := by
  refine Fr.step (k := 1254268) ?_ hmk hst
  clear hmk hst
  unfold moveRemote
  try dsimp only
  repeat' first | with_reducible exact Fr.refl _ _ | ((with_reducible apply bargeDone_fr); (focus decide)) | ((with_reducible apply choosePort_fr); assumption; (focus decide)) | ((with_reducible apply rd_fr); (focus decide)) | ((with_reducible apply chargeFerry_fr); (focus decide)) | ((with_reducible apply startOp_fr); (focus decide)) | ((with_reducible apply popQ_fr); (focus decide)) | ((with_reducible apply queueWrite_fr); (focus decide)) | ((with_reducible apply queueFrame_fr); (focus decide)) | ((with_reducible apply AFr.val_eq); assumption) | split | ((with_reducible apply Fr.setBarges); (focus decide))

theorem moveHead_fr {s : State} {b : Nat} {c : Nat} {mk : Nat} {s00 : State} (hmk : 1254268 ||| mk = mk) (hst : Fr mk s00 s) : Fr mk s00 (moveHead s b c) := by
  refine Fr.step (k := 1254268) ?_ hmk hst
  clear hmk hst
  unfold moveHead
  try dsimp only
  repeat' first | with_reducible assumption | with_reducible exact Fr.refl _ _ | with_reducible exact AFr.pure _ | with_reducible exact AFr.stopIf _ _ | with_reducible exact AFr.get | intro _ | ((with_reducible apply bargeHead_fr); (focus decide)) | ((with_reducible apply bargeDone_fr); (focus decide)) | ((with_reducible apply moveRemote_fr); (focus decide)) | ((with_reducible apply moveLocal_fr); (focus decide)) | (with_reducible apply AFr.run) | ((with_reducible apply AFr.runSt_eq); assumption) | (with_reducible apply Fr.ite)

theorem bringIn_fr {s : State} {src : BitVec 16} {c : Nat} {st : Nat} {g : Nat} {keep : Gran → Gran} {mk : Nat} {s00 : State} (hmk : 1048620 ||| mk = mk) (hst : Fr mk s00 s) : Fr mk s00 (bringIn s src c st g keep).1 := by
  refine Fr.step (k := 1048620) ?_ hmk hst
  clear hmk hst
  unfold bringIn
  try dsimp only
  repeat' first | with_reducible exact Fr.refl _ _ | ((with_reducible apply noteHbmBad_fr); (focus decide)) | ((with_reducible apply countFetched_fr); (focus decide)) | ((with_reducible apply setGran_fr); (focus decide)) | ((with_reducible apply noteSramBad_fr); (focus decide)) | split

theorem bringIn_eq {s : State} {src : BitVec 16} {c : Nat} {st : Nat} {g : Nat} {keep : Gran → Gran} {y0 : Bool} {t00 : State} {mk : Nat} {s00 : State} (heq0 : bringIn s src c st g keep = (t00, y0)) (hmk : 1048620 ||| mk = mk)
    (hst : Fr mk s00 s) : Fr mk s00 t00 := by
  have h1 := @bringIn_fr s src c st g keep mk s00 hmk hst
  rw [heq0] at h1
  exact h1

theorem pinOne_fr {b : Nat} {c : Nat} {st : Nat} {acc : State × Bool} {g : Nat} {mk : Nat} {s00 : State} (hmk : 1048620 ||| mk = mk) (hst : Fr mk s00 acc.1) : Fr mk s00 (pinOne b c st acc g).1 := by
  refine Fr.step (k := 1048620) ?_ hmk hst
  clear hmk hst
  unfold pinOne
  try dsimp only
  repeat' first | with_reducible exact Fr.refl _ _ | ((with_reducible apply setGran_fr); (focus decide)) | ((with_reducible apply bringIn_fr); (focus decide)) | split

theorem pinOne_eq {b : Nat} {c : Nat} {st : Nat} {acc : State × Bool} {g : Nat} {y0 : Bool} {t00 : State} {mk : Nat} {s00 : State} (heq0 : pinOne b c st acc g = (t00, y0)) (hmk : 1048620 ||| mk = mk)
    (hst : Fr mk s00 acc.1) : Fr mk s00 t00 := by
  have h1 := @pinOne_fr b c st acc g mk s00 hmk hst
  rw [heq0] at h1
  exact h1

theorem pinHead_fr {s : State} {b : Nat} {c : Nat} {mk : Nat} {s00 : State} (hmk : 1253756 ||| mk = mk) (hst : Fr mk s00 s) : Fr mk s00 (pinHead s b c) := by
  refine Fr.step (k := 1253756) ?_ hmk hst
  clear hmk hst
  unfold pinHead
  try dsimp only
  repeat' first | with_reducible assumption | with_reducible exact Fr.refl _ _ | intro _ | ((with_reducible apply bargeHead_fr); (focus decide)) | ((with_reducible apply bargeDone_fr); (focus decide)) | ((with_reducible apply completeHead_fr); (focus decide)) | ((with_reducible apply pinOne_fr); (focus decide)) | ((with_reducible apply makeRoom_fr); (focus decide)) | (with_reducible apply Fr.foldl_fst) | split

theorem unpinAll_fr {s : State} {test : Nat × Nat → Bool} {c : Nat} {mk : Nat} {s00 : State} (hmk : 1048620 ||| mk = mk) (hst : Fr mk s00 s) : Fr mk s00 (unpinAll s test c) := by
  refine Fr.step (k := 1048620) ?_ hmk hst
  clear hmk hst
  unfold unpinAll
  try dsimp only
  repeat' first | with_reducible assumption | with_reducible exact Fr.refl _ _ | intro _ | ((with_reducible apply makeRoom_fr); (focus decide)) | (with_reducible apply Fr.foldl) | ((with_reducible apply Fr.setMem); (focus decide); (focus exact fun h => h))

theorem unpinHead_fr {s : State} {b : Nat} {c : Nat} {mk : Nat} {s00 : State} (hmk : 1253756 ||| mk = mk) (hst : Fr mk s00 s) : Fr mk s00 (unpinHead s b c) := by
  refine Fr.step (k := 1253756) ?_ hmk hst
  clear hmk hst
  unfold unpinHead
  try dsimp only
  repeat' first | with_reducible assumption | with_reducible exact Fr.refl _ _ | intro _ | ((with_reducible apply bargeHead_fr); (focus decide)) | ((with_reducible apply bargeDone_fr); (focus decide)) | ((with_reducible apply setGran_fr); (focus decide)) | ((with_reducible apply makeRoom_fr); (focus decide)) | (with_reducible apply Fr.foldl) | split

theorem readSchedule_fr {w : Who} {d : Nat} {a : Nat} {look : Nat} {layer : Nat} {mk : Nat} {s00 : State} (hmk : 1048620 ||| mk = mk) : AFr mk s00 (readSchedule w d a look layer) := by
  refine AFr.step (k := 1048620) (fun s00 => ?_) hmk
  clear hmk
  unfold readSchedule
  try dsimp only
  repeat' first | with_reducible exact AFr.pure _ | with_reducible exact AFr.throw _ | with_reducible exact AFr.stopIf _ _ | intro _ | ((with_reducible apply rd_fr); (focus decide)) | (with_reducible apply AFr.bind) | split

theorem queueFetches_fr {s : State} {b : Nat} {c : Nat} {sc : Schedule} {first : Nat} {n : Nat} {mk : Nat} {s00 : State} (hmk : 32 ||| mk = mk) (hst : Fr mk s00 s) : Fr mk s00 (queueFetches s b c sc first n) := by
  refine Fr.step (k := 32) ?_ hmk hst
  clear hmk hst
  unfold queueFetches
  try dsimp only
  repeat' first | with_reducible exact Fr.refl _ _ | ((with_reducible apply Fr.setMem); (focus decide); (focus exact fun h => h))

theorem dropSchedule_fr {s : State} {b : Nat} {c : Nat} {mk : Nat} {s00 : State} (hmk : 32 ||| mk = mk) (hst : Fr mk s00 s) : Fr mk s00 (dropSchedule s b c) := by
  refine Fr.step (k := 32) ?_ hmk hst
  clear hmk hst
  unfold dropSchedule
  try dsimp only
  repeat' first | with_reducible exact Fr.refl _ _ | ((with_reducible apply Fr.setMem); (focus decide); (focus exact fun h => h))

theorem installSchedule_fr {s : State} {b : Nat} {c : Nat} {sc : Schedule} {mk : Nat} {s00 : State} (hmk : 32 ||| mk = mk) (hst : Fr mk s00 s) : Fr mk s00 (installSchedule s b c sc) := by
  refine Fr.step (k := 32) ?_ hmk hst
  clear hmk hst
  unfold installSchedule
  try dsimp only
  repeat' first | with_reducible exact Fr.refl _ _ | ((with_reducible apply dropSchedule_fr); (focus decide)) | ((with_reducible apply queueFetches_fr); (focus decide)) | ((with_reducible apply Fr.setMem); (focus decide); (focus exact fun h => h))

theorem scheduleHead_fr {s : State} {b : Nat} {c : Nat} {mk : Nat} {s00 : State} (hmk : 1253756 ||| mk = mk) (hst : Fr mk s00 s) : Fr mk s00 (scheduleHead s b c) := by
  refine Fr.step (k := 1253756) ?_ hmk hst
  clear hmk hst
  unfold scheduleHead
  try dsimp only
  repeat' first | with_reducible assumption | with_reducible exact Fr.refl _ _ | intro _ | ((with_reducible apply bargeHead_fr); (focus decide)) | ((with_reducible apply bargeDone_fr); (focus decide)) | ((with_reducible apply dropSchedule_fr); (focus decide)) | ((with_reducible apply readSchedule_fr); (focus decide)) | ((with_reducible apply installSchedule_fr); (focus decide)) | ((with_reducible apply AFr.val_eq); assumption) | split

theorem stepEpoch_fr {s : State} {st : Nat} {mk : Nat} {s00 : State} (hmk : 32 ||| mk = mk) (hst : Fr mk s00 s) : Fr mk s00 (stepEpoch s st) := by
  refine Fr.step (k := 32) ?_ hmk hst
  clear hmk hst
  unfold stepEpoch
  try dsimp only
  repeat' first | with_reducible exact Fr.refl _ _ | ((with_reducible apply Fr.setMem); (focus decide); (focus exact fun h => h))

theorem advanceTo_fr {s : State} {b : Nat} {c : Nat} {l : Nat} {sc : Schedule} {mk : Nat} {s00 : State} (hmk : 32 ||| mk = mk) (hst : Fr mk s00 s) : Fr mk s00 (advanceTo s b c l sc) := by
  refine Fr.step (k := 32) ?_ hmk hst
  clear hmk hst
  unfold advanceTo
  try dsimp only
  repeat' first | with_reducible assumption | with_reducible exact Fr.refl _ _ | intro _ | ((with_reducible apply stepEpoch_fr); (focus decide)) | ((with_reducible apply queueFetches_fr); (focus decide)) | (with_reducible apply Fr.ite) | (with_reducible apply Fr.foldl) | ((with_reducible apply Fr.setMem); (focus decide); (focus exact fun h => h))

theorem advanceHead_fr {s : State} {b : Nat} {c : Nat} {mk : Nat} {s00 : State} (hmk : 1253756 ||| mk = mk) (hst : Fr mk s00 s) : Fr mk s00 (advanceHead s b c) := by
  refine Fr.step (k := 1253756) ?_ hmk hst
  clear hmk hst
  unfold advanceHead
  try dsimp only
  repeat' first | with_reducible assumption | with_reducible exact Fr.refl _ _ | intro _ | ((with_reducible apply bargeHead_fr); (focus decide)) | ((with_reducible apply bargeDone_fr); (focus decide)) | ((with_reducible apply advanceTo_fr); (focus decide)) | split

theorem fetchGran_fr {src : BitVec 16} {c : Nat} {st : Nat} {s : State} {g : Nat} {mk : Nat} {s00 : State} (hmk : 1048620 ||| mk = mk) (hst : Fr mk s00 s) : Fr mk s00 (fetchGran src c st s g) := by
  refine Fr.step (k := 1048620) ?_ hmk hst
  clear hmk hst
  unfold fetchGran
  try dsimp only
  repeat' first | with_reducible exact Fr.refl _ _ | ((with_reducible apply setGran_fr); (focus decide)) | ((with_reducible apply makeRoom_fr); (focus decide)) | ((with_reducible apply bringIn_fr); (focus decide)) | split

theorem fetchSlice_fr {s : State} {b : Nat} {c : Nat} {mk : Nat} {s00 : State} (hmk : 1048636 ||| mk = mk) (hst : Fr mk s00 s) : Fr mk s00 (fetchSlice s b c) := by
  refine Fr.step (k := 1048636) ?_ hmk hst
  clear hmk hst
  unfold fetchSlice
  try dsimp only
  repeat' first | with_reducible assumption | with_reducible exact Fr.refl _ _ | intro _ | ((with_reducible apply takeTurn_fr); assumption; (focus decide)) | ((with_reducible apply fetchGran_fr); (focus decide)) | ((with_reducible apply faultHalt_fr); (focus decide)) | (with_reducible apply Fr.foldl) | split | ((with_reducible apply Fr.setMem); (focus decide); (focus exact fun h => h))

theorem epochTick_fr {s : State} {d : Nat} {mk : Nat} {s00 : State} (hmk : 32 ||| mk = mk) (hst : Fr mk s00 s) : Fr mk s00 (epochTick s d) := by
  refine Fr.step (k := 32) ?_ hmk hst
  clear hmk hst
  unfold epochTick
  try dsimp only
  repeat' first | with_reducible assumption | with_reducible exact Fr.refl _ _ | intro _ | ((with_reducible apply modDeck_fr); (focus decide)) | ((with_reducible apply stepEpoch_fr); (focus decide)) | (with_reducible apply Fr.ite) | (with_reducible apply Fr.foldl)

theorem putColl_fr {s : State} {b : Nat} {c : Nat} {x : CollOp} {mk : Nat} {s00 : State} (hmk : 512 ||| mk = mk) (hst : Fr mk s00 s) : Fr mk s00 (putColl s b c x) := by
  refine Fr.step (k := 512) ?_ hmk hst
  clear hmk hst
  unfold putColl
  try dsimp only
  repeat' first | with_reducible exact Fr.refl _ _ | ((with_reducible apply Fr.setBarges); (focus decide))

theorem srcPart_fr {b : Nat} {c : Nat} {x : CollOp} {j : Nat} {off : Nat} {n : Nat} {mk : Nat} {s00 : State} (hmk : 1048620 ||| mk = mk) : AFr mk s00 (srcPart b c x j off n) := by
  refine AFr.step (k := 1048620) (fun s00 => ?_) hmk
  clear hmk
  unfold srcPart
  try dsimp only
  repeat' first | with_reducible exact AFr.pure _ | intro _ | ((with_reducible apply rd_fr); (focus decide)) | (with_reducible apply AFr.bind) | (with_reducible apply AFr.ite)

theorem freeBytes_fr {s : State} {a : Nat} {n : Nat} {mk : Nat} {s00 : State} (hmk : 2097184 ||| mk = mk)
    (hst : Fr mk s00 s) : Fr mk s00 (freeBytes s a n) :=
  Fr.setMemFreeCtr hmk (fun hw => memWrite_wf _ _ _ hw) hst

theorem endColl_fr {s : State} {b : Nat} {c : Nat} {x : CollOp} {st : Status} {mk : Nat} {s00 : State} (hmk : 3351420 ||| mk = mk) (hst : Fr mk s00 s) : Fr mk s00 (endColl s b c x st) := by
  refine Fr.step (k := 3351420) ?_ hmk hst
  clear hmk hst
  unfold endColl
  try dsimp only
  repeat' first | with_reducible exact Fr.refl _ _ | intro _ | ((with_reducible apply freeBytes_fr); (focus decide)) | ((with_reducible apply completeCmd_fr); (focus decide)) | (with_reducible apply Fr.ite) | ((with_reducible apply Fr.setBarges); (focus decide))

theorem collPiece_fr {s : State} {port : Option Nat} {rank : Option Nat} {f : FFrame} {mk : Nat} {s00 : State} (hmk : 3351420 ||| mk = mk) (hst : Fr mk s00 s) : Fr mk s00 (collPiece s port rank f) := by
  refine Fr.step (k := 3351420) ?_ hmk hst
  clear hmk hst
  unfold collPiece
  try dsimp only
  repeat' first | with_reducible exact Fr.refl _ _ | ((with_reducible apply wr_fr); (focus decide)) | ((with_reducible apply putColl_fr); (focus decide)) | ((with_reducible apply endColl_fr); (focus decide)) | ((with_reducible apply AFr.run_eq); assumption) | (with_reducible apply AFr.ite) | (with_reducible apply AFr.foldlM) | split

theorem collReadyFrame_fr {s : State} {rank : Option Nat} {f : FFrame} {mk : Nat} {s00 : State} (hmk : 512 ||| mk = mk) (hst : Fr mk s00 s) : Fr mk s00 (collReadyFrame s rank f) := by
  refine Fr.step (k := 512) ?_ hmk hst
  clear hmk hst
  unfold collReadyFrame
  try dsimp only
  repeat' first | with_reducible exact Fr.refl _ _ | ((with_reducible apply putColl_fr); (focus decide)) | split

theorem collPort_fr {s : State} {x : CollOp} {m : Nat} {y0 : Nat} {t00 : State} {mk : Nat} {s00 : State}
    (heq0 : collPort s x m = some (y0, t00)) (hmk : 256 ||| mk = mk) (hst : Fr mk s00 s) : Fr mk s00 t00 := by
  unfold collPort at heq0
  split at heq0
  · split at heq0 <;> cases heq0
    exact hst
  · exact choosePort_fr heq0 hmk hst

theorem sendMember_fr {s : State} {x : CollOp} {r : Nat} {f : FFrame} {y0 : CollOp} {t00 : State} {mk : Nat} {s00 : State} (heq0 : sendMember s x r f = some (t00, y0)) (hmk : 3351420 ||| mk = mk)
    (hst : Fr mk s00 s) : Fr mk s00 t00 := by
  refine Fr.step (k := 3351420) ?_ hmk hst
  clear hmk hst
  unfold sendMember at heq0
  try dsimp only at heq0
  repeat' split at heq0
  all_goals cases heq0
  repeat' first | with_reducible exact Fr.refl _ _ | ((with_reducible apply collPiece_fr); (focus decide)) | ((with_reducible apply collReadyFrame_fr); (focus decide)) | ((with_reducible apply collPort_fr); assumption; (focus decide)) | ((with_reducible apply queueFrame_fr); (focus decide))

theorem allowStep_fr {s : State} {b : Nat} {c : Nat} {x : CollOp} {step : Nat} {mk : Nat} {s00 : State} (hmk : 3351420 ||| mk = mk) (hst : Fr mk s00 s) : Fr mk s00 (allowStep s b c x step) := by
  refine Fr.step (k := 3351420) ?_ hmk hst
  clear hmk hst
  unfold allowStep
  try dsimp only
  repeat' first | with_reducible exact Fr.refl _ _ | ((with_reducible apply sendMember_fr); assumption; (focus decide)) | ((with_reducible apply putColl_fr); (focus decide)) | ((with_reducible apply endColl_fr); (focus decide)) | split

theorem tellDelivered_fr {s : State} {b : Nat} {c : Nat} {x : CollOp} {r : Nat} {mk : Nat} {s00 : State} (hmk : 3351420 ||| mk = mk) (hst : Fr mk s00 s) : Fr mk s00 (tellDelivered s b c x r) := by
  refine Fr.step (k := 3351420) ?_ hmk hst
  clear hmk hst
  unfold tellDelivered
  try dsimp only
  repeat' first | with_reducible exact Fr.refl _ _ | ((with_reducible apply sendMember_fr); assumption; (focus decide)) | ((with_reducible apply putColl_fr); (focus decide)) | ((with_reducible apply endColl_fr); (focus decide)) | split

theorem startColl_fr {s : State} {b : Nat} {c : Nat} {q : QCmd} {mk : Nat} {s00 : State} (hmk : 3351420 ||| mk = mk) (hst : Fr mk s00 s) : Fr mk s00 (startColl s b c q) := by
  refine Fr.step (k := 3351420) ?_ hmk hst
  clear hmk hst
  unfold startColl
  try dsimp only
  repeat' first | with_reducible exact Fr.refl _ _ | ((with_reducible apply bargeDone_fr); (focus decide)) | ((with_reducible apply rd_fr); (focus decide)) | ((with_reducible apply popQ_fr); (focus decide)) | ((with_reducible apply putColl_fr); (focus decide)) | ((with_reducible apply allowStep_fr); (focus decide)) | ((with_reducible apply AFr.val_eq); assumption) | split

theorem stepPart_fr {b : Nat} {c : Nat} {x : CollOp} {n : Nat} {mk : Nat} {s00 : State} (hmk : 1048620 ||| mk = mk) : AFr mk s00 (stepPart b c x n) := by
  refine AFr.step (k := 1048620) (fun s00 => ?_) hmk
  clear hmk
  unfold stepPart
  try dsimp only
  repeat' first | with_reducible exact AFr.pure _ | intro _ | ((with_reducible apply srcPart_fr); (focus decide)) | ((with_reducible apply wr_fr); (focus decide)) | (with_reducible apply AFr.bind) | (with_reducible apply AFr.ite)

theorem sendMany_fr {x : CollOp} {f : Nat × Bytes → FFrame} {mk : Nat} {s00 : State} (hmk : 3351420 ||| mk = mk)
    (l : List (Nat × Bytes)) {o : Option (State × CollOp)} (ho : ∀ a, o = some a → Fr mk s00 a.1) {a : State × CollOp}
    (h : l.foldl (fun r ob => r.bind fun (a : State × CollOp) => sendMember a.1 a.2 x.succ (f ob)) o = some a) :
    Fr mk s00 a.1 := by
  induction l generalizing o with
  | nil => exact ho a h
  | cons b l ih =>
    refine ih (fun c hc => ?_) h
    cases o with
    | none => cases hc
    | some d => exact sendMember_fr (y0 := c.2) (t00 := c.1) hc (sub_trans (by decide) hmk) (ho d rfl)

theorem collSend_fr {s : State} {b c : Nat} {x : CollOp} {mk : Nat} {s00 : State} (hmk : 3351420 ||| mk = mk)
    (hst : Fr mk s00 s) : Fr mk s00 (collSend s b c x) := by
  unfold collSend
  dsimp only
  split
  · exact endColl_fr (sub_trans (by decide) hmk) (AFr.val_eq (by assumption) (stepPart_fr (sub_trans (by decide) hmk)) hst)
  · have h1 := AFr.val_eq (by assumption) (stepPart_fr (sub_trans (by decide) hmk)) hst
    split
    · rename_i h
      refine putColl_fr (sub_trans (by decide) hmk) (sendMany_fr hmk (x := x) (f := fun ob =>
        { op := 8, vc := 4, ctx := c, addr := x.id, offset := ob.1, arg := x.sent, payload := ob.2 }) _ (fun a ha => ?_) h)
      cases ha
      exact chargeFerry_fr (sub_trans (by decide) hmk) (putColl_fr (sub_trans (by decide) hmk) h1)
    · exact endColl_fr (sub_trans (by decide) hmk) h1

theorem writeParts_fr {b : Nat} {c : Nat} {x : CollOp} {p : Nat} {j : Nat} {a : Nat} {s : State} {v : Bytes} {mk : Nat} {s00 : State} (hmk : 256 ||| mk = mk) (hst : Fr mk s00 s) : Fr mk s00 (writeParts b c x p j a s v) := by
  refine Fr.step (k := 256) ?_ hmk hst
  clear hmk hst
  unfold writeParts
  try dsimp only
  repeat' first | with_reducible assumption | with_reducible exact Fr.refl _ _ | intro _ | ((with_reducible apply startOp_fr); (focus decide)) | ((with_reducible apply queueWrite_fr); (focus decide)) | (with_reducible apply Fr.foldl)

theorem collChunk_fr {s : State} {b : Nat} {c : Nat} {x : CollOp} {mk : Nat} {s00 : State} (hmk : 3351420 ||| mk = mk) (hst : Fr mk s00 s) : Fr mk s00 (collChunk s b c x) := by
  refine Fr.step (k := 3351420) ?_ hmk hst
  clear hmk hst
  unfold collChunk
  try dsimp only
  repeat' first | with_reducible exact Fr.refl _ _ | ((with_reducible apply rd_fr); (focus decide)) | ((with_reducible apply endColl_fr); (focus decide)) | ((with_reducible apply wr_fr); (focus decide)) | ((with_reducible apply tellDelivered_fr); (focus decide)) | ((with_reducible apply putColl_fr); (focus decide)) | ((with_reducible apply collPort_fr); assumption; (focus decide)) | ((with_reducible apply writeParts_fr); (focus decide)) | ((with_reducible apply chargeFerry_fr); (focus decide)) | ((with_reducible apply AFr.run_eq); assumption) | ((with_reducible apply AFr.val_eq); assumption) | (with_reducible apply AFr.ite) | (with_reducible apply AFr.foldlM) | split

theorem collConsume_fr {b : Nat} {c : Nat} {x : CollOp} {mk : Nat} {s00 : State} (hmk : 1048620 ||| mk = mk) : AFr mk s00 (collConsume b c x) := by
  refine AFr.step (k := 1048620) (fun s00 => ?_) hmk
  clear hmk
  unfold collConsume
  try dsimp only
  repeat' first | with_reducible exact AFr.pure _ | intro _ | ((with_reducible apply rd_fr); (focus decide)) | ((with_reducible apply srcPart_fr); (focus decide)) | ((with_reducible apply wr_fr); (focus decide)) | (with_reducible apply AFr.bind) | (with_reducible apply AFr.ite)

theorem collUnit_fr {s : State} {b : Nat} {c : Nat} {x : CollOp} {mk : Nat} {s00 : State} (hmk : 3351420 ||| mk = mk) (hst : Fr mk s00 s) : Fr mk s00 (collUnit s b c x) := by
  refine Fr.step (k := 3351420) ?_ hmk hst
  clear hmk hst
  unfold collUnit
  try dsimp only
  repeat' first | with_reducible exact Fr.refl _ _ | ((with_reducible apply endColl_fr); (focus decide)) | ((with_reducible apply collChunk_fr); (focus decide)) | ((with_reducible apply collSend_fr); (focus decide)) | ((with_reducible apply collConsume_fr); (focus decide)) | ((with_reducible apply allowStep_fr); (focus decide)) | ((with_reducible apply putColl_fr); (focus decide)) | ((with_reducible apply AFr.val_eq); assumption) | (with_reducible apply AFr.ite) | (with_reducible apply AFr.foldlM) | split

theorem collRow_fr {s : State} {b : Nat} {c : Nat} {mk : Nat} {s00 : State} (hmk : 3351420 ||| mk = mk) (hst : Fr mk s00 s) : Fr mk s00 (collRow s b c) := by
  refine Fr.step (k := 3351420) ?_ hmk hst
  clear hmk hst
  unfold collRow
  try dsimp only
  repeat' first | with_reducible assumption | with_reducible exact Fr.refl _ _ | intro _ | ((with_reducible apply takeTurn_fr); assumption; (focus decide)) | ((with_reducible apply collUnit_fr); (focus decide)) | ((with_reducible apply bargeHead_fr); (focus decide)) | ((with_reducible apply startColl_fr); (focus decide)) | split

theorem collRepeat_fr {s : State} {b : Nat} {c : Nat} {mk : Nat} {s00 : State} (hmk : 3351420 ||| mk = mk) (hst : Fr mk s00 s) : Fr mk s00 (collRepeat s b c) := by
  refine Fr.step (k := 3351420) ?_ hmk hst
  clear hmk hst
  unfold collRepeat
  try dsimp only
  repeat' first | with_reducible exact Fr.refl _ _ | ((with_reducible apply allowStep_fr); (focus decide)) | split

theorem collTimeout_fr {s : State} {b : Nat} {c : Nat} {mk : Nat} {s00 : State} (hmk : 3351420 ||| mk = mk) (hst : Fr mk s00 s) : Fr mk s00 (collTimeout s b c) := by
  refine Fr.step (k := 3351420) ?_ hmk hst
  clear hmk hst
  unfold collTimeout
  try dsimp only
  repeat' first | with_reducible exact Fr.refl _ _ | ((with_reducible apply endColl_fr); (focus decide)) | split

theorem chunkEnded_fr {s : State} {b : Nat} {c : Nat} {id : Nat} {j : Nat} {st : Status} {mk : Nat} {s00 : State} (hmk : 3351420 ||| mk = mk) (hst : Fr mk s00 s) : Fr mk s00 (chunkEnded s b c id j st) := by
  refine Fr.step (k := 3351420) ?_ hmk hst
  clear hmk hst
  unfold chunkEnded
  try dsimp only
  repeat' first | with_reducible exact Fr.refl _ _ | ((with_reducible apply endColl_fr); (focus decide)) | ((with_reducible apply putColl_fr); (focus decide)) | ((with_reducible apply tellDelivered_fr); (focus decide)) | split

theorem collPathLost_fr {s : State} {p : Nat} {m : Nat} {mk : Nat} {s00 : State} (hmk : 3351420 ||| mk = mk) (hst : Fr mk s00 s) : Fr mk s00 (collPathLost s p m) := by
  refine Fr.step (k := 3351420) ?_ hmk hst
  clear hmk hst
  unfold collPathLost
  try dsimp only
  repeat' first | with_reducible assumption | with_reducible exact Fr.refl _ _ | intro _ | ((with_reducible apply endColl_fr); (focus decide)) | (with_reducible apply Fr.ite) | (with_reducible apply Fr.foldl)

theorem execMove_fr {barge : Nat} {ctx : Nat} {s : State} {t00 : State} (heq0 : execMove barge ctx s = .next t00) : Fr 1254268 s t00 := by
  cases heq0
  repeat' first | with_reducible exact Fr.refl _ _ | ((with_reducible apply moveHead_fr); (focus decide))

theorem execPin_fr {barge : Nat} {ctx : Nat} {s : State} {t00 : State} (heq0 : execPin barge ctx s = .next t00) : Fr 1253756 s t00 := by
  cases heq0
  repeat' first | with_reducible exact Fr.refl _ _ | ((with_reducible apply pinHead_fr); (focus decide))

theorem execUnpin_fr {barge : Nat} {ctx : Nat} {s : State} {t00 : State} (heq0 : execUnpin barge ctx s = .next t00) : Fr 1253756 s t00 := by
  cases heq0
  repeat' first | with_reducible exact Fr.refl _ _ | ((with_reducible apply unpinHead_fr); (focus decide))

theorem execSchedule_fr {barge : Nat} {ctx : Nat} {s : State} {t00 : State} (heq0 : execSchedule barge ctx s = .next t00) : Fr 1253756 s t00 := by
  cases heq0
  repeat' first | with_reducible exact Fr.refl _ _ | ((with_reducible apply scheduleHead_fr); (focus decide))

theorem execAdvance_fr {barge : Nat} {ctx : Nat} {s : State} {t00 : State} (heq0 : execAdvance barge ctx s = .next t00) : Fr 1253756 s t00 := by
  cases heq0
  repeat' first | with_reducible exact Fr.refl _ _ | ((with_reducible apply advanceHead_fr); (focus decide))

theorem execFetchSlice_fr {barge : Nat} {ctx : Nat} {s : State} {t00 : State} (heq0 : execFetchSlice barge ctx s = .next t00) : Fr 1048636 s t00 := by
  cases heq0
  repeat' first | with_reducible exact Fr.refl _ _ | ((with_reducible apply fetchSlice_fr); (focus decide))

theorem execResidencyEpochTick_fr {deck : Nat} {s : State} {t00 : State} (heq0 : execResidencyEpochTick deck s = .next t00) : Fr 32 s t00 := by
  cases heq0
  repeat' first | with_reducible exact Fr.refl _ _ | ((with_reducible apply epochTick_fr); (focus decide))

theorem execCollective_fr {barge : Nat} {ctx : Nat} {s : State} {t00 : State} (heq0 : execCollective barge ctx s = .next t00) : Fr 3351420 s t00 := by
  cases heq0
  repeat' first | with_reducible exact Fr.refl _ _ | ((with_reducible apply collRow_fr); (focus decide))

theorem execCollReadyRepeat_fr {barge : Nat} {ctx : Nat} {s : State} {t00 : State} (heq0 : execCollReadyRepeat barge ctx s = .next t00) : Fr 3351420 s t00 := by
  cases heq0
  repeat' first | with_reducible exact Fr.refl _ _ | ((with_reducible apply collRepeat_fr); (focus decide))

theorem execCollectiveTimeout_fr {barge : Nat} {ctx : Nat} {s : State} {t00 : State} (heq0 : execCollectiveTimeout barge ctx s = .next t00) : Fr 3351420 s t00 := by
  cases heq0
  repeat' first | with_reducible exact Fr.refl _ _ | ((with_reducible apply collTimeout_fr); (focus decide))

/-! ### Mailbox -/

theorem mbRefuse_fr {s : State} {m : Nat} {bitNo : Nat} {off : Nat} {v : W64} {mk : Nat} {s00 : State} (hmk : 1114116 ||| mk = mk) (hst : Fr mk s00 s) : Fr mk s00 (mbRefuse s m bitNo off v) := by
  refine Fr.step (k := 1114116) ?_ hmk hst
  clear hmk hst
  unfold mbRefuse
  try dsimp only
  repeat' first | with_reducible exact Fr.refl _ _ | ((with_reducible apply ringRefused_fr); (focus decide)) | ((with_reducible apply modMb_fr); (focus decide))

theorem mailboxOpen_fr {s : State} {a : Agent} {m : Nat} {revMin : Nat} {revMax : Nat} {mk : Nat} {s00 : State} (hmk : 1114116 ||| mk = mk) (hst : Fr mk s00 s) : Fr mk s00 (mailboxOpen s a m revMin revMax) := by
  refine Fr.step (k := 1114116) ?_ hmk hst
  clear hmk hst
  unfold mailboxOpen
  try dsimp only
  repeat' first | with_reducible exact Fr.refl _ _ | intro _ | ((with_reducible apply modMb_fr); (focus decide)) | ((with_reducible apply mbRefuse_fr); (focus decide)) | (with_reducible apply Fr.ite)

theorem openResolve_fr {s : State} {m : Nat} {mk : Nat} {s00 : State} (hmk : 1114116 ||| mk = mk) (hst : Fr mk s00 s) : Fr mk s00 (openResolve s m) := by
  refine Fr.step (k := 1114116) ?_ hmk hst
  clear hmk hst
  unfold openResolve
  try dsimp only
  repeat' first | with_reducible exact Fr.refl _ _ | ((with_reducible apply modMb_fr); (focus decide)) | ((with_reducible apply ringRefused_fr); (focus decide)) | split

theorem doorbellWrite_fr {s : State} {a : Agent} {m : Nat} {v : W64} {mk : Nat} {s00 : State} (hmk : 1114116 ||| mk = mk) (hst : Fr mk s00 s) : Fr mk s00 (doorbellWrite s a m v) := by
  refine Fr.step (k := 1114116) ?_ hmk hst
  clear hmk hst
  unfold doorbellWrite
  try dsimp only
  repeat' first | with_reducible exact Fr.refl _ _ | intro _ | ((with_reducible apply modMb_fr); (focus decide)) | ((with_reducible apply mbRefuse_fr); (focus decide)) | (with_reducible apply Fr.ite)

theorem cplTailWrite_fr {s : State} {a : Agent} {m : Nat} {v : W64} {mk : Nat} {s00 : State} (hmk : 1114116 ||| mk = mk) (hst : Fr mk s00 s) : Fr mk s00 (cplTailWrite s a m v) := by
  refine Fr.step (k := 1114116) ?_ hmk hst
  clear hmk hst
  unfold cplTailWrite
  try dsimp only
  repeat' first | with_reducible exact Fr.refl _ _ | intro _ | ((with_reducible apply modMb_fr); (focus decide)) | ((with_reducible apply mbRefuse_fr); (focus decide)) | (with_reducible apply Fr.ite)

theorem writeCpl_fr {s : State} {m : Nat} {r : CplRec} {progress : Bool} {mk : Nat} {s00 : State} (hmk : 1114112 ||| mk = mk) (hst : Fr mk s00 s) : Fr mk s00 (writeCpl s m r progress) := by
  refine Fr.step (k := 1114112) ?_ hmk hst
  clear hmk hst
  unfold writeCpl
  try dsimp only
  repeat' first | with_reducible exact Fr.refl _ _ | intro _ | ((with_reducible apply modMb_fr); (focus decide)) | ((with_reducible apply emit_fr); (focus decide)) | (with_reducible apply Fr.ite)

theorem completionWrite_fr {s : State} {m : Nat} {mk : Nat} {s00 : State} (hmk : 1114112 ||| mk = mk) (hst : Fr mk s00 s) : Fr mk s00 (completionWrite s m) := by
  refine Fr.step (k := 1114112) ?_ hmk hst
  clear hmk hst
  unfold completionWrite
  try dsimp only
  repeat' first | with_reducible exact Fr.refl _ _ | ((with_reducible apply writeCpl_fr); (focus decide)) | ((with_reducible apply modMb_fr); (focus decide)) | split

theorem endPlain_fr {s : State} {id : Nat} {st : Status} {mk : Nat} {s00 : State} (hmk : 2293760 ||| mk = mk) (hst : Fr mk s00 s) : Fr mk s00 (endPlain s id st) := by
  refine Fr.step (k := 2293760) ?_ hmk hst
  clear hmk hst
  unfold endPlain
  try dsimp only
  repeat' first | with_reducible exact Fr.refl _ _ | ((with_reducible apply takeFree_fr); (focus decide)) | ((with_reducible apply endCmd_fr); (focus decide))

theorem noteStep_fr {s : State} {id : Nat} {mk : Nat} {s00 : State} (hmk : 131072 ||| mk = mk) (hst : Fr mk s00 s) : Fr mk s00 (noteStep s id) := by
  refine Fr.step (k := 131072) ?_ hmk hst
  clear hmk hst
  unfold noteStep
  try dsimp only
  repeat' first | with_reducible exact Fr.refl _ _ | ((with_reducible apply putCmd_fr); (focus decide)) | split | ((with_reducible apply Fr.setPur); (focus decide))

theorem countStep_fr {s : State} {id : Nat} {mk : Nat} {s00 : State} (hmk : 131072 ||| mk = mk) (hst : Fr mk s00 s) : Fr mk s00 (countStep s id) := by
  refine Fr.step (k := 131072) ?_ hmk hst
  clear hmk hst
  unfold countStep
  try dsimp only
  repeat' first | with_reducible exact Fr.refl _ _ | ((with_reducible apply noteStep_fr); (focus decide)) | ((with_reducible apply putCmd_fr); (focus decide)) | split

theorem progressWrite_fr {s : State} {m : Nat} {id : Nat} {mk : Nat} {s00 : State} (hmk : 1245184 ||| mk = mk) (hst : Fr mk s00 s) : Fr mk s00 (progressWrite s m id) := by
  refine Fr.step (k := 1245184) ?_ hmk hst
  clear hmk hst
  unfold progressWrite
  try dsimp only
  repeat' first | with_reducible exact Fr.refl _ _ | ((with_reducible apply putCmd_fr); (focus decide)) | ((with_reducible apply writeCpl_fr); (focus decide)) | split

-- HO
theorem startRow_fr {s : State} {id : Nat} {op : Nat} {f : PCmd → State} {mk : Nat} {s00 : State} (hmk : 0 ||| mk = mk) (hf : ∀ x0, Fr mk s00 (f x0)) (hst : Fr mk s00 s) : Fr mk s00 (startRow s id op f) := by
  unfold startRow
  try dsimp only
  repeat' first | with_reducible assumption | (with_reducible apply hf) | split

theorem nopCmd_fr {s : State} {id : Nat} {mk : Nat} {s00 : State} (hmk : 2293760 ||| mk = mk) (hst : Fr mk s00 s) : Fr mk s00 (nopCmd s id) := by
  refine Fr.step (k := 2293760) ?_ hmk hst
  clear hmk hst
  unfold nopCmd
  try dsimp only
  repeat' first | with_reducible exact Fr.refl _ _ | intro _ | ((with_reducible apply startRow_fr); (focus decide)) | ((with_reducible apply endPlain_fr); (focus decide))

theorem enqueueCmd_fr {s : State} {id : Nat} {mk : Nat} {s00 : State} (hmk : 196608 ||| mk = mk) (hst : Fr mk s00 s) : Fr mk s00 (enqueueCmd s id) := by
  refine Fr.step (k := 196608) ?_ hmk hst
  clear hmk hst
  unfold enqueueCmd
  try dsimp only
  repeat' first | with_reducible exact Fr.refl _ _ | intro _ | ((with_reducible apply startRow_fr); (focus decide)) | ((with_reducible apply putCmd_fr); (focus decide)) | ((with_reducible apply endCmd_fr); (focus decide)) | split

theorem enqueueStop_fr {s : State} {id : Nat} {c : PCmd} {q : Enqueue} {st : Status} {mk : Nat} {s00 : State} (hmk : 196608 ||| mk = mk) (hst : Fr mk s00 s) : Fr mk s00 (enqueueStop s id c q st) := by
  refine Fr.step (k := 196608) ?_ hmk hst
  clear hmk hst
  unfold enqueueStop
  try dsimp only
  repeat' first | with_reducible exact Fr.refl _ _ | ((with_reducible apply settleEnqueue_fr); (focus decide)) | ((with_reducible apply putCmd_fr); (focus decide))

theorem enqueueCount_fr {s : State} {id : Nat} {f : Enqueue → Enqueue} {mk : Nat} {s00 : State} (hmk : 131072 ||| mk = mk) (hst : Fr mk s00 s) : Fr mk s00 (enqueueCount s id f) := by
  refine Fr.step (k := 131072) ?_ hmk hst
  clear hmk hst
  unfold enqueueCount
  try dsimp only
  repeat' first | with_reducible exact Fr.refl _ _ | ((with_reducible apply putCmd_fr); (focus decide)) | split

theorem enqueueOffer_fr {s : State} {id : Nat} {mk : Nat} {s00 : State} (hmk : 1253756 ||| mk = mk) (hst : Fr mk s00 s) : Fr mk s00 (enqueueOffer s id) := by
  refine Fr.step (k := 1253756) ?_ hmk hst
  clear hmk hst
  unfold enqueueOffer
  try dsimp only
  repeat' first | with_reducible exact Fr.refl _ _ | ((with_reducible apply rd_fr); (focus decide)) | ((with_reducible apply enqueueStop_fr); (focus decide)) | ((with_reducible apply offerCmd_eq); assumption; (focus decide)) | ((with_reducible apply noteStep_fr); (focus decide)) | ((with_reducible apply enqueueCount_fr); (focus decide)) | ((with_reducible apply reportCmd_fr); (focus decide)) | ((with_reducible apply AFr.val_eq); assumption) | split

theorem execMailboxOpen_fr {agent : Agent} {m : Nat} {revMin : Nat} {revMax : Nat} {s : State} {t00 : State} (heq0 : execMailboxOpen agent m revMin revMax s = .next t00) : Fr 1114116 s t00 := by
  cases heq0
  repeat' first | with_reducible exact Fr.refl _ _ | ((with_reducible apply mailboxOpen_fr); (focus decide))

theorem execMailboxOpenResolve_fr {m : Nat} {s : State} {t00 : State} (heq0 : execMailboxOpenResolve m s = .next t00) : Fr 1114116 s t00 := by
  cases heq0
  repeat' first | with_reducible exact Fr.refl _ _ | ((with_reducible apply openResolve_fr); (focus decide))

theorem execMbDoorbell_fr {agent : Agent} {m : Nat} {v : W64} {s : State} {t00 : State} (heq0 : execMbDoorbell agent m v s = .next t00) : Fr 1114116 s t00 := by
  cases heq0
  repeat' first | with_reducible exact Fr.refl _ _ | ((with_reducible apply doorbellWrite_fr); (focus decide))

theorem execMbCplTailWrite_fr {agent : Agent} {m : Nat} {v : W64} {s : State} {t00 : State} (heq0 : execMbCplTailWrite agent m v s = .next t00) : Fr 1114116 s t00 := by
  cases heq0
  repeat' first | with_reducible exact Fr.refl _ _ | ((with_reducible apply cplTailWrite_fr); (focus decide))

theorem execCompletionWrite_fr {m : Nat} {s : State} {t00 : State} (heq0 : execCompletionWrite m s = .next t00) : Fr 1114112 s t00 := by
  cases heq0
  repeat' first | with_reducible exact Fr.refl _ _ | ((with_reducible apply completionWrite_fr); (focus decide))

theorem execProgressWrite_fr {m : Nat} {id : Nat} {s : State} {t00 : State} (heq0 : execProgressWrite m id s = .next t00) : Fr 1245184 s t00 := by
  cases heq0
  repeat' first | with_reducible exact Fr.refl _ _ | ((with_reducible apply progressWrite_fr); (focus decide))

theorem execNop_fr {id : Nat} {s : State} {t00 : State} (heq0 : execNop id s = .next t00) : Fr 2293760 s t00 := by
  cases heq0
  repeat' first | with_reducible exact Fr.refl _ _ | ((with_reducible apply nopCmd_fr); (focus decide))

theorem execEnqueue_fr {id : Nat} {s : State} {t00 : State} (heq0 : execEnqueue id s = .next t00) : Fr 196608 s t00 := by
  cases heq0
  repeat' first | with_reducible exact Fr.refl _ _ | ((with_reducible apply enqueueCmd_fr); (focus decide))

/-! ### Slip -/

theorem modSlip_fr {s : State} {f : SlipSt → SlipSt} {mk : Nat} {s00 : State} (hmk : 128 ||| mk = mk) (hst : Fr mk s00 s) : Fr mk s00 (modSlip s f) := by
  refine Fr.step (k := 128) ?_ hmk hst
  clear hmk hst
  unfold modSlip
  try dsimp only
  repeat' first | with_reducible assumption | with_reducible exact Fr.refl _ _ | intro _ | (with_reducible apply Fr.ite) | split | ((with_reducible apply Fr.setSlip); (focus decide))

theorem modSq_fr {s : State} {q : Nat} {f : SlipQ → SlipQ} {mk : Nat} {s00 : State} (hmk : 128 ||| mk = mk) (hst : Fr mk s00 s) : Fr mk s00 (modSq s q f) := by
  refine Fr.step (k := 128) ?_ hmk hst
  clear hmk hst
  unfold modSq
  try dsimp only
  repeat' first | with_reducible assumption | with_reducible exact Fr.refl _ _ | intro _ | ((with_reducible apply modSlip_fr); (focus decide))

theorem modGrant_fr {s : State} {q : Nat} {m : Nat} {c : Nat} {f : Grant → Grant} {mk : Nat} {s00 : State} (hmk : 128 ||| mk = mk) (hst : Fr mk s00 s) : Fr mk s00 (modGrant s q m c f) := by
  refine Fr.step (k := 128) ?_ hmk hst
  clear hmk hst
  unfold modGrant
  try dsimp only
  repeat' first | with_reducible assumption | with_reducible exact Fr.refl _ _ | intro _ | ((with_reducible apply modSlip_fr); (focus decide))

theorem modAccount_fr {s : State} {q : Nat} {m : Nat} {c : Nat} {f : Grant → Grant} {mk : Nat} {s00 : State} (hmk : 128 ||| mk = mk) (hst : Fr mk s00 s) : Fr mk s00 (modAccount s q m c f) := by
  refine Fr.step (k := 128) ?_ hmk hst
  clear hmk hst
  unfold modAccount
  try dsimp only
  repeat' first | with_reducible assumption | with_reducible exact Fr.refl _ _ | intro _ | ((with_reducible apply modSlip_fr); (focus decide))

theorem sendCredit_fr {s : State} {m : Nat} {q : Nat} {c : Nat} {words : Nat} {mk : Nat} {s00 : State} (hmk : 256 ||| mk = mk) (hst : Fr mk s00 s) : Fr mk s00 (sendCredit s m q c words) := by
  refine Fr.step (k := 256) ?_ hmk hst
  clear hmk hst
  unfold sendCredit
  try dsimp only
  repeat' first | with_reducible assumption | with_reducible exact Fr.refl _ _ | intro _ | ((with_reducible apply choosePort_fr); assumption; (focus decide)) | ((with_reducible apply queueFrame_fr); (focus decide)) | (with_reducible apply Fr.ite) | split

theorem reserve_fr {s : State} {q : Nat} {m : Nat} {c : Nat} {n : Nat} {eng : Option Eng} {port : Nat} {tag : Option (BitVec 32)} {mk : Nat} {s00 : State} (hmk : 128 ||| mk = mk) (hst : Fr mk s00 s) : Fr mk s00 (reserve s q m c n eng port tag) := by
  refine Fr.step (k := 128) ?_ hmk hst
  clear hmk hst
  unfold reserve
  try dsimp only
  repeat' first | with_reducible assumption | with_reducible exact Fr.refl _ _ | intro _ | ((with_reducible apply modSq_fr); (focus decide)) | ((with_reducible apply modGrant_fr); (focus decide))

theorem advanceQ_fr {q : Nat} {l : List Resv} {s : State} {mk : Nat} {s00 : State} (hmk : 1048748 ||| mk = mk)
    (hst : Fr mk s00 s) : Fr mk s00 (advanceQ q l s) := by
  induction l generalizing s with
  | nil => exact hst
  | cons r l ih =>
    unfold advanceQ
    dsimp only
    refine Fr.ite (fun _ => ih hst) fun _ => ?_
    split
    · exact hst
    · exact ih (modSq_fr (sub_trans (by decide) hmk) hst)
    · exact ih (modSq_fr (sub_trans (by decide) hmk) hst)
    · refine ih (modSlip_fr (sub_trans (by decide) hmk) (modSq_fr (sub_trans (by decide) hmk) ?_))
      exact AFr.run (wr_fr (sub_trans (by decide) hmk)) hst

theorem advanceAll_fr {s : State} {q : Nat} {mk : Nat} {s00 : State} (hmk : 1048748 ||| mk = mk) (hst : Fr mk s00 s) : Fr mk s00 (advanceAll s q) := by
  refine Fr.step (k := 1048748) ?_ hmk hst
  clear hmk hst
  unfold advanceAll
  try dsimp only
  repeat' first | with_reducible assumption | with_reducible exact Fr.refl _ _ | intro _ | ((with_reducible apply advanceQ_fr); (focus decide))

theorem commitAt_fr {s : State} {q : Nat} {pos : Nat} {w : Nat} {mk : Nat} {s00 : State} (hmk : 1048748 ||| mk = mk) (hst : Fr mk s00 s) : Fr mk s00 (commitAt s q pos w) := by
  refine Fr.step (k := 1048748) ?_ hmk hst
  clear hmk hst
  unfold commitAt
  try dsimp only
  repeat' first | with_reducible assumption | with_reducible exact Fr.refl _ _ | intro _ | ((with_reducible apply advanceAll_fr); (focus decide)) | ((with_reducible apply modSq_fr); (focus decide))

theorem rewindAt_fr {s : State} {q : Nat} {pos : Nat} {mk : Nat} {s00 : State} (hmk : 1049004 ||| mk = mk) (hst : Fr mk s00 s) : Fr mk s00 (rewindAt s q pos) := by
  refine Fr.step (k := 1049004) ?_ hmk hst
  clear hmk hst
  unfold rewindAt
  try dsimp only
  repeat' first | with_reducible assumption | with_reducible exact Fr.refl _ _ | intro _ | ((with_reducible apply modSlip_fr); (focus decide)) | ((with_reducible apply modSq_fr); (focus decide)) | ((with_reducible apply modGrant_fr); (focus decide)) | ((with_reducible apply sendCredit_fr); (focus decide)) | ((with_reducible apply advanceAll_fr); (focus decide)) | (with_reducible apply Fr.ite) | split

theorem returnCredit_fr {q : Nat} {s : State} {r : Resv} {mk : Nat} {s00 : State} (hmk : 384 ||| mk = mk) (hst : Fr mk s00 s) : Fr mk s00 (returnCredit q s r) := by
  refine Fr.step (k := 384) ?_ hmk hst
  clear hmk hst
  unfold returnCredit
  try dsimp only
  repeat' first | with_reducible assumption | with_reducible exact Fr.refl _ _ | intro _ | ((with_reducible apply modGrant_fr); (focus decide)) | ((with_reducible apply sendCredit_fr); (focus decide)) | (with_reducible apply Fr.ite)

theorem releaseQ_fr {s : State} {q : Nat} {clear : Bool} {mk : Nat} {s00 : State} (hmk : 384 ||| mk = mk) (hst : Fr mk s00 s) : Fr mk s00 (releaseQ s q clear) := by
  refine Fr.step (k := 384) ?_ hmk hst
  clear hmk hst
  unfold releaseQ
  try dsimp only
  repeat' first | with_reducible assumption | with_reducible exact Fr.refl _ _ | intro _ | ((with_reducible apply modSq_fr); (focus decide)) | ((with_reducible apply returnCredit_fr); (focus decide)) | (with_reducible apply Fr.ite) | (with_reducible apply Fr.foldl)

theorem grantCredit_fr {s : State} {q : Nat} {m : Nat} {c : Nat} {n : Nat} {t00 : State} {mk : Nat} {s00 : State} (heq0 : grantCredit s q m c n = some t00) (hmk : 384 ||| mk = mk)
    (hst : Fr mk s00 s) : Fr mk s00 t00 := by
  refine Fr.step (k := 384) ?_ hmk hst
  clear hmk hst
  unfold grantCredit at heq0
  try dsimp only at heq0
  repeat' split at heq0
  all_goals cases heq0
  repeat' first | with_reducible assumption | with_reducible exact Fr.refl _ _ | intro _ | ((with_reducible apply sendCredit_fr); (focus decide)) | ((with_reducible apply modGrant_fr); (focus decide))

theorem slipHead_fr {s : State} {c : Nat} {op : Nat} {f : State → QCmd → Option State} {mk : Nat} {s00 : State}
    (hmk : 1253756 ||| mk = mk) (hf : ∀ t x u, f t x = some u → Fr mk s00 t → Fr mk s00 u) (hst : Fr mk s00 s) :
    Fr mk s00 (slipHead s c op f) := by
  refine headRow_fr (sub_trans (by decide) hmk) (fun q => ?_) hst
  refine Fr.ite (fun _ => completeHead_fr (sub_trans (by decide) hmk) hst) fun _ => ?_
  refine Fr.ite (fun _ => completeHead_fr (sub_trans (by decide) hmk) hst) fun _ => ?_
  refine Fr.ite (fun _ => completeHead_fr (sub_trans (by decide) hmk) hst) fun _ => ?_
  split
  · exact hst
  · have h1 := takeTurn_fr (by assumption) (sub_trans (by decide) hmk) hst
    split
    · exact completeHead_fr (sub_trans (by decide) hmk) (hf _ _ _ (by assumption) h1)
    · exact completeHead_fr (sub_trans (by decide) hmk) h1

theorem slipConsume_fr {s : State} {c : Nat} {op : Nat} {f : Bytes → SlipQ → Option SlipQ} {mk : Nat} {s00 : State}
    (hmk : 1253884 ||| mk = mk) (hst : Fr mk s00 s) : Fr mk s00 (slipConsume s c op f) := by
  refine slipHead_fr (sub_trans (by decide) hmk) (fun t x u e h => ?_) hst
  cases hx : f x.bytes (getSq t (slipQid x.bytes)) with
  | none => rw [hx] at e; exact absurd e (by simp)
  | some y =>
    rw [hx] at e
    cases e
    exact modSq_fr (sub_trans (by decide) hmk) h

theorem pushWords_fr {s : State} {c : Nat} {b : Bytes} {mk : Nat} {s00 : State} (hmk : 1049004 ||| mk = mk) (hst : Fr mk s00 s) : Fr mk s00 (pushWords s c b).2 := by
  refine Fr.step (k := 1049004) ?_ hmk hst
  clear hmk hst
  unfold pushWords
  try dsimp only
  repeat' first | with_reducible assumption | with_reducible exact Fr.refl _ _ | with_reducible exact AFr.pure _ | with_reducible exact AFr.throw _ | with_reducible exact AFr.stopIf _ _ | with_reducible exact AFr.get | intro _ | ((with_reducible apply reserve_fr); (focus decide)) | ((with_reducible apply rd_fr); (focus decide)) | ((with_reducible apply wr_fr); (focus decide)) | ((with_reducible apply commitAt_fr); (focus decide)) | ((with_reducible apply rewindAt_fr); (focus decide)) | (with_reducible apply AFr.run) | (with_reducible apply AFr.runSt) | (with_reducible apply AFr.val) | ((with_reducible apply AFr.run_eq); assumption) | ((with_reducible apply AFr.runSt_eq); assumption) | ((with_reducible apply AFr.val_eq); assumption) | (with_reducible apply AFr.get_bind) | (with_reducible apply AFr.bind) | (with_reducible apply AFr.set) | (with_reducible apply AFr.modify) | (with_reducible apply AFr.actMod) | (with_reducible apply AFr.ite) | (with_reducible apply AFr.map) | (with_reducible apply AFr.foldlM) | (with_reducible apply AFr.mapM) | (with_reducible apply AFr.forM) | (with_reducible apply Fr.ite) | split

theorem pushWords_eq {s : State} {c : Nat} {b : Bytes} {y0 : Status} {t00 : State} {mk : Nat} {s00 : State} (heq0 : pushWords s c b = (y0, t00)) (hmk : 1049004 ||| mk = mk)
    (hst : Fr mk s00 s) : Fr mk s00 t00 := by
  have h1 := @pushWords_fr s c b mk s00 hmk hst
  rw [heq0] at h1
  exact h1

theorem pushRemote_fr {s : State} {c : Nat} {q : QCmd} {p : Nat} {m : Nat} {mk : Nat} {s00 : State} (hmk : 1049004 ||| mk = mk) (hst : Fr mk s00 s) : Fr mk s00 (pushRemote s c q p m).2 := by
  refine Fr.step (k := 1049004) ?_ hmk hst
  clear hmk hst
  unfold pushRemote
  try dsimp only
  repeat' first | with_reducible assumption | with_reducible exact Fr.refl _ _ | with_reducible exact AFr.pure _ | with_reducible exact AFr.throw _ | with_reducible exact AFr.stopIf _ _ | with_reducible exact AFr.get | intro _ | ((with_reducible apply rd_fr); (focus decide)) | ((with_reducible apply modAccount_fr); (focus decide)) | ((with_reducible apply startOp_fr); (focus decide)) | ((with_reducible apply startOp_eq); assumption; (focus decide)) | ((with_reducible apply queueFrame_fr); (focus decide)) | ((with_reducible apply chargeFerry_fr); (focus decide)) | (with_reducible apply AFr.run) | (with_reducible apply AFr.runSt) | (with_reducible apply AFr.val) | ((with_reducible apply AFr.run_eq); assumption) | ((with_reducible apply AFr.runSt_eq); assumption) | ((with_reducible apply AFr.val_eq); assumption) | (with_reducible apply AFr.get_bind) | (with_reducible apply AFr.bind) | (with_reducible apply AFr.set) | (with_reducible apply AFr.modify) | (with_reducible apply AFr.actMod) | (with_reducible apply AFr.ite) | (with_reducible apply AFr.map) | (with_reducible apply AFr.foldlM) | (with_reducible apply AFr.mapM) | (with_reducible apply AFr.forM) | (with_reducible apply Fr.ite) | (with_reducible apply Fr.foldl) | (with_reducible apply Fr.foldl_fst) | (with_reducible apply Fr.foldl_snd) | split

theorem pushRemote_eq {s : State} {c : Nat} {q : QCmd} {p : Nat} {m : Nat} {y0 : Option Status} {t00 : State} {mk : Nat} {s00 : State} (heq0 : pushRemote s c q p m = (y0, t00)) (hmk : 1049004 ||| mk = mk)
    (hst : Fr mk s00 s) : Fr mk s00 t00 := by
  have h1 := @pushRemote_fr s c q p m mk s00 hmk hst
  rw [heq0] at h1
  exact h1

theorem pushHead_fr {s : State} {c : Nat} {mk : Nat} {s00 : State} (hmk : 1253884 ||| mk = mk) (hst : Fr mk s00 s) : Fr mk s00 (pushHead s c) := by
  refine Fr.step (k := 1253884) ?_ hmk hst
  clear hmk hst
  unfold pushHead
  try dsimp only
  repeat' first | with_reducible assumption | with_reducible exact Fr.refl _ _ | intro _ | ((with_reducible apply headRow_fr); (focus decide)) | ((with_reducible apply completeHead_fr); (focus decide)) | ((with_reducible apply markHead_fr); (focus decide)) | ((with_reducible apply takeTurn_fr); assumption; (focus decide)) | ((with_reducible apply pushWords_fr); (focus decide)) | ((with_reducible apply pushWords_eq); assumption; (focus decide)) | ((with_reducible apply choosePort_fr); assumption; (focus decide)) | ((with_reducible apply pushRemote_fr); (focus decide)) | ((with_reducible apply pushRemote_eq); assumption; (focus decide)) | ((with_reducible apply popQ_fr); (focus decide)) | (with_reducible apply Fr.ite) | split

theorem producerFails_fr {s : State} {e : Eng} {c : Nat} {st : Status} {o : Overflow} {mk : Nat} {s00 : State} (hmk : 1253756 ||| mk = mk) (hst : Fr mk s00 s) : Fr mk s00 (producerFails s e c st o) := by
  refine Fr.step (k := 1253756) ?_ hmk hst
  clear hmk hst
  unfold producerFails
  try dsimp only
  repeat' first | with_reducible assumption | with_reducible exact Fr.refl _ _ | intro _ | ((with_reducible apply completeHead_fr); (focus decide)) | (with_reducible apply Fr.ite) | split

theorem producerReserve_fr {s : State} {q : Nat} {e : Eng} {c : Nat} {n : Nat} {mk : Nat} {s00 : State} (hmk : 1253884 ||| mk = mk) (hst : Fr mk s00 s) : Fr mk s00 (producerReserve s q e c n) := by
  refine Fr.step (k := 1253884) ?_ hmk hst
  clear hmk hst
  unfold producerReserve
  try dsimp only
  repeat' first | with_reducible assumption | with_reducible exact Fr.refl _ _ | intro _ | ((with_reducible apply producerFails_fr); (focus decide)) | ((with_reducible apply reserve_fr); (focus decide)) | (with_reducible apply Fr.ite) | split

theorem writeWords_fr {s : State} {w : Who} {q : Nat} {pos : Nat} {b : Bytes} {mk : Nat} {s00 : State} (hmk : 1048620 ||| mk = mk) (hst : Fr mk s00 s) : Fr mk s00 (writeWords s w q pos b).2 := by
  refine Fr.step (k := 1048620) ?_ hmk hst
  clear hmk hst
  unfold writeWords
  try dsimp only
  repeat' first | with_reducible assumption | with_reducible exact Fr.refl _ _ | with_reducible exact AFr.pure _ | with_reducible exact AFr.throw _ | with_reducible exact AFr.stopIf _ _ | with_reducible exact AFr.get | intro _ | ((with_reducible apply wr_fr); (focus decide)) | (with_reducible apply AFr.run) | (with_reducible apply AFr.runSt) | (with_reducible apply AFr.val) | ((with_reducible apply AFr.run_eq); assumption) | ((with_reducible apply AFr.runSt_eq); assumption) | ((with_reducible apply AFr.val_eq); assumption) | (with_reducible apply AFr.get_bind) | (with_reducible apply AFr.bind) | (with_reducible apply AFr.set) | (with_reducible apply AFr.modify) | (with_reducible apply AFr.actMod) | (with_reducible apply AFr.ite) | (with_reducible apply AFr.map) | (with_reducible apply AFr.foldlM) | (with_reducible apply AFr.mapM) | (with_reducible apply AFr.forM)

theorem writeWords_eq {s : State} {w : Who} {q : Nat} {pos : Nat} {b : Bytes} {y0 : Status} {t00 : State} {mk : Nat} {s00 : State} (heq0 : writeWords s w q pos b = (y0, t00)) (hmk : 1048620 ||| mk = mk)
    (hst : Fr mk s00 s) : Fr mk s00 t00 := by
  have h1 := @writeWords_fr s w q pos b mk s00 hmk hst
  rw [heq0] at h1
  exact h1

theorem producerCommit_fr {s : State} {q : Nat} {pos : Nat} {words : Bytes} {mk : Nat} {s00 : State} (hmk : 1253884 ||| mk = mk) (hst : Fr mk s00 s) : Fr mk s00 (producerCommit s q pos words) := by
  refine Fr.step (k := 1253884) ?_ hmk hst
  clear hmk hst
  unfold producerCommit
  try dsimp only
  repeat' first | with_reducible assumption | with_reducible exact Fr.refl _ _ | intro _ | ((with_reducible apply writeWords_fr); (focus decide)) | ((with_reducible apply writeWords_eq); assumption; (focus decide)) | ((with_reducible apply commitAt_fr); (focus decide)) | ((with_reducible apply producerFails_fr); (focus decide)) | ((with_reducible apply rewindAt_fr); (focus decide)) | (with_reducible apply Fr.ite) | split

theorem modRouter_fr {s : State} {k : Nat} {f : RouterSt → RouterSt} {mk : Nat} {s00 : State} (hmk : 1024 ||| mk = mk) (hst : Fr mk s00 s) : Fr mk s00 (modRouter s k f) := by
  refine Fr.step (k := 1024) ?_ hmk hst
  clear hmk hst
  unfold modRouter
  try dsimp only
  repeat' first | with_reducible assumption | with_reducible exact Fr.refl _ _ | intro _ | (with_reducible apply Fr.ite) | split | ((with_reducible apply Fr.setRouters); (focus decide))

theorem settleDispatch_fr {s : State} {k : Nat} {c : Nat} {mk : Nat} {s00 : State} (hmk : 1254780 ||| mk = mk) (hst : Fr mk s00 s) : Fr mk s00 (settleDispatch s k c) := by
  refine Fr.step (k := 1254780) ?_ hmk hst
  clear hmk hst
  unfold settleDispatch
  try dsimp only
  repeat' first | with_reducible assumption | with_reducible exact Fr.refl _ _ | intro _ | ((with_reducible apply modRouter_fr); (focus decide)) | ((with_reducible apply completeCmd_fr); (focus decide)) | (with_reducible apply Fr.ite) | split

theorem setDisp_fr {s : State} {k : Nat} {c : Nat} {f : DispOp → DispOp} {mk : Nat} {s00 : State} (hmk : 1024 ||| mk = mk) (hst : Fr mk s00 s) : Fr mk s00 (setDisp s k c f) := by
  refine Fr.step (k := 1024) ?_ hmk hst
  clear hmk hst
  unfold setDisp
  try dsimp only
  repeat' first | with_reducible assumption | with_reducible exact Fr.refl _ _ | intro _ | ((with_reducible apply modRouter_fr); (focus decide)) | (with_reducible apply Fr.ite) | split

theorem modDisp_fr {s : State} {k : Nat} {c : Nat} {f : DispOp → DispOp} {mk : Nat} {s00 : State} (hmk : 1254780 ||| mk = mk) (hst : Fr mk s00 s) : Fr mk s00 (modDisp s k c f) := by
  refine Fr.step (k := 1254780) ?_ hmk hst
  clear hmk hst
  unfold modDisp
  try dsimp only
  repeat' first | with_reducible assumption | with_reducible exact Fr.refl _ _ | intro _ | ((with_reducible apply settleDispatch_fr); (focus decide)) | ((with_reducible apply setDisp_fr); (focus decide))

theorem failDisp_fr {s : State} {k : Nat} {c : Nat} {st : Status} {v : Overflow} {mk : Nat} {s00 : State} (hmk : 1254780 ||| mk = mk) (hst : Fr mk s00 s) : Fr mk s00 (failDisp s k c st v) := by
  refine Fr.step (k := 1254780) ?_ hmk hst
  clear hmk hst
  unfold failDisp
  try dsimp only
  repeat' first | with_reducible assumption | with_reducible exact Fr.refl _ _ | intro _ | ((with_reducible apply modDisp_fr); (focus decide))

theorem stopDispatches_fr {s : State} {q : Nat} {mk : Nat} {s00 : State} (hmk : 1254780 ||| mk = mk) (hst : Fr mk s00 s) : Fr mk s00 (stopDispatches s q) := by
  refine Fr.step (k := 1254780) ?_ hmk hst
  clear hmk hst
  unfold stopDispatches
  try dsimp only
  repeat' first | with_reducible assumption | with_reducible exact Fr.refl _ _ | intro _ | ((with_reducible apply failDisp_fr); (focus decide)) | (with_reducible apply Fr.ite) | (with_reducible apply Fr.foldl) | (with_reducible apply Fr.foldl_fst) | (with_reducible apply Fr.foldl_snd) | split | ((with_reducible apply Fr.setEngs); (focus decide))

theorem enableQueue_fr {s : State} {q : Nat} {mk : Nat} {s00 : State} (hmk : 1048708 ||| mk = mk) (hst : Fr mk s00 s) : Fr mk s00 (enableQueue s q) := by
  refine Fr.step (k := 1048708) ?_ hmk hst
  clear hmk hst
  unfold enableQueue
  try dsimp only
  repeat' first | with_reducible assumption | with_reducible exact Fr.refl _ _ | intro _ | ((with_reducible apply modSq_fr); (focus decide)) | ((with_reducible apply modSlip_fr); (focus decide)) | ((with_reducible apply raise_fr); (focus decide)) | (with_reducible apply Fr.ite)

theorem abortOpen_fr {q : Nat} {s : State} {r : Resv} {mk : Nat} {s00 : State} (hmk : 1049004 ||| mk = mk) (hst : Fr mk s00 s) : Fr mk s00 (abortOpen q s r) := by
  refine Fr.step (k := 1049004) ?_ hmk hst
  clear hmk hst
  unfold abortOpen
  try dsimp only
  repeat' first | with_reducible assumption | with_reducible exact Fr.refl _ _ | intro _ | ((with_reducible apply rewindAt_fr); (focus decide)) | ((with_reducible apply queueFrame_fr); (focus decide)) | (with_reducible apply Fr.ite) | split

theorem disableQueue_fr {s : State} {q : Nat} {mk : Nat} {s00 : State} (hmk : 1254908 ||| mk = mk) (hst : Fr mk s00 s) : Fr mk s00 (disableQueue s q) := by
  refine Fr.step (k := 1254908) ?_ hmk hst
  clear hmk hst
  unfold disableQueue
  try dsimp only
  repeat' first | with_reducible assumption | with_reducible exact Fr.refl _ _ | intro _ | ((with_reducible apply modSq_fr); (focus decide)) | ((with_reducible apply abortOpen_fr); (focus decide)) | ((with_reducible apply returnCredit_fr); (focus decide)) | ((with_reducible apply stopDispatches_fr); (focus decide)) | ((with_reducible apply markQueued_fr); (focus decide)) | (with_reducible apply Fr.ite) | (with_reducible apply Fr.foldl)

theorem writeSlpCfg_fr {s : State} {q : Nat} {v : W64} {mk : Nat} {s00 : State} (hmk : 1254908 ||| mk = mk) (hst : Fr mk s00 s) : Fr mk s00 (writeSlpCfg s q v) := by
  refine Fr.step (k := 1254908) ?_ hmk hst
  clear hmk hst
  unfold writeSlpCfg
  try dsimp only
  repeat' first | with_reducible assumption | with_reducible exact Fr.refl _ _ | intro _ | ((with_reducible apply modSq_fr); (focus decide)) | ((with_reducible apply disableQueue_fr); (focus decide)) | ((with_reducible apply enableQueue_fr); (focus decide)) | (with_reducible apply Fr.ite)

theorem pushFrame_fr {s : State} {p : Nat} {f : FFrame} {mk : Nat} {s00 : State} (hmk : 1049004 ||| mk = mk) (hst : Fr mk s00 s) : Fr mk s00 (pushFrame s p f) := by
  refine Fr.step (k := 1049004) ?_ hmk hst
  clear hmk hst
  unfold pushFrame
  try dsimp only
  repeat' first | with_reducible assumption | with_reducible exact Fr.refl _ _ | intro _ | ((with_reducible apply reserve_fr); (focus decide)) | ((with_reducible apply refuseOp_fr); (focus decide)) | ((with_reducible apply writeWords_fr); (focus decide)) | ((with_reducible apply writeWords_eq); assumption; (focus decide)) | ((with_reducible apply replyTo_fr); (focus decide)) | ((with_reducible apply commitAt_fr); (focus decide)) | ((with_reducible apply modSq_fr); (focus decide)) | ((with_reducible apply rewindAt_fr); (focus decide)) | (with_reducible apply Fr.ite) | split

theorem creditFrame_fr {s : State} {f : FFrame} {mk : Nat} {s00 : State} (hmk : 128 ||| mk = mk) (hst : Fr mk s00 s) : Fr mk s00 (creditFrame s f) := by
  refine Fr.step (k := 128) ?_ hmk hst
  clear hmk hst
  unfold creditFrame
  try dsimp only
  repeat' first | with_reducible assumption | with_reducible exact Fr.refl _ _ | intro _ | ((with_reducible apply modSlip_fr); (focus decide)) | ((with_reducible apply modAccount_fr); (focus decide)) | (with_reducible apply Fr.ite)

theorem slipPathLost_fr {s : State} {m : Nat} {mk : Nat} {s00 : State} (hmk : 1049004 ||| mk = mk) (hst : Fr mk s00 s) : Fr mk s00 (slipPathLost s m) := by
  refine Fr.step (k := 1049004) ?_ hmk hst
  clear hmk hst
  unfold slipPathLost
  try dsimp only
  repeat' first | with_reducible assumption | with_reducible exact Fr.refl _ _ | intro _ | ((with_reducible apply rewindAt_fr); (focus decide)) | ((with_reducible apply modSlip_fr); (focus decide)) | (with_reducible apply Fr.ite) | (with_reducible apply Fr.foldl)

theorem slipResync_fr {s : State} {p : Nat} {m : Nat} {mk : Nat} {s00 : State} (hmk : 384 ||| mk = mk) (hst : Fr mk s00 s) : Fr mk s00 (slipResync s p m) := by
  refine Fr.step (k := 384) ?_ hmk hst
  clear hmk hst
  unfold slipResync
  try dsimp only
  repeat' first | with_reducible assumption | with_reducible exact Fr.refl _ _ | intro _ | ((with_reducible apply queueFrame_fr); (focus decide)) | ((with_reducible apply modSlip_fr); (focus decide)) | (with_reducible apply Fr.ite) | (with_reducible apply Fr.foldl)

theorem execPush_fr {ctx : Nat} {s : State} {t00 : State} (heq0 : execPush ctx s = .next t00) : Fr 1253884 s t00 := by
  cases heq0
  repeat' first | with_reducible assumption | with_reducible exact Fr.refl _ _ | intro _ | ((with_reducible apply pushHead_fr); (focus decide))

theorem execGrant_fr {ctx : Nat} {s : State} {t00 : State} (heq0 : execGrant ctx s = .next t00) : Fr 1253884 s t00 := by
  cases heq0
  repeat' first | with_reducible assumption | with_reducible exact Fr.refl _ _ | intro _ | ((with_reducible apply slipHead_fr); (focus decide)) | ((with_reducible apply grantCredit_fr); assumption; (focus decide))

theorem execTake_fr {ctx : Nat} {s : State} {t00 : State} (heq0 : execTake ctx s = .next t00) : Fr 1253884 s t00 := by
  cases heq0
  repeat' first | with_reducible assumption | with_reducible exact Fr.refl _ _ | intro _ | ((with_reducible apply slipConsume_fr); (focus decide))

theorem execDropRest_fr {ctx : Nat} {s : State} {t00 : State} (heq0 : execDropRest ctx s = .next t00) : Fr 1253884 s t00 := by
  cases heq0
  repeat' first | with_reducible assumption | with_reducible exact Fr.refl _ _ | intro _ | ((with_reducible apply slipConsume_fr); (focus decide))

theorem execMark_fr {ctx : Nat} {s : State} {t00 : State} (heq0 : execMark ctx s = .next t00) : Fr 1253884 s t00 := by
  cases heq0
  repeat' first | with_reducible assumption | with_reducible exact Fr.refl _ _ | intro _ | ((with_reducible apply slipConsume_fr); (focus decide))

theorem execRewind_fr {ctx : Nat} {s : State} {t00 : State} (heq0 : execRewind ctx s = .next t00) : Fr 1253884 s t00 := by
  cases heq0
  repeat' first | with_reducible assumption | with_reducible exact Fr.refl _ _ | intro _ | ((with_reducible apply slipConsume_fr); (focus decide))

theorem execRelease_fr {ctx : Nat} {s : State} {t00 : State} (heq0 : execRelease ctx s = .next t00) : Fr 1253884 s t00 := by
  cases heq0
  repeat' first | with_reducible assumption | with_reducible exact Fr.refl _ _ | intro _ | ((with_reducible apply slipHead_fr); (focus decide)) | ((with_reducible apply releaseQ_fr); (focus decide)) | (cases ‹(some _ : Option State) = some _›)

theorem execSlipReserve_fr {queue : Nat} {e : Eng} {ctx : Nat} {len : Nat} {s : State} {t00 : State} (heq0 : execSlipReserve queue e ctx len s = .next t00) : Fr 1253884 s t00 := by
  cases heq0
  repeat' first | with_reducible assumption | with_reducible exact Fr.refl _ _ | intro _ | ((with_reducible apply producerReserve_fr); (focus decide))

theorem execSlipCommit_fr {queue : Nat} {pos : Nat} {words : Bytes} {s : State} {t00 : State} (heq0 : execSlipCommit queue pos words s = .next t00) : Fr 1253884 s t00 := by
  cases heq0
  repeat' first | with_reducible assumption | with_reducible exact Fr.refl _ _ | intro _ | ((with_reducible apply producerCommit_fr); (focus decide))

theorem execSlipRewind_fr {queue : Nat} {pos : Nat} {s : State} {t00 : State} (heq0 : execSlipRewind queue pos s = .next t00) : Fr 1049004 s t00 := by
  cases heq0
  repeat' first | with_reducible assumption | with_reducible exact Fr.refl _ _ | intro _ | ((with_reducible apply rewindAt_fr); (focus decide))

theorem execSlpQueueEnable_fr {queue : Nat} {value : W64} {s : State} {t00 : State} (heq0 : execSlpQueueEnable queue value s = .next t00) : Fr 1254908 s t00 := by
  cases heq0
  repeat' first | with_reducible assumption | with_reducible exact Fr.refl _ _ | intro _ | ((with_reducible apply writeSlpCfg_fr); (focus decide)) | (with_reducible apply Fr.ite)

theorem execSlpQueueDisable_fr {queue : Nat} {value : W64} {s : State} {t00 : State} (heq0 : execSlpQueueDisable queue value s = .next t00) : Fr 1254908 s t00 := by
  cases heq0
  repeat' first | with_reducible assumption | with_reducible exact Fr.refl _ _ | intro _ | ((with_reducible apply writeSlpCfg_fr); (focus decide)) | (with_reducible apply Fr.ite)

/-! ### Router -/

theorem rdLayer_fr {w : Who} {a : Nat} {mk : Nat} {s00 : State} (hmk : 1048620 ||| mk = mk) : AFr mk s00 (rdLayer w a) := by
  refine AFr.step (k := 1048620) (fun s00 => ?_) hmk
  clear hmk
  unfold rdLayer
  try dsimp only
  repeat' first | with_reducible exact AFr.pure _ | with_reducible exact AFr.throw _ | intro _ | ((with_reducible apply rd_fr); (focus decide)) | (with_reducible apply AFr.bind) | split

-- HO
theorem routerHead_fr {s : State} {k : Nat} {c : Nat} {op : Nat} {ok : Bytes → Bool} {f : State → QCmd → State} {mk : Nat} {s00 : State} (hmk : 1253756 ||| mk = mk) (hf : ∀ t x1, Fr mk s00 t → Fr mk s00 (f t x1)) (hst : Fr mk s00 s) : Fr mk s00 (routerHead s k c op ok f) := by
  unfold routerHead
  try dsimp only
  repeat' first | with_reducible assumption | intro _ | ((with_reducible apply headRow_fr); (focus first | decide | exact sub_trans (by decide) hmk)) | ((with_reducible apply takeTurn_fr); assumption; (focus first | decide | exact sub_trans (by decide) hmk)) | ((with_reducible apply completeHead_fr); (focus first | decide | exact sub_trans (by decide) hmk)) | (with_reducible apply hf) | split

theorem routeWork_fr {k : Nat} {c : Nat} {b : Bytes} {mk : Nat} {s00 : State} (hmk : 1049644 ||| mk = mk) : AFr mk s00 (routeWork k c b) := by
  refine AFr.step (k := 1049644) (fun s00 => ?_) hmk
  clear hmk
  unfold routeWork
  try dsimp only
  repeat' first | with_reducible assumption | with_reducible exact AFr.pure _ | with_reducible exact AFr.stopIf _ _ | intro _ | ((with_reducible apply rdLayer_fr); (focus decide)) | ((with_reducible apply rd_fr); (focus decide)) | ((with_reducible apply rdElem_fr); (focus decide)) | ((with_reducible apply wr_fr); (focus decide)) | ((with_reducible apply modRouter_fr); (focus decide)) | (with_reducible apply AFr.bind) | (with_reducible apply AFr.actMod) | (with_reducible apply AFr.ite) | (with_reducible apply AFr.foldlM) | (with_reducible apply AFr.mapM) | (with_reducible apply AFr.forM)

theorem routeHead_fr {s : State} {k : Nat} {c : Nat} {mk : Nat} {s00 : State} (hmk : 1254780 ||| mk = mk) (hst : Fr mk s00 s) : Fr mk s00 (routeHead s k c) := by
  refine Fr.step (k := 1254780) ?_ hmk hst
  clear hmk hst
  unfold routeHead
  try dsimp only
  repeat' first | with_reducible assumption | with_reducible exact Fr.refl _ _ | intro _ | ((with_reducible apply routerHead_fr); (focus decide)) | ((with_reducible apply routeWork_fr); (focus decide)) | ((with_reducible apply completeHead_fr); (focus decide)) | (with_reducible apply AFr.run)

theorem dispatchPiece_fr {k : Nat} {c : Nat} {e : Nat} {m : Nat} {src : Nat} {dst : Nat} {n : Nat} {mk : Nat} {s00 : State} (hmk : 1048876 ||| mk = mk) : AFr mk s00 (dispatchPiece k c e m src dst n) := by
  refine AFr.step (k := 1048876) (fun s00 => ?_) hmk
  clear hmk
  unfold dispatchPiece
  try dsimp only
  repeat' first | with_reducible assumption | with_reducible exact AFr.pure _ | with_reducible exact AFr.throw _ | intro _ | ((with_reducible apply rd_fr); (focus decide)) | ((with_reducible apply wr_fr); (focus decide)) | ((with_reducible apply choosePort_fr); assumption; (focus decide)) | ((with_reducible apply startOp_fr); (focus decide)) | ((with_reducible apply chargeFerry_fr); (focus decide)) | ((with_reducible apply queueWrite_fr); (focus decide)) | (with_reducible apply AFr.get_bind) | (with_reducible apply AFr.bind) | (with_reducible apply AFr.set) | split

theorem planExpert_fr {w : Who} {b : Bytes} {l : Layer} {e : Nat} {mk : Nat} {s00 : State} (hmk : 1048620 ||| mk = mk) : AFr mk s00 (planExpert w b l e) := by
  refine AFr.step (k := 1048620) (fun s00 => ?_) hmk
  clear hmk
  unfold planExpert
  try dsimp only
  repeat' first | with_reducible exact AFr.pure _ | with_reducible exact AFr.stopIf _ _ | intro _ | ((with_reducible apply rd_fr); (focus decide)) | ((with_reducible apply rdNat_fr); (focus decide)) | (with_reducible apply AFr.bind) | (with_reducible apply AFr.mapM)

theorem dispatchPlan_fr {k : Nat} {c : Nat} {q : QCmd} {mk : Nat} {s00 : State} (hmk : 1048620 ||| mk = mk) : AFr mk s00 (dispatchPlan k c q) := by
  refine AFr.step (k := 1048620) (fun s00 => ?_) hmk
  clear hmk
  unfold dispatchPlan
  try dsimp only
  repeat' first | with_reducible exact AFr.pure _ | with_reducible exact AFr.stopIf _ _ | with_reducible exact AFr.get | intro _ | ((with_reducible apply rdLayer_fr); (focus decide)) | ((with_reducible apply planExpert_fr); (focus decide)) | (with_reducible apply AFr.bind) | (with_reducible apply AFr.mapM)

theorem dispatchExpert_fr {k : Nat} {c : Nat} {b : Bytes} {x : DispPlan} {mk : Nat} {s00 : State} (hmk : 1049900 ||| mk = mk) : AFr mk s00 (dispatchExpert k c b x) := by
  refine AFr.step (k := 1049900) (fun s00 => ?_) hmk
  clear hmk
  unfold dispatchExpert
  try dsimp only
  repeat' first | with_reducible assumption | intro _ | ((with_reducible apply dispatchPiece_fr); (focus decide)) | ((with_reducible apply setDisp_fr); (focus decide)) | (with_reducible apply AFr.bind) | (with_reducible apply AFr.actMod) | (with_reducible apply AFr.forM)

theorem dispatchHead_fr {s : State} {k : Nat} {c : Nat} {mk : Nat} {s00 : State} (hmk : 1254780 ||| mk = mk) (hst : Fr mk s00 s) : Fr mk s00 (dispatchHead s k c) := by
  refine Fr.step (k := 1254780) ?_ hmk hst
  clear hmk hst
  unfold dispatchHead
  try dsimp only
  repeat' first | with_reducible assumption | with_reducible exact Fr.refl _ _ | intro _ | ((with_reducible apply routerHead_fr); (focus decide)) | ((with_reducible apply dispatchPlan_fr); (focus decide)) | ((with_reducible apply completeHead_fr); (focus decide)) | ((with_reducible apply modRouter_fr); (focus decide)) | ((with_reducible apply popQ_fr); (focus decide)) | ((with_reducible apply dispatchExpert_fr); (focus decide)) | ((with_reducible apply settleDispatch_fr); (focus decide)) | ((with_reducible apply failDisp_fr); (focus decide)) | (with_reducible apply AFr.run) | ((with_reducible apply AFr.val_eq); assumption) | (with_reducible apply AFr.forM) | split

theorem dispatchEnded_fr {s : State} {k : Nat} {c : Nat} {e : Nat} {st : Status} {mk : Nat} {s00 : State} (hmk : 1254780 ||| mk = mk) (hst : Fr mk s00 s) : Fr mk s00 (dispatchEnded s k c e st) := by
  refine Fr.step (k := 1254780) ?_ hmk hst
  clear hmk hst
  unfold dispatchEnded
  try dsimp only
  repeat' first | with_reducible exact Fr.refl _ _ | intro _ | ((with_reducible apply setDisp_fr); (focus decide)) | ((with_reducible apply settleDispatch_fr); (focus decide)) | ((with_reducible apply failDisp_fr); (focus decide)) | (with_reducible apply Fr.ite)

theorem notifyEnded_fr {s : State} {k : Nat} {c : Nat} {st : Status} {mk : Nat} {s00 : State} (hmk : 1254780 ||| mk = mk) (hst : Fr mk s00 s) : Fr mk s00 (notifyEnded s k c st) := by
  refine Fr.step (k := 1254780) ?_ hmk hst
  clear hmk hst
  unfold notifyEnded
  try dsimp only
  repeat' first | with_reducible exact Fr.refl _ _ | intro _ | ((with_reducible apply setDisp_fr); (focus decide)) | ((with_reducible apply settleDispatch_fr); (focus decide)) | ((with_reducible apply failDisp_fr); (focus decide)) | (with_reducible apply Fr.ite)

theorem markPushed_fr {s : State} {k : Nat} {c : Nat} {e : Nat} {remote : Nat} {mk : Nat} {s00 : State} (hmk : 1254780 ||| mk = mk) (hst : Fr mk s00 s) : Fr mk s00 (markPushed s k c e remote) := by
  refine Fr.step (k := 1254780) ?_ hmk hst
  clear hmk hst
  unfold markPushed
  try dsimp only
  repeat' first | with_reducible exact Fr.refl _ _ | ((with_reducible apply modDisp_fr); (focus decide))

theorem pushWord_fr {s : State} {k : Nat} {q : Nat} {c : Nat} {word : Bytes} {mk : Nat} {s00 : State} (hmk : 1049004 ||| mk = mk) (hst : Fr mk s00 s) : Fr mk s00 (pushWord s k q c word).2 := by
  refine Fr.step (k := 1049004) ?_ hmk hst
  clear hmk hst
  unfold pushWord
  try dsimp only
  repeat' first | with_reducible exact Fr.refl _ _ | ((with_reducible apply writeWords_eq); assumption; (focus decide)) | ((with_reducible apply reserve_fr); (focus decide)) | ((with_reducible apply commitAt_fr); (focus decide)) | ((with_reducible apply rewindAt_fr); (focus decide)) | split

theorem pushWord_eq {s : State} {k : Nat} {q : Nat} {c : Nat} {word : Bytes} {y0 : Status} {t00 : State} {mk : Nat} {s00 : State} (heq0 : pushWord s k q c word = (y0, t00)) (hmk : 1049004 ||| mk = mk)
    (hst : Fr mk s00 s) : Fr mk s00 t00 := by
  have h1 := @pushWord_fr s k q c word mk s00 hmk hst
  rw [heq0] at h1
  exact h1

theorem dispatchNotify_fr {s : State} {k : Nat} {c : Nat} {e : Nat} {mk : Nat} {s00 : State} (hmk : 1254908 ||| mk = mk) (hst : Fr mk s00 s) : Fr mk s00 (dispatchNotify s k c e) := by
  refine Fr.step (k := 1254908) ?_ hmk hst
  clear hmk hst
  unfold dispatchNotify
  try dsimp only
  repeat' first | with_reducible exact Fr.refl _ _ | ((with_reducible apply failDisp_fr); (focus decide)) | ((with_reducible apply pushWord_fr); (focus decide)) | ((with_reducible apply markPushed_fr); (focus decide)) | ((with_reducible apply choosePort_fr); assumption; (focus decide)) | ((with_reducible apply modAccount_fr); (focus decide)) | ((with_reducible apply startOp_fr); (focus decide)) | ((with_reducible apply chargeFerry_fr); (focus decide)) | ((with_reducible apply queueFrame_fr); (focus decide)) | split

theorem rdRow_fr {w : Who} {base : Nat} {f : Nat} {cols : Nat} {r : Nat} {mk : Nat} {s00 : State} (hmk : 1048620 ||| mk = mk) : AFr mk s00 (rdRow w base f cols r) := by
  refine AFr.step (k := 1048620) (fun s00 => ?_) hmk
  clear hmk
  unfold rdRow
  try dsimp only
  repeat' first | intro _ | ((with_reducible apply rdElem_fr); (focus decide)) | (with_reducible apply AFr.mapM)

theorem combineToken_fr {w : Who} {b : Bytes} {l : Layer} {t : Nat} {mk : Nat} {s00 : State} (hmk : 1048620 ||| mk = mk) : AFr mk s00 (combineToken w b l t) := by
  refine AFr.step (k := 1048620) (fun s00 => ?_) hmk
  clear hmk
  unfold combineToken
  try dsimp only
  repeat' first | with_reducible exact AFr.pure _ | intro _ | ((with_reducible apply rd_fr); (focus decide)) | ((with_reducible apply rdRow_fr); (focus decide)) | ((with_reducible apply wrRow_fr); (focus decide)) | (with_reducible apply AFr.bind) | (with_reducible apply AFr.ite) | (with_reducible apply AFr.foldlM)

theorem combineWork_fr {k : Nat} {c : Nat} {b : Bytes} {mk : Nat} {s00 : State} (hmk : 1048620 ||| mk = mk) : AFr mk s00 (combineWork k c b) := by
  refine AFr.step (k := 1048620) (fun s00 => ?_) hmk
  clear hmk
  unfold combineWork
  try dsimp only
  repeat' first | with_reducible exact AFr.stopIf _ _ | intro _ | ((with_reducible apply rdLayer_fr); (focus decide)) | ((with_reducible apply combineToken_fr); (focus decide)) | (with_reducible apply AFr.bind) | (with_reducible apply AFr.forM)

theorem combineHead_fr {s : State} {k : Nat} {c : Nat} {mk : Nat} {s00 : State} (hmk : 1253756 ||| mk = mk) (hst : Fr mk s00 s) : Fr mk s00 (combineHead s k c) := by
  refine Fr.step (k := 1253756) ?_ hmk hst
  clear hmk hst
  unfold combineHead
  try dsimp only
  repeat' first | with_reducible assumption | with_reducible exact Fr.refl _ _ | intro _ | ((with_reducible apply routerHead_fr); (focus decide)) | ((with_reducible apply combineWork_fr); (focus decide)) | ((with_reducible apply completeHead_fr); (focus decide)) | (with_reducible apply AFr.run)

theorem execRoute_fr {router : Nat} {ctx : Nat} {s : State} {t00 : State} (heq0 : execRoute router ctx s = .next t00) : Fr 1254780 s t00 := by
  cases heq0
  repeat' first | with_reducible exact Fr.refl _ _ | ((with_reducible apply routeHead_fr); (focus decide))

theorem execDispatch_fr {router : Nat} {ctx : Nat} {s : State} {t00 : State} (heq0 : execDispatch router ctx s = .next t00) : Fr 1254780 s t00 := by
  cases heq0
  repeat' first | with_reducible exact Fr.refl _ _ | ((with_reducible apply dispatchHead_fr); (focus decide))

theorem execDispatchNotify_fr {router : Nat} {ctx : Nat} {expert : Nat} {s : State} {t00 : State} (heq0 : execDispatchNotify router ctx expert s = .next t00) : Fr 1254908 s t00 := by
  cases heq0
  repeat' first | with_reducible exact Fr.refl _ _ | ((with_reducible apply dispatchNotify_fr); (focus decide))

theorem execCombine_fr {router : Nat} {ctx : Nat} {s : State} {t00 : State} (heq0 : execCombine router ctx s = .next t00) : Fr 1253756 s t00 := by
  cases heq0
  repeat' first | with_reducible exact Fr.refl _ _ | ((with_reducible apply combineHead_fr); (focus decide))

/-! ### Ssu -/

theorem modSsu_fr {s : State} {k : Nat} {f : SsuSt → SsuSt} {mk : Nat} {s00 : State} (hmk : 2048 ||| mk = mk) (hst : Fr mk s00 s) : Fr mk s00 (modSsu s k f) := by
  refine Fr.step (k := 2048) ?_ hmk hst
  clear hmk hst
  unfold modSsu
  try dsimp only
  repeat' first | with_reducible exact Fr.refl _ _ | ((with_reducible apply Fr.setSsus); (focus decide))

theorem ssuLists_fr {w : Who} {b : Bytes} {mk : Nat} {s00 : State} (hmk : 1048620 ||| mk = mk) : AFr mk s00 (ssuLists w b) := by
  refine AFr.step (k := 1048620) (fun s00 => ?_) hmk
  clear hmk
  unfold ssuLists
  try dsimp only
  repeat' first | with_reducible exact AFr.pure _ | with_reducible exact AFr.stopIf _ _ | intro _ | ((with_reducible apply rd_fr); (focus decide)) | (with_reducible apply AFr.bind) | (with_reducible apply AFr.ite) | (with_reducible apply AFr.mapM)

theorem ssuInputs_fr {w : Who} {b : Bytes} {lists : List (Nat × Nat)} {src0 : Nat} {mk : Nat} {s00 : State} (hmk : 1048620 ||| mk = mk) : AFr mk s00 (ssuInputs w b lists src0) := by
  refine AFr.step (k := 1048620) (fun s00 => ?_) hmk
  clear hmk
  unfold ssuInputs
  try dsimp only
  repeat' first | with_reducible exact AFr.pure _ | intro _ | ((with_reducible apply rd_fr); (focus decide)) | (with_reducible apply AFr.bind) | (with_reducible apply AFr.ite) | (with_reducible apply AFr.foldlM)

theorem wrSummary_fr {w : Who} {b : Bytes} {st : Status} {r : Selected} {invalid : Nat} {mk : Nat} {s00 : State} (hmk : 1048620 ||| mk = mk) : AFr mk s00 (wrSummary w b st r invalid) := by
  refine AFr.step (k := 1048620) (fun s00 => ?_) hmk
  clear hmk
  unfold wrSummary
  try dsimp only
  repeat' first | with_reducible exact AFr.pure _ | with_reducible exact AFr.get | intro _ | ((with_reducible apply wr_fr); (focus decide)) | (with_reducible apply AFr.bind)

theorem ssuCompute_fr {w : Who} {k : Nat} {b : Bytes} {mk : Nat} {s00 : State} (hmk : 1050668 ||| mk = mk) : AFr mk s00 (ssuCompute w k b) := by
  refine AFr.step (k := 1050668) (fun s00 => ?_) hmk
  clear hmk
  unfold ssuCompute
  try dsimp only
  repeat' first | with_reducible assumption | with_reducible exact AFr.pure _ | with_reducible exact AFr.stopIf _ _ | with_reducible exact AFr.get | intro _ | ((with_reducible apply ssuLists_fr); (focus decide)) | ((with_reducible apply rd_fr); (focus decide)) | ((with_reducible apply ssuInputs_fr); (focus decide)) | ((with_reducible apply modSsu_fr); (focus decide)) | (with_reducible apply AFr.bind) | (with_reducible apply AFr.actMod) | split

theorem ssuCommit_fr {w : Who} {b : Bytes} {r : Selected} {inv : Bytes} {invalid : Nat} {mk : Nat} {s00 : State} (hmk : 3145772 ||| mk = mk) : AFr mk s00 (ssuCommit w b r inv invalid) := by
  refine AFr.step (k := 3145772) (fun s00 => ?_) hmk
  clear hmk
  unfold ssuCommit
  try dsimp only
  repeat' first | intro _ | ((with_reducible apply wrFree_fr); (focus decide)) | ((with_reducible apply wr_fr); (focus decide)) | ((with_reducible apply wrSummary_fr); (focus decide)) | (with_reducible apply AFr.bind)

theorem ssuWork_fr {k : Nat} {c : Nat} {b : Bytes} {mk : Nat} {s00 : State} (hmk : 3147820 ||| mk = mk) : AFr mk s00 (ssuWork k c b) := by
  refine AFr.step (k := 3147820) (fun s00 => ?_) hmk
  clear hmk
  unfold ssuWork
  try dsimp only
  repeat' first | with_reducible assumption | with_reducible exact AFr.pure _ | with_reducible exact AFr.throw _ | intro _ | ((with_reducible apply wrSummary_fr); (focus decide)) | ((with_reducible apply ssuCompute_fr); (focus decide)) | ((with_reducible apply ssuCommit_fr); (focus decide)) | ((with_reducible apply AFr.runSt_eq); assumption) | ((with_reducible apply AFr.val_eq); assumption) | (with_reducible apply AFr.get_bind) | (with_reducible apply AFr.bind) | (with_reducible apply AFr.set) | split

theorem ssuSummarize_fr {s : State} {k : Nat} {c : Nat} {q : QCmd} {st : Status} {mk : Nat} {s00 : State} (hmk : 1048620 ||| mk = mk) (hst : Fr mk s00 s) : Fr mk s00 (ssuSummarize s k c q st) := by
  refine Fr.step (k := 1048620) ?_ hmk hst
  clear hmk hst
  unfold ssuSummarize
  try dsimp only
  repeat' first | with_reducible exact Fr.refl _ _ | intro _ | ((with_reducible apply wrSummary_fr); (focus decide)) | (with_reducible apply AFr.runSt) | (with_reducible apply Fr.ite)

theorem ssuStop_fr {s : State} {k : Nat} {c : Nat} {q : QCmd} {st : Status} {mk : Nat} {s00 : State} (hmk : 1253756 ||| mk = mk) (hst : Fr mk s00 s) : Fr mk s00 (ssuStop s k c q st) := by
  refine Fr.step (k := 1253756) ?_ hmk hst
  clear hmk hst
  unfold ssuStop
  try dsimp only
  repeat' first | with_reducible exact Fr.refl _ _ | ((with_reducible apply completeHead_fr); (focus decide)) | ((with_reducible apply ssuSummarize_fr); (focus decide))

theorem ssuTurn_fr {s : State} {k : Nat} {c : Nat} {op : Nat} {mk : Nat} {s00 : State} (hmk : 3352956 ||| mk = mk) (hst : Fr mk s00 s) : Fr mk s00 (ssuTurn s k c op) := by
  refine Fr.step (k := 3352956) ?_ hmk hst
  clear hmk hst
  unfold ssuTurn
  try dsimp only
  repeat' first | with_reducible exact Fr.refl _ _ | intro _ | ((with_reducible apply headRow_fr); (focus decide)) | ((with_reducible apply takeTurn_fr); assumption; (focus decide)) | ((with_reducible apply completeHead_fr); (focus decide)) | ((with_reducible apply countUnit_fr); (focus decide)) | ((with_reducible apply ssuWork_fr); (focus decide)) | ((with_reducible apply modSsu_fr); (focus decide)) | (with_reducible apply AFr.runSt) | split

theorem ssuHead_fr {s : State} {k : Nat} {c : Nat} {op : Nat} {mk : Nat} {s00 : State} (hmk : 3352956 ||| mk = mk) (hst : Fr mk s00 s) : Fr mk s00 (ssuHead s k c op) := by
  refine Fr.step (k := 3352956) ?_ hmk hst
  clear hmk hst
  unfold ssuHead
  try dsimp only
  repeat' first | with_reducible exact Fr.refl _ _ | ((with_reducible apply ssuStop_fr); (focus decide)) | ((with_reducible apply ssuTurn_fr); (focus decide)) | ((with_reducible apply modSsu_fr); (focus decide)) | split

theorem execTopk_fr {unit : Nat} {ctx : Nat} {s : State} {t00 : State} (heq0 : execTopk unit ctx s = .next t00) : Fr 3352956 s t00 := by
  cases heq0
  repeat' first | with_reducible exact Fr.refl _ _ | ((with_reducible apply ssuHead_fr); (focus decide))

theorem execSort_fr {unit : Nat} {ctx : Nat} {s : State} {t00 : State} (heq0 : execSort unit ctx s = .next t00) : Fr 3352956 s t00 := by
  cases heq0
  repeat' first | with_reducible exact Fr.refl _ _ | ((with_reducible apply ssuHead_fr); (focus decide))

theorem execMerge_fr {unit : Nat} {ctx : Nat} {s : State} {t00 : State} (heq0 : execMerge unit ctx s = .next t00) : Fr 3352956 s t00 := by
  cases heq0
  repeat' first | with_reducible exact Fr.refl _ _ | ((with_reducible apply ssuHead_fr); (focus decide))

theorem execUniqueCount_fr {unit : Nat} {ctx : Nat} {s : State} {t00 : State} (heq0 : execUniqueCount unit ctx s = .next t00) : Fr 3352956 s t00 := by
  cases heq0
  repeat' first | with_reducible exact Fr.refl _ _ | ((with_reducible apply ssuHead_fr); (focus decide))

theorem execFilterCompact_fr {unit : Nat} {ctx : Nat} {s : State} {t00 : State} (heq0 : execFilterCompact unit ctx s = .next t00) : Fr 3352956 s t00 := by
  cases heq0
  repeat' first | with_reducible exact Fr.refl _ _ | ((with_reducible apply ssuHead_fr); (focus decide))

/-! ### Pcl -/

theorem modSlice_fr {s : State} {k : Nat} {f : SliceSt → SliceSt} {mk : Nat} {s00 : State} (hmk : 4096 ||| mk = mk) (hst : Fr mk s00 s) : Fr mk s00 (modSlice s k f) := by
  refine Fr.step (k := 4096) ?_ hmk hst
  clear hmk hst
  unfold modSlice
  try dsimp only
  repeat' first | with_reducible exact Fr.refl _ _ | ((with_reducible apply Fr.setPcl); (focus decide))

theorem stampPcl_fr {s : State} {mk : Nat} {s00 : State} (hmk : 4096 ||| mk = mk) (hst : Fr mk s00 s) : Fr mk s00 (stampPcl s).2 := by
  refine Fr.step (k := 4096) ?_ hmk hst
  clear hmk hst
  unfold stampPcl
  try dsimp only
  repeat' first | with_reducible exact Fr.refl _ _ | ((with_reducible apply Fr.setPcl); (focus decide))

theorem stampPcl_eq {s : State} {y0 : Nat} {t00 : State} {mk : Nat} {s00 : State} (heq0 : stampPcl s = (y0, t00)) (hmk : 4096 ||| mk = mk)
    (hst : Fr mk s00 s) : Fr mk s00 t00 := by
  have h1 := @stampPcl_fr s mk s00 hmk hst
  rw [heq0] at h1
  exact h1

theorem rdHead_fr {w : Who} {x : Shard} {l : Nat} {mk : Nat} {s00 : State} (hmk : 1048620 ||| mk = mk) : AFr mk s00 (rdHead w x l) := by
  refine AFr.step (k := 1048620) (fun s00 => ?_) hmk
  clear hmk
  unfold rdHead
  try dsimp only
  repeat' first | with_reducible exact AFr.pure _ | intro _ | ((with_reducible apply rd_fr); (focus decide)) | (with_reducible apply AFr.bind)

theorem wrHead_fr {w : Who} {x : Shard} {l : Nat} {h : HeadEntry} {mk : Nat} {s00 : State} (hmk : 1048620 ||| mk = mk) : AFr mk s00 (wrHead w x l h) := by
  refine AFr.step (k := 1048620) (fun s00 => ?_) hmk
  clear hmk
  unfold wrHead
  try dsimp only
  repeat' first | ((with_reducible apply wr_fr); (focus decide))

theorem rdHdr_fr {w : Who} {a : Nat} {mk : Nat} {s00 : State} (hmk : 1048620 ||| mk = mk) : AFr mk s00 (rdHdr w a) := by
  refine AFr.step (k := 1048620) (fun s00 => ?_) hmk
  clear hmk
  unfold rdHdr
  try dsimp only
  repeat' first | with_reducible exact AFr.pure _ | intro _ | ((with_reducible apply rd_fr); (focus decide)) | (with_reducible apply AFr.bind)

theorem wrHdr_fr {w : Who} {a : Nat} {h : BlockHdr} {mk : Nat} {s00 : State} (hmk : 1048620 ||| mk = mk) : AFr mk s00 (wrHdr w a h) := by
  refine AFr.step (k := 1048620) (fun s00 => ?_) hmk
  clear hmk
  unfold wrHdr
  try dsimp only
  repeat' first | ((with_reducible apply wr_fr); (focus decide))

theorem rdMeta_fr {w : Who} {a : Nat} {mk : Nat} {s00 : State} (hmk : 1048620 ||| mk = mk) : AFr mk s00 (rdMeta w a) := by
  refine AFr.step (k := 1048620) (fun s00 => ?_) hmk
  clear hmk
  unfold rdMeta
  try dsimp only
  repeat' first | with_reducible exact AFr.pure _ | intro _ | ((with_reducible apply rd_fr); (focus decide)) | (with_reducible apply AFr.bind)

theorem wrMeta_fr {w : Who} {a : Nat} {m : SlotMeta} {mk : Nat} {s00 : State} (hmk : 1048620 ||| mk = mk) : AFr mk s00 (wrMeta w a m) := by
  refine AFr.step (k := 1048620) (fun s00 => ?_) hmk
  clear hmk
  unfold wrMeta
  try dsimp only
  repeat' first | ((with_reducible apply wr_fr); (focus decide))

theorem queryCheck_fr {w : Who} {b : Bytes} {mk : Nat} {s00 : State} (hmk : 1048620 ||| mk = mk) : AFr mk s00 (queryCheck w b) := by
  refine AFr.step (k := 1048620) (fun s00 => ?_) hmk
  clear hmk
  unfold queryCheck
  try dsimp only
  repeat' first | with_reducible exact AFr.pure _ | with_reducible exact AFr.throw _ | with_reducible exact AFr.stopIf _ _ | intro _ | ((with_reducible apply rd_fr); (focus decide)) | (with_reducible apply AFr.bind) | split

theorem endSummary_fr {s : State} {k : Nat} {c : Nat} {q : QCmd} {st : Status} {lists : Nat} {epoch : Nat} {seen : Nat} {mk : Nat} {s00 : State} (hmk : 1253756 ||| mk = mk) (hst : Fr mk s00 s) : Fr mk s00 (endSummary s k c q st lists epoch seen) := by
  refine Fr.step (k := 1253756) ?_ hmk hst
  clear hmk hst
  unfold endSummary
  try dsimp only
  repeat' first | with_reducible exact Fr.refl _ _ | ((with_reducible apply wr_fr); (focus decide)) | ((with_reducible apply completeCmd_fr); (focus decide)) | (with_reducible apply AFr.run)

theorem queryHead_fr {s : State} {k : Nat} {c : Nat} {mk : Nat} {s00 : State} (hmk : 1257852 ||| mk = mk) (hst : Fr mk s00 s) : Fr mk s00 (queryHead s k c) := by
  refine Fr.step (k := 1257852) ?_ hmk hst
  clear hmk hst
  unfold queryHead
  try dsimp only
  repeat' first | with_reducible exact Fr.refl _ _ | intro _ | ((with_reducible apply headRow_fr); (focus decide)) | ((with_reducible apply queryCheck_fr); (focus decide)) | ((with_reducible apply modSlice_fr); (focus decide)) | ((with_reducible apply markHead_fr); (focus decide)) | ((with_reducible apply endSummary_fr); (focus decide)) | ((with_reducible apply popQ_fr); (focus decide)) | ((with_reducible apply completeHead_fr); (focus decide)) | ((with_reducible apply AFr.val_eq); assumption) | split

theorem admitWork_fr {w : Who} {c : Nat} {q : QCmd} {h : PclHead} {mk : Nat} {s00 : State} (hmk : 3145772 ||| mk = mk) : AFr mk s00 (admitWork w c q h) := by
  refine AFr.step (k := 3145772) (fun s00 => ?_) hmk
  clear hmk
  unfold admitWork
  try dsimp only
  repeat' first | with_reducible exact AFr.pure _ | with_reducible exact AFr.stopIf _ _ | with_reducible exact AFr.get | intro _ | ((with_reducible apply rd_fr); (focus decide)) | ((with_reducible apply wrFree_fr); (focus decide)) | (with_reducible apply AFr.bind)

theorem queryAdmit_fr {s : State} {k : Nat} {c : Nat} {mk : Nat} {s00 : State} (hmk : 3355004 ||| mk = mk) (hst : Fr mk s00 s) : Fr mk s00 (queryAdmit s k c) := by
  refine Fr.step (k := 3355004) ?_ hmk hst
  clear hmk hst
  unfold queryAdmit
  try dsimp only
  repeat' first | with_reducible exact Fr.refl _ _ | ((with_reducible apply takeTurn_fr); assumption; (focus decide)) | ((with_reducible apply modSlice_fr); (focus decide)) | ((with_reducible apply popQ_fr); (focus decide)) | ((with_reducible apply admitWork_fr); (focus decide)) | ((with_reducible apply stampPcl_fr); (focus decide)) | ((with_reducible apply endSummary_fr); (focus decide)) | ((with_reducible apply completeCmd_fr); (focus decide)) | ((with_reducible apply AFr.val_eq); assumption) | split

theorem countTrim_fr {s : State} {k : Nat} {n : Nat} {st : Status} {mk : Nat} {s00 : State} (hmk : 2048 ||| mk = mk) (hst : Fr mk s00 s) : Fr mk s00 (countTrim s k n st) := by
  refine Fr.step (k := 2048) ?_ hmk hst
  clear hmk hst
  unfold countTrim
  try dsimp only
  repeat' first | with_reducible exact Fr.refl _ _ | ((with_reducible apply modSsu_fr); (focus decide))

theorem putQuery_fr {s : State} {k : Nat} {q : Nat} {x : Query} {mk : Nat} {s00 : State} (hmk : 4096 ||| mk = mk) (hst : Fr mk s00 s) : Fr mk s00 (putQuery s k q x) := by
  refine Fr.step (k := 4096) ?_ hmk hst
  clear hmk hst
  unfold putQuery
  try dsimp only
  repeat' first | with_reducible exact Fr.refl _ _ | ((with_reducible apply modSlice_fr); (focus decide))

theorem afterScan_fr {s : State} {k : Nat} {q : Nat} {x : Query} {mk : Nat} {s00 : State} (hmk : 6144 ||| mk = mk) (hst : Fr mk s00 s) : Fr mk s00 (afterScan s k q x) := by
  refine Fr.step (k := 6144) ?_ hmk hst
  clear hmk hst
  unfold afterScan
  try dsimp only
  repeat' first | with_reducible exact Fr.refl _ _ | intro _ | ((with_reducible apply countTrim_fr); (focus decide)) | ((with_reducible apply putQuery_fr); (focus decide)) | (with_reducible apply Fr.ite)

theorem queryFails_fr {s : State} {k : Nat} {q : Nat} {x : Query} {st : Status} {mk : Nat} {s00 : State} (hmk : 1257852 ||| mk = mk) (hst : Fr mk s00 s) : Fr mk s00 (queryFails s k q x st) := by
  refine Fr.step (k := 1257852) ?_ hmk hst
  clear hmk hst
  unfold queryFails
  try dsimp only
  repeat' first | with_reducible exact Fr.refl _ _ | intro _ | ((with_reducible apply completeCmd_fr); (focus decide)) | ((with_reducible apply modSlice_fr); (focus decide)) | ((with_reducible apply putQuery_fr); (focus decide)) | (with_reducible apply Fr.ite)

-- HO
theorem queryUnit_fr {s : State} {k : Nat} {q : Nat} {ready : Query → Bool} {f : State → Query → State} {mk : Nat} {s00 : State} (hmk : 16 ||| mk = mk) (hf : ∀ t x1, Fr mk s00 t → Fr mk s00 (f t x1)) (hst : Fr mk s00 s) : Fr mk s00 (queryUnit s k q ready f) := by
  unfold queryUnit
  try dsimp only
  repeat' first | with_reducible assumption | ((with_reducible apply takeTurn_fr); assumption; (focus first | decide | exact sub_trans (by decide) hmk)) | (with_reducible apply hf) | split

theorem pclHeadUnit_fr {s : State} {k : Nat} {q : Nat} {stream : Nat} {mk : Nat} {s00 : State} (hmk : 1259900 ||| mk = mk) (hst : Fr mk s00 s) : Fr mk s00 (pclHeadUnit s k q stream) := by
  refine Fr.step (k := 1259900) ?_ hmk hst
  clear hmk hst
  unfold pclHeadUnit
  try dsimp only
  repeat' first | with_reducible assumption | with_reducible exact Fr.refl _ _ | intro _ | ((with_reducible apply queryUnit_fr); (focus decide)) | ((with_reducible apply rdHead_fr); (focus decide)) | ((with_reducible apply afterScan_fr); (focus decide)) | ((with_reducible apply queryFails_fr); (focus decide)) | ((with_reducible apply AFr.val_eq); assumption) | split

theorem examineSlot_fr {w : Who} {k : Nat} {t : PclStream} {x : Query} {i : Nat} {mk : Nat} {s00 : State} (hmk : 1050668 ||| mk = mk) : AFr mk s00 (examineSlot w k t x i) := by
  refine AFr.step (k := 1050668) (fun s00 => ?_) hmk
  clear hmk
  unfold examineSlot
  try dsimp only
  repeat' first | with_reducible assumption | with_reducible exact AFr.pure _ | with_reducible exact AFr.get | intro _ | ((with_reducible apply rdMeta_fr); (focus decide)) | ((with_reducible apply rd_fr); (focus decide)) | ((with_reducible apply countTrim_fr); (focus decide)) | (with_reducible apply AFr.bind) | (with_reducible apply AFr.actMod) | split

theorem blockWork_fr {w : Who} {k : Nat} {stream : Nat} {t : PclStream} {x : Query} {mk : Nat} {s00 : State} (hmk : 1050668 ||| mk = mk) : AFr mk s00 (blockWork w k stream t x) := by
  refine AFr.step (k := 1050668) (fun s00 => ?_) hmk
  clear hmk
  unfold blockWork
  try dsimp only
  repeat' first | with_reducible exact AFr.pure _ | intro _ | ((with_reducible apply rdHdr_fr); (focus decide)) | ((with_reducible apply examineSlot_fr); (focus decide)) | (with_reducible apply AFr.bind) | (with_reducible apply AFr.ite) | (with_reducible apply AFr.foldlM)

theorem pclBlockUnit_fr {s : State} {k : Nat} {q : Nat} {stream : Nat} {mk : Nat} {s00 : State} (hmk : 1259900 ||| mk = mk) (hst : Fr mk s00 s) : Fr mk s00 (pclBlockUnit s k q stream) := by
  refine Fr.step (k := 1259900) ?_ hmk hst
  clear hmk hst
  unfold pclBlockUnit
  try dsimp only
  repeat' first | with_reducible assumption | with_reducible exact Fr.refl _ _ | intro _ | ((with_reducible apply queryUnit_fr); (focus decide)) | ((with_reducible apply modSlice_fr); (focus decide)) | ((with_reducible apply blockWork_fr); (focus decide)) | ((with_reducible apply afterScan_fr); (focus decide)) | ((with_reducible apply queryFails_fr); (focus decide)) | ((with_reducible apply AFr.val_eq); assumption) | split

theorem pclRefineUnit_fr {s : State} {k : Nat} {q : Nat} {mk : Nat} {s00 : State} (hmk : 1259900 ||| mk = mk) (hst : Fr mk s00 s) : Fr mk s00 (pclRefineUnit s k q) := by
  refine Fr.step (k := 1259900) ?_ hmk hst
  clear hmk hst
  unfold pclRefineUnit
  try dsimp only
  repeat' first | with_reducible assumption | with_reducible exact Fr.refl _ _ | intro _ | ((with_reducible apply queryUnit_fr); (focus decide)) | ((with_reducible apply rd_fr); (focus decide)) | ((with_reducible apply countTrim_fr); (focus decide)) | ((with_reducible apply putQuery_fr); (focus decide)) | ((with_reducible apply queryFails_fr); (focus decide)) | ((with_reducible apply AFr.val_eq); assumption) | split

theorem resultWork_fr {w : Who} {x : Query} {r : Selected} {mk : Nat} {s00 : State} (hmk : 3145772 ||| mk = mk) : AFr mk s00 (resultWork w x r) := by
  refine AFr.step (k := 3145772) (fun s00 => ?_) hmk
  clear hmk
  unfold resultWork
  try dsimp only
  repeat' first | intro _ | ((with_reducible apply wrFree_fr); (focus decide)) | ((with_reducible apply wr_fr); (focus decide)) | (with_reducible apply AFr.bind)

theorem queryResult_fr {s : State} {k : Nat} {q : Nat} {mk : Nat} {s00 : State} (hmk : 3357052 ||| mk = mk) (hst : Fr mk s00 s) : Fr mk s00 (queryResult s k q) := by
  refine Fr.step (k := 3357052) ?_ hmk hst
  clear hmk hst
  unfold queryResult
  try dsimp only
  repeat' first | with_reducible exact Fr.refl _ _ | ((with_reducible apply modSlice_fr); (focus decide)) | ((with_reducible apply endSummary_fr); (focus decide)) | ((with_reducible apply countTrim_fr); (focus decide)) | ((with_reducible apply resultWork_fr); (focus decide)) | ((with_reducible apply completeCmd_fr); (focus decide)) | ((with_reducible apply AFr.run_eq); assumption) | split

theorem execQuery_fr {k : Nat} {ctx : Nat} {s : State} {t00 : State} (heq0 : execQuery k ctx s = .next t00) : Fr 1257852 s t00 := by
  cases heq0
  repeat' first | with_reducible exact Fr.refl _ _ | ((with_reducible apply queryHead_fr); (focus decide))

theorem execQueryAdmit_fr {k : Nat} {ctx : Nat} {s : State} {t00 : State} (heq0 : execQueryAdmit k ctx s = .next t00) : Fr 3355004 s t00 := by
  cases heq0
  repeat' first | with_reducible exact Fr.refl _ _ | ((with_reducible apply queryAdmit_fr); (focus decide))

theorem execPclHeadUnit_fr {k : Nat} {q : Nat} {stream : Nat} {s : State} {t00 : State} (heq0 : execPclHeadUnit k q stream s = .next t00) : Fr 1259900 s t00 := by
  cases heq0
  repeat' first | with_reducible exact Fr.refl _ _ | ((with_reducible apply pclHeadUnit_fr); (focus decide))

theorem execPclBlockUnit_fr {k : Nat} {q : Nat} {stream : Nat} {s : State} {t00 : State} (heq0 : execPclBlockUnit k q stream s = .next t00) : Fr 1259900 s t00 := by
  cases heq0
  repeat' first | with_reducible exact Fr.refl _ _ | ((with_reducible apply pclBlockUnit_fr); (focus decide))

theorem execPclRefineUnit_fr {k : Nat} {q : Nat} {s : State} {t00 : State} (heq0 : execPclRefineUnit k q s = .next t00) : Fr 1259900 s t00 := by
  cases heq0
  repeat' first | with_reducible exact Fr.refl _ _ | ((with_reducible apply pclRefineUnit_fr); (focus decide))

theorem execQueryResultWrite_fr {k : Nat} {q : Nat} {s : State} {t00 : State} (heq0 : execQueryResultWrite k q s = .next t00) : Fr 3357052 s t00 := by
  cases heq0
  repeat' first | with_reducible exact Fr.refl _ _ | ((with_reducible apply queryResult_fr); (focus decide))

/-! ### Grinder -/

theorem modGrd_fr {s : State} {f : GrdSt → GrdSt} {mk : Nat} {s00 : State} (hmk : 16384 ||| mk = mk) (hst : Fr mk s00 s) : Fr mk s00 (modGrd s f) := by
  refine Fr.step (k := 16384) ?_ hmk hst
  clear hmk hst
  unfold modGrd
  try dsimp only
  repeat' first | with_reducible exact Fr.refl _ _ | ((with_reducible apply Fr.setGrd); (focus decide))

-- HO
theorem grinderHead_fr {s : State} {c : Nat} {op : Nat} {f : State → QCmd → State} {mk : Nat} {s00 : State} (hmk : 1253756 ||| mk = mk) (hf : ∀ t x1, Fr mk s00 t → Fr mk s00 (f t x1)) (hst : Fr mk s00 s) : Fr mk s00 (grinderHead s c op f) := by
  unfold grinderHead
  try dsimp only
  repeat' first | with_reducible assumption | intro _ | ((with_reducible apply headRow_fr); (focus first | decide | exact sub_trans (by decide) hmk)) | ((with_reducible apply takeTurn_fr); assumption; (focus first | decide | exact sub_trans (by decide) hmk)) | ((with_reducible apply completeHead_fr); (focus first | decide | exact sub_trans (by decide) hmk)) | (with_reducible apply hf) | split

theorem wrTokSummary_fr {w : Who} {b : Bytes} {st : Status} {r : TokResult} {mk : Nat} {s00 : State} (hmk : 3145772 ||| mk = mk) : AFr mk s00 (wrTokSummary w b st r) := by
  refine AFr.step (k := 3145772) (fun s00 => ?_) hmk
  clear hmk
  unfold wrTokSummary
  try dsimp only
  repeat' first | with_reducible assumption | with_reducible exact AFr.pure _ | with_reducible exact AFr.get | intro _ | ((with_reducible apply wrFree_fr); (focus decide)) | ((with_reducible apply wr_fr); (focus decide)) | (with_reducible apply AFr.run) | (with_reducible apply AFr.bind) | (with_reducible apply AFr.actMod) | (with_reducible apply AFr.ite)

theorem tokenizeBegin_fr {c : Nat} {b : Bytes} {t : Tokenizer} {mk : Nat} {s00 : State} (hmk : 3145772 ||| mk = mk) : AFr mk s00 (tokenizeBegin c b t) := by
  refine AFr.step (k := 3145772) (fun s00 => ?_) hmk
  clear hmk
  unfold tokenizeBegin
  try dsimp only
  repeat' first | with_reducible assumption | with_reducible exact AFr.pure _ | with_reducible exact AFr.throw _ | intro _ | ((with_reducible apply wrTokSummary_fr); (focus decide)) | ((with_reducible apply rd_fr); (focus decide)) | ((with_reducible apply AFr.val_eq); assumption) | (with_reducible apply AFr.get_bind) | (with_reducible apply AFr.bind) | (with_reducible apply AFr.set) | split

theorem tokenizeEnd_fr {s : State} {id : Nat} {o : TokOp} {st : Status} {r : TokResult} {mk : Nat} {s00 : State} (hmk : 3367292 ||| mk = mk) (hst : Fr mk s00 s) : Fr mk s00 (tokenizeEnd s id o st r) := by
  refine Fr.step (k := 3367292) ?_ hmk hst
  clear hmk hst
  unfold tokenizeEnd
  try dsimp only
  repeat' first | with_reducible exact Fr.refl _ _ | ((with_reducible apply wrTokSummary_fr); (focus decide)) | ((with_reducible apply modGrd_fr); (focus decide)) | ((with_reducible apply completeCmd_fr); (focus decide)) | (with_reducible apply AFr.runSt)

theorem tokenizeHead_fr {s : State} {c : Nat} {mk : Nat} {s00 : State} (hmk : 3367292 ||| mk = mk) (hst : Fr mk s00 s) : Fr mk s00 (tokenizeHead s c) := by
  refine Fr.step (k := 3367292) ?_ hmk hst
  clear hmk hst
  unfold tokenizeHead
  try dsimp only
  repeat' first | with_reducible assumption | with_reducible exact Fr.refl _ _ | intro _ | ((with_reducible apply grinderHead_fr); (focus decide)) | ((with_reducible apply completeHead_fr); (focus decide)) | ((with_reducible apply tokenizeBegin_fr); (focus decide)) | ((with_reducible apply modGrd_fr); (focus decide)) | ((with_reducible apply popQ_fr); (focus decide)) | ((with_reducible apply AFr.val_eq); assumption) | split

theorem tokenizeItem_fr {s : State} {id : Nat} {o : TokOp} {i : TokItem} {rest : List TokItem} {mk : Nat} {s00 : State} (hmk : 3367292 ||| mk = mk) (hst : Fr mk s00 s) : Fr mk s00 (tokenizeItem s id o i rest) := by
  refine Fr.step (k := 3367292) ?_ hmk hst
  clear hmk hst
  unfold tokenizeItem
  try dsimp only
  repeat' first | with_reducible exact Fr.refl _ _ | ((with_reducible apply tokenizeEnd_fr); (focus decide)) | ((with_reducible apply wr_fr); (focus decide)) | ((with_reducible apply modGrd_fr); (focus decide)) | ((with_reducible apply completeCmd_fr); (focus decide)) | ((with_reducible apply AFr.run_eq); assumption) | split

theorem tokenizeUnit_fr {s : State} {c : Nat} {id : Nat} {mk : Nat} {s00 : State} (hmk : 3367292 ||| mk = mk) (hst : Fr mk s00 s) : Fr mk s00 (tokenizeUnit s c id) := by
  refine Fr.step (k := 3367292) ?_ hmk hst
  clear hmk hst
  unfold tokenizeUnit
  try dsimp only
  repeat' first | with_reducible exact Fr.refl _ _ | ((with_reducible apply tokenizeEnd_fr); (focus decide)) | ((with_reducible apply takeTurn_fr); assumption; (focus decide)) | ((with_reducible apply modGrd_fr); (focus decide)) | ((with_reducible apply tokenizeItem_fr); (focus decide)) | split

theorem stopTokenize_fr {s : State} {test : TokOp → Bool} {mk : Nat} {s00 : State} (hmk : 16384 ||| mk = mk) (hst : Fr mk s00 s) : Fr mk s00 (stopTokenize s test) := by
  refine Fr.step (k := 16384) ?_ hmk hst
  clear hmk hst
  unfold stopTokenize
  try dsimp only
  repeat' first | with_reducible exact Fr.refl _ _ | ((with_reducible apply modGrd_fr); (focus decide))

theorem loadTables_fr {w : Who} {a : Nat} {d : Bytes} {mk : Nat} {s00 : State} (hmk : 1048620 ||| mk = mk) : AFr mk s00 (loadTables w a d) := by
  refine AFr.step (k := 1048620) (fun s00 => ?_) hmk
  clear hmk
  unfold loadTables
  try dsimp only
  repeat' first | with_reducible exact AFr.pure _ | with_reducible exact AFr.stopIf _ _ | intro _ | ((with_reducible apply rd_fr); (focus decide)) | (with_reducible apply AFr.bind)

theorem loadHead_fr {s : State} {c : Nat} {mk : Nat} {s00 : State} (hmk : 1270140 ||| mk = mk) (hst : Fr mk s00 s) : Fr mk s00 (loadHead s c) := by
  refine Fr.step (k := 1270140) ?_ hmk hst
  clear hmk hst
  unfold loadHead
  try dsimp only
  repeat' first | with_reducible assumption | with_reducible exact Fr.refl _ _ | with_reducible exact AFr.stopIf _ _ | intro _ | ((with_reducible apply grinderHead_fr); (focus decide)) | ((with_reducible apply rd_fr); (focus decide)) | ((with_reducible apply loadTables_fr); (focus decide)) | ((with_reducible apply completeHead_fr); (focus decide)) | ((with_reducible apply modGrd_fr); (focus decide)) | ((with_reducible apply AFr.val_eq); assumption) | (with_reducible apply AFr.bind) | split

-- HO
theorem unloadHead_fr {s : State} {c : Nat} {ends : Nat → State → State} {mk : Nat} {s00 : State} (hmk : 3369340 ||| mk = mk) (hends : ∀ x0 t, Fr mk s00 t → Fr mk s00 (ends x0 t)) (hst : Fr mk s00 s) : Fr mk s00 (unloadHead s c ends) := by
  unfold unloadHead
  try dsimp only
  repeat' first | with_reducible assumption | intro _ | ((with_reducible apply grinderHead_fr); (focus first | decide | exact sub_trans (by decide) hmk)) | ((with_reducible apply completeHead_fr); (focus first | decide | exact sub_trans (by decide) hmk)) | ((with_reducible apply popQ_fr); (focus first | decide | exact sub_trans (by decide) hmk)) | ((with_reducible apply modGrd_fr); (focus first | decide | exact sub_trans (by decide) hmk)) | ((with_reducible apply markQueued_fr); (focus first | decide | exact sub_trans (by decide) hmk)) | ((with_reducible apply stopTokenize_fr); (focus first | decide | exact sub_trans (by decide) hmk)) | (with_reducible apply hends) | split

theorem slotFinish_fr {s : State} {slot : Nat} {busy : Bool} {mk : Nat} {s00 : State} (hmk : 1270140 ||| mk = mk) (hst : Fr mk s00 s) : Fr mk s00 (slotFinish s slot busy) := by
  refine Fr.step (k := 1270140) ?_ hmk hst
  clear hmk hst
  unfold slotFinish
  try dsimp only
  repeat' first | with_reducible assumption | with_reducible exact Fr.refl _ _ | intro _ | ((with_reducible apply modGrd_fr); (focus decide)) | ((with_reducible apply completeCmd_fr); (focus decide)) | (with_reducible apply Fr.foldl) | split

theorem execTokenize_fr {ctx : Nat} {run : Option Nat} {s : State} {t00 : State} (heq0 : execTokenize ctx run s = .next t00) : Fr 3367292 s t00 := by
  cases heq0
  repeat' first | with_reducible exact Fr.refl _ _ | ((with_reducible apply tokenizeUnit_fr); (focus decide)) | ((with_reducible apply tokenizeHead_fr); (focus decide)) | split

theorem execLoad_fr {ctx : Nat} {s : State} {t00 : State} (heq0 : execLoad ctx s = .next t00) : Fr 1270140 s t00 := by
  cases heq0
  repeat' first | with_reducible exact Fr.refl _ _ | ((with_reducible apply loadHead_fr); (focus decide))

end Sys2Proof.Laws
end

