-- ==== Sys2Proof/Laws/FramesServing.lean ====
section
/-! SUPPORT. Frames of requests, messages of peers, stages, the pour, the sequencer, percolator writers, the gather engines: the parts of the state that each function may change. -/

namespace Sys2Proof.Laws

open Sys2Proof.Machine

set_option Elab.async false

/-! ### Requests -/

theorem putReq_fr {s : State} {rid : Nat} {r : Request} {mk : Nat} {s00 : State} (hmk : 131072 ||| mk = mk) (hst : Fr mk s00 s) : Fr mk s00 (putReq s rid r) := by
  refine Fr.step (k := 131072) ?_ hmk hst
  clear hmk hst
  unfold putReq
  try dsimp only
  repeat' first | with_reducible exact Fr.refl _ _ | ((with_reducible apply Fr.setPur); (focus decide))

theorem modReq_fr {s : State} {rid : Nat} {f : Request → Request} {mk : Nat} {s00 : State} (hmk : 131072 ||| mk = mk) (hst : Fr mk s00 s) : Fr mk s00 (modReq s rid f) := by
  refine Fr.step (k := 131072) ?_ hmk hst
  clear hmk hst
  unfold modReq
  try dsimp only
  repeat' first | with_reducible exact Fr.refl _ _ | ((with_reducible apply putReq_fr); (focus decide)) | split

theorem recPut_fr {s : State} {r : Request} {off : Nat} {n : Nat} {v : Nat} {mk : Nat} {s00 : State} (hmk : 1048620 ||| mk = mk) (hst : Fr mk s00 s) : Fr mk s00 (recPut s r off n v) := by
  refine Fr.step (k := 1048620) ?_ hmk hst
  clear hmk hst
  unfold recPut
  try dsimp only
  repeat' first | with_reducible exact Fr.refl _ _ | ((with_reducible apply wrNat_fr); (focus decide)) | (with_reducible apply AFr.run)

theorem freePages_fr {s : State} {gs : List Nat} {mk : Nat} {s00 : State} (hmk : 131328 ||| mk = mk) (hst : Fr mk s00 s) : Fr mk s00 (freePages s gs) := by
  refine Fr.step (k := 131328) ?_ hmk hst
  clear hmk hst
  unfold freePages
  try dsimp only
  repeat' first | with_reducible assumption | with_reducible exact Fr.refl _ _ | intro _ | ((with_reducible apply purserSend_fr); (focus decide)) | (with_reducible apply Fr.ite) | (with_reducible apply Fr.foldl) | ((with_reducible apply Fr.setPur); (focus decide))

theorem dropRef_fr {x0 : Nat} {x1 : Nat} {x2 : State} {mk : Nat} {s00 : State} (hmk : 1179948 ||| mk = mk) (hst : Fr mk s00 x2) : Fr mk s00 (dropRef x0 x1 x2) := by
  induction x0 generalizing x1 x2 with
  | zero =>
    unfold dropRef
    try dsimp only
    repeat' first | with_reducible assumption
  | succ y1 ih =>
    unfold dropRef
    try dsimp only
    repeat' first | with_reducible assumption | (with_reducible apply ih) | ((with_reducible apply purserSend_fr); (focus (first | decide | exact sub_trans (by decide) hmk))) | ((with_reducible apply rd_fr); (focus (first | decide | exact sub_trans (by decide) hmk))) | ((with_reducible apply wrNat_fr); (focus (first | decide | exact sub_trans (by decide) hmk))) | ((with_reducible apply freePages_fr); (focus (first | decide | exact sub_trans (by decide) hmk))) | (with_reducible apply AFr.run) | ((with_reducible apply AFr.val_eq); assumption) | split

theorem addRef_fr {s : State} {a : Nat} {mk : Nat} {s00 : State} (hmk : 1048620 ||| mk = mk) (hst : Fr mk s00 s) : Fr mk s00 (addRef s a) := by
  refine Fr.step (k := 1048620) ?_ hmk hst
  clear hmk hst
  unfold addRef
  try dsimp only
  repeat' first | with_reducible exact Fr.refl _ _ | ((with_reducible apply rdNat_fr); (focus decide)) | ((with_reducible apply wrNat_fr); (focus decide)) | (with_reducible apply AFr.run) | ((with_reducible apply AFr.val_eq); assumption) | split

theorem retireWork_fr {a : Nat} {mk : Nat} {s00 : State} (hmk : 1179948 ||| mk = mk) : AFr mk s00 (retireWork a) := by
  refine AFr.step (k := 1179948) (fun s00 => ?_) hmk
  clear hmk
  unfold retireWork
  try dsimp only
  repeat' first | with_reducible assumption | with_reducible exact AFr.pure _ | with_reducible exact AFr.stopIf _ _ | intro _ | ((with_reducible apply rd_fr); (focus decide)) | ((with_reducible apply wrNat_fr); (focus decide)) | ((with_reducible apply freePages_fr); (focus decide)) | ((with_reducible apply dropRef_fr); (focus decide)) | (with_reducible apply AFr.bind) | (with_reducible apply AFr.set) | (with_reducible apply AFr.actMod) | (with_reducible apply AFr.ite) | (with_reducible apply Fr.ite)

theorem claimReports_fr {s : State} {g : Stage} {mk : Nat} {s00 : State} (hmk : 131072 ||| mk = mk) (hst : Fr mk s00 s) : Fr mk s00 (claimReports s g) := by
  refine Fr.step (k := 131072) ?_ hmk hst
  clear hmk hst
  unfold claimReports
  try dsimp only
  repeat' first | with_reducible exact Fr.refl _ _ | ((with_reducible apply Fr.setPur); (focus decide))

theorem takeAnswer_fr {s : State} {m : Nat} {rid : Nat} {key : Nat} {a : Answer} {mk : Nat} {s00 : State} (hmk : 131328 ||| mk = mk) (hst : Fr mk s00 s) : Fr mk s00 (takeAnswer s m rid key a) := by
  refine Fr.step (k := 131328) ?_ hmk hst
  clear hmk hst
  unfold takeAnswer
  try dsimp only
  repeat' first | with_reducible assumption | with_reducible exact Fr.refl _ _ | ((with_reducible apply putReq_fr); (focus decide)) | ((with_reducible apply freePages_fr); (focus decide)) | split

theorem finishReq_fr {s : State} {rid : Nat} {st : Status} {mk : Nat} {s00 : State} (hmk : 3342636 ||| mk = mk) (hst : Fr mk s00 s) : Fr mk s00 (finishReq s rid st) := by
  refine Fr.step (k := 3342636) ?_ hmk hst
  clear hmk hst
  unfold finishReq
  try dsimp only
  repeat' first | with_reducible assumption | with_reducible exact Fr.refl _ _ | intro _ | ((with_reducible apply endPlain_fr); (focus decide)) | ((with_reducible apply claimReports_fr); (focus decide)) | ((with_reducible apply recPut_fr); (focus decide)) | ((with_reducible apply dropRef_fr); (focus decide)) | ((with_reducible apply freePages_fr); (focus decide)) | (with_reducible apply Fr.foldl) | split | ((with_reducible apply Fr.setPur); (focus decide))

theorem pushEvent_fr {s : State} {rid : Nat} {e : SeqEvent} {mk : Nat} {s00 : State} (hmk : 131072 ||| mk = mk) (hst : Fr mk s00 s) : Fr mk s00 (pushEvent s rid e) := by
  refine Fr.step (k := 131072) ?_ hmk hst
  clear hmk hst
  unfold pushEvent
  try dsimp only
  repeat' first | with_reducible exact Fr.refl _ _ | ((with_reducible apply modReq_fr); (focus decide))

theorem requestError_fr {s : State} {rid : Nat} {st : Status} {mk : Nat} {s00 : State} (hmk : 3342636 ||| mk = mk) (hst : Fr mk s00 s) : Fr mk s00 (requestError s rid st) := by
  refine Fr.step (k := 3342636) ?_ hmk hst
  clear hmk hst
  unfold requestError
  try dsimp only
  repeat' first | with_reducible exact Fr.refl _ _ | ((with_reducible apply pushEvent_fr); (focus decide)) | ((with_reducible apply finishReq_fr); (focus decide)) | split

theorem stageWorked_fr {s : State} {rid : Nat} {op : Nat} {st : Status} {mk : Nat} {s00 : State} (hmk : 131072 ||| mk = mk) (hst : Fr mk s00 s) : Fr mk s00 (stageWorked s rid op st) := by
  refine Fr.step (k := 131072) ?_ hmk hst
  clear hmk hst
  unfold stageWorked
  try dsimp only
  repeat' first | with_reducible exact Fr.refl _ _ | ((with_reducible apply modReq_fr); (focus decide))

theorem admitRequest_fr {s : State} {r : Request} {mk : Nat} {s00 : State} (hmk : 131072 ||| mk = mk) (hst : Fr mk s00 s) : Fr mk s00 (admitRequest s r).1 := by
  refine Fr.step (k := 131072) ?_ hmk hst
  clear hmk hst
  unfold admitRequest
  try dsimp only
  repeat' first | with_reducible exact Fr.refl _ _ | ((with_reducible apply Fr.setPur); (focus decide))

theorem admitRequest_eq {s : State} {r : Request} {y0 : Request} {t00 : State} {mk : Nat} {s00 : State} (heq0 : admitRequest s r = (t00, y0)) (hmk : 131072 ||| mk = mk)
    (hst : Fr mk s00 s) : Fr mk s00 t00 := by
  have h1 := @admitRequest_fr s r mk s00 hmk hst
  rw [heq0] at h1
  exact h1

theorem stageEnds_fr {s : State} {rid : Nat} {op : Nat} {st : Status} {mk : Nat} {s00 : State} (hmk : 3342636 ||| mk = mk) (hst : Fr mk s00 s) : Fr mk s00 (stageEnds s rid op st) := by
  refine Fr.step (k := 3342636) ?_ hmk hst
  clear hmk hst
  unfold stageEnds
  try dsimp only
  repeat' first | with_reducible exact Fr.refl _ _ | ((with_reducible apply finishReq_fr); (focus decide)) | ((with_reducible apply admitRequest_fr); (focus decide)) | ((with_reducible apply endPlain_fr); (focus decide)) | ((with_reducible apply claimReports_fr); (focus decide)) | ((with_reducible apply putReq_fr); (focus decide)) | split

theorem mapStops_fr {s : State} {rid : Nat} {op : Nat} {r : Request} {st : Status} {mk : Nat} {s00 : State} (hmk : 3342636 ||| mk = mk) (hst : Fr mk s00 s) : Fr mk s00 (mapStops s rid op r st) := by
  refine Fr.step (k := 3342636) ?_ hmk hst
  clear hmk hst
  unfold mapStops
  try dsimp only
  repeat' first | with_reducible exact Fr.refl _ _ | intro _ | ((with_reducible apply pushEvent_fr); (focus decide)) | ((with_reducible apply stageEnds_fr); (focus decide)) | (with_reducible apply Fr.ite)

theorem stageComplete_fr {s : State} {rid : Nat} {op : Nat} {mk : Nat} {s00 : State} (hmk : 3342636 ||| mk = mk) (hst : Fr mk s00 s) : Fr mk s00 (stageComplete s rid op) := by
  refine Fr.step (k := 3342636) ?_ hmk hst
  clear hmk hst
  unfold stageComplete
  try dsimp only
  repeat' first | with_reducible exact Fr.refl _ _ | ((with_reducible apply mapStops_fr); (focus decide)) | ((with_reducible apply stageEnds_fr); (focus decide)) | split

theorem takeStage_fr {s : State} {id : Nat} {c : PCmd} {mk : Nat} {s00 : State} (hmk : 3342636 ||| mk = mk) (hst : Fr mk s00 s) : Fr mk s00 (takeStage s id c) := by
  refine Fr.step (k := 3342636) ?_ hmk hst
  clear hmk hst
  unfold takeStage
  try dsimp only
  repeat' first | with_reducible exact Fr.refl _ _ | ((with_reducible apply endPlain_fr); (focus decide)) | ((with_reducible apply rd_fr); (focus decide)) | ((with_reducible apply recPut_fr); (focus decide)) | ((with_reducible apply putReq_fr); (focus decide)) | ((with_reducible apply finishReq_fr); (focus decide)) | ((with_reducible apply AFr.val_eq); assumption) | (with_reducible apply AFr.set) | split

theorem rdShards_fr {w : Who} {b : Bytes} {mk : Nat} {s00 : State} (hmk : 1048620 ||| mk = mk) : AFr mk s00 (rdShards w b) := by
  refine AFr.step (k := 1048620) (fun s00 => ?_) hmk
  clear hmk
  unfold rdShards
  try dsimp only
  repeat' first | with_reducible exact AFr.pure _ | with_reducible exact AFr.stopIf _ _ | intro _ | ((with_reducible apply rd_fr); (focus decide)) | (with_reducible apply AFr.bind) | (with_reducible apply AFr.mapM)

theorem rdModel_fr {w : Who} {a : Nat} {tokenizer : Nat} {mk : Nat} {s00 : State} (hmk : 1179948 ||| mk = mk) : AFr mk s00 (rdModel w a tokenizer) := by
  refine AFr.step (k := 1179948) (fun s00 => ?_) hmk
  clear hmk
  unfold rdModel
  try dsimp only
  repeat' first | with_reducible exact AFr.pure _ | with_reducible exact AFr.stopIf _ _ | intro _ | ((with_reducible apply rd_fr); (focus decide)) | ((with_reducible apply rdNat_fr); (focus decide)) | (with_reducible apply AFr.bind)

theorem rdMaps_fr {w : Who} {a : Nat} {mk : Nat} {s00 : State} (hmk : 1048620 ||| mk = mk) : AFr mk s00 (rdMaps w a) := by
  refine AFr.step (k := 1048620) (fun s00 => ?_) hmk
  clear hmk
  unfold rdMaps
  try dsimp only
  repeat' first | with_reducible exact AFr.pure _ | with_reducible exact AFr.stopIf _ _ | intro _ | ((with_reducible apply rd_fr); (focus decide)) | (with_reducible apply AFr.bind) | (with_reducible apply AFr.ite) | (with_reducible apply AFr.mapM)

theorem stageCheck_fr {rid : Nat} {r : Request} {op : Nat} {g : Stage} {mk : Nat} {s00 : State} (hmk : 1179948 ||| mk = mk) : AFr mk s00 (stageCheck rid r op g) := by
  refine AFr.step (k := 1179948) (fun s00 => ?_) hmk
  clear hmk
  unfold stageCheck
  try dsimp only
  repeat' first | with_reducible exact AFr.stopIf _ _ | intro _ | ((with_reducible apply rdModel_fr); (focus decide)) | ((with_reducible apply rd_fr); (focus decide)) | ((with_reducible apply rdShards_fr); (focus decide)) | ((with_reducible apply rdMaps_fr); (focus decide)) | (with_reducible apply AFr.bind) | (with_reducible apply AFr.ite)

theorem modClass_fr {s : State} {c : Nat} {f : ClassSt → ClassSt} {mk : Nat} {s00 : State} (hmk : 131072 ||| mk = mk) (hst : Fr mk s00 s) : Fr mk s00 (modClass s c f) := by
  refine Fr.step (k := 131072) ?_ hmk hst
  clear hmk hst
  unfold modClass
  try dsimp only
  repeat' first | with_reducible exact Fr.refl _ _ | ((with_reducible apply Fr.setPur); (focus decide))

theorem takeBudget_fr {s : State} {r : Request} {n : Nat} {mk : Nat} {s00 : State} (hmk : 131072 ||| mk = mk) (hst : Fr mk s00 s) : Fr mk s00 (takeBudget s r n) := by
  refine Fr.step (k := 131072) ?_ hmk hst
  clear hmk hst
  unfold takeBudget
  try dsimp only
  repeat' first | with_reducible exact Fr.refl _ _ | intro _ | ((with_reducible apply modClass_fr); (focus decide)) | (with_reducible apply Fr.ite)

theorem beginStage_fr {s : State} {rid : Nat} {op : Nat} {mk : Nat} {s00 : State} (hmk : 1179948 ||| mk = mk) (hst : Fr mk s00 s) : Fr mk s00 (beginStage s rid op).2 := by
  refine Fr.step (k := 1179948) ?_ hmk hst
  clear hmk hst
  unfold beginStage
  try dsimp only
  repeat' first | with_reducible assumption | with_reducible exact Fr.refl _ _ | with_reducible exact AFr.pure _ | intro _ | ((with_reducible apply rd_fr); (focus decide)) | ((with_reducible apply stageCheck_fr); (focus decide)) | ((with_reducible apply purserSend_fr); (focus decide)) | ((with_reducible apply putReq_fr); (focus decide)) | ((with_reducible apply putCmd_fr); (focus decide)) | ((with_reducible apply takeBudget_fr); (focus decide)) | ((with_reducible apply recPut_fr); (focus decide)) | ((with_reducible apply AFr.val_eq); assumption) | (with_reducible apply AFr.bind) | (with_reducible apply Fr.foldl) | split

theorem beginStage_eq {s : State} {rid : Nat} {op : Nat} {y0 : Status} {t00 : State} {mk : Nat} {s00 : State} (heq0 : beginStage s rid op = (y0, t00)) (hmk : 1179948 ||| mk = mk)
    (hst : Fr mk s00 s) : Fr mk s00 t00 := by
  have h1 := @beginStage_fr s rid op mk s00 hmk hst
  rw [heq0] at h1
  exact h1

theorem stageStart_fr {s : State} {rid : Nat} {op : Nat} {mk : Nat} {s00 : State} (hmk : 3342636 ||| mk = mk) (hst : Fr mk s00 s) : Fr mk s00 (stageStart s rid op) := by
  refine Fr.step (k := 3342636) ?_ hmk hst
  clear hmk hst
  unfold stageStart
  try dsimp only
  repeat' first | with_reducible exact Fr.refl _ _ | ((with_reducible apply finishReq_fr); (focus decide)) | ((with_reducible apply beginStage_eq); assumption; (focus decide)) | split

-- HO
theorem stageRow_fr {s : State} {rid : Nat} {op : Nat} {f : State → Request → Stage → State} {mk : Nat} {s00 : State} (hmk : 3342636 ||| mk = mk) (hf : ∀ t x1 x2, Fr mk s00 t → Fr mk s00 (f t x1 x2)) (hst : Fr mk s00 s) : Fr mk s00 (stageRow s rid op f) := by
  unfold stageRow
  try dsimp only
  repeat' first | with_reducible assumption | ((with_reducible apply finishReq_fr); (focus first | decide | exact sub_trans (by decide) hmk)) | ((with_reducible apply mapStops_fr); (focus first | decide | exact sub_trans (by decide) hmk)) | ((with_reducible apply noteStep_fr); (focus first | decide | exact sub_trans (by decide) hmk)) | (with_reducible apply hf) | split

theorem cancelCmd_fr {s : State} {id : Nat} {mk : Nat} {s00 : State} (hmk : 3342636 ||| mk = mk) (hst : Fr mk s00 s) : Fr mk s00 (cancelCmd s id) := by
  refine Fr.step (k := 3342636) ?_ hmk hst
  clear hmk hst
  unfold cancelCmd
  try dsimp only
  repeat' first | with_reducible exact Fr.refl _ _ | intro _ | ((with_reducible apply startRow_fr); (focus decide)) | ((with_reducible apply endPlain_fr); (focus decide)) | ((with_reducible apply rdNat_fr); (focus decide)) | ((with_reducible apply pushEvent_fr); (focus decide)) | ((with_reducible apply putCmd_fr); (focus decide)) | ((with_reducible apply putReq_fr); (focus decide)) | ((with_reducible apply finishReq_fr); (focus decide)) | ((with_reducible apply AFr.val_eq); assumption) | (with_reducible apply AFr.set) | split

theorem prefixRetireCmd_fr {s : State} {id : Nat} {mk : Nat} {s00 : State} (hmk : 3342636 ||| mk = mk) (hst : Fr mk s00 s) : Fr mk s00 (prefixRetireCmd s id) := by
  refine Fr.step (k := 3342636) ?_ hmk hst
  clear hmk hst
  unfold prefixRetireCmd
  try dsimp only
  repeat' first | with_reducible exact Fr.refl _ _ | intro _ | ((with_reducible apply startRow_fr); (focus decide)) | ((with_reducible apply endPlain_fr); (focus decide)) | ((with_reducible apply retireWork_fr); (focus decide)) | ((with_reducible apply putCmd_fr); (focus decide)) | ((with_reducible apply purserSend_fr); (focus decide)) | (with_reducible apply AFr.run) | (with_reducible apply Fr.ite)

theorem disableReq_fr {s : State} {rid : Nat} {whole : Request → Bool} {hit : PCmd → Bool} {mk : Nat} {s00 : State} (hmk : 3342636 ||| mk = mk) (hst : Fr mk s00 s) : Fr mk s00 (disableReq s rid whole hit) := by
  refine Fr.step (k := 3342636) ?_ hmk hst
  clear hmk hst
  unfold disableReq
  try dsimp only
  repeat' first | with_reducible exact Fr.refl _ _ | ((with_reducible apply pushEvent_fr); (focus decide)) | ((with_reducible apply putReq_fr); (focus decide)) | ((with_reducible apply finishReq_fr); (focus decide)) | split

theorem disableReqs_fr {s : State} {whole : Request → Bool} {hit : PCmd → Bool} {mk : Nat} {s00 : State} (hmk : 3342636 ||| mk = mk) (hst : Fr mk s00 s) : Fr mk s00 (disableReqs s whole hit) := by
  refine Fr.step (k := 3342636) ?_ hmk hst
  clear hmk hst
  unfold disableReqs
  try dsimp only
  repeat' first | with_reducible assumption | with_reducible exact Fr.refl _ _ | intro _ | ((with_reducible apply disableReq_fr); (focus decide)) | (with_reducible apply Fr.foldl)

theorem execStageStart_fr {rid : Nat} {op : Nat} {s : State} {t00 : State} (heq0 : execStageStart rid op s = .next t00) : Fr 3342636 s t00 := by
  cases heq0
  repeat' first | with_reducible exact Fr.refl _ _ | ((with_reducible apply stageStart_fr); (focus decide))

theorem execStageComplete_fr {rid : Nat} {op : Nat} {s : State} {t00 : State} (heq0 : execStageComplete rid op s = .next t00) : Fr 3342636 s t00 := by
  cases heq0
  repeat' first | with_reducible exact Fr.refl _ _ | ((with_reducible apply stageComplete_fr); (focus decide))

theorem execCancel_fr {id : Nat} {s : State} {t00 : State} (heq0 : execCancel id s = .next t00) : Fr 3342636 s t00 := by
  cases heq0
  repeat' first | with_reducible exact Fr.refl _ _ | ((with_reducible apply cancelCmd_fr); (focus decide))

theorem execPrefixRetire_fr {id : Nat} {s : State} {t00 : State} (heq0 : execPrefixRetire id s = .next t00) : Fr 3342636 s t00 := by
  cases heq0
  repeat' first | with_reducible exact Fr.refl _ _ | ((with_reducible apply prefixRetireCmd_fr); (focus decide))

/-! ### Peers -/

theorem choiceRecs_fr {w : Who} {a : Nat} {n : Nat} {k : Nat} {mk : Nat} {s00 : State} (hmk : 1048620 ||| mk = mk) : AFr mk s00 (choiceRecs w a n k) := by
  refine AFr.step (k := 1048620) (fun s00 => ?_) hmk
  clear hmk
  unfold choiceRecs
  try dsimp only
  repeat' first | with_reducible exact AFr.pure _ | intro _ | ((with_reducible apply rdNat_fr); (focus decide)) | ((with_reducible apply rd_fr); (focus decide)) | (with_reducible apply AFr.bind)

theorem bring_fr {s : State} {ctx : Nat} {src : Nat} {dst : Nat} {n : Nat} {mk : Nat} {s00 : State} (hmk : 2097152 ||| mk = mk) (hst : Fr mk s00 s) : Fr mk s00 (bring s ctx src dst n).2 := by
  refine Fr.step (k := 2097152) ?_ hmk hst
  clear hmk hst
  unfold bring
  try dsimp only
  repeat' first | with_reducible exact Fr.refl _ _ | ((with_reducible apply pickEng_fr); (focus decide))

theorem bring_eq {s : State} {ctx : Nat} {src : Nat} {dst : Nat} {n : Nat} {y0 : List (Eng × Bytes)} {t00 : State} {mk : Nat} {s00 : State} (heq0 : bring s ctx src dst n = (y0, t00)) (hmk : 2097152 ||| mk = mk)
    (hst : Fr mk s00 s) : Fr mk s00 t00 := by
  have h1 := @bring_fr s ctx src dst n mk s00 hmk hst
  rw [heq0] at h1
  exact h1

theorem centroidScore_fr {w : Who} {panel : Nat} {cfmt : Nat} {op : Nat} {rows : List ActRow} {c : Nat} {mk : Nat} {s00 : State} (hmk : 1048620 ||| mk = mk) : AFr mk s00 (centroidScore w panel cfmt op rows c) := by
  refine AFr.step (k := 1048620) (fun s00 => ?_) hmk
  clear hmk
  unfold centroidScore
  try dsimp only
  repeat' first | with_reducible exact AFr.pure _ | intro _ | ((with_reducible apply rd_fr); (focus decide)) | (with_reducible apply AFr.bind) | (with_reducible apply AFr.foldlM)

theorem centroidKeys_fr {w : Who} {desc : Nat} {qvec : Nat} {mk : Nat} {s00 : State} (hmk : 1048620 ||| mk = mk) : AFr mk s00 (centroidKeys w desc qvec) := by
  refine AFr.step (k := 1048620) (fun s00 => ?_) hmk
  clear hmk
  unfold centroidKeys
  try dsimp only
  repeat' first | with_reducible exact AFr.pure _ | intro _ | ((with_reducible apply rd_fr); (focus decide)) | ((with_reducible apply centroidScore_fr); (focus decide)) | (with_reducible apply AFr.bind) | (with_reducible apply AFr.mapM)

theorem queryReady_fr {q : ShardQuery} {buf : Nat} {probes : List Nat} {mk : Nat} {s00 : State} (hmk : 1048620 ||| mk = mk) : AFr mk s00 (queryReady q buf probes) := by
  refine AFr.step (k := 1048620) (fun s00 => ?_) hmk
  clear hmk
  unfold queryReady
  try dsimp only
  repeat' first | with_reducible exact AFr.pure _ | with_reducible exact AFr.get | intro _ | ((with_reducible apply wr_fr); (focus decide)) | (with_reducible apply AFr.bind)

theorem queryBegin_fr {q : ShardQuery} {buf : Nat} {qvec : Bytes} {filter : Bytes} {mk : Nat} {s00 : State} (hmk : 3145772 ||| mk = mk) : AFr mk s00 (queryBegin q buf qvec filter) := by
  refine AFr.step (k := 3145772) (fun s00 => ?_) hmk
  clear hmk
  unfold queryBegin
  try dsimp only
  repeat' first | with_reducible assumption | with_reducible exact AFr.pure _ | intro _ | ((with_reducible apply wr_fr); (focus decide)) | ((with_reducible apply queryReady_fr); (focus decide)) | ((with_reducible apply centroidKeys_fr); (focus decide)) | ((with_reducible apply pickEng_fr); (focus decide)) | (with_reducible apply AFr.get_bind) | (with_reducible apply AFr.bind) | (with_reducible apply AFr.set) | (with_reducible apply AFr.ite)

theorem queryProbes_fr {q : ShardQuery} {buf : Nat} {mk : Nat} {s00 : State} (hmk : 1048620 ||| mk = mk) : AFr mk s00 (queryProbes q buf) := by
  refine AFr.step (k := 1048620) (fun s00 => ?_) hmk
  clear hmk
  unfold queryProbes
  try dsimp only
  repeat' first | intro _ | ((with_reducible apply rd_fr); (focus decide)) | ((with_reducible apply choiceRecs_fr); (focus decide)) | ((with_reducible apply queryReady_fr); (focus decide)) | (with_reducible apply AFr.bind)

theorem shardResult_fr {q : ShardQuery} {buf : Nat} {mk : Nat} {s00 : State} (hmk : 1048620 ||| mk = mk) : AFr mk s00 (shardResult q buf) := by
  refine AFr.step (k := 1048620) (fun s00 => ?_) hmk
  clear hmk
  unfold shardResult
  try dsimp only
  repeat' first | with_reducible exact AFr.pure _ | intro _ | ((with_reducible apply rdNat_fr); (focus decide)) | ((with_reducible apply rd_fr); (focus decide)) | (with_reducible apply AFr.bind)

theorem partAnswer_fr {s : State} {rid : Nat} {i : Nat} {f : SearchPart → SearchPart} {mk : Nat} {s00 : State} (hmk : 131072 ||| mk = mk) (hst : Fr mk s00 s) : Fr mk s00 (partAnswer s rid i f) := by
  refine Fr.step (k := 131072) ?_ hmk hst
  clear hmk hst
  unfold partAnswer
  try dsimp only
  repeat' first | with_reducible exact Fr.refl _ _ | ((with_reducible apply modReq_fr); (focus decide))

theorem tellSearched_fr {s : State} {m : Nat} {rid : Nat} {i : Nat} {st : Status} {metric : Nat} {recs : Bytes} {mk : Nat} {s00 : State} (hmk : 131328 ||| mk = mk) (hst : Fr mk s00 s) : Fr mk s00 (tellSearched s m rid i st metric recs) := by
  refine Fr.step (k := 131328) ?_ hmk hst
  clear hmk hst
  unfold tellSearched
  try dsimp only
  repeat' first | with_reducible exact Fr.refl _ _ | intro _ | ((with_reducible apply partAnswer_fr); (focus decide)) | ((with_reducible apply purserSend_fr); (focus decide)) | (with_reducible apply Fr.ite)

theorem tellReranked_fr {s : State} {m : Nat} {rid : Nat} {i : Nat} {st : Status} {recs : Bytes} {mk : Nat} {s00 : State} (hmk : 131328 ||| mk = mk) (hst : Fr mk s00 s) : Fr mk s00 (tellReranked s m rid i st recs) := by
  refine Fr.step (k := 131328) ?_ hmk hst
  clear hmk hst
  unfold tellReranked
  try dsimp only
  repeat' first | with_reducible exact Fr.refl _ _ | intro _ | ((with_reducible apply partAnswer_fr); (focus decide)) | ((with_reducible apply purserSend_fr); (focus decide)) | (with_reducible apply Fr.ite)

theorem keepFound_fr {s : State} {g : Nat × Nat × Nat} {b : Bytes} {mk : Nat} {s00 : State} (hmk : 131072 ||| mk = mk) (hst : Fr mk s00 s) : Fr mk s00 (keepFound s g b) := by
  refine Fr.step (k := 131072) ?_ hmk hst
  clear hmk hst
  unfold keepFound
  try dsimp only
  repeat' first | with_reducible exact Fr.refl _ _ | ((with_reducible apply Fr.setPur); (focus decide))

theorem querySettled_fr {s : State} {g : Nat × Nat × Nat} {q : ShardQuery} {buf : Nat} {st : Status} {mk : Nat} {s00 : State} (hmk : 1179948 ||| mk = mk) (hst : Fr mk s00 s) : Fr mk s00 (querySettled s g q buf st) := by
  refine Fr.step (k := 1179948) ?_ hmk hst
  clear hmk hst
  unfold querySettled
  try dsimp only
  repeat' first | with_reducible exact Fr.refl _ _ | ((with_reducible apply tellSearched_fr); (focus decide)) | ((with_reducible apply shardResult_fr); (focus decide)) | ((with_reducible apply keepFound_fr); (focus decide)) | ((with_reducible apply AFr.val_eq); assumption) | split

theorem dirFind_fr {w : Who} {base : Nat} {slots : Nat} {x : Nat} {x0 : Nat} {x1 : Nat} {mk : Nat} {s00 : State} (hmk : 1048620 ||| mk = mk) : AFr mk s00 (dirFind w base slots x x0 x1) := by
  refine AFr.step (k := 1048620) (fun s00 => ?_) hmk
  clear hmk
  induction x0 generalizing x1 with
  | zero =>
    unfold dirFind
    try dsimp only
    repeat' first | with_reducible exact AFr.pure _
  | succ y1 ih =>
    unfold dirFind
    try dsimp only
    repeat' first | with_reducible exact AFr.pure _ | (with_reducible apply ih) | intro _ | ((with_reducible apply rd_fr); (focus decide)) | (with_reducible apply AFr.bind) | (with_reducible apply AFr.ite)

theorem dirLookup_fr {w : Who} {base : Nat} {slots : Nat} {x : Nat} {mk : Nat} {s00 : State} (hmk : 1048620 ||| mk = mk) : AFr mk s00 (dirLookup w base slots x) := by
  refine AFr.step (k := 1048620) (fun s00 => ?_) hmk
  clear hmk
  unfold dirLookup
  try dsimp only
  repeat' first | ((with_reducible apply dirFind_fr); (focus decide))

theorem passageMissing_fr {s : State} {rid : Nat} {ctx : Nat} {x : Nat} {mk : Nat} {s00 : State} (hmk : 1048580 ||| mk = mk) (hst : Fr mk s00 s) : Fr mk s00 (passageMissing s rid ctx x) := by
  refine Fr.step (k := 1048580) ?_ hmk hst
  clear hmk hst
  unfold passageMissing
  try dsimp only
  repeat' first | with_reducible exact Fr.refl _ _ | ((with_reducible apply logEntry_fr); (focus decide))

theorem scoreRecs_fr {s : State} {l : List SelRec} {mk : Nat} {s00 : State} (hmk : 2097152 ||| mk = mk) (hst : Fr mk s00 s) : Fr mk s00 (scoreRecs s l).2 := by
  refine Fr.step (k := 2097152) ?_ hmk hst
  clear hmk hst
  unfold scoreRecs
  try dsimp only
  repeat' first | with_reducible assumption | with_reducible exact Fr.refl _ _ | intro _ | ((with_reducible apply takeFree_fr); (focus decide)) | (with_reducible apply Fr.foldl_snd)

theorem scoreRecs_eq {s : State} {l : List SelRec} {y0 : List SelRec} {t00 : State} {mk : Nat} {s00 : State} (heq0 : scoreRecs s l = (y0, t00)) (hmk : 2097152 ||| mk = mk)
    (hst : Fr mk s00 s) : Fr mk s00 t00 := by
  have h1 := @scoreRecs_fr s l mk s00 hmk hst
  rw [heq0] at h1
  exact h1

theorem cascadeLayers_fr {c : Bytes} {x0 : Nat} {x1 : Nat} {x2 : List SelRec} {x3 : State} {mk : Nat} {s00 : State} (hmk : 2097152 ||| mk = mk) (hst : Fr mk s00 x3) : Fr mk s00 (cascadeLayers c x0 x1 x2 x3).2 := by
  induction x0 generalizing x1 x2 x3 with
  | zero =>
    unfold cascadeLayers
    try dsimp only
    repeat' first | with_reducible assumption
  | succ y1 ih =>
    unfold cascadeLayers
    try dsimp only
    repeat' first | with_reducible assumption | (with_reducible apply ih) | ((with_reducible apply scoreRecs_fr); (focus (first | decide | exact sub_trans (by decide) hmk)))

theorem cascadeLayers_eq {c : Bytes} {x0 : Nat} {x1 : Nat} {x2 : List SelRec} {x3 : State} {y0 : List SelRec} {t00 : State} {mk : Nat} {s00 : State} (heq0 : cascadeLayers c x0 x1 x2 x3 = (y0, t00)) (hmk : 2097152 ||| mk = mk)
    (hst : Fr mk s00 x3) : Fr mk s00 t00 := by
  have h1 := @cascadeLayers_fr c x0 x1 x2 x3 mk s00 hmk hst
  rw [heq0] at h1
  exact h1

theorem cascade_fr {c : Bytes} {cands : List SelRec} {s : State} {mk : Nat} {s00 : State} (hmk : 2097152 ||| mk = mk) (hst : Fr mk s00 s) : Fr mk s00 (cascade c cands s).2 := by
  refine Fr.step (k := 2097152) ?_ hmk hst
  clear hmk hst
  unfold cascade
  try dsimp only
  repeat' first | with_reducible exact Fr.refl _ _ | ((with_reducible apply cascadeLayers_fr); (focus decide))

theorem cascade_eq {c : Bytes} {cands : List SelRec} {s : State} {y0 : List SelRec} {t00 : State} {mk : Nat} {s00 : State} (heq0 : cascade c cands s = (y0, t00)) (hmk : 2097152 ||| mk = mk)
    (hst : Fr mk s00 s) : Fr mk s00 t00 := by
  have h1 := @cascade_fr c cands s mk s00 hmk hst
  rw [heq0] at h1
  exact h1

theorem rerankList_fr {rid : Nat} {ctx : Nat} {recs : Bytes} {c : Bytes} {directory : Nat} {slots : Nat} {mk : Nat} {s00 : State} (hmk : 3145772 ||| mk = mk) : AFr mk s00 (rerankList rid ctx recs c directory slots) := by
  refine AFr.step (k := 3145772) (fun s00 => ?_) hmk
  clear hmk
  unfold rerankList
  try dsimp only
  repeat' first | with_reducible assumption | with_reducible exact AFr.pure _ | intro _ | ((with_reducible apply dirLookup_fr); (focus decide)) | ((with_reducible apply rd_fr); (focus decide)) | ((with_reducible apply passageMissing_fr); (focus decide)) | ((with_reducible apply cascade_fr); (focus decide)) | (with_reducible apply AFr.get_bind) | (with_reducible apply AFr.bind) | (with_reducible apply AFr.set) | (with_reducible apply AFr.actMod) | (with_reducible apply AFr.foldlM) | split

theorem serveRerank_fr {s : State} {m : Nat} {rid : Nat} {part : Nat} {ctx : Nat} {c : Bytes} {directory : Nat} {slots : Nat} {mk : Nat} {s00 : State} (hmk : 3277100 ||| mk = mk) (hst : Fr mk s00 s) : Fr mk s00 (serveRerank s m rid part ctx c directory slots) := by
  refine Fr.step (k := 3277100) ?_ hmk hst
  clear hmk hst
  unfold serveRerank
  try dsimp only
  repeat' first | with_reducible exact Fr.refl _ _ | ((with_reducible apply tellReranked_fr); (focus decide)) | ((with_reducible apply rerankList_fr); (focus decide)) | ((with_reducible apply AFr.val_eq); assumption) | split | ((with_reducible apply Fr.setPur); (focus decide))

theorem segTakeWork_fr {a : Nat} {mk : Nat} {s00 : State} (hmk : 1048620 ||| mk = mk) : AFr mk s00 (segTakeWork a) := by
  refine AFr.step (k := 1048620) (fun s00 => ?_) hmk
  clear hmk
  unfold segTakeWork
  try dsimp only
  repeat' first | with_reducible exact AFr.pure _ | intro _ | ((with_reducible apply rd_fr); (focus decide)) | ((with_reducible apply wrNat_fr); (focus decide)) | (with_reducible apply AFr.bind) | (with_reducible apply AFr.ite)

theorem segReadWork_fr {a : Nat} {mk : Nat} {s00 : State} (hmk : 1048620 ||| mk = mk) : AFr mk s00 (segReadWork a) := by
  refine AFr.step (k := 1048620) (fun s00 => ?_) hmk
  clear hmk
  unfold segReadWork
  try dsimp only
  repeat' first | with_reducible exact AFr.pure _ | intro _ | ((with_reducible apply rd_fr); (focus decide)) | (with_reducible apply AFr.bind)

theorem publishHere_fr {a : Nat} {start : Nat} {entries : Bytes} {mk : Nat} {s00 : State} (hmk : 1048620 ||| mk = mk) : AFr mk s00 (publishHere a start entries) := by
  refine AFr.step (k := 1048620) (fun s00 => ?_) hmk
  clear hmk
  unfold publishHere
  try dsimp only
  repeat' first | intro _ | ((with_reducible apply rd_fr); (focus decide)) | ((with_reducible apply wrNat_fr); (focus decide)) | ((with_reducible apply wr_fr); (focus decide)) | (with_reducible apply AFr.bind)

theorem takeRef_fr {s : State} {g : Nat} {mk : Nat} {s00 : State} (hmk : 1048876 ||| mk = mk) (hst : Fr mk s00 s) : Fr mk s00 (takeRef s g) := by
  refine Fr.step (k := 1048876) ?_ hmk hst
  clear hmk hst
  unfold takeRef
  try dsimp only
  repeat' first | with_reducible exact Fr.refl _ _ | intro _ | ((with_reducible apply addRef_fr); (focus decide)) | ((with_reducible apply purserSend_fr); (focus decide)) | (with_reducible apply Fr.ite)

theorem lookupWork_fr {ctx : Nat} {directory : Nat} {slots : Nat} {x : Nat} {mk : Nat} {s00 : State} (hmk : 1048620 ||| mk = mk) : AFr mk s00 (lookupWork ctx directory slots x) := by
  refine AFr.step (k := 1048620) (fun s00 => ?_) hmk
  clear hmk
  unfold lookupWork
  try dsimp only
  repeat' first | with_reducible exact AFr.pure _ | intro _ | ((with_reducible apply dirLookup_fr); (focus decide)) | (with_reducible apply AFr.bind) | split

theorem kvRow_fr {w : Who} {m : Model} {page : Nat} {l : Nat} {h : Nat} {row : Nat} {mk : Nat} {s00 : State} (hmk : 3145772 ||| mk = mk) : AFr mk s00 (kvRow w m page l h row) := by
  refine AFr.step (k := 3145772) (fun s00 => ?_) hmk
  clear hmk
  unfold kvRow
  try dsimp only
  repeat' first | intro _ | ((with_reducible apply wrFree_fr); (focus decide)) | (with_reducible apply AFr.forM)

theorem kvSummarize_fr {w : Who} {m : Model} {page : Nat} {l : Nat} {h : Nat} {j : Nat} {mk : Nat} {s00 : State} (hmk : 1048620 ||| mk = mk) : AFr mk s00 (kvSummarize w m page l h j) := by
  refine AFr.step (k := 1048620) (fun s00 => ?_) hmk
  clear hmk
  unfold kvSummarize
  try dsimp only
  repeat' first | intro _ | ((with_reducible apply rd_fr); (focus decide)) | ((with_reducible apply wr_fr); (focus decide)) | (with_reducible apply AFr.bind)

theorem kvLayer_fr {w : Who} {m : Model} {l : Nat} {first : Nat} {last : Nat} {pages : List (Nat × Nat)} {mk : Nat} {s00 : State} (hmk : 3145772 ||| mk = mk) : AFr mk s00 (kvLayer w m l first last pages) := by
  refine AFr.step (k := 3145772) (fun s00 => ?_) hmk
  clear hmk
  unfold kvLayer
  try dsimp only
  repeat' first | with_reducible exact AFr.pure _ | with_reducible exact AFr.get | intro _ | ((with_reducible apply kvRow_fr); (focus decide)) | ((with_reducible apply kvSummarize_fr); (focus decide)) | (with_reducible apply AFr.bind) | (with_reducible apply AFr.forM) | split

theorem takePages_fr {pool n pb k : Nat} {s : State} {y0 : List Nat} {t00 : State} {mk : Nat} {s00 : State}
    (heq0 : takePages pool n pb k s = some (y0, t00)) (hmk : 2228224 ||| mk = mk) (hst : Fr mk s00 s) :
    Fr mk s00 t00 := by
  induction k generalizing s y0 with
  | zero => cases heq0; exact hst
  | succ k ih =>
    unfold takePages at heq0
    dsimp only at heq0
    split at heq0
    · cases heq0
    · split at heq0
      · cases heq0
        exact ih (by assumption) (Fr.setPur (sub_trans (by decide) hmk) (takeFree_fr (sub_trans (by decide) hmk) hst))
      · cases heq0

theorem kvTakeWork_fr {pool : Nat} {n : Nat} {pb : Nat} {k : Nat} {mk : Nat} {s00 : State} (hmk : 2228224 ||| mk = mk) : AFr mk s00 (kvTakeWork pool n pb k) := by
  refine AFr.step (k := 2228224) (fun s00 => ?_) hmk
  clear hmk
  unfold kvTakeWork
  try dsimp only
  repeat' first | with_reducible assumption | with_reducible exact AFr.pure _ | with_reducible exact AFr.throw _ | intro _ | ((with_reducible apply takePages_fr); assumption; (focus decide)) | (with_reducible apply AFr.get_bind) | (with_reducible apply AFr.bind) | (with_reducible apply AFr.set) | split

theorem Attend.fetch_fr {a : Attend} {s : State} {l : List (Nat × Nat × Nat)} {mk : Nat} {s00 : State} (hmk : 2097152 ||| mk = mk) (hst : Fr mk s00 s) : Fr mk s00 (Attend.fetch a s l).2 := by
  refine Fr.step (k := 2097152) ?_ hmk hst
  clear hmk hst
  unfold Attend.fetch
  try dsimp only
  repeat' first | with_reducible assumption | with_reducible exact Fr.refl _ _ | intro _ | ((with_reducible apply bring_fr); (focus decide)) | (with_reducible apply Fr.foldl_snd)

theorem Attend.fetch_eq {a : Attend} {s : State} {l : List (Nat × Nat × Nat)} {y0 : List (Eng × Bytes)} {t00 : State} {mk : Nat} {s00 : State} (heq0 : Attend.fetch a s l = (y0, t00)) (hmk : 2097152 ||| mk = mk)
    (hst : Fr mk s00 s) : Fr mk s00 t00 := by
  have h1 := @Attend.fetch_fr a s l mk s00 hmk hst
  rw [heq0] at h1
  exact h1

theorem Attend.score_fr {a : Attend} {w : Who} {m : Model} {buf : Nat} {i : Nat} {q : Nat} {j : Nat} {mk : Nat} {s00 : State} (hmk : 1048620 ||| mk = mk) : AFr mk s00 (Attend.score a w m buf i q j) := by
  refine AFr.step (k := 1048620) (fun s00 => ?_) hmk
  clear hmk
  unfold Attend.score
  try dsimp only
  repeat' first | with_reducible exact AFr.pure _ | with_reducible exact AFr.get | intro _ | ((with_reducible apply rd_fr); (focus decide)) | ((with_reducible apply wr_fr); (focus decide)) | (with_reducible apply AFr.bind) | (with_reducible apply AFr.mapM) | split

theorem Attend.choose_fr {a : Attend} {w : Who} {m : Model} {buf : Nat} {mk : Nat} {s00 : State} (hmk : 3145772 ||| mk = mk) : AFr mk s00 (Attend.choose a w m buf) := by
  refine AFr.step (k := 3145772) (fun s00 => ?_) hmk
  clear hmk
  unfold Attend.choose
  try dsimp only
  repeat' first | with_reducible assumption | with_reducible exact AFr.pure _ | intro _ | ((with_reducible apply pickEng_fr); (focus decide)) | ((with_reducible apply Attend.score_fr); (focus decide)) | (with_reducible apply AFr.get_bind) | (with_reducible apply AFr.bind) | (with_reducible apply AFr.set) | (with_reducible apply AFr.mapM)

theorem Attend.attends_fr {a : Attend} {w : Who} {m : Model} {buf : Nat} {q : Nat} {j : Nat} {mk : Nat} {s00 : State} (hmk : 1048620 ||| mk = mk) : AFr mk s00 (Attend.attends a w m buf q j) := by
  refine AFr.step (k := 1048620) (fun s00 => ?_) hmk
  clear hmk
  unfold Attend.attends
  try dsimp only
  repeat' first | with_reducible exact AFr.pure _ | with_reducible exact AFr.get | intro _ | ((with_reducible apply choiceRecs_fr); (focus decide)) | (with_reducible apply AFr.bind) | (with_reducible apply AFr.ite)

theorem Attend.wantBlocks_fr {a : Attend} {w : Who} {m : Model} {buf : Nat} {mk : Nat} {s00 : State} (hmk : 1048620 ||| mk = mk) : AFr mk s00 (Attend.wantBlocks a w m buf) := by
  refine AFr.step (k := 1048620) (fun s00 => ?_) hmk
  clear hmk
  unfold Attend.wantBlocks
  try dsimp only
  repeat' first | with_reducible exact AFr.pure _ | with_reducible exact AFr.get | intro _ | ((with_reducible apply Attend.attends_fr); (focus decide)) | (with_reducible apply AFr.bind) | (with_reducible apply AFr.mapM)

theorem Attend.rdBlock_fr {a : Attend} {w : Who} {m : Model} {buf : Nat} {h : Nat} {b : Nat} {mk : Nat} {s00 : State} (hmk : 1048620 ||| mk = mk) : AFr mk s00 (Attend.rdBlock a w m buf h b) := by
  refine AFr.step (k := 1048620) (fun s00 => ?_) hmk
  clear hmk
  unfold Attend.rdBlock
  try dsimp only
  repeat' first | with_reducible exact AFr.pure _ | with_reducible exact AFr.get | intro _ | ((with_reducible apply rd_fr); (focus decide)) | (with_reducible apply AFr.bind) | split

theorem Attend.compute_fr {a : Attend} {w : Who} {m : Model} {buf : Nat} {mk : Nat} {s00 : State} (hmk : 1048620 ||| mk = mk) : AFr mk s00 (Attend.compute a w m buf) := by
  refine AFr.step (k := 1048620) (fun s00 => ?_) hmk
  clear hmk
  unfold Attend.compute
  try dsimp only
  repeat' first | with_reducible exact AFr.pure _ | with_reducible exact AFr.get | intro _ | ((with_reducible apply Attend.attends_fr); (focus decide)) | ((with_reducible apply Attend.rdBlock_fr); (focus decide)) | (with_reducible apply AFr.bind) | (with_reducible apply AFr.mapM)

theorem Attend.next_fr {a : Attend} {buf : Nat} {mk : Nat} {s00 : State} (hmk : 3276844 ||| mk = mk) : AFr mk s00 (Attend.next a buf) := by
  refine AFr.step (k := 3276844) (fun s00 => ?_) hmk
  clear hmk
  unfold Attend.next
  try dsimp only
  repeat' first | with_reducible assumption | with_reducible exact AFr.pure _ | intro _ | ((with_reducible apply Attend.fetch_fr); (focus decide)) | ((with_reducible apply Attend.choose_fr); (focus decide)) | ((with_reducible apply Attend.wantBlocks_fr); (focus decide)) | ((with_reducible apply Attend.compute_fr); (focus decide)) | (with_reducible apply AFr.get_bind) | (with_reducible apply AFr.bind) | (with_reducible apply AFr.set) | (with_reducible apply AFr.actMod) | split | ((with_reducible apply Fr.setPur); (focus decide))

theorem answerAsk_fr {s : State} {m : Nat} {rid : Nat} {key : Nat} {a : Answer} {mk : Nat} {s00 : State} (hmk : 131328 ||| mk = mk) (hst : Fr mk s00 s) : Fr mk s00 (answerAsk s m rid key a) := by
  refine Fr.step (k := 131328) ?_ hmk hst
  clear hmk hst
  unfold answerAsk
  try dsimp only
  repeat' first | with_reducible exact Fr.refl _ _ | intro _ | ((with_reducible apply takeAnswer_fr); (focus decide)) | ((with_reducible apply purserSend_fr); (focus decide)) | (with_reducible apply Fr.ite)

theorem settleOwn_fr {s : State} {id : Nat} {c : PCmd} {st : Status} {mk : Nat} {s00 : State} (hmk : 1179948 ||| mk = mk) (hst : Fr mk s00 s) : Fr mk s00 (settleOwn s id c st) := by
  refine Fr.step (k := 1179948) ?_ hmk hst
  clear hmk hst
  unfold settleOwn
  try dsimp only
  repeat' first | with_reducible exact Fr.refl _ _ | ((with_reducible apply querySettled_fr); (focus decide)) | ((with_reducible apply answerAsk_fr); (focus decide)) | split | ((with_reducible apply Fr.setPur); (focus decide))

theorem ownStep_fr {x0 : Nat} {x1 : State} {x2 : Nat} {mk : Nat} {s00 : State} (hmk : 3350908 ||| mk = mk) (hst : Fr mk s00 x1) : Fr mk s00 (ownStep x0 x1 x2) := by
  induction x0 generalizing x1 x2 with
  | zero =>
    unfold ownStep
    try dsimp only
    repeat' first | with_reducible assumption
  | succ y1 ih =>
    unfold ownStep
    try dsimp only
    repeat' first | with_reducible assumption | (with_reducible apply ih) | ((with_reducible apply settleOwn_fr); (focus (first | decide | exact sub_trans (by decide) hmk))) | ((with_reducible apply offerKept_fr); (focus (first | decide | exact sub_trans (by decide) hmk))) | ((with_reducible apply queryProbes_fr); (focus (first | decide | exact sub_trans (by decide) hmk))) | ((with_reducible apply putCmd_fr); (focus (first | decide | exact sub_trans (by decide) hmk))) | ((with_reducible apply Attend.next_fr); (focus (first | decide | exact sub_trans (by decide) hmk))) | ((with_reducible apply AFr.val_eq); assumption) | split

theorem startOwn_fr {s : State} {c : PCmd} {mk : Nat} {s00 : State} (hmk : 3350908 ||| mk = mk) (hst : Fr mk s00 s) : Fr mk s00 (startOwn s c) := by
  refine Fr.step (k := 3350908) ?_ hmk hst
  clear hmk hst
  unfold startOwn
  try dsimp only
  repeat' first | with_reducible exact Fr.refl _ _ | ((with_reducible apply ownStep_fr); (focus decide)) | ((with_reducible apply ownCmd_fr); (focus decide))

theorem serveSearch_fr {s : State} {m : Nat} {rid : Nat} {part : Nat} {q : ShardQuery} {qvec : Bytes} {filter : Bytes} {buf : Nat} {mk : Nat} {s00 : State} (hmk : 3350908 ||| mk = mk) (hst : Fr mk s00 s) : Fr mk s00 (serveSearch s m rid part q qvec filter buf) := by
  refine Fr.step (k := 3350908) ?_ hmk hst
  clear hmk hst
  unfold serveSearch
  try dsimp only
  repeat' first | with_reducible exact Fr.refl _ _ | ((with_reducible apply queryBegin_fr); (focus decide)) | ((with_reducible apply tellSearched_fr); (focus decide)) | ((with_reducible apply startOwn_fr); (focus decide)) | ((with_reducible apply AFr.val_eq); assumption) | split

theorem askWork_fr {q : PurserAsk} {mk : Nat} {s00 : State} (hmk : 3276844 ||| mk = mk) : AFr mk s00 (askWork q) := by
  refine AFr.step (k := 3276844) (fun s00 => ?_) hmk
  clear hmk
  unfold askWork
  try dsimp only
  repeat' first | with_reducible exact AFr.pure _ | intro _ | ((with_reducible apply segTakeWork_fr); (focus decide)) | ((with_reducible apply segReadWork_fr); (focus decide)) | ((with_reducible apply rdNat_fr); (focus decide)) | ((with_reducible apply lookupWork_fr); (focus decide)) | ((with_reducible apply kvTakeWork_fr); (focus decide)) | ((with_reducible apply kvLayer_fr); (focus decide)) | (with_reducible apply AFr.bind) | split

theorem serveAsk_fr {s : State} {m : Nat} {rid : Nat} {key : Nat} {q : PurserAsk} {buf : Nat} {mk : Nat} {s00 : State} (hmk : 3350908 ||| mk = mk) (hst : Fr mk s00 s) : Fr mk s00 (serveAsk s m rid key q buf) := by
  refine Fr.step (k := 3350908) ?_ hmk hst
  clear hmk hst
  unfold serveAsk
  try dsimp only
  repeat' first | with_reducible exact Fr.refl _ _ | ((with_reducible apply bring_fr); (focus decide)) | ((with_reducible apply startOwn_fr); (focus decide)) | ((with_reducible apply askWork_fr); (focus decide)) | ((with_reducible apply answerAsk_fr); (focus decide)) | ((with_reducible apply AFr.val_eq); assumption) | split | ((with_reducible apply Fr.setFreeCtr); (focus decide))

theorem ask_fr {s : State} {rid : Nat} {key : Nat} {m : Nat} {q : PurserAsk} {buf : Nat} {mk : Nat} {s00 : State} (hmk : 3350908 ||| mk = mk) (hst : Fr mk s00 s) : Fr mk s00 (ask s rid key m q buf) := by
  refine Fr.step (k := 3350908) ?_ hmk hst
  clear hmk hst
  unfold ask
  try dsimp only
  repeat' first | with_reducible exact Fr.refl _ _ | ((with_reducible apply putReq_fr); (focus decide)) | ((with_reducible apply serveAsk_fr); (focus decide)) | ((with_reducible apply purserSend_fr); (focus decide)) | ((with_reducible apply takeAnswer_fr); (focus decide)) | split

theorem clearAnswers_fr {s : State} {rid : Nat} {mk : Nat} {s00 : State} (hmk : 131072 ||| mk = mk) (hst : Fr mk s00 s) : Fr mk s00 (clearAnswers s rid) := by
  refine Fr.step (k := 131072) ?_ hmk hst
  clear hmk hst
  unfold clearAnswers
  try dsimp only
  repeat' first | with_reducible exact Fr.refl _ _ | ((with_reducible apply modReq_fr); (focus decide))

theorem enqueueStep_fr {s : State} {id : Nat} {mk : Nat} {s00 : State} (hmk : 3350908 ||| mk = mk) (hst : Fr mk s00 s) : Fr mk s00 (enqueueStep s id) := by
  refine Fr.step (k := 3350908) ?_ hmk hst
  clear hmk hst
  unfold enqueueStep
  try dsimp only
  repeat' first | with_reducible exact Fr.refl _ _ | ((with_reducible apply enqueueOffer_fr); (focus decide)) | ((with_reducible apply offerKept_fr); (focus decide)) | ((with_reducible apply ownStep_fr); (focus decide)) | split

theorem execEnqueueOffer_fr {id : Nat} {s : State} {t00 : State} (heq0 : execEnqueueOffer id s = .next t00) : Fr 3350908 s t00 := by
  cases heq0
  repeat' first | with_reducible exact Fr.refl _ _ | ((with_reducible apply enqueueStep_fr); (focus decide))

/-! ### Stages -/

theorem stageIssue_fr {s : State} {id : Nat} {i : Nat} {e : Eng} {b : Bytes} {mk : Nat} {s00 : State} (hmk : 1253756 ||| mk = mk) (hst : Fr mk s00 s) : Fr mk s00 (stageIssue s id i e b) := by
  refine Fr.step (k := 1253756) ?_ hmk hst
  clear hmk hst
  unfold stageIssue
  try dsimp only
  repeat' first | with_reducible exact Fr.refl _ _ | ((with_reducible apply putCmd_fr); (focus decide)) | ((with_reducible apply offerCmd_eq); assumption; (focus decide)) | ((with_reducible apply reportCmd_fr); (focus decide)) | split

-- HO
theorem tokenizeStage_fr {s : State} {rid : Nat} {op : Nat} {buf : Nat} {r : Request} {g : Stage} {next : State → Request → State} {mk : Nat} {s00 : State} (hmk : 1253756 ||| mk = mk) (hnext : ∀ t x1, Fr mk s00 t → Fr mk s00 (next t x1)) (hst : Fr mk s00 s) : Fr mk s00 (tokenizeStage s rid op buf r g next) := by
  unfold tokenizeStage
  try dsimp only
  repeat' first | with_reducible assumption | ((with_reducible apply stageIssue_fr); (focus first | decide | exact sub_trans (by decide) hmk)) | ((with_reducible apply modReq_fr); (focus first | decide | exact sub_trans (by decide) hmk)) | ((with_reducible apply rdNat_fr); (focus first | decide | exact sub_trans (by decide) hmk)) | ((with_reducible apply recPut_fr); (focus first | decide | exact sub_trans (by decide) hmk)) | ((with_reducible apply putReq_fr); (focus first | decide | exact sub_trans (by decide) hmk)) | ((with_reducible apply stageWorked_fr); (focus first | decide | exact sub_trans (by decide) hmk)) | ((with_reducible apply AFr.val_eq); assumption) | (with_reducible apply hnext) | split

theorem embedStage_fr {s : State} {rid : Nat} {buf : Nat} {mk : Nat} {s00 : State} (hmk : 3350908 ||| mk = mk) (hst : Fr mk s00 s) : Fr mk s00 (embedStage s rid buf) := by
  refine Fr.step (k := 3350908) ?_ hmk hst
  clear hmk hst
  unfold embedStage
  try dsimp only
  repeat' first | with_reducible assumption | with_reducible exact Fr.refl _ _ | intro _ | ((with_reducible apply stageRow_fr); (focus decide)) | ((with_reducible apply tokenizeStage_fr); (focus decide)) | ((with_reducible apply stageWorked_fr); (focus decide))

theorem searchCarries_fr {r : Request} {b : Bytes} {dim : Nat} {mk : Nat} {s00 : State} (hmk : 1048620 ||| mk = mk) : AFr mk s00 (searchCarries r b dim) := by
  refine AFr.step (k := 1048620) (fun s00 => ?_) hmk
  clear hmk
  unfold searchCarries
  try dsimp only
  repeat' first | with_reducible exact AFr.pure _ | intro _ | ((with_reducible apply rd_fr); (focus decide)) | (with_reducible apply AFr.bind) | (with_reducible apply AFr.ite)

theorem searchTell_fr {rid : Nat} {b : Bytes} {bufs : List Nat} {s : State} {i : Nat} {mk : Nat} {s00 : State} (hmk : 3350908 ||| mk = mk) (hst : Fr mk s00 s) : Fr mk s00 (searchTell rid b bufs s i) := by
  refine Fr.step (k := 3350908) ?_ hmk hst
  clear hmk hst
  unfold searchTell
  try dsimp only
  repeat' first | with_reducible exact Fr.refl _ _ | ((with_reducible apply partAnswer_fr); (focus decide)) | ((with_reducible apply searchCarries_fr); (focus decide)) | ((with_reducible apply serveSearch_fr); (focus decide)) | ((with_reducible apply purserSend_fr); (focus decide)) | ((with_reducible apply AFr.val_eq); assumption) | split

theorem mergeBytes_fr {r : Request} {mergeK : Nat} {kt : Nat} {largest : Bool} {bufs : List Nat} {mk : Nat} {s00 : State} (hmk : 1048620 ||| mk = mk) : AFr mk s00 (mergeBytes r mergeK kt largest bufs) := by
  refine AFr.step (k := 1048620) (fun s00 => ?_) hmk
  clear hmk
  unfold mergeBytes
  try dsimp only
  repeat' first | with_reducible exact AFr.pure _ | intro _ | ((with_reducible apply wr_fr); (focus decide)) | (with_reducible apply AFr.bind) | (with_reducible apply AFr.mapM)

theorem mergeStage_fr {s : State} {rid : Nat} {op : Nat} {u : Nat} {r : Request} {g : Stage} {mergeK : Nat} {kt : Nat} {largest : Bool} {bufs : List Nat} {mk : Nat} {s00 : State} (hmk : 1253756 ||| mk = mk) (hst : Fr mk s00 s) : Fr mk s00 (mergeStage s rid op u r g mergeK kt largest bufs) := by
  refine Fr.step (k := 1253756) ?_ hmk hst
  clear hmk hst
  unfold mergeStage
  try dsimp only
  repeat' first | with_reducible exact Fr.refl _ _ | ((with_reducible apply stageWorked_fr); (focus decide)) | ((with_reducible apply mergeBytes_fr); (focus decide)) | ((with_reducible apply stageIssue_fr); (focus decide)) | ((with_reducible apply AFr.val_eq); assumption) | split

theorem searchBegin_fr {s : State} {rid : Nat} {shards : List (Nat × Nat)} {mk : Nat} {s00 : State} (hmk : 3350908 ||| mk = mk) (hst : Fr mk s00 s) : Fr mk s00 (searchBegin s rid shards) := by
  refine Fr.step (k := 3350908) ?_ hmk hst
  clear hmk hst
  unfold searchBegin
  try dsimp only
  repeat' first | with_reducible assumption | with_reducible exact Fr.refl _ _ | intro _ | ((with_reducible apply modReq_fr); (focus decide)) | ((with_reducible apply ask_fr); (focus decide)) | (with_reducible apply Fr.foldl)

theorem searchGoOn_fr {s : State} {rid : Nat} {b : Bytes} {bufs : List Nat} {u : Nat} {g : Stage} {mk : Nat} {s00 : State} (hmk : 3350908 ||| mk = mk) (hst : Fr mk s00 s) : Fr mk s00 (searchGoOn s rid b bufs u g) := by
  refine Fr.step (k := 3350908) ?_ hmk hst
  clear hmk hst
  unfold searchGoOn
  try dsimp only
  repeat' first | with_reducible assumption | with_reducible exact Fr.refl _ _ | intro _ | ((with_reducible apply searchTell_fr); (focus decide)) | ((with_reducible apply stageWorked_fr); (focus decide)) | ((with_reducible apply mergeStage_fr); (focus decide)) | (with_reducible apply Fr.foldl) | split

theorem searchStage_fr {s : State} {rid : Nat} {bufs : List Nat} {u : Nat} {mk : Nat} {s00 : State} (hmk : 3350908 ||| mk = mk) (hst : Fr mk s00 s) : Fr mk s00 (searchStage s rid bufs u) := by
  refine Fr.step (k := 3350908) ?_ hmk hst
  clear hmk hst
  unfold searchStage
  try dsimp only
  repeat' first | with_reducible assumption | with_reducible exact Fr.refl _ _ | intro _ | ((with_reducible apply stageRow_fr); (focus decide)) | ((with_reducible apply rd_fr); (focus decide)) | ((with_reducible apply stageWorked_fr); (focus decide)) | ((with_reducible apply searchGoOn_fr); (focus decide)) | ((with_reducible apply rdShards_fr); (focus decide)) | ((with_reducible apply searchBegin_fr); (focus decide)) | ((with_reducible apply modReq_fr); (focus decide)) | ((with_reducible apply AFr.val_eq); assumption) | split

theorem rerankBegin_fr {s : State} {rid : Nat} {r : Request} {b : Bytes} {c : Bytes} {mk : Nat} {s00 : State} (hmk : 3277100 ||| mk = mk) (hst : Fr mk s00 s) : Fr mk s00 (rerankBegin s rid r b c) := by
  refine Fr.step (k := 3277100) ?_ hmk hst
  clear hmk hst
  unfold rerankBegin
  try dsimp only
  repeat' first | with_reducible assumption | with_reducible exact Fr.refl _ _ | intro _ | ((with_reducible apply modReq_fr); (focus decide)) | ((with_reducible apply serveRerank_fr); (focus decide)) | ((with_reducible apply partAnswer_fr); (focus decide)) | ((with_reducible apply purserSend_fr); (focus decide)) | (with_reducible apply Fr.ite) | (with_reducible apply Fr.foldl)

theorem rerankStage_fr {s : State} {rid : Nat} {bufs : List Nat} {u : Nat} {mk : Nat} {s00 : State} (hmk : 3350908 ||| mk = mk) (hst : Fr mk s00 s) : Fr mk s00 (rerankStage s rid bufs u) := by
  refine Fr.step (k := 3350908) ?_ hmk hst
  clear hmk hst
  unfold rerankStage
  try dsimp only
  repeat' first | with_reducible assumption | with_reducible exact Fr.refl _ _ | intro _ | ((with_reducible apply stageRow_fr); (focus decide)) | ((with_reducible apply rd_fr); (focus decide)) | ((with_reducible apply stageWorked_fr); (focus decide)) | ((with_reducible apply rerankBegin_fr); (focus decide)) | ((with_reducible apply modReq_fr); (focus decide)) | ((with_reducible apply mergeStage_fr); (focus decide)) | ((with_reducible apply AFr.val_eq); assumption) | split

theorem modPack_fr {s : State} {rid : Nat} {f : PackSt → PackSt} {mk : Nat} {s00 : State} (hmk : 131072 ||| mk = mk) (hst : Fr mk s00 s) : Fr mk s00 (modPack s rid f) := by
  refine Fr.step (k := 131072) ?_ hmk hst
  clear hmk hst
  unfold modPack
  try dsimp only
  repeat' first | with_reducible exact Fr.refl _ _ | ((with_reducible apply modReq_fr); (focus decide))

theorem chainTaken_fr {s : State} {rid : Nat} {mk : Nat} {s00 : State} (hmk : 1179948 ||| mk = mk) (hst : Fr mk s00 s) : Fr mk s00 (chainTaken s rid) := by
  refine Fr.step (k := 1179948) ?_ hmk hst
  clear hmk hst
  unfold chainTaken
  try dsimp only
  repeat' first | with_reducible assumption | with_reducible exact Fr.refl _ _ | intro _ | ((with_reducible apply dropRef_fr); (focus decide)) | ((with_reducible apply recPut_fr); (focus decide)) | ((with_reducible apply putReq_fr); (focus decide)) | (with_reducible apply Fr.foldl) | split

theorem takeChain_fr {x0 : Nat} {x1 : State} {x2 : Nat} {mk : Nat} {s00 : State} (hmk : 3350908 ||| mk = mk) (hst : Fr mk s00 x1) : Fr mk s00 (takeChain x0 x1 x2) := by
  induction x0 generalizing x1 x2 with
  | zero =>
    unfold takeChain
    try dsimp only
    repeat' first | with_reducible assumption
  | succ y1 ih =>
    unfold takeChain
    try dsimp only
    repeat' first | with_reducible assumption | (with_reducible apply ih) | ((with_reducible apply chainTaken_fr); (focus (first | decide | exact sub_trans (by decide) hmk))) | ((with_reducible apply ask_fr); (focus (first | decide | exact sub_trans (by decide) hmk))) | ((with_reducible apply stageWorked_fr); (focus (first | decide | exact sub_trans (by decide) hmk))) | ((with_reducible apply modReq_fr); (focus (first | decide | exact sub_trans (by decide) hmk))) | split

theorem passageIn_fr {s : State} {rid : Nat} {buf : Nat} {r : Request} {x : Nat × Nat} {mk : Nat} {s00 : State} (hmk : 1179692 ||| mk = mk) (hst : Fr mk s00 s) : Fr mk s00 (passageIn s rid buf r x) := by
  refine Fr.step (k := 1179692) ?_ hmk hst
  clear hmk hst
  unfold passageIn
  try dsimp only
  repeat' first | with_reducible assumption | with_reducible exact Fr.refl _ _ | intro _ | ((with_reducible apply rd_fr); (focus decide)) | ((with_reducible apply wr_fr); (focus decide)) | ((with_reducible apply modPack_fr); (focus decide)) | ((with_reducible apply stageWorked_fr); (focus decide)) | (with_reducible apply AFr.run) | (with_reducible apply AFr.bind) | (with_reducible apply AFr.actMod) | (with_reducible apply Fr.ite)

theorem packPassage_fr {s : State} {rid : Nat} {buf : Nat} {r : Request} {g : Stage} {b : Bytes} {covered : List Nat} {x : SelRec} {mk : Nat} {s00 : State} (hmk : 3350908 ||| mk = mk) (hst : Fr mk s00 s) : Fr mk s00 (packPassage s rid buf r g b covered x).1 := by
  refine Fr.step (k := 3350908) ?_ hmk hst
  clear hmk hst
  unfold packPassage
  try dsimp only
  repeat' first | with_reducible exact Fr.refl _ _ | ((with_reducible apply modPack_fr); (focus decide)) | ((with_reducible apply passageIn_fr); (focus decide)) | ((with_reducible apply stageWorked_fr); (focus decide)) | ((with_reducible apply pickEng_fr); (focus decide)) | ((with_reducible apply stageIssue_fr); (focus decide)) | ((with_reducible apply ask_fr); (focus decide)) | ((with_reducible apply modReq_fr); (focus decide)) | ((with_reducible apply passageMissing_fr); (focus decide)) | split

theorem packPassage_eq {s : State} {rid : Nat} {buf : Nat} {r : Request} {g : Stage} {b : Bytes} {covered : List Nat} {x : SelRec} {y0 : Bool} {t00 : State} {mk : Nat} {s00 : State} (heq0 : packPassage s rid buf r g b covered x = (t00, y0)) (hmk : 3350908 ||| mk = mk)
    (hst : Fr mk s00 s) : Fr mk s00 t00 := by
  have h1 := @packPassage_fr s rid buf r g b covered x mk s00 hmk hst
  rw [heq0] at h1
  exact h1

theorem packPassages_fr {rid : Nat} {buf : Nat} {b : Bytes} {m : Bytes} {x0 : Nat} {x1 : State} {mk : Nat} {s00 : State} (hmk : 3350908 ||| mk = mk) (hst : Fr mk s00 x1) : Fr mk s00 (packPassages rid buf b m x0 x1).1 := by
  induction x0 generalizing x1 with
  | zero =>
    unfold packPassages
    try dsimp only
    repeat' first | with_reducible assumption
  | succ y1 ih =>
    unfold packPassages
    try dsimp only
    repeat' first | with_reducible assumption | (with_reducible apply ih) | ((with_reducible apply packPassage_fr); (focus (first | decide | exact sub_trans (by decide) hmk))) | split

theorem packPassages_eq {rid : Nat} {buf : Nat} {b : Bytes} {m : Bytes} {x0 : Nat} {x1 : State} {y0 : Bool} {t00 : State} {mk : Nat} {s00 : State} (heq0 : packPassages rid buf b m x0 x1 = (t00, y0)) (hmk : 3350908 ||| mk = mk)
    (hst : Fr mk s00 x1) : Fr mk s00 t00 := by
  have h1 := @packPassages_fr rid buf b m x0 x1 mk s00 hmk hst
  rw [heq0] at h1
  exact h1

theorem packEnd_fr {rid : Nat} {r : Request} {mk : Nat} {s00 : State} (hmk : 1179692 ||| mk = mk) : AFr mk s00 (packEnd rid r) := by
  refine AFr.step (k := 1179692) (fun s00 => ?_) hmk
  clear hmk
  unfold packEnd
  try dsimp only
  repeat' first | with_reducible assumption | intro _ | ((with_reducible apply rd_fr); (focus decide)) | ((with_reducible apply wr_fr); (focus decide)) | ((with_reducible apply recPut_fr); (focus decide)) | ((with_reducible apply putReq_fr); (focus decide)) | (with_reducible apply AFr.bind) | (with_reducible apply AFr.actMod) | (with_reducible apply AFr.forM) | split

theorem packFinish_fr {s : State} {rid : Nat} {mk : Nat} {s00 : State} (hmk : 1179692 ||| mk = mk) (hst : Fr mk s00 s) : Fr mk s00 (packFinish s rid) := by
  refine Fr.step (k := 1179692) ?_ hmk hst
  clear hmk hst
  unfold packFinish
  try dsimp only
  repeat' first | with_reducible exact Fr.refl _ _ | ((with_reducible apply packEnd_fr); (focus decide)) | ((with_reducible apply stageWorked_fr); (focus decide)) | (with_reducible apply AFr.run) | split

theorem packTokens_fr {s : State} {rid : Nat} {buf : Nat} {g : Stage} {mk : Nat} {s00 : State} (hmk : 3350908 ||| mk = mk) (hst : Fr mk s00 s) : Fr mk s00 (packTokens s rid buf g) := by
  refine Fr.step (k := 3350908) ?_ hmk hst
  clear hmk hst
  unfold packTokens
  try dsimp only
  repeat' first | with_reducible exact Fr.refl _ _ | with_reducible exact AFr.pure _ | intro _ | ((with_reducible apply stageWorked_fr); (focus decide)) | ((with_reducible apply packFinish_fr); (focus decide)) | ((with_reducible apply rd_fr); (focus decide)) | ((with_reducible apply modReq_fr); (focus decide)) | ((with_reducible apply packPassages_fr); (focus decide)) | ((with_reducible apply AFr.val_eq); assumption) | (with_reducible apply AFr.bind) | split

theorem packStage_fr {s : State} {rid : Nat} {buf : Nat} {mk : Nat} {s00 : State} (hmk : 3350908 ||| mk = mk) (hst : Fr mk s00 s) : Fr mk s00 (packStage s rid buf) := by
  refine Fr.step (k := 3350908) ?_ hmk hst
  clear hmk hst
  unfold packStage
  try dsimp only
  repeat' first | with_reducible assumption | with_reducible exact Fr.refl _ _ | intro _ | ((with_reducible apply stageRow_fr); (focus decide)) | ((with_reducible apply modReq_fr); (focus decide)) | ((with_reducible apply takeChain_fr); (focus decide)) | ((with_reducible apply packTokens_fr); (focus decide)) | ((with_reducible apply tokenizeStage_fr); (focus decide)) | split

theorem execEmbed_fr {rid : Nat} {buf : Nat} {s : State} {t00 : State} (heq0 : execEmbed rid buf s = .next t00) : Fr 3350908 s t00 := by
  cases heq0
  repeat' first | with_reducible exact Fr.refl _ _ | ((with_reducible apply embedStage_fr); (focus decide))

theorem execSearch_fr {rid : Nat} {bufs : List Nat} {u : Nat} {s : State} {t00 : State} (heq0 : execSearch rid bufs u s = .next t00) : Fr 3350908 s t00 := by
  cases heq0
  repeat' first | with_reducible exact Fr.refl _ _ | ((with_reducible apply searchStage_fr); (focus decide))

theorem execRerank_fr {rid : Nat} {bufs : List Nat} {u : Nat} {s : State} {t00 : State} (heq0 : execRerank rid bufs u s = .next t00) : Fr 3350908 s t00 := by
  cases heq0
  repeat' first | with_reducible exact Fr.refl _ _ | ((with_reducible apply rerankStage_fr); (focus decide))

theorem execPack_fr {rid : Nat} {buf : Nat} {s : State} {t00 : State} (heq0 : execPack rid buf s = .next t00) : Fr 3350908 s t00 := by
  cases heq0
  repeat' first | with_reducible exact Fr.refl _ _ | ((with_reducible apply packStage_fr); (focus decide))

/-! ### Serving -/

theorem pageEntry_fr {w : Who} {r : Request} {p : Nat} {mk : Nat} {s00 : State} (hmk : 1048620 ||| mk = mk) : AFr mk s00 (pageEntry w r p) := by
  refine AFr.step (k := 1048620) (fun s00 => ?_) hmk
  clear hmk
  unfold pageEntry
  try dsimp only
  repeat' first | with_reducible exact AFr.pure _ | intro _ | ((with_reducible apply rd_fr); (focus decide)) | (with_reducible apply AFr.bind)

theorem wrPageEntry_fr {w : Who} {r : Request} {p : Nat} {g : Nat} {fill : Nat} {shared : Bool} {mk : Nat} {s00 : State} (hmk : 1048620 ||| mk = mk) : AFr mk s00 (wrPageEntry w r p g fill shared) := by
  refine AFr.step (k := 1048620) (fun s00 => ?_) hmk
  clear hmk
  unfold wrPageEntry
  try dsimp only
  repeat' first | ((with_reducible apply wr_fr); (focus decide))

theorem allPages_fr {w : Who} {r : Request} {last : Nat} {mk : Nat} {s00 : State} (hmk : 1048620 ||| mk = mk) : AFr mk s00 (allPages w r last) := by
  refine AFr.step (k := 1048620) (fun s00 => ?_) hmk
  clear hmk
  unfold allPages
  try dsimp only
  repeat' first | with_reducible exact AFr.pure _ | intro _ | ((with_reducible apply pageEntry_fr); (focus decide)) | (with_reducible apply AFr.bind) | (with_reducible apply AFr.mapM) | split

theorem prefillSub_fr {s : State} {rid : Nat} {sub : Nat} {mk : Nat} {s00 : State} (hmk : 131072 ||| mk = mk) (hst : Fr mk s00 s) : Fr mk s00 (prefillSub s rid sub) := by
  refine Fr.step (k := 131072) ?_ hmk hst
  clear hmk hst
  unfold prefillSub
  try dsimp only
  repeat' first | with_reducible exact Fr.refl _ _ | ((with_reducible apply modReq_fr); (focus decide))

theorem publishCheck_fr {r : Request} {m : Model} {a : Answer} {mk : Nat} {s00 : State} (hmk : 1048620 ||| mk = mk) : AFr mk s00 (publishCheck r m a) := by
  refine AFr.step (k := 1048620) (fun s00 => ?_) hmk
  clear hmk
  unfold publishCheck
  try dsimp only
  repeat' first | with_reducible exact AFr.pure _ | with_reducible exact AFr.stopIf _ _ | intro _ | ((with_reducible apply rd_fr); (focus decide)) | (with_reducible apply AFr.bind)

theorem prefillAsks_fr {s : State} {rid : Nat} {buf : Nat} {m : Model} {mk : Nat} {s00 : State} (hmk : 3350908 ||| mk = mk) (hst : Fr mk s00 s) : Fr mk s00 (prefillAsks s rid buf m) := by
  refine Fr.step (k := 3350908) ?_ hmk hst
  clear hmk hst
  unfold prefillAsks
  try dsimp only
  repeat' first | with_reducible exact Fr.refl _ _ | intro _ | ((with_reducible apply prefillSub_fr); (focus decide)) | ((with_reducible apply ask_fr); (focus decide)) | (with_reducible apply Fr.ite)

theorem prefillChunks_fr {s : State} {rid : Nat} {buf : Nat} {r : Request} {m : Model} {mk : Nat} {s00 : State} (hmk : 3350908 ||| mk = mk) (hst : Fr mk s00 s) : Fr mk s00 (prefillChunks s rid buf r m) := by
  refine Fr.step (k := 3350908) ?_ hmk hst
  clear hmk hst
  unfold prefillChunks
  try dsimp only
  repeat' first | with_reducible assumption | with_reducible exact Fr.refl _ _ | intro _ | ((with_reducible apply ask_fr); (focus decide)) | ((with_reducible apply prefillSub_fr); (focus decide)) | ((with_reducible apply stageWorked_fr); (focus decide)) | ((with_reducible apply publishCheck_fr); (focus decide)) | ((with_reducible apply modReq_fr); (focus decide)) | ((with_reducible apply AFr.val_eq); assumption) | (with_reducible apply Fr.foldl) | split

theorem prefillReady_fr {s : State} {rid : Nat} {mk : Nat} {s00 : State} (hmk : 131072 ||| mk = mk) (hst : Fr mk s00 s) : Fr mk s00 (prefillReady s rid) := by
  refine Fr.step (k := 131072) ?_ hmk hst
  clear hmk hst
  unfold prefillReady
  try dsimp only
  repeat' first | with_reducible exact Fr.refl _ _ | ((with_reducible apply modReq_fr); (focus decide))

theorem prefillGranted_fr {s : State} {rid : Nat} {buf : Nat} {r : Request} {m : Model} {mk : Nat} {s00 : State} (hmk : 3350908 ||| mk = mk) (hst : Fr mk s00 s) : Fr mk s00 (prefillGranted s rid buf r m) := by
  refine Fr.step (k := 3350908) ?_ hmk hst
  clear hmk hst
  unfold prefillGranted
  try dsimp only
  repeat' first | with_reducible exact Fr.refl _ _ | ((with_reducible apply freePages_fr); (focus decide)) | ((with_reducible apply stageWorked_fr); (focus decide)) | ((with_reducible apply clearAnswers_fr); (focus decide)) | ((with_reducible apply modReq_fr); (focus decide)) | ((with_reducible apply prefillReady_fr); (focus decide)) | ((with_reducible apply pageEntry_fr); (focus decide)) | ((with_reducible apply ask_fr); (focus decide)) | ((with_reducible apply prefillSub_fr); (focus decide)) | ((with_reducible apply AFr.val_eq); assumption) | split

theorem prefillWork_fr {rid : Nat} {buf : Nat} {x0 : Nat} {x1 : State} {mk : Nat} {s00 : State} (hmk : 3350908 ||| mk = mk) (hst : Fr mk s00 x1) : Fr mk s00 (prefillWork rid buf x0 x1) := by
  induction x0 generalizing x1 with
  | zero =>
    unfold prefillWork
    try dsimp only
    repeat' first | with_reducible assumption
  | succ y1 ih =>
    unfold prefillWork
    try dsimp only
    repeat' first | with_reducible assumption | (with_reducible apply ih) | ((with_reducible apply rdModel_fr); (focus (first | decide | exact sub_trans (by decide) hmk))) | ((with_reducible apply stageWorked_fr); (focus (first | decide | exact sub_trans (by decide) hmk))) | ((with_reducible apply prefillAsks_fr); (focus (first | decide | exact sub_trans (by decide) hmk))) | ((with_reducible apply prefillChunks_fr); (focus (first | decide | exact sub_trans (by decide) hmk))) | ((with_reducible apply prefillGranted_fr); (focus (first | decide | exact sub_trans (by decide) hmk))) | ((with_reducible apply prefillReady_fr); (focus (first | decide | exact sub_trans (by decide) hmk))) | ((with_reducible apply clearAnswers_fr); (focus (first | decide | exact sub_trans (by decide) hmk))) | ((with_reducible apply AFr.val_eq); assumption) | split

theorem prefillStage_fr {s : State} {rid : Nat} {buf : Nat} {mk : Nat} {s00 : State} (hmk : 3350908 ||| mk = mk) (hst : Fr mk s00 s) : Fr mk s00 (prefillStage s rid buf) := by
  refine Fr.step (k := 3350908) ?_ hmk hst
  clear hmk hst
  unfold prefillStage
  try dsimp only
  repeat' first | with_reducible assumption | with_reducible exact Fr.refl _ _ | intro _ | ((with_reducible apply stageRow_fr); (focus decide)) | ((with_reducible apply prefillWork_fr); (focus decide)) | ((with_reducible apply clearAnswers_fr); (focus decide)) | (with_reducible apply Fr.ite)

theorem wrPrefillTable_fr {r : Request} {shared : Nat} {mk : Nat} {s00 : State} (hmk : 1048620 ||| mk = mk) : AFr mk s00 (wrPrefillTable r shared) := by
  refine AFr.step (k := 1048620) (fun s00 => ?_) hmk
  clear hmk
  unfold wrPrefillTable
  try dsimp only
  repeat' first | intro _ | ((with_reducible apply wrPageEntry_fr); (focus decide)) | (with_reducible apply AFr.forM)

theorem publish_fr {rid : Nat} {r : Request} {g : Nat} {d : Bytes} {mk : Nat} {s00 : State} (hmk : 1179948 ||| mk = mk) : AFr mk s00 (publish rid r g d) := by
  refine AFr.step (k := 1179948) (fun s00 => ?_) hmk
  clear hmk
  unfold publish
  try dsimp only
  repeat' first | with_reducible assumption | intro _ | ((with_reducible apply rd_fr); (focus decide)) | ((with_reducible apply publishHere_fr); (focus decide)) | ((with_reducible apply purserSend_fr); (focus decide)) | ((with_reducible apply takeRef_fr); (focus decide)) | ((with_reducible apply modReq_fr); (focus decide)) | (with_reducible apply AFr.get_bind) | (with_reducible apply AFr.bind) | (with_reducible apply AFr.set) | (with_reducible apply AFr.actMod) | (with_reducible apply AFr.ite) | (with_reducible apply Fr.ite)

theorem prefillEnd_fr {rid : Nat} {r : Request} {m : Model} {mk : Nat} {s00 : State} (hmk : 3277100 ||| mk = mk) : AFr mk s00 (prefillEnd rid r m) := by
  refine AFr.step (k := 3277100) (fun s00 => ?_) hmk
  clear hmk
  unfold prefillEnd
  try dsimp only
  repeat' first | with_reducible assumption | intro _ | ((with_reducible apply wrPrefillTable_fr); (focus decide)) | ((with_reducible apply publish_fr); (focus decide)) | ((with_reducible apply modReq_fr); (focus decide)) | ((with_reducible apply recPut_fr); (focus decide)) | (with_reducible apply AFr.bind) | (with_reducible apply AFr.actMod) | split | ((with_reducible apply Fr.setFreeCtr); (focus decide))

theorem layerKv_fr {s : State} {rid : Nat} {buf : Nat} {r : Request} {m : Model} {l : Nat} {first : Nat} {last : Nat} {pages : List (Nat × Nat)} {mk : Nat} {s00 : State} (hmk : 3350908 ||| mk = mk) (hst : Fr mk s00 s) : Fr mk s00 (layerKv s rid buf r m l first last pages) := by
  refine Fr.step (k := 3350908) ?_ hmk hst
  clear hmk hst
  unfold layerKv
  try dsimp only
  repeat' first | with_reducible assumption | with_reducible exact Fr.refl _ _ | intro _ | ((with_reducible apply ask_fr); (focus decide)) | (with_reducible apply Fr.foldl)

theorem layerAttend_fr {s : State} {rid : Nat} {buf : Nat} {r : Request} {m : Model} {l : Nat} {len : Nat} {first : Nat} {last : Nat} {mods : List Nat} {pages : List (Nat × Nat)} {mk : Nat} {s00 : State} (hmk : 3350908 ||| mk = mk) (hst : Fr mk s00 s) : Fr mk s00 (layerAttend s rid buf r m l len first last mods pages) := by
  refine Fr.step (k := 3350908) ?_ hmk hst
  clear hmk hst
  unfold layerAttend
  try dsimp only
  repeat' first | with_reducible assumption | with_reducible exact Fr.refl _ _ | intro _ | ((with_reducible apply ask_fr); (focus decide)) | (with_reducible apply Fr.foldl)

-- HO
theorem layerBarrier_fr {s : State} {rid : Nat} {keys : List Nat} {bad : State → Status → State} {next : State → State} {mk : Nat} {s00 : State} (hmk : 131072 ||| mk = mk) (hbad : ∀ t x1, Fr mk s00 t → Fr mk s00 (bad t x1)) (hnext : ∀ t, Fr mk s00 t → Fr mk s00 (next t)) (hst : Fr mk s00 s) : Fr mk s00 (layerBarrier s rid keys bad next) := by
  unfold layerBarrier
  try dsimp only
  repeat' first | with_reducible assumption | ((with_reducible apply clearAnswers_fr); (focus first | decide | exact sub_trans (by decide) hmk)) | (with_reducible apply hbad) | (with_reducible apply hnext) | split

theorem layerDone_fr {s : State} {rid : Nat} {m : Model} {mk : Nat} {s00 : State} (hmk : 3277100 ||| mk = mk) (hst : Fr mk s00 s) : Fr mk s00 (layerDone s rid m) := by
  refine Fr.step (k := 3277100) ?_ hmk hst
  clear hmk hst
  unfold layerDone
  try dsimp only
  repeat' first | with_reducible exact Fr.refl _ _ | ((with_reducible apply countStep_fr); (focus decide)) | ((with_reducible apply modReq_fr); (focus decide)) | ((with_reducible apply prefillEnd_fr); (focus decide)) | ((with_reducible apply stageWorked_fr); (focus decide)) | (with_reducible apply AFr.run) | split

theorem layerWork_fr {s : State} {rid : Nat} {buf : Nat} {r : Request} {g : Stage} {m : Model} {mk : Nat} {s00 : State} (hmk : 3350908 ||| mk = mk) (hst : Fr mk s00 s) : Fr mk s00 (layerWork s rid buf r g m) := by
  refine Fr.step (k := 3350908) ?_ hmk hst
  clear hmk hst
  unfold layerWork
  try dsimp only
  repeat' first | with_reducible assumption | with_reducible exact Fr.refl _ _ | intro _ | ((with_reducible apply stageWorked_fr); (focus decide)) | ((with_reducible apply layerBarrier_fr); (focus decide)) | ((with_reducible apply layerDone_fr); (focus decide)) | ((with_reducible apply allPages_fr); (focus decide)) | ((with_reducible apply layerAttend_fr); (focus decide)) | ((with_reducible apply prefillSub_fr); (focus decide)) | ((with_reducible apply layerKv_fr); (focus decide)) | ((with_reducible apply AFr.val_eq); assumption) | split

theorem prefillLayer_fr {s : State} {rid : Nat} {buf : Nat} {mk : Nat} {s00 : State} (hmk : 3350908 ||| mk = mk) (hst : Fr mk s00 s) : Fr mk s00 (prefillLayer s rid buf) := by
  refine Fr.step (k := 3350908) ?_ hmk hst
  clear hmk hst
  unfold prefillLayer
  try dsimp only
  repeat' first | with_reducible assumption | with_reducible exact Fr.refl _ _ | intro _ | ((with_reducible apply stageRow_fr); (focus decide)) | ((with_reducible apply rdModel_fr); (focus decide)) | ((with_reducible apply stageWorked_fr); (focus decide)) | ((with_reducible apply layerWork_fr); (focus decide)) | ((with_reducible apply AFr.val_eq); assumption) | split

theorem decodeStage_fr {s : State} {rid : Nat} {mk : Nat} {s00 : State} (hmk : 3342636 ||| mk = mk) (hst : Fr mk s00 s) : Fr mk s00 (decodeStage s rid) := by
  refine Fr.step (k := 3342636) ?_ hmk hst
  clear hmk hst
  unfold decodeStage
  try dsimp only
  repeat' first | with_reducible assumption | with_reducible exact Fr.refl _ _ | intro _ | ((with_reducible apply stageRow_fr); (focus decide)) | ((with_reducible apply putReq_fr); (focus decide)) | (with_reducible apply Fr.ite) | ((with_reducible apply Fr.setPur); (focus decide))

theorem sampleBegin_fr {s : State} {vocab : Nat} {rid : Nat} {at_ : Nat} {mk : Nat} {s00 : State} (hmk : 3350908 ||| mk = mk) (hst : Fr mk s00 s) : Fr mk s00 (sampleBegin s vocab rid at_) := by
  refine Fr.step (k := 3350908) ?_ hmk hst
  clear hmk hst
  unfold sampleBegin
  try dsimp only
  repeat' first | with_reducible exact Fr.refl _ _ | ((with_reducible apply wr_fr); (focus decide)) | ((with_reducible apply pickEng_fr); (focus decide)) | ((with_reducible apply putReq_fr); (focus decide)) | ((with_reducible apply startOwn_fr); (focus decide)) | ((with_reducible apply requestError_fr); (focus decide)) | ((with_reducible apply AFr.run_eq); assumption) | split

theorem sampleEnd_fr {s : State} {vocab : Nat} {rid : Nat} {id : Nat} {r : Request} {c : PCmd} {st : Status} {mk : Nat} {s00 : State} (hmk : 3342636 ||| mk = mk) (hst : Fr mk s00 s) : Fr mk s00 (sampleEnd s vocab rid id r c st) := by
  refine Fr.step (k := 3342636) ?_ hmk hst
  clear hmk hst
  unfold sampleEnd
  try dsimp only
  repeat' first | with_reducible exact Fr.refl _ _ | ((with_reducible apply modReq_fr); (focus decide)) | ((with_reducible apply requestError_fr); (focus decide)) | ((with_reducible apply choiceRecs_fr); (focus decide)) | ((with_reducible apply takeFree_fr); (focus decide)) | ((with_reducible apply pushEvent_fr); (focus decide)) | ((with_reducible apply AFr.val_eq); assumption) | split | ((with_reducible apply Fr.setPur); (focus decide))

theorem sampleGoOn_fr {s : State} {vocab : Nat} {rid : Nat} {mk : Nat} {s00 : State} (hmk : 3350908 ||| mk = mk) (hst : Fr mk s00 s) : Fr mk s00 (sampleGoOn s vocab rid) := by
  refine Fr.step (k := 3350908) ?_ hmk hst
  clear hmk hst
  unfold sampleGoOn
  try dsimp only
  repeat' first | with_reducible exact Fr.refl _ _ | intro _ | ((with_reducible apply modReq_fr); (focus decide)) | ((with_reducible apply sampleEnd_fr); (focus decide)) | ((with_reducible apply offerKept_fr); (focus decide)) | (with_reducible apply Fr.ite) | split

theorem stepBegin_fr {s : State} {model : Nat} {m : ModelSt} {buf : Nat} {mk : Nat} {s00 : State} (hmk : 3350908 ||| mk = mk) (hst : Fr mk s00 s) : Fr mk s00 (stepBegin s model m buf) := by
  refine Fr.step (k := 3350908) ?_ hmk hst
  clear hmk hst
  unfold stepBegin
  try dsimp only
  repeat' first | with_reducible assumption | with_reducible exact Fr.refl _ _ | intro _ | ((with_reducible apply rdModel_fr); (focus decide)) | ((with_reducible apply requestError_fr); (focus decide)) | ((with_reducible apply sampleBegin_fr); (focus decide)) | ((with_reducible apply modReq_fr); (focus decide)) | ((with_reducible apply AFr.val_eq); assumption) | (with_reducible apply Fr.foldl) | split | ((with_reducible apply Fr.setPur); (focus decide))

theorem modFwd_fr {s : State} {rid : Nat} {f : ForwardSt → ForwardSt} {mk : Nat} {s00 : State} (hmk : 131072 ||| mk = mk) (hst : Fr mk s00 s) : Fr mk s00 (modFwd s rid f) := by
  refine Fr.step (k := 131072) ?_ hmk hst
  clear hmk hst
  unfold modFwd
  try dsimp only
  repeat' first | with_reducible exact Fr.refl _ _ | ((with_reducible apply modReq_fr); (focus decide))

theorem fwdFails_fr {s : State} {rid : Nat} {st : Status} {mk : Nat} {s00 : State} (hmk : 3342636 ||| mk = mk) (hst : Fr mk s00 s) : Fr mk s00 (fwdFails s rid st) := by
  refine Fr.step (k := 3342636) ?_ hmk hst
  clear hmk hst
  unfold fwdFails
  try dsimp only
  repeat' first | with_reducible exact Fr.refl _ _ | ((with_reducible apply requestError_fr); (focus decide)) | ((with_reducible apply modFwd_fr); (focus decide))

theorem fwdPage_fr {s : State} {rid : Nat} {r : Request} {m : Model} {mk : Nat} {s00 : State} (hmk : 3342636 ||| mk = mk) (hst : Fr mk s00 s) : Fr mk s00 (fwdPage s rid r m) := by
  refine Fr.step (k := 3342636) ?_ hmk hst
  clear hmk hst
  unfold fwdPage
  try dsimp only
  repeat' first | with_reducible exact Fr.refl _ _ | with_reducible exact AFr.pure _ | intro _ | ((with_reducible apply pageEntry_fr); (focus decide)) | ((with_reducible apply fwdFails_fr); (focus decide)) | ((with_reducible apply modFwd_fr); (focus decide)) | ((with_reducible apply AFr.val_eq); assumption) | (with_reducible apply AFr.bind) | split

theorem fwdEntry_fr {s : State} {rid : Nat} {r : Request} {mk : Nat} {s00 : State} (hmk : 3342636 ||| mk = mk) (hst : Fr mk s00 s) : Fr mk s00 (fwdEntry s rid r) := by
  refine Fr.step (k := 3342636) ?_ hmk hst
  clear hmk hst
  unfold fwdEntry
  try dsimp only
  repeat' first | with_reducible exact Fr.refl _ _ | intro _ | ((with_reducible apply wrPageEntry_fr); (focus decide)) | ((with_reducible apply modFwd_fr); (focus decide)) | ((with_reducible apply fwdFails_fr); (focus decide)) | (with_reducible apply AFr.run) | (with_reducible apply Fr.ite)

theorem fwdGranted_fr {s : State} {rid : Nat} {buf : Nat} {r : Request} {m : Model} {g : Nat} {mk : Nat} {s00 : State} (hmk : 3350908 ||| mk = mk) (hst : Fr mk s00 s) : Fr mk s00 (fwdGranted s rid buf r m g) := by
  refine Fr.step (k := 3350908) ?_ hmk hst
  clear hmk hst
  unfold fwdGranted
  try dsimp only
  repeat' first | with_reducible exact Fr.refl _ _ | ((with_reducible apply modReq_fr); (focus decide)) | ((with_reducible apply clearAnswers_fr); (focus decide)) | ((with_reducible apply pageEntry_fr); (focus decide)) | ((with_reducible apply fwdFails_fr); (focus decide)) | ((with_reducible apply ask_fr); (focus decide)) | ((with_reducible apply modFwd_fr); (focus decide)) | ((with_reducible apply AFr.val_eq); assumption) | split

theorem fwdAsk_fr {s : State} {rid : Nat} {buf : Nat} {r : Request} {m : Model} {mk : Nat} {s00 : State} (hmk : 3350908 ||| mk = mk) (hst : Fr mk s00 s) : Fr mk s00 (fwdAsk s rid buf r m) := by
  refine Fr.step (k := 3350908) ?_ hmk hst
  clear hmk hst
  unfold fwdAsk
  try dsimp only
  repeat' first | with_reducible exact Fr.refl _ _ | ((with_reducible apply ask_fr); (focus decide)) | ((with_reducible apply fwdGranted_fr); (focus decide)) | ((with_reducible apply fwdFails_fr); (focus decide)) | ((with_reducible apply clearAnswers_fr); (focus decide)) | ((with_reducible apply modFwd_fr); (focus decide)) | split

theorem fwdDone_fr {s : State} {rid : Nat} {r : Request} {m : Model} {mk : Nat} {s00 : State} (hmk : 3342636 ||| mk = mk) (hst : Fr mk s00 s) : Fr mk s00 (fwdDone s rid r m) := by
  refine Fr.step (k := 3342636) ?_ hmk hst
  clear hmk hst
  unfold fwdDone
  try dsimp only
  repeat' first | with_reducible assumption | with_reducible exact Fr.refl _ _ | intro _ | ((with_reducible apply wr_fr); (focus decide)) | ((with_reducible apply modReq_fr); (focus decide)) | ((with_reducible apply recPut_fr); (focus decide)) | ((with_reducible apply fwdFails_fr); (focus decide)) | (with_reducible apply AFr.run) | (with_reducible apply AFr.bind) | (with_reducible apply AFr.actMod) | (with_reducible apply Fr.ite) | ((with_reducible apply Fr.setFreeCtr); (focus decide))

theorem fwdLayer_fr {s : State} {rid : Nat} {buf : Nat} {r : Request} {m : Model} {mk : Nat} {s00 : State} (hmk : 3350908 ||| mk = mk) (hst : Fr mk s00 s) : Fr mk s00 (fwdLayer s rid buf r m) := by
  refine Fr.step (k := 3350908) ?_ hmk hst
  clear hmk hst
  unfold fwdLayer
  try dsimp only
  repeat' first | with_reducible assumption | with_reducible exact Fr.refl _ _ | intro _ | ((with_reducible apply fwdFails_fr); (focus decide)) | ((with_reducible apply clearAnswers_fr); (focus decide)) | ((with_reducible apply layerBarrier_fr); (focus decide)) | ((with_reducible apply modFwd_fr); (focus decide)) | ((with_reducible apply allPages_fr); (focus decide)) | ((with_reducible apply ask_fr); (focus decide)) | ((with_reducible apply AFr.val_eq); assumption) | split

theorem fwdStep_fr {s : State} {rid : Nat} {buf : Nat} {r : Request} {m : Model} {mk : Nat} {s00 : State} (hmk : 3350908 ||| mk = mk) (hst : Fr mk s00 s) : Fr mk s00 (fwdStep s rid buf r m) := by
  refine Fr.step (k := 3350908) ?_ hmk hst
  clear hmk hst
  unfold fwdStep
  try dsimp only
  repeat' first | with_reducible exact Fr.refl _ _ | ((with_reducible apply modFwd_fr); (focus decide)) | ((with_reducible apply fwdPage_fr); (focus decide)) | ((with_reducible apply clearAnswers_fr); (focus decide)) | ((with_reducible apply fwdAsk_fr); (focus decide)) | ((with_reducible apply fwdFails_fr); (focus decide)) | ((with_reducible apply fwdEntry_fr); (focus decide)) | ((with_reducible apply fwdDone_fr); (focus decide)) | ((with_reducible apply fwdLayer_fr); (focus decide)) | split

theorem forwardRequest_fr {buf : Nat} {s : State} {rid : Nat} {mk : Nat} {s00 : State} (hmk : 3350908 ||| mk = mk) (hst : Fr mk s00 s) : Fr mk s00 (forwardRequest buf s rid) := by
  refine Fr.step (k := 3350908) ?_ hmk hst
  clear hmk hst
  unfold forwardRequest
  try dsimp only
  repeat' first | with_reducible exact Fr.refl _ _ | ((with_reducible apply rdModel_fr); (focus decide)) | ((with_reducible apply fwdFails_fr); (focus decide)) | ((with_reducible apply fwdStep_fr); (focus decide)) | ((with_reducible apply AFr.val_eq); assumption) | split

theorem stepOver_fr {s : State} {rid : Nat} {mk : Nat} {s00 : State} (hmk : 131072 ||| mk = mk) (hst : Fr mk s00 s) : Fr mk s00 (stepOver s rid) := by
  refine Fr.step (k := 131072) ?_ hmk hst
  clear hmk hst
  unfold stepOver
  try dsimp only
  repeat' first | with_reducible exact Fr.refl _ _ | ((with_reducible apply countStep_fr); (focus decide)) | ((with_reducible apply putReq_fr); (focus decide)) | split

theorem stepForward_fr {s : State} {model : Nat} {m : ModelSt} {buf : Nat} {mk : Nat} {s00 : State} (hmk : 3350908 ||| mk = mk) (hst : Fr mk s00 s) : Fr mk s00 (stepForward s model m buf) := by
  refine Fr.step (k := 3350908) ?_ hmk hst
  clear hmk hst
  unfold stepForward
  try dsimp only
  repeat' first | with_reducible assumption | with_reducible exact Fr.refl _ _ | intro _ | ((with_reducible apply forwardRequest_fr); (focus decide)) | ((with_reducible apply stepOver_fr); (focus decide)) | (with_reducible apply Fr.ite) | (with_reducible apply Fr.foldl) | ((with_reducible apply Fr.setPur); (focus decide))

theorem decodeStep_fr {s : State} {model : Nat} {forward : Bool} {buf : Nat} {mk : Nat} {s00 : State} (hmk : 3350908 ||| mk = mk) (hst : Fr mk s00 s) : Fr mk s00 (decodeStep s model forward buf) := by
  refine Fr.step (k := 3350908) ?_ hmk hst
  clear hmk hst
  unfold decodeStep
  try dsimp only
  repeat' first | with_reducible assumption | with_reducible exact Fr.refl _ _ | intro _ | ((with_reducible apply stepForward_fr); (focus decide)) | ((with_reducible apply stepBegin_fr); (focus decide)) | ((with_reducible apply sampleGoOn_fr); (focus decide)) | (with_reducible apply Fr.ite) | (with_reducible apply Fr.foldl) | split

theorem refillAll_fr {s : State} {at' : Nat} {mk : Nat} {s00 : State} (hmk : 131072 ||| mk = mk) (hst : Fr mk s00 s) : Fr mk s00 (refillAll s at') := by
  refine Fr.step (k := 131072) ?_ hmk hst
  clear hmk hst
  unfold refillAll
  try dsimp only
  repeat' first | with_reducible exact Fr.refl _ _ | ((with_reducible apply Fr.setPur); (focus decide))

theorem budgetRefill_fr {s : State} {mk : Nat} {s00 : State} (hmk : 131072 ||| mk = mk) (hst : Fr mk s00 s) : Fr mk s00 (budgetRefill s) := by
  refine Fr.step (k := 131072) ?_ hmk hst
  clear hmk hst
  unfold budgetRefill
  try dsimp only
  repeat' first | with_reducible exact Fr.refl _ _ | intro _ | ((with_reducible apply refillAll_fr); (focus decide)) | (with_reducible apply Fr.ite)

theorem budgetPeriodWrite_fr {s : State} {a : Agent} {v : W64} {mk : Nat} {s00 : State} (hmk : 131072 ||| mk = mk) (hst : Fr mk s00 s) : Fr mk s00 (budgetPeriodWrite s a v) := by
  refine Fr.step (k := 131072) ?_ hmk hst
  clear hmk hst
  unfold budgetPeriodWrite
  try dsimp only
  repeat' first | with_reducible exact Fr.refl _ _ | intro _ | ((with_reducible apply refillAll_fr); (focus decide)) | (with_reducible apply Fr.ite) | ((with_reducible apply Fr.setPur); (focus decide))

theorem execPrefill_fr {rid : Nat} {buf : Nat} {s : State} {t00 : State} (heq0 : execPrefill rid buf s = .next t00) : Fr 3350908 s t00 := by
  cases heq0
  repeat' first | with_reducible exact Fr.refl _ _ | ((with_reducible apply prefillStage_fr); (focus decide))

theorem execPrefillLayer_fr {rid : Nat} {buf : Nat} {s : State} {t00 : State} (heq0 : execPrefillLayer rid buf s = .next t00) : Fr 3350908 s t00 := by
  cases heq0
  repeat' first | with_reducible exact Fr.refl _ _ | ((with_reducible apply prefillLayer_fr); (focus decide))

theorem execDecode_fr {rid : Nat} {s : State} {t00 : State} (heq0 : execDecode rid s = .next t00) : Fr 3342636 s t00 := by
  cases heq0
  repeat' first | with_reducible exact Fr.refl _ _ | intro _ | ((with_reducible apply decodeStage_fr); (focus decide))

theorem execDecodeStep_fr {model : Nat} {forward : Bool} {buf : Nat} {s : State} {t00 : State} (heq0 : execDecodeStep model forward buf s = .next t00) : Fr 3350908 s t00 := by
  cases heq0
  repeat' first | with_reducible exact Fr.refl _ _ | ((with_reducible apply decodeStep_fr); (focus decide))

theorem execBudgetRefill_fr {s : State} {t00 : State} (heq0 : execBudgetRefill s = .next t00) : Fr 131072 s t00 := by
  cases heq0
  repeat' first | with_reducible exact Fr.refl _ _ | ((with_reducible apply budgetRefill_fr); (focus decide))

theorem execBudgetPeriodWrite_fr {agent : Agent} {v : W64} {s : State} {t00 : State} (heq0 : execBudgetPeriodWrite agent v s = .next t00) : Fr 131072 s t00 := by
  cases heq0
  repeat' first | with_reducible assumption | with_reducible exact Fr.refl _ _ | intro _ | ((with_reducible apply budgetPeriodWrite_fr); (focus decide))

/-! ### Sequencer -/

theorem pourWork_fr {r : Request} {mk : Nat} {s00 : State} (hmk : 1048620 ||| mk = mk) : AFr mk s00 (pourWork r) := by
  refine AFr.step (k := 1048620) (fun s00 => ?_) hmk
  clear hmk
  unfold pourWork
  try dsimp only
  repeat' first | with_reducible exact AFr.pure _ | with_reducible exact AFr.stopIf _ _ | with_reducible exact AFr.get | intro _ | ((with_reducible apply rd_fr); (focus decide)) | ((with_reducible apply wr_fr); (focus decide)) | (with_reducible apply AFr.bind)

theorem pourStage_fr {s : State} {rid : Nat} {mk : Nat} {s00 : State} (hmk : 3342636 ||| mk = mk)
    (hst : Fr mk s00 s) : Fr mk s00 (pourStage s rid) := by
  refine stageRow_fr (sub_trans (by decide) hmk) (fun t r _ ht => ?_) hst
  refine Fr.ite (fun _ => ht) fun _ => ?_
  have hp : AFr mk s00 (pourWork r) := pourWork_fr (sub_trans (by decide) hmk)
  split
  · exact putReq_fr (sub_trans (by decide) hmk) (AFr.val_eq (by assumption) hp ht)
  · exact stageWorked_fr (sub_trans (by decide) hmk) (AFr.val_eq (by assumption) hp ht)

theorem tokenBytes_fr {r : Request} {t : Nat} {mk : Nat} {s00 : State} (hmk : 1048620 ||| mk = mk) : AFr mk s00 (tokenBytes r t) := by
  refine AFr.step (k := 1048620) (fun s00 => ?_) hmk
  clear hmk
  unfold tokenBytes
  try dsimp only
  repeat' first | with_reducible exact AFr.pure _ | intro _ | ((with_reducible apply rd_fr); (focus decide)) | (with_reducible apply AFr.bind) | (with_reducible apply AFr.ite)

theorem popEvent_fr {s : State} {rid : Nat} {mk : Nat} {s00 : State} (hmk : 131072 ||| mk = mk) (hst : Fr mk s00 s) : Fr mk s00 (popEvent s rid) := by
  refine Fr.step (k := 131072) ?_ hmk hst
  clear hmk hst
  unfold popEvent
  try dsimp only
  repeat' first | with_reducible exact Fr.refl _ _ | ((with_reducible apply modReq_fr); (focus decide))

theorem commitRec_fr {s : State} {rid : Nat} {r : Request} {x : RingSt} {q : RingRec} {mk : Nat} {s00 : State} (hmk : 131072 ||| mk = mk) (hst : Fr mk s00 s) : Fr mk s00 (commitRec s rid r x q) := by
  refine Fr.step (k := 131072) ?_ hmk hst
  clear hmk hst
  unfold commitRec
  try dsimp only
  repeat' first | with_reducible exact Fr.refl _ _ | ((with_reducible apply putReq_fr); (focus decide))

theorem commitEnd_fr {s : State} {rid : Nat} {r : Request} {x : RingSt} {reason : Nat} {st : Status} {cancel : Option Nat} {mk : Nat} {s00 : State} (hmk : 131072 ||| mk = mk) (hst : Fr mk s00 s) : Fr mk s00 (commitEnd s rid r x reason st cancel) := by
  refine Fr.step (k := 131072) ?_ hmk hst
  clear hmk hst
  unfold commitEnd
  try dsimp only
  repeat' first | with_reducible exact Fr.refl _ _ | ((with_reducible apply commitRec_fr); (focus decide))

theorem sequenceError_fr {s : State} {rid : Nat} {st : Status} {mk : Nat} {s00 : State} (hmk : 3342636 ||| mk = mk) (hst : Fr mk s00 s) : Fr mk s00 (sequenceError s rid st) := by
  refine Fr.step (k := 3342636) ?_ hmk hst
  clear hmk hst
  unfold sequenceError
  try dsimp only
  repeat' first | with_reducible exact Fr.refl _ _ | ((with_reducible apply finishReq_fr); (focus decide)) | ((with_reducible apply commitEnd_fr); (focus decide)) | split

theorem sequenceToken_fr {s : State} {rid : Nat} {r : Request} {x : RingSt} {t : Nat} {mk : Nat} {s00 : State} (hmk : 3375404 ||| mk = mk) (hst : Fr mk s00 s) : Fr mk s00 (sequenceToken s rid r x t) := by
  refine Fr.step (k := 3375404) ?_ hmk hst
  clear hmk hst
  unfold sequenceToken
  try dsimp only
  repeat' first | with_reducible exact Fr.refl _ _ | ((with_reducible apply tokenBytes_fr); (focus decide)) | ((with_reducible apply sequenceError_fr); (focus decide)) | ((with_reducible apply logEntry_fr); (focus decide)) | ((with_reducible apply takeBudget_fr); (focus decide)) | ((with_reducible apply modClass_fr); (focus decide)) | ((with_reducible apply recPut_fr); (focus decide)) | ((with_reducible apply commitRec_fr); (focus decide)) | ((with_reducible apply AFr.val_eq); assumption) | split | ((with_reducible apply Fr.setPor); (focus decide))

theorem sequencerToken_fr {s : State} {rid : Nat} {mk : Nat} {s00 : State} (hmk : 3375404 ||| mk = mk) (hst : Fr mk s00 s) : Fr mk s00 (sequencerToken s rid) := by
  refine Fr.step (k := 3375404) ?_ hmk hst
  clear hmk hst
  unfold sequencerToken
  try dsimp only
  repeat' first | with_reducible exact Fr.refl _ _ | ((with_reducible apply popEvent_fr); (focus decide)) | ((with_reducible apply sequenceToken_fr); (focus decide)) | split

theorem sequencerCancel_fr {s : State} {rid : Nat} {mk : Nat} {s00 : State} (hmk : 2293760 ||| mk = mk) (hst : Fr mk s00 s) : Fr mk s00 (sequencerCancel s rid) := by
  refine Fr.step (k := 2293760) ?_ hmk hst
  clear hmk hst
  unfold sequencerCancel
  try dsimp only
  repeat' first | with_reducible exact Fr.refl _ _ | ((with_reducible apply popEvent_fr); (focus decide)) | ((with_reducible apply endPlain_fr); (focus decide)) | ((with_reducible apply commitEnd_fr); (focus decide)) | split

theorem sequencerError_fr {s : State} {rid : Nat} {mk : Nat} {s00 : State} (hmk : 3342636 ||| mk = mk) (hst : Fr mk s00 s) : Fr mk s00 (sequencerError s rid) := by
  refine Fr.step (k := 3342636) ?_ hmk hst
  clear hmk hst
  unfold sequencerError
  try dsimp only
  repeat' first | with_reducible exact Fr.refl _ _ | ((with_reducible apply sequenceError_fr); (focus decide)) | ((with_reducible apply popEvent_fr); (focus decide)) | split

theorem writeRecord_fr {s : State} {r : Request} {x : RingSt} {q : RingRec} {mk : Nat} {s00 : State} (hmk : 1048620 ||| mk = mk) (hst : Fr mk s00 s) : Fr mk s00 (writeRecord s r x q).1 := by
  refine Fr.step (k := 1048620) ?_ hmk hst
  clear hmk hst
  unfold writeRecord
  try dsimp only
  repeat' first | with_reducible exact Fr.refl _ _ | intro _ | ((with_reducible apply wr_fr); (focus decide)) | ((with_reducible apply wrNat_fr); (focus decide)) | (with_reducible apply AFr.run) | (with_reducible apply Fr.ite)

theorem writeRecord_eq {s : State} {r : Request} {x : RingSt} {q : RingRec} {y0 : RingSt} {t00 : State} {mk : Nat} {s00 : State} (heq0 : writeRecord s r x q = (t00, y0)) (hmk : 1048620 ||| mk = mk)
    (hst : Fr mk s00 s) : Fr mk s00 t00 := by
  have h1 := @writeRecord_fr s r x q mk s00 hmk hst
  rw [heq0] at h1
  exact h1

theorem ringEnded_fr {s : State} {rid : Nat} {q : RingRec} {mk : Nat} {s00 : State} (hmk : 2293760 ||| mk = mk) (hst : Fr mk s00 s) : Fr mk s00 (ringEnded s rid q) := by
  refine Fr.step (k := 2293760) ?_ hmk hst
  clear hmk hst
  unfold ringEnded
  try dsimp only
  repeat' first | with_reducible exact Fr.refl _ _ | ((with_reducible apply endPlain_fr); (focus decide)) | ((with_reducible apply stageWorked_fr); (focus decide)) | split

theorem ringRecordWrite_fr {s : State} {rid : Nat} {mk : Nat} {s00 : State} (hmk : 3342380 ||| mk = mk) (hst : Fr mk s00 s) : Fr mk s00 (ringRecordWrite s rid) := by
  refine Fr.step (k := 3342380) ?_ hmk hst
  clear hmk hst
  unfold ringRecordWrite
  try dsimp only
  repeat' first | with_reducible exact Fr.refl _ _ | ((with_reducible apply putReq_fr); (focus decide)) | ((with_reducible apply writeRecord_fr); (focus decide)) | ((with_reducible apply ringEnded_fr); (focus decide)) | split

theorem execPour_fr {rid : Nat} {s : State} {t00 : State} (heq0 : execPour rid s = .next t00) : Fr 3342636 s t00 := by
  cases heq0
  repeat' first | with_reducible exact Fr.refl _ _ | ((with_reducible apply pourStage_fr); (focus decide))

theorem execSequencerToken_fr {rid : Nat} {s : State} {t00 : State} (heq0 : execSequencerToken rid s = .next t00) : Fr 3375404 s t00 := by
  cases heq0
  repeat' first | with_reducible exact Fr.refl _ _ | ((with_reducible apply sequencerToken_fr); (focus decide))

theorem execSequencerCancel_fr {rid : Nat} {s : State} {t00 : State} (heq0 : execSequencerCancel rid s = .next t00) : Fr 2293760 s t00 := by
  cases heq0
  repeat' first | with_reducible exact Fr.refl _ _ | ((with_reducible apply sequencerCancel_fr); (focus decide))

theorem execSequencerError_fr {rid : Nat} {s : State} {t00 : State} (heq0 : execSequencerError rid s = .next t00) : Fr 3342636 s t00 := by
  cases heq0
  repeat' first | with_reducible exact Fr.refl _ _ | ((with_reducible apply sequencerError_fr); (focus decide))

theorem execRingRecordWrite_fr {rid : Nat} {s : State} {t00 : State} (heq0 : execRingRecordWrite rid s = .next t00) : Fr 3342380 s t00 := by
  cases heq0
  repeat' first | with_reducible exact Fr.refl _ _ | ((with_reducible apply ringRecordWrite_fr); (focus decide))

/-! ### PclWriter -/

theorem putSlot_fr {s : State} {k : Nat} {w : Nat} {x : WriterSlot} {mk : Nat} {s00 : State} (hmk : 4096 ||| mk = mk) (hst : Fr mk s00 s) : Fr mk s00 (putSlot s k w x) := by
  refine Fr.step (k := 4096) ?_ hmk hst
  clear hmk hst
  unfold putSlot
  try dsimp only
  repeat' first | with_reducible exact Fr.refl _ _ | ((with_reducible apply modSlice_fr); (focus decide))

theorem dGet_fr {w : Who} {x : Shard} {off : Nat} {n : Nat} {mk : Nat} {s00 : State} (hmk : 1048620 ||| mk = mk) : AFr mk s00 (dGet w x off n) := by
  refine AFr.step (k := 1048620) (fun s00 => ?_) hmk
  clear hmk
  unfold dGet
  try dsimp only
  repeat' first | ((with_reducible apply rdNat_fr); (focus decide))

theorem dPut_fr {w : Who} {x : Shard} {off : Nat} {n : Nat} {v : Nat} {mk : Nat} {s00 : State} (hmk : 1048620 ||| mk = mk) : AFr mk s00 (dPut w x off n v) := by
  refine AFr.step (k := 1048620) (fun s00 => ?_) hmk
  clear hmk
  unfold dPut
  try dsimp only
  repeat' first | ((with_reducible apply wrNat_fr); (focus decide))

theorem mayWrite_fr {w : Who} {a : Nat} {n : Nat} {mk : Nat} {s00 : State} (hmk : 0 ||| mk = mk) : AFr mk s00 (mayWrite w a n) := by
  refine AFr.step (k := 0) (fun s00 => ?_) hmk
  clear hmk
  unfold mayWrite
  try dsimp only
  repeat' first | with_reducible exact AFr.stopIf _ _ | intro _ | (with_reducible apply AFr.get_bind)

theorem descReady_fr {w : Who} {x : Shard} {mk : Nat} {s00 : State} (hmk : 1048620 ||| mk = mk) : AFr mk s00 (descReady w x) := by
  refine AFr.step (k := 1048620) (fun s00 => ?_) hmk
  clear hmk
  unfold descReady
  try dsimp only
  repeat' first | intro _ | ((with_reducible apply rd_fr); (focus decide)) | ((with_reducible apply mayWrite_fr); (focus decide)) | (with_reducible apply AFr.bind)

theorem dChain_fr {w : Who} {x : Shard} {first : Nat} {last : Nat} {n : Nat} {mk : Nat} {s00 : State} (hmk : 1048620 ||| mk = mk) : AFr mk s00 (dChain w x first last n) := by
  refine AFr.step (k := 1048620) (fun s00 => ?_) hmk
  clear hmk
  unfold dChain
  try dsimp only
  repeat' first | intro _ | ((with_reducible apply dPut_fr); (focus decide)) | (with_reducible apply AFr.bind)

theorem giveBlock_fr {w : Who} {x : Shard} {a : Nat} {mk : Nat} {s00 : State} (hmk : 1048620 ||| mk = mk) : AFr mk s00 (giveBlock w x a) := by
  refine AFr.step (k := 1048620) (fun s00 => ?_) hmk
  clear hmk
  unfold giveBlock
  try dsimp only
  repeat' first | intro _ | ((with_reducible apply wrHdr_fr); (focus decide)) | ((with_reducible apply dGet_fr); (focus decide)) | ((with_reducible apply dPut_fr); (focus decide)) | (with_reducible apply AFr.bind)

theorem walkChain_fr {w : Who} {x0 : Nat} {x1 : Nat} {mk : Nat} {s00 : State} (hmk : 1048620 ||| mk = mk) : AFr mk s00 (walkChain w x0 x1) := by
  refine AFr.step (k := 1048620) (fun s00 => ?_) hmk
  clear hmk
  induction x0 generalizing x1 with
  | zero =>
    unfold walkChain
    try dsimp only
    repeat' first | with_reducible exact AFr.pure _
  | succ y1 ih =>
    unfold walkChain
    try dsimp only
    repeat' first | with_reducible exact AFr.pure _ | (with_reducible apply ih) | intro _ | ((with_reducible apply rdHdr_fr); (focus decide)) | (with_reducible apply AFr.bind) | (with_reducible apply AFr.ite)

theorem heldChain_fr {w : Who} {x : Shard} {mk : Nat} {s00 : State} (hmk : 1048620 ||| mk = mk) : AFr mk s00 (heldChain w x) := by
  refine AFr.step (k := 1048620) (fun s00 => ?_) hmk
  clear hmk
  unfold heldChain
  try dsimp only
  repeat' first | intro _ | ((with_reducible apply walkChain_fr); (focus decide)) | ((with_reducible apply dGet_fr); (focus decide)) | (with_reducible apply AFr.bind)

theorem giveChain_fr {w : Who} {x : Shard} {chain : List Nat} {mk : Nat} {s00 : State} (hmk : 1048620 ||| mk = mk) : AFr mk s00 (giveChain w x chain) := by
  refine AFr.step (k := 1048620) (fun s00 => ?_) hmk
  clear hmk
  unfold giveChain
  try dsimp only
  repeat' first | intro _ | ((with_reducible apply descReady_fr); (focus decide)) | ((with_reducible apply mayWrite_fr); (focus decide)) | ((with_reducible apply giveBlock_fr); (focus decide)) | (with_reducible apply AFr.bind) | (with_reducible apply AFr.forM)

theorem takeBlock_fr {w : Who} {x : Shard} {l : Nat} {mk : Nat} {s00 : State} (hmk : 1048620 ||| mk = mk) : AFr mk s00 (takeBlock w x l) := by
  refine AFr.step (k := 1048620) (fun s00 => ?_) hmk
  clear hmk
  unfold takeBlock
  try dsimp only
  repeat' first | with_reducible exact AFr.pure _ | with_reducible exact AFr.stopIf _ _ | intro _ | ((with_reducible apply dGet_fr); (focus decide)) | ((with_reducible apply rdHdr_fr); (focus decide)) | ((with_reducible apply mayWrite_fr); (focus decide)) | ((with_reducible apply dPut_fr); (focus decide)) | ((with_reducible apply wrHdr_fr); (focus decide)) | (with_reducible apply AFr.bind)

theorem undoBatch_fr {w : Who} {x : Shard} {mk : Nat} {s00 : State} (hmk : 1048620 ||| mk = mk) : AFr mk s00 (undoBatch w x) := by
  refine AFr.step (k := 1048620) (fun s00 => ?_) hmk
  clear hmk
  unfold undoBatch
  try dsimp only
  repeat' first | with_reducible exact AFr.pure _ | intro _ | ((with_reducible apply dGet_fr); (focus decide)) | ((with_reducible apply rdNat_fr); (focus decide)) | ((with_reducible apply rdMeta_fr); (focus decide)) | ((with_reducible apply wrMeta_fr); (focus decide)) | ((with_reducible apply rdHdr_fr); (focus decide)) | ((with_reducible apply wrHdr_fr); (focus decide)) | ((with_reducible apply dPut_fr); (focus decide)) | (with_reducible apply AFr.bind) | (with_reducible apply AFr.ite) | (with_reducible apply AFr.forM)

theorem recoverShard_fr {w : Who} {x : Shard} {mk : Nat} {s00 : State} (hmk : 1048620 ||| mk = mk) : AFr mk s00 (recoverShard w x) := by
  refine AFr.step (k := 1048620) (fun s00 => ?_) hmk
  clear hmk
  unfold recoverShard
  try dsimp only
  repeat' first | with_reducible exact AFr.pure _ | intro _ | ((with_reducible apply undoBatch_fr); (focus decide)) | ((with_reducible apply dGet_fr); (focus decide)) | ((with_reducible apply giveChain_fr); (focus decide)) | ((with_reducible apply heldChain_fr); (focus decide)) | ((with_reducible apply dChain_fr); (focus decide)) | ((with_reducible apply dPut_fr); (focus decide)) | (with_reducible apply AFr.bind) | (with_reducible apply AFr.ite)

theorem attachWork_fr {k : Nat} {c : Nat} {b : Bytes} {mk : Nat} {s00 : State} (hmk : 1052716 ||| mk = mk) : AFr mk s00 (attachWork k c b) := by
  refine AFr.step (k := 1052716) (fun s00 => ?_) hmk
  clear hmk
  unfold attachWork
  try dsimp only
  repeat' first | with_reducible assumption | with_reducible exact AFr.pure _ | with_reducible exact AFr.throw _ | with_reducible exact AFr.stopIf _ _ | intro _ | ((with_reducible apply rd_fr); (focus decide)) | ((with_reducible apply descReady_fr); (focus decide)) | ((with_reducible apply recoverShard_fr); (focus decide)) | ((with_reducible apply stampPcl_fr); (focus decide)) | (with_reducible apply AFr.get_bind) | (with_reducible apply AFr.bind) | (with_reducible apply AFr.set) | split

-- HO
theorem shardHead_fr {s : State} {k : Nat} {c : Nat} {op : Nat} {f : State → QCmd → State} {mk : Nat} {s00 : State} (hmk : 1253756 ||| mk = mk) (hf : ∀ t x1, Fr mk s00 t → Fr mk s00 (f t x1)) (hst : Fr mk s00 s) : Fr mk s00 (shardHead s k c op f) := by
  unfold shardHead
  try dsimp only
  repeat' first | with_reducible assumption | intro _ | ((with_reducible apply headRow_fr); (focus first | decide | exact sub_trans (by decide) hmk)) | ((with_reducible apply takeTurn_fr); assumption; (focus first | decide | exact sub_trans (by decide) hmk)) | (with_reducible apply hf) | split

theorem attachDone_fr {s : State} {k : Nat} {i : Nat} {x : WriterSlot} {q : QCmd} {mk : Nat} {s00 : State} (hmk : 1257980 ||| mk = mk) (hst : Fr mk s00 s) : Fr mk s00 (attachDone s k i x q) := by
  refine Fr.step (k := 1257980) ?_ hmk hst
  clear hmk hst
  unfold attachDone
  try dsimp only
  repeat' first | with_reducible exact Fr.refl _ _ | ((with_reducible apply putSlot_fr); (focus decide)) | ((with_reducible apply modSq_fr); (focus decide)) | ((with_reducible apply completeCmd_fr); (focus decide))

theorem pclAttach_fr {s : State} {k : Nat} {c : Nat} {mk : Nat} {s00 : State} (hmk : 1257980 ||| mk = mk) (hst : Fr mk s00 s) : Fr mk s00 (pclAttach s k c) := by
  refine Fr.step (k := 1257980) ?_ hmk hst
  clear hmk hst
  unfold pclAttach
  try dsimp only
  repeat' first | with_reducible assumption | with_reducible exact Fr.refl _ _ | intro _ | ((with_reducible apply shardHead_fr); (focus decide)) | ((with_reducible apply attachWork_fr); (focus decide)) | ((with_reducible apply completeHead_fr); (focus decide)) | ((with_reducible apply popQ_fr); (focus decide)) | ((with_reducible apply attachDone_fr); (focus decide)) | ((with_reducible apply putSlot_fr); (focus decide)) | ((with_reducible apply AFr.val_eq); assumption) | split

theorem endAttaches_fr {s : State} {k : Nat} {test : WriterSlot → Bool} {st : Status} {mk : Nat} {s00 : State} (hmk : 1257852 ||| mk = mk) (hst : Fr mk s00 s) : Fr mk s00 (endAttaches s k test st) := by
  refine Fr.step (k := 1257852) ?_ hmk hst
  clear hmk hst
  unfold endAttaches
  try dsimp only
  repeat' first | with_reducible assumption | with_reducible exact Fr.refl _ _ | intro _ | ((with_reducible apply modSlice_fr); (focus decide)) | ((with_reducible apply completeCmd_fr); (focus decide)) | (with_reducible apply Fr.foldl) | split

theorem namedSlot_fr {k : Nat} {c : Nat} {b : Bytes} {mk : Nat} {s00 : State} (hmk : 1048620 ||| mk = mk) : AFr mk s00 (namedSlot k c b) := by
  refine AFr.step (k := 1048620) (fun s00 => ?_) hmk
  clear hmk
  unfold namedSlot
  try dsimp only
  repeat' first | with_reducible exact AFr.pure _ | with_reducible exact AFr.throw _ | with_reducible exact AFr.stopIf _ _ | with_reducible exact AFr.get | intro _ | ((with_reducible apply rd_fr); (focus decide)) | (with_reducible apply AFr.bind) | split

theorem abortQueries_fr {s : State} {test : Query → Bool} {mk : Nat} {s00 : State} (hmk : 4096 ||| mk = mk) (hst : Fr mk s00 s) : Fr mk s00 (abortQueries s test) := by
  refine Fr.step (k := 4096) ?_ hmk hst
  clear hmk hst
  unfold abortQueries
  try dsimp only
  repeat' first | with_reducible exact Fr.refl _ _ | ((with_reducible apply Fr.setPcl); (focus decide))

theorem pclDetach_fr {s : State} {k : Nat} {c : Nat} {mk : Nat} {s00 : State} (hmk : 1257852 ||| mk = mk) (hst : Fr mk s00 s) : Fr mk s00 (pclDetach s k c) := by
  refine Fr.step (k := 1257852) ?_ hmk hst
  clear hmk hst
  unfold pclDetach
  try dsimp only
  repeat' first | with_reducible assumption | with_reducible exact Fr.refl _ _ | intro _ | ((with_reducible apply shardHead_fr); (focus decide)) | ((with_reducible apply namedSlot_fr); (focus decide)) | ((with_reducible apply completeHead_fr); (focus decide)) | ((with_reducible apply putSlot_fr); (focus decide)) | ((with_reducible apply popQ_fr); (focus decide)) | ((with_reducible apply markQueued_fr); (focus decide)) | ((with_reducible apply abortQueries_fr); (focus decide)) | ((with_reducible apply AFr.val_eq); assumption) | split

theorem detachFinish_fr {s : State} {k : Nat} {i : Nat} {mk : Nat} {s00 : State} (hmk : 1257852 ||| mk = mk) (hst : Fr mk s00 s) : Fr mk s00 (detachFinish s k i) := by
  refine Fr.step (k := 1257852) ?_ hmk hst
  clear hmk hst
  unfold detachFinish
  try dsimp only
  repeat' first | with_reducible assumption | with_reducible exact Fr.refl _ _ | intro _ | ((with_reducible apply modSlice_fr); (focus decide)) | ((with_reducible apply completeCmd_fr); (focus decide)) | (with_reducible apply Fr.foldl) | split

theorem compactWork_fr {k : Nat} {c : Nat} {b : Bytes} {mk : Nat} {s00 : State} (hmk : 1048620 ||| mk = mk) : AFr mk s00 (compactWork k c b) := by
  refine AFr.step (k := 1048620) (fun s00 => ?_) hmk
  clear hmk
  unfold compactWork
  try dsimp only
  repeat' first | with_reducible exact AFr.stopIf _ _ | with_reducible exact AFr.get | intro _ | ((with_reducible apply namedSlot_fr); (focus decide)) | ((with_reducible apply dPut_fr); (focus decide)) | (with_reducible apply AFr.bind)

theorem compactHead_fr {s : State} {k : Nat} {c : Nat} {mk : Nat} {s00 : State} (hmk : 1253756 ||| mk = mk) (hst : Fr mk s00 s) : Fr mk s00 (compactHead s k c) := by
  refine Fr.step (k := 1253756) ?_ hmk hst
  clear hmk hst
  unfold compactHead
  try dsimp only
  repeat' first | with_reducible assumption | with_reducible exact Fr.refl _ _ | intro _ | ((with_reducible apply shardHead_fr); (focus decide)) | ((with_reducible apply compactWork_fr); (focus decide)) | ((with_reducible apply completeHead_fr); (focus decide)) | (with_reducible apply AFr.run)

theorem planHdr_fr {w : Who} {x : Plan} {a : Nat} {mk : Nat} {s00 : State} (hmk : 1048620 ||| mk = mk) : AFr mk s00 (planHdr w x a) := by
  refine AFr.step (k := 1048620) (fun s00 => ?_) hmk
  clear hmk
  unfold planHdr
  try dsimp only
  repeat' first | with_reducible exact AFr.pure _ | ((with_reducible apply rdHdr_fr); (focus decide)) | split

theorem planHead_fr {w : Who} {sh : Shard} {x : Plan} {l : Nat} {mk : Nat} {s00 : State} (hmk : 1048620 ||| mk = mk) : AFr mk s00 (planHead w sh x l) := by
  refine AFr.step (k := 1048620) (fun s00 => ?_) hmk
  clear hmk
  unfold planHead
  try dsimp only
  repeat' first | with_reducible exact AFr.pure _ | ((with_reducible apply rdHead_fr); (focus decide)) | split

theorem planTail_fr {w : Who} {sh : Shard} {x : Plan} {l : Nat} {h : HeadEntry} {mk : Nat} {s00 : State} (hmk : 1048620 ||| mk = mk) : AFr mk s00 (planTail w sh x l h) := by
  refine AFr.step (k := 1048620) (fun s00 => ?_) hmk
  clear hmk
  unfold planTail
  try dsimp only
  repeat' first | with_reducible exact AFr.pure _ | with_reducible exact AFr.stopIf _ _ | intro _ | ((with_reducible apply planHdr_fr); (focus decide)) | ((with_reducible apply rdHdr_fr); (focus decide)) | (with_reducible apply AFr.bind) | (with_reducible apply AFr.ite)

theorem planInsert_fr {w : Who} {sh : Shard} {x : Plan} {rc : Bytes × Bytes} {mk : Nat} {s00 : State} (hmk : 1048620 ||| mk = mk) : AFr mk s00 (planInsert w sh x rc) := by
  refine AFr.step (k := 1048620) (fun s00 => ?_) hmk
  clear hmk
  unfold planInsert
  try dsimp only
  repeat' first | with_reducible exact AFr.pure _ | intro _ | ((with_reducible apply planHead_fr); (focus decide)) | ((with_reducible apply planTail_fr); (focus decide)) | ((with_reducible apply planHdr_fr); (focus decide)) | (with_reducible apply AFr.bind)

theorem liveIn_fr {w : Who} {sh : Shard} {id : Nat} {a : Nat} {h : BlockHdr} {mk : Nat} {s00 : State} (hmk : 1048620 ||| mk = mk) : AFr mk s00 (liveIn w sh id a h) := by
  refine AFr.step (k := 1048620) (fun s00 => ?_) hmk
  clear hmk
  unfold liveIn
  try dsimp only
  repeat' first | with_reducible exact AFr.pure _ | intro _ | ((with_reducible apply rdMeta_fr); (focus decide)) | (with_reducible apply AFr.bind) | (with_reducible apply AFr.foldlM)

theorem planDelete_fr {w : Who} {sh : Shard} {x : Plan} {rec' : Bytes} {mk : Nat} {s00 : State} (hmk : 1048620 ||| mk = mk) : AFr mk s00 (planDelete w sh x rec') := by
  refine AFr.step (k := 1048620) (fun s00 => ?_) hmk
  clear hmk
  unfold planDelete
  try dsimp only
  repeat' first | with_reducible exact AFr.pure _ | intro _ | ((with_reducible apply rdHead_fr); (focus decide)) | ((with_reducible apply walkChain_fr); (focus decide)) | ((with_reducible apply dGet_fr); (focus decide)) | ((with_reducible apply heldChain_fr); (focus decide)) | ((with_reducible apply planHdr_fr); (focus decide)) | ((with_reducible apply liveIn_fr); (focus decide)) | (with_reducible apply AFr.bind) | (with_reducible apply AFr.ite) | (with_reducible apply AFr.foldlM)

theorem planPacket_fr {w : Who} {sh : Shard} {words : List Bytes} {mk : Nat} {s00 : State} (hmk : 1048620 ||| mk = mk) : AFr mk s00 (planPacket w sh words) := by
  refine AFr.step (k := 1048620) (fun s00 => ?_) hmk
  clear hmk
  unfold planPacket
  try dsimp only
  repeat' first | with_reducible exact AFr.pure _ | with_reducible exact AFr.stopIf _ _ | intro _ | ((with_reducible apply dGet_fr); (focus decide)) | ((with_reducible apply planInsert_fr); (focus decide)) | ((with_reducible apply planDelete_fr); (focus decide)) | ((with_reducible apply descReady_fr); (focus decide)) | ((with_reducible apply mayWrite_fr); (focus decide)) | (with_reducible apply AFr.bind) | (with_reducible apply AFr.ite) | (with_reducible apply AFr.foldlM) | (with_reducible apply AFr.forM)

theorem writeBatch_fr {w : Who} {sh : Shard} {x : Plan} {e : Nat} {mk : Nat} {s00 : State} (hmk : 1048620 ||| mk = mk) : AFr mk s00 (writeBatch w sh x e) := by
  refine AFr.step (k := 1048620) (fun s00 => ?_) hmk
  clear hmk
  unfold writeBatch
  try dsimp only
  repeat' first | with_reducible exact AFr.pure _ | intro _ | ((with_reducible apply wrNat_fr); (focus decide)) | ((with_reducible apply dPut_fr); (focus decide)) | ((with_reducible apply wrHdr_fr); (focus decide)) | ((with_reducible apply wrMeta_fr); (focus decide)) | ((with_reducible apply wr_fr); (focus decide)) | ((with_reducible apply wrHead_fr); (focus decide)) | ((with_reducible apply dGet_fr); (focus decide)) | (with_reducible apply AFr.bind) | (with_reducible apply AFr.ite) | (with_reducible apply AFr.forM)

theorem publishBatch_fr {w : Who} {sh : Shard} {x : Plan} {e : Nat} {mk : Nat} {s00 : State} (hmk : 1048620 ||| mk = mk) : AFr mk s00 (publishBatch w sh x e) := by
  refine AFr.step (k := 1048620) (fun s00 => ?_) hmk
  clear hmk
  unfold publishBatch
  try dsimp only
  repeat' first | with_reducible exact AFr.pure _ | intro _ | ((with_reducible apply wrMeta_fr); (focus decide)) | ((with_reducible apply wrHdr_fr); (focus decide)) | ((with_reducible apply dPut_fr); (focus decide)) | ((with_reducible apply dGet_fr); (focus decide)) | (with_reducible apply AFr.bind) | (with_reducible apply AFr.ite) | (with_reducible apply AFr.forM)

theorem releasePacket_fr {s : State} {q : Nat} {mk : Nat} {s00 : State} (hmk : 384 ||| mk = mk) (hst : Fr mk s00 s) : Fr mk s00 (releasePacket s q) := by
  refine Fr.step (k := 384) ?_ hmk hst
  clear hmk hst
  unfold releasePacket
  try dsimp only
  repeat' first | with_reducible exact Fr.refl _ _ | ((with_reducible apply releaseQ_fr); (focus decide)) | ((with_reducible apply modSq_fr); (focus decide))

theorem rejectPacket_fr {s : State} {k : Nat} {x : WriterSlot} {n : Nat} {mk : Nat} {s00 : State} (hmk : 1053060 ||| mk = mk) (hst : Fr mk s00 s) : Fr mk s00 (rejectPacket s k x n) := by
  refine Fr.step (k := 1053060) ?_ hmk hst
  clear hmk hst
  unfold rejectPacket
  try dsimp only
  repeat' first | with_reducible exact Fr.refl _ _ | ((with_reducible apply logEntry_fr); (focus decide)) | ((with_reducible apply releasePacket_fr); (focus decide)) | ((with_reducible apply modSlice_fr); (focus decide))

theorem packetWords_fr {w : Who} {x : SlipQ} {k : Nat} {mk : Nat} {s00 : State} (hmk : 1048620 ||| mk = mk) : AFr mk s00 (packetWords w x k) := by
  refine AFr.step (k := 1048620) (fun s00 => ?_) hmk
  clear hmk
  unfold packetWords
  try dsimp only
  repeat' first | intro _ | ((with_reducible apply rd_fr); (focus decide)) | (with_reducible apply AFr.bind) | (with_reducible apply AFr.mapM)

theorem applyPacket_fr {w : Who} {sh : Shard} {q : SlipQ} {k : Nat} {s : State} {mk : Nat} {s00 : State} (hmk : 1048620 ||| mk = mk) (hst : Fr mk s00 s) : Fr mk s00 (applyPacket w sh q k s).2 := by
  refine Fr.step (k := 1048620) ?_ hmk hst
  clear hmk hst
  unfold applyPacket
  try dsimp only
  repeat' first | with_reducible exact Fr.refl _ _ | intro _ | ((with_reducible apply planPacket_fr); (focus decide)) | ((with_reducible apply packetWords_fr); (focus decide)) | ((with_reducible apply dGet_fr); (focus decide)) | ((with_reducible apply writeBatch_fr); (focus decide)) | ((with_reducible apply publishBatch_fr); (focus decide)) | ((with_reducible apply undoBatch_fr); (focus decide)) | (with_reducible apply AFr.run) | ((with_reducible apply AFr.run_eq); assumption) | ((with_reducible apply AFr.val_eq); assumption) | (with_reducible apply AFr.bind) | split

theorem applyPacket_eq {w : Who} {sh : Shard} {q : SlipQ} {k : Nat} {s : State} {y0 : Bool} {t00 : State} {mk : Nat} {s00 : State} (heq0 : applyPacket w sh q k s = (y0, t00)) (hmk : 1048620 ||| mk = mk)
    (hst : Fr mk s00 s) : Fr mk s00 t00 := by
  have h1 := @applyPacket_fr w sh q k s mk s00 hmk hst
  rw [heq0] at h1
  exact h1

theorem updatePacketApply_fr {s : State} {k : Nat} {i : Nat} {mk : Nat} {s00 : State} (hmk : 1053116 ||| mk = mk) (hst : Fr mk s00 s) : Fr mk s00 (updatePacketApply s k i) := by
  refine Fr.step (k := 1053116) ?_ hmk hst
  clear hmk hst
  unfold updatePacketApply
  try dsimp only
  repeat' first | with_reducible assumption | with_reducible exact Fr.refl _ _ | intro _ | ((with_reducible apply takeTurn_fr); assumption; (focus decide)) | ((with_reducible apply modSq_fr); (focus decide)) | ((with_reducible apply putSlot_fr); (focus decide)) | ((with_reducible apply applyPacket_fr); (focus decide)) | ((with_reducible apply applyPacket_eq); assumption; (focus decide)) | ((with_reducible apply releasePacket_fr); (focus decide)) | ((with_reducible apply rejectPacket_fr); (focus decide)) | (with_reducible apply Fr.ite) | split

theorem nextList_fr {w : Who} {x : Shard} {mk : Nat} {s00 : State} (hmk : 1048620 ||| mk = mk) : AFr mk s00 (nextList w x) := by
  refine AFr.step (k := 1048620) (fun s00 => ?_) hmk
  clear hmk
  unfold nextList
  try dsimp only
  repeat' first | intro _ | ((with_reducible apply dPut_fr); (focus decide)) | ((with_reducible apply dChain_fr); (focus decide)) | ((with_reducible apply dGet_fr); (focus decide)) | (with_reducible apply AFr.bind)

theorem copyTarget_fr {w : Who} {x : Shard} {t : CmpStep} {mk : Nat} {s00 : State} (hmk : 1048620 ||| mk = mk) : AFr mk s00 (copyTarget w x t) := by
  refine AFr.step (k := 1048620) (fun s00 => ?_) hmk
  clear hmk
  unfold copyTarget
  try dsimp only
  repeat' first | with_reducible exact AFr.pure _ | intro _ | ((with_reducible apply rdHdr_fr); (focus decide)) | ((with_reducible apply mayWrite_fr); (focus decide)) | ((with_reducible apply takeBlock_fr); (focus decide)) | ((with_reducible apply wrHdr_fr); (focus decide)) | ((with_reducible apply dChain_fr); (focus decide)) | (with_reducible apply AFr.bind) | (with_reducible apply AFr.ite)

theorem copySlot_fr {w : Who} {x : Shard} {a : Nat} {t : CmpStep} {i : Nat} {mk : Nat} {s00 : State} (hmk : 1048620 ||| mk = mk) : AFr mk s00 (copySlot w x a t i) := by
  refine AFr.step (k := 1048620) (fun s00 => ?_) hmk
  clear hmk
  unfold copySlot
  try dsimp only
  repeat' first | with_reducible exact AFr.pure _ | intro _ | ((with_reducible apply rdMeta_fr); (focus decide)) | ((with_reducible apply rd_fr); (focus decide)) | ((with_reducible apply copyTarget_fr); (focus decide)) | ((with_reducible apply wrMeta_fr); (focus decide)) | ((with_reducible apply wr_fr); (focus decide)) | ((with_reducible apply wrHdr_fr); (focus decide)) | (with_reducible apply AFr.bind) | (with_reducible apply AFr.ite)

theorem copyBlocks_fr {w : Who} {k : Nat} {i : Nat} {x : Shard} {x0 : Nat} {x1 : CmpStep} {mk : Nat} {s00 : State} (hmk : 1052716 ||| mk = mk) : AFr mk s00 (copyBlocks w k i x x0 x1) := by
  refine AFr.step (k := 1052716) (fun s00 => ?_) hmk
  clear hmk
  induction x0 generalizing x1 with
  | zero =>
    unfold copyBlocks
    try dsimp only
    repeat' first | with_reducible exact AFr.pure _
  | succ y1 ih =>
    unfold copyBlocks
    try dsimp only
    repeat' first | with_reducible assumption | with_reducible exact AFr.pure _ | (with_reducible apply ih) | intro _ | ((with_reducible apply rdHdr_fr); (focus decide)) | ((with_reducible apply copySlot_fr); (focus decide)) | ((with_reducible apply putSlot_fr); (focus decide)) | (with_reducible apply AFr.bind) | (with_reducible apply AFr.actMod) | (with_reducible apply AFr.foldlM) | split

theorem flipStep_fr {w : Who} {x : Shard} {t : CmpStep} {mk : Nat} {s00 : State} (hmk : 1048620 ||| mk = mk) : AFr mk s00 (flipStep w x t) := by
  refine AFr.step (k := 1048620) (fun s00 => ?_) hmk
  clear hmk
  unfold flipStep
  try dsimp only
  repeat' first | with_reducible exact AFr.pure _ | intro _ | ((with_reducible apply rdHead_fr); (focus decide)) | ((with_reducible apply walkChain_fr); (focus decide)) | ((with_reducible apply rdHdr_fr); (focus decide)) | ((with_reducible apply mayWrite_fr); (focus decide)) | ((with_reducible apply wrHdr_fr); (focus decide)) | ((with_reducible apply wrHead_fr); (focus decide)) | ((with_reducible apply dPut_fr); (focus decide)) | ((with_reducible apply dGet_fr); (focus decide)) | ((with_reducible apply dChain_fr); (focus decide)) | (with_reducible apply AFr.bind) | (with_reducible apply AFr.ite) | (with_reducible apply AFr.mapM)

theorem abandonStep_fr {s : State} {k : Nat} {i : Nat} {x : WriterSlot} {st : Status} {mk : Nat} {s00 : State} (hmk : 1052716 ||| mk = mk) (hst : Fr mk s00 s) : Fr mk s00 (abandonStep s k i x st) := by
  refine Fr.step (k := 1052716) ?_ hmk hst
  clear hmk hst
  unfold abandonStep
  try dsimp only
  repeat' first | with_reducible exact Fr.refl _ _ | intro _ | ((with_reducible apply giveChain_fr); (focus decide)) | ((with_reducible apply nextList_fr); (focus decide)) | ((with_reducible apply putSlot_fr); (focus decide)) | ((with_reducible apply logEntry_fr); (focus decide)) | ((with_reducible apply AFr.run_eq); assumption) | (with_reducible apply AFr.bind) | split

theorem startStep_fr {w : Who} {x : Shard} {step : Option CmpStep} {mk : Nat} {s00 : State} (hmk : 1048620 ||| mk = mk) : AFr mk s00 (startStep w x step) := by
  refine AFr.step (k := 1048620) (fun s00 => ?_) hmk
  clear hmk
  unfold startStep
  try dsimp only
  repeat' first | with_reducible exact AFr.pure _ | with_reducible exact AFr.get | intro _ | ((with_reducible apply dGet_fr); (focus decide)) | ((with_reducible apply rdHead_fr); (focus decide)) | ((with_reducible apply nextList_fr); (focus decide)) | ((with_reducible apply dPut_fr); (focus decide)) | ((with_reducible apply dChain_fr); (focus decide)) | (with_reducible apply AFr.bind) | split

theorem pieceWork_fr {k : Nat} {i : Nat} {x : WriterSlot} {mk : Nat} {s00 : State} (hmk : 1052716 ||| mk = mk) : AFr mk s00 (pieceWork k i x) := by
  refine AFr.step (k := 1052716) (fun s00 => ?_) hmk
  clear hmk
  unfold pieceWork
  try dsimp only
  repeat' first | with_reducible exact AFr.pure _ | intro _ | ((with_reducible apply descReady_fr); (focus decide)) | ((with_reducible apply startStep_fr); (focus decide)) | ((with_reducible apply copyBlocks_fr); (focus decide)) | ((with_reducible apply flipStep_fr); (focus decide)) | (with_reducible apply AFr.bind) | split

theorem compactionPiece_fr {s : State} {k : Nat} {i : Nat} {mk : Nat} {s00 : State} (hmk : 1052732 ||| mk = mk) (hst : Fr mk s00 s) : Fr mk s00 (compactionPiece s k i) := by
  refine Fr.step (k := 1052732) ?_ hmk hst
  clear hmk hst
  unfold compactionPiece
  try dsimp only
  repeat' first | with_reducible exact Fr.refl _ _ | ((with_reducible apply takeTurn_fr); assumption; (focus decide)) | ((with_reducible apply pieceWork_fr); (focus decide)) | ((with_reducible apply abandonStep_fr); (focus decide)) | ((with_reducible apply stampPcl_fr); (focus decide)) | ((with_reducible apply putSlot_fr); (focus decide)) | ((with_reducible apply modSlice_fr); (focus decide)) | ((with_reducible apply AFr.val_eq); assumption) | split

theorem compactionRetire_fr {s : State} {k : Nat} {i : Nat} {mk : Nat} {s00 : State} (hmk : 1257980 ||| mk = mk) (hst : Fr mk s00 s) : Fr mk s00 (compactionRetire s k i) := by
  refine Fr.step (k := 1257980) ?_ hmk hst
  clear hmk hst
  unfold compactionRetire
  try dsimp only
  repeat' first | with_reducible exact Fr.refl _ _ | intro _ | ((with_reducible apply takeTurn_fr); assumption; (focus decide)) | ((with_reducible apply giveChain_fr); (focus decide)) | ((with_reducible apply heldChain_fr); (focus decide)) | ((with_reducible apply nextList_fr); (focus decide)) | ((with_reducible apply attachDone_fr); (focus decide)) | ((with_reducible apply completeCmd_fr); (focus decide)) | ((with_reducible apply modSlice_fr); (focus decide)) | ((with_reducible apply putSlot_fr); (focus decide)) | (with_reducible apply AFr.run) | (with_reducible apply AFr.bind) | split

theorem dropShards_fr {s : State} {k : Nat} {test : WriterSlot → Bool} {mk : Nat} {s00 : State} (hmk : 4096 ||| mk = mk) (hst : Fr mk s00 s) : Fr mk s00 (dropShards s k test) := by
  refine Fr.step (k := 4096) ?_ hmk hst
  clear hmk hst
  unfold dropShards
  try dsimp only
  repeat' first | with_reducible exact Fr.refl _ _ | ((with_reducible apply modSlice_fr); (focus decide))

theorem execPclAttach_fr {k : Nat} {ctx : Nat} {s : State} {t00 : State} (heq0 : execPclAttach k ctx s = .next t00) : Fr 1257980 s t00 := by
  cases heq0
  repeat' first | with_reducible exact Fr.refl _ _ | ((with_reducible apply pclAttach_fr); (focus decide))

theorem execPclDetach_fr {k : Nat} {ctx : Nat} {s : State} {t00 : State} (heq0 : execPclDetach k ctx s = .next t00) : Fr 1257852 s t00 := by
  cases heq0
  repeat' first | with_reducible exact Fr.refl _ _ | ((with_reducible apply pclDetach_fr); (focus decide))

theorem execCompact_fr {k : Nat} {ctx : Nat} {s : State} {t00 : State} (heq0 : execCompact k ctx s = .next t00) : Fr 1253756 s t00 := by
  cases heq0
  repeat' first | with_reducible exact Fr.refl _ _ | ((with_reducible apply compactHead_fr); (focus decide))

theorem execUpdatePacketApply_fr {k : Nat} {slot : Nat} {s : State} {t00 : State} (heq0 : execUpdatePacketApply k slot s = .next t00) : Fr 1053116 s t00 := by
  cases heq0
  repeat' first | with_reducible assumption | with_reducible exact Fr.refl _ _ | intro _ | ((with_reducible apply updatePacketApply_fr); (focus decide))

theorem execCompactionPiece_fr {k : Nat} {slot : Nat} {s : State} {t00 : State} (heq0 : execCompactionPiece k slot s = .next t00) : Fr 1052732 s t00 := by
  cases heq0
  repeat' first | with_reducible exact Fr.refl _ _ | ((with_reducible apply compactionPiece_fr); (focus decide))

theorem execCompactionRetire_fr {k : Nat} {slot : Nat} {s : State} {t00 : State} (heq0 : execCompactionRetire k slot s = .next t00) : Fr 1257980 s t00 := by
  cases heq0
  repeat' first | with_reducible exact Fr.refl _ _ | ((with_reducible apply compactionRetire_fr); (focus decide))

/-! ### Gather -/

theorem modGth_fr {s : State} {f : GthSt → GthSt} {mk : Nat} {s00 : State} (hmk : 8192 ||| mk = mk) (hst : Fr mk s00 s) : Fr mk s00 (modGth s f) := by
  refine Fr.step (k := 8192) ?_ hmk hst
  clear hmk hst
  unfold modGth
  try dsimp only
  repeat' first | with_reducible exact Fr.refl _ _ | ((with_reducible apply Fr.setGth); (focus decide))

theorem modGe_fr {s : State} {e : Nat} {f : GthEng → GthEng} {mk : Nat} {s00 : State} (hmk : 8208 ||| mk = mk) (hst : Fr mk s00 s) : Fr mk s00 (modGe s e f) := by
  refine Fr.step (k := 8208) ?_ hmk hst
  clear hmk hst
  unfold modGe
  try dsimp only
  repeat' first | with_reducible exact Fr.refl _ _ | ((with_reducible apply modGth_fr); (focus decide))

theorem takeSpare_fr {w : Who} {x : TableDesc} {mk : Nat} {s00 : State} (hmk : 1048620 ||| mk = mk) : AFr mk s00 (takeSpare w x) := by
  refine AFr.step (k := 1048620) (fun s00 => ?_) hmk
  clear hmk
  unfold takeSpare
  try dsimp only
  repeat' first | with_reducible exact AFr.pure _ | intro _ | ((with_reducible apply rdNat_fr); (focus decide)) | ((with_reducible apply wrNat_fr); (focus decide)) | (with_reducible apply AFr.bind) | (with_reducible apply AFr.ite)

theorem giveSpare_fr {w : Who} {x : TableDesc} {n : Nat} {mk : Nat} {s00 : State} (hmk : 1048620 ||| mk = mk) : AFr mk s00 (giveSpare w x n) := by
  refine AFr.step (k := 1048620) (fun s00 => ?_) hmk
  clear hmk
  unfold giveSpare
  try dsimp only
  repeat' first | intro _ | ((with_reducible apply wrNat_fr); (focus decide)) | ((with_reducible apply rdNat_fr); (focus decide)) | (with_reducible apply AFr.bind)

theorem freeSpareAt_fr {w : Who} {x : TableDesc} {t : Nat} {m : Nat} {n : Nat} {mk : Nat} {s00 : State} (hmk : 1048876 ||| mk = mk) : AFr mk s00 (freeSpareAt w x t m n) := by
  refine AFr.step (k := 1048876) (fun s00 => ?_) hmk
  clear hmk
  unfold freeSpareAt
  try dsimp only
  repeat' first | with_reducible assumption | intro _ | ((with_reducible apply giveSpare_fr); (focus decide)) | ((with_reducible apply purserSend_fr); (focus decide)) | (with_reducible apply AFr.get_bind) | (with_reducible apply AFr.set) | (with_reducible apply AFr.ite)

theorem probeRedirect_fr {w : Who} {x : TableDesc} {i : Nat} {x0 : Nat} {x1 : Nat} {x2 : Option Nat} {mk : Nat} {s00 : State} (hmk : 1048620 ||| mk = mk) : AFr mk s00 (probeRedirect w x i x0 x1 x2) := by
  refine AFr.step (k := 1048620) (fun s00 => ?_) hmk
  clear hmk
  induction x0 generalizing x1 x2 with
  | zero =>
    unfold probeRedirect
    try dsimp only
    repeat' first | with_reducible exact AFr.pure _
  | succ y1 ih =>
    unfold probeRedirect
    try dsimp only
    repeat' first | with_reducible exact AFr.pure _ | (with_reducible apply ih) | intro _ | ((with_reducible apply rd_fr); (focus decide)) | (with_reducible apply AFr.bind) | (with_reducible apply AFr.ite)

theorem findRedirect_fr {w : Who} {x : TableDesc} {i : Nat} {mk : Nat} {s00 : State} (hmk : 1048620 ||| mk = mk) : AFr mk s00 (findRedirect w x i) := by
  refine AFr.step (k := 1048620) (fun s00 => ?_) hmk
  clear hmk
  unfold findRedirect
  try dsimp only
  repeat' first | ((with_reducible apply probeRedirect_fr); (focus decide))

theorem wrRedirect_fr {w : Who} {a : Nat} {i : Nat} {st : Nat} {target : Nat} {slot : Nat} {mk : Nat} {s00 : State} (hmk : 1048620 ||| mk = mk) : AFr mk s00 (wrRedirect w a i st target slot) := by
  refine AFr.step (k := 1048620) (fun s00 => ?_) hmk
  clear hmk
  unfold wrRedirect
  try dsimp only
  repeat' first | ((with_reducible apply wr_fr); (focus decide))

theorem countMoved_fr {w : Who} {x : TableDesc} {up : Bool} {mk : Nat} {s00 : State} (hmk : 1048620 ||| mk = mk) : AFr mk s00 (countMoved w x up) := by
  refine AFr.step (k := 1048620) (fun s00 => ?_) hmk
  clear hmk
  unfold countMoved
  try dsimp only
  repeat' first | intro _ | ((with_reducible apply rdNat_fr); (focus decide)) | ((with_reducible apply wrNat_fr); (focus decide)) | (with_reducible apply AFr.bind)

theorem recoverMoves_fr {w : Who} {x : TableDesc} {t : Nat} {mk : Nat} {s00 : State} (hmk : 1048876 ||| mk = mk) : AFr mk s00 (recoverMoves w x t) := by
  refine AFr.step (k := 1048876) (fun s00 => ?_) hmk
  clear hmk
  unfold recoverMoves
  try dsimp only
  repeat' first | with_reducible exact AFr.pure _ | intro _ | ((with_reducible apply rd_fr); (focus decide)) | ((with_reducible apply wrRedirect_fr); (focus decide)) | ((with_reducible apply freeSpareAt_fr); (focus decide)) | ((with_reducible apply countMoved_fr); (focus decide)) | (with_reducible apply AFr.bind) | (with_reducible apply AFr.ite) | (with_reducible apply AFr.forM)

theorem uniqIndices_fr {w : Who} {b : Bytes} {rows : Nat} {mk : Nat} {s00 : State} (hmk : 1048620 ||| mk = mk) : AFr mk s00 (uniqIndices w b rows) := by
  refine AFr.step (k := 1048620) (fun s00 => ?_) hmk
  clear hmk
  unfold uniqIndices
  try dsimp only
  repeat' first | with_reducible exact AFr.pure _ | with_reducible exact AFr.stopIf _ _ | intro _ | ((with_reducible apply rd_fr); (focus decide)) | (with_reducible apply AFr.bind)

theorem inverseOf_fr {w : Who} {b : Bytes} {mk : Nat} {s00 : State} (hmk : 1048620 ||| mk = mk) : AFr mk s00 (inverseOf w b) := by
  refine AFr.step (k := 1048620) (fun s00 => ?_) hmk
  clear hmk
  unfold inverseOf
  try dsimp only
  repeat' first | with_reducible exact AFr.pure _ | with_reducible exact AFr.stopIf _ _ | intro _ | ((with_reducible apply rd_fr); (focus decide)) | (with_reducible apply AFr.bind) | (with_reducible apply AFr.ite)

theorem wrTableRow_fr {w : Who} {base : Nat} {xfmt : Nat} {r : Nat} {x : TableDesc} {row : Bytes} {mk : Nat} {s00 : State} (hmk : 1048620 ||| mk = mk) : AFr mk s00 (wrTableRow w base xfmt r x row) := by
  refine AFr.step (k := 1048620) (fun s00 => ?_) hmk
  clear hmk
  unfold wrTableRow
  try dsimp only
  repeat' first | with_reducible exact AFr.pure _ | intro _ | ((with_reducible apply wr_fr); (focus decide)) | ((with_reducible apply wrRow_fr); (focus decide)) | (with_reducible apply AFr.bind) | (with_reducible apply AFr.ite) | (with_reducible apply AFr.forM)

theorem wrZeroRow_fr {w : Who} {base : Nat} {xfmt : Nat} {r : Nat} {dim : Nat} {mk : Nat} {s00 : State} (hmk : 1048620 ||| mk = mk) : AFr mk s00 (wrZeroRow w base xfmt r dim) := by
  refine AFr.step (k := 1048620) (fun s00 => ?_) hmk
  clear hmk
  unfold wrZeroRow
  try dsimp only
  repeat' first | ((with_reducible apply wrRow_fr); (focus decide))

theorem homeModule_fr {w : Who} {x : TableDesc} {i : Nat} {mk : Nat} {s00 : State} (hmk : 1048620 ||| mk = mk) : AFr mk s00 (homeModule w x i) := by
  refine AFr.step (k := 1048620) (fun s00 => ?_) hmk
  clear hmk
  unfold homeModule
  try dsimp only
  repeat' first | with_reducible exact AFr.pure _ | intro _ | ((with_reducible apply rdNat_fr); (focus decide)) | (with_reducible apply AFr.bind)

theorem addReq_fr {s : State} {r : RowReq} {mk : Nat} {s00 : State} (hmk : 8192 ||| mk = mk) (hst : Fr mk s00 s) : Fr mk s00 (addReq s r) := by
  refine Fr.step (k := 8192) ?_ hmk hst
  clear hmk hst
  unfold addReq
  try dsimp only
  repeat' first | with_reducible exact Fr.refl _ _ | ((with_reducible apply modGth_fr); (focus decide))

theorem queueRow_fr {s : State} {p : Nat} {m : Nat} {ctx : Nat} {tag : BitVec 32} {index : Nat} {requester : Nat} {arg : Nat} {b : Bytes} {mk : Nat} {s00 : State} (hmk : 256 ||| mk = mk) (hst : Fr mk s00 s) : Fr mk s00 (queueRow s p m ctx tag index requester arg b) := by
  refine Fr.step (k := 256) ?_ hmk hst
  clear hmk hst
  unfold queueRow
  try dsimp only
  repeat' first | with_reducible assumption | with_reducible exact Fr.refl _ _ | intro _ | ((with_reducible apply queueFrame_fr); (focus decide)) | (with_reducible apply Fr.foldl)

theorem sendEntry_fr {e : Nat} {c : Nat} {op : GthOp} {x : TableDesc} {ui : Nat × Nat} {mk : Nat} {s00 : State} (hmk : 1057068 ||| mk = mk) : AFr mk s00 (sendEntry e c op x ui) := by
  refine AFr.step (k := 1057068) (fun s00 => ?_) hmk
  clear hmk
  unfold sendEntry
  try dsimp only
  repeat' first | with_reducible assumption | with_reducible exact AFr.throw _ | intro _ | ((with_reducible apply homeModule_fr); (focus decide)) | ((with_reducible apply addReq_fr); (focus decide)) | ((with_reducible apply choosePort_fr); assumption; (focus decide)) | ((with_reducible apply startOp_fr); (focus decide)) | ((with_reducible apply queueRow_fr); (focus decide)) | ((with_reducible apply chargeFerry_fr); (focus decide)) | (with_reducible apply AFr.get_bind) | (with_reducible apply AFr.bind) | (with_reducible apply AFr.set) | split

theorem modOp_fr {s : State} {e : Nat} {c : Nat} {f : GthOp → GthOp} {mk : Nat} {s00 : State} (hmk : 8208 ||| mk = mk) (hst : Fr mk s00 s) : Fr mk s00 (modOp s e c f) := by
  refine Fr.step (k := 8208) ?_ hmk hst
  clear hmk hst
  unfold modOp
  try dsimp only
  repeat' first | with_reducible exact Fr.refl _ _ | ((with_reducible apply modGe_fr); (focus decide))

theorem sendNext_fr {s : State} {e : Nat} {c : Nat} {mk : Nat} {s00 : State} (hmk : 1057084 ||| mk = mk) (hst : Fr mk s00 s) : Fr mk s00 (sendNext s e c) := by
  refine Fr.step (k := 1057084) ?_ hmk hst
  clear hmk hst
  unfold sendNext
  try dsimp only
  repeat' first | with_reducible exact Fr.refl _ _ | ((with_reducible apply modOp_fr); (focus decide)) | ((with_reducible apply sendEntry_fr); (focus decide)) | ((with_reducible apply AFr.run_eq); assumption) | split

theorem pump_fr {e : Nat} {x0 : Nat} {x1 : State} {mk : Nat} {s00 : State} (hmk : 1057084 ||| mk = mk) (hst : Fr mk s00 x1) : Fr mk s00 (pump e x0 x1) := by
  induction x0 generalizing x1 with
  | zero =>
    unfold pump
    try dsimp only
    repeat' first | with_reducible assumption
  | succ y1 ih =>
    unfold pump
    try dsimp only
    repeat' first | with_reducible assumption | (with_reducible apply ih) | ((with_reducible apply sendNext_fr); (focus (first | decide | exact sub_trans (by decide) hmk))) | ((with_reducible apply modEng_fr); (focus (first | decide | exact sub_trans (by decide) hmk))) | split

theorem settleGather_fr {s : State} {e : Nat} {c : Nat} {mk : Nat} {s00 : State} (hmk : 1253756 ||| mk = mk) (hst : Fr mk s00 s) : Fr mk s00 (settleGather s e c) := by
  refine Fr.step (k := 1253756) ?_ hmk hst
  clear hmk hst
  unfold settleGather
  try dsimp only
  repeat' first | with_reducible exact Fr.refl _ _ | ((with_reducible apply completeCmd_fr); (focus decide)) | ((with_reducible apply modGe_fr); (focus decide)) | split

theorem pumpAll_fr {s : State} {e : Nat} {mk : Nat} {s00 : State} (hmk : 1253756 ||| mk = mk) (hst : Fr mk s00 s) : Fr mk s00 (pumpAll s e) := by
  refine Fr.step (k := 1253756) ?_ hmk hst
  clear hmk hst
  unfold pumpAll
  try dsimp only
  repeat' first | with_reducible assumption | with_reducible exact Fr.refl _ _ | intro _ | ((with_reducible apply pump_fr); (focus decide)) | ((with_reducible apply settleGather_fr); (focus decide)) | (with_reducible apply Fr.foldl)

theorem gatherRows_fr {e : Nat} {c : Nat} {op : GthOp} {x : TableDesc} {u : Nat} {row : Bytes} {mk : Nat} {s00 : State} (hmk : 1048620 ||| mk = mk) : AFr mk s00 (gatherRows e c op x u row) := by
  refine AFr.step (k := 1048620) (fun s00 => ?_) hmk
  clear hmk
  unfold gatherRows
  try dsimp only
  repeat' first | intro _ | ((with_reducible apply wrTableRow_fr); (focus decide)) | (with_reducible apply AFr.ite) | (with_reducible apply AFr.forM)

theorem rowDone_fr {s : State} {e : Nat} {c : Nat} {u : Nat} {index : Nat} {st : Status} {row : Bytes} {mk : Nat} {s00 : State} (hmk : 1253756 ||| mk = mk) (hst : Fr mk s00 s) : Fr mk s00 (rowDone s e c u index st row) := by
  refine Fr.step (k := 1253756) ?_ hmk hst
  clear hmk hst
  unfold rowDone
  try dsimp only
  repeat' first | with_reducible exact Fr.refl _ _ | ((with_reducible apply modOp_fr); (focus decide)) | ((with_reducible apply gatherRows_fr); (focus decide)) | ((with_reducible apply modGe_fr); (focus decide)) | ((with_reducible apply pumpAll_fr); (focus decide)) | (with_reducible apply AFr.run) | split

-- HO
theorem gatherHead_fr {s : State} {e : Nat} {c : Nat} {op : Nat} {f : State → QCmd → GthTable → State} {mk : Nat} {s00 : State} (hmk : 1253756 ||| mk = mk) (hf : ∀ t x1 x2, Fr mk s00 t → Fr mk s00 (f t x1 x2)) (hst : Fr mk s00 s) : Fr mk s00 (gatherHead s e c op f) := by
  unfold gatherHead
  try dsimp only
  repeat' first | with_reducible assumption | intro _ | ((with_reducible apply headRow_fr); (focus first | decide | exact sub_trans (by decide) hmk)) | ((with_reducible apply takeTurn_fr); assumption; (focus first | decide | exact sub_trans (by decide) hmk)) | ((with_reducible apply completeHead_fr); (focus first | decide | exact sub_trans (by decide) hmk)) | (with_reducible apply hf) | split

theorem startGather_fr {s : State} {e : Nat} {c : Nat} {q : QCmd} {work : Act GthOp} {mk : Nat} {s00 : State}
    (hmk : 1253756 ||| mk = mk) (hw : AFr mk s00 work) (hst : Fr mk s00 s) : Fr mk s00 (startGather s e c q work) := by
  unfold startGather
  split
  · exact completeHead_fr (sub_trans (by decide) hmk) (AFr.val_eq (by assumption) hw hst)
  · exact pumpAll_fr (sub_trans (by decide) hmk) (modGe_fr (sub_trans (by decide) hmk)
      (popQ_fr (sub_trans (by decide) hmk) (AFr.val_eq (by assumption) hw hst)))

theorem usePrefetch_fr {e : Nat} {c : Nat} {op : GthOp} {x : TableDesc} {todo : List (Nat × Nat)} {mk : Nat} {s00 : State} (hmk : 1056828 ||| mk = mk) : AFr mk s00 (usePrefetch e c op x todo) := by
  refine AFr.step (k := 1056828) (fun s00 => ?_) hmk
  clear hmk
  unfold usePrefetch
  try dsimp only
  repeat' first | with_reducible assumption | with_reducible exact AFr.pure _ | intro _ | ((with_reducible apply modGe_fr); (focus decide)) | ((with_reducible apply gatherRows_fr); (focus decide)) | (with_reducible apply AFr.get_bind) | (with_reducible apply AFr.bind) | (with_reducible apply AFr.set) | (with_reducible apply AFr.foldlM) | split

theorem gatherCmd_fr {s : State} {e : Nat} {c : Nat} {mk : Nat} {s00 : State} (hmk : 1253756 ||| mk = mk) (hst : Fr mk s00 s) : Fr mk s00 (gatherCmd s e c) := by
  refine Fr.step (k := 1253756) ?_ hmk hst
  clear hmk hst
  unfold gatherCmd
  try dsimp only
  repeat' first | with_reducible assumption | with_reducible exact Fr.refl _ _ | with_reducible exact AFr.pure _ | with_reducible exact AFr.stopIf _ _ | intro _ | ((with_reducible apply gatherHead_fr); (focus decide)) | ((with_reducible apply startGather_fr); (focus decide)) | ((with_reducible apply uniqIndices_fr); (focus decide)) | ((with_reducible apply inverseOf_fr); (focus decide)) | ((with_reducible apply wrZeroRow_fr); (focus decide)) | ((with_reducible apply usePrefetch_fr); (focus decide)) | (with_reducible apply AFr.bind) | (with_reducible apply AFr.ite) | (with_reducible apply AFr.forM)

theorem gradients_fr {w : Who} {b : Bytes} {dim : Nat} {inv : List Nat} {mk : Nat} {s00 : State} (hmk : 1048620 ||| mk = mk) : AFr mk s00 (gradients w b dim inv) := by
  refine AFr.step (k := 1048620) (fun s00 => ?_) hmk
  clear hmk
  unfold gradients
  try dsimp only
  repeat' first | with_reducible exact AFr.pure _ | intro _ | ((with_reducible apply rdRow_fr); (focus decide)) | ((with_reducible apply wr_fr); (focus decide)) | (with_reducible apply AFr.bind) | (with_reducible apply AFr.ite) | (with_reducible apply AFr.foldlM) | (with_reducible apply AFr.mapM)

theorem applyCmd_fr {s : State} {e : Nat} {c : Nat} {mk : Nat} {s00 : State} (hmk : 1253756 ||| mk = mk) (hst : Fr mk s00 s) : Fr mk s00 (applyCmd s e c) := by
  refine Fr.step (k := 1253756) ?_ hmk hst
  clear hmk hst
  unfold applyCmd
  try dsimp only
  repeat' first | with_reducible assumption | with_reducible exact Fr.refl _ _ | with_reducible exact AFr.pure _ | with_reducible exact AFr.stopIf _ _ | intro _ | ((with_reducible apply gatherHead_fr); (focus decide)) | ((with_reducible apply startGather_fr); (focus decide)) | ((with_reducible apply rd_fr); (focus decide)) | ((with_reducible apply uniqIndices_fr); (focus decide)) | ((with_reducible apply inverseOf_fr); (focus decide)) | ((with_reducible apply gradients_fr); (focus decide)) | (with_reducible apply AFr.bind)

theorem prefetchCmd_fr {s : State} {e : Nat} {c : Nat} {mk : Nat} {s00 : State} (hmk : 1253756 ||| mk = mk) (hst : Fr mk s00 s) : Fr mk s00 (prefetchCmd s e c) := by
  refine Fr.step (k := 1253756) ?_ hmk hst
  clear hmk hst
  unfold prefetchCmd
  try dsimp only
  repeat' first | with_reducible assumption | with_reducible exact Fr.refl _ _ | with_reducible exact AFr.pure _ | with_reducible exact AFr.stopIf _ _ | with_reducible exact AFr.get | intro _ | ((with_reducible apply gatherHead_fr); (focus decide)) | ((with_reducible apply startGather_fr); (focus decide)) | ((with_reducible apply uniqIndices_fr); (focus decide)) | ((with_reducible apply modGe_fr); (focus decide)) | (with_reducible apply AFr.bind) | (with_reducible apply AFr.actMod)

theorem gthAttach_fr {s : State} {e : Nat} {c : Nat} {mk : Nat} {s00 : State} (hmk : 1253756 ||| mk = mk) (hst : Fr mk s00 s) : Fr mk s00 (gthAttach s e c) := by
  refine Fr.step (k := 1253756) ?_ hmk hst
  clear hmk hst
  unfold gthAttach
  try dsimp only
  repeat' first | with_reducible exact Fr.refl _ _ | with_reducible exact AFr.pure _ | with_reducible exact AFr.stopIf _ _ | intro _ | ((with_reducible apply headRow_fr); (focus decide)) | ((with_reducible apply takeTurn_fr); assumption; (focus decide)) | ((with_reducible apply rd_fr); (focus decide)) | ((with_reducible apply recoverMoves_fr); (focus decide)) | ((with_reducible apply completeHead_fr); (focus decide)) | ((with_reducible apply modGth_fr); (focus decide)) | ((with_reducible apply AFr.val_eq); assumption) | (with_reducible apply AFr.bind) | split

theorem abortGather_fr {s : State} {test : Nat → GthOp → Bool} {mk : Nat} {s00 : State} (hmk : 1253756 ||| mk = mk) (hst : Fr mk s00 s) : Fr mk s00 (abortGather s test) := by
  refine Fr.step (k := 1253756) ?_ hmk hst
  clear hmk hst
  unfold abortGather
  try dsimp only
  repeat' first | with_reducible assumption | with_reducible exact Fr.refl _ _ | intro _ | ((with_reducible apply modGth_fr); (focus decide)) | ((with_reducible apply pumpAll_fr); (focus decide)) | (with_reducible apply Fr.foldl)

theorem gthDetach_fr {s : State} {e : Nat} {c : Nat} {mk : Nat} {s00 : State} (hmk : 1253756 ||| mk = mk)
    (hst : Fr mk s00 s) : Fr mk s00 (gthDetach s e c) := by
  refine headRow_fr (sub_trans (by decide) hmk) (fun q => ?_) hst
  split
  · exact hst
  · have h1 := takeTurn_fr (by assumption) (sub_trans (by decide) hmk) hst
    dsimp only
    split
    · exact completeHead_fr (sub_trans (by decide) hmk) h1
    · exact markQueued_fr (sub_trans (by decide) hmk) (abortGather_fr (sub_trans (by decide) hmk)
        (modGth_fr (sub_trans (by decide) hmk) (popQ_fr (sub_trans (by decide) hmk) h1)))

theorem tableFinish_fr {s : State} {t : Nat} {mk : Nat} {s00 : State} (hmk : 1253756 ||| mk = mk) (hst : Fr mk s00 s) : Fr mk s00 (tableFinish s t) := by
  refine Fr.step (k := 1253756) ?_ hmk hst
  clear hmk hst
  unfold tableFinish
  try dsimp only
  repeat' first | with_reducible assumption | with_reducible exact Fr.refl _ _ | intro _ | ((with_reducible apply modGth_fr); (focus decide)) | ((with_reducible apply completeCmd_fr); (focus decide)) | (with_reducible apply Fr.foldl) | split

theorem countServed_fr {s : State} {e : Nat} {t : Nat} {rb : Nat} {mk : Nat} {s00 : State} (hmk : 8208 ||| mk = mk) (hst : Fr mk s00 s) : Fr mk s00 (countServed s e t rb) := by
  refine Fr.step (k := 8208) ?_ hmk hst
  clear hmk hst
  unfold countServed
  try dsimp only
  repeat' first | with_reducible exact Fr.refl _ _ | ((with_reducible apply modGth_fr); (focus decide)) | ((with_reducible apply modGe_fr); (focus decide))

theorem countHit_fr {w : Who} {e : Nat} {t : Nat} {i : Nat} {slot : Nat} {x : TableDesc} {mk : Nat} {s00 : State} (hmk : 1056828 ||| mk = mk) : AFr mk s00 (countHit w e t i slot x) := by
  refine AFr.step (k := 1056828) (fun s00 => ?_) hmk
  clear hmk
  unfold countHit
  try dsimp only
  repeat' first | with_reducible assumption | with_reducible exact AFr.pure _ | with_reducible exact AFr.get | intro _ | ((with_reducible apply rd_fr); (focus decide)) | ((with_reducible apply wr_fr); (focus decide)) | ((with_reducible apply modGe_fr); (focus decide)) | (with_reducible apply AFr.bind) | (with_reducible apply AFr.actMod) | (with_reducible apply AFr.ite)

theorem updateRow_fr {w : Who} {x : TableDesc} {slot : Nat} {u : RowUpdate} {mk : Nat} {s00 : State} (hmk : 1048620 ||| mk = mk) : AFr mk s00 (updateRow w x slot u) := by
  refine AFr.step (k := 1048620) (fun s00 => ?_) hmk
  clear hmk
  unfold updateRow
  try dsimp only
  repeat' first | with_reducible exact AFr.pure _ | intro _ | ((with_reducible apply rd_fr); (focus decide)) | ((with_reducible apply wr_fr); (focus decide)) | (with_reducible apply AFr.bind) | (with_reducible apply AFr.ite)

theorem answerPort_fr {s : State} {r : RowReq} {m : Nat} {y0 : Nat} {t00 : State} {mk : Nat} {s00 : State}
    (heq0 : answerPort s r m = some (y0, t00)) (hmk : 256 ||| mk = mk) (hst : Fr mk s00 s) : Fr mk s00 t00 := by
  unfold answerPort at heq0
  split at heq0
  · split at heq0
    · cases heq0
      exact hst
    · exact choosePort_fr heq0 hmk hst
  · exact choosePort_fr heq0 hmk hst

theorem answerRow_fr {s : State} {r : RowReq} {st : Status} {row : Bytes} {mk : Nat} {s00 : State} (hmk : 1253756 ||| mk = mk) (hst : Fr mk s00 s) : Fr mk s00 (answerRow s r st row) := by
  refine Fr.step (k := 1253756) ?_ hmk hst
  clear hmk hst
  unfold answerRow
  try dsimp only
  repeat' first | with_reducible exact Fr.refl _ _ | ((with_reducible apply rowDone_fr); (focus decide)) | ((with_reducible apply answerPort_fr); assumption; (focus decide)) | ((with_reducible apply queueRow_fr); (focus decide)) | ((with_reducible apply chargeFerry_fr); (focus decide)) | ((with_reducible apply queueFrame_fr); (focus decide)) | split

theorem forwardRow_fr {s : State} {r : RowReq} {m : Nat} {slot : Nat} {mk : Nat} {s00 : State} (hmk : 1253756 ||| mk = mk) (hst : Fr mk s00 s) : Fr mk s00 (forwardRow s r m slot) := by
  refine Fr.step (k := 1253756) ?_ hmk hst
  clear hmk hst
  unfold forwardRow
  try dsimp only
  repeat' first | with_reducible exact Fr.refl _ _ | ((with_reducible apply addReq_fr); (focus decide)) | ((with_reducible apply choosePort_fr); assumption; (focus decide)) | ((with_reducible apply answerRow_fr); (focus decide)) | ((with_reducible apply chargeFerry_fr); (focus decide)) | ((with_reducible apply queueRow_fr); (focus decide)) | ((with_reducible apply startOp_fr); (focus decide)) | split

theorem serveSlot_fr {w : Who} {r : RowReq} {x : TableDesc} {slot : Nat} {mk : Nat} {s00 : State} (hmk : 1056828 ||| mk = mk) : AFr mk s00 (serveSlot w r x slot) := by
  refine AFr.step (k := 1056828) (fun s00 => ?_) hmk
  clear hmk
  unfold serveSlot
  try dsimp only
  repeat' first | with_reducible assumption | with_reducible exact AFr.pure _ | with_reducible exact AFr.stopIf _ _ | intro _ | ((with_reducible apply rd_fr); (focus decide)) | ((with_reducible apply updateRow_fr); (focus decide)) | ((with_reducible apply countHit_fr); (focus decide)) | ((with_reducible apply countServed_fr); (focus decide)) | (with_reducible apply AFr.bind) | (with_reducible apply AFr.actMod) | split

theorem serveWork_fr {r : RowReq} {x : TableDesc} {mk : Nat} {s00 : State} (hmk : 1056828 ||| mk = mk) : AFr mk s00 (serveWork r x) := by
  refine AFr.step (k := 1056828) (fun s00 => ?_) hmk
  clear hmk
  unfold serveWork
  try dsimp only
  repeat' first | with_reducible exact AFr.pure _ | with_reducible exact AFr.stopIf _ _ | intro _ | ((with_reducible apply serveSlot_fr); (focus decide)) | ((with_reducible apply findRedirect_fr); (focus decide)) | (with_reducible apply AFr.bind) | split

theorem serveNow_fr {s : State} {rid : Nat} {r : RowReq} {mk : Nat} {s00 : State} (hmk : 1253756 ||| mk = mk) (hst : Fr mk s00 s) : Fr mk s00 (serveNow s rid r) := by
  refine Fr.step (k := 1253756) ?_ hmk hst
  clear hmk hst
  unfold serveNow
  try dsimp only
  repeat' first | with_reducible exact Fr.refl _ _ | ((with_reducible apply modGth_fr); (focus decide)) | ((with_reducible apply answerRow_fr); (focus decide)) | ((with_reducible apply serveWork_fr); (focus decide)) | ((with_reducible apply forwardRow_fr); (focus decide)) | ((with_reducible apply AFr.val_eq); assumption) | split

theorem serveRow_fr {s : State} {e : Nat} {rid : Nat} {update : Bool} {mk : Nat} {s00 : State} (hmk : 1253756 ||| mk = mk) (hst : Fr mk s00 s) : Fr mk s00 (serveRow s e rid update) := by
  refine Fr.step (k := 1253756) ?_ hmk hst
  clear hmk hst
  unfold serveRow
  try dsimp only
  repeat' first | with_reducible exact Fr.refl _ _ | ((with_reducible apply takeTurn_fr); assumption; (focus decide)) | ((with_reducible apply pumpAll_fr); (focus decide)) | ((with_reducible apply serveNow_fr); (focus decide)) | split

theorem releaseRow_fr {s : State} {t : Nat} {i : Nat} {mk : Nat} {s00 : State} (hmk : 8192 ||| mk = mk) (hst : Fr mk s00 s) : Fr mk s00 (releaseRow s t i) := by
  refine Fr.step (k := 8192) ?_ hmk hst
  clear hmk hst
  unfold releaseRow
  try dsimp only
  repeat' first | with_reducible exact Fr.refl _ _ | ((with_reducible apply modGth_fr); (focus decide))

theorem rowFrame_fr {s : State} {p : Nat} {f : FFrame} {mk : Nat} {s00 : State} (hmk : 1253756 ||| mk = mk) (hst : Fr mk s00 s) : Fr mk s00 (rowFrame s p f) := by
  refine Fr.step (k := 1253756) ?_ hmk hst
  clear hmk hst
  unfold rowFrame
  try dsimp only
  repeat' first | with_reducible exact Fr.refl _ _ | ((with_reducible apply modGth_fr); (focus decide)) | ((with_reducible apply rowDone_fr); (focus decide)) | ((with_reducible apply modFry_fr); (focus decide)) | ((with_reducible apply answerRow_fr); (focus decide)) | ((with_reducible apply addReq_fr); (focus decide)) | split

theorem issueMove_fr {s : State} {by_ : Nat} {t : Nat} {i : Nat} {m : Nat} {x : GthTable} {mk : Nat} {s00 : State} (hmk : 1253756 ||| mk = mk) (hst : Fr mk s00 s) : Fr mk s00 (issueMove s by_ t i m x) := by
  refine Fr.step (k := 1253756) ?_ hmk hst
  clear hmk hst
  unfold issueMove
  try dsimp only
  repeat' first | with_reducible exact Fr.refl _ _ | ((with_reducible apply purserRuns_fr); (focus decide))

theorem orderMove_fr {s : State} {h : Nat} {t : Nat} {i : Nat} {m : Nat} {mk : Nat} {s00 : State} (hmk : 1253756 ||| mk = mk) (hst : Fr mk s00 s) : Fr mk s00 (orderMove s h t i m) := by
  refine Fr.step (k := 1253756) ?_ hmk hst
  clear hmk hst
  unfold orderMove
  try dsimp only
  repeat' first | with_reducible exact Fr.refl _ _ | ((with_reducible apply issueMove_fr); (focus decide)) | ((with_reducible apply modGth_fr); (focus decide)) | ((with_reducible apply purserSend_fr); (focus decide)) | split

theorem orderMoves_fr {x0 : List (Nat × Nat × Nat × Nat)} {x1 : State} {mk : Nat} {s00 : State} (hmk : 1253756 ||| mk = mk) (hst : Fr mk s00 x1) : Fr mk s00 (orderMoves x0 x1) := by
  induction x0 generalizing x1 with
  | nil =>
    unfold orderMoves
    try dsimp only
    repeat' first | with_reducible assumption | ((with_reducible apply modGth_fr); (focus (first | decide | exact sub_trans (by decide) hmk)))
  | cons y1 y2 ih =>
    unfold orderMoves
    try dsimp only
    repeat' first | with_reducible assumption | (with_reducible apply ih) | intro _ | ((with_reducible apply modGth_fr); (focus (first | decide | exact sub_trans (by decide) hmk))) | ((with_reducible apply orderMove_fr); (focus (first | decide | exact sub_trans (by decide) hmk))) | (with_reducible apply Fr.ite)

theorem offerMove_fr {s : State} {mk : Nat} {s00 : State} (hmk : 1253756 ||| mk = mk) (hst : Fr mk s00 s) : Fr mk s00 (offerMove s) := by
  refine Fr.step (k := 1253756) ?_ hmk hst
  clear hmk hst
  unfold offerMove
  try dsimp only
  repeat' first | with_reducible exact Fr.refl _ _ | ((with_reducible apply orderMoves_fr); (focus decide))

theorem moveOrdered_fr {s : State} {b : Nat} {t : Nat} {i : Nat} {m : Nat} {mk : Nat} {s00 : State} (hmk : 1253756 ||| mk = mk) (hst : Fr mk s00 s) : Fr mk s00 (moveOrdered s b t i m) := by
  refine Fr.step (k := 1253756) ?_ hmk hst
  clear hmk hst
  unfold moveOrdered
  try dsimp only
  repeat' first | with_reducible exact Fr.refl _ _ | ((with_reducible apply purserSend_fr); (focus decide)) | ((with_reducible apply issueMove_fr); (focus decide)) | split

theorem moveEnded_fr {s : State} {h : Nat} {mk : Nat} {s00 : State} (hmk : 1253756 ||| mk = mk) (hst : Fr mk s00 s) : Fr mk s00 (moveEnded s h) := by
  refine Fr.step (k := 1253756) ?_ hmk hst
  clear hmk hst
  unfold moveEnded
  try dsimp only
  repeat' first | with_reducible exact Fr.refl _ _ | intro _ | ((with_reducible apply offerMove_fr); (focus decide)) | ((with_reducible apply modGth_fr); (focus decide)) | (with_reducible apply Fr.ite)

theorem endMigrate_fr {s : State} {e : Nat} {c : Nat} {op : GthOp} {st : Status} {mk : Nat} {s00 : State} (hmk : 1253756 ||| mk = mk) (hst : Fr mk s00 s) : Fr mk s00 (endMigrate s e c op st) := by
  refine Fr.step (k := 1253756) ?_ hmk hst
  clear hmk hst
  unfold endMigrate
  try dsimp only
  repeat' first | with_reducible exact Fr.refl _ _ | ((with_reducible apply releaseRow_fr); (focus decide)) | ((with_reducible apply modGe_fr); (focus decide)) | ((with_reducible apply offerMove_fr); (focus decide)) | ((with_reducible apply pumpAll_fr); (focus decide)) | ((with_reducible apply completeCmd_fr); (focus decide))

theorem undoMove_fr {e : Nat} {c : Nat} {op : GthOp} {x : TableDesc} {mk : Nat} {s00 : State} (hmk : 1048876 ||| mk = mk) : AFr mk s00 (undoMove e c op x) := by
  refine AFr.step (k := 1048876) (fun s00 => ?_) hmk
  clear hmk
  unfold undoMove
  try dsimp only
  repeat' first | with_reducible exact AFr.pure _ | intro _ | ((with_reducible apply freeSpareAt_fr); (focus decide)) | ((with_reducible apply countMoved_fr); (focus decide)) | ((with_reducible apply wr_fr); (focus decide)) | (with_reducible apply AFr.bind) | (with_reducible apply AFr.ite)

theorem finishMove_fr {e : Nat} {c : Nat} {op : GthOp} {x : TableDesc} {row : Bytes} {mk : Nat} {s00 : State} (hmk : 1057068 ||| mk = mk) : AFr mk s00 (finishMove e c op x row) := by
  refine AFr.step (k := 1057068) (fun s00 => ?_) hmk
  clear hmk
  unfold finishMove
  try dsimp only
  repeat' first | with_reducible assumption | intro _ | ((with_reducible apply countMoved_fr); (focus decide)) | ((with_reducible apply wrRedirect_fr); (focus decide)) | ((with_reducible apply wr_fr); (focus decide)) | ((with_reducible apply freeSpareAt_fr); (focus decide)) | ((with_reducible apply modGth_fr); (focus decide)) | (with_reducible apply AFr.bind) | (with_reducible apply AFr.actMod) | (with_reducible apply AFr.ite)

theorem migrateEnded_fr {s : State} {e : Nat} {c : Nat} {st : Status} {row : Bytes} {mk : Nat} {s00 : State} (hmk : 1253756 ||| mk = mk) (hst : Fr mk s00 s) : Fr mk s00 (migrateEnded s e c st row) := by
  refine Fr.step (k := 1253756) ?_ hmk hst
  clear hmk hst
  unfold migrateEnded
  try dsimp only
  repeat' first | with_reducible exact Fr.refl _ _ | ((with_reducible apply endMigrate_fr); (focus decide)) | ((with_reducible apply undoMove_fr); (focus decide)) | ((with_reducible apply finishMove_fr); (focus decide)) | (with_reducible apply AFr.run) | ((with_reducible apply AFr.run_eq); assumption) | split

theorem migrateCopy_fr {s : State} {e : Nat} {c : Nat} {op : GthOp} {x : TableDesc} {remote : Nat} {mk : Nat} {s00 : State} (hmk : 1253756 ||| mk = mk) (hst : Fr mk s00 s) : Fr mk s00 (migrateCopy s e c op x remote) := by
  refine Fr.step (k := 1253756) ?_ hmk hst
  clear hmk hst
  unfold migrateCopy
  try dsimp only
  repeat' first | with_reducible exact Fr.refl _ _ | ((with_reducible apply modOp_fr); (focus decide)) | ((with_reducible apply rd_fr); (focus decide)) | ((with_reducible apply migrateEnded_fr); (focus decide)) | ((with_reducible apply wr_fr); (focus decide)) | ((with_reducible apply choosePort_fr); assumption; (focus decide)) | ((with_reducible apply chargeFerry_fr); (focus decide)) | ((with_reducible apply startOp_fr); (focus decide)) | ((with_reducible apply queueWrite_fr); (focus decide)) | ((with_reducible apply queueFrame_fr); (focus decide)) | (with_reducible apply AFr.run) | ((with_reducible apply AFr.val_eq); assumption) | split

theorem migrateBegin_fr {e : Nat} {c : Nat} {q : QCmd} {x : TableDesc} {mk : Nat} {s00 : State} (hmk : 1048876 ||| mk = mk) : AFr mk s00 (migrateBegin e c q x) := by
  refine AFr.step (k := 1048876) (fun s00 => ?_) hmk
  clear hmk
  unfold migrateBegin
  try dsimp only
  repeat' first | with_reducible exact AFr.pure _ | with_reducible exact AFr.stopIf _ _ | with_reducible exact AFr.get | intro _ | ((with_reducible apply findRedirect_fr); (focus decide)) | ((with_reducible apply countMoved_fr); (focus decide)) | ((with_reducible apply wrRedirect_fr); (focus decide)) | (with_reducible apply AFr.bind) | split

theorem moveOutEntry_fr {e : Nat} {c : Nat} {op : GthOp} {x : TableDesc} {n : Nat} {mk : Nat} {s00 : State} (hmk : 1048620 ||| mk = mk) : AFr mk s00 (moveOutEntry e c op x n) := by
  refine AFr.step (k := 1048620) (fun s00 => ?_) hmk
  clear hmk
  unfold moveOutEntry
  try dsimp only
  repeat' first | with_reducible exact AFr.pure _ | with_reducible exact AFr.throw _ | intro _ | ((with_reducible apply findRedirect_fr); (focus decide)) | ((with_reducible apply rd_fr); (focus decide)) | ((with_reducible apply wrRedirect_fr); (focus decide)) | (with_reducible apply AFr.bind) | split

theorem moveOutGo_fr {s : State} {e : Nat} {c : Nat} {op : GthOp} {x : TableDesc} {n : Nat} {remote : Nat} {mk : Nat} {s00 : State} (hmk : 1253756 ||| mk = mk) (hst : Fr mk s00 s) : Fr mk s00 (moveOutGo s e c op x n remote) := by
  refine Fr.step (k := 1253756) ?_ hmk hst
  clear hmk hst
  unfold moveOutGo
  try dsimp only
  repeat' first | with_reducible exact Fr.refl _ _ | ((with_reducible apply moveOutEntry_fr); (focus decide)) | ((with_reducible apply endMigrate_fr); (focus decide)) | ((with_reducible apply freeSpareAt_fr); (focus decide)) | ((with_reducible apply migrateCopy_fr); (focus decide)) | (with_reducible apply AFr.run) | ((with_reducible apply AFr.val_eq); assumption) | split

theorem askSpare_fr {s : State} {e : Nat} {c : Nat} {op : GthOp} {slot : Option Nat} {mk : Nat} {s00 : State} (hmk : 1253756 ||| mk = mk) (hst : Fr mk s00 s) : Fr mk s00 (askSpare s e c op slot) := by
  refine Fr.step (k := 1253756) ?_ hmk hst
  clear hmk hst
  unfold askSpare
  try dsimp only
  repeat' first | with_reducible exact Fr.refl _ _ | intro _ | ((with_reducible apply migrateEnded_fr); (focus decide)) | ((with_reducible apply purserSend_fr); (focus decide)) | ((with_reducible apply modOp_fr); (focus decide)) | (with_reducible apply Fr.ite)

theorem moveOutAsk_fr {s : State} {e : Nat} {c : Nat} {op : GthOp} {x : TableDesc} {mk : Nat} {s00 : State} (hmk : 1253756 ||| mk = mk) (hst : Fr mk s00 s) : Fr mk s00 (moveOutAsk s e c op x) := by
  refine Fr.step (k := 1253756) ?_ hmk hst
  clear hmk hst
  unfold moveOutAsk
  try dsimp only
  repeat' first | with_reducible exact Fr.refl _ _ | ((with_reducible apply askSpare_fr); (focus decide)) | ((with_reducible apply takeSpare_fr); (focus decide)) | ((with_reducible apply moveOutGo_fr); (focus decide)) | ((with_reducible apply endMigrate_fr); (focus decide)) | ((with_reducible apply AFr.val_eq); assumption) | split

theorem moveBackGo_fr {s : State} {e : Nat} {c : Nat} {op : GthOp} {x : TableDesc} {mk : Nat} {s00 : State} (hmk : 1253756 ||| mk = mk) (hst : Fr mk s00 s) : Fr mk s00 (moveBackGo s e c op x) := by
  refine Fr.step (k := 1253756) ?_ hmk hst
  clear hmk hst
  unfold moveBackGo
  try dsimp only
  repeat' first | with_reducible exact Fr.refl _ _ | intro _ | ((with_reducible apply migrateCopy_fr); (focus decide)) | ((with_reducible apply askSpare_fr); (focus decide)) | (with_reducible apply Fr.ite)

theorem spareAsked_fr {s : State} {m : Nat} {e : Nat} {c : Nat} {t : Nat} {ask : Option Nat} {mk : Nat} {s00 : State} (hmk : 3350908 ||| mk = mk) (hst : Fr mk s00 s) : Fr mk s00 (spareAsked s m e c t ask) := by
  refine Fr.step (k := 3350908) ?_ hmk hst
  clear hmk hst
  unfold spareAsked
  try dsimp only
  repeat' first | with_reducible exact Fr.refl _ _ | ((with_reducible apply purserSend_fr); (focus decide)) | ((with_reducible apply takeSpare_fr); (focus decide)) | ((with_reducible apply AFr.val_eq); assumption) | split

theorem spareAnswered_fr {s : State} {m : Nat} {e : Nat} {c : Nat} {t : Nat} {ask : Option Nat} {st : Status} {slot : Option (Nat × Nat)} {mk : Nat} {s00 : State} (hmk : 3350908 ||| mk = mk) (hst : Fr mk s00 s) : Fr mk s00 (spareAnswered s m e c t ask st slot) := by
  refine Fr.step (k := 3350908) ?_ hmk hst
  clear hmk hst
  unfold spareAnswered
  try dsimp only
  repeat' first | with_reducible exact Fr.refl _ _ | ((with_reducible apply purserSend_fr); (focus decide)) | ((with_reducible apply migrateEnded_fr); (focus decide)) | ((with_reducible apply modOp_fr); (focus decide)) | ((with_reducible apply moveOutGo_fr); (focus decide)) | ((with_reducible apply migrateCopy_fr); (focus decide)) | split

theorem migrateStart_fr {s : State} {e : Nat} {c : Nat} {mk : Nat} {s00 : State} (hmk : 1253756 ||| mk = mk) (hst : Fr mk s00 s) : Fr mk s00 (migrateStart s e c) := by
  refine Fr.step (k := 1253756) ?_ hmk hst
  clear hmk hst
  unfold migrateStart
  try dsimp only
  repeat' first | with_reducible assumption | with_reducible exact Fr.refl _ _ | intro _ | ((with_reducible apply gatherHead_fr); (focus decide)) | ((with_reducible apply migrateBegin_fr); (focus decide)) | ((with_reducible apply completeHead_fr); (focus decide)) | ((with_reducible apply modGe_fr); (focus decide)) | ((with_reducible apply popQ_fr); (focus decide)) | ((with_reducible apply moveOutAsk_fr); (focus decide)) | ((with_reducible apply moveBackGo_fr); (focus decide)) | ((with_reducible apply AFr.val_eq); assumption) | split

theorem migrateCmd_fr {s : State} {e : Nat} {c : Nat} {mk : Nat} {s00 : State} (hmk : 1253756 ||| mk = mk) (hst : Fr mk s00 s) : Fr mk s00 (migrateCmd s e c) := by
  refine Fr.step (k := 1253756) ?_ hmk hst
  clear hmk hst
  unfold migrateCmd
  try dsimp only
  repeat' first | with_reducible exact Fr.refl _ _ | ((with_reducible apply migrateStart_fr); (focus decide)) | ((with_reducible apply moveBackGo_fr); (focus decide)) | split

theorem gatherPathLost_fr {s : State} {x : Nat} {mk : Nat} {s00 : State} (hmk : 1253756 ||| mk = mk) (hst : Fr mk s00 s) : Fr mk s00 (gatherPathLost s x) := by
  refine Fr.step (k := 1253756) ?_ hmk hst
  clear hmk hst
  unfold gatherPathLost
  try dsimp only
  repeat' first | with_reducible assumption | with_reducible exact Fr.refl _ _ | intro _ | ((with_reducible apply moveEnded_fr); (focus decide)) | ((with_reducible apply migrateEnded_fr); (focus decide)) | (with_reducible apply Fr.foldl)

theorem loadEpochStep_fr {s : State} {mk : Nat} {s00 : State} (hmk : 8192 ||| mk = mk) (hst : Fr mk s00 s) : Fr mk s00 (loadEpochStep s) := by
  refine Fr.step (k := 8192) ?_ hmk hst
  clear hmk hst
  unfold loadEpochStep
  try dsimp only
  repeat' first | with_reducible exact Fr.refl _ _ | intro _ | ((with_reducible apply modGth_fr); (focus decide)) | (with_reducible apply Fr.ite)

theorem ownHot_fr {w : Who} {t : Nat} {x : TableDesc} {mk : Nat} {s00 : State} (hmk : 1048620 ||| mk = mk) : AFr mk s00 (ownHot w t x) := by
  refine AFr.step (k := 1048620) (fun s00 => ?_) hmk
  clear hmk
  unfold ownHot
  try dsimp only
  repeat' first | with_reducible exact AFr.pure _ | with_reducible exact AFr.get | intro _ | ((with_reducible apply findRedirect_fr); (focus decide)) | (with_reducible apply AFr.bind) | (with_reducible apply AFr.mapM)

theorem balanceMoves_fr {t : Nat} {x : GthTable} {loads : List Nat} {hot : List (Nat × Nat × Bool)} {mk : Nat} {s00 : State} (hmk : 1048620 ||| mk = mk) : AFr mk s00 (balanceMoves t x loads hot) := by
  refine AFr.step (k := 1048620) (fun s00 => ?_) hmk
  clear hmk
  unfold balanceMoves
  try dsimp only
  repeat' first | with_reducible exact AFr.pure _ | intro _ | ((with_reducible apply ownHot_fr); (focus decide)) | ((with_reducible apply rdNat_fr); (focus decide)) | (with_reducible apply AFr.bind) | (with_reducible apply AFr.ite)

theorem hotRowBalance_fr {s : State} {t : Nat} {loads : List Nat} {hot : List (Nat × Nat × Bool)} {mk : Nat} {s00 : State} (hmk : 1253756 ||| mk = mk) (hst : Fr mk s00 s) : Fr mk s00 (hotRowBalance s t loads hot) := by
  refine Fr.step (k := 1253756) ?_ hmk hst
  clear hmk hst
  unfold hotRowBalance
  try dsimp only
  repeat' first | with_reducible exact Fr.refl _ _ | ((with_reducible apply balanceMoves_fr); (focus decide)) | ((with_reducible apply offerMove_fr); (focus decide)) | ((with_reducible apply modGth_fr); (focus decide)) | ((with_reducible apply AFr.val_eq); assumption) | split

theorem execGather_fr {e : Nat} {ctx : Nat} {s : State} {t00 : State} (heq0 : execGather e ctx s = .next t00) : Fr 1253756 s t00 := by
  cases heq0
  repeat' first | with_reducible exact Fr.refl _ _ | ((with_reducible apply pumpAll_fr); (focus decide)) | ((with_reducible apply gatherCmd_fr); (focus decide))

theorem execApply_fr {e : Nat} {ctx : Nat} {s : State} {t00 : State} (heq0 : execApply e ctx s = .next t00) : Fr 1253756 s t00 := by
  cases heq0
  repeat' first | with_reducible exact Fr.refl _ _ | ((with_reducible apply pumpAll_fr); (focus decide)) | ((with_reducible apply applyCmd_fr); (focus decide))

theorem execPrefetch_fr {e : Nat} {ctx : Nat} {s : State} {t00 : State} (heq0 : execPrefetch e ctx s = .next t00) : Fr 1253756 s t00 := by
  cases heq0
  repeat' first | with_reducible exact Fr.refl _ _ | ((with_reducible apply pumpAll_fr); (focus decide)) | ((with_reducible apply prefetchCmd_fr); (focus decide))

theorem execGthAttach_fr {e : Nat} {ctx : Nat} {s : State} {t00 : State} (heq0 : execGthAttach e ctx s = .next t00) : Fr 1253756 s t00 := by
  cases heq0
  repeat' first | with_reducible exact Fr.refl _ _ | ((with_reducible apply pumpAll_fr); (focus decide)) | ((with_reducible apply gthAttach_fr); (focus decide))

theorem execGthDetach_fr {e : Nat} {ctx : Nat} {s : State} {t00 : State} (heq0 : execGthDetach e ctx s = .next t00) : Fr 1253756 s t00 := by
  cases heq0
  repeat' first | with_reducible exact Fr.refl _ _ | ((with_reducible apply pumpAll_fr); (focus decide)) | ((with_reducible apply gthDetach_fr); (focus decide))

theorem execMigrate_fr {e : Nat} {ctx : Nat} {s : State} {t00 : State} (heq0 : execMigrate e ctx s = .next t00) : Fr 1253756 s t00 := by
  cases heq0
  repeat' first | with_reducible exact Fr.refl _ _ | ((with_reducible apply offerMove_fr); (focus decide)) | ((with_reducible apply migrateCmd_fr); (focus decide))

theorem execRowRequestServe_fr {e : Nat} {rid : Nat} {s : State} {t00 : State} (heq0 : execRowRequestServe e rid s = .next t00) : Fr 1253756 s t00 := by
  cases heq0
  repeat' first | with_reducible exact Fr.refl _ _ | ((with_reducible apply serveRow_fr); (focus decide))

theorem execRowUpdateApply_fr {e : Nat} {rid : Nat} {s : State} {t00 : State} (heq0 : execRowUpdateApply e rid s = .next t00) : Fr 1253756 s t00 := by
  cases heq0
  repeat' first | with_reducible exact Fr.refl _ _ | ((with_reducible apply serveRow_fr); (focus decide))

theorem execLoadEpochStep_fr {s : State} {t00 : State} (heq0 : execLoadEpochStep s = .next t00) : Fr 8192 s t00 := by
  cases heq0
  repeat' first | with_reducible exact Fr.refl _ _ | ((with_reducible apply loadEpochStep_fr); (focus decide))

theorem execHotRowBalance_fr {t : Nat} {loads : List Nat} {hot : List (Nat × Nat × Bool)} {s : State} {t00 : State} (heq0 : execHotRowBalance t loads hot s = .next t00) : Fr 1253756 s t00 := by
  cases heq0
  repeat' first | with_reducible exact Fr.refl _ _ | ((with_reducible apply hotRowBalance_fr); (focus decide))

end Sys2Proof.Laws
end

