-- ==== Sys2Proof/Laws/FramesModule.lean ====
section
/-! SUPPORT. Frames of clearing, partitions, ferry operations, boot, resets, power, registers, the management path: the parts of the state that each function may change. -/

namespace Sys2Proof.Laws

open Sys2Proof.Machine

set_option Elab.async false

/-! ### Clear -/

theorem completeAll_fr {s : State} {e : Eng} {st : Status} {l : List (Nat × QCmd)} {mk : Nat} {s00 : State} (hmk : 1253756 ||| mk = mk) (hst : Fr mk s00 s) : Fr mk s00 (completeAll s e st l) := by
  refine Fr.step (k := 1253756) ?_ hmk hst
  clear hmk hst
  unfold completeAll
  try dsimp only
  repeat' first | with_reducible assumption | with_reducible exact Fr.refl _ _ | intro _ | ((with_reducible apply completeCmd_fr); (focus decide)) | (with_reducible apply Fr.foldl)

theorem stopSsu_fr {s : State} {e : Eng} {st : Status} {l : List (Nat × QCmd)} {mk : Nat} {s00 : State} (hmk : 1050668 ||| mk = mk) (hst : Fr mk s00 s) : Fr mk s00 (stopSsu s e st l) := by
  refine Fr.step (k := 1050668) ?_ hmk hst
  clear hmk hst
  unfold stopSsu
  try dsimp only
  repeat' first | with_reducible assumption | with_reducible exact Fr.refl _ _ | intro _ | ((with_reducible apply ssuSummarize_fr); (focus decide)) | ((with_reducible apply modSsu_fr); (focus decide)) | (with_reducible apply Fr.ite) | (with_reducible apply Fr.foldl)

theorem stopQueued_fr {s : State} {e : Eng} {test : Nat → Bool} {st : Status} {mk : Nat} {s00 : State} (hmk : 1255804 ||| mk = mk) (hst : Fr mk s00 s) : Fr mk s00 (stopQueued s e test st) := by
  refine Fr.step (k := 1255804) ?_ hmk hst
  clear hmk hst
  unfold stopQueued
  try dsimp only
  repeat' first | with_reducible exact Fr.refl _ _ | ((with_reducible apply modEng_fr); (focus decide)) | ((with_reducible apply completeAll_fr); (focus decide)) | ((with_reducible apply stopSsu_fr); (focus decide))

theorem dropOps_fr {s : State} {test : Waiter → Bool} {mk : Nat} {s00 : State} (hmk : 256 ||| mk = mk) (hst : Fr mk s00 s) : Fr mk s00 (dropOps s test) := by
  refine Fr.step (k := 256) ?_ hmk hst
  clear hmk hst
  unfold dropOps
  try dsimp only
  repeat' first | with_reducible exact Fr.refl _ _ | ((with_reducible apply Fr.setFry); (focus decide))

theorem undoMigrate_fr {s : State} {e : Nat} {c : Nat} {op : GthOp} {mk : Nat} {s00 : State} (hmk : 1057068 ||| mk = mk) (hst : Fr mk s00 s) : Fr mk s00 (undoMigrate s e c op) := by
  refine Fr.step (k := 1057068) ?_ hmk hst
  clear hmk hst
  unfold undoMigrate
  try dsimp only
  repeat' first | with_reducible exact Fr.refl _ _ | ((with_reducible apply releaseRow_fr); (focus decide)) | ((with_reducible apply undoMove_fr); (focus decide)) | (with_reducible apply AFr.run) | split

theorem stopRunning_fr {s : State} {e : Eng} {test : Nat → Bool} {st : Status} {mk : Nat} {s00 : State} (hmk : 3374972 ||| mk = mk) (hst : Fr mk s00 s) : Fr mk s00 (stopRunning s e test st) := by
  refine Fr.step (k := 3374972) ?_ hmk hst
  clear hmk hst
  unfold stopRunning
  try dsimp only
  repeat' first | with_reducible assumption | with_reducible exact Fr.refl _ _ | intro _ | ((with_reducible apply modCore_fr); (focus decide)) | ((with_reducible apply completeAll_fr); (focus decide)) | ((with_reducible apply dropOps_fr); (focus decide)) | ((with_reducible apply endColl_fr); (focus decide)) | ((with_reducible apply undoMigrate_fr); (focus decide)) | ((with_reducible apply modGe_fr); (focus decide)) | ((with_reducible apply modGth_fr); (focus decide)) | ((with_reducible apply endAttaches_fr); (focus decide)) | ((with_reducible apply modSlice_fr); (focus decide)) | ((with_reducible apply modRouter_fr); (focus decide)) | ((with_reducible apply tokenizeEnd_fr); (focus decide)) | ((with_reducible apply modGrd_fr); (focus decide)) | (with_reducible apply Fr.foldl) | split | ((with_reducible apply Fr.setGth); (focus decide)) | ((with_reducible apply Fr.setBarges); (focus decide))

theorem flushHalted_fr {s : State} {mk : Nat} {s00 : State} (hmk : 1255804 ||| mk = mk) (hst : Fr mk s00 s) : Fr mk s00 (flushHalted s) := by
  refine Fr.step (k := 1255804) ?_ hmk hst
  clear hmk hst
  unfold flushHalted
  try dsimp only
  repeat' first | with_reducible assumption | with_reducible exact Fr.refl _ _ | intro _ | ((with_reducible apply modQ_fr); (focus decide)) | ((with_reducible apply stopSsu_fr); (focus decide)) | ((with_reducible apply completeCmd_fr); (focus decide)) | (with_reducible apply Fr.foldl) | split

theorem clearOnCore_fr {s : State} {k : Nat} {c : Nat} {mk : Nat} {s00 : State} (hmk : 2097216 ||| mk = mk) (hst : Fr mk s00 s) : Fr mk s00 (clearOnCore s k c) := by
  refine Fr.step (k := 2097216) ?_ hmk hst
  clear hmk hst
  unfold clearOnCore
  try dsimp only
  repeat' first | with_reducible exact Fr.refl _ _ | intro _ | (with_reducible apply Fr.ite) | ((with_reducible apply Fr.setCoresFreeCtr); (focus decide))

theorem clearContext_fr {s : State} {c : Nat} {mk : Nat} {s00 : State} (hmk : 3149948 ||| mk = mk) (hst : Fr mk s00 s) : Fr mk s00 (clearContext s c) := by
  refine Fr.step (k := 3149948) ?_ hmk hst
  clear hmk hst
  unfold clearContext
  try dsimp only
  repeat' first | with_reducible assumption | with_reducible exact Fr.refl _ _ | intro _ | ((with_reducible apply clearOnCore_fr); (focus decide)) | ((with_reducible apply unpinAll_fr); (focus decide)) | ((with_reducible apply dropSchedule_fr); (focus decide)) | ((with_reducible apply dropShards_fr); (focus decide)) | (with_reducible apply Fr.foldl) | ((with_reducible apply Fr.setEngs); (focus decide))

theorem clearFaults_fr {s : State} {test : Nat → Bool} {mk : Nat} {s00 : State} (hmk : 16 ||| mk = mk) (hst : Fr mk s00 s) : Fr mk s00 (clearFaults s test) := by
  refine Fr.step (k := 16) ?_ hmk hst
  clear hmk hst
  unfold clearFaults
  try dsimp only
  repeat' first | with_reducible exact Fr.refl _ _ | ((with_reducible apply Fr.setEngs); (focus decide))

theorem disableConsumed_fr {s : State} {test : Nat → Bool} {mk : Nat} {s00 : State} (hmk : 1254908 ||| mk = mk) (hst : Fr mk s00 s) : Fr mk s00 (disableConsumed s test) := by
  refine Fr.step (k := 1254908) ?_ hmk hst
  clear hmk hst
  unfold disableConsumed
  try dsimp only
  repeat' first | with_reducible assumption | with_reducible exact Fr.refl _ _ | intro _ | ((with_reducible apply disableQueue_fr); (focus decide)) | (with_reducible apply Fr.foldl)

theorem clearContexts_fr {s : State} {l : List Nat} {mk : Nat} {s00 : State} (hmk : 3356156 ||| mk = mk) (hst : Fr mk s00 s) : Fr mk s00 (clearContexts s l) := by
  refine Fr.step (k := 3356156) ?_ hmk hst
  clear hmk hst
  unfold clearContexts
  try dsimp only
  repeat' first | with_reducible assumption | with_reducible exact Fr.refl _ _ | intro _ | ((with_reducible apply clearFaults_fr); (focus decide)) | ((with_reducible apply disableConsumed_fr); (focus decide)) | ((with_reducible apply clearContext_fr); (focus decide)) | (with_reducible apply Fr.foldl)

theorem background_fr {s : State} {e : Eng} {forced : Bool} {f : Finding} {mk : Nat} {s00 : State} (hmk : 1048612 ||| mk = mk) (hst : Fr mk s00 s) : Fr mk s00 (background s e forced f) := by
  refine Fr.step (k := 1048612) ?_ hmk hst
  clear hmk hst
  unfold background
  try dsimp only
  repeat' first | with_reducible exact Fr.refl _ _ | ((with_reducible apply modStack_fr); (focus decide)) | ((with_reducible apply noteHbmBad_fr); (focus decide)) | ((with_reducible apply modDeck_fr); (focus decide)) | ((with_reducible apply noteSramBad_fr); (focus decide)) | split | ((with_reducible apply Fr.setMem); (focus decide); (focus exact fun h => h))

theorem execBackgroundUnit_fr {e : Eng} {forced : Bool} {f : Finding} {s : State} {t00 : State} (heq0 : execBackgroundUnit e forced f s = .next t00) : Fr 1048612 s t00 := by
  cases heq0
  repeat' first | with_reducible assumption | with_reducible exact Fr.refl _ _ | intro _ | ((with_reducible apply background_fr); (focus decide))

/-! ### Partition -/

-- HO
theorem prtWrite_fr {s : State} {a : Agent} {off : Nat} {v : W64} {f : State → State} {mk : Nat} {s00 : State} (hmk : 1048580 ||| mk = mk) (hf : ∀ t, Fr mk s00 t → Fr mk s00 (f t)) (hst : Fr mk s00 s) : Fr mk s00 (prtWrite s a off v f) := by
  unfold prtWrite
  try dsimp only
  repeat' first | with_reducible assumption | intro _ | ((with_reducible apply protWrite_fr); (focus first | decide | exact sub_trans (by decide) hmk)) | (with_reducible apply hf) | (with_reducible apply Fr.ite)

theorem enableCtx_fr {s : State} {c : Nat} {mk : Nat} {s00 : State} (hmk : 1048588 ||| mk = mk) (hst : Fr mk s00 s) : Fr mk s00 (enableCtx s c) := by
  refine Fr.step (k := 1048588) ?_ hmk hst
  clear hmk hst
  unfold enableCtx
  try dsimp only
  repeat' first | with_reducible exact Fr.refl _ _ | intro _ | ((with_reducible apply modCtx_fr); (focus decide)) | ((with_reducible apply logEntry_fr); (focus decide)) | (with_reducible apply Fr.ite)

theorem abortColls_fr {s : State} {c : Nat} {mk : Nat} {s00 : State} (hmk : 512 ||| mk = mk) (hst : Fr mk s00 s) : Fr mk s00 (abortColls s c) := by
  refine Fr.step (k := 512) ?_ hmk hst
  clear hmk hst
  unfold abortColls
  try dsimp only
  repeat' first | with_reducible exact Fr.refl _ _ | ((with_reducible apply Fr.setBarges); (focus decide))

theorem disableCtx_fr {s : State} {c : Nat} {mk : Nat} {s00 : State} (hmk : 3373948 ||| mk = mk) (hst : Fr mk s00 s) : Fr mk s00 (disableCtx s c) := by
  refine Fr.step (k := 3373948) ?_ hmk hst
  clear hmk hst
  unfold disableCtx
  try dsimp only
  repeat' first | with_reducible assumption | with_reducible exact Fr.refl _ _ | intro _ | ((with_reducible apply modCtx_fr); (focus decide)) | ((with_reducible apply markQueued_fr); (focus decide)) | ((with_reducible apply stopTokenize_fr); (focus decide)) | ((with_reducible apply abortGather_fr); (focus decide)) | ((with_reducible apply abortColls_fr); (focus decide)) | ((with_reducible apply abortQueries_fr); (focus decide)) | ((with_reducible apply endAttaches_fr); (focus decide)) | ((with_reducible apply flushHalted_fr); (focus decide)) | ((with_reducible apply disableReqs_fr); (focus decide)) | (with_reducible apply Fr.foldl)

theorem ctxCfgWrite_fr {s : State} {c : Nat} {v : W64} {mk : Nat} {s00 : State} (hmk : 3373948 ||| mk = mk) (hst : Fr mk s00 s) : Fr mk s00 (ctxCfgWrite s c v) := by
  refine Fr.step (k := 3373948) ?_ hmk hst
  clear hmk hst
  unfold ctxCfgWrite
  try dsimp only
  repeat' first | with_reducible exact Fr.refl _ _ | ((with_reducible apply modCtx_fr); (focus decide)) | ((with_reducible apply enableCtx_fr); (focus decide)) | ((with_reducible apply disableCtx_fr); (focus decide)) | split

theorem contextEnable_fr {s : State} {a : Agent} {c : Nat} {v : W64} {mk : Nat} {s00 : State} (hmk : 3373948 ||| mk = mk) (hst : Fr mk s00 s) : Fr mk s00 (contextEnable s a c v) := by
  refine Fr.step (k := 3373948) ?_ hmk hst
  clear hmk hst
  unfold contextEnable
  try dsimp only
  repeat' first | with_reducible assumption | with_reducible exact Fr.refl _ _ | intro _ | ((with_reducible apply prtWrite_fr); (focus decide)) | ((with_reducible apply ctxCfgWrite_fr); (focus decide)) | (with_reducible apply Fr.ite)

theorem contextDisable_fr {s : State} {a : Agent} {c : Nat} {v : W64} {mk : Nat} {s00 : State} (hmk : 3373948 ||| mk = mk) (hst : Fr mk s00 s) : Fr mk s00 (contextDisable s a c v) := by
  refine Fr.step (k := 3373948) ?_ hmk hst
  clear hmk hst
  unfold contextDisable
  try dsimp only
  repeat' first | with_reducible assumption | with_reducible exact Fr.refl _ _ | intro _ | ((with_reducible apply prtWrite_fr); (focus decide)) | ((with_reducible apply ctxCfgWrite_fr); (focus decide)) | (with_reducible apply Fr.ite)

theorem queryCtxSet_fr {s : State} {p : Nat} {v : W64} {mk : Nat} {s00 : State} (hmk : 8 ||| mk = mk) (hst : Fr mk s00 s) : Fr mk s00 (queryCtxSet s p v) := by
  refine Fr.step (k := 8) ?_ hmk hst
  clear hmk hst
  unfold queryCtxSet
  try dsimp only
  repeat' first | with_reducible exact Fr.refl _ _ | ((with_reducible apply modPart_fr); (focus decide))

theorem queryCtxWrite_fr {s : State} {a : Agent} {p : Nat} {v : W64} {mk : Nat} {s00 : State} (hmk : 1048588 ||| mk = mk) (hst : Fr mk s00 s) : Fr mk s00 (queryCtxWrite s a p v) := by
  refine Fr.step (k := 1048588) ?_ hmk hst
  clear hmk hst
  unfold queryCtxWrite
  try dsimp only
  repeat' first | with_reducible assumption | with_reducible exact Fr.refl _ _ | intro _ | ((with_reducible apply prtWrite_fr); (focus decide)) | ((with_reducible apply queryCtxSet_fr); (focus decide)) | (with_reducible apply Fr.ite)

theorem bucketSet_fr {s : State} {p : Nat} {k : Nat} {v : W64} {mk : Nat} {s00 : State} (hmk : 8 ||| mk = mk) (hst : Fr mk s00 s) : Fr mk s00 (bucketSet s p k v) := by
  refine Fr.step (k := 8) ?_ hmk hst
  clear hmk hst
  unfold bucketSet
  try dsimp only
  repeat' first | with_reducible exact Fr.refl _ _ | ((with_reducible apply modPart_fr); (focus decide))

theorem bucketEnable_fr {s : State} {a : Agent} {p : Nat} {k : Nat} {v : W64} {mk : Nat} {s00 : State} (hmk : 1048588 ||| mk = mk) (hst : Fr mk s00 s) : Fr mk s00 (bucketEnable s a p k v) := by
  refine Fr.step (k := 1048588) ?_ hmk hst
  clear hmk hst
  unfold bucketEnable
  try dsimp only
  repeat' first | with_reducible assumption | with_reducible exact Fr.refl _ _ | intro _ | ((with_reducible apply prtWrite_fr); (focus decide)) | ((with_reducible apply bucketSet_fr); (focus decide)) | (with_reducible apply Fr.ite)

theorem pieceAdmit_fr {s : State} {p : Nat} {k : Nat} {piece : Option Nat} {mk : Nat} {s00 : State} (hmk : 8 ||| mk = mk) (hst : Fr mk s00 s) : Fr mk s00 (pieceAdmit s p k piece) := by
  refine Fr.step (k := 8) ?_ hmk hst
  clear hmk hst
  unfold pieceAdmit
  try dsimp only
  repeat' first | with_reducible exact Fr.refl _ _ | intro _ | ((with_reducible apply modPart_fr); (focus decide)) | (with_reducible apply Fr.ite)

theorem tick_fr {s : State} {mk : Nat} {s00 : State} (hmk : 13 ||| mk = mk) (hst : Fr mk s00 s) : Fr mk s00 (tick s) := by
  refine Fr.step (k := 13) ?_ hmk hst
  clear hmk hst
  unfold tick
  try dsimp only
  repeat' first | with_reducible exact Fr.refl _ _ | ((with_reducible apply Fr.setHubEvtPrt); (focus decide))

theorem refuseDescriptor_fr {s : State} {m : Nat} {i : Nat} {mk : Nat} {s00 : State} (hmk : 2162688 ||| mk = mk) (hst : Fr mk s00 s) : Fr mk s00 (refuseDescriptor s m i) := by
  refine Fr.step (k := 2162688) ?_ hmk hst
  clear hmk hst
  unfold refuseDescriptor
  try dsimp only
  repeat' first | with_reducible exact Fr.refl _ _ | ((with_reducible apply takeFree_fr); (focus decide)) | ((with_reducible apply modMb_fr); (focus decide))

theorem stopCmd_fr {s : State} {id : Nat} {c : PCmd} {mk : Nat} {s00 : State} (hmk : 2293762 ||| mk = mk) (hst : Fr mk s00 s) : Fr mk s00 (stopCmd s id c) := by
  refine Fr.step (k := 2293762) ?_ hmk hst
  clear hmk hst
  unfold stopCmd
  try dsimp only
  repeat' first | with_reducible exact Fr.refl _ _ | ((with_reducible apply endCmd_fr); (focus decide)) | ((with_reducible apply endPlain_fr); (focus decide)) | split | ((with_reducible apply Fr.setPwr); (focus decide))

theorem mailboxClose_fr {s : State} {a : Agent} {m : Nat} {mk : Nat} {s00 : State} (hmk : 3342638 ||| mk = mk) (hst : Fr mk s00 s) : Fr mk s00 (mailboxClose s a m) := by
  refine Fr.step (k := 3342638) ?_ hmk hst
  clear hmk hst
  unfold mailboxClose
  try dsimp only
  repeat' first | with_reducible assumption | with_reducible exact Fr.refl _ _ | intro _ | ((with_reducible apply mbRefuse_fr); (focus decide)) | ((with_reducible apply modMb_fr); (focus decide)) | ((with_reducible apply refuseDescriptor_fr); (focus decide)) | ((with_reducible apply stopCmd_fr); (focus decide)) | ((with_reducible apply disableReqs_fr); (focus decide)) | (with_reducible apply Fr.ite) | (with_reducible apply Fr.foldl)

theorem unload_fr {s : State} {c : Nat} {mk : Nat} {s00 : State} (hmk : 3369340 ||| mk = mk) (hst : Fr mk s00 s) : Fr mk s00 (unload s c) := by
  refine Fr.step (k := 3369340) ?_ hmk hst
  clear hmk hst
  unfold unload
  try dsimp only
  repeat' first | with_reducible assumption | with_reducible exact Fr.refl _ _ | intro _ | ((with_reducible apply unloadHead_fr); (focus decide)) | ((with_reducible apply flushHalted_fr); (focus decide)) | ((with_reducible apply disableReqs_fr); (focus decide))

theorem contextFinish_fr {s : State} {c : Nat} {mk : Nat} {s00 : State} (hmk : 3356156 ||| mk = mk) (hst : Fr mk s00 s) : Fr mk s00 (contextFinish s c) := by
  refine Fr.step (k := 3356156) ?_ hmk hst
  clear hmk hst
  unfold contextFinish
  try dsimp only
  repeat' first | with_reducible exact Fr.refl _ _ | intro _ | ((with_reducible apply modCtx_fr); (focus decide)) | ((with_reducible apply clearContexts_fr); (focus decide)) | (with_reducible apply Fr.ite)

theorem mailboxFinish_fr {s : State} {m : Nat} {mk : Nat} {s00 : State} (hmk : 65536 ||| mk = mk) (hst : Fr mk s00 s) : Fr mk s00 (mailboxFinish s m) := by
  refine Fr.step (k := 65536) ?_ hmk hst
  clear hmk hst
  unfold mailboxFinish
  try dsimp only
  repeat' first | with_reducible exact Fr.refl _ _ | intro _ | ((with_reducible apply modMb_fr); (focus decide)) | (with_reducible apply Fr.ite)

theorem disableFinish_fr {s : State} {f : DisableFn} {mk : Nat} {s00 : State} (hmk : 3374588 ||| mk = mk) (hst : Fr mk s00 s) : Fr mk s00 (disableFinish s f) := by
  refine Fr.step (k := 3374588) ?_ hmk hst
  clear hmk hst
  unfold disableFinish
  try dsimp only
  repeat' first | with_reducible exact Fr.refl _ _ | ((with_reducible apply flushHalted_fr); (focus decide)) | ((with_reducible apply mailboxFinish_fr); (focus decide)) | ((with_reducible apply contextFinish_fr); (focus decide)) | ((with_reducible apply detachFinish_fr); (focus decide)) | ((with_reducible apply tableFinish_fr); (focus decide)) | ((with_reducible apply slotFinish_fr); (focus decide)) | split

theorem descriptorTake_fr {s : State} {m : Nat} {mk : Nat} {s00 : State} (hmk : 3342636 ||| mk = mk) (hst : Fr mk s00 s) : Fr mk s00 (descriptorTake s m) := by
  refine Fr.step (k := 3342636) ?_ hmk hst
  clear hmk hst
  unfold descriptorTake
  try dsimp only
  repeat' first | with_reducible exact Fr.refl _ _ | intro _ | ((with_reducible apply modMb_fr); (focus decide)) | ((with_reducible apply putCmd_fr); (focus decide)) | ((with_reducible apply takeFree_fr); (focus decide)) | ((with_reducible apply endCmd_fr); (focus decide)) | ((with_reducible apply endPlain_fr); (focus decide)) | ((with_reducible apply takeStage_fr); (focus decide)) | (with_reducible apply Fr.ite) | ((with_reducible apply Fr.setPur); (focus decide))

theorem execContextEnable_fr {agent : Agent} {c : Nat} {v : W64} {s : State} {t00 : State} (heq0 : execContextEnable agent c v s = .next t00) : Fr 3373948 s t00 := by
  cases heq0
  repeat' first | with_reducible exact Fr.refl _ _ | ((with_reducible apply contextEnable_fr); (focus decide))

theorem execContextDisable_fr {agent : Agent} {c : Nat} {v : W64} {s : State} {t00 : State} (heq0 : execContextDisable agent c v s = .next t00) : Fr 3373948 s t00 := by
  cases heq0
  repeat' first | with_reducible exact Fr.refl _ _ | ((with_reducible apply contextDisable_fr); (focus decide))

theorem execQueryCtxWrite_fr {agent : Agent} {p : Nat} {v : W64} {s : State} {t00 : State} (heq0 : execQueryCtxWrite agent p v s = .next t00) : Fr 1048588 s t00 := by
  cases heq0
  repeat' first | with_reducible exact Fr.refl _ _ | ((with_reducible apply queryCtxWrite_fr); (focus decide))

theorem execBucketEnable_fr {agent : Agent} {p : Nat} {k : Nat} {v : W64} {s : State} {t00 : State} (heq0 : execBucketEnable agent p k v s = .next t00) : Fr 1048588 s t00 := by
  cases heq0
  repeat' first | with_reducible exact Fr.refl _ _ | ((with_reducible apply bucketEnable_fr); (focus decide))

theorem execBucketPieceAdmit_fr {p : Nat} {k : Nat} {piece : Option Nat} {s : State} {t00 : State} (heq0 : execBucketPieceAdmit p k piece s = .next t00) : Fr 8 s t00 := by
  cases heq0
  repeat' first | with_reducible exact Fr.refl _ _ | ((with_reducible apply pieceAdmit_fr); (focus decide))

theorem execMailboxClose_fr {agent : Agent} {m : Nat} {s : State} {t00 : State} (heq0 : execMailboxClose agent m s = .next t00) : Fr 3342638 s t00 := by
  cases heq0
  repeat' first | with_reducible exact Fr.refl _ _ | ((with_reducible apply mailboxClose_fr); (focus decide))

theorem execUnload_fr {ctx : Nat} {s : State} {t00 : State} (heq0 : execUnload ctx s = .next t00) : Fr 3369340 s t00 := by
  cases heq0
  repeat' first | with_reducible exact Fr.refl _ _ | ((with_reducible apply unload_fr); (focus decide))

theorem execDisableFinish_fr {f : DisableFn} {s : State} {t00 : State} (heq0 : execDisableFinish f s = .next t00) : Fr 3374588 s t00 := by
  cases heq0
  repeat' first | with_reducible exact Fr.refl _ _ | ((with_reducible apply disableFinish_fr); (focus decide))

theorem execDescriptorTake_fr {m : Nat} {s : State} {t00 : State} (heq0 : execDescriptorTake m s = .next t00) : Fr 3342636 s t00 := by
  cases heq0
  repeat' first | with_reducible assumption | with_reducible exact Fr.refl _ _ | intro _ | ((with_reducible apply descriptorTake_fr); (focus decide))

/-! ### FerryOps -/

-- HO
theorem byAgent_fr {s : State} {a : Agent} {f : State → State} {mk : Nat} {s00 : State} (hmk : 0 ||| mk = mk) (hf : ∀ t, Fr mk s00 t → Fr mk s00 (f t)) (hst : Fr mk s00 s) : Fr mk s00 (byAgent s a f) := by
  unfold byAgent
  try dsimp only
  repeat' first | with_reducible assumption | intro _ | (with_reducible apply hf) | (with_reducible apply Fr.ite)

theorem endWaiter_fr {s : State} {o : FerryOp} {st : Status} {back : Bool} {mk : Nat} {s00 : State} (hmk : 3352572 ||| mk = mk) (hst : Fr mk s00 s) : Fr mk s00 (endWaiter s o st back) := by
  refine Fr.step (k := 3352572) ?_ hmk hst
  clear hmk hst
  unfold endWaiter
  try dsimp only
  repeat' first | with_reducible exact Fr.refl _ _ | ((with_reducible apply completeCmd_fr); (focus decide)) | ((with_reducible apply modAccount_fr); (focus decide)) | ((with_reducible apply dispatchEnded_fr); (focus decide)) | ((with_reducible apply notifyEnded_fr); (focus decide)) | ((with_reducible apply migrateEnded_fr); (focus decide)) | ((with_reducible apply rowDone_fr); (focus decide)) | ((with_reducible apply chunkEnded_fr); (focus decide)) | split | ((with_reducible apply Fr.setBarges); (focus decide))

theorem dropOp_fr {s : State} {t : Nat} {mk : Nat} {s00 : State} (hmk : 256 ||| mk = mk) (hst : Fr mk s00 s) : Fr mk s00 (dropOp s t) := by
  refine Fr.step (k := 256) ?_ hmk hst
  clear hmk hst
  unfold dropOp
  try dsimp only
  repeat' first | with_reducible exact Fr.refl _ _ | ((with_reducible apply modFry_fr); (focus decide))

theorem endOp_fr {s : State} {t : Nat} {st : Status} {back : Bool} {mk : Nat} {s00 : State} (hmk : 3352572 ||| mk = mk) (hst : Fr mk s00 s) : Fr mk s00 (endOp s t st back) := by
  refine Fr.step (k := 3352572) ?_ hmk hst
  clear hmk hst
  unfold endOp
  try dsimp only
  repeat' first | with_reducible assumption | with_reducible exact Fr.refl _ _ | ((with_reducible apply endWaiter_fr); (focus decide)) | ((with_reducible apply dropOp_fr); (focus decide)) | split

theorem pathEvent_fr {s : State} {p : Nat} {x : Nat} {mk : Nat} {s00 : State} (hmk : 1048580 ||| mk = mk) (hst : Fr mk s00 s) : Fr mk s00 (pathEvent s p x) := by
  refine Fr.step (k := 1048580) ?_ hmk hst
  clear hmk hst
  unfold pathEvent
  try dsimp only
  repeat' first | with_reducible exact Fr.refl _ _ | ((with_reducible apply raise_fr); (focus decide))

theorem rowLost_fr {s : State} {x : Nat} {ctx : Nat} {m : Nat} {tag : BitVec 32} {mk : Nat} {s00 : State} (hmk : 256 ||| mk = mk) (hst : Fr mk s00 s) : Fr mk s00 (rowLost s x ctx m tag) := by
  refine Fr.step (k := 256) ?_ hmk hst
  clear hmk hst
  unfold rowLost
  try dsimp only
  repeat' first | with_reducible exact Fr.refl _ _ | ((with_reducible apply choosePort_fr); assumption; (focus decide)) | ((with_reducible apply queueFrame_fr); (focus decide)) | split

theorem dropServed_fr {s : State} {p : Nat} {x : Nat} {frames : List FFrame} {mk : Nat} {s00 : State} (hmk : 1253756 ||| mk = mk) (hst : Fr mk s00 s) : Fr mk s00 (dropServed s p x frames) := by
  refine Fr.step (k := 1253756) ?_ hmk hst
  clear hmk hst
  unfold dropServed
  try dsimp only
  repeat' first | with_reducible assumption | with_reducible exact Fr.refl _ _ | intro _ | ((with_reducible apply modFry_fr); (focus decide)) | ((with_reducible apply modGth_fr); (focus decide)) | ((with_reducible apply rowLost_fr); (focus decide)) | ((with_reducible apply rowDone_fr); (focus decide)) | (with_reducible apply Fr.foldl) | split

theorem loseMaps_fr {s : State} {x : Nat} {mk : Nat} {s00 : State} (hmk : 131328 ||| mk = mk) (hst : Fr mk s00 s) : Fr mk s00 (loseMaps s x) := by
  refine Fr.step (k := 131328) ?_ hmk hst
  clear hmk hst
  unfold loseMaps
  try dsimp only
  repeat' first | with_reducible exact Fr.refl _ _ | intro _ | (with_reducible apply Fr.ite) | ((with_reducible apply Fr.setPur); (focus decide))

theorem loseAnswers_fr {s : State} {x : Nat} {mk : Nat} {s00 : State} (hmk : 2294016 ||| mk = mk) (hst : Fr mk s00 s) : Fr mk s00 (loseAnswers s x) := by
  refine Fr.step (k := 2294016) ?_ hmk hst
  clear hmk hst
  unfold loseAnswers
  try dsimp only
  repeat' first | with_reducible assumption | with_reducible exact Fr.refl _ _ | intro _ | ((with_reducible apply endPlain_fr); (focus decide)) | (with_reducible apply Fr.ite) | (with_reducible apply Fr.foldl) | ((with_reducible apply Fr.setPur); (focus decide))

theorem pathLost_fr {s : State} {p : Nat} {x : Nat} {mk : Nat} {s00 : State} (hmk : 3352572 ||| mk = mk) (hst : Fr mk s00 s) : Fr mk s00 (pathLost s p x) := by
  refine Fr.step (k := 3352572) ?_ hmk hst
  clear hmk hst
  unfold pathLost
  try dsimp only
  repeat' first | with_reducible assumption | with_reducible exact Fr.refl _ _ | intro _ | ((with_reducible apply pathEvent_fr); (focus decide)) | ((with_reducible apply modPath_fr); (focus decide)) | ((with_reducible apply dropServed_fr); (focus decide)) | ((with_reducible apply endOp_fr); (focus decide)) | ((with_reducible apply gatherPathLost_fr); (focus decide)) | ((with_reducible apply loseMaps_fr); (focus decide)) | ((with_reducible apply loseAnswers_fr); (focus decide)) | ((with_reducible apply collPathLost_fr); (focus decide)) | ((with_reducible apply slipPathLost_fr); (focus decide)) | ((with_reducible apply startSync_fr); (focus decide)) | ((with_reducible apply announceGrants_fr); (focus decide)) | (with_reducible apply Fr.ite) | (with_reducible apply Fr.foldl)

theorem pathGoesUp_fr {s : State} {p : Nat} {x : Nat} {f : FFrame} {mk : Nat} {s00 : State} (hmk : 256 ||| mk = mk) (hst : Fr mk s00 s) : Fr mk s00 (pathGoesUp s p x f) := by
  refine Fr.step (k := 256) ?_ hmk hst
  clear hmk hst
  unfold pathGoesUp
  try dsimp only
  repeat' first | with_reducible exact Fr.refl _ _ | ((with_reducible apply modPath_fr); (focus decide)) | ((with_reducible apply applyGrants_fr); (focus decide))

theorem syncPort_fr {s : State} {p : Nat} {mk : Nat} {s00 : State} (hmk : 1048832 ||| mk = mk) (hst : Fr mk s00 s) : Fr mk s00 (syncPort s p) := by
  refine Fr.step (k := 1048832) ?_ hmk hst
  clear hmk hst
  unfold syncPort
  try dsimp only
  repeat' first | with_reducible assumption | with_reducible exact Fr.refl _ _ | intro _ | ((with_reducible apply startSync_fr); (focus decide)) | (with_reducible apply Fr.foldl) | split

theorem syncPorts_fr {s : State} {mk : Nat} {s00 : State} (hmk : 1048832 ||| mk = mk) (hst : Fr mk s00 s) : Fr mk s00 (syncPorts s) := by
  refine Fr.step (k := 1048832) ?_ hmk hst
  clear hmk hst
  unfold syncPorts
  try dsimp only
  repeat' first | with_reducible assumption | with_reducible exact Fr.refl _ _ | intro _ | ((with_reducible apply syncPort_fr); (focus decide)) | (with_reducible apply Fr.foldl)

theorem losePort_fr {s : State} {p : Nat} {mk : Nat} {s00 : State} (hmk : 3352572 ||| mk = mk) (hst : Fr mk s00 s) : Fr mk s00 (losePort s p) := by
  refine Fr.step (k := 3352572) ?_ hmk hst
  clear hmk hst
  unfold losePort
  try dsimp only
  repeat' first | with_reducible assumption | with_reducible exact Fr.refl _ _ | intro _ | ((with_reducible apply modFry_fr); (focus decide)) | ((with_reducible apply modPort_fr); (focus decide)) | ((with_reducible apply pathLost_fr); (focus decide)) | (with_reducible apply Fr.foldl)

theorem portCfgWrite_fr {s : State} {p : Nat} {v : W64} {mk : Nat} {s00 : State} (hmk : 3352572 ||| mk = mk) (hst : Fr mk s00 s) : Fr mk s00 (portCfgWrite s p v) := by
  refine Fr.step (k := 3352572) ?_ hmk hst
  clear hmk hst
  unfold portCfgWrite
  try dsimp only
  repeat' first | with_reducible exact Fr.refl _ _ | intro _ | ((with_reducible apply modPort_fr); (focus decide)) | ((with_reducible apply losePort_fr); (focus decide)) | ((with_reducible apply syncPort_fr); (focus decide)) | (with_reducible apply Fr.ite)

theorem portEnable_fr {s : State} {a : Agent} {p : Nat} {v : W64} {mk : Nat} {s00 : State} (hmk : 3352572 ||| mk = mk) (hst : Fr mk s00 s) : Fr mk s00 (portEnable s a p v) := by
  refine Fr.step (k := 3352572) ?_ hmk hst
  clear hmk hst
  unfold portEnable
  try dsimp only
  repeat' first | with_reducible assumption | with_reducible exact Fr.refl _ _ | intro _ | ((with_reducible apply byAgent_fr); (focus decide)) | ((with_reducible apply portCfgWrite_fr); (focus decide)) | (with_reducible apply Fr.ite)

theorem portDisable_fr {s : State} {a : Agent} {p : Nat} {v : W64} {mk : Nat} {s00 : State} (hmk : 3352572 ||| mk = mk) (hst : Fr mk s00 s) : Fr mk s00 (portDisable s a p v) := by
  refine Fr.step (k := 3352572) ?_ hmk hst
  clear hmk hst
  unfold portDisable
  try dsimp only
  repeat' first | with_reducible assumption | with_reducible exact Fr.refl _ _ | intro _ | ((with_reducible apply byAgent_fr); (focus decide)) | ((with_reducible apply portCfgWrite_fr); (focus decide)) | (with_reducible apply Fr.ite)

theorem portLinkUp_fr {s : State} {p : Nat} {mk : Nat} {s00 : State} (hmk : 1048832 ||| mk = mk) (hst : Fr mk s00 s) : Fr mk s00 (portLinkUp s p) := by
  refine Fr.step (k := 1048832) ?_ hmk hst
  clear hmk hst
  unfold portLinkUp
  try dsimp only
  repeat' first | with_reducible exact Fr.refl _ _ | intro _ | ((with_reducible apply syncPort_fr); (focus decide)) | ((with_reducible apply modPort_fr); (focus decide)) | (with_reducible apply Fr.ite)

theorem portLinkDown_fr {s : State} {p : Nat} {mk : Nat} {s00 : State} (hmk : 3352572 ||| mk = mk) (hst : Fr mk s00 s) : Fr mk s00 (portLinkDown s p) := by
  refine Fr.step (k := 3352572) ?_ hmk hst
  clear hmk hst
  unfold portLinkDown
  try dsimp only
  repeat' first | with_reducible exact Fr.refl _ _ | intro _ | ((with_reducible apply losePort_fr); (focus decide)) | ((with_reducible apply modPort_fr); (focus decide)) | (with_reducible apply Fr.ite)

theorem opticalCalibration_fr {s : State} {p : Nat} {opens : Bool} {mk : Nat} {s00 : State} (hmk : 1048832 ||| mk = mk) (hst : Fr mk s00 s) : Fr mk s00 (opticalCalibration s p opens) := by
  refine Fr.step (k := 1048832) ?_ hmk hst
  clear hmk hst
  unfold opticalCalibration
  try dsimp only
  repeat' first | with_reducible assumption | with_reducible exact Fr.refl _ _ | intro _ | ((with_reducible apply modPort_fr); (focus decide)) | ((with_reducible apply sendWire_fr); (focus decide)) | (with_reducible apply Fr.ite) | (with_reducible apply Fr.foldl)

theorem clientRingWrite_fr {s : State} {a : Agent} {p : Nat} {rx : Bool} {v : W64} {mk : Nat} {s00 : State} (hmk : 256 ||| mk = mk) (hst : Fr mk s00 s) : Fr mk s00 (clientRingWrite s a p rx v) := by
  refine Fr.step (k := 256) ?_ hmk hst
  clear hmk hst
  unfold clientRingWrite
  try dsimp only
  repeat' first | with_reducible assumption | with_reducible exact Fr.refl _ _ | intro _ | ((with_reducible apply byAgent_fr); (focus decide)) | ((with_reducible apply modPort_fr); (focus decide))

theorem clientTailWrite_fr {s : State} {a : Agent} {p : Nat} {rx : Bool} {v : W64} {mk : Nat} {s00 : State} (hmk : 1048836 ||| mk = mk) (hst : Fr mk s00 s) : Fr mk s00 (clientTailWrite s a p rx v) := by
  refine Fr.step (k := 1048836) ?_ hmk hst
  clear hmk hst
  unfold clientTailWrite
  try dsimp only
  repeat' first | with_reducible assumption | with_reducible exact Fr.refl _ _ | intro _ | ((with_reducible apply byAgent_fr); (focus decide)) | ((with_reducible apply ringRefused_fr); (focus decide)) | ((with_reducible apply modPort_fr); (focus decide)) | (with_reducible apply Fr.ite)

theorem portIrq_fr {s : State} {p : Nat} {mk : Nat} {s00 : State} (hmk : 1048576 ||| mk = mk) (hst : Fr mk s00 s) : Fr mk s00 (portIrq s p) := by
  refine Fr.step (k := 1048576) ?_ hmk hst
  clear hmk hst
  unfold portIrq
  try dsimp only
  repeat' first | with_reducible exact Fr.refl _ _ | intro _ | ((with_reducible apply emit_fr); (focus decide)) | (with_reducible apply Fr.ite)

theorem clientReceive_fr {s : State} {p : Nat} {frame : Bytes} {mk : Nat} {s00 : State} (hmk : 1048876 ||| mk = mk) (hst : Fr mk s00 s) : Fr mk s00 (clientReceive s p frame) := by
  refine Fr.step (k := 1048876) ?_ hmk hst
  clear hmk hst
  unfold clientReceive
  try dsimp only
  repeat' first | with_reducible exact Fr.refl _ _ | with_reducible exact AFr.pure _ | with_reducible exact AFr.get | intro _ | ((with_reducible apply dropFrame_fr); (focus decide)) | ((with_reducible apply rd_fr); (focus decide)) | ((with_reducible apply wr_fr); (focus decide)) | ((with_reducible apply wrNat_fr); (focus decide)) | ((with_reducible apply portIrq_fr); (focus decide)) | ((with_reducible apply modPort_fr); (focus decide)) | ((with_reducible apply AFr.val_eq); assumption) | (with_reducible apply AFr.bind) | split

theorem clientTransmit_fr {s : State} {p : Nat} {mk : Nat} {s00 : State} (hmk : 1048876 ||| mk = mk) (hst : Fr mk s00 s) : Fr mk s00 (clientTransmit s p) := by
  refine Fr.step (k := 1048876) ?_ hmk hst
  clear hmk hst
  unfold clientTransmit
  try dsimp only
  repeat' first | with_reducible exact Fr.refl _ _ | with_reducible exact AFr.pure _ | with_reducible exact AFr.get | intro _ | ((with_reducible apply rd_fr); (focus decide)) | ((with_reducible apply wr_fr); (focus decide)) | ((with_reducible apply wrNat_fr); (focus decide)) | ((with_reducible apply portIrq_fr); (focus decide)) | ((with_reducible apply modPort_fr); (focus decide)) | ((with_reducible apply emit_fr); (focus decide)) | ((with_reducible apply AFr.val_eq); assumption) | (with_reducible apply AFr.bind) | (with_reducible apply AFr.map) | split

theorem helloSend_fr {s : State} {mk : Nat} {s00 : State} (hmk : 1048832 ||| mk = mk) (hst : Fr mk s00 s) : Fr mk s00 (helloSend s) := by
  refine Fr.step (k := 1048832) ?_ hmk hst
  clear hmk hst
  unfold helloSend
  try dsimp only
  repeat' first | with_reducible exact Fr.refl _ _ | intro _ | ((with_reducible apply transmit_fr); (focus decide)) | (with_reducible apply Fr.ite)

theorem berthSet_fr {s : State} {a : Agent} {v : W64} {mk : Nat} {s00 : State} (hmk : 1048832 ||| mk = mk) (hst : Fr mk s00 s) : Fr mk s00 (berthSet s a v) := by
  refine Fr.step (k := 1048832) ?_ hmk hst
  clear hmk hst
  unfold berthSet
  try dsimp only
  repeat' first | with_reducible exact Fr.refl _ _ | intro _ | ((with_reducible apply syncPorts_fr); (focus decide)) | ((with_reducible apply modFry_fr); (focus decide)) | (with_reducible apply Fr.ite)

theorem countRx_fr {s : State} {p : Nat} {mk : Nat} {s00 : State} (hmk : 256 ||| mk = mk) (hst : Fr mk s00 s) : Fr mk s00 (countRx s p) := by
  refine Fr.step (k := 256) ?_ hmk hst
  clear hmk hst
  unfold countRx
  try dsimp only
  repeat' first | with_reducible exact Fr.refl _ _ | ((with_reducible apply modPort_fr); (focus decide))

theorem learn_fr {s : State} {p : Nat} {x : Nat} {mac : BitVec 48} {mk : Nat} {s00 : State} (hmk : 256 ||| mk = mk) (hst : Fr mk s00 s) : Fr mk s00 (learn s p x mac) := by
  refine Fr.step (k := 256) ?_ hmk hst
  clear hmk hst
  unfold learn
  try dsimp only
  repeat' first | with_reducible exact Fr.refl _ _ | ((with_reducible apply modFry_fr); (focus decide))

theorem berthRefused_fr {s : State} {p : Nat} {f : FFrame} {mk : Nat} {s00 : State} (hmk : 1048580 ||| mk = mk) (hst : Fr mk s00 s) : Fr mk s00 (berthRefused s p f) := by
  refine Fr.step (k := 1048580) ?_ hmk hst
  clear hmk hst
  unfold berthRefused
  try dsimp only
  repeat' first | with_reducible exact Fr.refl _ _ | ((with_reducible apply raise_fr); (focus decide))

theorem helloReceive_fr {s : State} {p : Nat} {f : FFrame} {mk : Nat} {s00 : State} (hmk : 3352572 ||| mk = mk) (hst : Fr mk s00 s) : Fr mk s00 (helloReceive s p f) := by
  refine Fr.step (k := 3352572) ?_ hmk hst
  clear hmk hst
  unfold helloReceive
  try dsimp only
  repeat' first | with_reducible exact Fr.refl _ _ | ((with_reducible apply berthRefused_fr); (focus decide)) | ((with_reducible apply countRx_fr); (focus decide)) | ((with_reducible apply learn_fr); (focus decide)) | ((with_reducible apply modFry_fr); (focus decide)) | ((with_reducible apply pathLost_fr); (focus decide)) | ((with_reducible apply sendSync_fr); (focus decide)) | ((with_reducible apply startSync_fr); (focus decide)) | split

theorem takeSync_fr {s : State} {p : Nat} {f : FFrame} {mk : Nat} {s00 : State} (hmk : 3352572 ||| mk = mk) (hst : Fr mk s00 s) : Fr mk s00 (takeSync s p f) := by
  refine Fr.step (k := 3352572) ?_ hmk hst
  clear hmk hst
  unfold takeSync
  try dsimp only
  repeat' first | with_reducible exact Fr.refl _ _ | intro _ | ((with_reducible apply pathLost_fr); (focus decide)) | ((with_reducible apply pathGoesUp_fr); (focus decide)) | ((with_reducible apply transmit_fr); (focus decide)) | ((with_reducible apply giveGrants_fr); (focus decide)) | ((with_reducible apply announceGrants_fr); (focus decide)) | ((with_reducible apply slipResync_fr); (focus decide)) | (with_reducible apply Fr.ite)

theorem joinBerth_fr {s : State} {f : FFrame} {mk : Nat} {s00 : State} (hmk : 256 ||| mk = mk) (hst : Fr mk s00 s) : Fr mk s00 (joinBerth s f) := by
  refine Fr.step (k := 256) ?_ hmk hst
  clear hmk hst
  unfold joinBerth
  try dsimp only
  repeat' first | with_reducible exact Fr.refl _ _ | ((with_reducible apply modFry_fr); (focus decide))

theorem syncReceive_fr {s : State} {p : Nat} {f : FFrame} {mk : Nat} {s00 : State} (hmk : 3352572 ||| mk = mk) (hst : Fr mk s00 s) : Fr mk s00 (syncReceive s p f) := by
  refine Fr.step (k := 3352572) ?_ hmk hst
  clear hmk hst
  unfold syncReceive
  try dsimp only
  repeat' first | with_reducible exact Fr.refl _ _ | intro _ | ((with_reducible apply dropFrame_fr); (focus decide)) | ((with_reducible apply berthRefused_fr); (focus decide)) | ((with_reducible apply countRx_fr); (focus decide)) | ((with_reducible apply syncPorts_fr); (focus decide)) | ((with_reducible apply takeSync_fr); (focus decide)) | ((with_reducible apply learn_fr); (focus decide)) | ((with_reducible apply joinBerth_fr); (focus decide)) | (with_reducible apply Fr.ite)

theorem syncAckReceive_fr {s : State} {p : Nat} {f : FFrame} {mk : Nat} {s00 : State} (hmk : 1048960 ||| mk = mk) (hst : Fr mk s00 s) : Fr mk s00 (syncAckReceive s p f) := by
  refine Fr.step (k := 1048960) ?_ hmk hst
  clear hmk hst
  unfold syncAckReceive
  try dsimp only
  repeat' first | with_reducible exact Fr.refl _ _ | intro _ | ((with_reducible apply dropFrame_fr); (focus decide)) | ((with_reducible apply learn_fr); (focus decide)) | ((with_reducible apply countRx_fr); (focus decide)) | ((with_reducible apply announceGrants_fr); (focus decide)) | ((with_reducible apply slipResync_fr); (focus decide)) | ((with_reducible apply pathGoesUp_fr); (focus decide)) | (with_reducible apply Fr.ite)

theorem syncResend_fr {s : State} {p : Nat} {x : Nat} {mk : Nat} {s00 : State} (hmk : 1048832 ||| mk = mk) (hst : Fr mk s00 s) : Fr mk s00 (syncResend s p x) := by
  refine Fr.step (k := 1048832) ?_ hmk hst
  clear hmk hst
  unfold syncResend
  try dsimp only
  repeat' first | with_reducible exact Fr.refl _ _ | intro _ | ((with_reducible apply sendSync_fr); (focus decide)) | (with_reducible apply Fr.ite)

-- HO
theorem controlFrame_fr {s : State} {p : Nat} {f : FFrame} {t : FType} {g : State → State} {mk : Nat} {s00 : State} (hmk : 256 ||| mk = mk) (hg : ∀ t, Fr mk s00 t → Fr mk s00 (g t)) (hst : Fr mk s00 s) : Fr mk s00 (controlFrame s p f t g) := by
  unfold controlFrame
  try dsimp only
  repeat' first | with_reducible assumption | intro _ | ((with_reducible apply dropFrame_fr); (focus first | decide | exact sub_trans (by decide) hmk)) | ((with_reducible apply takeControl_fr); (focus first | decide | exact sub_trans (by decide) hmk)) | ((with_reducible apply countRx_fr); (focus first | decide | exact sub_trans (by decide) hmk)) | (with_reducible apply hg) | (with_reducible apply Fr.ite)

theorem resendAll_fr {s : State} {p : Nat} {x : Nat} {mk : Nat} {s00 : State} (hmk : 3352572 ||| mk = mk) (hst : Fr mk s00 s) : Fr mk s00 (resendAll s p x) := by
  refine Fr.step (k := 3352572) ?_ hmk hst
  clear hmk hst
  unfold resendAll
  try dsimp only
  repeat' first | with_reducible exact Fr.refl _ _ | intro _ | ((with_reducible apply pathLost_fr); (focus decide)) | ((with_reducible apply resend_fr); (focus decide)) | ((with_reducible apply modPath_fr); (focus decide)) | (with_reducible apply Fr.ite)

theorem ackTimer_fr {s : State} {p : Nat} {x : Nat} {mk : Nat} {s00 : State} (hmk : 1048832 ||| mk = mk) (hst : Fr mk s00 s) : Fr mk s00 (ackTimer s p x) := by
  refine Fr.step (k := 1048832) ?_ hmk hst
  clear hmk hst
  unfold ackTimer
  try dsimp only
  repeat' first | with_reducible exact Fr.refl _ _ | intro _ | ((with_reducible apply transmit_fr); (focus decide)) | (with_reducible apply Fr.ite)

theorem retransmitTimeout_fr {s : State} {p : Nat} {x : Nat} {mk : Nat} {s00 : State} (hmk : 3352572 ||| mk = mk) (hst : Fr mk s00 s) : Fr mk s00 (retransmitTimeout s p x) := by
  refine Fr.step (k := 3352572) ?_ hmk hst
  clear hmk hst
  unfold retransmitTimeout
  try dsimp only
  repeat' first | with_reducible exact Fr.refl _ _ | intro _ | ((with_reducible apply resendAll_fr); (focus decide)) | (with_reducible apply Fr.ite)

-- HO
theorem dataRow_fr {s : State} {p : Nat} {f : FFrame} {op : Nat} {g : State → State} {mk : Nat} {s00 : State} (hmk : 1048832 ||| mk = mk) (hg : ∀ t, Fr mk s00 t → Fr mk s00 (g t)) (hst : Fr mk s00 s) : Fr mk s00 (dataRow s p f op g) := by
  unfold dataRow
  try dsimp only
  repeat' first | with_reducible assumption | ((with_reducible apply acceptData_eq); assumption; (focus first | decide | exact sub_trans (by decide) hmk)) | (with_reducible apply hg) | split

theorem writeFrame_fr {s : State} {p : Nat} {f : FFrame} {mk : Nat} {s00 : State} (hmk : 1048876 ||| mk = mk) (hst : Fr mk s00 s) : Fr mk s00 (writeFrame s p f) := by
  refine Fr.step (k := 1048876) ?_ hmk hst
  clear hmk hst
  unfold writeFrame
  try dsimp only
  repeat' first | with_reducible exact Fr.refl _ _ | ((with_reducible apply modFry_fr); (focus decide)) | ((with_reducible apply refuseOp_fr); (focus decide)) | ((with_reducible apply wr_fr); (focus decide)) | ((with_reducible apply replyTo_fr); (focus decide)) | ((with_reducible apply AFr.run_eq); assumption) | split

theorem serveChunks_fr {p : Nat} {f : FFrame} {x0 : Nat} {x1 : Nat} {x2 : State} {mk : Nat} {s00 : State} (hmk : 1048876 ||| mk = mk) (hst : Fr mk s00 x2) : Fr mk s00 (serveChunks p f x0 x1 x2) := by
  induction x0 generalizing x1 x2 with
  | zero =>
    unfold serveChunks
    try dsimp only
    repeat' first | with_reducible assumption
  | succ y1 ih =>
    unfold serveChunks
    try dsimp only
    repeat' first | with_reducible assumption | (with_reducible apply ih) | ((with_reducible apply rd_fr); (focus (first | decide | exact sub_trans (by decide) hmk))) | ((with_reducible apply queueFrame_fr); (focus (first | decide | exact sub_trans (by decide) hmk))) | ((with_reducible apply chargeFerry_fr); (focus (first | decide | exact sub_trans (by decide) hmk))) | ((with_reducible apply refuseOp_fr); (focus (first | decide | exact sub_trans (by decide) hmk))) | ((with_reducible apply AFr.val_eq); assumption) | split

theorem readReq_fr {s : State} {p : Nat} {f : FFrame} {mk : Nat} {s00 : State} (hmk : 1048876 ||| mk = mk) (hst : Fr mk s00 s) : Fr mk s00 (readReq s p f) := by
  refine Fr.step (k := 1048876) ?_ hmk hst
  clear hmk hst
  unfold readReq
  try dsimp only
  repeat' first | with_reducible exact Fr.refl _ _ | intro _ | ((with_reducible apply serveChunks_fr); (focus decide)) | ((with_reducible apply refuseOp_fr); (focus decide)) | (with_reducible apply Fr.ite)

theorem writeAck_fr {s : State} {p : Nat} {f : FFrame} {mk : Nat} {s00 : State} (hmk : 3352572 ||| mk = mk) (hst : Fr mk s00 s) : Fr mk s00 (writeAck s p f) := by
  refine Fr.step (k := 3352572) ?_ hmk hst
  clear hmk hst
  unfold writeAck
  try dsimp only
  repeat' first | with_reducible exact Fr.refl _ _ | ((with_reducible apply endOp_fr); (focus decide)) | split

theorem migrateBytesIn_fr {s : State} {p : Nat} {f : FFrame} {e : Nat} {c : Nat} {mk : Nat} {s00 : State} (hmk : 1253756 ||| mk = mk) (hst : Fr mk s00 s) : Fr mk s00 (migrateBytesIn s p f e c) := by
  refine Fr.step (k := 1253756) ?_ hmk hst
  clear hmk hst
  unfold migrateBytesIn
  try dsimp only
  repeat' first | with_reducible exact Fr.refl _ _ | intro _ | ((with_reducible apply modGth_fr); (focus decide)) | ((with_reducible apply migrateEnded_fr); (focus decide)) | ((with_reducible apply dropOp_fr); (focus decide)) | (with_reducible apply Fr.ite)

theorem readResp_fr {s : State} {p : Nat} {f : FFrame} {mk : Nat} {s00 : State} (hmk : 3352572 ||| mk = mk) (hst : Fr mk s00 s) : Fr mk s00 (readResp s p f) := by
  refine Fr.step (k := 3352572) ?_ hmk hst
  clear hmk hst
  unfold readResp
  try dsimp only
  repeat' first | with_reducible exact Fr.refl _ _ | ((with_reducible apply wr_fr); (focus decide)) | ((with_reducible apply endOp_fr); (focus decide)) | ((with_reducible apply migrateBytesIn_fr); (focus decide)) | ((with_reducible apply AFr.run_eq); assumption) | split

theorem pushDone_fr {s : State} {p : Nat} {f : FFrame} {mk : Nat} {s00 : State} (hmk : 3352572 ||| mk = mk) (hst : Fr mk s00 s) : Fr mk s00 (pushDone s p f) := by
  refine Fr.step (k := 3352572) ?_ hmk hst
  clear hmk hst
  unfold pushDone
  try dsimp only
  repeat' first | with_reducible exact Fr.refl _ _ | ((with_reducible apply endOp_fr); (focus decide)) | split

theorem statusFrame_fr {s : State} {p : Nat} {f : FFrame} {mk : Nat} {s00 : State} (hmk : 3352572 ||| mk = mk) (hst : Fr mk s00 s) : Fr mk s00 (statusFrame s p f) := by
  refine Fr.step (k := 3352572) ?_ hmk hst
  clear hmk hst
  unfold statusFrame
  try dsimp only
  repeat' first | with_reducible exact Fr.refl _ _ | ((with_reducible apply endOp_fr); (focus decide)) | split

theorem purserMessage_fr {s : State} {m : Nat} {msg : PurserMsg} {buf : Nat} {mk : Nat} {s00 : State} (hmk : 3350908 ||| mk = mk) (hst : Fr mk s00 s) : Fr mk s00 (purserMessage s m msg buf) := by
  refine Fr.step (k := 3350908) ?_ hmk hst
  clear hmk hst
  unfold purserMessage
  try dsimp only
  repeat' first | with_reducible exact Fr.refl _ _ | ((with_reducible apply purserSend_fr); (focus decide)) | ((with_reducible apply dropReports_fr); (focus decide)) | ((with_reducible apply serveAsk_fr); (focus decide)) | ((with_reducible apply takeAnswer_fr); (focus decide)) | ((with_reducible apply serveSearch_fr); (focus decide)) | ((with_reducible apply partAnswer_fr); (focus decide)) | ((with_reducible apply serveRerank_fr); (focus decide)) | ((with_reducible apply addRef_fr); (focus decide)) | ((with_reducible apply dropRef_fr); (focus decide)) | ((with_reducible apply retireWork_fr); (focus decide)) | ((with_reducible apply endPlain_fr); (focus decide)) | ((with_reducible apply publishHere_fr); (focus decide)) | ((with_reducible apply spareAsked_fr); (focus decide)) | ((with_reducible apply spareAnswered_fr); (focus decide)) | ((with_reducible apply giveSpare_fr); (focus decide)) | ((with_reducible apply moveOrdered_fr); (focus decide)) | ((with_reducible apply moveEnded_fr); (focus decide)) | (with_reducible apply AFr.run) | split | ((with_reducible apply Fr.setPur); (focus decide))

theorem ppsEdge_fr {s : State} {mk : Nat} {s00 : State} (hmk : 256 ||| mk = mk) (hst : Fr mk s00 s) : Fr mk s00 (ppsEdge s) := by
  refine Fr.step (k := 256) ?_ hmk hst
  clear hmk hst
  unfold ppsEdge
  try dsimp only
  repeat' first | with_reducible exact Fr.refl _ _ | ((with_reducible apply modFry_fr); (focus decide))

theorem ppsRow_fr {s : State} {mk : Nat} {s00 : State} (hmk : 1048837 ||| mk = mk) (hst : Fr mk s00 s) : Fr mk s00 (ppsRow s) := by
  refine Fr.step (k := 1048837) ?_ hmk hst
  clear hmk hst
  unfold ppsRow
  try dsimp only
  repeat' first | with_reducible exact Fr.refl _ _ | intro _ | ((with_reducible apply ppsEdge_fr); (focus decide)) | ((with_reducible apply raise_fr); (focus decide)) | (with_reducible apply Fr.ite) | ((with_reducible apply Fr.setHub); (focus decide))

theorem pathTableWrite_fr {s : State} {a : Agent} {x : Nat} {v : W64} {mk : Nat} {s00 : State} (hmk : 1048832 ||| mk = mk) (hst : Fr mk s00 s) : Fr mk s00 (pathTableWrite s a x v) := by
  refine Fr.step (k := 1048832) ?_ hmk hst
  clear hmk hst
  unfold pathTableWrite
  try dsimp only
  repeat' first | with_reducible assumption | with_reducible exact Fr.refl _ _ | intro _ | ((with_reducible apply byAgent_fr); (focus decide)) | ((with_reducible apply modFry_fr); (focus decide)) | ((with_reducible apply startSync_fr); (focus decide)) | (with_reducible apply Fr.foldl) | split

theorem execPortEnable_fr {agent : Agent} {p : Nat} {v : W64} {s : State} {t00 : State} (heq0 : execPortEnable agent p v s = .next t00) : Fr 3352572 s t00 := by
  cases heq0
  repeat' first | with_reducible exact Fr.refl _ _ | ((with_reducible apply portEnable_fr); (focus decide))

theorem execPortDisable_fr {agent : Agent} {p : Nat} {v : W64} {s : State} {t00 : State} (heq0 : execPortDisable agent p v s = .next t00) : Fr 3352572 s t00 := by
  cases heq0
  repeat' first | with_reducible exact Fr.refl _ _ | ((with_reducible apply portDisable_fr); (focus decide))

theorem execPortLinkUp_fr {p : Nat} {s : State} {t00 : State} (heq0 : execPortLinkUp p s = .next t00) : Fr 1048832 s t00 := by
  cases heq0
  repeat' first | with_reducible exact Fr.refl _ _ | ((with_reducible apply portLinkUp_fr); (focus decide))

theorem execPortLinkDown_fr {p : Nat} {s : State} {t00 : State} (heq0 : execPortLinkDown p s = .next t00) : Fr 3352572 s t00 := by
  cases heq0
  repeat' first | with_reducible exact Fr.refl _ _ | ((with_reducible apply portLinkDown_fr); (focus decide))

theorem execOpticalCalibration_fr {p : Nat} {opens : Bool} {s : State} {t00 : State} (heq0 : execOpticalCalibration p opens s = .next t00) : Fr 1048832 s t00 := by
  cases heq0
  repeat' first | with_reducible exact Fr.refl _ _ | ((with_reducible apply opticalCalibration_fr); (focus decide))

theorem execClientRingWrite_fr {agent : Agent} {p : Nat} {rx : Bool} {v : W64} {s : State} {t00 : State} (heq0 : execClientRingWrite agent p rx v s = .next t00) : Fr 256 s t00 := by
  cases heq0
  repeat' first | with_reducible exact Fr.refl _ _ | ((with_reducible apply clientRingWrite_fr); (focus decide))

theorem execClientRxTailWrite_fr {agent : Agent} {p : Nat} {v : W64} {s : State} {t00 : State} (heq0 : execClientRxTailWrite agent p v s = .next t00) : Fr 1048836 s t00 := by
  cases heq0
  repeat' first | with_reducible exact Fr.refl _ _ | ((with_reducible apply clientTailWrite_fr); (focus decide))

theorem execClientTxTailWrite_fr {agent : Agent} {p : Nat} {v : W64} {s : State} {t00 : State} (heq0 : execClientTxTailWrite agent p v s = .next t00) : Fr 1048836 s t00 := by
  cases heq0
  repeat' first | with_reducible exact Fr.refl _ _ | ((with_reducible apply clientTailWrite_fr); (focus decide))

theorem execClientFrameReceive_fr {p : Nat} {bytes : Bytes} {s : State} {t00 : State} (heq0 : execClientFrameReceive p bytes s = .next t00) : Fr 1048876 s t00 := by
  cases heq0
  repeat' first | with_reducible exact Fr.refl _ _ | ((with_reducible apply clientReceive_fr); (focus decide))

theorem execClientFrameTransmit_fr {p : Nat} {s : State} {t00 : State} (heq0 : execClientFrameTransmit p s = .next t00) : Fr 1048876 s t00 := by
  cases heq0
  repeat' first | with_reducible exact Fr.refl _ _ | ((with_reducible apply clientTransmit_fr); (focus decide))

theorem execHelloSend_fr {s : State} {t00 : State} (heq0 : execHelloSend s = .next t00) : Fr 1048832 s t00 := by
  cases heq0
  repeat' first | with_reducible exact Fr.refl _ _ | ((with_reducible apply helloSend_fr); (focus decide))

theorem execBerthSet_fr {agent : Agent} {v : W64} {s : State} {t00 : State} (heq0 : execBerthSet agent v s = .next t00) : Fr 1048832 s t00 := by
  cases heq0
  repeat' first | with_reducible exact Fr.refl _ _ | ((with_reducible apply berthSet_fr); (focus decide))

theorem execFerryHelloReceive_fr {p : Nat} {f : FFrame} {s : State} {t00 : State} (heq0 : execFerryHelloReceive p f s = .next t00) : Fr 3352572 s t00 := by
  cases heq0
  repeat' first | with_reducible exact Fr.refl _ _ | ((with_reducible apply helloReceive_fr); (focus decide))

theorem execFerrySyncReceive_fr {p : Nat} {f : FFrame} {s : State} {t00 : State} (heq0 : execFerrySyncReceive p f s = .next t00) : Fr 3352572 s t00 := by
  cases heq0
  repeat' first | with_reducible exact Fr.refl _ _ | ((with_reducible apply syncReceive_fr); (focus decide))

theorem execFerrySyncAckReceive_fr {p : Nat} {f : FFrame} {s : State} {t00 : State} (heq0 : execFerrySyncAckReceive p f s = .next t00) : Fr 1048960 s t00 := by
  cases heq0
  repeat' first | with_reducible exact Fr.refl _ _ | ((with_reducible apply syncAckReceive_fr); (focus decide))

theorem execSyncResend_fr {p : Nat} {x : Nat} {s : State} {t00 : State} (heq0 : execSyncResend p x s = .next t00) : Fr 1048832 s t00 := by
  cases heq0
  repeat' first | with_reducible exact Fr.refl _ _ | ((with_reducible apply syncResend_fr); (focus decide))

theorem execFerryControlReceive_fr {p : Nat} {f : FFrame} {s : State} {t00 : State} (heq0 : execFerryControlReceive p f s = .next t00) : Fr 256 s t00 := by
  cases heq0
  repeat' first | with_reducible assumption | with_reducible exact Fr.refl _ _ | intro _ | ((with_reducible apply controlFrame_fr); (focus decide))

theorem execFerryNackReceive_fr {p : Nat} {f : FFrame} {s : State} {t00 : State} (heq0 : execFerryNackReceive p f s = .next t00) : Fr 3352572 s t00 := by
  cases heq0
  repeat' first | with_reducible assumption | with_reducible exact Fr.refl _ _ | intro _ | ((with_reducible apply controlFrame_fr); (focus decide)) | ((with_reducible apply resendAll_fr); (focus decide))

theorem execAckTimer_fr {p : Nat} {x : Nat} {s : State} {t00 : State} (heq0 : execAckTimer p x s = .next t00) : Fr 1048832 s t00 := by
  cases heq0
  repeat' first | with_reducible exact Fr.refl _ _ | ((with_reducible apply ackTimer_fr); (focus decide))

theorem execRetransmitTimeout_fr {p : Nat} {x : Nat} {s : State} {t00 : State} (heq0 : execRetransmitTimeout p x s = .next t00) : Fr 3352572 s t00 := by
  cases heq0
  repeat' first | with_reducible exact Fr.refl _ _ | ((with_reducible apply retransmitTimeout_fr); (focus decide))

theorem execFerryFrameSend_fr {p : Nat} {x : Nat} {vc : Nat} {s : State} {t00 : State} (heq0 : execFerryFrameSend p x vc s = .next t00) : Fr 1048832 s t00 := by
  cases heq0
  repeat' first | with_reducible exact Fr.refl _ _ | ((with_reducible apply sendData_fr); (focus decide))

theorem execFerryWrite_fr {p : Nat} {f : FFrame} {s : State} {t00 : State} (heq0 : execFerryWrite p f s = .next t00) : Fr 1048876 s t00 := by
  cases heq0
  repeat' first | with_reducible assumption | with_reducible exact Fr.refl _ _ | intro _ | ((with_reducible apply dataRow_fr); (focus decide)) | ((with_reducible apply writeFrame_fr); (focus decide))

theorem execFerryWriteAck_fr {p : Nat} {f : FFrame} {s : State} {t00 : State} (heq0 : execFerryWriteAck p f s = .next t00) : Fr 3352572 s t00 := by
  cases heq0
  repeat' first | with_reducible assumption | with_reducible exact Fr.refl _ _ | intro _ | ((with_reducible apply dataRow_fr); (focus decide)) | ((with_reducible apply writeAck_fr); (focus decide))

theorem execFerryReadReq_fr {p : Nat} {f : FFrame} {s : State} {t00 : State} (heq0 : execFerryReadReq p f s = .next t00) : Fr 1048876 s t00 := by
  cases heq0
  repeat' first | with_reducible assumption | with_reducible exact Fr.refl _ _ | intro _ | ((with_reducible apply dataRow_fr); (focus decide)) | ((with_reducible apply readReq_fr); (focus decide))

theorem execFerryReadResp_fr {p : Nat} {f : FFrame} {s : State} {t00 : State} (heq0 : execFerryReadResp p f s = .next t00) : Fr 3352572 s t00 := by
  cases heq0
  repeat' first | with_reducible assumption | with_reducible exact Fr.refl _ _ | intro _ | ((with_reducible apply dataRow_fr); (focus decide)) | ((with_reducible apply readResp_fr); (focus decide))

theorem execFerryPush_fr {p : Nat} {f : FFrame} {s : State} {t00 : State} (heq0 : execFerryPush p f s = .next t00) : Fr 1049004 s t00 := by
  cases heq0
  repeat' first | with_reducible assumption | with_reducible exact Fr.refl _ _ | intro _ | ((with_reducible apply dataRow_fr); (focus decide)) | ((with_reducible apply pushFrame_fr); (focus decide))

theorem execFerryPushDone_fr {p : Nat} {f : FFrame} {s : State} {t00 : State} (heq0 : execFerryPushDone p f s = .next t00) : Fr 3352572 s t00 := by
  cases heq0
  repeat' first | with_reducible assumption | with_reducible exact Fr.refl _ _ | intro _ | ((with_reducible apply dataRow_fr); (focus decide)) | ((with_reducible apply pushDone_fr); (focus decide))

theorem execSlipCredit_fr {p : Nat} {f : FFrame} {s : State} {t00 : State} (heq0 : execSlipCredit p f s = .next t00) : Fr 1048960 s t00 := by
  cases heq0
  repeat' first | with_reducible assumption | with_reducible exact Fr.refl _ _ | intro _ | ((with_reducible apply dataRow_fr); (focus decide)) | ((with_reducible apply creditFrame_fr); (focus decide))

theorem execColl_fr {p : Nat} {f : FFrame} {s : State} {t00 : State} (heq0 : execColl p f s = .next t00) : Fr 3351420 s t00 := by
  cases heq0
  repeat' first | with_reducible assumption | with_reducible exact Fr.refl _ _ | intro _ | ((with_reducible apply dataRow_fr); (focus decide)) | ((with_reducible apply collPiece_fr); (focus decide))

theorem execCollReady_fr {p : Nat} {f : FFrame} {s : State} {t00 : State} (heq0 : execCollReady p f s = .next t00) : Fr 1049344 s t00 := by
  cases heq0
  repeat' first | with_reducible assumption | with_reducible exact Fr.refl _ _ | intro _ | ((with_reducible apply dataRow_fr); (focus decide)) | ((with_reducible apply collReadyFrame_fr); (focus decide))

theorem execFerryStatus_fr {p : Nat} {f : FFrame} {s : State} {t00 : State} (heq0 : execFerryStatus p f s = .next t00) : Fr 3352572 s t00 := by
  cases heq0
  repeat' first | with_reducible assumption | with_reducible exact Fr.refl _ _ | intro _ | ((with_reducible apply dataRow_fr); (focus decide)) | ((with_reducible apply statusFrame_fr); (focus decide))

theorem execFerryRow_fr {p : Nat} {f : FFrame} {s : State} {t00 : State} (heq0 : execFerryRow p f s = .next t00) : Fr 1253756 s t00 := by
  cases heq0
  repeat' first | with_reducible assumption | with_reducible exact Fr.refl _ _ | intro _ | ((with_reducible apply dataRow_fr); (focus decide)) | ((with_reducible apply rowFrame_fr); (focus decide))

theorem execFerryPurser_fr {p : Nat} {f : FFrame} {buf : Nat} {s : State} {t00 : State} (heq0 : execFerryPurser p f buf s = .next t00) : Fr 3350908 s t00 := by
  cases heq0
  repeat' first | with_reducible assumption | with_reducible exact Fr.refl _ _ | intro _ | ((with_reducible apply dataRow_fr); (focus decide)) | ((with_reducible apply purserMessage_fr); (focus decide)) | split

theorem execPpsEdge_fr {s : State} {t00 : State} (heq0 : execPpsEdge s = .next t00) : Fr 1048837 s t00 := by
  cases heq0
  repeat' first | with_reducible exact Fr.refl _ _ | intro _ | ((with_reducible apply ppsRow_fr); (focus decide))

theorem execFerryFrameDiscard_fr {p : Nat} {bytes : Bytes} {s : State} {t00 : State} (heq0 : execFerryFrameDiscard p bytes s = .next t00) : Fr 256 s t00 := by
  cases heq0
  repeat' first | with_reducible exact Fr.refl _ _ | intro _ | ((with_reducible apply dropFrame_fr); (focus decide)) | (with_reducible apply Fr.ite)

theorem execPathTableWrite_fr {agent : Agent} {x : Nat} {v : W64} {s : State} {t00 : State} (heq0 : execPathTableWrite agent x v s = .next t00) : Fr 1048832 s t00 := by
  cases heq0
  repeat' first | with_reducible exact Fr.refl _ _ | ((with_reducible apply pathTableWrite_fr); (focus decide))

/-! ### Boot -/

theorem modSec_fr {s : State} {f : SecSt → SecSt} {mk : Nat} {s00 : State} (hmk : 262144 ||| mk = mk) (hst : Fr mk s00 s) : Fr mk s00 (modSec s f) := by
  refine Fr.step (k := 262144) ?_ hmk hst
  clear hmk hst
  unfold modSec
  try dsimp only
  repeat' first | with_reducible exact Fr.refl _ _ | ((with_reducible apply Fr.setSec); (focus decide))

theorem extend_fr {s : State} {k : Nat} {d : Bytes} {mk : Nat} {s00 : State} (hmk : 262144 ||| mk = mk) (hst : Fr mk s00 s) : Fr mk s00 (extend s k d) := by
  refine Fr.step (k := 262144) ?_ hmk hst
  clear hmk hst
  unfold extend
  try dsimp only
  repeat' first | with_reducible exact Fr.refl _ _ | ((with_reducible apply modSec_fr); (focus decide))

theorem sendMgmt_fr {s : State} {x : Nat} {b : Bytes} {mk : Nat} {s00 : State} (hmk : 256 ||| mk = mk) (hst : Fr mk s00 s) : Fr mk s00 (sendMgmt s x b) := by
  refine Fr.step (k := 256) ?_ hmk hst
  clear hmk hst
  unfold sendMgmt
  try dsimp only
  repeat' first | with_reducible exact Fr.refl _ _ | ((with_reducible apply choosePort_fr); assumption; (focus decide)) | ((with_reducible apply queueFrame_fr); (focus decide)) | split

theorem sendImage_fr {s : State} {h : ImgHost} {b : Bytes} {mk : Nat} {s00 : State} (hmk : 1048576 ||| mk = mk) (hst : Fr mk s00 s) : Fr mk s00 (sendImage s h b) := by
  refine Fr.step (k := 1048576) ?_ hmk hst
  clear hmk hst
  unfold sendImage
  try dsimp only
  repeat' first | with_reducible exact Fr.refl _ _ | ((with_reducible apply emit_fr); (focus decide))

theorem imgReply_fr {s : State} {via : ImgVia} {b : Bytes} {mk : Nat} {s00 : State} (hmk : 1048832 ||| mk = mk) (hst : Fr mk s00 s) : Fr mk s00 (imgReply s via b) := by
  refine Fr.step (k := 1048832) ?_ hmk hst
  clear hmk hst
  unfold imgReply
  try dsimp only
  repeat' first | with_reducible exact Fr.refl _ _ | ((with_reducible apply sendImage_fr); (focus decide)) | ((with_reducible apply sendMgmt_fr); (focus decide)) | split

-- HO
theorem datagram_fr {s : State} {d : Datagram} {f : State → State} {mk : Nat} {s00 : State} (hmk : 1048580 ||| mk = mk) (hf : ∀ t, Fr mk s00 t → Fr mk s00 (f t)) (hst : Fr mk s00 s) : Fr mk s00 (datagram s d f) := by
  unfold datagram
  try dsimp only
  repeat' first | with_reducible assumption | intro _ | ((with_reducible apply raise_fr); (focus first | decide | exact sub_trans (by decide) hmk)) | (with_reducible apply hf) | (with_reducible apply Fr.ite)

theorem bootStart_fr {s : State} {straps : BitVec 6} {mk : Nat} {s00 : State} (hmk : 262402 ||| mk = mk) (hst : Fr mk s00 s) : Fr mk s00 (bootStart s straps) := by
  refine Fr.step (k := 262402) ?_ hmk hst
  clear hmk hst
  unfold bootStart
  try dsimp only
  repeat' first | with_reducible exact Fr.refl _ _ | intro _ | ((with_reducible apply modFry_fr); (focus decide)) | ((with_reducible apply extend_fr); (focus decide)) | ((with_reducible apply modSec_fr); (focus decide)) | (with_reducible apply Fr.ite) | ((with_reducible apply Fr.setPwr); (focus decide))

theorem solicit_fr {s : State} {mk : Nat} {s00 : State} (hmk : 1310976 ||| mk = mk) (hst : Fr mk s00 s) : Fr mk s00 (solicit s) := by
  refine Fr.step (k := 1310976) ?_ hmk hst
  clear hmk hst
  unfold solicit
  try dsimp only
  repeat' first | with_reducible exact Fr.refl _ _ | intro _ | ((with_reducible apply modSec_fr); (focus decide)) | ((with_reducible apply sendImage_fr); (focus decide)) | ((with_reducible apply sendMgmt_fr); (focus decide)) | (with_reducible apply Fr.ite)

theorem decide__fr {s : State} {st : Status} {hashed : Bool} {mk : Nat} {s00 : State} (hmk : 1310724 ||| mk = mk) (hst : Fr mk s00 s) : Fr mk s00 (decide_ s st hashed) := by
  refine Fr.step (k := 1310724) ?_ hmk hst
  clear hmk hst
  unfold decide_
  try dsimp only
  repeat' first | with_reducible assumption | with_reducible exact Fr.refl _ _ | intro _ | ((with_reducible apply modSec_fr); (focus decide)) | ((with_reducible apply extend_fr); (focus decide)) | ((with_reducible apply raise_fr); (focus decide)) | (with_reducible apply Fr.foldl) | split

theorem takeOffer_fr {s : State} {via : ImgVia} {b : Bytes} {mk : Nat} {s00 : State} (hmk : 262144 ||| mk = mk) (hst : Fr mk s00 s) : Fr mk s00 (takeOffer s via b) := by
  refine Fr.step (k := 262144) ?_ hmk hst
  clear hmk hst
  unfold takeOffer
  try dsimp only
  repeat' first | with_reducible exact Fr.refl _ _ | intro _ | ((with_reducible apply modSec_fr); (focus decide)) | (with_reducible apply Fr.ite)

theorem bundleBlock_fr {s : State} {b : Bytes} {bad : Option Nat} {mk : Nat} {s00 : State} (hmk : 1310724 ||| mk = mk) (hst : Fr mk s00 s) : Fr mk s00 (bundleBlock s b bad) := by
  refine Fr.step (k := 1310724) ?_ hmk hst
  clear hmk hst
  unfold bundleBlock
  try dsimp only
  repeat' first | with_reducible exact Fr.refl _ _ | ((with_reducible apply modSec_fr); (focus decide)) | ((with_reducible apply decide__fr); (focus decide)) | split

theorem stateSend_fr {s : State} {mk : Nat} {s00 : State} (hmk : 1048832 ||| mk = mk) (hst : Fr mk s00 s) : Fr mk s00 (stateSend s) := by
  refine Fr.step (k := 1048832) ?_ hmk hst
  clear hmk hst
  unfold stateSend
  try dsimp only
  repeat' first | with_reducible exact Fr.refl _ _ | intro _ | ((with_reducible apply imgReply_fr); (focus decide)) | (with_reducible apply Fr.ite)

theorem sessionAbandon_fr {s : State} {mk : Nat} {s00 : State} (hmk : 262144 ||| mk = mk) (hst : Fr mk s00 s) : Fr mk s00 (sessionAbandon s) := by
  refine Fr.step (k := 262144) ?_ hmk hst
  clear hmk hst
  unfold sessionAbandon
  try dsimp only
  repeat' first | with_reducible exact Fr.refl _ _ | intro _ | ((with_reducible apply modSec_fr); (focus decide)) | (with_reducible apply Fr.ite)

theorem loadLoader_fr  {mk : Nat} {s00 : State} (hmk : 1048620 ||| mk = mk) : AFr mk s00 (loadLoader) := by
  refine AFr.step (k := 1048620) (fun s00 => ?_) hmk
  clear hmk
  unfold loadLoader
  try dsimp only
  repeat' first | with_reducible exact AFr.pure _ | intro _ | ((with_reducible apply rd_fr); (focus decide)) | ((with_reducible apply wr_fr); (focus decide)) | (with_reducible apply AFr.bind) | split

theorem startHart_fr {s : State} {entry : Nat} {mk : Nat} {s00 : State} (hmk : 1048577 ||| mk = mk) (hst : Fr mk s00 s) : Fr mk s00 (startHart s entry) := by
  refine Fr.step (k := 1048577) ?_ hmk hst
  clear hmk hst
  unfold startHart
  try dsimp only
  repeat' first | with_reducible exact Fr.refl _ _ | ((with_reducible apply emit_fr); (focus decide)) | ((with_reducible apply Fr.setHub); (focus decide))

theorem startLoader_fr {s : State} {mk : Nat} {s00 : State} (hmk : 1048621 ||| mk = mk) (hst : Fr mk s00 s) : Fr mk s00 (startLoader s).2 := by
  refine Fr.step (k := 1048621) ?_ hmk hst
  clear hmk hst
  unfold startLoader
  try dsimp only
  repeat' first | with_reducible exact Fr.refl _ _ | ((with_reducible apply loadLoader_fr); (focus decide)) | ((with_reducible apply startHart_fr); (focus decide)) | ((with_reducible apply AFr.val_eq); assumption) | split

theorem startLoader_eq {s : State} {y0 : Status} {t00 : State} {mk : Nat} {s00 : State} (heq0 : startLoader s = (y0, t00)) (hmk : 1048621 ||| mk = mk)
    (hst : Fr mk s00 s) : Fr mk s00 t00 := by
  have h1 := @startLoader_fr s mk s00 hmk hst
  rw [heq0] at h1
  exact h1

theorem handOver_fr {s : State} {mk : Nat} {s00 : State} (hmk : 1441837 ||| mk = mk) (hst : Fr mk s00 s) :
    Fr mk s00 (handOver s) := by
  refine Fr.step (k := 1441837) ?_ hmk hst
  clear hmk hst
  unfold handOver
  dsimp only
  refine startLoader_fr (by decide) ?_
  exact Fr.setMemPurSec (by decide) (fun _ => memWrite_wf _ _ _ rfl) (Fr.refl _ _)

theorem doneSend_fr {s : State} {mk : Nat} {s00 : State} (hmk : 1442093 ||| mk = mk) (hst : Fr mk s00 s) : Fr mk s00 (doneSend s) := by
  refine Fr.step (k := 1442093) ?_ hmk hst
  clear hmk hst
  unfold doneSend
  try dsimp only
  repeat' first | with_reducible exact Fr.refl _ _ | intro _ | ((with_reducible apply imgReply_fr); (focus decide)) | ((with_reducible apply modSec_fr); (focus decide)) | ((with_reducible apply handOver_fr); (focus decide)) | (with_reducible apply Fr.ite)

theorem svnRaise_fr {s : State} {a : Agent} {v : W64} {mk : Nat} {s00 : State} (hmk : 1310724 ||| mk = mk) (hst : Fr mk s00 s) : Fr mk s00 (svnRaise s a v) := by
  refine Fr.step (k := 1310724) ?_ hmk hst
  clear hmk hst
  unfold svnRaise
  try dsimp only
  repeat' first | with_reducible exact Fr.refl _ _ | intro _ | ((with_reducible apply modSec_fr); (focus decide)) | ((with_reducible apply protWrite_fr); (focus decide)) | (with_reducible apply Fr.ite)

theorem ownerProgram_fr {s : State} {a : Agent} {v : W64} {mk : Nat} {s00 : State} (hmk : 1310724 ||| mk = mk) (hst : Fr mk s00 s) : Fr mk s00 (ownerProgram s a v) := by
  refine Fr.step (k := 1310724) ?_ hmk hst
  clear hmk hst
  unfold ownerProgram
  try dsimp only
  repeat' first | with_reducible exact Fr.refl _ _ | intro _ | ((with_reducible apply protWrite_fr); (focus decide)) | ((with_reducible apply modSec_fr); (focus decide)) | (with_reducible apply Fr.ite)

theorem extCtlWrite_fr {s : State} {a : Agent} {v : W64} {mk : Nat} {s00 : State} (hmk : 1310724 ||| mk = mk) (hst : Fr mk s00 s) : Fr mk s00 (extCtlWrite s a v) := by
  refine Fr.step (k := 1310724) ?_ hmk hst
  clear hmk hst
  unfold extCtlWrite
  try dsimp only
  repeat' first | with_reducible exact Fr.refl _ _ | intro _ | ((with_reducible apply protWrite_fr); (focus decide)) | ((with_reducible apply modSec_fr); (focus decide)) | ((with_reducible apply extend_fr); (focus decide)) | (with_reducible apply Fr.ite)

theorem attest_fr {s : State} {id : Nat} {mk : Nat} {s00 : State} (hmk : 3342380 ||| mk = mk) (hst : Fr mk s00 s) :
    Fr mk s00 (attest s id) := by
  have hf := Fr.setFreeCtr (x0 := s.freeCtr + 1) (sub_trans (by decide) hmk) hst
  unfold attest
  apply startRow_fr (sub_trans (by decide) hmk) _ hst
  intro c
  dsimp only
  generalize (reportBytes s (part c.desc 32 32) ++ if bit (fld c.desc 24 1) 0 = true then certBytes else []) = b
  generalize (if bit (fld c.desc 24 1) 0 = true then 5120 else 1024 : Nat) = n
  refine Fr.ite (fun _ => endCmd_fr (sub_trans (by decide) hmk) hst) fun _ => ?_
  have h2 := AFr.run (wr_fr (w := whoPurser none) (a := fld c.desc 16 8) (b := b) (sub_trans (by decide) hmk)) hf
  generalize runAct _ _ = r at h2 ⊢
  obtain ⟨st, u⟩ := r
  cases st <;> exact endCmd_fr (sub_trans (by decide) hmk) h2

theorem execBootStart_fr {straps : BitVec 6} {s : State} {t00 : State} (heq0 : execBootStart straps s = .next t00) : Fr 262402 s t00 := by
  cases heq0
  repeat' first | with_reducible exact Fr.refl _ _ | ((with_reducible apply bootStart_fr); (focus decide))

theorem execSolicit_fr {s : State} {t00 : State} (heq0 : execSolicit s = .next t00) : Fr 1310976 s t00 := by
  cases heq0
  repeat' first | with_reducible exact Fr.refl _ _ | ((with_reducible apply solicit_fr); (focus decide))

theorem execOffer_fr {d : Datagram} {s : State} {t00 : State} (heq0 : execOffer d s = .next t00) : Fr 1310724 s t00 := by
  cases heq0
  repeat' first | with_reducible assumption | with_reducible exact Fr.refl _ _ | intro _ | ((with_reducible apply datagram_fr); (focus decide)) | ((with_reducible apply takeOffer_fr); (focus decide))

theorem execBlock_fr {d : Datagram} {bad : Option Nat} {s : State} {t00 : State} (heq0 : execBlock d bad s = .next t00) : Fr 1310724 s t00 := by
  cases heq0
  repeat' first | with_reducible assumption | with_reducible exact Fr.refl _ _ | intro _ | ((with_reducible apply datagram_fr); (focus decide)) | ((with_reducible apply bundleBlock_fr); (focus decide))

theorem execImageStateSend_fr {s : State} {t00 : State} (heq0 : execImageStateSend s = .next t00) : Fr 1048832 s t00 := by
  cases heq0
  repeat' first | with_reducible exact Fr.refl _ _ | ((with_reducible apply stateSend_fr); (focus decide))

theorem execSessionAbandon_fr {s : State} {t00 : State} (heq0 : execSessionAbandon s = .next t00) : Fr 262144 s t00 := by
  cases heq0
  repeat' first | with_reducible exact Fr.refl _ _ | ((with_reducible apply sessionAbandon_fr); (focus decide))

theorem execImageDoneSend_fr {s : State} {t00 : State} (heq0 : execImageDoneSend s = .next t00) : Fr 1442093 s t00 := by
  cases heq0
  repeat' first | with_reducible exact Fr.refl _ _ | ((with_reducible apply doneSend_fr); (focus decide))

theorem execSvnFloorRaise_fr {agent : Agent} {v : W64} {s : State} {t00 : State} (heq0 : execSvnFloorRaise agent v s = .next t00) : Fr 1310724 s t00 := by
  cases heq0
  repeat' first | with_reducible exact Fr.refl _ _ | ((with_reducible apply svnRaise_fr); (focus decide))

theorem execOwnerHashProgram_fr {agent : Agent} {v : W64} {s : State} {t00 : State} (heq0 : execOwnerHashProgram agent v s = .next t00) : Fr 1310724 s t00 := by
  cases heq0
  repeat' first | with_reducible exact Fr.refl _ _ | ((with_reducible apply ownerProgram_fr); (focus decide))

theorem execMeasurementExtend_fr {agent : Agent} {v : W64} {s : State} {t00 : State} (heq0 : execMeasurementExtend agent v s = .next t00) : Fr 1310724 s t00 := by
  cases heq0
  repeat' first | with_reducible exact Fr.refl _ _ | ((with_reducible apply extCtlWrite_fr); (focus decide))

theorem execAttest_fr {id : Nat} {s : State} {t00 : State} (heq0 : execAttest id s = .next t00) : Fr 3342380 s t00 := by
  cases heq0
  repeat' first | with_reducible exact Fr.refl _ _ | ((with_reducible apply attest_fr); (focus decide))

/-! ### Resets -/

theorem resetCore_fr {s : State} {k : Nat} {mk : Nat} {s00 : State} (hmk : 2097216 ||| mk = mk) (hst : Fr mk s00 s) : Fr mk s00 (resetCore s k) := by
  refine Fr.step (k := 2097216) ?_ hmk hst
  clear hmk hst
  unfold resetCore
  try dsimp only
  repeat' first | with_reducible exact Fr.refl _ _ | ((with_reducible apply Fr.setCoresFreeCtr); (focus decide))

theorem resetBarge_fr {s : State} {b : Nat} {mk : Nat} {s00 : State} (hmk : 1048620 ||| mk = mk) (hst : Fr mk s00 s) : Fr mk s00 (resetBarge s b) := by
  refine Fr.step (k := 1048620) ?_ hmk hst
  clear hmk hst
  unfold resetBarge
  try dsimp only
  repeat' first | with_reducible assumption | with_reducible exact Fr.refl _ _ | intro _ | ((with_reducible apply unpinAll_fr); (focus decide)) | ((with_reducible apply dropSchedule_fr); (focus decide)) | (with_reducible apply Fr.foldl)

theorem clearEngine_fr {s : State} {e : Eng} {mk : Nat} {s00 : State} (hmk : 3358204 ||| mk = mk) (hst : Fr mk s00 s) : Fr mk s00 (clearEngine s e) := by
  refine Fr.step (k := 3358204) ?_ hmk hst
  clear hmk hst
  unfold clearEngine
  try dsimp only
  repeat' first | with_reducible assumption | with_reducible exact Fr.refl _ _ | intro _ | ((with_reducible apply resetCore_fr); (focus decide)) | ((with_reducible apply resetBarge_fr); (focus decide)) | ((with_reducible apply modGe_fr); (focus decide)) | ((with_reducible apply disableQueue_fr); (focus decide)) | (with_reducible apply Fr.foldl) | split | ((with_reducible apply Fr.setSsus); (focus decide)) | ((with_reducible apply Fr.setRouters); (focus decide)) | ((with_reducible apply Fr.setPcl); (focus decide))

theorem resetEngine_fr {s : State} {e : Eng} {mk : Nat} {s00 : State} (hmk : 3375100 ||| mk = mk) (hst : Fr mk s00 s) : Fr mk s00 (resetEngine s e) := by
  refine Fr.step (k := 3375100) ?_ hmk hst
  clear hmk hst
  unfold resetEngine
  try dsimp only
  repeat' first | with_reducible exact Fr.refl _ _ | ((with_reducible apply stopRunning_fr); (focus decide)) | ((with_reducible apply stopQueued_fr); (focus decide)) | ((with_reducible apply clearEngine_fr); (focus decide)) | ((with_reducible apply modEng_fr); (focus decide))

theorem stopPartition_fr {s : State} {p : Nat} {mk : Nat} {s00 : State} (hmk : 3374972 ||| mk = mk) (hst : Fr mk s00 s) : Fr mk s00 (stopPartition s p) := by
  refine Fr.step (k := 3374972) ?_ hmk hst
  clear hmk hst
  unfold stopPartition
  try dsimp only
  repeat' first | with_reducible assumption | with_reducible exact Fr.refl _ _ | intro _ | ((with_reducible apply stopRunning_fr); (focus decide)) | ((with_reducible apply stopQueued_fr); (focus decide)) | (with_reducible apply Fr.foldl)

theorem refillBuckets_fr {s : State} {p : Nat} {mk : Nat} {s00 : State} (hmk : 8 ||| mk = mk) (hst : Fr mk s00 s) : Fr mk s00 (refillBuckets s p) := by
  refine Fr.step (k := 8) ?_ hmk hst
  clear hmk hst
  unfold refillBuckets
  try dsimp only
  repeat' first | with_reducible exact Fr.refl _ _ | ((with_reducible apply modPart_fr); (focus decide))

theorem resetPartition_fr {s : State} {p : Nat} {mk : Nat} {s00 : State} (hmk : 3375100 ||| mk = mk) (hst : Fr mk s00 s) : Fr mk s00 (resetPartition s p) := by
  refine Fr.step (k := 3375100) ?_ hmk hst
  clear hmk hst
  unfold resetPartition
  try dsimp only
  repeat' first | with_reducible assumption | with_reducible exact Fr.refl _ _ | intro _ | ((with_reducible apply stopPartition_fr); (focus decide)) | ((with_reducible apply requestError_fr); (focus decide)) | ((with_reducible apply refillBuckets_fr); (focus decide)) | ((with_reducible apply clearContexts_fr); (focus decide)) | (with_reducible apply Fr.foldl)

theorem clearStores_fr {s : State} {mk : Nat} {s00 : State} (hmk : 1048612 ||| mk = mk) (hst : Fr mk s00 s) : Fr mk s00 (clearStores s) := by
  refine Fr.step (k := 1048612) ?_ hmk hst
  clear hmk hst
  unfold clearStores
  try dsimp only
  repeat' first | with_reducible assumption | with_reducible exact Fr.refl _ _ | intro _ | ((with_reducible apply sendHome_fr); (focus decide)) | (with_reducible apply Fr.foldl)

theorem dropWork_fr {s : State} {mk : Nat} {s00 : State} (hmk : 163824 ||| mk = mk) (hst : Fr mk s00 s) : Fr mk s00 (dropWork s) := by
  refine Fr.step (k := 163824) ?_ hmk hst
  clear hmk hst
  unfold dropWork
  try dsimp only
  repeat' first | with_reducible exact Fr.refl _ _ | ((with_reducible apply Fr.setEngsMemCoresSlipFryBargesRoutersSsusPclGthGrdPur); (focus decide); (focus exact fun h => h))

theorem warmRegisters_fr {s : State} {mk : Nat} {s00 : State} (hmk : 3408175 ||| mk = mk) (hst : Fr mk s00 s) : Fr mk s00 (warmRegisters s) := by
  refine Fr.step (k := 3408175) ?_ hmk hst
  clear hmk hst
  unfold warmRegisters
  try dsimp only
  repeat' first | with_reducible exact Fr.refl _ _ | ((with_reducible apply Fr.setHubPwrPrtMemFrySec); (focus decide); (focus exact fun h => h))

theorem reopen_fr {s : State} {m : Nat} {seq : BitVec 16} {mk : Nat} {s00 : State} (hmk : 65536 ||| mk = mk) (hst : Fr mk s00 s) : Fr mk s00 (reopen s m seq) := by
  refine Fr.step (k := 65536) ?_ hmk hst
  clear hmk hst
  unfold reopen
  try dsimp only
  repeat' first | with_reducible exact Fr.refl _ _ | ((with_reducible apply Fr.setMbs); (focus decide))

theorem resetEvent_fr {s : State} {kind : Nat} {target : Nat} {mk : Nat} {s00 : State} (hmk : 1048580 ||| mk = mk) (hst : Fr mk s00 s) : Fr mk s00 (resetEvent s kind target) := by
  refine Fr.step (k := 1048580) ?_ hmk hst
  clear hmk hst
  unfold resetEvent
  try dsimp only
  repeat' first | with_reducible exact Fr.refl _ _ | ((with_reducible apply raise_fr); (focus decide))

theorem resetWarm_fr {s : State} {c : PCmd} {mk : Nat} {s00 : State} (hmk : 3637247 ||| mk = mk) (hst : Fr mk s00 s) : Fr mk s00 (resetWarm s c) := by
  refine Fr.step (k := 3637247) ?_ hmk hst
  clear hmk hst
  unfold resetWarm
  try dsimp only
  repeat' first | with_reducible assumption | with_reducible exact Fr.refl _ _ | intro _ | ((with_reducible apply dropWork_fr); (focus decide)) | ((with_reducible apply resetEvent_fr); (focus decide)) | ((with_reducible apply pathLost_fr); (focus decide)) | ((with_reducible apply warmRegisters_fr); (focus decide)) | ((with_reducible apply clearStores_fr); (focus decide)) | ((with_reducible apply startLoader_fr); (focus decide)) | ((with_reducible apply reopen_fr); (focus decide)) | ((with_reducible apply takeFree_fr); (focus decide)) | ((with_reducible apply writeCpl_fr); (focus decide)) | (with_reducible apply Fr.foldl)

-- HO
theorem resetRow_fr {s : State} {id : Nat} {kind : Nat} {f : PCmd → State} {mk : Nat} {s00 : State} (hmk : 2293760 ||| mk = mk) (hf : ∀ x0, Fr mk s00 (f x0)) (hst : Fr mk s00 s) : Fr mk s00 (resetRow s id kind f) := by
  unfold resetRow
  try dsimp only
  repeat' first | with_reducible assumption | intro _ | ((with_reducible apply startRow_fr); (focus first | decide | exact sub_trans (by decide) hmk)) | ((with_reducible apply endPlain_fr); (focus first | decide | exact sub_trans (by decide) hmk)) | (with_reducible apply hf) | (with_reducible apply Fr.ite)

theorem resetWarmCmd_fr {s : State} {id : Nat} {mk : Nat} {s00 : State} (hmk : 3637247 ||| mk = mk) (hst : Fr mk s00 s) : Fr mk s00 (resetWarmCmd s id) := by
  refine Fr.step (k := 3637247) ?_ hmk hst
  clear hmk hst
  unfold resetWarmCmd
  try dsimp only
  repeat' first | with_reducible exact Fr.refl _ _ | intro _ | ((with_reducible apply resetRow_fr); (focus decide)) | ((with_reducible apply endPlain_fr); (focus decide)) | ((with_reducible apply resetWarm_fr); (focus decide)) | (with_reducible apply Fr.ite)

theorem resetPartitionCmd_fr {s : State} {id : Nat} {mk : Nat} {s00 : State} (hmk : 3375100 ||| mk = mk) (hst : Fr mk s00 s) : Fr mk s00 (resetPartitionCmd s id) := by
  refine Fr.step (k := 3375100) ?_ hmk hst
  clear hmk hst
  unfold resetPartitionCmd
  try dsimp only
  repeat' first | with_reducible exact Fr.refl _ _ | intro _ | ((with_reducible apply resetRow_fr); (focus decide)) | ((with_reducible apply endPlain_fr); (focus decide)) | ((with_reducible apply resetPartition_fr); (focus decide)) | ((with_reducible apply resetEvent_fr); (focus decide)) | (with_reducible apply Fr.ite)

theorem resetEngineCmd_fr {s : State} {id : Nat} {mk : Nat} {s00 : State} (hmk : 3375100 ||| mk = mk) (hst : Fr mk s00 s) : Fr mk s00 (resetEngineCmd s id) := by
  refine Fr.step (k := 3375100) ?_ hmk hst
  clear hmk hst
  unfold resetEngineCmd
  try dsimp only
  repeat' first | with_reducible exact Fr.refl _ _ | intro _ | ((with_reducible apply resetRow_fr); (focus decide)) | ((with_reducible apply endPlain_fr); (focus decide)) | ((with_reducible apply resetEngine_fr); (focus decide)) | ((with_reducible apply resetEvent_fr); (focus decide)) | split

theorem freshModule_fr {s : State} {mk : Nat} {s00 : State} (hmk : 524287 ||| mk = mk) (hst : Fr mk s00 s) :
    Fr mk s00 (freshModule s) := by
  refine Fr.step (k := 524287) ?_ hmk hst
  exact ⟨.inl rfl, .inl rfl, .inl rfl, .inl rfl, .inl rfl, .inl rfl, .inl rfl, .inl rfl, .inl rfl, .inl rfl, .inl rfl,
    .inl rfl, .inl rfl, .inl rfl, .inl rfl, .inl rfl, .inl rfl, .inl rfl, .inl rfl, .inr rfl, .inr rfl, .inr rfl,
    fun _ => rfl⟩

theorem evtTailWrite_fr {s : State} {a : Agent} {v : W64} {mk : Nat} {s00 : State} (hmk : 4 ||| mk = mk) (hst : Fr mk s00 s) : Fr mk s00 (evtTailWrite s a v) := by
  refine Fr.step (k := 4) ?_ hmk hst
  clear hmk hst
  unfold evtTailWrite
  try dsimp only
  repeat' first | with_reducible assumption | with_reducible exact Fr.refl _ _ | intro _ | ((with_reducible apply byAgent_fr); (focus decide)) | (with_reducible apply Fr.ite) | ((with_reducible apply Fr.setEvt); (focus decide))

theorem evtDropsRead_fr {s : State} {mk : Nat} {s00 : State} (hmk : 1048580 ||| mk = mk) (hst : Fr mk s00 s) : Fr mk s00 (evtDropsRead s) := by
  refine Fr.step (k := 1048580) ?_ hmk hst
  clear hmk hst
  unfold evtDropsRead
  try dsimp only
  repeat' first | with_reducible exact Fr.refl _ _ | ((with_reducible apply emit_fr); (focus decide)) | ((with_reducible apply Fr.setEvt); (focus decide))

theorem execResetWarm_fr {id : Nat} {s : State} {t00 : State} (heq0 : execResetWarm id s = .next t00) : Fr 3637247 s t00 := by
  cases heq0
  repeat' first | with_reducible exact Fr.refl _ _ | ((with_reducible apply resetWarmCmd_fr); (focus decide))

theorem execResetPartition_fr {id : Nat} {s : State} {t00 : State} (heq0 : execResetPartition id s = .next t00) : Fr 3375100 s t00 := by
  cases heq0
  repeat' first | with_reducible exact Fr.refl _ _ | ((with_reducible apply resetPartitionCmd_fr); (focus decide))

theorem execResetEngine_fr {id : Nat} {s : State} {t00 : State} (heq0 : execResetEngine id s = .next t00) : Fr 3375100 s t00 := by
  cases heq0
  repeat' first | with_reducible exact Fr.refl _ _ | ((with_reducible apply resetEngineCmd_fr); (focus decide))

theorem execEvtTailWrite_fr {agent : Agent} {v : W64} {s : State} {t00 : State} (heq0 : execEvtTailWrite agent v s = .next t00) : Fr 4 s t00 := by
  cases heq0
  repeat' first | with_reducible exact Fr.refl _ _ | ((with_reducible apply evtTailWrite_fr); (focus decide))

theorem execEvtDropsRead_fr {s : State} {t00 : State} (heq0 : execEvtDropsRead s = .next t00) : Fr 1048580 s t00 := by
  cases heq0
  repeat' first | with_reducible exact Fr.refl _ _ | ((with_reducible apply evtDropsRead_fr); (focus decide))

/-! ### Power -/

theorem modPwr_fr {s : State} {f : PwrSt → PwrSt} {mk : Nat} {s00 : State} (hmk : 2 ||| mk = mk) (hst : Fr mk s00 s) : Fr mk s00 (modPwr s f) := by
  refine Fr.step (k := 2) ?_ hmk hst
  clear hmk hst
  unfold modPwr
  try dsimp only
  repeat' first | with_reducible exact Fr.refl _ _ | ((with_reducible apply Fr.setPwr); (focus decide))

theorem deckWindow_fr {counts : List RateReading} {s : State} {d : Nat} {mk : Nat} {s00 : State} (hmk : 1048582 ||| mk = mk) (hst : Fr mk s00 s) : Fr mk s00 (deckWindow counts s d) := by
  refine Fr.step (k := 1048582) ?_ hmk hst
  clear hmk hst
  unfold deckWindow
  try dsimp only
  repeat' first | with_reducible exact Fr.refl _ _ | intro _ | ((with_reducible apply modPwr_fr); (focus decide)) | ((with_reducible apply raise_fr); (focus decide)) | (with_reducible apply Fr.ite)

theorem rateWindow_fr {s : State} {readings : List RateReading} {mk : Nat} {s00 : State} (hmk : 1048582 ||| mk = mk) (hst : Fr mk s00 s) : Fr mk s00 (rateWindow s readings) := by
  refine Fr.step (k := 1048582) ?_ hmk hst
  clear hmk hst
  unfold rateWindow
  try dsimp only
  repeat' first | with_reducible assumption | with_reducible exact Fr.refl _ _ | intro _ | ((with_reducible apply modPwr_fr); (focus decide)) | ((with_reducible apply deckWindow_fr); (focus decide)) | (with_reducible apply Fr.ite) | (with_reducible apply Fr.foldl)

theorem rateMinRead_fr {s : State} {d : Nat} {mk : Nat} {s00 : State} (hmk : 1048578 ||| mk = mk) (hst : Fr mk s00 s) : Fr mk s00 (rateMinRead s d) := by
  refine Fr.step (k := 1048578) ?_ hmk hst
  clear hmk hst
  unfold rateMinRead
  try dsimp only
  repeat' first | with_reducible exact Fr.refl _ _ | ((with_reducible apply emit_fr); (focus decide)) | ((with_reducible apply modPwr_fr); (focus decide))

theorem deckStep_fr {pIn : Nat} {s : State} {d : Nat} {mk : Nat} {s00 : State} (hmk : 1048582 ||| mk = mk) (hst : Fr mk s00 s) : Fr mk s00 (deckStep pIn s d) := by
  refine Fr.step (k := 1048582) ?_ hmk hst
  clear hmk hst
  unfold deckStep
  try dsimp only
  repeat' first | with_reducible exact Fr.refl _ _ | intro _ | ((with_reducible apply modPwr_fr); (focus decide)) | ((with_reducible apply raise_fr); (focus decide)) | (with_reducible apply Fr.ite)

theorem voltageStep_fr {s : State} {pIn : Nat} {mk : Nat} {s00 : State} (hmk : 1048582 ||| mk = mk) (hst : Fr mk s00 s) : Fr mk s00 (voltageStep s pIn) := by
  refine Fr.step (k := 1048582) ?_ hmk hst
  clear hmk hst
  unfold voltageStep
  try dsimp only
  repeat' first | with_reducible assumption | with_reducible exact Fr.refl _ _ | intro _ | ((with_reducible apply deckStep_fr); (focus decide)) | (with_reducible apply Fr.ite) | (with_reducible apply Fr.foldl)

theorem sensorSample_fr {s : State} {r : SensorReadings} {mk : Nat} {s00 : State} (hmk : 2 ||| mk = mk) (hst : Fr mk s00 s) : Fr mk s00 (sensorSample s r) := by
  refine Fr.step (k := 2) ?_ hmk hst
  clear hmk hst
  unfold sensorSample
  try dsimp only
  repeat' first | with_reducible exact Fr.refl _ _ | intro _ | ((with_reducible apply modPwr_fr); (focus decide)) | (with_reducible apply Fr.ite)

theorem powerOn_fr {s : State} {mk : Nat} {s00 : State} (hmk : 524287 ||| mk = mk) (hst : Fr mk s00 s) : Fr mk s00 (powerOn s) := by
  refine Fr.step (k := 524287) ?_ hmk hst
  clear hmk hst
  unfold powerOn
  try dsimp only
  repeat' first | with_reducible exact Fr.refl _ _ | intro _ | ((with_reducible apply freshModule_fr); (focus decide)) | (with_reducible apply Fr.ite) | ((with_reducible apply Fr.setPwr); (focus decide))

theorem powerDown_fr {s : State} {mk : Nat} {s00 : State} (hmk : 524287 ||| mk = mk) (hst : Fr mk s00 s) : Fr mk s00 (powerDown s) := by
  refine Fr.step (k := 524287) ?_ hmk hst
  clear hmk hst
  unfold powerDown
  try dsimp only
  repeat' first | with_reducible exact Fr.refl _ _ | ((with_reducible apply freshModule_fr); (focus decide)) | ((with_reducible apply Fr.setPwr); (focus decide))

theorem moduleReset_fr {s : State} {l : TripLevels} {mk : Nat} {s00 : State} (hmk : 524287 ||| mk = mk) (hst : Fr mk s00 s) : Fr mk s00 (moduleReset s l) := by
  refine Fr.step (k := 524287) ?_ hmk hst
  clear hmk hst
  unfold moduleReset
  try dsimp only
  repeat' first | with_reducible exact Fr.refl _ _ | ((with_reducible apply freshModule_fr); (focus decide)) | split

theorem trip_fr {s : State} {c : TripCause} {mk : Nat} {s00 : State} (hmk : 524287 ||| mk = mk) (hst : Fr mk s00 s) : Fr mk s00 (trip s c) := by
  refine Fr.step (k := 524287) ?_ hmk hst
  clear hmk hst
  unfold trip
  try dsimp only
  repeat' first | with_reducible exact Fr.refl _ _ | ((with_reducible apply freshModule_fr); (focus decide)) | split | ((with_reducible apply Fr.setPwr); (focus decide))

theorem moorReqChange_fr {s : State} {low : Bool} {mk : Nat} {s00 : State} (hmk : 2 ||| mk = mk) (hst : Fr mk s00 s) : Fr mk s00 (moorReqChange s low) := by
  refine Fr.step (k := 2) ?_ hmk hst
  clear hmk hst
  unfold moorReqChange
  try dsimp only
  repeat' first | with_reducible exact Fr.refl _ _ | ((with_reducible apply modPwr_fr); (focus decide))

theorem moorCmd_fr {s : State} {id : Nat} {mk : Nat} {s00 : State} (hmk : 2293762 ||| mk = mk) (hst : Fr mk s00 s) : Fr mk s00 (moorCmd s id) := by
  refine Fr.step (k := 2293762) ?_ hmk hst
  clear hmk hst
  unfold moorCmd
  try dsimp only
  repeat' first | with_reducible exact Fr.refl _ _ | intro _ | ((with_reducible apply startRow_fr); (focus decide)) | ((with_reducible apply endPlain_fr); (focus decide)) | ((with_reducible apply modPwr_fr); (focus decide)) | ((with_reducible apply putCmd_fr); (focus decide)) | (with_reducible apply Fr.ite)

theorem moorCtlSet_fr {s : State} {v : W64} {mk : Nat} {s00 : State} (hmk : 2 ||| mk = mk) (hst : Fr mk s00 s) : Fr mk s00 (moorCtlSet s v) := by
  refine Fr.step (k := 2) ?_ hmk hst
  clear hmk hst
  unfold moorCtlSet
  try dsimp only
  repeat' first | with_reducible exact Fr.refl _ _ | ((with_reducible apply modPwr_fr); (focus decide))

theorem moorWakeWrite_fr {s : State} {a : Agent} {v : W64} {mk : Nat} {s00 : State} (hmk : 1048582 ||| mk = mk) (hst : Fr mk s00 s) : Fr mk s00 (moorWakeWrite s a v) := by
  refine Fr.step (k := 1048582) ?_ hmk hst
  clear hmk hst
  unfold moorWakeWrite
  try dsimp only
  repeat' first | with_reducible exact Fr.refl _ _ | intro _ | ((with_reducible apply moorCtlSet_fr); (focus decide)) | ((with_reducible apply protWrite_fr); (focus decide)) | (with_reducible apply Fr.ite)

theorem moorEntry_fr {s : State} {mk : Nat} {s00 : State} (hmk : 2 ||| mk = mk) (hst : Fr mk s00 s) : Fr mk s00 (moorEntry s) := by
  refine Fr.step (k := 2) ?_ hmk hst
  clear hmk hst
  unfold moorEntry
  try dsimp only
  repeat' first | with_reducible exact Fr.refl _ _ | intro _ | ((with_reducible apply modPwr_fr); (focus decide)) | (with_reducible apply Fr.ite)

theorem moorEnds_fr {s : State} {st : Status} {mk : Nat} {s00 : State} (hmk : 2293762 ||| mk = mk) (hst : Fr mk s00 s) : Fr mk s00 (moorEnds s st) := by
  refine Fr.step (k := 2293762) ?_ hmk hst
  clear hmk hst
  unfold moorEnds
  try dsimp only
  repeat' first | with_reducible exact Fr.refl _ _ | ((with_reducible apply endPlain_fr); (focus decide)) | ((with_reducible apply modPwr_fr); (focus decide)) | split

theorem parkStores_fr {s : State} {mk : Nat} {s00 : State} (hmk : 1048612 ||| mk = mk) (hst : Fr mk s00 s) : Fr mk s00 (parkStores s) := by
  refine Fr.step (k := 1048612) ?_ hmk hst
  clear hmk hst
  unfold parkStores
  try dsimp only
  repeat' first | with_reducible exact Fr.refl _ _ | ((with_reducible apply clearStores_fr); (focus decide)) | ((with_reducible apply Fr.setMem); (focus decide); (focus exact fun h => h))

theorem gateDecks_fr {s : State} {mk : Nat} {s00 : State} (hmk : 2 ||| mk = mk) (hst : Fr mk s00 s) : Fr mk s00 (gateDecks s) := by
  refine Fr.step (k := 2) ?_ hmk hst
  clear hmk hst
  unfold gateDecks
  try dsimp only
  repeat' first | with_reducible exact Fr.refl _ _ | ((with_reducible apply modPwr_fr); (focus decide))

theorem moorDrained_fr {s : State} {mk : Nat} {s00 : State} (hmk : 3352575 ||| mk = mk) (hst : Fr mk s00 s) : Fr mk s00 (moorDrained s) := by
  refine Fr.step (k := 3352575) ?_ hmk hst
  clear hmk hst
  unfold moorDrained
  try dsimp only
  repeat' first | with_reducible assumption | with_reducible exact Fr.refl _ _ | intro _ | ((with_reducible apply moorEnds_fr); (focus decide)) | ((with_reducible apply parkStores_fr); (focus decide)) | ((with_reducible apply gateDecks_fr); (focus decide)) | ((with_reducible apply portLinkDown_fr); (focus decide)) | (with_reducible apply Fr.ite) | (with_reducible apply Fr.foldl) | ((with_reducible apply Fr.setHub); (focus decide))

theorem moorExpiry_fr {s : State} {mk : Nat} {s00 : State} (hmk : 2293762 ||| mk = mk) (hst : Fr mk s00 s) : Fr mk s00 (moorExpiry s) := by
  refine Fr.step (k := 2293762) ?_ hmk hst
  clear hmk hst
  unfold moorExpiry
  try dsimp only
  repeat' first | with_reducible exact Fr.refl _ _ | intro _ | ((with_reducible apply modPwr_fr); (focus decide)) | ((with_reducible apply moorEnds_fr); (focus decide)) | (with_reducible apply Fr.ite)

theorem fetchBack_fr {s : State} {g : Nat × Gran} {mk : Nat} {s00 : State} (hmk : 1048612 ||| mk = mk) (hst : Fr mk s00 s) : Fr mk s00 (fetchBack s g) := by
  refine Fr.step (k := 1048612) ?_ hmk hst
  clear hmk hst
  unfold fetchBack
  try dsimp only
  repeat' first | with_reducible exact Fr.refl _ _ | ((with_reducible apply noteHbmBad_fr); (focus decide)) | ((with_reducible apply modDeck_fr); (focus decide)) | split | ((with_reducible apply Fr.setMem); (focus decide); (focus exact fun h => h))

theorem accsLost_fr {s : State} {mk : Nat} {s00 : State} (hmk : 2097216 ||| mk = mk) (hst : Fr mk s00 s) : Fr mk s00 (accsLost s) := by
  refine Fr.step (k := 2097216) ?_ hmk hst
  clear hmk hst
  unfold accsLost
  try dsimp only
  repeat' first | with_reducible assumption | with_reducible exact Fr.refl _ _ | intro _ | (with_reducible apply Fr.foldl) | ((with_reducible apply Fr.setCoresFreeCtr); (focus decide))

theorem wake_fr {s : State} {mk : Nat} {s00 : State} (hmk : 3145831 ||| mk = mk) (hst : Fr mk s00 s) : Fr mk s00 (wake s) := by
  refine Fr.step (k := 3145831) ?_ hmk hst
  clear hmk hst
  unfold wake
  try dsimp only
  repeat' first | with_reducible assumption | with_reducible exact Fr.refl _ _ | intro _ | ((with_reducible apply modPwr_fr); (focus decide)) | ((with_reducible apply accsLost_fr); (focus decide)) | ((with_reducible apply fetchBack_fr); (focus decide)) | ((with_reducible apply emit_fr); (focus decide)) | (with_reducible apply Fr.ite) | (with_reducible apply Fr.foldl) | ((with_reducible apply Fr.setHub); (focus decide))

theorem smbusRead_fr {s : State} {cmd : Nat} {mk : Nat} {s00 : State} (hmk : 1048576 ||| mk = mk) (hst : Fr mk s00 s) : Fr mk s00 (smbusRead s cmd) := by
  refine Fr.step (k := 1048576) ?_ hmk hst
  clear hmk hst
  unfold smbusRead
  try dsimp only
  repeat' first | with_reducible exact Fr.refl _ _ | intro _ | ((with_reducible apply emit_fr); (focus decide)) | (with_reducible apply Fr.ite)

theorem mgmtLinkUp_fr {s : State} {mk : Nat} {s00 : State} (hmk : 1 ||| mk = mk) (hst : Fr mk s00 s) : Fr mk s00 (mgmtLinkUp s) := by
  refine Fr.step (k := 1) ?_ hmk hst
  clear hmk hst
  unfold mgmtLinkUp
  try dsimp only
  repeat' first | with_reducible exact Fr.refl _ _ | split | ((with_reducible apply Fr.setHub); (focus decide))

theorem mgmtLinkDown_fr {s : State} {mk : Nat} {s00 : State} (hmk : 1 ||| mk = mk) (hst : Fr mk s00 s) : Fr mk s00 (mgmtLinkDown s) := by
  refine Fr.step (k := 1) ?_ hmk hst
  clear hmk hst
  unfold mgmtLinkDown
  try dsimp only
  repeat' first | with_reducible exact Fr.refl _ _ | intro _ | (with_reducible apply Fr.ite) | ((with_reducible apply Fr.setHub); (focus decide))

theorem cageChange_fr {s : State} {present : Bool} {mk : Nat} {s00 : State} (hmk : 1 ||| mk = mk) (hst : Fr mk s00 s) : Fr mk s00 (cageChange s present) := by
  refine Fr.step (k := 1) ?_ hmk hst
  clear hmk hst
  unfold cageChange
  try dsimp only
  repeat' first | with_reducible exact Fr.refl _ _ | ((with_reducible apply Fr.setHub); (focus decide))

theorem wheelStore_fr {s : State} {hart : Nat} {addr : Nat} {b : Bytes} {mk : Nat} {s00 : State} (hmk : 1048620 ||| mk = mk) (hst : Fr mk s00 s) : Fr mk s00 (wheelStore s hart addr b) := by
  refine Fr.step (k := 1048620) ?_ hmk hst
  clear hmk hst
  unfold wheelStore
  try dsimp only
  repeat' first | with_reducible exact Fr.refl _ _ | intro _ | ((with_reducible apply emit_fr); (focus decide)) | ((with_reducible apply wr_fr); (focus decide)) | (with_reducible apply AFr.run) | (with_reducible apply Fr.ite)

theorem execVoltageControlStep_fr {pIn : Nat} {s : State} {t00 : State} (heq0 : execVoltageControlStep pIn s = .next t00) : Fr 1048582 s t00 := by
  cases heq0
  repeat' first | with_reducible exact Fr.refl _ _ | ((with_reducible apply voltageStep_fr); (focus decide))

theorem execRateWindowEnd_fr {readings : List RateReading} {s : State} {t00 : State} (heq0 : execRateWindowEnd readings s = .next t00) : Fr 1048582 s t00 := by
  cases heq0
  repeat' first | with_reducible exact Fr.refl _ _ | ((with_reducible apply rateWindow_fr); (focus decide))

theorem execPwrRateMinRead_fr {d : Nat} {s : State} {t00 : State} (heq0 : execPwrRateMinRead d s = .next t00) : Fr 1048578 s t00 := by
  cases heq0
  repeat' first | with_reducible exact Fr.refl _ _ | ((with_reducible apply rateMinRead_fr); (focus decide))

theorem execSensorSample_fr {r : SensorReadings} {s : State} {t00 : State} (heq0 : execSensorSample r s = .next t00) : Fr 2 s t00 := by
  cases heq0
  repeat' first | with_reducible exact Fr.refl _ _ | ((with_reducible apply sensorSample_fr); (focus decide))

theorem execPowerOn_fr {s : State} {t00 : State} (heq0 : execPowerOn s = .next t00) : Fr 524287 s t00 := by
  cases heq0
  repeat' first | with_reducible assumption | with_reducible exact Fr.refl _ _ | intro _ | ((with_reducible apply powerOn_fr); (focus decide))

theorem execPowerDown_fr {s : State} {t00 : State} (heq0 : execPowerDown s = .next t00) : Fr 524287 s t00 := by
  cases heq0
  repeat' first | with_reducible exact Fr.refl _ _ | ((with_reducible apply powerDown_fr); (focus decide))

theorem execModuleReset_fr {l : TripLevels} {s : State} {t00 : State} (heq0 : execModuleReset l s = .next t00) : Fr 524287 s t00 := by
  cases heq0
  repeat' first | with_reducible exact Fr.refl _ _ | ((with_reducible apply moduleReset_fr); (focus decide))

theorem execTrip_fr {c : TripCause} {s : State} {t00 : State} (heq0 : execTrip c s = .next t00) : Fr 524287 s t00 := by
  cases heq0
  repeat' first | with_reducible exact Fr.refl _ _ | ((with_reducible apply trip_fr); (focus decide))

theorem execMoor_fr {id : Nat} {s : State} {t00 : State} (heq0 : execMoor id s = .next t00) : Fr 2293762 s t00 := by
  cases heq0
  repeat' first | with_reducible exact Fr.refl _ _ | ((with_reducible apply moorCmd_fr); (focus decide))

theorem execMoorReqChange_fr {low : Bool} {s : State} {t00 : State} (heq0 : execMoorReqChange low s = .next t00) : Fr 2 s t00 := by
  cases heq0
  repeat' first | with_reducible exact Fr.refl _ _ | ((with_reducible apply moorReqChange_fr); (focus decide))

theorem execMoorWakeWrite_fr {agent : Agent} {v : W64} {s : State} {t00 : State} (heq0 : execMoorWakeWrite agent v s = .next t00) : Fr 1048582 s t00 := by
  cases heq0
  repeat' first | with_reducible exact Fr.refl _ _ | ((with_reducible apply moorWakeWrite_fr); (focus decide))

theorem execMoorEntry_fr {s : State} {t00 : State} (heq0 : execMoorEntry s = .next t00) : Fr 2 s t00 := by
  cases heq0
  repeat' first | with_reducible exact Fr.refl _ _ | ((with_reducible apply moorEntry_fr); (focus decide))

theorem execMoorDrained_fr {s : State} {t00 : State} (heq0 : execMoorDrained s = .next t00) : Fr 3352575 s t00 := by
  cases heq0
  repeat' first | with_reducible exact Fr.refl _ _ | ((with_reducible apply moorDrained_fr); (focus decide))

theorem execMoorWaitExpiry_fr {s : State} {t00 : State} (heq0 : execMoorWaitExpiry s = .next t00) : Fr 2293762 s t00 := by
  cases heq0
  repeat' first | with_reducible exact Fr.refl _ _ | ((with_reducible apply moorExpiry_fr); (focus decide))

theorem execWake_fr {s : State} {t00 : State} (heq0 : execWake s = .next t00) : Fr 3145831 s t00 := by
  cases heq0
  repeat' first | with_reducible exact Fr.refl _ _ | ((with_reducible apply wake_fr); (focus decide))

theorem execSmbusRead_fr {cmd : Nat} {s : State} {t00 : State} (heq0 : execSmbusRead cmd s = .next t00) : Fr 1048576 s t00 := by
  cases heq0
  repeat' first | with_reducible exact Fr.refl _ _ | ((with_reducible apply smbusRead_fr); (focus decide))

theorem execMgmtLinkUp_fr {s : State} {t00 : State} (heq0 : execMgmtLinkUp s = .next t00) : Fr 1 s t00 := by
  cases heq0
  repeat' first | with_reducible exact Fr.refl _ _ | ((with_reducible apply mgmtLinkUp_fr); (focus decide))

theorem execMgmtLinkDown_fr {s : State} {t00 : State} (heq0 : execMgmtLinkDown s = .next t00) : Fr 1 s t00 := by
  cases heq0
  repeat' first | with_reducible exact Fr.refl _ _ | ((with_reducible apply mgmtLinkDown_fr); (focus decide))

theorem execMgmtCageChange_fr {present : Bool} {s : State} {t00 : State} (heq0 : execMgmtCageChange present s = .next t00) : Fr 1 s t00 := by
  cases heq0
  repeat' first | with_reducible exact Fr.refl _ _ | ((with_reducible apply cageChange_fr); (focus decide))

theorem execWheelhouseStore_fr {hart : Nat} {addr : Nat} {bytes : Bytes} {s : State} {t00 : State} (heq0 : execWheelhouseStore hart addr bytes s = .next t00) : Fr 1048620 s t00 := by
  cases heq0
  repeat' first | with_reducible exact Fr.refl _ _ | ((with_reducible apply wheelStore_fr); (focus decide))

/-! ### Control -/

theorem faultWrite_fr {s : State} {e : Eng} {v : W64} {mk : Nat} {s00 : State} (hmk : 16 ||| mk = mk) (hst : Fr mk s00 s) : Fr mk s00 (faultWrite s e v) := by
  refine Fr.step (k := 16) ?_ hmk hst
  clear hmk hst
  unfold faultWrite
  try dsimp only
  repeat' first | with_reducible exact Fr.refl _ _ | intro _ | ((with_reducible apply modEng_fr); (focus decide)) | (with_reducible apply Fr.ite)

theorem haltWrite_fr {s : State} {e : Eng} {c : Nat} {v : W64} {mk : Nat} {s00 : State} (hmk : 16 ||| mk = mk) (hst : Fr mk s00 s) : Fr mk s00 (haltWrite s e c v) := by
  refine Fr.step (k := 16) ?_ hmk hst
  clear hmk hst
  unfold haltWrite
  try dsimp only
  repeat' first | with_reducible exact Fr.refl _ _ | intro _ | ((with_reducible apply clearHalt_fr); (focus decide)) | (with_reducible apply Fr.ite)

theorem afterRead_fr {s : State} {addr : Nat} {mk : Nat} {s00 : State} (hmk : 6 ||| mk = mk) (hst : Fr mk s00 s) : Fr mk s00 (afterRead s addr) := by
  refine Fr.step (k := 6) ?_ hmk hst
  clear hmk hst
  unfold afterRead
  try dsimp only
  repeat' first | with_reducible exact Fr.refl _ _ | ((with_reducible apply modPwr_fr); (focus decide)) | split | ((with_reducible apply Fr.setEvt); (focus decide))


theorem mbCfgWrite_fr {s : State} {a : Agent} {m : Nat} {v : W64} {mk : Nat} {s00 : State} (hmk : 1114116 ||| mk = mk) (hst : Fr mk s00 s) : Fr mk s00 (mbCfgWrite s a m v) := by
  refine Fr.step (k := 1114116) ?_ hmk hst
  clear hmk hst
  unfold mbCfgWrite
  try dsimp only
  repeat' first | with_reducible exact Fr.refl _ _ | intro _ | ((with_reducible apply protWrite_fr); (focus decide)) | ((with_reducible apply modMb_fr); (focus decide)) | (with_reducible apply Fr.ite)

theorem mbCtlWrite_fr {s : State} {a : Agent} {m : Nat} {v : W64} {mk : Nat} {s00 : State} (hmk : 3342638 ||| mk = mk) (hst : Fr mk s00 s) : Fr mk s00 (mbCtlWrite s a m v) := by
  refine Fr.step (k := 3342638) ?_ hmk hst
  clear hmk hst
  unfold mbCtlWrite
  try dsimp only
  repeat' first | with_reducible exact Fr.refl _ _ | ((with_reducible apply mailboxOpen_fr); (focus decide)) | ((with_reducible apply mailboxClose_fr); (focus decide)) | split

theorem mbErrWrite_fr {s : State} {a : Agent} {m : Nat} {v : W64} {mk : Nat} {s00 : State} (hmk : 65536 ||| mk = mk) (hst : Fr mk s00 s) : Fr mk s00 (mbErrWrite s a m v) := by
  refine Fr.step (k := 65536) ?_ hmk hst
  clear hmk hst
  unfold mbErrWrite
  try dsimp only
  repeat' first | with_reducible exact Fr.refl _ _ | intro _ | ((with_reducible apply modMb_fr); (focus decide)) | (with_reducible apply Fr.ite)

theorem ringWrite_fr {s : State} {a : Agent} {i : Nat} {v : W64} {mk : Nat} {s00 : State} (hmk : 65536 ||| mk = mk) (hst : Fr mk s00 s) : Fr mk s00 (ringWrite s a i v) := by
  refine Fr.step (k := 65536) ?_ hmk hst
  clear hmk hst
  unfold ringWrite
  try dsimp only
  repeat' first | with_reducible exact Fr.refl _ _ | intro _ | ((with_reducible apply modMb_fr); (focus decide)) | (with_reducible apply Fr.ite)


theorem windowWrite_fr {s : State} {p : Nat} {w : Nat} {f : Window → Window} {mk : Nat} {s00 : State} (hmk : 8 ||| mk = mk) (hst : Fr mk s00 s) : Fr mk s00 (windowWrite s p w f) := by
  refine Fr.step (k := 8) ?_ hmk hst
  clear hmk hst
  unfold windowWrite
  try dsimp only
  repeat' first | with_reducible exact Fr.refl _ _ | intro _ | ((with_reducible apply modPart_fr); (focus decide)) | (with_reducible apply Fr.ite)

theorem shareWrite_fr {s : State} {c : Nat} {f : CtxCfg → CtxCfg} {mk : Nat} {s00 : State} (hmk : 8 ||| mk = mk) (hst : Fr mk s00 s) : Fr mk s00 (shareWrite s c f) := by
  refine Fr.step (k := 8) ?_ hmk hst
  clear hmk hst
  unfold shareWrite
  try dsimp only
  repeat' first | with_reducible exact Fr.refl _ _ | intro _ | ((with_reducible apply modCtx_fr); (focus decide)) | (with_reducible apply Fr.ite)




theorem ppsCtlWrite_fr {s : State} {v : W64} {mk : Nat} {s00 : State} (hmk : 256 ||| mk = mk) (hst : Fr mk s00 s) : Fr mk s00 (ppsCtlWrite s v) := by
  refine Fr.step (k := 256) ?_ hmk hst
  clear hmk hst
  unfold ppsCtlWrite
  try dsimp only
  repeat' first | with_reducible exact Fr.refl _ _ | ((with_reducible apply modFry_fr); (focus decide))












/-- Every write of a table keeps to a mask. -/
def RowsFr (m : Nat) (s : State) (l : WriteRows) : Prop := ∀ r ∈ l, ∀ i, Fr m s (r.at_ i)

theorem RowsFr.nil {m : Nat} {s : State} : RowsFr m s [] := fun _ h => absurd h (by simp)

theorem RowsFr.cons {m : Nat} {s : State} {r : RegRow State} {l : WriteRows} (hr : ∀ i, Fr m s (r.at_ i))
    (hl : RowsFr m s l) : RowsFr m s (r :: l) := by
  intro x hx
  rcases List.mem_cons.mp hx with rfl | h
  · exact hr
  · exact hl x h

theorem RowsFr.append {m : Nat} {s : State} {l k : WriteRows} (hl : RowsFr m s l) (hk : RowsFr m s k) :
    RowsFr m s (l ++ k) := by
  intro x hx
  rcases List.mem_append.mp hx with h | h
  · exact hl x h
  · exact hk x h

theorem RowsFr.ite {m : Nat} {s : State} {c : Prop} [Decidable c] {l k : WriteRows} (hl : c → RowsFr m s l)
    (hk : ¬c → RowsFr m s k) : RowsFr m s (if c then l else k) := by
  by_cases h : c
  · rw [if_pos h]; exact hl h
  · rw [if_neg h]; exact hk h

theorem RowsFr.map {α : Type} {m : Nat} {s : State} {f : α → RegRow State} {l : List α}
    (h : ∀ x i, Fr m s ((f x).at_ i)) : RowsFr m s (l.map f) := by
  intro r hr
  obtain ⟨x, _, rfl⟩ := List.mem_map.mp hr
  exact h x

theorem RowsFr.flatMap {α : Type} {m : Nat} {s : State} {f : α → WriteRows} {l : List α}
    (h : ∀ x, RowsFr m s (f x)) : RowsFr m s (l.flatMap f) := by
  intro r hr
  obtain ⟨x, _, hx⟩ := List.mem_flatMap.mp hr
  exact h x r hx

theorem RowsFr.find {m : Nat} {s t : State} {l : WriteRows} (h : RowsFr m s l) (ht : Fr m s t) (off : Nat) :
    Fr m s ((regFind l off).getD t) := by
  unfold regFind
  cases hx : l.findSome? fun r => (regIndex off r.base r.stride r.count).map r.at_ with
  | none => exact ht
  | some u =>
    obtain ⟨r, hr, hu⟩ := List.exists_of_findSome?_eq_some hx
    cases hi : regIndex off r.base r.stride r.count with
    | none => rw [hi] at hu; cases hu
    | some i => rw [hi] at hu; cases hu; exact h r hr i

theorem writeHub_fr {s : State} {v : W64} {mk : Nat} {s00 : State} (hmk : 1 ||| mk = mk) (hst : Fr mk s00 s) :
    RowsFr mk s00 (writeHub s v) := by
  suffices h : RowsFr 1 s (writeHub s v) from fun r hr i => Fr.step (h r hr i) hmk hst
  clear hmk hst
  unfold writeHub
  try dsimp only
  repeat' first | with_reducible exact Fr.refl _ _ | with_reducible exact RowsFr.nil | (with_reducible apply RowsFr.cons) | dsimp only [reg] | (with_reducible apply Fr.ite) | intro _ | ((with_reducible apply Fr.setHub); (focus decide))

theorem writePur_fr {s : State} {a : Agent} {v : W64} {mk : Nat} {s00 : State} (hmk : 3342638 ||| mk = mk) (hst : Fr mk s00 s) :
    RowsFr mk s00 (writePur s a v) := by
  suffices h : RowsFr 3342638 s (writePur s a v) from fun r hr i => Fr.step (h r hr i) hmk hst
  clear hmk hst
  unfold writePur
  try dsimp only
  repeat' first | with_reducible assumption | with_reducible exact Fr.refl _ _ | with_reducible exact RowsFr.nil | (with_reducible apply RowsFr.cons) | dsimp only [reg] | ((with_reducible apply byAgent_fr); (focus decide)) | ((with_reducible apply modClass_fr); (focus decide)) | ((with_reducible apply mbCfgWrite_fr); (focus decide)) | ((with_reducible apply mbCtlWrite_fr); (focus decide)) | ((with_reducible apply doorbellWrite_fr); (focus decide)) | ((with_reducible apply cplTailWrite_fr); (focus decide)) | ((with_reducible apply mbErrWrite_fr); (focus decide)) | ((with_reducible apply budgetPeriodWrite_fr); (focus decide)) | ((with_reducible apply ringWrite_fr); (focus decide)) | intro _ | ((with_reducible apply Fr.setPur); (focus decide))

theorem writePrt_fr {s : State} {v : W64} {mk : Nat} {s00 : State} (hmk : 3373948 ||| mk = mk) (hst : Fr mk s00 s) :
    RowsFr mk s00 (writePrt s v) := by
  suffices h : RowsFr 3373948 s (writePrt s v) from fun r hr i => Fr.step (h r hr i) hmk hst
  clear hmk hst
  unfold writePrt
  try dsimp only
  repeat' first | with_reducible exact Fr.refl _ _ | with_reducible exact RowsFr.nil | (with_reducible apply RowsFr.cons) | (with_reducible apply RowsFr.append) | (with_reducible apply RowsFr.map) | ((with_reducible apply shareWrite_fr); (focus decide)) | ((with_reducible apply queryCtxSet_fr); (focus decide)) | ((with_reducible apply windowWrite_fr); (focus decide)) | ((with_reducible apply bucketSet_fr); (focus decide)) | ((with_reducible apply ctxCfgWrite_fr); (focus decide)) | intro _

theorem writePwr_fr {s : State} {a : Agent} {v : W64} {mk : Nat} {s00 : State} (hmk : 1048582 ||| mk = mk) (hst : Fr mk s00 s) :
    RowsFr mk s00 (writePwr s a v) := by
  suffices h : RowsFr 1048582 s (writePwr s a v) from fun r hr i => Fr.step (h r hr i) hmk hst
  clear hmk hst
  unfold writePwr
  try dsimp only
  repeat' first | with_reducible exact Fr.refl _ _ | with_reducible exact RowsFr.nil | (with_reducible apply RowsFr.cons) | dsimp only [reg] | ((with_reducible apply byAgent_fr); (focus decide)) | ((with_reducible apply modPwr_fr); (focus decide)) | ((with_reducible apply moorCtlSet_fr); (focus decide)) | ((with_reducible apply protWrite_fr); (focus decide)) | (with_reducible apply Fr.ite) | intro _

theorem writeSec_fr {s : State} {a : Agent} {v : W64} {mk : Nat} {s00 : State} (hmk : 1310724 ||| mk = mk) (hst : Fr mk s00 s) :
    RowsFr mk s00 (writeSec s a v) := by
  suffices h : RowsFr 1310724 s (writeSec s a v) from fun r hr i => Fr.step (h r hr i) hmk hst
  clear hmk hst
  unfold writeSec
  try dsimp only
  repeat' first | with_reducible exact Fr.refl _ _ | with_reducible exact RowsFr.nil | (with_reducible apply RowsFr.cons) | dsimp only [reg] | ((with_reducible apply svnRaise_fr); (focus decide)) | ((with_reducible apply byAgent_fr); (focus decide)) | ((with_reducible apply modSec_fr); (focus decide)) | ((with_reducible apply protWrite_fr); (focus decide)) | ((with_reducible apply ownerProgram_fr); (focus decide)) | ((with_reducible apply extCtlWrite_fr); (focus decide)) | (with_reducible apply Fr.ite) | intro _

theorem writeFry_fr {s : State} {a : Agent} {v : W64} {mk : Nat} {s00 : State} (hmk : 3352572 ||| mk = mk) (hst : Fr mk s00 s) :
    RowsFr mk s00 (writeFry s a v) := by
  suffices h : RowsFr 3352572 s (writeFry s a v) from fun r hr i => Fr.step (h r hr i) hmk hst
  clear hmk hst
  unfold writeFry
  try dsimp only
  repeat' first | with_reducible exact Fr.refl _ _ | with_reducible exact RowsFr.nil | (with_reducible apply RowsFr.cons) | dsimp only [reg] | ((with_reducible apply byAgent_fr); (focus decide)) | ((with_reducible apply modFry_fr); (focus decide)) | ((with_reducible apply modPort_fr); (focus decide)) | ((with_reducible apply berthSet_fr); (focus decide)) | ((with_reducible apply ppsCtlWrite_fr); (focus decide)) | ((with_reducible apply portCfgWrite_fr); (focus decide)) | ((with_reducible apply clientRingWrite_fr); (focus decide)) | ((with_reducible apply clientTailWrite_fr); (focus decide)) | ((with_reducible apply pathTableWrite_fr); (focus decide)) | intro _

theorem writeSlp_fr {s : State} {a : Agent} {v : W64} {mk : Nat} {s00 : State} (hmk : 1254908 ||| mk = mk) (hst : Fr mk s00 s) :
    RowsFr mk s00 (writeSlp s a v) := by
  suffices h : RowsFr 1254908 s (writeSlp s a v) from fun r hr i => Fr.step (h r hr i) hmk hst
  clear hmk hst
  unfold writeSlp
  try dsimp only
  repeat' first | with_reducible assumption | with_reducible exact Fr.refl _ _ | with_reducible exact RowsFr.nil | (with_reducible apply RowsFr.cons) | dsimp only [reg] | ((with_reducible apply byAgent_fr); (focus decide)) | ((with_reducible apply faultWrite_fr); (focus decide)) | ((with_reducible apply modSlip_fr); (focus decide)) | ((with_reducible apply haltWrite_fr); (focus decide)) | ((with_reducible apply writeSlpCfg_fr); (focus decide)) | ((with_reducible apply modSq_fr); (focus decide)) | (with_reducible apply Fr.ite) | intro _

theorem writeGrd_fr {s : State} {a : Agent} {v : W64} {mk : Nat} {s00 : State} (hmk : 16 ||| mk = mk) (hst : Fr mk s00 s) :
    RowsFr mk s00 (writeGrd s a v) := by
  suffices h : RowsFr 16 s (writeGrd s a v) from fun r hr i => Fr.step (h r hr i) hmk hst
  clear hmk hst
  unfold writeGrd
  try dsimp only
  repeat' first | with_reducible exact Fr.refl _ _ | with_reducible exact RowsFr.nil | (with_reducible apply RowsFr.cons) | dsimp only [reg] | ((with_reducible apply byAgent_fr); (focus decide)) | ((with_reducible apply faultWrite_fr); (focus decide)) | ((with_reducible apply haltWrite_fr); (focus decide)) | intro _

theorem writeEvt_fr {s : State} {a : Agent} {v : W64} {mk : Nat} {s00 : State} (hmk : 4 ||| mk = mk) (hst : Fr mk s00 s) :
    RowsFr mk s00 (writeEvt s a v) := by
  suffices h : RowsFr 4 s (writeEvt s a v) from fun r hr i => Fr.step (h r hr i) hmk hst
  clear hmk hst
  unfold writeEvt
  try dsimp only
  repeat' first | with_reducible assumption | with_reducible exact Fr.refl _ _ | with_reducible exact RowsFr.nil | (with_reducible apply RowsFr.cons) | dsimp only [reg] | ((with_reducible apply byAgent_fr); (focus decide)) | ((with_reducible apply evtTailWrite_fr); (focus decide)) | intro _ | ((with_reducible apply Fr.setEvt); (focus decide))

theorem writeEngine_fr {s : State} {a : Agent} {e : Eng} {fault : Nat} {ctx : Nat} {v : W64} {mk : Nat} {s00 : State} (hmk : 16 ||| mk = mk) (hst : Fr mk s00 s) :
    RowsFr mk s00 (writeEngine s a e fault ctx v) := by
  suffices h : RowsFr 16 s (writeEngine s a e fault ctx v) from fun r hr i => Fr.step (h r hr i) hmk hst
  clear hmk hst
  unfold writeEngine
  try dsimp only
  repeat' first | with_reducible exact Fr.refl _ _ | with_reducible exact RowsFr.nil | (with_reducible apply RowsFr.cons) | dsimp only [reg] | ((with_reducible apply byAgent_fr); (focus decide)) | ((with_reducible apply faultWrite_fr); (focus decide)) | ((with_reducible apply haltWrite_fr); (focus decide)) | intro _

theorem writeCore_fr {s : State} {a : Agent} {k : Nat} {v : W64} {mk : Nat} {s00 : State} (hmk : 16 ||| mk = mk) (hst : Fr mk s00 s) :
    RowsFr mk s00 (writeCore s a k v) := by
  suffices h : RowsFr 16 s (writeCore s a k v) from fun r hr i => Fr.step (h r hr i) hmk hst
  clear hmk hst
  unfold writeCore
  try dsimp only
  repeat' first | with_reducible assumption | with_reducible exact Fr.refl _ _ | with_reducible exact RowsFr.nil | (with_reducible apply RowsFr.cons) | dsimp only [reg] | ((with_reducible apply byAgent_fr); (focus decide)) | ((with_reducible apply faultWrite_fr); (focus decide)) | ((with_reducible apply haltWrite_fr); (focus decide)) | intro _ | split

theorem writeCluster_fr {s : State} {a : Agent} {k : Nat} {v : W64} {mk : Nat} {s00 : State} (hmk : 16 ||| mk = mk) (hst : Fr mk s00 s) :
    RowsFr mk s00 (writeCluster s a k v) := by
  suffices h : RowsFr 16 s (writeCluster s a k v) from fun r hr i => Fr.step (h r hr i) hmk hst
  clear hmk hst
  unfold writeCluster
  try dsimp only
  repeat' first | with_reducible exact Fr.refl _ _ | (with_reducible apply RowsFr.append) | ((with_reducible apply writeEngine_fr); (focus decide))

theorem writeBrg_fr {s : State} {a : Agent} {d : Nat} {v : W64} {mk : Nat} {s00 : State} (hmk : 48 ||| mk = mk) (hst : Fr mk s00 s) :
    RowsFr mk s00 (writeBrg s a d v) := by
  suffices h : RowsFr 48 s (writeBrg s a d v) from fun r hr i => Fr.step (h r hr i) hmk hst
  clear hmk hst
  unfold writeBrg
  try dsimp only
  repeat' first | with_reducible exact Fr.refl _ _ | (with_reducible apply RowsFr.cons) | (with_reducible apply RowsFr.flatMap) | dsimp only [reg] | ((with_reducible apply byAgent_fr); (focus decide)) | ((with_reducible apply modDeck_fr); (focus decide)) | ((with_reducible apply writeEngine_fr); (focus decide)) | intro _

theorem writeGth_fr {s : State} {a : Agent} {d : Nat} {v : W64} {mk : Nat} {s00 : State} (hmk : 8208 ||| mk = mk) (hst : Fr mk s00 s) :
    RowsFr mk s00 (writeGth s a d v) := by
  suffices h : RowsFr 8208 s (writeGth s a d v) from fun r hr i => Fr.step (h r hr i) hmk hst
  clear hmk hst
  unfold writeGth
  try dsimp only
  repeat' first | with_reducible exact Fr.refl _ _ | with_reducible exact RowsFr.nil | (with_reducible apply RowsFr.cons) | (with_reducible apply RowsFr.append) | (with_reducible apply RowsFr.flatMap) | (with_reducible apply RowsFr.ite) | dsimp only [reg] | ((with_reducible apply byAgent_fr); (focus decide)) | ((with_reducible apply modGth_fr); (focus decide)) | ((with_reducible apply writeEngine_fr); (focus decide)) | intro _

theorem writeHbm_fr {s : State} {a : Agent} {d : Nat} {v : W64} {mk : Nat} {s00 : State} (hmk : 32 ||| mk = mk) (hst : Fr mk s00 s) :
    RowsFr mk s00 (writeHbm s a d v) := by
  suffices h : RowsFr 32 s (writeHbm s a d v) from fun r hr i => Fr.step (h r hr i) hmk hst
  clear hmk hst
  unfold writeHbm
  try dsimp only
  repeat' first | with_reducible assumption | with_reducible exact Fr.refl _ _ | with_reducible exact RowsFr.nil | (with_reducible apply RowsFr.cons) | ((with_reducible apply byAgent_fr); (focus decide)) | ((with_reducible apply modStack_fr); (focus decide)) | (with_reducible apply Fr.ite) | intro _

theorem writeBlock_fr {s : State} {a : Agent} {v : W64} {x0 : Block} {mk : Nat} {s00 : State} (hmk : 3637247 ||| mk = mk) (hst : Fr mk s00 s) :
    RowsFr mk s00 (writeBlock s a v x0) := by
  suffices h : RowsFr 3637247 s (writeBlock s a v x0) from fun r hr i => Fr.step (h r hr i) hmk hst
  clear hmk hst
  cases x0 <;> dsimp only [writeBlock]
  all_goals repeat' first | with_reducible assumption | with_reducible exact Fr.refl _ _ | with_reducible exact RowsFr.nil | (with_reducible apply RowsFr.cons) | dsimp only [reg] | ((with_reducible apply byAgent_fr); (focus decide)) | ((with_reducible apply writeHub_fr); (focus decide)) | ((with_reducible apply writePur_fr); (focus decide)) | ((with_reducible apply writePrt_fr); (focus decide)) | ((with_reducible apply writePwr_fr); (focus decide)) | ((with_reducible apply writeSec_fr); (focus decide)) | ((with_reducible apply writeFry_fr); (focus decide)) | ((with_reducible apply writeSlp_fr); (focus decide)) | ((with_reducible apply writeGrd_fr); (focus decide)) | ((with_reducible apply writeEvt_fr); (focus decide)) | ((with_reducible apply writeCore_fr); (focus decide)) | ((with_reducible apply writeCluster_fr); (focus decide)) | ((with_reducible apply writeBrg_fr); (focus decide)) | ((with_reducible apply writeGth_fr); (focus decide)) | ((with_reducible apply writeHbm_fr); (focus decide)) | (with_reducible apply RowsFr.find) | intro _

theorem regWrite_fr {s : State} {a : Agent} {addr : Nat} {v : W64} {t00 : State} {mk : Nat} {s00 : State}
    (heq0 : regWrite s a addr v = some t00) (hmk : 3637247 ||| mk = mk) (hst : Fr mk s00 s) : Fr mk s00 t00 := by
  refine Fr.step (k := 3637247) ?_ hmk hst
  clear hmk hst
  unfold regWrite at heq0
  split at heq0
  · cases heq0
  · split at heq0
    · cases heq0; exact protWrite_fr (by decide) (Fr.refl _ _)
    · cases heq0; exact RowsFr.find (writeBlock_fr (by decide) (Fr.refl _ _)) (Fr.refl _ _) _

theorem execRegisterWrite_fr {agent : Agent} {addr : Nat} {value : W64} {s : State} {t00 : State}
    (heq0 : execRegisterWrite agent addr value s = .next t00) : Fr 3637247 s t00 := by
  unfold execRegisterWrite at heq0
  split at heq0
  · cases heq0; exact regWrite_fr (by assumption) (by decide) (Fr.refl _ _)
  · cases heq0

theorem badAccess_fr {s : State} {addr : Nat} {isWrite : Bool} {mk : Nat} {s00 : State} (hmk : 1048580 ||| mk = mk) (hst : Fr mk s00 s) : Fr mk s00 (badAccess s addr isWrite) := by
  refine Fr.step (k := 1048580) ?_ hmk hst
  clear hmk hst
  unfold badAccess
  try dsimp only
  repeat' first | with_reducible exact Fr.refl _ _ | intro _ | ((with_reducible apply raise_fr); (focus decide)) | ((with_reducible apply emit_fr); (focus decide)) | (with_reducible apply Fr.ite)

theorem execBadAccess_fr {addr : Nat} {isWrite : Bool} {s : State} {t00 : State} (heq0 : execBadAccess addr isWrite s = .next t00) : Fr 1048580 s t00 := by
  cases heq0
  repeat' first | with_reducible exact Fr.refl _ _ | ((with_reducible apply badAccess_fr); (focus decide))

/-! ### Mgmt -/

theorem mgmtAccess_fr {s : State} {op : Nat} {addr : Nat} {data : W64} {mk : Nat} {s00 : State}
    (hmk : 3637247 ||| mk = mk) (hst : Fr mk s00 s) : Fr mk s00 (mgmtAccess s op addr data).2.2 := by
  have h1 (b : Bytes) : Fr mk s00 (raise s .badAccess srcNone b) := raise_fr (sub_trans (by decide) hmk) hst
  unfold mgmtAccess
  split
  · split
    · exact h1 _
    · split
      · exact hst
      · exact afterRead_fr (sub_trans (by decide) hmk) hst
  · split
    · exact h1 _
    · split
      · cases hx : regWrite s .mgmt addr data with
        | none => exact hst
        | some t => exact regWrite_fr hx (sub_trans (by decide) hmk) hst
      · split
        · exact protWrite_fr (sub_trans (by decide) hmk) hst
        · exact hst
  · exact hst

theorem keepResponse_fr {s : State} {session : BitVec 32} {seq : BitVec 32} {b : Bytes} {mk : Nat} {s00 : State} (hmk : 262144 ||| mk = mk) (hst : Fr mk s00 s) : Fr mk s00 (keepResponse s session seq b) := by
  refine Fr.step (k := 262144) ?_ hmk hst
  clear hmk hst
  unfold keepResponse
  try dsimp only
  repeat' first | with_reducible exact Fr.refl _ _ | ((with_reducible apply modSec_fr); (focus decide))

theorem mgmtReq_fr {s : State} {via : ImgVia} {b : Bytes} {mk : Nat} {s00 : State} (hmk : 3637247 ||| mk = mk) (hst : Fr mk s00 s) : Fr mk s00 (mgmtReq s via b) := by
  refine Fr.step (k := 3637247) ?_ hmk hst
  clear hmk hst
  unfold mgmtReq
  try dsimp only
  repeat' first | with_reducible exact Fr.refl _ _ | ((with_reducible apply imgReply_fr); (focus decide)) | ((with_reducible apply keepResponse_fr); (focus decide)) | ((with_reducible apply mgmtAccess_fr); (focus decide)) | split

theorem mgmtFrame_fr {s : State} {f : FFrame} {cached : Bool} {bad : Option Nat} {mk : Nat} {s00 : State} (hmk : 3637247 ||| mk = mk) (hst : Fr mk s00 s) : Fr mk s00 (mgmtFrame s f cached bad) := by
  refine Fr.step (k := 3637247) ?_ hmk hst
  clear hmk hst
  unfold mgmtFrame
  try dsimp only
  repeat' first | with_reducible exact Fr.refl _ _ | ((with_reducible apply modSec_fr); (focus decide)) | ((with_reducible apply takeOffer_fr); (focus decide)) | ((with_reducible apply bundleBlock_fr); (focus decide)) | ((with_reducible apply mgmtReq_fr); (focus decide)) | split

theorem cacheSize_fr  {mk : Nat} {s00 : State} (hmk : 1048620 ||| mk = mk) : AFr mk s00 (cacheSize) := by
  refine AFr.step (k := 1048620) (fun s00 => ?_) hmk
  clear hmk
  unfold cacheSize
  try dsimp only
  repeat' first | ((with_reducible apply rdNat_fr); (focus decide))

theorem serveOffer_fr {s : State} {x : Nat} {mk : Nat} {s00 : State} (hmk : 3408172 ||| mk = mk) (hst : Fr mk s00 s) : Fr mk s00 (serveOffer s x) := by
  refine Fr.step (k := 3408172) ?_ hmk hst
  clear hmk hst
  unfold serveOffer
  try dsimp only
  repeat' first | with_reducible exact Fr.refl _ _ | ((with_reducible apply cacheSize_fr); (focus decide)) | ((with_reducible apply takeFree_fr); (focus decide)) | ((with_reducible apply sendMgmt_fr); (focus decide)) | ((with_reducible apply modSec_fr); (focus decide)) | ((with_reducible apply AFr.val_eq); assumption) | split

theorem serveBlock_fr {x : Nat} {id : BitVec 32} {s : State} {i : Nat} {mk : Nat} {s00 : State}
    (hmk : 1048876 ||| mk = mk) (hst : Fr mk s00 s) : Fr mk s00 (serveBlock x id s i) := by
  unfold serveBlock
  generalize hx : rd (whoPurser none) (cacheBase + i * 4096) 4096 = a
  have ha : AFr mk s00 a := hx ▸ rd_fr (sub_trans (by decide) hmk)
  split
  · exact sendMgmt_fr (sub_trans (by decide) hmk) (AFr.val_eq (by assumption) ha hst)
  · exact AFr.val_eq (by assumption) ha hst

theorem serveMissing_fr {s : State} {x : Nat} {id : BitVec 32} {b : Bytes} {mk : Nat} {s00 : State}
    (hmk : 1048876 ||| mk = mk) (hst : Fr mk s00 s) : Fr mk s00 (serveMissing s x id b) := by
  have ha : AFr mk s00 cacheSize := cacheSize_fr (sub_trans (by decide) hmk)
  unfold serveMissing
  split
  · have h1 := AFr.val_eq (by assumption) ha hst
    exact Fr.foldl (fun t k ht => serveBlock_fr (sub_trans (by decide) hmk) ht) _ h1
  · exact AFr.val_eq (by assumption) ha hst

theorem relayMember_fr {s : State} {x : Nat} {b : Bytes} {mk : Nat} {s00 : State} (hmk : 3408172 ||| mk = mk) (hst : Fr mk s00 s) : Fr mk s00 (relayMember s x b) := by
  refine Fr.step (k := 3408172) ?_ hmk hst
  clear hmk hst
  unfold relayMember
  try dsimp only
  repeat' first | with_reducible exact Fr.refl _ _ | intro _ | ((with_reducible apply serveOffer_fr); (focus decide)) | ((with_reducible apply serveMissing_fr); (focus decide)) | ((with_reducible apply sendImage_fr); (focus decide)) | (with_reducible apply Fr.ite)

theorem relayHost_fr {s : State} {d : Datagram} {mk : Nat} {s00 : State} (hmk : 262400 ||| mk = mk) (hst : Fr mk s00 s) : Fr mk s00 (relayHost s d) := by
  refine Fr.step (k := 262400) ?_ hmk hst
  clear hmk hst
  unfold relayHost
  try dsimp only
  repeat' first | with_reducible exact Fr.refl _ _ | intro _ | ((with_reducible apply sendMgmt_fr); (focus decide)) | ((with_reducible apply modSec_fr); (focus decide)) | (with_reducible apply Fr.ite)

theorem relay_fr {s : State} {d : Option Datagram} {mk : Nat} {s00 : State} (hmk : 3408172 ||| mk = mk)
    (hst : Fr mk s00 s) : Fr mk s00 (relay s d) := by
  unfold relay
  refine Fr.ite (fun _ => hst) fun _ => ?_
  split
  · exact datagram_fr (sub_trans (by decide) hmk) (fun t ht => relayHost_fr (sub_trans (by decide) hmk) ht) hst
  · split
    · exact hst
    · exact relayMember_fr (sub_trans (by decide) hmk) (modSec_fr (sub_trans (by decide) hmk) hst)

theorem execFerryMgmt_fr {p : Nat} {f : FFrame} {cached : Bool} {bad : Option Nat} {s : State} {t00 : State} (heq0 : execFerryMgmt p f cached bad s = .next t00) : Fr 3637247 s t00 := by
  cases heq0
  repeat' first | with_reducible assumption | with_reducible exact Fr.refl _ _ | intro _ | ((with_reducible apply dataRow_fr); (focus decide)) | ((with_reducible apply mgmtFrame_fr); (focus decide))

theorem execImageMessageRelay_fr {d : Option Datagram} {s : State} {t00 : State} (heq0 : execImageMessageRelay d s = .next t00) : Fr 3408172 s t00 := by
  cases heq0
  repeat' first | with_reducible exact Fr.refl _ _ | ((with_reducible apply relay_fr); (focus decide))

theorem execMgmtReq_fr {d : Datagram} {s : State} {t00 : State} (heq0 : execMgmtReq d s = .next t00) : Fr 3637247 s t00 := by
  cases heq0
  repeat' first | with_reducible assumption | with_reducible exact Fr.refl _ _ | intro _ | ((with_reducible apply datagram_fr); (focus decide)) | ((with_reducible apply mgmtReq_fr); (focus decide))

end Sys2Proof.Laws
end

