-- ==== Sys2Proof/Tests/Slice0.lean ====
section
/-! SUPPORT. The author's tests: the words a well-formedness check refuses, single steps whose results are computed by hand
from the spec, and, for each statement with hypotheses, states and operands that meet them. -/

open Sys2Proof Sys2Proof.Machine Sys2Proof.Claim

namespace Sys2Proof.Test

set_option Elab.async false

/-! ### Small states -/

/-- `n` bytes, zero but for the fields (offset, size, value). -/
def record (n : Nat) (l : List (Nat × Nat × Nat)) : Bytes :=
  memRead (l.foldl (fun m f => memWrite m f.1 (toLe f.2.1 f.2.2)) []) 0 n

/-- Memory with bytes at addresses. -/
def memOf (l : List (Nat × Bytes)) : List Host.Cell := l.foldl (fun m p => memWrite m p.1 p.2) []

/-- A context that may use every core and cluster. -/
def openCtx : CtxCfg :=
  { enable := true, cores := BitVec.allOnes 128, clusters := BitVec.allOnes 16, queue := 8, accSize := 8, pin := 16, cpin := 16 }

/-- Windows over the whole unified range. -/
def openPart : Partition := { windows := [(0, { rd := true, wr := true, base := 0, limit := 0xC000000000 })] }

/-- A member that runs, contexts 0 and 8 enabled, their partitions' windows open. -/
def live : State :=
  { hub := { link := true, time := 5000000 }, pwr := { power := .on }, sec := { phase := .running, svn := 7 },
    fry := { berthValid := true, berth := 1, slot := 1 }, pur := { fw := 1 },
    prt := { ctxs := [(0, openCtx), (8, openCtx)], parts := [(0, openPart), (1, openPart)] } }

/-- A command waits on an engine, at the head of context 0's queue. -/
def atEngine (e : Eng) (q : QCmd) (s : State) : State := { s with engs := [(engKey e, { ctxs := [(0, { queue := [q] })] })] }

/-- Memory set. -/
def withMem (l : List (Nat × Bytes)) (s : State) : State := { s with mem := { s.mem with bytes := memOf l } }

/-- A turn of the round robin, computed. -/
theorem hasTurn_of {s : State} {e : Eng} {u c : Nat} {ready : List Nat}
    (h : (nextTurn s (tabGet {} (getEng s e).rr u) ready).map (·.2) = some c) : hasTurn s e u c ready := by
  unfold hasTurn
  cases hx : nextTurn s (tabGet {} (getEng s e).rr u) ready with
  | none => rw [hx] at h; cases h
  | some x => rw [hx] at h; cases h; exact ⟨x.1, rfl⟩

/-- A value that an option holds and of which a test is true. -/
theorem some_of {α : Type} {o : Option α} {p : α → Bool} (h : o.any p = true) : ∃ u, o = some u ∧ p u = true := by
  cases o with
  | none => cases h
  | some u => exact ⟨u, rfl, h⟩

/-- Work that ends well, with a value of which a test is true. -/
def okAnd {α β : Type} (p : β → Bool) : Except α β → Bool
  | .ok v => p v
  | .error _ => false

/-- The value of work that ends well. -/
theorem ok_of {α β : Type} {x : Except α β} {p : β → Bool} (h : okAnd p x = true) : ∃ v, x = .ok v ∧ p v = true := by
  cases x with
  | ok v => exact ⟨v, rfl, h⟩
  | error _ => cases h

/-- What is covered from an address on does not end before it. -/
theorem coverTo_ge (ws : List Window) (wr : Bool) : ∀ (f a : Nat), a ≤ coverTo ws wr f a
  | 0, _ => Nat.le_refl _
  | f + 1, a => by
    rw [coverTo]
    split
    · rename_i w h
      have h2 := List.find?_some h
      simp only [Bool.and_eq_true, decide_eq_true_eq] at h2
      exact Nat.le_trans (Nat.le_of_lt h2.2) (coverTo_ge ws wr f _)
    · exact Nat.le_refl _

/-- A window that permits everything covers up to its end, or further. -/
theorem coverTo_open (ws : List Window) (wr : Bool) (f a : Nat) (b : BitVec 48) (ha : a < b.toNat) :
    b.toNat ≤ coverTo ({ rd := true, wr := true, base := 0, limit := b } :: ws) wr (f + 1) a := by
  rw [coverTo, List.find?_cons_of_pos (by cases wr <;> simp [ha])]
  exact coverTo_ge _ _ _ _

/-- An agent whose partition's first window is the whole unified range may use every address below the wheelhouse region. -/
theorem openTo_of {s : State} {w : Who}
    (h : w.ctx.all (fun c => tabGet {} (getPart s (ctxPart c)).windows 0 =
      { rd := true, wr := true, base := 0, limit := 0xC000000000 }) = true) : openTo s w := by
  intro a n write hn
  unfold mayAccess
  by_cases h0 : n = 0
  · simp [h0]
  have hw : wheelBase ≤ cacheBase ∧ cacheBase ≤ unifiedEnd ∧ unifiedEnd = (0xC000000000 : BitVec 48).toNat := by decide
  have hu : a + n ≤ unifiedEnd := by omega
  have hc : ¬ a + n > cacheBase := by omega
  simp only [h0, hu, hn, hc, decide_true, decide_false, Bool.or_true, Bool.and_true, Bool.and_false, Bool.not_false, Bool.true_and, Bool.false_or]
  cases hx : w.ctx with
  | none => rfl
  | some c =>
    simp only [hx, Option.all_some, decide_eq_true_eq] at h
    simp only [windowsPermit, h0, decide_false, Bool.false_or, decide_eq_true_eq]
    have hl : List.range 4 = [0, 1, 2, 3] := by decide
    rw [hl, List.map_cons, h]
    exact Nat.le_trans (hw.2.2 ▸ hu) (coverTo_open _ _ _ _ _ (by omega))
/-! ### Well-formed commands: one ill-formed command for each check -/

/-- A frame with zero fields. -/
def frame0 : FFrame := {}
/-- A datagram with hop limit 256. -/
def farDatagram : Datagram := ⟨⟨0, 0, 0⟩, 256, 0, 5170, []⟩
/-- Sensor readings with too few HBM stacks. -/
def fewReadings : SensorReadings := ⟨0, 0, 0, 0, 0, 0, [0]⟩

/-- Commands that each break one check of `Instr.wf`. -/
def illFormed1a : List Instr :=
  [.registerWrite (.hart 32 true) 0xF00000000000 0, .registerWrite .mgmt 0xF00000000004 0, .registerWrite .mgmt 0xEFFFFFFFFFF8 0,
   .registerWrite .mgmt 0xF00050000000 0, .badAccess (2 ^ 48) false, .rateWindowEnd [], .pwrRateMinRead 4,
   .sensorSample fewReadings, .engineCommandOffer ⟨.core, 128⟩ (record 64 []), .engineCommandOffer ⟨.core, 0⟩ (record 63 []),
   .engineCommandOffer ⟨.barge, 32⟩ (record 64 []), .engineCommandOffer ⟨.grinder, 1⟩ (record 64 [])]
/-- Commands that each break one check of `Instr.wf`. -/
def illFormed1b : List Instr :=
  [.tamp 128 0, .tamp 0 128, .tampStart 128 0, .tampStart 0 128, .tampLoadDone 128, .pass 128 0, .pass 0 128, .passStart 128 0,
   .passStart 0 128, .passLastRowEntered 128, .bankFreeHandshake 128 0 0, .bankFreeHandshake 0 4 0, .bankFreeHandshake 0 0 2,
   .passComplete 128, .epi 128 0 0, .epi 0 128 0, .epiComplete 128, .mapInstall 128 0, .mapInstall 0 128, .mapClose 128 0,
   .mapClose 0 128, .ctxHaltClear ⟨.ssu, 16⟩ 0, .ctxHaltClear ⟨.ssu, 0⟩ 128]
/-- Commands that each break one check of `Instr.wf`. -/
def illFormed1c : List Instr :=
  [.route 16 0, .route 0 128, .dispatch 16 0, .dispatch 0 128, .dispatchNotify 16 0 0, .dispatchNotify 0 128 0, .combine 16 0, .combine 0 128, .move 32 0,
   .move 0 128, .pin 32 0, .pin 0 128, .unpin 32 0, .unpin 0 128, .schedule 32 0, .schedule 0 128, .advance 32 0,
   .advance 0 128, .fetchSlice 32 0, .fetchSlice 0 128, .residencyEpochTick 4, .backgroundUnit ⟨.slice, 16⟩ false .nothing,
   .collective 32 0, .collective 0 128, .collReadyRepeat 32 0, .collReadyRepeat 0 128, .collectiveTimeout 32 0,
   .collectiveTimeout 0 128]

/-- Commands that each break one check of `Instr.wf`. -/
def illFormed2a : List Instr :=
  [.push 128, .grant 128, .take 128, .dropRest 128, .mark 128, .rewind 128, .release 128, .slipReserve 65536 grinderEng 0 1,
   .slipReserve 0 ⟨.core, 128⟩ 0 1, .slipReserve 0 grinderEng 128 1, .slipCommit 65536 0 [], .slipCommit 0 0 [1], .slipRewind 65536 0, .slpQueueEnable 65536 0, .slpQueueDisable 65536 0]
/-- Commands that each break one check of `Instr.wf`. -/
def illFormed2b : List Instr :=
  [.query 16 0, .query 0 128, .queryAdmit 16 0, .queryAdmit 0 128, .pclHeadUnit 16 0 0, .pclHeadUnit 0 1024 0,
   .pclHeadUnit 0 0 4, .pclBlockUnit 16 0 0, .pclBlockUnit 0 1024 0, .pclBlockUnit 0 0 4, .pclRefineUnit 16 0,
   .pclRefineUnit 0 1024, .queryResultWrite 16 0, .queryResultWrite 0 1024, .pclAttach 16 0, .pclAttach 0 128,
   .pclDetach 16 0, .pclDetach 0 128, .compact 16 0, .compact 0 128, .updatePacketApply 16 0, .updatePacketApply 0 4,
   .compactionPiece 16 0, .compactionPiece 0 4, .compactionRetire 16 0, .compactionRetire 0 4]
/-- Commands that each break one check of `Instr.wf`. -/
def illFormed2c : List Instr :=
  [.topk 16 0, .topk 0 128, .sort 16 0, .sort 0 128, .merge 16 0, .merge 0 128, .uniqueCount 16 0, .uniqueCount 0 128,
   .filterCompact 16 0, .filterCompact 0 128, .gather 16 0, .gather 0 128, .apply 16 0, .apply 0 128, .prefetch 16 0,
   .prefetch 0 128, .gthAttach 16 0, .gthAttach 0 128, .gthDetach 16 0, .gthDetach 0 128, .migrate 16 0,
   .migrate 0 128, .rowRequestServe 16 0, .rowUpdateApply 16 0, .hotRowBalance 64 [] []]
/-- Commands that each break one check of `Instr.wf`. -/
def illFormed2d : List Instr :=
  [.tokenize 128 none, .tokenize 128 (some 0), .load 128, .unload 128, .search 0 [] 16, .rerank 0 [] 16]

/-- Commands that each break one check of `Instr.wf`. -/
def illFormed3a : List Instr :=
  [.budgetPeriodWrite (.hart 32 false) 0, .contextEnable (.hart 32 true) 0 0, .contextEnable .purser 128 0,
   .contextDisable (.hart 32 true) 0 0, .contextDisable .purser 128 0, .queryCtxWrite (.hart 32 true) 0 0,
   .queryCtxWrite .purser 16 0, .bucketEnable (.hart 32 true) 0 0 0, .bucketEnable .purser 16 0 0, .bucketEnable .purser 0 9 0,
   .bucketPieceAdmit 16 0 none, .bucketPieceAdmit 0 9 none, .bucketPieceAdmit 0 0 (some 0), .bucketPieceAdmit 0 0 (some 4097)]
/-- Commands that each break one check of `Instr.wf`. -/
def illFormed3b : List Instr :=
  [.mailboxOpen (.hart 32 true) 0 0 0, .mailboxOpen .purser 64 0 0, .mailboxOpenResolve 64, .mailboxClose (.hart 32 true) 0,
   .mailboxClose .purser 64, .mbDoorbell (.hart 32 true) 0 0, .mbDoorbell .purser 64 0, .mbCplTailWrite (.hart 32 true) 0 0,
   .mbCplTailWrite .purser 64 0, .descriptorTake 64, .completionWrite 64, .progressWrite 64 0,
   .disableFinish (.mailbox 64), .disableFinish (.context 128), .disableFinish (.shard 16 0), .disableFinish (.shard 0 4),
   .disableFinish (.table 64), .disableFinish (.tokenizer 8)]
/-- Commands that each break one check of `Instr.wf`. -/
def illFormed3c : List Instr :=
  [.portEnable (.hart 32 true) 0 0, .portEnable .other 16 0, .portDisable (.hart 32 true) 0 0, .portDisable .other 16 0,
   .portLinkUp 16, .portLinkDown 16, .opticalCalibration 16 true, .clientRingWrite (.hart 32 true) 0 true 0,
   .clientRingWrite .other 16 true 0, .clientRxTailWrite (.hart 32 true) 0 0, .clientRxTailWrite .other 16 0,
   .clientTxTailWrite (.hart 32 true) 0 0, .clientTxTailWrite .other 16 0, .clientFrameReceive 16 [],
   .clientFrameTransmit 16, .berthSet (.hart 32 true) 0, .ferryFrameDiscard 16 [], .syncResend 16 0, .syncResend 0 4096,
   .ackTimer 16 0, .ackTimer 0 4096, .retransmitTimeout 16 0, .retransmitTimeout 0 4096, .ferryFrameSend 16 0 0,
   .ferryFrameSend 0 4096 0, .ferryFrameSend 0 0 8, .pathTableWrite (.hart 32 true) 0 0, .pathTableWrite .other 4096 0]
/-- Commands that each break one check of `Instr.wf`. -/
def illFormed3d : List Instr :=
  [.offer farDatagram, .block farDatagram none, .imageMessageRelay (some farDatagram), .mgmtReq farDatagram,
   .svnFloorRaise (.hart 32 true) 0, .ownerHashProgram (.hart 32 true) 0, .measurementExtend (.hart 32 true) 0,
   .evtTailWrite (.hart 32 true) 0, .moorWakeWrite (.hart 32 true) 0, .wheelhouseStore 32 0 [], .wheelhouseStore 0 (2 ^ 48) []]

/-- The rows that a frame brings. -/
def frameRows (p : Nat) (f : FFrame) : List Instr :=
  [.ferryHelloReceive p f, .ferrySyncReceive p f, .ferrySyncAckReceive p f, .ferryControlReceive p f, .ferryNackReceive p f,
   .ferryWrite p f, .ferryWriteAck p f, .ferryReadReq p f, .ferryReadResp p f, .ferryPush p f, .ferryPushDone p f,
   .slipCredit p f, .coll p f, .collReady p f, .ferryStatus p f, .ferryRow p f, .ferryPurser p f 0,
   .ferryMgmt p f false none]

theorem test_wf_refuses_engines :
    (∀ i ∈ illFormed1a, i.wf = false) ∧
    (∀ i ∈ illFormed1b, i.wf = false) ∧
    (∀ i ∈ illFormed1c, i.wf = false) := by decide +kernel
theorem test_wf_refuses_serving :
    (∀ i ∈ illFormed2a, i.wf = false) ∧
    (∀ i ∈ illFormed2b, i.wf = false) ∧
    (∀ i ∈ illFormed2c, i.wf = false) ∧
    (∀ i ∈ illFormed2d, i.wf = false) := by decide +kernel
theorem test_wf_refuses_access :
    (∀ i ∈ illFormed3a, i.wf = false) ∧
    (∀ i ∈ illFormed3b, i.wf = false) ∧
    (∀ i ∈ illFormed3c, i.wf = false) ∧
    (∀ i ∈ illFormed3d, i.wf = false) := by decide +kernel
theorem test_wf_refuses_frames :
    (∀ i ∈ frameRows 16 frame0, i.wf = false) ∧ (∀ i ∈ frameRows 0 { frame0 with src := 4096 }, i.wf = false) ∧
    (∀ i ∈ frameRows 0 { frame0 with dst := 4096 }, i.wf = false) ∧ (∀ i ∈ frameRows 0 { frame0 with ctx := 128 }, i.wf = false) ∧
    ∀ i ∈ frameRows 0 { frame0 with vc := 8 }, i.wf = false := by decide +kernel
theorem test_wf_accepts :
    (∀ i ∈ frameRows 15 frame0, i.wf = true) ∧ (Instr.registerWrite .mgmt 0xF00000000020 8).wf = true ∧
    (Instr.tamp 127 127).wf = true ∧ (Instr.bucketPieceAdmit 15 8 (some 4096)).wf = true := by decide +kernel

/-! ### The block, events, power: what the statements suppose, met -/

theorem witness_StepRunsTheFrontCommand : ({ live with pending := [.powerDown] } : State).pending = .powerDown :: [] := rfl
theorem witness_IdleStepIsOneNanosecond : live.pending = [] := rfl
theorem witness_CommandsKeepOtherParts : (∃ t, exec .budgetRefill live = .next t) ∧ Part.hub ∉ touches .budgetRefill :=
  ⟨⟨_, rfl⟩, by decide⟩
theorem witness_StepsKeepMemoryCanonical :
    let s : State := { withMem [(0, [1, 0, 2])] live with pending := [.evtDropsRead] }
    Memory.wf s.mem.bytes = true ∧ ∃ t, step s = .next t := ⟨by decide +kernel, _, rfl⟩
theorem witness_NoStepRollsBack :
    let s : State := { live with sec := { phase := .running, svn := 7, svnFloor := 7, raises := 64 }, pending := [.evtDropsRead] }
    rollbackSafe s ∧ ∃ t, step s = .next t := ⟨by unfold rollbackSafe; decide +kernel, _, rfl⟩
theorem witness_FusesOnlyMoveForward :
    let s : State := { live with sec := { phase := .running, ownerSet := true }, pending := [.ownerHashProgram .mgmt 0] }
    s.sec.ownerSet = true ∧ ∃ t, step s = .next t := ⟨rfl, _, rfl⟩
theorem witness_EventTailFollowsR465 :
    let s (head tail : W64) : State := { live with evt := { head := head, tail := tail, buf := 255 } }
    (s 65536 0).evt.buf < 256 ∧ (s 65536 0).evt.head.toNat - (s 65536 0).evt.tail.toNat = 65536 ∧
    (s 65535 0).evt.head.toNat - (s 65535 0).evt.tail.toNat < 65536 ∧ Agent.other ≠ .mgmt := by decide +kernel
theorem witness_EventLogAndClearingReads :
    let s (n : Nat) : State := { live with evt := { buf := n } }
    (s 255).evt.buf < 256 ∧ 256 ≤ (s 256).evt.buf ∧ 3 < 4 := by decide +kernel
theorem witness_PowerLimitsClampR54 : Agent.hart 0 false ≠ .mgmt ∧ 3 < 4 := by decide +kernel
theorem witness_PrtWritesNeedHypervisor :
    0xFFFFF8 < 0x1000000 ∧ Agent.hart 3 false ≠ .purser ∧ (∀ h, Agent.hart 3 false ≠ .hart h true) ∧ live.evt.buf < 256 :=
  ⟨by decide, by decide, by intro h; simp, by decide⟩
theorem witness_MonitorsAndSetpoints :
    let s : State := { live with evt := { buf := 252 } }
    decksOn s = true ∧ s.evt.buf ≤ 252 := by decide +kernel
theorem witness_SensorsAndManagementPort :
    let off : State := { live with hub := {} }
    live.pwr.power ≠ .off ∧ live.pwr.power = .on ∧ live.pwr.moor = .running ∧ live.pwr.power ≠ .tripped ∧
    live.hub.link = true ∧ off.hub.link = false ∧ 0xFF ∉ [1, 2, 3, 4, 5, 6, 7, 8, 9, 10, 16] ∧ Agent.other ≠ .mgmt := by decide +kernel

/-- A command in hand from mailbox 63, whose partitions are all. -/
def held (op : BitVec 8) (desc : Bytes) : PCmd := { mb := 63, opcode := op, desc := desc, seq := 5, tag := 9 }
/-- A module with command 3 in hand. -/
def withCmd (c : PCmd) (s : State) : State := { s with pur := { s.pur with cmds := [(3, c)] } }
/-- A module in a state of mooring. -/
def inMoor (m : MoorState) (by_ : Option Nat) (s : State) : State :=
  { s with pwr := { s.pwr with moor := m, entryByCommand := by_, moorReqLow := m = .running } }

theorem witness_MooringCycle :
    (let s := withCmd (held 4 []) live
     getCmd s 3 = some (held 4 []) ∧ (held 4 []).phase = .held ∧ (held 4 []).guest = none ∧ purWorks s = true ∧
     unfenced s 3 (held 4 []) = true ∧ (getMb s 63).parts = 0xFFFF ∧ s.pwr.entryByCommand = none) ∧
    (let s := inMoor .running none live
     s.pwr.moor = .running ∧ pursing s = true ∧ s.pwr.moorReqLow = true ∧ s.pwr.refused = false) ∧
    ({ live with pwr := { live.pwr with latch := true } } : State).pwr.latch = true ∧
    (let s : State := { inMoor .entering none live with fry := { live.fry with ops := [(1, {})] } }
     let u := withCmd (held 4 []) { inMoor .entering (some 3) live with fry := { live.fry with ops := [(1, {})] } }
     s.pwr.moor = .entering ∧ enginesBusy s = true ∧ s.pwr.entryByCommand = none ∧
     u.pwr.moor = .entering ∧ enginesBusy u = true ∧ u.pwr.entryByCommand = some 3 ∧ getCmd u 3 = some (held 4 [])) ∧
    (let s := withCmd (held 4 []) (inMoor .entering (some 3) live)
     s.pwr.moor = .entering ∧ s.pwr.entryByCommand = some 3 ∧ getCmd s 3 = some (held 4 []) ∧ enginesBusy s = false ∧
     ∀ x ∈ s.fry.paths, x.2.state ≠ .up ∧ x.2.state ≠ .syncing) ∧
    (let s : State := { live with pwr := { live.pwr with moor := .moored, wakeIrqEn := true }, mem := { parked := [(0, {})] } }
     s.pwr.moor = .moored ∧ ¬ ((s.pwr.moorReqLow = true ∧ s.pwr.refused = false) ∨ s.pwr.latch = true) ∧
     s.pwr.wakeIrqEn = true ∧ s.mem.badHbm = []) := by decide +kernel

theorem witness_PowerAndBootStart :
    let s (p : PowerState) : State := { live with pwr := { power := p } }
    let l (j h o v : Nat) : TripLevels := ⟨j, h, o, v⟩
    (s .off).pwr.power = .off ∧ (s .moduleReset).pwr.power = .moduleReset ∧ (s .on).pwr.power = .on ∧
    (s .tripped).pwr.power = .tripped ∧ (l 94 84 59 4800).junction < 95 ∧ (l 94 84 59 4800).hbm < 85 ∧
    (l 94 84 59 4800).outlet < 60 ∧ 4800 ≤ (l 94 84 59 4800).vin ∧ (l 94 84 59 5700).vin ≤ 5700 ∧
    95 ≤ (l 95 0 0 5000).junction ∧ 85 ≤ (l 0 85 0 5000).hbm ∧ 60 ≤ (l 0 0 60 5000).outlet ∧ (l 0 0 0 4799).vin < 4800 ∧
    5700 < (l 0 0 0 5701).vin := by decide +kernel

/-! ### Boot and trust -/

/-- A link-local management host. -/
def host0 : ImgHost := ⟨0xFE800000000000000000000000000001, 33000, 0x020000000001⟩
/-- An image message of version 1: type, target, session, sequence number and its data. -/
def message (typ target session seq : Nat) (data : Bytes) : Datagram :=
  ⟨host0, 255, mgmtSelf.addr, 5171,
   record 16 [(0, 1, 1), (1, 1, typ), (2, 2, target), (4, 4, session), (8, 4, seq), (12, 2, data.length)] ++ data⟩
/-- A message of the right form that fits its frame is accepted. -/
theorem accepted_of {s : State} {typ target session seq : Nat} {data : Bytes} (h : s.hub.link = true)
    (hb : imgOk (message typ target session seq data).bytes = true ∧
      (message typ target session seq data).bytes.length + 66 ≤ 9216) : accepted s (message typ target session seq data) :=
  ⟨h, by simp only [reachesPort, message, decide_true, Bool.true_and]; exact decide_eq_true hb.2,
   by simp only [message]; decide, rfl, hb.1⟩
/-- A steward without firmware, in a phase of its boot. -/
def booting (p : BootPhase) (x : Session) : State :=
  { live with fry := { berthValid := true }, sec := { phase := p, session := x } }

theorem witness_DownloadSession :
    (let s := booting .soliciting {}
     s.sec.phase = .soliciting ∧ s.fry.slot = 0 ∧ s.hub.link = true) ∧
    (accepted (booting .soliciting {}) (message 2 0xFFFF 77 0 (record 8 [(0, 4, 1052672)])) ∧
     accepted (booting .open_ { id := 77, via := .port host0, size := 1052672 }) (message 3 0 77 256 (record 4096 [(0, 1, 5)]))) ∧
    (let s := booting .soliciting {}
     let d := message 2 0xFFFF 77 0 (record 8 [(0, 4, 1052672)])
     s.sec.phase = .soliciting ∧ imgType d.bytes = 2 ∧ imgTarget d.bytes = 0xFFFF ∧ imgSession d.bytes ≠ 0 ∧ d.bytes.length = 24 ∧
     fld d.bytes 16 4 % 4096 = 0 ∧ 1052672 ≤ fld d.bytes 16 4 ∧ fld d.bytes 16 4 ≤ 536870912) ∧
    (let s (got : List Nat) := booting .open_ { id := 77, via := .port host0, size := 1052672, got := got }
     let d := message 3 0 77 256 (record 4096 [(0, 1, 5)])
     imgType d.bytes = 3 ∧ (s []).sec.phase = .open_ ∧ imgMine (s []) d.bytes = true ∧
     imgSession d.bytes = (s []).sec.session.id ∧ d.bytes.length = 4112 ∧ imgSeq d.bytes < (s []).sec.session.size / 4096 ∧
     imgSeq d.bytes ∈ (s [256]).sec.session.got ∧ imgSeq d.bytes ∉ (s []).sec.session.got ∧
     (s []).sec.session.via = .port host0) := by
  refine ⟨by decide +kernel, ⟨accepted_of rfl ?_, accepted_of rfl ?_⟩, ?_, ?_⟩ <;> decide +kernel

theorem witness_CheckedBundlesRun :
    (let s (v : Status) (n : Nat) := booting .decided { via := .port host0, verdict := v, dones := n }
     (s .ok 1).sec.phase = .decided ∧ (s .ok 1).sec.session.via = .port host0 ∧ (s .ok 1).sec.session.dones < 2 ∧
     2 ≤ (s .ok 2).sec.session.dones ∧ (s .authFail 2).sec.session.verdict ≠ .ok ∧ (s .ok 2).sec.session.verdict = .ok) ∧
    (let m := memOf [(0, record 256 [(16, 2, 1), (64, 1, 3), (68, 4, 1048576), (72, 4, 64), (80, 8, wheelBase), (88, 8, wheelBase)])]
     let s := booting .decided { via := .port host0, verdict := .ok, dones := 2, size := 1048640, staging := m }
     clean s ∧ 256 ≤ s.sec.session.size ∧ (imageOf (memRead s.sec.session.staging 0 256) 3).isSome = true ∧
     (∀ e, imageOf (memRead s.sec.session.staging 0 256) 3 = some e → fld e 4 4 + fld e 8 4 ≤ s.sec.session.size) ∧
     s.sec.session.size ≤ 536870912) ∧
    (let s : State := { live with sec := { svnFloor := 1 } }
     fld (record 832 []) 8 4 < s.sec.svnFloor.toNat ∧ fld (record 832 []) 0 2 ≠ 1 ∧ fld (record 832 []) 4 4 ≠ 4096) ∧
    (let s : State := { live with sec := { ownerSet := true } }
     s.sec.ownerSet = true ∧ fld (record 832 []) 2 2 % 2 ≠ 1) := by unfold clean; decide +kernel

theorem witness_FusesAreWrittenOnce :
    let s (floor n : Nat) (set : Bool) : State :=
      { live with sec := { phase := .running, svn := 7, svnFloor := BitVec.ofNat 32 floor, raises := n, ownerSet := set } }
    (s 6 63 false).sec.phase = .running ∧ (s 6 63 false).sec.svnFloor.toNat < (7 : W64).toNat % 2 ^ 32 ∧
    (7 : W64).toNat % 2 ^ 32 ≤ (s 6 63 false).sec.svn.toNat ∧ (s 6 63 false).sec.raises < 64 ∧ Agent.purser ≠ .mgmt ∧
    (7 : W64).toNat % 2 ^ 32 ≤ (s 7 0 false).sec.svnFloor.toNat ∧ (s 6 0 false).sec.svn.toNat < (8 : W64).toNat % 2 ^ 32 ∧
    64 ≤ (s 6 64 false).sec.raises ∧ (s 0 0 false).sec.ownerSet = false ∧ (s 0 0 true).sec.ownerSet = true := by decide +kernel

/-- An ATTEST into the last KiB below the bundle cache. -/
def attestCmd : PCmd := held 5 (record 64 [(0, 1, 5), (16, 8, cacheBase - 1024), (32, 4, 0xABCD)])

theorem witness_MeasuredAndAttested :
    ((0x8000000000000007 : W64).getLsbD 63 = true ∧ 5 ≤ (0x8000000000000007 : W64).toNat % 8 ∧
     5 ≤ (0x8000000000000005 : W64).toNat % 8 ∧ (0x8000000000000004 : W64).toNat % 8 < 5 ∧ Agent.hart 0 false ≠ .mgmt ∧
     ∀ h, Agent.hart 0 false ≠ .hart h true) ∧
    let s := withCmd attestCmd live
    getCmd s 3 = some attestCmd ∧ attestCmd.opcode = 5 ∧ attestCmd.phase = .held ∧ attestCmd.guest = none ∧
    purWorks s = true ∧ unfenced s 3 attestCmd = true ∧ (getMb s 63).parts = 0xFFFF ∧ attestCmd.desc.length = 64 ∧
    fld attestCmd.desc 16 8 % 64 = 0 ∧ wheelBase ≤ fld attestCmd.desc 16 8 ∧ fld attestCmd.desc 16 8 + 1024 ≤ cacheBase ∧
    fld attestCmd.desc 24 1 = 0 ∧ s.mem.badHbm = [] ∧ s.mem.badSram = [] ∧ ∀ k, (measure s k).length = 64 :=
  ⟨⟨by decide, by decide, by decide, by decide, by decide, by intro h; simp⟩,
   by decide +kernel, by decide, by decide, by decide, by decide +kernel, by decide +kernel, by decide +kernel,
   by decide +kernel, by decide +kernel, by decide +kernel, by decide +kernel, by decide +kernel, by decide, by decide,
   fun _ => by rfl⟩

/-! ### The management path -/

/-- The module has a path to module `x` on port 0, up in generation 5, expecting number 9, with room for frames. -/
def linked (x : Nat) (y : PathSt) (s : State) : State :=
  { s with fry := { s.fry with
    ports := [(0, { enable := true, link := true })], entries := [(x, { valid := true, ports := 1 })],
    paths := [(pathKey 0 x, { y with state := .up, gen := 5, exp := 9, vcs := (List.range 8).map fun v => (v, { given := 64 }) })] } }
/-- A path that is up. -/
def upPath (x : Nat) (s : State) : State := linked x {} s
/-- The frame of an operation that module `x` sends next on that path. -/
def nextFrame (s : State) (x op : Nat) (f : FFrame) : FFrame :=
  { f with typ := .data, op := op, src := x, dst := ownModule s, gen := 5, seq := 9 }
/-- A steward that runs. -/
def steward : State := { live with fry := { berthValid := true, berth := 1 } }

/-- A management request of session 77. -/
def request (op addr : Nat) : Datagram := message 0x10 0xFFFF 77 4 (record 24 [(0, 1, op), (8, 8, addr), (16, 8, 3)])
/-- A message for member 67. -/
def forMember : Datagram := message 0x10 67 77 4 (record 24 [])

theorem witness_ManagementPath :
    ((∀ op addr, op < 2 → addr ∈ [0xF00000000010, 0xF00004000018, 0xF00000000020, 0xF00000000014] → accepted live (request op addr)) ∧
     accepted (upPath 67 steward) forMember) ∧
    (let s := live
     imgType (request 0 0).bytes = 0x10 ∧ pursing s = true ∧ imgMine s (request 0 0).bytes = true ∧
     imgSession (request 0 0).bytes ≠ 0 ∧ (request 0 0).bytes.length = 40 ∧ s.sec.resps = [] ∧ s.evt.buf < 256 ∧
     (fld (request 0 0xF00000000010).bytes 16 1 = 0 ∧ fld (request 0 0xF00000000010).bytes 24 8 % 8 = 0 ∧
       blockOf (fld (request 0 0xF00000000010).bytes 24 8) ≠ none) ∧
     (fld (request 1 0xF00004000018).bytes 16 1 = 1 ∧ fld (request 1 0xF00004000018).bytes 24 8 % 8 = 0 ∧
       mgmtMayWrite s (fld (request 1 0xF00004000018).bytes 24 8) = true) ∧
     fld (request 1 0xF00000000014).bytes 24 8 % 8 ≠ 0 ∧
     (mgmtMayWrite s (fld (request 1 0xF00000000020).bytes 24 8) = false ∧
       (blockOf (fld (request 1 0xF00000000020).bytes 24 8)).map (·.1) ≠ some .prt)) ∧
    (let s := upPath 67 steward
     let d := forMember
     isSteward s = true ∧ pursing s = true ∧ imgTarget d.bytes ≠ ownModule s ∧
     imgTarget d.bytes / 64 = s.fry.berth.toNat ∧ (choosePort s (imgTarget d.bytes)).isSome = true ∧
     ({ s with sec := { s.sec with relay := [(67, d.bytes)] } } : State).sec.relay = [(67, d.bytes)] ∧
     s.sec.autoserve = false ∧ tabGet 0 s.sec.served 67 = 0 ∧ s.hub.link = true) ∧
    (let s := upPath 67 steward
     let f := nextFrame s 67 0x0D { vc := 7, payload := (message 0x11 0xFFFF 77 4 []).bytes }
     arrives s 0 f 0x0D ∧ isSteward s = true ∧ imgOk f.payload = true) := by
  refine ⟨⟨fun op addr h ha => accepted_of rfl ?_, accepted_of rfl (by decide +kernel)⟩, by decide +kernel, by decide +kernel, ?_⟩
  · simp only [List.mem_cons, List.not_mem_nil, or_false] at ha
    match op, h with
    | 0, _ => rcases ha with rfl | rfl | rfl | rfl <;> decide +kernel
    | 1, _ => rcases ha with rfl | rfl | rfl | rfl <;> decide +kernel
  · unfold arrives; decide +kernel

/-! ### Contexts, partitions, mailboxes -/

/-- Contexts set. -/
def withCtxs (l : List (Nat × CtxCfg)) (s : State) : State := { s with prt := { s.prt with ctxs := l } }

theorem witness_ContextsComeAndGo :
    (let off : CtxCfg := { openCtx with enable := false }
     let s := withCtxs [(127, off)] live
     let b := withCtxs [(127, { off with disabling := true })] live
     let d := withCtxs [(119, openCtx), (127, off)] live
     prtWriter .purser ∧ prtWriter (.hart 0 true) ∧ (getCtx s 127).enable = false ∧ enableErr s 127 = 0 ∧
     (getCtx b 127).disabling = true ∧ b.evt.buf < 256 ∧
     (getCtx d 127).disabling = false ∧ (119, openCtx) ∈ d.prt.ctxs ∧ 119 ≠ 127 ∧ 119 % 8 = 127 % 8 ∧ openCtx.enable = true ∧
     (getCtx d 127).cores.getLsbD 127 = true ∧ openCtx.cores.getLsbD 127 = true) ∧
    (let e : Eng := ⟨.barge, 3⟩
     let s := atEngine e { bytes := record 64 [(0, 1, 0x40)] } live
     (getCtx s 0).enable = true ∧ s.pur.reqs = [] ∧ s.gth.engs = [] ∧ (∀ f d, (getQ s f d).halt = false) ∧
     s.engs.Pairwise (fun x y => x.1 < y.1) ∧ (∀ x ∈ s.engs, x.2.ctxs.Pairwise fun y z => y.1 < z.1) ∧
     engOfSelector (engKey e) = some e) ∧
    (let s := withCtxs [(0, { openCtx with enable := false, disabling := true })] live
     let b : State := { s with barges := { busy := [(3, 0)] } }
     (getCtx s 0).disabling = true ∧ s.engs = [] ∧ ctxBusy s 0 = false ∧ s.pur.reqs = [] ∧ ctxBusy b 0 = true ∧ b.engs = []) ∧
    let s : State := { live with mbs := [(5, { state := .closing })] }
    (getMb s 5).state = .closing ∧ (getMb s 5).held = [] ∧ s.engs = [] ∧ ∀ p ∈ s.pur.cmds, p.2.mb ≠ 5 := by
  unfold prtWriter
  refine ⟨?_, ?_, by decide +kernel, by decide +kernel⟩
  · refine ⟨.inl rfl, .inr ⟨0, rfl⟩, ?_⟩
    decide +kernel
  · refine ⟨by decide, by decide, by decide, fun f d => ?_, by decide, by decide, by decide⟩
    simp only [getQ, getEng, atEngine, tabGet]
    split
    · simp only [tabGet]; split <;> rfl
    · rfl

theorem witness_PartitionLimits :
    (let s (b : Bucket) : State := { live with prt := { parts := [(15, { buckets := [(8, b)] })] } }
     prtWriter .purser ∧ (tabGet {} (getPart (s {}) 15).buckets 8).enable = false ∧
     (tabGet {} (getPart (s { enable := true }) 15).buckets 8).enable = true) :=
  ⟨.inl rfl, by decide, by decide⟩

/-- Mailbox 5, which a guest owns. -/
def withMb (m : Mailbox) (s : State) : State := { s with mbs := [(5, m)] }

theorem witness_MailboxesOpenAndClose :
    (let s := withMb {} live
     mbReach s .other 5 = true ∧ mbReach s .mgmt 63 = true ∧ (getMb s 5).state = .closed) ∧
    (let s (lo hi : BitVec 8) := withMb { state := .opening, revMin := lo, revMax := hi } live
     (getMb (s 4 4) 5).state ≠ .closed ∧ (getMb (s 4 4) 5).state = .opening ∧ purWorks (s 4 4) = true ∧
     (getMb (s 4 4) 5).revMin.toNat ≤ 4 ∧ 4 ≤ (getMb (s 4 4) 5).revMax.toNat ∧ 4 < (getMb (s 5 9) 5).revMin.toNat ∧
     (getMb (s 0 3) 5).revMax.toNat < 4) ∧
    (let s := withMb { state := .opened, doorbell := 10, reqHead := 4, cplTail := 2, cplHead := 3 } live
     let x := getMb s 5
     mbReach s .other 5 = true ∧ s.evt.buf < 256 ∧ x.state = .opened ∧ x.doorbell ≤ (10 : W64) ∧
     (260 : W64).toNat ≤ x.reqHead.toNat + 256 ∧ (9 : W64) < x.doorbell ∧ x.reqHead.toNat + 256 < (261 : W64).toNat ∧
     x.cplTail ≤ (2 : W64) ∧ (3 : W64) ≤ x.cplHead ∧ (1 : W64) < x.cplTail ∧ x.cplHead < (4 : W64)) ∧
    (let s := withCmd { held 1 [] with mb := 5 } (withMb { state := .opened } live)
     (getMb s 5).state = .opened ∧ s.pur.reqs = [] ∧ (∀ p ∈ s.pur.cmds, p.2.mb = 5 → p.2.guest = none ∧ p.2.phase = .held ∧
       p.2.enq = none ∧ (p.2.opcode.toNat < 0x10 ∨ 0x16 < p.2.opcode.toNat)) ∧
     s.pur.cmds.Pairwise (fun x y => x.1 < y.1)) := by decide +kernel

theorem witness_DescriptorsAndCompletions :
    (let s (seq : BitVec 16) (n : Nat) :=
       withMb { state := .opened, doorbell := 1, nextSeq := seq, outstanding := n, req := [(0, 0x00050001)] } live
     let d := descriptorAt (getMb (s 5 0) 5) 0
     turnMailbox (s 5 4095) = some 5 ∧ turnMailbox (s 5 4096) ≠ some 5 ∧ turnMailbox (s 5 4095) ≠ some 4 ∧ purWorks (s 5 0) = true ∧
     fld d 2 2 = (getMb (s 5 0) 5).nextSeq.toNat ∧ descriptorOk d = true ∧ fld d 0 1 < 0x10 ∧
     fld d 2 2 ≠ (getMb (s 6 0) 5).nextSeq.toNat) ∧
    (let s (n : W64) := withMb { state := .opened, cplHead := n, held := [{}] } live
     (getMb (s 511) 5).held = [{}] ∧ (getMb (s 511) 5).state ≠ .closed ∧
     (getMb (s 511) 5).cplHead.toNat - (getMb (s 511) 5).cplTail.toNat < 512 ∧
     512 ≤ (getMb (s 512) 5).cplHead.toNat - (getMb (s 512) 5).cplTail.toNat) ∧
    let c := { held 0x11 [] with mb := 5, flags := 2, phase := .running, stepped := true, lastProgress := 4000000 }
    let s := withCmd c (withMb { state := .opened, cplHead := 256 } live)
    getCmd s 3 = some c ∧ c.mb = 5 ∧ c.stepped = true ∧ (held 0x11 []).stepped = false ∧ c.flags.getLsbD 1 = true ∧ c.phase = .running ∧ (getMb s 5).state ≠ .closed ∧
    c.lastProgress.toNat + 1000000 ≤ s.hub.time.toNat ∧ (getMb s 5).cplHead.toNat - (getMb s 5).cplTail.toNat ≤ 256 := by
  decide +kernel

/-! ### Commands of the purser, resets, engine queues -/

/-- An ENQUEUE of `n` commands at address 64 for barge 31. -/
def enqueueDesc (n : Nat) : Bytes := record 64 [(0, 1, 0x30), (16, 2, 0x101F), (20, 4, n), (24, 8, 64)]
/-- A command of context 8 for a barge. -/
def queued8 : Bytes := record 64 [(0, 1, 0x40), (1, 1, 8)]

theorem witness_PurserCommandsRun :
    (let c := held 1 []
     mayStart (withCmd c live) 3 c 1) ∧
    (let c := held 0x30 (enqueueDesc 65536)
     mayStart (withCmd c live) 3 c 0x30 ∧ engOfSelector (fld c.desc 16 2) = some ⟨.barge, 31⟩ ∧ 1 ≤ fld c.desc 20 4 ∧
     fld c.desc 20 4 ≤ 65536 ∧ fld c.desc 24 8 % 64 = 0 ∧ fld c.desc 24 8 + 64 * fld c.desc 20 4 ≤ 0xC000000000) ∧
    let q : Enqueue := { eng := ⟨.barge, 31⟩, count := 1, cmds := 64 }
    let c := { held 0x30 (enqueueDesc 1) with phase := .running, enq := some q }
    let s (parts : BitVec 16) : State := { withMem [(64, queued8)] (withCmd c live) with mbs := [(63, { parts := parts })] }
    let k := cmdCtx (memRead (s 2).mem.bytes 64 64)
    getCmd (s 2) 3 = some c ∧ c.enq = some q ∧ q.stopped = false ∧ q.haltFail = none ∧ q.next < q.count ∧ purWorks (s 2) = true ∧
    enqueueBehind (s 2) 3 c = false ∧ (s 2).mem.badHbm = [] ∧ (s 2).mem.badSram = [] ∧ q.cmds % 64 = 0 ∧
    (getMb (s 2) c.mb).parts.getLsbD (k / 8) = true ∧ (getCtx (s 2) k).enable = true ∧ mayReach (s 2) q.eng k = true ∧
    q.eng.kind ≠ .core ∧ (getQ (s 2) q.eng k).queue.length < 64 ∧ (getMb (s 1) c.mb).parts.getLsbD (k / 8) = false ∧
    q.ended = q.accepted ∧ q.firstFail = none := by unfold mayStart; decide +kernel

/-- A RESET of a kind with its index. -/
def resetCmd (kind i : Nat) : PCmd := held 3 (record 64 [(0, 1, 3), (16, 1, kind), (18, 2, i)])

theorem witness_ResetsClearTheirReach :
    (let c := resetCmd 1 0
     let s := withCmd c live
     mayStart s 3 c 3 ∧ fld c.desc 16 1 = 1 ∧ fld c.desc 18 2 = 0 ∧ (getMb s c.mb).parts = 0xFFFF ∧ s.fry.paths = [] ∧
     s.mem.gran = [] ∧ s.evt.buf < 256 ∧ clean s ∧
     ∀ e, imageOf (memRead s.mem.bytes cacheBase 256) 3 = some e → fld e 4 4 + fld e 8 4 ≤ 536870912) ∧
    (let c := resetCmd 2 15
     let s := withCmd c live
     mayStart s 3 c 3 ∧ fld c.desc 16 1 = 2 ∧ fld c.desc 18 2 < 16 ∧ (getMb s c.mb).parts.getLsbD (fld c.desc 18 2) = true ∧ quiet s) ∧
    (let c := resetCmd 3 0x107F
     let s := withCmd (resetCmd 3 0x7F) live
     mayStart s 3 (resetCmd 3 0x7F) 3 ∧ engOfSelector (fld (resetCmd 3 0x7F).desc 18 2) = some ⟨.core, 127⟩ ∧ quiet s ∧
     fld c.desc 16 1 = 3 ∧ engOfSelector (fld c.desc 18 2) = none ∧ mayStart (withCmd c live) 3 c 3) ∧
    (mayStart (withCmd (resetCmd 0 0) live) 3 (resetCmd 0 0) 3 ∧ fld (resetCmd 0 0).desc 16 1 = 0 ∧
     3 < fld (resetCmd 4 0).desc 16 1 ∧ 16 ≤ fld (resetCmd 2 16).desc 18 2) := by
  unfold mayStart quiet clean; refine ⟨?_, ?_, ?_, ?_⟩ <;> decide +kernel

/-- A queue of `n` commands of context 0. -/
def filled (e : Eng) (n : Nat) (s : State) : State :=
  { s with engs := [(engKey e, { ctxs := [(0, { queue := List.replicate n {} })] })] }

theorem witness_EngineQueues :
    let b : Eng := ⟨.barge, 0⟩
    let k := coreEng 0
    let cmd := record 64 [(0, 1, 0x40)]
    let no := withCtxs [(0, { openCtx with clusters := 0 })] live
    (getCtx live (cmdCtx (record 64 [(1, 1, 127)]))).enable = false ∧ (getCtx live (cmdCtx cmd)).enable = true ∧
    mayReach no b 0 = false ∧ no.evt.buf < 256 ∧ mayReach live b 0 = true ∧ mayReach live k 0 = true ∧
    (getQ (filled b 63 live) b 0).queue.length < 64 ∧ 64 ≤ (getQ (filled b 64 live) b 0).queue.length ∧ b.kind ≠ .core ∧
    (mapInForce live 0 0).queue ≤ (getQ (filled k 8 live) k 0).queue.length ∧ k.kind = .core ∧
    (getEng (filled k 8 live) k).fault.valid = false := by decide +kernel

theorem witness_HeadCommandsEnd :
    let e : Eng := ⟨.router, 15⟩
    let q (v : Option Status) (o : Option (Nat × Nat)) : QCmd := { bytes := record 64 [(0, 1, 0x7F)], verdict := v, origin := o }
    let s (v : Option Status) (o : Option (Nat × Nat)) := atEngine e (q v o) live
    let en (next : Nat) : Enqueue := { eng := e, count := 2, next := next, offered := 2, accepted := 2, ended := next - 1 }
    let c (next : Nat) := { held 0x30 [] with phase := .running, enq := some (en next) }
    engOfSelector (engKey e) = some e ∧ headCmd (s (some .abortedDisabled) (some (3, 0))) e 0 = some (q (some .abortedDisabled) (some (3, 0))) ∧
    engineFree (s none none) e 0 ∧ Instr.route 15 0 ∈ headRows e 0 0 ∧ Status.abortedDisabled.halts = false ∧
    getCmd (withCmd (c 1) (s (some .abortedDisabled) (some (3, 0)))) 3 = some (c 1) ∧ (c 1).enq = some (en 1) ∧
    (en 1).haltFail = none ∧ (en 1).ended + 1 < (en 1).accepted ∧ (en 2).ended + 1 = (en 2).accepted ∧ (en 2).next = (en 2).count ∧
    (en 2).firstFail = none ∧ Status.abortedDisabled.good = false ∧ (q none none).verdict = none ∧
    cmdOp (q none none).bytes ∉ listedOps e.kind ∧ e.kind ≠ .core ∧ (q none none).origin = none := by
  unfold engineFree; decide +kernel

/-! ### Cores -/

/-- A core's state. -/
def withCore (k : Nat) (x : CoreSt) (s : State) : State := { s with cores := [(k, x)] }
/-- A TAMP of INT8 weights for array 3, tag 15, from address 64. -/
def tampBytes : Bytes := record 64 [(0, 1, 1), (2, 1, 3), (3, 1, 15), (4, 1, 8), (8, 8, 64), (16, 4, tileSize 8)]
/-- A PASS of one row on arrays 0 and 3, tags 15, INT8. -/
def passBytes : Bytes := record 64 [(0, 1, 2), (2, 1, 9), (4, 2, 0xF00F), (6, 1, 8), (7, 1, 8), (8, 8, 64), (16, 2, 1)]
/-- An EPI of the pairs of one row of array 0, to address 4096. -/
def epiBytes (fence : Nat) : Bytes := record 64 [(0, 1, 3), (1, 1, 128 * fence), (2, 1, 1), (5, 1, 0x85), (6, 2, 1), (16, 8, 4096)]

theorem witness_TilesLoad :
    let k := coreEng 127
    let q : QCmd := { bytes := tampBytes }
    let b : Bank := { state := .ready, ctx := 0, tag := 15 }
    let s (x : CoreSt) (c : Bool) := withCore 127 x (atEngine k { q with checked := c } live)
    (atHead (s {} false) k 0 1 q ∧ tampOk tampBytes = true ∧ bits (fld tampBytes 2 1) 1 0 = 3 ∧ cmdFence tampBytes = false ∧
     bankClaim (s {} false) 127 0 3 = none ∧ (getBank (getCore (s {} false) 127) 3 1).state = .free) ∧
    (let t := s { banks := [(7, b)] } false
     bankClaim t 127 0 3 = none ∧ (getBank (getCore t 127) 3 1).state ≠ .free ∧ (getBank (getCore t 127) 3 1).ctx = 0 ∧
     (getBank (getCore t 127) 3 1).tag = fld tampBytes 3 1) ∧
    (let t := s {} true
     atHead t k 0 1 { q with checked := true } ∧ (getCore t 127).load = none ∧ hasTurn t k 1 0 (tampReady t 127) ∧
     bankFor (getCore t 127) 0 3 (fld tampBytes 3 1) = some 0 ∧ clean t ∧
     mayAccess t (whoOf k 0) (fld tampBytes 8 8) (fld tampBytes 16 4) false = true) ∧
    (getCore (s { load := some { ctx := 0, array := 3, bank := 1, cmd := q } } false) 127).load =
      some { ctx := 0, array := 3, bank := 1, cmd := q } := by
  refine ⟨?_, by decide +kernel, ⟨?_, by decide +kernel, hasTurn_of (by decide +kernel), by decide +kernel, ?_⟩, by decide +kernel⟩
  all_goals first | (unfold atHead; decide +kernel) | (unfold clean; decide +kernel)

theorem witness_PassesRun :
    let k := coreEng 0
    let q : QCmd := { bytes := passBytes }
    let b (st : BankState) : Bank := { state := st, ctx := 0, tag := 15, wfmt := 8 }
    let s (st : BankState) (c : Bool) := withCore 0 { banks := [(1, b st), (6, b st)] } (atEngine k { q with checked := c } live)
    let p : PassOp := { ctx := 0, banks := [(0, 1), (3, 0)], cmd := q, imgs := [[], []] }
    (atHead (s .loading false) k 0 2 q ∧ passOk passBytes = true ∧ cmdFence passBytes = false ∧
     accClaim (s .loading false) 0 0 passBytes = none ∧ (getCore (s .loading false) 0).vec = none ∧
     (∀ a ∈ cmdArrays passBytes, (bankWith (getCore (s .loading false) 0) 0 a (passTag passBytes a) true).any fun i =>
       (getBank (getCore (s .loading false) 0) a i).wfmt = fld passBytes 6 1) ∧
     cmdArrays passBytes = [0, 3] ∧ bankWith (getCore (s .draining false) 0) 0 3 (passTag passBytes 3) true = none) ∧
    (let t := s .ready true
     atHead t k 0 2 { q with checked := true } ∧ (getCore t 0).stream = none ∧ hasTurn t k 0 0 (passReady t 0) ∧
     passBanks (getCore t 0) 0 passBytes = some [(0, 1), (3, 0)] ∧ clean t ∧
     ∀ i, i < ceilDiv (fld passBytes 16 2) 64 →
       mayAccess t (whoOf k 0) (fld passBytes 8 8 + i * fld passBytes 20 4) (actSize (fld passBytes 7 1)) false = true) ∧
    ((getCore (withCore 0 { stream := some p } live) 0).stream = some p ∧
     (getBank (getCore (s .draining false) 0) 3 0).state = .draining) ∧
    (let t := withCore 0 { draining := [p] } live
     (getCore t 0).draining = [p] ∧ cmdOp p.cmd.bytes = 2 ∧ (∀ x ∈ p.banks, (getBank (getCore t 0) x.1 x.2).state ≠ .draining) ∧
     (p.banks.map (·.1)).Nodup ∧ p.imgs.length = p.banks.length ∧ passBest passBytes = 0 ∧
     (accRange (getCtx t 0) passBytes).2 ≤ 65536 ∧ tileN (fld passBytes 6 1) ≠ 0 ∧ 0 < p.rows ∧ p.written = 0 ∧
     rowsOf (owningPasses (getCore t 0)) ≤ 132) ∧
    (let big := passBytes.take 16 ++ toLe 2 200 ++ passBytes.drop 18
     let y : PassOp := { p with cmd := { bytes := big } }
     0 < y.rows - 132 ∧ passBest big = 0 ∧ cmdOp big = 2 ∧ (accRange (getCtx live 0) big).2 ≤ 65536 ∧ y.banks.contains (3, 0) = true ∧
     (getCore (withCore 0 { draining := [y] } live) 0).draining = [y]) := by
  refine ⟨?_, ⟨?_, by decide +kernel, hasTurn_of (by decide +kernel), by decide +kernel, ?_, by decide +kernel⟩,
    by decide +kernel, by decide +kernel, by decide +kernel⟩
  all_goals first | (unfold atHead; decide +kernel) | (unfold clean; decide +kernel)

theorem witness_EpiloguesAndMaps :
    let k := coreEng 0
    let q (f : Nat) : QCmd := { bytes := epiBytes f }
    let p : PassOp := { ctx := 0, cmd := { bytes := passBytes } }
    let s (f : Nat) (x : CoreSt) := withCore 0 x (atEngine k (q f) live)
    let d := record 128 [(0, 1, 1), (2, 2, 9), (4, 1, 8), (5, 1, 8), (6, 1, 1), (7, 1, 15), (8, 4, 64), (12, 4, 64), (16, 2, 1),
      (18, 2, 1), (24, 2, 64), (28, 1, 8), (29, 1, 2), (30, 2, 8), (32, 4, 16)]
    let m (op : Nat) : Bytes := record 64 [(0, 1, 4), (2, 1, op), (8, 8, 128 - 128 * op), (16, 8, 4096)]
    let t (op : Nat) (x : CtxCfg) := withMem [(128, d)] (withCtxs [(0, x)] (atEngine k { bytes := m op } live))
    (atHead (s 0 {}) k 0 3 (q 0) ∧ epiOk (epiBytes 0) = true ∧ accClaim (s 0 {}) 0 0 (epiBytes 0) = none ∧
     (getCore (s 0 {}) 0).vec = none ∧ cmdFence (epiBytes 0) = false ∧ owningPasses (getCore (s 0 {}) 0) = [] ∧
     fenceClear (getCore (s 1 {}) 0) 0 (epiBytes 1) = true ∧ cmdFence (epiBytes 1) = true) ∧
    hasTurn (s 0 {}) k 2 0 (epiReady (s 0 {}) 0) ∧ hasTurn (s 0 { stream := some p }) k 2 0 (epiReady (s 0 { stream := some p }) 0) ∧
    (let x (n : Nat) (u : State) := getCore (outputTo u 0 (rowsWritten (getCore u 0) n)) 0
     let meets (u : State) (p : PassOp) := epiMeets u 0 (epiBytes 0) (cmdArrays p.cmd.bytes) (passOwns (getCtx u p.ctx) p)
     let busy := s 0 { stream := some p }
     (owningPasses (x 0 busy)).any (meets busy) = true ∧ owningPasses (x 0 (s 0 {})) = [] ∧
     owningPasses (x 0 (s 0 { stream := some { p with written := 1 } })) ≠ [] ∧
     ∀ y ∈ owningPasses (x 0 (s 0 { stream := some { p with written := 1 } })), meets (s 0 {}) y = false) ∧
    (let t := withCore 0 { vec := some { cmd := q 0 }, maps := [(0, { id := 9, progress := 64, total := 4 })] } live
     (getCore t 0).vec = some { cmd := q 0 } ∧ (tabFind (getCore t 0).maps 0).isSome = true ∧ epiOk (epiBytes 0) = true ∧
     epiPairs (epiBytes 0) = true ∧ clean t ∧
     (∀ r ∈ epiRegions (epiBytes 0), r.2 ≠ 0 → r.1 + r.2 + actSize (fld (epiBytes 0) 4 1) ≤ wheelBase) ∧
     (epiRegions (epiBytes 0)).any (fun r => r.2 ≠ 0) = true ∧ tabFind (getCore (s 0 {}) 0).maps 0 = none) ∧
    openTo (withCore 0 { vec := some { cmd := q 0 }, maps := [(0, { id := 9, progress := 64, total := 4 })] } live) (whoOf k 0) ∧
    (atHead (t 0 openCtx) k 0 4 { bytes := m 0 } ∧ coreBusy (getCore (t 0 openCtx) 0) 0 = false ∧ mapCmdOk (m 0) = true ∧
     fld (m 0) 2 1 = 0 ∧ tabFind (getCore (t 0 openCtx) 0).maps 0 = none ∧ clean (t 0 openCtx) ∧
     mayAccess (t 0 openCtx) (whoOf k 0) (fld (m 0) 8 8) 128 false = true ∧ memRead (t 0 openCtx).mem.bytes (fld (m 0) 8 8) 128 = d ∧
     descOk d 0 = true) ∧
    (descClaim (t 0 openCtx) d 0 = none ∧ mayAccess (t 0 openCtx) (whoOf k 0) (fld (m 0) 16 8) 32 true = true ∧
     (descClaim (t 0 { openCtx with accSize := 7 }) d 0).isSome = true) ∧
    (atHead (t 1 openCtx) k 0 4 { bytes := m 1 } ∧ mapCmdOk (m 1) = true ∧ fld (m 1) 2 1 = 1) := by
  refine ⟨?_, hasTurn_of (by decide +kernel), hasTurn_of (by decide +kernel), by decide +kernel, ?_, openTo_of (by decide +kernel), ?_, ?_, ?_⟩
  all_goals first | (unfold atHead clean; decide +kernel) | (unfold clean; decide +kernel) | (unfold atHead; decide +kernel) | decide +kernel

/-! ### Slip queues -/

/-- Queue 9 of consumer 0: 64 words at address 4096. -/
def queue9 : SlipQ := { enable := true, log2 := 6, base := 4096 }
/-- Queue 9 set, with 8 words granted to context 0 of this module. -/
def withSq (x : SlipQ) (s : State) : State :=
  { s with slip := { queues := [(9, x)], grants := [(grantKey 9 (ownModule s) 0, { granted := 8 })] } }
/-- A command of the slip-queue manager for queue 9. -/
def slipBytes (op n : Nat) : Bytes := record 64 [(0, 1, op), (4, 2, 9), (16, 4, n)]
/-- A command of the manager at the head, over a queue. -/
def atSlip (b : Bytes) (x : SlipQ) : State := withSq x (atEngine slipEng { bytes := b } live)

theorem witness_ConsumersAndCredit :
    let two : SlipQ := { queue9 with commit := 1, resv := 2, resolved := 2, items := [{ len := 2, module := 65, state := .visible 0 2 }] }
    let on (b : Bytes) (x : SlipQ) := consumes (atSlip b x) 0 (cmdOp b) { bytes := b }
    let gr (n : Nat) := record 64 [(0, 1, 0x61), (4, 2, 9), (16, 4, n), (20, 2, 67)]
    let peer (b : Bytes) := upPath 67 (atSlip b queue9)
    (on (slipBytes 0x68 1) two ∧ on (slipBytes 0x68 2) two ∧ on (slipBytes 0x68 3) two ∧ two.readPkt < two.commit ∧
     packetOf two two.readPkt.toNat = some (0, 2) ∧ two.readOff.toNat + fld (slipBytes 0x68 1) 16 4 < 2 ∧
     two.readOff.toNat + fld (slipBytes 0x68 2) 16 4 = 2 ∧ 2 < two.readOff.toNat + fld (slipBytes 0x68 3) 16 4) ∧
    (on (slipBytes 0x69 0) two ∧ on (slipBytes 0x6A 0) two ∧ on (slipBytes 0x6B 0) { two with markValid := true }) ∧
    (on (slipBytes 0x6B 0) two ∧ two.markValid = false ∧ on (slipBytes 0x69 0) queue9 ∧ queue9.commit ≤ queue9.readPkt ∧
     on (slipBytes 0x68 1) queue9) ∧
    (on (slipBytes 0x6C 0) two ∧ ∀ r ∈ two.items, r.module < 4096 ∧ r.ctx < 128) ∧
    (on (gr 56) queue9 ∧ grantSum (atSlip (gr 56) queue9) 9 (grantKey 9 67 0) + max 56 (getGrant (atSlip (gr 56) queue9) 9 67 0).held.toNat ≤
       (getSq (atSlip (gr 56) queue9) 9).size ∧ (atSlip (gr 56) queue9).slip.grants.length < 262144 ∧ 67 ≠ ownModule live ∧
     (choosePort (peer (gr 56)) 67).isSome = true ∧ on (gr 57) queue9 ∧
     (getSq (atSlip (gr 57) queue9) 9).size < grantSum (atSlip (gr 57) queue9) 9 (grantKey 9 67 0) + max 57 0) := by
  have turn {b : Bytes} {x : SlipQ}
      (h : (nextTurn (atSlip b x) (tabGet {} (getEng (atSlip b x) slipEng).rr 0) (slipReady (atSlip b x))).map (·.2) = some 0) :
      hasTurn (atSlip b x) slipEng 0 0 (slipReady (atSlip b x)) := hasTurn_of h
  have on {b : Bytes} {x : SlipQ}
      (h : headCmd (atSlip b x) slipEng 0 = some { bytes := b } ∧ slipCmdOk b = true ∧ (getSq (atSlip b x) (slipQid b)).enable = true ∧
        (getSq (atSlip b x) (slipQid b)).consumer.toNat = 0)
      (t : (nextTurn (atSlip b x) (tabGet {} (getEng (atSlip b x) slipEng).rr 0) (slipReady (atSlip b x))).map (·.2) = some 0) :
      consumes (atSlip b x) 0 (cmdOp b) { bytes := b } := ⟨⟨h.1, rfl, rfl⟩, h.2.1, h.2.2.1, h.2.2.2, turn t⟩
  refine ⟨⟨on ?_ ?_, on ?_ ?_, on ?_ ?_, ?_⟩, ⟨on ?_ ?_, on ?_ ?_, on ?_ ?_⟩, ⟨on ?_ ?_, ?_, on ?_ ?_, ?_, on ?_ ?_⟩, ⟨on ?_ ?_, ?_⟩,
    on ?_ ?_, ?_, ?_, ?_, ?_, on ?_ ?_, ?_⟩ <;> decide +kernel

theorem witness_PushStoresItsPacket :
    let b := record 64 [(0, 1, 0x60), (4, 2, 9), (8, 8, 1024), (16, 4, 8), (20, 2, 65)]
    let s := atSlip b queue9
    let full : State := { s with slip := { s.slip with grants := [(grantKey 9 65 0, { granted := 8, held := 1 })] } }
    (atHead s slipEng 0 0x60 { bytes := b } ∧ slipCmdOk b = true ∧ fld b 20 2 = ownModule s ∧ (getSq s 9).enable = true ∧
     slipQid b = 9 ∧ checkCredit full (getGrant full 9 65 0) 0 9 8 = .waits ∧ checkCredit s (getGrant s 9 65 0) 0 9 8 = .room) ∧
    hasTurn s slipEng 0 0 (slipReady s) ∧ clean s ∧
    ((∀ j, j < 8 → mayAccess s (whoOf slipEng 0) (1024 + 32 * j) 32 false = true) ∧ 8 ≤ (getSq s 9).size ∧
     (getSq s 9).base.toNat + (getSq s 9).size * 48 ≤ cacheBase ∧ 1024 + 32 * 8 ≤ (getSq s 9).base.toNat ∧
     (getSq s 9).resv.toNat + 8 < 2 ^ 64 ∧ (getSq s 9).resolved = (getSq s 9).resv ∧ (getSq s 9).items = []) := by
  refine ⟨?_, hasTurn_of (by decide +kernel), ⟨rfl, rfl⟩, by decide +kernel⟩
  unfold atHead; decide +kernel

theorem witness_ProducersAndQueues :
    let e := routerEng 3
    let r (pos : Nat) : Resv := { pos := pos, len := 2, module := 65, eng := some e }
    let s (items : List Resv) (resv : W64) := withSq { queue9 with items := items, resv := resv } live
    let three := s [r 0, r 2, r 4] 6
    (checkCredit (s [] 0) (getGrant (s [] 0) 9 65 0) 0 9 8 = .room ∧ (getSq (s [] 0) 9).enable = true ∧
     checkCredit { s [] 0 with slip := { (s [] 0).slip with grants := [(grantKey 9 65 0, { granted := 8, held := 1 })] } }
       { granted := 8, held := 1 } 0 9 8 = .waits ∧
     (∃ o, checkCredit (s [] 0) (getGrant (s [] 0) 9 65 0) 0 9 9 = .overflow o) ∧
     headCmd (atEngine e {} (s [] 0)) e 0 = some {}) ∧
    ((getSq three 9).items = [r 0] ++ r 2 :: [r 4] ∧ (r 2).state = .opened ∧ (r 2).eng = some e ∧
     (record 64 [(0, 8, 5), (32, 8, 6)]).length = 32 * 2 ∧ 1 ≤ 2 ∧ 2 ≤ (r 2).len ∧ 2 ≤ (getSq three 9).size ∧
     (r 2).pos + (r 2).len < 2 ^ 64 ∧ clean three ∧
     (∀ j, j < 2 → mayAccess three (whoOf e (r 2).ctx) (wordAddr (getSq three 9) ((r 2).pos + j)) 32 true = true) ∧
     (∀ y ∈ [r 4], (r 2).pos + (r 2).len ≤ y.pos ∧ y.state = .opened) ∧
     (∀ y ∈ [r 0], y.pos < (r 2).pos) ∧ (r 0).state = .opened ∧ (getSq three 9).resolved.toNat ≤ (r 0).pos) ∧
    ((getSq (s [r 0, r 2] 4) 9).items = [] ++ r 0 :: [r 2] ∧ (getSq (s [r 0, r 2] 4) 9).resolved.toNat ≤ (r 0).pos ∧
     clean (s [r 0, r 2] 4) ∧ (getSq (s [r 0, r 2] 4) 9).base.toNat + (getSq (s [r 0, r 2] 4) 9).size * 48 ≤ cacheBase) ∧
    ((getSq (s [r 0, r 2] 4) 9).items = [r 0] ++ r 2 :: [] ∧ (∀ y ∈ [r 0] ++ [], y.pos ≠ (r 2).pos) ∧
     (r 2).pos + (r 2).len = (getSq (s [r 0, r 2] 4) 9).resv.toNat ∧ (r 2).pos + (r 2).len ≠ (getSq three 9).resv.toNat) ∧
    (let off (e : Bool) := withSq { queue9 with enable := e } live
     let y (c : Nat) : SlipQ := { getSq (off false) 9 with consumer := BitVec.ofNat 7 c, log2 := 6 }
     (getSq (off false) 9).enable = false ∧ (getSq (off true) 9).enable = true ∧ (0x8000000600000000 : W64).getLsbD 63 = true ∧
     (0x0000000600000000 : W64).getLsbD 63 = false ∧ max (max 6 (leastLog2 (off false) 9)) (min 24 6) = 6 ∧
     ringPermitted (off false) (y 0) = true ∧ ringPermitted (off false) (y 127) = false ∧
     (off false).slip.grants.Pairwise (fun a b => a.1 < b.1) ∧
     (let z : State := { off true with routers := [(3, { ops := [(0, { experts := [{ module := 65, queue := 9 }] })] })] }
      z.routers.Pairwise (fun a b => a.1 < b.1) ∧ ∀ r ∈ z.routers, r.2.ops.Pairwise fun a b => a.1 < b.1)) := by
  unfold clean
  refine ⟨⟨?_, ?_, ?_, ⟨_, rfl⟩, ?_⟩, ?_, ?_, ?_, ?_⟩ <;> decide +kernel

/-! ### Expert routers -/

/-- A layer of one expert, one rank, capacity 1, whose map is at 512. -/
def layer1 : Bytes := record 64 [(0, 1, 1), (1, 1, 4), (2, 2, 1), (4, 1, 1), (8, 4, 1), (16, 8, 512)]

theorem witness_RouteClaimsKeepCapacity :
    let l : Layer := { experts := 2, topK := 1, capacity := 1 }
    let x : Claims := { counts := [1, 0] }
    x.counts.length = l.experts ∧ ∀ e, x.counts.getD e 0 ≤ l.capacity :=
  ⟨rfl, fun e => match e with | 0 => by decide | 1 => by decide | _ + 2 => by simp⟩

/-- A router command at the head of context 0's queue may run. -/
theorem routerRuns_of {s : State} {k op : Nat} {b : Bytes} (hk : k < 16)
    (h : routerFree s k 0 = true ∧ headCmd s (routerEng k) 0 = some { bytes := b } ∧ cmdOp b = op ∧
      (nextTurn s (tabGet {} (getEng s (routerEng k)).rr 0) (routerReady s k)).map (·.2) = some 0 ∧ clean s)
    (ho : openTo s (whoOf (routerEng k) 0)) : routerRuns s k 0 op { bytes := b } :=
  ⟨hk, by decide, h.1, ⟨h.2.1, rfl, h.2.2.1⟩, hasTurn_of h.2.2.2.1, h.2.2.2.2, ho⟩

/-- A router command at the head, the layer record, one expert on queue 9, its list of one token. -/
def atRouter (b : Bytes) : State :=
  withMem [(64, layer1), (512, record 16 [(0, 2, 65), (2, 2, 9), (8, 8, 262144)]), (1024, toLe 4 1)]
    { atEngine (routerEng 15) { bytes := b } live with slip := { queues := [(9, queue9)] } }

theorem witness_RoutersRun :
    let rt := record 64 [(0, 1, 0x20), (8, 8, 64), (16, 8, 4096), (28, 4, 1), (32, 8, 1024), (40, 8, 2048), (48, 8, 65536)]
    let cb := record 64 [(0, 1, 0x22), (2, 1, 1), (3, 1, 1), (8, 8, 64), (16, 8, 4096), (40, 8, 131072), (52, 4, 1), (56, 4, 64)]
    let dp := record 64 [(0, 1, 0x21), (2, 1, 1), (6, 2, 1), (8, 8, 64), (16, 8, 2048), (24, 8, 1024), (32, 8, 4096), (40, 4, 64)]
    routerRuns (atRouter rt) 15 0 0x20 { bytes := rt } ∧ routerRuns (atRouter cb) 15 0 0x22 { bytes := cb } ∧
    routerRuns (atRouter dp) 15 0 0x21 { bytes := dp } ∧
    ((layerOf (memRead (atRouter rt).mem.bytes 64 64)).any fun l => l.map = 512 && l.experts = 1 && l.capacity = 1) = true ∧
    (routeOk rt = true ∧ 4096 + ceilDiv 1 64 * ceilDiv (up64 1) 64 * isz 0 ≤ wheelBase ∧ 65536 + 128 ≤ wheelBase) ∧
    (combineOk cb = true ∧ (65536 * ceilDiv 1 64 + 1024) * (fld cb 56 4 / 64) * isz (fld cb 2 1) ≤ wheelBase ∧
     fld cb 40 8 + ceilDiv 1 64 * (fld cb 56 4 / 64) * isz (fld cb 3 1) ≤ wheelBase) ∧
    (dispatchOk dp = true ∧ (∀ l : Layer, l.map = 512 → l.capacity = 1 → fld dp 4 2 = 0 ∧ fld dp 6 2 = 1 ∧ planStands (atRouter dp) dp l 0 ∧
      (planOf (atRouter dp) dp l 0).copies dp ≠ [])) ∧
    (let x (n m : Nat) : DispExpert := { expert := n, module := m, queue := 9 }
     let o (l : List DispExpert) : DispOp := { cmd := { bytes := dp }, experts := l }
     let t (l : List DispExpert) (m : Nat) (held : BitVec 32) : State := upPath 67
       { live with
         routers := [(15, { ops := [(0, o l)] })]
         slip := { queues := [(9, queue9)], grants := [(grantKey 9 m 0, { granted := 1, held := held })]
                   accounts := [(grantKey 9 m 0, { granted := 1, held := held })] } }
     let s := t [x 0 65, x 1 65] 65
     tabFind (getRouter (s 0) 15).ops 0 = some (o [x 0 65, x 1 65]) ∧ (o []).verdict = none ∧ x 0 65 ∈ (o [x 0 65, x 1 65]).experts ∧
     ((o [x 0 65, x 1 65]).experts.map (·.expert)).Nodup ∧ (x 0 65).left = 0 ∧ (x 0 65).pushed = false ∧ (x 0 65).module = ownModule (s 0) ∧
     checkCredit (s 1) (notifyGrant (s 1) 0 (x 0 65)) 0 9 1 = .waits ∧ checkCredit (s 0) (notifyGrant (s 0) 0 (x 0 65)) 0 9 1 = .room ∧
     clean (s 0) ∧ queue9.base.toNat + queue9.size * 48 ≤ cacheBase ∧
     mayAccess (s 0) (whoOf (routerEng 15) 0) (wordAddr queue9 queue9.resv.toNat) 32 true = true ∧ queue9.items = [] ∧
     queue9.resolved = queue9.resv ∧ queue9.resv.toNat + 1 < 2 ^ 64 ∧
     (∃ y ∈ (o [x 0 65, x 1 65]).experts, y.expert ≠ (x 0 65).expert ∧ y.pushed = false) ∧
     (∀ y ∈ (o [x 0 65]).experts, y.expert ≠ (x 0 65).expert → y.pushed = true ∧ y.left = 0) ∧ (o [x 0 65]).pushes = 0 ∧
     (x 0 67).module ≠ ownModule (t [x 0 67] 67 0) ∧ (choosePort (t [x 0 67] 67 0) 67).isSome = true ∧
     (t [x 0 67] 67 0).slip.unsent = [] ∧
     checkCredit (t [x 0 67] 67 0) (notifyGrant (t [x 0 67] 67 0) 0 (x 0 67)) 0 9 1 = .room) := by
  refine ⟨routerRuns_of (by decide) (by unfold clean; decide +kernel) (openTo_of (by decide +kernel)),
    routerRuns_of (by decide) (by unfold clean; decide +kernel) (openTo_of (by decide +kernel)),
    routerRuns_of (by decide) (by unfold clean; decide +kernel) (openTo_of (by decide +kernel)), by decide +kernel, by decide +kernel,
    by decide +kernel, ⟨by decide +kernel, fun l h1 h2 => ?_⟩, ?_⟩
  · unfold planStands planOf
    rw [h1, h2]
    decide +kernel
  · unfold clean; decide +kernel
/-! ### Barges -/

/-- A barge command at the head of context 0's queue may run. -/
theorem runs_of {s : State} {k op : Nat} {b : Bytes} (hk : k < 32)
    (h : headCmd s (bargeEng k) 0 = some { bytes := b } ∧ cmdOp b = op ∧ tabFind s.barges.busy k = none ∧
      tabFind s.barges.colls (bargeKey k 0) = none ∧
      (nextTurn s (tabGet {} (getEng s (bargeEng k)).rr 0) (bargeReady s k)).map (·.2) = some 0) :
    bargeRuns s k 0 op { bytes := b } :=
  ⟨hk, by decide, ⟨h.1, rfl, h.2.1⟩, ⟨h.2.2.1, h.2.2.2.1⟩, hasTurn_of h.2.2.2.2⟩

theorem witness_MovesCopy :
    let e := bargeEng 31
    let lin (fl src dst : Nat) := record 64 [(0, 1, 0x40), (2, 1, fl), (8, 8, src), (16, 8, dst), (32, 4, 128)]
    let fm := record 64 [(0, 1, 0x40), (3, 1, 0x22), (4, 1, 0x29), (5, 1, 0x29), (8, 8, 0), (16, 8, 8192), (24, 4, 64), (28, 4, 64)]
    let s (b : Bytes) := atEngine e { bytes := b } live
    let far := 67 * 2 ^ 48
    bargeRuns (s (lin 0 0 128)) 31 0 0x40 { bytes := lin 0 0 128 } ∧ bargeRuns (s fm) 31 0 0x40 { bytes := fm } ∧
    bargeRuns (s (lin 1 far 128)) 31 0 0x40 { bytes := lin 1 far 128 } ∧
    bargeRuns (upPath 67 (s (lin 1 far 128))) 31 0 0x40 { bytes := lin 1 far 128 } ∧
    (moveOk (lin 0 0 128) = true ∧ mvSrcGlobal (lin 0 0 128) = false ∧ mvDstGlobal (lin 0 0 128) = false ∧
     mvSrcLayout (lin 0 0 128) = 0 ∧ (s (lin 0 0 128)).mem.badHbm = [] ∧ (s (lin 0 0 128)).mem.badSram = [] ∧ 0 + 128 ≤ 128 ∧
     (∀ i, i < 128 / 64 → mayAccess live (whoBarge 31 0 true) (0 + 64 * i) 64 false = true ∧
       mayAccess live (whoBarge 31 0 true) (128 + 64 * i) 64 true = true)) ∧
    (moveOk fm = true ∧ mvSrcLayout fm ≠ 0 ∧ mayAccess (s fm) (whoBarge 31 0 false) 0 (matBytes 2 0x29 64 64) false = true ∧
     mayAccess (s fm) (whoBarge 31 0 false) 8192 (moveBytes fm (memRead (s fm).mem.bytes 0 (matBytes 2 0x29 64 64))).length true = true) ∧
    (moveOk (lin 1 far 128) = true ∧ mvSrcGlobal (lin 1 far 128) = true ∧ fld (lin 1 far 128) 8 8 < 2 ^ 60 ∧
     globalModule (fld (lin 1 far 128) 8 8) ≠ ownModule live ∧
     choosePort (s (lin 1 far 128)) (globalModule (fld (lin 1 far 128) 8 8)) = none ∧ fld (lin 1 far 128) 32 4 ≠ 0 ∧
     moveOk (lin 2 0 far) = true ∧ mvDstGlobal (lin 2 0 far) = true ∧ fld (lin 2 0 far) 16 8 < 2 ^ 60 ∧
     (choosePort (upPath 67 (s (lin 1 far 128))) (globalModule (fld (lin 1 far 128) 8 8))).isSome = true ∧
     mayAccess (upPath 67 (s (lin 1 far 128))) (whoBarge 31 0 true) 128 128 true = true) := by
  exact ⟨runs_of (by decide) (by decide +kernel), runs_of (by decide) (by decide +kernel), runs_of (by decide) (by decide +kernel),
    runs_of (by decide) (by decide +kernel), by decide +kernel, by decide +kernel, by decide +kernel⟩

theorem witness_PinsHold :
    let b (op t n : Nat) := record 64 [(0, 1, op), (2, 1, t), (8, 8, 4096), (16, 4, n)]
    let s (b : Bytes) : State := { atEngine (bargeEng 0) { bytes := b } live with mem := { gran := [(1, { store := 31, pins := [(0, 0), (8, 0)] })] } }
    bargeRuns (s (b 0x41 31 16)) 0 0 0x41 { bytes := b 0x41 31 16 } ∧ bargeRuns (s (b 0x41 31 17)) 0 0 0x41 { bytes := b 0x41 31 17 } ∧
    bargeRuns (s (b 0x42 31 2)) 0 0 0x42 { bytes := b 0x42 31 2 } ∧
    (targetStore 0 31 = some 31 ∧ pinOk (b 0x41 31 16) 0 = true ∧ pinOk (b 0x41 31 17) 0 = true ∧ pinOk (b 0x42 31 2) 0 = true ∧
     (s []).mem.gran.Pairwise (fun x y => x.1 < y.1) ∧ windowsPermit (s []) 0 4096 (17 * 4096) false = true ∧
     (∀ g ∈ pinGrans (b 0x41 31 17), (tabFind (s []).mem.gran g).all fun x => x.store = 31 || x.pins = []) ∧
     pinClaim (s (b 0x41 31 16)) 0 31 (pinGrans (b 0x41 31 16)) = none ∧ (s []).mem.badHbm = [] ∧ (s []).mem.badSram = [] ∧
     (pinClaim (s (b 0x41 31 17)) 0 31 (pinGrans (b 0x41 31 17))).isSome = true) :=
  ⟨runs_of (by decide) (by decide +kernel), runs_of (by decide) (by decide +kernel), runs_of (by decide) (by decide +kernel), by decide +kernel⟩

theorem witness_SchedulesAndBackground :
    let sb (look a : Nat) := record 64 [(0, 1, 0x43), (3, 1, look), (4, 2, 1), (8, 8, a)]
    let ab (l : Nat) := record 64 [(0, 1, 0x44), (4, 2, l)]
    let table := record 80 [(0, 1, 1), (2, 2, 2), (4, 4, 1), (64, 8, 4096), (72, 4, 300), (76, 2, 1), (78, 1, 0)]
    let entry : SchedEntry := { addr := 4096, count := 300, layer := 1, store := 0 }
    let sc : Schedule := { layers := 2, entries := [entry], lookahead := 1 }
    let s (b : Bytes) := withMem [(128, table)] (atEngine (bargeEng 0) { bytes := b } live)
    let t (b : Bytes) : State := { s b with mem := { schedules := [(bargeKey 0 0, sc)] } }
    let run (n : Nat) : FetchRun := { addr := 4096, count := n }
    let f (n : Nat) : State := { live with mem := { fetches := [(bargeKey 31 0, [run n])] } }
    (∀ x ∈ [(0, 0), (64, 0), (65, 0), (64, 128)], bargeRuns (s (sb x.1 x.2)) 0 0 0x43 { bytes := sb x.1 x.2 }) ∧
    bargeRuns (t (ab 1)) 0 0 0x44 { bytes := ab 1 } ∧ bargeRuns (t (ab 2)) 0 0 0x44 { bytes := ab 2 } ∧
    (let b := sb 64 128
     zeroAt b 2 1 = true ∧ zeroAt b 6 2 = true ∧ zeroAt b 16 48 = true ∧ fld b 8 8 % 64 = 0 ∧ fld (sb 64 0) 8 8 = 0 ∧
     fld (sb 0 0) 3 1 = 0 ∧ 64 < fld (sb 65 0) 3 1 ∧ 1 ≤ fld b 3 1 ∧ fld b 3 1 ≤ 64 ∧ fld b 8 8 ≠ 0 ∧ clean (s b) ∧
     mayAccess (s b) (whoOf (bargeEng 0) 0) 128 64 false = true ∧ mayAccess (s b) (whoOf (bargeEng 0) 0) 192 16 false = true ∧
     (let h := memRead (s b).mem.bytes 128 64
      fld h 0 1 = 1 ∧ fld h 1 1 < 2 ∧ fld b 4 2 < fld h 2 2 ∧ fld h 4 4 = 1 ∧ zeroAt h 8 56 = true) ∧
     (List.range 1).mapM (fun i => entryOf (0 / 8) 2 (((memRead (s b).mem.bytes 192 16).drop (16 * i)).take 16)) = some [entry] ∧
     layersRise [entry] = true) ∧
    (tabFind (t (ab 1)).mem.schedules (bargeKey 0 0) = some sc ∧ zeroAt (ab 1) 2 2 = true ∧ zeroAt (ab 1) 6 58 = true ∧
     fld (ab 1) 4 2 < sc.layers ∧ sc.layers ≤ fld (ab 2) 4 2) ∧
    hasTurn (f 257) (bargeEng 31) 0 0 (bargeReady (f 257) 31) ∧
    (fetchesOf (f 256) 31 0 = [run 256] ∧ (f 256).pwr.moor = .running ∧ tabFind (f 256).barges.busy 31 = none ∧
     (getQ (f 256) (bargeEng 31) 0).halt = false ∧
     windowsPermit { f 256 with prt := {} } 0 (run 256).addr (256 * 4096) false = false) ∧
    (let d : State := { live with mem := { decks := [(3, { periodUs := 1 })], gran := [(1, { store := 143 })] } }
     (tabGet {} d.mem.decks 3).periodUs ≠ 0 ∧ d.pwr.moor = .running ∧ inUnit d (coreEng 0) = false ∧ foreground d (coreEng 0) = false ∧
     foreground (s (sb 64 0)) (bargeEng 0) = true ∧ inUnit (s (sb 64 0)) (bargeEng 0) = false ∧
     0xBFFFFFFFFF < unifiedEnd ∧ 15 < 16 ∧ tabFind d.mem.gran (8191 / 4096) = some { store := 143 }) := by
  refine ⟨?_, runs_of (by decide) (by decide +kernel), runs_of (by decide) (by decide +kernel), by unfold clean; decide +kernel,
    by decide +kernel, hasTurn_of (by decide +kernel), by decide +kernel, by decide +kernel⟩
  intro x hx
  simp only [List.mem_cons, List.not_mem_nil, or_false] at hx
  rcases hx with rfl | rfl | rfl | rfl <;> exact runs_of (by decide) (by decide +kernel)

/-! ### Collectives -/

/-- Member 0 of a collective of modules 65, 67 and 70, of which `n` take part; its staging area is at 0. -/
def member0 (kind n recv sent : Nat) : CollOp :=
  { kind := kind, members := [(65, 0), (67, 16384), (70, 32768)].take n, dst := 8192, src := 4096, chunk := 64, id := 77,
    recv := recv, sent := sent }
/-- That member runs on barge 31. -/
def collOn (y : CollOp) : State := upPath 67 { live with barges := { colls := [(bargeKey 31 0, y)] } }
/-- A unit of it may run. -/
theorem collRuns_of {y : CollOp} (h : y.verdict = none ∧ y.ready = true ∧
    (nextTurn (collOn y) (tabGet {} (getEng (collOn y) (bargeEng 31)).rr 0) (bargeReady (collOn y) 31)).map (·.2) = some 0) :
    collRuns (collOn y) 31 0 y :=
  ⟨by decide, by decide, rfl, rfl, h.1, h.2.1, hasTurn_of h.2.2⟩

theorem witness_CollectivesRun :
    let cb (kind : Nat) := record 64 [(0, 1, 0x45), (2, 1, kind), (3, 1, if kind = 0 then 1 else 0), (4, 2, 2), (6, 2, 0), (8, 8, 128), (16, 8, 4096), (24, 8, 8192),
      (32, 4, 64), (36, 4, 1), (40, 8, 77)]
    let s (kind : Nat) := upPath 67 (withMem [(128, record 32 [(0, 2, 65), (16, 2, 67)])] (atEngine (bargeEng 0) { bytes := cb kind } live))
    let sends : CollOp := { member0 0 2 1 1 with allowed := some 1, cur := record 64 [(0, 8, 3)] }
    let stores : CollOp := { member0 0 2 1 2 with got := [(1, 64)] }
    let adds : CollOp := { member0 2 3 0 1 with got := [(0, 64)] }
    (∀ k ∈ [0, 3], bargeRuns (s k) 0 0 0x45 { bytes := cb k } ∧ clean (s k)) ∧
    (∀ k ∈ [0, 3], collOk (cb k) = true ∧ fld (cb k) 2 1 = k ∧
     bits (fld (memRead (s k).mem.bytes 128 32) (16 * ((0 + 2 - 1) % 2)) 2) 11 0 = 67 ∧ 67 ≠ ownModule (s k) ∧ (choosePort (s k) 67).isSome = true ∧
     mayAccess (s k) (whoColl 0 0) 128 32 false = true ∧ 4096 + 2 * 64 ≤ wheelBase ∧ 8192 + 2 * 64 ≤ wheelBase ∧
     fld (memRead (s k).mem.bytes 128 32) 8 8 + 2 * 64 ≤ wheelBase) ∧
    (∀ y ∈ [member0 0 2 2 2, sends, stores, adds], collRuns (collOn y) 31 0 y) ∧
    ((member0 0 2 2 2).done = true ∧ (member0 0 2 2 2).cmd.origin = none) ∧
    (sends.done = false ∧ sends.kind ≠ 3 ∧ sends.maySend = true ∧ sends.sent ≠ 0 ∧ sends.moduleOf sends.succ ≠ ownModule (collOn sends) ∧
     (collPort (collOn sends) sends (sends.moduleOf sends.succ)).isSome = true ∧ sends.cur.drop sends.sentOff ≠ [] ∧
     (sends.cur.drop sends.sentOff).length ≤ 8192 ∧ sends.sentOff + (sends.cur.drop sends.sentOff).length = sends.travel sends.sent) ∧
    ((∀ y ∈ [stores, adds], y.done = false ∧ y.maySend = false ∧ y.mayConsume = true ∧ y.steps ≤ y.recv + 2 ∧ y.recvOff = 0 ∧
        y.next = [] ∧ y.travel y.recv ≤ 0x400000 ∧ y.stage y.recv + y.travel y.recv ≤ wheelBase ∧ clean (collOn y)) ∧
     stores.sumSteps ≤ stores.recv ∧ stores.dst + stores.recvChunk stores.recv * 64 + 64 ≤ wheelBase ∧
     adds.recv + 1 < adds.sumSteps ∧ adds.kind ≠ 1 ∧ adds.efmt ≠ 1 ∧ adds.src + (adds.recvChunk adds.recv + 1) * 64 ≤ wheelBase) ∧
    (∀ y ∈ [stores, adds], openTo (collOn y) (whoColl 31 0)) ∧
    (let y := member0 0 2 0 0
     y.begun = false ∧ y.kind ≠ 3 ∧ y.moduleOf y.pred ≠ ownModule (collOn y) ∧ (collPort (collOn y) y (y.moduleOf y.pred)).isSome = true ∧
     y.ready = false ∧ (member0 0 2 2 2).ready = true) ∧
    (∀ y ∈ [member0 0 2 0 0, { member0 3 2 0 0 with chunks := [1] }], onlyColl (collOn y) 31 0 y 77) ∧
    (let y := member0 0 2 0 0
     let t := collOn y
     let f (op : Nat) (g : FFrame) := nextFrame t 67 op { g with addr := 77 }
     let d := f 8 { vc := 4, arg := 1, payload := [1, 2] }
     arrives t 0 d 8 ∧ d.src = y.moduleOf y.pred ∧ d.arg < y.steps ∧ y.recv ≤ d.arg ∧ clean t ∧
     mayAccess t (whoColl 31 0) (y.stage d.arg + d.offset) d.payload.length true = true ∧
     arrives t 0 (f 9 { arg := 1 }) 9 ∧ (f 9 { arg := 1 }).src = y.moduleOf y.succ) ∧
    (let y : CollOp := { member0 3 2 0 0 with chunks := [1] }
     let f := nextFrame (collOn y) 67 9 { addr := 77, arg := 0xFFFF }
     arrives (collOn y) 0 f 9 ∧ f.arg = 0xFFFF ∧ y.kind = 3 ∧ ∃ r ∈ y.chunks, y.moduleOf r = f.src) := by
  refine ⟨?_, by decide +kernel, ?_, by decide +kernel, by decide +kernel, by unfold clean; decide +kernel, ?_, by decide +kernel, ?_,
    by unfold arrives clean; decide +kernel, by unfold arrives; decide +kernel⟩
  · intro k hk
    simp only [List.mem_cons, List.not_mem_nil, or_false] at hk
    rcases hk with rfl | rfl <;> exact ⟨runs_of (by decide) (by decide +kernel), rfl, rfl⟩
  · intro y hy
    simp only [List.mem_cons, List.not_mem_nil, or_false] at hy
    rcases hy with rfl | rfl | rfl | rfl <;> exact collRuns_of (by decide +kernel)
  · intro y hy
    simp only [List.mem_cons, List.not_mem_nil, or_false] at hy
    rcases hy with rfl | rfl <;> exact openTo_of (by decide +kernel)
  · intro y hy
    simp only [List.mem_cons, List.not_mem_nil, or_false] at hy
    rcases hy with rfl | rfl <;> exact ⟨by decide, by decide, rfl, rfl, by decide +kernel, by decide +kernel⟩
/-! ### The percolator -/

/-- The descriptor of a Hamming shard of one list on slice `k`, at epoch 5; `l` sets device fields. -/
def shardBytes (k : Nat) (l : List (Nat × Nat × Nat)) : Bytes :=
  record 192 ([(0, 1, 1), (1, 1, 3), (2, 1, 2), (3, 1, 1), (4, 2, 64), (6, 2, 32), (8, 4, 1), (12, 1, k), (16, 8, 262144),
    (24, 8, 196608), (32, 8, 327680), (40, 4, 2), (44, 2, 9), (48, 8, 393216), (64, 6, 5)] ++ l)
/-- That shard. -/
def shard15 : Shard := shardOf 131072 (shardBytes 15 [])
/-- The state with a slice 15 whose command is at the head of context 0; its memory holds the descriptor and more. -/
def onSlice (q : QCmd) (x : SliceSt) (m : List (Nat × Bytes)) : State :=
  withMem m { atEngine (sliceEng 15) q live with
    pcl := { slices := [(15, x)] }, prt := { ctxs := [(0, openCtx)], parts := [(0, { openPart with queryCtx := 1 })] } }
/-- A QUERY of that shard, K and NPROBE 1, with its flags and the epoch it pins. -/
def queryBytes (fl ep k : Nat) : Bytes :=
  record 64 [(0, 1, 0x80), (2, 1, fl), (4, 2, k), (6, 2, 1), (10, 6, ep), (16, 8, 131072), (24, 8, 4096), (32, 8, 8192),
    (48, 8, 12288), (56, 8, 16384)]

/-- A query of that shard on slice 15, in slot 3 of its table. -/
def query15 : Query := { cmd := { bytes := queryBytes 0 0 1 }, shard := shard15, epoch := 5, probes := [0], vec := List.replicate 64 0 }
/-- It is admitted; the shard is attached. -/
def inSlice (x : Query) (m : List (Nat × Bytes)) : State :=
  onSlice {} { queries := [(3, x)], slots := [(0, { shard := shard15 })] } m
/-- A unit of it may run. -/
theorem queryRuns_of {x : Query} {m : List (Nat × Bytes)} (h : x.verdict = none ∧ (nextTurn (inSlice x m)
    (tabGet {} (getEng (inSlice x m) (sliceEng 15)).rr 0) (sliceReady (inSlice x m) 15)).map (·.2) = some x.ctx) :
    queryRuns (inSlice x m) 15 3 x := ⟨by decide, rfl, h.1, hasTurn_of h.2⟩

theorem witness_QueriesRun :
    let e := sliceEng 15
    let w := whoOf e 0
    let m := [(131072, shardBytes 15 [])]
    let q (fl ep k : Nat) : QCmd := { bytes := queryBytes fl ep k }
    let new (q : QCmd) := onSlice q {} m
    let adm (fl ep : Nat) := onSlice { q fl ep 1 with checked := true } { slots := [(0, { shard := shard15 })] } m
    let block (ep next : Nat) := record 64 [(0, 8, next), (8, 2, 1), (16, 8, ep)]
    let atBlock : Query := { query15 with probes := [], streams := [(3, { block := 327680 })] }
    let todo : Query := { query15 with probes := [], todo := [{ at_ := 327776, scale := 0x3F80 }] }
    let done : Query := { query15 with probes := [] }
    let ended : Query := { query15 with verdict := some .abortedDisabled }
    (atHead (new (q 0 0 1)) e 0 0x80 (q 0 0 1) ∧ queryOk (q 0 0 1).bytes = true ∧ clean (new (q 0 0 1)) ∧
     queryFits (q 0 0 1).bytes 64 ∧ (shardOf 131072 (memRead (new (q 0 0 1)).mem.bytes 131072 192)) = shard15 ∧ shard15.dim = 64 ∧
     shard15.code ≠ 4 ∧ qRefine (q 0 0 1).bytes = 0 ∧ (∀ l ∈ probeList (new (q 0 0 1)) (q 0 0 1).bytes, l < shard15.lists) ∧
     fld (q 0 0 1).bytes 40 8 = 0 ∧ queryOk (q 0 0 0).bytes = false ∧ queryOk (q 4 0 1).bytes = false ∧ queryOk (q 0 1 1).bytes = false) ∧
    openTo (new (q 0 0 1)) w ∧
    (∀ f ∈ [(0, 0), (2, 5)], openTo (adm f.1 f.2) w ∧ hasTurn (adm f.1 f.2) e 0 0 (admitReady (adm f.1 f.2) 15)) ∧
    (∀ f ∈ [(0, 0), (2, 5)], waitingQuery (adm f.1 f.2) 15 0 = some { q f.1 f.2 1 with checked := true } ∧
      isAttached (adm f.1 f.2) 131072 = true ∧ queryFits (q f.1 f.2 1).bytes 64 ∧
      (let d := memRead (adm f.1 f.2).mem.bytes 131072 192
       (qPinned (q f.1 f.2 1).bytes = true → fld (q f.1 f.2 1).bytes 10 6 ≤ fld d 64 6 ∧ fld d 136 6 ≤ fld (q f.1 f.2 1).bytes 10 6 ∧
        fld d 96 1 = 0))) ∧
    queryRoom (inSlice query15 m) 15 0 = false ∧
    (queryRuns (inSlice query15 []) 15 3 query15 ∧ queryRuns (inSlice query15 [(196608, record 32 [(0, 8, 327680)])]) 15 3 query15) ∧
    (tabFind query15.streams 0 = none ∧ tabFind query15.streams 3 = none ∧ query15.screening = false ∧ clean (inSlice query15 []) ∧
     mayAccess (inSlice query15 []) w (shard15.heads + 32 * 0) 32 false = true) ∧
    (∀ f ∈ [(0, 0), (6, 0), (6, 331776)], queryRuns (inSlice atBlock [(327680, block f.1 f.2)]) 15 3 atBlock ∧
      openTo (inSlice atBlock [(327680, block f.1 f.2)]) w ∧ clean (inSlice atBlock [(327680, block f.1 f.2)])) ∧
    (∀ f ∈ [(0, 0), (6, 0), (6, 331776)],
      let h := memRead (inSlice atBlock [(327680, block f.1 f.2)]).mem.bytes 327680 64
      fld h 0 8 = f.2 ∧ (fld h 16 8 % 2 ^ 48 = 0 ∨ 5 < fld h 16 8 % 2 ^ 48)) ∧
    (327680 + 64 + (32 + shard15.csz) * shard15.epb + 2 * shard15.dim ≤ wheelBase ∧
     tabFind atBlock.streams 3 = some { block := 327680 } ∧ atBlock.screening = false) ∧
    queryRuns (inSlice todo []) 15 3 todo ∧
    (todo.scanned = true ∧ todo.screening = false ∧ clean (inSlice todo []) ∧ mayAccess (inSlice todo []) w 327776 32 false = true ∧
     todo.held.length < qK todo.cmd.bytes) ∧
    (let out := ((finalSelect done).out.map (recBytes (queryOrder done).1)).flatten
     done.verdict = none ∧ done.scanned = true ∧ clean (inSlice done []) ∧ out.length = 32 ∧
     tabFind (getSlice (inSlice done []) 15).queries 3 = some done ∧
     mayAccess (inSlice done []) w 12288 (qScratch done.cmd.bytes) true = true ∧
     mayAccess (inSlice done []) w (16384 + 32) 32 true = true ∧ mayAccess (inSlice done []) w 16384 32 true = true) ∧
    (tabFind (getSlice (inSlice ended []) 15).queries 3 = some ended ∧ Status.abortedDisabled.halts = false ∧
     mayAccess (inSlice ended []) w 16384 32 true = true) := by
  refine ⟨by unfold atHead clean queryFits; decide +kernel, openTo_of (by decide +kernel), ?_, by unfold queryFits; decide +kernel,
    by decide +kernel, ⟨queryRuns_of (by decide +kernel), queryRuns_of (by decide +kernel)⟩, by unfold clean; decide +kernel, ?_,
    by decide +kernel, by decide +kernel, queryRuns_of (by decide +kernel), by unfold clean; decide +kernel,
    by unfold clean; decide +kernel, by decide +kernel⟩
  · intro f hf
    simp only [List.mem_cons, List.not_mem_nil, or_false] at hf
    rcases hf with rfl | rfl <;> exact ⟨openTo_of (by decide +kernel), hasTurn_of (by decide +kernel)⟩
  · intro f hf
    simp only [List.mem_cons, List.not_mem_nil, or_false] at hf
    rcases hf with rfl | rfl | rfl <;> exact ⟨queryRuns_of (by decide +kernel), openTo_of (by decide +kernel), rfl, rfl⟩

/-- Slice 15 holds that shard in slot `i`; the descriptor has device fields `l`; a packet of `n` words may wait on queue 9. -/
def writing (q : QCmd) (slots : Tab WriterSlot) (l : List (Nat × Nat × Nat)) (n : Option Nat) (m : List (Nat × Bytes)) : State :=
  let y : SlipQ := match n with
    | some _ => { queue9 with commit := 1, resv := 8, resolved := 8, items := [{ len := 8, module := 65, state := .visible 0 8 }] }
    | none => queue9
  withSq y (onSlice q { slots := slots } ((131072, shardBytes 15 l) :: (6144, record 16 [(8, 2, n.getD 0)]) :: m))
/-- The shard's writer slot. -/
def slot15 : WriterSlot := { shard := shard15 }
/-- A command about the shard. -/
def shardQ (op first n : Nat) : QCmd := { bytes := record 64 [(0, 1, op), (8, 8, 131072), (16, 4, first), (20, 4, n)] }
/-- It is well formed and has the turn. -/
theorem shardCmd_of {op first n : Nat} {slots : Tab WriterSlot} {l : List (Nat × Nat × Nat)}
    (h : let s := writing (shardQ op first n) slots l none []
      headCmd s (sliceEng 15) 0 = some (shardQ op first n) ∧ cmdOp (shardQ op first n).bytes = op ∧
      (nextTurn s (tabGet {} (getEng s (sliceEng 15)).rr 0) (sliceReady s 15)).map (·.2) = some 0 ∧
      shardCmdOk (shardQ op first n).bytes = true ∧ memRead s.mem.bytes (fld (shardQ op first n).bytes 8 8) 192 = shardBytes 15 l ∧
      bits (fld (shardBytes 15 l) 12 1) 3 0 = 15 ∧ fld (shardQ op first n).bytes 8 8 + 192 ≤ wheelBase) :
    shardCmd (writing (shardQ op first n) slots l none []) 15 0 op (shardQ op first n) (shardBytes 15 l) :=
  ⟨by decide, by decide, ⟨h.1, rfl, h.2.1⟩, hasTurn_of h.2.2.1, h.2.2.2.1, h.2.2.2.2.1.symm, h.2.2.2.2.2.1, h.2.2.2.2.2.2,
   ⟨rfl, rfl⟩, openTo_of rfl⟩

theorem witness_ShardWriters :
    let e := sliceEng 15
    let w := whoWriter 15 0
    let bare := writing (shardQ 0x81 0 0) [] [] none []
    let n (op : Nat) := if op = 0x83 then 1 else 0
    let taken (op : Nat) := writing (shardQ op 0 (n op)) [(0, slot15)] [] none []
    shardCmd bare 15 0 0x81 (shardQ 0x81 0 0) (shardBytes 15 []) ∧
    shardCmd (writing (shardQ 0x81 0 0) [] [(96, 1, 2)] none []) 15 0 0x81 (shardQ 0x81 0 0) (shardBytes 15 [(96, 1, 2)]) ∧
    (∀ l ∈ [[], [(96, 1, 2)]], descOk9 131072 (shardBytes 15 l) = true ∧ (getSq bare (shardOf 131072 (shardBytes 15 l)).updq).consumer.toNat = 0 ∧
      slotOf bare 131072 = none ∧ (List.range 4).find? (fun i => (getSlot bare 15 i).isNone) = some 0 ∧
      fld (shardBytes 15 l) 88 8 % 2 ^ 48 = 0) ∧
    (fld (shardBytes 15 []) 96 1 = 0 ∧ fld (shardBytes 15 [(96, 1, 2)]) 96 1 = 2) ∧
    hasTurn (taken 0x81) e 0 0 (sliceReady (taken 0x81) 15) ∧
    (atHead (taken 0x81) e 0 0x81 (shardQ 0x81 0 0) ∧ (slotOf (taken 0x81) 131072).isSome = true ∧ clean (taken 0x81) ∧
     mayAccess (taken 0x81) (whoOf e 0) 131072 192 false = true) ∧
    (∀ op ∈ [0x82, 0x83], shardCmd (taken op) 15 0 op (shardQ op 0 (n op)) (shardBytes 15 [])) ∧
    (∀ op ∈ [0x82, 0x83], slotOf (taken op) 131072 = some (15, 0, slot15) ∧ slot15.attach = none ∧ slot15.attached = true ∧ slot15.ctx = 0 ∧
      0 + 1 ≤ slot15.shard.lists ∧ runActive (taken op) slot15 = false) ∧
    (∀ m ∈ [[], [(4096, record 64 [(0, 1, 2), (4, 4, 1), (40, 8, 77)])],
        [(4096, record 96 [(0, 1, 1), (4, 4, 1), (36, 2, 0x3F80), (40, 8, 77), (64, 8, 5)]), (196608, record 32 [(0, 8, 327680), (8, 8, 327680)]),
         (327680, record 64 [(8, 2, 1)])]],
      let n := if m = [] then 0 else if m.length = 1 then 2 else 3
      packetRuns (writing {} [(0, slot15)] [] (some n) m) 15 0 slot15 ∧ clean (writing {} [(0, slot15)] [] (some n) m) ∧
      openTo (writing {} [(0, slot15)] [] (some n) m) w) ∧
    (let y := getSq (writing {} [(0, slot15)] [] (some 0) []) 9
     shard15.updq = 9 ∧ y.base.toNat + 48 * y.size ≤ wheelBase ∧ 0 < y.size ∧ shard15.addr + 192 ≤ wheelBase ∧
     shard15.heads + 32 * 0 + 32 ≤ wheelBase ∧ fld (shardBytes 15 []) 64 6 + 1 < 2 ^ 48 ∧ frameAddr y 0 = 6144 ∧ wordAddr y 1 = 4128 ∧
     mayAccess (writing {} [(0, slot15)] [] (some 0) []) w 6144 16 false = true) ∧
    (let r := record 64 [(0, 1, 2), (4, 4, 1), (40, 8, 77)]
     zeroAt r 1 3 = true ∧ fld r 4 4 = 1 ∧ zeroAt (r.take 32) 8 24 = true ∧ fld r 0 1 = 2 ∧ recordOk shard15 false (r.drop 32) = true ∧
     fld (r.drop 32) 0 4 = 0) ∧
    (let r := record 96 [(0, 1, 1), (4, 4, 1), (36, 2, 0x3F80), (40, 8, 77), (64, 8, 5)]
     zeroAt r 1 3 = true ∧ fld r 4 4 = 1 ∧ zeroAt (r.take 32) 8 24 = true ∧ fld r 0 1 = 1 ∧ 3 = 2 + shard15.csz / 32 ∧
     recordOk shard15 true ((r.drop 32).take 32) = true ∧ 1 < shard15.epb ∧ fld (shardBytes 15 []) 84 4 + 1 < 2 ^ 32 ∧
     327680 + 4096 ≤ wheelBase ∧ shard15.journal + 8 ≤ wheelBase ∧
     ([(shard15.addr, 192), (shard15.heads, 32), (327680, 4096), (shard15.journal, 8)].Pairwise
       fun u v => u.1 + u.2 ≤ v.1 ∨ v.1 + v.2 ≤ u.1)) ∧
    (let z : CmpStep := { next := 327680, tail := 327680 }
     ∀ x ∈ [slot15, { slot15 with step := some z }],
       let s := writing {} [(0, x)] [(104, 4, 1)] none []
       getSlot s 15 0 = some x ∧ writerRuns s x = true ∧ pieceReady s x = true ∧ packetReady s x = false ∧
       hasTurn s e 0 x.ctx (sliceReady s 15) ∧ clean s ∧ openTo s w) ∧
    (let s := writing {} [(0, slot15)] [(104, 4, 1)] none []
     fld (memRead s.mem.bytes 196608 32) 0 8 = fld (memRead s.mem.bytes 196608 32) 8 8 ∧ 327680 + 64 ≤ wheelBase ∧
     (196608 + 32 ≤ shard15.addr ∨ shard15.addr + 192 ≤ 196608) ∧ fld (memRead s.mem.bytes 327680 64) 0 8 = 0) ∧
    (let flipped : WriterSlot := { slot15 with flip := some 7 }
     let t (o : Nat) := onSlice {} { slots := [(0, flipped)], queries := [(o, { query15 with order := o, probes := [] })] }
       [(131072, shardBytes 15 [(96, 1, 2)])]
     hasTurn (t 7) e 0 0 (sliceReady (t 7) 15) ∧ openTo (t 7) w ∧
     (getSlot (t 6) 15 0 = some flipped ∧ writerRuns (t 7) flipped = true ∧ flipped.stopped = false ∧
      (∃ y ∈ activeOn (t 6) 131072, y.order < 7) ∧ (∀ y ∈ activeOn (t 7) 131072, 7 ≤ y.order) ∧ clean (t 7) ∧
      leNat (memRead (t 7).mem.bytes (131072 + 108) 4) = 0)) := by
  refine ⟨shardCmd_of (by decide +kernel), shardCmd_of (by decide +kernel), by decide +kernel, by decide +kernel,
    hasTurn_of (by decide +kernel), by unfold atHead clean; decide +kernel, ?_, by decide +kernel, ?_, by decide +kernel,
    by decide +kernel, by decide +kernel, ?_, by decide +kernel,
    ⟨hasTurn_of (by decide +kernel), openTo_of rfl, by unfold clean; decide +kernel⟩⟩
  · intro op h
    simp only [List.mem_cons, List.not_mem_nil, or_false] at h
    rcases h with rfl | rfl <;> exact shardCmd_of (by decide +kernel)
  · intro m h
    simp only [List.mem_cons, List.not_mem_nil, or_false] at h
    rcases h with rfl | rfl | rfl <;>
      exact ⟨⟨by decide, rfl, by decide +kernel, by decide +kernel, .inl rfl, hasTurn_of (by decide +kernel)⟩, ⟨rfl, rfl⟩, openTo_of rfl⟩
  · intro z x h
    simp only [List.mem_cons, List.not_mem_nil, or_false] at h
    rcases h with rfl | rfl <;>
      exact ⟨rfl, by decide +kernel, by decide +kernel, by decide +kernel, hasTurn_of (by decide +kernel), ⟨rfl, rfl⟩, openTo_of rfl⟩
/-! ### Sort and select, gather engines -/

/-- A command of a sort/select unit over `n` records at 0 with K `k`, its records to 4096, its summary to 8192. -/
def ssuBytes (op k n : Nat) : Bytes :=
  record 64 [(0, 1, op), (4, 2, 1), (8, 4, k), (12, 4, n), (16, 8, 16777216), (24, 8, 2147483648), (32, 8, 8192),
    (56, 8, if op = 0xA4 then 0 else 4294967296)]
/-- It stands at the head on unit 15. -/
def atSsu (op k n : Nat) : State := atEngine (ssuEng 15) { bytes := ssuBytes op k n } live
/-- It may run a unit. -/
theorem ssuRuns_of {op k n : Nat} {lists : List (Nat × Nat)} (ho : op ∈ [0xA0, 0xA1, 0xA2, 0xA3, 0xA4])
    (h : cmdOp (ssuBytes op k n) = op ∧ ssuOk (ssuBytes op k n) = true ∧
      (nextTurn (atSsu op k n) (tabGet {} (getEng (atSsu op k n) (ssuEng 15)).rr 0) (ssuReady (atSsu op k n) 15)).map (·.2) = some 0 ∧
      ∀ r ∈ ssuRegions (ssuBytes op k n), r.2 = 0 ∨ r.1 + r.2 ≤ wheelBase)
    (ht : ssuTable (atSsu op k n) (ssuBytes op k n) lists) :
    ssuRuns (atSsu op k n) 15 0 op { bytes := ssuBytes op k n } lists :=
  ⟨by decide, by decide, ho, ⟨rfl, rfl, h.1⟩, h.2.1, hasTurn_of h.2.2.1, ⟨rfl, rfl⟩, openTo_of rfl, h.2.2.2, ht⟩

theorem witness_SelectUnitsSelect :
    (∀ f ∈ [(0xA0, 1, 2), (0xA1, 0, 2), (0xA3, 0, 2), (0xA4, 0, 2), (0xA0, 1, 60000), (0xA4, 0, 16777217)],
      ssuRuns (atSsu f.1 f.2.1 f.2.2) 15 0 f.1 { bytes := ssuBytes f.1 f.2.1 f.2.2 } [(16777216, f.2.2)]) ∧
    ssuRuns (atSsu 0xA2 1 0) 15 0 0xA2 { bytes := ssuBytes 0xA2 1 0 } [(0, 0)] ∧
    (let units (op k n : Nat) := if n ≤ 16777216 then ceilDiv (ssuBeats (ssuBytes op k n) n) 1024 else 1
     0 + 1 < units 0xA0 1 60000 ∧ units 0xA4 0 16777217 ≤ 0 + 1 ∧
     (∀ f ∈ [(0xA0, 1, 2), (0xA1, 0, 2), (0xA2, 1, 0), (0xA3, 0, 2), (0xA4, 0, 2)], units f.1 f.2.1 f.2.2 ≤ 0 + 1 ∧
       ssuContinue (ssuBytes f.1 f.2.1 f.2.2) = false ∧ fld (ssuBytes f.1 f.2.1 f.2.2) 32 8 + 32 ≤ fld (ssuBytes f.1 f.2.1 f.2.2) 24 8 ∧
       ¬ (16777216 < ssuCount (ssuBytes f.1 f.2.1 f.2.2) ∨
          16777216 < fld (ssuBytes f.1 f.2.1 f.2.2) 52 4 + ssuCount (ssuBytes f.1 f.2.1 f.2.2) ∨ 16777216 < f.2.2))) := by
  refine ⟨?_, ssuRuns_of (by decide) (by decide +kernel) (by unfold ssuTable; decide +kernel), by decide +kernel⟩
  intro f hf
  simp only [List.mem_cons, List.not_mem_nil, or_false] at hf
  rcases hf with rfl | rfl | rfl | rfl | rfl | rfl <;>
    exact ssuRuns_of (by decide) (by decide +kernel) (by unfold ssuTable; decide +kernel)

/-- A table of 64 BF16 columns, two shards of which this is the first; `l` sets further fields. -/
def tableBytes (l : List (Nat × Nat × Nat)) : Bytes :=
  record 128 ([(0, 1, 1), (1, 1, 1), (3, 1, 1), (4, 2, 64), (6, 2, 4), (8, 8, 8), (16, 2, 2), (20, 4, 768), (24, 8, 262144), (32, 8, 524288),
    (40, 8, 327680), (48, 4, 64), (52, 4, 2), (56, 8, 393216)] ++ l)
/-- That table. -/
def table2 (l : List (Nat × Nat × Nat)) : TableDesc := tableOf 131072 (tableBytes l)
/-- A command at the head on gather engine 0, tables registered. -/
def onGather (b : Bytes) (ts : Tab GthTable) (m : List (Nat × Bytes)) : State :=
  withMem m { atEngine (gatherEng 0) { bytes := b } live with gth := { tables := ts } }

/-- The command may run on gather engine 0. -/
theorem gatherTurn_of {s : State} {op : Nat} {b : Bytes} (h : headCmd s (gatherEng 0) 0 = some { bytes := b } ∧ cmdOp b = op ∧
    (nextTurn s (tabGet {} (getEng s (gatherEng 0)).rr 0) (gatherReady s 0)).map (·.2) = some 0 ∧ (getGe s 0).ops = [] ∧
    gatherOk b = true) : gatherTurn s 0 0 op { bytes := b } :=
  ⟨by decide, by decide, ⟨h.1, rfl, h.2.1⟩, hasTurn_of h.2.2.1, h.2.2.2⟩

/-- No other context has a command or a request on the engine. -/
theorem alone_of (b : Bytes) (ts : Tab GthTable) (m : List (Nat × Bytes)) (d : Nat) (h : d ≠ 0) :
    canStart (upPath 67 (onGather b ts m)) 0 d = false ∧ canServe (upPath 67 (onGather b ts m)) 0 d = false := by
  refine ⟨?_, rfl⟩
  have : headCmd (upPath 67 (onGather b ts m)) (gatherEng 0) d = none := by
    have q : getQ (upPath 67 (onGather b ts m)) (gatherEng 0) d = {} := by
      simp only [getQ, getEng, upPath, linked, onGather, withMem, atEngine, tabGet, if_true]
      rw [if_neg (fun x => h x.symm)]
    simp only [headCmd, q]
    rfl
  simp only [canStart, this]

theorem witness_GatherCommands :
    let w := whoGather 0 0
    let att := record 64 [(0, 1, 0xC3), (2, 1, 63), (8, 8, 131072)]
    let det := record 64 [(0, 1, 0xC4), (2, 1, 63)]
    let use (op : Nat) := record 64 [(0, 1, op), (2, 1, 63), (8, 8, 4096), (16, 4, 1), (32, 8, if op = 0xC2 then 0 else 8192),
      (40, 8, if op = 0xC1 then 12288 else 0), (48, 8, if op = 0xC1 then 1 else 0)]
    let x := table2 [(2, 1, 1)]
    let tab (a : Bool) : Tab GthTable := [(63, { desc := x, attached := a })]
    let s (b : Bytes) (ts : Tab GthTable) := onGather b ts [(131072, tableBytes []), (4096, List.replicate 32 0xFF)]
    let one (op home : Nat) := upPath 67 (onGather (use op) (tab true) [(524288, toLe 2 home)])
    gatherTurn (s att []) 0 0 0xC3 { bytes := att } ∧ gatherTurn (s det (tab true)) 0 0 0xC4 { bytes := det } ∧
    openTo (s att []) w ∧
    (clean (s att []) ∧ fld att 8 8 + 128 ≤ wheelBase ∧ getTable (s att []) (gTable att) = none ∧
     tableOk (memRead (s att []).mem.bytes (fld att 8 8) 128) = true ∧ (getTable (s att (tab true)) (gTable att)).isSome = true ∧
     tableOf (fld att 8 8) (memRead (s att []).mem.bytes (fld att 8 8) 128) = table2 []) ∧
    rowsAtRest (s att []) (table2 []) ∧
    (getTable (s det (tab true)) (gTable det) = some { desc := x } ∧ ∀ g ∈ (s det (tab true)).gth.engs, g.2.ops = []) ∧
    (∀ op ∈ [0xC0, 0xC1, 0xC2], ∀ ts ∈ [[], tab false, tab true], gatherTurn (s (use op) ts) 0 0 op { bytes := use op }) ∧
    (∀ op ∈ [0xC0, 0xC1, 0xC2], (getTable (s (use op) []) (gTable (use op)) = none ∧
      getTable (s (use op) (tab false)) (gTable (use op)) = some { desc := x, attached := false } ∧
      getTable (s (use op) (tab true)) (gTable (use op)) = some { desc := x }) ∧
      fld (memRead (s (use op) (tab true)).mem.bytes 4096 32) (32 * 0) 8 = allOnes) ∧
    (∀ op ∈ [0xC0, 0xC1, 0xC2], rowsFit (s (use op) (tab true)) 0 0 (use op) x) ∧
    (∀ op ∈ [0xC0, 0xC1, 0xC2], ∀ home ∈ [65, 67], gatherTurn (one op home) 0 0 op { bytes := use op } ∧ rowsFit (one op home) 0 0 (use op) x ∧
      ∀ d, d ≠ 0 → canStart (one op home) 0 d = false ∧ canServe (one op home) 0 d = false) ∧
    (∀ op ∈ [0xC0, 0xC1, 0xC2], fld (memRead (one op 67).mem.bytes 4096 32) 0 8 < x.rows ∧ x.rows ≤ 2 ^ 63 ∧ gExpand (use op) = false ∧
      bit (fld (use op) 3 1) 1 = false ∧ (getGe (one op 67) 0).pf = [] ∧ 0 < x.rb ∧ x.rb ≤ 1048576 ∧ x.map + 2 * (0 % x.shards) + 2 ≤ wheelBase ∧
      fld (memRead (one op 65).mem.bytes (x.map + 2 * (0 % x.shards)) 2) 0 2 % 4096 = ownModule (one op 65) ∧
      fld (memRead (one op 67).mem.bytes (x.map + 2 * (0 % x.shards)) 2) 0 2 % 4096 = 67 ∧ 67 ≠ ownModule (one op 67) ∧
      (choosePort (one op 67) 67).isSome = true) := by
  have fit {s : State} {b : Bytes} {x : TableDesc} (hs : s.prt = live.prt) (h : clean s ∧ fld b 8 8 + 32 * fld b 16 4 ≤ wheelBase ∧ x.dim % 64 = 0 ∧
        (cmdOp b = 0xC2 ∨ fld b 32 8 + ceilDiv (if gExpand b then fld b 20 4 else fld b 16 4) 64 * (x.dim / 64) * isz (fld b 4 1) ≤ wheelBase) ∧
        (cmdOp b ≠ 0xC1 ∨ (x.opt ≠ 0 ∧ fld b 40 8 + 32 ≤ wheelBase ∧
          zeroAt (memRead s.mem.bytes (fld b 40 8) 32) 16 16 = true)) ∧ gExpand b = false) :
      rowsFit s 0 0 b x :=
    ⟨h.1, openTo_of (by simp only [getPart, hs]; rfl), h.2.1, h.2.2.1, h.2.2.2.1, h.2.2.2.2.1, fun y => by rw [h.2.2.2.2.2] at y; cases y⟩
  refine ⟨gatherTurn_of (by decide +kernel), gatherTurn_of (by decide +kernel), openTo_of rfl, by unfold clean; decide +kernel,
    by unfold rowsAtRest; decide +kernel, by decide +kernel, ?_, by decide +kernel, ?_, ?_, by decide +kernel⟩
  · intro op ho ts ht
    simp only [List.mem_cons, List.not_mem_nil, or_false] at ho ht
    rcases ho with rfl | rfl | rfl <;> rcases ht with rfl | rfl | rfl <;> exact gatherTurn_of (by decide +kernel)
  · intro op ho
    simp only [List.mem_cons, List.not_mem_nil, or_false] at ho
    rcases ho with rfl | rfl | rfl <;> exact fit rfl (by unfold clean; decide +kernel)
  · intro op ho home hh
    simp only [List.mem_cons, List.not_mem_nil, or_false] at ho hh
    rcases ho with rfl | rfl | rfl <;> rcases hh with rfl | rfl <;>
      exact ⟨gatherTurn_of (by decide +kernel), fit rfl (by unfold clean; decide +kernel), alone_of _ _ _⟩

/-- A request on gather engine 15 for row 30 of table 63, or of the row in a spare slot. -/
def rowReq (n : Option Nat) (u : Option RowUpdate) (src : RowFrom) : RowReq :=
  { engine := 15, table := 63, index := 30, spare := n, update := u, source := src }
/-- The module has it, tables registered, engines at work. -/
def withReq (r : RowReq) (ts : Tab GthTable) (engs : Tab GthEng) : State :=
  upPath 67 { onGather [] ts [] with gth := { tables := ts, reqs := [(4, r)], engs := engs } }
/-- It may be served. -/
theorem servable_of {r : RowReq} {ts : Tab GthTable} {engs : Tab GthEng} (h : r.engine = 15 ∧ r.ctx = 0 ∧ r.held = false ∧
    rowFirst (withReq r ts engs) 4 r = true ∧ (nextTurn (withReq r ts engs)
      (tabGet {} (getEng (withReq r ts engs) (gatherEng 15)).rr 0) (gatherReady (withReq r ts engs) 15)).map (·.2) = some r.ctx) :
    servable (withReq r ts engs) 15 4 r :=
  ⟨by decide, by rw [h.2.1]; decide, rfl, h.1, h.2.2.1, h.2.2.2.1, hasTurn_of h.2.2.2.2⟩

/-- Table 63 attached; `o` sets its byte 2. -/
def attached63 (o : Nat) : Tab GthTable := [(63, { desc := table2 [(2, 1, o)] })]
/-- A MIGRATE of row 2 of table 63, home or to this module. -/
def migrateBytes (home : Bool) : Bytes :=
  record 64 [(0, 1, 0xC5), (2, 1, 63), (3, 1, if home then 1 else 0), (8, 8, 2), (48, 8, if home then 0 else 65)]
/-- It stands at the head on engine 1; the row's redirect entry and the first free spare slot of the descriptor are given. -/
def atMigrate (home : Bool) (entry : Bytes) (free : Nat) : State :=
  withMem [(327696, entry), (131136, toLe 4 free)]
    { upPath 67 (atEngine (gatherEng 1) { bytes := migrateBytes home } live) with gth := { tables := attached63 0 } }
/-- It may run. -/
theorem migrates_of {home : Bool} {entry : Bytes} {free : Nat} (h : let s := atMigrate home entry free
    headCmd s (gatherEng 1) 0 = some { bytes := migrateBytes home } ∧ cmdOp (migrateBytes home) = 0xC5 ∧
    (nextTurn s (tabGet {} (getEng s (gatherEng 1)).rr 0) (gatherReady s 1)).map (·.2) = some 0 ∧ gatherOk (migrateBytes home) = true ∧
    gTable (migrateBytes home) = 63 ∧ fld (migrateBytes home) 8 8 = 2 ∧ memRead s.mem.bytes 327696 16 = entry) :
    migrates (atMigrate home entry free) 1 0 { bytes := migrateBytes home } (table2 []) entry := by
  refine ⟨⟨by decide, by decide, ⟨h.1, rfl, h.2.1⟩, hasTurn_of h.2.2.1, rfl, h.2.2.2.1⟩, ?_, ⟨rfl, rfl⟩, openTo_of rfl, ?_⟩
  · rw [h.2.2.2.2.1]; exact ⟨_, rfl, by decide +kernel, by decide +kernel⟩
  · have e : fld (migrateBytes home) 8 8 = 2 := h.2.2.2.2.2.1
    simp only [e]
    refine ⟨by decide +kernel, by decide +kernel, by decide +kernel, by decide +kernel, by decide +kernel, ?_, by decide +kernel, rfl⟩
    exact h.2.2.2.2.2.2.symm

theorem witness_RowsAreServed :
    let w := whoGather 15 0
    let peer := RowFrom.peer 67 5
    let y : RowUpdate := { grad := List.replicate 64 0, opt := record 32 [], step := 1 }
    let go : GthOp := { kind := .gather, table := 63, out := 1
                        cmd := { bytes := record 64 [(0, 1, 0xC0), (2, 1, 63), (4, 1, 1), (8, 8, 4096), (16, 4, 1), (32, 8, 8192)] } }
    let eng3 : Tab GthEng := [(3, { ops := [(0, go)] })]
    (∀ x ∈ [(rowReq none none peer, [], []), (rowReq none none peer, attached63 0, []), (rowReq (some 1) none peer, attached63 0, []),
        (rowReq (some 0) (some y) peer, attached63 1, []), (rowReq (some 1) none (.engine 3 0 0), attached63 0, []),
        (rowReq (some 1) none (.engine 3 0 0), attached63 0, eng3)],
      servable (withReq x.1 x.2.1 x.2.2) 15 4 x.1 ∧ clean (withReq x.1 x.2.1 x.2.2) ∧ openTo (withReq x.1 x.2.1 x.2.2) w) ∧
    (let r := rowReq none none peer
     getTable (withReq r [] []) r.table = none ∧ (getGe (withReq r [] []) 15).ops = [] ∧ (answerPort (withReq r [] []) r 67).isSome = true) ∧
    (let x := table2 [(2, 1, 0)]
     getTable (withReq (rowReq none none peer) (attached63 0) []) 63 = some { desc := x } ∧
     x.spare + 1 * x.stride + x.rb + 64 + 8 * x.dim ≤ wheelBase ∧ x.hot = false ∧ 0 < x.rb ∧ x.rb ≤ 8192 ∧ x.rfmt = 1 ∧
     isMx (fmtElem 1) = false ∧ x.dim = 64 ∧ y.grad.length = 64 ∧ (table2 [(2, 1, 1)]).opt = 1 ∧
     (getGe (withReq (rowReq (some 1) none (.engine 3 0 0)) (attached63 0) []) 3).ops = []) ∧
    (let x := table2 [(2, 1, 0)]
     let r := { rowReq none none peer with index := 2, engine := 1 }
     rowAt (withReq r (attached63 0) []) x r (x.base + x.slot 2 * x.stride) ∧
     rowAt (withReq (rowReq (some 1) none peer) (attached63 0) []) x (rowReq (some 1) none peer) (x.spare + 1 * x.stride)) ∧
    (let s := withReq (rowReq (some 1) none (.engine 3 0 0)) (attached63 0) eng3
     (getGe s 3).ops = [(0, go)] ∧ (getGe s 15).ops = [] ∧ go.kind = .gather ∧ go.todo = [] ∧ go.verdict = none ∧
     gExpand go.cmd.bytes = false ∧ fld go.cmd.bytes 4 1 = 1 ∧ 8192 + (0 / 64 + 1) * (64 / 64) * isz 1 ≤ wheelBase) ∧
    openTo (withReq (rowReq (some 1) none (.engine 3 0 0)) (attached63 0) eng3) (whoGather 3 0) ∧
    (∀ t ∈ [0x1041, 0x1043], migrates (atMigrate true (record 16 [(0, 8, 2), (8, 2, t), (12, 4, 1)]) 0) 1 0 { bytes := migrateBytes true }
      (table2 []) (record 16 [(0, 8, 2), (8, 2, t), (12, 4, 1)])) ∧
    migrates (atMigrate true (record 16 []) 0) 1 0 { bytes := migrateBytes true } (table2 []) (record 16 []) ∧
    migrates (atMigrate false (record 16 []) 1) 1 0 { bytes := migrateBytes false } (table2 []) (record 16 []) ∧
    migrates (atMigrate false (record 16 [(0, 8, 2), (8, 2, 0x1041)]) 1) 1 0 { bytes := migrateBytes false } (table2 [])
      (record 16 [(0, 8, 2), (8, 2, 0x1041)]) ∧
    (bit (fld (migrateBytes true) 3 1) 0 = true ∧ bit (fld (migrateBytes false) 3 1) 0 = false ∧
     0x1041 / 4096 = 1 ∧ 0x1041 % 4096 = ownModule (atMigrate true [] 0) ∧ 0x1043 % 4096 = 67 ∧
     spareBusy (atMigrate true [] 0) 63 1 = false ∧ (choosePort (atMigrate true [] 0) 67).isSome = true ∧
     forwardsLeft (atMigrate true [] 0) 67 63 2 = false ∧ fld (migrateBytes false) 48 8 = ownModule (atMigrate false [] 1) ∧
     fld (memRead (atMigrate false (record 16 []) 1).mem.bytes (131072 + 64) 4) 0 4 = 1 ∧
     (let x := table2 []
      x.base + x.slot 2 * x.stride + x.stride ≤ wheelBase ∧ x.spare + 1 * x.stride + x.stride ≤ wheelBase ∧ 4 ≤ x.stride ∧
      [(x.base + x.slot 2 * x.stride, x.stride), (x.spare + 1 * x.stride, x.stride), (x.addr, 128), (firstProbe x 2, 16)].Pairwise
        (fun (u v : Nat × Nat) => u.1 + u.2 ≤ v.1 ∨ v.1 + v.2 ≤ u.1))) ∧
    ({ live with gth := { epochMs := 1 } } : State).gth.epochMs ≠ 0 ∧
    (let x := table2 [(2, 1, 12)]
     let z (last : Nat) : State := upPath 67 (withMem [(524288, toLe 2 65 ++ toLe 2 67)]
       { live with gth := { tables := [(63, { desc := x })], loadLast := [(63, BitVec.ofNat 64 last)] } })
     let l (last : Nat) := setAt [0, 9] 0 (tabGet 0 (z last).gth.loadLast 63).toNat
     openTo (z 0) (whoPurser (some 0)) ∧
     (getTable (z 0) 63 = some { desc := x } ∧ x.migrate = true ∧ x.shard = 0 ∧ x.shards = 2 ∧ (z 0).gth.moves = [] ∧
      (z 0).gth.moving = none ∧ clean (z 0) ∧ x.map + 2 * x.shards ≤ wheelBase ∧ l 0 = [0, 9] ∧ l 9 = [9, 9] ∧
      (l 9).getD 0 0 * 100 ≤ (l 9).sum / 2 * (100 + x.thresh) ∧ (l 0).sum / 2 * (100 + x.thresh) < (l 0).getD 1 0 * 100 ∧
      fld (memRead (z 0).mem.bytes (x.map + 2 * 1) 2) 0 2 % 4096 = 67 ∧ 67 ≠ ownModule (z 0) ∧ (choosePort (z 0) 67).isSome = true)) := by
  refine ⟨?_, by decide +kernel, by decide +kernel, ⟨.inr (by decide +kernel), .inl ⟨1, rfl, by decide +kernel, rfl⟩⟩, by decide +kernel, openTo_of rfl, ?_,
    migrates_of (by decide +kernel), migrates_of (by decide +kernel), migrates_of (by decide +kernel), by decide +kernel, by decide +kernel,
    openTo_of rfl, by unfold clean; decide +kernel⟩
  · intro x hx
    simp only [List.mem_cons, List.not_mem_nil, or_false] at hx
    rcases hx with rfl | rfl | rfl | rfl | rfl | rfl <;> exact ⟨servable_of (by decide +kernel), ⟨rfl, rfl⟩, openTo_of rfl⟩
  · intro t ht
    simp only [List.mem_cons, List.not_mem_nil, or_false] at ht
    rcases ht with rfl | rfl <;> exact migrates_of (by decide +kernel)
/-! ### The grinder -/

/-- A command of the grinder over a text of `n` bytes at 4096: its tokens to 65536, its summary to 131072. -/
def grdBytes (op n : Nat) : Bytes :=
  record 64 (if op = 0xE0 then [(0, 1, op), (4, 4, n), (8, 8, 4096), (16, 8, 65536), (24, 4, 16), (32, 8, 131072)]
    else [(0, 1, op), (40, 8, if op = 0xE1 then 64 else 0)])
/-- It stands at the head; slots and TOKENIZE commands in progress are given. -/
def atGrinder (op n : Nat) (slots : Tab TokSlot) (ops : Tab TokOp) : State :=
  { atEngine grinderEng { bytes := grdBytes op n } live with grd := { slots := slots, ops := ops, nextOp := 5 } }
/-- It may start. -/
theorem grinderTurn_of {s : State} {op n : Nat} (h : headCmd s grinderEng 0 = some { bytes := grdBytes op n } ∧
    cmdOp (grdBytes op n) = op ∧ grinderMayStart s 0 { bytes := grdBytes op n } = true ∧
    (nextTurn s (tabGet {} (getEng s grinderEng).rr 0) (grinderReady s)).map (·.2) = some 0 ∧ grinderOk (grdBytes op n) = true) :
    grinderTurn s 0 op { bytes := grdBytes op n } :=
  ⟨by decide, ⟨h.1, rfl, h.2.1⟩, h.2.2.1, hasTurn_of h.2.2.2.1, h.2.2.2.2⟩

/-- A tokenizer descriptor of 256 tokens, no merge and one class range. -/
def tokBytes : Bytes :=
  record 128 [(0, 1, 1), (4, 4, 256), (12, 4, 1024), (16, 8, 1048576), (24, 8, 65536), (42, 2, 1), (48, 8, 131072), (56, 8, 135168),
    (80, 8, 1)]
/-- A LOAD of it is at the head; the bytes of its merge table are given. -/
def loadWith (table : Bytes) : State :=
  { atGrinder 0xE1 0 [] [] with mem := { bytes := memWrite (memOf [(64, tokBytes)]) 1048576 table } }
/-- The bytes of an empty merge table. -/
@[irreducible] def noMerges : Bytes := List.replicate (16 * 1024) 255
/-- The table is empty. -/
def atLoad : State := loadWith noMerges
/-- What its tables hold. -/
def tok0 : Tokenizer :=
  { desc := 64, bytes := tokSpace tokBytes, merges := [], byteMap := List.replicate 256 0, ranges := [(0, 0, 0)], specials := []
    rules := List.replicate 16 0, defaultClass := 0, invalidClass := 0 }

/-- Memory below the merge table. -/
theorem loadWith_below (t : Bytes) (a n : Nat) (h : a + n ≤ 1048576) :
    memRead (loadWith t).mem.bytes a n = memRead (memOf [(64, tokBytes)]) a n := Laws.memRead_memWrite_apart _ _ _ _ _ (.inl h)

/-- An empty merge table has no entries. -/
theorem mergeEntries_none (n : Nat) : mergeEntries n (List.replicate (16 * n) 255) = [] := by
  unfold mergeEntries
  rw [List.filterMap_eq_nil_iff]
  intro i hi
  rw [List.mem_range] at hi
  have e : fld (List.replicate (16 * n) (255 : Byte)) (16 * i + 8) 4 = 0xFFFFFFFF := by
    unfold fld
    rw [List.drop_replicate, List.take_replicate, Nat.min_eq_left (by omega)]
    rfl
  rw [if_pos e]

/-- An empty merge table, as the bytes of memory. -/
theorem noMerges_entries : mergeEntries 1024 noMerges = [] := by
  unfold noMerges
  exact mergeEntries_none 1024

/-- Its length. -/
theorem noMerges_length : noMerges.length = 16 * 1024 := by
  unfold noMerges
  exact List.length_replicate

/-- Zero bytes spell zero. -/
theorem leNat_zeros : ∀ k : Nat, leNat (List.replicate k (0 : Byte)) = 0
  | 0 => rfl
  | k + 1 => by
    have h : leNat (List.replicate k (0 : Byte)) = 0 := leNat_zeros k
    rw [List.replicate_succ]
    show _ + 256 * leNat (List.replicate k (0 : Byte)) = 0
    rw [h]
    rfl

/-- So does each field of zero bytes. -/
theorem fld_zeros (n o k : Nat) : fld (List.replicate n (0 : Byte)) o k = 0 := by
  unfold fld
  rw [List.drop_replicate, List.take_replicate, leNat_zeros]

/-- The tables of the descriptor keep the rules where the merge table is empty. -/
theorem loadWith_holds (b : Bytes) (hl : b.length = 16 * 1024) (he : mergeEntries 1024 b = []) :
    tablesHold (loadWith b) 64 tokBytes tok0 := by
  have hd : fld tokBytes 12 4 = 1024 ∧ fld tokBytes 16 8 = 1048576 ∧ fld tokBytes 24 8 = 65536 ∧ fld tokBytes 32 8 = 0 ∧
      fld tokBytes 48 8 = 131072 ∧ fld tokBytes 56 8 = 135168 ∧ fld tokBytes 40 2 = 0 ∧ fld tokBytes 42 2 = 1 ∧
      fld tokBytes 8 4 = 0 ∧ fld tokBytes 4 4 = 256 ∧ fld tokBytes 44 1 = 0 ∧ fld tokBytes 45 1 = 0 := by decide +kernel
  have hm : mergeEntries 1024 (memRead (loadWith b).mem.bytes 1048576 (16 * 1024)) = [] := by
    rw [← hl]
    exact (congrArg (mergeEntries 1024) (Laws.memRead_memWrite (memOf [(64, tokBytes)]) 1048576 b)).trans he
  obtain ⟨h1, h2, h3, h4, h5, h6, h7, h8, h9, h10, h11, h12⟩ := hd
  unfold tablesHold
  have hz : memRead (memOf [(64, tokBytes)]) 65536 1024 = List.replicate 1024 0 := by decide +kernel
  simp only [h1, h2, h3, h4, h5, h6, h7, h8, h9, h10, h11, h12, hm, loadWith_below b 65536 1024 (by decide), hz, fld_zeros,
    loadWith_below b 131072 (8 * 1) (by decide), loadWith_below b 135168 16 (by decide)]
  refine ⟨by decide +kernel, by decide +kernel, by decide +kernel, by decide +kernel, by decide +kernel,
    fun j hj => absurd hj (Nat.not_lt_zero _), ?_⟩
  unfold tok0
  rw [Tokenizer.mk.injEq]
  exact ⟨rfl, rfl, rfl, by decide +kernel, rfl, by decide +kernel, by decide +kernel, rfl, rfl⟩

theorem witness_GrinderRuns :
    let text (op n : Nat) := atGrinder op n [(0, { tok := tok0 })] []
    let cmd : QCmd := { bytes := grdBytes 0xE0 4 }
    let item : TokItem := { tokens := [7, 8], bytes := 2 }
    let at0 (o : TokOp) := atGrinder 0xE2 0 [(0, { tok := tok0 })] [(3, o)]
    let op : TokOp := { cmd := cmd, left := [{ item with bytes := 9000 }], res := { tokens := 5 } }
    grinderTurn atLoad 0 0xE1 { bytes := grdBytes 0xE1 0 } ∧ clean atLoad ∧ openTo atLoad (whoOf grinderEng 0) ∧
    (memRead atLoad.mem.bytes 64 128 = tokBytes ∧ tokDescOk tokBytes = true ∧ tabFind atLoad.grd.slots 0 = none ∧
     storeUsed atLoad + tokSpace tokBytes ≤ 25165824 ∧ tablesHold atLoad 64 tokBytes tok0 ∧
     ∀ p ∈ [(16, 16 * fld tokBytes 12 4), (24, 1024), (32, 80 * fld tokBytes 40 2), (48, 8 * fld tokBytes 42 2), (56, 16)],
       fld tokBytes p.1 8 + p.2 ≤ wheelBase) ∧
    (grinderTurn (text 0xE1 0) 0 0xE1 { bytes := grdBytes 0xE1 0 } ∧ (tabFind (text 0xE1 0).grd.slots 0).isSome = true) ∧
    (grinderTurn (text 0xE2 0) 0 0xE2 { bytes := grdBytes 0xE2 0 } ∧ grinderTurn (at0 op) 0 0xE2 { bytes := grdBytes 0xE2 0 }) ∧
    ((text 0xE2 0).pur.reqs = [] ∧ ((text 0xE2 0).engs.map (·.1)).Nodup ∧ ((getEng (text 0xE2 0) grinderEng).ctxs.map (·.1)).Nodup ∧
     grdSlot op.cmd.bytes = grdSlot (grdBytes 0xE2 0) ∧ op.stop = none ∧ op.left ≠ []) ∧
    (grinderTurn (atGrinder 0xE0 4 [] []) 0 0xE0 cmd ∧ grinderTurn (text 0xE0 4) 0 0xE0 cmd ∧
     grinderTurn (text 0xE0 16777217) 0 0xE0 { bytes := grdBytes 0xE0 16777217 } ∧ tok0.specials = []) ∧
    (4 ≤ 16777216 ∧ 4096 + 4 ≤ wheelBase ∧ 65536 + 4 * 16 ≤ wheelBase ∧ 131072 + 32 ≤ wheelBase ∧ clean (text 0xE0 4)) ∧
    openTo (text 0xE0 4) (whoOf grinderEng 0) ∧
    (clean (at0 op) ∧ openTo (at0 op) (whoOf grinderEng 0) ∧ op.res.tokens ≤ fld cmd.bytes 24 4 ∧ Status.abortedDisabled.halts = false ∧
     hasTurn (at0 op) grinderEng 0 0 (grinderReady (at0 op)) ∧ op.piece + 1 < (TokItem.pieces { item with bytes := 9000 }) ∧
     item.pieces ≤ 0 + 1 ∧ 5 + item.tokens.length ≤ fld cmd.bytes 24 4 ∧ fld cmd.bytes 24 4 < 15 + item.tokens.length) := by
  refine ⟨grinderTurn_of (by decide +kernel), ⟨rfl, rfl⟩, openTo_of rfl, ⟨?_, by decide +kernel, rfl, by decide +kernel, ?_, by decide +kernel⟩,
    ⟨grinderTurn_of (by decide +kernel), rfl⟩, ⟨grinderTurn_of (by decide +kernel), grinderTurn_of (by decide +kernel)⟩, by decide +kernel,
    ⟨grinderTurn_of (by decide +kernel), grinderTurn_of (by decide +kernel), grinderTurn_of (by decide +kernel), rfl⟩,
    by unfold clean; decide +kernel, openTo_of rfl, ⟨rfl, rfl⟩, openTo_of rfl, by decide +kernel, rfl, hasTurn_of (by decide +kernel),
    by decide +kernel⟩
  · exact (loadWith_below noMerges 64 128 (by decide)).trans (by decide +kernel)
  · exact loadWith_holds _ noMerges_length noMerges_entries
/-! ### Requests -/

/-- The record of request 40: one byte of question, tokens to 16384, QVEC at 20480, page table 131072, prompt 262144, ring of
4,096 bytes at 327680, stop record 24576, and its merge to 28672. -/
def reqRec (flags temp : Nat) : Bytes :=
  record 256 [(0, 1, 1), (1, 1, flags), (8, 8, 40), (16, 8, 8192), (24, 8, 12288), (32, 4, 1), (36, 4, 1000), (40, 8, 16384), (48, 4, 64),
    (56, 8, 20480), (72, 8, 131072), (80, 8, 262144), (96, 8, 327680), (104, 1, 12), (108, 4, 16384), (112, 8, 24576), (120, 4, 2),
    (128, 4, temp), (132, 4, 0x3F800000), (144, 8, 7), (168, 8, 28672), (176, 8, 29696)]
/-- A search record at 32768: one shard, lists of 4, its cascade at 40960. -/
def searchRec : Bytes :=
  record 64 [(0, 1, 1), (2, 2, 1), (4, 2, 4), (6, 2, 4), (8, 8, 36864), (24, 8, 40960), (32, 8, 65536), (40, 4, 1024), (44, 2, 4)]
/-- Its shard entry: module `m`, descriptor 64. -/
def shardEntry (m : Nat) : Bytes := record 16 [(0, 2, m), (8, 8, 64)]
/-- A cascade without exits. -/
def cascadeRec : Bytes := record 144 [(0, 1, 1), (2, 1, 1), (4, 2, 4), (6, 2, 4)]
/-- A model record at 45056: layers of one head of 64, one pool, a segment to publish or 0. -/
def modelRec (layers publish : Nat) : Bytes :=
  record 128 [(0, 1, 1), (1, 1, 3), (2, 2, layers), (4, 2, 1), (6, 2, 64), (8, 4, 256), (12, 2, 1), (14, 2, 2),
    (16, 8, pageSize layers 1 3 64), (24, 8, 49152), (32, 8, 53248), (40, 8, publish)]
/-- What these records name in memory, with a model record; the regions rise. -/
def reqMemOf (rec_ : Bytes) (shard pool n : Nat) (model : Bytes) : List (Nat × Bytes) :=
  [(4096, rec_), (8192 + 4, toLe 4 256), (32768, searchRec), (36864, shardEntry shard), (40960, cascadeRec), (45056, model),
   (49152, record 32 [(0, 2, pool), (8, 8, 2 ^ 24), (16, 4, n)]), (53248, record 32 [(2, 2, 1), (4, 2, 1), (18, 2, 1), (20, 2, 1)])]
/-- With a model of one layer. -/
def reqMem (rec_ : Bytes) (shard pool n : Nat) : List (Nat × Bytes) := reqMemOf rec_ shard pool n (modelRec 1 0)
/-- Memory with bytes at addresses that rise. -/
def cellsOf (l : List (Nat × Bytes)) : List Host.Cell :=
  l.flatMap fun p => p.2.zipIdx.filterMap fun b => if b.1 = 0 then none else some (p.1 + b.2, b.1)
/-- Memory set so. -/
def withCells (l : List (Nat × Bytes)) (s : State) : State := { s with mem := { s.mem with bytes := cellsOf l } }
/-- Request 40 with its record; command 3 is a stage of it. -/
def withReq40 (r : Request) (c : PCmd) (mem : List (Nat × Bytes)) (s : State) : State :=
  withCells mem { s with pur := { s.pur with reqs := [(40, r)], cmds := [(3, c)] } }
/-- PARAM of a stage of it. -/
def paramOf (op flags : Nat) : Nat :=
  if op = 0x14 ∨ op = 0x15 then 45056 else if op = 0x11 ∨ op = 0x12 ∨ op = 0x13 ∧ flags = 3 then 32768 else 0
/-- The request before a stage: the stage before it has ended well. -/
def reqAt (op flags : Nat) (g : Stage) : Request :=
  { addr := 4096, record := reqRec flags 0, slot := 0, context := 300,
    stages := [(op - 1, { phase := .ended .ok }), (op, { g with cmd := 3, param := paramOf op flags })] }
/-- A member on which such a stage stands. -/
def atStage (op flags : Nat) (g : Stage) : State :=
  withReq40 (reqAt op flags g) (held (BitVec.ofNat 8 op) (record 64 [])) (reqMem (reqRec flags 0) 67 65 4) live

/-- What a model record at an address says. -/
def modelAt (s : State) (a : Nat) : Model :=
  let b := memRead s.mem.bytes a 128
  let n := fld b 12 2
  let t := memRead s.mem.bytes (fld b 24 8) (32 * n)
  let x := fun i => memRead s.mem.bytes (fld b 32 8 + 16 * i) 16
  { kvfmt := fld b 1 1, layers := fld b 2 2, heads := fld b 4 2, dim := fld b 6 2, vocab := fld b 8 4, pageBytes := fld b 16 8
    batch := if fld b 14 2 = 0 then 65536 else fld b 14 2
    group := (List.range n).map fun i => (fld t (32 * i) 2, fld t (32 * i + 8) 8, fld t (32 * i + 16) 4)
    select := (List.range (fld b 2 2)).map x, publish := fld b 40 8, record := b }
/-- Whether it keeps the rules. -/
def modelFine (s : State) (a tok : Nat) : Bool :=
  let b := memRead s.mem.bytes a 128
  let n := fld b 12 2
  let t := memRead s.mem.bytes (fld b 24 8) (32 * n)
  let x := fun i => memRead s.mem.bytes (fld b 32 8 + 16 * i) 16
  decide ((∀ g ∈ modelRegions s a tok, g.1 + g.2 ≤ wheelBase) ∧ fld b 0 1 = 1 ∧ (fld b 1 1 = 3 ∨ fld b 1 1 = 1) ∧
    (1 ≤ fld b 2 2 ∧ fld b 2 2 ≤ 1024) ∧ (1 ≤ fld b 4 2 ∧ fld b 4 2 ≤ 256) ∧
    (64 ≤ fld b 6 2 ∧ fld b 6 2 ≤ 512 ∧ fld b 6 2 % 64 = 0) ∧ (1 ≤ n ∧ n ≤ 64) ∧ zeroAt b 48 80 = true ∧
    fld b 16 8 = pageSize (fld b 2 2) (fld b 4 2) (fld b 1 1) (fld b 6 2) ∧ fld b 8 4 = leNat (memRead s.mem.bytes (tok + 4) 4) ∧
    (∀ i, i < n → fld t (32 * i) 2 < 4096 ∧ zeroAt t (32 * i + 2) 6 = true ∧ zeroAt t (32 * i + 20) 12 = true) ∧
    ∀ i, i < fld b 2 2 → selectOk (x i) = true)
/-- Then it is what the record says. -/
theorem modelRead_of {s : State} {a tok : Nat} (h : modelFine s a tok = true) : modelRead s a tok (modelAt s a) := by
  obtain ⟨h1, h2, h3, h4, h5, h6, h7, h8, h9, h10, h11, h12⟩ := of_decide_eq_true h
  exact ⟨h1, h2, h3, h4, h5, h6, h7, h8, h9, h10, h11, h12, rfl⟩
/-- The shard entries of a search record keep the rules. -/
theorem shardsRead_of {s : State} {b : Bytes}
    (h : fld b 8 8 + 16 * fld b 2 2 ≤ wheelBase ∧ ∀ i, i < fld b 2 2 →
      fld (memRead s.mem.bytes (fld b 8 8 + 16 * i) 16) 0 2 < 4096 ∧
      zeroAt (memRead s.mem.bytes (fld b 8 8 + 16 * i) 16) 2 6 = true ∧
      fld (memRead s.mem.bytes (fld b 8 8 + 16 * i) 16) 8 8 % 64 = 0) : ∃ l, shardsRead s b l := ⟨_, h.1, h.2, rfl⟩
/-- What such a stage reads passes its checks. -/
def stageFine (s : State) (op flags : Nat) (g : Stage) : Bool :=
  let b := memRead s.mem.bytes (paramOf op flags) 64
  decide (((tabFind (reqAt op flags g).stages op).isSome = true ∧
      stageReady s (reqAt op flags g) op (tabGet {} (reqAt op flags g).stages op) = true ∧
      (tabGet {} (reqAt op flags g).stages op).stop = none) ∧ getReq s 40 = some (reqAt op flags g) ∧ purWorks s = true ∧
    tabGet {} (reqAt op flags g).stages op = { g with cmd := 3, param := paramOf op flags } ∧ g.maps = 0 ∧
    memRead s.mem.bytes 4096 256 = reqRec flags 0 ∧ requestOk (reqRec flags 0) = true ∧ fld (reqRec flags 0) 8 8 = 40 ∧
    bit (recFlags (reqRec flags 0)) 0 = decide (flags = 3) ∧ paramOf op flags + 64 ≤ wheelBase ∧ paramOf op flags % 64 = 0 ∧
    (paramOf op flags = 32768 → searchOk b = true ∧ fld b 8 8 + 16 * fld b 2 2 ≤ wheelBase ∧ ∀ i, i < fld b 2 2 →
      fld (memRead s.mem.bytes (fld b 8 8 + 16 * i) 16) 0 2 < 4096 ∧
      zeroAt (memRead s.mem.bytes (fld b 8 8 + 16 * i) 16) 2 6 = true ∧
      fld (memRead s.mem.bytes (fld b 8 8 + 16 * i) 16) 8 8 % 64 = 0) ∧
    (op = 0x12 → fld b 24 8 % 64 = 0 ∧ fld b 24 8 + 144 ≤ wheelBase ∧
      cascadeOk (memRead s.mem.bytes (fld b 24 8) 144) = true) ∧
    fld (reqRec flags 0) 16 8 = 8192 ∧ (paramOf op flags = 45056 → modelFine s 45056 8192 = true))

/-- The checks of a stage that stands so. -/
theorem stageFits_of {s : State} {op flags : Nat} {g : Stage} (h0 : flags = 0 ∨ flags = 3)
    (h1 : op ∈ [0x10, 0x11, 0x12, 0x13, 0x14, 0x15, 0x16]) (h : stageFine s op flags g = true) :
    getReq s 40 = some (reqAt op flags g) ∧ stageWaits s (reqAt op flags g) op ∧ purWorks s = true ∧
    stageFits s 40 op (reqAt op flags g) (reqRec flags 0) [] := by
  obtain ⟨h2, h3, h4, h5, h6, h7, h8, h9, h10, h11, h12, h13, h14, h15, h16⟩ := of_decide_eq_true h
  unfold stageFits
  simp only [h5, h6, h10, h15]
  refine ⟨h3, h2, h4, h7.symm, by show 4096 + 256 ≤ wheelBase; decide, h8, h9, .inl ⟨rfl, rfl⟩, h12, fun _ => trivial, ?_, ?_, ?_, h14, ?_⟩
  · intro hx
    simp only [List.mem_cons, List.not_mem_nil, or_false] at h1
    unfold paramOf
    rcases h0 with rfl | rfl <;> rcases h1 with rfl | rfl | rfl | rfl | rfl | rfl | rfl <;> first | rfl | simp at hx
  · intro hx
    have hp : paramOf op flags = 32768 := by
      unfold paramOf
      rcases h0 with rfl | rfl <;> rcases hx with rfl | rfl | ⟨rfl, hx⟩ <;> first | rfl | simp at hx
    exact ⟨by omega, h11, (h13 hp).1⟩
  · intro hx
    have hp : paramOf op flags = 32768 := by
      unfold paramOf
      rcases hx with rfl | rfl <;> rfl
    exact shardsRead_of (h13 hp).2
  · intro hx
    have hp : paramOf op flags = 45056 := by
      unfold paramOf
      rcases hx with rfl | rfl <;> rfl
    exact ⟨by omega, hp ▸ ⟨_, modelRead_of (h16 hp)⟩⟩

/-- A running stage with given phase, maps and step; the ring is open or not. -/
def ran (op : Nat) (ph : StagePhase) (l : List (Nat × Nat × Nat × Nat)) (ring : Option RingSt) : State :=
  withReq40 { reqAt op 0 { phase := ph, list := l } with ring := ring, state := 4 } (held (BitVec.ofNat 8 op) (record 64 []))
    (reqMem (reqRec 0 0) 67 65 4) live
/-- A map's report. -/
def reported (st : Status) (s : State) : State :=
  { s with pur := { s.pur with reports := [{ module := ownModule s, ctx := 0, core := 2, mapId := 9, status := st }] } }
/-- A CANCEL of request 40, whose record it names at 4096. -/
def cancelCmd : PCmd := held 0x17 (record 64 [(16, 8, 4096), (40, 8, 40)])

theorem witness_StagesRunInTurn :
    (∀ op ∈ [0x10, 0x11, 0x12, 0x13, 0x14],
      let s := atStage op 3 {}
      getReq s 40 = some (reqAt op 3 {}) ∧ stageWaits s (reqAt op 3 {}) op ∧ purWorks s = true ∧
      stageFits s 40 op (reqAt op 3 {}) (reqRec 3 0) []) ∧
    (∀ op, clean (atStage op 3 {})) ∧ (∀ op, openTo (atStage op 3 {}) (whoPurser (some 0))) ∧
    (let s := withReq40 (reqAt 0x13 0 {}) (held 0x13 (record 64 [])) [] live
     getReq s 40 = some (reqAt 0x13 0 {}) ∧ stageWaits s (reqAt 0x13 0 {}) 0x13 ∧ (reqAt 0x13 0 {}).chain = [] ∧
     requestOk (memRead s.mem.bytes 4096 256) = false ∧ leNat (memRead s.mem.bytes (4096 + 8) 8) ≠ 40) ∧
    (let own := ownModule live
     let g (op : Nat) (ph : StagePhase) := tabGet {} (reqAt op 0 { phase := ph, list := [(own, 0, 2, 9)] }).stages op
     (∀ op ∈ [0x10, 0x13, 0x14], ((StagePhase.worked .ok = (g op (.worked .ok)).phase) ∧
       mapFailure (reported .ok (ran op (.worked .ok) [(own, 0, 2, 9)] none)) (g op (.worked .ok)) = none ∧
       mapsIn (reported .ok (ran op (.worked .ok) [(own, 0, 2, 9)] none)) (g op (.worked .ok)) = true ∧
       mapsIn (ran op (.worked .ok) [(own, 0, 2, 9)] none) (g op (.worked .ok)) = false ∧
       mapFailure (reported .internal (ran op .running [(own, 0, 2, 9)] none)) (g op .running) = some .internal)) ∧
     Status.internal.good = false ∧
     mapFailure (reported .internal (ran 0x15 .running [(own, 0, 2, 9)] (some {}))) (g 0x15 .running) = some .internal) ∧
    (let s (r : Request) := withReq40 r cancelCmd (reqMem (reqRec 0 0) 67 65 4) live
     let r (ph : StagePhase) := { reqAt 0x13 0 { phase := ph } with stages := [(0x13, { phase := ph })] }
     mayStart (s (r .running)) 3 cancelCmd 0x17 ∧ fld cancelCmd.desc 24 8 = 0 ∧ fld cancelCmd.desc 32 8 = 0 ∧
     fld cancelCmd.desc 40 8 = 40 ∧ fld cancelCmd.desc 16 8 = 4096 ∧ clean (s (r .running)) ∧
     leNat (memRead (s (r .running)).mem.bytes (4096 + 8) 8) = 40 ∧
     leNat (memRead (withReq40 (r .held) cancelCmd [] live).mem.bytes (4096 + 8) 8) ≠ 40 ∧
     getReq { s (r .held) with pur := { (s (r .held)).pur with reqs := [] } } 40 = none ∧
     (getMb (s (r .running)) cancelCmd.mb).parts.getLsbD (ctxPart 0) = true ∧
     (∃ p ∈ (r .running).stages, p.2.live = true) ∧ (∀ p ∈ (r .held).stages, p.2.live = false) ∧
     ({ r .running with ring := some {} } : Request).ring.isSome = true) := by
  refine ⟨fun op h => stageFits_of (.inr rfl) ?_ ?_, fun op => ⟨rfl, rfl⟩, fun op => openTo_of rfl, ?_, by decide +kernel, ?_⟩
  · simp only [List.mem_cons, List.not_mem_nil, or_false] at h ⊢; omega
  · revert op; decide +kernel
  · unfold stageWaits; decide +kernel
  · unfold mayStart clean; decide +kernel

/-- DECODE and POUR of a request wait together: commands 3 and 4. -/
def bothWait : Request :=
  { reqAt 0x15 3 {} with stages := [(0x14, { phase := .ended .ok }), (0x15, { cmd := 3, param := 45056 }), (0x16, { cmd := 4 })] }

/-- A member on which they do. -/
def bothState : State :=
  { atStage 0x15 3 {} with pur := { (atStage 0x15 3 {}).pur with
    reqs := [(40, bothWait)], cmds := [(3, held 0x15 (record 64 [])), (4, held 0x16 (record 64 []))] } }

theorem witness_DecodeAndPourStart :
    let s := bothState
    getReq s 40 = some bothWait ∧ purWorks s = true ∧ clean s ∧ openTo s (whoPurser (some 0)) ∧ stageWaits s bothWait 0x15 ∧
    stageWaits s bothWait 0x16 ∧ stageFits s 40 0x16 bothWait (reqRec 3 0) [] ∧ stageFits s 40 0x15 bothWait (reqRec 3 0) [] ∧
    apart (0, 8) 4096 256 = (0 + 8 ≤ 4096 ∨ 4096 + 256 ≤ 0) ∧
    ∀ g ∈ modelRegions s 45056 (fld (reqRec 3 0) 16 8), apart g 4096 256 := by
  have hp : (tabGet {} bothWait.stages 0x15).param = 45056 ∧ fld (reqRec 3 0) 16 8 = 8192 := by decide +kernel
  have hm : modelFine bothState 45056 8192 = true := by decide +kernel
  refine ⟨rfl, rfl, ⟨rfl, rfl⟩, openTo_of rfl, ?_, ?_, ?_, ?_, rfl, ?_⟩
  · unfold stageWaits; decide +kernel
  · unfold stageWaits; decide +kernel
  · exact ⟨by decide +kernel, by decide +kernel, by decide +kernel, by decide +kernel, .inl ⟨by decide +kernel, rfl⟩, by decide +kernel,
      by decide +kernel, by decide +kernel, by decide +kernel, fun h => absurd h (by decide), by decide +kernel, fun h => absurd h (by decide)⟩
  · exact ⟨by decide +kernel, by decide +kernel, by decide +kernel, by decide +kernel, .inl ⟨by decide +kernel, rfl⟩, by decide +kernel,
      by decide +kernel, by decide +kernel, by decide +kernel, fun h => absurd h (by decide), by decide +kernel,
      fun _ => by rw [hp.1, hp.2]; exact ⟨by decide, _, modelRead_of hm⟩⟩
  · unfold apart; decide +kernel
/-! ### The stages of a search -/

/-- A request whose stage runs: at a step, with parts and answers. -/
def runReq (op flags step sub : Nat) : Request :=
  { reqAt op flags { phase := .running, step := step, sub := sub } with stages := [(op,
    { phase := .running, cmd := 3, param := paramOf op flags, step := step, sub := sub })] }
/-- A member with a path to module 67 on which it runs; what its command has been told is given. -/
def runAt (r : Request) (done : Tab Status) (jobs : List Nat) (s : State) : State :=
  withReq40 r { held 0x10 (record 64 []) with phase := .running, done := done, jobs := jobs } (reqMem r.record 67 67 4) s
/-- A stage runs. -/
theorem stageOn_of {s : State} {op : Nat} {r : Request} (h : getReq s 40 = some r ∧ (tabGet {} r.stages op).phase = .running ∧
    (tabGet {} r.stages op).stop = none ∧ mapFailure s (tabGet {} r.stages op) = none ∧ purWorks s = true) : stageOn s 40 op r := h

/-- The one part of a search on module 67: told or not, with a status and records. -/
def withPart (sent : Bool) (data : Bytes) (st : Option Status) (r : Request) : Request :=
  { r with parts := [{ module := 67, desc := 64, sent := sent, data := data, status := st }], qcount := 1 }

theorem witness_SearchStagesRun :
    (let s (d : Tab Status) (step : Nat) := runAt (runReq 0x10 3 step 0) d [] live
     stageOn (s [] 0) 40 0x10 (runReq 0x10 3 0 0) ∧ offerable (s [] 0) ⟨.grinder, 0⟩ 0 ∧
     (∃ c, getCmd (s [] 0) 3 = some c ∧ tabFind c.done 0 = none ∧ c.jobs.contains 0 = false) ∧
     stageOn (s [(0, .ok)] 4098) 40 0x10 (runReq 0x10 3 4098 0) ∧
     (∃ c, getCmd (s [(0, .ok)] 4098) 3 = some c ∧ tabFind c.done 0 = some .ok) ∧
     (tabGet {} (runReq 0x10 3 4098 0).stages 0x10).step = 4096 + 2 ∧ clean (s [(0, .ok)] 4098) ∧
     openTo (s [(0, .ok)] 4098) (whoPurser (some 0)) ∧
     ∃ c, getCmd (s [(0, .internal)] 4098) 3 = some c ∧ tabFind c.done 0 = some .internal) ∧
    (let r := runReq 0x11 3 0 0
     let s := runAt r [] [] (upPath 67 live)
     let b := memRead s.mem.bytes 32768 64
     stageOn s 40 0x11 r ∧ clean s ∧ openTo s (whoPurser (some 0)) ∧ (tabGet {} r.stages 0x11).param + 64 ≤ wheelBase ∧
     memRead s.mem.bytes (tabGet {} r.stages 0x11).param 64 = b ∧ shardsRead s b [(67, 64)] ∧ 1 ≤ fld b 2 2 ∧
     r.asks = [] ∧ 67 ≠ ownModule s ∧ (choosePort s 67).isSome = true ∧
     choosePort (runAt r [] [] live) 67 = none ∧ stageOn (runAt r [] [] live) 40 0x11 r) ∧
    (let r := { withPart false [] none (runReq 0x11 3 1 0) with answers := [(0, { data := [toLe 4 16] })] }
     let s := runAt r [] [] (upPath 67 live)
     let b := memRead s.mem.bytes 32768 64
     stageOn s 40 0x11 r ∧ clean s ∧ (∃ p ∈ r.parts, p.status = none) ∧
     (∀ p ∈ r.parts, p.module ≠ ownModule s ∧ (choosePort s p.module).isSome = true) ∧
     tabFind r.answers 0 = some { data := [toLe 4 16] } ∧ Status.ok.good = true ∧
     fld r.record 56 8 + 4 * leNat ((({ data := [toLe 4 16] } : Answer).data).headD []) ≤ wheelBase ∧
     fld b 16 8 + 192 ≤ wheelBase ∧ fld r.record 40 8 + 4 * r.qcount ≤ wheelBase) ∧
    (∀ flags, flags = 1 ∨ flags = 3 →
     let r (st : Status) := withPart true (toLe 32 5) (some st) (runReq 0x11 flags 1 0)
     let s (d : Tab Status) (st : Status) := runAt (r st) d [] live
     stageOn (s [] .internal) 40 0x11 (r .internal) ∧ partsFail (r .internal).parts = some .internal ∧
     stageOn (s [] .ok) 40 0x11 (r .ok) ∧ partsFail (r .ok).parts = none ∧
     bit (recFlags (r .ok).record) 1 = decide (flags = 3) ∧
     (∃ c, getCmd (s [(mergeJob, .ok)] .ok) 3 = some c ∧ tabFind c.done mergeJob = some .ok) ∧
     offerable (s [] .ok) (ssuEng 0) 0 ∧ [65536, 131072].getD 0 0 + 32 ≤ wheelBase ∧ [65536, 131072].getD 1 0 + 16 ≤ wheelBase) ∧
    (let r := withPart true [] (some .ok) (runReq 0x12 3 0 0)
     let s := runAt r [] [] (upPath 67 live)
     let b := memRead s.mem.bytes 32768 64
     stageOn s 40 0x12 r ∧ clean s ∧ openTo s (whoPurser (some 0)) ∧ (tabGet {} r.stages 0x12).param + 64 ≤ wheelBase ∧
     fld b 24 8 + 144 ≤ wheelBase ∧
     (∀ p ∈ r.parts, p.module ≠ ownModule s ∧ (choosePort s p.module).isSome = true) ∧
     stageOn (runAt (withPart true [] (some .ok) (runReq 0x12 3 1 0)) [] [] live) 40 0x12
       (withPart true [] (some .ok) (runReq 0x12 3 1 0))) := by
  refine ⟨⟨?_, ?_, ⟨_, rfl, by decide +kernel⟩, ?_, ⟨_, rfl, by decide +kernel⟩, rfl, ⟨rfl, rfl⟩, openTo_of rfl, _, rfl, by decide +kernel⟩,
    ⟨?_, ⟨rfl, rfl⟩, openTo_of rfl, by decide +kernel, rfl, ?_, by decide +kernel, rfl, by decide +kernel,
      by decide +kernel, by decide +kernel, ?_⟩, ⟨?_, ⟨rfl, rfl⟩, by decide +kernel⟩, ?_,
    ⟨?_, ⟨rfl, rfl⟩, openTo_of rfl, by decide +kernel, by decide +kernel, by decide +kernel, ?_⟩⟩
  case refine_5 => exact ⟨by decide +kernel, by decide +kernel, by decide +kernel⟩
  case refine_8 =>
    rintro flags (rfl | rfl) <;>
      (refine ⟨?_, by decide +kernel, ?_, by decide +kernel, by decide +kernel, ⟨_, rfl, by decide +kernel⟩, ?_, by decide +kernel⟩ <;>
        (first | unfold stageOn | unfold offerable) <;> decide +kernel)
  all_goals (first | unfold stageOn | unfold offerable)
  all_goals decide +kernel
/-! ### From the lists to the prompt -/

/-- A chain of one segment of one page that covers passage 6. -/
def seg0 : Segment := { ready := true, tokens := 256, pages := toLe 16 1, covered := [6] }
/-- Where PACK stands. -/
def packing (flags step sub : Nat) (p : PackSt) : Request := { runReq 0x13 flags step sub with pack := { p with segs := [seg0] }, cached := 256, qcount := 1 }
/-- The buffers of the request hold what is packed. -/
theorem packFits_of (flags step sub : Nat) (h : flags = 0 ∨ flags = 3) :
    packFits (packing flags step sub { out := 5 }) 1 := by
  have e : chainEntries (packing flags step sub { out := 5 }).pack.segs = [(0, toLe 16 1)] := by
    show chainEntries [seg0] = _
    decide +kernel
  have f : fld (reqRec flags 0) 36 4 = 1000 ∧ fld (reqRec flags 0) 40 8 = 16384 ∧ fld (reqRec flags 0) 72 8 = 131072 ∧
      fld (reqRec flags 0) 80 8 = 262144 := by rcases h with rfl | rfl <;> decide +kernel
  have g : (packing flags step sub { out := 5 }).record = reqRec flags 0 ∧ (packing flags step sub { out := 5 }).addr = 4096 ∧
      (packing flags step sub { out := 5 }).cached = 256 ∧ (packing flags step sub { out := 5 }).pack.out = 5 := ⟨rfl, rfl, rfl, rfl⟩
  unfold packFits apart
  simp only [e, f.1, f.2.1, f.2.2.1, f.2.2.2, g.1, g.2.1, g.2.2.1, g.2.2.2]
  refine ⟨by decide, by decide, by decide, by decide, by decide, by decide, by decide, by decide, by decide, by decide, fun p x hx => ?_⟩
  have := (by simpa [tabFind] using hx : 0 = p ∧ toLe 16 1 = x)
  rw [← this.2]
  rfl

/-- A merged record: passage 6, or 7, of module 67. -/
def merged (pay : Nat) : Bytes := record 128 [(0, 4, 1), (8, 8, pay), (16, 8, 67 * 2 ^ 52)]
/-- A prefix record, read or not, of a state. -/
def prefixRec (refs state : Nat) : Bytes := record 64 [(0, 8, 9), (16, 4, 256), (44, 4, refs), (56, 1, state)]
/-- A PREFIX_RETIRE of a segment at 4096 of a module. -/
def retireCmd (m : Nat) : PCmd := held 0x18 (record 64 [(24, 8, globalAddr m 4096)])

theorem witness_PackAndPrefixes :
    (let r := runReq 0x13 0 0 0
     let s := runAt r [] [] live
     stageOn s 40 0x13 r ∧ bit (recFlags r.record) 0 = false ∧ clean s ∧ openTo s (whoPurser (some 0)) ∧ r.addr + 256 ≤ wheelBase ∧
     (tabGet {} r.stages 0x13).sub = 0 ∧ fld r.record 64 8 = 0 ∧ offerable s ⟨.grinder, 0⟩ 0) ∧
    (let r := packing 0 4098 2 { out := 5 }
     let s := withMem [(4100, toLe 4 1)] (runAt r [(0, .ok)] [] live)
     stageOn s 40 0x13 r ∧ bit (recFlags r.record) 0 = false ∧ clean s ∧ openTo s (whoPurser (some 0)) ∧
     (tabGet {} r.stages 0x13).sub = 2 ∧ (tabGet {} r.stages 0x13).step = 4096 + 2 ∧
     (∃ c, getCmd s 3 = some c ∧ tabFind c.done 0 = some .ok) ∧
     leNat (memRead s.mem.bytes (4096 + 4) 4) = 1 ∧ packFits r 1 ∧
     leNat (memRead (withMem [(4100, toLe 4 745)] s).mem.bytes (4096 + 4) 4) = 745 ∧ fld r.record 36 4 < r.cached + 745) ∧
    (let r (p : PackSt) := packing 3 0 3 { p with todo := [0] }
     let s (p : PackSt) := withCells ([(28672, merged 7)] ++ (reqMem (reqRec 3 0) 67 67 4).drop 2) (runAt (r p) [] [] (upPath 67 live))
     let x := recAt (memRead (s {}).mem.bytes (fld (reqRec 3 0) 168 8) (32 * fld (memRead (s {}).mem.bytes 32768 64) 44 2)) 0
     (∀ p ∈ [{}, { found := some (100, 3) }], stageOn (s p) 40 0x13 (r p)) ∧ bit (recFlags (reqRec 3 0)) 0 = true ∧
     clean (s {}) ∧ openTo (s {}) (whoPurser (some 0)) ∧ (tabGet {} (r {}).stages 0x13).param + 64 ≤ wheelBase ∧
     fld (reqRec 3 0) 168 8 + 32 * fld (memRead (s {}).mem.bytes 32768 64) 44 2 ≤ wheelBase ∧
     (tabGet {} (r {}).stages 0x13).sub = 3 ∧ (r {}).cached + (r {}).qcount ≤ fld (reqRec 3 0) 36 4 ∧
     (r {}).pack.todo = 0 :: [] ∧ x.valid = true ∧ x.pay ∉ ((r {}).pack.segs.map (·.covered)).flatten ∧
     x.pos / 2 ^ 52 = 67 ∧ (r {}).pack.found = none ∧ (r {}).asks = [] ∧ (r {}).answers = [] ∧ 67 ≠ ownModule (s {}) ∧
     (choosePort (s {}) 67).isSome = true ∧
     (∃ k, k < 32 ∧ mayReach (s {}) ⟨.barge, k⟩ 0 = true) ∧ (∀ k, k < 32 → offerable (s {}) ⟨.barge, k⟩ 0)) ∧
    (stageOn (runAt (packing 3 0 3 { out := 5 }) [] [] live) 40 0x13 (packing 3 0 3 { out := 5 }) ∧
     (packing 3 0 3 { out := 5 }).pack.todo = [] ∧ packFits (packing 3 0 3 { out := 5 }) 1) ∧
    (let c := retireCmd 65
     let s (refs st : Nat) := withMem [(4096, prefixRec refs st)] (withCmd c live)
     let g := fld c.desc 24 8
     mayStart (s 1 1) 3 c 0x18 ∧ fld c.desc 16 8 = 0 ∧ fld c.desc 32 8 = 0 ∧ clean (s 1 1) ∧ g ≠ 0 ∧ g % 64 = 0 ∧ bits g 63 60 = 0 ∧
     globalModule g = ownModule (s 1 1) ∧ localPart g = 4096 ∧
     (∀ x ∈ [(1, 1), (0, 2), (0, 0)], prefixOk (memRead (s x.1 x.2).mem.bytes 4096 64) = true) ∧
     fld (prefixRec 1 1) 44 4 ≠ 0 ∧ fld (prefixRec 0 2) 56 1 = 2 ∧ fld (prefixRec 0 0) 56 1 = 0 ∧ fld (prefixRec 0 0) 8 8 = 0 ∧
     prefixOk (memRead (s 0 3).mem.bytes 4096 64) = false) ∧
    (let c := retireCmd 67
     let s := withCmd c (upPath 67 live)
     mayStart s 3 c 0x18 ∧ globalModule (fld c.desc 24 8) ≠ ownModule s ∧
     (choosePort s (globalModule (fld c.desc 24 8))).isSome = true ∧
     choosePort (withCmd c live) (globalModule (fld c.desc 24 8)) = none ∧ mayStart (withCmd c live) 3 c 0x18) := by
  refine ⟨⟨?_, by decide +kernel, ⟨rfl, rfl⟩, openTo_of rfl, by decide +kernel, rfl, by decide +kernel, ?_⟩,
    ⟨?_, by decide +kernel, ⟨rfl, rfl⟩, openTo_of rfl, rfl, rfl, ⟨_, rfl, by decide +kernel⟩, by decide +kernel,
      packFits_of 0 4098 2 (.inl rfl), by decide +kernel⟩,
    ⟨?_, by decide +kernel, ⟨rfl, rfl⟩, openTo_of rfl, by decide +kernel, by decide +kernel, by decide +kernel, by decide +kernel,
      rfl, by decide +kernel, by decide +kernel, by decide +kernel, rfl, rfl, rfl, by decide +kernel, by decide +kernel,
      by decide +kernel, ?_⟩,
    ⟨?_, rfl, packFits_of 3 0 3 (.inr rfl)⟩, ?_, ?_⟩
  all_goals (first | unfold stageOn | unfold offerable | unfold mayStart)
  all_goals (first | decide +kernel | (unfold clean; decide +kernel))
/-! ### PREFILL -/

/-- PREFILL of request 40 stands at a step: its pages and what it was answered are given. -/
def prefilling (step sub : Nat) (pages : List (Nat × Nat)) (answers : Tab Answer) : Request :=
  { runReq 0x14 0 step sub with pages := pages, answers := answers }
/-- A member on which it does, with `n` pages in a pool on module `pool`, layers and a segment to publish. -/
def prefillAt (r : Request) (pool n layers publish : Nat) (s : State) : State :=
  withCells (reqMemOf (reqRec 0 0) 67 pool n (modelRec layers publish))
    (runAt r [] [] s)
/-- What holds of PREFILL there. -/
theorem prefillOn_of {s : State} {r : Request} (h : (getReq s 40 = some r ∧ (tabGet {} r.stages 0x14).phase = .running ∧
    (tabGet {} r.stages 0x14).stop = none ∧ mapFailure s (tabGet {} r.stages 0x14) = none ∧ purWorks s = true) ∧
    (s.mem.badHbm = [] ∧ s.mem.badSram = []) ∧ ((whoPurser (some r.ctx)).ctx.all fun c => tabGet {} (getPart s (ctxPart c)).windows 0 =
      { rd := true, wr := true, base := 0, limit := 0xC000000000 }) = true ∧ fld r.record 16 8 = 8192 ∧
    (tabGet {} r.stages 0x14).param = 45056 ∧ modelFine s 45056 8192 = true) : prefillOn s 40 r (modelAt s 45056) :=
  ⟨h.1, h.2.1, openTo_of h.2.2.1, by rw [h.2.2.2.1, h.2.2.2.2.1]; exact modelRead_of h.2.2.2.2.2⟩
/-- Two pages of module 67. -/
def farPages : List (Nat × Nat) := [(0, globalAddr 67 65536), (1, globalAddr 67 131072)]

/-- The pages it asked for have been granted, or not. -/
def chunkReq (st : Status) : Request := prefilling 0 2 [] [(chunkAsk 0, { status := st, data := farPages.map (toLe 8 ·.2) })]
/-- On a member with a path to module 67. -/
def chunkAt (st : Status) : State := prefillAt (chunkReq st) 67 4 1 0 (upPath 67 live)
/-- The copy of its first page has been made, or not. -/
def copyReq (st : Status) : Request := prefilling 0 3 farPages [(copyAsk, { status := st })]
/-- On a member. -/
def copyAt (st : Status) : State := prefillAt (copyReq st) 67 4 1 0 live

/-- It asks for two pages: of a pool, with a segment to publish. -/
def poolAt (pool n publish : Nat) : State := prefillAt (prefilling 0 0 [] []) pool n 1 publish (upPath 67 live)

theorem witness_PrefillTakesPages :
    (∀ x ∈ [(65, 1, 0), (65, 2, 0), (67, 4, 0), (67, 4, globalAddr 67 4096)],
      prefillOn (poolAt x.1 x.2.1 x.2.2) 40 (prefilling 0 0 [] []) (modelAt (poolAt x.1 x.2.1 x.2.2) 45056) ∧
      (modelAt (poolAt x.1 x.2.1 x.2.2) 45056).publish = x.2.2 ∧
      (modelAt (poolAt x.1 x.2.1 x.2.2) 45056).group = [(x.1, 2 ^ 24, x.2.1)]) ∧
    ((tabGet {} (prefilling 0 0 [] []).stages 0x14).step = 0 ∧ (tabGet {} (prefilling 0 0 [] []).stages 0x14).sub = 0 ∧
     (prefilling 0 0 [] []).asks = [] ∧ (prefilling 0 0 [] []).cached % 256 = 0 ∧
     ceilDiv (prefilling 0 0 [] []).context 256 - (prefilling 0 0 [] []).cached / 256 = 2 ∧
     (∀ n ∈ [1, 2], 2 ^ 24 + n * (modelAt (poolAt 65 n 0) 45056).pageBytes ≤ 2 ^ 48 ∧
       (freeInPool (poolAt 65 n 0) (2 ^ 24) n (modelAt (poolAt 65 n 0) 45056).pageBytes).length = n)) ∧
    (65 = ownModule (poolAt 65 1 0) ∧ 67 ≠ ownModule (poolAt 67 4 0) ∧ (choosePort (poolAt 67 4 0) 67).isSome = true ∧
     globalModule (globalAddr 67 4096) = 67 ∧ globalAddr 67 4096 ≠ 0) ∧
    (∀ st ∈ [Status.ok, .mapOverflow], prefillOn (chunkAt st) 40 (chunkReq st) (modelAt (chunkAt st) 45056)) ∧
    (∀ st ∈ [Status.ok, .mapOverflow], (tabGet {} (chunkReq st).stages 0x14).sub = 2 ∧
      chunkMembers (modelAt (chunkAt st) 45056) 2 = [0] ∧ allAnswered (chunkAt st) 40 [chunkAsk 0] = some st) ∧
    (∀ st ∈ [Status.ok, .internal], prefillOn (copyAt st) 40 (copyReq st) (modelAt (copyAt st) 45056)) ∧
    (∀ st ∈ [Status.ok, .internal], (tabGet {} (copyReq st).stages 0x14).sub = 3 ∧
      tabFind (copyReq st).answers copyAsk = some { status := st }) :=
  ⟨fun x h => ⟨prefillOn_of (by revert x; decide +kernel), by revert x; decide +kernel⟩, by decide +kernel, by decide +kernel,
    fun st h => prefillOn_of (by revert st; decide +kernel), by decide +kernel,
    fun st h => prefillOn_of (by revert st; decide +kernel), by decide +kernel⟩

/-- A layer under way: how far, and the status that came back. -/
def layerReq (c : Nat × Status) : Request :=
  prefilling 1 c.1 farPages (if c.1 = 0 then [] else [(if c.1 = 1 then kvAsk 0 else attendAsk 0, { status := c.2 })])
/-- On a member with a path to module 67, of a model of `n` layers. -/
def layerAt (n : Nat) (c : Nat × Status) : State := prefillAt (layerReq c) 67 4 n 0 (upPath 67 live)

theorem witness_PrefillLayers :
    ∀ n ∈ [1, 2], ∀ c ∈ [(0, Status.ok), (1, .ok), (1, .internal), (2, .ok), (2, .internal)],
     prefillOn (layerAt n c) 40 (layerReq c) (modelAt (layerAt n c) 45056) ∧
     (tabGet {} (layerReq c).stages 0x14).step = 1 ∧ (modelAt (layerAt n c) 45056).layers = n ∧
     (tabGet {} (layerReq c).stages 0x14).sub = c.1 ∧ fld (layerReq c).record 72 8 + 65536 ≤ wheelBase ∧
     (layerReq c).context ≤ 1048576 ∧ pageModules (layerReq c).pages = [67] ∧ 67 ≠ ownModule (layerAt n c) ∧
     (choosePort (layerAt n c) 67).isSome = true ∧ (layerReq c).asks = [] ∧
     (c.1 = 1 → allAnswered (layerAt n c) 40 [kvAsk 0] = some c.2) ∧ (c.1 = 2 → allAnswered (layerAt n c) 40 [attendAsk 0] = some c.2) ∧
     (layerReq c).segment = none ∧ (layerReq c).addr + 256 ≤ wheelBase ∧
     (fld (layerReq c).record 72 8 + 65536 ≤ (layerReq c).addr ∨ (layerReq c).addr + 256 ≤ fld (layerReq c).record 72 8) ∧
     (∀ p ∈ (layerReq c).pages, p.1 < 4096) ∧ ((layerReq c).pages.map (·.1)).Nodup := fun n hn c hc =>
  ⟨prefillOn_of (by revert c n; decide +kernel), by revert c n; decide +kernel⟩
/-! ### Decoding -/

/-- Request 40 decodes: step 1 of DECODE, its ring open, at a place in the step. -/
def decoding (fwd : ForwardSt) (answers : Tab Answer) : Request :=
  { runReq 0x15 0 1 0 with model := 45056, state := 4, ring := some {}, fwd := fwd, answers := answers }
/-- A member with a path to module 67 on which it does; those chosen, and the choice under way. -/
def decodeAt (r : Request) (chosen : List Nat) : State :=
  let s := prefillAt r 67 4 1 0 (upPath 67 live)
  { s with
    pur := { s.pur with models := [(45056, { chosen := chosen, vocab := 256 })], cmds := [(7, { held 0 [] with done := [(0, .ok)], buf := 2 ^ 25 })] }
    mem := { bytes := memWrite s.mem.bytes (131072 + 16) (toLe 8 (globalAddr 67 65536) ++ toLe 2 44 ++ toLe 2 1) } }
/-- A step of one request whose token has been chosen. -/
theorem forward_of {r : Request} (h : tabFind (decodeAt r [40]).pur.models 45056 = some { chosen := [40], vocab := 256 } ∧
    purWorks (decodeAt r [40]) = true ∧ getReq (decodeAt r [40]) 40 = some r ∧ r.sampler = none ∧ r.events = [] ∧ r.ctx = 0 ∧
    r.model = 45056 ∧ fld r.record 16 8 = 8192 ∧ modelFine (decodeAt r [40]) 45056 8192 = true ∧
    fld r.record 72 8 + 65536 ≤ wheelBase ∧ r.context < 1048576) :
    let s := decodeAt r [40]
    (∃ m, tabFind s.pur.models 45056 = some m ∧ m.chosen = [40]) ∧ purWorks s = true ∧ clean s ∧ getReq s 40 = some r ∧
    r.sampler = none ∧ (∀ e ∈ r.events, ∀ tok, e ≠ .token tok) ∧ openTo s (whoPurser (some r.ctx)) ∧
    modelRead s r.model (fld r.record 16 8) (modelAt s 45056) ∧ fld r.record 72 8 + 65536 ≤ wheelBase ∧ r.context < 1048576 := by
  obtain ⟨h1, h2, h3, h4, h5, h6, h7, h8, h9, h10, h11⟩ := h
  refine ⟨⟨_, h1, rfl⟩, h2, ⟨rfl, rfl⟩, h3, h4, (by rw [h5]; exact fun _ h => nomatch h), ?_, ?_, h10, h11⟩
  · rw [h6]; exact openTo_of rfl
  · rw [h7, h8]; exact modelRead_of h9
/-- A request that has not started to decode. -/
def beginsDecode (ring : Option RingSt) : Request := { runReq 0x15 0 0 0 with ring := ring }
/-- Stop records: none, and one with a string of length 0. -/
def pourAt (b : Bytes) : State := withMem [(24576, b)] (runAt (runReq 0x16 0 0 0) [] [] live)

theorem witness_DecodeSteps :
    (let r := runReq 0x16 0 0 0
     (∀ b ∈ [[], [1]], stageOn (pourAt b) 40 0x16 r ∧ (pourAt b).mem.badHbm = [] ∧ (pourAt b).mem.badSram = []) ∧ r.ring = none ∧
     (∀ b, openTo (pourAt b) (whoPurser (some 0))) ∧
     fld r.record 112 8 + 1056 ≤ wheelBase ∧ fld r.record 96 8 + 2 ^ fld r.record 104 1 + 64 + fld r.record 108 4 ≤ wheelBase ∧
     (∀ b ∈ [[], [1]], stopRecordOk (memRead (pourAt b).mem.bytes (fld r.record 112 8) 1056) = decide (b = []))) ∧
    (∀ x ∈ [none, some {}], stageOn (runAt (beginsDecode x) [] [] live) 40 0x15 (beginsDecode x) ∧
      (tabGet {} (beginsDecode x).stages 0x15).step = 0 ∧ (beginsDecode x).ring = x) ∧
    (let r := decoding {} []
     let s := decodeAt r []
     let y := modelAt s 45056
     (∃ m, tabFind s.pur.models 45056 = some m ∧ m.chosen = []) ∧ purWorks s = true ∧ clean s ∧
     s.pur.reqs.Pairwise (fun a b => a.1 < b.1) ∧ (s.pur.reqs.filter fun p => eligible s 45056 p.2).head? = some (40, r) ∧
     modelRead s 45056 (fld r.record 16 8) y ∧ 2 ^ 25 + y.batch * sampleSpace y.vocab ≤ wheelBase ∧
     (∀ q ∈ s.pur.reqs, q.2.ctx = 0) ∧ openTo s (whoPurser (some 0))) ∧
    (let r := { decoding {} [] with sampler := some 7 }
     let s := decodeAt r [40]
     (∃ m, tabFind s.pur.models 45056 = some m ∧ m.chosen = [40] ∧ choiceEnd (2 ^ 25) m.vocab (sampleK r) ≤ wheelBase) ∧
     purWorks s = true ∧ clean s ∧ getReq s 40 = some r ∧
     (∃ c, getCmd s 7 = some c ∧ c.jobs = [] ∧ tabFind c.done 0 = some .ok ∧ c.buf = 2 ^ 25) ∧ openTo s (whoPurser (some r.ctx))) ∧
    (live.hub.time.toNat < live.pur.lastRefill + live.pur.period.toNat * 1000000 ∧ Agent.hart 0 false ≠ .mgmt ∧
     live.pur.lastRefill + max 1 (min 86400000 ((5 : W64).toNat % 2 ^ 32)) * 1000000 ≤ live.hub.time.toNat ∧
     live.hub.time.toNat < live.pur.lastRefill + max 1 (min 86400000 ((6 : W64).toNat % 2 ^ 32)) * 1000000) ∧
    (let s : State := { live with pur := { live.pur with period := 5, classes := [(0, { refill := 9 })] } }
     s.pur.lastRefill + s.pur.period.toNat * 1000000 ≤ s.hub.time.toNat ∧ tabFind s.pur.classes 0 = some { refill := 9 }) := by
  refine ⟨⟨?_, rfl, fun b => openTo_of rfl, by decide +kernel, by decide +kernel, by decide +kernel⟩, ?_,
    ⟨⟨_, rfl, rfl⟩, by decide +kernel, ⟨rfl, rfl⟩, by decide +kernel, by decide +kernel, ?_, by decide +kernel, by decide +kernel,
      openTo_of rfl⟩,
    ⟨⟨_, rfl, rfl, by decide +kernel⟩, by decide +kernel, ⟨rfl, rfl⟩, by decide +kernel, ⟨_, rfl, by decide +kernel⟩, openTo_of rfl⟩,
    by decide +kernel, by decide +kernel⟩
  · unfold stageOn; decide +kernel
  · unfold stageOn; decide +kernel
  · exact modelRead_of (by decide +kernel)

/-- The clauses of a step's second half: how far the request is and what it was answered. -/
def forwardReq (i : Nat) : Request :=
  let far := globalAddr 67 65536
  [{ decoding {} [] with terminal := true }, decoding {} [], decoding { sub := 1 } [], decoding { sub := 4, page := far } [],
   decoding { sub := 4, page := far } [(stepKvAsk, {})], decoding { sub := 5, page := far } [(stepAttendAsk, {})],
   decoding { sub := 4, page := far, layer := 1 } []].getD i {}

theorem witness_TokensGoForward :
    (∀ i, i < 7 →
      let r := forwardReq i
      let s := decodeAt r [40]
      (∃ m, tabFind s.pur.models 45056 = some m ∧ m.chosen = [40]) ∧ purWorks s = true ∧ clean s ∧ getReq s 40 = some r ∧
      r.sampler = none ∧ (∀ e ∈ r.events, ∀ tok, e ≠ .token tok) ∧ openTo s (whoPurser (some r.ctx)) ∧
      modelRead s r.model (fld r.record 16 8) (modelAt s 45056) ∧ fld r.record 72 8 + 65536 ≤ wheelBase ∧ r.context < 1048576) ∧
    (let s := decodeAt (forwardReq 1) [40]
     let y := modelAt s 45056
     let e := memRead s.mem.bytes (fld (forwardReq 1).record 72 8 + 16 * ((forwardReq 1).context / 256)) 16
     bit (fld e 10 2) 0 = true ∧ bit (fld e 10 2) 1 = false ∧ (y.group.getD (0 % y.group.length) (0, 0, 0)).1 = 67 ∧ y.layers = 1 ∧
     67 ≠ ownModule s ∧ (choosePort s 67).isSome = true ∧ globalModule (globalAddr 67 65536) = 67) ∧
    ((forwardReq 0).terminal = true ∧ (forwardReq 1).terminal = false ∧ (forwardReq 2).fwd.sub = 1 ∧ (forwardReq 3).fwd.layer < 1 ∧
     tabFind (forwardReq 4).answers stepKvAsk = some {} ∧ tabFind (forwardReq 5).answers stepAttendAsk = some {} ∧
     ({} : Answer).status.good = true ∧ (forwardReq 6).fwd.layer = 1 ∧ (forwardReq 6).addr + 256 ≤ wheelBase ∧
     ∀ i, i < 7 → (forwardReq i).asks = []) :=
  ⟨fun i h => forward_of (by revert i; decide +kernel), by decide +kernel, by decide +kernel⟩
/-! ### The sequencer -/

/-- Request 40 with an open ring: what has reached its sequencer, and the records that wait. -/
def pouring (ev : List SeqEvent) (terminal : Bool) (x : RingSt) : Request :=
  { runReq 0x15 0 1 0 with ring := some x, events := ev, terminal := terminal }
/-- A record of `n` bytes that waits. -/
def waiting (n head : Nat) : RingSt := { head := head, wait := [{ token := 3, bytes := List.replicate n 65 }] }

theorem witness_SequencersPour :
    (∀ e ∈ [SeqEvent.token 3, .cancel 3, .error .internal], ∀ b,
      let r := pouring [e] b {}
      let s := runAt r [] [] live
      getReq s 40 = some r ∧ r.ring = some {} ∧ r.events = e :: [] ∧ r.terminal = b ∧ (getCmd s 3).isSome = true) ∧
    (let r := pouring [.token 3] false {}
     let s := runAt r [] [] live
     clean s ∧ openTo s (whoPurser (some 0)) ∧ tokenInReach s r 3 ∧ r.addr + 256 ≤ wheelBase ∧
     tokenSpells s r 3 = some [] ∧ tokenSpells s r 256 = none) ∧
    (∀ n ∈ [16, 17],
      let r := pouring [] false (waiting n 127)
      let s := runAt r [] [] live
      getReq s 40 = some r ∧ r.ring = some (waiting n 127) ∧
      (waiting n 127).wait = { token := 3, bytes := List.replicate n 65 } :: [] ∧ 5 ≤ fld r.record 104 1 ∧
      ringFits r (waiting n 127) (if n ≤ 16 then 0 else n) = true ∧ s.mem.badHbm = [] ∧ s.mem.badSram = [] ∧
      fld r.record 96 8 + 2 ^ fld r.record 104 1 + 64 + fld r.record 108 4 ≤ wheelBase ∧ (waiting n 127).head + 1 < 2 ^ 64) ∧
    (let r := pouring [] false (waiting 16 128)
     let s := runAt r [] [] live
     getReq s 40 = some r ∧ (waiting 16 128).tail + 2 ^ fld r.record 104 1 / 32 ≤ (waiting 16 128).head ∧
     leNat (memRead s.mem.bytes (fld r.record 96 8 + 2 ^ fld r.record 104 1 + 8) 8) + 2 ^ fld r.record 104 1 / 32 ≤
       (waiting 16 128).head) := by
  refine ⟨by decide +kernel, ⟨⟨rfl, rfl⟩, openTo_of rfl, ?_, by decide +kernel⟩, by decide +kernel, by decide +kernel⟩
  unfold tokenInReach; decide +kernel

/-! ### Ports -/

/-- Port 3 set, and the path table names module 67 there. -/
def withPort (x : PortSt) (s : State) : State :=
  { s with fry := { s.fry with ports := [(3, x)], entries := [(67, { valid := true, ports := 8 })] } }
/-- Bytes of a ferry frame of module 67, as it would send them. -/
def frameBytes : Bytes := ferryWire live 65 0x020000000065 { typ := .control, src := 67, dst := 65 }

theorem witness_PortsCarryPaths :
    (Agent.hart 0 false ≠ .mgmt ∧ 3 < 16 ∧
     (let s := withPort { enable := true } live
      (getPort s 3).enable = true ∧ (2 ^ 61 : W64).toNat / 2 ^ 61 % 4 ≠ (getPort s 3).mode.toNat ∧ (getPort s 3).mode = 0 ∧
      (0 : W64).toNat / 2 ^ 61 % 4 = 0) ∧
     (let s := withPort { link := true } live
      (getPort s 3).enable = false ∧ (getPort s 3).link = true ∧ entryNames s 3 67 = true ∧ 67 ≠ ownModule s ∧
      (getPath s 3 67).state = .idle)) ∧
    (let s := withPort { enable := true } live
     (getPort s 3).enable = true ∧ (getPort s 3).link = false ∧ (getPort s 3).mode = 0 ∧ entryNames s 3 67 = true) ∧
    (let s := withPort { enable := true, link := true } live
     (getPort s 3).link = true ∧ portCarries s 3 = true ∧ ferryParse s [] = none ∧ (ferryParse s frameBytes).isSome = true ∧
     ferryLive s 3 = true ∧ s.fry.berthValid = true ∧ (2 ^ 63 + 8 : W64).getLsbD 63 = true ∧ (2 ^ 63 + 8 : W64).getLsbD 3 = true ∧
     67 ≠ ownModule s ∧ (getPath s 3 67).state = .idle) := by decide +kernel

/-! ### Client ports -/

/-- A client port whose rings hold a posted buffer each: 2,048 bytes at 65536 to receive into, `n` at 65536 to send. -/
def clientPort : PortSt :=
  { enable := true, mode := 1, link := true, rxLog2 := 6, rxBase := 8192, rxTail := 1, txLog2 := 6, txBase := 16384, txTail := 1 }
/-- A member with it. -/
def clientAt (x : PortSt) (n : Nat) : State :=
  withMem [(8192, record 32 [(0, 8, 65536), (8, 2, 2048)]), (16384, record 32 [(0, 8, 65536), (8, 2, n)])] (withPort x live)
/-- A frame of 60 bytes to an address with its FCS; its EtherType given. -/
def etherFrame (mac0 ty : Nat) : Bytes :=
  let b := record 60 [(0, 1, mac0), (12, 1, ty / 256), (13, 1, ty % 256), (15, 1, 1)]
  b ++ fcs b

theorem witness_ClientRings :
    (let s := clientAt { clientPort with rxHead := 3, txHead := 3, rxTail := 5, txTail := 5 } 60
     let x := getPort s 3
     Agent.hart 0 false ≠ .mgmt ∧ x.rxTail ≤ 67 ∧ (67 : W64).toNat ≤ x.rxHead.toNat + 2 ^ x.rxLog2.toNat ∧ (4 : W64) < x.rxTail ∧
     x.rxHead.toNat + 2 ^ x.rxLog2.toNat < (68 : W64).toNat ∧ x.txTail ≤ 67 ∧ (67 : W64).toNat ≤ x.txHead.toNat + 2 ^ x.txLog2.toNat ∧
     (4 : W64) < x.txTail ∧ x.txHead.toNat + 2 ^ x.txLog2.toNat < (68 : W64).toNat ∧ s.evt.buf < 256) ∧
    (let s := clientAt clientPort 60
     let x := getPort s 3
     let b (m ty : Nat) := (etherFrame m ty).take 60
     let d := x.rxBase.toNat + x.rxHead.toNat % 2 ^ x.rxLog2.toNat * 32
     clientLive s 3 = true ∧ x.cal = false ∧ checkFcs [] = none ∧ checkFcs (etherFrame 0 0x800) = some (b 0 0x800) ∧
     (etherFrame 0 0x800).length = 64 ∧ 64 ≤ x.maxFrame.toNat ∧ isPause (b 0 0x800) = false ∧
     checkFcs (etherFrame 0 0x8808) = some (b 0 0x8808) ∧ isPause (b 0 0x8808) = true ∧
     checkFcs (etherFrame 2 0x800) = some (b 2 0x800) ∧ takesMac x (macOf (b 2 0x800)) = false ∧ isPause (b 2 0x800) = false ∧
     takesMac x (macOf (b 0 0x800)) = true ∧ (getPort (clientAt { clientPort with rxTail := 0 } 60) 3).rxHead =
       (getPort (clientAt { clientPort with rxTail := 0 } 60) 3).rxTail ∧ x.rxHead ≠ x.rxTail ∧ d + 32 ≤ cacheBase ∧
     (b 0 0x800).length ≤ fld (memRead s.mem.bytes d 32) 8 2 ∧ fld (memRead s.mem.bytes d 32) 0 8 + 60 ≤ cacheBase ∧
     d + 32 ≤ fld (memRead s.mem.bytes d 32) 0 8) ∧
    (∀ n ∈ [59, 60], let s := clientAt clientPort n
     let x := getPort s 3
     let d := x.txBase.toNat + x.txHead.toNat % 2 ^ x.txLog2.toNat * 32
     clientLive s 3 = true ∧ x.cal = false ∧ x.txHead < x.txTail ∧ d + 32 ≤ cacheBase ∧ fld (memRead s.mem.bytes d 32) 8 2 = n ∧
     fld (memRead s.mem.bytes d 32) 0 8 + n ≤ cacheBase) ∧
    clean (clientAt clientPort 60) ∧ clean (clientAt clientPort 59) ∧
    (cacheBase - 1 + 1 ≤ cacheBase ∧ cacheBase < cacheBase - 1 + 2 ∧ cacheBase - 1 < 0xC000000000 ∧ pursing live = true ∧ clean live) := by
  unfold clean; decide +kernel

/-! ### Paths -/

/-- Port 15 set, of a module that has a berth or not. -/
def port15 (x : PortSt) (berth : Bool) (s : State) : State := { s with fry := { s.fry with ports := [(15, x)], berthValid := berth } }
/-- A path to module `x` on port 0 in a state. -/
def withPath (x : Nat) (y : PathSt) (s : State) : State :=
  { s with fry := { s.fry with
    ports := [(0, { enable := true, link := true })], entries := [(x, { valid := true, ports := 1 })], paths := [(pathKey 0 x, y)] } }
/-- A SYNC, SYNC_ACK or HELLO. -/
def joinFrame (typ : FType) (src dst : Nat) : FFrame := 
  { typ := typ, src := src, dst := dst, gen := 5, mac := 0x020000000043, grants := some [7, 8] }

theorem witness_PathsComeUp :
    (∀ cal ∈ [false, true], let s := port15 { enable := true, link := true, cal := cal } false live
     isSteward s = false ∧ ferryLive s 15 = true ∧ s.fry.berthValid = false ∧ (getPort s 15).cal = cal) ∧
    (let s := port15 { enable := true, link := true } true live
     isSteward s = false ∧ ferryLive s 15 = true ∧ s.fry.berthValid = true ∧ pathUp s 15 (stewardOf s) = false) ∧
    (isSteward (port15 {} false steward) = true ∧ (port15 {} false steward).fry.berthValid = false ∧
     isSteward live = false ∧ steward.fry.berthValid = true ∧ Agent.hart 0 false ≠ .mgmt) ∧
    (let s := withPath 67 {} steward
     portCarries s 0 = true ∧ (joinFrame .hello 64 0).src % 64 = 0 ∧ (joinFrame .hello 3 0).src % 64 = 3 ∧ isSteward s = true ∧
     s.fry.berthValid = true ∧ (getPath s 0 (stewardOf s + 3)).state = .idle ∧ s.evt.buf < 256 ∧
     isSteward (withPath 67 {} live) = false ∧ portCarries (withPath 67 {} live) 0 = true) ∧
    (∀ g,
      let s := withPath 67 { state := .syncing, proposal := g } live
      let f := joinFrame .sync 67 65
      portCarries s 0 = true ∧ s.fry.berthValid = true ∧ f.dst = ownModule s ∧ f.src / 64 = s.fry.berth.toNat ∧
      (getPath s 0 f.src).state = .syncing ∧ (getPath s 0 f.src).proposal = g) ∧
    (((5 : BitVec 16) - 5).toNat = 0 ∧ 32767 < ((4 : BitVec 16) - 5).toNat ∧ ((6 : BitVec 16) - 5).toNat = 1 ∧
     ((32772 : BitVec 16) - 5).toNat = 32767 ∧ 32767 < ((32773 : BitVec 16) - 5).toNat) ∧
    (let s := withPath 67 {} live
     let f := joinFrame .sync 130 65
     f.dst = ownModule s ∧ f.src / 64 ≠ s.fry.berth.toNat ∧ (getEntry s f.src).valid = false ∧ s.evt.buf < 256) ∧
    (let s := port15 { enable := true, link := true } false live
     let f := joinFrame .sync 128 129
     portCarries s 15 = true ∧ isSteward s = false ∧ s.fry.berthValid = false ∧ f.src % 64 = 0 ∧ f.src < 4096 ∧
     f.dst / 64 = f.src / 64 ∧ f.dst % 64 = s.fry.slot.toNat ∧ (getPath s 15 f.src).state = .idle ∧ (getPath s 15 f.src).proposal = none) ∧
    (∀ g,
      let s := withPath 67 { state := .syncing, proposal := g } live
      let f := joinFrame .syncAck 67 65
      portCarries s 0 = true ∧ f.dst = ownModule s ∧ (getPath s 0 f.src).state = .syncing ∧ (getPath s 0 f.src).proposal = g) :=
  ⟨by decide +kernel, by decide +kernel, by decide +kernel, by decide +kernel, fun _ => ⟨rfl, rfl, rfl, rfl, rfl, rfl⟩, by decide +kernel,
    by decide +kernel, by decide +kernel, fun _ => ⟨rfl, rfl, rfl, rfl⟩⟩

/-- The path to module 67 is up, with frames sent and waiting. -/
def pathOf (y : PathSt) : State := withPath 67 { y with state := .up, gen := 5, exp := 9, vcs := [(0, { grant := 2, given := 64, most := 64 })] } live
/-- A frame of a type from module 67. -/
def from67 (typ : FType) (f : FFrame) : FFrame := { f with typ := typ, src := 67, dst := 65, gen := 5 }

theorem witness_PathsDeliverInOrder :
    (let s := pathOf {}
     portCarries s 0 = true ∧ 66 ≠ ownModule s ∧ 65 = ownModule s ∧ (getPath s 0 67).state = .up ∧ (getPath s 0 67).gen = 5 ∧
     (4 : BitVec 16) ≠ (getPath s 0 67).gen ∧ cellsFree s 0 (from67 .data {}) = true ∧
     cellsFree s 0 (from67 .data { payload := List.replicate 1000 0, vc := 8 }) = false ∧
     ((10 : BitVec 24) - 9).toNat < 2 ^ 23 ∧ 2 ^ 23 ≤ ((8 : BitVec 24) - 9).toNat ∧ ((2 ^ 23 + 8 : BitVec 24) - 9).toNat < 2 ^ 23 ∧
     2 ^ 23 ≤ ((2 ^ 23 + 9 : BitVec 24) - 9).toNat ∧ (getPath s 0 67).nacked = none) ∧
    (dataRows 0 (from67 .data {}) 0 false none).map (·.1) = [1, 2, 3, 4, 5, 6, 7, 8, 9, 10, 11, 12, 13] ∧
    (∀ n ∈ [14, 15], let s := pathOf { unsentAcks := n }
     arrives s 0 (from67 .data { op := 0x0A, seq := 9 }) 0x0A ∧
     opOf (received s 0 (from67 .data { op := 0x0A, seq := 9 })) 0 (from67 .data { op := 0x0A, seq := 9 }) = none ∧
     (getPath s 0 67).unsentAcks = n) ∧
    (let s := pathOf { unacked := [{ seq := 4 }, { seq := 5 }], resends := 7 }
     portCarries s 0 = true ∧ pathUp s 0 67 = true ∧ (from67 .nack { ack := some 4 }).dst = ownModule s ∧
     (from67 .nack { ack := some 4 }).gen = (getPath s 0 67).gen ∧ (∀ g ∈ (getPath s 0 67).unacked, ackedBy 4 g = false) ∧
     (getPath s 0 67).unacked.filter (fun g => !ackedBy 4 g) ≠ [] ∧ (getPath s 0 67).unacked.filter (fun g => !ackedBy 6 g) = [] ∧
     (getPath s 0 67).resends < s.fry.retryMax.toNat ∧
     s.fry.retryMax.toNat ≤ (getPath (pathOf { unacked := [{}], resends := 8 }) 0 67).resends ∧
     (getPath (pathOf { unsentAcks := 1 }) 0 67).unsentAcks ≠ 0) ∧
    (∀ n ∈ [464, 465],
     let f : FFrame := { typ := .data, op := 1, dst := 67, payload := List.replicate n 0 }
     let s := pathOf { sendq := [f] }
     let q := getPath s 0 67
     ferryLive s 0 = true ∧ pathUp s 0 67 = true ∧ (getPort s 0).cal = false ∧ (q.sendq.find? fun f => f.vc = 0) = some f ∧
     f.typ = .data ∧ f.seq = 0 ∧ q.unacked.length + 1 < 2 ^ 23 ∧
     unackedCells q 0 + ((getVc q 0).acked - (getVc q 0).credit).toNat + frameCells f = (if n = 464 then 2 else 3) ∧
     (getVc q 0).grant = 2 ∧ retransmitBytes s 0 + 48 + f.payload.length ≤ 2097152) := by
  refine ⟨by decide +kernel, rfl, by unfold arrives; decide +kernel, by decide +kernel, by decide +kernel⟩
/-! ### Remote operations -/

/-- The frame of an operation that module 67 sends next. -/
def opFrame (op : Nat) (f : FFrame) : FFrame := { from67 .data f with op := op, seq := 9 }
/-- It arrives. -/
theorem arrives_of {s : State} {f : FFrame} {op : Nat} (h : portCarries s 0 = true ∧ pathUp s 0 f.src = true ∧
    f.gen = (getPath s 0 f.src).gen ∧ f.dst = ownModule s ∧ f.seq = (getPath s 0 f.src).exp ∧ cellsFree s 0 f = true)
    (ht : f.typ = .data ∧ f.op = op) : arrives s 0 f op := ⟨ht.1, ht.2, h⟩
/-- Operation 7 is under way toward module 67, and something waits for it. -/
def awaiting (w : Waiter) : State := { pathOf {} with fry := { (pathOf {}).fry with ops := [(7, { port := 0, module := 67, total := 64, waiter := w })] } }
/-- Queue 9 as peers see it: enabled or not, with 8 words granted to context 0 of module 67. -/
def servedQueue (enable : Bool) (deaf : List Nat) : State :=
  { pathOf {} with slip :=
    { queues := [(9, { queue9 with enable := enable })], grants := [(grantKey 9 67 0, { granted := 8 })], deaf := deaf } }
/-- A PUSH of `n` words on it. -/
def pushOf (n : Nat) : FFrame := opFrame 5 { tag := 7, addr := 9, arg := n, payload := List.replicate (32 * n) 1 }
/-- A request that asked module 67 something. -/
def asking : State := { pathOf {} with pur := { (pathOf {}).pur with reqs := [(40, { asks := [(5, 67)] })] } }

theorem witness_RemoteOperations :
    (∀ op, 1 ≤ op → op ≤ 12 → arrives (pathOf {}) 0 (opFrame op { arg := 64, payload := List.replicate 64 1 }) op) ∧
    openTo (pathOf {}) (whoServed 0 (opFrame 1 {})) ∧ clean (pathOf {}) ∧
    (mayAccess (pathOf {}) (whoServed 0 (opFrame 1 {})) wheelBase 64 true = false ∧
     mayAccess (pathOf {}) (whoServed 0 (opFrame 3 {})) wheelBase 64 false = false ∧
     (pathOf {}).fry.writes.contains (pathKey 0 67, 7) = false ∧
     (let s := { pathOf {} with fry := { (pathOf {}).fry with writes := [(pathKey 0 67, 7)] } }
      s.fry.writes.contains (pathKey 0 67, 7) = true) ∧
     4096 + 128 ≤ wheelBase ∧ (64 : Nat) ≤ 0 + (List.replicate 64 (1 : Byte)).length ∧ 0 + (List.replicate 64 (1 : Byte)).length < 128 ∧
     64 + (List.replicate 64 (1 : Byte)).length ≤ 128) ∧
    (let q : QCmd := {}
     let o (w : Waiter) : FerryOp := { port := 0, module := 67, total := 64, waiter := w }
     q.origin = none ∧
     (∀ op ∈ [2, 4], arrives (awaiting (.move 2 0 q 4096)) 0 (opFrame op { tag := 7, arg := 64 }) op ∧
       opOf (received (awaiting (.move 2 0 q 4096)) 0 (opFrame op { tag := 7, arg := 64 })) 0 (opFrame op { tag := 7, arg := 64 }) =
         some (o (.move 2 0 q 4096))) ∧
     clean (awaiting (.move 2 0 q 4096)) ∧ openTo (awaiting (.move 2 0 q 4096)) (whoBarge 2 0 true) ∧
     (∀ x ∈ [(6, 0), (0x0A, Status.internal.code)],
       arrives (awaiting (.push 0 q 9 4)) 0 (opFrame x.1 { tag := 7, arg := x.2 }) x.1 ∧
       opOf (received (awaiting (.push 0 q 9 4)) 0 (opFrame x.1 { tag := 7, arg := x.2 })) 0 (opFrame x.1 { tag := 7, arg := x.2 }) =
         some (o (.push 0 q 9 4)))) ∧
    ((∀ n ∈ [0, 1, 8, 9], arrives (servedQueue true []) 0 (pushOf n) 5) ∧ (servedQueue true [67]).slip.deaf.contains 67 = true ∧
     clean (servedQueue true []) ∧ (pushOf 1).offset = 0 ∧ (pushOf 1).addr % 65536 = 9 ∧
     (servedQueue true []).slip.deaf.contains 67 = false ∧ (getSq (servedQueue false []) 9).enable = false ∧
     remoteResv (servedQueue false []) 9 67 7 = none ∧
     (getSq (servedQueue true []) 9).enable = true ∧ remoteResv (servedQueue true []) 9 67 7 = none ∧
     (getGrant (servedQueue true []) 9 67 0).available = 8 ∧ (pushOf 8).payload.length = 32 * 8 ∧
     8 ≤ (getSq (servedQueue true []) 9).size ∧ openTo (servedQueue true []) (whoServed 0 (pushOf 8)) ∧
     (getSq (servedQueue true []) 9).base.toNat + (getSq (servedQueue true []) 9).size * 48 ≤ wheelBase ∧
     (getSq (servedQueue true []) 9).resv.toNat + 8 < 2 ^ 64 ∧
     (getSq (servedQueue true []) 9).resolved = (getSq (servedQueue true []) 9).resv ∧ (getSq (servedQueue true []) 9).items = []) ∧
    (∀ m ∈ [67, 70],
      let f := opFrame 0x0B { last := true, addr := 3, offset := m, arg := 2, tag := 7 }
      let s (l : Tab GthTable) := { pathOf {} with gth := { (pathOf {}).gth with tables := l } }
      arrives (s []) 0 f 0x0B ∧ f.last = true ∧ f.arg / 256 % 4 = 0 ∧ getTable (s []) (f.arg % 64) = none ∧
      (s []).gth.partials = [] ∧ f.src < 4096 ∧ f.offset % 4096 = m ∧ m ≠ ownModule (s []) ∧
      arrives (s [(2, {})]) 0 f 0x0B ∧ getTable (s [(2, {})]) (f.arg % 64) = some {} ∧ f.payload = []) ∧
    (let f (m : Option PurserMsg) := opFrame 0x0C { msg := m }
     let stopped := { pathOf {} with sec := { (pathOf {}).sec with phase := .soliciting } }
     pursing stopped = false ∧ arrives stopped 0 (f none) 0x0C ∧ pursing (pathOf {}) = true ∧
     (∀ m ∈ [none, some (.mapReport 0 2 9 1), some (.prefixRef 4096 true)], arrives (pathOf {}) 0 (f m) 0x0C) ∧
     (∀ m ∈ [some (.answer 40 5 0 []), some (.searched 40 0 0 0 [])], arrives asking 0 (f m) 0x0C) ∧
     getReq asking 40 = some { asks := [(5, 67)] } ∧ tabFind ({ asks := [(5, 67)] } : Request).asks 5 = some 67 ∧
     4096 + 48 ≤ wheelBase) := by
  refine ⟨fun op h1 h2 => ?_, openTo_of rfl, ⟨rfl, rfl⟩, by decide +kernel, ⟨rfl, ?_, ⟨rfl, rfl⟩, openTo_of rfl, ?_⟩,
    ⟨?_, by decide +kernel, ⟨rfl, rfl⟩, by decide +kernel, by decide +kernel, by decide +kernel, by decide +kernel, by decide +kernel,
      by decide +kernel, by decide +kernel, by decide +kernel, by decide +kernel, by decide +kernel, openTo_of rfl, by decide +kernel,
      by decide +kernel, by decide +kernel, by decide +kernel⟩, ?_, ?_⟩
  · exact arrives_of ⟨rfl, rfl, rfl, rfl, rfl,
      (by decide +kernel : cellsFree (pathOf {}) 0 (opFrame 0 { arg := 64, payload := List.replicate 64 1 }) = true)⟩ ⟨rfl, rfl⟩
  all_goals (unfold arrives; decide +kernel)

theorem witness_PpsEdgeFollowsR426 :
    let s (n : W64) : State := { live with fry := { live.fry with ppsArm := true, ppsNext := n } }
    live.fry.ppsArm = false ∧ (s 5000000).fry.ppsArm = true ∧ (s 5000000).hub.time ≤ (s 5000000).fry.ppsNext ∧
    (s 4999999).fry.ppsNext < (s 4999999).hub.time ∧ (s 4999999).evt.buf < 256 := by decide +kernel
/-! ### Single results, computed by hand or taken from the standards the spec names -/

/-- The check value of CRC-32: the FCS of the nine digits (IEEE 802.3, spec/16 R393). -/
theorem test_fcs_check_value :
    fcs [0x31, 0x32, 0x33, 0x34, 0x35, 0x36, 0x37, 0x38, 0x39] = [0x26, 0x39, 0xF4, 0xCB] := by decide +kernel

/-- SHA-512 of "abc", its first and last eight bytes (FIPS 180-4, spec/17 R441). -/
theorem test_sha512_abc :
    (sha512 [0x61, 0x62, 0x63]).take 8 = [0xDD, 0xAF, 0x35, 0xA1, 0x93, 0x61, 0x7A, 0xBA] ∧
    (sha512 [0x61, 0x62, 0x63]).drop 56 = [0x2A, 0x9A, 0xC9, 0x4F, 0xA5, 0x4C, 0xA4, 0x9F] := by decide +kernel

/-- The header of Table 16-5, field by field: a READ_REQ of context 8 on channel 3 from module 66 to 65. -/
theorem test_ferry_header :
    ferryHeader { typ := .data, vc := 3, ctx := 8, src := 66, dst := 65, seq := 0x010203, ack := some 7, gen := 0x1122, op := 3,
                  credit := some (5, 0x44), tag := 0x99, addr := 0x123456, offset := 0x10, arg := 0x40 } =
    [1, 0, 3, 8, 66, 0, 65, 0, 3, 2, 1, 0, 7, 0, 0, 0x80, 0x22, 0x11, 3, 0x85, 0x44, 0, 0, 0, 0, 0, 0, 0, 0x99, 0, 0, 0,
     0x56, 0x34, 0x12, 0, 0, 0, 0, 0, 0x10, 0, 0, 0, 0x40, 0, 0, 0] := by decide +kernel

/-- A frame sent is the frame read, behind the path's 802.1Q tag too (spec/16 R411, R412). -/
theorem test_ferry_round_trip :
    let s : State := { live with fry := { live.fry with entries := [(65, { valid := true, tagged := true, pcp := 5, vid := 0x123 })] } }
    let f : FFrame := { typ := .data, vc := 1, src := 66, dst := 65, seq := 9, gen := 5, op := 1, tag := 3, addr := 64, arg := 3
                        payload := [1, 2, 3], mac := 0x020000000042 }
    (ferryWire s 65 0x020000000041 f).take 18 = [2, 0, 0, 0, 0, 0x41, 2, 0, 0, 0, 0, 0x42, 0x81, 0, 0xA1, 0x23, 0x88, 0xB5] ∧
    ferryParse s (ferryWire s 65 0x020000000041 f) = some f := by decide +kernel

/-- FP32 addition rounds to nearest, ties to even: 1 + 2^-24 is 1, 1 + 3 * 2^-24 is 1 + 2^-22 (spec/03 Table 3-6). -/
theorem test_f32_add_ties : f32Add 0x3F800000 0x33800000 = 0x3F800000 ∧ f32Add 0x3F800000 0x34400000 = 0x3F800002 := by decide +kernel

/-- The fused multiply-add rounds once: (1 + 2^-12)^2 - 1 is 2^-11 + 2^-24. -/
theorem test_f32_fma_once : f32Fma 0x3F800800 0x3F800800 0xBF800000 = 0x3A000400 := by decide +kernel

/-- INT8 saturates at 127 and -127 and rounds ties to even (spec/03 R76): 200, -200, 2.5. -/
theorem test_int8_saturates :
    elemEnc 9 (Val.ofInt 200) = 0x7F ∧ elemEnc 9 (Val.ofInt (-200)) = 0x81 ∧ elemEnc 9 (f32Dec 0x40200000) = 2 := by decide +kernel

/-- An E4M3 block of 1 and -3: its scale is 2^(1-8), code 120, so the elements are 128 and -384 (spec/03 R62); a NaN input
makes the scale NaN and its own code 0x7F (R58). -/
theorem test_mx_block :
    mxQuant 3 [Val.ofInt 1, Val.ofInt (-3)] = (120, [0x70, 0xFC]) ∧ (mxQuant 3 [.nan]).1 = 0xFF ∧ (mxQuant 3 [.nan]).2 = [0x7F] := by
  decide +kernel

/-- Beyond the largest finite value E5M2 goes to infinity, E4M3 to 448 (spec/03 R76): 65536 and 1000 in a block of scale 1. -/
theorem test_mx_overflow : mxElem 4 (Val.ofInt 65536) = 0x7C ∧ mxElem 3 (Val.ofInt 1000) = 0x7E := by decide +kernel

/-- Byte-pair merging takes the lowest rank first (spec/12 R295): of 1 2 3, rank 0 joins 2 3, and then 1 7 make 8. -/
theorem test_bpe_rank :
    let t : Tokenizer := { tok0 with merges := [(1, 2, 5, 6), (2, 3, 0, 7), (1, 7, 9, 8)] }
    bpe t 3 [1, 2, 3] = [8] := by decide +kernel

/-- A PPS edge with ARM set moves the counter to FRY_PPS_NEXT and clears ARM (spec/16 R426). -/
theorem test_pps_edge :
    let s : State := { live with fry := { live.fry with ppsArm := true, ppsNext := 6000000 } }
    (match exec .ppsEdge s with
     | .next t => decide (t.hub.time = 6000000 ∧ t.fry.ppsLatch = 5000000 ∧ t.fry.ppsArm = false)
     | _ => false) = true := by decide +kernel

/-- A WRITE of three bytes from a peer stands in memory, and its WRITE_ACK waits on channel 2 (spec/16 Table 16-7). -/
theorem test_ferry_write :
    (match exec (.ferryWrite 0 (opFrame 1 { ctx := 0, tag := 7, addr := 4096, arg := 3, payload := [1, 2, 3] })) (pathOf {}) with
     | .next t => memRead t.mem.bytes 4095 5 == [0, 1, 2, 3, 0] &&
         decide ((getPath t 0 67).sendq.map (fun f => (f.op, f.vc, f.tag.toNat)) = [(2, 2, 7)])
     | _ => false) = true := by decide +kernel

/-- A write of a register outside every block stops the block (log 86). -/
theorem test_unmapped_write : exec (.registerWrite (.hart 0 false) 0x100 0) live = .fault .noSuchAddress := rfl

end Sys2Proof.Test
end

