-- ==== Sys2Proof/Proofs/PowerLimits.lean ====
section
/-! PROOFS. Power limits (spec/02 R54): what a register table holds at an offset, what the PWR block reads and writes, and
the fields that a write clamps to their range. -/

namespace Sys2Proof.Proofs

open Sys2Proof Sys2Proof.Machine Sys2Proof.Laws

/-! ### Register tables -/

/-- Place `d` of an array of registers. -/
theorem regIndex_at {stride n d : Nat} (base : Nat) (hs : 0 < stride) (hd : d < n) :
    regIndex (base + stride * d) base stride n = some d := by
  simp [regIndex, Nat.mul_div_cancel_left d hs, hd]

theorem regIndex_none_above {off base stride n : Nat} (hs : 0 < stride) (h : base + stride * n ≤ off) :
    regIndex off base stride n = none := by
  have hq : n ≤ (off - base) / stride := (Nat.le_div_iff_mul_le hs).2 (by rw [Nat.mul_comm]; omega)
  simp [regIndex, hq]

/-- A row answers for every place of its array. -/
theorem regFind_place {α : Type} {base n d : Nat} (f : Nat → α) (rows : List (RegRow α)) (hd : d < n) :
    regFind (⟨base, 8, n, f⟩ :: rows) (base + 8 * d) = some (f d) := by
  simp [regFind, regIndex_at base (by decide : 0 < 8) hd]

/-- A row whose array ends at or below the offset leaves it to the rows behind. -/
theorem regFind_skip {α : Type} {base n off : Nat} (f : Nat → α) (rows : List (RegRow α)) (h : base + 8 * n ≤ off) :
    regFind (⟨base, 8, n, f⟩ :: rows) off = regFind rows off := by
  simp [regFind, regIndex_none_above (by decide : 0 < 8) h]

theorem regFind_reg {α : Type} (off : Nat) (v : α) (rows : List (RegRow α)) : regFind (reg off v :: rows) off = some v :=
  regFind_place (d := 0) _ rows (by decide)

/-! ### The PWR block (spec/02 Table 2-3) -/

theorem blockOf_pwr {o : Nat} (ho : o < 0x1000000) : blockOf (0xF00003000000 + o) = some (.pwr, o) := by
  have hq : (0xF00003000000 + o - 0xF00000000000) / 0x1000000 = 3 := by omega
  have hr : (0xF00003000000 + o - 0xF00000000000) % 0x1000000 = o := by omega
  unfold blockOf
  rw [if_neg (by simp; omega)]
  dsimp only
  rw [if_pos (by omega), hq, hr]
  rfl

theorem exec_registerWrite_pwr {o : Nat} (ho : o < 0x1000000) (a : Agent) (v : W64) (s : State) :
    exec (.registerWrite a (0xF00003000000 + o) v) s = .next ((regFind (writePwr s a v) o).getD s) := by
  simp [exec_registerWrite, execRegisterWrite, regWrite, blockOf_pwr ho, writeBlock]

theorem regValue_pwr {o : Nat} (ho : o < 0x1000000) (s : State) :
    regValue s (0xF00003000000 + o) = w64 ((regFind (readPwr s) o).getD 0) := by
  simp [regValue, blockOf_pwr ho, readBlock]

theorem regFind_readPwr_cap (s : State) : regFind (readPwr s) 8 = some s.pwr.pcap.toNat := by
  unfold readPwr
  exact (regFind_skip (n := 1) _ _ (by decide)).trans (regFind_reg 8 _ _)

/-- The word of a deck's control (spec/02 Table 2-7). -/
theorem regFind_readPwr_deck (s : State) {d : Nat} (hd : d < 4) :
    regFind (readPwr s) (0x240 + 8 * d) =
      some ((tabGet {} s.pwr.deckCtl d).vmax.toNat * 2 ^ 32 + (tabGet {} s.pwr.deckCtl d).tjCap.toNat * 2 ^ 16) := by
  simp only [readPwr, reg]
  repeat rw [regFind_skip _ _ (by omega)]
  rw [regFind_place _ _ hd]

/-! ### Clamped fields (spec/02 R54) -/

/-- A field that can hold the upper bound of a range stores a clamped value as it is. -/
theorem toNat_ofNat_clamp {w lo hi : Nat} (hl : lo ≤ hi) (hw : hi < 2 ^ w) (v : Nat) :
    (BitVec.ofNat w (clamp lo hi v)).toNat = max lo (min hi v) := by
  have hle : clamp lo hi v ≤ hi := Nat.max_le.2 ⟨hl, Nat.min_le_left hi v⟩
  rw [BitVec.toNat_ofNat, Nat.mod_eq_of_lt (Nat.lt_of_le_of_lt hle hw), clamp]

theorem toNat_w64 {n : Nat} (h : n < 2 ^ 64) : (w64 n).toNat = n := by
  rw [w64, BitVec.toNat_ofNat, Nat.mod_eq_of_lt h]

/-- What PCAP_W stores of a written word. -/
def storedCap (v : W64) : BitVec 12 := BitVec.ofNat 12 (clamp 1600 3200 (bits v.toNat 11 0))

/-- What a deck's control stores of a written word. -/
def storedDeck (v : W64) : DeckCtl :=
  { vmax := BitVec.ofNat 10 (clamp 620 780 (bits v.toNat 41 32)), tjCap := BitVec.ofNat 8 (clamp 85 105 (bits v.toNat 23 16)) }

theorem toNat_storedCap (v : W64) : (storedCap v).toNat = max 1600 (min 3200 (v.toNat % 4096)) := by
  have hbits : bits v.toNat 11 0 = v.toNat % 4096 := congrArg (· % 4096) (Nat.div_one v.toNat)
  rw [storedCap, toNat_ofNat_clamp (by decide) (by decide), hbits]

theorem toNat_storedDeck_vmax (v : W64) : (storedDeck v).vmax.toNat = max 620 (min 780 (v.toNat / 2 ^ 32 % 1024)) :=
  toNat_ofNat_clamp (by decide) (by decide) _

theorem toNat_storedDeck_tjCap (v : W64) : (storedDeck v).tjCap.toNat = max 85 (min 105 (v.toNat / 2 ^ 16 % 256)) :=
  toNat_ofNat_clamp (by decide) (by decide) _

/-! ### Writes of the limits -/

/-- The state with PCAP_W stored. -/
def setCap (s : State) (v : W64) : State := modPwr s fun x => { x with pcap := storedCap v }

/-- The state with a deck's control stored. -/
def setDeck (s : State) (d : Nat) (v : W64) : State :=
  modPwr s fun x => { x with deckCtl := tabPut x.deckCtl d (storedDeck v) }

/-- Any agent but the management path changes a register that bars only that path (spec/17 R437). -/
theorem byAgent_of_ne {a : Agent} (ha : a ≠ .mgmt) (s : State) (f : State → State) : byAgent s a f = f s := if_neg ha

theorem regFind_writePwr_cap {a : Agent} (ha : a ≠ .mgmt) (v : W64) (s : State) :
    regFind (writePwr s a v) 8 = some (setCap s v) := by
  simp only [writePwr, regFind_reg]
  exact congrArg some (byAgent_of_ne ha s _)

theorem regFind_writePwr_deck {a : Agent} (ha : a ≠ .mgmt) {d : Nat} (hd : d < 4) (v : W64) (s : State) :
    regFind (writePwr s a v) (0x240 + 8 * d) = some (setDeck s d v) := by
  simp only [writePwr, reg]
  repeat rw [regFind_skip _ _ (by omega)]
  rw [regFind_place _ _ hd]
  exact congrArg some (byAgent_of_ne ha s _)

/-- R54 for PCAP_W, whose field is the word's low 12 bits. -/
theorem does_write_cap {a : Agent} (ha : a ≠ .mgmt) (v : W64) (s : State) :
    Does (.registerWrite a 0xF00003000008 v) s fun t =>
      (regValue t 0xF00003000008).toNat = max 1600 (min 3200 (v.toNat % 4096)) ∧
      t = { s with pwr := { s.pwr with pcap := t.pwr.pcap } } := by
  have haddr : 0xF00003000008 = 0xF00003000000 + 8 := rfl
  have hcap : (setCap s v).pwr.pcap = storedCap v := rfl
  have hlt : (storedCap v).toNat < 2 ^ 64 := Nat.lt_trans (storedCap v).isLt (by decide)
  rw [haddr]
  refine ⟨setCap s v, ?_, ?_, rfl⟩
  · rw [exec_registerWrite_pwr (by decide), regFind_writePwr_cap ha, Option.getD_some]
  · rw [regValue_pwr (by decide), regFind_readPwr_cap, Option.getD_some, hcap, toNat_w64 hlt, toNat_storedCap]

/-- R54 for VMAX_MV and TJ_CAP, the two fields of a deck's control; the other decks keep theirs. -/
theorem does_write_deck {a : Agent} (ha : a ≠ .mgmt) (v : W64) (s : State) {d : Nat} (hd : d < 4) :
    Does (.registerWrite a (0xF00003000240 + 8 * d) v) s fun t =>
      (regValue t (0xF00003000240 + 8 * d)).toNat =
        max 620 (min 780 (v.toNat / 2 ^ 32 % 1024)) * 2 ^ 32 + max 85 (min 105 (v.toNat / 2 ^ 16 % 256)) * 2 ^ 16 ∧
      (∀ k, k ≠ d → tabGet {} t.pwr.deckCtl k = tabGet {} s.pwr.deckCtl k) ∧
      t = { s with pwr := { s.pwr with deckCtl := t.pwr.deckCtl } } := by
  have haddr : 0xF00003000240 + 8 * d = 0xF00003000000 + (0x240 + 8 * d) := by omega
  have ho : 0x240 + 8 * d < 0x1000000 := by omega
  have hdeck : tabGet {} (setDeck s d v).pwr.deckCtl d = storedDeck v := tabGet_tabPut_self _ _ _ _
  rw [haddr]
  refine ⟨setDeck s d v, ?_, ?_, fun k hk => tabGet_tabPut_ne _ _ _ hk.symm, rfl⟩
  · rw [exec_registerWrite_pwr ho, regFind_writePwr_deck ha hd, Option.getD_some]
  · rw [regValue_pwr ho, regFind_readPwr_deck _ hd, Option.getD_some, hdeck, toNat_storedDeck_vmax,
      toNat_storedDeck_tjCap, toNat_w64 (by omega)]

/-- Settles O12: each written field is clamped to its range and fits the bits that store it. -/
theorem powerLimitsClampR54 : Obligations.PowerLimitsClampR54 := fun _ v s ha =>
  ⟨does_write_cap ha v s, fun _ hd => does_write_deck ha v s hd⟩

end Sys2Proof.Proofs
end

