-- ==== Sys2Proof/Proofs/PpsEdge.lean ====
section
/-! PROOFS. An edge of PPS_IN (spec/16 R426): what it latches in the ferry block, and what ARM makes of the counter. -/

namespace Sys2Proof.Proofs

open Sys2Proof Sys2Proof.Machine Sys2Proof.Laws

/-! ### What raising an event leaves unchanged -/

theorem raise_hub (s : State) (code : EvtCode) (src : BitVec 16) (detail : Bytes) :
    (raise s code src detail).hub = s.hub := by
  obtain ⟨v, o, h⟩ := logEntry_shape s { code := some code, source := src, detail := detail }
  rw [raise, h]

theorem raise_fry (s : State) (code : EvtCode) (src : BitVec 16) (detail : Bytes) :
    (raise s code src detail).fry = s.fry := by
  obtain ⟨v, o, h⟩ := logEntry_shape s { code := some code, source := src, detail := detail }
  rw [raise, h]

/-! ### The three cases of an edge -/

theorem exec_ppsEdge (s : State) : exec .ppsEdge s = .next (ppsRow s) := rfl

theorem ppsRow_disarmed {s : State} (ha : s.fry.ppsArm = false) : ppsRow s = ppsEdge s := by
  simp [ppsRow, ha]

theorem ppsRow_aligned {s : State} (ha : s.fry.ppsArm = true) (hn : s.hub.time ≤ s.fry.ppsNext) :
    ppsRow s = { ppsEdge s with hub := { s.hub with time := s.fry.ppsNext } } := by
  have hle : s.hub.time.toNat ≤ s.fry.ppsNext.toNat := hn
  simp [ppsRow, ha, hle, ppsEdge, modFry]

theorem ppsRow_behind {s : State} (ha : s.fry.ppsArm = true) (hn : s.fry.ppsNext < s.hub.time) :
    ppsRow s =
      raise (ppsEdge s) .ppsBehind srcNone (toLe 8 s.hub.time.toNat ++ toLe 8 s.fry.ppsNext.toNat) := by
  have hlt : ¬ s.hub.time.toNat ≤ s.fry.ppsNext.toNat := Nat.not_le.2 hn
  simp [ppsRow, ha, hlt]

/-! ### The ferry block and the other blocks -/

theorem ppsEdge_fry (s : State) :
    (ppsEdge s).fry = { s.fry with
      ppsLatch := s.hub.time, ppsSeen := true, ppsArm := false,
      ppsBehind := s.fry.ppsBehind || (s.fry.ppsArm && decide (s.fry.ppsNext.toNat < s.hub.time.toNat)) } := rfl

theorem ppsEdge_hub (s : State) : (ppsEdge s).hub = s.hub := rfl

theorem ppsEdge_evt (s : State) : (ppsEdge s).evt = s.evt := rfl

/-- Whatever ARM makes of the counter, the ferry block holds what the latching left in it. -/
theorem ppsRow_fry (s : State) : (ppsRow s).fry = (ppsEdge s).fry := by
  cases ha : s.fry.ppsArm with
  | false => rw [ppsRow_disarmed ha]
  | true =>
    by_cases hn : s.hub.time ≤ s.fry.ppsNext
    · rw [ppsRow_aligned ha hn]
    · rw [ppsRow_behind ha (BitVec.not_le.1 hn), raise_fry]

/-- BEHIND keeps its value unless ARM is set and FRY_PPS_NEXT is below the counter. -/
theorem ppsRow_ppsBehind (s : State) :
    (ppsRow s).fry.ppsBehind =
      (s.fry.ppsBehind || (s.fry.ppsArm && decide (s.fry.ppsNext.toNat < s.hub.time.toNat))) := by
  rw [ppsRow_fry, ppsEdge_fry]

theorem ppsRow_ppsBehind_disarmed {s : State} (ha : s.fry.ppsArm = false) :
    (ppsRow s).fry.ppsBehind = s.fry.ppsBehind := by
  simp [ppsRow_ppsBehind, ha]

theorem ppsRow_ppsBehind_aligned {s : State} (hn : s.hub.time ≤ s.fry.ppsNext) :
    (ppsRow s).fry.ppsBehind = s.fry.ppsBehind := by
  have hlt : ¬ s.fry.ppsNext.toNat < s.hub.time.toNat := Nat.not_lt.2 hn
  simp [ppsRow_ppsBehind, hlt]

theorem ppsRow_ppsBehind_behind {s : State} (ha : s.fry.ppsArm = true) (hn : s.fry.ppsNext < s.hub.time) :
    (ppsRow s).fry.ppsBehind = true := by
  have hlt : s.fry.ppsNext.toNat < s.hub.time.toNat := hn
  simp [ppsRow_ppsBehind, ha, hlt]

/-- Settles O56: the edge latches in every case; the counter, BEHIND and the event log follow ARM and FRY_PPS_NEXT. -/
theorem ppsEdgeFollowsR426 : Obligations.PpsEdgeFollowsR426 := by
  intro s
  refine ⟨ppsRow s, exec_ppsEdge s, ?latch, ?seen, ?arm, ?disarmed, ?aligned, ?behind, ?rest⟩
  case disarmed =>
    intro ha
    exact ⟨by rw [ppsRow_disarmed ha, ppsEdge_hub], ppsRow_ppsBehind_disarmed ha, by rw [ppsRow_disarmed ha, ppsEdge_evt]⟩
  case aligned =>
    intro ha hn
    exact ⟨by rw [ppsRow_aligned ha hn], ppsRow_ppsBehind_aligned hn, by rw [ppsRow_aligned ha hn, ppsEdge_evt]⟩
  case behind =>
    intro ha hn
    refine ⟨by rw [ppsRow_behind ha hn, raise_hub, ppsEdge_hub], ppsRow_ppsBehind_behind ha hn, fun hbuf => ?_⟩
    rw [ppsRow_behind ha hn]
    exact logEntry_head (s := ppsEdge s) _ hbuf
  case latch | seen | arm | rest => rw [ppsRow_fry, ppsEdge_fry]

end Sys2Proof.Proofs
end

