-- ==== Sys2Proof/Proofs/EventTail.lean ====
section
/-! PROOFS. EVT_TAIL (spec/18 R465): how an entry of the log moves it, and what a software write of it comes to. -/

namespace Sys2Proof.Proofs

open Sys2Proof Sys2Proof.Machine Sys2Proof.Laws

/-! ### An entry of the log -/

/-- The overwritten entry moves TAIL past it and is counted, until the count is at its largest value. -/
theorem logEntry_of_log_full {s : State} (e : EvtEntry) (hbuf : s.evt.buf < 256)
    (hfull : 65536 ≤ s.evt.head.toNat - s.evt.tail.toNat) :
    (logEntry s e).evt.tail = s.evt.tail + 1 ∧
      (logEntry s e).evt.drops = if s.evt.drops = 0xFFFFFFFF then s.evt.drops else s.evt.drops + 1 := by
  rw [logEntry_evt e hbuf, ← satAdd32_one]
  exact ⟨if_pos hfull, if_pos hfull⟩

theorem logEntry_of_log_room {s : State} (e : EvtEntry) (hbuf : s.evt.buf < 256)
    (hroom : s.evt.head.toNat - s.evt.tail.toNat < 65536) :
    (logEntry s e).evt.tail = s.evt.tail ∧ (logEntry s e).evt.drops = s.evt.drops := by
  rw [logEntry_evt e hbuf]
  exact ⟨if_neg (Nat.not_le.2 hroom), if_neg (Nat.not_le.2 hroom)⟩

/-! ### A write of EVT_TAIL -/

/-- The larger of two words, as the model computes it on numbers. -/
theorem ofNat_max_toNat (v w : W64) : BitVec.ofNat 64 (max v.toNat w.toNat) = if w ≤ v then v else w := by
  by_cases h : w ≤ v
  · rw [if_pos h, Nat.max_eq_left h, BitVec.ofNat_toNat, BitVec.setWidth_eq]
  · rw [if_neg h, Nat.max_eq_right (Nat.le_of_not_le h), BitVec.ofNat_toNat, BitVec.setWidth_eq]

theorem exec_evtTailWrite (a : Agent) (v : W64) (s : State) :
    exec (.evtTailWrite a v) s = .next (evtTailWrite s a v) := rfl

/-- A write up to HEAD raises TAIL or leaves it. -/
theorem evtTailWrite_within {a : Agent} (ha : a ≠ .mgmt) {v : W64} {s : State} (hv : v ≤ s.evt.head) :
    evtTailWrite s a v = { s with evt := { s.evt with tail := if s.evt.tail ≤ v then v else s.evt.tail } } := by
  rw [evtTailWrite, byAgent_of_ne ha, if_pos (BitVec.le_def.1 hv), ofNat_max_toNat]

/-- A write above HEAD is ignored. -/
theorem evtTailWrite_beyond {a : Agent} (ha : a ≠ .mgmt) {v : W64} {s : State} (hv : ¬ v ≤ s.evt.head) :
    evtTailWrite s a v = s := by
  rw [evtTailWrite, byAgent_of_ne ha, if_neg (mt BitVec.le_def.2 hv)]

/-- Settles O10: an entry follows whether the log is full, a write whether it stays at or below HEAD. -/
theorem eventTailFollowsR465 : Obligations.EventTailFollowsR465 := by
  refine ⟨fun s e hbuf => ?entry, fun a v s ha => ?write⟩
  case entry =>
    exact ⟨logEntry_entry e hbuf, fun hfull => logEntry_of_log_full e hbuf hfull.ge, logEntry_of_log_room e hbuf⟩
  case write =>
    rw [exec_evtTailWrite]
    by_cases hv : v ≤ s.evt.head
    · rw [if_pos hv, evtTailWrite_within ha hv]
    · rw [if_neg hv, evtTailWrite_beyond ha hv]

end Sys2Proof.Proofs
end

