-- ==== Sys2Proof/Proofs/StepFrames.lean ====
section
/-! PROOFS. A step and its command: what a command may change, that it answers a next state, and what reset gives. -/

namespace Sys2Proof.Laws

open Sys2Proof Sys2Proof.Machine

/-! ### Parts of the state and the masks of frames -/

/-- The place of a part in the masks of `Fr`: the order of the fields of State. -/
def partBit (p : Part) : Nat := p.ctorIdx

/-- The mask of some parts. -/
def maskOf : List Part → Nat
  | [] => 0
  | p :: l => 2 ^ partBit p ||| maskOf l

theorem partBit_injective {p q : Part} (h : partBit p = partBit q) : p = q := by
  rw [← Part.ofNat_ctorIdx p, ← Part.ofNat_ctorIdx q]
  exact congrArg Part.ofNat h

theorem testBit_maskOf (l : List Part) (p : Part) : (maskOf l).testBit (partBit p) = decide (p ∈ l) := by
  induction l with
  | nil => simp [maskOf]
  | cons q l ih =>
    by_cases h : q = p
    · subst h; simp [maskOf, Nat.testBit_or]
    · have hb : partBit q ≠ partBit p := fun e => h (partBit_injective e)
      simp [maskOf, Nat.testBit_or, ih, hb, Ne.symm h]

/-- A frame within a wider mask. -/
theorem Fr.widen {k : Nat} {l : List Part} {s t : State} (h : Fr k s t)
    (hk : decide (k ||| maskOf l = maskOf l) = true) : Fr (maskOf l) s t :=
  h.step (of_decide_eq_true hk) (Fr.refl _ s)

/-- A part outside the mask is as before. -/
theorem Fr.same {m : Nat} {s t : State} (h : Fr m s t) (p : Part) (hp : m.testBit (partBit p) = false) : p.Same s t := by
  have hno : m.testBit (partBit p) ≠ true := by rw [hp]; exact Bool.false_ne_true
  obtain ⟨hub, pwr, evt, prt, engs, mem, cores, slip, fry, barges, routers, ssus, pcl, gth, grd, por, mbs, pur, sec,
    pending, outs, freeCtr, _⟩ := h
  cases p
  case hub => exact hub.resolve_left hno
  case pwr => exact pwr.resolve_left hno
  case evt => exact evt.resolve_left hno
  case prt => exact prt.resolve_left hno
  case engs => exact engs.resolve_left hno
  case mem => exact mem.resolve_left hno
  case cores => exact cores.resolve_left hno
  case slip => exact slip.resolve_left hno
  case fry => exact fry.resolve_left hno
  case barges => exact barges.resolve_left hno
  case routers => exact routers.resolve_left hno
  case ssus => exact ssus.resolve_left hno
  case pcl => exact pcl.resolve_left hno
  case gth => exact gth.resolve_left hno
  case grd => exact grd.resolve_left hno
  case por => exact por.resolve_left hno
  case mbs => exact mbs.resolve_left hno
  case pur => exact pur.resolve_left hno
  case sec => exact sec.resolve_left hno
  case pending => exact pending.resolve_left hno
  case outs => exact outs.resolve_left hno
  case freeCtr => exact freeCtr.resolve_left hno

/-! ### A frame as an equation -/

/-- The parts of `m` from `t`, the others from `s`. -/
def merge (m : Nat) (s t : State) : State :=
  { hub := if m.testBit 0 then t.hub else s.hub
    pwr := if m.testBit 1 then t.pwr else s.pwr
    evt := if m.testBit 2 then t.evt else s.evt
    prt := if m.testBit 3 then t.prt else s.prt
    engs := if m.testBit 4 then t.engs else s.engs
    mem := if m.testBit 5 then t.mem else s.mem
    cores := if m.testBit 6 then t.cores else s.cores
    slip := if m.testBit 7 then t.slip else s.slip
    fry := if m.testBit 8 then t.fry else s.fry
    barges := if m.testBit 9 then t.barges else s.barges
    routers := if m.testBit 10 then t.routers else s.routers
    ssus := if m.testBit 11 then t.ssus else s.ssus
    pcl := if m.testBit 12 then t.pcl else s.pcl
    gth := if m.testBit 13 then t.gth else s.gth
    grd := if m.testBit 14 then t.grd else s.grd
    por := if m.testBit 15 then t.por else s.por
    mbs := if m.testBit 16 then t.mbs else s.mbs
    pur := if m.testBit 17 then t.pur else s.pur
    sec := if m.testBit 18 then t.sec else s.sec
    pending := if m.testBit 19 then t.pending else s.pending
    outs := if m.testBit 20 then t.outs else s.outs
    freeCtr := if m.testBit 21 then t.freeCtr else s.freeCtr }

theorem ite_of_or {α : Type} {b : Bool} {x y : α} (h : b = true ∨ x = y) : x = if b then x else y := by
  cases b
  · exact h.resolve_left (by decide)
  · rfl

theorem Fr.eq_merge {m : Nat} {s t : State} (h : Fr m s t) : t = merge m s t := by
  cases t
  simp only [merge, State.mk.injEq]
  exact ⟨ite_of_or h.hub, ite_of_or h.pwr, ite_of_or h.evt, ite_of_or h.prt, ite_of_or h.engs, ite_of_or h.mem, ite_of_or h.cores,
    ite_of_or h.slip, ite_of_or h.fry, ite_of_or h.barges, ite_of_or h.routers, ite_of_or h.ssus, ite_of_or h.pcl,
    ite_of_or h.gth, ite_of_or h.grd, ite_of_or h.por, ite_of_or h.mbs, ite_of_or h.pur, ite_of_or h.sec,
    ite_of_or h.pending, ite_of_or h.outs, ite_of_or h.freeCtr⟩

end Sys2Proof.Laws

namespace Sys2Proof.Proofs

open Sys2Proof Sys2Proof.Machine Sys2Proof.Laws

/-! ### Commands -/

/-- A command keeps to the parts listed for it: the frame of its row is within their mask. -/
theorem exec_fr {i : Instr} {s t : State} (h : exec i s = .next t) : Fr (maskOf (touches i)) s t := by
  cases i <;> dsimp only [touches]
  case registerWrite => exact Fr.widen (execRegisterWrite_fr h) rfl
  case badAccess => exact Fr.widen (execBadAccess_fr h) rfl
  case mgmtLinkDown => exact Fr.widen (execMgmtLinkDown_fr h) rfl
  case voltageControlStep => exact Fr.widen (execVoltageControlStep_fr h) rfl
  case rateWindowEnd => exact Fr.widen (execRateWindowEnd_fr h) rfl
  case pwrRateMinRead => exact Fr.widen (execPwrRateMinRead_fr h) rfl
  case sensorSample => exact Fr.widen (execSensorSample_fr h) rfl
  case engineCommandOffer => exact Fr.widen (execEngineCommandOffer_fr h) rfl
  case tamp => exact Fr.widen (execTamp_fr h) rfl
  case tampStart => exact Fr.widen (execTampStart_fr h) rfl
  case tampLoadDone => exact Fr.widen (execTampLoadDone_fr h) rfl
  case pass => exact Fr.widen (execPass_fr h) rfl
  case passStart => exact Fr.widen (execPassStart_fr h) rfl
  case passLastRowEntered => exact Fr.widen (execPassLastRowEntered_fr h) rfl
  case bankFreeHandshake => exact Fr.widen (execBankFreeHandshake_fr h) rfl
  case passComplete => exact Fr.widen (execPassComplete_fr h) rfl
  case epi => exact Fr.widen (execEpi_fr h) rfl
  case epiComplete => exact Fr.widen (execEpiComplete_fr h) rfl
  case mapInstall => exact Fr.widen (execMapInstall_fr h) rfl
  case mapClose => exact Fr.widen (execMapClose_fr h) rfl
  case ctxHaltClear => exact Fr.widen (execCtxHaltClear_fr h) rfl
  case route => exact Fr.widen (execRoute_fr h) rfl
  case dispatch => exact Fr.widen (execDispatch_fr h) rfl
  case dispatchNotify => exact Fr.widen (execDispatchNotify_fr h) rfl
  case combine => exact Fr.widen (execCombine_fr h) rfl
  case move => exact Fr.widen (execMove_fr h) rfl
  case pin => exact Fr.widen (execPin_fr h) rfl
  case unpin => exact Fr.widen (execUnpin_fr h) rfl
  case schedule => exact Fr.widen (execSchedule_fr h) rfl
  case advance => exact Fr.widen (execAdvance_fr h) rfl
  case fetchSlice => exact Fr.widen (execFetchSlice_fr h) rfl
  case residencyEpochTick => exact Fr.widen (execResidencyEpochTick_fr h) rfl
  case backgroundUnit => exact Fr.widen (execBackgroundUnit_fr h) rfl
  case collective => exact Fr.widen (execCollective_fr h) rfl
  case collReadyRepeat => exact Fr.widen (execCollReadyRepeat_fr h) rfl
  case collectiveTimeout => exact Fr.widen (execCollectiveTimeout_fr h) rfl
  case push => exact Fr.widen (execPush_fr h) rfl
  case grant => exact Fr.widen (execGrant_fr h) rfl
  case take => exact Fr.widen (execTake_fr h) rfl
  case dropRest => exact Fr.widen (execDropRest_fr h) rfl
  case mark => exact Fr.widen (execMark_fr h) rfl
  case rewind => exact Fr.widen (execRewind_fr h) rfl
  case release => exact Fr.widen (execRelease_fr h) rfl
  case slipReserve => exact Fr.widen (execSlipReserve_fr h) rfl
  case slipCommit => exact Fr.widen (execSlipCommit_fr h) rfl
  case slipRewind => exact Fr.widen (execSlipRewind_fr h) rfl
  case slpQueueEnable => exact Fr.widen (execSlpQueueEnable_fr h) rfl
  case slpQueueDisable => exact Fr.widen (execSlpQueueDisable_fr h) rfl
  case query => exact Fr.widen (execQuery_fr h) rfl
  case queryAdmit => exact Fr.widen (execQueryAdmit_fr h) rfl
  case pclHeadUnit => exact Fr.widen (execPclHeadUnit_fr h) rfl
  case pclBlockUnit => exact Fr.widen (execPclBlockUnit_fr h) rfl
  case pclRefineUnit => exact Fr.widen (execPclRefineUnit_fr h) rfl
  case queryResultWrite => exact Fr.widen (execQueryResultWrite_fr h) rfl
  case pclAttach => exact Fr.widen (execPclAttach_fr h) rfl
  case pclDetach => exact Fr.widen (execPclDetach_fr h) rfl
  case compact => exact Fr.widen (execCompact_fr h) rfl
  case updatePacketApply => exact Fr.widen (execUpdatePacketApply_fr h) rfl
  case compactionPiece => exact Fr.widen (execCompactionPiece_fr h) rfl
  case compactionRetire => exact Fr.widen (execCompactionRetire_fr h) rfl
  case topk => exact Fr.widen (execTopk_fr h) rfl
  case sort => exact Fr.widen (execSort_fr h) rfl
  case merge => exact Fr.widen (execMerge_fr h) rfl
  case uniqueCount => exact Fr.widen (execUniqueCount_fr h) rfl
  case filterCompact => exact Fr.widen (execFilterCompact_fr h) rfl
  case gather => exact Fr.widen (execGather_fr h) rfl
  case apply => exact Fr.widen (execApply_fr h) rfl
  case prefetch => exact Fr.widen (execPrefetch_fr h) rfl
  case gthAttach => exact Fr.widen (execGthAttach_fr h) rfl
  case gthDetach => exact Fr.widen (execGthDetach_fr h) rfl
  case migrate => exact Fr.widen (execMigrate_fr h) rfl
  case rowRequestServe => exact Fr.widen (execRowRequestServe_fr h) rfl
  case rowUpdateApply => exact Fr.widen (execRowUpdateApply_fr h) rfl
  case loadEpochStep => exact Fr.widen (execLoadEpochStep_fr h) rfl
  case hotRowBalance => exact Fr.widen (execHotRowBalance_fr h) rfl
  case tokenize => exact Fr.widen (execTokenize_fr h) rfl
  case load => exact Fr.widen (execLoad_fr h) rfl
  case unload => exact Fr.widen (execUnload_fr h) rfl
  case embed => exact Fr.widen (execEmbed_fr h) rfl
  case search => exact Fr.widen (execSearch_fr h) rfl
  case rerank => exact Fr.widen (execRerank_fr h) rfl
  case pack => exact Fr.widen (execPack_fr h) rfl
  case prefill => exact Fr.widen (execPrefill_fr h) rfl
  case prefillLayer => exact Fr.widen (execPrefillLayer_fr h) rfl
  case decode => exact Fr.widen (execDecode_fr h) rfl
  case pour => exact Fr.widen (execPour_fr h) rfl
  case cancel => exact Fr.widen (execCancel_fr h) rfl
  case prefixRetire => exact Fr.widen (execPrefixRetire_fr h) rfl
  case stageStart => exact Fr.widen (execStageStart_fr h) rfl
  case stageComplete => exact Fr.widen (execStageComplete_fr h) rfl
  case decodeStep => exact Fr.widen (execDecodeStep_fr h) rfl
  case sequencerToken => exact Fr.widen (execSequencerToken_fr h) rfl
  case sequencerCancel => exact Fr.widen (execSequencerCancel_fr h) rfl
  case sequencerError => exact Fr.widen (execSequencerError_fr h) rfl
  case ringRecordWrite => exact Fr.widen (execRingRecordWrite_fr h) rfl
  case budgetRefill => exact Fr.widen (execBudgetRefill_fr h) rfl
  case budgetPeriodWrite => exact Fr.widen (execBudgetPeriodWrite_fr h) rfl
  case contextEnable => exact Fr.widen (execContextEnable_fr h) rfl
  case contextDisable => exact Fr.widen (execContextDisable_fr h) rfl
  case queryCtxWrite => exact Fr.widen (execQueryCtxWrite_fr h) rfl
  case bucketEnable => exact Fr.widen (execBucketEnable_fr h) rfl
  case bucketPieceAdmit => exact Fr.widen (execBucketPieceAdmit_fr h) rfl
  case mailboxOpen => exact Fr.widen (execMailboxOpen_fr h) rfl
  case mailboxOpenResolve => exact Fr.widen (execMailboxOpenResolve_fr h) rfl
  case mailboxClose => exact Fr.widen (execMailboxClose_fr h) rfl
  case mbDoorbell => exact Fr.widen (execMbDoorbell_fr h) rfl
  case mbCplTailWrite => exact Fr.widen (execMbCplTailWrite_fr h) rfl
  case descriptorTake => exact Fr.widen (execDescriptorTake_fr h) rfl
  case completionWrite => exact Fr.widen (execCompletionWrite_fr h) rfl
  case progressWrite => exact Fr.widen (execProgressWrite_fr h) rfl
  case nop => exact Fr.widen (execNop_fr h) rfl
  case resetWarm => exact Fr.widen (execResetWarm_fr h) rfl
  case resetPartition => exact Fr.widen (execResetPartition_fr h) rfl
  case resetEngine => exact Fr.widen (execResetEngine_fr h) rfl
  case moor => exact Fr.widen (execMoor_fr h) rfl
  case attest => exact Fr.widen (execAttest_fr h) rfl
  case enqueue => exact Fr.widen (execEnqueue_fr h) rfl
  case enqueueOffer => exact Fr.widen (execEnqueueOffer_fr h) rfl
  case disableFinish => exact Fr.widen (execDisableFinish_fr h) rfl
  case portEnable => exact Fr.widen (execPortEnable_fr h) rfl
  case portDisable => exact Fr.widen (execPortDisable_fr h) rfl
  case portLinkUp => exact Fr.widen (execPortLinkUp_fr h) rfl
  case portLinkDown => exact Fr.widen (execPortLinkDown_fr h) rfl
  case opticalCalibration => exact Fr.widen (execOpticalCalibration_fr h) rfl
  case clientRingWrite => exact Fr.widen (execClientRingWrite_fr h) rfl
  case clientRxTailWrite => exact Fr.widen (execClientRxTailWrite_fr h) rfl
  case clientTxTailWrite => exact Fr.widen (execClientTxTailWrite_fr h) rfl
  case clientFrameReceive => exact Fr.widen (execClientFrameReceive_fr h) rfl
  case clientFrameTransmit => exact Fr.widen (execClientFrameTransmit_fr h) rfl
  case helloSend => exact Fr.widen (execHelloSend_fr h) rfl
  case berthSet => exact Fr.widen (execBerthSet_fr h) rfl
  case ferryHelloReceive => exact Fr.widen (execFerryHelloReceive_fr h) rfl
  case ferrySyncReceive => exact Fr.widen (execFerrySyncReceive_fr h) rfl
  case ferrySyncAckReceive => exact Fr.widen (execFerrySyncAckReceive_fr h) rfl
  case syncResend => exact Fr.widen (execSyncResend_fr h) rfl
  case ferryControlReceive => exact Fr.widen (execFerryControlReceive_fr h) rfl
  case ferryNackReceive => exact Fr.widen (execFerryNackReceive_fr h) rfl
  case ackTimer => exact Fr.widen (execAckTimer_fr h) rfl
  case retransmitTimeout => exact Fr.widen (execRetransmitTimeout_fr h) rfl
  case ferryFrameSend => exact Fr.widen (execFerryFrameSend_fr h) rfl
  case ferryWrite => exact Fr.widen (execFerryWrite_fr h) rfl
  case ferryWriteAck => exact Fr.widen (execFerryWriteAck_fr h) rfl
  case ferryReadReq => exact Fr.widen (execFerryReadReq_fr h) rfl
  case ferryReadResp => exact Fr.widen (execFerryReadResp_fr h) rfl
  case ferryPush => exact Fr.widen (execFerryPush_fr h) rfl
  case ferryPushDone => exact Fr.widen (execFerryPushDone_fr h) rfl
  case slipCredit => exact Fr.widen (execSlipCredit_fr h) rfl
  case coll => exact Fr.widen (execColl_fr h) rfl
  case collReady => exact Fr.widen (execCollReady_fr h) rfl
  case ferryStatus => exact Fr.widen (execFerryStatus_fr h) rfl
  case ferryRow => exact Fr.widen (execFerryRow_fr h) rfl
  case ferryPurser => exact Fr.widen (execFerryPurser_fr h) rfl
  case ferryMgmt => exact Fr.widen (execFerryMgmt_fr h) rfl
  case ppsEdge => exact Fr.widen (execPpsEdge_fr h) rfl
  case bootStart => exact Fr.widen (execBootStart_fr h) rfl
  case solicit => exact Fr.widen (execSolicit_fr h) rfl
  case offer => exact Fr.widen (execOffer_fr h) rfl
  case block => exact Fr.widen (execBlock_fr h) rfl
  case imageStateSend => exact Fr.widen (execImageStateSend_fr h) rfl
  case sessionAbandon => exact Fr.widen (execSessionAbandon_fr h) rfl
  case imageDoneSend => exact Fr.widen (execImageDoneSend_fr h) rfl
  case imageMessageRelay => exact Fr.widen (execImageMessageRelay_fr h) rfl
  case mgmtReq => exact Fr.widen (execMgmtReq_fr h) rfl
  case svnFloorRaise => exact Fr.widen (execSvnFloorRaise_fr h) rfl
  case ownerHashProgram => exact Fr.widen (execOwnerHashProgram_fr h) rfl
  case measurementExtend => exact Fr.widen (execMeasurementExtend_fr h) rfl
  case evtTailWrite => exact Fr.widen (execEvtTailWrite_fr h) rfl
  case evtDropsRead => exact Fr.widen (execEvtDropsRead_fr h) rfl
  case powerOn => exact Fr.widen (execPowerOn_fr h) rfl
  case powerDown => exact Fr.widen (execPowerDown_fr h) rfl
  case moduleReset => exact Fr.widen (execModuleReset_fr h) rfl
  case trip => exact Fr.widen (execTrip_fr h) rfl
  case moorReqChange => exact Fr.widen (execMoorReqChange_fr h) rfl
  case moorWakeWrite => exact Fr.widen (execMoorWakeWrite_fr h) rfl
  case moorEntry => exact Fr.widen (execMoorEntry_fr h) rfl
  case moorDrained => exact Fr.widen (execMoorDrained_fr h) rfl
  case moorWaitExpiry => exact Fr.widen (execMoorWaitExpiry_fr h) rfl
  case wake => exact Fr.widen (execWake_fr h) rfl
  case smbusRead => exact Fr.widen (execSmbusRead_fr h) rfl
  case ferryFrameDiscard => exact Fr.widen (execFerryFrameDiscard_fr h) rfl
  case mgmtLinkUp => exact Fr.widen (execMgmtLinkUp_fr h) rfl
  case mgmtCageChange => exact Fr.widen (execMgmtCageChange_fr h) rfl
  case pathTableWrite => exact Fr.widen (execPathTableWrite_fr h) rfl
  case wheelhouseStore => exact Fr.widen (execWheelhouseStore_fr h) rfl

theorem exec_same {i : Instr} {s t : State} (h : exec i s = .next t) (p : Part) (hp : p ∉ touches i) : p.Same s t :=
  (exec_fr h).same p (by rw [testBit_maskOf]; exact decide_eq_false hp)

theorem exec_keeps_memory_wf {i : Instr} {s t : State} (h : exec i s = .next t)
    (hs : Memory.wf s.mem.bytes = true) : Memory.wf t.mem.bytes = true := (exec_fr h).wf hs

/-- A register write stops only outside every block. -/
theorem execRegisterWrite_next_or_fault (a : Agent) (addr : Nat) (v : W64) (s : State) :
    (∃ t, execRegisterWrite a addr v s = .next t) ∨
      (blockOf addr = none ∧ execRegisterWrite a addr v s = .fault .noSuchAddress) := by
  unfold execRegisterWrite regWrite
  cases hb : blockOf addr with
  | none => exact .inr ⟨rfl, rfl⟩
  | some x =>
    left
    by_cases hp : (x.1 = .prt && !prtMayWrite a) = true
    · exact ⟨protWrite s addr v, by simp only [hp, if_true]⟩
    · exact ⟨(regFind (writeBlock s a v x.1) x.2).getD s, by simp only [hp, Bool.false_eq_true, if_false]⟩

/-! ### Steps -/

theorem step_nil {s : State} (h : s.pending = []) : step s = .next (tick s) := by
  unfold step; rw [h]

theorem step_cons {c : Instr} {rest : List Instr} {s : State} (h : s.pending = c :: rest) :
    step s = exec c { s with pending := rest } := by
  unfold step; rw [h]

/-- A step is a nanosecond or the front command's. -/
theorem step_cases {s t : State} (h : step s = .next t) :
    t = tick s ∨ ∃ c rest, s.pending = c :: rest ∧ exec c { s with pending := rest } = .next t := by
  cases hp : s.pending with
  | nil => rw [step_nil hp] at h; cases h; exact .inl rfl
  | cons c rest => rw [step_cons hp] at h; exact .inr ⟨c, rest, rfl, h⟩

/-! ### The obligations -/

/-- Settles O1: by the definition of a step. -/
theorem stepRunsTheFrontCommand : Obligations.StepRunsTheFrontCommand := fun _ _ _ h => step_cons h

/-- Settles O3: the frame of every command's row is within the mask of the parts listed for it. -/
theorem commandsKeepOtherParts : Obligations.CommandsKeepOtherParts := fun _ _ _ h p hp => exec_same h p hp

/-- Settles O4: every row but a register write answers a next state by its definition. -/
theorem onlyAnUnmappedWriteStops : Obligations.OnlyAnUnmappedWriteStops := by
  intro i s
  cases i
  case registerWrite a addr v =>
    obtain h | ⟨hb, h⟩ := execRegisterWrite_next_or_fault a addr v s
    · exact .inl h
    · exact .inr ⟨a, addr, v, rfl, hb, h⟩
  all_goals exact .inl ⟨_, rfl⟩

/-- Settles O5: a nanosecond leaves memory alone, and the frame of every command keeps the canonical form. -/
theorem stepsKeepMemoryCanonical : Obligations.StepsKeepMemoryCanonical := by
  intro s t hs h
  obtain rfl | ⟨c, rest, _, hc⟩ := step_cases h
  · exact hs
  · exact exec_keeps_memory_wf hc hs

/-- Settles O8: memory and queues are empty, no floor is fused and no firmware runs. -/
theorem resetMeetsTheInvariants : Obligations.ResetMeetsTheInvariants :=
  ⟨reset_memory_wf, ⟨Nat.zero_le _, fun _ => Nat.le_refl 0, fun h => absurd h (by decide)⟩, rfl, rfl, fun _ _ => ⟨rfl, rfl⟩⟩

/-- Settles O9: each register's word, read from its block's table at reset. -/
theorem resetRegisterValues : Obligations.ResetRegisterValues := by
  unfold Obligations.ResetRegisterValues
  decide +kernel

end Sys2Proof.Proofs
end

