-- ==== Sys2Proof/Proofs/ByteFields.lean ====
section
/-! PROOFS. Fields of bytes (spec/00 R12): what is read of a number written little-endian, and of a message of the image
protocol (spec/17 Table 17-2). -/

namespace Sys2Proof.Proofs

open Sys2Proof Sys2Proof.Machine Sys2Proof.Laws

/-! ### Numbers -/

@[simp] theorem toLe_length (n v : Nat) : (toLe n v).length = n := by
  induction n generalizing v with
  | zero => rfl
  | succ n ih => simp [toLe, ih]

theorem leNat_lt (b : Bytes) : leNat b < 256 ^ b.length := by
  induction b with
  | nil => exact Nat.one_pos
  | cons x b ih => have := x.isLt; simp only [leNat, List.length_cons, pow_succ]; omega

theorem leNat_toLe (n v : Nat) : leNat (toLe n v) = v % 256 ^ n := by
  induction n generalizing v with
  | zero => simp [toLe, leNat, Nat.mod_one]
  | succ n ih =>
    have hb : (BitVec.ofNat 8 v).toNat = v % 256 := BitVec.toNat_ofNat v 8
    rw [toLe, leNat, ih, hb, Nat.pow_succ', Nat.mod_mul]

theorem leNat_toLe_of_lt {n v : Nat} (h : v < 256 ^ n) : leNat (toLe n v) = v := by
  rw [leNat_toLe, Nat.mod_eq_of_lt h]

/-- The bytes of a number spell it again. -/
theorem toLe_leNat (b : Bytes) : toLe b.length (leNat b) = b := by
  induction b with
  | nil => rfl
  | cons x b ih =>
    have hx := x.isLt
    have hd : (x.toNat + 256 * leNat b) / 256 = leNat b := by omega
    have hm : BitVec.ofNat 8 (x.toNat + 256 * leNat b) = x := by
      apply BitVec.eq_of_toNat_eq
      rw [BitVec.toNat_ofNat]
      omega
    rw [List.length_cons, leNat, toLe, hd, ih, hm]

/-! ### Fields -/

theorem fld_lt (b : Bytes) (o n : Nat) : fld b o n < 256 ^ n :=
  Nat.lt_of_lt_of_le (leNat_lt _) (Nat.pow_le_pow_right (by decide) (by simp))

theorem fld_append_left {a : Bytes} {o n : Nat} (b : Bytes) (h : o + n ≤ a.length) : fld (a ++ b) o n = fld a o n := by
  have ho : o ≤ a.length := by omega
  have hn : n ≤ (a.drop o).length := by rw [List.length_drop]; omega
  rw [fld, fld, List.drop_append_of_le_length ho, List.take_append_of_le_length hn]

theorem fld_append_right {a : Bytes} {o : Nat} (b : Bytes) (n : Nat) (h : a.length ≤ o) :
    fld (a ++ b) o n = fld b (o - a.length) n := by
  obtain ⟨k, rfl⟩ : ∃ k, o = a.length + k := ⟨o - a.length, by omega⟩
  rw [fld, fld, List.drop_length_add_append, Nat.add_sub_cancel_left]

theorem fld_toLe (n v : Nat) : fld (toLe n v) 0 n = v % 256 ^ n := by
  have htake : ((toLe n v).drop 0).take n = toLe n v := List.take_of_length_le (by simp)
  rw [fld, htake, leNat_toLe]

/-! ### Messages of the image protocol -/

section
variable (typ target session seq status : Nat) (payload : Bytes)

theorem imgBytes_length : (imgBytes typ target session seq status payload).length = 16 + payload.length := by
  simp [imgBytes]; omega

theorem imgType_imgBytes : imgType (imgBytes typ target session seq status payload) = typ % 256 := leNat_toLe 1 typ

theorem fld_session_imgBytes : fld (imgBytes typ target session seq status payload) 4 4 = session % 2 ^ 32 :=
  leNat_toLe 4 session

theorem imgSession_imgBytes :
    imgSession (imgBytes typ target session seq status payload) = BitVec.ofNat 32 session := by
  rw [imgSession, fld_session_imgBytes]
  apply BitVec.eq_of_toNat_eq
  simp

theorem imgSeq_imgBytes : imgSeq (imgBytes typ target session seq status payload) = seq % 2 ^ 32 := leNat_toLe 4 seq

theorem fld_length_imgBytes : fld (imgBytes typ target session seq status payload) 12 2 = payload.length % 65536 :=
  leNat_toLe 2 payload.length

theorem fld_status_imgBytes : fld (imgBytes typ target session seq status payload) 14 2 = status % 65536 :=
  leNat_toLe 2 status

theorem imgBytes_drop : (imgBytes typ target session seq status payload).drop 16 = payload := rfl

/-- A field of the payload. -/
theorem fld_payload_imgBytes (o n : Nat) : fld (imgBytes typ target session seq status payload) (16 + o) n = fld payload o n := by
  rw [fld, ← List.drop_drop, imgBytes_drop, fld]

theorem imgOk_imgBytes (ht : [1, 2, 3, 4, 5, 0x10, 0x11].contains (typ % 256) = true) (hp : payload.length < 65536) :
    imgOk (imgBytes typ target session seq status payload) = true := by
  have hlen := imgBytes_length typ target session seq status payload
  have hver : fld (imgBytes typ target session seq status payload) 0 1 = 1 := rfl
  simp only [imgOk, hver, imgType_imgBytes, ht, fld_length_imgBytes, hlen, Nat.mod_eq_of_lt hp, Bool.and_true, Bool.and_eq_true,
    decide_eq_true_eq, decide_true]
  omega

end

theorem statusCode_lt (st : Status) : st.code < 256 := by cases st <;> decide

end Sys2Proof.Proofs
end

