-- ==== Sys2Proof/Proofs/Rollback.lean ====
section
/-! PROOFS. The security block in a step (spec/17 R440-R444): every step moves its fuses, its running firmware and its
download session in one of a few ways, and each of them keeps the module safe from rollback. -/

namespace Sys2Proof.Proofs

open Sys2Proof Sys2Proof.Machine Sys2Proof.Laws

/-! ### What trust rests on -/

/-- What of the security block the rollback rules speak of: the fuses, the SVN of the running bundle, how far boot is, and
the bundle staged with its verdict. -/
structure Trust where
  ownerSet : Bool
  ownerHash : Tab W64
  floor : BitVec 32
  raises : Nat
  svn : BitVec 32
  phase : BootPhase
  verdict : Status
  staging : List Host.Cell

/-- The trust state of a module. -/
def trust (s : State) : Trust where
  ownerSet := s.sec.ownerSet
  ownerHash := s.sec.ownerHash
  floor := s.sec.svnFloor
  raises := s.sec.raises
  svn := s.sec.svn
  phase := s.sec.phase
  verdict := s.sec.session.verdict
  staging := s.sec.session.staging

/-- The SVN that a staged bundle's header states. -/
def stagedSvn (m : List Host.Cell) : Nat := fld (memRead m 0 256) 8 4

/-- The fuses stand; the owner key hash only once it is set. -/
structure FusesStand (x y : Trust) : Prop where
  owner : y.ownerSet = x.ownerSet
  hash : x.ownerSet = true → y.ownerHash = x.ownerHash
  floor : y.floor = x.floor
  raises : y.raises = x.raises

/-- The ways in which a step can move the trust state. -/
inductive TrustStep (x y : Trust) : Prop where
  /-- Nothing changes. -/
  | stands (h : y = x)
  /-- The floor rises, up to the SVN of the firmware that runs (R443). -/
  | floorRises (n : BitVec 32) (running : x.phase = .running) (above : x.floor.toNat < n.toNat)
      (below : n.toNat ≤ x.svn.toNat) (few : x.raises < 64) (h : y = { x with floor := n, raises := x.raises + 1 })
  /-- The owner key hash is written or set (R444). -/
  | ownerFused (open_ : x.ownerSet = false) (h : y = { x with ownerSet := y.ownerSet, ownerHash := y.ownerHash })
  /-- Boot goes on and no firmware runs; a bundle that passes its check is not below the floor (R442). -/
  | boots (fuses : FusesStand x y) (idle : y.phase ≠ .running)
      (passed : y.phase = .decided → y.verdict = .ok → x.floor.toNat ≤ stagedSvn y.staging)
  /-- The bundle that passed its check runs (Table 17-1 steps 6 and 7). -/
  | handsOver (fuses : FusesStand x y) (decided : x.phase = .decided) (passed : x.verdict = .ok)
      (running : y.phase = .running) (svn : y.svn = BitVec.ofNat 32 (stagedSvn x.staging))

/-- A step of trust from one state to another. -/
def Trusts (s t : State) : Prop := TrustStep (trust s) (trust t)

theorem Trusts.of_trust {s t : State} (h : trust t = trust s) : Trusts s t := .stands h

theorem trust_of_sec {s t : State} (h : t.sec = s.sec) : trust t = trust s := by simp only [trust, h]

/-- Work that leaves the trust state alone, before or after a step. -/
theorem Trusts.after {s t u : State} (h : Trusts s t) (hu : trust u = trust t) : Trusts s u := by rwa [Trusts, hu]

theorem Trusts.before {s t u : State} (h : Trusts t u) (ht : trust t = trust s) : Trusts s u := by rwa [Trusts, ← ht]

/-- The mask of every part but the security block. -/
def butSec : Nat := 0x3FFFFF - 2 ^ partBit .sec

/-- A function whose frame leaves out the security block leaves the trust state alone. -/
theorem trust_of_fr {s t : State} (h : Fr butSec s t) : trust t = trust s := trust_of_sec (h.same .sec rfl)

theorem FusesStand.refl (x : Trust) : FusesStand x x := ⟨rfl, fun _ => rfl, rfl, rfl⟩

/-! ### Fuses -/

theorem trusts_svnRaise (s : State) (a : Agent) (v : W64) : Trusts s (svnRaise s a v) := by
  unfold svnRaise
  dsimp only
  split
  next h =>
    simp only [Bool.and_eq_true, decide_eq_true_eq] at h
    obtain ⟨⟨⟨⟨-, habove⟩, hbelow⟩, hrun⟩, hfew⟩ := h
    exact .floorRises _ hrun habove hbelow hfew rfl
  next => exact .of_trust (trust_of_fr (protWrite_fr (by decide) (Fr.refl _ _)))

theorem trusts_ownerProgram (s : State) (a : Agent) (v : W64) : Trusts s (ownerProgram s a v) := by
  unfold ownerProgram
  split
  next => exact .of_trust (trust_of_fr (protWrite_fr (by decide) (Fr.refl _ _)))
  next h =>
    have hopen : s.sec.ownerSet = false := by simp_all
    split
    next => exact .ownerFused hopen rfl
    next => exact .of_trust rfl

theorem trusts_ownerHash (s : State) (a : Agent) (v : W64) (i : Nat) :
    Trusts s (if a = .mgmt && !s.sec.ownerSet then modSec s fun x => { x with ownerHash := tabSet 0 x.ownerHash i v }
      else protWrite s (secBase + 0x80 + 8 * i) v) := by
  split
  next h => exact .ownerFused (by simp_all [trust]) rfl
  next => exact .of_trust (trust_of_fr (protWrite_fr (by decide) (Fr.refl _ _)))

theorem trust_extCtlWrite (s : State) (a : Agent) (v : W64) : trust (extCtlWrite s a v) = trust s := by
  unfold extCtlWrite
  split
  next => exact trust_of_fr (protWrite_fr (by decide) (Fr.refl _ _))
  next =>
    dsimp only
    split
    next => rfl
    next =>
      split
      next => rfl
      next => exact (trust_of_fr (protWrite_fr (by decide) (Fr.refl _ _))).trans rfl

/-! ### Register writes -/

/-- Every row of a table of writes moves the trust state in a permitted way. -/
def RowsTrust (s : State) (l : WriteRows) : Prop := ∀ r ∈ l, ∀ i, Trusts s (r.at_ i)

theorem RowsTrust.of_fr {s : State} {l : WriteRows} (h : RowsFr butSec s l) : RowsTrust s l :=
  fun r hr i => .of_trust (trust_of_fr (h r hr i))

theorem RowsTrust.find {s : State} {l : WriteRows} (h : RowsTrust s l) (off : Nat) : Trusts s ((regFind l off).getD s) := by
  cases hf : regFind l off with
  | none => exact .of_trust rfl
  | some t =>
    obtain ⟨r, hr, ht⟩ := List.exists_of_findSome?_eq_some hf
    obtain ⟨i, -, rfl⟩ := Option.map_eq_some_iff.1 ht
    exact h r hr i

theorem rowsTrust_writeSec (s : State) (a : Agent) (v : W64) : RowsTrust s (writeSec s a v) := by
  intro r hr i
  simp only [writeSec, List.mem_cons, List.not_mem_nil, or_false] at hr
  obtain rfl | rfl | rfl | rfl | rfl | rfl := hr
  · exact trusts_svnRaise s a v
  · show Trusts s (byAgent s a _)
    unfold byAgent
    split <;> exact .of_trust rfl
  · exact trusts_ownerHash s a v i
  · exact trusts_ownerProgram s a v
  · show Trusts s (if _ then _ else _)
    split
    · exact .of_trust rfl
    · exact .of_trust (trust_of_fr (protWrite_fr (by decide) (Fr.refl _ _)))
  · exact .of_trust (trust_extCtlWrite s a v)

/-- Only the SEC block's registers reach the trust state. -/
theorem rowsTrust_writeBlock (s : State) (a : Agent) (v : W64) (b : Block) : RowsTrust s (writeBlock s a v b) := by
  cases b <;> dsimp only [writeBlock]
  case sec => exact rowsTrust_writeSec s a v
  case hub =>
    refine .of_fr (.cons (fun _ => ?_) .nil)
    exact byAgent_fr (by decide) (fun t ht => RowsFr.find (writeHub_fr (by decide) (Fr.refl _ _)) ht _) (Fr.refl _ _)
  case pur => exact .of_fr (writePur_fr (by decide) (Fr.refl _ _))
  case prt => exact .of_fr (writePrt_fr (by decide) (Fr.refl _ _))
  case pwr => exact .of_fr (writePwr_fr (by decide) (Fr.refl _ _))
  case fry => exact .of_fr (writeFry_fr (by decide) (Fr.refl _ _))
  case slp => exact .of_fr (writeSlp_fr (by decide) (Fr.refl _ _))
  case grd => exact .of_fr (writeGrd_fr (by decide) (Fr.refl _ _))
  case por => exact .of_fr .nil
  case evt => exact .of_fr (writeEvt_fr (by decide) (Fr.refl _ _))
  case core => exact .of_fr (writeCore_fr (by decide) (Fr.refl _ _))
  case cluster => exact .of_fr (writeCluster_fr (by decide) (Fr.refl _ _))
  case brg => exact .of_fr (writeBrg_fr (by decide) (Fr.refl _ _))
  case gth => exact .of_fr (writeGth_fr (by decide) (Fr.refl _ _))
  case hbm => exact .of_fr (writeHbm_fr (by decide) (Fr.refl _ _))

theorem trusts_regWrite {s t : State} {a : Agent} {addr : Nat} {v : W64} (h : regWrite s a addr v = some t) :
    Trusts s t := by
  unfold regWrite at h
  split at h
  next => cases h
  next =>
    split at h
    next => cases h; exact .of_trust (trust_of_fr (protWrite_fr (by decide) (Fr.refl _ _)))
    next => cases h; exact (rowsTrust_writeBlock s a v _).find _

/-! ### The download session -/

theorem trusts_takeOffer (s : State) (via : ImgVia) (b : Bytes) : Trusts s (takeOffer s via b) := by
  unfold takeOffer
  dsimp only
  split
  · exact .boots ⟨rfl, fun _ => rfl, rfl, rfl⟩ (by simp [trust, modSec]) (by simp [trust, modSec])
  · exact .of_trust rfl

/-- A head check that finds nothing has found the SVN not below the floor. -/
theorem svnFloor_le_of_headCheck {s : State} {size : Nat} {m : Bytes} (h : headCheck s size m = none) :
    s.sec.svnFloor.toNat ≤ fld (m.take 256) 8 4 := by
  unfold headCheck at h
  dsimp only at h
  repeat' split at h
  all_goals first | exact Nat.le_of_not_lt ‹_› | cases h

/-- The head check ends with a failure or not at all. -/
theorem ne_ok_of_headCheck {s : State} {size : Nat} {m : Bytes} {r : Status × Bool} (h : headCheck s size m = some r) :
    r.1 ≠ .ok := by
  unfold headCheck at h
  dsimp only at h
  repeat' split at h
  all_goals cases h
  all_goals exact nofun

/-- A bundle that passes the check of R442 is not below the fused floor. -/
theorem svnFloor_le_of_verdict_ok {s : State} {x : Session} {hashed : Bool} (h : verdict s x = some (.ok, hashed)) :
    s.sec.svnFloor.toNat ≤ stagedSvn x.staging := by
  unfold verdict at h
  split at h
  · cases h
  · dsimp only at h
    split at h
    · cases h
    · split at h
      next r hr => exact absurd (congrArg Prod.fst (Option.some.inj h)) (ne_ok_of_headCheck hr)
      next hnone =>
        have hle := svnFloor_le_of_headCheck hnone
        have htake := memRead_drop_take x.staging 0 (832 + 64 * leNat (memRead x.staging 16 2)) 0 256 (by omega)
        rw [List.drop_zero, Nat.add_zero] at htake
        rwa [htake] at hle

/-- The end of a check: boot stands at the verdict. -/
theorem trust_decide (s : State) (st : Status) (hashed : Bool) :
    trust (decide_ s st hashed) = { trust s with phase := .decided, verdict := st } := by
  have hext (u : State) (k : Nat) (d : Bytes) : trust (extend u k d) = trust u := rfl
  unfold decide_
  dsimp only
  split
  · simp only [List.foldl_cons, List.foldl_nil]
    repeat' split
    all_goals rfl
  · exact (trust_of_fr (raise_fr (by decide) (Fr.refl _ _))).trans rfl

theorem trusts_decide {s u : State} {st : Status} {hashed : Bool} (hu : FusesStand (trust s) (trust u))
    (h : st = .ok → s.sec.svnFloor.toNat ≤ stagedSvn u.sec.session.staging) : Trusts s (decide_ u st hashed) := by
  obtain ⟨ho, hh, hf, hr⟩ := hu
  rw [Trusts, trust_decide]
  exact .boots ⟨ho, hh, hf, hr⟩ nofun fun _ => h

theorem trusts_bundleBlock (s : State) (b : Bytes) (bad : Option Nat) : Trusts s (bundleBlock s b bad) := by
  unfold bundleBlock
  dsimp only
  split
  next hcond =>
    simp only [Bool.and_eq_true, decide_eq_true_eq] at hcond
    obtain ⟨⟨⟨⟨⟨⟨hopen, -⟩, -⟩, -⟩, -⟩, -⟩, -⟩ := hcond
    split
    next => exact trusts_decide ⟨rfl, fun _ => rfl, rfl, rfl⟩ nofun
    next =>
      split
      next st hashed hv =>
        exact trusts_decide ⟨rfl, fun _ => rfl, rfl, rfl⟩ fun hok => svnFloor_le_of_verdict_ok (hok ▸ hv)
      next => exact .boots ⟨rfl, fun _ => rfl, rfl, rfl⟩ (by simp [trust, modSec, hopen]) (by simp [trust, modSec, hopen])
  next => exact .of_trust rfl

theorem trusts_solicit (s : State) : Trusts s (solicit s) := by
  unfold solicit
  split
  next => exact .of_trust rfl
  next =>
    have hboot : Trusts s (modSec s fun x => { x with phase := .soliciting }) :=
      .boots ⟨rfl, fun _ => rfl, rfl, rfl⟩ nofun nofun
    dsimp only
    split <;> split
    · exact hboot.after ((trust_of_fr (sendMgmt_fr (by decide) (Fr.refl _ _))).trans rfl)
    · exact hboot.after rfl
    · exact hboot.after (trust_of_fr (sendMgmt_fr (by decide) (Fr.refl _ _)))
    · exact hboot

theorem trusts_sessionAbandon (s : State) : Trusts s (sessionAbandon s) := by
  unfold sessionAbandon
  split
  · exact .boots ⟨rfl, fun _ => rfl, rfl, rfl⟩ nofun nofun
  · exact .of_trust rfl

theorem trusts_bootStart (s : State) (straps : BitVec 6) : Trusts s (bootStart s straps) := by
  unfold bootStart
  split
  · exact .of_trust rfl
  · exact .boots ⟨rfl, fun _ => rfl, rfl, rfl⟩ nofun nofun

theorem trust_startLoader (s : State) : trust (startLoader s).2 = trust s :=
  trust_of_fr (startLoader_fr (by decide) (Fr.refl _ _))

theorem trust_handOver (s : State) : trust (handOver s) = { trust s with
    phase := .running, verdict := .ok, staging := [], svn := BitVec.ofNat 32 (stagedSvn s.sec.session.staging) } :=
  trust_startLoader _

/-- DONE of the session's check. -/
def doneBytes (s : State) : Bytes :=
  imgBytes 5 (ownModule s) s.sec.session.id.toNat 0 s.sec.session.verdict.code s.sec.session.digest

/-- DONE has gone out once more. -/
def doneCounted (s : State) : State :=
  modSec (imgReply s s.sec.session.via (doneBytes s)) fun y =>
    { y with session := { s.sec.session with dones := s.sec.session.dones + 1 } }

theorem doneSend_of_decided {s : State} (h : s.sec.phase = .decided) :
    doneSend s = if s.sec.session.dones < 2 then doneCounted s
      else if s.sec.session.verdict = .ok then handOver (doneCounted s)
      else modSec (doneCounted s) fun y => { y with phase := .restart, session := {} } :=
  if_neg (fun hne => hne h)

theorem doneCounted_sec (s : State) : (doneCounted s).sec = { s.sec with
    session := { s.sec.session with dones := s.sec.session.dones + 1 } } := by
  have hsec : (imgReply s s.sec.session.via (doneBytes s)).sec = s.sec :=
    (imgReply_fr (mk := butSec) (by decide) (Fr.refl _ _)).same .sec rfl
  simp only [doneCounted, modSec, hsec]

/-- DONE only carries the outcome on; the third one of a bundle that passed hands over. -/
theorem trusts_doneSend (s : State) : Trusts s (doneSend s) := by
  have hsent : trust (doneCounted s) = trust s := by simp only [trust, doneCounted_sec]
  by_cases hdec : s.sec.phase = .decided
  · rw [doneSend_of_decided hdec]
    split
    next => exact .of_trust hsent
    next =>
      split
      next hok =>
        refine Trusts.before ?_ hsent
        rw [Trusts, trust_handOver]
        exact .handsOver ⟨rfl, fun _ => rfl, rfl, rfl⟩ ((congrArg Trust.phase hsent).trans hdec)
          ((congrArg Trust.verdict hsent).trans hok) rfl rfl
      next => exact Trusts.before (t := doneCounted s) (.boots ⟨rfl, fun _ => rfl, rfl, rfl⟩ nofun nofun) hsent
  · have hstay : doneSend s = s := if_pos hdec
    rw [hstay]
    exact .of_trust rfl

/-! ### The management path -/

theorem trust_keepResponse (s : State) (session seq : BitVec 32) (b : Bytes) : trust (keepResponse s session seq b) = trust s :=
  rfl

theorem trust_imgReply (s : State) (via : ImgVia) (b : Bytes) : trust (imgReply s via b) = trust s :=
  trust_of_fr (imgReply_fr (by decide) (Fr.refl _ _))

theorem trusts_mgmtAccess (s : State) (op addr : Nat) (data : W64) : Trusts s (mgmtAccess s op addr data).2.2 := by
  have hraise (b : Bytes) : Trusts s (raise s .badAccess srcNone b) := .of_trust (trust_of_fr (raise_fr (by decide) (Fr.refl _ _)))
  unfold mgmtAccess
  split
  · split
    · exact hraise _
    · split
      · exact .of_trust rfl
      · exact .of_trust (trust_of_fr (afterRead_fr (by decide) (Fr.refl _ _)))
  · split
    · exact hraise _
    · split
      · cases hx : regWrite s .mgmt addr data with
        | none => exact .of_trust rfl
        | some t => exact trusts_regWrite hx
      · split
        · exact .of_trust (trust_of_fr (protWrite_fr (by decide) (Fr.refl _ _)))
        · exact .of_trust rfl
  · exact .of_trust rfl

theorem trusts_mgmtReq (s : State) (via : ImgVia) (b : Bytes) : Trusts s (mgmtReq s via b) := by
  unfold mgmtReq
  dsimp only
  split
  · exact .of_trust rfl
  · split
    · exact .of_trust (trust_imgReply _ _ _)
    · exact (trusts_mgmtAccess s _ _ _).after (trust_imgReply _ _ _)

theorem trusts_mgmtFrame (s : State) (f : FFrame) (cached : Bool) (bad : Option Nat) : Trusts s (mgmtFrame s f cached bad) := by
  unfold mgmtFrame
  split
  · exact .of_trust rfl
  · split
    · exact .of_trust rfl
    · dsimp only
      split
      · exact trusts_takeOffer s _ _
      · exact trusts_bundleBlock s _ _
      · exact trusts_mgmtReq s _ _
      · exact .of_trust rfl

/-- A row of a data frame: accepting the frame leaves the trust state alone. -/
theorem trusts_dataRow {s : State} {p : Nat} {f : FFrame} {op : Nat} {g : State → State} (hg : ∀ t, Trusts t (g t)) :
    Trusts s (dataRow s p f op g) := by
  unfold dataRow
  split
  · exact .of_trust rfl
  · have hacc : trust (acceptData s p f).1 = trust s := trust_of_fr (acceptData_fr (by decide) (Fr.refl _ _))
    split
    next t ht => rw [ht] at hacc; exact (hg t).before hacc
    next t ht => rw [ht] at hacc; exact .of_trust hacc

/-- A row of a datagram. -/
theorem trusts_datagram {s : State} {d : Datagram} {f : State → State} (hf : Trusts s (f s)) : Trusts s (datagram s d f) := by
  unfold datagram
  split
  · exact .of_trust rfl
  · split
    · exact .of_trust (trust_of_fr (raise_fr (by decide) (Fr.refl _ _)))
    · split
      · exact hf
      · exact .of_trust rfl

theorem trust_sendMgmt (s : State) (x : Nat) (b : Bytes) : trust (sendMgmt s x b) = trust s :=
  trust_of_fr (sendMgmt_fr (by decide) (Fr.refl _ _))

theorem trust_relayHost (s : State) (d : Datagram) : trust (relayHost s d) = trust s := by
  unfold relayHost
  dsimp only
  split
  · rfl
  · exact trust_sendMgmt _ _ _

theorem trust_serveOffer (s : State) (x : Nat) : trust (serveOffer s x) = trust s := by
  have hrun : trust (runActVal cacheSize s).2 = trust s :=
    trust_of_fr (AFr.val (cacheSize_fr (by decide)) (Fr.refl _ _))
  unfold serveOffer
  split
  next h => rw [h] at hrun; exact hrun
  next h => rw [h] at hrun; exact (trust_sendMgmt _ _ _).trans hrun

theorem trust_relayMember (s : State) (x : Nat) (b : Bytes) : trust (relayMember s x b) = trust s := by
  unfold relayMember
  dsimp only
  split
  · exact trust_serveOffer s x
  · split
    · exact trust_of_fr (serveMissing_fr (by decide) (Fr.refl _ _))
    · split
      · rfl
      · split <;> rfl

theorem trusts_relay (s : State) (d : Option Datagram) : Trusts s (relay s d) := by
  unfold relay
  split
  · exact .of_trust rfl
  · split
    · exact trusts_datagram (.of_trust (trust_relayHost s _))
    · split
      · exact .of_trust rfl
      · exact .of_trust (trust_relayMember _ _ _)

/-! ### Resets -/

theorem trusts_freshModule (s : State) : Trusts s (freshModule s) :=
  .boots ⟨rfl, fun h => if_pos h, rfl, rfl⟩ nofun nofun

theorem trusts_powerOn (s : State) : Trusts s (powerOn s) := by
  unfold powerOn
  split
  · exact (trusts_freshModule s).after rfl
  · exact .of_trust rfl

theorem trusts_moduleReset (s : State) (l : TripLevels) : Trusts s (moduleReset s l) := by
  unfold moduleReset
  split
  · exact .of_trust rfl
  · split
    · exact trusts_freshModule s
    · exact .of_trust rfl
  · exact trusts_freshModule s

theorem trusts_trip (s : State) (c : TripCause) : Trusts s (trip s c) := by
  unfold trip
  split
  · exact .of_trust rfl
  · exact .of_trust rfl
  · exact (trusts_freshModule s).after rfl

/-- A warm reset keeps the running firmware and the fuses. -/
theorem trust_resetWarm (s : State) (c : PCmd) : trust (resetWarm s c) = trust s := by
  have hevent : trust (dropWork (resetEvent s 1 0)) = trust s :=
    (trust_of_fr (raise_fr (by decide) (Fr.refl _ _)) : trust (resetEvent s 1 0) = trust s)
  have hlost (u : State) (l : List (Nat × Nat)) : trust (l.foldl (fun s k => pathLost s k.1 k.2) u) = trust u :=
    trust_of_fr (Fr.foldl (fun t k ht => pathLost_fr (by decide) ht) l (Fr.refl _ u))
  have hclear (u : State) : trust (clearStores u) = trust u := trust_of_fr (clearStores_fr (by decide) (Fr.refl _ _))
  have hwarm (u : State) : trust (warmRegisters u) = trust u := rfl
  have hopen (u : State) (m : Nat) (q : BitVec 16) : trust (reopen u m q) = trust u := rfl
  unfold resetWarm
  dsimp only
  rw [trust_of_fr (writeCpl_fr (by decide) (Fr.refl _ _)), trust_of_fr (takeFree_fr (by decide) (Fr.refl _ _)), hopen,
    trust_startLoader, hwarm, hclear, hlost, hevent]

/-- A row of a purser command does nothing, or what it does with a command. -/
theorem startRow_elim {P : State → Prop} {s : State} {id op : Nat} {f : PCmd → State} (h : P s) (hf : ∀ c, P (f c)) :
    P (startRow s id op f) := by
  unfold startRow
  split
  · exact h
  · split
    · exact hf _
    · exact h

theorem trust_resetWarmCmd (s : State) (id : Nat) : trust (resetWarmCmd s id) = trust s := by
  have hend (st : Status) : trust (endPlain s id st) = trust s := trust_of_fr (endPlain_fr (by decide) (Fr.refl _ _))
  refine startRow_elim (P := fun t => trust t = trust s) rfl fun c => ?_
  split
  · exact hend _
  · split
    · dsimp only
      split
      · exact hend _
      · exact trust_resetWarm s c
    · rfl

/-! ### Every step -/

/-- A command moves the trust state in a permitted way; most do not list the security block among the parts they touch. -/
theorem trusts_exec {i : Instr} {s t : State} (h : exec i s = .next t) : Trusts s t := by
  by_cases hsec : Part.sec ∈ touches i
  · cases i
    case registerWrite a addr v =>
      rw [exec_registerWrite] at h
      unfold execRegisterWrite at h
      split at h
      next u hu => cases h; exact trusts_regWrite hu
      next => cases h
    case resetWarm id => cases h; exact .of_trust (trust_resetWarmCmd s id)
    case ferryMgmt p f cached bad => cases h; exact trusts_dataRow fun u => trusts_mgmtFrame u f cached bad
    case mgmtReq d => cases h; exact trusts_datagram (trusts_mgmtReq s _ _)
    case bootStart straps => cases h; exact trusts_bootStart s straps
    case solicit => cases h; exact trusts_solicit s
    case offer d => cases h; exact trusts_datagram (trusts_takeOffer s _ _)
    case block d bad => cases h; exact trusts_datagram (trusts_bundleBlock s _ _)
    case svnFloorRaise a v => cases h; exact trusts_svnRaise s a v
    case ownerHashProgram a v => cases h; exact trusts_ownerProgram s a v
    case measurementExtend a v => cases h; exact .of_trust (trust_extCtlWrite s a v)
    case sessionAbandon => cases h; exact trusts_sessionAbandon s
    case imageDoneSend => cases h; exact trusts_doneSend s
    case imageMessageRelay d => cases h; exact trusts_relay s d
    case powerOn => cases h; exact trusts_powerOn s
    case powerDown => cases h; exact (trusts_freshModule s).after rfl
    case moduleReset l => cases h; exact trusts_moduleReset s l
    case trip c => cases h; exact trusts_trip s c
    all_goals exact absurd hsec (by dsimp only [touches]; decide)
  · exact .of_trust (trust_of_sec (exec_same h .sec hsec))

theorem trusts_step {s t : State} (h : step s = .next t) : Trusts s t := by
  obtain rfl | ⟨c, rest, _, hc⟩ := step_cases h
  · exact .of_trust rfl
  · exact (trusts_exec hc).before rfl

/-! ### The obligations -/

theorem rollbackSafe_iff (s : State) : Claim.rollbackSafe s ↔ (trust s).raises ≤ 64 ∧
    ((trust s).phase = .running → (trust s).floor.toNat ≤ (trust s).svn.toNat) ∧
    ((trust s).phase = .decided → (trust s).verdict = .ok → (trust s).floor.toNat ≤ stagedSvn (trust s).staging) := Iff.rfl

/-- A field of four bytes fits its register. -/
theorem stagedSvn_lt (m : List Host.Cell) : stagedSvn m < 2 ^ 32 := fld_lt _ 8 4

/-- Settles O6: each permitted move of the trust state keeps the floor at or below what runs and what may come to run. -/
theorem noStepRollsBack : Obligations.NoStepRollsBack := by
  intro s t hs h
  rw [rollbackSafe_iff] at hs ⊢
  obtain ⟨hraises, hrun, hpass⟩ := hs
  cases trusts_step h with
  | stands h => rw [h]; exact ⟨hraises, hrun, hpass⟩
  | floorRises n running above below few h =>
    rw [h]
    refine ⟨few, fun _ => below, fun hdec => ?_⟩
    exact absurd (running.symm.trans hdec) nofun
  | ownerFused open_ h => rw [h]; exact ⟨hraises, hrun, hpass⟩
  | boots fuses idle passed =>
    exact ⟨fuses.raises ▸ hraises, fun hr => absurd hr idle, fuses.floor ▸ passed⟩
  | handsOver fuses decided passed running svn =>
    refine ⟨fuses.raises ▸ hraises, fun _ => ?_, fun hdec => absurd (running.symm.trans hdec) nofun⟩
    rw [svn, fuses.floor, BitVec.toNat_ofNat, Nat.mod_eq_of_lt (stagedSvn_lt _)]
    exact hpass decided passed

/-- Settles O7: the fuses stand in every permitted move but a raise of the floor and the fusing of the owner key hash. -/
theorem fusesOnlyMoveForward : Obligations.FusesOnlyMoveForward := by
  intro s t h
  show (trust s).floor.toNat ≤ (trust t).floor.toNat ∧ (trust s).raises ≤ (trust t).raises ∧
    ((trust s).ownerSet = true → (trust t).ownerSet = true ∧ (trust t).ownerHash = (trust s).ownerHash)
  have hstand (hf : FusesStand (trust s) (trust t)) : (trust s).floor.toNat ≤ (trust t).floor.toNat ∧
      (trust s).raises ≤ (trust t).raises ∧
      ((trust s).ownerSet = true → (trust t).ownerSet = true ∧ (trust t).ownerHash = (trust s).ownerHash) :=
    ⟨hf.floor ▸ Nat.le_refl _, hf.raises.ge, fun ho => ⟨hf.owner.trans ho, hf.hash ho⟩⟩
  cases trusts_step h with
  | stands h => exact hstand (h ▸ FusesStand.refl _)
  | floorRises n running above below few h => rw [h]; exact ⟨above.le, Nat.le_succ _, fun ho => ⟨ho, rfl⟩⟩
  | ownerFused open_ h => rw [h]; exact ⟨Nat.le_refl _, Nat.le_refl _, fun ho => absurd (open_.symm.trans ho) nofun⟩
  | boots fuses idle passed => exact hstand fuses
  | handsOver fuses decided passed running svn => exact hstand fuses

end Sys2Proof.Proofs
end

