-- ==== Sys2Proof/Proofs/Nanosecond.lean ====
section
/-! PROOFS. A step on an empty queue (log 35): one nanosecond of the buckets of every partition (spec/14 R360). -/

namespace Sys2Proof.Proofs

open Sys2Proof Sys2Proof.Machine Sys2Proof.Laws

/-- A partition after a nanosecond. -/
def tickPart (x : Partition) : Partition := { x with buckets := tabMap (fun _ b => b.tick) x.buckets }

theorem getPart_tick (s : State) (p : Nat) : getPart (Machine.tick s) p = tickPart (getPart s p) :=
  tabGet_tabMap ({} : Partition) (fun _ => tickPart) s.prt.parts p rfl

theorem tabGet_buckets_tick (x : Partition) (k : Nat) :
    tabGet {} (tickPart x).buckets k = (tabGet {} x.buckets k).tick :=
  tabGet_tabMap {} (fun _ b => b.tick) x.buckets k rfl

/-- Draining admits a first part of the pieces that wait, pays for it, and stops only below zero. -/
theorem drain_admits (w : List Nat) (x : Int) : ∃ n, (drain x w).2 = w.drop n ∧
    (drain x w).1 = x - 1000 * ((w.take n).sum : Int) ∧ ((drain x w).2 ≠ [] → (drain x w).1 < 0) := by
  induction w generalizing x with
  | nil => exact ⟨0, rfl, by simp [drain], fun h => absurd rfl h⟩
  | cons m w ih =>
    unfold drain
    by_cases hx : 0 ≤ x
    · rw [if_pos hx]
      obtain ⟨n, hrest, hpaid, hstop⟩ := ih (x - 1000 * m)
      refine ⟨n + 1, hrest, ?_, hstop⟩
      rw [hpaid, List.take_succ_cons, List.sum_cons]
      push_cast
      omega
    · rw [if_neg hx]
      exact ⟨0, rfl, by simp, fun _ => by omega⟩

/-- Settles O2: the tick is the counter's, the buckets' and the input buffer's. -/
theorem idleStepIsOneNanosecond : Obligations.IdleStepIsOneNanosecond := by
  intro s h
  refine ⟨tick s, step_nil h, rfl, rfl, fun p k => ?buckets, fun x w => drain_admits w x, fun p => ?parts, rfl, rfl⟩
  case buckets => rw [getPart_tick, tabGet_buckets_tick]; rfl
  case parts => rw [getPart_tick]; exact ⟨rfl, rfl⟩

end Sys2Proof.Proofs
end

