-- ==== Sys2Proof/Proofs/Work.lean ====
section
/-! PROOFS. Work that may stop with a status: how it runs in sequence, and what reads and writes of the unified range come to
where memory holds no uncorrectable word (spec/07 R182, R492, spec/14 R351, R360). -/

namespace Sys2Proof.Proofs

open Sys2Proof Sys2Proof.Machine Sys2Proof.Laws

/-! ### Running work -/

section
variable {α β : Type}

@[simp] theorem runActVal_pure (x : α) (s : State) : runActVal (pure x) s = (.ok x, s) := rfl

@[simp] theorem runActVal_throw (e : Status) (s : State) : runActVal (throw e : Act α) s = (.error e, s) := rfl

@[simp] theorem runActVal_get (s : State) : runActVal (get : Act State) s = (.ok s, s) := rfl

@[simp] theorem runActVal_set (s t : State) : runActVal (set t : Act PUnit) s = (.ok (), t) := rfl

@[simp] theorem runActVal_actMod (f : State → State) (s : State) : runActVal (actMod f) s = (.ok (), f s) := rfl

@[simp] theorem runActVal_modify (f : State → State) (s : State) : runActVal (modify f : Act PUnit) s = (.ok (), f s) := rfl

theorem runActVal_bind (a : Act α) (k : α → Act β) (s : State) : runActVal (a >>= k) s =
    match runActVal a s with
    | (.ok x, t) => runActVal (k x) t
    | (.error e, t) => (.error e, t) := by
  simp only [runActVal, ExceptT.run, bind, ExceptT.bind, ExceptT.mk, StateT.bind, ExceptT.bindCont]
  rcases a s with ⟨r, u⟩
  cases r <;> rfl

/-- Work in sequence, after a first part that ends well. -/
theorem runActVal_bind_ok {a : Act α} {k : α → Act β} {s t : State} {x : α} (h : runActVal a s = (.ok x, t)) :
    runActVal (a >>= k) s = runActVal (k x) t := by rw [runActVal_bind, h]

/-- Work in sequence, after a first part that stops. -/
theorem runActVal_bind_error {a : Act α} {k : α → Act β} {s t : State} {e : Status} (h : runActVal a s = (.error e, t)) :
    runActVal (a >>= k) s = (.error e, t) := by rw [runActVal_bind, h]

@[simp] theorem runActVal_get_bind (k : State → Act β) (s : State) : runActVal (get >>= k) s = runActVal (k s) s := rfl

@[simp] theorem runActVal_set_bind (t : State) (k : PUnit → Act β) (s : State) :
    runActVal ((set t : Act PUnit) >>= k) s = runActVal (k ()) t := rfl

@[simp] theorem runActVal_stopIf_false (st : Status) (s : State) : runActVal (stopIf false st) s = (.ok (), s) := rfl

@[simp] theorem runActVal_stopIf_true (st : Status) (s : State) : runActVal (stopIf true st) s = (.error st, s) := rfl

theorem runActVal_map (f : α → β) (a : Act α) (s : State) : runActVal (f <$> a) s =
    match runActVal a s with
    | (.ok x, t) => (.ok (f x), t)
    | (.error e, t) => (.error e, t) := by
  simp only [runActVal, ExceptT.run, Functor.map, ExceptT.map, ExceptT.mk, StateT.bind, bind]
  rcases a s with ⟨r, u⟩
  cases r <;> rfl

theorem runAct_ok {a : Act Unit} {s t : State} (h : runActVal a s = (.ok (), t)) : runAct a s = (.ok, t) := by
  unfold runAct
  unfold runActVal at h
  rw [h]

theorem runAct_error {a : Act Unit} {s t : State} {e : Status} (h : runActVal a s = (.error e, t)) : runAct a s = (e, t) := by
  unfold runAct
  unfold runActVal at h
  rw [h]

theorem runActSt_ok {a : Act Status} {s t : State} {st : Status} (h : runActVal a s = (.ok st, t)) :
    runActSt a s = (st, t) := by
  unfold runActSt
  unfold runActVal at h
  rw [h]

theorem runActSt_error {a : Act Status} {s t : State} {e : Status} (h : runActVal a s = (.error e, t)) :
    runActSt a s = (e, t) := by
  unfold runActSt
  unfold runActVal at h
  rw [h]

theorem runAct_snd (a : Act Unit) (s : State) : (runAct a s).2 = (runActVal a s).2 := by
  rcases h : runActVal a s with ⟨x | x, t⟩
  · rw [runAct_error h]
  · rw [runAct_ok h]

theorem runActSt_snd (a : Act Status) (s : State) : (runActSt a s).2 = (runActVal a s).2 := by
  rcases h : runActVal a s with ⟨x | x, t⟩
  · rw [runActSt_error h]
  · rw [runActSt_ok h]

end

/-- One piece of a write, and whether a word was met that keeps everything. -/
def putPiece (w : Who) (a : Nat) (b : Bytes) (acc : State × Bool) (p : Nat × Nat) : State × Bool :=
  ((wrPiece acc.1 w p.1 ((b.drop (p.1 - a)).take p.2)).1, acc.2 || (wrPiece acc.1 w p.1 ((b.drop (p.1 - a)).take p.2)).2)

theorem wr_eq (w : Who) (a : Nat) (b : Bytes) : wr w a b = (do
    let s ← get
    stopIf (!mayAccess s w a b.length true) .internal
    set ((pieces a b.length).foldl (putPiece w a b) (s, false)).1
    stopIf ((pieces a b.length).foldl (putPiece w a b) (s, false)).2 .eccUncorrectable) := rfl

/-! ### A relation that work keeps -/

/-- Work that stands in a relation to the state it starts from, however it ends. -/
structure Keeps {α : Type} (R : State → State → Prop) (a : Act α) : Prop where
  of (s : State) : R s (runActVal a s).2

/-- A relation between states that work in sequence adds up to. -/
structure Steady (R : State → State → Prop) : Prop where
  refl (s : State) : R s s
  trans {s t u : State} : R s t → R t u → R s u

section
variable {α β : Type} {R : State → State → Prop} (hR : Steady R)

include hR in
theorem Keeps.pure (x : α) : Keeps R (Pure.pure x : Act α) := ⟨hR.refl⟩

include hR in
theorem Keeps.throw (e : Status) : Keeps R (throw e : Act α) := ⟨hR.refl⟩

include hR in
theorem Keeps.stopIf (b : Bool) (e : Status) : Keeps R (stopIf b e) := by
  cases b <;> exact ⟨hR.refl⟩

include hR in
theorem Keeps.bind {a : Act α} {k : α → Act β} (ha : Keeps R a) (hk : ∀ x, Keeps R (k x)) : Keeps R (a >>= k) := by
  refine ⟨fun s => ?_⟩
  have h1 := ha.of s
  rw [runActVal_bind]
  split
  next x t h => rw [h] at h1; exact hR.trans h1 ((hk x).of t)
  next e t h => rw [h] at h1; exact h1

/-- Work that reads the state first. -/
theorem Keeps.get_bind {k : State → Act β} (hk : ∀ s, R s (runActVal (k s) s).2) : Keeps R (get >>= k) := ⟨hk⟩

include hR in
theorem Keeps.foldlM {f : β → α → Act β} (hf : ∀ b x, Keeps R (f b x)) (l : List α) (b : β) : Keeps R (l.foldlM f b) := by
  induction l generalizing b with
  | nil => exact Keeps.pure hR b
  | cons x l ih => exact Keeps.bind hR (hf b x) ih

/-- A fold that keeps a relation at every step. -/
theorem Steady.foldl {f : State → α → State} (hR : Steady R) (hf : ∀ s x, R s (f s x)) (l : List α) (s : State) :
    R s (l.foldl f s) := by
  induction l generalizing s with
  | nil => exact hR.refl s
  | cons x l ih => exact hR.trans (hf s x) (ih _)

/-- A read keeps what finding an uncorrectable word and charging a piece keep. -/
theorem Keeps.rd (hR : Steady R) (hbad : ∀ s w a, R s (noteBad s w a)) (hcharge : ∀ s w a n, R s (chargeHbm s w a n)) (w : Who) (a n : Nat) : Keeps R (rd w a n) := by
  have hpiece (a n : Nat) : Keeps R (rdPiece w a n) := by
    refine Keeps.get_bind fun s => ?_
    split
    · exact hbad s w _
    · exact hcharge s w a n
  refine Keeps.get_bind fun s => (Keeps.bind hR (Keeps.stopIf hR _ _) fun _ => ?_).of s
  exact Keeps.foldlM hR (fun b x => Keeps.bind hR (hpiece _ _) fun _ => Keeps.pure hR _) _ _

/-- A write keeps what the writing of a piece keeps. -/
theorem Keeps.wr (hR : Steady R) (hpiece : ∀ s w a b, R s (wrPiece s w a b).1) (w : Who) (a : Nat) (b : Bytes) : Keeps R (wr w a b) := by
  rw [wr_eq]
  refine Keeps.get_bind fun s => ?_
  have hfold (l : List (Nat × Nat)) (acc : State × Bool) : R acc.1 (l.foldl (putPiece w a b) acc).1 := by
    induction l generalizing acc with
    | nil => exact hR.refl _
    | cons p l ih => exact hR.trans (hpiece acc.1 w _ _) (ih (putPiece w a b acc p))
  by_cases hm : mayAccess s w a b.length true = true
  · rw [runActVal_bind_ok (x := ()) (t := s) (by rw [hm]; rfl), runActVal_set_bind]
    exact hR.trans (hfold _ (s, false)) ((Keeps.stopIf hR _ _).of _)
  · rw [runActVal_bind_error (e := .internal) (t := s) (by rw [Bool.eq_false_iff.2 hm]; rfl)]
    exact hR.refl s

end

/-! ### Regulators take their tokens and nothing else -/

/-- The PRT block but for the buckets. -/
structure SamePrt (p q : PrtSt) : Prop where
  ctxs : q.ctxs = p.ctxs
  windows (k : Nat) : (tabGet {} q.parts k).windows = (tabGet {} p.parts k).windows
  queryCtx (k : Nat) : (tabGet {} q.parts k).queryCtx = (tabGet {} p.parts k).queryCtx

theorem SamePrt.refl (p : PrtSt) : SamePrt p p := ⟨rfl, fun _ => rfl, fun _ => rfl⟩

theorem SamePrt.trans {p q r : PrtSt} (h : SamePrt p q) (h' : SamePrt q r) : SamePrt p r :=
  ⟨h'.ctxs.trans h.ctxs, fun k => (h'.windows k).trans (h.windows k), fun k => (h'.queryCtx k).trans (h.queryCtx k)⟩

/-- Only buckets have changed. -/
structure Charged (s t : State) : Prop where
  eq : t = { s with prt := t.prt }
  prt : SamePrt s.prt t.prt

theorem Charged.refl (s : State) : Charged s s := ⟨rfl, .refl _⟩

theorem Charged.trans {s t u : State} (h : Charged s t) (h' : Charged t u) : Charged s u := by
  refine ⟨?_, h.prt.trans h'.prt⟩
  have e := h'.eq
  rw [h.eq] at e
  exact e

theorem Charged.mem {s t : State} (h : Charged s t) : t.mem = s.mem := by rw [h.eq]

theorem charged_chargePiece (s : State) (p k n : Nat) : Charged s (chargePiece s p k n) := by
  unfold chargePiece
  dsimp only
  split
  · refine ⟨rfl, rfl, fun j => ?_, fun j => ?_⟩
    all_goals
      simp only [modPart, tabGet_tabMod]
      split
      · subst j; rfl
      · rfl
  · exact .refl s

theorem charged_charge (s : State) (p k f n : Nat) : Charged s (charge s p k f n) := by
  induction f generalizing s n with
  | zero => exact .refl s
  | succ f ih =>
    unfold charge
    split
    · exact charged_chargePiece s p k n
    · exact (charged_chargePiece s p k 4096).trans (ih _ _)

theorem charged_chargeHbm (s : State) (w : Who) (a n : Nat) : Charged s (chargeHbm s w a n) := by
  unfold chargeHbm
  split
  · split
    · exact .refl s
    · exact charged_chargePiece s _ _ n
  · exact .refl s

/-- The windows decide what may be accessed, whatever the buckets hold. -/
theorem mayAccess_of_samePrt {s t : State} (h : SamePrt s.prt t.prt) (w : Who) (a n : Nat) (wr : Bool) :
    mayAccess t w a n wr = mayAccess s w a n wr := by
  have hp (p : Nat) : windowsPermit t p a n wr = windowsPermit s p a n wr := by
    unfold windowsPermit getPart
    rw [h.windows]
  simp only [mayAccess, hp]

theorem openTo_of_samePrt {s t : State} (h : SamePrt s.prt t.prt) {w : Who} (ho : Claim.openTo s w) : Claim.openTo t w :=
  fun a n wr hle => (mayAccess_of_samePrt h w a n wr).trans (ho a n wr hle)

/-! ### The pieces of an access -/

/-- The pieces of an access make it up from its start on, when their number allows its length. -/
theorem cuts_induction {motive : Nat → Nat → List (Nat × Nat) → Prop} (hnil : ∀ a, motive a 0 [])
    (hcons : ∀ a n m l, 0 < m → m ≤ n → motive (a + m) (n - m) l → motive a n ((a, m) :: l)) (f a n : Nat)
    (hf : n = 0 ∨ n + a % 4096 ≤ f * 4096) : motive a n (cuts f a n) := by
  induction f generalizing a n with
  | zero =>
    have hn : n = 0 := by omega
    subst hn
    exact hnil a
  | succ f ih =>
    unfold cuts
    by_cases hn : n = 0
    · subst hn; rw [if_pos rfl]; exact hnil a
    · rw [if_neg hn]
      refine hcons a n _ _ (by omega) (Nat.min_le_left _ _) (ih _ _ ?_)
      by_cases hle : n ≤ 4096 - a % 4096
      · left; omega
      · right
        rw [Nat.min_eq_right (by omega)]
        omega

theorem pieces_induction {motive : Nat → Nat → List (Nat × Nat) → Prop} (hnil : ∀ a, motive a 0 [])
    (hcons : ∀ a n m l, 0 < m → m ≤ n → motive (a + m) (n - m) l → motive a n ((a, m) :: l)) (a n : Nat) :
    motive a n (pieces a n) := cuts_induction hnil hcons _ a n (by omega)

/-! ### Reads -/

theorem badWordIn_clean {s : State} (h : Claim.clean s) (a n : Nat) : badWordIn s a n = none := by
  obtain ⟨hh, hs⟩ := h
  simp [badWordIn, hh, hs]

theorem clean_of_mem {s t : State} (h : Claim.clean s) (hm : t.mem = s.mem) : Claim.clean t := by
  rw [Claim.clean, hm]; exact h

theorem rdPiece_of_clean {s : State} (h : Claim.clean s) (w : Who) (a n : Nat) :
    runActVal (rdPiece w a n) s = (.ok (memRead s.mem.bytes a n), chargeHbm s w a n) := by
  simp only [rdPiece, runActVal_get_bind, badWordIn_clean h, runActVal_set_bind, runActVal_pure]

theorem rdPieces_of_clean {s : State} (h : Claim.clean s) (w : Who) (a n : Nat) (acc : Bytes) :
    ∃ t, runActVal ((pieces a n).foldlM (fun acc p => do let b ← rdPiece w p.1 p.2; pure (acc ++ b)) acc) s =
      (.ok (acc ++ memRead s.mem.bytes a n), t) ∧ Charged s t := by
  refine pieces_induction (motive := fun a n l => ∀ acc s, Claim.clean s →
    ∃ t, runActVal (l.foldlM (fun acc p => do let b ← rdPiece w p.1 p.2; pure (acc ++ b)) acc) s =
      (.ok (acc ++ memRead s.mem.bytes a n), t) ∧ Charged s t) ?_ ?_ a n acc s h
  · intro a acc s _
    exact ⟨s, by simp [memRead], .refl s⟩
  · intro a n m l _ hmn ih acc s hs
    have hc := charged_chargeHbm s w a m
    obtain ⟨t, ht, hct⟩ := ih (acc ++ memRead s.mem.bytes a m) _ (clean_of_mem hs hc.mem)
    refine ⟨t, ?_, hc.trans hct⟩
    rw [List.foldlM_cons, runActVal_bind_ok (x := acc ++ memRead s.mem.bytes a m) (t := chargeHbm s w a m), ht, hc.mem,
      List.append_assoc, ← memRead_add, Nat.add_sub_cancel' hmn]
    rw [runActVal_bind_ok (rdPiece_of_clean hs w a m)]
    rfl

/-- A permitted read where no word is uncorrectable gives the bytes, and takes tokens. -/
theorem rd_of_clean {s : State} (h : Claim.clean s) {w : Who} {a n : Nat} (hm : mayAccess s w a n false = true) :
    ∃ t, runActVal (rd w a n) s = (.ok (memRead s.mem.bytes a n), t) ∧ Charged s t := by
  obtain ⟨t, ht, hc⟩ := rdPieces_of_clean h w a n []
  refine ⟨t, ?_, hc⟩
  simp only [rd, runActVal_get_bind, hm, Bool.not_true]
  rw [runActVal_bind_ok (runActVal_stopIf_false _ _), ht, List.nil_append]

/-- A read that is not permitted ends with INTERNAL and changes nothing. -/
theorem rd_denied {s : State} {w : Who} {a n : Nat} (hm : mayAccess s w a n false = false) :
    runActVal (rd w a n) s = (.error .internal, s) := by
  simp only [rd, runActVal_get_bind, hm, Bool.not_false]
  rw [runActVal_bind_error (runActVal_stopIf_true _ _)]

theorem rdNat_of_clean {s : State} (h : Claim.clean s) {w : Who} {a n : Nat} (hm : mayAccess s w a n false = true) :
    ∃ t, runActVal (rdNat w a n) s = (.ok (leNat (memRead s.mem.bytes a n)), t) ∧ Charged s t := by
  obtain ⟨t, ht, hc⟩ := rd_of_clean h hm
  exact ⟨t, by rw [rdNat, runActVal_bind_ok ht]; rfl, hc⟩

/-! ### Writes -/

theorem memWrite_append (m : List Host.Cell) (a : Nat) (b c : Bytes) :
    memWrite m a (b ++ c) = memWrite (memWrite m a b) (a + b.length) c := by
  induction b generalizing m a with
  | nil => simp [memWrite]
  | cons x b ih => simp only [List.cons_append, memWrite, ih, List.length_cons]; congr 1; omega

/-- The residency of every granule but for its DIRTY mark. -/
def SameGran (g h : Tab Gran) : Prop :=
  ∀ k, (tabFind h k).map (fun x => { x with dirty := true }) = (tabFind g k).map fun x => { x with dirty := true }

theorem SameGran.refl (g : Tab Gran) : SameGran g g := fun _ => rfl

theorem SameGran.trans {g h k : Tab Gran} (a : SameGran g h) (b : SameGran h k) : SameGran g k := fun j => (b j).trans (a j)

theorem SameGran.isSome {g h : Tab Gran} (a : SameGran g h) (k : Nat) : (tabFind h k).isSome = (tabFind g k).isSome := by
  have := congrArg Option.isSome (a k)
  simpa using this

theorem sameGran_dirty {g : Tab Gran} {k : Nat} (h : (tabFind g k).isSome = true) :
    SameGran g (tabMod {} g k fun x => { x with dirty := true }) := by
  intro j
  obtain ⟨x, hx⟩ := Option.isSome_iff_exists.1 h
  rw [tabMod, tabFind_tabPut]
  split
  next hk => subst hk; rw [tabGet_of_find, hx]; rfl
  next => rfl

/-- A store at an address: its bytes, the DIRTY marks of the granules it reaches, and the tokens of its buckets. -/
structure Wrote (s t : State) (a : Nat) (b : Bytes) : Prop where
  eq : t = { s with prt := t.prt, mem := { s.mem with bytes := memWrite s.mem.bytes a b, gran := t.mem.gran } }
  prt : SamePrt s.prt t.prt
  gran : SameGran s.mem.gran t.mem.gran

theorem Wrote.bytes {s t : State} {a : Nat} {b : Bytes} (h : Wrote s t a b) : t.mem.bytes = memWrite s.mem.bytes a b := by
  rw [h.eq]

theorem Wrote.clean {s t : State} {a : Nat} {b : Bytes} (h : Wrote s t a b) (hs : Claim.clean s) : Claim.clean t := by
  rw [h.eq]; exact hs

theorem Wrote.append {s t u : State} {a : Nat} {b c : Bytes} (h : Wrote s t a b) (h' : Wrote t u (a + b.length) c) :
    Wrote s u a (b ++ c) := by
  refine ⟨?_, h.prt.trans h'.prt, h.gran.trans h'.gran⟩
  have e := h'.eq
  rw [h.eq] at e
  rw [memWrite_append]
  exact e

theorem Charged.wrote {s t : State} (h : Charged s t) (a : Nat) : Wrote s t a [] :=
  ⟨by rw [h.eq]; rfl, h.prt, by rw [h.mem]; exact .refl _⟩

theorem wrPiece_of_clean {s : State} (h : Claim.clean s) (w : Who) (a : Nat) (b : Bytes) :
    ∃ t, wrPiece s w a b = (t, false) ∧ Wrote s t a b := by
  obtain ⟨hh, hs⟩ := h
  have hbad : (if isResident s a then s.mem.badSram else s.mem.badHbm) = [] := by rw [hh, hs, ite_self]
  refine ⟨(wrPiece s w a b).1, ?_, ?_⟩
  · simp [wrPiece, hbad]
  · simp only [wrPiece, hbad, List.filter_nil, List.foldl_nil, if_true]
    refine Wrote.append (b := b) (c := []) ?_ ((charged_chargeHbm _ w a b.length).wrote _) |> fun h => by simpa using h
    refine ⟨?_, .refl _, ?_⟩
    · simp [hh, hs]
    · dsimp only
      split
      next hres => exact sameGran_dirty hres
      next => exact .refl _

/-- What a write of the pieces of an access comes to. -/
theorem putPieces_of_clean {s : State} (h : Claim.clean s) (w : Who) (a : Nat) (b : Bytes) :
    ∃ t, (pieces a b.length).foldl (putPiece w a b) (s, false) = (t, false) ∧ Wrote s t a b := by
  suffices hgen : ∀ x n, a ≤ x → x - a + n = b.length → ∀ s, Claim.clean s →
      ∃ t, (pieces x n).foldl (putPiece w a b) (s, false) = (t, false) ∧ Wrote s t x (b.drop (x - a)) by
    obtain ⟨t, ht, hw⟩ := hgen a b.length (Nat.le_refl a) (by omega) s h
    rw [Nat.sub_self, List.drop_zero] at hw
    exact ⟨t, ht, hw⟩
  intro x n
  refine pieces_induction (motive := fun x n l => a ≤ x → x - a + n = b.length → ∀ s, Claim.clean s →
      ∃ t, l.foldl (putPiece w a b) (s, false) = (t, false) ∧ Wrote s t x (b.drop (x - a))) ?_ ?_ x n
  · intro x _ hlen s _
    refine ⟨s, rfl, ?_⟩
    rw [List.drop_eq_nil_of_le (by omega)]
    exact (Charged.refl s).wrote x
  · intro x n m l _ hmn ih hax hlen s hs
    obtain ⟨t, ht, hw⟩ := wrPiece_of_clean hs w x ((b.drop (x - a)).take m)
    obtain ⟨u, hu, hwu⟩ := ih (by omega) (by omega) t (hw.clean hs)
    refine ⟨u, ?_, ?_⟩
    · have hput : putPiece w a b (s, false) (x, m) = (t, false) := by simp only [putPiece, ht, Bool.or_self]
      rw [List.foldl_cons, hput, hu]
    · have hlen' : ((b.drop (x - a)).take m).length = m := by rw [List.length_take, List.length_drop]; omega
      have hdrop : b.drop (x + m - a) = (b.drop (x - a)).drop m := by
        rw [List.drop_drop, show x - a + m = x + m - a by omega]
      rw [← List.take_append_drop m (b.drop (x - a))]
      rw [hdrop] at hwu
      exact hw.append (by rw [hlen']; exact hwu)

/-- A permitted write where no word is uncorrectable stores its bytes. -/
theorem wr_of_clean {s : State} (h : Claim.clean s) {w : Who} {a : Nat} {b : Bytes}
    (hm : mayAccess s w a b.length true = true) : ∃ t, runActVal (wr w a b) s = (.ok (), t) ∧ Wrote s t a b := by
  obtain ⟨t, ht, hw⟩ := putPieces_of_clean h w a b
  refine ⟨t, ?_, hw⟩
  simp only [wr_eq, runActVal_get_bind, hm, Bool.not_true]
  rw [runActVal_bind_ok (runActVal_stopIf_false _ _)]
  simp only [ht, runActVal_set_bind, runActVal_stopIf_false]

/-- A write that is not permitted ends with INTERNAL and changes nothing. -/
theorem wr_denied {s : State} {w : Who} {a : Nat} {b : Bytes} (hm : mayAccess s w a b.length true = false) :
    runActVal (wr w a b) s = (.error .internal, s) := by
  simp only [wr, runActVal_get_bind, hm, Bool.not_false]
  rw [runActVal_bind_error (runActVal_stopIf_true _ _)]

end Sys2Proof.Proofs
end

