-- ==== Sys2Proof/Proofs/Download.lean ====
section
/-! PROOFS. The download of a bundle and its hand-over (spec/17 R433-R442, Table 17-1). -/

namespace Sys2Proof.Proofs

open Sys2Proof Sys2Proof.Machine Sys2Proof.Laws

/-! ### The loader's work -/

/-- What leaves the block is only added to, and clear stores stay clear. -/
structure Loads (s t : State) : Prop where
  outs : s.outs <:+ t.outs
  gran : s.mem.gran = [] → t.mem.gran = []

theorem Loads.refl (s : State) : Loads s s := ⟨List.suffix_rfl, id⟩

theorem Loads.trans {s t u : State} (h : Loads s t) (h' : Loads t u) : Loads s u :=
  ⟨h.outs.trans h'.outs, fun hs => h'.gran (h.gran hs)⟩

theorem steady_loads : Steady Loads := ⟨Loads.refl, Loads.trans⟩

theorem outs_suffix_logEntry (s : State) (e : EvtEntry) : s.outs <:+ (logEntry s e).outs := by
  by_cases h : s.evt.buf < 256
  · rw [logEntry_outs e h]
    split
    · exact List.suffix_cons _ _
    · exact List.suffix_rfl
  · rw [logEntry_full e (Nat.le_of_not_lt h)]

theorem logEntry_mem (s : State) (e : EvtEntry) : (logEntry s e).mem = s.mem := by
  obtain ⟨v, o, h⟩ := logEntry_shape s e
  rw [h]

theorem loads_noteBad (s : State) (w : Who) (a : Nat) : Loads s (noteBad s w a) := by
  have hdeck (f : DeckMem → DeckMem) (e : EvtEntry) : Loads s (logEntry (modDeck s (residentDeck s a) f) e) :=
    ⟨outs_suffix_logEntry (modDeck s _ _) _, fun h => by rw [logEntry_mem]; exact h⟩
  have hstack (f : StackErr → StackErr) (e : EvtEntry) : Loads s (logEntry (modStack s (stackOf a) f) e) :=
    ⟨outs_suffix_logEntry (modStack s _ _) _, fun h => by rw [logEntry_mem]; exact h⟩
  unfold noteBad noteSramBad noteHbmBad
  split
  · exact hdeck _ _
  · exact hstack _ _

theorem loads_of_charged {s t : State} (h : Charged s t) : Loads s t := by
  rw [h.eq]
  exact ⟨List.suffix_rfl, id⟩

theorem loads_wrPiece (s : State) (w : Who) (a : Nat) (b : Bytes) : Loads s (wrPiece s w a b).1 := by
  unfold wrPiece
  dsimp only
  refine Loads.trans ?_ (steady_loads.foldl (fun t k => loads_noteBad t w _) _ _)
  refine Loads.trans ?_ (loads_of_charged (charged_chargeHbm _ w a b.length))
  refine ⟨List.suffix_rfl, fun h => ?_⟩
  have hres : isResident s a = false := by simp [isResident, h, tabFind]
  simp only [hres, Bool.false_eq_true, if_false]
  exact h

theorem keeps_loadLoader : Keeps Loads loadLoader := by
  have hrd := Keeps.rd steady_loads loads_noteBad (fun s w a n => loads_of_charged (charged_chargeHbm s w a n))
  have hwr := Keeps.wr steady_loads loads_wrPiece
  refine Keeps.bind steady_loads (hrd _ _ _) fun h => ?_
  split
  · exact .bind steady_loads (hrd _ _ _) fun _ => .bind steady_loads (hwr _ _ _) fun _ => .pure steady_loads _
  · exact .pure steady_loads _

theorem loads_startLoader (s : State) : Loads s (startLoader s).2 := by
  have h := keeps_loadLoader.of s
  unfold startLoader
  split
  next a t e => rw [e] at h; exact h.trans ⟨List.suffix_cons _ _, id⟩
  next st t e => rw [e] at h; exact h

/-- A loader that lies in the cached bundle is copied. -/
theorem loadLoader_ok {s : State} (hs : Claim.clean s) (he : ∀ e, imageOf (memRead s.mem.bytes cacheBase 256) 3 = some e →
    fld e 4 4 + fld e 8 4 ≤ 536870912) : ∃ entry t, runActVal loadLoader s = (.ok entry, t) := by
  have hread {a n : Nat} (h : cacheBase ≤ a) (hn : a + n ≤ unifiedEnd) (u : State) : mayAccess u (whoPurser none) a n false = true := by
    simp [mayAccess, whoPurser, hn]
  obtain ⟨t, ht, hct⟩ := rd_of_clean hs (hread (Nat.le_refl _) (by decide) s : mayAccess s (whoPurser none) cacheBase 256 false = true)
  unfold loadLoader
  dsimp only
  rw [runActVal_bind_ok ht]
  cases himg : imageOf (memRead s.mem.bytes cacheBase 256) 3 with
  | none => exact ⟨0, t, rfl⟩
  | some e =>
    dsimp only
    have hin := he e himg
    obtain ⟨u, hu, hcu⟩ := rd_of_clean (clean_of_mem hs hct.mem)
      (hread (Nat.le_add_right _ _) (by simp only [cacheBase, unifiedEnd]; omega) t :
        mayAccess t (whoPurser none) (cacheBase + fld e 4 4) (fld e 8 4) false = true)
    rw [runActVal_bind_ok hu]
    generalize hb : (memRead t.mem.bytes (cacheBase + fld e 4 4) (fld e 8 4)).take (cacheBase - fld e 16 8) = b
    have hlen : b.length ≤ cacheBase - fld e 16 8 := by rw [← hb]; exact List.length_take_le _ _
    have hmay : mayAccess u (whoPurser none) (fld e 16 8) b.length true = true := by
      by_cases h0 : b.length = 0
      · simp [mayAccess, h0]
      · have h1 : fld e 16 8 + b.length ≤ cacheBase := by omega
        have h2 : fld e 16 8 + b.length ≤ unifiedEnd := Nat.le_trans h1 (by decide)
        simp [mayAccess, whoPurser, h1, h2]
    obtain ⟨v, hv, -⟩ := wr_of_clean (clean_of_mem hs (hcu.mem.trans hct.mem)) hmay
    rw [runActVal_bind_ok hv]
    exact ⟨_, v, rfl⟩

/-! ### Hand-over -/

/-- The state whose loader the hand-over starts. -/
def cached (s : State) : State :=
  let x := s.sec.session
  { s with
    mem := { s.mem with
      bytes := memWrite [] cacheBase (memRead x.staging 0 x.size), gran := [], parked := [], badSram := []
      badHbm := s.mem.badHbm.filter fun k => !covers 32 cacheBase x.size k }
    pur := { s.pur with fw := BitVec.ofNat 32 (fld (memRead x.staging 0 256) 12 4) }
    sec := { s.sec with
      phase := .running, session := {}, source := sourceCode x.via
      svn := BitVec.ofNat 32 (fld (memRead x.staging 0 256) 8 4), ownerVerified := s.sec.ownerSet } }

theorem handOver_eq (s : State) : handOver s = (startLoader (cached s)).2 := rfl

/-- The loader leaves the security block and the purser alone. -/
theorem startLoader_sec_pur (s : State) : (startLoader s).2.sec = s.sec ∧ (startLoader s).2.pur = s.pur := by
  have h : Fr (0x3FFFFF - 2 ^ partBit .sec - 2 ^ partBit .pur) s (startLoader s).2 := startLoader_fr (by decide) (Fr.refl _ _)
  exact ⟨h.same .sec rfl, h.same .pur rfl⟩

/-- The header of the cached bundle is the staged one. -/
theorem memRead_cached_header {s : State} (h : 256 ≤ s.sec.session.size) :
    memRead (cached s).mem.bytes cacheBase 256 = memRead s.sec.session.staging 0 256 := by
  show memRead (memWrite [] cacheBase (memRead s.sec.session.staging 0 s.sec.session.size)) cacheBase 256 = _
  obtain ⟨k, hk⟩ : ∃ k, s.sec.session.size = 256 + k := ⟨_, (Nat.add_sub_cancel' h).symm⟩
  have hsplit : memRead s.sec.session.staging 0 s.sec.session.size =
      memRead s.sec.session.staging 0 256 ++ memRead s.sec.session.staging (0 + 256) k := by rw [hk, memRead_add]
  rw [hsplit, memWrite_append, memRead_memWrite_apart _ _ _ _ _ (by left; simp)]
  have := memRead_memWrite [] cacheBase (memRead s.sec.session.staging 0 256)
  rwa [memRead_length] at this

theorem clean_cached {s : State} (h : Claim.clean s) : Claim.clean (cached s) :=
  ⟨by show s.mem.badHbm.filter _ = []; rw [h.1]; rfl, rfl⟩

/-- A loader that lies in the bundle as the check has found it starts hart 0. -/
theorem handOver_starts {s : State} (hs : Claim.clean s) (hsize : 256 ≤ s.sec.session.size)
    (he : ∀ e, imageOf (memRead s.sec.session.staging 0 256) 3 = some e → fld e 4 4 + fld e 8 4 ≤ s.sec.session.size)
    (hmax : s.sec.session.size ≤ 536870912) :
    (handOver s).hub.harts = 1 ∧ ∃ entry, .hart 0 entry ∈ (handOver s).outs := by
  obtain ⟨entry, t, ht⟩ := loadLoader_ok (clean_cached hs) fun e h =>
    (he e (memRead_cached_header hsize ▸ h)).trans hmax
  have hstart : handOver s = startHart t entry := by rw [handOver_eq, startLoader, ht]
  rw [hstart]
  exact ⟨rfl, entry, List.mem_cons_self⟩

/-- DONE goes to the host of a session of the management port. -/
theorem doneCounted_of_port {s : State} {h : ImgHost} (hv : s.sec.session.via = .port h) : doneCounted s =
    { s with outs := .image mgmtSelf h (doneBytes s) :: s.outs
             sec := { s.sec with session := { s.sec.session with dones := s.sec.session.dones + 1 } } } := by
  simp only [doneCounted, hv]
  rfl

theorem doneHandsOver : Claim.doneHandsOver := by
  intro h s hdec hvia
  have hsent := doneCounted_of_port hvia
  have hsend := doneSend_of_decided hdec
  have hstatus : fld (doneBytes s) 14 2 = s.sec.session.verdict.code := by
    rw [doneBytes, fld_status_imgBytes, Nat.mod_eq_of_lt (Nat.lt_trans (statusCode_lt _) (by decide))]
  have hid : imgSession (doneBytes s) = s.sec.session.id := by
    rw [doneBytes, imgSession_imgBytes, BitVec.ofNat_toNat, BitVec.setWidth_eq]
  refine ⟨doneSend s, rfl, ?out, ?wait, ?fail, ?pass⟩
  case out =>
    have hout : ∃ rest, (doneSend s).outs = rest ++ .image mgmtSelf h (doneBytes s) :: s.outs := by
      have h0 : (doneCounted s).outs = .image mgmtSelf h (doneBytes s) :: s.outs := by rw [hsent]
      rw [hsend]
      split
      · exact ⟨[], h0⟩
      · split
        · obtain ⟨rest, hrest⟩ := (loads_startLoader (cached (doneCounted s))).outs
          exact ⟨rest, by rw [handOver_eq, ← hrest, ← h0]; rfl⟩
        · exact ⟨[], h0⟩
    obtain ⟨rest, hrest⟩ := hout
    exact ⟨rest, doneBytes s, hrest, rfl, hstatus, hid, rfl⟩
  case wait =>
    intro hd
    rw [hsend, if_pos hd, hsent]
  case fail =>
    intro hd hv
    rw [hsend, if_neg (by omega), if_neg hv, hsent]
    exact ⟨rfl, rfl, rfl, rfl⟩
  case pass =>
    intro hd hv
    have hover : doneSend s = handOver (doneCounted s) := by rw [hsend, if_neg (by omega), if_pos hv]
    obtain ⟨hsec, hpur⟩ := startLoader_sec_pur (cached (doneCounted s))
    rw [hover]
    refine ⟨?_, ?_, ?_, ?_, ?_, (loads_startLoader (cached (doneCounted s))).gran rfl, fun hc hsize he hmax => ?_⟩
    · rw [handOver_eq, hsec]; rfl
    · rw [handOver_eq, hpur, hsent]; rfl
    · rw [handOver_eq, hsec, hsent]; rfl
    · rw [handOver_eq, hsec]
      show sourceCode (doneCounted s).sec.session.via = 1
      rw [doneCounted_sec, hvia]
      rfl
    · rw [handOver_eq, hsec, hsent]; rfl
    · have hsession : (doneCounted s).sec.session = { s.sec.session with dones := s.sec.session.dones + 1 } := by
        rw [doneCounted_sec]
      refine handOver_starts (by rw [hsent]; exact hc) ?_ ?_ ?_
      · rw [hsession]; exact hsize
      · rw [hsession]; exact he
      · rw [hsession]; exact hmax

/-! ### The check of a bundle (spec/17 R442) -/

/-- A part of a part. -/
theorem part_part (b : Bytes) {o n p k : Nat} (h : p + k ≤ n) : part (part b o n) p k = part b (o + p) k := by
  rw [part, part, part, List.drop_take, List.take_take, List.drop_drop, Nat.min_eq_left (by omega)]

theorem fld_take (b : Bytes) {n o k : Nat} (h : o + k ≤ n) : fld (b.take n) o k = fld b o k := by
  rw [fld, fld, List.drop_take, List.take_take, Nat.min_eq_left (by omega)]

/-- What a head check that finds nothing has found: the form, the vendor's key, the owner's, and the SVN. -/
theorem headCheck_none {s : State} {size : Nat} {m : Bytes} (h : headCheck s size m = none) :
    fld m 0 2 = 1 ∧ fld m 4 4 = size ∧
    sha512 (part m (256 + 64 * fld m 16 2 + 4) 133) = toBe 64 Config.rootHash.toNat ∧
    (s.sec.ownerSet = true → fld m 2 2 % 2 = 1 ∧ sha512 (part m (256 + 64 * fld m 16 2 + 269) 133) = ownerHashBytes s) ∧
    s.sec.svnFloor.toNat ≤ fld m 8 4 := by
  have hfloor := svnFloor_le_of_headCheck h
  rw [fld_take m (by decide : 8 + 4 ≤ 256)] at hfloor
  simp only [headCheck, fld_take m (by decide : 16 + 2 ≤ 256), fld_take m (by decide : 0 + 2 ≤ 256),
    fld_take m (by decide : 2 + 2 ≤ 256)] at h
  split at h
  · cases h
  next hver =>
    split at h
    · cases h
    next hform =>
      split at h
      · cases h
      next hroot =>
        split at h
        · cases h
        next hsig =>
          split at h
          · cases h
          next howner =>
            rw [part_part m (by decide : 4 + 133 ≤ 576)] at hroot
            rw [part_part m (by decide : 269 + 133 ≤ 576)] at howner
            have hsize : fld m 4 4 = size := by
              simp only [bundleForm, fld_take m (by decide : 4 + 4 ≤ 256), Bool.not_eq_true', Bool.not_eq_false,
                Bool.and_eq_true, decide_eq_true_eq, and_assoc] at hform
              obtain ⟨-, hsize, -⟩ := hform
              exact hsize
            refine ⟨by simp_all, hsize, not_not.1 hroot, fun ho => ?_, hfloor⟩
            simp only [ho, Bool.true_and, Bool.not_eq_true', Bool.not_eq_false, Bool.and_eq_true, decide_eq_true_eq] at howner
            obtain ⟨⟨hbit, hhash⟩, -⟩ := howner
            exact ⟨by simpa [bit] using hbit, hhash⟩

theorem badBundlesFail : Claim.badBundlesFail := by
  intro s size m hbad
  cases h : headCheck s size m with
  | some r => exact ⟨r.1, r.2, rfl, ne_ok_of_headCheck h⟩
  | none =>
    obtain ⟨hver, hsize, hroot, howner, hfloor⟩ := headCheck_none h
    obtain hlow | hv | hs | hr | ⟨ho, hkey⟩ := hbad
    · exact absurd hfloor (Nat.not_le.2 hlow)
    · exact absurd hver hv
    · exact absurd hsize hs
    · exact absurd hroot hr
    · obtain ⟨hbit, hhash⟩ := howner ho
      exact absurd hbit (hkey.resolve_right fun hne => hne hhash)

/-- Settles O19: DONE leaves by the session's host and the third hands over; a fault in the header ends the check. -/
theorem checkedBundlesRun : Obligations.CheckedBundlesRun := ⟨doneHandsOver, badBundlesFail⟩

end Sys2Proof.Proofs
end

