-- ==== Sys2Proof/Proofs/Commands.lean ====
section
/-! PROOFS. Purser commands: how one starts, and what its completion leaves (spec/15 R369, R374, R375). -/

namespace Sys2Proof.Proofs

open Sys2Proof Sys2Proof.Machine Sys2Proof.Laws

/-- A command that may start runs its row. -/
theorem startRow_of {s : State} {id op : Nat} {c : PCmd} {f : PCmd → State} (hc : getCmd s id = some c)
    (hop : c.opcode.toNat = op) (hph : c.phase = .held) (hg : c.guest = none) (hw : purWorks s = true)
    (hu : unfenced s id c = true) : startRow s id op f = f c := by
  simp [startRow, hc, hop, hph, hg, hw, hu]

/-- The completion record of a command that its mailbox has taken. -/
def recordOf (c : PCmd) (st : Status) (detail : W64) : CplRec :=
  { seq := c.seq, status := st, opcode := c.opcode, tag := c.tag, detail := detail }

/-- A command completes: it is gone, and its record waits in its mailbox. -/
theorem endCmd_of {s : State} {id : Nat} {c : PCmd} (h : getCmd s id = some c) (st : Status) (d : W64) :
    endCmd s id st d = modMb { s with pur := { s.pur with cmds := tabDel s.pur.cmds id } } c.mb fun m =>
      { m with held := m.held ++ [recordOf c st d] } := by
  rw [endCmd, h]; rfl

theorem endCmd_none {s : State} {id : Nat} (h : getCmd s id = none) (st : Status) (d : W64) : endCmd s id st d = s := by
  rw [endCmd, h]

/-- Only the purser's commands and the mailboxes change. -/
theorem endCmd_shape (s : State) (id : Nat) (st : Status) (d : W64) : endCmd s id st d =
    { s with mbs := (endCmd s id st d).mbs, pur := { s.pur with cmds := tabDel s.pur.cmds id } } ∨ endCmd s id st d = s := by
  cases h : getCmd s id with
  | none => exact .inr (endCmd_none h st d)
  | some c => rw [endCmd_of h]; exact .inl rfl

@[simp] theorem endCmd_mem (s : State) (id : Nat) (st : Status) (d : W64) : (endCmd s id st d).mem = s.mem := by
  obtain h | h := endCmd_shape s id st d <;> rw [h]

theorem endCmd_held {s : State} {id : Nat} {c : PCmd} (h : getCmd s id = some c) (st : Status) (d : W64) :
    (getMb (endCmd s id st d) c.mb).held = (getMb s c.mb).held ++ [recordOf c st d] := by
  rw [endCmd_of h, getMb_modMb]; rfl

theorem endCmd_getCmd {s : State} {id : Nat} {c : PCmd} (h : getCmd s id = some c) (st : Status) (d : W64) :
    getCmd (endCmd s id st d) id = none := by
  rw [endCmd_of h]; simp [getCmd, tabFind_tabDel]

theorem endCmd_getCmd_ne {s : State} {id j : Nat} (st : Status) (d : W64) (hne : j ≠ id) :
    getCmd (endCmd s id st d) j = getCmd s j := by
  obtain h | h := endCmd_shape s id st d <;> rw [h]
  simp [getCmd, tabFind_tabDel, hne.symm]

end Sys2Proof.Proofs
end

