-- ==== Sys2Proof/Proofs/Events.lean ====
section
/-! PROOFS. Accesses that are not allowed, registers that a read clears, and who writes the PRT block (spec/00 R13, spec/02
R52, spec/14 R345, spec/18 R462-R467). -/

namespace Sys2Proof.Proofs

open Sys2Proof Sys2Proof.Machine Sys2Proof.Laws

/-! ### BAD_ACCESS -/

/-- The event of an access that is not allowed. -/
def badAccessEntry (addr : Nat) (isWrite : Bool) : EvtEntry :=
  { code := some .badAccess, source := srcNone, detail := toLe 8 addr ++ toLe 1 (b2n isWrite) }

/-- The event, and zero for what the access reads. -/
theorem badAccess_eq (s : State) (addr : Nat) (isWrite : Bool) : badAccess s addr isWrite =
    { logEntry s (badAccessEntry addr isWrite) with
      outs := (if isWrite then [] else [Out.value addr 0]) ++ (logEntry s (badAccessEntry addr isWrite)).outs } := by
  cases isWrite <;> rfl

/-- The events block and what leaves: all that an event changes. -/
theorem logEntry_frame (s : State) (e : EvtEntry) :
    logEntry s e = { s with evt := (logEntry s e).evt, outs := (logEntry s e).outs } := by
  obtain ⟨v, o, h⟩ := logEntry_shape s e
  rw [h]

/-- Mask, interrupt and hart of the log stay. -/
theorem logEntry_evt_frame (s : State) (e : EvtEntry) : (logEntry s e).evt = { s.evt with
    head := (logEntry s e).evt.head, tail := (logEntry s e).evt.tail, drops := (logEntry s e).evt.drops
    alert := (logEntry s e).evt.alert, log := (logEntry s e).evt.log, buf := (logEntry s e).evt.buf } := by
  by_cases h : s.evt.buf < 256
  · rw [logEntry_evt e h]
  · rw [logEntry_full e (Nat.le_of_not_lt h)]

theorem badAccessIsLogged : Claim.badAccessIsLogged := by
  intro addr isWrite s
  refine ⟨badAccess s addr isWrite, rfl, ?_⟩
  rw [badAccess_eq]
  refine ⟨fun hroom => ⟨logEntry_head _ hroom, ?alert, ?entry, fun n hn => ?others, ?outs⟩, fun hfull => ?full, ?frame⟩
  case alert => simp only [logEntry_evt _ hroom]; rfl
  case entry => simp only [logEntry_entry _ hroom]; cases isWrite <;> rfl
  case others => simp only [logEntry_evt _ hroom]; exact tabGet_tabPut_ne _ _ _ hn.symm
  case outs => simp only [logEntry_outs _ hroom]; cases isWrite <;> cases s.evt.irqEn <;> rfl
  case full => simp only [logEntry_full _ hfull, satAdd32_one]
  case frame =>
    rw [← logEntry_evt_frame, logEntry_frame]

/-! ### Writes that are not made -/

theorem protWrite_shape (s : State) (addr : Nat) (v : W64) :
    protWrite s addr v = { s with evt := (protWrite s addr v).evt, outs := (protWrite s addr v).outs } := by
  obtain ⟨e, o, h⟩ := logEntry_shape s
    { code := some .protWrite, source := srcNone, detail := toLe 8 addr ++ toLe 8 v.toNat }
  rw [protWrite, raise, h]

theorem protWrite_head {s : State} (addr : Nat) (v : W64) (h : s.evt.buf < 256) :
    (protWrite s addr v).evt.head = s.evt.head + 1 := logEntry_head _ h

theorem protWrite_entry {s : State} (addr : Nat) (v : W64) (h : s.evt.buf < 256) :
    tabGet {} (protWrite s addr v).evt.log (s.evt.head.toNat % 65536) =
      { seq := s.evt.head, time := s.hub.time, code := some .protWrite, source := 0xF000,
        detail := toLe 8 addr ++ toLe 8 v.toNat } := logEntry_entry _ h

/-! ### Reads that clear -/

theorem regFind_readPwr_rateMin (s : State) {d : Nat} (hd : d < 4) :
    regFind (readPwr s) (0x200 + 8 * d) = some (tabGet 0xFFFFF s.pwr.rateMin d).toNat := by
  simp only [readPwr, reg]
  repeat rw [regFind_skip _ _ (by omega)]
  rw [regFind_place _ _ hd]

theorem regValue_rateMin (s : State) {d : Nat} (hd : d < 4) :
    regValue s (0xF00003000200 + 8 * d) = (tabGet 0xFFFFF s.pwr.rateMin d).zeroExtend 64 := by
  have haddr : 0xF00003000200 + 8 * d = 0xF00003000000 + (0x200 + 8 * d) := by omega
  have ho : 0x200 + 8 * d < 0x1000000 := by omega
  rw [haddr, regValue_pwr ho, regFind_readPwr_rateMin s hd, Option.getD_some, w64, BitVec.ofNat_toNat]

theorem regFind_readEvt_drops (s : State) : regFind (readEvt s) 0x18 = some s.evt.drops.toNat := by
  simp only [readEvt, reg]
  repeat rw [regFind_skip _ _ (by omega)]
  exact regFind_place (d := 0) _ _ (by decide)

theorem regValue_drops (s : State) : regValue s 0xF00009000018 = s.evt.drops.zeroExtend 64 := by
  have hblock : blockOf 0xF00009000018 = some (.evt, 0x18) := rfl
  simp only [regValue, hblock, readBlock, regFind_readEvt_drops, Option.getD_some, w64, BitVec.ofNat_toNat]

theorem readsThatClear : Claim.readsThatClear := by
  refine ⟨fun s => ⟨evtDropsRead s, rfl, ?_, regValue_drops _, rfl⟩, fun d s hd => ⟨rateMinRead s d, rfl, ?_, ?_, fun k hk => ?_, rfl⟩⟩
  · rw [regValue_drops]; rfl
  · rw [regValue_rateMin s hd]
    simp only [rateMinRead, emit, modPwr, pwrBase, mul_comm d 8]
  · rw [regValue_rateMin _ hd]
    simp [rateMinRead, modPwr, tabGet_tabDel]
  · simp [rateMinRead, modPwr, tabGet_tabDel, hk.symm]

/-- Settles O11: a bad access is logged, and the two registers clear when they are read. -/
theorem eventLogAndClearingReads : Obligations.EventLogAndClearingReads := ⟨badAccessIsLogged, readsThatClear⟩

/-! ### Who writes the PRT block -/

theorem blockOf_prt {o : Nat} (ho : o < 0x1000000) : blockOf (0xF00002000000 + o) = some (.prt, o) := by
  have hq : (0xF00002000000 + o - 0xF00000000000) / 0x1000000 = 2 := by omega
  have hr : (0xF00002000000 + o - 0xF00000000000) % 0x1000000 = o := by omega
  unfold blockOf
  rw [if_neg (by simp; omega)]
  dsimp only
  rw [if_pos (by omega), hq, hr]
  rfl

theorem prtMayWrite_iff (a : Agent) : prtMayWrite a = true ↔ a = .purser ∨ ∃ h, a = .hart h true := by
  cases a <;> simp [prtMayWrite]

/-- Settles O13: the write is not made and stands in the log. -/
theorem prtWritesNeedHypervisor : Obligations.PrtWritesNeedHypervisor := by
  intro a off v s hoff hpurser hhart hroom
  have hbar : prtMayWrite a = false := by
    rw [← Bool.not_eq_true, prtMayWrite_iff]
    rintro (h | ⟨h, hh⟩)
    · exact hpurser h
    · exact hhart h hh
  refine ⟨protWrite s (0xF00002000000 + off) v, ?_, protWrite_head _ v hroom, protWrite_entry _ v hroom, protWrite_shape _ _ v⟩
  simp [exec_registerWrite, execRegisterWrite, regWrite, blockOf_prt hoff, hbar]

end Sys2Proof.Proofs
end

