-- ==== Sys2Proof/Proofs/SecurityBlock.lean ====
section
/-! PROOFS. The fuses, the measurements and the report over them (spec/17 R443-R450). -/

namespace Sys2Proof.Proofs

open Sys2Proof Sys2Proof.Machine Sys2Proof.Laws

/-! ### Fuses -/

theorem ofNat_low_bits (v : W64) : BitVec.ofNat 32 (bits v.toNat 31 0) = BitVec.ofNat 32 v.toNat := by
  apply BitVec.eq_of_toNat_eq
  simp [bits, Nat.div_one]

theorem svnRaise_eq (s : State) (a : Agent) (v : W64) : svnRaise s a v =
    if a = .mgmt ∧ s.sec.svnFloor.toNat < v.toNat % 2 ^ 32 ∧ v.toNat % 2 ^ 32 ≤ s.sec.svn.toNat ∧ s.sec.phase = .running ∧
      s.sec.raises < 64 then
      modSec s fun x => { x with svnFloor := BitVec.ofNat 32 v.toNat, raises := x.raises + 1 }
    else protWrite s (secBase + 0x18) v := by
  have hn : (BitVec.ofNat 32 v.toNat).toNat = v.toNat % 2 ^ 32 := BitVec.toNat_ofNat _ _
  simp only [svnRaise, ofNat_low_bits, hn, Bool.and_eq_true, decide_eq_true_eq, and_assoc]

/-- Settles O20: a permitted write fuses; any other is not made and stands in the log. -/
theorem fusesAreWrittenOnce : Obligations.FusesAreWrittenOnce := by
  refine ⟨fun v s hrun habove hbelow hfew => ?raised, fun a v s hbad => ?refused, fun v s hopen => ?owner,
    fun a v s hbad => ?ownerRefused⟩
  case raised =>
    show Host.Outcome.next (svnRaise s .mgmt v) = _
    rw [svnRaise_eq, if_pos ⟨rfl, habove, hbelow, hrun, hfew⟩]
    rfl
  case refused =>
    refine ⟨svnRaise s a v, rfl, ?_⟩
    have hnot : ¬ (a = .mgmt ∧ s.sec.svnFloor.toNat < v.toNat % 2 ^ 32 ∧ v.toNat % 2 ^ 32 ≤ s.sec.svn.toNat ∧
        s.sec.phase = .running ∧ s.sec.raises < 64) := by
      rintro ⟨ha, habove, hbelow, -, hfew⟩
      obtain h | h | h | h := hbad
      · exact h ha
      all_goals omega
    rw [svnRaise_eq, if_neg hnot]
    exact ⟨protWrite_shape s _ v, fun hbuf => ⟨protWrite_head _ v hbuf, protWrite_entry _ v hbuf⟩⟩
  case owner =>
    show Host.Outcome.next (ownerProgram s .mgmt v) = _
    simp [ownerProgram, hopen, modSec]
  case ownerRefused =>
    refine ⟨ownerProgram s a v, rfl, ?_⟩
    have hprot : ownerProgram s a v = protWrite s (secBase + 0xC0) v := if_pos (by simpa using hbad)
    rw [hprot]
    exact ⟨protWrite_shape s _ v, protWrite_head _ v⟩

/-! ### Measurements -/

theorem bits_slot (v : W64) : bits v.toNat 2 0 = v.toNat % 8 := by simp [bits]

theorem mayExtend_iff (a : Agent) : mayExtend a = true ↔ a = .mgmt ∨ ∃ h, a = .hart h true := by
  cases a <;> simp [mayExtend]

/-- GO of slots 5 to 7. -/
theorem extCtlWrite_go {s : State} {a : Agent} {v : W64} (ha : mayExtend a = true) (hgo : v.getLsbD 63 = true)
    (hk : 5 ≤ v.toNat % 8) : extCtlWrite s a v = { s with sec := { s.sec with
      meas := tabPut s.sec.meas (v.toNat % 8) (sha512 (measure s (v.toNat % 8) ++ extDigest s))
      extSlot := BitVec.ofNat 3 (v.toNat % 8), extends_ := s.sec.extends_ + 1 } } := by
  simp only [extCtlWrite, ha, hgo, bits_slot, Bool.not_true, Bool.false_eq_true, if_false, if_pos hk]
  rfl

theorem measurementExtendRule : Claim.measurementExtendRule := by
  intro a v s
  refine ⟨fun ha hgo hk => ?extended, fun hbad => ?refused⟩
  case extended =>
    refine ⟨extCtlWrite s a v, rfl, ?_⟩
    rw [extCtlWrite_go ((mayExtend_iff a).2 ha) hgo hk]
    exact ⟨tabGet_tabPut_self _ _ _ _, fun k hne => tabGet_tabPut_ne _ _ _ hne.symm, rfl, rfl⟩
  case refused =>
    have hprot (u : State) : (protWrite u (secBase + 0x340) v).sec = u.sec := by rw [protWrite_shape]
    refine ⟨extCtlWrite s a v, rfl, ?_⟩
    by_cases ha : mayExtend a = true
    · obtain ⟨hm, hh⟩ | ⟨hgo, hk⟩ := hbad
      · obtain h | ⟨h, hhart⟩ := (mayExtend_iff a).1 ha
        · exact absurd h hm
        · exact absurd hhart (hh h)
      · have hw : extCtlWrite s a v = protWrite (modSec s fun x => { x with extSlot := BitVec.ofNat 3 (v.toNat % 8) })
            (secBase + 0x340) v := by
          simp only [extCtlWrite, ha, hgo, bits_slot, Bool.not_true, Bool.false_eq_true, if_false,
            if_neg (by omega : ¬ 5 ≤ v.toNat % 8)]
        rw [hw, hprot]
        exact ⟨rfl, rfl, protWrite_head (s := modSec s fun x => { x with extSlot := BitVec.ofNat 3 (v.toNat % 8) }) _ v⟩
    · have hw : extCtlWrite s a v = protWrite s (secBase + 0x340) v := by
        simp only [extCtlWrite, ha, Bool.not_false, if_true]
      rw [hw]
      refine ⟨congrArg _ (hprot s), congrArg _ (hprot s), protWrite_head _ v⟩

/-! ### The report -/

theorem ownerHashBytes_length (s : State) : (ownerHashBytes s).length = 64 := by
  simp [ownerHashBytes, List.length_flatMap]

/-- A report up to the nonce, in Table 17-10's order. -/
def reportFront (s : State) : Bytes :=
  [1] ++ toLe 1 (b2n s.sec.ownerSet + 2 * b2n s.sec.ownerVerified) ++ toLe 2 (ownModule s) ++ toLe 4 s.sec.svn.toNat ++
  toLe 4 s.sec.svnFloor.toNat ++ toLe 4 s.pur.fw.toNat ++ toLe 16 Config.serial.toNat

/-- A report from the time to the measurement slots. -/
def reportKeys (s : State) : Bytes :=
  toLe 8 s.hub.time.toNat ++ toLe 8 s.sec.extends_.toNat ++ toBe 64 Config.rootHash.toNat ++
  (if s.sec.ownerSet then ownerHashBytes s else zeros64) ++ toLe 48 0

/-- What stands before the eight measurement slots of a report. -/
def reportHead (s : State) (nonce : Bytes) : Bytes := reportFront s ++ (nonce ++ reportKeys s)

/-- What stands after them: ALG and the signature. -/
def reportTail (s : State) (nonce : Bytes) : Bytes :=
  toLe 2 1 ++ toLe 2 0 ++ (List.range 132).map (Config.identitySign (reportBody s nonce) (toLe 8 s.freeCtr)) ++ toLe 120 0

theorem reportBytes_eq (s : State) (nonce : Bytes) :
    reportBytes s nonce = reportHead s nonce ++ ((List.range 8).flatMap (measure s) ++ reportTail s nonce) := by
  simp only [reportBytes, reportBody, reportHead, reportFront, reportKeys, reportTail, List.append_assoc]

@[simp] theorem toBe_length (n v : Nat) : (toBe n v).length = n := by simp [toBe]

theorem reportHead_length (s : State) {nonce : Bytes} (h : nonce.length = 32) : (reportHead s nonce).length = 256 := by
  simp only [reportHead, reportFront, reportKeys, List.length_append, toLe_length, toBe_length, h, List.length_singleton,
    apply_ite List.length, ownerHashBytes_length, zeros64, List.length_replicate, ite_self]

theorem reportTail_length (s : State) (nonce : Bytes) : (reportTail s nonce).length = 256 := by
  simp [reportTail]

theorem flatMap_length_const {f : Nat → Bytes} {m : Nat} (h : ∀ k, (f k).length = m) (n : Nat) :
    ((List.range n).flatMap f).length = m * n := by
  simp [List.length_flatMap, h, mul_comm]

/-- Block `k` of blocks of equal length. -/
theorem flatMap_range_block {f : Nat → Bytes} {m : Nat} (h : ∀ k, (f k).length = m) {k n : Nat} (hk : k < n) (r : Bytes) :
    ((((List.range n).flatMap f ++ r).drop (m * k)).take m) = f k := by
  obtain ⟨j, rfl⟩ : ∃ j, n = k + (1 + j) := ⟨n - k - 1, by omega⟩
  rw [List.range_add, List.flatMap_append, List.append_assoc, List.drop_left' (flatMap_length_const h k), List.range_add,
    List.map_append, List.flatMap_append, List.append_assoc]
  simp only [List.range_one, List.map_singleton, List.flatMap_singleton, Nat.add_zero]
  exact List.take_left' (h k)

theorem reportBytes_length {s : State} {nonce : Bytes} (hn : nonce.length = 32) (hm : ∀ k, (measure s k).length = 64) :
    (reportBytes s nonce).length = 1024 := by
  rw [reportBytes_eq, List.length_append, List.length_append, reportHead_length s hn, flatMap_length_const hm,
    reportTail_length]

/-- Slot `k` of the measurements in a report. -/
theorem reportBytes_slot {s : State} {nonce : Bytes} (hn : nonce.length = 32) (hm : ∀ k, (measure s k).length = 64) {k : Nat}
    (hk : k < 8) : ((reportBytes s nonce).drop (256 + 64 * k)).take 64 = measure s k := by
  rw [reportBytes_eq, ← List.drop_drop, List.drop_left' (reportHead_length s hn)]
  exact flatMap_range_block hm hk _

/-- The report's first bytes: the first fields of its head. -/
theorem reportBytes_fields {s : State} {nonce : Bytes} (hn : nonce.length = 32) :
    fld (reportBytes s nonce) 4 4 = s.sec.svn.toNat ∧ fld (reportBytes s nonce) 8 4 = s.sec.svnFloor.toNat ∧
    ((reportBytes s nonce).drop 32).take 32 = nonce ∧ fld (reportBytes s nonce) 64 8 = s.hub.time.toNat := by
  have hfront : (reportFront s).length = 32 := by simp [reportFront]
  have hsvn : fld (reportFront s) 4 4 = s.sec.svn.toNat := leNat_toLe_of_lt (n := 4) s.sec.svn.isLt
  have hfloor : fld (reportFront s) 8 4 = s.sec.svnFloor.toNat := leNat_toLe_of_lt (n := 4) s.sec.svnFloor.isLt
  have htime : fld (reportKeys s) 0 8 = s.hub.time.toNat := leNat_toLe_of_lt (n := 8) s.hub.time.isLt
  have hkeys : 8 ≤ (reportKeys s).length := by simp [reportKeys]
  rw [reportBytes_eq, reportHead, List.append_assoc, List.append_assoc]
  refine ⟨?_, ?_, ?_, ?_⟩
  · rw [fld_append_left _ (by omega), hsvn]
  · rw [fld_append_left _ (by omega), hfloor]
  · rw [List.drop_left' hfront, List.take_left' hn]
  · rw [fld_append_right _ _ (by omega), fld_append_right _ _ (by omega), hfront, hn, fld_append_left _ hkeys, htime]

theorem mayAccess_wheel {s : State} {a n : Nat} (h : a + n ≤ cacheBase) : mayAccess s (whoPurser none) a n true = true := by
  have hend : a + n ≤ unifiedEnd := by simp only [cacheBase, unifiedEnd] at *; omega
  simp [mayAccess, whoPurser, hend, Nat.not_lt.2 h]

/-- ATTEST without the certificate area. -/
theorem attest_eq {s : State} {id : Nat} {c : PCmd} (hc : getCmd s id = some c) (hop : c.opcode = 0x05)
    (hph : c.phase = .held) (hg : c.guest = none) (hw : purWorks s = true) (hu : unfenced s id c = true)
    (hparts : (getMb s c.mb).parts = 0xFFFF) (hal : fld c.desc 16 8 % 64 = 0) (hlo : wheelBase ≤ fld c.desc 16 8)
    (hhi : fld c.desc 16 8 + 1024 ≤ cacheBase) (hall : fld c.desc 24 1 = 0) (hclean : Claim.clean s)
    (hdesc : c.desc.length = 64) (hm : ∀ k, (measure s k).length = 64) : ∃ u,
      Wrote { s with freeCtr := s.freeCtr + 1 } u (fld c.desc 16 8) (reportBytes s (part c.desc 32 32)) ∧
      attest s id = endCmd u id .ok 1024 := by
  have hn : (part c.desc 32 32).length = 32 := by simp [part, hdesc]
  have hlen := reportBytes_length hn hm
  obtain ⟨u, hu', hwr⟩ := wr_of_clean (s := { s with freeCtr := s.freeCtr + 1 }) (w := whoPurser none)
    (a := fld c.desc 16 8) (b := reportBytes s (part c.desc 32 32)) hclean (by rw [hlen]; exact mayAccess_wheel hhi)
  refine ⟨u, hwr, ?_⟩
  have hbit : bit 0 0 = false := rfl
  have hend : ¬ unifiedEnd < fld c.desc 16 8 + 1024 := by simp only [cacheBase, unifiedEnd] at *; omega
  rw [attest, startRow_of hc (by rw [hop]; rfl) hph hg hw hu]
  simp only [hparts, hal, hall, hbit, ne_eq, not_true_eq_false, decide_false, Bool.false_or,
    Bool.false_eq_true, if_false, List.append_nil, Nat.not_lt.2 hlo, hend, runAct_ok hu']
  rfl

theorem attestWritesReport : Claim.attestWritesReport := by
  intro id c s hc hop hph hg hw hu hparts hdesc hal hlo hhi hall hhbm hsram hm
  have hn : (part c.desc 32 32).length = 32 := by simp [part, hdesc]
  have hlen := reportBytes_length hn hm
  obtain ⟨u, hwr, heq⟩ := attest_eq hc hop hph hg hw hu hparts hal hlo hhi hall ⟨hhbm, hsram⟩ hdesc hm
  refine ⟨endCmd u id .ok 1024, congrArg _ heq, ?_⟩
  have hcu : getCmd u id = some c := by rw [hwr.eq]; exact hc
  have hread : memRead (endCmd u id .ok 1024).mem.bytes (fld c.desc 16 8) 1024 = reportBytes s (part c.desc 32 32) := by
    rw [endCmd_mem, hwr.bytes, ← hlen, memRead_memWrite]
  obtain ⟨hsvn, hfloor, hnonce, htime⟩ := reportBytes_fields hn
  dsimp only
  rw [hread]
  refine ⟨hlen, hsvn, hfloor, hnonce, htime, fun k hk => reportBytes_slot hn hm hk, ?_, fun a ha => ?_⟩
  · rw [endCmd_held hcu, hwr.eq]; rfl
  · rw [endCmd_mem, hwr.bytes, memGet_memWrite, hlen, if_neg (by omega)]

/-- Settles O21: GO extends a slot, and ATTEST writes the report over the slots. -/
theorem measuredAndAttested : Obligations.MeasuredAndAttested := ⟨measurementExtendRule, attestWritesReport⟩

end Sys2Proof.Proofs
end

