-- ==== Sys2Proof/Proofs/Session.lean ====
section
/-! PROOFS. The download session, from SOLICIT to its end (spec/17 R433-R435, Tables 17-2, 17-3). -/

namespace Sys2Proof.Proofs

open Sys2Proof Sys2Proof.Machine Sys2Proof.Laws

/-! ### What the management port accepts -/

/-- A datagram that is accepted reaches its row. -/
theorem datagram_of_accepted {s : State} {d : Datagram} (h : Claim.accepted s d) (f : State → State) :
    datagram s d f = f s := by
  obtain ⟨hlink, hport, hlocal, hhops, hok⟩ := h
  have hprefix : bits d.host.addr.toNat 127 118 = 0x3FA := by
    rw [bits, hlocal]; rfl
  simp [datagram, hlink, hport, hprefix, hhops, hok]

/-! ### SOLICIT -/

theorem solicitPayload_length (s : State) : (solicitPayload s).length = 32 := by simp [solicitPayload]

/-- OWNER_SET, the floor and the largest size in the payload of SOLICIT. -/
theorem solicitPayload_fields (s : State) : fld (solicitPayload s) 18 2 = b2n s.sec.ownerSet ∧
    fld (solicitPayload s) 20 4 = s.sec.svnFloor.toNat ∧ fld (solicitPayload s) 24 4 = 536870912 := by
  refine ⟨?_, ?_, ?_⟩
  · exact leNat_toLe_of_lt (n := 2) (by unfold b2n; split <;> decide)
  · exact leNat_toLe_of_lt (n := 4) s.sec.svnFloor.isLt
  · exact leNat_toLe_of_lt (n := 4) (by decide)

/-- A steward that asks sends its SOLICIT to every node of the management port's link. -/
theorem solicit_of_steward {s : State} (hph : s.sec.phase = .soliciting) (hslot : s.fry.slot = 0) (hlink : s.hub.link = true) :
    solicit s = sendImage s allNodes (imgBytes 1 (ownModule s) 0 0 0 (solicitPayload s)) := by
  have hsteward : isSteward s = true := by simp [isSteward, hslot]
  have hsame : (modSec s fun x => { x with phase := .soliciting }) = s := by rw [modSec, ← hph]
  have hout (h : ImgHost) (b : Bytes) : isSteward (sendImage s h b) = isSteward s := rfl
  simp only [solicit, hph, hsame, hlink, hsteward, hout, ne_eq, not_true_eq_false, decide_false, Bool.false_and,
    Bool.false_eq_true, if_false, Bool.true_or, Bool.and_true, if_true, Bool.not_true]

/-! ### BLOCK -/

theorem mem_insertNat (k j : Nat) (l : List Nat) : j ∈ insertNat k l ↔ j = k ∨ j ∈ l := by
  induction l with
  | nil => simp [insertNat]
  | cons i l ih =>
    unfold insertNat
    split
    · simp
    · split
      · subst k; simp
      · simp only [List.mem_cons, ih]; tauto

theorem extend_session (s : State) (k : Nat) (d : Bytes) : (extend s k d).sec.session = s.sec.session := rfl

theorem raise_sec (s : State) (code : EvtCode) (src : BitVec 16) (detail : Bytes) : (raise s code src detail).sec = s.sec := by
  obtain ⟨e, o, h⟩ := logEntry_shape s { code := some code, source := src, detail := detail }
  rw [raise, h]

/-- What each step of a fold keeps, the fold keeps. -/
theorem foldl_keeps {α β : Type} {f : State → α → State} {g : State → β} (h : ∀ s a, g (f s a) = g s) (l : List α) (s : State) :
    g (l.foldl f s) = g s := by
  induction l generalizing s with
  | nil => rfl
  | cons a l ih => rw [List.foldl_cons, ih, h]

/-- The blocks of a session stay as they are when its check is decided. -/
theorem decide_session (s : State) (st : Status) (hashed : Bool) : ∃ digest,
    (decide_ s st hashed).sec.session = { s.sec.session with verdict := st, digest := digest } := by
  simp only [decide_]
  split
  · refine ⟨_, (foldl_keeps (g := fun s => s.sec.session) (fun s t => ?_) _ _).trans rfl⟩
    split <;> rfl
  · exact ⟨_, by rw [raise_sec]; rfl⟩

/-- A session with one block more. -/
def withBlock (s : State) (b : Bytes) : Session :=
  { s.sec.session with got := insertNat (imgSeq b) s.sec.session.got, last := s.hub.time
                       staging := memWrite s.sec.session.staging (imgSeq b * 4096) (b.drop 16) }

/-- A BLOCK that is accepted is stored, and leaves the check undecided or decided. -/
theorem bundleBlock_stores {s : State} {b : Bytes} (hph : s.sec.phase = .open_) (hty : imgType b = 3)
    (hmine : imgMine s b = true) (hid : imgSession b = s.sec.session.id) (hlen : b.length = 4112)
    (hseq : imgSeq b < s.sec.session.size / 4096) (hnew : imgSeq b ∉ s.sec.session.got) : ∃ v g,
    (bundleBlock s b none).sec.session = { withBlock s b with verdict := v, digest := g } := by
  have hcond : (s.sec.phase = .open_ && imgType b = 3 && imgMine s b && imgSession b = s.sec.session.id &&
      b.length = 4112 && imgSeq b < s.sec.session.size / 4096 && !s.sec.session.got.contains (imgSeq b)) = true := by
    simp [hph, hty, hmine, hid, hlen, hseq, hnew]
  simp only [bundleBlock]
  rw [if_pos hcond]
  split
  · obtain ⟨g, hg⟩ := decide_session (modSec s fun y => { y with session := withBlock s b }) ‹_› ‹_›
    exact ⟨_, _, hg⟩
  · exact ⟨_, _, rfl⟩

theorem bundleBlock_repeated {s : State} {b : Bytes} (hold : imgSeq b ∈ s.sec.session.got) (bad : Option Nat) :
    bundleBlock s b bad = s := by
  simp [bundleBlock, hold]

/-! ### STATE -/

theorem statePayload_length (x : Session) : (statePayload x).length = 144 := by simp [statePayload]

/-- Every block below the lowest one missing has come, and that one has not. -/
theorem nextBlock_spec (x : Session) : (∀ k, k < nextBlock x → k ∈ x.got) ∧
    (nextBlock x < x.size / 4096 → nextBlock x ∉ x.got) := by
  unfold nextBlock
  cases h : (List.range (x.size / 4096)).find? fun i => !x.got.contains i with
  | none =>
    rw [List.find?_eq_none] at h
    refine ⟨fun k hk => ?_, fun hlt => absurd hlt (Nat.lt_irrefl _)⟩
    simpa using h k (List.mem_range.2 hk)
  | some n =>
    have hmiss := List.find?_some h
    refine ⟨fun k hk => ?_, fun _ => by simpa using hmiss⟩
    obtain ⟨-, hbefore⟩ := List.find?_range_eq_some.1 h
    simpa using hbefore.2 k hk

/-! ### The session -/

/-- Settles O18: each message of the session, by its row. -/
theorem downloadSession : Obligations.DownloadSession := by
  refine ⟨fun s hph hslot hlink => ?solicit, fun d s hacc hty hph hmine hid hlen hmod hlo hhi => ?offer,
    fun d s hacc hty hph hmine hid hlen hseq => ⟨fun hold => ?again, fun hnew => ?block⟩, fun h s hph hvia => ?state,
    fun s hph => ?abandon⟩
  case solicit =>
    obtain ⟨howner, hfloor, hmax⟩ := solicitPayload_fields s
    refine ⟨_, congrArg Host.Outcome.next (solicit_of_steward hph hslot hlink), _, rfl, ?_⟩
    refine ⟨by rw [imgType_imgBytes], by rw [imgSession_imgBytes]; rfl,
      imgOk_imgBytes _ _ _ _ _ _ (by decide) (by rw [solicitPayload_length]; decide), ?_, ?_, ?_⟩
    · rw [fld_payload_imgBytes _ _ _ _ _ _ 18 2, howner]; rfl
    · rw [fld_payload_imgBytes _ _ _ _ _ _ 20 4, hfloor]
    · rw [fld_payload_imgBytes _ _ _ _ _ _ 24 4, hmax]
  case offer =>
    have hm : imgMine s d.bytes = true := by simpa [imgMine] using hmine
    have htake : takeOffer s (.port d.host) d.bytes = { s with sec := { s.sec with
        phase := .open_, session := { id := imgSession d.bytes, via := .port d.host, size := fld d.bytes 16 4, last := s.hub.time } } } := by
      have hid' : (imgSession d.bytes ≠ 0) = True := eq_true hid
      simp only [takeOffer, hph, hty, hm, hid', hlen, hmod, hlo, hhi, decide_true, Bool.and_self, if_true]
      rfl
    refine ⟨_, congrArg Host.Outcome.next ((datagram_of_accepted hacc _).trans htake), rfl, fun e he => ?_⟩
    refine congrArg Host.Outcome.next ((datagram_of_accepted he _).trans ?_)
    simp [takeOffer]
  case again => exact congrArg Host.Outcome.next ((datagram_of_accepted hacc _).trans (bundleBlock_repeated hold none))
  case block =>
    obtain ⟨v, g, hsession⟩ := bundleBlock_stores hph hty hmine hid hlen hseq hnew
    refine ⟨_, congrArg Host.Outcome.next (datagram_of_accepted hacc _), ?_⟩
    dsimp only
    rw [hsession]
    refine ⟨fun k => mem_insertNat _ _ _, fun a => ?_, rfl⟩
    have hdrop : (d.bytes.drop 16).length = 4096 := by rw [List.length_drop, hlen]
    simp only [withBlock, memGet_memWrite, hdrop, List.getD_eq_getElem?_getD, List.getElem?_drop]
  case state =>
    obtain ⟨hgot, hmiss⟩ := nextBlock_spec s.sec.session
    refine ⟨stateSend s, rfl, imgBytes 4 (ownModule s) s.sec.session.id.toNat 0 0 (statePayload s.sec.session),
      nextBlock s.sec.session, by simp [stateSend, hph, hvia, imgReply, sendImage, emit], ?_, ?_, ?_, ?_, hgot, hmiss⟩
    · rw [imgType_imgBytes]
    · exact imgOk_imgBytes _ _ _ _ _ _ (by decide) (by rw [statePayload_length]; decide)
    · rw [imgSession_imgBytes, BitVec.ofNat_toNat, BitVec.setWidth_eq]
    · rw [fld_payload_imgBytes _ _ _ _ _ _ 0 4]; exact leNat_toLe 4 _
  case abandon =>
    show Host.Outcome.next (sessionAbandon s) = _
    simp [sessionAbandon, hph, modSec]

end Sys2Proof.Proofs
end

