-- ==== Sys2Proof/Proofs/Voltage.lean ====
section
/-! PROOFS. Rate windows and voltage control (spec/02 R42-R52). -/

namespace Sys2Proof.Proofs

open Sys2Proof Sys2Proof.Machine Sys2Proof.Laws

/-- One bit set in a word of a bit for each deck. -/
theorem getLsbD_or_bit (x : BitVec 4) {d : Nat} (hd : d < 4) (k : Nat) :
    (x ||| BitVec.ofNat 4 (2 ^ k)).getLsbD d = (x.getLsbD d || decide (d = k)) := by
  simp only [BitVec.getLsbD_or, BitVec.getLsbD_ofNat, Nat.testBit_two_pow, hd, decide_true, Bool.true_and, eq_comm]

/-! ### One deck's control step -/

/-- The setpoint that a control step gives a deck, in mV. -/
def nextMv (pIn : Nat) (s : State) (d : Nat) : Nat :=
  newSetpoint (tabGet {} s.pwr.vset d).mv.toNat (deckTj s d) (tabGet {} s.pwr.deckCtl d).tjCap.toNat pIn s.pwr.pcap.toNat
    (tabGet {} s.pwr.deckCtl d).vmax.toNat

/-- Whether a control step leaves a deck at 620 mV above its cap. -/
def leftPinned (pIn : Nat) (s : State) (d : Nat) : Bool :=
  nextMv pIn s d = 620 && (tabGet {} s.pwr.deckCtl d).tjCap.toNat < deckTj s d

theorem nextMv_lt (pIn : Nat) (s : State) (d : Nat) : nextMv pIn s d < 2 ^ 10 := by
  have hv := (tabGet {} s.pwr.deckCtl d).vmax.isLt
  simp only [nextMv, newSetpoint]
  omega

/-- What the control steps of the decks of `l` have made of `s`. -/
structure Stepped (pIn : Nat) (s t : State) (l : List Nat) : Prop where
  mv : ∀ d, (tabGet {} t.pwr.vset d).mv = if d ∈ l then BitVec.ofNat 10 (nextMv pIn s d) else (tabGet {} s.pwr.vset d).mv
  pinned : ∀ d, d < 4 → t.pwr.pinned.getLsbD d = (s.pwr.pinned.getLsbD d || (decide (d ∈ l) && leftPinned pIn s d))
  head : t.evt.head = s.evt.head + BitVec.ofNat 64 (l.filter (leftPinned pIn s)).length
  buf : t.evt.buf ≤ s.evt.buf + l.length
  frame : t = { s with pwr := { s.pwr with vset := t.pwr.vset, pinned := t.pwr.pinned }, evt := t.evt, outs := t.outs }

theorem Stepped.refl (pIn : Nat) (s : State) : Stepped pIn s s [] := by
  constructor <;> simp

/-- A deck that has had no step yet is as it was. -/
theorem Stepped.nextMv_eq {pIn : Nat} {s t : State} {l : List Nat} (h : Stepped pIn s t l) {d : Nat} (hd : d ∉ l) :
    nextMv pIn t d = nextMv pIn s d := by
  have hmv := h.mv d
  rw [if_neg hd] at hmv
  have hctl : t.pwr.deckCtl = s.pwr.deckCtl := by rw [h.frame]
  have hcap : t.pwr.pcap = s.pwr.pcap := by rw [h.frame]
  have hmon : t.pwr.monitors = s.pwr.monitors := by rw [h.frame]
  simp only [nextMv, deckTj, getMonitor, hmv, hctl, hcap, hmon]

theorem Stepped.leftPinned_eq {pIn : Nat} {s t : State} {l : List Nat} (h : Stepped pIn s t l) {d : Nat} (hd : d ∉ l) :
    leftPinned pIn t d = leftPinned pIn s d := by
  have hctl : t.pwr.deckCtl = s.pwr.deckCtl := by rw [h.frame]
  have hmon : t.pwr.monitors = s.pwr.monitors := by rw [h.frame]
  have htj : deckTj t d = deckTj s d := by simp only [deckTj, getMonitor, hmon]
  rw [leftPinned, leftPinned, h.nextMv_eq hd, htj, hctl]

/-- The new setpoint of a deck, as its step stores it. -/
def setMv (pIn : Nat) (s : State) (d : Nat) : State :=
  let c := tabGet {} s.pwr.deckCtl d
  let limit := limitCode (nextMv pIn s d) (deckTj s d) c.tjCap.toNat pIn s.pwr.pcap.toNat c.vmax.toNat
  modPwr s fun x => { x with vset := tabPut x.vset d { limit := limit, mv := BitVec.ofNat 10 (nextMv pIn s d) } }

theorem deckStep_cases (pIn : Nat) (s : State) (d : Nat) : deckStep pIn s d =
    if leftPinned pIn s d then
      raise (modPwr (setMv pIn s d) fun x => { x with pinned := x.pinned ||| BitVec.ofNat 4 (2 ^ d) }) .pinned pwrSrc
        (toLe 1 d ++ toLe 1 (deckTj s d))
    else setMv pIn s d := rfl

/-- The next deck's step. -/
theorem Stepped.snoc {pIn : Nat} {s t : State} {l : List Nat} (h : Stepped pIn s t l) {d : Nat} (hd : d ∉ l)
    (hroom : s.evt.buf + l.length < 256) : Stepped pIn s (deckStep pIn t d) (l ++ [d]) := by
  have hbuf := h.buf
  have hmv (k : Nat) : (tabGet {} (setMv pIn t d).pwr.vset k).mv =
      if k ∈ l ++ [d] then BitVec.ofNat 10 (nextMv pIn s k) else (tabGet {} s.pwr.vset k).mv := by
    simp only [setMv, modPwr, tabGet_tabPut]
    by_cases hk : d = k
    · subst hk; simp [h.nextMv_eq hd]
    · rw [if_neg hk, h.mv k]; simp [Ne.symm hk]
  have hframe : setMv pIn t d = { s with
      pwr := { s.pwr with vset := (setMv pIn t d).pwr.vset, pinned := t.pwr.pinned }, evt := t.evt, outs := t.outs } := by
    have h' := h.frame
    rw [setMv, modPwr]; dsimp only; rw [h']
  have hfilter : ((l ++ [d]).filter (leftPinned pIn s)).length =
      (l.filter (leftPinned pIn s)).length + if leftPinned pIn s d then 1 else 0 := by
    rw [List.filter_append, List.length_append, List.filter_singleton]
    cases leftPinned pIn s d <;> rfl
  rw [deckStep_cases, h.leftPinned_eq hd]
  cases hp : leftPinned pIn s d with
  | false =>
    refine ⟨hmv, fun k hk => ?_, ?_, ?_, hframe⟩
    · have hne : (decide (k ∈ l ++ [d]) && leftPinned pIn s k) = (decide (k ∈ l) && leftPinned pIn s k) := by
        by_cases hkd : k = d
        · subst hkd; simp [hp]
        · simp [hkd]
      rw [hne]; exact h.pinned k hk
    · rw [hfilter, hp]; exact h.head
    · rw [List.length_append]; exact Nat.le_trans hbuf (by omega)
  | true =>
    obtain ⟨u, hu⟩ : ∃ u, u = modPwr (setMv pIn t d) fun x => { x with pinned := x.pinned ||| BitVec.ofNat 4 (2 ^ d) } := ⟨_, rfl⟩
    have hue : u.evt = t.evt := by rw [hu]; rfl
    have hupwr : u.pwr = { (setMv pIn t d).pwr with pinned := t.pwr.pinned ||| BitVec.ofNat 4 (2 ^ d) } := by rw [hu]; rfl
    obtain ⟨e, o, he⟩ := logEntry_shape u
      { code := some .pinned, source := pwrSrc, detail := toLe 1 d ++ toLe 1 (deckTj t d) }
    have hlt : u.evt.buf < 256 := by rw [hue]; omega
    have hhead := logEntry_head { code := some .pinned, source := pwrSrc, detail := toLe 1 d ++ toLe 1 (deckTj t d) } hlt
    have hble := logEntry_buf_le u { code := some .pinned, source := pwrSrc, detail := toLe 1 d ++ toLe 1 (deckTj t d) }
    rw [if_pos rfl, ← hu, raise]
    rw [he] at hhead hble ⊢
    rw [hue] at hhead hble
    refine ⟨fun k => ?_, fun k hk => ?_, ?_, ?_, ?_⟩
    · dsimp only; rw [hupwr]; exact hmv k
    · dsimp only; rw [hupwr, getLsbD_or_bit _ hk, h.pinned k hk]
      by_cases hkd : k = d
      · subst hkd; simp [hp]
      · simp [hkd]
    · dsimp only at hhead ⊢
      rw [hhead, h.head, hfilter, hp, if_pos rfl, BitVec.ofNat_add, BitVec.add_assoc]; rfl
    · dsimp only at hble ⊢; rw [List.length_append]; exact Nat.le_trans hble (by simp; omega)
    · rw [hu, modPwr, hframe]

/-- The four decks' steps, one after the other. -/
theorem stepped_decks (pIn : Nat) {s : State} (hbuf : s.evt.buf ≤ 252) :
    Stepped pIn s ((List.range 4).foldl (deckStep pIn) s) [0, 1, 2, 3] := by
  have hall : List.range 4 = [0, 1, 2, 3] := rfl
  rw [hall, List.foldl_cons, List.foldl_cons, List.foldl_cons, List.foldl_cons, List.foldl_nil]
  have h0 := (Stepped.refl pIn s).snoc (d := 0) (by decide) (by simp only [List.length_nil]; omega)
  have h1 := h0.snoc (d := 1) (by decide) (by simp only [List.length_append, List.length_nil, List.length_singleton]; omega)
  have h2 := h1.snoc (d := 2) (by decide) (by simp only [List.length_append, List.length_nil, List.length_singleton]; omega)
  exact h2.snoc (d := 3) (by decide) (by simp only [List.length_append, List.length_nil, List.length_singleton]; omega)

theorem deckTj_eq (s : State) (d : Nat) :
    deckTj s d = ((List.range 4).map fun m => (tabGet {} s.pwr.monitors (4 * d + m)).tj.toNat).foldl max 0 := by
  simp [deckTj, getMonitor, List.range_succ, max_assoc]

theorem voltageControlStepMovesSetpoints : Claim.voltageControlStepMovesSetpoints := by
  intro pIn s hon hbuf
  have h := stepped_decks pIn hbuf
  have hmem (d : Nat) (hd : d < 4) : d ∈ [0, 1, 2, 3] := List.mem_range.2 hd
  have hmv (d : Nat) (hd : d < 4) :
      (tabGet {} ((List.range 4).foldl (deckStep pIn) s).pwr.vset d).mv.toNat = nextMv pIn s d := by
    rw [h.mv d, if_pos (hmem d hd), BitVec.toNat_ofNat, Nat.mod_eq_of_lt (nextMv_lt pIn s d)]
  refine ⟨(List.range 4).foldl (deckStep pIn) s, congrArg Host.Outcome.next (if_pos hon), fun d hd => ⟨?mv, ?pinned⟩, ?head, h.frame⟩
  case mv =>
    rw [hmv d hd, nextMv, newSetpoint, deckTj_eq, max_comm]
    simp only [Bool.or_eq_true, Bool.and_eq_true, decide_eq_true_eq]
  case pinned =>
    rw [h.pinned d hd, hmv d hd, decide_eq_true (hmem d hd), leftPinned, deckTj_eq, Bool.true_and]
    simp only [Bool.decide_and]
  case head =>
    have hcount : [0, 1, 2, 3].filter (leftPinned pIn s) = (List.range 4).filter fun d =>
        (tabGet {} ((List.range 4).foldl (deckStep pIn) s).pwr.vset d).mv.toNat = 620 ∧ (tabGet {} s.pwr.deckCtl d).tjCap.toNat <
          ((List.range 4).map fun m => (tabGet {} s.pwr.monitors (4 * d + m)).tj.toNat).foldl max 0 := by
      refine List.filter_congr fun d hd => ?_
      rw [hmv d (List.mem_range.1 hd), leftPinned, deckTj_eq, Bool.decide_and]
    rw [h.head, hcount, BitVec.toNat_add, BitVec.toNat_ofNat, Nat.add_mod_mod]

/-! ### Rate windows -/

/-- A monitor's register after a window. -/
def readMonitor (r : List RateReading) (i : Nat) (y : Monitor) : Monitor :=
  { seq := y.seq + 1, tj := (r.getD i ⟨0, 0⟩).tj, rate := windowRate (r.getD i ⟨0, 0⟩).count }

/-- The monitors' registers after a window. -/
@[irreducible] def windowMonitors (r : List RateReading) (t : Tab Monitor) : Tab Monitor :=
  (List.range 16).foldl (fun t i => tabMod {} t i (readMonitor r i)) t

/-- A fold that changes each key of a list of keys once. -/
theorem tabGet_foldl_tabMod {α : Type} (d : α) (f : Nat → α → α) (l : List Nat) (hl : l.Nodup) (t : Tab α) (k : Nat) :
    tabGet d (l.foldl (fun t i => tabMod d t i (f i)) t) k = if k ∈ l then f k (tabGet d t k) else tabGet d t k := by
  induction l generalizing t with
  | nil => simp
  | cons i l ih =>
    obtain ⟨hi, hl⟩ := List.nodup_cons.1 hl
    rw [List.foldl_cons, ih hl, tabGet_tabMod]
    by_cases hk : i = k
    · subst hk; simp [hi]
    · simp [hk, Ne.symm hk]

theorem tabGet_windowMonitors (r : List RateReading) (t : Tab Monitor) {i : Nat} (hi : i < 16) :
    tabGet {} (windowMonitors r t) i = readMonitor r i (tabGet {} t i) := by
  rw [windowMonitors, tabGet_foldl_tabMod {} (readMonitor r) _ List.nodup_range, if_pos (List.mem_range.2 hi)]

/-- What the ends of the windows of the decks of `l` have made of `s`. -/
structure Windowed (r : List RateReading) (s t : State) (l : List Nat) : Prop where
  rateMin : ∀ d, tabGet 0xFFFFF t.pwr.rateMin d =
    if d ∈ l then BitVec.ofNat 20 (min (deckRate s d) (tabGet 0xFFFFF s.pwr.rateMin d).toNat)
    else tabGet 0xFFFFF s.pwr.rateMin d
  beats : ∀ d, tabGet 0 t.pwr.beats d =
    if d ∈ l then tabGet 0 s.pwr.beats d + w64 (r.getD (4 * d) ⟨0, 0⟩).count else tabGet 0 s.pwr.beats d
  rateLow : ∀ d, d < 4 → t.pwr.rateLow.getLsbD d =
    (s.pwr.rateLow.getLsbD d || (decide (d ∈ l) && decide (deckRate s d < rateFloor)))
  frame : t = { s with evt := t.evt, outs := t.outs, pwr := { s.pwr with
    rateMin := t.pwr.rateMin, beats := t.pwr.beats, rateLow := t.pwr.rateLow } }

theorem Windowed.refl (r : List RateReading) (s : State) : Windowed r s s [] := by
  constructor <;> simp

theorem Windowed.deckRate_eq {r : List RateReading} {s t : State} {l : List Nat} (h : Windowed r s t l) (d : Nat) :
    deckRate t d = deckRate s d := by
  have hmon : t.pwr.monitors = s.pwr.monitors := by rw [h.frame]
  simp only [deckRate, getMonitor, hmon]

/-- A deck's lowest rate kept and its beats counted. -/
def countWindow (r : List RateReading) (s : State) (d : Nat) : State :=
  modPwr s fun x => { x with
    rateMin := tabPut x.rateMin d (BitVec.ofNat 20 (min (deckRate s d) (tabGet 0xFFFFF x.rateMin d).toNat))
    beats := tabMod 0 x.beats d fun n => n + w64 (r.getD (4 * d) ⟨0, 0⟩).count }

theorem deckWindow_cases (r : List RateReading) (s : State) (d : Nat) : deckWindow r s d =
    if deckRate s d < rateFloor then
      raise (modPwr (countWindow r s d) fun x => { x with rateLow := x.rateLow ||| BitVec.ofNat 4 (2 ^ d) }) .rateLow pwrSrc
        (toLe 1 d ++ toLe 3 0 ++ toLe 4 (deckRate s d))
    else countWindow r s d := rfl

/-- The end of the next deck's window. -/
theorem Windowed.snoc {r : List RateReading} {s t : State} {l : List Nat} (h : Windowed r s t l) {d : Nat} (hd : d ∉ l) :
    Windowed r s (deckWindow r t d) (l ++ [d]) := by
  have hmin (k : Nat) : tabGet 0xFFFFF (countWindow r t d).pwr.rateMin k =
      if k ∈ l ++ [d] then BitVec.ofNat 20 (min (deckRate s k) (tabGet 0xFFFFF s.pwr.rateMin k).toNat)
      else tabGet 0xFFFFF s.pwr.rateMin k := by
    simp only [countWindow, modPwr, tabGet_tabPut, h.rateMin, h.deckRate_eq]
    by_cases hk : d = k
    · subst hk; simp [hd]
    · simp [hk, Ne.symm hk]
  have hbeats (k : Nat) : tabGet 0 (countWindow r t d).pwr.beats k =
      if k ∈ l ++ [d] then tabGet 0 s.pwr.beats k + w64 (r.getD (4 * k) ⟨0, 0⟩).count else tabGet 0 s.pwr.beats k := by
    simp only [countWindow, modPwr, tabGet_tabMod, h.beats]
    by_cases hk : d = k
    · subst hk; simp [hd]
    · simp [hk, Ne.symm hk]
  have hframe : countWindow r t d = { s with evt := t.evt, outs := t.outs, pwr := { s.pwr with
      rateMin := (countWindow r t d).pwr.rateMin, beats := (countWindow r t d).pwr.beats, rateLow := t.pwr.rateLow } } := by
    have h' := h.frame
    rw [countWindow, modPwr]; dsimp only; rw [h']
  have hlow (k : Nat) (hk : k < 4) : (t.pwr.rateLow.getLsbD k || (decide (k = d) && decide (deckRate s d < rateFloor))) =
      (s.pwr.rateLow.getLsbD k || (decide (k ∈ l ++ [d]) && decide (deckRate s k < rateFloor))) := by
    rw [h.rateLow k hk]
    by_cases hkd : k = d
    · subst hkd; simp [hd]
    · simp [hkd]
  rw [deckWindow_cases, h.deckRate_eq]
  by_cases hslow : deckRate s d < rateFloor
  · obtain ⟨u, hu⟩ : ∃ u, u = modPwr (countWindow r t d) fun x => { x with rateLow := x.rateLow ||| BitVec.ofNat 4 (2 ^ d) } :=
      ⟨_, rfl⟩
    obtain ⟨e, o, he⟩ := logEntry_shape u
      { code := some .rateLow, source := pwrSrc, detail := toLe 1 d ++ toLe 3 0 ++ toLe 4 (deckRate s d) }
    have hupwr : u.pwr = { (countWindow r t d).pwr with rateLow := t.pwr.rateLow ||| BitVec.ofNat 4 (2 ^ d) } := by
      rw [hu]; rfl
    rw [if_pos hslow, ← hu, raise, he]
    refine ⟨fun k => ?_, fun k => ?_, fun k hk => ?_, ?_⟩
    · dsimp only; rw [hupwr]; exact hmin k
    · dsimp only; rw [hupwr]; exact hbeats k
    · dsimp only; rw [hupwr, getLsbD_or_bit _ hk, ← hlow k hk, decide_eq_true hslow, Bool.and_true]
    · rw [hu, modPwr, hframe]
  · rw [if_neg hslow]
    refine ⟨hmin, hbeats, fun k hk => ?_, hframe⟩
    rw [← hlow k hk, decide_eq_false hslow, Bool.and_false, Bool.or_false]; rfl

theorem windowed_decks (r : List RateReading) (s : State) :
    Windowed r s ((List.range 4).foldl (deckWindow r) s) [0, 1, 2, 3] := by
  have hall : List.range 4 = [0, 1, 2, 3] := rfl
  rw [hall, List.foldl_cons, List.foldl_cons, List.foldl_cons, List.foldl_cons, List.foldl_nil]
  have h0 := (Windowed.refl r s).snoc (d := 0) (by decide)
  have h1 := h0.snoc (d := 1) (by decide)
  have h2 := h1.snoc (d := 2) (by decide)
  exact h2.snoc (d := 3) (by decide)

theorem deckRate_lt (s : State) (d : Nat) : deckRate s d < 2 ^ 20 :=
  Nat.lt_of_le_of_lt (Nat.le_trans (Nat.min_le_left _ _) (Nat.min_le_left _ _)) (getMonitor s d 0).rate.isLt

theorem rateWindow_on {s : State} (r : List RateReading) (hon : decksOn s = true) : rateWindow s r =
    (List.range 4).foldl (deckWindow r) (modPwr s fun x => { x with monitors := windowMonitors r x.monitors }) := by
  have hoff : ¬ ((!decksOn s) = true) := by simp [hon]
  unfold rateWindow windowMonitors
  rw [if_neg hoff]
  rfl

theorem rateWindowUpdatesMonitors : Claim.rateWindowUpdatesMonitors := by
  intro r s hon
  obtain ⟨u, hu⟩ : ∃ u, u = modPwr s fun x => { x with monitors := windowMonitors r x.monitors } := ⟨_, rfl⟩
  have hrow : exec (.rateWindowEnd r) s = .next ((List.range 4).foldl (deckWindow r) u) := by
    rw [hu, ← rateWindow_on r hon]; rfl
  have h := windowed_decks r u
  generalize (List.range 4).foldl (deckWindow r) u = t at h hrow
  have hmon : t.pwr.monitors = windowMonitors r s.pwr.monitors := by rw [h.frame, hu]; dsimp only [modPwr]
  have hmem (d : Nat) (hd : d < 4) : d ∈ [0, 1, 2, 3] := List.mem_range.2 hd
  refine ⟨t, hrow, fun i hi => ?_, fun d hd => ?_, ?_⟩
  · rw [hmon, tabGet_windowMonitors r _ hi]; rfl
  · have hrate := (h.deckRate_eq d).symm
    have hmin := h.rateMin d
    have hbeats := h.beats d
    have hlow := h.rateLow d hd
    rw [if_pos (hmem d hd), hrate] at hmin
    rw [if_pos (hmem d hd)] at hbeats
    rw [decide_eq_true (hmem d hd), Bool.true_and, hrate] at hlow
    have hur : u.pwr.rateMin = s.pwr.rateMin := by rw [hu]; rfl
    have hub : u.pwr.beats = s.pwr.beats := by rw [hu]; rfl
    have hul : u.pwr.rateLow = s.pwr.rateLow := by rw [hu]; rfl
    refine ⟨?_, ?_, ?_⟩
    · rw [hmin, hur, BitVec.toNat_ofNat, Nat.mod_eq_of_lt (Nat.lt_of_le_of_lt (Nat.min_le_left _ _) (deckRate_lt t d))]
      rfl
    · rw [hbeats, hub]; rfl
    · rw [hlow, hul]; rfl
  · rw [h.frame, hu]; dsimp only [modPwr]

/-- Settles O14: a window updates its monitors' decks, and a control step each powered deck. -/
theorem monitorsAndSetpoints : Obligations.MonitorsAndSetpoints := ⟨rateWindowUpdatesMonitors, voltageControlStepMovesSetpoints⟩

end Sys2Proof.Proofs
end

