-- ==== Sys2Proof/Proofs/Sensors.lean ====
section
/-! PROOFS. Sensor samples, SMBus reads, and the management port's link (spec/01 Table 1-12, spec/19 R488-R490). -/

namespace Sys2Proof.Proofs

open Sys2Proof Sys2Proof.Machine Sys2Proof.Laws

/-! ### Sensors -/

/-- An SMBus read of a module that has power. -/
theorem smbusRead_on {s : State} (h : s.pwr.power ≠ .off) (c : Nat) {b : Bytes} (hb : smbusBytes s c = b) :
    exec (.smbusRead c) s = .next { s with outs := .smbus b :: s.outs } := by
  show Host.Outcome.next (smbusRead s c) = _
  rw [smbusRead, if_neg h, hb]; rfl

/-- The word of PWR_INPUT. -/
def inputWord (r : SensorReadings) : Nat := r.vin10mV.toNat * 2 ^ 48 + r.iin10mA.toNat * 2 ^ 32 + r.pinW.toNat

/-- The word of PWR_COOLANT. -/
def coolantWord (r : SensorReadings) : Nat := r.hubTj.toNat * 2 ^ 24 + r.outlet.toNat * 2 ^ 8 + r.inlet.toNat

theorem inputWord_lt (r : SensorReadings) : inputWord r < 2 ^ 64 := by
  have := r.vin10mV.isLt; have := r.iin10mA.isLt; have := r.pinW.isLt
  simp only [inputWord]; omega

theorem coolantWord_lt (r : SensorReadings) : coolantWord r < 2 ^ 64 := by
  have := r.hubTj.isLt; have := r.outlet.isLt; have := r.inlet.isLt
  simp only [coolantWord]; omega

/-- The fields of PWR_INPUT. -/
theorem bits_inputWord (r : SensorReadings) : bits (inputWord r) 63 48 = r.vin10mV.toNat ∧
    bits (inputWord r) 47 32 = r.iin10mA.toNat ∧ bits (inputWord r) 15 0 = r.pinW.toNat := by
  have := r.vin10mV.isLt; have := r.iin10mA.isLt; have := r.pinW.isLt
  simp only [bits, inputWord]
  omega

/-- The two temperatures of the water in PWR_COOLANT. -/
theorem bits_coolantWord (r : SensorReadings) : bits (coolantWord r) 7 0 = r.inlet.toNat ∧
    bits (coolantWord r) 15 8 = r.outlet.toNat := by
  have := r.hubTj.isLt; have := r.outlet.isLt; have := r.inlet.isLt
  simp only [bits, coolantWord]
  omega

theorem toNat_inputWord (r : SensorReadings) :
    (w64 (inputWord r)).toNat = r.vin10mV.toNat * 2 ^ 48 + r.iin10mA.toNat * 2 ^ 32 + r.pinW.toNat := by
  rw [toNat_w64 (inputWord_lt r), inputWord]

theorem toNat_coolantWord (r : SensorReadings) :
    (w64 (coolantWord r)).toNat = r.hubTj.toNat * 2 ^ 24 + r.outlet.toNat * 2 ^ 8 + r.inlet.toNat := by
  rw [toNat_w64 (coolantWord_lt r), coolantWord]

/-- A list as a table, from key `n` on. -/
theorem tabGet_zipIdx {α : Type} (d : α) (l : List α) (n k : Nat) (hk : k < l.length) :
    tabGet d ((l.zipIdx n).map fun p => (p.2, p.1)) (n + k) = l.getD k d := by
  induction l generalizing n k with
  | nil => exact absurd hk (Nat.not_lt_zero _)
  | cons x l ih =>
    cases k with
    | zero => simp [tabGet]
    | succ k =>
      have hlt : k < l.length := Nat.lt_of_succ_lt_succ hk
      have hne : n ≠ n + (k + 1) := by omega
      have hnext : n + (k + 1) = n + 1 + k := by omega
      rw [List.zipIdx_cons, List.map_cons, tabGet, if_neg hne, hnext, ih (n + 1) k hlt]
      rfl

/-- The state with the words of a sample in its registers. -/
def sampled (s : State) (i c : W64) (t : Tab (BitVec 8)) : State :=
  { s with pwr := { s.pwr with input := i, coolant := c, hbmTemp := t } }

section
variable (s : State) (i c : W64) (t : Tab (BitVec 8))

theorem sampled_power : (sampled s i c t).pwr.power = s.pwr.power := rfl

theorem sampled_input : (sampled s i c t).pwr.input = i := rfl

theorem sampled_coolant : (sampled s i c t).pwr.coolant = c := rfl

theorem sampled_hbmTemp : (sampled s i c t).pwr.hbmTemp = t := rfl

theorem sampled_outs : (sampled s i c t).outs = s.outs := rfl

end

/-- A module that has power takes a sample. -/
theorem sensorSample_on {s : State} (h : s.pwr.power ≠ .off) (r : SensorReadings) : sensorSample s r =
    sampled s (w64 (inputWord r)) (w64 (coolantWord r)) (r.hbm.zipIdx.map fun p => (p.2, p.1)) := if_neg h

/-- What SMBus answers once a sample has been taken. -/
theorem smbusBytes_of_sample {s : State} {r : SensorReadings} (hin : s.pwr.input = w64 (inputWord r))
    (hcool : s.pwr.coolant = w64 (coolantWord r)) :
    smbusBytes s 1 = toLe 2 r.vin10mV.toNat ∧ smbusBytes s 2 = toLe 2 r.iin10mA.toNat ∧ smbusBytes s 3 = toLe 2 r.pinW.toNat ∧
    smbusBytes s 4 = [r.inlet] ∧ smbusBytes s 5 = [r.outlet] := by
  have hin' : s.pwr.input.toNat = inputWord r := by rw [hin, toNat_w64 (inputWord_lt r)]
  have hcool' : s.pwr.coolant.toNat = coolantWord r := by rw [hcool, toNat_w64 (coolantWord_lt r)]
  obtain ⟨hv, hi, hp⟩ := bits_inputWord r
  obtain ⟨hinlet, houtlet⟩ := bits_coolantWord r
  simp only [smbusBytes, hin', hcool', hv, hi, hp, hinlet, houtlet, true_and, toLe]
  simp

theorem sensorsAndSmbus : Claim.sensorsAndSmbus := by
  refine ⟨fun r s hon => ?_, fun s => ⟨fun hpow hmoor => ?_, fun hon => ⟨?_, ?_, ?_, fun c hc => ?_⟩⟩⟩
  · obtain ⟨i, hi⟩ : ∃ i, i = w64 (inputWord r) := ⟨_, rfl⟩
    obtain ⟨c, hc⟩ : ∃ c, c = w64 (coolantWord r) := ⟨_, rfl⟩
    obtain ⟨t, ht⟩ : ∃ t, t = r.hbm.zipIdx.map fun p => (p.2, p.1) := ⟨_, rfl⟩
    have hrow := sensorSample_on hon r
    rw [← hi, ← hc, ← ht] at hrow
    obtain ⟨h1, h2, h3, h4, h5⟩ := smbusBytes_of_sample ((sampled_input s i c t).trans hi) ((sampled_coolant s i c t).trans hc)
    have hon' : (sampled s i c t).pwr.power ≠ .off := hon
    refine ⟨sampled s i c t, congrArg Host.Outcome.next hrow, ?_, ?_, fun k hk => ?_, rfl, smbusRead_on hon' 1 h1,
      smbusRead_on hon' 2 h2, smbusRead_on hon' 3 h3, smbusRead_on hon' 4 h4, smbusRead_on hon' 5 h5⟩
    · rw [sampled_input, hi, toNat_inputWord]
    · rw [sampled_coolant, hc, toNat_coolantWord]
    · have h := tabGet_zipIdx 0 r.hbm 0 k hk
      rwa [Nat.zero_add, ← ht] at h
  · exact smbusRead_on (by rw [hpow]; decide) 8 (by simp [smbusBytes, smbusState, hpow, hmoor, toLe])
  · exact smbusRead_on hon 9 (by simp [smbusBytes, toLe])
  · exact smbusRead_on hon 10 (by simp [smbusBytes, toLe])
  · exact smbusRead_on hon 16 (by simp only [smbusBytes])
  · refine smbusRead_on hon c ?_
    unfold smbusBytes
    split <;> simp_all

/-! ### The management port's link -/

theorem regFind_readHub_mgmt (s : State) : regFind (readHub s) 0x20 =
    some (b2n s.hub.lost * 8 + b2n s.hub.cage * 4 + b2n s.hub.fecLock * 2 + b2n s.hub.link) := by
  simp only [readHub, reg]
  repeat rw [regFind_skip _ _ (by omega)]
  exact regFind_place (d := 0) _ _ (by decide)

/-- HUB_MGMT_STATUS. -/
theorem regValue_mgmt (s : State) : regValue s 0xF00000000020 =
    w64 (b2n s.hub.lost * 8 + b2n s.hub.cage * 4 + b2n s.hub.fecLock * 2 + b2n s.hub.link) := by
  have hblock : blockOf 0xF00000000020 = some (.hub, 0x20) := rfl
  simp only [regValue, hblock, readBlock, regFind_readHub_mgmt, Option.getD_some]

theorem regValue_mgmt_link (s : State) : (regValue s 0xF00000000020).getLsbD 0 = s.hub.link := by
  rw [regValue_mgmt]
  cases s.hub.lost <;> cases s.hub.cage <;> cases s.hub.fecLock <;> cases s.hub.link <;> decide

theorem regValue_mgmt_lost (s : State) : (regValue s 0xF00000000020).getLsbD 3 = s.hub.lost := by
  rw [regValue_mgmt]
  cases s.hub.lost <;> cases s.hub.cage <;> cases s.hub.fecLock <;> cases s.hub.link <;> decide

/-- A write of HUB_MGMT_STATUS clears LOST where its bit is 1. -/
theorem exec_write_mgmt {a : Agent} (ha : a ≠ .mgmt) (v : W64) (s : State) :
    exec (.registerWrite a 0xF00000000020 v) s =
      .next (if v.getLsbD 3 then { s with hub := { s.hub with lost := false } } else s) := by
  have hblock : blockOf 0xF00000000020 = some (.hub, 0x20) := rfl
  have hne : Block.hub ≠ .prt := by decide
  simp only [exec_registerWrite, execRegisterWrite, regWrite, hblock, writeBlock, writeHub, regFind_reg, byAgent_of_ne ha,
    Option.getD_some, hne, decide_false, Bool.false_and, Bool.false_eq_true, if_false]

theorem managementLinkStatus : Claim.managementLinkStatus := by
  intro s
  refine ⟨fun hoff htrip => ?_, fun hlink => ?_, fun b => rfl, fun a v ha => exec_write_mgmt ha v s⟩
  · have hup : mgmtLinkUp s = { s with hub := { s.hub with fecLock := true, link := true } } := by
      unfold mgmtLinkUp
      split
      · exact absurd ‹_› hoff
      · exact absurd ‹_› htrip
      · rfl
    exact ⟨_, congrArg Host.Outcome.next hup, rfl, regValue_mgmt_link _⟩
  · exact ⟨_, congrArg Host.Outcome.next (if_pos hlink), rfl, regValue_mgmt_link _, regValue_mgmt_lost _⟩

/-- Settles O15: SMBus reads answer from the sample, and HUB_MGMT_STATUS follows the link. -/
theorem sensorsAndManagementPort : Obligations.SensorsAndManagementPort := ⟨sensorsAndSmbus, managementLinkStatus⟩

end Sys2Proof.Proofs
end

