-- ==== Sys2Proof/Proofs/PowerStates.lean ====
section
/-! PROOFS. Power on and off, module reset, trips, and the start of boot (spec/17 Table 17-1, spec/18 R452, spec/19 R475-R479). -/

namespace Sys2Proof.Proofs

open Sys2Proof Sys2Proof.Machine Sys2Proof.Laws

/-! ### Module reset -/

/-- No reset takes the fuses. -/
theorem freshModule_fuses (s : State) : Claim.sameFuses s (freshModule s) :=
  ⟨rfl, fun h => if_pos h, rfl, rfl⟩

/-- A state with every part of `resetParts` as at reset. -/
theorem same_resetParts {t : State} (h : t = { State.reset with
    hub := t.hub, pwr := t.pwr, fry := t.fry, sec := t.sec, pending := t.pending, outs := t.outs, freeCtr := t.freeCtr }) :
    ∀ p ∈ Claim.resetParts, p.Same State.reset t := by
  intro p hp
  rw [h]
  revert p
  simp [Claim.resetParts, Part.Same]

theorem clearLevels_iff (l : TripLevels) : clearLevels l = true ↔
    l.junction < 95 ∧ l.hbm < 85 ∧ l.outlet < 60 ∧ 4800 ≤ l.vin ∧ l.vin ≤ 5700 := by
  simp [clearLevels, and_assoc]

theorem powerOn_of_off {s : State} (h : s.pwr.power = .off) : powerOn s =
    { freshModule s with pwr := { (freshModule s).pwr with power := .moduleReset, tripCauses := 0 } } := if_pos h

theorem moduleReset_on {s : State} (l : TripLevels) (h : s.pwr.power = .moduleReset ∨ s.pwr.power = .on) :
    moduleReset s l = freshModule s := by
  obtain h | h := h <;> simp [moduleReset, h]

theorem moduleReset_tripped {s : State} (l : TripLevels) (h : s.pwr.power = .tripped) :
    moduleReset s l = if clearLevels l then freshModule s else s := by
  simp [moduleReset, h]

/-- A module after a trip. -/
def tripped (s : State) (c : TripCause) : State :=
  { freshModule s with pwr := { (freshModule s).pwr with
    power := .tripped, tripCauses := BitVec.ofNat 6 (2 ^ tripBit c), tripAlert := true, thermTrip := tripThermal c
    input := s.pwr.input, coolant := s.pwr.coolant } }

theorem trip_on {s : State} (c : TripCause) (h : s.pwr.power = .moduleReset ∨ s.pwr.power = .on) : trip s c = tripped s c := by
  obtain h | h := h <;> simp only [trip, h] <;> rfl

theorem powerTransitions : Claim.powerTransitions := by
  intro s
  have hfuses := freshModule_fuses s
  refine ⟨fun hoff => ?on, ?down, fun l hp => ?reset, fun l hp => ?clear, fun c hp => ?trip⟩
  case on =>
    exact ⟨_, congrArg Host.Outcome.next (powerOn_of_off hoff), rfl, rfl, hfuses, rfl, rfl, same_resetParts rfl⟩
  case down => exact ⟨powerDown s, rfl, rfl, rfl, rfl, hfuses, rfl, same_resetParts rfl⟩
  case reset =>
    exact ⟨_, congrArg Host.Outcome.next (moduleReset_on l hp), rfl, rfl, rfl, rfl, hfuses, rfl, same_resetParts rfl⟩
  case clear =>
    refine ⟨_, congrArg Host.Outcome.next (moduleReset_tripped l hp), fun hj hh ho hlo hhi => ?_, fun hbad => if_neg ?_⟩
    · rw [if_pos ((clearLevels_iff l).2 ⟨hj, hh, ho, hlo, hhi⟩)]
      exact ⟨rfl, rfl, rfl, rfl, hfuses⟩
    · rw [clearLevels_iff]; omega
  case trip =>
    refine ⟨_, congrArg Host.Outcome.next (trip_on c hp), rfl, rfl, Bool.or_true _, ?_, fun i hi => ?_, rfl, hfuses,
      same_resetParts rfl⟩
    · show tripThermal c = _
      cases c <;> rfl
    · show (BitVec.ofNat 6 (2 ^ tripBit c)).getLsbD i = _
      rw [BitVec.getLsbD_ofNat, Nat.testBit_two_pow, decide_eq_true hi, Bool.true_and, decide_eq_decide, eq_comm]
      cases c <;> rfl

/-! ### Boot -/

/-- The setpoints at the start of boot. -/
theorem tabGet_bootVset (c : Tab DeckCtl) (t : Tab VSet) {d : Nat} (hd : d < 4) :
    tabGet {} ((List.range 4).foldl (fun t d =>
      tabPut t d { limit := 0, mv := BitVec.ofNat 10 (min 700 (tabGet {} c d).vmax.toNat) }) t) d =
      { limit := 0, mv := BitVec.ofNat 10 (min 700 (tabGet {} c d).vmax.toNat) } := by
  have h := tabGet_foldl_tabMod {} (fun d (_ : VSet) =>
    { limit := 0, mv := BitVec.ofNat 10 (min 700 (tabGet {} c d).vmax.toNat) }) _ (List.nodup_range (n := 4)) t d
  rwa [if_pos (List.mem_range.2 hd)] at h

theorem bootStarts : Claim.bootStarts := by
  intro straps s hreset
  have hno : ¬ s.pwr.power ≠ .moduleReset := by simp [hreset]
  refine ⟨_, congrArg Host.Outcome.next (if_neg hno), rfl, rfl, rfl, fun d hd => ?_, ?_, fun k hk => ?_, rfl⟩
  · simp only [extend, modSec, modFry, tabGet_bootVset _ _ hd, BitVec.toNat_ofNat]
    exact Nat.mod_eq_of_lt (Nat.lt_of_le_of_lt (Nat.min_le_left _ _) (by decide))
  · exact tabGet_tabPut_self _ _ _ _
  · exact tabGet_tabPut_ne _ _ _ hk.symm

/-- Settles O17: each change of power by its row, and the start of boot. -/
theorem powerAndBootStart : Obligations.PowerAndBootStart := ⟨powerTransitions, bootStarts⟩

end Sys2Proof.Proofs
end

