-- ==== Sys2Proof/Proofs/Mooring.lean ====
section
/-! PROOFS. Mooring, from its request to the return (spec/19 R480-R484, Tables 19-6, 19-7, 19-12). -/

namespace Sys2Proof.Proofs

open Sys2Proof Sys2Proof.Machine Sys2Proof.Laws

/-! ### Requests -/

/-- A command that ends with a DETAIL the spec does not give. -/
theorem endPlain_of {s : State} {id : Nat} {c : PCmd} (h : getCmd s id = some c) (st : Status) : ∃ d, endPlain s id st =
    modMb { s with freeCtr := s.freeCtr + 1, pur := { s.pur with cmds := tabDel s.pur.cmds id } } c.mb fun m =>
      { m with held := m.held ++ [recordOf c st d] } :=
  ⟨_, endCmd_of (s := { s with freeCtr := s.freeCtr + 1 }) h st _⟩

theorem endPlain_getCmd {s : State} {id : Nat} {c : PCmd} (h : getCmd s id = some c) (st : Status) :
    getCmd (endPlain s id st) id = none := endCmd_getCmd (s := { s with freeCtr := s.freeCtr + 1 }) h st _

theorem endPlain_held {s : State} {id : Nat} {c : PCmd} (h : getCmd s id = some c) (st : Status) : ∃ d,
    (getMb (endPlain s id st) c.mb).held = (getMb s c.mb).held ++ [recordOf c st d] :=
  ⟨_, endCmd_held (s := { s with freeCtr := s.freeCtr + 1 }) h st _⟩

/-- A MOOR that may start sets the latch. -/
theorem moorCmd_starts {s : State} {id : Nat} {c : PCmd} (hc : getCmd s id = some c) (hop : c.opcode = 0x04)
    (hph : c.phase = .held) (hg : c.guest = none) (hw : purWorks s = true) (hu : unfenced s id c = true)
    (hparts : (getMb s c.mb).parts = 0xFFFF) (hno : s.pwr.entryByCommand = none) : moorCmd s id =
      modPwr (putCmd s id { c with phase := .running }) fun x => { x with latch := true, entryByCommand := some id } := by
  rw [moorCmd, startRow_of hc (by rw [hop]; rfl) hph hg hw hu]
  simp [hparts, hno]

/-- The written bit of WAKE leaves the field of the wait. -/
theorem wakeBit_wait (v : W64) : bits (v ||| 0x8000000000000000).toNat 13 0 = v.toNat % 16384 := by
  have hor : (v ||| 0x8000000000000000).toNat = v.toNat ||| 2 ^ 63 := BitVec.toNat_or v _
  have hmod : 2 ^ 63 % 2 ^ 14 = 0 := by decide
  rw [bits, hor, pow_zero, Nat.div_one, show 13 + 1 - 0 = 14 from rfl, Nat.or_mod_two_pow, hmod, Nat.or_zero]

theorem wakeBit_set (v : W64) : (v ||| 0x8000000000000000).getLsbD 63 = true := by
  rw [BitVec.getLsbD_or, show (0x8000000000000000 : W64).getLsbD 63 = true by decide, Bool.or_true]

theorem moorWakeWrite_of {a : Agent} (ha : a = .purser ∨ ∃ h, a = .hart h true) (v : W64) (s : State) :
    moorWakeWrite s a v = moorCtlSet s (v ||| 0x8000000000000000) := if_pos ((prtMayWrite_iff a).2 ha)

theorem mooringRequests : Claim.mooringRequests := by
  intro s
  refine ⟨fun id c hc hop hph hg hw hu hparts hno => ?moor, fun low => rfl, fun hrun hpur htarget => ?entry,
    fun hent hbusy hno => ?refused, fun id c hent hbusy hid hc => ?ends, fun a v ha => ?wake⟩
  case moor =>
    refine ⟨_, congrArg Host.Outcome.next (moorCmd_starts hc hop hph hg hw hu hparts hno), rfl, rfl, ?_⟩
    exact getCmd_putCmd s id _
  case entry =>
    have ht : moorTarget s = true := by
      simpa [moorTarget] using htarget
    show Host.Outcome.next (moorEntry s) = _
    simp [moorEntry, hrun, hpur, ht, modPwr]
  case refused =>
    show Host.Outcome.next (moorExpiry s) = _
    simp [moorExpiry, hent, hbusy, hno, modPwr]
  case ends =>
    obtain ⟨u, hu⟩ : ∃ u, u = modPwr s fun x => { x with moor := .running, latch := false, entryByCommand := none } := ⟨_, rfl⟩
    have hcu : getCmd u id = some c := by rw [hu]; exact hc
    have hrow : moorExpiry s = endPlain u id .internal := by
      rw [hu]; simp [moorExpiry, hent, hbusy, hid, moorEnds, modPwr]
    obtain ⟨d, hheld⟩ := endPlain_held hcu .internal
    have hpwr : (endPlain u id .internal).pwr = u.pwr :=
      (endPlain_fr (mk := 2293760) (by decide) (Fr.refl _ _) : Fr 2293760 u _).same .pwr rfl
    refine ⟨endPlain u id .internal, congrArg Host.Outcome.next hrow, ?_, ⟨recordOf c .internal d, ?_, rfl, rfl, rfl, rfl⟩,
      endPlain_getCmd hcu .internal⟩
    · rw [hpwr, hu]; rfl
    · rw [hheld, hu]; rfl
  case wake =>
    refine ⟨moorCtlSet s (v ||| 0x8000000000000000), congrArg Host.Outcome.next (moorWakeWrite_of ha v s), ?_, ?_, ?_⟩
    · simp [moorCtlSet, modPwr]
    · simp only [moorCtlSet, modPwr, wakeBit_wait]
      exact toNat_ofNat_clamp (by decide) (by decide) _
    · simp [moorCtlSet, modPwr]

/-! ### Entry -/

theorem tabDel_filter {α : Type} (t : Tab α) (k : Nat) : tabDel t k = t.filter fun x => x.1 ≠ k := by
  induction t with
  | nil => rfl
  | cons x t ih =>
    obtain ⟨j, v⟩ := x
    unfold tabDel
    by_cases h : j = k
    · simp [h, ih]
    · simp [h, ih]

theorem raise_gran (s : State) (code : EvtCode) (src : BitVec 16) (detail : Bytes) : (raise s code src detail).mem = s.mem := by
  obtain ⟨e, o, h⟩ := logEntry_shape s { code := some code, source := src, detail := detail }
  rw [raise, h]

theorem writeBack_gran (s : State) (g : Nat) : (writeBack s g).mem.gran = s.mem.gran := by
  simp only [writeBack, modDeck]
  split
  · rw [raise_gran]
  · rfl

theorem sendHome_gran (s : State) (g : Nat) : (sendHome s g).mem.gran = tabDel s.mem.gran g := by
  unfold sendHome
  cases tabFind s.mem.gran g with
  | none => rfl
  | some x =>
    dsimp only
    split
    · rw [writeBack_gran]
    · rfl

/-- Every granule that is sent home is gone from the stores. -/
theorem foldl_sendHome_gran (l : Tab Gran) (s : State) : (l.foldl (fun s g => sendHome s g.1) s).mem.gran =
    s.mem.gran.filter fun x => !(l.map (·.1)).contains x.1 := by
  induction l generalizing s with
  | nil => simp
  | cons g l ih =>
    rw [List.foldl_cons, ih, sendHome_gran, tabDel_filter, List.filter_filter]
    refine List.filter_congr fun x _ => ?_
    rw [List.map_cons, List.contains_cons, Bool.not_or, Bool.and_comm, decide_not, beq_eq_decide]

theorem clearStores_gran (s : State) : (clearStores s).mem.gran = [] := by
  rw [clearStores, foldl_sendHome_gran, List.filter_eq_nil_iff]
  intro x hx
  simp only [Bool.not_eq_true', Bool.not_eq_false, List.contains_iff_mem]
  exact List.mem_map_of_mem hx

theorem parkStores_gran (s : State) : (parkStores s).mem.gran = [] := clearStores_gran s

theorem livePaths_quiet {s : State} (h : ∀ x ∈ s.fry.paths, x.2.state ≠ .up ∧ x.2.state ≠ .syncing) (p : Nat) :
    livePaths s p = [] := by
  rw [livePaths, List.map_eq_nil_iff, List.filter_eq_nil_iff]
  intro x hx
  simp [h x hx]

/-- A port without a path keeps no frame and no learned address. -/
def emptied (s : State) (p : Nat) : State :=
  modPort (modFry s fun x => { x with learned := x.learned.filter fun l => l.1 / 4096 ≠ p }) p fun x => { x with wait := [] }

theorem losePort_quiet {s : State} (h : ∀ x ∈ s.fry.paths, x.2.state ≠ .up ∧ x.2.state ≠ .syncing) (p : Nat) :
    losePort s p = emptied s p := by
  have hlive : livePaths (emptied s p) p = [] := livePaths_quiet h p
  show (livePaths (emptied s p) p).foldl (fun s x => pathLost s p x) (emptied s p) = _
  rw [hlive, List.foldl_nil]

/-- A port goes down that no path syncs or is up on. -/
theorem portLinkDown_quiet {s : State} (h : ∀ x ∈ s.fry.paths, x.2.state ≠ .up ∧ x.2.state ≠ .syncing) (p : Nat) :
    (portLinkDown s p).fry.paths = s.fry.paths ∧ (getPort (portLinkDown s p) p).link = false ∧
    (∀ q, q ≠ p → getPort (portLinkDown s p) q = getPort s q) ∧ portLinkDown s p = { s with fry := (portLinkDown s p).fry } := by
  unfold portLinkDown
  split
  · rw [losePort_quiet (s := modPort s p fun x => { x with link := false, lost := true }) h, emptied]
    refine ⟨rfl, ?_, fun q hq => ?_, rfl⟩
    · rw [getPort_modPort]
      dsimp only
      exact congrArg PortSt.link (getPort_modPort s p fun x => { x with link := false, lost := true })
    · rw [getPort_modPort_ne _ _ hq.symm]
      exact getPort_modPort_ne s (fun x => { x with link := false, lost := true }) hq.symm
  · rename_i hdown
    exact ⟨rfl, by simpa using hdown, fun q _ => rfl, rfl⟩

theorem fry_frame_trans {s t u : State} (h : t = { s with fry := t.fry }) (h' : u = { t with fry := u.fry }) :
    u = { s with fry := u.fry } := by
  rw [h] at h'; exact h'

/-- The ports of a list go down one after the other. -/
theorem foldl_portLinkDown (l : List Nat) {s : State} (h : ∀ x ∈ s.fry.paths, x.2.state ≠ .up ∧ x.2.state ≠ .syncing) :
    (∀ p ∈ l, (getPort (l.foldl portLinkDown s) p).link = false) ∧
    (∀ q, (getPort s q).link = false → (getPort (l.foldl portLinkDown s) q).link = false) ∧
    l.foldl portLinkDown s = { s with fry := (l.foldl portLinkDown s).fry } := by
  induction l generalizing s with
  | nil => exact ⟨fun p hp => absurd hp (List.not_mem_nil), fun q hq => hq, rfl⟩
  | cons p l ih =>
    obtain ⟨hpaths, hdown, hothers, hframe⟩ := portLinkDown_quiet h p
    obtain ⟨hall, hkeep, hrest⟩ := ih (s := portLinkDown s p) (by rw [hpaths]; exact h)
    rw [List.foldl_cons]
    refine ⟨fun q hq => ?_, fun q hq => hkeep q ?_, ?_⟩
    · obtain rfl | hq := List.mem_cons.1 hq
      · exact hkeep q hdown
      · exact hall q hq
    · by_cases hqp : q = p
      · subst hqp; exact hdown
      · rw [hothers q hqp]; exact hq
    · exact fry_frame_trans hframe hrest

/-- The state in which the harts are in retention and every store is empty. -/
def asleep (s : State) : State :=
  parkStores { moorEnds s .ok with hub := { (moorEnds s .ok).hub with
    retained := (moorEnds s .ok).hub.harts, harts := 0 } }

theorem moorDrained_eq {s : State} (hent : s.pwr.moor = .entering) (hidle : enginesBusy s = false) :
    moorDrained s = gateDecks ((List.range 16).foldl portLinkDown (asleep s)) := by
  have hno : ¬ (decide (s.pwr.moor ≠ .entering) || enginesBusy s) = true := by simp [hent, hidle]
  exact if_neg hno

theorem moorEnds_entry (s : State) (st : Status) : (moorEnds s st).pwr.entryByCommand = none ∧
    (moorEnds s st).pwr.vset = s.pwr.vset := by
  unfold moorEnds
  cases h : s.pwr.entryByCommand with
  | none => exact ⟨h, rfl⟩
  | some id =>
    dsimp only
    have hpwr : (endPlain (modPwr s fun x => { x with entryByCommand := none }) id st).pwr = { s.pwr with entryByCommand := none } :=
      (endPlain_fr (mk := 2293760) (by decide) (Fr.refl _ _) :
        Fr 2293760 (modPwr s fun x => { x with entryByCommand := none }) (endPlain _ id st)).same .pwr rfl
    rw [hpwr]
    exact ⟨rfl, rfl⟩

theorem moorEnds_hub_fry (s : State) (st : Status) : (moorEnds s st).hub = s.hub ∧ (moorEnds s st).fry = s.fry := by
  have h : Fr 2293762 s (moorEnds s st) := moorEnds_fr (by decide) (Fr.refl _ _)
  exact ⟨h.same .hub rfl, h.same .fry rfl⟩

theorem parkStores_frame (s : State) : parkStores s =
    { s with evt := (parkStores s).evt, mem := (parkStores s).mem, outs := (parkStores s).outs } :=
  (parkStores_fr (mk := 1048612) (by decide) (Fr.refl _ _) : Fr 1048612 s (parkStores s)).eq_merge

theorem asleep_frame (s : State) : asleep s = { moorEnds s .ok with
    hub := { (moorEnds s .ok).hub with retained := (moorEnds s .ok).hub.harts, harts := 0 }
    evt := (asleep s).evt, mem := (asleep s).mem, outs := (asleep s).outs } := parkStores_frame _

/-- The setpoints kept at mooring. -/
theorem gateDecks_saved (s : State) {d : Nat} (hd : d < 4) :
    tabGet 0 (gateDecks s).pwr.saved d = (tabGet {} s.pwr.vset d).mv := by
  have h := tabGet_foldl_tabMod 0 (fun d (_ : BitVec 10) => (tabGet {} s.pwr.vset d).mv) _ (List.nodup_range (n := 4))
    s.pwr.saved d
  rwa [if_pos (List.mem_range.2 hd)] at h

/-- The record of the MOOR that caused the entry. -/
theorem moorEnds_held {s : State} {id : Nat} {c : PCmd} (hid : s.pwr.entryByCommand = some id) (hc : getCmd s id = some c)
    (st : Status) : ∃ r, r ∈ (getMb (moorEnds s st) c.mb).held ∧ r.seq = c.seq ∧ r.status = st ∧ r.tag = c.tag := by
  obtain ⟨d, hheld⟩ := endPlain_held (s := modPwr s fun x => { x with entryByCommand := none }) hc st
  refine ⟨recordOf c st d, ?_, rfl, rfl, rfl⟩
  rw [moorEnds, hid, hheld]
  exact List.mem_append_right _ (List.mem_singleton_self _)

theorem mooredEntry : Claim.mooredEntry := by
  intro s hent hidle hquiet
  obtain ⟨hhub, hfry⟩ := moorEnds_hub_fry s .ok
  obtain ⟨hentry, hvset⟩ := moorEnds_entry s .ok
  have hpark := asleep_frame s
  have hgran : (asleep s).mem.gran = [] := parkStores_gran _
  have hpaths : (asleep s).fry = s.fry := by rw [hpark]; exact hfry
  obtain ⟨hdown, -, hframe⟩ := foldl_portLinkDown (List.range 16) (s := asleep s) (by rw [hpaths]; exact hquiet)
  have hrow := moorDrained_eq hent hidle
  generalize (List.range 16).foldl portLinkDown (asleep s) = u at hdown hframe hrow
  have hpwr : u.pwr = (moorEnds s .ok).pwr := by rw [hframe, hpark]
  have hhub' : u.hub = { (moorEnds s .ok).hub with retained := (moorEnds s .ok).hub.harts, harts := 0 } := by rw [hframe, hpark]
  refine ⟨gateDecks u, congrArg Host.Outcome.next hrow, rfl, ?_, ?_, ?_, fun d hd => ?_, fun p hp => ?_, ?_, fun id c hid hc => ?_⟩
  · exact (congrArg PwrSt.entryByCommand hpwr).trans hentry
  · exact congrArg HubSt.harts hhub'
  · exact (congrArg HubSt.retained hhub').trans (congrArg HubSt.harts hhub)
  · rw [gateDecks_saved _ hd, hpwr, hvset]
  · exact hdown p (List.mem_range.2 hp)
  · exact (congrArg (fun x => x.mem.gran) hframe).trans hgran
  · obtain ⟨r, hr, hprops⟩ := moorEnds_held hid hc .ok
    have hmbs : u.mbs = (moorEnds s .ok).mbs := by rw [hframe, hpark]
    refine ⟨r, ?_, hprops⟩
    have hheld : (getMb (gateDecks u) c.mb).held = (getMb (moorEnds s .ok) c.mb).held :=
      congrArg (fun t => (tabGet (mbReset c.mb) t c.mb).held) hmbs
    rw [hheld]; exact hr

/-! ### The return -/

/-- What changes while granules come back and accumulators are lost. -/
theorem fetchBack_frame (s : State) (g : Nat × Gran) : fetchBack s g =
    { s with evt := (fetchBack s g).evt, mem := (fetchBack s g).mem, outs := (fetchBack s g).outs } :=
  (fetchBack_fr (mk := 1048612) (by decide) (Fr.refl _ _) : Fr 1048612 s (fetchBack s g)).eq_merge

theorem fetchBack_clean {s : State} (h : s.mem.badHbm = []) (g : Nat × Gran) :
    (fetchBack s g).mem.badHbm = [] ∧ (fetchBack s g).mem.bytes = s.mem.bytes ∧
    (fetchBack s g).mem.gran = tabPut s.mem.gran g.1 g.2 := by
  have hbad : badInHome s g.1 = none := by simp [badInHome, h]
  rw [fetchBack, hbad]
  exact ⟨h, rfl, rfl⟩

theorem tabFind_tabPut_ne_none {α : Type} (t : Tab α) (k j : Nat) (v : α) (h : tabFind t j ≠ none) :
    tabFind (tabPut t k v) j ≠ none := by
  rw [tabFind_tabPut]
  split
  · exact Option.some_ne_none _
  · exact h

/-- Every granule that comes back is in its store. -/
theorem foldl_fetchBack_clean (l : List (Nat × Gran)) {s : State} (h : s.mem.badHbm = []) :
    (∀ g ∈ l, tabFind (l.foldl fetchBack s).mem.gran g.1 ≠ none) ∧
    (∀ k, tabFind s.mem.gran k ≠ none → tabFind (l.foldl fetchBack s).mem.gran k ≠ none) ∧
    (l.foldl fetchBack s).mem.bytes = s.mem.bytes := by
  induction l generalizing s with
  | nil => exact ⟨fun g hg => absurd hg (List.not_mem_nil), fun k hk => hk, rfl⟩
  | cons g l ih =>
    obtain ⟨hbad, hbytes, hgran⟩ := fetchBack_clean h g
    obtain ⟨hall, hkeep, hrest⟩ := ih hbad
    have hself : tabFind (fetchBack s g).mem.gran g.1 ≠ none := by
      rw [hgran, tabFind_tabPut_self]; exact Option.some_ne_none _
    rw [List.foldl_cons]
    refine ⟨fun x hx => ?_, fun k hk => hkeep k ?_, hrest.trans hbytes⟩
    · obtain rfl | hx := List.mem_cons.1 hx
      · exact hkeep _ hself
      · exact hall x hx
    · rw [hgran]; exact tabFind_tabPut_ne_none _ _ _ _ hk

theorem accsLost_frame (s : State) : accsLost s =
    { s with cores := (accsLost s).cores, freeCtr := (accsLost s).freeCtr } :=
  (accsLost_fr (mk := 2097216) (by decide) (Fr.refl _ _) : Fr 2097216 s (accsLost s)).eq_merge

theorem foldl_fetchBack_frame (l : List (Nat × Gran)) (s : State) : l.foldl fetchBack s =
    { s with evt := (l.foldl fetchBack s).evt, mem := (l.foldl fetchBack s).mem, outs := (l.foldl fetchBack s).outs } := by
  induction l generalizing s with
  | nil => rfl
  | cons g l ih =>
    have h := ih (fetchBack s g)
    rw [fetchBack_frame s g] at h
    rw [List.foldl_cons, fetchBack_frame s g]
    exact h

/-- The setpoints with which the decks return. -/
def wakeVset (x : PwrSt) : Tab VSet :=
  (List.range 4).foldl (fun t d => tabPut t d { limit := 0, mv := tabGet 0 x.saved d }) x.vset

/-- The state when the granules are back. -/
def restored (s : State) : State :=
  s.mem.parked.foldl fetchBack (modPwr s fun x => { x with vset := wakeVset x, moor := .running })

theorem wake_eq {s : State} (hmoor : s.pwr.moor = .moored) (ht : moorTarget s = false) : wake s =
    let u := accsLost (restored s)
    let v := { u with hub := { u.hub with harts := u.hub.retained, retained := 0 } }
    if v.pwr.wakeIrqEn then emit v (.irq v.pwr.wakeHart.toNat .wake) else v := by
  have hno : ¬ (decide (s.pwr.moor ≠ .moored) || moorTarget s) = true := by simp [hmoor, ht]
  exact if_neg hno

theorem tabGet_wakeVset (x : PwrSt) {d : Nat} (hd : d < 4) : (tabGet {} (wakeVset x) d).mv = tabGet 0 x.saved d := by
  have h := tabGet_foldl_tabMod {} (fun d (_ : VSet) => { limit := 0, mv := tabGet 0 x.saved d }) _
    (List.nodup_range (n := 4)) x.vset d
  rw [if_pos (List.mem_range.2 hd)] at h
  exact congrArg VSet.mv h

theorem wakeRestores : Claim.wakeRestores := by
  intro s hmoor htarget
  have ht : moorTarget s = false := by
    cases hm : moorTarget s with
    | false => rfl
    | true => exact (htarget (by simpa [moorTarget] using hm)).elim
  obtain ⟨u, hu⟩ : ∃ u, u = accsLost (restored s) := ⟨_, rfl⟩
  have hframe : u = { s with
      pwr := { s.pwr with moor := .running, vset := wakeVset s.pwr }, evt := u.evt, mem := u.mem, outs := u.outs
      cores := u.cores, freeCtr := u.freeCtr } := by
    have h1 := accsLost_frame (restored s)
    have h2 := foldl_fetchBack_frame s.mem.parked (modPwr s fun x => { x with vset := wakeVset x, moor := .running })
    rw [← hu] at h1
    rw [← restored] at h2
    rw [h1, h2]
    rfl
  have hmem : u.mem = (restored s).mem := by rw [hu, accsLost_frame]
  have hwake := wake_eq hmoor ht
  simp only [← hu] at hwake
  have hirq : u.pwr.wakeIrqEn = s.pwr.wakeIrqEn ∧ u.pwr.wakeHart = s.pwr.wakeHart := by rw [hframe]; exact ⟨rfl, rfl⟩
  have hharts : u.hub.retained = s.hub.retained := by rw [hframe]
  have hvset : u.pwr.vset = wakeVset s.pwr := by rw [hframe]
  have hmoor' : u.pwr.moor = .running := by rw [hframe]
  obtain ⟨v, hv⟩ : ∃ v, v = { u with hub := { u.hub with harts := u.hub.retained, retained := 0 } } := ⟨_, rfl⟩
  have hwoken : ∃ o, wake s = { v with outs := o } ∧ (s.pwr.wakeIrqEn = true → Out.irq s.pwr.wakeHart.toNat .wake ∈ o) := by
    rw [hwake, ← hv, ← hirq.1, ← hirq.2]
    cases u.pwr.wakeIrqEn with
    | false => exact ⟨v.outs, rfl, fun h => absurd h Bool.false_ne_true⟩
    | true => exact ⟨_, rfl, fun _ => List.mem_cons_self⟩
  obtain ⟨o, ho, hin⟩ := hwoken
  rw [hv] at ho
  refine ⟨wake s, rfl, ?_⟩
  rw [ho]
  refine ⟨hmoor', hharts, rfl, fun d hd => ?_, hin, fun hclean => ?_, ?_⟩
  · dsimp only; rw [hvset]; exact tabGet_wakeVset _ hd
  · obtain ⟨hall, -, hbytes⟩ := foldl_fetchBack_clean s.mem.parked
      (s := modPwr s fun x => { x with vset := wakeVset x, moor := .running }) hclean
    dsimp only; rw [hmem]
    exact ⟨hall, hbytes⟩
  · dsimp only; rw [hframe]

/-- Settles O16: a mooring from its request, through the entry, to the return. -/
theorem mooringCycle : Obligations.MooringCycle := ⟨mooringRequests, mooredEntry, wakeRestores⟩

end Sys2Proof.Proofs
end

