-- ==== Sys2Proof/Proofs/Partitions.lean ====
section
/-! PROOFS. What a partition may hold, and its regulators (spec/14 R349, R360). -/

namespace Sys2Proof.Proofs

open Sys2Proof Sys2Proof.Machine Sys2Proof.Laws

/-- A write of the PRT block by an agent that may write it. -/
theorem prtWrite_of {a : Agent} (ha : Claim.prtWriter a) (s : State) (off : Nat) (v : W64) (f : State → State) :
    prtWrite s a off v f = f s := if_pos ((prtMayWrite_iff a).2 ha)

theorem bits_low (v : W64) (n : Nat) : bits v.toNat n 0 = v.toNat % 2 ^ (n + 1) := by
  rw [bits, pow_zero, Nat.div_one, Nat.sub_zero]

theorem queryContextsSumTo1024 : Claim.queryContextsSumTo1024 := by
  intro a p v s ha hp others
  have hrow : exec (.queryCtxWrite a p v) s = .next (queryCtxSet s p v) := by
    show Host.Outcome.next (queryCtxWrite s a p v) = _
    rw [queryCtxWrite, prtWrite_of ha, if_pos hp]
  refine ⟨_, hrow, ?_, fun i hi => getPart_modPart_ne _ _ hi.symm, ?_, ?_, rfl⟩
  · rw [queryCtxSet, getPart_modPart, BitVec.toNat_ofNat, bits_low]
    exact Nat.mod_eq_of_lt (by omega)
  · rw [queryCtxSet, getPart_modPart]
  · rw [queryCtxSet, getPart_modPart]

/-! ### Regulators -/

/-- The written bit of ENABLE leaves the other fields. -/
theorem enableBit_fields (v : W64) : (v ||| 0x8000000000000000).getLsbD 63 = true ∧
    bits (v ||| 0x8000000000000000).toNat 62 32 = v.toNat / 2 ^ 32 % 2 ^ 31 ∧
    bits (v ||| 0x8000000000000000).toNat 31 0 = v.toNat % 2 ^ 32 := by
  have hor : (v ||| 0x8000000000000000).toNat = v.toNat ||| 2 ^ 63 := BitVec.toNat_or v _
  have hmod : 2 ^ 63 % 2 ^ 32 = 0 := by decide
  have hdiv : 2 ^ 63 / 2 ^ 32 % 2 ^ 31 = 0 := by decide
  refine ⟨?_, ?_, ?_⟩
  · rw [BitVec.getLsbD_or, show (0x8000000000000000 : W64).getLsbD 63 = true by decide, Bool.or_true]
  · rw [bits, hor, show 62 + 1 - 32 = 31 from rfl, Nat.or_div_two_pow, Nat.or_mod_two_pow, hdiv, Nat.or_zero]
  · rw [bits, hor, pow_zero, Nat.div_one, show 31 + 1 - 0 = 32 from rfl, Nat.or_mod_two_pow, hmod, Nat.or_zero]

theorem regulatorBuckets : Claim.regulatorBuckets := by
  refine ⟨fun a p k v s ha hp hk hoff => ?enable, fun p k s => ?_⟩
  case enable =>
    obtain ⟨hon, hburst, hrate⟩ := enableBit_fields v
    have hrow : exec (.bucketEnable a p k v) s = .next (bucketSet s p k (v ||| 0x8000000000000000)) := by
      show Host.Outcome.next (bucketEnable s a p k v) = _
      rw [bucketEnable, prtWrite_of ha, if_pos (by simp [hp, hk])]
    refine ⟨_, hrow, ?_⟩
    have hb : tabGet {} (getPart (bucketSet s p k (v ||| 0x8000000000000000)) p).buckets k =
        { tabGet {} (getPart s p).buckets k with
          enable := true, burst := BitVec.ofNat 31 (max 4096 (v.toNat / 2 ^ 32 % 2 ^ 31))
          rate := BitVec.ofNat 32 (max 1 (v.toNat % 2 ^ 32))
          tokens := 1000 * ((max 4096 (v.toNat / 2 ^ 32 % 2 ^ 31) : Nat) : Int) } := by
      simp only [bucketSet, getPart_modPart, tabGet_tabPut_self, hon, hburst, hrate, hoff]
      rfl
    have hfit : max 4096 (v.toNat / 2 ^ 32 % 2 ^ 31) % 2 ^ 31 = max 4096 (v.toNat / 2 ^ 32 % 2 ^ 31) := by omega
    dsimp only
    rw [hb]
    refine ⟨rfl, ?_, ?_, ?_, fun j hj => ?_, fun q hq => ?_, rfl⟩
    · rw [BitVec.toNat_ofNat, hfit]
    · rw [BitVec.toNat_ofNat]; omega
    · rw [BitVec.toNat_ofNat, hfit]
    · simp only [bucketSet, getPart_modPart]; exact tabGet_tabPut_ne _ _ _ hj.symm
    · exact getPart_modPart_ne _ _ hq.symm
  intro b piece
  refine ⟨pieceAdmit s p k piece, rfl, fun hoff => ?_, fun hon => ?_⟩
  · exact if_neg (by rw [hoff]; exact Bool.false_ne_true)
  · have hrow : pieceAdmit s p k piece = modPart s p fun x => { x with buckets := tabPut x.buckets k (b.letIn piece) } :=
      if_pos hon
    rw [hrow, getPart_modPart]
    refine ⟨?_, fun j hj => tabGet_tabPut_ne _ _ _ hj.symm, fun q hq => getPart_modPart_ne _ _ hq.symm, rfl⟩
    have hneg : ∀ t : Int, (0 ≤ t) = ¬ t < 0 := by simp
    rw [tabGet_tabPut_self]
    show b.letIn piece = _
    cases piece with
    | none =>
      cases hw : b.waiting with
      | nil => simp only [Bucket.letIn, hw]
      | cons n w => simp only [Bucket.letIn, hw, Bucket.pay, hneg, ite_not]
    | some n =>
      cases hw : b.waiting with
      | nil => simp only [Bucket.letIn, hw, Bucket.pay, hneg, ite_not]
      | cons m w => simp only [Bucket.letIn, hw]

/-- Settles O24: a write's row is its setter, and a bucket's letting in is R360's admission, case by case. -/
theorem partitionLimits : Obligations.PartitionLimits := ⟨queryContextsSumTo1024, regulatorBuckets⟩

end Sys2Proof.Proofs
end

