-- ==== Sys2Proof/Proofs/Mailboxes.lean ====
section
/-! PROOFS. Mailboxes: opening, ring pointers, taking descriptors, completion records, closing (spec/15 R366-R378, R391). -/

namespace Sys2Proof.Proofs

open Sys2Proof Sys2Proof.Machine Sys2Proof.Laws

/-- A row's next state has a property. -/
theorem does_of {i : Instr} {s t : State} {P : State → Prop} (h : exec i s = .next t) (hp : P t) : Does i s P := ⟨t, h, hp⟩

theorem bit_eq_testBit (v i : Nat) : bit v i = v.testBit i := Nat.testBit_eq_decide_div_mod_eq.symm

/-! ### Opening, and the ring pointers -/

/-- A refused register write sets its bit and logs an event: only ERR of the mailbox, the log and what leaves change. -/
theorem mbRefuse_of (s : State) (m bitNo off : Nat) (v : W64) :
    getMb (mbRefuse s m bitNo off v) m = { getMb s m with err := (getMb s m).err ||| BitVec.ofNat 5 (2 ^ bitNo) } ∧
    (s.evt.buf < 256 → (mbRefuse s m bitNo off v).evt.head = s.evt.head + 1) ∧
    (∀ n, n ≠ m → getMb (mbRefuse s m bitNo off v) n = getMb s n) ∧
    mbRefuse s m bitNo off v =
      { s with mbs := (mbRefuse s m bitNo off v).mbs, evt := (mbRefuse s m bitNo off v).evt, outs := (mbRefuse s m bitNo off v).outs } := by
  obtain ⟨u, hu⟩ : ∃ u, u = modMb s m fun x => { x with err := x.err ||| BitVec.ofNat 5 (2 ^ bitNo) } := ⟨_, rfl⟩
  obtain ⟨e, o, h⟩ := logEntry_shape u
    { code := some .ringRefused, source := mbSrc m, detail := toLe 8 (mbAddr m off) ++ toLe 8 v.toNat }
  have hrow : mbRefuse s m bitNo off v = { u with evt := e, outs := o } := by rw [hu] at h ⊢; exact h
  have hhead (hroom : s.evt.buf < 256) : (mbRefuse s m bitNo off v).evt.head = s.evt.head + 1 := logEntry_head (s := modMb s m _) _ hroom
  rw [hrow] at hhead ⊢
  refine ⟨?_, hhead, fun n hn => ?_, by rw [hu]; rfl⟩
  · rw [hu]; exact getMb_modMb s m fun x => { x with err := x.err ||| BitVec.ofNat 5 (2 ^ bitNo) }
  · rw [hu]; exact getMb_modMb_ne s (fun x => { x with err := x.err ||| BitVec.ofNat 5 (2 ^ bitNo) }) hn.symm

/-- Revision 4 is the only one the purser has. -/
theorem chooseRev_four (lo hi : Nat) : chooseRev lo hi = if lo ≤ 4 ∧ 4 ≤ hi then some 4 else none := by
  have hrev (n : Nat) : bit revisions n = decide (n = 4) := by
    have h4 : revisions = 2 ^ 4 := rfl
    rw [bit_eq_testBit, h4, Nat.testBit_two_pow]; exact decide_eq_decide.2 eq_comm
  induction hi with
  | zero => simp [chooseRev, hrev]
  | succ n ih =>
    rw [chooseRev, ih, hrev]
    by_cases hlo : n + 1 < lo
    · rw [if_pos hlo, if_neg (by omega)]
    · rw [if_neg hlo]
      by_cases h4 : n + 1 = 4
      · rw [if_pos (by simpa using h4), if_pos (by omega), h4]
      · rw [if_neg (by simpa using h4)]
        simp only [show (4 ≤ n + 1) = (4 ≤ n) by simp; omega]

theorem mailboxOpen_reach {s : State} {a : Agent} {m : Nat} (hm : m < 64) (hr : mbReach s a m = true) :
    (!mbReach s a m || decide (64 ≤ m)) = false := by simp [hr, hm]

theorem mailboxesOpen : Claim.mailboxesOpen := by
  intro a m lo hi s hm hr
  have hgate := mailboxOpen_reach hm hr
  refine ⟨fun hclosed => ?opening, fun hno => ?refused, fun hopening hworks => ⟨fun hlo hhi => ?chosen, fun hnone => ?mismatch⟩⟩
  case opening =>
    refine ⟨modMb s m fun x => { x with state := .opening, revMin := BitVec.ofNat 8 lo, revMax := BitVec.ofNat 8 hi }, ?_,
      getMb_modMb _ _ _, fun n hn => getMb_modMb_ne _ _ hn.symm, rfl⟩
    refine congrArg Host.Outcome.next ?_
    rw [mailboxOpen, hgate, if_neg Bool.false_ne_true, if_pos hclosed]
  case refused =>
    obtain ⟨herr, hhead, hothers, hframe⟩ := mbRefuse_of s m 3 0x08 (mbCtlValue 1 lo hi)
    refine ⟨_, congrArg Host.Outcome.next ?_, herr, hhead, hothers, hframe⟩
    rw [mailboxOpen, hgate, if_neg Bool.false_ne_true, if_neg hno]
  case chosen =>
    have hrow : exec (.mailboxOpenResolve m) s = .next (openResolve s m) := rfl
    have hto : openResolve s m = modMb s m fun x => { x with
        state := .opened, rev := 4, result := .ok, nextSeq := 0, outstanding := 0, err := 0
        doorbell := 0, reqHead := 0, cplHead := 0, cplTail := 0 } := by
      simp only [openResolve, hopening, hworks, chooseRev_four, if_pos (And.intro hlo hhi)]
      rfl
    refine ⟨openResolve s m, hrow, ?_, fun n hn => ?_, by rw [hto]; rfl⟩
    · rw [hto, getMb_modMb]
    · rw [hto]; exact getMb_modMb_ne _ _ hn.symm
  case mismatch =>
    obtain ⟨u, hu⟩ : ∃ u, u = modMb s m fun x => { x with state := .closed, result := .versionMismatch } := ⟨_, rfl⟩
    obtain ⟨e, o, h⟩ := logEntry_shape u
      { code := some .ringRefused, source := mbSrc m, detail := toLe 8 (mbAddr m 8) ++
          toLe 8 (mbCtlValue 1 (getMb s m).revMin.toNat (getMb s m).revMax.toNat).toNat }
    have hrow : openResolve s m = ringRefused u (mbSrc m) (mbAddr m 8)
        (mbCtlValue 1 (getMb s m).revMin.toNat (getMb s m).revMax.toNat) := by
      rw [hu]
      simp only [openResolve, hopening, hworks, chooseRev_four, if_neg (show ¬ ((getMb s m).revMin.toNat ≤ 4 ∧
        4 ≤ (getMb s m).revMax.toNat) by omega)]
      rfl
    have hhead (hroom : s.evt.buf < 256) : (openResolve s m).evt.head = s.evt.head + 1 := by
      rw [hrow]; subst u; exact logEntry_head (s := modMb s m _) _ hroom
    have heq : openResolve s m = { u with evt := e, outs := o } := hrow.trans h
    refine ⟨openResolve s m, rfl, ?_, hhead, ?_⟩
    · rw [heq, hu]; exact getMb_modMb s m fun x => { x with state := .closed, result := .versionMismatch }
    · rw [heq, hu]; rfl

theorem ringPointersStayInRange : Claim.ringPointersStayInRange := by
  intro a m v s hm hr hroom x
  have hgate := mailboxOpen_reach hm hr
  have hbell : doorbellWrite s a m v = if x.state = .opened && x.doorbell.toNat ≤ v.toNat && v.toNat ≤ x.reqHead.toNat + 256 then
      modMb s m fun x => { x with doorbell := v } else mbRefuse s m 0 0x18 v := by
    rw [doorbellWrite, hgate, if_neg Bool.false_ne_true]
  have htail : cplTailWrite s a m v = if x.cplTail.toNat ≤ v.toNat && v.toNat ≤ x.cplHead.toNat then
      modMb s m fun x => { x with cplTail := v } else mbRefuse s m 4 0x30 v := by
    rw [cplTailWrite, hgate, if_neg Bool.false_ne_true]
  refine ⟨fun hopen hge hle => ?_, fun hbad => ?_, fun hge hle => ?_, fun hbad => ?_⟩
  · rw [if_pos (by simp only [BitVec.le_def] at hge; simp [hopen, hle, hge])] at hbell
    exact ⟨_, congrArg Host.Outcome.next hbell, getMb_modMb s m fun x => { x with doorbell := v }, rfl⟩
  · have hout : (decide (x.state = .opened) && decide (x.doorbell.toNat ≤ v.toNat) &&
        decide (v.toNat ≤ x.reqHead.toNat + 256)) = false := by
      obtain h | h | h := hbad
      · simp [h]
      · simp [Nat.not_le.2 (BitVec.lt_def.1 h)]
      · simp [Nat.not_le.2 h]
    rw [hout, if_neg Bool.false_ne_true] at hbell
    obtain ⟨herr, hhead, -, hframe⟩ := mbRefuse_of s m 0 0x18 v
    exact ⟨_, congrArg Host.Outcome.next hbell, herr, hhead hroom, hframe⟩
  · rw [if_pos (by simp only [BitVec.le_def] at hge hle; simp [hge, hle])] at htail
    exact ⟨_, congrArg Host.Outcome.next htail, getMb_modMb s m fun x => { x with cplTail := v }, rfl⟩
  · rw [if_neg (by simp only [BitVec.lt_def] at hbad; simp; omega)] at htail
    obtain ⟨herr, hhead, -, hframe⟩ := mbRefuse_of s m 4 0x30 v
    exact ⟨_, congrArg Host.Outcome.next htail, herr, hhead hroom, hframe⟩

/-! ### Taking descriptors -/

theorem turnMailbox_ready {s : State} {m : Nat} (h : turnMailbox s = some m) :
    m < 64 ∧ (getMb s m).state = .opened ∧ (getMb s m).reqHead.toNat < (getMb s m).doorbell.toNat ∧
    (getMb s m).outstanding < 4096 := by
  have hready := List.find?_some h
  have hmem := List.mem_of_find?_eq_some h
  obtain ⟨i, -, hi⟩ := List.mem_map.1 hmem
  have hmb : (getMb s m).ready = true := hready
  simp only [Mailbox.ready, Bool.and_eq_true, decide_eq_true_eq] at hmb
  obtain ⟨⟨hopen, hposted⟩, hroom⟩ := hmb
  exact ⟨by rw [← hi]; exact Nat.mod_lt _ (by decide), hopen, hposted, hroom⟩

/-- A descriptor is off its ring, and its command in hand. -/
def takenOff (s : State) (m : Nat) : State :=
  putCmd { modMb s m fun x => { x with reqHead := x.reqHead + 1, outstanding := x.outstanding + 1 } with
      pur := { s.pur with turn := (m + 1) % 64, nextId := s.pur.nextId + 1 } } s.pur.nextId
    (cmdOf s m (descriptorAt (getMb s m) (getMb s m).reqHead.toNat))

theorem getMb_takenOff (s : State) (m : Nat) : getMb (takenOff s m) m =
    { getMb s m with reqHead := (getMb s m).reqHead + 1, outstanding := (getMb s m).outstanding + 1 } :=
  getMb_modMb s m fun x => { x with reqHead := x.reqHead + 1, outstanding := x.outstanding + 1 }

theorem getCmd_takenOff (s : State) (m : Nat) : getCmd (takenOff s m) s.pur.nextId =
    some (cmdOf s m (descriptorAt (getMb s m) (getMb s m).reqHead.toNat)) := getCmd_putCmd _ _ _

/-- What a mailbox whose turn it is does with its next descriptor. -/
theorem descriptorTake_of {s : State} {m : Nat} (ht : turnMailbox s = some m) (hw : purWorks s = true) :
    let x := getMb s m
    let d := descriptorAt x x.reqHead.toNat
    descriptorTake s m =
      if BitVec.ofNat 16 (fld d 2 2) ≠ x.nextSeq then
        let u := takenOff s m
        let f := takeFree (modMb u m fun x => { x with err := x.err ||| 4 })
        endCmd f.2 s.pur.nextId .internal (w64 (f.1 * 65536 + x.nextSeq.toNat))
      else
        let u := modMb (takenOff s m) m fun x => { x with nextSeq := x.nextSeq + 1 }
        if !descriptorOk d then
          (if BitVec.ofNat 8 (fld d 0 1) = 0x30 then endCmd u s.pur.nextId .internal (enqDetail none 0)
           else endPlain u s.pur.nextId .internal)
        else if 0x10 ≤ fld d 0 1 && fld d 0 1 ≤ 0x16 then takeStage u s.pur.nextId (cmdOf s m d)
        else u := by
  intro x d
  rw [descriptorTake, if_neg (by simp [ht, hw])]
  rfl

theorem descriptorsAreTaken : Claim.descriptorsAreTaken := by
  refine ⟨fun m s hturn => ?_, fun m s => turnMailbox_ready, ?_⟩
  · refine congrArg Host.Outcome.next ?_
    rw [descriptorTake, if_pos (by simp [hturn])]
  intro m s ht hw x d
  refine ⟨fun hseq hok hop => ?ok, fun hseq => ?bad⟩
  all_goals
    have hrow := descriptorTake_of ht hw
    dsimp only at hrow
    change descriptorTake s m = if BitVec.ofNat 16 (fld d 2 2) ≠ x.nextSeq then _ else _ at hrow
  case ok =>
    have hseq' : BitVec.ofNat 16 (fld d 2 2) = x.nextSeq := by rw [hseq, BitVec.ofNat_toNat, BitVec.setWidth_eq]
    have hstage : (decide (0x10 ≤ fld d 0 1) && decide (fld d 0 1 ≤ 0x16)) = false := by
      simp only [Bool.and_eq_false_iff, decide_eq_false_iff_not]; omega
    change descriptorTake s m = if BitVec.ofNat 16 (fld d 2 2) ≠ x.nextSeq then _ else
      if (!descriptorOk d) = true then _ else if (decide (0x10 ≤ fld d 0 1) && decide (fld d 0 1 ≤ 0x16)) = true then _ else _ at hrow
    rw [if_neg (not_not_intro hseq'), hok, hstage] at hrow
    refine ⟨_, congrArg Host.Outcome.next hrow, ?_, ⟨_, getCmd_takenOff s m, rfl, hseq', ?_, rfl, rfl, ?_⟩, fun i hi => ?_,
      rfl, rfl, rfl, rfl⟩
    · exact (getMb_modMb (takenOff s m) m fun x => { x with nextSeq := x.nextSeq + 1 }).trans
        (by rw [getMb_takenOff])
    · exact Nat.mod_eq_of_lt (fld_lt d 0 1)
    · exact Nat.mod_eq_of_lt (fld_lt d 8 8)
    · exact (tabFind_tabPut s.pur.cmds _ i _).trans (if_neg hi.symm)
  case bad =>
    have hlt : fld d 2 2 < 2 ^ 16 := fld_lt d 2 2
    have hne : BitVec.ofNat 16 (fld d 2 2) ≠ x.nextSeq := by
      intro h
      refine hseq ?_
      rw [← h, BitVec.toNat_ofNat, Nat.mod_eq_of_lt hlt]
    rw [if_pos hne] at hrow
    obtain ⟨u, hu⟩ : ∃ u, u = (takeFree (modMb (takenOff s m) m fun x => { x with err := x.err ||| 4 })).2 := ⟨_, rfl⟩
    have hmb : getMb u m = { x with reqHead := x.reqHead + 1, outstanding := x.outstanding + 1, err := x.err ||| 4 } := by
      rw [hu]
      exact (getMb_modMb (takenOff s m) m fun x => { x with err := x.err ||| 4 }).trans (by rw [getMb_takenOff])
    have hcu : getCmd u s.pur.nextId = some (cmdOf s m d) := by rw [hu]; exact getCmd_takenOff s m
    have hend (w : W64) : getMb (endCmd u s.pur.nextId .internal w) m =
        { getMb u m with held := (getMb u m).held ++ [recordOf (cmdOf s m d) .internal w] } := by
      rw [endCmd_of hcu]
      exact getMb_modMb _ m fun x => { x with held := x.held ++ [recordOf (cmdOf s m d) .internal w] }
    refine does_of (congrArg Host.Outcome.next hrow) ?_
    rw [← hu, hend, hmb]
    refine ⟨rfl, rfl, rfl, _, rfl, rfl, Nat.mod_eq_of_lt hlt, ?_⟩
    rw [recordOf, w64, BitVec.toNat_ofNat, Nat.mod_mod_of_dvd _ (by decide), Nat.mul_add_mod_self_right,
      Nat.mod_eq_of_lt x.nextSeq.isLt]

/-! ### Completion records -/

/-- A completion ring with a record at a place. -/
def withRecord (ring : Tab W64) (at0 : Nat) (words : List W64) : Tab W64 :=
  words.zipIdx.foldl (fun t p => tabSet 0 t (at0 + p.2) p.1) ring

/-- The four words of a record stand at its place. -/
theorem tabGet_withRecord (ring : Tab W64) (at0 : Nat) (a b c d : W64) :
    tabGet 0 (withRecord ring at0 [a, b, c, d]) at0 = a ∧ tabGet 0 (withRecord ring at0 [a, b, c, d]) (at0 + 1) = b ∧
    tabGet 0 (withRecord ring at0 [a, b, c, d]) (at0 + 2) = c ∧ tabGet 0 (withRecord ring at0 [a, b, c, d]) (at0 + 3) = d := by
  simp [withRecord, tabGet_tabSet]

/-- The first word of a record: SEQ, STATUS, OPCODE and the mark of a progress record (spec/15 Table 15-2). -/
theorem recordWord_toNat (r : CplRec) (progress : Bool) :
    (w64 (r.seq.toNat + (if progress then 0 else r.status.code) * 2 ^ 16 + r.opcode.toNat * 2 ^ 32 + b2n progress * 2 ^ 40)).toNat =
      r.seq.toNat + (if progress then 0 else r.status.code) * 2 ^ 16 + r.opcode.toNat * 2 ^ 32 + b2n progress * 2 ^ 40 := by
  have hseq := r.seq.isLt
  have hop := r.opcode.isLt
  have hst := statusCode_lt r.status
  have hp : b2n progress ≤ 1 := by cases progress <;> decide
  rw [w64, BitVec.toNat_ofNat]
  refine Nat.mod_eq_of_lt ?_
  split <;> omega

/-- The interrupt of a record written, where the mailbox asks for one. -/
def cplIrq (x : Mailbox) (m : Nat) : List Out := if x.irqEn then [Out.irq x.irqHart.toNat (.mailbox m)] else []

theorem writeCpl_eq (s : State) (m : Nat) (r : CplRec) (progress : Bool) : writeCpl s m r progress =
    { modMb s m fun x => { x with
        cpl := withRecord (getMb s m).cpl ((getMb s m).cplHead.toNat % 512 * 4) (cplWords s r progress), cplHead := x.cplHead + 1 } with
      outs := cplIrq (getMb s m) m ++ s.outs } := by
  rw [writeCpl, cplIrq]
  cases (getMb s m).irqEn <;> rfl

theorem getMb_writeCpl (s : State) (m : Nat) (r : CplRec) (progress : Bool) : getMb (writeCpl s m r progress) m =
    { getMb s m with
      cpl := withRecord (getMb s m).cpl ((getMb s m).cplHead.toNat % 512 * 4) (cplWords s r progress)
      cplHead := (getMb s m).cplHead + 1 } := by
  rw [writeCpl_eq]
  exact getMb_modMb s m fun x => { x with
    cpl := withRecord (getMb s m).cpl ((getMb s m).cplHead.toNat % 512 * 4) (cplWords s r progress), cplHead := x.cplHead + 1 }

theorem getMb_writeCpl_ne (s : State) {m n : Nat} (r : CplRec) (progress : Bool) (hn : n ≠ m) :
    getMb (writeCpl s m r progress) n = getMb s n := by
  rw [writeCpl_eq]
  exact getMb_modMb_ne s (fun x => { x with
    cpl := withRecord (getMb s m).cpl ((getMb s m).cplHead.toNat % 512 * 4) (cplWords s r progress), cplHead := x.cplHead + 1 }) hn.symm

/-- The first record that waits is off its list. -/
def unheld (s : State) (m : Nat) (r : CplRec) (rest : List CplRec) : State :=
  modMb s m fun x => { x with held := rest, outstanding := if r.taken then x.outstanding - 1 else x.outstanding }

theorem getMb_unheld (s : State) (m : Nat) (r : CplRec) (rest : List CplRec) : getMb (unheld s m r rest) m =
    { getMb s m with held := rest, outstanding := if r.taken then (getMb s m).outstanding - 1 else (getMb s m).outstanding } :=
  getMb_modMb s m fun x => { x with held := rest, outstanding := if r.taken then x.outstanding - 1 else x.outstanding }

theorem completionRecords : Claim.completionRecords := by
  refine ⟨fun m s r rest hheld hopen hroom => ?written, fun m s r rest hheld hopen hfull => ?full,
    fun m id c s hc hstep => ?between, fun m id c s hc hmb hstep hflag hph hopen htime hroom => ?progress⟩
  case written =>
    have hrow : completionWrite s m = writeCpl (unheld s m r rest) m r false := by
      rw [completionWrite, hheld]
      exact (if_neg hopen).trans (if_pos hroom)
    refine does_of (congrArg Host.Outcome.next hrow) ?_
    intro x at0
    have hx := getMb_unheld s m r rest
    obtain ⟨h0, h1, h2, h3⟩ := tabGet_withRecord x.cpl at0
      (w64 (r.seq.toNat + r.status.code * 2 ^ 16 + r.opcode.toNat * 2 ^ 32 + b2n false * 2 ^ 40)) r.tag r.detail s.hub.time
    have hword := recordWord_toNat r false
    rw [getMb_writeCpl, hx]
    refine ⟨rfl, rfl, rfl, h1, h2, h3, ?_, rfl, rfl, ?_, fun n hn => ?_, ?_⟩
    · refine (congrArg BitVec.toNat h0).trans (hword.trans ?_)
      simp [b2n]
    · rw [writeCpl_eq, hx]; rfl
    · rw [getMb_writeCpl_ne _ _ _ hn]
      exact getMb_modMb_ne s (fun x => { x with held := rest, outstanding := if r.taken then x.outstanding - 1 else x.outstanding }) hn.symm
    · rw [writeCpl_eq]; rfl
  case full =>
    have hrow : completionWrite s m = modMb s m fun x => { x with err := x.err ||| 2 } := by
      rw [completionWrite, hheld]
      exact (if_neg hopen).trans (if_neg (Nat.not_lt.2 hfull))
    exact ⟨_, congrArg Host.Outcome.next hrow, getMb_modMb s m fun x => { x with err := x.err ||| 2 }, rfl⟩
  case between =>
    refine congrArg Host.Outcome.next ?_
    rw [progressWrite, hc]
    exact if_pos (by simp [hstep])
  case progress =>
    obtain ⟨u, hu⟩ : ∃ u, u = putCmd (putCmd s id { c with stepped := false }) id
        { c with stepped := false, lastProgress := s.hub.time } := ⟨_, rfl⟩
    have hbit : bit c.flags.toNat 1 = true := (bit_eq_testBit _ _).trans hflag
    have huse : cplUsed (getMb s m) + 256 ≤ 512 := Nat.add_le_add_right hroom 256
    obtain ⟨r, hr⟩ : ∃ r : CplRec, r = { seq := c.seq, opcode := c.opcode, tag := c.tag, detail := progressOf c } := ⟨_, rfl⟩
    have hrow : progressWrite s m id = writeCpl u m r true := by
      rw [progressWrite, hc, hu, hr]
      exact (if_neg (by simp [hmb, hstep])).trans (if_pos (by simp [hbit, hph, hopen, htime, huse]))
    have hmbs : getMb u m = getMb s m := by rw [hu]; rfl
    obtain ⟨h0, -⟩ := tabGet_withRecord (getMb s m).cpl ((getMb s m).cplHead.toNat % 512 * 4)
      (w64 (r.seq.toNat + 0 * 2 ^ 16 + r.opcode.toNat * 2 ^ 32 + b2n true * 2 ^ 40)) r.tag r.detail u.hub.time
    have hword := recordWord_toNat r true
    refine does_of (congrArg Host.Outcome.next hrow) ?_
    rw [getMb_writeCpl, hmbs]
    refine ⟨rfl, rfl, ?_, ?_, ?_⟩
    · refine (congrArg (fun w : W64 => w.getLsbD 40) h0).trans ?_
      have hlow : r.seq.toNat + r.opcode.toNat * 2 ^ 32 < 2 ^ 40 := by
        have hseq := r.seq.isLt
        have hop := r.opcode.isLt
        omega
      have hnat : (w64 (r.seq.toNat + 0 * 2 ^ 16 + r.opcode.toNat * 2 ^ 32 + b2n true * 2 ^ 40)).toNat =
          2 ^ 40 + (r.seq.toNat + r.opcode.toNat * 2 ^ 32) := by
        refine hword.trans ?_
        simp only [b2n, if_true]
        omega
      rw [← BitVec.testBit_toNat, hnat, Nat.testBit_two_pow_add_eq, Nat.testBit_lt_two_pow hlow]
      rfl
    · rw [writeCpl_eq, hu]; exact getCmd_putCmd _ _ _
    · rw [writeCpl_eq, hu]; rfl

/-- Settles O25: the turn picks an open mailbox, the checks of its descriptor decide, and records go out while there is room. -/
theorem descriptorsAndCompletions : Obligations.DescriptorsAndCompletions := ⟨descriptorsAreTaken, completionRecords⟩

/-! ### Closing -/

theorem tabFind_of_mem {α : Type} {t : Tab α} (h : t.Pairwise fun x y => x.1 < y.1) {p : Nat × α} (hp : p ∈ t) :
    tabFind t p.1 = some p.2 := by
  induction t with
  | nil => exact absurd hp List.not_mem_nil
  | cons x t ih =>
    obtain ⟨hlt, ht⟩ := List.pairwise_cons.1 h
    obtain rfl | hmem := List.mem_cons.1 hp
    · simp [tabFind]
    · have hne : x.1 ≠ p.1 := Nat.ne_of_lt (hlt p hmem)
      simp [tabFind, hne, ih ht hmem]

/-- Records of a status have joined those that wait in a mailbox; the other mailboxes are as before. -/
structure Joined (st : Status) (m n : Nat) (s t : State) : Prop where
  held : ∃ l : List CplRec, l.length = n ∧ (∀ r ∈ l, r.status = st) ∧
    getMb t m = { getMb s m with held := (getMb s m).held ++ l }
  others (k : Nat) : k ≠ m → getMb t k = getMb s k

theorem Joined.none (st : Status) (m : Nat) (s : State) : Joined st m 0 s s :=
  ⟨⟨[], rfl, fun r hr => absurd hr List.not_mem_nil, by rw [List.append_nil]⟩, fun k _ => rfl⟩

theorem Joined.trans {st : Status} {m n n' : Nat} {s t u : State} (h : Joined st m n s t) (h' : Joined st m n' t u) :
    Joined st m (n + n') s u := by
  obtain ⟨l, hlen, hst, hmb⟩ := h.held
  obtain ⟨l', hlen', hst', hmb'⟩ := h'.held
  refine ⟨⟨l ++ l', by rw [List.length_append, hlen, hlen'], fun r hr => ?_, ?_⟩, fun k hk => (h'.others k hk).trans (h.others k hk)⟩
  · obtain hr | hr := List.mem_append.1 hr
    · exact hst r hr
    · exact hst' r hr
  · rw [hmb', hmb, List.append_assoc]

/-- One record joins those of its mailbox. -/
theorem joined_modMb {s u : State} (h : ∀ k, getMb u k = getMb s k) (m : Nat) (r : CplRec) :
    Joined r.status m 1 s (modMb u m fun x => { x with held := x.held ++ [r] }) := by
  refine ⟨⟨[r], rfl, fun r' hr' => by rw [List.mem_singleton.1 hr'], ?_⟩, fun k hk => ?_⟩
  · rw [← h m]; exact getMb_modMb u m fun x => { x with held := x.held ++ [r] }
  · rw [← h k]; exact getMb_modMb_ne u (fun x => { x with held := x.held ++ [r] }) hk.symm

theorem refuseDescriptor_joined (s : State) (m i : Nat) :
    Joined .disabled m 1 s (refuseDescriptor s m i) ∧ (refuseDescriptor s m i).pur = s.pur := by
  obtain ⟨r, hr, h⟩ : ∃ r : CplRec, r.status = .disabled ∧ refuseDescriptor s m i =
      modMb (takeFree s).2 m fun x => { x with held := x.held ++ [r] } := ⟨_, rfl, rfl⟩
  rw [h]
  exact ⟨hr ▸ joined_modMb (s := s) (u := (takeFree s).2) (fun _ => rfl) m r, rfl⟩

theorem foldl_refuseDescriptor (m : Nat) (f : Nat → Nat) (l : List Nat) (s : State) :
    Joined .disabled m l.length s (l.foldl (fun s i => refuseDescriptor s m (f i)) s) ∧
    (l.foldl (fun s i => refuseDescriptor s m (f i)) s).pur = s.pur := by
  induction l generalizing s with
  | nil => exact ⟨.none _ _ _, rfl⟩
  | cons i l ih =>
    obtain ⟨h, hp⟩ := refuseDescriptor_joined s m (f i)
    obtain ⟨h', hp'⟩ := ih (refuseDescriptor s m (f i))
    refine ⟨?_, hp'.trans hp⟩
    rw [List.length_cons, Nat.add_comm]
    exact h.trans h'

theorem endCmd_joined {s : State} {id : Nat} {c : PCmd} (h : getCmd s id = some c) (st : Status) (d : W64) :
    Joined st c.mb 1 s (endCmd s id st d) ∧ (endCmd s id st d).pur = { s.pur with cmds := tabDel s.pur.cmds id } := by
  rw [endCmd_of h]
  exact ⟨joined_modMb (s := s) (u := { s with pur := { s.pur with cmds := tabDel s.pur.cmds id } }) (fun _ => rfl) c.mb
    (recordOf c st d), rfl⟩

/-- A command that a mailbox has taken and the purser has not started, of no request. -/
def Unstarted (c : PCmd) : Prop :=
  c.guest = none ∧ c.phase = .held ∧ c.enq = none ∧ (c.opcode.toNat < 0x10 ∨ 0x16 < c.opcode.toNat)

theorem stopCmd_joined {s : State} {id : Nat} {c : PCmd} (h : getCmd s id = some c) (hc : Unstarted c) :
    Joined .abortedDisabled c.mb 1 s (stopCmd s id c) ∧ (stopCmd s id c).pur = { s.pur with cmds := tabDel s.pur.cmds id } := by
  obtain ⟨-, hph, henq, hop⟩ := hc
  have hstage : (decide (0x10 ≤ c.opcode.toNat) && decide (c.opcode.toNat ≤ 0x16)) = false := by
    simp only [Bool.and_eq_false_iff, decide_eq_false_iff_not]; omega
  simp only [stopCmd, henq, hstage, Bool.false_eq_true, if_false, hph, if_true]
  split
  · exact endCmd_joined h _ _
  · obtain ⟨hjoin, hpur⟩ := endCmd_joined (s := (takeFree s).2) h .abortedDisabled (w64 (takeFree s).1)
    exact ⟨⟨hjoin.held, hjoin.others⟩, hpur⟩

/-- Commands that are in hand and not started stop, each with its record. -/
theorem foldl_stopCmd {m : Nat} (l : List (Nat × PCmd)) (s : State) (hmb : ∀ p ∈ l, p.2.mb = m ∧ Unstarted p.2)
    (hkeys : (l.map (·.1)).Nodup) (hget : ∀ p ∈ l, getCmd s p.1 = some p.2) :
    Joined .abortedDisabled m l.length s (l.foldl (fun s p => stopCmd s p.1 p.2) s) ∧
    (l.foldl (fun s p => stopCmd s p.1 p.2) s).pur =
      { s.pur with cmds := s.pur.cmds.filter fun x => !(l.map (·.1)).contains x.1 } := by
  induction l generalizing s with
  | nil => exact ⟨.none _ _ _, by simp⟩
  | cons p l ih =>
    obtain ⟨hpm, hun⟩ := hmb p List.mem_cons_self
    obtain ⟨hnew, hrest⟩ := List.nodup_cons.1 hkeys
    obtain ⟨h, hcmds⟩ := stopCmd_joined (hget p List.mem_cons_self) hun
    obtain ⟨h', hcmds'⟩ := ih (stopCmd s p.1 p.2) (fun q hq => hmb q (List.mem_cons_of_mem _ hq)) hrest fun q hq => by
      have hne : p.1 ≠ q.1 := fun he => hnew (List.mem_map.2 ⟨q, hq, he.symm⟩)
      rw [getCmd, hcmds, tabFind_tabDel, if_neg hne]
      exact hget q (List.mem_cons_of_mem _ hq)
    rw [List.foldl_cons, List.length_cons, Nat.add_comm]
    refine ⟨(hpm ▸ h).trans h', ?_⟩
    rw [hcmds', hcmds, tabDel_filter]
    refine congrArg (fun c => { s.pur with cmds := c }) ?_
    rw [List.filter_filter]
    refine List.filter_congr fun x _ => ?_
    rw [List.map_cons, List.contains_cons, Bool.not_or, Bool.and_comm, decide_not, beq_eq_decide]

theorem mailboxesClose : Claim.mailboxesClose := by
  intro a m s hm hr hopen hreqs hun hsorted
  obtain ⟨u, hu⟩ : ∃ u, u = modMb s m fun x => { x with state := .closing } := ⟨_, rfl⟩
  have hmb : getMb u m = { getMb s m with state := .closing } := by
    rw [hu]; exact getMb_modMb s m fun x => { x with state := .closing }
  have hothers (k : Nat) (hk : k ≠ m) : getMb u k = getMb s k := by
    rw [hu]; exact getMb_modMb_ne s (fun x => { x with state := .closing }) hk.symm
  obtain ⟨n, hn⟩ : ∃ n, n = (getMb s m).doorbell.toNat - (getMb s m).reqHead.toNat := ⟨_, rfl⟩
  obtain ⟨href, hpur⟩ := foldl_refuseDescriptor m (fun i => (getMb s m).reqHead.toNat + i) (List.range n) u
  obtain ⟨v, hv⟩ : ∃ v, v = (List.range n).foldl (fun s' i => refuseDescriptor s' m ((getMb s m).reqHead.toNat + i)) u := ⟨_, rfl⟩
  rw [← hv] at href hpur
  have hcmds : v.pur.cmds = s.pur.cmds := by rw [hpur, hu]; rfl
  obtain ⟨l, hl⟩ : ∃ l, l = s.pur.cmds.filter fun p => p.2.mb = m && p.2.guest.isNone := ⟨_, rfl⟩
  have hin (p : Nat × PCmd) (hp : p ∈ l) : p ∈ s.pur.cmds ∧ p.2.mb = m := by
    rw [hl, List.mem_filter] at hp
    simp only [Bool.and_eq_true, decide_eq_true_eq] at hp
    exact ⟨hp.1, hp.2.1⟩
  obtain ⟨hstop, hleft⟩ := foldl_stopCmd l v (fun p hp => ⟨(hin p hp).2, hun p (hin p hp).1 (hin p hp).2⟩)
    (by
      rw [hl, List.Nodup, List.pairwise_map]
      exact (hsorted.sublist List.filter_sublist).imp Nat.ne_of_lt)
    (fun p hp => by rw [getCmd, hcmds]; exact tabFind_of_mem hsorted (hin p hp).1)
  obtain ⟨w, hw⟩ : ∃ w, w = l.foldl (fun s p => stopCmd s p.1 p.2) v := ⟨_, rfl⟩
  rw [← hw] at hstop hleft
  have hrow : mailboxClose s a m = w := by
    have hnone : w.pur.reqs = [] := by rw [hleft, hpur, hu]; exact hreqs
    have hdisable (f : Request → Bool) (g : PCmd → Bool) : disableReqs w f g = w := by rw [disableReqs, hnone]; rfl
    rw [mailboxClose, mailboxOpen_reach hm hr, if_neg Bool.false_ne_true]
    dsimp only
    rw [if_neg (not_not_intro hopen), ← hu, ← hn, ← hv, hcmds, ← hl, ← hw, hdisable]
  obtain ⟨l1, hlen1, hst1, hmb1⟩ := href.held
  obtain ⟨l2, hlen2, hst2, hmb2⟩ := hstop.held
  have hfinal : getMb w m = { getMb s m with state := .closing, held := (getMb s m).held ++ l1 ++ l2 } := by
    rw [hmb2, hmb1, hmb]
  refine does_of (congrArg Host.Outcome.next hrow) ⟨?_, ?_, fun r hr => ?_, fun p hp => ?_, fun k hk => ?_⟩
  · rw [hfinal]
  · have hfilter : (s.pur.cmds.filter fun p => p.2.mb = m) = l := by
      rw [hl]
      refine List.filter_congr fun p hp => ?_
      by_cases hpm : p.2.mb = m
      · simp [hpm, (hun p hp hpm).1]
      · simp [hpm]
    rw [hfinal, hfilter, List.length_append, List.length_append, hlen1, hlen2, List.length_range, hn]
  · rw [hfinal] at hr
    obtain hr | hr := List.mem_append.1 hr
    · obtain hr | hr := List.mem_append.1 hr
      · exact .inl hr
      · exact .inr (.inl (hst1 r hr))
    · exact .inr (.inr (hst2 r hr))
  · intro hpm
    rw [hleft] at hp
    change p ∈ v.pur.cmds.filter _ at hp
    rw [hcmds, List.mem_filter] at hp
    obtain ⟨hps, hout⟩ := hp
    have hpl : p ∈ l := by
      rw [hl, List.mem_filter]
      exact ⟨hps, by simp [hpm, (hun p hps hpm).1]⟩
    simp [List.mem_map_of_mem hpl] at hout
  · exact (hstop.others k hk).trans ((href.others k hk).trans (hothers k hk))

/-- Settles O26: opening, the ring pointers' ranges, and the records that a close leaves. -/
theorem mailboxesOpenAndClose : Obligations.MailboxesOpenAndClose :=
  ⟨mailboxesOpen, ringPointersStayInRange, mailboxesClose⟩

end Sys2Proof.Proofs
end

