-- ==== Sys2Proof/Proofs/Engines.lean ====
section
/-! PROOFS. Engine queues: the offer of a command, and how one at the head of its queue ends (spec/04 R101, spec/05 R120,
spec/14 R346, R350, spec/15 R381, R388). -/

namespace Sys2Proof.Proofs

open Sys2Proof Sys2Proof.Machine Sys2Proof.Laws

/-! ### Queues -/

theorem getQ_of_engs {s t : State} (h : t.engs = s.engs) (e : Eng) (c : Nat) : getQ t e c = getQ s e c := by
  rw [getQ, getQ, getEng, getEng, h]

theorem getEng_of_engs {s t : State} (h : t.engs = s.engs) (e : Eng) : getEng t e = getEng s e := by
  rw [getEng, getEng, h]

theorem getQ_of_key {s : State} {e f : Eng} (h : engKey f = engKey e) (c : Nat) : getQ s f c = getQ s e c := by
  rw [getQ, getQ, getEng, getEng, h]

/-- A change of one queue leaves every other as it is. -/
theorem otherQueues_modQ (s : State) (e : Eng) (c : Nat) (f : CtxQ → CtxQ) : Claim.otherQueues s (modQ s e c f) e c := by
  intro g d hne
  by_cases hk : engKey g = engKey e
  · have hd : c ≠ d := fun h => hne ⟨hk, h.symm⟩
    rw [getQ_of_key hk, getQ_of_key hk, getQ_modQ_ctx s e f hd]
  · exact getQ_modQ_eng s c d f (Ne.symm hk)

theorem otherQueues_of_engs {s t : State} (h : t.engs = s.engs) (e : Eng) (c : Nat) : Claim.otherQueues s t e c :=
  fun f d _ => getQ_of_engs h f d

theorem otherQueues_trans {s t u : State} {e : Eng} {c : Nat} (h : Claim.otherQueues s t e c)
    (h' : Claim.otherQueues t u e c) : Claim.otherQueues s u e c := fun f d hne => (h' f d hne).trans (h f d hne)

/-- The fault record is not a queue's. -/
theorem getQ_fault (s : State) (e g : Eng) (c : Nat) (f : FaultRec → FaultRec) :
    getQ (modEng s e fun x => { x with fault := f x.fault }) g c = getQ s g c := by
  by_cases hk : engKey g = engKey e
  · rw [getQ_of_key hk, getQ_of_key hk, getQ, getEng_modEng, getQ]
  · rw [getQ, getEng_modEng_ne s _ (Ne.symm hk), getQ]

theorem popQ_gone (s : State) (e : Eng) (c : Nat) : Claim.headGone s (popQ s e c) e c :=
  ⟨getQ_modQ s e c fun x => { x with queue := x.queue.tail }, otherQueues_modQ s e c _⟩

/-! ### Completion -/

/-- What a report leaves. -/
theorem reportCmd_keeps (s : State) (o : Option (Nat × Nat)) (st : Status) : (reportCmd s o st).engs = s.engs ∧
    (reportCmd s o st).mem = s.mem ∧ (reportCmd s o st).evt = s.evt := by
  have h : Fr 205056 s (reportCmd s o st) := reportCmd_fr (by decide) (Fr.refl _ _)
  exact ⟨h.same .engs rfl, h.same .mem rfl, h.same .evt rfl⟩

theorem halts_not_good {st : Status} (h : st.halts = true) : st.good = false := by
  cases st <;> simp_all [Status.halts, Status.good]

/-- A completion that does not halt: the report, after the failure of a core's map is kept. -/
theorem completeCmd_quiet (s : State) (e : Eng) (c : Nat) (q : QCmd) {st : Status} (h : st.halts = false) (o : Overflow) :
    ∃ u, completeCmd s e c q st o = reportCmd u q.origin st ∧ Fr 64 s u := by
  rw [completeCmd, h, if_neg Bool.false_ne_true]
  split
  · refine ⟨_, rfl, ?_⟩
    unfold mapFails
    split
    · exact Fr.refl _ _
    · dsimp only
      rw [h, if_neg Bool.false_ne_true]
      exact modCore_fr (by decide) (Fr.refl _ _)
  · exact ⟨s, rfl, Fr.refl _ _⟩

/-- A command that does not halt its context leaves its queue, and no byte of memory changes. -/
theorem completeHead_gone (s : State) (e : Eng) (c : Nat) (q : QCmd) {st : Status} (h : st.halts = false) (o : Overflow) :
    Claim.headGone s (completeHead s e c q st o) e c ∧
    (getEng (completeHead s e c q st o) e).fault = (getEng s e).fault ∧ (completeHead s e c q st o).mem = s.mem := by
  obtain ⟨u, hu, hfr⟩ := completeCmd_quiet (popQ s e c) e c q h o
  obtain ⟨hengs, hmem, -⟩ := reportCmd_keeps u q.origin st
  have he : (completeHead s e c q st o).engs = (popQ s e c).engs := by
    rw [completeHead, hu, hengs]; exact hfr.same .engs rfl
  refine ⟨⟨(getQ_of_engs he e c).trans (popQ_gone s e c).1, fun f d hne => ?_⟩, ?_, ?_⟩
  · exact (getQ_of_engs he f d).trans ((popQ_gone s e c).2 f d hne)
  · exact (congrArg EngineSt.fault (getEng_of_engs he e)).trans (getEng_modQ_fault s e c _)
  · rw [completeHead, hu, hmem]; exact hfr.same .mem rfl

/-- The fault record that a command which halts its context leaves where none stands. -/
def faultOf (c : Nat) (q : QCmd) (st : Status) (o : Overflow) : FaultRec :=
  { valid := true, opcode := BitVec.ofNat 8 (cmdOp q.bytes), ctx := BitVec.ofNat 7 c, resource := BitVec.ofNat 8 o.resource,
    status := st, cmdSeq := q.seq }

/-- The event of a command that halts its context. -/
def haltEntry (e : Eng) (c : Nat) (q : QCmd) (st : Status) (o : Overflow) : EvtEntry :=
  if st = .mapOverflow then
    { code := some .mapOverflow, source := engSrc e, ctx := some (BitVec.ofNat 7 c), status := st,
      mapId := BitVec.ofNat 16 o.mapId, cmdSeq := q.seq,
      detail := toLe 1 o.resource ++ toLe 1 (cmdOp q.bytes) ++ toLe 6 0 ++ toLe 8 o.claimed ++ toLe 8 o.required }
  else
    { code := some .cmdFault, source := engSrc e, ctx := some (BitVec.ofNat 7 c), status := st,
      cmdSeq := q.seq, detail := toLe 1 (cmdOp q.bytes) }

/-- The fault record keeps the first fault. -/
def withFault (s : State) (e : Eng) (r : FaultRec) : State :=
  modEng s e fun x => { x with fault := if x.fault.valid then x.fault else r }

theorem faultHalt_eq (s : State) (e : Eng) (c : Nat) (q : QCmd) (st : Status) (o : Overflow) : faultHalt s e c q st o =
    modQ (logEntry (withFault s e (faultOf c q st o)) (haltEntry e c q st o)) e c fun x => { x with halt := true } := by
  have hfault : (fun x : EngineSt => if x.fault.valid = true then x else { x with fault := faultOf c q st o }) =
      fun x => { x with fault := if x.fault.valid then x.fault else faultOf c q st o } := by
    funext x
    cases x.fault.valid <;> rfl
  rw [withFault, ← hfault]
  rfl

/-- The context halts, the fault record keeps the first fault, and nothing else of any queue changes. -/
theorem faultHalt_engs (s : State) (e : Eng) (c : Nat) (q : QCmd) (st : Status) (o : Overflow) :
    getQ (faultHalt s e c q st o) e c = { getQ s e c with halt := true } ∧
    Claim.otherQueues s (faultHalt s e c q st o) e c ∧
    (getEng (faultHalt s e c q st o) e).fault = if (getEng s e).fault.valid then (getEng s e).fault else faultOf c q st o := by
  rw [faultHalt_eq]
  obtain ⟨u, hu⟩ : ∃ u, u = logEntry (withFault s e (faultOf c q st o)) (haltEntry e c q st o) := ⟨_, rfl⟩
  have hengs : u.engs = (withFault s e (faultOf c q st o)).engs := by rw [hu, logEntry_frame]
  have hq (g : Eng) (d : Nat) : getQ u g d = getQ s g d :=
    (getQ_of_engs hengs g d).trans (getQ_fault s e g d fun r => if r.valid then r else faultOf c q st o)
  rw [← hu]
  refine ⟨?_, fun f d hne => ?_, ?_⟩
  · rw [getQ_modQ, hq]
  · rw [otherQueues_modQ u e c _ f d hne, hq]
  · rw [getEng_modQ_fault, getEng_of_engs hengs e, withFault, getEng_modEng]

/-- What a completion that halts the context does to the queues, after its fault. -/
theorem completeCmd_engs (s : State) (e : Eng) (c : Nat) (q : QCmd) {st : Status} (h : st.halts = true) (o : Overflow) :
    (completeCmd s e c q st o).engs = (faultHalt s e c q st o).engs := by
  rw [completeCmd, h, if_pos rfl, (reportCmd_keeps _ _ _).1]
  split
  · exact (mapFails_fr (mk := 1180012) (by decide) (Fr.refl _ _) :
      Fr 1180012 (faultHalt s e c q st o) (mapFails _ e.index c st _)).same .engs rfl
  · rfl

/-- Where no map and no report has a part in it, only queues, the log and what leaves change. -/
theorem completeCmd_alone (s : State) {e : Eng} (c : Nat) {q : QCmd} {st : Status} (h : st.halts = true) (o : Overflow)
    (he : e.kind ≠ .core) (hq : q.origin = none) : completeCmd s e c q st o = faultHalt s e c q st o := by
  have hno : (!st.good && decide (e.kind = .core)) = false := by simp [he]
  rw [completeCmd, h, if_pos rfl, hno, if_neg Bool.false_ne_true, hq]
  rfl

/-- A command that fails at the head of its queue. -/
theorem completeHead_fails (s : State) (e : Eng) (c : Nat) (q : QCmd) {st : Status} (h : st.halts = true) (o : Overflow) :
    Claim.headFails s (completeHead s e c q st o) e c q st := by
  have hengs : (completeHead s e c q st o).engs = (faultHalt (popQ s e c) e c q st o).engs := completeCmd_engs _ e c q h o
  obtain ⟨hq, hothers, hfault⟩ := faultHalt_engs (popQ s e c) e c q st o
  have hpop : (getEng (popQ s e c) e).fault = (getEng s e).fault := getEng_modQ_fault s e c _
  rw [hpop] at hfault
  refine ⟨?_, fun f d hne => ?_, fun hv => ?_, fun hv => ?_⟩
  · rw [getQ_of_engs hengs, hq, (popQ_gone s e c).1]
  · rw [getQ_of_engs hengs, hothers f d hne, (popQ_gone s e c).2 f d hne]
  · rw [getEng_of_engs hengs, hfault, hv, if_pos rfl]
  · rw [getEng_of_engs hengs, hfault, hv, if_neg Bool.false_ne_true]
    exact ⟨rfl, rfl, rfl, rfl, rfl⟩

/-! ### Offers -/

/-- How many commands of a context wait on an engine at most. -/
def queueRoom (s : State) (e : Eng) (c : Nat) : Nat := if e.kind = .core then (mapInForce s e.index c).queue else 64

/-- A command as it stands in its queue. -/
def offered (s : State) (e : Eng) (b : Bytes) (origin : Option (Nat × Nat)) : QCmd :=
  { bytes := b, seq := (getQ s e (cmdCtx b)).nextSeq, origin := origin, verdict := offerVerdict s e b }

/-- The event of a command that its context may not offer to an engine. -/
def refusedEntry (e : Eng) (b : Bytes) : EvtEntry :=
  { code := some .cmdFault, source := engSrc e, ctx := some (BitVec.ofNat 7 (cmdCtx b)), status := .internal
    detail := toLe 1 (cmdOp b) }

section
variable {s : State} {e : Eng} {b : Bytes} (origin : Option (Nat × Nat))

theorem offerCmd_disabled (hoff : (getCtx s (cmdCtx b)).enable = false) :
    offerCmd s e b origin = (s, .ended .disabled) := by
  rw [offerCmd, hoff]; rfl

theorem offerCmd_refused (hon : (getCtx s (cmdCtx b)).enable = true) (hno : mayReach s e (cmdCtx b) = false) :
    offerCmd s e b origin = (logEntry s (refusedEntry e b), .refused) := by
  rw [offerCmd, hon, hno]; rfl

theorem offerCmd_queued (hon : (getCtx s (cmdCtx b)).enable = true) (hreach : mayReach s e (cmdCtx b) = true)
    (hroom : (getQ s e (cmdCtx b)).queue.length < queueRoom s e (cmdCtx b)) : offerCmd s e b origin =
      (modQ s e (cmdCtx b) fun y => { y with queue := y.queue ++ [offered s e b origin], nextSeq := y.nextSeq + 1 }, .queued) := by
  rw [offerCmd, hon, hreach]
  exact if_pos hroom

theorem offerCmd_waits (hon : (getCtx s (cmdCtx b)).enable = true) (hreach : mayReach s e (cmdCtx b) = true)
    (hfull : queueRoom s e (cmdCtx b) ≤ (getQ s e (cmdCtx b)).queue.length) (he : e.kind ≠ .core) :
    offerCmd s e b origin = (s, .waits) := by
  rw [offerCmd, hon, hreach]
  exact (if_neg (Nat.not_lt.2 hfull)).trans (if_neg he)

/-- A command that a core has no place for: what is claimed and what it would need. -/
def overflowOf (s : State) (e : Eng) (c : Nat) : Overflow :=
  { resource := 3, claimed := queueRoom s e c, required := (getQ s e c).queue.length + 1, mapId := (mapInForce s e.index c).id }

theorem offerCmd_overflow (hon : (getCtx s (cmdCtx b)).enable = true) (hreach : mayReach s e (cmdCtx b) = true)
    (hfull : queueRoom s e (cmdCtx b) ≤ (getQ s e (cmdCtx b)).queue.length) (he : e.kind = .core) :
    (offerCmd s e b origin).1 = completeCmd (modQ s e (cmdCtx b) fun y => { y with nextSeq := y.nextSeq + 1 }) e (cmdCtx b)
      { offered s e b origin with origin := none } .mapOverflow (overflowOf s e (cmdCtx b)) := by
  rw [offerCmd, hon, hreach]
  refine (congrArg Prod.fst ((if_neg (Nat.not_lt.2 hfull)).trans (if_pos he))).trans ?_
  rw [overflowOf, queueRoom, if_pos he]
  rfl

end

/-- Settles O29: the offer's branches, and the lifting of a halt. -/
theorem engineQueues : Obligations.EngineQueues := by
  refine ⟨fun e cmd s => ?_, fun e c s => ⟨clearHalt s e c, rfl, getQ_modQ s e c _, otherQueues_modQ s e c _,
    getEng_modQ_fault s e c _, rfl⟩⟩
  intro k x room
  have hrow : exec (.engineCommandOffer e cmd) s = .next (offerCmd s e cmd none).1 := rfl
  refine ⟨fun hoff => ?off, fun hon hno => ?refused, fun hon hreach => ⟨fun hroom => ?queued, fun hfull hcore => ?overflow,
    fun hfull hcore => ?waits⟩⟩
  case off => rw [hrow, offerCmd_disabled none hoff]
  case refused =>
    rw [offerCmd_refused none hon hno] at hrow
    exact does_of hrow ⟨logEntry_frame s (refusedEntry e cmd), fun hroom => logEntry_head (refusedEntry e cmd) hroom⟩
  case queued =>
    rw [offerCmd_queued none hon hreach hroom] at hrow
    exact does_of hrow ⟨⟨offered s e cmd none, getQ_modQ s e k _, rfl, rfl, rfl⟩, otherQueues_modQ s e k _, rfl⟩
  case overflow =>
    rw [offerCmd_overflow none hon hreach hfull hcore] at hrow
    obtain ⟨u, hu⟩ : ∃ u, u = modQ s e k fun y => { y with nextSeq := y.nextSeq + 1 } := ⟨_, rfl⟩
    obtain ⟨q, hq⟩ : ∃ q, q = { offered s e cmd none with origin := none } := ⟨_, rfl⟩
    change exec _ s = .next (completeCmd (modQ s e k fun y => { y with nextSeq := y.nextSeq + 1 }) e k
      { offered s e cmd none with origin := none } .mapOverflow (overflowOf s e k)) at hrow
    rw [← hu, ← hq] at hrow
    have hengs := completeCmd_engs u e k q (st := .mapOverflow) rfl (overflowOf s e k)
    obtain ⟨hhalt, hothers, hfault⟩ := faultHalt_engs u e k q .mapOverflow (overflowOf s e k)
    have hx : getQ u e k = { x with nextSeq := x.nextSeq + 1 } := by
      rw [hu]; exact getQ_modQ s e k fun y => { y with nextSeq := y.nextSeq + 1 }
    have hother : Claim.otherQueues s u e k := by rw [hu]; exact otherQueues_modQ s e k _
    have hkept : (getEng u e).fault = (getEng s e).fault := by rw [hu]; exact getEng_modQ_fault s e k _
    refine does_of hrow ⟨?_, otherQueues_trans hother (otherQueues_trans hothers (otherQueues_of_engs hengs e k)), fun hv => ?_⟩
    · rw [getQ_of_engs hengs, hhalt, hx]
    · rw [getEng_of_engs hengs, hfault, hkept, hv, if_neg Bool.false_ne_true, hq]
      rfl
  case waits => rw [hrow, offerCmd_waits none hon hreach hfull hcore]

/-! ### The report of a command that an ENQUEUE offered -/

/-- An ENQUEUE that counts a command which has ended without a halt. -/
def counted (x : Enqueue) (n : Nat) (v : Status) : Enqueue :=
  { x with ended := x.ended + 1, firstFail := if v.good then x.firstFail else earlierFail x.firstFail n v }

section
variable {s : State} {id n : Nat} {p : PCmd} {x : Enqueue} {v : Status} (hp : getCmd s id = some p) (hx : p.enq = some x)
  (hv : v.halts = false)

include hp hx hv in
theorem reportCmd_enqueue : reportCmd s (some (id, n)) v =
    settleEnqueue (putCmd s id { p with enq := some (counted x n v) }) id := by
  unfold reportCmd
  simp only [hp, hx, hv, Bool.false_and, Bool.false_eq_true, if_false]
  rfl

include hp hx hv in
/-- With commands still to end, the ENQUEUE only counts. -/
theorem reportCmd_counts (hno : x.haltFail = none) (hmore : x.ended + 1 < x.accepted) : reportCmd s (some (id, n)) v =
    putCmd s id { p with enq := some (counted x n v) } := by
  have hopen : ((x.stopped || decide (x.next = x.count)) && decide (x.ended + 1 = x.accepted)) = false := by
    rw [Bool.and_eq_false_iff]
    exact .inr (decide_eq_false (Nat.ne_of_lt hmore))
  rw [reportCmd_enqueue hp hx hv, settleEnqueue, getCmd_putCmd]
  simp only [counted, hno, hopen, Bool.false_eq_true, if_false]

include hp hx hv in
/-- The last command to end, the first to fail, gives the ENQUEUE its status and index. -/
theorem reportCmd_last (hno : x.haltFail = none) (hlast : x.ended + 1 = x.accepted) (hall : x.next = x.count)
    (hfirst : x.firstFail = none) (hbad : v.good = false) : reportCmd s (some (id, n)) v =
    endCmd (putCmd s id { p with enq := some (counted x n v) }) id v (enqDetail (some n) x.offered) := by
  rw [reportCmd_enqueue hp hx hv, settleEnqueue, getCmd_putCmd]
  simp [counted, hno, hlast, hall, hfirst, hbad, earlierFail]

end

/-! ### Commands at the head of their queue -/

/-- The status with which a command at the head of its queue ends without running. -/
def headEnd (e : Eng) (q : QCmd) : Option Status :=
  match q.verdict with
  | some v => some v
  | none => if (Claim.listedOps e.kind).contains (cmdOp q.bytes) then none else some .internal

section
variable {s : State} {e : Eng} {c : Nat} {q : QCmd} {st : Status} (hq : headCmd s e c = some q) (hend : headEnd e q = some st)

include hq hend in
theorem headRow_end (op : Nat) (f : QCmd → State) :
    headRow s e c (Claim.listedOps e.kind) op f = completeHead s e c q st := by
  rw [headRow, hq]
  unfold headEnd at hend
  cases hv : q.verdict with
  | some v =>
    simp only [hv] at hend ⊢
    exact congrArg (fun w => completeHead s e c q w) (Option.some.inj hend)
  | none =>
    simp only [hv] at hend ⊢
    cases hl : (Claim.listedOps e.kind).contains (cmdOp q.bytes) with
    | true => rw [hl] at hend; exact absurd hend (by simp)
    | false =>
      rw [hl] at hend
      simp only [Bool.not_false, if_true]
      exact congrArg (fun w => completeHead s e c q w) (Option.some.inj hend)

end

/-- A command ends as `completeHead` has it, but for what a core's output stage has done before and for what a sort/select
unit and a gather engine note after it. -/
def EndsAsHead (i : Instr) (s : State) (e : Eng) (c : Nat) (q : QCmd) (st : Status) : Prop :=
  ∃ u t, exec i s = .next t ∧ Fr 64 s u ∧ Fr 10240 (completeHead u e c q st) t

theorem endsAsHead_of {i : Instr} {s : State} {e : Eng} {c : Nat} {q : QCmd} {st : Status}
    (h : exec i s = .next (completeHead s e c q st)) : EndsAsHead i s e c q st := ⟨s, _, h, Fr.refl _ _, Fr.refl _ _⟩

/-- An engine that has nothing under way sends nothing and ends nothing. -/
theorem pumpAll_idle {s : State} {e : Nat} (h : (getGe s e).ops = []) : pumpAll s e = s := by
  have hsend (c : Nat) : canSend s e c = false := by simp [canSend, h, tabFind]
  rw [pumpAll, h]
  simp only [List.map_nil, List.sum_nil, pump, hsend, Bool.false_eq_true, if_false]
  cases nextTurn s (tabGet {} (getEng s (gatherEng e)).rr 0) (gatherReady s e) <;> simp [h]

section
variable {s : State} {k c : Nat} {q : QCmd} {st : Status}

theorem bargeHead_end (hq : headCmd s (bargeEng k) c = some q) (hend : headEnd (bargeEng k) q = some st)
    (hidle : tabFind s.barges.busy k = none) (hno : tabFind s.barges.colls (bargeKey k c) = none) (op : Nat)
    (f : State → QCmd → State) : bargeHead s k c op f = completeHead s (bargeEng k) c q st := by
  rw [bargeHead, hidle, hno]
  exact headRow_end hq hend op _

theorem routerHead_end (hq : headCmd s (routerEng k) c = some q) (hend : headEnd (routerEng k) q = some st)
    (hfree : routerFree s k c = true) (op : Nat) (ok : Bytes → Bool) (f : State → QCmd → State) :
    routerHead s k c op ok f = completeHead s (routerEng k) c q st := by
  rw [routerHead, hfree]
  exact headRow_end hq hend op _

theorem gatherHead_end (hq : headCmd s (gatherEng k) c = some q) (hend : headEnd (gatherEng k) q = some st)
    (hops : (getGe s k).ops = []) (op : Nat) (f : State → QCmd → GthTable → State) :
    gatherHead s k c op f = completeHead s (gatherEng k) c q st := by
  rw [gatherHead, hops]
  exact headRow_end hq hend op _

/-- A report ends a balancing move at most: the engines' commands, rows and moves to come stay. -/
theorem reportCmd_gth (s : State) (o : Option (Nat × Nat)) (st : Status) :
    (reportCmd s o st).gth.engs = s.gth.engs ∧ (reportCmd s o st).gth.moves = s.gth.moves := by
  have hmover (id m : Nat) : (moverDone s id m).gth.engs = s.gth.engs ∧ (moverDone s id m).gth.moves = s.gth.moves := by
    unfold moverDone
    dsimp only
    split
    · exact ⟨rfl, rfl⟩
    · have h : Fr 131328 s (purserSend { s with pur := { s.pur with cmds := tabDel s.pur.cmds id } } m .migrated) :=
        purserSend_fr (by decide) (Fr.setPur (by decide) (Fr.refl _ _))
      have hgth := h.same .gth rfl
      exact ⟨congrArg GthSt.engs hgth, congrArg GthSt.moves hgth⟩
  obtain _ | ⟨id, i⟩ := o
  · exact ⟨rfl, rfl⟩
  cases hc : getCmd s id with
  | none => simp [reportCmd, hc]
  | some c =>
    cases hx : c.enq with
    | none =>
      simp only [reportCmd, hc, hx]
      unfold stageReport
      split
      · exact hmover _ _
      · split
        · exact ⟨rfl, rfl⟩
        · split <;> exact ⟨rfl, rfl⟩
    | some x =>
      simp only [reportCmd, hc, hx]
      have h (y : Enqueue) : Fr 196608 s (settleEnqueue (putCmd s id { c with enq := some y }) id) :=
        settleEnqueue_fr (by decide) (putCmd_fr (by decide) (Fr.refl _ _))
      exact ⟨congrArg GthSt.engs ((h _).same .gth rfl), congrArg GthSt.moves ((h _).same .gth rfl)⟩

/-- The commands, rows and moves of the gather engines are no part of a completion but for a balancing move that ends. -/
theorem completeHead_gth (s : State) (e : Eng) (c : Nat) (q : QCmd) (st : Status) :
    (completeHead s e c q st).gth.engs = s.gth.engs ∧ (completeHead s e c q st).gth.moves = s.gth.moves := by
  obtain ⟨u, hu, hfr⟩ : ∃ u, completeHead s e c q st = reportCmd u q.origin st ∧ Fr 1180028 s u := by
    refine ⟨_, rfl, ?_⟩
    have hpop : Fr 1180028 s (popQ s e c) := popQ_fr (by decide) (Fr.refl _ _)
    have hhalt : Fr 1180028 s (if st.halts then faultHalt (popQ s e c) e c q st {} else popQ s e c) := by
      split
      · exact faultHalt_fr (by decide) hpop
      · exact hpop
    split
    · exact mapFails_fr (by decide) hhalt
    · exact hhalt
  rw [hu]
  obtain ⟨hengs, hmoves⟩ := reportCmd_gth u q.origin st
  have hgth : u.gth = s.gth := hfr.same .gth rfl
  rw [hengs, hmoves, hgth]
  exact ⟨rfl, rfl⟩

/-- A gather engine without work does no more than end the command. -/
theorem gatherEnd_idle (hops : (getGe s k).ops = []) {t : State} (h : t = completeHead s (gatherEng k) c q st) :
    pumpAll t k = completeHead s (gatherEng k) c q st := by
  subst h
  refine pumpAll_idle ?_
  rw [getGe, (completeHead_gth s (gatherEng k) c q st).1]
  exact hops

theorem offerMove_idle {s : State} (h : s.gth.moves = []) : Fr 10240 s (offerMove s) := by
  rw [offerMove, h]
  exact Fr.setGth (by decide) (Fr.refl _ _)

theorem ssuHead_end (hq : headCmd s (ssuEng k) c = some q) (hend : headEnd (ssuEng k) q = some st) (hnew : q.units = 0)
    (op : Nat) : Fr 10240 (completeHead s (ssuEng k) c q st) (ssuHead s k c op) := by
  have hnote (t : State) : Fr 10240 t (if (getQ t (ssuEng k) c).queue.length < (getQ s (ssuEng k) c).queue.length then
      modSsu t k fun x => { x with commands := x.commands + 1 } else t) := by
    split
    · exact modSsu_fr (by decide) (Fr.refl _ _)
    · exact Fr.refl _ _
  have hnote' := hnote (completeHead s (ssuEng k) c q st)
  cases hv : q.verdict with
  | some v =>
    obtain rfl : v = st := by simpa [headEnd, hv] using hend
    have hsum : ssuSummarize s k c q v = s := if_pos hnew
    simp only [ssuHead, hq, hv, ssuStop, hsum]
    exact hnote'
  | none =>
    have hturn : ssuTurn s k c op = completeHead s (ssuEng k) c q st := headRow_end hq hend op _
    simp only [ssuHead, hq, hv, hturn]
    exact hnote'

end

/-- A selector names an engine that the module has. -/
theorem index_lt_of_selector {v : Nat} {e : Eng} (h : engOfSelector v = some e) : e.index < kindCount e.kind := by
  unfold engOfSelector at h
  dsimp only at h
  split at h
  next k _ =>
    split at h
    next hlt => rw [← Option.some.inj h]; exact hlt
    next => exact absurd h (Option.some_ne_none _).symm
  next => exact absurd h (Option.some_ne_none _).symm

/-- Every row about the head of a queue ends a command that is not to run. -/
theorem headRows_end {s : State} {e : Eng} {c n : Nat} {q : QCmd} {st : Status} (hname : engOfSelector (engKey e) = some e)
    (hq : headCmd s e c = some q) (hfree : Claim.engineFree s e c) (hend : headEnd e q = some st) :
    ∀ i ∈ Claim.headRows e c n, EndsAsHead i s e c q st := by
  intro i hi
  obtain ⟨kind, k⟩ := e
  have hend' := fun op f => headRow_end hq hend op f
  have hdone {t : State} (h : t = completeHead s ⟨kind, k⟩ c q st) {i : Instr} (hrow : exec i s = .next t) :
      EndsAsHead i s ⟨kind, k⟩ c q st := endsAsHead_of (by rw [hrow, h])
  cases kind
  all_goals simp only [Claim.headRows, List.mem_cons, List.not_mem_nil, or_false] at hi
  case core =>
    obtain rfl | rfl | rfl | rfl | rfl := hi
    · exact hdone (hend' 1 _) rfl
    · exact hdone (hend' 2 _) rfl
    · obtain ⟨u, hu⟩ : ∃ u, u = outputTo s k (rowsWritten (getCore s k) n) := ⟨_, rfl⟩
      have hfr : Fr 64 s u := hu ▸ outputTo_fr (by decide) (Fr.refl _ _)
      have hqu : headCmd u (coreEng k) c = some q := by
        rw [headCmd, getQ_of_engs (hfr.same .engs rfl)]; exact hq
      refine ⟨u, epiBegin s k c n, rfl, hfr, ?_⟩
      have h : epiBegin s k c n = completeHead u (coreEng k) c q st := by
        rw [epiBegin, ← hu]
        exact headRow_end (e := coreEng k) hqu hend 3 _
      rw [h]
      exact Fr.refl _ _
    · exact hdone (hend' 4 _) rfl
    · exact hdone (hend' 4 _) rfl
  case barge =>
    obtain ⟨hidle, hno⟩ := hfree
    have hbarge := fun op f => bargeHead_end (k := k) hq hend hidle hno op f
    obtain rfl | rfl | rfl | rfl | rfl | rfl := hi
    · exact hdone (hbarge 0x40 _) rfl
    · exact hdone (hbarge 0x41 _) rfl
    · exact hdone (hbarge 0x42 _) rfl
    · exact hdone (hbarge 0x43 _) rfl
    · exact hdone (hbarge 0x44 _) rfl
    · refine hdone ?_ rfl
      rw [collRow, getColl, hno]
      exact hbarge 0x45 _
  case gather =>
    obtain ⟨hops, hmoves⟩ := hfree
    have hgather := fun op f => gatherEnd_idle hops (gatherHead_end (k := k) hq hend hops op f)
    obtain rfl | rfl | rfl | rfl | rfl | rfl := hi
    · exact hdone (hgather 0xC0 _) rfl
    · exact hdone (hgather 0xC1 _) rfl
    · exact hdone (hgather 0xC2 _) rfl
    · exact hdone (gatherEnd_idle hops (hend' 0xC3 _)) rfl
    · exact hdone (gatherEnd_idle hops (hend' 0xC4 _)) rfl
    · have hstart : migrateCmd s k c = completeHead s (gatherEng k) c q st := by
        rw [migrateCmd, hops]
        exact gatherHead_end (k := k) hq hend hops 0xC5 _
      refine ⟨s, offerMove (completeHead s (gatherEng k) c q st), ?_, Fr.refl _ _, offerMove_idle ?_⟩
      · exact congrArg (fun t => Host.Outcome.next (offerMove t)) hstart
      · exact (completeHead_gth s (gatherEng k) c q st).2.trans hmoves
  case slice =>
    obtain rfl | rfl | rfl | rfl := hi
    · exact hdone (hend' 0x80 _) rfl
    · exact hdone (hend' 0x81 _) rfl
    · exact hdone (hend' 0x82 _) rfl
    · exact hdone (hend' 0x83 _) rfl
  case ssu =>
    have hssu := fun op => ssuHead_end (k := k) hq hend (hfree q hq) op
    obtain rfl | rfl | rfl | rfl | rfl := hi
    · exact ⟨s, _, rfl, Fr.refl _ _, hssu 0xA0⟩
    · exact ⟨s, _, rfl, Fr.refl _ _, hssu 0xA1⟩
    · exact ⟨s, _, rfl, Fr.refl _ _, hssu 0xA2⟩
    · exact ⟨s, _, rfl, Fr.refl _ _, hssu 0xA3⟩
    · exact ⟨s, _, rfl, Fr.refl _ _, hssu 0xA4⟩
  case router =>
    have hrouter := fun op ok f => routerHead_end (k := k) hq hend hfree op ok f
    obtain rfl | rfl | rfl := hi
    · exact hdone (hrouter 0x20 _ _) rfl
    · exact hdone (hrouter 0x21 _ _) rfl
    · exact hdone (hrouter 0x22 _ _) rfl
  case grinder =>
    obtain rfl : k = 0 := Nat.lt_one_iff.1 (index_lt_of_selector hname)
    obtain rfl | rfl | rfl := hi
    · exact hdone (hend' 0xE0 _) rfl
    · exact hdone (hend' 0xE1 _) rfl
    · exact hdone (hend' 0xE2 _) rfl
  case slipManager =>
    obtain rfl : k = 0 := Nat.lt_one_iff.1 (index_lt_of_selector hname)
    obtain rfl | rfl | rfl | rfl | rfl | rfl | rfl := hi
    · exact hdone (hend' 0x60 _) rfl
    · exact hdone (hend' 0x61 _) rfl
    · exact hdone (hend' 0x68 _) rfl
    · exact hdone (hend' 0x69 _) rfl
    · exact hdone (hend' 0x6A _) rfl
    · exact hdone (hend' 0x6B _) rfl
    · exact hdone (hend' 0x6C _) rfl

theorem headCmd_of_engs {s t : State} (h : t.engs = s.engs) (e : Eng) (c : Nat) : headCmd t e c = headCmd s e c := by
  rw [headCmd, headCmd, getQ_of_engs h]

/-- The queues, the fault record and memory after a row that ends a command as `completeHead` does. -/
theorem endsAsHead_engs {i : Instr} {s : State} {e : Eng} {c : Nat} {q : QCmd} {st : Status} (h : EndsAsHead i s e c q st) :
    ∃ u t, exec i s = .next t ∧ Fr 64 s u ∧ t.engs = (completeHead u e c q st).engs ∧ t.mem = (completeHead u e c q st).mem ∧
      t.evt = (completeHead u e c q st).evt ∧ t.pur = (completeHead u e c q st).pur ∧ t.mbs = (completeHead u e c q st).mbs := by
  obtain ⟨u, t, hrow, hu, ht⟩ := h
  exact ⟨u, t, hrow, hu, ht.same .engs rfl, ht.same .mem rfl, ht.same .evt rfl, ht.same .pur rfl, ht.same .mbs rfl⟩

/-- What ending a command without a halt reports to its ENQUEUE. -/
theorem completeHead_report (s : State) (e : Eng) (c : Nat) (q : QCmd) {v : Status} (h : v.halts = false) :
    ∃ u, completeHead s e c q v = reportCmd u q.origin v ∧ u.pur = s.pur ∧ u.mbs = s.mbs := by
  obtain ⟨u, hu, hfr⟩ := completeCmd_quiet (popQ s e c) e c q h {}
  exact ⟨u, hu, hfr.same .pur rfl, hfr.same .mbs rfl⟩

theorem headGone_of_engs {s s' t t' : State} {e : Eng} {c : Nat} (hs : s'.engs = s.engs) (ht : t'.engs = t.engs)
    (h : Claim.headGone s t e c) : Claim.headGone s' t' e c := by
  obtain ⟨hhead, hothers⟩ := h
  refine ⟨?_, fun f d hne => ?_⟩
  · rw [getQ_of_engs ht, getQ_of_engs hs, hhead]
  · rw [getQ_of_engs ht, getQ_of_engs hs, hothers f d hne]

theorem headFails_of_engs {s s' t t' : State} {e : Eng} {c : Nat} {q : QCmd} {st : Status} (hs : s'.engs = s.engs)
    (ht : t'.engs = t.engs) (h : Claim.headFails s t e c q st) : Claim.headFails s' t' e c q st := by
  obtain ⟨hhead, hothers, hkept, hnew⟩ := h
  unfold Claim.headFails
  rw [getQ_of_engs ht, getQ_of_engs hs, getEng_of_engs ht, getEng_of_engs hs]
  refine ⟨hhead, fun f d hne => ?_, hkept, hnew⟩
  rw [getQ_of_engs ht, getQ_of_engs hs, hothers f d hne]

/-- Settles O30: every row about the head of a queue ends a stopped or unlisted command as `completeHead` does. -/
theorem headCommandsEnd : Obligations.HeadCommandsEnd := by
  intro e c n q s hname hc hq hfree i hi
  refine ⟨fun v hv hquiet => ?stopped, fun hv hop => ?unlisted⟩
  case stopped =>
    have hend : headEnd e q = some v := by rw [headEnd, hv]
    obtain ⟨u, t, hrow, hu, hengs, hmem, -, hpur, hmbs⟩ := endsAsHead_engs (headRows_end (n := n) hname hq hfree hend i hi)
    obtain ⟨hgone, hfault, hkept⟩ := completeHead_gone u e c q hquiet {}
    have hue : s.engs = u.engs := (hu.same .engs rfl).symm
    have hum : u.mem = s.mem := hu.same .mem rfl
    refine does_of hrow ⟨headGone_of_engs hue hengs hgone, ?_, ?_, fun id n p x horigin hp hx hno => ?report⟩
    · rw [getEng_of_engs hengs, hfault, getEng_of_engs hue]
    · rw [hmem, hkept, hum]
    case report =>
      obtain ⟨w, hw, hwpur, hwmbs⟩ := completeHead_report u e c q hquiet
      have hpu : getCmd w id = some p := by
        rw [getCmd, hwpur, hu.same .pur rfl]; exact hp
      rw [horigin] at hw
      refine ⟨fun hmore => ?_, fun hlast hall hfirst hbad => ?_⟩
      · rw [reportCmd_counts hpu hx hquiet hno hmore] at hw
        rw [getCmd, hpur, hw]
        exact getCmd_putCmd w id _
      · rw [reportCmd_last hpu hx hquiet hno hlast hall hfirst hbad] at hw
        obtain ⟨z, hz⟩ : ∃ z, z = putCmd w id { p with enq := some (counted x n v) } := ⟨_, rfl⟩
        have hpz : getCmd z id = some { p with enq := some (counted x n v) } := by rw [hz]; exact getCmd_putCmd w id _
        rw [← hz] at hw
        refine ⟨?_, ?_⟩
        · rw [getCmd, hpur, hw]
          exact endCmd_getCmd hpz v _
        · have hheld := endCmd_held hpz v (enqDetail (some n) x.offered)
          have hmb : getMb z p.mb = getMb s p.mb := by
            rw [getMb, getMb, hz]
            exact congrArg (fun m => tabGet (mbReset p.mb) m p.mb) (hwmbs.trans (hu.same .mbs rfl))
          rw [getMb, hmbs, hw]
          refine hheld.trans ?_
          rw [hmb]
          rfl
  case unlisted =>
    have hend : headEnd e q = some .internal := by
      rw [headEnd, hv]
      exact if_neg (by simpa [List.contains_iff_mem] using hop)
    obtain ⟨u, t, hrow, hu, hengs, hmem, hevt, -, -⟩ := endsAsHead_engs (headRows_end (n := n) hname hq hfree hend i hi)
    have hfails := completeHead_fails u e c q (st := .internal) rfl {}
    refine does_of hrow ⟨headFails_of_engs (hu.same .engs rfl).symm hengs hfails, fun hkind horigin => ?_⟩
    have halone : completeHead u e c q .internal = faultHalt (popQ u e c) e c q .internal {} :=
      completeCmd_alone (popQ u e c) c rfl {} hkind horigin
    obtain ⟨z, hz⟩ : ∃ z, z = withFault (popQ u e c) e (faultOf c q .internal {}) := ⟨_, rfl⟩
    have hshape : completeHead u e c q .internal =
        modQ (logEntry z (haltEntry e c q .internal {})) e c fun x => { x with halt := true } := by
      rw [halone, faultHalt_eq, hz]
    have hze : z.evt = s.evt := by rw [hz]; exact hu.same .evt rfl
    have hzm : z.mem = s.mem := by rw [hz]; exact hu.same .mem rfl
    have hlog : t.evt = (logEntry z (haltEntry e c q .internal {})).evt := by rw [hevt, hshape]; rfl
    refine ⟨?_, fun hroom => ?_⟩
    · rw [hmem, hshape, ← hzm, logEntry_frame]
      rfl
    · have hroom' : z.evt.buf < 256 := by rw [hze]; exact hroom
      have hentry := logEntry_entry (s := z) (haltEntry e c q .internal {}) hroom'
      rw [hze] at hentry
      rw [hlog, hentry, logEntry_head _ hroom', hze]
      exact ⟨rfl, rfl, rfl, rfl⟩

end Sys2Proof.Proofs
end

