-- ==== Sys2Proof/Proofs/Enqueues.lean ====
section
/-! PROOFS. NOP, and ENQUEUE with its offers (spec/15 R379-R381). -/

namespace Sys2Proof.Proofs

open Sys2Proof Sys2Proof.Machine Sys2Proof.Laws

theorem startRow_may {s : State} {id op : Nat} {c : PCmd} (h : Claim.mayStart s id c op) (f : PCmd → State) :
    startRow s id op f = f c := by
  obtain ⟨hc, hop, hph, hguest, -, hworks, hfence⟩ := h
  exact startRow_of hc hop hph hguest hworks hfence

theorem nopCompletes : Claim.nopCompletes := by
  intro id c s h
  have hc : getCmd s id = some c := h.1
  have hrow : nopCmd s id = endPlain s id .ok := startRow_may h fun _ => endPlain s id .ok
  obtain ⟨d, hd⟩ := endPlain_of hc .ok
  obtain ⟨u, hu⟩ : ∃ u, u = { s with freeCtr := s.freeCtr + 1, pur := { s.pur with cmds := tabDel s.pur.cmds id } } := ⟨_, rfl⟩
  rw [← hu] at hd
  refine does_of (congrArg Host.Outcome.next (hrow.trans hd)) ⟨⟨?_, d, ?_⟩, fun i hi => ?_, fun m hm => ?_, ?_⟩
  · rw [← hd]; exact endPlain_getCmd hc .ok
  · rw [getMb_modMb, hu]; rfl
  · rw [hu]
    exact (tabFind_tabDel s.pur.cmds id i).trans (if_neg hi.symm)
  · rw [getMb_modMb_ne _ _ hm.symm, hu]; rfl
  · rw [hu]; rfl

/-! ### Reads of the purser for itself -/

/-- A read that no context pays for changes nothing. -/
theorem rd_unpaid {s : State} (h : Claim.clean s) {w : Who} {a n : Nat} (hm : mayAccess s w a n false = true)
    (hpay : w.pay = none) : runActVal (rd w a n) s = (.ok (memRead s.mem.bytes a n), s) := by
  have hcharge (a n : Nat) : chargeHbm s w a n = s := by rw [chargeHbm, hpay]
  have hpieces (acc : Bytes) : runActVal ((pieces a n).foldlM (fun acc p => do let b ← rdPiece w p.1 p.2; pure (acc ++ b)) acc) s =
      (.ok (acc ++ memRead s.mem.bytes a n), s) := by
    refine pieces_induction (motive := fun a n l => ∀ acc,
      runActVal (l.foldlM (fun acc p => do let b ← rdPiece w p.1 p.2; pure (acc ++ b)) acc) s =
        (.ok (acc ++ memRead s.mem.bytes a n), s)) ?_ ?_ a n acc
    · intro a acc
      simp [memRead]
    · intro a n m l _ hmn ih acc
      have hpiece := rdPiece_of_clean h w a m
      rw [hcharge] at hpiece
      rw [List.foldlM_cons, runActVal_bind_ok (x := acc ++ memRead s.mem.bytes a m) (t := s) (by
        rw [runActVal_bind_ok hpiece]; rfl), ih, List.append_assoc, ← memRead_add, Nat.add_sub_cancel' hmn]
  simp only [rd, runActVal_get_bind, hm, Bool.not_true]
  rw [runActVal_bind_ok (runActVal_stopIf_false _ _), hpieces, List.nil_append]

/-- The purser reads all of the unified range for itself. -/
theorem rd_purser {s : State} (h : Claim.clean s) {a n : Nat} (hle : a + n ≤ unifiedEnd) :
    runActVal (rd (whoPurser none) a n) s = (.ok (memRead s.mem.bytes a n), s) :=
  rd_unpaid h (by simp [mayAccess, whoPurser, hle]) rfl

/-! ### ENQUEUE -/

theorem enqueueStarts {id : Nat} {c : PCmd} {e : Eng} {s : State} (h : Claim.mayStart s id c 0x30)
    (he : engOfSelector (fld c.desc 16 2) = some e) (hmin : 1 ≤ fld c.desc 20 4) (hmax : fld c.desc 20 4 ≤ 65536)
    (halign : fld c.desc 24 8 % 64 = 0) (hend : fld c.desc 24 8 + 64 * fld c.desc 20 4 ≤ 0xC000000000) : enqueueCmd s id =
      putCmd s id { c with phase := .running, enq := some { eng := e, count := fld c.desc 20 4, cmds := fld c.desc 24 8 } } := by
  refine (startRow_may h _).trans ?_
  have hend' : fld c.desc 24 8 + 64 * fld c.desc 20 4 ≤ unifiedEnd := hend
  simp only [he, hmin, hmax, halign, hend', decide_true, Bool.and_self, if_true]

section
variable {id : Nat} {c : PCmd} {q : Enqueue} {s : State} (hc : getCmd s id = some c) (hq : c.enq = some q)
  (hstop : q.stopped = false) (hhalt : q.haltFail = none) (hnext : q.next < q.count) (hworks : purWorks s = true)
  (hbehind : enqueueBehind s id c = false) (hclean : Claim.clean s) (hend : q.cmds + 64 * q.count ≤ unifiedEnd)

include hstop hhalt hnext hworks hbehind in
theorem enqueueOffer_gate :
    (q.stopped || q.haltFail.isSome || decide (q.next = q.count) || !purWorks s || enqueueBehind s id c) = false := by
  simp [hstop, hhalt, hworks, hbehind, Nat.ne_of_lt hnext]

include hc hq hstop hhalt hnext hworks hbehind hclean hend in
/-- A command of a partition that PARTS does not name stops the list. -/
theorem enqueueOffer_foreign (hpart : (getMb s c.mb).parts.getLsbD
    (ctxPart (cmdCtx (memRead s.mem.bytes (q.cmds + 64 * q.next) 64))) = false) :
    enqueueOffer s id = enqueueStop s id c q .internal := by
  have hrd := rd_purser hclean (a := q.cmds + 64 * q.next) (n := 64) (by omega)
  simp only [enqueueOffer, hc, hq, enqueueOffer_gate hstop hhalt hnext hworks hbehind, hrd, hpart, Bool.false_eq_true,
    Bool.not_false, if_false, if_true]

/-- An ENQUEUE counts an accepted offer. -/
def countOffer (q : Enqueue) : Enqueue :=
  { q with next := q.next + 1, offered := q.offered + 1, accepted := q.accepted + 1 }

include hc hq hstop hhalt hnext hworks hbehind hclean hend in
/-- A command that its queue takes is counted, and a step is done. -/
theorem enqueueOffer_queued {u : State} (hpart : (getMb s c.mb).parts.getLsbD
      (ctxPart (cmdCtx (memRead s.mem.bytes (q.cmds + 64 * q.next) 64))) = true)
    (hoffer : offerCmd s q.eng (memRead s.mem.bytes (q.cmds + 64 * q.next) 64) (some (id, q.next)) = (u, .queued)) :
    enqueueOffer s id = noteStep (enqueueCount u id countOffer) id := by
  have hrd := rd_purser hclean (a := q.cmds + 64 * q.next) (n := 64) (by omega)
  simp only [enqueueOffer, hc, hq, enqueueOffer_gate hstop hhalt hnext hworks hbehind, hrd, hpart, hoffer, Bool.false_eq_true,
    Bool.not_true, if_false]
  rfl

end

/-- A step of an ENQUEUE that has offered a command. -/
theorem noteStep_enqueueCount {s : State} {id : Nat} {c : PCmd} {q : Enqueue} (hc : getCmd s id = some c) (hq : c.enq = some q)
    (f : Enqueue → Enqueue) :
    getCmd (noteStep (enqueueCount s id f) id) id = some { c with stepped := true, enq := some (f q) } ∧
    noteStep (enqueueCount s id f) id = { s with pur := { s.pur with
      cmds := (noteStep (enqueueCount s id f) id).pur.cmds, turn := (c.mb + 1) % 64 } } := by
  have hcount : enqueueCount s id f = putCmd s id { c with enq := some (f q) } := by
    rw [enqueueCount, hc]
    dsimp only
    rw [hq]
  rw [hcount, noteStep, getCmd_putCmd]
  exact ⟨getCmd_putCmd _ _ _, rfl⟩

theorem enqueueStep_enqueue {id : Nat} {c : PCmd} {q : Enqueue} {s : State} (hc : getCmd s id = some c) (hq : c.enq = some q) :
    enqueueStep s id = enqueueOffer s id := by simp [enqueueStep, hc, hq]

theorem enqueueOffersInOrder : Claim.enqueueOffersInOrder := by
  refine ⟨fun id c e s h he hmin hmax halign hend => ?starts, ?offers⟩
  case starts =>
    exact does_of (congrArg Host.Outcome.next (enqueueStarts h he hmin hmax halign hend)) ⟨getCmd_putCmd _ _ _, rfl⟩
  intro id c q s hc hq hstop hhalt hnext hworks hbehind hhbm hsram _ hend b k
  refine ⟨fun hpart hon hreach hkind hroom => ?queued, fun hpart hall hfirst => ?stops⟩
  case queued =>
    have hoffer := offerCmd_queued (some (id, q.next)) hon hreach (by rw [queueRoom, if_neg hkind]; exact hroom)
    have hrow := enqueueOffer_queued hc hq hstop hhalt hnext hworks hbehind ⟨hhbm, hsram⟩ hend hpart hoffer
    obtain ⟨u, hu⟩ : ∃ u, u = modQ s q.eng k fun y =>
      { y with queue := y.queue ++ [offered s q.eng b (some (id, q.next))], nextSeq := y.nextSeq + 1 } := ⟨_, rfl⟩
    have hcu : getCmd u id = some c := by rw [hu]; exact hc
    obtain ⟨hcmd, hframe⟩ := noteStep_enqueueCount hcu hq countOffer
    obtain ⟨t, ht⟩ : ∃ t, t = noteStep (enqueueCount u id countOffer) id := ⟨_, rfl⟩
    have hto : enqueueOffer s id = t := by rw [ht, hu]; exact hrow
    rw [← ht] at hcmd hframe
    have hengs : t.engs = u.engs := by rw [hframe]
    refine does_of (congrArg Host.Outcome.next ((enqueueStep_enqueue hc hq).trans hto)) ⟨⟨offered s q.eng b (some (id, q.next)), ?_, rfl, rfl, rfl⟩, hcmd, fun f d hne => ?_, ?_⟩
    · rw [getQ_of_engs hengs, hu]
      exact getQ_modQ s q.eng k fun y =>
        { y with queue := y.queue ++ [offered s q.eng b (some (id, q.next))], nextSeq := y.nextSeq + 1 }
    · rw [getQ_of_engs hengs, hu]
      exact otherQueues_modQ s q.eng k _ f d hne
    · rw [hframe, hu]; rfl
  case stops =>
    have hrow := enqueueOffer_foreign hc hq hstop hhalt hnext hworks hbehind ⟨hhbm, hsram⟩ hend hpart
    obtain ⟨u, hu⟩ : ∃ u, u = putCmd s id { c with enq := some { q with
      next := q.next + 1, offered := q.offered + 1, stopped := true, firstFail := some (q.next, .internal) } } := ⟨_, rfl⟩
    have hcu := getCmd_putCmd s id { c with enq := some { q with
      next := q.next + 1, offered := q.offered + 1, stopped := true, firstFail := some (q.next, .internal) } }
    rw [← hu] at hcu
    have hto : enqueueOffer s id = endCmd u id .internal (enqDetail (some q.next) (q.offered + 1)) := by
      refine hrow.trans ?_
      have hfail : earlierFail q.firstFail q.next .internal = some (q.next, .internal) := by rw [hfirst]; rfl
      simp only [enqueueStop, hfail]
      rw [← hu, settleEnqueue, hcu]
      simp [hhalt, hall]
    refine does_of (congrArg Host.Outcome.next ((enqueueStep_enqueue hc hq).trans hto)) ⟨endCmd_getCmd hcu _ _, ?_, ?_⟩
    · refine (endCmd_held hcu _ _).trans ?_
      rw [hu]
      rfl
    · obtain h | h := endCmd_shape u id .internal (enqDetail (some q.next) (q.offered + 1))
      · rw [h, hu]; rfl
      · rw [h, hu]; rfl

/-- Settles O27: a NOP's completion, the checks of ENQUEUE, and what an offer or a foreign partition does to it. -/
theorem purserCommandsRun : Obligations.PurserCommandsRun := ⟨nopCompletes, enqueueOffersInOrder⟩

end Sys2Proof.Proofs
end

