-- ==== Sys2Proof/Proofs/Turns.lean ====
section
/-! PROOFS. A context's turn on a unit of an engine, and what a completion leaves of the cores (spec/14 R354, spec/15 R381). -/

namespace Sys2Proof.Proofs

open Sys2Proof Sys2Proof.Machine Sys2Proof.Laws

/-! ### Turns -/

/-- Only the place of the round robin of an engine's unit has moved on. -/
def Turned (s t : State) (e : Eng) (u : Nat) : Prop := ∃ p, t = modEng s e fun x => { x with rr := tabPut x.rr u p }

/-- A context whose turn it is takes it. -/
theorem takeTurn_of {s : State} {e : Eng} {u c : Nat} {ready : List Nat} (h : Claim.hasTurn s e u c ready) :
    ∃ t, takeTurn s e u c ready = some t ∧ Turned s t e u := by
  obtain ⟨d, hd⟩ := h
  refine ⟨_, ?_, afterTurn (tabGet {} (getEng s e).rr u) d, rfl⟩
  rw [takeTurn, hd]
  exact if_pos rfl

section
variable {s t : State} {e : Eng} {u : Nat} (h : Turned s t e u)
include h

theorem Turned.eq : t = { s with engs := t.engs } := by
  obtain ⟨p, rfl⟩ := h; rfl

theorem Turned.getQ (f : Eng) (c : Nat) : getQ t f c = getQ s f c := by
  obtain ⟨p, rfl⟩ := h
  by_cases hk : engKey f = engKey e
  · rw [getQ_of_key hk, getQ_of_key hk, Machine.getQ, getEng_modEng, Machine.getQ]
  · rw [Machine.getQ, getEng_modEng_ne s _ (Ne.symm hk), Machine.getQ]

theorem Turned.fault (f : Eng) : (getEng t f).fault = (getEng s f).fault := by
  obtain ⟨p, rfl⟩ := h
  by_cases hk : engKey f = engKey e
  · rw [getEng, hk, ← getEng, getEng_modEng, getEng, getEng, hk]
  · rw [getEng_modEng_ne s _ (Ne.symm hk)]

theorem Turned.headCmd (f : Eng) (c : Nat) : headCmd t f c = headCmd s f c := by
  rw [Machine.headCmd, Machine.headCmd, h.getQ]

end

/-- Queues and fault records are as before; places of the round robin may have moved on. -/
structure SameQueues (s t : State) : Prop where
  queue (e : Eng) (c : Nat) : getQ t e c = getQ s e c
  fault (e : Eng) : (getEng t e).fault = (getEng s e).fault

theorem SameQueues.of_engs {s t : State} (h : t.engs = s.engs) : SameQueues s t :=
  ⟨fun e c => getQ_of_engs h e c, fun e => congrArg EngineSt.fault (getEng_of_engs h e)⟩

theorem Turned.sameQueues {s t : State} {e : Eng} {u : Nat} (h : Turned s t e u) : SameQueues s t :=
  ⟨fun f c => h.getQ f c, fun f => h.fault f⟩

theorem SameQueues.trans {s t u : State} (h : SameQueues s t) (h' : SameQueues t u) : SameQueues s u :=
  ⟨fun e c => (h'.queue e c).trans (h.queue e c), fun e => (h'.fault e).trans (h.fault e)⟩

theorem headGone_of_same {s s' t t' : State} {e : Eng} {c : Nat} (hs : SameQueues s s') (ht : SameQueues t t')
    (h : Claim.headGone s' t e c) : Claim.headGone s t' e c := by
  obtain ⟨hhead, hothers⟩ := h
  refine ⟨?_, fun f d hne => ?_⟩
  · rw [ht.queue, hhead, hs.queue]
  · rw [ht.queue, hothers f d hne, hs.queue]

theorem headFails_of_same {s s' t t' : State} {e : Eng} {c : Nat} {q : QCmd} {st : Status} (hs : SameQueues s s')
    (ht : SameQueues t t') (h : Claim.headFails s' t e c q st) : Claim.headFails s t' e c q st := by
  obtain ⟨hhead, hothers, hkept, hnew⟩ := h
  rw [hs.queue, hs.fault] at *
  refine ⟨?_, fun f d hne => ?_, ?_, ?_⟩
  · rw [ht.queue, hhead]
  · rw [ht.queue, hothers f d hne, hs.queue]
  · rw [ht.fault]; exact hkept
  · rw [ht.fault]; exact hnew

/-- A head command that no disable has stopped, of the row's opcode, is handed to the row. -/
theorem headRow_runs {s : State} {e : Eng} {c op : Nat} {q : QCmd} (h : Claim.atHead s e c op q) {listed : List Nat}
    (hop : listed.contains op = true) (f : QCmd → State) : headRow s e c listed op f = f q := by
  obtain ⟨hq, hv, ho⟩ := h
  subst ho
  simp only [headRow, hq, hv, hop, Bool.not_true, Bool.false_eq_true, if_false, if_true]

/-- The head command is first in its queue, and its context is not halted. -/
theorem headCmd_queue {s : State} {e : Eng} {c : Nat} {q : QCmd} (h : headCmd s e c = some q) :
    (getQ s e c).halt = false ∧ ∃ l, (getQ s e c).queue = q :: l := by
  rw [headCmd] at h
  cases hh : (getQ s e c).halt with
  | true => rw [hh] at h; exact absurd h (by simp)
  | false =>
    rw [hh] at h
    exact ⟨rfl, List.head?_eq_some_iff.1 h⟩

theorem modHead_queue {s : State} {e : Eng} {c : Nat} {q : QCmd} (h : headCmd s e c = some q) (f : QCmd → QCmd) :
    getQ (modHead s e c f) e c = { getQ s e c with queue := f q :: (getQ s e c).queue.tail } := by
  obtain ⟨-, l, hl⟩ := headCmd_queue h
  rw [modHead, getQ_modQ, hl]
  rfl

/-- A checked head command stays at the head of its queue; only its mark is new. -/
theorem markHead_queue {s : State} {e : Eng} {c : Nat} {q : QCmd} (h : headCmd s e c = some q) :
    (getQ (markHead s e c) e c).queue = { q with checked := true } :: (getQ s e c).queue.tail ∧
    Claim.otherQueues s (markHead s e c) e c ∧ markHead s e c = { s with engs := (markHead s e c).engs } := by
  refine ⟨?_, otherQueues_modQ s e c _, rfl⟩
  rw [markHead, modHead_queue h]

/-! ### Completions and the cores -/

/-- A command that ends well is only reported. -/
theorem completeCmd_good (s : State) (e : Eng) (c : Nat) (q : QCmd) {st : Status} (h : st.good = true) (o : Overflow) :
    completeCmd s e c q st o = reportCmd s q.origin st := by
  have hh : st.halts = false := by
    rw [Bool.eq_false_iff]
    intro hh
    rw [halts_not_good hh] at h
    exact absurd h Bool.false_ne_true
  rw [completeCmd, hh, h]
  rfl

theorem reportCmd_cores (s : State) (o : Option (Nat × Nat)) (st : Status) : (reportCmd s o st).cores = s.cores :=
  (reportCmd_fr (mk := 205056) (by decide) (Fr.refl _ _) : Fr 205056 s (reportCmd s o st)).same .cores rfl

/-- Of the cores only the map of the issuing context of core `k` may differ. -/
structure MapOnly (s t : State) (k c : Nat) : Prop where
  core (j : Nat) : ∃ m, getCore t j = { getCore s j with maps := m }
  maps (j d : Nat) : ¬ (j = k ∧ d = c) → tabFind (getCore t j).maps d = tabFind (getCore s j).maps d

theorem MapOnly.of_cores {s t : State} (h : t.cores = s.cores) (k c : Nat) : MapOnly s t k c :=
  ⟨fun j => ⟨(getCore s j).maps, by rw [getCore, getCore, h]⟩, fun j d _ => by rw [getCore, getCore, h]⟩

theorem MapOnly.trans {s t u : State} {k c : Nat} (h : MapOnly s t k c) (h' : MapOnly t u k c) : MapOnly s u k c := by
  refine ⟨fun j => ?_, fun j d hne => (h'.maps j d hne).trans (h.maps j d hne)⟩
  obtain ⟨m, hm⟩ := h.core j
  obtain ⟨m', hm'⟩ := h'.core j
  exact ⟨m', by rw [hm', hm]⟩

theorem MapOnly.bank {s t : State} {k c : Nat} (h : MapOnly s t k c) (j a b : Nat) :
    getBank (getCore t j) a b = getBank (getCore s j) a b := by
  obtain ⟨m, hm⟩ := h.core j
  rw [hm]; rfl

theorem mapOnly_modCore (s : State) (k c : Nat) (m : MapRec) :
    MapOnly s (modCore s k fun x => { x with maps := tabPut x.maps c m }) k c := by
  refine ⟨fun j => ?_, fun j d hne => ?_⟩
  · by_cases hj : k = j
    · subst hj; exact ⟨_, getCore_modCore s k _⟩
    · exact ⟨(getCore s j).maps, getCore_modCore_ne s _ hj⟩
  · by_cases hj : k = j
    · subst hj
      rw [getCore_modCore]
      exact (tabFind_tabPut _ c d m).trans (if_neg fun h => hne ⟨rfl, h.symm⟩)
    · rw [getCore_modCore_ne s _ hj]

theorem writeProgress_cores (s : State) (k c : Nat) (m : MapRec) (closed : Bool) : (writeProgress s k c m closed).2.cores = s.cores :=
  (writeProgress_fr (mk := 1048620) (by decide) (Fr.refl _ _) : Fr 1048620 s (writeProgress s k c m closed).2).same .cores rfl

theorem reportMap_cores (s : State) (k c id : Nat) (st : Status) : (reportMap s k c id st).cores = s.cores :=
  (reportMap_fr (mk := 131328) (by decide) (Fr.refl _ _) : Fr 131328 s (reportMap s k c id st)).same .cores rfl

/-- A map's record and its report leave the maps. -/
theorem MapOnly.told {s u : State} {k c : Nat} (h : MapOnly s u k c) (m : MapRec) (closed : Bool) (id : Nat) (st : Status) :
    MapOnly s (reportMap (writeProgress u k c m closed).2 k c id st) k c :=
  h.trans (.of_cores (by rw [reportMap_cores, writeProgress_cores]) k c)

theorem mapFails_mapOnly (s : State) (k c : Nat) (st : Status) (r : Nat) : MapOnly s (mapFails s k c st r) k c := by
  unfold mapFails
  split
  · exact .of_cores rfl k c
  · dsimp only
    split
    · exact (mapOnly_modCore s k c _).told _ _ _ _
    · exact mapOnly_modCore s k c _

theorem faultHalt_cores (s : State) (e : Eng) (c : Nat) (q : QCmd) (st : Status) (o : Overflow) :
    (faultHalt s e c q st o).cores = s.cores :=
  (faultHalt_fr (mk := 1048596) (by decide) (Fr.refl _ _) : Fr 1048596 s (faultHalt s e c q st o)).same .cores rfl

theorem completeCmd_mapOnly (s : State) (e : Eng) (c : Nat) (q : QCmd) (st : Status) (o : Overflow) :
    MapOnly s (completeCmd s e c q st o) e.index c := by
  obtain ⟨u, hu, hcores⟩ : ∃ u, u = (if st.halts then faultHalt s e c q st o else s) ∧ u.cores = s.cores := by
    refine ⟨_, rfl, ?_⟩
    split
    · exact faultHalt_cores _ _ _ _ _ _
    · rfl
  rw [completeCmd, ← hu]
  refine (MapOnly.of_cores hcores e.index c).trans (MapOnly.trans ?_ (.of_cores (reportCmd_cores _ _ _) _ _))
  split
  · exact mapFails_mapOnly _ _ _ _ _
  · exact .of_cores rfl _ _

theorem completeHead_mapOnly (s : State) (e : Eng) (c : Nat) (q : QCmd) (st : Status) (o : Overflow) :
    MapOnly s (completeHead s e c q st o) e.index c :=
  (MapOnly.of_cores (s := s) (t := popQ s e c) rfl e.index c).trans (completeCmd_mapOnly _ e c q st o)

end Sys2Proof.Proofs
end

