-- ==== Sys2Proof/Proofs/Tiles.lean ====
section
/-! PROOFS. TAMP from its check to READY (spec/04 R91, R92, R94, R107). -/

namespace Sys2Proof.Proofs

open Sys2Proof Sys2Proof.Machine Sys2Proof.Laws

/-- A TAMP that is well formed and need not wait is checked against the banks of its array. -/
theorem tampCheck_of {s : State} {k c : Nat} {q : QCmd} (h : Claim.atHead s (coreEng k) c 1 q) (hnew : q.checked = false)
    (hok : tampOk q.bytes = true) (hfence : cmdFence q.bytes = true → fenceClear (getCore s k) c q.bytes = true)
    (hclaim : bankClaim s k c (bits (fld q.bytes 2 1) 1 0) = none) : tampCheck s k c =
      if (List.range 2).any (fun i => (getBank (getCore s k) (bits (fld q.bytes 2 1) 1 0) i).state ≠ .free &&
          (getBank (getCore s k) (bits (fld q.bytes 2 1) 1 0) i).ctx = c &&
          (getBank (getCore s k) (bits (fld q.bytes 2 1) 1 0) i).tag = fld q.bytes 3 1) then
        completeHead s (coreEng k) c q .mapHazard
      else markHead s (coreEng k) c := by
  have hgo : (cmdFence q.bytes && !fenceClear (getCore s k) c q.bytes) = false := by
    cases hf : cmdFence q.bytes with
    | false => rfl
    | true => rw [hfence hf]; rfl
  refine (headRow_runs h rfl _).trans ?_
  simp only [hnew, hok, hgo, hclaim, Bool.not_true, Bool.false_eq_true, if_false]

theorem checkedHead_of {s : State} {e : Eng} {c op : Nat} {q : QCmd} (h : Claim.atHead s e c op q) (hc : q.checked = true) :
    checkedHead s e c op = some q := by
  obtain ⟨hq, hv, ho⟩ := h
  simp [checkedHead, hq, hv, ho, hc]

theorem Turned.checkedHead {s t : State} {e : Eng} {u : Nat} (h : Turned s t e u) (f : Eng) (c op : Nat) :
    checkedHead t f c op = checkedHead s f c op := by
  rw [Machine.checkedHead, Machine.checkedHead, h.headCmd]

/-- A bank that loads a tile. -/
def loadingBank (c : Nat) (q : QCmd) (img : Bytes) : Bank :=
  { state := .loading, ctx := c, tag := fld q.bytes 3 1, wfmt := fld q.bytes 4 1, used := true, settled := true, img := img }

/-- A bank takes a tile. -/
def withLoad (x : CoreSt) (c a bk : Nat) (q : QCmd) (img : Bytes) : CoreSt :=
  { modBank x a bk (fun _ => loadingBank c q img) with
    load := some { ctx := c, array := a, bank := bk, cmd := q } }

/-- A TAMP whose turn it is, with the load path and a bank free, reads its image into the bank. -/
theorem tampBegin_of {s : State} {k c bk : Nat} {q : QCmd} (h : Claim.atHead s (coreEng k) c 1 q) (hchecked : q.checked = true)
    (hload : (getCore s k).load = none) (hturn : Claim.hasTurn s (coreEng k) 1 c (tampReady s k))
    (hbank : bankFor (getCore s k) c (bits (fld q.bytes 2 1) 1 0) (fld q.bytes 3 1) = some bk) (hclean : Claim.clean s)
    (hread : mayAccess s (whoOf (coreEng k) c) (fld q.bytes 8 8) (fld q.bytes 16 4) false = true) :
    ∃ u, SameQueues s u ∧ u.cores = s.cores ∧ u.mem = s.mem ∧ tampBegin s k c =
      modCore (popQ u (coreEng k) c) k fun x => withLoad x c (bits (fld q.bytes 2 1) 1 0) bk q
        (memRead s.mem.bytes (fld q.bytes 8 8) (fld q.bytes 16 4)) := by
  obtain ⟨v, hv, hvt⟩ := takeTurn_of hturn
  have hprt : v.prt = s.prt := by rw [hvt.eq]
  have hmem : v.mem = s.mem := by rw [hvt.eq]
  have hcores : v.cores = s.cores := by rw [hvt.eq]
  have hread' : mayAccess v (whoOf (coreEng k) c) (fld q.bytes 8 8) (fld q.bytes 16 4) false = true := by
    rw [mayAccess_of_samePrt (s := s) (by rw [hprt]; exact .refl _)]; exact hread
  obtain ⟨u, hu, hcharged⟩ := rd_of_clean (clean_of_mem hclean hmem) hread'
  have hbank' : bankFor (getCore v k) c (bits (fld q.bytes 2 1) 1 0) (fld q.bytes 3 1) = some bk := by
    rw [getCore, hcores]; exact hbank
  refine ⟨u, hvt.sameQueues.trans (.of_engs (by rw [hcharged.eq])), by rw [hcharged.eq, hcores], by rw [hcharged.mem, hmem], ?_⟩
  simp only [tampBegin, hload, checkedHead_of h hchecked, hv, hbank', hu]
  rw [hmem]
  rfl

/-- Settles O31: the check against the array's banks, the reading of the image, and the end of the load. -/
theorem tilesLoad : Obligations.TilesLoad := by
  refine ⟨?check, ?start, ?done⟩
  case check =>
    intro k c q s _ _ h hnew hok hfence a hclaim
    have hrow := tampCheck_of h hnew hok hfence hclaim
    refine ⟨fun hfree => ?_, fun b hb hstate hctx htag => ?_⟩
    · rw [if_neg] at hrow
      · exact does_of (congrArg Host.Outcome.next hrow) (markHead_queue h.1)
      · rw [List.any_eq_true]
        rintro ⟨b, hb, h⟩
        simp only [Bool.and_eq_true, decide_eq_true_eq] at h
        exact hfree b (List.mem_range.1 hb) ⟨h.1.1, h.1.2, h.2⟩
    · rw [if_pos] at hrow
      · exact does_of (congrArg Host.Outcome.next hrow) ⟨completeHead_fails _ _ _ _ rfl _,
          fun a' b' => (completeHead_mapOnly _ _ _ _ _ _).bank k a' b'⟩
      · rw [List.any_eq_true]
        refine ⟨b, List.mem_range.2 hb, ?_⟩
        simp only [Bool.and_eq_true, decide_eq_true_eq]
        exact ⟨⟨hstate, hctx⟩, htag⟩
  case start =>
    intro k c q bk s _ _ h hchecked a hload hturn hbank hclean hread
    obtain ⟨u, hsame, hcores, hmem, hrow⟩ := tampBegin_of h hchecked hload hturn hbank hclean hread
    have hcore : getCore u k = getCore s k := by rw [getCore, getCore, hcores]
    have hk : getCore (tampBegin s k c) k = withLoad (getCore s k) c a bk q
        (memRead s.mem.bytes (fld q.bytes 8 8) (fld q.bytes 16 4)) := by
      rw [hrow, getCore_modCore, ← hcore]; rfl
    have hengs : (tampBegin s k c).engs = (popQ u (coreEng k) c).engs := by rw [hrow]; rfl
    refine does_of (t := tampBegin s k c) rfl ⟨headGone_of_same hsame (.of_engs hengs) (popQ_gone u _ c), ?_, fun a' b' hne => ?_, ?_, fun j hj => ?_, ?_⟩
    · rw [hk]; exact getBank_modBank (getCore s k) a bk fun _ => loadingBank c q _
    · rw [hk]; exact getBank_modBank_ne (getCore s k) (fun _ => loadingBank c q _) hne.symm
    · rw [hk]; rfl
    · rw [hrow, getCore_modCore_ne _ _ hj.symm]
      exact congrArg (fun t => tabGet {} t j) hcores
    · rw [hrow]; exact hmem
  case done =>
    intro k l s hl
    obtain ⟨u, hu⟩ : ∃ u, u = modCore s k fun x =>
      { modBank x l.array l.bank (fun y => { y with state := .ready }) with load := none } := ⟨_, rfl⟩
    have hrow : tampEnd s k = reportCmd u l.cmd.origin .ok := by
      rw [tampEnd, hl, hu]
      exact completeCmd_good _ _ _ _ rfl _
    have hcore : getCore u k = { modBank (getCore s k) l.array l.bank (fun y => { y with state := .ready }) with load := none } := by
      rw [hu]; exact getCore_modCore s k fun x =>
        { modBank x l.array l.bank (fun y => { y with state := .ready }) with load := none }
    obtain ⟨hengs, hmem, -⟩ := reportCmd_keeps u l.cmd.origin .ok
    have hcores (j : Nat) : getCore (reportCmd u l.cmd.origin .ok) j = getCore u j := by rw [getCore, reportCmd_cores, ← getCore]
    refine does_of (congrArg Host.Outcome.next hrow) ⟨?_, fun a' b' hne => ?_, ?_, ?_, fun j hj => ?_, ?_, ?_⟩
    · rw [hcores, hcore]; exact getBank_modBank (getCore s k) l.array l.bank fun y => { y with state := .ready }
    · rw [hcores, hcore]; exact getBank_modBank_ne (getCore s k) (fun y => { y with state := .ready }) hne.symm
    · rw [hcores, hcore]
    · rw [hcores, hcore]; rfl
    · rw [hcores, hu]
      exact getCore_modCore_ne s (fun x =>
        { modBank x l.array l.bank (fun y => { y with state := .ready }) with load := none }) hj.symm
    · rw [hengs, hu]; rfl
    · rw [hmem, hu]; rfl

end Sys2Proof.Proofs
end

