-- ==== Sys2Proof/Proofs/Passes.lean ====
section
/-! PROOFS. PASS: what its rows write is not bounded by what it owns when the command in hand is no PASS (spec/04 R97). -/

namespace Sys2Proof.Proofs

open Sys2Proof Sys2Proof.Machine Sys2Proof.Laws

/-- A PASS operation of one row whose command bytes carry no PASS: by Table 4-5's fields it names no entry. -/
def strayPass : PassOp :=
  { ctx := 0, banks := [(0, 0)], acts := [], imgs := [[]], cmd := { bytes := List.replicate 16 0 ++ [1], seq := 0 } }

/-- The stray operation is the oldest of core 0, and its bank has left DRAINING. -/
def strayState : State := { State.reset with cores := [(0, { draining := [strayPass] })] }

/-- It owns no entry of any array. -/
theorem strayPass_owns : passOwns (getCtx strayState strayPass.ctx) strayPass = (0, 0) := by decide +kernel

/-- Its completion writes entry 0 of array 0. -/
theorem strayPass_writes : (tabFind (getCore (passEnd strayState 0) 0).acc 0).isSome = true := by decide +kernel

/-- Refutes O32: in `strayState` the completion of a PASS changes an accumulator entry that no PASS of the core owns, since
`accRange` takes the entries by the opcode of the command and the output stage does not. -/
theorem not_passesRun : ¬ Obligations.PassesRun := by
  rintro ⟨-, -, -, -, hcomplete⟩
  obtain ⟨t, hrow, -, -, howned, -⟩ := hcomplete 0 strayPass [] strayState rfl (by decide +kernel)
  have ht : t = passEnd strayState 0 := (Host.Outcome.next.inj hrow).symm
  have hsame := howned 0 0 (by decide) fun p hp => by
    obtain rfl : p = strayPass := List.mem_singleton.1 hp
    rw [strayPass_owns]
    exact ⟨by decide, .inr (.inr (Nat.le_refl 0))⟩
  have hbefore : tabFind (getCore strayState 0).acc 0 = none := rfl
  have hafter := strayPass_writes
  rw [← ht, show (0 : Nat) = 0 * 65536 + 0 from rfl, hsame, hbefore] at hafter
  exact Bool.false_ne_true hafter

/-! ### An EPI beside the stray operation -/

/-- An EPI of no array, no step and no row, 32 entries wide. -/
def idleEpi : QCmd := { bytes := [3, 0, 0, 0, 0, 5] }

/-- Context 0 has the EPI at the head of its queue on core 0, where the stray operation drains. -/
def strayEpiState : State := { strayState with engs := [(0, { ctxs := [(0, { queue := [idleEpi] })] })] }

theorem strayEpi_turn : Claim.hasTurn strayEpiState (coreEng 0) 2 0 (epiReady strayEpiState 0) :=
  ⟨0, by decide +kernel⟩

/-- The row that starts the EPI writes the row of the stray operation. -/
theorem strayEpi_writes : (tabFind (getCore (epiBegin strayEpiState 0 0 1) 0).acc 0).isSome = true := by decide +kernel

/-- Refutes O33: in `strayEpiState` the EPI starts when the output stage is at row 1, which changes an accumulator entry that
no PASS of the core owns. -/
theorem not_epiloguesAndMaps : ¬ Obligations.EpiloguesAndMaps := by
  rintro ⟨⟨hepi, -⟩, -⟩
  have hmeets : ∀ p ∈ owningPasses (getCore (outputTo strayEpiState 0 (rowsWritten (getCore strayEpiState 0) 1)) 0),
      epiMeets strayEpiState 0 idleEpi.bytes (cmdArrays p.cmd.bytes) (passOwns (getCtx strayEpiState p.ctx) p) = false :=
    fun p _ => rfl
  obtain ⟨t, hrow, -, -, -, howned, -⟩ := (hepi 0 0 1 idleEpi strayEpiState (by decide) (by decide) ⟨rfl, rfl, rfl⟩
    (by decide +kernel) (.inr (by decide +kernel)) rfl strayEpi_turn (fun h => absurd h (by decide))).1 hmeets
  have ht : t = epiBegin strayEpiState 0 0 1 := (Host.Outcome.next.inj hrow).symm
  have hsame := howned 0 0 (by decide) fun p hp => by
    obtain rfl : p = strayPass := List.mem_singleton.1 hp
    have howns : passOwns (getCtx strayEpiState strayPass.ctx) strayPass = (0, 0) := strayPass_owns
    rw [howns]
    exact ⟨by decide, .inr (.inr (Nat.le_refl 0))⟩
  have hbefore : tabFind (getCore strayEpiState 0).acc 0 = none := rfl
  have hafter := strayEpi_writes
  rw [← ht, show (0 : Nat) = 0 * 65536 + 0 from rfl, hsame, hbefore] at hafter
  exact Bool.false_ne_true hafter

end Sys2Proof.Proofs
end

