-- ==== Sys2Proof/Proofs/Credit.lean ====
section
/-! PROOFS. A GRANT toward a peer that is also the end of a balancing move: its path takes two frames (spec/08 R200, spec/11
R280). -/

namespace Sys2Proof.Proofs

open Sys2Proof Sys2Proof.Machine Sys2Proof.Laws

/-- A GRANT of no words on queue 0 to context 0 of module 1, offered as command 0 of the purser. -/
def movingGrant : QCmd := { bytes := [0x61] ++ List.replicate 19 0 ++ [1], origin := some (0, 0) }

/-- The GRANT at the head of context 0's queue on the manager, an open queue of 64 words, a path to module 1 on port 0, and a
purser whose command 0 is a migration that module 1 has ordered. -/
def movingGrantState : State :=
  { State.reset with
    engs := [(engKey slipEng, { ctxs := [(0, { queue := [movingGrant] })] })]
    slip := { queues := [(0, { enable := true, log2 := 6 })] }
    fry := { ports := [(0, { enable := true, link := true })], entries := [(1, { valid := true, ports := 1 })],
             paths := [(pathKey 0 1, { state := .up })] }
    pur := { cmds := [(0, { mover := some 1 })] } }

theorem movingGrant_consumes : Claim.consumes movingGrantState 0 0x61 movingGrant :=
  ⟨⟨rfl, rfl, rfl⟩, by decide +kernel, rfl, rfl, 0, by decide +kernel⟩

/-- The path that the credit goes out on. -/
theorem movingGrant_path : (choosePort movingGrantState 1).map (·.1) = some 0 := by decide +kernel

/-- What the GRANT's row leaves. -/
def movingGrantAfter : State :=
  slipHead movingGrantState 0 0x61 fun s q =>
    grantCredit s (slipQid q.bytes) (fld q.bytes 20 2) (fld q.bytes 22 1) (fld q.bytes 16 4)

/-- The credit's frame stands on the path, and the purser's word that the migration has ended stands behind it. -/
theorem movingGrant_frames : (getPath movingGrantAfter 0 1).sendq.length = 2 := by decide +kernel

/-- Refutes O34: in `movingGrantState` the GRANT queues its frame on the path to module 1, and its report queues another. -/
theorem not_consumersAndCredit : ¬ Obligations.ConsumersAndCredit := by
  rintro ⟨-, -, hgrant⟩
  obtain ⟨t, hrow, -, -, -, -, hframe⟩ := (hgrant 0 movingGrant movingGrantState (by decide) movingGrant_consumes).1
    (by decide +kernel) (by decide)
  have ht : t = movingGrantAfter := (Host.Outcome.next.inj hrow).symm
  obtain ⟨⟨p, u⟩, hport, hp⟩ := Option.map_eq_some_iff.1 movingGrant_path
  have hsend := hframe 0 u (by decide +kernel) (by rw [← hp]; exact hport)
  have hlength := congrArg List.length hsend
  rw [ht] at hlength
  exact absurd (movingGrant_frames.symm.trans hlength) (by decide +kernel)

end Sys2Proof.Proofs
end

