-- ==== Sys2Proof/Proofs/Claims.lean ====
section
/-! PROOFS. The claims of a ROUTE: what a token's ranks take of the experts' places (spec/06 R131-R134). -/

namespace Sys2Proof.Proofs

open Sys2Proof Sys2Proof.Machine Sys2Proof.Laws

/-! ### Lists whose elements are replaced -/

@[simp] theorem setAt_length {α : Type} (l : List α) (i : Nat) (v : α) : (setAt l i v).length = l.length := by
  induction l generalizing i with
  | nil => rfl
  | cons x l ih =>
    cases i with
    | zero => rfl
    | succ i => simp [setAt, ih]

theorem setAt_getD {α : Type} (l : List α) (i j : Nat) (v d : α) :
    (setAt l i v).getD j d = if i = j ∧ i < l.length then v else l.getD j d := by
  induction l generalizing i j with
  | nil => simp [setAt]
  | cons x l ih =>
    cases i with
    | zero => cases j <;> simp [setAt]
    | succ i =>
      cases j with
      | zero => simp [setAt]
      | succ j => simpa [setAt] using ih i j

/-! ### One token's claims -/

/-- The slots of a token that no expert has. -/
def lost (l : List (Option (Nat × Nat) × BitVec 32)) : Nat := (l.filter fun v => v.1.isNone).length

/-- The slots of a token that an expert has. -/
def taken (l : List (Option (Nat × Nat) × BitVec 32)) : Nat := (l.filter fun v => v.1.isSome).length

/-- Claims of token `t` on experts that `P` allows lead from `x` to `y` with `k` slots more. -/
structure Claimed (P : Nat → Prop) (l : Layer) (t : Nat) (x y : Claims) (k : Nat) : Prop where
  experts : y.counts.length = x.counts.length
  capacity (e : Nat) : y.counts.getD e 0 ≤ max l.capacity (x.counts.getD e 0)
  rising (e : Nat) : x.counts.getD e 0 ≤ y.counts.getD e 0
  subst : l.next = false → y.subst = x.subst
  slots : ∃ more new, y.slots = x.slots ++ more ∧ more.length = k ∧ y.dropped = x.dropped + lost more ∧
    y.entries = x.entries ++ new ∧ new.length = taken more ∧
    ∀ n ∈ new, n.2.2.2 = t ∧ x.counts.getD n.1 0 ≤ n.2.1 ∧ (n.1 < x.counts.length → n.2.1 < y.counts.getD n.1 0) ∧
      n.2.1 < l.capacity ∧ P n.1

theorem Claimed.refl (P : Nat → Prop) (l : Layer) (t : Nat) (x : Claims) : Claimed P l t x x 0 :=
  ⟨rfl, fun _ => Nat.le_max_right _ _, fun _ => Nat.le_refl _, fun _ => rfl, [], [], by simp [lost, taken]⟩

theorem Claimed.trans {P : Nat → Prop} {l : Layer} {t : Nat} {x y z : Claims} {j k : Nat} (h : Claimed P l t x y j) (h' : Claimed P l t y z k) :
    Claimed P l t x z (j + k) := by
  obtain ⟨more, new, hs, hk, hd, he, hn, hall⟩ := h.slots
  obtain ⟨more', new', hs', hk', hd', he', hn', hall'⟩ := h'.slots
  refine ⟨h'.experts.trans h.experts, fun e => ?_, fun e => (h.rising e).trans (h'.rising e), fun hx => ?_, more ++ more', new ++ new', ?_⟩
  · have := h.capacity e
    have := h'.capacity e
    omega
  · rw [h'.subst hx, h.subst hx]
  · refine ⟨by rw [hs', hs, List.append_assoc], by simp [hk, hk'], ?_, by rw [he', he, List.append_assoc], ?_, fun n hmem => ?_⟩
    · simp only [lost, List.filter_append, List.length_append] at *
      omega
    · simp only [taken, List.filter_append, List.length_append] at *
      omega
    · have hup := h'.rising n.1
      have hup' := h.rising n.1
      have hlen := h.experts
      rcases List.mem_append.1 hmem with hmem | hmem
      · obtain ⟨ht, hlow, hhigh, hcap⟩ := hall n hmem
        exact ⟨ht, hlow, fun hlt => by have := hhigh hlt; omega, hcap⟩
      · obtain ⟨ht, hlow, hhigh, hcap⟩ := hall' n hmem
        exact ⟨ht, by omega, fun hlt => hhigh (by omega), hcap⟩

/-- A slot that no expert takes is dropped. -/
theorem claimed_drop (P : Nat → Prop) (l : Layer) (t : Nat) (x : Claims) (w : BitVec 32) :
    Claimed P l t x { x with dropped := x.dropped + 1, slots := x.slots ++ [(none, w)] } 1 :=
  ⟨rfl, fun _ => Nat.le_max_right _ _, fun _ => Nat.le_refl _, fun _ => rfl, [(none, w)], [], by simp [lost, taken]⟩

/-- An expert with room takes a slot. -/
theorem claimed_assign {P : Nat → Prop} {l : Layer} {x : Claims} {e : Nat} (hP : P e) (h : x.counts.getD e 0 < l.capacity) (t r : Nat) (w : BitVec 32) :
    Claimed P l t x (assignSlot x t r e w) 1 := by
  refine ⟨setAt_length _ _ _, fun i => ?_, fun i => ?_, fun _ => rfl, [(some (e, x.counts.getD e 0), w)],
    [(e, x.counts.getD e 0, r, t)], rfl, rfl, rfl, rfl, rfl, fun n hmem => ?_⟩
  · rw [assignSlot, setAt_getD]
    split
    next hi => omega
    next => omega
  · rw [assignSlot, setAt_getD]
    split
    next hi => rw [← hi.1]; omega
    next => omega
  · obtain rfl := List.mem_singleton.1 hmem
    refine ⟨rfl, Nat.le_refl _, fun hlt => ?_, h, hP⟩
    rw [assignSlot, setAt_getD, if_pos ⟨rfl, hlt⟩]
    exact Nat.lt_succ_self _

/-- Claims do not look at the next rank to try, and may count substitutions where the layer has them. -/
theorem Claimed.of_next {P : Nat → Prop} {l : Layer} {t k : Nat} {x y : Claims} (n : Nat) (h : Claimed P l t { x with next := n } y k) :
    Claimed P l t x y k := ⟨h.experts, h.capacity, h.rising, h.subst, h.slots⟩

theorem claimed_tryNext {P : Nat → Prop} {l : Layer} (hnext : l.next = true) {order : List Nat}
    (hP : ∀ i, P (order.getD i 0)) (t r : Nat) (w : BitVec 32) (f : Nat)
    (x : Claims) : Claimed P l t x (tryNext l order t r w f x) 1 := by
  induction f generalizing x with
  | zero => exact claimed_drop P l t x w
  | succ f ih =>
    unfold tryNext
    dsimp only
    split
    next =>
      split
      next h =>
        have ha := claimed_assign (x := { x with next := x.next + 1 }) (hP x.next) h t r w
        exact ⟨ha.experts, ha.capacity, ha.rising, fun hf => absurd (hnext.symm.trans hf) (by decide), ha.slots⟩
      next => exact (ih _).of_next _
    next => exact claimed_drop P l t x w

theorem claimed_claimRank {P : Nat → Prop} (l : Layer) (logits : List (BitVec 32)) {order : List Nat}
    (hP : ∀ i, P (order.getD i 0)) (t : Nat) (x : Claims) (r : Nat) :
    Claimed P l t x (claimRank l logits order t x r) 1 := by
  unfold claimRank
  dsimp only
  split
  next h => exact claimed_assign (hP r) h t r _
  next =>
    split
    next hn => exact claimed_tryNext hn hP _ _ _ _ _
    next => exact claimed_drop P l t x _

theorem claimed_ranks {P : Nat → Prop} (l : Layer) (logits : List (BitVec 32)) {order : List Nat}
    (hP : ∀ i, P (order.getD i 0)) (t : Nat) (ranks : List Nat) (x : Claims) :
    Claimed P l t x (ranks.foldl (claimRank l logits order t) x) ranks.length := by
  induction ranks generalizing x with
  | nil => exact .refl P l t x
  | cons r ranks ih =>
    rw [List.length_cons, Nat.add_comm]
    exact (claimed_claimRank l logits hP t x r).trans (ih _)

/-- Renormalizing changes weights alone. -/
def renormalized (l : List (Option (Nat × Nat) × BitVec 32)) (f : BitVec 32 → BitVec 32) :
    List (Option (Nat × Nat) × BitVec 32) := l.map fun v => if v.1.isSome then (v.1, f v.2) else v

theorem renormalized_experts (l : List (Option (Nat × Nat) × BitVec 32)) (f : BitVec 32 → BitVec 32) :
    (renormalized l f).map (·.1) = l.map (·.1) := by
  rw [renormalized, List.map_map]
  refine List.map_congr_left fun v _ => ?_
  simp only [Function.comp_apply]
  split <;> rfl

theorem lost_of_experts {l m : List (Option (Nat × Nat) × BitVec 32)} (h : l.map (·.1) = m.map (·.1)) : lost l = lost m := by
  have key (l : List (Option (Nat × Nat) × BitVec 32)) : lost l = ((l.map (·.1)).filter Option.isNone).length := by
    rw [lost, List.filter_map, List.length_map]; rfl
  rw [key, key, h]

theorem taken_of_experts {l m : List (Option (Nat × Nat) × BitVec 32)} (h : l.map (·.1) = m.map (·.1)) : taken l = taken m := by
  have key (l : List (Option (Nat × Nat) × BitVec 32)) : taken l = ((l.map (·.1)).filter Option.isSome).length := by
    rw [taken, List.filter_map, List.length_map]; rfl
  rw [key, key, h]

/-- What the claims of a token come to: those of its ranks, their weights perhaps renormalized. -/
theorem claimToken_eq (l : Layer) (logits : List (BitVec 32)) (t : Nat) (x : Claims) :
    ∃ slots, claimToken l logits t x =
      { (List.range l.topK).foldl (claimRank l logits (rankExperts logits) t) { x with next := l.topK, slots := [] } with
        slots := slots } ∧
      slots.map (·.1) = ((List.range l.topK).foldl (claimRank l logits (rankExperts logits) t)
        { x with next := l.topK, slots := [] }).slots.map (·.1) := by
  unfold claimToken
  dsimp only
  split
  · exact ⟨_, rfl, renormalized_experts _ fun w => f32DivExact (f32Dec w) (f32Dec _)⟩
  · exact ⟨_, rfl, rfl⟩

/-- The claims of a token: its slots, and the entries of the experts' lists. -/
theorem claimed_token {P : Nat → Prop} (l : Layer) (logits : List (BitVec 32)) (hP : ∀ i, P ((rankExperts logits).getD i 0)) (t : Nat)
    (x : Claims) : Claimed P l t { x with slots := [] } (claimToken l logits t x) l.topK := by
  obtain ⟨slots, hy, hslots⟩ := claimToken_eq l logits t x
  have h := claimed_ranks l logits hP t (List.range l.topK) { x with next := l.topK, slots := [] }
  rw [List.length_range] at h
  obtain ⟨more, new, hmore, hk, hdrop, hent, hnew, hall⟩ := h.slots
  rw [List.nil_append] at hmore
  rw [hmore] at hslots
  rw [hy]
  refine ⟨h.experts, h.capacity, h.rising, h.subst, slots, new, rfl, ?_, ?_, hent, ?_, hall⟩
  · rw [← hk]
    simpa using congrArg List.length hslots
  · exact hdrop.trans (congrArg _ (lost_of_experts hslots).symm)
  · exact hnew.trans (taken_of_experts hslots).symm

/-- Settles O37: each rank's claim takes a place of an expert with room or drops its slot, and renormalizing the weights
leaves the places. -/
theorem routeClaimsKeepCapacity : Obligations.RouteClaimsKeepCapacity := by
  intro l logits t x hlen hcap
  have h := claimed_token (P := fun _ => True) l logits (fun _ => trivial) t x
  obtain ⟨more, new, hmore, hk, hdrop, hent, hnew, hall⟩ := h.slots
  rw [List.nil_append] at hmore
  refine ⟨h.experts.trans hlen, fun e => ⟨?_, h.rising e⟩, by rw [hmore, hk], by rw [hdrop, hmore]; rfl, h.subst, new, hent,
    by rw [hnew, hmore]; rfl, fun n hn => ?_⟩
  · exact (h.capacity e).trans (Nat.max_le.2 ⟨Nat.le_refl _, hcap e⟩)
  · obtain ⟨ht, hlow, hhigh, -⟩ := hall n hn
    exact ⟨ht, hlow, fun hlt => hhigh (by rw [hlen]; exact hlt)⟩

end Sys2Proof.Proofs
end

