-- ==== Sys2Proof/Proofs/Slips.lean ====
section
/-! PROOFS. The operations of the slip-queue manager: reserving, writing words, committing, rewinding (spec/08 R188-R196). -/

namespace Sys2Proof.Proofs

open Sys2Proof Sys2Proof.Machine Sys2Proof.Laws

/-! ### Work over a range of numbers -/

theorem runActVal_forM_range' {P : Nat → State → Prop} {f : Nat → Act PUnit} (k n : Nat)
    (hstep : ∀ i, k ≤ i → i < k + n → ∀ u, P i u → ∃ t, runActVal (f i) u = (.ok (), t) ∧ P (i + 1) t) (s : State) (h : P k s) :
    ∃ t, runActVal ((List.range' k n).forM f) s = (.ok (), t) ∧ P (k + n) t := by
  induction n generalizing k s with
  | zero => exact ⟨s, rfl, h⟩
  | succ n ih =>
    obtain ⟨u, hu, hpu⟩ := hstep k (Nat.le_refl k) (by omega) s h
    obtain ⟨t, ht, hpt⟩ := ih (k + 1) (fun i h1 h2 => hstep i (by omega) (by omega)) u hpu
    refine ⟨t, ?_, by rw [show k + (n + 1) = k + 1 + n by omega]; exact hpt⟩
    rw [List.range'_succ]
    exact (runActVal_bind_ok hu).trans ht

/-- Work done for every number below `n` in turn, each keeping what the next one needs. -/
theorem runActVal_forM_range {P : Nat → State → Prop} {f : Nat → Act PUnit} {n : Nat} {s : State} (h : P 0 s)
    (hstep : ∀ i, i < n → ∀ u, P i u → ∃ t, runActVal (f i) u = (.ok (), t) ∧ P (i + 1) t) :
    ∃ t, runActVal ((List.range n).forM f) s = (.ok (), t) ∧ P n t := by
  obtain ⟨t, ht, hp⟩ := runActVal_forM_range' (P := P) (f := f) 0 n (fun i _ hi => hstep i (by omega)) s h
  rw [Nat.zero_add] at hp
  exact ⟨t, by rw [List.range_eq_range']; exact ht, hp⟩

/-! ### Queues and grants -/

section
variable (s : State) (q m c : Nat)

@[simp] theorem getSq_modSq (f : SlipQ → SlipQ) : getSq (modSq s q f) q = f (getSq s q) := tabGet_tabMod_self _ _ _ _

theorem getSq_modSq_ne (f : SlipQ → SlipQ) {j : Nat} (h : j ≠ q) : getSq (modSq s q f) j = getSq s j :=
  tabGet_tabPut_ne _ _ _ h.symm

@[simp] theorem getSq_modGrant (f : Grant → Grant) (j : Nat) : getSq (modGrant s q m c f) j = getSq s j := rfl

@[simp] theorem getGrant_modSq (f : SlipQ → SlipQ) (i : Nat) : getGrant (modSq s i f) q m c = getGrant s q m c := rfl

@[simp] theorem getGrant_modGrant (f : Grant → Grant) : getGrant (modGrant s q m c f) q m c = f (getGrant s q m c) := by
  rw [getGrant, modGrant, modSlip]
  exact (tabGet_tabSet _ _ _ _ _).trans (if_pos rfl)

end

/-- The reservation that a queue makes for `n` words. -/
def newResv (x : SlipQ) (m c n : Nat) (eng : Option Eng) (port : Nat) (tag : Option (BitVec 32)) : Resv :=
  { pos := x.resv.toNat, len := n, module := m, ctx := c, eng := eng, port := port, tag := tag }

section
variable (s : State) (q m c n : Nat) (eng : Option Eng) (port : Nat) (tag : Option (BitVec 32))

theorem getSq_reserve : getSq (reserve s q m c n eng port tag) q =
    { getSq s q with resv := (getSq s q).resv + w64 n, items := (getSq s q).items ++ [newResv (getSq s q) m c n eng port tag] } :=
  (getSq_modGrant _ _ _ _ _ _).trans (getSq_modSq _ _ _)

theorem getSq_reserve_ne {j : Nat} (h : j ≠ q) : getSq (reserve s q m c n eng port tag) j = getSq s j :=
  (getSq_modGrant _ _ _ _ _ _).trans (getSq_modSq_ne _ _ _ h)

theorem getGrant_reserve : getGrant (reserve s q m c n eng port tag) q m c = (getGrant s q m c).hold n :=
  (getGrant_modGrant _ _ _ _ _).trans rfl

end

/-- States with the same manager have the same queues. -/
theorem getSq_of_slip {s t : State} (h : t.slip = s.slip) (j : Nat) : getSq t j = getSq s j := by rw [getSq, h]; rfl

/-- The manager's other registers and tables do not show in a queue. -/
theorem getSq_modSlip {s : State} {f : SlipSt → SlipSt} (h : (f s.slip).queues = s.slip.queues) (j : Nat) :
    getSq (modSlip s f) j = getSq s j := by rw [getSq, modSlip, h]; rfl

theorem getGrant_of_slip {s t : State} (h : t.slip = s.slip) (q m c : Nat) : getGrant t q m c = getGrant s q m c := by
  rw [getGrant, h]; rfl

theorem ownModule_of_fry {s t : State} (h : t.fry = s.fry) : ownModule t = ownModule s := by rw [ownModule, h]; rfl

/-- Where words and frames lie depends on the ring alone. -/
theorem wordAddr_of_ring {x y : SlipQ} (hb : y.base = x.base) (hl : y.log2 = x.log2) (p : Nat) : wordAddr y p = wordAddr x p := by
  rw [wordAddr, wordAddr, SlipQ.size, SlipQ.size, hb, hl]

theorem frameAddr_of_ring {x y : SlipQ} (hb : y.base = x.base) (hl : y.log2 = x.log2) (p : Nat) : frameAddr y p = frameAddr x p := by
  rw [frameAddr, frameAddr, SlipQ.size, SlipQ.size, hb, hl]

/-! ### Words of a ring -/

theorem size_pos (x : SlipQ) : 0 < x.size := Nat.two_pow_pos _

theorem wordAddr_bounds (x : SlipQ) (p : Nat) : x.base.toNat ≤ wordAddr x p ∧ wordAddr x p + 32 ≤ x.base.toNat + x.size * 32 := by
  have := Nat.mod_lt p (size_pos x)
  unfold wordAddr
  omega

theorem frameAddr_bounds (x : SlipQ) (k : Nat) :
    x.base.toNat + x.size * 32 ≤ frameAddr x k ∧ frameAddr x k + 16 ≤ x.base.toNat + x.size * 48 := by
  have := Nat.mod_lt k (size_pos x)
  unfold frameAddr
  omega

/-- Positions less than SIZE apart lie at different places of the ring. -/
theorem wordAddr_apart (x : SlipQ) (pos : Nat) {i j : Nat} (hi : i < x.size) (hj : j < x.size) (hne : i ≠ j) :
    wordAddr x (pos + i) + 32 ≤ wordAddr x (pos + j) ∨ wordAddr x (pos + j) + 32 ≤ wordAddr x (pos + i) := by
  have h : (pos + i) % x.size ≠ (pos + j) % x.size := fun h => by
    have hm : i % x.size = j % x.size := Nat.ModEq.add_left_cancel' pos h
    rw [Nat.mod_eq_of_lt hi, Nat.mod_eq_of_lt hj] at hm
    exact hne hm
  unfold wordAddr
  omega

/-- `n` words stand at the positions from `pos` on, and no other byte of memory has changed. -/
structure WordsAt (s t : State) (x : SlipQ) (pos n : Nat) (word : Nat → Bytes) : Prop where
  eq : t = { s with mem := t.mem, prt := t.prt }
  prt : SamePrt s.prt t.prt
  clean : Claim.clean t
  gran : SameGran s.mem.gran t.mem.gran
  words (j : Nat) (h : j < n) : memRead t.mem.bytes (wordAddr x (pos + j)) 32 = word j
  rest (a : Nat) (h : ∀ j, j < n → a < wordAddr x (pos + j) ∨ wordAddr x (pos + j) + 32 ≤ a) :
    memGet t.mem.bytes a = memGet s.mem.bytes a

theorem memRead_congr {m m' : List Host.Cell} {a n : Nat} (h : ∀ b, a ≤ b → b < a + n → memGet m b = memGet m' b) :
    memRead m a n = memRead m' a n := by
  refine List.ext_getElem (by rw [memRead_length, memRead_length]) fun i h1 h2 => ?_
  rw [memRead_getElem, memRead_getElem]
  rw [memRead_length] at h1
  exact h _ (by omega) (by omega)

theorem memGet_memWrite_apart (m : List Host.Cell) (a j : Nat) (b : Bytes) (h : j < a ∨ a + b.length ≤ j) :
    memGet (memWrite m a b) j = memGet m j := by
  rw [memGet_memWrite, if_neg (by omega)]

/-- One word more. -/
theorem WordsAt.next {s u t : State} {x : SlipQ} {pos i : Nat} {word : Nat → Bytes} (h : WordsAt s u x pos i word)
    (hi : i < x.size) (hlen : (word i).length = 32) (hw : Wrote u t (wordAddr x (pos + i)) (word i)) :
    WordsAt s t x pos (i + 1) word := by
  refine ⟨?_, h.prt.trans hw.prt, hw.clean h.clean, h.gran.trans hw.gran, fun j hj => ?_, fun a ha => ?_⟩
  · rw [hw.eq, h.eq]
  · rw [hw.bytes]
    by_cases hji : j = i
    · subst hji
      have := memRead_memWrite u.mem.bytes (wordAddr x (pos + j)) (word j)
      rwa [hlen] at this
    · rw [memRead_memWrite_apart, h.words j (by omega)]
      rw [hlen]
      have := wordAddr_apart x pos (i := j) (j := i) (by omega) hi hji
      omega
  · have hlast := ha i (by omega)
    rw [hw.bytes, memGet_memWrite_apart _ _ _ _ (by rw [hlen]; exact hlast), h.rest a fun j hj => ha j (by omega)]

/-- Work that writes word after word. -/
theorem words_written {s : State} {x : SlipQ} {pos n : Nat} {word : Nat → Bytes} {f : Nat → Act Unit} (hs : Claim.clean s)
    (hn : n ≤ x.size) (hlen : ∀ i, i < n → (word i).length = 32)
    (hf : ∀ i, i < n → ∀ u, WordsAt s u x pos i word →
      ∃ t, runActVal (f i) u = (.ok (), t) ∧ Wrote u t (wordAddr x (pos + i)) (word i)) :
    ∃ t, runActVal ((List.range n).forM f) s = (.ok (), t) ∧ WordsAt s t x pos n word := by
  refine runActVal_forM_range (P := fun i u => WordsAt s u x pos i word) ?_ fun i hi u hu => ?_
  · exact ⟨rfl, .refl _, hs, .refl _, fun j hj => absurd hj (Nat.not_lt_zero j), fun _ _ => rfl⟩
  · obtain ⟨t, ht, hw⟩ := hf i hi u hu
    exact ⟨t, ht, hu.next (by omega) (hlen i hi) hw⟩

theorem WordsAt.slip {s t : State} {x : SlipQ} {pos n : Nat} {word : Nat → Bytes} (h : WordsAt s t x pos n word) :
    t.slip = s.slip := by rw [h.eq]

/-- A producer's words are written at their positions. -/
theorem writeWords_of {s : State} {w : Who} {q pos n : Nat} {b : Bytes} (hs : Claim.clean s) (hlen : b.length = 32 * n)
    (hn : n ≤ (getSq s q).size) (hm : ∀ j, j < n → mayAccess s w (wordAddr (getSq s q) (pos + j)) 32 true = true) :
    ∃ t, writeWords s w q pos b = (.ok, t) ∧ WordsAt s t (getSq s q) pos n fun j => (b.drop (32 * j)).take 32 := by
  have hword : ∀ j, j < n → ((b.drop (32 * j)).take 32).length = 32 := fun j hj => by
    rw [List.length_take, List.length_drop]; omega
  obtain ⟨t, ht, hw⟩ := words_written (f := fun i => wr w (wordAddr (getSq s q) (pos + i)) ((b.drop (32 * i)).take 32)) hs hn
    hword fun i hi u hu => wr_of_clean hu.clean (by rw [hword i hi, mayAccess_of_samePrt hu.prt]; exact hm i hi)
  refine ⟨t, runAct_ok ?_, hw⟩
  rw [hlen, Nat.mul_div_cancel_left _ (by decide)]
  exact ht

/-! ### What becomes visible -/

section
variable {s : State} {q : Nat}

/-- What lies before the point reached is passed over. -/
theorem advanceQ_past {pre : List Resv} (h : ∀ y ∈ pre, y.pos < (getSq s q).resolved.toNat) (l : List Resv) :
    advanceQ q (pre ++ l) s = advanceQ q l s := by
  induction pre with
  | nil => rfl
  | cons y pre ih =>
    rw [List.cons_append, advanceQ, if_pos (h y (List.mem_cons_self ..))]
    exact ih fun z hz => h z (List.mem_cons_of_mem _ hz)

/-- An open reservation stops what comes after it. -/
theorem advanceQ_open {y : Resv} (hst : y.state = .opened) (hpos : (getSq s q).resolved.toNat ≤ y.pos) (l : List Resv) :
    advanceQ q (y :: l) s = s := by
  rw [advanceQ, if_neg (by omega), hst]

/-- The queue once a committed packet of it has become visible. -/
def shownQ (x : SlipQ) (r : Resv) (w : Nat) : SlipQ :=
  { x with commit := x.commit + 1, resolved := w64 (r.pos + r.len)
           items := x.items.map fun y => if y.pos = r.pos then { y with state := .visible x.commit.toNat w } else y }

/-- A packet has become visible: its frame stands in its place, and the queue counts it. -/
structure Shown (s t : State) (q : Nat) (r : Resv) (w : Nat) : Prop where
  eq : t = { s with mem := t.mem, prt := t.prt, slip := t.slip }
  sq : getSq t q = shownQ (getSq s q) r w
  other (j : Nat) (h : j ≠ q) : getSq t j = getSq s j
  grant (i m c : Nat) : getGrant t i m c = getGrant s i m c
  bytes : t.mem.bytes = memWrite s.mem.bytes (frameAddr (getSq s q) (getSq s q).commit.toNat) (frameBytes s r w)

theorem frameBytes_length (s : State) (r : Resv) (w : Nat) : (frameBytes s r w).length = 16 := by simp [frameBytes, toLe_length]

/-- The manager may write a frame of a ring that lies below the bundle cache. -/
theorem mayAccess_frame {x : SlipQ} (hring : x.base.toNat + x.size * 48 ≤ cacheBase) (s : State) (c k : Nat) :
    mayAccess s (whoManager c) (frameAddr x k) 16 true = true := by
  have hb := (frameAddr_bounds x k).2
  have hend : cacheBase ≤ unifiedEnd := by decide
  have h1 : frameAddr x k + 16 ≤ unifiedEnd := by omega
  have h2 : ¬ cacheBase < frameAddr x k + 16 := by omega
  simp [mayAccess, whoManager, h1, h2]

/-- The manager may write a word of such a ring. -/
theorem mayAccess_word {x : SlipQ} (hring : x.base.toNat + x.size * 48 ≤ cacheBase) (s : State) (c p : Nat) :
    mayAccess s (whoManager c) (wordAddr x p) 32 true = true := by
  have hb := (wordAddr_bounds x p).2
  have hend : cacheBase ≤ unifiedEnd := by decide
  have h1 : wordAddr x p + 32 ≤ unifiedEnd := by omega
  have h2 : ¬ cacheBase < wordAddr x p + 32 := by omega
  simp [mayAccess, whoManager, h1, h2]

/-- A committed packet with all before it resolved becomes visible. -/
theorem advanceQ_committed (hs : Claim.clean s) {r : Resv} {w : Nat} (hst : r.state = .committed w)
    (hpos : (getSq s q).resolved.toNat ≤ r.pos) (hring : (getSq s q).base.toNat + (getSq s q).size * 48 ≤ cacheBase)
    (l : List Resv) : ∃ t, advanceQ q (r :: l) s = advanceQ q l t ∧ Shown s t q r w := by
  obtain ⟨u, hu, hw⟩ := wr_of_clean (b := frameBytes s r w) hs
    (by rw [frameBytes_length]; exact mayAccess_frame hring s r.ctx (getSq s q).commit.toNat)
  have hslip : u.slip = s.slip := by rw [hw.eq]
  refine ⟨modSlip (modSq u q fun x => { x with
    commit := x.commit + 1, resolved := w64 (r.pos + r.len)
    items := x.items.map fun y => if y.pos = r.pos then { y with state := .visible (getSq s q).commit.toNat w } else y })
    fun x => { x with packets := x.packets + 1 }, ?_, ?_, ?_, fun j hj => ?_, fun i m c => ?_, ?_⟩
  · rw [advanceQ, if_neg (by omega), hst]
    dsimp only
    rw [runAct_ok hu]
  · rw [hw.eq]; rfl
  · rw [← getSq_of_slip hslip q]
    exact (getSq_modSlip rfl q).trans (getSq_modSq u q _)
  · exact (getSq_modSlip rfl j).trans ((getSq_modSq_ne u q _ hj).trans (getSq_of_slip hslip j))
  · exact getGrant_of_slip hslip i m c
  · exact hw.bytes

/-! ### Committing -/

/-- Changing the one reservation that stands at a position. -/
theorem map_at {pre post : List Resv} {r : Resv} {p : Resv → Prop} [DecidablePred p] (hr : p r)
    (hothers : ∀ y ∈ pre ++ post, ¬ p y) (f : Resv → Resv) :
    (pre ++ r :: post).map (fun y => if p y then f y else y) = pre ++ f r :: post := by
  have hsame : ∀ l : List Resv, (∀ y ∈ l, ¬ p y) → l.map (fun y => if p y then f y else y) = l := fun l hl => by
    refine (List.map_congr_left fun y hy => ?_).trans (List.map_id l)
    simp [hl y hy]
  rw [List.map_append, List.map_cons, if_pos hr, hsame pre fun y hy => hothers y (List.mem_append_left _ hy),
    hsame post fun y hy => hothers y (List.mem_append_right _ hy)]

/-- The open reservation at a position, where no other stands there. -/
theorem openAt_of {pre post : List Resv} {r : Resv} (hx : (getSq s q).items = pre ++ r :: post) (hst : r.state = .opened)
    (hpre : ∀ y ∈ pre, y.pos ≠ r.pos) : openAt s q r.pos = some r := by
  rw [openAt, hx, List.find?_append, List.find?_eq_none.2 fun y hy => by simp [hpre y hy], Option.none_or,
    List.find?_cons_of_pos (by simp [hst])]

/-- A commit of `w` words of the reservation `r` has made its packet visible. -/
structure Committed (s t : State) (q : Nat) (pre post : List Resv) (r : Resv) (w : Nat) : Prop where
  eq : t = { s with mem := t.mem, prt := t.prt, slip := t.slip }
  sq : getSq t q = { getSq s q with
    commit := (getSq s q).commit + 1, resolved := w64 (r.pos + r.len)
    items := pre ++ { r with state := .visible (getSq s q).commit.toNat w } :: post }
  other (j : Nat) (h : j ≠ q) : getSq t j = getSq s j
  grant (i m c : Nat) : getGrant t i m c = getGrant s i m c
  bytes : t.mem.bytes = memWrite s.mem.bytes (frameAddr (getSq s q) (getSq s q).commit.toNat) (frameBytes s r w)

/-- An open reservation marked as committed. -/
theorem commitAt_eq {pre post : List Resv} {r : Resv} (w : Nat) (hx : (getSq s q).items = pre ++ r :: post)
    (hst : r.state = .opened) (hothers : ∀ y ∈ pre ++ post, y.pos ≠ r.pos) : ∃ u, commitAt s q r.pos w =
      advanceQ q (pre ++ { r with state := .committed w } :: post) u ∧ u = { s with slip := u.slip } ∧
      getSq u q = { getSq s q with items := pre ++ { r with state := .committed w } :: post } ∧
      (∀ j, j ≠ q → getSq u j = getSq s j) ∧ ∀ i m c, getGrant u i m c = getGrant s i m c := by
  have hmap : (getSq s q).items.map (fun y => if y.pos = r.pos && y.state = .opened then { y with state := .committed w } else y)
      = pre ++ { r with state := .committed w } :: post := by
    rw [hx]
    exact map_at (p := fun y => (y.pos = r.pos && y.state = .opened) = true) (by simp [hst]) (fun y hy => by simp [hothers y hy]) fun y => { y with state := .committed w }
  refine ⟨modSq s q fun x => { x with
    items := x.items.map fun y => if y.pos = r.pos && y.state = .opened then { y with state := .committed w } else y },
    ?_, rfl, ?_, fun j hj => getSq_modSq_ne s q _ hj, fun i m c => rfl⟩
  · rw [commitAt, advanceAll, getSq_modSq]
    exact congrArg (advanceQ q · _) hmap
  · rw [getSq_modSq, hmap]

theorem committed_of {pre post : List Resv} {r : Resv} {w : Nat} (hs : Claim.clean s)
    (hx : (getSq s q).items = pre ++ r :: post) (hst : r.state = .opened)
    (hpre : ∀ y ∈ pre, y.pos < (getSq s q).resolved.toNat) (hr : (getSq s q).resolved.toNat ≤ r.pos) (hlen : 1 ≤ r.len)
    (hend : r.pos + r.len < 2 ^ 64) (hpost : ∀ y ∈ post, r.pos + r.len ≤ y.pos ∧ y.state = .opened)
    (hring : (getSq s q).base.toNat + (getSq s q).size * 48 ≤ cacheBase) :
    Committed s (commitAt s q r.pos w) q pre post r w := by
  have hothers : ∀ y ∈ pre ++ post, y.pos ≠ r.pos := fun y hy => by
    rcases List.mem_append.1 hy with hy | hy
    · have := hpre y hy; omega
    · have := (hpost y hy).1; omega
  obtain ⟨u, hu, hue, husq, huother, hugrant⟩ := commitAt_eq w hx hst hothers
  obtain ⟨t, ht, hshown⟩ := advanceQ_committed (s := u) (q := q) (r := { r with state := .committed w }) (w := w)
    (by rw [hue]; exact hs) rfl (by rw [husq]; exact hr) (by rw [husq]; exact hring) post
  have hsq : getSq t q = { getSq s q with
      commit := (getSq s q).commit + 1, resolved := w64 (r.pos + r.len)
      items := pre ++ { r with state := .visible (getSq s q).commit.toNat w } :: post } := by
    rw [hshown.sq, husq]
    have hmap := map_at (pre := pre) (post := post) (r := { r with state := .committed w }) (p := fun y => y.pos = r.pos) rfl
      hothers fun y => { y with state := .visible (getSq s q).commit.toNat w }
    simp only [shownQ, hmap]
  have hstop : advanceQ q post t = t := by
    cases post with
    | nil => rfl
    | cons y l =>
      obtain ⟨hy, hyst⟩ := hpost y (List.mem_cons_self ..)
      refine advanceQ_open hyst ?_ l
      rw [hsq, w64, BitVec.toNat_ofNat, Nat.mod_eq_of_lt hend]
      exact hy
  have hresult : commitAt s q r.pos w = t := by
    rw [hu, advanceQ_past (by rw [husq]; exact hpre), ht, hstop]
  rw [hresult]
  refine ⟨?_, hsq, fun j hj => (hshown.other j hj).trans (huother j hj), fun i m c => (hshown.grant i m c).trans (hugrant i m c), ?_⟩
  · rw [hshown.eq, hue]
  · rw [hshown.bytes, husq, hue]; rfl

/-- A commit behind an open reservation waits for it. -/
theorem committed_behind {pre post : List Resv} {r y : Resv} {l : List Resv} {w : Nat}
    (hx : (getSq s q).items = pre ++ r :: post) (hst : r.state = .opened) (hothers : ∀ z ∈ pre ++ post, z.pos ≠ r.pos)
    (hy : pre = y :: l) (hyst : y.state = .opened) (hypos : (getSq s q).resolved.toNat ≤ y.pos) :
    getSq (commitAt s q r.pos w) q = { getSq s q with items := pre ++ { r with state := .committed w } :: post } ∧
    commitAt s q r.pos w = { s with slip := (commitAt s q r.pos w).slip } := by
  obtain ⟨u, hu, hue, husq, -⟩ := commitAt_eq w hx hst hothers
  subst hy
  rw [List.cons_append, advanceQ_open hyst (by rw [husq]; exact hypos)] at hu
  rw [hu]
  exact ⟨husq, hue⟩

end

end Sys2Proof.Proofs
end

