-- ==== Sys2Proof/Proofs/Pushes.lean ====
section
/-! PROOFS. PUSH on a queue of this module (spec/08 R203). -/

namespace Sys2Proof.Proofs

open Sys2Proof Sys2Proof.Machine Sys2Proof.Laws

/-- What a completion that is only a report leaves of a state. -/
theorem completeHead_ok_same (s : State) (e : Eng) (c : Nat) (q : QCmd) :
    (completeHead s e c q .ok).mem = s.mem ∧ (completeHead s e c q .ok).slip = s.slip ∧
    (completeHead s e c q .ok).routers = s.routers := by
  rw [completeHead, completeCmd_good _ _ _ _ rfl]
  have hr : Fr 205056 (popQ s e c) (reportCmd (popQ s e c) q.origin .ok) := reportCmd_fr (by decide) (.refl _ _)
  exact ⟨hr.same .mem rfl, hr.same .slip rfl, hr.same .routers rfl⟩

section
variable {s : State} {c : Nat} {b : Bytes} {x : SlipQ}

/-- The words of a PUSH are copied into the ring. -/
theorem pushCopy_of {pos n src : Nat} (hs : Claim.clean s)
    (hread : ∀ j, j < n → mayAccess s (whoOf slipEng c) (src + 32 * j) 32 false = true) (hn : n ≤ x.size)
    (hring : x.base.toNat + x.size * 48 ≤ cacheBase)
    (hapart : src + 32 * n ≤ x.base.toNat ∨ x.base.toNat + x.size * 48 ≤ src) :
    ∃ t, runActVal ((List.range n).forM fun i => do
        let w ← rd (whoOf slipEng c) (src + 32 * i) 32
        wr (whoManager c) (wordAddr x (pos + i)) w) s = (.ok (), t) ∧
      WordsAt s t x pos n fun j => memRead s.mem.bytes (src + 32 * j) 32 := by
  refine words_written hs hn (fun i _ => memRead_length _ _ _) fun i hi u hu => ?_
  obtain ⟨v, hv, hcharged⟩ := rd_of_clean hu.clean (by rw [mayAccess_of_samePrt hu.prt]; exact hread i hi)
  have hsame : memRead u.mem.bytes (src + 32 * i) 32 = memRead s.mem.bytes (src + 32 * i) 32 :=
    memRead_congr fun a h1 h2 => hu.rest a fun j hj => by
      have hb := wordAddr_bounds x (pos + j)
      omega
  rw [hsame] at hv
  obtain ⟨t, ht, hw⟩ := wr_of_clean (w := whoManager c) (a := wordAddr x (pos + i)) (b := memRead s.mem.bytes (src + 32 * i) 32)
    (clean_of_mem hu.clean hcharged.mem) (by rw [memRead_length]; exact mayAccess_word hring v c (pos + i))
  exact ⟨t, by rw [runActVal_bind_ok hv, ht], by simpa using (hcharged.wrote _).append (c := _) (by simpa using hw)⟩

/-- The packet that a PUSH of `n` words makes. -/
theorem pushWords_of {n : Nat} (hq : getSq s (slipQid b) = x) (hb : fld b 16 4 = n) (hone : 1 ≤ n) (hs : Claim.clean s)
    (hread : ∀ j, j < n → mayAccess s (whoOf slipEng c) (fld b 8 8 + 32 * j) 32 false = true) (hn : n ≤ x.size)
    (hring : x.base.toNat + x.size * 48 ≤ cacheBase)
    (hapart : fld b 8 8 + 32 * n ≤ x.base.toNat ∨ x.base.toNat + x.size * 48 ≤ fld b 8 8)
    (hend : x.resv.toNat + n < 2 ^ 64) (hres : x.resolved = x.resv) (hitems : ∀ r ∈ x.items, r.pos < x.resv.toNat) :
    ∃ u t, pushWords s c b = (.ok, t) ∧
      WordsAt (reserve s (slipQid b) (ownModule s) c n none 0 none) u x x.resv.toNat n
        (fun j => memRead s.mem.bytes (fld b 8 8 + 32 * j) 32) ∧
      Committed u t (slipQid b) x.items [] (newResv x (ownModule s) c n none 0 none) n := by
  obtain ⟨s₁, hs₁⟩ : ∃ s₁, s₁ = reserve s (slipQid b) (ownModule s) c n none 0 none := ⟨_, rfl⟩
  have heq : s₁ = { s with slip := s₁.slip } := by rw [hs₁]; rfl
  have hsq : getSq s₁ (slipQid b) = { x with
      resv := x.resv + w64 n, items := x.items ++ [newResv x (ownModule s) c n none 0 none] } := by
    rw [hs₁, getSq_reserve, hq]
  have hread₁ : ∀ j, j < n → mayAccess s₁ (whoOf slipEng c) (fld b 8 8 + 32 * j) 32 false = true := fun j hj => by
    rw [heq]; exact hread j hj
  have hplace : ∀ p, wordAddr (getSq s₁ (slipQid b)) p = wordAddr x p := fun p => by rw [hsq]; rfl
  obtain ⟨u, hu, hw⟩ := pushCopy_of (x := x) (pos := x.resv.toNat) (by rw [heq]; exact hs) hread₁ hn hring hapart
  have hmem : s₁.mem = s.mem := by rw [heq]
  rw [hmem] at hw
  have husq := getSq_of_slip hw.slip (slipQid b)
  rw [hsq] at husq
  have hcommit := committed_of (s := u) (q := slipQid b) (pre := x.items) (post := [])
    (r := newResv x (ownModule s) c n none 0 none) (w := n) hw.clean (by rw [husq]) rfl
    (by rw [husq]; dsimp only; rw [hres]; exact hitems) (by rw [husq]; dsimp only; rw [hres]; exact Nat.le_refl _) hone hend
    (fun y hy => absurd hy List.not_mem_nil) (by rw [husq]; exact hring)
  refine ⟨u, _, ?_, by rw [← hs₁]; exact hw, hcommit⟩
  have hloop := runAct_ok hu
  rw [pushWords, hb, hq, ← hs₁]
  simp only [hplace]
  rw [hloop]
  rfl

end

/-- A PUSH that is well formed asks for 1 to 4,096 words. -/
theorem slipCmdOk_push {b : Bytes} (hop : cmdOp b = 0x60) (h : slipCmdOk b = true) : 1 ≤ fld b 16 4 ∧ fld b 16 4 ≤ 4096 := by
  simp only [slipCmdOk, hop, Bool.and_eq_true] at h
  obtain ⟨⟨⟨-, hn⟩, -⟩, -⟩ := h
  simpa using hn

/-- Settles O35: with room the copied words, then the frame, are the only writes; the packet is the last reservation and all
before it is resolved. -/
theorem pushStoresItsPacket : Obligations.PushStoresItsPacket := by
  intro c q s hc hhead hok hmod i x n src pos hen
  have hrow (f : QCmd → State) : headRow s slipEng c slipOps 0x60 f = f q := headRow_runs hhead rfl f
  have hhere : pushHere s q.bytes = true := by simp [pushHere, hmod]
  have hgrant : pushGrant s c q.bytes = getGrant s i (ownModule s) c := by rw [pushGrant, hhere, if_pos rfl, hmod]
  have hpush : exec (.push c) s = .next (match checkCredit s (getGrant s i (ownModule s) c) c i n q.checked with
      | .overflow o => completeHead s slipEng c q .mapOverflow o
      | .waits => markHead s slipEng c
      | .room => match takeTurn s slipEng 0 c (slipReady s) with
        | none => markHead s slipEng c
        | some s => completeHead (pushWords s c q.bytes).2 slipEng c q (pushWords s c q.bytes).1) := by
    have hgo : exec (.push c) s = .next (pushHead s c) := rfl
    rw [hgo, pushHead, hrow]
    have hen' : (getSq s (slipQid q.bytes)).enable = true := hen
    simp only [hok, hhere, hen', hgrant, Bool.not_true, Bool.false_and, Bool.and_false, Bool.false_eq_true, if_false, if_true]
    rfl
  refine ⟨fun hcredit => ?_, fun hcredit hturn hs hread hn hring hapart hend hres hitems => ?_⟩
  · rw [hcredit] at hpush
    exact does_of hpush ⟨modHead_queue hhead.1 _, (markHead_queue hhead.1).2⟩
  · obtain ⟨u, hu, hturned⟩ := takeTurn_of hturn
    rw [hcredit, hu] at hpush
    have hslip : u.slip = s.slip := by rw [hturned.eq]
    have hown : ownModule u = ownModule s := ownModule_of_fry (by rw [hturned.eq])
    have hmem : u.mem = s.mem := by rw [hturned.eq]
    have hone : 1 ≤ n := (slipCmdOk_push hhead.2.2 hok).1
    obtain ⟨v, t, ht, hw, hcommit⟩ := pushWords_of (s := u) (c := c) (b := q.bytes) (x := x) (n := n) (getSq_of_slip hslip i)
      rfl hone (clean_of_mem hs hmem) (fun j hj => by rw [mayAccess_of_samePrt (by rw [hturned.eq]; exact .refl _)]; exact hread j hj)
      hn hring hapart hend hres hitems
    rw [hown] at hw hcommit
    dsimp only at hpush
    rw [ht] at hpush
    obtain ⟨hfmem, hfslip, -⟩ := completeHead_ok_same t slipEng c q
    have hvsq : getSq v i = { x with resv := x.resv + w64 n, items := x.items ++ [newResv x (ownModule s) c n none 0 none] } := by
      rw [getSq_of_slip hw.slip, getSq_reserve, getSq_of_slip hslip]
    have htsq : getSq (completeHead t slipEng c q .ok) i = { x with
        resv := x.resv + w64 n, commit := x.commit + 1, resolved := w64 (pos + n)
        items := x.items ++ [{ newResv x (ownModule s) c n none 0 none with state := .visible x.commit.toNat n }] } := by
      rw [getSq_of_slip hfslip]
      exact hcommit.sq.trans (by rw [hvsq]; rfl)
    have hbytes : (completeHead t slipEng c q .ok).mem.bytes = memWrite v.mem.bytes (frameAddr x x.commit.toNat)
        (frameBytes v (newResv x (ownModule s) c n none 0 none) n) := by
      rw [hfmem, hcommit.bytes]
      have : getSq v (slipQid q.bytes) = _ := hvsq
      rw [this]
      rfl
    have hlen := frameBytes_length v (newResv x (ownModule s) c n none 0 none) n
    have hframe := (frameAddr_bounds x x.commit.toNat).1
    have hvown : ownModule v = ownModule s := ownModule_of_fry (by rw [hw.eq, reserve, hturned.eq]; rfl)
    refine does_of hpush ⟨?_, by rw [htsq]; rfl, by rw [htsq], ?_, ?_, ?_, fun j hj => ?_, ?_, fun a ha hb => ?_, fun j hj => ?_⟩
    · have hengs : SameQueues s t := by
        refine hturned.sameQueues.trans (.of_engs ?_)
        rw [hcommit.eq, hw.eq]; rfl
      exact headGone_of_same hengs ⟨fun _ _ => rfl, fun _ => rfl⟩ (completeHead_gone t slipEng c q (st := .ok) rfl {}).1
    · rw [htsq]
      simp [w64, pos, BitVec.ofNat_add]
    · exact ⟨{ newResv x (ownModule s) c n none 0 none with state := .visible x.commit.toNat n }, by rw [htsq]; simp, rfl, rfl, rfl⟩
    · rw [getGrant_of_slip hfslip, hcommit.grant, getGrant_of_slip hw.slip]
      exact (getGrant_reserve _ _ _ _ _ _ _ _).trans (by rw [getGrant_of_slip hslip]; rfl)
    · rw [hbytes, memRead_memWrite_apart _ _ _ _ _ (.inl (by have := (wordAddr_bounds x (pos + j)).2; omega)), hw.words j hj, hmem]
    · rw [hbytes]
      have hback := memRead_memWrite v.mem.bytes (frameAddr x x.commit.toNat) (frameBytes v (newResv x (ownModule s) c n none 0 none) n)
      rw [hlen] at hback
      rw [hback, frameBytes, hvown]
      simp [newResv, b2n, toLe, pos]
    · rw [hbytes, memGet_memWrite_apart _ _ _ _ (by rw [hlen]; exact hb), hw.rest a ha]
      exact congrArg (fun m => memGet m.bytes a) hmem
    · rw [getSq_of_slip hfslip, hcommit.other j hj, getSq_of_slip hw.slip]
      exact (getSq_reserve_ne _ _ _ _ _ _ _ _ hj).trans (getSq_of_slip hslip j)

end Sys2Proof.Proofs
end

