-- ==== Sys2Proof/Proofs/Producers.lean ====
section
/-! PROOFS. The producers of a queue other than PUSH: reserving, committing, rewinding (spec/08 R191-R196). -/

namespace Sys2Proof.Proofs

open Sys2Proof Sys2Proof.Machine Sys2Proof.Laws

/-! ### Rewinding -/

theorem sendCredit_frame (s : State) (m q c words : Nat) : sendCredit s m q c words = { s with fry := (sendCredit s m q c words).fry } :=
  (sendCredit_fr (mk := 256) (by decide) (Fr.refl _ _) : Fr 256 s (sendCredit s m q c words)).eq_merge

theorem Grant.giveBack_held (g : Grant) (n : Nat) : (g.giveBack n).held.toNat = g.held.toNat - n := by
  rw [Grant.giveBack, BitVec.toNat_ofNat, Nat.mod_eq_of_lt]
  have := g.held.isLt
  omega

section
variable {s : State} {q : Nat} {pre post : List Resv} {r : Resv}

/-- The newest reservation, rewound, gives its positions and its credit back. -/
theorem rewindAt_newest (hx : (getSq s q).items = pre ++ r :: post) (hst : r.state = .opened)
    (hothers : ∀ y ∈ pre ++ post, y.pos ≠ r.pos) (hlast : r.pos + r.len = (getSq s q).resv.toNat) :
    getSq (rewindAt s q r.pos) q = { getSq s q with resv := w64 r.pos, items := pre ++ post } ∧
    getGrant (rewindAt s q r.pos) q r.module r.ctx = (getGrant s q r.module r.ctx).giveBack r.len ∧
    (rewindAt s q r.pos).slip.rewound = s.slip.rewound + 1 ∧ (rewindAt s q r.pos).mem = s.mem := by
  have hopen := openAt_of hx hst fun y hy => hothers y (List.mem_append_left _ hy)
  obtain ⟨u, hu⟩ : ∃ u, u = modSlip s fun x => { x with rewound := x.rewound + 1 } := ⟨_, rfl⟩
  have husq : getSq u q = getSq s q := by rw [hu]; exact getSq_modSlip rfl q
  obtain ⟨v, hv⟩ : ∃ v, v = modSq u q fun x => { x with
      resv := w64 r.pos, items := x.items.filter fun y => y.pos ≠ r.pos } := ⟨_, rfl⟩
  obtain ⟨z, hz⟩ : ∃ z, z = modGrant v q r.module r.ctx fun g => g.giveBack r.len := ⟨_, rfl⟩
  have hgo : rewindAt s q r.pos = sendCredit z r.module q r.ctx r.len := by
    rw [rewindAt, hopen]
    dsimp only
    rw [← hu, husq, if_pos hlast, ← hv, ← hz]
  have hfilter : (getSq s q).items.filter (fun y => decide (y.pos ≠ r.pos)) = pre ++ post := by
    rw [hx, List.filter_append, List.filter_cons_of_neg (by simp), ← List.filter_append, List.filter_eq_self]
    exact fun y hy => decide_eq_true (hothers y hy)
  have hframe := sendCredit_frame z r.module q r.ctx r.len
  rw [← hgo] at hframe
  have hslip : (rewindAt s q r.pos).slip = z.slip := by rw [hframe]
  refine ⟨?_, ?_, by rw [hslip, hz, hv, hu]; rfl, by rw [hframe, hz, hv, hu]; rfl⟩
  · rw [getSq_of_slip hslip, hz, getSq_modGrant, hv, getSq_modSq, husq, hfilter]
  · rw [getGrant_of_slip hslip, hz, getGrant_modGrant, hv, getGrant_modSq, hu]
    rfl

/-- Another open reservation, rewound, becomes a hole; nothing becomes visible while one before it is open. -/
theorem rewindAt_hole (hx : (getSq s q).items = pre ++ r :: post) (hst : r.state = .opened)
    (hothers : ∀ y ∈ pre ++ post, y.pos ≠ r.pos) (hnot : r.pos + r.len ≠ (getSq s q).resv.toNat) {y : Resv} {l : List Resv}
    (hy : pre = y :: l) (hyst : y.state = .opened) (hypos : (getSq s q).resolved.toNat ≤ y.pos) :
    getSq (rewindAt s q r.pos) q = { getSq s q with items := pre ++ { r with state := .hole } :: post } ∧
    (rewindAt s q r.pos).slip.rewound = s.slip.rewound + 1 ∧
    rewindAt s q r.pos = { s with slip := (rewindAt s q r.pos).slip } := by
  have hopen := openAt_of hx hst fun y hy => hothers y (List.mem_append_left _ hy)
  obtain ⟨u, hu⟩ : ∃ u, u = modSlip s fun x => { x with rewound := x.rewound + 1 } := ⟨_, rfl⟩
  have husq : getSq u q = getSq s q := by rw [hu]; exact getSq_modSlip rfl q
  have hmap : (getSq s q).items.map (fun y => if y.pos = r.pos then { y with state := .hole } else y) =
      pre ++ { r with state := .hole } :: post := by
    rw [hx]
    exact map_at (p := fun y => y.pos = r.pos) rfl hothers fun y => { y with state := .hole }
  obtain ⟨v, hv⟩ : ∃ v, v = modSq u q fun x => { x with
    items := x.items.map fun y => if y.pos = r.pos then { y with state := .hole } else y } := ⟨_, rfl⟩
  have hvsq : getSq v q = { getSq s q with items := pre ++ { r with state := .hole } :: post } := by
    rw [hv, getSq_modSq, husq, hmap]
  have hgo : rewindAt s q r.pos = v := by
    rw [rewindAt, hopen]
    dsimp only
    rw [← hu, husq, if_neg hnot, ← hv, advanceAll, hvsq]
    subst hy
    exact advanceQ_open hyst (by rw [hvsq]; exact hypos) _
  rw [hgo]
  exact ⟨hvsq, by rw [hv, hu]; rfl, by rw [hv, hu]; rfl⟩

end

/-! ### The rows -/

/-- A producer's reservation is within the bounds of a packet, on an enabled queue. -/
theorem reserves_inBounds {s : State} {i n : Nat} (hen : (getSq s i).enable = true) (h1 : 1 ≤ n) (h2 : n ≤ 4096) :
    ¬ (!(getSq s i).enable || n = 0 || 4096 < n) = true := by
  rw [hen]
  simp
  omega

theorem frameBytes_of_fry {s t : State} (h : t.fry = s.fry) (r : Resv) (w : Nat) : frameBytes t r w = frameBytes s r w := by
  unfold frameBytes
  rw [ownModule_of_fry h]

/-- The words of an open reservation of its producer are written, then committed. -/
theorem producerCommit_of {s t : State} {i w : Nat} {e : Eng} {words : Bytes} {r : Resv} (hopen : openAt s i r.pos = some r)
    (he : r.eng = some e) (hlen : words.length = 32 * w) (h1 : 1 ≤ w) (h2 : w ≤ r.len)
    (hw : writeWords s (whoOf e r.ctx) i r.pos words = (.ok, t)) : producerCommit s i r.pos words = commitAt t i r.pos w := by
  have hn : words.length / 32 = w := by omega
  rw [producerCommit, hopen]
  dsimp only
  rw [he]
  dsimp only
  rw [hn, if_neg (by simp; omega), hw]

theorem producersReserve : Claim.producersReserve := by
  refine ⟨fun i c n e s hc hen h1 h2 => ?_, fun i w e words pre post r s => ?_, fun i pre post r s => ?_⟩
  · intro x g
    have hrow : exec (.slipReserve i e c n) s = .next (producerReserve s i e c n) := rfl
    rw [producerReserve, if_neg (reserves_inBounds hen h1 h2)] at hrow
    refine ⟨fun hcredit => ?_, fun hcredit => ?_, fun o q hcredit hq => ?_⟩
    · rw [hcredit] at hrow
      exact does_of hrow ⟨getSq_reserve _ _ _ _ _ _ _ _, getGrant_reserve _ _ _ _ _ _ _ _,
        fun j hj => getSq_reserve_ne _ _ _ _ _ _ _ _ hj, rfl⟩
    · rw [hcredit] at hrow
      exact hrow
    · rw [hcredit] at hrow
      dsimp only at hrow
      rw [producerFails, hq] at hrow
      exact does_of hrow ⟨completeHead_fails s e c q rfl o,
        (completeHead_fr (mk := 1253756) (by decide) (Fr.refl _ _) : Fr 1253756 s (completeHead s e c q .mapOverflow o)).same .slip rfl⟩
  · intro x hx hst he hlen h1 h2 hsize hend hs hmay hpost hpre
    have hothers : ∀ y ∈ pre ++ post, y.pos ≠ r.pos := fun y hy => by
      rcases List.mem_append.1 hy with hy | hy
      · have := hpre y hy; omega
      · have := (hpost y hy).1; omega
    obtain ⟨u, hu, hw⟩ := writeWords_of (q := i) (pos := r.pos) hs hlen hsize hmay
    have hrow : exec (.slipCommit i r.pos words) s = .next (commitAt u i r.pos w) := congrArg Host.Outcome.next
      (producerCommit_of (openAt_of hx hst fun y hy => hothers y (List.mem_append_left _ hy)) he hlen h1 h2 hu)
    have husq : getSq u i = x := getSq_of_slip hw.slip i
    refine ⟨fun hvisible hreached hring => ?_, fun y rest hy hyst hypos => ?_⟩
    · have hcommit := committed_of (s := u) (q := i) (pre := pre) (post := post) (r := r) (w := w) hw.clean
        (by rw [husq]; exact hx) hst (by rw [husq]; exact hvisible) (by rw [husq]; exact hreached) (by omega) hend hpost
        (by rw [husq]; exact hring)
      have hbytes := hcommit.bytes
      have hfb := frameBytes_length u r w
      have hframe := (frameAddr_bounds x x.commit.toNat).1
      rw [husq] at hbytes
      refine does_of hrow ⟨by rw [hcommit.sq, husq]; rfl, fun j hj => ?_, ?_, fun a ha hb => ?_, fun j hj => ?_⟩
      · rw [hbytes, memRead_memWrite_apart _ _ _ _ _ (.inl (by have := (wordAddr_bounds x (r.pos + j)).2; omega))]
        exact hw.words j hj
      · rw [hbytes]
        have hback := memRead_memWrite u.mem.bytes (frameAddr x x.commit.toNat) (frameBytes u r w)
        rw [hfb] at hback
        exact hback.trans (frameBytes_of_fry (by rw [hw.eq]) r w)
      · rw [hbytes, memGet_memWrite_apart _ _ _ _ (by rw [hfb]; exact hb)]
        exact hw.rest a ha
      · rw [hcommit.other j hj]
        exact getSq_of_slip hw.slip j
    · obtain ⟨hsq, heq⟩ := committed_behind (s := u) (q := i) (w := w) (by rw [husq]; exact hx) hst hothers hy hyst
        (by rw [husq]; exact hypos)
      refine does_of hrow ⟨by rw [hsq, husq], fun j hj => ?_, ?_⟩
      · rw [heq]
        exact hw.words j hj
      · rw [heq, hw.eq]
  · intro x hx hst hothers
    refine ⟨fun hlast => ?_, fun y rest hnot hy hyst hypos => ?_⟩
    · obtain ⟨hsq, hgrant, hcount, hmem⟩ := rewindAt_newest hx hst hothers hlast
      exact does_of rfl ⟨hsq, by rw [hgrant, Grant.giveBack_held], hcount, hmem⟩
    · exact does_of rfl (rewindAt_hole hx hst hothers hnot hy hyst hypos)

end Sys2Proof.Proofs
end

