-- ==== Sys2Proof/Proofs/Ferries.lean ====
section
/-! PROOFS. What an operation that only puts frames in line leaves of the ferry block (spec/16 R404, R408). -/

namespace Sys2Proof.Proofs

open Sys2Proof Sys2Proof.Machine Sys2Proof.Laws

/-- Of the ferry block only frames put in line, the operations in flight, and the round robin of ports may be new. -/
structure CalmFry (x y : FrySt) : Prop where
  eq : y = { x with paths := y.paths, turn := y.turn, nextTag := y.nextTag, ops := y.ops, writes := y.writes }
  path (k : Nat) : ∃ fs, tabGet {} y.paths k = { tabGet {} x.paths k with sendq := (tabGet {} x.paths k).sendq ++ fs }

/-- See `CalmFry`. -/
def Calm (s t : State) : Prop := CalmFry s.fry t.fry

theorem CalmFry.refl (x : FrySt) : CalmFry x x := ⟨rfl, fun k => ⟨[], by rw [List.append_nil]⟩⟩

theorem CalmFry.trans {x y z : FrySt} (h : CalmFry x y) (h' : CalmFry y z) : CalmFry x z := by
  refine ⟨by rw [h'.eq, h.eq], fun k => ?_⟩
  obtain ⟨fs, hfs⟩ := h.path k
  obtain ⟨gs, hgs⟩ := h'.path k
  exact ⟨fs ++ gs, by rw [hgs, hfs, List.append_assoc]⟩

theorem steady_calm : Steady Calm := ⟨fun s => .refl s.fry, fun h h' => CalmFry.trans h h'⟩

theorem Calm.of_fry {s t : State} (h : t.fry = s.fry) : Calm s t := by rw [Calm, h]; exact .refl _

/-- What leaves the ferry block does not matter before. -/
theorem Calm.after {s u t : State} (h : Calm u t) (hf : u.fry = s.fry) : Calm s t := steady_calm.trans (.of_fry hf) h

section
variable {s t : State} (h : Calm s t)
include h

theorem Calm.ownModule : ownModule t = ownModule s := by rw [Machine.ownModule, h.eq]; rfl

theorem Calm.getPort (p : Nat) : getPort t p = getPort s p := by rw [Machine.getPort, h.eq]; rfl

theorem Calm.getPath (p x : Nat) : ∃ fs, getPath t p x = { getPath s p x with sendq := (getPath s p x).sendq ++ fs } :=
  h.path (pathKey p x)

theorem Calm.state (p x : Nat) : (Machine.getPath t p x).state = (Machine.getPath s p x).state := by
  obtain ⟨fs, hfs⟩ := h.getPath p x
  rw [hfs]

end

theorem calm_modPath {s : State} {p x : Nat} {f : PathSt → PathSt} {fs : List FFrame}
    (hf : f (getPath s p x) = { getPath s p x with sendq := (getPath s p x).sendq ++ fs }) : Calm s (modPath s p x f) := by
  refine ⟨rfl, fun k => ?_⟩
  by_cases hk : pathKey p x = k
  · subst hk
    exact ⟨fs, (tabGet_tabMod_self _ _ _ _).trans hf⟩
  · exact ⟨[], by rw [List.append_nil]; exact tabGet_tabPut_ne _ _ _ hk⟩

@[simp] theorem getPath_modPath (s : State) (p x : Nat) (f : PathSt → PathSt) : getPath (modPath s p x f) p x = f (getPath s p x) := by
  rw [getPath, modPath, modFry]
  exact tabGet_tabMod_self _ _ _ _

theorem getPath_queueFrame (s : State) (p x : Nat) (f : FFrame) :
    getPath (queueFrame s p x f) p x = { getPath s p x with sendq := (getPath s p x).sendq ++ [f] } := getPath_modPath s p x _

theorem calm_queueFrame (s : State) (p x : Nat) (f : FFrame) : Calm s (queueFrame s p x f) := calm_modPath (fs := [f]) rfl

theorem calm_choosePort {s t : State} {x p : Nat} (h : choosePort s x = some (p, t)) : Calm s t := by
  unfold choosePort at h
  dsimp only at h
  split at h
  · obtain ⟨-, rfl⟩ := Prod.mk.inj (Option.some.inj h)
    exact ⟨rfl, (CalmFry.refl s.fry).path⟩
  · exact absurd h (by simp)

theorem calm_startOp (s : State) (p x total : Nat) (w : Waiter) : Calm s (startOp s p x total w).2 :=
  ⟨rfl, (CalmFry.refl s.fry).path⟩

theorem calm_sendCredit (s : State) (m q c words : Nat) : Calm s (sendCredit s m q c words) := by
  unfold sendCredit
  split
  · exact steady_calm.refl s
  · split
    next h => exact steady_calm.trans (calm_choosePort h) (calm_queueFrame _ _ _ _)
    next => exact steady_calm.refl s

theorem calm_replyTo (s : State) (p : Nat) (f : FFrame) (op arg : Nat) : Calm s (replyTo s p f op arg) := calm_queueFrame _ _ _ _

theorem calm_queueWrite (s : State) (p x vc ctx : Nat) (tag : BitVec 32) (addr : Nat) (b : Bytes) :
    Calm s (queueWrite s p x vc ctx tag addr b) := steady_calm.foldl (fun _ _ => calm_queueFrame _ _ _ _) _ _

theorem calm_purserSend (s : State) (m : Nat) (msg : PurserMsg) : Calm s (purserSend s m msg) := by
  unfold purserSend
  split
  next h => exact steady_calm.trans (calm_choosePort h) (calm_queueFrame _ _ _ _)
  next => exact steady_calm.refl s

theorem calm_advanceAll (s : State) (q : Nat) : Calm s (advanceAll s q) :=
  .of_fry ((advanceAll_fr (mk := 1048748) (by decide) (Fr.refl _ _) : Fr 1048748 s (advanceAll s q)).same .fry rfl)

theorem calm_rewindAt (s : State) (q pos : Nat) : Calm s (rewindAt s q pos) := by
  unfold rewindAt
  split
  · exact steady_calm.refl s
  · dsimp only
    split
    · exact (calm_sendCredit _ _ _ _ _).after rfl
    · exact (calm_advanceAll _ _).after rfl

end Sys2Proof.Proofs
end

