-- ==== Sys2Proof/Proofs/Rings.lean ====
section
/-! PROOFS. A queue enabled and disabled: its ring, its grants, and the commands that name it (spec/08 R193, R206). -/

namespace Sys2Proof.Proofs

open Sys2Proof Sys2Proof.Machine Sys2Proof.Laws

/-! ### Grants that persist -/

/-- A key below all keys of a table is not in it. -/
theorem tabGet_below {α : Type} (d : α) {t : Tab α} {k : Nat} (h : ∀ e ∈ t, k < e.1) : tabGet d t k = d := by
  induction t with
  | nil => rfl
  | cons e t ih =>
    rw [tabGet, if_neg (by have := h e (List.mem_cons_self ..); omega)]
    exact ih fun e he => h e (List.mem_cons_of_mem _ he)

/-- Leaving out the entries with the default value leaves what a table in order says. -/
theorem tabGet_filter_default {α : Type} [DecidableEq α] (d : α) {t : Tab α} (ht : t.Pairwise fun a b => a.1 < b.1) (k : Nat) :
    tabGet d (t.filter fun e => e.2 ≠ d) k = tabGet d t k := by
  induction t with
  | nil => rfl
  | cons e t ih =>
    obtain ⟨i, v⟩ := e
    obtain ⟨hlt, ht'⟩ := List.pairwise_cons.1 ht
    by_cases hv : v = d
    · subst hv
      rw [List.filter_cons_of_neg (by simp), ih ht', tabGet]
      split
      next hk => subst hk; exact tabGet_below v hlt
      next => rfl
    · rw [List.filter_cons_of_pos (by simpa using hv), tabGet, tabGet, ih ht']

/-- The grants of a queue that starts: nothing of them is held. -/
def startGrants (q : Nat) (l : Tab Grant) : Tab Grant :=
  (l.map fun e => if e.1 / (4096 * 128) = q then (e.1, { e.2 with held := 0 }) else e).filter fun e => e.2 ≠ {}

theorem startGrants_map (q : Nat) (l : Tab Grant) :
    (l.map fun e => if e.1 / (4096 * 128) = q then (e.1, { e.2 with held := 0 }) else e) =
      tabMap (fun k g => if k / (4096 * 128) = q then { g with held := 0 } else g) l := by
  refine List.map_congr_left fun e _ => ?_
  dsimp only
  split <;> rfl

theorem tabGet_startGrants {q : Nat} {l : Tab Grant} (hl : l.Pairwise fun a b => a.1 < b.1) {k : Nat}
    (hk : k / (4096 * 128) = q) : tabGet {} (startGrants q l) k = { granted := (tabGet {} l k).granted, held := 0 } := by
  have hsorted : (tabMap (fun k g => if k / (4096 * 128) = q then { g with held := 0 } else g) l).Pairwise fun a b => a.1 < b.1 :=
    List.Pairwise.map _ (fun _ _ h => h) hl
  rw [startGrants, startGrants_map, tabGet_filter_default _ hsorted, tabGet_tabMap _ _ _ _ (by split <;> rfl), if_pos hk]

theorem grantKey_queue (q : Nat) {m c : Nat} (hm : m < 4096) (hc : c < 128) : grantKey q m c / (4096 * 128) = q := by
  unfold grantKey
  omega

/-! ### A closing queue leaves the others -/

theorem sendCredit_slip (s : State) (m q c words : Nat) : (sendCredit s m q c words).slip = s.slip := by
  rw [sendCredit_frame]

section
variable (s : State) (q : Nat) {j : Nat} (hj : j ≠ q)
include hj

theorem getSq_advanceQ_ne (l : List Resv) : getSq (advanceQ q l s) j = getSq s j := by
  induction l generalizing s with
  | nil => rfl
  | cons r l ih =>
    unfold advanceQ
    split
    · exact ih s
    · split
      · rfl
      · rw [ih, getSq_modSq_ne _ _ _ hj]
      · rw [ih, getSq_modSq_ne _ _ _ hj]
      next w _ =>
        dsimp only
        rw [ih]
        refine (getSq_modSlip rfl j).trans ((getSq_modSq_ne _ _ _ hj).trans (getSq_of_slip ?_ j))
        exact ((wr_fr (m := 1048620) (by decide)).run (Fr.refl _ s) : Fr 1048620 s _).same .slip rfl

theorem getSq_rewindAt_ne (pos : Nat) : getSq (rewindAt s q pos) j = getSq s j := by
  unfold rewindAt
  split
  · rfl
  · dsimp only
    obtain ⟨u, hu⟩ : ∃ u, u = modSlip s fun x => { x with rewound := x.rewound + 1 } := ⟨_, rfl⟩
    have huj : getSq u j = getSq s j := by rw [hu]; exact getSq_modSlip rfl j
    rw [← hu]
    split
    · rw [getSq_of_slip (sendCredit_slip _ _ _ _ _), getSq_modGrant]
      exact (getSq_modSq_ne _ _ _ hj).trans huj
    · rw [advanceAll, getSq_advanceQ_ne _ _ hj]
      exact (getSq_modSq_ne _ _ _ hj).trans huj

theorem getSq_abortOpen_ne (r : Resv) : getSq (abortOpen q s r) j = getSq s j := by
  unfold abortOpen
  split
  · dsimp only
    split
    · exact (getSq_of_slip rfl j).trans (getSq_rewindAt_ne s q hj _)
    · exact getSq_rewindAt_ne s q hj _
  · rfl

end

theorem returnCredit_queues (q : Nat) (s : State) (r : Resv) : (returnCredit q s r).slip.queues = s.slip.queues := by
  unfold returnCredit
  dsimp only
  split
  · rfl
  · rw [sendCredit_slip]
    rfl

theorem calm_returnCredit (q : Nat) (s : State) (r : Resv) : Calm s (returnCredit q s r) := by
  unfold returnCredit
  dsimp only
  split
  · exact .of_fry rfl
  · exact (calm_sendCredit _ _ _ _ _).after rfl

theorem calm_abortOpen (q : Nat) (s : State) (r : Resv) : Calm s (abortOpen q s r) := by
  unfold abortOpen
  split
  · dsimp only
    split
    · exact steady_calm.trans (calm_rewindAt _ _ _) (calm_queueFrame _ _ _ _)
    · exact calm_rewindAt _ _ _
  · exact steady_calm.refl s

/-! ### Dispatches that fail -/

@[simp] theorem getRouter_modRouter (s : State) (k : Nat) (f : RouterSt → RouterSt) :
    getRouter (modRouter s k f) k = f (getRouter s k) := tabGet_tabMod_self _ _ _ _

theorem getRouter_modRouter_ne (s : State) (k : Nat) (f : RouterSt → RouterSt) {j : Nat} (h : k ≠ j) :
    getRouter (modRouter s k f) j = getRouter s j := tabGet_tabPut_ne _ _ _ h

theorem getRouter_of_routers {s t : State} (h : t.routers = s.routers) (k : Nat) : getRouter t k = getRouter s k := by
  rw [getRouter, h]; rfl

/-- The command in progress of a context on a router. -/
def dispOf (s : State) (k c : Nat) : Option DispOp := tabFind (getRouter s k).ops c

theorem dispOf_modRouter (s : State) (k c : Nat) (f : RouterSt → RouterSt)
    (hf : ∀ d, d ≠ c → tabFind (f (getRouter s k)).ops d = tabFind (getRouter s k).ops d) {j d : Nat} (h : ¬ (j = k ∧ d = c)) :
    dispOf (modRouter s k f) j d = dispOf s j d := by
  by_cases hj : k = j
  · subst hj
    rw [dispOf, getRouter_modRouter]
    exact hf d fun hd => h ⟨rfl, hd⟩
  · rw [dispOf, getRouter_modRouter_ne _ _ _ hj, dispOf]

/-- Of the commands in progress on routers only one context's on one router may have changed. -/
def DispOnly (s t : State) (k c : Nat) : Prop := ∀ j d, ¬ (j = k ∧ d = c) → dispOf t j d = dispOf s j d

theorem completeCmd_routers (s : State) (e : Eng) (c : Nat) (q : QCmd) (st : Status) (o : Overflow) :
    (completeCmd s e c q st o).routers = s.routers :=
  (completeCmd_fr (mk := 1253756) (by decide) (Fr.refl _ _) : Fr 1253756 s (completeCmd s e c q st o)).same .routers rfl

/-- What settling a command comes to: it ends, or stays as it is. -/
theorem settleDispatch_disp (s : State) (k c : Nat) : DispOnly s (settleDispatch s k c) k c ∧
    (dispOf (settleDispatch s k c) k c = none ∨ dispOf (settleDispatch s k c) k c = dispOf s k c) := by
  have hgone (o : DispOp) (st : Status) (v : Overflow) {t : State}
      (ht : t = completeCmd (modRouter s k fun r => { r with ops := tabDel r.ops c }) (routerEng k) c o.cmd st v) :
      DispOnly s t k c ∧ (dispOf t k c = none ∨ dispOf t k c = dispOf s k c) := by
    have hrouters : t.routers = (modRouter s k fun r => { r with ops := tabDel r.ops c }).routers := by
      rw [ht, completeCmd_routers]
    refine ⟨fun j d h => ?_, .inl ?_⟩
    · rw [dispOf, getRouter_of_routers hrouters]
      exact dispOf_modRouter s k c _ (fun d hd => (tabFind_tabDel _ _ _).trans (if_neg fun h => hd h.symm)) h
    · rw [dispOf, getRouter_of_routers hrouters, getRouter_modRouter]
      exact (tabFind_tabDel _ _ _).trans (if_pos rfl)
  unfold settleDispatch
  split
  · exact ⟨fun _ _ _ => rfl, .inr rfl⟩
  next o _ =>
    dsimp only
    split
    · split
      · exact hgone o _ _ rfl
      · exact ⟨fun _ _ _ => rfl, .inr rfl⟩
    · split
      · exact hgone o _ _ rfl
      · exact ⟨fun _ _ _ => rfl, .inr rfl⟩

theorem setDisp_of {s : State} {k c : Nat} {o : DispOp} (h : dispOf s k c = some o) (f : DispOp → DispOp) :
    setDisp s k c f = modRouter s k fun r => { r with ops := tabPut r.ops c (f o) } := by
  rw [setDisp]
  have h' : tabFind (getRouter s k).ops c = some o := h
  rw [h']

theorem setDisp_none {s : State} {k c : Nat} (h : dispOf s k c = none) (f : DispOp → DispOp) : setDisp s k c f = s := by
  rw [setDisp]
  have h' : tabFind (getRouter s k).ops c = none := h
  rw [h']

theorem setDisp_disp (s : State) (k c : Nat) (f : DispOp → DispOp) :
    DispOnly s (setDisp s k c f) k c ∧ dispOf (setDisp s k c f) k c = (dispOf s k c).map f := by
  cases h : dispOf s k c with
  | none => rw [setDisp_none h]; exact ⟨fun _ _ _ => rfl, h⟩
  | some o =>
    rw [setDisp_of h]
    refine ⟨fun j d hne => dispOf_modRouter s k c _ (fun d hd => ?_) hne, ?_⟩
    · exact (tabFind_tabPut _ _ _ _).trans (if_neg fun h => hd h.symm)
    · rw [dispOf, getRouter_modRouter]
      exact tabFind_tabPut_self _ _ _

/-- A command that fails has ended, or carries its verdict. -/
theorem failDisp_disp (s : State) (k c : Nat) (st : Status) (v : Overflow) : DispOnly s (failDisp s k c st v) k c ∧
    ∀ o, dispOf (failDisp s k c st v) k c = some o → o.verdict ≠ none := by
  obtain ⟨hset, hset'⟩ := setDisp_disp s k c fun o => { o with verdict := some (o.verdict.getD (st, v)) }
  obtain ⟨hsettle, hsettle'⟩ := settleDispatch_disp
    (setDisp s k c fun o => { o with verdict := some (o.verdict.getD (st, v)) }) k c
  refine ⟨fun j d h => (hsettle j d h).trans (hset j d h), fun o ho => ?_⟩
  rcases hsettle' with h | h
  · exact absurd (h.symm.trans ho) (by simp)
  · have hget := (h.symm.trans ho)
    rw [hset'] at hget
    obtain ⟨o', -, rfl⟩ := Option.map_eq_some_iff.1 hget
    simp

/-- A command in progress stands among the router's. -/
theorem mem_of_tabFind {α : Type} {t : Tab α} {k : Nat} {v : α} (h : tabFind t k = some v) : (k, v) ∈ t := by
  induction t with
  | nil => exact absurd h (by simp [tabFind])
  | cons e t ih =>
    obtain ⟨i, w⟩ := e
    rw [tabFind] at h
    split at h
    next hi => subst hi; rw [Option.some.inj h]; exact List.mem_cons_self ..
    next => exact List.mem_cons_of_mem _ (ih h)

/-- The commands in progress that name a queue of this module. -/
def namesQueue (own q : Nat) (o : DispOp) : Bool := o.experts.any fun x => x.module = own && x.queue = q

/-- Those of all routers. -/
def dispHits (s : State) (own q : Nat) : List (Nat × Nat) :=
  (s.routers.map fun kr => (kr.2.ops.filter fun co => namesQueue own q co.2).map fun co => (kr.1, co.1)).flatten

theorem mem_dispHits {s : State} {k c own q : Nat} {o : DispOp} (h : dispOf s k c = some o) (hn : namesQueue own q o = true) :
    (k, c) ∈ dispHits s own q := by
  have hk : ∃ r, tabFind s.routers k = some r ∧ tabFind r.ops c = some o := by
    rw [dispOf, getRouter, tabGet_of_find] at h
    cases hr : tabFind s.routers k with
    | none => rw [hr] at h; exact absurd h (by simp [tabFind])
    | some r => rw [hr] at h; exact ⟨r, rfl, h⟩
  obtain ⟨r, hr, ho⟩ := hk
  refine List.mem_flatten.2 ⟨_, List.mem_map.2 ⟨(k, r), mem_of_tabFind hr, rfl⟩, List.mem_map.2 ⟨(c, o), ?_, rfl⟩⟩
  exact List.mem_filter.2 ⟨mem_of_tabFind ho, hn⟩

/-- Failing commands one after the other fails them all. -/
theorem failDisps_disp (own q : Nat) (st : Status) (l : List (Nat × Nat)) (s : State)
    (h : ∀ k c o, dispOf s k c = some o → o.verdict = none → namesQueue own q o = true → (k, c) ∈ l) :
    ∀ k c o, dispOf (l.foldl (fun s kc => failDisp s kc.1 kc.2 st {}) s) k c = some o → o.verdict = none →
      namesQueue own q o = false := by
  induction l generalizing s with
  | nil =>
    intro k c o ho hv
    rw [Bool.eq_false_iff]
    exact fun hn => absurd (h k c o ho hv hn) List.not_mem_nil
  | cons kc l ih =>
    refine ih _ fun k c o ho hv hn => ?_
    obtain ⟨hothers, hfail⟩ := failDisp_disp s kc.1 kc.2 st {}
    by_cases hkc : k = kc.1 ∧ c = kc.2
    · obtain ⟨rfl, rfl⟩ := hkc
      exact absurd hv (hfail o ho)
    · rw [hothers k c hkc] at ho
      exact (List.mem_cons.1 (h k c o ho hv hn)).resolve_left fun he => hkc ⟨congrArg Prod.fst he, congrArg Prod.snd he⟩

theorem stopDispatches_disp (s : State) (q : Nat) : ∀ k c o, dispOf (stopDispatches s q) k c = some o → o.verdict = none →
    namesQueue (ownModule s) q o = false := by
  refine failDisps_disp (ownModule s) q .abortedDisabled _ _ fun k c o ho _ hn => ?_
  exact mem_dispHits (s := { s with engs := tabMap (noteClosed q) s.engs }) ho hn

/-! ### Commands that a disable stops -/

/-- A command that a disable with a test has met. -/
def disabledCmd (test : Eng → Nat → QCmd → Bool) (e : Eng) (c : Nat) (q : QCmd) : QCmd :=
  if test e c q && q.verdict = none then { q with verdict := some .abortedDisabled } else q

theorem disabledCmd_stops {test : Eng → Nat → QCmd → Bool} {e : Eng} {c : Nat} {q : QCmd}
    (h : (disabledCmd test e c q).verdict = none) : disabledCmd test e c q = q ∧ test e c q = false := by
  unfold disabledCmd at h ⊢
  split
  next hif => rw [if_pos hif] at h; exact absurd h (by simp)
  next hif =>
    rw [if_neg hif] at h
    rw [h] at hif
    exact ⟨rfl, by simpa using hif⟩

/-- An engine's queues after a disable. -/
def disabledEng (test : Eng → Nat → QCmd → Bool) (k : Nat) (x : EngineSt) : EngineSt :=
  match engOfSelector k with
  | none => x
  | some e => { x with ctxs := tabMap (fun c (y : CtxQ) => { y with queue := y.queue.map (disabledCmd test e c) }) x.ctxs }

theorem markQueued_eq (s : State) (test : Eng → Nat → QCmd → Bool) :
    markQueued s test = { s with engs := tabMap (disabledEng test) s.engs } := rfl

/-- Every queue of an engine after a disable. -/
theorem getQ_markQueued (s : State) (test : Eng → Nat → QCmd → Bool) {e : Eng} (he : engOfSelector (engKey e) = some e) (c : Nat) :
    getQ (markQueued s test) e c = { getQ s e c with queue := (getQ s e c).queue.map (disabledCmd test e c) } := by
  have hdefault : disabledEng test (engKey e) {} = {} := by simp only [disabledEng, he]; rfl
  have heng : getEng (markQueued s test) e = disabledEng test (engKey e) (getEng s e) := by
    rw [getEng, markQueued_eq]
    exact tabGet_tabMap _ _ _ _ hdefault
  simp only [getQ, heng, disabledEng, he]
  exact tabGet_tabMap _ _ _ _ rfl

/-- A disable stops every command queued that its test names. -/
theorem markQueued_stops {s : State} {test : Eng → Nat → QCmd → Bool} {e : Eng} (he : engOfSelector (engKey e) = some e) {c : Nat}
    {q : QCmd} (hq : q ∈ (getQ (markQueued s test) e c).queue) (hverdict : q.verdict = none) : test e c q = false := by
  rw [getQ_markQueued s test he] at hq
  obtain ⟨d, -, rfl⟩ := List.mem_map.1 hq
  obtain ⟨hsame, htest⟩ := disabledCmd_stops hverdict
  rw [hsame]
  exact htest

end Sys2Proof.Proofs
end

