-- ==== Sys2Proof/Proofs/QueueStates.lean ====
section
/-! PROOFS. A write of SLP_q_CFG that enables or disables its queue (spec/08 R206). -/

namespace Sys2Proof.Proofs

open Sys2Proof Sys2Proof.Machine Sys2Proof.Laws

/-! ### The fields written -/

/-- A queue with the fields of a value written to its SLP_q_CFG. -/
def cfgQueue (s : State) (q : Nat) (v : W64) (x : SlipQ) : SlipQ :=
  { x with consumer := BitVec.ofNat 7 (bits v.toNat 46 40)
           log2 := BitVec.ofNat 5 (clamp (max 6 (leastLog2 s q)) 24 (bits v.toNat 36 32)) }

theorem cfgQueue_eq (s : State) (q : Nat) (v : W64) (x : SlipQ) : cfgQueue s q v x =
    { x with consumer := BitVec.ofNat 7 (v.toNat / 2 ^ 40)
             log2 := BitVec.ofNat 5 (max (max 6 (leastLog2 s q)) (min 24 (v.toNat / 2 ^ 32 % 32))) } := by
  have hc : BitVec.ofNat 7 (bits v.toNat 46 40) = BitVec.ofNat 7 (v.toNat / 2 ^ 40) :=
    BitVec.eq_of_toNat_eq (by simp [bits])
  rw [cfgQueue, hc]
  rfl

section
variable {s : State} {q : Nat} {v : W64}

theorem writeSlpCfg_on (hv : v.getLsbD 63 = true) (hoff : (getSq s q).enable = false) :
    writeSlpCfg s q v = enableQueue (modSq s q (cfgQueue s q v)) q := by
  unfold writeSlpCfg
  dsimp only
  rw [hv, hoff]
  rfl

theorem writeSlpCfg_same (hv : v.getLsbD 63 = true) (hon : (getSq s q).enable = true) : writeSlpCfg s q v = s := by
  unfold writeSlpCfg
  dsimp only
  rw [hv, hon]
  rfl

theorem writeSlpCfg_off (hv : v.getLsbD 63 = false) (hon : (getSq s q).enable = true) :
    writeSlpCfg s q v = modSq (disableQueue s q) q (cfgQueue s q v) := by
  unfold writeSlpCfg
  dsimp only
  rw [hv, hon]
  rfl

end

/-! ### Enabling -/

theorem ringPermitted_of_prt {s t : State} (h : t.prt = s.prt) (x : SlipQ) : ringPermitted t x = ringPermitted s x := by
  unfold ringPermitted windowsPermit getPart
  rw [h]

/-- A queue whose ring is permitted starts empty. -/
theorem enableQueue_of {s : State} {q : Nat} (h : ringPermitted s (getSq s q) = true) :
    getSq (enableQueue s q) q = { base := (getSq s q).base, consumer := (getSq s q).consumer, log2 := (getSq s q).log2, enable := true } ∧
    (enableQueue s q).slip.grants = startGrants q s.slip.grants ∧ (∀ j, j ≠ q → getSq (enableQueue s q) j = getSq s j) ∧
    enableQueue s q = { s with slip := (enableQueue s q).slip } := by
  obtain ⟨u, hu⟩ : ∃ u, u = modSq s q fun x => { base := x.base, consumer := x.consumer, log2 := x.log2, enable := true } :=
    ⟨_, rfl⟩
  have hgo : enableQueue s q = modSlip u fun y => { y with grants := startGrants q y.grants } := by
    rw [enableQueue, if_pos h, hu]
    rfl
  rw [hgo]
  refine ⟨(getSq_modSlip rfl q).trans ?_, by rw [hu]; rfl, fun j hj => (getSq_modSlip rfl j).trans ?_, by rw [hu]; rfl⟩
  · rw [hu, getSq_modSq]
  · rw [hu, getSq_modSq_ne _ _ _ hj]

/-- A queue whose ring is not permitted stays disabled. -/
theorem enableQueue_not {s : State} {q : Nat} (h : ringPermitted s (getSq s q) = false) :
    enableQueue s q = raise s .enableFailed (engSrc slipEng) (toLe 2 q ++ [0]) := by
  rw [enableQueue, if_neg (by rw [h]; decide)]

/-! ### Disabling -/

/-- What a closing queue leaves: the other queues, the routers, and of the ferry block what `Calm` keeps. -/
structure Closing (q : Nat) (s t : State) : Prop where
  others (j : Nat) (h : j ≠ q) : getSq t j = getSq s j
  calm : Calm s t
  routers : t.routers = s.routers

theorem steady_closing (q : Nat) : Steady (Closing q) :=
  ⟨fun s => ⟨fun _ _ => rfl, steady_calm.refl s, rfl⟩,
    fun h h' => ⟨fun j hj => (h'.others j hj).trans (h.others j hj), steady_calm.trans h.calm h'.calm, h'.routers.trans h.routers⟩⟩

theorem closing_modSq (s : State) (q : Nat) (f : SlipQ → SlipQ) : Closing q s (modSq s q f) :=
  ⟨fun _ hj => getSq_modSq_ne s q f hj, .of_fry rfl, rfl⟩

theorem closing_abortOpen (q : Nat) (s : State) (r : Resv) : Closing q s (abortOpen q s r) :=
  ⟨fun _ hj => getSq_abortOpen_ne s q hj r, calm_abortOpen q s r,
    (abortOpen_fr (mk := 1049004) (by decide) (Fr.refl _ _) : Fr 1049004 s (abortOpen q s r)).same .routers rfl⟩

theorem closing_returnCredit (q : Nat) (s : State) (r : Resv) : Closing q s (returnCredit q s r) :=
  ⟨fun j _ => by rw [getSq, returnCredit_queues]; rfl, calm_returnCredit q s r,
    (returnCredit_fr (mk := 384) (by decide) (Fr.refl _ _) : Fr 384 s (returnCredit q s r)).same .routers rfl⟩

/-- The commands of the manager that name a queue of this module. -/
def namesHere (own q : Nat) (e : Eng) (_c : Nat) (d : QCmd) : Bool :=
  e = slipEng && slipQid d.bytes = q && slipOps.contains (cmdOp d.bytes) && !(cmdOp d.bytes = 0x60 && fld d.bytes 20 2 ≠ own)

/-- A disable: the queue closes, then the commands that name it stop. -/
theorem disableQueue_eq (s : State) (q : Nat) : ∃ u, Closing q s u ∧ disableQueue s q =
    markQueued (stopDispatches (modSq u q fun x => { x with enable := false, items := [], free := x.resv, resolved := x.resv }) q)
      (namesHere (ownModule (stopDispatches
        (modSq u q fun x => { x with enable := false, items := [], free := x.resv, resolved := x.resv }) q)) q) := by
  refine ⟨_, ?_, rfl⟩
  refine (steady_closing q).trans ?_ ((steady_closing q).foldl (fun s r => closing_returnCredit q s _) _ _)
  refine (steady_closing q).trans ?_ ((steady_closing q).foldl (fun s r => closing_abortOpen q s r) _ _)
  exact closing_modSq s q _

theorem stopDispatches_slip (s : State) (q : Nat) : (stopDispatches s q).slip = s.slip :=
  (stopDispatches_fr (mk := 1254780) (by decide) (Fr.refl _ _) : Fr 1254780 s (stopDispatches s q)).same .slip rfl

theorem queuesOpenAndClose : Claim.queuesOpenAndClose := by
  intro i v s x y
  have hy : cfgQueue s i v x = y := cfgQueue_eq s i v x
  have hsq : getSq (modSq s i (cfgQueue s i v)) i = y := (getSq_modSq _ _ _).trans hy
  have henable (hv : v.getLsbD 63 = true) : exec (.slpQueueEnable i v) s = .next (writeSlpCfg s i v) :=
    congrArg Host.Outcome.next (if_pos hv)
  have hdisable (hv : v.getLsbD 63 = false) : exec (.slpQueueDisable i v) s = .next (writeSlpCfg s i v) :=
    congrArg Host.Outcome.next (if_neg (by rw [hv]; decide))
  have hperm : ringPermitted (modSq s i (cfgQueue s i v)) y = ringPermitted s y := ringPermitted_of_prt rfl y
  refine ⟨fun hv hoff hring => ?_, fun hv hoff hring => ?_, fun hv hon => ?_, fun hv hon => ?_, fun hv hon _ _ => ?_⟩
  · obtain ⟨hq, hgrants, hothers, heq⟩ := enableQueue_of (s := modSq s i (cfgQueue s i v)) (q := i) (by rw [hsq, hperm, hring])
    have hrow := henable hv
    rw [writeSlpCfg_on hv hoff] at hrow
    refine does_of hrow ⟨by rw [hq, hsq], fun hsorted m c hm hc => ?_, fun j hj => ?_, by rw [heq]; rfl⟩
    · rw [getGrant, hgrants]
      exact tabGet_startGrants hsorted (grantKey_queue i hm hc)
    · rw [hothers j hj, getSq_modSq_ne _ _ _ hj]
  · have hrow := henable hv
    rw [writeSlpCfg_on hv hoff, enableQueue_not (by rw [hsq, hperm, hring]), raise] at hrow
    refine does_of hrow ⟨?_, fun hbuf => ⟨logEntry_head _ hbuf, ?_⟩, ?_⟩
    · rw [getSq_of_slip (by rw [logEntry_frame])]
      exact hsq
    · exact congrArg EvtEntry.code (logEntry_entry (s := modSq s i (cfgQueue s i v)) _ hbuf)
    · rw [logEntry_frame]
      rfl
  · rw [henable hv, writeSlpCfg_same hv hon]
  all_goals
    have hrow := hdisable hv
    rw [writeSlpCfg_off hv hon] at hrow
    obtain ⟨u, hclosing, hu⟩ := disableQueue_eq s i
    obtain ⟨w, hw⟩ : ∃ w, w = modSq u i fun x => { x with enable := false, items := [], free := x.resv, resolved := x.resv } := ⟨_, rfl⟩
    obtain ⟨z, hz⟩ : ∃ z, z = disableQueue s i := ⟨_, rfl⟩
    rw [← hw, ← hz] at hu
    rw [← hz] at hrow
    have hslip : z.slip = w.slip := by rw [hu, markQueued_eq, ← stopDispatches_slip w i]
    have hwsq : getSq w i = { getSq u i with
        enable := false, items := [], free := (getSq u i).resv, resolved := (getSq u i).resv } := by rw [hw, getSq_modSq]
  · have htsq : getSq (modSq z i (cfgQueue s i v)) i = cfgQueue s i v (getSq w i) := by
      rw [getSq_modSq, getSq_of_slip hslip]
    rw [cfgQueue_eq, hwsq] at htsq
    refine does_of hrow ⟨by rw [htsq], by rw [htsq], by rw [htsq], by rw [htsq], by rw [htsq], by rw [htsq], fun j hj => ?_,
      fun c q hq hqid hop hverdict => ?_⟩
    · rw [getSq_modSq_ne _ _ _ hj, getSq_of_slip hslip, hw, getSq_modSq_ne _ _ _ hj, hclosing.others j hj]
    · rw [getQ_of_engs (modSq_engs z i (cfgQueue s i v)), hu] at hq
      have hname : engOfSelector (engKey slipEng) = some slipEng := by decide
      have hstop := markQueued_stops hname hq hverdict
      simp only [List.mem_cons, List.not_mem_nil, or_false] at hop
      have hne : cmdOp q.bytes ≠ 0x60 := by rcases hop with h | h | h | h | h | h <;> rw [h] <;> decide
      have hlisted : slipOps.contains (cmdOp q.bytes) = true := by rcases hop with h | h | h | h | h | h <;> rw [h] <;> decide
      rw [namesHere, hqid, hlisted] at hstop
      simp [hne] at hstop
  · refine does_of hrow fun k c o ho hv d hd hmod hqueue => ?_
    have hdisp : dispOf (stopDispatches w i) k c = some o := by
      have ho' : tabFind (getRouter (z) k).ops c = some o := ho
      rw [hu] at ho'
      exact ho'
    have hnot := stopDispatches_disp w i k c o hdisp hv
    have hown : ownModule w = ownModule s := by
      rw [hw]
      exact hclosing.calm.ownModule
    rw [hown, namesQueue, List.any_eq_false] at hnot
    exact hnot d hd (by simp [hmod, hqueue])

/-- Settles O36: reservations, commits and rewinds of a producer, and what enabling and disabling leave of a queue. -/
theorem producersAndQueues : Obligations.ProducersAndQueues := ⟨producersReserve, queuesOpenAndClose⟩

end Sys2Proof.Proofs
end

