-- ==== Sys2Proof/Proofs/Stores.lean ====
section
/-! PROOFS. Work whose only effect is to store bytes within some places: what it leaves, and how such work runs in sequence
(spec/14 R351, R360). -/

namespace Sys2Proof.Proofs

open Sys2Proof Sys2Proof.Machine Sys2Proof.Laws

/-- Only bytes at places that `R` allows have changed, beside DIRTY marks and the tokens of buckets. -/
structure Stored (R : Nat → Prop) (s t : State) : Prop where
  eq : t = { s with prt := t.prt, mem := { s.mem with bytes := t.mem.bytes, gran := t.mem.gran } }
  prt : SamePrt s.prt t.prt
  gran : SameGran s.mem.gran t.mem.gran
  kept (a : Nat) (h : ¬ R a) : memGet t.mem.bytes a = memGet s.mem.bytes a

theorem Stored.refl (R : Nat → Prop) (s : State) : Stored R s s := ⟨rfl, .refl _, .refl _, fun _ _ => rfl⟩

theorem Stored.trans {R : Nat → Prop} {s t u : State} (h : Stored R s t) (h' : Stored R t u) : Stored R s u :=
  ⟨by rw [h'.eq, h.eq], h.prt.trans h'.prt, h.gran.trans h'.gran, fun a ha => (h'.kept a ha).trans (h.kept a ha)⟩

theorem Stored.mono {R R' : Nat → Prop} {s t : State} (h : Stored R s t) (hR : ∀ a, R a → R' a) : Stored R' s t :=
  ⟨h.eq, h.prt, h.gran, fun a ha => h.kept a fun hr => ha (hR a hr)⟩

theorem Charged.stored {s t : State} (h : Charged s t) (R : Nat → Prop) : Stored R s t :=
  ⟨by rw [h.eq], h.prt, by rw [h.mem]; exact .refl _, fun a _ => by rw [h.mem]⟩

theorem Wrote.stored {s t : State} {a : Nat} {b : Bytes} {R : Nat → Prop} (h : Wrote s t a b)
    (hR : ∀ j, a ≤ j → j < a + b.length → R j) : Stored R s t := by
  refine ⟨by rw [h.eq], h.prt, h.gran, fun j hj => ?_⟩
  rw [h.bytes, memGet_memWrite, if_neg fun hin => hj (hR j hin.1 hin.2)]

theorem Stored.clean {R : Nat → Prop} {s t : State} (h : Stored R s t) (hs : Claim.clean s) : Claim.clean t := by
  rw [h.eq]; exact hs

theorem Stored.openTo {R : Nat → Prop} {s t : State} (h : Stored R s t) {w : Who} (ho : Claim.openTo s w) : Claim.openTo t w :=
  openTo_of_samePrt h.prt ho

/-- A read of bytes that are kept. -/
theorem Stored.read {R : Nat → Prop} {s t : State} (h : Stored R s t) {a n : Nat} (hR : ∀ j, a ≤ j → j < a + n → ¬ R j) :
    memRead t.mem.bytes a n = memRead s.mem.bytes a n := memRead_congr fun j h1 h2 => h.kept j (hR j h1 h2)

/-- The addresses of `n` bytes from `a` on. -/
def span (a n : Nat) (j : Nat) : Prop := a ≤ j ∧ j < a + n

/-! ### Work that ends well -/

section
variable {α β : Type}

/-- From a state, work ends well with a value and a state that `Q` holds of, and stores only where `R` allows. -/
def Yields (R : Nat → Prop) (a : Act α) (s : State) (Q : α → State → Prop) : Prop :=
  ∃ x t, runActVal a s = (.ok x, t) ∧ Stored R s t ∧ Q x t

variable {R : Nat → Prop} {s : State} {w : Who}

theorem Yields.pure {x : α} {Q : α → State → Prop} (h : Q x s) : Yields R (Pure.pure x : Act α) s Q :=
  ⟨x, s, rfl, .refl R s, h⟩

theorem Yields.bind {a : Act α} {k : α → Act β} {Q : α → State → Prop} {Q' : β → State → Prop} (ha : Yields R a s Q)
    (hk : ∀ x t, Stored R s t → Q x t → Yields R (k x) t Q') : Yields R (a >>= k) s Q' := by
  obtain ⟨x, t, ht, hst, hq⟩ := ha
  obtain ⟨y, u, hu, hst', hq'⟩ := hk x t hst hq
  exact ⟨y, u, (runActVal_bind_ok ht).trans hu, hst.trans hst', hq'⟩

theorem Yields.get_bind {k : State → Act β} {Q : β → State → Prop} (h : Yields R (k s) s Q) : Yields R (get >>= k) s Q := h

/-- The work after a choice may be stated once. -/
theorem Yields.ite_bind {c : Prop} [Decidable c] {a b : Act α} {k : α → Act β} {Q : β → State → Prop}
    (h : Yields R ((if c then a else b) >>= k) s Q) : Yields R (if c then a >>= k else b >>= k) s Q := by
  split
  next hc => rwa [if_pos hc] at h
  next hc => rwa [if_neg hc] at h

theorem Yields.mono {a : Act α} {Q Q' : α → State → Prop} (h : Yields R a s Q) (hQ : ∀ x t, Stored R s t → Q x t → Q' x t) :
    Yields R a s Q' := by
  obtain ⟨x, t, ht, hst, hq⟩ := h
  exact ⟨x, t, ht, hst, hQ x t hst hq⟩

theorem Yields.widen {R' : Nat → Prop} {a : Act α} {Q : α → State → Prop} (h : Yields R a s Q) (hR : ∀ j, R j → R' j) :
    Yields R' a s Q := by
  obtain ⟨x, t, ht, hst, hq⟩ := h
  exact ⟨x, t, ht, hst.mono hR, hq⟩

theorem Yields.stopIf {b : Bool} {st : Status} {Q : Unit → State → Prop} (hb : b = false) (h : Q () s) :
    Yields R (stopIf b st) s Q := by
  subst hb
  exact ⟨(), s, rfl, .refl R s, h⟩

/-- A read in reach gives the bytes that stand, and leaves memory. -/
theorem Yields.rdMem (hs : Claim.clean s) {a n : Nat} (hm : mayAccess s w a n false = true) :
    Yields R (rd w a n) s fun b t => b = memRead s.mem.bytes a n ∧ t.mem = s.mem := by
  obtain ⟨t, ht, hc⟩ := rd_of_clean hs hm
  exact ⟨_, t, ht, hc.stored R, rfl, hc.mem⟩

/-- A read in reach gives the bytes that stand. -/
theorem Yields.rd (hs : Claim.clean s) {a n : Nat} (hm : mayAccess s w a n false = true) :
    Yields R (rd w a n) s fun b _ => b = memRead s.mem.bytes a n := by
  obtain ⟨t, ht, hc⟩ := rd_of_clean hs hm
  exact ⟨_, t, ht, hc.stored R, rfl⟩

theorem Yields.rdNat (hs : Claim.clean s) {a n : Nat} (hm : mayAccess s w a n false = true) :
    Yields R (rdNat w a n) s fun v _ => v = leNat (memRead s.mem.bytes a n) := by
  obtain ⟨t, ht, hc⟩ := rdNat_of_clean hs hm
  exact ⟨_, t, ht, hc.stored R, rfl⟩

/-- A write in reach stores its bytes. -/
theorem Yields.wr (hs : Claim.clean s) {a : Nat} {b : Bytes} (hm : mayAccess s w a b.length true = true)
    (hR : ∀ j, a ≤ j → j < a + b.length → R j) :
    Yields R (wr w a b) s fun _ t => t.mem.bytes = memWrite s.mem.bytes a b := by
  obtain ⟨t, ht, hw⟩ := wr_of_clean hs hm
  exact ⟨(), t, ht, hw.stored hR, hw.bytes⟩

/-- Work over a list that keeps an invariant. -/
theorem Yields.foldlM {f : β → α → Act β} {P : β → State → Prop} (l : List α) (b : β) (h : P b s)
    (hf : ∀ b x t, x ∈ l → Stored R s t → P b t → Yields R (f b x) t P) : Yields R (l.foldlM f b) s P := by
  suffices hgen : ∀ (l' : List α) b t, (∀ x ∈ l', x ∈ l) → Stored R s t → P b t → Yields R (l'.foldlM f b) t P from
    hgen l b s (fun _ hx => hx) (.refl R s) h
  intro l'
  induction l' with
  | nil => intro b t _ _ hp; exact .pure hp
  | cons x l' ih =>
    intro b t hsub hst hp
    exact .bind (hf b x t (hsub x (List.mem_cons_self ..)) hst hp) fun c u hu hc =>
      ih c u (fun y hy => hsub y (List.mem_cons_of_mem _ hy)) (hst.trans hu) hc

theorem Yields.forM {f : α → Act PUnit} {P : State → Prop} (l : List α) (h : P s)
    (hf : ∀ x t, x ∈ l → Stored R s t → P t → Yields R (f x) t fun _ u => P u) : Yields R (l.forM f) s fun _ t => P t := by
  suffices hgen : ∀ (l' : List α) t, (∀ x ∈ l', x ∈ l) → Stored R s t → P t → Yields R (l'.forM f) t fun _ u => P u from
    hgen l s (fun _ hx => hx) (.refl R s) h
  intro l'
  induction l' with
  | nil => intro t _ _ hp; exact .pure hp
  | cons x l' ih =>
    intro t hsub hst hp
    exact .bind (hf x t (hsub x (List.mem_cons_self ..)) hst hp) fun _ u hu hc =>
      ih u (fun y hy => hsub y (List.mem_cons_of_mem _ hy)) (hst.trans hu) hc

/-- Work for every element of a list: one value for each, of which `P` holds. -/
theorem Yields.mapM {f : α → Act β} {P : α → β → Prop} (l : List α)
    (hf : ∀ x t, x ∈ l → Stored R s t → Yields R (f x) t fun y _ => P x y) :
    Yields R (l.mapM f) s fun ys _ => List.Forall₂ P l ys := by
  suffices hgen : ∀ (l' : List α) t, (∀ x ∈ l', x ∈ l) → Stored R s t →
      Yields R (l'.mapM f) t fun ys _ => List.Forall₂ P l' ys from
    hgen l s (fun _ hx => hx) (.refl R s)
  intro l'
  induction l' with
  | nil => intro t _ _; exact .pure .nil
  | cons x l' ih =>
    intro t hsub hst
    rw [List.mapM_cons]
    refine .bind (hf x t (hsub x (List.mem_cons_self ..)) hst) fun y u hu hy => ?_
    refine .bind (ih u (fun z hz => hsub z (List.mem_cons_of_mem _ hz)) (hst.trans hu)) fun ys v hv hys => ?_
    exact .pure (.cons hy hys)

end

/-- From a state, work ends well with a value and a state that `Q` holds of. -/
def Runs {α : Type} (a : Act α) (s : State) (Q : α → State → Prop) : Prop := ∃ x t, runActVal a s = (.ok x, t) ∧ Q x t

/-- Work that first stores, then does more. -/
theorem Yields.runs_bind {α β : Type} {R : Nat → Prop} {s : State} {a : Act α} {k : α → Act β} {Q : α → State → Prop}
    {Q' : β → State → Prop} (ha : Yields R a s Q) (hk : ∀ x t, Stored R s t → Q x t → Runs (k x) t Q') : Runs (a >>= k) s Q' := by
  obtain ⟨x, t, ht, hst, hq⟩ := ha
  obtain ⟨y, u, hu, hq'⟩ := hk x t hst hq
  exact ⟨y, u, (runActVal_bind_ok ht).trans hu, hq'⟩

/-- The work after a choice may be stated once. -/
theorem Runs.ite_bind {α β : Type} {c : Prop} [Decidable c] {s : State} {a b : Act α} {k : α → Act β} {Q : β → State → Prop}
    (h : Runs ((if c then a else b) >>= k) s Q) : Runs (if c then a >>= k else b >>= k) s Q := by
  split
  next hc => rwa [if_pos hc] at h
  next hc => rwa [if_neg hc] at h

theorem Runs.actMod {s : State} {f : State → State} {Q : Unit → State → Prop} (h : Q () (f s)) : Runs (actMod f) s Q :=
  ⟨(), f s, rfl, h⟩

theorem Runs.act {s : State} {a : Act Unit} {Q : Unit → State → Prop} (h : Runs a s Q) : ∃ t, runAct a s = (.ok, t) ∧ Q () t := by
  obtain ⟨x, t, ht, hq⟩ := h
  exact ⟨t, runAct_ok ht, hq⟩

/-- Values that are each what a function gives. -/
theorem map_of_forall₂ {α β : Type} {f : α → β} {l : List α} {ys : List β} (h : List.Forall₂ (fun x y => y = f x) l ys) :
    ys = l.map f := by
  induction h with
  | nil => rfl
  | cons hy _ ih => rw [hy, ih, List.map_cons]

end Sys2Proof.Proofs
end

