-- ==== Sys2Proof/Proofs/RowBuffers.lean ====
section
/-! PROOFS. Elements and rows of activation tile images in memory: where they lie, and what reading and writing them comes to
(spec/03 R70, spec/06 R127). -/

namespace Sys2Proof.Proofs

open Sys2Proof Sys2Proof.Machine Sys2Proof.Laws

/-! ### Sizes -/

theorem le_up64 (n : Nat) : n ≤ up64 n := by
  unfold up64 ceilDiv
  omega

theorem le_actElems (f : Nat) : 512 * elemBits (fmtElem f) ≤ actElems f := by
  have h := le_up64 (64 * 64 * elemBits (fmtElem f) / 8)
  unfold actElems
  omega

theorem actElems_le_isz (f : Nat) : actElems f ≤ isz f := by
  have h := le_up64 (actSize f)
  unfold isz
  unfold actSize at h ⊢
  omega

/-- The scales of an MX image lie behind its elements. -/
theorem actScales_le_isz {f : Nat} (h : isMx (fmtElem f) = true) : actElems f + 128 ≤ isz f := by
  have hle := le_up64 (actSize f)
  unfold isz
  unfold actSize at hle ⊢
  rw [h, if_pos rfl] at hle ⊢
  omega

/-- An element lies within the elements of its image. -/
theorem elem_within (f : Nat) {r c : Nat} (hr : r < 64) (hc : c < 64) :
    (r * 64 + c) * elemBits (fmtElem f) / 8 +
      ceilDiv ((r * 64 + c) * elemBits (fmtElem f) % 8 + elemBits (fmtElem f)) 8 ≤ actElems f := by
  have hsize := le_actElems f
  obtain ⟨bw, hbw⟩ : ∃ bw, bw = elemBits (fmtElem f) := ⟨_, rfl⟩
  have hbits : (r * 64 + c + 1) * bw ≤ 4096 * bw := Nat.mul_le_mul_right bw (by omega)
  rw [Nat.add_mul, Nat.one_mul] at hbits
  rw [← hbw] at hsize ⊢
  obtain ⟨p, hp⟩ : ∃ p, p = (r * 64 + c) * bw := ⟨_, rfl⟩
  rw [← hp] at hbits ⊢
  unfold ceilDiv
  omega

/-- An image lies within the images of a row buffer of `g` groups of rows. -/
theorem imageAt_within (base stride : Nat) {cols r c g : Nat} (hr : r / 64 < g) (hc : c / 64 < ceilDiv cols 64) :
    base ≤ imageAt base stride cols r c ∧ imageAt base stride cols r c + stride ≤ base + g * ceilDiv cols 64 * stride := by
  obtain ⟨n, hn⟩ : ∃ n, n = r / 64 * ceilDiv cols 64 + c / 64 := ⟨_, rfl⟩
  have hlast : n + 1 ≤ g * ceilDiv cols 64 := by
    have hrow : (r / 64 + 1) * ceilDiv cols 64 ≤ g * ceilDiv cols 64 := Nat.mul_le_mul_right _ hr
    rw [Nat.add_mul, Nat.one_mul] at hrow
    omega
  have hbytes : (n + 1) * stride ≤ g * ceilDiv cols 64 * stride := Nat.mul_le_mul_right _ hlast
  rw [Nat.add_mul, Nat.one_mul] at hbytes
  unfold imageAt
  rw [← hn]
  omega

theorem packBytes_length (bw : Nat) (vs : List Nat) : (packBytes bw vs).length = ceilDiv (vs.length * bw) 8 := toLe_length _ _

theorem mxQuant_length (e : Nat) (vs : List Val) : (mxQuant e vs).2.length = vs.length := by
  unfold mxQuant
  split
  · simp
  · dsimp only
    split <;> simp

/-- The elements of a row of an image have their place. -/
theorem packBytes_within (f : Nat) {vs : List Nat} {r : Nat} (hr : r < 64) (hlen : vs.length ≤ 64) :
    r * 8 * elemBits (fmtElem f) + (packBytes (elemBits (fmtElem f)) vs).length ≤ actElems f := by
  have hsize := le_actElems f
  obtain ⟨bw, hbw⟩ : ∃ bw, bw = elemBits (fmtElem f) := ⟨_, rfl⟩
  rw [← hbw] at hsize ⊢
  have hrow : (r + 1) * (8 * bw) ≤ 64 * (8 * bw) := Nat.mul_le_mul_right _ hr
  have hbits : vs.length * bw ≤ 64 * bw := Nat.mul_le_mul_right _ hlen
  rw [Nat.add_mul, Nat.one_mul] at hrow
  rw [packBytes_length, Nat.mul_assoc]
  unfold ceilDiv
  omega

/-! ### Elements and rows -/

section
variable {R : Nat → Prop} {s : State} {w : Who} (hs : Claim.clean s) (ho : Claim.openTo s w)
include hs ho

theorem Yields.rdElem {img f r c : Nat} (hr : r < 64) (hc : c < 64) (hin : img + isz f ≤ wheelBase) :
    Yields R (rdElem w img f r c) s fun _ _ => True := by
  have helem := elem_within f hr hc
  have hsize := actElems_le_isz f
  unfold Machine.rdElem
  dsimp only
  refine .bind (Yields.rdNat hs (ho _ _ _ (by omega))) fun raw t ht _ => ?_
  split
  next hmx =>
    have hscales := actScales_le_isz hmx
    exact .bind (Yields.rdNat (ht.clean hs) (ht.openTo ho _ _ _ (by omega))) fun sc u _ _ => .pure trivial
  next => exact .pure trivial

/-- A row of a row buffer in reach is read whole. -/
theorem Yields.rdRow {base f cols r g : Nat} (hr : r / 64 < g) (hin : base + g * ceilDiv cols 64 * isz f ≤ wheelBase) :
    Yields R (rdRow w base f cols r) s fun row _ => row.length = cols := by
  unfold Machine.rdRow
  refine (Yields.mapM (P := fun _ _ => True) (List.range cols) fun i t hi ht => ?_).mono fun row t _ h => ?_
  · have hi' := List.mem_range.1 hi
    have himg := imageAt_within base (isz f) (cols := cols) (c := i) hr (by unfold ceilDiv; omega)
    exact Yields.rdElem (ht.clean hs) (ht.openTo ho) (Nat.mod_lt _ (by decide)) (Nat.mod_lt _ (by decide)) (by omega)
  · rw [← h.length_eq, List.length_range]

/-- Up to 64 columns of a row of an image in reach are written within the image. -/
theorem Yields.wrImageRow {img f r : Nat} {vals : List Val} (hr : r < 64) (hlen : vals.length ≤ 64) (hin : img + isz f ≤ wheelBase)
    (hR : ∀ j, img ≤ j → j < img + isz f → R j) : Yields R (wrImageRow w img f r vals) s fun _ _ => True := by
  have hsize := actElems_le_isz f
  unfold Machine.wrImageRow
  dsimp only
  split
  next hmx =>
    have hscales := actScales_le_isz hmx
    have hpack : (mxQuant (fmtElem f) (vals.take 32)).2.length +
        (if vals.length > 32 then (mxQuant (fmtElem f) (vals.drop 32)).2 else []).length ≤ 64 := by
      rw [mxQuant_length, List.length_take]
      split
      · rw [mxQuant_length, List.length_drop]; omega
      · simp only [List.length_nil]; omega
    rw [← List.length_append] at hpack
    have helems := packBytes_within f hr hpack
    refine .bind (Yields.wr hs (ho _ _ _ (by omega)) fun j h1 h2 => hR j (by omega) (by omega)) fun _ t ht _ => ?_
    have hlen1 : (toLe 1 (mxQuant (fmtElem f) (vals.take 32)).1 ++
        if vals.length > 32 then toLe 1 (mxQuant (fmtElem f) (vals.drop 32)).1 else []).length ≤ 2 := by
      rw [List.length_append, toLe_length]
      split
      · rw [toLe_length]
      · simp
    refine (Yields.wr (ht.clean hs) (ht.openTo ho _ _ _ (by omega)) fun j h1 h2 => hR j (by omega) (by omega)).mono fun _ _ _ _ => trivial
  next =>
    have helems := packBytes_within f (vs := vals.map (elemEnc (fmtElem f))) hr (by rw [List.length_map]; exact hlen)
    refine (Yields.wr hs (ho _ _ _ (by omega)) fun j h1 h2 => hR j (by omega) (by omega)).mono fun _ _ _ _ => trivial

/-- A row of a row buffer in reach is written within the buffer. -/
theorem Yields.wrRow {base f r g : Nat} {row : List (BitVec 32)} (hr : r / 64 < g)
    (hin : base + g * ceilDiv row.length 64 * isz f ≤ wheelBase)
    (hR : ∀ j, base ≤ j → j < base + g * ceilDiv row.length 64 * isz f → R j) :
    Yields R (wrRow w base (isz f) f r row) s fun _ _ => True := by
  unfold Machine.wrRow
  refine Yields.forM (P := fun _ => True) _ trivial fun i t hi ht _ => ?_
  have hi' := List.mem_range.1 hi
  have himg := imageAt_within base (isz f) (cols := row.length) (c := 64 * i) hr (by omega)
  refine Yields.wrImageRow (ht.clean hs) (ht.openTo ho) (Nat.mod_lt _ (by decide)) ?_ (by omega) fun j h1 h2 => hR j (by omega) (by omega)
  rw [List.length_map, List.length_take]
  omega

end

end Sys2Proof.Proofs
end

