-- ==== Sys2Proof/Proofs/Routers.lean ====
section
/-! PROOFS. ROUTE and COMBINE: what they read lies in reach, and they write their results alone (spec/06 R126-R142). -/

namespace Sys2Proof.Proofs

open Sys2Proof Sys2Proof.Machine Sys2Proof.Laws

/-! ### Sorting -/

theorem insertBy_perm {α : Type} (le : α → α → Bool) (x : α) (l : List α) : (insertBy le x l).Perm (x :: l) := by
  induction l with
  | nil => exact .refl _
  | cons y l ih =>
    unfold insertBy
    split
    · exact .refl _
    · exact (ih.cons y).trans (.swap x y l)

/-- Sorting keeps every element. -/
theorem sortBy_perm {α : Type} (le : α → α → Bool) (l : List α) : (sortBy le l).Perm l := by
  induction l with
  | nil => exact .refl _
  | cons x l ih => exact (insertBy_perm le x _).trans (ih.cons x)

theorem rankExperts_perm (logits : List (BitVec 32)) : (rankExperts logits).Perm (List.range logits.length) := by
  refine ((sortBy_perm logitLe logits.zipIdx).map _).trans ?_
  rw [List.zipIdx_map_snd, List.range_eq_range']

/-- Every rank names an expert. -/
theorem rankExperts_lt {logits : List (BitVec 32)} {e : Nat} (hlen : logits.length = e) (he : 0 < e) (i : Nat) :
    (rankExperts logits).getD i 0 < e := by
  rw [List.getD_eq_getElem?_getD]
  cases h : (rankExperts logits)[i]? with
  | none => exact he
  | some v =>
    have hv := (rankExperts_perm logits).mem_iff.1 (List.mem_of_getElem? h)
    rw [hlen] at hv
    exact List.mem_range.1 hv

/-! ### A command that runs -/

/-- What a completion that is only a report leaves of queues and routers. -/
theorem completeHead_ok_gone {s u t : State} {e : Eng} {c : Nat} {q : QCmd} (h : SameQueues s u) (ht : SameQueues u t) :
    Claim.headGone s (completeHead t e c q .ok) e c :=
  headGone_of_same (h.trans ht) ⟨fun _ _ => rfl, fun _ => rfl⟩ (completeHead_gone t e c q (st := .ok) rfl {}).1

theorem Stored.sameQueues {R : Nat → Prop} {s t : State} (h : Stored R s t) : SameQueues s t := .of_engs (by rw [h.eq])

/-- A router's command that may run and is well formed runs. -/
theorem routerHead_runs {s : State} {k c op : Nat} {q : QCmd} (h : Claim.routerRuns s k c op q)
    (hop : routerOps.contains op = true) {ok : Bytes → Bool} (hok : ok q.bytes = true) (f : State → QCmd → State) :
    ∃ u, Turned s u (routerEng k) 0 ∧ routerHead s k c op ok f = f u q := by
  obtain ⟨-, -, hfree, hhead, hturn, -, -⟩ := h
  obtain ⟨u, hu, hturned⟩ := takeTurn_of hturn
  refine ⟨u, hturned, ?_⟩
  rw [routerHead, hfree, if_neg (by decide), headRow_runs hhead hop, hu]
  exact if_pos hok

/-- Nothing below the wheelhouse region is of it. -/
theorem namesWheel_below {l : List (Nat × Nat)} (h : ∀ r ∈ l, r.1 + r.2 ≤ wheelBase) : namesWheel l = false := by
  rw [namesWheel, List.any_eq_false]
  intro r hr
  have := h r hr
  simp
  omega

/-- The ranges of a layer record that is well formed. -/
theorem layerOf_bounds {b : Bytes} {l : Layer} (h : layerOf b = some l) : 1 ≤ l.experts ∧ l.experts ≤ 1024 ∧ l.capacity ≤ 65535 := by
  unfold layerOf at h
  dsimp only at h
  split at h
  next hif =>
    simp only [Bool.and_eq_true, decide_eq_true_eq] at hif
    obtain rfl := Option.some.inj h
    dsimp only
    omega
  next => exact absurd h (by simp)

section
variable {R : Nat → Prop} {s : State} {w : Who}

theorem Yields.rdLayer {b : Bytes} {l : Layer} (hs : Claim.clean s) (ho : Claim.openTo s w) (h : Claim.layerIs s b l) :
    Yields R (rdLayer w (fld b 8 8)) s fun l' _ => l = l' := by
  obtain ⟨hl, hin⟩ := h
  unfold Machine.rdLayer
  refine .bind (.rd hs (ho _ _ _ hin)) fun v t _ hv => ?_
  rw [hv, hl]
  exact .pure rfl

end

/-! ### ROUTE -/

/-- The places that a ROUTE writes: its counts, its lists, the combine records of its tokens. -/
def routePlaces (b : Bytes) (l : Layer) (j : Nat) : Prop :=
  span (fld b 32 8) (4 * l.experts + 8) j ∨ span (fld b 40 8) (l.experts * l.capacity * 8) j ∨
  span (fld b 48 8 + fld b 24 4 * 128) (fld b 28 4 * 128) j

/-- What the claims of a ROUTE keep: one count per expert, and entries within the lists. -/
def claimsFit (l : Layer) (x : Claims) : Prop :=
  x.counts.length = l.experts ∧ ∀ n ∈ x.entries, n.1 < l.experts ∧ n.2.1 < l.capacity

theorem claimsFit_token {l : Layer} {x : Claims} (h : claimsFit l x) {logits : List (BitVec 32)}
    (hlen : logits.length = l.experts) (he : 0 < l.experts) (t : Nat) : claimsFit l (claimToken l logits t x) := by
  obtain ⟨hcounts, hentries⟩ := h
  have hc := claimed_token (P := fun e => e < l.experts) l logits (rankExperts_lt hlen he) t x
  obtain ⟨more, new, -, -, -, hent, -, hall⟩ := hc.slots
  refine ⟨hc.experts.trans hcounts, fun n hn => ?_⟩
  rw [hent] at hn
  rcases List.mem_append.1 hn with hn | hn
  · exact hentries n hn
  · obtain ⟨-, -, -, hcap, hexp⟩ := hall n hn
    exact ⟨hexp, hcap⟩

theorem combineBytes_length (slots : List (Option (Nat × Nat) × BitVec 32)) : (combineBytes slots).length = 128 := by
  unfold combineBytes
  rw [List.length_flatten, List.map_map, List.map_congr_left (g := fun _ => 8)]
  · simp
  · intro r _
    simp only [Function.comp_apply]
    split <;> simp [toLe_length]

theorem counts_length (l : List Nat) : ((l.map (toLe 4)).flatten).length = 4 * l.length := by
  induction l with
  | nil => rfl
  | cons x l ih => simp only [List.map_cons, List.flatten_cons, List.length_append, toLe_length, ih, List.length_cons]; omega

/-- A ROUTE's counters. -/
def routeCounted (t : State) (k n : Nat) (x : Claims) : State :=
  modRouter t k fun r => { r with
    routed := r.routed + w64 n, dropped := r.dropped + w64 x.dropped, subst := r.subst + w64 x.subst }

/-- One token of a ROUTE. -/
theorem routeToken_yields {s t : State} {w : Who} {b : Bytes} {l : Layer} {x : Claims} {i : Nat} (hst : Stored (routePlaces b l) s t)
    (hs : Claim.clean s) (ho : Claim.openTo s w) (he : 1 ≤ l.experts)
    (hlogits : fld b 16 8 + ceilDiv (fld b 24 4 + fld b 28 4) 64 * ceilDiv (up64 l.experts) 64 * isz 0 ≤ wheelBase)
    (hrecords : fld b 48 8 + (fld b 24 4 + fld b 28 4) * 128 ≤ wheelBase) (hi : i < fld b 28 4) (hx : claimsFit l x) :
    Yields (routePlaces b l) (do
      let logits ← (List.range l.experts).mapM fun e =>
        rdElem w (imageAt (fld b 16 8) (isz 0) (up64 l.experts) (fld b 24 4 + i) e) 0 ((fld b 24 4 + i) % 64) (e % 64)
      wr w (fld b 48 8 + (fld b 24 4 + i) * 128) (combineBytes (claimToken l logits (fld b 24 4 + i) x).slots)
      return claimToken l logits (fld b 24 4 + i) x) t fun y _ => claimsFit l y := by
  refine .bind (Yields.mapM (P := fun _ _ => True) _ fun e u hmem hu => ?_) fun logits u hu hlen => ?_
  · have hlt := List.mem_range.1 hmem
    have himg := imageAt_within (fld b 16 8) (isz 0) (cols := up64 l.experts) (r := fld b 24 4 + i) (c := e)
      (g := ceilDiv (fld b 24 4 + fld b 28 4) 64) (by unfold ceilDiv; omega) (by unfold up64 ceilDiv; omega)
    exact Yields.rdElem ((hst.trans hu).clean hs) ((hst.trans hu).openTo ho) (Nat.mod_lt _ (by decide)) (Nat.mod_lt _ (by decide))
      (by omega)
  have hst' := hst.trans hu
  have hlen' : logits.length = l.experts := by rw [← hlen.length_eq, List.length_range]
  refine .bind (Yields.wr (hst'.clean hs) (hst'.openTo ho _ _ _ ?_) fun j h1 h2 => .inr (.inr ?_)) fun _ v _ _ => ?_
  · rw [combineBytes_length]; omega
  · rw [combineBytes_length] at h2
    exact ⟨by omega, by omega⟩
  · exact .pure (claimsFit_token hx hlen' he _)

/-- An entry of an expert's list has its place among the lists. -/
theorem place_within {e n k m : Nat} (he : e < k) (hn : n < m) : (e * m + n) * 8 + 8 ≤ k * m * 8 := by
  have hrow : (e + 1) * m ≤ k * m := Nat.mul_le_mul_right m he
  rw [Nat.add_mul, Nat.one_mul] at hrow
  omega

/-- What a ROUTE does: it stores within its places, then counts. -/
theorem routeWork_runs {s : State} {k c : Nat} {b : Bytes} {l : Layer} (hs : Claim.clean s)
    (ho : Claim.openTo s (whoOf (routerEng k) c)) (hl : Claim.layerIs s b l)
    (hlogits : fld b 16 8 + ceilDiv (fld b 24 4 + fld b 28 4) 64 * ceilDiv (up64 l.experts) 64 * isz 0 ≤ wheelBase)
    (hcounts : fld b 32 8 + 4 * l.experts + 8 ≤ wheelBase) (hlists : fld b 40 8 + l.experts * l.capacity * 8 ≤ wheelBase)
    (hrecords : fld b 48 8 + (fld b 24 4 + fld b 28 4) * 128 ≤ wheelBase) :
    Runs (routeWork k c b) s fun _ t => ∃ u x, Stored (routePlaces b l) s u ∧ t = routeCounted u k (fld b 28 4) x := by
  obtain ⟨hexperts, -, -⟩ := layerOf_bounds hl.1
  unfold routeWork
  refine (Yields.rdLayer (R := routePlaces b l) hs ho hl).runs_bind fun _ s₁ h₁ hl' => ?_
  subst hl'
  refine Yields.runs_bind (R := routePlaces b l) (Yields.stopIf (Q := fun _ _ => True) (namesWheel_below ?_) trivial) fun _ s₂ h₂ _ => ?_
  · simp only [List.mem_cons, List.not_mem_nil, or_false]
    rintro r (rfl | rfl | rfl)
    all_goals dsimp only; omega
  have hst₂ := h₁.trans h₂
  dsimp only
  refine Runs.ite_bind (Yields.runs_bind (R := routePlaces b l) (Q := fun _ _ => True) ?_ fun ws s₃ h₃ _ => ?_)
  · split
    · exact (Yields.rd (hst₂.clean hs) (hst₂.openTo ho _ _ _ (by omega))).mono fun _ _ _ _ => trivial
    · exact .pure trivial
  have hst₃ := hst₂.trans h₃
  refine Yields.runs_bind (R := routePlaces b l) (Yields.foldlM (P := fun x _ => claimsFit l x) _ _ ?_ fun x i t hi ht hx => ?_)
    fun x s₄ h₄ hx => ?_
  · exact ⟨by simp, fun n hn => absurd hn List.not_mem_nil⟩
  · exact routeToken_yields (hst₃.trans ht) hs ho hexperts hlogits hrecords (List.mem_range.1 hi) hx
  have hst₄ := hst₃.trans h₄
  refine Yields.runs_bind (R := routePlaces b l) (Yields.forM (P := fun _ => True) _ trivial fun e t he ht _ => ?_) fun _ s₅ h₅ _ => ?_
  · have hplace := place_within (hx.2 e he).1 (hx.2 e he).2
    have hst := hst₄.trans ht
    refine (Yields.wr (hst.clean hs) (hst.openTo ho _ _ _ ?_) fun j h1 h2 => .inr (.inl ?_)).mono fun _ _ _ _ => trivial
    · rw [toLe_length]; omega
    · rw [toLe_length] at h2
      exact ⟨by omega, by omega⟩
  have hst₅ := hst₄.trans h₅
  obtain ⟨bytes, hbytes⟩ : ∃ bytes, bytes = (x.counts.map (toLe 4)).flatten ++ toLe 4 (fld ws (4 * l.experts) 4 + x.dropped) ++
    toLe 4 (fld ws (4 * l.experts + 4) 4 + x.subst) := ⟨_, rfl⟩
  have hlen : bytes.length = 4 * l.experts + 8 := by
    rw [hbytes, List.length_append, List.length_append, counts_length, toLe_length, toLe_length, hx.1]
  rw [← hbytes]
  refine Yields.runs_bind (R := routePlaces b l) (Yields.wr (hst₅.clean hs) (hst₅.openTo ho _ _ _ (by omega))
    fun j h1 h2 => .inl ⟨h1, by omega⟩) fun _ s₆ h₆ _ => ?_
  exact .actMod ⟨s₆, x, hst₅.trans h₆, rfl⟩

/-! ### The rows -/

section
variable {s u : State} {e : Eng} {n : Nat} (h : Turned s u e n)
include h

theorem Turned.mem : u.mem = s.mem := by rw [h.eq]

theorem Turned.clean (hs : Claim.clean s) : Claim.clean u := clean_of_mem hs h.mem

theorem Turned.openTo {w : Who} (ho : Claim.openTo s w) : Claim.openTo u w :=
  openTo_of_samePrt (by rw [h.eq]; exact .refl _) ho

theorem Turned.routers : u.routers = s.routers := by rw [h.eq]

end

theorem layerIs_of_mem {s t : State} (h : t.mem = s.mem) {b : Bytes} {l : Layer} (hl : Claim.layerIs s b l) : Claim.layerIs t b l := by
  obtain ⟨h1, h2⟩ := hl
  exact ⟨by rw [h]; exact h1, h2⟩

theorem routesRun : Claim.routesRun := by
  intro k c q l s hruns hok hl b last hlogits hcounts hlists hrecords
  obtain ⟨u, hturned, hgo⟩ := routerHead_runs hruns (by decide) hok fun s q =>
    completeHead (runAct (routeWork k c q.bytes) s).2 (routerEng k) c q (runAct (routeWork k c q.bytes) s).1
  obtain ⟨-, -, -, -, -, hs, ho⟩ := hruns
  obtain ⟨t, ht, v, x, hst, rfl⟩ := (routeWork_runs (hturned.clean hs) (hturned.openTo ho) (layerIs_of_mem hturned.mem hl)
    hlogits hcounts hlists hrecords).act
  have hrow : exec (.route k c) s = .next (completeHead (routeCounted v k (fld b 28 4) x) (routerEng k) c q .ok) := by
    refine congrArg Host.Outcome.next (hgo.trans ?_)
    rw [ht]
  obtain ⟨hmem, -, hrouters⟩ := completeHead_ok_same (routeCounted v k (fld b 28 4) x) (routerEng k) c q
  have hv : v.routers = s.routers := by rw [hst.eq, ← hturned.routers]
  have hcounted := getRouter_of_routers hrouters
  have hk : getRouter (routeCounted v k (fld b 28 4) x) k = { getRouter s k with
      routed := (getRouter s k).routed + w64 (fld b 28 4), dropped := (getRouter s k).dropped + w64 x.dropped
      subst := (getRouter s k).subst + w64 x.subst } := by
    rw [routeCounted, getRouter_modRouter, getRouter_of_routers hv]
  refine does_of hrow ⟨?_, by rw [hcounted, hk], by rw [hcounted, hk]; rfl, fun j hj => ?_, fun a h1 h2 h3 => ?_⟩
  · exact completeHead_ok_gone (hturned.sameQueues.trans hst.sameQueues) (.of_engs rfl)
  · rw [hcounted, routeCounted, getRouter_modRouter_ne _ _ _ (Ne.symm hj), getRouter_of_routers hv]
  · rw [hmem]
    refine (hst.kept a ?_).trans (by rw [hturned.mem])
    rintro (h | h | h)
    · obtain ⟨ha, hb⟩ : span (fld b 32 8) (4 * l.experts + 8) a := h
      omega
    · obtain ⟨ha, hb⟩ : span (fld b 40 8) (l.experts * l.capacity * 8) a := h
      omega
    · obtain ⟨ha, hb⟩ : span (fld b 48 8 + fld b 24 4 * 128) (fld b 28 4 * 128) a := h
      omega

/-! ### COMBINE -/

/-- The bytes that a COMBINE's destination takes. -/
def combineOut (b : Bytes) : Nat := ceilDiv (fld b 48 4 + fld b 52 4) 64 * (fld b 56 4 / 64) * isz (fld b 3 1)

/-- The result of a token lies within its expert's region. -/
theorem region_within (base : Nat) {e : Nat} (he : e < 65536) (m w z : Nat) :
    base + e * m * w * z + 1024 * w * z ≤ base + (65536 * m + 1024) * w * z := by
  have hrow : (e * m + 1024) * w * z ≤ (65536 * m + 1024) * w * z :=
    Nat.mul_le_mul_right _ (Nat.mul_le_mul_right _ (by have := Nat.mul_le_mul_right m (Nat.le_of_lt he); omega))
  rw [Nat.add_mul (e * m), Nat.add_mul (e * m * w)] at hrow
  omega

/-- One token of a COMBINE. -/
theorem combineToken_yields {s t : State} {w : Who} {b : Bytes} {l : Layer} {i : Nat}
    (hst : Stored (span (fld b 40 8) (combineOut b)) s t) (hs : Claim.clean s) (ho : Claim.openTo s w)
    (hcols : fld b 56 4 % 64 = 0) (hi : i < fld b 52 4)
    (hrecords : fld b 16 8 + (fld b 48 4 + fld b 52 4) * 128 ≤ wheelBase) (hstart : fld b 32 8 + combineOut b ≤ wheelBase)
    (hout : fld b 40 8 + combineOut b ≤ wheelBase)
    (hregions : fld b 24 8 + (65536 * ceilDiv l.capacity 64 + 1024) * (fld b 56 4 / 64) * isz (fld b 2 1) ≤ wheelBase) :
    Yields (span (fld b 40 8) (combineOut b)) (combineToken w b l (fld b 48 4 + i)) t fun _ _ => True := by
  have hgroups : ceilDiv (fld b 56 4) 64 = fld b 56 4 / 64 := by unfold ceilDiv; omega
  have hrow : (fld b 48 4 + i) / 64 < ceilDiv (fld b 48 4 + fld b 52 4) 64 := by unfold ceilDiv; omega
  unfold combineToken
  refine .bind (Yields.rd (hst.clean hs) (hst.openTo ho _ _ _ (by omega))) fun rec' t₁ h₁ hrec => ?_
  have hst₁ := hst.trans h₁
  dsimp only
  refine Yields.ite_bind (.bind (Q := fun start _ => start.length = fld b 56 4) ?_ fun start t₂ h₂ hlen => ?_)
  · split
    · exact .pure (List.length_replicate ..)
    · exact Yields.rdRow (hst₁.clean hs) (hst₁.openTo ho) hrow (by rw [hgroups]; exact hstart)
  have hst₂ := hst₁.trans h₂
  refine .bind (Yields.foldlM (P := fun out _ => out.length = fld b 56 4) _ _ hlen fun out r u hr hu hout' => ?_)
    fun out t₃ h₃ hout' => ?_
  · split
    next => exact .pure hout'
    next hne =>
      have hexpert : fld rec' (8 * r) 2 < 65536 := fld_lt rec' (8 * r) 2
      have hplace : fld rec' (8 * r + 2) 2 < 65536 := fld_lt rec' (8 * r + 2) 2
      have hst' := hst₂.trans hu
      refine .bind (Yields.rdRow (g := 1024) (hst'.clean hs) (hst'.openTo ho) (by omega) ?_) fun res v _ hres => ?_
      · rw [hgroups]
        exact (region_within _ hexpert _ _ _).trans hregions
      · refine .pure ?_
        rw [List.length_map, List.length_zip, hout', hres, Nat.min_self]
  have hst₃ := hst₂.trans h₃
  have hcols' : ceilDiv out.length 64 = fld b 56 4 / 64 := by rw [hout', hgroups]
  exact Yields.wrRow (hst₃.clean hs) (hst₃.openTo ho) hrow (by rw [hcols']; exact hout)
    fun j h1 h2 => ⟨h1, by rw [hcols'] at h2; exact h2⟩

/-- What a COMBINE does: it stores within its destination. -/
theorem combineWork_yields {s : State} {k c : Nat} {b : Bytes} {l : Layer} (hs : Claim.clean s)
    (ho : Claim.openTo s (whoOf (routerEng k) c)) (hl : Claim.layerIs s b l) (hcols : fld b 56 4 % 64 = 0)
    (hrecords : fld b 16 8 + (fld b 48 4 + fld b 52 4) * 128 ≤ wheelBase) (hstart : fld b 32 8 + combineOut b ≤ wheelBase)
    (hout : fld b 40 8 + combineOut b ≤ wheelBase)
    (hregions : fld b 24 8 + (65536 * ceilDiv l.capacity 64 + 1024) * (fld b 56 4 / 64) * isz (fld b 2 1) ≤ wheelBase) :
    Yields (span (fld b 40 8) (combineOut b)) (combineWork k c b) s fun _ _ => True := by
  unfold combineWork
  refine .bind (Yields.rdLayer hs ho hl) fun _ s₁ h₁ hl' => ?_
  subst hl'
  refine .bind (Yields.stopIf (Q := fun _ _ => True) (namesWheel_below ?_) trivial) fun _ s₂ h₂ _ => ?_
  · simpa [combineOut] using hout
  have hst₂ := h₁.trans h₂
  exact Yields.forM (P := fun _ => True) _ trivial fun i t hi ht _ =>
    combineToken_yields (hst₂.trans ht) hs ho hcols (List.mem_range.1 hi) hrecords hstart hout hregions

theorem Yields.act {R : Nat → Prop} {s : State} {a : Act Unit} {Q : Unit → State → Prop} (h : Yields R a s Q) :
    ∃ t, runAct a s = (.ok, t) ∧ Stored R s t ∧ Q () t := by
  obtain ⟨_, t, ht, hst, hq⟩ := h
  exact ⟨t, runAct_ok ht, hst, hq⟩

theorem combinesRun : Claim.combinesRun := by
  intro k c q l s hruns hok hl b last out hrecords hstart hdst hregions
  obtain ⟨u, hturned, hgo⟩ := routerHead_runs hruns (by decide) hok fun s q =>
    completeHead (runAct (combineWork k c q.bytes) s).2 (routerEng k) c q (runAct (combineWork k c q.bytes) s).1
  obtain ⟨-, -, -, -, -, hs, ho⟩ := hruns
  have hcols : fld q.bytes 56 4 % 64 = 0 := by
    unfold combineOk at hok
    simp only [Bool.and_eq_true, decide_eq_true_eq] at hok
    exact hok.2
  obtain ⟨t, ht, hst, -⟩ := (combineWork_yields (k := k) (hturned.clean hs) (hturned.openTo ho) (layerIs_of_mem hturned.mem hl)
    hcols hrecords hstart hdst hregions).act
  have hrow : exec (.combine k c) s = .next (completeHead t (routerEng k) c q .ok) := by
    refine congrArg Host.Outcome.next (hgo.trans ?_)
    rw [ht]
  obtain ⟨hmem, -, hrouters⟩ := completeHead_ok_same t (routerEng k) c q
  refine does_of hrow ⟨completeHead_ok_gone hturned.sameQueues hst.sameQueues, ?_, fun a ha => ?_⟩
  · rw [hrouters, hst.eq, ← hturned.routers]
  · rw [hmem]
    refine (hst.kept a fun h => ?_).trans (by rw [hturned.mem])
    obtain ⟨h1, h2⟩ : span (fld b 40 8) out a := h
    omega

end Sys2Proof.Proofs
end

