-- ==== Sys2Proof/Proofs/Dispatches.lean ====
section
/-! PROOFS. DISPATCH to experts of this module, and the notifications of a DISPATCH (spec/06 R137-R139). -/

namespace Sys2Proof.Proofs

open Sys2Proof Sys2Proof.Machine Sys2Proof.Laws

/-! ### What a DISPATCH reads first -/

/-- Work that stores nothing. -/
def nowhere (_ : Nat) : Prop := False

theorem Stored.read_nowhere {s t : State} (h : Stored nowhere s t) (a n : Nat) :
    memRead t.mem.bytes a n = memRead s.mem.bytes a n := h.read fun _ _ _ hf => hf

section
variable {s t : State} {w : Who} {b : Bytes} {l : Layer}

/-- An expert's entry, count and list are read as they stand. -/
theorem planExpert_yields (hst : Stored nowhere s t) (hs : Claim.clean s) (ho : Claim.openTo s w) {e : Nat}
    (h : Claim.planStands s b l e) : Yields nowhere (planExpert w b l e) t fun x _ => x = Claim.planOf s b l e := by
  obtain ⟨hmod, hown, hzero, hregion, -, hmap, hcount, hlist, -⟩ := h
  unfold planExpert
  refine .bind (.rd (hst.clean hs) (hst.openTo ho _ _ _ hmap)) fun m t₁ h₁ hm => ?_
  have hst₁ := hst.trans h₁
  rw [hst.read_nowhere] at hm
  subst hm
  refine .bind (Yields.stopIf (Q := fun _ _ => True) ?_ trivial) fun _ t₂ h₂ _ => ?_
  · have hlt : fld (memRead s.mem.bytes (l.map + 16 * e) 16) 0 2 < 4096 := hmod.trans_lt hown
    rw [hzero, hregion]
    simpa using hlt
  have hst₂ := hst₁.trans h₂
  refine .bind (.rdNat (hst₂.clean hs) (hst₂.openTo ho _ _ _ hcount)) fun n t₃ h₃ hn => ?_
  have hst₃ := hst₂.trans h₃
  rw [hst₂.read_nowhere] at hn
  subst hn
  refine .bind (Yields.mapM (P := fun j v => v = leNat (memRead s.mem.bytes (fld b 16 8 + (e * l.capacity + j) * 8) 4)) _
    fun j u hj hu => ?_) fun tokens t₄ h₄ htokens => ?_
  · have hst' := hst₃.trans hu
    have hj' := List.mem_range.1 hj
    have hreach := hlist (List.ne_nil_of_length_pos (by rw [Claim.planOf, List.length_map, List.length_range]; omega))
    rw [Claim.planOf, List.length_map, List.length_range] at hreach
    refine (Yields.rdNat (hst'.clean hs) (hst'.openTo ho _ _ _ (by omega))).mono fun v _ _ hv => ?_
    rw [hv, hst'.read_nowhere]
  · refine .pure ?_
    rw [map_of_forall₂ htokens]
    rfl

/-- All that an expert's rows name lies in reach. -/
theorem copies_within {e : Nat} (h : Claim.planStands s b l e) :
    ∀ y ∈ (Claim.planOf s b l e).copies b, y.1 + y.2.2 ≤ wheelBase ∧ y.2.1 + y.2.2 ≤ wheelBase := by
  obtain ⟨-, -, -, -, -, -, -, -, hreach⟩ := h
  exact hreach

/-- The plans of a DISPATCH whose experts stand on this module. -/
theorem dispatchPlan_yields {k c : Nat} {q : QCmd} (hs : Claim.clean s) (ho : Claim.openTo s (whoOf (routerEng k) c))
    (hl : Claim.layerIs s q.bytes l) (hclosed : q.closed = []) (hfits : fld q.bytes 4 2 + fld q.bytes 6 2 ≤ l.experts)
    (hstand : ∀ i, i < fld q.bytes 6 2 → Claim.planStands s q.bytes l (fld q.bytes 4 2 + i)) :
    Yields nowhere (dispatchPlan k c q) s fun plans _ =>
      plans = (List.range (fld q.bytes 6 2)).map fun i => Claim.planOf s q.bytes l (fld q.bytes 4 2 + i) := by
  unfold dispatchPlan
  dsimp only
  refine .bind (Yields.rdLayer hs ho hl) fun _ s₁ h₁ hl' => ?_
  subst hl'
  refine .bind (Yields.stopIf (Q := fun _ _ => True) (by simpa using hfits) trivial) fun _ s₂ h₂ _ => ?_
  have hst₂ := h₁.trans h₂
  refine .bind (Yields.mapM (P := fun i x => x = Claim.planOf s q.bytes l (fld q.bytes 4 2 + i)) _ fun i t hi ht =>
    planExpert_yields (hst₂.trans ht) hs ho (hstand i (List.mem_range.1 hi))) fun plans s₃ h₃ hplans => ?_
  have hst₃ := hst₂.trans h₃
  have hplans' := map_of_forall₂ hplans
  have hall : ∀ x ∈ plans, ∃ i, i < fld q.bytes 6 2 ∧ x = Claim.planOf s q.bytes l (fld q.bytes 4 2 + i) := fun x hx => by
    rw [hplans'] at hx
    obtain ⟨i, hi, rfl⟩ := List.mem_map.1 hx
    exact ⟨i, List.mem_range.1 hi, rfl⟩
  refine .get_bind (.bind (Yields.stopIf (Q := fun _ _ => True) (namesWheel_below fun r hr => ?_) trivial) fun _ s₄ h₄ _ => ?_)
  · rcases List.mem_append.1 hr with hr | hr
    all_goals
      obtain ⟨lst, hlst, hmem⟩ := List.mem_flatten.1 hr
      obtain ⟨x, hx, rfl⟩ := List.mem_map.1 hlst
      obtain ⟨y, hy, rfl⟩ := List.mem_map.1 hmem
    · obtain ⟨i, hi, rfl⟩ := hall x hx
      exact (copies_within (hstand i hi) y hy).1
    · obtain ⟨i, hi, rfl⟩ := hall x (List.mem_filter.1 hx).1
      exact (copies_within (hstand i hi) y hy).2
  refine .bind (Yields.stopIf (Q := fun _ _ => True) ?_ trivial) fun _ s₅ h₅ _ => ?_
  · rw [hclosed]
    simp
  refine .bind (Yields.stopIf (Q := fun _ _ => True) ?_ trivial) fun _ s₆ h₆ _ => ?_
  · rw [List.any_eq_false]
    intro x hx
    obtain ⟨i, hi, rfl⟩ := hall x (List.mem_filter.1 hx).1
    obtain ⟨-, -, -, -, hen, -⟩ := hstand i hi
    have hslip : s₃.slip = s.slip := by rw [hst₃.eq]
    rw [getSq_of_slip hslip, hen]
    decide
  exact .pure hplans'

end

/-! ### Rows copied -/

/-- The places that copies write. -/
def copyPlaces (l : List (Nat × Nat × Nat)) (a : Nat) : Prop := ∃ y ∈ l, span y.2.1 y.2.2 a

/-- Where copies keep apart, in what they write and from what they read. -/
def copiesApart (l : List (Nat × Nat × Nat)) : Prop :=
  l.Pairwise (fun y z => y.2.1 + y.2.2 ≤ z.2.1 ∨ z.2.1 + z.2.2 ≤ y.2.1) ∧
  ∀ y ∈ l, ∀ z ∈ l, y.2.1 + y.2.2 ≤ z.1 ∨ z.1 + z.2.2 ≤ y.2.1

/-- Every copy stands at its place. -/
def copiesDone (s t : State) (l : List (Nat × Nat × Nat)) : Prop :=
  ∀ y ∈ l, memRead t.mem.bytes y.2.1 y.2.2 = memRead s.mem.bytes y.1 y.2.2

/-- Copies made one after the other: each reads its source and writes its place. -/
theorem copies_yield {α : Type} (f : α → Act PUnit) (g : α → Nat × Nat × Nat) {s : State} (l : List α)
    (hf : ∀ x ∈ l, ∀ t, Stored (fun _ => True) s t →
      Yields (span (g x).2.1 (g x).2.2) (f x) t fun _ u => u.mem.bytes = memWrite t.mem.bytes (g x).2.1 (memRead t.mem.bytes (g x).1 (g x).2.2))
    (t : State) (ht : Stored (fun _ => True) s t) :
    ∃ u, runActVal (l.forM f) t = (.ok (), u) ∧ Stored (copyPlaces (l.map g)) t u ∧
      (copiesApart (l.map g) → copiesDone t u (l.map g)) := by
  induction l generalizing t with
  | nil => exact ⟨t, rfl, .refl _ t, fun _ y hy => absurd hy List.not_mem_nil⟩
  | cons x l ih =>
    obtain ⟨_, t₁, hrun, hst, hbytes⟩ := hf x (List.mem_cons_self ..) t ht
    obtain ⟨u, hu, hstu, hdone⟩ := ih (fun y hy => hf y (List.mem_cons_of_mem _ hy)) t₁ (ht.trans (hst.mono fun _ _ => trivial))
    refine ⟨u, (runActVal_bind_ok hrun).trans hu, ?_, fun hap y hy => ?_⟩
    · exact (hst.mono fun a ha => ⟨g x, List.mem_cons_self .., ha⟩).trans
        (hstu.mono fun a ⟨y, hy, ha⟩ => ⟨y, List.mem_cons_of_mem _ hy, ha⟩)
    · obtain ⟨hpair, hsrc⟩ := hap
      rw [List.map_cons, List.pairwise_cons] at hpair
      obtain ⟨hfirst, hrest⟩ := hpair
      rcases List.mem_cons.1 hy with rfl | hy
      · rw [hstu.read fun j h1 h2 hin => ?_, hbytes]
        · have h := memRead_memWrite t.mem.bytes (g x).2.1 (memRead t.mem.bytes (g x).1 (g x).2.2)
          rwa [memRead_length] at h
        · obtain ⟨z, hz, hlo, hhi⟩ := hin
          have := hfirst z hz
          omega
      · have hdone' := hdone ⟨hrest, fun a ha b hb => hsrc a (List.mem_cons_of_mem _ ha) b (List.mem_cons_of_mem _ hb)⟩ y hy
        rw [hdone', hbytes, memRead_memWrite_apart]
        rw [memRead_length]
        exact (hsrc (g x) (List.mem_cons_self ..) y (List.mem_cons_of_mem _ hy)).symm

theorem runActVal_forM_append {α : Type} (f : α → Act PUnit) (l m : List α) (s : State) :
    runActVal ((l ++ m).forM f) s = runActVal (l.forM f >>= fun _ => m.forM f) s := by
  induction l generalizing s with
  | nil => rfl
  | cons x l ih =>
    have hcons : (x :: l ++ m).forM f = f x >>= fun _ => (l ++ m).forM f := rfl
    have hcons' : (x :: l).forM f = f x >>= fun _ => l.forM f := rfl
    rw [hcons, hcons', runActVal_bind, runActVal_bind, runActVal_bind]
    rcases runActVal (f x) s with ⟨e | _, t⟩
    · rfl
    · dsimp only
      rw [ih, runActVal_bind]

/-- Work over lists within a list is work over all their elements. -/
theorem runActVal_forM_forM {α β : Type} (h : α → List β) (f : α → β → Act PUnit) (l : List α) (s : State) :
    runActVal (l.forM fun x => (h x).forM (f x)) s =
      runActVal ((l.map fun x => (h x).map fun y => (x, y)).flatten.forM fun p => f p.1 p.2) s := by
  induction l generalizing s with
  | nil => rfl
  | cons x l ih =>
    have hfirst (m : List β) (t : State) : runActVal ((m.map fun y => (x, y)).forM fun p => f p.1 p.2) t = runActVal (m.forM (f x)) t := by
      induction m generalizing t with
      | nil => rfl
      | cons y m ihm =>
        have hc : ((y :: m).map fun y => (x, y)).forM (fun p => f p.1 p.2) =
          f x y >>= fun _ => (m.map fun y => (x, y)).forM fun p => f p.1 p.2 := rfl
        have hc' : (y :: m).forM (f x) = f x y >>= fun _ => m.forM (f x) := rfl
        rw [hc, hc', runActVal_bind, runActVal_bind]
        rcases runActVal (f x y) t with ⟨e | _, u⟩
        · rfl
        · exact ihm u
    have hcons : (x :: l).forM (fun x => (h x).forM (f x)) = (h x).forM (f x) >>= fun _ => l.forM fun x => (h x).forM (f x) := rfl
    rw [List.map_cons, List.flatten_cons, runActVal_forM_append, hcons, runActVal_bind, runActVal_bind, hfirst]
    rcases runActVal ((h x).forM (f x)) s with ⟨e | _, t⟩
    · rfl
    · exact ih t

/-! ### A DISPATCH starts -/

theorem tabPut_tabPut {α : Type} (t : Tab α) (k : Nat) (v w : α) : tabPut (tabPut t k v) k w = tabPut t k w := by
  induction t with
  | nil => simp [tabPut]
  | cons e t ih =>
    obtain ⟨i, x⟩ := e
    rcases Nat.lt_trichotomy k i with h | rfl | h
    · simp [tabPut, h]
    · simp [tabPut]
    · simp [tabPut, Nat.not_lt.2 (Nat.le_of_lt h), Nat.ne_of_gt h, ih]

/-- The state in which a DISPATCH has left its queue and stands on its router. -/
def dispatching (s : State) (k c : Nat) (o : DispOp) : State :=
  modRouter (popQ s (routerEng k) c) k fun r => { r with ops := tabPut r.ops c o }

theorem dispOf_dispatching (s : State) (k c : Nat) (o : DispOp) : dispOf (dispatching s k c o) k c = some o := by
  rw [dispOf, dispatching, getRouter_modRouter]
  exact tabFind_tabPut_self _ _ _

/-- Changing nothing of a command in progress changes nothing. -/
theorem setDisp_dispatching {s t : State} {k c : Nat} {o : DispOp} (ht : t.routers = (dispatching s k c o).routers)
    {f : DispOp → DispOp} (hf : f o = o) : setDisp t k c f = t := by
  have hdisp : dispOf t k c = some o := by
    rw [dispOf, getRouter_of_routers ht]
    exact dispOf_dispatching s k c o
  rw [setDisp_of hdisp, hf, modRouter]
  have hrouters : tabMod {} t.routers k (fun r => { r with ops := tabPut r.ops c o }) = t.routers := by
    have hget : tabGet {} t.routers k = { getRouter s k with ops := tabPut (getRouter s k).ops c o } := by
      rw [ht]
      exact getRouter_modRouter (popQ s (routerEng k) c) k _
    rw [tabMod, hget, ht, dispatching, modRouter, tabMod]
    dsimp only
    rw [tabPut_tabPut, tabPut_tabPut]
    rfl
  rw [hrouters]

/-- One row piece of a DISPATCH: it is copied, and its expert counts the operations started. -/
def rowCopy (k c : Nat) (x : DispPlan) (y : Nat × Nat × Nat) : Act PUnit := do
  let started ← dispatchPiece k c x.expert x.module y.1 y.2.1 y.2.2
  actMod fun s => setDisp s k c fun o => { o with
    experts := o.experts.map fun z => if z.expert = x.expert then { z with left := z.left + started } else z }

theorem dispatchExpert_eq (k c : Nat) (b : Bytes) (x : DispPlan) : dispatchExpert k c b x = (x.copies b).forM (rowCopy k c x) := rfl

/-- Counting no operation leaves a command as it is. -/
theorem startedNone (e : Nat) (o : DispOp) : { o with
    experts := o.experts.map fun z => if z.expert = e then { z with left := z.left + 0 } else z } = o := by
  have h : o.experts.map (fun z => if z.expert = e then { z with left := z.left + 0 } else z) = o.experts := by
    refine (List.map_congr_left fun z _ => ?_).trans (List.map_id _)
    split <;> rfl
  rw [h]

section
variable {s t : State} {k c : Nat} {o : DispOp}

theorem rowCopy_yields (ht : Stored (fun _ => True) (dispatching s k c o) t) (hs : Claim.clean s)
    (ho : Claim.openTo s (whoOf (routerEng k) c)) {x : DispPlan} (hown : x.module = ownModule s) {y : Nat × Nat × Nat}
    (hin : y.1 + y.2.2 ≤ wheelBase ∧ y.2.1 + y.2.2 ≤ wheelBase) : Yields (span y.2.1 y.2.2) (rowCopy k c x y) t
      fun _ u => u.mem.bytes = memWrite t.mem.bytes y.2.1 (memRead t.mem.bytes y.1 y.2.2) := by
  have hs' : Claim.clean (dispatching s k c o) := hs
  have ho' : Claim.openTo (dispatching s k c o) (whoOf (routerEng k) c) := ho
  unfold rowCopy dispatchPiece
  refine .bind (Q := fun n u => n = 0 ∧ u.mem.bytes = memWrite t.mem.bytes y.2.1 (memRead t.mem.bytes y.1 y.2.2)) ?_
    fun n u hu ⟨hn, hbytes⟩ => ?_
  · refine .bind (.rdMem (ht.clean hs') (ht.openTo ho' _ _ _ hin.1)) fun v t₁ h₁ ⟨hv, hmem⟩ => .get_bind ?_
    have hst₁ := ht.trans (h₁.mono fun _ _ => trivial)
    have hmod : x.module = ownModule t₁ := by rw [ownModule_of_fry (by rw [hst₁.eq]), hown]; rfl
    rw [if_pos hmod]
    have hlen : v.length = y.2.2 := by rw [hv, memRead_length]
    refine .bind (.wr (hst₁.clean hs') (hst₁.openTo ho' _ _ _ (by rw [hlen]; exact hin.2)) fun j h1 h2 => ⟨h1, by omega⟩)
      fun _ t₂ h₂ hbytes => .pure ⟨rfl, ?_⟩
    rw [hbytes, hv, hmem]
  · subst hn
    have hsame : setDisp u k c (fun o => { o with
        experts := o.experts.map fun z => if z.expert = x.expert then { z with left := z.left + 0 } else z }) = u :=
      setDisp_dispatching (o := o) (s := s) (by rw [hu.eq, ht.eq]) (startedNone _ _)
    refine ⟨(), u, ?_, .refl _ u, hbytes⟩
    rw [runActVal_actMod, hsame]

end

/-- A DISPATCH whose experts are not notified yet stays on its router. -/
theorem settleDispatch_stays {s : State} {k c : Nat} {o : DispOp} (h : dispOf s k c = some o) (hv : o.verdict = none)
    (hx : ∃ x ∈ o.experts, x.pushed = false) : settleDispatch s k c = s := by
  obtain ⟨x, hx, hp⟩ := hx
  have hnot : o.experts.all (·.pushed) = false := List.all_eq_false.2 ⟨x, hx, by simp [hp]⟩
  have h' : tabFind (getRouter s k).ops c = some o := h
  simp only [settleDispatch, h', hv, hnot, Bool.and_false, Bool.false_eq_true, if_false]

/-- The copies of all experts of a DISPATCH. -/
theorem dispatchCopies_of {s : State} {k c : Nat} {o : DispOp} {b : Bytes} {plans : List DispPlan} (hs : Claim.clean s)
    (ho : Claim.openTo s (whoOf (routerEng k) c)) (hown : ∀ x ∈ plans, x.module = ownModule s)
    (hin : ∀ x ∈ plans, ∀ y ∈ x.copies b, y.1 + y.2.2 ≤ wheelBase ∧ y.2.1 + y.2.2 ≤ wheelBase) :
    ∃ u, runAct (plans.forM (dispatchExpert k c b)) (dispatching s k c o) = (.ok, u) ∧
      Stored (copyPlaces (plans.map fun x => x.copies b).flatten) (dispatching s k c o) u ∧
      (copiesApart (plans.map fun x => x.copies b).flatten → copiesDone s u (plans.map fun x => x.copies b).flatten) := by
  obtain ⟨ps, hps⟩ : ∃ ps, ps = (plans.map fun x => (x.copies b).map fun y => (x, y)).flatten := ⟨_, rfl⟩
  have hmem : ∀ p ∈ ps, p.1 ∈ plans ∧ p.2 ∈ p.1.copies b := fun p hp => by
    rw [hps] at hp
    obtain ⟨lst, hlst, hin⟩ := List.mem_flatten.1 hp
    obtain ⟨x, hx, rfl⟩ := List.mem_map.1 hlst
    obtain ⟨y, hy, rfl⟩ := List.mem_map.1 hin
    exact ⟨hx, hy⟩
  have hsnd : ps.map (·.2) = (plans.map fun x => x.copies b).flatten := by
    rw [hps, List.map_flatten, List.map_map]
    refine congrArg List.flatten (List.map_congr_left fun x _ => ?_)
    simp
  obtain ⟨u, hu, hst, hdone⟩ := copies_yield (fun p : DispPlan × Nat × Nat × Nat => rowCopy k c p.1 p.2) (·.2) ps
    (fun p hp t ht => rowCopy_yields ht hs ho (hown p.1 (hmem p hp).1) (hin p.1 (hmem p hp).1 p.2 (hmem p hp).2))
    (dispatching s k c o) (.refl _ _)
  rw [hsnd] at hst hdone
  refine ⟨u, runAct_ok ?_, hst, hdone⟩
  have hrun := runActVal_forM_forM (fun x : DispPlan => x.copies b) (rowCopy k c) plans (dispatching s k c o)
  rw [← hps, hu] at hrun
  exact hrun

/-- The command that a DISPATCH leaves on its router. -/
def dispatchOp (q : QCmd) (plans : List DispPlan) : DispOp :=
  { cmd := q, experts := plans.map fun x => { expert := x.expert, module := x.module, queue := x.queue, rows := x.tokens.length } }

theorem dispatchesRun : Claim.dispatchesRun := by
  intro k c q l s hruns hok hl hclosed hfits plans hstand
  obtain ⟨u, hturned, hgo⟩ := routerHead_runs hruns (by decide) hok fun s q =>
    match runActVal (dispatchPlan k c q) s with
    | (.error st, s) => completeHead s (routerEng k) c q st
    | (.ok plans, s) =>
      let r := runAct (plans.forM (dispatchExpert k c q.bytes)) (dispatching s k c (dispatchOp q plans))
      if r.1 = .ok then settleDispatch r.2 k c else failDisp r.2 k c r.1 {}
  obtain ⟨-, -, -, -, -, hs, ho⟩ := hruns
  have hstand' : ∀ i, i < fld q.bytes 6 2 → Claim.planStands u q.bytes l (fld q.bytes 4 2 + i) := by
    rw [hturned.eq]; exact hstand
  have hplans : ((List.range (fld q.bytes 6 2)).map fun i => Claim.planOf u q.bytes l (fld q.bytes 4 2 + i)) = plans := by
    rw [hturned.eq]; rfl
  obtain ⟨_, v, hv, hplan, hsame⟩ := dispatchPlan_yields (k := k) (c := c) (q := q) (hturned.clean hs) (hturned.openTo ho)
    (layerIs_of_mem hturned.mem hl) hclosed hfits hstand'
  rw [hplans] at hsame
  subst hsame
  have hvfry : v.fry = s.fry := by rw [hplan.eq, hturned.eq]
  have hvmem (a n : Nat) : memRead v.mem.bytes a n = memRead s.mem.bytes a n := by rw [hplan.read_nowhere, hturned.mem]
  have hall : ∀ x ∈ plans, ∃ i, i < fld q.bytes 6 2 ∧ x = Claim.planOf s q.bytes l (fld q.bytes 4 2 + i) := fun x hx => by
    obtain ⟨i, hi, rfl⟩ := List.mem_map.1 hx
    exact ⟨i, List.mem_range.1 hi, rfl⟩
  obtain ⟨w, hw, hst, hdone⟩ := dispatchCopies_of (s := v) (k := k) (c := c) (o := dispatchOp q plans) (b := q.bytes) (plans := plans)
    (hplan.clean (hturned.clean hs)) (hplan.openTo (hturned.openTo ho)) (fun x hx => by
      obtain ⟨i, hi, rfl⟩ := hall x hx
      rw [ownModule_of_fry hvfry]
      exact (hstand i hi).1) (fun x hx => by
      obtain ⟨i, hi, rfl⟩ := hall x hx
      exact copies_within (hstand i hi))
  have hwrouters : w.routers = (dispatching v k c (dispatchOp q plans)).routers := by rw [hst.eq]
  have hwdisp : dispOf w k c = some (dispatchOp q plans) := by
    rw [dispOf, getRouter_of_routers hwrouters]
    exact dispOf_dispatching v k c _
  have hvrouters : v.routers = s.routers := by rw [hplan.eq, hturned.eq]
  have hrouter : getRouter w k = { getRouter s k with ops := tabPut (getRouter s k).ops c (dispatchOp q plans) } := by
    rw [getRouter_of_routers hwrouters, dispatching, getRouter_modRouter, ← getRouter_of_routers hvrouters k]
    rfl
  have hsome : ∃ x ∈ (dispatchOp q plans).experts, x.pushed = false := by
    have h6 : 1 ≤ fld q.bytes 6 2 := by
      unfold dispatchOk at hok
      simp only [Bool.and_eq_true, decide_eq_true_eq] at hok
      obtain ⟨⟨⟨⟨⟨⟨⟨⟨⟨-, h6⟩, -⟩, -⟩, -⟩, -⟩, -⟩, -⟩, -⟩, -⟩ := hok
      exact h6
    have hx : Claim.planOf s q.bytes l (fld q.bytes 4 2 + 0) ∈ plans := List.mem_map.2 ⟨0, List.mem_range.2 h6, rfl⟩
    exact ⟨_, List.mem_map.2 ⟨_, hx, rfl⟩, rfl⟩
  have hrow : exec (.dispatch k c) s = .next w := by
    refine congrArg Host.Outcome.next (hgo.trans ?_)
    rw [hv]
    dsimp only
    rw [hw]
    exact (if_pos rfl).trans (settleDispatch_stays hwdisp rfl hsome)
  refine does_of hrow ⟨?_, by rw [hrouter]; exact tabFind_tabPut_self _ _ _, fun d hd => ?_, by rw [hrouter], fun j hj => ?_, ?_⟩
  · exact headGone_of_same (hturned.sameQueues.trans hplan.sameQueues) (.of_engs (by rw [hst.eq]; rfl)) (popQ_gone v (routerEng k) c)
  · rw [hrouter]
    exact (tabFind_tabPut _ _ _ _).trans (if_neg (Ne.symm hd))
  · rw [getRouter_of_routers hwrouters, dispatching, getRouter_modRouter_ne _ _ _ (Ne.symm hj)]
    exact getRouter_of_routers hvrouters j
  · refine ⟨fun a ha => ?_, fun hpair hsrc y hy => ?_⟩
    · refine (hst.kept a fun ⟨y, hy, h1, h2⟩ => ?_).trans ((hplan.kept a id).trans (by rw [hturned.mem]))
      have := ha y hy
      omega
    · rw [hdone ⟨hpair, hsrc⟩ y hy, hvmem]

end Sys2Proof.Proofs
end

