-- ==== Sys2Proof/Proofs/Notifications.lean ====
section
/-! PROOFS. The notifications of a DISPATCH: one packet for each expert, here or toward its module (spec/06 R139). -/

namespace Sys2Proof.Proofs

open Sys2Proof Sys2Proof.Machine Sys2Proof.Laws

/-! ### Settling a DISPATCH -/

section
variable {s : State} {k c : Nat} {o : DispOp} (h : dispOf s k c = some o) (hv : o.verdict = none)
include h hv

/-- Settling a command that has not failed leaves memory, the queues of the manager and the ferry's paths' ends. -/
theorem settleDispatch_good : (settleDispatch s k c).slip = s.slip ∧ (settleDispatch s k c).mem = s.mem := by
  have h' : tabFind (getRouter s k).ops c = some o := h
  simp only [settleDispatch, h', hv]
  split
  · rw [completeCmd_good _ _ _ _ rfl]
    obtain ⟨t, ht⟩ : ∃ t, t = modRouter s k fun r => { r with ops := tabDel r.ops c } := ⟨_, rfl⟩
    rw [← ht]
    have hr : Fr 205056 t (reportCmd t o.cmd.origin .ok) := reportCmd_fr (by decide) (.refl _ _)
    exact ⟨(hr.same .slip rfl).trans (by rw [ht]; rfl), (hr.same .mem rfl).trans (by rw [ht]; rfl)⟩
  · exact ⟨rfl, rfl⟩

/-- The last notification ends its DISPATCH. -/
theorem settleDispatch_ends (hp : o.pushes = 0) (hall : ∀ x ∈ o.experts, x.left = 0 ∧ x.pushed = true) :
    dispOf (settleDispatch s k c) k c = none := by
  have h' : tabFind (getRouter s k).ops c = some o := h
  have hidle : (o.pushes = 0 && o.experts.all fun x => x.left = 0) = true := by
    rw [Bool.and_eq_true, List.all_eq_true]
    exact ⟨decide_eq_true hp, fun x hx => decide_eq_true (hall x hx).1⟩
  have hpushed : o.experts.all (·.pushed) = true := List.all_eq_true.2 fun x hx => (hall x hx).2
  simp only [settleDispatch, h', hv, hidle, hpushed, Bool.and_self, if_true]
  rw [dispOf, getRouter_of_routers (completeCmd_routers _ _ _ _ _ _), getRouter_modRouter]
  exact (tabFind_tabDel _ _ _).trans (if_pos rfl)

/-- While one of its pushes is in flight a DISPATCH stays. -/
theorem settleDispatch_inFlight (hp : o.pushes ≠ 0) : settleDispatch s k c = s := by
  have h' : tabFind (getRouter s k).ops c = some o := h
  simp only [settleDispatch, h', hv, hp, decide_false, Bool.false_and, Bool.false_eq_true, if_false]

end

/-! ### The expert to notify -/

theorem find?_of_unique {α : Type} {l : List α} {p : α → Bool} {x : α} (hx : x ∈ l) (hp : p x = true)
    (hu : ∀ y ∈ l, p y = true → y = x) : l.find? p = some x := by
  cases h : l.find? p with
  | none => exact absurd hp (List.find?_eq_none.1 h x hx)
  | some y => rw [hu y (List.mem_of_find?_eq_some h) (List.find?_some h)]

/-- The PUSH frame of a notification to another module. -/
def notifyFrame (s : State) (c : Nat) (o : DispOp) (x : DispExpert) (tag : BitVec 32) : FFrame :=
  { op := 5, vc := 3, ctx := c, tag := tag, addr := x.queue, arg := 1, payload := notifyWord s o.cmd.bytes x }

/-- The command with an expert's notification pushed. -/
def notedOp (o : DispOp) (e remote : Nat) : DispOp :=
  { o with pushes := o.pushes + remote, experts := o.experts.map fun z => if z.expert = e then { z with pushed := true } else z }

theorem markPushed_eq {s : State} {k c : Nat} {o : DispOp} (h : dispOf s k c = some o) (e remote : Nat) :
    ∃ u, markPushed s k c e remote = settleDispatch u k c ∧ dispOf u k c = some (notedOp o e remote) ∧
      u = { s with routers := u.routers } := by
  refine ⟨_, rfl, ?_, ?_⟩
  · rw [(setDisp_disp s k c _).2, h]
    rfl
  · rw [setDisp_of h]
    rfl

section
variable {s : State} {k c : Nat} {o : DispOp} {x : DispExpert} (ho : dispOf s k c = some o) (hv : o.verdict = none)
  (hx : x ∈ o.experts) (hdistinct : (o.experts.map (·.expert)).Nodup) (hleft : x.left = 0) (hpushed : x.pushed = false)
include ho hv hx hdistinct hleft hpushed

omit ho hv in
theorem notifies : (o.experts.find? fun y => y.expert = x.expert && y.left = 0 && !y.pushed) = some x :=
  find?_of_unique hx (by simp [hleft, hpushed]) fun y hy hp => by
    simp only [Bool.and_eq_true, decide_eq_true_eq] at hp
    exact List.inj_on_of_nodup_map hdistinct hy hx hp.1.1

/-- Without credit a notification waits. -/
theorem dispatchNotify_waits (hown : x.module = ownModule s)
    (hcredit : checkCredit s (notifyGrant s c x) c x.queue 1 = .waits) : dispatchNotify s k c x.expert = s := by
  have ho' : tabFind (getRouter s k).ops c = some o := ho
  simp only [dispatchNotify, ho', notifies hx hdistinct hleft hpushed, hv, hown, hcredit, Option.isSome_none,
    decide_true, Bool.not_true, Bool.false_and, Bool.false_eq_true, if_false]

/-- With credit a notification on a queue of this module is a packet of one word. -/
theorem dispatchNotify_here {w : State} (hown : x.module = ownModule s)
    (hcredit : checkCredit s (notifyGrant s c x) c x.queue 1 = .room)
    (hpush : pushWord s k x.queue c (notifyWord s o.cmd.bytes x) = (.ok, w)) :
    dispatchNotify s k c x.expert = markPushed w k c x.expert 0 := by
  have ho' : tabFind (getRouter s k).ops c = some o := ho
  simp only [dispatchNotify, ho', notifies hx hdistinct hleft hpushed, hv, hown, hcredit, hpush, Option.isSome_none,
    decide_true, Bool.not_true, Bool.false_and, Bool.false_eq_true, if_false, if_true]

/-- With credit a notification to another module is a PUSH frame on the path chosen. -/
theorem dispatchNotify_away {p : Nat} {u : State} (hown : x.module ≠ ownModule s) (hport : choosePort s x.module = some (p, u))
    (hsent : s.slip.unsent.contains x.module = false)
    (hcredit : checkCredit s (notifyGrant s c x) c x.queue 1 = .room) :
    ∃ v, v = modAccount u x.queue x.module c (fun g => g.hold 1) ∧ dispatchNotify s k c x.expert =
      markPushed (queueFrame (startOp (chargeFerry v c 32) p x.module 1 (.notify k c x.queue)).2 p x.module
        (notifyFrame s c o x (startOp (chargeFerry v c 32) p x.module 1 (.notify k c x.queue)).1)) k c x.expert 1 := by
  have ho' : tabFind (getRouter s k).ops c = some o := ho
  have hlost : pushLost s x.module = false := by rw [pushLost, hsent, hport]; rfl
  refine ⟨_, rfl, ?_⟩
  simp only [dispatchNotify, ho', notifies hx hdistinct hleft hpushed, hv, hown, hcredit, hport, hlost, Option.isSome_none,
    decide_false, Bool.not_false, Bool.true_and, Bool.false_eq_true, if_false]
  rfl

end

theorem notifyWord_length (s : State) (b : Bytes) (x : DispExpert) : (notifyWord s b x).length = 32 := by
  simp [notifyWord, toLe_length]

/-- A packet of one word on a local queue. -/
theorem pushWord_of {s : State} {k q c : Nat} {word : Bytes} {y : SlipQ} (hy : getSq s q = y) (hs : Claim.clean s)
    (hlen : word.length = 32) (hring : y.base.toNat + y.size * 48 ≤ cacheBase)
    (hmay : mayAccess s (whoOf (routerEng k) c) (wordAddr y y.resv.toNat) 32 true = true)
    (hitems : ∀ r ∈ y.items, r.pos < y.resv.toNat) (hres : y.resolved = y.resv) (hend : y.resv.toNat + 1 < 2 ^ 64) :
    ∃ w, pushWord s k q c word = (.ok, w) ∧ w = { s with mem := w.mem, prt := w.prt, slip := w.slip } ∧
      (getSq w q).commit = y.commit + 1 ∧ memRead w.mem.bytes (wordAddr y y.resv.toNat) 32 = word := by
  obtain ⟨s₁, hs₁⟩ : ∃ s₁, s₁ = reserve s q (ownModule s) c 1 (some (routerEng k)) 0 none := ⟨_, rfl⟩
  have heq : s₁ = { s with slip := s₁.slip } := by rw [hs₁]; rfl
  have hsq : getSq s₁ q = { y with
      resv := y.resv + w64 1, items := y.items ++ [newResv y (ownModule s) c 1 (some (routerEng k)) 0 none] } := by
    rw [hs₁, getSq_reserve, hy]
  have hplace (p : Nat) : wordAddr (getSq s₁ q) p = wordAddr y p := by rw [hsq]; rfl
  obtain ⟨t, ht, hw⟩ := writeWords_of (s := s₁) (w := whoOf (routerEng k) c) (q := q) (pos := y.resv.toNat) (n := 1) (b := word)
    (by rw [heq]; exact hs) (by rw [hlen]) (size_pos _) (fun j hj => by
      obtain rfl : j = 0 := by omega
      rw [hplace, Nat.add_zero, heq]
      exact hmay)
  have htsq : getSq t q = _ := (getSq_of_slip hw.slip q).trans hsq
  have hcommit := committed_of (s := t) (q := q) (pre := y.items) (post := [])
    (r := newResv y (ownModule s) c 1 (some (routerEng k)) 0 none) (w := 1) hw.clean (by rw [htsq]) rfl
    (by rw [htsq]; dsimp only; rw [hres]; exact hitems) (by rw [htsq]; dsimp only; rw [hres]; exact Nat.le_refl _) (Nat.le_refl 1) hend
    (fun z hz => absurd hz List.not_mem_nil) (by rw [htsq]; exact hring)
  refine ⟨_, ?_, ?_, by rw [hcommit.sq, htsq], ?_⟩
  · simp only [pushWord, hy, ← hs₁, ht]
    rfl
  · rw [hcommit.eq, hw.eq, heq]
  · have hframe := (frameAddr_bounds y y.commit.toNat).1
    have hplace' : frameAddr (getSq t q) (getSq t q).commit.toNat = frameAddr y y.commit.toNat := by rw [htsq]; rfl
    rw [hcommit.bytes, hplace', memRead_memWrite_apart _ _ _ _ _ (.inl (by have := (wordAddr_bounds y y.resv.toNat).2; omega))]
    have hword := hw.words 0 (by decide)
    rw [hplace, Nat.add_zero] at hword
    rw [hword]
    simp [← hlen]

/-- The choice of a port leaves all but the round robin of ports. -/
theorem choosePort_turn {s t : State} {x p : Nat} (h : choosePort s x = some (p, t)) :
    t = { s with fry := { s.fry with turn := t.fry.turn } } := by
  unfold choosePort at h
  dsimp only at h
  split at h
  · obtain ⟨-, rfl⟩ := Prod.mk.inj (Option.some.inj h)
    rfl
  · exact absurd h (by simp)

theorem notificationsLeave : Claim.notificationsLeave := by
  intro k c o x s hc ho hv hx hdistinct hleft hpushed check y noted
  refine ⟨fun hown => ⟨fun hcredit => ?_, fun hcredit hs hring hmay hitems hres hend => ?_⟩,
    fun p u hown hport hsent hcredit => ?_⟩
  · exact congrArg Host.Outcome.next (dispatchNotify_waits ho hv hx hdistinct hleft hpushed hown hcredit)
  · obtain ⟨w, hw, hweq, hcommit, hword⟩ := pushWord_of (s := s) (k := k) (q := x.queue) (c := c) rfl hs
      (notifyWord_length s o.cmd.bytes x) hring hmay hitems hres hend
    have hrow : exec (.dispatchNotify k c x.expert) s = .next (markPushed w k c x.expert 0) :=
      congrArg Host.Outcome.next (dispatchNotify_here ho hv hx hdistinct hleft hpushed hown hcredit hw)
    have hwo : dispOf w k c = some o := by rw [dispOf, getRouter_of_routers (by rw [hweq])]; exact ho
    obtain ⟨z, hz, hzo, hzeq⟩ := markPushed_eq hwo x.expert 0
    rw [hz] at hrow
    obtain ⟨hslip, hmem⟩ := settleDispatch_good hzo hv
    have hzslip : z.slip = w.slip := by rw [hzeq]
    have hzmem : z.mem = w.mem := by rw [hzeq]
    refine does_of hrow ⟨?_, ?_, fun ⟨v, hvmem, hvne, hvp⟩ => ?_, fun hall hp => ?_⟩
    · rw [getSq_of_slip (hslip.trans hzslip), hcommit]
    · rw [hmem, hzmem]
      exact hword
    · have hmem' : v ∈ (notedOp o x.expert 0).experts := List.mem_map.2 ⟨v, hvmem, if_neg hvne⟩
      rw [settleDispatch_stays hzo hv ⟨v, hmem', hvp⟩]
      exact hzo
    · refine settleDispatch_ends hzo hv hp fun v hvm => ?_
      obtain ⟨v', hv', rfl⟩ := List.mem_map.1 hvm
      by_cases he : v'.expert = x.expert
      · obtain rfl := List.inj_on_of_nodup_map hdistinct hv' hx he
        rw [if_pos rfl]
        exact ⟨hleft, rfl⟩
      · rw [if_neg he]
        exact ⟨(hall v' hv' he).2, (hall v' hv' he).1⟩
  · obtain ⟨v, hv', hgo⟩ := dispatchNotify_away ho hv hx hdistinct hleft hpushed hown hport hsent hcredit
    have hu := choosePort_turn hport
    obtain ⟨a, ha⟩ : ∃ a, a = chargeFerry v c 32 := ⟨_, rfl⟩
    have haeq : a = { v with prt := a.prt } := by
      rw [ha]
      exact (chargeFerry_fr (mk := 8) (by decide) (Fr.refl _ _) : Fr 8 v (chargeFerry v c 32)).eq_merge
    have hafry : a.fry = u.fry := by rw [haeq, hv']; rfl
    have htag : (startOp a p x.module 1 (.notify k c x.queue)).1 = s.fry.nextTag := by
      rw [startOp, hafry, hu]
    obtain ⟨f, hf⟩ : ∃ f, f = notifyFrame s c o x s.fry.nextTag := ⟨_, rfl⟩
    obtain ⟨b, hb⟩ : ∃ b, b = (startOp a p x.module 1 (.notify k c x.queue)).2 := ⟨_, rfl⟩
    rw [← ha, htag, ← hf, ← hb] at hgo
    have hpath : getPath b p x.module = getPath s p x.module := by
      have h : b.fry.paths = s.fry.paths := by rw [hb, startOp, modFry, hafry, hu]
      rw [getPath, h]; rfl
    have hrouters : (queueFrame b p x.module f).routers = s.routers := by rw [hb, startOp, haeq, hv', hu]; rfl
    obtain ⟨z, hz, hzo, hzeq⟩ := markPushed_eq (s := queueFrame b p x.module f) (o := o)
      (by rw [dispOf, getRouter_of_routers hrouters]; exact ho) x.expert 1
    rw [hz, settleDispatch_inFlight hzo hv (Nat.succ_ne_zero _)] at hgo
    refine does_of (congrArg Host.Outcome.next hgo) ⟨hzo, ?_, ?_, ?_⟩
    · have hzfry : z.fry = (queueFrame b p x.module f).fry := by rw [hzeq]
      rw [getPath, hzfry, ← getPath, getPath_queueFrame, hpath, hf]
      rfl
    · rw [hzeq, hb, startOp, haeq, hv', hu]; rfl
    · rw [hzeq, hb, startOp, haeq, hv', hu]; rfl

/-- Settles O38: ROUTE, COMBINE, DISPATCH to experts of this module, and the notifications. -/
theorem routersRun : Obligations.RoutersRun := ⟨routesRun, combinesRun, dispatchesRun, notificationsLeave⟩

end Sys2Proof.Proofs
end

