-- ==== Sys2Proof/Proofs/Pins.lean ====
section
/-! PROOFS. PIN and UNPIN: what a store holds for a context, and what an eviction takes (spec/07 R161, R166, R177-R179). -/

namespace Sys2Proof.Proofs

open Sys2Proof Sys2Proof.Machine Sys2Proof.Laws

/-! ### The head command of a barge -/

/-- A barge's command that may run runs. -/
theorem bargeHead_runs {s : State} {b c op : Nat} {q : QCmd} (h : Claim.bargeRuns s b c op q)
    (hop : bargeOps.contains op = true) (f : State → QCmd → State) :
    ∃ u, Turned s u (bargeEng b) 0 ∧ bargeHead s b c op f = f u q := by
  obtain ⟨-, -, hhead, hfree, hturn⟩ := h
  obtain ⟨u, hu, hturned⟩ := takeTurn_of hturn
  obtain ⟨hbusy, hcoll⟩ : tabFind s.barges.busy b = none ∧ tabFind s.barges.colls (bargeKey b c) = none := hfree
  refine ⟨u, hturned, ?_⟩
  rw [bargeHead, hbusy, hcoll, if_neg (by decide), headRow_runs hhead hop, hu]

/-- What a completion on an engine that is no core leaves of memory. -/
theorem completeHead_mem (s : State) {e : Eng} (he : e.kind ≠ .core) (c : Nat) (q : QCmd) (st : Status) (o : Overflow) :
    (completeHead s e c q st o).mem = s.mem := by
  have hno : (!st.good && decide (e.kind = .core)) = false := by simp [he]
  rw [completeHead, completeCmd, hno, if_neg Bool.false_ne_true]
  cases st.halts with
  | false => exact (reportCmd_keeps _ _ _).2.1
  | true =>
    refine (reportCmd_keeps _ _ _).2.1.trans ?_
    rw [if_pos rfl]
    exact (faultHalt_fr (mk := 1048596) (by decide) (Fr.refl _ _) : Fr 1048596 _ (faultHalt (popQ s e c) e c q st o)).same .mem rfl

/-! ### Tables in order -/

/-- The keys of a table rise. -/
def inOrder {α : Type} (t : Tab α) : Prop := t.Pairwise fun x y => x.1 < y.1

theorem inOrder_tabPut {α : Type} {t : Tab α} (h : inOrder t) (k : Nat) (v : α) : inOrder (tabPut t k v) := by
  have hmem (t : Tab α) : ∀ x ∈ tabPut t k v, x.1 = k ∨ x ∈ t := by
    induction t with
    | nil => simp [tabPut]
    | cons y t ih =>
      intro x hx
      unfold tabPut at hx
      split at hx
      · simp only [List.mem_cons] at hx ⊢
        grind
      · split at hx
        · simp only [List.mem_cons] at hx ⊢
          grind
        · obtain rfl | hx := List.mem_cons.1 hx
          · exact .inr List.mem_cons_self
          · exact (ih x hx).imp_right (List.mem_cons_of_mem _)
  induction t with
  | nil => exact List.pairwise_singleton _ _
  | cons y t ih =>
    obtain ⟨hlt, ht⟩ := List.pairwise_cons.1 h
    unfold tabPut
    split
    · refine List.pairwise_cons.2 ⟨fun x hx => ?_, h⟩
      obtain rfl | hx := List.mem_cons.1 hx
      · assumption
      · exact Nat.lt_trans ‹_› (hlt x hx)
    · split
      · refine List.pairwise_cons.2 ⟨fun x hx => ?_, ht⟩
        have := hlt x hx
        dsimp only at *
        omega
      · refine List.pairwise_cons.2 ⟨fun x hx => ?_, ih ht⟩
        obtain hx | hx := hmem t x hx
        · dsimp only at *
          omega
        · exact hlt x hx

theorem inOrder_tabDel {α : Type} {t : Tab α} (h : inOrder t) (k : Nat) : inOrder (tabDel t k) := by
  rw [tabDel_filter]
  exact h.filter _

/-! ### Evictions -/

/-- The granule that is evicted is one of the store's that no context pins. -/
theorem victim_unpinned {s : State} {st g : Nat} (h : victim s st = some g) : ∃ x, (g, x) ∈ s.mem.gran ∧ x.pins = [] := by
  have hfold (l : Tab Gran) (best : Option (Nat × Nat)) {r : Nat × Nat}
      (hr : l.foldl (fun (best : Option (Nat × Nat)) p =>
        if p.2.store = st && p.2.pins = [] then
          match best with
          | some (_, age) => if age < p.2.age.toNat then some (p.1, p.2.age.toNat) else best
          | none => some (p.1, p.2.age.toNat)
        else best) best = some r) : best = some r ∨ ∃ x, (r.1, x) ∈ l ∧ x.pins = [] := by
    induction l generalizing best with
    | nil => exact .inl hr
    | cons p l ih =>
      rw [List.foldl_cons] at hr
      obtain hb | ⟨x, hx, hp⟩ := ih _ hr
      · by_cases hc : (decide (p.2.store = st) && decide (p.2.pins = [])) = true
        · rw [if_pos hc] at hb
          have hpins : p.2.pins = [] := of_decide_eq_true (Bool.and_eq_true_iff.1 hc).2
          have hnew (hrp : some (p.1, p.2.age.toNat) = some r) : ∃ x, (r.1, x) ∈ p :: l ∧ x.pins = [] := by
            cases hrp
            exact ⟨p.2, List.mem_cons_self, hpins⟩
          split at hb
          · split at hb
            · exact .inr (hnew hb)
            · exact .inl hb
          · exact .inr (hnew hb)
        · rw [if_neg hc] at hb
          exact .inl hb
      · exact .inr ⟨x, List.mem_cons_of_mem _ hx, hp⟩
  rw [victim, Option.map_eq_some_iff] at h
  obtain ⟨r, hr, rfl⟩ := h
  obtain h | h := hfold _ _ hr
  · exact absurd h (by simp)
  · exact h

theorem writeBack_bytes (s : State) (g : Nat) : (writeBack s g).mem.bytes = s.mem.bytes := by
  simp only [writeBack, modDeck]
  split
  · rw [raise_gran]
  · rfl

theorem sendHome_bytes (s : State) (g : Nat) : (sendHome s g).mem.bytes = s.mem.bytes := by
  unfold sendHome
  cases tabFind s.mem.gran g with
  | none => rfl
  | some x =>
    dsimp only
    split
    · exact writeBack_bytes s g
    · rfl

theorem chargePiece_mem (s : State) (p k n : Nat) : (chargePiece s p k n).mem = s.mem := (charged_chargePiece s p k n).mem

theorem evictOne_stores (s : State) (c st g : Nat) :
    (evictOne s c st g).mem.gran = tabDel s.mem.gran g ∧ (evictOne s c st g).mem.bytes = s.mem.bytes := by
  have h (u : State) (hu : u.mem = (modDeck (sendHome s g) (st / 36) fun x => { x with evicted := x.evicted + 1 }).mem) :
      u.mem.gran = tabDel s.mem.gran g ∧ u.mem.bytes = s.mem.bytes := by
    rw [hu]
    exact ⟨sendHome_gran s g, sendHome_bytes s g⟩
  have hcharge (b : Bool) (u : State) : (if b then chargePiece u (ctxPart c) (4 + st / 36) 4096 else u).mem = u.mem := by
    cases b with
    | true => exact chargePiece_mem _ _ _ _
    | false => rfl
  exact h _ (hcharge _ _)

/-- Evictions take granules that no context pins, and bring none; no byte of memory and no queue changes. -/
structure Evicted (s t : State) : Prop where
  bytes : t.mem.bytes = s.mem.bytes
  engs : t.engs = s.engs
  order : inOrder s.mem.gran → inOrder t.mem.gran
  pinned (h : inOrder s.mem.gran) (g : Nat) (x : Gran) : tabFind s.mem.gran g = some x → x.pins ≠ [] → tabFind t.mem.gran g = some x
  left (g : Nat) (x : Gran) : tabFind t.mem.gran g = some x → tabFind s.mem.gran g = some x

theorem Evicted.refl (s : State) : Evicted s s := ⟨rfl, rfl, id, fun _ _ _ h _ => h, fun _ _ h => h⟩

theorem Evicted.trans {s t u : State} (h : Evicted s t) (h' : Evicted t u) : Evicted s u :=
  ⟨h'.bytes.trans h.bytes, h'.engs.trans h.engs, fun ho => h'.order (h.order ho),
    fun ho g x hx hp => h'.pinned (h.order ho) g x (h.pinned ho g x hx hp) hp, fun g x hx => h.left g x (h'.left g x hx)⟩

theorem evicted_evictOne {s : State} {c st g : Nat} {x : Gran} (hg : (g, x) ∈ s.mem.gran) (hx : x.pins = []) :
    Evicted s (evictOne s c st g) := by
  obtain ⟨hgran, hbytes⟩ := evictOne_stores s c st g
  refine ⟨hbytes, (evictOne_fr (mk := 1048620) (by decide) (Fr.refl _ _) : Fr 1048620 s _).same .engs rfl,
    fun ho => by rw [hgran]; exact inOrder_tabDel ho g, fun ho k y hy hp => ?_, fun k y hy => ?_⟩
  · rw [hgran, tabFind_tabDel]
    split
    · subst k
      cases (tabFind_of_mem ho hg).symm.trans hy
      exact absurd hx hp
    · exact hy
  · rw [hgran, tabFind_tabDel] at hy
    split at hy
    · exact absurd hy (by simp)
    · exact hy

theorem evicted_makeRoom (c st need n : Nat) (s : State) : Evicted s (makeRoom c st need n s).1 := by
  induction n generalizing s with
  | zero => exact .refl s
  | succ n ih =>
    unfold makeRoom
    split
    · exact .refl s
    · split
      · next g hg =>
        obtain ⟨x, hx, hp⟩ := victim_unpinned hg
        exact (evicted_evictOne hx hp).trans (ih _)
      · exact .refl s

/-! ### PIN -/

/-- What a PIN has done once the granules of a list are in: they are in their store, pinned, and no pin is lost. -/
structure Pinned (b c st : Nat) (done : List Nat) (s t : State) : Prop where
  bytes : t.mem.bytes = s.mem.bytes
  engs : t.engs = s.engs
  clean : Claim.clean t
  order : inOrder t.mem.gran
  kept (g : Nat) (x : Gran) : tabFind s.mem.gran g = some x → ∃ y, tabFind t.mem.gran g = some y ∧ ∀ p ∈ x.pins, p ∈ y.pins
  done (g : Nat) : g ∈ done → ∃ y, tabFind t.mem.gran g = some y ∧ y.store = st ∧ (c, b) ∈ y.pins

/-- A granule with the pin of a context through a barge. -/
def withPin (b c : Nat) (x : Gran) : Gran := if x.pins.contains (c, b) then x else { x with pins := x.pins ++ [(c, b)] }

theorem withPin_pins (b c : Nat) (x : Gran) : (c, b) ∈ (withPin b c x).pins ∧ ∀ p ∈ x.pins, p ∈ (withPin b c x).pins := by
  unfold withPin
  split
  · exact ⟨List.contains_iff_mem.1 ‹_›, fun _ h => h⟩
  · exact ⟨List.mem_append_right _ List.mem_cons_self, fun _ h => List.mem_append_left _ h⟩

theorem withPin_store (b c : Nat) (x : Gran) : (withPin b c x).store = x.store := by
  unfold withPin
  split <;> rfl

/-- Where no word is uncorrectable a granule is pinned in the store, whether it was there or is brought in. -/
theorem pinOne_of_clean {s : State} (hs : Claim.clean s) (b c st g : Nat) : ∃ y n,
    pinOne b c st (s, true) g = (n, true) ∧ n.mem.gran = tabPut s.mem.gran g y ∧ n.mem.bytes = s.mem.bytes ∧
    n.engs = s.engs ∧ n.mem.badHbm = s.mem.badHbm ∧ n.mem.badSram = s.mem.badSram ∧ y.store = st ∧ (c, b) ∈ y.pins ∧
    ∀ x, tabFind s.mem.gran g = some x → ∀ p ∈ x.pins, p ∈ y.pins := by
  obtain ⟨hhbm, hsram⟩ := hs
  have hhome : badInHome s g = none := by rw [badInHome, hhbm]; rfl
  have hstore : badInStore s g = none := by rw [badInStore, hsram]; rfl
  have hcount (u : State) : (countFetched u c st).mem.gran = u.mem.gran ∧ (countFetched u c st).mem.bytes = u.mem.bytes ∧
      (countFetched u c st).engs = u.engs ∧ (countFetched u c st).mem.badHbm = u.mem.badHbm ∧
      (countFetched u c st).mem.badSram = u.mem.badSram := by
    rw [countFetched, (charged_chargePiece _ _ _ _).eq]
    exact ⟨rfl, rfl, rfl, rfl, rfl⟩
  cases hg : tabFind s.mem.gran g with
  | none =>
    obtain ⟨h1, h2, h3, h4, h5⟩ := hcount (setGran s g (withPin b c { store := st }))
    refine ⟨withPin b c { store := st }, _, ?_, h1, h2, h3, h4, h5, withPin_store b c _, (withPin_pins b c _).1,
      fun x hx => absurd hx (by simp)⟩
    simp only [pinOne, hg, bringIn, hhome]
    rfl
  | some x =>
    by_cases hin : x.store = st
    · refine ⟨withPin b c x, setGran s g (withPin b c x), ?_, rfl, rfl, rfl, rfl, rfl, (withPin_store b c x).trans hin, (withPin_pins b c x).1, ?_⟩
      · simp only [pinOne, hg]
        exact if_pos hin
      · intro y hy
        cases hy
        exact (withPin_pins b c x).2
    · obtain ⟨h1, h2, h3, h4, h5⟩ := hcount (setGran s g (withPin b c { x with store := st }))
      refine ⟨withPin b c { x with store := st }, _, ?_, h1, h2, h3, h4, h5, withPin_store b c _, (withPin_pins b c _).1, ?_⟩
      · simp only [pinOne, hg, hin, if_false, bringIn, hstore]
        rfl
      · intro y hy
        cases hy
        exact (withPin_pins b c { x with store := st }).2

theorem pinned_fold {b c st : Nat} {s : State} (gs done : List Nat) {t : State} (h : Pinned b c st done s t) :
    ∃ n, gs.foldl (pinOne b c st) (t, true) = (n, true) ∧ Pinned b c st (gs ++ done) s n := by
  induction gs generalizing t done with
  | nil => exact ⟨t, rfl, h⟩
  | cons g gs ih =>
    obtain ⟨y, u, hu, hgran, hbytes, hengs, hhbm, hsram, hst, hpin, hkeep⟩ := pinOne_of_clean h.clean b c st g
    have hfind (k : Nat) : tabFind u.mem.gran k = if g = k then some y else tabFind t.mem.gran k := by rw [hgran, tabFind_tabPut]
    have hnext : Pinned b c st (g :: done) s u := by
      refine ⟨hbytes.trans h.bytes, hengs.trans h.engs, ⟨hhbm.trans h.clean.1, hsram.trans h.clean.2⟩,
        by rw [hgran]; exact inOrder_tabPut h.order g y, fun k x hx => ?_, fun k hk => ?_⟩
      · obtain ⟨z, hz, hsub⟩ := h.kept k x hx
        rw [hfind]
        split
        · subst k
          exact ⟨y, rfl, fun p hp => hkeep z hz p (hsub p hp)⟩
        · exact ⟨z, hz, hsub⟩
      · rw [hfind]
        split
        · exact ⟨y, rfl, hst, hpin⟩
        · exact h.done k ((List.mem_cons.1 hk).resolve_left (Ne.symm ‹_›))
    obtain ⟨n, hn, hp⟩ := ih (g :: done) hnext
    refine ⟨n, ?_, ⟨hp.bytes, hp.engs, hp.clean, hp.order, hp.kept, fun k hk => hp.done k ?_⟩⟩
    · rw [List.foldl_cons, hu, hn]
    · simp only [List.cons_append, List.mem_cons, List.mem_append] at hk ⊢
      tauto

/-! ### UNPIN -/

/-- What an UNPIN has done once the granules of a list are passed: in their store no pin of the context is on them, and no
other context has lost a pin. -/
structure Unpinned (c st : Nat) (done : List Nat) (s t : State) : Prop where
  bytes : t.mem.bytes = s.mem.bytes
  engs : t.engs = s.engs
  order : inOrder t.mem.gran
  others (g : Nat) (x : Gran) : tabFind s.mem.gran g = some x → ∀ p ∈ x.pins, p.1 ≠ c →
    ∃ y, tabFind t.mem.gran g = some y ∧ p ∈ y.pins
  done (g : Nat) : g ∈ done → ∀ x, tabFind t.mem.gran g = some x → x.store = st → ∀ p ∈ x.pins, p.1 ≠ c

/-- The pins that a test names are gone, and no other. -/
theorem unpinGran_pins (test : Nat × Nat → Bool) (x : Gran) (p : Nat × Nat) :
    p ∈ (unpinGran test x).pins ↔ p ∈ x.pins ∧ test p = false := by
  have hleft : p ∈ (x.pins.filter fun p => !test p) ↔ p ∈ x.pins ∧ test p = false := by simp [List.mem_filter]
  unfold unpinGran
  dsimp only
  split
  · next h =>
    rw [← hleft, of_decide_eq_true (Bool.and_eq_true_iff.1 h).2]
  · exact hleft

/-- One granule of an UNPIN. -/
def unpinOne (c st : Nat) (s : State) (g : Nat) : State :=
  match tabFind s.mem.gran g with
  | some x => if x.store = st then setGran s g (unpinGran (fun p => p.1 = c) x) else s
  | none => s

theorem Unpinned.step {c st g : Nat} {done : List Nat} {s t : State} (h : Unpinned c st done s t) :
    Unpinned c st (g :: done) s (unpinOne c st t g) := by
  have hsame (hno : ∀ x, tabFind t.mem.gran g = some x → x.store ≠ st) : Unpinned c st (g :: done) s t := by
    refine ⟨h.bytes, h.engs, h.order, h.others, fun k hk x hx hst => ?_⟩
    obtain rfl | hk := List.mem_cons.1 hk
    · exact absurd hst (hno x hx)
    · exact h.done k hk x hx hst
  unfold unpinOne
  cases hg : tabFind t.mem.gran g with
  | none => exact hsame fun x hx => absurd (hg.symm.trans hx) (by simp)
  | some x =>
    dsimp only
    split
    · next hst =>
      have hfind (k : Nat) : tabFind (setGran t g (unpinGran (fun p => p.1 = c) x)).mem.gran k =
          if g = k then some (unpinGran (fun p => p.1 = c) x) else tabFind t.mem.gran k := tabFind_tabPut _ _ _ _
      refine ⟨h.bytes, h.engs, inOrder_tabPut h.order g _, fun k y hy p hp hne => ?_, fun k hk y hy hyst p hp => ?_⟩
      · obtain ⟨z, hz, hpz⟩ := h.others k y hy p hp hne
        rw [hfind]
        split
        · subst k
          cases hg.symm.trans hz
          exact ⟨_, rfl, (unpinGran_pins _ x p).2 ⟨hpz, decide_eq_false hne⟩⟩
        · exact ⟨z, hz, hpz⟩
      · rw [hfind] at hy
        split at hy
        · cases hy
          exact of_decide_eq_false ((unpinGran_pins _ x p).1 hp).2
        · exact h.done k ((List.mem_cons.1 hk).resolve_left (Ne.symm ‹_›)) y hy hyst p hp
    · next hst =>
      refine hsame fun y hy => ?_
      cases hg.symm.trans hy
      exact hst

theorem Unpinned.foldl {c st : Nat} {s : State} (gs done : List Nat) {t : State} (h : Unpinned c st done s t) :
    Unpinned c st (gs ++ done) s (gs.foldl (unpinOne c st) t) := by
  induction gs generalizing t done with
  | nil => exact h
  | cons g gs ih =>
    have hn := ih (g :: done) h.step
    refine ⟨hn.bytes, hn.engs, hn.order, hn.others, fun k hk => hn.done k ?_⟩
    simp only [List.cons_append, List.mem_cons, List.mem_append] at hk ⊢
    tauto

/-! ### The commands -/

/-- What an UNPIN says of the granules, from their state before it to their state after. -/
theorem unpinned_evicted {c st : Nat} {gs : List Nat} {s t u : State} (h : Unpinned c st gs s t) (he : Evicted t u) :
    (∀ g ∈ gs, ∀ x, tabFind u.mem.gran g = some x → x.store = st → ∀ p ∈ x.pins, p.1 ≠ c) ∧
    ∀ g x, tabFind s.mem.gran g = some x → ∀ p ∈ x.pins, p.1 ≠ c → ∃ y, tabFind u.mem.gran g = some y ∧ p ∈ y.pins := by
  refine ⟨fun g hg x hx => h.done g hg x (he.left g x hx), fun g x hx p hp hne => ?_⟩
  obtain ⟨y, hy, hpy⟩ := h.others g x hx p hp hne
  exact ⟨y, he.pinned h.order g y hy (List.ne_nil_of_mem hpy), hpy⟩

/-- What a PIN says of the granules, from their state before it to their state after. -/
theorem pinned_evicted {b c st : Nat} {gs : List Nat} {s t u : State} (h : Pinned b c st gs s t) (he : Evicted t u) :
    (∀ g ∈ gs, ∃ x, tabFind u.mem.gran g = some x ∧ x.store = st ∧ (c, b) ∈ x.pins) ∧
    ∀ g x, tabFind s.mem.gran g = some x → ∀ p ∈ x.pins, ∃ y, tabFind u.mem.gran g = some y ∧ p ∈ y.pins := by
  refine ⟨fun g hg => ?_, fun g x hx p hp => ?_⟩
  · obtain ⟨y, hy, hst, hpin⟩ := h.done g hg
    exact ⟨y, he.pinned h.order g y hy (List.ne_nil_of_mem hpin), hst, hpin⟩
  · obtain ⟨y, hy, hsub⟩ := h.kept g x hx
    exact ⟨y, he.pinned h.order g y hy (List.ne_nil_of_mem (hsub p hp)), hsub p hp⟩

section
variable {b c st : Nat} {q : QCmd} {s : State} (hst : targetStore (b / 8) (fld q.bytes 2 1) = some st)
  (hok : pinOk q.bytes (b / 8) = true)
include hst hok

/-- What a PIN does in its turn. -/
theorem pinHead_runs (hrun : Claim.bargeRuns s b c 0x41 q)
    (hwin : windowsPermit s (ctxPart c) (fld q.bytes 8 8) (fld q.bytes 16 4 * 4096) false = true)
    (hother : ∀ g ∈ pinGrans q.bytes, ∀ x, tabFind s.mem.gran g = some x → x.store = st ∨ x.pins = []) :
    ∃ u, Turned s u (bargeEng b) 0 ∧ pinHead s b c = match pinClaim u c st (pinGrans q.bytes) with
      | some o => completeHead u (bargeEng b) c q .mapOverflow o
      | none =>
        let r := (pinGrans q.bytes).foldl (pinOne b c st) (u, true)
        bargeDone (makeRoom c st 0 (poolUsed r.1 st) r.1).1 b c q (if r.2 then .ok else .eccUncorrectable) := by
  obtain ⟨u, hu, hrow⟩ := bargeHead_runs (b := b) hrun (by decide) fun s q =>
    let cmd := q.bytes
    let d := b / 8
    match targetStore d (fld cmd 2 1) with
    | none => bargeDone s b c q .internal
    | some st =>
      let gs := pinGrans cmd
      if !pinOk cmd d || !windowsPermit s (ctxPart c) (fld cmd 8 8) (fld cmd 16 4 * 4096) false then
        bargeDone s b c q .internal
      else if gs.any (fun g => match tabFind s.mem.gran g with
          | some x => x.store ≠ st && x.pins ≠ [] | none => false) then bargeDone s b c q .internal
      else match pinClaim s c st gs with
        | some o => completeHead s (bargeEng b) c q .mapOverflow o
        | none =>
          let r := gs.foldl (pinOne b c st) (s, true)
          let s := (makeRoom c st 0 (poolUsed r.1 st) r.1).1
          bargeDone s b c q (if r.2 then .ok else .eccUncorrectable)
  refine ⟨u, hu, hrow.trans ?_⟩
  have hwin' : windowsPermit u (ctxPart c) (fld q.bytes 8 8) (fld q.bytes 16 4 * 4096) false = true := by
    rw [hu.eq]; exact hwin
  have hno : (pinGrans q.bytes).any (fun g => match tabFind u.mem.gran g with
      | some x => x.store ≠ st && x.pins ≠ [] | none => false) = false := by
    rw [List.any_eq_false]
    intro g hg
    rw [hu.mem]
    cases hx : tabFind s.mem.gran g with
    | none => simp
    | some x =>
      obtain h | h := hother g hg x hx
      · simp [h]
      · simp [h]
  simp only [hst, hok, hwin', Bool.not_true, Bool.or_false, Bool.false_eq_true, if_false]
  rw [if_neg (by rw [hno]; decide)]

/-- What an UNPIN does in its turn. -/
theorem unpinHead_runs (hrun : Claim.bargeRuns s b c 0x42 q) :
    ∃ u, Turned s u (bargeEng b) 0 ∧ unpinHead s b c =
      let t := (pinGrans q.bytes).foldl (unpinOne c st) u
      bargeDone (makeRoom c st 0 (poolUsed t st) t).1 b c q .ok := by
  obtain ⟨u, hu, hrow⟩ := bargeHead_runs (b := b) hrun (by decide) fun s q =>
    let cmd := q.bytes
    match targetStore (b / 8) (fld cmd 2 1) with
    | none => bargeDone s b c q .internal
    | some st =>
      if !pinOk cmd (b / 8) then bargeDone s b c q .internal
      else
        let s := (pinGrans cmd).foldl (unpinOne c st) s
        bargeDone (makeRoom c st 0 (poolUsed s st) s).1 b c q .ok
  refine ⟨u, hu, hrow.trans ?_⟩
  simp only [hst, hok, Bool.not_true, Bool.false_eq_true, if_false]

end

/-- Nothing a pin's share depends on is in the queues. -/
theorem pinClaim_turned {s u : State} {b : Nat} (h : Turned s u (bargeEng b) 0) (c st : Nat) (gs : List Nat) :
    pinClaim u c st gs = pinClaim s c st gs := by
  rw [h.eq]
  rfl

/-- Settles O40: a pin is put on or taken off granule by granule, and evictions take only granules without one. -/
theorem pinsHold : Obligations.PinsHold := by
  intro b c q st s hst hok horder
  refine ⟨fun hrun hwin hother => ?_, fun hrun => ?_⟩
  · obtain ⟨u, hu, hrow⟩ := pinHead_runs hst hok hrun hwin hother
    rw [pinClaim_turned hu] at hrow
    have hq := hu.sameQueues
    refine ⟨fun hclaim hclean => ?_, fun o hclaim => ?_⟩
    · rw [hclaim] at hrow
      have hstart : Pinned b c st [] u u := ⟨rfl, rfl, hu.clean hclean, by rw [hu.mem]; exact horder,
        fun _ x hx => ⟨x, hx, fun _ h => h⟩, fun _ h => absurd h List.not_mem_nil⟩
      obtain ⟨n, hn, hpinned⟩ := pinned_fold (pinGrans q.bytes) [] hstart
      rw [hn] at hrow
      rw [List.append_nil] at hpinned
      have he := evicted_makeRoom c st 0 (poolUsed n st) n
      have hgone := completeHead_gone (makeRoom c st 0 (poolUsed n st) n).1 (bargeEng b) c q (st := .ok) rfl {}
      obtain ⟨hdone, hkept⟩ := pinned_evicted hpinned he
      rw [hu.mem] at hkept
      refine does_of (congrArg Host.Outcome.next hrow) ⟨completeHead_ok_gone hq (.of_engs (he.engs.trans hpinned.engs)), ?_, ?_, ?_⟩
      · rw [bargeDone, if_pos rfl, hgone.2.2]; exact hdone
      · rw [bargeDone, if_pos rfl, hgone.2.2]; exact hkept
      · rw [bargeDone, if_pos rfl, hgone.2.2, he.bytes, hpinned.bytes, hu.mem]
    · rw [hclaim] at hrow
      exact does_of (congrArg Host.Outcome.next hrow) ⟨headFails_of_same hq ⟨fun _ _ => rfl, fun _ => rfl⟩ (completeHead_fails u _ c q rfl o),
        (completeHead_mem u EngKind.noConfusion c q _ o).trans hu.mem⟩
  · obtain ⟨u, hu, hrow⟩ := unpinHead_runs hst hok hrun
    have hstart : Unpinned c st [] u u := ⟨rfl, rfl, by rw [hu.mem]; exact horder,
      fun _ x hx p hp _ => ⟨x, hx, hp⟩, fun _ h => absurd h List.not_mem_nil⟩
    have hun := hstart.foldl (pinGrans q.bytes) []
    rw [List.append_nil] at hun
    dsimp only at hrow
    obtain ⟨n, hn⟩ : ∃ n, n = (pinGrans q.bytes).foldl (unpinOne c st) u := ⟨_, rfl⟩
    rw [← hn] at hun hrow
    have he := evicted_makeRoom c st 0 (poolUsed n st) n
    have hgone := completeHead_gone (makeRoom c st 0 (poolUsed n st) n).1 (bargeEng b) c q (st := .ok) rfl {}
    obtain ⟨hdone, hothers⟩ := unpinned_evicted hun he
    rw [hu.mem] at hothers
    refine does_of (congrArg Host.Outcome.next hrow) ⟨completeHead_ok_gone hu.sameQueues (.of_engs (he.engs.trans hun.engs)), ?_, ?_, ?_⟩
    · rw [bargeDone, hgone.2.2]; exact hdone
    · rw [bargeDone, hgone.2.2]; exact hothers
    · rw [bargeDone, hgone.2.2, he.bytes, hun.bytes, hu.mem]

end Sys2Proof.Proofs
end

