-- ==== Sys2Proof/Proofs/Requests.lean ====
section
/-! PROOFS. Requests in progress: reads after writes of the table of requests, the device fields of a record, and a stage that
runs one step of its command (spec/13 R311-R313, spec/15 R376). -/

namespace Sys2Proof.Proofs

open Sys2Proof Sys2Proof.Machine Sys2Proof.Laws

/-! ### The table of requests -/

theorem getReq_putReq_ne (s : State) {rid i : Nat} (r : Request) (h : i ≠ rid) : getReq (putReq s rid r) i = getReq s i := by
  simp [getReq, putReq, tabFind_tabPut, h.symm]

theorem getReq_of_reqs {s t : State} (h : t.pur.reqs = s.pur.reqs) (i : Nat) : getReq t i = getReq s i := by
  rw [getReq, h, getReq]

theorem getCmd_of_cmds {s t : State} (h : t.pur.cmds = s.pur.cmds) (i : Nat) : getCmd t i = getCmd s i := by
  rw [getCmd, h, getCmd]

theorem modReq_of {s : State} {rid : Nat} {r : Request} (h : getReq s rid = some r) (f : Request → Request) :
    modReq s rid f = putReq s rid (f r) := by rw [modReq, h]

theorem getReq_modReq {s : State} {rid : Nat} {r : Request} (h : getReq s rid = some r) (f : Request → Request) :
    getReq (modReq s rid f) rid = some (f r) := by rw [modReq_of h, getReq_putReq]

theorem getReq_modReq_ne (s : State) {rid i : Nat} (f : Request → Request) (h : i ≠ rid) :
    getReq (modReq s rid f) i = getReq s i := by
  unfold modReq
  cases getReq s rid with
  | none => rfl
  | some r => exact getReq_putReq_ne s _ h

theorem putReq_putReq (s : State) (rid : Nat) (r r' : Request) : putReq (putReq s rid r) rid r' = putReq s rid r' := by
  simp only [putReq, tabPut_tabPut]

/-- Changing a request changes the table of requests alone. -/
theorem modReq_eq (s : State) (rid : Nat) (f : Request → Request) :
    modReq s rid f = { s with pur := { s.pur with reqs := (modReq s rid f).pur.reqs } } := by
  unfold modReq
  cases getReq s rid with
  | none => rfl
  | some r => rfl

theorem otherReqs_of_reqs {s t : State} (h : t.pur.reqs = s.pur.reqs) (rid : Nat) : Claim.otherReqs s t rid :=
  fun i _ => getReq_of_reqs h i

theorem otherReqs_putReq (s : State) (rid : Nat) (r : Request) : Claim.otherReqs s (putReq s rid r) rid :=
  fun _ h => getReq_putReq_ne s r h

theorem otherReqs_modReq (s : State) (rid : Nat) (f : Request → Request) : Claim.otherReqs s (modReq s rid f) rid :=
  fun _ h => getReq_modReq_ne s f h

theorem otherReqs_trans {s t u : State} {rid : Nat} (h : Claim.otherReqs s t rid) (h' : Claim.otherReqs t u rid) :
    Claim.otherReqs s u rid := fun i hi => (h' i hi).trans (h i hi)

/-! ### The stages of a request -/

theorem tabGet_modStage (r : Request) (op : Nat) (f : Stage → Stage) :
    tabGet {} (r.modStage op f).stages op = f (tabGet {} r.stages op) := tabGet_tabMod_self _ _ _ _

theorem tabFind_modStage_ne (r : Request) {op o : Nat} (f : Stage → Stage) (h : o ≠ op) :
    tabFind (r.modStage op f).stages o = tabFind r.stages o := by
  simp [Request.modStage, tabMod, tabFind_tabPut, h.symm]

theorem tabGet_of_tabFind_eq {α : Type} (d : α) {t u : Tab α} {k j : Nat} (h : tabFind t k = tabFind u j) :
    tabGet d t k = tabGet d u j := by rw [tabGet_of_find, h, tabGet_of_find]

theorem tabGet_modStage_ne (r : Request) {op o : Nat} (f : Stage → Stage) (h : o ≠ op) :
    tabGet {} (r.modStage op f).stages o = tabGet {} r.stages o := tabGet_of_tabFind_eq _ (tabFind_modStage_ne r f h)

/-- The own work of a stage is done with a status, from a state where the other requests and its other stages are as before. -/
theorem stageDone_stageWorked {s t : State} {rid op : Nat} {r r' : Request} (st : Status) (hs : getReq s rid = some r)
    (ht : getReq t rid = some r') (hother : Claim.otherReqs s t rid)
    (hstages : ∀ o, o ≠ op → tabFind r'.stages o = tabFind r.stages o) :
    Claim.stageDone s (stageWorked t rid op st) rid op st := by
  refine ⟨otherReqs_trans hother (otherReqs_modReq t rid _), r, _, hs, getReq_modReq ht _, ?_, fun o ho => ?_⟩
  · rw [tabGet_modStage]
  · rw [tabFind_modStage_ne _ _ ho, hstages o ho]

/-! ### A device field of a record -/

/-- A field of a record that lies in reach is written. -/
theorem recPut_wrote {s : State} (hs : Claim.clean s) {r : Request} (ho : Claim.openTo s (whoPurser (some r.ctx)))
    {off n : Nat} (hin : r.addr + off + n ≤ wheelBase) (v : Nat) :
    Wrote s (recPut s r off n v) (r.addr + off) (toLe n v) := by
  obtain ⟨t, ht, hw⟩ := wr_of_clean hs (b := toLe n v) (ho (r.addr + off) (toLe n v).length true (by rw [toLe_length]; exact hin))
  rw [recPut, wrNat, runAct_ok ht]
  exact hw

/-- What stands where a field has been written. -/
theorem recPut_field {s t : State} {a n v : Nat} (h : Wrote s t a (toLe n v)) : leNat (memRead t.mem.bytes a n) = v % 256 ^ n := by
  have hread := memRead_memWrite s.mem.bytes a (toLe n v)
  rw [toLe_length] at hread
  rw [h.bytes, hread, leNat_toLe]

theorem Wrote.outside {s t : State} {a : Nat} {b : Bytes} (h : Wrote s t a b) {j : Nat} (hj : j < a ∨ a + b.length ≤ j) :
    memGet t.mem.bytes j = memGet s.mem.bytes j := by
  rw [h.bytes, memGet_memWrite, if_neg (by omega)]

theorem Wrote.pur {s t : State} {a : Nat} {b : Bytes} (h : Wrote s t a b) : t.pur = s.pur := by rw [h.eq]

/-- The purser itself, for no context, reads and writes all memory below the wheelhouse region. -/
theorem mayAccess_purser (s : State) {a n : Nat} (h : a + n ≤ wheelBase) (w : Bool) : mayAccess s (whoPurser none) a n w = true := by
  have h1 : a + n ≤ unifiedEnd := Nat.le_trans h (by decide)
  have h2 : ¬ cacheBase < a + n := Nat.not_lt.2 (Nat.le_trans h (by decide))
  simp [mayAccess, whoPurser, h, h1, h2]

/-! ### One step of a stage's command -/

theorem noteStep_of {s : State} {id : Nat} {c : PCmd} (h : getCmd s id = some c) : noteStep s id =
    putCmd { s with pur := { s.pur with turn := (c.mb + 1) % 64 } } id { c with stepped := true } := by rw [noteStep, h]

/-- A step boundary changes the purser's turn and its commands alone. -/
theorem noteStep_eq (s : State) (id : Nat) :
    noteStep s id = { s with pur := { s.pur with turn := (noteStep s id).pur.turn, cmds := (noteStep s id).pur.cmds } } := by
  unfold noteStep
  cases getCmd s id with
  | none => rfl
  | some c => rfl

theorem noteStep_reqs (s : State) (id : Nat) : (noteStep s id).pur.reqs = s.pur.reqs := by rw [noteStep_eq]

theorem noteStep_mem (s : State) (id : Nat) : (noteStep s id).mem = s.mem := by rw [noteStep_eq]

theorem noteStep_getCmd {s : State} {id : Nat} {c : PCmd} (h : getCmd s id = some c) :
    getCmd (noteStep s id) id = some { c with stepped := true } := by
  rw [noteStep_of h]; exact tabFind_tabPut_self _ _ _

/-- A stage that nothing stops runs its row, and its command comes to a step boundary. -/
theorem stageRow_on {s : State} {rid op : Nat} {r : Request} (h : Claim.stageOn s rid op r)
    (f : State → Request → Stage → State) :
    stageRow s rid op f = noteStep (f s r (tabGet {} r.stages op)) (tabGet {} r.stages op).cmd := by
  obtain ⟨hr, hphase, hstop, hmap, hworks⟩ := h
  simp only [stageRow, hr, hphase, hstop, hmap, hworks, ne_eq, not_true_eq_false, decide_false, Bool.not_true,
    Bool.or_false, Bool.false_eq_true, if_false]

theorem stageDone_noteStep {s t : State} {rid op : Nat} {st : Status} (h : Claim.stageDone s t rid op st) (id : Nat) :
    Claim.stageDone s (noteStep t id) rid op st := by
  obtain ⟨hother, r, r', hr, hr', hphase, hstages⟩ := h
  exact ⟨otherReqs_trans hother (otherReqs_of_reqs (noteStep_reqs t id) rid), r, r', hr,
    (getReq_of_reqs (noteStep_reqs t id) rid).trans hr', hphase, hstages⟩

/-! ### Completions of commands -/

theorem endPlain_none {s : State} {id : Nat} (h : getCmd s id = none) (st : Status) :
    endPlain s id st = { s with freeCtr := s.freeCtr + 1 } := endCmd_none (s := { s with freeCtr := s.freeCtr + 1 }) h st _

/-- A completion changes the mailboxes, the purser's commands and the counter of open values alone. -/
theorem endPlain_eq (s : State) (id : Nat) (st : Status) : endPlain s id st = { s with
    mbs := (endPlain s id st).mbs, pur := { s.pur with cmds := (endPlain s id st).pur.cmds }, freeCtr := s.freeCtr + 1 } := by
  cases h : getCmd s id with
  | none => rw [endPlain_none h]
  | some c =>
    obtain ⟨d, hd⟩ := endPlain_of h st
    rw [hd]
    rfl

theorem endPlain_reqs (s : State) (id : Nat) (st : Status) : (endPlain s id st).pur.reqs = s.pur.reqs := by rw [endPlain_eq]

theorem endPlain_mem (s : State) (id : Nat) (st : Status) : (endPlain s id st).mem = s.mem := by rw [endPlain_eq]

/-- A command that ends from a state with its mailbox and itself as before has completed. -/
theorem completes_endPlain {s t : State} {id : Nat} {c : PCmd} (hc : getCmd s id = some c) (ht : t.pur.cmds = s.pur.cmds)
    (hmbs : t.mbs = s.mbs) (st : Status) : Claim.completes s (endPlain t id st) id c st := by
  have hc' : getCmd t id = some c := (getCmd_of_cmds ht id).trans hc
  obtain ⟨d, hd⟩ := endPlain_held hc' st
  refine ⟨endPlain_getCmd hc' st, d, hd.trans ?_⟩
  rw [getMb, hmbs]
  rfl

theorem completes_of_same {s t u : State} {id : Nat} {c : PCmd} {st : Status} (h : Claim.completes s t id c st)
    (hcmds : u.pur.cmds = t.pur.cmds) (hmbs : u.mbs = t.mbs) : Claim.completes s u id c st := by
  obtain ⟨hgone, d, hheld⟩ := h
  exact ⟨(getCmd_of_cmds hcmds id).trans hgone, d, by rw [getMb, hmbs]; exact hheld⟩

end Sys2Proof.Proofs
end

