-- ==== Sys2Proof/Proofs/Sequencers.lean ====
section
/-! PROOFS. The sequencer of a request and its ring: tokens, cancels and errors in order, and records in their slots
(spec/12 R302-R308, spec/13 R335-R339). -/

namespace Sys2Proof.Proofs

open Sys2Proof Sys2Proof.Machine Sys2Proof.Laws

/-! ### Without stop strings -/

theorem holdback_nil (pend : Bytes) (n : Nat) : holdback [] pend n = 0 := by
  induction n with
  | zero => rfl
  | succ n ih => simp [holdback, ih]

/-- Without stop strings every byte is released at once. -/
theorem matchStops_nil (keep : Bool) (b pend : Bytes) (i : Nat) : matchStops [] keep pend i b = { released := pend ++ b } := by
  induction b generalizing pend i with
  | nil => simp [matchStops, holdback_nil]
  | cons x b ih => simp [matchStops, stopFound, ih, List.append_assoc]

/-- Without stop strings no stop completes, and a ring without the assembler gets the bytes held and the token's. -/
theorem pourBytes_nil {x : RingSt} (h : stopStrings x.stops = []) (b : Bytes) (ends : Bool) :
    (pourBytes x b ends).2.2.1 = none ∧ (bit (fld x.stops 1 1) 1 = true → (pourBytes x b ends).1 = x.pend ++ b) := by
  rw [pourBytes, h, matchStops_nil]
  cases bit (fld x.stops 1 1) 1 with
  | true => simp
  | false => simp

/-- What the pour leaves of a ring: only what the matcher and the assembler hold. -/
theorem pourBytes_ring (x : RingSt) (b : Bytes) (ends : Bool) :
    (pourBytes x b ends).2.1 = { x with pend := (pourBytes x b ends).2.1.pend, held := (pourBytes x b ends).2.1.held } := by
  unfold pourBytes
  dsimp only
  split <;> rfl

/-! ### Tokens -/

/-- A token in reach spells what its tokenizer gives it. -/
theorem tokenBytes_yields {R : Nat → Prop} {s : State} (hs : Claim.clean s) {r : Request}
    (ho : Claim.openTo s (whoPurser (some r.ctx))) {tok : Nat} (hin : Claim.tokenInReach s r tok) :
    Yields R (tokenBytes r tok) s fun b t => b = Claim.tokenSpells s r tok ∧ t.mem = s.mem := by
  obtain ⟨hd, he, hb⟩ := hin
  unfold tokenBytes
  refine .bind (.rdMem hs (ho _ _ _ hd)) fun d t ht ⟨hdv, hm⟩ => ?_
  subst hdv
  by_cases hsize : fld (memRead s.mem.bytes (fld r.record 16 8) 128) 4 4 ≤ tok
  · rw [if_pos hsize]
    exact .pure ⟨by rw [Claim.tokenSpells, if_pos (.inl hsize)], hm⟩
  rw [if_neg hsize]
  refine .bind (.rdMem (ht.clean hs) (ht.openTo ho _ _ _ he)) fun e u hu ⟨hev, hm'⟩ => ?_
  rw [hm] at hev
  subst hev
  have hmem : u.mem = s.mem := hm'.trans hm
  simp only [Claim.tokenSpells, hsize, false_or]
  split
  · exact .pure ⟨rfl, hmem⟩
  · split
    · exact .pure ⟨rfl, hmem⟩
    · refine .bind (.rdMem ((ht.trans hu).clean hs) ((ht.trans hu).openTo ho _ _ _ hb)) fun b v _ ⟨hbv, hmv⟩ => .pure ?_
      rw [hmem] at hbv hmv
      exact ⟨congrArg some hbv, hmv⟩

/-- The log of a bad token. -/
def badTokenLogged (s : State) (rid : Nat) (r : Request) (tok : Nat) (b? : Option Bytes) : State :=
  match b? with
  | some _ => s
  | none =>
    logEntry { s with por := { s.por with badToken := s.por.badToken + 1 } }
      { code := some .badToken, source := srcOf 12 0, ctx := some (BitVec.ofNat 7 r.ctx), detail := toLe 8 rid ++ toLe 4 tok }

theorem badTokenLogged_eq (s : State) (rid : Nat) (r : Request) (tok : Nat) (b? : Option Bytes) :
    ∃ e o, badTokenLogged s rid r tok b? = { s with
      evt := e, outs := o, por := { s.por with badToken := if b? = none then s.por.badToken + 1 else s.por.badToken } } := by
  cases b? with
  | some b => exact ⟨s.evt, s.outs, rfl⟩
  | none =>
    obtain ⟨e, o, h⟩ := logEntry_shape { s with por := { s.por with badToken := s.por.badToken + 1 } }
      { code := some .badToken, source := srcOf 12 0, ctx := some (BitVec.ofNat 7 r.ctx), detail := toLe 8 rid ++ toLe 4 tok }
    exact ⟨e, o, h⟩

/-- The pour's counters after a token. -/
def tokenPor (s : State) (stop : Bool) (replaced : Nat) : PorSt :=
  { s.por with
    tokens := s.por.tokens + 1
    stops := if stop then s.por.stops + 1 else s.por.stops
    replaced := s.por.replaced + w64 replaced }

/-- The counts of a token, before it is committed. -/
def tokenCounted (s : State) (r : Request) (stop : Bool) (replaced : Nat) : State :=
  takeBudget (modClass { s with por := tokenPor s stop replaced } r.cls fun c => { c with tokens := c.tokens + 1 }) r 1

theorem tokenCounted_eq (s : State) (r : Request) (stop : Bool) (n : Nat) : ∃ c p, tokenCounted s r stop n =
    { s with por := p, pur := { s.pur with classes := c } } ∧ p.badToken = s.por.badToken ∧ p.tokens = s.por.tokens + 1 := by
  unfold tokenCounted takeBudget
  dsimp only
  split
  · exact ⟨_, tokenPor s stop n, rfl, rfl, rfl⟩
  · exact ⟨_, tokenPor s stop n, rfl, rfl, rfl⟩

theorem tokenCounted_class (s : State) (r : Request) (stop : Bool) (n : Nat) :
    (getClass (tokenCounted s r stop n) r.cls).tokens = (getClass s r.cls).tokens + 1 ∧
    (underBudget s r = true →
      (getClass (tokenCounted s r stop n) r.cls).budget.toNat = (getClass s r.cls).budget.toNat - 1) := by
  obtain ⟨u, hu⟩ : ∃ u : State, u = { s with por := tokenPor s stop n } := ⟨_, rfl⟩
  have hclass : getClass u r.cls = getClass s r.cls := by rw [hu]; rfl
  have hself (v : State) (f : ClassSt → ClassSt) : getClass (modClass v r.cls f) r.cls = f (getClass v r.cls) :=
    tabGet_tabMod_self _ _ _ _
  have hunder : underBudget (modClass u r.cls fun c => { c with tokens := c.tokens + 1 }) r = underBudget s r := by rw [hu]; rfl
  have heq : tokenCounted s r stop n = takeBudget (modClass u r.cls fun c => { c with tokens := c.tokens + 1 }) r 1 := by
    rw [hu]; rfl
  rw [heq, takeBudget, hunder]
  cases underBudget s r with
  | false => exact ⟨by rw [if_neg Bool.false_ne_true, hself, hclass], fun h => absurd h Bool.false_ne_true⟩
  | true =>
    rw [if_pos rfl, hself, hself, hclass]
    refine ⟨rfl, fun _ => ?_⟩
    have hlt := (getClass s r.cls).budget.isLt
    exact Nat.mod_eq_of_lt (by dsimp only; omega)

/-- The record of a token that has been poured. -/
def tokenRec (x : RingSt) (r : Request) (tok n : Nat) (b : Bytes) : RingRec :=
  let y := pourBytes x b (tokenReason r tok false n ≠ 0)
  { token := tok, bytes := y.1, reason := tokenReason r tok y.2.2.1.isSome n,
    stop := match y.2.2.1 with | some p => p.1 * 4096 + p.2 | none => 0 }

/-- Once its bytes are known a token is logged if it is bad, counted, committed, and GENERATED is written. -/
theorem sequenceToken_of {s t : State} {rid tok : Nat} {r : Request} {x : RingSt} {b? : Option Bytes}
    (h : runActVal (tokenBytes r tok) s = (.ok b?, t)) :
    let n := r.generated + 1
    let y := pourBytes x (b?.getD []) (tokenReason r tok false n ≠ 0)
    sequenceToken s rid r x tok =
      recPut (commitRec (tokenCounted (badTokenLogged t rid r tok b?) r y.2.2.1.isSome y.2.2.2) rid { r with generated := n } y.2.1
        (tokenRec x r tok n (b?.getD []))) { r with generated := n } 124 4 n := by
  dsimp only
  unfold sequenceToken
  rw [h]
  rfl

theorem popEvent_of {s : State} {rid : Nat} {r : Request} (h : getReq s rid = some r) {e : SeqEvent} {rest : List SeqEvent}
    (hev : r.events = e :: rest) : popEvent s rid = putReq s rid { r with events := rest } := by
  rw [popEvent, modReq_of h, hev]
  rfl

/-- A table of requests that is put again is all that a popped event leaves. -/
theorem popEvent_eq (s : State) (rid : Nat) : popEvent s rid = { s with pur := { s.pur with reqs := (popEvent s rid).pur.reqs } } :=
  modReq_eq s rid _

/-- A token has been counted, in the pour and in its class; memory and the other requests are as before. -/
structure Counted (s u : State) (rid : Nat) (r : Request) (b? : Option Bytes) : Prop where
  mem : u.mem = s.mem
  prt : SamePrt s.prt u.prt
  others : Claim.otherReqs s u rid
  tokens : u.por.tokens = s.por.tokens + 1
  bad : u.por.badToken = if b? = none then s.por.badToken + 1 else s.por.badToken
  class_ : (getClass u r.cls).tokens = (getClass s r.cls).tokens + 1
  budget : underBudget s r = true → (getClass u r.cls).budget.toNat = (getClass s r.cls).budget.toNat - 1

/-- The state in which a token's bytes have been read, then logged and counted. -/
theorem counted_of {s v : State} {rid : Nat} {r : Request} (hv : v = { s with prt := v.prt, pur := { s.pur with reqs := v.pur.reqs } })
    (hprt : SamePrt s.prt v.prt) (hothers : Claim.otherReqs s v rid) (tok : Nat) (b? : Option Bytes)
    (stop : Bool) (n : Nat) : Counted s (tokenCounted (badTokenLogged v rid r tok b?) r stop n) rid r b? := by
  obtain ⟨e, o, hl⟩ := badTokenLogged_eq v rid r tok b?
  obtain ⟨l, hl'⟩ : ∃ l, l = badTokenLogged v rid r tok b? := ⟨_, rfl⟩
  rw [← hl'] at hl ⊢
  obtain ⟨htok, hbudget⟩ := tokenCounted_class l r stop n
  obtain ⟨c, p, hk, hbad, htokens⟩ := tokenCounted_eq l r stop n
  have hclass : getClass l r.cls = getClass s r.cls := by rw [hl, hv]; rfl
  have hunder : underBudget l r = underBudget s r := by rw [hl, hv]; rfl
  rw [hclass] at htok hbudget
  rw [hunder] at hbudget
  have hlp : l.por.badToken = if b? = none then s.por.badToken + 1 else s.por.badToken := by rw [hl, hv]
  have hlt : l.por.tokens = s.por.tokens := by rw [hl, hv]
  refine ⟨?_, ?_, fun i hi => ?_, ?_, ?_, htok, hbudget⟩
  · rw [hk, hl, hv]
  · rw [hk, hl]; exact hprt
  · rw [hk, hl]; exact hothers i hi
  · rw [hk]; exact htokens.trans (by rw [hlt])
  · rw [hk]; exact hbad.trans hlp

/-- SEQUENCER_TOKEN before the terminal record: the token is counted, then committed, and GENERATED is written. -/
theorem token_commits {rid tok : Nat} {r : Request} {x : RingSt} {rest : List SeqEvent} {s : State} (hr : getReq s rid = some r)
    (hx : r.ring = some x) (hev : r.events = .token tok :: rest) (hterm : r.terminal = false) (hs : Claim.clean s)
    (ho : Claim.openTo s (whoPurser (some r.ctx))) (hin : Claim.tokenInReach s r tok) :
    let b? := Claim.tokenSpells s r tok
    let n := r.generated + 1
    let y := pourBytes x (b?.getD []) (tokenReason r tok false n ≠ 0)
    ∃ u, Counted s u rid r b? ∧ sequencerToken s rid =
      recPut (commitRec u rid { r with events := rest, generated := n } y.2.1 (tokenRec x r tok n (b?.getD [])))
        { r with events := rest, generated := n } 124 4 n := by
  dsimp only
  obtain ⟨p, hp⟩ : ∃ p, p = popEvent s rid := ⟨_, rfl⟩
  have hpeq : p = { s with pur := { s.pur with reqs := p.pur.reqs } } := by rw [hp]; exact popEvent_eq s rid
  have hclean : Claim.clean p := by rw [hpeq]; exact hs
  have hopen : Claim.openTo p (whoPurser (some r.ctx)) := openTo_of_samePrt (by rw [hpeq]; exact .refl _) ho
  have hin' : Claim.tokenInReach p { r with events := rest } tok := by
    rw [Claim.tokenInReach, hpeq]; exact hin
  obtain ⟨b?, v, hv, hst, hb, hm⟩ := tokenBytes_yields (R := fun _ => False) hclean hopen hin'
  have hspell : b? = Claim.tokenSpells s r tok := by rw [hb, Claim.tokenSpells, hpeq]; rfl
  have hvs : v = { s with prt := v.prt, pur := { s.pur with reqs := v.pur.reqs } } := by
    have hveq : v = { p with prt := v.prt } := by rw [hst.eq, hm]
    rw [hveq, hpeq]
  have hprt : SamePrt s.prt v.prt := by
    have h := hst.prt
    rw [hpeq] at h
    exact h
  have hothers : Claim.otherReqs s v rid := by
    have h : Claim.otherReqs s p rid := by rw [hp]; exact otherReqs_modReq s rid _
    exact otherReqs_trans h (otherReqs_of_reqs (by rw [hst.eq]) rid)
  have hcount := counted_of (r := { r with events := rest }) hvs hprt hothers tok b?
    (pourBytes x (b?.getD []) (tokenReason r tok false (r.generated + 1) ≠ 0)).2.2.1.isSome
    (pourBytes x (b?.getD []) (tokenReason r tok false (r.generated + 1) ≠ 0)).2.2.2
  rw [← hspell]
  refine ⟨_, ⟨hcount.mem, hcount.prt, hcount.others, hcount.tokens, hcount.bad, hcount.class_, hcount.budget⟩, ?_⟩
  have hrow : sequencerToken s rid = sequenceToken (popEvent s rid) rid { r with events := rest } x tok := by
    rw [sequencerToken, hr]
    simp only [hev, hx, List.head?_cons, List.tail_cons, hterm, Bool.false_eq_true, if_false]
  rw [hrow, ← hp]
  exact sequenceToken_of (r := { r with events := rest }) hv

theorem commitRec_getReq (s : State) (rid : Nat) (r : Request) (x : RingSt) (q : RingRec) : getReq (commitRec s rid r x q) rid =
    some { r with ring := some { x with seq := x.seq + 1, wait := x.wait ++ [q] }, terminal := r.terminal || q.reason ≠ 0 } :=
  getReq_putReq _ _ _

section
variable {rid : Nat} {r : Request} {x : RingSt} {rest : List SeqEvent} {s : State} (hr : getReq s rid = some r) (hx : r.ring = some x)
include hr hx

/-- What reaches the sequencer after the terminal record is only taken off. -/
theorem token_late {tok : Nat} (hev : r.events = .token tok :: rest) (hterm : r.terminal = true) :
    sequencerToken s rid = putReq s rid { r with events := rest } := by
  rw [sequencerToken, hr]
  simp only [popEvent_of hr hev, hev, hx, List.head?_cons, hterm, if_true]

theorem cancel_late {id : Nat} (hev : r.events = .cancel id :: rest) (hterm : r.terminal = true) :
    sequencerCancel s rid = endPlain (putReq s rid { r with events := rest }) id .lateCancel := by
  rw [sequencerCancel, hr]
  simp only [popEvent_of hr hev, hev, hx, List.head?_cons, hterm, if_true]

theorem cancel_commits {id : Nat} (hev : r.events = .cancel id :: rest) (hterm : r.terminal = false) :
    sequencerCancel s rid = commitEnd (putReq s rid { r with events := rest }) rid { r with events := rest } x 5 .cancelled (some id) := by
  rw [sequencerCancel, hr]
  simp only [popEvent_of hr hev, hev, hx, List.head?_cons, List.tail_cons, hterm, Bool.false_eq_true, if_false]

theorem error_taken {st : Status} (hev : r.events = .error st :: rest) : sequencerError s rid =
    if r.terminal then putReq s rid { r with events := rest }
    else commitEnd (putReq s rid { r with events := rest }) rid { r with events := rest } x 6 st none := by
  rw [sequencerError, hr]
  simp only [popEvent_of hr hev, hev, hx, List.head?_cons, sequenceError, getReq_putReq]

end

/-- A terminal record without a token, committed to a request that has been put. -/
theorem commitEnd_putReq (s : State) (rid : Nat) (r r' : Request) (x : RingSt) (reason : Nat) (st : Status) (cancel : Option Nat) :
    commitEnd (putReq s rid r') rid r x reason st cancel = putReq s rid { r with
      ring := some { x with
        seq := x.seq + 1, pend := [], held := [],
        wait := x.wait ++ [{ token := 0xFFFFFFFF, reason := reason, status := st, cancel := cancel }] },
      terminal := r.terminal || reason ≠ 0 } := by
  rw [commitEnd, commitRec, putReq_putReq]

theorem sequencersOrder : Claim.sequencersOrder := by
  intro rid r x rest s hr hx
  refine ⟨fun tok hev => ⟨fun hterm => ?_, fun hterm hs ho hin haddr => ?_⟩, fun id c hev hc => ⟨fun hterm => ?_, fun hterm => ?_⟩,
    fun st hev => ?_⟩
  · exact does_of (congrArg Host.Outcome.next (token_late hr hx hev hterm)) ⟨getReq_putReq _ _ _, otherReqs_putReq _ _ _, rfl⟩
  · obtain ⟨u, hu, hrow⟩ := token_commits hr hx hev hterm hs ho hin
    refine does_of (congrArg Host.Outcome.next hrow) ?_
    dsimp only
    obtain ⟨b, hb⟩ : ∃ b, b = Claim.tokenSpells s r tok := ⟨_, rfl⟩
    obtain ⟨y, hy⟩ : ∃ y, y = pourBytes x (b.getD []) (tokenReason r tok false (r.generated + 1) ≠ 0) := ⟨_, rfl⟩
    rw [← hb] at hu
    rw [← hb, ← hy]
    obtain ⟨q, hq⟩ : ∃ q, q = tokenRec x r tok (r.generated + 1) (b.getD []) := ⟨_, rfl⟩
    have hring : y.2.1 = { x with pend := y.2.1.pend, held := y.2.1.held } := by rw [hy]; exact pourBytes_ring _ _ _
    rw [← hq]
    obtain ⟨v, hv⟩ : ∃ v, v = commitRec u rid { r with events := rest, generated := r.generated + 1 } y.2.1 q := ⟨_, rfl⟩
    have hw := recPut_wrote (s := v) (by rw [hv]; exact clean_of_mem hs hu.mem)
      (r := { r with events := rest, generated := r.generated + 1 }) (by rw [hv]; exact openTo_of_samePrt hu.prt ho) (off := 124)
      (n := 4) (by dsimp only; omega) (r.generated + 1)
    rw [← hv]
    obtain ⟨t, ht⟩ : ∃ t, t = recPut v { r with events := rest, generated := r.generated + 1 } 124 4 (r.generated + 1) := ⟨_, rfl⟩
    rw [← ht] at hw ⊢
    have hvm : v.mem = s.mem := by rw [hv]; exact hu.mem
    have hvp : t.por = u.por := by rw [hw.eq, hv]; rfl
    have hvc : getClass t r.cls = getClass u r.cls := by rw [hw.eq, hv]; rfl
    refine ⟨?_, by rw [hvp]; exact hu.tokens, by rw [hvp]; exact hu.bad, by rw [hvc]; exact hu.class_, by rw [hvc]; exact hu.budget,
      recPut_field hw, fun a ha => ?_, ?_⟩
    · refine otherReqs_trans hu.others (otherReqs_trans (t := v) ?_ (otherReqs_of_reqs (by rw [hw.eq]) rid))
      rw [hv]
      exact otherReqs_putReq _ _ _
    · rw [hw.outside (by rw [toLe_length]; exact ha), hvm]
    · refine ⟨_, _, q, (getReq_of_reqs (by rw [hw.eq]) rid).trans (by rw [hv]; exact commitRec_getReq _ _ _ _ _), rfl, rfl, rfl,
        by rw [hring], by rw [hring], by rw [hq]; rfl, by rw [hring], ?_, fun hno => ?_⟩
      · rw [hterm]; simp
      · obtain ⟨hstop, hbytes⟩ := pourBytes_nil hno (b.getD []) (tokenReason r tok false (r.generated + 1) ≠ 0)
        rw [hq, tokenRec]
        exact ⟨by dsimp only; rw [hstop]; rfl, hbytes⟩
  · refine does_of (congrArg Host.Outcome.next (cancel_late hr hx hev hterm)) ⟨completes_endPlain (s := s) (t := putReq s rid { r with events := rest }) hc rfl rfl _, ?_, ?_⟩
    · rw [getReq_of_reqs (endPlain_reqs _ _ _), getReq_putReq]
    · exact otherReqs_trans (otherReqs_putReq s rid _) (otherReqs_of_reqs (endPlain_reqs _ _ _) rid)
  · refine does_of (congrArg Host.Outcome.next (cancel_commits hr hx hev hterm)) ?_
    rw [commitEnd_putReq]
    refine ⟨otherReqs_putReq _ _ _, ?_, rfl⟩
    rw [getReq_putReq, hterm]
    rfl
  · refine does_of (congrArg Host.Outcome.next (error_taken hr hx hev)) ?_
    by_cases hterm : r.terminal = true
    · rw [if_pos hterm]
      exact ⟨otherReqs_putReq _ _ _, rfl, fun _ => getReq_putReq _ _ _, fun h => absurd (hterm.symm.trans h) (by decide)⟩
    · rw [if_neg hterm, commitEnd_putReq]
      refine ⟨otherReqs_putReq _ _ _, rfl, fun h => absurd h hterm, fun hno => ?_⟩
      rw [getReq_putReq, hno]
      rfl

end Sys2Proof.Proofs
end

