-- ==== Sys2Proof/Proofs/RingRecords.lean ====
section
/-! PROOFS. Records of a pour ring: the spill area, the slot and HEAD (spec/13 R334-R338). -/

namespace Sys2Proof.Proofs

open Sys2Proof Sys2Proof.Machine Sys2Proof.Laws

/-- A write of the purser below the wheelhouse region. -/
theorem purser_wrote {s : State} (hs : Claim.clean s) {a : Nat} {b : Bytes} (hin : a + b.length ≤ wheelBase) :
    Wrote s (runAct (wr (whoPurser none) a b) s).2 a b := by
  obtain ⟨t, ht, hw⟩ := wr_of_clean hs (mayAccess_purser s hin true)
  rw [runAct_ok ht]
  exact hw

theorem ringBytes_length {q : RingRec} {spill : Option Nat} (h : spill = none → q.bytes.length ≤ 16) (seq : Nat) :
    (ringBytes seq q spill).length = 32 := by
  cases spill with
  | some a => simp [ringBytes, toLe_length]
  | none =>
    have hlen := h rfl
    simp only [ringBytes, List.length_append, toLe_length]
    omega

/-- A place for `n` bytes lies in the spill area. -/
theorem spillPlace_within {r : Request} {x : RingSt} {n a : Nat} (h : spillPlace r x n = some a) : a + n ≤ fld r.record 108 4 := by
  unfold spillPlace at h
  dsimp only at h
  obtain ⟨hc, ha⟩ := Option.ite_none_right_eq_some.1 h
  have hn := of_decide_eq_true (Bool.and_eq_true_iff.1 hc).1
  rw [← Option.some.inj ha]
  split
  · assumption
  · omega

/-- How many bytes of a record go to the spill area. -/
def spillLen (q : RingRec) : Nat := if q.bytes.length ≤ 16 then 0 else q.bytes.length

theorem spillLen_of_ne {q : RingRec} (h : spillLen q ≠ 0) : spillLen q = q.bytes.length := by
  unfold spillLen at h ⊢
  split at h
  · exact absurd rfl h
  · rw [if_neg ‹_›]

theorem spill_length (q : RingRec) : (if spillLen q = 0 then [] else q.bytes).length = spillLen q := by
  by_cases h : spillLen q = 0
  · rw [if_pos h, h]; rfl
  · rw [if_neg h, spillLen_of_ne h]

/-- The spill bytes of a record are stored, if it has any. -/
theorem spill_wrote {s : State} (hs : Claim.clean s) {q : RingRec} {a : Nat} (hin : a + spillLen q ≤ wheelBase) :
    Wrote s (if spillLen q = 0 then s else (runAct (wr (whoPurser none) a q.bytes) s).2) a
      (if spillLen q = 0 then [] else q.bytes) := by
  split
  · exact (Charged.refl s).wrote a
  · next h =>
    exact purser_wrote hs (by rw [← spillLen_of_ne h]; exact hin)

section
variable {r : Request} {x : RingSt} {q : RingRec} {s : State} (hk : 5 ≤ fld r.record 104 1) (hs : Claim.clean s)
  (hfit : ringFits r x (spillLen q) = true)
  (hin : fld r.record 96 8 + 2 ^ fld r.record 104 1 + 64 + fld r.record 108 4 ≤ wheelBase) (hhead : x.head + 1 < 2 ^ 64)
include hk hs hfit hin hhead

/-- A record with room is written: its spill bytes, its slot, then HEAD, each apart from the others. -/
theorem writeRecord_wrote :
    let k := fld r.record 104 1
    let base := fld r.record 96 8
    let area := base + 2 ^ k + 64
    let n := spillLen q
    let a := (spillPlace r x n).getD 0
    let slot := base + 32 * (x.head % (2 ^ k / 32))
    let t := (writeRecord s r x q).1
    (∃ p m, t = { s with prt := p, mem := m }) ∧
    memRead t.mem.bytes slot 32 = ringBytes x.head q (if n = 0 then none else some (area + a)) ∧
    (n ≠ 0 → memRead t.mem.bytes (area + a) n = q.bytes) ∧ leNat (memRead t.mem.bytes (base + 2 ^ k) 8) = x.head + 1 ∧
    ∀ i, i < slot ∨ slot + 32 ≤ i → i < base + 2 ^ k ∨ base + 2 ^ k + 8 ≤ i → i < area + a ∨ area + a + n ≤ i →
      memGet t.mem.bytes i = memGet s.mem.bytes i := by
  dsimp only
  obtain ⟨k, hkv⟩ : ∃ k, k = fld r.record 104 1 := ⟨_, rfl⟩
  obtain ⟨base, hbase⟩ : ∃ base, base = fld r.record 96 8 := ⟨_, rfl⟩
  obtain ⟨a, ha⟩ : ∃ a, spillPlace r x (spillLen q) = some a := Option.isSome_iff_exists.1 (Bool.and_eq_true_iff.1 hfit).2
  have hplace := spillPlace_within ha
  rw [← hkv] at hk hin
  rw [← hbase] at hin
  obtain ⟨slots, hslots⟩ : ∃ slots, slots = 2 ^ k / 32 := ⟨_, rfl⟩
  have hpow : slots * 32 = 2 ^ k := by
    rw [hslots, Nat.div_mul_cancel (Nat.pow_dvd_pow 2 hk : 2 ^ 5 ∣ 2 ^ k)]
  have hpos : 0 < slots := by
    have := Nat.two_pow_pos k
    omega
  have hslot : 32 * (x.head % slots) + 32 ≤ 2 ^ k := by
    have := Nat.mod_lt x.head hpos
    omega
  obtain ⟨rec', hrec⟩ : ∃ b, b = ringBytes x.head q (if spillLen q = 0 then none else some (base + 2 ^ k + 64 + a)) := ⟨_, rfl⟩
  have hlen : rec'.length = 32 := by
    rw [hrec]
    refine ringBytes_length (fun h => ?_) _
    by_contra hgt
    have hn : spillLen q = q.bytes.length := if_neg hgt
    rw [if_neg (by omega)] at h
    exact absurd h (by simp)
  obtain ⟨u, hu⟩ : ∃ u, u = if spillLen q = 0 then s else (runAct (wr (whoPurser none) (base + 2 ^ k + 64 + a) q.bytes) s).2 := ⟨_, rfl⟩
  have hw1 := spill_wrote hs (q := q) (a := base + 2 ^ k + 64 + a) (by omega)
  rw [← hu] at hw1
  obtain ⟨v, hv⟩ : ∃ v, v = (runAct (wr (whoPurser none) (base + 32 * (x.head % slots)) rec') u).2 := ⟨_, rfl⟩
  have hw2 := purser_wrote (hw1.clean hs) (a := base + 32 * (x.head % slots)) (b := rec') (by omega)
  rw [← hv] at hw2
  obtain ⟨w, hwv⟩ : ∃ w, w = (runAct (wrNat (whoPurser none) (base + 2 ^ k) 8 (x.head + 1)) v).2 := ⟨_, rfl⟩
  have hw3 : Wrote v w (base + 2 ^ k) (toLe 8 (x.head + 1)) := by
    rw [hwv]
    exact purser_wrote (hw2.clean (hw1.clean hs)) (by rw [toLe_length]; omega)
  have ht : (writeRecord s r x q).1 = w := by
    rw [hwv, hv, hu, hrec, hslots, hkv, hbase]
    simp only [writeRecord, ringSlots, ← spillLen.eq_1, ha, Option.getD_some]
  rw [ht, ← hkv, ← hbase, ← hslots, ha, Option.getD_some, ← hrec]
  have hspill := spill_length q
  refine ⟨⟨w.prt, w.mem, by rw [hw3.eq, hw2.eq, hw1.eq]⟩, ?_, fun hn => ?_, ?_, fun i h1 h2 h3 => ?_⟩
  · rw [hw3.bytes, memRead_memWrite_apart _ _ _ _ _ (.inl (by omega)), hw2.bytes]
    have := memRead_memWrite u.mem.bytes (base + 32 * (x.head % slots)) rec'
    rwa [hlen] at this
  · rw [hw3.bytes, memRead_memWrite_apart _ _ _ _ _ (.inr (by rw [toLe_length]; omega)), hw2.bytes,
      memRead_memWrite_apart _ _ _ _ _ (.inr (by omega)), hw1.bytes]
    have := memRead_memWrite s.mem.bytes (base + 2 ^ k + 64 + a) (if spillLen q = 0 then [] else q.bytes)
    rw [hspill] at this
    simpa only [if_neg hn] using this
  · rw [recPut_field hw3]
    exact Nat.mod_eq_of_lt hhead
  · rw [hw3.outside (by rw [toLe_length]; exact h2), hw2.outside (by rw [hlen]; exact h1), hw1.outside (by rw [hspill]; exact h3)]

end

/-- The ring after a record has been written. -/
theorem writeRecord_ring (s : State) (r : Request) (x : RingSt) (q : RingRec) : (writeRecord s r x q).2 = { x with
    head := x.head + 1, wait := x.wait.tail,
    place := if spillLen q = 0 then x.place else (spillPlace r x (spillLen q)).getD 0 + spillLen q,
    runs := if spillLen q = 0 then x.runs else x.runs ++ [(x.head, (spillPlace r x (spillLen q)).getD 0, spillLen q)] } := rfl

/-- A record is committed: a terminal one ends DECODE and POUR, and its CANCEL. -/
theorem stageWorked_of {s : State} {rid : Nat} {r : Request} (h : getReq s rid = some r) (op : Nat) (st : Status) :
    stageWorked s rid op st = putReq s rid (r.modStage op fun g => { g with phase := .worked st }) := modReq_of h _

/-- What a terminal record that is written leaves. -/
theorem ringEnded_of {s : State} {rid : Nat} {r : Request} (h : getReq s rid = some r) (q : RingRec) :
    ringEnded s rid q = putReq (match q.cancel with | some id => endPlain s id .ok | none => s) rid
      ((r.modStage 0x16 fun g => { g with phase := .worked q.status }).modStage 0x15 fun g => { g with phase := .worked q.status }) := by
  unfold ringEnded
  cases q.cancel with
  | none =>
    dsimp only
    rw [stageWorked_of h, stageWorked_of (getReq_putReq _ _ _), putReq_putReq]
  | some id =>
    dsimp only
    have h' : getReq (endPlain s id .ok) rid = some r := (getReq_of_reqs (endPlain_reqs s id .ok) rid).trans h
    rw [stageWorked_of h', stageWorked_of (getReq_putReq _ _ _), putReq_putReq]

/-- The CANCEL that a record ends, if it ends one, leaves memory and requests. -/
theorem cancel_ends (s : State) (c : Option Nat) :
    (match c with | some id => endPlain s id .ok | none => s).pur.reqs = s.pur.reqs ∧
    (match c with | some id => endPlain s id .ok | none => s).mem = s.mem := by
  cases c with
  | none => exact ⟨rfl, rfl⟩
  | some id => exact ⟨endPlain_reqs s id .ok, endPlain_mem s id .ok⟩

section
variable {rid : Nat} {r : Request} {x : RingSt} {q : RingRec} {ws : List RingRec} {s : State} (hr : getReq s rid = some r)
  (hx : r.ring = some x) (hwait : x.wait = q :: ws)
include hr hx hwait

theorem ringRecordWrite_waits (hno : ringFits r x (spillLen q) = false)
    (hno' : ringFits r (rereadTail s r x) (spillLen q) = false) :
    ringRecordWrite s rid = putReq s rid { r with ring := some (rereadTail s r x) } := by
  rw [ringRecordWrite, hr]
  simp only [hx, hwait, ← spillLen.eq_1, ringNow, hno, hno', Bool.not_false, Bool.false_eq_true, if_false, if_true]

theorem ringRecordWrite_writes (hfit : ringFits r x (spillLen q) = true) :
    ringRecordWrite s rid =
      let t := putReq (writeRecord s r x q).1 rid { r with ring := some (writeRecord s r x q).2 }
      if q.reason ≠ 0 then ringEnded t rid q else t := by
  rw [ringRecordWrite, hr]
  simp only [hx, hwait, ← spillLen.eq_1, ringNow, hfit, Bool.not_true, Bool.false_eq_true, if_false, if_true]

end

/-- Without a free slot a ring takes no record. -/
theorem not_ringFits {r : Request} {x : RingSt} (h : x.tail + 2 ^ fld r.record 104 1 / 32 ≤ x.head) (n : Nat) :
    ringFits r x n = false := by
  rw [ringFits, ringSlots, decide_eq_false (Nat.not_lt.2 h), Bool.false_and]

/-- Only TAIL and the runs are reread. -/
theorem rereadTail_kept (s : State) (r : Request) (x : RingSt) :
    (rereadTail s r x).head = x.head ∧ (rereadTail s r x).wait = x.wait := by
  simp only [rereadTail, and_self]

theorem ringsFill : Claim.ringsFill := by
  intro rid r x q ws s hr hx hwait hk
  dsimp only
  refine ⟨fun hfull hstill => ?_, fun hfit hs hin hhead => ?_⟩
  · have hstill' : (rereadTail s r x).tail + 2 ^ fld r.record 104 1 / 32 ≤ (rereadTail s r x).head := by
      simp only [rereadTail]
      exact hstill
    refine does_of (congrArg Host.Outcome.next (ringRecordWrite_waits hr hx hwait (not_ringFits hfull _)
      (not_ringFits hstill' _))) ?_
    refine ⟨rfl, otherReqs_putReq _ _ _, ?_⟩
    exact ⟨{ r with ring := some (rereadTail s r x) }, rereadTail s r x, getReq_putReq _ _ _, rfl, rereadTail_kept s r x⟩
  · have hall := writeRecord_wrote (q := q) hk hs hfit hin hhead
    dsimp only at hall
    obtain ⟨⟨p, m, heq⟩, hslot, hspill, hheadw, hkept⟩ := hall
    refine does_of (congrArg Host.Outcome.next (ringRecordWrite_writes hr hx hwait hfit)) ?_
    obtain ⟨w, hw⟩ : ∃ w, w = (writeRecord s r x q).1 := ⟨_, rfl⟩
    obtain ⟨y, hy⟩ : ∃ y, y = (writeRecord s r x q).2 := ⟨_, rfl⟩
    have hring := writeRecord_ring s r x q
    rw [hwait] at hring
    rw [← hw] at heq hslot hspill hheadw hkept ⊢
    rw [← hy] at hring ⊢
    obtain ⟨u, hu⟩ : ∃ u, u = putReq w rid { r with ring := some y } := ⟨_, rfl⟩
    have hothers : Claim.otherReqs s u rid := by
      rw [hu]
      exact otherReqs_trans (otherReqs_of_reqs (by rw [heq]) rid) (otherReqs_putReq w rid _)
    have hreq : getReq u rid = some { r with ring := some y } := by rw [hu]; exact getReq_putReq _ _ _
    have hmem : u.mem = w.mem := by rw [hu]; rfl
    have hcmds : u.pur.cmds = s.pur.cmds := by rw [hu, heq]; rfl
    have hmbs : u.mbs = s.mbs := by rw [hu, heq]; rfl
    rw [← hmem] at hslot hspill hheadw hkept
    rw [← hu]
    dsimp only
    by_cases hreason : q.reason = 0
    · rw [if_neg (not_not_intro hreason)]
      refine ⟨hothers, hslot, hspill, hheadw, hkept, fun _ _ h => absurd hreason h, _, hreq, congrArg some hring,
        fun h => absurd hreason h, fun _ => rfl⟩
    · rw [if_pos hreason, ringEnded_of hreq]
      obtain ⟨hreqs, hmem'⟩ := cancel_ends u q.cancel
      obtain ⟨v, hv⟩ : ∃ v : State, v = match q.cancel with | some id => endPlain u id .ok | none => u := ⟨_, rfl⟩
      rw [← hv] at hreqs hmem' ⊢
      refine ⟨otherReqs_trans (otherReqs_trans hothers (otherReqs_of_reqs hreqs rid)) (otherReqs_putReq _ _ _), ?_, ?_, ?_, ?_,
        fun id c _ hid hc => ?_, _, getReq_putReq _ _ _, congrArg some hring, fun _ => ⟨?_, ?_⟩, fun h => absurd h hreason⟩
      · rw [putReq_mem, hmem']; exact hslot
      · rw [putReq_mem, hmem']; exact hspill
      · rw [putReq_mem, hmem']; exact hheadw
      · rw [putReq_mem, hmem']; exact hkept
      · rw [hid] at hv
        refine completes_of_same (t := v) ?_ rfl rfl
        rw [hv]
        exact completes_endPlain hc hcmds hmbs .ok
      · rw [tabGet_modStage]
      · rw [tabGet_modStage_ne _ _ (by decide), tabGet_modStage]

/-- Settles O54: events reach the sequencer in order, and a record that fits is written apart from everything else. -/
theorem sequencersPour : Obligations.SequencersPour := ⟨sequencersOrder, ringsFill⟩

end Sys2Proof.Proofs
end

