-- ==== Sys2Proof/Proofs/Asks.lean ====
section
/-! PROOFS. What a purser does for a request of its own: engine commands it offers and questions it asks other pursers
(spec/13 R311, spec/15 R380, spec/16 R404, R417). -/

namespace Sys2Proof.Proofs

open Sys2Proof Sys2Proof.Machine Sys2Proof.Laws

/-! ### Paths to a module -/

/-- Some path to a module can carry an operation. -/
def carries (s : State) (m p : Nat) : Bool := (getEntry s m).valid && (getEntry s m).ports.getLsbD p && ferryLive s p && pathUp s p m

/-- A port is chosen exactly when some path carries. -/
theorem choosePort_isSome (s : State) (m : Nat) : (choosePort s m).isSome = true ↔ ∃ p, p < 16 ∧ carries s m p = true := by
  obtain ⟨last, hlast⟩ : ∃ last, last = tabGet 15 s.fry.turn m := ⟨_, rfl⟩
  have hfind : (choosePort s m).isSome =
      (((List.range 16).map fun i => (last + 1 + i) % 16).find? fun p => carries s m p).isSome := by
    rw [hlast]
    unfold choosePort
    dsimp only
    split
    · next h => exact (congrArg Option.isSome h).symm
    · next h => exact (congrArg Option.isSome h).symm
  rw [hfind, List.find?_isSome]
  constructor
  · rintro ⟨p, hp, hc⟩
    obtain ⟨i, -, rfl⟩ := List.mem_map.1 hp
    exact ⟨_, Nat.mod_lt _ (by decide), hc⟩
  · rintro ⟨p, hp, hc⟩
    refine ⟨p, List.mem_map.2 ⟨(p + 15 * (last + 1)) % 16, List.mem_range.2 (Nat.mod_lt _ (by decide)), ?_⟩, hc⟩
    omega

theorem Calm.carries {s t : State} (h : Calm s t) (m p : Nat) : carries t m p = carries s m p := by
  have hentry : getEntry t m = getEntry s m := by rw [getEntry, h.eq]; rfl
  rw [Proofs.carries, Proofs.carries, hentry, ferryLive, ferryLive, h.getPort, pathUp, pathUp, h.state]

/-- Frames put in line leave which modules have a path. -/
theorem Calm.choosePort_isSome {s t : State} (h : Calm s t) (m : Nat) : (choosePort t m).isSome = (choosePort s m).isSome := by
  rw [Bool.eq_iff_iff, Proofs.choosePort_isSome, Proofs.choosePort_isSome]
  simp only [h.carries]

theorem Calm.choosePort_none {s t : State} (h : Calm s t) {m : Nat} (hm : choosePort s m = none) : choosePort t m = none := by
  have := h.choosePort_isSome m
  rw [hm] at this
  exact Option.isSome_eq_false_iff.1 this |> Option.isNone_iff_eq_none.1

theorem Calm.tells {s t : State} (h : Calm s t) {m : Nat} {x : PurserMsg} (hx : Claim.purserTells s m x) : Claim.purserTells t m x := by
  obtain ⟨p, hp⟩ := hx
  obtain ⟨fs, hfs⟩ := h.getPath p m
  exact ⟨p, by rw [hfs]; exact List.mem_append_left _ hp⟩

/-! ### Messages of the purser -/

theorem choosePort_fry {s t : State} {m p : Nat} (h : choosePort s m = some (p, t)) :
    t = { s with fry := { s.fry with turn := t.fry.turn } } := choosePort_turn h

/-- A message changes the ferry block alone. -/
theorem purserSend_eq (s : State) (m : Nat) (x : PurserMsg) : purserSend s m x = { s with fry := (purserSend s m x).fry } := by
  unfold purserSend
  split
  · next h =>
    rw [choosePort_fry h]
    rfl
  · rfl

theorem purserSend_tells {s : State} {m : Nat} (h : (choosePort s m).isSome = true) (x : PurserMsg) :
    Claim.purserTells (purserSend s m x) m x := by
  obtain ⟨⟨p, t⟩, hpt⟩ := Option.isSome_iff_exists.1 h
  refine ⟨p, ?_⟩
  rw [purserSend, hpt]
  dsimp only
  rw [getPath_queueFrame]
  exact List.mem_append_right _ List.mem_cons_self

theorem purserSend_lost {s : State} {m : Nat} (h : choosePort s m = none) (x : PurserMsg) : purserSend s m x = s := by
  rw [purserSend, h]

/-! ### Questions -/

/-- Questions of one request: frames are put in line, tokens are taken from buckets, and what the request awaits is new. -/
structure Asked (s t : State) (rid : Nat) : Prop where
  eq : t = { s with fry := t.fry, prt := t.prt, pur := { s.pur with reqs := t.pur.reqs } }
  prt : SamePrt s.prt t.prt
  calm : Calm s t
  others : Claim.otherReqs s t rid

theorem Asked.refl (s : State) (rid : Nat) : Asked s s rid := ⟨rfl, .refl _, steady_calm.refl s, fun _ _ => rfl⟩

theorem Asked.trans {s t u : State} {rid : Nat} (h : Asked s t rid) (h' : Asked t u rid) : Asked s u rid :=
  ⟨by rw [h'.eq, h.eq], h.prt.trans h'.prt, steady_calm.trans h.calm h'.calm, otherReqs_trans h.others h'.others⟩

theorem Asked.putReq (s : State) (rid : Nat) (r : Request) : Asked s (putReq s rid r) rid :=
  ⟨rfl, .refl _, .of_fry rfl, otherReqs_putReq s rid r⟩

theorem Asked.modReq (s : State) (rid : Nat) (f : Request → Request) : Asked s (modReq s rid f) rid := by
  cases h : getReq s rid with
  | none => rw [Machine.modReq, h]; exact .refl s rid
  | some r => rw [modReq_of h]; exact .putReq s rid _

theorem Asked.purserSend (s : State) (rid m : Nat) (x : PurserMsg) : Asked s (purserSend s m x) rid :=
  ⟨by rw [purserSend_eq], by rw [purserSend_eq]; exact .refl _, calm_purserSend s m x,
    otherReqs_of_reqs (by rw [purserSend_eq]) rid⟩

/-- A read of memory is part of it. -/
theorem Charged.asked {s t : State} (h : Charged s t) (rid : Nat) : Asked s t rid :=
  ⟨by rw [h.eq], h.prt, .of_fry (by rw [h.eq]), otherReqs_of_reqs (by rw [h.eq]) rid⟩

section
variable {s t : State} {rid : Nat} (h : Asked s t rid)
include h

theorem Asked.mem : t.mem = s.mem := by rw [h.eq]

theorem Asked.cmds : t.pur.cmds = s.pur.cmds := by rw [h.eq]

theorem Asked.engs : t.engs = s.engs := by rw [h.eq]

theorem Asked.clean (hs : Claim.clean s) : Claim.clean t := clean_of_mem hs h.mem

theorem Asked.openTo {w : Who} (ho : Claim.openTo s w) : Claim.openTo t w := openTo_of_samePrt h.prt ho

end

theorem Charged.getReq {s t : State} (h : Charged s t) (i : Nat) : getReq t i = getReq s i := getReq_of_reqs (by rw [h.eq]) i

theorem purserSend_getReq (s : State) (m : Nat) (x : PurserMsg) (i : Nat) : getReq (purserSend s m x) i = getReq s i :=
  getReq_of_reqs (by rw [purserSend_eq]) i

section
variable {s : State} {rid key m : Nat} {r : Request} (hr : getReq s rid = some r) (q : PurserAsk) (buf : Nat)
include hr

/-- A question that is asked already, or answered, is not asked again. -/
theorem ask_again (h : (tabFind r.asks key).isSome = true ∨ (tabFind r.answers key).isSome = true) : ask s rid key m q buf = s := by
  rw [ask, hr]
  exact if_pos (by simpa using h)

section
variable (hasks : tabFind r.asks key = none) (hanswers : tabFind r.answers key = none) (hm : m ≠ ownModule s)
include hasks hanswers hm

/-- A question to a module with a path is put in line. -/
theorem ask_far (hp : (choosePort s m).isSome = true) :
    ask s rid key m q buf = purserSend (putReq s rid { r with asks := tabPut r.asks key m }) m (.ask rid key q) := by
  rw [ask, hr]
  simp only [hasks, hanswers, Option.isSome_none, Bool.or_false, Bool.false_eq_true, if_false, hm]
  exact if_pos hp

/-- A question to a module without a path is answered with LINK_LOST. -/
theorem ask_lost (hp : choosePort s m = none) : ask s rid key m q buf =
    putReq s rid { r with asks := tabDel (tabPut r.asks key m) key, answers := tabPut r.answers key { status := .linkLost } } := by
  rw [ask, hr]
  simp only [hasks, hanswers, Option.isSome_none, Bool.or_false, Bool.false_eq_true, if_false, hm, hp]
  rw [takeAnswer, getReq_putReq]
  simp only [tabFind_tabPut_self, if_true]
  rw [putReq_putReq]

end

/-- A question to a module with a path: the request awaits its answer, and the module is told. -/
theorem asked_far (hasks : tabFind r.asks key = none) (hanswers : tabFind r.answers key = none) (hm : m ≠ ownModule s)
    (hp : (choosePort s m).isSome = true) : Asked s (ask s rid key m q buf) rid ∧
      Claim.purserTells (ask s rid key m q buf) m (.ask rid key q) ∧
      getReq (ask s rid key m q buf) rid = some { r with asks := tabPut r.asks key m } := by
  rw [ask_far hr q buf hasks hanswers hm hp]
  have hp' : (choosePort (putReq s rid { r with asks := tabPut r.asks key m }) m).isSome = true := by
    rw [(Asked.putReq s rid _).calm.choosePort_isSome]
    exact hp
  exact ⟨(Asked.putReq s rid _).trans (.purserSend _ rid m _), purserSend_tells hp' _, (purserSend_getReq _ _ _ _).trans (getReq_putReq _ _ _)⟩

end

/-- The questions about the elements of a list, each with a number of its own, to modules with paths. -/
theorem asked_all {α : Type} {rid buf : Nat} {key mod : α → Nat} {q : α → PurserAsk} (l : List α) {s : State} {r : Request}
    (hr : getReq s rid = some r) (hnone : ∀ x ∈ l, tabFind r.asks (key x) = none ∧ tabFind r.answers (key x) = none)
    (hkeys : (l.map key).Nodup) (hfar : ∀ x ∈ l, mod x ≠ ownModule s ∧ (choosePort s (mod x)).isSome = true) :
    let t := l.foldl (fun s x => ask s rid (key x) (mod x) (q x) buf) s
    Asked s t rid ∧ (∀ x ∈ l, Claim.purserTells t (mod x) (.ask rid (key x) (q x))) ∧
    getReq t rid = some { r with asks := l.foldl (fun a x => tabPut a (key x) (mod x)) r.asks } := by
  induction l generalizing s r with
  | nil => exact ⟨.refl s rid, fun _ h => absurd h List.not_mem_nil, hr⟩
  | cons x l ih =>
    obtain ⟨hx, hl⟩ := List.nodup_cons.1 hkeys
    obtain ⟨hasks, hanswers⟩ := hnone x List.mem_cons_self
    obtain ⟨hm, hp⟩ := hfar x List.mem_cons_self
    obtain ⟨hasked, htells, hget⟩ := asked_far hr (q x) buf hasks hanswers hm hp
    have hnone' : ∀ y ∈ l, tabFind (tabPut r.asks (key x) (mod x)) (key y) = none ∧ tabFind r.answers (key y) = none := by
      intro y hy
      obtain ⟨ha, hb⟩ := hnone y (List.mem_cons_of_mem _ hy)
      have hne : key x ≠ key y := fun h => hx (h ▸ List.mem_map_of_mem hy)
      rw [tabFind_tabPut, if_neg hne]
      exact ⟨ha, hb⟩
    have hfar' : ∀ y ∈ l, mod y ≠ ownModule (ask s rid (key x) (mod x) (q x) buf) ∧
        (choosePort (ask s rid (key x) (mod x) (q x) buf) (mod y)).isSome = true := by
      intro y hy
      rw [hasked.calm.ownModule, hasked.calm.choosePort_isSome]
      exact hfar y (List.mem_cons_of_mem _ hy)
    obtain ⟨h1, h2, h3⟩ := ih hget hnone' hl hfar'
    refine ⟨hasked.trans h1, fun y hy => ?_, h3⟩
    obtain rfl | hy := List.mem_cons.1 hy
    · exact h1.calm.tells htells
    · exact h2 y hy

/-! ### Engine commands of a stage -/

/-- An engine command that its queue takes from a stage. -/
theorem stageIssue_of {s : State} {e : Eng} {id i : Nat} {c : PCmd} {b : Bytes} (hc : getCmd s id = some c)
    (hno : c.jobs.contains i = false) (hon : (getCtx s (cmdCtx b)).enable = true) (hreach : mayReach s e (cmdCtx b) = true)
    (hroom : (getQ s e (cmdCtx b)).queue.length < 64) (he : e.kind ≠ .core) :
    let s' := putCmd s id { c with jobs := i :: c.jobs }
    stageIssue s id i e b =
      modQ s' e (cmdCtx b) fun y => { y with queue := y.queue ++ [offered s' e b (some (id, i))], nextSeq := y.nextSeq + 1 } := by
  dsimp only
  have hroom' : (getQ s e (cmdCtx b)).queue.length < queueRoom s e (cmdCtx b) := by rw [queueRoom, if_neg he]; exact hroom
  rw [stageIssue, hc]
  simp only [hno, Bool.false_eq_true, if_false]
  rw [offerCmd_queued (s := putCmd s id { c with jobs := i :: c.jobs }) (some (id, i)) hon hreach hroom']

/-- The context in the second byte of a command. -/
theorem cmdCtx_of {c : Nat} (hc : c < 128) (op : Byte) (rest : Bytes) : cmdCtx (op :: BitVec.ofNat 8 c :: rest) = c := by
  have h : fld (op :: BitVec.ofNat 8 c :: rest) 1 1 = c % 256 := by simp [fld, leNat]
  rw [cmdCtx, h, bits]
  omega

/-- A stage's engine command stands last in its queue. -/
theorem stageOffers_of {s t u : State} {e : Eng} {r : Request} {id i : Nat} {c : PCmd} {b : Bytes}
    (ho : Claim.offerable s e r.ctx) (hb : cmdCtx b = r.ctx) (he : e.kind ≠ .core) (hc : getCmd s id = some c)
    (hno : c.jobs.contains i = false) (ht : t.engs = s.engs) (hprt : SamePrt s.prt t.prt) (hcmd : t.pur.cmds = s.pur.cmds)
    (hu : u.engs = (stageIssue t id i e b).engs) (huc : u.pur.cmds = (stageIssue t id i e b).pur.cmds) :
    Claim.stageOffers s (noteStep u id) e r id i c b := by
  obtain ⟨-, hon, hreach, hroom⟩ := ho
  have hget (c : Nat) : getCtx t c = getCtx s c := by rw [getCtx, hprt.ctxs, getCtx]
  have hq (f : Eng) (d : Nat) : getQ t f d = getQ s f d := getQ_of_engs ht f d
  have hissue := stageIssue_of (s := t) (e := e) (b := b) ((getCmd_of_cmds hcmd id).trans hc) hno (by rw [hb, hget]; exact hon)
    (by rw [hb, mayReach, hget]; exact hreach) (by rw [hb, hq]; exact hroom) he
  dsimp only at hissue
  rw [hb] at hissue
  rw [hissue] at hu huc
  have hcmds : getCmd u id = some { c with jobs := i :: c.jobs } := by
    rw [getCmd, huc]
    exact tabFind_tabPut_self _ _ _
  have hengs : (noteStep u id).engs = (modQ (putCmd t id { c with jobs := i :: c.jobs }) e r.ctx fun y =>
      { y with queue := y.queue ++ [offered (putCmd t id { c with jobs := i :: c.jobs }) e b (some (id, i))],
               nextSeq := y.nextSeq + 1 }).engs := by rw [noteStep_eq]; exact hu
  refine ⟨⟨offered (putCmd t id { c with jobs := i :: c.jobs }) e b (some (id, i)), ?_, rfl, rfl⟩, fun f d hne => ?_, ?_⟩
  · rw [getQ_of_engs hengs, getQ_modQ]
    rw [show getQ (putCmd t id { c with jobs := i :: c.jobs }) e r.ctx = getQ s e r.ctx from hq e r.ctx]
  · rw [getQ_of_engs hengs, otherQueues_modQ _ e r.ctx _ f d hne]
    exact hq f d
  · rw [noteStep_getCmd hcmds]

end Sys2Proof.Proofs
end

