-- ==== Sys2Proof/Proofs/SearchStages.lean ====
section
/-! PROOFS. EMBED, SEARCH and RERANK: what each offers, asks and tells, and how it ends (spec/13 R314-R319). -/

namespace Sys2Proof.Proofs

open Sys2Proof Sys2Proof.Machine Sys2Proof.Laws

/-! ### The question's TOKENIZE -/

section
variable {s : State} {rid op buf : Nat} {r : Request} {g : Stage} {c : PCmd} (next : State → Request → State)
  (hc : getCmd s g.cmd = some c)
include hc

/-- A stage that has not offered its TOKENIZE offers it, and keeps where its summary will stand. -/
theorem tokenizeStage_offers (hdone : tabFind c.done 0 = none) (hjobs : c.jobs.contains 0 = false)
    (hon : (getCtx s r.ctx).enable = true) (hctx : r.ctx < 128) (hroom : (getQ s ⟨.grinder, 0⟩ r.ctx).queue.length < 64) :
    tokenizeStage s rid op buf r g next = modReq (stageIssue s g.cmd 0 ⟨.grinder, 0⟩ (tokenizeBytes r buf)) rid fun r =>
      r.modStage op fun g => { g with step := buf + 2 } := by
  have hb : cmdCtx (tokenizeBytes r buf) = r.ctx := cmdCtx_of hctx _ _
  have hissue := stageIssue_of (s := s) (e := ⟨.grinder, 0⟩) (b := tokenizeBytes r buf) hc hjobs (by rw [hb]; exact hon) rfl
    (by rw [hb]; exact hroom) (by decide)
  have hnew : (getCmd (stageIssue s g.cmd 0 ⟨.grinder, 0⟩ (tokenizeBytes r buf)) g.cmd).map (·.jobs) = some (0 :: c.jobs) := by
    rw [hissue]
    exact congrArg (Option.map PCmd.jobs) (tabFind_tabPut_self _ _ _)
  have hstatus : jobStatus s g.cmd 0 = none := by rw [jobStatus, hc]; exact hdone
  simp only [tokenizeStage, hstatus, hnew, hc, Option.map_some]
  rw [if_neg (fun h => by simpa using congrArg List.length (Option.some.inj h))]

theorem tokenizeStage_fails {st : Status} (hdone : tabFind c.done 0 = some st) (hbad : st ≠ .ok) :
    tokenizeStage s rid op buf r g next = stageWorked s rid op st := by
  have hstatus : jobStatus s g.cmd 0 = some st := by rw [jobStatus, hc]; exact hdone
  rw [tokenizeStage, hstatus]
  split
  · next h => exact absurd h (by simp)
  · next h => exact absurd (Option.some.inj h) hbad
  · next h => rw [Option.some.inj h]

/-- When the TOKENIZE has ended well QCOUNT is read from its summary and written; then the stage goes on. -/
theorem tokenizeStage_counts {b : Nat} (hdone : tabFind c.done 0 = some .ok) (hstep : g.step = b + 2) (hs : Claim.clean s)
    (hb : b + 8 ≤ wheelBase) :
    let n := leNat (memRead s.mem.bytes (b + 4) 4)
    ∃ t, Charged s t ∧ tokenizeStage s rid op buf r g next =
      next (recPut (putReq t rid { r with qcount := n }) { r with qcount := n } 52 4 n) { r with qcount := n } := by
  have hstatus : jobStatus s g.cmd 0 = some .ok := by rw [jobStatus, hc]; exact hdone
  obtain ⟨t, ht, hch⟩ := rdNat_of_clean hs (mayAccess_purser s (a := b + 4) (n := 4) (by omega) false)
  refine ⟨t, hch, ?_⟩
  have hat : g.step - 2 + 4 = b + 4 := by omega
  rw [tokenizeStage, hstatus]
  dsimp only
  rw [hat, ht]

end

theorem stageWorked_mem (s : State) (rid op : Nat) (st : Status) : (stageWorked s rid op st).mem = s.mem := by
  rw [stageWorked, modReq_eq]

/-- A stage whose row ends its own work with a status, from a state where its request is as before. -/
theorem stageDone_of_same {s t : State} {rid op : Nat} {r : Request} (hs : getReq s rid = some r) (ht : getReq t rid = some r)
    (hother : Claim.otherReqs s t rid) (st : Status) : Claim.stageDone s (stageWorked t rid op st) rid op st :=
  stageDone_stageWorked st hs ht hother fun _ _ => rfl

theorem embedRuns : Claim.embedRuns := by
  intro rid buf r c s hon
  dsimp only
  intro hc
  have hrow : exec (.embed rid buf) s = .next (noteStep (tokenizeStage s rid 0x10 buf r (tabGet {} r.stages 0x10)
      fun s _ => stageWorked s rid 0x10 .ok) (tabGet {} r.stages 0x10).cmd) := congrArg Host.Outcome.next (stageRow_on hon _)
  have hr := hon.1
  refine ⟨fun hdone hjobs hoff => ?_, fun b hdone hstep hs ho hb haddr => ?_, fun st hdone hbad => ?_⟩
  · obtain ⟨hctx, hen, hreach, hroom⟩ := hoff
    rw [tokenizeStage_offers _ hc hdone hjobs hen hctx hroom] at hrow
    have hb : cmdCtx (tokenizeBytes r buf) = r.ctx := cmdCtx_of hctx _ _
    obtain ⟨u, hu⟩ : ∃ u, u = stageIssue s (tabGet {} r.stages 0x10).cmd 0 ⟨.grinder, 0⟩ (tokenizeBytes r buf) := ⟨_, rfl⟩
    have hueq : u = { s with engs := u.engs, pur := { s.pur with cmds := u.pur.cmds } } := by
      rw [hu, stageIssue_of hc hjobs (by rw [hb]; exact hen) rfl (by rw [hb]; exact hroom) (by decide)]
      rfl
    have hreq : getReq u rid = some r := by rw [← hr]; exact getReq_of_reqs (by rw [hueq]) rid
    rw [← hu] at hrow
    refine does_of hrow ⟨stageOffers_of ⟨hctx, hen, hreach, hroom⟩ hb (by decide) hc hjobs rfl (.refl _) rfl ?_ ?_, ?_,
      ⟨_, (getReq_of_reqs (noteStep_reqs _ _) rid).trans (getReq_modReq hreq _), ?_⟩, ?_⟩
    · rw [modReq_eq, hu]
    · rw [modReq_eq, hu]
    · exact otherReqs_trans (otherReqs_trans (otherReqs_of_reqs (by rw [hueq]) rid) (otherReqs_modReq u rid _))
        (otherReqs_of_reqs (noteStep_reqs _ _) rid)
    · rw [tabGet_modStage]
    · rw [noteStep_eq, modReq_eq, hueq]
  · obtain ⟨t, hch, ht⟩ := tokenizeStage_counts (buf := buf) (op := 0x10) (rid := rid) (fun s _ => stageWorked s rid 0x10 .ok) hc hdone
      hstep hs hb
    rw [ht] at hrow
    obtain ⟨n, hn⟩ : ∃ n, n = leNat (memRead s.mem.bytes (b + 4) 4) := ⟨_, rfl⟩
    rw [← hn] at hrow
    obtain ⟨v, hv⟩ : ∃ v, v = putReq t rid { r with qcount := n } := ⟨_, rfl⟩
    have hasked : Asked s v rid := by rw [hv]; exact (hch.asked rid).trans (.putReq t rid _)
    have hw := recPut_wrote (hasked.clean hs) (r := { r with qcount := n }) (hasked.openTo ho) (off := 52) (n := 4)
      (by dsimp only; omega) n
    rw [← hv] at hrow
    obtain ⟨u, hu⟩ : ∃ u, u = recPut v { r with qcount := n } 52 4 n := ⟨_, rfl⟩
    rw [← hu] at hrow hw
    have hreq : getReq u rid = some { r with qcount := n } :=
      (getReq_of_reqs (s := v) (by rw [hw.pur]) rid).trans (by rw [hv]; exact getReq_putReq _ _ _)
    have hothers : Claim.otherReqs s u rid := otherReqs_trans hasked.others (otherReqs_of_reqs (by rw [hw.pur]) rid)
    refine does_of hrow ⟨stageDone_noteStep (stageDone_stageWorked .ok hr hreq hothers fun _ _ => rfl) _, fun r' hr' => ?_, ?_,
      fun a ha => ?_⟩
    · rw [getReq_of_reqs (noteStep_reqs _ _), stageWorked, getReq_modReq hreq] at hr'
      rw [← Option.some.inj hr']
      exact hn
    · rw [noteStep_mem, stageWorked_mem, hw.bytes]
      have hread := memRead_memWrite v.mem.bytes (r.addr + 52) (toLe 4 n)
      rw [toLe_length] at hread
      rw [hread, hn]
      have hback := toLe_leNat (memRead s.mem.bytes (b + 4) 4)
      rwa [memRead_length] at hback
    · rw [noteStep_mem, stageWorked_mem, hw.outside (by rw [toLe_length]; exact ha), hasked.mem]
  · rw [tokenizeStage_fails _ hc hdone hbad] at hrow
    refine does_of hrow ⟨stageDone_noteStep (stageDone_of_same hr hr (fun _ _ => rfl) st) _, ?_⟩
    rw [noteStep_mem, stageWorked_mem]

/-! ### What SEARCH reads -/

/-- A check that holds is passed. -/
theorem runActVal_stopIf_bind {α : Type} {b : Bool} {st : Status} {k : Unit → Act α} {s : State} (h : b = false) :
    runActVal (stopIf b st >>= k) s = runActVal (k ()) s := by
  subst h
  exact runActVal_bind_ok (runActVal_stopIf_false _ _)

/-- Work over a list that only computes gives what it computes for each element. -/
theorem runActVal_mapM_pure {α β : Type} {f : α → Act β} {g : α → β} (l : List α) (s : State)
    (h : ∀ x ∈ l, runActVal (f x) s = (.ok (g x), s)) : runActVal (l.mapM f) s = (.ok (l.map g), s) := by
  induction l with
  | nil => rfl
  | cons x l ih =>
    rw [List.mapM_cons, runActVal_bind_ok (h x List.mem_cons_self),
      runActVal_bind_ok (ih fun y hy => h y (List.mem_cons_of_mem _ hy))]
    rfl

/-- A record in a table of records, as it stands in memory. -/
theorem take_drop_memRead (m : List Host.Cell) (a w n i : Nat) (h : i < n) :
    ((memRead m a (w * n)).drop (w * i)).take w = memRead m (a + w * i) w := by
  have hle : w * i + w ≤ w * n := by
    rw [← Nat.mul_succ]
    exact Nat.mul_le_mul_left w h
  rw [show w * n = w * i + (w + (w * n - w * i - w)) by omega, memRead_add, memRead_add, List.drop_left' (memRead_length _ _ _),
    List.take_left' (memRead_length _ _ _)]

/-- Shard entries that keep the rules are read as they stand. -/
theorem rdShards_of {s : State} {w : Who} (hs : Claim.clean s) (ho : Claim.openTo s w) {b : Bytes} {l : List (Nat × Nat)}
    (h : Claim.shardsRead s b l) : ∃ t, runActVal (rdShards w b) s = (.ok l, t) ∧ Charged s t := by
  obtain ⟨hin, hrules, hl⟩ := h
  obtain ⟨t, ht, hch⟩ := rd_of_clean hs (ho _ _ false hin)
  refine ⟨t, ?_, hch⟩
  rw [rdShards, runActVal_bind_ok ht, hl]
  refine runActVal_mapM_pure _ _ fun i hi => ?_
  have hi' := List.mem_range.1 hi
  obtain ⟨hmod, hzero, halign⟩ := hrules i hi'
  have he := take_drop_memRead s.mem.bytes (fld b 8 8) 16 (fld b 2 2) i hi'
  dsimp only
  rw [he, runActVal_stopIf_bind (by simp only [hzero, halign, Nat.not_le.2 hmod]; rfl)]
  rfl

/-! ### SEARCH -/

/-- A part as it stands once SEARCH has gone over it. -/
def told (r : Request) (x : SearchPart × Nat) : SearchPart :=
  { x.1 with sent := x.1.sent || ((tabFind r.answers x.2).isSome && x.1.status.isNone) }

theorem partAnswer_of {s : State} {rid i : Nat} {r : Request} (h : getReq s rid = some r) (f : SearchPart → SearchPart) :
    partAnswer s rid i f = putReq s rid { r with parts := r.parts.zipIdx.map fun p => if p.2 = i then f p.1 else p.1 } :=
  modReq_of h _

/-- A part that is answered by nobody yet, told already, or over is passed. -/
theorem searchTell_passes {s : State} {rid i : Nat} {r : Request} (hr : getReq s rid = some r) (b : Bytes) (bufs : List Nat)
    (h : tabFind r.answers i = none ∨ (r.parts.getD i {}).sent = true ∨ (r.parts.getD i {}).status ≠ none) :
    searchTell rid b bufs s i = s := by
  have hans : answered s rid i = tabFind r.answers i := by rw [answered, hr]; rfl
  rw [searchTell, hr, hans]
  cases ha : tabFind r.answers i with
  | none => rfl
  | some a =>
    refine if_pos ?_
    obtain h | h | h := h
    · rw [ha] at h
      exact absurd h (by simp)
    · rw [h, Bool.true_or]
    · rw [Option.isSome_iff_ne_none.2 h, Bool.or_true]

/-- What leaves memory takes tokens from buckets alone. -/
theorem Stored.charged {R : Nat → Prop} {s t : State} (h : Stored R s t) (hm : t.mem = s.mem) : Charged s t :=
  ⟨by rw [h.eq, hm], h.prt⟩

/-- What SEARCH carries to a module of DIM `dim`. -/
def carried (s : State) (r : Request) (b : Bytes) (dim : Nat) : Bytes × Bytes × Option Bytes :=
  (memRead s.mem.bytes (fld r.record 56 8) (4 * dim), if fld b 16 8 = 0 then [] else memRead s.mem.bytes (fld b 16 8) 192,
    if bit (recFlags r.record) 1 = true then some (memRead s.mem.bytes (fld r.record 40 8) (4 * r.qcount)) else none)

/-- It is read where it lies in reach. -/
theorem searchCarries_of {s : State} {r : Request} {b : Bytes} {dim : Nat} (hs : Claim.clean s)
    (ho : Claim.openTo s (whoPurser (some r.ctx))) (hv : fld r.record 56 8 + 4 * dim ≤ wheelBase) (hf : fld b 16 8 + 192 ≤ wheelBase)
    (ht : fld r.record 40 8 + 4 * r.qcount ≤ wheelBase) :
    ∃ t, runActVal (searchCarries r b dim) s = (.ok (carried s r b dim), t) ∧ Charged s t := by
  have h : Yields (fun _ => False) (searchCarries r b dim) s fun x t => x = carried s r b dim ∧ t.mem = s.mem := by
    unfold searchCarries
    dsimp only
    refine .bind (.rdMem hs (ho _ _ false hv)) fun v u hu ⟨hvv, hum⟩ => ?_
    refine Yields.ite_bind (.bind (Q := fun f t => f = (if fld b 16 8 = 0 then [] else memRead s.mem.bytes (fld b 16 8) 192) ∧
      t.mem = s.mem) ?_ fun f w hw ⟨hfv, hwm⟩ => ?_)
    · split
      · exact .pure ⟨rfl, hum⟩
      · refine (Yields.rdMem (hu.clean hs) (hu.openTo ho _ _ false hf)).mono fun f t _ ⟨hfv, htm⟩ => ?_
        rw [hum] at hfv htm
        exact ⟨hfv, htm⟩
    · have huw := hu.trans hw
      split
      · next hbit =>
        refine .bind (.rdMem (huw.clean hs) (huw.openTo ho _ _ false ht)) fun t z _ ⟨htv, hzm⟩ => .pure ⟨?_, hzm.trans hwm⟩
        rw [hwm] at htv
        rw [carried, if_pos hbit, hvv, hfv, htv]
      · next hbit => exact .pure ⟨by rw [carried, if_neg hbit, hvv, hfv], hwm⟩
  obtain ⟨x, t, hrun, hst, hx, hm⟩ := h
  exact ⟨t, by rw [hrun, hx], hst.charged hm⟩

/-- Changing one element of a list by its number. -/
theorem zipIdx_map_zipIdx_map {α : Type} (l : List α) (f g : α → Nat → α) :
    (l.zipIdx.map fun p => f p.1 p.2).zipIdx.map (fun p => g p.1 p.2) = l.zipIdx.map fun p => g (f p.1 p.2) p.2 := by
  refine List.ext_getElem (by simp) fun i h1 h2 => ?_
  simp

section
variable {s : State} {rid i : Nat} {r : Request} (hr : getReq s rid = some r) (b : Bytes) (bufs : List Nat) {a : Answer}
  (ha : tabFind r.answers i = some a) (hsent : (r.parts.getD i {}).sent = false) (hstatus : (r.parts.getD i {}).status = none)
include hr ha hsent hstatus

/-- A part whose answer is bad fails with its status. -/
theorem searchTell_fails (hbad : a.status.good = false) : searchTell rid b bufs s i = putReq s rid { r with
    parts := r.parts.zipIdx.map fun p => if p.2 = i then { p.1 with sent := true, status := some a.status } else p.1 } := by
  have hans : answered s rid i = some a := by rw [answered, hr]; exact ha
  have hparts : (r.parts.zipIdx.map fun p => if p.2 = i then { p.1 with sent := true } else p.1).zipIdx.map (fun p =>
      if p.2 = i then { p.1 with status := some a.status } else p.1) =
      r.parts.zipIdx.map fun p => if p.2 = i then { p.1 with sent := true, status := some a.status } else p.1 := by
    refine (zipIdx_map_zipIdx_map r.parts (fun x j => if j = i then { x with sent := true } else x)
      (fun x j => if j = i then { x with status := some a.status } else x)).trans (List.map_congr_left fun p _ => ?_)
    split <;> rfl
  rw [searchTell, hr, hans]
  simp only [hsent, hstatus, hbad, Option.isSome_none, Bool.or_false, Bool.false_eq_true, if_false, Bool.not_false, if_true]
  rw [partAnswer_of hr, partAnswer_of (getReq_putReq _ _ _), putReq_putReq, hparts]

/-- A part of a module with a path is told what SEARCH carries. -/
theorem searchTell_tells (hgood : a.status.good = true) (hs : Claim.clean s) (ho : Claim.openTo s (whoPurser (some r.ctx)))
    (hv : fld r.record 56 8 + 4 * leNat (a.data.headD []) ≤ wheelBase) (hf : fld b 16 8 + 192 ≤ wheelBase)
    (ht : fld r.record 40 8 + 4 * r.qcount ≤ wheelBase) (hm : (r.parts.getD i {}).module ≠ ownModule s)
    (hp : (choosePort s (r.parts.getD i {}).module).isSome = true) :
    let x := r.parts.getD i {}
    let c := carried s r b (leNat (a.data.headD []))
    let t := searchTell rid b bufs s i
    Asked s t rid ∧ Claim.purserTells t x.module (.search rid i r.ctx x.desc (fld b 4 2) (fld b 6 2) (fld b 46 2) c.1 c.2.1 c.2.2) ∧
    getReq t rid = some { r with parts := r.parts.zipIdx.map fun p => if p.2 = i then { p.1 with sent := true } else p.1 } := by
  have hans : answered s rid i = some a := by rw [answered, hr]; exact ha
  obtain ⟨u, hu⟩ : ∃ u, u = putReq s rid { r with parts := r.parts.zipIdx.map fun p => if p.2 = i then { p.1 with sent := true } else p.1 } :=
    ⟨_, rfl⟩
  have hasked : Asked s u rid := by rw [hu]; exact .putReq s rid _
  obtain ⟨v, hcarried, hch⟩ := searchCarries_of (b := b) (dim := leNat (a.data.headD [])) (hasked.clean hs) (hasked.openTo ho) hv hf ht
  have hcsame : carried u r b (leNat (a.data.headD [])) = carried s r b (leNat (a.data.headD [])) := by rw [carried, hasked.mem, carried]
  rw [hcsame] at hcarried
  have hall := hasked.trans (hch.asked rid)
  have hm' : (r.parts.getD i {}).module ≠ ownModule v := by rw [hall.calm.ownModule]; exact hm
  have hp' : (choosePort v (r.parts.getD i {}).module).isSome = true := by rw [hall.calm.choosePort_isSome]; exact hp
  have hrow : searchTell rid b bufs s i = purserSend v (r.parts.getD i {}).module (.search rid i r.ctx (r.parts.getD i {}).desc (fld b 4 2)
      (fld b 6 2) (fld b 46 2) (carried s r b (leNat (a.data.headD []))).1 (carried s r b (leNat (a.data.headD []))).2.1
      (carried s r b (leNat (a.data.headD []))).2.2) := by
    have hnone : (choosePort v (r.parts.getD i {}).module).isNone = false := by rw [Option.isNone_eq_false_iff]; exact hp'
    rw [searchTell, hr, hans]
    simp only [hsent, hstatus, hgood, Option.isSome_none, Bool.or_false, Bool.false_eq_true, if_false, Bool.not_true]
    rw [partAnswer_of hr, ← hu]
    simp only [hcarried, hm', hnone, if_false, Bool.false_eq_true]
  dsimp only
  rw [hrow]
  refine ⟨hall.trans (.purserSend v rid _ _), purserSend_tells hp' _, ?_⟩
  rw [purserSend_getReq, hch.getReq, hu, getReq_putReq]

end

/-- The parts once those before number `k` have been gone over, each as `f` makes it. -/
def upTo (f : SearchPart × Nat → SearchPart) (l : List SearchPart) (k : Nat) : List SearchPart :=
  l.zipIdx.map fun x => if x.2 < k then f x else x.1

section
variable (f : SearchPart × Nat → SearchPart) (l : List SearchPart)

theorem getElem?_upTo (k i : Nat) : (upTo f l k)[i]? = l[i]?.map fun p => if i < k then f (p, i) else p := by
  rw [upTo, List.getElem?_map, List.getElem?_zipIdx]
  cases l[i]? with
  | none => rfl
  | some p => simp

theorem upTo_zero : upTo f l 0 = l := by
  refine List.ext_getElem? fun i => ?_
  rw [getElem?_upTo]
  simp

theorem upTo_all : upTo f l l.length = l.zipIdx.map f := by
  refine List.map_congr_left fun x hx => if_pos ?_
  exact (List.getElem?_eq_some_iff.1 (List.mem_zipIdx_iff_getElem?.1 hx)).1

/-- The part under way is still as it was. -/
theorem getD_upTo_self (k : Nat) : (upTo f l k).getD k {} = l.getD k {} := by
  rw [List.getD_eq_getElem?_getD, getElem?_upTo, List.getD_eq_getElem?_getD]
  cases l[k]? with
  | none => rfl
  | some p => simp

variable {f l}

/-- Changing the part under way goes one part on. -/
theorem upTo_succ {k : Nat} (g : SearchPart → SearchPart) (h : ∀ p, l[k]? = some p → g p = f (p, k)) :
    ((upTo f l k).zipIdx.map fun p => if p.2 = k then g p.1 else p.1) = upTo f l (k + 1) := by
  refine List.ext_getElem? fun i => ?_
  rw [List.getElem?_map, List.getElem?_zipIdx, getElem?_upTo, getElem?_upTo]
  cases hp : l[i]? with
  | none => rfl
  | some p =>
    by_cases hik : i = k
    · subst hik
      simp [h p hp]
    · have hlt : i < k + 1 ↔ i < k := by omega
      simp [hlt, hik]

/-- A part that is passed is as it would be after. -/
theorem upTo_succ_passed {k : Nat} (h : ∀ p, l[k]? = some p → f (p, k) = p) : upTo f l (k + 1) = upTo f l k := by
  rw [← upTo_succ id fun p hp => (h p hp).symm]
  simp [List.zipIdx_map_fst]

end

section
variable {s : State} {rid : Nat} {r : Request} (hr : getReq s rid = some r) (hs : Claim.clean s)
  (ho : Claim.openTo s (whoPurser (some r.ctx))) (b : Bytes) (bufs : List Nat)
  (hfar : ∀ p ∈ r.parts, p.module ≠ ownModule s ∧ (choosePort s p.module).isSome = true)
  (hgood : ∀ i a, tabFind r.answers i = some a → a.status.good = true ∧
    fld r.record 56 8 + 4 * leNat (a.data.headD []) ≤ wheelBase)
  (hf : fld b 16 8 + 192 ≤ wheelBase) (ht : fld r.record 40 8 + 4 * r.qcount ≤ wheelBase)
include hr hs ho hfar hgood hf ht

/-- The parts are gone over in order: each that is answered, not told and not over is told. -/
theorem search_tells (k : Nat) (hk : k ≤ r.parts.length) :
    let t := (List.range k).foldl (searchTell rid b bufs) s
    Asked s t rid ∧ getReq t rid = some { r with parts := upTo (told r) r.parts k } ∧
    ∀ i, i < k → ∀ p a, r.parts[i]? = some p → tabFind r.answers i = some a → p.sent = false → p.status = none →
      let c := carried s r b (leNat (a.data.headD []))
      Claim.purserTells t p.module (.search rid i r.ctx p.desc (fld b 4 2) (fld b 6 2) (fld b 46 2) c.1 c.2.1 c.2.2) := by
  induction k with
  | zero =>
    refine ⟨.refl s rid, ?_, fun i hi => absurd hi (Nat.not_lt_zero i)⟩
    rw [upTo_zero]
    exact hr
  | succ k ih =>
    obtain ⟨hasked, hget, htold⟩ := ih (by omega)
    dsimp only at htold ⊢
    rw [List.range_succ, List.foldl_append, List.foldl_cons, List.foldl_nil]
    obtain ⟨t, htv⟩ : ∃ t, t = (List.range k).foldl (searchTell rid b bufs) s := ⟨_, rfl⟩
    rw [← htv] at hasked hget htold ⊢
    obtain ⟨x, hx⟩ : ∃ x, r.parts[k]? = some x := ⟨_, List.getElem?_eq_getElem (by omega)⟩
    have hxk : r.parts.getD k {} = x := by rw [List.getD_eq_getElem?_getD, hx]; rfl
    have hxt : (upTo (told r) r.parts k).getD k {} = x := (getD_upTo_self _ _ k).trans hxk
    by_cases hskip : tabFind r.answers k = none ∨ x.sent = true ∨ x.status ≠ none
    · have hsame : upTo (told r) r.parts (k + 1) = upTo (told r) r.parts k := by
        refine upTo_succ_passed fun p hp => ?_
        rw [hx] at hp
        cases hp
        obtain h | h | h := hskip
        · simp [told, h]
        · simp only [told, h, Bool.true_or]
          rw [← h]
        · simp [told, Option.isNone_eq_false_iff.2 (Option.isSome_iff_ne_none.2 h)]
      rw [searchTell_passes hget b bufs (by rw [hxt]; exact hskip), hsame]
      refine ⟨hasked, hget, fun i hi p a hp ha hsent hstatus => ?_⟩
      by_cases hik : i = k
      · subst hik
        rw [hx] at hp
        cases hp
        obtain h | h | h := hskip
        · exact absurd (ha.symm.trans h) (by simp)
        · exact absurd (hsent.symm.trans h) (by decide)
        · exact absurd hstatus h
      · exact htold i (by omega) p a hp ha hsent hstatus
    · obtain ⟨hans, hrest⟩ := not_or.1 hskip
      obtain ⟨hsent, hstatus⟩ := not_or.1 hrest
      have hsent := Bool.eq_false_iff.2 hsent
      have hstatus := not_not.1 hstatus
      obtain ⟨a, ha⟩ := Option.ne_none_iff_exists'.1 hans
      obtain ⟨hg, hv⟩ := hgood k a ha
      obtain ⟨hm, hp⟩ := hfar x (List.mem_of_getElem? hx)
      have hone (p : SearchPart) (hp : r.parts[k]? = some p) : ({ p with sent := true } : SearchPart) = told r (p, k) := by
        rw [hx] at hp
        cases hp
        simp [told, ha, hstatus]
      have hstep := searchTell_tells (r := { r with parts := upTo (told r) r.parts k }) hget b bufs ha (by rw [hxt]; exact hsent)
        (by rw [hxt]; exact hstatus) hg (hasked.clean hs) (hasked.openTo ho) hv hf ht
        (by rw [hxt, hasked.calm.ownModule]; exact hm) (by rw [hxt, hasked.calm.choosePort_isSome]; exact hp)
      dsimp only at hstep
      rw [upTo_succ _ hone, hxt] at hstep
      obtain ⟨hasked', htells, hget'⟩ := hstep
      refine ⟨hasked.trans hasked', hget', fun i hi p a' hp' ha' hsent' hstatus' => ?_⟩
      by_cases hik : i = k
      · subst hik
        rw [hx] at hp'
        cases hp'
        rw [ha] at ha'
        cases ha'
        have hc : carried t { r with parts := upTo (told r) r.parts i } b (leNat (a.data.headD [])) = carried s r b (leNat (a.data.headD [])) := by
          rw [carried, hasked.mem, carried]
        rw [hc] at htells
        exact htells
      · exact hasked'.calm.tells (htold i (by omega) p a' hp' ha' hsent' hstatus')

end

section
variable {rid u : Nat} {bufs : List Nat} {r : Request} {s : State} (hon : Claim.stageOn s rid 0x11 r)
  (hs : Claim.clean s) (ho : Claim.openTo s (whoPurser (some r.ctx))) (hin : (tabGet {} r.stages 0x11).param + 64 ≤ wheelBase)
include hon hs ho hin

/-- A SEARCH that has started goes on once its record is read. -/
theorem searchStage_goes_on (hstep : (tabGet {} r.stages 0x11).step ≠ 0) : ∃ v, Charged s v ∧ searchStage s rid bufs u =
    noteStep (searchGoOn v rid (memRead s.mem.bytes (tabGet {} r.stages 0x11).param 64) bufs u (tabGet {} r.stages 0x11))
      (tabGet {} r.stages 0x11).cmd := by
  obtain ⟨v, hv, hch⟩ := rd_of_clean hs (ho _ _ false hin)
  refine ⟨v, hch, ?_⟩
  rw [searchStage, stageRow_on hon]
  simp only [hv, hstep, ne_eq, not_false_eq_true, if_true]

/-- A SEARCH that starts asks about its entries, then goes on. -/
theorem searchStage_begins (hstep : (tabGet {} r.stages 0x11).step = 0) {l : List (Nat × Nat)}
    (hl : Claim.shardsRead s (memRead s.mem.bytes (tabGet {} r.stages 0x11).param 64) l) : ∃ v, Charged s v ∧ searchStage s rid bufs u =
    noteStep (searchGoOn (searchBegin (modReq v rid fun r => r.modStage 0x11 fun g => { g with step := 1 }) rid l) rid
      (memRead s.mem.bytes (tabGet {} r.stages 0x11).param 64) bufs u (tabGet {} r.stages 0x11)) (tabGet {} r.stages 0x11).cmd := by
  obtain ⟨v, hv, hch⟩ := rd_of_clean hs (ho _ _ false hin)
  obtain ⟨w, hw, hcw⟩ := rdShards_of (l := l) (clean_of_mem hs hch.mem) (openTo_of_samePrt hch.prt ho) (b := memRead s.mem.bytes
    (tabGet {} r.stages 0x11).param 64) (by rw [Claim.shardsRead, hch.mem]; exact hl)
  refine ⟨w, hch.trans hcw, ?_⟩
  rw [searchStage, stageRow_on hon]
  simp only [hv, hstep, ne_eq, not_true_eq_false, if_false, hw]

end

/-- A stage that ends its own work at a step boundary, its request as before. -/
theorem does_worked {row : Instr} {rid op : Nat} {st : Status} {id : Nat} {r : Request} {s v : State}
    (hrow : exec row s = .next (noteStep (stageWorked v rid op st) id)) (hr : getReq s rid = some r) (hv : getReq v rid = some r)
    (hother : Claim.otherReqs s v rid) (hm : v.mem = s.mem) :
    Does row s fun t => Claim.stageDone s t rid op st ∧ t.mem = s.mem :=
  does_of hrow ⟨stageDone_noteStep (stageDone_of_same hr hv hother st) id, by rw [noteStep_mem, stageWorked_mem, hm]⟩

/-! ### The merge of a stage -/

/-- The lists of a merge and its table are stored, and the MERGE names them. -/
theorem mergeBytes_yields {s : State} {r : Request} (hs : Claim.clean s) (ho : Claim.openTo s (whoPurser (some r.ctx)))
    {bufs : List Nat} (mergeK kt : Nat) (largest : Bool) {n : Nat} (hn : n = r.parts.length)
    (hlists : ∀ i, i < n → bufs.getD i 0 + (r.parts.getD i {}).data.length ≤ wheelBase)
    (htable : bufs.getD n 0 + 16 * n ≤ wheelBase) :
    Yields (fun a => (∃ i, i < n ∧ bufs.getD i 0 ≤ a ∧ a < bufs.getD i 0 + (r.parts.getD i {}).data.length) ∨
        (bufs.getD n 0 ≤ a ∧ a < bufs.getD n 0 + 16 * n)) (mergeBytes r mergeK kt largest bufs) s fun b t =>
      b = [0xA2, BitVec.ofNat 8 r.ctx, BitVec.ofNat 8 (kt + 16 * b2n largest + 32), 0] ++ toLe 2 n ++ toLe 2 0 ++ toLe 4 mergeK ++
        toLe 4 0 ++ toLe 8 (bufs.getD n 0) ++ toLe 8 (fld r.record 168 8) ++ toLe 8 (fld r.record 176 8) ++ toLe 16 0 ++
        toLe 8 (bufs.getD (n + 1) 0) ∧
      memRead t.mem.bytes (bufs.getD n 0) (16 * n) =
        ((List.range n).map fun i => toLe 8 (bufs.getD i 0) ++ toLe 4 ((r.parts.getD i {}).data.length / 32) ++ toLe 4 0).flatten := by
  subst hn
  unfold mergeBytes
  dsimp only
  refine .bind (.mapM (P := fun p y => y = (bufs.getD p.2 0, p.1.data.length / 32)) r.parts.zipIdx fun p t hp ht => ?_)
    fun lists t ht hl => ?_
  · obtain ⟨hget⟩ : ∃ _ : r.parts[p.2]? = some p.1, True := ⟨List.mem_zipIdx_iff_getElem?.1 hp, trivial⟩
    have hlt : p.2 < r.parts.length := (List.getElem?_eq_some_iff.1 hget).1
    have hd : r.parts.getD p.2 {} = p.1 := by rw [List.getD_eq_getElem?_getD, hget]; rfl
    have hle := hlists p.2 hlt
    rw [hd] at hle
    refine .bind (.wr (ht.clean hs) (ht.openTo ho _ _ true hle) fun j h1 h2 => .inl ⟨p.2, hlt, h1, by rw [hd]; exact h2⟩) fun _ _ _ _ =>
      .pure rfl
  · have hlists' : lists = r.parts.zipIdx.map fun p => (bufs.getD p.2 0, p.1.data.length / 32) := map_of_forall₂ hl
    have htab : lists.map (fun l => toLe 8 l.1 ++ toLe 4 l.2 ++ toLe 4 0) = (List.range r.parts.length).map fun i =>
        toLe 8 (bufs.getD i 0) ++ toLe 4 ((r.parts.getD i {}).data.length / 32) ++ toLe 4 0 := by
      rw [hlists', List.map_map]
      refine List.ext_getElem (by simp) fun i h1 h2 => ?_
      have hi : i < r.parts.length := by simpa using h2
      simp [List.getD_eq_getElem?_getD, List.getElem?_eq_getElem hi]
    have hlen : ((List.range r.parts.length).map fun i =>
        toLe 8 (bufs.getD i 0) ++ toLe 4 ((r.parts.getD i {}).data.length / 32) ++ toLe 4 0).flatten.length = 16 * r.parts.length := by
      rw [List.length_flatten, List.map_map]
      simp [Function.comp_def, toLe_length, Nat.mul_comm]
    rw [htab]
    refine .bind (.wr (ht.clean hs) (by rw [hlen]; exact ht.openTo ho _ _ true htable) fun j h1 h2 => .inr ⟨h1, by rw [← hlen]; exact h2⟩)
      fun _ u _ hu => .pure ⟨rfl, ?_⟩
    rw [hu]
    have hread := memRead_memWrite t.mem.bytes (bufs.getD r.parts.length 0) ((List.range r.parts.length).map fun i =>
      toLe 8 (bufs.getD i 0) ++ toLe 4 ((r.parts.getD i {}).data.length / 32) ++ toLe 4 0).flatten
    rwa [hlen] at hread

/-- An engine command that a stage offers changes no memory and no request, whatever comes of the offer to a unit that is not a
core. -/
theorem stageIssue_keeps {s : State} {e : Eng} {id i : Nat} {c : PCmd} {b : Bytes} (hc : getCmd s id = some c)
    (hno : c.jobs.contains i = false) (hon : (getCtx s (cmdCtx b)).enable = true) (hreach : mayReach s e (cmdCtx b) = true)
    (hroom : (getQ s e (cmdCtx b)).queue.length < 64) (he : e.kind ≠ .core) :
    (stageIssue s id i e b).mem = s.mem ∧ (stageIssue s id i e b).pur.reqs = s.pur.reqs := by
  rw [stageIssue_of hc hno hon hreach hroom he]
  exact ⟨rfl, rfl⟩

theorem mergesLists_of {row : Instr} {rid op u : Nat} {bufs : List Nat} {r : Request} {kt : Nat} {largest : Bool} {s v : State}
    (hr : getReq s rid = some r) (hs : Claim.clean s) (ho : Claim.openTo s (whoPurser (some r.ctx))) (hv : Charged s v)
    (hrow : exec row s = .next (noteStep (mergeStage v rid op u r (tabGet {} r.stages op)
      (fld (memRead s.mem.bytes (tabGet {} r.stages op).param 64) 44 2) kt largest bufs) (tabGet {} r.stages op).cmd)) :
    Claim.mergesLists row rid op u bufs r kt largest s := by
  dsimp only [Claim.mergesLists]
  intro c hc
  have hcv : getCmd v (tabGet {} r.stages op).cmd = some c := (getCmd_of_cmds (by rw [hv.eq]) _).trans hc
  refine ⟨fun st hdone => ?_, fun hdone hjobs hoff hlists htable => ?_⟩
  · have hstatus : jobStatus v (tabGet {} r.stages op).cmd mergeJob = some st := by rw [jobStatus, hcv]; exact hdone
    rw [mergeStage, hstatus] at hrow
    exact does_worked hrow hr ((hv.getReq rid).trans hr) (hv.asked rid).others hv.mem
  · have hstatus : jobStatus v (tabGet {} r.stages op).cmd mergeJob = none := by rw [jobStatus, hcv]; exact hdone
    obtain ⟨b, t, hbt, hst, hb, htab⟩ := mergeBytes_yields (clean_of_mem hs hv.mem) (openTo_of_samePrt hv.prt ho)
      (fld (memRead s.mem.bytes (tabGet {} r.stages op).param 64) 44 2) kt largest rfl hlists htable
    rw [mergeStage, hstatus] at hrow
    simp only [hbt] at hrow
    obtain ⟨hctx, hen, hreach, hroom⟩ := hoff
    have hcb : cmdCtx b = r.ctx := by rw [hb]; exact cmdCtx_of hctx _ _
    have hprt : SamePrt s.prt t.prt := hv.prt.trans hst.prt
    have hengs : t.engs = s.engs := by rw [hst.eq, hv.eq]
    have hcmds : t.pur.cmds = s.pur.cmds := by rw [hst.eq, hv.eq]
    have hreqs : t.pur.reqs = s.pur.reqs := by rw [hst.eq, hv.eq]
    have hget (d : Nat) : getCtx t d = getCtx s d := by rw [getCtx, hprt.ctxs, getCtx]
    obtain ⟨hmem', hreqs'⟩ := stageIssue_keeps (s := t) (e := ssuEng u) (b := b) ((getCmd_of_cmds hcmds _).trans hc) hjobs
      (by rw [hcb, hget]; exact hen) (by rw [hcb, mayReach, hget]; exact hreach) (by rw [hcb, getQ_of_engs hengs]; exact hroom)
      EngKind.noConfusion
    refine does_of hrow ⟨?_, ?_, ?_, fun a h1 h2 => ?_⟩
    · rw [← hb]
      exact stageOffers_of ⟨hctx, hen, hreach, hroom⟩ hcb EngKind.noConfusion hc hjobs hengs hprt hcmds rfl rfl
    · exact otherReqs_of_reqs ((noteStep_reqs _ _).trans (hreqs'.trans hreqs)) rid
    · rw [noteStep_mem, hmem', htab]
    · rw [noteStep_mem, hmem', hst.kept a, hv.mem]
      rintro (⟨i, hi, hl, hu⟩ | ⟨hl, hu⟩)
      · have := h1 i hi
        omega
      · omega

/-- Parts that are over are passed by all of SEARCH. -/
theorem search_passes {s : State} {rid : Nat} {r : Request} (hr : getReq s rid = some r) (b : Bytes) (bufs : List Nat)
    (l : List Nat) (h : ∀ i ∈ l, tabFind r.answers i = none ∨ (r.parts.getD i {}).sent = true ∨ (r.parts.getD i {}).status ≠ none) :
    l.foldl (searchTell rid b bufs) s = s := by
  induction l with
  | nil => rfl
  | cons i l ih =>
    rw [List.foldl_cons, searchTell_passes hr b bufs (h i List.mem_cons_self)]
    exact ih fun j hj => h j (List.mem_cons_of_mem _ hj)

/-- SEARCH with nothing to tell and parts that are not over waits. -/
theorem searchGoOn_waits {s t : State} {rid u : Nat} {r r' : Request} (hr : getReq s rid = some r) (b : Bytes) (bufs : List Nat)
    (g : Stage) (ht : t = (List.range r.parts.length).foldl (searchTell rid b bufs) s) (hr' : getReq t rid = some r')
    (hopen : ∃ p ∈ r'.parts, p.status = none) : searchGoOn s rid b bufs u g = t := by
  obtain ⟨p, hp, hnone⟩ := hopen
  have hany : r'.parts.any (fun p => p.status.isNone) = true := List.any_eq_true.2 ⟨p, hp, by rw [hnone]; rfl⟩
  have hlen : ((getReq s rid).map fun r => r.parts.length).getD 0 = r.parts.length := by rw [hr]; rfl
  unfold searchGoOn
  dsimp only
  rw [hlen, ← ht, hr']
  exact if_pos hany

section
variable {s t : State} {rid u : Nat} {r r' : Request} (hr : getReq s rid = some r) (b : Bytes) (bufs : List Nat) (g : Stage)
  (ht : t = (List.range r.parts.length).foldl (searchTell rid b bufs) s) (hr' : getReq t rid = some r')
  (hover : ∀ p ∈ r'.parts, p.status ≠ none)
include hr ht hr' hover

/-- SEARCH whose parts are all over ends with the first failure. -/
theorem searchGoOn_fails {st : Status} (hfail : partsFail r'.parts = some st) :
    searchGoOn s rid b bufs u g = stageWorked t rid 0x11 st := by
  have hany : r'.parts.any (fun p => p.status.isNone) = false := List.any_eq_false.2 fun p hp => by
    rw [Option.isNone_iff_eq_none]; exact hover p hp
  have hlen : ((getReq s rid).map fun r => r.parts.length).getD 0 = r.parts.length := by rw [hr]; rfl
  unfold searchGoOn
  dsimp only
  rw [hlen, ← ht, hr']
  dsimp only
  rw [hany, if_neg Bool.false_ne_true, hfail]

/-- SEARCH whose parts have all ended well: RERANK follows, or it merges. -/
theorem searchGoOn_ends (hgood : partsFail r'.parts = none) : searchGoOn s rid b bufs u g =
    if bit (recFlags r'.record) 1 then stageWorked t rid 0x11 .ok else
      mergeStage t rid 0x11 u r' g (fld b 44 2) (metricKey ((r'.parts.head?.map (·.metric)).getD 0)).1
        (metricKey ((r'.parts.head?.map (·.metric)).getD 0)).2 bufs := by
  have hany : r'.parts.any (fun p => p.status.isNone) = false := List.any_eq_false.2 fun p hp => by
    rw [Option.isNone_iff_eq_none]; exact hover p hp
  have hlen : ((getReq s rid).map fun r => r.parts.length).getD 0 = r.parts.length := by rw [hr]; rfl
  unfold searchGoOn
  dsimp only
  rw [hlen, ← ht, hr']
  dsimp only
  rw [hany, if_neg Bool.false_ne_true, hgood]

end

/-! ### The start of SEARCH -/

/-- The request once SEARCH has started, before its questions. -/
def searchStarted (r : Request) (l : List (Nat × Nat)) : Request :=
  { (r.modStage 0x11 fun g => { g with step := 1 }) with answers := [], parts := l.map fun x => { module := x.1, desc := x.2 } }

/-- SEARCH starts by asking about every entry. -/
theorem searchBegin_of {s : State} {rid : Nat} {r : Request} (hr : getReq s rid = some r) (l : List (Nat × Nat)) :
    searchBegin (modReq s rid fun r => r.modStage 0x11 fun g => { g with step := 1 }) rid l =
      l.zipIdx.foldl (fun s x => ask s rid x.2 x.1.1 (.shardDim x.1.2) 0) (putReq s rid (searchStarted r l)) := by
  rw [searchBegin, modReq_of hr, modReq_of (getReq_putReq _ _ _), putReq_putReq]
  rfl

theorem zipIdx_snd_nodup {α : Type} (l : List α) : (l.zipIdx.map (·.2)).Nodup := by
  rw [List.zipIdx_map_snd]
  exact List.nodup_range'

/-- Numbers put in rising order make a table in that order. -/
theorem foldl_tabPut_zipIdx {α β : Type} (f : α → β) (l : List α) :
    l.zipIdx.foldl (fun t x => tabPut t x.2 (f x.1)) ([] : Tab β) = l.zipIdx.map fun x => (x.2, f x.1) := by
  have happend (t : Tab β) (k : Nat) (v : β) (h : ∀ y ∈ t, y.1 < k) : tabPut t k v = t ++ [(k, v)] := by
    induction t with
    | nil => rfl
    | cons y t ih =>
      have hy := h y List.mem_cons_self
      unfold tabPut
      rw [if_neg (by omega), if_neg (by omega), ih fun z hz => h z (List.mem_cons_of_mem _ hz)]
      rfl
  suffices hgen : ∀ (n : Nat) (t : Tab β), (∀ y ∈ t, y.1 < n) →
      (l.zipIdx n).foldl (fun t x => tabPut t x.2 (f x.1)) t = t ++ (l.zipIdx n).map fun x => (x.2, f x.1) from
    hgen 0 [] fun _ h => absurd h List.not_mem_nil
  induction l with
  | nil => intro n t _; simp
  | cons x l ih =>
    intro n t ht
    rw [List.zipIdx_cons, List.foldl_cons, happend t n (f x) ht, ih (n + 1), List.map_cons, List.append_assoc]
    · rfl
    · intro y hy
      obtain hy | hy := List.mem_append.1 hy
      · exact Nat.lt_succ_of_lt (ht y hy)
      · rw [List.mem_singleton.1 hy]
        exact Nat.lt_succ_self n

/-- What stands in such a table. -/
theorem tabFind_zipIdx {α β : Type} (f : α → β) {l : List α} {i : Nat} {x : α} (h : l[i]? = some x) :
    tabFind (l.zipIdx.map fun x => (x.2, f x.1)) i = some (f x) := by
  refine tabFind_of_mem (p := (i, f x)) (List.pairwise_iff_getElem.2 fun j k hj hk hjk => by simpa using hjk) ?_
  exact List.mem_map.2 ⟨(x, i), List.mem_zipIdx_iff_getElem?.2 h, rfl⟩

/-! ### Entries that no path reaches -/

/-- Questions that no path carries are all answered with LINK_LOST, and no frame is put in line. -/
theorem asked_lost {α : Type} {rid buf : Nat} {key mod : α → Nat} {q : α → PurserAsk} (l : List α) {s : State} {r : Request}
    (hr : getReq s rid = some r) (hasks : r.asks = []) (hnone : ∀ x ∈ l, tabFind r.answers (key x) = none)
    (hkeys : (l.map key).Nodup) (hlost : ∀ x ∈ l, mod x ≠ ownModule s ∧ choosePort s (mod x) = none) :
    let t := l.foldl (fun s x => ask s rid (key x) (mod x) (q x) buf) s
    Asked s t rid ∧ t.fry = s.fry ∧
    getReq t rid = some { r with answers := l.foldl (fun a x => tabPut a (key x) { status := .linkLost }) r.answers } := by
  induction l generalizing s r with
  | nil => exact ⟨.refl s rid, rfl, hr⟩
  | cons x l ih =>
    obtain ⟨hx, hl⟩ := List.nodup_cons.1 hkeys
    obtain ⟨hm, hp⟩ := hlost x List.mem_cons_self
    have hstep := ask_lost hr (q x) buf (by rw [hasks]; rfl) (hnone x List.mem_cons_self) hm hp
    have hdel : tabDel (tabPut r.asks (key x) (mod x)) (key x) = [] := by rw [hasks]; simp [tabPut, tabDel]
    rw [hdel] at hstep
    dsimp only
    rw [List.foldl_cons, hstep]
    obtain ⟨u, hu⟩ : ∃ u, u = putReq s rid { r with asks := [], answers := tabPut r.answers (key x) { status := .linkLost } } := ⟨_, rfl⟩
    have hasked : Asked s u rid := by rw [hu]; exact .putReq s rid _
    obtain ⟨h1, h2, h3⟩ := ih (s := u) (r := { r with asks := [], answers := tabPut r.answers (key x) { status := .linkLost } })
      (by rw [hu, getReq_putReq]) rfl
      (fun y hy => by
        have hne : key y ≠ key x := fun h => hx (h ▸ List.mem_map_of_mem hy)
        rw [tabFind_tabPut, if_neg hne.symm]
        exact hnone y (List.mem_cons_of_mem _ hy)) hl
      (fun y hy => by
        obtain ⟨hym, hyp⟩ := hlost y (List.mem_cons_of_mem _ hy)
        exact ⟨by rw [hasked.calm.ownModule]; exact hym, hasked.calm.choosePort_none hyp⟩)
    rw [← hu]
    refine ⟨hasked.trans h1, h2.trans (by rw [hu]; rfl), h3.trans ?_⟩
    rw [hasks, List.foldl_cons]

/-- A part whose module no path reaches. -/
def lostPart (x : SearchPart × Nat) : SearchPart := { x.1 with sent := true, status := some .linkLost }

/-- Parts that are all answered with LINK_LOST fail with it, one after the other. -/
theorem search_loses {s : State} {rid : Nat} {r : Request} (hr : getReq s rid = some r) (b : Bytes) (bufs : List Nat)
    (hnew : ∀ p ∈ r.parts, p.sent = false ∧ p.status = none)
    (hlost : ∀ i, i < r.parts.length → tabFind r.answers i = some { status := .linkLost }) (k : Nat) (hk : k ≤ r.parts.length) :
    let t := (List.range k).foldl (searchTell rid b bufs) s
    Asked s t rid ∧ t.fry = s.fry ∧ getReq t rid = some { r with parts := upTo lostPart r.parts k } := by
  induction k with
  | zero => exact ⟨.refl s rid, rfl, by rw [upTo_zero]; exact hr⟩
  | succ k ih =>
    obtain ⟨hasked, hfry, hget⟩ := ih (by omega)
    dsimp only
    rw [List.range_succ, List.foldl_append, List.foldl_cons, List.foldl_nil]
    obtain ⟨t, ht⟩ : ∃ t, t = (List.range k).foldl (searchTell rid b bufs) s := ⟨_, rfl⟩
    rw [← ht] at hasked hfry hget ⊢
    obtain ⟨hsent, hstatus⟩ := hnew _ (List.getElem_mem (show k < r.parts.length by omega))
    have hx : (upTo lostPart r.parts k).getD k {} = r.parts[k] := by
      rw [getD_upTo_self, List.getD_eq_getElem?_getD, List.getElem?_eq_getElem (by omega)]
      rfl
    have hstep := searchTell_fails hget b bufs (hlost k (by omega)) (by rw [hx]; exact hsent) (by rw [hx]; exact hstatus) rfl
    rw [hstep]
    refine ⟨hasked.trans (.putReq t rid _), hfry, (getReq_putReq _ _ _).trans ?_⟩
    exact congrArg (fun l => some { r with parts := l }) (upTo_succ (f := lostPart) _ fun _ _ => rfl)

/-- Parts of which one at least fails with LINK_LOST, and all do, fail with it. -/
theorem partsFail_lost {l : List (SearchPart × Nat)} (h : l ≠ []) : partsFail (l.map lostPart) = some .linkLost := by
  cases l with
  | nil => exact absurd rfl h
  | cons x l => rfl

/-! ### SEARCH, settled -/

/-- A weaker statement of the state that a command answers. -/
theorem does_mono {i : Instr} {s : State} {P Q : State → Prop} (h : Does i s P) (hpq : ∀ t, P t → Q t) : Does i s Q := by
  obtain ⟨t, ht, hp⟩ := h
  exact ⟨t, ht, hpq t hp⟩

theorem shardsRead_length {s : State} {b : Bytes} {l : List (Nat × Nat)} (h : Claim.shardsRead s b l) : l.length = fld b 2 2 := by
  obtain ⟨-, -, hl⟩ := h
  rw [hl]
  simp

/-- A request under way after some of its questions is the one before with what the questions changed. -/
theorem Asked.noteStep {s t : State} {rid : Nat} (h : Asked s t rid) (id : Nat) :
    Claim.otherReqs s (noteStep t id) rid ∧ (noteStep t id).mem = s.mem :=
  ⟨fun i hi => (getReq_of_reqs (noteStep_reqs t id) i).trans (h.others i hi), (noteStep_mem t id).trans h.mem⟩

theorem noteStep_fry (t : State) (id : Nat) : (noteStep t id).fry = t.fry := by rw [noteStep_eq]

theorem noteStep_tells {t : State} {m : Nat} {x : PurserMsg} (h : Claim.purserTells t m x) (id : Nat) :
    Claim.purserTells (noteStep t id) m x := by
  obtain ⟨p, hp⟩ := h
  refine ⟨p, ?_⟩
  rw [getPath, noteStep_fry]
  exact hp

theorem noteStep_getReq (t : State) (id rid : Nat) : getReq (noteStep t id) rid = getReq t rid :=
  getReq_of_reqs (noteStep_reqs t id) rid

section
variable {rid u : Nat} {bufs : List Nat} {r : Request} {s : State} {b : Bytes} (hon : Claim.stageOn s rid 0x11 r)
  (hs : Claim.clean s) (ho : Claim.openTo s (whoPurser (some r.ctx))) (hin : (tabGet {} r.stages 0x11).param + 64 ≤ wheelBase)
  (hb : b = memRead s.mem.bytes (tabGet {} r.stages 0x11).param 64)
include hon hs ho hin hb

section
variable (hstep : (tabGet {} r.stages 0x11).step ≠ 0)
include hstep

theorem search_tells_all (hopen : ∃ p ∈ r.parts, p.status = none)
    (hfar : ∀ p ∈ r.parts, p.module ≠ ownModule s ∧ (choosePort s p.module).isSome = true)
    (hgood : ∀ i a, tabFind r.answers i = some a → a.status.good = true ∧
      fld r.record 56 8 + 4 * leNat (a.data.headD []) ≤ wheelBase)
    (hf : fld b 16 8 + 192 ≤ wheelBase) (ht : fld r.record 40 8 + 4 * r.qcount ≤ wheelBase) :
    Does (.search rid bufs u) s fun t =>
      (∀ i p a, r.parts[i]? = some p → tabFind r.answers i = some a → p.sent = false → p.status = none →
        Claim.purserTells t p.module (.search rid i r.ctx p.desc (fld b 4 2) (fld b 6 2) (fld b 46 2)
          (memRead s.mem.bytes (fld r.record 56 8) (4 * leNat (a.data.headD [])))
          (if fld b 16 8 = 0 then [] else memRead s.mem.bytes (fld b 16 8) 192)
          (if bit (recFlags r.record) 1 = true then some (memRead s.mem.bytes (fld r.record 40 8) (4 * r.qcount)) else none))) ∧
      Claim.otherReqs s t rid ∧ t.mem = s.mem ∧ getReq t rid = some { r with parts := r.parts.zipIdx.map (told r) } := by
  obtain ⟨v, hv, hrow⟩ := searchStage_goes_on (u := u) (bufs := bufs) hon hs ho hin hstep
  rw [← hb] at hrow
  have hrv := (hv.getReq rid).trans hon.1
  have hbegin := hv.asked rid
  obtain ⟨hasked, hget, htold⟩ := search_tells hrv (hbegin.clean hs) (hbegin.openTo ho) b bufs
    (fun p hp => ⟨by rw [hbegin.calm.ownModule]; exact (hfar p hp).1, by rw [hbegin.calm.choosePort_isSome]; exact (hfar p hp).2⟩)
    hgood hf ht r.parts.length le_rfl
  obtain ⟨t, htv⟩ : ∃ t, t = (List.range r.parts.length).foldl (searchTell rid b bufs) v := ⟨_, rfl⟩
  rw [← htv] at hasked hget htold
  rw [upTo_all] at hget
  have hstill : ∃ p ∈ r.parts.zipIdx.map (told r), p.status = none := by
    obtain ⟨p, hp, hnone⟩ := hopen
    obtain ⟨i, hi, rfl⟩ := List.getElem_of_mem hp
    exact ⟨told r (r.parts[i], i), List.mem_map_of_mem (List.mem_zipIdx_iff_getElem?.2 (List.getElem?_eq_getElem hi)), hnone⟩
  rw [searchGoOn_waits hrv b bufs _ htv hget hstill] at hrow
  have hall := (hbegin.trans hasked).noteStep (tabGet {} r.stages 0x11).cmd
  refine does_of (congrArg Host.Outcome.next hrow) ⟨fun i p a hp ha hsent hstatus => noteStep_tells ?_ _, hall.1, hall.2,
    (noteStep_getReq _ _ _).trans hget⟩
  have hmsg := htold i (List.getElem?_eq_some_iff.1 hp).1 p a hp ha hsent hstatus
  dsimp only [carried] at hmsg
  rwa [hv.mem] at hmsg

theorem search_over (hover : ∀ p ∈ r.parts, p.status ≠ none) :
    (∀ st, partsFail r.parts = some st → Does (.search rid bufs u) s fun t => Claim.stageDone s t rid 0x11 st ∧ t.mem = s.mem) ∧
    (partsFail r.parts = none → bit (recFlags r.record) 1 = true → Does (.search rid bufs u) s fun t =>
      Claim.stageDone s t rid 0x11 .ok ∧ t.mem = s.mem) ∧
    (partsFail r.parts = none → bit (recFlags r.record) 1 = false →
      Claim.mergesLists (.search rid bufs u) rid 0x11 u bufs r (metricKey ((r.parts.head?.map (·.metric)).getD 0)).1
        (metricKey ((r.parts.head?.map (·.metric)).getD 0)).2 s) := by
  obtain ⟨v, hv, hrow⟩ := searchStage_goes_on (u := u) (bufs := bufs) hon hs ho hin hstep
  rw [← hb] at hrow
  have hrv := (hv.getReq rid).trans hon.1
  have hpass := search_passes hrv b bufs (List.range r.parts.length) fun i hi => .inr (.inr (hover _ (by
    rw [List.getD_eq_getElem?_getD, List.getElem?_eq_getElem (List.mem_range.1 hi)]
    exact List.getElem_mem _)))
  have hothers := (hv.asked rid).others
  refine ⟨fun st hfail => ?_, fun hgood hbit => ?_, fun hgood hbit => ?_⟩
  · rw [searchGoOn_fails hrv b bufs _ hpass.symm hrv hover hfail] at hrow
    exact does_worked (congrArg Host.Outcome.next hrow) hon.1 hrv hothers hv.mem
  · rw [searchGoOn_ends hrv b bufs _ hpass.symm hrv hover hgood, hbit, if_pos rfl] at hrow
    exact does_worked (congrArg Host.Outcome.next hrow) hon.1 hrv hothers hv.mem
  · rw [searchGoOn_ends hrv b bufs _ hpass.symm hrv hover hgood, hbit, if_neg Bool.false_ne_true, hb] at hrow
    exact mergesLists_of hon.1 hs ho hv (congrArg Host.Outcome.next hrow)

end

section
variable {l : List (Nat × Nat)} (hstep : (tabGet {} r.stages 0x11).step = 0) (hl : Claim.shardsRead s b l) (hcount : 1 ≤ fld b 2 2)
  (hasks : r.asks = []) (hfar : ∀ x ∈ l, x.1 ≠ ownModule s)
include hstep hl hcount hasks hfar

theorem search_asks (hpath : ∀ x ∈ l, (choosePort s x.1).isSome = true) : Does (.search rid bufs u) s fun t =>
    (∀ i x, l[i]? = some x → Claim.purserTells t x.1 (.ask rid i (.shardDim x.2))) ∧ Claim.otherReqs s t rid ∧ t.mem = s.mem ∧
    getReq t rid = some { searchStarted r l with asks := l.zipIdx.map fun x => (x.2, x.1.1) } := by
  obtain ⟨v, hv, hrow⟩ := searchStage_begins (u := u) (bufs := bufs) hon hs ho hin hstep (hb ▸ hl)
  rw [← hb, searchBegin_of ((hv.getReq rid).trans hon.1)] at hrow
  have hbegin := (hv.asked rid).trans (.putReq v rid (searchStarted r l))
  obtain ⟨hasked, htold, hget⟩ := asked_all (buf := 0) (key := fun x : (Nat × Nat) × Nat => x.2) (mod := fun x => x.1.1)
    (q := fun x => .shardDim x.1.2) l.zipIdx (getReq_putReq v rid (searchStarted r l))
    (fun x _ => ⟨by rw [show (searchStarted r l).asks = [] from hasks]; rfl, rfl⟩) (zipIdx_snd_nodup l)
    (fun x hx => by
      have hxl : x.1 ∈ l := List.mem_of_getElem? (List.mem_zipIdx_iff_getElem?.1 hx)
      exact ⟨by rw [hbegin.calm.ownModule]; exact hfar _ hxl, by rw [hbegin.calm.choosePort_isSome]; exact hpath _ hxl⟩)
  obtain ⟨t, ht⟩ : ∃ t, t = l.zipIdx.foldl (fun s x => ask s rid x.2 x.1.1 (.shardDim x.1.2) 0) (putReq v rid (searchStarted r l)) :=
    ⟨_, rfl⟩
  rw [← ht] at hasked htold hget hrow
  rw [show (searchStarted r l).asks = [] from hasks, foldl_tabPut_zipIdx (fun x : Nat × Nat => x.1)] at hget
  have hpass := search_passes hget b bufs (List.range (searchStarted r l).parts.length) fun i _ => .inl rfl
  have hopen : ∃ p ∈ (searchStarted r l).parts, p.status = none := by
    have hlen := shardsRead_length hl
    obtain ⟨x, hx⟩ := List.exists_mem_of_length_pos (by omega : 0 < l.length)
    exact ⟨{ module := x.1, desc := x.2 }, List.mem_map_of_mem hx, rfl⟩
  rw [searchGoOn_waits hget b bufs _ hpass.symm hget hopen] at hrow
  have hall := (hbegin.trans hasked).noteStep (tabGet {} r.stages 0x11).cmd
  refine does_of (congrArg Host.Outcome.next hrow) ⟨fun i x hx => noteStep_tells ?_ _, hall.1, hall.2, (noteStep_getReq _ _ _).trans hget⟩
  exact htold (x, i) (List.mem_zipIdx_iff_getElem?.2 hx)

theorem search_lost (hpath : ∀ x ∈ l, choosePort s x.1 = none) : Does (.search rid bufs u) s fun t =>
    Claim.stageDone s t rid 0x11 .linkLost ∧ t.mem = s.mem ∧ t.fry = s.fry := by
  obtain ⟨v, hv, hrow⟩ := searchStage_begins (u := u) (bufs := bufs) hon hs ho hin hstep (hb ▸ hl)
  rw [← hb, searchBegin_of ((hv.getReq rid).trans hon.1)] at hrow
  have hbegin := (hv.asked rid).trans (.putReq v rid (searchStarted r l))
  obtain ⟨hasked, hfry, hget⟩ := asked_lost (buf := 0) (key := fun x : (Nat × Nat) × Nat => x.2) (mod := fun x => x.1.1)
    (q := fun x => .shardDim x.1.2) l.zipIdx (getReq_putReq v rid (searchStarted r l)) hasks (fun x _ => rfl) (zipIdx_snd_nodup l)
    (fun x hx => by
      have hxl : x.1 ∈ l := List.mem_of_getElem? (List.mem_zipIdx_iff_getElem?.1 hx)
      exact ⟨by rw [hbegin.calm.ownModule]; exact hfar _ hxl, hbegin.calm.choosePort_none (hpath _ hxl)⟩)
  obtain ⟨t, ht⟩ : ∃ t, t = l.zipIdx.foldl (fun s x => ask s rid x.2 x.1.1 (.shardDim x.1.2) 0) (putReq v rid (searchStarted r l)) :=
    ⟨_, rfl⟩
  rw [← ht] at hasked hfry hget hrow
  rw [show (searchStarted r l).answers = [] from rfl, foldl_tabPut_zipIdx (fun _ : Nat × Nat => ({ status := .linkLost } : Answer))] at hget
  obtain ⟨q, hq⟩ : ∃ q : Request, q = { searchStarted r l with answers := l.zipIdx.map fun x => (x.2, { status := .linkLost }) } :=
    ⟨_, rfl⟩
  rw [← hq] at hget
  have hparts : q.parts = l.map fun x => { module := x.1, desc := x.2 } := by rw [hq]; rfl
  obtain ⟨hlosing, hsame, hend⟩ := search_loses hget b bufs
    (fun p hp => by
      rw [hparts] at hp
      obtain ⟨x, -, rfl⟩ := List.mem_map.1 hp
      exact ⟨rfl, rfl⟩)
    (fun i hi => by
      rw [hparts, List.length_map] at hi
      rw [hq]
      exact tabFind_zipIdx (fun _ => ({ status := .linkLost } : Answer)) (List.getElem?_eq_getElem hi)) q.parts.length le_rfl
  rw [upTo_all] at hend
  have hover : ∀ p ∈ q.parts.zipIdx.map lostPart, p.status ≠ none := fun p hp => by
    obtain ⟨x, -, rfl⟩ := List.mem_map.1 hp
    exact Option.some_ne_none _
  have hsome : q.parts.zipIdx ≠ [] := by
    have hlen := shardsRead_length hl
    have hne : l ≠ [] := List.ne_nil_of_length_pos (by omega)
    rw [hparts]
    simpa using hne
  obtain ⟨w, hw⟩ : ∃ w, w = (List.range q.parts.length).foldl (searchTell rid b bufs) t := ⟨_, rfl⟩
  rw [← hw] at hlosing hsame hend
  rw [searchGoOn_fails hget b bufs _ hw hend hover (partsFail_lost hsome)] at hrow
  have hall := (hbegin.trans hasked).trans hlosing
  have hstages (o : Nat) (ho : o ≠ 0x11) : tabFind q.stages o = tabFind r.stages o := by
    rw [hq]
    exact tabFind_modStage_ne r (fun g => { g with step := 1 }) ho
  refine does_of (congrArg Host.Outcome.next hrow) ⟨stageDone_noteStep ?_ _, ?_, ?_⟩
  · exact stageDone_stageWorked .linkLost hon.1 hend hall.others hstages
  · rw [noteStep_mem, stageWorked_mem, hall.mem]
  · rw [noteStep_fry, stageWorked_of hend]
    calc w.fry = t.fry := hsame
      _ = v.fry := hfry
      _ = s.fry := by rw [hv.eq]

end

end

theorem searchRuns : Claim.searchRuns := by
  unfold Claim.searchRuns
  dsimp only
  intro rid u bufs r s hon hs ho hin
  obtain ⟨b, hb⟩ : ∃ b, b = memRead s.mem.bytes (tabGet {} r.stages 0x11).param 64 := ⟨_, rfl⟩
  rw [← hb]
  refine ⟨fun l hstep hl hcount hasks hfar => ⟨fun hpath => ?_, search_lost hon hs ho hin hb hstep hl hcount hasks hfar⟩, ?_,
    fun hstep hover => search_over hon hs ho hin hb hstep hover⟩
  · refine does_mono (search_asks hon hs ho hin hb hstep hl hcount hasks hfar hpath) fun t ⟨htold, hother, hm, hget⟩ =>
      ⟨htold, hother, hm, _, hget, ?_, ?_, rfl, rfl⟩
    · exact congrArg Stage.step (tabGet_modStage r 0x11 fun g => { g with step := 1 })
    · exact (congrArg Stage.phase (tabGet_modStage r 0x11 fun g => { g with step := 1 })).trans hon.2.1
  · intro hstep hopen hfar hgood hf ht
    exact does_mono (search_tells_all hon hs ho hin hb hstep hopen hfar hgood hf ht) fun t ⟨htold, hother, hm, hget⟩ =>
      ⟨htold, hother, hm, _, hget, rfl, rfl⟩

/-! ### RERANK -/

/-- Messages to modules with a path are all put in line. -/
theorem purserSend_all {α : Type} {mod : α → Nat} {msg : α → PurserMsg} (rid : Nat) (l : List α) {s : State}
    (hpath : ∀ x ∈ l, (choosePort s (mod x)).isSome = true) :
    let t := l.foldl (fun s x => purserSend s (mod x) (msg x)) s
    Asked s t rid ∧ getReq t rid = getReq s rid ∧ ∀ x ∈ l, Claim.purserTells t (mod x) (msg x) := by
  induction l generalizing s with
  | nil => exact ⟨.refl s rid, rfl, fun _ h => absurd h List.not_mem_nil⟩
  | cons x l ih =>
    have hone := Asked.purserSend s rid (mod x) (msg x)
    obtain ⟨hasked, hget, htold⟩ := ih (s := purserSend s (mod x) (msg x)) fun y hy => by
      rw [hone.calm.choosePort_isSome]
      exact hpath y (List.mem_cons_of_mem _ hy)
    refine ⟨hone.trans hasked, hget.trans (purserSend_getReq _ _ _ _), fun y hy => ?_⟩
    obtain rfl | hy := List.mem_cons.1 hy
    · exact hasked.calm.tells (purserSend_tells (hpath y List.mem_cons_self) _)
    · exact htold y hy

/-- The cascade of parts on other modules with a path is a message to each. -/
theorem rerankBegin_far {s : State} {rid : Nat} {r : Request} {b c : Bytes}
    (hfar : ∀ p ∈ r.parts, p.module ≠ ownModule s ∧ (choosePort s p.module).isSome = true) : rerankBegin s rid r b c =
      r.parts.zipIdx.foldl (fun s p => purserSend s p.1.module (.rerank rid p.2 r.ctx c (fld b 32 8) (dirSlots b)))
        (modReq s rid fun r => { r with parts := r.parts.map fun p => { p with data := [], status := none } }) := by
  suffices h : ∀ (l : List (SearchPart × Nat)) (u : State), Asked s u rid → (∀ x ∈ l, x.1 ∈ r.parts) →
      l.foldl (fun s p => if p.1.module = ownModule s then serveRerank s p.1.module rid p.2 r.ctx c (fld b 32 8) (dirSlots b)
        else if (choosePort s p.1.module).isNone then partAnswer s rid p.2 fun x => { x with status := some .linkLost }
        else purserSend s p.1.module (.rerank rid p.2 r.ctx c (fld b 32 8) (dirSlots b))) u =
      l.foldl (fun s p => purserSend s p.1.module (.rerank rid p.2 r.ctx c (fld b 32 8) (dirSlots b))) u from
    h _ _ (.modReq s rid _) fun x hx => List.mem_of_getElem? (List.mem_zipIdx_iff_getElem?.1 hx)
  intro l
  induction l with
  | nil => exact fun u _ _ => rfl
  | cons x l ih =>
    intro u hu hl
    obtain ⟨hm, hp⟩ := hfar _ (hl x List.mem_cons_self)
    have hnone : (choosePort u x.1.module).isNone = false := by
      rw [Option.isNone_eq_false_iff, hu.calm.choosePort_isSome]
      exact hp
    rw [List.foldl_cons, List.foldl_cons, if_neg (by rw [hu.calm.ownModule]; exact hm), hnone, if_neg Bool.false_ne_true]
    exact ih _ (hu.trans (.purserSend u rid _ _)) fun y hy => hl y (List.mem_cons_of_mem _ hy)

/-- The request once RERANK has started. -/
def reranked (r : Request) : Request :=
  { (r.modStage 0x12 fun g => { g with step := 1 }) with parts := r.parts.map fun p => { p with data := [], status := none } }

theorem rerank_starts {s : State} {rid : Nat} {r : Request} (h : getReq s rid = some r) :
    modReq (modReq s rid fun r => r.modStage 0x12 fun g => { g with step := 1 }) rid
      (fun r => { r with parts := r.parts.map fun p => { p with data := [], status := none } }) = putReq s rid (reranked r) := by
  rw [modReq_of h, modReq_of (getReq_putReq _ _ _), putReq_putReq]
  rfl

section
variable {rid u : Nat} {bufs : List Nat} {r : Request} {s : State} {b : Bytes} (hon : Claim.stageOn s rid 0x12 r)
  (hs : Claim.clean s) (ho : Claim.openTo s (whoPurser (some r.ctx))) (hin : (tabGet {} r.stages 0x12).param + 64 ≤ wheelBase)
  (hb : b = memRead s.mem.bytes (tabGet {} r.stages 0x12).param 64)
include hon hs ho hin hb

theorem rerank_tells (hstep : (tabGet {} r.stages 0x12).step = 0) (hc : fld b 24 8 + 144 ≤ wheelBase)
    (hfar : ∀ p ∈ r.parts, p.module ≠ ownModule s ∧ (choosePort s p.module).isSome = true) : Does (.rerank rid bufs u) s fun t =>
    (∀ i p, r.parts[i]? = some p → Claim.purserTells t p.module
      (.rerank rid i r.ctx (memRead s.mem.bytes (fld b 24 8) 144) (fld b 32 8) (dirSlots b))) ∧
    Claim.otherReqs s t rid ∧ t.mem = s.mem ∧
    getReq t rid = some (reranked r) := by
  obtain ⟨v, hv, hch⟩ := rd_of_clean hs (ho _ _ false hin)
  rw [← hb] at hv
  obtain ⟨w, hw, hcw⟩ := rd_of_clean (clean_of_mem hs hch.mem) (openTo_of_samePrt hch.prt ho _ _ false hc)
  rw [hch.mem] at hw
  have hrw : getReq w rid = some r := (hcw.getReq rid).trans ((hch.getReq rid).trans hon.1)
  obtain ⟨c, hcdef⟩ : ∃ c, c = memRead s.mem.bytes (fld b 24 8) 144 := ⟨_, rfl⟩
  rw [← hcdef] at hw ⊢
  have hrow : rerankStage s rid bufs u = noteStep (rerankBegin (modReq w rid fun r => r.modStage 0x12 fun g => { g with step := 1 })
      rid r b c) (tabGet {} r.stages 0x12).cmd := by
    rw [rerankStage, stageRow_on hon]
    simp only [hv, hstep, if_true, hw]
  have hasked := ((hch.asked rid).trans (hcw.asked rid)).trans (.modReq w rid fun r => r.modStage 0x12 fun g => { g with step := 1 })
  rw [rerankBegin_far fun p hp => ⟨by rw [hasked.calm.ownModule]; exact (hfar p hp).1,
    by rw [hasked.calm.choosePort_isSome]; exact (hfar p hp).2⟩, rerank_starts hrw] at hrow
  obtain ⟨q, hq⟩ : ∃ q, q = reranked r := ⟨_, rfl⟩
  have hasked' := ((hch.asked rid).trans (hcw.asked rid)).trans (.putReq w rid q)
  obtain ⟨hsent, hget, htold⟩ := purserSend_all (mod := fun x : SearchPart × Nat => x.1.module)
    (msg := fun x => .rerank rid x.2 r.ctx c (fld b 32 8) (dirSlots b)) rid r.parts.zipIdx (s := putReq w rid q) fun x hx => by
      rw [hasked'.calm.choosePort_isSome]
      exact (hfar _ (List.mem_of_getElem? (List.mem_zipIdx_iff_getElem?.1 hx))).2
  have hall := (hasked'.trans hsent).noteStep (tabGet {} r.stages 0x12).cmd
  rw [← hq] at hrow ⊢
  exact does_of (congrArg Host.Outcome.next hrow) ⟨fun i p hp => noteStep_tells (htold (p, i) (List.mem_zipIdx_iff_getElem?.2 hp)) _,
    hall.1, hall.2, (noteStep_getReq _ _ _).trans (hget.trans (getReq_putReq _ _ _))⟩

omit hb in
theorem rerank_over (hstep : (tabGet {} r.stages 0x12).step ≠ 0) (hover : ∀ p ∈ r.parts, p.status ≠ none) :
    (∀ st, partsFail r.parts = some st → Does (.rerank rid bufs u) s fun t => Claim.stageDone s t rid 0x12 st ∧ t.mem = s.mem) ∧
    (partsFail r.parts = none → Claim.mergesLists (.rerank rid bufs u) rid 0x12 u bufs r 0 true s) := by
  obtain ⟨v, hv, hch⟩ := rd_of_clean hs (ho _ _ false hin)
  have hrv := (hch.getReq rid).trans hon.1
  have hany : r.parts.any (fun p => p.status.isNone) = false := List.any_eq_false.2 fun p hp => by
    rw [Option.isNone_iff_eq_none]; exact hover p hp
  refine ⟨fun st hfail => ?_, fun hgood => ?_⟩
  · have hrow : rerankStage s rid bufs u = noteStep (stageWorked v rid 0x12 st) (tabGet {} r.stages 0x12).cmd := by
      rw [rerankStage, stageRow_on hon]
      simp only [hv, hstep, if_false, hany, Bool.false_eq_true, hfail]
    exact does_worked (congrArg Host.Outcome.next hrow) hon.1 hrv (hch.asked rid).others hch.mem
  · have hrow : rerankStage s rid bufs u = noteStep (mergeStage v rid 0x12 u r (tabGet {} r.stages 0x12)
        (fld (memRead s.mem.bytes (tabGet {} r.stages 0x12).param 64) 44 2) 0 true bufs) (tabGet {} r.stages 0x12).cmd := by
      rw [rerankStage, stageRow_on hon]
      simp only [hv, hstep, if_false, hany, Bool.false_eq_true, hgood]
    exact mergesLists_of hon.1 hs ho hch (congrArg Host.Outcome.next hrow)

end

theorem rerankRuns : Claim.rerankRuns := by
  unfold Claim.rerankRuns
  dsimp only
  intro rid u bufs r s hon hs ho hin
  obtain ⟨b, hb⟩ : ∃ b, b = memRead s.mem.bytes (tabGet {} r.stages 0x12).param 64 := ⟨_, rfl⟩
  rw [← hb]
  refine ⟨fun hstep hc hfar => ?_, fun hstep hover => rerank_over hon hs ho hin hstep hover⟩
  exact does_mono (rerank_tells hon hs ho hin hb hstep hc hfar) fun t ⟨htold, hother, hm, hget⟩ =>
    ⟨htold, hother, hm, _, hget, congrArg Stage.step (tabGet_modStage r 0x12 fun g => { g with step := 1 }), rfl⟩

/-- Settles O50: EMBED is one TOKENIZE and what its summary counts; SEARCH and RERANK ask and tell the modules of their parts in
order, and end once every part is over. -/
theorem searchStagesRun : Obligations.SearchStagesRun := ⟨embedRuns, searchRuns, rerankRuns⟩

end Sys2Proof.Proofs
end

