-- ==== Sys2Proof/Proofs/Packs.lean ====
section
/-! PROOFS. PACK, and the end of a PREFIX: the question's TOKENIZE, the passages of the merge, and the last steps (spec/13 R320, R321, R329). -/

namespace Sys2Proof.Proofs

open Sys2Proof Sys2Proof.Machine Sys2Proof.Laws

/-! ### The last steps of PACK -/

/-- Work done for every number below `n` in turn, each going one on. -/
theorem Yields.forM_range {R : Nat → Prop} {P : Nat → State → Prop} {f : Nat → Act PUnit} {n : Nat} {s : State} (h : P 0 s)
    (hf : ∀ k t, k < n → Stored R s t → P k t → Yields R (f k) t fun _ u => P (k + 1) u) :
    Yields R ((List.range n).forM f) s fun _ t => P n t := by
  obtain ⟨t, ht, hst, hp⟩ := runActVal_forM_range (P := fun k t => Stored R s t ∧ P k t) (f := f) (n := n) ⟨.refl R s, h⟩
    fun i hi u ⟨hst, hp⟩ => by
      obtain ⟨x, v, hv, hst', hp'⟩ := hf i u hi hst hp
      exact ⟨v, hv, hst.trans hst', hp'⟩
  exact ⟨(), t, ht, hst, hp⟩

/-- Entry `p` of a page table at `a` is what the chain gives, or its VALID bit is clear. -/
def packedEntry (e : Tab Bytes) (a p : Nat) (t : State) : Prop :=
  (∀ b, tabFind e p = some b → memRead t.mem.bytes (a + 16 * p) 16 = b) ∧
  (tabFind e p = none → leNat (memRead t.mem.bytes (a + 16 * p + 10) 2) = 0)

/-- An entry out of the way of a write is as before. -/
theorem packedEntry_apart {e : Tab Bytes} {a p : Nat} {s t : State} (h : packedEntry e a p s)
    (hsame : ∀ j, a + 16 * p ≤ j → j < a + 16 * p + 16 → memGet t.mem.bytes j = memGet s.mem.bytes j) : packedEntry e a p t := by
  obtain ⟨hsome, hnone⟩ := h
  refine ⟨fun b hb => ?_, fun hb => ?_⟩
  · rw [memRead_congr hsame]
    exact hsome b hb
  · rw [memRead_congr fun j h1 h2 => hsame j (by omega) (by omega)]
    exact hnone hb

section
variable {s : State} {w : Who} {e : Tab Bytes} {a : Nat} (hs : Claim.clean s) (ho : Claim.openTo s w)
  (hin : a + 65536 ≤ wheelBase) (hlen : ∀ p b, tabFind e p = some b → b.length = 16)
include hs ho hin hlen

/-- The entry of one page is written. -/
theorem packEntry_yields (p : Nat) (hp : p < 4096) : Yields (span (a + 16 * p) 16) (match tabFind e p with
    | some b => wr w (a + 16 * p) b
    | none => wr w (a + 16 * p + 10) (toLe 2 0)) s fun _ t => packedEntry e a p t := by
  cases h : tabFind e p with
  | some b =>
    have hb := hlen p b h
    refine (Yields.wr hs (ho _ _ true (by omega)) fun j h1 h2 => ⟨h1, by omega⟩).mono fun _ t _ ht => ⟨fun b' hb' => ?_, fun hn => ?_⟩
    · rw [h] at hb'
      cases hb'
      have hread := memRead_memWrite s.mem.bytes (a + 16 * p) b
      rw [hb] at hread
      rw [ht, hread]
    · exact absurd (h.symm.trans hn) (by simp)
  | none =>
    have hb : (toLe 2 0).length = 2 := toLe_length 2 0
    refine (Yields.wr hs (ho _ _ true (by omega)) fun j h1 h2 => ⟨by omega, by omega⟩).mono fun _ t _ ht => ⟨fun b' hb' => ?_, fun _ => ?_⟩
    · exact absurd (h.symm.trans hb') (by simp)
    · have hread := memRead_memWrite s.mem.bytes (a + 16 * p + 10) (toLe 2 0)
      rw [hb] at hread
      rw [ht, hread, leNat_toLe, Nat.zero_mod]

/-- The page table is written entry by entry. -/
theorem packTable_yields : Yields (span a 65536) ((List.range 4096).forM fun p => match tabFind e p with
    | some b => wr w (a + 16 * p) b
    | none => wr w (a + 16 * p + 10) (toLe 2 0)) s fun _ t => ∀ p, p < 4096 → packedEntry e a p t := by
  refine Yields.forM_range (P := fun k t => ∀ p, p < k → packedEntry e a p t) (fun p hp => absurd hp (Nat.not_lt_zero p))
    fun k t hk ht hall => ?_
  obtain ⟨x, u, hu, hst, hk'⟩ := packEntry_yields (ht.clean hs) (ht.openTo ho) hin hlen k hk
  refine ⟨x, u, hu, hst.mono fun j hj => ?_, fun p hp => ?_⟩
  · obtain ⟨h1, h2⟩ := hj
    exact ⟨by omega, by omega⟩
  · by_cases hpk : p = k
    · rw [hpk]
      exact hk'
    · refine packedEntry_apart (hall p (by omega)) fun j h1 h2 => hst.kept j fun hj => ?_
      obtain ⟨h3, h4⟩ := hj
      omega

end

/-- What PACK writes but for the record: the question's tokens behind the passages, and the page table. -/
def packRegion (r : Request) (n j : Nat) : Prop :=
  span (fld r.record 80 8 + 4 * r.pack.out) (4 * n) j ∨ span (fld r.record 72 8) 65536 j

/-- PACK's last writes end with the request and its record. -/
def packEnded (rid : Nat) (r : Request) (s : State) : State :=
  let r' := { r with context := r.cached + r.pack.out + r.qcount, state := 2 }
  recPut (recPut (putReq s rid r') r' 88 4 (r.cached + r.pack.out + r.qcount)) r' 184 2 2

theorem packEnd_runs {s : State} {rid : Nat} {r : Request} (hs : Claim.clean s) (ho : Claim.openTo s (whoPurser (some r.ctx)))
    (hfits : Claim.packFits r r.qcount) : Runs (packEnd rid r) s fun _ t => ∃ v, Stored (packRegion r r.qcount) s v ∧
      memRead v.mem.bytes (fld r.record 80 8 + 4 * r.pack.out) (4 * r.qcount) = memRead s.mem.bytes (fld r.record 40 8) (4 * r.qcount) ∧
      (∀ p, p < 4096 → packedEntry (chainEntries r.pack.segs) (fld r.record 72 8) p v) ∧ t = packEnded rid r v := by
  obtain ⟨-, -, hq, hprompt, htable, -, -, hapart, -, -, hlen⟩ := hfits
  unfold packEnd
  dsimp only
  refine (Yields.rdMem (R := packRegion r r.qcount) hs (ho _ _ false hq)).runs_bind fun q t ht ⟨hqv, htm⟩ => ?_
  have hqlen : q.length = 4 * r.qcount := by rw [hqv, memRead_length]
  refine (Yields.wr (R := packRegion r r.qcount) (ht.clean hs) (ht.openTo ho _ _ true (by rw [hqlen]; exact hprompt)) fun j h1 h2 =>
    .inl ⟨h1, by rw [hqlen] at h2; exact h2⟩).runs_bind fun _ u hu hum => ?_
  have hsu := ht.trans hu
  have htab := (packTable_yields (hsu.clean hs) (hsu.openTo ho) htable hlen).mono (Q' := fun _ v =>
    (∀ p, p < 4096 → packedEntry (chainEntries r.pack.segs) (fld r.record 72 8) p v) ∧
    ∀ j, ¬ span (fld r.record 72 8) 65536 j → memGet v.mem.bytes j = memGet u.mem.bytes j) fun _ v hv hent => ⟨hent, hv.kept⟩
  refine (htab.widen (R' := packRegion r r.qcount) fun j hj => .inr hj).runs_bind fun _ v hv ⟨hentries, hkept⟩ => Runs.actMod ?_
  refine ⟨v, hsu.trans hv, ?_, hentries, rfl⟩
  have hread := memRead_memWrite t.mem.bytes (fld r.record 80 8 + 4 * r.pack.out) q
  rw [hqlen] at hread
  rw [memRead_congr fun j h1 h2 => hkept j fun ⟨h3, h4⟩ => by obtain h | h := hapart <;> omega, hum, hread, hqv]

section
variable {s v : State} {rid : Nat} {r : Request} {n : Nat}

/-- What PACK ends with: the request counts on, and its record says so. -/
theorem packEnded_of (hs : Claim.clean s) (ho : Claim.openTo s (whoPurser (some r.ctx))) (hin : r.addr + 256 ≤ wheelBase)
    (hsmall : r.cached + r.pack.out + r.qcount < 2 ^ 32) :
    let t := packEnded rid r s
    getReq t rid = some { r with context := r.cached + r.pack.out + r.qcount, state := 2 } ∧ Claim.otherReqs s t rid ∧
    (∀ a, a < r.addr ∨ r.addr + 256 ≤ a → memGet t.mem.bytes a = memGet s.mem.bytes a) ∧
    fld (memRead t.mem.bytes r.addr 256) 88 4 = r.cached + r.pack.out + r.qcount ∧
    fld (memRead t.mem.bytes r.addr 256) 184 2 = 2 := by
  obtain ⟨x, hx⟩ : ∃ x : Request, x = { r with context := r.cached + r.pack.out + r.qcount, state := 2 } := ⟨_, rfl⟩
  have haddr : x.addr = r.addr := by rw [hx]
  have hput := Asked.putReq s rid x
  have hox : Claim.openTo (putReq s rid x) (whoPurser (some x.ctx)) := by rw [hx]; exact ho
  have h1 := recPut_wrote (hput.clean hs) hox (off := 88) (n := 4) (by omega) (r.cached + r.pack.out + r.qcount)
  have h2 := recPut_wrote (h1.clean (hput.clean hs)) (openTo_of_samePrt h1.prt hox) (off := 184) (n := 2) (by omega) 2
  obtain ⟨u, hu⟩ : ∃ u, u = recPut (putReq s rid x) x 88 4 (r.cached + r.pack.out + r.qcount) := ⟨_, rfl⟩
  obtain ⟨t, ht⟩ : ∃ t, t = packEnded rid r s := ⟨_, rfl⟩
  have htu : recPut u x 184 2 2 = t := by rw [ht, hu, hx]; rfl
  rw [← hu] at h1 h2
  rw [htu] at h2
  rw [haddr] at h1 h2
  dsimp only
  rw [← ht, ← hx]
  have hpur : t.pur = (putReq s rid x).pur := h2.pur.trans h1.pur
  refine ⟨(getReq_of_reqs (by rw [hpur]) rid).trans (getReq_putReq s rid x),
    otherReqs_trans hput.others (otherReqs_of_reqs (by rw [hpur]) rid), fun a ha => ?_, ?_, ?_⟩
  · rw [h2.outside (by rw [toLe_length]; omega), h1.outside (by rw [toLe_length]; omega), hput.mem]
  · rw [fld_memRead _ _ _ _ _ (by omega), memRead_congr fun j hj1 hj2 => h2.outside (by rw [toLe_length]; omega), recPut_field h1]
    exact Nat.mod_eq_of_lt hsmall
  · rw [fld_memRead _ _ _ _ _ (by omega), recPut_field h2]
    rfl

/-- The last steps of PACK, from a state whose memory differs from the first in the record alone. -/
theorem packFinish_done {r : Request} (hr : getReq s rid = some r) (hget : getReq v rid = some { r with qcount := n })
    (hother : Claim.otherReqs s v rid) (hmem : ∀ a, a < r.addr ∨ r.addr + 256 ≤ a → memGet v.mem.bytes a = memGet s.mem.bytes a)
    (hv : Claim.clean v) (ho : Claim.openTo v (whoPurser (some r.ctx))) (hfits : Claim.packFits r n) :
    Claim.packDone s (packFinish v rid) rid r n := by
  obtain ⟨t, ht, u, hu, hquestion, hentries, rfl⟩ := (packEnd_runs (rid := rid) (r := { r with qcount := n }) hv ho hfits).act
  obtain ⟨-, hcontext, -, -, -, hrec, hq, -, hprompt, htable, -⟩ := hfits
  simp only [Claim.apart] at hq hprompt htable
  have hrow : packFinish v rid = stageWorked (packEnded rid { r with qcount := n } u) rid 0x13 .ok := by
    rw [packFinish, hget]
    dsimp only
    rw [ht]
  obtain ⟨hend, hend', hkept, hc, hstate⟩ := packEnded_of (rid := rid) (r := { r with qcount := n }) (hu.clean hv) (hu.openTo ho) hrec
    hcontext
  obtain ⟨t, htdef⟩ : ∃ t, t = packEnded rid { r with qcount := n } u := ⟨_, rfl⟩
  rw [← htdef] at hrow hend hend' hkept hc hstate
  dsimp only at hend hend' hkept hc hstate hquestion hentries
  have hreqs : Claim.otherReqs v u rid := otherReqs_of_reqs (by rw [hu.eq]) rid
  have hall := otherReqs_trans (otherReqs_trans hother hreqs) hend'
  rw [hrow]
  refine ⟨stageDone_stageWorked .ok hr hend hall fun _ _ => rfl, fun r' hr' => ?_, ?_, fun p hp => ?_, ?_, ?_, fun a h1 h2 h3 => ?_⟩
  · rw [stageWorked, getReq_modReq hend] at hr'
    rw [← Option.some.inj hr']
    exact ⟨rfl, rfl, rfl⟩
  · rw [stageWorked_mem, memRead_congr fun j h1 h2 => hkept j (by omega), hquestion]
    exact memRead_congr fun j h1 h2 => hmem j (by omega)
  · exact packedEntry_apart (hentries p hp) fun j h1 h2 => by rw [stageWorked_mem]; exact hkept j (by omega)
  · rw [stageWorked_mem]
    exact hc
  · rw [stageWorked_mem]
    exact hstate
  · rw [stageWorked_mem, hkept a h3, hu.kept a, hmem a h3]
    rintro (⟨h4, h5⟩ | ⟨h4, h5⟩) <;> dsimp only at h4 h5 <;> omega

end

/-! ### The question's tokens -/

theorem packDone_noteStep {s t : State} {rid n : Nat} {r : Request} (h : Claim.packDone s t rid r n) (id : Nat) :
    Claim.packDone s (noteStep t id) rid r n := by
  obtain ⟨hdone, hreq, hquestion, hentries, hc, hstate, hkept⟩ := h
  refine ⟨stageDone_noteStep hdone id, fun r' hr' => hreq r' ((noteStep_getReq t id rid).symm.trans hr'), ?_⟩
  rw [noteStep_mem]
  exact ⟨hquestion, hentries, hc, hstate, hkept⟩

/-- Once its chain is known PACK goes on with the question or the passages. -/
theorem packStage_goes_on {s : State} {rid buf : Nat} {r : Request} (hon : Claim.stageOn s rid 0x13 r)
    (hsub : 2 ≤ (tabGet {} r.stages 0x13).sub) : packStage s rid buf = noteStep (if bit (recFlags r.record) 0 = true
      then packTokens s rid buf (tabGet {} r.stages 0x13)
      else tokenizeStage s rid 0x13 buf r (tabGet {} r.stages 0x13) fun s _ => packTokens s rid buf (tabGet {} r.stages 0x13))
      (tabGet {} r.stages 0x13).cmd := by
  have hruns : (tabGet {} r.stages 0x13).runs = true := by rw [Stage.runs, hon.2.1]
  rw [packStage, stageRow_on hon]
  dsimp only
  rw [if_pos (by omega : (tabGet {} r.stages 0x13).sub ≠ 0), if_pos hsub, hon.1]
  dsimp only
  rw [hruns, decide_eq_false (Nat.not_lt.2 hsub)]
  rfl

/-- The request of a PACK that starts without a PREFIX. -/
def packBegun (r : Request) : Request :=
  { ((r.modStage 0x13 fun g => { g with sub := 1 }).modStage 0x13 fun g => { g with sub := 2 }) with
    answers := [], pack := {}, chain := [], cached := 0 }

theorem packBegun_stage (r : Request) : tabGet {} (packBegun r).stages 0x13 = { tabGet {} r.stages 0x13 with sub := 2 } := by
  unfold packBegun
  dsimp only
  rw [tabGet_modStage, tabGet_modStage]

theorem chainTaken_empty {s : State} {rid : Nat} {q : Request} (hq : getReq s rid = some q) (hsegs : q.pack.segs = []) :
    chainTaken s rid = recPut (putReq s rid ({ q with chain := [], cached := 0, pack := { q.pack with segs := [] } }.modStage 0x13 fun g =>
      { g with sub := 2 })) q 92 4 0 := by
  rw [chainTaken, hq]
  dsimp only
  rw [hsegs]
  rfl

/-- Without a PREFIX the chain is empty. -/
theorem takeChain_none {s : State} {rid : Nat} {r : Request} (hr : getReq s rid = some r) (hprefix : fld r.record 64 8 = 0) :
    takeChain chainFuel (modReq s rid fun r => { (r.modStage 0x13 fun g => { g with sub := 1 }) with
      answers := [], pack := { next := fld r.record 64 8 } }) rid = recPut (putReq s rid (packBegun r)) r 92 4 0 := by
  rw [modReq_of hr, hprefix, show chainFuel = 1048575 + 1 from rfl, takeChain, getReq_putReq]
  dsimp only
  rw [if_pos rfl, chainTaken_empty (getReq_putReq _ _ _) rfl, putReq_putReq]
  rfl

section
variable {s : State} {rid buf b n : Nat} {r : Request} {c : PCmd} (hon : Claim.stageOn s rid 0x13 r)
  (hflag : bit (recFlags r.record) 0 = false) (hs : Claim.clean s) (ho : Claim.openTo s (whoPurser (some r.ctx)))
  (hin : r.addr + 256 ≤ wheelBase) (hc : getCmd s (tabGet {} r.stages 0x13).cmd = some c)
include hon hflag hs ho hin hc

section
variable (hsub : (tabGet {} r.stages 0x13).sub = 2) (hstep : (tabGet {} r.stages 0x13).step = b + 2) (hb : b + 8 ≤ wheelBase)
  (hdone : tabFind c.done 0 = some .ok) (hn : n = leNat (memRead s.mem.bytes (b + 4) 4))
include hsub hstep hb hdone hn

/-- With the question tokenized PACK goes on, QCOUNT counted. -/
theorem pack_counts : ∃ v, Claim.clean v ∧ Claim.openTo v (whoPurser (some r.ctx)) ∧ getReq v rid = some { r with qcount := n } ∧
    Claim.otherReqs s v rid ∧ (∀ a, a < r.addr ∨ r.addr + 256 ≤ a → memGet v.mem.bytes a = memGet s.mem.bytes a) ∧
    packStage s rid buf = noteStep (packTokens v rid buf (tabGet {} r.stages 0x13)) (tabGet {} r.stages 0x13).cmd := by
  have hrow := packStage_goes_on (buf := buf) hon (Nat.le_of_eq hsub.symm)
  rw [hflag, if_neg Bool.false_ne_true] at hrow
  obtain ⟨t, hch, ht⟩ := tokenizeStage_counts (buf := buf) (op := 0x13) (rid := rid) (r := r)
    (fun s _ => packTokens s rid buf (tabGet {} r.stages 0x13)) hc hdone hstep hs hb
  rw [← hn] at ht
  rw [ht] at hrow
  have hasked := (hch.asked rid).trans (.putReq t rid { r with qcount := n })
  have hw := recPut_wrote (hasked.clean hs) (r := { r with qcount := n }) (hasked.openTo ho) (off := 52) (n := 4)
    (by dsimp only; omega) n
  refine ⟨_, hw.clean (hasked.clean hs), openTo_of_samePrt hw.prt (hasked.openTo ho),
    (getReq_of_reqs (by rw [hw.pur]) rid).trans (getReq_putReq _ _ _), otherReqs_trans hasked.others (otherReqs_of_reqs (by rw [hw.pur]) rid),
    fun a ha => ?_, hrow⟩
  rw [hw.outside (by rw [toLe_length]; dsimp only; omega), hasked.mem]

theorem pack_tooLong (hlong : fld r.record 36 4 < r.cached + n) :
    Does (.pack rid buf) s fun t => Claim.stageDone s t rid 0x13 .lengthExceeded := by
  obtain ⟨v, -, -, hget, hother, -, hrow⟩ := pack_counts (buf := buf) hon hflag hs ho hin hc hsub hstep hb hdone hn
  have htokens : packTokens v rid buf (tabGet {} r.stages 0x13) = stageWorked v rid 0x13 .lengthExceeded := by
    rw [packTokens, hget]
    exact if_pos hlong
  rw [htokens] at hrow
  exact does_of (congrArg Host.Outcome.next hrow) (stageDone_noteStep (stageDone_stageWorked _ hon.1 hget hother fun _ _ => rfl) _)

theorem pack_fits (hfits : Claim.packFits r n) : Does (.pack rid buf) s fun t => Claim.packDone s t rid r n := by
  obtain ⟨v, hv, hov, hget, hother, hmem, hrow⟩ := pack_counts (buf := buf) hon hflag hs ho hin hc hsub hstep hb hdone hn
  have htokens : packTokens v rid buf (tabGet {} r.stages 0x13) = packFinish v rid := by
    rw [packTokens, hget]
    dsimp only
    rw [if_neg (Nat.not_lt.2 hfits.1), hflag]
    rfl
  rw [htokens] at hrow
  exact does_of (congrArg Host.Outcome.next hrow) (packDone_noteStep (packFinish_done hon.1 hget hother hmem hv hov hfits) _)

end

/-- PACK without a PREFIX writes CACHED as 0 and tokenizes the question. -/
theorem pack_starts (hsub : (tabGet {} r.stages 0x13).sub = 0) (hprefix : fld r.record 64 8 = 0) (hdone : tabFind c.done 0 = none)
    (hjobs : c.jobs.contains 0 = false) (hoff : Claim.offerable s ⟨.grinder, 0⟩ r.ctx) : Does (.pack rid buf) s fun t =>
      Claim.stageOffers s t ⟨.grinder, 0⟩ r (tabGet {} r.stages 0x13).cmd 0 c (tokenizeBytes r buf) ∧ Claim.otherReqs s t rid ∧
      getReq t rid = some ((packBegun r).modStage 0x13 fun g => { g with step := buf + 2 }) ∧
      leNat (memRead t.mem.bytes (r.addr + 92) 4) = 0 ∧
      ∀ a, a < r.addr + 92 ∨ r.addr + 96 ≤ a → memGet t.mem.bytes a = memGet s.mem.bytes a := by
  obtain ⟨hctx, hen, hreach, hroom⟩ := hoff
  have hput := Asked.putReq s rid (packBegun r)
  have hw := recPut_wrote (hput.clean hs) (r := r) (hput.openTo ho) (off := 92) (n := 4) (by omega) 0
  obtain ⟨v, hv⟩ : ∃ v, v = recPut (putReq s rid (packBegun r)) r 92 4 0 := ⟨_, rfl⟩
  rw [← hv] at hw
  have hget : getReq v rid = some (packBegun r) := (getReq_of_reqs (by rw [hw.pur]) rid).trans (getReq_putReq _ _ _)
  have hcmds : v.pur.cmds = s.pur.cmds := by rw [hw.pur]; rfl
  have hengs : v.engs = s.engs := by rw [hw.eq]; rfl
  have hctxs (d : Nat) : getCtx v d = getCtx s d := by rw [getCtx, hw.prt.ctxs, getCtx]; rfl
  have hrow : packStage s rid buf = noteStep (tokenizeStage v rid 0x13 buf (packBegun r) { tabGet {} r.stages 0x13 with sub := 2 }
      fun s _ => packTokens s rid buf { tabGet {} r.stages 0x13 with sub := 2 }) (tabGet {} r.stages 0x13).cmd := by
    rw [packStage, stageRow_on hon]
    dsimp only
    rw [if_neg (by omega), if_neg (by omega), takeChain_none hon.1 hprefix, ← hv, hget]
    dsimp only
    rw [packBegun_stage, hflag]
    simp only [Stage.runs, hon.2.1]
    rfl
  have hb : cmdCtx (tokenizeBytes r buf) = r.ctx := cmdCtx_of hctx _ _
  have hcv : getCmd v (tabGet {} r.stages 0x13).cmd = some c := (getCmd_of_cmds hcmds _).trans hc
  rw [tokenizeStage_offers (r := packBegun r) (g := { tabGet {} r.stages 0x13 with sub := 2 }) _ hcv hdone hjobs
    (by rw [hctxs]; exact hen) hctx (by rw [getQ_of_engs hengs]; exact hroom)] at hrow
  obtain ⟨u, hu⟩ : ∃ u, u = stageIssue v (tabGet {} r.stages 0x13).cmd 0 ⟨.grinder, 0⟩ (tokenizeBytes r buf) := ⟨_, rfl⟩
  have hkeeps := stageIssue_keeps (s := v) (e := ⟨.grinder, 0⟩) (i := 0) (b := tokenizeBytes r buf) hcv hjobs (by rw [hb, hctxs]; exact hen)
    rfl (by rw [hb, getQ_of_engs hengs]; exact hroom) (by decide)
  rw [← hu] at hkeeps
  have hrow' : packStage s rid buf = noteStep (modReq u rid fun r => r.modStage 0x13 fun g => { g with step := buf + 2 })
      (tabGet {} r.stages 0x13).cmd := by rw [hu]; exact hrow
  have hgetu : getReq u rid = some (packBegun r) := (getReq_of_reqs hkeeps.2 rid).trans hget
  have hmem : (noteStep (modReq u rid fun r => r.modStage 0x13 fun g => { g with step := buf + 2 }) (tabGet {} r.stages 0x13).cmd).mem = v.mem := by
    rw [noteStep_mem, modReq_eq, hkeeps.1]
  refine does_of (congrArg Host.Outcome.next hrow') ⟨stageOffers_of (t := v) ⟨hctx, hen, hreach, hroom⟩ hb (by decide) hc hjobs hengs
    (by exact hw.prt) hcmds (by rw [modReq_eq, hu]) (by rw [modReq_eq, hu]), ?_, (noteStep_getReq _ _ _).trans (getReq_modReq hgetu _), ?_, fun a ha => ?_⟩
  · exact otherReqs_trans (otherReqs_trans (otherReqs_trans hput.others (otherReqs_of_reqs (hkeeps.2.trans (by rw [hw.pur])) rid))
      (otherReqs_modReq u rid _)) (otherReqs_of_reqs (noteStep_reqs _ _) rid)
  · rw [hmem, recPut_field hw]
    rfl
  · rw [hmem, hw.outside (by rw [toLe_length]; omega), hput.mem]

end

theorem questionPacks : Claim.questionPacks := by
  unfold Claim.questionPacks
  dsimp only
  intro rid buf r c s hon hflag hs ho hin hc
  refine ⟨fun hsub hprefix hdone hjobs hoff => ?_, fun b hsub hstep hb hdone =>
    ⟨pack_tooLong hon hflag hs ho hin hc hsub hstep hb hdone rfl, pack_fits hon hflag hs ho hin hc hsub hstep hb hdone rfl⟩⟩
  refine does_mono (pack_starts hon hflag hs ho hin hc hsub hprefix hdone hjobs hoff) fun t ⟨hissue, hother, hget, hzero, hkept⟩ =>
    ⟨hissue, hother, ⟨_, hget, rfl, rfl, rfl, ?_⟩, hzero, hkept⟩
  rw [tabGet_modStage, packBegun_stage]

/-! ### The passages of the merge -/

/-- The engine picked for a context that reaches one is one that it reaches; only the counter of open values counts on. -/
theorem pickEng_reaches {s : State} {k : EngKind} {c : Nat} (h : ∃ i, i < kindCount k ∧ mayReach s ⟨k, i⟩ c = true) :
    ∃ i, i < kindCount k ∧ mayReach s ⟨k, i⟩ c = true ∧ pickEng s k c = (⟨k, i⟩, { s with freeCtr := s.freeCtr + 1 }) := by
  obtain ⟨l, hl⟩ : ∃ l, l = (List.range (kindCount k)).filter fun i => mayReach s ⟨k, i⟩ c := ⟨_, rfl⟩
  have hpos : 0 < l.length := by
    obtain ⟨i, hi, hr⟩ := h
    rw [hl]
    exact List.length_pos_of_mem (List.mem_filter.2 ⟨List.mem_range.2 hi, hr⟩)
  have hlt : (takeFree s).1 % l.length < l.length := Nat.mod_lt _ hpos
  have hmem : l.getD ((takeFree s).1 % l.length) 0 ∈ l := by
    rw [List.getD_eq_getElem?_getD, List.getElem?_eq_getElem hlt]
    exact List.getElem_mem hlt
  rw [hl, List.mem_filter, List.mem_range, ← hl] at hmem
  refine ⟨_, hmem.1, hmem.2, ?_⟩
  unfold pickEng
  dsimp only
  rw [← hl]
  rfl

section
variable {s : State} {rid buf : Nat} {r : Request} {c : PCmd} {b m : Bytes} (hon : Claim.stageOn s rid 0x13 r)
  (hflag : bit (recFlags r.record) 0 = true) (hs : Claim.clean s) (ho : Claim.openTo s (whoPurser (some r.ctx)))
  (hb : b = memRead s.mem.bytes (tabGet {} r.stages 0x13).param 64)
  (hm : m = memRead s.mem.bytes (fld r.record 168 8) (32 * fld b 44 2))
  (hin : (tabGet {} r.stages 0x13).param + 64 ≤ wheelBase) (hlist : fld r.record 168 8 + 32 * fld b 44 2 ≤ wheelBase)
  (hsub : (tabGet {} r.stages 0x13).sub = 3) (hroom : r.cached + r.qcount ≤ fld r.record 36 4)
include hon hflag hs ho hb hm hin hlist hsub hroom

/-- PACK goes on with the passages that are left. -/
theorem pack_passages : ∃ v, Charged s v ∧ ∀ p, packPassages rid buf b m (3 * fld b 44 2 + 1) v = p →
    packStage s rid buf = noteStep (if p.2 = true then packFinish p.1 rid else p.1) (tabGet {} r.stages 0x13).cmd := by
  have hreads : Yields (fun _ => False) (do
      let b ← rd (whoPurser (some r.ctx)) (tabGet {} r.stages 0x13).param 64
      let m ← rd (whoPurser (some r.ctx)) (fld r.record 168 8) (32 * fld b 44 2)
      return (b, m)) s fun x t => x = (b, m) ∧ t.mem = s.mem := by
    refine .bind (.rdMem hs (ho _ _ false hin)) fun x t ht ⟨hx, htm⟩ => ?_
    rw [← hb] at hx
    subst hx
    refine .bind (.rdMem (ht.clean hs) (ht.openTo ho _ _ false hlist)) fun y u _ ⟨hy, hum⟩ => .pure ⟨?_, hum.trans htm⟩
    rw [hy, htm, hm]
  obtain ⟨x, v, hv, hst, hx, hvm⟩ := hreads
  refine ⟨v, hst.charged hvm, fun p hp => ?_⟩
  rw [packStage_goes_on (buf := buf) hon (by omega), hflag, if_pos rfl, packTokens, hon.1]
  dsimp only
  rw [if_neg (Nat.not_lt.2 hroom), hflag, hv, hx]
  dsimp only
  rw [hsub, if_pos rfl, hp]
  rfl

/-- With no record left the question follows the passages. -/
theorem pack_last (htodo : r.pack.todo = []) (hfits : Claim.packFits r r.qcount) :
    Does (.pack rid buf) s fun t => Claim.packDone s t rid r r.qcount := by
  obtain ⟨v, hv, hrow⟩ := pack_passages (buf := buf) hon hflag hs ho hb hm hin hlist hsub hroom
  have hget : getReq v rid = some r := (hv.getReq rid).trans hon.1
  have hp : packPassages rid buf b m (3 * fld b 44 2 + 1) v = (v, true) := by
    rw [packPassages, hget]
    dsimp only
    rw [htodo]
  have hdone : Claim.packDone s (packFinish v rid) rid r r.qcount := packFinish_done hon.1 hget (hv.asked rid).others
    (fun a _ => by rw [hv.mem]) ((hv.asked rid).clean hs) ((hv.asked rid).openTo ho) hfits
  exact does_of (congrArg Host.Outcome.next (hrow _ hp)) (packDone_noteStep hdone _)

section
variable {i : Nat} {rest : List Nat} (htodo : r.pack.todo = i :: rest)
include htodo

/-- A passage that awaits something ends the row. -/
theorem pack_awaits : ∃ v, Charged s v ∧ ∀ w,
    packPassage v rid buf r (tabGet {} r.stages 0x13) b (r.pack.segs.map (·.covered)).flatten (recAt m i) = (w, false) →
    packStage s rid buf = noteStep w (tabGet {} r.stages 0x13).cmd := by
  obtain ⟨v, hv, hrow⟩ := pack_passages (buf := buf) hon hflag hs ho hb hm hin hlist hsub hroom
  refine ⟨v, hv, fun w hw => ?_⟩
  have hp : packPassages rid buf b m (3 * fld b 44 2 + 1) v = (w, false) := by
    rw [packPassages, (hv.getReq rid).trans hon.1]
    dsimp only
    rw [htodo]
    dsimp only
    rw [hw]
    rfl
  exact (hrow _ hp).trans rfl

variable (hvalid : (recAt m i).valid = true) (hnew : (recAt m i).pay ∉ (r.pack.segs.map (·.covered)).flatten)
include hvalid hnew

/-- A passage is looked up in the directory of its module. -/
theorem pack_looksUp (hfound : r.pack.found = none) (hasks : tabFind r.asks (16384 + r.pack.todo.length) = none)
    (hans : tabFind r.answers (16384 + r.pack.todo.length) = none) (hfar : (recAt m i).pos / 2 ^ 52 ≠ ownModule s)
    (hpath : (choosePort s ((recAt m i).pos / 2 ^ 52)).isSome = true) : Does (.pack rid buf) s fun t =>
      Claim.purserTells t ((recAt m i).pos / 2 ^ 52)
        (.ask rid (16384 + r.pack.todo.length) (.lookup r.ctx (fld b 32 8) (dirSlots b) (recAt m i).pay)) ∧
      Claim.otherReqs s t rid ∧ t.mem = s.mem ∧
      getReq t rid = some { r with asks := tabPut r.asks (16384 + r.pack.todo.length) ((recAt m i).pos / 2 ^ 52) } := by
  obtain ⟨v, hv, hrow⟩ := pack_awaits (buf := buf) hon hflag hs ho hb hm hin hlist hsub hroom htodo
  obtain ⟨x, hx⟩ : ∃ x, x = recAt m i := ⟨_, rfl⟩
  rw [← hx] at hvalid hnew hfar hpath hrow ⊢
  have hch := hv.asked rid
  obtain ⟨hasked, htold, hget⟩ := asked_far ((hv.getReq rid).trans hon.1)
    (.lookup r.ctx (fld b 32 8) (dirSlots b) x.pay) 0 hasks hans (by rw [hch.calm.ownModule]; exact hfar)
    (by rw [hch.calm.choosePort_isSome]; exact hpath)
  obtain ⟨w, hw⟩ : ∃ w, w = ask v rid (16384 + r.pack.todo.length) (x.pos / 2 ^ 52)
    (.lookup r.ctx (fld b 32 8) (dirSlots b) x.pay) 0 := ⟨_, rfl⟩
  rw [← hw] at hasked htold hget
  have hnone : answered w rid (16384 + r.pack.todo.length) = none := by rw [answered, hget]; exact hans
  have hrow := hrow w (by
    unfold packPassage
    dsimp only
    rw [if_neg (by rw [hvalid]; simpa using hnew), hfound]
    dsimp only
    rw [← hw, hnone])
  have hall := (hch.trans hasked).noteStep (tabGet {} r.stages 0x13).cmd
  exact does_of (congrArg Host.Outcome.next hrow) ⟨noteStep_tells htold _, hall.1, hall.2, (noteStep_getReq _ _ _).trans hget⟩

/-- A passage that is found is read by a MOVE. -/
theorem pack_moves (hc : getCmd s (tabGet {} r.stages 0x13).cmd = some c) {y : Nat × Nat} (hfound : r.pack.found = some y)
    (hdone : tabFind c.done (passageJob r) = none) (hjobs : c.jobs.contains (passageJob r) = false)
    (hreach : ∃ k, k < 32 ∧ mayReach s ⟨.barge, k⟩ r.ctx = true)
    (hoff : ∀ k, k < 32 → mayReach s ⟨.barge, k⟩ r.ctx = true → Claim.offerable s ⟨.barge, k⟩ r.ctx) : Does (.pack rid buf) s fun t =>
      (∃ k, k < 32 ∧ Claim.stageOffers s t ⟨.barge, k⟩ r (tabGet {} r.stages 0x13).cmd (passageJob r) c
        (linearBytes r.ctx (decide ((recAt m i).pos / 2 ^ 52 ≠ ownModule s)) (if (recAt m i).pos / 2 ^ 52 ≠ ownModule s
          then globalAddr ((recAt m i).pos / 2 ^ 52) (passageSpan y).1 else (passageSpan y).1) buf (passageSpan y).2)) ∧
      t.mem = s.mem ∧ t.pur.reqs = s.pur.reqs := by
  obtain ⟨v, hv, hrow⟩ := pack_awaits (buf := buf) hon hflag hs ho hb hm hin hlist hsub hroom htodo
  obtain ⟨x, hx⟩ : ∃ x, x = recAt m i := ⟨_, rfl⟩
  rw [← hx] at hvalid hnew hrow ⊢
  have hctxs (d : Nat) : getCtx v d = getCtx s d := by rw [getCtx, hv.prt.ctxs, getCtx]
  have hreaches (k : Nat) : mayReach v ⟨.barge, k⟩ r.ctx = mayReach s ⟨.barge, k⟩ r.ctx := by rw [mayReach, mayReach, hctxs]
  obtain ⟨k, hk, hreach, hpick⟩ := pickEng_reaches (s := v) (k := .barge) (c := r.ctx) (by
    obtain ⟨k, hk, hr⟩ := hreach
    exact ⟨k, hk, (hreaches k).trans hr⟩)
  have hon' := hoff k hk ((hreaches k).symm.trans hreach)
  have hown : ownModule v = ownModule s := (hv.asked rid).calm.ownModule
  obtain ⟨d, hd⟩ : ∃ d, d = linearBytes r.ctx (decide (x.pos / 2 ^ 52 ≠ ownModule s)) (if x.pos / 2 ^ 52 ≠ ownModule s
    then globalAddr (x.pos / 2 ^ 52) (passageSpan y).1 else (passageSpan y).1) buf (passageSpan y).2 := ⟨_, rfl⟩
  have hcv : getCmd v (tabGet {} r.stages 0x13).cmd = some c := (getCmd_of_cmds (by rw [hv.eq]) _).trans hc
  have hnone : jobStatus v (tabGet {} r.stages 0x13).cmd (passageJob r) = none := by rw [jobStatus, hcv]; exact hdone
  have hpass : packPassage v rid buf r (tabGet {} r.stages 0x13) b (r.pack.segs.map (·.covered)).flatten x =
      (stageIssue { v with freeCtr := v.freeCtr + 1 } (tabGet {} r.stages 0x13).cmd (passageJob r) ⟨.barge, k⟩ d, false) := by
    unfold packPassage
    dsimp only
    rw [if_neg (by rw [hvalid]; simpa using hnew), hfound]
    dsimp only
    rw [hnone, hpick, hown, hd]
  have hrow := hrow _ hpass
  rw [← hd]
  have ⟨hctx, hen, _, hq⟩ := hon'
  have hbytes : cmdCtx d = r.ctx := by rw [hd]; exact cmdCtx_of hctx _ _
  have hkeeps := stageIssue_keeps (s := { v with freeCtr := v.freeCtr + 1 }) (e := ⟨.barge, k⟩) (i := passageJob r) (b := d) hcv hjobs
    (by rw [hbytes]; exact (congrArg CtxCfg.enable (hctxs r.ctx)).trans hen) (by rw [hbytes]; exact hreach)
    (by rw [hbytes, getQ_of_engs (s := s) (t := { v with freeCtr := v.freeCtr + 1 }) (by rw [hv.eq])]; exact hq) EngKind.noConfusion
  refine does_of (congrArg Host.Outcome.next hrow) ⟨⟨k, hk, stageOffers_of (t := { v with freeCtr := v.freeCtr + 1 }) hon' hbytes
    EngKind.noConfusion hc hjobs (by rw [hv.eq]) hv.prt (by rw [hv.eq]) rfl rfl⟩, ?_, ?_⟩
  · rw [noteStep_mem, hkeeps.1, hv.mem]
  · rw [noteStep_reqs, hkeeps.2, hv.eq]

end

end

theorem passagesPack : Claim.passagesPack := by
  unfold Claim.passagesPack
  dsimp only
  intro rid buf r c s hon hflag hs ho hc
  obtain ⟨b, hb⟩ : ∃ b, b = memRead s.mem.bytes (tabGet {} r.stages 0x13).param 64 := ⟨_, rfl⟩
  rw [← hb]
  obtain ⟨m, hm⟩ : ∃ m, m = memRead s.mem.bytes (fld r.record 168 8) (32 * fld b 44 2) := ⟨_, rfl⟩
  rw [← hm]
  intro hin hlist hsub hroom
  refine ⟨fun i rest htodo hvalid hnew => ⟨?_, fun y => ?_⟩, pack_last hon hflag hs ho hb hm hin hlist hsub hroom⟩
  · exact pack_looksUp hon hflag hs ho hb hm hin hlist hsub hroom htodo hvalid hnew
  · exact pack_moves hon hflag hs ho hb hm hin hlist hsub hroom htodo hvalid hnew hc

/-! ### The end of a PREFIX -/

section
variable {s : State} {a : Nat} (hs : Claim.clean s) (hin : a + 64 ≤ wheelBase)
include hs hin

/-- A segment that is referenced, retiring, or not ready and without a parent is marked, and nothing else. -/
theorem retireWork_marks (hok : prefixOk (memRead s.mem.bytes a 64) = true)
    (hkept : fld (memRead s.mem.bytes a 64) 44 4 ≠ 0 ∨ fld (memRead s.mem.bytes a 64) 56 1 = 2 ∨
      fld (memRead s.mem.bytes a 64) 56 1 = 0 ∧ fld (memRead s.mem.bytes a 64) 8 8 = 0) :
    ∃ t, runAct (retireWork a) s = (.ok, t) ∧ Stored (span (a + 56) 1) s t ∧ t.mem.bytes = memWrite s.mem.bytes (a + 56) (toLe 1 2) := by
  obtain ⟨d, hd⟩ : ∃ d, d = memRead s.mem.bytes a 64 := ⟨_, rfl⟩
  rw [← hd] at hok hkept
  have hlen : (toLe 1 2).length = 1 := toLe_length 1 2
  obtain ⟨t, ht, hch⟩ := rd_of_clean hs (mayAccess_purser s hin false)
  obtain ⟨u, hu, hw⟩ := wr_of_clean (w := whoPurser none) (a := a + 56) (b := toLe 1 2) (clean_of_mem hs hch.mem)
    (mayAccess_purser t (by omega) true)
  rw [← hd] at ht
  have hwrite : runActVal (wrNat (whoPurser none) (a + 56) 1 2) t = (.ok (), u) := hu
  refine ⟨u, runAct_ok ?_, (hch.stored _).trans (hw.stored fun j h1 h2 => ⟨h1, by omega⟩), by rw [hw.bytes, hch.mem]⟩
  unfold retireWork
  rw [runActVal_bind_ok ht, hok, Bool.not_true, runActVal_stopIf_bind rfl, runActVal_bind_ok hwrite]
  by_cases hfree : (fld d 56 1 ≠ 2 && fld d 44 4 = 0) = true
  · have hnew : fld d 56 1 = 0 ∧ fld d 8 8 = 0 := by
      rw [Bool.and_eq_true, decide_eq_true_eq, decide_eq_true_eq] at hfree
      obtain h | h | h := hkept
      · exact absurd hfree.2 h
      · exact absurd h hfree.1
      · exact h
    rw [if_pos hfree, hnew.1, hnew.2]
    rfl
  · rw [if_neg hfree]
    rfl

theorem retireWork_fails (hbad : prefixOk (memRead s.mem.bytes a 64) = false) :
    ∃ t, runAct (retireWork a) s = (.internal, t) ∧ Charged s t := by
  obtain ⟨t, ht, hch⟩ := rd_of_clean hs (mayAccess_purser s hin false)
  refine ⟨t, runAct_error ?_, hch⟩
  unfold retireWork
  rw [runActVal_bind_ok ht, hbad]
  rfl

end

/-- A command that ends from a state with its mailbox and the purser as before. -/
theorem Stored.completes {R : Nat → Prop} {s t : State} (h : Stored R s t) {id : Nat} {c : PCmd} (hc : getCmd s id = some c) (st : Status) :
    Claim.completes s (endPlain t id st) id c st :=
  completes_endPlain hc (by rw [h.eq]) (by rw [h.eq]) st

theorem prefixesRetire : Claim.prefixesRetire := by
  unfold Claim.prefixesRetire
  dsimp only
  intro id c s ⟨hc, hop, hph, hguest, henq, hworks, hunf⟩ h16 h32 hs hg halign hmod
  obtain ⟨g, hgdef⟩ : ∃ g, g = fld c.desc 24 8 := ⟨_, rfl⟩
  have hrow : prefixRetireCmd s id = if globalModule g = ownModule s
      then endPlain (runAct (retireWork (localPart g)) s).2 id (runAct (retireWork (localPart g)) s).1
      else if (choosePort s (globalModule g)).isNone then endPlain s id .linkLost
      else putCmd (purserSend s (globalModule g) (.prefixRetire id (localPart g))) id
        { c with phase := .running, peer := some (globalModule g) } := by
    rw [prefixRetireCmd, startRow_of hc hop hph hguest hworks hunf, hgdef]
    exact if_neg (by simp [h16, h32, hg, halign, hmod])
  rw [← hgdef]
  refine ⟨fun hown hin hok hkept => ?_, fun hown hin hbad => ?_, fun hfar hpath => ?_, fun hfar hpath => ?_⟩
  · rw [if_pos hown] at hrow
    obtain ⟨t, ht, hst, hbytes⟩ := retireWork_marks hs hin hok hkept
    rw [ht] at hrow
    refine does_of (congrArg Host.Outcome.next hrow) ⟨hst.completes hc .ok, ?_, fun x hx => ?_, ?_, ?_⟩
    · rw [endPlain_mem, hbytes, memGet_memWrite, toLe_length, if_pos ⟨le_rfl, by omega⟩, Nat.sub_self]
      rfl
    · rw [endPlain_mem, hst.kept x fun ⟨h1, h2⟩ => hx (by omega)]
    · rw [endPlain_reqs, hst.eq]
    · rw [endPlain_eq, hst.eq]
  · rw [if_pos hown] at hrow
    obtain ⟨t, ht, hch⟩ := retireWork_fails hs hin hbad
    rw [ht] at hrow
    refine does_of (congrArg Host.Outcome.next hrow) ⟨(hch.stored fun _ => False).completes hc .internal, ?_, ?_⟩
    · rw [endPlain_mem, hch.mem]
    · rw [endPlain_eq, hch.eq]
  · have hnone : (choosePort s (globalModule g)).isNone = false := by rw [Option.isNone_eq_false_iff]; exact hpath
    rw [if_neg hfar, hnone, if_neg Bool.false_ne_true] at hrow
    refine does_of (congrArg Host.Outcome.next hrow) ⟨purserSend_tells hpath _, ?_, tabFind_tabPut_self _ _ _⟩
    exact (congrArg State.mem (purserSend_eq s (globalModule g) (.prefixRetire id (localPart g))) :)
  · rw [if_neg hfar, hpath, Option.isNone_none, if_pos rfl] at hrow
    refine does_of (congrArg Host.Outcome.next hrow) ⟨completes_endPlain hc rfl rfl .linkLost, ?_, endPlain_mem _ _ _⟩
    rw [endPlain_eq]

/-- Settles O51: PACK tokenizes the question or follows the passages of the merge and writes what fits, and PREFIX_RETIRE marks a
segment here or sends it to its purser. -/
theorem packAndPrefixes : Obligations.PackAndPrefixes := ⟨questionPacks, passagesPack, prefixesRetire⟩

end Sys2Proof.Proofs
end

