-- ==== Sys2Proof/Proofs/StageReads.lean ====
section
/-! PROOFS. What a stage reads when it would start: its request record, its model or search record, and its map list (spec/13 R312, R325,
R493, R494, spec/15 R383). -/

namespace Sys2Proof.Proofs

open Sys2Proof Sys2Proof.Machine Sys2Proof.Laws

/-! ### Work that only reads -/

/-- From state `s` on, up to tokens taken for reads, work gives `x` and takes tokens alone. -/
def Reads {α : Type} (s : State) (a : Act α) (x : α) : Prop := ∀ t, Charged s t → ∃ u, runActVal a t = (.ok x, u) ∧ Charged s u

section
variable {α β : Type} {s : State} {w : Who}

theorem Reads.run {a : Act α} {x : α} (h : Reads s a x) : ∃ t, runActVal a s = (.ok x, t) ∧ Charged s t := h s (.refl s)

theorem Reads.pure (x : α) : Reads s (Pure.pure x : Act α) x := fun t ht => ⟨t, rfl, ht⟩

theorem Reads.bind {a : Act α} {k : α → Act β} {x : α} {y : β} (ha : Reads s a x) (hk : Reads s (k x) y) : Reads s (a >>= k) y := by
  intro t ht
  obtain ⟨u, hu, hch⟩ := ha t ht
  obtain ⟨v, hv, hch'⟩ := hk u hch
  exact ⟨v, (runActVal_bind_ok hu).trans hv, hch'⟩

/-- A check that holds is passed. -/
theorem Reads.check {b : Bool} {st : Status} {k : Unit → Act β} {y : β} (hb : b = false) (hk : Reads s (k ()) y) :
    Reads s (stopIf b st >>= k) y := by
  subst hb
  exact Reads.bind (fun t ht => ⟨t, rfl, ht⟩) hk

theorem Reads.rd (hs : Claim.clean s) (ho : Claim.openTo s w) {a n : Nat} (hin : a + n ≤ wheelBase) {b : Bytes}
    (hb : b = memRead s.mem.bytes a n) : Reads s (rd w a n) b := by
  intro t ht
  rw [hb]
  obtain ⟨u, hu, hch⟩ := rd_of_clean (clean_of_mem hs ht.mem) (openTo_of_samePrt ht.prt ho a n false hin)
  rw [ht.mem] at hu
  exact ⟨u, hu, ht.trans hch⟩

theorem Reads.rdNat (hs : Claim.clean s) (ho : Claim.openTo s w) {a n : Nat} (hin : a + n ≤ wheelBase) :
    Reads s (rdNat w a n) (leNat (memRead s.mem.bytes a n)) := (Reads.rd hs ho hin rfl).bind (.pure _)

theorem Reads.mapM {f : α → Act β} {g : α → β} (l : List α) (h : ∀ x ∈ l, Reads s (f x) (g x)) : Reads s (l.mapM f) (l.map g) := by
  induction l with
  | nil => exact .pure _
  | cons x l ih =>
    rw [List.mapM_cons]
    exact (h x List.mem_cons_self).bind ((ih fun y hy => h y (List.mem_cons_of_mem _ hy)).bind (.pure _))

end

/-! ### The tables that records name -/

/-- Entry `i` of a table of `k`-byte numbers. -/
theorem fld_table (m : List Host.Cell) (a k n i : Nat) (h : i < n) :
    fld (memRead m a (k * n)) (k * i) k = leNat (memRead m (a + k * i) k) := by
  rw [fld, take_drop_memRead m a k n i h]

section
variable {s : State} {w : Who} (hs : Claim.clean s) (ho : Claim.openTo s w)
include hs ho

/-- A model record that keeps the rules is read as it stands. -/
theorem rdModel_reads {a tok : Nat} {m : Model} (h : Claim.modelRead s a tok m) : Reads s (rdModel w a tok) m := by
  obtain ⟨hin, hversion, hfmt, hlayers, hheads, hdim, hn, hzero, hpage, hvocab, hgroup, hselect, hm⟩ := h
  simp only [Claim.modelRegions, List.forall_mem_cons] at hin
  obtain ⟨hin1, hin2, hin3, hin4, -⟩ := hin
  obtain ⟨b, hb⟩ : ∃ b, b = memRead s.mem.bytes a 128 := ⟨_, rfl⟩
  rw [← hb] at hversion hfmt hlayers hheads hdim hn hzero hpage hvocab hgroup hselect hm hin3 hin4
  obtain ⟨t, ht⟩ : ∃ t, t = memRead s.mem.bytes (fld b 24 8) (32 * fld b 12 2) := ⟨_, rfl⟩
  rw [← ht] at hgroup hm
  have hrecs : ((List.range (fld b 2 2)).map fun i => ((memRead s.mem.bytes (fld b 32 8) (16 * fld b 2 2)).drop (16 * i)).take 16) =
      (List.range (fld b 2 2)).map fun i => memRead s.mem.bytes (fld b 32 8 + 16 * i) 16 :=
    List.map_congr_left fun i hi => take_drop_memRead _ _ _ _ _ (List.mem_range.1 hi)
  unfold rdModel
  refine .bind (Reads.rd hs ho hin1 hb) (.check ?_ (.bind (.rdNat hs ho hin2) (.check (by rw [hvocab]; simp)
    (.bind (Reads.rd hs ho hin3 ht) (.check ?_ (.bind (.rd hs ho hin4 rfl) ?_))))))
  · simp only [Bool.or_eq_false_iff, Bool.and_eq_false_iff, decide_eq_false_iff_not, hzero, Bool.not_true, and_true, ← hpage,
      ne_eq, not_not]
    omega
  · refine List.any_eq_false.2 fun i hi => ?_
    obtain ⟨h1, h2, h3⟩ := hgroup i (List.mem_range.1 hi)
    simp [h1, h2, h3]
  · dsimp only
    rw [hrecs]
    rw [← hvocab]
    refine .check ?_ (hm ▸ .pure _)
    rw [Bool.not_eq_false', List.all_map, List.all_eq_true]
    exact fun i hi => hselect i (List.mem_range.1 hi)

/-- A map list that keeps the rules is read as it stands. -/
theorem rdMaps_reads {a : Nat} {l : List (Nat × Nat × Nat × Nat)} (h : Claim.mapsRead s a l) : Reads s (rdMaps w a) l := by
  unfold rdMaps
  obtain ⟨rfl, rfl⟩ | ⟨hne, halign, hzero, hlo, hhi, hin, hrules, hl⟩ := h
  · exact .pure _
  · obtain ⟨b, hb⟩ : ∃ b, b = memRead s.mem.bytes a 8 := ⟨_, rfl⟩
    rw [← hb] at hzero hlo hhi hin hrules hl
    rw [if_neg hne, hl]
    refine .check (by simp [halign]) (.bind (Reads.rd hs ho (by omega) hb) (.check ?_ (.bind (.rd hs ho hin rfl) (.mapM _ fun i hi => ?_))))
    · simp only [hzero, Bool.not_true, Bool.or_eq_false_iff, decide_eq_false_iff_not, true_and]
      omega
    · have hi' := List.mem_range.1 hi
      obtain ⟨h1, h2, h3⟩ := hrules i hi'
      dsimp only
      rw [fld_table _ _ _ _ _ hi']
      exact .check (by simp [h1, h2, h3]) (.pure _)

theorem rdShards_reads {b : Bytes} {l : List (Nat × Nat)} (h : Claim.shardsRead s b l) : Reads s (rdShards w b) l := by
  obtain ⟨hin, hrules, hl⟩ := h
  unfold rdShards
  rw [hl]
  refine .bind (.rd hs ho hin rfl) (.mapM _ fun i hi => ?_)
  have hi' := List.mem_range.1 hi
  obtain ⟨hmod, hzero, halign⟩ := hrules i hi'
  dsimp only
  rw [take_drop_memRead _ _ _ _ _ hi']
  exact .check (by simp [hmod, hzero, halign]) (.pure _)

end

/-- A stage that fits passes its checks, and its maps are what its list names. -/
theorem stageCheck_reads {s : State} {rid op : Nat} {r : Request} {d : Bytes} {l : List (Nat × Nat × Nat × Nat)} (hs : Claim.clean s)
    (ho : Claim.openTo s (whoPurser (some r.ctx))) (hop : 0x10 ≤ op ∧ op ≤ 0x16) (h : Claim.stageFits s rid op r d l) :
    Reads s (stageCheck rid { r with record := d } op (tabGet {} r.stages op)) l := by
  obtain ⟨hd, hin, hok, hid, hmaps, halign, hnomaps, hnoparam, hsearch, hshards, hcascade, hmodel⟩ := h
  obtain ⟨g, hg⟩ : ∃ g, g = tabGet {} r.stages op := ⟨_, rfl⟩
  rw [← hg] at hmaps halign hnomaps hnoparam hsearch hshards hcascade hmodel ⊢
  have hcases : op = 0x10 ∨ op = 0x11 ∨ op = 0x12 ∨ op = 0x13 ∧ bit (recFlags d) 0 = false ∨ op = 0x13 ∧ bit (recFlags d) 0 = true ∨
      op = 0x14 ∨ op = 0x15 ∨ op = 0x16 := by
    cases bit (recFlags d) 0 <;> simp <;> omega
  have hlist := rdMaps_reads hs ho hmaps
  have hfirst (needs : Bool) (hneeds : decide (g.param ≠ 0) = needs) : (!requestOk d || decide (fld d 8 8 ≠ rid) ||
      decide (op = 0x16) && decide (g.maps ≠ 0) || decide (decide (g.param ≠ 0) ≠ needs) || decide (g.param % 64 ≠ 0)) = false := by
    have hm : (decide (op = 0x16) && decide (g.maps ≠ 0)) = false := by
      rw [Bool.and_eq_false_iff, decide_eq_false_iff_not, decide_eq_false_iff_not, not_not]
      by_cases h : op = 0x16
      · exact .inr (hnomaps h)
      · exact .inl h
    rw [hok, hm, hneeds]
    simp [hid, halign]
  unfold stageCheck
  dsimp only
  obtain rfl | rfl | rfl | ⟨rfl, hflag⟩ | ⟨rfl, hflag⟩ | rfl | rfl | rfl := hcases
  case inl =>
    exact .check (hfirst _ (by simp [hnoparam])) hlist
  case inr.inr.inr.inl =>
    rw [hflag]
    exact .check (hfirst _ (by simp [hnoparam, hflag])) hlist
  case inr.inr.inr.inr.inr.inr.inr =>
    exact .check (hfirst _ (by simp [hnoparam])) hlist
  case inr.inr.inr.inr.inr.inl =>
    obtain ⟨hne, m, hm⟩ := hmodel (.inl rfl)
    exact .check (hfirst _ (by simp [hne])) (.bind (rdModel_reads hs ho hm) hlist)
  case inr.inr.inr.inr.inr.inr.inl =>
    obtain ⟨hne, m, hm⟩ := hmodel (.inr rfl)
    exact .check (hfirst _ (by simp [hne])) (.bind (rdModel_reads hs ho hm) hlist)
  case inr.inl =>
    obtain ⟨hne, hin, hok⟩ := hsearch (.inl rfl)
    obtain ⟨x, hx⟩ := hshards (.inl rfl)
    exact .check (hfirst _ (by simp [hne])) (.bind (.rd hs ho hin rfl) (.check (by rw [hok]; rfl) (.bind (rdShards_reads hs ho hx) hlist)))
  case inr.inr.inl =>
    obtain ⟨hne, hin, hok⟩ := hsearch (.inr (.inl rfl))
    obtain ⟨x, hx⟩ := hshards (.inr rfl)
    obtain ⟨h1, h2, h3⟩ := hcascade rfl
    exact .check (hfirst _ (by simp [hne])) (.bind (.rd hs ho hin rfl) (.check (by rw [hok]; rfl) (.bind (rdShards_reads hs ho hx)
      (.bind (.rd hs ho h2 rfl) (.check (by rw [h1, h3]; rfl) hlist)))))
  case inr.inr.inr.inr.inl =>
    obtain ⟨hne, hin, hok⟩ := hsearch (.inr (.inr ⟨rfl, hflag⟩))
    rw [hflag]
    exact .check (hfirst _ (by simp [hne])) (.bind (.rd hs ho hin rfl) (.check (by rw [hok]; rfl) hlist))

/-- A record that breaks Table 13-1, or another request's, stops the stage at its first check. -/
theorem stageCheck_refuses {s : State} {rid op : Nat} {r : Request} {d : Bytes} (h : requestOk d = false ∨ fld d 8 8 ≠ rid) :
    runActVal (stageCheck rid { r with record := d } op (tabGet {} r.stages op)) s = (.error .internal, s) := by
  unfold stageCheck
  refine runActVal_bind_error ?_
  have hfirst : (!requestOk d || decide (fld d 8 8 ≠ rid)) = true := by
    obtain h | h := h
    · rw [h]; rfl
    · rw [decide_eq_true h, Bool.or_true]
  dsimp only
  rw [hfirst]
  rfl

/-! ### A record whose STATE has changed -/

/-- Two records that agree but for STATE. -/
def sameButState (b d : Bytes) : Prop := ∀ off n, off + n ≤ 184 ∨ 186 ≤ off ∧ off + n ≤ 256 → fld b off n = fld d off n

theorem requestOk_sameButState {b d : Bytes} (h : sameButState b d) : requestOk b = requestOk d := by
  have hf (off n : Nat) (hn : off + n ≤ 184) : fld b off n = fld d off n := h off n (.inl hn)
  have hlast : fld b 188 68 = fld d 188 68 := h 188 68 (.inr ⟨by decide, by decide⟩)
  have hoffs : ([16, 40, 56, 64, 72, 80, 112].all fun off => fld b off 8 % 64 = 0) =
      [16, 40, 56, 64, 72, 80, 112].all fun off => fld d off 8 % 64 = 0 := by
    simp only [List.all_cons, List.all_nil, hf 16 8 (by decide), hf 40 8 (by decide), hf 56 8 (by decide), hf 64 8 (by decide),
      hf 72 8 (by decide), hf 80 8 (by decide), hf 112 8 (by decide)]
  unfold requestOk
  dsimp only [zeroAt]
  rw [hoffs, hlast, show recFlags b = recFlags d from hf 1 1 (by decide)]
  simp only [hf 128 4 (by decide), hf 132 4 (by decide), hf 0 1 (by decide), hf 2 1 (by decide), hf 3 1 (by decide),
    hf 4 2 (by decide), hf 6 2 (by decide), hf 105 3 (by decide), hf 140 4 (by decide), hf 32 4 (by decide), hf 36 4 (by decide),
    hf 48 4 (by decide), hf 104 1 (by decide), hf 108 4 (by decide), hf 120 4 (by decide), hf 136 4 (by decide), hf 96 8 (by decide),
    hf 168 8 (by decide), hf 176 8 (by decide)]

section
variable {s t : State} {x n : Nat} (hmem : ∀ j, j < x ∨ x + n ≤ j → memGet t.mem.bytes j = memGet s.mem.bytes j)
include hmem

/-- What is read out of the way of a change is as before. -/
theorem memRead_apart {a k : Nat} (h : Claim.apart (a, k) x n) : memRead t.mem.bytes a k = memRead s.mem.bytes a k := by
  refine memRead_congr fun j h1 h2 => hmem j ?_
  simp only [Claim.apart] at h
  omega

theorem modelRead_kept {a tok : Nat} {m : Model} (h : Claim.modelRead s a tok m)
    (happart : ∀ g ∈ Claim.modelRegions s a tok, Claim.apart g x n) : Claim.modelRead t a tok m := by
  simp only [Claim.modelRegions, List.forall_mem_cons] at happart
  obtain ⟨h1, h2, h3, h4, -⟩ := happart
  obtain ⟨hin, hversion, hfmt, hlayers, hrest⟩ := h
  have hb := memRead_apart hmem h1
  have hsel (i : Nat) (hi : i < fld (memRead s.mem.bytes a 128) 2 2) : memRead t.mem.bytes (fld (memRead s.mem.bytes a 128) 32 8 + 16 * i) 16 =
      memRead s.mem.bytes (fld (memRead s.mem.bytes a 128) 32 8 + 16 * i) 16 := by
    refine memRead_apart hmem ?_
    simp only [Claim.apart] at h4 ⊢
    omega
  unfold Claim.modelRead
  dsimp only
  rw [Claim.modelRegions, hb, memRead_apart hmem h2, memRead_apart hmem h3]
  refine ⟨hin, hversion, hfmt, hlayers, ?_⟩
  obtain ⟨hheads, hdim, hn, hzero, hpage, hvocab, hgroup, hselect, hm⟩ := hrest
  refine ⟨hheads, hdim, hn, hzero, hpage, hvocab, hgroup, fun i hi => ?_, hm.trans ?_⟩
  · rw [hsel i hi]
    exact hselect i hi
  · rw [List.map_congr_left fun i hi => hsel i (List.mem_range.1 hi)]

theorem mapsRead_kept {a : Nat} {l : List (Nat × Nat × Nat × Nat)} (h : Claim.mapsRead s a l)
    (happart : Claim.apart (a, 8 + 8 * l.length) x n) : Claim.mapsRead t a l := by
  obtain h | ⟨hne, halign, hzero, hlo, hhi, hin, hrules, hl⟩ := h
  · exact .inl h
  · have hlen : l.length = fld (memRead s.mem.bytes a 8) 0 2 := by rw [hl]; simp
    rw [hlen] at happart
    have hb : memRead t.mem.bytes a 8 = memRead s.mem.bytes a 8 := memRead_apart hmem (by
      simp only [Claim.apart] at happart ⊢
      omega)
    have he (i : Nat) (hi : i < fld (memRead s.mem.bytes a 8) 0 2) : memRead t.mem.bytes (a + 8 + 8 * i) 8 =
        memRead s.mem.bytes (a + 8 + 8 * i) 8 := memRead_apart hmem (by
      simp only [Claim.apart] at happart ⊢
      omega)
    refine .inr ⟨hne, halign, by rw [hb]; exact hzero, by rw [hb]; exact hlo, by rw [hb]; exact hhi, by rw [hb]; exact hin,
      fun i hi => ?_, ?_⟩
    · rw [hb] at hi
      dsimp only
      rw [he i hi]
      exact hrules i hi
    · rw [hb, hl]
      exact List.map_congr_left fun i hi => by dsimp only; rw [he i (List.mem_range.1 hi)]

end

/-- A DECODE that fits still fits once STATE has changed in its record. -/
theorem stageFits_kept {s t : State} {rid : Nat} {r q : Request} {d : Bytes} {l : List (Nat × Nat × Nat × Nat)}
    (h : Claim.stageFits s rid 0x15 r d l) (haddr : q.addr = r.addr) (hstage : tabGet {} q.stages 0x15 = tabGet {} r.stages 0x15)
    (hmem : ∀ j, j < r.addr + 184 ∨ r.addr + 186 ≤ j → memGet t.mem.bytes j = memGet s.mem.bytes j)
    (hmaps : Claim.apart ((tabGet {} r.stages 0x15).maps, 8 + 8 * l.length) r.addr 256)
    (hmodel : ∀ g ∈ Claim.modelRegions s (tabGet {} r.stages 0x15).param (fld d 16 8), Claim.apart g r.addr 256) :
    Claim.stageFits t rid 0x15 q (memRead t.mem.bytes r.addr 256) l := by
  obtain ⟨hd, hin, hok, hid, hlist, halign, -, -, -, -, -, hm⟩ := h
  have hwide : ∀ j, j < r.addr ∨ r.addr + 256 ≤ j → memGet t.mem.bytes j = memGet s.mem.bytes j := fun j hj => hmem j (by omega)
  have hsame : sameButState (memRead t.mem.bytes r.addr 256) d := by
    intro off n hn
    rw [hd, fld_memRead _ _ _ _ _ (by omega), fld_memRead _ _ _ _ _ (by omega), memRead_congr fun j h1 h2 => hmem j (by omega)]
  obtain ⟨hne, m, hm⟩ := hm (.inr rfl)
  unfold Claim.stageFits
  dsimp only
  rw [haddr, hstage, hsame 16 8 (.inl (by decide))]
  refine ⟨rfl, hin, (requestOk_sameButState hsame).trans hok, (hsame 8 8 (.inl (by decide))).trans hid, mapsRead_kept hwide hlist hmaps,
    halign, by simp, by simp, by simp, by simp, by simp, fun _ => ⟨hne, m, modelRead_kept hwide hm hmodel⟩⟩

end Sys2Proof.Proofs
end

