-- ==== Sys2Proof/Proofs/StageTurns.lean ====
section
/-! PROOFS. Stages begin, end and are cancelled (spec/13 R313, R338, R340, R342, spec/15 R384). -/

namespace Sys2Proof.Proofs

open Sys2Proof Sys2Proof.Machine Sys2Proof.Laws

/-! ### A stage begins -/

/-- STATE of a request whose stage `op` begins. -/
def begunState (r : Request) (op : Nat) : Nat := if op ≤ 0x12 then max r.state 1 else if op = 0x15 then 4 else r.state

/-- The request as its stage `op` begins with record `d` and maps `l`. -/
def begunReq (r : Request) (op : Nat) (d : Bytes) (l : List (Nat × Nat × Nat × Nat)) : Request :=
  { r with record := d, state := begunState r op }.modStage op fun g => { g with phase := .running, list := l }

theorem begunReq_phase (r : Request) (op : Nat) (d : Bytes) (l : List (Nat × Nat × Nat × Nat)) :
    (tabGet {} (begunReq r op d l).stages op).phase = .running := congrArg Stage.phase (tabGet_modStage _ _ _)

theorem begunReq_other (r : Request) {op o : Nat} (d : Bytes) (l : List (Nat × Nat × Nat × Nat)) (h : o ≠ op) :
    tabGet {} (begunReq r op d l).stages o = tabGet {} r.stages o := tabGet_modStage_ne _ _ h

/-- The last change of a stage that begins: PREFILL takes its budget, the others write STATE. -/
def begunLast (s : State) (r : Request) (op : Nat) : State :=
  if op = 0x14 then takeBudget s r (r.context - r.cached) else recPut s r 184 2 r.state

theorem purserSend_each {α : Type} {mod : α → Nat} {msg : α → PurserMsg} (rid : Nat) (l : List α) (s : State) :
    Asked s (l.foldl (fun s e => if mod e = ownModule s then s else purserSend s (mod e) (msg e)) s) rid ∧
    ∀ i, getReq (l.foldl (fun s e => if mod e = ownModule s then s else purserSend s (mod e) (msg e)) s) i = getReq s i := by
  induction l generalizing s with
  | nil => exact ⟨.refl s rid, fun _ => rfl⟩
  | cons e l ih =>
    rw [List.foldl_cons]
    split
    · exact ih s
    · obtain ⟨h1, h2⟩ := ih (purserSend s (mod e) (msg e))
      exact ⟨(Asked.purserSend s rid _ _).trans h1, fun i => (h2 i).trans (purserSend_getReq _ _ _ i)⟩

/-- A stage whose checks pass begins. -/
theorem beginStage_of {s : State} {rid op : Nat} {r : Request} {d : Bytes} {l : List (Nat × Nat × Nat × Nat)} {c : PCmd}
    (hr : getReq s rid = some r) (hs : Claim.clean s) (ho : Claim.openTo s (whoPurser (some r.ctx))) (hop : 0x10 ≤ op ∧ op ≤ 0x16)
    (hc : getCmd s (tabGet {} r.stages op).cmd = some c) (hfits : Claim.stageFits s rid op r d l) :
    ∃ v, Asked s v rid ∧ (∀ i, getReq v i = getReq s i) ∧ beginStage s rid op = (.ok, begunLast
      (putCmd (putReq v rid (begunReq r op d l)) (tabGet {} r.stages op).cmd { c with phase := .running }) (begunReq r op d l) op) := by
  have hread : Reads s (do
      let d ← rd (whoPurser (some r.ctx)) r.addr 256
      let m ← stageCheck rid { r with record := d } op (tabGet {} r.stages op)
      return (d, m)) (d, l) :=
    .bind (.rd hs ho hfits.2.1 hfits.1) (.bind (stageCheck_reads hs ho hop hfits) (.pure _))
  obtain ⟨u, hu, hch⟩ := hread.run
  obtain ⟨hsent, hget⟩ := purserSend_each (mod := fun e : Nat × Nat × Nat × Nat => e.1)
    (msg := fun e => .mapWant e.2.1 e.2.2.1 e.2.2.2) rid l u
  refine ⟨_, (hch.asked rid).trans hsent, fun i => (hget i).trans (hch.getReq i), ?_⟩
  rw [beginStage, hr]
  dsimp only
  rw [hu]
  dsimp only
  obtain ⟨v, hv⟩ : ∃ v, v = l.foldl (fun s e => if e.1 = ownModule s then s else purserSend s e.1 (.mapWant e.2.1 e.2.2.1 e.2.2.2)) u :=
    ⟨_, rfl⟩
  have hcv : getCmd (putReq v rid (begunReq r op d l)) (tabGet {} r.stages op).cmd = some c := by
    refine (getCmd_of_cmds ?_ _).trans hc
    exact (hv ▸ (hch.asked rid).trans hsent : Asked s v rid).cmds
  rw [← hv]
  unfold begunReq begunState at hcv
  rw [hcv]
  rfl

/-- What a stage that begins as `q`, its command `id` held as `c`, leaves. -/
structure Begun (s t : State) (rid op id : Nat) (c : PCmd) (q : Request) : Prop where
  others : Claim.otherReqs s t rid
  req : getReq t rid = some q
  cmd : getCmd t id = some { c with phase := .running }
  cmds (i : Nat) (h : i ≠ id) : getCmd t i = getCmd s i
  clean : Claim.clean t
  openTo : Claim.openTo t (whoPurser (some q.ctx))
  kept (a : Nat) (h : a < q.addr + 184 ∨ q.addr + 186 ≤ a) : memGet t.mem.bytes a = memGet s.mem.bytes a
  prefill (h : op = 0x14) : t.mem = s.mem ∧ (underBudget s q = true → (getClass t q.cls).budget.toNat =
    (getClass s q.cls).budget.toNat - (q.context - q.cached))
  state (h : op ≠ 0x14) : leNat (memRead t.mem.bytes (q.addr + 184) 2) = q.state % 65536 ∧ t.pur.classes = s.pur.classes

theorem underBudget_asked {s t : State} {rid : Nat} (h : Asked s t rid) (r : Request) : underBudget t r = underBudget s r := by
  rw [underBudget, h.eq, underBudget]

theorem takeBudget_of {s : State} {r : Request} {n : Nat} (h : underBudget s r = true) :
    takeBudget s r n = modClass s r.cls fun x => { x with budget := BitVec.ofNat 48 (x.budget.toNat - n) } := if_pos h

theorem takeBudget_eq (s : State) (r : Request) (n : Nat) :
    takeBudget s r n = { s with pur := { s.pur with classes := (takeBudget s r n).pur.classes } } := by
  unfold takeBudget
  split <;> rfl

/-- A budget from which tokens are taken stops at 0. -/
theorem takeBudget_budget {s : State} {r : Request} {n : Nat} (h : underBudget s r = true) :
    (getClass (takeBudget s r n) r.cls).budget.toNat = (getClass s r.cls).budget.toNat - n := by
  rw [takeBudget_of h, getClass, modClass]
  dsimp only
  rw [tabGet_tabMod_self, BitVec.toNat_ofNat]
  exact Nat.mod_eq_of_lt (by have := (tabGet {} s.pur.classes r.cls).budget.isLt; omega)

theorem begins {s : State} {rid op : Nat} {r : Request} {d : Bytes} {l : List (Nat × Nat × Nat × Nat)} {c : PCmd}
    (hr : getReq s rid = some r) (hs : Claim.clean s) (ho : Claim.openTo s (whoPurser (some r.ctx))) (hop : 0x10 ≤ op ∧ op ≤ 0x16)
    (hc : getCmd s (tabGet {} r.stages op).cmd = some c) (hfits : Claim.stageFits s rid op r d l) :
    ∃ t, beginStage s rid op = (.ok, t) ∧ Begun s t rid op (tabGet {} r.stages op).cmd c (begunReq r op d l) := by
  obtain ⟨v, hv, hget, hrow⟩ := beginStage_of hr hs ho hop hc hfits
  have hin : r.addr + 256 ≤ wheelBase := hfits.2.1
  refine ⟨_, hrow, ?_⟩
  obtain ⟨q, hq⟩ : ∃ q, q = begunReq r op d l := ⟨_, rfl⟩
  have haddr : q.addr = r.addr := by rw [hq]; rfl
  have hctx : q.ctx = r.ctx := by rw [hq]; rfl
  obtain ⟨id, hid⟩ : ∃ id, id = (tabGet {} r.stages op).cmd := ⟨_, rfl⟩
  rw [← hq, ← hid]
  obtain ⟨w, hw⟩ : ∃ w, w = putCmd (putReq v rid q) id { c with phase := .running } := ⟨_, rfl⟩
  rw [← hw]
  have hput := hv.trans (.putReq v rid q)
  have hwmem : w.mem = s.mem := by rw [hw]; exact hput.mem
  have hwprt : SamePrt s.prt w.prt := by rw [hw]; exact hput.prt
  have hwreqs : w.pur.reqs = (putReq v rid q).pur.reqs := by rw [hw]; rfl
  have hwcls : w.pur.classes = s.pur.classes := by rw [hw]; exact (congrArg (fun u : State => u.pur.classes) hput.eq :)
  have hwothers : Claim.otherReqs s w rid := otherReqs_trans hput.others (otherReqs_of_reqs hwreqs rid)
  have hwreq : getReq w rid = some q := (getReq_of_reqs hwreqs rid).trans (getReq_putReq v rid q)
  have hwcmd : getCmd w id = some { c with phase := .running } := by rw [hw]; exact tabFind_tabPut_self _ _ _
  have hwcmds (i : Nat) (h : i ≠ id) : getCmd w i = getCmd s i := by
    rw [hw]
    refine (tabFind_tabPut _ _ _ _).trans ((if_neg h.symm).trans ?_)
    exact getCmd_of_cmds hput.cmds i
  have hwclean := clean_of_mem hs hwmem
  have hwopen : Claim.openTo w (whoPurser (some q.ctx)) := openTo_of_samePrt hwprt (by rw [hctx]; exact ho)
  unfold begunLast
  by_cases h14 : op = 0x14
  · rw [if_pos h14]
    obtain ⟨t, ht⟩ : ∃ t, t = takeBudget w q (q.context - q.cached) := ⟨_, rfl⟩
    have heq : t = { w with pur := { w.pur with classes := t.pur.classes } } := by rw [ht]; exact takeBudget_eq _ _ _
    rw [← ht]
    have hreqs : t.pur.reqs = w.pur.reqs := by rw [heq]
    have hcmds : t.pur.cmds = w.pur.cmds := by rw [heq]
    have hmem : t.mem = s.mem := (congrArg State.mem heq).trans hwmem
    refine ⟨otherReqs_trans hwothers (otherReqs_of_reqs hreqs rid), (getReq_of_reqs hreqs rid).trans hwreq,
      (getCmd_of_cmds hcmds id).trans hwcmd, fun i h => (getCmd_of_cmds hcmds i).trans (hwcmds i h), clean_of_mem hs hmem,
      by rw [heq]; exact hwopen, fun a _ => by rw [hmem], fun _ => ⟨hmem, fun hb => ?_⟩, fun h => absurd h14 h⟩
    have hb' : underBudget w q = true := by rw [hw]; exact (underBudget_asked hput q).trans hb
    rw [ht, takeBudget_budget hb', getClass, hwcls, getClass]
  · rw [if_neg h14]
    have hwrote := recPut_wrote hwclean hwopen (off := 184) (n := 2) (by omega) q.state
    obtain ⟨t, ht⟩ : ∃ t, t = recPut w q 184 2 q.state := ⟨_, rfl⟩
    rw [← ht] at hwrote ⊢
    refine ⟨otherReqs_trans hwothers (otherReqs_of_reqs (by rw [hwrote.pur]) rid), (getReq_of_reqs (by rw [hwrote.pur]) rid).trans hwreq,
      (getCmd_of_cmds (by rw [hwrote.pur]) id).trans hwcmd, fun i h => (getCmd_of_cmds (by rw [hwrote.pur]) i).trans (hwcmds i h),
      hwrote.clean hwclean, openTo_of_samePrt hwrote.prt hwopen, fun a ha => ?_, fun h => absurd h h14,
      fun _ => ⟨recPut_field hwrote, by rw [hwrote.pur, hwcls]⟩⟩
    rw [hwrote.outside (by rw [toLe_length]; exact ha), hwmem]

/-! ### STAGE_START -/

/-- A stage whose turn has come has its command in hand. -/
theorem waits_cmd {s : State} {r : Request} {op : Nat} (h : Claim.stageWaits s r op) : ∃ c, getCmd s (tabGet {} r.stages op).cmd = some c := by
  obtain ⟨-, hready, -⟩ := h
  rw [stageReady] at hready
  cases hc : getCmd s (tabGet {} r.stages op).cmd with
  | none => rw [hc] at hready; simp at hready
  | some c => exact ⟨c, rfl⟩

theorem waits_notOver {s : State} {r : Request} {op : Nat} (h : Claim.stageWaits s r op) : (tabGet {} r.stages op).over = false := by
  obtain ⟨-, hready, -⟩ := h
  simp only [stageReady, Bool.and_eq_true, decide_eq_true_eq] at hready
  rw [Stage.over, hready.1.1.1]

theorem waits_find {s : State} {r : Request} {op : Nat} (h : Claim.stageWaits s r op) : tabFind r.stages op = some (tabGet {} r.stages op) := by
  obtain ⟨g, hg⟩ := Option.isSome_iff_exists.1 h.1
  rw [tabGet_of_find, hg]
  rfl

section
variable {s t : State} {rid op : Nat} {r : Request} (hr : getReq s rid = some r) (hop : op < 0x15) (h : Claim.stageWaits s r op)
  (hworks : purWorks s = true)
include hr hop h hworks

/-- A stage other than DECODE and POUR starts by itself. -/
theorem stageStart_begins (hb : beginStage s rid op = (.ok, t)) : stageStart s rid op = t := by
  have ⟨_, hready, hstop⟩ := h
  rw [stageStart, hr]
  dsimp only
  rw [waits_find h]
  dsimp only
  rw [hworks, hready, hstop, if_neg (by decide)]
  dsimp only
  rw [if_neg (by simp; omega), hb]

theorem stageStart_fails {st : Status} (hst : st ≠ .ok) (hb : beginStage s rid op = (st, t)) : stageStart s rid op = finishReq t rid st := by
  have ⟨_, hready, hstop⟩ := h
  rw [stageStart, hr]
  dsimp only
  rw [waits_find h]
  dsimp only
  rw [hworks, hready, hstop, if_neg (by decide)]
  dsimp only
  rw [if_neg (by simp; omega), hb]
  split
  · next hok => exact absurd (Prod.mk.inj hok).1 hst
  · next hok => rw [(Prod.mk.inj hok).1, (Prod.mk.inj hok).2]

end

/-- DECODE and POUR start together, POUR first. -/
theorem stageStart_both {s t u : State} {rid op : Nat} {r : Request} (hr : getReq s rid = some r) (hop : op = 0x15 ∨ op = 0x16)
    (h15 : Claim.stageWaits s r 0x15) (h16 : Claim.stageWaits s r 0x16) (hworks : purWorks s = true)
    (hb : beginStage s rid 0x16 = (.ok, t)) (hb' : beginStage t rid 0x15 = (.ok, u)) : stageStart s rid op = u := by
  have ⟨_, hready15, hstop15⟩ := h15
  have ⟨_, hready16, hstop16⟩ := h16
  rw [stageStart, hr]
  dsimp only
  obtain rfl | rfl := hop
  · rw [waits_find h15]
    dsimp only
    rw [hworks, hready15, hstop15, if_neg (by decide)]
    dsimp only
    rw [if_pos (by decide), if_pos rfl, waits_find h16]
    dsimp only
    rw [hready16, if_neg (by decide), hb]
    dsimp only
    rw [hb']
  · rw [waits_find h16]
    dsimp only
    rw [hworks, hready16, hstop16, if_neg (by decide)]
    dsimp only
    rw [if_pos (by decide), if_neg (by decide), waits_find h15]
    dsimp only
    rw [hready15, if_neg (by decide), hb]
    dsimp only
    rw [hb']

section
variable {s : State} {rid : Nat} {r : Request} {d : Bytes} {l : List (Nat × Nat × Nat × Nat)} (hr : getReq s rid = some r)
  (hworks : purWorks s = true) (hs : Claim.clean s) (ho : Claim.openTo s (whoPurser (some r.ctx)))
include hr hworks hs ho

theorem stage_starts {op : Nat} (hlo : 0x10 ≤ op) (hop : op < 0x15) (h : Claim.stageWaits s r op) (hfits : Claim.stageFits s rid op r d l) :
    ∃ c, getCmd s (tabGet {} r.stages op).cmd = some c ∧
      Does (.stageStart rid op) s fun t => Begun s t rid op (tabGet {} r.stages op).cmd c (begunReq r op d l) := by
  obtain ⟨c, hc⟩ := waits_cmd h
  obtain ⟨t, ht, hbegun⟩ := begins hr hs ho ⟨hlo, by omega⟩ hc hfits
  exact ⟨c, hc, does_of (congrArg Host.Outcome.next (stageStart_begins hr hop h hworks ht)) hbegun⟩

/-- DECODE and POUR begin one after the other. -/
theorem both_start (h15 : Claim.stageWaits s r 0x15) (h16 : Claim.stageWaits s r 0x16)
    (hcmds : (tabGet {} r.stages 0x15).cmd ≠ (tabGet {} r.stages 0x16).cmd) (hfits16 : Claim.stageFits s rid 0x16 r d [])
    (hfits15 : Claim.stageFits s rid 0x15 r d l) (hmaps : Claim.apart ((tabGet {} r.stages 0x15).maps, 8 + 8 * l.length) r.addr 256)
    (hmodel : ∀ g ∈ Claim.modelRegions s (tabGet {} r.stages 0x15).param (fld d 16 8), Claim.apart g r.addr 256)
    {op : Nat} (hop : op = 0x15 ∨ op = 0x16) : ∃ c c' t d', getCmd s (tabGet {} r.stages 0x16).cmd = some c ∧
      getCmd s (tabGet {} r.stages 0x15).cmd = some c' ∧ Begun s t rid 0x16 (tabGet {} r.stages 0x16).cmd c (begunReq r 0x16 d []) ∧
      Does (.stageStart rid op) s fun u =>
        Begun t u rid 0x15 (tabGet {} r.stages 0x15).cmd c' (begunReq (begunReq r 0x16 d []) 0x15 d' l) := by
  obtain ⟨c, hc⟩ := waits_cmd h16
  obtain ⟨c', hc'⟩ := waits_cmd h15
  obtain ⟨t, ht, hbegun⟩ := begins hr hs ho ⟨by decide, by decide⟩ hc hfits16
  have hstage : tabGet {} (begunReq r 0x16 d []).stages 0x15 = tabGet {} r.stages 0x15 := tabGet_modStage_ne _ _ (by decide)
  have hfits := stageFits_kept (t := t) (q := begunReq r 0x16 d []) hfits15 rfl hstage hbegun.kept hmaps hmodel
  obtain ⟨u, hu, hbegun'⟩ := begins hbegun.req hbegun.clean hbegun.openTo ⟨by decide, by decide⟩
    (c := c') (by rw [hstage, hbegun.cmds _ hcmds]; exact hc') hfits
  rw [hstage] at hbegun'
  exact ⟨c, c', t, _, hc, hc', hbegun, does_of (congrArg Host.Outcome.next (stageStart_both hr hop h15 h16 hworks ht hu)) hbegun'⟩

end

/-! ### A request ends -/

/-- No request changes, and no command comes. -/
structure Settles (s t : State) : Prop where
  reqs : t.pur.reqs = s.pur.reqs
  gone (i : Nat) (h : getCmd s i = none) : getCmd t i = none

theorem Settles.refl (s : State) : Settles s s := ⟨rfl, fun _ h => h⟩

theorem Settles.trans {s t u : State} (h : Settles s t) (h' : Settles t u) : Settles s u :=
  ⟨h'.reqs.trans h.reqs, fun i hi => h'.gone i (h.gone i hi)⟩

theorem settles_of {s t : State} (hreqs : t.pur.reqs = s.pur.reqs) (hcmds : t.pur.cmds = s.pur.cmds) : Settles s t :=
  ⟨hreqs, fun i h => (getCmd_of_cmds hcmds i).trans h⟩

theorem settles_foldl {α : Type} {f : State → α → State} (l : List α) (s : State) (h : ∀ s x, x ∈ l → Settles s (f s x)) :
    Settles s (l.foldl f s) := by
  induction l generalizing s with
  | nil => exact .refl s
  | cons x l ih => exact (h s x List.mem_cons_self).trans (ih _ fun s y hy => h s y (List.mem_cons_of_mem _ hy))

theorem endPlain_cmds (s : State) (id : Nat) (st : Status) : (endPlain s id st).pur.cmds = tabDel s.pur.cmds id ∨
    (endPlain s id st).pur.cmds = s.pur.cmds := by
  cases h : getCmd s id with
  | none => rw [endPlain_none h]; exact .inr rfl
  | some c =>
    obtain ⟨d, hd⟩ := endPlain_of h st
    rw [hd]
    exact .inl rfl

theorem settles_endPlain (s : State) (id : Nat) (st : Status) : Settles s (endPlain s id st) := by
  refine ⟨endPlain_reqs s id st, fun i hi => ?_⟩
  obtain h | h := endPlain_cmds s id st
  · rw [getCmd, h, tabFind_tabDel]
    split
    · rfl
    · exact hi
  · rw [getCmd, h]
    exact hi

/-- A command is gone once it has ended. -/
theorem endPlain_gone (s : State) (id : Nat) (st : Status) : getCmd (endPlain s id st) id = none := by
  cases h : getCmd s id with
  | none => exact (settles_endPlain s id st).gone id h
  | some c => exact endPlain_getCmd h st

/-- Pages that go back leave memory, requests and commands. -/
theorem freePages_keeps (s : State) (l : List Nat) : Settles s (freePages s l) ∧ (freePages s l).mem = s.mem := by
  unfold freePages
  induction l generalizing s with
  | nil => exact ⟨.refl s, rfl⟩
  | cons g l ih =>
    rw [List.foldl_cons]
    obtain ⟨h, hm⟩ := ih (if globalModule g = ownModule s then { s with pur := { s.pur with kv := s.pur.kv.erase (localPart g) } }
      else purserSend s (globalModule g) (.kvFree [localPart g]))
    have hone : Settles s (if globalModule g = ownModule s then { s with pur := { s.pur with kv := s.pur.kv.erase (localPart g) } }
        else purserSend s (globalModule g) (.kvFree [localPart g])) := by
      split
      · exact settles_of rfl rfl
      · exact settles_of (by rw [purserSend_eq]) (by rw [purserSend_eq])
    refine ⟨hone.trans h, hm.trans ?_⟩
    split
    · rfl
    · rw [purserSend_eq]

theorem rd_pur {s t : State} {w : Who} {a n : Nat} {x : Except Status Bytes} (h : runActVal (rd w a n) s = (x, t)) : t.pur = s.pur := by
  have hfr := ((rd_fr (w := w) (a := a) (n := n) (mk := 1048620) (s00 := s) (by decide)).val (Fr.refl _ s)).same .pur rfl
  rw [h] at hfr
  exact hfr

theorem wrNat_pur (s : State) (w : Who) (a n v : Nat) : (runAct (wrNat w a n v) s).2.pur = s.pur := by
  exact ((wr_fr (w := w) (a := a) (b := toLe n v) (m := 1048620) (by decide)).run (Fr.refl _ s)).same .pur rfl

theorem settles_of_pur {s t : State} (h : t.pur = s.pur) : Settles s t := settles_of (by rw [h]) (by rw [h])

theorem settles_dropRef (f g : Nat) (s : State) : Settles s (dropRef f g s) := by
  induction f generalizing g s with
  | zero => exact .refl s
  | succ f ih =>
    rw [dropRef]
    dsimp only
    split
    · exact settles_of (by rw [purserSend_eq]) (by rw [purserSend_eq])
    · split
      · next h => exact settles_of_pur (rd_pur h)
      · next d t h =>
        have ht := settles_of_pur (rd_pur h)
        split
        · exact ht
        · have hw := ht.trans (settles_of_pur (wrNat_pur t (whoPurser none) (localPart g + 44) 4 (fld d 44 4 - 1)))
          split
          · split
            · exact hw.trans (freePages_keeps _ _).1
            · exact (hw.trans (freePages_keeps _ _).1).trans (ih _ _)
          · exact hw

/-- The stage commands of a request that are not over complete. -/
def stagesEnded (s : State) (r : Request) (st : Status) : State :=
  r.stages.foldl (fun s p => if p.2.over then s else endPlain (claimReports s p.2) p.2.cmd st) s

/-- The CANCELs that wait for it complete. -/
def cancelsEnded (s : State) (r : Request) : State :=
  r.events.foldl (fun s e => match e with | .cancel id => endPlain s id .lateCancel | _ => s) s

/-- STATUS and STATE of a request that ends. -/
def endWritten (s : State) (r : Request) (st : Status) : State := recPut (recPut s r 186 2 st.code) r 184 2 5

/-- What a request held goes back. -/
def refsFreed (s : State) (r : Request) : State :=
  freePages (r.chain.foldl (fun s g => dropRef chainFuel g s) s) (r.pages.map (·.2) ++ grantedPages r)

theorem finishReq_of {s : State} {rid : Nat} {r : Request} (h : getReq s rid = some r) (st : Status) :
    let t := refsFreed (endWritten (cancelsEnded (stagesEnded s r st) r) r st) r
    finishReq s rid st = { t with pur := { t.pur with
      reqs := tabDel t.pur.reqs rid
      models := tabMap (fun _ m => { m with chosen := m.chosen.filter (· ≠ rid) }) t.pur.models } } := by
  rw [finishReq, h]
  rfl

theorem claimReports_eq (s : State) (g : Stage) : claimReports s g = { s with pur := { s.pur with reports := (claimReports s g).pur.reports } } := rfl

theorem stagesEnded_keeps (s : State) (r : Request) (st : Status) :
    Settles s (stagesEnded s r st) ∧ (stagesEnded s r st).mem = s.mem ∧ (stagesEnded s r st).prt = s.prt ∧
    ∀ p ∈ r.stages, p.2.over = false → getCmd (stagesEnded s r st) p.2.cmd = none := by
  unfold stagesEnded
  generalize r.stages = l
  induction l generalizing s with
  | nil => exact ⟨.refl s, rfl, rfl, fun _ h => absurd h List.not_mem_nil⟩
  | cons p l ih =>
    rw [List.foldl_cons]
    cases hover : p.2.over with
    | true =>
      obtain ⟨h1, h2, h3, h4⟩ := ih s
      refine ⟨h1, h2, h3, fun q hq hq' => ?_⟩
      obtain rfl | hq := List.mem_cons.1 hq
      · exact absurd (hover.symm.trans hq') (by decide)
      · exact h4 q hq hq'
    | false =>
      obtain ⟨h1, h2, h3, h4⟩ := ih (endPlain (claimReports s p.2) p.2.cmd st)
      have hone : Settles s (endPlain (claimReports s p.2) p.2.cmd st) :=
        (settles_of rfl rfl : Settles s (claimReports s p.2)).trans (settles_endPlain _ _ _)
      refine ⟨hone.trans h1, h2.trans (endPlain_mem _ _ _), h3.trans (by rw [endPlain_eq]; rfl), fun q hq hq' => ?_⟩
      obtain rfl | hq := List.mem_cons.1 hq
      · exact h1.gone _ (endPlain_gone _ _ _)
      · exact h4 q hq hq'

theorem cancelsEnded_keeps (s : State) (r : Request) :
    Settles s (cancelsEnded s r) ∧ (cancelsEnded s r).mem = s.mem ∧ (cancelsEnded s r).prt = s.prt := by
  unfold cancelsEnded
  generalize r.events = l
  induction l generalizing s with
  | nil => exact ⟨.refl s, rfl, rfl⟩
  | cons e l ih =>
    rw [List.foldl_cons]
    cases e with
    | cancel id =>
      obtain ⟨h1, h2, h3⟩ := ih (endPlain s id .lateCancel)
      exact ⟨(settles_endPlain s id .lateCancel).trans h1, h2.trans (endPlain_mem _ _ _), h3.trans (by rw [endPlain_eq])⟩
    | _ => exact ih s

theorem settles_recPut (s : State) (r : Request) (off n v : Nat) : Settles s (recPut s r off n v) := settles_of_pur (wrNat_pur s _ _ _ _)

theorem settles_refsFreed (s : State) (r : Request) : Settles s (refsFreed s r) :=
  (settles_foldl r.chain s fun s g _ => settles_dropRef chainFuel g s).trans (freePages_keeps _ _).1

/-- A request that has ended is gone with its stage commands; the others are as before. -/
theorem finishReq_gone {s : State} {rid : Nat} {r : Request} (h : getReq s rid = some r) (st : Status) :
    Claim.otherReqs s (finishReq s rid st) rid ∧ getReq (finishReq s rid st) rid = none ∧
    (∀ i, getCmd s i = none → getCmd (finishReq s rid st) i = none) ∧
    ∀ p ∈ r.stages, p.2.over = false → getCmd (finishReq s rid st) p.2.cmd = none := by
  rw [finishReq_of h]
  obtain ⟨hstages, -, -, hgone⟩ := stagesEnded_keeps s r st
  have hrest : Settles (stagesEnded s r st) (refsFreed (endWritten (cancelsEnded (stagesEnded s r st) r) r st) r) :=
    (((cancelsEnded_keeps _ r).1.trans (settles_recPut _ _ _ _ _)).trans (settles_recPut _ _ _ _ _)).trans (settles_refsFreed _ _)
  obtain ⟨t, ht⟩ : ∃ t, t = refsFreed (endWritten (cancelsEnded (stagesEnded s r st) r) r st) r := ⟨_, rfl⟩
  dsimp only
  rw [← ht] at hrest ⊢
  have hall := hstages.trans hrest
  refine ⟨fun i hi => ?_, ?_, fun i hi => hall.gone i hi, fun p hp hover => hrest.gone _ (hgone p hp hover)⟩
  · rw [getReq]
    dsimp only
    rw [tabFind_tabDel, if_neg hi.symm, hall.reqs, getReq]
  · rw [getReq]
    dsimp only
    rw [tabFind_tabDel, if_pos rfl]

/-- The record of a request that ends without a PREFIX shows STATE 5 and the status, and nothing else in memory changes. -/
theorem finishReq_record {s : State} {rid : Nat} {r : Request} (h : getReq s rid = some r) (st : Status) (hs : Claim.clean s)
    (ho : Claim.openTo s (whoPurser (some r.ctx))) (hin : r.addr + 256 ≤ wheelBase) (hchain : r.chain = []) :
    leNat (memRead (finishReq s rid st).mem.bytes (r.addr + 184) 2) = 5 ∧
    leNat (memRead (finishReq s rid st).mem.bytes (r.addr + 186) 2) = st.code % 65536 ∧
    ∀ a, a < r.addr + 184 ∨ r.addr + 188 ≤ a → memGet (finishReq s rid st).mem.bytes a = memGet s.mem.bytes a := by
  rw [finishReq_of h]
  obtain ⟨-, hm1, hp1, -⟩ := stagesEnded_keeps s r st
  obtain ⟨-, hm2, hp2⟩ := cancelsEnded_keeps (stagesEnded s r st) r
  obtain ⟨u, hu⟩ : ∃ u, u = cancelsEnded (stagesEnded s r st) r := ⟨_, rfl⟩
  dsimp only
  rw [← hu] at hm2 hp2 ⊢
  have hum := hm2.trans hm1
  have huc := clean_of_mem hs hum
  have huo : Claim.openTo u (whoPurser (some r.ctx)) := openTo_of_samePrt (by rw [hp2, hp1]; exact .refl _) ho
  have h1 := recPut_wrote huc huo (off := 186) (n := 2) (by omega) st.code
  have h2 := recPut_wrote (h1.clean huc) (openTo_of_samePrt h1.prt huo) (off := 184) (n := 2) (by omega) 5
  have hmem : (refsFreed (endWritten u r st) r).mem = (endWritten u r st).mem := by
    rw [refsFreed, hchain]
    exact (freePages_keeps _ _).2
  obtain ⟨v, hv⟩ : ∃ v, v = recPut u r 186 2 st.code := ⟨_, rfl⟩
  obtain ⟨w, hw⟩ : ∃ w, w = endWritten u r st := ⟨_, rfl⟩
  have hvw : recPut v r 184 2 5 = w := by rw [hw, hv]; rfl
  rw [← hv] at h1 h2
  rw [hvw] at h2
  rw [hmem, ← hw]
  refine ⟨recPut_field h2, ?_, fun a ha => ?_⟩
  · rw [memRead_congr fun j _ _ => h2.outside (by rw [toLe_length]; omega), recPut_field h1]
    rfl
  · rw [h2.outside (by rw [toLe_length]; omega), h1.outside (by rw [toLe_length]; omega), hum]

/-- A stage whose record breaks a rule, or is another request's, does not begin. -/
theorem beginStage_refuses {s : State} {rid op : Nat} {r : Request} (hr : getReq s rid = some r) (hs : Claim.clean s)
    (ho : Claim.openTo s (whoPurser (some r.ctx))) (hin : r.addr + 256 ≤ wheelBase)
    (hbad : requestOk (memRead s.mem.bytes r.addr 256) = false ∨ fld (memRead s.mem.bytes r.addr 256) 8 8 ≠ rid) :
    ∃ t, Charged s t ∧ beginStage s rid op = (.internal, t) := by
  obtain ⟨t, ht, hch⟩ := rd_of_clean hs (ho _ _ false hin)
  refine ⟨t, hch, ?_⟩
  rw [beginStage, hr]
  dsimp only
  rw [runActVal_bind_ok ht, runActVal_bind_error (stageCheck_refuses hbad)]

theorem stagesStart : Claim.stagesStart := by
  refine ⟨fun rid op r s hr hlo hop h hworks hs ho => ⟨fun d l hfits => ?_, fun hin hchain hbad => ?_⟩, ?_⟩
  · obtain ⟨c, hc, hdoes⟩ := stage_starts hr hworks hs ho hlo hop h hfits
    have hstate : begunState r op = if op ≤ 0x12 then max r.state 1 else r.state := by
      unfold begunState
      rw [if_neg (by omega : ¬ op = 0x15)]
    refine does_mono hdoes fun t hb => ?_
    dsimp only
    rw [← hstate]
    refine ⟨hb.others, fun c' hc' => ?_, ⟨_, hb.req, rfl, rfl, ?_, fun o ho => tabFind_modStage_ne _ _ ho⟩, hb.prefill, hb.state, hb.kept⟩
    · rw [hc] at hc'
      cases hc'
      exact hb.cmd
    · exact (tabFind_tabPut_self _ _ _ :)
  · have hfld : fld (memRead s.mem.bytes r.addr 256) 8 8 = leNat (memRead s.mem.bytes (r.addr + 8) 8) := fld_memRead _ _ _ _ _ (by decide)
    obtain ⟨t, hch, ht⟩ := beginStage_refuses (op := op) hr hs ho hin (by rw [hfld]; exact hbad)
    have hrow := stageStart_fails hr hop h hworks (by decide) ht
    have hreq : getReq t rid = some r := (hch.getReq rid).trans hr
    obtain ⟨hother, hnone, hgone, hstages⟩ := finishReq_gone hreq .internal
    obtain ⟨h1, h2, h3⟩ := finishReq_record hreq .internal (clean_of_mem hs hch.mem) (openTo_of_samePrt hch.prt ho) hin hchain
    refine does_of (congrArg Host.Outcome.next hrow) ⟨otherReqs_trans (hch.asked rid).others hother, hnone, ?_, h1, h2, fun a ha => ?_⟩
    · exact hstages (op, tabGet {} r.stages op) (mem_of_tabFind (waits_find h)) (waits_notOver h)
    · rw [h3 a ha, hch.mem]
  · intro rid r d l s hr hworks hs ho h15 h16 hcmds hfits16 hfits15 hmaps hmodel op hop
    obtain ⟨c, c', t, d', hc, hc', hb, hdoes⟩ := both_start hr hworks hs ho h15 h16 hcmds hfits16 hfits15 hmaps hmodel hop
    refine does_mono hdoes fun u hb' => ⟨otherReqs_trans hb.others hb'.others, fun x hx => ?_, fun x hx => ?_,
      ⟨_, hb'.req, ?_, ?_, rfl⟩, (hb'.state (by decide)).1, fun a ha => (hb'.kept a ha).trans (hb.kept a ha)⟩
    · rw [hc'] at hx
      cases hx
      exact hb'.cmd
    · rw [hc] at hx
      cases hx
      rw [hb'.cmds _ hcmds.symm]
      exact hb.cmd
    · exact begunReq_phase _ _ _ _
    · rw [begunReq_other _ _ _ (by decide)]
      exact begunReq_phase _ _ _ _

/-! ### STAGE_COMPLETE -/

/-- A request and the state as a stage of it completes: a PREFILL is admitted. -/
def admittedAs (s : State) (r : Request) (op : Nat) : State × Request := if op = 0x14 then admitRequest s r else (s, r)

theorem admittedAs_state (s : State) (r : Request) (op : Nat) : (admittedAs s r op).1 =
    { s with pur := { s.pur with admissions := if op = 0x14 then s.pur.admissions + 1 else s.pur.admissions } } := by
  unfold admittedAs
  split <;> rfl

theorem admittedAs_stages (s : State) (r : Request) (op : Nat) : (admittedAs s r op).2.stages = r.stages := by
  unfold admittedAs
  split <;> rfl

/-- A stage before DECODE that ends well completes, and its request goes on. -/
theorem stageEnds_good {s : State} {rid op : Nat} {r : Request} {st : Status} (hr : getReq s rid = some r) (hgood : st.good = true)
    (hop : op < 0x15) : stageEnds s rid op st =
      putReq (endPlain (claimReports (admittedAs s r op).1 (tabGet {} r.stages op)) (tabGet {} r.stages op).cmd st) rid
        ((admittedAs s r op).2.modStage op fun g => { g with phase := .ended st }) := by
  have hno : (op = 0x15 || op = 0x16 : Bool) = false := by simp; omega
  rw [stageEnds, hr]
  dsimp only
  rw [hgood, if_neg (by decide), hno]
  rw [← admittedAs_stages s r op]
  rfl

theorem stageEnds_bad {s : State} {rid op : Nat} {r : Request} {st : Status} (hr : getReq s rid = some r) (hbad : st.good = false) :
    stageEnds s rid op st = finishReq s rid st := by
  rw [stageEnds, hr]
  dsimp only
  rw [hbad]
  rfl

/-- A map's failure is no good status. -/
theorem mapFailure_bad {s : State} {g : Stage} {st : Status} (h : mapFailure s g = some st) : st.good = false := by
  unfold mapFailure at h
  split at h
  · next x hx =>
    obtain ⟨e, -, he⟩ := List.exists_of_findSome?_eq_some hx
    obtain ⟨y, hy, rfl⟩ := Option.map_eq_some_iff.1 he
    have hhalts := List.find?_some hy
    rw [Bool.and_eq_true] at hhalts
    cases h
    revert hhalts
    cases y.status <;> simp [Status.halts, Status.good]
  · split at h
    · cases h; rfl
    · obtain ⟨e, -, he⟩ := List.exists_of_findSome?_eq_some h
      split at he
      · exact absurd he (by simp)
      · cases he; rfl

section
variable {s : State} {rid op : Nat} {r : Request} {c : PCmd} (hr : getReq s rid = some r)
include hr

omit hr in
theorem stage_known {st : StagePhase} (hst : st ≠ .held) (hphase : (tabGet {} r.stages op).phase = st) :
    (op, tabGet {} r.stages op) ∈ r.stages := by
  cases h : tabFind r.stages op with
  | none =>
    rw [tabGet_of_find, h] at hphase
    exact absurd hphase.symm hst
  | some g =>
    rw [tabGet_of_find, h]
    exact mem_of_tabFind h

/-- A stage that runs, or whose work is done, ends with its request. -/
theorem finishReq_stage (hmem : (op, tabGet {} r.stages op) ∈ r.stages) (hover : (tabGet {} r.stages op).over = false) (st : Status) :
    Claim.otherReqs s (finishReq s rid st) rid ∧ getReq (finishReq s rid st) rid = none ∧
      getCmd (finishReq s rid st) (tabGet {} r.stages op).cmd = none := by
  obtain ⟨hother, hnone, -, hstages⟩ := finishReq_gone hr st
  exact ⟨hother, hnone, hstages _ hmem hover⟩

section
variable {st : Status} (hphase : (tabGet {} r.stages op).phase = .worked st)
include hphase

theorem complete_good (hc : getCmd s (tabGet {} r.stages op).cmd = some c) (hgood : st.good = true)
    (hmap : mapFailure s (tabGet {} r.stages op) = none) (hin : mapsIn s (tabGet {} r.stages op) = true)
    (hstop : (tabGet {} r.stages op).stop = none) (hop : op < 0x15) : Does (.stageComplete rid op) s fun t =>
      Claim.otherReqs s t rid ∧ Claim.completes s t (tabGet {} r.stages op).cmd c st ∧ t.mem = s.mem ∧
      ∃ r', getReq t rid = some r' ∧ (tabGet {} r'.stages op).phase = .ended st ∧
        (op = 0x14 → r'.admitted = s.pur.admissions ∧ r'.waited = s.hub.time.toNat ∧ t.pur.admissions = s.pur.admissions + 1) ∧
        ∀ o, o ≠ op → tabFind r'.stages o = tabFind r.stages o := by
  have hrow : stageComplete s rid op = stageEnds s rid op st := by
    rw [stageComplete, hr]
    dsimp only
    rw [hphase]
    dsimp only
    rw [hgood, if_neg (by decide), hmap]
    dsimp only
    rw [hstop]
    dsimp only
    rw [hin, if_pos rfl]
  rw [stageEnds_good hr hgood hop] at hrow
  obtain ⟨u, hu⟩ : ∃ u, u = claimReports (admittedAs s r op).1 (tabGet {} r.stages op) := ⟨_, rfl⟩
  have hueq : u = { s with pur := { s.pur with admissions := if op = 0x14 then s.pur.admissions + 1 else s.pur.admissions, reports := u.pur.reports } } := by
    rw [hu, claimReports_eq, admittedAs_state]
  rw [← hu] at hrow
  have hdone := completes_endPlain (t := u) hc (by rw [hueq]) (by rw [hueq]) st
  refine does_of (congrArg Host.Outcome.next hrow) ⟨otherReqs_trans (otherReqs_of_reqs ((endPlain_reqs _ _ _).trans (by rw [hueq])) rid)
    (otherReqs_putReq _ _ _), completes_of_same hdone rfl rfl, (endPlain_mem _ _ _).trans (by rw [hueq]),
    ⟨_, getReq_putReq _ _ _, congrArg Stage.phase (tabGet_modStage _ _ _), fun h14 => ?_, fun o ho => ?_⟩⟩
  · refine ⟨?_, ?_, ?_⟩
    · rw [admittedAs, if_pos h14]; rfl
    · rw [admittedAs, if_pos h14]; rfl
    · have hadm : (putReq (endPlain u (tabGet {} r.stages op).cmd st) rid ((admittedAs s r op).2.modStage op fun g => { g with phase := .ended st })).pur.admissions =
          u.pur.admissions := by rw [putReq, endPlain_eq]
      rw [hadm, hueq]
      exact if_pos h14
  · rw [tabFind_modStage_ne _ _ ho, admittedAs_stages]

theorem complete_waits (hgood : st.good = true) (hmap : mapFailure s (tabGet {} r.stages op) = none)
    (hin : mapsIn s (tabGet {} r.stages op) = false) (hstop : (tabGet {} r.stages op).stop = none) :
    exec (.stageComplete rid op) s = .next s := by
  have hrow : stageComplete s rid op = s := by
    rw [stageComplete, hr]
    dsimp only
    rw [hphase]
    dsimp only
    rw [hgood, if_neg (by decide), hmap]
    dsimp only
    rw [hstop]
    dsimp only
    rw [hin, if_neg (by decide)]
  exact congrArg Host.Outcome.next hrow

theorem complete_bad (hbad : st.good = false) : Does (.stageComplete rid op) s fun t =>
    Claim.otherReqs s t rid ∧ getReq t rid = none ∧ getCmd t (tabGet {} r.stages op).cmd = none := by
  have hrow : stageComplete s rid op = finishReq s rid st := by
    rw [stageComplete, hr]
    dsimp only
    rw [hphase]
    dsimp only
    rw [hbad, if_pos (by decide), stageEnds_bad hr hbad]
  exact does_of (congrArg Host.Outcome.next hrow) (finishReq_stage hr (stage_known (by simp) hphase) (by rw [Stage.over, hphase]) st)

end

section
variable {st : Status} (hphase : (tabGet {} r.stages op).phase = .running) (hmap : mapFailure s (tabGet {} r.stages op) = some st)
include hphase hmap

theorem complete_mapStops : stageComplete s rid op = mapStops s rid op r st := by
  rw [stageComplete, hr]
  dsimp only
  rw [hphase]
  dsimp only
  rw [hmap]

theorem complete_mapEnds (hring : r.ring = none) : Does (.stageComplete rid op) s fun t =>
    Claim.otherReqs s t rid ∧ getReq t rid = none ∧ getCmd t (tabGet {} r.stages op).cmd = none := by
  have hrow := complete_mapStops hr hphase hmap
  have hpoured : r.poured op = false := by rw [Request.poured, hring]; rfl
  rw [mapStops, hpoured, if_neg (by decide), stageEnds_bad hr (mapFailure_bad hmap)] at hrow
  exact does_of (congrArg Host.Outcome.next hrow) (finishReq_stage hr (stage_known (by simp) hphase) (by rw [Stage.over, hphase]) st)

theorem complete_mapPours (hring : r.ring.isSome = true) (hop : op = 0x15 ∨ op = 0x16) (hterm : r.terminal = false)
    (hnew : .error st ∉ r.events) : Does (.stageComplete rid op) s fun t => Claim.otherReqs s t rid ∧
      getReq t rid = some { r with events := r.events ++ [.error st] } ∧ t = { s with pur := t.pur } := by
  have hrow := complete_mapStops hr hphase hmap
  have hpoured : r.poured op = true := by rw [Request.poured, hring]; simpa using hop
  have hcont : r.events.contains (.error st) = false := by simpa using hnew
  rw [mapStops, hpoured, if_pos rfl, hterm, hcont, if_neg (by decide), pushEvent, modReq_of hr] at hrow
  exact does_of (congrArg Host.Outcome.next hrow) ⟨otherReqs_putReq _ _ _, getReq_putReq _ _ _, rfl⟩

end

end

theorem stagesComplete : Claim.stagesComplete := by
  unfold Claim.stagesComplete
  dsimp only
  intro rid op r c s hr hc
  exact ⟨fun st hphase => ⟨complete_good hr hphase hc, complete_waits hr hphase, complete_bad hr hphase⟩,
    fun st hphase hmap => ⟨complete_mapEnds hr hphase hmap, complete_mapPours hr hphase hmap⟩⟩

/-! ### CANCEL -/

theorem cancelsStop : Claim.cancelsStop := by
  unfold Claim.cancelsStop
  dsimp only
  intro id c s ⟨hc, hop, hph, hguest, henq, hworks, hunf⟩ h24 h32 hs hne halign hin
  obtain ⟨rid, hrid⟩ : ∃ rid, rid = fld c.desc 40 8 := ⟨_, rfl⟩
  obtain ⟨n, hn⟩ : ∃ n, n = leNat (memRead s.mem.bytes (fld c.desc 16 8 + 8) 8) := ⟨_, rfl⟩
  rw [← hrid, ← hn]
  have hread : runActVal (rdNat (whoPurser none) (fld c.desc 16 8 + 8) 8) s = (.ok n, s) := by
    rw [rdNat, runActVal_bind_ok (rd_unpaid hs (mayAccess_purser s (by omega) false) rfl), hn]
    rfl
  have hstart : cancelCmd s id = if n ≠ rid then endPlain s id .internal else
      match getReq s rid with
      | none => endPlain s id .lateCancel
      | some r =>
        if !(getMb s c.mb).parts.getLsbD (ctxPart r.ctx) then endPlain s id .internal
        else if r.ring.isSome then pushEvent (putCmd s id { c with phase := .running }) rid (.cancel id)
        else
          let s := endPlain s id .ok
          if r.stages.any fun p => p.2.live then
            putReq s rid { r with stages := tabMap (fun _ g => { g with stop := some .cancelled }) r.stages }
          else finishReq s rid .cancelled := by
    rw [cancelCmd, startRow_of hc hop hph hguest hworks hunf]
    dsimp only
    rw [if_neg (by simp [h24, h32, hne, halign]), hread, ← hrid] <;> rfl
  refine ⟨fun hwrong => ?_, fun hsame hnone => ?_, fun r hsame hr hparts => ⟨fun hring hlive => ?_, fun hring hlive => ?_, fun hring => ?_⟩⟩
  · rw [if_pos hwrong] at hstart
    exact does_of (congrArg Host.Outcome.next hstart) ⟨completes_endPlain hc rfl rfl _, endPlain_mem _ _ _, endPlain_reqs _ _ _⟩
  · rw [if_neg (not_not.2 hsame), hnone] at hstart
    exact does_of (congrArg Host.Outcome.next hstart) ⟨completes_endPlain hc rfl rfl _, endPlain_mem _ _ _, endPlain_reqs _ _ _⟩
  · obtain ⟨p, hp, hl⟩ := hlive
    have hany : (r.stages.any fun p => p.2.live) = true := List.any_eq_true.2 ⟨p, hp, hl⟩
    rw [if_neg (not_not.2 hsame), hr] at hstart
    dsimp only at hstart
    rw [hparts, if_neg (by decide), hring, if_neg (by decide), hany, if_pos rfl] at hstart
    refine does_of (congrArg Host.Outcome.next hstart) ⟨completes_of_same (completes_endPlain hc rfl rfl .ok) rfl rfl,
      otherReqs_trans (otherReqs_of_reqs (endPlain_reqs s id .ok) rid) (otherReqs_putReq _ _ _), endPlain_mem _ _ _,
      _, getReq_putReq _ _ _, fun q hq => ?_, ?_⟩
    · obtain ⟨x, -, rfl⟩ := List.mem_map.1 hq
      rfl
    · dsimp only
      rw [tabMap, List.map_map]
      rfl
  · have hany : (r.stages.any fun p => p.2.live) = false := List.any_eq_false.2 fun p hp => by rw [hlive p hp]; decide
    rw [if_neg (not_not.2 hsame), hr] at hstart
    dsimp only at hstart
    rw [hparts, if_neg (by decide), hring, if_neg (by decide), hany, if_neg (by decide)] at hstart
    obtain ⟨hother, hnone, hgone, -⟩ := finishReq_gone ((getReq_of_reqs (endPlain_reqs s id .ok) rid).trans hr) .cancelled
    exact does_of (congrArg Host.Outcome.next hstart) ⟨hgone _ (endPlain_gone _ _ _),
      otherReqs_trans (otherReqs_of_reqs (endPlain_reqs s id .ok) rid) hother, hnone⟩
  · rw [if_neg (not_not.2 hsame), hr] at hstart
    dsimp only at hstart
    rw [hparts, if_neg (by decide), hring, if_pos rfl, pushEvent, modReq_of (s := putCmd s id { c with phase := .running }) hr] at hstart
    exact does_of (congrArg Host.Outcome.next hstart) ⟨getReq_putReq _ _ _, otherReqs_putReq _ _ _, tabFind_tabPut_self _ _ _, rfl⟩

/-- Settles O49: a stage begins with what it reads, completes once its maps are in, and its request ends with whatever stops it. -/
theorem stagesRunInTurn : Obligations.StagesRunInTurn := ⟨stagesStart, stagesComplete, cancelsStop⟩

end Sys2Proof.Proofs
end

