-- ==== Sys2Proof/Proofs/ClientPorts.lean ====
section
/-! PROOFS. Client ports and the wheelhouse: ring registers, frames received and sent, and stores of harts (spec/16 R395-R397, spec/17
R431, R432). -/

namespace Sys2Proof.Proofs

open Sys2Proof Sys2Proof.Machine Sys2Proof.Laws

/-! ### Accesses that no context pays for -/

theorem wrPiece_unpaid {s : State} (h : Claim.clean s) {w : Who} (hw : w.pay = none) (a : Nat) (b : Bytes) :
    (wrPiece s w a b).1.prt = s.prt := by
  obtain ⟨hh, hs⟩ := h
  have hbad : (if isResident s a then s.mem.badSram else s.mem.badHbm) = [] := by rw [hh, hs, ite_self]
  simp only [wrPiece, hbad, List.filter_nil, List.foldl_nil, chargeHbm, hw]

theorem putPieces_unpaid {w : Who} (hw : w.pay = none) (a : Nat) (b : Bytes) (l : List (Nat × Nat)) {s : State} (h : Claim.clean s) :
    (l.foldl (putPiece w a b) (s, false)).1.prt = s.prt := by
  induction l generalizing s with
  | nil => rfl
  | cons p l ih =>
    obtain ⟨t, ht, hwr⟩ := wrPiece_of_clean h w p.1 ((b.drop (p.1 - a)).take p.2)
    have hput : putPiece w a b (s, false) p = (t, false) := by simp only [putPiece, ht, Bool.or_self]
    have hprt := wrPiece_unpaid h hw p.1 ((b.drop (p.1 - a)).take p.2)
    rw [ht] at hprt
    rw [List.foldl_cons, hput, ih (hwr.clean h)]
    exact hprt

/-- A write that no context pays for changes memory alone. -/
theorem wr_unpaid {s : State} (h : Claim.clean s) {w : Who} (hw : w.pay = none) {a : Nat} {b : Bytes}
    (hm : mayAccess s w a b.length true = true) :
    ∃ t, runActVal (wr w a b) s = (.ok (), t) ∧ t = { s with mem := t.mem } ∧ t.mem.bytes = memWrite s.mem.bytes a b ∧ Claim.clean t := by
  obtain ⟨t, ht, hwr⟩ := putPieces_of_clean h w a b
  have hprt := putPieces_unpaid hw a b (pieces a b.length) h
  rw [ht] at hprt
  refine ⟨t, ?_, ?_, hwr.bytes, hwr.clean h⟩
  · simp only [wr_eq, runActVal_get_bind, hm, Bool.not_true]
    rw [runActVal_bind_ok (runActVal_stopIf_false _ _)]
    simp only [ht, runActVal_set_bind, runActVal_stopIf_false]
  · rw [hwr.eq, show t.prt = s.prt from hprt]

/-- An agent bound to no context reaches all memory below the bundle cache, and reads it to its end. -/
theorem mayAccess_open (s : State) {w : Who} (hctx : w.ctx = none) (hwheel : w.wheel = true) {a n : Nat} (h : a + n ≤ cacheBase) (x : Bool) :
    mayAccess s w a n x = true := by
  have h1 : a + n ≤ unifiedEnd := Nat.le_trans h (by decide)
  have h2 : ¬ cacheBase < a + n := Nat.not_lt.2 h
  simp [mayAccess, hctx, hwheel, h1, h2]

/-! ### Ring registers -/

theorem ringRefused_of (s : State) (src : BitVec 16) (addr : Nat) (v : W64) :
    ringRefused s src addr v = { s with evt := (ringRefused s src addr v).evt, outs := (ringRefused s src addr v).outs } ∧
    (s.evt.buf < 256 → (ringRefused s src addr v).evt.head = s.evt.head + 1) :=
  ⟨logEntry_frame s { code := some .ringRefused, source := src, detail := toLe 8 addr ++ toLe 8 v.toNat }, fun h => logEntry_head _ h⟩

section
variable {a : Agent} (ha : a ≠ .mgmt) (p : Nat) (v : W64) (s : State)
include ha

theorem ringWrite_zeroes (rx : Bool) : Does (.clientRingWrite a p rx v) s fun t =>
    let l := BitVec.ofNat 5 (max 6 (min 16 (v.toNat / 2 ^ 48 % 32)))
    let b := BitVec.ofNat 48 (v.toNat / 4096 % 2 ^ 36 * 4096)
    getPort t p = (if rx then { getPort s p with rxLog2 := l, rxBase := b, rxTail := 0, rxHead := 0 }
      else { getPort s p with txLog2 := l, txBase := b, txTail := 0, txHead := 0 }) ∧
    (∀ q, q ≠ p → getPort t q = getPort s q) ∧ t = { s with fry := { s.fry with ports := t.fry.ports } } :=
  does_of (congrArg Host.Outcome.next (if_neg ha)) ⟨getPort_modPort s p _, fun _ hq => getPort_modPort_ne s _ hq.symm, rfl⟩

section
variable {rx : Bool} {x : PortSt} {tail head : W64} {l : BitVec 5} (htail : tail = if rx then x.rxTail else x.txTail)
  (hhead : head = if rx then x.rxHead else x.txHead) (hl : l = if rx then x.rxLog2 else x.txLog2) (hx : x = getPort s p)
include htail hhead hl hx

/-- A TAIL in range is stored. -/
theorem tailWrite_stores (hlo : tail ≤ v) (hhi : v.toNat ≤ head.toNat + 2 ^ l.toNat) : clientTailWrite s a p rx v =
    modPort s p fun x => if rx then { x with rxTail := v } else { x with txTail := v } := by
  rw [BitVec.le_def] at hlo
  subst htail hhead hl hx
  rw [clientTailWrite, byAgent, if_neg ha]
  refine if_neg ?_
  cases rx <;> simp at hlo hhi ⊢ <;> omega

/-- A TAIL that goes back, or past what the ring holds, is ignored with an event. -/
theorem tailWrite_refuses (hout : v < tail ∨ head.toNat + 2 ^ l.toNat < v.toNat) :
    ∃ addr, clientTailWrite s a p rx v = ringRefused s (portSrc p) addr v := by
  rw [BitVec.lt_def] at hout
  subst htail hhead hl hx
  refine ⟨portReg p (if rx then 0x28 else 0x40), ?_⟩
  rw [clientTailWrite, byAgent, if_neg ha]
  refine if_pos ?_
  cases rx <;> simpa using hout

end

end

/-! ### Frames received -/

/-- A number that has been written is read back. -/
theorem memRead_toLe (m : List Host.Cell) (a n v : Nat) : memRead (memWrite m a (toLe n v)) a n = toLe n v := by
  have h := memRead_memWrite m a (toLe n v)
  rwa [toLe_length] at h

/-- A port's interrupt on progress. -/
theorem portIrq_of (s : State) (p : Nat) : portIrq s p = { s with
    outs := (if (getPort s p).irqEn then [Out.irq (getPort s p).irqHart.toNat (.port p)] else []) ++ s.outs } := by
  unfold portIrq
  dsimp only
  split <;> rfl

theorem dropFrame_of (s : State) (p : Nat) :
    getPort (dropFrame s p) p = { getPort s p with dropped := (getPort s p).dropped + 1 } ∧
    dropFrame s p = { s with fry := { s.fry with ports := (dropFrame s p).fry.ports } } := ⟨getPort_modPort s p _, rfl⟩

section
variable {p : Nat} {frame : Bytes} {s : State} (hlive : clientLive s p = true) (hcal : (getPort s p).cal = false)
include hlive hcal

theorem receive_drops (hbad : checkFcs frame = none ∨ ∃ b, checkFcs frame = some b ∧
    ((getPort s p).maxFrame.toNat < frame.length ∨ frame.length < 64 ∨ isPause b = true ∨
      takesMac (getPort s p) (macOf b) = true ∧ (getPort s p).rxHead = (getPort s p).rxTail)) :
    Does (.clientFrameReceive p frame) s fun t =>
      getPort t p = { getPort s p with dropped := (getPort s p).dropped + 1 } ∧ t = { s with fry := { s.fry with ports := t.fry.ports } } := by
  have hrow : clientReceive s p frame = dropFrame s p := by
    rw [clientReceive, hlive, hcal, if_neg (by decide)]
    obtain h | ⟨b, hb, h⟩ := hbad
    · rw [h]
    · rw [hb]
      dsimp only
      by_cases hshape : (getPort s p).maxFrame.toNat < frame.length ∨ frame.length < 64 ∨ isPause b = true
      · exact if_pos (by simpa [or_assoc] using hshape)
      · have hempty := (or_assoc.2 (or_assoc.2 h)).resolve_left fun h => hshape (or_assoc.1 h)
        rw [if_neg (by simpa [or_assoc] using hshape), hempty.1, if_neg (by decide), if_pos hempty.2]
  exact does_of (congrArg Host.Outcome.next hrow) (dropFrame_of s p)

section
variable {b : Bytes} (hb : checkFcs frame = some b) (hmax : frame.length ≤ (getPort s p).maxFrame.toNat) (hmin : 64 ≤ frame.length)
  (hpause : isPause b = false)
include hb hmax hmin hpause

theorem receive_passes (hmac : takesMac (getPort s p) (macOf b) = false) : exec (.clientFrameReceive p frame) s = .next s := by
  have hrow : clientReceive s p frame = s := by
    rw [clientReceive, hlive, hcal, if_neg (by decide), hb]
    dsimp only
    rw [if_neg (by simp [hmin, hmax, hpause]), hmac, if_pos (by decide)]
  exact congrArg Host.Outcome.next hrow

/-- A good frame goes to the posted buffer, then its descriptor. -/
theorem receive_stores (hmac : takesMac (getPort s p) (macOf b) = true) (hposted : (getPort s p).rxHead ≠ (getPort s p).rxTail)
    (hs : Claim.clean s) {d buf : Nat} (hd : d = (getPort s p).rxBase.toNat + (getPort s p).rxHead.toNat % 2 ^ (getPort s p).rxLog2.toNat * 32)
    (hbuf : buf = fld (memRead s.mem.bytes d 32) 0 8) (hin : d + 32 ≤ cacheBase) (hfits : b.length ≤ fld (memRead s.mem.bytes d 32) 8 2)
    (hbin : buf + b.length ≤ cacheBase) : ∃ t, t = { s with mem := t.mem } ∧
      t.mem.bytes = memWrite (memWrite (memWrite s.mem.bytes buf b) (d + 8)
        (toLe 2 b.length ++ toLe 2 (fld (memRead s.mem.bytes d 32) 10 2 / 2 * 2 + 1))) (d + 16) (toLe 8 s.hub.time.toNat) ∧
      clientReceive s p frame = portIrq (modPort t p fun x => { x with rxHead := x.rxHead + 1, rxFrames := x.rxFrames + 1 }) p := by
  obtain ⟨r, hr⟩ : ∃ r, r = memRead s.mem.bytes d 32 := ⟨_, rfl⟩
  rw [← hr] at hbuf hfits ⊢
  obtain ⟨c, hc⟩ : ∃ c, c = toLe 2 b.length ++ toLe 2 (fld r 10 2 / 2 * 2 + 1) := ⟨_, rfl⟩
  have hclen : c.length = 4 := by rw [hc, List.length_append, toLe_length, toLe_length]
  obtain ⟨t, ht, hteq, htb, htc⟩ := wr_unpaid hs (w := whoClient p) rfl (mayAccess_open s rfl rfl hbin true)
  obtain ⟨u, hu, hueq, hub, huc⟩ := wr_unpaid htc (w := whoClient p) (a := d + 8) (b := c) rfl
    (mayAccess_open t rfl rfl (by omega) true)
  obtain ⟨v, hv, hveq, hvb, -⟩ := wr_unpaid huc (w := whoClient p) (a := d + 16) (b := toLe 8 s.hub.time.toNat) rfl
    (mayAccess_open u rfl rfl (by rw [toLe_length]; omega) true)
  refine ⟨v, by rw [hveq, hueq, hteq], by rw [hvb, hub, htb, ← hc], ?_⟩
  have hread := rd_unpaid hs (w := whoClient p) (mayAccess_open s rfl rfl hin false) rfl
  rw [← hr] at hread
  rw [clientReceive, hlive, hcal, if_neg (by decide), hb]
  dsimp only
  rw [if_neg (by simp [hmin, hmax, hpause]), hmac, if_neg (by decide), if_neg hposted, ← hd, runActVal_bind_ok hread,
    if_neg (Nat.not_lt.2 hfits), runActVal_get_bind, ← hbuf, runActVal_bind_ok ht, ← hc, runActVal_bind_ok hu, wrNat, runActVal_bind_ok hv]
  rfl

theorem receive_good (hmac : takesMac (getPort s p) (macOf b) = true) (hposted : (getPort s p).rxHead ≠ (getPort s p).rxTail)
    (hs : Claim.clean s) {d buf : Nat} (hd : d = (getPort s p).rxBase.toNat + (getPort s p).rxHead.toNat % 2 ^ (getPort s p).rxLog2.toNat * 32)
    (hbuf : buf = fld (memRead s.mem.bytes d 32) 0 8) (hin : d + 32 ≤ cacheBase) (hfits : b.length ≤ fld (memRead s.mem.bytes d 32) 8 2)
    (hbin : buf + b.length ≤ cacheBase) (hapart : buf + b.length ≤ d ∨ d + 32 ≤ buf) : Does (.clientFrameReceive p frame) s fun t =>
      memRead t.mem.bytes buf b.length = b ∧ fld (memRead t.mem.bytes d 32) 8 2 = b.length ∧
      bit (fld (memRead t.mem.bytes d 32) 10 2) 0 = true ∧ fld (memRead t.mem.bytes d 32) 16 8 = s.hub.time.toNat ∧
      (∀ a, (a < buf ∨ buf + b.length ≤ a) → (a < d + 8 ∨ d + 24 ≤ a) → memGet t.mem.bytes a = memGet s.mem.bytes a) ∧
      getPort t p = { getPort s p with rxHead := (getPort s p).rxHead + 1, rxFrames := (getPort s p).rxFrames + 1 } ∧
      t.outs = (if (getPort s p).irqEn then [Out.irq (getPort s p).irqHart.toNat (.port p)] else []) ++ s.outs := by
  obtain ⟨t, ht, htb, hrow⟩ := receive_stores hlive hcal hb hmax hmin hpause hmac hposted hs hd hbuf hin hfits hbin
  have hlen : b.length < 65536 := Nat.lt_of_le_of_lt hfits (fld_lt _ _ _)
  obtain ⟨k, hk⟩ : ∃ k, k = fld (memRead s.mem.bytes d 32) 10 2 := ⟨_, rfl⟩
  have hklt : k < 65536 := by rw [hk]; exact fld_lt _ _ _
  rw [← hk, memWrite_append, toLe_length] at htb
  obtain ⟨u, hu⟩ : ∃ u, u = portIrq (modPort t p fun x => { x with rxHead := x.rxHead + 1, rxFrames := x.rxFrames + 1 }) p := ⟨_, rfl⟩
  have hport : getPort (modPort t p fun x => { x with rxHead := x.rxHead + 1, rxFrames := x.rxFrames + 1 }) p =
      { getPort s p with rxHead := (getPort s p).rxHead + 1, rxFrames := (getPort s p).rxFrames + 1 } := by
    rw [getPort_modPort, ht]; rfl
  have hub : u.mem.bytes = t.mem.bytes := by rw [hu, portIrq_of]; rfl
  have hup : getPort u p = { getPort s p with rxHead := (getPort s p).rxHead + 1, rxFrames := (getPort s p).rxFrames + 1 } := by
    rw [hu, portIrq_of]; exact hport
  have huo : u.outs = (if (getPort s p).irqEn then [Out.irq (getPort s p).irqHart.toNat (.port p)] else []) ++ s.outs := by
    rw [hu, portIrq_of, hport, ht]; rfl
  rw [← hu] at hrow
  refine does_of (congrArg Host.Outcome.next hrow) ?_
  rw [hub, htb]
  refine ⟨?_, ?_, ?_, ?_, fun a h1 h2 => ?_, hup, huo⟩
  · rw [memRead_memWrite_apart _ _ _ _ _ (by rw [toLe_length]; omega), memRead_memWrite_apart _ _ _ _ _ (by rw [toLe_length]; omega),
      memRead_memWrite_apart _ _ _ _ _ (by rw [toLe_length]; omega), memRead_memWrite]
  · rw [fld_memRead _ _ _ _ _ (by decide), memRead_memWrite_apart _ _ _ _ _ (by rw [toLe_length]; omega),
      memRead_memWrite_apart _ _ _ _ _ (by rw [toLe_length]; omega), memRead_toLe, leNat_toLe]
    exact Nat.mod_eq_of_lt hlen
  · rw [fld_memRead _ _ _ _ _ (by decide), memRead_memWrite_apart _ _ _ _ _ (by rw [toLe_length]; omega), memRead_toLe, leNat_toLe,
      Nat.mod_eq_of_lt (by omega)]
    simp [bit]
  · rw [fld_memRead _ _ _ _ _ (by decide), memRead_toLe, leNat_toLe]
    exact Nat.mod_eq_of_lt s.hub.time.isLt
  · rw [memGet_memWrite, toLe_length, if_neg (by omega), memGet_memWrite, toLe_length, if_neg (by omega), memGet_memWrite, toLe_length,
      if_neg (by omega), memGet_memWrite, if_neg (by omega)]

end

end

/-! ### Frames sent -/

section
variable {p : Nat} {s : State} (hlive : clientLive s p = true) (hcal : (getPort s p).cal = false)
  (hposted : (getPort s p).txHead < (getPort s p).txTail) (hs : Claim.clean s) {d n buf : Nat}
  (hd : d = (getPort s p).txBase.toNat + (getPort s p).txHead.toNat % 2 ^ (getPort s p).txLog2.toNat * 32)
  (hn : n = fld (memRead s.mem.bytes d 32) 8 2) (hbuf : buf = fld (memRead s.mem.bytes d 32) 0 8) (hin : d + 32 ≤ cacheBase)
include hlive hcal hposted hs hd hn hbuf hin

/-- What the descriptor of a frame shows once the frame has been sent, or found to be of no size that may be sent. -/
def sentMem (s : State) (d : Nat) (bad : Bool) : List Host.Cell :=
  memWrite (memWrite s.mem.bytes (d + 10) (toLe 2 (fld (memRead s.mem.bytes d 32) 10 2 / 4 * 4 + 1 + 2 * b2n bad))) (d + 16)
    (toLe 8 s.hub.time.toNat)

/-- The posted frame is read and its descriptor marked. -/
theorem transmit_marks (bad : Bool) (hbad : (n < 60 || (getPort s p).maxFrame.toNat < n + 4 : Bool) = bad)
    (hread : bad = false → buf + n ≤ cacheBase) : ∃ t, t = { s with mem := t.mem } ∧ t.mem.bytes = sentMem s d bad ∧
      clientTransmit s p = portIrq (modPort (if bad then t else
        emit (modPort t p fun x => { x with txFrames := x.txFrames + 1 }) (.client p (memRead s.mem.bytes buf n ++ fcs (memRead s.mem.bytes buf n))))
        p fun x => { x with txHead := x.txHead + 1 }) p := by
  obtain ⟨r, hr⟩ : ∃ r, r = memRead s.mem.bytes d 32 := ⟨_, rfl⟩
  rw [sentMem, ← hr]
  rw [← hr] at hn hbuf
  obtain ⟨k, hk⟩ : ∃ k, k = fld r 10 2 / 4 * 4 + 1 + 2 * b2n bad := ⟨_, rfl⟩
  obtain ⟨t, ht, hteq, htb, htc⟩ := wr_unpaid hs (w := whoClient p) (a := d + 10) (b := toLe 2 k) rfl
    (mayAccess_open s rfl rfl (by rw [toLe_length]; omega) true)
  obtain ⟨u, hu, hueq, hub, -⟩ := wr_unpaid htc (w := whoClient p) (a := d + 16) (b := toLe 8 s.hub.time.toNat) rfl
    (mayAccess_open t rfl rfl (by rw [toLe_length]; omega) true)
  have hdesc := rd_unpaid hs (w := whoClient p) (mayAccess_open s rfl rfl hin false) rfl
  rw [← hr] at hdesc
  refine ⟨u, by rw [hueq, hteq], by rw [hub, htb, hk], ?_⟩
  have hwrites (b : Option Bytes) : runActVal (do
      let s ← get
      wr (whoClient p) (d + 10) (toLe 2 k)
      wrNat (whoClient p) (d + 16) 8 s.hub.time.toNat
      return b) s = (.ok b, u) := by
    rw [runActVal_get_bind, runActVal_bind_ok ht, wrNat, runActVal_bind_ok hu]
    rfl
  rw [clientTransmit, hlive, hcal, if_neg (by simpa [BitVec.lt_def] using hposted)]
  dsimp only
  rw [← hd, runActVal_bind_ok hdesc, ← hn, ← hbuf, hbad, ← hk]
  cases bad with
  | true =>
    have hnone : runActVal (Pure.pure none : Act (Option Bytes)) s = (.ok none, s) := rfl
    rw [if_pos rfl, runActVal_bind_ok hnone, hwrites none]
    rfl
  | false =>
    have hframe := rd_unpaid hs (w := whoClient p) (mayAccess_open s rfl rfl (hread rfl) false) rfl
    have hsome : runActVal (some <$> rd (whoClient p) buf n) s = (.ok (some (memRead s.mem.bytes buf n)), s) := by
      rw [runActVal_map, hframe]
    rw [if_neg Bool.false_ne_true, runActVal_bind_ok hsome, hwrites (some (memRead s.mem.bytes buf n))]
    rfl

/-- A posted frame is sent where its size may be, its descriptor shows it done, and TXHEAD counts. -/
theorem transmit_sends (hread : 60 ≤ n → n + 4 ≤ (getPort s p).maxFrame.toNat → buf + n ≤ cacheBase) : Does (.clientFrameTransmit p) s fun t =>
    let x := getPort s p
    let sent := decide (60 ≤ n ∧ n + 4 ≤ x.maxFrame.toNat)
    getPort t p = { x with txHead := x.txHead + 1, txFrames := if sent then x.txFrames + 1 else x.txFrames } ∧
    t.outs = (if x.irqEn then [Out.irq x.irqHart.toNat (.port p)] else []) ++
      (if sent then [Out.client p (memRead s.mem.bytes buf n ++ fcs (memRead s.mem.bytes buf n))] else []) ++ s.outs ∧
    fld (memRead t.mem.bytes d 32) 10 2 = fld (memRead s.mem.bytes d 32) 10 2 / 4 * 4 + (if sent then 1 else 3) ∧
    fld (memRead t.mem.bytes d 32) 16 8 = s.hub.time.toNat ∧
    ∀ a, (a < d + 10 ∨ d + 24 ≤ a) → memGet t.mem.bytes a = memGet s.mem.bytes a := by
  obtain ⟨sent, hsent⟩ : ∃ sent, sent = decide (60 ≤ n ∧ n + 4 ≤ (getPort s p).maxFrame.toNat) := ⟨_, rfl⟩
  have hbad : (n < 60 || (getPort s p).maxFrame.toNat < n + 4 : Bool) = !sent := by
    rw [hsent, ← Bool.decide_or, ← decide_not]
    exact decide_eq_decide.2 (by omega)
  obtain ⟨t, ht, htb, hrow⟩ := transmit_marks hlive hcal hposted hs hd hn hbuf hin _ hbad fun h => by
    rw [Bool.not_eq_false', hsent, decide_eq_true_eq] at h
    exact hread h.1 h.2
  dsimp only
  rw [← hsent]
  obtain ⟨f, hf⟩ : ∃ f, f = memRead s.mem.bytes buf n ++ fcs (memRead s.mem.bytes buf n) := ⟨_, rfl⟩
  rw [← hf] at hrow ⊢
  obtain ⟨w, hw⟩ : ∃ w, w = if (!sent) = true then t else emit (modPort t p fun x => { x with txFrames := x.txFrames + 1 }) (.client p f) := ⟨_, rfl⟩
  have hwmem : w.mem = t.mem := by rw [hw]; split <;> rfl
  have hwouts : w.outs = (if sent then [Out.client p f] else []) ++ s.outs := by
    rw [hw, ht]
    cases sent <;> rfl
  have hwport : getPort w p = { getPort s p with txFrames := if sent then (getPort s p).txFrames + 1 else (getPort s p).txFrames } := by
    rw [hw]
    cases sent with
    | true =>
      rw [if_neg (by decide)]
      exact (getPort_modPort t p fun x => { x with txFrames := x.txFrames + 1 }).trans (by rw [ht]; rfl)
    | false => rw [ht]; rfl
  rw [← hw, portIrq_of] at hrow
  have hup : getPort (modPort w p fun x => { x with txHead := x.txHead + 1 }) p = { getPort s p with
      txHead := (getPort s p).txHead + 1, txFrames := if sent then (getPort s p).txFrames + 1 else (getPort s p).txFrames } := by
    rw [getPort_modPort, hwport]
  rw [hup] at hrow
  have hk : fld (memRead s.mem.bytes d 32) 10 2 < 65536 := fld_lt _ _ _
  have hmarks : fld (memRead s.mem.bytes d 32) 10 2 / 4 * 4 + 1 + 2 * b2n (!sent) =
      fld (memRead s.mem.bytes d 32) 10 2 / 4 * 4 + (if sent then 1 else 3) := by
    cases sent <;> rfl
  refine does_of (congrArg Host.Outcome.next hrow) ⟨hup, ?_, ?_, ?_, fun a ha => ?_⟩
  · rw [List.append_assoc, ← hwouts]
    rfl
  · rw [show (modPort w p fun x => { x with txHead := x.txHead + 1 }).mem = t.mem from hwmem, htb, sentMem,
      fld_memRead _ _ _ _ _ (by decide), memRead_memWrite_apart _ _ _ _ _ (by rw [toLe_length]; omega), memRead_toLe, leNat_toLe, hmarks]
    exact Nat.mod_eq_of_lt (by split <;> omega)
  · rw [show (modPort w p fun x => { x with txHead := x.txHead + 1 }).mem = t.mem from hwmem, htb, sentMem,
      fld_memRead _ _ _ _ _ (by decide), memRead_toLe, leNat_toLe]
    exact Nat.mod_eq_of_lt s.hub.time.isLt
  · rw [show (modPort w p fun x => { x with txHead := x.txHead + 1 }).mem = t.mem from hwmem, htb, sentMem, memGet_memWrite,
      toLe_length, if_neg (by omega), memGet_memWrite, toLe_length, if_neg (by omega)]

end

/-! ### The wheelhouse -/

section
variable {h addr : Nat} {b : Bytes} {s : State}

theorem wheelStore_writes (hs : Claim.clean s) (hin : addr + b.length ≤ cacheBase) : Does (.wheelhouseStore h addr b) s fun t =>
    memRead t.mem.bytes addr b.length = b ∧ (∀ a, a < addr ∨ addr + b.length ≤ a → memGet t.mem.bytes a = memGet s.mem.bytes a) ∧
    t.outs = s.outs ∧ t = { s with mem := t.mem } := by
  obtain ⟨t, ht, hteq, htb, -⟩ := wr_unpaid hs (w := {}) rfl (mayAccess_open s rfl rfl hin true)
  have hrow : wheelStore s h addr b = t := by
    rw [wheelStore, if_neg (by simp; omega), runAct_ok ht]
  refine does_of (congrArg Host.Outcome.next hrow) ⟨by rw [htb, memRead_memWrite], fun a ha => ?_, by rw [hteq], hteq⟩
  rw [htb, memGet_memWrite, if_neg (by omega)]

theorem wheelStore_faults (hout : cacheBase < addr + b.length) (hin : addr < 0xC000000000) (hp : pursing s = true) :
    exec (.wheelhouseStore h addr b) s = .next { s with outs := .storeFault h addr :: s.outs } := by
  have hrow : wheelStore s h addr b = { s with outs := .storeFault h addr :: s.outs } := by
    have hlow : addr < unifiedEnd := hin
    rw [wheelStore, if_pos (by simp [hp, hlow, hout])]
    rfl
  exact congrArg Host.Outcome.next hrow

end

/-- Settles O57: the registers of a client port's rings, the frames it receives and sends, and the stores of harts. -/
theorem clientRings : Obligations.ClientRings := by
  refine ⟨fun a p rx v s ha => ringWrite_zeroes ha p v s rx, fun a p v s ha => ?_, fun p frame s hlive hcal => ?_, fun p s hlive hcal => ?_,
    fun h addr b s hs => ⟨wheelStore_writes hs, wheelStore_faults⟩⟩
  · dsimp only
    refine ⟨fun hlo hhi => ?_, fun hout => ?_, fun hlo hhi => ?_, fun hout => ?_⟩
    · exact does_of (congrArg Host.Outcome.next (tailWrite_stores ha p v s (rx := true) rfl rfl rfl rfl hlo hhi)) ⟨getPort_modPort s p _, rfl⟩
    · obtain ⟨addr, hrow⟩ := tailWrite_refuses ha p v s (rx := true) rfl rfl rfl rfl hout
      exact does_of (congrArg Host.Outcome.next hrow) (ringRefused_of s (portSrc p) addr v)
    · exact does_of (congrArg Host.Outcome.next (tailWrite_stores ha p v s (rx := false) rfl rfl rfl rfl hlo hhi)) ⟨getPort_modPort s p _, rfl⟩
    · obtain ⟨addr, hrow⟩ := tailWrite_refuses ha p v s (rx := false) rfl rfl rfl rfl hout
      exact does_of (congrArg Host.Outcome.next hrow) (ringRefused_of s (portSrc p) addr v)
  · dsimp only
    refine ⟨fun hnone => receive_drops hlive hcal (.inl hnone), fun b hb => ⟨fun hbad => ?_, fun hgood hmac => ?_, fun hgood hmac hempty => ?_,
      fun hgood hmac hposted hs hin hfits hbin hapart => ?_⟩⟩
    · refine receive_drops hlive hcal (.inr ⟨b, hb, ?_⟩)
      obtain h | h | h := hbad
      · exact .inl h
      · exact .inr (.inl h)
      · exact .inr (.inr (.inl h))
    · exact receive_passes hlive hcal hb hgood.1 hgood.2.1 hgood.2.2 hmac
    · exact receive_drops hlive hcal (.inr ⟨b, hb, .inr (.inr (.inr ⟨hmac, hempty⟩))⟩)
    · exact receive_good hlive hcal hb hgood.1 hgood.2.1 hgood.2.2 hmac hposted hs rfl rfl hin hfits hbin hapart
  · dsimp only
    exact fun hposted hs hin hread => transmit_sends hlive hcal hposted hs rfl rfl rfl hin hread

end Sys2Proof.Proofs
end

