-- ==== Sys2Proof/Proofs/CalmWork.lean ====
section
/-! PROOFS. The end of a command, of a row, of a MIGRATE, of a COLLECTIVE, of a DISPATCH and of a PUSH only put frames in line
(spec/16 R404, R420): none of them sends a frame or moves a path to another state. -/

namespace Sys2Proof.Proofs

open Sys2Proof Sys2Proof.Machine Sys2Proof.Laws

/-! ### Sequences of calm steps -/

theorem Calm.refl (s : State) : Calm s s := steady_calm.refl s

theorem Calm.trans {s t u : State} (h : Calm s t) (h' : Calm t u) : Calm s u := steady_calm.trans h h'

/-- Work of which no step reaches the ferry block. -/
theorem keeps_calm {α : Type} {mk : Nat} {a : Act α} (h : ∀ s, AFr mk s a) (hm : mk.testBit 8 = false) : Keeps Calm a :=
  ⟨fun s => .of_fry (((h s).val (Fr.refl _ s)).same .fry hm)⟩

theorem Keeps.runAct {a : Act Unit} {R : State → State → Prop} (h : Keeps R a) (s : State) : R s (Machine.runAct a s).2 := by
  rw [runAct_snd]
  exact h.of s

/-! ### The purser's side of the end of a command -/

theorem calm_moverDone (s : State) (id m : Nat) : Calm s (moverDone s id m) := by
  unfold moverDone
  dsimp only
  split
  · exact .of_fry rfl
  · exact (calm_purserSend _ _ _).after rfl

theorem calm_stageReport (s : State) (id i : Nat) (c : PCmd) (st : Status) : Calm s (stageReport s id i c st) := by
  unfold stageReport
  split
  · exact calm_moverDone _ _ _
  · repeat' split
    all_goals exact .of_fry rfl

theorem calm_reportCmd (s : State) (origin : Option (Nat × Nat)) (st : Status) : Calm s (reportCmd s origin st) := by
  unfold reportCmd
  split
  · exact .refl s
  · split
    · exact .refl s
    · split
      · exact calm_stageReport _ _ _ _ _
      next id i _ _ _ _ _ =>
        exact .of_fry ((settleEnqueue_fr (mk := 196608) (by decide) (Fr.refl _ _)).same .fry rfl)

theorem calm_reportMap (s : State) (k c id : Nat) (st : Status) : Calm s (reportMap s k c id st) := by
  unfold reportMap
  split
  · exact .refl s
  · exact (steady_calm.foldl (fun _ _ => calm_purserSend _ _ _) _ s).trans (.of_fry rfl)

theorem calm_mapFails (s : State) (k c : Nat) (st : Status) (r : Nat) : Calm s (mapFails s k c st r) := by
  unfold mapFails
  split
  · exact .refl s
  · dsimp only
    split
    · refine (calm_reportMap _ _ _ _ _).after ?_
      exact ((writeProgress_fr (mk := 1048620) (by decide) (Fr.refl _ _)).same .fry rfl).trans rfl
    · exact .of_fry rfl

theorem calm_completeCmd (s : State) (e : Eng) (c : Nat) (q : QCmd) (st : Status) (o : Overflow) :
    Calm s (completeCmd s e c q st o) := by
  have hhalt : Calm s (if st.halts then faultHalt s e c q st o else s) := by
    split
    · exact .of_fry ((faultHalt_fr (mk := 1048596) (by decide) (Fr.refl _ _)).same .fry rfl)
    · exact .refl s
  unfold completeCmd
  dsimp only
  refine (hhalt.trans ?_).trans (calm_reportCmd _ _ _)
  generalize (if st.halts then faultHalt s e c q st o else s) = t
  split
  · exact calm_mapFails _ _ _ _ _
  · exact .refl _

theorem calm_offerCmd (s : State) (e : Eng) (b : Bytes) (origin : Option (Nat × Nat)) : Calm s (offerCmd s e b origin).1 := by
  unfold offerCmd
  dsimp only
  split
  · exact .refl s
  split
  · exact .of_fry ((logEntry_fr (mk := 1048580) (by decide) (Fr.refl _ _)).same .fry rfl)
  · generalize (if e.kind = EngKind.core then _ else 64 : Nat) = room
    split
    · exact .of_fry rfl
    split
    · exact (calm_completeCmd _ _ _ _ _ _).after rfl
    · exact .refl s

theorem calm_offerKept (s : State) (id : Nat) : Calm s (offerKept s id) := by
  unfold offerKept
  split
  · exact .refl s
  next c _ =>
    split
    next e b rest _ _ =>
      have h := (calm_offerCmd (putCmd s id { c with jobs := [0], offer := rest }) e b (some (id, 0))).after (s := s) rfl
      split
      next => exact .refl s
      next heq => rw [heq] at h; exact h
      next heq => rw [heq] at h; exact h.trans (calm_reportCmd _ _ _)
      next heq => rw [heq] at h; exact h.trans (calm_reportCmd _ _ _)
    next => exact .refl s

theorem calm_purserRuns (s : State) (c : PCmd) : Calm s (purserRuns s c) := (calm_offerKept _ _).after rfl

theorem calm_endPlain (s : State) (id : Nat) (st : Status) : Calm s (endPlain s id st) :=
  .of_fry ((endPlain_fr (mk := 2293760) (by decide) (Fr.refl _ _)).same .fry rfl)

/-! ### Slip queues and routers -/

theorem calm_modAccount (s : State) (q m c : Nat) (f : Grant → Grant) : Calm s (modAccount s q m c f) :=
  .of_fry ((modAccount_fr (mk := 128) (by decide) (Fr.refl _ _)).same .fry rfl)

theorem calm_slipPathLost (s : State) (m : Nat) : Calm s (slipPathLost s m) := by
  unfold slipPathLost
  exact (steady_calm.foldl (fun _ _ => steady_calm.foldl (fun _ _ => calm_rewindAt _ _ _) _ _) _ _).trans (.of_fry rfl)

theorem calm_setDisp (s : State) (k c : Nat) (f : DispOp → DispOp) : Calm s (setDisp s k c f) := by
  unfold setDisp
  split <;> exact .of_fry rfl

theorem calm_settleDispatch (s : State) (k c : Nat) : Calm s (settleDispatch s k c) := by
  unfold settleDispatch
  split
  · exact .refl s
  · dsimp only
    split <;> split
    · exact (calm_completeCmd _ _ _ _ _ _).after rfl
    · exact .refl s
    · exact (calm_completeCmd _ _ _ _ _ _).after rfl
    · exact .refl s

theorem calm_failDisp (s : State) (k c : Nat) (st : Status) (v : Overflow) : Calm s (failDisp s k c st v) :=
  (calm_setDisp _ _ _ _).trans (calm_settleDispatch _ _ _)

theorem calm_dispatchEnded (s : State) (k c e : Nat) (st : Status) : Calm s (dispatchEnded s k c e st) := by
  unfold dispatchEnded
  dsimp only
  split
  · exact (calm_setDisp _ _ _ _).trans (calm_settleDispatch _ _ _)
  · exact (calm_setDisp _ _ _ _).trans (calm_failDisp _ _ _ _ _)

theorem calm_notifyEnded (s : State) (k c : Nat) (st : Status) : Calm s (notifyEnded s k c st) := by
  unfold notifyEnded
  dsimp only
  split
  · exact (calm_setDisp _ _ _ _).trans (calm_settleDispatch _ _ _)
  · exact (calm_setDisp _ _ _ _).trans (calm_failDisp _ _ _ _ _)

/-! ### Gather engines -/

theorem calm_addReq (s : State) (r : RowReq) : Calm s (addReq s r) :=
  .of_fry ((addReq_fr (mk := 8192) (by decide) (Fr.refl _ _)).same .fry rfl)

theorem calm_queueRow (s : State) (p m ctx : Nat) (tag : BitVec 32) (i r arg : Nat) (b : Bytes) :
    Calm s (queueRow s p m ctx tag i r arg b) := by
  unfold queueRow
  exact steady_calm.foldl (fun _ _ => calm_queueFrame _ _ _ _) _ _

theorem calm_modOp (s : State) (e c : Nat) (f : GthOp → GthOp) : Calm s (modOp s e c f) :=
  .of_fry ((modOp_fr (mk := 8208) (by decide) (Fr.refl _ _)).same .fry rfl)

theorem calm_sendEntry (e c : Nat) (op : GthOp) (x : TableDesc) (ui : Nat × Nat) : Keeps Calm (sendEntry e c op x ui) := by
  refine Keeps.bind steady_calm (keeps_calm (mk := 1048620) (fun _ => homeModule_fr (by decide)) rfl) fun m =>
    Keeps.get_bind fun s => ?_
  dsimp only
  split
  · exact calm_addReq _ _
  · split
    · exact .refl s
    next h =>
      rw [runActVal_set]
      exact ((calm_choosePort h).trans (calm_startOp _ _ _ _ _)).trans ((calm_queueRow _ _ _ _ _ _ _ _ _).after
        ((chargeFerry_fr (mk := 8) (by decide) (Fr.refl _ _)).same .fry rfl))

theorem calm_sendNext (s : State) (e c : Nat) : Calm s (sendNext s e c) := by
  unfold sendNext
  split
  · exact .refl s
  · dsimp only
    split
    next op _ _ _ ui rest t _ _ =>
      have h := (calm_modOp s e c fun o => { o with todo := rest, out := o.out + 1 }).trans
        ((calm_sendEntry e c op t.desc ui).runAct (modOp s e c fun o => { o with todo := rest, out := o.out + 1 }))
      split
      next heq => rw [heq] at h; exact h
      next heq => rw [heq] at h; exact h.trans (calm_modOp _ _ _ _)
    · exact .refl s

theorem calm_pump (e n : Nat) (s : State) : Calm s (pump e n s) := by
  induction n generalizing s with
  | zero => exact .refl s
  | succ n ih =>
    rw [pump]
    split
    · split
      · refine Calm.trans ?_ (ih _)
        exact (calm_sendNext _ _ _).after rfl
      · exact .refl s
    · exact .refl s

theorem calm_settleGather (s : State) (e c : Nat) : Calm s (settleGather s e c) := by
  unfold settleGather
  split
  · exact .refl s
  · split
    · exact (calm_completeCmd _ _ _ _ _ _).after ((modGe_fr (mk := 8208) (by decide) (Fr.refl _ _)).same .fry rfl)
    · exact .refl s

theorem calm_pumpAll (s : State) (e : Nat) : Calm s (pumpAll s e) := by
  unfold pumpAll
  exact (calm_pump _ _ _).trans (steady_calm.foldl (fun _ _ => calm_settleGather _ _ _) _ _)

theorem calm_rowDone (s : State) (e c u index : Nat) (st : Status) (row : Bytes) : Calm s (rowDone s e c u index st row) := by
  unfold rowDone
  split
  · exact .refl s
  next op _ =>
    dsimp only
    refine ((calm_modOp s e c fun o => { o with out := o.out - 1 }).trans ?_).trans (calm_pumpAll _ _)
    split
    · exact calm_modOp _ _ _ _
    split
    next t _ _ =>
      have hr := (keeps_calm (mk := 1048620) (fun _ => gatherRows_fr (e := e) (c := c) (op := op) (x := t.desc) (u := u) (row := row) (by decide)) rfl).runAct (modOp s e c fun o => { o with out := o.out - 1 })
      split
      · exact hr
      · exact hr.trans (calm_modOp _ _ _ _)
    next =>
      split
      · exact .of_fry ((modGe_fr (mk := 8208) (by decide) (Fr.refl _ _)).same .fry rfl)
      · exact .refl _
    next => exact .refl _

theorem calm_orderMove (s : State) (h t i m : Nat) : Calm s (orderMove s h t i m) := by
  unfold orderMove
  split
  · split
    · exact .refl s
    · exact (calm_purserRuns _ _).after rfl
  · split
    · exact .refl s
    · exact (calm_purserSend _ _ _).after rfl

theorem calm_orderMoves (l : List (Nat × Nat × Nat × Nat)) (s : State) : Calm s (orderMoves l s) := by
  induction l generalizing s with
  | nil => exact .of_fry rfl
  | cons x l ih =>
    rw [orderMoves]
    split
    · exact .of_fry rfl
    · exact (calm_orderMove _ _ _ _ _).trans (ih _)

theorem calm_moveEnded (s : State) (h : Nat) : Calm s (moveEnded s h) := by
  unfold moveEnded
  split
  · exact (calm_orderMoves _ _).after rfl
  · exact .refl s

theorem calm_endMigrate (s : State) (e c : Nat) (op : GthOp) (st : Status) : Calm s (endMigrate s e c op st) := by
  unfold endMigrate
  refine (((calm_completeCmd _ _ _ _ _ _).after ?_).trans (calm_pumpAll _ _)).trans (calm_orderMoves _ _)
  exact ((releaseRow_fr (mk := 8208) (by decide) (modGe_fr (by decide) (Fr.refl _ s))).same .fry rfl)

theorem calm_freeSpareAt (w : Who) (x : TableDesc) (t m n : Nat) : Keeps Calm (freeSpareAt w x t m n) := by
  refine Keeps.get_bind fun s => ?_
  split
  · exact (keeps_calm (mk := 1048620) (fun _ => giveSpare_fr (by decide)) rfl).of s
  · exact calm_purserSend _ _ _

theorem calm_wr (w : Who) (a : Nat) (b : Bytes) : Keeps Calm (wr w a b) :=
  keeps_calm (mk := 1048620) (fun _ => wr_fr (by decide)) rfl

theorem calm_countMoved (w : Who) (x : TableDesc) (up : Bool) : Keeps Calm (countMoved w x up) :=
  keeps_calm (mk := 1048620) (fun _ => countMoved_fr (by decide)) rfl

theorem calm_wrRedirect (w : Who) (a i st target slot : Nat) : Keeps Calm (wrRedirect w a i st target slot) :=
  keeps_calm (mk := 1048620) (fun _ => wrRedirect_fr (by decide)) rfl

theorem calm_undoMove (e c : Nat) (op : GthOp) (x : TableDesc) : Keeps Calm (undoMove e c op x) := by
  unfold undoMove
  split
  · exact Keeps.pure steady_calm _
  · dsimp only
    split
    · exact Keeps.bind steady_calm (calm_freeSpareAt _ _ _ _ _) fun _ => calm_wr _ _ _
    · exact Keeps.bind steady_calm (calm_countMoved _ _ _) fun _ => calm_wr _ _ _

theorem calm_finishMove (e c : Nat) (op : GthOp) (x : TableDesc) (row : Bytes) : Keeps Calm (finishMove e c op x row) := by
  have hcount : Keeps Calm (actMod fun s => modGth s fun g => { g with migrated := g.migrated + 1 }) := ⟨fun s => .of_fry rfl⟩
  unfold finishMove
  dsimp only
  split
  · exact Keeps.bind steady_calm (calm_countMoved _ _ _) fun _ => Keeps.bind steady_calm (calm_wrRedirect _ _ _ _ _ _) fun _ => hcount
  · exact Keeps.bind steady_calm (calm_wr _ _ _) fun _ => Keeps.bind steady_calm (calm_freeSpareAt _ _ _ _ _) fun _ =>
      Keeps.bind steady_calm (calm_wrRedirect _ _ _ _ _ _) fun _ => hcount

theorem calm_migrateEnded (s : State) (e c : Nat) (st : Status) (row : Bytes) : Calm s (migrateEnded s e c st row) := by
  unfold migrateEnded
  split
  · exact .refl s
  next op _ =>
    split
    · exact calm_endMigrate _ _ _ _ _
    next t _ =>
      split
      · exact ((calm_undoMove e c op t.desc).runAct s).trans (calm_endMigrate _ _ _ _ _)
      · have h := (calm_finishMove e c op t.desc row).runAct s
        split
        next heq => rw [heq] at h; exact h.trans (calm_endMigrate _ _ _ _ _)
        next heq =>
          rw [heq] at h
          exact (h.trans ((calm_undoMove e c op t.desc).runAct _)).trans (calm_endMigrate _ _ _ _ _)

theorem calm_gatherPathLost (s : State) (x : Nat) : Calm s (gatherPathLost s x) := by
  unfold gatherPathLost
  exact (steady_calm.foldl (fun _ _ => calm_migrateEnded _ _ _ _ _) _ s).trans (calm_moveEnded _ _)

/-! ### Collectives -/

theorem calm_endColl (s : State) (b c : Nat) (x : CollOp) (st : Status) : Calm s (endColl s b c x st) := by
  unfold endColl
  dsimp only
  refine Calm.trans (.of_fry ?_) (calm_completeCmd _ _ _ _ _ _)
  split <;> rfl

theorem calm_collPort {s t : State} {x : CollOp} {m p : Nat} (h : collPort s x m = some (p, t)) : Calm s t := by
  unfold collPort at h
  split at h
  · split at h
    · obtain ⟨-, rfl⟩ := Prod.mk.inj (Option.some.inj h)
      exact .refl s
    · exact absurd h (by simp)
  · exact calm_choosePort h

theorem calm_collPiece (s : State) (port rank : Option Nat) (f : FFrame) : Calm s (collPiece s port rank f) := by
  unfold collPiece
  split
  · exact .refl s
  next b c x _ =>
    have hput (y : CollOp) : Calm s (if y.kind = 3 || f.arg ≥ y.steps || f.arg < y.recv then s else
        match runAct (wr (whoColl b c) (y.stage f.arg + f.offset) f.payload) s with
        | (.ok, s) => putColl s b c { y with
            begun := true, got := tabPut y.got f.arg (tabGet 0 y.got f.arg + f.payload.length) }
        | (st, s) => endColl s b c y st) := by
      split
      · exact .refl s
      · have h := (calm_wr (whoColl b c) (y.stage f.arg + f.offset) f.payload).runAct s
        split
        next heq => rw [heq] at h; exact h.trans (.of_fry rfl)
        next heq => rw [heq] at h; exact h.trans (calm_endColl _ _ _ _ _)
    exact hput _

theorem calm_sendMember {s t : State} {x y : CollOp} {r : Nat} {f : FFrame} (h : sendMember s x r f = some (t, y)) : Calm s t := by
  unfold sendMember at h
  dsimp only at h
  split at h
  · obtain ⟨rfl, -⟩ := Prod.mk.inj (Option.some.inj h)
    split
    · exact calm_collPiece _ _ _ _
    · exact .of_fry ((collReadyFrame_fr (mk := 512) (by decide) (Fr.refl _ _)).same .fry rfl)
  · split at h
    next heq =>
      obtain ⟨rfl, -⟩ := Prod.mk.inj (Option.some.inj h)
      exact (calm_collPort heq).trans (calm_queueFrame _ _ _ _)
    next => exact absurd h (by simp)

theorem calm_tellDelivered (s : State) (b c : Nat) (x : CollOp) (r : Nat) : Calm s (tellDelivered s b c x r) := by
  unfold tellDelivered
  split
  next heq => exact (calm_sendMember heq).trans (.of_fry rfl)
  next => exact calm_endColl _ _ _ _ _

theorem calm_chunkEnded (s : State) (b c id j : Nat) (st : Status) : Calm s (chunkEnded s b c id j st) := by
  unfold chunkEnded
  split
  · exact .refl s
  · dsimp only
    split
    · exact .refl s
    split
    · exact calm_endColl _ _ _ _ _
    split
    · exact .of_fry rfl
    · exact calm_tellDelivered _ _ _ _ _

theorem calm_collPathLost (s : State) (p m : Nat) : Calm s (collPathLost s p m) := by
  unfold collPathLost
  exact steady_calm.foldl (fun _ _ => calm_endColl _ _ _ _ _) _ s

/-! ### The end of an operation, and of what a lost path carried -/

theorem calm_endWaiter (s : State) (o : FerryOp) (st : Status) (back : Bool) : Calm s (endWaiter s o st back) := by
  have hback (q n c : Nat) : Calm s (if back then modAccount s q o.module c fun g => g.giveBack n else s) := by
    cases back
    · exact .refl s
    · exact calm_modAccount s q o.module c fun g => g.giveBack n
  unfold endWaiter
  split
  · exact (calm_completeCmd _ _ _ _ _ _).after rfl
  · exact (hback _ _ _).trans (calm_completeCmd _ _ _ _ _ _)
  · exact calm_dispatchEnded _ _ _ _ _
  · exact (hback _ _ _).trans (calm_notifyEnded _ _ _ _)
  · exact calm_migrateEnded _ _ _ _ _
  · exact calm_rowDone _ _ _ _ _ _ _
  · exact calm_chunkEnded _ _ _ _ _ _

theorem calm_dropOp (s : State) (t : Nat) : Calm s (dropOp s t) := ⟨rfl, (CalmFry.refl s.fry).path⟩

theorem calm_endOp (s : State) (t : Nat) (st : Status) (back : Bool) : Calm s (endOp s t st back) := by
  unfold endOp
  split
  · exact (calm_dropOp _ _).trans (calm_endWaiter _ _ _ _)
  · exact .refl s

theorem calm_rowLost (s : State) (x ctx m : Nat) (tag : BitVec 32) : Calm s (rowLost s x ctx m tag) := by
  unfold rowLost
  split
  · exact .refl s
  split
  next h => exact (calm_choosePort h).trans (calm_queueFrame _ _ _ _)
  next => exact .refl s

theorem calm_dropServed (s : State) (p x : Nat) (frames : List FFrame) : Calm s (dropServed s p x frames) := by
  have hwrites : Calm s (modFry s fun y => { y with writes := y.writes.filter fun w => w.1 ≠ pathKey p x }) :=
    ⟨rfl, (CalmFry.refl s.fry).path⟩
  unfold dropServed
  dsimp only
  refine Calm.trans ?_ (steady_calm.foldl (fun _ _ => calm_rowLost _ _ _ _ _) _ _)
  refine hwrites.trans ((steady_calm.foldl (fun t r => ?_) _ _).after rfl)
  split
  · exact calm_rowLost _ _ _ _ _
  · exact calm_rowDone _ _ _ _ _ _ _

theorem calm_loseMaps (s : State) (x : Nat) : Calm s (loseMaps s x) := by
  unfold loseMaps
  split <;> exact .of_fry rfl

theorem calm_loseAnswers (s : State) (x : Nat) : Calm s (loseAnswers s x) := by
  unfold loseAnswers
  split
  · exact .refl s
  · exact (steady_calm.foldl (fun _ _ => calm_endPlain _ _ _) _ s).trans (.of_fry rfl)

end Sys2Proof.Proofs
end

