-- ==== Sys2Proof/Proofs/Paths.lean ====
section
/-! PROOFS. Frames that leave by a port, the announcing of grants, and what becomes of a path (spec/16 R406, R408, R410, R414). -/

namespace Sys2Proof.Proofs

open Sys2Proof Sys2Proof.Machine Sys2Proof.Laws

theorem pathKey_inj {p x y : Nat} : pathKey p x = pathKey p y ↔ x = y := by
  unfold pathKey
  omega

theorem getPath_modPath_ne (s : State) {p x q y : Nat} (f : PathSt → PathSt) (h : pathKey p x ≠ pathKey q y) :
    getPath (modPath s p x f) q y = getPath s q y := by
  rw [getPath, modPath, modFry]
  exact tabGet_tabPut_ne _ _ _ h

@[simp] theorem getPort_modPath (s : State) (p x : Nat) (f : PathSt → PathSt) (q : Nat) : getPort (modPath s p x f) q = getPort s q := rfl

@[simp] theorem getPath_modPort (s : State) (p : Nat) (f : PortSt → PortSt) (q x : Nat) : getPath (modPort s p f) q x = getPath s q x := rfl

/-! ### A frame leaves by a port -/

/-- The frame as it stands on the wire (spec/16 R408, Table 16-5). -/
def wireFrame (s : State) (p x : Nat) (f : FFrame) : FFrame :=
  { f with
    src := ownModule s, dst := if f.typ = .hello then 0 else x
    gen := if f.typ = .sync || f.typ = .syncAck then f.gen else (getPath s p x).gen
    ack := if f.typ = .hello then none else some (getPath s p x).exp
    credit := if (getPath s p x).state = .up then
      some ((getPath s p x).lastVc, (getVc (getPath s p x) (getPath s p x).lastVc).freed) else none
    mac := (getPort s p).mac }

/-- The address the frame goes to. -/
def wireMac (s : State) (p x : Nat) (f : FFrame) : BitVec 48 := if f.typ = .hello then s.fry.groupMac else destMac s p x

/-- What leaves: address, frame and bytes. -/
def wireOf (s : State) (p x : Nat) (f : FFrame) : BitVec 48 × FFrame × Bytes :=
  (wireMac s p x f, wireFrame s p x f, ferryWire s x (wireMac s p x f) (wireFrame s p x f))

/-- A path that has acknowledged all it received. -/
def ackSent (y : PathSt) : PathSt := { y with unsentAcks := 0 }

theorem transmit_eq (s : State) (p x : Nat) (f : FFrame) : transmit s p x f =
    if (getPort s p).cal then modPort (modPath s p x ackSent) p fun y => { y with wait := y.wait ++ [wireOf s p x f] }
    else sendWire (modPath s p x ackSent) p (wireOf s p x f) := rfl

theorem transmit_open {s : State} {p : Nat} (hcal : (getPort s p).cal = false) (x : Nat) (f : FFrame) :
    transmit s p x f = sendWire (modPath s p x ackSent) p (wireOf s p x f) := by
  rw [transmit_eq, if_neg (by simp [hcal])]

theorem transmit_held {s : State} {p : Nat} (hcal : (getPort s p).cal = true) (x : Nat) (f : FFrame) :
    transmit s p x f = modPort (modPath s p x ackSent) p fun y => { y with wait := y.wait ++ [wireOf s p x f] } := by
  rw [transmit_eq, if_pos hcal]

theorem transmit_outs {s : State} {p : Nat} (hcal : (getPort s p).cal = false) (x : Nat) (f : FFrame) :
    (transmit s p x f).outs = .ferry p (wireMac s p x f) (wireFrame s p x f) (wireOf s p x f).2.2 :: s.outs := by
  rw [transmit_open hcal]
  rfl

theorem transmit_goes {s : State} {p : Nat} (hcal : (getPort s p).cal = false) (x : Nat) (f : FFrame) :
    ∃ h w, (transmit s p x f).outs = .ferry p (wireMac s p x f) h w :: s.outs ∧ h = wireFrame s p x f :=
  ⟨_, _, transmit_outs hcal x f, rfl⟩

/-- Either way the path has told what it has received, and nothing else of it is new. -/
theorem transmit_paths (s : State) (p x : Nat) (f : FFrame) : (transmit s p x f).fry.paths = (modPath s p x ackSent).fry.paths := by
  cases hcal : (getPort s p).cal with
  | false => rw [transmit_open hcal]; rfl
  | true => rw [transmit_held hcal]; rfl

theorem getPath_transmit (s : State) (p x : Nat) (f : FFrame) : getPath (transmit s p x f) p x = ackSent (getPath s p x) := by
  rw [getPath, transmit_paths]
  exact getPath_modPath s p x ackSent

theorem getPort_transmit {s : State} {p : Nat} (hcal : (getPort s p).cal = false) (x : Nat) (f : FFrame) :
    getPort (transmit s p x f) p = { getPort s p with txFrames := (getPort s p).txFrames + 1 } := by
  rw [transmit_open hcal]
  exact getPort_modPort (modPath s p x ackSent) p fun y => { y with txFrames := y.txFrames + 1 }

theorem getPort_transmit_ne (s : State) {p q : Nat} (h : p ≠ q) (x : Nat) (f : FFrame) : getPort (transmit s p x f) q = getPort s q := by
  cases hcal : (getPort s p).cal with
  | false =>
    rw [transmit_open hcal]
    exact getPort_modPort_ne (modPath s p x ackSent) (fun y => { y with txFrames := y.txFrames + 1 }) h
  | true =>
    rw [transmit_held hcal]
    exact getPort_modPort_ne (modPath s p x ackSent) (fun y => { y with wait := y.wait ++ [wireOf s p x f] }) h

theorem transmit_frame (s : State) (p x : Nat) (f : FFrame) :
    transmit s p x f = { s with fry := (transmit s p x f).fry, outs := (transmit s p x f).outs } :=
  (transmit_fr (mk := 1048832) (by decide) (Fr.refl _ _) : Fr 1048832 s (transmit s p x f)).eq_merge

/-- A frame has left by a port, or waits for the end of its calibration. -/
def Leaves (t : State) (p : Nat) (mac : BitVec 48) (f : FFrame) (w : Bytes) : Prop :=
  Out.ferry p mac f w ∈ t.outs ∨ (mac, f, w) ∈ (getPort t p).wait

theorem transmit_leaves (s : State) (p x : Nat) (f : FFrame) :
    Leaves (transmit s p x f) p (wireMac s p x f) (wireFrame s p x f) (wireOf s p x f).2.2 := by
  cases hcal : (getPort s p).cal with
  | false => exact .inl (by rw [transmit_outs hcal]; exact .head _)
  | true =>
    refine .inr ?_
    rw [transmit_held hcal, getPort_modPort (modPath s p x ackSent) p fun y => { y with wait := y.wait ++ [wireOf s p x f] }]
    exact List.mem_append_right _ (.head _)

/-! ### What frames that leave may change -/

/-- A port of which only frames sent or waiting may be new. -/
def PortSent (x y : PortSt) : Prop := ∃ w, y = { x with txFrames := y.txFrames, wait := x.wait ++ w }

theorem PortSent.refl (x : PortSt) : PortSent x x := ⟨[], by rw [List.append_nil]⟩

theorem PortSent.trans {x y z : PortSt} (h : PortSent x y) (h' : PortSent y z) : PortSent x z := by
  obtain ⟨v, hv⟩ := h
  obtain ⟨w, hw⟩ := h'
  exact ⟨v ++ w, by rw [hw, hv, List.append_assoc]⟩

/-- A path of which only the acknowledgement and the grants given may be new. -/
structure PathTold (x y : PathSt) : Prop where
  eq : y = { x with unsentAcks := y.unsentAcks, vcs := y.vcs }
  grant (v : Nat) : (getVc y v).grant = (getVc x v).grant

theorem PathTold.refl (x : PathSt) : PathTold x x := ⟨rfl, fun _ => rfl⟩

theorem PathTold.trans {x y z : PathSt} (h : PathTold x y) (h' : PathTold y z) : PathTold x z :=
  ⟨by rw [h'.eq, h.eq], fun v => (h'.grant v).trans (h.grant v)⟩

theorem PathTold.state {x y : PathSt} (h : PathTold x y) : y.state = x.state := by rw [h.eq]

theorem PathTold.gen {x y : PathSt} (h : PathTold x y) : y.gen = x.gen := by rw [h.eq]

/-- Frames have left by ports of `ps`: of the ferry block ports have sent or hold them, and every path is as `R` says. -/
structure Spoke (R : State → Nat → PathSt → PathSt → Prop) (ps : Nat → Prop) (s t : State) : Prop where
  frame : t = { s with fry := t.fry, outs := t.outs }
  fry : t.fry = { s.fry with ports := t.fry.ports, paths := t.fry.paths }
  port (q : Nat) : PortSent (getPort s q) (getPort t q)
  other (q : Nat) : ¬ ps q → getPort t q = getPort s q
  outs : ∃ l, t.outs = l ++ s.outs
  path (k : Nat) : R t k (tabGet {} s.fry.paths k) (tabGet {} t.fry.paths k)

theorem Leaves.spoke {R : State → Nat → PathSt → PathSt → Prop} {ps : Nat → Prop} {s t : State} (h : Spoke R ps s t) {p : Nat}
    {mac : BitVec 48} {f : FFrame} {w : Bytes} (hl : Leaves s p mac f w) : Leaves t p mac f w := by
  obtain ⟨l, hl'⟩ := h.outs
  obtain ⟨v, hv⟩ := h.port p
  exact hl.imp (fun hm => by rw [hl']; exact List.mem_append_right _ hm) fun hm => by rw [hv]; exact List.mem_append_left _ hm

/-- Every path is as it was but for what its frames told. -/
abbrev Told : (Nat → Prop) → State → State → Prop := Spoke fun _ _ => PathTold

section
variable {R : State → Nat → PathSt → PathSt → Prop} {ps : Nat → Prop} {s t : State} (h : Spoke R ps s t)
include h

theorem Spoke.ownModule : ownModule t = ownModule s := by rw [Machine.ownModule, h.fry]; rfl

theorem Spoke.getEntry (x : Nat) : getEntry t x = getEntry s x := by rw [Machine.getEntry, h.fry]; rfl

theorem Spoke.entryNames (p x : Nat) : entryNames t p x = entryNames s p x := by
  rw [Machine.entryNames, h.getEntry, h.fry]
  rfl

theorem Spoke.ferryLive (p : Nat) : ferryLive t p = ferryLive s p := by
  obtain ⟨w, hw⟩ := h.port p
  rw [Machine.ferryLive, hw]
  rfl

theorem Spoke.cal (p : Nat) : (getPort t p).cal = (getPort s p).cal := by
  obtain ⟨w, hw⟩ := h.port p
  rw [hw]

theorem Spoke.mac (p : Nat) : (getPort t p).mac = (getPort s p).mac := by
  obtain ⟨w, hw⟩ := h.port p
  rw [hw]

theorem Spoke.destMac (p x : Nat) : destMac t p x = destMac s p x := by
  rw [Machine.destMac, h.getEntry, h.fry]
  rfl

end

theorem steady_told (ps : Nat → Prop) : Steady (Told ps) where
  refl s := ⟨rfl, rfl, fun _ => .refl _, fun _ _ => rfl, ⟨[], rfl⟩, fun _ => .refl _⟩
  trans {s t u} h h' := by
    refine ⟨by rw [h'.frame, h.frame], by rw [h'.fry, h.fry], fun q => (h.port q).trans (h'.port q),
      fun q hq => (h'.other q hq).trans (h.other q hq), ?_, fun k => (h.path k).trans (h'.path k)⟩
    obtain ⟨l, hl⟩ := h.outs
    obtain ⟨m, hm⟩ := h'.outs
    exact ⟨m ++ l, by rw [hm, hl, List.append_assoc]⟩

theorem told_modPath (ps : Nat → Prop) {s : State} {p x : Nat} {f : PathSt → PathSt} (hf : PathTold (getPath s p x) (f (getPath s p x))) :
    Told ps s (modPath s p x f) := by
  refine ⟨rfl, rfl, fun _ => .refl _, fun _ _ => rfl, ⟨[], rfl⟩, fun k => ?_⟩
  by_cases hk : pathKey p x = k
  · subst hk
    have h : tabGet {} (modPath s p x f).fry.paths (pathKey p x) = f (getPath s p x) := getPath_modPath s p x f
    rw [h]
    exact hf
  · have h : tabGet {} (modPath s p x f).fry.paths k = tabGet {} s.fry.paths k := tabGet_tabPut_ne _ _ _ hk
    rw [h]
    exact .refl _

theorem told_transmit {ps : Nat → Prop} {p : Nat} (hp : ps p) (s : State) (x : Nat) (f : FFrame) : Told ps s (transmit s p x f) := by
  refine ⟨transmit_frame s p x f, ?_, fun q => ?_, fun q hq => ?_, ?_, fun k => ?_⟩
  · rw [transmit_eq]
    split <;> rfl
  · by_cases hq : p = q
    · subst hq
      cases hcal : (getPort s p).cal with
      | false => rw [getPort_transmit hcal]; exact ⟨[], by rw [List.append_nil]⟩
      | true =>
        rw [transmit_held hcal, getPort_modPort (modPath s p x ackSent) p fun y => { y with wait := y.wait ++ [wireOf s p x f] }]
        exact ⟨[wireOf s p x f], rfl⟩
    · rw [getPort_transmit_ne s hq]
      exact .refl _
  · exact getPort_transmit_ne s (fun h : p = q => hq (h ▸ hp)) x f
  · cases hcal : (getPort s p).cal with
    | false => exact ⟨[_], transmit_outs hcal x f⟩
    | true => exact ⟨[], by rw [transmit_held hcal]; rfl⟩
  · rw [transmit_paths]
    exact (told_modPath ps (s := s) (p := p) (x := x) (f := ackSent) ⟨rfl, fun _ => rfl⟩).path k

/-! ### Grants -/

theorem getVc_modVc (x : PathSt) (v w : Nat) (f : VcCount → VcCount) :
    getVc (modVc x v f) w = if v = w then f (getVc x v) else getVc x w := tabGet_tabMod _ _ _ _ _

/-- Grants given one after another. -/
theorem pathTold_given (l : List (Nat × Nat)) (y : PathSt) : PathTold y (l.foldl (fun y gv => modVc y gv.2 fun c =>
    { c with given := gv.1, most := max c.most gv.1 }) y) := by
  induction l generalizing y with
  | nil => exact .refl y
  | cons a l ih =>
    refine PathTold.trans ⟨rfl, fun v => ?_⟩ (ih _)
    rw [getVc_modVc]
    split
    next h => rw [h]
    next => rfl

theorem told_giveGrants (ps : Nat → Prop) (s : State) (p x : Nat) (g : List Nat) : Told ps s (giveGrants s p x g) :=
  told_modPath ps (pathTold_given _ _)

theorem told_announceGrants {ps : Nat → Prop} {p : Nat} (hp : ps p) (s : State) : Told ps s (announceGrants s p) := by
  unfold announceGrants
  exact (steady_told ps).foldl (fun t x => (steady_told ps).trans (told_giveGrants ps t p x _) (told_transmit hp _ x _)) _ s

/-! ### A path begins to sync -/

/-- A SYNC with a proposal has left by a port, or waits for the end of its calibration. -/
def Proposed (t : State) (p x : Nat) (g : BitVec 16) : Prop :=
  ∃ f w, Leaves t p (destMac t p x) f w ∧ f.typ = .sync ∧ f.dst = x ∧ f.gen = g

theorem Proposed.spoke {R : State → Nat → PathSt → PathSt → Prop} {ps : Nat → Prop} {s t : State} (h : Spoke R ps s t) {p x : Nat}
    {g : BitVec 16} (hp : Proposed s p x g) : Proposed t p x g := by
  obtain ⟨f, w, hl, hf⟩ := hp
  rw [← h.destMac] at hl
  exact ⟨f, w, hl.spoke h, hf⟩

/-- The grants a SYNC carries stand as given. -/
theorem sendSync_eq {s : State} {p x : Nat} {g : BitVec 16} (h : (getPath s p x).proposal = some g) :
    sendSync s p x = transmit (giveGrants s p x (grantList s p)) p x { typ := .sync, gen := g, grants := some (grantList s p) } := by
  rw [sendSync, h]

theorem told_sendSync {ps : Nat → Prop} {p : Nat} (hp : ps p) (s : State) (x : Nat) : Told ps s (sendSync s p x) := by
  unfold sendSync
  split
  · exact (steady_told ps).trans (told_giveGrants ps s p x _) (told_transmit hp _ x _)
  · exact (steady_told ps).refl s

theorem proposed_sendSync {s : State} {p x : Nat} {g : BitVec 16} (h : (getPath s p x).proposal = some g) :
    Proposed (sendSync s p x) p x g := by
  have hd := (told_sendSync (ps := (· = p)) rfl s x).destMac p x
  rw [sendSync_eq h] at hd ⊢
  have hl := transmit_leaves (giveGrants s p x (grantList s p)) p x { typ := .sync, gen := g, grants := some (grantList s p) }
  rw [Proposed, hd]
  exact ⟨_, _, hl, rfl, rfl, rfl⟩

/-- A path that begins to sync proposes its next generation. -/
def syncing (y : PathSt) : PathSt := { state := .syncing, gen := y.gen, proposal := some (y.gen + 1) }

theorem startSync_eq (s : State) (p x : Nat) : startSync s p x = sendSync (announceGrants (modPath s p x syncing) p) p x := rfl

theorem told_startSync {ps : Nat → Prop} {p : Nat} (hp : ps p) (s : State) (x : Nat) :
    Told ps (modPath s p x syncing) (startSync s p x) :=
  (steady_told ps).trans (told_announceGrants hp _) (told_sendSync hp _ x)

theorem getPath_startSync (s : State) (p x : Nat) : PathTold (syncing (getPath s p x)) (getPath (startSync s p x) p x) := by
  have h := (told_startSync (ps := (· = p)) rfl s x).path (pathKey p x)
  have he : tabGet {} (modPath s p x syncing).fry.paths (pathKey p x) = syncing (getPath s p x) := getPath_modPath s p x syncing
  rw [he] at h
  exact h

theorem proposed_startSync (s : State) (p x : Nat) : Proposed (startSync s p x) p x ((getPath s p x).gen + 1) := by
  refine proposed_sendSync ?_
  have h := (told_announceGrants (ps := (· = p)) rfl (modPath s p x syncing)).path (pathKey p x)
  have he : tabGet {} (modPath s p x syncing).fry.paths (pathKey p x) = syncing (getPath s p x) := getPath_modPath s p x syncing
  have hp : (getPath (announceGrants (modPath s p x syncing) p) p x).proposal = (syncing (getPath s p x)).proposal := by
    rw [← he, getPath, h.eq]
  exact hp

/-- A path at rest may begin to sync. -/
def AtRest (y : PathSt) : Prop := y.state = .idle ∨ y.state = .lost

theorem not_atRest {y : PathSt} (h : y.state = .syncing) : ¬ AtRest y := by
  rw [AtRest, h]
  decide

/-- A path is as it was, or it was at rest and has proposed its next generation by a port of `ps`. -/
def PathSyncs (ps : Nat → Prop) (t : State) (k : Nat) (x y : PathSt) : Prop :=
  PathTold x y ∨ AtRest x ∧ y.state = .syncing ∧ y.gen = x.gen ∧ y.proposal = some (x.gen + 1) ∧
    ∃ p m, ps p ∧ k = pathKey p m ∧ Proposed t p m (x.gen + 1)

/-- Frames have left, and paths at rest have begun to sync. -/
abbrev Syncs (ps : Nat → Prop) : State → State → Prop := Spoke (PathSyncs ps) ps

theorem Spoke.weaken {R R' : State → Nat → PathSt → PathSt → Prop} {ps : Nat → Prop} {s t : State} (h : Spoke R ps s t)
    (hR : ∀ k x y, R t k x y → R' t k x y) : Spoke R' ps s t :=
  ⟨h.frame, h.fry, h.port, h.other, h.outs, fun k => hR k _ _ (h.path k)⟩

theorem Spoke.syncs {ps : Nat → Prop} {s t : State} (h : Told ps s t) : Syncs ps s t := h.weaken fun _ _ _ => .inl

theorem steady_syncs (ps : Nat → Prop) : Steady (Syncs ps) where
  refl s := ((steady_told ps).refl s).syncs
  trans {s t u} h h' := by
    refine ⟨by rw [h'.frame, h.frame], by rw [h'.fry, h.fry], fun q => (h.port q).trans (h'.port q),
      fun q hq => (h'.other q hq).trans (h.other q hq), ?_, fun k => ?_⟩
    · obtain ⟨l, hl⟩ := h.outs
      obtain ⟨m, hm⟩ := h'.outs
      exact ⟨m ++ l, by rw [hm, hl, List.append_assoc]⟩
    · rcases h.path k with h1 | ⟨hrest, hstate, hgen, hprop, p, m, hp, hk, hout⟩
      · rcases h'.path k with h2 | ⟨hrest', hstate', hgen', hprop', hout'⟩
        · exact .inl (h1.trans h2)
        · rw [AtRest, h1.state] at hrest'
          rw [h1.gen] at hgen' hprop' hout'
          exact .inr ⟨hrest', hstate', hgen', hprop', hout'⟩
      · rcases h'.path k with h2 | ⟨hrest', -⟩
        · refine .inr ⟨hrest, h2.state.trans hstate, h2.gen.trans hgen, ?_, p, m, hp, hk, hout.spoke h'⟩
          rw [h2.eq]
          exact hprop
        · exact absurd hrest' (not_atRest hstate)

theorem syncs_startSync {ps : Nat → Prop} {p : Nat} (hp : ps p) (s : State) (x : Nat) (hrest : AtRest (getPath s p x)) :
    Syncs ps s (startSync s p x) := by
  have h := told_startSync hp s x
  refine ⟨h.frame, h.fry, h.port, h.other, h.outs, fun k => ?_⟩
  by_cases hk : pathKey p x = k
  · subst hk
    have hn := getPath_startSync s p x
    refine .inr ⟨hrest, hn.state, hn.gen, ?_, p, x, hp, rfl, proposed_startSync s p x⟩
    have : (getPath (startSync s p x) p x).proposal = (syncing (getPath s p x)).proposal := by rw [hn.eq]
    exact this
  · refine .inl ?_
    have he : tabGet {} (modPath s p x syncing).fry.paths k = tabGet {} s.fry.paths k := tabGet_tabPut_ne _ _ _ hk
    have := h.path k
    rw [he] at this
    exact this

/-- The paths a port has to modules begin to sync where they are at rest. -/
def trySync (s : State) (p x : Nat) : State :=
  match (getPath s p x).state with
  | .idle | .lost => startSync s p x
  | _ => s

theorem syncs_trySync {ps : Nat → Prop} {p : Nat} (hp : ps p) (s : State) (x : Nat) : Syncs ps s (trySync s p x) := by
  unfold trySync
  split
  next h => exact syncs_startSync hp s x (.inl h)
  next h => exact syncs_startSync hp s x (.inr h)
  next => exact (steady_syncs ps).refl s

theorem trySync_active (s : State) (p x : Nat) : ¬ AtRest (getPath (trySync s p x) p x) := by
  unfold trySync
  split
  next => exact not_atRest (getPath_startSync s p x).state
  next => exact not_atRest (getPath_startSync s p x).state
  next h h' => exact fun hr => hr.elim h h'

/-- A path that is not at rest stays so. -/
theorem Spoke.active {ps : Nat → Prop} {s t : State} (h : Syncs ps s t) {p x : Nat} (ha : ¬ AtRest (getPath s p x)) :
    ¬ AtRest (getPath t p x) := by
  rcases h.path (pathKey p x) with h1 | ⟨hrest, -⟩
  · rw [AtRest, getPath, h1.state]
    exact ha
  · exact absurd hrest ha

/-- A path at rest that is no longer at rest has proposed its next generation. -/
theorem Spoke.begun {p x : Nat} {s t : State} (h : Syncs (· = p) s t) (hrest : AtRest (getPath s p x))
    (ha : ¬ AtRest (getPath t p x)) : (getPath t p x).state = .syncing ∧
      (getPath t p x).proposal = some ((getPath s p x).gen + 1) ∧ Proposed t p x ((getPath s p x).gen + 1) := by
  rcases h.path (pathKey p x) with h1 | ⟨-, hstate, -, hprop, q, m, rfl, hk, hout⟩
  · rw [AtRest, getPath, h1.state] at ha
    exact absurd hrest ha
  · rw [pathKey_inj.1 hk]
    rw [pathKey_inj.1 hk] at hstate hprop hout
    exact ⟨hstate, hprop, hout⟩

/-- Of a run of steps the one that starts a path leaves it started. -/
theorem foldl_active {α : Type} {ps : Nat → Prop} {p x : Nat} {f : State → α → State} (hf : ∀ s a, Syncs ps s (f s a)) {a : α} {s : State}
    (hact : ∀ t, Syncs ps s t → ¬ AtRest (getPath (f t a) p x)) {l : List α} (ha : a ∈ l) {t : State} (ht : Syncs ps s t) :
    ¬ AtRest (getPath (l.foldl f t) p x) := by
  induction l generalizing t with
  | nil => cases ha
  | cons b l ih =>
    rw [List.foldl_cons]
    rcases List.mem_cons.1 ha with rfl | h
    · exact ((steady_syncs ps).foldl hf l _).active (hact t ht)
    · exact ih h ((steady_syncs ps).trans ht (hf t b))

end Sys2Proof.Proofs
end

