-- ==== Sys2Proof/Proofs/PortPaths.lean ====
section
/-! PROOFS. Ports bring their paths up and lose them (spec/16 R394, R406, R410, R412). -/

namespace Sys2Proof.Proofs

open Sys2Proof Sys2Proof.Machine Sys2Proof.Laws

/-! ### The loss of a path -/

/-- What a lost path keeps. -/
def lostPath (y : PathSt) : PathSt := { state := .lost, gen := y.gen }

/-- The operations in flight that end with a path to module `x`: its own, and the pushes between the modules. -/
def lostOps (s : State) (p x : Nat) : Tab FerryOp :=
  s.fry.ops.filter fun o => o.2.module = x && (o.2.port = p || (match o.2.waiter with
    | .push .. => true | .notify .. => true | _ => false))

/-- What is left once everything that a lost path carried has ended. -/
def pathEnded (s : State) (p x : Nat) : State :=
  let t := pathEvent s p x
  let u := modPath t p x lostPath
  let v := (lostOps u p x).foldl (fun s o => endOp s o.1 .linkLost true)
    (dropServed u p x ((getPath t p x).unacked ++ (getPath t p x).sendq))
  gatherPathLost (loseMaps (loseAnswers (collPathLost (slipPathLost v x) p x) x) x) x

theorem pathLost_eq (s : State) (p x : Nat) : pathLost s p x =
    if ferryLive (pathEnded s p x) p && entryNames (pathEnded s p x) p x then startSync (pathEnded s p x) p x
    else announceGrants (pathEnded s p x) p := by
  rw [pathLost, pathEnded, lostOps]
  rfl

/-- The loss of a path: its operations end, which only puts frames in line; then it syncs again, or its port's grants are announced. -/
theorem pathLost_steps (s : State) (p x : Nat) : ∃ t, Calm (modPath s p x lostPath) t ∧
    pathLost s p x = if ferryLive t p && entryNames t p x then startSync t p x else announceGrants t p := by
  refine ⟨_, ?_, pathLost_eq s p x⟩
  have hevent : Calm (modPath s p x lostPath) (modPath (pathEvent s p x) p x lostPath) := by
    refine .of_fry ?_
    have h : (pathEvent s p x).fry = s.fry := (pathEvent_fr (mk := 1048580) (by decide) (Fr.refl _ s)).same .fry rfl
    rw [modPath, modPath, modFry, modFry, h]
  unfold pathEnded
  refine Calm.trans ?_ (calm_gatherPathLost _ _)
  refine Calm.trans ?_ (calm_loseMaps _ _)
  refine Calm.trans ?_ (calm_loseAnswers _ _)
  refine Calm.trans ?_ (calm_collPathLost _ _ _)
  refine Calm.trans ?_ (calm_slipPathLost _ _)
  refine Calm.trans ?_ (steady_calm.foldl (fun _ _ => calm_endOp _ _ _ _) _ _)
  exact hevent.trans (calm_dropServed _ _ _ _)

/-- Nothing has come up: ports have sent or hold frames, the table and the learned addresses are as before, and a path is in its
state or lost, with its unacknowledged frames or none. -/
structure Dulled (s t : State) : Prop where
  fry : t.fry = { s.fry with
    ports := t.fry.ports, paths := t.fry.paths, turn := t.fry.turn, nextTag := t.fry.nextTag, ops := t.fry.ops, writes := t.fry.writes }
  port (q : Nat) : PortSent (getPort s q) (getPort t q)
  state (q x : Nat) : (getPath t q x).state = (getPath s q x).state ∨ (getPath t q x).state = .lost
  unacked (q x : Nat) : (getPath s q x).unacked = [] → (getPath t q x).unacked = []

theorem steady_dulled : Steady Dulled where
  refl s := ⟨rfl, fun _ => .refl _, fun _ _ => .inl rfl, fun _ _ => id⟩
  trans {s t u} h h' := by
    refine ⟨by rw [h'.fry, h.fry], fun q => (h.port q).trans (h'.port q), fun q x => ?_, fun q x hx => h'.unacked q x (h.unacked q x hx)⟩
    rcases h'.state q x with h2 | h2
    · rw [h2]; exact h.state q x
    · exact .inr h2

theorem Calm.dulled {s t : State} (h : Calm s t) : Dulled s t := by
  refine ⟨by rw [h.eq], fun q => by rw [h.getPort]; exact .refl _, fun q x => .inl (h.state q x), fun q x hx => ?_⟩
  obtain ⟨fs, hfs⟩ := h.getPath q x
  rw [hfs]
  exact hx

theorem Spoke.dulled {ps : Nat → Prop} {s t : State} (h : Told ps s t) : Dulled s t :=
  ⟨by rw [h.fry], h.port, fun q x => .inl (h.path (pathKey q x)).state, fun q x hx => by rw [getPath, (h.path (pathKey q x)).eq]; exact hx⟩

theorem dulled_lostPath (s : State) (p x : Nat) : Dulled s (modPath s p x lostPath) := by
  refine ⟨rfl, fun _ => .refl _, fun q y => ?_, fun q y hy => ?_⟩ <;> by_cases hk : pathKey p x = pathKey q y
  · refine .inr ?_
    have h : getPath (modPath s p x lostPath) q y = getPath (modPath s p x lostPath) p x := by rw [getPath, getPath, hk]
    rw [h, getPath_modPath]
    rfl
  · rw [getPath_modPath_ne s lostPath hk]
    exact .inl rfl
  · have h : getPath (modPath s p x lostPath) q y = getPath (modPath s p x lostPath) p x := by rw [getPath, getPath, hk]
    rw [h, getPath_modPath]
    rfl
  · rw [getPath_modPath_ne s lostPath hk]
    exact hy

theorem Dulled.ferryLive {s t : State} (h : Dulled s t) (p : Nat) : ferryLive t p = ferryLive s p := by
  obtain ⟨w, hw⟩ := h.port p
  rw [Machine.ferryLive, hw]
  rfl

/-- A lost path is neither syncing nor up again on a port that is not live. -/
theorem pathLost_dark {s : State} {p : Nat} (hlive : ferryLive s p = false) (x : Nat) :
    Dulled s (pathLost s p x) ∧ (getPath (pathLost s p x) p x).state = .lost := by
  obtain ⟨t, ht, heq⟩ := pathLost_steps s p x
  have h1 := steady_dulled.trans (dulled_lostPath s p x) ht.dulled
  rw [h1.ferryLive, hlive, Bool.false_and, if_neg Bool.false_ne_true] at heq
  have hann := told_announceGrants (ps := (· = p)) rfl t
  rw [heq]
  refine ⟨steady_dulled.trans h1 hann.dulled, ?_⟩
  have hs : (getPath (announceGrants t p) p x).state = (getPath t p x).state := (hann.path (pathKey p x)).state
  rw [hs, ht.state, getPath_modPath]
  rfl

/-- Whatever becomes of a lost path, it is not up and nothing of it is unacknowledged. -/
theorem pathLost_ends (s : State) (p x : Nat) :
    (getPath (pathLost s p x) p x).unacked = [] ∧ (getPath (pathLost s p x) p x).state ≠ .up := by
  obtain ⟨t, ht, heq⟩ := pathLost_steps s p x
  obtain ⟨fs, hfs⟩ := ht.getPath p x
  rw [getPath_modPath] at hfs
  rw [heq]
  split
  · have h := getPath_startSync t p x
    rw [h.eq]
    exact ⟨rfl, PathState.noConfusion⟩
  · have h := (told_announceGrants (ps := (· = p)) rfl t).path (pathKey p x)
    have he : getPath (announceGrants t p) p x = { getPath t p x with
        unsentAcks := (getPath (announceGrants t p) p x).unsentAcks, vcs := (getPath (announceGrants t p) p x).vcs } := h.eq
    rw [he, hfs]
    exact ⟨rfl, PathState.noConfusion⟩

/-! ### A port loses every path -/

theorem foldl_pathLost {s : State} {p : Nat} (hlive : ferryLive s p = false) (l : List Nat) :
    Dulled s (l.foldl (fun s x => pathLost s p x) s) ∧ ∀ x ∈ l, (getPath (l.foldl (fun s x => pathLost s p x) s) p x).state = .lost := by
  induction l generalizing s with
  | nil => exact ⟨steady_dulled.refl s, fun x hx => absurd hx List.not_mem_nil⟩
  | cons y l ih =>
    obtain ⟨h1, hlost⟩ := pathLost_dark hlive y
    obtain ⟨h2, hrest⟩ := ih (s := pathLost s p y) (by rw [h1.ferryLive, hlive])
    rw [List.foldl_cons]
    refine ⟨steady_dulled.trans h1 h2, fun x hx => ?_⟩
    rcases List.mem_cons.1 hx with rfl | h
    · rcases h2.state p x with h3 | h3
      · rw [h3, hlost]
      · exact h3
    · exact hrest x h

theorem mem_livePaths {s : State} {p x : Nat} (hx : x < 4096) (h : (getPath s p x).state = .up ∨ (getPath s p x).state = .syncing) :
    x ∈ livePaths s p := by
  have hsome : tabFind s.fry.paths (pathKey p x) = some (getPath s p x) := by
    cases hf : tabFind s.fry.paths (pathKey p x) with
    | some y => rw [getPath, tabGet_of_find, hf]; rfl
    | none =>
      rw [getPath, tabGet_of_find, hf] at h
      rcases h with h | h <;> exact absurd h PathState.noConfusion
  refine List.mem_map.2 ⟨(pathKey p x, getPath s p x), List.mem_filter.2 ⟨mem_of_tabFind hsome, ?_⟩, ?_⟩
  · have hdiv : pathKey p x / 4096 = p := by unfold pathKey; omega
    rcases h with h | h <;> simp [hdiv, h]
  · show (p * 4096 + x) % 4096 = x
    omega

theorem losePort_loses {s : State} {p : Nat} (hlive : ferryLive s p = false) : Claim.pathsLost (losePort s p) p ∧
    ∃ w n, getPort (losePort s p) p = { getPort s p with wait := w, txFrames := n } := by
  obtain ⟨u, hu⟩ : ∃ u, u = emptied s p := ⟨_, rfl⟩
  have hport : getPort u p = { getPort s p with wait := [] } := by
    rw [hu]
    exact getPort_modPort _ p fun x => { x with wait := [] }
  have hlive' : ferryLive u p = false := by
    rw [← hlive, Machine.ferryLive, hport]
    rfl
  obtain ⟨hd, hlost⟩ := foldl_pathLost hlive' (livePaths u p)
  have heq : losePort s p = (livePaths u p).foldl (fun s x => pathLost s p x) u := by rw [hu]; rfl
  rw [heq]
  obtain ⟨w, hw⟩ := hd.port p
  refine ⟨fun x hx => ?_, _, _, by rw [hw, hport]⟩
  have hstate : (getPath ((livePaths u p).foldl (fun s x => pathLost s p x) u) p x).state ≠ .up ∧
      (getPath ((livePaths u p).foldl (fun s x => pathLost s p x) u) p x).state ≠ .syncing := by
    by_cases h : (getPath u p x).state = .up ∨ (getPath u p x).state = .syncing
    · rw [hlost x (mem_livePaths hx h)]
      exact ⟨PathState.noConfusion, PathState.noConfusion⟩
    · rcases hd.state p x with h1 | h1
      · rw [h1]; exact ⟨fun h2 => h (.inl h2), fun h2 => h (.inr h2)⟩
      · rw [h1]; exact ⟨PathState.noConfusion, PathState.noConfusion⟩
  refine ⟨hstate.1, hstate.2, ?_⟩
  rw [hd.fry]
  have hl : u.fry.learned = s.fry.learned.filter fun l => l.1 / 4096 ≠ p := by rw [hu]; rfl
  show tabFind u.fry.learned (pathKey p x) = none
  cases hf : tabFind u.fry.learned (pathKey p x) with
  | none => rfl
  | some m =>
    have hm := mem_of_tabFind hf
    rw [hl] at hm
    have hne : pathKey p x / 4096 ≠ p := of_decide_eq_true (List.mem_filter.1 hm).2
    exact absurd (by unfold pathKey; omega) hne

/-! ### A port brings its paths up -/

theorem syncPort_eq {s : State} {p : Nat} (h : ferryLive s p = true) : syncPort s p =
    (s.fry.entries.filter fun e => entryNames s p e.1 && e.1 ≠ ownModule s).foldl (fun s e => trySync s p e.1) s := by
  rw [syncPort, h, if_neg (by decide)]
  rfl

theorem syncs_syncPort {ps : Nat → Prop} {p : Nat} (hp : ps p) (s : State) : Syncs ps s (syncPort s p) := by
  cases h : ferryLive s p with
  | false => rw [syncPort, h, if_pos (by decide)]; exact (steady_syncs ps).refl s
  | true => rw [syncPort_eq h]; exact (steady_syncs ps).foldl (f := fun s (e : Nat × PathEntry) => trySync s p e.1) (fun t e => syncs_trySync hp t e.1) _ s

/-- The paths the table names begin to sync. -/
theorem syncPort_begins {s : State} {p : Nat} (h : ferryLive s p = true) (x : Nat) : Claim.pathsSync s (syncPort s p) p x := by
  intro hnames hown hrest
  have hmem : ∃ e ∈ s.fry.entries, e.1 = x := by
    cases hf : tabFind s.fry.entries x with
    | some y => exact ⟨(x, y), mem_of_tabFind hf, rfl⟩
    | none =>
      rw [entryNames, getEntry, tabGet_of_find, hf] at hnames
      simp at hnames
  obtain ⟨e, he, rfl⟩ := hmem
  have hact : ¬ AtRest (getPath (syncPort s p) p e.1) := by
    rw [syncPort_eq h]
    exact foldl_active (ps := (· = p)) (f := fun s (e : Nat × PathEntry) => trySync s p e.1) (fun t e => syncs_trySync (ps := (· = p)) rfl t e.1) (fun t _ => trySync_active t p e.1)
      (List.mem_filter.2 ⟨he, by simp [hnames, hown]⟩) ((steady_syncs (· = p)).refl s)
  obtain ⟨hstate, hprop, f, w, hl, htyp, hdst, hgen⟩ := (syncs_syncPort (ps := (· = p)) rfl s).begun hrest hact
  exact ⟨hstate, hprop, _, f, w, hl, htyp, hdst, hgen⟩

/-! ### Writes of a port's configuration -/

/-- The value a write of FRY_p_CFG enables or disables a port with keeps MODE and MAX_FRAME. -/
theorem bits_mode {v k : W64} (hk : k.extractLsb' 61 2 = 0#2) : bits (v ||| k).toNat 62 61 = v.toNat / 2 ^ 61 % 4 := by
  have h : (v ||| k).extractLsb' 61 2 = v.extractLsb' 61 2 := by rw [BitVec.extractLsb'_or, hk, BitVec.or_zero]
  have hn := congrArg BitVec.toNat h
  rw [BitVec.extractLsb'_toNat, BitVec.extractLsb'_toNat, Nat.shiftRight_eq_div_pow, Nat.shiftRight_eq_div_pow] at hn
  exact hn

theorem bits_mode_and {v k : W64} (hk : k.extractLsb' 61 2 = BitVec.allOnes 2) : bits (v &&& k).toNat 62 61 = v.toNat / 2 ^ 61 % 4 := by
  have h : (v &&& k).extractLsb' 61 2 = v.extractLsb' 61 2 := by rw [BitVec.extractLsb'_and, hk, BitVec.and_allOnes]
  have hn := congrArg BitVec.toNat h
  rw [BitVec.extractLsb'_toNat, BitVec.extractLsb'_toNat, Nat.shiftRight_eq_div_pow, Nat.shiftRight_eq_div_pow] at hn
  exact hn

theorem bits_maxFrame {v k : W64} (hk : k.extractLsb' 0 14 = 0#14) : bits (v ||| k).toNat 13 0 = v.toNat % 2 ^ 14 := by
  have h : (v ||| k).extractLsb' 0 14 = v.extractLsb' 0 14 := by rw [BitVec.extractLsb'_or, hk, BitVec.or_zero]
  have hn := congrArg BitVec.toNat h
  rw [BitVec.extractLsb'_toNat, BitVec.extractLsb'_toNat, Nat.shiftRight_zero, Nat.shiftRight_zero] at hn
  rw [bits, pow_zero, Nat.div_one]
  exact hn

/-- The configuration a write of FRY_p_CFG gives. -/
def configured (v : W64) (x : PortSt) : PortSt :=
  { x with
    enable := v.getLsbD 63, mode := BitVec.ofNat 2 (bits v.toNat 62 61), promisc := bit v.toNat 60, irqEn := bit v.toNat 59
    irqHart := BitVec.ofNat 5 (bits v.toNat 58 54), maxFrame := BitVec.ofNat 14 (clamp 1518 9216 (bits v.toNat 13 0)) }

theorem portCfgWrite_eq (s : State) (p : Nat) (v : W64) : portCfgWrite s p v =
    if (getPort s p).enable && bits v.toNat 62 61 ≠ (getPort s p).mode.toNat then s
    else if (getPort s p).enable && !v.getLsbD 63 && (getPort s p).mode = 0 then losePort (modPort s p (configured v)) p
    else if !(getPort s p).enable && v.getLsbD 63 then syncPort (modPort s p (configured v)) p
    else modPort s p (configured v) := rfl

theorem portEnable_eq {a : Agent} (ha : a ≠ .mgmt) {p : Nat} (hp : p < 16) (v : W64) (s : State) :
    portEnable s a p v = portCfgWrite s p (v ||| 0x8000000000000000) := by
  rw [portEnable, byAgent, if_neg ha, if_pos hp]

theorem portDisable_eq {a : Agent} (ha : a ≠ .mgmt) {p : Nat} (hp : p < 16) (v : W64) (s : State) :
    portDisable s a p v = portCfgWrite s p (v &&& 0x7FFFFFFFFFFFFFFF) := by
  rw [portDisable, byAgent, if_neg ha, if_pos hp]

/-- The paths of a port are those before its configuration changed. -/
theorem pathsSync_modPort {s t : State} {p x : Nat} {f : PortSt → PortSt} (h : Claim.pathsSync (modPort s p f) t p x) :
    Claim.pathsSync s t p x := h

theorem enablePort_does {a : Agent} (ha : a ≠ .mgmt) {p : Nat} (hp : p < 16) (v : W64) {s : State} (hoff : (getPort s p).enable = false) :
    Does (.portEnable a p v) s fun t =>
      (getPort t p).enable = true ∧ (getPort t p).mode.toNat = v.toNat / 2 ^ 61 % 4 ∧
      (getPort t p).maxFrame.toNat = max 1518 (min 9216 (v.toNat % 2 ^ 14)) ∧
      ((getPort s p).link = true → v.toNat / 2 ^ 61 % 4 = 0 → ∀ x, Claim.pathsSync s t p x) ∧
      (∀ q, q ≠ p → getPort t q = getPort s q) ∧ t.mem = s.mem := by
  have hon : (v ||| 0x8000000000000000 : W64).getLsbD 63 = true := by rw [BitVec.getLsbD_or]; simp
  have hrow : portEnable s a p v = syncPort (modPort s p (configured (v ||| 0x8000000000000000))) p := by
    rw [portEnable_eq ha hp, portCfgWrite_eq, hoff, hon]
    rfl
  obtain ⟨w, hw⟩ : ∃ w, w = v ||| 0x8000000000000000 := ⟨_, rfl⟩
  have hmode : bits w.toNat 62 61 = v.toNat / 2 ^ 61 % 4 := by rw [hw]; exact bits_mode (by decide)
  have hmax : bits w.toNat 13 0 = v.toNat % 2 ^ 14 := by rw [hw]; exact bits_maxFrame (by decide)
  rw [← hw] at hrow hon
  have hs := syncs_syncPort (ps := (· = p)) rfl (modPort s p (configured w))
  have hport : getPort (modPort s p (configured w)) p = configured w (getPort s p) := getPort_modPort s p (configured w)
  obtain ⟨u, hu⟩ := hs.port p
  rw [hport] at hu
  refine does_of (congrArg Host.Outcome.next hrow) ⟨?_, ?_, ?_, fun hlink hm x => ?_, fun q hq => ?_, ?_⟩
  · rw [hu]; exact hon
  · rw [hu]
    show (BitVec.ofNat 2 (bits w.toNat 62 61)).toNat = _
    rw [BitVec.toNat_ofNat, hmode]
    omega
  · rw [hu]
    show (BitVec.ofNat 14 (clamp 1518 9216 (bits w.toNat 13 0))).toNat = _
    rw [BitVec.toNat_ofNat, hmax, clamp]
    omega
  · refine pathsSync_modPort (f := configured w) (syncPort_begins ?_ x)
    have h0 : (configured w (getPort s p)).mode = 0 := by
      show BitVec.ofNat 2 (bits w.toNat 62 61) = 0#2
      rw [hmode, hm]
    rw [ferryLive, hport, h0]
    show (w.getLsbD 63 && true && (getPort s p).link) = true
    rw [hon, hlink]
    rfl
  · exact (hs.other q hq).trans (getPort_modPort_ne s _ (Ne.symm hq))
  · rw [hs.frame]
    rfl

theorem disablePort_does {a : Agent} (ha : a ≠ .mgmt) {p : Nat} (hp : p < 16) {v : W64} {s : State} (hen : (getPort s p).enable = true)
    (hmode : (getPort s p).mode = 0) (hv : v.toNat / 2 ^ 61 % 4 = 0) : Does (.portDisable a p v) s fun t =>
      (getPort t p).enable = false ∧ (getPort t p).link = (getPort s p).link ∧ Claim.pathsLost t p := by
  have hoff : (v &&& 0x7FFFFFFFFFFFFFFF : W64).getLsbD 63 = false := by rw [BitVec.getLsbD_and]; simp
  have hbits : bits (v &&& 0x7FFFFFFFFFFFFFFF : W64).toNat 62 61 = 0 := (bits_mode_and (by decide)).trans hv
  obtain ⟨w, hw⟩ : ∃ w, w = v &&& 0x7FFFFFFFFFFFFFFF := ⟨_, rfl⟩
  rw [← hw] at hoff hbits
  have hrow : portDisable s a p v = losePort (modPort s p (configured w)) p := by
    rw [portDisable_eq ha hp, portCfgWrite_eq, ← hw, hbits, hen, hoff, hmode]
    rfl
  have hport : getPort (modPort s p (configured w)) p = configured w (getPort s p) := getPort_modPort s p (configured w)
  have hlive : ferryLive (modPort s p (configured w)) p = false := by
    rw [ferryLive, hport]
    show (w.getLsbD 63 && _ && _) = false
    rw [hoff, Bool.false_and, Bool.false_and]
  obtain ⟨hlost, u, n, hu⟩ := losePort_loses hlive
  rw [hport] at hu
  refine does_of (congrArg Host.Outcome.next hrow) ⟨?_, ?_, hlost⟩
  · rw [hu]; exact hoff
  · rw [hu]; rfl

/-- A write that would change MODE while ENABLE is 1 is not made. -/
theorem portCfg_refused {a : Agent} (ha : a ≠ .mgmt) {p : Nat} (hp : p < 16) {v : W64} {s : State} (hen : (getPort s p).enable = true)
    (hv : v.toNat / 2 ^ 61 % 4 ≠ (getPort s p).mode.toNat) :
    exec (.portEnable a p v) s = .next s ∧ exec (.portDisable a p v) s = .next s := by
  have hstop (w : W64) (hw : bits w.toNat 62 61 = v.toNat / 2 ^ 61 % 4) : portCfgWrite s p w = s := by
    rw [portCfgWrite_eq, hw, hen, if_pos (by rw [Bool.true_and]; exact decide_eq_true hv)]
  exact ⟨congrArg Host.Outcome.next ((portEnable_eq ha hp v s).trans (hstop _ (bits_mode (by decide)))),
    congrArg Host.Outcome.next ((portDisable_eq ha hp v s).trans (hstop _ (bits_mode_and (by decide))))⟩

/-! ### Links, calibrations, and bytes that spell no frame -/

theorem linkUp_does {p : Nat} (hp : p < 16) {s : State} (hen : (getPort s p).enable = true) (hlink : (getPort s p).link = false) :
    Does (.portLinkUp p) s fun t =>
      (getPort t p).link = true ∧ ((getPort s p).mode = 0 → ∀ x, Claim.pathsSync s t p x) ∧
      (∀ q, q ≠ p → getPort t q = getPort s q) ∧ t = { s with fry := t.fry, outs := t.outs } := by
  have hrow : portLinkUp s p = syncPort (modPort s p fun x => { x with link := true }) p := by
    rw [portLinkUp, hen, hlink, if_pos (by simp [hp])]
  have hs := syncs_syncPort (ps := (· = p)) rfl (modPort s p fun x => { x with link := true })
  have hport : getPort (modPort s p fun x => { x with link := true }) p = { getPort s p with link := true } :=
    getPort_modPort s p fun x => { x with link := true }
  obtain ⟨u, hu⟩ := hs.port p
  rw [hport] at hu
  refine does_of (congrArg Host.Outcome.next hrow) ⟨by rw [hu], fun hmode x => ?_, fun q hq => ?_, hs.frame⟩
  · refine pathsSync_modPort (f := fun x => { x with link := true }) (syncPort_begins ?_ x)
    rw [ferryLive, hport]
    show ((getPort s p).enable && decide ((getPort s p).mode = 0) && true) = true
    rw [hen, hmode]
    rfl
  · exact (hs.other q hq).trans (getPort_modPort_ne s _ (Ne.symm hq))

theorem linkDown_does {p : Nat} {s : State} (hlink : (getPort s p).link = true) : Does (.portLinkDown p) s fun t =>
    (getPort t p).link = false ∧ (getPort t p).lost = true ∧ (getPort t p).enable = (getPort s p).enable ∧ Claim.pathsLost t p := by
  have hrow : portLinkDown s p = losePort (modPort s p fun x => { x with link := false, lost := true }) p := by
    rw [portLinkDown, if_pos hlink]
  have hport : getPort (modPort s p fun x => { x with link := false, lost := true }) p = { getPort s p with link := false, lost := true } :=
    getPort_modPort s p fun x => { x with link := false, lost := true }
  have hlive : ferryLive (modPort s p fun x => { x with link := false, lost := true }) p = false := by
    rw [ferryLive, hport]
    exact Bool.and_false _
  obtain ⟨hlost, u, n, hu⟩ := losePort_loses hlive
  rw [hport] at hu
  exact does_of (congrArg Host.Outcome.next hrow) ⟨by rw [hu], by rw [hu], by rw [hu], hlost⟩

/-- Frames that waited leave in the order they came. -/
theorem foldl_sendWire (s : State) (p : Nat) (l : List (BitVec 48 × FFrame × Bytes)) :
    getPort (l.foldl (fun s w => sendWire s p w) s) p = { getPort s p with txFrames := (getPort s p).txFrames + BitVec.ofNat 64 l.length } ∧
    (l.foldl (fun s w => sendWire s p w) s).outs = (l.map fun x => Out.ferry p x.1 x.2.1 x.2.2).reverse ++ s.outs ∧
    (∀ q, q ≠ p → getPort (l.foldl (fun s w => sendWire s p w) s) q = getPort s q) ∧
    l.foldl (fun s w => sendWire s p w) s = { s with
      fry := { s.fry with ports := (l.foldl (fun s w => sendWire s p w) s).fry.ports }
      outs := (l.foldl (fun s w => sendWire s p w) s).outs } := by
  induction l generalizing s with
  | nil => exact ⟨by simp, rfl, fun _ _ => rfl, rfl⟩
  | cons w l ih =>
    obtain ⟨hport, houts, hother, hframe⟩ := ih (sendWire s p w)
    have h1 : getPort (sendWire s p w) p = { getPort s p with txFrames := (getPort s p).txFrames + 1 } :=
      getPort_modPort s p fun y => { y with txFrames := y.txFrames + 1 }
    have h2 (q : Nat) (hq : q ≠ p) : getPort (sendWire s p w) q = getPort s q :=
      getPort_modPort_ne s (fun y => { y with txFrames := y.txFrames + 1 }) (Ne.symm hq)
    rw [List.foldl_cons]
    refine ⟨?_, ?_, fun q hq => (hother q hq).trans (h2 q hq), by rw [hframe]; rfl⟩
    · rw [hport, h1]
      have hn : BitVec.ofNat 64 (w :: l).length = 1 + BitVec.ofNat 64 l.length := by
        rw [List.length_cons, Nat.add_comm, BitVec.ofNat_add]
        rfl
      rw [hn, ← BitVec.add_assoc]
    · rw [houts, List.map_cons, List.reverse_cons, List.append_assoc]
      rfl

theorem calibration_does (p : Nat) (s : State) :
    (Does (.opticalCalibration p true) s fun t => getPort t p = { getPort s p with cal := true } ∧
      (∀ q, q ≠ p → getPort t q = getPort s q) ∧ t = { s with fry := { s.fry with ports := t.fry.ports } }) ∧
    (Does (.opticalCalibration p false) s fun t =>
      let w := (getPort s p).wait
      getPort t p = { getPort s p with
        cal := false, wait := [], txFrames := (getPort s p).txFrames + BitVec.ofNat 64 w.length } ∧
      t.outs = (w.map fun x => Out.ferry p x.1 x.2.1 x.2.2).reverse ++ s.outs ∧
      (∀ q, q ≠ p → getPort t q = getPort s q) ∧ t = { s with fry := { s.fry with ports := t.fry.ports }, outs := t.outs }) := by
  constructor
  · exact does_of rfl ⟨getPort_modPort s p fun x => { x with cal := true },
      fun q hq => getPort_modPort_ne s (fun x => { x with cal := true }) (Ne.symm hq), rfl⟩
  · have hport : getPort (modPort s p fun x => { x with cal := false, wait := [] }) p = { getPort s p with cal := false, wait := [] } :=
      getPort_modPort s p fun x => { x with cal := false, wait := [] }
    obtain ⟨h1, h2, h3, h4⟩ := foldl_sendWire (modPort s p fun x => { x with cal := false, wait := [] }) p (getPort s p).wait
    refine does_of rfl ⟨h1.trans (by rw [hport]), h2, fun q hq => (h3 q hq).trans ?_, h4⟩
    exact getPort_modPort_ne s (fun x => { x with cal := false, wait := [] }) (Ne.symm hq)

theorem discard_does {p : Nat} {s : State} (hc : portCarries s p = true) (bytes : Bytes) :
    (ferryParse s bytes = none → Does (.ferryFrameDiscard p bytes) s fun t =>
      getPort t p = { getPort s p with dropped := (getPort s p).dropped + 1 } ∧
      (∀ q, q ≠ p → getPort t q = getPort s q) ∧ t = { s with fry := { s.fry with ports := t.fry.ports } }) ∧
    ((ferryParse s bytes).isSome = true → exec (.ferryFrameDiscard p bytes) s = .next s) := by
  have hrow (b : Bool) (hb : (ferryParse s bytes).isNone = b) : exec (.ferryFrameDiscard p bytes) s = .next (if b then dropFrame s p else s) := by
    show Host.Outcome.next (if portCarries s p && (ferryParse s bytes).isNone then dropFrame s p else s) = _
    rw [hc, hb, Bool.true_and]
  refine ⟨fun h => ?_, fun h => ?_⟩
  · obtain ⟨hport, hframe⟩ := dropFrame_of s p
    exact does_of (hrow true (by rw [h]; rfl)) ⟨hport,
      fun q hq => getPort_modPort_ne s (fun y => { y with dropped := y.dropped + 1 }) (Ne.symm hq), hframe⟩
  · exact hrow false (by rw [Option.isNone_eq_false_iff]; exact h)

/-! ### A path table entry -/

/-- What a write of FRY_PATH_x_CFG gives an entry. -/
def entryWritten (v : W64) (e : PathEntry) : PathEntry :=
  { e with
    valid := bit v.toNat 63, pcp := BitVec.ofNat 3 (bits v.toNat 62 60), vid := BitVec.ofNat 12 (bits v.toNat 59 48)
    tagged := bit v.toNat 47, ports := BitVec.ofNat 16 (bits v.toNat 15 0) }

theorem bit_toNat (v : W64) (i : Nat) : bit v.toNat i = v.getLsbD i := by
  rw [bit_eq_testBit]
  rfl

theorem ofNat_bits {v : W64} {hi lo n : Nat} (h : hi + 1 - lo = n) : BitVec.ofNat n (bits v.toNat hi lo) = v.extractLsb' lo n := by
  apply BitVec.eq_of_toNat_eq
  rw [BitVec.toNat_ofNat, BitVec.extractLsb'_toNat, bits, h, Nat.mod_mod, Nat.shiftRight_eq_div_pow]

theorem entryWritten_eq (v : W64) (e : PathEntry) : entryWritten v e =
    { e with
      valid := v.getLsbD 63, pcp := v.extractLsb' 60 3, vid := v.extractLsb' 48 12, tagged := v.getLsbD 47,
      ports := v.extractLsb' 0 16 } := by
  rw [entryWritten, bit_toNat, bit_toNat, ofNat_bits (hi := 62) (lo := 60) (n := 3) rfl, ofNat_bits (hi := 59) (lo := 48) (n := 12) rfl,
    ofNat_bits (hi := 15) (lo := 0) (n := 16) rfl]

/-- The entry as written, before any path begins to sync. -/
def entered (s : State) (x : Nat) (v : W64) : State :=
  modFry s fun y => { y with entries := tabMod {} y.entries x (entryWritten v) }

/-- Of a port that the entry names the path begins to sync. -/
def tryEntry (x : Nat) (s : State) (p : Nat) : State :=
  if ferryLive s p && entryNames s p x && x ≠ ownModule s then trySync s p x else s

theorem pathTableWrite_eq {a : Agent} (ha : a ≠ .mgmt) {x : Nat} (hx : x < 4096) (v : W64) (s : State) :
    pathTableWrite s a x v = (List.range 16).foldl (tryEntry x) (entered s x v) := by
  rw [pathTableWrite, byAgent, if_neg ha, if_neg (by omega)]
  rfl

theorem syncs_tryEntry (x : Nat) (s : State) (p : Nat) : Syncs (fun _ => True) s (tryEntry x s p) := by
  unfold tryEntry
  split
  · exact syncs_trySync trivial s x
  · exact (steady_syncs _).refl s

theorem Spoke.started {ps : Nat → Prop} {p x : Nat} {s t : State} (h : Syncs ps s t) (hrest : AtRest (getPath s p x))
    (ha : ¬ AtRest (getPath t p x)) : (getPath t p x).state = .syncing ∧ (getPath t p x).proposal = some ((getPath s p x).gen + 1) := by
  rcases h.path (pathKey p x) with h1 | ⟨-, hstate, -, hprop, -⟩
  · rw [AtRest, getPath, h1.state] at ha
    exact absurd hrest ha
  · exact ⟨hstate, hprop⟩

theorem pathTable_does {a : Agent} (ha : a ≠ .mgmt) {x : Nat} (hx : x < 4096) (v : W64) (s : State) : Does (.pathTableWrite a x v) s fun t =>
    getEntry t x =
      { getEntry s x with
        valid := v.getLsbD 63, pcp := v.extractLsb' 60 3, vid := v.extractLsb' 48 12, tagged := v.getLsbD 47,
        ports := v.extractLsb' 0 16 } ∧
    (∀ y, y ≠ x → getEntry t y = getEntry s y) ∧
    (∀ p, p < 16 → ferryLive s p = true → s.fry.berthValid = true → v.getLsbD 63 = true → v.getLsbD p = true →
      x ≠ ownModule s → ((getPath s p x).state = .idle ∨ (getPath s p x).state = .lost) →
      (getPath t p x).state = .syncing ∧ (getPath t p x).proposal = some ((getPath s p x).gen + 1)) ∧
    t = { s with fry := t.fry, outs := t.outs } := by
  have hs := (steady_syncs fun _ => True).foldl (syncs_tryEntry x) (List.range 16) (entered s x v)
  have hentry : getEntry (entered s x v) x = entryWritten v (getEntry s x) := tabGet_tabMod_self _ _ _ _
  refine does_of (congrArg Host.Outcome.next (pathTableWrite_eq ha hx v s)) ⟨?_, fun y hy => ?_, fun p hp hlive hberth hvalid hport hown hrest => ?_,
    hs.frame⟩
  · rw [hs.getEntry, hentry, entryWritten_eq]
  · rw [hs.getEntry]
    exact tabGet_tabPut_ne _ _ _ (Ne.symm hy)
  · refine hs.started (p := p) hrest (foldl_active (syncs_tryEntry x) (fun t ht => ?_) (List.mem_range.2 hp) ((steady_syncs _).refl _))
    have hnames : entryNames (entered s x v) p x = true := by
      rw [entryNames, hentry, entryWritten_eq]
      have : (v.extractLsb' 0 16).getLsbD p = true := by simp [hp, hport]
      show (s.fry.berthValid && v.getLsbD 63 && (v.extractLsb' 0 16).getLsbD p) = true
      rw [hberth, hvalid, this]
      rfl
    have hgo : tryEntry x t p = trySync t p x := by
      rw [tryEntry, ht.ferryLive, ht.entryNames, ht.ownModule, hnames]
      exact if_pos (by simpa using ⟨hlive, hown⟩)
    rw [hgo]
    exact trySync_active t p x

/-- Settles O55: a port that comes up starts the paths its table names, one step for each; of a lost path every operation only puts
frames in line as it ends, so nothing is up or syncing on a port that is dark. -/
theorem portsCarryPaths : Obligations.PortsCarryPaths := by
  unfold Obligations.PortsCarryPaths
  refine ⟨fun a p v s ha hp => ⟨fun hen hv => portCfg_refused ha hp hen hv, fun hoff => enablePort_does ha hp v hoff,
    fun hen hmode hv => disablePort_does ha hp hen hmode hv⟩, fun p s hp => ⟨fun hen hlink => linkUp_does hp hen hlink,
    fun hlink => linkDown_does hlink, (calibration_does p s).1, (calibration_does p s).2, fun bytes hc => discard_does hc bytes⟩,
    fun a x v s ha hx => pathTable_does ha hx v s⟩

end Sys2Proof.Proofs
end

