-- ==== Sys2Proof/Proofs/Joining.lean ====
section
/-! PROOFS. Joining a berth, and bringing a path up (spec/16 R400, R401, R405, R406). -/

namespace Sys2Proof.Proofs

open Sys2Proof Sys2Proof.Machine Sys2Proof.Laws

/-! ### A path that is up -/

/-- The grants a frame carries are those the path has. -/
theorem foldl_grants (l : List Nat) (n : Nat) (y : PathSt) (v : Nat) :
    (getVc ((l.zipIdx n).foldl (fun y gv => modVc y gv.2 fun c => { c with grant := gv.1 }) y) v).grant =
      if n ≤ v ∧ v < n + l.length then l.getD (v - n) 0 else (getVc y v).grant := by
  induction l generalizing n y with
  | nil => rw [List.zipIdx_nil, List.foldl_nil, if_neg (by simp only [List.length_nil]; omega)]
  | cons g l ih =>
    rw [List.zipIdx_cons, List.foldl_cons, ih, getVc_modVc]
    by_cases hv : n = v
    · subst hv
      rw [if_neg (by omega), if_pos rfl, if_pos (by simp), Nat.sub_self, List.getD_cons_zero]
    · rw [if_neg hv]
      by_cases hin : n + 1 ≤ v ∧ v < n + 1 + l.length
      · obtain ⟨k, rfl⟩ : ∃ k, v = n + k + 1 := ⟨v - n - 1, by omega⟩
        rw [if_pos hin, if_pos (by simp; omega), show n + k + 1 - n = k + 1 by omega, List.getD_cons_succ,
          show n + k + 1 - (n + 1) = k by omega]
      · rw [if_neg hin, if_neg (by simp only [List.length_cons]; omega)]

/-- A path that has just come up with a frame's generation: its counts are zero and the peer's grants apply. -/
structure Fresh (f : FFrame) (y : PathSt) : Prop where
  state : y.state = .up
  gen : y.gen = f.gen
  exp : y.exp = 0
  nextSeq : y.nextSeq = 0
  unacked : y.unacked = []
  grants (l : List Nat) : f.grants = some l → ∀ v, v < l.length → (getVc y v).grant = l.getD v 0

theorem Fresh.told {f : FFrame} {x y : PathSt} (h : Fresh f x) (ht : PathTold x y) : Fresh f y :=
  ⟨by rw [ht.eq]; exact h.state, by rw [ht.eq]; exact h.gen, by rw [ht.eq]; exact h.exp, by rw [ht.eq]; exact h.nextSeq,
    by rw [ht.eq]; exact h.unacked, fun l hl v hv => (ht.grant v).trans (h.grants l hl v hv)⟩

theorem Fresh.spoke {f : FFrame} {ps : Nat → Prop} {s t : State} {p x : Nat} (h : Fresh f (getPath s p x)) (ht : Told ps s t) :
    Fresh f (getPath t p x) := h.told (ht.path (pathKey p x))

theorem Fresh.calm {f : FFrame} {s t : State} {p x : Nat} (h : Fresh f (getPath s p x)) (ht : Calm s t) : Fresh f (getPath t p x) := by
  obtain ⟨fs, hfs⟩ := ht.getPath p x
  rw [hfs]
  exact ⟨h.state, h.gen, h.exp, h.nextSeq, h.unacked, h.grants⟩

/-- The path as it comes up, before the peer's grants. -/
def risen (s : State) (p x : Nat) (f : FFrame) : PathSt :=
  { state := .up, gen := f.gen,
    vcs := (List.range 8).map fun v => (v, ({ given := (getVc (getPath s p x) v).given } : VcCount)) }

theorem fresh_pathGoesUp (s : State) (p x : Nat) (f : FFrame) : Fresh f (getPath (pathGoesUp s p x f) p x) := by
  unfold pathGoesUp applyGrants
  dsimp only
  split
  next g hg =>
    rw [getPath_modPath, getPath_modPath]
    obtain ⟨y, hy⟩ : ∃ y, y = risen s p x f := ⟨_, rfl⟩
    rw [← risen, ← hy]
    have hfold (l : List (Nat × Nat)) (y : PathSt) : l.foldl (fun y gv => modVc y gv.2 fun c => { c with grant := gv.1 }) y =
        { y with vcs := (l.foldl (fun y gv => modVc y gv.2 fun c => { c with grant := gv.1 }) y).vcs } := by
      induction l generalizing y with
      | nil => rfl
      | cons a l ih => rw [List.foldl_cons, ih]; rfl
    refine ⟨?_, ?_, ?_, ?_, ?_, fun l hl v hv => ?_⟩
    · rw [hfold, hy]; rfl
    · rw [hfold, hy]; rfl
    · rw [hfold, hy]; rfl
    · rw [hfold, hy]; rfl
    · rw [hfold, hy]; rfl
    · rw [Option.some.inj (hl.symm.trans hg)] at hv ⊢
      rw [foldl_grants g 0 y v, if_pos ⟨Nat.zero_le v, by omega⟩, Nat.sub_zero]
  next hg =>
    rw [getPath_modPath]
    exact ⟨rfl, rfl, rfl, rfl, rfl, fun l hl => absurd (hl.symm.trans hg) (by simp)⟩

theorem pathGoesUp_frame (s : State) (p x : Nat) (f : FFrame) :
    pathGoesUp s p x f = { s with fry := { s.fry with paths := (pathGoesUp s p x f).fry.paths } } := by
  unfold pathGoesUp applyGrants
  dsimp only
  split <;> rfl

theorem calm_slipResync (s : State) (p m : Nat) : Calm s (slipResync s p m) := by
  unfold slipResync
  split
  · exact .refl s
  · exact Calm.trans (Calm.trans (steady_calm.foldl (fun _ _ => calm_queueFrame _ _ _ _) _ s) (calm_queueFrame _ _ _ _)) (.of_fry rfl)

theorem slipResync_frame (s : State) (p m : Nat) :
    slipResync s p m = { s with slip := (slipResync s p m).slip, fry := (slipResync s p m).fry } :=
  (slipResync_fr (mk := 384) (by decide) (Fr.refl _ _) : Fr 384 s (slipResync s p m)).eq_merge

/-! ### A SYNC adopted, and its answer -/

/-- A SYNC's generation is adopted and answered. -/
def adopted (s : State) (p : Nat) (f : FFrame) : State :=
  let u := pathGoesUp s p f.src f
  transmit (giveGrants u p f.src (grantList u p)) p f.src { typ := .syncAck, gen := f.gen, grants := some (grantList u p) }

theorem takeSync_adopts {s : State} {p : Nat} {f : FFrame} (hup : (getPath s p f.src).state ≠ .up)
    (hold : ∀ h, (getPath s p f.src).proposal = some h → (h - f.gen).toNat = 0 ∨ 32767 < (h - f.gen).toNat) :
    takeSync s p f = announceGrants (slipResync (adopted s p f) p f.src) p := by
  have hnot : pathUp s p f.src = false := by simpa [pathUp] using hup
  rw [takeSync, hnot]
  dsimp only
  rw [if_neg Bool.false_ne_true]
  cases hg : (getPath s p f.src).proposal with
  | none => exact if_neg Bool.false_ne_true
  | some g =>
    refine if_neg ?_
    simp only [Bool.and_eq_true, decide_eq_true_eq]
    exact fun h => (hold g hg).elim (fun h0 => by omega) fun h0 => absurd h.2 (Nat.not_le.2 h0)

theorem takeSync_ignores {s : State} {p : Nat} {f : FFrame} (hup : (getPath s p f.src).state ≠ .up) {g : BitVec 16}
    (hg : (getPath s p f.src).proposal = some g) (hlo : 1 ≤ (g - f.gen).toNat) (hhi : (g - f.gen).toNat ≤ 32767) :
    takeSync s p f = s := by
  have hnot : pathUp s p f.src = false := by simpa [pathUp] using hup
  rw [takeSync, hnot]
  dsimp only
  rw [if_neg Bool.false_ne_true, hg]
  exact if_pos (by simp only [Bool.and_eq_true, decide_eq_true_eq]; exact ⟨hlo, hhi⟩)

/-- What a path that has come up leaves as it was: all but the ferry block, the slip queues and what left the block; the table and
the learned addresses. -/
structure CameUp (s t : State) : Prop where
  frame : t = { s with fry := t.fry, slip := t.slip, outs := t.outs }
  learned : t.fry.learned = s.fry.learned
  entries : t.fry.entries = s.fry.entries
  valid : t.fry.berthValid = s.fry.berthValid
  berth : t.fry.berth = s.fry.berth

theorem cameUp_settles (s : State) (p x : Nat) : CameUp s (announceGrants (slipResync s p x) p) := by
  have h1 := calm_slipResync s p x
  have h2 := told_announceGrants (ps := (· = p)) rfl (slipResync s p x)
  refine ⟨by rw [h2.frame, slipResync_frame], ?_, ?_, ?_, ?_⟩ <;> rw [h2.fry] <;> dsimp only <;> rw [h1.eq]

theorem cameUp_trans {s t u : State} (h : CameUp s t) (h' : CameUp t u) : CameUp s u :=
  ⟨by rw [h'.frame, h.frame], h'.learned.trans h.learned, h'.entries.trans h.entries, h'.valid.trans h.valid, h'.berth.trans h.berth⟩

theorem cameUp_pathGoesUp (s : State) (p x : Nat) (f : FFrame) : CameUp s (pathGoesUp s p x f) := by
  refine ⟨by rw [pathGoesUp_frame], ?_, ?_, ?_, ?_⟩ <;> rw [pathGoesUp_frame]

theorem Spoke.cameUp {R : State → Nat → PathSt → PathSt → Prop} {ps : Nat → Prop} {s t : State} (h : Spoke R ps s t) : CameUp s t := by
  refine ⟨by rw [h.frame], ?_, ?_, ?_, ?_⟩ <;> rw [h.fry]

theorem fresh_settles {s : State} {p x : Nat} {f : FFrame} (h : Fresh f (getPath s p x)) :
    Fresh f (getPath (announceGrants (slipResync s p x) p) p x) :=
  (h.calm (calm_slipResync s p x)).spoke (told_announceGrants (ps := (· = p)) rfl _)

theorem told_adopted (s : State) (p : Nat) (f : FFrame) : Told (· = p) (pathGoesUp s p f.src f) (adopted s p f) :=
  (steady_told _).trans (told_giveGrants _ _ p f.src _) (told_transmit (ps := (· = p)) rfl _ f.src _)

theorem takeSync_up {s : State} {p : Nat} {f : FFrame} (hup : (getPath s p f.src).state ≠ .up)
    (hold : ∀ h, (getPath s p f.src).proposal = some h → (h - f.gen).toNat = 0 ∨ 32767 < (h - f.gen).toNat) :
    Fresh f (getPath (takeSync s p f) p f.src) ∧ CameUp s (takeSync s p f) := by
  rw [takeSync_adopts hup hold]
  exact ⟨fresh_settles ((fresh_pathGoesUp s p f.src f).spoke (told_adopted s p f)),
    cameUp_trans (cameUp_trans (cameUp_pathGoesUp s p f.src f) (told_adopted s p f).cameUp) (cameUp_settles _ p f.src)⟩

/-- The SYNC_ACK that answers an adopted SYNC goes out. -/
theorem takeSync_answers {s : State} {p : Nat} {f : FFrame} (hup : (getPath s p f.src).state ≠ .up) (hcal : (getPort s p).cal = false)
    (hold : ∀ h, (getPath s p f.src).proposal = some h → (h - f.gen).toNat = 0 ∨ 32767 < (h - f.gen).toNat) :
    ∃ h w, Out.ferry p (destMac s p f.src) h w ∈ (takeSync s p f).outs ∧ h.typ = .syncAck ∧ h.gen = f.gen := by
  obtain ⟨u, hu⟩ : ∃ u, u = pathGoesUp s p f.src f := ⟨_, rfl⟩
  have hg := told_giveGrants (· = p) u p f.src (grantList u p)
  have hport : getPort u p = getPort s p := by rw [hu, pathGoesUp_frame]; rfl
  obtain ⟨h, w, hout, hframe⟩ := transmit_goes (s := giveGrants u p f.src (grantList u p)) (p := p) (by rw [hg.cal, hport, hcal]) f.src
    { typ := .syncAck, gen := f.gen, grants := some (grantList u p) }
  have hmac : wireMac (giveGrants u p f.src (grantList u p)) p f.src { typ := .syncAck, gen := f.gen, grants := some (grantList u p) } =
      destMac s p f.src := by
    show destMac (giveGrants u p f.src (grantList u p)) p f.src = _
    rw [hg.destMac, hu, pathGoesUp_frame]
    rfl
  rw [hmac] at hout
  obtain ⟨l, hl⟩ := (told_announceGrants (ps := (· = p)) rfl (slipResync (adopted s p f) p f.src)).outs
  have hres : (slipResync (adopted s p f) p f.src).outs = (adopted s p f).outs := by rw [slipResync_frame]
  have had : (adopted s p f).outs = (transmit (giveGrants u p f.src (grantList u p)) p f.src
      { typ := .syncAck, gen := f.gen, grants := some (grantList u p) }).outs := by rw [adopted, hu]
  refine ⟨h, w, ?_, by rw [hframe]; rfl, by rw [hframe]; rfl⟩
  rw [takeSync_adopts hup hold, hl, hres, had, hout]
  exact List.mem_append_right _ (.head _)

/-! ### SYNCs that go out -/

theorem sendSync_out {s : State} {p x : Nat} {g : BitVec 16} (hg : (getPath s p x).proposal = some g) (hcal : (getPort s p).cal = false) :
    (∃ f w, (sendSync s p x).outs = .ferry p (destMac s p x) f w :: s.outs ∧ f.typ = .sync ∧ f.gen = g ∧ f.dst = x) ∧
      (getPath (sendSync s p x) p x).proposal = some g := by
  have hgrants := told_giveGrants (· = p) s p x (grantList s p)
  obtain ⟨f, w, hout, hf⟩ := transmit_goes (s := giveGrants s p x (grantList s p)) (p := p) (by rw [hgrants.cal, hcal]) x
    { typ := .sync, gen := g, grants := some (grantList s p) }
  have hmac : wireMac (giveGrants s p x (grantList s p)) p x { typ := .sync, gen := g, grants := some (grantList s p) } = destMac s p x :=
    hgrants.destMac p x
  rw [hmac] at hout
  refine ⟨⟨f, w, by rw [sendSync_eq hg]; exact hout, by rw [hf]; rfl, by rw [hf]; rfl, by rw [hf]; rfl⟩, ?_⟩
  have h := (told_sendSync (ps := (· = p)) rfl s x).path (pathKey p x)
  rw [getPath, h.eq]
  exact hg

theorem startSync_out {s : State} {p x : Nat} (hcal : (getPort s p).cal = false) :
    ∃ f w, Out.ferry p (destMac s p x) f w ∈ (startSync s p x).outs ∧ f.typ = .sync ∧ f.gen = (getPath s p x).gen + 1 := by
  have hann := told_announceGrants (ps := (· = p)) rfl (modPath s p x syncing)
  have hprop : (getPath (announceGrants (modPath s p x syncing) p) p x).proposal = some ((getPath s p x).gen + 1) := by
    have he : tabGet {} (modPath s p x syncing).fry.paths (pathKey p x) = syncing (getPath s p x) := getPath_modPath s p x syncing
    rw [getPath, (hann.path (pathKey p x)).eq, he]
    rfl
  obtain ⟨⟨f, w, hout, htyp, hgen, -⟩, -⟩ := sendSync_out hprop (by rw [hann.cal, getPort_modPath, hcal])
  rw [hann.destMac] at hout
  exact ⟨f, w, by rw [startSync_eq, hout]; exact .head _, htyp, hgen⟩

theorem carries_live {s : State} {p : Nat} (h : portCarries s p = true) : ferryLive s p = true ∧ (getPort s p).cal = false := by
  rw [portCarries, Bool.and_eq_true] at h
  exact ⟨h.1, by simpa using h.2⟩

/-! ### HELLO -/

theorem hello_goes (s : State) (hmember : isSteward s = false) (hlive : ferryLive s 15 = true)
    (hdown : s.fry.berthValid = false ∨ pathUp s 15 (stewardOf s) = false) :
    Does .helloSend s fun t => (∃ f w, f.typ = .hello ∧ f.src = ownModule s ∧
        ((getPort s 15).cal = false → t.outs = .ferry 15 s.fry.groupMac f w :: s.outs) ∧
        ((getPort s 15).cal = true → (getPort t 15).wait = (getPort s 15).wait ++ [(s.fry.groupMac, f, w)])) ∧
      t = { s with fry := t.fry, outs := t.outs } := by
  have hnot : (s.fry.berthValid && pathUp s 15 (stewardOf s)) = false := by
    rcases hdown with h | h <;> rw [h]
    · rfl
    · exact Bool.and_false _
  have hrow : helloSend s = transmit s 15 (stewardOf s) { typ := .hello } := by
    rw [helloSend, hmember, hlive, hnot]
    rfl
  refine does_of (congrArg Host.Outcome.next hrow) ⟨⟨wireFrame s 15 (stewardOf s) { typ := .hello },
    (wireOf s 15 (stewardOf s) { typ := .hello }).2.2, rfl, rfl, fun hcal => transmit_outs hcal _ _, fun hcal => ?_⟩, transmit_frame _ _ _ _⟩
  rw [transmit_held hcal, getPort_modPort (modPath s 15 (stewardOf s) ackSent) 15 fun y =>
    { y with wait := y.wait ++ [wireOf s 15 (stewardOf s) { typ := .hello }] }]
  rfl

theorem berthRefused_does (s : State) (p : Nat) (f : FFrame) :
    (berthRefused (countRx s p) p f).fry = (countRx s p).fry ∧
      (s.evt.buf < 256 → (berthRefused (countRx s p) p f).evt.head = s.evt.head + 1) :=
  ⟨raise_fry _ _ _ _, fun h => logEntry_head (s := countRx s p) _ h⟩

section
variable {p : Nat} {f : FFrame} {s : State} (htyp : f.typ = .hello) (hc : portCarries s p = true)
include htyp hc

theorem hello_refused (hslot : f.src % 64 = 0) : Does (.ferryHelloReceive p f) s fun t =>
    t.fry.entries = s.fry.entries ∧ t.fry.paths = s.fry.paths ∧ (s.evt.buf < 256 → t.evt.head = s.evt.head + 1) := by
  have hrow : helloReceive s p f = berthRefused (countRx s p) p f := by
    rw [helloReceive]
    dsimp only
    rw [if_neg (by simp [htyp, hc]), if_pos hslot]
  obtain ⟨hfry, hhead⟩ := berthRefused_does s p f
  exact does_of (congrArg Host.Outcome.next hrow) ⟨by rw [hfry]; rfl, by rw [hfry]; rfl, hhead⟩

theorem hello_learned (hslot : f.src % 64 ≠ 0) (hno : isSteward s = false ∨ s.fry.berthValid = false) :
    Does (.ferryHelloReceive p f) s fun t => tabFind t.fry.learned (pathKey p f.src) = some f.mac ∧
      t.fry.entries = s.fry.entries ∧ t.fry.paths = s.fry.paths ∧ t = { s with fry := t.fry } := by
  have hjoins : (isSteward s && s.fry.berthValid) = false := by
    rcases hno with h | h <;> rw [h]
    · rfl
    · exact Bool.and_false _
  have hrow : helloReceive s p f = learn (countRx s p) p f.src f.mac := by
    rw [helloReceive, hjoins]
    dsimp only
    rw [if_neg (by simp [htyp, hc]), if_neg hslot]
    rfl
  exact does_of (congrArg Host.Outcome.next hrow) ⟨tabFind_tabPut_self _ _ _, rfl, rfl, rfl⟩

/-- The steward with a member's address and table entry. -/
def tookIn (s : State) (p x : Nat) (mac : BitVec 48) : State :=
  modFry (learn (countRx s p) p x mac) fun y => { y with entries := tabMod {} y.entries x fun e =>
    { e with valid := true, ports := BitVec.ofNat 16 (2 ^ p), mac := mac } }

theorem hello_joins (hslot : f.src % 64 ≠ 0) (hst : isSteward s = true) (hb : s.fry.berthValid = true)
    (hrest : (getPath s p (stewardOf s + f.src % 64)).state = .idle ∨ (getPath s p (stewardOf s + f.src % 64)).state = .lost) :
    let x := stewardOf s + f.src % 64
    Does (.ferryHelloReceive p f) s fun t =>
      getEntry t x = { getEntry s x with valid := true, ports := BitVec.ofNat 16 (2 ^ p), mac := f.mac } ∧
      (∀ y, y ≠ x → getEntry t y = getEntry s y) ∧ tabFind t.fry.learned (pathKey p x) = some f.mac ∧
      (getPath t p x).state = .syncing ∧ (getPath t p x).proposal = some ((getPath s p x).gen + 1) ∧
      ∃ g w, Out.ferry p f.mac g w ∈ t.outs ∧ g.typ = .sync ∧ g.gen = (getPath s p x).gen + 1 := by
  dsimp only
  obtain ⟨x, hx⟩ : ∃ x, x = stewardOf s + f.src % 64 := ⟨_, rfl⟩
  rw [← hx] at hrest ⊢
  have hpath : getPath (tookIn s p x f.mac) p x = getPath s p x := rfl
  have hrow : helloReceive s p f = startSync (tookIn s p x f.mac) p x := by
    have hgo : trySync (tookIn s p x f.mac) p x = startSync (tookIn s p x f.mac) p x := by
      rw [trySync, hpath]
      rcases hrest with h | h <;> rw [h]
    rw [helloReceive, hst, hb]
    dsimp only
    rw [if_neg (by simp [htyp, hc]), if_neg hslot, ← hgo, trySync, hpath, hx]
    rw [← hx]
    rcases hrest with h | h
    · simp only [Bool.and_self, Bool.not_true, Bool.false_eq_true, if_false, if_true]
      show (match (getPath (tookIn s p x f.mac) p x).state with | .up => _ | .syncing => _ | _ => _) = _
      rw [hpath, h]
      rfl
    · simp only [Bool.and_self, Bool.not_true, Bool.false_eq_true, if_false, if_true]
      show (match (getPath (tookIn s p x f.mac) p x).state with | .up => _ | .syncing => _ | _ => _) = _
      rw [hpath, h]
      rfl
  obtain ⟨-, hcal⟩ := carries_live hc
  have hcal' : (getPort (tookIn s p x f.mac) p).cal = false := by
    have h : getPort (tookIn s p x f.mac) p = { getPort s p with rxFrames := (getPort s p).rxFrames + 1 } :=
      getPort_modPort s p fun y => { y with rxFrames := y.rxFrames + 1 }
    rw [h]
    exact hcal
  have htold := told_startSync (ps := (· = p)) rfl (tookIn s p x f.mac) x
  have hlearned : tabFind (tookIn s p x f.mac).fry.learned (pathKey p x) = some f.mac := tabFind_tabPut_self _ _ _
  have hmac : destMac (tookIn s p x f.mac) p x = f.mac := by rw [destMac, hlearned]
  have hnew := getPath_startSync (tookIn s p x f.mac) p x
  obtain ⟨g, w, hout, hg, hgen⟩ := startSync_out (x := x) hcal'
  rw [hmac] at hout
  refine does_of (congrArg Host.Outcome.next hrow) ⟨?_, fun y hy => ?_, ?_, by rw [hnew.eq]; rfl, by rw [hnew.eq, hpath]; rfl, g, w, hout, hg, hgen⟩
  · rw [htold.getEntry]
    exact tabGet_tabMod_self ({} : PathEntry) s.fry.entries x fun e => { e with valid := true, ports := BitVec.ofNat 16 (2 ^ p), mac := f.mac }
  · rw [htold.getEntry]
    exact tabGet_tabPut_ne _ _ _ (Ne.symm hy)
  · rw [htold.fry]
    exact hlearned

end

/-! ### SYNC -/

/-- A frame of a module on a port, counted and its address learned. -/
def heard (s : State) (p : Nat) (f : FFrame) : State := learn (countRx s p) p f.src f.mac

theorem heard_mac (s : State) (p : Nat) (f : FFrame) : tabFind (heard s p f).fry.learned (pathKey p f.src) = some f.mac :=
  tabFind_tabPut_self _ _ _

theorem heard_destMac (s : State) (p : Nat) (f : FFrame) : destMac (heard s p f) p f.src = f.mac := by
  rw [destMac, heard_mac]

theorem heard_cal (s : State) (p : Nat) (f : FFrame) : (getPort (heard s p f) p).cal = (getPort s p).cal := by
  have h : getPort (heard s p f) p = { getPort s p with rxFrames := (getPort s p).rxFrames + 1 } :=
    getPort_modPort s p fun y => { y with rxFrames := y.rxFrames + 1 }
  rw [h]

section
variable {p : Nat} {f : FFrame} {s : State} (htyp : f.typ = .sync) (hc : portCarries s p = true)
include htyp hc

theorem sync_known (hb : s.fry.berthValid = true) (hdst : f.dst = ownModule s)
    (hsrc : f.src / 64 = s.fry.berth.toNat ∨ (getEntry s f.src).valid = true) : syncReceive s p f = takeSync (heard s p f) p f := by
  have hnot : ¬ ((decide (f.src / 64 ≠ s.fry.berth.toNat) && !(getEntry s f.src).valid) = true) := by
    rcases hsrc with h | h <;> simp [h]
  rw [syncReceive, if_neg (by simp [htyp, hc]), hb, if_neg (by decide), if_neg (not_not.2 hdst), if_neg hnot]
  rfl

theorem sync_adopted (hb : s.fry.berthValid = true) (hdst : f.dst = ownModule s)
    (hsrc : f.src / 64 = s.fry.berth.toNat ∨ (getEntry s f.src).valid = true) (hup : (getPath s p f.src).state ≠ .up)
    (hold : ∀ h, (getPath s p f.src).proposal = some h → (h - f.gen).toNat = 0 ∨ 32767 < (h - f.gen).toNat) :
    Does (.ferrySyncReceive p f) s fun t =>
      (getPath t p f.src).state = .up ∧ (getPath t p f.src).gen = f.gen ∧ (getPath t p f.src).exp = 0 ∧
      (getPath t p f.src).nextSeq = 0 ∧ (getPath t p f.src).unacked = [] ∧
      tabFind t.fry.learned (pathKey p f.src) = some f.mac ∧
      (∃ h w, Out.ferry p f.mac h w ∈ t.outs ∧ h.typ = .syncAck ∧ h.gen = f.gen) ∧
      (∀ l, f.grants = some l → ∀ v, v < l.length → (getVc (getPath t p f.src) v).grant = l.getD v 0) ∧ t.mem = s.mem := by
  obtain ⟨hfresh, hcame⟩ := takeSync_up (s := heard s p f) hup hold
  have hans := takeSync_answers (s := heard s p f) hup ((heard_cal s p f).trans (carries_live hc).2) hold
  rw [heard_destMac] at hans
  exact does_of (congrArg Host.Outcome.next (sync_known htyp hc hb hdst hsrc)) ⟨hfresh.state, hfresh.gen, hfresh.exp, hfresh.nextSeq,
    hfresh.unacked, by rw [hcame.learned]; exact heard_mac s p f, hans, hfresh.grants, by rw [hcame.frame]; rfl⟩

theorem sync_ignored (hb : s.fry.berthValid = true) (hdst : f.dst = ownModule s)
    (hsrc : f.src / 64 = s.fry.berth.toNat ∨ (getEntry s f.src).valid = true) (hup : (getPath s p f.src).state ≠ .up)
    {g : BitVec 16} (hg : (getPath s p f.src).proposal = some g) (hlo : 1 ≤ (g - f.gen).toNat) (hhi : (g - f.gen).toNat ≤ 32767) :
    Does (.ferrySyncReceive p f) s fun t => getPath t p f.src = getPath s p f.src ∧ t.outs = s.outs ∧ t = { s with fry := t.fry } := by
  have hrow := (sync_known htyp hc hb hdst hsrc).trans (takeSync_ignores (s := heard s p f) hup hg hlo hhi)
  exact does_of (congrArg Host.Outcome.next hrow) ⟨rfl, rfl, rfl⟩

theorem sync_refused (hb : s.fry.berthValid = true) (hdst : f.dst = ownModule s) (hsrc : f.src / 64 ≠ s.fry.berth.toNat)
    (hentry : (getEntry s f.src).valid = false) : Does (.ferrySyncReceive p f) s fun t =>
      t.fry.paths = s.fry.paths ∧ t.fry.learned = s.fry.learned ∧ (s.evt.buf < 256 → t.evt.head = s.evt.head + 1) := by
  have hrow : syncReceive s p f = berthRefused (countRx s p) p f := by
    rw [syncReceive, if_neg (by simp [htyp, hc]), hb, if_neg (by decide), if_neg (not_not.2 hdst), if_pos (by simp [hsrc, hentry])]
  obtain ⟨hfry, hhead⟩ := berthRefused_does s p f
  exact does_of (congrArg Host.Outcome.next hrow) ⟨by rw [hfry]; rfl, by rw [hfry]; rfl, hhead⟩

end

theorem syncs_syncPorts (s : State) : Syncs (fun _ => True) s (syncPorts s) :=
  (steady_syncs _).foldl (fun t _ => syncs_syncPort trivial t) _ s

/-- A member takes its berth from its steward's SYNC. -/
theorem sync_joins {p : Nat} {f : FFrame} {s : State} (htyp : f.typ = .sync) (hc : portCarries s p = true)
    (hb : s.fry.berthValid = false) (hmember : isSteward s = false) (hp : p = 15) (hslot : f.src % 64 = 0) (hsrc : f.src < 4096)
    (hberth : f.dst / 64 = f.src / 64) (hdst : f.dst % 64 = s.fry.slot.toNat) (hidle : (getPath s p f.src).state = .idle)
    (hprop : (getPath s p f.src).proposal = none) : Does (.ferrySyncReceive p f) s fun t =>
      t.fry.berthValid = true ∧ t.fry.berth.toNat = f.src / 64 ∧
      (getPath t p f.src).state = .up ∧ (getEntry t f.src).valid = true ∧ (getEntry t f.src).mac = f.mac := by
  obtain ⟨u, hu⟩ : ∃ u, u = learn (joinBerth (countRx s p) f) p f.src f.mac := ⟨_, rfl⟩
  have hrow : syncReceive s p f = syncPorts (takeSync u p f) := by
    rw [syncReceive, if_neg (by simp [htyp, hc]), hb, if_pos (by decide), if_neg (by simp [hp, hslot, hdst, hmember]),
      if_neg (not_not.2 hberth), hu]
  have hpath : getPath u p f.src = getPath s p f.src := by rw [hu]; rfl
  obtain ⟨hfresh, hcame⟩ := takeSync_up (s := u) (p := p) (f := f) (by rw [hpath, hidle]; decide)
    fun h hh => absurd (hh.symm.trans ((congrArg PathSt.proposal hpath).trans hprop)) (by simp)
  have hsync := syncs_syncPorts (takeSync u p f)
  have hentry : getEntry (syncPorts (takeSync u p f)) f.src = { getEntry s f.src with valid := true, ports := 0x8000, mac := f.mac } := by
    rw [hsync.getEntry, getEntry, hcame.entries, hu]
    exact tabGet_tabMod_self ({} : PathEntry) s.fry.entries f.src fun e => { e with valid := true, ports := 0x8000, mac := f.mac }
  refine does_of (congrArg Host.Outcome.next hrow) ⟨?_, ?_, ?_, by rw [hentry], by rw [hentry]⟩
  · rw [hsync.fry]
    show (takeSync u p f).fry.berthValid = true
    rw [hcame.valid, hu]
    rfl
  · rw [hsync.fry]
    show (takeSync u p f).fry.berth.toNat = f.src / 64
    rw [hcame.berth, hu]
    show (BitVec.ofNat 6 (f.src / 64)).toNat = f.src / 64
    rw [BitVec.toNat_ofNat, Nat.mod_eq_of_lt (by omega)]
  · rcases hsync.path (pathKey p f.src) with h | ⟨hrest, -⟩
    · rw [getPath, h.state]
      exact hfresh.state
    · rcases hrest with h | h <;> exact absurd (hfresh.state.symm.trans h) (by decide)

/-! ### SYNC_ACK and SYNC_RESEND -/

theorem syncAck_does {p : Nat} {f : FFrame} {s : State} (htyp : f.typ = .syncAck) (hc : portCarries s p = true) (hdst : f.dst = ownModule s)
    (hstate : (getPath s p f.src).state = .syncing) : Does (.ferrySyncAckReceive p f) s fun t =>
      tabFind t.fry.learned (pathKey p f.src) = some f.mac ∧
      ((getPath s p f.src).proposal = some f.gen → (getPath t p f.src).state = .up ∧ (getPath t p f.src).gen = f.gen ∧
        (getPath t p f.src).exp = 0 ∧ (getPath t p f.src).nextSeq = 0) ∧
      ((getPath s p f.src).proposal ≠ some f.gen → getPath t p f.src = getPath s p f.src ∧ t.outs = s.outs) ∧
      t = { s with fry := t.fry, slip := t.slip, outs := t.outs } := by
  have hrow : syncAckReceive s p f = if (getPath s p f.src).proposal = some f.gen then
      announceGrants (slipResync (pathGoesUp (heard s p f) p f.src f) p f.src) p else heard s p f := by
    have hpath : getPath (heard s p f) p f.src = getPath s p f.src := rfl
    rw [syncAckReceive, if_neg (by simp [htyp, hc]), if_neg (not_not.2 hdst), ← heard]
    dsimp only
    rw [hpath, hstate]
    by_cases hg : (getPath s p f.src).proposal = some f.gen
    · rw [if_pos hg, if_pos (by simp [hg])]
    · rw [if_neg hg, if_neg (by simp [hg])]
  by_cases hg : (getPath s p f.src).proposal = some f.gen
  · rw [if_pos hg] at hrow
    have hfresh := fresh_settles (fresh_pathGoesUp (heard s p f) p f.src f)
    have hcame := cameUp_trans (cameUp_pathGoesUp (heard s p f) p f.src f) (cameUp_settles _ p f.src)
    exact does_of (congrArg Host.Outcome.next hrow) ⟨by rw [hcame.learned]; exact heard_mac s p f,
      fun _ => ⟨hfresh.state, hfresh.gen, hfresh.exp, hfresh.nextSeq⟩, fun hn => absurd hg hn, by rw [hcame.frame]; rfl⟩
  · rw [if_neg hg] at hrow
    exact does_of (congrArg Host.Outcome.next hrow) ⟨heard_mac s p f, fun hn => absurd hn hg, fun _ => ⟨rfl, rfl⟩, rfl⟩

theorem syncResend_does {p x : Nat} {g : BitVec 16} {s : State} (hc : portCarries s p = true) (hstate : (getPath s p x).state = .syncing)
    (hg : (getPath s p x).proposal = some g) : Does (.syncResend p x) s fun t =>
      (∃ mac f w, t.outs = .ferry p mac f w :: s.outs ∧ f.typ = .sync ∧ f.gen = g ∧ f.dst = x) ∧
      (getPath t p x).proposal = some g ∧ t = { s with fry := t.fry, outs := t.outs } := by
  obtain ⟨hlive, hcal⟩ := carries_live hc
  have hrow : syncResend s p x = sendSync s p x := by rw [syncResend, hlive, hstate, if_pos (by decide)]
  obtain ⟨⟨f, w, hout, hf⟩, hprop⟩ := sendSync_out hg hcal
  exact does_of (congrArg Host.Outcome.next hrow) ⟨⟨_, f, w, hout, hf⟩, hprop, (told_sendSync (ps := (· = p)) rfl s x).frame⟩

/-! ### The berth of the steward -/

theorem berthSet_does (a : Agent) (v : W64) (s : State) :
    (a = .mgmt → isSteward s = true → s.fry.berthValid = false → Does (.berthSet a v) s fun t =>
      t.fry.berthValid = true ∧ t.fry.berth.toNat = v.toNat / 64 % 64 ∧ t = { s with fry := t.fry, outs := t.outs }) ∧
    (a ≠ .mgmt ∨ isSteward s = false ∨ s.fry.berthValid = true → exec (.berthSet a v) s = .next s) := by
  refine ⟨fun ha hst hb => ?_, fun h => congrArg Host.Outcome.next ?_⟩
  · obtain ⟨u, hu⟩ : ∃ u, u = modFry s fun x => { x with berth := BitVec.ofNat 6 (bits v.toNat 11 6), berthValid := true } := ⟨_, rfl⟩
    have hrow : berthSet s a v = syncPorts u := by rw [berthSet, if_pos (by simp [ha, hst, hb]), hu]
    have hsync := syncs_syncPorts u
    have hberth : u.fry.berth.toNat = v.toNat / 64 % 64 := by
      rw [hu]
      show (BitVec.ofNat 6 (bits v.toNat 11 6)).toNat = _
      rw [BitVec.toNat_ofNat, bits]
      omega
    have hvalid : u.fry.berthValid = true := by rw [hu]; rfl
    have hframe (x : FrySt) (o : List Out) : { u with fry := x, outs := o } = { s with fry := x, outs := o } := by rw [hu]; rfl
    exact does_of (congrArg Host.Outcome.next hrow) ⟨hsync.cameUp.valid.trans hvalid, by rw [hsync.cameUp.berth, hberth],
      hsync.frame.trans (hframe _ _)⟩
  · refine if_neg ?_
    rcases h with h | h | h <;> simp [h]

/-- Settles O58: a frame that brings a path up sets its counts to zero, and everything after it only puts frames in line or tells grants. -/
theorem pathsComeUp : Obligations.PathsComeUp := by
  unfold Obligations.PathsComeUp
  refine ⟨hello_goes, berthSet_does, fun p f s htyp hc => ⟨fun hs => hello_refused htyp hc hs,
    fun hs hst hb hrest => hello_joins htyp hc hs hst hb hrest, fun hs hno => hello_learned htyp hc hs hno⟩,
    fun p f s htyp hc => ⟨fun hb hdst hsrc hup => ⟨fun hold => sync_adopted htyp hc hb hdst hsrc hup hold,
      fun h hg hlo hhi => sync_ignored htyp hc hb hdst hsrc hup hg hlo hhi⟩,
      fun hb hdst hsrc hentry => sync_refused htyp hc hb hdst hsrc hentry,
      fun hb hm hp hslot hsrc hberth hdst hidle hprop => sync_joins htyp hc hb hm hp hslot hsrc hberth hdst hidle hprop⟩,
    fun p f s htyp hc hdst hstate => syncAck_does htyp hc hdst hstate, fun p x g s hc hstate hg => syncResend_does hc hstate hg⟩

end Sys2Proof.Proofs
end

