-- ==== Sys2Proof/Proofs/Delivery.lean ====
section
/-! PROOFS. Frames of a path: accepted in order, acknowledged, resent (spec/16 R407-R409, R412, R415). -/

namespace Sys2Proof.Proofs

open Sys2Proof Sys2Proof.Machine Sys2Proof.Laws

/-! ### What every frame of a path tells -/

/-- A path whose peer has acknowledged frames and given credit and grants. -/
structure Heeded (x y : PathSt) : Prop where
  eq : y = { x with unacked := y.unacked, resends := y.resends, vcs := y.vcs }
  freed (v : Nat) : (getVc y v).freed = (getVc x v).freed

theorem Heeded.refl (x : PathSt) : Heeded x x := ⟨rfl, fun _ => rfl⟩

theorem Heeded.trans {x y z : PathSt} (h : Heeded x y) (h' : Heeded y z) : Heeded x z :=
  ⟨by rw [h'.eq, h.eq], fun v => (h'.freed v).trans (h.freed v)⟩

theorem heeded_modVc {x : PathSt} {v : Nat} {f : VcCount → VcCount} (hf : (f (getVc x v)).freed = (getVc x v).freed) :
    Heeded x (modVc x v f) := by
  refine ⟨rfl, fun w => ?_⟩
  rw [getVc_modVc]
  split
  next h => rw [hf, h]
  next => rfl

/-- Channel counts changed one after another. -/
theorem heeded_foldl {α : Type} {g : PathSt → α → PathSt} (hg : ∀ y a, Heeded y (g y a)) (l : List α) (x : PathSt) : Heeded x (l.foldl g x) := by
  induction l generalizing x with
  | nil => exact .refl x
  | cons a l ih => exact (hg x a).trans (ih _)

/-- The acknowledgement a frame carries. -/
def acked (f : FFrame) (y : PathSt) : PathSt :=
  match f.ack with
  | some a =>
    (y.unacked.filter (ackedBy a)).foldl
      (fun y g => modVc y g.vc fun c => { c with acked := c.acked + BitVec.ofNat 32 (frameCells g) })
      { y with
        unacked := y.unacked.filter (fun g => !ackedBy a g)
        resends := if y.unacked.filter (ackedBy a) = [] then y.resends else 0 }
  | none => y

/-- The credit it carries. -/
def credited (f : FFrame) (y : PathSt) : PathSt :=
  match f.credit with
  | some (v, c) => modVc y v fun z => { z with credit := c }
  | none => y

/-- The grants it carries. -/
def granted (f : FFrame) (y : PathSt) : PathSt :=
  match f.grants with
  | some g => g.zipIdx.foldl (fun y gv => modVc y gv.2 fun c => { c with grant := gv.1 }) y
  | none => y

/-- All that a frame tells its path. -/
def controlled (f : FFrame) (y : PathSt) : PathSt := granted f (credited f (acked f y))

theorem heeded_acked (f : FFrame) (y : PathSt) : Heeded y (acked f y) := by
  unfold acked
  have hcount := heeded_foldl (g := fun (y : PathSt) (g : FFrame) =>
    modVc y g.vc fun c => { c with acked := c.acked + BitVec.ofNat 32 (frameCells g) }) fun z g => heeded_modVc rfl
  split
  · refine Heeded.trans ?_ (hcount _ _)
    exact ⟨rfl, fun v => rfl⟩
  · exact .refl y

theorem heeded_credited (f : FFrame) (y : PathSt) : Heeded y (credited f y) := by
  unfold credited
  split
  · exact heeded_modVc rfl
  · exact .refl y

theorem heeded_granted (f : FFrame) (y : PathSt) : Heeded y (granted f y) := by
  unfold granted
  split
  · exact heeded_foldl (fun z g => heeded_modVc rfl) _ _
  · exact .refl y

theorem heeded_controlled (f : FFrame) (y : PathSt) : Heeded y (controlled f y) :=
  ((heeded_acked f y).trans (heeded_credited f _)).trans (heeded_granted f _)

/-- Channel counts leave what is unacknowledged. -/
theorem foldl_modVc_unacked {α : Type} (n : α → Nat) (g : α → VcCount → VcCount) (l : List α) (y : PathSt) :
    (l.foldl (fun y a => modVc y (n a) (g a)) y).unacked = y.unacked ∧ (l.foldl (fun y a => modVc y (n a) (g a)) y).resends = y.resends := by
  induction l generalizing y with
  | nil => exact ⟨rfl, rfl⟩
  | cons a l ih => exact ih _

theorem credited_unacked (f : FFrame) (y : PathSt) : (credited f y).unacked = y.unacked ∧ (credited f y).resends = y.resends := by
  unfold credited
  split <;> exact ⟨rfl, rfl⟩

theorem granted_unacked (f : FFrame) (y : PathSt) : (granted f y).unacked = y.unacked ∧ (granted f y).resends = y.resends := by
  unfold granted
  split
  · exact foldl_modVc_unacked (fun gv : Nat × Nat => gv.2) (fun gv c => { c with grant := gv.1 }) _ y
  · exact ⟨rfl, rfl⟩

/-- The frames that stay unacknowledged (spec/16 R408). -/
def leftOver (f : FFrame) (y : PathSt) : List FFrame :=
  match f.ack with | some a => y.unacked.filter (fun g => !ackedBy a g) | none => y.unacked

theorem acked_unacked (f : FFrame) (y : PathSt) : (acked f y).unacked = leftOver f y := by
  unfold acked leftOver
  split
  · exact (foldl_modVc_unacked (fun g : FFrame => g.vc) (fun g c => { c with acked := c.acked + BitVec.ofNat 32 (frameCells g) }) _ _).1
  · rfl

/-- What covers nothing leaves the count of resends. -/
theorem acked_resends {f : FFrame} {y : PathSt} (h : ∀ a, f.ack = some a → ∀ g ∈ y.unacked, ackedBy a g = false) :
    (acked f y).resends = y.resends := by
  unfold acked
  split
  next a ha =>
    have hnone : y.unacked.filter (ackedBy a) = [] := List.filter_eq_nil_iff.2 fun g hg => by rw [h a ha g hg]; exact Bool.false_ne_true
    rw [hnone]
    rfl
  · rfl

theorem controlled_unacked (f : FFrame) (y : PathSt) : (controlled f y).unacked = leftOver f y := by
  rw [controlled, (granted_unacked f _).1, (credited_unacked f _).1, acked_unacked]

theorem controlled_resends {f : FFrame} {y : PathSt} (h : ∀ a, f.ack = some a → ∀ g ∈ y.unacked, ackedBy a g = false) :
    (controlled f y).resends = y.resends := by
  rw [controlled, (granted_unacked f _).2, (credited_unacked f _).2, acked_resends h]

theorem controlled_credit {f : FFrame} {v : Nat} {c : BitVec 32} (hc : f.credit = some (v, c)) (y : PathSt) :
    (getVc (controlled f y) v).credit = c := by
  have hgrants (l : List (Nat × Nat)) (z : PathSt) (w : Nat) :
      (getVc (l.foldl (fun y gv => modVc y gv.2 fun c => { c with grant := gv.1 }) z) w).credit = (getVc z w).credit := by
    induction l generalizing z with
    | nil => rfl
    | cons a l ih =>
      rw [List.foldl_cons, ih, getVc_modVc]
      split
      next h => rw [h]
      next => rfl
  have hcred : (getVc (credited f (acked f y)) v).credit = c := by
    rw [credited, hc]
    dsimp only
    rw [getVc_modVc, if_pos rfl]
  rw [controlled, granted]
  split
  · rw [hgrants, hcred]
  · exact hcred

theorem getPath_takeControl (s : State) (p x : Nat) (f : FFrame) :
    getPath (takeControl s p x f) p x = controlled f (getPath s p x) := by
  have hack : getPath (applyAck s p x f) p x = credited f (acked f (getPath s p x)) := by
    rw [applyAck, getPath_modPath]
    rfl
  rw [takeControl, applyGrants, controlled, granted]
  cases f.grants with
  | some g => exact (getPath_modPath _ p x _).trans (by rw [hack])
  | none => exact hack

/-- Of one port's path to one module only may the path be new. -/
structure OnPath (s t : State) (p x : Nat) : Prop where
  frame : t = { s with fry := { s.fry with paths := t.fry.paths } }
  other (k : Nat) : k ≠ pathKey p x → tabGet {} t.fry.paths k = tabGet {} s.fry.paths k

theorem OnPath.trans {s t u : State} {p x : Nat} (h : OnPath s t p x) (h' : OnPath t u p x) : OnPath s u p x :=
  ⟨by rw [h'.frame, h.frame], fun k hk => (h'.other k hk).trans (h.other k hk)⟩

theorem onPath_modPath (s : State) (p x : Nat) (f : PathSt → PathSt) : OnPath s (modPath s p x f) p x :=
  ⟨rfl, fun _ hk => tabGet_tabPut_ne _ _ _ (Ne.symm hk)⟩

theorem onPath_takeControl (s : State) (p x : Nat) (f : FFrame) : OnPath s (takeControl s p x f) p x := by
  unfold takeControl applyGrants
  split
  · exact (onPath_modPath s p x _).trans (onPath_modPath _ p x _)
  · exact onPath_modPath s p x _

theorem takeControl_port (s : State) (p x : Nat) (f : FFrame) (q : Nat) : getPort (takeControl s p x f) q = getPort s q := by
  rw [getPort, (onPath_takeControl s p x f).frame]
  rfl

/-! ### A DATA frame that its path does not accept -/

/-- The row of a DATA frame that is not accepted does no more than that. -/
theorem dataRow_rejected {s u : State} {p op : Nat} {f : FFrame} (g : State → State) (htyp : f.typ = .data) (hop : f.op = op)
    (hrej : acceptData s p f = (u, false)) : dataRow s p f op g = u := by
  rw [dataRow, if_neg (by simp [htyp, hop]), hrej]

theorem rows_rejected {s u : State} {p op buf : Nat} {cached : Bool} {bad : Option Nat} {f : FFrame} {i : Instr}
    (hi : (op, i) ∈ Claim.dataRows p f buf cached bad) (htyp : f.typ = .data) (hop : f.op = op) (hrej : acceptData s p f = (u, false)) :
    exec i s = .next u := by
  have hgo (n : Nat) (g : State → State) (hn : op = n) : Host.Outcome.next (dataRow s p f n g) = (.next u : Host.Outcome State Fault Refusal) :=
    congrArg Host.Outcome.next (dataRow_rejected g htyp (hop.trans hn) hrej)
  simp only [Claim.dataRows, List.mem_cons, List.not_mem_nil, or_false, Prod.mk.injEq] at hi
  rcases hi with ⟨hn, rfl⟩ | ⟨hn, rfl⟩ | ⟨hn, rfl⟩ | ⟨hn, rfl⟩ | ⟨hn, rfl⟩ | ⟨hn, rfl⟩ | ⟨hn, rfl⟩ | ⟨hn, rfl⟩ | ⟨hn, rfl⟩ | ⟨hn, rfl⟩ |
    ⟨hn, rfl⟩ | ⟨hn, rfl⟩ | ⟨hn, rfl⟩
  all_goals exact hgo _ _ hn

section
variable {s : State} {p : Nat} {f : FFrame} (hc : portCarries s p = true)
include hc

theorem acceptData_elsewhere (hdst : f.dst ≠ ownModule s) : acceptData s p f = (dropFrame s p, false) := by
  rw [acceptData, hc, if_neg (by decide), if_pos hdst]

theorem acceptData_stale (hdst : f.dst = ownModule s) (h : (getPath s p f.src).state ≠ .up ∨ f.gen ≠ (getPath s p f.src).gen) :
    acceptData s p f = (s, false) := by
  have hcur : frameCurrent s p f = false := by
    rcases h with h | h <;> simp [frameCurrent, pathUp, h]
  rw [acceptData, hc, if_neg (by decide), if_neg (not_not.2 hdst), hcur, if_pos (by decide)]

variable (hdst : f.dst = ownModule s) (hup : (getPath s p f.src).state = .up) (hgen : f.gen = (getPath s p f.src).gen)
include hdst hup hgen

theorem frameCurrent_of : frameCurrent s p f = true := by
  simp [frameCurrent, pathUp, (carries_live hc).1, hup, hgen, hdst]

theorem acceptData_full (hcells : cellsFree s p f = false) : acceptData s p f = (dropFrame s p, false) := by
  rw [acceptData, hc, if_neg (by decide), if_neg (not_not.2 hdst), frameCurrent_of hc hdst hup hgen, if_neg (by decide), hcells,
    if_pos (by decide)]

/-- A NACK is due: the path has sent none of this gap, or not within RTO_US. -/
def nackDue (s : State) (q : PathSt) : Bool :=
  match q.nacked with
  | some (e, t) => e ≠ q.exp || s.hub.time.toNat - t.toNat ≥ s.fry.rtoUs.toNat * 1000
  | none => true

/-- A frame out of order is dropped; one ahead draws a NACK where it is due, an old one an acknowledgement. -/
def outOfOrder (s : State) (p : Nat) (f : FFrame) : State :=
  let u := dropFrame (takeControl s p f.src f) p
  let q := getPath (takeControl s p f.src f) p f.src
  if (f.seq - q.exp).toNat < 2 ^ 23 then
    if nackDue u q then
      transmit (modPath u p f.src fun y => { y with nacked := some (q.exp, u.hub.time) }) p f.src { typ := .nack }
    else u
  else transmit u p f.src { typ := .control }

theorem acceptData_early (hcells : cellsFree s p f = true) (hseq : f.seq ≠ (getPath s p f.src).exp) :
    acceptData s p f = (outOfOrder s p f, false) := by
  have hexp : (getPath (takeControl s p f.src f) p f.src).exp = (getPath s p f.src).exp := by
    rw [getPath_takeControl, (heeded_controlled f _).eq]
  have hne : ¬ (f.seq - (getPath (takeControl s p f.src f) p f.src).exp).toNat = 0 := by
    rw [hexp]
    intro h
    exact hseq (by bv_omega)
  rw [acceptData, hc, if_neg (by decide), if_neg (not_not.2 hdst), frameCurrent_of hc hdst hup hgen, if_neg (by decide), hcells,
    if_neg (by decide)]
  rw [if_neg hne, outOfOrder]
  dsimp only
  split
  · split
    next e t hq =>
      have hdue : nackDue (dropFrame (takeControl s p f.src f) p) (getPath (takeControl s p f.src f) p f.src) =
          (decide (e ≠ (getPath (takeControl s p f.src f) p f.src).exp) || decide ((dropFrame (takeControl s p f.src f) p).hub.time.toNat - t.toNat ≥
            (dropFrame (takeControl s p f.src f) p).fry.rtoUs.toNat * 1000)) := by rw [nackDue, hq]
      rw [hdue]
      split <;> rfl
    next hq =>
      have hdue : nackDue (dropFrame (takeControl s p f.src f) p) (getPath (takeControl s p f.src f) p f.src) = true := by rw [nackDue, hq]
      rw [hdue]
      rfl
  · rfl

end

/-! ### What a frame that is not accepted leaves -/

theorem dropFrame_path (s : State) (p q x : Nat) : getPath (dropFrame s p) q x = getPath s q x := rfl

section
variable {s : State} {p : Nat} {f : FFrame} (hc : portCarries s p = true)
include hc

theorem outOfOrder_does : (getPath (outOfOrder s p f) p f.src).exp = (getPath s p f.src).exp ∧
    (getPort (outOfOrder s p f) p).dropped = (getPort s p).dropped + 1 ∧
    (getPort (outOfOrder s p f) p).rxFrames = (getPort s p).rxFrames ∧
    ((f.seq - (getPath s p f.src).exp).toNat < 2 ^ 23 → (getPath s p f.src).nacked = none →
      ∃ mac h w, (outOfOrder s p f).outs = .ferry p mac h w :: s.outs ∧ h.typ = .nack ∧ h.ack = some (getPath s p f.src).exp ∧ h.dst = f.src) ∧
    (2 ^ 23 ≤ (f.seq - (getPath s p f.src).exp).toNat →
      ∃ mac h w, (outOfOrder s p f).outs = .ferry p mac h w :: s.outs ∧ h.typ = .control ∧ h.ack = some (getPath s p f.src).exp ∧
        h.dst = f.src) ∧
    outOfOrder s p f = { s with fry := (outOfOrder s p f).fry, outs := (outOfOrder s p f).outs } := by
  obtain ⟨u, hu⟩ : ∃ u, u = dropFrame (takeControl s p f.src f) p := ⟨_, rfl⟩
  obtain ⟨q, hq⟩ : ∃ q, q = getPath (takeControl s p f.src f) p f.src := ⟨_, rfl⟩
  have hqe : q = { getPath s p f.src with unacked := q.unacked, resends := q.resends, vcs := q.vcs } := by
    rw [hq, getPath_takeControl]
    exact (heeded_controlled f _).eq
  have hexp : q.exp = (getPath s p f.src).exp := by rw [hqe]
  have hnacked : q.nacked = (getPath s p f.src).nacked := by rw [hqe]
  have hpath : getPath u p f.src = q := by rw [hu, hq, dropFrame_path]
  have hport : getPort u p = { getPort s p with dropped := (getPort s p).dropped + 1 } := by
    rw [hu, (dropFrame_of _ p).1, takeControl_port]
  have hframe : u = { s with fry := u.fry, outs := u.outs } := by
    rw [hu, (dropFrame_of _ p).2, (onPath_takeControl s p f.src f).frame]
  have houts : u.outs = s.outs := by
    rw [hu, (dropFrame_of _ p).2, (onPath_takeControl s p f.src f).frame]
  have hcal : (getPort u p).cal = false := by rw [hport]; exact (carries_live hc).2
  have hsend (v : State) (g : FFrame) (hvp : (getPath v p f.src).exp = q.exp) (hvport : getPort v p = getPort u p) (hvo : v.outs = s.outs)
      (hvf : v = { s with fry := v.fry, outs := v.outs }) (hhello : g.typ ≠ .hello) :
      (getPath (transmit v p f.src g) p f.src).exp = (getPath s p f.src).exp ∧
      (getPort (transmit v p f.src g) p).dropped = (getPort s p).dropped + 1 ∧
      (getPort (transmit v p f.src g) p).rxFrames = (getPort s p).rxFrames ∧
      (∃ mac h w, (transmit v p f.src g).outs = .ferry p mac h w :: s.outs ∧ h.typ = g.typ ∧ h.ack = some (getPath s p f.src).exp ∧
        h.dst = f.src) ∧
      transmit v p f.src g = { s with fry := (transmit v p f.src g).fry, outs := (transmit v p f.src g).outs } := by
    have hvcal : (getPort v p).cal = false := by rw [hvport]; exact hcal
    have htp := getPort_transmit hvcal f.src g
    rw [hvport, hport] at htp
    refine ⟨?_, by rw [htp], by rw [htp], ⟨_, wireFrame v p f.src g, _, (transmit_outs hvcal f.src g).trans (by rw [hvo]), rfl, ?_, ?_⟩, ?_⟩
    · rw [getPath_transmit, ← hexp, ← hvp]
      rfl
    · show (if g.typ = .hello then none else some (getPath v p f.src).exp) = _
      rw [if_neg hhello, hvp, hexp]
    · show (if g.typ = .hello then 0 else f.src) = f.src
      rw [if_neg hhello]
    · rw [transmit_frame, hvf]
  have hrow : outOfOrder s p f = if (f.seq - q.exp).toNat < 2 ^ 23 then
      if nackDue u q then transmit (modPath u p f.src fun y => { y with nacked := some (q.exp, u.hub.time) }) p f.src { typ := .nack } else u
      else transmit u p f.src { typ := .control } := by
    rw [outOfOrder, hu, hq]
  rw [hrow, hexp]
  by_cases hd : (f.seq - (getPath s p f.src).exp).toNat < 2 ^ 23
  · rw [if_pos hd]
    have hold (h : 2 ^ 23 ≤ (f.seq - (getPath s p f.src).exp).toNat) : False := absurd hd (Nat.not_lt.2 h)
    cases hdue : nackDue u q with
    | true =>
      obtain ⟨h1, h2, h3, h4, h5⟩ := hsend (modPath u p f.src fun y => { y with nacked := some ((getPath s p f.src).exp, u.hub.time) })
        { typ := .nack } (by rw [getPath_modPath, hpath]) rfl houts (by rw [hframe]; rfl) (by decide)
      rw [if_pos rfl]
      exact ⟨h1, h2, h3, fun _ _ => h4, fun h => (hold h).elim, h5⟩
    | false =>
      rw [if_neg Bool.false_ne_true]
      refine ⟨by rw [hpath, hexp], by rw [hport], by rw [hport], fun _ hn => ?_, fun h => (hold h).elim, hframe⟩
      have : nackDue u q = true := by rw [nackDue, hnacked, hn]
      exact absurd (this.symm.trans hdue) (by decide)
  · rw [if_neg hd]
    obtain ⟨h1, h2, h3, h4, h5⟩ := hsend u { typ := .control } (by rw [hpath]) rfl houts hframe (by decide)
    exact ⟨h1, h2, h3, fun h => absurd h hd, fun _ => h4, h5⟩

end

/-- Frames that are not accepted, on every row. -/
theorem frames_refused (p op buf : Nat) (cached : Bool) (bad : Option Nat) (f : FFrame) (i : Instr) (s : State)
    (hi : (op, i) ∈ Claim.dataRows p f buf cached bad) (htyp : f.typ = .data) (hop : f.op = op) (hc : portCarries s p = true) :
    let q := getPath s p f.src
    let drops := Does i s fun t => getPort t p = { getPort s p with dropped := (getPort s p).dropped + 1 } ∧
      t = { s with fry := { s.fry with ports := t.fry.ports } }
    (f.dst ≠ ownModule s → drops) ∧
    (f.dst = ownModule s → (q.state ≠ .up ∨ f.gen ≠ q.gen) → exec i s = .next s) ∧
    (f.dst = ownModule s → q.state = .up → f.gen = q.gen → cellsFree s p f = false → drops) ∧
    (f.dst = ownModule s → q.state = .up → f.gen = q.gen → cellsFree s p f = true → f.seq ≠ q.exp → Does i s fun t =>
      (getPath t p f.src).exp = q.exp ∧ (getPort t p).dropped = (getPort s p).dropped + 1 ∧
      (getPort t p).rxFrames = (getPort s p).rxFrames ∧
      ((f.seq - q.exp).toNat < 2 ^ 23 → q.nacked = none →
        ∃ mac h w, t.outs = .ferry p mac h w :: s.outs ∧ h.typ = .nack ∧ h.ack = some q.exp ∧ h.dst = f.src) ∧
      (2 ^ 23 ≤ (f.seq - q.exp).toNat →
        ∃ mac h w, t.outs = .ferry p mac h w :: s.outs ∧ h.typ = .control ∧ h.ack = some q.exp ∧ h.dst = f.src) ∧
      t = { s with fry := t.fry, outs := t.outs }) := by
  refine ⟨fun hdst => ?_, fun hdst h => ?_, fun hdst hup hgen hcells => ?_, fun hdst hup hgen hcells hseq => ?_⟩
  · exact does_of (rows_rejected hi htyp hop (acceptData_elsewhere hc hdst)) (dropFrame_of s p)
  · exact rows_rejected hi htyp hop (acceptData_stale hc hdst h)
  · exact does_of (rows_rejected hi htyp hop (acceptData_full hc hdst hup hgen hcells)) (dropFrame_of s p)
  · exact does_of (rows_rejected hi htyp hop (acceptData_early hc hdst hup hgen hcells hseq)) (outOfOrder_does hc)

/-! ### A DATA frame that its path accepts -/

/-- The expected frame counts, and its cells are free again. -/
def expected (f : FFrame) (y : PathSt) : PathSt :=
  modVc { y with exp := y.exp + 1, unsentAcks := y.unsentAcks + 1, lastVc := f.vc } f.vc fun c =>
    { c with freed := c.freed + BitVec.ofNat 32 (frameCells f) }

/-- The state before the acknowledgement that the sixteenth frame draws. -/
def tallied (s : State) (p : Nat) (f : FFrame) : State :=
  countRx (modPath (takeControl s p f.src f) p f.src (expected f)) p

theorem received_eq {s : State} {p op : Nat} {f : FFrame} (h : Claim.arrives s p f op) :
    acceptData s p f = (Claim.received s p f, true) ∧ Claim.received s p f =
      if 16 ≤ (getPath (tallied s p f) p f.src).unsentAcks then transmit (tallied s p f) p f.src { typ := .control } else tallied s p f := by
  obtain ⟨-, -, hc, hup, hgen, hdst, hseq, hcells⟩ := h
  have hup' : (getPath s p f.src).state = .up := by simpa [pathUp] using hup
  have hexp : (getPath (takeControl s p f.src f) p f.src).exp = (getPath s p f.src).exp := by
    rw [getPath_takeControl, (heeded_controlled f _).eq]
  have hz : (f.seq - (getPath (takeControl s p f.src f) p f.src).exp).toNat = 0 := by rw [hexp, hseq, BitVec.sub_self]; rfl
  have hacc : acceptData s p f = (acceptFrame (takeControl s p f.src f) p f, true) := by
    rw [acceptData, hc, if_neg (by decide), if_neg (not_not.2 hdst), frameCurrent_of hc hdst hup' hgen, if_neg (by decide), hcells,
      if_neg (by decide)]
    exact if_pos hz
  rw [Claim.received, hacc]
  exact ⟨rfl, rfl⟩

theorem dataRow_accepted {s : State} {p op : Nat} {f : FFrame} (h : Claim.arrives s p f op) (g : State → State) :
    dataRow s p f op g = g (Claim.received s p f) := by
  have hacc := (received_eq h).1
  obtain ⟨htyp, hop, -⟩ := h
  rw [dataRow, if_neg (by simp [htyp, hop]), hacc]

theorem getPath_tallied (s : State) (p : Nat) (f : FFrame) :
    getPath (tallied s p f) p f.src = expected f (controlled f (getPath s p f.src)) := by
  show getPath (modPath (takeControl s p f.src f) p f.src (expected f)) p f.src = _
  rw [getPath_modPath, getPath_takeControl]

theorem getPort_tallied (s : State) (p : Nat) (f : FFrame) :
    getPort (tallied s p f) p = { getPort s p with rxFrames := (getPort s p).rxFrames + 1 } := by
  have h := getPort_modPort (modPath (takeControl s p f.src f) p f.src (expected f)) p fun y => { y with rxFrames := y.rxFrames + 1 }
  rw [getPort_modPath, takeControl_port] at h
  exact h

theorem tallied_frame (s : State) (p : Nat) (f : FFrame) :
    tallied s p f = { s with fry := { s.fry with ports := (tallied s p f).fry.ports, paths := (tallied s p f).fry.paths } } := by
  have h := ((onPath_takeControl s p f.src f).trans (onPath_modPath _ p f.src (expected f))).frame
  rw [tallied, countRx, h]
  rfl

/-- What acceptance leaves: the rest of the state, what the path still is to send, its state and every other path. -/
structure Accepted (s u : State) (p : Nat) (f : FFrame) : Prop where
  frame : u = { s with fry := u.fry, outs := u.outs }
  fry : u.fry = { s.fry with ports := u.fry.ports, paths := u.fry.paths }
  path : ∃ n, getPath u p f.src = { expected f (controlled f (getPath s p f.src)) with unsentAcks := n }
  other (k : Nat) : k ≠ pathKey p f.src → tabGet {} u.fry.paths k = tabGet {} s.fry.paths k
  live (q : Nat) : ferryLive u q = ferryLive s q

theorem accepted_received {s : State} {p op : Nat} {f : FFrame} (h : Claim.arrives s p f op) : Accepted s (Claim.received s p f) p f := by
  have hpaths : (tallied s p f).fry.paths = (modPath (takeControl s p f.src f) p f.src (expected f)).fry.paths := rfl
  have htallied : Accepted s (tallied s p f) p f := by
    refine ⟨by rw [tallied_frame], by rw [tallied_frame], ⟨_, getPath_tallied s p f⟩, fun k hk => ?_, fun q => ?_⟩
    · rw [hpaths]
      exact ((onPath_takeControl s p f.src f).trans (onPath_modPath _ p f.src (expected f))).other k hk
    · by_cases hq : p = q
      · subst hq
        rw [ferryLive, getPort_tallied]
        rfl
      · have hp : getPort (tallied s p f) q = getPort s q := by
          have h := getPort_modPort_ne (modPath (takeControl s p f.src f) p f.src (expected f)) (fun y => { y with rxFrames := y.rxFrames + 1 }) hq
          rw [getPort_modPath, takeControl_port] at h
          exact h
        rw [ferryLive, hp]
        rfl
  rw [(received_eq h).2]
  split
  · have ht := told_transmit (ps := (· = p)) rfl (tallied s p f) f.src { typ := .control }
    refine ⟨by rw [ht.frame, htallied.frame], by rw [ht.fry, htallied.fry], ⟨0, ?_⟩, fun k hk => ?_, fun q => (ht.ferryLive q).trans (htallied.live q)⟩
    · rw [getPath_transmit, getPath_tallied]
      rfl
    · rw [transmit_paths]
      exact (tabGet_tabPut_ne _ _ _ (Ne.symm hk)).trans (htallied.other k hk)
  · exact htallied

theorem expected_freed (f : FFrame) (y : PathSt) :
    (getVc (expected f y) f.vc).freed = (getVc y f.vc).freed + BitVec.ofNat 32 (frameCells f) := by
  rw [expected, getVc_modVc, if_pos rfl]
  rfl

theorem status_counts (p : Nat) (f : FFrame) (s : State) (h : Claim.arrives s p f 0x0A) (hnone : opOf (Claim.received s p f) p f = none) :
    let q := getPath s p f.src
    Does (.ferryStatus p f) s fun t =>
      (getPath t p f.src).exp = q.exp + 1 ∧ (getPort t p).rxFrames = (getPort s p).rxFrames + 1 ∧
      (getPort t p).dropped = (getPort s p).dropped ∧ (getPath t p f.src).state = .up ∧
      (getVc (getPath t p f.src) f.vc).freed = (getVc q f.vc).freed + BitVec.ofNat 32 (frameCells f) ∧
      (q.unsentAcks < 15 → (getPath t p f.src).unsentAcks = q.unsentAcks + 1 ∧ t.outs = s.outs) ∧
      (15 ≤ q.unsentAcks → (getPath t p f.src).unsentAcks = 0 ∧
        ∃ mac h w, t.outs = .ferry p mac h w :: s.outs ∧ h.typ = .control ∧ h.ack = some (q.exp + 1) ∧ h.dst = f.src) ∧
      t = { s with fry := t.fry, outs := t.outs } := by
  have hrow : exec (.ferryStatus p f) s = .next (Claim.received s p f) := by
    refine congrArg Host.Outcome.next ((dataRow_accepted h fun s => statusFrame s p f).trans ?_)
    rw [statusFrame, hnone]
  have hacc := accepted_received h
  have heq := (received_eq h).2
  obtain ⟨-, -, hc, hup, -⟩ := h
  have hup' : (getPath s p f.src).state = .up := by simpa [pathUp] using hup
  obtain ⟨n, hn⟩ := hacc.path
  have hh := heeded_controlled f (getPath s p f.src)
  have hexp : (getPath (tallied s p f) p f.src).exp = (getPath s p f.src).exp + 1 := by
    rw [getPath_tallied]
    show (controlled f (getPath s p f.src)).exp + 1 = _
    rw [hh.eq]
  have hunsent : (getPath (tallied s p f) p f.src).unsentAcks = (getPath s p f.src).unsentAcks + 1 := by
    rw [getPath_tallied]
    show (controlled f (getPath s p f.src)).unsentAcks + 1 = _
    rw [hh.eq]
  have hcal : (getPort (tallied s p f) p).cal = false := by rw [getPort_tallied]; exact (carries_live hc).2
  have houts : (tallied s p f).outs = s.outs := by rw [tallied_frame]
  have hport : ∃ m, getPort (Claim.received s p f) p = { getPort s p with rxFrames := (getPort s p).rxFrames + 1, txFrames := m } := by
    rw [heq]
    split
    · exact ⟨_, by rw [getPort_transmit hcal, getPort_tallied]⟩
    · exact ⟨_, getPort_tallied s p f⟩
  obtain ⟨m, hm⟩ := hport
  refine does_of hrow ⟨?_, by rw [hm], by rw [hm], ?_, ?_, fun hlt => ?_, fun hge => ?_, hacc.frame⟩
  · rw [hn]
    show (controlled f (getPath s p f.src)).exp + 1 = _
    rw [hh.eq]
  · rw [hn]
    show (controlled f (getPath s p f.src)).state = .up
    rw [hh.eq]
    exact hup'
  · rw [hn]
    show (getVc (expected f (controlled f (getPath s p f.src))) f.vc).freed = _
    rw [expected_freed, hh.freed]
  · rw [if_neg (by rw [hunsent]; omega)] at heq
    rw [heq]
    exact ⟨hunsent, houts⟩
  · rw [if_pos (by rw [hunsent]; omega)] at heq
    rw [heq]
    refine ⟨by rw [getPath_transmit]; rfl, _, wireFrame (tallied s p f) p f.src { typ := .control }, _, (transmit_outs hcal _ _).trans (by rw [houts]),
      rfl, ?_, rfl⟩
    show some (getPath (tallied s p f) p f.src).exp = _
    rw [hexp]

/-! ### Resending -/

/-- What is resent goes out in order and counts. -/
theorem resend_does {p x : Nat} (fs : List FFrame) {s : State} (hcal : (getPort s p).cal = false) :
    (∃ n, getPath (resend s p x fs) p x = { getPath s p x with unsentAcks := n }) ∧
    (getPort (resend s p x fs) p).resent = (getPort s p).resent + BitVec.ofNat 64 fs.length ∧
    (∃ l, (resend s p x fs).outs = l ++ s.outs ∧ l.length = fs.length) ∧
    (∀ g ∈ fs, ∃ mac f w, Out.ferry p mac f w ∈ (resend s p x fs).outs ∧ f.seq = g.seq ∧ f.payload = g.payload ∧ f.op = g.op) ∧
    resend s p x fs = { s with fry := (resend s p x fs).fry, outs := (resend s p x fs).outs } := by
  induction fs generalizing s with
  | nil => exact ⟨⟨_, rfl⟩, by simp [resend], ⟨[], rfl, rfl⟩, fun g hg => absurd hg List.not_mem_nil, rfl⟩
  | cons g fs ih =>
    obtain ⟨u, hu⟩ : ∃ u, u = modPort (transmit s p x g) p fun y => { y with resent := y.resent + 1 } := ⟨_, rfl⟩
    have hcons : resend s p x (g :: fs) = resend u p x fs := by rw [hu]; rfl
    have hport : getPort u p = { getPort s p with txFrames := (getPort s p).txFrames + 1, resent := (getPort s p).resent + 1 } := by
      rw [hu, getPort_modPort (transmit s p x g) p fun y => { y with resent := y.resent + 1 }, getPort_transmit hcal]
    have hpath : getPath u p x = ackSent (getPath s p x) := by
      rw [hu]
      exact getPath_transmit s p x g
    have houts : u.outs = .ferry p (wireMac s p x g) (wireFrame s p x g) (wireOf s p x g).2.2 :: s.outs := by
      rw [hu]
      exact transmit_outs hcal x g
    have hframe : u = { s with fry := u.fry, outs := u.outs } := by
      rw [hu, modPort, modFry, transmit_frame]
    obtain ⟨⟨n, hn⟩, hres, ⟨l, hl, hlen⟩, hall, hfr⟩ := ih (s := u) (by rw [hport]; exact hcal)
    rw [hcons]
    refine ⟨⟨n, by rw [hn, hpath]; rfl⟩, ?_, ⟨l ++ [_], by rw [hl, houts, List.append_assoc]; rfl, by simp [hlen]⟩, fun h hh => ?_, by rw [hfr, hframe]⟩
    · rw [hres, hport]
      have hn : BitVec.ofNat 64 (g :: fs).length = 1 + BitVec.ofNat 64 fs.length := by
        rw [List.length_cons, Nat.add_comm, BitVec.ofNat_add]
        rfl
      rw [hn, ← BitVec.add_assoc]
    · rcases List.mem_cons.1 hh with rfl | h'
      · exact ⟨wireMac s p x h, wireFrame s p x h, (wireOf s p x h).2.2, by rw [hl, houts]; exact List.mem_append_right _ (.head _),
          rfl, rfl, rfl⟩
      · exact hall h h'

/-! ### Acknowledgements and NACKs received, and the timers -/

section
variable {p : Nat} {f : FFrame} {s : State} (hc : portCarries s p = true) (hdst : f.dst = ownModule s) (hup : pathUp s p f.src = true)
    (hgen : f.gen = (getPath s p f.src).gen)
include hc hdst hup hgen

/-- The state with the frame tallied and what it tells applied. -/
theorem controlFrame_eq {t : FType} (htyp : f.typ = t) (g : State → State) :
    controlFrame s p f t g = g (takeControl (countRx s p) p f.src f) := by
  have hup' : (getPath s p f.src).state = .up := by simpa [pathUp] using hup
  rw [controlFrame, if_neg (by simp [htyp, hc]), if_neg (not_not.2 hdst), frameCurrent_of hc hdst hup' hgen, if_pos rfl]

omit hc hdst hup hgen in
theorem told_path (s : State) (p : Nat) (f : FFrame) :
    getPath (takeControl (countRx s p) p f.src f) p f.src = controlled f (getPath s p f.src) := getPath_takeControl _ _ _ _

omit hc hdst hup hgen in
theorem told_port (s : State) (p : Nat) (f : FFrame) :
    getPort (takeControl (countRx s p) p f.src f) p = { getPort s p with rxFrames := (getPort s p).rxFrames + 1 } := by
  rw [takeControl_port]
  exact getPort_modPort s p fun y => { y with rxFrames := y.rxFrames + 1 }

omit hc hdst hup hgen in
theorem told_frame (s : State) (p : Nat) (f : FFrame) :
    takeControl (countRx s p) p f.src f = { s with fry := (takeControl (countRx s p) p f.src f).fry } := by
  rw [(onPath_takeControl (countRx s p) p f.src f).frame]
  rfl

theorem control_does (htyp : f.typ = .control) : Does (.ferryControlReceive p f) s fun t =>
    (getPath t p f.src).unacked = leftOver f (getPath s p f.src) ∧ (getPort t p).rxFrames = (getPort s p).rxFrames + 1 ∧
    (∀ v c, f.credit = some (v, c) → (getVc (getPath t p f.src) v).credit = c) ∧ t = { s with fry := t.fry } := by
  refine does_of (congrArg Host.Outcome.next (controlFrame_eq hc hdst hup hgen htyp fun s => s)) ⟨?_, by rw [told_port], fun v c hcr => ?_, told_frame s p f⟩
  · rw [told_path, controlled_unacked]
  · rw [told_path]
    exact controlled_credit hcr _

theorem nack_covers (htyp : f.typ = .nack) (hleft : leftOver f (getPath s p f.src) = []) : Does (.ferryNackReceive p f) s fun t =>
    (getPath t p f.src).unacked = [] ∧ t.outs = s.outs := by
  have hun : (getPath (takeControl (countRx s p) p f.src f) p f.src).unacked = [] := by rw [told_path, controlled_unacked, hleft]
  have hrow := controlFrame_eq hc hdst hup hgen htyp fun s => resendAll s p f.src
  rw [resendAll] at hrow
  rw [if_pos hun] at hrow
  exact does_of (congrArg Host.Outcome.next hrow) ⟨hun, by rw [told_frame]⟩

theorem nack_resends (htyp : f.typ = .nack) (hleft : leftOver f (getPath s p f.src) ≠ [])
    (hnew : ∀ a, f.ack = some a → ∀ g ∈ (getPath s p f.src).unacked, ackedBy a g = false)
    (hres : (getPath s p f.src).resends < s.fry.retryMax.toNat) : Does (.ferryNackReceive p f) s fun t =>
      (getPath t p f.src).unacked = leftOver f (getPath s p f.src) ∧ (getPath t p f.src).resends = (getPath s p f.src).resends + 1 ∧
      (getPort t p).resent = (getPort s p).resent + BitVec.ofNat 64 (leftOver f (getPath s p f.src)).length ∧
      t.outs.length = s.outs.length + (leftOver f (getPath s p f.src)).length ∧ t = { s with fry := t.fry, outs := t.outs } := by
  obtain ⟨u, hu⟩ : ∃ u, u = takeControl (countRx s p) p f.src f := ⟨_, rfl⟩
  have hpath : getPath u p f.src = controlled f (getPath s p f.src) := by rw [hu, told_path]
  have hframe : u = { s with fry := u.fry } := by rw [hu]; exact told_frame s p f
  have hmax : u.fry.retryMax = s.fry.retryMax := by rw [hu, (onPath_takeControl _ _ _ _).frame]; rfl
  have hrow := controlFrame_eq hc hdst hup hgen htyp fun s => resendAll s p f.src
  rw [← hu, resendAll] at hrow
  rw [hpath, controlled_unacked, controlled_resends hnew, hmax, if_neg hleft, if_neg (Nat.not_le.2 hres)] at hrow
  obtain ⟨⟨n, hn⟩, hcount, ⟨l, hl, hlen⟩, -, hfr⟩ := resend_does (x := f.src) (leftOver f (getPath s p f.src))
    (s := modPath u p f.src fun y => { y with resends := y.resends + 1 }) (p := p)
    (by rw [getPort_modPath, hu, told_port]; exact (carries_live hc).2)
  rw [getPath_modPath, hpath] at hn
  refine does_of (congrArg Host.Outcome.next hrow) ⟨?_, ?_, ?_, ?_, ?_⟩
  · rw [hn]
    exact controlled_unacked f _
  · rw [hn]
    show (controlled f (getPath s p f.src)).resends + 1 = _
    rw [controlled_resends hnew]
  · rw [hcount, getPort_modPath, hu, told_port]
  · have houts : (modPath u p f.src fun y => { y with resends := y.resends + 1 }).outs = s.outs := by
      show u.outs = s.outs
      rw [hframe]
    rw [hl, List.length_append, hlen, houts, Nat.add_comm]
  · rw [hfr]
    show ({ u with fry := _, outs := _ } : State) = _
    rw [hframe]

end

section
variable {p x : Nat} {s : State} (hc : portCarries s p = true) (hup : pathUp s p x = true)
include hc hup

theorem ackTimer_does (hun : (getPath s p x).unsentAcks ≠ 0) : Does (.ackTimer p x) s fun t =>
    (∃ mac f w, t.outs = .ferry p mac f w :: s.outs ∧ f.typ = .control ∧ f.ack = some (getPath s p x).exp ∧ f.dst = x) ∧
    (getPath t p x).unsentAcks = 0 ∧ t = { s with fry := t.fry, outs := t.outs } := by
  obtain ⟨hlive, hcal⟩ := carries_live hc
  have hup' : (getPath s p x).state = .up := by simpa [pathUp] using hup
  have hrow : ackTimer s p x = transmit s p x { typ := .control } := by
    rw [ackTimer]
    exact if_pos (by simp [hlive, hup', hun])
  exact does_of (congrArg Host.Outcome.next hrow) ⟨⟨_, wireFrame s p x { typ := .control }, _, transmit_outs hcal _ _, rfl, rfl, rfl⟩,
    by rw [getPath_transmit]; rfl, transmit_frame _ _ _ _⟩

theorem timeout_row : retransmitTimeout s p x = resendAll s p x := by
  rw [retransmitTimeout, hup, (carries_live hc).1]
  exact if_pos rfl

theorem timeout_resends (hun : (getPath s p x).unacked ≠ []) (hres : (getPath s p x).resends < s.fry.retryMax.toNat) :
    Does (.retransmitTimeout p x) s fun t =>
      (getPath t p x).unacked = (getPath s p x).unacked ∧ (getPath t p x).resends = (getPath s p x).resends + 1 ∧
      t.outs.length = s.outs.length + (getPath s p x).unacked.length ∧
      (∀ g ∈ (getPath s p x).unacked, ∃ mac f w, Out.ferry p mac f w ∈ t.outs ∧ f.seq = g.seq ∧ f.payload = g.payload ∧ f.op = g.op) := by
  have hrow : retransmitTimeout s p x = resend (modPath s p x fun y => { y with resends := y.resends + 1 }) p x (getPath s p x).unacked := by
    rw [timeout_row hc hup, resendAll]
    rw [if_neg hun, if_neg (Nat.not_le.2 hres)]
  obtain ⟨⟨n, hn⟩, -, ⟨l, hl, hlen⟩, hall, -⟩ := resend_does (x := x) (getPath s p x).unacked
    (s := modPath s p x fun y => { y with resends := y.resends + 1 }) (p := p) (carries_live hc).2
  rw [getPath_modPath] at hn
  refine does_of (congrArg Host.Outcome.next hrow) ⟨by rw [hn], by rw [hn], ?_, hall⟩
  rw [hl, List.length_append, hlen, Nat.add_comm]
  rfl

theorem timeout_loses (hun : (getPath s p x).unacked ≠ []) (hres : s.fry.retryMax.toNat ≤ (getPath s p x).resends) :
    Does (.retransmitTimeout p x) s fun t => (getPath t p x).unacked = [] ∧ (getPath t p x).state ≠ .up := by
  have hrow : retransmitTimeout s p x = pathLost s p x := by
    rw [timeout_row hc hup, resendAll]
    rw [if_neg hun, if_pos hres]
  exact does_of (congrArg Host.Outcome.next hrow) (pathLost_ends s p x)

end

/-! ### The first waiting frame of a channel goes out -/

section
variable {p x v : Nat} {f : FFrame} {s : State} (hlive : ferryLive s p = true) (hup : pathUp s p x = true) (hcal : (getPort s p).cal = false)
    (hfind : ((getPath s p x).sendq.find? fun f => f.vc = v) = some f) (hlen : (getPath s p x).unacked.length + 1 < 2 ^ 23)
include hlive hup hcal hfind hlen

/-- The cells in use on a channel with a frame of it. -/
def cellsInUse (q : PathSt) (v : Nat) (f : FFrame) : Nat :=
  unackedCells q v + ((getVc q v).acked - (getVc q v).credit).toNat + frameCells f

omit hlive hup hcal hlen in
theorem sendData_held (hgrant : (getVc (getPath s p x) v).grant < cellsInUse (getPath s p x) v f) : sendData s p x v = s := by
  rw [sendData, hfind]
  refine if_pos ?_
  have : decide ((getVc (getPath s p x) v).grant < cellsInUse (getPath s p x) v f) = true := decide_eq_true hgrant
  unfold cellsInUse at this
  simp only [this, Bool.or_true, Bool.true_or]

theorem sendData_goes (hgrant : cellsInUse (getPath s p x) v f ≤ (getVc (getPath s p x) v).grant)
    (hroom : retransmitBytes s p + 48 + f.payload.length ≤ 2097152) : sendData s p x v =
      transmit (modPath s p x fun y => { y with
        sendq := y.sendq.erase { f with seq := 0 }, nextSeq := y.nextSeq + 1,
        unacked := y.unacked ++ [{ f with seq := (getPath s p x).nextSeq }] }) p x { f with seq := (getPath s p x).nextSeq } := by
  have hup' : (getPath s p x).state = .up := by simpa [pathUp] using hup
  have h1 : decide ((getVc (getPath s p x) v).grant < cellsInUse (getPath s p x) v f) = false := decide_eq_false (Nat.not_lt.2 hgrant)
  have h2 : decide (2097152 < retransmitBytes s p + 48 + f.payload.length) = false := decide_eq_false (Nat.not_lt.2 hroom)
  have h3 : decide (2 ^ 23 ≤ (getPath s p x).unacked.length + 1) = false := decide_eq_false (Nat.not_le.2 hlen)
  unfold cellsInUse at h1
  rw [sendData, hfind]
  refine if_neg ?_
  rw [hlive, hup', hcal]
  simp only [h1, h2, h3, decide_true, Bool.and_self, Bool.not_true, Bool.or_self]
  decide

end

theorem frame_goes (p x v : Nat) (f : FFrame) (s : State) (hlive : ferryLive s p = true) (hup : pathUp s p x = true)
    (hcal : (getPort s p).cal = false) :
    let q := getPath s p x
    (q.sendq.find? fun f => f.vc = v) = some f → f.typ = .data → f.seq = 0 → q.unacked.length + 1 < 2 ^ 23 →
    let use := unackedCells q v + ((getVc q v).acked - (getVc q v).credit).toNat + frameCells f
    (use ≤ (getVc q v).grant → retransmitBytes s p + 48 + f.payload.length ≤ 2097152 → Does (.ferryFrameSend p x v) s fun t =>
      (∃ mac h w, t.outs = .ferry p mac h w :: s.outs ∧ h.seq = q.nextSeq ∧ h.payload = f.payload ∧ h.op = f.op ∧ h.tag = f.tag ∧
        h.dst = x ∧ h.gen = q.gen ∧ h.ack = some q.exp) ∧
      (getPath t p x).nextSeq = q.nextSeq + 1 ∧ (getPath t p x).sendq = q.sendq.erase f ∧
      (getPath t p x).unacked = q.unacked ++ [{ f with seq := q.nextSeq }] ∧ (getPort t p).txFrames = (getPort s p).txFrames + 1 ∧
      t = { s with fry := t.fry, outs := t.outs }) ∧
    ((getVc q v).grant < use → exec (.ferryFrameSend p x v) s = .next s) := by
  intro q hfind htyp hseq hlen
  refine ⟨fun hgrant hroom => ?_, fun hgrant => congrArg Host.Outcome.next (sendData_held hfind hgrant)⟩
  have hrow := sendData_goes hlive hup hcal hfind hlen hgrant hroom
  obtain ⟨u, hu⟩ : ∃ u, u = modPath s p x fun y => { y with
      sendq := y.sendq.erase { f with seq := 0 }, nextSeq := y.nextSeq + 1,
      unacked := y.unacked ++ [{ f with seq := (getPath s p x).nextSeq }] } := ⟨_, rfl⟩
  have hpath : getPath u p x = { getPath s p x with
      sendq := (getPath s p x).sendq.erase { f with seq := 0 }, nextSeq := (getPath s p x).nextSeq + 1,
      unacked := (getPath s p x).unacked ++ [{ f with seq := (getPath s p x).nextSeq }] } := by rw [hu, getPath_modPath]
  have hport : getPort u p = getPort s p := by rw [hu, getPort_modPath]
  have houts : u.outs = s.outs := by rw [hu]; rfl
  have hframe (y : FrySt) (o : List Out) : { u with fry := y, outs := o } = { s with fry := y, outs := o } := by rw [hu]; rfl
  rw [← hu] at hrow
  have hzero : ({ f with seq := 0 } : FFrame) = f := by rw [← hseq]
  refine does_of (congrArg Host.Outcome.next hrow) ⟨⟨_, wireFrame u p x { f with seq := (getPath s p x).nextSeq }, _,
    (transmit_outs (by rw [hport]; exact hcal) _ _).trans (by rw [houts]), rfl, rfl, rfl, rfl, ?_, ?_, ?_⟩, ?_, ?_, ?_, ?_, ?_⟩
  · show (if f.typ = .hello then 0 else x) = x
    rw [htyp]
    rfl
  · show (if f.typ = .sync || f.typ = .syncAck then f.gen else (getPath u p x).gen) = _
    rw [htyp, hpath]
    rfl
  · show (if f.typ = .hello then none else some (getPath u p x).exp) = _
    rw [htyp, hpath]
    rfl
  · rw [getPath_transmit, hpath]; rfl
  · rw [getPath_transmit, hpath, hzero]; rfl
  · rw [getPath_transmit, hpath]; rfl
  · rw [getPort_transmit (by rw [hport]; exact hcal), hport]
  · rw [transmit_frame]
    exact hframe _ _

/-- Settles O59: a frame is accepted by one number, what it tells is applied by one function of its path, and what is sent again
is sent by an induction over the frames unacknowledged. -/
theorem pathsDeliverInOrder : Obligations.PathsDeliverInOrder := by
  unfold Obligations.PathsDeliverInOrder
  refine ⟨fun p op buf cached bad f i s hi htyp hop hc => frames_refused p op buf cached bad f i s hi htyp hop hc, status_counts,
    fun p f s hc hdst hup hgen => ⟨fun htyp => control_does hc hdst hup hgen htyp, fun htyp hleft => nack_covers hc hdst hup hgen htyp hleft,
      fun htyp hleft hnew hres => nack_resends hc hdst hup hgen htyp hleft hnew hres⟩,
    fun p x s hc hup => ⟨fun hun => ackTimer_does hc hup hun, fun hun hres => timeout_resends hc hup hun hres,
      fun hun hres => timeout_loses hc hup hun hres⟩, frame_goes⟩

end Sys2Proof.Proofs
end

