-- ==== Sys2Proof/Proofs/Remotes.lean ====
section
/-! PROOFS. Operations between modules: served at their target, answered at their requester (spec/16 R403, R418-R420). -/

namespace Sys2Proof.Proofs

open Sys2Proof Sys2Proof.Machine Sys2Proof.Laws

/-! ### Frames in line -/

theorem queues_queueFrame (u : State) (p x : Nat) (f : FFrame) : Claim.queues u (queueFrame u p x f) p x [f] :=
  ⟨getPath_queueFrame u p x f, fun _ _ h => getPath_modPath_ne u _ (Ne.symm h)⟩

theorem queues_of_fry {u v u' v' : State} {p x : Nat} {fs : List FFrame} (h : Claim.queues u v p x fs)
    (hu : u'.fry.paths = u.fry.paths) (hv : v'.fry.paths = v.fry.paths) : Claim.queues u' v' p x fs := by
  have hup (q y : Nat) : getPath u' q y = getPath u q y := by rw [getPath, hu]; rfl
  have hvp (q y : Nat) : getPath v' q y = getPath v q y := by rw [getPath, hv]; rfl
  exact ⟨by rw [hvp, hup]; exact h.1, fun q y hq => by rw [hvp, hup]; exact h.2 q y hq⟩

theorem queues_refl (u : State) (p x : Nat) : Claim.queues u u p x [] := ⟨by rw [List.append_nil], fun _ _ _ => rfl⟩

theorem queues_trans {u v w : State} {p x : Nat} {fs gs : List FFrame} (h : Claim.queues u v p x fs) (h' : Claim.queues v w p x gs) :
    Claim.queues u w p x (fs ++ gs) :=
  ⟨by rw [h'.1, h.1, List.append_assoc], fun q y hq => (h'.2 q y hq).trans (h.2 q y hq)⟩

section
variable {s u : State} {p : Nat} {f : FFrame} (h : Accepted s u p f)
include h

theorem Accepted.mayAccess (w : Who) (a n : Nat) (wr : Bool) : mayAccess u w a n wr = mayAccess s w a n wr :=
  mayAccess_of_samePrt (by rw [h.frame]; exact .refl _) w a n wr

theorem Accepted.mem : u.mem = s.mem := by rw [h.frame]

theorem Accepted.clean (hs : Claim.clean s) : Claim.clean u := clean_of_mem hs h.mem

theorem Accepted.writes : u.fry.writes = s.fry.writes := by rw [h.fry]

theorem Accepted.ops : u.fry.ops = s.fry.ops := by rw [h.fry]

theorem Accepted.engs : u.engs = s.engs := by rw [h.frame]

theorem Accepted.slip : u.slip = s.slip := by rw [h.frame]

theorem Accepted.ownModule : ownModule u = ownModule s := by rw [Machine.ownModule, h.fry]; rfl

end

/-! ### WRITE at its target (spec/16 R418) -/

/-- The frames of an operation at its target are no longer gathered. -/
def writeGone (s : State) (p : Nat) (f : FFrame) : State :=
  modFry s fun y => { y with writes := y.writes.filter (· ≠ (pathKey p f.src, f.tag)) }

theorem writeFrame_eq (s : State) (p : Nat) (f : FFrame) : writeFrame s p f =
    if f.offset = 0 && !mayAccess s (whoServed p f) f.addr f.arg true then refuseOp s p f .internal
    else if f.offset ≠ 0 && !s.fry.writes.contains (pathKey p f.src, f.tag) then s
    else
      match runAct (wr (whoServed p f) (f.addr + f.offset) f.payload)
          (if f.offset = 0 then modFry s fun y => { y with writes := (pathKey p f.src, f.tag) :: y.writes } else s) with
      | (.ok, s) => if f.arg ≤ f.offset + f.payload.length then replyTo (writeGone s p f) p f 2 f.arg else s
      | (st, s) => refuseOp (writeGone s p f) p f st := rfl

theorem writeGone_contains (s : State) (p : Nat) (f : FFrame) : (writeGone s p f).fry.writes.contains (pathKey p f.src, f.tag) = false := by
  show (s.fry.writes.filter (· ≠ (pathKey p f.src, f.tag))).contains _ = false
  rw [Bool.eq_false_iff]
  intro h
  have hm := (List.mem_filter.1 (List.contains_iff_mem.1 h)).2
  exact of_decide_eq_true hm rfl

section
variable {s : State} {p : Nat} {f : FFrame} (h : Claim.arrives s p f 1) (hs : Claim.clean s)
include h

theorem write_row : exec (.ferryWrite p f) s = .next (writeFrame (Claim.received s p f) p f) :=
  congrArg Host.Outcome.next (dataRow_accepted h fun s => writeFrame s p f)

theorem write_refused (hz : f.offset = 0) (hno : mayAccess s (whoServed p f) f.addr f.arg true = false) :
    Does (.ferryWrite p f) s fun t => Claim.queues (Claim.received s p f) t p f.src
      [{ op := 0x0A, vc := 2, ctx := f.ctx, tag := f.tag, arg := Status.internal.code }] ∧ t.mem = s.mem := by
  have hacc := accepted_received h
  have hrow := write_row h
  rw [writeFrame_eq, hacc.mayAccess, hno, hz, if_pos (by decide)] at hrow
  exact does_of hrow ⟨queues_queueFrame _ _ _ _, hacc.mem⟩

theorem write_unknown (hz : f.offset ≠ 0) (hno : s.fry.writes.contains (pathKey p f.src, f.tag) = false) :
    exec (.ferryWrite p f) s = .next (Claim.received s p f) := by
  have hacc := accepted_received h
  rw [write_row h, writeFrame_eq, if_neg (by simp [hz]), hacc.writes, hno, if_pos (by simp [hz])]

include hs

theorem write_stores
    (hgo : (f.offset = 0 ∧ mayAccess s (whoServed p f) f.addr f.arg true = true) ∨
      (f.offset ≠ 0 ∧ s.fry.writes.contains (pathKey p f.src, f.tag) = true))
    (hm : mayAccess s (whoServed p f) (f.addr + f.offset) f.payload.length true = true) : Does (.ferryWrite p f) s fun t =>
      memRead t.mem.bytes (f.addr + f.offset) f.payload.length = f.payload ∧
      (∀ a, a < f.addr + f.offset ∨ f.addr + f.offset + f.payload.length ≤ a → memGet t.mem.bytes a = memGet s.mem.bytes a) ∧
      (f.arg ≤ f.offset + f.payload.length →
        Claim.queues (Claim.received s p f) t p f.src [{ op := 2, vc := 2, ctx := f.ctx, tag := f.tag, arg := f.arg }] ∧
          t.fry.writes.contains (pathKey p f.src, f.tag) = false) ∧
      (f.offset + f.payload.length < f.arg →
        Claim.queues (Claim.received s p f) t p f.src [] ∧ t.fry.writes.contains (pathKey p f.src, f.tag) = true) := by
  have hacc := accepted_received h
  obtain ⟨u, hu⟩ : ∃ u, u = Claim.received s p f := ⟨_, rfl⟩
  have hrow := write_row h
  rw [← hu] at hacc hrow ⊢
  obtain ⟨v, hv⟩ : ∃ v, v = if f.offset = 0 then modFry u fun y => { y with writes := (pathKey p f.src, f.tag) :: y.writes } else u := ⟨_, rfl⟩
  have hvk : v.fry.writes.contains (pathKey p f.src, f.tag) = true := by
    rw [hv]
    split
    · exact List.contains_iff_mem.2 (.head _)
    next hz => rw [hacc.writes]; exact (hgo.resolve_left fun hl => hz hl.1).2
  have hvf : v = { u with fry := v.fry } := by rw [hv]; split <;> rfl
  have hvp : v.fry.paths = u.fry.paths := by rw [hv]; split <;> rfl
  have hvmem : v.mem = s.mem := by rw [hvf]; exact hacc.mem
  have hvprt : SamePrt s.prt v.prt := by rw [hvf, hacc.frame]; exact .refl _
  obtain ⟨t, ht, hw⟩ := wr_of_clean (s := v) (clean_of_mem hs hvmem) (w := whoServed p f) (a := f.addr + f.offset) (b := f.payload)
    (by rw [mayAccess_of_samePrt hvprt]; exact hm)
  have htfry : t.fry = v.fry := by rw [hw.eq]
  rw [writeFrame_eq, hacc.mayAccess, hacc.writes, ← hv, runAct_ok ht, if_neg ?hfirst, if_neg ?hnext] at hrow
  case hfirst => rcases hgo with ⟨hz, hok⟩ | ⟨hz, hok⟩ <;> simp [hz, hok]
  case hnext =>
    rcases hgo with ⟨hz, hok⟩ | ⟨hz, hok⟩
    · simp [hz]
    · rw [hok]; simp
  have hbytes : memRead t.mem.bytes (f.addr + f.offset) f.payload.length = f.payload := by rw [hw.bytes]; exact memRead_memWrite _ _ _
  have hrest (a : Nat) (ha : a < f.addr + f.offset ∨ f.addr + f.offset + f.payload.length ≤ a) : memGet t.mem.bytes a = memGet s.mem.bytes a := by
    rw [hw.outside ha, hvmem]
  by_cases hlast : f.arg ≤ f.offset + f.payload.length
  · dsimp only at hrow
    rw [if_pos hlast] at hrow
    refine does_of hrow ⟨hbytes, hrest, fun _ => ⟨?_, writeGone_contains t p f⟩, fun hlt => absurd hlast (Nat.not_le.2 hlt)⟩
    refine queues_of_fry (queues_queueFrame (writeGone t p f) p f.src { op := 2, vc := 2, ctx := f.ctx, tag := f.tag, arg := f.arg }) ?_ rfl
    show u.fry.paths = t.fry.paths
    rw [htfry, hvp]
  · dsimp only at hrow
    rw [if_neg hlast] at hrow
    refine does_of hrow ⟨hbytes, hrest, fun hle => absurd hle hlast, fun _ => ⟨queues_of_fry (queues_refl u p f.src) rfl ?_, ?_⟩⟩
    · rw [htfry, hvp]
    · rw [htfry]; exact hvk

end

/-! ### READ_REQ at its target -/

theorem charged_chargeFerry (s : State) (c n : Nat) : Charged s (chargeFerry s c n) := charged_charge s _ _ _ n

/-- The READ_RESP of the chunk at an offset. -/
def chunkAt (f : FFrame) (m : List Host.Cell) (off : Nat) : FFrame :=
  { op := 4, vc := 2, ctx := f.ctx, tag := f.tag, offset := off, arg := f.arg, payload := memRead m (f.addr + off) (min 8192 (f.arg - off)) }

/-- The chunks of a range leave in offset order. -/
theorem serveChunks_does {p : Nat} {f : FFrame} (n off : Nat) {s : State} (hs : Claim.clean s) (hn : f.arg ≤ off + 8192 * n)
    (hm : ∀ i, off + 8192 * i < f.arg → mayAccess s (whoServed p f) (f.addr + (off + 8192 * i)) (min 8192 (f.arg - (off + 8192 * i))) false = true) :
    Claim.queues s (serveChunks p f n off s) p f.src
      ((List.range ((f.arg - off + 8191) / 8192)).map fun i => chunkAt f s.mem.bytes (off + 8192 * i)) ∧
    (serveChunks p f n off s).mem = s.mem := by
  induction n generalizing s off with
  | zero =>
    have hz : (f.arg - off + 8191) / 8192 = 0 := by omega
    rw [hz]
    exact ⟨queues_refl s p f.src, rfl⟩
  | succ n ih =>
    rw [serveChunks]
    by_cases hdone : f.arg ≤ off
    · have hz : (f.arg - off + 8191) / 8192 = 0 := by omega
      rw [if_pos hdone, hz]
      exact ⟨queues_refl s p f.src, rfl⟩
    · obtain ⟨t, ht, hct⟩ := rd_of_clean hs (hm 0 (by omega))
      rw [Nat.mul_zero, Nat.add_zero] at ht
      rw [if_neg hdone, ht]
      dsimp only
      obtain ⟨w, hw⟩ : ∃ w, w = chargeFerry t f.ctx (memRead s.mem.bytes (f.addr + off) (min 8192 (f.arg - off))).length := ⟨_, rfl⟩
      have hcharged : Charged s w := by rw [hw]; exact hct.trans (charged_chargeFerry _ _ _)
      rw [← hw]
      obtain ⟨v, hv⟩ : ∃ v, v = queueFrame w p f.src (chunkAt f s.mem.bytes off) := ⟨_, rfl⟩
      have hvmem : v.mem = s.mem := by rw [hv]; exact hcharged.mem
      have hvprt : SamePrt s.prt v.prt := by rw [hv]; exact hcharged.prt
      have hq : Claim.queues s v p f.src [chunkAt f s.mem.bytes off] := by
        rw [hv]
        exact queues_of_fry (queues_queueFrame w p f.src _) (by rw [hcharged.eq]) rfl
      obtain ⟨h1, h2⟩ := ih (off + 8192) (s := v) (clean_of_mem hs hvmem) (by omega) fun i hi => by
        rw [mayAccess_of_samePrt hvprt]
        have := hm (i + 1) (by omega)
        rwa [show off + 8192 * (i + 1) = off + 8192 + 8192 * i by omega] at this
      have hlen : (f.arg - off + 8191) / 8192 = (f.arg - (off + 8192) + 8191) / 8192 + 1 := by omega
      have hall := queues_trans hq h1
      rw [hvmem] at hall
      have hshift : (fun i => chunkAt f s.mem.bytes (off + 8192 * i)) ∘ Nat.succ = fun i => chunkAt f s.mem.bytes (off + 8192 + 8192 * i) := by
        funext i
        rw [Function.comp, show off + 8192 * Nat.succ i = off + 8192 + 8192 * i by omega]
      rw [hlen, List.range_succ_eq_map, List.map_cons, List.map_map, hshift, Nat.mul_zero, Nat.add_zero]
      rw [hv] at hall h2
      exact ⟨hall, h2.trans hcharged.mem⟩

section
variable {s : State} {p : Nat} {f : FFrame} (h : Claim.arrives s p f 3)
include h

theorem read_row : exec (.ferryReadReq p f) s = .next (readReq (Claim.received s p f) p f) :=
  congrArg Host.Outcome.next (dataRow_accepted h fun s => readReq s p f)

theorem read_refused (hno : mayAccess s (whoServed p f) f.addr f.arg false = false) :
    Does (.ferryReadReq p f) s fun t => Claim.queues (Claim.received s p f) t p f.src
      [{ op := 0x0A, vc := 2, ctx := f.ctx, tag := f.tag, arg := Status.internal.code }] ∧ t.mem = s.mem := by
  have hacc := accepted_received h
  have hrow := read_row h
  rw [readReq, hacc.mayAccess, hno, if_neg Bool.false_ne_true] at hrow
  exact does_of hrow ⟨queues_queueFrame _ _ _ _, hacc.mem⟩

theorem read_serves (hs : Claim.clean s) (hok : mayAccess s (whoServed p f) f.addr f.arg false = true)
    (hm : ∀ i, 8192 * i < f.arg → mayAccess s (whoServed p f) (f.addr + 8192 * i) (min 8192 (f.arg - 8192 * i)) false = true) :
    Does (.ferryReadReq p f) s fun t =>
      Claim.queues (Claim.received s p f) t p f.src ((List.range ((f.arg + 8191) / 8192)).map fun i =>
        { op := 4, vc := 2, ctx := f.ctx, tag := f.tag, offset := 8192 * i, arg := f.arg,
          payload := memRead s.mem.bytes (f.addr + 8192 * i) (min 8192 (f.arg - 8192 * i)) }) ∧ t.mem = s.mem := by
  have hacc := accepted_received h
  have hrow := read_row h
  rw [readReq, hacc.mayAccess, hok, if_pos rfl] at hrow
  obtain ⟨h1, h2⟩ := serveChunks_does (p := p) (f := f) (f.arg / 8192 + 1) 0 (hacc.clean hs) (by omega) fun i hi => by
    rw [hacc.mayAccess, Nat.zero_add]
    exact hm i (by omega)
  simp only [Nat.zero_add, Nat.sub_zero, hacc.mem] at h1
  exact does_of hrow ⟨h1, h2.trans hacc.mem⟩

end

/-! ### The end of an operation at its requester (spec/07 R180) -/

theorem endOp_of {s : State} {t : Nat} {o : FerryOp} (h : tabFind s.fry.ops t = some o) (st : Status) (back : Bool) :
    endOp s t st back = endWaiter (dropOp s t) o st back := by
  rw [endOp, h]

theorem opOf_find {s : State} {p : Nat} {f : FFrame} {o : FerryOp} (h : opOf s p f = some o) : tabFind s.fry.ops f.tag.toNat = some o := by
  unfold opOf at h
  split at h
  next o' hf =>
    dsimp only at h
    rw [Option.ite_none_right_eq_some] at h
    rw [hf, h.2]
  next => exact absurd h (by simp)

theorem dropOp_find (s : State) (t : Nat) : tabFind (dropOp s t).fry.ops t = none := by
  show tabFind (tabDel s.fry.ops t) t = none
  rw [tabFind_tabDel, if_pos rfl]

/-- A command that ends well and of no purser list ends without more. -/
theorem completeCmd_plain (s : State) (e : Eng) (c : Nat) {q : QCmd} (hq : q.origin = none) : completeCmd s e c q .ok = s := by
  rw [completeCmd_good s e c q rfl, hq]
  rfl

section
variable {s : State} {p b c d : Nat} {q : QCmd} {f : FFrame} {o : FerryOp} (hq : q.origin = none) (ho : o.waiter = .move b c q d)
include hq ho

theorem move_ends (s : State) (t : Nat) :
    endWaiter (dropOp s t) o .ok false = { dropOp s t with barges := { s.barges with busy := tabDel s.barges.busy b } } := by
  rw [endWaiter, ho]
  exact completeCmd_plain _ _ _ hq

theorem writeAck_does (h : Claim.arrives s p f 2) (hop : opOf (Claim.received s p f) p f = some o) : Does (.ferryWriteAck p f) s fun t =>
    tabFind t.fry.ops f.tag.toNat = none ∧ tabFind t.barges.busy b = none ∧ t.engs = s.engs ∧ t.mem = s.mem := by
  have hacc := accepted_received h
  have hrow : exec (.ferryWriteAck p f) s = .next _ :=
    congrArg Host.Outcome.next (dataRow_accepted h fun s => writeAck s p f)
  rw [writeAck, hop] at hrow
  dsimp only at hrow
  rw [endOp_of (opOf_find hop), move_ends hq ho] at hrow
  refine does_of hrow ⟨dropOp_find _ _, ?_, hacc.engs, hacc.mem⟩
  show tabFind (tabDel _ b) b = none
  rw [tabFind_tabDel, if_pos rfl]

theorem readResp_does (h : Claim.arrives s p f 4) (hop : opOf (Claim.received s p f) p f = some o) (hs : Claim.clean s)
    (hm : mayAccess s (whoBarge b c true) (d + f.offset) f.payload.length true = true) : Does (.ferryReadResp p f) s fun t =>
      memRead t.mem.bytes (d + f.offset) f.payload.length = f.payload ∧
      (∀ a, a < d + f.offset ∨ d + f.offset + f.payload.length ≤ a → memGet t.mem.bytes a = memGet s.mem.bytes a) ∧
      t.engs = s.engs ∧
      (f.arg ≤ f.offset + f.payload.length → tabFind t.fry.ops f.tag.toNat = none ∧ tabFind t.barges.busy b = none) ∧
      (f.offset + f.payload.length < f.arg → t.fry.ops = s.fry.ops ∧ t.barges = s.barges) := by
  have hacc := accepted_received h
  have hrow : exec (.ferryReadResp p f) s = .next _ :=
    congrArg Host.Outcome.next (dataRow_accepted h fun s => readResp s p f)
  obtain ⟨u, hu⟩ : ∃ u, u = Claim.received s p f := ⟨_, rfl⟩
  rw [← hu] at hacc hrow hop
  obtain ⟨t, ht, hw⟩ := wr_of_clean (hacc.clean hs) (w := whoBarge b c true) (a := d + f.offset) (b := f.payload)
    (by rw [hacc.mayAccess]; exact hm)
  rw [readResp, hop] at hrow
  dsimp only at hrow
  rw [ho] at hrow
  dsimp only at hrow
  rw [runAct_ok ht] at hrow
  dsimp only at hrow
  have hbytes : memRead t.mem.bytes (d + f.offset) f.payload.length = f.payload := by rw [hw.bytes]; exact memRead_memWrite _ _ _
  have hrest (a : Nat) (ha : a < d + f.offset ∨ d + f.offset + f.payload.length ≤ a) : memGet t.mem.bytes a = memGet s.mem.bytes a := by
    rw [hw.outside ha, hacc.mem]
  have hengs : t.engs = s.engs := by rw [hw.eq]; exact hacc.engs
  by_cases hlast : f.arg ≤ f.offset + f.payload.length
  · have hfind : tabFind t.fry.ops f.tag.toNat = some o := by rw [hw.eq]; exact opOf_find hop
    rw [if_pos hlast, endOp_of hfind, move_ends hq ho] at hrow
    refine does_of hrow ⟨hbytes, hrest, hengs, fun _ => ⟨dropOp_find _ _, ?_⟩, fun hlt => absurd hlast (Nat.not_le.2 hlt)⟩
    show tabFind (tabDel _ b) b = none
    rw [tabFind_tabDel, if_pos rfl]
  · rw [if_neg hlast] at hrow
    refine does_of hrow ⟨hbytes, hrest, hengs, fun hle => absurd hle hlast, fun _ => ⟨?_, ?_⟩⟩
    · rw [hw.eq]; exact hacc.ops
    · rw [hw.eq]
      show u.barges = s.barges
      rw [hacc.frame]

end

theorem getAccount_modAccount (s : State) (q m c : Nat) (g : Grant → Grant) :
    getAccount (modAccount s q m c g) q m c = g (getAccount s q m c) :=
  (tabGet_tabSet ({} : Grant) s.slip.accounts (grantKey q m c) (grantKey q m c) _).trans (if_pos rfl)

section
variable {s : State} {p c i n : Nat} {q : QCmd} {f : FFrame} {o : FerryOp} (hq : q.origin = none) (ho : o.waiter = .push c q i n)
include hq ho

theorem pushDone_does (h : Claim.arrives s p f 6) (hop : opOf (Claim.received s p f) p f = some o) (harg : f.arg = 0) :
    Does (.ferryPushDone p f) s fun t =>
      tabFind t.fry.ops f.tag.toNat = none ∧ t.engs = s.engs ∧ t.slip = s.slip ∧ t.mem = s.mem := by
  have hacc := accepted_received h
  have hrow : exec (.ferryPushDone p f) s = .next _ :=
    congrArg Host.Outcome.next (dataRow_accepted h fun s => pushDone s p f)
  have hcode : (Status.ofCode f.arg).getD .internal = .ok := by rw [harg]; rfl
  rw [pushDone, hop] at hrow
  dsimp only at hrow
  rw [endOp_of (opOf_find hop), hcode, endWaiter, ho] at hrow
  dsimp only at hrow
  rw [if_neg Bool.false_ne_true, completeCmd_plain _ _ _ hq] at hrow
  exact does_of hrow ⟨dropOp_find _ _, hacc.engs, hacc.slip, hacc.mem⟩

theorem statusPush_does (h : Claim.arrives s p f 0x0A) (hop : opOf (Claim.received s p f) p f = some o)
    (harg : f.arg = Status.internal.code) : Does (.ferryStatus p f) s fun t =>
      tabFind t.fry.ops f.tag.toNat = none ∧ (getQ t slipEng c).halt = true ∧
      getAccount t i o.module c =
        { getAccount s i o.module c with held := BitVec.ofNat 32 ((getAccount s i o.module c).held.toNat - n) } ∧
      Claim.otherQueues s t slipEng c ∧ t.mem = s.mem := by
  have hacc := accepted_received h
  have hrow : exec (.ferryStatus p f) s = .next _ :=
    congrArg Host.Outcome.next (dataRow_accepted h fun s => statusFrame s p f)
  have hcode : (Status.ofCode f.arg).getD .internal = .internal := by rw [harg]; rfl
  obtain ⟨u, hu⟩ : ∃ u, u = modAccount (dropOp (Claim.received s p f) f.tag.toNat) i o.module c fun g => g.giveBack n := ⟨_, rfl⟩
  rw [statusFrame, hop] at hrow
  dsimp only at hrow
  rw [endOp_of (opOf_find hop), hcode, endWaiter, ho] at hrow
  dsimp only at hrow
  rw [if_pos rfl, ← hu, completeCmd_alone u c rfl _ EngKind.noConfusion hq] at hrow
  obtain ⟨hhalt, hothers, -⟩ := faultHalt_engs u slipEng c q .internal {}
  have hkept : Fr 1048596 u (faultHalt u slipEng c q .internal {}) := (faultHalt_fr (mk := 1048596) (by decide) (Fr.refl _ u))
  have huengs : u.engs = s.engs := by rw [hu]; exact hacc.engs
  refine does_of hrow ⟨?_, by rw [hhalt], ?_, fun g d hne => ?_, ?_⟩
  · rw [hkept.same .fry rfl, hu]
    exact dropOp_find _ _
  · have haccount : getAccount u i o.module c = (getAccount s i o.module c).giveBack n := by
      rw [hu, getAccount_modAccount]
      show (tabGet {} (Claim.received s p f).slip.accounts _).giveBack n = _
      rw [hacc.slip]
      rfl
    rw [getAccount, hkept.same .slip rfl]
    exact haccount
  · rw [hothers g d hne]
    exact getQ_of_engs huengs g d
  · rw [hkept.same .mem rfl, hu]
    exact hacc.mem

end

end Sys2Proof.Proofs
end

