-- ==== Sys2Proof/Proofs/Served.lean ====
section
/-! PROOFS. Remote pushes, credit, rows and messages between pursers at their target (spec/16 R417, R419, R420). -/

namespace Sys2Proof.Proofs

open Sys2Proof Sys2Proof.Machine Sys2Proof.Laws

/-! ### PUSH at its target (spec/16 R419) -/

theorem remoteResv_of_slip {s t : State} (h : t.slip = s.slip) (q m : Nat) (tag : BitVec 32) : remoteResv t q m tag = remoteResv s q m tag := by
  rw [remoteResv, getSq_of_slip h, remoteResv]

section
variable {s : State} {p : Nat} {f : FFrame} (h : Claim.arrives s p f 5)
include h

theorem push_row : exec (.ferryPush p f) s = .next (pushFrame (Claim.received s p f) p f) :=
  congrArg Host.Outcome.next (dataRow_accepted h fun s => pushFrame s p f)

theorem push_deaf (hdeaf : s.slip.deaf.contains f.src = true) : exec (.ferryPush p f) s = .next (Claim.received s p f) := by
  rw [push_row h, pushFrame, (accepted_received h).slip, hdeaf, if_pos rfl]

/-- A PUSH frame that reserves nothing is refused. -/
theorem push_refused (hz : f.offset = 0) (hdeaf : s.slip.deaf.contains f.src = false)
    (hno : remoteResv s (f.addr % 65536) f.src f.tag = none)
    (hbad : (getSq s (f.addr % 65536)).enable = false ∨ f.arg = 0 ∨ 4096 < f.arg ∨
      (getGrant s (f.addr % 65536) f.src f.ctx).available < f.arg) {st : Status}
    (hst : st = if (getSq s (f.addr % 65536)).enable then .internal else .disabled) :
    Does (.ferryPush p f) s fun t => Claim.queues (Claim.received s p f) t p f.src
      [{ op := 0x0A, vc := 2, ctx := f.ctx, tag := f.tag, arg := st.code }] ∧ t.mem = s.mem ∧ t.slip = s.slip := by
  have hacc := accepted_received h
  have hrow := push_row h
  rw [pushFrame, hacc.slip, hdeaf, if_neg Bool.false_ne_true] at hrow
  dsimp only at hrow
  rw [getSq_of_slip hacc.slip, getGrant_of_slip hacc.slip, if_pos hz, if_neg ?hcond, ← hst,
    remoteResv_of_slip (s := s) (t := refuseOp (Claim.received s p f) p f st) hacc.slip, hno] at hrow
  case hcond =>
    simp only [Bool.and_eq_true, decide_eq_true_eq]
    rintro ⟨⟨⟨⟨hen, h1⟩, h2⟩, h3⟩, -⟩
    rcases hbad with hb | hb | hb | hb
    · exact absurd (hen.symm.trans hb) (by decide)
    · omega
    · omega
    · omega
  exact does_of hrow ⟨queues_queueFrame _ _ _ _, hacc.mem, hacc.slip⟩

theorem push_stores (hs : Claim.clean s) (hz : f.offset = 0) (hdeaf : s.slip.deaf.contains f.src = false)
    {i pos : Nat} {x : SlipQ} (hi : i = f.addr % 65536) (hx : x = getSq s i) (hpos : pos = x.resv.toNat)
    (hen : x.enable = true) (h1 : 1 ≤ f.arg) (h2 : f.arg ≤ 4096) (h3 : f.arg ≤ (getGrant s i f.src f.ctx).available)
    (hlen : f.payload.length = 32 * f.arg) (hsize : f.arg ≤ x.size) (ho : Claim.openTo s (whoServed p f))
    (hring : x.base.toNat + x.size * 48 ≤ wheelBase) (hend : pos + f.arg < 2 ^ 64) (hres : x.resolved = x.resv)
    (hitems : ∀ r ∈ x.items, r.pos < pos) (hno : remoteResv s i f.src f.tag = none) : Does (.ferryPush p f) s fun t =>
      (getSq t i).resv = x.resv + BitVec.ofNat 64 f.arg ∧ (getSq t i).commit = x.commit + 1 ∧
      (∀ j, j < f.arg → memRead t.mem.bytes (wordAddr x (pos + j)) 32 = (f.payload.drop (32 * j)).take 32) ∧
      (getPath t p f.src).sendq = (getPath (Claim.received s p f) p f.src).sendq ++ [{ op := 6, vc := 2, ctx := f.ctx, tag := f.tag }] ∧
      ∀ a, (∀ j, j < f.arg → a < wordAddr x (pos + j) ∨ wordAddr x (pos + j) + 32 ≤ a) →
        a < frameAddr x x.commit.toNat ∨ frameAddr x x.commit.toNat + 16 ≤ a → memGet t.mem.bytes a = memGet s.mem.bytes a := by
  have hacc := accepted_received h
  have hrow := push_row h
  obtain ⟨u, hu⟩ : ∃ u, u = Claim.received s p f := ⟨_, rfl⟩
  rw [← hu] at hacc hrow ⊢
  have hux : getSq u i = x := (getSq_of_slip hacc.slip i).trans hx.symm
  have hword (j : Nat) : wordAddr x j + 32 ≤ wheelBase := by
    have := (wordAddr_bounds x j).2
    omega
  have hallowed (t : State) (ht : SamePrt s.prt t.prt) (j : Nat) : mayAccess t (whoServed p f) (wordAddr x j) 32 true = true := by
    rw [mayAccess_of_samePrt ht]
    exact ho _ _ true (hword j)
  have huprt : SamePrt s.prt u.prt := by rw [hacc.frame]; exact .refl _
  have hperm : pushPermitted u (whoServed p f) i f.arg = true := by
    rw [pushPermitted, List.all_eq_true]
    intro j _
    rw [hux]
    exact hallowed u huprt _
  obtain ⟨r, hr⟩ : ∃ r, r = newResv x f.src f.ctx f.arg none p (some f.tag) := ⟨_, rfl⟩
  obtain ⟨v, hv⟩ : ∃ v, v = reserve u i f.src f.ctx f.arg none p (some f.tag) := ⟨_, rfl⟩
  have hvx : getSq v i = { x with resv := x.resv + w64 f.arg, items := x.items ++ [r] } := by
    rw [hv, getSq_reserve, hux, hr]
  have hvmem : v.mem = s.mem := by rw [hv]; exact hacc.mem
  have hvprt : SamePrt s.prt v.prt := by rw [hv]; exact huprt
  have hvfry : v.fry = u.fry := by rw [hv]; rfl
  have hfound : remoteResv v i f.src f.tag = some r := by
    rw [remoteResv, hvx, List.find?_append]
    have hnone : x.items.find? (fun r => r.module = f.src && r.tag = some f.tag && r.state = .opened) = none := by rw [hx]; exact hno
    rw [hnone, Option.none_or, List.find?_cons_of_pos (by rw [hr]; simp [newResv])]
  have hrpos : r.pos = pos := by rw [hr, hpos]; rfl
  have hrlen : r.len = f.arg := by rw [hr]; rfl
  obtain ⟨t, ht, hw⟩ := writeWords_of (s := v) (w := whoServed p f) (q := i) (pos := pos) (b := f.payload) (n := f.arg)
    (clean_of_mem hs hvmem) hlen (by rw [hvx]; exact hsize) fun j _ => by
      rw [hvx]
      exact hallowed v hvprt _
  have htslip : t.slip = v.slip := hw.slip
  have htx : getSq t i = { x with resv := x.resv + w64 f.arg, items := x.items ++ [r] } := (getSq_of_slip htslip i).trans hvx
  have hcommit := committed_of (s := t) (q := i) (pre := x.items) (post := []) (r := r) (w := f.arg) hw.clean (by rw [htx])
    (by rw [hr]; rfl) (by rw [htx]; intro y hy; have := hitems y hy; rw [hres]; omega) (by rw [htx, hrpos, hpos, hres])
    (by rw [hrlen]; exact h1) (by rw [hrpos, hrlen]; exact hend) (fun y hy => absurd hy List.not_mem_nil)
    (by rw [htx]; exact Nat.le_trans hring (by decide))
  rw [hrpos] at hcommit
  have hcond : ((getSq u i).enable && decide (1 ≤ f.arg) && decide (f.arg ≤ 4096) && decide (f.arg ≤ (getGrant u i f.src f.ctx).available) &&
      pushPermitted u (whoServed p f) i f.arg) = true := by
    rw [hperm, hux, hen, getGrant_of_slip hacc.slip]
    simp [h1, h2, h3]
  have hdone : pushFrame u p f = replyTo (commitAt t i pos f.arg) p f 6 0 := by
    rw [pushFrame, hacc.slip, hdeaf, if_neg Bool.false_ne_true]
    dsimp only
    rw [← hi, if_pos hz, if_pos hcond, ← hv, hfound]
    dsimp only
    rw [hz, Nat.add_zero, hrpos, ht]
    dsimp only
    rw [hrlen, if_pos (by omega)]
  rw [hdone] at hrow
  obtain ⟨z, hzd⟩ : ∃ z, z = commitAt t i pos f.arg := ⟨_, rfl⟩
  rw [← hzd] at hrow hcommit
  have hzfry : z.fry = u.fry := by
    rw [hcommit.eq]
    show t.fry = u.fry
    rw [hw.eq]
    exact hvfry
  have hbytes := hcommit.bytes
  have hfb := frameBytes_length t r f.arg
  have hframe := (frameAddr_bounds x x.commit.toNat).1
  have hfa : frameAddr (getSq t i) (getSq t i).commit.toNat = frameAddr x x.commit.toNat := by rw [htx]; rfl
  rw [hfa] at hbytes
  have hwa (j : Nat) : wordAddr (getSq v i) j = wordAddr x j := by rw [hvx]; rfl
  refine does_of hrow ⟨?_, ?_, fun j hj => ?_, ?_, fun a ha hb => ?_⟩
  · show (getSq z i).resv = _
    rw [hcommit.sq, htx]
    rfl
  · show (getSq z i).commit = _
    rw [hcommit.sq, htx]
  · show memRead z.mem.bytes _ 32 = _
    rw [hbytes, memRead_memWrite_apart _ _ _ _ _ (.inl (by have := (wordAddr_bounds x (pos + j)).2; omega)), ← hwa]
    exact hw.words j hj
  · have hp : getPath z p f.src = getPath u p f.src := by rw [getPath, hzfry]; rfl
    show (getPath (queueFrame z p f.src _) p f.src).sendq = _
    rw [getPath_queueFrame, hp]
    rfl
  · show memGet z.mem.bytes a = _
    rw [hbytes, memGet_memWrite_apart _ _ _ _ (by rw [hfb]; exact hb), hw.rest a fun j hj => by rw [hwa]; exact ha j hj, hvmem]

end

/-! ### SLIP_CREDIT (spec/16 R419, R420) -/

theorem credit_does (p : Nat) (f : FFrame) (s : State) (h : Claim.arrives s p f 7) : Does (.slipCredit p f) s fun t =>
    let i := f.addr % 65536
    let c := f.addr / 65536 % 128
    t.mem = s.mem ∧ t.engs = s.engs ∧ t.slip.queues = s.slip.queues ∧
    (f.last = true → (f.src ∉ t.slip.unsent) ∧ t.slip.accounts = s.slip.accounts) ∧
    (f.last = false → t.slip.unsent = s.slip.unsent ∧ getAccount t i f.src c =
      (if f.resync then { granted := BitVec.ofNat 32 f.offset, held := BitVec.ofNat 32 f.arg }
       else { granted := BitVec.ofNat 32 f.offset, held := BitVec.ofNat 32 ((getAccount s i f.src c).held.toNat - f.arg) })) := by
  have hacc := accepted_received h
  have hrow : exec (.slipCredit p f) s = .next _ := congrArg Host.Outcome.next (dataRow_accepted h fun s => creditFrame s f)
  have hslip := hacc.slip
  cases hlast : f.last with
  | true =>
    rw [creditFrame, if_pos hlast] at hrow
    refine does_of hrow ⟨hacc.mem, hacc.engs, ?_, fun _ => ⟨?_, ?_⟩, fun hf => absurd hf (by decide)⟩
    · show (Claim.received s p f).slip.queues = _
      rw [hslip]
    · exact fun hm => of_decide_eq_true (List.mem_filter.1 hm).2 rfl
    · show (Claim.received s p f).slip.accounts = _
      rw [hslip]
  | false =>
    have hbits : bits f.addr 22 16 = f.addr / 65536 % 128 := rfl
    rw [creditFrame, if_neg (by simp [hlast]), hbits] at hrow
    refine does_of hrow ⟨hacc.mem, hacc.engs, ?_, fun hf => absurd hf (by decide), fun _ => ⟨?_, ?_⟩⟩
    · show (Claim.received s p f).slip.queues = _
      rw [hslip]
    · show (Claim.received s p f).slip.unsent = _
      rw [hslip]
    · rw [getAccount_modAccount]
      have haccount : getAccount (Claim.received s p f) (f.addr % 65536) f.src (f.addr / 65536 % 128) =
          getAccount s (f.addr % 65536) f.src (f.addr / 65536 % 128) := by rw [getAccount, hslip]; rfl
      rw [haccount]
      rfl

/-! ### Row requests (spec/11 R275, R276) -/

theorem modGth_partials {s : State} (h : s.gth.partials = []) : (modGth s fun x => { x with partials := [] }) = s := by
  have hg : { s.gth with partials := [] } = s.gth := by rw [← h]
  rw [modGth, hg]

/-- The request a ROW frame carries. -/
def rowAsked (p : Nat) (f : FFrame) : RowReq :=
  { table := f.arg % 64, index := f.addr, ctx := f.ctx, source := .peer (f.offset % 4096) f.tag, via := some (pathKey p f.src) }

section
variable {s : State} {p : Nat} {f : FFrame} (hlast : f.last = true) (hkind : f.arg / 256 % 4 = 0) (hparts : s.gth.partials = [])
    (hfar : f.offset % 4096 ≠ ownModule s)
include hlast hkind hparts hfar

/-- A whole request of another module goes to its table, or is answered where there is none. -/
theorem rowFrame_request : rowFrame s p f = match getTable s (f.arg % 64) with
    | none => answerRow s (rowAsked p f) .disabled []
    | some x => addReq s { rowAsked p f with
        engine := (match if f.payload.length = 4 then some (fld f.payload 0 4) else none with
          | some k => k % 16 | none => x.desc.owner f.addr)
        spare := if f.payload.length = 4 then some (fld f.payload 0 4) else none } := by
  have hk : bits f.arg 9 8 = 0 := hkind
  have ht : bits f.arg 5 0 = f.arg % 64 := by
    rw [bits, pow_zero, Nat.div_one]
    norm_num
  rw [rowFrame, hparts, hlast]
  dsimp only [List.find?_nil, List.filter_nil, List.nil_append]
  rw [if_neg (by decide), modGth_partials hparts, hk, ht, if_neg (by decide), if_neg hfar]
  dsimp only
  rw [if_pos rfl]
  cases getTable s (f.arg % 64) with
  | none => rfl
  | some x =>
    dsimp only
    rw [if_neg (by decide), if_neg (by decide), Nat.zero_add]
    rfl

end

theorem row_unknown (p : Nat) (f : FFrame) (s : State) (h : Claim.arrives s p f 0x0B) (hlast : f.last = true) (hkind : f.arg / 256 % 4 = 0)
    (htable : getTable s (f.arg % 64) = none) (hparts : s.gth.partials = []) (hsrc : f.src < 4096) :
    let m := f.offset % 4096
    let answer := fun (t : State) q => (getPath t q m).sendq = (getPath (Claim.received s p f) q m).sendq ++
      [{ op := 0x0A, vc := 2, ctx := f.ctx, tag := f.tag, arg := Status.disabled.code }]
    m ≠ ownModule s → Does (.ferryRow p f) s fun t =>
      t.gth = s.gth ∧ t.mem = s.mem ∧ t.engs = s.engs ∧ (m = f.src → answer t p) ∧
      (m ≠ f.src → ∀ q v, choosePort (Claim.received s p f) m = some (q, v) → answer t q) := by
  intro m answer hfar
  have hacc := accepted_received h
  have hrow : exec (.ferryRow p f) s = .next _ := congrArg Host.Outcome.next (dataRow_accepted h fun s => rowFrame s p f)
  obtain ⟨u, hu⟩ : ∃ u, u = Claim.received s p f := ⟨_, rfl⟩
  have hanswer : answer = fun (t : State) q => (getPath t q m).sendq = (getPath u q m).sendq ++
      [{ op := 0x0A, vc := 2, ctx := f.ctx, tag := f.tag, arg := Status.disabled.code }] := by rw [hu]
  rw [hanswer, ← hu]
  rw [← hu] at hacc hrow
  have hgth : u.gth = s.gth := by rw [hacc.frame]
  have htab : getTable u (f.arg % 64) = none := by rw [← htable, getTable, hgth]; rfl
  rw [rowFrame_request hlast hkind (by rw [hgth]; exact hparts) (by rw [hacc.ownModule]; exact hfar), htab] at hrow
  dsimp only at hrow
  have hk : pathKey p f.src % 4096 = f.src ∧ pathKey p f.src / 4096 = p := by unfold pathKey; omega
  by_cases hm : m = f.src
  · have hgo : answerRow u (rowAsked p f) .disabled [] =
        queueFrame u p m { op := 0x0A, vc := 2, ctx := f.ctx, tag := f.tag, arg := Status.disabled.code } := by
      have hport : answerPort u (rowAsked p f) m = some (p, u) := by
        rw [answerPort]
        show (if pathKey p f.src % 4096 = m then some (pathKey p f.src / 4096, u) else choosePort u m) = _
        rw [hk.1, hk.2, if_pos hm.symm]
      rw [answerRow]
      show (match answerPort u (rowAsked p f) m with | none => u | some (p, s) => _) = _
      rw [hport]
      rfl
    rw [hgo] at hrow
    exact does_of hrow ⟨hgth, hacc.mem, hacc.engs, fun _ => by dsimp only; rw [getPath_queueFrame], fun hn => absurd hm hn⟩
  · have hport : answerPort u (rowAsked p f) m = choosePort u m := by
      rw [answerPort]
      show (if pathKey p f.src % 4096 = m then some (pathKey p f.src / 4096, u) else choosePort u m) = _
      rw [hk.1, if_neg (Ne.symm hm)]
    cases hc : choosePort u m with
    | none =>
      have hgo : answerRow u (rowAsked p f) .disabled [] = u := by
        rw [answerRow]
        show (match answerPort u (rowAsked p f) m with | none => u | some (p, s) => _) = _
        rw [hport, hc]
      rw [hgo] at hrow
      exact does_of hrow ⟨hgth, hacc.mem, hacc.engs, fun he => absurd he hm, fun _ q v hv => absurd hv (by simp)⟩
    | some qv =>
      obtain ⟨q, v⟩ := qv
      have hgo : answerRow u (rowAsked p f) .disabled [] =
          queueFrame v q m { op := 0x0A, vc := 2, ctx := f.ctx, tag := f.tag, arg := Status.disabled.code } := by
        rw [answerRow]
        show (match answerPort u (rowAsked p f) m with | none => u | some (p, s) => _) = _
        rw [hport, hc]
        rfl
      have hv : v = { u with fry := v.fry } ∧ v.fry.paths = u.fry.paths := by
        rw [choosePort] at hc
        split at hc
        · obtain ⟨-, rfl⟩ := Prod.mk.inj (Option.some.inj hc)
          exact ⟨rfl, rfl⟩
        · exact absurd hc (by simp)
      rw [hgo] at hrow
      refine does_of hrow ⟨?_, ?_, ?_, fun he => absurd he hm, fun _ q' v' hv' => ?_⟩
      · show v.gth = s.gth
        rw [hv.1]; exact hgth
      · show v.mem = s.mem
        rw [hv.1]; exact hacc.mem
      · show v.engs = s.engs
        rw [hv.1]; exact hacc.engs
      · obtain ⟨rfl, -⟩ := Prod.mk.inj (Option.some.inj hv')
        rw [getPath_queueFrame]
        have hp : getPath v q m = getPath u q m := by rw [getPath, hv.2]; rfl
        rw [hp]

theorem row_taken (p : Nat) (f : FFrame) (x : GthTable) (s : State) (h : Claim.arrives s p f 0x0B) (hlast : f.last = true)
    (hkind : f.arg / 256 % 4 = 0) (htable : getTable s (f.arg % 64) = some x) (hparts : s.gth.partials = []) (hnone : f.payload = [])
    (hfar : f.offset % 4096 ≠ ownModule s) : Does (.ferryRow p f) s fun t =>
      t.gth =
        { s.gth with
          nextReq := s.gth.nextReq + 1
          reqs := tabPut s.gth.reqs s.gth.nextReq
            { engine := x.desc.owner f.addr, table := f.arg % 64, index := f.addr, ctx := f.ctx,
              source := .peer (f.offset % 4096) f.tag, via := some (pathKey p f.src) } } ∧
      t.mem = s.mem ∧ t.engs = s.engs := by
  have hacc := accepted_received h
  have hrow : exec (.ferryRow p f) s = .next _ := congrArg Host.Outcome.next (dataRow_accepted h fun s => rowFrame s p f)
  obtain ⟨u, hu⟩ : ∃ u, u = Claim.received s p f := ⟨_, rfl⟩
  rw [← hu] at hacc hrow
  have hgth : u.gth = s.gth := by rw [hacc.frame]
  have htab : getTable u (f.arg % 64) = some x := by rw [← htable, getTable, hgth]; rfl
  rw [rowFrame_request hlast hkind (by rw [hgth]; exact hparts) (by rw [hacc.ownModule]; exact hfar), htab, hnone] at hrow
  refine does_of hrow ⟨?_, hacc.mem, hacc.engs⟩
  show ({ u.gth with reqs := _, nextReq := _ } : GthSt) = _
  rw [hgth]
  rfl

/-! ### Messages of pursers (spec/16 R417) -/

section
variable {p buf : Nat} {f : FFrame} {s : State} (h : Claim.arrives s p f 0x0C)
include h

theorem purser_row : exec (.ferryPurser p f buf) s = .next (match f.msg with
    | some msg => if pursing (Claim.received s p f) then purserMessage (Claim.received s p f) f.src msg buf else Claim.received s p f
    | none => Claim.received s p f) := congrArg Host.Outcome.next (dataRow_accepted h fun s => match f.msg with
    | some msg => if pursing s then purserMessage s f.src msg buf else s
    | none => s)

theorem pursing_received : pursing (Claim.received s p f) = pursing s := by
  rw [(accepted_received h).frame]
  rfl

theorem purser_silent (hno : pursing s = false ∨ f.msg = none) : exec (.ferryPurser p f buf) s = .next (Claim.received s p f) := by
  rw [purser_row h, pursing_received h]
  rcases hno with hn | hn <;> rw [hn]
  cases f.msg <;> rfl

theorem purser_acts {msg : PurserMsg} (hp : pursing s = true) (hmsg : f.msg = some msg) :
    exec (.ferryPurser p f buf) s = .next (purserMessage (Claim.received s p f) f.src msg buf) := by
  rw [purser_row h, pursing_received h, hp, hmsg]
  rfl

theorem received_reqs (rid : Nat) : getReq (Claim.received s p f) rid = getReq s rid := by
  rw [(accepted_received h).frame]
  rfl

theorem received_others (rid : Nat) : Claim.otherReqs s (Claim.received s p f) rid := otherReqs_of_reqs (by rw [(accepted_received h).frame]) rid

theorem answer_taken {rid key st : Nat} {d : List Bytes} {r : Request} (hp : pursing s = true) (hmsg : f.msg = some (.answer rid key st d))
    (hr : getReq s rid = some r) (hask : tabFind r.asks key = some f.src) : Does (.ferryPurser p f buf) s fun t =>
      getReq t rid = some { r with
        asks := tabDel r.asks key, answers := tabPut r.answers key { status := (Status.ofCode st).getD .internal, data := d } } ∧
      Claim.otherReqs s t rid ∧ t.mem = s.mem := by
  have hrow := purser_acts (buf := buf) h hp hmsg
  have htake : purserMessage (Claim.received s p f) f.src (.answer rid key st d) buf = putReq (Claim.received s p f) rid { r with
      asks := tabDel r.asks key, answers := tabPut r.answers key { status := (Status.ofCode st).getD .internal, data := d } } := by
    show takeAnswer _ _ _ _ _ = _
    rw [takeAnswer, received_reqs h, hr]
    exact if_pos hask
  rw [htake] at hrow
  exact does_of hrow ⟨getReq_putReq _ _ _, otherReqs_trans (received_others h rid) (otherReqs_putReq _ _ _), (accepted_received h).mem⟩

theorem search_answered {rid i st metric : Nat} {recs : Bytes} {r : Request} (hp : pursing s = true)
    (hmsg : f.msg = some (.searched rid i st metric recs)) (hr : getReq s rid = some r) : Does (.ferryPurser p f buf) s fun t =>
      Claim.otherReqs s t rid ∧ t.mem = s.mem ∧
      getReq t rid = some { r with parts := r.parts.zipIdx.map fun x =>
        if x.2 = i then { x.1 with status := some ((Status.ofCode st).getD .internal), metric := metric, data := recs } else x.1 } := by
  have hrow := purser_acts (buf := buf) h hp hmsg
  have hr' : getReq (Claim.received s p f) rid = some r := (received_reqs h rid).trans hr
  have hpart : purserMessage (Claim.received s p f) f.src (.searched rid i st metric recs) buf = putReq (Claim.received s p f) rid { r with
      parts := r.parts.zipIdx.map fun x =>
        if x.2 = i then { x.1 with status := some ((Status.ofCode st).getD .internal), metric := metric, data := recs } else x.1 } := by
    unfold purserMessage
    dsimp only
    rw [partAnswer, modReq, hr']
  rw [hpart] at hrow
  exact does_of hrow ⟨otherReqs_trans (received_others h rid) (otherReqs_putReq _ _ _), (accepted_received h).mem, getReq_putReq _ _ _⟩

theorem reference_added {a : Nat} (hp : pursing s = true) (hmsg : f.msg = some (.prefixRef a true)) (hs : Claim.clean s)
    (hin : a + 48 ≤ wheelBase) : Does (.ferryPurser p f buf) s fun t =>
      fld (memRead t.mem.bytes (a + 44) 4) 0 4 = (fld (memRead s.mem.bytes (a + 44) 4) 0 4 + 1) % 2 ^ 32 ∧
      (∀ b, b < a + 44 ∨ a + 48 ≤ b → memGet t.mem.bytes b = memGet s.mem.bytes b) ∧ t.pur = s.pur := by
  have hacc := accepted_received h
  have hrow := purser_acts (buf := buf) h hp hmsg
  obtain ⟨u, hu⟩ : ∃ u, u = Claim.received s p f := ⟨_, rfl⟩
  rw [← hu] at hacc hrow
  have hus := hacc.clean hs
  obtain ⟨n, hn⟩ : ∃ n, n = leNat (memRead s.mem.bytes (a + 44) 4) := ⟨_, rfl⟩
  have hread : runActVal (rdNat (whoPurser none) (a + 44) 4) u = (.ok n, u) := by
    rw [rdNat, runActVal_bind_ok (rd_unpaid hus (mayAccess_purser u (by omega) false) rfl), hacc.mem, hn]
    rfl
  obtain ⟨t, ht, hteq, htb, -⟩ := wr_unpaid hus (w := whoPurser none) (a := a + 44) (b := toLe 4 (n + 1)) rfl
    (mayAccess_purser u (by rw [toLe_length]; omega) true)
  have hadd : addRef u a = t := by
    rw [addRef, hread]
    show (runAct (wrNat (whoPurser none) (a + 44) 4 (n + 1)) u).2 = t
    rw [wrNat, runAct_ok ht]
  have hrow' : exec (.ferryPurser p f buf) s = .next t := hrow.trans (congrArg Host.Outcome.next hadd)
  have hfld (b : Bytes) (hb : b.length = 4) : fld b 0 4 = leNat b := by
    rw [fld, List.drop_zero, List.take_of_length_le (by omega)]
  refine does_of hrow' ⟨?_, fun b hb => ?_, ?_⟩
  · have hback := memRead_memWrite u.mem.bytes (a + 44) (toLe 4 (n + 1))
    rw [toLe_length] at hback
    rw [htb, hback, hfld _ (toLe_length _ _), leNat_toLe, hfld _ (memRead_length _ _ _), ← hn]
    norm_num
  · rw [htb, memGet_memWrite_apart _ _ _ _ (by rw [toLe_length]; omega), hacc.mem]
  · rw [hteq]
    show u.pur = s.pur
    rw [hacc.frame]

end

theorem report_kept {p buf : Nat} {f : FFrame} {s : State} (h : Claim.arrives s p f 0x0C) {c k m st : Nat} (hp : pursing s = true)
    (hmsg : f.msg = some (.mapReport c k m st)) : Does (.ferryPurser p f buf) s fun t =>
      t.pur = { s.pur with
        reports := s.pur.reports ++
          [{ module := f.src, ctx := c, core := k, mapId := m, status := (Status.ofCode st).getD .internal }] } ∧ t.mem = s.mem := by
  have hacc := accepted_received h
  refine does_of (purser_acts h hp hmsg) ⟨?_, hacc.mem⟩
  show ({ (Claim.received s p f).pur with reports := _ } : PurSt) = _
  have hpur : (Claim.received s p f).pur = s.pur := by rw [hacc.frame]
  rw [hpur]

/-- Settles O60: a frame's acceptance changes only ports and paths, so each operation acts as on the state before it; its answer waits
behind the frames of its path. -/
theorem remoteOperations : Obligations.RemoteOperations := by
  unfold Obligations.RemoteOperations
  refine ⟨fun p f s h hs => ⟨fun hz hno => write_refused h hz hno, fun hz hno => write_unknown h hz hno, fun hgo hm => write_stores h hs hgo hm⟩,
    fun p f s h hs => ⟨fun hno => read_refused h hno, fun hok hm => read_serves h hs hok hm⟩,
    fun p b c d q f o s hq ho => ⟨fun h hop => writeAck_does hq ho h hop, fun h hop hs hm => readResp_does hq ho h hop hs hm⟩,
    fun p c i n q f o s hq ho => ⟨fun h hop harg => pushDone_does hq ho h hop harg, fun h hop harg => statusPush_does hq ho h hop harg⟩,
    fun p f s h hs hz => ⟨fun hdeaf => push_deaf h hdeaf, fun hdeaf hen hno => ?_, fun hdeaf hen hno hbad => ?_,
      fun hdeaf hen h1 h2 h3 hlen hsize ho hring hend hres hitems hno =>
        push_stores h hs hz hdeaf rfl rfl rfl hen h1 h2 h3 hlen hsize ho hring hend hres hitems hno⟩,
    credit_does, row_unknown, row_taken, fun p buf f s h => ⟨fun hno => purser_silent h hno, fun hp c k m st hmsg => report_kept h hp hmsg,
      fun hp rid key st d r hmsg hr hask => answer_taken h hp hmsg hr hask,
      fun hp rid i st metric recs r hmsg hr => search_answered h hp hmsg hr,
      fun hp a hmsg hs hin => reference_added h hp hmsg hs hin⟩⟩
  · exact push_refused h hz hdeaf hno (.inl hen) (by rw [hen]; rfl)
  · exact push_refused h hz hdeaf hno (.inr hbad) (by rw [hen]; rfl)

end Sys2Proof.Proofs
end

