-- ==== Sys2Proof/Proofs/Management.lean ====
section
/-! PROOFS. The management path and the steward's relay (spec/17 R436, R437). -/

namespace Sys2Proof.Proofs

open Sys2Proof Sys2Proof.Machine Sys2Proof.Laws

/-! ### The answer to a request -/

/-- The answer with a status and DATA. -/
def mgmtAnswer (s : State) (b : Bytes) (st : Status) (v : W64) : Bytes :=
  imgBytes 0x11 (ownModule s) (imgSession b).toNat (BitVec.ofNat 32 (imgSeq b)).toNat st.code (part b 16 16 ++ toLe 8 v.toNat)

/-- The answer is kept and goes to its host. -/
def answered (u : State) (h : ImgHost) (b reply : Bytes) : State :=
  emit (keepResponse u (imgSession b) (BitVec.ofNat 32 (imgSeq b)) reply) (.image mgmtSelf h reply)

theorem mgmtAnswer_fields (s : State) (b : Bytes) (st : Status) (v : W64) : imgType (mgmtAnswer s b st v) = 0x11 ∧
    fld (mgmtAnswer s b st v) 14 2 = st.code ∧ imgSession (mgmtAnswer s b st v) = imgSession b ∧ imgSeq (mgmtAnswer s b st v) = imgSeq b := by
  unfold mgmtAnswer
  refine ⟨imgType_imgBytes _ _ _ _ _ _, ?_, ?_, ?_⟩
  · rw [fld_status_imgBytes, Nat.mod_eq_of_lt (Nat.lt_trans (statusCode_lt _) (by decide))]
  · rw [imgSession_imgBytes, BitVec.ofNat_toNat, BitVec.setWidth_eq]
  · have hlt : imgSeq b < 2 ^ 32 := fld_lt b 8 4
    rw [imgSeq_imgBytes, BitVec.toNat_ofNat, Nat.mod_mod, Nat.mod_eq_of_lt hlt]

theorem mgmtAnswer_data {b : Bytes} (hlen : b.length = 40) (s : State) (st : Status) (v : W64) : fld (mgmtAnswer s b st v) 32 8 = v.toNat := by
  have hpart : (part b 16 16).length = 16 := by simp [part, hlen]
  rw [mgmtAnswer, fld_payload_imgBytes _ _ _ _ _ _ 16 8]
  rw [fld_append_right _ _ (by rw [hpart]), hpart]
  exact leNat_toLe_of_lt (n := 8) v.isLt

section
variable {d : Datagram} {s : State} (hacc : Claim.accepted s d) (htype : imgType d.bytes = 0x10) (hp : pursing s = true)
    (hmine : imgMine s d.bytes = true) (hsession : imgSession d.bytes ≠ 0) (hlen : d.bytes.length = 40)
include hacc htype hp hmine hsession hlen

theorem mgmtReq_row : exec (.mgmtReq d) s = .next (match s.sec.resps.find? fun r => r.1 = imgSession d.bytes && r.2.1 = BitVec.ofNat 32 (imgSeq d.bytes) with
    | some r => answered s d.host d.bytes r.2.2
    | none =>
      let r := mgmtAccess s (fld d.bytes 16 1) (fld d.bytes 24 8) (w64 (fld d.bytes 32 8))
      answered r.2.2 d.host d.bytes (mgmtAnswer s d.bytes r.1 r.2.1)) := by
  refine congrArg Host.Outcome.next ((datagram_of_accepted hacc fun s => mgmtReq s (.port d.host) d.bytes).trans ?_)
  rw [mgmtReq, hp, hmine]
  dsimp only
  rw [if_neg (by simpa [htype, hlen] using hsession)]
  rfl

variable (hfresh : ∀ r ∈ s.sec.resps, ¬ (r.1 = imgSession d.bytes ∧ r.2.1 = BitVec.ofNat 32 (imgSeq d.bytes)))
include hfresh

theorem mgmtReq_fresh {st : Status} {v : W64} {u : State}
    (hdo : mgmtAccess s (fld d.bytes 16 1) (fld d.bytes 24 8) (w64 (fld d.bytes 32 8)) = (st, v, u)) :
    exec (.mgmtReq d) s = .next (answered u d.host d.bytes (mgmtAnswer s d.bytes st v)) := by
  have hnone : (s.sec.resps.find? fun r => r.1 = imgSession d.bytes && r.2.1 = BitVec.ofNat 32 (imgSeq d.bytes)) = none :=
    List.find?_eq_none.2 fun r hr => by simpa using hfresh r hr
  rw [mgmtReq_row hacc htype hp hmine hsession hlen, hnone, hdo]

end

/-- What a request already answered leaves. -/
theorem answered_again {s u : State} {d : Datagram} {reply : Bytes} (hacc : Claim.accepted s d) (htype : imgType d.bytes = 0x10)
    (hp : pursing s = true) (hmine : imgMine s d.bytes = true) (hsession : imgSession d.bytes ≠ 0) (hlen : d.bytes.length = 40)
    (hhub : u.hub = s.hub) (hfry : u.fry = s.fry) (hsec : u.sec = s.sec) :
    exec (.mgmtReq d) (answered u d.host d.bytes reply) =
      .next { answered u d.host d.bytes reply with outs := .image mgmtSelf d.host reply :: (answered u d.host d.bytes reply).outs } := by
  obtain ⟨t, ht⟩ : ∃ t, t = answered u d.host d.bytes reply := ⟨_, rfl⟩
  have hresps : t.sec.resps = ((imgSession d.bytes, BitVec.ofNat 32 (imgSeq d.bytes), reply) ::
      u.sec.resps.filter (·.1 ≠ imgSession d.bytes)).take 16 := by rw [ht]; rfl
  have hacc' : Claim.accepted t d := by
    have : t.hub = s.hub := by rw [ht]; exact hhub
    rw [Claim.accepted, this]
    exact hacc
  have hp' : pursing t = true := by
    rw [← hp, pursing, pursing, ht, ← hsec]
    rfl
  have hmine' : imgMine t d.bytes = true := by
    have : ownModule t = ownModule s := by rw [ht]; exact ownModule_of_fry (s := s) (t := u) hfry
    rw [imgMine, this]
    exact hmine
  have hkept : keepResponse t (imgSession d.bytes) (BitVec.ofNat 32 (imgSeq d.bytes)) reply = t := by
    have hstop : ((imgSession d.bytes, BitVec.ofNat 32 (imgSeq d.bytes), reply) ::
        t.sec.resps.filter (·.1 ≠ imgSession d.bytes)).take 16 = t.sec.resps := by
      rw [hresps, List.take_succ_cons, List.take_succ_cons, List.filter_cons_of_neg (by simp),
        List.filter_eq_self.2 fun r hr => (List.mem_filter.1 (List.mem_of_mem_take hr)).2, List.take_take]
      rfl
    rw [keepResponse, modSec, hstop]
  have hfound : (t.sec.resps.find? fun r => r.1 = imgSession d.bytes && r.2.1 = BitVec.ofNat 32 (imgSeq d.bytes)) =
      some (imgSession d.bytes, BitVec.ofNat 32 (imgSeq d.bytes), reply) := by
    rw [hresps, List.take_succ_cons, List.find?_cons_of_pos (by simp)]
  rw [← ht, mgmtReq_row hacc' htype hp' hmine' hsession hlen, hfound]
  dsimp only
  rw [answered, hkept]
  rfl

/-! ### What a request does -/

section
variable {s : State} {op addr : Nat} {v : W64}

theorem mgmtAccess_reads (hop : op = 0) (halign : addr % 8 = 0) (hblock : blockOf addr ≠ none) :
    mgmtAccess s op addr v = (.ok, regValue s addr, afterRead s addr) := by
  rw [hop, mgmtAccess]
  rw [if_neg (not_not.2 halign), if_neg hblock]
  rfl

theorem mgmtAccess_writes (hop : op = 1) (halign : addr % 8 = 0) (hmay : mgmtMayWrite s addr = true) :
    ∃ u, regWrite s .mgmt addr v = some u ∧ mgmtAccess s op addr v = (.ok, v, u) := by
  have hblock : ∃ b o, blockOf addr = some (b, o) ∧ b ≠ .prt := by
    unfold mgmtMayWrite at hmay
    cases hb : blockOf addr with
    | none => rw [hb] at hmay; exact absurd hmay Bool.false_ne_true
    | some bo =>
      obtain ⟨b, o⟩ := bo
      refine ⟨b, o, rfl, fun h => ?_⟩
      rw [hb, h] at hmay
      exact absurd hmay Bool.false_ne_true
  obtain ⟨b, o, hb, hne⟩ := hblock
  have hw : regWrite s .mgmt addr v = some ((regFind (writeBlock s .mgmt v b) o).getD s) := by
    rw [regWrite, hb]
    exact if_neg (by simp [hne])
  refine ⟨_, hw, ?_⟩
  rw [hop, mgmtAccess, if_neg (not_not.2 halign), if_pos hmay, hw]
  rfl

theorem mgmtAccess_unaligned (hop : op ≤ 1) (halign : addr % 8 ≠ 0) : mgmtAccess s op addr v =
    (if op = 0 then .ok else .internal, if op = 0 then 0 else v, raise s .badAccess srcNone (toLe 8 addr ++ toLe 1 op)) := by
  obtain rfl | rfl : op = 0 ∨ op = 1 := by omega
  · rw [mgmtAccess, if_pos halign]
    rfl
  · rw [mgmtAccess, if_pos halign]
    rfl

theorem mgmtAccess_refused (hop : op = 1) (halign : addr % 8 = 0) (hmay : mgmtMayWrite s addr = false)
    (hblock : (blockOf addr).map (·.1) ≠ some .prt) : mgmtAccess s op addr v = (.internal, v, s) := by
  rw [hop, mgmtAccess, if_neg (not_not.2 halign), hmay, if_neg Bool.false_ne_true, if_neg hblock]

end

theorem managementRequests : Claim.managementRequests := by
  intro d s hacc htype hp hmine hsession hlen hfresh
  have hgo {st : Status} {v : W64} {u : State} := mgmtReq_fresh hacc htype hp hmine hsession hlen hfresh (st := st) (v := v) (u := u)
  refine ⟨fun hop halign hblock => ?_, fun hop halign hmay => ?_, fun hop halign hbuf => ?_, fun hop halign hmay hblock => ?_⟩
  · have hrow := hgo (mgmtAccess_reads hop halign hblock)
    obtain ⟨u, hu⟩ : ∃ u, u = afterRead s (fld d.bytes 24 8) := ⟨_, rfl⟩
    have hfr : Fr 6 s u := by rw [hu]; exact afterRead_fr (by decide) (Fr.refl _ s)
    rw [← hu] at hrow
    obtain ⟨h1, h2, h3, h4⟩ := mgmtAnswer_fields s d.bytes .ok (regValue s (fld d.bytes 24 8))
    refine does_of hrow ⟨mgmtAnswer s d.bytes .ok (regValue s (fld d.bytes 24 8)), ?_, h1, h2, h3, h4, mgmtAnswer_data hlen _ _ _,
      answered_again hacc htype hp hmine hsession hlen (hfr.same .hub rfl) (hfr.same .fry rfl) (hfr.same .sec rfl)⟩
    show Out.image mgmtSelf d.host _ :: u.outs = _
    rw [hfr.same .outs rfl]
  · obtain ⟨u, hu, hdo⟩ := mgmtAccess_writes (s := s) (v := w64 (fld d.bytes 32 8)) hop halign hmay
    have hexec : exec (.registerWrite .mgmt (fld d.bytes 24 8) (BitVec.ofNat 64 (fld d.bytes 32 8))) s = .next u := by
      show execRegisterWrite .mgmt _ _ s = _
      rw [execRegisterWrite, ← w64, hu]
    exact does_of (hgo hdo) ⟨u, _, hexec, (mgmtAnswer_fields s d.bytes .ok _).2.1, rfl⟩
  · have hrow := hgo (mgmtAccess_unaligned hop halign)
    obtain ⟨u, hu⟩ : ∃ u, u = raise s .badAccess srcNone (toLe 8 (fld d.bytes 24 8) ++ toLe 1 (fld d.bytes 16 1)) := ⟨_, rfl⟩
    have hframe : u = { s with evt := u.evt, outs := u.outs } := by rw [hu]; exact logEntry_frame s _
    have hhead : u.evt.head = s.evt.head + 1 := by rw [hu]; exact logEntry_head _ hbuf
    have hentry : (tabGet {} u.evt.log (s.evt.head.toNat % 65536)).code = some .badAccess := by
      rw [hu]
      exact congrArg EvtEntry.code (logEntry_entry _ hbuf)
    rw [← hu] at hrow
    obtain ⟨-, h2, -, -⟩ := mgmtAnswer_fields s d.bytes (if fld d.bytes 16 1 = 0 then .ok else .internal) (if fld d.bytes 16 1 = 0 then 0 else w64 (fld d.bytes 32 8))
    refine does_of hrow ⟨hentry, hhead, ⟨_, _, rfl, ?_, fun hz => ?_⟩, ?_⟩
    · rw [h2]
      split <;> rfl
    · rw [mgmtAnswer_data hlen, if_pos hz]
      rfl
    · show ({ u with outs := _, sec := _ } : State) = _
      rw [hframe]
      rfl
  · have hrow := hgo (mgmtAccess_refused (v := w64 (fld d.bytes 32 8)) hop halign hmay hblock)
    exact does_of hrow ⟨_, rfl, (mgmtAnswer_fields s d.bytes .internal _).2.1, rfl⟩

/-! ### The steward's relay (spec/17 R436) -/

theorem choosePort_of_fry {s t : State} (h : t.fry = s.fry) {x p : Nat} {u : State} (hc : choosePort s x = some (p, u)) :
    ∃ v, choosePort t x = some (p, v) ∧ v.fry = u.fry ∧ v = { t with fry := v.fry } := by
  have hlive (q : Nat) : ferryLive t q = ferryLive s q := by rw [ferryLive, getPort, h]; rfl
  have hup (q : Nat) : pathUp t q x = pathUp s q x := by rw [pathUp, getPath, h]; rfl
  unfold choosePort at hc ⊢
  have hentry : getEntry t x = getEntry s x := by rw [getEntry, h]; rfl
  simp only [hlive, hup, hentry, h] at hc ⊢
  split at hc
  next p' hf =>
    obtain ⟨rfl, rfl⟩ := Prod.mk.inj (Option.some.inj hc)
    exact ⟨_, rfl, by rw [modFry, modFry, h], rfl⟩
  next => exact absurd hc (by simp)

theorem relays_host (d : Datagram) (s : State) (hst : isSteward s = true) (hp : pursing s = true) (hacc : Claim.accepted s d)
    (hother : imgTarget d.bytes ≠ ownModule s) (hberth : imgTarget d.bytes / 64 = s.fry.berth.toNat) :
    Does (.imageMessageRelay (some d)) s fun t =>
      tabFind t.sec.hosts (imgTarget d.bytes) = some d.host ∧
      ∀ p u, choosePort s (imgTarget d.bytes) = some (p, u) →
        (getPath t p (imgTarget d.bytes)).sendq =
          (getPath s p (imgTarget d.bytes)).sendq ++ [{ op := 0x0D, vc := 7, payload := d.bytes }] := by
  obtain ⟨x, hx⟩ : ∃ x, x = imgTarget d.bytes := ⟨_, rfl⟩
  rw [← hx] at hother hberth ⊢
  obtain ⟨v, hv⟩ : ∃ v, v = modSec s fun y => { y with hosts := tabPut y.hosts x d.host } := ⟨_, rfl⟩
  have hrow : relay s (some d) = sendMgmt v x d.bytes := by
    rw [relay, hst, hp, if_neg (by decide), datagram_of_accepted hacc, relayHost, ← hx, if_neg (by simp [hother, hberth]), hv]
  have hhosts : tabFind v.sec.hosts x = some d.host := by rw [hv]; exact tabFind_tabPut_self _ _ _
  have hfr := (sendMgmt_fr (x := x) (b := d.bytes) (mk := 256) (by decide) (Fr.refl _ v)).same .sec rfl
  refine does_of (congrArg Host.Outcome.next hrow) ⟨by rw [hfr]; exact hhosts, fun p u hc => ?_⟩
  obtain ⟨w, hw, hwf, -⟩ := choosePort_of_fry (t := v) (by rw [hv]; rfl) hc
  have hpath : getPath w p x = getPath s p x := by
    have hu : u.fry.paths = s.fry.paths := by
      rw [choosePort] at hc
      split at hc
      · obtain ⟨-, rfl⟩ := Prod.mk.inj (Option.some.inj hc)
        rfl
      · exact absurd hc (by simp)
    rw [getPath, hwf, hu]
    rfl
  rw [sendMgmt, hw]
  dsimp only
  rw [getPath_queueFrame, hpath]

theorem relayMember_passes {u : State} {x : Nat} {b : Bytes} (hauto : u.sec.autoserve = false) (hserved : tabGet 0 u.sec.served x = 0)
    (hlink : u.hub.link = true) : relayMember u x b = sendImage u ((tabFind u.sec.hosts x).getD allNodes) (retarget b x) := by
  have hmine : (decide (imgSession b ≠ 0) && decide (tabGet 0 u.sec.served x = imgSession b)) = false := by
    rw [hserved]
    by_cases h : imgSession b = 0
    · simp [h]
    · simp [Ne.symm (a := imgSession b) (b := 0#32) h]
  simp only [relayMember, hauto, hmine, hlink, Bool.and_false, Bool.false_and, Bool.false_eq_true, if_false, if_true]

theorem relays_member (x : Nat) (b : Bytes) (rest : List (Nat × Bytes)) (s : State) (hst : isSteward s = true) (hp : pursing s = true)
    (hrelay : s.sec.relay = (x, b) :: rest) (hauto : s.sec.autoserve = false) (hserved : tabGet 0 s.sec.served x = 0) (hlink : s.hub.link = true) :
    exec (.imageMessageRelay none) s = .next { s with
      outs := .image mgmtSelf ((tabFind s.sec.hosts x).getD allNodes) (b.take 2 ++ toLe 2 x ++ b.drop 4) :: s.outs,
      sec := { s.sec with relay := rest } } := by
  refine congrArg Host.Outcome.next ?_
  rw [relay, hst, hp, if_neg (by decide)]
  dsimp only
  rw [hrelay]
  exact relayMember_passes hauto hserved hlink

/-- Settles O22: a request is one access and one answer, and its repetition finds the answer kept first; a message relayed waits as one
frame. -/
theorem managementPath : Obligations.ManagementPath := by
  refine ⟨managementRequests, relays_host, relays_member, fun p f cached bad s h hst hok => ?_⟩
  have hacc := accepted_received h
  have hst' : isSteward (Claim.received s p f) = true := by
    rw [isSteward, hacc.fry]
    exact hst
  have hsec : (Claim.received s p f).sec = s.sec := by rw [hacc.frame]
  have hrow : exec (.ferryMgmt p f cached bad) s = .next _ := congrArg Host.Outcome.next (dataRow_accepted h fun s => mgmtFrame s f cached bad)
  rw [mgmtFrame, hok, if_neg (by decide), if_pos hst'] at hrow
  refine does_of hrow ⟨?_, rfl⟩
  show ({ (Claim.received s p f).sec with relay := _ } : SecSt) = _
  rw [hsec]

end Sys2Proof.Proofs
end

