-- ==== Sys2Proof/Proofs/Schedules.lean ====
section
/-! PROOFS. Schedules, their fetches, residency epochs, and what background units count (spec/07 R164-R170, R182-R187, spec/14 R363). -/

namespace Sys2Proof.Proofs

open Sys2Proof Sys2Proof.Machine Sys2Proof.Laws

/-! ### What a fetch leaves of memory -/

/-- Only where granules stand, and what is counted of them, has changed. -/
def OnlyGranules (s t : State) : Prop :=
  t.mem = { s.mem with gran := t.mem.gran, decks := t.mem.decks, stackErrs := t.mem.stackErrs, badHbm := t.mem.badHbm, badSram := t.mem.badSram }

theorem OnlyGranules.refl (s : State) : OnlyGranules s s := rfl

theorem OnlyGranules.trans {s t u : State} (h : OnlyGranules s t) (h' : OnlyGranules t u) : OnlyGranules s u := by
  unfold OnlyGranules at *
  rw [h', h]

theorem OnlyGranules.of_mem {s t : State} (h : t.mem = s.mem) : OnlyGranules s t := by
  rw [OnlyGranules, h]

theorem OnlyGranules.bytes {s t : State} (h : OnlyGranules s t) : t.mem.bytes = s.mem.bytes := by rw [h]

theorem OnlyGranules.fetches {s t : State} (h : OnlyGranules s t) : t.mem.fetches = s.mem.fetches := by rw [h]

theorem logEntry_onlyGranules (s : State) (e : EvtEntry) : OnlyGranules s (logEntry s e) := .of_mem (logEntry_mem s e)

theorem sendHome_onlyGranules (s : State) (g : Nat) : OnlyGranules s (sendHome s g) := by
  have hback (s : State) : OnlyGranules s (writeBack s g) := by
    unfold writeBack
    dsimp only
    split
    · exact OnlyGranules.trans (t := raise (modDeck s _ _) _ _ _) (.trans (t := modDeck s _ _) rfl (logEntry_onlyGranules _ _)) rfl
    · rfl
  unfold sendHome
  split
  · dsimp only
    split
    · exact (hback s).trans rfl
    · rfl
  · rfl

theorem evictOne_onlyGranules (s : State) (c st g : Nat) : OnlyGranules s (evictOne s c st g) := by
  have hcharge (b : Bool) (u : State) : OnlyGranules u (if b then chargePiece u (ctxPart c) (4 + st / 36) 4096 else u) := by
    cases b with
    | true => exact .of_mem (chargePiece_mem _ _ _ _)
    | false => rfl
  have h (u : State) (hu : OnlyGranules (modDeck (sendHome s g) (st / 36) fun x => { x with evicted := x.evicted + 1 }) u) : OnlyGranules s u :=
    (sendHome_onlyGranules s g).trans (.trans (t := modDeck (sendHome s g) _ _) rfl hu)
  exact h _ (hcharge _ _)

theorem makeRoom_onlyGranules (c st need n : Nat) (s : State) : OnlyGranules s (makeRoom c st need n s).1 := by
  induction n generalizing s with
  | zero => rfl
  | succ n ih =>
    unfold makeRoom
    split
    · rfl
    · split
      · exact (evictOne_onlyGranules _ _ _ _).trans (ih _)
      · rfl

theorem countFetched_onlyGranules (s : State) (c st : Nat) : OnlyGranules s (countFetched s c st) :=
  OnlyGranules.trans (t := modDeck s _ _) rfl (.of_mem (chargePiece_mem _ _ _ _))

theorem bringIn_onlyGranules (s : State) (src : BitVec 16) (c st g : Nat) (keep : Gran → Gran) : OnlyGranules s (bringIn s src c st g keep).1 := by
  unfold bringIn
  split
  · split
    · exact OnlyGranules.trans (t := modStack s _ _) rfl (logEntry_onlyGranules _ _)
    · exact OnlyGranules.trans (t := setGran s _ _) rfl (countFetched_onlyGranules _ _ _)
  · split
    · exact OnlyGranules.trans (t := modDeck s _ _) rfl (logEntry_onlyGranules _ _)
    · exact OnlyGranules.trans (t := setGran s _ _) rfl (countFetched_onlyGranules _ _ _)

theorem fetchGran_onlyGranules (src : BitVec 16) (c st : Nat) (s : State) (g : Nat) : OnlyGranules s (fetchGran src c st s g) := by
  unfold fetchGran
  split
  · split
    · rfl
    · rfl
  · dsimp only
    split
    · exact (makeRoom_onlyGranules _ _ _ _ _).trans (bringIn_onlyGranules _ _ _ _ _ _)
    · exact makeRoom_onlyGranules _ _ _ _ _

theorem foldl_fetchGran (src : BitVec 16) (c st : Nat) (l : List Nat) (s : State) : OnlyGranules s (l.foldl (fetchGran src c st) s) := by
  induction l generalizing s with
  | nil => rfl
  | cons g l ih => exact (fetchGran_onlyGranules src c st s g).trans (ih _)

/-! ### Epochs -/

/-- A granule of a store's pool after the epoch's step. -/
def aged (stores : List Nat) (x : Gran) : Gran :=
  if x.store ∈ stores ∧ x.pins = [] ∧ x.age ≠ 255 then { x with age := x.age + 1 } else x

theorem stepEpoch_eq (s : State) (st : Nat) :
    stepEpoch s st = { s with mem := { s.mem with gran := tabMap (fun _ => aged [st]) s.mem.gran } } := by
  have h : (fun (_ : Nat) (x : Gran) => if x.store = st && x.pins = [] && x.age ≠ 255 then { x with age := x.age + 1 } else x) =
      fun _ => aged [st] := by
    funext _ x
    simp only [aged, List.mem_singleton, Bool.and_eq_true, decide_eq_true_eq, and_assoc]
  rw [stepEpoch, h]

theorem aged_aged {st : Nat} {l : List Nat} (h : st ∉ l) (x : Gran) : aged l (aged [st] x) = aged (st :: l) x := by
  by_cases hst : x.store = st
  · have hl : x.store ∉ l := by rwa [hst]
    have hone : aged l (aged [st] x) = aged [st] x := by
      have : (aged [st] x).store = x.store := by unfold aged; split <;> rfl
      rw [aged, if_neg fun h => hl (this ▸ h.1)]
    rw [hone, aged, aged]
    simp only [hst, List.mem_cons, true_or]
  · have hone : aged [st] x = x := by rw [aged, if_neg fun h => hst (List.mem_singleton.1 h.1)]
    rw [hone, aged, aged]
    simp only [List.mem_cons, hst, false_or]

theorem foldl_stepEpoch {l : List Nat} (h : l.Nodup) (s : State) : ∃ t, l.foldl stepEpoch s = { s with mem := { s.mem with gran := t } } ∧
    ∀ g, tabFind t g = (tabFind s.mem.gran g).map (aged l) := by
  induction l generalizing s with
  | nil =>
    refine ⟨s.mem.gran, rfl, fun g => ?_⟩
    have : aged [] = id := funext fun x => by simp [aged]
    rw [this, Option.map_id, id]
  | cons st l ih =>
    obtain ⟨hst, hl⟩ := List.nodup_cons.1 h
    rw [List.foldl_cons, stepEpoch_eq]
    obtain ⟨t, ht, hfind⟩ := ih hl { s with mem := { s.mem with gran := tabMap (fun _ => aged [st]) s.mem.gran } }
    refine ⟨t, ht, fun g => ?_⟩
    rw [hfind, tabFind_tabMap, Option.map_map]
    exact congrArg (Option.map · _) (funext fun x => aged_aged hst x)

/-- The stores of a deck. -/
theorem stores_of_deck (d st : Nat) : st ∈ (List.range 36).map (d * 36 + ·) ↔ st / 36 = d := by
  rw [List.mem_map]
  refine ⟨?_, fun h => ⟨st % 36, List.mem_range.2 (Nat.mod_lt _ (by decide)), by omega⟩⟩
  rintro ⟨k, hk, rfl⟩
  have := List.mem_range.1 hk
  omega

theorem epochTicks (d : Nat) (s : State) (hperiod : (tabGet {} s.mem.decks d).periodUs ≠ 0) (hmoor : s.pwr.moor = .running) :
    Does (.residencyEpochTick d) s fun t =>
      (tabGet {} t.mem.decks d).epoch = (tabGet {} s.mem.decks d).epoch + 1 ∧
      (∀ g, tabFind t.mem.gran g = (tabFind s.mem.gran g).map fun x =>
        if x.store / 36 = d ∧ x.pins = [] ∧ x.age ≠ 255 then { x with age := x.age + 1 } else x) ∧
      (∀ j, j ≠ d → tabGet {} t.mem.decks j = tabGet {} s.mem.decks j) ∧
      t = { s with mem := { s.mem with decks := t.mem.decks, gran := t.mem.gran } } := by
  have hnodup : ((List.range 36).map (d * 36 + ·)).Nodup := List.nodup_range.map fun a b h => Nat.add_left_cancel h
  obtain ⟨t, ht, hfind⟩ := foldl_stepEpoch hnodup s
  have hrow : epochTick s d = { s with mem := { s.mem with
      gran := t, decks := tabMod {} s.mem.decks d fun x => { x with epoch := x.epoch + 1 } } } := by
    rw [epochTick, if_neg (by simpa [hmoor] using hperiod), ← List.foldl_map, ht]
    rfl
  refine does_of (congrArg Host.Outcome.next hrow) ⟨?_, fun g => ?_, fun j hj => ?_, rfl⟩
  · rw [tabGet_tabMod_self]
  · rw [hfind]
    refine congrArg (Option.map · _) (funext fun x => ?_)
    simp only [aged, stores_of_deck]
  · rw [tabGet_tabMod, if_neg (Ne.symm hj)]

/-! ### SCHEDULE and ADVANCE -/

theorem Reads.rd_may {s : State} {w : Who} {a n : Nat} (hs : Claim.clean s) (hmay : mayAccess s w a n false = true) :
    Reads s (Machine.rd w a n) (memRead s.mem.bytes a n) := by
  intro t ht
  obtain ⟨u, hu, hch⟩ := rd_of_clean (clean_of_mem hs ht.mem) ((mayAccess_of_samePrt ht.prt ..).trans hmay)
  rw [ht.mem] at hu
  exact ⟨u, hu, ht.trans hch⟩

/-- A schedule that keeps the rules is read as it stands. -/
theorem readSchedule_reads {s : State} {w : Who} {d a look layer : Nat} {es : List SchedEntry} (hs : Claim.clean s)
    (hhead : mayAccess s w a 64 false = true)
    (hbody : mayAccess s w (a + 64) (16 * fld (memRead s.mem.bytes a 64) 4 4) false = true)
    (hok : (fld (memRead s.mem.bytes a 64) 0 1 = 1 && fld (memRead s.mem.bytes a 64) 1 1 < 2 && 1 ≤ fld (memRead s.mem.bytes a 64) 2 2 &&
      1 ≤ fld (memRead s.mem.bytes a 64) 4 4 && fld (memRead s.mem.bytes a 64) 4 4 ≤ 65536 && zeroAt (memRead s.mem.bytes a 64) 8 56 &&
      layer < fld (memRead s.mem.bytes a 64) 2 2) = true)
    (hes : (List.range (fld (memRead s.mem.bytes a 64) 4 4)).mapM (fun i => entryOf d (fld (memRead s.mem.bytes a 64) 2 2)
      (((memRead s.mem.bytes (a + 64) (16 * fld (memRead s.mem.bytes a 64) 4 4)).drop (16 * i)).take 16)) = some es)
    (hrise : layersRise es = true) : Reads s (readSchedule w d a look layer)
      { layers := fld (memRead s.mem.bytes a 64) 2 2, wrap := decide (fld (memRead s.mem.bytes a 64) 1 1 = 1), entries := es,
        lookahead := look, layer := layer } := by
  unfold readSchedule
  refine .bind (.rd_may hs hhead) ?_
  dsimp only
  refine .check (by rw [hok]; rfl) (.bind (.rd_may hs hbody) ?_)
  rw [hes]
  exact .check (by rw [hrise]; rfl) (.pure _)

/-- What a SCHEDULE asks of its operands (spec/07 R167). -/
def scheduleOk (b : Bytes) : Bool :=
  zeroAt b 2 1 && zeroAt b 6 2 && zeroAt b 16 48 && fld b 8 8 % 64 = 0 && 1 ≤ fld b 3 1 && fld b 3 1 ≤ 64

theorem scheduleHead_runs {s : State} {b c : Nat} {q : QCmd} (h : Claim.bargeRuns s b c 0x43 q) : ∃ u, Turned s u (bargeEng b) 0 ∧
    scheduleHead s b c = if !scheduleOk q.bytes then bargeDone u b c q .internal
      else if fld q.bytes 8 8 = 0 then bargeDone (dropSchedule u b c) b c q .ok
      else match runActVal (readSchedule (whoOf (bargeEng b) c) (b / 8) (fld q.bytes 8 8) (fld q.bytes 3 1) (fld q.bytes 4 2)) u with
        | (.error st, s) => bargeDone s b c q st
        | (.ok sc, s) => bargeDone (installSchedule s b c sc) b c q .ok :=
  bargeHead_runs (b := b) h (by decide) fun s q => if !scheduleOk q.bytes then bargeDone s b c q .internal
      else if fld q.bytes 8 8 = 0 then bargeDone (dropSchedule s b c) b c q .ok
      else match runActVal (readSchedule (whoOf (bargeEng b) c) (b / 8) (fld q.bytes 8 8) (fld q.bytes 3 1) (fld q.bytes 4 2)) s with
        | (.error st, s) => bargeDone s b c q st
        | (.ok sc, s) => bargeDone (installSchedule s b c sc) b c q .ok

theorem advanceHead_runs {s : State} {b c : Nat} {q : QCmd} (h : Claim.bargeRuns s b c 0x44 q) : ∃ u, Turned s u (bargeEng b) 0 ∧
    advanceHead s b c = match tabFind u.mem.schedules (bargeKey b c) with
      | some sc => if zeroAt q.bytes 2 2 && zeroAt q.bytes 6 58 && fld q.bytes 4 2 < sc.layers then
          bargeDone (advanceTo u b c (fld q.bytes 4 2) sc) b c q .ok
        else bargeDone u b c q .internal
      | none => bargeDone u b c q .internal :=
  bargeHead_runs (b := b) h (by decide) fun s q => match tabFind s.mem.schedules (bargeKey b c) with
      | some sc => if zeroAt q.bytes 2 2 && zeroAt q.bytes 6 58 && fld q.bytes 4 2 < sc.layers then
          bargeDone (advanceTo s b c (fld q.bytes 4 2) sc) b c q .ok
        else bargeDone s b c q .internal
      | none => bargeDone s b c q .internal

/-- A command that ends well after a change of memory alone. -/
theorem bargeDone_ok {s u v : State} {b c : Nat} {q : QCmd} (hu : Turned s u (bargeEng b) 0) (hv : v.engs = u.engs) :
    Claim.headGone s (bargeDone v b c q .ok) (bargeEng b) c ∧ (bargeDone v b c q .ok).mem = v.mem :=
  ⟨completeHead_ok_gone hu.sameQueues (.of_engs hv), completeHead_mem v EngKind.noConfusion c q .ok {}⟩

/-- A command that fails before it has changed anything. -/
theorem bargeDone_fails {s u : State} {b c : Nat} {q : QCmd} (hu : Turned s u (bargeEng b) 0) :
    Claim.headFails s (bargeDone u b c q .internal) (bargeEng b) c q .internal ∧ (bargeDone u b c q .internal).mem = s.mem :=
  ⟨headFails_of_same hu.sameQueues ⟨fun _ _ => rfl, fun _ => rfl⟩ (completeHead_fails u _ c q rfl {}),
    (completeHead_mem u EngKind.noConfusion c q .internal {}).trans hu.mem⟩

theorem fetchesOf_of_mem {s t : State} (h : t.mem = s.mem) (b c : Nat) : fetchesOf t b c = fetchesOf s b c := by
  rw [fetchesOf, h, fetchesOf]

theorem fetchesOf_queueFetches (s : State) (b c : Nat) (sc : Schedule) (first n : Nat) :
    fetchesOf (queueFetches s b c sc first n) b c = fetchesOf s b c ++
      (sc.entries.filter fun e => layerIn sc first n e.layer).map fun e => { ctx := c, addr := e.addr, count := e.count, store := e.store } :=
  (tabGet_tabSet [] s.mem.fetches _ _ _).trans (if_pos rfl)

theorem advanceTo_does (s : State) (b c l : Nat) (sc : Schedule) : (advanceTo s b c l sc).engs = s.engs ∧
    tabFind (advanceTo s b c l sc).mem.schedules (bargeKey b c) = some { sc with layer := l } ∧
    (∃ more, fetchesOf (advanceTo s b c l sc) b c = fetchesOf s b c ++ more) ∧ (advanceTo s b c l sc).mem.bytes = s.mem.bytes := by
  have hepochs (l : List Nat) (s : State) : OnlyGranules s (l.foldl stepEpoch s) ∧ (l.foldl stepEpoch s).engs = s.engs := by
    induction l generalizing s with
    | nil => exact ⟨rfl, rfl⟩
    | cons x l ih =>
      obtain ⟨h1, h2⟩ := ih (stepEpoch s x)
      exact ⟨OnlyGranules.trans (t := stepEpoch s x) rfl h1, h2⟩
  obtain ⟨hmem, hengs⟩ := hepochs (sc.entries.map (·.store)).eraseDups s
  unfold advanceTo
  obtain ⟨u, hu⟩ : ∃ u, u = (sc.entries.map (·.store)).eraseDups.foldl stepEpoch s := ⟨_, rfl⟩
  rw [← hu] at hmem hengs ⊢
  dsimp only
  have hdoes (first n : Nat) (v : State)
      (hv : v = { u with mem := { u.mem with schedules := tabPut u.mem.schedules (bargeKey b c) { sc with layer := l } } }) :
      (queueFetches v b c { sc with layer := l } first n).engs = s.engs ∧
      tabFind (queueFetches v b c { sc with layer := l } first n).mem.schedules (bargeKey b c) = some { sc with layer := l } ∧
      (∃ more, fetchesOf (queueFetches v b c { sc with layer := l } first n) b c = fetchesOf s b c ++ more) ∧
      (queueFetches v b c { sc with layer := l } first n).mem.bytes = s.mem.bytes := by
    have hfetches : fetchesOf v b c = fetchesOf s b c := by
      rw [hv, fetchesOf, fetchesOf, ← hmem.fetches]
    refine ⟨?_, ?_, ⟨_, (fetchesOf_queueFetches v b c _ _ _).trans (by rw [hfetches])⟩, ?_⟩
    · rw [hv]
      exact hengs
    · rw [hv]
      exact tabFind_tabPut_self _ _ _
    · rw [hv]
      exact hmem.bytes
  by_cases hl : l = if sc.wrap then (sc.layer + 1) % sc.layers else sc.layer + 1
  · rw [if_pos hl]
    exact hdoes _ _ _ rfl
  · rw [if_neg hl]
    exact hdoes _ _ _ rfl

theorem schedulesInstall (b c : Nat) (q : QCmd) (s : State) (hrun : Claim.bargeRuns s b c 0x43 q)
    (h2 : zeroAt q.bytes 2 1 = true) (h6 : zeroAt q.bytes 6 2 = true) (h16 : zeroAt q.bytes 16 48 = true) (halign : fld q.bytes 8 8 % 64 = 0) :
    let a := fld q.bytes 8 8
    let look := fld q.bytes 3 1
    (look = 0 ∨ 64 < look → Does (.schedule b c) s fun t => Claim.headFails s t (bargeEng b) c q .internal ∧ t.mem = s.mem) ∧
    (1 ≤ look → look ≤ 64 → a = 0 → Does (.schedule b c) s fun t => Claim.headGone s t (bargeEng b) c ∧
      tabFind t.mem.schedules (bargeKey b c) = none ∧ fetchesOf t b c = [] ∧ t.mem.bytes = s.mem.bytes) ∧
    let h := memRead s.mem.bytes a 64
    let n := fld h 4 4
    let e := memRead s.mem.bytes (a + 64) (16 * n)
    ∀ es, 1 ≤ look → look ≤ 64 → a ≠ 0 → Claim.clean s →
      mayAccess s (whoOf (bargeEng b) c) a 64 false = true → mayAccess s (whoOf (bargeEng b) c) (a + 64) (16 * n) false = true →
      fld h 0 1 = 1 → fld h 1 1 < 2 → fld q.bytes 4 2 < fld h 2 2 → 1 ≤ n → n ≤ 65536 → zeroAt h 8 56 = true →
      (List.range n).mapM (fun i => entryOf (b / 8) (fld h 2 2) ((e.drop (16 * i)).take 16)) = some es → layersRise es = true →
      let sc : Schedule := { layers := fld h 2 2, wrap := decide (fld h 1 1 = 1), entries := es, lookahead := look,
                             layer := fld q.bytes 4 2 }
      Does (.schedule b c) s fun t => Claim.headGone s t (bargeEng b) c ∧
        tabFind t.mem.schedules (bargeKey b c) = some sc ∧
        fetchesOf t b c = (es.filter fun e => layerIn sc sc.layer (look + 1) e.layer).map (fun e =>
          { ctx := c, addr := e.addr, count := e.count, store := e.store }) ∧ t.mem.bytes = s.mem.bytes := by
  obtain ⟨u, hu, hrow⟩ := scheduleHead_runs hrun
  have hok (h1 : 1 ≤ fld q.bytes 3 1) (h64 : fld q.bytes 3 1 ≤ 64) : scheduleOk q.bytes = true := by
    simp [scheduleOk, h2, h6, h16, halign, h1, h64]
  refine ⟨fun hlook => ?_, fun h1 h64 hzero => ?_, fun es h1 h64 hne hs hmay hmay' hver hflags hlayer hn hmax hpad hes hrise => ?_⟩
  · have hbad : scheduleOk q.bytes = false := by
      simp only [scheduleOk, Bool.and_eq_false_iff, decide_eq_false_iff_not]
      omega
    rw [hbad, if_pos (by rfl)] at hrow
    exact does_of (congrArg Host.Outcome.next hrow) (bargeDone_fails hu)
  · rw [hok h1 h64, if_neg (by decide), if_pos hzero] at hrow
    obtain ⟨hgone, hmem⟩ := bargeDone_ok (c := c) (q := q) (v := dropSchedule u b c) hu rfl
    refine does_of (congrArg Host.Outcome.next hrow) ⟨hgone, ?_, ?_, ?_⟩
    · rw [hmem]
      exact (tabFind_tabDel _ _ _).trans (if_pos rfl)
    · rw [fetchesOf_of_mem hmem]
      exact (tabGet_tabDel _ _ _ _).trans (if_pos rfl)
    · rw [hmem]
      exact (congrArg MemSt.bytes hu.mem : u.mem.bytes = _)
  · have hhead : (fld (memRead s.mem.bytes (fld q.bytes 8 8) 64) 0 1 = 1 && fld (memRead s.mem.bytes (fld q.bytes 8 8) 64) 1 1 < 2 &&
        1 ≤ fld (memRead s.mem.bytes (fld q.bytes 8 8) 64) 2 2 && 1 ≤ fld (memRead s.mem.bytes (fld q.bytes 8 8) 64) 4 4 &&
        fld (memRead s.mem.bytes (fld q.bytes 8 8) 64) 4 4 ≤ 65536 && zeroAt (memRead s.mem.bytes (fld q.bytes 8 8) 64) 8 56 &&
        fld q.bytes 4 2 < fld (memRead s.mem.bytes (fld q.bytes 8 8) 64) 2 2) = true := by
      simp only [hver, hflags, hlayer, hn, hmax, hpad, Nat.lt_of_le_of_lt (Nat.zero_le _) hlayer, Nat.succ_le_of_lt, decide_true, Bool.and_true]
    have hsame : SamePrt s.prt u.prt := by rw [hu.eq]; exact .refl _
    rw [← hu.mem] at hmay' hhead hes
    obtain ⟨v, hv, hch⟩ := (readSchedule_reads (d := b / 8) (look := fld q.bytes 3 1) (layer := fld q.bytes 4 2) (hu.clean hs)
      ((mayAccess_of_samePrt hsame ..).trans hmay) ((mayAccess_of_samePrt hsame ..).trans hmay') hhead hes hrise).run
    rw [hu.mem] at hv
    rw [hok h1 h64, if_neg (by decide), if_neg hne, hv] at hrow
    intro sc
    obtain ⟨hgone, hmem⟩ := bargeDone_ok (c := c) (q := q) (v := installSchedule v b c sc) hu (by rw [hch.eq]; rfl)
    refine does_of (congrArg Host.Outcome.next hrow) ⟨hgone, ?_, ?_, ?_⟩
    · rw [hmem]
      exact tabFind_tabPut_self _ _ _
    · rw [fetchesOf_of_mem hmem]
      refine (fetchesOf_queueFetches _ _ _ _ _ _).trans ?_
      rw [fetchesOf]
      have : tabGet [] (tabDel v.mem.fetches (bargeKey b c)) (bargeKey b c) = [] := (tabGet_tabDel _ _ _ _).trans (if_pos rfl)
      exact congrArg (· ++ _) this
    · rw [hmem]
      exact (congrArg MemSt.bytes hch.mem).trans (congrArg MemSt.bytes hu.mem)

theorem schedulesAdvance (b c : Nat) (q : QCmd) (sc : Schedule) (s : State) (hrun : Claim.bargeRuns s b c 0x44 q)
    (hsc : tabFind s.mem.schedules (bargeKey b c) = some sc) (h2 : zeroAt q.bytes 2 2 = true) (h6 : zeroAt q.bytes 6 58 = true) :
    (fld q.bytes 4 2 < sc.layers → Does (.advance b c) s fun t => Claim.headGone s t (bargeEng b) c ∧
      tabFind t.mem.schedules (bargeKey b c) = some { sc with layer := fld q.bytes 4 2 } ∧
      (∃ more, fetchesOf t b c = fetchesOf s b c ++ more) ∧ t.mem.bytes = s.mem.bytes) ∧
    (sc.layers ≤ fld q.bytes 4 2 → Does (.advance b c) s fun t => Claim.headFails s t (bargeEng b) c q .internal ∧ t.mem = s.mem) := by
  obtain ⟨u, hu, hrow⟩ := advanceHead_runs hrun
  have hsc' : tabFind u.mem.schedules (bargeKey b c) = some sc := by rw [hu.mem]; exact hsc
  rw [hsc'] at hrow
  dsimp only at hrow
  refine ⟨fun hlayer => ?_, fun hlayer => ?_⟩
  · rw [if_pos (by simp [h2, h6, hlayer])] at hrow
    obtain ⟨hengs, hfind, ⟨more, hmore⟩, hbytes⟩ := advanceTo_does u b c (fld q.bytes 4 2) sc
    obtain ⟨hgone, hmem⟩ := bargeDone_ok (c := c) (q := q) hu hengs
    refine does_of (congrArg Host.Outcome.next hrow) ⟨hgone, by rw [hmem]; exact hfind, ⟨more, ?_⟩, ?_⟩
    · rw [fetchesOf_of_mem hmem, hmore, fetchesOf_of_mem hu.mem]
    · rw [hmem, hbytes, hu.mem]
  · rw [if_neg (by simp [Nat.not_lt.2 hlayer])] at hrow
    exact does_of (congrArg Host.Outcome.next hrow) (bargeDone_fails hu)

/-! ### FETCH_SLICE -/

theorem fetchSlices (b c : Nat) (r : FetchRun) (rest : List FetchRun) (s : State) (hfetch : fetchesOf s b c = r :: rest)
    (hmoor : s.pwr.moor = .running) (hbusy : tabFind s.barges.busy b = none) (hhalt : (getQ s (bargeEng b) c).halt = false)
    (hturn : Claim.hasTurn s (bargeEng b) 0 c (bargeReady s b)) : Does (.fetchSlice b c) s fun t =>
      fetchesOf t b c = (if r.count ≤ 256 then rest
        else { r with addr := r.addr + 256 * 4096, count := r.count - 256 } :: rest) ∧
      t.mem.bytes = s.mem.bytes ∧
      (windowsPermit s (ctxPart c) r.addr (min 256 r.count * 4096) false = false →
        (getQ t (bargeEng b) c).halt = true ∧ t.mem.gran = s.mem.gran) := by
  obtain ⟨u, hu, hturned⟩ := takeTurn_of hturn
  have hready : fetchReady s b c = true := by simp [fetchReady, hfetch, hhalt]
  obtain ⟨left, hleft⟩ : ∃ left, left = if min 256 r.count < r.count then
    { r with addr := r.addr + min 256 r.count * 4096, count := r.count - min 256 r.count } :: rest else rest := ⟨_, rfl⟩
  obtain ⟨v, hv⟩ : ∃ v, v = { u with mem := { u.mem with fetches := tabSet [] u.mem.fetches (bargeKey b c) left } } := ⟨_, rfl⟩
  have hrow : fetchSlice s b c = if windowsPermit v (ctxPart c) r.addr (min 256 r.count * 4096) false then
        ((List.range (min 256 r.count)).map fun i => r.addr / 4096 + i).foldl (fetchGran (engSrc (bargeEng b)) c r.store) v
      else faultHalt v (bargeEng b) c { bytes := [0x43] } .internal {} := by
    rw [fetchSlice, hfetch]
    dsimp only
    rw [if_neg (by simp [hmoor, hbusy, hready]), hu, hv, hleft]
  have hwant : left = if r.count ≤ 256 then rest else { r with addr := r.addr + 256 * 4096, count := r.count - 256 } :: rest := by
    rw [hleft]
    by_cases h : r.count ≤ 256
    · rw [if_pos h, if_neg (by omega)]
    · rw [if_neg h, if_pos (by omega), Nat.min_eq_left (by omega)]
  have hgot : fetchesOf v b c = left := by rw [hv]; exact (tabGet_tabSet _ _ _ _ _).trans (if_pos rfl)
  have hbytes : v.mem.bytes = s.mem.bytes := by rw [hv]; exact (congrArg MemSt.bytes hturned.mem : u.mem.bytes = _)
  have hgran : v.mem.gran = s.mem.gran := by rw [hv]; exact (congrArg MemSt.gran hturned.mem : u.mem.gran = _)
  have hpermit : windowsPermit v (ctxPart c) r.addr (min 256 r.count * 4096) false = windowsPermit s (ctxPart c) r.addr (min 256 r.count * 4096) false := by
    rw [hv, hturned.eq]
    rfl
  rw [← hwant, ← hpermit]
  refine does_of (congrArg Host.Outcome.next hrow) ?_
  cases hw : windowsPermit v (ctxPart c) r.addr (min 256 r.count * 4096) false with
  | true =>
    rw [if_pos rfl]
    have h := foldl_fetchGran (engSrc (bargeEng b)) c r.store ((List.range (min 256 r.count)).map fun i => r.addr / 4096 + i) v
    exact ⟨by rw [fetchesOf, h.fetches]; exact hgot, h.bytes.trans hbytes, fun h => absurd h (by decide)⟩
  | false =>
    rw [if_neg Bool.false_ne_true]
    have hmem : (faultHalt v (bargeEng b) c { bytes := [0x43] } .internal {}).mem = v.mem :=
      (faultHalt_fr (mk := 1048596) (by decide) (Fr.refl _ _) : Fr 1048596 v _).same .mem rfl
    refine ⟨(fetchesOf_of_mem hmem b c).trans hgot, by rw [hmem, hbytes], fun _ => ⟨?_, by rw [hmem, hgran]⟩⟩
    rw [(faultHalt_engs v (bargeEng b) c _ _ _).1]

/-! ### Background units -/

theorem satAdd32_toNat (a : BitVec 32) : (satAdd32 a 1).toNat = min 0xFFFFFFFF (a.toNat + 1) := by
  rw [satAdd32, BitVec.toNat_ofNat]
  omega

/-- The log entry of a word that a scrub finds uncorrectable in HBM. -/
def hbmEntry (a : Nat) : EvtEntry :=
  { code := some .eccUe, scrub := true, source := hbmSrc a, status := .eccUncorrectable, detail := toLe 8 (a / 32 * 32) ++ [0] }

/-- The log entry of a word that a scrub finds uncorrectable in the resident store. -/
def sramEntry (e : Eng) (a : Nat) : EvtEntry :=
  { code := some .eccUe, scrub := true, source := engSrc e, status := .eccUncorrectable, detail := toLe 8 (a / 8 * 8) ++ [1] }

theorem backgroundUnitsCount : Claim.backgroundUnitsCount := by
  intro e forced a k s hmoor hunit
  refine ⟨fun hfg hf f => ?_, fun hgo => ?_⟩
  · refine congrArg Host.Outcome.next ?_
    unfold background
    rw [if_pos (by simp [hfg, hf])]
  have hstands : ¬ ((decide (s.pwr.moor ≠ .running) || inUnit s e || (foreground s e && !forced)) = true) := by
    obtain h | h := hgo
    · simp [hmoor, hunit, h]
    · simp [hmoor, hunit, h]
  refine ⟨fun ha => ?_, fun hk => ?_, fun ha => ?_, fun g hg => ⟨?_, ?_⟩, ?_⟩
  · have hrow : background s e forced (.hbmCorrected a) = modStack s (stackOf a) fun x => { x with ce := satAdd32 x.ce 1 } := by
      rw [background, if_neg hstands, if_pos ha]
    refine does_of (congrArg Host.Outcome.next hrow) ⟨?_, rfl⟩
    rw [modStack, tabGet_tabMod_self, satAdd32_toNat]
  · have hrow : background s e forced (.hbmOnDie k) = modStack s k fun x => { x with ondie := satAdd32 x.ondie 1 } := by
      rw [background, if_neg hstands, if_pos hk]
    refine does_of (congrArg Host.Outcome.next hrow) ⟨?_, rfl⟩
    rw [modStack, tabGet_tabMod_self, satAdd32_toNat]
  · obtain ⟨u, hu⟩ : ∃ u, u = modStack { s with mem := { s.mem with badHbm := insertNat (a / 32) s.mem.badHbm } } (stackOf a) fun x =>
      { x with ue := satAdd32 x.ue 1, ueValid := true, ueAddr := if x.ueValid then x.ueAddr else BitVec.ofNat 48 (a / 32 * 32) } := ⟨_, rfl⟩
    have hrow : background s e forced (.hbmBad a) = logEntry u (hbmEntry a) := by
      rw [background, if_neg hstands, if_pos ha, hu]
      rfl
    have hbuf : u.evt = s.evt := by rw [hu]; rfl
    refine does_of (congrArg Host.Outcome.next hrow) ⟨fun j => ?_, ?_, fun h => ?_, ?_⟩
    · rw [logEntry_mem, hu]
      exact mem_insertNat _ _ _
    · rw [logEntry_mem, hu, modStack, tabGet_tabMod_self]
      rfl
    · rw [← hbuf] at h ⊢
      refine ⟨logEntry_head _ h, ?_⟩
      rw [logEntry_entry _ h]
      exact ⟨rfl, rfl⟩
    · rw [logEntry_frame u (hbmEntry a), hu]
      rfl
  · have hrow : background s e forced (.sramCorrected a) = modDeck s (g.store / 36) fun x => { x with sramCe := satAdd32 x.sramCe 1 } := by
      rw [background, if_neg hstands, if_pos (by rw [isResident, hg]; rfl), residentDeck, hg]
    refine does_of (congrArg Host.Outcome.next hrow) ⟨?_, rfl⟩
    rw [modDeck, tabGet_tabMod_self, satAdd32_toNat]
  · obtain ⟨u, hu⟩ : ∃ u, u = modDeck { s with mem := { s.mem with badSram := insertNat (a / 8) s.mem.badSram } } (g.store / 36) fun x =>
      { x with sramUe := satAdd32 x.sramUe 1 } := ⟨_, rfl⟩
    have hrow : background s e forced (.sramBad a) = logEntry u (sramEntry e a) := by
      rw [background, if_neg hstands, if_pos (by rw [isResident, hg]; rfl), noteSramBad]
      dsimp only
      rw [residentDeck]
      dsimp only
      rw [hg, hu]
      rfl
    refine does_of (congrArg Host.Outcome.next hrow) ⟨fun j => ?_, ?_, fun h => ?_, ?_⟩
    · rw [logEntry_mem, hu]
      exact mem_insertNat _ _ _
    · rw [logEntry_mem, hu, modDeck, tabGet_tabMod_self, satAdd32_toNat]
    · have hbuf : u.evt = s.evt := by rw [hu]; rfl
      rw [← hbuf] at h ⊢
      exact logEntry_head _ h
    · rw [logEntry_frame u (sramEntry e a), hu]
      rfl
  · refine congrArg Host.Outcome.next ?_
    rw [background, if_neg hstands]

/-- Settles O41: a schedule is read whole and its fetches queue behind those that wait; a fetch and an epoch move granules, never bytes. -/
theorem schedulesAndBackground : Obligations.SchedulesAndBackground :=
  ⟨⟨schedulesInstall, schedulesAdvance, fun b c r rest s _ _ => fetchSlices b c r rest s, epochTicks⟩, backgroundUnitsCount⟩

end Sys2Proof.Proofs
end

