-- ==== Sys2Proof/Proofs/Collectives.lean ====
section
/-! PROOFS. COLLECTIVE: its start, its units, its waits and its frames (spec/16 R422-R424). -/

namespace Sys2Proof.Proofs

open Sys2Proof Sys2Proof.Machine Sys2Proof.Laws

/-! ### What ends a command -/

theorem completeCmd_mem (s : State) {e : Eng} (he : e.kind ≠ .core) (c : Nat) (q : QCmd) (st : Status) (o : Overflow) :
    (completeCmd s e c q st o).mem = s.mem := by
  have hno : (!st.good && decide (e.kind = .core)) = false := by simp [he]
  rw [completeCmd, hno, if_neg Bool.false_ne_true]
  refine (reportCmd_keeps _ _ _).2.1.trans ?_
  split
  · exact (faultHalt_fr (mk := 1048596) (by decide) (Fr.refl _ _) : Fr 1048596 _ (faultHalt s e c q st o)).same .mem rfl
  · rfl

/-- A report that ends no balancing move touches commands and mailboxes alone. -/
theorem reportCmd_plain {s : State} {q : QCmd} (h : Claim.plainReport s q) (st : Status) : Fr 196608 s (reportCmd s q.origin st) := by
  cases ho : q.origin with
  | none => exact Fr.refl _ _
  | some k =>
    obtain ⟨id, i⟩ := k
    cases hc : getCmd s id with
    | none =>
      simp only [reportCmd, hc]
      exact Fr.refl _ _
    | some p =>
      cases hx : p.enq with
      | none =>
        simp only [reportCmd, hc, hx, stageReport, h id i p ho hc]
        split
        · exact putCmd_fr (by decide) (Fr.refl _ _)
        · split
          · exact putCmd_fr (by decide) (Fr.refl _ _)
          · exact Fr.setPur (by decide) (Fr.refl _ _)
      | some y =>
        simp only [reportCmd, hc, hx]
        exact settleEnqueue_fr (by decide) (putCmd_fr (by decide) (Fr.refl _ _))

/-- A collective that ends is no longer in progress; only its DST may change. -/
theorem endColl_ends (s : State) (b c : Nat) (x : CollOp) (st : Status) : getColl (endColl s b c x st) b c = none ∧
    (∀ j, j ≠ bargeKey b c → tabFind (endColl s b c x st).barges.colls j = tabFind s.barges.colls j) ∧
    ∀ a, a < x.dst ∨ x.dst + x.dstBytes ≤ a → memGet (endColl s b c x st).mem.bytes a = memGet s.mem.bytes a := by
  obtain ⟨u, hu⟩ : ∃ u : State, u = { s with barges := { s.barges with colls := tabDel s.barges.colls (bargeKey b c) } } := ⟨_, rfl⟩
  obtain ⟨v, hv⟩ : ∃ v, v = if (st = .linkLost || st = .abortedDisabled) && mayAccess u (whoColl b c) x.dst x.dstBytes true then
    freeBytes u x.dst x.dstBytes else u := ⟨_, rfl⟩
  have hend : endColl s b c x st = completeCmd v (bargeEng b) c x.cmd st := by rw [hv, hu]; rfl
  have hbarges : (endColl s b c x st).barges = u.barges := by
    rw [hend]
    refine ((completeCmd_fr (mk := 1253756) (by decide) (Fr.refl _ _) : Fr 1253756 v _).same .barges rfl).trans ?_
    rw [hv]
    split <;> rfl
  have hmem : (endColl s b c x st).mem = v.mem := by
    rw [hend]
    exact completeCmd_mem v EngKind.noConfusion c x.cmd st {}
  refine ⟨?_, fun j hj => ?_, fun a ha => ?_⟩
  · rw [getColl, hbarges, hu]
    exact (tabFind_tabDel _ _ _).trans (if_pos rfl)
  · rw [hbarges, hu]
    exact (tabFind_tabDel _ _ _).trans (if_neg (Ne.symm hj))
  · rw [hmem, hv]
    split
    · rw [hu]
      refine (memGet_memWrite _ _ _ _).trans (if_neg fun h => ?_)
      simp only [List.length_map, List.length_range] at h
      omega
    · rw [hu]

/-! ### Frames to a member -/

theorem collPort_of_fry {s t : State} {x y : CollOp} {m p : Nat} {u : State} (hf : t.fry = s.fry) (hused : y.used = x.used)
    (h : collPort s x m = some (p, u)) : ∃ v, collPort t y m = some (p, v) ∧ v = { t with fry := v.fry } ∧
      v.fry.paths = s.fry.paths := by
  unfold collPort at h ⊢
  rw [hused]
  split
  next w hw =>
    rw [hw] at h
    dsimp only at h
    have hup : pathUp t w.1 m = pathUp s w.1 m := by rw [pathUp, getPath, hf]; rfl
    rw [hup]
    split at h
    next hlive =>
      obtain ⟨rfl, rfl⟩ := Prod.mk.inj (Option.some.inj h)
      exact ⟨t, if_pos hlive, rfl, by rw [hf]⟩
    next => exact absurd h (by simp)
  next hw =>
    rw [hw] at h
    dsimp only at h
    obtain ⟨v, hv, hvf, hvt⟩ := choosePort_of_fry hf h
    refine ⟨v, hv, hvt, ?_⟩
    rw [hvf]
    rw [choosePort] at h
    split at h
    · obtain ⟨-, rfl⟩ := Prod.mk.inj (Option.some.inj h)
      rfl
    · exact absurd h (by simp)

/-- A frame to a member on another module waits on its path. -/
theorem sendMember_goes {s t : State} {x y : CollOp} {r p : Nat} {u : State} (hf : t.fry = s.fry) (hused : y.used = x.used)
    (hne : y.moduleOf r ≠ ownModule s) (h : collPort s x (y.moduleOf r) = some (p, u)) (f : FFrame) :
    ∃ v, sendMember t y r f = some (v, y.use p (y.moduleOf r)) ∧ v = { t with fry := v.fry } ∧
      (getPath v p (y.moduleOf r)).sendq = (getPath s p (y.moduleOf r)).sendq ++ [f] := by
  obtain ⟨v, hv, hvt, hpaths⟩ := collPort_of_fry hf hused h
  have hown : ownModule t = ownModule s := ownModule_of_fry hf
  refine ⟨queueFrame v p (y.moduleOf r) f, ?_, ?_, ?_⟩
  · rw [sendMember]
    dsimp only
    rw [hown, if_neg hne, hv]
  · rw [hvt]
    rfl
  · rw [getPath_queueFrame]
    show (getPath v p _).sendq ++ [f] = _
    rw [getPath, hpaths]
    rfl

theorem getColl_putColl (s : State) (b c : Nat) (x : CollOp) : getColl (putColl s b c x) b c = some x := tabFind_tabPut_self _ _ _

/-- A step is allowed to a predecessor on another module. -/
theorem allowStep_goes {s t : State} {x : CollOp} {b c p : Nat} {u : State} (hf : t.fry = s.fry)
    (hne : x.moduleOf x.pred ≠ ownModule s) (h : collPort s x (x.moduleOf x.pred) = some (p, u)) (n : Nat) :
    getColl (allowStep t b c x n) b c = some (x.use p (x.moduleOf x.pred)) ∧
    (getPath (allowStep t b c x n) p (x.moduleOf x.pred)).sendq = (getPath s p (x.moduleOf x.pred)).sendq ++ [readyFrame c x n] ∧
    (allowStep t b c x n).mem = t.mem ∧ (allowStep t b c x n).engs = t.engs := by
  obtain ⟨v, hv, hvt, hpath⟩ := sendMember_goes hf rfl hne h (readyFrame c x n)
  rw [allowStep, hv]
  exact ⟨getColl_putColl _ _ _ _, hpath, by rw [hvt]; rfl, by rw [hvt]; rfl⟩

theorem collectivesWait : Claim.collectivesWait := by
  intro b c x s _ _ hx
  refine ⟨fun p u hkind hbegun hne hport => ?_, fun hready => ?_, fun hready => ?_⟩
  · have hrow : collRepeat s b c = allowStep s b c x 1 := by
      rw [collRepeat, hx]
      exact if_pos (by simp [hkind, hbegun])
    obtain ⟨h1, h2, h3, -⟩ := allowStep_goes (b := b) (c := c) rfl hne hport 1
    exact does_of (congrArg Host.Outcome.next hrow) ⟨h2, h1, h3⟩
  · have hrow : collTimeout s b c = endColl s b c x .linkLost := by
      rw [collTimeout, hx]
      exact if_neg (by rw [hready]; decide)
    obtain ⟨h1, h2, h3⟩ := endColl_ends s b c x .linkLost
    exact does_of (congrArg Host.Outcome.next hrow) ⟨h1, h2, h3⟩
  · refine congrArg Host.Outcome.next ?_
    rw [collTimeout, hx]
    exact if_pos hready

/-! ### Frames from a member -/

theorem collFor_only {s t : State} {b c id : Nat} {x : CollOp} (h : Claim.onlyColl s b c x id) (hb : t.barges = s.barges)
    {test : CollOp → Bool} (htest : test x = true) : collFor t id test = some (b, c, x) := by
  obtain ⟨hlb, hlc, -, hid, hmem, honly⟩ := h
  have hfind : (s.barges.colls.find? fun k => k.2.id = id && test k.2) = some (bargeKey b c, x) := by
    cases hf : s.barges.colls.find? fun k => k.2.id = id && test k.2 with
    | none => exact absurd (List.find?_eq_none.1 hf _ hmem) (by simp [hid, htest])
    | some k =>
      have hk := List.find?_some hf
      rw [honly k (List.mem_of_find?_eq_some hf) (of_decide_eq_true (Bool.and_eq_true_iff.1 hk).1)]
  rw [collFor, hb, hfind]
  refine congrArg some (Prod.ext ?_ (Prod.ext ?_ rfl))
  · show bargeKey b c / 128 = b
    unfold bargeKey
    omega
  · show bargeKey b c % 128 = c
    unfold bargeKey
    omega

theorem collectiveFrames : Claim.collectiveFrames := by
  intro p f b c x s honly
  refine ⟨fun h hpred hkind hstep hrecv hs hmay => ?_, fun h harg hkind hsucc => ?_, fun h harg hkind hdel => ?_⟩
  · have hacc := accepted_received h
    have hrow : exec (.coll p f) s = .next (collPiece (Claim.received s p f) (some p) none f) :=
      congrArg Host.Outcome.next (dataRow_accepted h fun s => collPiece s (some p) none f)
    obtain ⟨u, hu⟩ : ∃ u, u = Claim.received s p f := ⟨_, rfl⟩
    rw [← hu] at hacc hrow
    have hfor : collFor u f.addr (fun x => x.moduleOf x.pred = f.src && (none : Option Nat).all (· = x.rank)) = some (b, c, x) :=
      collFor_only honly (by rw [hacc.frame]) (by simp [hpred])
    have huse : (x.use p f.src).kind = x.kind ∧ (x.use p f.src).steps = x.steps ∧ (x.use p f.src).recv = x.recv ∧
        (x.use p f.src).stage f.arg = x.stage f.arg ∧ (x.use p f.src).got = x.got := by
      unfold CollOp.use
      split <;> exact ⟨rfl, rfl, rfl, rfl, rfl⟩
    obtain ⟨hk, hst, hr, hstage, hgot⟩ := huse
    obtain ⟨v, hv, hw⟩ := wr_of_clean (hacc.clean hs) (w := whoColl b c) (a := x.stage f.arg + f.offset) (b := f.payload)
      (by rw [hacc.mayAccess]; exact hmay)
    rw [collPiece, hfor] at hrow
    dsimp only at hrow
    rw [if_neg (by rw [hk, hst, hr]; simp [hkind, hstep, hrecv]), hstage, runAct_ok hv] at hrow
    dsimp only at hrow
    refine does_of hrow ⟨(getColl_putColl _ _ _ _).trans (by rw [hgot]), ?_, fun a ha => ?_⟩
    · show memRead v.mem.bytes _ _ = _
      rw [hw.bytes]
      exact memRead_memWrite _ _ _
    · exact (hw.outside ha).trans (by rw [hacc.mem])
  · have hacc := accepted_received h
    have hrow : exec (.collReady p f) s = .next (collReadyFrame (Claim.received s p f) none f) :=
      congrArg Host.Outcome.next (dataRow_accepted h fun s => collReadyFrame s none f)
    have hbarges : (Claim.received s p f).barges = s.barges := by rw [hacc.frame]
    rw [collReadyFrame, collFor_only honly hbarges (by simp [harg, hkind, hsucc])] at hrow
    dsimp only at hrow
    rw [if_neg harg] at hrow
    refine does_of hrow ⟨getColl_putColl _ _ _ _, fun j hj => ?_, hacc.mem⟩
    exact ((tabFind_tabPut _ _ _ _).trans (if_neg (Ne.symm hj))).trans (by rw [hbarges])
  · have hacc := accepted_received h
    have hrow : exec (.collReady p f) s = .next (collReadyFrame (Claim.received s p f) none f) :=
      congrArg Host.Outcome.next (dataRow_accepted h fun s => collReadyFrame s none f)
    have hbarges : (Claim.received s p f).barges = s.barges := by rw [hacc.frame]
    obtain ⟨r, hr, hsrc⟩ := hdel
    have hany : (x.chunks.any fun r => x.moduleOf r = f.src) = true := List.any_eq_true.2 ⟨r, hr, decide_eq_true hsrc⟩
    rw [collReadyFrame, collFor_only honly hbarges (by simp only [harg, hkind, hany]; rfl)] at hrow
    dsimp only at hrow
    rw [if_pos harg] at hrow
    refine does_of hrow ⟨?_, hacc.mem⟩
    obtain ⟨q, hq⟩ := Option.isSome_iff_exists.1 (List.find?_isSome (p := fun r => decide (x.moduleOf r = f.src)).2 ⟨r, hr, decide_eq_true hsrc⟩)
    refine ⟨q, List.mem_of_find?_eq_some hq, of_decide_eq_true (List.find?_some hq :), (getColl_putColl _ _ _ _).trans ?_⟩
    rw [CollOp.delivered, hq]

/-! ### The start -/

/-- The collective that a command starts, with its members from the table. -/
def begunColl (q : QCmd) (table : Bytes) : CollOp :=
  { cmd := q, kind := fld q.bytes 2 1, efmt := fld q.bytes 3 1, rank := fld q.bytes 6 2,
    members := (List.range (fld q.bytes 4 2)).map fun i => (bits (fld table (16 * i) 2) 11 0, fld table (16 * i + 8) 8),
    src := fld q.bytes 16 8, dst := fld q.bytes 24 8, chunk := fld q.bytes 32 4, id := fld q.bytes 40 8 }

theorem begunColl_n (q : QCmd) (table : Bytes) : (begunColl q table).n = fld q.bytes 4 2 := by simp [begunColl, CollOp.n]

theorem begunColl_member {q : QCmd} (table : Bytes) {r : Nat} (h : r < fld q.bytes 4 2) :
    (begunColl q table).members.getD r (0, 0) = (bits (fld table (16 * r) 2) 11 0, fld table (16 * r + 8) 8) := by
  simp [begunColl, List.getD_eq_getElem?_getD, h]

theorem startColl_starts {u : State} {b c : Nat} {q : QCmd} (hok : collOk q.bytes = true) (hs : Claim.clean u)
    (hmay : mayAccess u (whoColl b c) (fld q.bytes 8 8) (16 * fld q.bytes 4 2) false = true)
    (hwheel : let x := begunColl q (memRead u.mem.bytes (fld q.bytes 8 8) (16 * fld q.bytes 4 2))
      x.src + x.srcBytes ≤ wheelBase ∧ x.dst + x.dstBytes ≤ wheelBase ∧ (x.kind = 3 ∨ x.remote x.rank + 2 * x.stageStep ≤ wheelBase)) :
    ∃ v, Charged u v ∧ startColl u b c q =
      let x := begunColl q (memRead u.mem.bytes (fld q.bytes 8 8) (16 * fld q.bytes 4 2))
      if x.kind = 3 then putColl (popQ v (bargeEng b) c) b c { x with chunks := (List.range x.n).filter (· ≠ x.rank) }
      else allowStep (putColl (popQ v (bargeEng b) c) b c x) b c x 1 := by
  obtain ⟨v, hv, hch⟩ := rd_of_clean hs hmay
  refine ⟨v, hch, ?_⟩
  obtain ⟨table, htable⟩ : ∃ table, table = memRead u.mem.bytes (fld q.bytes 8 8) (16 * fld q.bytes 4 2) := ⟨_, rfl⟩
  rw [← htable] at hwheel hv ⊢
  obtain ⟨x, hx⟩ : ∃ x, x = begunColl q table := ⟨_, rfl⟩
  rw [← hx] at hwheel ⊢
  obtain ⟨hsrc, hdst, hstage⟩ := hwheel
  have hno : namesWheel [(x.src, x.srcBytes), (x.dst, x.dstBytes), (x.remote x.rank, if x.kind = 3 then 0 else 2 * x.stageStep)] = false := by
    simp only [namesWheel, List.any_cons, List.any_nil, Bool.or_false, Bool.or_eq_false_iff, Bool.and_eq_false_iff, decide_eq_false_iff_not]
    refine ⟨.inl (.inr (by omega)), .inl (.inr (by omega)), ?_⟩
    obtain h | h := hstage
    · rw [if_pos h]
      exact .inl (.inl (by simp))
    · split
      · exact .inl (.inl (by simp))
      · exact .inl (.inr (by omega))
  unfold startColl
  dsimp only
  rw [hok, if_neg (by decide), hv]
  dsimp only
  rw [hx] at hno ⊢
  exact if_neg (Bool.eq_false_iff.1 hno)

theorem collRow_starts {s : State} {b c : Nat} {q : QCmd} (h : Claim.bargeRuns s b c 0x45 q) :
    ∃ u, Turned s u (bargeEng b) 0 ∧ collRow s b c = startColl u b c q := by
  have hcoll : getColl s b c = none := by
    obtain ⟨-, -, -, hfree, -⟩ := h
    exact And.right (a := tabFind s.barges.busy b = none) hfree
  rw [collRow, hcoll]
  exact bargeHead_runs h (by decide) fun s q => startColl s b c q

theorem collectivesStart : Claim.collectivesStart := by
  intro b c q s hrun hok hs cmd n rank chunk table pred step hmay hsrc hdst hstage begun
  obtain ⟨u, hu, hrow⟩ := collRow_starts hrun
  have hsame : SamePrt s.prt u.prt := by rw [hu.eq]; exact .refl _
  obtain ⟨x, hx⟩ : ∃ x, x = begunColl q table := ⟨_, rfl⟩
  have hsize : 2 ≤ n ∧ rank < n := by
    simp only [collOk, Bool.and_eq_true, decide_eq_true_eq] at hok
    show 2 ≤ fld q.bytes 4 2 ∧ fld q.bytes 6 2 < fld q.bytes 4 2
    omega
  have hpred : x.moduleOf x.pred = pred := by
    have hlt : (rank + n - 1) % n < n := Nat.mod_lt _ (by omega)
    rw [hx, CollOp.moduleOf, CollOp.pred, begunColl_n, Nat.mod_mod]
    exact congrArg Prod.fst (begunColl_member table hlt)
  have hn : x.n = n := by rw [hx]; exact begunColl_n q table
  have hbegun : begun x := by
    refine ⟨?_, ?_, ?_, ?_, ?_, hn, ?_, ?_, ?_, ?_, ?_⟩
    all_goals rw [hx]; rfl
  have hkind : x.kind = fld cmd 2 1 := by rw [hx]; rfl
  obtain ⟨v, hch, hstart⟩ := startColl_starts (u := u) (b := b) (c := c) hok (hu.clean hs) ((mayAccess_of_samePrt hsame ..).trans hmay) (by
    rw [hu.mem]
    refine ⟨?_, ?_, hstage.imp id fun h => ?_⟩
    · rw [CollOp.srcBytes, begunColl_n]
      exact hsrc
    · rw [CollOp.dstBytes, begunColl_n]
      exact hdst
    · exact (Nat.add_le_add_right (congrArg Prod.snd (begunColl_member table hsize.2)).le _).trans h)
  rw [hstart, hu.mem] at hrow
  dsimp only at hrow
  rw [show begunColl q (memRead s.mem.bytes (fld q.bytes 8 8) (16 * fld q.bytes 4 2)) = x from hx.symm] at hrow
  obtain ⟨w, hw⟩ : ∃ w, w = popQ v (bargeEng b) c := ⟨_, rfl⟩
  have hwmem : w.mem = s.mem := by rw [hw, popQ_mem, hch.mem, hu.mem]
  have hwfry : w.fry = s.fry := by rw [hw, popQ_fry, hch.eq, hu.eq]
  have hgone (t : State) (ht : t.engs = w.engs) : Claim.headGone s t (bargeEng b) c := by
    refine headGone_of_same (s' := v) (hu.sameQueues.trans (.of_engs (by rw [hch.eq]))) (.of_engs ht) ?_
    rw [hw]
    exact popQ_gone v (bargeEng b) c
  rw [← hw] at hrow
  refine ⟨fun p u' hk hne hport => ?_, fun hk => ?_⟩
  · rw [if_neg (by rw [hkind]; exact hk)] at hrow
    have hport' : collPort s x (x.moduleOf x.pred) = some (p, u') := by
      rw [hpred, hx]
      exact hport
    obtain ⟨h1, h2, h3, h4⟩ := allowStep_goes (b := b) (c := c) (t := putColl w b c x) hwfry (by rw [hpred]; exact hne) hport' 1
    rw [hpred] at h1 h2
    refine does_of (congrArg Host.Outcome.next hrow) ⟨hgone _ h4, ⟨_, h1, ?_, ?_⟩, ?_, h3.trans hwmem⟩
    · rw [hx] at hbegun ⊢
      exact hbegun
    · rw [hx]
      rfl
    · rw [h2, readyFrame, hx]
      rfl
  · rw [if_pos (by rw [hkind]; exact hk)] at hrow
    refine does_of (congrArg Host.Outcome.next hrow) ⟨hgone _ rfl, ⟨_, getColl_putColl _ _ _ _, ?_, ?_⟩, hwfry, hwmem⟩
    · exact hbegun
    · rw [hn, hx]
      rfl

/-! ### The units -/

theorem collRow_runs {s : State} {b c : Nat} {x : CollOp} (h : Claim.collRuns s b c x) :
    ∃ u, Turned s u (bargeEng b) 0 ∧ collRow s b c = collUnit u b c x := by
  obtain ⟨-, -, hx, hbusy, -, hready, hturn⟩ := h
  obtain ⟨u, hu, hturned⟩ := takeTurn_of hturn
  refine ⟨u, hturned, ?_⟩
  rw [collRow, hx]
  dsimp only
  rw [hbusy, hready, if_neg (by decide), hu]

/-- One step, which the staging area still has room for, is sent as one frame. -/
theorem collSend_goes {s u : State} {b c p : Nat} {x : CollOp} {w : State} (hf : u.fry = s.fry) (hsent : x.sent ≠ 0)
    (hne : x.moduleOf x.succ ≠ ownModule s) (hport : collPort s x (x.moduleOf x.succ) = some (p, w))
    (hv : x.cur.drop x.sentOff ≠ []) (hlen : (x.cur.drop x.sentOff).length ≤ 8192)
    (hall : x.sentOff + (x.cur.drop x.sentOff).length = x.travel x.sent) :
    getColl (collSend u b c x) b c = some ({ x with sent := x.sent + 1, sentOff := 0, cur := [] }.use p (x.moduleOf x.succ)) ∧
    (getPath (collSend u b c x) p (x.moduleOf x.succ)).sendq = (getPath s p (x.moduleOf x.succ)).sendq ++
      [{ op := 0x08, vc := 4, ctx := c, addr := x.id, offset := x.sentOff, arg := x.sent, payload := x.cur.drop x.sentOff }] ∧
    (collSend u b c x).mem = u.mem := by
  obtain ⟨v, hvv⟩ : ∃ v, v = x.cur.drop x.sentOff := ⟨_, rfl⟩
  rw [← hvv] at hv hlen hall ⊢
  obtain ⟨y, hy⟩ : ∃ y : CollOp, y = { x with sent := x.sent + 1, sentOff := 0, cur := [] } := ⟨_, rfl⟩
  have hmodule : y.moduleOf x.succ = x.moduleOf x.succ := by rw [hy]; rfl
  have hn : min 0x400000 (x.travel x.sent - x.sentOff) = v.length := by omega
  have hpart : runActVal (stepPart b c x v.length) u = (.ok v, u) := by
    rw [stepPart, if_neg hsent, ← hvv, List.take_length]
    rfl
  have hone : payloads (v.length / 8192 + 1) x.sentOff v = [(x.sentOff, v)] := by
    have htail (n : Nat) : payloads n (x.sentOff + 8192) [] = [] := by
      cases n <;> rfl
    rw [payloads, if_neg hv, List.take_of_length_le hlen, List.drop_of_length_le hlen, htail]
  obtain ⟨z, hz⟩ : ∃ z, z = chargeFerry (putColl u b c y) c v.length := ⟨_, rfl⟩
  have hch : Charged (putColl u b c y) z := by rw [hz]; exact charged_chargeFerry _ _ _
  obtain ⟨r, hr, hrt, hpath⟩ := sendMember_goes (s := s) (t := z) (x := x) (y := y) (r := x.succ) (by rw [hch.eq]; exact hf) (by rw [hy])
    (by rw [hmodule]; exact hne) (by rw [hmodule]; exact hport)
    { op := 0x08, vc := 4, ctx := c, addr := x.id, offset := x.sentOff, arg := x.sent, payload := v }
  have hrow : collSend u b c x = putColl r b c (y.use p (x.moduleOf x.succ)) := by
    unfold collSend
    dsimp only
    rw [hn, hpart]
    dsimp only
    rw [if_pos (by omega), hone, ← hy, ← hz, List.foldl_cons, List.foldl_nil, Option.bind_some, hr, hmodule]
  rw [hmodule] at hpath
  rw [hrow, ← hy]
  refine ⟨getColl_putColl _ _ _ _, hpath, ?_⟩
  show r.mem = _
  rw [hrt]
  exact hch.mem

/-- What is consumed of a step, once no sum is to be made: the received chunk stands in DST. -/
theorem collConsume_stores {u : State} {b c : Nat} {x : CollOp} (hs : Claim.clean u) (ho : Claim.openTo u (whoColl b c))
    (hoff : x.recvOff = 0) (hnext : x.next = []) (htravel : x.travel x.recv ≤ 0x400000)
    (hstage : x.stage x.recv + x.travel x.recv ≤ wheelBase) (hsum : x.sumSteps ≤ x.recv)
    (hdst : x.dst + x.recvChunk x.recv * x.chunk + x.travel x.recv ≤ wheelBase) :
    Yields (span (x.dst + x.recvChunk x.recv * x.chunk) (x.travel x.recv)) (collConsume b c x) u fun y t =>
      y = { x with recv := x.recv + 1, cur := memRead u.mem.bytes (x.stage x.recv) (x.travel x.recv) } ∧
      t.mem.bytes = memWrite u.mem.bytes (x.dst + x.recvChunk x.recv * x.chunk) (memRead u.mem.bytes (x.stage x.recv) (x.travel x.recv)) := by
  unfold collConsume
  dsimp only
  rw [hoff, hnext, Nat.sub_zero, Nat.min_eq_right htravel, Nat.add_zero, Nat.add_zero, Nat.zero_add]
  refine .bind (.rdMem hs (ho _ _ false hstage)) fun v t hst hq => ?_
  obtain ⟨hv, hmem⟩ := hq
  have hlen : v.length = x.travel x.recv := by rw [hv]; exact memRead_length _ _ _
  rw [if_neg (Nat.not_lt.2 hsum)]
  refine .bind (.wr (hst.clean hs) (hst.openTo ho _ _ true (by rw [hlen]; exact hdst)) fun j h1 h2 => ⟨h1, by rw [← hlen]; exact h2⟩) fun _ w _ hb => ?_
  show Yields _ (if _ then _ else _) w _
  rw [if_neg (Nat.lt_irrefl _)]
  refine .pure ⟨?_, ?_⟩
  · rw [hv]
    rfl
  · rw [hb, hmem, hv]
    rfl

/-- What is consumed of a step, while sums are to be made: the sum is what the next step sends. -/
theorem collConsume_adds {u : State} {b c : Nat} {x : CollOp} (hs : Claim.clean u) (ho : Claim.openTo u (whoColl b c))
    (hoff : x.recvOff = 0) (hnext : x.next = []) (htravel : x.travel x.recv ≤ 0x400000)
    (hstage : x.stage x.recv + x.travel x.recv ≤ wheelBase) (hsum : x.recv + 1 < x.sumSteps) (hkind : x.kind ≠ 1) (hfmt : x.efmt ≠ 1)
    (hsrc : x.src + (x.recvChunk x.recv + 1) * x.chunk ≤ wheelBase) : Reads u (collConsume b c x)
      { x with recv := x.recv + 1,
               cur := addWords x.efmt (memRead u.mem.bytes (x.stage x.recv) (x.travel x.recv))
                 (memRead u.mem.bytes (x.src + x.recvChunk x.recv * x.chunk) x.chunk) } := by
  have hchunk : x.travel x.recv = x.chunk := by rw [CollOp.travel, if_neg (by simp [hfmt])]
  have hsrc' : x.src + x.recvChunk x.recv * x.chunk + x.chunk ≤ wheelBase := by
    rw [Nat.add_mul, Nat.one_mul] at hsrc
    omega
  unfold collConsume
  dsimp only
  rw [hoff, hnext, Nat.sub_zero, Nat.min_eq_right htravel, Nat.add_zero, Nat.add_zero, Nat.zero_add]
  refine .bind (.rd hs ho hstage rfl) ?_
  rw [if_pos (by omega)]
  refine .bind (x := memRead u.mem.bytes (x.src + x.recvChunk x.recv * x.chunk) x.chunk) ?_ ?_
  · rw [srcPart, if_neg hkind, if_neg hfmt, Nat.add_zero, hchunk]
    exact .rd hs ho hsrc' rfl
  · rw [if_neg (by omega)]
    show Reads u (if _ then _ else _) _
    rw [if_neg (Nat.lt_irrefl _)]
    exact .pure _

theorem collectiveUnits : Claim.collectivesRun := by
  intro b c x s h
  obtain ⟨u, hu, hrow⟩ := collRow_runs h
  obtain ⟨-, -, -, -, hverdict, -, -⟩ := h
  have hfry : u.fry = s.fry := by rw [hu.eq]
  refine ⟨fun hdone hplain => ?_, fun p w hdone hkind hsend hsent => ?_,
    fun hdone hsend _ hlast hoff hnext htravel hs ho hstage => ?_⟩
  · have hend : collUnit u b c x = endColl u b c x .ok := by
      rw [collUnit, hverdict]
      exact if_pos hdone
    rw [hend] at hrow
    obtain ⟨h1, h2, -⟩ := endColl_ends u b c x .ok
    have hreport : endColl u b c x .ok = reportCmd { u with barges := { u.barges with colls := tabDel u.barges.colls (bargeKey b c) } } x.cmd.origin .ok := by
      rw [endColl]
      exact completeCmd_good _ _ _ _ rfl {}
    have hfr := reportCmd_plain (s := { u with barges := { u.barges with colls := tabDel u.barges.colls (bargeKey b c) } }) (q := x.cmd)
      (by rw [hu.eq]; exact hplain) .ok
    rw [← hreport] at hfr
    refine does_of (congrArg Host.Outcome.next hrow) ⟨h1, fun j hj => (h2 j hj).trans (by rw [hu.eq]), ?_, (hfr.same .fry rfl).trans hfry⟩
    exact congrArg MemSt.bytes ((hfr.same .mem rfl).trans hu.mem)
  · intro m v hne hport hv hlen hall
    have hunit : collUnit u b c x = collSend u b c x := by
      rw [collUnit, hverdict]
      dsimp only
      rw [hdone, if_neg Bool.false_ne_true, if_pos hsend, if_neg hkind]
    rw [hunit] at hrow
    obtain ⟨h1, h2, h3⟩ := collSend_goes (u := u) (b := b) (c := c) hfry hsent hne hport hv hlen hall
    exact does_of (congrArg Host.Outcome.next hrow) ⟨h1, h2, h3.trans hu.mem⟩
  · intro v
    have hunit {y : CollOp} {t : State} (hy : runActVal (collConsume b c x) u = (.ok y, t)) : collUnit u b c x = putColl t b c y := by
      rw [collUnit, hverdict]
      dsimp only
      rw [hdone, if_neg Bool.false_ne_true, hsend, if_neg Bool.false_ne_true, hy]
      dsimp only
      rw [if_neg (by simp [Nat.not_lt.2 hlast])]
    have hs' := hu.clean hs
    have ho' := hu.openTo ho
    have hvlen : v.length = x.travel x.recv := memRead_length _ _ _
    refine ⟨fun hsum hdst => ?_, fun hsum hkind hfmt hsrc => ?_⟩
    · obtain ⟨y, t, hy, hst, hyx, hbytes⟩ := collConsume_stores hs' ho' hoff hnext htravel hstage hsum (by rw [← hvlen]; exact hdst)
      rw [hu.mem] at hyx hbytes
      rw [hunit hy] at hrow
      refine does_of (congrArg Host.Outcome.next hrow) ⟨(getColl_putColl _ _ _ _).trans (congrArg some hyx), ?_, fun a ha => ?_⟩
      · show memRead t.mem.bytes _ _ = _
        rw [hbytes]
        exact memRead_memWrite _ _ _
      · refine (hst.kept a fun hin => ?_).trans (by rw [hu.mem])
        rw [hvlen] at ha
        exact ha.elim (fun hlt => Nat.not_le.2 hlt hin.1) fun hle => Nat.not_lt.2 hle hin.2
    · obtain ⟨t, ht, hch⟩ := (collConsume_adds hs' ho' hoff hnext htravel hstage hsum hkind hfmt hsrc).run
      rw [hu.mem] at ht
      rw [hunit ht] at hrow
      exact does_of (congrArg Host.Outcome.next hrow) ⟨getColl_putColl _ _ _ _, hch.mem.trans hu.mem⟩

/-- Settles O42: a frame to a member waits on the one path to its module, and a unit's work on memory is one read and at most one
write. -/
theorem collectivesRun : Obligations.CollectivesRun := ⟨collectivesStart, collectiveUnits, collectivesWait, collectiveFrames⟩

end Sys2Proof.Proofs
end

