-- ==== Sys2Proof/Proofs/Selections.lean ====
section
/-! PROOFS. The order of records, and what a selection gives (spec/10 R247, R253-R255). -/

namespace Sys2Proof.Proofs

open Sys2Proof Sys2Proof.Machine Sys2Proof.Laws

/-! ### The order -/

theorem val_lt_asymm {a b : Val} (h : a.lt b = true) : b.lt a = false := by
  cases a with
  | nan => exact absurd h (by simp [Val.lt])
  | inf x =>
    cases b with
    | nan => rfl
    | inf y =>
      cases x <;> cases y <;> simp_all [Val.lt]
    | fin y n k =>
      cases x <;> simp_all [Val.lt]
  | fin x m e =>
    cases b with
    | nan => rfl
    | inf y => cases y <;> simp_all [Val.lt]
    | fin y n k =>
      simp only [Val.lt, decide_eq_true_eq, decide_eq_false_iff_not, min_comm k e] at *
      omega

theorem keyLt_asymm {kt a b : Nat} (h : keyLt kt a b = true) : keyLt kt b a = false := by
  unfold keyLt at *
  split
  next hz =>
    rw [if_pos hz] at h
    exact val_lt_asymm h
  next hz =>
    rw [if_neg hz] at h
    have := of_decide_eq_true h
    exact decide_eq_false (by omega)

theorem keyEq_comm (kt a b : Nat) : keyEq kt a b = keyEq kt b a := by
  unfold keyEq
  rw [Bool.or_comm, Bool.and_comm (keyNan kt a), Bool.and_comm (!keyLt kt a b)]

theorem keyBefore_asymm {kt a b : Nat} {largest : Bool} (h : keyBefore kt largest a b = true) : keyBefore kt largest b a = false := by
  unfold keyBefore at *
  rw [Bool.or_comm (keyNan kt b)]
  split
  next hn =>
    rw [if_pos hn] at h
    cases ha : keyNan kt a <;> cases hb : keyNan kt b <;> simp_all
  next hn =>
    rw [if_neg hn] at h
    split
    next hl =>
      rw [if_pos hl] at h
      exact keyLt_asymm h
    next hl =>
      rw [if_neg hl] at h
      exact keyLt_asymm h

theorem recBefore_asymm {kt : Nat} {largest : Bool} {a b : SelRec} (h : recBefore kt largest a b = true) :
    recBefore kt largest b a = false := by
  unfold recBefore at *
  rw [keyEq_comm]
  split
  next hne =>
    rw [if_pos hne] at h
    exact keyBefore_asymm h
  next heq =>
    rw [if_neg heq] at h
    split at h
    next hpos =>
      have := of_decide_eq_true h
      rw [if_pos (Ne.symm hpos)]
      exact decide_eq_false (by omega)
    next hpos =>
      have := of_decide_eq_true h
      rw [if_neg (by omega)]
      exact decide_eq_false (by omega)

/-! ### Sorting by insertion -/

section
variable {α : Type} {le : α → α → Bool}

/-- Nothing stands directly after an element that it may not follow. -/
theorem insertBy_chain (hasymm : ∀ a b, le a b = false → le b a = true) (x : α) {l : List α} (h : l.IsChain fun a b => le a b = true) :
    (insertBy le x l).IsChain (fun a b => le a b = true) ∧
      ∀ y, (∀ z ∈ l.head?, le y z = true) → le y x = true → ∀ z ∈ (insertBy le x l).head?, le y z = true := by
  induction l with
  | nil => exact ⟨List.isChain_singleton x, fun y _ hy z hz => by cases hz; exact hy⟩
  | cons w l ih =>
    unfold insertBy
    split
    next hle => exact ⟨List.isChain_cons_cons.2 ⟨hle, h⟩, fun y _ hy z hz => by cases hz; exact hy⟩
    next hle =>
      obtain ⟨htail, hhead⟩ := ih h.tail
      have hwx : le w x = true := hasymm x w (Bool.eq_false_iff.2 hle)
      refine ⟨List.isChain_cons.2 ⟨hhead w (List.isChain_cons.1 h).1 hwx, htail⟩, fun y hy _ z hz => ?_⟩
      cases hz
      exact hy w rfl

theorem sortBy_chain (hasymm : ∀ a b, le a b = false → le b a = true) (l : List α) : (sortBy le l).IsChain fun a b => le a b = true := by
  induction l with
  | nil => exact List.isChain_nil
  | cons x l ih => exact (insertBy_chain hasymm x ih).1

end

theorem sortRecs_perm (kt : Nat) (largest : Bool) (l : List SelRec) : (sortRecs kt largest l).Perm l := sortBy_perm _ l

theorem sortRecs_adjacent (kt : Nat) (largest : Bool) (l : List SelRec) (i : Nat) (hi : i + 1 < (sortRecs kt largest l).length) :
    recBefore kt largest ((sortRecs kt largest l).getD (i + 1) {}) ((sortRecs kt largest l).getD i {}) = false := by
  have hchain := sortBy_chain (le := fun a b => !recBefore kt largest b a) (fun a b h => by
    rw [Bool.not_eq_false'] at h
    rw [recBefore_asymm h]
    rfl) l
  have h := List.isChain_iff_getElem.1 hchain i hi
  rw [List.getD_eq_getElem _ _ hi, List.getD_eq_getElem _ _ (Nat.lt_of_succ_lt hi)]
  exact Bool.not_eq_true' _ ▸ h

/-! ### Selection -/

theorem dedupRecs_sublist (kt : Nat) (largest dedup : Bool) (l : List SelRec) :
    (if dedup then dedupRecs kt largest l else (l, 0)).1.Sublist l := by
  split
  · exact List.filter_sublist
  · exact .refl l

/-- A selection of K records: either all that there are, and fill; or the first K, and the ties cut at the last. -/
theorem selectTop_cases (kt : Nat) (largest dedup : Bool) (k : Nat) (l : List SelRec) :
    let d := if dedup then dedupRecs kt largest l else (l, 0)
    let sorted := sortRecs kt largest d.1
    (sorted.length < k ∧ selectTop kt largest dedup k l =
      { out := sorted ++ List.replicate (k - sorted.length) (fillRec kt largest), count := sorted.length, dups := d.2, status := .short }) ∨
    (k ≤ sorted.length ∧ ∃ ties, selectTop kt largest dedup k l =
      { out := sorted.take k, count := k, ties := ties, dups := d.2, status := if ties = 0 then .ok else .tieAtK }) := by
  intro d sorted
  by_cases h : sorted.length < k
  · exact .inl ⟨h, if_pos h⟩
  · exact .inr ⟨Nat.le_of_not_lt h, _, if_neg h⟩

theorem selectTop_length (kt : Nat) (largest dedup : Bool) (k : Nat) (l : List SelRec) : (selectTop kt largest dedup k l).out.length = k := by
  obtain ⟨h, hr⟩ | ⟨h, ties, hr⟩ := selectTop_cases kt largest dedup k l
  · rw [hr, List.length_append, List.length_replicate]
    omega
  · rw [hr]
    exact List.length_take_of_le h

theorem selectionsKeepTheirRecords : Claim.selectionsKeepTheirRecords := by
  refine ⟨fun kt largest l => ⟨sortRecs_perm kt largest l, sortRecs_adjacent kt largest l⟩, fun kt largest dedup k l => ?_⟩
  have hsub := dedupRecs_sublist kt largest dedup l
  have hcases := selectTop_cases kt largest dedup k l
  obtain ⟨d, hd⟩ : ∃ d, d = if dedup then dedupRecs kt largest l else (l, 0) := ⟨_, rfl⟩
  rw [← hd] at hsub hcases
  obtain ⟨sorted, hsorted⟩ : ∃ sorted, sorted = sortRecs kt largest d.1 := ⟨_, rfl⟩
  have hperm : sorted.Perm d.1 := by rw [hsorted]; exact sortRecs_perm _ _ _
  have hmem (x : SelRec) (hx : x ∈ sorted) : x ∈ l := hsub.subset (hperm.subset hx)
  have hlen : sorted.length ≤ l.length := hperm.length_eq.trans_le hsub.length_le
  have hall (hno : dedup = false) : sorted.length = l.length := by
    rw [hperm.length_eq, hd, hno]
    rfl
  refine ⟨selectTop_length kt largest dedup k l, ?_⟩
  dsimp only at hcases
  rw [← hsorted] at hcases
  obtain ⟨hlt, hr⟩ | ⟨hle, ties, hr⟩ := hcases
  · rw [hr]
    refine ⟨hlt.le, hlen, fun x hx => ?_, fun x hx => ?_, ⟨fun _ => hlt, fun _ => rfl⟩, ⟨fun h => (nomatch h), fun h => absurd h.1 hlt.ne⟩,
      fun hno hk => absurd (hall hno ▸ hk) (Nat.not_le.2 hlt)⟩
    · rw [List.take_left'] at hx
      · exact hmem x hx
      · rfl
    · rw [List.drop_left'] at hx
      · exact List.eq_of_mem_replicate hx
      · rfl
  · rw [hr]
    refine ⟨Nat.le_refl k, hle.trans hlen, fun x hx => hmem x (List.mem_of_mem_take (List.mem_of_mem_take hx)), fun x hx => ?_, ?_, ?_, fun _ _ => rfl⟩
    · rw [List.drop_of_length_le (List.length_take_le _ _)] at hx
      exact absurd hx List.not_mem_nil
    · refine ⟨fun h => ?_, fun h => absurd h (Nat.lt_irrefl k)⟩
      dsimp only at h
      split at h <;> exact nomatch h
    · refine ⟨fun h => ⟨rfl, fun hz => ?_⟩, fun h => if_neg h.2⟩
      dsimp only at h hz
      rw [if_pos hz] at h
      exact nomatch h

end Sys2Proof.Proofs
end

