-- ==== Sys2Proof/Proofs/SortUnits.lean ====
section
/-! PROOFS. The commands of a sort/select unit: what they read, what they select, what they write (spec/10 R250-R260). -/

namespace Sys2Proof.Proofs

open Sys2Proof Sys2Proof.Machine Sys2Proof.Laws

/-! ### Reach -/

/-- A region that is empty or lies below the wheelhouse is within reach. -/
theorem mayAccess_reach {s : State} {w : Who} (ho : Claim.openTo s w) {a n : Nat} (h : n = 0 ∨ a + n ≤ wheelBase) (x : Bool) :
    mayAccess s w a n x = true := by
  obtain rfl | h := h
  · rfl
  · exact ho a n x h

theorem Reads.foldlM {α β : Type} {s : State} {f : β → α → Act β} {g : β → α → β} (l : List α) (x : β)
    (h : ∀ y a, a ∈ l → Reads s (f y a) (g y a)) : Reads s (l.foldlM f x) (l.foldl g x) := by
  induction l generalizing x with
  | nil => exact .pure _
  | cons a l ih =>
    rw [List.foldlM_cons]
    exact (h x a List.mem_cons_self).bind (ih _ fun y b hb => h y b (List.mem_cons_of_mem _ hb))

/-! ### What a command reads -/

/-- The records of the input lists, numbered from `src0` on. -/
def recordsFrom (s : State) (b : Bytes) (lists : List (Nat × Nat)) (src0 : Nat) : List SelRec :=
  if ssuPacked b then
    let m := memRead s.mem.bytes (fld b 16 8) (keyBytes (ssuType b) * ssuCount b)
    (List.range (ssuCount b)).map fun i =>
      { key := fld m (keyBytes (ssuType b) * i) (keyBytes (ssuType b)), pay := fld b 52 4 + i,
        pos := genPos (fld b 48 3) (fld b 52 4 + i), src := src0 + i }
  else lists.zipIdx.foldl (fun acc l => acc ++ listRecs b l.2 (src0 + acc.length) (memRead s.mem.bytes l.1.1 (32 * l.1.2))) []

theorem recordsFrom_zero_of_nil (s : State) (b : Bytes) (lists : List (Nat × Nat)) :
    recordsFrom s b lists (([] : Bytes).length / 32) = Claim.ssuRecords s b lists := by
  show recordsFrom s b lists 0 = _
  unfold recordsFrom Claim.ssuRecords
  simp only [Nat.zero_add]

/-- What a command that may run asks of its operands. -/
structure SsuFits (s : State) (w : Who) (b : Bytes) (lists : List (Nat × Nat)) : Prop where
  clean : Claim.clean s
  openTo : Claim.openTo s w
  ok : ssuOk b = true
  reach : ∀ r ∈ ssuRegions b, r.2 = 0 ∨ r.1 + r.2 ≤ wheelBase
  table : Claim.ssuTable s b lists

section
variable {s : State} {w : Who} {b : Bytes} {lists : List (Nat × Nat)} (h : SsuFits s w b lists)
include h

theorem SsuFits.input : (if cmdOp b = 0xA2 then 16 * fld b 4 2 else ssuCount b * (if ssuPacked b then keyBytes (ssuType b) else 32)) = 0 ∨
    fld b 16 8 + (if cmdOp b = 0xA2 then 16 * fld b 4 2 else ssuCount b * (if ssuPacked b then keyBytes (ssuType b) else 32)) ≤ wheelBase :=
  h.reach _ (.head _)

theorem SsuFits.output : (32 * if ssuSelects b then ssuK b else ssuCount b) = 0 ∨
    fld b 24 8 + (32 * if ssuSelects b then ssuK b else ssuCount b) ≤ wheelBase := h.reach _ (.tail _ (.head _))

theorem SsuFits.summary : fld b 32 8 + 32 ≤ wheelBase := (h.reach _ (.tail _ (.tail _ (.head _)))).resolve_left (show ¬ 32 = 0 by decide)

theorem SsuFits.scratch : ssuScratch b = 0 ∨ fld b 56 8 + ssuScratch b ≤ wheelBase := h.reach _ (.tail _ (.tail _ (.tail _ (.head _))))

theorem SsuFits.inverse : (if cmdOp b = 0xA3 && fld b 40 8 ≠ 0 then 4 * ssuCount b else 0) = 0 ∨
    fld b 40 8 + (if cmdOp b = 0xA3 && fld b 40 8 ≠ 0 then 4 * ssuCount b else 0) ≤ wheelBase :=
  h.reach _ (.tail _ (.tail _ (.tail _ (.tail _ (.head _)))))

theorem SsuFits.notBoth : ¬ (ssuPacked b = true ∧ cmdOp b = 0xA2) := by
  rintro ⟨hp, hm⟩
  have := h.ok
  simp [ssuOk, hp, hm] at this

theorem SsuFits.selects (hc : ssuContinue b = true) : ssuSelects b = true := by
  have := h.ok
  cases hsel : ssuSelects b with
  | true => rfl
  | false => simp [ssuOk, hc, hsel] at this

theorem ssuLists_reads : Reads s (ssuLists w b) lists := by
  have htable := h.table
  unfold Claim.ssuTable at htable
  unfold ssuLists
  split
  next hm =>
    rw [if_pos hm] at htable
    obtain ⟨hl, hrules⟩ := htable
    have hin := h.input
    rw [if_pos hm] at hin
    rw [hl]
    refine .mapM _ fun j hj => ?_
    have hj' := List.mem_range.1 hj
    obtain ⟨hz, halign, hreach⟩ := hrules j hj'
    refine .bind (.rd h.clean h.openTo (by omega) rfl) (.check ?_ (.pure _))
    rw [hz]
    simp [halign, namesWheel, Nat.not_lt.2 hreach]
  next hm =>
    rw [if_neg hm] at htable
    rw [htable]
    exact .pure _

theorem lists_reach {p : Nat × Nat} (hp : p ∈ lists) (hnot : ssuPacked b = false) : 32 * p.2 = 0 ∨ p.1 + 32 * p.2 ≤ wheelBase := by
  have htable := h.table
  unfold Claim.ssuTable at htable
  split at htable
  next hm =>
    obtain ⟨hl, hrules⟩ := htable
    rw [hl] at hp
    obtain ⟨j, hj, rfl⟩ := List.mem_map.1 hp
    exact .inr (hrules j (List.mem_range.1 hj)).2.2
  next hm =>
    have hin := h.input
    rw [if_neg hm, hnot, if_neg Bool.false_ne_true, Nat.mul_comm] at hin
    rw [htable] at hp
    rw [List.mem_singleton.1 hp]
    exact hin

theorem ssuInputs_reads (src0 : Nat) : Reads s (ssuInputs w b lists src0) (recordsFrom s b lists src0) := by
  unfold ssuInputs recordsFrom
  split
  next hp =>
    have hin := h.input
    rw [if_neg fun hm => h.notBoth ⟨hp, hm⟩, if_pos hp, Nat.mul_comm] at hin
    exact .bind (.rd_may h.clean (mayAccess_reach h.openTo hin false)) (.pure _)
  next hp =>
    refine .foldlM _ _ fun acc p hmem => ?_
    have hp' := (List.mem_zipIdx hmem).2.2
    exact .bind (.rd_may h.clean (mayAccess_reach h.openTo (lists_reach h (by rw [hp']; exact List.getElem_mem _) (Bool.eq_false_iff.2 hp)) false)) (.pure _)

/-- A command with one list reads as many records as it names. -/
theorem recordsFrom_length (hm : cmdOp b ≠ 0xA2) (src0 : Nat) : (recordsFrom s b lists src0).length = ssuCount b := by
  have htable := h.table
  rw [Claim.ssuTable, if_neg hm] at htable
  unfold recordsFrom
  split
  · simp
  · rw [htable]
    simp [listRecs]

end

/-! ### What a command selects -/

/-- A row of more than 16,777,216 elements (spec/10 R252). -/
def ssuTooLong (b : Bytes) (n : Nat) : Prop := 16777216 < ssuCount b ∨ 16777216 < fld b 52 4 + ssuCount b ∨ 16777216 < n

/-- The valid records of an output that a command continues. -/
def takenRecs (prior : Bytes) : List SelRec :=
  ((List.range (prior.length / 32)).map fun i => { recAt prior i with src := i }).filter SelRec.valid

/-- A selection of a TOPK or a MERGE, with the ties of the output it continues. -/
def ssuTop (b prior prev : Bytes) (valid : List SelRec) : Selected :=
  let r := selectTop (ssuType b) (ssuLargest b) (ssuDedup b) (ssuK b) (takenRecs prior ++ valid)
  if ssuContinue b && fld prev 0 2 = Status.tieAtK.code && r.count = ssuK b &&
      keyEq (ssuType b) (recAt prior (ssuK b - 1)).key (r.out.getD (ssuK b - 1) {}).key then
    { r with ties := r.ties + fld prev 8 4, status := .tieAtK }
  else r

/-- The output records, the inverse map and the count of invalid records of a command over its input. -/
def ssuResult (b prior prev : Bytes) (input : List SelRec) : Selected × Bytes × Nat :=
  let kt := ssuType b
  let valid := input.filter SelRec.valid
  let all := fun (l : List SelRec) => ({ out := l, count := l.length } : Selected)
  match cmdOp b with
  | 0xA0 | 0xA2 => (ssuTop b prior prev valid, [], input.length - valid.length)
  | 0xA1 => ({ out := sortRecs kt (ssuLargest b) valid, count := valid.length }, [], input.length - valid.length)
  | 0xA3 => (all (uniqueRecs kt (ssuLargest b) valid),
      if fld b 40 8 = 0 then [] else inverseMap kt (uniqueRecs kt (ssuLargest b) valid) input, input.length - valid.length)
  | _ => (all (valid.filter fun r => predPasses kt (fld b 40 8) (ssuPred b) r.key), [], input.length - valid.length)

/-- The work of a command once it knows its lists and the output it continues. -/
def ssuSelect (w : Who) (k : Nat) (b : Bytes) (lists : List (Nat × Nat)) (prior prev : Bytes) : Act (Option (Selected × Bytes × Nat)) := do
  if (lists.map (·.2)).sum + (takenRecs prior).length > 16777216 then return none
  let s ← get
  stopIf (!mayAccess s w (fld b 56 8) (ssuScratch b) true || !mayAccess s w (fld b 56 8) (ssuScratch b) false) .internal
  let input ← ssuInputs w b lists (prior.length / 32)
  actMod fun s => modSsu s k fun x => { x with elements := x.elements + w64 input.length }
  let kt := ssuType b
  let valid := input.filter SelRec.valid
  match cmdOp b with
  | 0xA0 | 0xA2 => return some (ssuTop b prior prev valid, [], input.length - valid.length)
  | 0xA1 => return some ({ out := sortRecs kt (ssuLargest b) valid, count := valid.length }, [], input.length - valid.length)
  | 0xA3 =>
    let g := uniqueRecs kt (ssuLargest b) valid
    return some ({ out := g, count := g.length }, if fld b 40 8 = 0 then [] else inverseMap kt g input, input.length - valid.length)
  | _ =>
    let kept := valid.filter fun r => predPasses kt (fld b 40 8) (ssuPred b) r.key
    return some ({ out := kept, count := kept.length }, [], input.length - valid.length)

theorem ssuCompute_eq (w : Who) (k : Nat) (b : Bytes) : ssuCompute w k b = ssuLists w b >>= fun lists =>
    if ssuCount b > 16777216 || fld b 52 4 + ssuCount b > 16777216 || (lists.map (·.2)).sum > 16777216 then pure none
    else if ssuContinue b then rd w (fld b 24 8) (32 * ssuK b) >>= fun prior => rd w (fld b 32 8) 32 >>= fun prev => ssuSelect w k b lists prior prev
    else ssuSelect w k b lists [] [] := by
  unfold ssuCompute
  dsimp only
  congr 1
  funext lists
  split
  · rfl
  · cases hc : ssuContinue b with
    | false =>
      rw [if_neg Bool.false_ne_true, if_neg Bool.false_ne_true]
      unfold ssuSelect ssuTop
      rw [hc]
      rfl
    | true =>
      rw [if_pos rfl, if_pos rfl]
      unfold ssuSelect ssuTop
      rw [hc]
      rfl

/-- A unit counts the elements it has read. -/
def countElements (k n : Nat) (s : State) : State := modSsu s k fun x => { x with elements := x.elements + w64 n }

section
variable {s : State} {w : Who} {b : Bytes} {lists : List (Nat × Nat)} (h : SsuFits s w b lists)
include h

theorem ssuSelect_runs (k : Nat) {prior : Bytes} (prev : Bytes) {t : State} (ht : Charged s t)
    (hn : (lists.map (·.2)).sum + (takenRecs prior).length ≤ 16777216) : ∃ v, Charged s v ∧
      runActVal (ssuSelect w k b lists prior prev) t =
        (.ok (some (ssuResult b prior prev (recordsFrom s b lists (prior.length / 32)))),
          countElements k (recordsFrom s b lists (prior.length / 32)).length v) := by
  obtain ⟨v, hv, hch⟩ := ssuInputs_reads h (prior.length / 32) t ht
  have hmay (x : Bool) : mayAccess t w (fld b 56 8) (ssuScratch b) x = true :=
    (mayAccess_of_samePrt ht.prt ..).trans (mayAccess_reach h.openTo h.scratch x)
  refine ⟨v, hch, ?_⟩
  unfold ssuSelect
  rw [if_neg (Nat.not_lt.2 hn)]
  refine (runActVal_bind_ok (runActVal_get t)).trans ?_
  dsimp only
  rw [hmay, hmay]
  refine (runActVal_bind_ok (s := t) (t := t) (x := ()) rfl).trans ((runActVal_bind_ok hv).trans ((runActVal_bind_ok (x := ()) (t := countElements k _ v) rfl).trans ?_))
  unfold ssuResult
  split <;> rfl

/-- What the work of a command up to its outputs gives: nothing for a row that is too long, else a selection. -/
theorem ssuCompute_runs (k : Nat) : ∃ v, Charged s v ∧
    (runActVal (ssuCompute w k b) s = (.ok none, v) ∧ (¬ ssuTooLong b (lists.map (·.2)).sum → ssuContinue b = true) ∨
    ¬ ssuTooLong b (lists.map (·.2)).sum ∧ ∃ prior prev, (ssuContinue b = false → prior = [] ∧ prev = []) ∧
      runActVal (ssuCompute w k b) s = (.ok (some (ssuResult b prior prev (recordsFrom s b lists (prior.length / 32)))),
        countElements k (recordsFrom s b lists (prior.length / 32)).length v)) := by
  obtain ⟨u, hu, hch⟩ := (ssuLists_reads h).run
  rw [ssuCompute_eq, runActVal_bind_ok hu]
  split
  next hlong =>
    refine ⟨u, hch, .inl ⟨rfl, fun hno => absurd ?_ hno⟩⟩
    simpa [ssuTooLong, or_assoc] using hlong
  next hlong =>
    have hshort : ¬ ssuTooLong b (lists.map (·.2)).sum := by simpa [ssuTooLong, or_assoc] using hlong
    cases hc : ssuContinue b with
    | false =>
      rw [if_neg Bool.false_ne_true]
      have hn : (lists.map (·.2)).sum + (takenRecs []).length ≤ 16777216 := by
        rw [ssuTooLong] at hshort
        have : (takenRecs []).length = 0 := rfl
        omega
      obtain ⟨v, hv, hrun⟩ := ssuSelect_runs h k (prior := []) [] hch hn
      exact ⟨v, hv, .inr ⟨hshort, [], [], fun _ => ⟨rfl, rfl⟩, hrun⟩⟩
    | true =>
      rw [if_pos rfl]
      have hout := h.output
      rw [if_pos (h.selects hc)] at hout
      obtain ⟨x, hx, hchx⟩ := (Reads.rd_may h.clean (mayAccess_reach h.openTo hout false)) u hch
      obtain ⟨y, hy, hchy⟩ := (Reads.rd_may h.clean (mayAccess_reach h.openTo (.inr h.summary) false)) x hchx
      rw [runActVal_bind_ok hx, runActVal_bind_ok hy]
      by_cases hn : (lists.map (·.2)).sum + (takenRecs (memRead s.mem.bytes (fld b 24 8) (32 * ssuK b))).length ≤ 16777216
      · obtain ⟨v, hv, hrun⟩ := ssuSelect_runs h k (memRead s.mem.bytes (fld b 32 8) 32) hchy hn
        exact ⟨v, hv, .inr ⟨hshort, _, _, fun hf => absurd hf (by decide), hrun⟩⟩
      · refine ⟨y, hchy, .inl ⟨?_, fun _ => rfl⟩⟩
        unfold ssuSelect
        rw [if_pos (Nat.not_le.1 hn)]
        rfl

end

/-! ### The bounds of a selection -/

theorem inverseMap_length (kt : Nat) (groups input : List SelRec) : (inverseMap kt groups input).length = 4 * input.length := by
  rw [inverseMap, List.length_flatten, List.map_map]
  have hconst : (List.length ∘ fun r : SelRec => toLe 4 (if r.valid then groups.findIdx fun g => keyEq kt g.key r.key else 0xFFFFFFFF)) =
      fun _ => 4 := funext fun r => toLe_length _ _
  rw [hconst, List.map_const', List.sum_replicate, smul_eq_mul, Nat.mul_comm]

theorem uniqueRecs_length_le (kt : Nat) (largest : Bool) (l : List SelRec) : (uniqueRecs kt largest l).length ≤ l.length := by
  refine (sortBy_perm _ _).length_eq.trans_le ?_
  rw [List.length_map]
  exact List.length_filter_le _ _

theorem ssuTop_length (b prior prev : Bytes) (valid : List SelRec) : (ssuTop b prior prev valid).out.length = ssuK b := by
  unfold ssuTop
  dsimp only
  split <;> exact selectTop_length _ _ _ _ _

theorem selectTop_good (kt : Nat) (largest dedup : Bool) (k : Nat) (l : List SelRec) : (selectTop kt largest dedup k l).status.good = true := by
  obtain ⟨-, hr⟩ | ⟨-, ties, hr⟩ := selectTop_cases kt largest dedup k l
  · rw [hr]
    rfl
  · rw [hr]
    dsimp only
    split <;> rfl

theorem ssuTop_good (b prior prev : Bytes) (valid : List SelRec) : (ssuTop b prior prev valid).status.good = true := by
  unfold ssuTop
  dsimp only
  split
  · rfl
  · exact selectTop_good _ _ _ _ _

/-- The opcodes of a unit, one at a time. -/
theorem ssuOp_cases {b : Bytes} (hop : cmdOp b ∈ ssuOps) :
    (ssuSelects b = true ∧ (cmdOp b = 0xA0 ∨ cmdOp b = 0xA2)) ∨ ssuSelects b = false ∧ (cmdOp b = 0xA1 ∨ cmdOp b = 0xA3 ∨ cmdOp b = 0xA4) := by
  simp only [ssuOps, List.mem_cons, List.not_mem_nil, or_false] at hop
  unfold ssuSelects
  obtain h | h | h | h | h := hop
  all_goals simp [h]

theorem ssuResult_selects {b : Bytes} (h : cmdOp b = 0xA0 ∨ cmdOp b = 0xA2) (prior prev : Bytes) (input : List SelRec) :
    ssuResult b prior prev input =
      (ssuTop b prior prev (input.filter SelRec.valid), [], input.length - (input.filter SelRec.valid).length) := by
  obtain h | h := h
  · rw [ssuResult, h]
    rfl
  · rw [ssuResult, h]
    rfl

/-- What a command that selects no K gives does not depend on the output that it finds. -/
theorem ssuResult_other {b : Bytes} (hop : cmdOp b = 0xA1 ∨ cmdOp b = 0xA3 ∨ cmdOp b = 0xA4) (prior prev : Bytes) (input : List SelRec) :
    ssuResult b prior prev input = (Claim.ssuSelection b (input.filter SelRec.valid),
      if cmdOp b = 0xA3 ∧ fld b 40 8 ≠ 0 then inverseMap (ssuType b) (Claim.ssuSelection b (input.filter SelRec.valid)).out input else [],
      input.length - (input.filter SelRec.valid).length) := by
  obtain h | h | h := hop
  · rw [ssuResult, Claim.ssuSelection, h]
    have hlen : (sortRecs (ssuType b) (ssuLargest b) (input.filter SelRec.valid)).length = (input.filter SelRec.valid).length :=
      (sortRecs_perm _ _ _).length_eq
    simp [hlen]
  · rw [ssuResult, Claim.ssuSelection, h]
    by_cases hz : fld b 40 8 = 0
    · simp [hz]
    · simp [hz]
  · rw [ssuResult, Claim.ssuSelection, h]
    simp

theorem ssuSelection_length_le {b : Bytes} (hop : cmdOp b = 0xA1 ∨ cmdOp b = 0xA3 ∨ cmdOp b = 0xA4) (valid : List SelRec) :
    (Claim.ssuSelection b valid).out.length ≤ valid.length ∧ (Claim.ssuSelection b valid).status.good = true := by
  unfold Claim.ssuSelection
  obtain h | h | h := hop
  · rw [h]
    exact ⟨(sortRecs_perm _ _ _).length_eq.le, rfl⟩
  · rw [h]
    exact ⟨uniqueRecs_length_le _ _ _, rfl⟩
  · rw [h]
    exact ⟨List.length_filter_le _ _, rfl⟩

theorem ssuResult_bounds {b : Bytes} (hop : cmdOp b ∈ ssuOps) (prior prev : Bytes) {input : List SelRec}
    (hlen : cmdOp b ≠ 0xA2 → input.length = ssuCount b) :
    (ssuResult b prior prev input).1.out.length ≤ (if ssuSelects b then ssuK b else ssuCount b) ∧
    (ssuResult b prior prev input).2.1.length ≤ (if cmdOp b = 0xA3 && fld b 40 8 ≠ 0 then 4 * ssuCount b else 0) ∧
    (ssuResult b prior prev input).1.status.good = true := by
  obtain ⟨hsel, h⟩ | ⟨hsel, h⟩ := ssuOp_cases hop
  · rw [ssuResult_selects h, hsel]
    exact ⟨(ssuTop_length _ _ _ _).le, Nat.zero_le _, ssuTop_good _ _ _ _⟩
  · have hcount := hlen (by omega)
    obtain ⟨hle, hgood⟩ := ssuSelection_length_le h (input.filter SelRec.valid)
    rw [ssuResult_other h, hsel]
    refine ⟨hle.trans ((List.length_filter_le _ _).trans hcount.le), ?_, hgood⟩
    dsimp only
    by_cases hinv : cmdOp b = 0xA3 ∧ fld b 40 8 ≠ 0
    · rw [if_pos hinv, if_pos (by simpa using hinv), inverseMap_length, hcount]
    · rw [if_neg hinv]
      exact Nat.zero_le _

theorem ssuResult_fresh {b : Bytes} (hop : cmdOp b ∈ ssuOps) (hc : ssuContinue b = false) (input : List SelRec) :
    ssuResult b [] [] input = (Claim.ssuSelection b (input.filter SelRec.valid),
      if cmdOp b = 0xA3 ∧ fld b 40 8 ≠ 0 then inverseMap (ssuType b) (Claim.ssuSelection b (input.filter SelRec.valid)).out input else [],
      input.length - (input.filter SelRec.valid).length) := by
  obtain ⟨-, h⟩ | ⟨-, h⟩ := ssuOp_cases hop
  · have htop : ssuTop b [] [] (input.filter SelRec.valid) = Claim.ssuSelection b (input.filter SelRec.valid) := by
      unfold ssuTop Claim.ssuSelection
      rw [hc]
      obtain h | h := h
      · rw [h]
        rfl
      · rw [h]
        rfl
    rw [ssuResult_selects h, htop, if_neg (by omega)]
  · exact ssuResult_other h [] [] input

/-! ### What a command writes -/

theorem recBytes_flatten_length (kt : Nat) (l : List SelRec) : (l.map (recBytes kt)).flatten.length = 32 * l.length := by
  have hconst : (List.length ∘ recBytes kt) = fun _ => 32 := funext fun x => by simp [recBytes, toLe_length]
  rw [List.length_flatten, List.map_map, hconst, List.map_const', List.sum_replicate, smul_eq_mul, Nat.mul_comm]

theorem wrFree_runs {s : State} (hs : Claim.clean s) {w : Who} {a n : Nat} (hm : mayAccess s w a n true = true) :
    ∃ t v, runActVal (wrFree w a n) s = (.ok (), t) ∧ v.length = n ∧ Wrote { s with freeCtr := s.freeCtr + n } t a v := by
  obtain ⟨v, hv⟩ : ∃ v : Bytes, v = (List.range n).map fun i => BitVec.ofNat 8 (Config.free (s.freeCtr + i)) := ⟨_, rfl⟩
  have hlen : v.length = n := by rw [hv, List.length_map, List.length_range]
  obtain ⟨t, ht, hw⟩ := wr_of_clean (s := { s with freeCtr := s.freeCtr + n }) (w := w) (a := a) (b := v) hs (by rw [hlen]; exact hm)
  refine ⟨t, v, ?_, hlen, hw⟩
  rw [hv] at ht
  exact ht

theorem wrSummary_runs {s : State} (hs : Claim.clean s) {w : Who} (ho : Claim.openTo s w) {b : Bytes} (hsum : fld b 32 8 + 32 ≤ wheelBase)
    (st : Status) (r : Selected) (invalid : Nat) :
    ∃ t, runActVal (wrSummary w b st r invalid) s = (.ok st, t) ∧ Wrote s t (fld b 32 8) (ssuSummary s st r invalid) := by
  have hlen : (ssuSummary s st r invalid).length = 32 := by simp [ssuSummary, toLe_length]
  obtain ⟨t, ht, hw⟩ := wr_of_clean hs (w := w) (a := fld b 32 8) (b := ssuSummary s st r invalid) (by rw [hlen]; exact ho _ _ _ hsum)
  refine ⟨t, ?_, hw⟩
  unfold wrSummary
  rw [runActVal_bind_ok (runActVal_get s), runActVal_bind_ok ht]
  rfl

/-- The outputs of a command stand, the summary last. -/
theorem ssuCommit_runs {s : State} (hs : Claim.clean s) {w : Who} (ho : Claim.openTo s w) {b : Bytes} {r : Selected} {inv : Bytes}
    (invalid : Nat) (hscratch : ssuScratch b = 0 ∨ fld b 56 8 + ssuScratch b ≤ wheelBase)
    (hinv : inv.length = 0 ∨ fld b 40 8 + inv.length ≤ wheelBase)
    (hout : 32 * r.out.length = 0 ∨ fld b 24 8 + 32 * r.out.length ≤ wheelBase) (hsum : fld b 32 8 + 32 ≤ wheelBase) :
    ∃ t v, runActVal (ssuCommit w b r inv invalid) s = (.ok r.status, t) ∧ v.length = ssuScratch b ∧
      t.mem.bytes = memWrite (memWrite (memWrite (memWrite s.mem.bytes (fld b 56 8) v) (fld b 40 8) inv) (fld b 24 8)
        (r.out.map (recBytes (ssuType b))).flatten) (fld b 32 8) (ssuSummary s r.status r invalid) ∧
      t.engs = s.engs ∧ t.ssus = s.ssus := by
  have hlen := recBytes_flatten_length (ssuType b) r.out
  obtain ⟨s1, v, h1, hv, w1⟩ := wrFree_runs hs (mayAccess_reach ho hscratch true)
  have hp1 : SamePrt s.prt s1.prt := w1.prt
  have hs1 : Claim.clean s1 := w1.clean hs
  obtain ⟨s2, h2, w2⟩ := wr_of_clean hs1 (mayAccess_reach (openTo_of_samePrt hp1 ho) hinv true)
  have hp2 := hp1.trans w2.prt
  have hs2 := w2.clean hs1
  obtain ⟨s3, h3, w3⟩ := wr_of_clean hs2 (mayAccess_reach (openTo_of_samePrt hp2 ho) (hlen ▸ hout) true)
  have hp3 := hp2.trans w3.prt
  have hs3 := w3.clean hs2
  have hsame : ssuSummary s3 r.status r invalid = ssuSummary s r.status r invalid := by
    rw [ssuSummary, w3.eq, w2.eq, w1.eq]
    rfl
  obtain ⟨s4, h4, w4⟩ := wrSummary_runs hs3 (openTo_of_samePrt hp3 ho) hsum r.status r invalid
  rw [hsame] at w4
  refine ⟨s4, v, ?_, hv, by rw [w4.bytes, w3.bytes, w2.bytes, w1.bytes], by rw [w4.eq, w3.eq, w2.eq, w1.eq], by rw [w4.eq, w3.eq, w2.eq, w1.eq]⟩
  unfold ssuCommit
  rw [runActVal_bind_ok h1, runActVal_bind_ok h2, runActVal_bind_ok h3, h4]

/-! ### A whole command -/

/-- What the last unit of a command leaves. -/
structure SsuWorked (k : Nat) (b : Bytes) (lists : List (Nat × Nat)) (s t : State) (st : Status) : Prop where
  engs : t.engs = s.engs
  halts : st.halts = false
  ssus : t.ssus = s.ssus ∨ ∃ n, t.ssus = (countElements k n s).ssus
  outside (a : Nat) : (∀ r ∈ (ssuRegions b).tail, a < r.1 ∨ r.1 + r.2 ≤ a) → memGet t.mem.bytes a = memGet s.mem.bytes a
  long : ssuTooLong b (lists.map (·.2)).sum →
    t.ssus = s.ssus ∧ t.mem.bytes = memWrite s.mem.bytes (fld b 32 8) (ssuSummary s .lengthExceeded {} 0)
  done : ¬ ssuTooLong b (lists.map (·.2)).sum → ssuContinue b = false →
    let input := Claim.ssuRecords s b lists
    let r := Claim.ssuSelection b (input.filter SelRec.valid)
    st = r.status ∧ t.ssus = (countElements k input.length s).ssus ∧ ∃ v, v.length = ssuScratch b ∧
      t.mem.bytes = memWrite (memWrite (memWrite (memWrite s.mem.bytes (fld b 56 8) v) (fld b 40 8)
        (if cmdOp b = 0xA3 ∧ fld b 40 8 ≠ 0 then inverseMap (ssuType b) r.out input else [])) (fld b 24 8)
        (r.out.map (recBytes (ssuType b))).flatten) (fld b 32 8) (ssuSummary s r.status r (input.length - (input.filter SelRec.valid).length))

section
variable {s : State} {k c : Nat} {b : Bytes} {lists : List (Nat × Nat)} (h : SsuFits s (whoOf (ssuEng k) c) b lists)
  (hop : cmdOp b ∈ ssuOps)
include h hop

theorem ssuWork_runs : ∃ st t, runActSt (ssuWork k c b) s = (st, t) ∧ SsuWorked k b lists s t st := by
  have hsumreg : (fld b 32 8, 32) ∈ (ssuRegions b).tail := .tail _ (.head _)
  have houtreg : (fld b 24 8, 32 * if ssuSelects b then ssuK b else ssuCount b) ∈ (ssuRegions b).tail := .head _
  have hfreereg : (fld b 56 8, ssuScratch b) ∈ (ssuRegions b).tail := .tail _ (.tail _ (.head _))
  have hinvreg : (fld b 40 8, if cmdOp b = 0xA3 && fld b 40 8 ≠ 0 then 4 * ssuCount b else 0) ∈ (ssuRegions b).tail :=
    .tail _ (.tail _ (.tail _ (.head _)))
  have hsumlen (u : State) (st : Status) (r : Selected) (n : Nat) : (ssuSummary u st r n).length = 32 := by simp [ssuSummary, toLe_length]
  obtain ⟨v, hch, ⟨hnone, hcont⟩ | ⟨hshort, prior, prev, hfresh, hsome⟩⟩ := ssuCompute_runs h k
  · obtain ⟨t, ht, hw⟩ := wrSummary_runs (clean_of_mem h.clean hch.mem) (openTo_of_samePrt hch.prt h.openTo) h.summary .lengthExceeded {} 0
    have hsame : ssuSummary v .lengthExceeded {} 0 = ssuSummary s .lengthExceeded {} 0 := by rw [ssuSummary, hch.eq]; rfl
    rw [hsame] at hw
    refine ⟨.lengthExceeded, t, runActSt_ok ?_, by rw [hw.eq, hch.eq], rfl, .inl (by rw [hw.eq, hch.eq]), fun a ha => ?_, fun _ => ⟨by rw [hw.eq, hch.eq], ?_⟩,
      fun hno hc => absurd (hcont hno) (by rw [hc]; decide)⟩
    · unfold ssuWork
      rw [runActVal_bind_ok (runActVal_get s), hnone]
      exact ht
    · have hout := ha _ hsumreg
      rw [hw.bytes, hch.mem, memGet_memWrite, if_neg (by rw [hsumlen]; dsimp only at hout; omega)]
    · rw [hw.bytes, hch.mem]
  · obtain ⟨input, hinput⟩ : ∃ input, input = recordsFrom s b lists (prior.length / 32) := ⟨_, rfl⟩
    rw [← hinput] at hsome
    obtain ⟨r, inv, invalid, hr⟩ : ∃ r inv invalid, ssuResult b prior prev input = (r, inv, invalid) := ⟨_, _, _, rfl⟩
    obtain ⟨hle, hinv, hgood⟩ := ssuResult_bounds hop prior prev (input := input) fun hm => by rw [hinput]; exact recordsFrom_length h hm _
    rw [hr] at hsome hle hinv hgood
    dsimp only at hle hinv hgood
    obtain ⟨u, hu⟩ : ∃ u, u = countElements k input.length v := ⟨_, rfl⟩
    have huprt : u.prt = v.prt := by rw [hu]; rfl
    have humem : u.mem = s.mem := by rw [hu]; exact hch.mem
    have hengs : u.engs = s.engs := by rw [hu, hch.eq]; rfl
    have hussus : u.ssus = (countElements k input.length s).ssus := by rw [hu, hch.eq]; rfl
    have hinvreach := h.inverse
    have houtreach := h.output
    obtain ⟨t, f, ht, hf, hbytes, htengs, htssus⟩ := ssuCommit_runs (clean_of_mem h.clean humem)
      (openTo_of_samePrt (by rw [huprt]; exact hch.prt) h.openTo) (r := r) (inv := inv) invalid h.scratch
      (by omega) (by omega) h.summary
    have hsame : ssuSummary u r.status r invalid = ssuSummary s r.status r invalid := by rw [ssuSummary, hu, hch.eq]; rfl
    rw [hsame, humem] at hbytes
    refine ⟨r.status, t, runActSt_ok ?_, htengs.trans hengs, ?_, .inr ⟨_, htssus.trans hussus⟩, fun a ha => ?_, fun hlong => absurd hlong hshort, fun _ hc => ?_⟩
    · unfold ssuWork
      rw [runActVal_bind_ok (runActVal_get s), hsome, ← hu]
      dsimp only
      rw [runActSt_ok ht]
      split
      next heq =>
        have hst : r.status = .eccUncorrectable := (Prod.mk.inj heq).1
        rw [hst] at hgood
        exact absurd hgood (by decide)
      next heq =>
        obtain ⟨rfl, rfl⟩ := Prod.mk.inj heq
        rfl
    · exact Bool.eq_false_iff.2 fun hh => by simp [halts_not_good hh] at hgood
    · have h1 := ha _ hsumreg
      have h2 := ha _ houtreg
      have h3 := ha _ hfreereg
      have h4 := ha _ hinvreg
      dsimp only at h1 h2 h3 h4
      rw [hbytes, memGet_memWrite, if_neg (by rw [hsumlen]; omega), memGet_memWrite, if_neg (by rw [recBytes_flatten_length]; omega),
        memGet_memWrite, if_neg (by omega), memGet_memWrite, if_neg (by omega)]
    · obtain ⟨rfl, rfl⟩ := hfresh hc
      rw [hinput, recordsFrom_zero_of_nil] at hr hussus
      rw [ssuResult_fresh hop hc] at hr
      obtain ⟨rfl, hrest⟩ := Prod.mk.inj hr
      obtain ⟨rfl, rfl⟩ := Prod.mk.inj hrest
      exact ⟨rfl, htssus.trans hussus, f, hf, hbytes⟩

end

/-! ### The rows -/

section
variable {s : State} {k c op : Nat} {q : QCmd} {lists : List (Nat × Nat)} (h : Claim.ssuRuns s k c op q lists)
include h

theorem ssuRow_exec : exec (Claim.ssuRow k c op) s = .next (ssuHead s k c op) := by
  obtain ⟨-, -, hop, -⟩ := h
  simp only [List.mem_cons, List.not_mem_nil, or_false] at hop
  obtain rfl | rfl | rfl | rfl | rfl := hop <;> rfl

theorem ssuRuns_op : cmdOp q.bytes ∈ ssuOps := by
  obtain ⟨-, -, hop, ⟨-, -, ho⟩, -⟩ := h
  rw [ho]
  exact hop

/-- The command's turn: another unit of its work, or the last one. -/
theorem ssuTurn_runs : ∃ u, Turned s u (ssuEng k) 0 ∧ SsuFits u (whoOf (ssuEng k) c) q.bytes lists ∧ ssuTurn s k c op =
    if q.units + 1 < (if (lists.map (·.2)).sum ≤ 16777216 then ceilDiv (ssuBeats q.bytes (lists.map (·.2)).sum) 1024 else 1) then
      countUnit u (ssuEng k) c
    else completeHead (modSsu (runActSt (ssuWork k c q.bytes) u).2 k fun x => { x with
      short := x.short + w64 (b2n ((runActSt (ssuWork k c q.bytes) u).1 = .short))
      ties := x.ties + w64 (b2n ((runActSt (ssuWork k c q.bytes) u).1 = .tieAtK)) }) (ssuEng k) c q (runActSt (ssuWork k c q.bytes) u).1 := by
  have hops := ssuRuns_op h
  obtain ⟨-, -, hop, hhead, hok, hturn, hs, ho, hreach, htable⟩ := h
  obtain ⟨u, hu, hturned⟩ := takeTurn_of hturn
  have hfits : SsuFits u (whoOf (ssuEng k) c) q.bytes lists := by
    refine ⟨hturned.clean hs, hturned.openTo ho, hok, hreach, ?_⟩
    rw [Claim.ssuTable, hturned.mem]
    exact htable
  refine ⟨u, hturned, hfits, ?_⟩
  obtain ⟨v, hv, -⟩ := (ssuLists_reads hfits).run
  have hunits : ssuUnits u k c q.bytes =
      if (lists.map (·.2)).sum ≤ 16777216 then ceilDiv (ssuBeats q.bytes (lists.map (·.2)).sum) 1024 else 1 := by
    rw [ssuUnits, hv]
  unfold ssuTurn
  dsimp only
  rw [headRow_runs hhead (listed := ssuOps) (List.contains_iff_mem.2 hop), hu]
  dsimp only
  rw [hok, if_neg (by decide), hunits]

/-- The head command of the unit is the command, and no disable has stopped it. -/
theorem ssuHead_turn : ssuHead s k c op =
    if (getQ (ssuTurn s k c op) (ssuEng k) c).queue.length < (getQ s (ssuEng k) c).queue.length then
      modSsu (ssuTurn s k c op) k fun x => { x with commands := x.commands + 1 }
    else ssuTurn s k c op := by
  obtain ⟨-, -, -, ⟨hhead, hverdict, -⟩, -⟩ := h
  simp only [ssuHead, hhead, hverdict]

theorem ssuHead_counts (hmore : q.units + 1 < (if (lists.map (·.2)).sum ≤ 16777216 then ceilDiv (ssuBeats q.bytes (lists.map (·.2)).sum) 1024 else 1)) :
    Does (Claim.ssuRow k c op) s fun t =>
      (getQ t (ssuEng k) c).queue = { q with units := q.units + 1 } :: (getQ s (ssuEng k) c).queue.tail ∧
      Claim.otherQueues s t (ssuEng k) c ∧ t = { s with engs := t.engs } := by
  obtain ⟨u, hu, -, hturn⟩ := ssuTurn_runs h
  rw [if_pos hmore] at hturn
  obtain ⟨l, hl⟩ : ∃ l, (getQ s (ssuEng k) c).queue = q :: l := by
    obtain ⟨-, -, -, ⟨hhead, -, -⟩, -⟩ := h
    exact (headCmd_queue hhead).2
  have hq : (getQ (countUnit u (ssuEng k) c) (ssuEng k) c).queue = { q with units := q.units + 1 } :: l := by
    rw [countUnit, modHead, getQ_modQ, hu.getQ, hl]
  have hrow := ssuHead_turn h
  rw [hturn, hq, hl, if_neg (by simp)] at hrow
  refine does_of ((ssuRow_exec h).trans (congrArg Host.Outcome.next hrow)) ⟨?_, fun f d hne => ?_, ?_⟩
  · rw [hq, hl]
    rfl
  · exact (otherQueues_modQ u (ssuEng k) c _ f d hne).trans (hu.getQ f d)
  · rw [hu.eq]
    rfl

/-- The last unit of a command. -/
theorem ssuHead_ends (hlast : (if (lists.map (·.2)).sum ≤ 16777216 then ceilDiv (ssuBeats q.bytes (lists.map (·.2)).sum) 1024 else 1) ≤ q.units + 1) :
    ∃ u st v, Turned s u (ssuEng k) 0 ∧ SsuWorked k q.bytes lists u v st ∧ Does (Claim.ssuRow k c op) s fun t =>
      Claim.headGone s t (ssuEng k) c ∧ t.mem.bytes = v.mem.bytes ∧
      (∀ j, j ≠ k → tabGet {} t.ssus j = tabGet {} s.ssus j) ∧
      tabGet {} t.ssus k = { tabGet {} v.ssus k with
        commands := (tabGet {} s.ssus k).commands + 1
        short := (tabGet {} s.ssus k).short + w64 (b2n (st = .short))
        ties := (tabGet {} s.ssus k).ties + w64 (b2n (st = .tieAtK)) } := by
  obtain ⟨u, hu, hfits, hturn⟩ := ssuTurn_runs h
  rw [if_neg (Nat.not_lt.2 hlast)] at hturn
  obtain ⟨st, v, hrun, hwork⟩ := ssuWork_runs hfits (ssuRuns_op h)
  rw [hrun] at hturn
  dsimp only at hturn
  obtain ⟨w, hw⟩ : ∃ w, w = modSsu v k fun x => { x with
    short := x.short + w64 (b2n (st = .short)), ties := x.ties + w64 (b2n (st = .tieAtK)) } := ⟨_, rfl⟩
  rw [← hw] at hturn
  obtain ⟨hgone, -, hmem⟩ := completeHead_gone w (ssuEng k) c q hwork.halts {}
  have hgone' : Claim.headGone s (completeHead w (ssuEng k) c q st) (ssuEng k) c :=
    headGone_of_same (hu.sameQueues.trans (.of_engs (by rw [hw]; exact hwork.engs))) ⟨fun _ _ => rfl, fun _ => rfl⟩ hgone
  obtain ⟨l, hl⟩ : ∃ l, (getQ s (ssuEng k) c).queue = q :: l := by
    obtain ⟨-, -, -, ⟨hhead, -, -⟩, -⟩ := h
    exact (headCmd_queue hhead).2
  have hshort : (getQ (completeHead w (ssuEng k) c q st) (ssuEng k) c).queue.length < (getQ s (ssuEng k) c).queue.length := by
    rw [hgone'.1, hl]
    exact Nat.lt_succ_self _
  have hssus : (completeHead w (ssuEng k) c q st).ssus = w.ssus :=
    (completeHead_fr (mk := 1253756) (by decide) (Fr.refl _ _) : Fr 1253756 w _).same .ssus rfl
  have hrow := ssuHead_turn h
  rw [hturn, if_pos hshort] at hrow
  have hcounts (j : Nat) : j ≠ k → tabGet {} v.ssus j = tabGet {} s.ssus j := fun hj => by
    obtain hsame | ⟨n, hn⟩ := hwork.ssus
    · rw [hsame, hu.eq]
    · rw [hn, hu.eq, countElements, modSsu, tabGet_tabMod, if_neg (Ne.symm hj)]
  have hkept : (tabGet {} v.ssus k).commands = (tabGet {} s.ssus k).commands ∧ (tabGet {} v.ssus k).short = (tabGet {} s.ssus k).short ∧
      (tabGet {} v.ssus k).ties = (tabGet {} s.ssus k).ties := by
    obtain hsame | ⟨n, hn⟩ := hwork.ssus
    · rw [hsame, hu.eq]
      exact ⟨rfl, rfl, rfl⟩
    · rw [hn, hu.eq, countElements, modSsu, tabGet_tabMod_self]
      exact ⟨rfl, rfl, rfl⟩
  obtain ⟨hcommands, hkshort, hkties⟩ := hkept
  refine ⟨u, st, v, hu, hwork, does_of ((ssuRow_exec h).trans (congrArg Host.Outcome.next hrow)) ⟨hgone', ?_, fun j hj => ?_, ?_⟩⟩
  · exact congrArg MemSt.bytes (hmem.trans (by rw [hw]; rfl))
  · rw [modSsu, tabGet_tabMod, if_neg (Ne.symm hj), hssus, hw, modSsu, tabGet_tabMod, if_neg (Ne.symm hj), hcounts j hj]
  · rw [modSsu, tabGet_tabMod_self, hssus, hw, modSsu, tabGet_tabMod_self, hcommands, hkshort, hkties]

end

theorem selectUnitsRun : Claim.selectUnitsRun := by
  intro k c op q lists s h b n units count long
  have hop : cmdOp b = op := by
    obtain ⟨-, -, -, ⟨-, -, ho⟩, -⟩ := h
    exact ho
  refine ⟨ssuHead_counts h, fun hlast => ?_, fun hlast hlong => ?_, fun hlast hshort hc => ?_⟩
  · obtain ⟨u, st, v, hu, hwork, t, ht, hgone, hbytes, hothers, hunit⟩ := ssuHead_ends h hlast
    refine ⟨t, ht, hgone, ?_, hothers, fun a ha => ?_⟩
    · show (tabGet {} t.ssus k).commands = _
      rw [hunit]
    · rw [hbytes, hwork.outside a ha, hu.mem]
  · obtain ⟨u, st, v, hu, hwork, t, ht, hgone, hbytes, hothers, hunit⟩ := ssuHead_ends h hlast
    obtain ⟨hssus, hmem⟩ := hwork.long hlong
    have hsum : ssuSummary u .lengthExceeded {} 0 = ssuSummary s .lengthExceeded {} 0 := by rw [ssuSummary, hu.eq]; rfl
    have hlen : (ssuSummary s .lengthExceeded {} 0).length = 32 := by simp [ssuSummary, toLe_length]
    rw [hsum, hu.mem] at hmem
    refine ⟨t, ht, hgone, ?_, ?_, fun a ha => ?_⟩
    · show (tabGet {} t.ssus k).elements = _
      rw [hunit, hssus, hu.eq]
    · rw [hbytes, hmem]
      have := memRead_memWrite s.mem.bytes (fld b 32 8) (ssuSummary s .lengthExceeded {} 0)
      rwa [hlen] at this
    · rw [hbytes, hmem, memGet_memWrite, if_neg fun hin => ?_]
      rw [hlen] at hin
      exact ha.elim (Nat.not_lt.2 hin.1) (Nat.not_le.2 hin.2)
  · intro input valid r inv happart
    obtain ⟨u, st, v, hu, hwork, t, ht, -, hbytes, -, hunit⟩ := ssuHead_ends h hlast
    obtain ⟨hst, hssus, f, hf, hmem⟩ := hwork.done hshort hc
    have hinput : Claim.ssuRecords u b lists = input := by
      rw [Claim.ssuRecords, hu.mem]
      rfl
    have hsame (st : Status) (r : Selected) (n : Nat) : ssuSummary u st r n = ssuSummary s st r n := by rw [ssuSummary, hu.eq]; rfl
    rw [hinput] at hst hssus
    rw [hinput, hsame, hu.mem, hop] at hmem
    change v.mem.bytes = memWrite (memWrite (memWrite (memWrite s.mem.bytes (fld b 56 8) f) (fld b 40 8) inv) (fld b 24 8)
      (r.out.map (recBytes (ssuType b))).flatten) (fld b 32 8) (ssuSummary s r.status r (input.length - valid.length)) at hmem
    have hsumlen : (ssuSummary s r.status r (input.length - valid.length)).length = 32 := by simp [ssuSummary, toLe_length]
    have houtlen := recBytes_flatten_length (ssuType b) r.out
    refine ⟨t, ht, ?_, ?_, fun h1 h2 => ?_, ?_, ?_, ?_⟩
    · rw [hbytes, hmem, memRead_memWrite_apart _ _ _ _ _ (by rw [hsumlen]; omega)]
      have := memRead_memWrite (memWrite (memWrite s.mem.bytes (fld b 56 8) f) (fld b 40 8) inv) (fld b 24 8) (r.out.map (recBytes (ssuType b))).flatten
      rwa [houtlen] at this
    · rw [hbytes, hmem]
      have := memRead_memWrite (memWrite (memWrite (memWrite s.mem.bytes (fld b 56 8) f) (fld b 40 8) inv) (fld b 24 8)
        (r.out.map (recBytes (ssuType b))).flatten) (fld b 32 8) (ssuSummary s r.status r (input.length - valid.length))
      rwa [hsumlen] at this
    · rw [hbytes, hmem, memRead_memWrite_apart _ _ _ _ _ (by rw [hsumlen]; omega), memRead_memWrite_apart _ _ _ _ _ (by rw [houtlen]; omega)]
      exact memRead_memWrite _ _ _
    · show (tabGet {} t.ssus k).elements = (tabGet {} s.ssus k).elements + _
      rw [hunit, hssus, hu.eq]
      dsimp only
      rw [countElements, modSsu, tabGet_tabMod_self]
      rfl
    · show (tabGet {} t.ssus k).short = _
      rw [hunit, hst]
      dsimp only
      by_cases hs : r.status = .short
      · rw [if_pos hs, decide_eq_true hs]
        rfl
      · rw [if_neg hs, decide_eq_false hs]
        rfl
    · show (tabGet {} t.ssus k).ties = _
      rw [hunit, hst]
      dsimp only
      by_cases hs : r.status = .tieAtK
      · rw [if_pos hs, decide_eq_true hs]
        rfl
      · rw [if_neg hs, decide_eq_false hs]
        rfl

/-- Settles O45: sorting by insertion keeps the records and leaves none after one it goes before; a command's last unit is reads, a
selection, and its outputs in turn. -/
theorem selectUnitsSelect : Obligations.SelectUnitsSelect := ⟨selectionsKeepTheirRecords, selectUnitsRun⟩

end Sys2Proof.Proofs
end

