-- ==== Sys2Proof/Proofs/Queries.lean ====
section
/-! PROOFS. QUERY_ADMIT on a table of slices that is not in order: whether the shard is attached is asked anew after the waiting query's
head entry is taken off, and that changes which slot answers (spec/09 R215, R232). -/

namespace Sys2Proof.Proofs

open Sys2Proof Sys2Proof.Machine Sys2Proof.Laws

/-- A checked QUERY on the shard whose descriptor stands at address 0. -/
def tangledQuery : QCmd := { bytes := [0x80], checked := true }

/-- A window on all of memory below the wheelhouse region. -/
def wholeWindow : Window := { rd := true, wr := true, base := 0, limit := 0xB000000000 }

/-- The QUERY waits at the head of context 0's queue on slice 3. The table of slices holds slice 5, where the shard is attached, before
slice 3, where a slot for the same descriptor is not. -/
def tangledState : State :=
  { State.reset with
    prt := { parts := [(0, { windows := [(0, wholeWindow)], queryCtx := 8 })] }
    engs := [(engKey (sliceEng 3), { ctxs := [(0, { queue := [tangledQuery] })] })]
    pcl := { slices := [(5, { slots := [(0, { shard := {} })] }), (3, { slots := [(0, { shard := {}, attached := false })] })] } }

theorem tangled_turn : Claim.hasTurn tangledState (sliceEng 3) 0 0 (admitReady tangledState 3) := ⟨0, by decide +kernel⟩

/-- From an address below its end on, the window covers all of the memory below the wheelhouse region. -/
theorem coverTo_whole {a : Nat} (h : a < wheelBase) (x : Bool) :
    coverTo ((List.range 4).map fun w => tabGet {} [(0, wholeWindow)] w) x 5 a = wheelBase := by
  have hstep : coverTo ((List.range 4).map fun w => tabGet {} [(0, wholeWindow)] w) x 5 a =
      coverTo ((List.range 4).map fun w => tabGet {} [(0, wholeWindow)] w) x 4 wheelBase := by
    have ha : a < 755914244096 := h
    have hfirst : ((List.range 4).map fun w => tabGet {} [(0, wholeWindow)] w).find?
        (fun w => (if x then w.wr else w.rd) && w.base.toNat ≤ a && a < w.limit.toNat) = some wholeWindow :=
      List.find?_cons_of_pos (by cases x <;> simpa [tabGet, wholeWindow] using ha)
    rw [coverTo, hfirst]
    rfl
  rw [hstep]
  cases x <;> decide +kernel

theorem tangled_open : Claim.openTo tangledState (whoOf (sliceEng 3) 0) := by
  intro a n x h
  by_cases hn : n = 0
  · subst hn
    rfl
  · have hwindow : windowsPermit tangledState (ctxPart 0) a n x = true := by
      have hcover := coverTo_whole (a := a) (by omega) x
      show (decide (n = 0) || decide (a + n ≤ coverTo ((List.range 4).map fun w => tabGet {} [(0, wholeWindow)] w) x 5 a)) = true
      rw [hcover]
      simp [h]
    have hunified : a + n ≤ unifiedEnd := Nat.le_trans h (by decide)
    have hcache : ¬ cacheBase < a + n := Nat.not_lt.2 (Nat.le_trans h (by decide))
    simp [mayAccess, whoOf, hwindow, hunified, hcache, h]

theorem tangled_fits : Claim.queryFits tangledQuery.bytes
    (shardOf (fld tangledQuery.bytes 16 8) (memRead tangledState.mem.bytes (fld tangledQuery.bytes 16 8) 192)).dim := by
  unfold Claim.queryFits
  decide +kernel

/-- The query is not admitted. -/
theorem tangled_waits : (queryAdmit tangledState 3 0).pcl.order = 0 := by decide +kernel

/-- Refutes O43: in `tangledState` the shard is attached, but the QUERY completes with DISABLED and no query is admitted. -/
theorem not_queriesRun : ¬ Obligations.QueriesRun := by
  rintro ⟨⟨-, hadmit, -⟩, -⟩
  obtain ⟨t, hrow, -, horder, -⟩ := hadmit 3 0 tangledQuery tangledState (by decide) (by decide) rfl tangled_turn ⟨rfl, rfl⟩ tangled_open
    rfl tangled_fits (fun h => absurd h (by decide))
  have ht : t = queryAdmit tangledState 3 0 := (Host.Outcome.next.inj hrow).symm
  rw [ht, tangled_waits] at horder
  exact absurd horder (by decide)

end Sys2Proof.Proofs
end

