-- ==== Sys2Proof/Proofs/Writes.lean ====
section
/-! PROOFS. Work that stores known bytes at known places in a known order: what memory holds after it, and how such work runs in sequence
(spec/14 R351, R360). -/

namespace Sys2Proof.Proofs

open Sys2Proof Sys2Proof.Machine Sys2Proof.Laws

/-- A check that fails ends the work. -/
theorem runActVal_stopIf_fails {α : Type} {b : Bool} {st : Status} {k : Unit → Act α} {s : State} (h : b = true) :
    runActVal (stopIf b st >>= k) s = (.error st, s) := by
  subst h
  rfl

/-! ### Memory after writes -/

/-- Memory after writes, in order. -/
def memDo (m : List Host.Cell) (ws : List (Nat × Bytes)) : List Host.Cell := ws.foldl (fun m w => memWrite m w.1 w.2) m

/-- A range that none of some writes touches. -/
def Misses (ws : List (Nat × Bytes)) (a n : Nat) : Prop := ∀ w ∈ ws, a + n ≤ w.1 ∨ w.1 + w.2.length ≤ a

theorem memDo_append (m : List Host.Cell) (p q : List (Nat × Bytes)) : memDo m (p ++ q) = memDo (memDo m p) q := List.foldl_append

theorem memRead_memDo_misses {m : List Host.Cell} {ws : List (Nat × Bytes)} {a n : Nat} (h : Misses ws a n) :
    memRead (memDo m ws) a n = memRead m a n := by
  induction ws generalizing m with
  | nil => rfl
  | cons w ws ih =>
    have hw := h w List.mem_cons_self
    exact (ih fun v hv => h v (List.mem_cons_of_mem _ hv)).trans (memRead_memWrite_apart m w.1 a n w.2 hw)

theorem memGet_memDo_misses {m : List Host.Cell} {ws : List (Nat × Bytes)} {a : Nat} (h : Misses ws a 1) :
    memGet (memDo m ws) a = memGet m a := by
  induction ws generalizing m with
  | nil => rfl
  | cons w ws ih =>
    have hw := h w List.mem_cons_self
    refine (ih fun v hv => h v (List.mem_cons_of_mem _ hv)).trans ?_
    rw [memGet_memWrite, if_neg (by omega)]

/-- What a write stored stands while no later one touches it. -/
theorem memRead_memDo_wrote {m : List Host.Cell} (p : List (Nat × Bytes)) {a : Nat} {b : Bytes} {q : List (Nat × Bytes)} {n : Nat}
    (hn : n = b.length) (h : Misses q a n) : memRead (memDo m (p ++ (a, b) :: q)) a n = b := by
  subst hn
  rw [memDo_append]
  exact (memRead_memDo_misses (m := memWrite (memDo m p) a b) h).trans (memRead_memWrite _ _ _)

/-! ### States after writes -/

/-- Only some writes have been made, beside DIRTY marks and the tokens of buckets. -/
structure WroteAll (s t : State) (ws : List (Nat × Bytes)) : Prop where
  eq : t = { s with prt := t.prt, mem := { s.mem with bytes := memDo s.mem.bytes ws, gran := t.mem.gran } }
  prt : SamePrt s.prt t.prt
  calm (h : ws = []) : t.mem = s.mem

theorem WroteAll.refl (s : State) : WroteAll s s [] := ⟨rfl, .refl _, fun _ => rfl⟩

theorem WroteAll.of_charged {s t : State} (h : Charged s t) : WroteAll s t [] := ⟨by rw [h.eq]; rfl, h.prt, fun _ => h.mem⟩

theorem WroteAll.to_charged {s t : State} (h : WroteAll s t []) : Charged s t := by
  refine ⟨?_, h.prt⟩
  have hmem : { s.mem with bytes := memDo s.mem.bytes [], gran := t.mem.gran } = s.mem := by rw [h.calm rfl]; rfl
  have heq := h.eq
  rwa [hmem] at heq

theorem WroteAll.bytes {s t : State} {ws : List (Nat × Bytes)} (h : WroteAll s t ws) : t.mem.bytes = memDo s.mem.bytes ws := by rw [h.eq]

theorem WroteAll.clean {s t : State} {ws : List (Nat × Bytes)} (h : WroteAll s t ws) (hs : Claim.clean s) : Claim.clean t := by
  rw [h.eq]; exact hs

theorem WroteAll.openTo {s t : State} {ws : List (Nat × Bytes)} (h : WroteAll s t ws) {w : Who} (ho : Claim.openTo s w) :
    Claim.openTo t w := openTo_of_samePrt h.prt ho

theorem WroteAll.charged {s t u : State} {ws : List (Nat × Bytes)} (h : WroteAll s t ws) (hc : Charged t u) : WroteAll s u ws :=
  ⟨by rw [hc.eq, h.eq], h.prt.trans hc.prt, fun hn => hc.mem.trans (h.calm hn)⟩

theorem WroteAll.wrote {s t u : State} {ws : List (Nat × Bytes)} {a : Nat} {b : Bytes} (h : WroteAll s t ws) (hw : Wrote t u a b) :
    WroteAll s u (ws ++ [(a, b)]) :=
  ⟨by rw [memDo_append, hw.eq, h.eq]; rfl, h.prt.trans hw.prt, fun hn => absurd hn (by simp)⟩

/-! ### Work -/

/-- Where the writes `p` have been made since `s`, work ends well with `x`, and the writes `q` have been made. -/
def Stores {α : Type} (s : State) (p : List (Nat × Bytes)) (a : Act α) (x : α) (q : List (Nat × Bytes)) : Prop :=
  ∀ t, WroteAll s t p → ∃ u, runActVal a t = (.ok x, u) ∧ WroteAll s u q

section
variable {α β : Type} {s : State} {p q r : List (Nat × Bytes)} {w : Who}

theorem Stores.run {a : Act α} {x : α} (h : Stores s [] a x q) : ∃ t, runActVal a s = (.ok x, t) ∧ WroteAll s t q := h s (.refl s)

theorem Stores.act {a : Act Unit} (h : Stores s [] a () q) : ∃ t, runAct a s = (.ok, t) ∧ WroteAll s t q := by
  obtain ⟨t, ht, hw⟩ := h.run
  exact ⟨t, runAct_ok ht, hw⟩

/-- Work that only reads. -/
theorem Reads.stores {a : Act α} {x : α} (h : Reads s a x) : Stores s [] a x [] := by
  intro t ht
  obtain ⟨u, hu, hc⟩ := h t ht.to_charged
  exact ⟨u, hu, .of_charged hc⟩

theorem Stores.pure (x : α) : Stores s p (Pure.pure x : Act α) x p := fun t ht => ⟨t, rfl, ht⟩

theorem Stores.bind {a : Act α} {k : α → Act β} {x : α} {y : β} (ha : Stores s p a x q) (hk : Stores s q (k x) y r) :
    Stores s p (a >>= k) y r := by
  intro t ht
  obtain ⟨u, hu, hw⟩ := ha t ht
  obtain ⟨v, hv, hw'⟩ := hk u hw
  exact ⟨v, (runActVal_bind_ok hu).trans hv, hw'⟩

theorem Stores.stopIf {b : Bool} {st : Status} (hb : b = false) : Stores s p (stopIf b st) () p := by
  subst hb
  exact fun t ht => ⟨t, rfl, ht⟩

/-- A check that holds is passed. -/
theorem Stores.check {b : Bool} {st : Status} {k : Unit → Act β} {y : β} (hb : b = false) (hk : Stores s p (k ()) y q) :
    Stores s p (Machine.stopIf b st >>= k) y q := .bind (.stopIf hb) hk

/-- Work that looks at the state. -/
theorem Stores.get_bind {k : State → Act β} {y : β} (hk : ∀ t, WroteAll s t p → Stores s p (k t) y q) : Stores s p (get >>= k) y q :=
  fun t ht => hk t ht t ht

section
variable (hs : Claim.clean s) (ho : Claim.openTo s w)
include hs ho

theorem Stores.rd {a n : Nat} (hin : a + n ≤ wheelBase) {b : Bytes} (hb : memRead (memDo s.mem.bytes p) a n = b) :
    Stores s p (rd w a n) b p := by
  intro t ht
  obtain ⟨u, hu, hc⟩ := rd_of_clean (ht.clean hs) (ht.openTo ho a n false hin)
  rw [ht.bytes, hb] at hu
  exact ⟨u, hu, ht.charged hc⟩

/-- A read of bytes that no write has touched. -/
theorem Stores.rdKept {a n : Nat} (hin : a + n ≤ wheelBase) (h : Misses p a n) : Stores s p (Machine.rd w a n) (memRead s.mem.bytes a n) p :=
  .rd hs ho hin (memRead_memDo_misses h)

theorem Stores.rdNat {a n : Nat} (hin : a + n ≤ wheelBase) (h : Misses p a n) :
    Stores s p (Machine.rdNat w a n) (leNat (memRead s.mem.bytes a n)) p := (Stores.rdKept hs ho hin h).bind (.pure _)

theorem Stores.wr {a : Nat} {b : Bytes} (hin : a + b.length ≤ wheelBase) : Stores s p (Machine.wr w a b) () (p ++ [(a, b)]) := by
  intro t ht
  obtain ⟨u, hu, hw⟩ := wr_of_clean (ht.clean hs) (ht.openTo ho a b.length true hin)
  exact ⟨u, hu, ht.wrote hw⟩

theorem Stores.wrNat {a n v : Nat} (hin : a + n ≤ wheelBase) : Stores s p (Machine.wrNat w a n v) () (p ++ [(a, toLe n v)]) :=
  .wr hs ho (by rw [toLe_length]; exact hin)

end

end

/-- Work that does the same for every element of a list of one. -/
theorem Stores.forM_one {α : Type} {s : State} {p q : List (Nat × Bytes)} {f : α → Act PUnit} {x : α} (h : Stores s p (f x) () q) :
    Stores s p ([x].forM f) () q := .bind h (.pure _)

end Sys2Proof.Proofs
end

