-- ==== Sys2Proof/Proofs/ShardWriters.lean ====
section
/-! PROOFS. The writer of a shard: ATTACH, DETACH and COMPACT, and compaction (spec/09 R235-R241). -/

namespace Sys2Proof.Proofs

open Sys2Proof Sys2Proof.Machine Sys2Proof.Laws

/-! ### Slots -/

theorem getSlice_modSlice (s : State) (k : Nat) (f : SliceSt → SliceSt) : getSlice (modSlice s k f) k = f (getSlice s k) :=
  tabGet_tabMod_self (α := SliceSt) {} s.pcl.slices k f

theorem getSlice_of_pcl {s t : State} (h : t.pcl = s.pcl) (k : Nat) : getSlice t k = getSlice s k := by rw [getSlice, h]; rfl

theorem getSlot_of_pcl {s t : State} (h : t.pcl = s.pcl) (k i : Nat) : getSlot t k i = getSlot s k i := by
  rw [getSlot, getSlice_of_pcl h]; rfl

theorem getSlot_putSlot (s : State) (k i j : Nat) (x : WriterSlot) :
    getSlot (putSlot s k i x) k j = if i = j then some x else getSlot s k j := by
  rw [getSlot, putSlot, getSlice_modSlice]
  exact tabFind_tabPut _ _ _ _

@[simp] theorem getSlot_putSlot_self (s : State) (k i : Nat) (x : WriterSlot) : getSlot (putSlot s k i x) k i = some x := by
  rw [getSlot_putSlot, if_pos rfl]

theorem slotOf_of_pcl {s t : State} (h : t.pcl = s.pcl) (a : Nat) : slotOf t a = slotOf s a := by rw [slotOf, h]; rfl

/-- A slot that answers for a descriptor is a slot of that descriptor. -/
theorem slotOf_addr {s : State} {a k i : Nat} {x : WriterSlot} (h : slotOf s a = some (k, i, x)) : x.shard.addr = a := by
  simpa using List.find?_some h

/-! ### Descriptors -/

section
variable {s : State} {p : List (Nat × Bytes)} {w : Who} (hs : Claim.clean s) (ho : Claim.openTo s w)
include ho

theorem mayWrite_stores {a n : Nat} (h : a + n ≤ wheelBase) : Stores s p (mayWrite w a n) () p :=
  .get_bind fun t ht => .stopIf (by rw [ht.openTo ho a n true h]; rfl)

include hs

section
variable {x : Shard} (hx : x.addr + 192 ≤ wheelBase)
include hx

theorem dGet_stores {off n : Nat} (h : off + n ≤ 192) (hm : Misses p (x.addr + off) n) :
    Stores s p (dGet w x off n) (dSeen s x off n) p := .rdNat hs ho (by omega) hm

theorem dPut_stores {off n v : Nat} (h : off + n ≤ 192) :
    Stores s p (dPut w x off n v) () (p ++ [(x.addr + off, toLe n v)]) := .wrNat hs ho (by omega)

theorem descReady_stores : Stores s p (descReady w x) () p :=
  .bind (.rd hs ho (by omega) rfl) (mayWrite_stores ho (by omega))

/-- What recording a chain writes. -/
def chainWrites (x : Shard) (first last n : Nat) : List (Nat × Bytes) :=
  [(x.addr + 108, toLe 4 n), (x.addr + 120, toLe 8 first), (x.addr + 128, toLe 8 last)]

theorem dChain_stores (first last n : Nat) : Stores s p (dChain w x first last n) () (p ++ chainWrites x first last n) := by
  have h : Stores s p (dChain w x first last n) () (((p ++ [_]) ++ [_]) ++ [_]) :=
    .bind (dPut_stores hs ho hx (by decide)) (.bind (dPut_stores hs ho hx (by decide)) (dPut_stores hs ho hx (by decide)))
  rw [List.append_assoc, List.append_assoc] at h
  exact h

/-- What going on to the next list writes. -/
def nextWrites (s : State) (x : Shard) : List (Nat × Bytes) :=
  (x.addr + 96, toLe 1 0) :: (x.addr + 112, toLe 8 0) :: chainWrites x 0 0 0 ++ [(x.addr + 100, toLe 4 (dSeen s x 100 4 + 1))]

theorem nextList_stores : Stores s [] (nextList w x) () (nextWrites s x) := by
  refine .bind (dPut_stores hs ho hx (by decide)) (.bind (dPut_stores hs ho hx (by decide)) (.bind (dChain_stores hs ho hx 0 0 0)
    (.bind (dGet_stores hs ho hx (by decide) ?_) (dPut_stores hs ho hx (by decide)))))
  simp [Misses, chainWrites]

end

/-- A chain that the step record holds no block of goes back at once. -/
theorem giveHeld_stores {x : Shard} (hx : x.addr + 192 ≤ wheelBase) (h : dSeen s x 108 4 = 0) :
    Stores s [] (do giveChain w x (← heldChain w x); nextList w x) () (nextWrites s x) := by
  have hheld : Stores s [] (heldChain w x) [] [] := by
    refine .bind (dGet_stores hs ho hx (by decide) (by simp [Misses])) (.bind (dGet_stores hs ho hx (by decide) (by simp [Misses])) ?_)
    rw [h]
    exact .pure _
  exact .bind hheld (.bind (.bind (descReady_stores hs ho hx) (.bind (.pure _) (.pure _))) (nextList_stores hs ho hx))

end

theorem nextWrites_misses {s : State} {x : Shard} {a n : Nat} (h : a + n ≤ x.addr + 96 ∨ x.addr + 136 ≤ a) :
    Misses (nextWrites s x) a n := by
  simp only [Misses, nextWrites, chainWrites, List.cons_append, List.nil_append, List.forall_mem_cons, toLe_length]
  simp
  omega

/-! ### Head entries and block headers -/

/-- A head entry as it stands in memory. -/
def headOf (b : Bytes) : HeadEntry :=
  { head := fld b 0 8, tail := fld b 8 8, slots := fld b 16 4, blocks := fld b 20 4, flips := fld b 24 4 }

/-- A head entry as it is written. -/
def headBytes (h : HeadEntry) : Bytes := toLe 8 h.head ++ toLe 8 h.tail ++ toLe 4 h.slots ++ toLe 4 h.blocks ++ toLe 4 h.flips ++ toLe 4 0

/-- A block header as it stands in memory. -/
def hdrOf (b : Bytes) : BlockHdr :=
  { next := fld b 0 8, count := fld b 8 2, tombs := fld b 10 2, list := fld b 12 4, minEpoch := fld b 16 8 % 2 ^ 48
    maxEpoch := fld b 24 8 % 2 ^ 48 }

section
variable {s : State} {p : List (Nat × Bytes)} {w : Who} (hs : Claim.clean s) (ho : Claim.openTo s w)
include hs ho

theorem rdHead_stores {x : Shard} {l : Nat} (hin : x.heads + 32 * l + 32 ≤ wheelBase) (h : Misses p (x.heads + 32 * l) 32) :
    Stores s p (rdHead w x l) (headOf (memRead s.mem.bytes (x.heads + 32 * l) 32)) p := .bind (.rdKept hs ho hin h) (.pure _)

theorem rdHdr_stores {a : Nat} (hin : a + 64 ≤ wheelBase) (h : Misses p a 64) :
    Stores s p (rdHdr w a) (hdrOf (memRead s.mem.bytes a 64)) p := .bind (.rdKept hs ho hin h) (.pure _)

theorem wrHead_stores {x : Shard} {l : Nat} (h : HeadEntry) (hin : x.heads + 32 * l + 32 ≤ wheelBase) :
    Stores s p (wrHead w x l h) () (p ++ [(x.heads + 32 * l, headBytes h)]) := .wr hs ho (by simpa using hin)

end

/-! ### The end of an ATTACH -/

theorem reportCmd_leaves (s : State) (o : Option (Nat × Nat)) (st : Status) : (reportCmd s o st).pcl = s.pcl ∧
    (reportCmd s o st).slip = s.slip ∧ (reportCmd s o st).mem = s.mem ∧ (reportCmd s o st).engs = s.engs := by
  have h : Fr 205056 s (reportCmd s o st) := reportCmd_fr (by decide) (Fr.refl _ _)
  exact ⟨h.same .pcl rfl, h.same .slip rfl, h.same .mem rfl, h.same .engs rfl⟩

/-- The queue of updates at its mark, which is set where it was not. -/
def atMark (y : SlipQ) : SlipQ := (rewindRead y).getD (setMark y)

theorem atMark_valid (y : SlipQ) : (atMark y).markValid = true := by
  cases h : y.markValid <;> simp [atMark, rewindRead, h, setMark]

theorem atMark_readPkt (y : SlipQ) : (atMark y).readPkt = if y.markValid then y.markPkt else y.readPkt := by
  cases h : y.markValid <;> simp [atMark, rewindRead, h, setMark]

/-- What the end of an ATTACH leaves: the slot attached, the update queue at its mark; queues, memory and all other slots as before. -/
structure AttachEnds (s t : State) (k i : Nat) (x : WriterSlot) : Prop where
  slot : getSlot t k i = some { x with attached := true, attach := none, flip := none }
  others (j : Nat) (h : j ≠ i) : getSlot t k j = getSlot s k j
  queries : (getSlice t k).queries = (getSlice s k).queries
  updates : getSq t x.shard.updq = atMark (getSq s x.shard.updq)
  mem : t.mem = s.mem
  engs : t.engs = s.engs

theorem attachDone_ends (s : State) (k i : Nat) (x : WriterSlot) (q : QCmd) : AttachEnds s (attachDone s k i x q) k i x := by
  obtain ⟨u, hu⟩ : ∃ u, u = modSq (putSlot s k i { x with attached := true, attach := none, flip := none }) x.shard.updq atMark :=
    ⟨_, rfl⟩
  have hrow : attachDone s k i x q = reportCmd u q.origin .ok := by
    rw [hu]
    exact completeCmd_good _ _ _ _ rfl _
  obtain ⟨hpcl, hslip, hmem, hengs⟩ := reportCmd_leaves u q.origin .ok
  have hput : u.pcl = (putSlot s k i { x with attached := true, attach := none, flip := none }).pcl := by rw [hu]; rfl
  rw [hrow]
  refine ⟨?_, fun j hj => ?_, ?_, ?_, ?_, ?_⟩
  · rw [getSlot_of_pcl (hpcl.trans hput), getSlot_putSlot_self]
  · rw [getSlot_of_pcl (hpcl.trans hput), getSlot_putSlot, if_neg (Ne.symm hj)]
  · rw [getSlice_of_pcl (hpcl.trans hput), putSlot, getSlice_modSlice]
  · rw [getSq_of_slip hslip, hu, Proofs.getSq_modSq]
    rfl
  · rw [hmem, hu]; rfl
  · rw [hengs, hu]; rfl

/-! ### ATTACH, DETACH and COMPACT -/

/-- A command about a shard whose turn it is runs. -/
theorem shardHead_runs {s : State} {k c op : Nat} {q : QCmd} (h : Claim.atHead s (sliceEng k) c op q) (hop : sliceOps.contains op = true)
    (hturn : Claim.hasTurn s (sliceEng k) 0 c (sliceReady s k)) (f : State → QCmd → State) :
    ∃ u, Turned s u (sliceEng k) 0 ∧ shardHead s k c op f = f u q := by
  obtain ⟨u, hu, hturned⟩ := takeTurn_of hturn
  refine ⟨u, hturned, ?_⟩
  rw [shardHead, headRow_runs h hop, hu]

section
variable {s : State} {w : Who} (hs : Claim.clean s) (ho : Claim.openTo s w) {x : Shard} (hx : x.addr + 192 ≤ wheelBase)
include hs ho hx

theorem descReady_reads : Reads s (descReady w x) () :=
  .bind (.rd hs ho hx rfl) fun t ht => ⟨t, by
    rw [mayWrite, runActVal_get_bind, openTo_of_samePrt ht.prt ho _ _ true hx]
    rfl, ht⟩

/-- With no batch in progress and no chain being copied, recovery changes nothing. -/
theorem recoverShard_reads (hbatch : dSeen s x 88 8 % 2 ^ 48 = 0) (hst : dSeen s x 96 1 ≠ 1) :
    Reads s (recoverShard w x) (dSeen s x 96 1) := by
  refine .bind (x := ()) (.bind (.rdNat hs ho (by omega)) ?_) (.bind (.rdNat hs ho (by omega)) ?_)
  · show Reads s (if dSeen s x 88 8 % 2 ^ 48 ≠ 0 then _ else _) ()
    rw [if_neg (by rw [hbatch]; decide)]
    exact .pure _
  · show Reads s (if dSeen s x 96 1 = 1 then _ else _) _
    rw [if_neg hst]
    exact .pure _

end

/-- The slot an ATTACH whose checks pass takes. -/
def newSlot (s : State) (x : Shard) (c st : Nat) : WriterSlot :=
  { shard := x, ctx := c, attached := st ≠ 2, flip := if st = 2 then some s.pcl.order else none }

/-- The checks and the recovery of an ATTACH that has no step to recover but a chain that retires. -/
theorem attachWork_runs {s : State} {k c i : Nat} {b d : Bytes} (hok : shardCmdOk b = true)
    (hd : d = memRead s.mem.bytes (fld b 8 8) 192) (hk : bits (fld d 12 1) 3 0 = k) (hin : fld b 8 8 + 192 ≤ wheelBase)
    (hs : Claim.clean s) (ho : Claim.openTo s (whoWriter k c)) (hdesc : descOk9 (fld b 8 8) d = true)
    (hc : (getSq s (shardOf (fld b 8 8) d).updq).consumer.toNat = c) (hnone : slotOf s (fld b 8 8) = none)
    (hfree : (List.range 4).find? (fun i => (getSlot s k i).isNone) = some i) (hbatch : fld d 88 8 % 2 ^ 48 = 0)
    (hst : fld d 96 1 ≠ 1) : ∃ t, Charged s t ∧ runActVal (attachWork k c b) s =
      (.ok (i, newSlot s (shardOf (fld b 8 8) d) c (fld d 96 1)), if fld d 96 1 = 2 then (stampPcl t).2 else t) := by
  have hseen (o n : Nat) (h : o + n ≤ 192) : dSeen s (shardOf (fld b 8 8) d) o n = fld d o n := by
    rw [hd]; exact (fld_memRead _ _ _ _ _ h).symm
  obtain ⟨s1, h1, c1⟩ := (Reads.rd hs ho hin hd).run
  obtain ⟨s2, h2, c2⟩ := descReady_reads hs ho (x := shardOf (fld b 8 8) d) hin s1 c1
  obtain ⟨s3, h3, c3⟩ := recoverShard_reads hs ho (x := shardOf (fld b 8 8) d) hin (by rw [hseen _ _ (by decide)]; exact hbatch)
    (by rw [hseen _ _ (by decide)]; exact hst) s2 c2
  rw [hseen _ _ (by decide)] at h3
  have hpcl1 : s1.pcl = s.pcl := by rw [c1.eq]
  have hpcl3 : s3.pcl = s.pcl := by rw [c3.eq]
  refine ⟨s3, c3, ?_⟩
  have hchecks : (decide (bits (fld d 12 1) 3 0 ≠ k) || !descOk9 (fld b 8 8) d ||
      decide ((getSq s1 (shardOf (fld b 8 8) d).updq).consumer.toNat ≠ c) || (slotOf s1 (fld b 8 8)).isSome) = false := by
    rw [slotOf_of_pcl hpcl1, hnone, hdesc, getSq_of_slip (by rw [c1.eq] : s1.slip = s.slip), hk, hc]
    simp
  have hfree1 : (List.range 4).find? (fun i => (getSlot s1 k i).isNone) = some i := by
    rw [← hfree]
    exact congrArg (fun f => (List.range 4).find? f) (funext fun i => by rw [getSlot_of_pcl hpcl1])
  unfold attachWork
  rw [runActVal_stopIf_bind (by rw [hok]; rfl), runActVal_bind_ok h1]
  dsimp only
  rw [runActVal_get_bind, runActVal_stopIf_bind hchecks, hfree1]
  dsimp only
  rw [runActVal_bind_ok h2, runActVal_bind_ok h3, runActVal_get_bind]
  by_cases h : fld d 96 1 = 2
  · rw [if_pos h, if_pos h, newSlot, if_pos h, ← hpcl3]
    simp [h]
    rfl
  · rw [if_neg h, if_neg h, newSlot, if_neg h]
    simp [h]

/-- What an ATTACH whose turn it is does. -/
def attachTurn (k c : Nat) (s : State) (q : QCmd) : State :=
  match runActVal (attachWork k c q.bytes) s with
  | (.error st, s) => completeHead s (sliceEng k) c q st
  | (.ok (i, x), s) =>
    if x.attached then attachDone (popQ s (sliceEng k) c) k i x q else putSlot (popQ s (sliceEng k) c) k i { x with attach := some q }

theorem pclAttach_eq (s : State) (k c : Nat) : pclAttach s k c = shardHead s k c 0x81 (attachTurn k c) := rfl

/-- An ATTACH whose checks pass. -/
theorem attach_runs {k c i : Nat} {q : QCmd} {d : Bytes} {s : State} (hcmd : Claim.shardCmd s k c 0x81 q d)
    (hdesc : descOk9 (fld q.bytes 8 8) d = true) (hc : (getSq s (shardOf (fld q.bytes 8 8) d).updq).consumer.toNat = c)
    (hnone : slotOf s (fld q.bytes 8 8) = none) (hfree : (List.range 4).find? (fun i => (getSlot s k i).isNone) = some i)
    (hbatch : fld d 88 8 % 2 ^ 48 = 0) (hst : fld d 96 1 ≠ 1) :
    ∃ u v, SameQueues s u ∧ v = (if fld d 96 1 = 2 then (stampPcl u).2 else u) ∧ u.pcl = s.pcl ∧ u.slip = s.slip ∧ u.pur = s.pur ∧
      u.mem = s.mem ∧ pclAttach s k c =
        if (newSlot s (shardOf (fld q.bytes 8 8) d) c (fld d 96 1)).attached then
          attachDone (popQ v (sliceEng k) c) k i (newSlot s (shardOf (fld q.bytes 8 8) d) c (fld d 96 1)) q
        else putSlot (popQ v (sliceEng k) c) k i { newSlot s (shardOf (fld q.bytes 8 8) d) c (fld d 96 1) with attach := some q } := by
  obtain ⟨-, -, hhead, hturn, hok, hd, hk, hin, hs, ho⟩ := hcmd
  obtain ⟨u, hturned, hrow⟩ := shardHead_runs hhead (by decide) hturn (attachTurn k c)
  have hpcl : u.pcl = s.pcl := by rw [hturned.eq]
  have hfree' : (List.range 4).find? (fun i => (getSlot u k i).isNone) = some i := by
    rw [← hfree]
    exact congrArg (fun f => (List.range 4).find? f) (funext fun i => by rw [getSlot_of_pcl hpcl])
  obtain ⟨t, hch, hwork⟩ := attachWork_runs hok (by rw [hturned.mem]; exact hd) hk hin (hturned.clean hs) (hturned.openTo ho) hdesc
    (by rw [getSq_of_slip (by rw [hturned.eq] : u.slip = s.slip)]; exact hc) (by rw [slotOf_of_pcl hpcl]; exact hnone) hfree' hbatch hst
  have hnew : newSlot u (shardOf (fld q.bytes 8 8) d) c (fld d 96 1) = newSlot s (shardOf (fld q.bytes 8 8) d) c (fld d 96 1) := by
    rw [newSlot, hpcl]; rfl
  rw [hnew] at hwork
  refine ⟨t, _, hturned.sameQueues.trans (.of_engs (by rw [hch.eq])), rfl, ?_, ?_, ?_, ?_, (pclAttach_eq s k c).trans (hrow.trans ?_)⟩
  · rw [hch.eq, hpcl]
  · rw [hch.eq, hturned.eq]
  · rw [hch.eq, hturned.eq]
  · rw [hch.mem, hturned.mem]
  · rw [attachTurn, hwork]

/-- An ATTACH whose checks pass: done with no step to recover, and waiting where a chain retires. -/
theorem shardAttaches (k c i : Nat) (q : QCmd) (d : Bytes) (s : State) (hcmd : Claim.shardCmd s k c 0x81 q d) :
    let a := fld q.bytes 8 8
    let x := shardOf a d
    let y := getSq s x.updq
    descOk9 a d = true → y.consumer.toNat = c → slotOf s a = none →
    (List.range 4).find? (fun i => (getSlot s k i).isNone) = some i → fld d 88 8 % 2 ^ 48 = 0 →
    (fld d 96 1 = 0 → Does (.pclAttach k c) s fun t =>
      Claim.headGone s t (sliceEng k) c ∧ getSlot t k i = some { shard := x, ctx := c } ∧
      (getSq t x.updq).markValid = true ∧ (getSq t x.updq).readPkt = (if y.markValid then y.markPkt else y.readPkt) ∧
      (∀ j, j ≠ i → getSlot t k j = getSlot s k j) ∧ (getSlice t k).queries = (getSlice s k).queries ∧ t.mem = s.mem) ∧
    (fld d 96 1 = 2 → Does (.pclAttach k c) s fun t =>
      Claim.headGone s t (sliceEng k) c ∧ t.pcl.order = s.pcl.order + 1 ∧
      getSlot t k i = some { shard := x, ctx := c, attached := false, flip := some s.pcl.order, attach := some q } ∧
      (∀ j, j ≠ i → getSlot t k j = getSlot s k j) ∧ t.slip = s.slip ∧ t.pur = s.pur ∧ t.mem = s.mem) := by
  intro a x y hdesc hc hnone hfree hbatch
  refine ⟨fun hst => ?_, fun hst => ?_⟩
  · obtain ⟨u, v, hsame, hv, hpcl, hslip, -, hmem, hrow⟩ := attach_runs hcmd hdesc hc hnone hfree hbatch (by omega)
    rw [if_neg (by omega)] at hv
    subst hv
    have hslot : newSlot s x c (fld d 96 1) = { shard := x, ctx := c } := by simp [newSlot, hst]
    change pclAttach s k c = if (newSlot s x c (fld d 96 1)).attached then _ else _ at hrow
    rw [hslot] at hrow
    have hends := attachDone_ends (popQ v (sliceEng k) c) k i { shard := x, ctx := c } q
    have hsq : getSq (popQ v (sliceEng k) c) x.updq = y := getSq_of_slip hslip _
    refine does_of (congrArg Host.Outcome.next hrow)
      ⟨headGone_of_same hsame (.of_engs hends.engs) (popQ_gone v _ c), hends.slot, ?_, ?_, fun j hj => ?_, ?_, ?_⟩
    · exact hends.updates ▸ atMark_valid _
    · refine (congrArg SlipQ.readPkt hends.updates).trans ?_
      rw [atMark_readPkt, hsq]
    · exact (hends.others j hj).trans (getSlot_of_pcl (t := popQ v (sliceEng k) c) hpcl k j)
    · exact hends.queries.trans (congrArg SliceSt.queries (getSlice_of_pcl (t := popQ v (sliceEng k) c) hpcl k))
    · exact hends.mem.trans hmem
  · obtain ⟨u, v, hsame, hv, hpcl, hslip, hpur, hmem, hrow⟩ := attach_runs hcmd hdesc hc hnone hfree hbatch (by omega)
    rw [if_pos hst] at hv
    have hslot : newSlot s x c (fld d 96 1) = { shard := x, ctx := c, attached := false, flip := some s.pcl.order } := by
      simp [newSlot, hst]
    change pclAttach s k c = if (newSlot s x c (fld d 96 1)).attached then _ else _ at hrow
    rw [hslot, if_neg Bool.false_ne_true] at hrow
    subst hv
    have hslots (j : Nat) : getSlot (popQ (stampPcl u).2 (sliceEng k) c) k j = getSlot s k j := by
      rw [← getSlot_of_pcl hpcl]; rfl
    refine does_of (congrArg Host.Outcome.next hrow) ⟨?_, ?_, getSlot_putSlot_self _ _ _ _, fun j hj => ?_, hslip, hpur, hmem⟩
    · exact headGone_of_same hsame (.of_engs rfl) (popQ_gone u _ c)
    · rw [← hpcl]; rfl
    · rw [getSlot_putSlot, if_neg (Ne.symm hj), hslots]

/-- A shard that holds a slot is attached no second time. -/
theorem shardAttached_fails (k c : Nat) (q : QCmd) (s : State) (hturn : Claim.hasTurn s (sliceEng k) 0 c (sliceReady s k))
    (hhead : Claim.atHead s (sliceEng k) c 0x81 q) (hslot : (slotOf s (fld q.bytes 8 8)).isSome = true) (hs : Claim.clean s)
    (hmay : mayAccess s (whoOf (sliceEng k) c) (fld q.bytes 8 8) 192 false = true) : Does (.pclAttach k c) s fun t =>
      Claim.headFails s t (sliceEng k) c q .internal ∧ t.pcl = s.pcl ∧ t.mem = s.mem := by
  obtain ⟨u, hturned, hrow⟩ := shardHead_runs hhead (by decide) hturn (attachTurn k c)
  obtain ⟨t, hch, hwork⟩ : ∃ t, Charged u t ∧ runActVal (attachWork k c q.bytes) u = (.error .internal, t) := by
    unfold attachWork
    dsimp only
    cases hok : shardCmdOk q.bytes with
    | false => exact ⟨u, .refl u, runActVal_stopIf_fails rfl⟩
    | true =>
      obtain ⟨t, ht, hch⟩ := rd_of_clean (w := whoWriter k c) (hturned.clean hs)
        ((mayAccess_of_samePrt (by rw [hturned.eq]; exact .refl _) _ _ _ _).trans hmay)
      refine ⟨t, hch, ?_⟩
      rw [runActVal_stopIf_bind (b := !true) rfl, runActVal_bind_ok ht]
      rw [runActVal_get_bind, runActVal_stopIf_fails]
      rw [slotOf_of_pcl (by rw [hch.eq, hturned.eq] : t.pcl = s.pcl), hslot, Bool.or_true]
  replace hrow : pclAttach s k c = completeHead t (sliceEng k) c q .internal := (pclAttach_eq s k c).trans (hrow.trans (by rw [attachTurn, hwork]))
  have hsame : SameQueues s t := hturned.sameQueues.trans (.of_engs (by rw [hch.eq]))
  refine does_of (congrArg Host.Outcome.next hrow) ⟨headFails_of_same hsame (.of_engs rfl) (completeHead_fails t _ c q rfl {}), ?_, ?_⟩
  · exact ((completeCmd_fr (mk := 1253756) (by decide) (Fr.refl _ _) : Fr 1253756 (popQ t (sliceEng k) c) (completeHead t (sliceEng k) c q
      .internal)).same .pcl rfl).trans (by rw [popQ_pcl, hch.eq, hturned.eq])
  · rw [completeHead_mem t EngKind.noConfusion, hch.mem, hturned.mem]

theorem Reads.get_bind {β : Type} {s : State} {k : State → Act β} {y : β} (hk : ∀ t, Charged s t → Reads s (k t) y) :
    Reads s (get >>= k) y := fun t ht => hk t ht t ht

/-- The slot that a well-formed DETACH or COMPACT of its context names. -/
theorem namedSlot_reads {s : State} {k c i : Nat} {b : Bytes} {x : WriterSlot} (hok : shardCmdOk b = true)
    (hk : bits (fld (memRead s.mem.bytes (fld b 8 8) 192) 12 1) 3 0 = k) (hin : fld b 8 8 + 192 ≤ wheelBase) (hs : Claim.clean s)
    (ho : Claim.openTo s (whoWriter k c)) (hslot : slotOf s (fld b 8 8) = some (k, i, x)) (hattach : x.attach = none)
    (hctx : x.attached = true → x.ctx = c) : Reads s (namedSlot k c b) (i, x) := by
  unfold namedSlot
  refine .check (by rw [hok]; rfl) (.bind (Reads.rd hs ho hin rfl) (.check (by simp [hk]) (.get_bind fun t ht => ?_)))
  rw [slotOf_of_pcl (by rw [ht.eq] : t.pcl = s.pcl), hslot]
  refine .check (by simp [hattach]) (.check ?_ (.pure _))
  cases h : x.attached with
  | false => rfl
  | true => simp [hctx h]

/-- A query as the detaching of its shard leaves it. -/
def abortedQuery (test : Query → Bool) (x : Query) : Query :=
  if test x && x.working then { x with verdict := some .abortedDisabled } else x

theorem getSlice_abortQueries (s : State) (test : Query → Bool) (k : Nat) : getSlice (abortQueries s test) k =
    { getSlice s k with queries := tabMap (fun _ => abortedQuery test) (getSlice s k).queries } :=
  tabGet_tabMap (α := SliceSt) {} (fun _ y => { y with queries := tabMap (fun _ => abortedQuery test) y.queries }) s.pcl.slices k rfl

theorem sliceEng_named {k : Nat} (h : k < 16) : engOfSelector (engKey (sliceEng k)) = some (sliceEng k) :=
  (by decide : ∀ k < 16, engOfSelector (engKey (sliceEng k)) = some (sliceEng k)) k h

/-- What a DETACH whose turn it is does. -/
def detachTurn (k c : Nat) (s : State) (q : QCmd) : State :=
  match runActVal (namedSlot k c q.bytes) s with
  | (.error st, s) => completeHead s (sliceEng k) c q st
  | (.ok (i, x), s) =>
    markQueued (abortQueries (putSlot (popQ s (sliceEng k) c) k i { x with attached := false, detach := x.detach ++ [(c, q)] })
      fun y => y.shard.addr = x.shard.addr) (namesShard x.shard.addr)

theorem pclDetach_eq (s : State) (k c : Nat) : pclDetach s k c = shardHead s k c 0x82 (detachTurn k c) := rfl

/-- DETACH is the disable point: the slot is no longer attached, and the queries of its shard stop. -/
theorem shardDetaches (k c i : Nat) (q : QCmd) (d : Bytes) (x : WriterSlot) (s : State) (hcmd : Claim.shardCmd s k c 0x82 q d)
    (hslot : slotOf s (fld q.bytes 8 8) = some (k, i, x)) (hattach : x.attach = none) (hctx : x.attached = true → x.ctx = c) :
    Does (.pclDetach k c) s fun t =>
      (getQ t (sliceEng k) c).queue.map (·.bytes) = (getQ s (sliceEng k) c).queue.tail.map (·.bytes) ∧
      getSlot t k i = some { x with attached := false, detach := x.detach ++ [(c, q)] } ∧
      (∀ j y, tabFind (getSlice s k).queries j = some y → y.shard.addr = x.shard.addr → y.working = true →
        tabFind (getSlice t k).queries j = some { y with verdict := some .abortedDisabled }) ∧ t.mem = s.mem := by
  obtain ⟨hk16, -, hhead, hturn, hok, hd, hk, hin, hs, ho⟩ := hcmd
  obtain ⟨u, hturned, hrow⟩ := shardHead_runs hhead (by decide) hturn (detachTurn k c)
  have hpcl : u.pcl = s.pcl := by rw [hturned.eq]
  obtain ⟨t, ht, hch⟩ := (namedSlot_reads hok (by rw [hturned.mem, ← hd]; exact hk) hin (hturned.clean hs) (hturned.openTo ho)
    (by rw [slotOf_of_pcl hpcl]; exact hslot) hattach hctx).run
  obtain ⟨v, hv⟩ : ∃ v, v = putSlot (popQ t (sliceEng k) c) k i { x with attached := false, detach := x.detach ++ [(c, q)] } := ⟨_, rfl⟩
  replace hrow : pclDetach s k c = markQueued (abortQueries v fun y => y.shard.addr = x.shard.addr) (namesShard x.shard.addr) := by
    rw [pclDetach_eq, hrow, detachTurn, ht, hv]
  have hslice : getSlice v k = { getSlice s k with
      slots := tabPut (getSlice s k).slots i { x with attached := false, detach := x.detach ++ [(c, q)] } } := by
    rw [hv, putSlot, getSlice_modSlice, getSlice_of_pcl (t := popQ t (sliceEng k) c) (s := s) (by rw [popQ_pcl, hch.eq, hpcl])]
  have hend : getSlice (pclDetach s k c) k = { getSlice v k with
      queries := tabMap (fun _ => abortedQuery fun y => y.shard.addr = x.shard.addr) (getSlice v k).queries } := by
    rw [hrow, ← getSlice_abortQueries]; rfl
  have hqueue : getQ v (sliceEng k) c = { getQ s (sliceEng k) c with queue := (getQ s (sliceEng k) c).queue.tail } := by
    have h := (popQ_gone t (sliceEng k) c).1
    rw [getQ_of_engs (by rw [hch.eq] : t.engs = u.engs), hturned.getQ] at h
    rw [hv]
    exact h
  refine does_of (t := pclDetach s k c) rfl ⟨?_, ?_, fun j y hy haddr hwork => ?_, ?_⟩
  · rw [hrow, getQ_markQueued _ _ (sliceEng_named hk16), List.map_map]
    have habort : getQ (abortQueries v fun y => y.shard.addr = x.shard.addr) (sliceEng k) c = getQ v (sliceEng k) c := rfl
    rw [habort, hqueue]
    refine List.map_congr_left fun z _ => ?_
    unfold disabledCmd
    dsimp only [Function.comp]
    split <;> rfl
  · rw [getSlot, hend, hslice]
    exact tabFind_tabPut_self _ _ _
  · rw [hend, hslice]
    show tabFind (tabMap (fun _ => abortedQuery fun y => y.shard.addr = x.shard.addr) (getSlice s k).queries) j = _
    rw [tabFind_tabMap, hy, Option.map_some, abortedQuery, if_pos (by simp [haddr, hwork])]
  · rw [hrow]
    show v.mem = _
    rw [hv]
    exact hch.mem.trans hturned.mem

/-- What a COMPACT writes to its shard's descriptor. -/
def compactWrites (x : Shard) (b : Bytes) : List (Nat × Bytes) :=
  [(x.addr + 100, toLe 4 (fld b 16 4)), (x.addr + 104, toLe 4 (fld b 16 4 + fld b 20 4))]

theorem compactWork_stores {s : State} {k c i : Nat} {b : Bytes} {x : WriterSlot} (hok : shardCmdOk b = true)
    (hk : bits (fld (memRead s.mem.bytes (fld b 8 8) 192) 12 1) 3 0 = k) (hin : fld b 8 8 + 192 ≤ wheelBase) (hs : Claim.clean s)
    (ho : Claim.openTo s (whoWriter k c)) (hslot : slotOf s (fld b 8 8) = some (k, i, x)) (hattach : x.attach = none)
    (hatt : x.attached = true) (hctx : x.ctx = c) (hlists : fld b 16 4 + fld b 20 4 ≤ x.shard.lists) (hidle : runActive s x = false) :
    Stores s [] (compactWork k c b) () (compactWrites x.shard b) := by
  have hx : x.shard.addr + 192 ≤ wheelBase := by rw [slotOf_addr hslot]; exact hin
  refine .bind (namedSlot_reads hok hk hin hs ho hslot hattach fun _ => hctx).stores (.check (by rw [hatt]; rfl) (.get_bind fun t ht => ?_))
  have hidle' : runActive t x = false := by
    rw [← hidle, runActive, runActive, dSeen, dSeen, dSeen, dSeen, dSeen, dSeen, ht.calm rfl]
  exact .check (by simp [hidle', Nat.not_lt.2 hlists])
    (.bind (dPut_stores hs ho hx (by decide)) (dPut_stores hs ho hx (by decide)))

/-- COMPACT records the run in the descriptor and writes nothing else. -/
theorem runRecorded (k c i : Nat) (q : QCmd) (d : Bytes) (x : WriterSlot) (s : State) (hcmd : Claim.shardCmd s k c 0x83 q d)
    (hslot : slotOf s (fld q.bytes 8 8) = some (k, i, x)) (hattach : x.attach = none) (hatt : x.attached = true) (hctx : x.ctx = c)
    (hlists : fld q.bytes 16 4 + fld q.bytes 20 4 ≤ x.shard.lists) (hidle : runActive s x = false) : Does (.compact k c) s fun t =>
      Claim.headGone s t (sliceEng k) c ∧ leNat (memRead t.mem.bytes (x.shard.addr + 100) 4) = fld q.bytes 16 4 ∧
      leNat (memRead t.mem.bytes (x.shard.addr + 104) 4) = (fld q.bytes 16 4 + fld q.bytes 20 4) % 2 ^ 32 ∧
      ∀ a, a < x.shard.addr + 100 ∨ x.shard.addr + 108 ≤ a → memGet t.mem.bytes a = memGet s.mem.bytes a := by
  obtain ⟨-, -, hhead, hturn, hok, hd, hk, hin, hs, ho⟩ := hcmd
  obtain ⟨u, hturned, hrow⟩ := shardHead_runs hhead (by decide) hturn fun s q =>
    completeHead (runAct (compactWork k c q.bytes) s).2 (sliceEng k) c q (runAct (compactWork k c q.bytes) s).1
  have hpcl : u.pcl = s.pcl := by rw [hturned.eq]
  have hidle' : runActive u x = false := by
    rw [← hidle, runActive, runActive, dSeen, dSeen, dSeen, dSeen, dSeen, dSeen, hturned.mem]
  obtain ⟨t, ht, hw⟩ := (compactWork_stores hok (by rw [hturned.mem, ← hd]; exact hk) hin (hturned.clean hs) (hturned.openTo ho)
    (by rw [slotOf_of_pcl hpcl]; exact hslot) hattach hatt hctx hlists hidle').act
  replace hrow : compactHead s k c = completeHead t (sliceEng k) c q .ok := hrow.trans (by rw [ht])
  have hbytes : (completeHead t (sliceEng k) c q .ok).mem.bytes = memDo s.mem.bytes (compactWrites x.shard q.bytes) := by
    rw [completeHead_mem t EngKind.noConfusion, hw.bytes, hturned.mem]
  refine does_of (congrArg Host.Outcome.next hrow)
    ⟨completeHead_ok_gone hturned.sameQueues (.of_engs (by rw [hw.eq])), ?_, ?_, fun a ha => ?_⟩
  · rw [hbytes]
    refine (congrArg leNat (memRead_memDo_wrote [] (toLe_length _ _).symm (by simp [Misses]))).trans (leNat_toLe_of_lt ?_)
    exact fld_lt q.bytes 16 4
  · rw [hbytes]
    exact (congrArg leNat (memRead_memDo_wrote [_] (toLe_length _ _).symm (by simp [Misses]))).trans (leNat_toLe _ _)
  · rw [hbytes]
    refine memGet_memDo_misses ?_
    simp [Misses, compactWrites]
    omega

/-! ### Compaction -/

/-- A turn and work that stores leave slots and slices. -/
theorem WroteAll.pcl {s t : State} {ws : List (Nat × Bytes)} (h : WroteAll s t ws) : t.pcl = s.pcl := by rw [h.eq]

section
variable {k i : Nat} {x : WriterSlot} {s : State} (hslot : getSlot s k i = some x) (hruns : writerRuns s x = true)
  (hready : pieceReady s x = true) (hnext : x.packetLast = true ∨ packetReady s x = false)
  (hturn : Claim.hasTurn s (sliceEng k) 0 x.ctx (sliceReady s k))
include hslot hruns hready hnext hturn

/-- A piece whose turn it is runs. -/
theorem piece_runs : ∃ u, Turned s u (sliceEng k) 0 ∧ compactionPiece s k i = match runActVal (pieceWork k i x) u with
      | (.error st, s) => abandonStep s k i x st
      | (.ok (step, flipped), s) =>
        if flipped then
          modSlice (putSlot (stampPcl s).2 k i { x with step := none, packetLast := false, flip := some (stampPcl s).1 }) k
            fun y => { y with flips := y.flips + 1 }
        else putSlot s k i { x with step := step, packetLast := false } := by
  obtain ⟨u, hu, hturned⟩ := takeTurn_of hturn
  have hgo : (!writerRuns s x || !pieceReady s x || (!x.packetLast && packetReady s x)) = false := by
    rw [hruns, hready]
    obtain h | h := hnext <;> simp [h]
  refine ⟨u, hturned, ?_⟩
  simp only [compactionPiece, hslot, hgo, hu, Bool.false_eq_true, if_false] <;> rfl

end

/-- A list with nothing to copy is passed over. -/
theorem pieceWork_passes {k i : Nat} {x : WriterSlot} {s : State} (hs : Claim.clean s) (ho : Claim.openTo s (whoWriter k x.ctx))
    (hx : x.shard.addr + 192 ≤ wheelBase) (hstep : x.step = none)
    (hin : x.shard.heads + 32 * dSeen s x.shard 100 4 + 32 ≤ wheelBase)
    (hempty : (headOf (memRead s.mem.bytes (x.shard.heads + 32 * dSeen s x.shard 100 4) 32)).head =
      (headOf (memRead s.mem.bytes (x.shard.heads + 32 * dSeen s x.shard 100 4) 32)).tail) :
    Stores s [] (pieceWork k i x) (none, false) (nextWrites s x.shard) := by
  refine .bind (descReady_stores hs ho hx) (.bind (x := none) (q := nextWrites s x.shard) ?_ (.pure _))
  rw [hstep]
  refine .bind (dGet_stores hs ho hx (by decide) (by simp [Misses])) (.bind (rdHead_stores hs ho hin (by simp [Misses])) ?_)
  rw [if_pos hempty]
  exact .bind (nextList_stores hs ho hx) (.pure _)

/-- The head entry of a list whose chain is one block, once it has flipped. -/
def flippedHead (s : State) (x : Shard) (z : CmpStep) : HeadEntry :=
  { head := z.tail, tail := (headOf (memRead s.mem.bytes (x.heads + 32 * z.list) 32)).tail
    slots := (hdrOf (memRead s.mem.bytes z.tail 64)).count, blocks := 1
    flips := (headOf (memRead s.mem.bytes (x.heads + 32 * z.list) 32)).flips + 1 }

/-- What the flip to a chain of one block writes to the descriptor. -/
def flipDesc (s : State) (x : Shard) (z : CmpStep) : List (Nat × Bytes) :=
  [(x.addr + 84, toLe 4 (dSeen s x 84 4 + (hdrOf (memRead s.mem.bytes z.tail 64)).count -
      (headOf (memRead s.mem.bytes (x.heads + 32 * z.list) 32)).slots)),
    (x.addr + 136, toLe 8 (max (dSeen s x 136 6) z.floor)), (x.addr + 96, toLe 1 2)] ++
  chainWrites x (z.old.headD 0) (z.old.getLastD 0) z.old.length

section
variable {s : State} {w : Who} (hs : Claim.clean s) (ho : Claim.openTo s w)
include hs ho

/-- A chain of one block. -/
theorem walkChain_one {p : List (Nat × Bytes)} {a n : Nat} (hn : 2 ≤ n) (ha : a ≠ 0) (hin : a + 64 ≤ wheelBase) (hm : Misses p a 64)
    (hlast : fld (memRead s.mem.bytes a 64) 0 8 = 0) : Stores s p (walkChain w n a) [a] p := by
  obtain ⟨m, rfl⟩ : ∃ m, n = m + 2 := ⟨n - 2, by omega⟩
  rw [walkChain, if_neg ha]
  refine .bind (rdHdr_stores hs ho hin hm) (.bind (x := []) (q := p) ?_ (.pure _))
  rw [show (hdrOf (memRead s.mem.bytes a 64)).next = 0 from hlast, walkChain, if_pos rfl]
  exact .pure _

theorem flipStep_stores {x : Shard} {z : CmpStep} (hx : x.addr + 192 ≤ wheelBase) (hnew : z.new = []) (htail : z.tail ≠ 0)
    (hin : z.tail + 64 ≤ wheelBase) (hhead : x.heads + 32 * z.list + 32 ≤ wheelBase)
    (hapart : x.heads + 32 * z.list + 32 ≤ x.addr ∨ x.addr + 192 ≤ x.heads + 32 * z.list)
    (hlast : fld (memRead s.mem.bytes z.tail 64) 0 8 = 0) : Stores s [] (flipStep w x z) ()
      ((x.heads + 32 * z.list, headBytes (flippedHead s x z)) :: flipDesc s x z) := by
  have hnone (a n : Nat) : Misses [] a n := by simp [Misses]
  unfold flipStep
  rw [hnew]
  refine .bind (rdHead_stores hs ho hhead (hnone _ _)) (.bind (walkChain_one hs ho (by decide) htail hin (hnone _ _) hlast)
    (.bind (x := [(hdrOf (memRead s.mem.bytes z.tail 64)).count]) (q := []) ?_ (.bind (mayWrite_stores ho hhead) ?_)))
  · exact .bind (.bind (rdHdr_stores hs ho hin (hnone _ _)) (.pure _)) (.bind (.pure _) (.pure _))
  · dsimp only
    rw [if_neg (by simp), List.sum_singleton]
    have hmiss {o n : Nat} (h : o + n ≤ 192) : Misses [(x.heads + 32 * z.list, headBytes (flippedHead s x z))] (x.addr + o) n := by
      simp [Misses, headBytes]
      omega
    refine .bind (wrHead_stores hs ho (flippedHead s x z) hhead) (.bind (dGet_stores hs ho hx (by decide) (hmiss (by decide)))
      (.bind (dPut_stores hs ho hx (by decide)) (.bind (dGet_stores hs ho hx (by decide) ?_) (.bind (dPut_stores hs ho hx (by decide))
        (.bind (dPut_stores hs ho hx (by decide)) (dChain_stores hs ho hx _ _ _))))))
    exact List.forall_mem_append.2 ⟨hmiss (by decide), by simp⟩

end

theorem pieceWork_flips {k i : Nat} {x : WriterSlot} {z : CmpStep} {s : State} (hs : Claim.clean s)
    (ho : Claim.openTo s (whoWriter k x.ctx)) (hx : x.shard.addr + 192 ≤ wheelBase) (hstep : x.step = some z) (hnext : z.next = z.tail)
    (hnew : z.new = []) (htail : z.tail ≠ 0) (hin : z.tail + 64 ≤ wheelBase) (hhead : x.shard.heads + 32 * z.list + 32 ≤ wheelBase)
    (hapart : x.shard.heads + 32 * z.list + 32 ≤ x.shard.addr ∨ x.shard.addr + 192 ≤ x.shard.heads + 32 * z.list)
    (hlast : fld (memRead s.mem.bytes z.tail 64) 0 8 = 0) : Stores s [] (pieceWork k i x) (none, true)
      ((x.shard.heads + 32 * z.list, headBytes (flippedHead s x.shard z)) :: flipDesc s x.shard z) := by
  have hdone : (decide (z.next = z.tail) || decide (z.next = 0)) = true := by simp [hnext]
  refine .bind (descReady_stores hs ho hx) (.bind (x := some z) (q := []) ?_ (.bind (x := z) (q := []) ?_ ?_))
  · rw [hstep]
    exact .pure _
  · rw [copyBlocks, if_pos hdone]
    exact .pure _
  · rw [if_pos hdone]
    exact .bind (flipStep_stores hs ho hx hnew htail hin hhead hapart hlast) (.pure _)

theorem flipDesc_misses {s : State} {x : Shard} {z : CmpStep} {a n : Nat} (h : a + n ≤ x.addr + 84 ∨ x.addr + 144 ≤ a) :
    Misses (flipDesc s x z) a n := by
  simp [Misses, flipDesc, chainWrites]
  omega

/-- A piece of a compaction on a list with nothing to copy, and on one whose copy has reached the old tail. -/
theorem piecesCompact (k i : Nat) (x : WriterSlot) (s : State) (hslot : getSlot s k i = some x) (hruns : writerRuns s x = true)
    (hready : pieceReady s x = true) (hnext : x.packetLast = true ∨ packetReady s x = false)
    (hturn : Claim.hasTurn s (sliceEng k) 0 x.ctx (sliceReady s k)) (hs : Claim.clean s) (ho : Claim.openTo s (whoWriter k x.ctx)) :
    let sh := x.shard
    let d := memRead s.mem.bytes sh.addr 192
    sh.addr + 192 ≤ wheelBase →
    (let at_ := sh.heads + 32 * fld d 100 4
     let he := memRead s.mem.bytes at_ 32
     x.step = none → at_ + 32 ≤ wheelBase → fld he 0 8 = fld he 8 8 → Does (.compactionPiece k i) s fun t =>
      getSlot t k i = some { x with packetLast := false } ∧ (getSlice t k).flips = (getSlice s k).flips ∧
      leNat (memRead t.mem.bytes (sh.addr + 96) 1) = 0 ∧
      leNat (memRead t.mem.bytes (sh.addr + 100) 4) = (fld d 100 4 + 1) % 2 ^ 32 ∧
      ∀ a, a < sh.addr + 96 ∨ sh.addr + 136 ≤ a → memGet t.mem.bytes a = memGet s.mem.bytes a) ∧
    ∀ z, let at_ := sh.heads + 32 * z.list
     x.step = some z → z.next = z.tail → z.tail ≠ 0 → z.new = [] → z.tail + 64 ≤ wheelBase → at_ + 32 ≤ wheelBase →
     (at_ + 32 ≤ sh.addr ∨ sh.addr + 192 ≤ at_) → z.tail < 2 ^ 64 → fld (memRead s.mem.bytes z.tail 64) 0 8 = 0 →
     Does (.compactionPiece k i) s fun t =>
      getSlot t k i = some { x with step := none, packetLast := false, flip := some s.pcl.order } ∧
      t.pcl.order = s.pcl.order + 1 ∧ (getSlice t k).flips = (getSlice s k).flips + 1 ∧
      fld (memRead t.mem.bytes at_ 32) 0 8 = z.tail ∧ leNat (memRead t.mem.bytes (sh.addr + 96) 1) = 2 ∧
      ∀ a, (a < sh.addr + 84 ∨ sh.addr + 144 ≤ a) → (a < at_ ∨ at_ + 32 ≤ a) →
        memGet t.mem.bytes a = memGet s.mem.bytes a := by
  intro sh d hx
  obtain ⟨u, hturned, hrow⟩ := piece_runs hslot hruns hready hnext hturn
  have hmem : u.mem = s.mem := hturned.mem
  have hpcl : u.pcl = s.pcl := by rw [hturned.eq]
  have hu : Claim.clean u := hturned.clean hs
  have hopen : Claim.openTo u (whoWriter k x.ctx) := hturned.openTo ho
  have hseen : dSeen u sh 100 4 = fld d 100 4 := by rw [dSeen, hmem]; exact (fld_memRead _ _ _ _ _ (by decide)).symm
  refine ⟨fun hstep hin hempty => ?_, fun z hstep hz htail hnew hin hhead hapart hlt hlast => ?_⟩
  · obtain ⟨v, hv, hw⟩ := (pieceWork_passes hu hopen hx hstep (by rw [hseen]; exact hin) (by rw [hseen, hmem]; exact hempty)).run
    rw [hv] at hrow
    dsimp only at hrow
    rw [if_neg Bool.false_ne_true] at hrow
    have hvpcl : v.pcl = s.pcl := hw.pcl.trans hpcl
    have hbytes : v.mem.bytes = memDo s.mem.bytes (nextWrites u sh) := by rw [hw.bytes, hmem]
    refine does_of (congrArg Host.Outcome.next hrow) ⟨?_, ?_, ?_, ?_, fun a ha => ?_⟩
    · rw [getSlot_putSlot_self, hstep]
    · rw [putSlot, getSlice_modSlice, getSlice_of_pcl hvpcl]
    · refine (congrArg leNat (?_ : memRead v.mem.bytes (sh.addr + 96) 1 = toLe 1 0)).trans (leNat_toLe _ _)
      rw [hbytes]
      exact memRead_memDo_wrote [] rfl (by simp [Misses, chainWrites])
    · refine (congrArg leNat (?_ : memRead v.mem.bytes (sh.addr + 100) 4 = toLe 4 (dSeen u sh 100 4 + 1))).trans ?_
      · rw [hbytes]
        exact memRead_memDo_wrote (_ :: _ :: chainWrites sh 0 0 0) rfl (by simp [Misses])
      · rw [leNat_toLe, hseen]
        rfl
    · show memGet v.mem.bytes a = _
      rw [hbytes, memGet_memDo_misses (nextWrites_misses (by omega))]
  · obtain ⟨v, hv, hw⟩ := (pieceWork_flips (k := k) (i := i) hu hopen hx hstep hz hnew htail hin hhead hapart (by rw [hmem]; exact hlast)).run
    rw [hv] at hrow
    dsimp only at hrow
    rw [if_pos rfl] at hrow
    have hvpcl : v.pcl = s.pcl := hw.pcl.trans hpcl
    obtain ⟨h, hh⟩ : ∃ h, h = flippedHead u sh z := ⟨_, rfl⟩
    have hbytes : v.mem.bytes = memDo s.mem.bytes ((sh.heads + 32 * z.list, headBytes h) :: flipDesc u sh z) := by
      rw [hw.bytes, hmem, hh]
    have hlen : (headBytes h).length = 32 := by simp [headBytes]
    refine does_of (congrArg Host.Outcome.next hrow) ⟨?_, ?_, ?_, ?_, ?_, fun a ha hb => ?_⟩
    · rw [getSlot, getSlice_modSlice, ← hvpcl]
      exact getSlot_putSlot_self _ _ _ _
    · rw [← hvpcl]; rfl
    · rw [getSlice_modSlice, putSlot, getSlice_modSlice]
      show (getSlice v k).flips + 1 = _
      rw [getSlice_of_pcl hvpcl]
    · have hread : memRead v.mem.bytes (sh.heads + 32 * z.list) 32 = headBytes h := by
        rw [hbytes]
        exact memRead_memDo_wrote [] hlen.symm (flipDesc_misses (by omega))
      show fld (memRead v.mem.bytes (sh.heads + 32 * z.list) 32) 0 8 = z.tail
      rw [hread, headBytes, List.append_assoc, List.append_assoc, List.append_assoc, List.append_assoc,
        fld_append_left _ (by simp), fld_toLe, hh]
      exact Nat.mod_eq_of_lt hlt
    · refine (congrArg leNat (?_ : memRead v.mem.bytes (sh.addr + 96) 1 = toLe 1 2)).trans (leNat_toLe _ _)
      rw [hbytes]
      exact memRead_memDo_wrote [_, _, _] rfl (by simp [Misses, chainWrites])
    · show memGet v.mem.bytes a = _
      rw [hbytes]
      refine memGet_memDo_misses (List.forall_mem_cons.2 ⟨?_, flipDesc_misses (by omega)⟩)
      rw [hlen]
      omega

/-- The old chain, once no query needs it, goes back; here the step record holds none. -/
theorem chainRetires (k i o : Nat) (x : WriterSlot) (s : State) (hslot : getSlot s k i = some x) (hflip : x.flip = some o) :
    ((∃ y ∈ activeOn s x.shard.addr, y.order < o) → exec (.compactionRetire k i) s = .next s) ∧
    ((∀ y ∈ activeOn s x.shard.addr, o ≤ y.order) → x.stopped = false → (writerRuns s x = true ∨ x.attach.isSome = true) →
      Claim.hasTurn s (sliceEng k) 0 x.ctx (sliceReady s k) → Claim.clean s → Claim.openTo s (whoWriter k x.ctx) →
      x.shard.addr + 192 ≤ wheelBase → leNat (memRead s.mem.bytes (x.shard.addr + 108) 4) = 0 →
      Does (.compactionRetire k i) s fun t =>
        getSlot t k i = some { x with attached := x.attached || x.attach.isSome, attach := none, flip := none } ∧
        (x.attach.isSome = true → (getSq t x.shard.updq).markValid = true) ∧
        memGet t.mem.bytes (x.shard.addr + 96) = 0 ∧
        ∀ a, a < x.shard.addr + 96 ∨ x.shard.addr + 136 ≤ a → memGet t.mem.bytes a = memGet s.mem.bytes a) := by
  refine ⟨fun ⟨y, hy, hlt⟩ => ?_, fun hold hstop hruns hturn hs ho hx hheld => ?_⟩
  · have hno : retireReady s x = false := by
      rw [retireReady, hflip, Option.any_some, Bool.and_eq_false_iff]
      exact .inr (List.all_eq_false.2 ⟨y, hy, by simpa using hlt⟩)
    refine congrArg Host.Outcome.next ?_
    simp only [compactionRetire, hslot, hno, Bool.not_false, if_true]
  · have hready : retireReady s x = true := by
      rw [retireReady, hflip, Option.any_some, hstop, Bool.not_false, Bool.and_true, Bool.and_eq_true, Bool.or_eq_true]
      exact ⟨hruns, List.all_eq_true.2 fun y hy => by simpa using hold y hy⟩
    obtain ⟨u, hu, hturned⟩ := takeTurn_of hturn
    have hmem : u.mem = s.mem := hturned.mem
    have hheld' : dSeen u x.shard 108 4 = 0 := by rw [dSeen, hmem]; exact hheld
    obtain ⟨v, hv, hw⟩ := (giveHeld_stores (hturned.clean hs) (hturned.openTo ho) hx hheld').act
    have hbytes : v.mem.bytes = memDo s.mem.bytes (nextWrites u x.shard) := by rw [hw.bytes, hmem]
    have hpcl : v.pcl = s.pcl := by rw [hw.pcl, hturned.eq]
    have hzero : memGet v.mem.bytes (x.shard.addr + 96) = 0 := by
      have h1 : memRead v.mem.bytes (x.shard.addr + 96) 1 = toLe 1 0 := by
        rw [hbytes]
        refine memRead_memDo_wrote [] rfl ?_
        simp [Misses, chainWrites]
      exact List.head_eq_of_cons_eq h1
    have hkept (a : Nat) (ha : a < x.shard.addr + 96 ∨ x.shard.addr + 136 ≤ a) : memGet v.mem.bytes a = memGet s.mem.bytes a := by
      rw [hbytes, memGet_memDo_misses (nextWrites_misses (by omega))]
    cases hatt : x.attach with
    | none =>
      have hrow : compactionRetire s k i = putSlot v k i { x with flip := none } := by
        simp only [compactionRetire, hslot, hready, hu, hv, hatt, Bool.not_true, Bool.false_eq_true, if_false, if_true]
      refine does_of (congrArg Host.Outcome.next hrow) ⟨?_, fun h => absurd h (by simp), hzero, hkept⟩
      simp [hatt]
    | some q =>
      have hrow : compactionRetire s k i = attachDone v k i x q := by
        simp only [compactionRetire, hslot, hready, hu, hv, hatt, Bool.not_true, Bool.false_eq_true, if_false, if_true]
      have hends := attachDone_ends v k i x q
      refine does_of (congrArg Host.Outcome.next hrow) ⟨?_, fun _ => ?_, ?_, fun a ha => ?_⟩
      · rw [hends.slot]; simp
      · rw [hends.updates]; exact atMark_valid _
      · rw [hends.mem]; exact hzero
      · rw [hends.mem]; exact hkept a ha

end Sys2Proof.Proofs
end

