-- ==== Sys2Proof/Proofs/UpdatePackets.lean ====
section
/-! PROOFS. Update packets: how one is read, applied or rejected, and released (spec/09 R227-R231, R243, R495). -/

namespace Sys2Proof.Proofs

open Sys2Proof Sys2Proof.Machine Sys2Proof.Laws

/-! ### Releasing a packet -/

/-- Beside its read position, the release of a queue's front changes how far it is free and what it holds. -/
theorem releaseQ_sq (s : State) (q : Nat) : ∃ f l, getSq (releaseQ s q false) q = { getSq s q with free := f, items := l } := by
  obtain ⟨f, hf⟩ : ∃ f, f = max (getSq s q).free.toNat (releaseLimit (getSq s q)) := ⟨_, rfl⟩
  obtain ⟨u, hu⟩ : ∃ u, u = modSq s q fun x => { x with free := w64 f, items := x.items.filter fun r => f < r.pos + r.len } := ⟨_, rfl⟩
  have hfold (l : List Resv) (v : State) : (l.foldl (returnCredit q) v).slip.queues = v.slip.queues := by
    induction l generalizing v with
    | nil => rfl
    | cons r l ih => exact (ih _).trans (returnCredit_queues q v r)
  refine ⟨w64 f, (getSq s q).items.filter fun r => f < r.pos + r.len, ?_⟩
  have hrow : releaseQ s q false = ((getSq s q).items.filter fun r => r.pos + r.len ≤ f).foldl (returnCredit q) u := by
    rw [hu, hf]; rfl
  rw [hrow, getSq, hfold, ← getSq, hu, Proofs.getSq_modSq]

/-- A packet released: the queue stands at the next one, and the mark with it. -/
theorem releasePacket_sq (s : State) (q : Nat) (h : (getSq s q).readPkt.toNat < (getSq s q).commit.toNat) :
    (getSq (releasePacket s q) q).readPkt = (getSq s q).readPkt + 1 ∧ (getSq (releasePacket s q) q).readOff = 0 ∧
    (getSq (releasePacket s q) q).markValid = true := by
  obtain ⟨f, l, hsq⟩ := releaseQ_sq (modSq s q fun x => setMark ((dropRest x).getD x)) q
  rw [releasePacket, hsq, Proofs.getSq_modSq, dropRest, if_pos h]
  exact ⟨rfl, rfl, rfl⟩

theorem releasePacket_leaves (s : State) (q : Nat) : (releasePacket s q).pcl = s.pcl ∧ (releasePacket s q).mem = s.mem ∧
    (releasePacket s q).evt = s.evt := by
  have h : Fr 384 s (releasePacket s q) := releasePacket_fr (by decide) (Fr.refl _ _)
  exact ⟨h.same .pcl rfl, h.same .mem rfl, h.same .evt rfl⟩

/-- A packet rejected is counted, logged and released. -/
theorem rejectPacket_leaves (s : State) (k : Nat) (x : WriterSlot) (n : Nat)
    (h : (getSq s x.shard.updq).readPkt.toNat < (getSq s x.shard.updq).commit.toNat) :
    (getSq (rejectPacket s k x n) x.shard.updq).readPkt = (getSq s x.shard.updq).readPkt + 1 ∧
    (getSq (rejectPacket s k x n) x.shard.updq).readOff = 0 ∧ (getSq (rejectPacket s k x n) x.shard.updq).markValid = true ∧
    (getSlice (rejectPacket s k x n) k).rejected = (getSlice s k).rejected + 1 ∧
    (getSlice (rejectPacket s k x n) k).queries = (getSlice s k).queries ∧ (rejectPacket s k x n).mem = s.mem ∧
    (s.evt.buf < 256 → (tabGet {} (rejectPacket s k x n).evt.log (s.evt.head.toNat % 65536)).code = some .updateRejected) := by
  obtain ⟨e, he⟩ : ∃ e : EvtEntry, e = { code := some .updateRejected, source := engSrc (sliceEng k), ctx := some (BitVec.ofNat 7 x.ctx)
                                         detail := toLe 8 x.shard.addr ++ toLe 8 n } := ⟨_, rfl⟩
  obtain ⟨u, hu⟩ : ∃ u, u = modSlice (logEntry s e) k fun y => { y with rejected := y.rejected + 1 } := ⟨_, rfl⟩
  have hrow : rejectPacket s k x n = releasePacket u x.shard.updq := by rw [hu, he]; rfl
  have hlog : Fr 1048580 s (logEntry s e) := logEntry_fr (by decide) (Fr.refl _ _)
  have hsq : getSq u x.shard.updq = getSq s x.shard.updq := getSq_of_slip (by rw [hu]; exact hlog.same .slip rfl) _
  have hslice : getSlice u k = { getSlice s k with rejected := (getSlice s k).rejected + 1 } := by
    rw [hu, getSlice_modSlice, getSlice_of_pcl (hlog.same .pcl rfl)]
  obtain ⟨hpkt, hoff, hmark⟩ := releasePacket_sq u x.shard.updq (by rw [hsq]; exact h)
  obtain ⟨hpcl, hmem, hevt⟩ := releasePacket_leaves u x.shard.updq
  rw [hrow]
  refine ⟨hsq ▸ hpkt, hoff, hmark, ?_, ?_, ?_, fun hroom => ?_⟩
  · rw [getSlice_of_pcl hpcl, hslice]
  · rw [getSlice_of_pcl hpcl, hslice]
  · rw [hmem, hu]
    exact hlog.same .mem rfl
  · rw [hevt, hu]
    show (tabGet {} (logEntry s e).evt.log _).code = _
    rw [logEntry_entry _ hroom, he]

/-! ### The turn -/

/-- The state in which a packet is applied. -/
def packetState (s : State) (k i : Nat) (x : WriterSlot) : State :=
  modSq (putSlot s k i { x with packetLast := true }) x.shard.updq setMark

/-- A packet whose turn it is, is applied, then released or rejected. -/
theorem packet_runs {k i : Nat} {x : WriterSlot} {s : State} (h : Claim.packetRuns s k i x) : ∃ u, Turned s u (sliceEng k) 0 ∧
    updatePacketApply s k i =
      let y := getSq s x.shard.updq
      let r := applyPacket (whoWriter k x.ctx) x.shard y y.readPkt.toNat (packetState u k i x)
      if r.1 then releasePacket r.2 x.shard.updq else rejectPacket r.2 k x y.readPkt.toNat := by
  obtain ⟨-, hslot, hruns, hready, hlast, hturn⟩ := h
  obtain ⟨u, hu, hturned⟩ := takeTurn_of hturn
  have hgo : (!writerRuns s x || !packetReady s x || (x.packetLast && pieceReady s x)) = false := by
    rw [hruns, hready]
    obtain h | h := hlast <;> simp [h]
  refine ⟨u, hturned, ?_⟩
  simp only [updatePacketApply, hslot, hgo, hu, Bool.false_eq_true, if_false]
  rw [getSq_of_slip (by rw [hturned.eq] : u.slip = s.slip)]
  rfl

section
variable {s u : State} {k i : Nat} {x : WriterSlot} (hturned : Turned s u (sliceEng k) 0)
include hturned

theorem packetState_mem : (packetState u k i x).mem = s.mem := hturned.mem

theorem packetState_evt : (packetState u k i x).evt = s.evt := by rw [hturned.eq]; rfl

theorem packetState_sq : getSq (packetState u k i x) x.shard.updq = setMark (getSq s x.shard.updq) := by
  rw [packetState, Proofs.getSq_modSq]
  exact congrArg setMark (getSq_of_slip (by rw [hturned.eq]; rfl) _)

theorem packetState_slice : (getSlice (packetState u k i x) k).rejected = (getSlice s k).rejected ∧
    (getSlice (packetState u k i x) k).queries = (getSlice s k).queries := by
  have h : getSlice (packetState u k i x) k = getSlice (putSlot u k i { x with packetLast := true }) k := rfl
  rw [h, putSlot, getSlice_modSlice, getSlice_of_pcl (by rw [hturned.eq] : u.pcl = s.pcl)]
  exact ⟨rfl, rfl⟩

theorem packetState_clean (hs : Claim.clean s) : Claim.clean (packetState u k i x) := clean_of_mem hs (packetState_mem hturned)

theorem packetState_may (w : Who) (a n : Nat) (b : Bool) : mayAccess (packetState u k i x) w a n b = mayAccess s w a n b :=
  mayAccess_of_samePrt (by rw [show (packetState u k i x).prt = u.prt from rfl, hturned.eq]; exact .refl _) _ _ _ _

end

/-- Whatever a packet holds, it is read once and released, with the mark after it. -/
theorem packetIsRead {k i : Nat} {x : WriterSlot} {s : State} (h : Claim.packetRuns s k i x) :
    Does (.updatePacketApply k i) s fun t =>
      (getSq t x.shard.updq).readPkt = (getSq s x.shard.updq).readPkt + 1 ∧ (getSq t x.shard.updq).readOff = 0 ∧
      (getSq t x.shard.updq).markValid = true ∧
      ((getSlice t k).rejected = (getSlice s k).rejected ∨ (getSlice t k).rejected = (getSlice s k).rejected + 1) ∧
      (getSlice t k).queries = (getSlice s k).queries := by
  obtain ⟨u, hturned, hrow⟩ := packet_runs h
  obtain ⟨-, -, -, hready, -⟩ := h
  obtain ⟨r, hr⟩ : ∃ r, r = applyPacket (whoWriter k x.ctx) x.shard (getSq s x.shard.updq) (getSq s x.shard.updq).readPkt.toNat
    (packetState u k i x) := ⟨_, rfl⟩
  have hfr : Fr 1048620 (packetState u k i x) r.2 := by rw [hr]; exact applyPacket_fr (by decide) (Fr.refl _ _)
  have hsq : getSq r.2 x.shard.updq = setMark (getSq s x.shard.updq) :=
    (getSq_of_slip (hfr.same .slip rfl) _).trans (packetState_sq hturned)
  have hlt : (getSq r.2 x.shard.updq).readPkt.toNat < (getSq r.2 x.shard.updq).commit.toNat := by
    rw [hsq]
    rw [packetReady, Bool.and_eq_true, decide_eq_true_eq] at hready
    exact hready.2
  have hslice : getSlice r.2 k = getSlice (packetState u k i x) k := getSlice_of_pcl (hfr.same .pcl rfl) k
  obtain ⟨hrej, hqueries⟩ := packetState_slice (k := k) (i := i) (x := x) hturned
  have hpkt : (getSq r.2 x.shard.updq).readPkt = (getSq s x.shard.updq).readPkt := by rw [hsq]; rfl
  dsimp only at hrow
  rw [← hr] at hrow
  cases hok : r.1 with
  | true =>
    rw [hok, if_pos rfl] at hrow
    obtain ⟨h1, h2, h3⟩ := releasePacket_sq r.2 x.shard.updq hlt
    have hend := getSlice_of_pcl (releasePacket_leaves r.2 x.shard.updq).1 k
    exact does_of (congrArg Host.Outcome.next hrow)
      ⟨hpkt ▸ h1, h2, h3, .inl (by rw [hend, hslice, hrej]), by rw [hend, hslice, hqueries]⟩
  | false =>
    rw [hok, if_neg Bool.false_ne_true] at hrow
    obtain ⟨h1, h2, h3, h4, h5, -⟩ := rejectPacket_leaves r.2 k x (getSq s x.shard.updq).readPkt.toNat hlt
    exact does_of (congrArg Host.Outcome.next hrow)
      ⟨hpkt ▸ h1, h2, h3, .inr (by rw [h4, hslice, hrej]), by rw [h5, hslice, hqueries]⟩

/-! ### A packet of no word -/

/-- A packet whose frame names no word is no plan. -/
theorem planPacket_empty (w : Who) (sh : Shard) (s : State) : runActVal (planPacket w sh []) s = (.error .internal, s) := by
  unfold planPacket
  have hnone : fld [] 4 4 = 0 := rfl
  exact runActVal_stopIf_fails (by simp [hnone])

/-- A packet whose frame names no word is rejected. -/
theorem emptyPacket_rejected {k i : Nat} {x : WriterSlot} {s : State} (h : Claim.packetRuns s k i x) (hs : Claim.clean s)
    (hmay : mayAccess s (whoWriter k x.ctx) (frameAddr (getSq s x.shard.updq) (getSq s x.shard.updq).readPkt.toNat) 16 false = true)
    (hnone : fld (memRead s.mem.bytes (frameAddr (getSq s x.shard.updq) (getSq s x.shard.updq).readPkt.toNat) 16) 8 2 = 0) :
    Does (.updatePacketApply k i) s fun t => (getSlice t k).rejected = (getSlice s k).rejected + 1 ∧ t.mem = s.mem ∧
      (s.evt.buf < 256 → (tabGet {} t.evt.log (s.evt.head.toNat % 65536)).code = some .updateRejected) := by
  obtain ⟨u, hturned, hrow⟩ := packet_runs h
  obtain ⟨-, -, -, hready, -⟩ := h
  obtain ⟨v, hv⟩ : ∃ v, v = packetState u k i x := ⟨_, rfl⟩
  have hmem : v.mem = s.mem := hv ▸ packetState_mem hturned
  obtain ⟨t, ht, hch⟩ := rd_of_clean (clean_of_mem hs hmem)
    (by rw [hv, packetState_may hturned]; exact hmay : mayAccess v (whoWriter k x.ctx) _ 16 false = true)
  have hstop : applyPacket (whoWriter k x.ctx) x.shard (getSq s x.shard.updq) (getSq s x.shard.updq).readPkt.toNat v = (false, t) := by
    have hwords : runActVal (packetWords (whoWriter k x.ctx) (getSq s x.shard.updq) (getSq s x.shard.updq).readPkt.toNat) v =
        (.ok [], t) := by
      rw [packetWords, runActVal_bind_ok ht, hmem, hnone]
      rfl
    rw [applyPacket, runActVal_bind_ok hwords, planPacket_empty]
  dsimp only at hrow
  rw [← hv, hstop, if_neg Bool.false_ne_true] at hrow
  have hsq : getSq t x.shard.updq = setMark (getSq s x.shard.updq) :=
    (getSq_of_slip (by rw [hch.eq]) _).trans (hv ▸ packetState_sq hturned)
  have hlt : (getSq t x.shard.updq).readPkt.toNat < (getSq t x.shard.updq).commit.toNat := by
    rw [hsq]
    rw [packetReady, Bool.and_eq_true, decide_eq_true_eq] at hready
    exact hready.2
  obtain ⟨-, -, -, hrej, -, hkept, hlog⟩ := rejectPacket_leaves t k x (getSq s x.shard.updq).readPkt.toNat hlt
  have hevt : t.evt = s.evt := by
    rw [hch.eq]
    show v.evt = _
    rw [hv]
    exact packetState_evt hturned
  have hslice : (getSlice t k).rejected = (getSlice s k).rejected := by
    rw [getSlice_of_pcl (by rw [hch.eq] : t.pcl = v.pcl), hv]
    exact (packetState_slice hturned).1
  rw [hevt] at hlog
  exact does_of (congrArg Host.Outcome.next hrow) ⟨by rw [hrej, hslice], hkept.trans (hch.mem.trans hmem), hlog⟩

/-! ### The plan of a packet -/

section
variable {s : State} {w : Who} (hs : Claim.clean s) (ho : Claim.openTo s w)
include hs ho

theorem dGet_reads {x : Shard} (hx : x.addr + 192 ≤ wheelBase) {off n : Nat} (h : off + n ≤ 192) :
    Reads s (dGet w x off n) (dSeen s x off n) := .rdNat hs ho (by omega)

theorem rdHead_reads {x : Shard} {l : Nat} (hin : x.heads + 32 * l + 32 ≤ wheelBase) :
    Reads s (rdHead w x l) (headOf (memRead s.mem.bytes (x.heads + 32 * l) 32)) := .bind (.rd hs ho hin rfl) (.pure _)

theorem rdHdr_reads {a : Nat} (hin : a + 64 ≤ wheelBase) : Reads s (rdHdr w a) (hdrOf (memRead s.mem.bytes a 64)) :=
  .bind (.rd hs ho hin rfl) (.pure _)

omit hs in
theorem mayWrite_reads {a n : Nat} (h : a + n ≤ wheelBase) : Reads s (mayWrite w a n) () := fun t ht => ⟨t, by
  rw [mayWrite, runActVal_get_bind, openTo_of_samePrt ht.prt ho _ _ true h]
  rfl, ht⟩

/-- The words of a packet, as its frame names them. -/
theorem packetWords_reads {y : SlipQ} (hring : y.base.toNat + 48 * y.size ≤ wheelBase) (n : Nat) :
    Reads s (packetWords w y n) ((List.range (fld (memRead s.mem.bytes (frameAddr y n) 16) 8 2)).map fun i =>
      memRead s.mem.bytes (wordAddr y (fld (memRead s.mem.bytes (frameAddr y n) 16) 0 8 + i)) 32) := by
  have hframe := (frameAddr_bounds y n).2
  refine .bind (.rd hs ho (by omega) rfl) (.mapM _ fun i _ => .rd hs ho ?_ rfl)
  have hword := (wordAddr_bounds y (fld (memRead s.mem.bytes (frameAddr y n) 16) 0 8 + i)).2
  omega

end

theorem walkChain_zero (w : Who) (n : Nat) : walkChain w n 0 = pure [] := by
  cases n with
  | zero => rfl
  | succ n => rw [walkChain, if_pos rfl]

/-- What is planned where a list has no block and no step is under way: nothing. -/
theorem planDelete_reads {s : State} {w : Who} (hs : Claim.clean s) (ho : Claim.openTo s w) {sh : Shard} {p : Plan} {r : Bytes}
    (hx : sh.addr + 192 ≤ wheelBase) (hin : sh.heads + 32 * fld r 0 4 + 32 ≤ wheelBase)
    (hempty : fld (memRead s.mem.bytes (sh.heads + 32 * fld r 0 4) 32) 0 8 = 0) (hidle : dSeen s sh 96 1 = 0) :
    Reads s (planDelete w sh p r) p := by
  unfold planDelete
  refine .bind (rdHead_reads hs ho hin) (.bind (x := []) ?_ (.bind (dGet_reads hs ho hx (by decide))
    (.bind (dGet_reads hs ho hx (by decide)) ?_)))
  · rw [show (headOf (memRead s.mem.bytes (sh.heads + 32 * fld r 0 4) 32)).head = 0 from hempty, walkChain_zero]
    exact .pure _
  · rw [hidle]
    exact .pure _

/-- A packet with one well-formed delete of an ID in a list with no block plans nothing. -/
theorem planPacket_delete {s : State} {w : Who} (hs : Claim.clean s) (ho : Claim.openTo s w) {sh : Shard} {h r : Bytes}
    (hx : sh.addr + 192 ≤ wheelBase) (hin : sh.heads + 32 * fld r 0 4 + 32 ≤ wheelBase) (hepoch : dSeen s sh 64 6 + 1 < 2 ^ 48)
    (hkind : fld h 0 1 = 2) (hzero : zeroAt h 1 3 = true) (hzero' : zeroAt h 8 24 = true) (hn : fld h 4 4 = 1)
    (hok : recordOk sh false r = true) (hempty : fld (memRead s.mem.bytes (sh.heads + 32 * fld r 0 4) 32) 0 8 = 0)
    (hidle : dSeen s sh 96 1 = 0) :
    Reads s (planPacket w sh [h, r]) { insert := false, free := dSeen s sh 72 8, avail := dSeen s sh 80 4 } := by
  unfold planPacket
  dsimp only [List.headD]
  rw [hkind, hn]
  refine .check ?_ (.check ?_ (.bind (dGet_reads hs ho hx (by decide)) (.check ?_ (.bind (dGet_reads hs ho hx (by decide))
    (.bind (dGet_reads hs ho hx (by decide)) ?_)))))
  · simp [hzero, hzero']
  · simp [hok]
  · rw [decide_eq_false_iff_not]
    omega
  · rw [if_neg (by decide)]
    exact .bind (.bind (planDelete_reads hs ho hx hin hempty hidle) (.pure _)) (.bind (dGet_reads hs ho hx (by decide)) (.check (by simp)
      (.bind (descReady_reads hs ho hx) (.bind (.pure _) (.bind (.pure _) (.pure _))))))

/-- What the insert of record `r` touches in a tail block with header `t`, where the list's head entry is `he`. -/
def insertTouch (he : HeadEntry) (t : BlockHdr) (r code : Bytes) : Touch :=
  { block := he.tail, slot := t.count, code := code, info := { id := fld r 8 8, attr := fld r 16 8, scale := fld r 4 2 } }

/-- The plan of a packet with one insert into a tail block with room. -/
def insertPlan (he : HeadEntry) (t : BlockHdr) (r code : Bytes) (free avail : Nat) : Plan :=
  { touched := [insertTouch he t r code], free := free, avail := avail, hdrs := [(he.tail, { t with count := t.count + 1 })]
    heads := [(fld r 0 4, { he with slots := he.slots + 1 })] }

section
variable {s : State} {w : Who} (hs : Claim.clean s) (ho : Claim.openTo s w) {sh : Shard} {r code : Bytes} {he : HeadEntry}
  {t : BlockHdr} (hin : sh.heads + 32 * fld r 0 4 + 32 ≤ wheelBase) (hhe : headOf (memRead s.mem.bytes (sh.heads + 32 * fld r 0 4) 32) = he)
  (htail : he.tail ≠ 0) (hblock : he.tail + 4096 ≤ wheelBase) (ht : hdrOf (memRead s.mem.bytes he.tail 64) = t) (hroom : t.count < sh.epb)
include hs ho hin hhe htail hblock ht hroom

theorem planInsert_reads (free avail : Nat) :
    Reads s (planInsert w sh { free := free, avail := avail } (r, code)) (insertPlan he t r code free avail) := by
  have hhdr : Reads s (rdHdr w he.tail) t := ht ▸ rdHdr_reads hs ho (by omega)
  have hhead : Reads s (rdHead w sh (fld r 0 4)) he := hhe ▸ rdHead_reads hs ho hin
  have hplanned : Reads s (planHdr w { free := free, avail := avail } he.tail) t := hhdr
  refine .bind hhead (.bind (x := ({ free := free, avail := avail }, he)) ?_ (.bind hplanned (.pure _)))
  rw [planTail, if_neg htail]
  refine .bind hplanned ?_
  dsimp only
  rw [if_pos hroom]
  exact .pure _

/-- A packet with one well-formed insert into a tail block with room. -/
theorem planPacket_insert {h : Bytes} {codes : List Bytes} (hx : sh.addr + 192 ≤ wheelBase) (hepoch : dSeen s sh 64 6 + 1 < 2 ^ 48)
    (hkind : fld h 0 1 = 1) (hzero : zeroAt h 1 3 = true) (hzero' : zeroAt h 8 24 = true) (hn : fld h 4 4 = 1)
    (hcodes : codes.length = sh.csz / 32) (hcode : code = codes.flatten) (hok : recordOk sh true r = true)
    (hslots : dSeen s sh 84 4 + 1 < 2 ^ 32) :
    Reads s (planPacket w sh (h :: r :: codes)) (insertPlan he t r code (dSeen s sh 72 8) (dSeen s sh 80 4)) := by
  have hrec : ((List.range 1).map fun i => ((h :: r :: codes).getD (1 + i * (1 + sh.csz / 32)) [],
      (((h :: r :: codes).drop (2 + i * (1 + sh.csz / 32))).take (1 + sh.csz / 32 - 1)).flatten)) = [(r, code)] := by
    rw [hcode, List.range_one, List.map_singleton, Nat.zero_mul, Nat.add_sub_cancel_left, ← hcodes]
    simp
  unfold planPacket
  dsimp only [List.headD]
  rw [hkind, hn]
  refine .check ?_ (.check ?_ (.bind (dGet_reads hs ho hx (by decide)) (.check ?_ (.bind (dGet_reads hs ho hx (by decide))
    (.bind (dGet_reads hs ho hx (by decide)) ?_)))))
  · simp [hzero, hzero', hcodes]
    omega
  · simp [hok]
  · rw [decide_eq_false_iff_not]
    omega
  · simp only [if_true, decide_true, hrec]
    refine .bind (.bind (planInsert_reads hs ho hin hhe htail hblock ht hroom _ _) (.pure _)) (.bind (dGet_reads hs ho hx (by decide))
      (.check ?_ (.bind (descReady_reads hs ho hx) (.bind (.bind (mayWrite_reads ho hblock) (.pure _))
        (.bind (.bind (mayWrite_reads ho hin) (.pure _)) (.pure _))))))
    simp [insertPlan]
    omega

end

/-! ### What an applied packet writes -/

/-- What a packet that touches nothing writes: its batch mark, the epoch it publishes, and the count of packets. -/
def deleteWrites (s : State) (sh : Shard) : List (Nat × Bytes) :=
  [(sh.addr + 88, toLe 8 (0 * 2 ^ 48 + (dSeen s sh 64 6 + 1))), (sh.addr + 64, toLe 8 (dSeen s sh 64 6 + 1)),
    (sh.addr + 88, toLe 8 0), (sh.addr + 144, toLe 8 (dSeen s sh 144 8 + 1))]

/-- The work of a packet whose plan is `p`, from the epoch on. -/
def batchWork (w : Who) (sh : Shard) (p : Plan) : Act Unit := do
  let e := (← dGet w sh 64 6) + 1
  writeBatch w sh p e
  publishBatch w sh p e

section
variable {s : State} {w : Who} (hs : Claim.clean s) (ho : Claim.openTo s w) {sh : Shard} (hx : sh.addr + 192 ≤ wheelBase)
include hs ho hx

theorem batchWork_delete (free avail : Nat) :
    Stores s [] (batchWork w sh { insert := false, free := free, avail := avail }) () (deleteWrites s sh) := by
  refine .bind (dGet_stores hs ho hx (by decide) (by simp [Misses])) (.bind (.bind (.pure _) (.bind (dPut_stores hs ho hx (by decide)) (.pure _)))
    (.bind (.pure _) (.bind (.pure _) (.bind (dPut_stores hs ho hx (by decide)) (.bind (dPut_stores hs ho hx (by decide))
      (.bind (dGet_stores hs ho hx (by decide) ?_) (dPut_stores hs ho hx (by decide))))))))
  simp [Misses]

end

/-- A slot's metadata as it is written. -/
def metaBytes (m : SlotMeta) : Bytes :=
  toLe 8 m.id ++ toLe 8 m.attr ++ toLe 6 m.ins ++ toLe 2 (b2n m.tomb) ++ toLe 6 m.del ++ toLe 2 m.scale

/-- A block header as it is written. -/
def hdrBytes (h : BlockHdr) : Bytes :=
  toLe 8 h.next ++ toLe 2 h.count ++ toLe 2 h.tombs ++ toLe 4 h.list ++ toLe 8 h.minEpoch ++ toLe 8 h.maxEpoch ++ toLe 32 0

@[simp] theorem metaBytes_length (m : SlotMeta) : (metaBytes m).length = 32 := by simp [metaBytes]

@[simp] theorem hdrBytes_length (h : BlockHdr) : (hdrBytes h).length = 64 := by simp [hdrBytes]

@[simp] theorem headBytes_length (h : HeadEntry) : (headBytes h).length = 32 := by simp [headBytes]

section
variable {s : State} {p : List (Nat × Bytes)} {w : Who} (hs : Claim.clean s) (ho : Claim.openTo s w)
include hs ho

theorem wrMeta_stores {a : Nat} (m : SlotMeta) (hin : a + 32 ≤ wheelBase) : Stores s p (wrMeta w a m) () (p ++ [(a, metaBytes m)]) :=
  .wr hs ho (b := metaBytes m) (by rw [metaBytes_length]; exact hin)

theorem wrHdr_stores {a : Nat} (h : BlockHdr) (hin : a + 64 ≤ wheelBase) : Stores s p (wrHdr w a h) () (p ++ [(a, hdrBytes h)]) :=
  .wr hs ho (b := hdrBytes h) (by rw [hdrBytes_length]; exact hin)

end

/-- A block header with the epoch of an insert. -/
def stampedHdr (h : BlockHdr) (e : Nat) : BlockHdr :=
  { h with minEpoch := if h.minEpoch = 0 then e else min h.minEpoch e, maxEpoch := max h.maxEpoch e }

/-- What the batch of an insert writes before it is published. -/
def insertBatch (s : State) (sh : Shard) (he : HeadEntry) (t : BlockHdr) (r code : Bytes) (free avail : Nat) : List (Nat × Bytes) :=
  [(sh.journal, toLe 8 (sh.metaAt he.tail t.count)), (sh.addr + 88, toLe 8 (1 * 2 ^ 48 + (dSeen s sh 64 6 + 1))),
    (sh.metaAt he.tail t.count, metaBytes (insertTouch he t r code).info), (sh.codeAt he.tail t.count, code),
    (he.tail, hdrBytes { t with count := t.count + 1 }), (sh.heads + 32 * fld r 0 4, headBytes { he with slots := he.slots + 1 }),
    (sh.addr + 72, toLe 8 free), (sh.addr + 80, toLe 4 avail), (sh.addr + 84, toLe 4 (dSeen s sh 84 4 + 1))]

/-- What the publishing of an insert writes. -/
def insertPublish (s : State) (sh : Shard) (he : HeadEntry) (t : BlockHdr) (r code : Bytes) : List (Nat × Bytes) :=
  [(sh.metaAt he.tail t.count, metaBytes { (insertTouch he t r code).info with ins := dSeen s sh 64 6 + 1 }),
    (he.tail, hdrBytes (stampedHdr { t with count := t.count + 1 } (dSeen s sh 64 6 + 1))),
    (sh.addr + 64, toLe 8 (dSeen s sh 64 6 + 1)), (sh.addr + 88, toLe 8 0), (sh.addr + 144, toLe 8 (dSeen s sh 144 8 + 1))]

/-- Where an insert writes: the descriptor, the head entry, the tail block and the journal, apart from each other. -/
structure InsertPlaces (sh : Shard) (he : HeadEntry) (t : BlockHdr) (r code : Bytes) : Prop where
  desc : sh.addr + 192 ≤ wheelBase
  head : sh.heads + 32 * fld r 0 4 + 32 ≤ wheelBase
  block : he.tail + 4096 ≤ wheelBase
  journal : sh.journal + 8 ≤ wheelBase
  room : t.count < sh.epb
  len : code.length = 32 * (sh.csz / 32)
  apart : [(sh.addr, 192), (sh.heads + 32 * fld r 0 4, 32), (he.tail, 4096), (sh.journal, 8)].Pairwise
    fun (u v : Nat × Nat) => u.1 + u.2 ≤ v.1 ∨ v.1 + v.2 ≤ u.1

theorem foldl_append_singleton {α : Type} (p ws : List α) : ws.foldl (fun l v => l ++ [v]) p = p ++ ws := by
  induction ws generalizing p with
  | nil => exact (List.append_nil p).symm
  | cons v ws ih => rw [List.foldl_cons, ih, List.append_assoc, List.singleton_append]

section
variable {sh : Shard} {he : HeadEntry} {t : BlockHdr} {r code : Bytes} (h : InsertPlaces sh he t r code)
include h

/-- A slot's code lies behind all metadata, within its block. -/
theorem InsertPlaces.slot : sh.metaAt he.tail t.count + 32 ≤ sh.codeAt he.tail t.count ∧
    sh.codeAt he.tail t.count + code.length ≤ he.tail + 4096 ∧ he.tail + 64 ≤ sh.metaAt he.tail t.count := by
  have hroom := h.room
  have hlen := h.len
  have hcsz : 32 * (sh.csz / 32) ≤ sh.csz := Nat.mul_div_le _ _
  have hslots : sh.epb * (32 + sh.csz) ≤ 4032 := Nat.div_mul_le_self _ _
  have hcodes : sh.csz * (t.count + 1) ≤ sh.csz * sh.epb := Nat.mul_le_mul_left _ hroom
  rw [Nat.mul_add] at hslots
  rw [Nat.mul_comm sh.epb sh.csz] at hslots
  rw [Nat.mul_succ] at hcodes
  unfold Shard.metaAt Shard.codeAt
  omega

/-- The places of an insert, one by one. -/
theorem InsertPlaces.all_apart : (sh.addr + 192 ≤ sh.heads + 32 * fld r 0 4 ∨ sh.heads + 32 * fld r 0 4 + 32 ≤ sh.addr) ∧
    (sh.addr + 192 ≤ he.tail ∨ he.tail + 4096 ≤ sh.addr) ∧ (sh.addr + 192 ≤ sh.journal ∨ sh.journal + 8 ≤ sh.addr) ∧
    (sh.heads + 32 * fld r 0 4 + 32 ≤ he.tail ∨ he.tail + 4096 ≤ sh.heads + 32 * fld r 0 4) ∧
    (sh.heads + 32 * fld r 0 4 + 32 ≤ sh.journal ∨ sh.journal + 8 ≤ sh.heads + 32 * fld r 0 4) ∧
    (he.tail + 4096 ≤ sh.journal ∨ sh.journal + 8 ≤ he.tail) := by
  have hapart := h.apart
  simpa [List.pairwise_cons, and_assoc] using hapart

/-- Before it is published, an insert leaves the fields of the descriptor that it does not write. -/
theorem InsertPlaces.batch_misses {s : State} {free avail o n : Nat} (ho : o + n ≤ 72 ∨ 96 ≤ o) (hn : o + n ≤ 192) :
    Misses (insertBatch s sh he t r code free avail) (sh.addr + o) n := by
  obtain ⟨h1, h2, h3, h4, h5, h6⟩ := h.all_apart
  obtain ⟨h7, h8, h9⟩ := h.slot
  simp only [Misses, insertBatch, List.forall_mem_cons, toLe_length, metaBytes_length, hdrBytes_length, headBytes_length]
  simp only [List.not_mem_nil, false_imp_iff, implies_true, and_true]
  omega

theorem InsertPlaces.publish_stores {s : State} {w : Who} (hs : Claim.clean s) (ho : Claim.openTo s w) {free avail : Nat}
    {p : List (Nat × Bytes)} (hp : Misses p (sh.addr + 144) 8) :
    Stores s p (publishBatch w sh (insertPlan he t r code free avail) (dSeen s sh 64 6 + 1)) () (p ++ insertPublish s sh he t r code) := by
  have hx := h.desc
  have hblock := h.block
  obtain ⟨-, h2, -⟩ := h.all_apart
  obtain ⟨h7, h8, h9⟩ := h.slot
  have hmeta : sh.metaAt he.tail t.count + 32 ≤ wheelBase := by omega
  have hhdr : he.tail + 64 ≤ wheelBase := by omega
  have hread : Misses (p ++ [(sh.metaAt he.tail t.count, metaBytes { (insertTouch he t r code).info with ins := dSeen s sh 64 6 + 1 })] ++
      [(he.tail, hdrBytes (stampedHdr { t with count := t.count + 1 } (dSeen s sh 64 6 + 1)))] ++
      [(sh.addr + 64, toLe 8 (dSeen s sh 64 6 + 1))] ++ [(sh.addr + 88, toLe 8 0)]) (sh.addr + 144) 8 := by
    simp only [List.append_assoc]
    refine List.forall_mem_append.2 ⟨hp, ?_⟩
    simp only [List.cons_append, List.nil_append, List.forall_mem_cons, toLe_length, metaBytes_length, hdrBytes_length]
    simp only [List.not_mem_nil, false_imp_iff, implies_true, and_true]
    omega
  have hwork : Stores s p (publishBatch w sh (insertPlan he t r code free avail) (dSeen s sh 64 6 + 1)) ()
      ((insertPublish s sh he t r code).foldl (fun l v => l ++ [v]) p) := by
    refine .bind (.bind (wrMeta_stores hs ho _ hmeta) (.pure _)) (.bind (.bind (x := ()) ?_ (.pure _))
      (.bind (dPut_stores hs ho hx (by decide : 64 + 8 ≤ 192)) (.bind (dPut_stores hs ho hx (by decide : 88 + 8 ≤ 192))
        (.bind (dGet_stores hs ho hx (by decide : 144 + 8 ≤ 192) hread) (dPut_stores hs ho hx (by decide : 144 + 8 ≤ 192))))))
    have hone : ((insertPlan he t r code free avail).touched.filter fun u => u.block = he.tail).length ≠ 0 := by
      simp [insertPlan, insertTouch]
    dsimp only
    rw [if_pos hone]
    exact wrHdr_stores hs ho _ hhdr
  rwa [foldl_append_singleton] at hwork

theorem InsertPlaces.batch_work {s : State} {w : Who} (hs : Claim.clean s) (ho : Claim.openTo s w) (free avail : Nat) :
    Stores s [] (batchWork w sh (insertPlan he t r code free avail)) ()
      (insertBatch s sh he t r code free avail ++ insertPublish s sh he t r code) := by
  have hx := h.desc
  have hhead := h.head
  have hjournal := h.journal
  have hblock := h.block
  obtain ⟨h7, h8, h9⟩ := h.slot
  obtain ⟨h1, h2, h3, h4, h5, h6⟩ := h.all_apart
  have hmeta : sh.metaAt he.tail t.count + 32 ≤ wheelBase := by omega
  have hcode : sh.codeAt he.tail t.count + code.length ≤ wheelBase := by omega
  have hbatch : Stores s [] (writeBatch w sh (insertPlan he t r code free avail) (dSeen s sh 64 6 + 1)) ()
      (insertBatch s sh he t r code free avail) := by
    refine .bind (.bind (.wrNat hs ho hjournal) (.pure _)) (.bind (dPut_stores hs ho hx (by decide)) (.bind (.pure _)
      (.bind (.bind (.bind (wrMeta_stores hs ho _ hmeta) (.wr hs ho hcode)) (.pure _))
        (.bind (.bind (wrHdr_stores hs ho _ (by omega)) (.pure _)) (.bind (.bind (wrHead_stores hs ho _ hhead) (.pure _))
        (.bind (dPut_stores hs ho hx (by decide)) (.bind (dPut_stores hs ho hx (by decide))
          (.bind (dGet_stores hs ho hx (by decide) ?_) (dPut_stores hs ho hx (by decide))))))))))
    simp only [Misses, List.cons_append, List.nil_append, List.forall_mem_cons, toLe_length, metaBytes_length, hdrBytes_length,
      headBytes_length]
    simp only [List.not_mem_nil, false_imp_iff, implies_true, and_true, insertTouch]
    omega
  exact .bind (dGet_stores hs ho hx (by decide) (by simp [Misses])) (.bind hbatch
    (h.publish_stores hs ho (h.batch_misses (.inr (by decide)) (by decide))))

end

/-! ### A packet applied -/

/-- A packet whose plan is `p` and whose batch writes `ws`, is applied, and nothing else is written. -/
theorem packet_applied {k i : Nat} {x : WriterSlot} {s : State} (h : Claim.packetRuns s k i x) (hs : Claim.clean s)
    (ho : Claim.openTo s (whoWriter k x.ctx)) {p : Plan} {ws : List (Nat × Bytes)}
    (hplan : ∀ u, u.mem = s.mem → Claim.clean u → Claim.openTo u (whoWriter k x.ctx) → Reads u (do
      planPacket (whoWriter k x.ctx) x.shard (← packetWords (whoWriter k x.ctx) (getSq s x.shard.updq)
        (getSq s x.shard.updq).readPkt.toNat)) p)
    (hwork : ∀ u, u.mem = s.mem → Claim.clean u → Claim.openTo u (whoWriter k x.ctx) →
      Stores u [] (batchWork (whoWriter k x.ctx) x.shard p) () ws) :
    Does (.updatePacketApply k i) s fun t => (getSlice t k).rejected = (getSlice s k).rejected ∧
      t.mem.bytes = memDo s.mem.bytes ws := by
  obtain ⟨u, hturned, hrow⟩ := packet_runs h
  obtain ⟨v, hv⟩ : ∃ v, v = packetState u k i x := ⟨_, rfl⟩
  have hmem : v.mem = s.mem := hv ▸ packetState_mem hturned
  have hopen : Claim.openTo v (whoWriter k x.ctx) := fun a n b hin => by
    rw [hv, packetState_may hturned]
    exact ho a n b hin
  obtain ⟨r, hr, hch⟩ := (hplan v hmem (clean_of_mem hs hmem) hopen).run
  have hrmem : r.mem = s.mem := hch.mem.trans hmem
  obtain ⟨t, ht, hwrote⟩ := (hwork r hrmem (clean_of_mem hs hrmem) (openTo_of_samePrt hch.prt hopen)).act
  have happ : applyPacket (whoWriter k x.ctx) x.shard (getSq s x.shard.updq) (getSq s x.shard.updq).readPkt.toNat v = (true, t) := by
    rw [applyPacket, hr]
    rw [batchWork] at ht
    dsimp only
    rw [ht]
  dsimp only at hrow
  rw [← hv, happ, if_pos rfl] at hrow
  obtain ⟨hpcl, hkept, -⟩ := releasePacket_leaves t x.shard.updq
  refine does_of (congrArg Host.Outcome.next hrow) ⟨?_, ?_⟩
  · rw [getSlice_of_pcl hpcl, getSlice_of_pcl hwrote.pcl, getSlice_of_pcl (by rw [hch.eq] : r.pcl = v.pcl), hv]
    exact (packetState_slice hturned).1
  · rw [hkept, hwrote.bytes, hrmem]

theorem dSeen_of_mem {s u : State} (h : u.mem = s.mem) (x : Shard) (off n : Nat) : dSeen u x off n = dSeen s x off n := by
  rw [dSeen, h]
  rfl

/-- What the `i`-th of some writes stored stands while no later one touches it. -/
theorem memRead_memDo_at {m : List Host.Cell} {ws : List (Nat × Bytes)} {a n : Nat} {b : Bytes} (i : Nat) (hi : ws[i]? = some (a, b))
    (hn : b.length = n) (h : Misses (ws.drop (i + 1)) a n) : memRead (memDo m ws) a n = b := by
  obtain ⟨hlt, hget⟩ := List.getElem?_eq_some_iff.1 hi
  have hws : ws = ws.take i ++ (a, b) :: ws.drop (i + 1) := by
    rw [← hget, List.getElem_cons_drop, List.take_append_drop]
  rw [hws]
  exact memRead_memDo_wrote _ hn.symm h

theorem fld_hdrBytes_count (h : BlockHdr) : fld (hdrBytes h) 8 2 = h.count % 65536 := by
  simp (disch := simp) only [hdrBytes, List.append_assoc, fld_append_left, fld_append_right, fld_toLe, toLe_length, Nat.reduceSub,
    Nat.reducePow]

/-- Metadata written and read again, where its fields are within their widths. -/
theorem metaOf_metaBytes (m : SlotMeta) (h : m.id < 2 ^ 64 ∧ m.attr < 2 ^ 64 ∧ m.ins < 2 ^ 48 ∧ m.del < 2 ^ 48 ∧ m.scale < 2 ^ 16) :
    metaOf (metaBytes m) = m := by
  obtain ⟨id, attr, ins, tomb, del, scale⟩ := m
  obtain ⟨hid, hattr, hins, hdel, hscale⟩ := h
  dsimp only at hid hattr hins hdel hscale
  simp (disch := simp) only [metaOf, metaBytes, List.append_assoc, fld_append_left, fld_append_right, fld_toLe, toLe_length,
    Nat.reduceSub, Nat.reducePow] at *
  rw [Nat.mod_eq_of_lt hid, Nat.mod_eq_of_lt hattr, Nat.mod_eq_of_lt hins, Nat.mod_eq_of_lt hdel, Nat.mod_eq_of_lt hscale]
  cases tomb <;> rfl

section
variable {k i : Nat} {x : WriterSlot} {s : State} (h : Claim.packetRuns s k i x) (hs : Claim.clean s)
  (ho : Claim.openTo s (whoWriter k x.ctx)) {y : SlipQ} (hy : getSq s x.shard.updq = y) {f d : Bytes} {word : Nat → Bytes}
  (hf : memRead s.mem.bytes (frameAddr y y.readPkt.toNat) 16 = f) (hd : memRead s.mem.bytes x.shard.addr 192 = d)
  (hword : ∀ n, memRead s.mem.bytes (wordAddr y (fld f 0 8 + n)) 32 = word n) (hring : y.base.toNat + 48 * y.size ≤ wheelBase)
  (hx : x.shard.addr + 192 ≤ wheelBase) (hin : x.shard.heads + 32 * fld (word 1) 0 4 + 32 ≤ wheelBase)
  (hepoch : fld d 64 6 + 1 < 2 ^ 48) (hzero : zeroAt (word 0) 1 3 = true) (hone : fld (word 0) 4 4 = 1)
  (hzero' : zeroAt (word 0) 8 24 = true)
include h hs ho hy hf hd hword hring hx hin hepoch hzero hone hzero'

/-- A well-formed delete of an ID in an empty list publishes the next epoch and changes nothing else. -/
theorem delete_publishes {he : Bytes} (hhe : memRead s.mem.bytes (x.shard.heads + 32 * fld (word 1) 0 4) 32 = he)
    (hkind : fld (word 0) 0 1 = 2) (hwords : fld f 8 2 = 2) (hok : recordOk x.shard false (word 1) = true) (hempty : fld he 0 8 = 0)
    (hidle : fld d 96 1 = 0) :
    Does (.updatePacketApply k i) s fun t => (getSlice t k).rejected = (getSlice s k).rejected ∧
      leNat (memRead t.mem.bytes (x.shard.addr + 64) 8) = fld d 64 6 + 1 ∧
      leNat (memRead t.mem.bytes (x.shard.addr + 88) 8) = 0 ∧
      leNat (memRead t.mem.bytes (x.shard.addr + 144) 8) = (fld d 144 8 + 1) % 2 ^ 64 ∧
      ∀ a, (a < x.shard.addr + 64 ∨ x.shard.addr + 72 ≤ a) → (a < x.shard.addr + 88 ∨ x.shard.addr + 96 ≤ a) →
        (a < x.shard.addr + 144 ∨ x.shard.addr + 152 ≤ a) → memGet t.mem.bytes a = memGet s.mem.bytes a := by
  have hseen (o n : Nat) (hon : o + n ≤ 192) : dSeen s x.shard o n = fld d o n := by
    rw [← hd, dSeen, fld_memRead _ _ _ _ _ hon]
  have hdoes := packet_applied h hs ho (p := { insert := false, free := fld d 72 8, avail := fld d 80 4 })
    (ws := deleteWrites s x.shard) (fun u hu hcu hou => ?_) fun u hu hcu hou => ?_
  · refine does_mono hdoes fun t ⟨hrej, hbytes⟩ => ⟨hrej, ?_, ?_, ?_, fun a h1 h2 h3 => ?_⟩
    · rw [hbytes, deleteWrites, hseen 64 6 (by decide)]
      rw [memRead_memDo_at 1 rfl (toLe_length _ _) (by simp [Misses]), leNat_toLe_of_lt (by omega)]
    · rw [hbytes, deleteWrites]
      rw [memRead_memDo_at 2 rfl (toLe_length _ _) (by simp [Misses])]
      rfl
    · rw [hbytes, deleteWrites, hseen 144 8 (by decide)]
      rw [memRead_memDo_at 3 rfl (toLe_length _ _) (by simp [Misses]), leNat_toLe, show 256 ^ 8 = 2 ^ 64 by decide]
    · rw [hbytes, memGet_memDo_misses]
      simp only [Misses, deleteWrites, List.forall_mem_cons, toLe_length, List.not_mem_nil, false_imp_iff, implies_true, and_true]
      omega
  · have hwords' := packetWords_reads hcu hou hring y.readPkt.toNat
    rw [hu, hf, hwords] at hwords'
    simp only [hword] at hwords'
    rw [hy]
    refine .bind hwords' ?_
    have hd' (o n : Nat) (hon : o + n ≤ 192) : dSeen u x.shard o n = fld d o n := (dSeen_of_mem hu _ _ _).trans (hseen o n hon)
    have hplan := planPacket_delete hcu hou hx hin (by rw [hd' 64 6 (by decide)]; exact hepoch) hkind hzero hzero' hone hok
      (by rw [hu, hhe]; exact hempty) (by rw [hd' 96 1 (by decide)]; exact hidle)
    rwa [hd' 72 8 (by decide), hd' 80 4 (by decide)] at hplan
  · have hwork := batchWork_delete hcu hou hx (fld d 72 8) (fld d 80 4)
    simpa only [deleteWrites, dSeen_of_mem hu] using hwork

/-- A well-formed insert into a tail block with room publishes its slot at the next epoch. -/
theorem insert_publishes {he : HeadEntry} {b : BlockHdr}
    (hhe : headOf (memRead s.mem.bytes (x.shard.heads + 32 * fld (word 1) 0 4) 32) = he) (hb : hdrOf (memRead s.mem.bytes he.tail 64) = b)
    (hkind : fld (word 0) 0 1 = 1) (hwords : fld f 8 2 = 2 + x.shard.csz / 32) (hok : recordOk x.shard true (word 1) = true)
    (htail : he.tail ≠ 0) (hroom : b.count < x.shard.epb) (hslots : fld d 84 4 + 1 < 2 ^ 32)
    (hblock : he.tail + 4096 ≤ wheelBase) (hjournal : x.shard.journal + 8 ≤ wheelBase)
    (hapart : [(x.shard.addr, 192), (x.shard.heads + 32 * fld (word 1) 0 4, 32), (he.tail, 4096), (x.shard.journal, 8)].Pairwise
      fun (u v : Nat × Nat) => u.1 + u.2 ≤ v.1 ∨ v.1 + v.2 ≤ u.1) :
    Does (.updatePacketApply k i) s fun t => (getSlice t k).rejected = (getSlice s k).rejected ∧
      leNat (memRead t.mem.bytes (x.shard.addr + 64) 8) = fld d 64 6 + 1 ∧
      metaOf (memRead t.mem.bytes (x.shard.metaAt he.tail b.count) 32) =
        { id := fld (word 1) 8 8, attr := fld (word 1) 16 8, ins := fld d 64 6 + 1, scale := fld (word 1) 4 2 } ∧
      memRead t.mem.bytes (x.shard.codeAt he.tail b.count) (32 * (x.shard.csz / 32)) =
        ((List.range (x.shard.csz / 32)).map fun j => word (2 + j)).flatten ∧
      fld (memRead t.mem.bytes he.tail 64) 8 2 = b.count + 1 ∧
      ∀ a, (a < x.shard.addr + 64 ∨ x.shard.addr + 152 ≤ a) →
        (a < x.shard.heads + 32 * fld (word 1) 0 4 ∨ x.shard.heads + 32 * fld (word 1) 0 4 + 32 ≤ a) →
        (a < he.tail ∨ he.tail + 4096 ≤ a) → (a < x.shard.journal ∨ x.shard.journal + 8 ≤ a) →
        memGet t.mem.bytes a = memGet s.mem.bytes a := by
  obtain ⟨codes, hcodes⟩ : ∃ codes, codes = (List.range (x.shard.csz / 32)).map fun j => word (2 + j) := ⟨_, rfl⟩
  have hlen : codes.flatten.length = 32 * (x.shard.csz / 32) := by
    have hwide : codes.map List.length = List.replicate (x.shard.csz / 32) 32 := by
      rw [hcodes, List.map_map, List.eq_replicate_iff]
      refine ⟨by simp, fun v hv => ?_⟩
      obtain ⟨j, -, rfl⟩ := List.mem_map.1 hv
      rw [Function.comp_apply, ← hword, memRead_length]
    rw [List.length_flatten, hwide, List.sum_replicate, smul_eq_mul, Nat.mul_comm]
  have hplaces : InsertPlaces x.shard he b (word 1) codes.flatten :=
    ⟨hx, hin, hblock, hjournal, hroom, hlen, hapart⟩
  have hseen (o n : Nat) (hon : o + n ≤ 192) : dSeen s x.shard o n = fld d o n := by
    rw [← hd, dSeen, fld_memRead _ _ _ _ _ hon]
  have hdoes := packet_applied h hs ho (p := insertPlan he b (word 1) codes.flatten (fld d 72 8) (fld d 80 4))
    (ws := insertBatch s x.shard he b (word 1) codes.flatten (fld d 72 8) (fld d 80 4) ++
      insertPublish s x.shard he b (word 1) codes.flatten) (fun u hu hcu hou => ?_) fun u hu hcu hou => ?_
  · obtain ⟨h1, h2, h3, h4, h5, h6⟩ := hplaces.all_apart
    obtain ⟨h7, h8, h9⟩ := hplaces.slot
    rw [hlen] at h8
    have hepb : x.shard.epb ≤ 126 := (Nat.div_le_div_left (by omega) (by decide)).trans (by decide : 4032 / 32 ≤ 126)
    refine does_mono hdoes fun t ⟨hrej, hbytes⟩ => ⟨hrej, ?_, ?_, ?_, ?_, fun a ha1 ha2 ha3 ha4 => ?_⟩
    · rw [hbytes, memRead_memDo_at 11 rfl (toLe_length _ _) (by simp [insertBatch, insertPublish, Misses]),
        hseen 64 6 (by decide), leNat_toLe_of_lt (by omega)]
    · rw [hbytes, memRead_memDo_at 9 rfl (metaBytes_length _),
        metaOf_metaBytes _ ?_, hseen 64 6 (by decide)]
      · rfl
      · refine ⟨fld_lt _ 8 8, fld_lt _ 16 8, ?_, Nat.two_pow_pos 48, fld_lt _ 4 2⟩
        rw [hseen 64 6 (by decide)]
        exact hepoch
      · simp only [Misses, insertBatch, insertPublish, List.cons_append, List.nil_append, List.drop_succ_cons, List.drop_zero,
          List.forall_mem_cons, toLe_length, hdrBytes_length, List.not_mem_nil, false_imp_iff, implies_true, and_true]
        omega
    · rw [hbytes, memRead_memDo_at 3 rfl hlen, hcodes]
      simp only [Misses, insertBatch, insertPublish, List.cons_append, List.nil_append, List.drop_succ_cons, List.drop_zero,
        List.forall_mem_cons, toLe_length, hdrBytes_length, headBytes_length, metaBytes_length, List.not_mem_nil, false_imp_iff,
        implies_true, and_true]
      omega
    · rw [hbytes, memRead_memDo_at 10 rfl (hdrBytes_length _)]
      · rw [fld_hdrBytes_count]
        exact Nat.mod_eq_of_lt (show b.count + 1 < 65536 by omega)
      · simp only [Misses, insertBatch, insertPublish, List.cons_append, List.nil_append, List.drop_succ_cons, List.drop_zero,
          List.forall_mem_cons, toLe_length, List.not_mem_nil, false_imp_iff, implies_true, and_true]
        omega
    · rw [hbytes, memGet_memDo_misses]
      simp only [Misses, insertBatch, insertPublish, List.cons_append, List.nil_append,
        List.forall_mem_cons, toLe_length, hdrBytes_length, headBytes_length, metaBytes_length, List.not_mem_nil, false_imp_iff,
        implies_true, and_true]
      omega
  · have hwords' := packetWords_reads hcu hou hring y.readPkt.toNat
    rw [hu, hf, hwords] at hwords'
    simp only [hword] at hwords'
    rw [hy]
    have hlist : (List.range (2 + x.shard.csz / 32)).map word = word 0 :: word 1 :: codes := by
      rw [hcodes, List.range_add, List.map_append, List.map_map]
      rfl
    rw [hlist] at hwords'
    refine .bind hwords' ?_
    have hd' (o n : Nat) (hon : o + n ≤ 192) : dSeen u x.shard o n = fld d o n := (dSeen_of_mem hu _ _ _).trans (hseen o n hon)
    have hplan := planPacket_insert hcu hou hin (he := he) (t := b) (by rw [hu, hhe]) htail hblock (by rw [hu]; exact hb)
      hroom (codes := codes) hx (by rw [hd' 64 6 (by decide)]; exact hepoch) hkind hzero hzero' hone (by rw [hcodes]; simp) rfl hok
      (by rw [hd' 84 4 (by decide)]; exact hslots)
    rwa [hd' 72 8 (by decide), hd' 80 4 (by decide)] at hplan
  · have hwork := hplaces.batch_work hcu hou (fld d 72 8) (fld d 80 4)
    simpa only [insertBatch, insertPublish, dSeen_of_mem hu] using hwork

end

theorem packetsApply : Claim.packetsApply := by
  intro k i x s h sh y f word d l he tail n
  refine ⟨packetIsRead h, fun hs hmay hnone => emptyPacket_rejected h hs hmay hnone, ?_⟩
  intro hs ho hring _ hx hin hepoch hzero hone hzero'
  exact ⟨fun hkind hwords hok hempty hidle =>
      delete_publishes (y := y) (f := f) (d := d) (word := word) (he := he) h hs ho rfl rfl rfl (fun _ => rfl) hring hx hin hepoch hzero hone hzero' rfl hkind hwords hok hempty hidle,
    fun hkind hwords hok htail hroom hslots hblock hjournal hapart =>
      insert_publishes (y := y) (f := f) (d := d) (word := word) (he := headOf he) (b := hdrOf (memRead s.mem.bytes tail 64)) h hs ho
        rfl rfl rfl (fun _ => rfl) hring hx hin hepoch hzero hone hzero' rfl rfl hkind hwords hok htail hroom
        hslots hblock hjournal hapart⟩

/-- Settles O44: the attach, detach and compaction of a shard by the rows of its writer, and its update packets by the list of
writes that a batch makes. -/
theorem shardWriters : Obligations.ShardWriters := by
  unfold Obligations.ShardWriters
  refine ⟨⟨?_, ?_, ?_, ?_⟩, packetsApply, ?_, ?_⟩
  · intro k c i q d s hcmd
    exact shardAttaches k c i q d s hcmd
  · intro k c q s _ _ hturn hhead hslot hs hmay
    exact shardAttached_fails k c q s hturn hhead hslot hs hmay
  · intro k c i q d x s hcmd hslot hattach hctx
    exact shardDetaches k c i q d x s hcmd hslot hattach hctx
  · intro k c i q d x s hcmd hslot hattach hatt hctx hlists hidle
    exact runRecorded k c i q d x s hcmd hslot hattach hatt hctx hlists hidle
  · intro k i x s _ hslot hruns hready hnext hturn hs ho
    exact piecesCompact k i x s hslot hruns hready hnext hturn hs ho
  · intro k i o x s _ hslot hflip
    exact chainRetires k i o x s hslot hflip

end Sys2Proof.Proofs
end

