-- ==== Sys2Proof/Proofs/Decoding.lean ====
section
/-! PROOFS. POUR opens the ring, DECODE admits its request, and the budgets of classes (spec/12 R304, spec/13 R333, R334, R341, R342). -/

namespace Sys2Proof.Proofs

open Sys2Proof Sys2Proof.Machine Sys2Proof.Laws

/-! ### POUR -/

/-- A context that reaches a range has a window for it. -/
theorem windowsPermit_of_open {s : State} {c a n : Nat} {f : Bool} (ho : Claim.openTo s (whoPurser (some c))) (hn : n ≠ 0)
    (h : a + n ≤ wheelBase) : windowsPermit s (ctxPart c) a n f = true := by
  have hmay := ho a n f h
  simp only [mayAccess, whoPurser, hn, decide_false, Bool.false_or, Bool.and_eq_true] at hmay
  exact hmay.2

/-- The writes that open a ring: HEAD and TAIL at `h`. -/
def ringWrites (h : Nat) : List (Nat × Bytes) := [(h, toLe 8 0), (h + 8, toLe 8 0)]

theorem ringWrites_zero (m : List Host.Cell) {h a : Nat} (h1 : h ≤ a) (h2 : a < h + 16) : memGet (memDo m (ringWrites h)) a = 0 := by
  have hzeros : toLe 8 0 = List.replicate 8 0 := rfl
  have hget (i : Nat) : (List.replicate 8 (0 : Byte)).getD i 0 = 0 := by
    rw [List.getD_eq_getElem?_getD, List.getElem?_replicate]
    split <;> rfl
  rw [ringWrites, hzeros, memDo, List.foldl_cons, List.foldl_cons, List.foldl_nil, memGet_memWrite, memGet_memWrite, hget, hget,
    List.length_replicate]
  by_cases h3 : h + 8 ≤ a
  · rw [if_pos (by omega)]
  · rw [if_neg (by omega), if_pos (by omega)]

theorem ringWrites_kept (m : List Host.Cell) {h a : Nat} (ha : a < h ∨ h + 16 ≤ a) :
    memGet (memDo m (ringWrites h)) a = memGet m a := by
  refine memGet_memDo_misses ?_
  simp only [Misses, ringWrites, List.forall_mem_cons, toLe_length, List.not_mem_nil, false_imp_iff, implies_true, and_true]
  omega

section
variable {s : State} {r : Request} (hs : Claim.clean s) (ho : Claim.openTo s (whoPurser (some r.ctx)))
  (hstops : fld r.record 112 8 + 1056 ≤ wheelBase)
include hs ho hstops

theorem pourWork_stores (hring : fld r.record 96 8 + 2 ^ fld r.record 104 1 + 64 + fld r.record 108 4 ≤ wheelBase)
    (hok : stopRecordOk (memRead s.mem.bytes (fld r.record 112 8) 1056) = true) :
    Stores s [] (pourWork r) (memRead s.mem.bytes (fld r.record 112 8) 1056) (ringWrites (fld r.record 96 8 + 2 ^ fld r.record 104 1)) := by
  obtain ⟨z, hz⟩ : ∃ z, z = 2 ^ fld r.record 104 1 := ⟨_, rfl⟩
  have hall : Claim.openTo s (whoPurser none) := fun a n f h => mayAccess_purser s h f
  unfold pourWork
  rw [← hz] at hring ⊢
  refine .bind (.rdKept hs ho hstops (by simp [Misses])) (.check (by rw [hok]; rfl) (.get_bind fun t ht => .check ?_
    (.bind (.wr hs hall (by rw [toLe_length]; omega)) (.bind (.wr hs hall (by rw [toLe_length]; omega)) (.pure _)))))
  rw [windowsPermit_of_open (ht.openTo ho) (by omega) (by omega), windowsPermit_of_open (ht.openTo ho) (by omega) (by omega)]
  have hend : ¬ unifiedEnd < fld r.record 96 8 + (z + 64 + fld r.record 108 4) :=
    Nat.not_lt.2 (Nat.le_trans (by omega) (by decide : wheelBase ≤ unifiedEnd))
  simp [hend]

theorem pourWork_fails (hbad : stopRecordOk (memRead s.mem.bytes (fld r.record 112 8) 1056) = false) :
    ∃ t, runActVal (pourWork r) s = (.error .internal, t) ∧ Charged s t := by
  obtain ⟨t, ht, hch⟩ := rd_of_clean hs (ho _ _ _ hstops)
  refine ⟨t, ?_, hch⟩
  unfold pourWork
  rw [runActVal_bind_ok ht]
  exact runActVal_stopIf_fails (by rw [hbad]; rfl)

end

section
variable {s t : State} {rid : Nat} {r : Request} (h : Claim.stageOn s rid 0x16 r) (hring : r.ring = none)
include h hring

theorem pourStage_good {stops : Bytes} (ht : runActVal (pourWork r) s = (.ok stops, t)) :
    pourStage s rid = noteStep (putReq t rid { r with ring := some { stops := stops } }) (tabGet {} r.stages 0x16).cmd := by
  have hnone : ¬ r.ring.isSome = true := by rw [hring]; exact Bool.false_ne_true
  rw [pourStage, stageRow_on h, if_neg hnone, ht]

theorem pourStage_bad {st : Status} (ht : runActVal (pourWork r) s = (.error st, t)) :
    pourStage s rid = noteStep (stageWorked t rid 0x16 st) (tabGet {} r.stages 0x16).cmd := by
  have hnone : ¬ r.ring.isSome = true := by rw [hring]; exact Bool.false_ne_true
  rw [pourStage, stageRow_on h, if_neg hnone, ht]

end

section
variable {s : State} {rid : Nat} {r : Request} (hon : Claim.stageOn s rid 0x16 r) (hring : r.ring = none) (hs : Claim.clean s)
  (ho : Claim.openTo s (whoPurser (some r.ctx))) (hstops : fld r.record 112 8 + 1056 ≤ wheelBase)
include hon hring hs ho hstops

/-- With a good stop record POUR writes HEAD and TAIL as 0 and nothing else. -/
theorem pour_opens (hfits : fld r.record 96 8 + 2 ^ fld r.record 104 1 + 64 + fld r.record 108 4 ≤ wheelBase)
    (hok : stopRecordOk (memRead s.mem.bytes (fld r.record 112 8) 1056) = true) : Does (.pour rid) s fun t =>
      getReq t rid = some { r with ring := some { stops := memRead s.mem.bytes (fld r.record 112 8) 1056 } } ∧
      Claim.otherReqs s t rid ∧ t.mem.bytes = memDo s.mem.bytes (ringWrites (fld r.record 96 8 + 2 ^ fld r.record 104 1)) := by
  obtain ⟨t, ht, hw⟩ := (pourWork_stores hs ho hstops hfits hok).run
  refine does_of (congrArg Host.Outcome.next (pourStage_good hon hring ht)) ⟨?_, ?_, ?_⟩
  · rw [getReq_of_reqs (noteStep_reqs _ _), getReq_putReq]
  · refine otherReqs_trans (otherReqs_trans (otherReqs_of_reqs (by rw [hw.eq]) rid) (otherReqs_putReq t rid _))
      (otherReqs_of_reqs (noteStep_reqs _ _) rid)
  · rw [noteStep_mem]
    exact hw.bytes

/-- A bad stop record ends POUR with INTERNAL. -/
theorem pour_fails (hbad : stopRecordOk (memRead s.mem.bytes (fld r.record 112 8) 1056) = false) : Does (.pour rid) s fun t =>
    Claim.stageDone s t rid 0x16 .internal ∧ t.mem = s.mem := by
  obtain ⟨t, ht, hch⟩ := pourWork_fails hs ho hstops hbad
  obtain ⟨hr, -⟩ := id hon
  refine does_of (congrArg Host.Outcome.next (pourStage_bad hon hring ht)) ⟨stageDone_noteStep (stageDone_stageWorked _ hr ((hch.getReq rid).trans hr)
    (otherReqs_of_reqs (by rw [hch.eq]) rid) fun _ _ => rfl) _, ?_⟩
  rw [noteStep_mem, stageWorked_mem, hch.mem]

end

/-! ### DECODE -/

theorem decodeStage_on {s : State} {rid : Nat} {r : Request} (h : Claim.stageOn s rid 0x15 r)
    (hstep : (tabGet {} r.stages 0x15).step = 0) : decodeStage s rid = noteStep (if r.ring.isNone then s else
      putReq { s with pur := { s.pur with
        entropy := Config.mixSeed s.pur.entropy (fld r.record 144 8)
        models := tabMod {} s.pur.models (tabGet {} r.stages 0x15).param id } } rid
        ({ r with model := (tabGet {} r.stages 0x15).param : Request }.modStage 0x15 fun g => { g with step := 1 }))
      (tabGet {} r.stages 0x15).cmd := by
  have hgo : (decide ((tabGet {} r.stages 0x15).step ≠ 0) || r.ring.isNone) = r.ring.isNone := by simp [hstep]
  rw [decodeStage, stageRow_on h, hgo]

section
variable {s : State} {rid : Nat} {r : Request} (hon : Claim.stageOn s rid 0x15 r) (hstep : (tabGet {} r.stages 0x15).step = 0)
include hon hstep

/-- With the ring open, DECODE admits its request and mixes SEED into the random source. -/
theorem decode_admits (hring : r.ring.isSome = true) : Does (.decode rid) s fun t =>
    Claim.otherReqs s t rid ∧ (∃ r', getReq t rid = some r' ∧ r'.model = (tabGet {} r.stages 0x15).param ∧
      (tabGet {} r'.stages 0x15).step = 1) ∧
    t.pur.entropy = Config.mixSeed s.pur.entropy (fld r.record 144 8) ∧ t = { s with pur := t.pur } := by
  have hrow := decodeStage_on hon hstep
  rw [if_neg (by rw [Option.isNone_eq_false_iff.2 hring]; exact Bool.false_ne_true)] at hrow
  refine does_of (congrArg Host.Outcome.next hrow) ⟨?_, ⟨_, (getReq_of_reqs (noteStep_reqs _ _) rid).trans (getReq_putReq _ _ _), rfl, ?_⟩, ?_, ?_⟩
  · exact otherReqs_trans (otherReqs_putReq _ rid _) (otherReqs_of_reqs (noteStep_reqs _ _) rid)
  · rw [tabGet_modStage]
  · rw [noteStep_eq]
    rfl
  · rw [noteStep_eq]
    rfl

/-- Until POUR has opened the ring, DECODE waits. -/
theorem decode_waits (hring : r.ring = none) : Does (.decode rid) s fun t => t.pur.reqs = s.pur.reqs ∧ t = { s with pur := t.pur } := by
  have hrow := decodeStage_on hon hstep
  rw [if_pos (by rw [hring]; rfl)] at hrow
  refine does_of (congrArg Host.Outcome.next hrow) ⟨noteStep_reqs _ _, ?_⟩
  rw [noteStep_eq]

end

theorem decodingStarts : Claim.decodingStarts := by
  refine ⟨fun rid r s hon hring hs ho hstops hfits => ⟨fun hok => ?_, fun hbad =>
    pour_fails hon hring hs ho hstops hbad⟩, fun rid r s hon hstep => ⟨decode_admits hon hstep, decode_waits hon hstep⟩⟩
  refine does_mono (pour_opens hon hring hs ho hstops hfits hok) fun t ⟨hr, hother, hbytes⟩ => ⟨hr, hother, fun a h1 h2 => ?_, fun a ha => ?_⟩
  · rw [hbytes, ringWrites_zero _ h1 h2]
  · rw [hbytes, ringWrites_kept _ ha]

/-! ### Budgets -/

/-- All budgets refilled: every class's budget is its REFILL. -/
theorem refillAll_class (s : State) (n c : Nat) (x : ClassSt) (h : tabFind s.pur.classes c = some x) :
    tabFind (refillAll s n).pur.classes c = some { x with budget := x.refill } := by
  rw [refillAll]
  dsimp only
  rw [tabFind_tabMap, h]
  rfl

theorem budgetRefill_refills (s : State) : Does .budgetRefill s fun t =>
    (s.pur.lastRefill + s.pur.period.toNat * 1000000 ≤ s.hub.time.toNat → (∀ c x, tabFind s.pur.classes c = some x →
      tabFind t.pur.classes c = some { x with budget := x.refill }) ∧
      t.pur.lastRefill = s.pur.lastRefill + s.pur.period.toNat * 1000000) ∧
    (s.hub.time.toNat < s.pur.lastRefill + s.pur.period.toNat * 1000000 → t = s) ∧
    t = { s with pur := { s.pur with classes := t.pur.classes, lastRefill := t.pur.lastRefill } } := by
  have hperiod : periodNs s = s.pur.period.toNat * 1000000 := rfl
  by_cases hdue : s.pur.lastRefill + periodNs s ≤ s.hub.time.toNat
  · have hrow : budgetRefill s = refillAll s (s.pur.lastRefill + periodNs s) := by rw [budgetRefill, if_pos hdue]
    refine does_of (congrArg Host.Outcome.next hrow) ⟨fun _ => ⟨refillAll_class s _, rfl⟩, fun h => ?_, rfl⟩
    omega
  · have hrow : budgetRefill s = s := by rw [budgetRefill, if_neg hdue]
    exact does_of (congrArg Host.Outcome.next hrow) ⟨fun h => absurd h hdue, fun _ => rfl, rfl⟩

theorem budgetPeriodWrite_refills (a : Agent) (v : W64) (s : State) : Does (.budgetPeriodWrite a v) s fun t =>
    (a = .mgmt → t = s) ∧
    (a ≠ .mgmt → t.pur.period.toNat = max 1 (min 86400000 (v.toNat % 2 ^ 32)) ∧
      (s.pur.lastRefill + t.pur.period.toNat * 1000000 ≤ s.hub.time.toNat → t.pur.lastRefill = s.hub.time.toNat ∧
        ∀ c x, tabFind s.pur.classes c = some x → tabFind t.pur.classes c = some { x with budget := x.refill }) ∧
      (s.hub.time.toNat < s.pur.lastRefill + t.pur.period.toNat * 1000000 → t.pur.classes = s.pur.classes ∧
        t.pur.lastRefill = s.pur.lastRefill)) ∧
    t = { s with pur := { s.pur with period := t.pur.period, classes := t.pur.classes, lastRefill := t.pur.lastRefill } } := by
  by_cases ha : a = .mgmt
  · have hrow : budgetPeriodWrite s a v = s := by rw [budgetPeriodWrite, if_pos ha]
    exact does_of (congrArg Host.Outcome.next hrow) ⟨fun _ => rfl, fun h => absurd ha h, rfl⟩
  obtain ⟨z, hz⟩ : ∃ z : BitVec 32, z = BitVec.ofNat 32 (clamp 1 86400000 (bits v.toNat 31 0)) := ⟨_, rfl⟩
  obtain ⟨u, hu⟩ : ∃ u, u = { s with pur := { s.pur with period := z } } := ⟨_, rfl⟩
  have hrow : budgetPeriodWrite s a v = if u.pur.lastRefill + periodNs u ≤ u.hub.time.toNat then refillAll u u.hub.time.toNat else u := by
    rw [budgetPeriodWrite, if_neg ha, hu, hz]
  have hperiod : z.toNat = max 1 (min 86400000 (v.toNat % 2 ^ 32)) := by
    rw [hz, clamp, bits_low, BitVec.toNat_ofNat]
    exact Nat.mod_eq_of_lt (by omega)
  have hns : periodNs u = z.toNat * 1000000 := by rw [hu]; rfl
  by_cases hdue : u.pur.lastRefill + periodNs u ≤ u.hub.time.toNat
  · rw [if_pos hdue] at hrow
    rw [hns] at hdue
    subst hu
    refine does_of (congrArg Host.Outcome.next hrow) ⟨fun h => absurd h ha, fun _ => ⟨hperiod, fun _ => ⟨rfl, fun c x hx => refillAll_class _ _ c x hx⟩, fun h => ?_⟩, rfl⟩
    exact absurd h (Nat.not_lt.2 hdue)
  · rw [if_neg hdue] at hrow
    rw [hns] at hdue
    subst hu
    exact does_of (congrArg Host.Outcome.next hrow) ⟨fun h => absurd h ha, fun _ => ⟨hperiod, fun h => absurd h hdue, fun _ => ⟨rfl, rfl⟩⟩, rfl⟩

theorem budgetsRefill : Claim.budgetsRefill := ⟨budgetRefill_refills, budgetPeriodWrite_refills⟩

end Sys2Proof.Proofs
end

