-- ==== Sys2Proof/Proofs/TokenChoices.lean ====
section
/-! PROOFS. The first half of a decode step: the requests chosen, and a choice among the logits of each (spec/13 R330, R332, R341). -/

namespace Sys2Proof.Proofs

open Sys2Proof Sys2Proof.Machine Sys2Proof.Laws

/-! ### The round robin -/

/-- The round robin chooses requests of its list, each once, and no more than it has slots for. -/
theorem drr_chooses (s : State) (some' : List Nat) (f : Nat) : ∀ (slots : Nat) (elig : List (Nat × Request)) (out : List Nat) (m : ModelSt),
    ∃ l, (drr s some' f slots elig out m).1 = out ++ l ∧ l.Nodup ∧ l.length ≤ slots ∧ ∀ i ∈ l, ∃ p ∈ elig, p.1 = i := by
  induction f with
  | zero => exact fun slots elig out m => ⟨[], (List.append_nil out).symm, .nil, Nat.zero_le _, by simp⟩
  | succ f ih =>
    intro slots elig out m
    rw [drr]
    by_cases hstop : (slots = 0 || elig = [] : Bool) = true
    · rw [if_pos hstop]
      exact ⟨[], (List.append_nil out).symm, .nil, Nat.zero_le _, by simp⟩
    rw [if_neg hstop]
    have hslots : slots ≠ 0 := by
      rintro rfl
      exact hstop rfl
    dsimp only
    split
    · exact ih slots elig out _
    split
    · exact ih slots elig out _
    next x hx =>
      generalize (if m.visited = true then tabGet 0 m.deficit m.pointer else _) = d
      split
      · obtain ⟨l, hl, hnodup, hlen, hmem⟩ := ih (slots - 1) (elig.filter fun r => r.1 ≠ x.1) (out ++ [x.1])
          { m with visited := true, deficit := tabSet 0 m.deficit m.pointer (d - s.pur.cost.toNat) }
        have hin : x ∈ elig := by
          have hsorted := (sortBy_perm _ _).mem_iff.1 (List.mem_of_mem_head? hx)
          exact List.mem_of_mem_filter hsorted
        refine ⟨x.1 :: l, by rw [hl, List.append_assoc, List.singleton_append], ?_, ?_, ?_⟩
        · refine List.nodup_cons.2 ⟨fun hxl => ?_, hnodup⟩
          obtain ⟨p, hp, hpx⟩ := hmem _ hxl
          simp [hpx] at hp
        · rw [List.length_cons]
          omega
        · intro i hi
          obtain rfl | hi := List.mem_cons.1 hi
          · exact ⟨x, hin, rfl⟩
          · obtain ⟨p, hp, hpi⟩ := hmem i hi
            exact ⟨p, List.mem_of_mem_filter hp, hpi⟩
      · exact ih slots elig out _

/-! ### The offer of a choice -/

/-- What an offer of command `id`'s own leaves alone. -/
structure Offered (s t : State) (id : Nat) : Prop where
  mem : t.mem = s.mem
  prt : t.prt = s.prt
  reqs : t.pur.reqs = s.pur.reqs
  models : t.pur.models = s.pur.models
  nextId : t.pur.nextId = s.pur.nextId
  cmds (j : Nat) (h : j ≠ id) : getCmd t j = getCmd s j

/-- A choice of a token is offered, waits, or is refused; its command stays, with its working space. -/
theorem offerKept_sample {s : State} {id : Nat} {c : PCmd} {e : Eng} {b : Bytes} (hc : getCmd s id = some c) (hjobs : c.jobs = [])
    (hoffer : c.offer = [(e, b)]) (hwork : c.work = .sample) (henq : c.enq = none) (hmover : c.mover = none) (he : e.kind ≠ .core)
    (hwanted : s.pur.reqs.any (fun r => r.2.sampler = some id) = true) :
    Offered s (offerKept s id) id ∧ ∃ c', getCmd (offerKept s id) id = some c' ∧ c'.work = .sample ∧ c'.buf = c.buf := by
  obtain ⟨d, hd⟩ : ∃ d, d = { c with jobs := [0], offer := [] } := ⟨_, rfl⟩
  obtain ⟨u, hu⟩ : ∃ u, u = putCmd s id d := ⟨_, rfl⟩
  have hget : getCmd u id = some d := by rw [hu]; exact tabFind_tabPut_self _ _ _
  have hput : Offered s u id := by
    rw [hu]
    exact ⟨rfl, rfl, rfl, rfl, rfl, fun j hj => by simp [getCmd, putCmd, tabFind_tabPut, Ne.symm hj]⟩
  have hkept : id = id ∧ ∃ c', getCmd s id = some c' ∧ c'.work = .sample ∧ c'.buf = c.buf := ⟨rfl, c, hc, hwork, rfl⟩
  have hreport (v : State) (st : Status) (hv : Offered s v id) (hvc : getCmd v id = some d) :
      Offered s (reportCmd v (some (id, 0)) st) id ∧ ∃ c', getCmd (reportCmd v (some (id, 0)) st) id = some c' ∧
        c'.work = .sample ∧ c'.buf = c.buf := by
    have hwants : d.wanted v id = true := by rw [PCmd.wanted, hv.reqs, hwanted, Bool.or_true]
    have hrow : reportCmd v (some (id, 0)) st = putCmd v id { d with jobs := [], done := tabPut d.done 0 st } := by
      have hd1 : d.enq = none := by rw [hd]; exact henq
      have hd2 : d.mover = none := by rw [hd]; exact hmover
      have hd3 : ¬ d.work = .none := by
        rw [hd]
        dsimp only
        rw [hwork]
        decide
      rw [reportCmd]
      dsimp only
      rw [hvc]
      dsimp only
      split
      · rw [stageReport]
        split
        next h => exact absurd (hd2.symm.trans h) (by simp)
        next => rw [if_neg hd3, if_pos hwants]
      next h => exact absurd (hd1.symm.trans h) (by simp)
    rw [hrow]
    refine ⟨⟨hv.mem, hv.prt, hv.reqs, hv.models, hv.nextId, fun j hj => ?_⟩, _, tabFind_tabPut_self _ _ _, ?_, ?_⟩
    · rw [← hv.cmds j hj]
      simp [getCmd, putCmd, tabFind_tabPut, Ne.symm hj]
    · rw [hd]
      exact hwork
    · rw [hd]
  have hrow : offerKept s id = match offerCmd u e b (some (id, 0)) with
      | (_, .waits) => s
      | (t, .queued) => t
      | (t, .ended st) => reportCmd t (some (id, 0)) st
      | (t, .refused) => reportCmd t (some (id, 0)) .internal := by
    rw [offerKept, hc]
    dsimp only
    rw [hjobs, hoffer, hu, hd] <;> rfl
  rw [hrow]
  cases hon : (getCtx u (cmdCtx b)).enable with
  | false =>
    rw [offerCmd_disabled (some (id, 0)) hon]
    exact hreport u .disabled hput hget
  | true =>
    cases hreach : mayReach u e (cmdCtx b) with
    | false =>
      rw [offerCmd_refused (some (id, 0)) hon hreach]
      have hlog : Fr 1048580 u (logEntry u (refusedEntry e b)) := logEntry_fr (by decide) (Fr.refl _ _)
      have hpur : (logEntry u (refusedEntry e b)).pur = u.pur := hlog.same .pur rfl
      refine hreport _ .internal ⟨(hlog.same .mem rfl).trans hput.mem, (hlog.same .prt rfl).trans hput.prt, ?_, ?_, ?_, fun j hj => ?_⟩ ?_
      · rw [hpur, hput.reqs]
      · rw [hpur, hput.models]
      · rw [hpur, hput.nextId]
      · rw [getCmd_of_cmds (s := u) (by rw [hpur]), hput.cmds j hj]
      · rw [getCmd_of_cmds (s := u) (by rw [hpur]), hget]
    | true =>
      by_cases hroom : (getQ u e (cmdCtx b)).queue.length < queueRoom u e (cmdCtx b)
      · rw [offerCmd_queued (some (id, 0)) hon hreach hroom]
        exact ⟨⟨hput.mem, hput.prt, hput.reqs, hput.models, hput.nextId, hput.cmds⟩, d, hget, by rw [hd]; exact hwork, by rw [hd]⟩
      · rw [offerCmd_waits (some (id, 0)) hon hreach (Nat.le_of_not_lt hroom) he]
        exact ⟨⟨rfl, rfl, rfl, rfl, rfl, fun _ _ => rfl⟩, hkept.2⟩

/-! ### The start of one choice -/

/-- The logits of a request as the packed keys of a choice. -/
def logitKeys (r : Request) (vocab : Nat) : Bytes := (List.range vocab).flatMap fun j => toLe 4 (Config.free (r.logits + j) % 2 ^ 32)

theorem logitKeys_length (r : Request) (vocab : Nat) : (logitKeys r vocab).length = 4 * vocab := by
  simp [logitKeys, List.length_flatMap, Nat.mul_comm]

/-- The choice of request `rid` has begun with its keys at `a`, as the purser's next own command. -/
structure SampleBegun (s t : State) (rid a vocab : Nat) (r : Request) : Prop where
  wrote : ∃ v, Wrote s v a (logitKeys r vocab) ∧ t.mem = v.mem ∧ t.prt = v.prt
  req : getReq t rid = some { r with sampler := some s.pur.nextId }
  others : Claim.otherReqs s t rid
  models : t.pur.models = s.pur.models
  nextId : t.pur.nextId = s.pur.nextId + 1
  cmd : ∃ c, getCmd t s.pur.nextId = some c ∧ c.work = .sample ∧ c.buf = a
  cmds (j : Nat) (h : j ≠ s.pur.nextId) : getCmd t j = getCmd s j

/-- Of a command of the purser's own that chooses a token, a step is its offer. -/
theorem ownStep_sample {s : State} {id : Nat} {c : PCmd} (hc : getCmd s id = some c) (hjobs : c.jobs = []) 
    (hwork : c.work = .sample) (hoffer : c.offer ≠ []) (f : Nat) : ownStep (f + 1) s id = offerKept s id := by
  rw [ownStep, hc]
  have hnone : c.work ≠ .none := by rw [hwork]; decide
  simp only [hjobs, hwork, ne_eq, not_true_eq_false, decide_false, Bool.false_or, Bool.and_false, Bool.false_eq_true, if_false, hoffer,
    not_false_eq_true, if_true]
  rw [if_neg (by decide)]

theorem sampleBegin_begun {s : State} {rid a vocab : Nat} {r : Request} (hr : getReq s rid = some r) (hs : Claim.clean s)
    (ho : Claim.openTo s (whoPurser (some r.ctx))) (hin : a + 4 * vocab ≤ wheelBase) :
    SampleBegun s (sampleBegin s vocab rid a) rid a vocab r := by
  obtain ⟨v, hv, hw⟩ := wr_of_clean hs (ho a (logitKeys r vocab).length true (by rw [logitKeys_length]; exact hin))
  obtain ⟨e, he⟩ : ∃ e, e = pickEng v .ssu r.ctx := ⟨_, rfl⟩
  obtain ⟨id, hid⟩ : ∃ id, id = s.pur.nextId := ⟨_, rfl⟩
  obtain ⟨z, hz⟩ : ∃ z : Request, z = { r with sampler := some id } := ⟨_, rfl⟩
  obtain ⟨c, hc⟩ : ∃ c : PCmd, c = { work := .sample, buf := a, offer := [(e.1, choiceBytes r.ctx true a vocab (sampleK r) 0)] } := ⟨_, rfl⟩
  obtain ⟨u, hu⟩ : ∃ u, u = ownCmd (putReq e.2 rid z) c := ⟨_, rfl⟩
  have hpur : e.2.pur = s.pur := by rw [he, ← hw.pur]; rfl
  have hnext : e.2.pur.nextId = id := by rw [hpur, hid]
  have hrow : sampleBegin s vocab rid a = ownStep 8 u id := by
    have hrun := runAct_ok hv
    rw [logitKeys] at hrun
    rw [sampleBegin, hr]
    dsimp only
    rw [hrun]
    dsimp only
    rw [← he, hnext, startOwn, hu, hc, hz, ← hnext]
    rfl
  obtain ⟨d, hd⟩ : ∃ d, d = { c with mb := 64, phase := .running, taken := e.2.hub.time, lastProgress := e.2.hub.time } := ⟨_, rfl⟩
  have hucmds : u.pur.cmds = tabPut s.pur.cmds id d := by
    rw [hu, hd, ← hnext, ← hpur]
    rfl
  have hcmd : getCmd u id = some d := by rw [getCmd, hucmds, tabFind_tabPut_self]
  have hureqs : u.pur.reqs = tabPut s.pur.reqs rid z := by
    rw [hu, ← hpur]
    rfl
  have hwanted : u.pur.reqs.any (fun r => r.2.sampler = some id) = true := by
    refine List.any_eq_true.2 ⟨(rid, z), mem_of_tabFind ?_, by rw [hz]; simp⟩
    rw [hureqs, tabFind_tabPut_self]
  have hoffer : d.offer = [(e.1, choiceBytes r.ctx true a vocab (sampleK r) 0)] := by rw [hd, hc]
  have hwork : d.work = .sample := by rw [hd, hc]
  have hdefault : d.jobs = [] ∧ d.enq = none ∧ d.mover = none ∧ d.buf = a := by
    rw [hd, hc]
    exact ⟨rfl, rfl, rfl, rfl⟩
  obtain ⟨hjobs, henq, hmover, hbuf⟩ := hdefault
  have hkind : e.1.kind ≠ .core := by
    rw [he]
    exact fun h => EngKind.noConfusion h
  rw [hrow, ownStep_sample hcmd hjobs hwork (by rw [hoffer]; exact List.cons_ne_nil _ _)]
  obtain ⟨hoff, c', hc', hwork', hbuf'⟩ := offerKept_sample hcmd hjobs hoffer hwork henq hmover hkind hwanted
  have hcmds (j : Nat) (hj : j ≠ id) : getCmd u j = getCmd s j := by
    rw [getCmd, hucmds, tabFind_tabPut, if_neg (Ne.symm hj)]
    rfl
  subst hid
  refine ⟨⟨v, hw, hoff.mem.trans ?_, hoff.prt.trans ?_⟩, ?_, fun i hi => ?_, hoff.models.trans ?_, hoff.nextId.trans ?_,
    ⟨c', hc', hwork', hbuf'.trans hbuf⟩, fun j hj => (hoff.cmds j hj).trans (hcmds j hj)⟩
  · rw [hu, he]
    rfl
  · rw [hu, he]
    rfl
  · rw [getReq, hoff.reqs, hureqs, tabFind_tabPut_self, hz]
  · rw [getReq, hoff.reqs, hureqs, tabFind_tabPut, if_neg (Ne.symm hi)]
    rfl
  · rw [hu, ← hpur]
    rfl
  · rw [hu, ← hpur]
    rfl

/-! ### The start of every choice -/

/-- What a request is once its choice has begun as command `id`. -/
def choosing (r : Request) (id : Nat) : Request := { r with fwd := {}, sampler := some id }

/-- The part of a batch that begins the choice of one request. -/
def chooseOne (buf space vocab : Nat) (s : State) (p : Nat × Nat) : State :=
  sampleBegin (modReq s p.1 fun r => { r with fwd := {} }) vocab p.1 (buf + p.2 * space)

/-- The choice of request `rid` has begun, and nothing else has changed but its keys at `a` and its command. -/
structure Chosen (s t : State) (rid a vocab : Nat) (r : Request) : Prop where
  keys : memRead t.mem.bytes a (4 * vocab) = logitKeys r vocab
  kept (j : Nat) (h : j < a ∨ a + 4 * vocab ≤ j) : memGet t.mem.bytes j = memGet s.mem.bytes j
  prt : SamePrt s.prt t.prt
  clean : Claim.clean t
  req : getReq t rid = some (choosing r s.pur.nextId)
  others : Claim.otherReqs s t rid
  models : t.pur.models = s.pur.models
  nextId : t.pur.nextId = s.pur.nextId + 1
  cmd : ∃ c, getCmd t s.pur.nextId = some c ∧ c.work = .sample ∧ c.buf = a
  cmds (j : Nat) (h : j ≠ s.pur.nextId) : getCmd t j = getCmd s j

theorem chooseOne_chosen {s : State} {rid n buf space vocab : Nat} {r : Request} (hr : getReq s rid = some r) (hs : Claim.clean s)
    (ho : Claim.openTo s (whoPurser (some r.ctx))) (hin : buf + n * space + 4 * vocab ≤ wheelBase) :
    Chosen s (chooseOne buf space vocab s (rid, n)) rid (buf + n * space) vocab r := by
  obtain ⟨u, hu⟩ : ∃ u, u = putReq s rid { r with fwd := {} } := ⟨_, rfl⟩
  have hget : getReq u rid = some { r with fwd := {} } := by rw [hu, getReq_putReq]
  have hother : Claim.otherReqs s u rid := by rw [hu]; exact otherReqs_putReq s rid _
  have hrow : chooseOne buf space vocab s (rid, n) = sampleBegin u vocab rid (buf + n * space) := by
    rw [chooseOne, modReq_of hr, ← hu]
  have hmem : u.mem = s.mem := by rw [hu]; rfl
  have hprt : u.prt = s.prt := by rw [hu]; rfl
  have hnext : u.pur.nextId = s.pur.nextId := by rw [hu]; rfl
  have hmodels : u.pur.models = s.pur.models := by rw [hu]; rfl
  have hcmds : u.pur.cmds = s.pur.cmds := by rw [hu]; rfl
  have hb := sampleBegin_begun (vocab := vocab) hget (clean_of_mem hs hmem) (openTo_of_samePrt (by rw [hprt]; exact .refl _) ho) hin
  obtain ⟨⟨v, hw, htmem, htprt⟩, hreq, hothers, htmodels, htnext, hcmd, hkept⟩ := hb
  have hlen : (logitKeys { r with fwd := {} } vocab).length = 4 * vocab := logitKeys_length _ _
  rw [hrow]
  rw [hnext] at hreq htnext hcmd hkept
  refine ⟨?_, fun j hj => ?_, ?_, ?_, hreq, otherReqs_trans hother hothers, htmodels.trans hmodels, htnext, hcmd, fun j hj => ?_⟩
  · have hread := memRead_memWrite u.mem.bytes (buf + n * space) (logitKeys { r with fwd := {} } vocab)
    rw [hlen] at hread
    rw [htmem, hw.bytes, hread]
    rfl
  · rw [htmem, hw.outside (by rw [hlen]; exact hj), hmem]
  · rw [htprt, ← hprt]
    exact hw.prt
  · exact clean_of_mem (hw.clean (clean_of_mem hs hmem)) htmem
  · rw [hkept j hj]
    exact getCmd_of_cmds hcmds j

/-- The choices of the requests `l` have begun, the first of them in the `k`-th part of the working space. -/
structure AllChosen (s t : State) (l : List Nat) (k buf space vocab : Nat) : Prop where
  each (i rid : Nat) (h : l[i]? = some rid) : ∃ r id c, getReq s rid = some r ∧ getReq t rid = some (choosing r id) ∧
    getCmd t id = some c ∧ c.work = .sample ∧ c.buf = buf + (k + i) * space ∧
    memRead t.mem.bytes c.buf (4 * vocab) = logitKeys r vocab
  kept (j : Nat) (h : j < buf + k * space) : memGet t.mem.bytes j = memGet s.mem.bytes j
  others (rid : Nat) (h : rid ∉ l) : getReq t rid = getReq s rid
  models : t.pur.models = s.pur.models
  cmds (j : Nat) (h : j < s.pur.nextId) : getCmd t j = getCmd s j

theorem chooseAll_chosen {buf space vocab : Nat} (hspace : 4 * vocab ≤ space) (l : List Nat) : ∀ (k : Nat) {s : State}, l.Nodup →
    Claim.clean s → (∀ rid ∈ l, ∃ r, getReq s rid = some r ∧ Claim.openTo s (whoPurser (some r.ctx))) →
    buf + (k + l.length) * space ≤ wheelBase →
    AllChosen s ((l.zipIdx k).foldl (chooseOne buf space vocab) s) l k buf space vocab := by
  induction l with
  | nil => exact fun k s _ _ _ _ => ⟨by simp, fun _ _ => rfl, fun _ _ => rfl, rfl, fun _ _ => rfl⟩
  | cons rid l ih =>
    intro k s hnodup hs hreqs hin
    obtain ⟨hnot, hnodup⟩ := List.nodup_cons.1 hnodup
    obtain ⟨r, hr, ho⟩ := hreqs rid List.mem_cons_self
    rw [List.length_cons] at hin
    have hsplit : (k + (l.length + 1)) * space = k * space + space + l.length * space := by ring
    have hnext : (k + 1) * space = k * space + space := Nat.succ_mul _ _
    have hone := chooseOne_chosen (n := k) (space := space) hr hs ho (by omega : buf + k * space + 4 * vocab ≤ wheelBase)
    rw [List.zipIdx_cons, List.foldl_cons]
    obtain ⟨u, hu⟩ : ∃ u, u = chooseOne buf space vocab s (rid, k) := ⟨_, rfl⟩
    rw [← hu] at hone ⊢
    have hall := ih (k + 1) (s := u) hnodup hone.clean (fun i hi => ?_) (by rw [Nat.add_assoc, Nat.add_comm 1]; exact hin)
    · obtain ⟨t, ht⟩ : ∃ t, t = (l.zipIdx (k + 1)).foldl (chooseOne buf space vocab) u := ⟨_, rfl⟩
      rw [← ht] at hall ⊢
      refine ⟨fun i j hj => ?_, fun j hj => ?_, fun i hi => ?_, hall.models.trans hone.models, fun j hj => ?_⟩
      · cases i with
        | zero =>
          obtain rfl : rid = j := by simpa using hj
          obtain ⟨c, hc, hwork, hbuf⟩ := hone.cmd
          refine ⟨r, s.pur.nextId, c, hr, (hall.others rid hnot).trans hone.req, ?_, hwork, hbuf, ?_⟩
          · rw [hall.cmds _ (by rw [hone.nextId]; omega), hc]
          · rw [hbuf, ← hone.keys]
            exact memRead_congr fun a h1 h2 => hall.kept a (by omega)
        | succ i =>
          rw [List.getElem?_cons_succ] at hj
          obtain ⟨q, id, c, hq, hrest⟩ := hall.each i j hj
          have hne : j ≠ rid := fun h => hnot (h ▸ List.mem_of_getElem? hj)
          rw [hone.others j hne] at hq
          rw [Nat.add_right_comm, Nat.add_assoc] at hrest
          exact ⟨q, id, c, hq, hrest⟩
      · rw [hall.kept j (by omega), hone.kept j (.inl hj)]
      · rw [hall.others i fun h => hi (List.mem_cons_of_mem _ h), hone.others i fun h => hi (h ▸ List.mem_cons_self)]
      · rw [hall.cmds j (by rw [hone.nextId]; omega), hone.cmds j (by omega)]
    · obtain ⟨q, hq, hqo⟩ := hreqs i (List.mem_cons_of_mem _ hi)
      exact ⟨q, by rw [hone.others i fun h => hnot (h ▸ hi), hq], openTo_of_samePrt hone.prt hqo⟩

/-! ### A batch is chosen -/

theorem sampleSpace_keys (vocab : Nat) : 4 * vocab ≤ sampleSpace vocab := by
  have hup (n : Nat) : n ≤ up64 n := by
    rw [up64, ceilDiv]
    omega
  have h1 := hup (4 * vocab)
  have h2 := hup (choiceSum 0 vocab 0 + 32)
  have h3 : up64 (4 * vocab) ≤ choiceSum 0 vocab 0 := by rw [choiceSum, choiceDst]; omega
  have h4 : choiceScratch 0 vocab 0 = up64 (choiceSum 0 vocab 0 + 32) := rfl
  rw [sampleSpace, choiceEnd, h4]
  omega

/-- The first half of a decode step, whose model record reads well, chooses its batch and begins the choice of each. -/
theorem stepBegin_of {s : State} {model buf : Nat} {m : ModelSt} {p : Nat × Request} {y : Model}
    (hhead : (s.pur.reqs.filter fun p => eligible s model p.2).head? = some p) (hread : Claim.modelRead s model (fld p.2.record 16 8) y)
    (hs : Claim.clean s) (ho : Claim.openTo s (whoPurser (some p.2.ctx))) :
    ∃ v x, Charged s v ∧ x = drr v ((s.pur.reqs.filter fun p => eligible s model p.2).map (·.2.cls)) drrFuel y.batch
        (s.pur.reqs.filter fun p => eligible s model p.2) [] m ∧
      stepBegin s model m buf = x.1.zipIdx.foldl (chooseOne buf (sampleSpace y.vocab) y.vocab)
        { v with pur := { v.pur with models := tabPut v.pur.models model { x.2 with chosen := x.1, vocab := y.vocab } } } := by
  obtain ⟨v, hv, hch⟩ := (rdModel_reads hs ho hread).run
  refine ⟨v, _, hch, rfl, ?_⟩
  unfold stepBegin
  dsimp only
  rw [hhead]
  dsimp only
  rw [hv]
  rfl

theorem batchIsChosen (model buf : Nat) (m : ModelSt) (p : Nat × Request) (y : Model) (s : State)
    (hm : tabFind s.pur.models model = some m) (hnone : m.chosen = []) (hworks : purWorks s = true) (hs : Claim.clean s)
    (hsorted : s.pur.reqs.Pairwise fun a b => a.1 < b.1) (hhead : (s.pur.reqs.filter fun p => eligible s model p.2).head? = some p)
    (hread : Claim.modelRead s model (fld p.2.record 16 8) y) (hin : buf + y.batch * sampleSpace y.vocab ≤ wheelBase)
    (hopen : ∀ q ∈ s.pur.reqs, eligible s model q.2 = true → Claim.openTo s (whoPurser (some q.2.ctx))) :
    Does (.decodeStep model false buf) s fun t =>
      ∃ m', tabFind t.pur.models model = some m' ∧ m'.vocab = y.vocab ∧ m'.chosen.Nodup ∧ m'.chosen.length ≤ y.batch ∧
        (∀ i rid, m'.chosen[i]? = some rid → ∃ r id c, getReq s rid = some r ∧ eligible s model r = true ∧
          getReq t rid = some { r with fwd := {}, sampler := some id } ∧ getCmd t id = some c ∧ c.work = .sample ∧
          c.buf = buf + i * sampleSpace y.vocab ∧
          memRead t.mem.bytes c.buf (4 * y.vocab) =
            (List.range y.vocab).flatMap fun j => toLe 4 (Config.free (r.logits + j) % 2 ^ 32)) ∧
        (∀ rid, rid ∉ m'.chosen → getReq t rid = getReq s rid) ∧
        ∀ a, a < buf → memGet t.mem.bytes a = memGet s.mem.bytes a := by
  have hmem (q : Nat × Request) (hq : q ∈ s.pur.reqs.filter fun p => eligible s model p.2) :
      q ∈ s.pur.reqs ∧ eligible s model q.2 = true := List.mem_filter.1 hq
  obtain ⟨hp, help⟩ := hmem p (List.mem_of_mem_head? hhead)
  obtain ⟨v, x, hch, hx, hrow⟩ := stepBegin_of (buf := buf) (m := m) hhead hread hs (hopen p hp help)
  obtain ⟨l, hl, hnodup, hlen, hfrom⟩ := drr_chooses v ((s.pur.reqs.filter fun p => eligible s model p.2).map (·.2.cls)) drrFuel y.batch
    (s.pur.reqs.filter fun p => eligible s model p.2) [] m
  rw [← hx, List.nil_append] at hl
  obtain ⟨m', hm'⟩ : ∃ m' : ModelSt, m' = { x.2 with chosen := x.1, vocab := y.vocab } := ⟨_, rfl⟩
  obtain ⟨w, hw⟩ : ∃ w, w = { v with pur := { v.pur with models := tabPut v.pur.models model m' } } := ⟨_, rfl⟩
  rw [← hm', ← hw] at hrow
  have hchosen : m'.chosen = l := by rw [hm', ← hl]
  have hwreqs (i : Nat) : getReq w i = getReq s i := by
    rw [hw]
    exact hch.getReq i
  have hwprt : SamePrt s.prt w.prt := by rw [hw]; exact hch.prt
  have hwmem : w.mem = s.mem := by rw [hw]; exact hch.mem
  have heligible (i : Nat) (hi : i ∈ l) : ∃ r, getReq s i = some r ∧ eligible s model r = true ∧ Claim.openTo s (whoPurser (some r.ctx)) := by
    obtain ⟨q, hq, rfl⟩ := hfrom i hi
    obtain ⟨hq1, hq2⟩ := hmem q hq
    exact ⟨q.2, tabFind_of_mem hsorted hq1, hq2, hopen q hq1 hq2⟩
  have hall := chooseAll_chosen (buf := buf) (sampleSpace_keys y.vocab) l 0 (s := w) hnodup (clean_of_mem hs hwmem) (fun i hi => ?_)
    (by rw [Nat.zero_add]; exact Nat.le_trans (Nat.add_le_add_left (Nat.mul_le_mul_right _ hlen) _) hin)
  · rw [← hl, ← hrow] at hall
    have hstep : decodeStep s model false buf = stepBegin s model m buf := by
      rw [decodeStep, hm]
      dsimp only
      rw [hworks, hnone]
      rfl
    rw [← hstep] at hall
    refine does_of rfl ⟨m', ?_, by rw [hm'], by rw [hchosen]; exact hnodup, by rw [hchosen]; exact hlen, ?_, ?_, ?_⟩
    · rw [hall.models, hw]
      exact tabFind_tabPut_self _ _ _
    · intro i rid hi
      rw [hchosen, ← hl] at hi
      obtain ⟨r, id, c, hr, hreq, hc, hwork, hbuf, hkeys⟩ := hall.each i rid hi
      obtain ⟨q, hq, help', -⟩ := heligible rid (hl ▸ List.mem_of_getElem? hi)
      rw [hwreqs] at hr
      obtain rfl : q = r := Option.some.inj (hq.symm.trans hr)
      rw [Nat.zero_add] at hbuf
      exact ⟨q, id, c, hr, help', hreq, hc, hwork, hbuf, hkeys⟩
    · intro rid hrid
      rw [hchosen, ← hl] at hrid
      exact (hall.others rid hrid).trans (hwreqs rid)
    · intro a ha
      rw [hall.kept a (by omega), hwmem]
  · obtain ⟨r, hr, -, ho⟩ := heligible i hi
    exact ⟨r, (hwreqs i).trans hr, openTo_of_samePrt hwprt ho⟩

/-! ### A token is handed over -/

/-- What a unit chose, as the purser reads it. -/
theorem choiceRecs_reads {s : State} {w : Who} (hs : Claim.clean s) (ho : Claim.openTo s w) {a n k : Nat} (hin : choiceEnd a n k ≤ wheelBase) :
    let top := if k = 0 then n else k
    let count := min top (leNat (memRead s.mem.bytes (choiceSum a n k + 4) 4))
    Reads s (choiceRecs w a n k) (((List.range count).map (recAt (memRead s.mem.bytes (choiceDst a n) (32 * count)))).filter SelRec.valid) := by
  have hup (n : Nat) : n ≤ up64 n := by
    rw [up64, ceilDiv]
    omega
  intro top count
  have htop : count ≤ top := Nat.min_le_left _ _
  have hsum : choiceSum a n k = choiceDst a n + 32 * top := rfl
  have hscratch : choiceScratch a n k = up64 (choiceSum a n k + 32) := rfl
  have hbound := hup (choiceSum a n k + 32)
  rw [choiceEnd, hscratch] at hin
  refine .bind (.rdNat hs ho (by omega)) (.bind (.rd hs ho ?_ rfl) (.pure _))
  show choiceDst a n + 32 * count ≤ wheelBase
  omega

/-- A choice that is made gives its token to the request's sequencer. -/
theorem sampleEnd_gives {s : State} {vocab rid id : Nat} {r : Request} {c : PCmd} (hr : getReq s rid = some r) (hs : Claim.clean s)
    (ho : Claim.openTo s (whoPurser (some r.ctx))) (hin : choiceEnd c.buf vocab (sampleK r) ≤ wheelBase) :
    let top := if sampleK r = 0 then vocab else sampleK r
    let n := min top (leNat (memRead s.mem.bytes (choiceSum c.buf vocab (sampleK r) + 4) 4))
    let recs := ((List.range n).map (recAt (memRead s.mem.bytes (choiceDst c.buf vocab) (32 * n)))).filter SelRec.valid
    let t := sampleEnd s vocab rid id r c .ok
    getReq t rid = some { r with
      sampler := none
      events := r.events ++ [.token (sampleToken (BitVec.ofNat 32 (fld r.record 128 4)) (BitVec.ofNat 32 (fld r.record 132 4)) recs
        (Config.random s.pur.entropy (Config.free s.freeCtr)))] } ∧
    Claim.otherReqs s t rid ∧ getCmd t id = none ∧ t.mem = s.mem := by
  intro top n recs t
  obtain ⟨d, hd⟩ : ∃ d, d = { s with pur := { s.pur with cmds := tabDel s.pur.cmds id } } := ⟨_, rfl⟩
  obtain ⟨u, hu⟩ : ∃ u, u = putReq d rid { r with sampler := none } := ⟨_, rfl⟩
  have hmem : u.mem = s.mem := by rw [hu, hd]; rfl
  have hrecs := choiceRecs_reads (clean_of_mem hs hmem) (openTo_of_samePrt (by rw [hu, hd]; exact .refl _) ho) hin
  rw [hmem] at hrecs
  obtain ⟨v, hv, hch⟩ := hrecs.run
  have hdreq : getReq d rid = some r := (getReq_of_reqs (by rw [hd]) rid).trans hr
  have hvreq : getReq v rid = some { r with sampler := none } := by rw [hch.getReq, hu, getReq_putReq]
  have hventropy : v.pur.entropy = s.pur.entropy := by rw [hch.eq, hu, hd]; rfl
  have hvfree : v.freeCtr = s.freeCtr := by rw [hch.eq, hu, hd]; rfl
  obtain ⟨ev, hev⟩ : ∃ ev, ev = SeqEvent.token (sampleToken (BitVec.ofNat 32 (fld r.record 128 4)) (BitVec.ofNat 32 (fld r.record 132 4))
    recs (Config.random s.pur.entropy (Config.free s.freeCtr))) := ⟨_, rfl⟩
  have hrow : t = pushEvent { v with freeCtr := v.freeCtr + 1 } rid ev := by
    show sampleEnd s vocab rid id r c .ok = _
    rw [sampleEnd, ← hd, modReq_of hdreq, ← hu, hv]
    dsimp only
    rw [hventropy, show (takeFree v).1 = Config.free s.freeCtr by rw [← hvfree]; rfl, hev]
    rfl
  have hother : Claim.otherReqs s v rid := fun i hi => by
    rw [hch.getReq, hu, getReq_putReq_ne _ _ hi]
    exact getReq_of_reqs (by rw [hd]) i
  rw [hrow, ← hev]
  refine ⟨getReq_modReq (s := { v with freeCtr := v.freeCtr + 1 }) hvreq _, ?_, ?_, ?_⟩
  · exact otherReqs_trans hother (otherReqs_modReq { v with freeCtr := v.freeCtr + 1 } rid _)
  · rw [pushEvent, modReq_eq]
    show tabFind v.pur.cmds id = none
    rw [hch.eq, hu, hd]
    show tabFind (tabDel s.pur.cmds id) id = none
    rw [tabFind_tabDel, if_pos rfl]
  · rw [pushEvent, modReq_eq]
    exact hch.mem.trans hmem

theorem tokensAreChosen : Claim.tokensAreChosen := by
  refine ⟨fun model buf m p y s hm hnone hworks hs hsorted hhead hread hin hopen =>
    batchIsChosen model buf m p y s hm hnone hworks hs hsorted hhead hread hin hopen, ?_⟩
  intro model buf rid id m r c s hm hchosen hworks hs hr hsampler hc hjobs hdone ho k top n recs hin
  have hrow : decodeStep s model false buf = sampleEnd s m.vocab rid id r c .ok := by
    rw [decodeStep, hm]
    dsimp only
    rw [hworks, hchosen]
    simp only [Bool.not_true, Bool.false_eq_true, if_false, List.cons_ne_nil, List.foldl_cons, List.foldl_nil]
    rw [sampleGoOn, hr]
    dsimp only
    rw [hsampler]
    dsimp only
    rw [hc]
    dsimp only
    rw [if_neg (by rw [hjobs]; exact fun h => h rfl), hdone]
  exact does_of (congrArg Host.Outcome.next hrow) (sampleEnd_gives hr hs ho hin)

end Sys2Proof.Proofs
end

