-- ==== Sys2Proof/Proofs/ForwardPasses.lean ====
section
/-! PROOFS. The second half of a decode step: the forward pass of its request, layer by layer (spec/13 R324, R330). -/

namespace Sys2Proof.Proofs

open Sys2Proof Sys2Proof.Machine Sys2Proof.Laws

/-! ### One step of a command counted -/

/-- A step counted changes the purser's turn and its commands alone. -/
theorem countStep_eq (s : State) (id : Nat) :
    countStep s id = { s with pur := { s.pur with turn := (countStep s id).pur.turn, cmds := (countStep s id).pur.cmds } } := by
  rw [countStep]
  cases getCmd s id with
  | none => rfl
  | some c =>
    dsimp only
    rw [noteStep_eq]
    rfl

theorem countStep_reqs (s : State) (id : Nat) : (countStep s id).pur.reqs = s.pur.reqs := by rw [countStep_eq]

theorem countStep_mem (s : State) (id : Nat) : (countStep s id).mem = s.mem := by rw [countStep_eq]

theorem countStep_counts {s t : State} (h : t.pur.cmds = s.pur.cmds) (id : Nat) : Claim.stepCounts s (countStep t id) id := by
  intro c hc
  have hct : getCmd t id = some c := (getCmd_of_cmds h id).trans hc
  have hput : getCmd (putCmd t id { c with steps := c.steps + 1 }) id = some { c with steps := c.steps + 1 } := tabFind_tabPut_self _ _ _
  rw [countStep, hct]
  exact noteStep_getCmd hput

/-! ### A step of one request -/

section
variable {s : State} {model buf rid : Nat} {m : ModelSt} {r r' : Request} {y : Model}

/-- A request whose model record reads well takes one step of its forward pass. -/
theorem forwardRequest_of (hr : getReq s rid = some r) (hsub : r.fwd.sub ≠ fwdOver) (hs : Claim.clean s)
    (ho : Claim.openTo s (whoPurser (some r.ctx))) (hread : Claim.modelRead s r.model (fld r.record 16 8) y) :
    ∃ v, Charged s v ∧ forwardRequest buf s rid = fwdStep v rid buf r y := by
  obtain ⟨v, hv, hch⟩ := (rdModel_reads hs ho hread).run
  refine ⟨v, hch, ?_⟩
  rw [forwardRequest, hr]
  dsimp only
  rw [if_neg hsub, hv]

/-- No token waits in a sequencer that none has reached. -/
theorem noToken (htokens : ∀ e ∈ r.events, ∀ tok, e ≠ .token tok) :
    r.events.any (fun e => match e with | .token _ => true | _ => false) = false := by
  rw [List.any_eq_false]
  intro e he htok
  cases e with
  | token tok => exact htokens _ he tok rfl
  | cancel c => cases htok
  | error st => cases htok

/-- A step of one request, whose sequencer has its token, goes on with that request, and ends when it is done. -/
theorem decodeStep_forward (hm : tabFind s.pur.models model = some m) (hchosen : m.chosen = [rid]) (hworks : purWorks s = true)
    (hr : getReq s rid = some r) (hsampler : r.sampler = none) (htokens : ∀ e ∈ r.events, ∀ tok, e ≠ .token tok) {t : State}
    (ht : forwardRequest buf s rid = t) (hr' : getReq t rid = some r') :
    decodeStep s model true buf = if r'.fwd.sub = fwdOver then { stepOver t rid with
      pur := { (stepOver t rid).pur with models := tabMod {} (stepOver t rid).pur.models model fun m => { m with chosen := [] } } } else t := by
  have hnone := noToken htokens
  have hrow : decodeStep s model true buf = stepForward s model m buf := by
    rw [decodeStep, hm]
    dsimp only
    rw [hworks]
    rfl
  rw [hrow, stepForward, hchosen]
  simp only [List.any_cons, List.any_nil, List.all_cons, List.all_nil, List.foldl_cons, List.foldl_nil, ht, hr, hr', hsampler,
    Option.isSome_none, Bool.false_or, Bool.or_false, Bool.and_true, reduceCtorEq, decide_false]
  refine (if_neg (Bool.eq_false_iff.1 hnone)).trans ?_
  by_cases hsub : r'.fwd.sub = fwdOver
  · rw [if_pos hsub, decide_eq_true hsub]
    rfl
  · rw [if_neg hsub, decide_eq_false hsub]
    rfl

end

/-- A decode step of one request, whose sequencer has its token, in reach of its tables. -/
structure ForwardOn (s : State) (model rid : Nat) (m : ModelSt) (r : Request) (y : Model) : Prop where
  model : tabFind s.pur.models model = some m
  chosen : m.chosen = [rid]
  works : purWorks s = true
  clean : Claim.clean s
  req : getReq s rid = some r
  sampler : r.sampler = none
  tokens : ∀ e ∈ r.events, ∀ tok, e ≠ .token tok
  openTo : Claim.openTo s (whoPurser (some r.ctx))
  reads : Claim.modelRead s r.model (fld r.record 16 8) y

/-- The end of a decode step of one request. -/
def stepEnded (t : State) (model rid : Nat) : State :=
  { stepOver t rid with
    pur := { (stepOver t rid).pur with models := tabMod {} (stepOver t rid).pur.models model fun m => { m with chosen := [] } } }

/-- What the end of a decode step does beside the request's own part. -/
def StepEnds (s : State) (model rid : Nat) (r : Request) (t : State) : Prop :=
  (∃ m', tabFind t.pur.models model = some m' ∧ m'.chosen = []) ∧ Claim.otherReqs s t rid ∧
    Claim.stepCounts s t (tabGet {} r.stages 0x15).cmd

theorem stepEnded_ends {s t : State} {model rid : Nat} {r r' : Request} (hcmds : t.pur.cmds = s.pur.cmds) (hothers : Claim.otherReqs s t rid)
    (hr' : getReq t rid = some r') (hstages : r'.stages = r.stages) :
    StepEnds s model rid r (stepEnded t model rid) ∧
      getReq (stepEnded t model rid) rid = some { r' with waited := t.hub.time.toNat } ∧ (stepEnded t model rid).mem = t.mem := by
  obtain ⟨u, hu⟩ : ∃ u, u = putReq t rid { r' with waited := t.hub.time.toNat } := ⟨_, rfl⟩
  have hover : stepOver t rid = countStep u (tabGet {} r.stages 0x15).cmd := by
    rw [stepOver, hr', hu, ← hstages]
  have hreqs (i : Nat) : getReq (stepEnded t model rid) i = getReq u i :=
    getReq_of_reqs (s := u) (by rw [stepEnded, hover]; exact countStep_reqs u _) i
  have hother : Claim.otherReqs t u rid := by rw [hu]; exact otherReqs_putReq t rid _
  have hcounts : Claim.stepCounts s (countStep u (tabGet {} r.stages 0x15).cmd) (tabGet {} r.stages 0x15).cmd :=
    countStep_counts (by rw [hu]; exact hcmds) _
  refine ⟨⟨⟨_, tabFind_tabPut_self _ _ _, rfl⟩, fun i hi => ?_, fun c hc => ?_⟩, ?_, ?_⟩
  · rw [hreqs, hother i hi, hothers i hi]
  · rw [stepEnded, hover]
    exact hcounts c hc
  · rw [hreqs, hu, getReq_putReq]
  · rw [stepEnded, hover]
    show (countStep u _).mem = _
    rw [countStep_mem, hu]
    rfl

section
variable {s : State} {model buf rid : Nat} {m : ModelSt} {r : Request} {y : Model} (h : ForwardOn s model rid m r y)
  (hsub : r.fwd.sub ≠ fwdOver)
include h hsub

theorem forward_goes {P : State → Prop} (hstep : ∀ v, Charged s v → getReq v rid = some r →
    P (fwdStep v rid buf r y) ∧ ∃ r', getReq (fwdStep v rid buf r y) rid = some r' ∧ r'.fwd.sub ≠ fwdOver) :
    Does (.decodeStep model true buf) s P := by
  obtain ⟨v, hch, hrow⟩ := forwardRequest_of (buf := buf) h.req hsub h.clean h.openTo h.reads
  obtain ⟨hp, r', hr', hgo⟩ := hstep v hch ((hch.getReq rid).trans h.req)
  have hdone := decodeStep_forward h.model h.chosen h.works h.req h.sampler h.tokens hrow hr'
  rw [if_neg hgo] at hdone
  exact does_of (congrArg Host.Outcome.next hdone) hp

theorem forward_ends {P : State → Prop} (hstep : ∀ v, Charged s v → getReq v rid = some r →
    P (stepEnded (fwdStep v rid buf r y) model rid) ∧ ∃ r', getReq (fwdStep v rid buf r y) rid = some r' ∧ r'.fwd.sub = fwdOver) :
    Does (.decodeStep model true buf) s P := by
  obtain ⟨v, hch, hrow⟩ := forwardRequest_of (buf := buf) h.req hsub h.clean h.openTo h.reads
  obtain ⟨hp, r', hr', hover⟩ := hstep v hch ((hch.getReq rid).trans h.req)
  have hdone := decodeStep_forward h.model h.chosen h.works h.req h.sampler h.tokens hrow hr'
  rw [if_pos hover] at hdone
  exact does_of (congrArg Host.Outcome.next hdone) hp

end

/-! ### Barriers -/

section
variable {s : State} {rid : Nat} {keys : List Nat} (bad : State → Status → State) (next : State → State)

theorem layerBarrier_waits (h : allAnswered s rid keys = none) : layerBarrier s rid keys bad next = s := by
  unfold layerBarrier
  rw [h]

theorem layerBarrier_passes {st : Status} (h : allAnswered s rid keys = some st) (hgood : st.good = true) :
    layerBarrier s rid keys bad next = next (clearAnswers s rid) := by
  unfold layerBarrier
  rw [h]
  exact if_pos hgood

end

/-! ### The steps of a forward pass -/

section
variable {s : State} {rid buf : Nat} {r : Request} {y : Model}

theorem fwdStep_begins (h : r.fwd.sub = 0) : fwdStep s rid buf r y =
    if r.terminal then modFwd s rid fun x => { x with sub := fwdOver } else fwdPage (clearAnswers s rid) rid r y := by
  simp only [fwdStep, h]

theorem fwdStep_asks (h : r.fwd.sub = 1) : fwdStep s rid buf r y = fwdAsk s rid buf r y := by simp only [fwdStep, h]

theorem fwdStep_layer (h : r.fwd.sub = 4) (hl : r.fwd.layer < y.layers) : fwdStep s rid buf r y = fwdLayer s rid buf r y := by
  simp only [fwdStep, h]
  rw [if_neg (Nat.ne_of_lt hl)]

theorem fwdStep_done (h : r.fwd.sub = 4) (hl : r.fwd.layer = y.layers) : fwdStep s rid buf r y = fwdDone s rid r y := by
  simp only [fwdStep, h, hl, if_true]

theorem fwdStep_attends (h : r.fwd.sub = 5) : fwdStep s rid buf r y = fwdLayer s rid buf r y := by simp only [fwdStep, h]

end

/-- The entry of the page table that a position is in, as it is read. -/
theorem pageEntry_reads {r : Request} {w : Who} {p : Nat} {u : State} (hs : Claim.clean u) (ho : Claim.openTo u w)
    (hin : fld r.record 72 8 + 16 * p + 16 ≤ wheelBase) {e : Bytes} (he : memRead u.mem.bytes (fld r.record 72 8 + 16 * p) 16 = e) :
    Reads u (pageEntry w r p) (if bit (fld e 10 2) 0 then some (fld e 0 8, bit (fld e 10 2) 1) else none) :=
  .bind (.rd hs ho hin he.symm) (.pure _)

/-- The pages of a request up to a position, as they are read. -/
theorem allPages_reads {v : State} {q : Request} (hs : Claim.clean v) (ho : Claim.openTo v (whoPurser (some q.ctx))) {last : Nat}
    (htable : fld q.record 72 8 + 65536 ≤ wheelBase) (hlast : last < 1048576) :
    Reads v (allPages (whoPurser (some q.ctx)) q last) (Claim.pagesTo v q last) := by
  rw [Claim.pagesTo, List.flatMap_def]
  refine .bind (.mapM _ fun p hp => ?_) (.pure _)
  have hp' : p < 4096 := by
    have := List.mem_range.1 hp
    omega
  dsimp only
  cases htab : tabFind q.pages p with
  | some g => exact .pure _
  | none =>
    have hread := pageEntry_reads (r := q) (p := p) hs ho (by omega) rfl
    by_cases hvalid : bit (fld (memRead v.mem.bytes (fld q.record 72 8 + 16 * p) 16) 10 2) 0 = true
    · rw [if_pos hvalid] at hread ⊢
      exact .bind hread (.pure _)
    · rw [if_neg hvalid] at hread ⊢
      exact .bind hread (.pure _)

/-- A write, and then a change of the state. -/
theorem runAct_wr_actMod {w : Who} {a : Nat} {b : Bytes} {f : State → State} {s u : State} (hu : runActVal (wr w a b) s = (.ok (), u)) :
    runAct (do
      wr w a b
      actMod f) s = (.ok, f u) := runAct_ok (runActVal_bind_ok hu)

/-- One question that has a good answer lets its barrier pass. -/
theorem allAnswered_one {v : State} {rid key : Nat} {q : Request} {a : Answer} (hq : getReq v rid = some q)
    (ha : tabFind q.answers key = some a) (hgood : a.status.good = true) : allAnswered v rid [key] = some .ok := by
  have hans : Machine.answered v rid key = some a := by
    rw [Machine.answered, hq]
    exact ha
  simp [allAnswered, hans, hgood]

section
variable {s : State} {model buf rid : Nat} {m : ModelSt} {r : Request} {y : Model} (h : ForwardOn s model rid m r y)
include h

/-- A request with a terminal record is passed over. -/
theorem forward_over (hsub : r.fwd.sub = 0) (hterm : r.terminal = true) : Does (.decodeStep model true buf) s fun t =>
    StepEnds s model rid r t ∧ t.mem = s.mem ∧ ∃ r', getReq t rid = some r' ∧ r'.waited = s.hub.time.toNat ∧ r'.context = r.context := by
  refine forward_ends h (by rw [hsub]; decide) fun v hch hv => ?_
  obtain ⟨r', hr'⟩ : ∃ r' : Request, r' = { r with fwd := { r.fwd with sub := fwdOver } } := ⟨_, rfl⟩
  have hrow : fwdStep v rid buf r y = putReq v rid r' := by
    rw [fwdStep_begins hsub, if_pos hterm, modFwd, modReq_of hv, hr']
  have hget : getReq (putReq v rid r') rid = some r' := getReq_putReq v rid r'
  rw [hrow]
  obtain ⟨hends, hreq, hmem⟩ := stepEnded_ends (s := s) (model := model) (r := r) (t := putReq v rid r') (by rw [hch.eq]; rfl)
    ((hch.asked rid).trans (.putReq v rid r')).others hget (by rw [hr'])
  refine ⟨⟨hends, hmem.trans hch.mem, _, hreq, ?_, by rw [hr']⟩, r', hget, by rw [hr']⟩
  rw [hch.eq]
  rfl

/-- The table's own page is the page of position CONTEXT. -/
theorem forward_page (hsub : r.fwd.sub = 0) (hterm : r.terminal = false) (htable : fld r.record 72 8 + 65536 ≤ wheelBase)
    (hpos : r.context < 1048576) {e : Bytes} (he : memRead s.mem.bytes (fld r.record 72 8 + 16 * (r.context / 256)) 16 = e)
    (hvalid : bit (fld e 10 2) 0 = true) (hown : bit (fld e 10 2) 1 = false) : Does (.decodeStep model true buf) s fun t =>
      Claim.otherReqs s t rid ∧ t.mem = s.mem ∧ t.pur.models = s.pur.models ∧
        getReq t rid = some { r with answers := [], fwd := { sub := 4, page := fld e 0 8 } } := by
  refine forward_goes h (by rw [hsub]; decide) fun v hch hv => ?_
  obtain ⟨u, hu⟩ : ∃ u, u = putReq v rid { r with answers := [] } := ⟨_, rfl⟩
  have hclear : clearAnswers v rid = u := by rw [clearAnswers, modReq_of hv, hu]
  have hget : getReq u rid = some { r with answers := [] } := by rw [hu, getReq_putReq]
  have hasked : Asked s u rid := (hch.asked rid).trans (by rw [hu]; exact .putReq v rid _)
  have hcu := hasked.clean h.clean
  have hou := hasked.openTo h.openTo
  have hread := pageEntry_reads (r := r) (p := r.context / 256) (e := e) hcu hou (by omega) (by rw [hasked.mem]; exact he)
  rw [hvalid, hown, if_pos rfl] at hread
  have hwork : ∃ z, Reads u (do
      let e ← pageEntry (whoPurser (some r.ctx)) r (r.context / 256)
      let last ← if r.context / 256 = 0 then pure none else pageEntry (whoPurser (some r.ctx)) r (r.context / 256 - 1)
      return (e, last)) (some (fld e 0 8, false), z) := by
    by_cases hfirst : r.context / 256 = 0
    · exact ⟨none, .bind hread (by rw [if_pos hfirst]; exact .bind (.pure none) (.pure _))⟩
    · exact ⟨_, .bind hread (by rw [if_neg hfirst]; exact .bind (pageEntry_reads hcu hou (by omega) rfl) (.pure _))⟩
  obtain ⟨z, hz⟩ := hwork
  obtain ⟨w, hw, hchw⟩ := hz.run
  have hgetw : getReq w rid = some { r with answers := [] } := (hchw.getReq rid).trans hget
  have hrow : fwdStep v rid buf r y = putReq w rid { r with answers := [], fwd := { sub := 4, page := fld e 0 8 } } := by
    rw [fwdStep_begins hsub, if_neg (by rw [hterm]; exact Bool.false_ne_true), hclear, fwdPage]
    dsimp only
    rw [hw]
    dsimp only
    rw [modFwd, modReq_of hgetw]
  have hend : Asked s (putReq w rid { r with answers := [], fwd := { sub := 4, page := fld e 0 8 } }) rid :=
    (hasked.trans (hchw.asked rid)).trans (.putReq w rid _)
  rw [hrow]
  exact ⟨⟨hend.others, hend.mem, by rw [hend.eq], getReq_putReq _ _ _⟩, _, getReq_putReq _ _ _, (by decide : (4 : Nat) ≠ fwdOver)⟩

/-- A page is asked for of the module of the last page. -/
theorem forward_asks (hsub : r.fwd.sub = 1) (hasks : tabFind r.asks pageAsk = none) (hanswers : tabFind r.answers pageAsk = none)
    {x : Nat × Nat × Nat} (hx : y.group.getD (r.fwd.member % y.group.length) (0, 0, 0) = x) (hfar : x.1 ≠ ownModule s)
    (hpath : (choosePort s x.1).isSome = true) : Does (.decodeStep model true buf) s fun t =>
      Claim.purserTells t x.1 (.ask rid pageAsk (.kvTake x.2.1 x.2.2 y.pageBytes 1)) ∧ Claim.otherReqs s t rid ∧ t.mem = s.mem ∧
      getReq t rid = some { r with asks := tabPut r.asks pageAsk x.1 } := by
  refine forward_goes h (by rw [hsub]; decide) fun v hch hv => ?_
  obtain ⟨t, ht⟩ : ∃ t, t = ask v rid pageAsk x.1 (.kvTake x.2.1 x.2.2 y.pageBytes 1) buf := ⟨_, rfl⟩
  obtain ⟨hasked, htells, hget⟩ := asked_far hv (.kvTake x.2.1 x.2.2 y.pageBytes 1) buf hasks hanswers
    (by rw [show ownModule v = ownModule s by rw [hch.eq]; rfl]; exact hfar)
    (by rw [(hch.asked rid).calm.choosePort_isSome]; exact hpath)
  rw [← ht] at hasked htells hget
  have hnone : Machine.answered t rid pageAsk = none := by
    rw [Machine.answered, hget]
    exact hanswers
  have hrow : fwdStep v rid buf r y = t := by
    rw [fwdStep_asks hsub, fwdAsk, hx, ← ht, hnone]
  rw [hrow]
  have hend := (hch.asked rid).trans hasked
  exact ⟨⟨htells, hend.others, hend.mem, hget⟩, _, hget, by dsimp only; rw [hsub]; decide⟩

/-- A layer's K and V are asked of the module of the page. -/
theorem forward_writes (hsub : r.fwd.sub = 4) (hl : r.fwd.layer < y.layers) (hasks : tabFind r.asks stepKvAsk = none)
    (hanswers : tabFind r.answers stepKvAsk = none) (hfar : globalModule r.fwd.page ≠ ownModule s)
    (hpath : (choosePort s (globalModule r.fwd.page)).isSome = true) : Does (.decodeStep model true buf) s fun t =>
      Claim.purserTells t (globalModule r.fwd.page)
        (.ask rid stepKvAsk (.kv r.ctx y.record r.fwd.layer r.context r.context [(r.context / 256, r.fwd.page)])) ∧
      Claim.otherReqs s t rid ∧ t.mem = s.mem ∧
      getReq t rid = some { r with asks := tabPut r.asks stepKvAsk (globalModule r.fwd.page) } := by
  refine forward_goes h (by rw [hsub]; decide) fun v hch hv => ?_
  obtain ⟨q, hq⟩ : ∃ q, q = PurserAsk.kv r.ctx y.record r.fwd.layer r.context r.context [(r.context / 256, r.fwd.page)] := ⟨_, rfl⟩
  obtain ⟨t, ht⟩ : ∃ t, t = ask v rid stepKvAsk (globalModule r.fwd.page) q buf := ⟨_, rfl⟩
  obtain ⟨hasked, htells, hget⟩ := asked_far hv q buf hasks hanswers
    (by rw [show ownModule v = ownModule s by rw [hch.eq]; rfl]; exact hfar)
    (by rw [(hch.asked rid).calm.choosePort_isSome]; exact hpath)
  rw [← ht] at hasked htells hget
  have hnone : allAnswered t rid [stepKvAsk] = none := by
    have hans : Machine.answered t rid stepKvAsk = none := by
      rw [Machine.answered, hget]
      exact hanswers
    simp [allAnswered, hans]
  have hrow : fwdStep v rid buf r y = t := by
    rw [fwdStep_layer hsub hl, fwdLayer, if_pos hsub, ← hq, ← ht]
    exact layerBarrier_waits _ _ hnone
  rw [hrow, ← hq]
  have hend := (hch.asked rid).trans hasked
  exact ⟨⟨htells, hend.others, hend.mem, hget⟩, _, hget, by rw [hsub]; decide⟩

/-- With K and V written, the attention of a layer is asked of the module of the page. -/
theorem forward_attends (hsub : r.fwd.sub = 4) (hl : r.fwd.layer < y.layers) (htable : fld r.record 72 8 + 65536 ≤ wheelBase)
    (hpos : r.context < 1048576) {a : Answer} (hans : tabFind r.answers stepKvAsk = some a) (hgood : a.status.good = true)
    (hattend : tabFind r.asks stepAttendAsk = none) (hfar : globalModule r.fwd.page ≠ ownModule s)
    (hpath : (choosePort s (globalModule r.fwd.page)).isSome = true) : Does (.decodeStep model true buf) s fun t =>
      Claim.purserTells t (globalModule r.fwd.page) (.ask rid stepAttendAsk
        (.attend r.ctx y.record (y.select.getD r.fwd.layer []) r.fwd.layer (r.context + 1) r.context r.context (Claim.pagesTo s r r.context))) ∧
      Claim.otherReqs s t rid ∧ t.mem = s.mem ∧ getReq t rid = some { r with
        answers := [], asks := tabPut r.asks stepAttendAsk (globalModule r.fwd.page), fwd := { r.fwd with sub := 5 } } := by
  refine forward_goes h (by rw [hsub]; decide) fun v hch hv => ?_
  have hall := allAnswered_one hv hans hgood
  obtain ⟨u, hu⟩ : ∃ u, u = putReq v rid { r with answers := [] } := ⟨_, rfl⟩
  have hclear : clearAnswers v rid = u := by rw [clearAnswers, modReq_of hv, hu]
  have hasked : Asked s u rid := (hch.asked rid).trans (by rw [hu]; exact .putReq v rid _)
  obtain ⟨w, hw, hchw⟩ := (allPages_reads (hasked.clean h.clean) (hasked.openTo h.openTo) htable hpos).run
  have hpages : Claim.pagesTo u r r.context = Claim.pagesTo s r r.context := by
    unfold Claim.pagesTo
    rw [hasked.mem]
  have hwasked : Asked s w rid := hasked.trans (hchw.asked rid)
  have hwget : getReq w rid = some { r with answers := [] } := by rw [hchw.getReq, hu, getReq_putReq]
  obtain ⟨z, hz⟩ : ∃ z, z = putReq w rid { r with answers := [], fwd := { r.fwd with sub := 5 } } := ⟨_, rfl⟩
  have hsub5 : modFwd w rid (fun x => { x with sub := 5 }) = z := by rw [modFwd, modReq_of hwget, hz]
  have hzasked : Asked s z rid := hwasked.trans (by rw [hz]; exact .putReq w rid _)
  obtain ⟨q, hq⟩ : ∃ q, q = PurserAsk.attend r.ctx y.record (y.select.getD r.fwd.layer []) r.fwd.layer (r.context + 1) r.context r.context
    (Claim.pagesTo s r r.context) := ⟨_, rfl⟩
  obtain ⟨t, ht⟩ : ∃ t, t = ask z rid stepAttendAsk (globalModule r.fwd.page) q buf := ⟨_, rfl⟩
  have hzget : getReq z rid = some { r with answers := [], fwd := { r.fwd with sub := 5 } } := by rw [hz, getReq_putReq]
  obtain ⟨hask, htells, hget⟩ := asked_far hzget q buf hattend rfl
    (by rw [show ownModule z = ownModule s by rw [hz, hchw.eq, hu, hch.eq]; rfl]; exact hfar)
    (by rw [hzasked.calm.choosePort_isSome]; exact hpath)
  rw [← ht] at hask htells hget
  have hnone : allAnswered t rid [stepAttendAsk] = none := by
    have hans : Machine.answered t rid stepAttendAsk = none := by
      rw [Machine.answered, hget]
      rfl
    simp [allAnswered, hans]
  have hrow : fwdStep v rid buf r y = t := by
    rw [fwdStep_layer hsub hl, fwdLayer, if_pos hsub, ask_again hv _ _ (.inr (by rw [hans]; rfl))]
    dsimp only
    rw [layerBarrier_passes _ _ hall rfl, clearAnswers, modReq_of hv, ← hu, hw]
    dsimp only
    rw [hsub5, hpages, ← hq, ← ht]
    exact layerBarrier_waits _ _ hnone
  have hend := hzasked.trans hask
  rw [hrow, ← hq]
  exact ⟨⟨htells, hend.others, hend.mem, hget⟩, _, hget, (by decide : (5 : Nat) ≠ fwdOver)⟩

/-- With the attention of a layer done, the next one follows. -/
theorem forward_layers (hsub : r.fwd.sub = 5) {a : Answer} (hans : tabFind r.answers stepAttendAsk = some a)
    (hgood : a.status.good = true) : Does (.decodeStep model true buf) s fun t => Claim.otherReqs s t rid ∧ t.mem = s.mem ∧
      getReq t rid = some { r with answers := [], fwd := { r.fwd with sub := 4, layer := r.fwd.layer + 1 } } := by
  refine forward_goes h (by rw [hsub]; decide) fun v hch hv => ?_
  obtain ⟨u, hu⟩ : ∃ u, u = putReq v rid { r with answers := [] } := ⟨_, rfl⟩
  have hget : getReq u rid = some { r with answers := [] } := by rw [hu, getReq_putReq]
  have hrow : fwdStep v rid buf r y = putReq u rid { r with answers := [], fwd := { r.fwd with sub := 4, layer := r.fwd.layer + 1 } } := by
    rw [fwdStep_attends hsub, fwdLayer, if_neg (by rw [hsub]; decide)]
    dsimp only
    rw [layerBarrier_passes _ _ (allAnswered_one hv hans hgood) rfl, clearAnswers, modReq_of hv, ← hu, modFwd, modReq_of hget]
  have hend : Asked s (putReq u rid { r with answers := [], fwd := { r.fwd with sub := 4, layer := r.fwd.layer + 1 } }) rid :=
    ((hch.asked rid).trans (by rw [hu]; exact .putReq v rid _)).trans (.putReq u rid _)
  rw [hrow]
  exact ⟨⟨hend.others, hend.mem, getReq_putReq _ _ _⟩, _, getReq_putReq _ _ _, (by decide : (4 : Nat) ≠ fwdOver)⟩

/-- With every layer done, FILL and CONTEXT count on, and the step ends. -/
theorem forward_counts (hsub : r.fwd.sub = 4) (hl : r.fwd.layer = y.layers) (htable : fld r.record 72 8 + 65536 ≤ wheelBase)
    (hpos : r.context < 1048576) (haddr : r.addr + 256 ≤ wheelBase) (hapart : Claim.apart (fld r.record 72 8, 65536) r.addr 256) :
    Does (.decodeStep model true buf) s fun t =>
      StepEnds s model rid r t ∧ (∃ r', getReq t rid = some r' ∧ r'.context = r.context + 1 ∧ r'.waited = s.hub.time.toNat ∧
        r'.events = r.events) ∧
      leNat (memRead t.mem.bytes (fld r.record 72 8 + 16 * (r.context / 256) + 8) 2) = r.context % 256 + 1 ∧
      leNat (memRead t.mem.bytes (r.addr + 88) 4) = r.context + 1 ∧
      ∀ a, a < fld r.record 72 8 + 16 * (r.context / 256) + 8 ∨ fld r.record 72 8 + 16 * (r.context / 256) + 10 ≤ a →
        a < r.addr + 88 ∨ r.addr + 92 ≤ a → memGet t.mem.bytes a = memGet s.mem.bytes a := by
  refine forward_ends h (by rw [hsub]; decide) fun v hch hv => ?_
  obtain ⟨at_, hat⟩ : ∃ at_, at_ = fld r.record 72 8 + 16 * (r.context / 256) + 8 := ⟨_, rfl⟩
  have hcv := (hch.asked rid).clean h.clean
  have hov := (hch.asked rid).openTo h.openTo
  obtain ⟨u, hu, hw⟩ := wr_of_clean hcv (hov at_ (toLe 2 (r.context % 256 + 1)).length true (by rw [toLe_length]; omega))
  have huget : getReq u rid = some r := (getReq_of_reqs (by rw [hw.pur]) rid).trans hv
  obtain ⟨r', hr'⟩ : ∃ r' : Request, r' = { r with context := r.context + 1, logits := u.freeCtr, fwd := { r.fwd with sub := fwdOver } } :=
    ⟨_, rfl⟩
  obtain ⟨z, hz⟩ : ∃ z, z = putReq { u with freeCtr := u.freeCtr + y.vocab } rid r' := ⟨_, rfl⟩
  have hzmem : z.mem = u.mem := by rw [hz]; rfl
  have hput := recPut_wrote (s := z) (r := r) (clean_of_mem (hw.clean hcv) hzmem)
    (openTo_of_samePrt (by rw [hz]; exact .refl _) (openTo_of_samePrt hw.prt hov)) (off := 88) (n := 4) (by omega) (r.context + 1)
  obtain ⟨t, ht⟩ : ∃ t, t = recPut z r 88 4 (r.context + 1) := ⟨_, rfl⟩
  rw [← ht] at hput
  have hrow : fwdStep v rid buf r y = t := by
    rw [fwdStep_done hsub hl, fwdDone]
    rw [hat] at hu
    rw [runAct_wr_actMod hu, if_pos rfl]
    dsimp only
    rw [modReq_of (s := { u with freeCtr := u.freeCtr + y.vocab }) huget, ht, hz, hr']
  have hget : getReq t rid = some r' := by
    rw [getReq_of_reqs (s := z) (by rw [hput.pur]), hz, getReq_putReq]
  have hcmds : t.pur.cmds = s.pur.cmds := by
    rw [hput.pur, hz]
    show u.pur.cmds = _
    rw [hw.pur, hch.eq]
  have hothers : Claim.otherReqs s t rid := by
    intro i hi
    rw [getReq_of_reqs (s := z) (by rw [hput.pur]), hz, getReq_putReq_ne _ _ hi]
    exact (getReq_of_reqs (s := v) (by rw [← hw.pur]) i).trans (hch.getReq i)
  obtain ⟨hends, hreq, hmem⟩ := stepEnded_ends (model := model) (r := r) hcmds hothers hget (by rw [hr'])
  rw [hrow]
  refine ⟨⟨hends, ⟨_, hreq, by rw [hr'], ?_, by rw [hr']⟩, ?_, ?_, fun a ha1 ha2 => ?_⟩, r', hget, by rw [hr']⟩
  · rw [hput.eq, hz]
    show u.hub.time.toNat = _
    rw [hw.eq, hch.eq]
  · have hkept : memRead t.mem.bytes at_ 2 = memRead u.mem.bytes at_ 2 := by
      rw [← hzmem]
      refine memRead_congr fun a h1 h2 => hput.outside ?_
      rw [toLe_length]
      obtain hap | hap := hapart <;> dsimp only at hap <;> omega
    rw [hmem, ← hat, hkept, recPut_field hw]
    exact Nat.mod_eq_of_lt (show r.context % 256 + 1 < 65536 by omega)
  · rw [hmem, recPut_field hput]
    exact Nat.mod_eq_of_lt (show r.context + 1 < 4294967296 by omega)
  · rw [hmem, hput.outside (by rw [toLe_length]; exact ha2), hzmem, hw.outside (by rw [toLe_length, hat]; omega), hch.mem]

end

theorem tokensGoForward : Claim.tokensGoForward := by
  intro model buf rid m r y s hm hchosen hworks hs hr hsampler htokens ho hread table p e page l stepEnds htable hpos
  have h : ForwardOn s model rid m r y := ⟨hm, hchosen, hworks, hs, hr, hsampler, htokens, ho, hread⟩
  refine ⟨forward_over h, fun hsub hterm => forward_page h hsub hterm htable hpos rfl, ?_, ?_, ?_, ?_, ?_⟩
  · intro hsub hasks hanswers x hfar hpath
    exact forward_asks h hsub hasks hanswers rfl hfar hpath
  · intro hsub hl hasks hanswers hfar hpath
    exact forward_writes h hsub hl hasks hanswers hfar hpath
  · intro hsub hl ⟨a, ha, hgood⟩ _ hattend hfar hpath
    exact forward_attends h hsub hl htable hpos ha hgood hattend hfar hpath
  · intro hsub ⟨a, ha, hgood⟩
    exact forward_layers h hsub ha hgood
  · intro hsub hl haddr hapart
    exact forward_counts h hsub hl htable hpos haddr hapart

/-- Settles O53: POUR and DECODE by their rows, the batch by the round robin and the offers of its choices, the forward pass by its
steps, and the budgets. -/
theorem decodeSteps : Obligations.DecodeSteps := ⟨decodingStarts, tokensAreChosen, tokensGoForward, budgetsRefill⟩

end Sys2Proof.Proofs
end

