-- ==== Sys2Proof/Proofs/LoadBalance.lean ====
section
/-! PROOFS. Load epochs, and the moves that balance the shards of a table (spec/11 R275, R280). -/

namespace Sys2Proof.Proofs

open Sys2Proof Sys2Proof.Machine Sys2Proof.Laws

/-! ### Load epochs -/

theorem loadEpoch_hands (s : State) (h : s.gth.epochMs ≠ 0) : Does .loadEpochStep s fun t =>
    t.gth.loadLast = s.gth.loads ∧ t.gth.loads = [] ∧ t.gth.epoch = s.gth.epoch + 1 ∧
    (∀ e, (getGe t e).latched = (getGe s e).hot ∧ (getGe t e).hot = [] ∧ (getGe t e).ops = (getGe s e).ops) ∧
    t = { s with gth := t.gth } := by
  have hrow : loadEpochStep s = modGth s fun x => { x with
      loadLast := x.loads, loads := [], epoch := x.epoch + 1
      engs := tabMap (fun _ (g : GthEng) => { g with latched := g.hot, hot := [] }) x.engs } := by
    rw [loadEpochStep, if_neg h]
  refine does_of (congrArg Host.Outcome.next hrow) ⟨rfl, rfl, rfl, fun e => ?_, rfl⟩
  have hge : getGe (modGth s fun x => { x with
      loadLast := x.loads, loads := [], epoch := x.epoch + 1
      engs := tabMap (fun _ (g : GthEng) => { g with latched := g.hot, hot := [] }) x.engs }) e =
      { getGe s e with latched := (getGe s e).hot, hot := [] } :=
    tabGet_tabMap ({} : GthEng) (fun _ (g : GthEng) => { g with latched := g.hot, hot := [] }) s.gth.engs e rfl
  rw [hge]
  exact ⟨rfl, rfl, rfl⟩

/-! ### The busiest and the idlest shard -/

/-- One shard's load against the best so far. -/
def pickBetter (better : Nat → Nat → Bool) (b : Option (Nat × Nat)) (p : Nat × Nat) : Option (Nat × Nat) :=
  match b with
  | none => some p
  | some q => if better p.1 q.1 then some p else some q

theorem pickShard_eq (better : Nat → Nat → Bool) (l : List Nat) :
    pickShard better l = ((l.zipIdx.foldl (pickBetter better) none).getD (0, 0)).2 := rfl

/-- The best so far is one of those looked at. -/
theorem pickBetter_mem (better : Nat → Nat → Bool) (ps : List (Nat × Nat)) (b q : Option (Nat × Nat)) (h : ps.foldl (pickBetter better) b = q)
    (z : Nat × Nat) (hz : q = some z) : b = some z ∨ z ∈ ps := by
  induction ps generalizing b with
  | nil => exact .inl (h.trans hz)
  | cons p ps ih =>
    obtain hb | hb := ih _ h
    · cases b with
      | none => exact .inr (by rw [← Option.some.inj hb]; exact List.mem_cons_self)
      | some y =>
        rw [pickBetter] at hb
        split at hb
        · exact .inr (by rw [← Option.some.inj hb]; exact List.mem_cons_self)
        · exact .inl hb
    · exact .inr (List.mem_cons_of_mem _ hb)

/-- The best so far stands while none is better. -/
theorem pickBetter_stands {better : Nat → Nat → Bool} {v : Nat × Nat} (ps : List (Nat × Nat)) (h : ∀ p ∈ ps, better p.1 v.1 = false) :
    ps.foldl (pickBetter better) (some v) = some v := by
  induction ps with
  | nil => rfl
  | cons p ps ih =>
    rw [List.foldl_cons, pickBetter, h p List.mem_cons_self, if_neg Bool.false_ne_true]
    exact ih fun q hq => h q (List.mem_cons_of_mem _ hq)

/-- The first of the best loads. -/
theorem pickShard_first {better : Nat → Nat → Bool} {l : List Nat} {h : Nat} (hlt : h < l.length)
    (hbest : ∀ j, j < l.length → better (l.getD j 0) (l.getD h 0) = false) (hfirst : ∀ j, j < h → better (l.getD h 0) (l.getD j 0) = true) :
    pickShard better l = h := by
  have hsplit : l = l.take h ++ l.getD h 0 :: l.drop (h + 1) := by
    rw [List.getD_eq_getElem _ _ hlt, List.getElem_cons_drop, List.take_append_drop]
  have hlen : (l.take h).length = h := by rw [List.length_take]; omega
  have hindex (p : Nat × Nat) (k : Nat) (m : List Nat) (hm : ∀ j, j < m.length → m.getD j 0 = l.getD (k + j) 0) (hp : p ∈ m.zipIdx k) :
      ∃ j, j < m.length ∧ p.1 = l.getD (k + j) 0 := by
    obtain ⟨h1, h2, h3⟩ := List.mem_zipIdx hp
    refine ⟨p.2 - k, by omega, ?_⟩
    rw [← hm _ (by omega), h3, List.getD_eq_getElem _ _ (by omega)]
  have hzip : l.zipIdx = (l.take h).zipIdx ++ (l.getD h 0, h) :: (l.drop (h + 1)).zipIdx (h + 1) := by
    conv_lhs => rw [hsplit]
    rw [List.zipIdx_append, hlen, Nat.zero_add, List.zipIdx_cons]
  have hhere : pickBetter better ((l.take h).zipIdx.foldl (pickBetter better) none) (l.getD h 0, h) = some (l.getD h 0, h) := by
    cases hbest' : (l.take h).zipIdx.foldl (pickBetter better) none with
    | none => rfl
    | some q =>
      obtain hq | hq := pickBetter_mem better _ _ _ hbest' q rfl
      · cases hq
      obtain ⟨j, hj, hv⟩ := hindex q 0 (l.take h) (fun j hj => by
        rw [hlen] at hj
        rw [Nat.zero_add, List.getD_eq_getElem _ _ (by rw [hlen]; exact hj), List.getElem_take, List.getD_eq_getElem]) hq
      rw [Nat.zero_add] at hv
      rw [hlen] at hj
      rw [pickBetter, hv, hfirst j hj, if_pos rfl]
  rw [pickShard_eq, hzip, List.foldl_append, List.foldl_cons, hhere, pickBetter_stands _ fun p hp => ?_]
  · rfl
  · obtain ⟨j, hj, hv⟩ := hindex p (h + 1) (l.drop (h + 1)) (fun j hj => by
      rw [List.length_drop] at hj
      rw [List.getD_eq_getElem _ _ (by rw [List.length_drop]; exact hj), List.getElem_drop, List.getD_eq_getElem]) hp
    rw [List.length_drop] at hj
    rw [hv]
    exact hbest _ (by omega)

/-! ### The rows to move -/

/-- What is chosen to move are rows of the shard with empty entries, no more than MOVE_MAX. -/
theorem chooseMoves_rows (x : TableDesc) (h : Nat) (l : List (Nat × Nat × Bool)) : ∀ (n : Nat) (budget : Int), n ≤ x.moveMax →
    (chooseMoves x h l n budget).length + n ≤ x.moveMax ∧
      ∀ i ∈ chooseMoves x h l n budget, i % x.shards = h ∧ ∃ hits, (i, hits, true) ∈ l := by
  induction l with
  | nil => exact fun n budget hn => ⟨by simpa [chooseMoves] using hn, by simp [chooseMoves]⟩
  | cons a l ih =>
    obtain ⟨i, hits, empty⟩ := a
    intro n budget hn
    rw [chooseMoves]
    split
    · exact ⟨by simpa using hn, by simp⟩
    next hgo =>
      have hmore : n ≠ x.moveMax := by
        rintro rfl
        simp at hgo
      split
      next htake =>
        rw [Bool.and_eq_true, decide_eq_true_eq] at htake
        obtain ⟨hlen, hrows⟩ := ih (n + 1) (budget - hits * x.rb) (by omega)
        refine ⟨by rw [List.length_cons]; omega, fun j hj => ?_⟩
        obtain rfl | hj := List.mem_cons.1 hj
        · exact ⟨htake.1, hits, by rw [htake.2]; exact List.mem_cons_self⟩
        · obtain ⟨hmod, z, hz⟩ := hrows j hj
          exact ⟨hmod, z, List.mem_cons_of_mem _ hz⟩
      · obtain ⟨hlen, hrows⟩ := ih n budget hn
        refine ⟨hlen, fun j hj => ?_⟩
        obtain ⟨hmod, z, hz⟩ := hrows j hj
        exact ⟨hmod, z, List.mem_cons_of_mem _ hz⟩

/-! ### Orders -/

/-- A message to a module with a path stands last in that path's line. -/
theorem purserSend_sends {s u : State} {m p : Nat} (h : choosePort s m = some (p, u)) (x : PurserMsg) :
    (getPath (purserSend s m x) p m).sendq = (getPath s p m).sendq ++ [Claim.purserFrame x] := by
  have hu : getPath u p m = getPath s p m := by rw [choosePort_fry h]; rfl
  rw [purserSend, h]
  dsimp only
  rw [getPath_queueFrame, hu]
  rfl

theorem choosePort_gth {s u : State} {m p : Nat} (h : choosePort s m = some (p, u)) (f : GthSt → GthSt) :
    ∃ v, choosePort (modGth s f) m = some (p, v) := by
  obtain ⟨v, hv, -⟩ := choosePort_of_fry (s := s) (t := modGth s f) rfl h
  exact ⟨v, hv⟩

/-- Of the moves to order, the first is ordered of the module that has the row, and the others wait. -/
theorem orderMoves_first {s u : State} {h t i m p : Nat} {rest : List (Nat × Nat × Nat × Nat)} (hidle : s.gth.moving = none)
    (hfar : h ≠ ownModule s) (hpath : choosePort s h = some (p, u)) :
    orderMoves ((h, t, i, m) :: rest) s =
      modGth (purserSend (modGth s fun g => { g with moving := some h }) h (.migrate t i m)) fun g => { g with moves := rest } := by
  obtain ⟨v, hv⟩ : ∃ v, v = purserSend (modGth s fun g => { g with moving := some h }) h (.migrate t i m) := ⟨_, rfl⟩
  have hmoving : v.gth.moving = some h := by rw [hv, purserSend_eq]; rfl
  have hrow : orderMoves ((h, t, i, m) :: rest) s = orderMoves rest v := by
    rw [orderMoves, hidle]
    rw [if_neg (by simp), orderMove, if_neg hfar, hpath, ← hv]
    rfl
  rw [hrow, ← hv]
  cases rest with
  | nil => rfl
  | cons a rest =>
    obtain ⟨h', t', i', m'⟩ := a
    rw [orderMoves, hmoving]
    rfl

/-! ### Balancing -/

section
variable {n h k : Nat} {loads : List Nat} {hot : List (Nat × Nat × Bool)} {x : GthTable} {s : State} {l : List Nat}
  (hx : getTable s n = some x) (hmigrate : x.desc.migrate = true) (hshard : x.desc.shard = 0) (hatt : x.attached = true)
  (hlen : loads.length = x.desc.shards) (hl : l = setAt loads 0 (tabGet 0 s.gth.loadLast n).toNat)
include hx hmigrate hshard hatt hlen hl

theorem hotRowBalance_of {v : State} {moves : List (Nat × Nat × Nat × Nat)}
    (hv : runActVal (balanceMoves n x l hot) s = (.ok moves, v)) :
    hotRowBalance s n loads hot = offerMove (modGth v fun g => { g with moves := g.moves ++ moves }) := by
  have hloads : loads.take x.desc.shards ++ List.replicate (x.desc.shards - loads.length) 0 = loads := by
    rw [hlen, Nat.sub_self, List.replicate_zero, List.append_nil, ← hlen, List.take_length]
  rw [hotRowBalance, hx]
  dsimp only
  rw [hloads, ← hl, hv, hmigrate, hshard, hatt]
  rfl

end

theorem loadsBalance : Claim.loadsBalance := by
  refine ⟨loadEpoch_hands, ?_⟩
  intro n h k p u loads hot x s hx hmigrate hshard hatt hlen hpos hmoves l mean hh hmax hmaxfirst hk hmin hminfirst
  have hbusy : pickShard (fun a b => b < a) l = h := by
    refine pickShard_first hh (fun j hj => ?_) fun j hj => ?_
    · exact decide_eq_false (Nat.not_lt.2 (hmax j hj))
    · exact decide_eq_true (hmaxfirst j hj)
  have hidle : pickShard (fun a b => a < b) l = k := by
    refine pickShard_first hk (fun j hj => ?_) fun j hj => ?_
    · exact decide_eq_false (Nat.not_lt.2 (hmin j hj))
    · exact decide_eq_true (hminfirst j hj)
  refine ⟨fun hwithin => ?_, fun hover hne hs ho hmap hmoving hfar hpath => ?_⟩
  · have hv : runActVal (balanceMoves n x l hot) s = (.ok [], s) := by
      unfold balanceMoves
      dsimp only
      rw [hbusy, if_pos hwithin]
      rfl
    have hrow := hotRowBalance_of hx hmigrate hshard hatt hlen rfl hv
    have hnone : modGth s (fun g => { g with moves := g.moves ++ [] }) = s := by
      rw [modGth, List.append_nil]
    have hoffer : offerMove s = s := by
      rw [offerMove, hmoves, orderMoves, modGth, ← hmoves]
    rw [hnone, hoffer] at hrow
    exact congrArg Host.Outcome.next hrow
  · obtain ⟨f, hf⟩ : ∃ f, f = fld (memRead s.mem.bytes (x.desc.map + 2 * h) 2) 0 2 % 4096 := ⟨_, rfl⟩
    obtain ⟨g, hg⟩ : ∃ g, g = fld (memRead s.mem.bytes (x.desc.map + 2 * k) 2) 0 2 % 4096 := ⟨_, rfl⟩
    rw [← hf] at hfar hpath ⊢
    rw [← hg]
    have hlength : l.length = x.desc.shards := by rw [setAt_length, hlen]
    obtain ⟨rows, hrows⟩ : ∃ rows, rows = chooseMoves x.desc h
      (sortBy (fun (a b : Nat × Nat × Bool) => b.2.1 < a.2.1 || (a.2.1 = b.2.1 && a.1 ≤ b.1)) hot) 0 ((l.getD h 0 : Int) - mean) := ⟨_, rfl⟩
    have hreads : Reads s (balanceMoves n x l hot) (rows.map fun i => (f, n, i, g)) := by
      unfold balanceMoves
      dsimp only
      rw [hbusy, hidle, if_neg (Nat.not_le.2 hover), if_neg hne]
      have hshard (j : Nat) : fld (memRead s.mem.bytes (x.desc.map + 2 * j) 2) 0 2 = leNat (memRead s.mem.bytes (x.desc.map + 2 * j) 2) :=
        fld_memRead _ _ _ _ _ (Nat.le_refl 2)
      rw [hshard] at hf hg
      rw [hf, hg, hrows]
      exact .bind (.pure hot) (.bind (.rdNat hs ho (by omega)) (.bind (.rdNat hs ho (by omega)) (.pure _)))
    obtain ⟨v, hv, hch⟩ := hreads.run
    have hrow := hotRowBalance_of hx hmigrate hshard hatt hlen rfl hv
    obtain ⟨hcount, hall⟩ := chooseMoves_rows x.desc h
      (sortBy (fun (a b : Nat × Nat × Bool) => b.2.1 < a.2.1 || (a.2.1 = b.2.1 && a.1 ≤ b.1)) hot) 0 ((l.getD h 0 : Int) - mean) (Nat.zero_le _)
    rw [← hrows] at hcount hall
    obtain ⟨w, hw'⟩ : ∃ w, w = modGth v fun y => { y with moves := y.moves ++ rows.map fun i => (f, n, i, g) } := ⟨_, rfl⟩
    have hwmoves : w.gth.moves = rows.map fun i => (f, n, i, g) := by
      rw [hw', hch.eq]
      show s.gth.moves ++ _ = _
      rw [hmoves, List.nil_append]
    have hw : offerMove w = orderMoves (rows.map fun i => (f, n, i, g)) w := by rw [offerMove, hwmoves]
    have hwmoving : w.gth.moving = none := by
      rw [hw', hch.eq]
      exact hmoving
    have hwfry : w.fry = s.fry := by rw [hw', hch.eq]; rfl
    have hwfar : f ≠ ownModule w := by rw [ownModule, hwfry]; exact hfar
    obtain ⟨u', hwpath, -, -⟩ := choosePort_of_fry hwfry hpath
    rw [← hw'] at hrow
    refine does_of (congrArg Host.Outcome.next hrow) ⟨rows, hcount, fun i hi => ?_, fun i more hmore => ?_, fun hnone => ?_, ?_⟩
    · obtain ⟨hmod, hits, hin⟩ := hall i hi
      exact ⟨hmod, hits, (sortBy_perm _ hot).mem_iff.1 hin⟩
    · rw [hw, hmore, List.map_cons, orderMoves_first hwmoving hwfar hwpath]
      refine ⟨?_, rfl, ?_⟩
      · rw [purserSend_eq]
        rfl
      · obtain ⟨z, hz⟩ := choosePort_gth hwpath fun y => { y with moving := some f }
        have hsends := purserSend_sends hz (.migrate n i g)
        have hsame : getPath (modGth w fun y => { y with moving := some f }) p f = getPath s p f := by
          rw [getPath, getPath, ← hwfry]
          rfl
        rw [hsame] at hsends
        exact hsends
    · rw [hnone] at hw hwmoves
      rw [hw]
      refine ⟨?_, hwfry⟩
      show { w.gth with moves := [] } = s.gth
      rw [hw', hch.eq, ← hmoves]
      rfl
    · have hmem : (offerMove w).mem = w.mem := by
        rw [hw]
        cases rows with
        | nil => rfl
        | cons i more =>
          rw [List.map_cons, orderMoves_first hwmoving hwfar hwpath, purserSend_eq]
          rfl
      rw [hmem, hw']
      exact hch.mem

end Sys2Proof.Proofs
end

