-- ==== Sys2Proof/Proofs/Migrations.lean ====
section
/-! PROOFS. MIGRATE: a row moves to a spare slot and back, and its redirect entry says so (spec/11 R277, R278). -/

namespace Sys2Proof.Proofs

open Sys2Proof Sys2Proof.Machine Sys2Proof.Laws

/-! ### Writes and then a change -/

/-- Where the writes `p` have been made since `s`, work that ends well with `x` makes the writes `q`, and last changes the state by `f`. -/
def StoresThen {α : Type} (s : State) (p : List (Nat × Bytes)) (a : Act α) (x : α) (f : State → State) (q : List (Nat × Bytes)) : Prop :=
  ∀ t, WroteAll s t p → ∃ u, runActVal a t = (.ok x, f u) ∧ WroteAll s u q

section
variable {α β : Type} {s : State} {p q r : List (Nat × Bytes)} {f : State → State}

theorem StoresThen.actMod (s : State) (p : List (Nat × Bytes)) (f : State → State) : StoresThen s p (Machine.actMod f) () f p :=
  fun t ht => ⟨t, rfl, ht⟩

theorem StoresThen.bind {a : Act α} {k : α → Act β} {x : α} {y : β} (ha : Stores s p a x q) (hk : StoresThen s q (k x) y f r) :
    StoresThen s p (a >>= k) y f r := by
  intro t ht
  obtain ⟨u, hu, hw⟩ := ha t ht
  obtain ⟨v, hv, hw'⟩ := hk u hw
  exact ⟨v, (runActVal_bind_ok hu).trans hv, hw'⟩

end

theorem fld_whole {b : Bytes} {n : Nat} (h : b.length = n) : fld b 0 n = leNat b := by
  rw [fld, List.drop_zero, List.take_of_length_le (by rw [h])]

/-! ### Redirect entries and the chain of spare slots -/

/-- A redirect entry as it is written. -/
def entryBytes (i st target slot : Nat) : Bytes := toLe 8 i ++ toLe 2 (st * 4096 + target) ++ toLe 2 0 ++ toLe 4 slot

@[simp] theorem entryBytes_length (i st target slot : Nat) : (entryBytes i st target slot).length = 16 := by simp [entryBytes]

theorem entryBytes_fields {i st target slot : Nat} (hi : i < 2 ^ 64) (ht : st * 4096 + target < 65536) (hs : slot < 2 ^ 32) :
    fld (entryBytes i st target slot) 0 8 = i ∧ fld (entryBytes i st target slot) 8 2 = st * 4096 + target ∧
    fld (entryBytes i st target slot) 12 4 = slot := by
  simp (disch := simp) only [entryBytes, List.append_assoc, fld_append_left, fld_append_right, fld_toLe, toLe_length, Nat.reduceSub,
    Nat.reducePow] at *
  exact ⟨Nat.mod_eq_of_lt hi, Nat.mod_eq_of_lt ht, Nat.mod_eq_of_lt hs⟩

section
variable {s : State} {p : List (Nat × Bytes)} {w : Who} (hs : Claim.clean s) (ho : Claim.openTo s w) {x : TableDesc}
include hs ho

theorem wrRedirect_stores {a : Nat} (hin : a + 16 ≤ wheelBase) (i st target slot : Nat) :
    Stores s p (wrRedirect w a i st target slot) () (p ++ [(a, entryBytes i st target slot)]) :=
  .wr hs ho (b := entryBytes i st target slot) (by rw [entryBytes_length]; exact hin)

theorem countMoved_stores (hx : x.addr + 128 ≤ wheelBase) (h : Misses p (x.addr + 72) 4) (up : Bool) :
    Stores s p (countMoved w x up) () (p ++ [(x.addr + 72, toLe 4 (if up then leNat (memRead s.mem.bytes (x.addr + 72) 4) + 1
      else leNat (memRead s.mem.bytes (x.addr + 72) 4) - 1))]) :=
  .bind (.rdNat hs ho (by omega) h) (.wrNat hs ho (by omega))

/-- The first entry looked at is the row's, or empty. -/
theorem findRedirect_stores {i at_ : Nat} {e : Bytes} (hslots : 0 < x.redirSlots) (hat : at_ = Claim.firstProbe x i)
    (hin : at_ + 16 ≤ wheelBase) (hm : Misses p at_ 16) (he : e = memRead s.mem.bytes at_ 16)
    (h : bits (fld e 8 2) 15 12 = 0 ∨ bits (fld e 8 2) 15 12 = 1 ∧ fld e 0 8 = i) :
    Stores s p (findRedirect w x i) (if bits (fld e 8 2) 15 12 = 0 then (none, some at_)
      else (some { at_ := at_, state := 1, target := fld e 8 2 % 4096, slot := fld e 12 4, raw := e }, none)) p := by
  obtain ⟨n, hn⟩ : ∃ n, x.redirSlots = n + 1 := ⟨x.redirSlots - 1, by omega⟩
  have hprobe : x.redirect + 16 * (x.slot i % x.redirSlots % x.redirSlots) = at_ := by rw [Nat.mod_mod, hat]; rfl
  have hfind : findRedirect w x i = probeRedirect w x i (n + 1) (x.slot i % x.redirSlots) none := by rw [findRedirect, hn]
  rw [hfind, probeRedirect, hprobe]
  refine .bind (x := e) (by rw [he]; exact .rdKept hs ho hin hm) ?_
  dsimp only
  obtain hst | ⟨hst, hi⟩ := h
  · rw [if_pos hst, if_pos hst]
    exact .pure _
  · have h0 : bits (fld e 8 2) 15 12 ≠ 0 := by rw [hst]; decide
    rw [if_neg h0, if_neg h0]
    have h1 : (decide (bits (fld e 8 2) 15 12 ≠ 4) && decide (fld e 0 8 = i)) = true := by rw [hst, hi]; simp
    rw [h1, hst]
    exact .pure _

end

/-! ### The engine -/

theorem getGe_modGe (s : State) (e : Nat) (f : GthEng → GthEng) : getGe (modGe s e f) e = f (getGe s e) := tabGet_tabMod_self _ _ _ _

theorem getGe_modGe_ne (s : State) {e k : Nat} (f : GthEng → GthEng) (h : k ≠ e) : getGe (modGe s e f) k = getGe s k :=
  tabGet_of_tabFind_eq _ ((tabFind_tabPut _ _ _ _).trans (if_neg (Ne.symm h)))

theorem offerMove_none {s : State} (h : s.gth.moves = []) : offerMove s = s := by
  rw [offerMove, h, orderMoves, modGth, ← h]

/-- A report changes of the gather block only which balancing move is under way. -/
theorem reportCmd_moving (s : State) (o : Option (Nat × Nat)) (st : Status) :
    (reportCmd s o st).gth = { s.gth with moving := (reportCmd s o st).gth.moving } := by
  have hmover (id m : Nat) : (moverDone s id m).gth = { s.gth with moving := (moverDone s id m).gth.moving } := by
    unfold moverDone
    dsimp only
    split
    · rfl
    · rw [purserSend_eq]
  obtain _ | ⟨id, i⟩ := o
  · rfl
  cases hc : getCmd s id with
  | none => simp [reportCmd, hc]
  | some c =>
    cases hx : c.enq with
    | none =>
      simp only [reportCmd, hc, hx]
      unfold stageReport
      split
      · exact hmover _ _
      · split
        · rfl
        · split <;> rfl
    | some y =>
      simp only [reportCmd, hc, hx]
      have h (z : Enqueue) : Fr 196608 s (settleEnqueue (putCmd s id { c with enq := some z }) id) :=
        settleEnqueue_fr (by decide) (putCmd_fr (by decide) (Fr.refl _ _))
      rw [(h _).same .gth rfl]

/-- A MIGRATE ends well: its engine is idle again. -/
theorem endMigrate_ok {s : State} {e c : Nat} {op o : GthOp} (hops : (getGe s e).ops = [(c, o)]) (hmoves : s.gth.moves = []) :
    SameQueues s (endMigrate s e c op .ok) ∧ (getGe (endMigrate s e c op .ok) e).ops = [] ∧ (endMigrate s e c op .ok).mem = s.mem ∧
    (endMigrate s e c op .ok).gth.migrated = s.gth.migrated ∧ (endMigrate s e c op .ok).gth.moves = [] := by
  obtain ⟨u, hu⟩ : ∃ u, u = releaseRow (modGe s e fun x => { x with ops := tabDel x.ops c }) op.table (fld op.cmd.bytes 8 8) := ⟨_, rfl⟩
  have huops : (getGe u e).ops = [] := by
    have hge : getGe u e = { getGe s e with ops := tabDel (getGe s e).ops c } := by
      rw [hu]
      exact getGe_modGe s e fun x => { x with ops := tabDel x.ops c }
    rw [hge]
    show tabDel (getGe s e).ops c = []
    rw [hops]
    simp [tabDel]
  obtain ⟨v, hv⟩ : ∃ v, v = reportCmd u op.cmd.origin .ok := ⟨_, rfl⟩
  obtain ⟨hengs, hmem, -⟩ := reportCmd_keeps u op.cmd.origin .ok
  have hgth := reportCmd_moving u op.cmd.origin .ok
  rw [← hv] at hengs hmem hgth
  have hvops : (getGe v e).ops = [] := by rw [getGe, hgth]; exact huops
  have hvmoves : v.gth.moves = [] := by rw [hgth, hu]; exact hmoves
  have hrow : endMigrate s e c op .ok = v := by
    rw [endMigrate, ← hu, completeCmd_good _ _ _ _ rfl, ← hv, pumpAll_idle hvops, offerMove_none hvmoves]
  rw [hrow]
  refine ⟨.of_engs (hengs.trans (by rw [hu]; rfl)), hvops, hmem.trans (by rw [hu]; rfl), ?_, hvmoves⟩
  rw [hgth, hu]
  rfl

/-! ### A MIGRATE under way -/

/-- A change of other parts than memory and partitions, made on both sides. -/
theorem WroteAll.mapped {s t : State} {ws : List (Nat × Bytes)} (h : WroteAll s t ws) (f : State → State)
    (hf : ∀ z p m, f { z with prt := p, mem := m } = { f z with prt := p, mem := m }) : WroteAll (f s) (f t) ws := by
  have hs : f s = { f s with prt := s.prt, mem := s.mem } := hf s s.prt s.mem
  have ht : f t = { f s with prt := t.prt, mem := t.mem } := by rw [h.eq]; exact hf s _ _
  have hsp : (f s).prt = s.prt := by rw [hs]
  have hsm : (f s).mem = s.mem := by rw [hs]
  have htp : (f t).prt = t.prt := by rw [ht]
  have htm : (f t).mem = t.mem := by rw [ht]
  refine ⟨?_, by rw [hsp, htp]; exact h.prt, fun hn => by rw [htm, hsm]; exact h.calm hn⟩
  rw [htp, htm, hsm, ht]
  have hmem : t.mem = { s.mem with bytes := memDo s.mem.bytes ws, gran := t.mem.gran } := congrArg State.mem h.eq
  rw [← hmem]

/-- From a state where its command stood at the head of its queue, a MIGRATE is under way, alone on its engine. -/
structure MoveOn (s v : State) (e c : Nat) (x : GthTable) (op : GthOp) : Prop where
  gone : Claim.headGone s v (gatherEng e) c
  ops : (getGe v e).ops = [(c, op)]
  gth : v.gth = { s.gth with engs := v.gth.engs }
  table : getTable s op.table = some x
  moves : s.gth.moves = []
  mem : v.mem = s.mem
  prt : v.prt = s.prt
  fry : v.fry = s.fry

section
variable {s b t : State} {e c : Nat} {g : GthTable} {op o : GthOp} {p q : List (Nat × Bytes)} {row : Bytes}

theorem MoveOn.again (h : MoveOn s b e c g o) (ho : o.table = op.table) : MoveOn s (modOp b e c fun _ => op) e c g op := by
  refine ⟨headGone_of_same (.of_engs rfl) (.of_engs rfl) h.gone, ?_, ?_, ho ▸ h.table, h.moves, h.mem, h.prt, h.fry⟩
  · rw [modOp, getGe_modGe, h.ops]
    simp [tabFind, tabPut]
  · have hb : (modOp b e c fun _ => op).gth = { b.gth with engs := (modOp b e c fun _ => op).gth.engs } := rfl
    rw [hb, h.gth]

/-- What is known of the state after some writes of a MIGRATE. -/
theorem MoveOn.wrote (h : MoveOn s b e c g op) (hw : WroteAll b t p) : tabFind (getGe t e).ops c = some op ∧
    getTable t op.table = some g ∧ t.engs = b.engs ∧ t.gth = b.gth ∧ t.fry = s.fry ∧ t.mem.bytes = memDo s.mem.bytes p := by
  have hgth : t.gth = b.gth := by rw [hw.eq]
  have hge : getGe t e = getGe b e := by rw [getGe, getGe, hgth]
  refine ⟨?_, ?_, by rw [hw.eq], hgth, by rw [← h.fry, hw.eq], by rw [hw.bytes, h.mem]⟩
  · rw [hge, h.ops]
    simp [tabFind]
  · rw [getTable, hgth, h.gth]
    exact h.table

/-- A MIGRATE has ended well after the writes `q`, the row moved. -/
structure Moved (s t : State) (e c : Nat) (q : List (Nat × Bytes)) : Prop where
  gone : Claim.headGone s t (gatherEng e) c
  ops : (getGe t e).ops = []
  migrated : t.gth.migrated = s.gth.migrated + 1
  bytes : t.mem.bytes = memDo s.mem.bytes q
  moves : t.gth.moves = []

/-- The count of the rows migrated. -/
def countMigrated (s : State) : State := modGth s fun g => { g with migrated := g.migrated + 1 }

/-- Where the copy has come and the last writes are made, the MIGRATE ends. -/
theorem MoveOn.ends (h : MoveOn s b e c g op) (hw : WroteAll b t p)
    (hfin : StoresThen b p (finishMove e c op g.desc row) () countMigrated q) : Moved s (migrateEnded t e c .ok row) e c q := by
  obtain ⟨hop, htable, -⟩ := h.wrote hw
  obtain ⟨u, hu, hwu⟩ := hfin t hw
  obtain ⟨-, -, hengs, hgth, -, hbytes⟩ := h.wrote hwu
  have hrow : migrateEnded t e c .ok row = endMigrate (countMigrated u) e c op .ok := by
    rw [migrateEnded, hop]
    dsimp only
    rw [htable]
    dsimp only
    rw [if_neg (fun hne => hne rfl), runAct_ok hu]
  have hops : (getGe (countMigrated u) e).ops = [(c, op)] := by
    rw [← h.ops, getGe, getGe, ← hgth]
    rfl
  have hmoves : (countMigrated u).gth.moves = [] := by
    show u.gth.moves = []
    rw [hgth, h.gth]
    exact h.moves
  obtain ⟨hsame, hidle, hmem, hcount, hmoves'⟩ := endMigrate_ok (op := op) hops hmoves
  rw [hrow]
  refine ⟨?_, hidle, ?_, by rw [hmem]; exact hbytes, hmoves'⟩
  · exact headGone_of_same (.of_engs rfl) ((SameQueues.of_engs (s := b) (t := countMigrated u) hengs).trans hsame) h.gone
  · rw [hcount]
    show u.gth.migrated + 1 = _
    rw [hgth, h.gth]

end

/-! ### Spare slots and the last writes of a MIGRATE -/

section
variable {s : State} {p : List (Nat × Bytes)} {w : Who} (hs : Claim.clean s) (ho : Claim.openTo s w) {x : TableDesc} (hx : x.addr + 128 ≤ wheelBase)
include hs ho hx

/-- The writes that return a spare slot. -/
def slotReturned (m : List Host.Cell) (x : TableDesc) (n : Nat) : List (Nat × Bytes) :=
  [(x.spare + n * x.stride, toLe 4 (leNat (memRead m (x.addr + 64) 4))), (x.addr + 64, toLe 4 n),
   (x.addr + 68, toLe 4 (leNat (memRead m (x.addr + 68) 4) + 1))]

theorem giveSpare_stores {n : Nat} (hin : x.spare + n * x.stride + 4 ≤ wheelBase) (h64 : Misses p (x.addr + 64) 4)
    (h68 : Misses p (x.addr + 68) 4) (hap : x.addr + 72 ≤ x.spare + n * x.stride ∨ x.spare + n * x.stride + 4 ≤ x.addr + 68) :
    Stores s p (giveSpare w x n) () (p ++ slotReturned s.mem.bytes x n) := by
  have hmiss : Misses ((p ++ [(x.spare + n * x.stride, toLe 4 (leNat (memRead s.mem.bytes (x.addr + 64) 4)))]) ++
      [(x.addr + 64, toLe 4 n)]) (x.addr + 68) 4 := by
    intro v hv
    simp only [List.append_assoc, List.mem_append, List.mem_singleton] at hv
    obtain hv | rfl | rfl := hv
    · exact h68 v hv
    · simp only [toLe_length]; omega
    · simp only [toLe_length]; omega
  have hl : p ++ slotReturned s.mem.bytes x n = ((p ++ [(x.spare + n * x.stride, toLe 4 (leNat (memRead s.mem.bytes (x.addr + 64) 4)))]) ++
      [(x.addr + 64, toLe 4 n)]) ++ [(x.addr + 68, toLe 4 (leNat (memRead s.mem.bytes (x.addr + 68) 4) + 1))] := by
    simp only [slotReturned, List.append_assoc, List.cons_append, List.nil_append]
  rw [hl]
  refine .bind (.rdNat hs ho (by omega) h64) ?_
  refine .bind (.wrNat hs ho hin) ?_
  refine .bind (.wrNat hs ho (by omega)) ?_
  refine .bind (.rdNat hs ho (by omega) hmiss) ?_
  exact .wrNat hs ho (by omega)

/-- The writes that take a spare slot. -/
def slotTaken (m : List Host.Cell) (x : TableDesc) (spare : Nat) : List (Nat × Bytes) :=
  [(x.addr + 64, toLe 4 (leNat (memRead m spare 4))), (x.addr + 68, toLe 4 (leNat (memRead m (x.addr + 68) 4) - 1))]

/-- The first free spare slot is taken. -/
theorem takeSpare_stores {n : Nat} (hn : n = leNat (memRead s.mem.bytes (x.addr + 64) 4)) (hfree : n ≠ 0xFFFFFFFF)
    (hin : x.spare + n * x.stride + 4 ≤ wheelBase) :
    Stores s [] (takeSpare w x) (some n) (slotTaken s.mem.bytes x (x.spare + n * x.stride)) := by
  refine .bind (x := n) (by rw [hn]; exact .rdNat hs ho (by omega) (by simp [Misses])) ?_
  rw [if_neg hfree]
  have hmiss : Misses [(x.addr + 64, toLe 4 (leNat (memRead s.mem.bytes (x.spare + n * x.stride) 4)))] (x.addr + 68) 4 := by
    simp [Misses]
  exact .bind (.rdNat hs ho hin (by simp [Misses])) <| .bind (.wrNat hs ho (by omega)) <|
    .bind (.rdNat hs ho (by omega) hmiss) <| .bind (.wrNat hs ho (by omega)) <| .pure _

end

section
variable {b : State} {e c : Nat} {op : GthOp} {x : TableDesc} {p : List (Nat × Bytes)} (hs : Claim.clean b) (ho : Claim.openTo b (whoGather e c))
  (hx : x.addr + 128 ≤ wheelBase) (hentry : op.entry + 16 ≤ wheelBase)
include hs ho hx hentry

theorem finishMove_out (hk : op.kind = .moveOut) (h72 : Misses p (x.addr + 72) 4) (row : Bytes) :
    StoresThen b p (finishMove e c op x row) () countMigrated (p ++ [(x.addr + 72, toLe 4 (leNat (memRead b.mem.bytes (x.addr + 72) 4) + 1)),
      (op.entry, entryBytes (fld op.cmd.bytes 8 8) 1 op.target op.slot)]) := by
  rw [finishMove, if_pos hk, List.append_cons]
  refine .bind (countMoved_stores hs ho hx h72 true) ?_
  exact .bind (wrRedirect_stores hs ho hentry _ 1 op.target op.slot) (.actMod b _ countMigrated)

theorem finishMove_back (hk : op.kind = .moveBack) (hm : op.target = ownModule b) {row : Bytes} {i home spare n : Nat}
    (hi : i = fld op.cmd.bytes 8 8) (hhome : home = x.base + x.slot i * x.stride) (hn : n = op.slot) (hspare : spare = x.spare + n * x.stride)
    (hin : home + row.length ≤ wheelBase) (hin' : spare + 4 ≤ wheelBase)
    (h64 : Misses (p ++ [(home, row)]) (x.addr + 64) 4) (h68 : Misses (p ++ [(home, row)]) (x.addr + 68) 4)
    (hap : x.addr + 72 ≤ spare ∨ spare + 4 ≤ x.addr + 68) :
    StoresThen b p (finishMove e c op x row) () countMigrated (p ++ (home, row) ::
      (slotReturned b.mem.bytes x n ++ [(op.entry, entryBytes i 4 0 0)])) := by
  subst hi hn hhome hspare
  have hne : op.kind ≠ .moveOut := by rw [hk]; decide
  have hfree : Stores b (p ++ [(x.base + x.slot (fld op.cmd.bytes 8 8) * x.stride, row)]) (freeSpareAt (whoGather e c) x op.table op.target op.slot) ()
      (p ++ [(x.base + x.slot (fld op.cmd.bytes 8 8) * x.stride, row)] ++ slotReturned b.mem.bytes x op.slot) := by
    refine .get_bind fun t ht => ?_
    have hown : op.target = ownModule t := by rw [hm, ht.eq]; rfl
    rw [if_pos hown]
    exact giveSpare_stores hs ho hx hin' h64 h68 hap
  rw [finishMove, if_neg hne, List.append_cons, ← List.append_assoc]
  refine .bind (.wr hs ho hin) ?_
  refine .bind hfree ?_
  exact .bind (wrRedirect_stores hs ho hentry _ 4 0 0) (.actMod b _ countMigrated)

end

/-- A move out writes its entry. -/
theorem moveOutEntry_stores {s : State} {p : List (Nat × Bytes)} {e c : Nat} {op : GthOp} {x : TableDesc} {at_ n : Nat} {prev : Bytes}
    (hs : Claim.clean s) (ho : Claim.openTo s (whoGather e c)) (hslots : 0 < x.redirSlots)
    (hat : at_ = Claim.firstProbe x (fld op.cmd.bytes 8 8)) (hin : at_ + 16 ≤ wheelBase) (hprev : prev = memRead s.mem.bytes at_ 16)
    (hst : bits (fld prev 8 2) 15 12 = 0) (hm : Misses p at_ 16) :
    Stores s p (moveOutEntry e c op x n) { op with entry := at_, prev := prev, slot := n }
      (p ++ [(at_, entryBytes (fld op.cmd.bytes 8 8) 2 op.target n)]) := by
  have hfind := findRedirect_stores hs ho hslots hat hin hm hprev (.inl hst)
  rw [if_pos hst] at hfind
  refine .bind hfind ?_
  refine .bind (x := prev) (by rw [hprev]; exact .rdKept hs ho hin hm) ?_
  exact .bind (wrRedirect_stores hs ho hin _ 2 _ _) (.pure _)

/-! ### The copy within a module -/

section
variable {s b t : State} {e c : Nat} {g : GthTable} {op o : GthOp} {p q : List (Nat × Bytes)} {row : Bytes}

theorem modOp_mapped {t : State} (h : WroteAll b t p) (e c : Nat) (f : GthOp → GthOp) : WroteAll (modOp b e c f) (modOp t e c f) p :=
  h.mapped (fun z => modOp z e c f) fun _ _ _ => rfl

/-- A row that moves out within the module is copied to its spare slot. -/
theorem MoveOn.copies_out (h : MoveOn s b e c g o) (ho : o.table = op.table) (hw : WroteAll b t p) (hs : Claim.clean s)
    (hopen : Claim.openTo s (whoGather e c)) (hk : op.kind = .moveOut) (hm : op.target = ownModule s) {home remote : Nat}
    (hhome : home = g.desc.base + g.desc.slot (fld op.cmd.bytes 8 8) * g.desc.stride) (hin : home + g.desc.stride ≤ wheelBase)
    (hrow : memRead s.mem.bytes home g.desc.stride = row) (hmiss : Misses p home g.desc.stride)
    (hout : remote + g.desc.stride ≤ wheelBase)
    (hfin : ∀ z : State, z.mem = s.mem → z.prt = s.prt → StoresThen z (p ++ [(remote, row)]) (finishMove e c { op with phase := .copy } g.desc []) () countMigrated q) :
    Moved s (migrateCopy t e c op g.desc remote) e c q := by
  obtain ⟨b', hb'⟩ : ∃ z, z = modOp b e c fun _ => { op with phase := .copy } := ⟨_, rfl⟩
  obtain ⟨t', ht'⟩ : ∃ z, z = modOp t e c fun _ => { op with phase := .copy } := ⟨_, rfl⟩
  have hon : MoveOn s b' e c g { op with phase := .copy } := hb' ▸ h.again ho
  have hw' : WroteAll b' t' p := by rw [hb', ht']; exact modOp_mapped hw e c _
  have hown : op.target = ownModule t' := by rw [hm, hw'.eq, ownModule, ownModule, ← hon.fry]
  have hclean : Claim.clean b' := clean_of_mem hs hon.mem
  have hopen' : Claim.openTo b' (whoGather e c) := openTo_of_samePrt (by rw [hon.prt]; exact .refl _) hopen
  have hread : Stores b' p (rd (whoGather e c) home g.desc.stride) row p := .rd hclean hopen' hin (by rw [memRead_memDo_misses hmiss, hon.mem, hrow])
  obtain ⟨u, hu, hwu⟩ := hread t' hw'
  have hlen : row.length = g.desc.stride := by rw [← hrow, memRead_length]
  obtain ⟨v, hv, hwv⟩ := Stores.wr (p := p) hclean hopen' (a := remote) (b := row) (by rw [hlen]; exact hout) u hwu
  have hrun : migrateCopy t e c op g.desc remote = migrateEnded v e c .ok [] := by
    rw [migrateCopy, ← ht']
    dsimp only
    rw [if_pos hown, if_pos hk, ← hhome, hu]
    dsimp only
    rw [if_pos hk, runAct_ok hv]
  rw [hrun]
  exact hon.ends hwv (hfin b' hon.mem hon.prt)

/-- A row that moves back within the module is read from its spare slot. -/
theorem MoveOn.copies_back (h : MoveOn s b e c g o) (ho : o.table = op.table) (hw : WroteAll b t p) (hs : Claim.clean s)
    (hopen : Claim.openTo s (whoGather e c)) (hk : op.kind = .moveBack) (hm : op.target = ownModule s) {remote : Nat}
    (hin : remote + g.desc.stride ≤ wheelBase) (hrow : memRead s.mem.bytes remote g.desc.stride = row)
    (hmiss : Misses p remote g.desc.stride)
    (hfin : ∀ z : State, z.mem = s.mem → z.prt = s.prt → z.fry = s.fry → StoresThen z p (finishMove e c { op with phase := .copy } g.desc row) () countMigrated q) :
    Moved s (migrateCopy t e c op g.desc remote) e c q := by
  obtain ⟨b', hb'⟩ : ∃ z, z = modOp b e c fun _ => { op with phase := .copy } := ⟨_, rfl⟩
  obtain ⟨t', ht'⟩ : ∃ z, z = modOp t e c fun _ => { op with phase := .copy } := ⟨_, rfl⟩
  have hon : MoveOn s b' e c g { op with phase := .copy } := hb' ▸ h.again ho
  have hw' : WroteAll b' t' p := by rw [hb', ht']; exact modOp_mapped hw e c _
  have hown : op.target = ownModule t' := by rw [hm, hw'.eq, ownModule, ownModule, ← hon.fry]
  have hne : op.kind ≠ .moveOut := by rw [hk]; decide
  have hclean : Claim.clean b' := clean_of_mem hs hon.mem
  have hopen' : Claim.openTo b' (whoGather e c) := openTo_of_samePrt (by rw [hon.prt]; exact .refl _) hopen
  have hread : Stores b' p (rd (whoGather e c) remote g.desc.stride) row p := .rd hclean hopen' hin (by rw [memRead_memDo_misses hmiss, hon.mem, hrow])
  obtain ⟨u, hu, hwu⟩ := hread t' hw'
  have hrun : migrateCopy t e c op g.desc remote = migrateEnded u e c .ok row := by
    rw [migrateCopy, ← ht']
    dsimp only
    rw [if_pos hown, if_neg hne, hu]
    dsimp only
    rw [if_neg hne]
  rw [hrun]
  exact hon.ends hwu (hfin b' hon.mem hon.prt hon.fry)

end

/-! ### The start of a MIGRATE -/

/-- A MIGRATE has left its queue and is under way. -/
def begun (e c : Nat) (op : GthOp) (s : State) : State := modGe (popQ s (gatherEng e) c) e fun x => { x with ops := tabPut x.ops c op }

section
variable {s : State} {e c : Nat} {q : QCmd} {x : TableDesc} {entry : Bytes} (h : Claim.migrates s e c q x entry)
include h

/-- A MIGRATE whose turn it is begins, or fails as its checks have it. -/
theorem migrate_begins : ∃ u g, Turned s u (gatherEng e) 0 ∧ getTable s (gTable q.bytes) = some g ∧ g.desc = x ∧
    (∀ st v, runActVal (migrateBegin e c q x) u = (.error st, v) → migrateCmd s e c = completeHead v (gatherEng e) c q st) ∧
    ∀ op v, runActVal (migrateBegin e c q x) u = (.ok op, v) → migrateCmd s e c =
      if op.kind = .moveOut then moveOutAsk (begun e c op v) e c op x else moveBackGo (begun e c op v) e c op x := by
  obtain ⟨⟨-, -, hhead, hturn, hops, hok⟩, ⟨g, hg, hdesc, hatt⟩, -⟩ := h
  obtain ⟨hcmd, hverdict, hop⟩ := hhead
  obtain ⟨u, hu, ht⟩ := takeTurn_of hturn
  have hno : tabFind (getGe s e).ops c = none := by rw [hops]; rfl
  have hstart : canStart s e c = true := by simp [canStart, hcmd, hverdict, hop, moveWaits, hops, tabFind, gatherOps]
  have htable : getTable u (gTable q.bytes) = some g := by rw [ht.eq]; exact hg
  have hrun : migrateCmd s e c = match runActVal (migrateBegin e c q g.desc) u with
      | (.error st, v) => completeHead v (gatherEng e) c q st
      | (.ok op, v) => if op.kind = .moveOut then moveOutAsk (begun e c op v) e c op g.desc else moveBackGo (begun e c op v) e c op g.desc := by
    rw [migrateCmd, hno]
    dsimp only
    rw [migrateStart, gatherHead, hno, if_neg (by simp), headRow_runs ⟨hcmd, hverdict, hop⟩ (by decide), hstart]
    simp only [Bool.not_true, Bool.false_eq_true, if_false, hu, hok, htable, hatt, if_true]
    rfl
  rw [hdesc] at hrun
  refine ⟨u, g, ht, hg, hdesc, fun st v hv => ?_, fun op v hv => ?_⟩
  · rw [hrun, hv]
  · rw [hrun, hv]

theorem begun_on {u v : State} {g : GthTable} {op : GthOp} {p : List (Nat × Bytes)} (ht : Turned s u (gatherEng e) 0)
    (hg : getTable s op.table = some g) (hw : WroteAll u v p) :
    MoveOn s (begun e c op u) e c g op ∧ WroteAll (begun e c op u) (begun e c op v) p := by
  obtain ⟨⟨-, -, -, -, hops, -⟩, -, -, -, -, -, -, -, -, -, -, hmoves⟩ := h
  refine ⟨⟨headGone_of_same ht.sameQueues (.of_engs rfl) (popQ_gone u (gatherEng e) c), ?_, ?_, hg, hmoves, ?_, ?_, ?_⟩,
    hw.mapped (begun e c op) fun _ _ _ => rfl⟩
  · have hge : getGe (popQ u (gatherEng e) c) e = getGe s e := by rw [ht.eq]; rfl
    rw [begun, getGe_modGe, hge, hops]
    rfl
  all_goals rw [ht.eq]; rfl

end

/-! ### The checks of a MIGRATE -/

/-- A move home of a row, as it begins. -/
def backOp (q : QCmd) (x : TableDesc) (entry : Bytes) : GthOp :=
  { kind := .moveBack, cmd := q, table := gTable q.bytes, entry := Claim.firstProbe x (fld q.bytes 8 8), prev := entry,
    target := fld entry 8 2 % 4096, slot := fld entry 12 4, out := 1, phase := .hold }

/-- A move out of a row, as it begins. -/
def outOp (q : QCmd) : GthOp :=
  { kind := .moveOut, cmd := q, table := gTable q.bytes, target := fld q.bytes 48 8, out := 1, phase := .ask }

section
variable {s u : State} {e c : Nat} {q : QCmd} {x : TableDesc} {entry : Bytes} {w : Nat} (h : Claim.migrates s e c q x entry)
  (ht : Turned s u (gatherEng e) w)
include h ht

theorem turned_open : Claim.clean u ∧ Claim.openTo u (whoGather e c) ∧ u.mem = s.mem ∧ u.fry = s.fry := by
  obtain ⟨-, -, hs, ho, -⟩ := h
  rw [ht.eq]
  exact ⟨hs, ho, rfl, rfl⟩

/-- The row's own entry, or the place for it, is what a MIGRATE finds. -/
theorem migrate_finds {at_ : Nat} (hat : at_ = Claim.firstProbe x (fld q.bytes 8 8))
    (hst : bits (fld entry 8 2) 15 12 = 0 ∨ bits (fld entry 8 2) 15 12 = 1 ∧ fld entry 0 8 = fld q.bytes 8 8) :
    (decide (x.rows ≤ fld q.bytes 8 8) || decide (fld q.bytes 8 8 % x.shards ≠ x.shard) || decide (x.owner (fld q.bytes 8 8) ≠ e)) = false ∧
    Stores u [] (findRedirect (whoGather e c) x (fld q.bytes 8 8)) (if bits (fld entry 8 2) 15 12 = 0 then (none, some at_)
      else (some { at_ := at_, state := 1, target := fld entry 8 2 % 4096, slot := fld entry 12 4, raw := entry }, none)) [] := by
  obtain ⟨hs, ho, hmem, -⟩ := turned_open h ht
  obtain ⟨-, -, -, -, hrows, hshard, howner, hslots, hin, he, -, -⟩ := h
  refine ⟨by simp [hrows, hshard, howner], findRedirect_stores hs ho hslots hat (by rw [hat]; exact hin) (by simp [Misses]) ?_ hst⟩
  rw [hmem, hat, he]

theorem migrateBegin_out (hhome : bit (fld q.bytes 3 1) 0 = false) (hst : bits (fld entry 8 2) 15 12 = 0) :
    Stores u [] (migrateBegin e c q x) (outOp q) [] := by
  obtain ⟨hcheck, hfind⟩ := migrate_finds h ht rfl (.inl hst)
  rw [if_pos hst] at hfind
  exact .check hcheck <| .bind hfind <| .check hhome <| .pure _

theorem migrateBegin_back (hhome : bit (fld q.bytes 3 1) 0 = true) (hst : bits (fld entry 8 2) 15 12 = 1)
    (hi : fld entry 0 8 = fld q.bytes 8 8)
    (hpath : fld entry 8 2 % 4096 = ownModule s ∨ ∃ p v, choosePort s (fld entry 8 2 % 4096) = some (p, v)) :
    Stores u [] (migrateBegin e c q x) (backOp q x entry) [(x.addr + 72, toLe 4 (leNat (memRead s.mem.bytes (x.addr + 72) 4) - 1)),
      (Claim.firstProbe x (fld q.bytes 8 8), entryBytes (fld q.bytes 8 8) 3 (fld entry 8 2 % 4096) (fld entry 12 4))] := by
  obtain ⟨hs, ho, hmem, hfry⟩ := turned_open h ht
  obtain ⟨hcheck, hfind⟩ := migrate_finds h ht rfl (.inr ⟨hst, hi⟩)
  rw [if_neg (by rw [hst]; decide)] at hfind
  obtain ⟨-, -, -, -, -, -, -, -, hin, -, hx, -⟩ := h
  refine .check hcheck <| .bind hfind <| .check (by simp [hhome]) <| .get_bind fun t hw => ?_
  refine .check ?_ ?_
  · have htfry : t.fry = s.fry := by rw [hw.eq]; exact hfry
    obtain hm | ⟨p, v, hp⟩ := hpath
    · have hown : fld entry 8 2 % 4096 = ownModule t := by rw [hm, ownModule, ownModule, htfry]
      simp [hown]
    · obtain ⟨v', hv', -⟩ := choosePort_of_fry (s := s) (t := t) htfry hp
      simp [hv']
  · rw [← hmem]
    refine .bind (countMoved_stores hs ho hx (by simp [Misses]) false) ?_
    exact .bind (wrRedirect_stores hs ho hin _ 3 _ _) (.pure _)

/-- A move home with no row moved, or out with one moved already, fails. -/
theorem migrateBegin_fails (hst : bit (fld q.bytes 3 1) 0 = true ∧ bits (fld entry 8 2) 15 12 = 0 ∨
      bit (fld q.bytes 3 1) 0 = false ∧ bits (fld entry 8 2) 15 12 = 1 ∧ fld entry 0 8 = fld q.bytes 8 8) :
    ∃ v, runActVal (migrateBegin e c q x) u = (.error .internal, v) ∧ Charged u v := by
  obtain ⟨hhome, hst⟩ | ⟨hhome, hst, hi⟩ := hst
  · obtain ⟨hcheck, hfind⟩ := migrate_finds h ht rfl (.inl hst)
    rw [if_pos hst] at hfind
    obtain ⟨v, hv, hw⟩ := hfind.run
    refine ⟨v, ?_, hw.to_charged⟩
    exact (runActVal_stopIf_bind hcheck).trans ((runActVal_bind_ok hv).trans (runActVal_stopIf_fails hhome))
  · obtain ⟨hcheck, hfind⟩ := migrate_finds h ht rfl (.inr ⟨hst, hi⟩)
    rw [if_neg (by rw [hst]; decide)] at hfind
    obtain ⟨v, hv, hw⟩ := hfind.run
    refine ⟨v, ?_, hw.to_charged⟩
    exact (runActVal_stopIf_bind hcheck).trans ((runActVal_bind_ok hv).trans (runActVal_stopIf_fails (by simp [hhome])))

end

/-! ### A MIGRATE's turn -/

/-- The bytes of a MIGRATE's ranges lie apart from one another: the row's home, its spare slot, the descriptor and the redirect entry. -/
structure RangesApart (home spare stride addr at_ : Nat) : Prop where
  homeSpare : home + stride ≤ spare ∨ spare + stride ≤ home
  homeAddr : home + stride ≤ addr ∨ addr + 128 ≤ home
  homeAt : home + stride ≤ at_ ∨ at_ + 16 ≤ home
  spareAddr : spare + stride ≤ addr ∨ addr + 128 ≤ spare
  spareAt : spare + stride ≤ at_ ∨ at_ + 16 ≤ spare
  addrAt : addr + 128 ≤ at_ ∨ at_ + 16 ≤ addr

theorem rangesApart_of {home spare stride addr at_ : Nat} (h : [(home, stride), (spare, stride), (addr, 128), (at_, 16)].Pairwise
    (fun (u v : Nat × Nat) => u.1 + u.2 ≤ v.1 ∨ v.1 + v.2 ≤ u.1)) : RangesApart home spare stride addr at_ := by
  simp only [List.pairwise_cons, List.mem_cons, List.not_mem_nil, or_false, forall_eq_or_imp, forall_eq] at h
  obtain ⟨⟨h1, h2, h3⟩, ⟨h4, h5⟩, h6, -⟩ := h
  exact ⟨h1, h2, h3, h4, h5, h6⟩

theorem ownModule_lt (s : State) : ownModule s < 4096 := by
  have hb : s.fry.berth.toNat < 2 ^ 6 := s.fry.berth.isLt
  have hl : s.fry.slot.toNat < 2 ^ 6 := s.fry.slot.isLt
  rw [ownModule]
  omega

/-- The writes of a move home within the module: REDIRECTED and the entry as it begins, the row, its spare slot returned, the entry cleared. -/
def backWrites (m : List Host.Cell) (x : TableDesc) (home at_ i target n : Nat) (row : Bytes) : List (Nat × Bytes) :=
  [(x.addr + 72, toLe 4 (leNat (memRead m (x.addr + 72) 4) - 1)), (at_, entryBytes i 3 target n)] ++
    (home, row) :: (slotReturned m x n ++ [(at_, entryBytes i 4 0 0)])

theorem memRead_backWrites {x : TableDesc} {home spare at_ i target n : Nat} {row : Bytes} (m : List Host.Cell)
    (hspare : spare = x.spare + n * x.stride) (hap : RangesApart home spare x.stride x.addr at_) (hrow : row.length = x.stride)
    (hstride : 4 ≤ x.stride) (hi : i < 2 ^ 64) (hn : n < 2 ^ 32) :
    memRead (memDo m (backWrites m x home at_ i target n row)) home x.stride = row ∧
    fld (memRead (memDo m (backWrites m x home at_ i target n row)) at_ 16) 8 2 = 4 * 4096 ∧
    leNat (memRead (memDo m (backWrites m x home at_ i target n row)) (x.addr + 64) 4) = n := by
  obtain ⟨h1, h2, h3, h4, h5, h6⟩ := hap
  refine ⟨memRead_memDo_at 2 rfl hrow ?_, ?_, ?_⟩
  · simp only [Misses, backWrites, slotReturned, ← hspare, List.cons_append, List.nil_append, List.drop_succ_cons, List.drop_zero,
      List.forall_mem_cons, toLe_length, entryBytes_length, List.not_mem_nil, false_imp_iff, implies_true, and_true]
    omega
  · rw [memRead_memDo_at (b := entryBytes i 4 0 0) 6 rfl (entryBytes_length _ _ _ _) (by simp [Misses, backWrites, slotReturned])]
    exact (entryBytes_fields hi (by decide) (by decide)).2.1
  · rw [memRead_memDo_at (b := toLe 4 n) 4 rfl (toLe_length _ _) ?_]
    · exact leNat_toLe_of_lt hn
    · simp only [Misses, backWrites, slotReturned, ← hspare, List.cons_append, List.nil_append, List.drop_succ_cons, List.drop_zero,
        List.forall_mem_cons, toLe_length, entryBytes_length, List.not_mem_nil, false_imp_iff, implies_true, and_true]
      omega

/-- The writes of a move out within the module: its spare slot taken, the entry as it begins, the row, REDIRECTED and the entry as it ends. -/
def outWrites (m : List Host.Cell) (x : TableDesc) (spare at_ i target n : Nat) (row : Bytes) : List (Nat × Bytes) :=
  slotTaken m x spare ++ [(at_, entryBytes i 2 target n), (spare, row), (x.addr + 72, toLe 4 (leNat (memRead m (x.addr + 72) 4) + 1)),
    (at_, entryBytes i 1 target n)]

theorem memRead_outWrites {x : TableDesc} {home spare at_ i target n : Nat} {row : Bytes} (m : List Host.Cell)
    (hap : RangesApart home spare x.stride x.addr at_) (hrow : row.length = x.stride) :
    memRead (memDo m (outWrites m x spare at_ i target n row)) spare x.stride = row ∧
    memRead (memDo m (outWrites m x spare at_ i target n row)) at_ 16 = entryBytes i 1 target n ∧
    leNat (memRead (memDo m (outWrites m x spare at_ i target n row)) (x.addr + 64) 4) = leNat (memRead m spare 4) := by
  obtain ⟨h1, h2, h3, h4, h5, h6⟩ := hap
  refine ⟨memRead_memDo_at 3 rfl hrow ?_, memRead_memDo_at 5 rfl (entryBytes_length _ _ _ _) (by simp [Misses, outWrites, slotTaken]), ?_⟩
  · simp only [Misses, outWrites, slotTaken, List.cons_append, List.nil_append, List.drop_succ_cons, List.drop_zero, List.forall_mem_cons, toLe_length, entryBytes_length,
      List.not_mem_nil, false_imp_iff, implies_true, and_true]
    omega
  · rw [memRead_memDo_at (b := toLe 4 (leNat (memRead m spare 4))) 0 rfl (toLe_length _ _) ?_]
    · refine leNat_toLe_of_lt ?_
      have hlt := leNat_lt (memRead m spare 4)
      rwa [memRead_length] at hlt
    · simp only [Misses, outWrites, slotTaken, List.cons_append, List.nil_append, List.drop_succ_cons, List.drop_zero, List.forall_mem_cons, toLe_length, entryBytes_length,
        List.not_mem_nil, false_imp_iff, implies_true, and_true]
      omega

section
variable {s : State} {e c : Nat} {q : QCmd} {x : TableDesc} {entry : Bytes} (h : Claim.migrates s e c q x entry)
include h

omit h in
/-- What a MIGRATE does when its engine is done with it is what its turn does. -/
theorem migrate_does {t : State} {P : State → Prop} (hrow : migrateCmd s e c = t) (hmoves : t.gth.moves = []) (hP : P t) :
    Does (.migrate e c) s P := by
  have hexec : offerMove (migrateCmd s e c) = t := by rw [hrow, offerMove_none hmoves]
  exact does_of (congrArg Host.Outcome.next hexec) hP

theorem migrate_fails (hst : bit (fld q.bytes 3 1) 0 = true ∧ bits (fld entry 8 2) 15 12 = 0 ∨
      bit (fld q.bytes 3 1) 0 = false ∧ bits (fld entry 8 2) 15 12 = 1 ∧ fld entry 0 8 = fld q.bytes 8 8) :
    Does (.migrate e c) s fun t => Claim.headFails s t (gatherEng e) c q .internal ∧ t.mem = s.mem := by
  obtain ⟨u, g, ht, -, -, hfail, -⟩ := migrate_begins h
  obtain ⟨v, hv, hc⟩ := migrateBegin_fails h ht hst
  obtain ⟨-, -, -, -, -, -, -, -, -, -, -, hmoves⟩ := h
  have hend := hfail _ v hv
  have hvmoves : (completeHead v (gatherEng e) c q .internal).gth.moves = [] := by
    rw [(completeHead_gth v (gatherEng e) c q .internal).2, hc.eq]
    show u.gth.moves = []
    rw [ht.eq]
    exact hmoves
  refine migrate_does hend hvmoves ⟨?_, ?_⟩
  · exact headFails_of_same (ht.sameQueues.trans (.of_engs (by rw [hc.eq]))) (.of_engs rfl) (completeHead_fails v (gatherEng e) c q rfl {})
  · rw [completeHead_mem v (e := gatherEng e) EngKind.noConfusion, hc.mem, ht.eq]

/-- A row in a spare slot of this module moves home at once. -/
theorem migrate_back (hback : bit (fld q.bytes 3 1) 0 = true) (hst : bits (fld entry 8 2) 15 12 = 1) (hi : fld entry 0 8 = fld q.bytes 8 8)
    (hm : fld entry 8 2 % 4096 = ownModule s) (hbusy : spareBusy s (gTable q.bytes) (fld entry 12 4) = false) {home spare : Nat}
    (hhome : home = x.base + x.slot (fld q.bytes 8 8) * x.stride) (hspare : spare = x.spare + fld entry 12 4 * x.stride)
    (hap : RangesApart home spare x.stride x.addr (Claim.firstProbe x (fld q.bytes 8 8))) (hin : home + x.stride ≤ wheelBase)
    (hin' : spare + x.stride ≤ wheelBase) (hstride : 4 ≤ x.stride) :
    Does (.migrate e c) s fun t =>
      Claim.headGone s t (gatherEng e) c ∧ (getGe t e).ops = [] ∧ t.gth.migrated = s.gth.migrated + 1 ∧
      memRead t.mem.bytes home x.stride = memRead s.mem.bytes spare x.stride ∧
      fld (memRead t.mem.bytes (Claim.firstProbe x (fld q.bytes 8 8)) 16) 8 2 = 4 * 4096 ∧
      leNat (memRead t.mem.bytes (x.addr + 64) 4) = fld entry 12 4 := by
  obtain ⟨u, g, ht, hg, hdesc, -, hok⟩ := migrate_begins h
  obtain ⟨v, hv, hw⟩ := (migrateBegin_back h ht hback hst hi (.inl hm)).run
  obtain ⟨hon, hwb⟩ := begun_on h (op := backOp q x entry) ht hg hw
  have hrow := hok _ v hv
  have hk : (backOp q x entry).kind = .moveBack := rfl
  rw [hk, if_neg (by decide)] at hrow
  obtain ⟨-, -, hs, ho, -, -, -, -, hat, -, hx, -⟩ := h
  subst hdesc
  have hown : (backOp q g.desc entry).target = ownModule (begun e c (backOp q g.desc entry) v) := by
    rw [ownModule, (hon.wrote hwb).2.2.2.2.1, ← ownModule]
    exact hm
  have hquiet : spareBusy (begun e c (backOp q g.desc entry) v) (backOp q g.desc entry).table (backOp q g.desc entry).slot = false := by
    rw [← hbusy, spareBusy, (hon.wrote hwb).2.2.2.1, hon.gth]
    rfl
  rw [moveBackGo, if_pos hown, hquiet, if_neg Bool.false_ne_true] at hrow
  have hlen : (memRead s.mem.bytes spare g.desc.stride).length = g.desc.stride := memRead_length _ _ _
  obtain ⟨hreadHome, hreadAt, hreadAddr⟩ := memRead_backWrites (x := g.desc) (i := fld q.bytes 8 8) (target := fld entry 8 2 % 4096)
    s.mem.bytes hspare hap hlen hstride (fld_lt _ _ _) (fld_lt _ _ _)
  obtain ⟨h1, h2, h3, h4, h5, h6⟩ := hap
  obtain ⟨hgone, hidle, hcount, hbytes, hmoves⟩ : Moved s _ e c (backWrites s.mem.bytes g.desc home (Claim.firstProbe g.desc (fld q.bytes 8 8)) (fld q.bytes 8 8)
      (fld entry 8 2 % 4096) (fld entry 12 4) (memRead s.mem.bytes spare g.desc.stride)) := by
    refine hon.copies_back (op := backOp q g.desc entry) (remote := spare) rfl hwb hs ho rfl hm hin' rfl ?_ fun z hzm hzp hzf => ?_
    · simp only [Misses, List.forall_mem_cons, toLe_length, entryBytes_length, List.not_mem_nil, false_imp_iff, implies_true, and_true]
      omega
    · rw [backWrites, ← hzm]
      refine finishMove_back (b := z) (op := { backOp q g.desc entry with phase := .copy }) (clean_of_mem hs hzm)
        (openTo_of_samePrt (by rw [hzp]; exact .refl _) ho) hx hat rfl (by rw [ownModule, hzf]; exact hm) rfl hhome rfl hspare ?_ (by omega) ?_ ?_ (by omega)
      · rw [memRead_length]
        exact hin
      all_goals
        simp only [Misses, List.cons_append, List.nil_append, List.forall_mem_cons, toLe_length, entryBytes_length, memRead_length,
          List.not_mem_nil, false_imp_iff, implies_true, and_true]
        omega
  refine migrate_does (hrow.trans (by rw [hspare]; rfl)) hmoves ⟨hgone, hidle, hcount, ?_, ?_, ?_⟩
  · rw [hbytes, hreadHome]
  · rw [hbytes, hreadAt]
  · rw [hbytes, hreadAddr]

/-- A row moves to a spare slot of this module at once. -/
theorem migrate_out (hout : bit (fld q.bytes 3 1) 0 = false) (hst : bits (fld entry 8 2) 15 12 = 0) (hm : fld q.bytes 48 8 = ownModule s)
    {n home spare : Nat} (hn : n = fld (memRead s.mem.bytes (x.addr + 64) 4) 0 4) (hfree : n ≠ 0xFFFFFFFF)
    (hhome : home = x.base + x.slot (fld q.bytes 8 8) * x.stride) (hspare : spare = x.spare + n * x.stride)
    (hap : RangesApart home spare x.stride x.addr (Claim.firstProbe x (fld q.bytes 8 8))) (hin : home + x.stride ≤ wheelBase)
    (hin' : spare + x.stride ≤ wheelBase) (hstride : 4 ≤ x.stride) :
    Does (.migrate e c) s fun t =>
      Claim.headGone s t (gatherEng e) c ∧ (getGe t e).ops = [] ∧ t.gth.migrated = s.gth.migrated + 1 ∧
      memRead t.mem.bytes spare x.stride = memRead s.mem.bytes home x.stride ∧
      memRead t.mem.bytes (Claim.firstProbe x (fld q.bytes 8 8)) 16 = entryBytes (fld q.bytes 8 8) 1 (ownModule s) n ∧
      leNat (memRead t.mem.bytes (x.addr + 64) 4) = leNat (memRead s.mem.bytes spare 4) := by
  obtain ⟨u, g, ht, hg, hdesc, -, hok⟩ := migrate_begins h
  obtain ⟨v, hv, hw⟩ := (migrateBegin_out h ht hout hst).run
  obtain ⟨hon, hwb⟩ := begun_on h (op := outOp q) ht hg hw
  have hrow := hok _ v hv
  have hk : (outOp q).kind = .moveOut := rfl
  rw [hk, if_pos rfl] at hrow
  obtain ⟨-, -, hs, ho, -, -, -, hslots, hat, he, hx, -⟩ := h
  subst hdesc
  have hmodule : ownModule (begun e c (outOp q) v) = ownModule s := by
    rw [ownModule, (hon.wrote hwb).2.2.2.2.1, ← ownModule]
  have hown : ¬ (outOp q).target ≠ ownModule (begun e c (outOp q) v) := not_not.2 (hm.trans hmodule.symm)
  obtain ⟨b, hb⟩ : ∃ b, b = begun e c (outOp q) u := ⟨_, rfl⟩
  rw [← hb] at hon hwb
  have hs' : Claim.clean b := clean_of_mem hs hon.mem
  have ho' : Claim.openTo b (whoGather e c) := openTo_of_samePrt (by rw [hon.prt]; exact .refl _) ho
  have hlen : (memRead s.mem.bytes home g.desc.stride).length = g.desc.stride := memRead_length _ _ _
  obtain ⟨hreadSpare, hreadAt, hreadAddr⟩ := memRead_outWrites (x := g.desc) (i := fld q.bytes 8 8) (target := ownModule s) (n := n)
    s.mem.bytes hap hlen
  obtain ⟨h1, h2, h3, h4, h5, h6⟩ := hap
  have hn' : n = leNat (memRead b.mem.bytes (g.desc.addr + 64) 4) := by
    rw [hn, hon.mem, fld_whole (memRead_length _ _ _)]
  obtain ⟨w, hwrun, hww⟩ := takeSpare_stores hs' ho' hx hn' hfree (by omega) _ hwb
  rw [moveOutAsk, if_neg hown, hwrun] at hrow
  dsimp only at hrow
  rw [← hspare] at hww hrow
  rw [hon.mem] at hww
  have hentry := moveOutEntry_stores (op := outOp q) (n := n) (p := slotTaken s.mem.bytes g.desc spare) hs' ho' hslots rfl hat (he.trans (by rw [hon.mem]; rfl)) hst (by
    simp only [Misses, slotTaken, List.forall_mem_cons, toLe_length, List.not_mem_nil, false_imp_iff, implies_true, and_true]
    simp only [outOp]
    omega)
  obtain ⟨y, hy, hwy⟩ := hentry w hww
  rw [moveOutGo, hy] at hrow
  dsimp only at hrow
  obtain ⟨hgone, hidle, hcount, hbytes, hmoves⟩ : Moved s (migrateCmd s e c) e c (outWrites s.mem.bytes g.desc spare (Claim.firstProbe g.desc (fld q.bytes 8 8)) (fld q.bytes 8 8)
      (ownModule s) n (memRead s.mem.bytes home g.desc.stride)) := by
    rw [hrow]
    refine hon.copies_out (op := { outOp q with entry := Claim.firstProbe g.desc (fld q.bytes 8 8), prev := entry, slot := n }) (remote := spare)
      (row := memRead s.mem.bytes home g.desc.stride) rfl hwy hs ho rfl hm hhome hin rfl ?_ hin' fun z hzm hzp => ?_
    · simp only [Misses, slotTaken, outOp, List.cons_append, List.nil_append, List.forall_mem_cons, toLe_length, entryBytes_length, List.not_mem_nil, false_imp_iff,
        implies_true, and_true]
      omega
    · have hsplit : outWrites s.mem.bytes g.desc spare (Claim.firstProbe g.desc (fld q.bytes 8 8)) (fld q.bytes 8 8) (ownModule s) n
            (memRead s.mem.bytes home g.desc.stride) =
          (slotTaken s.mem.bytes g.desc spare ++ [(Claim.firstProbe g.desc (fld q.bytes 8 8), entryBytes (fld q.bytes 8 8) 2 (ownModule s) n)] ++
            [(spare, memRead s.mem.bytes home g.desc.stride)]) ++
          [(g.desc.addr + 72, toLe 4 (leNat (memRead s.mem.bytes (g.desc.addr + 72) 4) + 1)),
            (Claim.firstProbe g.desc (fld q.bytes 8 8), entryBytes (fld q.bytes 8 8) 1 (ownModule s) n)] := by
        simp only [outWrites, List.append_assoc, List.cons_append, List.nil_append]
      rw [hsplit, ← hm, ← hzm]
      refine finishMove_out (b := z) (op := { outOp q with entry := Claim.firstProbe g.desc (fld q.bytes 8 8), prev := entry, slot := n, phase := .copy })
        (clean_of_mem hs hzm) (openTo_of_samePrt (by rw [hzp]; exact .refl _) ho) hx hat rfl ?_ []
      simp only [Misses, slotTaken, outOp, List.cons_append, List.nil_append, List.forall_mem_cons, toLe_length, entryBytes_length, memRead_length,
        List.not_mem_nil, false_imp_iff, implies_true, and_true]
      omega
  refine migrate_does rfl hmoves ⟨hgone, hidle, hcount, ?_, ?_, ?_⟩
  · rw [hbytes, hreadSpare]
  · rw [hbytes, hreadAt]
  · rw [hbytes, hreadAddr]

/-- A row that another module has is asked for there, its entry saying MOVING_BACK. -/
theorem migrate_asks (hback : bit (fld q.bytes 3 1) 0 = true) (hst : bits (fld entry 8 2) 15 12 = 1) (hi : fld entry 0 8 = fld q.bytes 8 8)
    {p : Nat} {u : State} (hm : fld entry 8 2 % 4096 ≠ ownModule s) (hpath : choosePort s (fld entry 8 2 % 4096) = some (p, u))
    (hleft : forwardsLeft s (fld entry 8 2 % 4096) (gTable q.bytes) (fld q.bytes 8 8) = false) :
    Does (.migrate e c) s fun t =>
      Claim.headGone s t (gatherEng e) c ∧ t.gth.migrated = s.gth.migrated ∧
      tabFind (getGe t e).ops c = some { backOp q x entry with phase := .ask } ∧
      fld (memRead t.mem.bytes (Claim.firstProbe x (fld q.bytes 8 8)) 16) 8 2 = 3 * 4096 + fld entry 8 2 % 4096 ∧
      (getPath t p (fld entry 8 2 % 4096)).sendq = (getPath s p (fld entry 8 2 % 4096)).sendq ++
        [Claim.purserFrame (.spareAsk e c (gTable q.bytes) (some (fld entry 12 4)))] := by
  obtain ⟨u', g, ht, hg, hdesc, -, hok⟩ := migrate_begins h
  obtain ⟨v, hv, hw⟩ := (migrateBegin_back h ht hback hst hi (.inr ⟨p, u, hpath⟩)).run
  obtain ⟨hon, hwb⟩ := begun_on h (op := backOp q x entry) ht hg hw
  have hrow := hok _ v hv
  have hk : (backOp q x entry).kind = .moveBack := rfl
  rw [hk, if_neg (by decide)] at hrow
  obtain ⟨-, -, hengs, hgth, hfry, hbytes⟩ := hon.wrote hwb
  obtain ⟨b, hb⟩ : ∃ b, b = begun e c (backOp q x entry) v := ⟨_, rfl⟩
  rw [← hb] at hrow hengs hgth hfry hbytes
  have hown : (backOp q x entry).target ≠ ownModule b := by
    rw [ownModule, hfry, ← ownModule]
    exact hm
  have hgo : forwardsLeft b (backOp q x entry).target (backOp q x entry).table (fld (backOp q x entry).cmd.bytes 8 8) = false := by
    rw [forwardsLeft, hfry, ← forwardsLeft]
    exact hleft
  obtain ⟨v', hport, -⟩ := choosePort_of_fry (t := b) hfry hpath
  have hsome : (choosePort b (backOp q x entry).target).isNone = false := by
    show (choosePort b (fld entry 8 2 % 4096)).isNone = false
    rw [hport]
    rfl
  obtain ⟨z, hz⟩ : ∃ z, z = modOp b e c fun o => { o with phase := .ask } := ⟨_, rfl⟩
  have hzfry : z.fry = s.fry := by rw [hz]; exact hfry
  obtain ⟨v'', hport', -⟩ := choosePort_of_fry (t := z) hzfry hpath
  rw [moveBackGo, if_neg hown, hgo, if_neg Bool.false_ne_true, askSpare, hsome, if_neg Bool.false_ne_true, ← hz] at hrow
  have hsent := purserSend_sends hport' (.spareAsk e c (gTable q.bytes) (some (fld entry 12 4)))
  have hzpath : getPath z p (fld entry 8 2 % 4096) = getPath s p (fld entry 8 2 % 4096) := by rw [getPath, hzfry, ← getPath]
  have heq := purserSend_eq z (fld entry 8 2 % 4096) (.spareAsk e c (gTable q.bytes) (some (fld entry 12 4)))
  obtain ⟨t, hteq⟩ : ∃ t, t = purserSend z (fld entry 8 2 % 4096) (.spareAsk e c (gTable q.bytes) (some (fld entry 12 4))) := ⟨_, rfl⟩
  have hrow' : migrateCmd s e c = t := hrow.trans hteq.symm
  rw [← hteq] at hsent heq
  have htgth : t.gth = z.gth := by rw [heq]
  have hge : getGe b e = getGe (begun e c (backOp q x entry) u') e := by rw [getGe, getGe, hgth]
  refine migrate_does hrow' ?_ ⟨?_, ?_, ?_, ?_, ?_⟩
  · rw [htgth, hz]
    show b.gth.moves = []
    rw [hgth, hon.gth]
    exact hon.moves
  · exact headGone_of_same (.of_engs rfl) (.of_engs (by rw [heq, hz]; exact hengs)) hon.gone
  · rw [htgth, hz]
    show b.gth.migrated = s.gth.migrated
    rw [hgth, hon.gth]
  · rw [getGe, htgth, ← getGe, hz, modOp, getGe_modGe, hge, hon.ops]
    simp [tabFind, tabPut]
  · have hmem : t.mem.bytes = b.mem.bytes := by rw [heq, hz]; rfl
    have hlt : fld entry 8 2 % 4096 < 4096 := Nat.mod_lt _ (by decide)
    rw [hmem, hbytes, memRead_memDo_at (b := entryBytes (fld q.bytes 8 8) 3 (fld entry 8 2 % 4096) (fld entry 12 4)) 1 rfl (entryBytes_length _ _ _ _) (by simp [Misses])]
    exact (entryBytes_fields (fld_lt _ _ _) (by omega) (fld_lt _ _ _)).2.1
  · rw [hsent, hzpath]

end

theorem rowsMigrate : Claim.rowsMigrate := by
  intro e c q x entry s h
  refine ⟨fun hback hst hi => ⟨fun hm hbusy hap => ?_, fun p u hm hpath hleft => ?_⟩, fun hout hst hm hfree hap => ?_, fun hst => migrate_fails h hst⟩
  · obtain ⟨hpair, hin, hin', hstride⟩ := hap
    exact migrate_back h hback hst hi hm hbusy rfl rfl (rangesApart_of hpair) hin hin' hstride
  · exact migrate_asks h hback hst hi hm hpath hleft
  · obtain ⟨hpair, hin, hin', hstride⟩ := hap
    refine does_mono (migrate_out h hout hst hm rfl hfree rfl rfl (rangesApart_of hpair) hin hin' hstride) fun t ht => ?_
    obtain ⟨hgone, hidle, hcount, hrow, hentry, hnext⟩ := ht
    have hlt := ownModule_lt s
    obtain ⟨h0, h8, h12⟩ := entryBytes_fields (i := fld q.bytes 8 8) (st := 1) (target := ownModule s) (slot := fld (memRead s.mem.bytes (x.addr + 64) 4) 0 4) (fld_lt _ _ _) (by omega) (fld_lt _ _ _)
    refine ⟨hgone, hidle, hcount, hrow, ?_, ?_, ?_, ?_⟩
    · rw [hentry, h0]
    · rw [hentry, h8]
    · rw [hentry, h12]
    · exact hnext.trans (fld_whole (memRead_length _ _ _)).symm

end Sys2Proof.Proofs
end

