-- ==== Sys2Proof/Proofs/RowServices.lean ====
section
/-! PROOFS. Rows at their owner: a request is served, its row read or updated and counted, and answered (spec/11 R270, R272, R273, R275, R276). -/

namespace Sys2Proof.Proofs

open Sys2Proof Sys2Proof.Machine Sys2Proof.Laws

/-! ### Writes, and then a change -/

section
variable {α β : Type} {s : State} {p q : List (Nat × Bytes)} {f g : State → State}

theorem StoresThen.pure (x : α) : StoresThen s p (Pure.pure x : Act α) x id p := fun t ht => ⟨t, rfl, ht⟩

theorem StoresThen.get_bind {k : State → Act β} {y : β} (hk : ∀ t, WroteAll s t p → StoresThen s p (k t) y f q) :
    StoresThen s p (get >>= k) y f q := fun t ht => hk t ht t ht

/-- What comes after the change only changes the state again. -/
theorem StoresThen.after {a : Act α} {k : α → Act β} {x : α} {y : β} (ha : StoresThen s p a x f q)
    (hk : ∀ u, runActVal (k x) (f u) = (.ok y, g u)) : StoresThen s p (a >>= k) y g q := by
  intro t ht
  obtain ⟨u, hu, hw⟩ := ha t ht
  exact ⟨u, (runActVal_bind_ok hu).trans (hk u), hw⟩

theorem StoresThen.run {a : Act α} {x : α} (h : StoresThen s [] a x f q) : ∃ u, runActVal a s = (.ok x, f u) ∧ WroteAll s u q :=
  h s (.refl s)

/-- Work that does the same kind of write for every element of a list. -/
theorem Stores.forM_each {f : α → Act PUnit} {w : α → Nat × Bytes} (l : List α) (h : ∀ x ∈ l, ∀ p, Stores s p (f x) () (p ++ [w x])) :
    Stores s p (l.forM f) () (p ++ l.map w) := by
  induction l generalizing p with
  | nil => rw [List.map_nil, List.append_nil]; exact .pure _
  | cons x l ih =>
    rw [List.map_cons, List.append_cons]
    exact .bind (h x List.mem_cons_self p) (ih fun y hy => h y (List.mem_cons_of_mem _ hy))

end

/-! ### A row counted -/

/-- A row of table `t` has been counted at engine `e`; of the rest only hot lists may differ. -/
structure RowCounted (u z : State) (e t rb : Nat) : Prop where
  eq : z = { u with gth := z.gth }
  gth : z.gth = { u.gth with engs := z.gth.engs, loads := z.gth.loads }
  ops (k : Nat) : (getGe z k).ops = (getGe u k).ops
  rows : (getGe z e).rows = (getGe u e).rows + 1
  loads : tabGet 0 z.gth.loads t = tabGet 0 u.gth.loads t + BitVec.ofNat 64 rb

theorem rowCounted_countServed (u : State) (e t rb : Nat) (f : GthEng → GthEng) (hops : ∀ g, (f g).ops = g.ops)
    (hrows : ∀ g, (f g).rows = g.rows + 1) :
    RowCounted u (modGe (modGth u fun x => { x with loads := tabMod 0 x.loads t fun v => v + w64 rb }) e f) e t rb := by
  obtain ⟨v, hv⟩ : ∃ v, v = modGth u fun x => { x with loads := tabMod 0 x.loads t fun v => v + w64 rb } := ⟨_, rfl⟩
  have hge (k : Nat) : getGe v k = getGe u k := by rw [hv]; rfl
  rw [← hv]
  refine ⟨by rw [hv]; rfl, by rw [hv]; rfl, fun k => ?_, ?_, ?_⟩
  · by_cases hk : k = e
    · rw [hk, getGe_modGe, hops, hge]
    · rw [getGe_modGe_ne v f hk, hge]
  · rw [getGe_modGe, hrows, hge]
  · rw [hv]
    exact tabGet_tabMod_self 0 u.gth.loads t fun v => v + w64 rb

theorem countServed_counts (u : State) (e t rb : Nat) : RowCounted u (countServed u e t rb) e t rb :=
  rowCounted_countServed u e t rb (fun x => { x with rows := x.rows + 1 }) (fun _ => rfl) fun _ => rfl

theorem noted_counts (u : State) (e t rb : Nat) (h : HotEntry) :
    RowCounted u (countServed (modGe u e fun g => { g with hot := noteHot g.hot h }) e t rb) e t rb := by
  obtain ⟨v, hv⟩ : ∃ v, v = modGe u e fun g => { g with hot := noteHot g.hot h } := ⟨_, rfl⟩
  have hge : getGe v e = { getGe u e with hot := noteHot (getGe u e).hot h } := by rw [hv, getGe_modGe]
  have hne (k : Nat) (hk : k ≠ e) : getGe v k = getGe u k := by rw [hv, getGe_modGe_ne u _ hk]
  obtain ⟨heq, hgth, hops, hrows, hloads⟩ := countServed_counts v e t rb
  rw [← hv]
  refine ⟨by rw [heq, hv]; rfl, by rw [hgth, hv]; rfl, fun k => ?_, ?_, ?_⟩
  · rw [hops]
    by_cases hk : k = e
    · rw [hk, hge]
    · rw [hne k hk]
  · rw [hrows, hge]
  · rw [hloads, hv]
    rfl

/-! ### The work at a slot -/

section
variable {s : State} {p q : List (Nat × Bytes)} {w : Who} (hs : Claim.clean s) (ho : Claim.openTo s w) {x : TableDesc}
include hs ho

/-- The write of a hot row's state block. -/
def hitWrites (x : TableDesc) (slot : Nat) (b : Bytes) : List (Nat × Bytes) := if x.hot then [(slot + x.rb + 16, b)] else []

/-- A hit is counted, and the row as served. -/
theorem countHit_counts {e t i slot : Nat} {y : Served} (hin : slot + x.rb + 24 ≤ wheelBase) : ∃ f b, b.length = 8 ∧
    (∀ u, RowCounted u (f u) e t x.rb) ∧
    StoresThen s p (countHit w e t i slot x >>= fun _ => actMod (fun s => countServed s e t x.rb) >>= fun _ => pure y) y f
      (p ++ hitWrites x slot b) := by
  cases hhot : x.hot with
  | false =>
    refine ⟨fun u => countServed u e t x.rb, List.replicate 8 0, rfl, fun u => countServed_counts u e t x.rb, ?_⟩
    rw [hitWrites, countHit, hhot, if_neg Bool.false_ne_true, if_neg Bool.false_ne_true, List.append_nil]
    exact (StoresThen.pure ()).after fun u => rfl
  | true =>
    obtain ⟨old, hold⟩ : ∃ b, b = memRead (memDo s.mem.bytes p) (slot + x.rb + 16) 8 := ⟨_, rfl⟩
    obtain ⟨epoch, hepoch⟩ : ∃ n, n = s.gth.epoch.toNat % 2 ^ 32 := ⟨_, rfl⟩
    obtain ⟨hits, hhits⟩ : ∃ n, n = if fld old 4 4 = epoch then min (fld old 0 4 + 1) 0xFFFFFFFF else 1 := ⟨_, rfl⟩
    refine ⟨fun u => countServed (modGe u e fun g => { g with hot := noteHot g.hot { table := t, index := i, hits := BitVec.ofNat 32 hits } }) e t x.rb,
      toLe 4 hits ++ toLe 4 epoch, by simp, fun u => noted_counts u e t x.rb _, ?_⟩
    rw [hitWrites, countHit, hhot, if_pos rfl, if_pos rfl]
    have hgo : StoresThen s p (do
        let s ← get
        let epoch := s.gth.epoch.toNat % 2 ^ 32
        let old ← rd w (slot + x.rb + 16) 8
        let hits := if fld old 4 4 = epoch then min (fld old 0 4 + 1) 0xFFFFFFFF else 1
        wr w (slot + x.rb + 16) (toLe 4 hits ++ toLe 4 epoch)
        actMod fun s => modGe s e fun g => { g with hot := noteHot g.hot { table := t, index := i, hits := BitVec.ofNat 32 hits } }) ()
        (fun s => modGe s e fun g => { g with hot := noteHot g.hot { table := t, index := i, hits := BitVec.ofNat 32 hits } })
        (p ++ [(slot + x.rb + 16, toLe 4 hits ++ toLe 4 epoch)]) := by
      refine .get_bind fun u hu => ?_
      have hgth : u.gth.epoch.toNat % 2 ^ 32 = epoch := by rw [hu.eq, hepoch]
      dsimp only
      rw [hgth]
      refine .bind (.rd hs ho (by omega) hold.symm) ?_
      rw [← hhits]
      refine .bind (.wr hs ho (by simp; omega)) ?_
      exact .actMod _ _ _
    exact hgo.after fun u => rfl

/-- A row that is only read. -/
theorem serveSlot_reads {r : RowReq} {slot : Nat} (hu : r.update = none) (hin : slot + x.rb + 24 ≤ wheelBase) : ∃ f b, b.length = 8 ∧
    (∀ u, RowCounted u (f u) r.engine r.table x.rb) ∧
    StoresThen s [] (serveSlot w r x slot) (.done (memRead s.mem.bytes slot x.rb)) f (hitWrites x slot b) := by
  obtain ⟨f, b, hb, hf, hrun⟩ := countHit_counts hs ho (p := []) (e := r.engine) (t := r.table) (i := r.index)
    (y := .done (memRead s.mem.bytes slot x.rb)) hin
  refine ⟨f, b, hb, hf, ?_⟩
  rw [serveSlot, hu]
  exact .bind (.rdKept hs ho (by omega) (by simp [Misses])) hrun

/-- A row that is updated. -/
theorem serveSlot_updates {r : RowReq} {slot : Nat} {y : RowUpdate} (hu : r.update = some y) (hopt : x.opt ≠ 0) (hin : slot + x.rb + 24 ≤ wheelBase)
    (hwork : Stores s [] (updateRow w x slot y) () q) : ∃ f b, b.length = 8 ∧ (∀ u, RowCounted u (f u) r.engine r.table x.rb) ∧
    StoresThen s [] (serveSlot w r x slot) (.done []) f (q ++ hitWrites x slot b) := by
  obtain ⟨f, b, hb, hf, hrun⟩ := countHit_counts hs ho (p := q) (e := r.engine) (t := r.table) (i := r.index) (y := .done []) hin
  refine ⟨f, b, hb, hf, ?_⟩
  rw [serveSlot, hu]
  refine .bind (.stopIf (by simp [hopt])) ?_
  exact .bind hwork hrun

end

/-! ### Updates -/

/-- Word `i` of an update's optimizer fields. -/
def optWord (u : RowUpdate) (i : Nat) : BitVec 32 := BitVec.ofNat 32 (fld u.opt (4 * i) 4)

/-- Adam's new weights and moments. -/
def adamRow (x : TableDesc) (u : RowUpdate) (row st ms : Bytes) : List (BitVec 32 × BitVec 32 × BitVec 32) :=
  (List.range x.dim).map fun i => adamElem (optWord u 0) (optWord u 1) (optWord u 2) (optWord u 3)
    (adamCorrection (min (fld st 8 4 + 1) 0xFFFFFFFF) (optWord u 2)) (adamCorrection (min (fld st 8 4 + 1) 0xFFFFFFFF) (optWord u 3))
    ((rowVals x.rfmt x.dim row).getD i 0) (u.grad.getD i 0)
    (BitVec.ofNat 32 (fld ms (4 * i) 4)) (BitVec.ofNat 32 (fld ms (4 * x.dim + 4 * i) 4))

/-- The weights after an update. -/
def newRow (x : TableDesc) (u : RowUpdate) (row st ms : Bytes) : List (BitVec 32) :=
  if x.opt = 1 then sgdRow (optWord u 0) (rowVals x.rfmt x.dim row) u.grad
  else if x.opt = 2 then (adagradRow (optWord u 0) (optWord u 1) (BitVec.ofNat 32 (fld st 12 4)) x.dim (rowVals x.rfmt x.dim row) u.grad).2
  else (adamRow x u row st ms).map Prod.fst

theorem rowVals_length (rfmt dim : Nat) (row : Bytes) : (rowVals rfmt dim row).length = dim := by simp [rowVals]

theorem newRow_length (x : TableDesc) (u : RowUpdate) (row st ms : Bytes) :
    (newRow x u row st ms).length ≤ x.dim ∧ (u.grad.length = x.dim → (newRow x u row st ms).length = x.dim) := by
  have hvals := rowVals_length x.rfmt x.dim row
  rw [newRow]
  split
  · simp only [sgdRow, List.length_map, List.length_zip, hvals]
    omega
  · split
    · simp only [adagradRow, List.length_map, List.length_zip, hvals]
      omega
    · simp [adamRow]

theorem bytesOf_length (l : List (BitVec 32)) : (bytesOf l).length = 4 * l.length := by
  rw [bytesOf]
  induction l with
  | nil => rfl
  | cons v l ih =>
    rw [List.map_cons, List.flatten_cons, List.length_append, toLe_length, ih, List.length_cons]
    omega

/-- The bytes of a row's elements as they are written. -/
def rowBytes (x : TableDesc) (l : List (BitVec 32)) : Bytes :=
  packBytes (elemBits (fmtElem x.rfmt)) (l.map fun v => elemEnc (fmtElem x.rfmt) (f32Dec v))

/-- The elements of a row take no more than the row's bytes, but for a last one cut. -/
theorem rowBytes_length {x : TableDesc} {l : List (BitVec 32)} (h : l.length ≤ x.dim) :
    (rowBytes x l).length = ceilDiv (l.length * elemBits (fmtElem x.rfmt)) 8 ∧ (rowBytes x l).length ≤ x.rb + 1 ∧
    (x.rfmt ≤ 1 → (rowBytes x l).length ≤ x.rb) := by
  obtain ⟨z, hz⟩ : ∃ z, z = elemBits (fmtElem x.rfmt) := ⟨_, rfl⟩
  have hlen : (rowBytes x l).length = ceilDiv (l.length * z) 8 := by rw [rowBytes, packBytes_length, List.length_map, hz]
  have hrb : x.dim * z / 8 ≤ x.rb := by
    have hup := le_up64 (x.dim * z / 8 + if isMx (fmtElem x.rfmt) then x.dim / 32 else 0)
    rw [TableDesc.rb, ← hz]
    omega
  have hmul : l.length * z ≤ x.dim * z := Nat.mul_le_mul_right _ h
  rw [hlen, hz]
  refine ⟨rfl, ?_, fun hf => ?_⟩
  · rw [← hz, ceilDiv]
    omega
  · have hdiv : 8 ∣ z := by
      obtain hf | hf : x.rfmt = 0 ∨ x.rfmt = 1 := by omega
      all_goals
        rw [hz, hf]
        decide
    obtain ⟨k, rfl⟩ := hdiv
    rw [← hz, ceilDiv]
    have h1 : l.length * (8 * k) = 8 * (l.length * k) := by ring
    have h2 : x.dim * (8 * k) = 8 * (x.dim * k) := by ring
    rw [h1] at hmul ⊢
    rw [h2] at hmul hrb
    omega

section
variable {s : State} {w : Who} (hs : Claim.clean s) (ho : Claim.openTo s w) {x : TableDesc} {slot : Nat}
include hs ho

/-- An update writes the row, Adam's moments and the state block. -/
theorem updateRow_stores (u : RowUpdate) (hin : slot + x.rb + 64 + 8 * x.dim ≤ wheelBase) : ∃ st ms mid a b,
    Stores s [] (updateRow w x slot u) () ((slot, rowBytes x (newRow x u (memRead s.mem.bytes slot x.rb) st ms)) ::
      (mid ++ [(slot + x.rb, toLe 8 u.step ++ toLe 4 a ++ toLe 4 b)])) ∧
    ∀ v ∈ mid, v.1 = slot + x.rb + 64 ∧ v.2.length = 8 * x.dim := by
  obtain ⟨row, hrow⟩ : ∃ b, b = memRead s.mem.bytes slot x.rb := ⟨_, rfl⟩
  obtain ⟨st, hst⟩ : ∃ b, b = memRead s.mem.bytes (slot + x.rb) 64 := ⟨_, rfl⟩
  obtain ⟨ms, hms⟩ : ∃ b, b = memRead s.mem.bytes (slot + x.rb + 64) (8 * x.dim) := ⟨_, rfl⟩
  obtain ⟨a, ha⟩ : ∃ a, a = if x.opt = 3 then min (fld st 8 4 + 1) 0xFFFFFFFF else fld st 8 4 := ⟨_, rfl⟩
  obtain ⟨b, hb⟩ : ∃ b, b = if x.opt = 2 then
    (adagradRow (optWord u 0) (optWord u 1) (BitVec.ofNat 32 (fld st 12 4)) x.dim (rowVals x.rfmt x.dim row) u.grad).1.toNat else fld st 12 4 := ⟨_, rfl⟩
  have hrowRead : Stores s [] (rd w slot x.rb) row [] := hrow ▸ .rdKept hs ho (by omega) (by simp [Misses])
  have hstRead : Stores s [] (rd w (slot + x.rb) 64) st [] := hst ▸ .rdKept hs ho (by omega) (by simp [Misses])
  have hmsRead : Stores s [] (rd w (slot + x.rb + 64) (8 * x.dim)) ms [] := hms ▸ .rdKept hs ho (by omega) (by simp [Misses])
  have hstate (p : List (Nat × Bytes)) : Stores s p (wr w (slot + x.rb) (toLe 8 u.step ++
      toLe 4 (if x.opt = 3 then min (fld st 8 4 + 1) 0xFFFFFFFF else fld st 8 4) ++
      toLe 4 (if x.opt = 2 then (adagradRow (optWord u 0) (optWord u 1) (BitVec.ofNat 32 (fld st 12 4)) x.dim (rowVals x.rfmt x.dim row) u.grad).1.toNat
        else fld st 12 4))) () (p ++ [(slot + x.rb, toLe 8 u.step ++ toLe 4 a ++ toLe 4 b)]) := by
    rw [← ha, ← hb]
    exact .wr hs ho (by simp; omega)
  have hsize (ms' : Bytes) := (rowBytes_length (newRow_length x u row st ms').1).2.1
  rw [← hrow]
  by_cases hopt : x.opt = 3
  · obtain ⟨moments, hmoments⟩ : ∃ m, m = bytesOf ((adamRow x u row st ms).map (·.2.1)) ++ bytesOf ((adamRow x u row st ms).map (·.2.2)) := ⟨_, rfl⟩
    have hlen : moments.length = 8 * x.dim := by
      rw [hmoments, List.length_append, bytesOf_length, bytesOf_length, List.length_map, List.length_map, adamRow, List.length_map, List.length_range]
      omega
    refine ⟨st, ms, [(slot + x.rb + 64, moments)], a, b, ?_, by simp [hlen]⟩
    refine .bind hrowRead (.bind hstRead ?_)
    dsimp only
    rw [if_pos hopt]
    refine .bind hmsRead ?_
    refine .bind (.wr hs ho (b := rowBytes x (newRow x u row st ms)) ?_) ?_
    · have := hsize ms
      omega
    have hlist (r c : Nat × Bytes) : r :: ([(slot + x.rb + 64, moments)] ++ [c]) = ([r] ++ [(slot + x.rb + 64, moments)]) ++ [c] := rfl
    rw [if_pos hopt, hlist]
    have hmid : Stores s [(slot, rowBytes x (newRow x u row st ms))] (wr w (slot + x.rb + 64) moments) ()
        ([(slot, rowBytes x (newRow x u row st ms))] ++ [(slot + x.rb + 64, moments)]) := .wr hs ho (by omega)
    rw [hmoments] at hmid ⊢
    exact hmid.bind (hstate _)
  · refine ⟨st, [], [], a, b, ?_, by simp⟩
    refine .bind hrowRead (.bind hstRead ?_)
    dsimp only
    rw [if_neg hopt]
    refine .bind (.pure []) ?_
    refine .bind (.wr hs ho (b := rowBytes x (newRow x u row st [])) ?_) ?_
    · have := hsize []
      omega
    rw [if_neg hopt]
    exact hstate [(slot, rowBytes x (newRow x u row st []))]

end

/-! ### A request's turn -/

/-- A request's row is served where it lies. -/
theorem serveWork_at {s : State} {r : RowReq} {x : TableDesc} {at_ : Nat} {y : Served} {f : State → State} {q : List (Nat × Bytes)}
    (hs : Claim.clean s) (ho : Claim.openTo s (whoGather r.engine r.ctx)) (hrow : Claim.rowAt s x r at_)
    (h : StoresThen s [] (serveSlot (whoGather r.engine r.ctx) r x at_) y f q) : StoresThen s [] (serveWork r x) y f q := by
  obtain ⟨n, hn, hlt, rfl⟩ | ⟨hn, hi, hmod, hslots, hin, hst, rfl⟩ := hrow
  · rw [serveWork, hn]
    exact .bind (.stopIf (by simpa using hlt)) h
  · have hfind := findRedirect_stores (p := []) (i := r.index) hs ho hslots rfl hin (by simp [Misses]) rfl (.inl hst)
    rw [if_pos hst] at hfind
    rw [serveWork, hn]
    exact .bind (.stopIf (by simp [hi, hmod])) (.bind hfind h)

/-- Request `rid` has been served at engine `e`, after the writes `q`, and not yet answered. -/
structure RowServed (s z : State) (e rid t rb : Nat) (q : List (Nat × Bytes)) : Prop where
  mem : z.mem = { s.mem with bytes := memDo s.mem.bytes q, gran := z.mem.gran }
  calm (h : q = []) : z.mem = s.mem
  prt : SamePrt s.prt z.prt
  fry : z.fry = s.fry
  gone : tabFind z.gth.reqs rid = none
  tables : z.gth.tables = s.gth.tables
  ops (k : Nat) : (getGe z k).ops = (getGe s k).ops
  rows : (getGe z e).rows = (getGe s e).rows + 1
  loads : tabGet 0 z.gth.loads t = tabGet 0 s.gth.loads t + BitVec.ofNat 64 rb

/-- A request that may be served takes its context's turn. -/
theorem serveRow_turn {s : State} {e rid : Nat} {r : RowReq} (h : Claim.servable s e rid r) : ∃ u, Turned s u (gatherEng e) 0 ∧
    exec (if r.update.isSome then .rowUpdateApply e rid else .rowRequestServe e rid) s = .next (pumpAll (serveNow u rid r) e) := by
  obtain ⟨-, -, hreq, hengine, hheld, hfirst, hturn⟩ := h
  obtain ⟨u, hu, ht⟩ := takeTurn_of hturn
  have hserve : serveRow s e rid r.update.isSome = pumpAll (serveNow u rid r) e := by
    rw [serveRow, hreq]
    dsimp only
    rw [if_neg (by simp [hengine, hheld, hfirst]), hu]
  refine ⟨u, ht, ?_⟩
  rw [← hserve]
  cases r.update <;> rfl

/-- A row whose work ends well is counted, its request taken away and answered. -/
theorem serveNow_done {s u : State} {rid w : Nat} {r : RowReq} {x : GthTable} {at_ : Nat} {out : Bytes} {f : State → State} {q : List (Nat × Bytes)}
    (ht : Turned s u (gatherEng r.engine) w) (hx : getTable s r.table = some x) (hrow : Claim.rowAt s x.desc r at_) (hs : Claim.clean s)
    (ho : Claim.openTo s (whoGather r.engine r.ctx)) (hf : ∀ v, RowCounted v (f v) r.engine r.table x.desc.rb)
    (h : StoresThen u [] (serveSlot (whoGather r.engine r.ctx) r x.desc at_) (.done out) f q) :
    ∃ z, RowServed s z r.engine rid r.table x.desc.rb q ∧ serveNow u rid r = answerRow z r .ok out := by
  have hmem : u.mem = s.mem := by rw [ht.eq]
  have hprt : u.prt = s.prt := by rw [ht.eq]
  have hgth : u.gth = s.gth := by rw [ht.eq]
  have hfry : u.fry = s.fry := by rw [ht.eq]
  have hrow' : Claim.rowAt u x.desc r at_ := by rw [Claim.rowAt, hmem]; exact hrow
  obtain ⟨v, hv, hw⟩ := (serveWork_at (clean_of_mem hs hmem) (openTo_of_samePrt (by rw [hprt]; exact .refl _) ho) hrow' h).run
  obtain ⟨heq, hcounts, hops, hrows, hloads⟩ := hf v
  have hvgth : v.gth = s.gth := by rw [hw.eq]; exact hgth
  have hge (k : Nat) : getGe v k = getGe s k := by rw [getGe, hvgth, ← getGe]
  obtain ⟨z, hz⟩ : ∃ z, z = modGth (f v) fun x => { x with reqs := tabDel x.reqs rid } := ⟨_, rfl⟩
  have hzmem : z.mem = v.mem := by rw [hz]; show (f v).mem = _; rw [heq]
  have hzprt : z.prt = v.prt := by rw [hz]; show (f v).prt = _; rw [heq]
  have hzfry : z.fry = v.fry := by rw [hz]; show (f v).fry = _; rw [heq]
  have hzge (k : Nat) : getGe z k = getGe (f v) k := by rw [hz]; rfl
  refine ⟨z, ⟨?_, fun hq => ?_, ?_, ?_, ?_, ?_, fun k => ?_, ?_, ?_⟩, ?_⟩
  · rw [hzmem, hw.eq, hmem]
  · rw [hzmem, hw.calm hq, hmem]
  · rw [hzprt, ← hprt]
    exact hw.prt
  · rw [hzfry, ← hfry, hw.eq]
  · rw [hz]
    show tabFind (tabDel (f v).gth.reqs rid) rid = none
    rw [tabFind_tabDel, if_pos rfl]
  · rw [hz]
    show (f v).gth.tables = _
    rw [hcounts, hvgth]
  · rw [hzge, hops, hge]
  · rw [hzge, hrows, hge]
  · rw [hz]
    show tabGet 0 (f v).gth.loads r.table = _
    rw [hloads, hvgth]
  · have hx' : getTable u r.table = some x := by rw [getTable, hgth]; exact hx
    rw [serveNow, hx']
    dsimp only
    rw [hv]
    dsimp only
    rw [hz]

/-! ### Answers -/

theorem answerPort_of_fry {s z v : State} (h : z.fry = s.fry) {r : RowReq} {m p : Nat} (hp : answerPort s r m = some (p, v)) :
    ∃ u, answerPort z r m = some (p, u) := by
  rw [answerPort] at hp ⊢
  cases hvia : r.via with
  | none =>
    rw [hvia] at hp
    obtain ⟨u, hu, -⟩ := choosePort_of_fry (s := s) (t := z) h hp
    exact ⟨u, hu⟩
  | some k =>
    rw [hvia] at hp
    dsimp only at hp ⊢
    split at hp
    next hk =>
      obtain ⟨rfl, -⟩ := Prod.mk.inj (Option.some.inj hp)
      exact ⟨z, if_pos hk⟩
    next hk =>
      obtain ⟨u, hu, -⟩ := choosePort_of_fry (s := s) (t := z) h hp
      exact ⟨u, (if_neg hk).trans hu⟩

/-- The port of an answer is found without a change but of the port last chosen. -/
theorem answerPort_paths {z v : State} {r : RowReq} {m p : Nat} (hp : answerPort z r m = some (p, v)) :
    v.fry.paths = z.fry.paths ∧ ownModule v = ownModule z ∧ v.mem = z.mem ∧ v.gth = z.gth := by
  have hchoose (h : choosePort z m = some (p, v)) : v.fry.paths = z.fry.paths ∧ ownModule v = ownModule z ∧ v.mem = z.mem ∧ v.gth = z.gth := by
    rw [choosePort_fry h]
    exact ⟨rfl, rfl, rfl, rfl⟩
  rw [answerPort] at hp
  cases hvia : r.via with
  | none => rw [hvia] at hp; exact hchoose hp
  | some k =>
    rw [hvia] at hp
    dsimp only at hp
    split at hp
    · obtain ⟨-, rfl⟩ := Prod.mk.inj (Option.some.inj hp)
      exact ⟨rfl, rfl, rfl, rfl⟩
    · exact hchoose hp

/-- A row of at most 8,192 bytes goes in one frame. -/
theorem queueRow_one (s : State) (p m ctx : Nat) (tag : BitVec 32) (index requester arg : Nat) {b : Bytes} (h : 0 < b.length)
    (hlen : b.length ≤ 8192) : queueRow s p m ctx tag index requester arg b =
      queueFrame s p m { op := 0x0B, vc := if bits arg 9 8 % 2 = 1 then 2 else 6, ctx := ctx, tag := tag, addr := index, offset := requester,
                         arg := arg, payload := b, last := true } := by
  have hb : b ≠ [] := List.ne_nil_of_length_pos h
  have hpay : payloads (b.length / 8192 + 1) 0 b = [(0, b)] := by
    rw [payloads, if_neg hb, List.take_of_length_le hlen, List.drop_of_length_le hlen]
    cases b.length / 8192 <;> rfl
  rw [queueRow, if_neg hb, hpay]
  rfl

/-- An answer that goes to a module, or to no command here, changes nothing but what leaves. -/
theorem answerRow_leaves {z : State} {r : RowReq} (h : ∀ f d u, r.source = .engine f d u → tabFind (getGe z f).ops d = none) (st : Status)
    (row : Bytes) : Fr 264 z (answerRow z r st row) := by
  cases hsrc : r.source with
  | engine f d u =>
    rw [answerRow, hsrc]
    dsimp only
    rw [rowDone, h f d u hsrc]
    exact Fr.refl _ _
  | peer m tag =>
    rw [answerRow, hsrc]
    dsimp only
    split
    · exact Fr.refl _ _
    next p v hp =>
      have hv : Fr 264 z v := answerPort_fr hp (by decide) (Fr.refl _ _)
      split
      · exact queueRow_fr (by decide) (chargeFerry_fr (by decide) hv)
      · exact queueFrame_fr (by decide) hv

/-! ### A request served -/

section
variable {s : State} {e rid : Nat} {r : RowReq} (h : Claim.servable s e rid r)
include h

/-- A request for a table that is not attached is answered DISABLED. -/
theorem unknown_answered (hx : getTable s r.table = none) (hops : (getGe s e).ops = []) {m p : Nat} {tag : BitVec 32} {v : State}
    (hsrc : r.source = .peer m tag) (hp : answerPort s r m = some (p, v)) :
    Does (if r.update.isSome then .rowUpdateApply e rid else .rowRequestServe e rid) s fun t =>
      tabFind t.gth.reqs rid = none ∧ t.mem = s.mem ∧ (getPath t p m).sendq = (getPath s p m).sendq ++
        [{ op := 0x0A, vc := 2, ctx := r.ctx, tag := tag, arg := 0x11 }] := by
  obtain ⟨u, ht, hexec⟩ := serveRow_turn h
  obtain ⟨z, hz⟩ : ∃ z, z = modGth u fun x => { x with reqs := tabDel x.reqs rid } := ⟨_, rfl⟩
  have hzfry : z.fry = s.fry := by rw [hz, ht.eq]; rfl
  obtain ⟨v', hp'⟩ := answerPort_of_fry (z := z) hzfry hp
  obtain ⟨hpaths, -, hmem, hgth⟩ := answerPort_paths hp'
  obtain ⟨t, hteq⟩ : ∃ t, t = queueFrame v' p m { op := 0x0A, vc := 2, ctx := r.ctx, tag := tag, arg := 0x11 } := ⟨_, rfl⟩
  have hnow : serveNow u rid r = t := by
    have hux : getTable u r.table = none := by rw [← hx, ht.eq]; rfl
    rw [serveNow, hux]
    dsimp only
    rw [← hz, answerRow, hsrc]
    dsimp only
    rw [hp', hteq]
    rfl
  have htgth : t.gth = z.gth := by rw [hteq, ← hgth]; rfl
  have hidle : (getGe t e).ops = [] := by rw [← hops, getGe, htgth, hz, ht.eq]; rfl
  rw [hnow, pumpAll_idle hidle] at hexec
  refine does_of hexec ⟨?_, ?_, ?_⟩
  · rw [htgth, hz]
    show tabFind (tabDel u.gth.reqs rid) rid = none
    rw [tabFind_tabDel, if_pos rfl]
  · have htmem : t.mem = v'.mem := by rw [hteq]; rfl
    rw [htmem, hmem, hz, ht.eq]
    rfl
  · have hpath : getPath v' p m = getPath s p m := by rw [getPath, hpaths, hzfry, ← getPath]
    rw [hteq, getPath_queueFrame, hpath]

/-- A row is served, counted and answered; where its engine has nothing under way, that is all. -/
theorem serve_answers {x : GthTable} {at_ : Nat} {out : Bytes} {Q : List (Nat × Bytes) → Prop} (hx : getTable s r.table = some x)
    (hrow : Claim.rowAt s x.desc r at_) (hs : Claim.clean s) (ho : Claim.openTo s (whoGather e r.ctx))
    (hwork : ∀ u, u.mem = s.mem → Claim.clean u → Claim.openTo u (whoGather e r.ctx) → ∃ f q, Q q ∧
      (∀ v, RowCounted v (f v) r.engine r.table x.desc.rb) ∧
      StoresThen u [] (serveSlot (whoGather e r.ctx) r x.desc at_) (.done out) f q) :
    ∃ z q, Q q ∧ RowServed s z e rid r.table x.desc.rb q ∧
      exec (if r.update.isSome then .rowUpdateApply e rid else .rowRequestServe e rid) s = .next (pumpAll (answerRow z r .ok out) e) := by
  obtain ⟨u, ht, hexec⟩ := serveRow_turn h
  obtain ⟨-, -, -, rfl, -⟩ := h
  have hmem : u.mem = s.mem := by rw [ht.eq]
  have hprt : u.prt = s.prt := by rw [ht.eq]
  obtain ⟨f, q, hQ, hf, hrun⟩ := hwork u hmem (clean_of_mem hs hmem) (openTo_of_samePrt (by rw [hprt]; exact .refl _) ho)
  obtain ⟨z, hz, hnow⟩ := serveNow_done ht hx hrow hs ho hf hrun
  rw [hnow] at hexec
  exact ⟨z, q, hQ, hz, hexec⟩

end

/-! ### What an update leaves in memory -/

theorem mem_hitWrites {x : TableDesc} {slot : Nat} {b : Bytes} {v : Nat × Bytes} (h : v ∈ hitWrites x slot b) : v = (slot + x.rb + 16, b) := by
  rw [hitWrites] at h
  split at h
  · simpa using h
  · exact absurd h List.not_mem_nil

section
variable {x : TableDesc} {slot step a c : Nat} {l : List (BitVec 32)} {b : Bytes} {mid : List (Nat × Bytes)} (hf : x.rfmt ≤ 1)
  (hl : l.length = x.dim) (hb : b.length = 8) (hmid : ∀ v ∈ mid, v.1 = slot + x.rb + 64 ∧ v.2.length = 8 * x.dim)

/-- The writes of an update, and of the hit it counts as. -/
def updateWrites (x : TableDesc) (slot step a c : Nat) (l : List (BitVec 32)) (b : Bytes) (mid : List (Nat × Bytes)) : List (Nat × Bytes) :=
  (slot, rowBytes x l) :: (mid ++ [(slot + x.rb, toLe 8 step ++ toLe 4 a ++ toLe 4 c)]) ++ hitWrites x slot b

theorem updateWrites_split : updateWrites x slot step a c l b mid =
    ((slot, rowBytes x l) :: mid) ++ (slot + x.rb, toLe 8 step ++ toLe 4 a ++ toLe 4 c) :: hitWrites x slot b := by
  simp [updateWrites]

theorem memRead_updateStep (m : List Host.Cell) : leNat (memRead (memDo m (updateWrites x slot step a c l b mid)) (slot + x.rb) 8) = step % 2 ^ 64 := by
  have hmiss : Misses (hitWrites x slot b) (slot + x.rb) 16 := by
    intro v hv
    rw [mem_hitWrites hv]
    omega
  have hread := memRead_memDo_wrote (m := m) ((slot, rowBytes x l) :: mid) (a := slot + x.rb) (b := toLe 8 step ++ toLe 4 a ++ toLe 4 c) (n := 16)
    (by simp) hmiss
  have hwhole := fld_memRead (memDo m (updateWrites x slot step a c l b mid)) (slot + x.rb) 16 0 8 (by decide)
  rw [Nat.add_zero] at hwhole
  rw [← hwhole, updateWrites_split, hread]
  simp (disch := simp) only [List.append_assoc, fld_append_left, fld_toLe, Nat.reducePow]

include hf hl hmid in
theorem memRead_updateRow (m : List Host.Cell) : memRead (memDo m (updateWrites x slot step a c l b mid)) slot
    (ceilDiv (x.dim * elemBits (fmtElem x.rfmt)) 8) = rowBytes x l := by
  obtain ⟨hlen, -, hle⟩ := rowBytes_length (x := x) (l := l) (by omega)
  rw [hl] at hlen
  have hle := hle hf
  refine memRead_memDo_at 0 rfl hlen fun v hv => ?_
  simp only [updateWrites, List.cons_append, List.drop_succ_cons, List.drop_zero, List.append_assoc, List.mem_append, List.mem_cons,
    List.nil_append] at hv
  obtain hv | rfl | hv := hv
  · obtain ⟨h1, -⟩ := hmid v hv
    omega
  · exact .inl (by omega)
  · rw [mem_hitWrites hv]
    exact .inl (by omega)

include hf hl hb hmid in
theorem memGet_updateWrites (m : List Host.Cell) {k : Nat} (hk : k < slot ∨ slot + x.rb + 64 + 8 * x.dim ≤ k) :
    memGet (memDo m (updateWrites x slot step a c l b mid)) k = memGet m k := by
  obtain ⟨-, -, hle⟩ := rowBytes_length (x := x) (l := l) (by omega)
  have hle := hle hf
  refine memGet_memDo_misses fun v hv => ?_
  simp only [updateWrites, List.cons_append, List.append_assoc, List.mem_append, List.mem_cons, List.nil_append] at hv
  obtain rfl | hv | rfl | hv := hv
  · dsimp only
    omega
  · obtain ⟨h1, h2⟩ := hmid v hv
    omega
  · simp only [List.length_append, toLe_length]
    omega
  · rw [mem_hitWrites hv]
    dsimp only
    omega

end

/-! ### A request served and answered -/

section
variable {s : State} {e rid : Nat} {r : RowReq} (h : Claim.servable s e rid r) {x : GthTable} {at_ : Nat} (hx : getTable s r.table = some x)
  (hrow : Claim.rowAt s x.desc r at_) (hs : Claim.clean s) (ho : Claim.openTo s (whoGather e r.ctx))
  (hin : at_ + x.desc.rb + 64 + 8 * x.desc.dim ≤ wheelBase)
include h hx hrow hs ho hin

/-- A row asked for is read and counted, and answered with its bytes. -/
theorem serve_reads (hu : r.update = none) : ∃ z b, b.length = 8 ∧
    RowServed s z e rid r.table x.desc.rb (hitWrites x.desc at_ b) ∧
    exec (if r.update.isSome then .rowUpdateApply e rid else .rowRequestServe e rid) s =
      .next (pumpAll (answerRow z r .ok (memRead s.mem.bytes at_ x.desc.rb)) e) := by
  obtain ⟨z, q, ⟨b, hb, rfl⟩, hz, hexec⟩ := serve_answers h (out := memRead s.mem.bytes at_ x.desc.rb)
    (Q := fun q => ∃ b, b.length = 8 ∧ q = hitWrites x.desc at_ b) hx hrow hs ho fun u hmem hs' ho' => by
      obtain ⟨f, b, hb, hf, hrun⟩ := serveSlot_reads hs' ho' (x := x.desc) (slot := at_) hu (by omega)
      rw [hmem] at hrun
      exact ⟨f, _, ⟨b, hb, rfl⟩, hf, hrun⟩
  exact ⟨z, b, hb, hz, hexec⟩

/-- A row that is updated is written and counted, and the update answered. -/
theorem serve_updates {y : RowUpdate} (hu : r.update = some y) (hopt : x.desc.opt ≠ 0) : ∃ z st ms mid a c b, b.length = 8 ∧
    (∀ v ∈ mid, v.1 = at_ + x.desc.rb + 64 ∧ v.2.length = 8 * x.desc.dim) ∧
    RowServed s z e rid r.table x.desc.rb (updateWrites x.desc at_ y.step a c (newRow x.desc y (memRead s.mem.bytes at_ x.desc.rb) st ms) b mid) ∧
    exec (if r.update.isSome then .rowUpdateApply e rid else .rowRequestServe e rid) s = .next (pumpAll (answerRow z r .ok []) e) := by
  obtain ⟨z, q, ⟨st, ms, mid, a, c, b, hb, hmid, rfl⟩, hz, hexec⟩ := serve_answers h (out := [])
    (Q := fun q => ∃ st ms mid a c b, b.length = 8 ∧ (∀ v ∈ mid, v.1 = at_ + x.desc.rb + 64 ∧ v.2.length = 8 * x.desc.dim) ∧
      q = updateWrites x.desc at_ y.step a c (newRow x.desc y (memRead s.mem.bytes at_ x.desc.rb) st ms) b mid) hx hrow hs ho fun u hmem hs' ho' => by
      obtain ⟨st, ms, mid, a, c, hwork, hmid⟩ := updateRow_stores hs' ho' (x := x.desc) (slot := at_) y hin
      obtain ⟨f, b, hb, hf, hrun⟩ := serveSlot_updates hs' ho' hu hopt (by omega) hwork
      rw [hmem] at hrun
      exact ⟨f, _, ⟨st, ms, mid, a, c, b, hb, hmid, rfl⟩, hf, hrun⟩
  exact ⟨z, st, ms, mid, a, c, b, hb, hmid, hz, hexec⟩

omit h hx hrow hs ho hin in
/-- Where the engine has nothing under way, the answer of a served request is all that is left. -/
theorem answer_ends {z : State} {q : List (Nat × Bytes)} {rb : Nat} {out : Bytes} (hz : RowServed s z e rid r.table rb q)
    (hops : (getGe s e).ops = []) (hsrc : ∀ f d u, r.source = .engine f d u → tabFind (getGe s f).ops d = none) :
    pumpAll (answerRow z r .ok out) e = answerRow z r .ok out ∧ (answerRow z r .ok out).gth = z.gth ∧ (answerRow z r .ok out).mem = z.mem := by
  have hleaves := answerRow_leaves (z := z) (r := r) (fun f d u hsrc' => by rw [hz.ops]; exact hsrc f d u hsrc') .ok out
  have hgth : (answerRow z r .ok out).gth = z.gth := hleaves.same .gth rfl
  refine ⟨pumpAll_idle ?_, hgth, hleaves.same .mem rfl⟩
  rw [getGe, hgth, ← getGe, hz.ops, hops]

omit h hx hrow hs ho hin in
/-- A row goes in one frame to the module that asked. -/
theorem answerRow_sends {z : State} {q : List (Nat × Bytes)} {rb : Nat} (hz : RowServed s z e rid r.table rb q) (hu : r.update = none)
    {row : Bytes} (hpos : 0 < row.length) (hlen : row.length ≤ 8192) {m p : Nat} {tag : BitVec 32} {v : State} (hsrc : r.source = .peer m tag)
    (hp : answerPort s r m = some (p, v)) : (getPath (answerRow z r .ok row) p m).sendq = (getPath s p m).sendq ++
      [{ op := 0x0B, vc := if bits (r.table + 256) 9 8 % 2 = 1 then 2 else 6, ctx := r.ctx, tag := tag, addr := r.index,
         offset := ownModule s, arg := r.table + 256, last := true, payload := row }] := by
  obtain ⟨v', hp'⟩ := answerPort_of_fry (z := z) hz.fry hp
  obtain ⟨hpaths, hown, -, -⟩ := answerPort_paths hp'
  obtain ⟨w, hw⟩ : ∃ w, w = chargeFerry v' r.ctx row.length := ⟨_, rfl⟩
  have hwfry : w.fry = v'.fry := by
    rw [hw]
    exact (chargeFerry_fr (mk := 8) (by decide) (Fr.refl _ _) : Fr 8 v' (chargeFerry v' r.ctx row.length)).same .fry rfl
  have hpath : getPath w p m = getPath s p m := by rw [getPath, hwfry, hpaths, hz.fry, ← getPath]
  have hmodule : ownModule v' = ownModule s := by rw [hown, ownModule, hz.fry, ← ownModule]
  have hgo : answerRow z r .ok row = queueRow w p m r.ctx tag r.index (ownModule v') (r.table + 256) row := by
    rw [answerRow, hsrc]
    dsimp only
    rw [hp', hw, hu]
    rfl
  rw [hgo, queueRow_one _ _ _ _ _ _ _ _ hpos hlen, getPath_queueFrame, hpath, hmodule]

/-- What a served request leaves where its answer goes to a module, or to no command here. -/
theorem row_served (hops : (getGe s e).ops = []) (hopt : r.update.isSome = true → x.desc.opt ≠ 0)
    (hsrc : ∀ f d u, r.source = .engine f d u → tabFind (getGe s f).ops d = none) :
    let row := memRead s.mem.bytes at_ x.desc.rb
    Does (if r.update.isSome then .rowUpdateApply e rid else .rowRequestServe e rid) s fun t =>
      tabFind t.gth.reqs rid = none ∧ (getGe t e).rows = (getGe s e).rows + 1 ∧
      tabGet 0 t.gth.loads r.table = tabGet 0 s.gth.loads r.table + BitVec.ofNat 64 x.desc.rb ∧
      (r.update = none → x.desc.hot = false → t.mem = s.mem) ∧
      (r.update = none → ∀ a, a < at_ + x.desc.rb + 16 ∨ at_ + x.desc.rb + 24 ≤ a →
        memGet t.mem.bytes a = memGet s.mem.bytes a) ∧
      (r.update = none → ∀ m tag p u, r.source = .peer m tag → answerPort s r m = some (p, u) → 0 < x.desc.rb →
        x.desc.rb ≤ 8192 → (getPath t p m).sendq = (getPath s p m).sendq ++
          [{ op := 0x0B, vc := if bits (r.table + 256) 9 8 % 2 = 1 then 2 else 6, ctx := r.ctx, tag := tag, addr := r.index,
             offset := ownModule s, arg := r.table + 256, last := true, payload := row }]) ∧
      ∀ y, r.update = some y → x.desc.rfmt ≤ 1 → y.grad.length = x.desc.dim →
        leNat (memRead t.mem.bytes (at_ + x.desc.rb) 8) = y.step % 2 ^ 64 ∧
        (x.desc.opt = 1 → let z := elemBits (fmtElem x.desc.rfmt)
          memRead t.mem.bytes at_ (ceilDiv (x.desc.dim * z) 8) = packBytes z
            ((sgdRow (BitVec.ofNat 32 (fld y.opt 0 4)) (rowVals x.desc.rfmt x.desc.dim row) y.grad).map
              fun v => elemEnc (fmtElem x.desc.rfmt) (f32Dec v))) ∧
        ∀ a, a < at_ ∨ at_ + x.desc.rb + 64 + 8 * x.desc.dim ≤ a → memGet t.mem.bytes a = memGet s.mem.bytes a := by
  intro row
  cases hu : r.update with
  | none =>
    obtain ⟨z, b, hb, hz, hexec⟩ := serve_reads h hx hrow hs ho hin hu
    obtain ⟨hend, hgth, hmem⟩ := answer_ends (out := row) hz hops hsrc
    have hge (k : Nat) : getGe (answerRow z r .ok row) k = getGe z k := by rw [getGe, hgth, ← getGe]
    rw [hu, hend] at hexec
    refine does_of hexec ⟨by rw [hgth]; exact hz.gone, by rw [hge]; exact hz.rows, by rw [hgth]; exact hz.loads, fun _ hhot => ?_, fun _ a ha => ?_,
      fun _ m tag p u hpeer hp hpos hle => ?_, fun y hy => absurd hy (by simp)⟩
    · rw [hmem, hz.calm (by rw [hitWrites, hhot]; rfl)]
    · rw [hmem, hz.mem]
      refine memGet_memDo_misses fun v hv => ?_
      rw [mem_hitWrites hv]
      dsimp only
      omega
    · exact answerRow_sends hz hu (by rw [memRead_length]; exact hpos) (by rw [memRead_length]; exact hle) hpeer hp
  | some y =>
    obtain ⟨z, st, ms, mid, a, c, b, hb, hmid, hz, hexec⟩ := serve_updates h hx hrow hs ho hin hu (hopt (by rw [hu]; rfl))
    obtain ⟨hend, hgth, hmem⟩ := answer_ends (out := []) hz hops hsrc
    have hge (k : Nat) : getGe (answerRow z r .ok []) k = getGe z k := by rw [getGe, hgth, ← getGe]
    rw [hu, hend] at hexec
    refine does_of hexec ⟨by rw [hgth]; exact hz.gone, by rw [hge]; exact hz.rows, by rw [hgth]; exact hz.loads, fun hn => absurd hn (by simp),
      fun hn => absurd hn (by simp), fun hn => absurd hn (by simp), fun y' hy hf hgrad => ?_⟩
    obtain rfl := Option.some.inj hy
    obtain ⟨-, hlen⟩ := newRow_length x.desc y (memRead s.mem.bytes at_ x.desc.rb) st ms
    have hbytes : (answerRow z r .ok []).mem.bytes = memDo s.mem.bytes
        (updateWrites x.desc at_ y.step a c (newRow x.desc y (memRead s.mem.bytes at_ x.desc.rb) st ms) b mid) := by rw [hmem, hz.mem]
    refine ⟨?_, fun hone => ?_, fun k hk => ?_⟩
    · rw [hbytes, memRead_updateStep]
    · dsimp only
      rw [hbytes, memRead_updateRow hf (hlen hgrad) hmid, newRow, if_pos hone]
      rfl
    · rw [hbytes, memGet_updateWrites hf (hlen hgrad) hb hmid _ hk]

end

/-! ### A row for a GATHER of this module -/

/-- The bytes that 64 elements of a row take. -/
def chunkSize (f : Nat) : Nat := 8 * elemBits (fmtElem f)

/-- The writes of a row into a row buffer of its own format. -/
def tableRowWrites (base u : Nat) (x : TableDesc) (row : Bytes) : List (Nat × Bytes) :=
  (List.range (x.dim / 64)).map fun t =>
    (imageAt base (isz x.rfmt) x.dim u (64 * t) + u % 64 * chunkSize x.rfmt, (row.drop (t * chunkSize x.rfmt)).take (chunkSize x.rfmt))

section
variable {x : TableDesc} {base u : Nat} (hdim : x.dim % 64 = 0)
include hdim

/-- The part of an image that a row's write takes, and where the next image begins. -/
theorem chunk_within {t : Nat} (ht : t < x.dim / 64) :
    base ≤ imageAt base (isz x.rfmt) x.dim u (64 * t) + u % 64 * chunkSize x.rfmt ∧
    imageAt base (isz x.rfmt) x.dim u (64 * t) + u % 64 * chunkSize x.rfmt + chunkSize x.rfmt ≤ base + (u / 64 + 1) * (x.dim / 64) * isz x.rfmt ∧
    ∀ j, t < j → imageAt base (isz x.rfmt) x.dim u (64 * t) + u % 64 * chunkSize x.rfmt + chunkSize x.rfmt ≤
      imageAt base (isz x.rfmt) x.dim u (64 * j) + u % 64 * chunkSize x.rfmt := by
  have hceil : ceilDiv x.dim 64 = x.dim / 64 := by rw [ceilDiv]; omega
  obtain ⟨hlo, hhi⟩ := imageAt_within base (isz x.rfmt) (cols := x.dim) (r := u) (c := 64 * t) (g := u / 64 + 1) (by omega) (by omega)
  have hsize : 64 * chunkSize x.rfmt ≤ isz x.rfmt := by
    have h1 := le_actElems x.rfmt
    have h2 := actElems_le_isz x.rfmt
    rw [chunkSize]
    omega
  have hrow : (u % 64 + 1) * chunkSize x.rfmt ≤ 64 * chunkSize x.rfmt := Nat.mul_le_mul_right _ (by omega)
  rw [Nat.add_mul, Nat.one_mul] at hrow
  rw [hceil] at hhi
  refine ⟨by omega, by omega, fun j hj => ?_⟩
  have hnext : imageAt base (isz x.rfmt) x.dim u (64 * t) + isz x.rfmt ≤ imageAt base (isz x.rfmt) x.dim u (64 * j) := by
    have hmul : (u / 64 * ceilDiv x.dim 64 + t + 1) * isz x.rfmt ≤ (u / 64 * ceilDiv x.dim 64 + j) * isz x.rfmt := Nat.mul_le_mul_right _ (by omega)
    rw [Nat.add_mul _ 1, Nat.one_mul] at hmul
    rw [imageAt, imageAt, Nat.mul_div_cancel_left _ (by decide), Nat.mul_div_cancel_left _ (by decide)]
    omega
  omega

/-- A row of the buffer's own format is written 64 elements at a time. -/
theorem wrTableRow_stores {s : State} {p : List (Nat × Bytes)} {w : Who} {row : Bytes} (hs : Claim.clean s) (ho : Claim.openTo s w)
    (hmx : isMx (fmtElem x.rfmt) = false) (hin : base + (u / 64 + 1) * (x.dim / 64) * isz x.rfmt ≤ wheelBase) :
    Stores s p (wrTableRow w base x.rfmt u x row) () (p ++ tableRowWrites base u x row) := by
  rw [wrTableRow, if_pos rfl]
  refine Stores.forM_each _ fun t ht p => ?_
  obtain ⟨hlo, hhi, -⟩ := chunk_within hdim (base := base) (u := u) (List.mem_range.1 ht)
  have hput : Stores s p (wr w (imageAt base (isz x.rfmt) x.dim u (64 * t) + u % 64 * 8 * elemBits (fmtElem x.rfmt))
      ((row.drop (t * 8 * elemBits (fmtElem x.rfmt))).take (8 * elemBits (fmtElem x.rfmt)))) ()
      (p ++ [(imageAt base (isz x.rfmt) x.dim u (64 * t) + u % 64 * chunkSize x.rfmt,
        (row.drop (t * chunkSize x.rfmt)).take (chunkSize x.rfmt))]) := by
    rw [Nat.mul_assoc, Nat.mul_assoc, ← chunkSize]
    exact .wr hs ho (by rw [List.length_take]; omega)
  dsimp only
  rw [hmx, if_neg Bool.false_ne_true]
  exact hput.bind (.pure ())

theorem memRead_tableRow (m : List Host.Cell) {row : Bytes} (hlen : row.length = x.rb) {k : Nat} (hk : k < x.dim / 64) :
    memRead (memDo m (tableRowWrites base u x row)) (imageAt base (isz x.rfmt) x.dim u (64 * k) + u % 64 * chunkSize x.rfmt) (chunkSize x.rfmt) =
      (row.drop (k * chunkSize x.rfmt)).take (chunkSize x.rfmt) := by
  obtain ⟨-, -, hnext⟩ := chunk_within hdim (base := base) (u := u) hk
  refine memRead_memDo_at k (by simp [tableRowWrites, hk]) ?_ fun v hv => ?_
  · have hrb : x.dim * elemBits (fmtElem x.rfmt) / 8 ≤ x.rb := by
      have hup := le_up64 (x.dim * elemBits (fmtElem x.rfmt) / 8 + if isMx (fmtElem x.rfmt) then x.dim / 32 else 0)
      rw [TableDesc.rb]
      omega
    have hwhole : x.dim * elemBits (fmtElem x.rfmt) = 8 * (x.dim / 64 * chunkSize x.rfmt) := by
      have hd : x.dim = 64 * (x.dim / 64) := by omega
      conv_lhs => rw [hd]
      rw [chunkSize]
      ring
    have hlast : (k + 1) * chunkSize x.rfmt ≤ x.dim / 64 * chunkSize x.rfmt := Nat.mul_le_mul_right _ hk
    rw [Nat.add_mul, Nat.one_mul] at hlast
    rw [List.length_take, List.length_drop, hlen]
    omega
  · obtain ⟨i, hi, rfl⟩ := List.mem_iff_getElem.1 hv
    simp only [tableRowWrites, List.getElem_drop, List.getElem_map, List.getElem_range]
    exact .inl (hnext _ (by omega))

theorem memGet_tableRow (m : List Host.Cell) {row : Bytes} {a : Nat} (ha : a < base ∨ base + (u / 64 + 1) * (x.dim / 64) * isz x.rfmt ≤ a) :
    memGet (memDo m (tableRowWrites base u x row)) a = memGet m a := by
  refine memGet_memDo_misses fun v hv => ?_
  obtain ⟨t, ht, rfl⟩ := List.mem_map.1 hv
  obtain ⟨hlo, hhi, -⟩ := chunk_within hdim (base := base) (u := u) (List.mem_range.1 ht)
  dsimp only
  rw [List.length_take]
  omega

end

/-- A command with nothing left to send or to wait for ends well. -/
theorem pumpAll_last {s : State} {e c : Nat} {o : GthOp} (hops : (getGe s e).ops = [(c, o)]) (htodo : o.todo = []) (hout : o.out = 0)
    (hverdict : o.verdict = none) :
    pumpAll s e = reportCmd (modGe s e fun x => { x with ops := tabDel x.ops c }) o.cmd.origin .ok := by
  have hsend (d : Nat) : canSend s e d = false := by
    cases hf : tabFind (getGe s e).ops d with
    | none => simp [canSend, hf]
    | some y =>
      have hy : y = o := by
        have hmem := mem_of_tabFind hf
        rw [hops, List.mem_singleton] at hmem
        exact (Prod.mk.inj hmem).2
      simp [canSend, hf, hy, htodo]
  have hpump (n : Nat) : pump e n s = s := by
    cases n with
    | zero => rfl
    | succ n =>
      rw [pump]
      cases nextTurn s (tabGet {} (getEng s (gatherEng e)).rr 0) (gatherReady s e) with
      | none => rfl
      | some y =>
        dsimp only
        rw [hsend, if_neg Bool.false_ne_true]
  have hfind : tabFind (getGe s e).ops c = some o := by rw [hops]; simp [tabFind]
  have hsettle : settleGather s e c = reportCmd (modGe s e fun x => { x with ops := tabDel x.ops c }) o.cmd.origin .ok := by
    rw [settleGather, hfind]
    dsimp only
    rw [if_pos (by simp [htodo, hout]), hverdict]
    exact completeCmd_good _ _ _ _ rfl _
  rw [pumpAll]
  rw [hpump, hops]
  exact hsettle

/-- The last row of a GATHER of this module comes: it is written, and the GATHER ends. -/
theorem rowDone_gather {z : State} {f d u index : Nat} {o : GthOp} {x : GthTable} {row : Bytes} (hops : (getGe z f).ops = [(d, o)])
    (hx : getTable z o.table = some x) (hkind : o.kind = .gather) (htodo : o.todo = []) (hout : o.out = 1) (hverdict : o.verdict = none)
    (hexpand : gExpand o.cmd.bytes = false) (hfmt : fld o.cmd.bytes 4 1 = x.desc.rfmt) (hmx : isMx (fmtElem x.desc.rfmt) = false)
    (hdim : x.desc.dim % 64 = 0) (hs : Claim.clean z) (ho : Claim.openTo z (whoGather f d))
    (hin : fld o.cmd.bytes 32 8 + (u / 64 + 1) * (x.desc.dim / 64) * isz x.desc.rfmt ≤ wheelBase) :
    (getGe (rowDone z f d u index .ok row) f).ops = [] ∧ (∀ k, k ≠ f → getGe (rowDone z f d u index .ok row) k = getGe z k) ∧
    (rowDone z f d u index .ok row).gth.reqs = z.gth.reqs ∧
    (rowDone z f d u index .ok row).mem.bytes = memDo z.mem.bytes (tableRowWrites (fld o.cmd.bytes 32 8) u x.desc row) := by
  obtain ⟨o', ho'⟩ : ∃ p, p = { o with out := o.out - 1 } := ⟨_, rfl⟩
  obtain ⟨y, hy⟩ : ∃ y, y = modOp z f d fun o => { o with out := o.out - 1 } := ⟨_, rfl⟩
  have hfind : tabFind (getGe z f).ops d = some o := by rw [hops]; simp [tabFind]
  have hyops : (getGe y f).ops = [(d, o')] := by
    rw [hy, modOp, getGe_modGe, hops, ho']
    simp [tabFind, tabPut]
  have hyne (k : Nat) (hk : k ≠ f) : getGe y k = getGe z k := by rw [hy, modOp, getGe_modGe_ne z _ hk]
  have hyx : getTable y o.table = some x := by rw [hy]; exact hx
  have hwrite : Stores y [] (gatherRows f d o x.desc u row) () (tableRowWrites (fld o.cmd.bytes 32 8) u x.desc row) := by
    rw [gatherRows]
    dsimp only
    rw [hexpand, if_neg Bool.false_ne_true, hfmt]
    have hys : Claim.clean y := clean_of_mem hs (by rw [hy]; rfl)
    have hyo : Claim.openTo y (whoGather f d) := openTo_of_samePrt (by rw [hy]; exact .refl _) ho
    exact wrTableRow_stores (p := []) hdim hys hyo hmx hin
  obtain ⟨v, hv, hw⟩ := hwrite.act
  have hvgth : v.gth = y.gth := by rw [hw.eq]
  have hvops : (getGe v f).ops = [(d, o')] := by rw [getGe, hvgth, ← getGe, hyops]
  have hrow : rowDone z f d u index .ok row = reportCmd (modGe v f fun x => { x with ops := tabDel x.ops d }) o'.cmd.origin .ok := by
    rw [rowDone, hfind]
    dsimp only
    rw [← hy, if_neg (fun hne => hne rfl), hkind, hyx]
    dsimp only
    rw [hv]
    dsimp only
    rw [if_pos rfl, pumpAll_last hvops (by rw [ho']; exact htodo) (by rw [ho', hout]) (by rw [ho']; exact hverdict)]
  obtain ⟨w, hw'⟩ : ∃ w, w = modGe v f fun x => { x with ops := tabDel x.ops d } := ⟨_, rfl⟩
  obtain ⟨-, hmem, -⟩ := reportCmd_keeps w o'.cmd.origin .ok
  obtain ⟨hengs, -⟩ := reportCmd_gth w o'.cmd.origin .ok
  have hmoving := reportCmd_moving w o'.cmd.origin .ok
  rw [hrow, ← hw']
  have hge (k : Nat) : getGe (reportCmd w o'.cmd.origin .ok) k = getGe w k := by rw [getGe, hengs, ← getGe]
  refine ⟨?_, fun k hk => ?_, ?_, ?_⟩
  · rw [hge, hw', getGe_modGe, hvops]
    simp [tabDel]
  · rw [hge, hw', getGe_modGe_ne v _ hk, getGe, hvgth, ← getGe, hyne k hk]
  · rw [hmoving, hw']
    show v.gth.reqs = _
    rw [hvgth, hy]
    rfl
  · rw [hmem, hw']
    show v.mem.bytes = _
    rw [hw.bytes, hy]
    rfl

theorem rowsServed : Claim.rowsAreServed := by
  intro e rid r s h
  refine ⟨fun hx hops m tag p u hsrc hp => unknown_answered h hx hops hsrc hp, fun x at_ hx hrow hs ho hin => ⟨row_served h hx hrow hs ho hin, ?_⟩⟩
  intro f d u o hsrc hu hf hops hother hkind htable htodo hout hverdict hexpand hhot hfmt hmx hdim hof buf size hbuf
  obtain ⟨z, b, hb, hz, hexec⟩ := serve_reads h hx hrow hs ho hin hu
  have hzmem : z.mem = s.mem := hz.calm (by rw [hitWrites, hhot]; rfl)
  have hzx : getTable z o.table = some x := by rw [getTable, hz.tables, htable]; exact hx
  obtain ⟨hidle, hne, hreqs, hbytes⟩ := rowDone_gather (z := z) (index := r.index) (row := memRead s.mem.bytes at_ x.desc.rb) (by rw [hz.ops, hops])
    hzx hkind htodo hout hverdict hexpand hfmt hmx hdim (clean_of_mem hs hzmem) (openTo_of_samePrt hz.prt hof) hbuf
  obtain ⟨t, ht⟩ : ∃ t, t = rowDone z f d u r.index .ok (memRead s.mem.bytes at_ x.desc.rb) := ⟨_, rfl⟩
  rw [← ht] at hidle hne hreqs hbytes
  have hanswer : answerRow z r .ok (memRead s.mem.bytes at_ x.desc.rb) = t := by rw [answerRow, hsrc, ht]
  have hend : (getGe t e).ops = [] := by
    by_cases he : e = f
    · rw [he]; exact hidle
    · obtain hfe | hfe := hother
      · exact absurd hfe.symm he
      · rw [hne e he, hz.ops, hfe]
  rw [hanswer, pumpAll_idle hend] at hexec
  refine does_of hexec ⟨hidle, by rw [hreqs]; exact hz.gone, fun k hk => ?_, fun a ha => ?_⟩
  · rw [hbytes]
    exact memRead_tableRow hdim _ (memRead_length _ _ _) hk
  · rw [hbytes, memGet_tableRow hdim _ ha, hzmem]

/-- Settles O47: a served row's reads and writes are followed one by one, and a MIGRATE's up to its last redirect entry. -/
theorem rowsAreServed : Obligations.RowsAreServed := ⟨rowsServed, rowsMigrate, loadsBalance⟩

end Sys2Proof.Proofs
end

