-- ==== Sys2Proof/Proofs/LayerStores.lean ====
section
/-! PROOFS. What the work of a layer may store, however it ends: K, V and summaries within the pages of this module, and the
scores of an attention within its working space (spec/13 R327, spec/06 R145, R149). -/

namespace Sys2Proof.Proofs

open Sys2Proof Sys2Proof.Machine Sys2Proof.Laws

/-! ### Relations that loops keep -/

section
variable {α β : Type} {R : State → State → Prop} (hR : Steady R)
include hR

theorem Keeps.forM {f : α → Act PUnit} (l : List α) (hf : ∀ x ∈ l, Keeps R (f x)) : Keeps R (l.forM f) := by
  induction l with
  | nil => exact Keeps.pure hR _
  | cons x l ih =>
    exact Keeps.bind hR (hf x List.mem_cons_self) fun _ => ih fun y hy => hf y (List.mem_cons_of_mem _ hy)

theorem Keeps.mapM {f : α → Act β} (l : List α) (hf : ∀ x, Keeps R (f x)) : Keeps R (l.mapM f) := by
  induction l with
  | nil => exact Keeps.pure hR _
  | cons x l ih =>
    rw [List.mapM_cons]
    exact Keeps.bind hR (hf x) fun _ => Keeps.bind hR ih fun _ => Keeps.pure hR _

end

/-! ### Stores within a region -/

/-- From a clean state of module `own`, only bytes at places that `R` allows have changed, and what else did is a step of `K`. -/
structure Confined (own : Nat) (R : Nat → Prop) (K : State → State → Prop) (s t : State) : Prop where
  clean : Claim.clean t
  own : ownModule t = own
  kept : ∀ a, ¬ R a → memGet t.mem.bytes a = memGet s.mem.bytes a
  rest : K s t

/-- A step that is confined, where it starts from a clean state of the module. -/
def Confines (own : Nat) (R : Nat → Prop) (K : State → State → Prop) (s t : State) : Prop :=
  Claim.clean s → ownModule s = own → Confined own R K s t

section
variable {own : Nat} {R : Nat → Prop} {K K' : State → State → Prop} {s t : State}

theorem steady_confines (hK : Steady K) : Steady (Confines own R K) where
  refl s hs ho := ⟨hs, ho, fun _ _ => rfl, hK.refl s⟩
  trans h h' hs ho := by
    obtain ⟨hs1, ho1, hk1, hr1⟩ := h hs ho
    obtain ⟨hs2, ho2, hk2, hr2⟩ := h' hs1 ho1
    exact ⟨hs2, ho2, fun a ha => (hk2 a ha).trans (hk1 a ha), hK.trans hr1 hr2⟩

theorem Confines.mono (h : Confines own R K s t) (hK : K s t → K' s t) : Confines own R K' s t := fun hs ho =>
  let ⟨hs1, ho1, hk1, hr1⟩ := h hs ho
  ⟨hs1, ho1, hk1, hK hr1⟩

/-- A step that leaves memory as it is. -/
theorem Confines.of_mem (hmem : t.mem = s.mem) (hown : ownModule t = ownModule s) (hK : K s t) : Confines own R K s t :=
  fun hs ho => ⟨clean_of_mem hs hmem, hown.trans ho, fun _ _ => by rw [hmem], hK⟩

end

/-- The purser's commands and requests are as they were. -/
def SameWork (s t : State) : Prop := t.pur.cmds = s.pur.cmds ∧ t.pur.reqs = s.pur.reqs

theorem steady_sameWork : Steady SameWork := ⟨fun _ => ⟨rfl, rfl⟩, fun h h' => ⟨h'.1.trans h.1, h'.2.trans h.2⟩⟩

section
variable {α β : Type} {own : Nat} {R : Nat → Prop}

theorem steady_work : Steady (Confines own R SameWork) := steady_confines steady_sameWork

theorem confines_rd (w : Who) (a n : Nat) : Keeps (Confines own R SameWork) (rd w a n) := ⟨fun s hs ho => by
  cases hm : mayAccess s w a n false with
  | true =>
    obtain ⟨t, ht, hc⟩ := rd_of_clean hs hm
    rw [ht]
    exact Confines.of_mem hc.mem (by rw [hc.eq]; rfl) ⟨by rw [hc.eq], by rw [hc.eq]⟩ hs ho
  | false =>
    rw [rd_denied hm]
    exact steady_work.refl s hs ho⟩

theorem confines_rdNat (w : Who) (a n : Nat) : Keeps (Confines own R SameWork) (rdNat w a n) :=
  Keeps.bind steady_work (confines_rd w a n) fun _ => Keeps.pure steady_work _

theorem confines_wr (w : Who) {a : Nat} {b : Bytes} (hin : ∀ i, a ≤ i → i < a + b.length → R i) :
    Keeps (Confines own R SameWork) (wr w a b) := ⟨fun s hs ho => by
  cases hm : mayAccess s w a b.length true with
  | true =>
    obtain ⟨t, ht, hw⟩ := wr_of_clean hs hm
    rw [ht]
    refine ⟨hw.clean hs, ?_, fun i hi => hw.outside ?_, ?_, ?_⟩
    · rw [← ho, hw.eq]; rfl
    · by_contra hno
      exact hi (hin i (by omega) (by omega))
    · rw [hw.eq]
    · rw [hw.eq]
  | false =>
    rw [wr_denied hm]
    exact steady_work.refl s hs ho⟩

theorem confines_wrFree (w : Who) {a n : Nat} (hin : ∀ i, a ≤ i → i < a + n → R i) :
    Keeps (Confines own R SameWork) (wrFree w a n) := by
  refine Keeps.get_bind fun s => ?_
  rw [runActVal_set_bind]
  refine steady_work.trans (t := { s with freeCtr := s.freeCtr + n }) (.of_mem rfl rfl ⟨rfl, rfl⟩) ?_
  exact (confines_wr w fun i h1 h2 => hin i h1 (by simpa using h2)).of _

end

/-! ### K, V and summaries of a page -/

/-- What a page holds for one layer and KV head: K, V and four summaries. -/
def headSize (m : Model) : Nat := 2 * kvPart m.kvfmt m.dim + 4 * kvSummary m.dim

/-- The region of a layer and head lies within the page. -/
theorem kvHead_within (m : Model) (page : Nat) {l h : Nat} (hl : l < m.layers) (hh : h < m.heads) :
    page ≤ kvHead m page l h ∧ kvHead m page l h + headSize m ≤ page + pageSize m.layers m.heads m.kvfmt m.dim := by
  have hlast : l * m.heads + h + 1 ≤ m.layers * m.heads := calc
    l * m.heads + h + 1 ≤ l * m.heads + m.heads := by omega
    _ = (l + 1) * m.heads := by rw [Nat.add_mul, Nat.one_mul]
    _ ≤ m.layers * m.heads := Nat.mul_le_mul_right _ hl
  have hsize : (l * m.heads + h + 1) * headSize m ≤ m.layers * m.heads * headSize m := Nat.mul_le_mul_right _ hlast
  rw [Nat.add_mul, Nat.one_mul] at hsize
  have hhead : kvHead m page l h = page + (l * m.heads + h) * headSize m := rfl
  have hpage : pageSize m.layers m.heads m.kvfmt m.dim = m.layers * m.heads * headSize m := rfl
  rw [hhead, hpage]
  omega

/-- The pieces of a row of K or V lie within its part. -/
theorem rowPieces_within {base f dim row : Nat} (hdim : dim % 64 = 0) (hrow : row < 256) {p : Nat × Nat} (hp : p ∈ rowPieces base f dim row) :
    base ≤ p.1 ∧ p.1 + p.2 ≤ base + kvPart f dim := by
  obtain ⟨l, hl, hpl⟩ := List.mem_flatten.1 hp
  obtain ⟨t, ht, rfl⟩ := List.mem_map.1 hl
  have ht' := List.mem_range.1 ht
  have hceil : ceilDiv dim 64 = dim / 64 := by unfold ceilDiv; omega
  have himg := imageAt_within base (isz f) (cols := dim) (r := row) (c := 64 * t) (g := 4) (by omega) (by rw [hceil]; omega)
  rw [hceil] at himg
  have hpart : kvPart f dim = 4 * (dim / 64) * isz f := rfl
  rw [← hpart] at himg
  obtain ⟨img, himg'⟩ : ∃ x, x = imageAt base (isz f) dim row (64 * t) := ⟨_, rfl⟩
  rw [← himg'] at himg hpl
  have hb : (row % 64 + 1) * (8 * elemBits (fmtElem f)) ≤ 64 * (8 * elemBits (fmtElem f)) := Nat.mul_le_mul_right _ (by omega)
  rw [Nat.add_mul, Nat.one_mul, ← Nat.mul_assoc] at hb
  have helems := le_actElems f
  have hisz := actElems_le_isz f
  obtain rfl | hscale := List.mem_cons.1 hpl
  · dsimp only
    omega
  · split at hscale
    next hmx =>
      obtain rfl := List.mem_singleton.1 hscale
      have := actScales_le_isz hmx
      dsimp only
      omega
    next => exact absurd hscale (by simp)

theorem flatten_length_le {α : Type} (l : List (List α)) (n : Nat) (h : ∀ x ∈ l, x.length ≤ n) : l.flatten.length ≤ l.length * n := by
  rw [List.length_flatten]
  calc (l.map List.length).sum ≤ (l.map List.length).length * n := List.sum_le_card_nsmul _ _ fun x hx => by
        obtain ⟨y, hy, rfl⟩ := List.mem_map.1 hx
        exact h y hy
    _ = l.length * n := by rw [List.length_map]

theorem summaryOf_length (dim : Nat) (keys : List (List (BitVec 32))) : (summaryOf dim keys).length ≤ kvSummary dim := by
  have hle := le_up64 (dim + dim / 32)
  have hflat := flatten_length_le (((List.range (dim / 32)).map fun i => mxQuant 3 ((((keys.foldl (fun acc k => (acc.zip k).map fun p =>
    f32Add p.1 p.2) (List.replicate dim 0)).map fun x => (f32Dec x).scale (-6)).drop (32 * i)).take 32)).map fun b => packBytes 8 b.2) 32
    fun x hx => by
      simp only [List.map_map, List.mem_map] at hx
      obtain ⟨i, -, rfl⟩ := hx
      simp only [Function.comp_apply, packBytes_length, mxQuant_length, List.length_take, ceilDiv]
      omega
  rw [summaryOf, List.length_append]
  simp only [List.length_map, List.length_range] at hflat ⊢
  rw [kvSummary]
  omega

section
variable {own : Nat} {R : Nat → Prop} {m : Model} (w : Who) {page l h : Nat} (hl : l < m.layers) (hh : h < m.heads)
  (hpage : ∀ i, page ≤ i → i < page + pageSize m.layers m.heads m.kvfmt m.dim → R i)
include hl hh hpage

theorem confines_kvRow (hdim : m.dim % 64 = 0) {row : Nat} (hrow : row < 256) : Keeps (Confines own R SameWork) (kvRow w m page l h row) := by
  have hin := kvHead_within m page hl hh
  rw [headSize] at hin
  refine Keeps.forM steady_work _ fun base hbase => Keeps.forM steady_work _ fun p hp => confines_wrFree w fun i h1 h2 => ?_
  have hpiece := rowPieces_within hdim hrow hp
  simp only [List.mem_cons, List.not_mem_nil, or_false] at hbase
  obtain rfl | rfl := hbase
  · exact hpage i (by omega) (by omega)
  · exact hpage i (by omega) (by omega)

theorem confines_kvSummarize (j : Nat) : Keeps (Confines own R SameWork) (kvSummarize w m page l h (j % 4)) := by
  have hin := kvHead_within m page hl hh
  rw [headSize] at hin
  refine Keeps.bind steady_work (confines_rd _ _ _) fun k => confines_wr w fun i h1 h2 => ?_
  have hlen := summaryOf_length m.dim ((List.range 64).map (blockRow k m.kvfmt m.dim))
  have hat : summaryAt m page l h (j % 4) = kvHead m page l h + 2 * kvPart m.kvfmt m.dim + j % 4 % 4 * kvSummary m.dim := rfl
  have hj : (j % 4 % 4 + 1) * kvSummary m.dim ≤ 4 * kvSummary m.dim := Nat.mul_le_mul_right _ (by omega)
  rw [Nat.add_mul, Nat.one_mul] at hj
  rw [hat] at h1 h2
  exact hpage i (by omega) (by omega)

end

/-- A layer's K, V and summaries stand in the pages of this module. -/
theorem confines_kvLayer {own : Nat} {R : Nat → Prop} {m : Model} (w : Who) {l : Nat} (first last : Nat) (pages : List (Nat × Nat))
    (hdim : m.dim % 64 = 0) (hl : l < m.layers) (hpages : ∀ p ∈ pages, globalModule p.2 = own →
      ∀ i, localPart p.2 ≤ i → i < localPart p.2 + pageSize m.layers m.heads m.kvfmt m.dim → R i) :
    Keeps (Confines own R SameWork) (kvLayer w m l first last pages) := by
  refine Keeps.forM steady_work _ fun i _ => Keeps.get_bind fun s hs ho => ?_
  split
  · exact steady_work.refl s hs ho
  next page hpage =>
    rw [pageHere] at hpage
    split at hpage
    next x hx =>
      split at hpage
      next hown =>
        obtain rfl := Option.some.inj hpage
        have hin := hpages x (List.mem_of_find?_eq_some hx) (hown.trans ho)
        refine (Keeps.forM steady_work _ fun h hh => ?_).of s hs ho
        refine Keeps.bind steady_work (confines_kvRow w hl (List.mem_range.1 hh) hin hdim (Nat.mod_lt _ (by decide))) fun _ => ?_
        split
        · have := confines_kvSummarize (own := own) w hl (List.mem_range.1 hh) hin ((first + i) % 256 / 64)
          rwa [Nat.mod_eq_of_lt (by omega)] at this
        · exact Keeps.pure steady_work _
      next => cases hpage
    next => cases hpage

/-! ### The steps of an attention -/

/-- Work whose value, where it ends well, has a property. -/
def Gives {α : Type} (a : Act α) (P : α → Prop) : Prop := ∀ s x t, runActVal a s = (.ok x, t) → P x

theorem Gives.pure {α : Type} {x : α} {P : α → Prop} (h : P x) : Gives (Pure.pure x : Act α) P := fun _ _ _ hx => by
  rw [runActVal_pure] at hx
  have hval := congrArg (·.1) hx
  rwa [← Except.ok.inj hval]

theorem Gives.bind {α β : Type} (a : Act α) {k : α → Act β} {P : β → Prop} (hk : ∀ x, Gives (k x) P) : Gives (a >>= k) P := by
  intro s y u hy
  rw [runActVal_bind] at hy
  split at hy
  next x t _ => exact hk x t y u hy
  next => cases hy

/-- Engine commands for other engines than the cores. -/
def NoCore (l : List (Eng × Bytes)) : Prop := ∀ x ∈ l, x.1.kind ≠ .core

theorem bring_noCore (s : State) (ctx src dst n : Nat) : NoCore (bring s ctx src dst n).1 := by
  intro x hx
  obtain ⟨b, -, rfl⟩ := List.mem_map.1 hx
  exact fun h => EngKind.noConfusion h

/-- One more part is brought here. -/
def fetchOne (a : Attend) (acc : List (Eng × Bytes) × State) (x : Nat × Nat × Nat) : List (Eng × Bytes) × State :=
  (acc.1 ++ (bring acc.2 a.ctx x.1 x.2.1 x.2.2).1, (bring acc.2 a.ctx x.1 x.2.1 x.2.2).2)

theorem fetch_eq (a : Attend) (s : State) (l : List (Nat × Nat × Nat)) : a.fetch s l = l.foldl (fetchOne a) ([], s) := rfl

theorem fetch_noCore (a : Attend) (s : State) (l : List (Nat × Nat × Nat)) : NoCore (a.fetch s l).1 := by
  suffices hgen : ∀ acc : List (Eng × Bytes) × State, NoCore acc.1 → NoCore (l.foldl (fetchOne a) acc).1 by
    rw [fetch_eq]
    exact hgen ([], s) (by simp [NoCore])
  induction l with
  | nil => exact fun acc h => h
  | cons x l ih =>
    refine fun acc h => ih _ fun y hy => ?_
    obtain hy | hy := List.mem_append.1 hy
    · exact h y hy
    · exact bring_noCore _ _ _ _ _ y hy

section
variable {own : Nat} {R : Nat → Prop}

theorem confines_fetch (a : Attend) (s : State) (l : List (Nat × Nat × Nat)) : Confines own R SameWork s (a.fetch s l).2 := by
  suffices hgen : ∀ acc : List (Eng × Bytes) × State, Confines own R SameWork acc.2 (l.foldl (fetchOne a) acc).2 by
    rw [fetch_eq]
    exact hgen ([], s)
  induction l with
  | nil => exact fun acc => steady_work.refl acc.2
  | cons x l ih =>
    refine fun acc => steady_work.trans (.of_mem (t := (fetchOne a acc x).2) rfl rfl ⟨rfl, rfl⟩) (ih _)

theorem confines_choiceRecs (w : Who) (a n k : Nat) : Keeps (Confines own R SameWork) (choiceRecs w a n k) :=
  Keeps.bind steady_work (confines_rdNat _ _ _) fun _ => Keeps.bind steady_work (confines_rd _ _ _) fun _ => Keeps.pure steady_work _

/-- The results of an attention are kept. -/
theorem confines_attention (out : List (List (BitVec 32))) :
    Keeps (Confines own R SameWork) (actMod fun s => { s with pur := { s.pur with attention := out } }) :=
  ⟨fun t => .of_mem (t := { t with pur := { t.pur with attention := out } }) rfl rfl ⟨rfl, rfl⟩⟩

variable (a : Attend) (w : Who) (m : Model) {buf : Nat}

theorem confines_attends (q j : Nat) : Keeps (Confines own R SameWork) (a.attends w m buf q j) := by
  refine Keeps.get_bind fun s => ?_
  split
  · exact (Keeps.pure steady_work _).of s
  · exact (Keeps.bind steady_work (confines_choiceRecs _ _ _ _) fun _ => Keeps.pure steady_work _).of s

theorem confines_rdBlock (h b : Nat) : Keeps (Confines own R SameWork) (a.rdBlock w m buf h b) := by
  refine Keeps.get_bind fun s => ?_
  dsimp only
  split
  · exact (Keeps.bind steady_work (confines_rd _ _ _) fun _ => Keeps.bind steady_work (confines_rd _ _ _) fun _ =>
      Keeps.pure steady_work _).of s
  · exact (Keeps.pure steady_work _).of s

theorem confines_wantBlocks : Keeps (Confines own R SameWork) (a.wantBlocks w m buf) :=
  Keeps.get_bind fun s => (Keeps.bind steady_work (Keeps.mapM steady_work _ fun _ =>
    Keeps.bind steady_work (confines_attends a w m _ _) fun _ => Keeps.pure steady_work _) fun _ =>
      Keeps.get_bind fun _ => (Keeps.pure steady_work _).of _).of s

theorem confines_compute : Keeps (Confines own R SameWork) (a.compute w m buf) :=
  Keeps.get_bind fun s => (Keeps.bind steady_work (Keeps.mapM steady_work _ fun _ =>
    Keeps.bind steady_work (confines_attends a w m _ _) fun _ => Keeps.bind steady_work (Keeps.mapM steady_work _ fun _ =>
      confines_rdBlock a w m _ _) fun _ => Keeps.pure steady_work _) fun _ => Keeps.pure steady_work _).of s

variable (hbuf : ∀ i, buf ≤ i → R i)
include hbuf

/-- The scores of a choice stand in the working space. -/
theorem confines_score (i q j : Nat) : Keeps (Confines own R SameWork) (a.score w m buf i q j) := by
  refine Keeps.get_bind fun s => ?_
  refine (Keeps.bind steady_work (Keeps.mapM steady_work _ fun b => ?_) fun _ =>
    Keeps.bind steady_work (confines_wr w fun i h1 _ => hbuf i ?_) fun _ => Keeps.pure steady_work _).of s
  · split
    · exact Keeps.bind steady_work (confines_rd _ _ _) fun _ => Keeps.pure steady_work _
    · exact Keeps.pure steady_work _
  · simp only [Attend.choiceBuf, Attend.sumBuf] at h1
    omega

theorem confines_choose : Keeps (Confines own R SameWork) (a.choose w m buf) :=
  Keeps.get_bind fun s => (Keeps.bind steady_work (Keeps.mapM steady_work _ fun _ => confines_score a w m hbuf _ _ _) fun _ =>
    Keeps.get_bind fun t => steady_work.trans (.of_mem (s := t) (t := (pickEng t .ssu a.ctx).2) rfl rfl ⟨rfl, rfl⟩)
      ((Keeps.pure steady_work _).of _)).of s

theorem confines_next : Keeps (Confines own R SameWork) (a.next buf) := by
  refine Keeps.get_bind fun s => ?_
  dsimp only
  split
  · exact steady_work.trans (confines_fetch a s _) ((Keeps.pure steady_work _).of _)
  · exact (Keeps.bind steady_work (confines_choose a _ _ hbuf) fun _ => Keeps.pure steady_work _).of s
  · exact (Keeps.bind steady_work (confines_wantBlocks a _ _) fun _ =>
      Keeps.get_bind fun t => steady_work.trans (confines_fetch a t _) ((Keeps.pure steady_work _).of _)).of s
  · exact (Keeps.bind steady_work (confines_compute a _ _) fun out => Keeps.bind steady_work (confines_attention out)
      fun _ => Keeps.pure steady_work _).of s

end

/-- An attention offers engine commands of barges and of sort/select units. -/
theorem next_noCore (a : Attend) (buf : Nat) : Gives (a.next buf) fun x => ∀ y, x = some y → NoCore y.2 := by
  have hsome {a' : Attend} {l : List (Eng × Bytes)} (h : NoCore l) : ∀ y, some (a', l) = some y → NoCore y.2 := fun y hy => by
    rw [← Option.some.inj hy]
    exact h
  have hchoose : Gives (a.choose (whoPurser (some a.ctx)) (modelOf a.model) buf) NoCore := by
    refine .bind _ fun s => .bind _ fun cs => .bind _ fun t => .bind _ fun _ => .pure fun x hx => ?_
    obtain ⟨b, -, rfl⟩ := List.mem_map.1 hx
    exact fun h => EngKind.noConfusion h
  refine .bind _ fun s => ?_
  dsimp only
  split
  · exact .bind _ fun _ => .pure (hsome (fetch_noCore a s _))
  · intro s x t hx
    rw [runActVal_bind] at hx
    split at hx
    next l u hl =>
      rw [runActVal_pure] at hx
      rw [← Except.ok.inj (congrArg (·.1) hx)]
      exact hsome (hchoose _ _ _ hl)
    next => cases hx
  · exact .bind _ fun l => .bind _ fun t => .bind _ fun _ => .pure (hsome (fetch_noCore a t l))
  · exact .bind _ fun _ => .bind _ fun _ => .pure fun y hy => by cases hy

end Sys2Proof.Proofs
end

