-- ==== Sys2Proof/Proofs/LayerQuestions.lean ====
section
/-! PROOFS. What the questions of a layer may change, asked here or on other modules: memory within the layer's places alone,
and no request but the one that asks (spec/13 R327, spec/06 R146). -/

namespace Sys2Proof.Proofs

open Sys2Proof Sys2Proof.Machine Sys2Proof.Laws

/-! ### Offers of an attention's engine commands -/

/-- Memory, the requests and the module's place among the modules are as they were. -/
def Quiet (s t : State) : Prop := t.mem = s.mem ∧ t.pur.reqs = s.pur.reqs ∧ Calm s t

theorem steady_quiet : Steady Quiet where
  refl s := ⟨rfl, rfl, .refl s⟩
  trans h h' := ⟨h'.1.trans h.1, h'.2.1.trans h.2.1, h.2.2.trans h'.2.2⟩

theorem purserSend_quiet (s : State) (m : Nat) (x : PurserMsg) : Quiet s (purserSend s m x) :=
  ⟨by rw [purserSend_eq], by rw [purserSend_eq], calm_purserSend s m x⟩

/-- Pages that go back, or one of them. -/
theorem freePages_quiet (s : State) (l : List Nat) : Quiet s (freePages s l) := by
  refine steady_quiet.foldl (fun s g => ?_) l s
  split
  · exact ⟨rfl, rfl, .of_fry rfl⟩
  · exact purserSend_quiet s _ _

theorem offerCmd_noCore {e : Eng} (he : e.kind ≠ .core) (s : State) (b : Bytes) (origin : Option (Nat × Nat)) :
    (offerCmd s e b origin).1.mem = s.mem ∧ (offerCmd s e b origin).1.pur = s.pur := by
  unfold offerCmd
  dsimp only
  split
  · exact ⟨rfl, rfl⟩
  · split
    · exact ⟨(logEntry_fr (mk := 1048580) (by decide) (Fr.refl _ s)).same .mem rfl, (logEntry_fr (mk := 1048580) (by decide) (Fr.refl _ s)).same .pur rfl⟩
    · split
      · exact ⟨rfl, rfl⟩
      · exact ⟨rfl, rfl⟩

/-- A command of the purser's own for an attention. -/
structure Attending (own rid key buf : Nat) (c : PCmd) : Prop where
  guest : c.guest = some (own, rid, key)
  work : ∃ a, c.work = .attend a
  enq : c.enq = none
  mover : c.mover = none
  buf : c.buf = buf
  offer : NoCore c.offer

theorem Attending.work_ne {own rid key buf : Nat} {c : PCmd} (h : Attending own rid key buf c) : c.work ≠ .none := by
  obtain ⟨a, ha⟩ := h.work
  rw [ha]
  exact PurserWork.noConfusion

theorem reportCmd_attending {own rid key buf id : Nat} {c : PCmd} (h : Attending own rid key buf c) {s : State} (hc : getCmd s id = some c)
    (st : Status) : (reportCmd s (some (id, 0)) st).mem = s.mem ∧ (reportCmd s (some (id, 0)) st).pur.reqs = s.pur.reqs := by
  have hrow : reportCmd s (some (id, 0)) st = if c.wanted s id then putCmd s id { c with jobs := [], done := tabPut c.done 0 st }
      else { s with pur := { s.pur with cmds := tabDel s.pur.cmds id } } := by
    rw [reportCmd]
    dsimp only
    rw [hc]
    dsimp only
    split
    · rw [stageReport]
      split
      next hm => exact absurd (h.mover.symm.trans hm) (by simp)
      next => rw [if_neg h.work_ne]
    next hq => exact absurd (h.enq.symm.trans hq) (by simp)
  rw [hrow]
  split <;> exact ⟨rfl, rfl⟩

theorem offerKept_quiet {own rid key buf id : Nat} {c : PCmd} (h : Attending own rid key buf c) {s : State} (hc : getCmd s id = some c) :
    Quiet s (offerKept s id) := by
  suffices hgen : (offerKept s id).mem = s.mem ∧ (offerKept s id).pur.reqs = s.pur.reqs from ⟨hgen.1, hgen.2, calm_offerKept s id⟩
  unfold offerKept
  rw [hc]
  dsimp only
  split
  next e b rest hjobs hoffer =>
    have he : e.kind ≠ .core := h.offer (e, b) (by rw [hoffer]; exact List.mem_cons_self)
    obtain ⟨hmem, hpur⟩ := offerCmd_noCore he (putCmd s id { c with jobs := [0], offer := rest }) b (some (id, 0))
    have hd : Attending own rid key buf { c with jobs := [0], offer := rest } :=
      ⟨h.guest, h.work, h.enq, h.mover, h.buf, fun x hx => h.offer x (by rw [hoffer]; exact List.mem_cons_of_mem _ hx)⟩
    have hget {t : State} (ht : t.pur = (putCmd s id { c with jobs := [0], offer := rest }).pur) :
        getCmd t id = some { c with jobs := [0], offer := rest } := by
      rw [getCmd, ht]
      exact tabFind_tabPut_self _ _ _
    split
    · exact ⟨rfl, rfl⟩
    next t ht => rw [ht] at hmem hpur; exact ⟨hmem, by rw [hpur]; rfl⟩
    next t st ht =>
      rw [ht] at hmem hpur
      obtain ⟨hm, hr⟩ := reportCmd_attending hd (hget hpur) st
      exact ⟨hm.trans hmem, by rw [hr, hpur]; rfl⟩
    next t ht =>
      rw [ht] at hmem hpur
      obtain ⟨hm, hr⟩ := reportCmd_attending hd (hget hpur) .internal
      exact ⟨hm.trans hmem, by rw [hr, hpur]; rfl⟩
  · exact ⟨rfl, rfl⟩

/-! ### The request that asks -/

/-- Only the request `rid` changes, and its PREFILL stands at the same layer. -/
def LayerStays (rid : Nat) (s t : State) : Prop :=
  Claim.otherReqs s t rid ∧ ∀ r, getReq s rid = some r → ∃ r', getReq t rid = some r' ∧
    (tabGet {} r'.stages 0x14).step = (tabGet {} r.stages 0x14).step

theorem steady_layerStays (rid : Nat) : Steady (LayerStays rid) where
  refl _ := ⟨fun _ _ => rfl, fun r hr => ⟨r, hr, rfl⟩⟩
  trans h h' := ⟨otherReqs_trans h.1 h'.1, fun r hr => by
    obtain ⟨r1, hr1, h1⟩ := h.2 r hr
    obtain ⟨r2, hr2, h2⟩ := h'.2 r1 hr1
    exact ⟨r2, hr2, h2.trans h1⟩⟩

theorem LayerStays.of_reqs {s t : State} (h : t.pur.reqs = s.pur.reqs) (rid : Nat) : LayerStays rid s t :=
  ⟨otherReqs_of_reqs h rid, fun r hr => ⟨r, (getReq_of_reqs h rid).trans hr, rfl⟩⟩

theorem layerStays_putReq {s : State} {rid : Nat} {r r' : Request} (hr : getReq s rid = some r)
    (h : (tabGet {} r'.stages 0x14).step = (tabGet {} r.stages 0x14).step) : LayerStays rid s (putReq s rid r') :=
  ⟨otherReqs_putReq s rid r', fun q hq => ⟨r', getReq_putReq _ _ _, by rw [h, Option.some.inj (hq.symm.trans hr)]⟩⟩

section
variable {own : Nat} {R : Nat → Prop} {rid : Nat}

theorem steady_layer : Steady (Confines own R (LayerStays rid)) := steady_confines (steady_layerStays rid)

/-- Work that leaves the requests is a part of it. -/
theorem Confines.layer {s t : State} (h : Confines own R SameWork s t) : Confines own R (LayerStays rid) s t :=
  h.mono fun hw => .of_reqs hw.2 rid

theorem Quiet.layer {s t : State} (h : Quiet s t) : Confines own R (LayerStays rid) s t :=
  .of_mem h.1 h.2.2.ownModule (.of_reqs h.2.1 rid)

theorem confines_putReq {s : State} {r r' : Request} (hr : getReq s rid = some r)
    (h : (tabGet {} r'.stages 0x14).step = (tabGet {} r.stages 0x14).step) : Confines own R (LayerStays rid) s (putReq s rid r') :=
  .of_mem rfl rfl (layerStays_putReq hr h)

theorem confines_modReq (s : State) (f : Request → Request)
    (h : ∀ r, (tabGet {} (f r).stages 0x14).step = (tabGet {} r.stages 0x14).step) : Confines own R (LayerStays rid) s (modReq s rid f) := by
  cases hr : getReq s rid with
  | none => rw [modReq, hr]; exact steady_layer.refl s
  | some r => rw [modReq_of hr]; exact confines_putReq hr (h r)

theorem confines_purserSend (s : State) (m : Nat) (x : PurserMsg) : Confines own R (LayerStays rid) s (purserSend s m x) :=
  (purserSend_quiet s m x).layer

theorem confines_takeAnswer (s : State) (m key : Nat) (a : Answer) : Confines own R (LayerStays rid) s (takeAnswer s m rid key a) := by
  unfold takeAnswer
  split
  next r hr =>
    split
    · exact confines_putReq hr rfl
    · exact steady_layer.refl s
  · split
    · exact (freePages_quiet s _).layer
    · exact steady_layer.refl s

theorem confines_answerAsk (s : State) (m key : Nat) (a : Answer) : Confines own R (LayerStays rid) s (answerAsk s m rid key a) := by
  unfold answerAsk
  split
  · exact confines_takeAnswer s m key a
  · exact confines_purserSend s m _

/-! ### The attention of a question -/

section
variable {key buf : Nat} (hbuf : ∀ i, buf ≤ i → R i)

theorem confines_settleOwn {c : PCmd} (h : Attending own rid key buf c) (s : State) (id : Nat) (st : Status) :
    Confines own R (LayerStays rid) s (settleOwn s id c st) := by
  obtain ⟨a, ha⟩ := h.work
  have hrow : settleOwn s id c st = answerAsk { s with pur := { s.pur with cmds := tabDel s.pur.cmds id } } own rid key { status := st } := by
    simp only [settleOwn, h.guest, ha]
  rw [hrow]
  exact steady_layer.trans (t := { s with pur := { s.pur with cmds := tabDel s.pur.cmds id } })
    (Quiet.layer ⟨rfl, rfl, .of_fry rfl⟩) (confines_answerAsk _ _ _ _)

include hbuf

/-- An attention goes on within its working space. -/
theorem confines_ownStep (f : Nat) : ∀ {s : State} {id : Nat} {c : PCmd}, getCmd s id = some c → Attending own rid key buf c →
    Confines own R (LayerStays rid) s (ownStep f s id) := by
  induction f with
  | zero => exact fun _ _ => steady_layer.refl _
  | succ f ih =>
    intro s id c hc h
    obtain ⟨a, ha⟩ := h.work
    rw [ownStep, hc]
    dsimp only
    split
    · exact steady_layer.refl s
    · split
      · exact confines_settleOwn h s id _
      · split
        · exact (offerKept_quiet h hc).layer
        · have hnext := (confines_next (own := own) a (buf := c.buf) (h.buf ▸ hbuf)).of s
          have hcore := next_noCore a c.buf
          rw [ha]
          dsimp only
          split
          next a' l t ht =>
            rw [ht] at hnext
            obtain ⟨d, hd⟩ : ∃ d, d = { c with work := .attend a', offer := l } := ⟨_, rfl⟩
            have had : Attending own rid key buf d := by
              rw [hd]
              exact ⟨h.guest, ⟨a', rfl⟩, h.enq, h.mover, h.buf, hcore _ _ _ ht _ rfl⟩
            rw [← hd]
            exact steady_layer.trans hnext.layer (steady_layer.trans (t := putCmd t id d) (Quiet.layer ⟨rfl, rfl, .of_fry rfl⟩)
              (ih (tabFind_tabPut_self _ _ _) had))
          next t ht =>
            rw [ht] at hnext
            exact steady_layer.trans hnext.layer (confines_settleOwn h t id _)
          next st t ht =>
            rw [ht] at hnext
            exact steady_layer.trans hnext.layer (confines_settleOwn h t id _)

theorem confines_startOwn {c : PCmd} (h : Attending own rid key buf c) (s : State) : Confines own R (LayerStays rid) s (startOwn s c) :=
  steady_layer.trans (Quiet.layer (t := ownCmd s c) ⟨rfl, rfl, .of_fry rfl⟩)
    (confines_ownStep hbuf 8 (tabFind_tabPut_self _ _ _) ⟨h.guest, h.work, h.enq, h.mover, h.buf, h.offer⟩)

theorem confines_attendAsk (s : State) (ctx : Nat) (model sel : Bytes) (l len first last : Nat) (pages : List (Nat × Nat)) :
    Confines own R (LayerStays rid) s (serveAsk s own rid key (.attend ctx model sel l len first last pages) buf) :=
  steady_layer.trans (t := { s with freeCtr := s.freeCtr + (last + 1 - first) * queryHeads (modelOf model) * (modelOf model).dim })
    (Quiet.layer ⟨rfl, rfl, .of_fry rfl⟩)
    (confines_startOwn hbuf ⟨rfl, ⟨_, rfl⟩, rfl, rfl, rfl, by simp [NoCore]⟩ _)

end

/-- K and V of a layer go to the pages of this module. -/
theorem confines_kvAsk {model : Bytes} {l : Nat} (s : State) (key buf ctx first last : Nat) (pages : List (Nat × Nat))
    (hkv : Keeps (Confines own R SameWork) (kvLayer (whoPurser (some ctx)) (modelOf model) l first last pages)) :
    Confines own R (LayerStays rid) s (serveAsk s own rid key (.kv ctx model l first last pages) buf) := by
  have hwork : Keeps (Confines own R SameWork) (askWork (.kv ctx model l first last pages)) :=
    Keeps.bind steady_work hkv fun _ => Keeps.pure steady_work _
  have hof := hwork.of s
  unfold serveAsk
  split
  next h => cases h
  next h => cases h
  · split
    next h => rw [h] at hof; exact steady_layer.trans hof.layer (confines_answerAsk _ _ _ _)
    next h => rw [h] at hof; exact steady_layer.trans hof.layer (confines_answerAsk _ _ _ _)

/-- A question to a module, this one included. -/
theorem confines_ask {q : PurserAsk} {buf : Nat} (s : State) (key m : Nat)
    (hserve : ∀ t, Confines own R (LayerStays rid) t (serveAsk t own rid key q buf)) :
    Confines own R (LayerStays rid) s (ask s rid key m q buf) := by
  intro hs ho
  unfold ask
  split
  · exact steady_layer.refl s hs ho
  next r hr =>
    split
    · exact steady_layer.refl s hs ho
    · have hput : Confines own R (LayerStays rid) s (putReq s rid { r with asks := tabPut r.asks key m }) := confines_putReq hr rfl
      dsimp only
      split
      next hm =>
        rw [hm, ho] at hput
        rw [hm, ho]
        exact steady_layer.trans hput (hserve _) hs ho
      · split
        · exact steady_layer.trans hput (confines_purserSend _ _ _) hs ho
        · exact steady_layer.trans hput (confines_takeAnswer _ _ _ _) hs ho

end

end Sys2Proof.Proofs
end

