-- ==== Sys2Proof/Proofs/PrefillLayers.lean ====
section
/-! PROOFS. The layers of PREFILL: K and V of every chunk, the attention of every chunk, and the next layer (spec/13 R327). -/

namespace Sys2Proof.Proofs

open Sys2Proof Sys2Proof.Machine Sys2Proof.Laws

/-! ### Answers to several questions -/

section
variable {s : State} {rid : Nat} {q : Request} (hq : getReq s rid = some q) {keys : List Nat}
include hq

theorem answered_of (k : Nat) : Machine.answered s rid k = tabFind q.answers k := by rw [Machine.answered, hq]; rfl

theorem allAnswered_none {k : Nat} (hk : k ∈ keys) (hnone : tabFind q.answers k = none) : allAnswered s rid keys = none := by
  have hall : keys.all (fun k => (Machine.answered s rid k).isSome) = false := by
    rw [List.all_eq_false]
    exact ⟨k, hk, by rw [answered_of hq, hnone]; simp⟩
  rw [allAnswered, hall]
  rfl

theorem allAnswered_good (h : ∀ k ∈ keys, ∃ a, tabFind q.answers k = some a ∧ a.status.good = true) : allAnswered s rid keys = some .ok := by
  have hall : keys.all (fun k => (Machine.answered s rid k).isSome) = true := by
    rw [List.all_eq_true]
    intro k hk
    obtain ⟨a, ha, -⟩ := h k hk
    rw [answered_of hq, ha]
    rfl
  have hfind : ((keys.filterMap (Machine.answered s rid)).map (·.status)).find? (fun st => !st.good) = none := by
    rw [List.find?_eq_none]
    intro st hst
    obtain ⟨a, ha, rfl⟩ := List.mem_map.1 hst
    obtain ⟨k, hk, hka⟩ := List.mem_filterMap.1 ha
    obtain ⟨b, hb, hgood⟩ := h k hk
    rw [answered_of hq, hb] at hka
    rw [← Option.some.inj hka, hgood]
    simp
  rw [allAnswered, hall, if_pos rfl, hfind]
  rfl

end

theorem allAnswered_of_reqs {s t : State} (h : t.pur.reqs = s.pur.reqs) (rid : Nat) (keys : List Nat) :
    allAnswered t rid keys = allAnswered s rid keys := by
  have hans : Machine.answered t rid = Machine.answered s rid := by
    funext k
    rw [Machine.answered, getReq_of_reqs h, Machine.answered]
  rw [allAnswered, hans, allAnswered]

theorem layerBarrier_fails {s : State} {rid : Nat} {keys : List Nat} (bad : State → Status → State) (next : State → State) {st : Status}
    (h : allAnswered s rid keys = some st) (hbad : st.good = false) : layerBarrier s rid keys bad next = bad s st := by
  unfold layerBarrier
  rw [h]
  exact if_neg (by rw [hbad]; exact Bool.false_ne_true)

/-- The numbers of questions about the elements of a list. -/
theorem zipIdx_keys {α : Type} (l : List α) (b : Nat) : l.zipIdx.map (fun x => b + x.2) = (List.range l.length).map (b + ·) := by
  rw [List.range_eq_range', ← List.zipIdx_map_snd 0 l, List.map_map]
  rfl

theorem zipIdx_keys_nodup {α : Type} (l : List α) (b : Nat) : (l.zipIdx.map (fun x => b + x.2)).Nodup := by
  rw [zipIdx_keys]
  exact List.nodup_range.map fun i j h => Nat.add_left_cancel h

theorem stepCounts_noteStep {s t : State} {id : Nat} (h : Claim.stepCounts s t id) : Claim.stepCounts s (noteStep t id) id :=
  fun c hc => noteStep_getCmd (h c hc)

/-- With the attention of a layer done, its answers are forgotten. -/
theorem layerWork_passes {v : State} {rid buf : Nat} {r : Request} {g : Stage} {m : Model} (hv : getReq v rid = some r) (hsub : g.sub = 2)
    (hdone : ∀ i, i < (pageModules r.pages).length → ∃ a, tabFind r.answers (attendAsk i) = some a ∧ a.status.good = true) :
    ∃ z, layerWork v rid buf r g m = layerDone z rid m ∧ getReq z rid = some { r with answers := [] } ∧
      z = { v with pur := { v.pur with reqs := z.pur.reqs } } ∧ Claim.otherReqs v z rid := by
  obtain ⟨mods, hmods⟩ : ∃ l, l = pageModules r.pages := ⟨_, rfl⟩
  rw [← hmods] at hdone
  have hall : allAnswered v rid (mods.zipIdx.map fun x => attendAsk x.2) = some .ok := allAnswered_good hv fun k hk => by
    obtain ⟨x, hx, rfl⟩ := List.mem_map.1 hk
    exact hdone x.2 (List.snd_lt_of_mem_zipIdx hx)
  refine ⟨clearAnswers v rid, ?_, getReq_modReq hv _, ?_, otherReqs_modReq v rid _⟩
  · rw [layerWork, hsub]
    dsimp only
    rw [← hmods]
    exact layerBarrier_passes _ _ hall rfl
  · rw [clearAnswers, modReq_of hv]
    rfl

/-! ### The page table after the last layer -/

/-- The entry of the page table that a new page gets. -/
def newEntry (r : Request) (p : Nat × Nat) : Nat × Bytes :=
  (fld r.record 72 8 + 16 * p.1, toLe 8 p.2 ++ toLe 2 (min 256 (r.context - 256 * p.1)) ++ toLe 2 1 ++ toLe 4 0)

theorem newEntry_length (r : Request) (p : Nat × Nat) : (newEntry r p).2.length = 16 := by
  simp only [newEntry, List.length_append, toLe_length]

theorem wrPrefillTable_stores {s : State} {r : Request} (hs : Claim.clean s) (ho : Claim.openTo s (whoPurser (some r.ctx)))
    (htable : fld r.record 72 8 + 65536 ≤ wheelBase) (hpages : ∀ p ∈ r.pages, p.1 < 4096) :
    Stores s [] (wrPrefillTable r 0) () (r.pages.map (newEntry r)) := by
  refine Stores.forM_each r.pages fun p hp ws => ?_
  have hin : (newEntry r p).1 + (newEntry r p).2.length ≤ wheelBase := by
    have := hpages p hp
    rw [newEntry_length, newEntry]
    omega
  exact .wr hs ho hin

/-- Entries of different positions stand side by side. -/
theorem newEntry_misses {r : Request} {p : Nat × Nat} {l : List (Nat × Nat)} (h : p.1 ∉ l.map (·.1)) :
    Misses (l.map (newEntry r)) (newEntry r p).1 16 := by
  intro w hw
  obtain ⟨x, hx, rfl⟩ := List.mem_map.1 hw
  have hne : p.1 ≠ x.1 := fun heq => h (heq ▸ List.mem_map_of_mem hx)
  rw [newEntry_length]
  simp only [newEntry]
  omega

theorem memRead_newEntry {r : Request} (b : List Host.Cell) {l : List (Nat × Nat)} (hnd : (l.map (·.1)).Nodup) {p : Nat × Nat} (hp : p ∈ l) :
    memRead (memDo b (l.map (newEntry r))) (newEntry r p).1 16 = (newEntry r p).2 := by
  obtain ⟨l₁, l₂, rfl⟩ := List.append_of_mem hp
  rw [List.map_append, List.map_cons, List.nodup_append] at hnd
  obtain ⟨-, hnd, -⟩ := hnd
  rw [List.map_append, List.map_cons]
  exact memRead_memDo_wrote _ (newEntry_length r p).symm (newEntry_misses (List.nodup_cons.1 hnd).1)

/-- The state when the page table names the new pages of a PREFILL that publishes nothing. -/
def prefilled (u : State) (rid : Nat) (r : Request) (m : Model) : State :=
  putReq { u with freeCtr := u.freeCtr + m.vocab } rid { r with state := 3, logits := u.freeCtr }

theorem prefillEnd_done {s : State} {rid : Nat} {r : Request} (m : Model) (hr : getReq s rid = some r) (hs : Claim.clean s)
    (ho : Claim.openTo s (whoPurser (some r.ctx))) (htable : fld r.record 72 8 + 65536 ≤ wheelBase)
    (hpages : ∀ p ∈ r.pages, p.1 < 4096) (hseg : r.segment = none) (haddr : r.addr + 256 ≤ wheelBase) :
    ∃ u t, WroteAll s u (r.pages.map (newEntry r)) ∧ Wrote (prefilled u rid r m) t (r.addr + 184) (toLe 2 3) ∧
      runAct (prefillEnd rid r m) s = (.ok, t) := by
  obtain ⟨u, hu, hw⟩ := (wrPrefillTable_stores hs ho htable hpages).run
  have hur : getReq { u with freeCtr := u.freeCtr + m.vocab } rid = some r := (getReq_of_reqs (by rw [hw.eq]) rid).trans hr
  have hclean : Claim.clean (prefilled u rid r m) := clean_of_mem (hw.clean hs) rfl
  have hopen : Claim.openTo (prefilled u rid r m) (whoPurser (some r.ctx)) := openTo_of_samePrt (.refl _) (hw.openTo ho)
  have hput := recPut_wrote (r := { r with state := 3, logits := u.freeCtr }) hclean hopen (off := 184) (n := 2)
    (by show r.addr + 184 + 2 ≤ wheelBase; omega) 3
  refine ⟨u, _, hw, hput, runAct_ok ?_⟩
  rw [prefillEnd, hseg]
  refine (runActVal_bind_ok hu).trans ?_
  have hact : runActVal (actMod fun s =>
      let s := modReq { s with freeCtr := s.freeCtr + m.vocab } rid fun r => { r with state := 3, logits := s.freeCtr }
      match getReq s rid with
      | some r => recPut s r 184 2 3
      | none => s) u = (.ok (), recPut (prefilled u rid r m) { r with state := 3, logits := u.freeCtr } 184 2 3) := by
    have hget : getReq (prefilled u rid r m) rid = some { r with state := 3, logits := u.freeCtr } := getReq_putReq _ _ _
    have hmod : modReq { u with freeCtr := u.freeCtr + m.vocab } rid (fun r => { r with state := 3, logits := u.freeCtr }) = prefilled u rid r m :=
      modReq_of hur _
    show (Except.ok (), _) = _
    dsimp only
    rw [hmod, hget]
  exact hact

/-! ### What a layer may change -/

/-- Where the layers of a PREFILL may write before the last one ends: its working space, and the request's pages in module `own`. -/
def layerPlaces (own buf : Nat) (r : Request) (m : Model) (a : Nat) : Prop :=
  buf ≤ a ∨ ∃ p ∈ r.pages, globalModule p.2 = own ∧ localPart p.2 ≤ a ∧ a < localPart p.2 + m.pageBytes

section
variable {own : Nat} {R : Nat → Prop} {rid : Nat}

/-- Only the request `rid` changes. -/
def OtherReqs (rid : Nat) (s t : State) : Prop := Claim.otherReqs s t rid

theorem steady_others : Steady (Confines own R (OtherReqs rid)) :=
  steady_confines ⟨fun _ _ _ => rfl, otherReqs_trans⟩

theorem Confines.others {s t : State} (h : Confines own R (LayerStays rid) s t) : Confines own R (OtherReqs rid) s t :=
  h.mono fun hw => hw.1

/-- What follows steps at which the PREFILL stays at its layer. -/
theorem Confines.andThen {s t u : State} {r : Request} (h : Confines own R (LayerStays rid) s t) (hr : getReq s rid = some r)
    (hk : ∀ r', getReq t rid = some r' → (tabGet {} r'.stages 0x14).step = (tabGet {} r.stages 0x14).step →
      Confines own R (OtherReqs rid) t u) : Confines own R (OtherReqs rid) s u := by
  intro hs ho
  obtain ⟨r', hr', hstep⟩ := (h hs ho).rest.2 r hr
  exact steady_others.trans h.others (hk r' hr' hstep) hs ho

theorem confines_prefillSub (s : State) (sub : Nat) : Confines own R (LayerStays rid) s (prefillSub s rid sub) :=
  confines_modReq s _ fun r => by rw [tabGet_modStage]

theorem confines_clearAnswers (s : State) : Confines own R (LayerStays rid) s (clearAnswers s rid) := confines_modReq s _ fun _ => rfl

theorem confines_stageWorked (s : State) (st : Status) : Confines own R (LayerStays rid) s (stageWorked s rid 0x14 st) :=
  confines_modReq s _ fun r => by rw [tabGet_modStage]

theorem confines_pageEntry (w : Who) (r : Request) (p : Nat) : Keeps (Confines own R SameWork) (pageEntry w r p) :=
  Keeps.bind steady_work (confines_rd _ _ _) fun _ => Keeps.pure steady_work _

theorem confines_allPages (w : Who) (r : Request) (last : Nat) : Keeps (Confines own R SameWork) (allPages w r last) := by
  refine Keeps.bind steady_work (Keeps.mapM steady_work _ fun p => ?_) fun _ => Keeps.pure steady_work _
  split
  · exact Keeps.pure steady_work _
  · refine Keeps.bind steady_work (confines_pageEntry _ _ _) fun e => ?_
    split <;> exact Keeps.pure steady_work _

/-- Where the barrier stands: it waits, or fails, or goes on. -/
theorem confines_layerBarrier (s : State) (keys : List Nat) {next : State → State}
    (hnext : Confines own R (OtherReqs rid) (clearAnswers s rid) (next (clearAnswers s rid))) :
    Confines own R (OtherReqs rid) s (layerBarrier s rid keys (fun s st => stageWorked s rid 0x14 st) next) := by
  unfold layerBarrier
  split
  · exact steady_others.refl s
  · split
    · exact steady_others.trans (confines_clearAnswers s).others hnext
    · exact (confines_stageWorked s _).others

section
variable {s : State} {r : Request} {m : Model} (hr : getReq s rid = some r) (hmore : (tabGet {} r.stages 0x14).step < m.layers)
include hr hmore

theorem confines_layerDone : Confines own R (OtherReqs rid) s (layerDone s rid m) := by
  obtain ⟨r1, hr1⟩ : ∃ q : Request, q = r.modStage 0x14 fun g => { g with step := g.step + 1, sub := 0 } := ⟨_, rfl⟩
  have hrow : layerDone s rid m = countStep (putReq s rid r1) (tabGet {} r.stages 0x14).cmd := by
    rw [layerDone, hr]
    dsimp only
    rw [if_pos hmore, modReq_of hr, hr1]
  rw [hrow]
  refine .of_mem ?_ ?_ ?_
  · rw [countStep_mem]; rfl
  · rw [countStep_eq]; rfl
  · exact otherReqs_trans (otherReqs_putReq s rid r1) (otherReqs_of_reqs (countStep_reqs _ _) rid)

/-- The barrier after the attention. -/
theorem confines_attendBarrier (keys : List Nat) : Confines own R (OtherReqs rid) s
    (layerBarrier s rid keys (fun s st => stageWorked s rid 0x14 st) fun s => layerDone s rid m) :=
  confines_layerBarrier s keys (confines_layerDone (r := { r with answers := [] }) (getReq_modReq hr _) hmore)

theorem confines_layerWork {buf : Nat} (g : Stage) (hbuf : ∀ i, buf ≤ i → R i)
    (hkv : ∀ (first last : Nat), Keeps (Confines own R SameWork)
      (kvLayer (whoPurser (some r.ctx)) (modelOf m.record) (g.step - 1) first last r.pages)) :
    Confines own R (OtherReqs rid) s (layerWork s rid buf r g m) := by
  have hwrites {t : State} {q : Request} (ht : getReq t rid = some q) (hq : (tabGet {} q.stages 0x14).step < m.layers) :
      Confines own R (OtherReqs rid) t (layerBarrier t rid ((pageModules r.pages).zipIdx.map fun x => kvAsk x.2)
        (fun s st => stageWorked s rid 0x14 st) fun s => match runActVal (allPages (whoPurser (some r.ctx)) r (r.context - 1)) s with
          | (.error st, s) => stageWorked s rid 0x14 st
          | (.ok pages, s) => layerBarrier (layerAttend (prefillSub s rid 2) rid buf r m (g.step - 1) r.context r.cached (r.context - 1)
              (pageModules r.pages) pages) rid ((pageModules r.pages).zipIdx.map fun x => attendAsk x.2)
              (fun s st => stageWorked s rid 0x14 st) fun s => layerDone s rid m) := by
    have hclear : getReq (clearAnswers t rid) rid = some { q with answers := [] } := getReq_modReq ht _
    have hread := (confines_allPages (own := own) (R := R) (whoPurser (some r.ctx)) r (r.context - 1)).of (clearAnswers t rid)
    refine confines_layerBarrier t _ ?_
    split
    next st v hv =>
      rw [hv] at hread
      exact (steady_layer.trans hread.layer (confines_stageWorked v st)).others
    next pages v hv =>
      rw [hv] at hread
      refine (steady_layer.trans hread.layer (steady_layer.trans (confines_prefillSub v 2) ?_)).andThen hclear
        fun q' hq' hstep => confines_attendBarrier hq' (by rw [hstep]; exact hq) _
      exact steady_layer.foldl (fun z x => confines_ask z _ _ fun y => confines_attendAsk hbuf y _ _ _ _ _ _ _ _) _ _
  unfold layerWork
  dsimp only
  split
  · refine (steady_layer.trans (confines_prefillSub s 1) ?_).andThen hr fun q' hq' hstep => hwrites hq' (by rw [hstep]; exact hmore)
    exact steady_layer.foldl (fun z x => confines_ask z _ _ fun y => confines_kvAsk y _ _ _ _ _ _ (hkv _ _)) _ _
  · exact hwrites hr hmore
  · exact confines_attendBarrier hr hmore _

end

end

/-! ### A layer's row -/

section
variable {s : State} {rid buf : Nat} {r : Request} {m : Model} (h : Claim.prefillOn s rid r m) {g : Stage} (hg : tabGet {} r.stages 0x14 = g)
include h hg

/-- PREFILL_LAYER of a PREFILL whose model record reads well. -/
theorem layer_goes (hstep : g.step ≠ 0) {P : State → Prop}
    (hwork : ∀ v, Charged s v → getReq v rid = some r → P (noteStep (layerWork v rid buf r g m) g.cmd)) : Does (.prefillLayer rid buf) s P := by
  obtain ⟨hon, hs, ho, hread⟩ := h
  rw [hg] at hread
  obtain ⟨v, hv, hch⟩ := (rdModel_reads hs ho hread).run
  have hrow : prefillLayer s rid buf = noteStep (layerWork v rid buf r g m) g.cmd := by
    rw [prefillLayer, stageRow_on hon, hg, if_neg hstep, hv]
  exact does_of (congrArg Host.Outcome.next hrow) (hwork v hch ((hch.getReq rid).trans hon.1))

/-- Every module with new pages is asked to write K and V. -/
theorem layer_writes (hstep : g.step ≠ 0) (hsub : g.sub = 0) (hmods : pageModules r.pages ≠ [])
    (hfar : ∀ x ∈ pageModules r.pages, x ≠ ownModule s ∧ (choosePort s x).isSome = true)
    (hnone : ∀ i, tabFind r.asks (kvAsk i) = none ∧ tabFind r.answers (kvAsk i) = none) : Does (.prefillLayer rid buf) s fun t =>
      (∀ i x, (pageModules r.pages)[i]? = some x →
        Claim.purserTells t x (.ask rid (kvAsk i) (.kv r.ctx m.record (g.step - 1) r.cached (r.context - 1) r.pages))) ∧
      Claim.otherReqs s t rid ∧ t.mem = s.mem ∧ ∃ r', getReq t rid = some r' ∧ tabGet {} r'.stages 0x14 = { g with sub := 1 } := by
  refine layer_goes h hg hstep fun v hch hv => ?_
  obtain ⟨mods, hmods'⟩ : ∃ l, l = pageModules r.pages := ⟨_, rfl⟩
  rw [← hmods'] at hmods hfar ⊢
  obtain ⟨r1, hr1⟩ : ∃ q, q = r.modStage 0x14 fun g => { g with sub := 1 } := ⟨_, rfl⟩
  obtain ⟨u, hu⟩ : ∃ u, u = putReq v rid r1 := ⟨_, rfl⟩
  have hsub1 : prefillSub v rid 1 = u := by rw [prefillSub, modReq_of hv, hu, hr1]
  have hasked : Asked s u rid := (hch.asked rid).trans (by rw [hu]; exact .putReq v rid _)
  have hget : getReq u rid = some r1 := by rw [hu, getReq_putReq]
  obtain ⟨t, ht⟩ : ∃ t, t = mods.zipIdx.foldl (fun s x => ask s rid (kvAsk x.2) x.1
    (.kv r.ctx m.record (g.step - 1) r.cached (r.context - 1) r.pages) buf) u := ⟨_, rfl⟩
  obtain ⟨hall, htells, hreq⟩ := asked_all (buf := buf) (key := fun x : Nat × Nat => kvAsk x.2) (mod := fun x => x.1)
    (q := fun _ => PurserAsk.kv r.ctx m.record (g.step - 1) r.cached (r.context - 1) r.pages) mods.zipIdx hget
    (fun x _ => by rw [hr1]; exact hnone x.2) (zipIdx_keys_nodup mods 256) (fun x hx => by
      rw [hasked.calm.ownModule, hasked.calm.choosePort_isSome]
      exact hfar x.1 (List.fst_mem_of_mem_zipIdx hx))
  rw [← ht] at hall htells hreq
  have hwaits : allAnswered t rid (mods.zipIdx.map fun x => kvAsk x.2) = none := by
    obtain ⟨x, l, hl⟩ := List.exists_cons_of_ne_nil hmods
    refine allAnswered_none hreq (k := kvAsk 0) ?_ (by rw [hr1]; exact (hnone 0).2)
    rw [hl]
    exact List.mem_cons_self
  have hrow : layerWork v rid buf r g m = t := by
    rw [layerWork, hsub]
    dsimp only
    rw [← hmods', hsub1, layerKv, ← hmods', ← ht]
    exact layerBarrier_waits _ _ hwaits
  rw [hrow]
  have hend := hasked.trans hall
  refine ⟨fun i x hx => noteStep_tells (htells (x, i) (List.mem_zipIdx_iff_getElem?.2 hx)) _, (hend.noteStep _).1, (hend.noteStep _).2, _, 
    (noteStep_getReq _ _ _).trans hreq, ?_⟩
  show tabGet {} r1.stages 0x14 = _
  rw [hr1, tabGet_modStage, hg]

/-- With K and V written, every module with new pages is asked for the attention of its queries. -/
theorem layer_attends (hstep : g.step ≠ 0) (hsub : g.sub = 1) (htable : fld r.record 72 8 + 65536 ≤ wheelBase) (hpos : r.context ≤ 1048576)
    (hmods : pageModules r.pages ≠ []) (hfar : ∀ x ∈ pageModules r.pages, x ≠ ownModule s ∧ (choosePort s x).isSome = true)
    (hdone : ∀ i, i < (pageModules r.pages).length → ∃ a, tabFind r.answers (kvAsk i) = some a ∧ a.status.good = true)
    (hnone : ∀ i, tabFind r.asks (attendAsk i) = none) : Does (.prefillLayer rid buf) s fun t =>
      (∀ i x, (pageModules r.pages)[i]? = some x → Claim.purserTells t x (.ask rid (attendAsk i)
        (.attend r.ctx m.record (m.select.getD (g.step - 1) []) (g.step - 1) r.context r.cached (r.context - 1)
          (Claim.pagesTo s r (r.context - 1))))) ∧
      Claim.otherReqs s t rid ∧ t.mem = s.mem ∧ ∃ r', getReq t rid = some r' ∧ tabGet {} r'.stages 0x14 = { g with sub := 2 } := by
  refine layer_goes h hg hstep fun v hch hv => ?_
  obtain ⟨-, hs, ho, -⟩ := h
  obtain ⟨mods, hmods'⟩ : ∃ l, l = pageModules r.pages := ⟨_, rfl⟩
  rw [← hmods'] at hmods hfar hdone ⊢
  obtain ⟨r1, hr1⟩ : ∃ q : Request, q = { r with answers := [] } := ⟨_, rfl⟩
  obtain ⟨u, hu⟩ : ∃ u, u = putReq v rid r1 := ⟨_, rfl⟩
  have hclear : clearAnswers v rid = u := by rw [clearAnswers, modReq_of hv, hu, hr1]
  have hasked : Asked s u rid := (hch.asked rid).trans (by rw [hu]; exact .putReq v rid _)
  obtain ⟨w, hw, hchw⟩ := (allPages_reads (q := r) (last := r.context - 1) (hasked.clean hs) (hasked.openTo ho) htable (by omega)).run
  have hpages : Claim.pagesTo u r (r.context - 1) = Claim.pagesTo s r (r.context - 1) := by
    unfold Claim.pagesTo
    rw [hasked.mem]
  obtain ⟨pages, hpages'⟩ : ∃ l, l = Claim.pagesTo s r (r.context - 1) := ⟨_, rfl⟩
  rw [hpages, ← hpages'] at hw
  have hwget : getReq w rid = some r1 := by rw [hchw.getReq, hu, getReq_putReq]
  obtain ⟨r2, hr2⟩ : ∃ q, q = r1.modStage 0x14 fun g => { g with sub := 2 } := ⟨_, rfl⟩
  obtain ⟨z, hz⟩ : ∃ z, z = putReq w rid r2 := ⟨_, rfl⟩
  have hsub2 : prefillSub w rid 2 = z := by rw [prefillSub, modReq_of hwget, hz, hr2]
  have hzasked : Asked s z rid := (hasked.trans (hchw.asked rid)).trans (by rw [hz]; exact .putReq w rid _)
  have hzget : getReq z rid = some r2 := by rw [hz, getReq_putReq]
  have hasks : r2.asks = r.asks := by rw [hr2, hr1]; rfl
  have hanswers : r2.answers = [] := by rw [hr2, hr1]; rfl
  obtain ⟨q, hq⟩ : ∃ q, q = PurserAsk.attend r.ctx m.record (m.select.getD (g.step - 1) []) (g.step - 1) r.context r.cached
    (r.context - 1) pages := ⟨_, rfl⟩
  obtain ⟨t, ht⟩ : ∃ t, t = mods.zipIdx.foldl (fun s x => ask s rid (attendAsk x.2) x.1 q buf) z := ⟨_, rfl⟩
  obtain ⟨hall, htells, hreq⟩ := asked_all (buf := buf) (key := fun x : Nat × Nat => attendAsk x.2) (mod := fun x => x.1)
    (q := fun _ => q) mods.zipIdx hzget (fun x _ => by rw [hasks, hanswers]; exact ⟨hnone x.2, rfl⟩) (zipIdx_keys_nodup mods 512) (fun x hx => by
      rw [hzasked.calm.ownModule, hzasked.calm.choosePort_isSome]
      exact hfar x.1 (List.fst_mem_of_mem_zipIdx hx))
  rw [← ht] at hall htells hreq
  have hkv : allAnswered v rid (mods.zipIdx.map fun x => kvAsk x.2) = some .ok := allAnswered_good hv fun k hk => by
    obtain ⟨x, hx, rfl⟩ := List.mem_map.1 hk
    exact hdone x.2 (List.snd_lt_of_mem_zipIdx hx)
  have hwaits : allAnswered t rid (mods.zipIdx.map fun x => attendAsk x.2) = none := by
    obtain ⟨x, l, hl⟩ := List.exists_cons_of_ne_nil hmods
    refine allAnswered_none hreq (k := attendAsk 0) ?_ (by show tabFind r2.answers _ = none; rw [hanswers]; rfl)
    rw [hl]
    exact List.mem_cons_self
  have hrow : layerWork v rid buf r g m = t := by
    rw [layerWork, hsub]
    dsimp only
    rw [← hmods', layerBarrier_passes _ _ hkv rfl, hclear, hw]
    dsimp only
    rw [hsub2, layerAttend, ← hq, ← ht]
    exact layerBarrier_waits _ _ hwaits
  have hend := hzasked.trans hall
  rw [hrow]
  refine ⟨fun i x hx => ?_, (hend.noteStep _).1, (hend.noteStep _).2, _, (noteStep_getReq _ _ _).trans hreq, ?_⟩
  · rw [← hpages', ← hq]
    exact noteStep_tells (htells (x, i) (List.mem_zipIdx_iff_getElem?.2 hx)) _
  · show tabGet {} r2.stages 0x14 = _
    rw [hr2, tabGet_modStage, hr1, hg]

/-- A module that fails ends the stage with its status. -/
theorem layer_fails (hstep : g.step ≠ 0) {st : Status} (hbad : st.good = false)
    (hst : g.sub = 1 ∧ allAnswered s rid ((List.range (pageModules r.pages).length).map kvAsk) = some st ∨
      g.sub = 2 ∧ allAnswered s rid ((List.range (pageModules r.pages).length).map attendAsk) = some st) :
    Does (.prefillLayer rid buf) s fun t => Claim.stageDone s t rid 0x14 st ∧ t.mem = s.mem := by
  refine layer_goes h hg hstep fun v hch hv => ?_
  have hreqs : v.pur.reqs = s.pur.reqs := by rw [hch.eq]
  have hrow : layerWork v rid buf r g m = stageWorked v rid 0x14 st := by
    obtain ⟨hsub, hst⟩ | ⟨hsub, hst⟩ := hst
    · have hall : allAnswered v rid ((pageModules r.pages).zipIdx.map fun x => kvAsk x.2) = some st := by
        rw [allAnswered_of_reqs hreqs, ← hst]
        exact congrArg _ (zipIdx_keys _ 256)
      rw [layerWork, hsub]
      exact layerBarrier_fails _ _ hall hbad
    · have hall : allAnswered v rid ((pageModules r.pages).zipIdx.map fun x => attendAsk x.2) = some st := by
        rw [allAnswered_of_reqs hreqs, ← hst]
        exact congrArg _ (zipIdx_keys _ 512)
      rw [layerWork, hsub]
      exact layerBarrier_fails _ _ hall hbad
  obtain ⟨⟨hr, -⟩, -⟩ := h
  rw [hrow]
  refine ⟨stageDone_noteStep (stageDone_stageWorked st hr hv (hch.asked rid).others fun _ _ => rfl) _, ?_⟩
  rw [noteStep_mem, stageWorked_mem, hch.mem]

/-- With the attention of a layer done, the next layer follows. -/
theorem layer_follows (hstep : g.step ≠ 0) (hsub : g.sub = 2)
    (hdone : ∀ i, i < (pageModules r.pages).length → ∃ a, tabFind r.answers (attendAsk i) = some a ∧ a.status.good = true)
    (hmore : g.step < m.layers) : Does (.prefillLayer rid buf) s fun t =>
      Claim.otherReqs s t rid ∧ t.mem = s.mem ∧ Claim.stepCounts s t g.cmd ∧
      ∃ r', getReq t rid = some r' ∧ tabGet {} r'.stages 0x14 = { g with step := g.step + 1, sub := 0 } := by
  refine layer_goes h hg hstep fun v hch hv => ?_
  obtain ⟨z, hz, hzget, hzcalm, hzothers⟩ := layerWork_passes (buf := buf) hv hsub hdone
  obtain ⟨r1, hr1⟩ : ∃ q : Request, q = ({ r with answers := [] } : Request).modStage 0x14
    fun g => { g with step := g.step + 1, sub := 0 } := ⟨_, rfl⟩
  have hstage : tabGet {} r1.stages 0x14 = { g with step := g.step + 1, sub := 0 } := by rw [hr1, tabGet_modStage]; rw [← hg]
  have hrow : layerWork v rid buf r g m = countStep (putReq z rid r1) g.cmd := by
    rw [hz, layerDone, hzget]
    dsimp only
    rw [hg, if_pos hmore, modReq_of hzget, hr1]
  rw [hrow]
  have hcmds : (putReq z rid r1).pur.cmds = s.pur.cmds := by rw [hzcalm, hch.eq]; rfl
  refine ⟨fun i hi => ?_, ?_, stepCounts_noteStep (countStep_counts hcmds g.cmd), r1, ?_, hstage⟩
  · rw [noteStep_getReq, getReq_of_reqs (countStep_reqs _ _), getReq_putReq_ne _ _ hi, hzothers i hi, hch.getReq]
  · rw [noteStep_mem, countStep_mem, ← hch.mem, hzcalm]
    rfl
  · rw [noteStep_getReq, getReq_of_reqs (countStep_reqs _ _), getReq_putReq]

/-- After the last layer the page table names the new pages, and the request waits for decoding. -/
theorem layer_ends (hstep : g.step ≠ 0) (hsub : g.sub = 2) (htable : fld r.record 72 8 + 65536 ≤ wheelBase)
    (hdone : ∀ i, i < (pageModules r.pages).length → ∃ a, tabFind r.answers (attendAsk i) = some a ∧ a.status.good = true)
    (hlast : g.step = m.layers) (hseg : r.segment = none) (haddr : r.addr + 256 ≤ wheelBase)
    (hapart : Claim.apart (fld r.record 72 8, 65536) r.addr 256) (hpages : ∀ p ∈ r.pages, p.1 < 4096)
    (hnd : (r.pages.map (·.1)).Nodup) : Does (.prefillLayer rid buf) s fun t =>
      Claim.stageDone s t rid 0x14 .ok ∧ Claim.stepCounts s t g.cmd ∧ (∀ r', getReq t rid = some r' → r'.state = 3) ∧
      (∀ p ∈ r.pages, memRead t.mem.bytes (fld r.record 72 8 + 16 * p.1) 16 =
        toLe 8 p.2 ++ toLe 2 (min 256 (r.context - 256 * p.1)) ++ toLe 2 1 ++ toLe 4 0) ∧
      leNat (memRead t.mem.bytes (r.addr + 184) 2) = 3 ∧
      ∀ a, (∀ p ∈ r.pages, a < fld r.record 72 8 + 16 * p.1 ∨ fld r.record 72 8 + 16 * p.1 + 16 ≤ a) →
        a < r.addr + 184 ∨ r.addr + 186 ≤ a → memGet t.mem.bytes a = memGet s.mem.bytes a := by
  refine layer_goes h hg hstep fun v hch hv => ?_
  obtain ⟨⟨hr, -⟩, hs, ho, -⟩ := h
  obtain ⟨z, hz, hzget, hzeq, hzothers⟩ := layerWork_passes (buf := buf) hv hsub hdone
  have hzmem : z.mem = s.mem := by rw [hzeq, hch.eq]
  have hzclean : Claim.clean z := clean_of_mem hs hzmem
  have hzopen : Claim.openTo z (whoPurser (some r.ctx)) :=
    openTo_of_samePrt (by rw [hzeq]; exact .refl _) (openTo_of_samePrt hch.prt ho)
  obtain ⟨u, t, hu, ht, hrun⟩ := prefillEnd_done m hzget hzclean hzopen htable hpages hseg haddr
  have hpur : t.pur = (prefilled u rid { r with answers := [] } m).pur := ht.pur
  have hupur : u.pur = z.pur := by rw [hu.eq]
  obtain ⟨r1, hr1⟩ : ∃ q : Request, q = { r with answers := [], state := 3, logits := u.freeCtr } := ⟨_, rfl⟩
  have htget : getReq t rid = some r1 := by
    rw [getReq_of_reqs (s := prefilled u rid { r with answers := [] } m) (by rw [hpur]) rid, prefilled, getReq_putReq, hr1]
  have hothers : Claim.otherReqs s t rid := by
    refine otherReqs_trans (hch.asked rid).others (otherReqs_trans hzothers ?_)
    refine otherReqs_trans (t := u) (otherReqs_of_reqs (by rw [hupur]) rid) fun i hi => ?_
    rw [getReq_of_reqs (s := prefilled u rid { r with answers := [] } m) (by rw [hpur]) i, prefilled, getReq_putReq_ne _ _ hi]
    rfl
  have hcmds : t.pur.cmds = s.pur.cmds := by
    rw [hpur]
    show u.pur.cmds = _
    rw [hupur, hzeq, hch.eq]
  have hcget : getReq (countStep t g.cmd) rid = some r1 := (getReq_of_reqs (countStep_reqs _ _) rid).trans htget
  have hrow : layerWork v rid buf r g m = stageWorked (countStep t g.cmd) rid 0x14 .ok := by
    rw [hz, layerDone, hzget]
    dsimp only
    rw [hg, if_neg (by omega), hrun]
  have hcounts := countStep_counts hcmds g.cmd
  have hmem : (stageWorked (countStep t g.cmd) rid 0x14 .ok).mem = t.mem := by rw [stageWorked_mem, countStep_mem]
  have hbytes : t.mem.bytes = memWrite (memDo s.mem.bytes (r.pages.map (newEntry r))) (r.addr + 184) (toLe 2 3) := by
    rw [← hzmem, ht.bytes]
    exact congrArg (memWrite · _ _) hu.bytes
  rw [hrow]
  refine ⟨stageDone_noteStep (stageDone_stageWorked .ok hr hcget ?_ fun o _ => by rw [hr1]) _, ?_, ?_, fun p hp => ?_, ?_, fun a hout hstate => ?_⟩
  · exact otherReqs_trans hothers (otherReqs_of_reqs (countStep_reqs _ _) rid)
  · refine stepCounts_noteStep fun c hc => ?_
    rw [getCmd_of_cmds (s := countStep t g.cmd) (by rw [stageWorked, modReq_of hcget]; rfl)]
    exact hcounts c hc
  · intro r' hr'
    rw [noteStep_getReq, stageWorked, getReq_modReq hcget] at hr'
    rw [← Option.some.inj hr', hr1]
    rfl
  · have hmiss : fld r.record 72 8 + 16 * p.1 + 16 ≤ r.addr + 184 ∨ r.addr + 184 + (toLe 2 3).length ≤ fld r.record 72 8 + 16 * p.1 := by
      have hp' := hpages p hp
      rw [toLe_length]
      rcases hapart with hap | hap <;> simp only at hap <;> omega
    rw [noteStep_mem, hmem, hbytes]
    exact (memRead_memWrite_apart _ _ _ _ _ hmiss).trans (memRead_newEntry _ hnd hp)
  · rw [noteStep_mem, hmem, recPut_field ht]
    rfl
  · rw [noteStep_mem, hmem, hbytes, memGet_memWrite, toLe_length, if_neg (by omega)]
    refine memGet_memDo_misses fun w hw => ?_
    obtain ⟨p, hp, rfl⟩ := List.mem_map.1 hw
    have := hout p hp
    rw [newEntry_length]
    simp only [newEntry]
    omega

/-- Before the last layer ends, nothing below the working space changes but pages of the request. -/
theorem layer_frame (hstep : g.step ≠ 0) (hmore : g.step < m.layers) : Does (.prefillLayer rid buf) s fun t =>
    Claim.otherReqs s t rid ∧ ∀ a, a < buf → (∀ p ∈ r.pages, globalModule p.2 = ownModule s →
      a < localPart p.2 ∨ localPart p.2 + m.pageBytes ≤ a) → memGet t.mem.bytes a = memGet s.mem.bytes a := by
  refine layer_goes h hg hstep fun v hch hv => ?_
  obtain ⟨-, hs, -, hread⟩ := h
  obtain ⟨-, -, -, -, -, ⟨-, -, hdim⟩, -, -, hpage, -, -, -, hm⟩ := hread
  have hof : modelOf m.record = { kvfmt := m.kvfmt, layers := m.layers, heads := m.heads, dim := m.dim, record := m.record } := by rw [hm]; rfl
  have hsize : m.pageBytes = pageSize m.layers m.heads m.kvfmt m.dim := by rw [hm]; exact hpage
  have hmdim : m.dim % 64 = 0 := by rw [hm]; exact hdim
  have hconf : Confines (ownModule s) (layerPlaces (ownModule s) buf r m) (OtherReqs rid) v (layerWork v rid buf r g m) := by
    refine confines_layerWork hv (by rw [hg]; exact hmore) g (fun i hi => .inl hi) fun first last => confines_kvLayer _ _ _ _ ?_ ?_ ?_
    · rw [hof]; exact hmdim
    · rw [hof]; dsimp only; omega
    · rw [hof, ← hsize]
      exact fun p hp hown i h1 h2 => .inr ⟨p, hp, hown, h1, h2⟩
  have hown : ownModule v = ownModule s := by rw [hch.eq]; rfl
  obtain ⟨-, -, hkept, hothers⟩ := hconf (clean_of_mem hs hch.mem) hown
  refine ⟨otherReqs_trans (otherReqs_trans (hch.asked rid).others hothers) (otherReqs_of_reqs (noteStep_reqs _ _) rid), fun a ha hp => ?_⟩
  rw [noteStep_mem, ← hch.mem]
  refine hkept a ?_
  rintro (hle | ⟨p, hpm, hpo, h1, h2⟩)
  · omega
  · have := hp p hpm hpo
    omega

end

theorem layersRun : Claim.layersRun := by
  intro rid buf r m s h
  obtain ⟨g, hg⟩ : ∃ g, tabGet {} r.stages 0x14 = g := ⟨_, rfl⟩
  dsimp only
  rw [hg]
  intro hstep hle htable hpos
  have hne : g.step ≠ 0 := by omega
  refine ⟨fun hsub hmods hfar hnone => layer_writes h hg hne hsub hmods hfar hnone,
    fun hsub hmods hfar hdone hnone => layer_attends h hg hne hsub htable hpos hmods hfar hdone hnone,
    fun hsub hdone => ⟨fun hmore => layer_follows h hg hne hsub hdone hmore, fun hlast hseg haddr hapart hpages hnd =>
      layer_ends h hg hne hsub htable hdone hlast hseg haddr hapart hpages hnd⟩,
    fun st hst hbad => layer_fails h hg hne hbad hst, fun hmore => layer_frame h hg hne hmore⟩

end Sys2Proof.Proofs
end

