-- ==== Sys2Proof/Proofs/PoolPages.lean ====
section
/-! PROOFS. Pages of a local pool: which are free, and what taking some of them leaves (spec/13 R323, R326). -/

namespace Sys2Proof.Proofs

open Sys2Proof Sys2Proof.Machine Sys2Proof.Laws

section
variable {pool n pb : Nat}

theorem freeInPool_nodup (hpb : 0 < pb) (s : State) : (freeInPool s pool n pb).Nodup := by
  refine (List.nodup_range.map fun i j h => ?_).filter _
  exact Nat.eq_of_mul_eq_mul_right hpb (Nat.add_left_cancel h)

theorem freeInPool_lt (hpb : 0 < pb) {s : State} {a : Nat} (h : a ∈ freeInPool s pool n pb) : a < pool + n * pb := by
  obtain ⟨i, hi, rfl⟩ := List.mem_map.1 (List.mem_filter.1 h).1
  exact Nat.add_lt_add_left (Nat.mul_lt_mul_of_pos_right (List.mem_range.1 hi) hpb) pool

theorem freeInPool_of_kv {s t : State} (h : t.pur.kv = s.pur.kv) : freeInPool t pool n pb = freeInPool s pool n pb := by
  rw [freeInPool, h, freeInPool]

/-- A page that is taken is no longer free; the others are as before. -/
theorem freeInPool_taken {s t : State} {a : Nat} (h : t.pur.kv = a :: s.pur.kv) :
    freeInPool t pool n pb = (freeInPool s pool n pb).filter (· != a) := by
  rw [freeInPool, h, freeInPool, List.filter_filter]
  refine List.filter_congr fun x _ => ?_
  rw [List.contains_cons, Bool.not_or]
  rfl

theorem freeInPool_taken_length (hpb : 0 < pb) {s t : State} {a : Nat} (h : t.pur.kv = a :: s.pur.kv) (ha : a ∈ freeInPool s pool n pb) :
    (freeInPool t pool n pb).length + 1 = (freeInPool s pool n pb).length := by
  rw [freeInPool_taken h, ← (freeInPool_nodup hpb s).erase_eq_filter, List.length_erase_of_mem ha]
  have := List.length_pos_of_mem ha
  omega

/-- The page that is taken next. -/
def nextPage (s : State) (pool n pb : Nat) : Nat :=
  (freeInPool s pool n pb).getD ((takeFree s).1 % (freeInPool s pool n pb).length) 0

/-- The state when it is taken. -/
def pageTaken (s : State) (pool n pb : Nat) : State :=
  { (takeFree s).2 with pur := { (takeFree s).2.pur with kv := nextPage s pool n pb :: (takeFree s).2.pur.kv } }

theorem takePages_succ (s : State) (k : Nat) : takePages pool n pb (k + 1) s = if freeInPool s pool n pb = [] then none else
    match takePages pool n pb k (pageTaken s pool n pb) with
    | some (as, t) => some (nextPage s pool n pb :: as, t)
    | none => none := rfl

theorem nextPage_mem {s : State} (h : freeInPool s pool n pb ≠ []) : nextPage s pool n pb ∈ freeInPool s pool n pb := by
  have hlt := Nat.mod_lt (takeFree s).1 (List.length_pos_iff.2 h)
  rw [nextPage, List.getD_eq_getElem _ _ hlt]
  exact List.getElem_mem hlt

/-- What taking pages leaves: only which are held, and the supply of free values. -/
structure Took (s t : State) (as : List Nat) : Prop where
  eq : t = { s with freeCtr := t.freeCtr, pur := { s.pur with kv := t.pur.kv } }
  held : ∀ a, a ∈ as ∨ a ∈ s.pur.kv → a ∈ t.pur.kv

/-- A pool with enough free pages gives them, each once. -/
theorem takePages_enough (hpb : 0 < pb) (k : Nat) : ∀ {s : State}, k ≤ (freeInPool s pool n pb).length →
    ∃ as t, takePages pool n pb k s = some (as, t) ∧ as.length = k ∧ as.Nodup ∧ (∀ a ∈ as, a ∈ freeInPool s pool n pb) ∧ Took s t as := by
  induction k with
  | zero => exact fun {s} _ => ⟨[], s, rfl, rfl, .nil, fun _ h => absurd h List.not_mem_nil, rfl, fun a h => h.resolve_left List.not_mem_nil⟩
  | succ k ih =>
    intro s hk
    have hne : freeInPool s pool n pb ≠ [] := List.length_pos_iff.1 (by omega)
    have hmem := nextPage_mem hne
    obtain ⟨a, ha⟩ : ∃ a, a = nextPage s pool n pb := ⟨_, rfl⟩
    have hkv : (pageTaken s pool n pb).pur.kv = a :: s.pur.kv := by rw [ha]; rfl
    rw [← ha] at hmem
    have hlen := freeInPool_taken_length (n := n) hpb hkv hmem
    obtain ⟨as, t, ht, hlen', hnd, hfree, heq, hheld⟩ := ih (s := pageTaken s pool n pb) (by omega)
    have hfree' {b : Nat} (hb : b ∈ as) : b ∈ freeInPool s pool n pb ∧ b ≠ a := by
      have hb' := hfree b hb
      rw [freeInPool_taken hkv] at hb'
      obtain ⟨h1, h2⟩ := List.mem_filter.1 hb'
      exact ⟨h1, by simpa using h2⟩
    refine ⟨a :: as, t, ?_, by rw [List.length_cons, hlen'], List.nodup_cons.2 ⟨fun h => (hfree' h).2 rfl, hnd⟩, ?_, ?_, ?_⟩
    · rw [takePages_succ, if_neg hne, ht, ha]
    · intro b hb
      obtain rfl | hb := List.mem_cons.1 hb
      · exact hmem
      · exact (hfree' hb).1
    · rw [heq]
      rfl
    · intro b hb
      refine hheld b ?_
      rw [hkv]
      obtain hb | hb := hb
      · obtain rfl | hb := List.mem_cons.1 hb
        · exact .inr List.mem_cons_self
        · exact .inl hb
      · exact .inr (List.mem_cons_of_mem _ hb)

/-- A pool with too few gives none. -/
theorem takePages_lacks (hpb : 0 < pb) (k : Nat) : ∀ {s : State}, (freeInPool s pool n pb).length < k → takePages pool n pb k s = none := by
  induction k with
  | zero => exact fun h => absurd h (Nat.not_lt_zero _)
  | succ k ih =>
    intro s hk
    rw [takePages_succ]
    split
    · rfl
    next hne =>
      have hlen : (freeInPool (pageTaken s pool n pb) pool n pb).length + 1 = (freeInPool s pool n pb).length :=
        freeInPool_taken_length hpb rfl (nextPage_mem hne)
      rw [ih (s := pageTaken s pool n pb) (by omega)]

theorem kvTakeWork_gives {s t : State} {k : Nat} {as : List Nat} (h : takePages pool n pb k s = some (as, t)) :
    runActVal (kvTakeWork pool n pb k) s = (.ok (as.map fun a => toLe 8 (globalAddr (ownModule t) a)), t) := by
  rw [kvTakeWork, runActVal_get_bind, h]
  dsimp only
  rw [runActVal_set_bind, runActVal_pure]

theorem kvTakeWork_lacks {s : State} {k : Nat} (h : takePages pool n pb k s = none) :
    runActVal (kvTakeWork pool n pb k) s = (.error .mapOverflow, s) := by
  rw [kvTakeWork, runActVal_get_bind, h]
  dsimp only
  rw [runActVal_throw]

end

/-! ### Global addresses of pages -/

section
variable {own a : Nat} (ha : a < 2 ^ 48)
include ha

theorem localPart_globalAddr : localPart (globalAddr own a) = a := by
  rw [localPart, globalAddr, Nat.mul_comm, Nat.mul_add_mod, Nat.mod_eq_of_lt ha]

theorem globalModule_globalAddr (hown : own < 4096) : globalModule (globalAddr own a) = own := by
  rw [globalModule, bits, globalAddr, Nat.mul_comm, Nat.mul_add_div (by decide), Nat.div_eq_of_lt ha]
  exact Nat.mod_eq_of_lt hown

theorem leNat_globalAddr (hown : own < 4096) : leNat (toLe 8 (globalAddr own a)) = globalAddr own a := by
  refine leNat_toLe_of_lt ?_
  rw [globalAddr]
  omega

end

end Sys2Proof.Proofs
end

