-- ==== Sys2Proof/Proofs/PageTakes.lean ====
section
/-! PROOFS. PREFILL takes the pages of the new positions: the segment to publish, the chunks of the group, and what came back
(spec/13 R325, R326, R328). -/

namespace Sys2Proof.Proofs

open Sys2Proof Sys2Proof.Machine Sys2Proof.Laws

/-! ### One turn of a PREFILL -/

/-- A PREFILL that has no pages yet runs, and its model record reads well. -/
structure Reading (rid : Nat) (q : Request) (m : Model) (u : State) : Prop where
  req : getReq u rid = some q
  clean : Claim.clean u
  openTo : Claim.openTo u (whoPurser (some q.ctx))
  reads : Claim.modelRead u (tabGet {} q.stages 0x14).param (fld q.record 16 8) m
  runs : (tabGet {} q.stages 0x14).phase = .running
  step : (tabGet {} q.stages 0x14).step = 0

/-- Two requests that differ in what they have asked, in their answers and pages, and in where PREFILL stands. -/
structure SameReading (q q' : Request) : Prop where
  ctx : q'.ctx = q.ctx
  record : q'.record = q.record
  cached : q'.cached = q.cached
  context : q'.context = q.context
  others : ∀ o, o ≠ 0x14 → tabFind q'.stages o = tabFind q.stages o
  stage : ∃ k, tabGet {} q'.stages 0x14 = { tabGet {} q.stages 0x14 with sub := k }

theorem SameReading.of_stages {q q' : Request} (hctx : q'.ctx = q.ctx) (hrec : q'.record = q.record) (hcached : q'.cached = q.cached)
    (hcontext : q'.context = q.context) (hstages : q'.stages = q.stages) : SameReading q q' :=
  ⟨hctx, hrec, hcached, hcontext, fun o _ => by rw [hstages], _, by rw [hstages]⟩

theorem SameReading.trans {q q' q'' : Request} (h : SameReading q q') (h' : SameReading q' q'') : SameReading q q'' := by
  obtain ⟨k, hk⟩ := h.stage
  obtain ⟨k', hk'⟩ := h'.stage
  exact ⟨h'.ctx.trans h.ctx, h'.record.trans h.record, h'.cached.trans h.cached, h'.context.trans h.context,
    fun o ho => (h'.others o ho).trans (h.others o ho), k', by rw [hk', hk]⟩

theorem SameReading.newPages {q q' : Request} (h : SameReading q q') : newPages q' = newPages q := by
  rw [Machine.newPages, h.cached, h.context, Machine.newPages]

theorem modelRead_of_mem {s t : State} (h : t.mem = s.mem) {a tok : Nat} {m : Model} (hr : Claim.modelRead s a tok m) : Claim.modelRead t a tok m := by
  unfold Claim.modelRead Claim.modelRegions at hr ⊢
  rw [h]
  exact hr

theorem Reading.after {rid : Nat} {q q' : Request} {m : Model} {u t : State} (h : Reading rid q m u) (hmem : t.mem = u.mem)
    (hprt : SamePrt u.prt t.prt) (hreq : getReq t rid = some q') (hq : SameReading q q') : Reading rid q' m t := by
  obtain ⟨hctx, hrec, -, -, -, k, hstage⟩ := hq
  exact {
    req := hreq
    clean := clean_of_mem h.clean hmem
    openTo := by rw [hctx]; exact openTo_of_samePrt hprt h.openTo
    reads := by rw [hstage, hrec]; exact modelRead_of_mem hmem h.reads
    runs := by rw [hstage]; exact h.runs
    step := by rw [hstage]; exact h.step }

theorem Reading.charged {rid : Nat} {q : Request} {m : Model} {u v : State} (h : Reading rid q m u) (hc : Charged u v) : Reading rid q m v :=
  h.after hc.mem hc.prt ((hc.getReq rid).trans h.req) (.of_stages rfl rfl rfl rfl rfl)

/-- What a PREFILL does next, as far as its pages are concerned. -/
def prefillNext (rid buf : Nat) (q : Request) (m : Model) (v : State) : State :=
  match (tabGet {} q.stages 0x14).sub with
  | 0 => prefillAsks v rid buf m
  | 1 => prefillChunks v rid buf q m
  | _ => prefillGranted v rid buf q m

section
variable {rid buf : Nat} {q : Request} {m : Model} {u : State}

theorem prefillWork_succ (h : Reading rid q m u) : ∃ v, Charged u v ∧ ∀ f, prefillWork rid buf (f + 1) u =
    match (tabGet {} q.stages 0x14).sub with
    | 0 => prefillWork rid buf f (prefillAsks v rid buf m)
    | 1 => prefillWork rid buf f (prefillChunks v rid buf q m)
    | 2 => prefillWork rid buf f (prefillGranted v rid buf q m)
    | _ => match Machine.answered v rid copyAsk with
      | none => v
      | some a => if a.status.good then prefillReady (clearAnswers v rid) rid else stageWorked v rid 0x14 a.status := by
  obtain ⟨v, hv, hch⟩ := (rdModel_reads h.clean h.openTo h.reads).run
  refine ⟨v, hch, fun f => ?_⟩
  have hgo : ¬ ((!(tabGet {} q.stages 0x14).runs || decide ((tabGet {} q.stages 0x14).step ≠ 0)) = true) := by
    rw [Stage.runs, h.runs, h.step]
    decide
  rw [prefillWork, h.req]
  dsimp only
  rw [if_neg hgo, hv] <;> rfl

/-- A turn before the copy of the first page. -/
theorem prefillWork_turn (h : Reading rid q m u) (hsub : (tabGet {} q.stages 0x14).sub < 3) :
    ∃ v, Charged u v ∧ ∀ f, prefillWork rid buf (f + 1) u = prefillWork rid buf f (prefillNext rid buf q m v) := by
  obtain ⟨v, hch, hturn⟩ := prefillWork_succ (buf := buf) h
  refine ⟨v, hch, fun f => ?_⟩
  rw [hturn, prefillNext]
  generalize (tabGet {} q.stages 0x14).sub = k at hsub ⊢
  match k, hsub with
  | 0, _ => rfl
  | 1, _ => rfl
  | 2, _ => rfl

/-- The turn after the copy of the first page has been asked for. -/
theorem prefillWork_copy (h : Reading rid q m u) (hsub : (tabGet {} q.stages 0x14).sub = 3) :
    ∃ v, Charged u v ∧ ∀ f, prefillWork rid buf (f + 1) u = match Machine.answered v rid copyAsk with
      | none => v
      | some a => if a.status.good then prefillReady (clearAnswers v rid) rid else stageWorked v rid 0x14 a.status := by
  obtain ⟨v, hch, hturn⟩ := prefillWork_succ (buf := buf) h
  refine ⟨v, hch, fun f => ?_⟩
  rw [hturn, hsub]
  rfl

/-- A PREFILL that has its pages, or has ended, goes no further here. -/
theorem prefillWork_stops (hr : getReq u rid = some q) (h : (tabGet {} q.stages 0x14).phase ≠ .running ∨ (tabGet {} q.stages 0x14).step ≠ 0)
    (f : Nat) : prefillWork rid buf f u = u := by
  cases f with
  | zero => rfl
  | succ f =>
    rw [prefillWork, hr]
    dsimp only
    rw [if_pos]
    rw [Bool.or_eq_true, Bool.not_eq_true', decide_eq_true_eq]
    refine h.imp (fun hp => ?_) id
    rw [Stage.runs]
    split
    next hrun => exact absurd hrun hp
    next => rfl

/-- A PREFILL that waits only reads its model record. -/
theorem prefillWork_idle (hsub : (tabGet {} q.stages 0x14).sub < 3) (hidle : ∀ v, getReq v rid = some q → prefillNext rid buf q m v = v) (f : Nat) :
    ∀ {u : State}, Reading rid q m u → ∃ v, Charged u v ∧ prefillWork rid buf f u = v := by
  induction f with
  | zero => exact fun {u} _ => ⟨u, .refl u, rfl⟩
  | succ f ih =>
    intro u h
    obtain ⟨v, hv, hturn⟩ := prefillWork_turn (buf := buf) h hsub
    obtain ⟨w, hw, hrest⟩ := ih (h.charged hv)
    exact ⟨w, hv.trans hw, by rw [hturn, hidle v ((hv.getReq rid).trans h.req), hrest]⟩

end

/-! ### Questions of a PREFILL -/

/-- The question for the pages of chunk `i` of `n` pages. -/
def chunkQuestion (rid buf : Nat) (m : Model) (n : Nat) (s : State) (i : Nat) : State :=
  ask s rid (chunkAsk i) (m.group.getD i (0, 0, 0)).1
    (.kvTake (m.group.getD i (0, 0, 0)).2.1 (m.group.getD i (0, 0, 0)).2.2 m.pageBytes (chunkPages m n i)) buf

section
variable {rid buf : Nat} {q : Request} {m : Model} {u : State} (h : Reading rid q m u)
include h

/-- The request with its PREFILL further on. -/
theorem prefillSub_reads {v : State} (hv : Charged u v) (k : Nat) : ∃ q', q'.asks = q.asks ∧ q'.answers = q.answers ∧ SameReading q q' ∧
    tabGet {} q'.stages 0x14 = { tabGet {} q.stages 0x14 with sub := k } ∧ Reading rid q' m (prefillSub v rid k) ∧
    Asked u (prefillSub v rid k) rid := by
  obtain ⟨q', hq'⟩ : ∃ q', q' = q.modStage 0x14 fun g => { g with sub := k } := ⟨_, rfl⟩
  have hsub : prefillSub v rid k = putReq v rid q' := by rw [prefillSub, modReq_of ((hv.getReq rid).trans h.req), hq']
  have hstage : tabGet {} q'.stages 0x14 = { tabGet {} q.stages 0x14 with sub := k } := by rw [hq', tabGet_modStage]
  have hasked : Asked u (putReq v rid q') rid := (hv.asked rid).trans (.putReq v rid q')
  have hsame : SameReading q q' :=
    ⟨by rw [hq']; rfl, by rw [hq']; rfl, by rw [hq']; rfl, by rw [hq']; rfl, fun o ho => by rw [hq', tabFind_modStage_ne _ _ ho], k, hstage⟩
  rw [hsub]
  exact ⟨q', by rw [hq']; rfl, by rw [hq']; rfl, hsame, hstage, h.after hasked.mem hasked.prt (getReq_putReq _ _ _) hsame, hasked⟩

variable (hasks : q.asks = []) (hans : q.answers = [])
include hasks hans

/-- A segment to publish is asked about, and its answer awaited. -/
theorem publish_asked (hsub : (tabGet {} q.stages 0x14).sub = 0) (hpub : m.publish ≠ 0) (hfar : globalModule m.publish ≠ ownModule u)
    (hpath : (choosePort u (globalModule m.publish)).isSome = true) (f : Nat) : Asked u (prefillWork rid buf (f + 1) u) rid ∧
      Claim.purserTells (prefillWork rid buf (f + 1) u) (globalModule m.publish) (.ask rid segmentAsk (.segRead (localPart m.publish))) ∧
      ∃ r', getReq (prefillWork rid buf (f + 1) u) rid = some r' ∧ tabGet {} r'.stages 0x14 = { tabGet {} q.stages 0x14 with sub := 1 } := by
  obtain ⟨v, hv, hturn⟩ := prefillWork_turn (buf := buf) h (by rw [hsub]; decide)
  obtain ⟨q1, hasks1, hans1, -, hstage1, hread1, hasked1⟩ := prefillSub_reads h hv 1
  rw [hasks] at hasks1
  rw [hans] at hans1
  obtain ⟨hasked, htells, hget⟩ := asked_far (key := segmentAsk) hread1.req (.segRead (localPart m.publish)) buf (by rw [hasks1]; rfl)
    (by rw [hans1]; rfl) (by rw [hasked1.calm.ownModule]; exact hfar) (by rw [hasked1.calm.choosePort_isSome]; exact hpath)
  obtain ⟨t, ht⟩ : ∃ t, t = ask (prefillSub v rid 1) rid segmentAsk (globalModule m.publish) (.segRead (localPart m.publish)) buf := ⟨_, rfl⟩
  rw [← ht] at hasked htells hget
  obtain ⟨q2, hq2⟩ : ∃ q2, q2 = { q1 with asks := tabPut q1.asks segmentAsk (globalModule m.publish) } := ⟨_, rfl⟩
  rw [← hq2] at hget
  have hans2 : q2.answers = [] := by rw [hq2]; exact hans1
  have hstage2 : tabGet {} q2.stages 0x14 = { tabGet {} q.stages 0x14 with sub := 1 } := by rw [hq2]; exact hstage1
  have hnext : prefillNext rid buf q m v = t := by
    rw [prefillNext, hsub, ht]
    exact if_neg hpub
  have hread2 : Reading rid q2 m t := hread1.after hasked.mem hasked.prt hget
    (.of_stages (by rw [hq2]) (by rw [hq2]) (by rw [hq2]) (by rw [hq2]) (by rw [hq2]))
  obtain ⟨w, hw, hrest⟩ := prefillWork_idle (buf := buf) (by rw [hstage2]; show 1 < 3; decide) (fun z hz => by
    rw [prefillNext, hstage2]
    show prefillChunks z rid buf q2 m = z
    rw [prefillChunks]
    dsimp only
    rw [if_neg hpub, answered_of hz, hans2]
    rfl) f hread2
  rw [hturn, hnext, hrest]
  exact ⟨(hasked1.trans hasked).trans (hw.asked rid), (hw.asked rid).calm.tells htells, q2, (hw.getReq rid).trans hget, hstage2⟩

/-- Without a segment to publish, the pages of the chunks are asked for at once. -/
theorem chunks_asked (hsub : (tabGet {} q.stages 0x14).sub = 0) (hpub : m.publish = 0) : ∃ w q2, Asked u w rid ∧ Reading rid q2 m w ∧
    q2.asks = [] ∧ q2.answers = [] ∧ SameReading q q2 ∧ tabGet {} q2.stages 0x14 = { tabGet {} q.stages 0x14 with sub := 2 } ∧
    ∀ f, prefillWork rid buf (f + 2) u = prefillWork rid buf f ((chunkMembers m (newPages q).2).foldl (chunkQuestion rid buf m (newPages q).2) w) := by
  obtain ⟨v, hv, hturn⟩ := prefillWork_turn (buf := buf) h (by rw [hsub]; decide)
  obtain ⟨q1, hasks1, hans1, hsame1, hstage1, hread1, hasked1⟩ := prefillSub_reads h hv 1
  have hnext1 : prefillNext rid buf q m v = prefillSub v rid 1 := by
    rw [prefillNext, hsub]
    exact if_pos hpub
  obtain ⟨v', hv', hturn'⟩ := prefillWork_turn (buf := buf) hread1 (by rw [hstage1]; show 1 < 3; decide)
  obtain ⟨q2, hasks2, hans2, hsame2, hstage2, hread2, hasked2⟩ := prefillSub_reads hread1 hv' 2
  have hnext2 : prefillNext rid buf q1 m v' =
      (chunkMembers m (newPages q).2).foldl (chunkQuestion rid buf m (newPages q).2) (prefillSub v' rid 2) := by
    rw [prefillNext, hstage1, ← hsame1.newPages]
    exact if_pos hpub
  refine ⟨prefillSub v' rid 2, q2, hasked1.trans hasked2, hread2, hasks2.trans (hasks1.trans hasks), hans2.trans (hans1.trans hans),
    hsame1.trans hsame2, by rw [hstage2, hstage1], fun f => ?_⟩
  rw [hturn, hnext1, hturn', hnext2]

/-- Pools on other modules are asked, and their answers awaited. -/
theorem far_chunks (hsub : (tabGet {} q.stages 0x14).sub = 0) (hpub : m.publish = 0) (hn : (newPages q).2 ≠ 0)
    (hfar : ∀ x ∈ m.group, x.1 ≠ ownModule u ∧ (choosePort u x.1).isSome = true) (f : Nat) : Asked u (prefillWork rid buf (f + 2) u) rid ∧
      (∀ i x, m.group[i]? = some x → chunkPages m (newPages q).2 i ≠ 0 → Claim.purserTells (prefillWork rid buf (f + 2) u) x.1
        (.ask rid (chunkAsk i) (.kvTake x.2.1 x.2.2 m.pageBytes (chunkPages m (newPages q).2 i)))) ∧
      ∃ r', getReq (prefillWork rid buf (f + 2) u) rid = some r' ∧ tabGet {} r'.stages 0x14 = { tabGet {} q.stages 0x14 with sub := 2 } := by
  obtain ⟨w, q2, hasked2, hread2, hasks2, hans2, hsame2, hstage2, hturns⟩ := chunks_asked (buf := buf) h hasks hans hsub hpub
  obtain ⟨n, hn'⟩ : ∃ n, n = (newPages q).2 := ⟨_, rfl⟩
  rw [← hn'] at hn hturns ⊢
  have hmember {i : Nat} (hi : i ∈ chunkMembers m n) : m.group[i]? = some (m.group.getD i (0, 0, 0)) := by
    have hlt := List.mem_range.1 (List.mem_filter.1 hi).1
    rw [List.getD_eq_getElem _ _ hlt]
    exact List.getElem?_eq_getElem hlt
  obtain ⟨hall, htells, hget⟩ := asked_all (buf := buf) (key := chunkAsk) (mod := fun i => (m.group.getD i (0, 0, 0)).1)
    (q := fun i => .kvTake (m.group.getD i (0, 0, 0)).2.1 (m.group.getD i (0, 0, 0)).2.2 m.pageBytes (chunkPages m n i)) (chunkMembers m n)
    hread2.req (fun i _ => by rw [hasks2, hans2]; exact ⟨rfl, rfl⟩)
    ((List.nodup_range.filter _).map fun i j hij => Nat.add_left_cancel hij) (fun i hi => by
      rw [hasked2.calm.ownModule, hasked2.calm.choosePort_isSome]
      exact hfar _ (List.mem_of_getElem? (hmember hi)))
  obtain ⟨t, ht⟩ : ∃ t, t = (chunkMembers m n).foldl (chunkQuestion rid buf m n) w := ⟨_, rfl⟩
  obtain ⟨q3, hq3⟩ : ∃ q3, q3 = { q2 with asks := (chunkMembers m n).foldl (fun a i => tabPut a (chunkAsk i) (m.group.getD i (0, 0, 0)).1) q2.asks } :=
    ⟨_, rfl⟩
  have hall : Asked w t rid := ht ▸ hall
  have hget : getReq t rid = some q3 := by rw [ht, hq3]; exact hget
  have htells : ∀ i ∈ chunkMembers m n, Claim.purserTells t (m.group.getD i (0, 0, 0)).1 (.ask rid (chunkAsk i)
      (.kvTake (m.group.getD i (0, 0, 0)).2.1 (m.group.getD i (0, 0, 0)).2.2 m.pageBytes (chunkPages m n i))) := ht ▸ htells
  have hstage3 : tabGet {} q3.stages 0x14 = { tabGet {} q.stages 0x14 with sub := 2 } := by rw [hq3]; exact hstage2
  have hread3 : Reading rid q3 m t := hread2.after hall.mem hall.prt hget
    (.of_stages (by rw [hq3]) (by rw [hq3]) (by rw [hq3]) (by rw [hq3]) (by rw [hq3]))
  have hfirst : 0 ∈ chunkMembers m n := by
    obtain ⟨-, -, -, -, -, -, ⟨hgroup, -⟩, -, -, -, -, -, hm⟩ := h.reads
    have hlen : 1 ≤ m.group.length := by rw [hm]; simpa using hgroup
    refine List.mem_filter.2 ⟨List.mem_range.2 hlen, decide_eq_true ?_⟩
    rw [chunkPages]
    intro hz
    obtain ⟨h0, hrest⟩ := Nat.add_eq_zero_iff.1 hz
    have hmod := Nat.div_add_mod n m.group.length
    rw [h0, Nat.mul_zero, Nat.zero_add] at hmod
    rw [if_pos (by rw [hmod]; omega)] at hrest
    cases hrest
  obtain ⟨z, hz, hrest⟩ := prefillWork_idle (buf := buf) (by rw [hstage3]; show 2 < 3; decide) (fun v hv => by
    have hwait : allAnswered v rid ((chunkMembers m (newPages q3).2).map chunkAsk) = none := by
      have hpages3 : newPages q3 = newPages q := by rw [hq3]; exact hsame2.newPages
      rw [hpages3, ← hn']
      exact allAnswered_none hv (List.mem_map_of_mem hfirst) (by rw [hq3]; show tabFind q2.answers _ = none; rw [hans2]; rfl)
    rw [prefillNext, hstage3]
    show prefillGranted v rid buf q3 m = v
    rw [prefillGranted]
    dsimp only
    rw [hwait]) f hread3
  rw [hturns, ← ht, hrest]
  refine ⟨(hasked2.trans hall).trans (hz.asked rid), fun i x hx hpi => ?_, q3, (hz.getReq rid).trans hget, hstage3⟩
  have hlt : i < m.group.length := (List.getElem?_eq_some_iff.1 hx).1
  have hi : i ∈ chunkMembers m n := List.mem_filter.2 ⟨List.mem_range.2 hlt, decide_eq_true hpi⟩
  have hxd : m.group.getD i (0, 0, 0) = x := Option.some.inj ((hmember hi).symm.trans hx)
  have htell := htells i hi
  rw [hxd] at htell
  exact (hz.asked rid).calm.tells htell

end

/-! ### What came back -/

/-- Pages of other modules are given back by message. -/
theorem freePages_tells {x : Nat} (l : List Nat) (hx : x ∈ l) : ∀ {s : State}, globalModule x ≠ ownModule s →
    (choosePort s (globalModule x)).isSome = true → Claim.purserTells (freePages s l) (globalModule x) (.kvFree [localPart x]) := by
  induction l with
  | nil => exact absurd hx List.not_mem_nil
  | cons y l ih =>
    intro s hfar hpath
    have hone := freePages_quiet s [y]
    have hcons : freePages s (y :: l) = freePages (freePages s [y]) l := rfl
    rw [hcons]
    obtain rfl | hx := List.mem_cons.1 hx
    · refine (freePages_quiet _ l).2.2.tells ?_
      have hsend : freePages s [x] = purserSend s (globalModule x) (.kvFree [localPart x]) := if_neg hfar
      rw [hsend]
      exact purserSend_tells hpath _
    · exact ih hx (by rw [hone.2.2.ownModule]; exact hfar) (by rw [hone.2.2.choosePort_isSome]; exact hpath)

/-- The pages that the chunks' modules gave. -/
def givenPages (q : Request) (l : List Nat) : List Nat := l.flatMap fun i => ((tabFind q.answers (chunkAsk i)).getD {}).pages

theorem givenPages_eq {v : State} {rid : Nat} {q : Request} (hv : getReq v rid = some q) (l : List Nat)
    (hall : ∀ i ∈ l, ∃ a, tabFind q.answers (chunkAsk i) = some a) :
    ((l.map chunkAsk).filterMap (Machine.answered v rid)).flatMap Answer.pages = givenPages q l := by
  induction l with
  | nil => rfl
  | cons i l ih =>
    obtain ⟨a, ha⟩ := hall i List.mem_cons_self
    have hans : Machine.answered v rid (chunkAsk i) = some a := (answered_of hv _).trans ha
    rw [List.map_cons, List.filterMap_cons_some hans, List.flatMap_cons, ih fun j hj => hall j (List.mem_cons_of_mem _ hj), givenPages,
      givenPages, List.flatMap_cons, ha]
    rfl

theorem granted_of_given {q : Request} {l : List Nat} (hl : ∀ i ∈ l, i ≤ 64) {x : Nat} (hx : x ∈ givenPages q l) : x ∈ grantedPages q := by
  obtain ⟨i, hi, hxi⟩ := List.mem_flatMap.1 hx
  cases ha : tabFind q.answers (chunkAsk i) with
  | none => rw [ha] at hxi; exact absurd hxi List.not_mem_nil
  | some a =>
    rw [ha] at hxi
    refine List.mem_flatMap.2 ⟨(chunkAsk i, a), List.mem_filter.2 ⟨mem_of_tabFind ha, ?_⟩, hxi⟩
    have hle := hl i hi
    have hpage : chunkAsk i ≤ pageAsk := by unfold chunkAsk pageAsk; omega
    exact Bool.and_eq_true_iff.2 ⟨decide_eq_true (Nat.le_add_right _ _), decide_eq_true hpage⟩

section
variable {rid buf : Nat} {q : Request} {m : Model} {u : State} (h : Reading rid q m u) (hsub : (tabGet {} q.stages 0x14).sub = 2)
include h hsub

/-- With every chunk's pages given, they are the request's. -/
theorem chunks_granted (hcached : q.cached % 256 = 0)
    (hall : ∀ i ∈ chunkMembers m (newPages q).2, ∃ a, tabFind q.answers (chunkAsk i) = some a ∧ a.status.good = true) (f : Nat) :
    Asked u (prefillWork rid buf (f + 1) u) rid ∧ ∃ r', getReq (prefillWork rid buf (f + 1) u) rid = some r' ∧
      r'.pages = (givenPages q (chunkMembers m (newPages q).2)).zipIdx.map (fun a => ((newPages q).1 + a.2, a.1)) ∧
      (tabGet {} r'.stages 0x14).step = 1 := by
  obtain ⟨v, hv, hturn⟩ := prefillWork_turn (buf := buf) h (by rw [hsub]; decide)
  have hvreq := (hv.getReq rid).trans h.req
  obtain ⟨pages, hpages⟩ : ∃ l, l = (givenPages q (chunkMembers m (newPages q).2)).zipIdx.map (fun a => ((newPages q).1 + a.2, a.1)) := ⟨_, rfl⟩
  have hgood : allAnswered v rid ((chunkMembers m (newPages q).2).map chunkAsk) = some .ok := allAnswered_good hvreq fun k hk => by
    obtain ⟨i, hi, rfl⟩ := List.mem_map.1 hk
    exact hall i hi
  have hnext : prefillNext rid buf q m v = prefillReady (modReq (clearAnswers v rid) rid fun r => { r with pages := pages }) rid := by
    rw [prefillNext, hsub]
    show prefillGranted v rid buf q m = _
    rw [prefillGranted]
    dsimp only
    rw [hgood, givenPages_eq hvreq _ fun i hi => (hall i hi).imp fun _ ha => ha.1, ← hpages]
    exact if_pos hcached
  have hget : getReq (prefillNext rid buf q m v) rid =
      some (({ q with answers := [], pages := pages } : Request).modStage 0x14 fun g => { g with step := 1, sub := 0 }) := by
    rw [hnext]
    exact getReq_modReq (getReq_modReq (getReq_modReq hvreq _) _) _
  have hstop : (tabGet {} (({ q with answers := [], pages := pages } : Request).modStage 0x14
      fun g => { g with step := 1, sub := 0 }).stages 0x14).step = 1 := by
    rw [tabGet_modStage]
  rw [hturn, prefillWork_stops hget (.inr (by rw [hstop]; decide)), ← hpages]
  refine ⟨(hv.asked rid).trans ?_, _, hget, rfl, hstop⟩
  rw [hnext]
  exact ((Asked.modReq v rid _).trans (.modReq _ rid _)).trans (.modReq _ rid _)

/-- With a pool that lacks pages, what the others gave goes back. -/
theorem chunks_refused {st : Status} (hst : allAnswered u rid ((chunkMembers m (newPages q).2).map chunkAsk) = some st)
    (hbad : st.good = false) (f : Nat) : ∃ v, Charged u v ∧ prefillWork rid buf (f + 1) u =
      stageWorked (clearAnswers (freePages v (grantedPages q)) rid) rid 0x14 st := by
  obtain ⟨v, hv, hturn⟩ := prefillWork_turn (buf := buf) h (by rw [hsub]; decide)
  have hvreq := (hv.getReq rid).trans h.req
  have hnext : prefillNext rid buf q m v = stageWorked (clearAnswers (freePages v (grantedPages q)) rid) rid 0x14 st := by
    have hstv : allAnswered v rid ((chunkMembers m (newPages q).2).map chunkAsk) = some st := by
      rw [allAnswered_of_reqs (s := u) (by rw [hv.eq]), hst]
    have hbad' : (!st.good) = true := by rw [hbad]; rfl
    rw [prefillNext, hsub]
    show prefillGranted v rid buf q m = _
    rw [prefillGranted]
    dsimp only
    rw [hstv]
    dsimp only
    rw [if_pos hbad', hvreq]
    rfl
  have hfree : getReq (freePages v (grantedPages q)) rid = some q := (getReq_of_reqs (freePages_quiet v _).2.1 rid).trans hvreq
  have hget : getReq (prefillNext rid buf q m v) rid = some (({ q with answers := [] } : Request).modStage 0x14 fun g => { g with phase := .worked st }) := by
    rw [hnext]
    exact getReq_modReq (getReq_modReq hfree _) _
  refine ⟨v, hv, ?_⟩
  rw [hturn, prefillWork_stops hget (.inl (by rw [tabGet_modStage]; exact StagePhase.noConfusion)), hnext]

end

/-! ### Pages of a pool of this module -/

/-- The number of the only chunk's question. -/
theorem chunkMembers_one {m : Model} {x : Nat × Nat × Nat} (hgroup : m.group = [x]) (n : Nat) :
    chunkPages m n 0 = n ∧ chunkMembers m n = if n = 0 then [] else [0] := by
  have hpages : chunkPages m n 0 = n := by
    rw [chunkPages, hgroup, List.length_singleton, Nat.div_one, Nat.mod_one]
    rfl
  refine ⟨hpages, ?_⟩
  rw [chunkMembers, hgroup, List.length_singleton, List.range_one]
  by_cases hn : n = 0
  · rw [if_pos hn, List.filter_cons_of_neg (by rw [hpages]; simpa using hn)]
    rfl
  · rw [if_neg hn, List.filter_cons_of_pos (by rw [hpages]; simpa using hn)]
    rfl

theorem takeAnswer_awaited {z : State} {rid k m : Nat} {q : Request} (hz : getReq z rid = some q) (hask : tabFind q.asks k = some m) (a : Answer) :
    takeAnswer z m rid k a = putReq z rid { q with asks := tabDel q.asks k, answers := tabPut q.answers k a } := by
  rw [takeAnswer, hz]
  exact if_pos hask

/-- A request that has asked a question and has its answer, with no other. -/
structure HasAnswer (q q' : Request) (k : Nat) (a : Answer) : Prop where
  answers : q'.answers = [(k, a)]
  reading : SameReading q q'
  sub : (tabGet {} q'.stages 0x14).sub = (tabGet {} q.stages 0x14).sub

/-- What the pool answers goes to the request at once. -/
theorem chunk_answered {rid : Nat} {q : Request} {m : Model} {w z : State} (h : Reading rid q m w) (hans : q.answers = [])
    (hz : z.pur.reqs = (putReq w rid { q with asks := tabPut [] (chunkAsk 0) (ownModule w) }).pur.reqs)
    (hmem : z.mem = w.mem) (hprt : z.prt = w.prt) (hown : ownModule z = ownModule w) (a : Answer) : ∃ q', HasAnswer q q' (chunkAsk 0) a ∧
      answerAsk z (ownModule w) rid (chunkAsk 0) a = putReq z rid q' ∧ Reading rid q' m (putReq z rid q') ∧ Claim.otherReqs w (putReq z rid q') rid := by
  have hget : getReq z rid = some { q with asks := tabPut [] (chunkAsk 0) (ownModule w) } := (getReq_of_reqs hz rid).trans (getReq_putReq _ _ _)
  obtain ⟨asks, hasks⟩ : ∃ l, l = tabDel (tabPut [] (chunkAsk 0) (ownModule w)) (chunkAsk 0) := ⟨_, rfl⟩
  obtain ⟨q', hq'⟩ : ∃ q' : Request, q' = { q with asks := asks, answers := tabPut q.answers (chunkAsk 0) a } := ⟨_, rfl⟩
  have htold : HasAnswer q q' (chunkAsk 0) a := by
    rw [hq']
    exact ⟨by rw [hans]; rfl, .of_stages rfl rfl rfl rfl rfl, rfl⟩
  refine ⟨q', htold, ?_, h.after hmem (by show SamePrt w.prt z.prt; rw [hprt]; exact .refl _) (getReq_putReq _ _ _) htold.reading, ?_⟩
  · rw [answerAsk, if_pos hown.symm, takeAnswer_awaited hget (tabFind_tabPut_self _ _ _), hq', hasks]
  · exact otherReqs_trans (otherReqs_trans (otherReqs_putReq w rid _) (otherReqs_of_reqs hz rid)) (otherReqs_putReq z rid q')

section
variable {rid buf : Nat} {q : Request} {m : Model} {w : State} (h : Reading rid q m w) (hasks : q.asks = []) (hans : q.answers = [])
  {pool count : Nat} (hgroup : m.group = [(ownModule w, pool, count)]) (n : Nat)
include h hasks hans hgroup

/-- The pages of the only chunk are asked for here. -/
theorem chunkQuestion_here : chunkQuestion rid buf m n w 0 =
    serveAsk (putReq w rid { q with asks := tabPut [] (chunkAsk 0) (ownModule w) }) (ownModule w) rid (chunkAsk 0)
      (.kvTake pool count m.pageBytes n) buf := by
  have hn : chunkPages m n 0 = n := (chunkMembers_one hgroup n).1
  rw [chunkQuestion, hn, hgroup, ask, h.req]
  simp only [hasks, hans, tabFind, Option.isSome_none, Bool.or_false, Bool.false_eq_true, if_false, List.getD_cons_zero, if_true]

theorem chunk_taken (hpb : 0 < m.pageBytes) (hn : n ≤ (freeInPool w pool count m.pageBytes).length) : ∃ (as : List Nat) (q' : Request) (x : State),
    HasAnswer q q' (chunkAsk 0) { data := as.map fun a => toLe 8 (globalAddr (ownModule w) a) } ∧ as.length = n ∧ as.Nodup ∧
    (∀ a ∈ as, a ∈ freeInPool w pool count m.pageBytes ∧ a ∈ x.pur.kv) ∧ chunkQuestion rid buf m n w 0 = x ∧ Reading rid q' m x ∧
    Claim.otherReqs w x rid ∧ x.mem = w.mem := by
  obtain ⟨w1, hw1⟩ : ∃ w1, w1 = putReq w rid { q with asks := tabPut [] (chunkAsk 0) (ownModule w) } := ⟨_, rfl⟩
  have hfree : freeInPool w1 pool count m.pageBytes = freeInPool w pool count m.pageBytes := freeInPool_of_kv (by rw [hw1]; rfl)
  obtain ⟨as, z, htake, hlen, hnd, hin, heq, hheld⟩ := takePages_enough hpb n (s := w1) (by rw [hfree]; exact hn)
  rw [hfree] at hin
  have hmem : z.mem = w.mem := by rw [heq, hw1]; rfl
  have hprt : z.prt = w.prt := by rw [heq, hw1]; rfl
  have hown : ownModule z = ownModule w := by rw [heq, hw1]; rfl
  obtain ⟨q', htold, hanswer, hread, hothers⟩ := chunk_answered h hans (z := z) (by rw [heq, hw1]) hmem hprt hown
    { data := as.map fun a => toLe 8 (globalAddr (ownModule w) a) }
  refine ⟨as, q', putReq z rid q', htold, hlen, hnd, fun a ha => ⟨hin a ha, hheld a (.inl ha)⟩, ?_, hread, hothers, hmem⟩
  rw [chunkQuestion_here h hasks hans hgroup, ← hw1, ← hanswer, serveAsk]
  · rw [show askWork (.kvTake pool count m.pageBytes n) = kvTakeWork pool count m.pageBytes n from rfl, kvTakeWork_gives htake, hown]
  · exact fun _ _ _ _ => PurserAsk.noConfusion
  · exact fun _ _ _ _ _ _ _ _ => PurserAsk.noConfusion

theorem chunk_lacks (hpb : 0 < m.pageBytes) (hn : (freeInPool w pool count m.pageBytes).length < n) : ∃ q' x,
    HasAnswer q q' (chunkAsk 0) { status := .mapOverflow } ∧ chunkQuestion rid buf m n w 0 = x ∧ Reading rid q' m x ∧
    Claim.otherReqs w x rid ∧ x.mem = w.mem ∧ x.pur.kv = w.pur.kv := by
  obtain ⟨w1, hw1⟩ : ∃ w1, w1 = putReq w rid { q with asks := tabPut [] (chunkAsk 0) (ownModule w) } := ⟨_, rfl⟩
  have hfree : freeInPool w1 pool count m.pageBytes = freeInPool w pool count m.pageBytes := freeInPool_of_kv (by rw [hw1]; rfl)
  have htake := takePages_lacks (pool := pool) (n := count) hpb n (s := w1) (by rw [hfree]; exact hn)
  obtain ⟨q', htold, hanswer, hread, hothers⟩ := chunk_answered h hans (z := w1) (by rw [hw1]) (by rw [hw1]; rfl)
    (by rw [hw1]; rfl) (by rw [hw1]; rfl) { status := .mapOverflow }
  refine ⟨q', putReq w1 rid q', htold, ?_, hread, hothers, by rw [hw1]; rfl, by rw [hw1]; rfl⟩
  rw [chunkQuestion_here h hasks hans hgroup, ← hw1, ← hanswer, serveAsk]
  · rw [show askWork (.kvTake pool count m.pageBytes n) = kvTakeWork pool count m.pageBytes n from rfl, kvTakeWork_lacks htake]
  · exact fun _ _ _ _ => PurserAsk.noConfusion
  · exact fun _ _ _ _ _ _ _ _ => PurserAsk.noConfusion

/-- A pool with enough free pages gives every chunk its pages. -/
theorem pool_given (hpb : 0 < m.pageBytes) (hend : pool + count * m.pageBytes ≤ 2 ^ 48)
    (hn : n ≤ (freeInPool w pool count m.pageBytes).length) : ∃ (as : List Nat) (q' : Request) (x : State),
    (chunkMembers m n).foldl (chunkQuestion rid buf m n) w = x ∧ Reading rid q' m x ∧ SameReading q q' ∧
    (tabGet {} q'.stages 0x14).sub = (tabGet {} q.stages 0x14).sub ∧ Claim.otherReqs w x rid ∧ x.mem = w.mem ∧
    (∀ i ∈ chunkMembers m n, ∃ a, tabFind q'.answers (chunkAsk i) = some a ∧ a.status.good = true) ∧
    givenPages q' (chunkMembers m n) = as.map (globalAddr (ownModule w)) ∧ as.length = n ∧ as.Nodup ∧
    ∀ a ∈ as, a ∈ freeInPool w pool count m.pageBytes ∧ a ∈ x.pur.kv := by
  rw [(chunkMembers_one hgroup n).2]
  by_cases hz : n = 0
  · rw [if_pos hz]
    exact ⟨[], q, w, rfl, h, .of_stages rfl rfl rfl rfl rfl, rfl, fun _ _ => rfl, rfl, fun _ hi => absurd hi List.not_mem_nil, rfl, hz.symm, .nil,
      fun _ ha => absurd ha List.not_mem_nil⟩
  · obtain ⟨as, q', x, ⟨hanswers, hsame, hsub⟩, hlen, hnd, hin, hx, hread, hothers, hmem⟩ :=
      chunk_taken (buf := buf) h hasks hans hgroup n hpb hn
    rw [if_neg hz]
    have hfind : tabFind q'.answers (chunkAsk 0) = some { data := as.map fun a => toLe 8 (globalAddr (ownModule w) a) } := by
      rw [hanswers, tabFind, if_pos rfl]
    refine ⟨as, q', x, hx, hread, hsame, hsub, hothers, hmem, fun i hi => ?_, ?_, hlen, hnd, hin⟩
    · rw [List.mem_singleton.1 hi]
      exact ⟨_, hfind, rfl⟩
    · rw [givenPages, List.flatMap_singleton, hfind, Option.getD_some, Answer.pages, List.map_map]
      refine List.map_congr_left fun a ha => ?_
      have hlt : a < 2 ^ 48 := Nat.lt_of_lt_of_le (freeInPool_lt hpb (hin a ha).1) hend
      rw [Function.comp_apply, leNat_globalAddr hlt (ownModule_lt w)]

end

theorem allAnswered_bad {v : State} {rid key : Nat} {q : Request} {a : Answer} (hq : getReq v rid = some q)
    (ha : tabFind q.answers key = some a) (hbad : a.status.good = false) : allAnswered v rid [key] = some a.status := by
  have hans : Machine.answered v rid key = some a := (answered_of hq key).trans ha
  simp [allAnswered, hans, hbad]

/-! ### The row -/

/-- A page is not empty. -/
theorem pageBytes_pos {s : State} {rid : Nat} {r : Request} {m : Model} (h : Claim.prefillOn s rid r m) : 0 < m.pageBytes := by
  obtain ⟨-, -, -, hread⟩ := h
  obtain ⟨-, -, -, ⟨hlayers, -⟩, ⟨hheads, -⟩, ⟨hdim, -⟩, -, -, hpage, -, -, -, hm⟩ := hread
  have hsize : m.pageBytes = fld (memRead s.mem.bytes (tabGet {} r.stages 0x14).param 128) 16 8 := by rw [hm]
  rw [hsize, hpage, pageSize]
  have hsum : 0 < kvSummary (fld (memRead s.mem.bytes (tabGet {} r.stages 0x14).param 128) 6 2) := by
    have := le_up64 (fld (memRead s.mem.bytes (tabGet {} r.stages 0x14).param 128) 6 2 + fld (memRead s.mem.bytes (tabGet {} r.stages 0x14).param 128) 6 2 / 32)
    rw [kvSummary]
    omega
  exact Nat.mul_pos (Nat.mul_pos hlayers hheads) (by omega)

/-- A group has at most 64 members. -/
theorem chunkMembers_le {s : State} {rid : Nat} {r : Request} {m : Model} (h : Claim.prefillOn s rid r m) {n i : Nat}
    (hi : i ∈ chunkMembers m n) : i ≤ 64 := by
  obtain ⟨-, -, -, hread⟩ := h
  obtain ⟨-, -, -, -, -, -, ⟨-, hgroup⟩, -, -, -, -, -, hm⟩ := hread
  have hlt := List.mem_range.1 (List.mem_filter.1 hi).1
  have hlen : m.group.length ≤ 64 := by rw [hm]; simpa using hgroup
  omega

section
variable {s : State} {rid buf : Nat} {r : Request} {m : Model} (h : Claim.prefillOn s rid r m) {g : Stage} (hg : tabGet {} r.stages 0x14 = g)
include h hg

theorem prefillOn_reading (hstep : g.step = 0) : Reading rid r m s := by
  obtain ⟨⟨hr, hphase, -⟩, hs, ho, hread⟩ := h
  exact ⟨hr, hs, ho, hread, hphase, by rw [hg]; exact hstep⟩

/-- PREFILL of a request that has no pages yet. -/
theorem prefill_goes (hstep : g.step = 0) {P : State → Prop}
    (hwork : P (noteStep (prefillWork rid buf 4 (if g.sub = 0 then clearAnswers s rid else s)) g.cmd)) : Does (.prefill rid buf) s P := by
  refine does_of (congrArg Host.Outcome.next ?_) hwork
  rw [prefillStage, stageRow_on h.1, hg, if_neg (not_not_intro hstep)]

/-- PREFILL from its start: no answer stands. -/
theorem prefill_starts (hstep : g.step = 0) (hsub : g.sub = 0) {P : State → Prop}
    (hwork : ∀ u, Asked s u rid → Reading rid { r with answers := [] } m u →
      P (noteStep (prefillWork rid buf 4 u) g.cmd)) : Does (.prefill rid buf) s P := by
  refine prefill_goes h hg hstep ?_
  rw [if_pos hsub]
  have hread := prefillOn_reading h hg hstep
  have hclear : clearAnswers s rid = putReq s rid { r with answers := [] } := modReq_of h.1.1 _
  rw [hclear]
  exact hwork _ (.putReq s rid _) (hread.after rfl (.refl _) (getReq_putReq _ _ _) (.of_stages rfl rfl rfl rfl rfl))

/-! ### A segment to publish -/

/-- A segment to publish is asked about first. -/
theorem prefill_publishes (hstep : g.step = 0) (hsub : g.sub = 0) (hasks : r.asks = []) (hpub : m.publish ≠ 0)
    (hfar : globalModule m.publish ≠ ownModule s) (hpath : (choosePort s (globalModule m.publish)).isSome = true) :
    Does (.prefill rid buf) s fun t =>
      Claim.purserTells t (globalModule m.publish) (.ask rid segmentAsk (.segRead (localPart m.publish))) ∧
      Claim.otherReqs s t rid ∧ t.mem = s.mem ∧ ∃ r', getReq t rid = some r' ∧ tabGet {} r'.stages 0x14 = { g with sub := 1 } := by
  refine prefill_starts h hg hstep hsub fun u hu hread => ?_
  obtain ⟨hasked, htells, r', hr', hstage⟩ := publish_asked (buf := buf) hread hasks rfl (hg.symm ▸ hsub) hpub
    (by rw [hu.calm.ownModule]; exact hfar) (by rw [hu.calm.choosePort_isSome]; exact hpath) 3
  have hall := hu.trans hasked
  refine ⟨noteStep_tells htells _, (hall.noteStep _).1, (hall.noteStep _).2, r', (noteStep_getReq _ _ _).trans hr', ?_⟩
  rw [hstage]
  exact congrArg (fun g : Stage => { g with sub := 1 }) hg

/-- Of pools on other modules their pursers are asked for the chunks' pages. -/
theorem prefill_asks (hstep : g.step = 0) (hsub : g.sub = 0) (hasks : r.asks = []) (hpub : m.publish = 0) (hn : (newPages r).2 ≠ 0)
    (hfar : ∀ x ∈ m.group, x.1 ≠ ownModule s ∧ (choosePort s x.1).isSome = true) : Does (.prefill rid buf) s fun t =>
      (∀ i x, m.group[i]? = some x → chunkPages m (newPages r).2 i ≠ 0 →
        Claim.purserTells t x.1 (.ask rid (chunkAsk i) (.kvTake x.2.1 x.2.2 m.pageBytes (chunkPages m (newPages r).2 i)))) ∧
      Claim.otherReqs s t rid ∧ t.mem = s.mem ∧ ∃ r', getReq t rid = some r' ∧ tabGet {} r'.stages 0x14 = { g with sub := 2 } := by
  refine prefill_starts h hg hstep hsub fun u hu hread => ?_
  obtain ⟨hasked, htells, r', hr', hstage⟩ := far_chunks (buf := buf) hread hasks rfl (hg.symm ▸ hsub) hpub hn
    (fun x hx => by rw [hu.calm.ownModule, hu.calm.choosePort_isSome]; exact hfar x hx) 2
  have hall := hu.trans hasked
  refine ⟨fun i x hx hpi => noteStep_tells (htells i x hx hpi) _, (hall.noteStep _).1, (hall.noteStep _).2, r', (noteStep_getReq _ _ _).trans hr', ?_⟩
  rw [hstage]
  exact congrArg (fun g : Stage => { g with sub := 2 }) hg

/-! ### The pages of a pool of this module -/

/-- The only chunk's pool: where the PREFILL stands when it asks for the pages. -/
theorem prefill_pool (hstep : g.step = 0) (hsub : g.sub = 0) (hasks : r.asks = []) (hpub : m.publish = 0) {P : State → Prop}
    (hwork : ∀ w q, Asked s w rid → Reading rid q m w → q.asks = [] → q.answers = [] → SameReading r q → (tabGet {} q.stages 0x14).sub = 2 →
      P (noteStep (prefillWork rid buf 2 ((chunkMembers m (newPages r).2).foldl (chunkQuestion rid buf m (newPages r).2) w)) g.cmd)) :
    Does (.prefill rid buf) s P := by
  refine prefill_starts h hg hstep hsub fun u hu hread => ?_
  obtain ⟨w, q, hw, hreadw, hasksw, hansw, hsame, hstage, hturn⟩ := chunks_asked (buf := buf) hread hasks rfl (hg.symm ▸ hsub) hpub
  rw [hturn]
  exact hwork w q (hu.trans hw) hreadw hasksw hansw (SameReading.trans (q' := { r with answers := [] }) (.of_stages rfl rfl rfl rfl rfl) hsame) (by rw [hstage])

/-- A local pool with enough free pages: they are the request's. -/
theorem prefill_takes (hstep : g.step = 0) (hsub : g.sub = 0) (hasks : r.asks = []) (hpub : m.publish = 0) {pool count : Nat}
    (hgroup : m.group = [(ownModule s, pool, count)]) (hcached : r.cached % 256 = 0) (hend : pool + count * m.pageBytes ≤ 2 ^ 48)
    (hn : (newPages r).2 ≤ (freeInPool s pool count m.pageBytes).length) : Does (.prefill rid buf) s fun t =>
      Claim.otherReqs s t rid ∧ t.mem = s.mem ∧ ∃ r', getReq t rid = some r' ∧ (tabGet {} r'.stages 0x14).step = 1 ∧
      r'.pages.map (·.1) = (List.range (newPages r).2).map ((newPages r).1 + ·) ∧ (r'.pages.map (·.2)).Nodup ∧
      ∀ p ∈ r'.pages, globalModule p.2 = ownModule s ∧ localPart p.2 ∈ freeInPool s pool count m.pageBytes ∧ localPart p.2 ∈ t.pur.kv := by
  have hpb := pageBytes_pos h
  refine prefill_pool h hg hstep hsub hasks hpub fun w q hw hread hasksq hansq hsame hsubq => ?_
  have hown : ownModule w = ownModule s := hw.calm.ownModule
  have hfree : freeInPool w pool count m.pageBytes = freeInPool s pool count m.pageBytes := freeInPool_of_kv (by rw [hw.eq])
  obtain ⟨as, q', x, hx, hreadx, hsame', hsub', hothers, hmem, hall, hgiven, hlen, hnd, hin⟩ :=
    pool_given (buf := buf) hread hasksq hansq (by rw [hown]; exact hgroup) (newPages r).2 hpb hend (by rw [hfree]; exact hn)
  have hpages : newPages q' = newPages r := (hsame.trans hsame').newPages
  obtain ⟨hasked, r', hr', hpages', hstep'⟩ := chunks_granted (buf := buf) hreadx (hsub'.trans hsubq)
    (by rw [hsame'.cached, hsame.cached]; exact hcached) (by rw [hpages]; exact hall) 1
  rw [hx]
  rw [hpages, hgiven, hown] at hpages'
  rw [hfree] at hin
  have hfst : r'.pages.map (·.1) = (List.range (newPages r).2).map ((newPages r).1 + ·) := by
    rw [hpages', List.map_map]
    refine (zipIdx_keys _ _).trans ?_
    rw [List.length_map, hlen]
  have hsnd : r'.pages.map (·.2) = as.map (globalAddr (ownModule s)) := by
    rw [hpages', List.map_map]
    exact List.zipIdx_map_fst 0 _
  have hlt {a : Nat} (ha : a ∈ as) : a < 2 ^ 48 := Nat.lt_of_lt_of_le (freeInPool_lt hpb (hin a ha).1) hend
  have hkv : (prefillWork rid buf 2 x).pur.kv = x.pur.kv := by rw [hasked.eq]
  refine ⟨?_, ?_, r', (noteStep_getReq _ _ _).trans hr', hstep', hfst, ?_, fun p hp => ?_⟩
  · exact otherReqs_trans hw.others (otherReqs_trans hothers (hasked.noteStep _).1)
  · rw [(hasked.noteStep _).2, hmem, hw.mem]
  · rw [hsnd]
    refine hnd.map_on fun a ha b hb hab => ?_
    rw [← localPart_globalAddr (own := ownModule s) (hlt ha), hab, localPart_globalAddr (hlt hb)]
  · have hp2 : p.2 ∈ as.map (globalAddr (ownModule s)) := hsnd ▸ List.mem_map_of_mem hp
    obtain ⟨a, ha, hpa⟩ := List.mem_map.1 hp2
    rw [← hpa, globalModule_globalAddr (hlt ha) (ownModule_lt s), localPart_globalAddr (hlt ha), noteStep_eq]
    exact ⟨rfl, (hin a ha).1, by rw [hkv]; exact (hin a ha).2⟩

/-- A pool that lacks pages ends the stage, and none is taken. -/
theorem prefill_lacks (hstep : g.step = 0) (hsub : g.sub = 0) (hasks : r.asks = []) (hpub : m.publish = 0) {pool count : Nat}
    (hgroup : m.group = [(ownModule s, pool, count)]) (hn : (freeInPool s pool count m.pageBytes).length < (newPages r).2) :
    Does (.prefill rid buf) s fun t => Claim.stageDone s t rid 0x14 .mapOverflow ∧ t.mem = s.mem ∧ t.pur.kv = s.pur.kv := by
  refine prefill_pool h hg hstep hsub hasks hpub fun w q hw hread hasksq hansq hsame hsubq => ?_
  have hown : ownModule w = ownModule s := hw.calm.ownModule
  have hfree : freeInPool w pool count m.pageBytes = freeInPool s pool count m.pageBytes := freeInPool_of_kv (by rw [hw.eq])
  have hgroup' : m.group = [(ownModule w, pool, count)] := by rw [hown]; exact hgroup
  obtain ⟨q', x, ⟨hanswers, hsame', hsub'⟩, hx, hreadx, hothers, hmem, hkv⟩ :=
    chunk_lacks (buf := buf) hread hasksq hansq hgroup' (newPages r).2 (pageBytes_pos h) (by rw [hfree]; exact hn)
  have hmembers : chunkMembers m (newPages r).2 = [0] := by
    rw [(chunkMembers_one hgroup' _).2, if_neg (by omega)]
  have hfold : (chunkMembers m (newPages r).2).foldl (chunkQuestion rid buf m (newPages r).2) w = x := by
    rw [hmembers, ← hx]
    rfl
  have hfind : tabFind q'.answers (chunkAsk 0) = some { status := .mapOverflow } := by
    rw [hanswers, tabFind, if_pos rfl]
  have hst : allAnswered x rid ((chunkMembers m (newPages q').2).map chunkAsk) = some .mapOverflow := by
    rw [(hsame.trans hsame').newPages, hmembers]
    exact allAnswered_bad hreadx.req hfind rfl
  obtain ⟨v, hv, hwork⟩ := chunks_refused (buf := buf) hreadx (hsub'.trans hsubq) hst rfl 1
  have hnone : freePages v (grantedPages q') = v := by
    have hgranted : grantedPages q' = [] := by
      refine List.eq_nil_iff_forall_not_mem.2 fun a ha => ?_
      obtain ⟨x, hx, hax⟩ := List.mem_flatMap.1 ha
      rw [hanswers] at hx
      rw [List.mem_singleton.1 (List.mem_filter.1 hx).1] at hax
      exact absurd hax List.not_mem_nil
    rw [hgranted]
    rfl
  obtain ⟨q3, hq3⟩ : ∃ q3 : Request, q3 = { q' with answers := [] } := ⟨_, rfl⟩
  have hclear : clearAnswers v rid = putReq v rid q3 := by rw [hq3]; exact modReq_of ((hv.getReq rid).trans hreadx.req) _
  have hasked : Asked x (putReq v rid q3) rid := (hv.asked rid).trans (.putReq v rid q3)
  have hothers' : Claim.otherReqs s (putReq v rid q3) rid := otherReqs_trans hw.others (otherReqs_trans hothers hasked.others)
  have hstages : ∀ o, o ≠ 0x14 → tabFind q3.stages o = tabFind r.stages o := by rw [hq3]; exact (hsame.trans hsame').others
  have hdone := stageDone_stageWorked .mapOverflow h.1.1 (getReq_putReq v rid q3) hothers' hstages
  rw [hfold, hwork, hnone, hclear]
  refine ⟨stageDone_noteStep hdone _, ?_, ?_⟩
  · rw [noteStep_mem, stageWorked_mem, hasked.mem, hmem, hw.mem]
  · have hend : (stageWorked (putReq v rid q3) rid 0x14 .mapOverflow).pur.kv = (putReq v rid q3).pur.kv := by rw [stageWorked, modReq_eq]
    rw [noteStep_eq]
    refine hend.trans ?_
    rw [hasked.eq]
    exact hkv.trans (by rw [hw.eq])

/-! ### The answers of the chunks' modules -/

/-- PREFILL that has asked already. -/
theorem prefill_resumes (hstep : g.step = 0) (hsub : g.sub ≠ 0) {P : State → Prop}
    (hwork : Reading rid r m s → P (noteStep (prefillWork rid buf 4 s) g.cmd)) : Does (.prefill rid buf) s P := by
  refine prefill_goes h hg hstep ?_
  rw [if_neg hsub]
  exact hwork (prefillOn_reading h hg hstep)

/-- With every chunk's pages given, they are the request's. -/
theorem prefill_granted (hstep : g.step = 0) (hsub : g.sub = 2) (hcached : r.cached % 256 = 0)
    (hall : ∀ i ∈ chunkMembers m (newPages r).2, ∃ a, tabFind r.answers (chunkAsk i) = some a ∧ a.status.good = true) :
    Does (.prefill rid buf) s fun t => Claim.otherReqs s t rid ∧ t.mem = s.mem ∧ ∃ r', getReq t rid = some r' ∧
      r'.pages = (givenPages r (chunkMembers m (newPages r).2)).zipIdx.map (fun a => ((newPages r).1 + a.2, a.1)) ∧
      (tabGet {} r'.stages 0x14).step = 1 := by
  refine prefill_resumes h hg hstep (by rw [hsub]; decide) fun hread => ?_
  obtain ⟨hasked, r', hr', hpages, hdone⟩ := chunks_granted (buf := buf) hread (by rw [hg, hsub]) hcached hall 3
  exact ⟨(hasked.noteStep _).1, (hasked.noteStep _).2, r', (noteStep_getReq _ _ _).trans hr', hpages, hdone⟩

/-- With a pool that lacks pages, the stage ends, and what the others gave goes back. -/
theorem prefill_refused (hstep : g.step = 0) (hsub : g.sub = 2) {st : Status}
    (hst : allAnswered s rid ((chunkMembers m (newPages r).2).map chunkAsk) = some st) (hbad : st.good = false) :
    Does (.prefill rid buf) s fun t => Claim.stageDone s t rid 0x14 st ∧ t.mem = s.mem ∧
      ∀ x ∈ givenPages r (chunkMembers m (newPages r).2), globalModule x ≠ ownModule s → (choosePort s (globalModule x)).isSome = true →
        Claim.purserTells t (globalModule x) (.kvFree [localPart x]) := by
  refine prefill_resumes h hg hstep (by rw [hsub]; decide) fun hread => ?_
  obtain ⟨v, hv, hwork⟩ := chunks_refused (buf := buf) hread (by rw [hg, hsub]) hst hbad 3
  obtain ⟨u, hu⟩ : ∃ u, u = freePages v (grantedPages r) := ⟨_, rfl⟩
  obtain ⟨hmem, hreqs, hcalm⟩ : Quiet v u := hu ▸ freePages_quiet v _
  obtain ⟨r1, hr1⟩ : ∃ r1 : Request, r1 = { r with answers := [] } := ⟨_, rfl⟩
  have hget : getReq u rid = some r := (getReq_of_reqs hreqs rid).trans ((hv.getReq rid).trans hread.req)
  have hclear : clearAnswers u rid = putReq u rid r1 := by rw [hr1]; exact modReq_of hget _
  have hothers : Claim.otherReqs s (putReq u rid r1) rid :=
    otherReqs_trans (hv.asked rid).others (otherReqs_trans (otherReqs_of_reqs hreqs rid) (otherReqs_putReq u rid r1))
  have hend : Asked u (stageWorked (putReq u rid r1) rid 0x14 st) rid := (Asked.putReq u rid r1).trans (.modReq _ rid _)
  rw [hwork, ← hu, hclear]
  refine ⟨stageDone_noteStep (stageDone_stageWorked st h.1.1 (getReq_putReq u rid r1) hothers fun o _ => by rw [hr1]) _, ?_, fun x hx hfar hpath => ?_⟩
  · rw [(hend.noteStep _).2, hmem, hv.mem]
  · have hvc := (hv.asked rid).calm
    refine noteStep_tells (hend.calm.tells ?_) _
    rw [hu]
    exact freePages_tells _ (granted_of_given (fun i hi => chunkMembers_le h hi) hx) (by rw [hvc.ownModule]; exact hfar)
      (by rw [hvc.choosePort_isSome]; exact hpath)

/-! ### The copy of the first page -/

theorem copy_awaited (hstep : g.step = 0) (hsub : g.sub = 3) (hnone : tabFind r.answers copyAsk = none) :
    Does (.prefill rid buf) s fun t => t.mem = s.mem ∧ t.pur.reqs = s.pur.reqs := by
  refine prefill_resumes h hg hstep (by rw [hsub]; decide) fun hread => ?_
  obtain ⟨v, hv, hturn⟩ := prefillWork_copy (buf := buf) hread (by rw [hg, hsub])
  have hans : Machine.answered v rid copyAsk = none := (answered_of ((hv.getReq rid).trans hread.req) _).trans hnone
  rw [hturn, hans]
  exact ⟨by rw [noteStep_mem, hv.mem], by rw [noteStep_reqs, hv.eq]⟩

theorem copy_made (hstep : g.step = 0) (hsub : g.sub = 3) {a : Answer} (ha : tabFind r.answers copyAsk = some a) (hgood : a.status.good = true) :
    Does (.prefill rid buf) s fun t => Claim.otherReqs s t rid ∧ t.mem = s.mem ∧ ∃ r', getReq t rid = some r' ∧
      (tabGet {} r'.stages 0x14).step = 1 ∧ r'.pages = r.pages := by
  refine prefill_resumes h hg hstep (by rw [hsub]; decide) fun hread => ?_
  obtain ⟨v, hv, hturn⟩ := prefillWork_copy (buf := buf) hread (by rw [hg, hsub])
  have hvreq := (hv.getReq rid).trans hread.req
  have hans : Machine.answered v rid copyAsk = some a := (answered_of hvreq _).trans ha
  rw [hturn, hans]
  dsimp only
  rw [if_pos hgood]
  have hasked : Asked s (prefillReady (clearAnswers v rid) rid) rid := ((hv.asked rid).trans (.modReq v rid _)).trans (.modReq _ rid _)
  refine ⟨(hasked.noteStep _).1, (hasked.noteStep _).2, _, (noteStep_getReq _ _ _).trans (getReq_modReq (getReq_modReq hvreq _) _), ?_, rfl⟩
  rw [tabGet_modStage]

theorem copy_failed (hstep : g.step = 0) (hsub : g.sub = 3) {a : Answer} (ha : tabFind r.answers copyAsk = some a) (hbad : a.status.good = false) :
    Does (.prefill rid buf) s fun t => Claim.stageDone s t rid 0x14 a.status ∧ t.mem = s.mem := by
  refine prefill_resumes h hg hstep (by rw [hsub]; decide) fun hread => ?_
  obtain ⟨v, hv, hturn⟩ := prefillWork_copy (buf := buf) hread (by rw [hg, hsub])
  have hvreq := (hv.getReq rid).trans hread.req
  have hans : Machine.answered v rid copyAsk = some a := (answered_of hvreq _).trans ha
  rw [hturn, hans]
  dsimp only
  rw [if_neg (by rw [hbad]; decide)]
  exact ⟨stageDone_noteStep (stageDone_stageWorked a.status h.1.1 hvreq (hv.asked rid).others fun _ _ => rfl) _,
    by rw [noteStep_mem, stageWorked_mem, hv.mem]⟩

end

/-- PREFILL takes the pages of the new positions. -/
theorem pagesTaken : Claim.pagesTaken := by
  intro rid buf r m s h
  obtain ⟨g, hg⟩ : ∃ g, tabGet {} r.stages 0x14 = g := ⟨_, rfl⟩
  dsimp only
  rw [hg]
  intro hstep
  refine ⟨fun pool count hsub hasks hpub hgroup hcached hend => ⟨fun hn => prefill_takes h hg hstep hsub hasks hpub hgroup hcached hend hn,
    fun hn => prefill_lacks h hg hstep hsub hasks hpub hgroup hn⟩,
    fun hsub hasks hpub hn hfar => prefill_asks h hg hstep hsub hasks hpub hn hfar,
    fun hsub hasks hpub hfar hpath => prefill_publishes h hg hstep hsub hasks hpub hfar hpath,
    fun hsub hcached hall => ⟨fun hgood => prefill_granted h hg hstep hsub hcached fun i hi => ?_,
      fun st hst hbad => prefill_refused h hg hstep hsub hst hbad⟩,
    fun hsub => ⟨copy_awaited h hg hstep hsub, fun a ha => ⟨copy_made h hg hstep hsub ha, copy_failed h hg hstep hsub ha⟩⟩⟩
  obtain ⟨a, ha⟩ := hall i hi
  exact ⟨a, ha, hgood i hi a ha⟩

/-- Settles O52: PREFILL takes its pages as its questions are answered (`pagesTaken`), and its layers run on their modules
(`layersRun`); before the last layer ends, what the attention and the K and V of this module store stays within the working
space and the request's pages. -/
theorem prefillTakesPages : Obligations.PrefillTakesPages := ⟨pagesTaken, layersRun⟩

end Sys2Proof.Proofs
end
